-- ==== Sys2Proof/Word.lean ====
section
/-! DEFINITION. The word types of the VX12 (R2, R18): plain bit vectors. -/

namespace Sys2Proof

/-- One byte. -/
abbrev Byte := BitVec 8
/-- A 16-bit field. -/
abbrev W16 := BitVec 16
/-- A 32-bit field: tags, fault codes, schema descriptors. -/
abbrev W32 := BitVec 32
/-- A 64-bit register, host address or atomic operand. -/
abbrev W64 := BitVec 64
/-- A 128-bit attribute word (R82) or pattern step word (R55). -/
abbrev W128 := BitVec 128
/-- The bits of an IEEE 754 binary32 value (R18). -/
abbrev F32 := BitVec 32
/-- The bits of a bf16 value (R18). -/
abbrev Bf16 := BitVec 16
/-- An epoch of a collection (R87); 0 never names a commit. -/
abbrev Epoch := BitVec 32
/-- An external 64-bit key (R97). -/
abbrev Key := BitVec 64
/-- A table of records by number, in ascending order of the number, each number at most once. -/
abbrev Tbl (α : Type) := List (Nat × α)

end Sys2Proof
end

