-- ==== Sys2Proof/Syntax.lean ====
section
/-! DEFINITION. The commands of the block: one constructor of `Instr` for each row of spec/opcode_table.json.
An operand names the object the command meets (partition, anvil, ring, port, mailbox, command number, collection)
or carries what reaches the block from outside it (bytes the host returns, a measured temperature or power,
an error a memory read met). -/

namespace Sys2Proof

/-- How a host read ended (R273, R284, R312, R134). -/
inductive ReadReply where
  | data (bytes : List Byte)
  | ur
  | ca
  | poison
  | timeout
  deriving DecidableEq, Repr

/-- The 10 ms limit of a command that awaits its payload doorbell, and whether the doorbell meets it in one cycle (R283). -/
structure DoorbellLimit where
  cmd : Nat
  met : Bool
  deriving DecidableEq, Repr

/-- How the host answered a CXL.cache write (R182, R184). -/
inductive AckReply where
  | ok
  | error
  | poison
  deriving DecidableEq, Repr

/-- The path of a register write: BAR0, BAR2 or BAR4 over CXL.io (R263), configuration space (R262), or the window of mailbox 3 over the sideband
(R307). -/
inductive RegPath where
  | bar0
  | bar2
  | bar4
  | config
  | sideband
  deriving DecidableEq, Repr

/-- A host CXL.mem access to the HDM window (R265, R267). -/
inductive MemAccess where
  | read (len : Nat)
  | write (bytes : List Byte) (poison : Bool)
  deriving DecidableEq, Repr

/-- A host request the block answers as unsupported (R259, R263, R264). -/
inductive Unsupported where
  | feature
  | badAccess
  | memNotEnabled
  deriving DecidableEq, Repr

/-- Why a Hearth fault arises (R348 class 0x7, R360). -/
inductive HearthCause where
  | core
  | sram
  deriving DecidableEq, Repr

/-- One lane of a binding: the command and its row (R62, R127). -/
structure LaneReq where
  cmd : Nat
  row : Nat
  deriving DecidableEq, Repr

/-- Who issues a memory request (R197): an outstanding entry of an anvil, a partition's engine, or a unit on West
(Hearth, DMA engine, CXL.mem, device fold; R199). -/
inductive Requester where
  | anvil (p : Fin 12) (a : Fin 864) (i : Nat)
  | engine (p : Fin 12) (ctx : Nat) (cmd : Option Nat)
  | west (ctx cmd : Option Nat)
  deriving DecidableEq, Repr

/-- A memory request of an engine (R197): device address, and the bytes of a write or the length of a read. -/
structure MemReq where
  addr : Nat
  len : Nat
  write : Option (List Byte)
  deriving DecidableEq, Repr

/-- What a partition observed of itself in an 8 µs interval and the state does not count (R202): the fraction of the
throttled line rate that the stack served, in thousandths, and whether near requests waited behind far ones. -/
structure AdaptObs where
  utilMilli : Nat
  nearWaiting : Nat
  deriving DecidableEq, Repr

/-- A mismatching word that an Assay found (R426). -/
structure BadWord where
  addr : Nat
  pass : Nat
  element : Nat
  diff : BitVec 80
  deriving DecidableEq, Repr

/-- A node of the fold tree (R150). -/
inductive FoldNode where
  | row (p : Fin 12) (r : Fin 24)
  | partition (p : Fin 12)
  | device
  | root
  deriving DecidableEq, Repr

/-- A fold node, and whether its store meets an uncorrectable word (R348). -/
structure MergeAt where
  node : FoldNode
  ue : Bool
  deriving DecidableEq, Repr

/-- What a read of an anvil's scratchpad met (R76): nothing, a single-bit error, an uncorrectable error. -/
inductive SpRead where
  | clean
  | corrected
  | uncorrectable
  deriving DecidableEq, Repr

/-- What a request meets in its home's crucible (R218): no error or one corrected in line, an uncorrectable data error, one in a tag, one in
the holder table. -/
inductive CrucMet where
  | clean
  | data
  | tag
  | holder
  deriving DecidableEq, Repr

/-- An anvil of a partition, and what its local read met (R76). -/
structure AnvilRead where
  anvil : Fin 864
  met : SpRead
  deriving DecidableEq, Repr

/-- A request at its home, and what it meets in the crucible there (R218). -/
structure ServedReq where
  req : MemReq
  met : CrucMet
  deriving DecidableEq, Repr

/-- A write-combining fence that completes: its partition, and the words that the reads of R206 find uncorrectable, by line. -/
structure FenceDone where
  ptn : Fin 12
  bad : List (Nat × Nat)
  deriving DecidableEq, Repr

/-- A scrub burst (R222): its partition, and the lines found bad with their corrected words and their uncorrectable ones. -/
structure BurstDone where
  ptn : Fin 12
  found : List (Nat × Nat × List Nat)
  deriving DecidableEq, Repr

/-- A fault of an ingest engine (R348, class 0x4): an uncorrectable word of its SRAM, a commit queue inconsistent, an append outside the
collection's frames. -/
inductive IngestFault where
  | sramUe
  | commitSeq
  | append
  deriving DecidableEq, Repr

/-- A chunk of assignment that ends (R170, R242): its command, the first FORMAT 2 record, if one is, that was made under other parameters than the
collection's (R189), and the fault that the ingest engine meets, if it does (R348). -/
structure AssignDone where
  cmd : Nat
  foreign : Option Nat
  fault : Option IngestFault
  deriving DecidableEq, Repr

/-- A counting window of R362. -/
inductive WindowId where
  | partition (p : Fin 12)
  | links
  | chip
  deriving DecidableEq, Repr

/-- The scope of a zeroisation (R386). -/
inductive ZeroScope where
  | stack (p : Fin 12)
  | region (p : Fin 12) (r : Nat)
  | saveSlot (p : Fin 12) (s : Fin 12)
  deriving DecidableEq, Repr

/-- A command that waits for an amount (R296): the head of a ring, or a search that takes the rest of its amounts. -/
inductive AmountWaiter where
  | ring (r : Fin 1024)
  | cmd (c : Nat)
  deriving DecidableEq, Repr

/-- The two dies (R5). -/
inductive Die where
  | west
  | east
  deriving DecidableEq, Repr

/-- A flit as R327 lays it out, its CRC already checked (the failing case is FLIT_CRC_ERROR). -/
structure Flit where
  vc : Fin 4
  cls : Bool
  first : Bool
  last : Bool
  seq : BitVec 12
  ackValid : Bool
  ack : BitVec 12
  crVc : Fin 4
  crCls : Bool
  crCnt : Nat
  body : List Byte
  deriving DecidableEq, Repr

/-- The transports of the SPDM responder (R378). -/
inductive SpdmTransport where
  | doe
  | attest
  | mctp
  deriving DecidableEq, Repr

/-- The SPDM messages that change the block (R378, R380): a KEY_EXCHANGE; an END_SESSION and any other message of a secure session, whose contents
only the session sees; every other message, in the clear. -/
inductive SpdmKind where
  | keyExchange
  | endSession
  | secured
  | other
  deriving DecidableEq, Repr

/-- The level of the escalation ladder (R357) and its scope. -/
inductive LadderLevel where
  | l0 (ctx : Nat)
  | l1 (unit : Nat) (p : Nat)
  | l2 (p : Fin 12)
  | l3
  | l4
  deriving DecidableEq, Repr

/-- A PLDM sensor or effecter of R416. -/
inductive PldmSensor where
  | pin
  | vin
  | tjWest
  | tjEast
  | inlet
  | outlet
  | alertCause
  | plim
  deriving DecidableEq, Repr

/-- The commands of the block, one constructor per row of the table. -/
inductive Instr where
  -- host registers and doorbells
  | sqDoorbell (r : Fin 1024) (v : W64)
  | cqDoorbell (r : Fin 1024) (v : W64)
  | payloadDoorbell (r : Fin 1024) (v : W64)
  | evtPendClear (v : W64) (occ : W16)
  | evtMaskWrite (v : W64)
  | msixUnmask (vec : Fin 2048)
  | registerWrite (path : RegPath) (off : Nat) (size : Nat) (v : W64)
  -- rings
  | entryFetch (r : Fin 1024) (reply : ReadReply)
  | nop (r : Fin 1024)
  | fence (r : Fin 1024)
  | search (r : Fin 1024) (far : ReadReply)
  | searchHybrid (r : Fin 1024) (far : ReadReply)
  | searchExact (r : Fin 1024) (far : ReadReply)
  | insert (r : Fin 1024)
  | upsert (r : Fin 1024)
  | delete (r : Fin 1024)
  | flush (r : Fin 1024)
  | epochQuery (r : Fin 1024)
  | bulkLoad (r : Fin 1024)
  | exportColl (r : Fin 1024)
  | trdyTimeout (c : DoorbellLimit)
  | stagedPayloadRead (c : Nat)
  | stagingReuse (c : Nat)
  | dmaReadComplete (c : Nat) (reply : ReadReply)
  | dmaTimeout (c : Nat)
  | completionWrite (c : Nat) (solo : Nat)
  | ctimeExpiry (r : Fin 1024)
  | hostWriteAccept
  -- host link
  | linkTrained (width : Nat) (rate : Nat) (flitMode : Bool)
  | linkRetrainTimer
  | linkDown
  | d3hotEntry
  | d0Entry
  | aspmL1Entry
  | aspmL1Exit
  | perstAssert
  | perstDeassert
  | cxlEnable (cache : Bool) (mem : Bool) (hdm : Bool)
  | cxlMemAccess (off : Nat) (acc : MemAccess)
  | unsupportedRequest (kind : Unsupported)
  -- mailbox commands
  | summary (m : Fin 4)
  | identify (m : Fin 4)
  | eventLog (m : Fin 4)
  | clockCorr (m : Fin 4)
  | resultGet (m : Fin 4)
  | ptnEnable (m : Fin 4)
  | ptnPower (m : Fin 4)
  | jobCreate (m : Fin 4)
  | jobEnd (m : Fin 4)
  | ctxCreate (m : Fin 4)
  | ctxDestroy (m : Fin 4)
  | ringCreate (m : Fin 4)
  | ringDestroy (m : Fin 4)
  | hwinSet (m : Fin 4)
  | hdmMap (m : Fin 4)
  | mwinSet (m : Fin 4)
  | ringState (m : Fin 4)
  | journalSet (m : Fin 4)
  | collCreate (m : Fin 4)
  | collDelete (m : Fin 4)
  | collSet (m : Fin 4)
  | collStats (m : Fin 4)
  | collTrain (m : Fin 4) (reply : ReadReply)
  | filterLoad (m : Fin 4)
  | patternLoad (m : Fin 4) (reply : ReadReply)
  | patternUnload (m : Fin 4)
  | roundLoad (m : Fin 4)
  | sharesSet (m : Fin 4)
  | regSet (m : Fin 4)
  | crucPin (m : Fin 4)
  | ctxStats (m : Fin 4)
  | icernRouteSet (m : Fin 4)
  | resetPtn (m : Fin 4)
  | resetChip (m : Fin 4)
  | fwStageBegin (m : Fin 4)
  | fwStageData (m : Fin 4) (reply : ReadReply)
  | fwStageFinish (m : Fin 4)
  | fwStageAbort (m : Fin 4)
  | fwActivateTrial (m : Fin 4)
  | fwActivateCommit (m : Fin 4)
  | fwActivateRevert (m : Fin 4)
  | fwActivateNextReset (m : Fin 4)
  | attest (m : Fin 4)
  | assayRun (m : Fin 4) (bad : List BadWord)
  | assayLog (m : Fin 4)
  | marginRun (m : Fin 4) (errs : List Nat)
  | busyComplete (t : Nat)
  | ticketDiscard (t : Nat)
  | mbxStuck (m : Fin 4)
  | summaryExpire
  | hearthWake
  | hearthSleep
  | hearthRestartDone
  | trialTimeout
  | hearthFault (cause : HearthCause) (core : Fin 4)
  | hearthRestartTimeout
  -- anvils
  | laneBind (p : Fin 12) (a : Fin 864) (pattern : Nat) (lanes : List LaneReq)
  | stepNop (p : Fin 12) (a : Fin 864)
  | branch (p : Fin 12) (a : Fin 864)
  | loop (p : Fin 12) (a : Fin 864)
  | setc (p : Fin 12) (a : Fin 864)
  | setr (p : Fin 12) (a : Fin 864)
  | next (p : Fin 12) (a : Fin 864)
  | wait (p : Fin 12) (a : Fin 864)
  | signal (p : Fin 12) (a : Fin 864)
  | yield (p : Fin 12) (a : Fin 864)
  | endOp (p : Fin 12) (a : Fin 864)
  | fetchb (p : Fin 12) (a : Fin 864)
  | fetchw (p : Fin 12) (r : AnvilRead)
  | store (p : Fin 12) (a : Fin 864) (sp : SpRead)
  | atomic (p : Fin 12) (a : Fin 864) (sp : SpRead)
  | mfence (p : Fin 12) (a : Fin 864)
  | move (p : Fin 12) (a : Fin 864) (sp : SpRead)
  | tileclr (p : Fin 12) (a : Fin 864)
  | dot (p : Fin 12) (a : Fin 864) (sp : SpRead)
  | bound (p : Fin 12) (a : Fin 864) (sp : SpRead)
  | score (p : Fin 12) (a : Fin 864) (sp : SpRead)
  | bfma (p : Fin 12) (a : Fin 864) (sp : SpRead)
  | sgather (p : Fin 12) (a : Fin 864) (sp : SpRead)
  | sieve (p : Fin 12) (a : Fin 864) (sp : SpRead)
  | skip (p : Fin 12) (a : Fin 864)
  | select (p : Fin 12) (a : Fin 864) (sp : SpRead)
  | selclr (p : Fin 12) (a : Fin 864)
  | emit (p : Fin 12) (a : Fin 864)
  | fetchLand (p : Fin 12) (a : Fin 864) (i : Nat)
  | yieldOverrun (p : Fin 12) (a : Fin 864)
  -- atomics of the home crucible
  | add32 (p : Fin 12)
  | add64 (p : Fin 12)
  | minu (p : Fin 12)
  | maxu (p : Fin 12)
  | mins (p : Fin 12)
  | maxs (p : Fin 12)
  | andOp (p : Fin 12)
  | orOp (p : Fin 12)
  | xorOp (p : Fin 12)
  | cas32 (p : Fin 12)
  | cas64 (p : Fin 12)
  | bitset (p : Fin 12)
  | bitclr (p : Fin 12)
  | hinc (p : Fin 12)
  | semAcq (p : Fin 12)
  | semRel (p : Fin 12)
  -- memory system
  | memoryRequest (who : Requester) (ev : ServedReq)
  | farQueueServe (p : Fin 12)
  | hbmReadComplete (p : Fin 12) (line : Nat) (fixed : Nat) (bad : List Nat)
  | wcbAgeFlush (p : Fin 12) (ch : Fin 32) (bad : List Nat)
  | wcFence (done : FenceDone)
  | scrubRead (p : Fin 12) (ch : Fin 32) (fixed : Nat) (bad : List Nat)
  | scrubBurst (done : BurstDone)
  | regAdapt (p : Fin 12) (obs : AdaptObs)
  | stackTempSample (p : Fin 12) (t : Option Int)
  | policyConflict (p : Fin 12) (loopNo : Nat) (minimum : Nat)
  | hotCountHalve (p : Fin 12)
  | clipWindowClose (p : Fin 12) (coll : Nat)
  -- collections: commits, epochs, journal, tamping, training
  | batchCommit (coll : Nat)
  | epochClose (coll : Nat)
  | horizonAdvance (coll : Nat) (upTo : Epoch)
  | settlingSweep (coll : Nat) (brick : Nat)
  | journalAck (c : Nat) (reply : AckReply)
  | journalSpaceTimeout (c : Nat)
  | journalAckTimeout (c : Nat)
  | releasedReread (ctx : Nat)
  | releasedReadDone (ctx : Nat) (reply : ReadReply)
  | releasedReadTimeout (ctx : Nat)
  | tampCut (coll : Nat) (lst : Nat)
  | tampCopy (coll : Nat) (lst : Nat)
  | tampCommit (coll : Nat) (lst : Nat)
  | tampRetire (coll : Nat) (lst : Nat)
  | trainChunk (coll : Nat)
  | strataCommit (coll : Nat)
  | redistributeChunk (coll : Nat) (p : Fin 12)
  | redistributeDone (coll : Nat)
  | looseFree (coll : Nat)
  | assignChunk (done : AssignDone)
  -- search execution
  | descentEnd (c : Nat) (row : Nat)
  | listIssue (p : Fin 12) (c : Nat) (row : Nat)
  | pieceIssue (p : Fin 12) (c : Nat) (row : Nat) (term : Nat)
  | probeStop (c : Nat)
  | deadlineEnd (c : Nat)
  | refineStart (p : Fin 12) (c : Nat) (row : Nat)
  | hybridFusion (p : Fin 12) (c : Nat) (row : Nat)
  | foldMerge (node : MergeAt) (c : Nat) (row : Nat)
  | finalSelection (c : Nat) (row : Nat)
  | farRerankStart (c : Nat)
  | farRowArrive (c : Nat) (row : Nat) (i : Nat) (reply : ReadReply)
  -- scheduling
  | roundSlotAdvance (p : Fin 12)
  | anvilFree (p : Fin 12) (a : Fin 864)
  | anvilTake (p : Fin 12) (r : Fin 24)
  | preemptSaveDone (p : Fin 12) (a : Fin 864)
  | killPreempt (p : Fin 12) (ctx : Nat)
  | residentIdleTimeout (p : Fin 12) (ctx : Nat)
  | residentBlockedTimeout (p : Fin 12) (ctx : Nat)
  | swapWaitTimeout (p : Fin 12) (ctx : Nat)
  | swapStart (p : Fin 12)
  | swapPhaseEnd (p : Fin 12)
  | semOverhold (p : Fin 12) (ctx : Nat)
  | senior (w : AmountWaiter)
  -- faults, fences and resets
  | engineWatchdog (unit : Nat) (p : Fin 12)
  | commandWatchdog (c : Nat)
  | killDone (ctx : Nat) (unit : Nat) (p : Fin 12)
  | fenceStart (p : Fin 12)
  | drainWindowEnd (p : Fin 12)
  | engineResetDone (unit : Nat) (p : Fin 12)
  | partitionResetDone (p : Fin 12)
  | chipResetDone
  | levelOverrun (level : LadderLevel)
  | seamFault (cause : Fin 4) (dir : Bool)
  | ctrl (p : Fin 12) (ch : Fin 32)
  | windowExpire (w : WindowId)
  | zeroiseDone (scope : ZeroScope)
  -- power states, power and temperature
  | warmIdleTimeout (p : Fin 12)
  | bankedIdleTimeout (p : Fin 12)
  | bankedEntryDone (p : Fin 12)
  | exitDemand (p : Fin 12)
  | exitDone (p : Fin 12) (failed : List Nat)
  | pllLockLoss (p : Fin 12)
  | powerTick10us (watts : Nat)
  | powerTick100us
  | powerTick1ms
  | dieTempSample (d : Die) (t : Option Int)
  | dieDepthTick (d : Die)
  | thermtrip (d : Die)
  | coolantSample (inlet : Option Int) (outlet : Option Int)
  | leak
  | supply
  | auxSupplyUp
  | auxSupplyLoss
  | pwrEnAssert
  | pwrEnDeassert
  | pwrgd
  | bootComplete
  -- tray controller and security
  | getstatus
  | setdasa (addr : BitVec 7)
  | entdaa (addr : BitVec 7)
  | pldmPlimWrite (watts : Nat)
  | pldmSensorRead (sensor : PldmSensor)
  | pldmFwUpdate (image : List Byte)
  | spdmMessage (t : SpdmTransport) (kind : SpdmKind) (msg : List Byte)
  -- Icern
  | portTrainStepDone (n : Fin 4) (lanes : BitVec 4)
  | portStepTimeout (n : Fin 4)
  | portRestart (n : Fin 4)
  | heartbeatTimer (n : Fin 4)
  | heartbeatLoss (n : Fin 4)
  | alignmentLoss (n : Fin 4)
  | flitData (n : Fin 4) (f : Flit)
  | flitNull (n : Fin 4) (f : Flit)
  | flitReplay (n : Fin 4) (f : Flit)
  | flitInit (n : Fin 4) (peer : Nat) (expected : Nat) (credits : List Nat)
  | queryFwd (src : Nat)
  | partialList (src : Nat)
  | insertFwdPrepare (src : Nat)
  | insertFwdCommit (src : Nat)
  | insertFwdWithdraw (src : Nat)
  | insertFwdResponse (src : Nat)
  | bulkData (src : Nat)
  | fenceNotice (src : Nat)
  | abort (src : Nat)
  | heartbeat (src : Nat)
  | routeProbe (src : Nat)
  | routeProbeReply (src : Nat)
  | routeProbeTimer (job : Nat)
  | probeTimeout (job : Nat) (peer : Nat)
  | rootRouteLoss (job : Nat)
  -- JTAG and the rest
  | extest
  | idcode
  | samplePreload (pins : List Bool)
  | extestPulse
  | extestTrain
  | clamp
  | highz
  | bypass (code : BitVec 8)
  | trstAssert
  | cxlCacheSnoop (addr : W64)
  | flitCrcError (n : Fin 4) (fec : Bool)
  | hotSwapOvercurrent
  deriving DecidableEq, Repr

end Sys2Proof
end

