-- ==== Sys2Proof/Decode.lean ====
section
/-! DEFINITION. The word form of a command: the table gives no row any bits (spec/opcode_table.json), so no word spells one. -/

namespace Sys2Proof

/-- The command that the nbits low bits w spell by the table's bits: none, as the table gives no row bits (log 11). -/
def decodeTableWord (_nbits _w : Nat) : Option Instr := none

end Sys2Proof
end

