-- ==== Sys2Proof/Config.lean ====
section
/-! DEFINITION. What the manual fixes for a part but does not give as a value, and the free values of this model:
opaque constants, so that no proof can see what they are. -/

namespace Sys2Proof

/-- The free choice number k: which of the orders, entries or values that the manual leaves open is taken
(R23, R49, R74, R161). Applied to the counter `State.free`; assumption 3. -/
opaque Config.freeNat : Nat → Nat
/-- A free 32-bit value (log 3). -/
opaque Config.freeWord : Nat → BitVec 32
/-- The steps of the standard patterns that the manual does not list (R77): word at pattern-memory index i; assumption 5. -/
opaque Config.libraryStep : Nat → BitVec 128
/-- The headers of the standard patterns that the manual does not list, by pattern ID (R52, R77); assumption 5. -/
opaque Config.libraryHeader : Nat → BitVec 256
/-- Whether an ML-DSA-65 signature (second) over a message (first) verifies under the ROM's public key (R370, R371); assumption 6. -/
opaque Config.signatureOk : List (BitVec 8) → List (BitVec 8) → Bool
/-- The device-unique secret (R375); assumption 6. -/
opaque Config.deviceSecret : BitVec 256
/-- The ML-DSA-65 public and private key of a 32-byte seed (R376); assumption 6. -/
opaque Config.mldsaPublic : List (BitVec 8) → List (BitVec 8)
opaque Config.mldsaSecret : List (BitVec 8) → List (BitVec 8)
/-- The certificates of the always-on read-only store: 0 the Zoresk root, 1 the product CA (R377); assumption 6. -/
opaque Config.caCert : Nat → List (BitVec 8)
/-- The device identity certificate of a public key and a subject serial number, signed by the product CA at manufacture (R377); assumption 6. -/
opaque Config.identityCert : List (BitVec 8) → BitVec 256 → List (BitVec 8)
/-- The alias certificate of its contents, signed with the identity private key (R376, R377); assumption 6. -/
opaque Config.aliasCert : List (BitVec 8) → List (BitVec 8) → List (BitVec 8)
/-- SHA3-384 (R378); assumption 6. -/
opaque Config.sha3 : List (BitVec 8) → List (BitVec 8)
/-- The link IDE streams that have keys after a secured message over DOE (R258, R380): bit 0 CXL.io, bit 1 CXL.cachemem; assumption 6. -/
opaque Config.ideKeys : List (BitVec 8) → Nat → BitVec 2
/-- The body of an SPDM answer (R378), by request bytes and the free counter; assumption 6. -/
opaque Config.spdmAnswer : List (BitVec 8) → Nat → List (BitVec 8)
/-- A signature by the private key of a seed over an SPDM transcript (R378), by its last request and the free counter; assumption 6. -/
opaque Config.aliasSign : List (BitVec 8) → List (BitVec 8) → Nat → List (BitVec 8)
/-- The CDAT table that the data object of R262 carries; assumption 77. -/
opaque Config.cdat : List (BitVec 8)
/-- A k-means centroid, its member choice and its leaf owner (R112), by collection, number of the training and place: the
manual gives no seeding and no stop rule; assumption 7. -/
opaque Config.trainedValue : Nat → Nat → Nat → BitVec 32
/-- The sieve program slot, of 8, that holds a filter of a context in an anvil (R50, R120); log 44. -/
opaque Config.sieveSlot : Nat → Nat → BitVec 3
/-- A byte of the context area whose place or form the manual does not give (R249, R250), by device address and free counter; log 75. -/
opaque Config.areaByte : Nat → Nat → BitVec 8
/-- The data an uncorrectable word was read as (R220); assumption 4. -/
opaque Config.badData : Nat → BitVec 64
/-- A word that an Assay's PRBS pattern (first) leaves in memory, by seed and word index (R423): log 22. -/
opaque Config.prbsWord : Nat → Nat → Nat → BitVec 64
/-- The digest of the boot ROM (R381 index 1); assumption 6. -/
opaque Config.bootRomDigest : BitVec 256
/-- The fixed order of the fp32 sum of R33, which the manual does not state: the pair that step i adds; assumption 3. -/
opaque Config.normOrder : Nat → Nat

end Sys2Proof
end

