-- ==== Sys2Proof/Machine/State.lean ====
section
/-! DEFINITION. The state of the block: plain data, one field for each piece of state the manual names, with the rule
that names it. Tables are lists of records by number; a number not listed has the record's reset value. -/

namespace Sys2Proof.Machine

/-- Raised by no command: every command of the table has an effect in every state (log 1).
The one constructor stands for a command that names an object outside the module, which no operand type can name. Safe. -/
inductive Fault where
  | noSuchObject
  deriving DecidableEq, Repr

/-- Why a command has no meaning in the model. -/
inductive Refusal where
  /-- Raised by an arm of `exec` for a command whose meaning is not written; none is left. Safe. -/
  | notModelled (mnemonic : String)
  deriving DecidableEq, Repr

/-! ### Codes -/

/-- Completion statuses of ring commands (R280). -/
inductive Status where
  | ok | trdy | invalidField | range | timeout | fenced | abortedPeer | uncorrectable | noResource | outOfService
  | killed | linkLost
  deriving DecidableEq, Repr

/-- Statuses of mailbox commands (R313). -/
inductive MStatus where
  | ok | busy | invalidField | range | timeout | fenced | uncorrectable | noResource | outOfService | authFailed
  deriving DecidableEq, Repr

/-- Events, in the bit order of EVT_PEND (R286, R367). -/
inductive Event where
  | ringFault | dbInvalid | hdmUnmapped | linkDeg | satDrift | nanDrop | tombPressure | listOversize | journalFault
  | memUe | atomicTransit | semOverhold | policyConflict | fault | mbxEvent | ptnChange
  deriving DecidableEq, Repr

/-- Partition power states (R390). -/
inductive Power where
  | forge | warm | banked | cold
  deriving DecidableEq, Repr

/-- PTN_STATE.SERVICE (R286). -/
inductive Service where
  | inService | fenced | resetting | oos
  deriving DecidableEq, Repr

/-- SQ_DB.STATE (R286). -/
inductive RingState where
  | disabled | running | draining | error
  deriving DecidableEq, Repr

/-- Collection states (R81). -/
inductive CollState where
  | free | untrained | training | redistributing | trained | suspect
  deriving DecidableEq, Repr

/-! ### Byte memories -/

/-- Bytes by address in canonical form: addresses strictly rising, no byte equal to 0, which an unlisted address reads as (log 4). -/
abbrev Mem := List Host.Cell

/-! ### Host interface -/

/-- A pool of R292 that commands take at admission (R293). -/
inductive Pool where
  | rowFold (p : Nat)
  | ptnFold (p : Nat)
  | devFold
  | resultBuf
  deriving DecidableEq, Repr

/-- An amount taken from a pool. -/
structure Hold where
  pool : Pool
  amount : Nat
  deriving DecidableEq, Repr

/-- A run of staging granules of a partition's pool (R281). -/
structure Granules where
  ptn : Nat
  first : Nat
  count : Nat
  deriving DecidableEq, Repr

/-- A ring pair (R270–R274). -/
structure Ring where
  ctx : Nat := 0
  size : Nat := 16
  sqBase : W64 := 0
  cqBase : W64 := 0
  vector : Nat := 4
  ccount : Nat := 0
  ctime : Nat := 0
  st : RingState := .disabled
  /-- RING_STATE ACTION 0 waits for its commands: it neither fetches nor admits (R274). -/
  stopping : Bool := false
  sqHead : Nat := 0
  sqTail : Nat := 0
  cqTail : Nat := 0
  cqHead : Nat := 0
  phase : Bool := true
  /-- Submission fetch buffer (R271, R292): entries fetched and not admitted, oldest first. -/
  fetched : List (BitVec 512) := []
  /-- Completion slots reserved (R272). -/
  reserved : Nat := 0
  /-- Completion slots, pool amounts and granules the head command has taken while it waits (R294). -/
  heldSlots : Nat := 0
  holding : List Hold := []
  granules : Option Granules := none
  /-- The order in which the waiting head command became senior (R296). -/
  senior : Option Nat := none
  /-- Completions written since the ring's last message (R285). -/
  sinceMsg : Nat := 0
  /-- The CTIME timer runs (R285). -/
  ctimeOn : Bool := false
  deriving DecidableEq, Repr

/-- What a posted write to host memory carries (R289, R301). -/
inductive WriteKind where
  | result (c : Nat) (entries : Nat)
  /-- A completion entry of a ring; the final one of a command names it. -/
  | completion (ring : Nat) (c : Option Nat)
  | msix (vec : Nat)
  | data
  deriving DecidableEq, Repr

/-- A posted write in the host write queue (R292). -/
structure HostWrite where
  kind : WriteKind
  addr : W64
  bytes : List Byte
  deriving DecidableEq, Repr

/-- What a host or tray access was answered (the model's own output, log 2). -/
inductive Answer where
  | none
  | unsupported
  | data (bytes : List Byte) (poison : Bool)
  | written
  | discarded
  | waits
  | miss
  | refused
  deriving DecidableEq, Repr

/-- One MSI-X table entry (R263, R285). -/
structure Vec where
  addr : W64 := 0
  data : W32 := 0
  masked : Bool := true
  pba : Bool := false
  deriving DecidableEq, Repr

/-- ASPM and device power of the function (R275, R288). -/
inductive LinkPower where
  | l0 | l1
  deriving DecidableEq, Repr

/-- The registers of the CXL function that software writes and nothing else of State holds (R258, R262, R263): Command, BARs, Device Control, Link
Control, the enable and function mask of MSI-X, AER and RAS status, mask and severity, the HDM decoder's range, and which IDE streams have keys. Their
reset values are PRESUMED of the PCI Express and CXL specifications (log 77). -/
structure Cfg where
  command : W16 := 0
  bars : Tbl W32 := []
  devCtl : W16 := 0x2810
  linkCtl : W16 := 0
  msixCtl : BitVec 2 := 0
  aer : W32 := 0
  aerMask : W32 := 0
  aerSev : W32 := 0x00462030
  ras : W32 := 0
  rasMask : W32 := 0x0001CFFF
  rasSev : W32 := 0x0001CFFF
  hdmBase : W64 := 0
  hdmSize : W64 := 0
  ide : BitVec 2 := 0
  /-- Registers of the link capability that software writes, by offset (R263). -/
  linkRegs : Tbl W32 := []
  /-- Data Object Exchange: words of the object written so far, of the one to be read, and the error bit (R262). -/
  doeIn : List W32 := []
  doeOut : List W32 := []
  doeError : Bool := false
  deriving DecidableEq, Repr

/-- The host link (R258–R264, R275, R288). -/
structure Link where
  up : Bool := false
  width : Nat := 0
  rate : Nat := 0
  deg : Bool := false
  retrainDue : Bool := false
  cacheEn : Bool := false
  memEn : Bool := false
  hdm : Bool := false
  d3hot : Bool := false
  aspm : LinkPower := .l0
  /-- Down for a reason that R366 does not exclude. -/
  lost : Bool := false
  /-- The training that follows an L3 or L4, which is no retrain (R362). -/
  byReset : Bool := false
  cfg : Cfg := {}
  deriving DecidableEq, Repr

/-- What a bulk aperture is mapped onto (R266). -/
structure Aperture where
  ctx : Nat
  ptn : Nat
  region : Nat
  deriving DecidableEq, Repr

/-- The host-facing registers and queues. -/
structure HostIf where
  link : Link := {}
  evtPend : W16 := 0
  evtMask : W16 := 0xFFFF
  evtCnt : Tbl W16 := []
  vecs : Tbl Vec := []
  rings : Tbl Ring := []
  /-- The host write queue, 512 lines (R292), what waits behind it for room (R299), and the CXL.cache writes of journals, which use their own (R301). -/
  writes : List HostWrite := []
  posting : List HostWrite := []
  cache : List HostWrite := []
  /-- The host returns posted credits (R301); bulk apertures 96–4095 (R265). -/
  apertures : Tbl Aperture := []
  pools : List Hold := []
  /-- Staging granules held: by commands, and after TIMEOUT until reusable (R282). -/
  granules : List Granules := []
  /-- CXL.mem accesses that wait for a partition's exit (R267). -/
  memWaits : List (Nat × MemAccess) := []
  seniorSeq : Nat := 0
  answer : Answer := .none
  deriving DecidableEq, Repr

/-! ### Search and ingest commands -/

/-- An entry of a selector or a fold list (R150, R158, R159). -/
structure Entry where
  key : Key
  score : F32
  module : Nat := 0
  ptn : Nat := 0
  gen : BitVec 4 := 0
  far : Bool := false
  refined : Bool := false
  brick : Nat := 0
  slot : Nat := 0
  /-- Scored once for all, as loose bricks are (R130). -/
  settled : Bool := false
  ties : Nat := 0
  /-- The dense and sparse parts under HYB, and the fp32 product w·u of a sparse partial list (R143–R145). -/
  sparse : F32 := 0
  deriving DecidableEq, Repr

/-- The stage a fold list belongs to (R151). -/
inductive FStage where
  | coarse | loose | refine | sparse (term : Nat) | fused
  deriving DecidableEq, Repr

/-- A fold node's slot for one row and stage (R152, R298). -/
structure Node where
  node : FoldNode
  stage : FStage
  /-- Lists that wait to be merged, each with its input: the anvil of the row, the row (32 more for its loose list; 24 what refine keeps,
  25 what fusion forms), the partition, the module (R150). -/
  inputs : List (Nat × List Entry) := []
  /-- What each input has given so far (R152). -/
  held : Tbl (List Entry) := []
  out : List Entry := []
  nan : Nat := 0
  /-- DEDUP of all that it has merged (R155). -/
  dup : Bool := false
  deriving DecidableEq, Repr

/-- Probing of one row in one partition (R127–R131, R136). -/
structure Probe where
  /-- Lists not yet issued, with their bound U_c, in issue order. -/
  queue : List (Nat × F32) := []
  issued : Nat := 0
  cut : Nat := 0
  looseIssued : Bool := false
  ended : Bool := false
  refineStarted : Bool := false
  /-- The refine descriptors of a hybrid row's slots that lack a dense score are handed out (R145). -/
  filled : Bool := false
  fused : Bool := false
  sent : Bool := false
  /-- Blocks of a sparse term already issued or skipped (R143). -/
  pieces : Tbl Nat := []
  deriving DecidableEq, Repr

/-- A query row (R34–R36, R118). -/
structure QRow where
  /-- The row as received, as fp32. -/
  raw : List F32 := []
  codes : List Int := []
  low : List Int := []
  eq : Int := 0
  qnorm : F32 := 0
  terms : List (Nat × Bf16) := []
  /-- Its descriptor of the descent is with the home partition's dispatcher (R125). -/
  queued : Bool := false
  descended : Bool := false
  probes : Tbl Probe := []
  nodes : List Node := []
  final : Option (List Entry) := none
  tie : Bool := false
  /-- The far stage (R133): the R best entries, and those whose rows have not arrived. -/
  far : Option (List Entry) := none
  farLeft : List Nat := []
  deriving DecidableEq, Repr

/-- A stored vector as the encoder forms it (R25–R33). -/
structure Enc where
  ev : Int := 0
  mult : List Nat := []
  zero : List Nat := []
  codes : List (BitVec 4) := []
  refine : List (BitVec 4) := []
  norm : F32 := 0
  clipped : Nat := 0
  deriving DecidableEq, Repr

/-- A slot of a brick, by frame address and slot number (R83). -/
structure SlotRef where
  brick : Nat
  slot : Nat
  deriving DecidableEq, Repr

/-- A record of an ingest command on its way (R167, R169, R171). -/
structure Rec where
  key : Key
  attr : W128 := 0
  row : List F32 := []
  /-- Transformed coordinates (R22), and for a vector that is stored already the ones it was stored from (R123). -/
  y : List F32 := []
  input : List F32 := []
  enc : Enc := {}
  /-- σ_v and the stored weights by term (R44). -/
  sparse : F32 × List (Nat × Nat) := (0, [])
  leaf : Option Nat := none
  spillLeaf : Option Nat := none
  slot : Option SlotRef := none
  spillSlot : Option SlotRef := none
  /-- A part that UPSERT takes from the old slot (R171): dense, attributes, sparse. -/
  parts : BitVec 3 := 7
  /-- The slots that the key's entry named when the record was appended (R171). -/
  old : Option SlotRef := none
  oldSpill : Option SlotRef := none
  /-- The record's bytes as received (R181, R341). -/
  raw : List Byte := []
  deriving DecidableEq, Repr

/-- The stages an admitted command passes through. -/
inductive Stage where
  | awaitPayload      -- TRDY written, the doorbell is awaited (R282)
  | reading           -- payload being read (R281, R284)
  | running           -- search stages, chunks
  | assigning         -- records encoded, not all appended (R170)
  | fencing           -- appended, write-combining fence outstanding (R89)
  | journalWait       -- FORCE: journal space awaited (R182)
  | queued            -- in the commit queue (R173)
  | committed         -- FORCE: record outstanding (R182)
  | waiting           -- FENCE, FLUSH, EPOCH_QUERY: waits on others (R276, R179, R178)
  | final             -- outcome fixed, completion to be written (R289)
  | done              -- completion written; the number is kept only while granules or a record linger (R282, R186)
  deriving DecidableEq, Repr

/-- A host window (R269). -/
structure HWin where
  base : Nat := 0
  len : Nat := 0
  r : Bool := false
  w : Bool := false
  deriving DecidableEq, Repr

/-- A memory window of a context (R75, R315): a run of regions of one partition. -/
structure MWin where
  ptn : Nat := 0
  region : Nat := 0
  regions : Nat := 0
  r : Bool := false
  w : Bool := false
  a : Bool := false
  deriving DecidableEq, Repr

/-- A command taken up by a home dispatcher. -/
structure Cmd where
  ring : Nat
  ctx : Nat
  job : Nat := 0
  home : Nat := 0
  entry : BitVec 512
  opcode : Nat
  coll : Nat := 0
  tag : W32 := 0
  seq : Nat := 0
  stage : Stage := .final
  admitted : Bool := true
  holds : List Hold := []
  /-- The amounts that it still has to take, in R294's order, and the order in which it became senior while it waited for them (R296). -/
  lacking : List Hold := []
  senior : Option Nat := none
  /-- The receive buffer that a forwarded search keeps while it waits for its amounts: port, VC, class, flits (R330). -/
  lent : Option (Nat × Nat × Bool × Nat) := none
  /-- A forwarded search that was killed keeps its amounts until its root runs it again (R297, R344). -/
  parked : Bool := false
  slots : Nat := 1
  granules : Option Granules := none
  snap : Epoch := 0
  run : Nat := 0
  kills : Nat := 0
  rerun : Bool := false
  /-- Cycle count of the home partition at first admission (R135, R256) and time that waited on the host (R254). -/
  admitCyc : Nat := 0
  hostCyc : Nat := 0
  deadlineHit : Bool := false
  stopped : Bool := false
  pairs : Nat := 0
  pairsDone : Nat := 0
  /-- Bricks that an exact scan's snapshot version holds (R138, R139). -/
  scanned : Nat := 0
  /-- t_D has come (R136). -/
  farOver : Bool := false
  /-- Probing stopped here before its end; t and d of the lists that other modules sent (R138, R156). -/
  ownHit : Bool := false
  peerPairs : Nat := 0
  peerDone : Nat := 0
  rows : List QRow := []
  far : Option (W64 × W64 × Nat × Nat) := none
  /-- Its context's windows and shares as they stood at admission (R9). -/
  hwins : Tbl HWin := []
  mwins : Tbl MWin := []
  shares : Tbl Nat := []
  /-- The filter program and the version of the custom pattern that it was admitted with (R54, R122). -/
  prog : Option (List W32) := none
  patVer : Nat := 0
  dedup : Bool := false
  sat : Bool := false
  nan : Nat := 0
  recs : List Rec := []
  deleted : Nat := 0
  epoch : Epoch := 0
  csn : Nat := 0
  acked : Bool := false
  /-- Commands that a FLUSH or FENCE waits for. -/
  covers : List Nat := []
  coveredOk : Nat := 0
  waitFor : Epoch := 0
  cursor : W64 := 0
  /-- Bytes that an EXPORT has written, its header's included; 0 before it starts (R190). -/
  expLen : Nat := 0
  status : Status := .ok
  count : Nat := 0
  fault : W32 := 0
  /-- Its completion stands behind a full host write queue; what it holds is freed as that enters (R297, R301). -/
  written : Bool := false
  anvilCyc : Nat := 0
  /-- Root of a spanning command: modules that answered PREPARE, that answered COMMIT, or (search) sent a list (R340, R341). -/
  peersReady : List Nat := []
  peersDone : List Nat := []
  committing : Bool := false
  /-- A FORCE FLUSH whose re-read of RELEASED failed completes with epoch 0 (R180). -/
  noEpoch : Bool := false
  /-- Past COMMIT when the host link was lost: the batch commits, no completion is written (R261, R341). -/
  silent : Bool := false
  /-- On a module other than the root: where the command came from (R340, R341): root module, its command number. -/
  origin : Option (Nat × Nat) := none
  payload : List Byte := []
  /-- Root of a spanning ingest command: the records of each other module, as received (R341). -/
  parts : Tbl (List (List Byte)) := []
  deriving DecidableEq, Repr

/-! ### Collections -/

/-- A slot of a brick (R83, R84). -/
structure Slot where
  occ : Bool := false
  epd : W16 := 0xFFFF
  gen : BitVec 4 := 0
  key : Key := 0
  attr : W128 := 0
  enc : Enc := {}
  /-- The planished input of the vector, which a radius must cover wherever its slot is moved (R123); the model's own (log 70). -/
  input : List F32 := []
  deriving DecidableEq, Repr

/-- A brick: header, zone summary and slots (R83–R85). KIND is 0 list, 1 sediment, 2 loose. -/
structure Brick where
  kind : Nat := 1
  list : Nat := 0
  base : Epoch := 1
  nextBrick : Nat := 0
  closed : Bool := false
  settled : Bool := false
  zmin : W128 := 0
  zmax : W128 := 0
  zor : W128 := 0
  zand : W128 := 0
  slots : List Slot := []
  deriving DecidableEq, Repr

/-- A tombstone-log entry (R93): the brick's mask, its epoch (0 until commit), the previous entry of the brick. -/
structure LogEnt where
  coll : Nat
  brick : Nat
  mask : W64
  epoch : Epoch := 0
  prev : Option Nat := none
  /-- The command whose batch prepared it (R93). -/
  owner : Nat := 0
  deriving DecidableEq, Repr

/-- A tombstone record (R92). -/
structure TombRec where
  settledMask : W64 := 0
  newest : Epoch := 0
  head : Option Nat := none
  deriving DecidableEq, Repr

/-- A key-directory entry, and the spill-table entry of a spilled key (R96, R98). -/
structure KeyEnt where
  slot : SlotRef
  spill : Option SlotRef := none
  deleted : Bool := false
  gen : W16 := 0
  deriving DecidableEq, Repr

/-- Tamping states of a list (R107). -/
inductive TampState where
  | idle | cut | copy | commit | retire
  deriving DecidableEq, Repr

/-- The run, chain and epoch that a retiring record keeps (R99, R108). -/
structure Retiring where
  run : List Nat
  chain : List Nat
  epoch : Epoch
  /-- Which of the partition's 16 retiring records it is (R79, R99). -/
  index : Nat := 0
  deriving DecidableEq, Repr

/-- A leaf list with its centroid's child entry (R99, R103). -/
structure Leaf where
  owner : Nat := 0
  state : TampState := .idle
  run : List Nat := []
  chain : List Nat := []
  retiring : Option Retiring := none
  /-- Source bricks before the cut, how many of them are copied, and the copies made so far (R107). -/
  pre : List Nat := []
  copied : Nat := 0
  copies : List Nat := []
  copyMap : List (SlotRef × SlotRef) := []
  cutEpoch : Epoch := 0
  sedSlots : Nat := 0
  deriving DecidableEq, Repr

/-- A centroid of a strata level (R102, R103). -/
structure Centroid where
  codes : List Int := []
  exp : Int := 0
  norm : F32 := 0
  child : Nat := 0
  children : Nat := 1
  radius : F32 := 0
  deriving DecidableEq, Repr

/-- A posting entry (R141). -/
structure Posting where
  brick : Nat
  slot : Nat
  u : Nat
  sigma : F32
  epoch : Epoch
  attr : W128
  deriving DecidableEq, Repr

/-- A posting block (R141): its device address and its entries in use. -/
structure PBlock where
  addr : Nat
  entries : List Posting
  deriving DecidableEq, Repr

/-- A partition's copy of a directory record and its counters (R30, R81, R96, R105, R110). -/
structure CollPtn where
  latest : Epoch := 1
  horizon : Epoch := 1
  live : Nat := 0
  tomb : Nat := 0
  kdB : Nat := 0
  kdP : Nat := 0
  loose : List Nat := []
  topPin : Bool := false
  encoded : W64 := 0
  clipped : W64 := 0
  winCodes : Nat := 0
  winClipped : Nat := 0
  /-- Windows that have closed and are not yet judged: clipped codes, and the command whose encoding closed them (R30, R31). -/
  closedWins : List (Nat × Nat) := []
  deriving DecidableEq, Repr

/-- A collection (R81, R82, R106, R112, R173, R179, R241). -/
structure Coll where
  job : Nat := 0
  state : CollState := .free
  d : Nat := 32
  metric : Nat := 0
  opts : Byte := 0
  gsize : Nat := 0
  tau : Nat := 16
  seed : W64 := 0
  latest : Epoch := 1
  horizon : Epoch := 1
  retain : Nat := 100
  trainEp : Epoch := 0
  doneEp : Epoch := 0
  schema : List W32 := []
  scales : Option Enc := none
  /-- The open epoch holds a commit (R174), and how many. -/
  openCommits : Nat := 0
  csn : Nat := 0
  queue : List Nat := []
  flushBase : List Nat := []
  lastFlush : Option Nat := none
  /-- Commits among `flushBase` so far: how many, the epoch and CSN of the last (R179, R181). -/
  flushOk : Nat := 0
  flushEpoch : Epoch := 0
  flushCsn : Nat := 0
  ptns : Tbl CollPtn := []
  bricks : Tbl Brick := []
  keys : Tbl KeyEnt := []
  leaves : Tbl Leaf := []
  /-- Strata levels, top first (R102, R104). -/
  strata : List (List Centroid) := []
  /-- The posting blocks of each term, every partition's in chain order (R140, R141). -/
  postings : Tbl (List PBlock) := []
  sparseRecs : Tbl (F32 × List (Nat × Nat)) := []
  tampSed : Nat := 8
  tampSedFrac : Nat := 3
  tampTombFrac : Nat := 3
  /-- A training under way: levels, leaves, sample rows, centroid chunks done, the tickets that wait (R111, R112). -/
  trainLevels : Nat := 0
  trainSource : Nat := 0
  /-- The place of its training commit among all (R105). -/
  trainOrder : Nat := 0
  trainLeaves : Nat := 0
  trainSample : List (List F32) := []
  trainSteps : Nat := 0
  /-- The trainings committed before this one began: what its free values are taken by (log 7); the model's own. -/
  trainSeed : Nat := 0
  trainIgnored : Nat := 0
  deleting : Bool := false
  lastIngestCtx : Option Nat := none
  deriving DecidableEq, Repr

/-! ### Contexts and jobs -/

/-- A custom pattern of a context (R52–R54, R76). -/
structure Pattern where
  header : List Byte := []
  steps : List W128 := []
  disabled : Bool := false
  /-- A number of its own for each load, so that commands admitted before a replacement keep their steps (R54). -/
  ver : Nat := 0
  deriving DecidableEq, Repr

/-- A journal reservation or record (R181, R182); a failed record holds WRITTEN back until the journal is registered again (R180, R184). -/
inductive JState where
  | reserved | writing | acked | failed
  deriving DecidableEq, Repr

structure JRec where
  /-- The command the space was reserved for, and whether a PAD record fills it (R181). -/
  cmd : Nat
  pad : Bool := false
  off : Nat
  len : Nat
  st : JState
  deriving DecidableEq, Repr

/-- A context's journal (R180–R184). -/
structure Journal where
  base : W64 := 0
  size : Nat := 0
  written : Nat := 64
  released : Nat := 64
  broken : Bool := false
  /-- Reservations and records in region order, oldest first, and where the next one starts. -/
  recs : List JRec := []
  tail : Nat := 64
  /-- RELEASED has not been read since the registration (R315). -/
  unread : Bool := false
  rereading : Bool := false
  /-- The ring of the command that the re-read serves (R433). -/
  forRing : Option Nat := none
  deriving DecidableEq, Repr

/-- The accounting counters of a context (R240). -/
structure Counters where
  anvilCyc : W64 := 0
  nearB : W64 := 0
  farB : W64 := 0
  select : W64 := 0
  cmds : W64 := 0
  nanDrop : W64 := 0
  deriving DecidableEq, Repr

/-- A context (R229–R231, R256). -/
structure Ctx where
  job : Nat
  home : Nat
  hwins : Tbl HWin := []
  mwins : Tbl MWin := []
  filters : Tbl (List W32) := []
  patterns : Tbl Pattern := []
  /-- Versions replaced or unloaded that an earlier command still uses (R54). -/
  oldPatterns : List Pattern := []
  shares : Tbl Nat := []
  journal : Option Journal := none
  jsn : Nat := 0
  counters : Counters := {}
  /-- (S, X) of the measured commands, newest first, at most 1,000 (R256). -/
  measured : List (Nat × Nat) := []
  deriving DecidableEq, Repr

/-- A job (R227, R228, R338, R339, R382). -/
structure Job where
  ptns : List Nat
  modules : Nat := 1
  root : Nat := 0
  mask : W64 := 0
  kill : Bool := false
  joined : Bool := false
  /-- Modules whose probe is outstanding, and those that answered with the root's definition (R339). -/
  probing : List Nat := []
  matched : List Nat := []
  lost : List Nat := []
  measCount : Nat := 0
  chain : BitVec 256 := 0
  ending : Bool := false
  deriving DecidableEq, Repr

/-! ### Anvils -/

/-- A work descriptor of a row queue (R50 ANV_WD, R127, R131). -/
structure Desc where
  brick : Nat
  kind : Nat
  coll : Nat
  list : Nat := 0
  snap : Epoch := 0
  sieve : Nat := 0xFF
  last : Bool := false
  lanes : List LaneReq := []
  pattern : Nat := 1
  mask : W64 := 0
  term : Nat := 0
  /-- Its scores go to the engine that asked for them and enter no fold list: descent, hybrid fill, far rerank (R125, R133, R145). -/
  quiet : Bool := false
  deriving DecidableEq, Repr

/-- A bulk chunk (R242). -/
structure Chunk where
  /-- 0 assignment, 1 tamping COPY, 2 redistribution, 3 SEARCH_EXACT, 4 BULK_LOAD, 5 EXPORT, 6 training, 7 settling. -/
  kind : Nat
  ctx : Nat
  cmd : Option Nat := none
  bricks : List Desc := []
  abandoned : Nat := 0
  /-- All its bricks, from where an abandoned chunk starts again (R244). -/
  start : List Desc := []
  deriving DecidableEq, Repr

/-- An outstanding memory step of an anvil (R59): a fetch into dest or a store of bytes, with the device or brick source. -/
structure Outst where
  isStore : Bool := false
  /-- An element of an ATOMIC step, performed by its home crucible. -/
  isAtom : Bool := false
  dest : Nat := 0
  addr : Nat := 0
  /-- A brick part (R64) instead of a device address. -/
  part : Option (Nat × Nat) := none
  bytes : List Byte := []
  lines : Nat := 1
  served : Bool := false
  poison : Bool := false
  /-- The lines of a served fetch that hold a poisoned word (R220). -/
  badLines : List Nat := []
  /-- The source range of a store, which later fetches must not overwrite (R59). -/
  src : Nat := 0
  /-- The descriptor of a FETCHB (R63, R64). -/
  desc : Option Desc := none
  deriving DecidableEq, Repr

/-- ANV_STAT.STATE (R50). -/
inductive AnvState where
  | idle | running | waitMem | waitCredit | waitDesc | yielded | stopped
  deriving DecidableEq, Repr

/-- An anvil (R50, R58–R70). -/
structure Anvil where
  st : AnvState := .idle
  usable : Bool := true
  pattern : Nat := 0
  step : Nat := 0
  base : Nat := 0
  lanes : List LaneReq := []
  closing : Bool := false
  /-- Scratchpad and tiles by granule of 64 B; a granule not listed holds zeros (R50). -/
  local_ : Tbl (List Byte) := []
  poisoned : List Nat := []
  wd : List Byte := []
  desc : Option Desc := none
  descNone : Bool := false
  live : W64 := 0
  zone : BitVec 2 := 0
  nancnt : W32 := 0
  laneNan : List Nat := []
  needlo : List W64 := []
  boundAny : Bool := false
  /-- Lanes whose entries the EMIT in hand has sent (R298). -/
  emitted : Nat := 0
  thfloor : List F32 := []
  cnt : List W16 := [0, 0, 0, 0]
  page : BitVec 3 := 0
  conf : BitVec 2 := 0
  cap : List W16 := []
  ceCnt : W16 := 0
  ovf : Bool := false
  yovr : Bool := false
  /-- Selector lanes: entries in order of admission (R70). -/
  sel : List (List Entry) := []
  outst : List Outst := []
  /-- Issue and compute cycles since the last YIELD or pattern start (R61). -/
  cyc : Nat := 0
  /-- The partition's cycle count at the last charge (R239). -/
  charge : Nat := 0
  preempt : Bool := false
  /-- Descriptors taken since the binding (R129). -/
  taken : Nat := 0
  /-- The chunk that runs here, its bricks not yet taken (R242). -/
  chunk : Option Chunk := none
  killed : Bool := false
  deriving DecidableEq, Repr

/-! ### Partitions -/

/-- Who asked for a pin (R105, R211). -/
inductive PinFor where
  | tombLog
  | stratum (c : Nat)
  | software (job : Nat)
  deriving DecidableEq, Repr

/-- A pinned range of lines of a crucible, by stack offset (R210, R211). -/
structure Pin where
  start : Nat
  len : Nat
  why : PinFor
  deriving DecidableEq, Repr

/-- A write-combining entry (R204): the line, the mask and the data of the masked bytes. -/
structure WcbEnt where
  /-- Which 64-byte line of the stack. -/
  idx : BitVec 30
  mask : W64
  bytes : List Byte
  deriving DecidableEq, Repr

/-- Why a write-combining fence was asked for (R208). -/
inductive FenceFor where
  | batch (c : Nat)
  | reset
  | banked
  | zeroise
  | step4
  deriving DecidableEq, Repr

/-- An outstanding write-combining fence: the entries it waits for, as line offsets. -/
structure WcFence where
  why : FenceFor
  lines : List Nat
  deriving DecidableEq, Repr

/-- An element of an ATOMIC step at its home crucible (R213). -/
structure AtomReq where
  code : Nat
  addr : Nat
  operand : W64
  second : W64 := 0
  ctx : Nat
  /-- Where the old value goes: partition, anvil, local address (R65). -/
  ret : Option (Nat × Nat × Nat) := none
  from_ : Option (Nat × Nat) := none
  /-- A far one has drawn its issue and Seam tokens; it is counted as waiting on the bucket it draws on next; the far queue has given it its receive
  token (R199, R202). -/
  issued : Bool := false
  waits : Bool := false
  granted : Bool := false
  deriving DecidableEq, Repr

/-- A far request that waits in the home's far queue (R199). -/
structure FarReq where
  issuer : Option Nat
  who : Requester
  req : MemReq
  /-- A CXL.mem access, with its offset in the HDM window (R265). -/
  mem : Option (Nat × MemAccess) := none
  deriving DecidableEq, Repr

/-- The regulator of a partition (R199–R203). -/
structure Reg where
  issMin : Nat := 0
  issMax : Nat := 12800
  rcvMin : Nat := 0
  rcvMax : Nat := 12800
  iss : Nat := 0
  rcv : Nat := 0
  rcvEff : Nat := 0
  /-- Tokens held, in 25ths of a line (log 12); below zero while an engine's move has drawn more than there were (log 28). -/
  issTok : Int := 6400
  rcvTok : Int := 6400
  rcvWaited : Nat := 0
  issWaited : Nat := 0
  blocked : Nat := 0
  /-- The requests already counted in `issWaited` in this interval (R202). -/
  seen : List (Requester × MemReq) := []
  waited : W16 := 0
  conflict : Bool := false
  deriving DecidableEq, Repr

/-- The temperature side of a stack (R223–R226), in half degrees Celsius. -/
structure StackT where
  samples : List Int := []
  valid : Nat := 0
  invalidRun : Nat := 0
  filtered : Option Int := none
  step : Nat := 0
  bad : Bool := false
  deriving DecidableEq, Repr

/-- A round-table slot (R232). CLASS 0 FIXED, 1 SHARE, 2 BULK. -/
structure RSlot where
  ctx : Nat
  cls : Nat
  dur : Nat
  deriving DecidableEq, Repr

/-- The round of a partition (R232–R237). -/
structure Round where
  table : List RSlot := []
  next : Option (List RSlot) := none
  bfres : Nat := 4
  nextBfres : Nat := 4
  slot : Nat := 0
  rounds : W32 := 0
  running : Bool := false
  deriving DecidableEq, Repr

/-- A residency swap (R252, R253): 1 stopping, 2 saving, 3 restoring, 4 warming. -/
structure Swap where
  phase : Nat
  incoming : Nat
  victim : Option Nat := none
  suspended : Bool := false
  /-- The incoming context's patterns and sieve programs are loaded; their bytes are counted once (R240, R253). -/
  loaded : Bool := false
  deriving DecidableEq, Repr

/-- A save slot (R249–R251): holder and the anvil records in it. -/
structure SaveSlot where
  ctx : Nat
  anvils : Tbl Anvil := []
  zeroising : Bool := false
  deriving DecidableEq, Repr

/-- A fence of a partition (R352): the step reached, the code that started it, whether a reset or thermal step 4 follows. -/
structure FenceRec where
  /-- 0 due, 3 draining, 5 write-combining fence, 6 resetting or held. -/
  step : Nat := 0
  code : W32 := 0
  thermal : Bool := false
  memory : Bool := false
  /-- The channels whose controllers are the faulting units, which step 5 leaves out (R352). -/
  faulty : List Nat := []
  /-- Software asked for the reset (R366). -/
  soft : Bool := false
  /-- The contexts with work in the partition as its drain ended, which a reset kills (R355). -/
  kills : List Nat := []
  deriving DecidableEq, Repr

/-- What a collection's region holds (R80), and which region of that structure it is: brick frames; key-directory buckets, spill-table buckets
and their overflow buckets (R95, R96, R98); list-table entries (R99); centroid frames (R102); the posting directory (R140); posting blocks
(R141). -/
inductive RegUse where
  | frames
  | keys (i : Nat)
  | spills (i : Nat)
  | over (i : Nat)
  | lists (i : Nat)
  | strata (i : Nat)
  | postDir (i : Nat)
  | postings
  deriving DecidableEq, Repr

/-- A region of a stack (R80). -/
structure Region where
  job : Nat
  /-- The collection it belongs to, or none for windows and maps. -/
  coll : Option Nat := none
  use : RegUse := .frames
  inUse : Bool := true
  zeroising : Bool := false
  /-- Commands that must complete before a freed region is assigned again (R384). -/
  after : List Nat := []
  deriving DecidableEq, Repr

/-- A resident context's bookkeeping in a partition (R231, R252): the cycle at which it became resident. -/
structure Resid where
  since : Nat := 0
  deriving DecidableEq, Repr

/-- A partition. -/
structure Ptn where
  power : Power := .cold
  service : Service := .inService
  job : Option Nat := none
  cycles : W64 := 0
  usable : Nat := 0
  /-- The state an exit to FORGE left, while it runs (R394), and the step of an entry to BANKED (R393). -/
  exiting : Option Power := none
  banking : Option Nat := none
  warmUs : W32 := 64
  bankedMs : W32 := 250
  wdog : BitVec 10 := 20
  ueCnt : W16 := 0
  ceCnt : W32 := 0
  temp : StackT := {}
  reg : Reg := {}
  round : Round := {}
  anvils : Tbl Anvil := []
  /-- Custom steps resident, by pattern-memory index, and where each (context, pattern version) starts (R54). -/
  pmem : Tbl W128 := []
  placed : List (Nat × Nat × Nat) := []
  resident : Tbl Resid := []
  /-- Contexts that wait for residency, longest first; those that have waited a round period (R252). -/
  waiting : List Nat := []
  waitedLong : List Nat := []
  /-- Resident contexts without work for 1 ms, and blocked for 100 µs, longest first (R252). -/
  idleList : List Nat := []
  blockedList : List Nat := []
  /-- Warm lists of evicted contexts, frame addresses (R250). -/
  warmLists : Tbl (List Nat) := []
  vtime : Tbl Nat := []
  rowQ : List (Nat × Desc) := []
  chunkQ : List Chunk := []
  /-- The last value that a SIGNAL step posted to the dispatcher, with its lane tags (R56). -/
  signal : Option (W32 × List LaneReq) := none
  swap : Option Swap := none
  saves : Tbl SaveSlot := []
  /-- Pinned ranges; locked lines with the job that locked them; cached lines, the last used first (R210). -/
  pins : List Pin := []
  locked : Tbl Nat := []
  cached : List Nat := []
  hot : Tbl Nat := []
  fetches : Nat := 0
  holders : Tbl (List Nat) := []
  atomQ : List AtomReq := []
  wcb : List WcbEnt := []
  wcFences : List WcFence := []
  /-- Interactive read lines a channel has served since a waiting bulk read was last served (R236). -/
  chanRun : Tbl Nat := []
  farQ : List FarReq := []
  farLast : Nat := 0
  scrub : Tbl Nat := []
  writeBack : List Nat := []
  log : Tbl LogEnt := []
  tombs : Tbl TombRec := []
  regions : Tbl Region := []
  fence : Option FenceRec := none
  /-- The policy conflicts raised and not ended: loop, minimum, the 8 µs intervals for which the minimum has been met since (R369). -/
  postedConflict : List (Nat × Nat × Nat) := []
  zeroising : Bool := false
  saved : Bool := false
  deriving DecidableEq, Repr

/-! ### Hearth -/

/-- A mailbox request as the Hearth copied it (R308, R309). -/
structure Req where
  opcode : Nat
  len : Nat
  tag : W32
  rsv : Bool := false
  bytes : List Byte
  deriving DecidableEq, Repr

/-- A mailbox response (R308). -/
structure Rsp where
  status : MStatus
  bytes : List Byte := []
  ticket : Nat := 0
  detail : Nat := 0
  deriving DecidableEq, Repr

/-- A mailbox (R307–R310). -/
structure Mbx where
  header : Mem := []
  payload : Mem := []
  rspHeader : List Byte := []
  state : Nat := 0
  overrun : Bool := false
  tag : W32 := 0
  status : Byte := 0
  req : Option Req := none
  /-- The place of its GO in the order of acceptance (R311). -/
  order : Nat := 0
  deriving DecidableEq, Repr

/-- What a BUSY command still waits for (R310, R315). -/
inductive Work where
  | jobCreate (job : Nat) (left : List Nat) (failed : Bool)
  | jobEnd (job : Nat)
  | ringDestroy (ring : Nat)
  | ringDisable (ring : Nat)
  | collDelete (coll : Nat)
  | train (coll : Nat) (joined : Bool)
  | reset (p : Nat)
  | held (req : Req) (reply : ReadReply)
  /-- A held test run, with the mismatches and errors that it will find. -/
  | heldTest (req : Req) (bad : List BadWord) (errs : List Nat)
  /-- An Assay or a margin sweep: partitions tested, those to return to COLD, the response. -/
  | test (ptns wasCold : List Nat) (bytes : List Byte)
  /-- COMMIT blows the fuses up to an SV (R374). -/
  | raise (sv : Nat)
  | ready (st : MStatus) (bytes : List Byte) (detail : Nat)
  deriving DecidableEq, Repr

/-- An outstanding or stored ticket (R310). -/
structure Ticket where
  mbx : Nat
  req : Req
  work : Work
  /-- The place of its GO in the order of acceptance (R311). -/
  order : Nat := 0
  rsp : Option Rsp := none
  deriving DecidableEq, Repr

/-- An entry of the event log (R315 EVENT_LOG, R367). -/
structure LogEntry where
  seq : Nat
  bit : Nat
  kind : Nat
  object : Nat
  data : Nat
  deriving DecidableEq, Repr

/-- A firmware slot (R321, R370, R371). -/
structure FwSlot where
  valid : Bool := false
  version : W32 := 0
  sv : Nat := 0
  csfmt : W32 := 0
  digest : BitVec 256 := 0
  deriving DecidableEq, Repr

/-- A staging session (R322). -/
structure FwStage where
  mbx : Nat
  slot : Nat
  bytes : List Byte := []
  deriving DecidableEq, Repr

/-- The alias certificate (R377): its public key and what its extension holds. -/
structure AliasCert where
  key : List Byte
  digest : BitVec 256
  version : W32
  sv : Nat
  counter : Nat
  slot : Bool
  deriving DecidableEq, Repr

/-- The record of an Assay on one pseudo-channel (R426). -/
structure AssayRec where
  words : Nat := 0
  bad : List BadWord := []
  deriving DecidableEq, Repr

/-- The Hearth (R306–R323). -/
structure Hearth where
  awake : Bool := false
  /-- A cause of R306 to wake is pending. -/
  wakeDue : Bool := false
  mbx : Tbl Mbx := []
  tickets : Tbl Ticket := []
  nextTicket : Nat := 1
  log : List LogEntry := []
  logSeq : Nat := 0
  goSeq : Nat := 0
  patSeq : Nat := 0
  trainSeq : Nat := 0
  snapshot : Option (List Byte) := none
  snapSeq : Nat := 0
  stage : Option FwStage := none
  restarting : Bool := false
  /-- The always-on tick of the last Hearth fault (R360). -/
  lastFault : Option Nat := none
  sessions : List SpdmTransport := []
  /-- Transports whose SPDM version is negotiated, and those whose algorithms are (R379). -/
  versioned : List SpdmTransport := []
  negotiated : List SpdmTransport := []
  /-- The alias certificate, issued at boot (R372, R377). -/
  issued : Option AliasCert := none
  assays : Tbl AssayRec := []
  underTest : List (Nat × Nat) := []
  recovery : Bool := false
  /-- Tickets of MBX3 whose completion an MCTP event message has told to the tray controller, the latest last (R310). -/
  mctpEvents : List Nat := []
  deriving DecidableEq, Repr

/-! ### Icern -/

/-- A message (R332). -/
structure Msg where
  type : Nat
  resp : Bool := false
  src : Nat
  dst : Nat
  cmd : Nat := 0
  run : Nat := 0
  job : Nat := 0
  ttl : Nat := 15
  body : List Byte := []
  /-- The flits of a port's receive buffer that it keeps until it is acted on: port, VC, class, number (R330). -/
  bufs : Option (Nat × Nat × Bool × Nat) := none
  deriving DecidableEq, Repr

/-- ICN_STAT.STATE (R345). -/
inductive PortState where
  | disabled | training | init | up | down
  deriving DecidableEq, Repr

/-- Credits of a virtual channel and class (R328, R330). -/
structure Credit where
  vc : Nat
  cls : Bool
  have_ : Nat
  owed : Nat := 0
  deriving DecidableEq, Repr

/-- A DATA flit that waits to be sent: the port and class it arrived by, none for a flit of this module. -/
structure TxFlit where
  flit : Flit
  from_ : Option (Nat × Bool) := none
  deriving DecidableEq, Repr

/-- A message that is arriving on a virtual channel: for this module, passing to a port in a class, or being discarded (R336). -/
inductive RxMsg where
  | own (bytes : List Byte)
  | pass (out : Nat) (cls : Bool)
  | drop
  deriving DecidableEq, Repr

/-- KIND of a flit (R327). -/
inductive FlitKind where
  | data | null | replay | init
  deriving DecidableEq, Repr

/-- A response that a module awaits by a port, with the response-buffer flits reserved for it (R292, R331); of a killed run (R255). -/
structure Resv where
  cmd : Nat
  run : Nat
  dst : Nat
  flits : Nat
  killed : Bool := false
  deriving DecidableEq, Repr

/-- An Icern port (R324–R330). -/
structure Port where
  st : PortState := .disabled
  /-- Bring-up step of R325, 1–4. -/
  step : Nat := 0
  peer : Nat := 0
  lanes : BitVec 4 := 0
  retrains : W32 := 0
  replays : W16 := 0
  mismatch : Bool := false
  hbloss : Bool := false
  fecCorr : W32 := 0
  fecUncorr : W16 := 0
  crcErr : W16 := 0
  nextSeq : BitVec 12 := 0
  expSeq : BitVec 12 := 0
  replay : List Flit := []
  replayRun : Nat := 0
  lastReplay : Option (BitVec 12) := none
  resend : List Flit := []
  credits : List Credit := []
  /-- Messages that are arriving, by VC; flits that wait to be sent, their sequence numbers not yet given; by VC, whose message is
  being sent (0 this module's, n + 1 one from port n); arrivals sent on, whose credits go back. -/
  rx : Tbl RxMsg := []
  tx : List TxFlit := []
  sending : Tbl Nat := []
  passed : List (Nat × Nat × Bool) := []
  /-- VC3 sent last of VC0 and VC3, which alternate (R330). -/
  lastVc3 : Bool := false
  countedStep1 : Bool := false
  /-- A HEARTBEAT has arrived since INIT (R325). -/
  beat : Bool := false
  hbSeq : W32 := 0
  replayDue : Bool := false
  /-- The always-on tick of the last REPLAY sent (R329). -/
  replayAt : Option W64 := none
  /-- A DATA flit has been received in order since INIT; the newest ACK that a flit has carried (R327). -/
  got : Bool := false
  acked : Option (BitVec 12) := none
  /-- Response buffers reserved (R331). -/
  resv : List Resv := []
  /-- The flits put on the wire, the latest last (the model's own output, log 2). -/
  line : List (FlitKind × Flit) := []
  deriving DecidableEq, Repr

/-- What is known of a peer module (R334, R339). -/
structure Peer where
  hbSeq : W32 := 0
  oos : Bool := false
  fencedMask : W16 := 0
  noticeLevel : Option Nat := none
  noticeMask : W16 := 0
  noticeCode : W32 := 0
  deriving DecidableEq, Repr

structure Icern where
  ports : Tbl Port := []
  inbox : List Msg := []
  /-- Requests that wait for their response buffers, with the flits of their responses, in order (R331). -/
  requests : List (Msg × Nat) := []
  peers : Tbl Peer := []
  /-- The newest aborted run of each command of another module: source, command, run (R255). -/
  aborted : List (Nat × Nat × Nat) := []
  ttlDrops : Nat := 0
  hold : Bool := false
  deriving DecidableEq, Repr

/-! ### Always-on domain, faults, power -/

/-- A counting window (R362). -/
structure Window where
  isOpen : Bool := false
  count : Nat := 0
  /-- The always-on tick at which it opened. -/
  since : W64 := 0
  deriving DecidableEq, Repr

/-- A ladder level that runs (R357): engines of an L0 that have not reported; whether software asked for it (R366). -/
structure Level where
  level : LadderLevel
  pending : List (Nat × Nat) := []
  /-- Commands that an L0 ended and whose completions have not entered the host write queue (R354). -/
  cmds : List Nat := []
  soft : Bool := false
  /-- Its window reached the limit as it was counted: the part goes out of service when it ends (R362). -/
  last : Bool := false
  deriving DecidableEq, Repr

/-- The pins of J4 as the module drives or sees them (R408–R413): true = asserted. -/
structure Pins where
  aux : Bool := true
  pwrEn : Bool := true
  load : Bool := true
  pwrgd : Bool := false
  perst : Bool := true
  cycleReq : Bool := false
  thermtrip : Bool := false
  clocks : Bool := true
  linkTraining : Bool := false
  deriving DecidableEq, Repr

/-- What the always-on domain holds across chip resets (R11, R335, R358, R362, R374, R396, R403). -/
structure Aon where
  ticks : W64 := 0
  total : W32 := 0
  codes : List W32 := []
  modid : Nat := 0
  enable : BitVec 4 := 0
  peers : List Nat := [0xFF, 0xFF, 0xFF, 0xFF]
  dateline : BitVec 4 := 0
  routes : List W16 := []
  ptnOos : List Nat := []
  /-- Of those, the ones software took out (R366). -/
  ptnOosSoft : List Nat := []
  oos : Bool := false
  ptnWin : Tbl Window := []
  linkWin : Window := {}
  chipWin : Window := {}
  plim : Nat := 1500
  leak : Bool := false
  trip : Bool := false
  events : W32 := 0
  /-- ∫u dt in always-on ticks times the number of partitions (R365). -/
  unavail : Nat := 0
  unavailOn : Bool := false
  slotA : FwSlot := {}
  slotB : FwSlot := {}
  /-- Committed, running slot: false A, true B; trial; pending NEXT_RESET (R323). -/
  committed : Bool := false
  running : Bool := false
  trial : Bool := false
  nextReset : Option Bool := none
  rollback : Nat := 0
  hbCounter : BitVec 6 := 0
  dynAddr : Option (BitVec 7) := none
  recoveryTaken : Bool := false
  l4Overrun : Bool := false
  deriving DecidableEq, Repr

/-- A die's temperature loop (R399). -/
structure DieT where
  samples : List Int := []
  filtered : Option Int := none
  depth : Nat := 0
  armed : Bool := true
  deriving DecidableEq, Repr

/-- Power, cooling and die temperature (R395–R402). -/
structure PowerT where
  p10 : List Nat := []
  dp : Nat := 0
  rose : Bool := false
  excursion : Bool := false
  highMs : Nat := 0
  lowMs : Nat := 0
  pin : Nat := 0
  vin : Nat := 0
  west : DieT := {}
  east : DieT := {}
  inlets : List Int := []
  outlets : List Int := []
  inlet : Option Int := none
  outlet : Option Int := none
  coolOol : Bool := false
  deriving DecidableEq, Repr

/-- The JTAG TAP (R430–R432). -/
structure Jtag where
  instr : Byte := 0x01
  refused : Bool := false
  boundary : List Bool := []
  functional : Bool := true
  deriving DecidableEq, Repr

/-- The block. -/
structure State where
  /-- The commands that wait, first in, first out. -/
  pending : List Instr
  aon : Aon
  pins : Pins
  host : HostIf
  ptns : Tbl Ptn
  jobs : Tbl Job
  ctxs : Tbl Ctx
  colls : Tbl Coll
  cmds : Tbl Cmd
  nextCmd : Nat
  hearth : Hearth
  /-- GLB_STATUS.HEARTH (R286, R306). -/
  hearthUp : Bool
  faults : Byte
  levels : List Level
  /-- Tokens of the Seam buckets toward East and toward West, in 25ths of a line. -/
  seamTok : Int × Int
  icern : Icern
  power : PowerT
  jtag : Jtag
  hbm : Mem
  poison : List Nat
  /-- The model's own counter of free choices (log 3). -/
  free : Nat
  deriving DecidableEq, Repr

/-- The firmware slot A as the part is shipped: valid, committed, format and versions 0 (log 8). -/
def Aon.shipped : Aon := { slotA := { valid := true } }

/-- The block right after a chip reset with the auxiliary supply freshly up (R4 Reset columns, R358, R418; log 9). -/
def State.reset : State where
  pending := []
  aon := Aon.shipped
  pins := {}
  host := {}
  ptns := []
  jobs := []
  ctxs := []
  colls := []
  cmds := []
  nextCmd := 1
  hearth := {}
  hearthUp := false
  faults := 0
  levels := []
  seamTok := (12800, 12800)
  icern := {}
  power := {}
  jtag := {}
  hbm := []
  poison := []
  free := 0

end Sys2Proof.Machine
end

