-- ==== Sys2Proof/Machine/Table.lean ====
section
/-! DEFINITION. Tables by number, byte strings, bit fields and byte memories: the plain helpers the operations use (R2). -/

namespace Sys2Proof.Machine

/-- The record of number k, if the table lists one. -/
def tget {α : Type} : Tbl α → Nat → Option α
  | [], _ => none
  | (n, a) :: t, k => if n = k then some a else tget t k

/-- The table with record a under number k, in ascending order of numbers. -/
def tset {α : Type} : Tbl α → Nat → α → Tbl α
  | [], k, a => [(k, a)]
  | (n, b) :: t, k, a => if k < n then (k, a) :: (n, b) :: t else if n = k then (k, a) :: t else (n, b) :: tset t k a

/-- The table without number k. -/
def tdel {α : Type} : Tbl α → Nat → Tbl α
  | [], _ => []
  | (n, b) :: t, k => if n = k then tdel t k else (n, b) :: tdel t k

/-- The record of number k, or d. -/
def tgetD {α : Type} (t : Tbl α) (k : Nat) (d : α) : α := (tget t k).getD d

/-- Every record changed by f. -/
def tmap {α : Type} (f : Nat → α → α) (t : Tbl α) : Tbl α := t.map fun x => (x.1, f x.1 x.2)

/-- The numbers listed. -/
def tkeys {α : Type} (t : Tbl α) : List Nat := t.map (·.1)

/-- The i-th element, or d. -/
def lget {α : Type} (l : List α) (i : Nat) (d : α) : α := l.getD i d

/-- The list with element i replaced, filled with d up to it. -/
def lset {α : Type} (l : List α) (i : Nat) (a : α) (d : α) : List α :=
  match l, i with
  | [], 0 => [a]
  | [], i + 1 => d :: lset [] i a d
  | _ :: t, 0 => a :: t
  | x :: t, i + 1 => x :: lset t i a d

/-- 0, 1, …, n - 1. -/
def upto (n : Nat) : List Nat := List.range n

/-- The greatest element under a Nat measure. -/
def maxBy {α : Type} (f : α → Nat) : List α → Option α
  | [] => none
  | a :: t => match maxBy f t with
    | none => some a
    | some b => if f b > f a then some b else some a

/-- The least element under a Nat measure; the first among equals. -/
def minBy {α : Type} (f : α → Nat) : List α → Option α
  | [] => none
  | a :: t => match minBy f t with
    | none => some a
    | some b => if f b < f a then some b else some a

/-- Insertion of a into a list sorted by `before`. -/
def insertBy {α : Type} (before : α → α → Bool) (a : α) : List α → List α
  | [] => [a]
  | b :: t => if before a b then a :: b :: t else b :: insertBy before a t

/-- The list sorted by `before`; equal elements keep their order. -/
def sortBy {α : Type} (before : α → α → Bool) (l : List α) : List α := l.foldr (insertBy before) []

/-- Whether the list repeats an element. -/
def repeats {α : Type} [DecidableEq α] : List α → Bool
  | [] => false
  | a :: t => t.contains a || repeats t

/-- A list cut into pieces of n; k bounds the number of pieces. -/
def chunksOf {α : Type} (n : Nat) : Nat → List α → List (List α)
  | 0, _ => []
  | k + 1, l => if l.isEmpty then [] else l.take n :: chunksOf n k (l.drop n)

/-! ### Byte strings, little-endian (R2) -/

/-- The value of a byte string, byte 0 the least significant. -/
def leNat : List Byte → Nat
  | [] => 0
  | b :: t => b.toNat + 256 * leNat t

/-- The n bytes of a value, byte 0 first. -/
def leBytes : Nat → Nat → List Byte
  | 0, _ => []
  | n + 1, v => BitVec.ofNat 8 v :: leBytes n (v / 256)

/-- The n-byte field at offset o of a byte string; bytes past its end read 0. -/
def field (bs : List Byte) (o n : Nat) : Nat := leNat ((bs.drop o).take n)

/-- Whether bytes o to o + n - 1 are zero. -/
def zeroAt (bs : List Byte) (o n : Nat) : Bool := ((bs.drop o).take n).all (· == 0)

/-- Bits [hi:lo] of a number. -/
def bits (v hi lo : Nat) : Nat := v / 2 ^ lo % 2 ^ (hi + 1 - lo)

/-- Bit i of a number. -/
def bit (v i : Nat) : Bool := v / 2 ^ i % 2 == 1

/-- A number as two's complement of w bits. -/
def toSigned (w v : Nat) : Int := if v % 2 ^ w < 2 ^ (w - 1) then (v % 2 ^ w : Nat) else (v % 2 ^ w : Nat) - (2 ^ w : Nat)

/-- The w-bit two's complement of an integer. -/
def ofSigned (w : Nat) (i : Int) : Nat := (i % (2 ^ w : Nat)).toNat

/-- An integer clamped to lo..hi. -/
def clampI (i lo hi : Int) : Int := if i < lo then lo else if i > hi then hi else i

/-- Saturating increment of a w-bit counter. -/
def satInc {w : Nat} (v : BitVec w) : BitVec w := if v = BitVec.allOnes w then v else v + 1

/-- ⌈a / b⌉. -/
def ceilDiv (a b : Nat) : Nat := (a + b - 1) / b

/-- The mask with the bits of the list set. -/
def maskOf (l : List Nat) : Nat := l.foldl (fun m i => if bit m i then m else m + 2 ^ i) 0

/-- The positions of the set bits below n. -/
def bitsOf (n v : Nat) : List Nat := (upto n).filter (bit v)

/-! ### Byte memories (`Mem`): canonical lists of (address, byte), an unlisted address reading 0 -/

/-- The byte at an address. -/
def mread : List Host.Cell → Nat → Byte
  | [], _ => 0
  | (a, b) :: t, k => if a = k then b else mread t k

/-- A byte written at an address; a 0 is not listed. -/
def mwrite : List Host.Cell → Nat → Byte → List Host.Cell
  | [], k, b => if b = 0 then [] else [(k, b)]
  | (a, c) :: t, k, b =>
    if k < a then (if b = 0 then (a, c) :: t else (k, b) :: (a, c) :: t)
    else if a = k then (if b = 0 then t else (k, b) :: t)
    else (a, c) :: mwrite t k b

/-- The cells of a byte string from an address on. -/
def cellsFrom (k : Nat) : List Byte → List Host.Cell
  | [] => []
  | b :: t => if b = 0 then cellsFrom (k + 1) t else (k, b) :: cellsFrom (k + 1) t

/-- A byte string written from an address on. -/
def mwriteAll (m : List Host.Cell) (k : Nat) (bs : List Byte) : List Host.Cell :=
  m.filter (fun c => decide (c.1 < k)) ++ cellsFrom k bs ++ m.filter fun c => decide (k + bs.length ≤ c.1)

/-- n bytes from address k on, of cells none of which lies below k. -/
def readFrom : List Host.Cell → Nat → Nat → List Byte
  | _, _, 0 => []
  | [], _, n + 1 => List.replicate (n + 1) 0
  | (a, b) :: t, k, n + 1 => if a = k then b :: readFrom t (k + 1) n else 0 :: readFrom ((a, b) :: t) (k + 1) n

/-- n bytes read from an address on. -/
def mreadAll (m : List Host.Cell) (k n : Nat) : List Byte := readFrom (m.dropWhile fun c => decide (c.1 < k)) k n

/-- The canonical form: addresses rise strictly and no byte is 0. -/
def Memory.wfFrom : Nat → List Host.Cell → Bool
  | _, [] => true
  | lo, (a, b) :: t => decide (lo ≤ a) && b != 0 && Memory.wfFrom (a + 1) t

/-- The canonical form of a byte memory (log 4). -/
def Memory.wf (m : List Host.Cell) : Bool := Memory.wfFrom 0 m

end Sys2Proof.Machine
end

