-- ==== Sys2Proof/Machine/Ops.lean ====
section
/-! DEFINITION. Shared operations: records by number, events and interrupts (R285, R367), fault codes (R346, R349),
posted writes (R289, R301), epochs (R87), pools (R292), completions (R278, R280). -/

namespace Sys2Proof.Machine

/-! ### Records by number -/

def ptn (s : State) (p : Nat) : Ptn := tgetD s.ptns p {}
def updPtn (p : Nat) (f : Ptn → Ptn) (s : State) : State := { s with ptns := tset s.ptns p (f (ptn s p)) }
def updHost (f : HostIf → HostIf) (s : State) : State := { s with host := f s.host }
def ring (s : State) (r : Nat) : Ring := tgetD s.host.rings r {}
def ringExists (s : State) (r : Nat) : Bool := (tget s.host.rings r).isSome
def setRing (r : Nat) (x : Ring) (s : State) : State := updHost (fun h => { h with rings := tset h.rings r x }) s
def updRing (r : Nat) (f : Ring → Ring) (s : State) : State := setRing r (f (ring s r)) s
def updLink (f : Link → Link) (s : State) : State := updHost (fun h => { h with link := f h.link }) s
def cmd? (s : State) (c : Nat) : Option Cmd := tget s.cmds c
def setCmd (c : Nat) (x : Cmd) (s : State) : State := { s with cmds := tset s.cmds c x }
def updCmd (c : Nat) (f : Cmd → Cmd) (s : State) : State :=
  match cmd? s c with
  | some x => setCmd c (f x) s
  | none => s
def delCmd (c : Nat) (s : State) : State := { s with cmds := tdel s.cmds c }
def ctx? (s : State) (c : Nat) : Option Ctx := tget s.ctxs c
def updCtx (c : Nat) (f : Ctx → Ctx) (s : State) : State :=
  match ctx? s c with
  | some x => { s with ctxs := tset s.ctxs c (f x) }
  | none => s
def coll (s : State) (c : Nat) : Coll := tgetD s.colls c {}
def updColl (c : Nat) (f : Coll → Coll) (s : State) : State := { s with colls := tset s.colls c (f (coll s c)) }
def collPtn (x : Coll) (p : Nat) : CollPtn := tgetD x.ptns p {}
def updCollPtn (c p : Nat) (f : CollPtn → CollPtn) (s : State) : State :=
  updColl c (fun x => { x with ptns := tset x.ptns p (f (collPtn x p)) }) s
def job? (s : State) (j : Nat) : Option Job := tget s.jobs j
def updJob (j : Nat) (f : Job → Job) (s : State) : State :=
  match job? s j with
  | some x => { s with jobs := tset s.jobs j (f x) }
  | none => s
def updHearth (f : Hearth → Hearth) (s : State) : State := { s with hearth := f s.hearth }
def mbx (s : State) (m : Nat) : Mbx := tgetD s.hearth.mbx m {}
def updMbx (m : Nat) (f : Mbx → Mbx) (s : State) : State :=
  updHearth (fun h => { h with mbx := tset h.mbx m (f (mbx s m)) }) s
def updAon (f : Aon → Aon) (s : State) : State := { s with aon := f s.aon }
def updPins (f : Pins → Pins) (s : State) : State := { s with pins := f s.pins }
def updPower (f : PowerT → PowerT) (s : State) : State := { s with power := f s.power }
def updIcern (f : Icern → Icern) (s : State) : State := { s with icern := f s.icern }
def port (s : State) (n : Nat) : Port := tgetD s.icern.ports n {}
def updPort (n : Nat) (f : Port → Port) (s : State) : State :=
  updIcern (fun i => { i with ports := tset i.ports n (f (port s n)) }) s
def anvil (s : State) (p a : Nat) : Anvil := tgetD (ptn s p).anvils a {}
def updAnvil (p a : Nat) (f : Anvil → Anvil) (s : State) : State :=
  updPtn p (fun x => { x with anvils := tset x.anvils a (f (tgetD x.anvils a {})) }) s
def window (s : State) (p : Nat) : Window := tgetD s.aon.ptnWin p {}
def leaf (x : Coll) (l : Nat) : Leaf := tgetD x.leaves l {}
def updLeaf (c l : Nat) (f : Leaf → Leaf) (s : State) : State :=
  updColl c (fun x => { x with leaves := tset x.leaves l (f (leaf x l)) }) s
def brick? (x : Coll) (b : Nat) : Option Brick := tget x.bricks b
def updBrick (c b : Nat) (f : Brick → Brick) (s : State) : State :=
  updColl c (fun x => match brick? x b with
    | some k => { x with bricks := tset x.bricks b (f k) }
    | none => x) s

/-- The command does what `g` says where `cond` holds; where its event cannot occur nothing changes (log 1). -/
def onlyIf (cond : Bool) (g : State → State) (s : State) : Host.Outcome State Fault Refusal :=
  .next (if cond then g s else s)

/-- One free choice taken (log 3). -/
def spend (n : Nat) (s : State) : State := { s with free := s.free + n }

/-- The doorbell watcher of the always-on domain is told to wake the Hearth (R306). -/
def wakeHearth (s : State) : State := updHearth (fun h => { h with wakeDue := true }) s

/-- The answer to the last host or tray access (log 2). -/
def answer (a : Answer) (s : State) : State := updHost (fun h => { h with answer := a }) s

/-! ### Codes -/

def Status.code : Status → Byte
  | .ok => 0x00 | .trdy => 0x10 | .invalidField => 0x81 | .range => 0x82 | .timeout => 0x83 | .fenced => 0x84
  | .abortedPeer => 0x85 | .uncorrectable => 0x86 | .noResource => 0x87 | .outOfService => 0x88 | .killed => 0x89
  | .linkLost => 0x8A

/-- The status of a code; an unknown code is taken as a failure of the peer. -/
def statusOfCode (b : Nat) : Status :=
  if b = 0 then .ok else if b = 0x81 then .invalidField else if b = 0x82 then .range else if b = 0x83 then .timeout
  else if b = 0x84 then .fenced else if b = 0x86 then .uncorrectable else if b = 0x87 then .noResource
  else if b = 0x88 then .outOfService else if b = 0x89 then .killed else if b = 0x8A then .linkLost else .abortedPeer

def MStatus.code : MStatus → Byte
  | .ok => 0x00 | .busy => 0x20 | .invalidField => 0x81 | .range => 0x82 | .timeout => 0x83 | .fenced => 0x84
  | .uncorrectable => 0x86 | .noResource => 0x87 | .outOfService => 0x88 | .authFailed => 0x8B

/-- Bit of EVT_PEND (R286). -/
def Event.bit : Event → Nat
  | .ringFault => 0 | .dbInvalid => 1 | .hdmUnmapped => 2 | .linkDeg => 3 | .satDrift => 4 | .nanDrop => 5
  | .tombPressure => 6 | .listOversize => 7 | .journalFault => 8 | .memUe => 9 | .atomicTransit => 10
  | .semOverhold => 11 | .policyConflict => 12 | .fault => 13 | .mbxEvent => 14 | .ptnChange => 15

def Power.code : Power → Nat
  | .forge => 0 | .warm => 1 | .banked => 2 | .cold => 3
def Service.code : Service → Nat
  | .inService => 0 | .fenced => 1 | .resetting => 2 | .oos => 3
def RingState.code : RingState → Nat
  | .disabled => 0 | .running => 1 | .draining => 2 | .error => 3
def CollState.code : CollState → Nat
  | .free => 0 | .untrained => 1 | .training => 2 | .redistributing => 3 | .trained => 4 | .suspect => 5
def PortState.code : PortState → Nat
  | .disabled => 0 | .training => 1 | .init => 2 | .up => 3 | .down => 4
def AnvState.code : AnvState → Nat
  | .idle => 0 | .running => 1 | .waitMem => 2 | .waitCredit => 3 | .waitDesc => 4 | .yielded => 5 | .stopped => 6

/-! ### Pools (R292–R297) -/

def poolSize : Pool → Nat
  | .rowFold _ => 16384
  | .ptnFold _ => 8388608
  | .devFold => 2097152
  | .resultBuf => 524288

def poolUsed (s : State) (q : Pool) : Nat :=
  s.host.pools.foldl (fun n h => if h.pool = q then n + h.amount else n) 0
def takePool (h : Hold) (s : State) : State :=
  updHost (fun x => { x with pools := match x.pools.find? (·.pool = h.pool) with
    | some o => { pool := h.pool, amount := o.amount + h.amount } :: x.pools.filter (·.pool ≠ h.pool)
    | none => h :: x.pools }) s
def freePool (h : Hold) (s : State) : State :=
  updHost (fun x => { x with pools := match x.pools.find? (·.pool = h.pool) with
    | some o => if o.amount ≤ h.amount then x.pools.filter (·.pool ≠ h.pool)
        else { pool := h.pool, amount := o.amount - h.amount } :: x.pools.filter (·.pool ≠ h.pool)
    | none => x.pools }) s
/-! ### Posted writes, interrupts, events -/

/-- Lines of the host write queue in use (R292). -/
def queueLines (s : State) : Nat := s.host.writes.foldl (fun n w => n + ceilDiv w.bytes.length 64) 0
/-- The host write queue takes a write: none waits before it, and its lines fit (R292, R299). -/
def roomFor (s : State) (w : HostWrite) : Bool := s.host.posting.isEmpty && decide (queueLines s + ceilDiv w.bytes.length 64 ≤ 512)
/-- A write enters the host write queue; the entries of a result are freed with that (R297). -/
def enterWrite (w : HostWrite) (s : State) : State :=
  let s := updHost (fun h => { h with writes := h.writes ++ [w] }) s
  match w.kind with
  | .result _ n => freePool { pool := .resultBuf, amount := n } s
  | _ => s

/-- A posted write goes to the host write queue, or waits behind it; while the link is down or the function is in D3hot it is discarded or not
made (R261, R275, R301). -/
def postWrite (w : HostWrite) (s : State) : State :=
  if s.host.link.up && !s.host.link.d3hot then
    (if roomFor s w then enterWrite w s else updHost (fun h => { h with posting := h.posting ++ [w] }) s)
  else s
/-- The posted writes that the host has not accepted, oldest first: those in the queue, then those that wait behind it (R289, R301). -/
def postedWrites (s : State) : List HostWrite := s.host.writes ++ s.host.posting
/-- Bytes written by an engine or the Hearth, in writes of at most 16 KB, so that each fits the queue. -/
def postBytes (addr : Nat) (bs : List Byte) (s : State) : State :=
  ((chunksOf 16384 bs.length bs).zipIdx).foldl (fun s (b, i) => postWrite { kind := .data, addr := BitVec.ofNat 64 (addr + 16384 * i), bytes := b } s) s

/-- CXL.cache is usable (R260, R264, R275). -/
def cacheUsable (s : State) : Bool := s.host.link.up && !s.host.link.deg && !s.host.link.d3hot && s.host.link.cacheEn

def vec (s : State) (v : Nat) : Vec := tgetD s.host.vecs v {}
def updVec (v : Nat) (f : Vec → Vec) (s : State) : State := updHost (fun h => { h with vecs := tset h.vecs v (f (vec s v)) }) s

/-- The MSI-X message of vector v; a masked vector sets its PBA bit (R285). -/
def sendVec (v : Nat) (s : State) : State :=
  if (vec s v).masked then updVec v (fun x => { x with pba := true }) s
  else postWrite { kind := .msix v, addr := (vec s v).addr, bytes := leBytes 4 (vec s v).data.toNat } s

/-- An entry of the Hearth's event log of 4,096 entries, the oldest overwritten (R367). -/
def logEvent (bit kind object data : Nat) (s : State) : State :=
  updHearth (fun h => { h with
    log := (h.log ++ [(⟨h.logSeq, bit, kind, object, data⟩ : LogEntry)]).drop (h.log.length - 4095),
    logSeq := h.logSeq + 1, wakeDue := true }) s

def evtCount (s : State) (b : Nat) : W16 := tgetD s.host.evtCnt b 0

/-- An occurrence of an event (R285, R367): the bit set, the counter advanced, vector 0 sent when an unmasked bit rises,
one log entry. -/
def raise (e : Event) (kind object data : Nat) (s : State) : State :=
  let b := e.bit
  let rises := !bit s.host.evtPend.toNat b && !bit s.host.evtMask.toNat b
  let s' := updHost (fun h => { h with
    evtPend := h.evtPend ||| BitVec.ofNat 16 (2 ^ b), evtCnt := tset h.evtCnt b (evtCount s b + 1) }) s
  logEvent b kind object data (if rises then sendVec 0 s' else s')

/-! ### Fault codes -/

/-- A fault code (R346). -/
def faultCode (cls unit p detail : Nat) : W32 := BitVec.ofNat 32 (cls * 2 ^ 28 + unit * 2 ^ 20 + p * 2 ^ 16 + detail)

/-- Post and latch a fault code before anything it starts (R11, R349). -/
def postFault (code : W32) (s : State) : State :=
  raise .fault 0 0 code.toNat
    { updAon (fun a => { a with total := a.total + 1, codes := (code :: a.codes).take 16 }) s with faults := satInc s.faults }

/-- The class 0x5 code of a failed host access (R433): unit, cause, and the ring it served, if any. -/
def hostFault (unit cause : Nat) (ring : Option Nat) : W32 :=
  faultCode 5 unit 0xF (cause * 2 ^ 12 + (match ring with | some r => 2 ^ 10 + r | none => 0))

/-! ### Epochs (R87) -/

/-- The number of successor steps from a to b, epoch 0 left out. -/
def epochDist (a b : Epoch) : Nat := (b.toNat + (2 ^ 32 - 1) - a.toNat) % (2 ^ 32 - 1)
/-- a precedes b. -/
def precedes (a b : Epoch) : Bool := 1 ≤ epochDist a b && epochDist a b ≤ 2 ^ 31 - 1
def epochLe (a b : Epoch) : Bool := a == b || precedes a b
/-- e advanced by n successor steps. -/
def epochAdd (e : Epoch) (n : Nat) : Epoch := BitVec.ofNat 32 ((e.toNat + (2 ^ 32 - 2) + n) % (2 ^ 32 - 1) + 1)
def succEpoch (e : Epoch) : Epoch := epochAdd e 1
/-- The open epoch of a collection: the successor of LATEST (R173). -/
def openEpoch (x : Coll) : Epoch := succEpoch x.latest

def freePools (hs : List Hold) (s : State) : State := hs.foldl (fun s h => freePool h s) s
def freeGranules (g : Option Granules) (s : State) : State :=
  match g with
  | some g => updHost (fun h => { h with granules := h.granules.filter (· ≠ g) }) s
  | none => s

/-- Free completion slots of a ring (R272). -/
def freeSlots (r : Ring) : Nat :=
  let unreleased := (r.cqTail + r.size - r.cqHead) % r.size
  r.size - 1 - unreleased - r.reserved

/-! ### Commands -/

/-- The commands of a ring that have no completion yet, oldest first (R271). -/
def cmdsOf (f : Cmd → Bool) (s : State) : List Nat := (s.cmds.filter fun x => f x.2).map (·.1)
def liveCmd (x : Cmd) : Bool := x.stage != .done
/-- Admitted, not yet completed commands of a collection. -/
def collCmds (s : State) (c : Nat) : List Nat :=
  cmdsOf (fun x => liveCmd x && x.admitted && x.coll == c && x.opcode ≥ 0x10) s

/-- The command's outcome is fixed; COMPLETION_WRITE writes it. A command whose outcome is fixed keeps it. -/
def finish (c : Nat) (st : Status) (count : Nat) (fault : W32) (s : State) : State :=
  updCmd c (fun x => if x.stage = .final ∨ x.stage = .done then x
    else { x with stage := .final, status := st, count := count, fault := fault }) s

/-- Lanes of an anvil that belong to commands for which f holds; a lane whose command is gone names command 0. -/
def lanesOf (f : Nat → Bool) (a : Anvil) : List LaneReq := a.lanes.filter fun l => f l.cmd
/-- The bound lanes of an anvil. -/
def liveLanes (a : Anvil) : List LaneReq := lanesOf (· != 0) a

/-! ### Charging (R239–R241) -/

def laneCmd (s : State) (l : LaneReq) : Option Cmd := cmd? s l.cmd
/-- A context's share in a partition, 100 by default (R238). -/
def shareOf (s : State) (ctx p : Nat) : Nat := match ctx? s ctx with | some x => tgetD x.shares p 100 | none => 100
/-- The current slot of a round. -/
def curSlot (x : Ptn) : RSlot := lget x.round.table x.round.slot { ctx := 0xFFFF, cls := 1, dur := 1048576 }
/-- Work at the first place as the named context of a FIXED or BULK slot: its cycles are not charged to v (R235, R239). -/
def favoured (x : Ptn) (bulk : Bool) (ctx : Nat) : Bool := let r := curSlot x; r.ctx == ctx && ((r.cls == 0 && !bulk) || (r.cls == 2 && bulk))

/-- x cycles of a context's work charged at a share. -/
def chargeCtx (p ctx : Nat) (bulk : Bool) (w x : Nat) (s : State) : State :=
  let s := updCtx ctx (fun k => { k with counters := { k.counters with anvilCyc := k.counters.anvilCyc + BitVec.ofNat 64 x } }) s
  if favoured (ptn s p) bulk ctx then s
  else updPtn p (fun y => { y with vtime := tset y.vtime ctx ((tgetD y.vtime ctx 0 + x * 65536 / max 1 w) % 2 ^ 64) }) s

/-- x cycles charged in equal parts to the contexts of lanes, the remainder to the first, at the shares that their commands were admitted with
(R9, R241). -/
def chargeLanes (p : Nat) (bulk : Bool) (ls : List LaneReq) (x : Nat) (s : State) : State :=
  let n := max 1 ls.length
  (ls.zipIdx).foldl (fun s (l, j) =>
    let y := x / n + (if j = 0 then x % n else 0)
    match laneCmd s l with
    | some k => chargeCtx p k.ctx bulk (tgetD k.shares p 100) y (updCmd l.cmd (fun q => { q with anvilCyc := q.anvilCyc + y }) s)
    | none => s) s

/-- x cycles of a chunk without lanes: of the command that owns it, at the share it was admitted with, or of the context that the work of its
collection is charged to (R9, R241). -/
def chargeChunk (p : Nat) (k : Chunk) (x : Nat) (s : State) : State :=
  match k.cmd.bind fun c => (cmd? s c).map fun q => (c, q) with
  | some (c, q) => chargeCtx p k.ctx true (tgetD q.shares p 100) x (updCmd c (fun q => { q with anvilCyc := q.anvilCyc + x }) s)
  | none => if (ctx? s k.ctx).isSome then chargeCtx p k.ctx true (shareOf s k.ctx p) x s else s

/-- The cycles since the last charge, divided among the lanes, or charged for a chunk that has none (R239, R241). -/
def chargeAnvil (p i : Nat) (s : State) : State :=
  let a := anvil s p i
  let now := (ptn s p).cycles.toNat
  let x := now - a.charge
  let s' := updAnvil p i (fun a => { a with charge := now }) s
  match liveLanes a, a.chunk with
  | [], some k => chargeChunk p k x s'
  | ls, k => chargeLanes p k.isSome ls x s'

/-- An anvil's binding or chunk works for commands for which f holds. -/
def anvilWorks (f : Nat → Bool) (a : Anvil) : Bool := a.lanes.any (fun l => f l.cmd) || a.chunk.any fun k => k.cmd.any f

/-- The anvils that work and that g tells, of partition, number and anvil, are charged up to now (R239, R240). -/
def chargeWhere (g : Nat → Nat → Anvil → Bool) (s : State) : State :=
  s.ptns.foldl (fun s x => (x.2.anvils.filter fun a => a.2.st != .idle && a.2.st != .stopped && a.2.st != .yielded && g x.1 a.1 a.2).foldl (fun s a =>
    chargeAnvil x.1 a.1 s) s) s

/-- The anvils that work for some commands are charged before they stop (R239, R240). -/
def chargeStopped (f : Nat → Bool) (s : State) : State := chargeWhere (fun _ _ a => anvilWorks f a) s

/-- A descriptor without the lanes of some commands. -/
def cutDesc (f : Nat → Bool) (d : Desc) : Desc := { d with lanes := d.lanes.filter fun l => !f l.cmd }

/-- A chunk without some commands: one that rows of several share goes on for the others, the first of them now its command (R127); none where
nothing is left of it. -/
def cutChunk (f : Nat → Bool) (ctxOf : Nat → Nat) (k : Chunk) : Option Chunk :=
  if !(k.cmd.any f || (k.start ++ k.bricks).any fun d => d.lanes.any fun l => f l.cmd) then some k
  else match (k.start ++ k.bricks).head?.bind fun d => (cutDesc f d).lanes.head? with
    | some l => some { k with cmd := some l.cmd, ctx := ctxOf l.cmd, bricks := k.bricks.map (cutDesc f), start := k.start.map (cutDesc f) }
    | none => none

/-- An anvil's record without the lanes and chunk of the given commands; one left with nothing stops without saving (R247, R354). -/
def dropAnvil (f : Nat → Bool) (ctxOf : Nat → Nat) (a : Anvil) : Anvil :=
  let chunk := a.chunk.bind (cutChunk f ctxOf)
  let gone := a.chunk.isSome && chunk.isNone
  if (lanesOf f a).isEmpty && !gone then a
  else if (lanesOf (fun c => c != 0 && !f c) a).isEmpty then
    { a with st := if a.st = .stopped then .stopped else .idle, lanes := [], outst := [], desc := none, sel := [], chunk := none,
             preempt := false, killed := true }
  else { a with chunk := chunk, lanes := a.lanes.map fun l => if f l.cmd then { cmd := 0, row := 0 } else l }

/-- The context that an anvil works for: that of its chunk, else of its first bound lane. -/
def workCtx (ctxOf : Nat → Nat) (a : Anvil) : Nat :=
  match a.chunk with
  | some k => k.ctx
  | none => match (liveLanes a).head? with | some l => ctxOf l.cmd | none => 0
/-- An anvil that stopped at a YIELD waits for its record to be saved in the slot of a context (R246, R251). -/
def awaitsSave (ctxOf : Nat → Nat) (ctx : Nat) (as : Tbl Anvil) : Bool :=
  as.any fun a => a.2.st == .yielded && a.2.preempt && workCtx ctxOf a.2 == ctx

/-- Bindings of the given commands are closed, their descriptors, chunks and saved records dropped (R136, R247, R354). -/
def dropWork (f : Nat → Bool) (s : State) : State :=
  let ctxOf := fun c => ((cmd? s c).map (·.ctx)).getD 0
  let s := chargeStopped f s
  { s with ptns := tmap (fun _ (x : Ptn) => let as := tmap (fun _ (a : Anvil) => dropAnvil f ctxOf a) x.anvils; { x with
      rowQ := (x.rowQ.map fun d => (d.1, cutDesc f d.2)).filter fun d => !d.2.lanes.isEmpty
      chunkQ := x.chunkQ.filterMap (cutChunk f ctxOf)
      anvils := as
      saves := (tmap (fun _ (v : SaveSlot) => { v with
        anvils := (tmap (fun _ (a : Anvil) => dropAnvil f ctxOf a) v.anvils).filter fun a => !(liveLanes a.2).isEmpty || a.2.chunk.isSome }) x.saves).filter
          fun v => v.2.zeroising || !v.2.anvils.isEmpty || awaitsSave ctxOf v.2.ctx as }) s.ptns }

/-- A context holds a semaphore in some crucible (R253). -/
def holdsSemaphore (ctx : Nat) (s : State) : Bool := s.ptns.any fun x => !(tgetD x.2.holders ctx []).isEmpty

/-- Partitions of a job. -/
def jobPtns (s : State) (j : Nat) : List Nat := match job? s j with | some x => x.ptns | none => []
def spans (s : State) (j : Nat) : Bool := match job? s j with | some x => x.modules > 1 | none => false
/-- A collection's home partition: the lowest of its job (R81). -/
def collHome (s : State) (c : Nat) : Nat := (jobPtns s (coll s c).job).headD 0

/-- The anvil clock of a partition runs (R390). -/
def anvilClock (x : Ptn) : Bool := x.power == .forge && x.banking.isNone

/-- Whether partition p is idle in the sense of R287. -/
def ptnIdle (s : State) (p : Nat) : Bool :=
  let x := ptn s p
  x.chunkQ.isEmpty && x.rowQ.isEmpty && x.swap.isNone &&
    x.anvils.all (fun a => a.2.st = .idle || a.2.st = .stopped) &&
    (cmdsOf (fun c => liveCmd c && c.admitted && (c.home == p || c.rows.any fun r => (tget r.probes p).any fun q => !q.sent)) s).isEmpty

/-- Events that report a change of power or service state (R286 PTN_CHANGE). -/
def ptnChange (p : Nat) (s : State) : State := raise .ptnChange 4 p 0 s

/-- A start of slot 0: a new table takes effect, the rounds are counted (R234). -/
def restartRound (r : Round) : Round :=
  if r.table.isEmpty ∧ r.next.isNone then r
  else { r with table := r.next.getD r.table, bfres := if r.next.isSome then r.nextBfres else r.bfres, next := none
                slot := 0, rounds := r.rounds + 1, running := true }

/-- A partition back from an abandoned entry to BANKED: in FORGE its round starts anew, out of WARM it goes on to FORGE (R234, R393). -/
def backFromBanking (x : Ptn) : Ptn :=
  let x := { x with banking := none, wcFences := x.wcFences.filter fun f => f.why ≠ FenceFor.banked }
  if x.power = .forge then { x with round := restartRound x.round } else { x with exiting := some x.power }

/-- A demand of R392 on partition p: a WARM or BANKED partition that nothing holds starts its exit; an entry to BANKED is abandoned
before its step 4 and left to complete after it (R393). -/
def demand (p : Nat) (s : State) : State :=
  let x := ptn s p
  if x.service ≠ .inService ∨ s.aon.oos then s
  else match x.banking with
    | some k =>
      if k < 4 then updPtn p backFromBanking s
      else updPtn p (fun x => { x with exiting := some .banked }) s
    | none =>
      if (x.power = .warm ∨ x.power = .banked) ∧ x.exiting.isNone then updPtn p (fun x => { x with exiting := some x.power }) s
      else s

end Sys2Proof.Machine
end

