-- ==== Sys2Proof/Machine/Memory.lean ====
section
/-! DEFINITION. Device memory as every issuer sees it (R193–R208): HBM bytes under the write-combining buffers, poison (R220),
the crucible's line classes (R209–R212), semaphores that a kill frees (R217). -/

namespace Sys2Proof.Machine

/-! ### Addresses (R194) -/

/-- Home partition of a device address. -/
def homePtn (a : Nat) : Nat := a / 2 ^ 36 % 16
/-- Offset within the stack. -/
def stackOff (a : Nat) : Nat := a % 2 ^ 36
/-- The line of an address. -/
def lineOf (a : Nat) : Nat := a - a % 64
/-- Some line is touched by both of two ranges. -/
def shareLine (a n b m : Nat) : Bool := decide (lineOf a < b + m) && decide (lineOf b < a + n)
/-- Channel and pseudo-channel of an address. -/
def channelOf (a : Nat) : Nat := a / 2 ^ 11 % 32
def pseudoOf (a : Nat) : Nat := a / 2 ^ 10 % 2
/-- The die of a partition: 0–5 West, 6–11 East. -/
def onEast (p : Nat) : Bool := p ≥ 6

/-! ### Reads (R198, R204) -/

/-- The stack offset of an entry's line. -/
def WcbEnt.line (e : WcbEnt) : Nat := 64 * e.idx.toNat
def wcbEnt (x : Ptn) (line : Nat) : Option WcbEnt := x.wcb.find? fun e => e.line == line

/-- A byte of HBM under what the write-combining buffer holds of it. -/
def underWcb (s : State) (a : Nat) (b : Byte) : Byte :=
  match wcbEnt (ptn s (homePtn a)) (lineOf (stackOff a)) with
  | some e => if bit e.mask.toNat (a % 64) then lget e.bytes (a % 64) 0 else b
  | none => b

/-- The byte at a device address: a masked byte of the write-combining buffer over HBM. -/
def memByte (s : State) (a : Nat) : Byte := underWcb s a (mread s.hbm a)

def memBytes (s : State) (a n : Nat) : List Byte := (mreadAll s.hbm a n).zipIdx.map fun (b, i) => underWcb s (a + i) b

/-- The bits of a mask that cover word w of a line. -/
def wordMask (m : W64) (w : Nat) : Nat := m.toNat / 2 ^ (8 * w) % 256

/-- A word reads poisoned (R220): its poison bit is set and the buffer does not hold all of its bytes. -/
def wordPoisoned (s : State) (a : Nat) : Bool :=
  let w := a - a % 8
  s.poison.contains w &&
  (match wcbEnt (ptn s (homePtn w)) (lineOf (stackOff w)) with | some e => wordMask e.mask (w % 64 / 8) != 255 | none => true)

/-- Some word of a range reads poisoned. -/
def rangePoisoned (s : State) (a n : Nat) : Bool := n > 0 && (upto ((a % 8 + n + 7) / 8)).any fun i => wordPoisoned s (a - a % 8 + 8 * i)

/-! ### Faults (R221) -/

/-- The code of a memory fault at an address. -/
def memFault (cause a : Nat) : W32 :=
  faultCode 1 (0x30 + channelOf a) (homePtn a) (channelOf a * 2 ^ 11 + pseudoOf a * 2 ^ 10 + cause * 2 ^ 6)

def addPoison (w : Nat) (s : State) : State := if s.poison.contains w then s else { s with poison := w :: s.poison }
def dropPoison (w : Nat) (s : State) : State := { s with poison := s.poison.filter (· ≠ w) }

/-- An uncorrectable word found at an address: poisoned over the data as read, counted, posted with its cause (R220, R221). -/
def foundBad (cause a : Nat) (s : State) : State :=
  let w := a - a % 8
  if s.poison.contains w then s else
  let s := { s with hbm := mwriteAll s.hbm w (leBytes 8 (Config.badData s.free).toNat) }
  let s := spend 1 (updPtn (homePtn w) (fun x => { x with ueCnt := satInc x.ueCnt }) (addPoison w s))
  raise .memUe 4 (homePtn w) 0 (postFault (memFault cause w) s)

/-! ### Writes (R204–R207) -/

/-- An entry flushed: masked bytes written; a word fully masked loses its poison, a word of `bad` that is not becomes poisoned (R206). -/
def flushEnt (p : Nat) (bad : List Nat) (e : WcbEnt) (s : State) : State :=
  let base := p * 2 ^ 36 + e.line
  let partly := (upto 8).any fun w => wordMask e.mask w != 0 && wordMask e.mask w != 255
  let s := if partly then bad.foldl (fun s w => if w < 8 ∧ wordMask e.mask w ≠ 255 then foundBad 3 (base + 8 * w) s else s) s else s
  let s := { s with hbm := if e.mask = BitVec.allOnes 64 then mwriteAll s.hbm base ((upto 64).map fun i => lget e.bytes i 0)
                           else (bitsOf 64 e.mask.toNat).foldl (fun m i => mwrite m (base + i) (lget e.bytes i 0)) s.hbm }
  (upto 8).foldl (fun s w => if wordMask e.mask w = 255 then dropPoison (base + 8 * w) s else s) s

/-- An entry leaves the buffer of its partition and its outstanding fences. -/
def removeEnt (p : Nat) (line : Nat) (s : State) : State :=
  updPtn p (fun x => { x with wcb := x.wcb.filter fun e => e.line ≠ line
                              wcFences := x.wcFences.map fun f => { f with lines := f.lines.filter (· ≠ line) } }) s

def flushLine (p line : Nat) (bad : List Nat) (s : State) : State :=
  match wcbEnt (ptn s p) line with
  | some e => flushEnt p bad e (removeEnt p line s)
  | none => s

/-- Entries of a channel, oldest first. -/
def chanEnts (x : Ptn) (ch : Nat) : List WcbEnt := x.wcb.filter fun e => channelOf e.line == ch

/-- Bytes merged over an entry from offset o on. -/
def mergeEnt (e : WcbEnt) (o : Nat) (bs : List Byte) : WcbEnt :=
  { e with mask := BitVec.ofNat 64 (e.mask.toNat ||| ((2 ^ bs.length - 1) * 2 ^ o))
           bytes := (upto 64).map fun i => if o ≤ i ∧ i < o + bs.length then lget bs (i - o) 0 else lget e.bytes i 0 }

/-- Room for a new entry: the oldest of a full channel of 32 is written out (R205). -/
def makeRoom (p line : Nat) (s : State) : State :=
  match chanEnts (ptn s p) (channelOf line) with
  | old :: rest => if rest.length + 1 ≥ 32 then flushLine p old.line [] s else s
  | [] => s

/-- A write of part of a line, or a whole one, accepted at its home (R204, R205). -/
def acceptLine (p line o : Nat) (bs : List Byte) (s : State) : State :=
  let x := ptn s p
  match wcbEnt x line with
  | some e =>
    let e' := mergeEnt e o bs
    if e'.mask = BitVec.allOnes 64 then flushEnt p [] e' (removeEnt p line s)
    else updPtn p (fun x => { x with wcb := x.wcb.map fun k => if k.line = line then e' else k }) s
  | none =>
    let e := mergeEnt { idx := BitVec.ofNat 30 (line / 64), mask := 0, bytes := List.replicate 64 0 } o bs
    if e.mask = BitVec.allOnes 64 then flushEnt p [] e s
    else updPtn p (fun x => { x with wcb := x.wcb ++ [e] }) (makeRoom p line s)

/-- Bytes written from a device address on, line by line; n bounds the lines. -/
def writeLines : Nat → Nat → List Byte → State → State
  | 0, _, _, s => s
  | n + 1, a, bs, s =>
    if bs.isEmpty then s else
    let k := 64 - a % 64
    writeLines n (a + k) (bs.drop k) (acceptLine (homePtn a) (lineOf (stackOff a)) (a % 64) (bs.take k) s)

def writeMem (a : Nat) (bs : List Byte) (s : State) : State := writeLines (bs.length / 64 + 2) a bs s

/-- A write that carries CXL poison: its words are stored poisoned (R220). -/
def writePoisoned (a : Nat) (bs : List Byte) (s : State) : State :=
  let s := writeMem a bs s
  let lines := (upto ((a % 64 + bs.length + 63) / 64)).map fun i => lineOf (stackOff a) + 64 * i
  let s := lines.foldl (fun s l => flushLine (homePtn a) l [] s) s
  if bs.isEmpty then s else (upto ((a % 8 + bs.length + 7) / 8)).foldl (fun s i => addPoison (a - a % 8 + 8 * i) s) s

/-- Zeros with poison clear over a range of a stack, its buffer entries gone (R386). -/
def zeroRange (a n : Nat) (s : State) : State :=
  let inside := fun k : Nat => a ≤ k && decide (k < a + n)
  { s with hbm := s.hbm.filter fun c => !inside c.1, poison := s.poison.filter fun w => !inside w
           ptns := tmap (fun p (x : Ptn) => { x with wcb := x.wcb.filter fun e => !inside (p * 2 ^ 36 + e.line) }) s.ptns }

/-! ### Regulators (R16, R199) -/

/-- Lines that n bytes from an address touch. -/
def lineCount (a n : Nat) : Nat := (a % 64 + n + 63) / 64
/-- Tokens of n lines in 25ths; a request longer than a bucket is deep draws a full bucket (log 12). -/
def tokens (n : Nat) : Nat := 25 * min n 256

/-- Lines waiting in a home's far queue. -/
def farLines (x : Ptn) : Nat := x.farQ.foldl (fun n q => n + lineCount q.req.addr q.req.len) 0

def updReg (p : Nat) (f : Reg → Reg) (s : State) : State := updPtn p (fun x => { x with reg := f x.reg }) s

/-- Whether a request between an issuer (none: a unit on West) and a home crosses the Seam, and toward East. -/
def crosses (issuer : Option Nat) (home : Nat) : Bool := (match issuer with | some p => onEast p | none => false) != onEast home
def seamHas (issuer : Option Nat) (home u : Nat) (s : State) : Bool :=
  !crosses issuer home || decide ((u : Int) ≤ if onEast home then s.seamTok.1 else s.seamTok.2)
def drawSeam (issuer : Option Nat) (home u : Nat) (s : State) : State :=
  if !crosses issuer home then s
  else { s with seamTok := if onEast home then (s.seamTok.1 - u, s.seamTok.2) else (s.seamTok.1, s.seamTok.2 - u) }

/-- The issue bucket of a request's issuer holds u tokens; a unit on West has none to draw. -/
def issueHas (issuer : Option Nat) (u : Nat) (s : State) : Bool :=
  match issuer with | some p => decide ((u : Int) ≤ (ptn s p).reg.issTok) | none => true

/-- Issue and Seam tokens of n lines drawn; none where a bucket does not hold them (R16, R199). -/
def takeIssue (issuer : Option Nat) (home n : Nat) (s : State) : Option State :=
  let u := tokens n
  if issueHas issuer u s && seamHas issuer home u s then
    some (drawSeam issuer home u (match issuer with
      | some p => updReg p (fun r => { r with issTok := r.issTok - u }) s
      | none => s))
  else none

/-- Receive tokens of n lines drawn; none where the home's bucket does not hold them (R199). -/
def takeReceive (home n : Nat) (s : State) : Option State :=
  let u := tokens n
  if (u : Int) ≤ (ptn s home).reg.rcvTok then some (updReg home (fun r => { r with rcvTok := r.rcvTok - u }) s) else none

/-- A requester without the place that its request has among its outstanding steps, which changes as earlier ones end. -/
def bareWho : Requester → Requester
  | .anvil p a _ => .anvil p a 0
  | w => w

/-- A request that waits on its issuer's bucket is counted once in an interval (R202). -/
def noteIssueWait (issuer : Option Nat) (home n : Nat) (key : Requester × MemReq) (s : State) : State :=
  let k := (bareWho key.1, key.2)
  match issuer with
  | some p =>
    if issueHas issuer (tokens n) s || (ptn s p).reg.seen.contains k then s
    else updReg p (fun r => { r with issWaited := r.issWaited + 1, seen := k :: r.seen }) s
  | none => s

/-- A request of n lines begins to wait on its home's receive bucket (R202). -/
def noteReceiveWait (issuer : Option Nat) (home n : Nat) (s : State) : State :=
  let s := updReg home (fun r => { r with rcvWaited := r.rcvWaited + n }) s
  match issuer with
  | some p => updReg p (fun r => { r with blocked := r.blocked + 1 }) s
  | none => s

/-- Lines that an engine moves inside its own step (R16, R197, R199): counted for the context at the issuer (R240); a far move draws its tokens of the
issue, Seam and receive buckets, and what they lack is owed, so that the requests after it wait, and counted as waiting (log 28). -/
def engineMove (issuer ctx : Option Nat) (home n : Nat) (s : State) : State :=
  let b := BitVec.ofNat 64 (64 * n)
  let near := issuer == some home
  let s := match ctx, issuer with
    | some c, some _ => updCtx c (fun k => { k with counters := if near then { k.counters with nearB := k.counters.nearB + b }
        else { k.counters with farB := k.counters.farB + b } }) s
    | _, _ => s
  if near || n == 0 then s
  else
    let u := 25 * n
    let s := match issuer with
      | some p => updReg p (fun r => { r with issTok := r.issTok - u, issWaited := r.issWaited + if r.issTok < u then 1 else 0 }) s
      | none => s
    let s := drawSeam issuer home u s
    let s := if (ptn s home).reg.rcvTok < u then noteReceiveWait issuer home n s else s
    updReg home (fun r => { r with rcvTok := r.rcvTok - u }) s

/-- One line moved for each partition of a list, to or from its home. -/
def moveLines (issuer ctx : Option Nat) (ps : List Nat) (s : State) : State := ps.foldl (fun s p => engineMove issuer ctx p 1 s) s

/-- The throttled line rate of a step (R224). -/
def stepRate (step : Nat) : Nat := if step = 0 then 51200 else if step = 1 then 38400 else if step = 2 then 25600 else 12800

/-! ### The crucible's lines (R209–R211, R215) -/

/-- Bank and set of a line: lines that share both share 16 ways (R209). -/
def bankSet (line : Nat) : Nat × Nat := (line / 2 ^ 6 % 32 ^^^ (line / 2 ^ 11 % 32), line / 2 ^ 11 % 512)
/-- A line lies in a range. -/
def inRange (start len line : Nat) : Bool := start ≤ line && decide (line < start + len)
def pinned (x : Ptn) (line : Nat) : Bool := x.pins.any fun p => inRange p.start p.len line
/-- Lines of a range that share bank and set with a line: those equal to it modulo 1 MB. -/
def rangeInSet (start len line : Nat) : Nat :=
  let first := start + (line % 2 ^ 20 + 2 ^ 20 - start % 2 ^ 20) % 2 ^ 20
  if first < start + len then (start + len - 1 - first) / 2 ^ 20 + 1 else 0
/-- A range put in front of ranges in ascending order, joined with all that it meets. -/
def joinRange (k : Nat × Nat) : List (Nat × Nat) → List (Nat × Nat)
  | [] => [k]
  | m :: t => if m.1 ≤ k.1 + k.2 then joinRange (k.1, max k.2 (m.1 + m.2 - k.1)) t else k :: m :: t
/-- The lines pinned, as disjoint ranges of start and length: a line that two pins name is one pinned line (R210). -/
def pinRanges (pins : List Pin) : List (Nat × Nat) :=
  (sortBy (fun a b : Nat × Nat => decide (a.1 ≤ b.1)) (pins.map fun p => (p.start, p.len))).foldr joinRange []
/-- Pinned lines of a line's set. -/
def pinsInSet (pins : List Pin) (line : Nat) : Nat := (pinRanges pins).foldl (fun n p => n + rangeInSet p.1 p.2 line) 0
/-- Locked lines of a line's set that are not pinned. -/
def locksInSet (x : Ptn) (line : Nat) : Nat := (x.locked.filter fun l => bankSet l.1 == bankSet line && !pinned x l.1).length
/-- No set holds more than 12 pinned lines (R210, R211); the fullest set of a sum of ranges is that of some range's first line. -/
def pinsFit (pins : List Pin) : Bool := pins.all fun p => decide (pinsInSet pins p.start ≤ 12)
/-- At least 2 ways of every set are neither pinned nor locked (R210); only a set with a lock can come to hold more than 12 (log 69). -/
def waysFit (x : Ptn) : Bool := x.locked.all fun l => decide (pinsInSet x.pins l.1 + locksInSet x l.1 ≤ 14)
/-- Cached lines kept within the ways that pins and locks leave (R210). -/
def trimCached (x : Ptn) : Ptn :=
  let keep := fun (acc : List Nat) (l : Nat) =>
    if pinned x l || (tget x.locked l).isSome then acc
    else if (acc.filter fun m => bankSet m == bankSet l).length + pinsInSet x.pins l + locksInSet x l < 16 then acc ++ [l] else acc
  { x with cached := x.cached.foldl keep [] }
/-- A line used as a cached line: most recent of its set, the least recent one leaves (R210). -/
def useCached (line : Nat) (x : Ptn) : Ptn :=
  if pinned x line || (tget x.locked line).isSome then x
  else
    let mates := x.cached.filter fun m => m ≠ line && bankSet m == bankSet line
    let ways := 16 - pinsInSet x.pins line - locksInSet x line
    let gone := mates.drop (ways - 1)
    let kept := x.cached.filter fun m => m ≠ line && !gone.contains m
    { x with cached := if ways = 0 then kept else line :: kept }
/-- Lines of an ordinary read stay as cached lines (R210). -/
def cacheLines (addr n : Nat) (s : State) : State :=
  updPtn (homePtn addr) (fun x => (upto (lineCount addr n)).foldl (fun x j => useCached (lineOf (stackOff addr) + 64 * j) x) x) s
def resident (x : Ptn) (line : Nat) : Bool := pinned x line || (tget x.locked line).isSome || x.cached.contains line

/-- Pins added where every set still holds at most 12 pinned lines and two ways that are neither pinned nor locked (R210, R211). -/
def addPin (k : Pin) (x : Ptn) : Option Ptn :=
  let y := { x with pins := k :: x.pins }
  if pinsFit y.pins && waysFit y then some (trimCached y) else none

/-- Software pins without a range of lines. -/
def cutPin (start len : Nat) (k : Pin) : List Pin :=
  match k.why with
  | .software _ =>
    let lo := min (max start k.start) (k.start + k.len)
    let hi := max lo (min (start + len) (k.start + k.len))
    (if lo > k.start then [{ k with len := lo - k.start }] else []) ++ (if k.start + k.len > hi then [{ k with start := hi, len := k.start + k.len - hi }] else [])
  | _ => [k]
def cutPins (start len : Nat) (ks : List Pin) : List Pin := ks.flatMap (cutPin start len)

/-- Locked lines for which f holds are released, those that a pin took over too (R211, R215). -/
def unlockLines (f : Nat → Nat → Bool) (x : Ptn) : Ptn :=
  let gone := x.locked.filter fun l => f l.1 l.2
  { x with locked := x.locked.filter fun l => !f l.1 l.2, pins := gone.foldl (fun ks l => cutPins l.1 64 ks) x.pins }

/-! ### Kills (R217) -/

/-- Semaphores a context holds in the crucibles of its job are written zero and its holder tables emptied. -/
def releaseSemaphores (ctx : Nat) (s : State) : State :=
  let held := s.ptns.flatMap fun x => tgetD x.2.holders ctx []
  let s := held.foldl (fun s a => writeMem a (leBytes 8 0) s) s
  { s with ptns := tmap (fun _ (x : Ptn) => { x with holders := tdel x.holders ctx }) s.ptns }

end Sys2Proof.Machine
end

