-- ==== Sys2Proof/Machine/PowerState.lean ====
section
/-! DEFINITION. What entering a power state does to a partition (R390–R394). -/

namespace Sys2Proof.Machine

/-- A partition in COLD: memory, SRAM and queues lost, the counter at 0 (R389, R390); its owner, timers, limits and region map stay. -/
def coldPtn (x : Ptn) : Ptn :=
  { power := .cold, service := if x.service = .oos then .oos else .inService, job := x.job, warmUs := x.warmUs, bankedMs := x.bankedMs
    wdog := x.wdog, ueCnt := x.ueCnt, ceCnt := x.ceCnt, usable := x.usable, reg := x.reg, regions := x.regions, log := x.log, tombs := x.tombs
    postedConflict := x.postedConflict }

/-- A partition goes COLD (R391). -/
def goCold (p : Nat) (s : State) : State := ptnChange p (updPtn p coldPtn (zeroRange (p * 2 ^ 36) (2 ^ 36) s))

/-- Entry to WARM: the anvil clock is gated, the round stops (R234, R390). -/
def enterWarm (p : Nat) (s : State) : State :=
  ptnChange p (updPtn p (fun x => { x with power := .warm, round := { x.round with running := false } }) s)

/-- A partition brought up from COLD (R394). -/
def startExit (p : Nat) (s : State) : State :=
  if (ptn s p).power = .cold ∧ (ptn s p).exiting.isNone then updPtn p (fun x => { x with exiting := some .cold }) s else s

/-- An unowned or owned partition that takes no step of its own: in FORGE or WARM, neither leaving nor entering a state,
its stack not being zeroised (R386, R392). -/
def steady (x : Ptn) : Bool := x.exiting.isNone && x.banking.isNone && !x.zeroising

end Sys2Proof.Machine
end

