-- ==== Sys2Proof/Machine/MbxRequest.lean ====
section
/-! DEFINITION. Mailbox requests (R308, R315): fields, the partitions a request needs (R434), the objects it names (R311). -/

namespace Sys2Proof.Machine

/-- The n-byte field at offset o of a request payload. -/
def qf (q : Req) (o n : Nat) : Nat := field q.bytes o n

/-- An exact size, the listed byte ranges zero (R309). -/
def shaped (q : Req) (size : Nat) (zeros : List (Nat × Nat)) : Bool := q.len == size && zeros.all fun z => zeroAt q.bytes z.1 z.2

/-- Partitions of a mask field. -/
def maskPtns (q : Req) (o : Nat) : List Nat := bitsOf 12 (qf q o 2)

def ctxPtns (s : State) (c : Nat) : List Nat := match ctx? s c with | some x => jobPtns s x.job | none => []
def ringPtns (s : State) (r : Nat) : List Nat := if (tget s.host.rings r).isSome then ctxPtns s (ring s r).ctx else []
def collPtns (s : State) (c : Nat) : List Nat := jobPtns s (coll s c).job

/-- Opcodes whose request begins with a context ID. -/
def namesCtx (op : Nat) : Bool :=
  [0x0113, 0x0116, 0x0117, 0x0118, 0x0120, 0x0220, 0x0301, 0x0302, 0x0410, 0x0412, 0x0420].contains op

/-- The partitions a mailbox command needs (R434). -/
def reqNeeds (s : State) (q : Req) : List Nat :=
  let op := q.opcode
  let named :=
    if op = 0x0004 ∨ op = 0x0101 ∨ op = 0x0102 ∨ op = 0x0801 then maskPtns q 0
    else if op = 0x0110 ∨ op = 0x0410 then maskPtns q 2
    else if op = 0x0117 then [qf q 3 1]
    else if op = 0x0118 then [qf q 4 1]
    else if op = 0x0204 then [qf q 2 1]
    else if op = 0x0401 ∨ op = 0x0411 ∨ op = 0x0601 ∨ op = 0x0802 ∨ op = 0x0810 then [qf q 0 1]
    else []
  let objects :=
    if op = 0x0111 then jobPtns s (qf q 0 1)
    else if op = 0x0112 ∨ op = 0x0201 then jobPtns s (qf q 2 1)
    else if op = 0x0114 then ctxPtns s (qf q 2 2)
    else if op = 0x0115 ∨ op = 0x0119 then ringPtns s (qf q 0 2)
    else if op = 0x0202 ∨ op = 0x0203 ∨ op = 0x0204 then collPtns s (qf q 0 2)
    else if op = 0x0210 then collPtns s (qf q 0 2) ++ ctxPtns s (qf q 2 2)
    else if namesCtx op then ctxPtns s (qf q 0 2)
    else []
  named ++ objects

/-- Kinds of objects (R311). -/
inductive ObjKind where
  | job | ptn | ctx | ring | coll | pattern | filter | fw
  deriving DecidableEq, Repr

/-- The objects a request names (R311). -/
def reqObjects (q : Req) : List (ObjKind × Nat) :=
  let op := q.opcode
  let ps := fun (l : List Nat) => l.map fun p => (ObjKind.ptn, p)
  if op = 0x0101 ∨ op = 0x0102 ∨ op = 0x0801 then ps (maskPtns q 0)
  else if op = 0x0110 then (.job, qf q 0 1) :: ps (maskPtns q 2)
  else if op = 0x0111 then [(.job, qf q 0 1)]
  else if op = 0x0112 then [(.ctx, qf q 0 2), (.job, qf q 2 1)]
  else if op = 0x0114 then [(.ring, qf q 0 2), (.ctx, qf q 2 2)]
  else if op = 0x0115 ∨ op = 0x0119 then [(.ring, qf q 0 2)]
  else if op = 0x0201 then [(.coll, qf q 0 2), (.job, qf q 2 1)]
  else if op = 0x0202 ∨ op = 0x0203 then [(.coll, qf q 0 2)]
  else if op = 0x0204 then [(.coll, qf q 0 2), (.ptn, qf q 2 1)]
  else if op = 0x0210 then [(.coll, qf q 0 2), (.ctx, qf q 2 2)]
  else if op = 0x0220 then [(.ctx, qf q 0 2), (.filter, qf q 0 2 * 256 + qf q 2 1)]
  else if op = 0x0301 then [(.ctx, qf q 0 2)]
  else if op = 0x0302 then [(.ctx, qf q 0 2), (.pattern, qf q 0 2 * 65536 + qf q 2 2)]
  else if op = 0x0401 ∨ op = 0x0411 ∨ op = 0x0601 ∨ op = 0x0802 ∨ op = 0x0810 then ps [qf q 0 1]
  else if op = 0x0410 then (.ctx, qf q 0 2) :: ps (maskPtns q 2)
  else if op = 0x0117 then [(.ctx, qf q 0 2), (.ptn, qf q 3 1)]
  else if op = 0x0118 then [(.ctx, qf q 0 2), (.ptn, qf q 4 1)]
  else if namesCtx op then [(.ctx, qf q 0 2)]
  else if op = 0x0701 ∨ op = 0x0702 then [(.fw, 0)]
  else []

def sharesObject (a b : Req) : Bool := (reqObjects a).any fun o => (reqObjects b).contains o

/-! ### The end of a ticket (R310) -/

/-- A BUSY command completes, a waiting ROUTE_SET holding no commands any more (R337): response stored, one log entry of kind ticket, MBX_EVENT set and counted; the tray controller is told of MBX3's. -/
def completeTicket (t : Nat) (r : Rsp) (s : State) : State :=
  match tget s.hearth.tickets t with
  | none => s
  | some k =>
    let s := updHearth (fun h => { h with
      tickets := tset h.tickets t { k with rsp := some r }, mctpEvents := if k.mbx = 3 then h.mctpEvents ++ [t] else h.mctpEvents }) s
    let s := if k.req.opcode = 0x0501 then updIcern (fun i => { i with hold := false }) s else s
    let b := Event.mbxEvent.bit
    let rises := !bit s.host.evtPend.toNat b && !bit s.host.evtMask.toNat b
    let s := updHost (fun h => { h with
      evtPend := h.evtPend ||| BitVec.ofNat 16 (2 ^ b), evtCnt := tset h.evtCnt b (evtCount s b + 1) }) s
    logEvent 0x80 6 t 0 (if rises then sendVec 0 s else s)

/-- Tickets still running. -/
def openTickets (s : State) : List (Nat × Ticket) := s.hearth.tickets.filter fun k => k.2.rsp.isNone

/-- Tickets for which f holds complete with FENCED (R314, R360). -/
def fenceTickets (f : Ticket → Bool) (s : State) : State :=
  ((openTickets s).filter fun k => f k.2).foldl (fun s k => completeTicket k.1 { status := .fenced } s) s

/-- A test run ends: its partitions' scrubs go on, those it brought up return to COLD (R424, R427). -/
def endTest (ps wasCold : List Nat) (s : State) : State :=
  let s := updHearth (fun h => { h with underTest := h.underTest.filter fun u => !ps.contains u.1 }) s
  wasCold.foldl (fun s p => if (ptn s p).service = .fenced ∨ (ptn s p).service = .resetting then s else goCold p s) s

/-- Test runs on a partition end with a fence or reset of it (R424). -/
def endTestsOn (p : Nat) (s : State) : State :=
  (openTickets s).foldl (fun s k => match k.2.work with
    | .test ps cold _ => if ps.contains p then endTest ps cold s else s
    | _ => s) s

/-- A fence of a partition ends the BUSY commands that need it, but for the RESET_PTN that runs it and a JOB_END that waits for it
(R227, R314, R352). -/
def fenceTicketsOf (p : Nat) (s : State) : State :=
  fenceTickets (fun k => (match k.work with | .reset _ => false | .jobEnd _ => false | _ => true) && (reqNeeds s k.req).contains p) (endTestsOn p s)

end Sys2Proof.Machine
end

