-- ==== Sys2Proof/Machine/Fp.lean ====
section
/-! DEFINITION. fp32 and bf16 arithmetic (R18, R19): exact values n/d · 2^e, one rounding at the end. -/

namespace Sys2Proof.Machine

/-- An exact value num / den · 2^exp. -/
structure Exact where
  num : Int
  den : Nat := 1
  exp : Int := 0
  deriving DecidableEq, Repr

/-- Rounding directions of R19. -/
inductive Dir where
  | ne | up | down
  deriving DecidableEq, Repr

def fNegInf : F32 := 0xFF800000
def fPosInf : F32 := 0x7F800000
def fNaN : F32 := 0x7FC00000

/-- Magnitude bits, without the sign. -/
def fMag (x : F32) : Nat := x.toNat % 2 ^ 31
def fSign (x : F32) : Bool := bit x.toNat 31
def fIsNaN (x : F32) : Bool := fMag x > 0x7F800000
def fIsInf (x : F32) : Bool := fMag x == 0x7F800000
def fFinite (x : F32) : Bool := fMag x < 0x7F800000
def fNeg (x : F32) : F32 := x ^^^ 0x80000000
def fAbs (x : F32) : F32 := x &&& 0x7FFFFFFF
/-- The value with a zero written as +0 (R158). -/
def fPlusZero (x : F32) : F32 := if fMag x = 0 then 0 else x

/-- The exact value of a finite fp32. -/
def fExact (x : F32) : Exact :=
  let e : Nat := fMag x / 2 ^ 23
  let f : Nat := fMag x % 2 ^ 23
  let m : Nat := if e = 0 then f else 2 ^ 23 + f
  { num := if fSign x then -(m : Int) else m, exp := if e = 0 then -149 else (e : Int) - 150 }

/-- a · 2^s as a natural number pair (numerator, denominator) for any integer s. -/
def scaleNat (a d : Nat) (s : Int) : Nat × Nat := if s ≥ 0 then (a * 2 ^ s.toNat, d) else (a, d * 2 ^ (-s).toNat)

/-- Whether the quotient q with remainder r of d is to be raised by one. -/
def roundsUp (dir : Dir) (neg : Bool) (q r d : Nat) : Bool :=
  match dir with
  | .ne => 2 * r > d || (2 * r == d && q % 2 == 1)
  | .up => !neg && r > 0
  | .down => neg && r > 0

/-- The magnitude bits of a positive n/d · 2^e rounded with the exponent k of its last place. -/
def roundAt (dir : Dir) (neg : Bool) (n d : Nat) (e k : Int) : Nat :=
  let (a, b) := scaleNat n d (e - k)
  let q := a / b
  (k + 149).toNat * 2 ^ 23 + (if roundsUp dir neg q (a % b) b then q + 1 else q)

/-- The fp32 nearest to an exact value in the given direction (R19); past the range the largest finite value of its sign (R42 for
scoring and fusion; DESIGN CHOICE for the sums of planish and of the norms: log 43). -/
def fRound (dir : Dir) (x : Exact) : F32 :=
  let neg := decide (x.num < 0)
  let n := x.num.natAbs
  if n = 0 ∨ x.den = 0 then 0 else
  let l : Int := (Nat.log2 n : Int) - (Nat.log2 x.den : Int) + x.exp
  -- 2^(l-1) ≤ value < 2^(l+1)
  let k0 : Int := max (l - 24) (-149)
  let (a, b) := scaleNat n x.den (x.exp - k0)
  let k : Int := if a / b < 2 ^ 24 then k0 else k0 + 1
  let m := roundAt dir neg n x.den x.exp k
  let m := if m < 0x7F800000 then m else 0x7F7FFFFF
  BitVec.ofNat 32 (if neg then 2 ^ 31 + m else m)

/-- Exact sum. -/
def xAdd (a b : Exact) : Exact :=
  let e := min a.exp b.exp
  { num := a.num * 2 ^ (a.exp - e).toNat * b.den + b.num * 2 ^ (b.exp - e).toNat * a.den, den := a.den * b.den, exp := e }
def xNeg (a : Exact) : Exact := { a with num := -a.num }
def xSub (a b : Exact) : Exact := xAdd a (xNeg b)
def xMul (a b : Exact) : Exact := { num := a.num * b.num, den := a.den * b.den, exp := a.exp + b.exp }
/-- Exact quotient by a positive value. -/
def xDiv (a b : Exact) : Exact :=
  { num := if b.num < 0 then -(a.num * b.den) else a.num * b.den, den := a.den * b.num.natAbs, exp := a.exp - b.exp }
def xInt (i : Int) : Exact := { num := i }
def xPow (i e : Int) : Exact := { num := i, exp := e }
/-- ⌊x⌋ of an exact value. -/
def xFloor (x : Exact) : Int :=
  if x.exp ≥ 0 then x.num * 2 ^ x.exp.toNat / x.den else x.num / (x.den * 2 ^ (-x.exp).toNat : Nat)
def xCeil (x : Exact) : Int := -xFloor (xNeg x)
def xLe (a b : Exact) : Bool := decide ((xSub a b).num ≤ 0)
/-- Nearest integer, ties to even. -/
def xRne (x : Exact) : Int :=
  let f := xFloor x
  let r := xSub x (xInt f)
  let h := xSub (xAdd r r) (xInt 1)
  if h.num > 0 ∨ (h.num = 0 ∧ f % 2 = 1) then f + 1 else f

/-- An infinite result is the largest finite value of its sign: no fp32 stage yields an infinity (R42; log 43). -/
def fSaturate (x : F32) : F32 := if fIsInf x then (if fSign x then 0xFF7FFFFF else 0x7F7FFFFF) else x

/-- fp32 addition; NaN as IEEE 754 gives, infinities saturated. -/
def fAddD (dir : Dir) (a b : F32) : F32 :=
  if fIsNaN a || fIsNaN b then fNaN
  else if fIsInf a then (if fIsInf b && a != b then fNaN else fSaturate a)
  else if fIsInf b then fSaturate b
  else if fMag a = 0 ∧ fMag b = 0 then (if a = b then a else 0)
  else fRound dir (xAdd (fExact a) (fExact b))
def fAdd (a b : F32) : F32 := fAddD .ne a b
def fSub (a b : F32) : F32 := fAdd a (fNeg b)
/-- fp32 multiplication. -/
def fMulD (dir : Dir) (a b : F32) : F32 :=
  let s : F32 := if fSign a == fSign b then 0 else 0x80000000
  if fIsNaN a || fIsNaN b then fNaN
  else if fIsInf a || fIsInf b then (if fMag a = 0 ∨ fMag b = 0 then fNaN else fSaturate (s ||| fPosInf))
  else if fMag a = 0 ∨ fMag b = 0 then s
  else
    let r := fRound dir (xMul (fExact a) (fExact b))
    if fMag r = 0 then s else r
def fMul (a b : F32) : F32 := fMulD .ne a b
/-- fp32 quotient of finite values by a nonzero one. -/
def fDiv (a b : F32) : F32 :=
  if fIsNaN a || fIsNaN b || fMag b = 0 then fNaN else fRound .ne (xDiv (fExact a) (fExact b))

/-- ⌊√n⌋ by bits k-1 … 0 above the root r found so far. -/
def isqrtFrom (n : Nat) : Nat → Nat → Nat
  | 0, r => r
  | k + 1, r => isqrtFrom n k (if (r + 2 ^ k) * (r + 2 ^ k) ≤ n then r + 2 ^ k else r)

/-- The fp32 square root of a value at least 0, rounded once. -/
def fSqrtD (dir : Dir) (a : F32) : F32 :=
  if fIsNaN a || (fSign a && fMag a != 0) then fNaN else
  let x := fExact a
  let n := x.num.natAbs
  -- an even exponent, and 30 or more bits of root
  let e : Int := if x.exp % 2 = 0 then x.exp - 60 else x.exp - 61
  let m := n * 2 ^ (x.exp - e).toNat
  let r := isqrtFrom m 50 0
  let sticky : Nat := if r * r = m then 0 else 1
  fRound dir { num := (2 * r + sticky : Nat), exp := e / 2 - 1 }

/-- The value as a number for comparison: −0 and +0 are equal (R147). -/
def fOrd (x : F32) : Int := if fSign x then -(fMag x : Int) else fMag x
/-- a > b numerically; false on NaN. -/
def fGt (a b : F32) : Bool := !fIsNaN a && !fIsNaN b && decide (fOrd a > fOrd b)
def fEq (a b : F32) : Bool := !fIsNaN a && !fIsNaN b && decide (fOrd a = fOrd b)
def fMax (a b : F32) : F32 := if fGt a b then a else b
def fMin (a b : F32) : F32 := if fGt a b then b else a

/-- fp32 from bf16, exact. -/
def ofBf16 (b : Bf16) : F32 := BitVec.ofNat 32 (b.toNat * 2 ^ 16)
/-- bf16 from fp32, RNE, never an infinity (R19). -/
def toBf16 (x : F32) : Bf16 :=
  if fIsNaN x then 0x7FC0 else
  let m := fMag x
  let q := m / 2 ^ 16
  let r := m % 2 ^ 16
  let m' := if 2 * r > 2 ^ 16 || (2 * r == 2 ^ 16 && q % 2 == 1) then q + 1 else q
  let m' := if m' > 0x7F7F then 0x7F7F else m'
  BitVec.ofNat 16 (if fSign x then 2 ^ 15 + m' else m')

/-- The sum of a list in fp32, in list order. -/
def fSum (l : List F32) : F32 := l.foldl fAdd 0

/-- A sum whose fp32 order the manual does not state (R23, R33, R74): at each step the two terms that `pick` names are
added and their sum goes back among the terms. The Nat bounds the steps (log 3). -/
def freeSum (pick : Nat → Nat) : Nat → List F32 → F32
  | 0, l => fSum l
  | fuel + 1, l =>
    match l with
    | [] => 0
    | [a] => a
    | _ =>
      let i := pick (2 * fuel) % l.length
      let a := lget l i 0
      let rest := l.eraseIdx i
      let j := pick (2 * fuel + 1) % rest.length
      freeSum pick fuel (fAdd a (lget rest j 0) :: rest.eraseIdx j)

/-- The pairs added in a sum whose order is free, from free choice number k on. -/
def freePick (k : Nat) (i : Nat) : Nat := Config.freeNat (k + i)

end Sys2Proof.Machine
end

