-- ==== Sys2Proof/Machine/Hash.lean ====
section
/-! DEFINITION. SHAKE256 (FIPS 202), CRC-32C, CRC-64 and the key hash: the functions R24, R54, R95, R181, R327, R382
name. The permutation is FIPS 202's (PRESUMED, log 10). -/

namespace Sys2Proof.Machine

/-- Keccak-f[1600] round constants. -/
def keccakRC : List W64 :=
  [0x0000000000000001, 0x0000000000008082, 0x800000000000808A, 0x8000000080008000, 0x000000000000808B, 0x0000000080000001] ++
  [0x8000000080008081, 0x8000000000008009, 0x000000000000008A, 0x0000000000000088, 0x0000000080008009, 0x000000008000000A] ++
  [0x000000008000808B, 0x800000000000008B, 0x8000000000008089, 0x8000000000008003, 0x8000000000008002, 0x8000000000000080] ++
  [0x000000000000800A, 0x800000008000000A, 0x8000000080008081, 0x8000000000008080, 0x0000000080000001, 0x8000000080008008]

/-- Rotation offsets, lane x + 5y. -/
def keccakRot : List Nat :=
  [0, 1, 62, 28, 27] ++ [36, 44, 6, 55, 20] ++ [3, 10, 43, 25, 39] ++ [41, 45, 15, 21, 8] ++ [18, 2, 61, 56, 14]

/-- One round: theta, rho and pi, chi, iota. -/
def keccakRound (s : List W64) (rc : W64) : List W64 :=
  let g := fun i => lget s i 0
  let c := (upto 5).map fun x => g x ^^^ g (x + 5) ^^^ g (x + 10) ^^^ g (x + 15) ^^^ g (x + 20)
  let d := (upto 5).map fun x => lget c ((x + 4) % 5) 0 ^^^ (lget c ((x + 1) % 5) 0).rotateLeft 1
  let t := (upto 25).map fun i => g i ^^^ lget d (i % 5) 0
  -- pi: the lane at (x, y) goes to (y, 2x + 3y); read backwards
  let b := (upto 25).map fun i =>
    let x := i % 5
    let y := i / 5
    let src := (x + 3 * y) % 5 + 5 * x
    (lget t src 0).rotateLeft (lget keccakRot src 0)
  (upto 25).map fun i =>
    let y := i / 5 * 5
    let x := i % 5
    let v := lget b i 0 ^^^ (~~~ (lget b (y + (x + 1) % 5) 0) &&& lget b (y + (x + 2) % 5) 0)
    if i = 0 then v ^^^ rc else v

def keccakF (s : List W64) : List W64 := keccakRC.foldl keccakRound s

/-- A 136-byte block xored into the state. -/
def absorb (s : List W64) (blk : List Byte) : List W64 :=
  (upto 25).map fun i => lget s i 0 ^^^ (if i < 17 then BitVec.ofNat 64 (field blk (8 * i) 8) else 0)

/-- Squeezed bytes, at least 136 a turn. -/
def squeeze : Nat → List W64 → List Byte
  | 0, _ => []
  | k + 1, s => ((s.take 17).flatMap fun w => leBytes 8 w.toNat) ++ squeeze k (keccakF s)

/-- shake256(m, L): the first L bytes of SHAKE256 of m (R24). -/
def shake256 (m : List Byte) (len : Nat) : List Byte :=
  let pad := 136 - (m.length + 1) % 136
  let padded := m ++ [0x1F] ++ List.replicate (pad % 136) 0
  let last := padded.length - 1
  let padded := lset padded last (lget padded last 0 ^^^ 0x80) 0
  let s := (chunksOf 136 (padded.length / 136) padded).foldl (fun s b => keccakF (absorb s b)) (List.replicate 25 0)
  (squeeze (ceilDiv len 136) s).take len

/-- SHAKE256 truncated to 32 bytes, as a number with byte 0 least significant. -/
def digest (m : List Byte) : BitVec 256 := BitVec.ofNat 256 (leNat (shake256 m 32))

/-- One bit step of a reflected CRC. -/
def crcStep (poly c : Nat) : Nat := if bit c 0 then (c / 2) ^^^ poly else c / 2

/-- CRC-32C of a byte string (R181; reflected polynomial 0x82F63B78, PRESUMED, log 10). -/
def crc32c (bs : List Byte) : W32 :=
  let f := fun c (b : Byte) => (upto 8).foldl (fun c _ => crcStep 0x82F63B78 c) (c ^^^ b.toNat)
  ~~~ BitVec.ofNat 32 (bs.foldl f 0xFFFFFFFF)

/-- CRC-64 of a byte string with the polynomial of R327, initial value all ones, result inverted (bit order most
significant first: PRESUMED, log 10). -/
def crc64 (bs : List Byte) : W64 :=
  let f := fun (c : W64) (b : Byte) =>
    (upto 8).foldl (fun (c : W64) _ => if c.msb then (c <<< 1) ^^^ 0x42F0E1EBA9EA3693 else c <<< 1) (c ^^^ (b.setWidth 64 <<< 56))
  ~~~ (bs.foldl f (BitVec.allOnes 64))

/-- h of R95. -/
def keyHash (k : Key) : W64 := k * 0x9E3779B97F4A7C15

/-- The directory partition's position among the job's P partitions (R95). -/
def keyPosition (k : Key) (p : Nat) : Nat := bits (keyHash k).toNat 63 32 * p / 2 ^ 32

/-- The owning module's position among the job's M modules (R338). -/
def keyModule (k : Key) (m : Nat) : Nat := bits (keyHash k).toNat 31 0 * m / 2 ^ 32

/-- The bucket of a key at level b with split pointer p (R95). -/
def keyBucket (k : Key) (b p : Nat) : Nat :=
  let i := (keyHash k).toNat % 2 ^ b
  if i < p then (keyHash k).toNat % 2 ^ (b + 1) else i

/-- The sign vector of a seed: k = 1 gives d1, k = 2 gives d2; true stands for −1 (R24). -/
def seedSigns (seed : W64) (k n : Nat) : List Bool :=
  let s := shake256 (leBytes 8 seed.toNat ++ [BitVec.ofNat 8 k]) (n / 8)
  (upto n).map fun i => bit (lget s (i / 8) 0).toNat (i % 8)

end Sys2Proof.Machine
end

