-- ==== Sys2Proof/Machine/Numeric.lean ====
section
/-! DEFINITION. The arithmetic of stored vectors and queries: planish (R21–R24), encoding (R25–R33, R44), query codes
(R34–R36), totals, scores and the early-exit bound (R38–R47). -/

namespace Sys2Proof.Machine

/-! ### The planish transform (R21–R24) -/

/-- n = 128 · ⌈D/128⌉. -/
def paddedDim (d : Nat) : Nat := 128 * ceilDiv d 128

/-- One butterfly stage of width h over a block of 128. -/
def fwhtStage (h : Nat) (v : List F32) : List F32 :=
  (upto 128).map fun i =>
    if i / h % 2 = 0 then fAdd (lget v i 0) (lget v (i + h) 0) else fSub (lget v (i - h) 0) (lget v i 0)

/-- fwht_blocks of R22. -/
def fwhtBlocks (v : List F32) : List F32 :=
  (chunksOf 128 (v.length / 128) v).flatMap fun b => [1, 2, 4, 8, 16, 32, 64].foldl (fun x h => fwhtStage h x) b

/-- Sign changes; true stands for −1. -/
def applySigns (d : List Bool) (v : List F32) : List F32 := List.zipWith (fun s x => if s then fNeg x else x) d v

/-- The stride permutation P: output j comes from position j / nb of block j mod nb. -/
def stride (nb : Nat) (v : List F32) : List F32 := (upto v.length).map fun j => lget v (j / nb + 128 * (j % nb)) 0

/-- A row with zeros appended to n coordinates. -/
def padRow (d : Nat) (x : List F32) : List F32 := x.take d ++ List.replicate (paddedDim d - (x.take d).length) 0

/-- 2^−7. -/
def twoM7 : F32 := 0x3C000000

/-- planish of a stored vector, in the order of R22. -/
def planish (seed : W64) (d : Nat) (x : List F32) : List F32 :=
  let n := paddedDim d
  let y := fwhtBlocks (applySigns (seedSigns seed 1 n) (padRow d x))
  let z := fwhtBlocks (stride (n / 128) (applySigns (seedSigns seed 2 n) y))
  z.map (fMul twoM7)

/-- Row i of the 128 × 128 Sylvester Hadamard matrix applied to a block: the signed terms of one sum. -/
def hadamardTerms (i : Nat) (b : List F32) : List F32 :=
  (upto 128).map fun j => if (bitsOf 7 (i &&& j)).length % 2 = 1 then fNeg (lget b j 0) else lget b j 0

/-- H_B with every sum of 128 terms in a free order (R23); free choices from k on, 256 a coordinate. -/
def hadamardFree (k : Nat) (v : List F32) : List F32 :=
  ((chunksOf 128 (v.length / 128) v).zipIdx).flatMap fun (b, bi) =>
    (upto 128).map fun i => freeSum (freePick (k + 256 * (128 * bi + i))) 128 (hadamardTerms i b)

/-- The transform of one bf16 part of a query row (R23). -/
def planishPart (k : Nat) (seed : W64) (d : Nat) (x : List F32) : List F32 :=
  let n := paddedDim d
  let y := hadamardFree k (applySigns (seedSigns seed 1 n) (padRow d x))
  let z := hadamardFree (k + 256 * n) (stride (n / 128) (applySigns (seedSigns seed 2 n) y))
  z.map (fMul twoM7)

/-- The bf16 rounding of an fp32 value, as fp32. -/
def bf16Part (x : F32) : F32 := ofBf16 (toBf16 x)

/-- planish of a query row; wide rows (fp32) are split into two bf16 parts (R23). -/
def planishQuery (k : Nat) (seed : W64) (d : Nat) (wide : Bool) (x : List F32) : List F32 :=
  if wide then
    let hi := x.map bf16Part
    let lo := x.map fun v => bf16Part (fSub v (bf16Part v))
    List.zipWith fAdd (planishPart k seed d hi) (planishPart (k + 512 * paddedDim d) seed d lo)
  else planishPart k seed d x

/-- Free choices that a query row's transform and norm take. -/
def planishChoices (d : Nat) : Nat := 1024 * paddedDim d + 2 * d

/-! ### Norms and normalisation (R33, R34) -/

/-- ‖x‖² in fp32, its sum in the given order. -/
def normSq (pick : Nat → Nat) (x : List F32) : F32 := freeSum pick x.length (x.map fun v => fMul v v)
/-- ‖x‖² in the fixed order of R33. -/
def normFixed (x : List F32) : F32 := normSq Config.normOrder x
/-- x̂ of R33. -/
def normalise (x : List F32) : List F32 :=
  let r := fSqrtD .ne (normFixed x)
  x.map fun v => fDiv v r

/-! ### Encoding (R25–R33) -/

def zeroX : Exact := { num := 0 }
def half : Exact := { num := 1, exp := -1 }

/-- lo_g and hi_g of a group. -/
def groupRange (y : List F32) : F32 × F32 := (y.foldl fMin 0, y.foldl fMax 0)

/-- r_g of R25. -/
def groupR (y : List F32) : F32 :=
  let (lo, hi) := groupRange y
  fRound .up (xDiv (xSub (fExact hi) (fExact lo)) (xInt 15))

/-- The smallest integer e, at least −128, for which x ≤ k · 2^e; the search starts at −128 and takes at most `fuel` steps. -/
def smallestExp (x : Exact) (k : Int) : Nat → Int → Int
  | 0, e => e
  | fuel + 1, e => if xLe x (xPow k e) then e else smallestExp x k fuel (e + 1)

/-- e_v of R25. -/
def vectorExp (rs : List F32) : Int := smallestExp (fExact (rs.foldl fMax 0)) 255 255 (-128)

/-- m_g of R25. -/
def multiplier (ev : Int) (r : F32) : Nat :=
  let x := fExact r
  (max 1 (xCeil { x with exp := x.exp - ev })).toNat

/-- s_g = m_g · 2^e_v. -/
def groupScale (m : Nat) (ev : Int) : Exact := xPow m ev

/-- z_g of R26 (the floor of the exact sum: log 14). -/
def zeroPoint (lo : F32) (s : Exact) : Nat :=
  (clampI (xFloor (xAdd (fExact (fRound .ne (xDiv (xNeg (fExact lo)) s))) half)) 0 15).toNat

/-- The coarse code of R26. -/
def coarseCode (y : F32) (s : Exact) (z : Nat) : Nat :=
  let q := fRound .ne (xDiv (fExact y) s)
  let zh := fRound .ne (xAdd (xInt z) half)
  (clampI (xFloor (fExact (fAdd q zh))) 0 15).toNat

/-- Whether the code is clipped (R27). -/
def isClipped (y : F32) (s : Exact) (z : Nat) : Bool :=
  let v := xAdd (xDiv (fExact y) s) (xInt z)
  (xAdd v half).num < 0 || (xSub v (xAdd (xInt 15) half)).num > 0

/-- The refine code of R32. -/
def refineCode (y : F32) (s : Exact) (z c : Nat) : Int :=
  let rho := xSub (fExact y) (xMul s (xInt ((c : Int) - z)))
  clampI (xFloor (xAdd (fExact (fRound .ne (xDiv (xMul (xInt 16) rho) s))) half)) (-8) 7

/-- Scales from the coordinates of each group (R25). -/
def scalesOf (gs : List (List F32)) : Enc :=
  let rs := gs.map groupR
  let ev := vectorExp rs
  let ms := rs.map (multiplier ev)
  { ev := ev, mult := ms, zero := List.zipWith (fun gy m => zeroPoint (groupRange gy).1 (groupScale m ev)) gs ms }

/-- Scales from a vector's own groups (R25). -/
def vectorScales (g : Nat) (y : List F32) : Enc := scalesOf (chunksOf g (y.length / g) y)

/-- Codes of a transformed vector under given scales (R26, R30, R32). -/
def encodeUnder (sc : Enc) (g : Nat) (refine : Bool) (y : List F32) (norm : F32) : Enc :=
  let coded := y.zipIdx.map fun (v, i) =>
    let s := groupScale (lget sc.mult (i / g) 1) sc.ev
    let z := lget sc.zero (i / g) 0
    let c := coarseCode v s z
    (c, refineCode v s z c, isClipped v s z)
  { sc with
    codes := coded.map fun x => BitVec.ofNat 4 x.1
    refine := if refine then coded.map fun x => BitVec.ofInt 4 x.2.1 else []
    norm := norm
    clipped := (coded.filter fun x => x.2.2).length }

/-- Bytes of the scale record (R28). -/
def scaleBytes (e : Enc) : List Byte :=
  [BitVec.ofInt 8 e.ev] ++ e.mult.map (BitVec.ofNat 8) ++
    (chunksOf 2 (ceilDiv e.zero.length 2) e.zero).map fun p => BitVec.ofNat 8 (lget p 0 0 + 16 * lget p 1 0)

/-- A scale record of ng groups read from bytes (R28). -/
def readScales (bs : List Byte) (ng : Nat) : Enc :=
  { ev := toSigned 8 (field bs 0 1)
    mult := (upto ng).map fun j => field bs (1 + j) 1
    zero := (upto ng).map fun j => field bs (1 + ng + j / 2) 1 / 16 ^ (j % 2) % 16 }

/-! ### Sparse vectors (R44) -/

/-- σ_v of R44. -/
def sparseScale (ws : List Bf16) : F32 :=
  fRound .up (xDiv (fExact ((ws.map ofBf16).foldl fMax 0)) (xInt 255))

/-- Terms and stored weights u (R44); those with u = 0 are left out, so a vector of zero weights stores none. The sum with 0.5 is
exact (log 14). -/
def sparseCodes (terms : List (Nat × Bf16)) : F32 × List (Nat × Nat) :=
  let sg := sparseScale (terms.map (·.2))
  (sg, if fMag sg = 0 then [] else (terms.map fun (t, w) =>
    (t, (clampI (xFloor (xAdd (fExact (fDiv (ofBf16 w) sg)) half)) 0 255).toNat)).filter (·.2 > 0))

/-! ### Query codes (R34–R36) -/

/-- e_q of R34. -/
def queryExp (y : List F32) : Int :=
  let m := y.foldl (fun a v => fMax a (fAbs v)) 0
  if fMag m = 0 then 0 else smallestExp (fExact m) 127 255 (-128)

def queryCode (eq : Int) (v : F32) : Int :=
  let x := fExact v
  clampI (xRne { x with exp := x.exp - eq }) (-127) 127
/-- The low limb's code (R36). -/
def lowCode (eq : Int) (v : F32) : Int :=
  let x := fExact v
  let y : Exact := xSub { x with exp := x.exp - eq } (xInt (queryCode eq v))
  clampI (xRne { y with exp := y.exp + 8 }) (-127) 127

/-- A row as received encoded for a collection (R34–R36); free choices from k on. -/
def encodeRow (k : Nat) (seed : W64) (d : Nat) (cos wide : Bool) (raw : List F32) : QRow :=
  let x := if cos then normalise raw else raw
  let y := planishQuery k seed d (wide || cos) x
  let eq := queryExp y
  { raw := raw, codes := y.map (queryCode eq), low := y.map (lowCode eq), eq := eq
    qnorm := normSq (freePick (k + 1024 * paddedDim d)) raw }

/-! ### Totals and scores (R35–R43, R46, R47) -/

def sumI (l : List Int) : Int := l.foldl (· + ·) 0
def sumS (q : List Int) : Int := sumI q
def sumA (q : List Int) : Int := sumI (q.map fun x => x.natAbs)
/-- Pos_g. -/
def sumPos (q : List Int) : Int := (sumA q + sumS q) / 2
def dotI (a b : List Int) : Int := sumI (List.zipWith (· * ·) a b)

/-- A value clamped to a signed width, and whether it was clamped (R38). -/
def satI (w : Nat) (x : Int) : Int × Bool :=
  let m : Int := 2 ^ (w - 1) - 1
  if x > m then (m, true) else if x < -m - 1 then (-m - 1, true) else (x, false)

/-- A total clamped to ±(2^39 − 1), the range of R18, and whether it was clamped (R38). -/
def satTotal (x : Int) : Int × Bool :=
  let m : Int := 2 ^ 39 - 1
  if x > m then (m, true) else if x < -m then (-m, true) else (x, false)

/-- rne(x, σ) of R40. -/
def rneShift (x : Int) (sg : Nat) : Int := xRne { num := x, exp := -(sg : Int) }

/-- The planes of a code (R18). -/
def highPlane (c : BitVec 4) : Int := c.toNat / 4
def lowPlane (c : BitVec 4) : Int := c.toNat % 4
def refineVal (t : BitVec 4) : Int := t.toInt

/-- The coarse corrected sum of a group (R39). -/
def coarseSum (c : List (BitVec 4)) (z : Nat) (withLow : Bool) (q : List Int) : Int :=
  4 * dotI (c.map highPlane) q + (if withLow then dotI (c.map lowPlane) q else 0) - z * sumS q

/-- T of a vector and a row: coarse, low plane and refine tier as asked, both limbs if two (R39, R40). -/
def totalT (g : Nat) (e : Enc) (r : QRow) (two withLow withRefine : Bool) : Int :=
  let ng := e.mult.length
  sumI ((upto ng).map fun i =>
    let m : Int := ((lget e.mult i 1 : Nat) : Int)
    let z := lget e.zero i 0
    let c := (e.codes.drop (g * i)).take g
    let t := ((e.refine.drop (g * i)).take g).map refineVal
    let q := (r.codes.drop (g * i)).take g
    let l := (r.low.drop (g * i)).take g
    rneShift (coarseSum c z withLow q * m) 0 + (if withRefine then rneShift (dotI t q * m) 4 else 0) +
      (if two then rneShift (coarseSum c z withLow l * m) 8 + (if withRefine then rneShift (dotI t l * m) 12 else 0) else 0))

/-- β of R46. -/
def betaBound (g : Nat) (e : Enc) (r : QRow) (two : Bool) : Int :=
  sumI ((upto e.mult.length).map fun i =>
    let m : Int := ((lget e.mult i 1 : Nat) : Int)
    let q := (r.codes.drop (g * i)).take g
    let l := (r.low.drop (g * i)).take g
    3 * m * sumPos q + (if two then 3 * m * ((sumPos l + 255) / 256) + 1 else 0))

/-- D of R42. -/
def denseScore (dir : Dir) (t : Int) (ev eq : Int) : F32 := fRound dir (xPow t (ev + eq))

/-- fp32 2 · x, exact but for overflow. -/
def twice (dir : Dir) (x : F32) : F32 := fMulD dir 0x40000000 x

/-- The selection score of R43 from D: metric 0 IP, 1 L2, 2 COS. -/
def metricScore (metric : Nat) (d qn xn : F32) : F32 :=
  if metric = 1 then fSub (twice .ne d) (fAdd qn xn) else d

/-- U of R47. -/
def upperScore (metric : Nat) (dUp qn xn : F32) : F32 :=
  if metric = 1 then fAddD .up (twice .up dUp) (fNeg (fAddD .down qn xn)) else dUp

/-- The score returned for a selection score (R43). -/
def returnedScore (metric : Nat) (hyb : Bool) (sc : F32) : F32 := if metric = 1 && !hyb then fNeg sc else sc

/-- The HYB score of R43. -/
def hybScore (alpha beta sd ssp : F32) : F32 := fAdd (fMul alpha sd) (fMul beta ssp)

end Sys2Proof.Machine
end

