-- ==== Sys2Proof/Machine/Storage.lean ====
section
/-! DEFINITION. Collections in memory: options, schema and zone summaries (R81, R82, R85), frames and regions (R78, R80, R83),
slots and chains (R88, R89, R101, R110), tombstones (R92–R94), the key directory (R95–R98), part bytes (R83, R84, R102). -/

namespace Sys2Proof.Machine

/-! ### Options and sizes (R81, R83) -/

def twoTier (x : Coll) : Bool := bit x.opts.toNat 0
def collScaled (x : Coll) : Bool := bit x.opts.toNat 1
def hasSparse (x : Coll) : Bool := bit x.opts.toNat 2
def autoTrain (x : Coll) : Bool := bit x.opts.toNat 3
def hasScales (x : Coll) : Bool := bit x.opts.toNat 4
def spills (x : Coll) : Bool := bit x.opts.toNat 5
/-- G. -/
def groupSize (x : Coll) : Nat := 32 * 2 ^ x.gsize
/-- n. -/
def coordN (x : Coll) : Nat := paddedDim x.d
def groupCount (x : Coll) : Nat := coordN x / groupSize x
/-- The scale record size r (R28). -/
def scaleSize (x : Coll) : Nat := 1 + groupCount x + ceilDiv (coordN x) (2 * groupSize x)
/-- F of R83. -/
def frameSize (x : Coll) : Nat :=
  2048 + (if collScaled x then 0 else 64 * scaleSize x) + 32 * coordN x * (if twoTier x then 2 else 1)

/-- Where a part of a brick begins in its frame (R83); a centroid frame is R102's. -/
def partOffset (y : Coll) (centroid : Bool) (code : Nat) : Nat :=
  let n := coordN y
  let s := if collScaled y then 0 else 64 * scaleSize y
  if centroid then lget [0, 256, 1280, 1344, 0, 1600] code 0
  else lget [0, 256, 1280, 1280 + s, 1536 + s, 2048 + s, 2048 + s + 16 * n, 2048 + s + 32 * n] code 0

/-- Where slot i lies in a frame: offset and length of its bytes in each part, a byte of each dimension in the planes (R83). -/
def slotFields (y : Coll) (i : Nat) : List (Nat × Nat) :=
  let at_ := partOffset y false
  [(at_ 1 + 16 * i, 16), (at_ 3 + 4 * i, 4), (at_ 4 + 8 * i, 8)] ++
  (if collScaled y then [] else [(at_ 2 + scaleSize y * i, scaleSize y)]) ++
  ((upto (coordN y)).flatMap fun d => [(at_ 5 + 16 * d + i / 4, 1), (at_ 6 + 16 * d + i / 4, 1)]) ++
  if twoTier y then (upto (coordN y)).map fun d => (at_ 7 + 32 * d + i / 2, 1) else []

/-- Lines that a slot's bytes come to, a brick being written slot by slot: a 64th of its frame (log 28). -/
def slotLines (y : Coll) : Nat := ceilDiv (frameSize y) 4096

/-! ### Schema and zones (R82, R85) -/

/-- A field descriptor. KIND 0 UINT, 1 SINT, 2 BITS. -/
structure FieldD where
  lsb : Nat
  width : Nat
  kind : Nat
  sort : Bool
  deriving DecidableEq, Repr

/-- The descriptor of a schema word, if VALID. -/
def fieldOf (w : W32) : Option FieldD :=
  let v := w.toNat
  if bit v 7 then some { lsb := bits v 6 0, width := bits v 15 8, kind := bits v 23 16, sort := bit v 24 } else none

def schemaFields (x : Coll) : List FieldD := x.schema.filterMap fieldOf

def fieldOverlaps (a b : FieldD) : Bool := a.lsb < b.lsb + b.width && b.lsb < a.lsb + a.width

/-- Whether some pair of the list overlaps. -/
def anyOverlap : List FieldD → Bool
  | [] => false
  | a :: t => t.any (fieldOverlaps a) || anyOverlap t

/-- The refusals of R82. -/
def schemaBad (ws : List W32) : Bool :=
  let fs := ws.filterMap fieldOf
  ws.any (fun w => !bit w.toNat 7 && w != 0) ||
  (ws.any fun w => bit w.toNat 7 && bits w.toNat 31 25 != 0) ||
  (fs.any fun f => f.width == 0 || f.width > 64 || f.kind > 2 || f.lsb + f.width > 128 || (f.sort && f.kind == 2)) ||
  (fs.filter (·.sort)).length > 1 || anyOverlap fs

/-- The field's value in an attribute word, as an integer. -/
def attrField (f : FieldD) (a : W128) : Int :=
  let v := a.toNat / 2 ^ f.lsb % 2 ^ f.width
  if f.kind = 1 then toSigned f.width v else v

/-- An attribute word with the field's bits replaced. -/
def putField (f : FieldD) (a : W128) (v : Int) : W128 :=
  let m := BitVec.ofNat 128 ((2 ^ f.width - 1) * 2 ^ f.lsb)
  (a &&& ~~~ m) ||| BitVec.ofNat 128 (ofSigned f.width v * 2 ^ f.lsb)

def anyOcc (b : Brick) : Bool := b.slots.any (·.occ)

/-- The zone summary widened by an attribute word (R85); the first occupied slot sets it. -/
def widenZone (x : Coll) (a : W128) (b : Brick) : Brick :=
  let fs := (schemaFields x).filter (·.kind < 2)
  if anyOcc b then
    { b with
      zmin := fs.foldl (fun z f => if attrField f a < attrField f b.zmin then putField f z (attrField f a) else z) b.zmin
      zmax := fs.foldl (fun z f => if attrField f a > attrField f b.zmax then putField f z (attrField f a) else z) b.zmax
      zor := b.zor ||| a
      zand := b.zand &&& a }
  else
    let z := fs.foldl (fun z f => putField f z (attrField f a)) 0
    { b with zmin := z, zmax := z, zor := a, zand := a }

/-! ### Frames and regions (R78, R80) -/

/-- The partition of a device address. -/
def ptnOfAddr (a : Nat) : Nat := a / 2 ^ 36 % 16

/-- The device address of region r of partition p: regions 0–3839 are the user's, 3840–3967 the reserve. -/
def regionBase (p r : Nat) : Nat :=
  p * 2 ^ 36 + (if r < 3840 then 0x100000000 + r * 2 ^ 24 else 0x80000000 + (r - 3840) * 2 ^ 24)

/-- The region of a device offset of 2 GB or more, reserve regions numbered from 3840. -/
def regionOf (a : Nat) : Nat :=
  let o := a % 2 ^ 36
  if o < 0x100000000 then 3840 + (o - 0x80000000) / 2 ^ 24 else (o - 0x100000000) / 2 ^ 24

/-- Regions of a partition that a collection holds, lowest first. -/
def collRegions (s : State) (c p : Nat) : List Nat :=
  ((ptn s p).regions.filter fun r => r.2.inUse && r.2.coll == some c).map (·.1)

/-- A region that a job may be given: not listed, or freed by the same job (R80, R386). -/
def regionFree (s : State) (p job r : Nat) : Bool :=
  match tget (ptn s p).regions r with
  | none => true
  | some x => !x.inUse && !x.zeroising && x.job == job && x.after.all fun c => (cmd? s c).isNone

/-- The lowest free region among the candidates. -/
def findRegion (s : State) (p job : Nat) (cands : List Nat) : Option Nat := cands.find? (regionFree s p job)

/-- The candidates of a request: the 3,555 regions that R115 leaves for frames, then the reserve; tamping takes the reserve only (R107). -/
def regionCands (reserveOnly : Bool) : List Nat :=
  (if reserveOnly then [] else upto 3555) ++ (upto 128).map (· + 3840)

/-- Of those, the ones that hold brick frames. -/
def frameRegions (s : State) (c p : Nat) : List Nat :=
  ((ptn s p).regions.filter fun r => r.2.inUse && r.2.coll == some c && r.2.use == .frames).map (·.1)

/-! ### Regions of directory structures (R80; log 21) -/

/-- The candidates of a directory structure: the share that R115 sets aside, below the staging apertures (R266), then any other. -/
def dirCands : List Nat := (upto 277).map (· + 3555) ++ upto 3555

/-- The region of a partition that holds part of a collection's structure. -/
def dirRegion (s : State) (c p : Nat) (u : RegUse) : Option Nat :=
  ((ptn s p).regions.find? fun r => r.2.inUse && r.2.coll == some c && r.2.use == u).map (·.1)

/-- A region given to a collection for a use. -/
def giveRegion (c p r : Nat) (u : RegUse) (s : State) : State :=
  updPtn p (fun x => { x with regions := tset x.regions r { job := (coll s c).job, coll := some c, use := u } }) s

/-- A region for part of a structure, unless it has one; none where no region is free. -/
def takeDir (c p : Nat) (u : RegUse) (s : State) : Option State :=
  if (dirRegion s c p u).isSome then some s
  else (findRegion s p (coll s c).job dirCands).map fun r => giveRegion c p r u s

/-- n adjoining regions for a structure that lies at one address, part i of use `mk i`; none where there are not as many. -/
def takeRun (c p n : Nat) (mk : Nat → RegUse) (s : State) : Option State :=
  let job := (coll s c).job
  (dirCands.find? fun r => decide (r + n ≤ 3832) && (upto n).all fun i => regionFree s p job (r + i)).map fun r =>
    (upto n).foldl (fun s i => giveRegion c p (r + i) (mk i) s) s

/-- The first free frame of collection c in partition p within the regions it holds. -/
def findFrame (s : State) (c p : Nat) : Option Nat :=
  let x := coll s c
  let f := frameSize x
  let k := 2 ^ 24 / f
  (frameRegions s c p).findSome? fun r =>
    (upto k).findSome? fun i =>
      let a := regionBase p r + f * i
      if (brick? x a).isNone then some a else none

/-- Frames of collection c in partition p that hold a brick. -/
def framesUsed (s : State) (c p : Nat) : Nat := ((coll s c).bricks.filter fun b => ptnOfAddr b.1 == p).length
/-- The frames that N_max allows a collection in a partition (R115). -/
def frameLimit (x : Coll) : Nat := 3555 * (2 ^ 24 / frameSize x)

/-- A frame of collection c in partition p, with a region taken where the ones it holds are full (R80); none where there is none. An append takes
a lent region too, while the collection holds fewer frames than N_max allows the partition (R80, R115). -/
def takeFrame (reserveOnly : Bool) (c p : Nat) (s : State) : Option (Nat × State) :=
  if !reserveOnly && decide (framesUsed s c p ≥ frameLimit (coll s c)) then none else
  match findFrame s c p with
  | some a => some (a, s)
  | none =>
    let job := (coll s c).job
    match findRegion s p job (regionCands reserveOnly) with
    | none => none
    | some r =>
      let s := updPtn p (fun x => { x with regions := tset x.regions r { job := job, coll := some c } }) s
      some (regionBase p r, s)

/-- Whether a frame can be taken (R80). -/
def frameAvailable (s : State) (c p : Nat) : Bool := (takeFrame false c p s).isSome

/-- Regions whose coll has no brick left in them are freed; the job keeps them until zeroised (R80). -/
def freeRegions (f : Region → Bool) (p : Nat) (s : State) : State :=
  let live := cmdsOf (fun x => liveCmd x && x.admitted) s
  updPtn p (fun x => { x with regions := tmap (fun _ r => if f r then { r with inUse := false, coll := none, after := live } else r) x.regions }) s

/-- A lent region of the collection goes back when a region of its own is wholly free (R107). -/
def returnLent (c p : Nat) (s : State) : State :=
  let x := coll s c
  let empty := fun r => x.bricks.all fun b => !(ptnOfAddr b.1 == p && regionOf b.1 == r)
  let mine := (frameRegions s c p).filter empty
  match mine.find? (· ≥ 3840), mine.find? (· < 3840) with
  | some l, some _ => updPtn p (fun x => { x with regions := tset x.regions l { job := (coll s c).job, inUse := false } }) s
  | _, _ => s

/-- The posting blocks of a term in a partition, in chain order (R140, R141). -/
def termBlocks (y : Coll) (p t : Nat) : List PBlock := (tgetD y.postings t []).filter fun b => ptnOfAddr b.addr == p
/-- The posting entries of a term in a partition, in chain order. -/
def termPostings (y : Coll) (p t : Nat) : List Posting := (termBlocks y p t).flatMap (·.entries)

/-! ### Slots (R88–R90) -/

def slotOf (b : Brick) (i : Nat) : Slot := lget b.slots i {}
def setSlot (i : Nat) (f : Slot → Slot) (b : Brick) : Brick := { b with slots := lset b.slots i (f (slotOf b i)) {} }
/-- A slot's epoch (R88). -/
def slotEpoch (b : Brick) (i : Nat) : Epoch := epochAdd b.base (slotOf b i).epd.toNat
def slotWritten (b : Brick) (i : Nat) : Bool := (slotOf b i).occ && (slotOf b i).epd != 0xFFFF
/-- Committed at or below snapshot S (R88). -/
def committedAt (b : Brick) (sn : Epoch) (i : Nat) : Bool :=
  (slotOf b i).occ && (b.settled || ((slotOf b i).epd != 0xFFFF && epochLe (slotEpoch b i) sn))
/-- Committed at all. -/
def committedSlot (b : Brick) (i : Nat) : Bool := (slotOf b i).occ && (b.settled || (slotOf b i).epd != 0xFFFF)
def emptyBrick : Brick := { slots := List.replicate 64 {} }
def occMask (b : Brick) : Nat := maskOf ((upto 64).filter fun i => (slotOf b i).occ)
/-- The lowest slot whose OCC bit is clear (R89). -/
def freeSlot (b : Brick) : Option Nat := (upto 64).find? fun i => !(slotOf b i).occ

/-- Whether an append may go to the brick (R88, R101). -/
def appendable (x : Coll) (b : Brick) : Bool :=
  !b.closed && !b.settled && epochDist b.base (openEpoch x) < 0xF000 && (freeSlot b).isSome

/-- A slot written with EPD 0xFFFF (R89). -/
def putSlot (x : Coll) (i : Nat) (r : Rec) (gen : Nat) (b : Brick) : Brick :=
  setSlot i (fun _ => { occ := true, epd := 0xFFFF, gen := BitVec.ofNat 4 gen, key := r.key, attr := r.attr, enc := r.enc
                        input := if r.y.isEmpty then r.input else r.y })
    (widenZone x r.attr b)

/-- A slot with OCC cleared (R89, R186). -/
def clearSlot (c : Nat) (r : SlotRef) (s : State) : State := updBrick c r.brick (setSlot r.slot fun _ => {}) s

/-- The chain an append goes to: the loose chain of a partition (none), or a leaf's sediment chain. -/
def chainOf (x : Coll) (p : Nat) : Option Nat → List Nat
  | none => (collPtn x p).loose
  | some l => (leaf x l).chain
def setChain (c p : Nat) (l : Option Nat) (ch : List Nat) (s : State) : State :=
  match l with
  | none => updCollPtn c p (fun y => { y with loose := ch }) s
  | some l => updLeaf c l (fun y => { y with chain := ch }) s

/-- A fresh brick linked behind the chain's tail, which is CLOSED when too old (R88, R101); none where no frame is left. -/
def openBrick (c p : Nat) (l : Option Nat) (s : State) : Option (Nat × State) :=
  let x := coll s c
  let ch := chainOf x p l
  match takeFrame false c p s with
  | none => none
  | some (a, s) =>
    let b : Brick := { emptyBrick with
      kind := if l.isSome then 1 else 2, list := match l with | some l => l | none => 0xFFFFFFFF, base := openEpoch x }
    let s := match ch.getLast? with
      | some t => updBrick c t (fun k => { k with
          nextBrick := a, closed := k.closed || decide (epochDist k.base (openEpoch x) ≥ 0xF000) }) s
      | none => s
    let s := updColl c (fun y => { y with bricks := tset y.bricks a b }) s
    some (a, setChain c p l (ch ++ [a]) s)

/-- One record appended to a chain (R89, R101, R110); none where no frame is left (R80). -/
def appendRec (c p : Nat) (l : Option Nat) (r : Rec) (gen : Nat) (s : State) : Option (SlotRef × State) :=
  let x := coll s c
  let place := match (chainOf x p l).getLast? with
    | some t => match brick? x t with
      | some b => if appendable x b then some (t, s) else openBrick c p l s
      | none => openBrick c p l s
    | none => openBrick c p l s
  match place with
  | none => none
  | some (a, s) =>
    match brick? (coll s c) a with
    | none => none
    | some b => match freeSlot b with
      | none => none
      | some i => some ({ brick := a, slot := i }, updBrick c a (putSlot x i r gen) s)

/-! ### Tombstones (R92–R94) -/

def tombRec (s : State) (b : Nat) : TombRec := tgetD (ptn s (ptnOfAddr b)).tombs b {}
def logOf (s : State) (b : Nat) : List (Nat × LogEnt) := (ptn s (ptnOfAddr b)).log.filter fun e => e.2.brick == b
/-- The tombstone word of a brick at a snapshot (R93). -/
def tombWord (s : State) (b : Nat) (sn : Epoch) : W64 :=
  (logOf s b).foldl (fun m e => if e.2.epoch != 0 && epochLe e.2.epoch sn then m ||| e.2.mask else m) (tombRec s b).settledMask
/-- Tombstoned by any commit. -/
def tombNow (s : State) (b : Nat) : W64 :=
  (logOf s b).foldl (fun m e => if e.2.epoch != 0 then m ||| e.2.mask else m) (tombRec s b).settledMask
def tombstoned (s : State) (r : SlotRef) : Bool := bit (tombNow s r.brick).toNat r.slot
/-- Visible at a snapshot: committed and not tombstoned. -/
def visible (s : State) (c : Nat) (sn : Epoch) (r : SlotRef) : Bool :=
  match brick? (coll s c) r.brick with
  | some b => committedAt b sn r.slot && !bit (tombWord s r.brick sn).toNat r.slot
  | none => false

/-- Stack offset of a tombstone-log entry (R79). -/
def logAddr (i : Nat) : Nat := 0x40200000 + 16 * i
/-- Stack offset of the tombstone record of the brick at a device address (R92). -/
def tombAddr (b : Nat) : Nat := 0x41000000 + 16 * ((b % 2 ^ 36 - 0x80000000) / 4096)

/-- Log capacity of a partition (R79, R94). -/
def logSize : Nat := 65536
def freeLogIndex (x : Ptn) : Option Nat := (upto (x.log.length + 1)).find? fun i => (tget x.log i).isNone && i < logSize

/-- A tombstone prepared for a slot, its epoch 0 until its batch commits (R93); none where the log is full. -/
def prepareTomb (c owner : Nat) (r : SlotRef) (s : State) : Option State :=
  let p := ptnOfAddr r.brick
  let x := ptn s p
  let m := BitVec.ofNat 64 (2 ^ r.slot)
  match x.log.find? fun e => e.2.brick == r.brick && e.2.owner == owner && e.2.epoch == 0 with
  | some (i, e) => some (updPtn p (fun x => { x with log := tset x.log i { e with mask := e.mask ||| m } }) s)
  | none => match freeLogIndex x with
    | none => none
    | some i =>
      let t := tombRec s r.brick
      let was := x.log.length
      let s := updPtn p (fun x => { x with
        log := tset x.log i { coll := c, brick := r.brick, mask := m, prev := t.head, owner := owner }
        tombs := tset x.tombs r.brick { t with head := some i } }) s
      some (if was = 57344 then raise .tombPressure 4 p 0 s else s)

/-- From a log index back along the chain, the first entry for which f does not hold; n bounds the steps. -/
def keptFrom (log : Tbl LogEnt) (f : LogEnt → Bool) : Nat → Option Nat → Option Nat
  | n + 1, some i => match tget log i with
    | some e => if f e then keptFrom log f n e.prev else some i
    | none => none
  | _, _ => none

/-- Log entries of a partition for which f holds are taken out of their chains (R93, R186). -/
def dropLog (f : LogEnt → Bool) (x : Ptn) : Ptn :=
  let skip := keptFrom x.log f (x.log.length + 1)
  { x with log := (x.log.filter fun e => !f e.2).map fun e => (e.1, { e.2 with prev := skip e.2.prev }),
           tombs := x.tombs.map fun t => (t.1, { t.2 with head := skip t.2.head }) }

/-- Entries of a collection at or before the horizon are settled into SETTLEDMASK and freed (R93). -/
def settleLog (c : Nat) (h : Epoch) (s : State) : State :=
  let due := fun (e : LogEnt) => e.coll == c && e.epoch != 0 && epochLe e.epoch h
  { s with ptns := tmap (fun _ (x : Ptn) =>
      let x' := (x.log.filter fun e => due e.2).foldl (fun x e =>
        let t := tgetD x.tombs e.2.brick {}
        { x with tombs := tset x.tombs e.2.brick { t with settledMask := t.settledMask ||| e.2.mask } }) x
      let y := dropLog due x'
      { y with tombs := tmap (fun b t =>
          if (y.log.any fun e => e.2.brick == b && e.2.epoch != 0) then t else { t with newest := 0 }) y.tombs }) s.ptns }

/-- The prepared entries of an owner receive their epoch (R93, R173). -/
def commitTombs (owner : Nat) (e : Epoch) (s : State) : State :=
  { s with ptns := tmap (fun _ (x : Ptn) =>
      let mine := x.log.filter fun l => l.2.owner == owner && l.2.epoch == 0
      { x with
        log := tmap (fun _ (l : LogEnt) => if l.owner == owner && l.epoch == 0 then { l with epoch := e } else l) x.log
        tombs := mine.foldl (fun t l => tset t l.2.brick { tgetD t l.2.brick {} with newest := e }) x.tombs }) s.ptns }

/-- The prepared entries of an owner are withdrawn (R186). -/
def withdrawTombs (owner : Nat) (s : State) : State :=
  { s with ptns := tmap (fun _ (x : Ptn) => dropLog (fun e => e.owner == owner && e.epoch == 0) x) s.ptns }

/-! ### Live and tombstone counts (R81) -/

def addLive (c p : Nat) (n : Int) (s : State) : State :=
  updCollPtn c p (fun y => { y with live := ((y.live : Int) + n).toNat }) s
def addTomb (c p : Nat) (n : Int) (s : State) : State :=
  updCollPtn c p (fun y => { y with tomb := ((y.tomb : Int) + n).toNat }) s
def liveTotal (x : Coll) : Nat := x.ptns.foldl (fun n y => n + y.2.live) 0
def tombTotal (x : Coll) : Nat := x.ptns.foldl (fun n y => n + y.2.tomb) 0

/-- Live slots of the loose segment (R110). -/
def looseLive (s : State) (c : Nat) : Nat :=
  let x := coll s c
  x.ptns.foldl (fun n y => n + y.2.loose.foldl (fun n a => match brick? x a with
    | some b => n + ((upto 64).filter fun i => committedSlot b i && !tombstoned s ⟨a, i⟩).length
    | none => n) 0) 0

/-! ### The key directory (R95–R98) -/

/-- The partition of a key's directory (R95). -/
def keyPtn (s : State) (c : Nat) (k : Key) : Nat :=
  let ps := jobPtns s (coll s c).job
  lget ps (keyPosition k ps.length) 0

def keyEnt (x : Coll) (k : Key) : Option KeyEnt := tget x.keys k.toNat
def setKey (c : Nat) (k : Key) (e : KeyEnt) (s : State) : State := updColl c (fun x => { x with keys := tset x.keys k.toNat e }) s

/-- Split steps that the average count per bucket calls for (R96): level and split pointer. -/
def splitSteps (count : Nat) : Nat → Nat × Nat → Nat × Nat
  | 0, bp => bp
  | fuel + 1, (b, p) =>
    if 10 * count > 24 * (2 ^ b + p) then splitSteps count fuel (if p + 1 = 2 ^ b then (b + 1, 0) else (b, p + 1)) else (b, p)

/-- The keys of a partition's directory, ascending. -/
def keysIn (s : State) (c p : Nat) : List (Nat × KeyEnt) := (coll s c).keys.filter fun k => keyPtn s c (BitVec.ofNat 64 k.1) == p

/-- The bucket of a key in a partition's directory, and in its spill table, which is hashed alike (R95, R98). -/
def bucketOf (s : State) (c p : Nat) (k : Key) : Nat := let y := collPtn (coll s c) p; keyBucket k y.kdB y.kdP

/-- Buckets of a partition's directory. -/
def bucketCount (y : CollPtn) : Nat := 2 ^ y.kdB + y.kdP

/-- Overflow buckets of a directory or spill table whose entries fall into buckets 0 to n − 1 as `fill` counts them: three entries to a bucket
(R96). -/
def overCount (fill : Nat → Nat) (n : Nat) : Nat := (upto n).foldl (fun m i => m + (ceilDiv (fill i) 3 - 1)) 0

/-- Entries of a bucket: of the directory, or of the spill table. -/
def bucketKeys (s : State) (c p : Nat) (spill : Bool) (i : Nat) : List (Nat × KeyEnt) :=
  (keysIn s c p).filter fun k => (!spill || (spills (coll s c) && k.2.spill.isSome)) && bucketOf s c p (BitVec.ofNat 64 k.1) == i

/-- Overflow buckets of a partition's directory and spill table. -/
def overTotal (s : State) (c p : Nat) : Nat :=
  let n := bucketCount (collPtn (coll s c) p)
  overCount (fun i => (bucketKeys s c p false i).length) n + overCount (fun i => (bucketKeys s c p true i).length) n

/-- The regions that a partition's key directory holds to start with: its first buckets, their overflow buckets, and those of the spill table. -/
def startKeys (c p : Nat) (s : State) : Option State :=
  let us := [RegUse.keys 0, .over 0] ++ if spills (coll s c) then [.spills 0] else []
  us.foldl (fun o u => o.bind (takeDir c p u)) (some s)

/-- The Hearth's splits after the directory of a partition grew (R96), each in a region of buckets that the directory holds or takes; without a free
one the directory is split no further (log 21). -/
def growDirectory (c p : Nat) (s : State) : State :=
  let y := collPtn (coll s c) p
  let n := (keysIn s c p).length
  let (b, q) := splitSteps n n (y.kdB, y.kdP)
  let last := (2 ^ b + q - 1) / 2 ^ 18
  let us := (upto (last + 1)).flatMap fun i => [RegUse.keys i] ++ if spills (coll s c) then [.spills i] else []
  match us.foldl (fun o u => o.bind (takeDir c p u)) (some s) with
  | none => s
  | some t =>
    let t := updCollPtn c p (fun y => { y with kdB := b, kdP := q }) t
    let extra := overTotal t c p
    (upto (extra / 2 ^ 18 + 1)).foldl (fun s i => (takeDir c p (.over i) s).getD s) t

/-! ### Where directory structures lie (R79, R81, R92, R95, R98, R99, R102, R140; log 21) -/

/-- The device address of part of a structure, 0 where it has no region. -/
def structAddr (s : State) (c p : Nat) (u : RegUse) : Nat := match dirRegion s c p u with | some r => regionBase p r | none => 0

/-- KDMAP and SPILLMAP: tables of region addresses, 8 B each, in the area of R79 for Hearth work tables. -/
def mapAddr (c p : Nat) (spill : Bool) : Nat := p * 2 ^ 36 + 0x50800000 + 65536 * c + (if spill then 32768 else 0)
/-- The scale record of a collection. -/
def scalesAddr (c p : Nat) : Nat := p * 2 ^ 36 + 0x60800000 + 256 * c

/-- The address of bucket i of a key directory or spill table (R95). -/
def bucketAddr (s : State) (c p : Nat) (spill : Bool) (i : Nat) : Nat :=
  structAddr s c p (if spill then .spills (i / 2 ^ 18) else .keys (i / 2 ^ 18)) + 64 * (i % 2 ^ 18)
/-- The address of overflow bucket j. -/
def overAddr (s : State) (c p j : Nat) : Nat := structAddr s c p (.over (j / 2 ^ 18)) + 64 * (j % 2 ^ 18)

/-- The frame of a centroid table: level after level, frames of 64 centroids (R102). -/
def centroidAddr (s : State) (c p lvl f : Nat) : Nat :=
  let y := coll s c
  structAddr s c p (.strata 0) + ((y.strata.take lvl).foldl (fun n l => n + ceilDiv l.length 64) f) * (1600 + 64 * coordN y)

/-- Directory and spill entries that name a moved slot name its copy (R108, R113). -/
def moveKeys (moves : List (SlotRef × SlotRef)) (c : Nat) (s : State) : State :=
  let dest := fun r : SlotRef => match moves.find? fun m => m.1 == r with | some m => m.2 | none => r
  updColl c (fun x => { x with keys := tmap (fun _ (e : KeyEnt) => { e with slot := dest e.slot, spill := e.spill.map dest }) x.keys }) s

/-! ### Bytes of brick parts (R83, R84) and of centroid frames (R102) -/

/-- 64 slots of nibble or crumb codes of one dimension packed w bits each. -/
def packCodes (w : Nat) (vals : List Nat) : List Byte :=
  (chunksOf (8 / w) (64 * w / 8) vals).map fun g => BitVec.ofNat 8 (g.foldr (fun v a => v % 2 ^ w + 2 ^ w * a) 0)

/-- Codes of dimension d over the 64 slots; unoccupied slots hold zero. -/
def slotCodes (b : Brick) (f : Enc → Nat → Nat) (d : Nat) : List Nat :=
  (upto 64).map fun i => if (slotOf b i).occ then f (slotOf b i).enc d else 0

def padBytes (n : Nat) (bs : List Byte) : List Byte := bs.take n ++ List.replicate (n - bs.length) 0

/-- The header bytes of R84. -/
def headerBytes (c : Nat) (b : Brick) : List Byte :=
  [BitVec.ofNat 8 b.kind, 1] ++ leBytes 2 c ++ leBytes 4 b.list ++ leBytes 8 (occMask b) ++ leBytes 4 b.base.toNat ++
  leBytes 5 b.nextBrick ++ [BitVec.ofNat 8 (maskOf ((if b.closed then [0] else []) ++ (if b.settled then [1] else [])))] ++
  List.replicate 6 0 ++ leBytes 16 b.zmin.toNat ++ leBytes 16 b.zmax.toNat ++ leBytes 16 b.zor.toNat ++ leBytes 16 b.zand.toNat ++
  ((upto 64).flatMap fun i => leBytes 2 (slotOf b i).epd.toNat) ++
  (upto 32).map fun j => BitVec.ofNat 8 ((slotOf b (2 * j)).gen.toNat + 16 * (slotOf b (2 * j + 1)).gen.toNat)

/-- A part of a brick by its FETCHB code (R83); absent parts are empty. -/
def partBytes (c : Nat) (x : Coll) (b : Brick) (code : Nat) : List Byte :=
  let occ := fun (f : Slot → List Byte) (n : Nat) =>
    (upto 64).flatMap fun i => if (slotOf b i).occ then padBytes n (f (slotOf b i)) else List.replicate n 0
  match code with
  | 0 => headerBytes c b
  | 1 => occ (fun t => leBytes 16 t.attr.toNat) 16
  | 2 => if collScaled x then [] else occ (fun t => scaleBytes t.enc) (scaleSize x)
  | 3 => occ (fun t => leBytes 4 t.enc.norm.toNat) 4
  | 4 => occ (fun t => leBytes 8 t.key.toNat) 8
  | 5 => (upto (coordN x)).flatMap fun d => packCodes 2 (slotCodes b (fun e d => (lget e.codes d 0).toNat / 4) d)
  | 6 => (upto (coordN x)).flatMap fun d => packCodes 2 (slotCodes b (fun e d => (lget e.codes d 0).toNat % 4) d)
  | 7 => if twoTier x then (upto (coordN x)).flatMap fun d => packCodes 4 (slotCodes b (fun e d => (lget e.refine d 0).toNat) d) else []
  | _ => []

/-- Slice i of a part (R83). -/
def partSlice (code i : Nat) (bs : List Byte) : List Byte :=
  let w := if code = 7 then 8192 else 4096
  (bs.drop (w * i)).take w

/-- Lists a partition owns, ascending. -/
def listsOf (y : Coll) (p : Nat) : List Nat := (y.leaves.filter fun l => l.2.owner == p).map (·.1)
/-- The list-table index of a list in its owner: its place among the lists that the owner has (R99, R103; log 21). -/
def listIndex (y : Coll) (l : Nat) : Nat := ((listsOf y (leaf y l).owner).findIdx? (· == l)).getD 0

/-- A part of the centroid frame f of a strata level, the lowest level having child blocks with owner and list index (R102, R103). -/
def centroidPart (c : Nat) (x : Coll) (lvl f code : Nat) : List Byte :=
  let cs := ((lget x.strata lvl []).drop (64 * f)).take 64
  let lowest := lvl + 1 == x.strata.length
  match code with
  | 0 => headerBytes c { emptyBrick with
      kind := 3
      list := 64 * f
      settled := true
      slots := (upto 64).map fun i => { occ := decide (i < cs.length), epd := 0 } }
  | 1 => padBytes 1024 (cs.flatMap fun k =>
      leBytes 4 k.child ++ leBytes 2 k.children ++ [if lowest then BitVec.ofNat 8 (leaf x k.child).owner else 0, 0] ++
      leBytes 4 k.radius.toNat ++ leBytes 4 (if lowest then listIndex x k.child else 0))
  | 2 => padBytes 64 (cs.map fun k => BitVec.ofInt 8 k.exp)
  | 3 => padBytes 256 (cs.flatMap fun k => leBytes 4 k.norm.toNat)
  | 5 => (upto (coordN x)).flatMap fun d => padBytes 64 (cs.map fun k => BitVec.ofInt 8 (lget k.codes d 0))
  | _ => []

end Sys2Proof.Machine
end

