-- ==== Sys2Proof/Machine/Operands.lean ====
section
/-! DEFINITION. Operand forms: submission entries (R116, R117, R126, R165, R276), host ranges (R269), apertures (R265),
filter instructions (R120, R121), step words and pattern headers (R52, R55, R77), descriptors (R50). -/

namespace Sys2Proof.Machine

/-! ### Submission entries -/

/-- The n-byte field at byte o of an entry. -/
def ef (e : BitVec 512) (o n : Nat) : Nat := e.toNat / 2 ^ (8 * o) % 2 ^ (8 * n)
def opOf (e : BitVec 512) : Nat := ef e 0 1
def flagOf (e : BitVec 512) (i : Nat) : Bool := bit (ef e 1 1) i
def eForce (e : BitVec 512) : Bool := flagOf e 0
def eOrdered (e : BitVec 512) : Bool := flagOf e 1
def eDeadline (e : BitVec 512) : Bool := flagOf e 2
def eTrdy (e : BitVec 512) : Bool := flagOf e 3
def eIntr (e : BitVec 512) : Bool := flagOf e 4
def eCtx (e : BitVec 512) : Nat := ef e 2 2 % 4096
def eHint (e : BitVec 512) : Nat := ef e 2 2 / 4096
def eTag (e : BitVec 512) : W32 := BitVec.ofNat 32 (ef e 4 4)
def eColl (e : BitVec 512) : Nat := ef e 8 2
def eSnap (e : BitVec 512) : Epoch := BitVec.ofNat 32 (ef e 12 4)

/-- Flags an opcode permits, bits as in R276; none for an opcode that is not defined. -/
def permitted (op : Nat) : Option Nat :=
  if op = 0x00 ∨ op = 0x01 ∨ op = 0x30 ∨ op = 0x40 ∨ op = 0x41 then some 0x12
  else if op = 0x10 ∨ op = 0x11 ∨ op = 0x12 then some 0x1E
  else if op = 0x20 ∨ op = 0x21 ∨ op = 0x22 then some 0x1B
  else if op = 0x28 then some 0x13
  else none

/-- The header checks of R230, R276 and R166. -/
def headerBad (r : Ring) (e : BitVec 512) : Bool :=
  match permitted (opOf e) with
  | none => true
  | some m =>
    (ef e 1 1 &&& (255 - m)) != 0 || eCtx e != r.ctx || eHint e > 1 || ef e 10 2 != 0 ||
    (ef e 12 4 != 0 && !(opOf e == 0x10 || opOf e == 0x11 || opOf e == 0x12 || opOf e == 0x41)) ||
    (opOf e < 2 && (eColl e != 0 || e.toNat / 2 ^ 128 != 0))

/-- Search fields (R116). -/
def sK (e : BitVec 512) : Nat := ef e 16 2
def sNq (e : BitVec 512) : Nat := ef e 18 2
def sDeadline (e : BitVec 512) : Nat := ef e 20 2
def sFilter (e : BitVec 512) : Nat := ef e 22 1
def sWide (e : BitVec 512) : Bool := bit (ef e 23 1) 0
def sProbe (e : BitVec 512) : Nat := ef e 24 4
def sTier (e : BitVec 512) : Nat := ef e 28 4
def ePayload (e : BitVec 512) : Nat := ef e 32 8
def sResult (e : BitVec 512) : Nat := ef e 40 8
def sFartab (e : BitVec 512) : Nat := ef e 48 8
def sAlpha (e : BitVec 512) : F32 := BitVec.ofNat 32 (ef e 56 4)
def sBeta (e : BitVec 512) : F32 := BitVec.ofNat 32 (ef e 60 4)

/-- TIER (R117). -/
def tPattern (e : BitVec 512) : Nat := bits (sTier e) 31 16
def tDepth (e : BitVec 512) : Nat := let f := bits (sTier e) 11 8; if f = 0 then 4 else f
def tNoRefine (e : BitVec 512) : Bool := bit (sTier e) 6
def tFar (e : BitVec 512) : Bool := bit (sTier e) 5
def tTwoLimb (e : BitVec 512) : Bool := bit (sTier e) 4
def tierBad (e : BitVec 512) : Bool := bits (sTier e) 15 12 != 0 || bit (sTier e) 7 || bits (sTier e) 3 0 != 0
/-- The refine depth R (R117). -/
def refineDepth (e : BitVec 512) : Nat := min (tDepth e * sK e) 4096
/-- K + 16, or R + 16 with FAR (R151). -/
def listLen (e : BitVec 512) : Nat := (if tFar e then refineDepth e else sK e) + 16

/-- The flits of a search's PARTIAL_LIST: header, 32 bytes, NQ × W entries, 240 bytes to a flit (R332). -/
def responseFlits (e : BitVec 512) : Nat := ceilDiv (48 + 16 * sNq e * listLen e) 240

/-- Malformed PROBE (R126). -/
def probeBad (p : Nat) : Bool := bits p 30 24 != 0 || p == 0
/-- L of R126. -/
def probeCount (p leaves : Nat) : Nat :=
  if bit p 31 then max 1 (ceilDiv (bits p 23 0 * leaves) (2 ^ 24)) else bits p 23 0

/-- Ingest fields (R165). -/
def iCount (e : BitVec 512) : Nat := ef e 16 4
def iFmt (e : BitVec 512) : Nat := ef e 20 1
def iParts (e : BitVec 512) : Nat := ef e 21 1
def iLen (e : BitVec 512) : Nat := ef e 24 4
def bLen (e : BitVec 512) : Nat := ef e 40 8
def xCursor (e : BitVec 512) : W64 := BitVec.ofNat 64 (ef e 48 8)

/-! ### Host ranges (R269) and the HDM window (R265) -/

/-- A host range lies wholly in one window with the rights (R269). -/
def rangeIn (ws : Tbl HWin) (addr len : Nat) (r w : Bool) : Bool :=
  ws.any fun h => decide (h.2.base ≤ addr) && decide (addr + len ≤ h.2.base + h.2.len) && (!r || h.2.r) && (!w || h.2.w)

/-- A host range that lies in one window with the rights asked for. -/
def inWindow (s : State) (ctx addr len : Nat) (r w : Bool) : Bool :=
  match ctx? s ctx with
  | none => false
  | some x => rangeIn x.hwins addr len r w

/-- The device address of a window offset, where its aperture is mapped: staging apertures 8p–8p + 7 lie in the eight highest
user regions of partition p (log 16); bulk apertures are mapped by HDM_MAP (R265, R266). -/
def hdmAddr (s : State) (off : Nat) : Option Nat :=
  let a := off / 2 ^ 24
  if a < 96 then
    if (ptn s (a / 8)).job.isSome then some (regionBase (a / 8) (3832 + a % 8) + off % 2 ^ 24) else none
  else match tget s.host.apertures a with
    | some m => some (regionBase m.ptn m.region + off % 2 ^ 24)
    | none => none

/-- A window range within a context's bulk aperture (R168). -/
def inBulk (s : State) (ctx off len : Nat) : Bool :=
  len > 0 && (upto ((off + len - 1) / 2 ^ 24 - off / 2 ^ 24 + 1)).all fun i =>
    match tget s.host.apertures (off / 2 ^ 24 + i) with
    | some m => m.ctx == ctx
    | none => false

/-- Bytes of the HDM window (R265). -/
def hdmRead (s : State) (off len : Nat) : List Byte :=
  (upto len).map fun i => match hdmAddr s (off + i) with
    | some a => memByte s a
    | none => 0

/-! ### Filter programs (R120–R122) -/

def fOp (w : W32) : Nat := bits w.toNat 31 28
def fField (w : W32) : Nat := bits w.toNat 27 24
def fChunk (w : W32) : Nat := bits w.toNat 17 16
def fData (w : W32) : Nat := bits w.toNat 15 0
def fIsCompare (o : Nat) : Bool := 2 ≤ o && o ≤ 7
def fIsBitOp (o : Nat) : Bool := 8 ≤ o && o ≤ 10
def fIsTest (o : Nat) : Bool := fIsCompare o || fIsBitOp o
/-- Entries popped and pushed (R121). -/
def fPops (o : Nat) : Nat := if o = 11 ∨ o = 12 then 2 else if o = 13 then 1 else 0
def fPushes (o : Nat) : Nat := if o = 1 then 0 else 1

/-- An instruction whose op is undefined or whose unused fields are nonzero (R120, R122). -/
def fWordBad (w : W32) : Bool :=
  let o := fOp w
  o == 0 || o == 15 || bits w.toNat 23 18 != 0 || (!fIsTest o && fField w != 0) || (o != 1 && (fChunk w != 0 || fData w != 0))

/-- The check of R122: none when the program loads, else the value of DETAIL; i counts from 1, d is the stack depth. -/
def filterCheck : List W32 → Nat → Nat → Option Nat
  | [], i, d => if d = 1 then none else some i
  | w :: t, i, d =>
    if fWordBad w || decide (d < fPops (fOp w)) || decide (d - fPops (fOp w) + fPushes (fOp w) > 8) then some i
    else filterCheck t (i + 1) (d - fPops (fOp w) + fPushes (fOp w))

/-- Three-valued results (R72, R121). -/
inductive Zone where
  | some | none | all
  deriving DecidableEq, Repr

def Zone.code : Zone → BitVec 2
  | .some => 0 | .none => 1 | .all => 2
def zNot : Zone → Zone
  | .some => .some | .none => .all | .all => .none
def zAnd (a b : Zone) : Zone := if a = .none ∨ b = .none then .none else if a = .all ∧ b = .all then .all else .some
def zOr (a b : Zone) : Zone := if a = .all ∨ b = .all then .all else if a = .none ∧ b = .none then .none else .some

/-- K as a field's comparand (R120). -/
def constFor (f : FieldD) (k : Nat) : Int := if f.kind = 1 then toSigned f.width k else (k % 2 ^ f.width : Nat)
/-- The field's raw bits in an attribute word. -/
def rawField (f : FieldD) (a : W128) : Nat := a.toNat / 2 ^ f.lsb % 2 ^ f.width

/-- A slot test (R121). -/
def slotTest (o : Nat) (f : FieldD) (k : Nat) (a : W128) : Bool :=
  let v := attrField f a
  let c := constFor f k
  let r := rawField f a
  let m := k % 2 ^ f.width
  if o = 2 then v == c else if o = 3 then v != c else if o = 4 then decide (v < c) else if o = 5 then decide (v ≤ c)
  else if o = 6 then decide (v > c) else if o = 7 then decide (v ≥ c) else if o = 8 then (r &&& m) != 0
  else if o = 9 then (r &&& m) == m else (r &&& m) == 0

/-- EQ in zone evaluation (R121). -/
def zoneEq (mn mx c : Int) : Zone := if c < mn ∨ c > mx then .none else if mn = mx ∧ mn = c then .all else .some
/-- ANYBIT in zone evaluation (R121). -/
def zoneAny (o n m : Nat) : Zone := if o &&& m = 0 then .none else if n &&& m ≠ 0 then .all else .some

/-- A zone test (R121). -/
def zoneTest (op : Nat) (f : FieldD) (k : Nat) (zmin zmax zor zand : W128) : Zone :=
  let mn := attrField f zmin
  let mx := attrField f zmax
  let c := constFor f k
  let m := k % 2 ^ f.width
  let o := rawField f zor
  let n := rawField f zand
  if op = 2 then zoneEq mn mx c else if op = 3 then zNot (zoneEq mn mx c)
  else if op = 4 then (if mx < c then .all else if mn ≥ c then .none else .some)
  else if op = 5 then (if mx ≤ c then .all else if mn > c then .none else .some)
  else if op = 6 then (if mn > c then .all else if mx ≤ c then .none else .some)
  else if op = 7 then (if mn ≥ c then .all else if mx < c then .none else .some)
  else if op = 8 then zoneAny o n m
  else if op = 9 then (if n &&& m = m then .all else if o &&& m ≠ m then .none else .some)
  else zNot (zoneAny o n m)

/-- K after LDK (R121). -/
def loadK (k c d : Nat) : Nat := if c = 0 then d else k - bits k (16 * c + 15) (16 * c) * 2 ^ (16 * c) + d * 2 ^ (16 * c)

/-- A program over one stack type: LDK sets K, a test pushes, AND, OR, NOT, TRUE combine (R121). -/
def runFilter {α : Type} (test : Nat → Nat → Nat → α) (and_ or_ : α → α → α) (not_ : α → α) (true_ : α) :
    List W32 → Nat → List α → List α
  | [], _, st => st
  | w :: t, k, st =>
    let o := fOp w
    if o = 1 then runFilter test and_ or_ not_ true_ t (loadK k (fChunk w) (fData w)) st
    else if fIsTest o then runFilter test and_ or_ not_ true_ t k (test o (fField w) k :: st)
    else if o = 14 then runFilter test and_ or_ not_ true_ t k (true_ :: st)
    else match o == 13, st with
      | true, a :: r => runFilter test and_ or_ not_ true_ t k (not_ a :: r)
      | false, b :: a :: r => runFilter test and_ or_ not_ true_ t k ((if o = 11 then and_ a b else or_ a b) :: r)
      | _, _ => st

def schemaField (x : Coll) (i : Nat) : FieldD := (fieldOf (lget x.schema i 0)).getD { lsb := 0, width := 1, kind := 2, sort := false }

/-- The zone result of a program on a summary; no program gives ALL (R72). -/
def zoneResult (x : Coll) (prog : Option (List W32)) (zmin zmax zor zand : W128) : Zone :=
  match prog with
  | none => .all
  | some p => (runFilter (fun o f k => zoneTest o (schemaField x f) k zmin zmax zor zand) zAnd zOr zNot .all p 0 []).headD .some

/-- The slot result of a program on an attribute word; K is 0 before the first LDK (log 83). -/
def slotResult (x : Coll) (prog : Option (List W32)) (a : W128) : Bool :=
  match prog with
  | none => true
  | some p => (runFilter (fun o f k => slotTest o (schemaField x f) k a) (· && ·) (· || ·) (!·) true p 0 []).headD false

/-- A program that names a field not VALID, or compares a BITS field (R119). -/
def filterUnfit (x : Coll) (p : List W32) : Bool :=
  p.any fun w => fIsTest (fOp w) && (match fieldOf (lget x.schema (fField w) 0) with
    | none => true
    | some f => fIsCompare (fOp w) && f.kind == 2)

/-! ### Patterns and step words (R52, R55, R77) -/

def stOp (w : W128) : Nat := bits w.toNat 127 120
def stCond (w : W128) : Nat := bits w.toNat 119 112
def stCount (w : W128) : Nat := bits w.toNat 111 96
def stA (w : W128) : Nat := bits w.toNat 95 80
def stB (w : W128) : Nat := bits w.toNat 79 64
def stDest (w : W128) : Nat := bits w.toNat 63 48
def stTarget (w : W128) : Nat := bits w.toNat 47 32
def stParam (w : W128) : Nat := bits w.toNat 31 0

/-- A step word from its fields. -/
def stepWord (op cond count a b dest target param : Nat) : W128 :=
  BitVec.ofNat 128 (op * 2 ^ 120 + cond * 2 ^ 112 + count * 2 ^ 96 + a * 2 ^ 80 + b * 2 ^ 64 + dest * 2 ^ 48 + target * 2 ^ 32 + param)

/-- CSCAN, step by step (R77). -/
def cscan : List W128 :=
  [stepWord 0x05 0 0 0 0 0xF800 0 0, stepWord 0x01 0x01 0 0 0 0 27 0, stepWord 0x10 0 4 0 0 0x5100 0 0] ++
  [stepWord 0x10 0 16 0 0 0x5200 0 0x10000000, stepWord 0x30 0 0 0x5100 0 0 0 0, stepWord 0x31 0x02 0 0 0 0 26 0] ++
  [stepWord 0x10 0 196 0 0 0x5900 0 0x20000000, stepWord 0x10 0 4 0 0 0x5600 0 0x30000000] ++
  [stepWord 0x10 0 8 0 0 0x5700 0 0x40000000, stepWord 0x30 0 0 0x5200 0x5100 0 0 1, stepWord 0x31 0x04 0 0 0 0 26 0] ++
  [stepWord 0x20 0 0 0 0 0 0 3, stepWord 0x03 0 0 1 0 0 0 0x8000000E, stepWord 0x10 0 64 0 0 0x8A00 0 0x59000000] ++
  [stepWord 0x21 0 0 0x8A00 0 0 0 0x20905900, stepWord 0x08 0 0 0 0 0 16 0, stepWord 0x02 0 0 1 0 0 13 0] ++
  [stepWord 0x22 0 0 0x5900 0x5600 0xF880 0 0, stepWord 0x01 0x85 0 0 0 0 24 0, stepWord 0x03 0 0 1 0 0 0 0x8000000E] ++
  [stepWord 0x10 0 64 0 0 0x9A00 0 0x69000000, stepWord 0x21 0 0 0x9A00 0 0 0 0x30905900, stepWord 0x08 0 0 0 0 0 23 0] ++
  [stepWord 0x02 0 0 1 0 0 20 0, stepWord 0x23 0 0 0x5900 0x5600 0xAA00 0 0, stepWord 0x32 0 0 0xAA00 0x5700 0 0 1] ++
  [stepWord 0x08 0 0 0 0 0 0 0, stepWord 0x34 0 0 0 0 0 0 1, stepWord 0x09 0 0 0 0 0 0 0]

/-- First step and class of the standard patterns in pattern memory, in the table's order (R77; bases: log 5). -/
def standardPattern (id : Nat) : Option (Nat × Nat × Nat) :=
  lget [none, some (0, 29, 0), some (29, 22, 1), some (51, 26, 2), some (77, 31, 0), some (108, 38, 0), some (146, 21, 3),
    some (167, 44, 5), some (211, 36, 4), some (247, 37, 0)] id none

/-- The step at a pattern-memory index: the library below 384, custom steps above (R54, R77). -/
def stepAt (x : Ptn) (i : Nat) : W128 :=
  if i < 29 then lget cscan i 0 else if i < 384 then Config.libraryStep i else tgetD x.pmem i 0

/-- The header of a pattern (R52); CSCAN's is R77's, the other standard headers are not given (log 5). -/
def patternHeader (s : State) (ctx id : Nat) : List Byte :=
  if id = 1 then leBytes 2 1 ++ leBytes 2 29 ++ leBytes 2 0 ++ leBytes 2 0 ++ leBytes 2 0x4000 ++ leBytes 2 0x5000 ++ List.replicate 20 0
  else if id < 0x100 then leBytes 32 (Config.libraryHeader id).toNat
  else match (ctx? s ctx).bind fun x => tget x.patterns id with
    | some p => p.header
    | none => List.replicate 32 0

/-- The pattern of a context with a version (R54). -/
def patternVer (s : State) (ctx ver : Nat) : Option Pattern :=
  (ctx? s ctx).bind fun x => (x.patterns.map (·.2) ++ x.oldPatterns).find? fun p => p.ver == ver
/-- The header of the version of a pattern that a command was admitted with (R54). -/
def verHeader (s : State) (ctx id ver : Nat) : List Byte :=
  if id < 0x100 then patternHeader s ctx id else ((patternVer s ctx ver).map (·.header)).getD (List.replicate 32 0)

def phEntry (h : List Byte) : Nat := field h 4 2
def phQcode (h : List Byte) : Nat := field h 6 2
def phQrec (h : List Byte) : Nat := field h 8 2
def phLrec (h : List Byte) : Nat := field h 10 2
def phLanes (h : List Byte) : Nat := field h 12 1
def phClass (h : List Byte) : Nat := field h 13 1
def phRights (h : List Byte) : Nat := field h 14 1
/-- SELCONF, 0 to 2 in every header (R52). -/
def phSelconf (h : List Byte) : Nat := field h 15 1 % 3
/-- Lanes of a selector configuration (R50, R69). -/
def laneCount (conf : Nat) : Nat := if conf = 0 then 16 else if conf = 1 then 4 else 1
/-- Lane size of a selector configuration (R50, R69). -/
def laneSize (conf : Nat) : Nat := if conf = 0 then 64 else if conf = 1 then 256 else 1024

/-- What a stage keeps of a row in a selector lane (R151): R, or the depth of the command's list for XSCAN, which runs exact scans and loose
bricks. -/
def laneDepth (e : BitVec 512) (pattern : Nat) : Nat := if pattern = 3 then listLen e else refineDepth e

/-- A loaded, enabled custom pattern of class search (R76, R119). -/
def customSearch (s : State) (ctx id : Nat) : Bool :=
  match (ctx? s ctx).bind fun x => tget x.patterns id with
  | some p => phClass p.header == 0 && !p.disabled
  | none => false

/-- The pattern of a search command's coarse scan (R117, R139). -/
def searchPattern (e : BitVec 512) : Nat :=
  if opOf e = 0x12 then 3 else if tPattern e ≠ 0 then tPattern e else if tTwoLimb e then 9 else 1

/-- The dispatcher tag of a lane: the command's number and the row, 16 bits (R50 gives no value; log 44). -/
def laneTag (l : LaneReq) : Nat := (l.cmd * 256 + l.row) % 65536

/-- ANV_WD of a descriptor (R50), with the program slot of its filter and the bricks of its chunk. -/
def descBytes (x : Coll) (d : Desc) (two : Bool) (hyb : Bool) (n : Nat) (prog : Nat) : List Byte :=
  leBytes 5 d.brick ++ [BitVec.ofNat 8 d.kind, BitVec.ofNat 8 d.lanes.length,
    BitVec.ofNat 8 (maskOf ((if twoTier x then [0] else []) ++ (if two then [1] else []) ++ (if collScaled x then [2] else []) ++
      (if d.last then [3] else [])))] ++
  leBytes 2 d.coll ++ [BitVec.ofNat 8 (if hyb then 3 else x.metric), BitVec.ofNat 8 x.gsize] ++ leBytes 2 (groupCount x) ++
  leBytes 2 (ceilDiv (coordN x) 256) ++ [BitVec.ofNat 8 prog, 0] ++ leBytes 2 n ++ leBytes 4 d.snap.toNat ++ leBytes 4 d.list ++
  leBytes 4 0 ++ (upto 16).flatMap fun i => leBytes 2 (match d.lanes[i]? with | some l => laneTag l | none => 0)

end Sys2Proof.Machine
end

