-- ==== Sys2Proof/Machine/Flags.lean ====
section
/-! DEFINITION. Flags: the flags and bytes of a completion (R278, R279), step conditions (R57), BUDGET (R138),
status words of registers (R286). -/

namespace Sys2Proof.Machine

/-- A number with bit i set where the i-th condition holds. -/
def flagBits (l : List Bool) : Nat := maskOf ((l.zipIdx.filter (·.1)).map (·.2))

/-- The completion flags (R278). -/
def completionFlags (short tie deadlineHit dedup satDrift slowValid rerun : Bool) : Nat :=
  flagBits [short, tie, deadlineHit, dedup, satDrift, slowValid, rerun]

/-- A final completion (R278). -/
def completionBytes (tag : W32) (st : Status) (phase : Bool) (flags count : Nat) (epoch : Epoch) (anvilUs slow : Nat)
    (fault : W32) (sqHead : Nat) : List Byte :=
  leBytes 4 tag.toNat ++ [st.code, if phase then 1 else 0] ++ leBytes 2 flags ++ leBytes 4 count ++ leBytes 4 epoch.toNat ++
  leBytes 4 (min anvilUs 0xFFFFFFFF) ++ leBytes 4 slow ++ leBytes 4 fault.toNat ++ leBytes 4 sqHead

/-- A TRDY completion (R279). -/
def trdyBytes (tag : W32) (phase : Bool) (offset granules sqHead : Nat) : List Byte :=
  leBytes 4 tag.toNat ++ [Status.trdy.code, if phase then 1 else 0, 0, 0] ++ leBytes 4 offset ++ leBytes 4 granules ++
  List.replicate 12 0 ++ leBytes 4 sqHead

/-- BUDGET (R138); of 0 pairs out of 0 the manual gives no value but its bound, and `choice` is free (log 3). -/
def budget (hit : Bool) (d t choice : Nat) : Nat :=
  if !hit then 0xFFFF else if t = 0 then choice % 0xFFFF else min 0xFFFE (65536 * d / t)

/-- A condition of R57, bit 7 inverting it; an undefined code is false before inversion. -/
def condition (code : Nat) (descNone zoneNone zoneAll liveNone boundAny : Bool) (cnt : List W16) (crFold crFetch crStore : Bool) : Bool :=
  let c := code % 128
  let v :=
    if c = 0 then true else if c = 1 then descNone else if c = 2 then zoneNone else if c = 3 then zoneAll
    else if c = 4 then liveNone else if c = 5 then boundAny else if 8 ≤ c ∧ c ≤ 11 then lget cnt (c - 8) 0 == 0
    else if c = 0x10 then crFold else if c = 0x11 then crFetch else if c = 0x12 then crStore else false
  if code ≥ 128 then !v else v

/-- A condition code that R57 defines. -/
def conditionDefined (code : Nat) : Bool :=
  let c := code % 128
  c ≤ 5 || (8 ≤ c && c ≤ 11) || (0x10 ≤ c && c ≤ 0x12)

end Sys2Proof.Machine
end

