-- ==== Sys2Proof/Machine/Journal.lean ====
section
/-! DEFINITION. The host journal of a context: reservations (R182, R186), records (R181), the control line (R180). -/

namespace Sys2Proof.Machine

def journal? (s : State) (ctx : Nat) : Option Journal := (ctx? s ctx).bind (·.journal)
def updJournal (ctx : Nat) (f : Journal → Journal) (s : State) : State :=
  updCtx ctx (fun x => { x with journal := x.journal.map f }) s

/-- Bytes of a record: header and payload padded to 64 B (R181). -/
def recordLen (payload : Nat) : Nat := 64 + 64 * ceilDiv payload 64

/-- Bytes between the last valid RELEASED and the tail of the reservations, circularly (R180). -/
def journalUsed (j : Journal) : Nat := (j.tail + (j.size - 64) - j.released) % (j.size - 64)

/-- The reservation of a record, with the PAD that must precede it at the region's end (R181, R182); none without space:
one line stays unused (R180), and RELEASED is read before the first write (R315). -/
def reserveJournal (c len : Nat) (j : Journal) : Option Journal :=
  let pad := if len ≤ j.size - j.tail then 0 else j.size - j.tail
  if j.unread then none
  else if journalUsed j + pad + len + 64 ≤ j.size - 64 then
    let start := if pad = 0 then j.tail else 64
    let stop := start + len
    let recs := if pad = 0 then [] else [({ cmd := c, pad := true, off := j.tail, len := pad, st := .reserved } : JRec)]
    some { j with recs := j.recs ++ recs ++ [{ cmd := c, off := start, len := len, st := .reserved }],
                  tail := if stop = j.size then 64 else stop }
  else none

/-- The header of a record with its checksums (R181). -/
def recordHeader (typ flags coll tag epoch len jsn ctx count csn : Nat) (payload : List Byte) : List Byte :=
  let h := [BitVec.ofNat 8 typ, BitVec.ofNat 8 flags] ++ leBytes 2 coll ++ leBytes 4 tag ++ leBytes 4 epoch ++ leBytes 4 len ++
    leBytes 8 jsn ++ leBytes 2 ctx ++ leBytes 2 count ++ List.replicate 4 0 ++ leBytes 8 csn ++ leBytes 4 (crc32c payload).toNat
  h ++ leBytes 4 (crc32c h).toNat ++ List.replicate 16 0

/-- A PAD record of a given length (R181). -/
def padRecord (ctx len : Nat) : List Byte :=
  recordHeader 5 0 0 0 0 (len - 64) 0 ctx 0 0 (List.replicate (len - 64) 0) ++ List.replicate (len - 64) 0

/-- A CXL.cache write of journal bytes leaves for host memory; CXL.cache is idle until it is enabled (R260, R264). -/
def journalWrite (j : Journal) (off : Nat) (bytes : List Byte) (s : State) : State :=
  if !cacheUsable s then s else updHost (fun h => { h with cache := h.cache ++ [{ kind := .data, addr := j.base + BitVec.ofNat 64 off, bytes := bytes }] }) s

/-- The record of command c written: its PADs and, with the next JSN, the record itself (R181, R182). -/
def writeRecord (ctx c : Nat) (record : Nat → List Byte) (s : State) : State :=
  match ctx? s ctx, journal? s ctx with
  | some x, some j =>
    let mine := j.recs.filter fun r => r.cmd == c && r.st == .reserved
    let jsn := x.jsn + 1
    let s := mine.foldl (fun s r => journalWrite j r.off (if r.pad then padRecord ctx r.len else record jsn) s) s
    let s := updCtx ctx (fun x => { x with jsn := jsn }) s
    updJournal ctx (fun j => { j with recs := j.recs.map fun r => if r.cmd == c && r.st == .reserved then { r with st := .writing } else r }) s
  | _, _ => s

/-- A reservation given up: space at the tail returns free, other space is filled with PADs (R181, R186). -/
def giveUpJournal (ctx c : Nat) (s : State) : State :=
  match journal? s ctx with
  | none => s
  | some j =>
    let mine := fun r : JRec => r.cmd == c && r.st == .reserved
    if !(j.recs.any mine) then s
    else if (j.recs.getLast?.any mine) then
      let first := (j.recs.find? mine).map (·.off)
      updJournal ctx (fun j => { j with recs := j.recs.filter fun r => !mine r, tail := first.getD j.tail }) s
    else
      let s := (j.recs.filter mine).foldl (fun s r => journalWrite j r.off (padRecord ctx r.len) s) s
      updJournal ctx (fun j => { j with recs := j.recs.map fun r => if mine r then { r with pad := true, st := .writing } else r }) s

/-- The unbroken run of acknowledged records at the front is passed by WRITTEN (R180). -/
def passAcked : List JRec → Nat → Nat → List JRec × Nat
  | [], _, w => ([], w)
  | r :: t, size, w => if r.st = .acked then passAcked t size (if r.off + r.len = size then 64 else r.off + r.len) else (r :: t, w)

/-- WRITTEN advanced and written to the control line (R180). -/
def advanceWritten (ctx : Nat) (s : State) : State :=
  match journal? s ctx with
  | none => s
  | some j =>
    let (recs, w) := passAcked j.recs j.size j.written
    if w = j.written then s
    else journalWrite j 8 (leBytes 8 w) (updJournal ctx (fun j => { j with recs := recs, written := w }) s)

/-- The journal becomes broken and JOURNAL_FAULT is raised (R184). -/
def breakJournal (ctx : Nat) (s : State) : State :=
  raise .journalFault 5 ctx 0 (updJournal ctx (fun j => { j with broken := true }) s)

/-- Whether a value read from RELEASED is valid (R180). -/
def releasedValid (j : Journal) (v : Nat) : Bool :=
  let m := j.size - 64
  v % 64 == 0 && 64 ≤ v && v ≤ m && decide ((v + m - j.released) % m ≤ (j.written + m - j.released) % m)

end Sys2Proof.Machine
end

