-- ==== Sys2Proof/Machine/Messages.lean ====
section
/-! DEFINITION. Icern messages on their way out: header bytes (R332), routing (R335, R336), flits and credits (R327–R330). -/

namespace Sys2Proof.Machine

/-- The virtual channel of a message (R332). -/
def msgVc (m : Msg) : Fin 4 :=
  if m.type = 1 ∨ m.type = 3 then (if m.resp then 1 else 0)
  else if m.type = 2 then 1 else if m.type = 4 then 3 else 2

/-- Header and body bytes of a message (R332). -/
def msgBytes (m : Msg) : List Byte :=
  [BitVec.ofNat 8 m.type, if m.resp then 1 else 0, BitVec.ofNat 8 m.src, BitVec.ofNat 8 m.dst] ++ leBytes 4 m.cmd ++
  [BitVec.ofNat 8 m.run, BitVec.ofNat 8 m.job, BitVec.ofNat 8 m.ttl, 0] ++ leBytes 4 m.body.length ++ m.body

/-- A message read from its bytes (R332). -/
def readMsg (bs : List Byte) : Msg :=
  { type := field bs 0 1, resp := bit (field bs 1 1) 0, src := field bs 2 1, dst := field bs 3 1, cmd := field bs 4 4
    run := field bs 8 1, job := field bs 9 1, ttl := field bs 10 1, body := (bs.drop 16).take (field bs 12 4) }

/-- The flits of a message, 240 body bytes each, the last padded with zeros (R332). -/
def msgFlits (m : Msg) (cls : Bool) : List Flit :=
  let parts := chunksOf 240 (ceilDiv (msgBytes m).length 240) (msgBytes m)
  parts.zipIdx.map fun (b, i) =>
    { vc := msgVc m, cls := cls, first := i == 0, last := i + 1 == parts.length, seq := 0, ackValid := false, ack := 0
      crVc := 0, crCls := false, crCnt := 0, body := b ++ List.replicate (240 - b.length) 0 }

/-- The credit entry of a VC and class; VC2 has one class (R328). -/
def creditOf (p : Port) (vc : Nat) (cls : Bool) : Credit :=
  ((p.credits.find? fun c => c.vc == vc && (vc == 2 || c.cls == cls))).getD { vc := vc, cls := cls, have_ := 0 }
def putCredit (c : Credit) (p : Port) : Port :=
  { p with credits := c :: p.credits.filter fun x => !(x.vc == c.vc && (c.vc == 2 || x.cls == c.cls)) }

/-- The order in which the virtual channels are served (R330). -/
def vcOrder (p : Port) : List Nat := [2, 1] ++ (if p.lastVc3 then [0, 3] else [3, 0])

/-- Whose message a waiting flit belongs to. -/
def srcOf (t : TxFlit) : Nat := match t.from_ with | some (n, _) => n + 1 | none => 0

/-- The flit of a VC that is next: of the message being sent, else the first that waits (R330). -/
def vcFlit (p : Port) (v : Nat) : Option TxFlit :=
  p.tx.find? fun t => t.flit.vc.val == v && (match tget p.sending v with | some k => srcOf t == k | none => true)

/-- The next flit a port may send: that of the first VC that has one and holds a credit for it. -/
def nextFlit (p : Port) : Option TxFlit :=
  (vcOrder p).findSome? fun v => (vcFlit p v).filter fun t => (creditOf p v t.flit.cls).have_ > 0

/-- A list without its first element equal to a. -/
def removeFirst {α : Type} [DecidableEq α] (a : α) : List α → List α
  | [] => []
  | b :: t => if a = b then t else b :: removeFirst a t

/-- A port may send DATA flits: UP, or past INIT, when its HEARTBEATs run (R326). -/
def mayTransmit (p : Port) : Bool := p.st == .up || (p.st == .init && p.step == 4)

/-- A flit on its way carries the newest ACK and returns credits of one VC and class (R327, R330). -/
def stamp (p : Port) (f : Flit) : Flit :=
  let owe := p.credits.find? (·.owed > 0)
  { f with
    ackValid := p.got, ack := p.expSeq - 1
    crVc := match owe with | some o => Fin.ofNat 4 o.vc | none => 0
    crCls := match owe with | some o => o.cls | none => false
    crCnt := match owe with | some o => min 255 o.owed | none => 0 }

/-- The credits that a flit returns are owed no more. -/
def settleOwed (p : Port) : Port :=
  match p.credits.find? (·.owed > 0) with
  | some o => let c := creditOf p o.vc o.cls
              putCredit { c with owed := c.owed - min 255 o.owed } p
  | none => p

/-- A flit put on the wire with ACK and credits. -/
def putFlit (k : FlitKind) (f : Flit) (p : Port) : Port :=
  let q := settleOwed p
  { q with line := q.line ++ [(k, stamp p f)], acked := if p.got then some (p.expSeq - 1) else none }

/-- A flit of no message, its BODY given (R327). -/
def bareFlit (body : List Byte) : Flit :=
  { vc := 0, cls := false, first := false, last := false, seq := 0, ackValid := false, ack := 0, crVc := 0, crCls := false, crCnt := 0
    body := body ++ List.replicate (240 - body.length) 0 }

/-- A new DATA flit takes the next sequence number, spends a credit, and is kept for replay (R329, R330). -/
def sendData (t : TxFlit) (p : Port) : Port :=
  let f := t.flit
  let c := creditOf p f.vc.val f.cls
  let g : Flit := stamp p { f with seq := p.nextSeq }
  let p := putFlit .data { f with seq := p.nextSeq } (putCredit { c with have_ := c.have_ - 1 } p)
  { p with
    tx := removeFirst t p.tx, replay := p.replay ++ [g], nextSeq := p.nextSeq + 1
    sending := if f.last then tdel p.sending f.vc.val else tset p.sending f.vc.val (srcOf t)
    passed := match t.from_ with | some (n, c) => p.passed ++ [(n, f.vc.val, c)] | none => p.passed
    lastVc3 := if f.vc = 3 then true else if f.vc = 0 then false else p.lastVc3 }

/-- A NULL flit has an ACK or credits to bring: of those a port sends with nothing else to send, the ones that change something (R327; log 81). -/
def nullDue (p : Port) : Bool := p.credits.any (fun c => decide (c.owed > 0)) || (p.got && p.acked != some (p.expSeq - 1))

/-- What a port sends while it may: flits to be sent again, in order; then new DATA flits, while credits last and fewer than 1,024 flits are
unacknowledged; then NULL flits (R327, R329, R330). -/
def transmit : Nat → Port → Port
  | 0, p => p
  | k + 1, p =>
    if !mayTransmit p then p else
    match p.resend with
    | f :: t => transmit k { p with resend := t, line := p.line ++ [(.data, f)] }
    | [] => match (if p.replay.length ≥ 1024 then none else nextFlit p) with
      | some t => transmit k (sendData t p)
      | none => if nullDue p then transmit k (putFlit .null (bareFlit []) p) else p

/-- Flits that a port can have to send at most: those that wait, and NULL flits for the credits owed and the ACK. -/
def lineRoom (p : Port) : Nat := p.tx.length + p.resend.length + p.credits.foldl (fun n c => n + ceilDiv c.owed 255) 0 + p.credits.length + 1

/-- A credit of a port's receive buffer to be returned. -/
def owe (vc : Nat) (cls : Bool) (p : Port) : Port := let c := creditOf p vc cls; putCredit { c with owed := c.owed + 1 } p

/-- A port sends what it may; the buffers of transit flits that are sent on are free (R330). -/
def runPort (n : Nat) (s : State) : State :=
  let q := transmit (lineRoom (port s n)) (port s n)
  q.passed.foldl (fun s f => updPort f.1 (owe f.2.1 f.2.2) s) (updPort n (fun _ => { q with passed := [] }) s)

/-- The port exchanges flits with its peer (R326). -/
def beating (p : Port) : Bool := p.st == .init || p.st == .up

/-- REPLAY names the sequence number expected; at most one in 2 µs, of 13 ticks (R327, R329). -/
def sendReplay (n : Nat) (s : State) : State :=
  if (port s n).replayAt.all fun t => decide ((s.aon.ticks - t).toNat ≥ 13) then
    updPort n (fun p => { putFlit .replay (bareFlit (leBytes 2 p.expSeq.toNat)) p with replayAt := some s.aon.ticks, replayDue := false }) s
  else updPort n (fun p => { p with replayDue := true }) s

/-- The route entry of a module (R335). -/
def routeOf (s : State) (dst : Nat) : Option Nat :=
  let e := (lget s.aon.routes dst 0).toNat
  if bit e 15 then some (e % 4) else none

/-- A valid route over a port that is UP. -/
def reachable (s : State) (dst : Nat) : Bool :=
  dst == s.aon.modid || match routeOf s dst with | some n => (port s n).st == .up | none => false

/-- Class 0x6 code of the router (R348). -/
def routerFault (cause portNo module : Nat) : W32 := faultCode 6 0x7C 0xF (cause * 2 ^ 12 + portNo * 2 ^ 10 + module % 64)

/-- A message that finds no way on is discarded and counted (R336). -/
def discard (cause n module : Nat) (s : State) : State :=
  postFault (routerFault cause n module) (updIcern (fun i => { i with ttlDrops := i.ttlDrops + 1 }) s)

/-- Flits put behind those that wait at a port. -/
def queueFlits (n : Nat) (ts : List TxFlit) (s : State) : State := runPort n (updPort n (fun p => { p with tx := p.tx ++ ts }) s)

/-- A message leaves by the port its route names; without a valid entry, or over a port that is not UP, it is discarded (R336, R345). -/
def sendClass (cls : Nat → Bool) (m : Msg) (s : State) : State :=
  match routeOf s m.dst with
  | none => discard 5 0 m.dst s
  | some n => if (port s n).st = .up then queueFlits n ((msgFlits m (cls n)).map fun f => { flit := f }) s else discard 5 n m.dst s

/-- The buffers of a message that has been acted on are free: their credits go back (R330). -/
def freeBufs (b : Option (Nat × Nat × Bool × Nat)) (s : State) : State :=
  match b with
  | some (n, v, c, k) => runPort n (updPort n (fun p => let x := creditOf p v c; putCredit { x with owed := x.owed + k } p) s)
  | none => s

/-- The flits of a message that port n was still receiving leave the port they were to go out by. -/
def cutTx (n v : Nat) (p : Port) : Port :=
  let mine := fun t : TxFlit => srcOf t == n + 1 && t.flit.vc.val == v
  let whole := ((p.tx.filter mine).reverse.dropWhile fun t => !t.flit.last).reverse
  { p with tx := (p.tx.filter fun t => !mine t) ++ whole
           sending := if tget p.sending v = some (n + 1) ∧ whole.isEmpty then tdel p.sending v else p.sending }

/-- What a port keeps when it goes DOWN: its counters, its peer and why (R326, R345). -/
def downPort (cause : Nat) (p : Port) : Port :=
  { p with st := .down, step := 0, hbloss := cause == 3, nextSeq := 0, expSeq := 0, replay := [], replayRun := 0, lastReplay := none
           resend := [], replayDue := false, replayAt := none, got := false, acked := none, resv := [], credits := [], rx := [], tx := [], sending := []
           passed := [], beat := false }

/-- A message that has arrived by port n keeps no buffer of it any more. -/
def unbuffer (n : Nat) (m : Msg) : Msg := if m.bufs.any (·.1 == n) then { m with bufs := none } else m

/-- A message that was passing to port n is discarded as the rest of it arrives. -/
def dropPass (n : Nat) (p : Port) : Port :=
  { p with rx := tmap (fun _ (r : RxMsg) => match r with | .pass o c => if o = n then .drop else .pass o c | r => r) p.rx }

/-- The flits in a port's replay buffer and its partly received messages are discarded, its credits gone (R326). -/
def emptyPort (n cause : Nat) (s : State) : State :=
  let p := port s n
  let s := p.rx.foldl (fun s r => match r.2 with | .pass o _ => updPort o (cutTx n r.1) s | _ => s) s
  let s := p.tx.foldl (fun s t => match t.from_ with | some (m, c) => updPort m (owe t.flit.vc.val c) s | none => s) s
  let s := updIcern (fun i => { i with inbox := i.inbox.map (unbuffer n) }) s
  let s := { s with cmds := tmap (fun _ (x : Cmd) => if x.lent.any (·.1 == n) then { x with lent := none } else x) s.cmds }
  updPort n (downPort cause) ((upto 4).foldl (fun s m => updPort m (dropPass n) s) s)

/-- A port goes DOWN: its fault is posted, its flits and partly received messages are discarded (R326, R348). -/
def cutPort (n cause : Nat) (s : State) : State :=
  emptyPort n cause (postFault (faultCode 6 (0x78 + n) 0xF (cause * 2 ^ 12 + n * 2 ^ 10 + (port s n).peer % 64)) s)

/-- A message of this module: class 1 when it leaves by a dateline port, otherwise 0 (R336). -/
def sendMsg (m : Msg) (s : State) : State := sendClass (fun n => bit s.aon.dateline.toNat n) m s

/-! ### Response buffers (R255, R292, R331) -/

/-- Flits of a port's response buffers that are reserved. -/
def reservedFlits (p : Port) : Nat := p.resv.foldl (fun n r => n + r.flits) 0

/-- The waiting requests, in order: one takes the flits of its whole response on the port of its route and is sent; one that finds no room bars those
after it on the port, and those of its command (R331). A request whose route is gone is discarded. -/
def pumpOver : List (Msg × Nat) → List (Msg × Nat) → State → State
  | [], _, s => s
  | (m, n) :: t, barred, s =>
    let here := routeOf s m.dst
    match here.filter fun o => (port s o).st = .up with
    | none => pumpOver t barred (sendMsg m (updIcern (fun i => { i with requests := removeFirst (m, n) i.requests }) s))
    | some o =>
      if barred.any fun b => routeOf s b.1.dst == here || b.1.cmd == m.cmd then pumpOver t ((m, n) :: barred) s
      else if reservedFlits (port s o) + n > 4096 then pumpOver t ((m, n) :: barred) s
      else pumpOver t barred (sendMsg m (updPort o (fun p => { p with resv := p.resv ++ [{ cmd := m.cmd, run := m.run, dst := m.dst, flits := n }] })
        (updIcern (fun i => { i with requests := removeFirst (m, n) i.requests }) s)))
def pumpRequests (s : State) : State := pumpOver s.icern.requests [] s

/-- A VC0 request that expects a response of n flits. -/
def sendRequest (m : Msg) (n : Nat) (s : State) : State := pumpRequests (updIcern (fun i => { i with requests := i.requests ++ [(m, n)] }) s)

/-- One request to each of a list of modules, their reservations in ascending ID. -/
def requestAllOf (ms : List Nat) (f : Nat → Msg) (n : Nat) (s : State) : State := ms.foldl (fun s i => sendRequest (f i) n s) s

/-- A flit of a response has been moved to its store: its buffer is free, at the last flit all that is left of the reservation. -/
def useResv (m : Msg) (last : Bool) : List Resv → List Resv
  | [] => []
  | r :: t => if r.cmd = m.cmd ∧ r.run = m.run ∧ r.dst = m.src then (if last ∨ r.flits ≤ 1 then t else { r with flits := r.flits - 1 } :: t)
    else r :: useResv m last t
def takeResponse (m : Msg) (last : Bool) (s : State) : State :=
  updIcern (fun i => { i with ports := tmap (fun _ (p : Port) => { p with resv := useResv m last p.resv }) i.ports }) s

/-- The requests of a killed or failed run that still wait are not sent; what it reserved is freed when the response arrives or the replay window
closes (R255). -/
def abandonRun (c run : Nat) (s : State) : State :=
  updIcern (fun i => { i with
    requests := i.requests.filter fun q => !(q.1.cmd == c && q.1.run == run && q.1.src == s.aon.modid)
    ports := tmap (fun _ (p : Port) => { p with resv := p.resv.map fun r => if r.cmd = c ∧ r.run = run then { r with killed := true } else r }) i.ports }) s

/-- The replay window is closed: nothing sent is unacknowledged, and the buffers of killed runs are free (R255, R329; log 76). -/
def closeReplay (p : Port) : Port := if p.replay.isEmpty then { p with resv := p.resv.filter fun r => !r.killed } else p

/-- The bytes of a flit as R327 lays it out, its CRC last. -/
def flitBytes (k : FlitKind) (f : Flit) : List Byte :=
  let kind := match k with | .data => 0 | .null => 1 | .replay => 2 | .init => 3
  let b := fun (x : Bool) (n : Nat) => if x then n else 0
  let head := [BitVec.ofNat 8 (kind * 64 + f.vc.val * 16 + b f.cls 8 + b f.first 4 + b f.last 2)] ++
    leBytes 2 f.seq.toNat ++ leBytes 2 (f.ack.toNat + b f.ackValid (2 ^ 15)) ++
    [BitVec.ofNat 8 (f.crVc.val + b f.crCls 4), BitVec.ofNat 8 f.crCnt, 0] ++ f.body
  head ++ leBytes 8 (crc64 head).toNat

/-- The same message to each of a list of modules, in ascending ID (R331). -/
def sendAll (ms : List Nat) (f : Nat → Msg) (s : State) : State := ms.foldl (fun s i => sendMsg (f i) s) s

/-- The other modules of a job. -/
def peersOf (s : State) (j : Nat) : List Nat :=
  match job? s j with
  | some x => if x.modules > 1 then (bitsOf 64 x.mask.toNat).filter (· ≠ s.aon.modid) else []
  | none => []

end Sys2Proof.Machine
end

