-- ==== Sys2Proof/Machine/Kill.lean ====
section
/-! DEFINITION. What a command needs (R434), withdrawal of ingest work (R186), the end of a command by a kill, fence or
failure (R247, R248, R343, R354), the levels of the ladder that run (R357, R359). -/

namespace Sys2Proof.Machine

def isSearch (op : Nat) : Bool := op == 0x10 || op == 0x11 || op == 0x12
def isIngest (op : Nat) : Bool := op == 0x20 || op == 0x21 || op == 0x22 || op == 0x40
/-- Commands that an anvil's binding or chunk works for. -/
def anvCmds (a : Anvil) : List Nat := (liveLanes a).map (·.cmd) ++ (match a.chunk with | some k => k.cmd.toList | none => [])
/-- Commands that a request serves. -/
def reqCmds (s : State) (who : Requester) : List Nat :=
  match who with
  | .anvil p a _ => anvCmds (anvil s p a)
  | .engine _ _ c => c.toList
  | .west _ c => c.toList

/-- Snapshots of a collection's admitted, uncompleted commands (R90). -/
def heldSnaps (s : State) (n : Nat) : List Epoch :=
  (s.cmds.filter fun k => liveCmd k.2 && k.2.admitted && k.2.coll == n && (isSearch k.2.opcode || k.2.opcode == 0x41)).map (·.2.snap)

/-! ### Needs (R434) -/

/-- Partitions of the collection's job in which it holds a region. -/
def collRegionPtns (s : State) (c : Nat) : List Nat :=
  (jobPtns s (coll s c).job).filter fun p => !(collRegions s c p).isEmpty

/-- Partitions that a ring command of a context needs; op 0 and 1 name no collection. -/
def needsPtns (s : State) (ctx op c : Nat) : List Nat :=
  let h := match ctx? s ctx with | some x => [x.home] | none => []
  if op < 2 then h else h ++ [collHome s c] ++ collRegionPtns s c

def isFenced (x : Ptn) : Bool := x.service == .fenced || x.service == .resetting
def anyFenced (s : State) (ps : List Nat) : Bool := ps.any fun p => isFenced (ptn s p)

/-- The home passed step 4 of its fence. -/
def pastDrain (x : Ptn) : Bool := match x.fence with | some f => decide (f.step ≥ 5) | none => false

/-- The code of a partition's fence. -/
def fenceCode (x : Ptn) : W32 := match x.fence with | some f => f.code | none => 0

/-- The fence response that work for some partitions meets: the code of the first that is past step 4 of its fence (R5, R353). -/
def turnedAway (s : State) (ps : List Nat) : Option W32 := (ps.find? fun p => pastDrain (ptn s p)).map fun p => fenceCode (ptn s p)

def anyOos (s : State) (ps : List Nat) : Bool := ps.any fun p => (ptn s p).service == .oos

/-! ### Withdrawal (R186) -/

/-- The stage before commit of an ingest command (R14). -/
def uncommitted (x : Cmd) : Bool := isIngest x.opcode && x.epoch == 0

/-- Past COMMIT of a spanning command and not committed yet: it is never failed, killed or withdrawn (R341, R343). -/
def mustCommit (x : Cmd) : Bool := uncommitted x && x.committing

/-- An ingest command that a fence or a kill leaves as it is: committed, or bound to commit (R186, R187, R343). -/
def settledBatch (x : Cmd) : Bool := isIngest x.opcode && (x.epoch != 0 || x.committing)

/-- Slots appended for a record are cleared. -/
def clearRec (c : Nat) (r : Rec) (s : State) : State :=
  let s := match r.slot with | some q => clearSlot c q s | none => s
  match r.spillSlot with | some q => clearSlot c q s | none => s

/-- The batch of a command leaves storage, log, commit queue and journal (R186). -/
def withdraw (c : Nat) (s : State) : State :=
  match cmd? s c with
  | none => s
  | some x =>
    if !uncommitted x then s else
    let s := x.recs.foldl (fun s r => clearRec x.coll r s) s
    let s := giveUpJournal x.ctx c (withdrawTombs c s)
    let s := if (tget s.colls x.coll).isSome then updColl x.coll (fun y => { y with queue := y.queue.filter (· ≠ c) }) s else s
    let s := { s with ptns := tmap (fun _ (y : Ptn) => { y with wcFences := y.wcFences.filter fun f => f.why ≠ .batch c }) s.ptns }
    updCmd c (fun x => { x with recs := x.recs.map fun r => { r with slot := none, spillSlot := none } }) s

/-! ### Messages of spanning commands (R340, R341) -/

/-- A message of a command of this module's job. -/
def cmdMsg (s : State) (x : Cmd) (c type dst : Nat) (resp : Bool) (body : List Byte) : Msg :=
  { type := type, resp := resp, src := s.aon.modid, dst := dst, cmd := match x.origin with | some o => o.2 | none => c
    run := x.run % 256, job := x.job, body := body }

/-- ABORT of a command (R332): REASON 0 killed, 1 failed with a status. -/
def abortMsg (s : State) (x : Cmd) (c dst reason : Nat) (st : Status) : Msg :=
  cmdMsg s x c 6 dst false [BitVec.ofNat 8 reason, if reason = 1 then st.code else 0]

/-- ABORT to every other module of the root's command (R343, R344); its requests that wait are not sent (R331). -/
def abortAll (x : Cmd) (c reason : Nat) (st : Status) (s : State) : State :=
  sendAll (peersOf s x.job) (fun d => abortMsg s x c d reason st) (abandonRun c (x.run % 256) s)

/-- The entry of a forwarded command: SNAP 0 and addresses zeroed (R332). -/
def forwardEntry (e : BitVec 512) (op : Nat) : List Byte :=
  let bs := leBytes 64 e.toNat
  let z := fun (o n : Nat) (b : List Byte) => b.take o ++ List.replicate n 0 ++ b.drop (o + n)
  if isSearch op then z 48 8 (z 40 8 (z 32 8 (z 12 4 bs))) else z 32 8 (z 12 4 bs)

/-- Remaining deadline of a command in µs, or 0 when it has none (R332, R340). -/
def remainingUs (s : State) (x : Cmd) : Nat :=
  let d := x.entry.toNat / 2 ^ 160 % 2 ^ 16
  if bit (x.entry.toNat / 256) 2 then d - ((ptn s x.home).cycles.toNat - x.admitCyc) / 1800 else 0

/-- QUERY_FWD of a search to another module (R332, R340). -/
def queryFwdMsg (s : State) (x : Cmd) (c dst : Nat) : Msg :=
  cmdMsg s x c 1 dst false (forwardEntry x.entry x.opcode ++ leBytes 4 (remainingUs s x) ++ leBytes 4 x.payload.length ++
    leBytes 8 (coll s x.coll).seed.toNat ++ x.payload)

/-- INSERT_FWD of a phase to another module: 0 PREPARE, 1 COMMIT, 2 WITHDRAW; the records of a BULK_LOAD go in BULK_DATA (R332, R341). -/
def insertFwdMsg (s : State) (x : Cmd) (c dst phase : Nat) : Msg :=
  let recs := if phase = 0 ∧ x.opcode ≠ 0x40 then tgetD x.parts dst [] else []
  cmdMsg s x c 3 dst false ([BitVec.ofNat 8 phase, BitVec.ofNat 8 x.opcode] ++ leBytes 2 (x.entry.toNat / 256 % 256) ++
    leBytes 4 recs.length ++ recs.flatten)

/-- BULK_DATA pieces of a module's share, 4,096 records each, with their byte offsets (R332, R341). -/
def bulkMsgs (s : State) (x : Cmd) (c dst : Nat) : List Msg :=
  let recs := tgetD x.parts dst []
  (chunksOf 4096 (ceilDiv recs.length 4096) recs).zipIdx.map fun (part, i) =>
    cmdMsg s x c 4 dst false (leBytes 4 ((recs.take (4096 * i)).flatten.length) ++ leBytes 4 part.length ++ part.flatten)

/-- The part of a command that other modules carry out leaves for them (R340, R341). -/
def forwardCmd (c : Nat) (s : State) : State :=
  match cmd? s c with
  | none => s
  | some x =>
    if x.origin.isSome || x.stage == .awaitPayload || x.stage == .reading || (x.opcode == 0x40 && x.payload.isEmpty) then s
    else if isSearch x.opcode then requestAllOf (peersOf s x.job) (queryFwdMsg s x c) (responseFlits x.entry) s
    else if isIngest x.opcode then (peersOf s x.job).foldl (fun s d =>
      let s := if x.opcode = 0x40 then (bulkMsgs s x c d).foldl (fun s m => sendMsg m s) s else s
      sendRequest (insertFwdMsg s x c d 0) 1 s) s
    else s

/-! ### The end of a command -/

/-- A command ends with a status: uncommitted ingest work is withdrawn, its work dropped; the root of a spanning command sends
ABORT with REASON 1 unless it has passed COMMIT; another module answers with the status (R333, R343, R354). -/
def endCmd (c : Nat) (st : Status) (fault : W32) (s : State) : State :=
  match cmd? s c with
  | none => s
  | some x =>
    if x.stage = .final ∨ x.stage = .done then s else
    let s := if x.origin.isNone ∧ ¬x.committing then abortAll x c 1 st s else s
    finish c st 0 fault (dropWork (· == c) (withdraw c s))

/-- A command fails, unless it is past COMMIT (R343). -/
def failCmd (c : Nat) (st : Status) (fault : W32) (s : State) : State :=
  if (cmd? s c).any mustCommit then s else endCmd c st fault s

def failAll (cs : List Nat) (st : Status) (fault : W32) (s : State) : State := cs.foldl (fun s c => failCmd c st fault s) s

/-- The AER status of a DMA read that failed: 12 poisoned data, 14 completion timeout (R258; bits PRESUMED, log 77). -/
def noteAer (cause : Nat) (s : State) : State :=
  let b := if cause = 3 then 2 ^ 12 else if cause = 4 then 2 ^ 14 else 0
  updLink (fun l => { l with cfg := { l.cfg with aer := l.cfg.aer ||| BitVec.ofNat 32 b } }) s

/-- Poison received on CXL.cache or CXL.mem sets its RAS status bit, 10 (R258; PRESUMED, log 77). -/
def notePoison (s : State) : State := updLink (fun l => { l with cfg := { l.cfg with ras := l.cfg.ras ||| BitVec.ofNat 32 (2 ^ 10) } }) s

/-- A failed host access of a command: posted, latched, and its outcome (R284, R433). -/
def hostFail (c : Nat) (unit cause : Nat) (st : Status) (s : State) : State :=
  match cmd? s c with
  | none => s
  | some x =>
    let code := hostFault unit cause (if x.origin.isNone then some x.ring else none)
    failCmd c st code (postFault code (if unit = 0x71 then noteAer cause s else s))

/-- A search restarts from planish: rows as received, nothing probed (R247). -/
def restartRows (s : State) (x : Cmd) : List QRow :=
  let y := coll s x.coll
  let fmt := bit (x.entry.toNat / 2 ^ 184) 0
  x.rows.zipIdx.map fun (r, i) =>
    { encodeRow (s.free + i * planishChoices y.d) y.seed y.d (y.metric == 2) fmt r.raw with terms := r.terms }

/-- A BULK_LOAD whose first chunk has its source still to read (R189). -/
def needsSource (x : Cmd) : Bool := x.opcode == 0x40 && x.payload.isEmpty && x.origin.isNone
/-- The kind of the chunks that assign a command's records (R242). -/
def assignKind (x : Cmd) : Nat := if x.opcode = 0x40 then 4 else 0

/-- An ingest command that is run again waits for assignment (R247). -/
def requeueChunk (x : Cmd) (c : Nat) (s : State) : State :=
  if !isIngest x.opcode || x.stage = .awaitPayload || x.stage = .reading then s
  else
    let k : Chunk := { kind := assignKind x, ctx := x.ctx, cmd := some c }
    updPtn x.home (fun y =>
      let before := fun q : Chunk => q.kind < k.kind
      { y with chunkQ := y.chunkQ.filter before ++ [k] ++ y.chunkQ.filter fun q => !before q
               waiting := if (tget y.resident x.ctx).isSome || y.waiting.contains x.ctx then y.waiting else y.waiting ++ [x.ctx] }) s

/-- A forwarded search that is killed keeps its amounts for its next run, and nothing else; a forwarded ingest part goes (R297, R344). -/
def parkPart (c : Nat) (s : State) : State :=
  let s := dropWork (· == c) (withdraw c s)
  match cmd? s c with
  | none => s
  | some x =>
    if isSearch x.opcode then updCmd c (fun x => { x with stage := .reading, admitted := false, parked := true, rows := [], payload := [], lacking := [], senior := none }) s
    else delCmd c s

/-- A pre-emption or engine-reset kill of one command (R247, R248): work dropped, run number advanced, the fourth kill final.
Committed commands are never killed (R186); the other modules are told (R344). -/
def killCmd (c : Nat) (s : State) : State :=
  match cmd? s c with
  | none => s
  | some x =>
    if x.stage = .final ∨ x.stage = .done ∨ settledBatch x ∨ x.opcode < 0x10 ∨ x.opcode = 0x28 ∨ x.opcode = 0x30 then s
    else match x.origin with
    | some (root, _) => parkPart c (sendMsg (abortMsg s x c root 0 .ok) s)
    | none =>
      if x.kills = 3 then failCmd c .killed 0 s else
      let s := dropWork (· == c) (withdraw c (abortAll x c 0 .ok s))
      let s' := updCmd c (fun x => { x with
        kills := x.kills + 1, run := x.run + 1, rerun := true, expLen := 0, rows := restartRows s x, pairs := if x.opcode = 0x12 then x.pairs else 0, pairsDone := 0
        deadlineHit := x.stopped, ownHit := x.stopped, peerPairs := 0, peerDone := 0
        sat := false, dedup := false, nan := 0, peersReady := [], peersDone := []
        stage := if x.stage = .awaitPayload ∨ x.stage = .reading then x.stage else if isIngest x.opcode then .assigning else .running }) s
      forwardCmd c (requeueChunk x c (spend (x.rows.length * planishChoices (coll s x.coll).d) s'))

/-- Live admitted commands of a context. -/
def ctxCmds (s : State) (ctx : Nat) : List Nat := cmdsOf (fun x => liveCmd x && x.admitted && x.ctx == ctx) s

/-- A command has work in a partition: descriptors, chunks, bindings, slots appended, tombstones prepared or keys to enter there (R247, R352); a
committed batch, and one bound to commit, has none (R187). -/
def hasWorkIn (s : State) (p c : Nat) : Bool :=
  let x := ptn s p
  match cmd? s c with
  | none => false
  | some k =>
    k.stage != .final && k.stage != .done && !settledBatch k &&
    (x.rowQ.any (fun d => d.2.lanes.any (·.cmd == c)) || x.chunkQ.any (fun q => q.cmd == some c || q.bricks.any fun d => d.lanes.any (·.cmd == c)) ||
     x.anvils.any (fun a => anvilWorks (· == c) a.2) ||
     (k.home == p && k.stage != .waiting) ||
     k.rows.any (fun r => match tget r.probes p with | some q => !q.sent | none => false) ||
     (uncommitted k && x.log.any fun e => e.2.owner == c && e.2.epoch == 0) ||
     (uncommitted k && k.recs.any fun r => keyPtn s k.coll r.key == p) ||
     k.recs.any (fun r => (r.slot.any fun q => ptnOfAddr q.brick == p) || (r.spillSlot.any fun q => ptnOfAddr q.brick == p)))

def cmdsIn (s : State) (p : Nat) : List Nat := cmdsOf (fun x => liveCmd x && x.admitted) s |>.filter (hasWorkIn s p)

/-! ### Waits that are not on the partition (R254) -/

/-- A search whose lists of this module are complete, and which waits for those of other modules. -/
def atPeers (s : State) (x : Cmd) : Bool :=
  isSearch x.opcode && x.stage == .running && x.origin.isNone && ((peersOf s x.job).any fun m => !x.peersDone.contains m) &&
    x.rows.all fun r => r.descended && r.probes.all (·.2.sent) && r.nodes.all (·.inputs.isEmpty)

/-- A search that has work left in fenced partitions only. -/
def atFence (s : State) (x : Cmd) : Bool :=
  let left := x.rows.flatMap fun r => (r.probes.filter fun q => !q.2.sent).map (·.1)
  x.stage == .running && !left.isEmpty && left.all fun p => isFenced (ptn s p)

/-- A SEM_ACQ whose word another context holds (R216). -/
def heldByOther (s : State) (q : AtomReq) : Bool :=
  let w := leNat (memBytes s q.addr 8)
  q.code == 0x10 && bit w 63 && bits w 59 48 != q.ctx

/-- A command all of whose anvils wait for a semaphore that another context holds. -/
def atSemaphore (s : State) (c : Nat) : Bool :=
  let mine := s.ptns.flatMap fun p => (p.2.anvils.filter fun a => anvilWorks (· == c) a.2).map fun a => (p.1, a.1)
  !mine.isEmpty && mine.all fun k => s.ptns.any fun p => p.2.atomQ.any fun q => q.from_ == some k && heldByOther s q

/-- A command that waits on the host, its journal, posted writes, a peer, a fenced partition or another context's semaphore; one that waits for an
earlier command under ORDERED is not admitted yet (R185, R254). -/
def blockedCmd (s : State) (c : Nat) (x : Cmd) : Bool :=
  x.stage == .awaitPayload || x.stage == .journalWait || x.stage == .committed || x.stage == .final || (uncommitted x && x.stage == .waiting) ||
    atPeers s x || atFence s x || atSemaphore s c

/-! ### The ladder (R357, R359) -/

/-- Levels at or above the rank over the same scope that run already. -/
def levelRank : LadderLevel → Nat
  | .l0 _ => 0 | .l1 _ _ => 1 | .l2 _ => 2 | .l3 => 3 | .l4 => 4

def sameScope (a b : LadderLevel) : Bool :=
  match a, b with
  | .l3, _ => true
  | .l4, _ => true
  | .l2 p, .l2 q => p == q
  | .l2 p, .l1 u q => u != 0x60 && p.val == q
  | .l1 u p, .l1 v q => u == v && p == q
  | .l0 c, .l0 d => c == d
  | _, _ => false

/-- A level running that already covers a trigger (R359). -/
def covered (l : LadderLevel) (s : State) : Bool := s.levels.any fun x => levelRank l ≤ levelRank x.level && sameScope x.level l
def startWith (v : Level) (s : State) : State := { s with levels := v :: s.levels.filter fun x => !sameScope v.level x.level }
def startLevel (l : LadderLevel) (pend : List (Nat × Nat)) (s : State) : State := startWith { level := l, pending := pend } s
def endLevel (l : LadderLevel) (s : State) : State := { s with levels := s.levels.filter fun x => x.level ≠ l }

/-- A command has a request outstanding at the home p, to a channel or to any (R197). -/
def asksHome (s : State) (p : Nat) (ch : Option Nat) (c : Nat) : Bool :=
  s.ptns.any fun x => x.2.anvils.any fun a => anvilWorks (· == c) a.2 && a.2.outst.any fun o =>
    !o.served && homePtn o.addr == p && ch.all fun n => channelOf o.addr == n

/-- A row has a list or an input at a node. -/
def atNode (f : FoldNode → Bool) (k : Cmd) : Bool := k.rows.any fun r => r.nodes.any fun n => f n.node

/-- A command has work in an engine, by unit and partition (R347, R357). -/
def worksIn (s : State) (unit p c : Nat) (k : Cmd) : Bool :=
  if unit < 0x18 then (ptn s p).anvils.any fun a => a.1 / 36 == unit && anvilWorks (· == c) a.2
  else if unit < 0x30 then atNode (fun n => match n with | .row q i => q.val == p && i.val == unit - 0x18 | _ => false) k
  else if unit < 0x50 then asksHome s p (some (unit - 0x30)) c
  else if unit = 0x50 then asksHome s p none c
  else if unit = 0x51 then atNode (fun n => match n with | .partition q => q.val == p | _ => false) k
  else if unit = 0x52 then k.home == p && uncommitted k
  else if unit = 0x53 then hasWorkIn s p c
  else if unit = 0x54 then k.home == p && isSearch k.opcode && k.rows.any fun r => !r.descended
  else if unit = 0x60 then isSearch k.opcode && atNode (fun n => n == .device || n == .root) k
  else false

/-- Commands with work in an engine. -/
def workOfEngine (s : State) (unit p : Nat) : List Nat :=
  (cmdsOf (fun x => liveCmd x && x.admitted && x.stage != .final) s).filter fun c => (cmd? s c).any (worksIn s unit p c)

/-- The partition that an engine is named by: the one device fold stands under 0. -/
def enginePtn (unit p : Nat) : Nat := if unit = 0x60 then 0 else p

/-- Engines that hold work of a context, by unit and partition (R347, R357). -/
def enginesOf (s : State) (ctx : Nat) : List (Nat × Nat) :=
  let mine := fun (u p : Nat) => (workOfEngine s u p).any fun c => (cmd? s c).any fun k => k.ctx == ctx
  (s.ptns.flatMap fun x => ((upto 0x55).filter fun u => mine u x.1).map fun u => (u, x.1)) ++ (if mine 0x60 0 then [(0x60, 0)] else [])

/-- A command number has no completion to wait for any more. -/
def completed (s : State) (c : Nat) : Bool :=
  match cmd? s c with
  | some x => x.stage == .done
  | none => true

/-- A context kill is done: every engine has reported, every completion has entered the host write queue (R354, R357). -/
def killDone (s : State) (v : Level) : Bool := (match v.level with | .l0 _ => true | _ => false) && v.pending.isEmpty && v.cmds.all (completed s)
/-- The context kills that are done end. -/
def endKills (s : State) : State := { s with levels := s.levels.filter fun v => !killDone s v }

/-- The commands that a context kill ends: all but a batch that is bound to commit, and a committed one that awaits no acknowledgement of its own
record (R186, R343). -/
def killable (x : Cmd) : Bool := !settledBatch x || (x.stage == .committed && bit (x.entry.toNat / 256) 0 && x.origin.isNone && !x.acked)

/-- What a context kill does (R354): every command completes KILLED, or TIMEOUT for the one that timed out, with the code behind the
kill; semaphores, records and residency go; the slow-down count restarts (R257). -/
def dropContext (ctx : Nat) (code : W32) (timedOut : Option Nat) (s : State) : State :=
  let s := ((ctxCmds s ctx).filter fun c => (cmd? s c).any killable).foldl (fun s c =>
    failCmd c (if timedOut = some c then .timeout else .killed) code s) s
  let s := releaseSemaphores ctx (chargeWhere (fun _ _ a => a.chunk.any (·.ctx == ctx)) s)
  let s := { s with ptns := tmap (fun _ (x : Ptn) => { x with
      resident := tdel x.resident ctx
      waiting := x.waiting.filter (· ≠ ctx), waitedLong := x.waitedLong.filter (· ≠ ctx)
      idleList := x.idleList.filter (· ≠ ctx), blockedList := x.blockedList.filter (· ≠ ctx), warmLists := tdel x.warmLists ctx
      swap := x.swap.bind fun w => if w.incoming = ctx then none else some { w with victim := w.victim.filter (· ≠ ctx) }
      saves := (x.saves.filter fun v => v.2.ctx ≠ ctx)
      chunkQ := x.chunkQ.filter (·.ctx ≠ ctx)
      anvils := tmap (fun _ (a : Anvil) => if a.chunk.any (·.ctx == ctx) then { a with chunk := none, st := .idle, killed := true } else a) x.anvils }) s.ptns }
  updCtx ctx (fun x => { x with measured := [] }) s

/-- A context killed, its L0 begun: it runs until the engines given have reported and the commands ended here are complete (R354, R357). -/
def killAt (eng : List (Nat × Nat)) (ctx : Nat) (code : W32) (timedOut : Option Nat) (s : State) : State :=
  let cs := (ctxCmds s ctx).filter fun c => (cmd? s c).any killable
  endKills (startWith { level := .l0 ctx, pending := eng, cmds := cs } (dropContext ctx code timedOut s))

/-- A context kill at L0. -/
def killContext (ctx : Nat) (code : W32) (timedOut : Option Nat) (s : State) : State := killAt (enginesOf s ctx) ctx code timedOut s

/-- The kill that ends a reset's fence: the engines of the partition are reset with it and report nothing (R355). -/
def killForReset (p ctx : Nat) (code : W32) (s : State) : State :=
  killAt ((enginesOf s ctx).filter fun e => e.1 == 0x60 || e.2 != p) ctx code none s

end Sys2Proof.Machine
end

