-- ==== Sys2Proof/Machine/Admission.lean ====
section
/-! DEFINITION. Admission of ring commands: order (R185, R271), checks (R119, R169, R178, R190, R276, R338, R339, R352, R434),
reservations (R293–R296), the command record, TRDY (R279, R281). -/

namespace Sys2Proof.Machine

/-- The link serves rings: up, not degraded, in D0 (R260, R275). -/
def linkServes (s : State) : Bool := s.host.link.up && !s.host.link.deg && !s.host.link.d3hot

/-- A ring's commands without a completion (R185). -/
def ringLive (s : State) (r : Nat) : List Nat := cmdsOf (fun x => liveCmd x && x.ring == r && x.origin.isNone) s

def ctxJob (s : State) (ctx : Nat) : Nat := match ctx? s ctx with | some x => x.job | none => 0
def ctxHome (s : State) (ctx : Nat) : Nat := match ctx? s ctx with | some x => x.home | none => 0

/-- Whether the head entry of a ring may be taken up now (R185, R271, R274, R337). -/
def mayAdmit (s : State) (r : Nat) (e : BitVec 512) : Bool :=
  let x := ring s r
  (x.st == .running || x.st == .error) && !x.stopping && linkServes s && !(s.icern.hold && spans s (ctxJob s x.ctx)) &&
  !((ringLive s r).any fun c => (cmd? s c).any fun k => eOrdered k.entry) && (!eOrdered e || (ringLive s r).isEmpty)

/-! ### Checks -/

/-- A refusal: status, count, and the class 0x5 cause of a host read that failed. -/
structure Refused where
  status : Status
  count : Nat := 0
  cause : Option Nat := none
  deriving DecidableEq, Repr

def refuseIf (b : Bool) (st : Status) : Option Refused := if b then some { status := st } else none

/-- A peer of the job out of service or with a partition of the job fenced (R339). -/
def peerDown (s : State) (j : Nat) : Bool :=
  (peersOf s j).any fun m => match tget s.icern.peers m with
    | some p => p.oos || (p.fencedMask.toNat &&& maskOf (jobPtns s j)) != 0 || (p.noticeMask.toNat &&& maskOf (jobPtns s j)) != 0
    | none => false

/-- Checks common to the commands that name a collection; the order of statuses is log 17. -/
def commonCheck (s : State) (r : Nat) (e : BitVec 512) : Option Refused :=
  let x := ring s r
  let op := opOf e
  let j := ctxJob s x.ctx
  let y := coll s (eColl e)
  refuseIf (headerBad x e) .invalidField <|>
  refuseIf (op ≥ 0x10 && (y.state == .free || y.job != j || y.deleting)) .invalidField <|>
  refuseIf (s.aon.oos || anyOos s (needsPtns s x.ctx op (eColl e))) .outOfService <|>
  refuseIf (op ≥ 0x10 && y.state == .suspect) .uncorrectable <|>
  refuseIf (op ≥ 0x10 && op != 0x30 && anyFenced s (jobPtns s j)) .fenced <|>
  (if op ≥ 0x10 && spans s j then
    refuseIf ((job? s j).any fun k => k.root != s.aon.modid) .invalidField <|>
    refuseIf ((job? s j).any fun k => !k.joined) .linkLost <|>
    refuseIf (peerDown s j) .abortedPeer
  else none)

def cacheReady (s : State) : Bool := s.host.link.cacheEn

/-- Bytes of a search's dense rows (R118, R281). -/
def denseBytes (d : Nat) (e : BitVec 512) : Nat := sNq e * d * (if sWide e then 4 else 2)

/-- Payload bytes of a command as R281 sizes them. -/
def stagedSize (s : State) (e : BitVec 512) : Nat :=
  let d := (coll s (eColl e)).d
  if opOf e = 0x10 ∨ opOf e = 0x12 then denseBytes d e
  else if opOf e = 0x11 then denseBytes d e + sNq e * 6152
  else iLen e

/-- A tag of the ring that still awaits its payload doorbell (R277). -/
def tagWaits (s : State) (r : Nat) (tag : W32) : Bool :=
  (ringLive s r).any fun c => (cmd? s c).any fun k => k.stage == .awaitPayload && k.tag == tag

/-- PAYLOAD checks: zero with TRDY; else at most 4 KB and within a readable window (R166, R269, R277). -/
def payloadBad (s : State) (r : Nat) (e : BitVec 512) (size : Nat) : Bool :=
  if eTrdy e then ePayload e != 0 || tagWaits s r (eTag e)
  else size > 4096 || !inWindow s (ring s r).ctx (ePayload e) size true false

/-- The far-rerank descriptor (R132): base, key base, rows, stride. -/
def farFields (bs : List Byte) : W64 × W64 × Nat × Nat :=
  (BitVec.ofNat 64 (field bs 0 8), BitVec.ofNat 64 (field bs 8 8), field bs 16 4, field bs 20 4)

/-- The checks of the far descriptor as pulled (R132, R284). -/
def farCheck (s : State) (ctx d : Nat) : ReadReply → Option Refused
  | .data bs =>
    let (b, _, n, t) := farFields bs
    refuseIf (n == 0 || t % 64 != 0 || decide (t < 2 * d) || !zeroAt bs 24 8 || !inWindow s ctx b.toNat (n * t) true false) .invalidField
  | .ur => some { status := .uncorrectable, cause := some 1 }
  | .ca => some { status := .uncorrectable, cause := some 2 }
  | .poison => some { status := .uncorrectable, cause := some 3 }
  | .timeout => some { status := .timeout, cause := some 4 }

/-- Response flits of one port above 4,096 (R331). -/
def tooManyFlits (s : State) (j bytes : Nat) : Bool :=
  (upto 4).any fun n => decide (((peersOf s j).filter fun m => routeOf s m == some n).length * ceilDiv (bytes + 16) 240 > 4096)

/-- Field checks of a search (R116, R117, R119, R126). -/
def searchFieldsBad (s : State) (r : Nat) (e : BitVec 512) : Bool :=
  let ctx := (ring s r).ctx
  let y := coll s (eColl e)
  let op := opOf e
  sK e == 0 || sK e > 1024 || sNq e == 0 || sNq e > 256 || (eDeadline e == (sDeadline e == 0)) || ef e 23 1 > 1 || tierBad e ||
  (if op == 0x12 then sProbe e != 0 else probeBad (sProbe e)) ||
  (if op == 0x11 then fMag (sAlpha e) == 0 && fMag (sBeta e) == 0 else sAlpha e != 0 || sBeta e != 0) ||
  (op == 0x11 && !hasSparse y) ||
  (sFilter e != 0xFF && (match (ctx? s ctx).bind fun x => tget x.filters (sFilter e) with
    | some p => filterUnfit y p
    | none => true)) ||
  (tPattern e != 0 && !customSearch s ctx (tPattern e)) ||
  (tFar e == (sFartab e == 0)) || (tFar e && !cacheReady s) ||
  payloadBad s r e (denseBytes y.d e) || !inWindow s ctx (sResult e) (sNq e * sK e * 16) false true ||
  (tFar e && !inWindow s ctx (sFartab e) 32 true false) ||
  (eSnap e != 0 && spans s (ctxJob s ctx))

/-- A snapshot outside HORIZON to LATEST (R90, R119). -/
def snapBad (y : Coll) (sn : Epoch) : Bool := sn != 0 && (precedes sn y.horizon || precedes y.latest sn)

def searchCheck (s : State) (r : Nat) (far : ReadReply) (e : BitVec 512) : Option Refused :=
  let y := coll s (eColl e)
  commonCheck s r e <|> refuseIf (searchFieldsBad s r e) .invalidField <|>
  refuseIf (snapBad y (eSnap e) || !fFinite (sAlpha e) || !fFinite (sBeta e)) .range <|>
  (if tFar e then farCheck s (ring s r).ctx y.d far else none) <|>
  refuseIf (tooManyFlits s (ctxJob s (ring s r).ctx) (32 + sNq e * listLen e * 16)) .noResource

/-- FORCE without a registered, unbroken journal or without CXL.cache (R169, R264). -/
def forceBad (s : State) (ctx : Nat) (e : BitVec 512) : Bool :=
  eForce e && (!cacheReady s || (match journal? s ctx with | some j => j.broken | none => true))

/-- Field checks of INSERT, UPSERT and DELETE (R165, R166, R169). -/
def ingestFieldsBad (s : State) (r : Nat) (e : BitVec 512) : Bool :=
  let y := coll s (eColl e)
  let op := opOf e
  iCount e == 0 || decide (iCount e > if op = 0x22 then 16384 else 4096) ||
  decide (iFmt e > if op = 0x22 then 0 else 1) ||
  (if op = 0x20 then iParts e > 1 else if op = 0x21 then iParts e == 0 || iParts e > 7 || (bit (iParts e) 2 && !hasSparse y) else iParts e != 0) ||
  ef e 22 2 != 0 || iLen e == 0 || iLen e > 2 ^ 27 || (op == 0x22 && iLen e != 8 * iCount e) || ef e 28 4 != 0 || ef e 40 24 != 0 ||
  payloadBad s r e (iLen e) || forceBad s (ring s r).ctx e || (op != 0x22 && collScaled y && !hasScales y)

def ingestCheck (s : State) (r : Nat) (e : BitVec 512) : Option Refused :=
  commonCheck s r e <|> refuseIf (ingestFieldsBad s r e) .invalidField

def flushCheck (s : State) (r : Nat) (e : BitVec 512) : Option Refused :=
  commonCheck s r e <|> refuseIf (e.toNat / 2 ^ 128 != 0 || forceBad s (ring s r).ctx e) .invalidField

/-- The newest epoch that holds a commit (R178). -/
def newestCommit (y : Coll) : Epoch := if y.openCommits > 0 then openEpoch y else y.latest

def queryCheck (s : State) (r : Nat) (e : BitVec 512) : Option Refused :=
  let w := BitVec.ofNat 32 (ef e 16 4)
  commonCheck s r e <|> refuseIf (ef e 20 44 != 0) .invalidField <|>
  refuseIf (w != 0 && precedes (newestCommit (coll s (eColl e))) w) .range

/-- BULK_LOAD (R165, R168, R169). -/
def bulkCheck (s : State) (r : Nat) (e : BitVec 512) : Option Refused :=
  let y := coll s (eColl e)
  commonCheck s r e <|>
  refuseIf (iCount e == 0 || iCount e > 1048576 || iFmt e > 2 || ef e 21 11 != 0 || ePayload e % 4096 != 0 || bLen e == 0 ||
    ef e 48 16 != 0 || !inBulk s (ring s r).ctx (ePayload e) (bLen e) || (collScaled y && !hasScales y)) .invalidField

/-- Bytes of a FORMAT 2 record without its sparse part (R192). -/
def encodedSize (y : Coll) : Nat :=
  32 + 32 * ceilDiv ((if collScaled y then 0 else scaleSize y) + coordN y / 2 * (if twoTier y then 2 else 1)) 32
/-- The largest FORMAT 2 record of a collection: a sparse record holds up to 512 terms (R167, R192). -/
def encodedMax (y : Coll) : Nat := encodedSize y + (if hasSparse y then 32 * ceilDiv (8 + 4 * 512) 32 else 0)

/-- The snapshot of an EXPORT: its own, its cursor's, or the latest (R190, R191). -/
def exportSnap (s : State) (e : BitVec 512) : Epoch :=
  if eSnap e ≠ 0 then eSnap e
  else if xCursor e ≠ 0 then BitVec.ofNat 32 (bits (xCursor e).toNat 63 32) else (coll s (eColl e)).latest

def exportCheck (s : State) (r : Nat) (e : BitVec 512) : Option Refused :=
  let y := coll s (eColl e)
  let cs := BitVec.ofNat 32 (bits (xCursor e).toNat 63 32)
  commonCheck s r e <|>
  refuseIf (iCount e < 64 || iCount e > 1048576 || iFmt e != 2 || ef e 21 11 != 0 || ePayload e % 64 != 0 ||
    decide (bLen e < 64 + 64 * encodedMax y) || ef e 56 8 != 0 || !inWindow s (ring s r).ctx (ePayload e) (bLen e) false true ||
    (xCursor e != 0 && eSnap e != 0 && eSnap e != cs)) .invalidField <|>
  refuseIf (snapBad y (exportSnap s e)) .range

def plainCheck (s : State) (r : Nat) (e : BitVec 512) : Option Refused := commonCheck s r e

/-! ### Reservations (R293–R296) -/

/-- Pool amounts of a search, in the order of R293; z is the sum of the rows' sparse counts, m the modules at the root. -/
def searchHolds (ps : List Nat) (e : BitVec 512) (selconf z m k : Nat) : List Hold :=
  let wp := if opOf e = 0x12 then listLen e else refineDepth e + 16
  ps.map (fun p => { pool := .rowFold p, amount := laneSize selconf }) ++
  ps.map (fun p => { pool := .ptnFold p, amount := wp * (sNq e + z) }) ++
  [{ pool := .devFold, amount := sNq e * listLen e * m }, { pool := .resultBuf, amount := sNq e * k }]

/-- The amounts of a command of a context's job, with z sparse terms; the root of a job counts its modules (R293). -/
def ctxHolds (s : State) (ctx : Nat) (e : BitVec 512) (z : Nat) : List Hold :=
  searchHolds (jobPtns s (ctxJob s ctx)) e (phSelconf (patternHeader s ctx (searchPattern e))) z
    (match job? s (ctxJob s ctx) with | some j => j.modules | none => 1) (sK e)

def isRowHold (h : Hold) : Bool := match h.pool with | .rowFold _ => true | _ => false

/-- The amounts that a ring's command takes before it goes on: of a SEARCH_HYBRID those of the row folds, the next in the order depending on terms that
its payload gives (R282, R293, R294; log 19). -/
def entryHolds (s : State) (r : Nat) (e : BitVec 512) : List Hold :=
  if isSearch (opOf e) then
    let hs := ctxHolds s (ring s r).ctx e 0
    if opOf e = 0x11 then hs.filter isRowHold else hs
  else []

def entrySlots (e : BitVec 512) : Nat := if eTrdy e then 2 else 1
def entryGranules (s : State) (e : BitVec 512) : Nat := if eTrdy e then ceilDiv (stagedSize s e) 65536 else 0

/-- The lowest run of n free granules of a partition's pool (R281). -/
def freeRun (s : State) (p n : Nat) : Option Granules :=
  let used := s.host.granules.filter (·.ptn == p)
  ((upto (2049 - n)).find? fun g => used.all fun u => u.first + u.count ≤ g || g + n ≤ u.first).map fun g =>
    { ptn := p, first := g, count := n }

/-- What a command waits for: slots of its ring, granules of its home, an amount of a pool (R293). -/
inductive Want where
  | slots
  | granules
  | pool (q : Pool)
  deriving DecidableEq, Repr

/-- What a waiting head command lacks first, in the order of R293. -/
def lacks (s : State) (r : Nat) (e : BitVec 512) : Option Want :=
  let x := ring s r
  if x.heldSlots < entrySlots e then some .slots
  else if entryGranules s e > 0 && x.granules.isNone then some .granules
  else ((entryHolds s r e).find? fun h => !(x.holding.contains h)).map fun h => .pool h.pool

/-- A senior command ahead of one of seniority `me` waits for an amount that lies in a partition: the head of a ring, or a search that takes the
rest of its amounts (R296). -/
def seniorBars (s : State) (me : Option Nat) (home : Nat) (q : Want) : Bool :=
  let ahead := fun k : Nat => match me with | some m => decide (k < m) | none => true
  s.host.rings.any (fun (r, x) => match x.senior, x.fetched with
    | some k, e :: _ => ahead k && lacks s r e == some q && (q != .granules || ctxHome s x.ctx == home)
    | _, _ => false) ||
  s.cmds.any fun (_, x) => match x.senior, x.lacking with
    | some k, h :: _ => ahead k && x.stage == .reading && q == .pool h.pool
    | _, _ => false

/-- Completion slots, then granules, then the pools in order; what is taken stays taken while it waits (R294). -/
def takePools (r : Nat) : List Hold → State → State × Bool
  | [], s => (s, true)
  | h :: t, s =>
    if (ring s r).holding.contains h then takePools r t s
    else if seniorBars s (ring s r).senior 0 (.pool h.pool) || decide (poolUsed s h.pool + h.amount > poolSize h.pool) then (s, false)
    else takePools r t (updRing r (fun x => { x with holding := x.holding ++ [h] }) (takePool h s))

def takeGranules (r : Nat) (e : BitVec 512) (s : State) : State × Bool :=
  let n := entryGranules s e
  if n = 0 || (ring s r).granules.isSome then (s, true)
  else if seniorBars s (ring s r).senior (ctxHome s (ring s r).ctx) .granules then (s, false)
  else match freeRun s (ctxHome s (ring s r).ctx) n with
    | none => (s, false)
    | some g => (updRing r (fun x => { x with granules := some g }) (updHost (fun h => { h with granules := g :: h.granules }) s), true)

def takeSlots (r n : Nat) (s : State) : State × Bool :=
  let x := ring s r
  if x.heldSlots ≥ n then (s, true)
  else if freeSlots x + x.heldSlots < n then (s, false)
  else (setRing r { x with reserved := x.reserved + (n - x.heldSlots), heldSlots := n } s, true)

def reserve (r : Nat) (e : BitVec 512) (s : State) : State × Bool :=
  match takeSlots r (entrySlots e) s with
  | (s, false) => (s, false)
  | (s, true) => match takeGranules r e s with
    | (s, false) => (s, false)
    | (s, true) => takePools r (entryHolds s r e) s

/-- The response flits that a search needs on one port are more than its buffers hold (R331). -/
def responseOver (s : State) (j : Nat) (e : BitVec 512) : Bool :=
  isSearch (opOf e) && (upto 4).any fun n => decide (((peersOf s j).filter fun m => routeOf s m == some n).length * responseFlits e > 4096)

/-- An amount above its pool's whole size (R295, R331). -/
def neverFits (s : State) (r : Nat) (e : BitVec 512) : Bool :=
  responseOver s (ctxJob s (ring s r).ctx) e || entryGranules s e > 2048 ||
    (isSearch (opOf e) && (ctxHolds s (ring s r).ctx e 0).any fun h => decide (h.amount > poolSize h.pool))

/-- The amounts that a command still lacks, in the order of R293: what is free is taken, and kept while it waits for the rest (R294). -/
def takeLacking (c : Nat) : List Hold → State → State × Bool
  | [], s => (updCmd c (fun x => { x with senior := none }) s, true)
  | h :: t, s =>
    if seniorBars s ((cmd? s c).bind (·.senior)) 0 (.pool h.pool) || decide (poolUsed s h.pool + h.amount > poolSize h.pool) then (s, false)
    else takeLacking c t (updCmd c (fun x => { x with lacking := t, holds := x.holds ++ [h] }) (takePool h s))

/-- What a waiting head command holds goes back. -/
def releaseHeld (r : Nat) (s : State) : State :=
  let x := ring s r
  updRing r (fun x => { x with holding := [], granules := none, senior := none, reserved := x.reserved - x.heldSlots, heldSlots := 0 })
    (freeGranules x.granules (freePools x.holding s))

/-! ### Completions on a ring -/

/-- The vector of a ring is sent and its counts restart (R285). -/
def sendRingVec (r : Nat) (s : State) : State :=
  sendVec (ring s r).vector (updRing r (fun x => { x with sinceMsg := 0, ctimeOn := false }) s)

/-- A completion entry written at the completion tail, and the message it triggers (R272, R285, R289). -/
def writeCompletion (r : Nat) (c : Option Nat) (intr : Bool) (bytes : Bool → List Byte) (s : State) : State :=
  let x := ring s r
  let s := postWrite { kind := .completion r c, addr := x.cqBase + BitVec.ofNat 64 (32 * x.cqTail), bytes := bytes x.phase } s
  let wraps := x.cqTail + 1 == x.size
  let s := setRing r { x with
    cqTail := if wraps then 0 else x.cqTail + 1, phase := if wraps then !x.phase else x.phase
    reserved := x.reserved - 1, sinceMsg := x.sinceMsg + 1, ctimeOn := x.ctime != 0 } s
  if intr || (x.ccount != 0 && x.sinceMsg + 1 ≥ x.ccount) then sendRingVec r s else s

/-! ### Taking up a command -/

/-- A new command record, numbered. -/
def addCmd (x : Cmd) (s : State) : State := { setCmd s.nextCmd x s with nextCmd := s.nextCmd + 1 }

/-- A context, or one that has nothing. -/
def ctxOr (s : State) (c : Nat) : Ctx := (ctx? s c).getD { job := 0, home := 0 }

/-- A command as it is admitted, with the tables of its context as they stand (R9). -/
def newCmd (s : State) (r : Nat) (e : BitVec 512) : Cmd :=
  let ctx := (ring s r).ctx
  { ring := r, ctx := ctx, job := ctxJob s ctx, home := ctxHome s ctx, entry := e, opcode := opOf e, coll := eColl e, tag := eTag e
    hwins := (ctxOr s ctx).hwins, mwins := (ctxOr s ctx).mwins, shares := (ctxOr s ctx).shares }

/-- The head entry leaves the fetch buffer. -/
def popHead (r : Nat) (s : State) : State := updRing r (fun x => { x with fetched := x.fetched.drop 1 }) s

/-- The head command is refused: one completion slot, its status fixed, nothing else held (R119, R169, R295, R297). -/
def refuseHead (r : Nat) (e : BitVec 512) (f : Refused) (s : State) : State :=
  let s := releaseHeld r s
  match takeSlots r 1 s with
  | (s, false) => s
  | (s, true) =>
    let code := f.cause.map fun c => hostFault 0x71 c (some r)
    let s := match code with | some k => postFault k (noteAer (f.cause.getD 0) s) | none => s
    let s := updRing r (fun x => { x with heldSlots := 0 }) s
    popHead r (addCmd { newCmd s r e with admitted := false, status := f.status, count := f.count, fault := code.getD 0 } s)

/-- Partitions whose exit to FORGE an admitted command starts (R287, R392). -/
def demandAll (ps : List Nat) (s : State) : State := ps.foldl (fun s p => demand p s) s

/-- The head command is admitted with what the ring holds for it; `shape` completes the record (R293, R351). -/
def admitHead (r : Nat) (e : BitVec 512) (shape : State → Cmd → Cmd) (s : State) : State :=
  let x := ring s r
  let k := { newCmd s r e with
    holds := x.holding, granules := x.granules, slots := x.heldSlots, stage := .running
    admitCyc := (ptn s (ctxHome s x.ctx)).cycles.toNat }
  let s' := updRing r (fun y => { y with heldSlots := 0, holding := [], granules := none, senior := none }) s
  demandAll (needsPtns s x.ctx (opOf e) (eColl e)) (popHead r (addCmd (shape s k) s'))

/-- The TRDY completion of a command just admitted (R279). -/
def postTrdy (r : Nat) (e : BitVec 512) (g : Option Granules) (s : State) : State :=
  match eTrdy e, g with
  | true, some g => writeCompletion r none (eIntr e) (fun ph => trdyBytes (eTag e) ph (2048 * g.ptn + g.first) g.count (ring s r).sqHead) s
  | _, _ => s

/-- The head of a ring met by an admission command of an opcode: nothing where it is not that opcode's turn; a refusal; a wait with
what could be taken; or admission (R119, R169, R294, R295). An undefined opcode is refused by whichever comes (log 18). -/
def admitNext (r op : Nat) (check : State → Nat → BitVec 512 → Option Refused) (shape : State → Cmd → Cmd) (after : Nat → State → State)
    (s : State) : State :=
  match (ring s r).fetched with
  | [] => s
  | e :: _ =>
    if !mayAdmit s r e then s
    else if (permitted (opOf e)).isNone then refuseHead r e { status := .invalidField } s
    else if opOf e ≠ op then s
    else match check s r e with
      | some f => refuseHead r e f s
      | none =>
        if neverFits s r e then refuseHead r e { status := .noResource } s
        else match reserve r e s with
          | (s, false) => s
          | (s, true) => after s.nextCmd (postTrdy r e (ring s r).granules (admitHead r e shape s))

end Sys2Proof.Machine
end

