-- ==== Sys2Proof/Machine/Waiters.lean ====
section
/-! DEFINITION. Commands that wait on others: FENCE (R276), FLUSH (R179), EPOCH_QUERY (R178); journal space (R182); the way of a
batch from its append to the commit queue (R89, R173, R341). -/

namespace Sys2Proof.Machine

/-- A FLUSH may end: every covered command and the earlier FLUSH completed, the last covered commit's epoch closed (R179). -/
def flushReady (s : State) (x : Cmd) : Bool :=
  x.covers.all (completed s) && (x.cursor == 0 || completed s x.cursor.toNat) &&
  (x.waitFor == 0 || epochLe x.waitFor (coll s x.coll).latest)

/-- A mark record (R181). -/
def markRecord (s : State) (x : Cmd) (jsn : Nat) : List Byte :=
  recordHeader 4 0 x.coll x.tag.toNat (coll s x.coll).latest.toNat 0 jsn x.ctx 0 x.csn []

/-- The outcome of a FLUSH (R177). -/
def flushOutcome (s : State) (x : Cmd) : Cmd :=
  { x with stage := .final, count := x.coveredOk, epoch := (coll s x.coll).latest }

/-- A FLUSH that is ready ends, or with FORCE writes its mark once there is journal space (R179, R182). -/
def endFlush (c : Nat) (x : Cmd) (s : State) : State :=
  if !eForce x.entry then updCmd c (flushOutcome s) s
  else match (journal? s x.ctx).bind (reserveJournal c (recordLen 0)) with
    | none => updCmd c (fun k => { k with stage := .journalWait }) s
    | some j => updCmd c (fun k => { k with stage := .committed })
        (writeRecord x.ctx c (markRecord s x) (updJournal x.ctx (fun _ => j) s))

/-- One waiting command ends when what it waits for has come (R178, R179, R276). -/
def settleOne (c : Nat) (s : State) : State :=
  match cmd? s c with
  | none => s
  | some x =>
    if x.stage ≠ .waiting then s
    else if x.opcode = 0x01 then (if x.covers.all (completed s) then updCmd c (fun k => { k with stage := .final }) s else s)
    else if x.opcode = 0x28 then (if flushReady s x then endFlush c x s else s)
    else if x.opcode = 0x30 then
      (if epochLe x.waitFor (coll s x.coll).latest then updCmd c (fun k => { k with stage := .final }) s else s)
    else s

/-- What waits for a completion that has been written goes on: the commands of R178, R179 and R276, and the context kills of R354. -/
def settleWaiters (s : State) : State := endKills ((tkeys s.cmds).foldl (fun s c => settleOne c s) s)

/-! ### From append to the commit queue -/

/-- Partitions a batch writes: those of its slots and of its prepared tombstones (R89). -/
def batchPtns (s : State) (c : Nat) : List Nat :=
  match cmd? s c with
  | none => []
  | some x => (tkeys s.ptns).filter fun p =>
      x.recs.any (fun r => (r.slot.any fun q => ptnOfAddr q.brick == p) || (r.spillSlot.any fun q => ptnOfAddr q.brick == p)) ||
      (ptn s p).log.any fun e => e.2.owner == c && e.2.epoch == 0

/-- A FLUSH that is on its way covers a command (R179). -/
def flushCovers (n c : Nat) (s : State) : Bool :=
  s.cmds.any fun k => k.2.opcode == 0x28 && k.2.coll == n && liveCmd k.2 && k.2.covers.contains c

/-- The batch enters the commit queue of 64; one that no FLUSH covers yet is the next one's (R173, R179, R292). -/
def queueBatch (c : Nat) (s : State) : State :=
  match cmd? s c with
  | none => s
  | some x =>
    let y := coll s x.coll
    if y.queue.length ≥ 64 then s
    else updCmd c (fun k => { k with stage := .queued }) (updColl x.coll (fun y => { y with
      queue := y.queue ++ [c], flushBase := if y.flushBase.contains c || flushCovers x.coll c s then y.flushBase else y.flushBase ++ [c] }) s)

/-- The response of a module to a forwarded ingest phase (R332): STATUS, epoch joined, count. -/
def insertRsp (s : State) (x : Cmd) (c : Nat) (root : Nat) (st : Status) (epoch : Epoch) (count : Nat) : Msg :=
  cmdMsg s x c 3 root true ([st.code, 0, 0, 0] ++ leBytes 4 epoch.toNat ++ leBytes 4 count)

/-- The batch is ready to commit: it enters the queue; a module of a spanning job tells the root; the root waits for every
module and then sends COMMIT (R341). A batch past COMMIT that was appended again goes straight to the queue (R88). -/
def batchReady (c : Nat) (s : State) : State :=
  match cmd? s c with
  | none => s
  | some x => if x.committing then queueBatch c s else match x.origin with
    | some (root, _) => updCmd c (fun k => { k with stage := .waiting }) (sendMsg (insertRsp s x c root .ok 0 x.recs.length) s)
    | none =>
      let peers := peersOf s x.job
      if peers.isEmpty then queueBatch c s
      else if peers.all fun m => x.peersReady.contains m then
        queueBatch c (requestAllOf peers (fun d => insertFwdMsg s x c d 1) 1 (updCmd c (fun k => { k with committing := true }) s))
      else updCmd c (fun k => { k with stage := .waiting }) s

/-- The channels of a stack. -/
def allChannels : List Nat := upto 32

/-- A write-combining fence of channels of a partition asked for: the lines then in their buffers (R208). -/
def askFence (p : Nat) (why : FenceFor) (chans : List Nat) (s : State) : State :=
  updPtn p (fun x => { x with wcFences := x.wcFences ++ [{ why := why, lines := (x.wcb.map (·.line)).filter fun l => chans.contains (channelOf l) }] }) s

/-- The channels that a range of a stack lies in: 2 KB of each in turn (R194). -/
def chansOf (a n : Nat) : List Nat := (upto (min 32 ((a % 2 ^ 11 + n + 2 ^ 11 - 1) / 2 ^ 11))).map fun i => channelOf (a + 2 ^ 11 * i)

/-- The channels that a batch wrote in a partition: those of its bricks' frames, of its tombstone-log entries of 16 B and its tombstone records
(R79, R89, R92, R93). -/
def batchChans (s : State) (c p : Nat) : List Nat :=
  match cmd? s c with
  | none => []
  | some x =>
    let f := frameSize (coll s x.coll)
    let slots := (x.recs.flatMap fun r => r.slot.toList ++ r.spillSlot.toList).filter fun q => ptnOfAddr q.brick == p
    ((slots.flatMap fun q => chansOf q.brick f) ++
      ((ptn s p).log.filter fun e => e.2.owner == c && e.2.epoch == 0).flatMap fun e => chansOf (logAddr e.1) 16 ++ chansOf (tombAddr e.2.brick) 32)

/-- Every partition written is fenced before the batch is ready (R89). -/
def enterFence (c : Nat) (s : State) : State :=
  let ps := batchPtns s c
  let s := updCmd c (fun k => { k with stage := .fencing }) s
  if ps.isEmpty then batchReady c s else ps.foldl (fun s p => askFence p (.batch c) (batchChans s c p) s) s

/-- The payload bytes that a FORCE command's record carries (R181). -/
def journalLen (x : Cmd) : Nat := recordLen x.payload.length

/-- A batch appended: with FORCE its record's space is reserved first, or awaited (R182). -/
def batchAppended (c : Nat) (s : State) : State :=
  match cmd? s c with
  | none => s
  | some x =>
    if !eForce x.entry || x.origin.isSome then enterFence c s
    else match (journal? s x.ctx).bind (reserveJournal c (journalLen x)) with
      | some j => enterFence c (updJournal x.ctx (fun _ => j) s)
      | none => updCmd c (fun k => { k with stage := .journalWait }) s

/-- Commands of a context that wait for journal space try again, oldest first (R182). -/
def retrySpace (ctx : Nat) (s : State) : State :=
  (cmdsOf (fun x => x.ctx == ctx && x.stage == .journalWait) s).foldl (fun s c =>
    match cmd? s c with
    | some x => if x.opcode = 0x28 then endFlush c x s else batchAppended c s
    | none => s) s

end Sys2Proof.Machine
end

