-- ==== Sys2Proof/Machine/Ladder.lean ====
section
/-! DEFINITION. Windows and OUT_OF_SERVICE (R362–R364), fences (R352, R355), the levels L1 to L4 (R356–R359). -/

namespace Sys2Proof.Machine

/-- Bulk commands of R230. -/
def bulkClass (x : Cmd) : Bool := eHint x.entry == 1 || x.opcode == 0x12 || x.opcode == 0x40 || x.opcode == 0x41

/-! ### Windows (R362) -/

def openCount (now : W64) (w : Window) : Window :=
  { isOpen := true, count := if w.isOpen then w.count + 1 else 1, since := if w.isOpen then w.since else now }

/-- An L2 that a higher level takes over is counted there alone (R359). -/
def uncountL2 (p : Nat) (s : State) : State :=
  updAon (fun a =>
    let w := tgetD a.ptnWin p {}
    { a with ptnWin := if w.count ≤ 1 then tdel a.ptnWin p else tset a.ptnWin p { w with count := w.count - 1 } }) s
/-- One L2 of a partition counted (R362). -/
def countL2 (p : Nat) (s : State) : State := updAon (fun a => { a with ptnWin := tset a.ptnWin p (openCount a.ticks (tgetD a.ptnWin p {})) }) s
/-- One L3 counted (R362). -/
def countL3 (s : State) : State := updAon (fun a => { a with chipWin := openCount a.ticks a.chipWin }) s

/-! ### Fences (R352) -/

/-- FENCE_NOTICE body (R332). -/
def noticeBody (level mask : Nat) (code : W32) : List Byte := [BitVec.ofNat 8 level, 0] ++ leBytes 2 mask ++ leBytes 4 code.toNat

/-- FENCE_NOTICE to the other modules of the spanning job that owns p (R342, R352). -/
def fenceNotices (p level : Nat) (code : W32) (s : State) : State :=
  match (ptn s p).job with
  | none => s
  | some j => sendAll (peersOf s j) (fun d =>
      { type := 5, src := s.aon.modid, dst := d, job := j, body := noticeBody level (2 ^ p) code }) s

/-! ### OUT_OF_SERVICE of the module (R364) -/

/-- A partition fenced and held BANKED, its saved state in the stack; one that is COLD stays so, since BANKED is entered from FORGE or WARM only
(R391); one that is being reset is held when its reset ends. -/
def holdBanked (x : Ptn) : Ptn :=
  if x.service = .resetting then x
  else
    let x := { x with service := if x.service = .oos then .oos else .fenced, exiting := none, banking := none }
    if x.power = .cold then x
    else { x with power := .banked, saved := true, cached := [], hot := [], round := { x.round with running := false } }

/-- A partition in service is fenced: the other modules of its job hear of it, the BUSY commands that need it end (R342, R352, R364). -/
def fenceForOos (p : Nat) (s : State) : State :=
  fenceTicketsOf p (if (ptn s p).service = .inService then ptnChange p (fenceNotices p 0 0 s) else s)

/-- Its channels' buffers written out, the partition is held BANKED (R352, R364). -/
def bankForOos (p : Nat) (s : State) : State := updPtn p holdBanked ((ptn s p).wcb.foldl (fun s e => flushLine p e.line [] s) s)

/-- The module goes OUT_OF_SERVICE (R364): every admitted command ends so but one past COMMIT, which commits (R17, R343); every partition is fenced
and held BANKED. -/
def moduleOos (s : State) : State :=
  let s := updAon (fun a => { a with oos := true }) s
  let s := failAll (cmdsOf (fun x => liveCmd x && x.admitted) s) .outOfService 0 s
  let s := (upto 12).foldl (fun s p => fenceForOos p s) s
  (upto 12).foldl (fun s p => bankForOos p s) s

/-- One link retrain counted; the ninth in an hour takes the module out of service (R362). -/
def countRetrain (s : State) : State :=
  let s := updAon (fun a => { a with linkWin := openCount a.ticks a.linkWin }) s
  if s.aon.linkWin.count ≥ 9 ∧ !s.aon.oos then moduleOos s else s

/-! ### The steps of a fence -/

/-- The channel whose controller is the faulting unit of a code: class 0x1 CTRL, or its watchdog (R352, R356). -/
def channelFault (code : W32) : List Nat :=
  let u := bits code.toNat 27 20
  let cls := bits code.toNat 31 28
  if (cls = 1 ∨ cls = 9) ∧ 0x30 ≤ u ∧ u < 0x50 then [u - 0x30] else []
/-- The channels that step 5 of a partition's fence leaves out (R352). -/
def faultyOf (x : Ptn) : List Nat := match x.fence with | some f => f.faulty | none => []

/-- A fence joins one that runs (R225, R359): a reset's code stands before that of thermal step 4, the channels that failed are all left out,
step 4 entered again while the exit from its hold runs stops that exit, and a reset of a partition held at step 4 fences it anew. -/
def joinFence (f : FenceRec) (x : Ptn) : Ptn :=
  match x.fence with
  | some g =>
    if g.thermal ∧ !f.thermal ∧ g.step = 6 then { x with fence := some { f with faulty := g.faulty ++ f.faulty }, exiting := none }
    else { x with
      fence := some { g with thermal := g.thermal && f.thermal, memory := g.memory || f.memory, soft := f.soft
                             faulty := g.faulty ++ f.faulty, code := if f.thermal && !g.thermal then g.code else f.code }
      exiting := if f.thermal ∧ g.thermal ∧ g.step = 6 then none else x.exiting }
  | none => { x with fence := some f }

/-- A fence is due: the partition is marked, its steps follow (R352). -/
def dueFence (p : Nat) (f : FenceRec) (s : State) : State := updPtn p (joinFence { f with faulty := channelFault f.code }) s

/-- Steps 1 and 2 (R352). -/
def startFence (p : Nat) (s : State) : State :=
  match (ptn s p).fence with
  | some f =>
    if f.step = 0 then
      fenceTicketsOf p (fenceNotices p (if f.thermal then 0 else 2) f.code
        (ptnChange p (updPtn p (fun x => { x with service := .fenced, fence := some { f with step := 3 } }) s)))
    else s
  | none => s
def execFenceStart (p : Fin 12) (s : State) : Host.Outcome State Fault Refusal := .next (startFence p.val s)

/-- Ingest commands before their commit, of a collection homed in p (R187, R352 step 4). -/
def commitsPending (s : State) (p : Nat) : List Nat :=
  cmdsOf (fun x => uncommitted x && liveCmd x && x.admitted && x.stage != .final && collHome s x.coll == p) s

/-- The home's fence response: its commands complete FENCED (R353). -/
def fencedReply (h : Nat) (who : Requester) (s : State) : State := failAll (reqCmds s who) .fenced (fenceCode (ptn s h)) (answer .refused s)

/-- An access that finds no region: a read returns poison, a write is discarded, HDM_UNMAPPED (R267). -/
def unmappedAccess (acc : MemAccess) (s : State) : State :=
  let s := raise .hdmUnmapped 0 0 0 s
  match acc with
  | .read n => answer (.data (List.replicate n 0) true) s
  | .write _ _ => answer .discarded s

/-- A far request that waits when step 4 comes is answered with the fence response; a CXL.mem access finds its partition fenced (R267, R353). -/
def fencedFar (p : Nat) (q : FarReq) (s : State) : State :=
  match q.mem with | some (_, acc) => unmappedAccess acc s | none => fencedReply p q.who s

/-- Commands that an element of an ATOMIC step works for. -/
def atomCmds (s : State) (r : AtomReq) : List Nat :=
  match r.from_ with | some (p, i) => anvCmds (anvil s p i) | none => []

/-- The contexts a reset's fence kills: resident in p, or with an admitted command with work there (R355). -/
def contextsIn (s : State) (p : Nat) : List Nat :=
  (s.ctxs.filter fun c => (tget (ptn s p).resident c.1).isSome || (ctxCmds s c.1).any (hasWorkIn s p)).map (·.1)

/-- Step 4, and the write-combining fence of step 5 asked for (R352, R353, R187): what works there ends FENCED, and so do the commands whose far
requests or atomics wait there; who worked there is kept for the kills of R355. -/
def endDrain (p : Nat) (s : State) : State :=
  match (ptn s p).fence with
  | some f =>
    if f.step = 3 then
      let far := (ptn s p).farQ
      let atoms := (ptn s p).atomQ.flatMap (atomCmds s)
      let g := { f with step := 5, kills := contextsIn s p }
      let s := failAll (cmdsIn s p ++ commitsPending s p ++ atoms) .fenced f.code s
      let s := far.foldl (fun s q => fencedFar p q s) (updPtn p (fun x => { x with farQ := [], atomQ := [], fence := some g }) s)
      if f.thermal then askFence p .step4 allChannels s else askFence p .reset (allChannels.filter fun ch => !f.faulty.contains ch) s
    else s
  | none => s
def execDrainWindowEnd (p : Fin 12) (s : State) : Host.Outcome State Fault Refusal := .next (endDrain p.val s)

/-- After step 5: a reset kills its contexts, whose semaphores here are written to HBM before the controllers are reset (R217, R355), and goes on;
thermal step 4 holds the partition BANKED (R225, R355). -/
def fenceWritten (p : Nat) (s : State) : State :=
  match (ptn s p).fence with
  | some f =>
    if f.thermal then ptnChange p (updPtn p (fun x => { x with
      fence := some { f with step := 6 }, power := .banked, saved := true, cached := [], hot := []
      round := { x.round with running := false }, exiting := if x.temp.step = 4 then none else some .banked }) s)
    else
      let cs := f.kills ++ (contextsIn s p).filter fun c => !f.kills.contains c
      let held := (cs.flatMap fun c => s.ptns.flatMap fun x => tgetD x.2.holders c []).filter fun a => homePtn a == p
      let s := cs.foldl (fun s c => killForReset p c f.code s) s
      let s := held.foldl (fun s a => flushLine p (lineOf (stackOff a)) [] s) s
      updPtn p (fun x => { x with service := .resetting, fence := some { f with step := 6 } }) s
  | none => s

/-! ### Levels (R356, R357, R359) -/

/-- An L2 of partition p: counted, its level running, its fence due (R356, R362). -/
def startL2 (p : Nat) (code : W32) (memory soft : Bool) (s : State) : State :=
  let l : LadderLevel := .l2 (Fin.ofNat 12 p)
  if covered l s then s
  else
    let s := countL2 p s
    dueFence p { code := code, memory := memory, soft := soft } (startWith { level := l, last := decide ((window s p).count ≥ 3) } s)

/-- The state a chip reset leaves: the always-on domain, the pins, the TAP and the waiting commands; partitions that are OUT_OF_SERVICE stay so
(R358, R418), and the dynamic address goes (R418); what the Icern ports have put on the wire stands there. -/
def chipReset (s : State) : State :=
  { State.reset with
    pending := s.pending, aon := { s.aon with dynAddr := none }, pins := { s.pins with pwrgd := false, linkTraining := false }, jtag := s.jtag, free := s.free
    ptns := s.aon.ptnOos.foldl (fun t p => tset t p { service := .oos }) []
    icern := { ports := tmap (fun _ (p : Port) => { line := p.line }) s.icern.ports } }

/-- The next fuse is blown (R374). -/
def blowFuse (a : Aon) : Aon := { a with rollback := a.rollback + 1 }

/-- A power loss or reset while the ROM boots, before BOOT_COMPLETE: with a NEXT_RESET pending, whether the ROM has recorded the slot as
committed by then, and how many fuses it has blown, nothing fixes (R372, R374; log 85). -/
def cutRaise (s : State) : State :=
  match s.aon.nextReset with
  | none => s
  | some b =>
    if !s.pins.pwrgd || s.hearthUp || s.hearth.restarting || s.hearth.recovery then s
    else if Config.freeNat s.free % 2 = 0 then spend 2 s
    else
      let sv := (if b then s.aon.slotB else s.aon.slotA).sv
      spend 2 (updAon (fun a => { a with
        committed := b, nextReset := none, rollback := max a.rollback (min sv (a.rollback + Config.freeNat (s.free + 1))) }) s)

/-- Class 0x7 codes (R348). -/
def hearthCode (cause unit mailbox : Nat) : W32 := faultCode 7 unit 0xF (cause * 2 ^ 12 + mailbox)

/-- A trial ends on the committed slot with TRIAL_FAIL (R323). -/
def failTrial (s : State) : State := if s.aon.trial then postFault (hearthCode 3 0x88 0) (updAon (fun a => { a with trial := false }) s) else s

/-- FENCE_NOTICE to the peer of every port that is UP (R342). -/
def noticeUp (level : Nat) (code : W32) (s : State) : State :=
  ((upto 4).filter fun n => (port s n).st == .up).foldl (fun s n =>
    let m : Msg := { type := 5, src := s.aon.modid, dst := (port s n).peer, body := noticeBody level 0xFFF code }
    queueFlits n ((msgFlits m (bit s.aon.dateline.toNat n)).map fun f => { flit := f }) s) s

/-- Partitions with an L2 running. -/
def runningL2 (s : State) : List Nat := s.levels.filterMap fun v => match v.level with | .l2 p => some p.val | _ => none

/-- An L3: FENCE_NOTICE at LEVEL 3 on every UP port, counted, with the L2s that it takes over counted no more, everything reset (R342, R357, R359);
its trigger starts nothing while an L3 or L4 runs. -/
def startL3 (code : W32) (s : State) : State :=
  if covered .l3 s then s
  else
    let s := countL3 (failTrial (noticeUp 3 code s))
    let s := (runningL2 s).foldl (fun s p => uncountL2 p s) s
    startWith { level := .l3, last := decide (s.aon.chipWin.count ≥ 4) } (updLink (fun l => { l with byReset := true }) (chipReset (cutRaise s)))

/-- An L4: CYCLE_REQ_N asserted to the tray controller (R357). -/
def startL4 (s : State) : State := if covered .l4 s then s else startLevel .l4 [] (updPins (fun p => { p with cycleReq := true }) s)

/-- The anvils of a row that run a chunk of no command are free: the chunk runs again from its start (R244, R357). -/
def freeRow (row p : Nat) (s₀ : State) : State :=
  let s := chargeWhere (fun q i a => q == p && i / 36 == row && a.chunk.any fun k => k.cmd.isNone) s₀
  updPtn p (fun x => { x with anvils := x.anvils.map fun a =>
    if a.1 / 36 = row ∧ (a.2.chunk.any fun k => k.cmd.isNone) then (a.1, { usable := a.2.usable, ceCnt := a.2.ceCnt }) else a }) s

/-- An L1: commands with work in the engine are killed and re-run (R357, R247). -/
def startL1 (unit p : Nat) (s : State) : State :=
  let l : LadderLevel := .l1 unit (enginePtn unit p)
  if covered l s then s
  else freeRow unit p ((workOfEngine s unit p).foldl (fun s c => killCmd c s) (startLevel l [] s))

/-- The level that a hang or fault of an engine enters (R356). -/
def engineFault (unit p : Nat) (code : W32) (s : State) : State :=
  if 0x30 ≤ unit ∧ unit < 0x50 then startL2 p code false false s else startL1 unit p s

/-- L0 of a context, unless it runs already or the data plane resets (R356, R359). -/
def startL0 (ctx : Nat) (code : W32) (timedOut : Option Nat) (s : State) : State :=
  if covered (.l0 ctx) s then s else killContext ctx code timedOut s

/-- Units that have a progress watchdog (R350). -/
def watched (unit : Nat) : Bool := unit < 0x51 || (0x51 ≤ unit && unit ≤ 0x54) || unit == 0x60

/-- An anvil that the watchdog times: not one that waits for a pool closer to the host, for a descriptor, or stands still (R350). -/
def anvTimed (a : Anvil) : Bool := a.st == .running || a.st == .waitMem

/-- The watchdog of an engine runs (R350): it holds work that waits neither on the host, on a peer, nor on a stage closer to the host, and its
clock is not gated (R10). -/
def watchRuns (s : State) (unit p : Nat) : Bool :=
  let busy := (workOfEngine s unit p).any fun c => (cmd? s c).any fun k => !blockedCmd s c k
  if unit = 0x60 then busy
  else (ptn s p).power == .forge && (ptn s p).exiting.isNone &&
    (if unit < 0x18 then (ptn s p).anvils.any fun a => a.1 / 36 == unit && anvTimed a.2 && (a.2.chunk.isSome || !(liveLanes a.2).isEmpty) else busy)

/-- An engine makes no progress for its period (R350). -/
def execEngineWatchdog (unit : Nat) (p : Fin 12) (s : State) : Host.Outcome State Fault Refusal :=
  let q := if unit = 0x60 then 0xF else p.val
  let code := faultCode 9 unit q (1 * 2 ^ 12)
  onlyIf (watched unit && watchRuns s unit p.val) (fun s => engineFault unit p.val code (postFault code s)) s

/-- A command exceeds its limit (R351): its context is killed, it completes TIMEOUT. -/
def execCommandWatchdog (c : Nat) (s : State) : Host.Outcome State Fault Refusal :=
  onlyIf ((cmd? s c).any fun x => x.admitted && x.stage != .final && x.stage != .done && x.origin.isNone) (fun s =>
    match cmd? s c with
    | none => s
    | some x =>
      let code := faultCode 9 0x53 x.home (2 * 2 ^ 12 + x.ctx)
      startL0 x.ctx code (some c) (postFault code s)) s

/-- An engine reports its part of a context kill (R357). -/
def reportKill (ctx unit p : Nat) (s : State) : State :=
  endKills { s with levels := s.levels.map fun l => if l.level = .l0 ctx then { l with pending := l.pending.filter (· ≠ (unit, enginePtn unit p)) } else l }
def execKillDone (ctx unit : Nat) (p : Fin 12) (s : State) : Host.Outcome State Fault Refusal := .next (reportKill ctx unit p.val s)

/-- An engine accepts work again (R357). -/
def execEngineResetDone (unit : Nat) (p : Fin 12) (s : State) : Host.Outcome State Fault Refusal := .next (endLevel (.l1 unit (enginePtn unit p.val)) s)

/-- The partition that an L0's home dispatcher lies in (R357). -/
def homeOf (s : State) (ctx : Nat) : Nat := match ctx? s ctx with | some x => x.home | none => 0xF

/-- The next level over the same scope (R357). -/
def overrun (l : Level) (s : State) : State :=
  let post := fun unit p n => postFault (faultCode 9 unit p (3 * 2 ^ 12 + n * 2 ^ 8))
  match l.level with
  | .l0 ctx => l.pending.foldl (fun s e => startL1 e.1 e.2 s) (endLevel l.level (post 0x53 (homeOf s ctx) 0 s))
  | .l1 unit p =>
    let s := post unit (if unit = 0x60 then 0xF else p) 1 s
    if unit = 0x60 then startL3 (faultCode 9 unit 0xF (3 * 2 ^ 12 + 2 ^ 8)) s else startL2 p (faultCode 9 unit p (3 * 2 ^ 12 + 2 ^ 8)) false false s
  | .l2 p => startL3 (faultCode 9 0x55 p.val (3 * 2 ^ 12 + 2 * 2 ^ 8)) (post 0x55 p.val 2 s)
  | .l3 => startL4 (post 0x88 0xF 3 s)
  | .l4 => updAon (fun a => { a with l4Overrun := true }) (moduleOos (endLevel .l4 (post 0x88 0xF 4 s)))

def execLevelOverrun (level : LadderLevel) (s : State) : Host.Outcome State Fault Refusal :=
  .next (match s.levels.find? fun l => l.level == level with
    | some l => overrun l s
    | none => s)

/-- A Seam fault starts L3 (R348, R356); cause 1–3. -/
def execSeamFault (cause : Fin 4) (dir : Bool) (s : State) : Host.Outcome State Fault Refusal :=
  let code := faultCode 0xB 0x61 0xF (cause.val * 2 ^ 12 + (if dir then 1 else 0))
  onlyIf (cause.val > 0) (fun s => startL3 code (postFault code s)) s

/-- A channel controller fails (R221, R356): class 0x1 cause CTRL, L2 of the partition. -/
def execCtrl (p : Fin 12) (ch : Fin 32) (s : State) : Host.Outcome State Fault Refusal :=
  let code := faultCode 1 (0x30 + ch.val) p.val (ch.val * 2 ^ 11 + 4 * 2 ^ 6)
  .next (startL2 p.val code true false (postFault code s))

/-- A counting window closes (R362). -/
def closeWindow : WindowId → Aon → Aon
  | .partition p, a => { a with ptnWin := tdel a.ptnWin p.val }
  | .links, a => { a with linkWin := {} }
  | .chip, a => { a with chipWin := {} }
def execWindowExpire (w : WindowId) (s : State) : Host.Outcome State Fault Refusal := .next (updAon (closeWindow w) s)

end Sys2Proof.Machine
end

