-- ==== Sys2Proof/Machine/Payload.lean ====
section
/-! DEFINITION. Payloads: search rows (R118), ingest records (R167, R168, R192), their checks (R119, R169, R277) and the encoding
of records (R22, R25–R33, R44), the clip windows (R30). -/

namespace Sys2Proof.Machine

/-- A dense element of a payload as fp32. -/
def readElem (wide : Bool) (bs : List Byte) (o : Nat) : F32 :=
  if wide then BitVec.ofNat 32 (field bs o 4) else ofBf16 (BitVec.ofNat 16 (field bs o 2))
def elemSize (wide : Bool) : Nat := if wide then 4 else 2
def readRow (wide : Bool) (d : Nat) (bs : List Byte) (o : Nat) : List F32 := (upto d).map fun i => readElem wide bs (o + elemSize wide * i)

/-- A row the collection accepts: finite, and for COS of nonzero squared norm (R20). -/
def rowBad (cos : Bool) (x : List F32) : Bool := x.any (fun v => !fFinite v) || (cos && fMag (normFixed x) == 0)

/-! ### Sparse parts (R118) -/

def align8 (o : Nat) : Nat := 8 * ceilDiv o 8
/-- z of the sparse part at offset o, and the offset after it. -/
def sparseZ (bs : List Byte) (o : Nat) : Nat := field bs o 2
def sparseEnd (bs : List Byte) (o : Nat) : Nat := align8 (o + 8 + 6 * sparseZ bs o)
def sparseTerms (bs : List Byte) (o : Nat) : List (Nat × Bf16) :=
  let z := sparseZ bs o
  (upto z).map fun i => (field bs (o + 8 + 4 * i) 4, BitVec.ofNat 16 (field bs (o + 8 + 4 * z + 2 * i) 2))

/-- Whether a list rises strictly. -/
def rises : List Nat → Bool
  | a :: b :: t => decide (a < b) && rises (b :: t)
  | _ => true

def termsBad (ts : List (Nat × Bf16)) : Bool := !rises (ts.map (·.1)) || ts.any fun t => t.1 ≥ 2 ^ 21
def weightOrd (w : Bf16) : Int := fOrd (ofBf16 w)

/-- Sparse parts of a query from offset o on: the terms of each row, or the status of the failure (R119). -/
def querySparse (bs : List Byte) : Nat → Nat → Except Status (List (List (Nat × Bf16)))
  | 0, _ => .ok []
  | n + 1, o =>
    let o := align8 o
    let ts := sparseTerms bs o
    if sparseZ bs o > 1024 ∨ !zeroAt bs (o + 2) 6 ∨ termsBad ts then .error .invalidField
    else if ts.any fun t => !fFinite (ofBf16 t.2) || decide (weightOrd t.2 ≤ 0) then .error .range
    else match querySparse bs n (sparseEnd bs o) with
      | .ok r => .ok (ts :: r)
      | .error e => .error e

/-- Bytes of a hybrid payload (R277). -/
def hybridLen (bs : List Byte) : Nat → Nat → Nat
  | 0, o => o
  | n + 1, o => hybridLen bs n (sparseEnd bs (align8 o))

/-- The rows of a search payload, or the status of the first failure (R20, R118, R119, R277); `reads` tells the host ranges that the command may
read, which a DMA payload's sparse parts must lie in too (R119, R269). -/
def searchRows (reads : Nat → Nat → Bool) (y : Coll) (e : BitVec 512) (bs : List Byte) : Except Status (List (List F32 × List (Nat × Bf16))) :=
  let rows := (upto (sNq e)).map fun i => readRow (sWide e) y.d bs (i * y.d * elemSize (sWide e))
  let dense := denseBytes y.d e
  if opOf e = 0x11 ∧ !eTrdy e ∧ (hybridLen bs (sNq e) dense > 4096 ∨ !reads (ePayload e) (hybridLen bs (sNq e) dense)) then .error .invalidField
  else if rows.any (rowBad (y.metric == 2)) then .error .range
  else if opOf e = 0x11 then
    match querySparse bs (sNq e) dense with
    | .ok ts => .ok (rows.zip ts)
    | .error st => .error st
  else .ok (rows.map fun r => (r, []))

/-! ### Ingest records (R167) -/

/-- Sizes of the parts an opcode's records carry: attributes, dense row, sparse part. -/
def recordParts (e : BitVec 512) : Nat := if opOf e = 0x21 then iParts e else 7

/-- Why a record fails, whether the completion's count names it, or the record and the offset after it (R118, R167, R169). -/
def readRecord (y : Coll) (e : BitVec 512) (bs : List Byte) (o : Nat) : Except (Status × Bool) (Rec × Nat) :=
  let pr := recordParts e
  let wide := bit (iFmt e) 0
  let key := BitVec.ofNat 64 (field bs o 8)
  let o1 := o + 8
  let attr := if bit pr 1 then BitVec.ofNat 128 (field bs o1 16) else 0
  let o2 := if bit pr 1 then o1 + 16 else o1
  let row := if bit pr 0 then readRow wide y.d bs o2 else []
  let o3 := if bit pr 0 then o2 + y.d * elemSize wide else o2
  let withSparse := hasSparse y && bit pr 2
  let o4 := align8 o3
  let ts := if withSparse then sparseTerms bs o4 else []
  let o5 := if withSparse then sparseEnd bs o4 else o3
  if o5 > bs.length ∨ key = 0xFFFFFFFFFFFFFFFF then .error (.invalidField, true)
  else if withSparse && (!zeroAt bs (o4 + 2) 6 || ts.any fun t => t.1 ≥ 2 ^ 21) then .error (.invalidField, false)
  else if withSparse && (sparseZ bs o4 > 512 || !rises (ts.map (·.1)) || ts.any fun t => !fFinite (ofBf16 t.2) || decide (weightOrd t.2 < 0)) then
    .error (.range, true)
  else if bit pr 0 && rowBad (y.metric == 2) row then .error (.range, true)
  else .ok ({ key := key, attr := attr, row := row, sparse := sparseCodes ts, parts := BitVec.ofNat 3 pr, raw := (bs.drop o).take (o5 - o) }, o5)

/-- The records of a payload in order, or the status and index of the first failure (R169); bytes left after the last record carry the index
NV (log 83); seen holds the keys so far. -/
def readRecords (y : Coll) (e : BitVec 512) (bs : List Byte) : Nat → Nat → Nat → List Key → Except (Status × Nat) (List Rec)
  | 0, o, i, _ => if o = bs.length then .ok [] else .error (.invalidField, i)
  | n + 1, o, i, seen =>
    match readRecord y e bs o with
    | .error (st, named) => .error (st, if named then i else 0)
    | .ok (r, o') =>
      if seen.contains r.key then .error (.invalidField, i)
      else match readRecords y e bs n o' (i + 1) (r.key :: seen) with
        | .ok rs => .ok (r :: rs)
        | .error f => .error f

/-- The keys of a DELETE (R168). -/
def readKeys (bs : List Byte) : Nat → Nat → List Key → Except (Status × Nat) (List Rec)
  | 0, _, _ => .ok []
  | n + 1, i, seen =>
    let k := BitVec.ofNat 64 (field bs (8 * i) 8)
    if k = 0xFFFFFFFFFFFFFFFF ∨ seen.contains k then .error (.invalidField, i)
    else match readKeys bs n (i + 1) (k :: seen) with
      | .ok rs => .ok ({ key := k, parts := 0, raw := leBytes 8 k.toNat } :: rs)
      | .error f => .error f

/-- A FORMAT 2 record (R192): codes as they are; or why it fails and whether the count names it (R169): a sparse part for a collection
without one too (log 83). -/
def readEncoded (y : Coll) (bs : List Byte) (o : Nat) : Except (Status × Bool) (Rec × Nat) :=
  let n := coordN y
  let fl := field bs (o + 26) 1
  let sc := if collScaled y then y.scales.getD {} else readScales (bs.drop (o + 32)) (groupCount y)
  let cb := o + 32 + (if collScaled y then 0 else scaleSize y)
  let nib := fun (b i : Nat) => BitVec.ofNat 4 (field bs (b + i / 2) 1 / 16 ^ (i % 2))
  let so := o + encodedSize y
  let z := field bs so 2
  let key := BitVec.ofNat 64 (field bs o 8)
  let fin := if bit fl 0 then so + 32 * ceilDiv (8 + 4 * z) 32 else so
  let words := if bit fl 0 then (upto z).map fun i => field bs (so + 8 + 4 * i) 4 else []
  if fin > bs.length ∨ key = 0xFFFFFFFFFFFFFFFF ∨ (bit fl 0 ∧ !hasSparse y) then .error (.invalidField, true)
  else if fl > 1 ∨ field bs (o + 27) 1 ≠ 0 ∨ sc.mult.contains 0 ∨ (bit fl 0 ∧ !zeroAt bs (so + 2) 2) ∨ words.any fun w => bits w 23 21 != 0 then
    .error (.invalidField, false)
  else if words.length > 512 ∨ !rises (words.map (· % 2 ^ 21)) then .error (.range, true)
  else .ok ({ key := key, attr := BitVec.ofNat 128 (field bs (o + 8) 16)
              enc := { sc with codes := (upto n).map (nib cb), refine := if twoTier y then (upto n).map (nib (cb + n / 2)) else []
                               norm := BitVec.ofNat 32 (field bs (o + 28) 4) }
              sparse := if bit fl 0 then (BitVec.ofNat 32 (field bs (so + 4) 4), words.map fun w => (w % 2 ^ 21, w / 2 ^ 24)) else (0, [])
              raw := (bs.drop o).take (fin - o) }, fin)

def readEncodedAll (y : Coll) (bs : List Byte) : Nat → Nat → Nat → List Key → Except (Status × Nat) (List Rec)
  | 0, o, i, _ => if o = bs.length then .ok [] else .error (.invalidField, i)
  | n + 1, o, i, seen =>
    match readEncoded y bs o with
    | .error (st, named) => .error (st, if named then i else 0)
    | .ok (r, o') =>
      if seen.contains r.key then .error (.invalidField, i)
      else match readEncodedAll y bs n o' (i + 1) (r.key :: seen) with
        | .ok rs => .ok (r :: rs)
        | .error f => .error f

/-! ### Encoding (R22, R25–R33) -/

/-- Transform, scales, codes and norm of a record with a dense row. -/
def encodeRec (y : Coll) (r : Rec) : Rec :=
  if r.row.isEmpty then r else
  let x := if y.metric = 2 then normalise r.row else r.row
  let t := planish y.seed y.d x
  let g := groupSize y
  let sc := if collScaled y then y.scales.getD {} else vectorScales g t
  { r with y := t, enc := encodeUnder sc g (twoTier y) t (normFixed x) }

/-- Clipped codes among the first m coordinates (R27). -/
def clipPrefix (g m : Nat) (r : Rec) : Nat :=
  ((r.y.take m).zipIdx.filter fun (v, i) => isClipped v (groupScale (lget r.enc.mult (i / g) 1) r.enc.ev) (lget r.enc.zero (i / g) 0)).length

/-- The clip counters after one encoded record, a window closing after every 2^20 codes (R30). -/
def countClips (y : Coll) (c : Nat) (r : Rec) (w : CollPtn) : CollPtn :=
  if r.y.isEmpty then w else
  let n := coordN y
  let w' := { w with encoded := w.encoded + BitVec.ofNat 64 n, clipped := w.clipped + BitVec.ofNat 64 r.enc.clipped }
  if w.winCodes + n < 2 ^ 20 then { w' with winCodes := w.winCodes + n, winClipped := w.winClipped + r.enc.clipped }
  else
    let m := 2 ^ 20 - w.winCodes
    let k := clipPrefix (groupSize y) m r
    { w' with winCodes := n - m, winClipped := r.enc.clipped - k, closedWins := w.closedWins ++ [(w.winClipped + k, c)] }

/-- Records encoded by the ingest engine of the home partition, their clips counted (R30). -/
def encodeAll (c : Nat) (recs : List Rec) (s : State) : State :=
  match cmd? s c with
  | none => s
  | some x =>
    let y := coll s x.coll
    let recs := recs.map (encodeRec y)
    let s := if collScaled y then updCollPtn x.coll x.home (fun w => recs.foldl (fun w r => countClips y c r w) w) s else s
    updCmd c (fun x => { x with recs := recs, stage := .assigning }) s

/-- Records of a spanning command split by owning module: this module's, and the parts of the others (R338, R341). -/
def splitRecs (s : State) (j : Nat) (recs : List Rec) : List Rec × Tbl (List (List Byte)) :=
  match job? s j with
  | none => (recs, [])
  | some x =>
    if x.modules ≤ 1 then (recs, []) else
    let ms := bitsOf 64 x.mask.toNat
    let owner := fun r : Rec => lget ms (keyModule r.key ms.length) 0
    (recs.filter fun r => owner r == s.aon.modid,
     (ms.filter (· ≠ s.aon.modid)).foldl (fun t m => tset t m ((recs.filter fun r => owner r == m).map (·.raw))) [])

/-! ### Work of a context in a partition (R239) -/

/-- A context has descriptors, chunks or bindings in a partition. -/
def ctxHasWork (s : State) (p ctx : Nat) : Bool :=
  let x := ptn s p
  let mine := fun l : LaneReq => (cmd? s l.cmd).any fun k => k.ctx == ctx
  x.rowQ.any (fun d => d.2.lanes.any mine) || x.chunkQ.any (fun k => k.ctx == ctx) ||
  x.anvils.any (fun a => a.2.lanes.any mine || a.2.chunk.any fun k => k.ctx == ctx) || x.saves.any fun v => v.2.ctx == ctx && !v.2.anvils.isEmpty

/-- A context that gains work is idle no longer; one that is not resident waits for residency from then on (R252). -/
def noteWork (ctx : Nat) (x : Ptn) : Ptn :=
  { x with idleList := x.idleList.filter (· ≠ ctx)
           waiting := if (tget x.resident ctx).isSome then x.waiting else x.waiting.filter (· ≠ ctx) ++ [ctx]
           waitedLong := x.waitedLong.filter (· ≠ ctx) }

/-- A context that gains work after having none takes the smallest virtual time of those that have work, if its own is smaller. -/
def gainWork (p ctx : Nat) (s : State) : State :=
  if ctxHasWork s p ctx then s
  else
    let s := updPtn p (noteWork ctx) s
    let vt := fun c => tgetD (ptn s p).vtime c 0
    match minBy vt ((s.ctxs.map (·.1)).filter (ctxHasWork s p)) with
    | some c => updPtn p (fun x => { x with vtime := tset x.vtime ctx (max (vt ctx) (vt c)) }) s
    | none => s

/-- A chunk enters a partition's chunk queue, assignment first, then the other kinds in order (R242). -/
def queueChunk (p : Nat) (k : Chunk) (s : State) : State :=
  updPtn p (fun x =>
    let before := fun q : Chunk => q.kind ≤ k.kind
    { x with chunkQ := x.chunkQ.filter before ++ [k] ++ x.chunkQ.filter (fun q => !before q) }) (gainWork p k.ctx s)

/-- The records of an ingest payload under an entry's opcode and FORMAT, or the status and index of the first failure (R169). -/
def readIngest (y : Coll) (e : BitVec 512) (bs : List Byte) : Except (Status × Nat) (List Rec) :=
  if opOf e = 0x22 then readKeys bs (iCount e) 0 []
  else if opOf e = 0x40 ∧ iFmt e = 2 then readEncodedAll y bs (iCount e) 0 0 []
  else readRecords y e bs (iCount e) 0 0 []

/-- The records read of FORMAT 2, the first of them whose source had other parameters named by the command: the format says nothing of its source, so
that its finding is the command's (R169, R189; log 72). -/
def foreignAt (e : BitVec 512) (foreign : Option Nat) (r : Except (Status × Nat) (List Rec)) : Except (Status × Nat) (List Rec) :=
  match foreign, r with
  | some i, .ok rs => if iFmt e = 2 ∧ i < rs.length then .error (.invalidField, i) else r
  | some i, .error (_, j) => if iFmt e = 2 ∧ i < j then .error (.invalidField, i) else r
  | none, _ => r

/-- The payload of an ingest command read: failures complete it, records are encoded and queued for assignment (R169). -/
def takeIngest (c : Nat) (foreign : Option Nat) (bs : List Byte) (s : State) : State :=
  match cmd? s c with
  | none => s
  | some x =>
    match foreignAt x.entry foreign (readIngest (coll s x.coll) x.entry bs) with
    | .error (st, i) => updCmd c (fun x => if x.status = st then { x with count := i } else x) (failCmd c st 0 s)
    | .ok recs =>
      let (mine, parts) := if x.origin.isNone then splitRecs s x.job recs else (recs, [])
      let s := updCmd c (fun x => { x with payload := bs, parts := parts }) s
      forwardCmd c (queueChunk x.home { kind := assignKind x, ctx := x.ctx, cmd := some c } (encodeAll c mine s))

/-- The amounts of a SEARCH_HYBRID behind those of the row folds, its terms known (R293, R294; log 19). -/
def hybridHolds (s : State) (x : Cmd) (z : Nat) : List Hold := (ctxHolds s x.ctx x.entry z).filter fun h => !isRowHold h

/-- A search holds every amount: its rows are planished and encoded (R34). -/
def startRows (c : Nat) (bs : List Byte) (rows : List (List F32 × List (Nat × Bf16))) (s : State) : State :=
  match cmd? s c with
  | none => s
  | some x =>
    let y := coll s x.coll
    let enc := rows.zipIdx.map fun (r, i) =>
      { encodeRow (s.free + i * planishChoices y.d) y.seed y.d (y.metric == 2) (sWide x.entry) r.1 with terms := r.2 }
    let s := updCmd c (fun x => { x with payload := bs, rows := enc, stage := .running }) s
    forwardCmd c (spend (rows.length * planishChoices y.d) s)

/-- The payload of a search read: value failures complete it before probing; rows are planished and encoded (R34, R119). -/
def takeSearch (c : Nat) (bs : List Byte) (s : State) : State :=
  match cmd? s c with
  | none => s
  | some x =>
    let y := coll s x.coll
    match searchRows (fun a n => x.origin.isSome || rangeIn x.hwins a n true false) y x.entry bs with
    | .error st => failCmd c st 0 s
    | .ok rows =>
      if x.opcode ≠ 0x11 ∨ x.origin.isSome then startRows c bs rows s
      else
        let hs := if x.lacking.isEmpty then hybridHolds s x (rows.foldl (fun n r => n + r.2.length) 0) else x.lacking
        if hs.any fun h => decide (h.amount > poolSize h.pool) then failCmd c .noResource 0 s
        else match takeLacking c hs (updCmd c (fun x => { x with lacking := hs }) s) with
          | (s, true) => startRows c bs rows s
          | (s, false) => s

/-- The payload of a command as it was read. -/
def takePayload (c : Nat) (bs : List Byte) (s : State) : State :=
  match cmd? s c with
  | none => s
  | some x => if isSearch x.opcode then takeSearch c bs s else takeIngest c none bs s

end Sys2Proof.Machine
end

