-- ==== Sys2Proof/Machine/Version.lean ====
section
/-! DEFINITION. What a snapshot scans: list versions (R100), the loose segment (R110, R112), exact scans (R139). -/

namespace Sys2Proof.Machine

/-- The bricks of a list's version at a snapshot: the record's chain runs on by NEXT behind the cut (R84, R100, R107). -/
def versionBricks (l : Leaf) (sn : Epoch) : List Nat :=
  match l.retiring with
  | some r => if precedes sn r.epoch then r.run ++ r.chain ++ l.chain else l.run ++ l.chain
  | none => l.run ++ l.chain

/-- Whether a snapshot scans lists, and whether it scans the loose segment (R112). -/
def scansLists (y : Coll) (sn : Epoch) : Bool :=
  (y.state == .redistributing || y.state == .trained) && epochLe y.trainEp sn
def scansLoose (y : Coll) (sn : Epoch) : Bool :=
  !scansLists y sn || y.state == .redistributing || precedes sn y.doneEp

/-- The loose bricks of a partition that a snapshot scans. -/
def looseAt (y : Coll) (p : Nat) (sn : Epoch) : List Nat := if scansLoose y sn then (collPtn y p).loose else []

/-- Every brick that a snapshot's version holds in a partition, in order (R139, R190). -/
def bricksAt (y : Coll) (p : Nat) (sn : Epoch) : List Nat :=
  (if scansLists y sn then (listsOf y p).flatMap fun l => versionBricks (leaf y l) sn else []) ++ looseAt y p sn

/-- Lanes a binding may hold (R52, R77, R127): for a custom pattern as many as its header, its selector configuration and R77's 16,384
bytes of query codes allow (log 45). -/
def maxLanes (s : State) (ctx pat ver : Nat) (two : Bool) (y : Coll) : Nat :=
  if pat < 0x100 then min 16 (16384 / coordN y)
  else
    let h := verHeader s ctx pat ver
    let m := if phLanes h = 0 then 16 else phLanes h
    max 1 (min (min m (laneCount (phSelconf h))) ((if two then 8192 else 16384) / coordN y))

/-- Bricks of one binding when a lane's depth exceeds its capacity, so that it never sees more candidates than it can hold (R129, R151). -/
def bindingBricks (s : State) (ctx pat ver : Nat) (e : BitVec 512) : Nat :=
  let cap := laneSize (phSelconf (verHeader s ctx pat ver))
  if laneDepth e pat > cap then max 1 (cap / 64) else 2 ^ 20

/-- Bricks of a chunk: at most 256, and no more than a binding covers (R129, R242). -/
def chunkBricks (s : State) (x : Cmd) (pat : Nat) : Nat := min 256 (bindingBricks s x.ctx pat x.patVer x.entry)

/-- The anvil row of a brick (R129). -/
def brickRow (b : Nat) : Nat := 3 * (b / 2 ^ 11 % 32) / 4

/-- The row where a descriptor goes: its own, or the nearest within two rows when its own holds more than 64, the lower of two as near (R129; log 83). -/
def placeRow (s : State) (p b : Nat) : Nat :=
  let r := brickRow b
  let load := fun i => ((ptn s p).rowQ.filter fun d => d.1 == i).length
  if load r ≤ 64 then r
  else (([r - 1, r + 1, r - 2, r + 2].filter (· < 24)).find? fun i => load i < load r).getD r

/-- The lane list of the rows of a command, cut to bindings of n lanes. -/
def laneGroups (c rows n : Nat) : List (List LaneReq) :=
  chunksOf n rows ((upto rows).map fun i => { cmd := c, row := i })

/-- A probe that has nothing to do. -/
def emptyProbe : Probe := { looseIssued := true, ended := true, refineStarted := true, fused := true, sent := true }

/-- The chunks of an exact scan: at most 256 bricks each, as many as a lane's depth allows, every partition of the job; none where t_stop has come (R136, R139, R242). -/
def startExact (c : Nat) (s : State) : State :=
  match cmd? s c with
  | none => s
  | some x =>
    let y := coll s x.coll
    let groups := laneGroups c x.rows.length (maxLanes s x.ctx 3 0 (tTwoLimb x.entry) y)
    let ps := jobPtns s x.job
    let total := ps.foldl (fun n p => n + (bricksAt y p x.snap).length) 0
    let n := chunkBricks s x 3
    let s := updCmd c (fun x => { x with scanned := total, rows := x.rows.map fun r => { r with
      descended := true, probes := ps.map fun p => (p, if x.stopped || (bricksAt y p x.snap).isEmpty then emptyProbe else { looseIssued := true, ended := true }) } }) s
    if x.stopped then s
    else match turnedAway s (ps.filter fun p => !(bricksAt y p x.snap).isEmpty) with
    | some code => failCmd c .fenced code s
    | none => ps.foldl (fun s p =>
      let bs := bricksAt y p x.snap
      groups.foldl (fun s g =>
        (chunksOf n bs.length bs).foldl (fun s part =>
          queueChunk p { kind := 3, ctx := x.ctx, cmd := some c, bricks := part.map fun b =>
            { brick := b, kind := 0, coll := x.coll, snap := x.snap, sieve := sFilter x.entry, lanes := g, pattern := 3 } } s) s) s) s

/-- What follows the reading of a payload: an exact scan's chunks are queued; other searches go on by DESCENT_END. -/
def afterPayload (c : Nat) (s : State) : State :=
  match cmd? s c with
  | some x => if x.opcode = 0x12 ∧ x.stage = .running then startExact c s else s
  | none => s

end Sys2Proof.Machine
end

