-- ==== Sys2Proof/Machine/Patterns.lean ====
section
/-! DEFINITION. Custom patterns: the load check (R53), measurement (R54, R382), placement in pattern memory (R54, R231). -/

namespace Sys2Proof.Machine

/-! ### The load check (R53) -/

/-- A range of local addresses within an area. -/
def within (lo hi a n : Nat) : Bool := decide (lo ≤ a) && decide (a < hi) && decide (a + n ≤ hi)
/-- Scratchpad, and tile regions (R50). -/
def inPad (a n : Nat) : Bool := within 0 0xC000 a n
def inTiles (a n : Nat) : Bool := within 0xC000 0xF000 a n
/-- Areas that MOVE and STORE may read: data, tiles, selector window, readable registers (R50). -/
def readableArea (a n : Nat) : Bool :=
  inPad a n || inTiles a n || within 0xF000 0xF800 a n || within 0xF800 0xF850 a n || within 0xF880 0xF988 a n ||
  within 0xF9C0 0xF9C4 a n || within 0xF9E0 0xFA00 a n || within 0xFF00 0xFF10 a n
/-- Areas that MOVE may write. -/
def writableArea (a n : Nat) : Bool := inPad a n || inTiles a n
/-- RW control registers (R50): floors, selector configuration, lane capacities. -/
def controlArea (a n : Nat) : Bool := within 0xF940 0xF980 a n || within 0xF9C0 0xF9C4 a n || within 0xF9E0 0xFA00 a n

/-- The largest scale block: 193 B for each of 64 slots (R77). -/
def scaleBlock : Nat := 12352

/-- Fields of a step word that its op does not use are zero: count, A, B, destination, target, parameter. -/
structure Uses where
  count : Bool := false
  a : Bool := false
  b : Bool := false
  dest : Bool := false
  target : Bool := false
  /-- Bits of the parameter the op uses. -/
  param : Nat := 0
  deriving DecidableEq, Repr

def usesBad (u : Uses) (w : W128) : Bool :=
  (!u.count && stCount w != 0) || (!u.a && stA w != 0) || (!u.b && stB w != 0) || (!u.dest && stDest w != 0) ||
  (!u.target && stTarget w != 0) || (stParam w &&& (0xFFFFFFFF - u.param)) != 0

/-- What each op uses (R56); none for an undefined op. -/
def opUses (w : W128) : Option Uses :=
  let o := stOp w
  if o = 0x00 ∨ o = 0x09 ∨ o = 0x14 then some {}
  else if o = 0x01 ∨ o = 0x08 ∨ o = 0x31 then some { target := true }
  else if o = 0x02 then some { a := true, target := true }
  else if o = 0x03 then some { count := !bit (stParam w) 31, a := true, param := if bit (stParam w) 31 then 0x800000FF else 0 }
  else if o = 0x04 then some { count := true, dest := true, param := 0xFFFFFFFF }
  else if o = 0x05 then some { dest := true }
  else if o = 0x06 then some { param := 0xF }
  else if o = 0x07 then some { param := 0xFFFFFFFF }
  else if o = 0x10 then some { count := true, dest := true, param := if bit (stParam w) 27 then 0xFB000000 else 0xF000FFFF }
  else if o = 0x11 then some { a := true, count := true, dest := true, param := 0xFFFFFFFF }
  else if o = 0x12 then some { a := true, b := true, count := true, param := 0xFFFFFFFF }
  else if o = 0x13 then some { a := true, count := true, dest := bit (stParam w) 0, param := 0xF0FF0001 }
  else if o = 0x15 then some { a := true, count := true, dest := true }
  else if o = 0x20 then some { param := 0xF }
  else if o = 0x21 then some { a := true, b := true, count := true, param := if bit (stParam w) 23 then 0xFFB0FFFF else 0xFF80FFFF }
  else if o = 0x22 then some { a := true, b := true, dest := true, param := 0x03400000 }
  else if o = 0x23 then some { a := true, b := true, dest := true, param := 0x03000000 }
  else if o = 0x24 then some { a := true, b := stParam w % 16 != 2, count := true, dest := true, param := 0xF }
  else if o = 0x25 then some { a := true, b := true, count := true, dest := true }
  else if o = 0x30 then some { a := true, b := bit (stParam w) 0, param := 1 }
  else if o = 0x32 then some { a := true, b := true, param := 1 }
  else if o = 0x33 then some { param := 0xFFFF }
  else if o = 0x34 then some { param := 1 }
  else none

/-- Bytes of stored code a DOT may read at A, and after 0x1000 (R66). -/
def dotExtent (mode count : Nat) : Nat :=
  let w := if mode = 0 then 64 else if mode = 1 then 32 else 16
  (if count = 0 then 256 else 128 * count) * w

/-- The most bytes of query codes, both limbs, that the lanes of a binding hold: R77's 16,384, to which `maxLanes` keeps every binding
(log 45). -/
def codeExtent (maxLanes : Nat) : Nat := if maxLanes = 0 then 16384 else min 16384 (maxLanes * 8192)

/-- The most bytes of a query term table: a sparse part of 1,024 terms (R118; log 55). -/
def termTable : Nat := 6152

/-- Atomic codes of R214. -/
def atomicDefined (c : Nat) : Bool := (1 ≤ c && c ≤ 0x0E) || c == 0x10 || c == 0x11

/-- Codes, counter indices, rights and local ranges of a step (R53, R64–R74). Which areas an op permits beside the RW and RO column of
R50 is log 46. -/
def operandsBad (h : List Byte) (w : W128) : Bool :=
  let o := stOp w
  let n := stCount w
  let a := stA w
  let b := stB w
  let d := stDest w
  let q := stParam w
  let base := bits q 25 24
  let badBase := base != 0 && base != 2
  if o = 0x02 then a > 3
  else if o = 0x03 then a > 3 || (bit q 31 && q % 256 > 62)
  else if o = 0x04 then !controlArea d (4 * n) || d % 4 != 0 || (d == 0xF9C0 && q % 4 == 3)
  else if o = 0x05 then d != 0xF800
  else if o = 0x06 then q > 2
  else if o = 0x10 then bits q 31 28 > 9 || !inPad d (64 * n)
  else if o = 0x11 then !bit (phRights h) 0 || !inPad d (64 * n) || (a != 0 && !inPad a 4)
  else if o = 0x12 then !bit (phRights h) 1 || !readableArea b (64 * n) || (a != 0 && !inPad a 4)
  else if o = 0x13 then !bit (phRights h) 2 || !inPad a (16 * n) || !atomicDefined (bits q 23 16) || (bit q 0 && !inPad d (8 * n))
  else if o = 0x15 then !readableArea a (16 * n) || !writableArea d (16 * n)
  else if o = 0x21 then
    bits q 31 28 > 4 || bits q 27 26 > 2 || (bits q 27 26 == 2 && (bits q 31 28 == 0 || bits q 31 28 == 3)) || badBase ||
    !inPad a (dotExtent (bits q 31 28) n + (if bits q 31 28 = 4 then 0x1000 else 0)) || !inPad b (codeExtent (phLanes h)) ||
    !inPad (q % 65536) scaleBlock
  else if o = 0x22 then badBase || !inPad a scaleBlock || !inPad b 256 || d != 0xF880
  else if o = 0x23 then badBase || !inPad a scaleBlock || !inPad b 256 || !inPad d 4096
  else if o = 0x24 then
    q > 3 || (if q = 0 then !inPad a (2 * n) || !inPad b (2 * n) || !inPad d 4
      else if q = 2 then !inPad a (4 * n) || !inPad d (2 * n) else !inPad a (4 * n) || !inPad b 4 || !inPad d (4 * n))
  else if o = 0x25 then !inPad a (4224 * n) || !inPad b termTable || !inPad d (512 * n)
  else if o = 0x30 then (if q = 1 then !inPad a 1024 || !inPad b 256 else !inPad a 256)
  else if o = 0x32 then !inPad a 4096 || !inPad b 512
  else false

/-- A step that R53 refuses. -/
def stepBad (h : List Byte) (steps : Nat) (w : W128) : Bool :=
  match opUses w with
  | none => true
  | some u =>
    usesBad u w || !conditionDefined (stCond w) || ((stOp w == 0x02 || stOp w == 0x08 || stOp w == 0x09) && stCond w != 0) ||
    (u.target && stTarget w ≥ steps) || operandsBad h w

/-- The last step ends or branches without condition (R53). -/
def lastBad (w : W128) : Bool := !(stOp w == 0x09 || stOp w == 0x08 || (stOp w == 0x01 && stCond w == 0))

/-- A header outside R52. -/
def patHeaderBad (h : List Byte) (steps : Nat) : Bool :=
  let id := field h 0 2
  id < 0x100 || id > 0xFFF || field h 2 2 != steps || steps == 0 || steps > 640 || phEntry h ≥ steps || phLanes h > 16 || phClass h > 5 ||
  phRights h > 7 || field h 15 1 > 2 || !zeroAt h 16 16 || !inPad (phQcode h) (codeExtent (phLanes h)) || !inPad (phQrec h) 4096 || !inPad (phLrec h) 128

/-- The first offending step, numbered from 0; a header that fails is reported as 0 (R53, log 40). -/
def patternCheck (h : List Byte) (ws : List W128) : Option Nat :=
  if patHeaderBad h ws.length then some 0
  else match ws.findIdx? (stepBad h ws.length) with
    | some i => some i
    | none => match ws.getLast? with
      | some w => if lastBad w then some (ws.length - 1) else none
      | none => some 0

/-- The step words of an image (R55). -/
def imageSteps (bs : List Byte) : List W128 := (chunksOf 16 ((bs.drop 32).length / 16) (bs.drop 32)).map fun c => BitVec.ofNat 128 (leNat c)

/-! ### Placement (R54, R231) -/

/-- A version that some command admitted earlier still uses. -/
def verInUse (s : State) (ctx ver : Nat) : Bool :=
  !(cmdsOf (fun x => liveCmd x && x.ctx == ctx && x.patVer == ver) s).isEmpty

/-- Versions of a context that occupy pattern memory where it is resident. -/
def liveVersions (s : State) (ctx : Nat) : List Pattern :=
  match ctx? s ctx with
  | none => []
  | some x => x.patterns.map (·.2) ++ x.oldPatterns.filter fun p => verInUse s ctx p.ver

/-- A run of n free custom steps, the lowest. -/
def freeSteps (x : Ptn) (n : Nat) : Option Nat :=
  ((upto (641 - n)).find? fun i => (upto n).all fun k => (tget x.pmem (384 + i + k)).isNone).map (· + 384)

/-- A placement leaves pattern memory. -/
def unplace (n start ctx ver : Nat) (x : Ptn) : Ptn :=
  { x with placed := x.placed.filter fun t => !(t.1 == ctx && t.2.1 == ver)
           pmem := x.pmem.filter fun e => !(decide (start ≤ e.1) && decide (e.1 < start + n)) }

/-- A pattern placed in a partition, its targets relocated by the sequencer's base; none where it does not fit. -/
def placePattern (ctx : Nat) (k : Pattern) (x : Ptn) : Option Ptn :=
  if (x.placed.any fun t => t.1 == ctx && t.2.1 == k.ver) then some x
  else (freeSteps x k.steps.length).map fun st =>
    { x with placed := (ctx, k.ver, st) :: x.placed, pmem := (k.steps.zipIdx).foldl (fun t w => tset t (st + w.2) w.1) x.pmem }

/-- Placements that no version in use needs are freed (R54). -/
def purgePlaced (s : State) (p : Nat) : Ptn :=
  let x := ptn s p
  x.placed.foldl (fun x t =>
    let keep := (tget x.resident t.1).isSome && (liveVersions s t.1).any fun k => k.ver == t.2.1
    if keep then x else unplace (((patternVer s t.1 t.2.1).map fun k => k.steps.length).getD 0) t.2.2 t.1 t.2.1 x) x

/-- Every version of a context placed in a partition; none where they do not fit. -/
def placeAll (s : State) (p ctx : Nat) : Option Ptn :=
  (liveVersions s ctx).foldl (fun o k => o.bind (placePattern ctx k)) (some (purgePlaced s p))

/-- Where a version of a pattern starts in a partition's pattern memory. -/
def patternBase (x : Ptn) (ctx id ver : Nat) : Nat :=
  if id < 0x100 then ((standardPattern id).map (·.1)).getD 0
  else ((x.placed.find? fun t => t.1 == ctx && t.2.1 == ver).map (·.2.2)).getD 384

/-- Old versions that nothing uses any more are forgotten. -/
def dropOldPatterns (ctx : Nat) (s : State) : State :=
  updCtx ctx (fun x => { x with oldPatterns := x.oldPatterns.filter fun p => verInUse s ctx p.ver }) s

/-- A pattern taken out of a context's table; commands admitted earlier keep it (R54). -/
def retirePattern (ctx id : Nat) (s : State) : State :=
  dropOldPatterns ctx (updCtx ctx (fun x => match tget x.patterns id with
    | some k => { x with patterns := tdel x.patterns id, oldPatterns := k :: x.oldPatterns }
    | none => x) s)

end Sys2Proof.Machine
end

