-- ==== Sys2Proof/Machine/Anvils.lean ====
section
/-! DEFINITION. The anvil: local address space (R50), scoreboard (R59), faults (R76), charging (R239–R241), binding (R62), and the
shell that every op runs in (R55–R58). -/

namespace Sys2Proof.Machine

/-! ### The local address space (R50) -/

/-- Entries of a lane. -/
def laneEntries (a : Anvil) (l : Nat) : List Entry := lget a.sel l []
/-- ANV_SELCAP of a lane. -/
def laneCap (a : Anvil) (l : Nat) : Nat := (lget a.cap l (BitVec.ofNat 16 (laneSize a.conf.toNat))).toNat
/-- The lowest score of a list, or −∞. -/
def lowest : List Entry → F32
  | [] => fNegInf
  | e :: t => t.foldl (fun m x => fMin m x.score) e.score
/-- θ of a lane (R69). -/
def theta (a : Anvil) (l : Nat) : F32 := if (laneEntries a l).length ≥ laneCap a l then lowest (laneEntries a l) else fNegInf
/-- ANV_THFLOOR of a lane. -/
def thFloor (a : Anvil) (l : Nat) : F32 := lget a.thfloor l fNegInf
/-- θ_eff (R69). -/
def thetaEff (a : Anvil) (l : Nat) : F32 := fMax (theta a l) (thFloor a l)

/-- The auxiliary word of an entry (R159), TIES and MODULE as given. -/
def auxWord (en : Entry) (ties : Nat) : Nat :=
  min 255 ties * 2 ^ 24 + en.module % 64 * 2 ^ 16 + (if en.far then 512 else 0) + (if en.refined then 256 else 0) + en.gen.toNat * 16 + en.ptn % 16

/-- The 16 bytes of selector entry i in storage order. -/
def selBytes (a : Anvil) (i : Nat) : List Byte :=
  let n := laneSize a.conf.toNat
  match (laneEntries a (i / n))[i % n]? with
  | some e => leBytes 8 e.key.toNat ++ leBytes 4 e.score.toNat ++ leBytes 4 (auxWord e 0)
  | none => List.replicate 16 0

/-- ANV_STAT. -/
def anvStat (a : Anvil) : Nat :=
  a.ceCnt.toNat * 2 ^ 48 + a.step % 1024 * 2 ^ 32 + a.pattern % 65536 * 2 ^ 16 + (if a.ovf then 128 else 0) +
  (if a.poisoned.isEmpty then 0 else 64) + (if a.yovr then 32 else 0) + a.st.code

/-- A readable local byte. -/
def localByte (a : Anvil) (cycles : W64) (k : Nat) : Byte :=
  let reg := fun (base n : Nat) (v : Nat → Nat) => BitVec.ofNat 8 (v ((k - base) / n) / 256 ^ ((k - base) % n))
  if k < 0xF000 then lget (tgetD a.local_ (k / 64) []) (k % 64) 0
  else if k < 0xF800 then lget (selBytes a (128 * a.page.toNat + (k - 0xF000) / 16)) ((k - 0xF000) % 16) 0
  else if k < 0xF840 then lget a.wd (k - 0xF800) 0
  else if k < 0xF848 then reg 0xF840 8 fun _ => a.live.toNat
  else if k < 0xF84C then reg 0xF848 4 fun _ => a.zone.toNat
  else if k < 0xF850 then reg 0xF84C 4 fun _ => a.nancnt.toNat
  else if k < 0xF880 then 0
  else if k < 0xF900 then reg 0xF880 8 fun i => (lget a.needlo i 0).toNat
  else if k < 0xF940 then reg 0xF900 4 fun i => (theta a i).toNat
  else if k < 0xF980 then reg 0xF940 4 fun i => (thFloor a i).toNat
  else if k < 0xF988 then reg 0xF980 2 fun i => (lget a.cnt i 0).toNat
  else if k < 0xF9C0 then 0
  else if k < 0xF9C4 then reg 0xF9C0 4 fun _ => a.page.toNat * 2 ^ 16 + a.conf.toNat
  else if k < 0xF9E0 then 0
  else if k < 0xFA00 then reg 0xF9E0 2 fun i => laneCap a i
  else if k < 0xFF00 then 0
  else if k < 0xFF08 then reg 0xFF00 8 fun _ => anvStat a
  else if k < 0xFF10 then reg 0xFF08 8 fun _ => cycles.toNat
  else 0

/-- Bytes of scratchpad or tiles, granule by granule; m bounds the granules. -/
def padRead (t : Tbl (List Byte)) : Nat → Nat → Nat → List Byte
  | 0, _, _ => []
  | m + 1, k, n =>
    let here := min n (64 - k % 64)
    let g := match tget t (k / 64) with | some g => g | none => List.replicate 64 0
    if n = 0 then [] else (g.drop (k % 64)).take here ++ padRead t m (k + here) (n - here)
def scratchBytes (a : Anvil) (k n : Nat) : List Byte := padRead a.local_ (n / 64 + 2) k n
/-- Bytes of the local address space. -/
def localBytes (a : Anvil) (cycles : W64) (k n : Nat) : List Byte :=
  if k + n ≤ 0xF000 then scratchBytes a k n else (upto n).map fun i => localByte a cycles (k + i)
/-- An n-byte value of scratchpad or tiles. -/
def padNat (a : Anvil) (k n : Nat) : Nat := leNat (scratchBytes a k n)

/-- What a write leaves of a byte: tile bits [46:40] stay zero (R41). -/
def tileMask (k : Nat) (b : Byte) : Byte := if 0xC000 ≤ k ∧ (k - 0xC000) % 6 = 5 then b &&& 0x80 else b
/-- Bytes put into granules; m bounds the granules. -/
def padPut : Nat → Nat → List Byte → Tbl (List Byte) → Tbl (List Byte)
  | 0, _, _, t => t
  | m + 1, k, bs, t =>
    if bs.isEmpty then t else
    let o := k % 64
    let here := min bs.length (64 - o)
    let g := match tget t (k / 64) with | some g => g | none => List.replicate 64 0
    padPut m (k + here) (bs.drop here) (tset t (k / 64) (g.take o ++ bs.take here ++ g.drop (o + here)))
/-- Bytes written to scratchpad or tiles; a granule's poison stays until a fetch lands on it (log 47). -/
def padWrite (k : Nat) (bs : List Byte) (a : Anvil) : Anvil :=
  { a with local_ := padPut (bs.length / 64 + 2) k (bs.zipIdx.map fun (b, i) => tileMask (k + i) b) a.local_ }

/-- The granules of a local range. -/
def granulesOf (k n : Nat) : List Nat := if n = 0 then [] else (upto ((k % 64 + n + 63) / 64)).map (· + k / 64)
def touches (k n g : Nat) : Bool := n > 0 && k / 64 ≤ g && decide (g ≤ (k + n - 1) / 64)

/-! ### Outstanding steps (R59) -/

def outLines (a : Anvil) : Nat := a.outst.foldl (fun n o => n + o.lines) 0
/-- Bytes that an outstanding step will write locally. -/
def landSize (o : Outst) : Nat := if o.isStore then 0 else if o.isAtom then 8 else 64 * o.lines
/-- A fetch into the range is outstanding. -/
def fetching (a : Anvil) (k n : Nat) : Bool := a.outst.any fun o => (granulesOf k n).any (touches o.dest (landSize o))
/-- A STORE that reads the range is outstanding. -/
def storing (a : Anvil) (k n : Nat) : Bool := a.outst.any fun o => o.isStore && (granulesOf k n).any (touches o.src o.bytes.length)
/-- A poisoned granule lies in the range. -/
def padPoisoned (a : Anvil) (k n : Nat) : Bool := (granulesOf k n).any fun g => a.poisoned.contains g

/-! ### The binding's work -/

def laneRow (s : State) (l : LaneReq) : Option QRow := (cmd? s l.cmd).bind fun x => x.rows[l.row]?
/-- The first bound lane's command. -/
def leadCmd (s : State) (a : Anvil) : Option Cmd := ((liveLanes a).head?).bind (laneCmd s)
/-- The context that a binding or chunk works for. -/
def anvCtx (s : State) (a : Anvil) : Nat := match a.chunk with | some k => k.ctx | none => ((leadCmd s a).map (·.ctx)).getD 0
/-- Contexts of the lanes and of a command's chunk, each once. -/
def anvCtxs (s : State) (a : Anvil) : List Nat :=
  ((liveLanes a).filterMap fun l => (laneCmd s l).map (·.ctx)).foldl (fun acc c => if acc.contains c then acc else acc ++ [c])
    (match a.chunk with | some k => if k.cmd.isSome then [k.ctx] else [] | none => [])
/-- The header of the pattern an anvil runs. -/
def anvHeader (s : State) (a : Anvil) : List Byte := verHeader s (anvCtx s a) a.pattern (((leadCmd s a).map (·.patVer)).getD 0)
/-- Custom steps of the pattern (R54). -/
def anvSteps (s : State) (a : Anvil) : Nat :=
  if a.pattern < 0x100 then ((standardPattern a.pattern).map (·.2.1)).getD 1
  else ((patternVer s (anvCtx s a) (((leadCmd s a).map (·.patVer)).getD 0)).map fun k => k.steps.length).getD 1
/-- The manual lists the steps of CSCAN and of every custom pattern (R77; log 5). -/
def listed (a : Anvil) : Bool := a.pattern == 1 || a.pattern ≥ 0x100

/-! ### Faults (R76) -/

/-- The class 0x2 code of an anvil. -/
def anvilFault (cause p i : Nat) : W32 := faultCode 2 (i / 36) p (cause * 2 ^ 12 + i)

/-- What an anvil returns of a chunk: a probing one goes on for the rows that t_stop has not met (R136), the others whole. -/
def returned (s : State) (k : Chunk) : Option Chunk :=
  if k.start.any (·.kind != 1) then cutChunk (fun c => (cmd? s c).any (·.stopped)) (fun c => ((cmd? s c).map (·.ctx)).getD 0) k else some k
/-- A chunk returned whole to the head of its partition's queue (R244); past t_stop none is issued again (R136). -/
def returnChunk (p : Nat) (k : Chunk) (s : State) : State :=
  match returned s k with
  | some k => updPtn p (fun x => { x with chunkQ := { k with bricks := k.start } :: x.chunkQ }) s
  | none => s

/-- The anvil stops with its fault posted. -/
def stopAnvil (cause p i : Nat) (s : State) : State :=
  let code := anvilFault cause p i
  postFault code (updAnvil p i (fun a => { a with st := .stopped, preempt := false }) (chargeAnvil p i s))

/-- The binding leaves a stopped anvil. -/
def clearBinding (p i : Nat) (s : State) : State :=
  updAnvil p i (fun a => { a with lanes := [], chunk := none, desc := none, outst := [], sel := [] }) s

/-- SANDBOX 1, PART_SIZE 2, YIELD_OVERRUN 3: the contexts are killed at L0 and the custom pattern is disabled; where an
older version of a reloaded ID faults, the version now loaded under it (log 83). -/
def sandboxFault (cause p i : Nat) (s : State) : State :=
  let a := anvil s p i
  let cs := anvCtxs s a
  let s := if a.pattern < 0x100 then s
    else updCtx (anvCtx s a) (fun x => match tget x.patterns a.pattern with
      | some k => { x with patterns := tset x.patterns a.pattern { k with disabled := true } }
      | none => x) s
  let s := cs.foldl (fun s c => startL0 c (anvilFault cause p i) none s) (stopAnvil cause p i s)
  clearBinding p i s

/-- SP_UE 4: the anvil leaves the usable set, its work is re-run elsewhere (R6). -/
def spFault (p i : Nat) (s : State) : State :=
  let a := anvil s p i
  let cs := (liveLanes a).map (·.cmd)
  let s := stopAnvil 4 p i s
  let s := updPtn p (fun x => { x with usable := x.usable - 1 }) (updAnvil p i (fun a => { a with usable := false }) s)
  let s := match a.chunk with
    | some k => returnChunk p k (match k.cmd with | some c => updCmd c (fun x => { x with rerun := true }) s | none => s)
    | none => cs.foldl (fun s c => killCmd c s) s
  clearBinding p i s

/-- POISON 5: the step does not execute, the commands complete UNCORRECTABLE with this code (R220). -/
def poisonFault (p i : Nat) (s : State) : State :=
  let a := anvil s p i
  let cs := (liveLanes a).map (·.cmd) ++ (match a.chunk with | some k => k.cmd.toList | none => [])
  let s := stopAnvil 5 p i s
  clearBinding p i (failAll cs .uncorrectable (anvilFault 5 p i) s)

/-! ### The shell of an op (R55–R58) -/

/-- The anvil may issue a step. -/
def issuing (a : Anvil) : Bool := a.st == .running || a.st == .waitMem || a.st == .waitCredit || a.st == .waitDesc

/-- The slot of a lane's command in an anvil's row fold is empty (R298). -/
def laneCredit (s : State) (p i : Nat) (l : LaneReq) : Bool :=
  match laneCmd s l with
  | some x => x.rows.all fun r => r.nodes.all fun n => match n.node with
    | .row q r' => !(q.val == p && r'.val == i / 36 && !n.inputs.isEmpty)
    | _ => true
  | none => true
/-- Fold credit: every lane's command has an empty slot in the anvil's row fold (R298). -/
def foldCredit (s : State) (p i : Nat) : Bool := (liveLanes (anvil s p i)).all (laneCredit s p i)

def fetchCredit (a : Anvil) : Bool := outLines a + 16 ≤ 256

/-- The condition of a step (R57); fetch and store lines are one pool of 256 (R59; log 48). -/
def stepCondition (s : State) (p i : Nat) (w : W128) : Bool :=
  let a := anvil s p i
  condition (stCond w) a.descNone (a.zone == 1) (a.zone == 2) (a.live == 0) a.boundAny a.cnt (foldCredit s p i) (fetchCredit a) (fetchCredit a)

/-- Cycles added to the yield interval. -/
def addCycles (n p i : Nat) (s : State) : State := updAnvil p i (fun a => { a with cyc := a.cyc + n }) s
/-- The next step of the pattern. -/
def nextStep (p i : Nat) (s : State) : State := updAnvil p i (fun a => { a with step := a.step + 1, st := .running }) s
/-- The step at a target; in a pattern that is not listed the target is taken within it (log 5). -/
def goTo (t p i : Nat) (s : State) : State :=
  updAnvil p i (fun a => { a with step := a.base + (if listed a then t else t % anvSteps s a), st := .running }) s
def waitFor (st : AnvState) (p i : Nat) (s : State) : State := updAnvil p i (fun a => { a with st := st }) s
/-- A step of n cycles ends. -/
def stepDone (n p i : Nat) (s : State) : State := addCycles n p i (nextStep p i s)

/-- The anvil runs a chunk of a kind whose pattern runs as a whole: of its steps only the YIELDs are met, and the row of its kind ends it (log 73). -/
def runsWhole (a : Anvil) : Bool := a.chunk.any fun k => k.kind != 3

/-- The step an anvil meets; a step of a pattern that is not listed holds the op that the command names, its fields free (log 5). -/
def stepWordAt (s : State) (p i op : Nat) : Option W128 :=
  let a := anvil s p i
  let w := stepAt (ptn s p) a.step
  if !anvilClock (ptn s p) || !issuing a || (runsWhole a && op != 0x08) then none
  else if !listed a then some (BitVec.ofNat 128 (op * 2 ^ 120 + w.toNat % 2 ^ 112))
  else if stOp w = op then some w else none

/-- An op runs: its word is met; a false condition makes it a one-cycle no-op (R58); an EMIT that has begun goes on (R298). -/
def runOp (p i op : Nat) (f : W128 → State → State) (s : State) : State :=
  match stepWordAt s p i op with
  | none => s
  | some w =>
    if op = 0x02 ∨ op = 0x08 ∨ op = 0x09 ∨ op = 0x01 ∨ op = 0x31 ∨ op = 0x34 ∧ (anvil s p i).emitted > 0 then f w s
    else if stepCondition s p i w then f w s else stepDone 1 p i s

/-- An op that reads local ranges: it waits for fetches into them (R59); a compute step that reads a poisoned granule faults, an
uncorrectable scratchpad error takes the anvil out, a corrected one is counted (R76). -/
def readingOp (p i op : Nat) (compute : Bool) (reads : Anvil → W128 → List (Nat × Nat)) (sp : SpRead) (f : W128 → State → State) (s : State) : State :=
  runOp p i op (fun w s =>
    let a := anvil s p i
    let rs := if listed a then reads a w else []
    if rs.any fun r => fetching a r.1 r.2 then waitFor .waitMem p i s
    else if sp = .uncorrectable then spFault p i s
    else
      let s := if sp = .corrected then updAnvil p i (fun a => { a with ceCnt := satInc a.ceCnt }) s else s
      if compute && rs.any fun r => padPoisoned a r.1 r.2 then poisonFault p i s else f w s) s

/-! ### Binding (R62) -/

/-- The bytes of signed codes. -/
def codeBytes (l : List Int) : List Byte := l.map (BitVec.ofInt 8)
/-- Group records S_g, A_g, Pos_g of a row's codes (R52). -/
def groupRecords (g : Nat) (q : List Int) : List Byte :=
  (chunksOf g (q.length / g) q).flatMap fun k =>
    leBytes 2 (ofSigned 16 (sumS k)) ++ leBytes 2 (ofSigned 16 (sumA k)) ++ leBytes 2 (ofSigned 16 (sumPos k)) ++ [0, 0]
/-- The lane record of a row (R52). -/
def laneRecord (r : QRow) : List Byte := [BitVec.ofInt 8 r.eq, 0, 0, 0] ++ leBytes 4 r.qnorm.toNat

/-- The query block of a binding: codes, group records and lane records; the low limbs follow those of every lane (log 51). -/
def queryBlock (h : List Byte) (g : Nat) (two : Bool) (rs : List QRow) (a : Anvil) : Anvil :=
  let codes := rs.flatMap (fun r => codeBytes r.codes) ++ (if two then rs.flatMap (fun r => codeBytes r.low) else [])
  let recs := rs.flatMap (fun r => groupRecords g r.codes) ++ (if two then rs.flatMap (fun r => groupRecords g r.low) else [])
  padWrite (phLrec h) (rs.flatMap laneRecord) (padWrite (phQrec h) recs (padWrite (phQcode h) codes a))

/-- The capacity of a lane: R, or the depth of an exact scan (R151). -/
def laneCapacity (e : BitVec 512) (pattern conf : Nat) : Nat :=
  max 1 (min (laneSize conf) (laneDepth e pattern))

/-- A context whose work a partition issues: resident, and not the one a swap evicts (R231, R253). -/
def servedHere (x : Ptn) (ctx : Nat) : Bool := (tget x.resident ctx).isSome && !(x.swap.any fun w => w.victim == some ctx)

/-- Rows of a command that a partition may still scan, and that the lanes of a binding may carry. -/
def laneOk (s : State) (p : Nat) (l : LaneReq) : Bool :=
  match laneCmd s l with
  | some x => x.stage == .running && isSearch x.opcode && decide (l.row < x.rows.length) && servedHere (ptn s p) x.ctx
  | none => false

/-- Rows may share a binding (R127). -/
def lanesAgree (s : State) (ls : List LaneReq) : Bool :=
  match ls.head?.bind (laneCmd s) with
  | none => false
  | some k => ls.all fun l => match laneCmd s l with
    | some x => x.coll == k.coll && x.snap == k.snap && sFilter x.entry == sFilter k.entry && x.prog == k.prog && x.patVer == k.patVer &&
        searchPattern x.entry == searchPattern k.entry && tTwoLimb x.entry == tTwoLimb k.entry &&
        refineDepth x.entry == refineDepth k.entry
    | none => false

/-- An anvil that a binding may take: usable, idle or stopped with nothing left, nothing outstanding. -/
def bindable (a : Anvil) : Bool :=
  a.usable && (a.st == .idle || a.st == .stopped) && (liveLanes a).isEmpty && a.chunk.isNone && a.outst.isEmpty

/-- The anvil is bound and its pattern starts at ENTRY (R62). -/
def bindAnvil (p i pattern : Nat) (lanes : List LaneReq) (chunk : Option Chunk) (s : State) : State :=
  match lanes.head?.bind (laneCmd s) with
  | none => s
  | some k =>
    let y := coll s k.coll
    let h := verHeader s k.ctx pattern k.patVer
    let conf := phSelconf h
    let base := patternBase (ptn s p) k.ctx pattern k.patVer
    let steps := if pattern < 0x100 then ((standardPattern pattern).map (·.2.1)).getD 1 else 1024
    let entry := if pattern = 1 ∨ pattern ≥ 0x100 then phEntry h else phEntry h % steps
    let n := lanes.length
    let now := (ptn s p).cycles.toNat
    updAnvil p i (fun a =>
      queryBlock h (groupSize y) (tTwoLimb k.entry) (lanes.filterMap (laneRow s)) { a with
        st := .running, pattern := pattern, base := base, step := base + entry, lanes := lanes, chunk := chunk, closing := false
        desc := none, descNone := false, nancnt := 0, laneNan := List.replicate n 0, sel := List.replicate n []
        thfloor := List.replicate n fNegInf ++ a.thfloor.drop n, conf := BitVec.ofNat 2 conf
        cap := List.replicate 16 (BitVec.ofNat 16 (laneCapacity k.entry pattern conf))
        ovf := false, cyc := 0, emitted := 0, charge := now, preempt := false, taken := 0, killed := false }) s

/-- A pattern that the dispatcher may bind for a command: its coarse scan, REFINE, XSCAN or SPOST (R117, R130, R131, R143). -/
def patternFits (e : BitVec 512) (pattern : Nat) : Bool :=
  pattern == searchPattern e || (opOf e != 0x12 && (pattern == 2 || pattern == 3 || (pattern == 4 && opOf e == 0x11)))

/-- Lanes of resident contexts that a free anvil may be bound to, those of an issuing row whose command is interactive (R62, R127, R230). -/
def mayBind (s : State) (p i pattern : Nat) (lanes : List LaneReq) (k : Cmd) : Bool :=
  anvilClock (ptn s p) && (ptn s p).service == .inService && bindable (anvil s p i) && lanes.all (laneOk s p) && lanesAgree s lanes &&
    !repeats lanes && patternFits k.entry pattern && decide (lanes.length ≤ maxLanes s k.ctx pattern k.patVer (tTwoLimb k.entry) (coll s k.coll)) &&
    !bulkClass k

end Sys2Proof.Machine
end

