-- ==== Sys2Proof/Machine/AnvilSeq.lean ====
section
/-! DEFINITION. The sequencer ops of an anvil: branches and counters (R56, R63), NEXT (R62), WAIT, SIGNAL, YIELD, END (R60), SKIP (R63),
SETR (R69), MFENCE (R198), the yield overrun (R61). -/

namespace Sys2Proof.Machine

def execStepNop (p : Fin 12) (a : Fin 864) (s : State) : Host.Outcome State Fault Refusal :=
  .next (runOp p a 0x00 (fun _ s => stepDone 1 p a s) s)

/-- BRANCH. -/
def opBranch (p i : Nat) (w : W128) (s : State) : State :=
  if stepCondition s p i w then addCycles 2 p i (goTo (stTarget w) p i s) else stepDone 1 p i s
def execBranch (p : Fin 12) (a : Fin 864) (s : State) : Host.Outcome State Fault Refusal := .next (runOp p a 0x01 (opBranch p a) s)

/-- The counter of a step. -/
def stepCounter (w : W128) : Nat := stA w % 4
def counter (a : Anvil) (c : Nat) : W16 := lget a.cnt c 0
def setCounter (c : Nat) (v : W16) (a : Anvil) : Anvil := { a with cnt := lset a.cnt c v 0 }

/-- LOOP: a zero counter stays zero and falls through (R63). -/
def opLoop (p i : Nat) (w : W128) (s : State) : State :=
  let c := stepCounter w
  let v := counter (anvil s p i) c
  let s := updAnvil p i (setCounter c (v - if v = 0 then 0 else 1)) s
  if v > 1 then addCycles 2 p i (goTo (stTarget w) p i s) else stepDone 1 p i s
def execLoop (p : Fin 12) (a : Fin 864) (s : State) : Host.Outcome State Fault Refusal := .next (runOp p a 0x02 (opLoop p a) s)

/-- SETC: the count, or a 16-bit field of ANV_WD. -/
def opSetc (p i : Nat) (w : W128) (s : State) : State :=
  let a := anvil s p i
  let v := if bit (stParam w) 31 then field a.wd (stParam w % 256) 2 else stCount w
  stepDone 1 p i (updAnvil p i (setCounter (stepCounter w) (BitVec.ofNat 16 v)) s)
def execSetc (p : Fin 12) (a : Fin 864) (s : State) : Host.Outcome State Fault Refusal := .next (runOp p a 0x03 (opSetc p a) s)

/-! ### SETR (R69) -/

/-- Every lane emptied with the capacities of a new configuration. -/
def setConf (conf : Nat) (a : Anvil) : Anvil :=
  { a with conf := BitVec.ofNat 2 conf, sel := a.sel.map fun _ => [], cap := List.replicate 16 (BitVec.ofNat 16 (laneSize conf)) }

/-- One 32-bit word written to a control register. -/
def writeControl (k v : Nat) (a : Anvil) : Anvil :=
  if 0xF940 ≤ k ∧ k < 0xF980 then { a with thfloor := lset a.thfloor ((k - 0xF940) / 4) (BitVec.ofNat 32 v) fNegInf }
  else if k = 0xF9C0 then
    let a := if v % 4 = a.conf.toNat ∨ v % 4 = 3 then a else setConf (v % 4) a
    { a with page := BitVec.ofNat 3 (v / 2 ^ 16) }
  else if 0xF9E0 ≤ k ∧ k < 0xFA00 then
    let l := (k - 0xF9E0) / 2
    let d := BitVec.ofNat 16 (laneSize a.conf.toNat)
    { a with cap := lset (lset a.cap l (BitVec.ofNat 16 v) d) (l + 1) (BitVec.ofNat 16 (v / 2 ^ 16)) d }
  else a

/-- A word that gives a lane in use a capacity outside 1 to the lane size. -/
def badCapacity (k v : Nat) (a : Anvil) : Bool :=
  let l := (k - 0xF9E0) / 2
  let n := laneSize a.conf.toNat
  let bad := fun (l c : Nat) => decide (l < a.lanes.length) && (c == 0 || decide (c > n))
  0xF9E0 ≤ k && decide (k < 0xFA00) && (bad l (v % 65536) || bad (l + 1) (v / 65536))

/-- SETR word by word; a refused capacity is SANDBOX. -/
def opSetr (p i : Nat) (w : W128) (s : State) : State :=
  let ks := (upto (stCount w)).map fun j => stDest w + 4 * j
  let v := stParam w
  if ks.any fun k => badCapacity k v (anvil s p i) then sandboxFault 1 p i s
  else stepDone (stCount w) p i (updAnvil p i (fun a => ks.foldl (fun a k => writeControl k v a) a) s)
def execSetr (p : Fin 12) (a : Fin 864) (s : State) : Host.Outcome State Fault Refusal := .next (runOp p a 0x04 (opSetr p a) s)

/-! ### NEXT (R62) -/

/-- Two descriptors or bindings name the same lanes. -/
def sameLanes (xs ys : List LaneReq) : Bool := xs.all (ys.contains ·) && ys.all (xs.contains ·)

/-- Rows from which an anvil takes work: its own, and those within two (R129, R245). -/
def nearRow (a b : Nat) : Bool := decide (a ≤ b + 2) && decide (b ≤ a + 2)

/-- A descriptor is one for a binding: its lanes and pattern, and once one was taken that one's term and the engine that asked (R62, R143). -/
def suits (a : Anvil) (d : Desc) : Bool :=
  d.pattern == a.pattern && sameLanes d.lanes (liveLanes a) && a.desc.all fun e => e.term == d.term && e.quiet == d.quiet
/-- The descriptor that waits for an anvil's binding, the first of its own row before those of the rows near it. -/
def waitingDesc (s : State) (p i : Nat) : Option (Nat × Desc) :=
  let a := anvil s p i
  let q := (ptn s p).rowQ
  (q.find? fun d => d.1 == i / 36 && suits a d.2).or (q.find? fun d => nearRow (i / 36) d.1 && suits a d.2)

/-- A descriptor has a place in a row's queue: 32 of the 256 are kept for refine and far rerank, which take no others (R292, R300). -/
def hasPlace (x : Ptn) (r : Nat) (d : Desc) : Bool :=
  if d.kind = 1 then decide ((x.rowQ.filter fun q => q.1 == r && q.2.kind == 1).length < 32)
  else decide ((x.rowQ.filter fun q => q.1 == r && q.2.kind != 1).length < 224)
/-- Where a descriptor that finds no place waits: a refine or far-rerank one in the partition-fold store (R300), another with the dispatcher, as the
rest of a list that it issues (R299). -/
def waitPlace (d : Desc) : Nat := if d.kind = 1 then 64 else 65
/-- A descriptor handed to the dispatcher of a partition: to its row's queue, or where it waits for a place. -/
def putDesc (p : Nat) (d : Desc) (s : State) : State :=
  let r := placeRow s p d.brick
  updPtn p (fun x => { x with rowQ := x.rowQ ++ [(if hasPlace x r d then r else waitPlace d, d)] }) s
/-- Descriptors that wait for a place get those that have come free, the oldest first (R299, R300). -/
def fillPlaces (p : Nat) (s : State) : State :=
  ((ptn s p).rowQ.filter fun q => decide (24 ≤ q.1)).foldl (fun s q =>
    if hasPlace (ptn s p) (placeRow s p q.2.brick) q.2 then putDesc p q.2 (updPtn p (fun x => { x with rowQ := removeFirst q x.rowQ }) s) else s) s

/-- A lane may still receive descriptors in the partition. -/
def laneOpen (s : State) (p : Nat) (l : LaneReq) : Bool :=
  match laneCmd s l, laneRow s l with
  | some x, some r => x.stage == .running && (match tget r.probes p with | some q => !q.ended | none => !r.descended)
  | _, _ => false

/-- The binding takes nothing more: closed by the dispatcher, or at its limit of bricks (R129). -/
def bindingFull (s : State) (p i : Nat) : Bool :=
  let a := anvil s p i
  a.closing || (match leadCmd s a with
    | some x => decide (a.taken ≥ bindingBricks s x.ctx a.pattern x.patVer x.entry)
    | none => true)

/-- The binding is closed: by the dispatcher, by its limit of bricks (R129), when its lanes can receive nothing more, or when other
work waits in its row and none for it (log 50). -/
def bindingClosed (s : State) (p i : Nat) : Bool :=
  let a := anvil s p i
  bindingFull s p i || a.chunk.isSome || a.desc.any (·.quiet) ||
  (liveLanes a).all (fun l => !laneOpen s p l) || a.pattern == 2 || a.pattern == 4 || (ptn s p).rowQ.any fun d => d.1 == i / 36

/-- ANV_WD filled from a descriptor; a refine list brings its survivor slots and no filter (R131). -/
def loadDesc (p i : Nat) (d : Desc) (chunk : Nat) (s : State) : State :=
  let y := coll s d.coll
  let k := leadCmd s (anvil s p i)
  let two := (k.map fun x => tTwoLimb x.entry).getD false
  let hyb := (k.map fun x => x.opcode == 0x11).getD false
  let prog := if d.sieve = 0xFF ∨ d.kind = 1 then 0xFF else (Config.sieveSlot ((k.map (·.ctx)).getD 0) d.sieve).toNat
  updAnvil p i (fun a => { a with
    wd := descBytes y { d with lanes := a.lanes } two hyb chunk prog, desc := some d, descNone := false, taken := a.taken + 1
    live := if d.kind = 1 then d.mask else a.live }) s

/-- The next brick of a chunk, or its next refine list or piece; CHUNK holds the bricks of the whole chunk (R50). -/
def nextOfChunk (p i : Nat) (k : Chunk) (s : State) : State :=
  match k.bricks with
  | d :: rest =>
    loadDesc p i { d with kind := if d.kind = 0 then 4 else d.kind, last := rest.isEmpty } k.start.length (updAnvil p i (fun a => { a with chunk := some { k with bricks := rest } }) s)
  | [] => updAnvil p i (fun a => { a with descNone := true }) s

/-- NEXT takes a descriptor, finds the binding closed, or waits. -/
def opNext (p i : Nat) (_ : W128) (s : State) : State :=
  let a := anvil s p i
  match a.chunk with
  | some k => stepDone 4 p i (if a.closing then updAnvil p i (fun a => { a with descNone := true }) s else nextOfChunk p i k s)
  | none =>
    match (if bindingFull s p i then none else waitingDesc s p i) with
    | some d => stepDone 4 p i (loadDesc p i d.2 0 (fillPlaces p (updPtn p (fun x => { x with rowQ := removeFirst d x.rowQ }) s)))
    | none =>
      if bindingClosed s p i then stepDone 4 p i (updAnvil p i (fun a => { a with descNone := true }) s)
      else waitFor .waitDesc p i s
def execNext (p : Fin 12) (a : Fin 864) (s : State) : Host.Outcome State Fault Refusal := .next (runOp p a 0x05 (opNext p a) s)

/-! ### WAIT, SIGNAL, MFENCE -/

/-- WAIT for credit class 0 fold, 1 fetch, 2 store. -/
def opWait (p i : Nat) (w : W128) (s : State) : State :=
  let c := stParam w % 16
  if (if c = 0 then foldCredit s p i else fetchCredit (anvil s p i)) then stepDone 1 p i s else waitFor .waitCredit p i s
def execWait (p : Fin 12) (a : Fin 864) (s : State) : Host.Outcome State Fault Refusal := .next (runOp p a 0x06 (opWait p a) s)

/-- SIGNAL posts its parameter to the dispatcher with the lane tags; what the dispatcher does with it is not given (log 52). -/
def opSignal (p i : Nat) (w : W128) (s : State) : State :=
  let ls := (anvil s p i).lanes
  stepDone 1 p i (updPtn p (fun x => { x with signal := some (BitVec.ofNat 32 (stParam w), ls) }) s)
def execSignal (p : Fin 12) (a : Fin 864) (s : State) : Host.Outcome State Fault Refusal := .next (runOp p a 0x07 (opSignal p a) s)

/-- MFENCE waits until nothing of the anvil is outstanding. -/
def opMfence (p i : Nat) (_ : W128) (s : State) : State :=
  if (anvil s p i).outst.isEmpty then stepDone 1 p i s else waitFor .waitMem p i s
def execMfence (p : Fin 12) (a : Fin 864) (s : State) : Host.Outcome State Fault Refusal := .next (runOp p a 0x14 (opMfence p a) s)

/-! ### YIELD, END, SKIP -/

/-- A request that takes effect: it is deferred while a context of the anvil's work holds a semaphore (R246, R253). -/
def preempting (s : State) (p i : Nat) : Bool := let a := anvil s p i; a.preempt && (anvCtxs s a).all fun c => !holdsSemaphore c s
/-- The job of a context pre-empts by kill (R228). -/
def killMode (s : State) (ctx : Nat) : Bool := (job? s (ctxJob s ctx)).any (·.kill)
/-- The save slot of a context in a partition, or the lowest free one, not yet taken (R251). -/
def saveSlot (x : Ptn) (ctx : Nat) : Option Nat :=
  match x.saves.find? fun v => v.2.ctx == ctx with
  | some v => some v.1
  | none => (upto 12).find? fun n => (tget x.saves n).isNone
/-- A kill-mode pre-emption of a context in a partition (R247). -/
def killHere (p ctx : Nat) (s : State) : State := ((ctxCmds s ctx).filter (hasWorkIn s p)).foldl (fun s c => killCmd c s) s
/-- A chunk abandoned: back whole at the head of its queue, its anvil free (R244). -/
def abandonChunk (p i : Nat) (k : Chunk) (s : State) : State :=
  returnChunk p { k with abandoned := k.abandoned + 1 } (updAnvil p i (fun a => { a with
    st := .idle, lanes := [], chunk := none, desc := none, sel := [], preempt := false, closing := false }) s)
/-- A tile-mode stop: the record goes to the context's save slot, which is zeroised when it is newly taken (R246, R251, R386). -/
def park (p i n ctx : Nat) (s : State) : State :=
  updPtn p (fun x => { x with saves := if (tget x.saves n).isSome then x.saves else tset x.saves n { ctx := ctx, zeroising := true } })
    (updAnvil p i (fun a => { a with st := .yielded }) s)
/-- What a pre-empted anvil does at its YIELD. -/
def stopAtYield (p i : Nat) (s : State) : State :=
  let a := anvil s p i
  let ctx := anvCtx s a
  match a.chunk, saveSlot (ptn s p) ctx with
  | some k, some n => if killMode s ctx then abandonChunk p i k s else park p i n ctx s
  | some k, none => abandonChunk p i k s
  | none, some n => if killMode s ctx then killHere p ctx s else park p i n ctx s
  | none, none => killHere p ctx s

/-- YIELD: the interval restarts; a pending request stops the anvil once nothing is outstanding (R60). -/
def opYield (p i : Nat) (w : W128) (s : State) : State :=
  let go := preempting s p i
  if go && !(anvil s p i).outst.isEmpty then waitFor .waitMem p i s
  else
    let s := updAnvil p i (fun b => { b with cyc := 1 }) (goTo (stTarget w) p i (chargeAnvil p i s))
    if go then stopAtYield p i s else s
def execYield (p : Fin 12) (a : Fin 864) (s : State) : Host.Outcome State Fault Refusal := .next (runOp p a 0x08 (opYield p a) s)

/-- An anvil's lanes and chunk are released; it is free (R60). -/
def freeAnvil (p i : Nat) (s : State) : State :=
  updAnvil p i (fun a => { a with st := .idle, lanes := [], chunk := none, desc := none, preempt := false, closing := false }) (chargeAnvil p i s)
/-- END releases the lanes; the anvil is free (R60). -/
def opEnd (p i : Nat) (_ : W128) (s : State) : State := freeAnvil p i s

/-- The anvil of a partition that runs a chunk of some kind (R242). -/
def chunkAnvil (s : State) (p : Nat) (f : Chunk → Bool) : Option Nat :=
  if anvilClock (ptn s p) then ((ptn s p).anvils.find? fun a => issuing a.2 && a.2.chunk.any f).map (·.1) else none

/-- A chunk of a kind that works for a collection. -/
def chunkOf (kind c : Nat) (k : Chunk) : Bool := k.kind == kind && (k.start ++ k.bricks).head?.any fun d => d.coll == c

/-- SKIP abandons the descriptor: its brick's fetches not yet issued to memory are cancelled (R63). -/
def opSkip (p i : Nat) (w : W128) (s : State) : State :=
  if stepCondition s p i w then
    addCycles 2 p i (goTo (stTarget w) p i (updAnvil p i (fun a => { a with
      desc := none, outst := a.outst.filter fun o => o.served || o.part.isNone || o.desc != a.desc }) s))
  else stepDone 2 p i s
def execSkip (p : Fin 12) (a : Fin 864) (s : State) : Host.Outcome State Fault Refusal := .next (runOp p a 0x31 (opSkip p a) s)

/-! ### The yield interval (R61) -/

/-- The count passes 3,600: YOVR, and with a request pending the fault YIELD_OVERRUN. A standard pattern never comes there. -/
def overrunYield (p i : Nat) (s : State) : State :=
  let s := updAnvil p i (fun a => { a with yovr := true }) s
  if preempting s p i then sandboxFault 3 p i s else s
def execYieldOverrun (p : Fin 12) (a : Fin 864) (s : State) : Host.Outcome State Fault Refusal :=
  onlyIf (issuing (anvil s p.val a.val) && decide ((anvil s p.val a.val).pattern ≥ 0x100) && decide ((anvil s p.val a.val).cyc > 3600)) (overrunYield p.val a.val) s

end Sys2Proof.Machine
end

