-- ==== Sys2Proof/Machine/AnvilMem.lean ====
section
/-! DEFINITION. The memory steps of an anvil: FETCHB (R64, R212), FETCHW, STORE, ATOMIC (R65, R75, R214), the landing of a fetch (R59),
MOVE and TILECLR (R56). -/

namespace Sys2Proof.Machine

/-! ### FETCHB -/

/-- The zone summary of posting entries' attribute words, formed as a brick's (R85, R141). -/
def postingZone (y : Coll) (ps : List Posting) : Brick :=
  ps.foldl (fun b e => setSlot 0 (fun t => { t with occ := true }) (widenZone y e.attr b)) emptyBrick

/-- BMAX of a block: RU of the largest u × σ_v (R141). -/
def blockMax (ps : List Posting) : F32 := (ps.map fun e => fRound .up (xMul (xInt e.u) (fExact e.sigma))).foldl fMax 0

/-- A posting block's bytes (R141), the next block of its term at `next`. -/
def postingBlock (y : Coll) (next : Nat) (ps : List Posting) : List Byte :=
  let z := postingZone y ps
  padBytes 4224 (leBytes 5 next ++ [BitVec.ofNat 8 ps.length, 0, 0] ++ leBytes 4 (blockMax ps).toNat ++ List.replicate 20 0 ++
    leBytes 16 z.zmin.toNat ++ leBytes 16 z.zmax.toNat ++ leBytes 16 z.zor.toNat ++ leBytes 16 z.zand.toNat ++ List.replicate 32 0 ++
    ps.flatMap fun e => leBytes 5 e.brick ++ [BitVec.ofNat 8 e.slot, BitVec.ofNat 8 e.u, 0] ++ leBytes 4 e.sigma.toNat ++
      leBytes 4 e.epoch.toNat ++ leBytes 16 e.attr.toNat)

/-- TMAX of a term in a partition: the largest BMAX of its blocks (R140). -/
def termMax (y : Coll) (p t : Nat) : F32 := ((termBlocks y p t).map fun b => blockMax b.entries).foldl fMax 0

/-- The bytes of block i of a term; NEXT of the last one is 0 (R141). -/
def blockBytes (y : Coll) (p t i : Nat) : List Byte :=
  let bs := termBlocks y p t
  match bs[i]? with
  | some b => postingBlock y (match bs[i + 1]? with | some n => n.addr | none => 0) b.entries
  | none => []

/-- The bytes of a part of the descriptor's brick (R64): a brick part or slice, the collection's scale record in collection scale mode,
a centroid frame, a posting block; the layout of a refine slot list is not given (log 5). -/
def descPart (s : State) (d : Desc) (code slice count : Nat) : List Byte :=
  let y := coll s d.coll
  if d.kind = 3 then
    let bs := centroidPart d.coll y d.term d.list code
    if code = 5 then (bs.drop (16384 * slice)).take 16384 else bs
  else if code = 9 then blockBytes y (ptnOfAddr d.brick) d.term (32 * d.list + slice)
  else if code = 8 then (upto (16 * count)).flatMap fun i => leBytes 4 (Config.freeWord (s.free + i)).toNat
  else match brick? y d.brick with
    | none => []
    | some b =>
      if code = 2 && collScaled y then scaleBytes (y.scales.getD {})
      else if 5 ≤ code ∧ code ≤ 7 then partSlice code slice (partBytes d.coll y b code)
      else partBytes d.coll y b code

/-- The device address of a part (slice). -/
def descAddr (s : State) (d : Desc) (code slice : Nat) : Nat :=
  let y := coll s d.coll
  let w := if d.kind = 3 then 16384 else if code = 7 then 8192 else 4096
  if code = 9 then (((termBlocks y (ptnOfAddr d.brick) d.term)[32 * d.list + slice]?).map (·.addr)).getD d.brick else
  d.brick + partOffset y (d.kind == 3) code + (if 5 ≤ code ∧ code ≤ 7 then w * slice else 0)

/-- The hot-brick table counts a FETCHB of a frame; a full table gives up its lowest count (R212; log 53). -/
def countHot (frame : Nat) (x : Ptn) : Ptn :=
  let k := tgetD x.hot frame 0
  let t := if k = 0 ∧ x.hot.length ≥ 2048 then
      match minBy (·.2) x.hot with | some m => tdel x.hot m.1 | none => x.hot
    else x.hot
  { x with hot := tset t frame (k + 1), fetches := x.fetches + 1 }

/-- Parts that a hot frame keeps as cached lines (R212). -/
def cachesPart (code : Nat) : Bool := code ≤ 6

/-- A memory step of n lines waits at issue: it would take the count above 256, and earlier lines are outstanding; a step of more
than 256 lines issues alone (R59; log 49). -/
def linesWait (a : Anvil) (n : Nat) : Bool := decide (outLines a + n > 256) && decide (outLines a > 0)

/-- FETCHB: too large a part is PART_SIZE; lines beyond 256 wait; a granule that a STORE still reads waits (R59, R64). A slice counter
of zero names slice 0 (log 56). With no descriptor current there is no part to fetch: the step goes on (log 83). -/
def opFetchb (p i : Nat) (w : W128) (s : State) : State :=
  let a := anvil s p i
  let q := stParam w
  let code := bits q 31 28
  let slice := if bit q 27 then (counter a (bits q 25 24)).toNat - 1 else q % 65536
  match a.desc with
  | none => stepDone 1 p i s
  | some d =>
    let bs := descPart s d code slice (stCount w)
    let n := ceilDiv bs.length 64
    if listed a && decide (n > stCount w) then sandboxFault 2 p i s
    else if linesWait a n || storing a (stDest w) bs.length then waitFor .waitMem p i s
    else
      let frame := d.brick
      let addr := descAddr s d code slice
      let s := updPtn (homePtn frame) (fun x =>
        let x := countHot frame x
        if tgetD x.hot frame 0 ≥ 4 && cachesPart code && d.kind != 2 then
          (upto (lineCount addr bs.length)).foldl (fun x j => useCached (lineOf (stackOff addr) + 64 * j) x) x
        else x) s
      let s := if n = 0 then s else updAnvil p i (fun a => { a with
        outst := a.outst ++ [{ dest := stDest w, addr := addr, part := some (code, slice), bytes := bs, lines := n, desc := some d }] }) s
      stepDone 1 p i (spend (if code = 8 then 16 * stCount w else 0) s)
def execFetchb (p : Fin 12) (a : Fin 864) (s : State) : Host.Outcome State Fault Refusal := .next (runOp p a 0x10 (opFetchb p a) s)

/-! ### Windows (R65, R75) -/

/-- The memory window a step names, if the context had it with a right when the command was admitted (R9, R75). -/
def stepWindow (s : State) (a : Anvil) (w : W128) (right : MWin → Bool) : Option MWin :=
  match (leadCmd s a).bind fun x => tget x.mwins (bits (stParam w) 31 28) with
  | some m => if right m then some m else none
  | none => none

/-- The address a step names in its window. -/
def windowAddr (m : MWin) (w : W128) : Nat := regionBase m.ptn m.region + stParam w % 2 ^ 28 * 256
/-- The units of 64 B that source A adds. -/
def addUnits (a : Anvil) (w : W128) : Nat := if stA w = 0 then 0 else padNat a (stA w) 4 * 64
/-- A range within a window; the partition of an address is that of the window (R195). -/
def inMWin (m : MWin) (addr n : Nat) : Bool :=
  let b := regionBase m.ptn m.region
  b ≤ addr && decide (addr + n ≤ b + m.regions * 2 ^ 24)

/-- FETCHW. -/
def opFetchw (p i : Nat) (w : W128) (s : State) : State :=
  let a := anvil s p i
  let n := stCount w
  match stepWindow s a w (·.r) with
  | none => sandboxFault 1 p i s
  | some m =>
    let addr := windowAddr m w + addUnits a w
    if !inMWin m addr (64 * n) then sandboxFault 1 p i s
    else if linesWait a n || storing a (stDest w) (64 * n) then waitFor .waitMem p i s
    else
      let o : Outst := { dest := stDest w, addr := addr, lines := n }
      stepDone 1 p i (if n = 0 then s else updAnvil p i (fun a => { a with outst := a.outst ++ [o] }) s)
/-- What FETCHW and STORE read locally for their address. -/
def addrRead (w : W128) : List (Nat × Nat) := if stA w = 0 then [] else [(stA w, 4)]
/-- A FETCHW that adds no local value reads nothing locally. -/
def fetchwSp (s : State) (p i : Nat) (sp : SpRead) : SpRead :=
  match stepWordAt s p i 0x11 with
  | some w => if listed (anvil s p i) && stA w == 0 then .clean else sp
  | none => sp
def execFetchw (p : Fin 12) (r : AnvilRead) (s : State) : Host.Outcome State Fault Refusal :=
  .next (readingOp p r.anvil 0x11 false (fun _ w => addrRead w) (fetchwSp s p r.anvil r.met) (opFetchw p r.anvil) s)

/-- STORE. -/
def opStore (p i : Nat) (w : W128) (s : State) : State :=
  let a := anvil s p i
  let n := stCount w
  match stepWindow s a w (·.w) with
  | none => sandboxFault 1 p i s
  | some m =>
    let addr := windowAddr m w + addUnits a w
    if !inMWin m addr (64 * n) then sandboxFault 1 p i s
    else if linesWait a n then waitFor .waitMem p i s
    else
      let o : Outst := { isStore := true, src := stB w, addr := addr, lines := n, poison := padPoisoned a (stB w) (64 * n)
                         bytes := localBytes a (ptn s p).cycles (stB w) (64 * n) }
      stepDone 1 p i (if n = 0 then s else updAnvil p i (fun a => { a with outst := a.outst ++ [o] }) s)
def execStore (p : Fin 12) (a : Fin 864) (sp : SpRead) (s : State) : Host.Outcome State Fault Refusal :=
  .next (readingOp p a 0x12 false (fun _ w => (stB w, 64 * stCount w) :: addrRead w) sp (opStore p a) s)

/-! ### ATOMIC (R65, R213, R214) -/

/-- Bytes of a target. -/
def atomWidth (code : Nat) : Nat := if code = 0x01 ∨ code = 0x0A ∨ code = 0x0E then 4 else 8
/-- An operand field that must be zero and is not (R214). -/
def atomOperandBad (code operand : Nat) : Bool :=
  if code = 0x0C ∨ code = 0x0D then operand / 64 != 0
  else if code = 0x0E then operand / 65536 != 0
  else if code = 0x10 then operand / 2 ^ 48 != 0
  else if code = 0x11 then operand != 0
  else false

/-- The target of an element: its offset from the window's base (R65, R214). -/
def atomBase (m : MWin) (o : Nat) : Nat := regionBase m.ptn m.region + o

/-- Elements of an ATOMIC step: window offset, operand and place, pairs for CAS64; none where a pair is broken. -/
def atomPairs (code : Nat) : List (Nat × Nat × Nat) → Option (List (Nat × Nat × Nat × Nat))
  | [] => some []
  | (o, v, j) :: t =>
    if code = 0x0B then match t with
      | (o', v', _) :: r => if o = o' then (atomPairs code r).map ((o, v, v', j) :: ·) else none
      | [] => none
    else (atomPairs code t).map ((o, v, 0, j) :: ·)

def opAtomic (p i : Nat) (w : W128) (s : State) : State :=
  let a := anvil s p i
  let q := stParam w
  let code := bits q 23 16
  let n := stCount w
  let elems := (upto n).map fun j => (padNat a (stA w + 16 * j) 8, padNat a (stA w + 16 * j + 8) 8, j)
  match stepWindow s a w (·.a), atomPairs code elems with
  | some m, some es =>
    let width := atomWidth code
    let target := fun (o v : Nat) => atomBase m o + (if code = 0x0E then 4 * v else 0)
    let bad := es.any fun (o, v, _, _) => atomOperandBad code v || target o v % width != 0 || !inMWin m (target o v) width ||
      !inMWin m (atomBase m o) width
    if !atomicDefined code || bad then sandboxFault 1 p i s
    else if linesWait a es.length || (bit q 0 && storing a (stDest w) (8 * n)) then waitFor .waitMem p i s
    else
      let ctx := anvCtx s a
      let reqs := es.map fun (o, v, v', j) => ({ code := code, addr := target o v, operand := BitVec.ofNat 64 v, second := BitVec.ofNat 64 v', ctx := ctx
                                                 ret := if bit q 0 then some (p, i, stDest w + 8 * j) else none, from_ := some (p, i) } : AtomReq)
      let outs := es.map fun (o, v, _, j) => ({ isAtom := true, addr := target o v, dest := if bit q 0 then stDest w + 8 * j else 0x10000 } : Outst)
      let s := updPtn m.ptn (fun x => { x with atomQ := x.atomQ ++ reqs }) s
      stepDone 1 p i (updAnvil p i (fun a => { a with outst := a.outst ++ outs }) s)
  | _, _ => sandboxFault 1 p i s
def execAtomic (p : Fin 12) (a : Fin 864) (sp : SpRead) (s : State) : Host.Outcome State Fault Refusal :=
  .next (readingOp p a 0x13 false (fun _ w => [(stA w, 16 * stCount w)]) sp (opAtomic p a) s)

/-! ### Landing (R59) -/

/-- Bytes landing from local address k on; granules take the poison that came with them. -/
def landBytes (k : Nat) (bs : List Byte) (bad : Nat → Bool) (a : Anvil) : Anvil :=
  let gs := granulesOf k bs.length
  padWrite k bs { a with poisoned := a.poisoned.filter (fun g => !gs.contains g) ++ gs.filter fun g => bad (64 * g - k) }

/-- An earlier fetch into one of the same granules is still outstanding: fetches land in step order. -/
def earlierFetch (a : Anvil) (i : Nat) (o : Outst) : Bool :=
  (a.outst.take i).any fun e => !e.isStore && !e.isAtom && (granulesOf o.dest (landSize o)).any (touches e.dest (landSize e))

/-- A served fetch lands; each line takes the poison that its words had when they were read (R220). -/
def landFetch (p i k : Nat) (s : State) : State :=
  let a := anvil s p i
  match a.outst[k]? with
  | some o =>
    if o.served && !o.isStore && !o.isAtom && !earlierFetch a k o then
      updAnvil p i (fun a => landBytes o.dest o.bytes (fun off => o.badLines.contains (off / 64)) { a with outst := a.outst.eraseIdx k }) s
    else s
  | none => s
def execFetchLand (p : Fin 12) (a : Fin 864) (i : Nat) (s : State) : Host.Outcome State Fault Refusal := .next (landFetch p a i s)

/-! ### MOVE, TILECLR -/

/-- MOVE: units of 16 B in ascending order. -/
def opMove (p i : Nat) (w : W128) (s : State) : State :=
  let cyc := (ptn s p).cycles
  stepDone (ceilDiv (stCount w) 8) p i (updAnvil p i (fun a =>
    (upto (stCount w)).foldl (fun a j => padWrite (stDest w + 16 * j) (localBytes a cyc (stA w + 16 * j) 16) a) a) s)
def execMove (p : Fin 12) (a : Fin 864) (sp : SpRead) (s : State) : Host.Outcome State Fault Refusal :=
  .next (readingOp p a 0x15 true (fun _ w => [(stA w, 16 * stCount w)]) sp (opMove p a) s)

/-- TILECLR: the regions of the mask zeroed. -/
def opTileclr (p i : Nat) (w : W128) (s : State) : State :=
  let rs := bitsOf 4 (stParam w)
  stepDone (24 * rs.length) p i (updAnvil p i (fun a => { a with
    local_ := a.local_.filter fun c => !(rs.any fun r => decide (768 + 48 * r ≤ c.1) && decide (c.1 < 768 + 48 * (r + 1))) }) s)
def execTileclr (p : Fin 12) (a : Fin 864) (s : State) : Host.Outcome State Fault Refusal := .next (runOp p a 0x20 (opTileclr p a) s)

end Sys2Proof.Machine
end

