-- ==== Sys2Proof/Machine/AnvilMath.lean ====
section
/-! DEFINITION. The arithmetic steps of an anvil: DOT (R37–R41, R51, R66, R68), BOUND and SCORE (R42, R43, R46, R47, R67),
BFMA and SGATHER (R44, R74). -/

namespace Sys2Proof.Machine

/-! ### Tiles (R18, R41) -/

def tileAddr (region lane slot : Nat) : Nat := 0xC000 + 0xC00 * region + 6 * (64 * lane + slot)
/-- Total and overflow sticky bit of a tile entry. -/
def tileEntry (a : Anvil) (region lane slot : Nat) : Int × Bool :=
  let v := padNat a (tileAddr region lane slot) 6
  (toSigned 40 v, bit v 47)
def tileBytes (t : Int × Bool) : List Byte := leBytes 6 (ofSigned 40 t.1 + if t.2 then 2 ^ 47 else 0)

/-! ### The descriptor and the query block as a step reads them -/

/-- G, Γ, and whether one scale record serves every slot. -/
def wdG (a : Anvil) : Nat := 32 * 2 ^ field a.wd 11 1
def wdGroups (a : Anvil) : Nat := field a.wd 12 2
def wdColl (a : Anvil) : Bool := bit (field a.wd 7 1) 2
def wdTwo (a : Anvil) : Bool := bit (field a.wd 7 1) 1
/-- The metric scores are formed in: under HYB the collection's (R130). -/
def wdMetric (s : State) (a : Anvil) : Nat :=
  if field a.wd 10 1 = 3 then (coll s (field a.wd 8 2)).metric else field a.wd 10 1

/-- The scale record of a slot (R28) in a block at k; a centroid's is its exponent alone. -/
def recordAt (a : Anvil) (k slot : Nat) : Nat :=
  let g := wdGroups a
  if field a.wd 5 1 = 3 then k + slot else if wdColl a then k else k + (1 + g + ceilDiv g 2) * slot
/-- Bytes of the scale block. -/
def scaleLen (a : Anvil) : Nat := if wdColl a then 1 + wdGroups a + ceilDiv (wdGroups a) 2 else recordAt a 0 64
def slotExp (a : Anvil) (k slot : Nat) : Int := toSigned 8 (padNat a (recordAt a k slot) 1)
def slotMult (a : Anvil) (k slot g : Nat) : Int := padNat a (recordAt a k slot + 1 + g) 1
def slotZero (a : Anvil) (k slot g : Nat) : Int := padNat a (recordAt a k slot + 1 + wdGroups a + g / 2) 1 / 16 ^ (g % 2) % 16

/-- A field of the group record of a lane's limb: S 0, A 1, Pos 2 (R52; low limbs: log 51). -/
def groupField (a : Anvil) (h : List Byte) (low : Bool) (l g i : Nat) : Int :=
  let row := if low then a.lanes.length + l else l
  toSigned 16 (padNat a (phQrec h + 8 * (row * wdGroups a + g) + 2 * i) 2)
def laneExp (a : Anvil) (h : List Byte) (l : Nat) : Int := toSigned 8 (padNat a (phLrec h + 8 * l) 1)
def laneNorm (a : Anvil) (h : List Byte) (l : Nat) : F32 := BitVec.ofNat 32 (padNat a (phLrec h + 8 * l + 4) 4)

/-! ### DOT -/

/-- The stored operand of dimension d (of the slice) and a slot, by mode (R51). -/
def storedCode (a : Anvil) (mode k d slot : Nat) : Int :=
  let crumb := fun b => ((padNat a (b + 16 * d + slot / 4) 1 / 4 ^ (slot % 4) % 4 : Nat) : Int)
  if mode = 0 then toSigned 8 (padNat a (k + 64 * d + slot) 1)
  else if mode = 1 then toSigned 4 (padNat a (k + 32 * d + slot / 2) 1 / 16 ^ (slot % 2))
  else if mode = 4 then 4 * crumb k + crumb (k + 0x1000)
  else crumb k

/-- A run of products saturated to 20 bits (R37, R38). -/
def runSum (a : Anvil) (mode k d0 n slot : Nat) (q : Nat) : Int × Bool :=
  satI 20 (sumI ((upto n).map fun j => storedCode a mode k (d0 + j) slot * toSigned 8 (padNat a (q + j) 1)))

/-- The row of a lane's limb in the query block: low limbs follow those of every lane (log 51). -/
def limbRow (a : Anvil) (low : Bool) (l : Nat) : Nat := if low then a.lanes.length + l else l

/-- What a group adds to a total (R39, R40): the rescaled corrected sum, and whether a run saturated. The corrected and the rescaled sum
are exact in a custom pattern too: R38 saturates runs and totals (log 60). -/
def groupTerm (a : Anvil) (h : List Byte) (w : W128) (l slot g g0 : Nat) : Int × Bool :=
  let q := stParam w
  let mode := bits q 31 28
  let low := bits q 27 26 == 2
  let gs := wdG a
  let qk := stB w + limbRow a low l * (gs * wdGroups a) + gs * g
  let d0 := gs * (g - g0)
  if mode = 0 then
    let runs := (upto (gs / 32)).map fun j => runSum a 0 (stA w) (d0 + 32 * j) 32 slot (qk + 32 * j)
    (sumI (runs.map (·.1)), runs.any (·.2))
  else
    let (r, o) := runSum a mode (stA w) d0 gs slot qk
    let m := slotMult a (q % 65536) slot g
    let zs := slotZero a (q % 65536) slot g * groupField a h low l g 0
    let p := if mode = 2 then 4 * r - zs else if mode = 4 then r - zs else r
    let sg := (if mode = 1 then 4 else 0) + (if low then 8 else 0)
    (rneShift (p * m) sg, o)

/-- A total with a term added, saturated to the total's range (R18, R38). -/
def addTotal (t : Int × Bool) (x : Int × Bool) : Int × Bool :=
  let (v, o) := satTotal (t.1 + x.1)
  (v, t.2 || x.2 || o)

/-- First group and number of groups of a DOT (R66), as far as the vector has groups; a counter of zero names the first slice (log 56). -/
def dotGroups (a : Anvil) (w : W128) : Nat × Nat :=
  let per := 256 / wdG a
  let g0 := if bit (stParam w) 23 then ((counter a (bits (stParam w) 21 20)).toNat - 1) * per else 0
  (g0, min (if stCount w = 0 then per else stCount w) (wdGroups a - g0))

/-- The tile half of a lane: its region and the lane within it. -/
def laneTile (base l : Nat) : Nat × Nat := (base + l / 8, l % 8)

/-- Products of DOT for every lane and slot added into the regions. -/
def dotAll (a : Anvil) (h : List Byte) (w : W128) : Anvil :=
  let (g0, n) := dotGroups a w
  let base := bits (stParam w) 25 24
  (upto a.lanes.length).foldl (fun b l => (upto 64).foldl (fun b slot =>
    let (r, j) := laneTile base l
    let t := (upto n).foldl (fun t i => addTotal t (groupTerm a h w l slot (g0 + i) g0)) (tileEntry b r j slot)
    { padWrite (tileAddr r j slot) (tileBytes t) b with ovf := b.ovf || t.2 }) b) a

/-- Cycles of a DOT (R51, R56). -/
def dotCycles (a : Anvil) (w : W128) : Nat :=
  let r := lget [4, 8, 16, 16, 8] (bits (stParam w) 31 28) 8
  8 * wdG a / r * (dotGroups a w).2 * (if a.lanes.length > 8 then 2 else 1) + 2

/-- The group records of the bound lanes, with those of the low limbs when a two-limb binding or step reads them (R52). -/
def recordReads (h : List Byte) (a : Anvil) (two : Bool) : Nat × Nat := (phQrec h, 8 * wdGroups a * a.lanes.length * (if two then 2 else 1))

/-- What a DOT reads: codes, query codes of its limb, scale block and, for the zero-point term, the group records (R66). -/
def dotReads (h : List Byte) (a : Anvil) (w : W128) : List (Nat × Nat) :=
  let (g0, n) := dotGroups a w
  let mode := bits (stParam w) 31 28
  let dims := wdG a * n
  let len := (if mode = 0 then 64 else if mode = 1 then 32 else 16) * dims
  let l := a.lanes.length
  let low := bits (stParam w) 27 26 == 2
  [(stA w, len), (stB w + wdG a * (wdGroups a * limbRow a low 0 + g0), wdG a * wdGroups a * (l - 1) + dims)] ++
  (if mode = 0 then [] else [(stParam w % 65536, scaleLen a)]) ++
  (if mode = 2 ∨ mode = 4 then [recordReads h a low] else []) ++ (if mode = 4 then [(stA w + 0x1000, len)] else [])

def opDot (p i : Nat) (w : W128) (s : State) : State :=
  let a := anvil s p i
  stepDone (dotCycles a w) p i (updAnvil p i (fun b => dotAll b (anvHeader s a) w) s)
def execDot (p : Fin 12) (a : Fin 864) (sp : SpRead) (s : State) : Host.Outcome State Fault Refusal :=
  .next (readingOp p a 0x21 true (dotReads (anvHeader s (anvil s p a))) sp (opDot p a) s)

/-! ### BOUND and SCORE -/

/-- Scale block, norm block and lane records. -/
def scoreReads (h : List Byte) (a : Anvil) (w : W128) : List (Nat × Nat) := [(stA w, scaleLen a), (stB w, 256), (phLrec h, 8 * a.lanes.length)]
/-- Those, and Pos_g from the group records (R67). -/
def boundReads (h : List Byte) (a : Anvil) (w : W128) : List (Nat × Nat) := scoreReads h a w ++ [recordReads h a (wdTwo a)]

/-- β of a lane and slot (R46). -/
def betaAt (a : Anvil) (h : List Byte) (k l slot : Nat) : Int :=
  sumI ((upto (wdGroups a)).map fun g =>
    let m := slotMult a k slot g
    3 * m * groupField a h false l g 2 + (if wdTwo a then 3 * m * ((groupField a h true l g 2 + 255) / 256) + 1 else 0))

/-- The total of a lane and slot, regions 2–3 added where param[22] asks (R67). -/
def laneTotal (a : Anvil) (w : W128) (l slot : Nat) : Int × Bool :=
  let (r, j) := laneTile (bits (stParam w) 25 24) l
  let t := tileEntry a r j slot
  if bit (stParam w) 22 then
    let u := tileEntry a (2 + l / 8) j slot
    (t.1 + u.1, t.2 || u.2)
  else t

/-- Whether a slot needs its low plane for a lane (R47, R67). -/
def needsLow (a : Anvil) (h : List Byte) (metric : Nat) (w : W128) (l slot : Nat) : Bool :=
  let t := laneTotal a w l slot
  let xn := BitVec.ofNat 32 (padNat a (stB w + 4 * slot) 4)
  let d := denseScore .up (t.1 + betaAt a h (stA w) l slot) (slotExp a (stA w) slot) (laneExp a h l)
  !t.2 && fGt (upperScore metric d (laneNorm a h l) xn) (thetaEff a l)

def opBound (p i : Nat) (w : W128) (s : State) : State :=
  let a := anvil s p i
  let h := anvHeader s a
  let m := wdMetric s a
  let masks := (upto 16).map fun l =>
    if l < a.lanes.length then BitVec.ofNat 64 (maskOf ((bitsOf 64 a.live.toNat).filter (needsLow a h m w l))) else 0
  stepDone (wdGroups a * a.lanes.length + 4 * a.lanes.length) p i
    (updAnvil p i (fun a => { a with needlo := masks, boundAny := masks.any (· != 0) }) s)
def execBound (p : Fin 12) (a : Fin 864) (sp : SpRead) (s : State) : Host.Outcome State Fault Refusal :=
  .next (readingOp p a 0x22 true (boundReads (anvHeader s (anvil s p a))) sp (opBound p a) s)

/-- The selection score of a lane and slot; an overflowed entry is NaN (R42). -/
def tileScore (a : Anvil) (h : List Byte) (metric : Nat) (w : W128) (l slot : Nat) : F32 :=
  let (r, j) := laneTile (bits (stParam w) 25 24) l
  let t := tileEntry a r j slot
  let xn := BitVec.ofNat 32 (padNat a (stB w + 4 * slot) 4)
  if t.2 then fNaN else metricScore metric (denseScore .ne t.1 (slotExp a (stA w) slot) (laneExp a h l)) (laneNorm a h l) xn

def opScore (p i : Nat) (w : W128) (s : State) : State :=
  let a := anvil s p i
  let h := anvHeader s a
  let m := wdMetric s a
  let out := (upto a.lanes.length).flatMap fun l => (upto 64).flatMap fun slot => leBytes 4 (tileScore a h m w l slot).toNat
  stepDone (4 * a.lanes.length) p i (updAnvil p i (padWrite (stDest w) out) s)
def execScore (p : Fin 12) (a : Fin 864) (sp : SpRead) (s : State) : Host.Outcome State Fault Refusal :=
  .next (readingOp p a 0x23 true (scoreReads (anvHeader s (anvil s p a))) sp (opScore p a) s)

/-! ### BFMA -/

def padF32 (a : Anvil) (k : Nat) : F32 := BitVec.ofNat 32 (padNat a k 4)
def padBf (a : Anvil) (k : Nat) : F32 := ofBf16 (BitVec.ofNat 16 (padNat a k 2))

/-- BFMA: the sum of DOT in a free order; AXPY and SCALE read A as fp32 (R74; log 54). -/
def bfma (k : Nat) (w : W128) (a : Anvil) : Anvil :=
  let n := stCount w
  let f := stParam w % 16
  let x := stA w
  let y := padF32 a (stB w)
  if f = 0 then padWrite (stDest w) (leBytes 4 (freeSum (freePick k) n ((upto n).map fun i => fMul (padBf a (x + 2 * i)) (padBf a (stB w + 2 * i)))).toNat) a
  else if f = 1 then padWrite (stDest w) ((upto n).flatMap fun i => leBytes 4 (fAdd (padF32 a (stDest w + 4 * i)) (fMul y (padF32 a (x + 4 * i)))).toNat) a
  else if f = 2 then padWrite (stDest w) ((upto n).flatMap fun i => leBytes 2 (toBf16 (padF32 a (x + 4 * i))).toNat) a
  else if f = 3 then padWrite (stDest w) ((upto n).flatMap fun i => leBytes 4 (fMul y (padF32 a (x + 4 * i))).toNat) a
  else a

def bfmaReads (_ : Anvil) (w : W128) : List (Nat × Nat) :=
  let n := stCount w
  let f := stParam w % 16
  if f = 0 then [(stA w, 2 * n), (stB w, 2 * n)] else if f = 1 then [(stA w, 4 * n), (stB w, 4), (stDest w, 4 * n)]
  else if f = 2 then [(stA w, 4 * n)] else [(stA w, 4 * n), (stB w, 4)]

def opBfma (p i : Nat) (w : W128) (s : State) : State :=
  let k := s.free
  spend (2 * stCount w) (stepDone (ceilDiv (stCount w) 64 + 4) p i (updAnvil p i (bfma k w) s))
def execBfma (p : Fin 12) (a : Fin 864) (sp : SpRead) (s : State) : Host.Outcome State Fault Refusal :=
  .next (readingOp p a 0x24 true bfmaReads sp (opBfma p a) s)

/-! ### SGATHER -/

/-- The weight of a posting descriptor's term in the query term table at k: a sparse part as R118 lays it out; a term not in it has weight
0, and the term of a block that no posting descriptor brought is a free choice of the table (log 55). -/
def termWeight (a : Anvil) (free k : Nat) : F32 :=
  let z := min 1024 (padNat a k 2)
  let at_ := fun i => padBf a (k + 8 + 4 * z + 2 * i)
  match a.desc with
  | some d => if d.kind = 2 then (match (upto z).find? fun i => padNat a (k + 8 + 4 * i) 4 == d.term with | some i => at_ i | none => 0)
    else at_ (Config.freeNat free % max 1 z)
  | none => at_ (Config.freeNat free % max 1 z)

/-- One posting block scored (R44, R141): the product of the weight with U added to each entry's accumulator, entry e of block b at
dest + 4 · (128b + e) (log 55). -/
def gatherBlock (a : Anvil) (w : W128) (wt : F32) (b : Nat) : Anvil :=
  let k := stA w + 4224 * b
  (upto (min 128 (padNat a (k + 5) 1))).foldl (fun a e =>
    let d := stDest w + 4 * (128 * b + e)
    let u := fRound .ne (xInt (padNat a (k + 128 + 32 * e + 6) 1))
    padWrite d (leBytes 4 (fAdd (padF32 a d) (fMul wt u)).toNat) a) a

/-- SGATHER: the blocks at A against the term table at B, into the accumulators at dest (R44, R74). -/
def opSgather (p i : Nat) (w : W128) (s : State) : State :=
  let k := s.free
  spend 1 (stepDone (8 * stCount w) p i (updAnvil p i (fun a =>
    (upto (stCount w)).foldl (fun b j => gatherBlock b w (termWeight a k (stB w)) j) a) s))
/-- Blocks, term table and accumulators. -/
def sgatherReads (a : Anvil) (w : W128) : List (Nat × Nat) :=
  [(stA w, 4224 * stCount w), (stB w, 8 + 6 * min 1024 (padNat a (stB w) 2)), (stDest w, 512 * stCount w)]
def execSgather (p : Fin 12) (a : Fin 864) (sp : SpRead) (s : State) : Host.Outcome State Fault Refusal :=
  .next (readingOp p a 0x25 true sgatherReads sp (opSgather p a) s)

end Sys2Proof.Machine
end

