-- ==== Sys2Proof/Machine/AnvilSel.lean ====
section
/-! DEFINITION. The sieve (R72, R73, R85), the selector (R69, R70) and EMIT (R71, R298); what SELECT offers under the standard patterns
whose steps are not listed (R131, R139, R143). -/

namespace Sys2Proof.Machine

/-! ### SIEVE -/

/-- The program of the binding: that of its commands, or of its chunk's (R122). -/
def sieveProg (s : State) (a : Anvil) : Option (List W32) :=
  if field a.wd 16 1 = 0xFF then none else (leadCmd s a).bind (·.prog)

/-- The zone pass over a header at k (R72, R85). A header with no occupied slot is NONE, whatever the program (R85; log 62). -/
def zonePass (y : Coll) (prog : Option (List W32)) (a : Anvil) (k : Nat) : Zone :=
  let wide := fun o => BitVec.ofNat 128 (padNat a (k + o) 16)
  if padNat a (k + 8) 8 = 0 then .none else zoneResult y prog (wide 32) (wide 48) (wide 64) (wide 80)

/-- A slot that the header at k shows occupied and committed at or below a snapshot (R73, R88). -/
def headerShows (a : Anvil) (k : Nat) (sn : Epoch) (slot : Nat) : Bool :=
  let epd := padNat a (k + 96 + 2 * slot) 2
  bit (padNat a (k + 8) 8) slot &&
  (bit (padNat a (k + 25) 1) 1 || (epd != 0xFFFF && epochLe (epochAdd (BitVec.ofNat 32 (padNat a (k + 16) 4)) epd) sn))

/-- The slot pass (R73): attributes at A, header at B, tombstones from the crucible, where their record stays as a cached line (R210). -/
def slotPass (s : State) (y : Coll) (prog : Option (List W32)) (a : Anvil) (d : Desc) (ka kb : Nat) : W64 :=
  let sn := BitVec.ofNat 32 (field a.wd 20 4)
  let tomb := (tombWord s d.brick sn).toNat
  BitVec.ofNat 64 (maskOf ((upto 64).filter fun slot => headerShows a kb sn slot && !bit tomb slot &&
    (a.zone == Zone.all.code || slotResult y prog (BitVec.ofNat 128 (padNat a (ka + 16 * slot) 16)))))

/-- Zone and slots of a brick by its own bytes, for patterns whose addresses are not listed. -/
def brickPass (s : State) (y : Coll) (prog : Option (List W32)) (sn : Epoch) (d : Desc) : Zone × W64 :=
  match brick? y d.brick with
  | none => (.none, 0)
  | some b =>
    let z := if occMask b = 0 then Zone.none else zoneResult y prog b.zmin b.zmax b.zor b.zand
    (z, BitVec.ofNat 64 (maskOf ((upto 64).filter fun i => visible s d.coll sn ⟨d.brick, i⟩ && slotResult y prog (slotOf b i).attr)))

def progLen (prog : Option (List W32)) : Nat := match prog with | some p => p.length | none => 0

/-- SIEVE (R72, R73); with no descriptor current it writes neither ANV_ZONE nor ANV_LIVE and takes 1 cycle (log 83). -/
def opSieve (p i : Nat) (w : W128) (s : State) : State :=
  let a := anvil s p i
  let prog := sieveProg s a
  match a.desc with
  | none => stepDone 1 p i s
  | some d =>
    let y := coll s d.coll
    if !listed a then
      let (z, m) := brickPass s y prog (BitVec.ofNat 32 (field a.wd 20 4)) d
      stepDone (9 * progLen prog + 8) p i (updAnvil p i (fun a => { a with zone := z.code, live := if d.kind = 1 then a.live else m }) s)
    else if stParam w = 1 then
      let m := slotPass s y prog a d (stA w) (stB w)
      stepDone (8 * (if a.zone == Zone.all.code then 0 else progLen prog) + 8) p i
        (cacheLines (p * 2 ^ 36 + tombAddr d.brick) 16 (updAnvil p i (fun a => { a with live := m }) s))
    else
      let z := zonePass y prog a (stA w)
      stepDone (progLen prog) p i (updAnvil p i (fun a => { a with zone := z.code }) s)
def sieveReads (_ : Anvil) (w : W128) : List (Nat × Nat) := if stParam w = 1 then [(stA w, 1024), (stB w, 256)] else [(stA w, 256)]
def execSieve (p : Fin 12) (a : Fin 864) (sp : SpRead) (s : State) : Host.Outcome State Fault Refusal :=
  .next (readingOp p a 0x30 true sieveReads sp (opSieve p a) s)

/-! ### SELECT (R69, R70) -/

/-- The list without the entry that an admission to a full lane evicts: the lowest, the last admitted among equals. -/
def evict (l : List Entry) : List Entry :=
  let m := lowest l
  let r := l.reverse
  match r.findIdx? fun e => fEq e.score m with
  | some j => (r.eraseIdx j).reverse
  | none => l.dropLast

/-- One offer to a lane: NaN withheld and counted, others admitted above θ_eff; a bound lane that the selector configuration does not
have takes nothing (log 63). -/
def offer (l : Nat) (e : Entry) (a : Anvil) : Anvil :=
  if l ≥ laneCount a.conf.toNat then a
  else if fIsNaN e.score then { a with nancnt := a.nancnt + 1, laneNan := lset a.laneNan l (lget a.laneNan l 0 + 1) 0 }
  else if fGt e.score (thetaEff a l) then
    let es := laneEntries a l
    { a with sel := lset a.sel l ((if es.length ≥ laneCap a l then evict es else es) ++ [e]) [] }
  else a

/-- An offer that is admitted, an evicting one too: it costs a cycle (R56). -/
def admits (l : Nat) (e : Entry) (a : Anvil) : Bool := decide (l < laneCount a.conf.toNat) && !fIsNaN e.score && fGt e.score (thetaEff a l)

/-- The entry of a slot: generation from its header, tombstone data apart. -/
def slotEntry (s : State) (p : Nat) (d : Desc) (key : Key) (score : F32) (slot : Nat) : Entry :=
  let gen := match brick? (coll s d.coll) d.brick with | some b => (slotOf b slot).gen | none => 0
  { key := key, score := score, module := s.aon.modid, ptn := p, gen := gen, brick := d.brick, slot := slot }

/-- The score a stored vector has for a row, by the tiers read (R39–R43). -/
def storedScore (y : Coll) (e : Enc) (r : QRow) (two low refine : Bool) : F32 :=
  metricScore y.metric (denseScore .ne (totalT (groupSize y) e r two low refine) e.ev r.eq) r.qnorm e.norm

/-- What a brick's live slots score for a row under REFINE, XSCAN or CSCAN2 (R68, R130, R131, R139). -/
def patternEntries (s : State) (p : Nat) (a : Anvil) (d : Desc) (x : Cmd) (r : QRow) : List Entry :=
  let y := coll s d.coll
  match brick? y d.brick with
  | none => []
  | some b =>
    let refine := twoTier y && !tNoRefine x.entry && (a.pattern == 2 || a.pattern == 3)
    (bitsOf 64 a.live.toNat).map fun i =>
      { slotEntry s p d (slotOf b i).key (storedScore y (slotOf b i).enc r (tTwoLimb x.entry) true refine) i with
        refined := refine, settled := b.kind == 2 && a.pattern == 3 && x.opcode != 0x12 }

/-- The weight of a term in a row. -/
def termWt (r : QRow) (t : Nat) : F32 := ofBf16 (((r.terms.find? fun k => k.1 == t).map (·.2)).getD 0)

/-- A block is skipped: its zone summary gives NONE, or RU(w × BMAX) does not exceed the lane's threshold (R143). -/
def blockSkipped (y : Coll) (x : Cmd) (w th : F32) (es : List Posting) : Bool :=
  let z := postingZone y es
  zoneResult y x.prog z.zmin z.zmax z.zor z.zand == .none || !fGt (fMulD .up w (blockMax es)) th

/-- The postings of a block that the filter and the snapshot let through, with w × u and RNE(w × u × σ) (R142–R144). -/
def blockEntries (s : State) (p : Nat) (d : Desc) (x : Cmd) (r : QRow) (es : List Posting) : List Entry :=
  let y := coll s d.coll
  let w := termWt r d.term
  (es.filter fun e => (e.epoch == 0 || epochLe e.epoch x.snap) && !bit (tombWord s e.brick x.snap).toNat e.slot && slotResult y x.prog e.attr).map fun e =>
    let wu := fMul w (BitVec.ofNat 32 (fRound .ne (xInt e.u)).toNat)
    let key := match brick? y e.brick with | some b => (slotOf b e.slot).key | none => 0
    { slotEntry s p { d with brick := e.brick } key (fMul wu e.sigma) e.slot with sparse := wu }

/-- What a piece of 32 blocks offers a lane, block after block, each against the threshold that the blocks before it left (R143). -/
def pieceEntries (s : State) (p : Nat) (a : Anvil) (d : Desc) (x : Cmd) (r : QRow) (l : Nat) : List Entry :=
  let y := coll s d.coll
  let w := termWt r d.term
  ((((termBlocks y p d.term).drop (32 * d.list)).take 32).foldl (fun acc b =>
    if blockSkipped y x w (thetaEff acc.2 l) b.entries then acc
    else
      let es := blockEntries s p d x r b.entries
      (acc.1 ++ es, es.foldl (fun a e => offer l e a) acc.2)) (([] : List Entry), a)).1

/-- Offers of a lane: (entry, lane) in slot order. -/
def laneOffers (s : State) (p : Nat) (a : Anvil) (d : Desc) (w : W128) (l : Nat) : List Entry :=
  match a.lanes[l]? with
  | none => []
  | some q => match laneCmd s q, laneRow s q with
    | some x, some r =>
      if listed a then
        ((upto 64).filter fun i => stParam w % 2 == 0 || bit a.live.toNat i).map fun i =>
          slotEntry s p d (BitVec.ofNat 64 (padNat a (stB w + 8 * i) 8)) (BitVec.ofNat 32 (padNat a (stA w + 4 * (64 * l + i)) 4)) i
      else if a.pattern = 4 then pieceEntries s p a d x r l
      else patternEntries s p a d x r
    | _, _ => []

/-- Candidates offered are counted for the lane's context (R240). -/
def countOffers (ctx n : Nat) (s : State) : State :=
  updCtx ctx (fun k => { k with counters := { k.counters with select := k.counters.select + BitVec.ofNat 64 n } }) s

/-- A frame that an unlisted pattern scores holds a poisoned word in a part its steps read (R220). -/
def framePoisoned (s : State) (a : Anvil) (d : Desc) : Bool :=
  let y := coll s d.coll
  !listed a && a.pattern != 4 && a.pattern != 6 && if d.kind = 3 then rangePoisoned s d.brick (1600 + 64 * coordN y) else
  (brick? y d.brick).isSome && rangePoisoned s d.brick (if twoTier y && (a.pattern == 2 || a.pattern == 3) then frameSize y else partOffset y false 7)

/-- What stands for the descriptor where none is current: no brick of any collection, whose slots have generation 0 (R70; log 83). -/
def noDesc : Desc := { brick := 0, kind := 0, coll := 65536 }

/-- SELECT offers the scores at A with the keys at B; with no descriptor current a pattern that is not listed has nothing to score (R70). -/
def opSelect (p i : Nat) (w : W128) (s : State) : State :=
  let a := anvil s p i
  let d := a.desc.getD noDesc
  if a.desc.isSome && framePoisoned s a d then poisonFault p i s
  else
    let offers := (upto a.lanes.length).map fun l => (l, laneOffers s p a d w l)
    let s := offers.foldl (fun s o => match (a.lanes[o.1]?).bind (laneCmd s) with
      | some x => countOffers x.ctx o.2.length s
      | none => s) s
    let r := offers.foldl (fun r o => o.2.foldl (fun r e => (offer o.1 e r.1, r.2 + if admits o.1 e r.1 then 1 else 0)) r) (a, 0)
    let a' := r.1
    let n := r.2
    stepDone (4 * a.lanes.length + n) p i (updAnvil p i (fun _ => a') s)
def selectReads (a : Anvil) (w : W128) : List (Nat × Nat) := [(stA w, 256 * a.lanes.length), (stB w, 512)]
def execSelect (p : Fin 12) (a : Fin 864) (sp : SpRead) (s : State) : Host.Outcome State Fault Refusal :=
  .next (readingOp p a 0x32 true selectReads sp (opSelect p a) s)

/-- SELCLR: the lanes of the mask emptied. -/
def opSelclr (p i : Nat) (w : W128) (s : State) : State :=
  stepDone 8 p i (updAnvil p i (fun a => { a with sel := a.sel.zipIdx.map fun (l, j) => if bit (stParam w) j then [] else l }) s)
def execSelclr (p : Fin 12) (a : Fin 864) (s : State) : Host.Outcome State Fault Refusal := .next (runOp p a 0x33 (opSelclr p a) s)

/-! ### EMIT (R71) -/

/-- The order of a list: score descending, key ascending (R147). -/
def entryBefore (a b : Entry) : Bool := fGt a.score b.score || (fEq a.score b.score && decide (a.key.toNat ≤ b.key.toNat))
def sortEntries (l : List Entry) : List Entry := sortBy entryBefore l

/-- The stage that a pattern's lists belong to (R151): XSCAN's are the loose bricks' unless it runs an exact scan. -/
def patternStage (a : Anvil) (exact : Bool) : FStage :=
  if a.pattern = 2 then .refine else if a.pattern = 4 then .sparse ((a.desc.map (·.term)).getD 0)
  else if a.pattern = 3 && !exact then .loose else .coarse

/-- A list of one of its inputs put into a node's slot of a row. -/
def addInput (node : FoldNode) (stage : FStage) (src : Nat) (es : List Entry) (nan : Nat) (r : QRow) : QRow :=
  let hit := fun n : Node => n.node == node && n.stage == stage
  if r.nodes.any hit then { r with nodes := r.nodes.map fun n => if hit n then { n with inputs := n.inputs ++ [(src, es)], nan := n.nan + nan } else n }
  else { r with nodes := r.nodes ++ [{ node := node, stage := stage, inputs := [(src, es)], nan := nan }] }

def updRow (c row : Nat) (f : QRow → QRow) (s : State) : State :=
  updCmd c (fun x => match x.rows[row]? with
    | some r => { x with rows := x.rows.set row (f r) }
    | none => x) s

/-- A lane's entries and its own NaN count put into its row fold (R71, R148). -/
def emitLane (p i : Nat) (a : Anvil) (q : LaneReq) (l : Nat) (s : State) : State :=
  updRow q.cmd q.row (addInput (.row (Fin.ofNat 12 p) (Fin.ofNat 24 (i / 36))) (patternStage a ((cmd? s q.cmd).any fun x => x.opcode == 0x12)) (i % 36)
    (sortEntries (laneEntries a l)) (lget a.laneNan l 0)) s
/-- Lanes emitted one after another, each once the slot of its command is empty; the first that finds it full, and the state (R298). -/
def emitLanes (p i : Nat) (a : Anvil) : List (LaneReq × Nat) → State → Option Nat × State
  | [], s => (none, s)
  | (q, l) :: t, s => if laneCredit s p i q then emitLanes p i a t (emitLane p i a q l s) else (some l, s)
/-- EMIT is over: a count sent is not sent again (log 64). -/
def emitDone (w : W128) (a : Anvil) : Anvil :=
  { a with emitted := 0, laneNan := a.laneNan.map fun _ => 0, sel := if stParam w % 2 = 1 ∨ !listed a then a.sel.map fun _ => [] else a.sel }

/-- EMIT: it starts with fold credit, and each lane in turn goes to its row fold (R71, R148, R298); the scores of a descriptor that an engine asked
for go there. -/
def opEmit (p i : Nat) (w : W128) (s : State) : State :=
  let a := anvil s p i
  if a.emitted = 0 && !foldCredit s p i then waitFor .waitCredit p i s
  else
    let lanes := if a.desc.any (·.quiet) then [] else a.lanes.zipIdx.drop a.emitted
    match emitLanes p i a lanes s with
    | (some l, s) => updAnvil p i (fun a => { a with emitted := l }) (waitFor .waitCredit p i s)
    | (none, s) => stepDone (4 + a.sel.foldl (fun n l => n + l.length) 0 / 2) p i (updAnvil p i (emitDone w) s)
def execEmit (p : Fin 12) (a : Fin 864) (s : State) : Host.Outcome State Fault Refusal := .next (runOp p a 0x34 (opEmit p a) s)

end Sys2Proof.Machine
end

