-- ==== Sys2Proof/Machine/Completion.lean ====
section
/-! DEFINITION. The completion of a command: result entries (R158–R163), counts and epochs (R138, R162, R177), slow-down
(R256, R257), accounting (R240, R241), posted order (R289), what is freed (R297). -/

namespace Sys2Proof.Machine

/-- A result entry (R158, R159). -/
def entryBytes (metric : Nat) (hyb : Bool) (en : Entry) : List Byte :=
  leBytes 8 en.key.toNat ++ leBytes 4 (fPlusZero (returnedScore metric hyb en.score)).toNat ++
  leBytes 4 (min 255 en.ties * 2 ^ 24 + en.module % 64 * 2 ^ 16 + (if en.far then 512 else 0) + (if en.refined then 256 else 0) +
    en.gen.toNat * 16 + en.ptn % 16)

/-- A padding entry (R158). -/
def paddingBytes : List Byte := List.replicate 8 0xFF ++ leBytes 4 fNegInf.toNat ++ List.replicate 4 0

/-- The k entries of a row, padded (R160). -/
def rowBytes (metric : Nat) (hyb : Bool) (k : Nat) (r : QRow) : List Byte :=
  let l := (r.final.getD []).take k
  l.flatMap (entryBytes metric hyb) ++ (List.replicate (k - l.length) paddingBytes).flatMap id

/-- n of a row (R160, R162). -/
def rowCount (k : Nat) (r : QRow) : Nat := min k (r.final.getD []).length

/-- Result entries of every row, before the completion (R160, R163, R289). -/
def writeResults (c : Nat) (x : Cmd) (s : State) : State :=
  let y := coll s x.coll
  let k := sK x.entry
  (x.rows.zipIdx).foldl (fun s (r, i) =>
    postWrite { kind := .result c k, addr := BitVec.ofNat 64 (sResult x.entry + 16 * k * i), bytes := rowBytes y.metric (x.opcode == 0x11) k r } s) s

/-! ### Slow-down (R256, R257) -/

/-- The ratio in Q8.8, clamped to 1.0–255.996, once 1,000 commands are measured. -/
def slowDown (m : List (Nat × Nat)) : Option Nat :=
  if m.length < 1000 then none
  else
    let ss := m.foldl (fun n p => n + p.1) 0
    let xs := m.foldl (fun n p => n + p.2) 0
    some (min 65535 (max 256 (256 * ss / max 1 xs)))

/-- S of a command: its time since admission less what it waited on the host (R256). -/
def serviceTime (s : State) (x : Cmd) : Nat := (ptn s x.home).cycles.toNat - x.admitCyc - x.hostCyc

/-- The context's counters and measured list after a completion (R148, R240, R256). -/
def account (x : Cmd) (solo : Nat) (s : State) : State :=
  updCtx x.ctx (fun k => { k with
    measured := if x.admitted then ((serviceTime s x, max 1 solo) :: k.measured).take 1000 else k.measured
    counters := { k.counters with cmds := k.counters.cmds + 1, nanDrop := k.counters.nanDrop + BitVec.ofNat 64 x.nan } }) s

/-! ### Clip windows (R31) -/

/-- A window of 2^20 codes is judged against 2^(20 − τ), which is a fraction for τ above 20 (R31). -/
def judgeWindow (p c : Nat) (s : State) : State :=
  match (collPtn (coll s c) p).closedWins with
  | [] => s
  | (n, cmd) :: rest =>
    let s := updCollPtn c p (fun w => { w with closedWins := rest }) s
    if n * 2 ^ (coll s c).tau > 2 ^ 20 then updCmd cmd (fun x => { x with sat := true }) (raise .satDrift 1 c 0 s) else s
/-- Every window of a collection that has closed is judged. -/
def judgeAll (c : Nat) (s : State) : State :=
  (coll s c).ptns.foldl (fun s w => w.2.closedWins.foldl (fun s _ => judgeWindow w.1 c s) s) s
/-- The windows that an ingest command's encoding closed are judged before its completion, which carries SAT_DRIFT (R31). -/
def judgeFor (c : Nat) (s : State) : State :=
  match cmd? s c with
  | some x => if isIngest x.opcode ∧ x.stage = .final then judgeAll x.coll s else s
  | none => s

/-! ### The completion entry -/

/-- d of this module: every pair where its probing came to its end (R138). -/
def ownDone (x : Cmd) : Nat := if x.ownHit then x.pairsDone else x.pairs

/-- The count field (R138, R162, R177). -/
def countField (s : State) (x : Cmd) : Nat :=
  if isSearch x.opcode ∧ x.status = .ok then
    let k := sK x.entry
    (x.rows.foldl (fun n r => min n (rowCount k r)) k) + 65536 * budget x.deadlineHit (ownDone x + x.peerDone) (x.pairs + x.peerPairs) (Config.freeNat s.free)
  else if x.opcode = 0x30 ∧ x.status = .ok then (coll s x.coll).horizon.toNat
  else x.count

/-- The epoch field (R13, R177, R179). -/
def epochField (s : State) (x : Cmd) : Epoch :=
  if x.noEpoch then 0
  else if isSearch x.opcode ∧ x.admitted then x.snap
  else if (x.opcode = 0x30 ∨ x.opcode = 0x28) ∧ x.admitted then (coll s x.coll).latest
  else x.epoch

/-- The flags of a search's rows and of the command (R162, R278). -/
def flagField (x : Cmd) (slow : Option Nat) : Nat :=
  let ok := isSearch x.opcode && x.status == .ok
  completionFlags (ok && x.rows.any fun r => decide (rowCount (sK x.entry) r < sK x.entry)) (ok && x.rows.any (·.tie))
    (ok && x.deadlineHit) (ok && x.dedup) x.sat slow.isSome x.rerun

/-- PARTIAL_LIST of a module other than the root: NQ × W entries as R158 lays them out, so with distances under L2, padded (R332, R340). -/
def partialMsg (s : State) (x : Cmd) (c root : Nat) : Msg :=
  let w := listLen x.entry
  let head := [x.status.code, BitVec.ofNat 8 (flagBits [x.dedup, x.deadlineHit])] ++ leBytes 2 (sNq x.entry) ++ leBytes 4 x.nan ++
    leBytes 4 x.snap.toNat ++ leBytes 4 x.pairs ++ leBytes 4 (ownDone x) ++ leBytes 2 w ++ List.replicate 10 0
  cmdMsg s x c 2 root true (head ++ (if x.status = .ok then x.rows.flatMap (rowBytes (coll s x.coll).metric (x.opcode == 0x11) w)
    else (List.replicate (sNq x.entry * w) paddingBytes).flatMap id))

/-- A number whose record outlives its completion: granules after a doorbell TIMEOUT (R282), a journal record on its way (R186). -/
def lingers (s : State) (c : Nat) (x : Cmd) : Bool :=
  (x.granules.isSome && x.status == .timeout && x.fault == 0 && x.admitted) ||
  ((journal? s x.ctx).any fun j => j.recs.any fun r => r.cmd == c)

/-- Everything the command held is freed, but for what lingers (R297). -/
def release (c : Nat) (x : Cmd) (s : State) : State :=
  let keepG := x.granules.isSome && x.status == .timeout && x.fault == 0 && x.admitted
  let holds := if isSearch x.opcode ∧ x.status = .ok then x.holds.filter (·.pool ≠ .resultBuf) else x.holds
  let s := freePools holds s
  let s := if keepG then s else freeGranules x.granules s
  if lingers s c x then updCmd c (fun k => { k with stage := .done, holds := [], rows := [], payload := [], granules := if keepG then k.granules else none }) s
  else delCmd c s

/-- The completion of a command waits behind a full host write queue. -/
def behindQueue (c : Nat) (s : State) : Bool := s.host.posting.any fun w => match w.kind with | .completion _ k => k == some c | _ => false
/-- What a command holds is freed once its completion is in the host write queue, or can no longer come there (R297). -/
def releaseWritten (c : Nat) (x : Cmd) (s : State) : State :=
  if behindQueue c s then updCmd c (fun k => { k with written := true }) s else release c x s

/-- The completion entry of a command with a ring, and its reserved slots beyond the one used (a refused TRDY or a TIMEOUT uses one). -/
def completeOnRing (c : Nat) (x : Cmd) (solo : Nat) (s : State) : State :=
  let s := if isSearch x.opcode ∧ x.status = .ok then writeResults c x s else s
  let s := account x solo s
  let slow := (ctx? s x.ctx).bind fun k => slowDown k.measured
  let s := writeCompletion x.ring (some c) (eIntr x.entry) (fun ph =>
    completionBytes x.tag x.status ph (flagField x slow) (countField s x) (epochField s x) (x.anvilCyc / 1800) (slow.getD 0) x.fault
      (ring s x.ring).sqHead) s
  let s := spend 1 s
  let s := if x.nan > 0 then raise .nanDrop 5 x.ctx 0 s else s
  settleWaiters (releaseWritten c x s)

/-- A module other than the root answers with its list or its failure (R333, R340). -/
def completeToRoot (c root : Nat) (x : Cmd) (s : State) : State :=
  let s := if isSearch x.opcode then sendMsg (partialMsg s x c root) s
    else if x.status = .ok then s else sendMsg (insertRsp s x c root x.status x.epoch x.count) s
  release c x s

/-- COMPLETION_WRITE: results, then the completion, then the message (R289); `solo` is X of R256 in cycles. -/
def writeOut (c solo : Nat) (s : State) : State :=
  match cmd? s c with
  | none => s
  | some x =>
    if x.stage ≠ .final ∨ x.written then s
    else match x.origin with
      | some (root, _) => completeToRoot c root x s
      | none => if x.silent then settleWaiters (release c x s) else if linkServes s then completeOnRing c x solo s else s
def execCompletionWrite (c solo : Nat) (s : State) : Host.Outcome State Fault Refusal := .next (writeOut c solo (judgeFor c s))

/-! ### The host write queue (R297, R301) -/

/-- The link takes posted writes: up, in D0; a degraded link still carries CXL.io messages (R260, R275). -/
def linkPosts (s : State) : Bool := s.host.link.up && !s.host.link.d3hot

/-- A write that waited enters the host write queue; the command whose completion it is frees what it holds (R297). -/
def letIn (w : HostWrite) (s : State) : State :=
  let s := enterWrite w s
  match w.kind with
  | .completion _ (some c) => match cmd? s c with
    | some x => settleWaiters (release c x s)
    | none => s
  | _ => s
/-- The writes that wait enter in order, as long as they fit (R299). -/
def refillQueue : Nat → State → State
  | 0, s => s
  | n + 1, s => match s.host.posting with
    | w :: rest => if queueLines s + ceilDiv w.bytes.length 64 ≤ 512 then refillQueue n (letIn w (updHost (fun h => { h with posting := rest }) s)) else s
    | [] => s

/-- The link, in L0 again, accepts the oldest posted write, and where there is none the oldest CXL.cache write, which no posted write stands behind
(R288, R301). -/
def acceptWrite (s : State) : State :=
  let s := updLink (fun l => { l with aspm := .l0 }) s
  match s.host.writes with
  | _ :: rest => refillQueue s.host.posting.length (updHost (fun h => { h with writes := rest }) s)
  | [] => updHost (fun h => { h with cache := h.cache.drop 1 }) s
def execHostWriteAccept (s : State) : Host.Outcome State Fault Refusal := onlyIf (linkPosts s) acceptWrite s

end Sys2Proof.Machine
end

