-- ==== Sys2Proof/Machine/Crucible.lean ====
section
/-! DEFINITION. Atomics of the home crucible (R213–R217): residency and locks, the sixteen operations, what they return. -/

namespace Sys2Proof.Machine

/-! ### Residency (R215) -/

/-- The line of an atomic pulled in and locked, or run in transit with ATOMIC_TRANSIT. -/
def lockLine (p line job : Nat) (s : State) : State :=
  let x := ptn s p
  if resident x line then s
  else if pinsInSet x.pins line + locksInSet x line < 14 && decide (x.locked.length < 16384) then
    updPtn p (fun x => trimCached { x with locked := tset x.locked line job }) s
  else raise .atomicTransit 4 p 0 s

/-! ### The operations (R214) -/

/-- The new value of a 64-bit target where the operation writes one: target, operand, second operand. -/
def atomValue (code old v v' : Nat) : Option Nat :=
  let m := 2 ^ 64
  if code = 0x01 then some ((old + v) % 2 ^ 32)
  else if code = 0x02 then some ((old + v) % m)
  else if code = 0x03 then some (min old v)
  else if code = 0x04 then some (max old v)
  else if code = 0x05 then some (if toSigned 64 v < toSigned 64 old then v else old)
  else if code = 0x06 then some (if toSigned 64 v > toSigned 64 old then v else old)
  else if code = 0x07 then some (old &&& v)
  else if code = 0x08 then some (old ||| v)
  else if code = 0x09 then some (old ^^^ v)
  else if code = 0x0A then (if old = v % 2 ^ 32 then some (v / 2 ^ 32) else none)
  else if code = 0x0B then (if old = v then some v' else none)
  else if code = 0x0C then some (if bit old (v % 64) then old else old + 2 ^ (v % 64))
  else if code = 0x0D then some (if bit old (v % 64) then old - 2 ^ (v % 64) else old)
  else if code = 0x0E then some (min (old + 1) 0xFFFFFFFF)
  else none

/-- What SEM_ACQ returns to a context that holds 16 semaphores here (R216). -/
def semFull : Nat := 0xFFFF000000000000
def semHeld (w : Nat) : Bool := bit w 63
def semOwner (w : Nat) : Nat := bits w 59 48

/-- What an operation writes and returns; semaphores name the issuing context and its holdings here (R214, R216). -/
def atomResult (code ctx held old v v' : Nat) : Option Nat × Nat :=
  if code = 0x10 then
    if held ≥ 16 then (none, semFull)
    else if old = 0 then (some (2 ^ 63 + ctx % 4096 * 2 ^ 48 + v % 2 ^ 48), old)
    else (none, old)
  else if code = 0x11 then (if semHeld old && semOwner old == ctx then (some 0, old) else (none, old))
  else (atomValue code old v v', old)

/-- The holder table of the context follows its semaphore (R216). -/
def noteHolder (code p ctx addr : Nat) (wrote : Bool) (s : State) : State :=
  if !wrote then s
  else if code = 0x10 then updPtn p (fun x => { x with holders := tset x.holders ctx (addr :: tgetD x.holders ctx []) }) s
  else if code = 0x11 then updPtn p (fun x => { x with holders := tset x.holders ctx ((tgetD x.holders ctx []).filter (· ≠ addr)) }) s
  else s

/-! ### Performing one (R213) -/

/-- The element is no longer outstanding at its anvil; old values go to dest (R65), for CAS64 with the swap flag. An anvil stopped by a
kill takes nothing. -/
def returnOld (r : AtomReq) (old : Nat) (swapped : Bool) (s : State) : State :=
  match r.from_ with
  | none => s
  | some (p, i) =>
    let d := match r.ret with | some x => x.2.2 | none => 0x10000
    let back := leBytes 8 old ++ (if r.code = 0x0B then leBytes 8 (if swapped then 1 else 0) else [])
    updAnvil p i (fun a => match a.outst.findIdx? fun o => o.isAtom && o.addr == r.addr && o.dest == d with
      | some k =>
        let a := { a with outst := a.outst.eraseIdx k }
        if r.ret.isSome then landBytes d back (fun _ => false) a else a
      | none => a) s

/-- The POISON code that a command's completion carries: that of the anvil whose step consumed the word (R76, R220). -/
def atomPoison (r : AtomReq) : W32 := match r.from_ with | some (p, i) => anvilFault 5 p i | none => 0

/-- The firewall's refusal (R383): the code, and L0 of the context. -/
def refuseAccess (p ctx : Nat) (s : State) : State :=
  let code := faultCode 10 0x57 p (3 * 2 ^ 12 + ctx)
  startL0 ctx code none (postFault code s)

/-- A context's job owns a partition. -/
def ownsHome (s : State) (ctx p : Nat) : Bool := (ctx? s ctx).any fun x => (ptn s p).job == some x.job

/-- An element performed: refused by the firewall, refused on poison (R214), or done. -/
def performAtom (p : Nat) (r : AtomReq) (s : State) : State :=
  if !ownsHome s r.ctx p then returnOld r 0 false (refuseAccess p r.ctx s)
  else if wordPoisoned s r.addr then failAll (atomCmds s r) .uncorrectable (atomPoison r) (returnOld r 0 false s)
  else
    let n := atomWidth r.code
    let s := lockLine p (lineOf (stackOff r.addr)) (ctxJob s r.ctx) s
    let old := leNat (memBytes s r.addr n)
    let (new, back) := atomResult r.code r.ctx (tgetD (ptn s p).holders r.ctx []).length old r.operand.toNat r.second.toNat
    let s := match new with | some v => writeMem r.addr (leBytes n v) s | none => s
    returnOld r back new.isSome (noteHolder r.code p r.ctx r.addr new.isSome s)

/-- The element has an earlier request of its anvil to its line before it (R198). -/
def atomBehind (s : State) (r : AtomReq) : Bool :=
  match r.from_ with
  | none => false
  | some (q, i) =>
    let os := (anvil s q i).outst
    match os.findIdx? fun o => o.isAtom && o.addr == r.addr with
    | some k => (os.take k).any fun e => !e.isAtom && !e.served && shareLine e.addr (64 * e.lines) r.addr 1
    | none => false

/-- The front element is put back with what it has drawn and how it waits. -/
def setAtomHead (p : Nat) (r : AtomReq) (s : State) : State := updPtn p (fun x => { x with atomQ := r :: x.atomQ.tail }) s

/-- A far element draws its issue and Seam tokens once; one that finds none on the issue bucket is counted once (R199, R202). -/
def issueAtom (p q : Nat) (r : AtomReq) (s : State) : State × Bool :=
  if r.issued then (s, true)
  else match takeIssue (some q) p 1 s with
    | some s => (setAtomHead p { r with issued := true, waits := false } s, true)
    | none =>
      if r.waits || issueHas (some q) (tokens 1) s then (s, false)
      else (updReg q (fun g => { g with issWaited := g.issWaited + 1 }) (setAtomHead p { r with waits := true } s), false)

/-- The front element of the home bank, if it is of the given code; a far one meets the fence response of a home past step 4 of its fence, or draws
its tokens first; one that finds no receive token waits for its turn in the far queue (R198, R199, R213, R353). -/
def homeAtomic (p code : Nat) (s : State) : State :=
  match (ptn s p).atomQ with
  | [] => s
  | r :: rest =>
    if r.code ≠ code ∨ atomBehind s r then s
    else if pastDrain (ptn s p) ∧ r.from_.any (fun f => f.1 ≠ p) then
      failAll (atomCmds s r) .fenced (fenceCode (ptn s p)) (returnOld r 0 false (updPtn p (fun x => { x with atomQ := rest }) s))
    else if !anvilClock (ptn s p) then s
    else
      let go := fun s => performAtom p r (updPtn p (fun x => { x with atomQ := rest }) s)
      match r.from_ with
      | some (q, _) =>
        if q = p ∨ r.granted then go s
        else if r.issued && r.waits then s
        else match issueAtom p q r s with
          | (s, false) => s
          | (s, true) =>
            let wait := fun s => noteReceiveWait (some q) p 1 (setAtomHead p { r with issued := true, waits := true } s)
            if (ptn s p).farQ.isEmpty then match takeReceive p 1 s with
              | some s => go s
              | none => wait s
            else wait s
      | none => go s

def execAdd32 (p : Fin 12) (s : State) : Host.Outcome State Fault Refusal := .next (homeAtomic p 0x01 s)
def execAdd64 (p : Fin 12) (s : State) : Host.Outcome State Fault Refusal := .next (homeAtomic p 0x02 s)
def execMinu (p : Fin 12) (s : State) : Host.Outcome State Fault Refusal := .next (homeAtomic p 0x03 s)
def execMaxu (p : Fin 12) (s : State) : Host.Outcome State Fault Refusal := .next (homeAtomic p 0x04 s)
def execMins (p : Fin 12) (s : State) : Host.Outcome State Fault Refusal := .next (homeAtomic p 0x05 s)
def execMaxs (p : Fin 12) (s : State) : Host.Outcome State Fault Refusal := .next (homeAtomic p 0x06 s)
def execAndOp (p : Fin 12) (s : State) : Host.Outcome State Fault Refusal := .next (homeAtomic p 0x07 s)
def execOrOp (p : Fin 12) (s : State) : Host.Outcome State Fault Refusal := .next (homeAtomic p 0x08 s)
def execXorOp (p : Fin 12) (s : State) : Host.Outcome State Fault Refusal := .next (homeAtomic p 0x09 s)
def execCas32 (p : Fin 12) (s : State) : Host.Outcome State Fault Refusal := .next (homeAtomic p 0x0A s)
def execCas64 (p : Fin 12) (s : State) : Host.Outcome State Fault Refusal := .next (homeAtomic p 0x0B s)
def execBitset (p : Fin 12) (s : State) : Host.Outcome State Fault Refusal := .next (homeAtomic p 0x0C s)
def execBitclr (p : Fin 12) (s : State) : Host.Outcome State Fault Refusal := .next (homeAtomic p 0x0D s)
def execHinc (p : Fin 12) (s : State) : Host.Outcome State Fault Refusal := .next (homeAtomic p 0x0E s)
def execSemAcq (p : Fin 12) (s : State) : Host.Outcome State Fault Refusal := .next (homeAtomic p 0x10 s)
def execSemRel (p : Fin 12) (s : State) : Host.Outcome State Fault Refusal := .next (homeAtomic p 0x11 s)

end Sys2Proof.Machine
end

