-- ==== Sys2Proof/Machine/Link.lean ====
section
/-! DEFINITION. The host link (R258–R261, R264, R275, R288, R411, R412) and the HDM window (R265, R267). -/

namespace Sys2Proof.Machine

/-- What follows a change of the link's service: counted retrains (R362). -/
def noteRetrain (counted : Bool) (s : State) : State := if counted then countRetrain s else s

/-- A ring command ends with no completion: withdrawn, its pools and granules freed, other modules told to drop it (R261, R344); one past COMMIT
commits first (R341). -/
def vanish (c : Nat) (s : State) : State :=
  match cmd? s c with
  | none => s
  | some x =>
    if mustCommit x then updCmd c (fun k => { k with silent := true }) s else
    let s := if x.committing then s else abortAll x c 0 .ok s
    delCmd c (freeGranules x.granules (freePools x.holds (withdraw c s)))

/-- Ring commands that R261 kills. -/
def ringCmds (s : State) : List Nat := cmdsOf (fun x => liveCmd x && x.origin.isNone) s

/-- Rings in ERROR, no slot reserved but those of a waiting head. -/
def errorRings (s : State) : State :=
  updHost (fun h => { h with rings := tmap (fun _ (x : Ring) => { x with st := .error, reserved := x.heldSlots, ctimeOn := false }) h.rings }) s

/-- Posted and CXL.cache writes discarded, with the result-buffer entries of those that waited to enter the queue. -/
def dropWrites (s : State) : State :=
  let n := s.host.posting.foldl (fun n w => match w.kind with | .result _ k => n + k | _ => n) 0
  freePool { pool := .resultBuf, amount := n } (updHost (fun h => { h with writes := [], posting := [], cache := [], memWaits := [] }) s)

/-- The class 0x5 code of the CXL port: 7 LINK_DOWN, 8 LINK_DEGRADED (R433). -/
def portFault (cause : Nat) : W32 := faultCode 5 0x70 0xF (cause * 2 ^ 12)

/-- Journal writes and re-reads in flight end without a completion (R261). -/
def cutJournal (j : Journal) : Journal :=
  { j with rereading := false, recs := j.recs.map fun r => if r.st = .writing then { r with st := .failed } else r }

/-- The effects of a link loss on commands, rings and posted writes (R261). -/
def loseWork (s : State) : State :=
  let s := postFault (portFault 7) s
  let cs := ringCmds s
  let s := cs.foldl (fun s c => vanish c s) (dropWork (fun c => cs.contains c) s)
  let s := endKills (dropWrites (errorRings s))
  { s with
    ctxs := tmap (fun _ (x : Ctx) => { x with journal := x.journal.map cutJournal }) s.ctxs
    ptns := tmap (fun _ (x : Ptn) => { x with farQ := x.farQ.filter (·.mem.isNone) }) s.ptns }

/-- The link goes down (R261); its IDE keys go with it (R380). -/
def linkLoss (counted lost : Bool) (s : State) : State :=
  noteRetrain counted (updLink (fun l => { l with up := false, lost := lost, cfg := { l.cfg with ide := 0 } }) (loseWork s))
/-- The host link goes down; whether the host itself has disabled it, and the time is not counted, is a value from outside (R366; log 82). -/
def execLinkDown (s : State) : Host.Outcome State Fault Refusal :=
  onlyIf s.host.link.up (fun s => spend 1 (linkLoss true (Config.freeNat s.free % 2 == 0) s)) s

/-- GLB_STATUS.RATE (R286). -/
def rateCode (r : Nat) : Nat := if r = 128 then 3 else if r = 64 then 2 else if r = 32 then 1 else 0

/-- GLB_STATUS.WIDTH (R286). -/
def widthCode (w : Nat) : Nat := if w = 16 then 3 else if w = 8 then 2 else if w = 4 then 1 else 0

/-- A training that R260 accepts: ×16, ×8 or ×4 at 128, 64 or 32 GT/s in flit mode (R258). -/
def fullService (width rate : Nat) (flit : Bool) : Bool := flit && rateCode rate > 0 && widthCode width > 0

/-- Link training ends (R260). -/
def trained (width rate : Nat) (flit : Bool) (s : State) : State :=
  if fullService width rate flit then
    updLink (fun l => { l with up := true, width := width, rate := rateCode rate, deg := false, retrainDue := false, lost := false, byReset := false }) s
  else
    noteRetrain (!s.host.link.byReset) (raise .linkDeg 0 0 0 (postFault (portFault 8)
      (updLink (fun l => { l with up := true, width := width, rate := rateCode rate, deg := true, retrainDue := true, lost := false, byReset := false }) s)))
/-- The link may train: it is not up, power is good and PERST_N was deasserted after it (R412, R418). -/
def mayTrain (s : State) : Bool := s.pins.pwrgd && s.pins.linkTraining && !s.pins.perst && !s.host.link.up
def execLinkTrained (width rate : Nat) (flit : Bool) (s : State) : Host.Outcome State Fault Refusal :=
  onlyIf (mayTrain s) (trained width rate flit) s

/-- 100 ms after a degraded training the link retrains (R260). -/
def execLinkRetrainTimer (s : State) : Host.Outcome State Fault Refusal :=
  onlyIf (s.host.link.deg && s.host.link.retrainDue) (updLink fun l => { l with up := false, retrainDue := false, lost := true, cfg := { l.cfg with ide := 0 } }) s

/-- Software places the function in D3hot; a ring not DISABLED makes it a link loss (R275). -/
def enterD3 (s : State) : State :=
  let s := if s.host.rings.all fun r => r.2.st == .disabled then s else noteRetrain true (loseWork s)
  updLink (fun l => { l with d3hot := true }) s
def execD3hotEntry (s : State) : Host.Outcome State Fault Refusal := onlyIf s.host.link.up enterD3 s
def execD0Entry (s : State) : Host.Outcome State Fault Refusal := .next (updLink (fun l => { l with d3hot := false }) s)

/-- Every ring is idle, nothing pending or fetched, with no admitted command and nothing outstanding (R288). -/
def linkIdle (s : State) : Bool :=
  (ringCmds s).isEmpty && (s.host.rings.all fun r => r.2.fetched.isEmpty && r.2.sqHead == r.2.sqTail) &&
  (s.ctxs.all fun c => !c.2.journal.any (·.rereading)) && s.host.writes.isEmpty && s.host.posting.isEmpty && s.host.cache.isEmpty && s.host.memWaits.isEmpty && s.ptns.all fun x => x.2.farQ.all (·.mem.isNone)
/-- With L1 enabled in the Link Control register, a link with nothing to do enters L1 (R288). -/
def execAspmL1Entry (s : State) : Host.Outcome State Fault Refusal :=
  onlyIf (s.host.link.up && bit s.host.link.cfg.linkCtl.toNat 1 && linkIdle s) (updLink fun l => { l with aspm := .l1 }) s
def execAspmL1Exit (s : State) : Host.Outcome State Fault Refusal := .next (updLink (fun l => { l with aspm := .l0 }) s)

/-- The CXL function reset: configuration, enables and HDM decoder at their reset values, vectors masked (R285, R411). -/
def resetFunction (s : State) : State := updHost (fun h => { h with link := {}, vecs := [] }) s

/-- PERST_N asserted: a conventional reset while PWRGD is asserted, not counted as a retrain (R411). -/
def assertPerst (s : State) : State :=
  let s := updPins (fun p => { p with perst := true }) s
  if s.pins.pwrgd then updPins (fun p => { p with linkTraining := false }) (resetFunction (if s.host.link.up then linkLoss false false s else s)) else s
def execPerstAssert (s : State) : Host.Outcome State Fault Refusal := .next (assertPerst s)
/-- PERST_N deasserted: training starts once PWRGD is asserted (R412). -/
def execPerstDeassert (s : State) : Host.Outcome State Fault Refusal :=
  .next (updPins (fun p => { p with perst := false, linkTraining := p.pwrgd }) s)

/-- The enables of R264; the decoder is committed over a 64 GB range. -/
def execCxlEnable (cache mem hdm : Bool) (s : State) : Host.Outcome State Fault Refusal :=
  .next (updLink (fun l => { l with cacheEn := cache, memEn := mem, hdm := hdm }) s)

/-! ### The HDM window -/

/-- CXL.mem is usable (R260, R264). -/
def memUsable (s : State) : Bool := s.host.link.up && !s.host.link.deg && s.host.link.memEn && s.host.link.hdm

/-- What becomes of an access to a mapped address of partition p (R267). -/
def servedNow (x : Ptn) : Bool := x.service == .inService && (x.power == .forge || x.power == .warm) && x.banking.isNone
/-- A partition that R267 treats as unmapped: fenced, COLD or OUT_OF_SERVICE. -/
def notReachable (x : Ptn) : Bool := x.service != .inService || x.power == .cold

/-- A served access (R265); the lines of a read stay as cached lines (R210). -/
def serveAccess (a : Nat) (acc : MemAccess) (s : State) : State :=
  match acc with
  | .read n => answer (.data (memBytes s a n) (rangePoisoned s a n)) (cacheLines a n s)
  | .write bs true => answer .written (writePoisoned a bs (notePoison s))
  | .write bs false => answer .written (writeMem a bs s)

/-- An access that waits: for the partition's exit (R267), or for Seam tokens or a place in the far queue (R199). -/
def waitAccess (off : Nat) (acc : MemAccess) (s : State) : State :=
  answer .waits (updHost (fun h => { h with memWaits := h.memWaits ++ [(off, acc)] }) s)

/-- An access that has drawn its Seam tokens waits for receive tokens in the far queue (R199). -/
def queueAccess (p off a len : Nat) (acc : MemAccess) (s : State) : State :=
  let req : MemReq := { addr := a, len := len, write := match acc with | .write bs _ => some bs | .read _ => none }
  answer .waits (updPtn p (fun x => { x with farQ := x.farQ ++ [{ issuer := none, who := .west none none, req := req, mem := some (off, acc) }] })
    (noteReceiveWait none p (lineCount a len) s))

/-- Bytes of an access. -/
def accLen : MemAccess → Nat
  | .read k => k
  | .write bs _ => bs.length

/-- A host access to the HDM window (R264, R265, R267, R288); one to a line that an earlier access still waits for stays behind it (R198). -/
def accessMem (off : Nat) (acc : MemAccess) (s : State) : State :=
  let s := updLink (fun l => { l with aspm := .l0 }) s
  if !memUsable s then answer .unsupported s
  else match hdmAddr s off with
    | none => unmappedAccess acc s
    | some a =>
      let p := homePtn a
      if notReachable (ptn s p) then unmappedAccess acc s
      else if s.host.memWaits.any fun w => shareLine w.1 (accLen w.2) off (accLen acc) then waitAccess off acc (demand p s)
      else if servedNow (ptn s p) then
        let len := accLen acc
        let n := lineCount a len
        let s := demand p s
        if decide (farLines (ptn s p) + n > 1024) then waitAccess off acc s
        else match takeIssue none p n s with
          | none => waitAccess off acc s
          | some s => if (ptn s p).farQ.isEmpty then
              match takeReceive p n s with
              | some s => serveAccess a acc s
              | none => queueAccess p off a len acc s
            else queueAccess p off a len acc s
      else waitAccess off acc (demand p s)
def execCxlMemAccess (off : Nat) (acc : MemAccess) (s : State) : Host.Outcome State Fault Refusal := .next (accessMem off acc s)

/-- Accesses that waited for partition p are served (R267). -/
def serveWaits (p : Nat) (s : State) : State :=
  let mine := s.host.memWaits.filter fun w => (hdmAddr s w.1).map homePtn == some p
  let s := updHost (fun h => { h with memWaits := h.memWaits.filter fun w => !mine.contains w }) s
  mine.foldl (fun s w => accessMem w.1 w.2 s) s

/-- A host request that depends on an unsupported feature, or of a bad size or alignment (R259, R263, R264). -/
def execUnsupportedRequest (_kind : Unsupported) (s : State) : Host.Outcome State Fault Refusal := .next (answer .unsupported s)

/-- A snoop misses: no host line is held (R258). -/
def execCxlCacheSnoop (_addr : W64) (s : State) : Host.Outcome State Fault Refusal := .next (answer .miss s)

end Sys2Proof.Machine
end

