-- ==== Sys2Proof/Machine/Rings.lean ====
section
/-! DEFINITION. Doorbells, events and interrupts (R271–R274, R283, R285, R367), entry fetch (R271, R273), ring commands (R116,
R145, R139, R165–R192, R276), payload reads and their timers (R281–R284), host writes (R301). -/

namespace Sys2Proof.Machine

/-! ### Doorbells and events -/

def dbInvalid (r : Nat) (s : State) : State := raise .dbInvalid 3 r 0 s

/-- SQ_DB.TAIL (R271, R273, R274). -/
def submitTail (r v : Nat) (s : State) : State :=
  if !ringExists s r || v % 65536 ≥ (ring s r).size then dbInvalid r s
  else updRing r (fun x => { x with sqTail := v % 65536 }) s
def execSqDoorbell (r : Fin 1024) (v : W64) (s : State) : Host.Outcome State Fault Refusal := .next (submitTail r.val v.toNat s)

/-- CQ_DB.HEAD: a head past the completions written is ignored (R272, R273). -/
def completionHead (r v : Nat) (s : State) : State :=
  let x := ring s r
  let h := v % 65536
  if !ringExists s r || h ≥ x.size || decide ((h + x.size - x.cqHead) % x.size > (x.cqTail + x.size - x.cqHead) % x.size) then dbInvalid r s
  else updRing r (fun x => { x with cqHead := h }) s
def execCqDoorbell (r : Fin 1024) (v : W64) (s : State) : Host.Outcome State Fault Refusal := .next (completionHead r.val v.toNat s)

/-- The command of a ring that awaits the payload doorbell of a tag (R277, R283). -/
def waitingTag (s : State) (r : Nat) (tag : W32) : Option Nat :=
  (ringLive s r).find? fun c => (cmd? s c).any fun k => k.stage == .awaitPayload && k.tag == tag

/-- PAY_DB.TAG (R283). -/
def payloadDone (r v : Nat) (s : State) : State :=
  match waitingTag s r (BitVec.ofNat 32 v) with
  | some c => updCmd c (fun x => { x with stage := .reading }) s
  | none => dbInvalid r s
def execPayloadDoorbell (r : Fin 1024) (v : W64) (s : State) : Host.Outcome State Fault Refusal := .next (payloadDone r.val v.toNat s)

/-- Occurrences met in the cycle of a clear: the bit stays set, is counted and logged (R367). -/
def occur (occ : Nat) (s : State) : State :=
  (bitsOf 16 occ).foldl (fun s b => logEvent b 0 0 0 (updHost (fun h => { h with
    evtPend := h.evtPend ||| BitVec.ofNat 16 (2 ^ b), evtCnt := tset h.evtCnt b (evtCount s b + 1) }) s)) s

/-- EVT_PEND written (R4 W1C, R285, R367). -/
def clearEvents (v occ : Nat) (s : State) : State :=
  let cleared := updHost (fun h => { h with evtPend := h.evtPend &&& ~~~ BitVec.ofNat 16 v }) s
  let due := (bitsOf 16 occ).any fun b => !bit s.host.evtMask.toNat b && !bit cleared.host.evtPend.toNat b
  let s' := occur occ cleared
  if due then sendVec 0 s' else s'
def execEvtPendClear (v : W64) (occ : W16) (s : State) : Host.Outcome State Fault Refusal := .next (clearEvents v.toNat occ.toNat s)

/-- EVT_MASK written (R285). -/
def writeMask (v : Nat) (s : State) : State :=
  let due := (bitsOf 16 s.host.evtPend.toNat).any fun b => bit s.host.evtMask.toNat b && !bit v b
  let s' := updHost (fun h => { h with evtMask := BitVec.ofNat 16 v }) s
  if due then sendVec 0 s' else s'
def execEvtMaskWrite (v : W64) (s : State) : Host.Outcome State Fault Refusal := .next (writeMask v.toNat s)

/-- A vector unmasked; a pending one sends its message (R285). -/
def unmask (v : Nat) (s : State) : State :=
  let was := (vec s v).pba
  let s := updVec v (fun x => { x with masked := false, pba := false }) s
  if was then sendVec v s else s
def execMsixUnmask (v : Fin 2048) (s : State) : Host.Outcome State Fault Refusal := .next (unmask v.val s)

/-! ### Entry fetch -/

/-- The DMA cause of a read that failed (R348), if it failed. -/
def replyCause : ReadReply → Option Nat
  | .data _ => none
  | .ur => some 1
  | .ca => some 2
  | .poison => some 3
  | .timeout => some 4

/-- Whether a ring fetches (R271, R274, R275). -/
def fetches (s : State) (r : Nat) : Bool :=
  let x := ring s r
  ringExists s r && x.st == .running && !x.stopping && linkServes s && x.sqHead != x.sqTail && decide (x.fetched.length < 32)

def fetchEntry (r : Nat) (reply : ReadReply) (s : State) : State :=
  match reply with
  | .data bs => updRing r (fun x => { x with
      fetched := x.fetched ++ [BitVec.ofNat 512 (leNat (bs.take 64))], sqHead := (x.sqHead + 1) % x.size }) s
  | other => raise .ringFault 3 r 0 (updRing r (fun x => { x with st := .error })
      (postFault (hostFault 0x71 ((replyCause other).getD 0) (some r)) (noteAer ((replyCause other).getD 0) s)))
def execEntryFetch (r : Fin 1024) (reply : ReadReply) (s : State) : Host.Outcome State Fault Refusal :=
  onlyIf (fetches s r.val) (fetchEntry r.val reply) s

/-! ### Ring commands -/

def keep (_ : Nat) (s : State) : State := s

/-- NOP completes as soon as it is admitted (R276). -/
def execNop (r : Fin 1024) (s : State) : Host.Outcome State Fault Refusal :=
  .next (admitNext r.val 0x00 plainCheck (fun _ x => { x with stage := .final }) keep s)

/-- FENCE waits for the earlier commands of its ring (R276). -/
def fenceShape (r : Nat) (s : State) (x : Cmd) : Cmd :=
  { x with stage := if (ringLive s r).isEmpty then .final else .waiting, covers := ringLive s r }
def execFence (r : Fin 1024) (s : State) : Host.Outcome State Fault Refusal :=
  .next (admitNext r.val 0x01 plainCheck (fenceShape r.val) keep s)

/-- The stage in which a payload is awaited (R281, R284). -/
def payloadStage (e : BitVec 512) : Stage := if eTrdy e then .awaitPayload else .reading

/-- A search bound to its snapshot (R13, R119); t of an exact one is the bricks that its collection has then (R138). -/
def searchShape (far : ReadReply) (s : State) (x : Cmd) : Cmd :=
  { x with
    prog := if sFilter x.entry = 0xFF then none else (ctx? s x.ctx).bind fun k => tget k.filters (sFilter x.entry)
    patVer := ((ctx? s x.ctx).bind fun k => tget k.patterns (tPattern x.entry)).map (·.ver) |>.getD 0
    stage := payloadStage x.entry, snap := if eSnap x.entry = 0 then (coll s x.coll).latest else eSnap x.entry
    pairs := if x.opcode = 0x12 then (coll s x.coll).bricks.length else 0
    far := if tFar x.entry then (match far with | .data bs => some (farFields bs) | _ => none) else none }
def execSearch (r : Fin 1024) (far : ReadReply) (s : State) : Host.Outcome State Fault Refusal :=
  .next (admitNext r.val 0x10 (fun s r e => searchCheck s r far e) (searchShape far) keep s)
def execSearchHybrid (r : Fin 1024) (far : ReadReply) (s : State) : Host.Outcome State Fault Refusal :=
  .next (admitNext r.val 0x11 (fun s r e => searchCheck s r far e) (searchShape far) keep s)
def execSearchExact (r : Fin 1024) (far : ReadReply) (s : State) : Host.Outcome State Fault Refusal :=
  .next (admitNext r.val 0x12 (fun s r e => searchCheck s r far e) (searchShape far) keep s)

/-- An ingest command whose payload is read next; the collection remembers its context (R241). -/
def ingestShape (_ : State) (x : Cmd) : Cmd := { x with stage := payloadStage x.entry }
def noteIngest (c : Nat) (s : State) : State :=
  match cmd? s c with
  | some x => updColl x.coll (fun y => { y with lastIngestCtx := some x.ctx }) s
  | none => s
def admitIngest (r op : Nat) (s : State) : State := admitNext r op ingestCheck ingestShape noteIngest s
def execInsert (r : Fin 1024) (s : State) : Host.Outcome State Fault Refusal := .next (admitIngest r.val 0x20 s)
def execUpsert (r : Fin 1024) (s : State) : Host.Outcome State Fault Refusal := .next (admitIngest r.val 0x21 s)
def execDelete (r : Fin 1024) (s : State) : Host.Outcome State Fault Refusal := .next (admitIngest r.val 0x22 s)

/-- A FLUSH covers what entered the commit queue since the previous FLUSH, and waits for that FLUSH too (R179). -/
def flushShape (s : State) (x : Cmd) : Cmd :=
  let y := coll s x.coll
  { x with
    stage := .waiting, covers := y.flushBase, coveredOk := y.flushOk, waitFor := y.flushEpoch, csn := y.flushCsn
    cursor := match y.lastFlush with | some p => BitVec.ofNat 64 p | none => 0 }
/-- Commands that enter the commit queue from now on belong to the next FLUSH (R179). -/
def afterFlush (c : Nat) (s : State) : State :=
  match cmd? s c with
  | none => s
  | some x => settleWaiters (updColl x.coll (fun y => { y with
      flushBase := [], flushOk := 0, flushEpoch := 0, flushCsn := 0, lastFlush := some c }) s)
def execFlush (r : Fin 1024) (s : State) : Host.Outcome State Fault Refusal :=
  .next (admitNext r.val 0x28 flushCheck flushShape afterFlush s)

/-- EPOCH_QUERY completes at once or waits for LATEST (R178). -/
def queryShape (s : State) (x : Cmd) : Cmd :=
  let w : Epoch := BitVec.ofNat 32 (ef x.entry 16 4)
  { x with waitFor := w, stage := if w = 0 ∨ epochLe w (coll s x.coll).latest then .final else .waiting }
def execEpochQuery (r : Fin 1024) (s : State) : Host.Outcome State Fault Refusal :=
  .next (admitNext r.val 0x30 queryCheck queryShape keep s)

/-- BULK_LOAD waits for its first chunk, which reads its source (R189). -/
def startBulk (c : Nat) (s : State) : State :=
  match cmd? s c with
  | some x => queueChunk x.home { kind := 4, ctx := x.ctx, cmd := some c } (noteIngest c s)
  | none => s
def execBulkLoad (r : Fin 1024) (s : State) : Host.Outcome State Fault Refusal :=
  .next (admitNext r.val 0x40 bulkCheck (fun _ x => { x with stage := .assigning }) startBulk s)

/-! ### EXPORT (R190–R192) -/

/-- A FORMAT 2 record of a slot (R192). -/
def encodedBytes (y : Coll) (t : Slot) (gen : W16) : List Byte :=
  let n := coordN y
  let nib := fun (l : List (BitVec 4)) => (upto (n / 2)).map fun i => BitVec.ofNat 8 ((lget l (2 * i) 0).toNat + 16 * (lget l (2 * i + 1) 0).toNat)
  let body := (if collScaled y then [] else scaleBytes t.enc) ++ nib t.enc.codes ++ (if twoTier y then nib t.enc.refine else [])
  let sp := tget y.sparseRecs t.key.toNat
  let sparse := match sp with
    | some (sg, ws) => leBytes 2 ws.length ++ [0, 0] ++ leBytes 4 sg.toNat ++ ws.flatMap fun w => leBytes 4 (w.1 + w.2 * 2 ^ 24)
    | none => []
  let pad := fun (l : List Byte) => l ++ List.replicate (32 * ceilDiv l.length 32 - l.length) 0
  leBytes 8 t.key.toNat ++ leBytes 16 t.attr.toNat ++ leBytes 2 gen.toNat ++ [if sp.isSome then 1 else 0, 0] ++ leBytes 4 t.enc.norm.toNat ++
  pad body ++ pad sparse

/-- The records of a brick's visible slots (R190); a spilled key is read at its first slot. -/
def brickRecords (s : State) (c : Nat) (sn : Epoch) (b : Nat) : List (List Byte) :=
  let y := coll s c
  match brick? y b with
  | none => []
  | some k => ((upto 64).filter fun i => visible s c sn ⟨b, i⟩).map fun i =>
      encodedBytes y (slotOf k i) ((keyEnt y (slotOf k i).key).map (·.gen) |>.getD ((slotOf k i).gen.setWidth 16))

/-- Whole bricks from an ordinal on, until the next one would exceed what is left of a limit: records, the ordinal reached, and whether all fit. -/
def exportBricks (s : State) (c : Nat) (sn : Epoch) (maxRec maxLen : Nat) : List Nat → Nat → List (List Byte) → Nat → List (List Byte) × Nat × Bool
  | [], o, acc, _ => (acc, o, true)
  | b :: t, o, acc, len =>
    let rs := brickRecords s c sn b
    let l := rs.foldl (fun n r => n + r.length) 0
    if acc.length + rs.length > maxRec ∨ len + l > maxLen then (acc, o, false)
    else exportBricks s c sn maxRec maxLen t (o + 1) (acc ++ rs) (len + l)

/-- An EXPORT ends at a cursor: its header is written, 0xF the partition at the end (R190, R191). -/
def finishExport (c np no : Nat) (s : State) : State :=
  match cmd? s c with
  | none => s
  | some x =>
    let next := x.snap.toNat * 2 ^ 32 + np * 2 ^ 28 + no
    let head := leBytes 4 x.count ++ leBytes 4 x.snap.toNat ++ leBytes 8 next ++ leBytes 4 2 ++ leBytes 4 x.expLen ++ List.replicate 40 0
    updCmd c (fun k => { k with stage := .final, epoch := x.snap }) (postBytes (ePayload x.entry) head s)

/-- The bricks that an EXPORT reads of a partition, numbered alike in every call: those of the version that were open at its snapshot; one opened
since holds nothing that the snapshot sees (R190, R191). -/
def exportList (s : State) (x : Cmd) (q : Nat) : List Nat :=
  let y := coll s x.coll
  (bricksAt y q x.snap).filter fun b => (brick? y b).any fun k => epochLe k.base x.snap

/-- Where an EXPORT goes on from a partition and ordinal: the first partition with bricks left (R190, R191). -/
def exportPlace (s : State) (x : Cmd) (p o : Nat) : Option (Nat × Nat) :=
  ((jobPtns s x.job).filter fun q => decide (p ≤ q)).findSome? fun q =>
    let o := if q = p then o else 0
    if decide (o < (exportList s x q).length) then some (q, o) else none

/-- The next chunk of an EXPORT, of at most 256 bricks of one partition, or its end (R190, R242); one past step 4 of its fence ends it FENCED (R353). -/
def goExport (c p o : Nat) (s : State) : State :=
  match cmd? s c with
  | none => s
  | some x => match exportPlace s x p o with
    | none => finishExport c 0xF 0 s
    | some (q, o) => match turnedAway s [q] with
      | some code => failCmd c .fenced code s
      | none =>
        let bs := ((exportList s x q).drop o).take 256
        queueChunk q { kind := 5, ctx := x.ctx, cmd := some c, bricks := bs.map fun b => { brick := b, kind := 4, coll := x.coll, snap := x.snap } }
          (updCmd c (fun k => { k with cursor := BitVec.ofNat 64 (q * 2 ^ 28 + o) }) (demand q s))

/-- An EXPORT chunk's bricks hold a poisoned word (R220; log 74). -/
def exportPoisoned (s : State) (c : Nat) (k : Chunk) : Bool :=
  (cmd? s c).any fun x => (k.bricks.map (·.brick)).any fun b => rangePoisoned s b (frameSize (coll s x.coll))

/-- An EXPORT chunk has read its bricks: their records are written behind those before them (R190). -/
def exportChunk (c : Nat) (k : Chunk) (s : State) : State :=
  match cmd? s c with
  | none => s
  | some x =>
    let p := bits x.cursor.toNat 31 28
    let bs := k.bricks.map (·.brick)
    let y := coll s x.coll
    let (recs, o, whole) := exportBricks s x.coll x.snap (iCount x.entry - x.count) (bLen x.entry - x.expLen) bs (bits x.cursor.toNat 27 0) [] 0
    let body := recs.flatMap id
    let s := engineMove (some p) (some x.ctx) p (bs.length * ceilDiv (frameSize y) 64) s
    let s := postBytes (ePayload x.entry + x.expLen) body s
    let s := updCmd c (fun k => { k with count := k.count + recs.length, expLen := k.expLen + body.length }) s
    if whole then goExport c p o s else finishExport c p o s

/-- An EXPORT starts at its cursor (R190, R191). -/
def startExport (c : Nat) (s : State) : State :=
  match cmd? s c with
  | none => s
  | some x =>
    let cur := (xCursor x.entry).toNat
    goExport c (bits cur 31 28) (bits cur 27 0) (updCmd c (fun k => { k with expLen := 64, count := 0 }) s)

def execExportColl (r : Fin 1024) (s : State) : Host.Outcome State Fault Refusal :=
  .next (admitNext r.val 0x41 exportCheck (fun s x => { x with snap := exportSnap s x.entry, stage := .running }) startExport s)

/-! ### Payload reads and their timers -/

/-- The command awaits its payload doorbell (R282). -/
def awaits (s : State) (c : Nat) : Bool := (cmd? s c).any fun x => x.stage == .awaitPayload

/-- TIMEOUT without a doorbell, or with one that meets the limit in its cycle, which is absorbed: the granules stay held until STAGING_REUSE (R282,
R283). -/
def execTrdyTimeout (k : DoorbellLimit) (s : State) : Host.Outcome State Fault Refusal :=
  onlyIf (awaits s k.cmd) (failCmd k.cmd .timeout 0) s

/-- The home partition has reached FORGE, without which a command's payload is not read (R287). -/
def homeReady (s : State) (x : Cmd) : Bool := anvilClock (ptn s x.home)

/-- The staged payload: the size R281 gives for the command, or up to the actual end for a hybrid search. -/
def stagedBytes (s : State) (x : Cmd) : List Byte :=
  match x.granules with
  | some g => hdmRead s ((2048 * g.ptn + g.first) * 65536) (stagedSize s x.entry)
  | none => []

/-- Granules freed once the payload is read and checked (R281). -/
def dropGranules (c : Nat) (s : State) : State :=
  match cmd? s c with
  | some x => updCmd c (fun x => { x with granules := none }) (freeGranules x.granules s)
  | none => s

/-- A poisoned word of the staged payload completes the command UNCORRECTABLE (R220). -/
def stagedPoison (s : State) (x : Cmd) : Bool :=
  match x.granules with
  | some g => (upto (ceilDiv (stagedSize s x.entry) 8)).any fun i =>
      match hdmAddr s ((2048 * g.ptn + g.first) * 65536 + 8 * i) with | some a => wordPoisoned s a | none => false
  | none => false

/-- The POISON code of R76 for a dispatcher, which has no anvil to name (R220; log 74). -/
def poisonCode (p : Nat) : W32 := faultCode 2 0x53 p (5 * 2 ^ 12)

def readStaged (c : Nat) (s : State) : State :=
  match cmd? s c with
  | none => s
  | some x =>
    let u := match x.granules with
      | some g => engineMove (some x.home) (some x.ctx) g.ptn (ceilDiv (stagedSize s x.entry) 64) s
      | none => s
    if stagedPoison s x then dropGranules c (failCmd c .uncorrectable (poisonCode x.home) (postFault (poisonCode x.home) u))
    else
      let t := afterPayload c (takePayload c (stagedBytes s x) u)
      if (cmd? t c).any (·.stage == .reading) then t else dropGranules c t
def execStagedPayloadRead (c : Nat) (s : State) : Host.Outcome State Fault Refusal :=
  onlyIf ((cmd? s c).any fun x => x.stage == .reading && x.granules.isSome && homeReady s x) (readStaged c) s

/-- 100 ms after TIMEOUT the granules are reusable, and the number ends with its completion written (R282). -/
def execStagingReuse (c : Nat) (s : State) : Host.Outcome State Fault Refusal :=
  onlyIf ((cmd? s c).any fun x => x.stage == .done && x.granules.isSome)
    (fun s => match cmd? s c with
      | some x => delCmd c (freeGranules x.granules s)
      | none => s) s

/-- A payload is being pulled by DMA (R284). -/
def pulling (s : State) (c : Nat) : Bool :=
  s.host.link.up && (cmd? s c).any fun x => x.stage == .reading && x.granules.isNone && x.origin.isNone && homeReady s x

def readDma (c : Nat) (reply : ReadReply) (s : State) : State :=
  match reply with
  | .data bs => afterPayload c (takePayload c bs s)
  | other => hostFail c 0x71 ((replyCause other).getD 4) (if other = .timeout then .timeout else .uncorrectable) s
def execDmaReadComplete (c : Nat) (reply : ReadReply) (s : State) : Host.Outcome State Fault Refusal :=
  onlyIf (pulling s c) (readDma c reply) s

def execDmaTimeout (c : Nat) (s : State) : Host.Outcome State Fault Refusal :=
  onlyIf (pulling s c) (hostFail c 0x71 4 .timeout) s

/-! ### Interrupt timer -/

/-- CTIME after the first completion since the last message (R285). -/
def execCtimeExpiry (r : Fin 1024) (s : State) : Host.Outcome State Fault Refusal :=
  onlyIf (ring s r.val).ctimeOn (sendRingVec r.val) s

end Sys2Proof.Machine
end

