-- ==== Sys2Proof/Machine/Security.lean ====
section
/-! DEFINITION. Keys, certificates, measurements and the SPDM responder (R375–R381): what the boot ROM derives from the device-unique secret, the certificate chain
of slot 0, the measurement blocks. ML-DSA-65 and the DER encodings are the standards' and are constants of Config (log 6). -/

namespace Sys2Proof.Machine

/-! ### Key derivation (R375, R376) -/

/-- The device-unique secret, least significant byte first (log 78). -/
def secretBytes : List Byte := leBytes 32 Config.deviceSecret.toNat
/-- "VX12-IDENTITY" and "VX12-ALIAS". -/
def identityLabel : List Byte := [0x56, 0x58, 0x31, 0x32, 0x2D, 0x49, 0x44, 0x45, 0x4E, 0x54, 0x49, 0x54, 0x59]
def aliasLabel : List Byte := [0x56, 0x58, 0x31, 0x32, 0x2D, 0x41, 0x4C, 0x49, 0x41, 0x53]
/-- The 32-byte seeds of the identity key and of the alias key of an image with a BODYDIG. -/
def identitySeed : List Byte := shake256 (secretBytes ++ identityLabel) 32
def aliasSeed (bodydig : BitVec 256) : List Byte := shake256 (secretBytes ++ leBytes 32 bodydig.toNat ++ aliasLabel) 32
/-- The identity digest, SHAKE256 of the identity public key, and the serial number, its bytes 0–7. -/
def identityDigest : BitVec 256 := digest (Config.mldsaPublic identitySeed)
def serialNumber : Nat := identityDigest.toNat % 2 ^ 64

/-! ### The certificate chain (R377) -/

def fwSlot (a : Aon) (b : Bool) : FwSlot := if b then a.slotB else a.slotA

/-- The alias certificate issued at boot for the running image: its public key, BODYDIG, VERSION, SV, the counter and the running slot. -/
def issueAlias (a : Aon) : AliasCert :=
  let f := fwSlot a a.running
  { key := Config.mldsaPublic (aliasSeed f.digest), digest := f.digest, version := f.version, sv := f.sv, counter := a.rollback, slot := a.running }

/-- What the alias certificate binds, as bytes. -/
def aliasContents (x : AliasCert) : List Byte :=
  x.key ++ leBytes 32 x.digest.toNat ++ leBytes 4 x.version.toNat ++ [BitVec.ofNat 8 x.sv, BitVec.ofNat 8 x.counter, if x.slot then 1 else 0]

/-- Slot 0, root first: Zoresk root, product CA, device identity with its serial number, alias; empty while no image has been started. -/
def certChain (s : State) : List (List Byte) :=
  match s.hearth.issued with
  | some x => [Config.caCert 0, Config.caCert 1, Config.identityCert (Config.mldsaPublic identitySeed) identityDigest,
      Config.aliasCert (Config.mldsaSecret identitySeed) (aliasContents x)]
  | none => []

/-- The chain as SPDM carries it: length, the digest of the root, the certificates, at most 24 KB (PRESUMED, SPDM 1.4; log 6). -/
def chainBytes (s : State) : List Byte :=
  let cs := (certChain s).flatten.take 24576
  leBytes 2 (52 + cs.length) ++ [0, 0] ++ Config.sha3 ((certChain s).headD []) ++ cs

/-! ### Measurements (R381, R382) -/

/-- The value of a measurement index; none for an index that is not defined. -/
def measurement (s : State) (i : Nat) : Option (List Byte) :=
  let a := s.aon
  let run := fwSlot a a.running
  let other := fwSlot a (!a.running)
  if i = 1 then some (leBytes 32 Config.bootRomDigest.toNat)
  else if i = 2 then some (leBytes 32 run.digest.toNat)
  else if i = 3 then some (leBytes 4 run.version.toNat ++ [BitVec.ofNat 8 run.sv, BitVec.ofNat 8 a.rollback, if a.running then 1 else 0, if a.trial then 1 else 0])
  else if i = 4 then some (leBytes 32 (if other.valid then other.digest.toNat else 0))
  else if i = 5 then some (leBytes 4 (1 + if a.recoveryTaken then 2 else 0))
  else if 0x10 ≤ i ∧ i < 0x1C then (job? s (i - 0x10)).map fun j => leBytes 4 j.measCount ++ leBytes 32 j.chain.toNat
  else none

/-- The indices that have a value. -/
def measured (s : State) : List Nat := (upto 0x1C).filter fun i => (measurement s i).isSome

/-- A measurement block: index, DMTF specification, size, raw bit stream of its kind, value (PRESUMED, SPDM 1.4; log 6). -/
def measurementBlock (s : State) (i : Nat) : List Byte :=
  match measurement s i with
  | some v => [BitVec.ofNat 8 i, 1] ++ leBytes 2 (3 + v.length) ++ [0x80] ++ leBytes 2 v.length ++ v
  | none => []

/-! ### The SPDM responder (R378–R380); codes and layouts PRESUMED, SPDM 1.4 (log 6) -/

/-- A message of a secure session (R379). -/
def isSecured : SpdmKind → Bool
  | .endSession | .secured => true
  | _ => false

/-- A session opens or ends on a transport whose algorithms are negotiated, at most four at once (R379, R380). -/
def spdmSession (t : SpdmTransport) (kind : SpdmKind) (s : State) : State :=
  match kind with
  | .keyExchange => if s.hearth.sessions.length ≥ 4 || !s.hearth.negotiated.contains t then s else updHearth (fun h => { h with sessions := h.sessions ++ [t] }) s
  | .endSession => updHearth (fun h => { h with sessions := removeFirst t h.sessions }) s
  | .secured | .other => s

/-- Whether a KEY_EXCHANGE meets the session limit: ERROR with SessionLimitExceeded (R380). -/
def sessionLimit (s : State) (kind : SpdmKind) : Bool := kind == .keyExchange && decide (s.hearth.sessions.length ≥ 4)

/-- The kind of an SPDM message by its request code, byte 1. -/
def spdmKindOf (msg : List Byte) : SpdmKind :=
  if field msg 1 1 = 0xE4 then .keyExchange else if field msg 1 1 = 0xEC then .endSession else .other

/-- The kind of a secured message on a transport: whether it ends its session, which only the session sees, is a free choice (log 6). -/
def securedKind (s : State) (t : SpdmTransport) : SpdmKind :=
  if freePick s.free 1 % 2 = 1 ∧ s.hearth.sessions.contains t then .endSession else .secured

/-- ERROR with a code and its data. -/
def spdmError (code data : Nat) : List Byte := [0x14, 0x7F, BitVec.ofNat 8 code, BitVec.ofNat 8 data]
/-- n bytes of an answer that nothing states. -/
def freeBytes (s : State) (msg : List Byte) (n : Nat) : List Byte :=
  let b := (Config.spdmAnswer msg s.free).take n
  b ++ List.replicate (n - b.length) 0
/-- A signature by the alias key (R376, R378). -/
def spdmSignature (s : State) (msg : List Byte) : List Byte :=
  match s.hearth.issued with
  | some x => Config.aliasSign (aliasSeed x.digest) msg s.free
  | none => []

/-- VERSION: 1.4. -/
def versionReply : List Byte := [0x10, 0x04, 0, 0, 0, 1] ++ leBytes 2 0x1400
/-- CERT, CHAL, MEAS with signatures, ENCRYPT, MAC, KEY_EX, HBEAT, KEY_UPD; neither MUT_AUTH, PSK nor CHUNK (R378). -/
def spdmCaps : Nat := 2 ^ 1 + 2 ^ 2 + 2 ^ 4 + 2 ^ 6 + 2 ^ 7 + 2 ^ 9 + 2 ^ 13 + 2 ^ 14
/-- CAPABILITIES; the timing exponent and the sizes are not stated. -/
def capabilitiesReply (s : State) (msg : List Byte) : List Byte :=
  [0x14, 0x61, 0, 0, 0] ++ freeBytes s msg 1 ++ [0, 0] ++ leBytes 4 spdmCaps ++ freeBytes s (0x61 :: msg) 8
/-- ALGORITHMS: base hash SHA3-384, base asymmetric ML-DSA-65, AEAD AES-256-GCM, key exchange ML-KEM-768 (R378). -/
def algorithmsReply : List Byte :=
  [0x14, 0x63, 2, 0] ++ leBytes 2 44 ++ [1, 0] ++ leBytes 4 1 ++ leBytes 4 0 ++ leBytes 4 (2 ^ 4) ++ leBytes 4 (2 ^ 1) ++ List.replicate 12 0 ++
  [3, 0x20] ++ leBytes 2 (2 ^ 1) ++ [7, 0x20] ++ leBytes 2 (2 ^ 1)
/-- DIGESTS: slot 0 alone is provisioned (R377). -/
def digestsReply (s : State) : List Byte := [0x14, 0x01, 1, 1] ++ Config.sha3 (chainBytes s)

/-- The portion of slot 0's chain that a GET_CERTIFICATE asks for, at most what 4,092 bytes hold (R377, R379). -/
def certificateReply (s : State) (msg : List Byte) : List Byte :=
  let off := field msg 4 2
  let n := min (min (field msg 6 2) 4084) ((chainBytes s).length - off)
  [0x14, 0x02, 0, 0] ++ leBytes 2 n ++ leBytes 2 ((chainBytes s).length - off - n) ++ ((chainBytes s).drop off).take n
/-- CHALLENGE_AUTH of slot 0: the chain's digest, a nonce, no opaque data, the signature. -/
def challengeReply (s : State) (msg : List Byte) : List Byte :=
  [0x14, 0x03, 0, 1] ++ Config.sha3 (chainBytes s) ++ freeBytes s msg 32 ++ leBytes 2 0 ++ spdmSignature s msg
/-- KEY_EXCHANGE_RSP: what it carries besides its signature is not stated. -/
def exchangeReply (s : State) (msg : List Byte) : List Byte := [0x14, 0x64] ++ Config.spdmAnswer msg s.free ++ spdmSignature s msg

/-- The blocks that a GET_MEASUREMENTS asks for: none, one, or all (R381). -/
def measuredFor (s : State) (msg : List Byte) : List Nat :=
  let i := field msg 3 1
  if i = 0 then [] else if i = 0xFF then measured s else [i]
/-- The answer to GET_MEASUREMENTS: the number of indices or of blocks, the record, a nonce, no opaque data, and the signature where it is asked for. -/
def measurementReply (s : State) (msg : List Byte) : List Byte :=
  let is := measuredFor s msg
  let rec_ := is.flatMap (measurementBlock s)
  [0x14, 0x60, if field msg 3 1 = 0 then BitVec.ofNat 8 (measured s).length else 0, 0, BitVec.ofNat 8 is.length] ++ leBytes 3 rec_.length ++ rec_ ++
    freeBytes s msg 32 ++ leBytes 2 0 ++ (if bit (field msg 2 1) 0 then spdmSignature s msg else [])

/-- Requests of what is not supported: chunking, pre-shared keys, mutual authentication (R378). -/
def unsupportedSpdm (code : Nat) : Bool := [0x85, 0x86, 0xE6, 0xE7, 0xEA, 0xEB].contains code

/-- The answer to a message in the clear: a version and algorithms are negotiated first, each transport for itself (R378–R381). -/
def plainReply (s : State) (t : SpdmTransport) (kind : SpdmKind) (msg : List Byte) : List Byte :=
  let code := field msg 1 1
  if code = 0x84 then versionReply
  else if unsupportedSpdm code then spdmError 0x07 code
  else if !s.hearth.versioned.contains t then spdmError 0x04 0
  else if code = 0xE1 then capabilitiesReply s msg
  else if code = 0xE3 then algorithmsReply
  else if !s.hearth.negotiated.contains t then spdmError 0x04 0
  else if sessionLimit s kind then spdmError 0x0A 0
  else if code = 0x81 then digestsReply s
  else if code = 0x82 then
    (if field msg 2 1 ≠ 0 ∨ field msg 4 2 ≥ (chainBytes s).length then spdmError 0x01 0 else certificateReply s msg)
  else if code = 0x83 then (if field msg 2 1 ≠ 0 then spdmError 0x01 0 else challengeReply s msg)
  else if code = 0xE0 then (if (measuredFor s msg).all (fun i => (measurement s i).isSome) then measurementReply s msg else spdmError 0x01 0)
  else if code = 0xE4 then exchangeReply s msg
  else Config.spdmAnswer msg s.free

/-- The answer to a message; that to a secured one is its session's and is not seen. It has at least one byte (R379). -/
def spdmReply (s : State) (t : SpdmTransport) (kind : SpdmKind) (msg : List Byte) : List Byte :=
  let b := if isSecured kind then Config.spdmAnswer msg s.free else plainReply s t kind msg
  if b.isEmpty then [BitVec.ofNat 8 (Config.freeNat s.free)] else b

/-- GET_VERSION starts a transport anew, NEGOTIATE_ALGORITHMS settles its algorithms (R379). -/
def negotiate (t : SpdmTransport) (msg : List Byte) (s : State) : State :=
  let left := s.hearth.negotiated.filter (· ≠ t)
  if field msg 1 1 = 0x84 then updHearth (fun h => { h with versioned := t :: h.versioned.filter (· ≠ t), negotiated := left }) s
  else if field msg 1 1 = 0xE3 ∧ s.hearth.versioned.contains t then updHearth (fun h => { h with negotiated := t :: left }) s
  else s

/-- A secured message over DOE in whose session IDE_KM runs may set or change link IDE keys (R258, R380). -/
def keyIde (t : SpdmTransport) (kind : SpdmKind) (msg : List Byte) (s : State) : State :=
  if t = .doe ∧ kind = .secured ∧ s.hearth.sessions.contains .doe ∧ s.host.link.up then
    updLink (fun l => { l with cfg := { l.cfg with ide := Config.ideKeys msg s.free } }) s
  else s

/-- What a message does: sessions, negotiation of one in the clear, IDE keys (R378–R380). -/
def spdmEffects (t : SpdmTransport) (kind : SpdmKind) (msg : List Byte) (s : State) : State :=
  let s := keyIde t kind msg (spdmSession t kind (spend 1 s))
  if isSecured kind then s else negotiate t msg s

/-! ### Data objects (R262) -/

/-- Objects that the exchange serves: discovery, SPDM, secured SPDM, CDAT, by vendor and type. -/
def doeTypes : List (Nat × Nat) := [(1, 0), (1, 1), (1, 2), (0x1E98, 2)]
/-- Bytes as words. -/
def asWords (bs : List Byte) : List W32 := (chunksOf 4 bs.length bs).map fun b => BitVec.ofNat 32 (leNat b)
/-- An object of a vendor and type. -/
def doeObject (k : Nat × Nat) (ws : List W32) : List W32 := BitVec.ofNat 32 (k.1 + k.2 * 2 ^ 16) :: BitVec.ofNat 32 (ws.length + 2) :: ws

/-- GO: the object written is answered; one that the exchange does not serve, or that no firmware is there to answer, sets the error bit. -/
def doeGo (s : State) : State :=
  let f := s.host.link.cfg
  let done := fun (out : List W32) (bad : Bool) (s : State) => updLink (fun l => { l with cfg := { l.cfg with doeIn := [], doeOut := out, doeError := bad } }) s
  let h := (lget f.doeIn 0 0).toNat
  let k := (h % 2 ^ 16, h / 2 ^ 16 % 2 ^ 8)
  let body := f.doeIn.drop 2
  let msg := body.flatMap fun w => leBytes 4 w.toNat
  if k = (1, 0) then
    match doeTypes[(lget body 0 0).toNat % 256]? with
    | some d =>
      let i := (lget body 0 0).toNat % 256
      done (doeObject k [BitVec.ofNat 32 (d.1 + d.2 * 2 ^ 16 + (if i + 1 < doeTypes.length then i + 1 else 0) * 2 ^ 24)]) false s
    | none => done [] true s
  else if k = (0x1E98, 2) then done (doeObject k (BitVec.ofNat 32 0xFFFF0000 :: asWords Config.cdat)) false s
  else if (k = (1, 1) ∨ k = (1, 2)) ∧ s.hearthUp then
    let kind := if k.2 = 2 then securedKind s .doe else spdmKindOf msg
    done (doeObject k (asWords (spdmReply s .doe kind msg))) false (spdmEffects .doe kind msg s)
  else done [] true s

end Sys2Proof.Machine
end

