-- ==== Sys2Proof/Machine/ConfigSpace.lean ====
section
/-! DEFINITION. The CXL function as software sees it: configuration space (R258, R262), the component registers of BAR2 (R263), and the MSI-X
table and PBA of BAR4 (R263). The manual names capabilities and contents; places and bit positions are PRESUMED of the PCI Express and CXL
specifications, and where those leave a place open it is the model's (log 77). -/

namespace Sys2Proof.Machine

/-! ### Words built of fields -/

/-- A 32-bit word from fields given as (lowest bit, value), the fields disjoint. -/
def dword (fs : List (Nat × Nat)) : Nat := fs.foldl (fun n f => n + f.2 * 2 ^ f.1) 0
/-- The header of a capability in the first 256 bytes, and of an extended one. -/
def capHeader (id next upper : Nat) : Nat := dword [(0, id), (8, next), (16, upper)]
def extHeader (id version next : Nat) : Nat := dword [(0, id), (16, version), (20, next)]
/-- The two headers of a DVSEC of the CXL consortium, vendor 0x1E98. -/
def dvsecHeader (length : Nat) : Nat := dword [(0, 0x1E98), (20, length)]

/-! ### Configuration space (R262) -/

/-- The size of a BAR's memory: BAR0 1 MB, BAR2 and BAR4 64 KB (R263). -/
def barSize (n : Nat) : Nat := if n = 0 then 2 ^ 20 else 2 ^ 16
/-- A BAR register: 64-bit, non-prefetchable; the even one holds the low word, its address bits below the size reading 0. -/
def barWord32 (f : Cfg) (n : Nat) : Nat :=
  let v := (tgetD f.bars n 0).toNat
  if n % 2 = 0 then v / barSize n * barSize n % 2 ^ 32 + 4 else v

/-- Device power state: 0 D0, 3 D3hot. -/
def powerState (s : State) : Nat := if s.host.link.d3hot then 3 else 0
/-- A link speed code: 5 is 32 GT/s, 6 is 64, 7 is 128. -/
def speedCode (rate : Nat) : Nat := if rate = 3 then 7 else if rate = 2 then 6 else if rate = 1 then 5 else 0

/-- The configuration header, with the identity of R262. -/
def headerWord (s : State) (o : Nat) : Nat :=
  let f := s.host.link.cfg
  if o = 0 then dword [(0, 0x1F3C), (16, 0x0C12)]
  else if o = 4 then dword [(0, f.command.toNat), (20, 1)]
  else if o = 8 then dword [(0, 0xB0), (8, 0x120000)]
  else if 0x10 ≤ o ∧ o < 0x28 then barWord32 f ((o - 0x10) / 4)
  else if o = 0x2C then dword [(0, 0x1F3C), (16, 0x0001)]
  else if o = 0x34 then 0x40
  else 0

/-- PCI Power Management, PCI Express, with its flit mode of 256 B flits, and MSI-X. -/
def capWord (s : State) (o : Nat) : Nat :=
  let l := s.host.link
  if o = 0x40 then capHeader 0x01 0x50 0x0003
  else if o = 0x44 then dword [(0, powerState s), (3, 1)]
  else if o = 0x50 then capHeader 0x10 0x90 0x8002
  else if o = 0x54 then 2
  else if o = 0x58 then l.cfg.devCtl.toNat
  else if o = 0x5C then dword [(0, 7), (4, 16), (10, 2), (15, 2)]
  else if o = 0x60 then dword [(0, l.cfg.linkCtl.toNat), (16, if l.up then speedCode l.rate else 0), (20, if l.up then l.width % 64 else 0)]
  else if o = 0x90 then capHeader 0x11 0 (2047 + l.cfg.msixCtl.toNat * 2 ^ 14)
  else if o = 0x94 then 0x0000 + 4
  else if o = 0x98 then 0x8000 + 4
  else 0

/-- AER and the Device Serial Number: the low 64 bits of the module identity digest. -/
def errorWord (s : State) (o : Nat) : Nat :=
  let f := s.host.link.cfg
  if o = 0x100 then extHeader 0x0001 2 0x150
  else if o = 0x104 then f.aer.toNat
  else if o = 0x108 then f.aerMask.toNat
  else if o = 0x10C then f.aerSev.toNat
  else if o = 0x150 then extHeader 0x0003 1 0x160
  else if o = 0x154 then serialNumber % 2 ^ 32
  else if o = 0x158 then serialNumber / 2 ^ 32
  else 0

/-- The three DVSECs: cache and mem capable, HDM count 1, 64 GB; the enables of CXL.io, CXL.cache and CXL.mem (R264); component registers in BAR2 at
offset 0. -/
def dvsecWord (s : State) (o : Nat) : Nat :=
  let l := s.host.link
  if o = 0x160 then extHeader 0x0023 1 0x1A0
  else if o = 0x164 then dvsecHeader 0x3C
  else if o = 0x168 then dword [(0, 0x0000), (16, 7), (20, 1)]
  else if o = 0x178 then 2 ^ 36 / 2 ^ 32
  else if o = 0x17C then 3
  else if o = 0x1A0 then extHeader 0x0023 1 0x1C0
  else if o = 0x1A4 then dvsecHeader 0x20
  else if o = 0x1A8 then dword [(0, 0x0007), (16, 7)]
  else if o = 0x1AC then dword [(0, l.cacheEn.toNat), (1, 1), (2, l.memEn.toNat), (16, (l.up && l.cacheEn).toNat), (17, l.up.toNat), (18, (l.up && l.memEn).toNat)]
  else if o = 0x1C0 then extHeader 0x0023 1 0x1E0
  else if o = 0x1C4 then dvsecHeader 0x14
  else if o = 0x1C8 then dword [(0, 0x0008)]
  else if o = 0x1CC then dword [(0, 2), (8, 1)]
  else 0

/-- Data Object Exchange, IDE, and the capabilities that the base specification defines. -/
def objectWord (s : State) (o : Nat) : Nat :=
  let f := s.host.link.cfg
  let up := s.host.link.up
  if o = 0x1E0 then extHeader 0x002E 1 0x200
  else if o = 0x1EC then dword [(2, f.doeError.toNat), (31, (!f.doeOut.isEmpty).toNat)]
  else if o = 0x1F4 then (lget f.doeOut 0 0).toNat
  else if o = 0x200 then extHeader 0x0030 1 0x240
  else if o = 0x204 then 1
  else if o = 0x20C then dword [(0, (bit s.host.link.cfg.ide.toNat 0).toNat), (1, (bit s.host.link.cfg.ide.toNat 1).toNat)]
  else if o = 0x240 then extHeader 0x0025 1 0x250
  else if o = 0x244 then dword [(0, 1), (31, 1)]
  else if o = 0x248 then dword [(0, up.toNat), (31, up.toNat)]
  else if o = 0x250 then extHeader 0x0026 1 0x280
  else if o = 0x25C then (if up then 0xF else 0)
  else if o = 0x280 then extHeader 0x002A 1 0x2B0
  else if o = 0x28C then (if up then 0xF else 0)
  else if o = 0x2B0 then extHeader 0x0031 1 0
  else if o = 0x2BC then (if up ∧ s.host.link.rate ≥ 2 then 0xF else 0)
  else 0

/-- An aligned word of configuration space. -/
def configWord (s : State) (o : Nat) : Nat :=
  if o < 0x40 then headerWord s o else if o < 0x100 then capWord s o else if o < 0x160 then errorWord s o
  else if o < 0x1E0 then dvsecWord s o else objectWord s o

def updCfg (f : Cfg → Cfg) (s : State) : State := updLink (fun l => { l with cfg := f l.cfg }) s

/-- The state bits of a Power Management write: D3hot or D0, as D3HOT_ENTRY and D0_ENTRY (R275). -/
def powerWrite (v : Nat) (s : State) : State :=
  if v % 4 = 3 then (if s.host.link.up then enterD3 s else s)
  else if v % 4 = 0 then updLink (fun l => { l with d3hot := false }) s else s

/-- A word written to configuration space: RW bits take it, status bits of AER clear where written 1, data objects go through their mailbox, the rest
keep. -/
def configWrite (o v : Nat) (s : State) : State :=
  let w := BitVec.ofNat 32 v
  if o = 4 then updCfg (fun f => { f with command := BitVec.ofNat 16 v &&& 0x0547 }) s
  else if 0x10 ≤ o ∧ o < 0x28 then updCfg (fun f => { f with bars := tset f.bars ((o - 0x10) / 4) w }) s
  else if o = 0x44 then powerWrite v s
  else if o = 0x58 then updCfg (fun f => { f with devCtl := BitVec.ofNat 16 v }) s
  else if o = 0x60 then updCfg (fun f => { f with linkCtl := BitVec.ofNat 16 v }) s
  else if o = 0x90 then updCfg (fun f => { f with msixCtl := BitVec.ofNat 2 (v / 2 ^ 30) }) s
  else if o = 0x104 then updCfg (fun f => { f with aer := f.aer &&& ~~~ w }) s
  else if o = 0x108 then updCfg (fun f => { f with aerMask := w }) s
  else if o = 0x10C then updCfg (fun f => { f with aerSev := w }) s
  else if o = 0x1AC then updLink (fun l => { l with cacheEn := bit v 0, memEn := bit v 2 }) s
  else if o = 0x1E8 then
    (if bit v 0 then updCfg (fun f => { f with doeIn := [], doeOut := [], doeError := false }) s else if bit v 31 then doeGo s else s)
  else if o = 0x1F0 then updCfg (fun f => { f with doeIn := f.doeIn ++ [w] }) s
  else if o = 0x1F4 then updCfg (fun f => { f with doeOut := f.doeOut.drop 1 }) s
  else s

/-! ### BAR2: component registers (R263) -/

/-- The capability directory, RAS, link, the one HDM decoder, and IDE. -/
def componentWord (s : State) (o : Nat) : Nat :=
  let l := s.host.link
  let f := l.cfg
  if o = 0x1000 then dword [(0, 1), (16, 1), (20, 1), (24, 4)]
  else if o = 0x1004 then dword [(0, 2), (16, 2), (20, 0x100)]
  else if o = 0x1008 then dword [(0, 4), (16, 2), (20, 0x180)]
  else if o = 0x100C then dword [(0, 5), (16, 1), (20, 0x200)]
  else if o = 0x1010 then dword [(0, 7), (16, 1), (20, 0x280)]
  else if o = 0x1100 then f.ras.toNat
  else if o = 0x1104 then f.rasMask.toNat
  else if o = 0x1108 then f.rasSev.toNat
  else if o = 0x1180 then 2
  else if o = 0x1188 then dword [(0, (tgetD f.linkRegs o 0).toNat % 2), (4, if l.up then 2 else 0)]
  else if o = 0x1190 ∨ o = 0x11A8 ∨ o = 0x11B0 then (tgetD f.linkRegs o 0).toNat
  else if o = 0x1204 then 2
  else if o = 0x1210 then f.hdmBase.toNat % 2 ^ 32
  else if o = 0x1214 then f.hdmBase.toNat / 2 ^ 32
  else if o = 0x1218 then f.hdmSize.toNat % 2 ^ 32
  else if o = 0x121C then f.hdmSize.toNat / 2 ^ 32
  else if o = 0x1220 then dword [(10, l.hdm.toNat)]
  else if o = 0x1280 then 1
  else if o = 0x1284 then (bit f.ide.toNat 1).toNat
  else 0

/-- The low or high word of a 64-bit register replaced. -/
def putHalf (high : Bool) (v : Nat) (x : W64) : W64 :=
  BitVec.ofNat 64 (if high then v % 2 ^ 32 * 2 ^ 32 + x.toNat % 2 ^ 32 else x.toNat / 2 ^ 32 * 2 ^ 32 + v % 2 ^ 32)

/-- A word written to a component register; the decoder is committed over a 64 GB range only, and its range does not change while it is (R264). -/
def componentWrite (o v : Nat) (s : State) : State :=
  let w := BitVec.ofNat 32 v
  let range := fun (g : Cfg → Cfg) => if s.host.link.hdm then s else updCfg g s
  if o = 0x1100 then updCfg (fun f => { f with ras := f.ras &&& ~~~ w }) s
  else if o = 0x1104 then updCfg (fun f => { f with rasMask := w }) s
  else if o = 0x1108 then updCfg (fun f => { f with rasSev := w }) s
  else if o = 0x1188 ∨ o = 0x1190 ∨ o = 0x11A8 ∨ o = 0x11B0 then updCfg (fun f => { f with linkRegs := tset f.linkRegs o w }) s
  else if o = 0x1210 then range fun f => { f with hdmBase := putHalf false (v / 2 ^ 28 * 2 ^ 28) f.hdmBase }
  else if o = 0x1214 then range fun f => { f with hdmBase := putHalf true v f.hdmBase }
  else if o = 0x1218 then range fun f => { f with hdmSize := putHalf false (v / 2 ^ 28 * 2 ^ 28) f.hdmSize }
  else if o = 0x121C then range fun f => { f with hdmSize := putHalf true v f.hdmSize }
  else if o = 0x1220 then updLink (fun l => { l with hdm := bit v 9 && (l.hdm || l.cfg.hdmSize.toNat == 2 ^ 36) }) s
  else s

/-! ### BAR4: the MSI-X table and PBA (R263, R285) -/

/-- A word of a table entry: address, data, vector control. -/
def tableWord (s : State) (o : Nat) : Nat :=
  let x := vec s (o / 16)
  let k := o % 16 / 4
  if k = 0 then x.addr.toNat % 2 ^ 32 else if k = 1 then x.addr.toNat / 2 ^ 32 else if k = 2 then x.data.toNat else x.masked.toNat
/-- A word of the PBA: one bit for each vector. -/
def pbaWord (s : State) (o : Nat) : Nat :=
  if o < 256 then maskOf ((upto 32).filter fun i => (vec s (8 * o + i)).pba) else 0
def tableRead (s : State) (o : Nat) : Nat := if o < 0x8000 then tableWord s o else pbaWord s (o - 0x8000)

/-- An aligned access of 4 or 8 bytes as words, the low one first. -/
def readWords (f : Nat → Nat) (o n : Nat) : Nat := f o + (if n = 8 then f (o + 4) * 2 ^ 32 else 0)
def writeWords (f : Nat → Nat → State → State) (o n v : Nat) (s : State) : State :=
  let s := f o (v % 2 ^ 32) s
  if n = 8 then f (o + 4) (v / 2 ^ 32) s else s

end Sys2Proof.Machine
end

