-- ==== Sys2Proof/Machine/Registers.lean ====
section
/-! DEFINITION. Registers: what a read returns (R286, R307, R345, R365, R395–R403) and REGISTER_WRITE (R4, R263, R285, R307–R309). -/

namespace Sys2Proof.Machine

/-! ### Values read -/

/-- A word from fields given as (lowest bit, value), the fields disjoint. -/
def word (fs : List (Nat × Nat)) : Nat := fs.foldl (fun n f => n + f.2 * 2 ^ f.1) 0

/-- The mask of partitions for which f holds. -/
def ptnMask (s : State) (f : Ptn → Bool) : Nat := maskOf ((upto 12).filter fun p => f (ptn s p))
/-- Firmware version running (R286 GLB_IDENT). -/
def runningSlot (a : Aon) : FwSlot := if a.running then a.slotB else a.slotA
def otherSlot (a : Aon) : FwSlot := if a.running then a.slotA else a.slotB
/-- GLB_STATUS.FAULTS, LINKDEG, ICN_UP, PTN_* and the rest (R286). -/
def glbStatus (s : State) : Nat :=
  word [(63, (s.aon.oos || s.hearth.recovery).toNat), (62, s.hearthUp.toNat), (61, s.aon.running.toNat), (60, s.host.link.deg.toNat), (48, maskOf s.aon.ptnOos),
    (36, ptnMask s fun x => isFenced x), (24, ptnMask s fun x => x.power == .forge),
    (20, if s.host.link.up then widthCode s.host.link.width else 0), (16, if s.host.link.up then s.host.link.rate else 0),
    (12, maskOf ((upto 4).filter fun n => (port s n).st == .up)), (0, s.faults.toNat)]
def glbIdent (s : State) : Nat :=
  word [(32, (runningSlot s.aon).version.toNat), (24, 0xB0), (16, s.aon.modid % 64), (0, 0x0C12)]
def glbFault (s : State) : Nat := word [(32, s.aon.total.toNat), (0, (s.aon.codes.headD 0).toNat)]
def glbAvail (s : State) : Nat := word [(32, s.aon.events.toNat), (0, min 0xFFFFFFFF (s.aon.unavail / 6250))]
/-- The depth a die applies (R397). -/
def gateDepth (s : State) (d : DieT) : Nat := max s.power.dp d.depth
def glbPower (s : State) : Nat :=
  word [(48, s.power.pin % 65536), (32, s.aon.plim % 65536), (24, s.power.vin % 256), (20, gateDepth s s.power.west), (16, gateDepth s s.power.east),
    (12, s.power.dp), (11, s.power.excursion.toNat)]
def glbTherm (s : State) : Nat :=
  word [(56, ofSigned 8 (s.power.west.filtered.getD 0)), (48, ofSigned 8 (s.power.east.filtered.getD 0)), (40, ofSigned 8 (s.power.inlet.getD 0)),
    (32, ofSigned 8 (s.power.outlet.getD 0)), (28, s.power.west.depth), (24, s.power.east.depth), (23, s.power.coolOol.toNat), (22, s.aon.leak.toNat),
    (21, s.aon.trip.toNat)]
def sqReg (s : State) (r : Nat) : Nat := word [(32, (ring s r).st.code), (16, (ring s r).sqHead)]
def cqReg (s : State) (r : Nat) : Nat :=
  if ringExists s r then word [(32, (ring s r).cqTail), (16, (ring s r).phase.toNat)] else 0
def ptnState (s : State) (p : Nat) : Nat :=
  let x := ptn s p
  word [(56, x.job.getD 0xFF), (32, min 255 (window s p).count), (12, x.usable), (4, x.service.code), (0, x.power.code)]
def ptnExitLat : Nat := word [(48, 3000), (32, 1200), (16, 20)]
def ptnIdleReg (x : Ptn) : Nat := word [(32, x.bankedMs.toNat), (0, x.warmUs.toNat)]
/-- TEMP of PTN_HBMSTAT: 2 × (T + 64), 0 before the first valid sample. -/
def tempCode (t : StackT) : Nat := match t.filtered with | some v => (v + 128).toNat % 512 | none => 0
def hbmStat (x : Ptn) : Nat :=
  word [(55, tempCode x.temp), (52, x.temp.step), (51, x.temp.bad.toNat), (32, x.ueCnt.toNat), (0, x.ceCnt.toNat)]
def regStat (x : Ptn) : Nat := word [(48, x.reg.rcvEff), (32, x.reg.iss), (28, x.reg.conflict.toNat), (0, x.reg.waited.toNat)]
/-- The current slot of a round, 0xFFF for any context (R233). -/
def roundStat (x : Ptn) : Nat :=
  let sl := x.round.table[x.round.slot]?
  word [(32, x.round.rounds.toNat), (24, x.round.slot), (20, x.resident.length), (16, match sl with | some k => k.cls | none => 0),
    (12, match x.swap with | some w => w.phase | none => 0), (0, match sl with | some k => k.ctx % 4096 | none => 0)]
def icnStat (p : Port) : Nat :=
  word [(58, p.peer % 64), (52, p.lanes.toNat), (40, min 255 p.retrains.toNat), (16, p.replays.toNat), (7, p.mismatch.toNat), (6, p.hbloss.toNat), (0, p.st.code)]
def icnErr (p : Port) : Nat := word [(32, p.fecCorr.toNat), (16, p.fecUncorr.toNat), (0, p.crcErr.toNat)]
def mbxStat (x : Mbx) : Nat := word [(32, x.tag.toNat), (24, x.status.toNat), (8, x.overrun.toNat), (0, x.state)]

/-- A byte of a mailbox window (R307). -/
def mbxByte (x : Mbx) (o : Nat) : Byte :=
  if o < 0x10 then mread x.header o
  else if 0x18 ≤ o ∧ o < 0x20 then BitVec.ofNat 8 (mbxStat x / 256 ^ (o - 0x18))
  else if 0x20 ≤ o ∧ o < 0x30 then lget x.rspHeader (o - 0x20) 0
  else if 0x1000 ≤ o ∧ o < 0x2000 then mread x.payload (o - 0x1000)
  else 0

/-- The 64-bit register of a partition window (R286). -/
def ptnReg (s : State) (p o : Nat) : Nat :=
  let x := ptn s p
  if o = 0 then ptnState s p else if o = 8 then ptnExitLat else if o = 0x10 then ptnIdleReg x else if o = 0x200 then hbmStat x
  else if o = 0x220 then regStat x else if o = 0x240 then roundStat x else if o = 0x260 then x.wdog.toNat else 0

/-- The aligned 64-bit word of BAR0 at offset o, mailbox windows apart (R286). -/
def barWord (s : State) (o : Nat) : Nat :=
  if o < 0x1000 then
    (if o = 0 then glbIdent s else if o = 8 then glbStatus s else if o = 0x10 then glbFault s else if o = 0x18 then s.aon.ticks.toNat / 6250000
     else if o = 0x20 then glbAvail s else if o = 0x28 then glbPower s else if o = 0x30 then glbTherm s else 0)
  else if 0x10000 ≤ o ∧ o < 0x12000 then sqReg s ((o - 0x10000) / 8)
  else if 0x12000 ≤ o ∧ o < 0x14000 then cqReg s ((o - 0x12000) / 8)
  else if o = 0x20000 then s.host.evtPend.toNat
  else if o = 0x20008 then s.host.evtMask.toNat
  else if 0x20100 ≤ o ∧ o < 0x20140 then
    let b := (o - 0x20100) / 4
    (evtCount s b).toNat + 2 ^ 32 * (evtCount s (b + 1)).toNat
  else if 0x40000 ≤ o ∧ o < 0x4C000 then ptnReg s ((o - 0x40000) / 0x1000) (o % 0x1000)
  else if 0x80000 ≤ o ∧ o < 0x90000 then
    (if o % 0x4000 = 0 then icnStat (port s ((o - 0x80000) / 0x4000))
     else if o % 0x4000 = 8 then icnErr (port s ((o - 0x80000) / 0x4000)) else 0)
  else 0

/-- What an aligned 4- or 8-byte read of BAR0 returns (R263, R286). -/
def readReg (s : State) (off size : Nat) : Nat :=
  if 0x1000 ≤ off ∧ off < 0x7000 then
    leNat ((upto size).map fun i => mbxByte (mbx s ((off - 0x1000) / 0x2000)) ((off - 0x1000) % 0x2000 + i))
  else barWord s (off - off % 8) / 256 ^ (off % 8) % 256 ^ size

/-- What an aligned read over a path returns (R262, R263, R286, R307). -/
def readPath (s : State) (path : RegPath) (off size : Nat) : Nat :=
  match path with
  | .bar0 => readReg s off size
  | .bar2 => readWords (componentWord s) off size
  | .bar4 => readWords (tableRead s) off size
  | .config => readWords (configWord s) off size
  | .sideband => leNat ((upto size).map fun i => mbxByte (mbx s 3) (off + i))

/-! ### Mailbox windows (R307–R309) -/

/-- The request header as the Hearth copies it, with LEN payload bytes (R308). -/
def takeRequest (x : Mbx) : Req :=
  let h := mreadAll x.header 0 16
  let len := field h 2 2
  { opcode := field h 0 2, len := len, tag := BitVec.ofNat 32 (field h 4 4), rsv := !zeroAt h 8 8
    bytes := mreadAll x.payload 0 (min len 4096) }

/-- The Hearth runs its firmware at speed (R306). -/
def hearthRuns (s : State) : Bool := s.hearthUp && s.hearth.awake

/-- In recovery the ROM itself executes MBX0 and MBX3 (R373). -/
def romRuns (s : State) (m : Nat) : Bool := s.hearth.recovery && (m == 0 || m == 3)

/-- The place of a GO in the order of acceptance: by the always-on cycle, the mailbox's number within one, then by arrival (R311). -/
def goOrder (m : Nat) (s : State) : Nat := (s.aon.ticks.toNat * 4 + m) * 2 ^ 64 + s.hearth.goSeq % 2 ^ 64

/-- GO: STATE becomes 1, and 2 where the Hearth is awake; a GO while 1 or 2 sets OVERRUN (R306, R309). -/
def goWrite (m : Nat) (s : State) : State :=
  let x := mbx s m
  if x.state = 1 ∨ x.state = 2 then updMbx m (fun x => { x with overrun := true }) s
  else
    let q := takeRequest x
    updHearth (fun h => { h with wakeDue := true, goSeq := h.goSeq + 1 })
      (updMbx m (fun x => { x with state := if hearthRuns s || romRuns s m then 2 else 1, req := some q, tag := q.tag, order := goOrder m s }) s)

/-- n bytes of a value at an offset of a mailbox window: RW bytes where STATE is 0 or 3, GO, the W1C bit (R307, R309). -/
def mbxWrite (m o n v : Nat) (s : State) : State :=
  let x := mbx s m
  let busy := x.state == 1 || x.state == 2
  if o < 0x10 ∨ (0x1000 ≤ o ∧ o < 0x2000) then
    if busy then updMbx m (fun x => { x with overrun := true }) s
    else if o < 0x10 then updMbx m (fun x => { x with header := mwriteAll x.header o ((leBytes n v).take (16 - o)) }) s
    else updMbx m (fun x => { x with payload := mwriteAll x.payload (o - 0x1000) ((leBytes n v).take (0x2000 - o)) }) s
  else if o = 0x10 then (if bit v 0 then goWrite m s else s)
  else if o = 0x18 then updMbx m (fun x => { x with overrun := x.overrun && !bit v 8 }) s
  else s

/-! ### REGISTER_WRITE -/

/-- An aligned 4- or 8-byte access (R263). -/
def aligned (off n : Nat) : Bool := (n == 4 || n == 8) && off % n == 0

/-- A write to BAR0 (R286): RW, W1C and WO bits take it, other bits do not. -/
def barWrite (off n v : Nat) (s : State) : State :=
  if 0x1000 ≤ off ∧ off < 0x7000 then mbxWrite ((off - 0x1000) / 0x2000) ((off - 0x1000) % 0x2000) n v s
  else if 0x10000 ≤ off ∧ off < 0x12000 ∧ off % 8 = 0 then submitTail ((off - 0x10000) / 8) v s
  else if 0x12000 ≤ off ∧ off < 0x14000 ∧ off % 8 = 0 then completionHead ((off - 0x12000) / 8) v s
  else if 0x14000 ≤ off ∧ off < 0x16000 ∧ off % 8 = 0 then payloadDone ((off - 0x14000) / 8) v s
  else if off = 0x20000 then clearEvents v 0 s
  else if off = 0x20008 then writeMask v s
  else if off = 0x30 then (if bit v 21 then updAon (fun a => { a with trip := false }) s else s)
  else if 0x40000 ≤ off ∧ off < 0x4C000 ∧ off % 0x1000 = 0x260 then
    let p := v % 1024
    if p = 0 ∨ p > 1000 then s else updPtn ((off - 0x40000) / 0x1000) (fun x => { x with wdog := BitVec.ofNat 10 p }) s
  else s

/-- One 32-bit word of the MSI-X table written; a vector that becomes unmasked sends what it owes (R263, R285). -/
def msixWord (off v : Nat) (s : State) : State :=
  let n := off / 16
  let k := off % 16 / 4
  if k = 0 then updVec n (fun x => { x with addr := BitVec.ofNat 64 (x.addr.toNat / 2 ^ 32 * 2 ^ 32 + v % 2 ^ 32) }) s
  else if k = 1 then updVec n (fun x => { x with addr := BitVec.ofNat 64 (v % 2 ^ 32 * 2 ^ 32 + x.addr.toNat % 2 ^ 32) }) s
  else if k = 2 then updVec n (fun x => { x with data := BitVec.ofNat 32 v }) s
  else if bit v 0 then updVec n (fun x => { x with masked := true }) s
  else if (vec s n).masked then unmask n s else s

/-- A write to BAR4: the table takes aligned 32-bit and 64-bit writes, the PBA none (R263). -/
def tableWrite (off n v : Nat) (s : State) : State :=
  if off + n > 0x8000 then s
  else if n = 8 then msixWord (off + 4) (v / 2 ^ 32) (msixWord off v s) else msixWord off v s

/-- A register write over its path (R4, R262, R263, R307); one over the link brings it back to L0 (R288). -/
def writeReg (path : RegPath) (off n v : Nat) (s : State) : State :=
  let v := v % 256 ^ n
  let s := if path = .sideband then s else updLink (fun l => { l with aspm := .l0 }) s
  match path with
  | .bar0 => if aligned off n then barWrite off n v (answer .written s) else answer .unsupported s
  | .bar2 => if aligned off n then writeWords componentWrite off n v (answer .written s) else answer .unsupported s
  | .config => if aligned off n then writeWords configWrite off n v (answer .written s) else answer .unsupported s
  | .bar4 => if aligned off n then tableWrite off n v (answer .written s) else answer .unsupported s
  | .sideband => mbxWrite 3 off n v s

def execRegisterWrite (path : RegPath) (off size : Nat) (v : W64) (s : State) : Host.Outcome State Fault Refusal :=
  .next (writeReg path off size v.toNat s)

end Sys2Proof.Machine
end

