-- ==== Sys2Proof/Machine/Mailbox.lean ====
section
/-! DEFINITION. The mailbox protocol (R306–R314): acceptance order, held commands, BUSY and tickets, responses. -/

namespace Sys2Proof.Machine

/-- What a mailbox command answers when it executes: its response, or work that goes on under a ticket. -/
inductive Res where
  | done (st : MStatus) (bytes : List Byte) (detail : Nat)
  | busy (w : Work)
  deriving DecidableEq, Repr

def mOk (bytes : List Byte) : Res := .done .ok bytes 0
def mFail (st : MStatus) : Res := .done st [] 0

/-- A mailbox command's effect: mailbox, request, the outcome of its host read. -/
abbrev Handler := Nat → Req → ReadReply → State → State × Res

/-- OUT_OF_SERVICE, recovery included (R364, R373). -/
def outOfService (s : State) : Bool := s.aon.oos || s.hearth.recovery

/-- Opcodes of R315 and R426. -/
def knownOpcode (op : Nat) : Bool :=
  [0x0001, 0x0002, 0x0003, 0x0004, 0x0005, 0x0101, 0x0102, 0x0110, 0x0111, 0x0112, 0x0113, 0x0114, 0x0115, 0x0116, 0x0117, 0x0118,
   0x0119, 0x0120, 0x0201, 0x0202, 0x0203, 0x0204, 0x0210, 0x0220, 0x0301, 0x0302, 0x0401, 0x0410, 0x0411, 0x0412, 0x0420, 0x0501,
   0x0601, 0x0602, 0x0701, 0x0702, 0x0710, 0x0801, 0x0802, 0x0810].contains op

/-- Commands that act on a partition OUT_OF_SERVICE: PTN_ENABLE (R315), JOB_CREATE, whose own check names such a partition, and JOB_END (R227,
R363), the test runs of R424 and R427. -/
def actsOnOos (op : Nat) : Bool := [0x0101, 0x0110, 0x0111, 0x0801, 0x0810].contains op
/-- Commands that act on a fenced partition: JOB_CREATE, whose own check names such a partition, and JOB_END, which waits for it (R227). -/
def actsOnFenced (op : Nat) : Bool := [0x0110, 0x0111].contains op

/-- Checks before a command's own (R309, R314, R352, R363). -/
def runReq (h : Handler) (m : Nat) (q : Req) (reply : ReadReply) (s : State) : State × Res :=
  if q.rsv || q.len > 4096 then (s, mFail .invalidField)
  else if outOfService s && !([0, 6, 7].contains (q.opcode / 256)) then (s, mFail .outOfService)
  else if !actsOnOos q.opcode && anyOos s (reqNeeds s q) then (s, mFail .outOfService)
  else if !actsOnFenced q.opcode && anyFenced s (reqNeeds s q) then (s, mFail .fenced)
  else h m q reply s

/-- Step 4 of R309: response payload, header, TAG and STATUS, STATE 3, vector 1 + m. -/
def answerMbx (m : Nat) (q : Req) (r : Rsp) (s : State) : State :=
  let hdr := leBytes 2 q.opcode ++ leBytes 2 r.bytes.length ++ leBytes 4 q.tag.toNat ++ [r.status.code, 0] ++ leBytes 2 r.ticket ++ leBytes 4 r.detail
  let s := updMbx m (fun x => { x with
    payload := mwriteAll x.payload 0 r.bytes, rspHeader := hdr, state := 3, tag := q.tag, status := r.status.code, req := none }) s
  if m < 3 then sendVec (1 + m) s else s

/-- The next ticket number not in use, from 1 to 65,535 (R310). -/
def freeTicket (s : State) : Nat :=
  let nxt := fun k : Nat => if k ≥ 65535 then 1 else k + 1
  let n := s.hearth.tickets.length
  (upto (n + 1)).foldl (fun k _ => if (tget s.hearth.tickets k).isSome then nxt k else k) s.hearth.nextTicket

/-- The outcome of a command written to its mailbox; BUSY takes one of 64 tickets, and without one the command has no effect (R310). -/
def settleReq (m : Nat) (q : Req) (order : Nat) (before : State) (out : State × Res) : State :=
  match out with
  | (s, .done st bytes detail) => answerMbx m q { status := st, bytes := bytes, detail := detail } s
  | (s, .busy w) =>
    if (openTickets before).length ≥ 64 then answerMbx m q { status := .noResource } before
    else
      let t := freeTicket s
      let s := updHearth (fun h => { h with
        tickets := tset h.tickets t { mbx := m, req := q, work := w, order := order }, nextTicket := if t ≥ 65535 then 1 else t + 1 }) s
      answerMbx m q { status := .busy, ticket := t } s

/-- A COLL_DELETE joins a deletion under way, and a COLL_TRAIN a training; they are not held behind it (R111, R315). -/
def joinsWork (q : Req) (k : Ticket) : Bool :=
  match k.work with
  | .collDelete c => q.opcode == 0x0202 && qf q 0 2 == c
  | .train c _ => q.opcode == 0x0210 && qf q 0 2 == c
  | _ => false
/-- A running command accepted earlier names an object of the request (R311). -/
def heldBehind (s : State) (q : Req) (order : Nat) : Bool :=
  (openTickets s).any fun k => decide (k.2.order < order) && sharesObject k.2.req q && !joinsWork q k.2
/-- A request accepted earlier in another mailbox, not executed yet, names an object of the request (R311). -/
def waitsMailbox (s : State) (m : Nat) (q : Req) : Bool :=
  s.hearth.mbx.any fun x => x.1 != m && (x.2.state == 1 || x.2.state == 2) && decide (x.2.order < (mbx s m).order) &&
    (match x.2.req with | some r => sharesObject r q | none => false)

/-- Who executes a mailbox's requests: the firmware, or in recovery the ROM for MBX0 and MBX3 (R373). -/
def executes (s : State) (m : Nat) : Bool := hearthRuns s || romRuns s m

/-- Commands the ROM executes in recovery (R373). -/
def romAccepts (op : Nat) : Bool := op == 0x0002 || op == 0x0701 || op == 0x0602

/-- A mailbox row: the request of mailbox m, in STATE 2, if it carries the row's opcode and form; an opcode that is not defined is
refused whichever row comes (R309, R313; log 18). -/
def mailboxWith (hold : Req → Work) (m op : Nat) (form : Req → Bool) (h : Handler) (reply : ReadReply) (s : State) : State :=
  let x := mbx s m
  match x.req with
  | none => s
  | some q =>
    if x.state ≠ 2 ∨ !executes s m ∨ waitsMailbox s m q then s
    else if !knownOpcode q.opcode then answerMbx m q { status := .invalidField } s
    else if q.opcode ≠ op ∨ !form q then s
    else if s.hearth.recovery && !romAccepts op then answerMbx m q { status := .invalidField } s
    else if heldBehind s q x.order then settleReq m q x.order s (s, .busy (hold q))
    else settleReq m q x.order s (runReq h m q reply s)

def mailbox (m op : Nat) (form : Req → Bool) (h : Handler) (reply : ReadReply) (s : State) : State :=
  mailboxWith (fun q => .held q reply) m op form h reply s

def anyForm (_ : Req) : Bool := true

/-- The failure of a mailbox command's host read (R312, R433). -/
def readFailure (reply : ReadReply) (s : State) : State × Res :=
  let code := hostFault 0x71 ((replyCause reply).getD 4) none
  (postFault code (noteAer ((replyCause reply).getD 4) s), mFail (if reply = .timeout then .timeout else .uncorrectable))

end Sys2Proof.Machine
end

