-- ==== Sys2Proof/Machine/MbxInfo.lean ====
section
/-! DEFINITION. Mailbox commands that report: SUMMARY (R319, R320), IDENTIFY, EVENT_LOG, CLOCK_CORR (R318), RESULT_GET (R310), COLL_STATS,
CTX_STATS (R315). -/

namespace Sys2Proof.Machine

/-! ### SUMMARY -/

/-- Seconds left in a window of a length in seconds (R320, R362). -/
def secondsLeft (s : State) (w : Window) (len : Nat) : Nat :=
  if w.isOpen then len - (s.aon.ticks.toNat - w.since.toNat) / 6250000 else 0

/-- Regions of a partition free for frames (R80, R115). -/
def freeRegionCount (s : State) (p : Nat) : Nat :=
  3555 - ((ptn s p).regions.filter fun r => decide (r.1 < 3555) && !regionFree s p ((ptn s p).job.getD 0) r.1).length

def admittedOf (f : Cmd → Bool) (s : State) : Nat := (cmdsOf (fun x => liveCmd x && x.admitted && f x) s).length
def jobMode (x : Job) : Nat := if x.ptns.length > 4 || x.modules > 1 then 1 else 0

def ptnRecord (s : State) (p : Nat) : List Byte :=
  let x := ptn s p
  padBytes 64 ([BitVec.ofNat 8 x.power.code, BitVec.ofNat 8 x.service.code, BitVec.ofNat 8 (x.job.getD 0xFF), BitVec.ofNat 8 x.temp.step,
    BitVec.ofNat 8 (min 255 (window s p).count), BitVec.ofNat 8 x.resident.length] ++ leBytes 2 x.usable ++
    leBytes 4 (secondsLeft s (window s p) 600) ++ leBytes 2 x.reg.rcvEff ++ leBytes 2 x.reg.iss ++ [if x.reg.conflict then 1 else 0, 0] ++
    leBytes 2 20 ++ leBytes 2 1200 ++ leBytes 2 3000 ++ leBytes 4 x.warmUs.toNat ++ leBytes 4 x.bankedMs.toNat ++ leBytes 4 (freeRegionCount s p) ++
    leBytes 4 (admittedOf (fun c => c.home == p) s))
def portRecord (s : State) (n : Nat) : List Byte :=
  let p := port s n
  padBytes 16 ([if p.st = .up then 2 else if p.st = .training ∨ p.st = .init then 1 else 0, BitVec.ofNat 8 p.peer,
    BitVec.ofNat 8 (bitsOf 4 p.lanes.toNat).length, 0] ++ leBytes 4 p.retrains.toNat)
def jobRecord (s : State) (j : Nat) : List Byte :=
  match job? s j with
  | none => padBytes 16 [0xFF]
  | some x => [BitVec.ofNat 8 j, BitVec.ofNat 8 (jobMode x)] ++ leBytes 2 (maskOf x.ptns) ++ [BitVec.ofNat 8 x.modules, BitVec.ofNat 8 x.root] ++
      leBytes 2 (s.ctxs.filter fun c => c.2.job == j).length ++ leBytes 8 x.mask.toNat

/-- Body of a probe or its answer: this module's definition of the job, hop count 0, no path yet (R332). -/
def probeBody (s : State) (j : Nat) : List Byte := jobRecord s j ++ List.replicate 16 0

/-- The root of a spanning job. -/
def isRoot (s : State) (j : Nat) : Bool := (job? s j).any fun x => x.modules > 1 && x.root == s.aon.modid

/-- ROUTE_PROBE to every other module of a job (R339). -/
def sendProbes (j : Nat) (s : State) : State :=
  sendAll (peersOf s j) (fun d => { type := 8, src := s.aon.modid, dst := d, job := j, body := probeBody s j })
    (updJob j (fun x => { x with probing := peersOf s j }) s)

def journalState (x : Ctx) : Byte := match x.journal with | none => 0 | some j => if j.broken then 2 else 1
def ctxRecord (s : State) (c : Nat) (x : Ctx) : List Byte :=
  padBytes 16 (leBytes 2 c ++ [BitVec.ofNat 8 x.job, BitVec.ofNat 8 x.home] ++ leBytes 4 (admittedOf (fun k => k.ctx == c) s) ++
    leBytes 4 ((slowDown x.measured).getD 0) ++ leBytes 2 (maskOf ((upto 12).filter fun p => (tget (ptn s p).resident c).isSome)) ++ [journalState x])
def ringRecord (s : State) (r : Nat) (x : Ring) : List Byte :=
  leBytes 2 r ++ leBytes 2 x.ctx ++ [BitVec.ofNat 8 x.st.code, 0] ++ leBytes 2 x.sqHead ++ leBytes 2 x.sqTail ++ leBytes 2 x.cqTail ++
    leBytes 2 x.cqHead ++ leBytes 2 (admittedOf (fun k => k.ring == r && k.origin.isNone) s)
def collRecord (c : Nat) (x : Coll) : List Byte := leBytes 2 c ++ [BitVec.ofNat 8 x.job, BitVec.ofNat 8 x.state.code] ++ leBytes 4 x.latest.toNat

def liveColls (s : State) : List (Nat × Coll) := s.colls.filter fun c => c.2.state != .free

/-- The header (R320). -/
def summaryHeader (s : State) (len seq : Nat) : List Byte :=
  padBytes 64 ([1, 0, 0, 0] ++ leBytes 4 len ++ leBytes 4 seq ++ leBytes 8 s.aon.ticks.toNat ++ leBytes 4 (runningSlot s.aon).version.toNat ++
    leBytes 4 (otherSlot s.aon).version.toNat ++ [if s.aon.running then 1 else 0, if s.aon.trial then 1 else 0, BitVec.ofNat 8 s.aon.rollback,
      BitVec.ofNat 8 s.aon.modid, if outOfService s then 1 else 0,
      BitVec.ofNat 8 (if s.host.link.up then widthCode s.host.link.width + 16 * s.host.link.rate else 0), BitVec.ofNat 8 s.jobs.length, 0] ++
    leBytes 2 s.ctxs.length ++ leBytes 2 s.host.rings.length ++ leBytes 2 (liveColls s).length ++ [0, 0, BitVec.ofNat 8 s.aon.chipWin.count,
      BitVec.ofNat 8 s.aon.linkWin.count, 0, 0] ++ leBytes 4 (secondsLeft s s.aon.chipWin 86400) ++ leBytes 4 (secondsLeft s s.aon.linkWin 3600))

/-- The snapshot (R319, R320). -/
def snapshot (s : State) (seq : Nat) : List Byte :=
  let len := 0x480 + 16 * s.ctxs.length + 16 * s.host.rings.length + 8 * (liveColls s).length
  summaryHeader s len seq ++ padBytes 64 (s.aon.codes.flatMap fun c => leBytes 4 c.toNat) ++ (upto 12).flatMap (ptnRecord s) ++
    (upto 4).flatMap (portRecord s) ++ (upto 12).flatMap (jobRecord s) ++ s.ctxs.flatMap (fun c => ctxRecord s c.1 c.2) ++
    s.host.rings.flatMap (fun r => ringRecord s r.1 r.2) ++ (liveColls s).flatMap fun c => collRecord c.1 c.2

def page (bs : List Byte) (i : Nat) : List Byte := (bs.drop (4096 * i)).take 4096

def doSummary : Handler := fun m q _ s =>
  let buf := qf q 0 8
  let len := qf q 8 4
  let pg := qf q 12 1
  if !shaped q 13 [] || buf % 64 != 0 || (buf == 0 && pg > 15) || (m == 3 && buf != 0) ||
     (buf != 0 && (len < 4096 || len > 65536 || len % 4096 != 0)) then (s, mFail .invalidField)
  else if buf ≠ 0 then
    let snap := snapshot s s.hearth.snapSeq
    if len < snap.length then (s, mFail .range)
    else (updHearth (fun h => { h with snapSeq := h.snapSeq + 1 }) (postBytes buf snap s),
      mOk (leBytes 4 snap.length))
  else if pg = 0 then
    let snap := snapshot s s.hearth.snapSeq
    (updHearth (fun h => { h with snapshot := some snap, snapSeq := h.snapSeq + 1 }) s, mOk (page snap 0))
  else match s.hearth.snapshot with
    | some snap => (s, mOk (page snap pg))
    | none => (s, mFail .range)
def execSummary (m : Fin 4) (s : State) : Host.Outcome State Fault Refusal := .next (mailbox m.val 0x0001 anyForm doSummary .timeout s)

/-- 10 s after PAGE 0 the snapshot goes, by a Hearth timer (R306, R319). -/
def execSummaryExpire (s : State) : Host.Outcome State Fault Refusal := onlyIf s.hearth.snapshot.isSome (fun s => wakeHearth (updHearth (fun h => { h with snapshot := none }) s)) s

/-! ### The others -/

def slotVersion (x : FwSlot) : Nat := if x.valid then x.version.toNat else 0

def doIdentify : Handler := fun _ q _ s =>
  if !shaped q 0 [] then (s, mFail .invalidField)
  else (s, mOk (leBytes 4 (slotVersion s.aon.slotA) ++ leBytes 4 (slotVersion s.aon.slotB) ++
    [0xB0, if s.aon.running then 1 else 0, BitVec.ofNat 8 s.aon.rollback, BitVec.ofNat 8 s.aon.modid] ++
    ((upto 12).flatMap fun p => leBytes 2 (ptn s p).usable) ++ leBytes 32 identityDigest.toNat))
def execIdentify (m : Fin 4) (s : State) : Host.Outcome State Fault Refusal := .next (mailbox m.val 0x0002 anyForm doIdentify .timeout s)

def logBytes (e : LogEntry) : List Byte :=
  leBytes 4 e.seq ++ [BitVec.ofNat 8 e.bit, BitVec.ofNat 8 e.kind, 0, 0] ++ leBytes 4 e.object ++ leBytes 4 e.data

def doEventLog : Handler := fun _ q _ s =>
  let frm := qf q 0 4
  let mx := qf q 4 1
  if !shaped q 5 [] || mx == 0 then (s, mFail .invalidField)
  else if frm > s.hearth.logSeq then (s, mFail .range)
  else
    let oldest := s.hearth.logSeq - s.hearth.log.length
    let es := (s.hearth.log.filter fun e => frm ≤ e.seq).take mx
    (s, mOk (leBytes 4 (max frm oldest + es.length) ++ leBytes 4 (oldest - frm) ++ es.flatMap logBytes))
def execEventLog (m : Fin 4) (s : State) : Host.Outcome State Fault Refusal := .next (mailbox m.val 0x0003 anyForm doEventLog .timeout s)

/-- Counters of the named partitions on one always-on edge (R318). -/
def doClockCorr : Handler := fun _ q _ s =>
  if !shaped q 2 [] || qf q 0 2 ≥ 4096 then (s, mFail .invalidField)
  else (s, mOk (leBytes 8 s.aon.ticks.toNat ++ (upto 12).flatMap fun p =>
    leBytes 8 (if bit (qf q 0 2) p && ((ptn s p).power == .forge || (ptn s p).power == .warm) then (ptn s p).cycles.toNat else 0)))
def execClockCorr (m : Fin 4) (s : State) : Host.Outcome State Fault Refusal := .next (mailbox m.val 0x0004 anyForm doClockCorr .timeout s)

/-- RESULT_GET answers with the ticketed command's response (R310, R315). -/
def getResult (m : Nat) (q : Req) (s : State) : State :=
  let t := qf q 0 2
  if q.rsv || !shaped q 2 [] then answerMbx m q { status := .invalidField } s
  else match tget s.hearth.tickets t with
    | none => answerMbx m q { status := .range } s
    | some k => match k.rsp with
      | none => answerMbx m q { status := .busy, ticket := t } s
      | some r => answerMbx m q r (updHearth (fun h => { h with tickets := tdel h.tickets t }) s)
def execResultGet (m : Fin 4) (s : State) : Host.Outcome State Fault Refusal :=
  .next (match (mbx s m.val).req with
    | some q => if (mbx s m.val).state = 2 ∧ hearthRuns s ∧ q.opcode = 0x0005 then getResult m.val q s
        else mailbox m.val 0x0005 anyForm (fun _ _ _ s => (s, mFail .invalidField)) .timeout s
    | none => s)

def doCollStats : Handler := fun _ q _ s =>
  let c := qf q 0 2
  let p := qf q 2 1
  let x := coll s c
  let y := collPtn x p
  if !shaped q 3 [] || x.state == .free || !(jobPtns s x.job).contains p then (s, mFail .invalidField)
  else (s, mOk (leBytes 4 x.latest.toNat ++ leBytes 4 x.horizon.toNat ++ [BitVec.ofNat 8 x.state.code, if y.topPin then 1 else 0] ++
    List.replicate 6 0 ++ leBytes 8 y.live ++ leBytes 8 y.tomb ++ leBytes 8 y.encoded.toNat ++ leBytes 8 y.clipped.toNat ++ leBytes 4 y.winClipped))
def execCollStats (m : Fin 4) (s : State) : Host.Outcome State Fault Refusal := .next (mailbox m.val 0x0204 anyForm doCollStats .timeout s)

def doCtxStats : Handler := fun _ q _ s =>
  match ctx? s (qf q 0 2) with
  | none => (s, mFail .invalidField)
  | some x =>
    if !shaped q 2 [] then (s, mFail .invalidField)
    else
      let k := x.counters
      (s, mOk (leBytes 8 k.anvilCyc.toNat ++ leBytes 8 k.nearB.toNat ++ leBytes 8 k.farB.toNat ++ leBytes 8 k.select.toNat ++ leBytes 8 k.cmds.toNat ++
        leBytes 8 k.nanDrop.toNat ++ leBytes 4 ((slowDown x.measured).getD 0) ++ leBytes 4 x.measured.length))
def execCtxStats (m : Fin 4) (s : State) : Host.Outcome State Fault Refusal := .next (mailbox m.val 0x0420 anyForm doCtxStats .timeout s)

end Sys2Proof.Machine
end

