-- ==== Sys2Proof/Machine/PowerRows.lean ====
section
/-! DEFINITION. Entries to and exits from the power states of a partition (R391–R394), loss of PLL lock (R389). -/

namespace Sys2Proof.Machine

/-- A test runs in the partition (R392, R423). -/
def tested (s : State) (p : Nat) : Bool := s.hearth.underTest.any fun u => u.1 == p

/-- WARM_US expires on an idle partition in FORGE (R391); a timer of 0 never does. -/
def mayWarm (s : State) (p : Nat) : Bool :=
  let x := ptn s p
  x.power == .forge && x.service == .inService && steady x && ptnIdle s p && !tested s p
def execWarmIdleTimeout (p : Fin 12) (s : State) : Host.Outcome State Fault Refusal :=
  onlyIf (mayWarm s p.val && (ptn s p.val).warmUs != 0) (enterWarm p.val) s

/-- Entry to BANKED starts: the round stops, state is saved, the channels are fenced (R393 steps 1–3). -/
def startBanking (p : Nat) (s : State) : State :=
  askFence p .banked allChannels (updPtn p (fun x => { x with banking := some 1, round := { x.round with running := false } }) s)
def mayBank (s : State) (p : Nat) : Bool :=
  let x := ptn s p
  (x.power == .forge || x.power == .warm) && x.service == .inService && steady x && ptnIdle s p && !tested s p
def execBankedIdleTimeout (p : Fin 12) (s : State) : Host.Outcome State Fault Refusal :=
  onlyIf (mayBank s p.val && (ptn s p.val).bankedMs != 0) (startBanking p.val) s

/-- Steps 4 and 5: self-refresh, power removed, the PLL stopped (R393); cached lines and the hot table go (R212). -/
def bank (p : Nat) (s : State) : State :=
  let s := (ptn s p).wcb.foldl (fun s e => flushLine p e.line [] s) s
  ptnChange p (updPtn p (fun x => { x with
    power := .banked, banking := none, saved := true, cached := [], hot := [], round := { x.round with running := false } }) s)
def execBankedEntryDone (p : Fin 12) (s : State) : Host.Outcome State Fault Refusal :=
  onlyIf ((ptn s p.val).banking == some 4) (bank p.val) s

def execExitDemand (p : Fin 12) (s : State) : Host.Outcome State Fault Refusal := .next (demand p.val s)

/-- A JOB_CREATE that waits for the partition (R227). -/
def creating (s : State) (p : Nat) : Bool :=
  (openTickets s).any fun k => match k.2.work with | .jobCreate _ left _ => left.contains p | _ => false

/-- Anvils that fail the self-check leave the usable set (R6, R394). -/
def checkAnvils (was : Power) (failed : List Nat) (x : Ptn) : Ptn :=
  if was = .warm then x
  else
    let bad := failed.filter fun a => a < 864
    let known := if was = .cold then [] else (x.anvils.filter fun a => !a.2.usable).map (·.1)
    let all := bad ++ known.filter fun a => !bad.contains a
    { x with usable := 864 - all.length
             anvils := bad.foldl (fun t a => tset t a { tgetD t a {} with usable := false }) x.anvils }

/-- The directory copies of a partition that missed an epoch close or an advance of the horizon receive the newest LATEST and HORIZON (R81, R174, R394). -/
def refreshCopies (p : Nat) (s : State) : State :=
  { s with colls := tmap (fun _ (y : Coll) => if y.state = .free then y else
    { y with ptns := y.ptns.map fun q => if q.1 = p then (q.1, { q.2 with latest := y.latest, horizon := y.horizon }) else q }) s.colls }

/-- Exit to FORGE completes (R394): LATEST updated, the round at slot 0, what waited is served (R267). -/
def leaveTo (p : Nat) (was : Power) (failed : List Nat) (s : State) : State :=
  let s := updPtn p (fun x => checkAnvils was failed { x with
    power := .forge, exiting := none, saved := false, cached := if was = .warm then x.cached else [], hot := if was = .warm then x.hot else []
    fence := if x.fence.any (·.thermal) then none else x.fence
    service := if x.fence.any (·.thermal) && x.service == .fenced then .inService else x.service
    cycles := if was = .cold then 0 else x.cycles, round := restartRound x.round, zeroising := creating s p }) s
  serveWaits p (ptnChange p (refreshCopies p s))
def execExitDone (p : Fin 12) (failed : List Nat) (s : State) : Host.Outcome State Fault Refusal :=
  .next (match (ptn s p.val).exiting with
    | some was => if (ptn s p.val).power = was ∧ (ptn s p.val).banking.isNone then leaveTo p.val was failed s else s
    | none => s)

/-- A PLL loses lock out of COLD: class 0x8, unit 0x55, and L2 (R389). -/
def execPllLockLoss (p : Fin 12) (s : State) : Host.Outcome State Fault Refusal :=
  onlyIf ((ptn s p.val).power != .cold) (fun s =>
    let code := faultCode 8 0x55 p.val (8 * 2 ^ 12)
    startL2 p.val code false false (postFault code s)) s

end Sys2Proof.Machine
end

