-- ==== Sys2Proof/Machine/MbxJobs.lean ====
section
/-! DEFINITION. Mailbox commands over partitions, jobs, contexts, rings, windows and journals (R227–R229, R266, R269, R270, R273, R274, R315). -/

namespace Sys2Proof.Machine

/-- Whether every item of a list passes, the failing answer otherwise. -/
def guardM (ok : Bool) (st : MStatus) (s : State) (k : State × Res) : State × Res := if ok then k else (s, mFail st)

/-! ### Partitions -/

/-- A partition taken out of service by software (R315, R363, R366). -/
def takeOut (p : Nat) (s : State) : State :=
  let s := endTestsOn p s
  let s := updAon (fun a => { a with ptnOos := if a.ptnOos.contains p then a.ptnOos else p :: a.ptnOos
                                     ptnOosSoft := if a.ptnOos.contains p then a.ptnOosSoft else p :: a.ptnOosSoft }) s
  goCold p (updPtn p (fun x => { x with service := .oos }) s)
/-- Return to service: COLD, SERVICE 0, its reset window closed (R315). -/
def putBack (p : Nat) (s : State) : State :=
  let s := updAon (fun a => { a with
    ptnOos := a.ptnOos.filter (· ≠ p), ptnOosSoft := a.ptnOosSoft.filter (· ≠ p), ptnWin := tdel a.ptnWin p }) s
  if (ptn s p).service = .oos then ptnChange p (updPtn p (fun x => { x with service := .inService }) s) else s

def doPtnEnable : Handler := fun _ q _ s =>
  let ps := maskPtns q 0
  guardM (shaped q 3 [] && qf q 0 2 < 4096 && qf q 2 1 ≤ 1 && ps.all fun p => (ptn s p).job.isNone && !creating s p) .invalidField s
    (if qf q 2 1 = 1 then ps.foldl (fun s p => takeOut p s) s else ps.foldl (fun s p => putBack p s) s, mOk [])
def execPtnEnable (m : Fin 4) (s : State) : Host.Outcome State Fault Refusal := .next (mailbox m.val 0x0101 anyForm doPtnEnable .timeout s)

/-- The idle timers of a partition, and entry to WARM or BANKED where it is idle (R315). -/
def setPower (warm banked enter p : Nat) (s : State) : State :=
  let s := updPtn p (fun x => { x with warmUs := BitVec.ofNat 32 warm, bankedMs := BitVec.ofNat 32 banked }) s
  if enter = 1 ∧ mayWarm s p then enterWarm p s else if enter = 2 ∧ mayBank s p then startBanking p s else s

def doPtnPower : Handler := fun _ q _ s =>
  guardM (shaped q 13 [(2, 2)] && qf q 0 2 < 4096 && qf q 12 1 ≤ 2) .invalidField s
    ((maskPtns q 0).foldl (fun s p => setPower (qf q 4 4) (qf q 8 4) (qf q 12 1) p s) s, mOk [])
def execPtnPower (m : Fin 4) (s : State) : Host.Outcome State Fault Refusal := .next (mailbox m.val 0x0102 anyForm doPtnPower .timeout s)

/-! ### Jobs -/

/-- A job number taken, by a job or a JOB_CREATE under way. -/
def jobTaken (s : State) (j : Nat) : Bool :=
  (job? s j).isSome || (openTickets s).any fun k => match k.2.work with | .jobCreate i _ _ => i == j | _ => false

/-- The refusals of R227. -/
def jobBad (s : State) (q : Req) : Bool :=
  let j := qf q 0 1
  let ps := maskPtns q 2
  let ms := qf q 4 1
  let root := qf q 5 1
  let mask := qf q 8 8
  !shaped q 16 [(1, 1), (6, 2)] || j > 11 || qf q 2 2 ≥ 4096 || ps.isEmpty || ms == 0 || ms > 64 || root > 63 || jobTaken s j ||
  (ps.any fun p => (ptn s p).job.isSome || creating s p || (ptn s p).service == .oos) ||
  (if ms = 1 then root != s.aon.modid || mask != 2 ^ s.aon.modid
   else (bitsOf 64 mask).length != ms || !bit mask s.aon.modid || !bit mask root)

/-- A partition taken up for a job: brought to FORGE, and zeroised there (R227, R387, R392). -/
def claimPtn (p : Nat) (s : State) : State :=
  if (ptn s p).power = .cold then startExit p s
  else
    let s := demand p s
    if (ptn s p).power = .forge ∧ (ptn s p).banking.isNone then updPtn p (fun x => { x with zeroising := true }) s else s

/-- JOB_CREATE: checked, its partitions brought to FORGE; it goes on under a ticket (R227, R310). -/
def doJobCreate : Handler := fun _ q _ s =>
  let ps := maskPtns q 2
  guardM (!jobBad s q) .invalidField s
    (if anyFenced s ps then (s, mFail .fenced)
     else (ps.foldl (fun s p => claimPtn p s) s,
       .busy (.jobCreate (qf q 0 1) ps false)))
def execJobCreate (m : Fin 4) (s : State) : Host.Outcome State Fault Refusal := .next (mailbox m.val 0x0110 anyForm doJobCreate .timeout s)

/-- Contexts of a job. -/
def jobCtxs (s : State) (j : Nat) : List Nat := (s.ctxs.filter fun c => c.2.job == j).map (·.1)

/-- The rates of R201; the thermal throttle bounds the receive side from the start (R10, R202), and tokens held stay as they are. -/
def resetRates (ps : List Nat) (p : Nat) (s : State) : State :=
  let rcv := fun q => ((ptn s q).reg.rcvMin + (ptn s q).reg.rcvMax) / 2
  let mean := (ps.foldl (fun n q => n + rcv q) 0) / max 1 ps.length
  let eff := min (rcv p) (stepRate (ptn s p).temp.step / 2)
  updReg p (fun r => { r with
    rcv := rcv p, rcvEff := eff, iss := max r.issMin (min r.issMax mean), seen := []
    rcvWaited := 0, issWaited := 0, blocked := 0, conflict := decide (eff < r.rcvMin) }) s

/-- The default round of R233, its rounds counted from 0, running from slot 0. -/
def defaultRound : Round := restartRound { next := some [{ ctx := 0xFFFF, cls := 1, dur := 1048576 }], nextBfres := 4 }

/-- A partition of a new job (R105, R201, R227, R233, R382). -/
def takePtn (j : Nat) (ps : List Nat) (p : Nat) (s : State) : State :=
  let s := updPtn p (fun x => { x with
    job := some j, round := defaultRound, vtime := [], regions := [], log := [], tombs := [], placed := [], pmem := []
    pins := [{ start := 0x40200000, len := 0x100000, why := .tombLog }] }) s
  resetRates ps p s

/-- JOB_CREATE completes (R227, R228, R382): a one-module job is joined at once, another after its probes (R339). -/
def makeJob (q : Req) (s : State) : State :=
  let j := qf q 0 1
  let ps := maskPtns q 2
  let x : Job := { ptns := ps, modules := qf q 4 1, root := qf q 5 1, mask := BitVec.ofNat 64 (qf q 8 8),
                   kill := ps.length > 4 || qf q 4 1 > 1, joined := qf q 4 1 == 1 }
  let s := ps.foldl (fun s p => takePtn j ps p s) { s with jobs := tset s.jobs j x }
  if isRoot s j then sendProbes j s else s

/-- A fence or reset under way in a partition of a job; a hold at thermal step 4 is none (R227). -/
def fenceRunning (s : State) (j : Nat) : Bool :=
  (jobPtns s j).any fun p => match (ptn s p).fence with | some f => !(f.thermal && f.step == 6) | none => false

/-- Nothing of the job's contexts is left to complete and no fence runs (R227). -/
def jobQuiet (s : State) (j : Nat) : Bool :=
  !fenceRunning s j && (cmdsOf (fun x => liveCmd x && x.job == j) s).isEmpty

/-- A region given back waits for the commands admitted so far (R115). -/
def leaveRegion (r : Nat) (live : List Nat) (x : Ptn) : Ptn :=
  match tget x.regions r with
  | some g => { x with regions := tset x.regions r { g with inUse := false, after := live } }
  | none => x

/-- The regions of bulk apertures given back (R266). -/
def leaveApertures (ks : List Aperture) (s : State) : State :=
  let live := cmdsOf (fun x => liveCmd x && x.admitted) s
  ks.foldl (fun s k => updPtn k.ptn (leaveRegion k.region live) s) s

/-- A context and everything bound to it goes: what the head commands of its rings hold, its rings, and its bulk apertures with their regions
(R227, R229, R266, R294). -/
def removeCtx (c : Nat) (s : State) : State :=
  let s := ((s.host.rings.filter fun r => r.2.ctx == c).map (·.1)).foldl (fun s r => releaseHeld r s) s
  let s := leaveApertures ((s.host.apertures.filter fun a => a.2.ctx == c).map (·.2)) s
  let s := { s with ctxs := tdel s.ctxs c, cmds := s.cmds.filter fun k => k.2.ctx ≠ c }
  let s := updHost (fun h => { h with
    rings := h.rings.filter fun r => r.2.ctx ≠ c, apertures := h.apertures.filter fun a => a.2.ctx ≠ c }) s
  { s with ptns := tmap (fun _ (x : Ptn) => { x with
      resident := tdel x.resident c, vtime := tdel x.vtime c, holders := tdel x.holders c
      waiting := x.waiting.filter (· ≠ c), waitedLong := x.waitedLong.filter (· ≠ c), idleList := x.idleList.filter (· ≠ c)
      blockedList := x.blockedList.filter (· ≠ c), warmLists := tdel x.warmLists c
      saves := x.saves.filter fun v => v.2.ctx ≠ c, placed := x.placed.filter fun t => t.1 ≠ c }) s.ptns }

/-- JOB_END completes (R227): contexts, rings, collections and windows gone, partitions COLD. -/
def endJob (j : Nat) (s : State) : State :=
  let ps := jobPtns s j
  let s := (jobCtxs s j).foldl (fun s c => removeCtx c s) s
  let s := updHost (fun h => { h with granules := h.granules.filter fun g => !ps.contains g.ptn }) s
  let s := { s with colls := s.colls.filter fun c => c.2.job ≠ j, jobs := tdel s.jobs j
                    cmds := s.cmds.filter fun k => k.2.job ≠ j }
  ps.foldl (fun s p => goCold p (updPtn p (fun x => { x with job := none, regions := [], log := [], tombs := [] }) s)) s

def doJobEnd : Handler := fun _ q _ s =>
  let j := qf q 0 1
  guardM (shaped q 1 [] && (job? s j).isSome) .invalidField s
    (let s := updJob j (fun x => { x with ending := true }) ((jobCtxs s j).foldl (fun s c => killContext c 0 none s) s)
     if jobQuiet s j then (endJob j s, mOk []) else (s, .busy (.jobEnd j)))
def execJobEnd (m : Fin 4) (s : State) : Host.Outcome State Fault Refusal := .next (mailbox m.val 0x0111 anyForm doJobEnd .timeout s)

/-! ### Contexts -/

/-- The partition of a job that is home to the fewest contexts, the lowest on a tie (R229). -/
def leastHome (s : State) (j : Nat) : Nat :=
  (minBy (fun p => (s.ctxs.filter fun c => c.2.home == p).length) (jobPtns s j)).getD 0

def doCtxCreate : Handler := fun _ q _ s =>
  let c := qf q 0 2
  let j := qf q 2 1
  let h := qf q 3 1
  guardM (shaped q 4 [] && c ≤ 4095 && (ctx? s c).isNone && s.ctxs.length < 256 && (job? s j).any (fun x => !x.ending) &&
      (h == 0xFF || (jobPtns s j).contains h)) .invalidField s
    (let home := if h = 0xFF then leastHome s j else h
     ({ s with ctxs := tset s.ctxs c { job := j, home := home } }, mOk [BitVec.ofNat 8 home]))
def execCtxCreate (m : Fin 4) (s : State) : Host.Outcome State Fault Refusal := .next (mailbox m.val 0x0112 anyForm doCtxCreate .timeout s)

/-- Freed regions of a memory window, and the locks in it (R215, R384). -/
def freeWindow (w : MWin) (s : State) : State :=
  let live := cmdsOf (fun x => liveCmd x && x.admitted) s
  updPtn w.ptn (fun x => unlockLines (fun l _ => inRange (regionBase w.ptn w.region % 2 ^ 36) (w.regions * 2 ^ 24) l)
    { x with regions := (upto w.regions).foldl (fun t i => match tget t (w.region + i) with
        | some r => tset t (w.region + i) { r with inUse := false, after := live }
        | none => t) x.regions }) s

def doCtxDestroy : Handler := fun _ q _ s =>
  let c := qf q 0 2
  match ctx? s c with
  | none => (s, mFail .invalidField)
  | some x =>
    guardM (shaped q 2 [] && (ctxCmds s c).isEmpty && (s.host.rings.all fun r => r.2.ctx != c)) .invalidField s
      (removeCtx c (x.mwins.foldl (fun s w => freeWindow w.2 s) s), mOk [])
def execCtxDestroy (m : Fin 4) (s : State) : Host.Outcome State Fault Refusal := .next (mailbox m.val 0x0113 anyForm doCtxDestroy .timeout s)

/-! ### Rings -/

def isPow2 (n : Nat) : Bool := n > 0 && 2 ^ Nat.log2 n == n

/-- The refusals of R270; over MBX3 a host address other than 0 is refused (R312). -/
def ringBad (s : State) (m : Nat) (q : Req) : Bool :=
  let c := qf q 2 2
  let sz := qf q 4 4
  let sub := qf q 8 8
  let cpl := qf q 16 8
  !shaped q 30 [(27, 1)] || qf q 0 2 > 1023 || ringExists s (qf q 0 2) || (ctx? s c).isNone || !isPow2 sz || sz < 16 || sz > 65536 ||
  sub % 64 != 0 || cpl % 64 != 0 || qf q 24 2 < 4 || qf q 24 2 > 2047 || qf q 28 2 > 1000 ||
  !inWindow s c sub (64 * sz) true false || !inWindow s c cpl (32 * sz) false true || (m == 3 && (sub != 0 || cpl != 0))

def doRingCreate : Handler := fun m q _ s =>
  guardM (!ringBad s m q) .invalidField s
    (setRing (qf q 0 2) { ctx := qf q 2 2, size := qf q 4 4, sqBase := BitVec.ofNat 64 (qf q 8 8), cqBase := BitVec.ofNat 64 (qf q 16 8),
                          vector := qf q 24 2, ccount := qf q 26 1, ctime := qf q 28 2, st := .running } s, mOk [])
def execRingCreate (m : Fin 4) (s : State) : Host.Outcome State Fault Refusal := .next (mailbox m.val 0x0114 anyForm doRingCreate .timeout s)

def removeRing (r : Nat) (s : State) : State := updHost (fun h => { h with rings := tdel h.rings r }) s

def doRingDestroy : Handler := fun _ q _ s =>
  let r := qf q 0 2
  guardM (shaped q 2 [] && ringExists s r && (ring s r).st != .draining) .invalidField s
    (let s := updRing r (fun x => { x with st := .draining, fetched := [] }) (releaseHeld r s)
     if (ringLive s r).isEmpty then (removeRing r s, mOk []) else (s, .busy (.ringDestroy r)))
def execRingDestroy (m : Fin 4) (s : State) : Host.Outcome State Fault Refusal := .next (mailbox m.val 0x0115 anyForm doRingDestroy .timeout s)

/-- RING_STATE (R274). -/
def doRingState : Handler := fun _ q _ s =>
  let r := qf q 0 2
  let x := ring s r
  guardM (shaped q 3 [] && ringExists s r && x.st != .draining && qf q 2 1 ≤ 1) .invalidField s
    (if qf q 2 1 = 1 then (updRing r (fun x => { x with st := .running }) s, mOk [])
     else if x.st = .disabled then (s, mOk [])
     else if (ringLive s r).isEmpty then (updRing r (fun x => { x with st := .disabled }) s, mOk [])
     else (updRing r (fun x => { x with stopping := true }) s, .busy (.ringDisable r)))
def execRingState (m : Fin 4) (s : State) : Host.Outcome State Fault Refusal := .next (mailbox m.val 0x0119 anyForm doRingState .timeout s)

/-! ### Host windows and HDM maps -/

/-- Bound rings and the journal of a context still lie in its windows (R269). -/
def windowsCover (s : State) (c : Nat) : Bool :=
  (s.host.rings.all fun r => r.2.ctx != c ||
    (inWindow s c r.2.sqBase.toNat (64 * r.2.size) true false && inWindow s c r.2.cqBase.toNat (32 * r.2.size) false true)) &&
  (match journal? s c with | some j => inWindow s c j.base.toNat j.size true true | none => true)

def doHwinSet : Handler := fun m q _ s =>
  let c := qf q 0 2
  let w := qf q 2 1
  let rt := qf q 3 1
  let base := qf q 8 8
  let len := qf q 16 8
  let win : HWin := { base := base, len := len, r := bit rt 0, w := bit rt 1 }
  let s' := updCtx c (fun x => { x with hwins := (if rt = 0 then tdel x.hwins w else tset x.hwins w win) }) s
  guardM (shaped q 24 [(4, 4)] && (ctx? s c).isSome && w ≤ 7 && rt ≤ 3 && base % 4096 == 0 && len % 4096 == 0 && windowsCover s' c && (m != 3 || base == 0)) .invalidField s
    (s', mOk [])
def execHwinSet (m : Fin 4) (s : State) : Host.Outcome State Fault Refusal := .next (mailbox m.val 0x0116 anyForm doHwinSet .timeout s)

/-- The n lowest free regions of a partition for its job, among those of R115. -/
def lowestFree (s : State) (p n : Nat) : List Nat := ((upto 3555).filter fun r => regionFree s p ((ptn s p).job.getD 0) r).take n

def doHdmMap : Handler := fun _ q _ s =>
  let c := qf q 0 2
  let p := qf q 3 1
  let first := qf q 4 2
  let n := qf q 6 2
  let aps := (upto n).map (first + ·)
  let ok := shaped q 8 [] && qf q 2 1 ≤ 1 && first ≥ 96 && n ≥ 1 && decide (first + n ≤ 4096) && (ctxPtns s c).contains p
  if !ok then (s, mFail .invalidField)
  else if qf q 2 1 = 0 then
    let rs := lowestFree s p n
    if aps.any fun a => (tget s.host.apertures a).isSome then (s, mFail .invalidField)
    else if rs.length < n then (s, mFail .noResource)
    else
      let s := updHost (fun h => { h with apertures := (aps.zip rs).foldl (fun t a => tset t a.1 { ctx := c, ptn := p, region := a.2 }) h.apertures }) s
      (updPtn p (fun x => { x with regions := rs.foldl (fun t r => tset t r { job := (ptn s p).job.getD 0 }) x.regions }) s, mOk (leBytes 8 (first * 2 ^ 24)))
  else if aps.any fun a => !((tget s.host.apertures a).any fun k => k.ctx == c) then (s, mFail .invalidField)
  else
    let rs := aps.filterMap fun a => tget s.host.apertures a
    (leaveApertures rs (updHost (fun h => { h with apertures := aps.foldl tdel h.apertures }) s), mOk (leBytes 8 (first * 2 ^ 24)))
def execHdmMap (m : Fin 4) (s : State) : Host.Outcome State Fault Refusal := .next (mailbox m.val 0x0117 anyForm doHdmMap .timeout s)

/-! ### Memory windows and journals -/

/-- The lowest run of n free regions of a partition. -/
def regionRun (s : State) (p n : Nat) : Option Nat :=
  (upto (3556 - n)).find? fun r => (upto n).all fun i => regionFree s p ((ptn s p).job.getD 0) (r + i)

/-- MWIN_SET (R75, R315); a window already held is freed first (log 25). -/
def doMwinSet : Handler := fun _ q _ s =>
  let c := qf q 0 2
  let w := qf q 2 1
  let rt := qf q 3 1
  let p := qf q 4 1
  let n := qf q 6 2
  match ctx? s c with
  | none => (s, mFail .invalidField)
  | some x =>
    let freed := match tget x.mwins w with
      | some o => freeWindow o (updCtx c (fun x => { x with mwins := tdel x.mwins w }) s)
      | none => s
    if !shaped q 8 [(5, 1)] || w > 15 || rt > 7 then (s, mFail .invalidField)
    else if rt = 0 then (freed, mOk (leBytes 8 0))
    else if !(jobPtns s x.job).contains p || n == 0 || n > 256 then (s, mFail .invalidField)
    else match regionRun s p n with
      | none => (s, mFail .noResource)
      | some r =>
        let s := updPtn p (fun y => { y with regions := (upto n).foldl (fun t i => tset t (r + i) { job := x.job }) y.regions }) freed
        let win : MWin := { ptn := p, region := r, regions := n, r := bit rt 0, w := bit rt 1, a := bit rt 2 }
        (updCtx c (fun x => { x with mwins := tset x.mwins w win }) s, mOk (leBytes 8 (regionBase p r)))
def execMwinSet (m : Fin 4) (s : State) : Host.Outcome State Fault Refusal := .next (mailbox m.val 0x0118 anyForm doMwinSet .timeout s)

/-- A FORCE command of a context is admitted and not completed, or a record of it is still being written (R315). -/
def journalBusy (s : State) (c : Nat) : Bool :=
  ((ctxCmds s c).any fun k => (cmd? s k).any fun x => eForce x.entry) ||
  (match journal? s c with | some j => j.recs.any (fun r => r.st == .writing) || j.rereading | none => false)

/-- JOURNAL_SET (R180, R312, R315); a registration writes the control line over CXL.cache, which must be usable (R264; log 77). -/
def doJournalSet : Handler := fun m q _ s =>
  let c := qf q 0 2
  let base := qf q 8 8
  let sz := qf q 16 4
  guardM (shaped q 20 [(2, 6)] && (ctx? s c).isSome && !journalBusy s c && (m != 3 || base == 0) &&
      (sz == 0 || (cacheUsable s && base % 4096 == 0 && sz % 4096 == 0 && sz ≥ 65536 && inWindow s c base sz true true))) .invalidField s
    (if sz = 0 then (updCtx c (fun x => { x with journal := none }) s, mOk [])
     else
      let j : Journal := { base := BitVec.ofNat 64 base, size := sz, unread := true }
      (journalWrite j 8 (leBytes 8 64) (updCtx c (fun x => { x with journal := some j }) s), mOk []))
def execJournalSet (m : Fin 4) (s : State) : Host.Outcome State Fault Refusal := .next (mailbox m.val 0x0120 anyForm doJournalSet .timeout s)

end Sys2Proof.Machine
end

