-- ==== Sys2Proof/Machine/MbxColls.lean ====
section
/-! DEFINITION. Mailbox commands over collections, filters, patterns, rounds, shares, regulators, pins and routes
(R29, R53, R54, R82, R111, R120, R122, R200, R211, R232, R233, R238, R315–R317, R335–R337). -/

namespace Sys2Proof.Machine

/-! ### Pins of the top strata (R104, R105) -/

/-- Bytes of the top level's centroid frames (R102). -/
def topBytes (x : Coll) : Nat := ceilDiv ((x.strata.headD []).length) 64 * (1600 + 64 * coordN x)

/-- The most centroids of a top level: whole frames in 4 MB (R102, R104). -/
def topCap (x : Coll) : Nat := 2 ^ 22 / (1600 + 64 * coordN x) * 64

/-- The most leaves under a top level of that size, at most 1,024 children to a centroid (R103, R104). -/
def leafCap (x : Coll) (levels : Nat) : Nat := min (2 ^ 24) (topCap x * 1024 ^ (levels - 1))

/-- The top stratum pinned where R211 allows (R105). -/
def pinTop (c p : Nat) (s : State) : State :=
  let x := coll s c
  if x.strata.isEmpty || (collPtn x p).topPin then s
  else match dirRegion s c p (.strata 0) with
    | none => s
    | some r => match addPin { start := regionBase p r % 2 ^ 36, len := topBytes x, why := .stratum c } (ptn s p) with
      | none => s
      | some y => updCollPtn c p (fun k => { k with topPin := true }) (updPtn p (fun _ => y) s)

/-- Unpinned top strata of a job tried again, in the order of the training commits (R105). -/
def retryPins (j : Nat) (s : State) : State :=
  let cs := sortBy (fun a b => decide (a.2.trainOrder < b.2.trainOrder)) (s.colls.filter fun c => c.2.job == j && !c.2.strata.isEmpty)
  cs.foldl (fun s c => (jobPtns s j).foldl (fun s p => pinTop c.1 p s) s) s

/-! ### Collections -/

/-- A scale record of R28 that holds no zero multiplier and no stray nibble. -/
def scalesBad (x : Coll) (bs : List Byte) : Bool :=
  let ng := groupCount x
  bs.length != scaleSize x || ((bs.drop 1).take ng).contains 0 || (ng % 2 == 1 && decide (field bs (scaleSize x - 1) 1 ≥ 16))

/-- The collection of a COLL_CREATE request (R316). -/
def reqColl (q : Req) : Coll :=
  let tau := qf q 8 1
  let ret := qf q 10 2
  let x : Coll :=
    { job := qf q 2 1, state := .untrained, d := qf q 4 2, metric := qf q 3 1, opts := BitVec.ofNat 8 (qf q 7 1), gsize := qf q 6 1
      tau := if tau = 0 then 16 else tau, retain := if ret = 0 then 100 else ret, seed := BitVec.ofNat 64 (qf q 12 8)
      schema := (upto 16).map fun i => BitVec.ofNat 32 (qf q (64 + 4 * i) 4) }
  if hasScales x then { x with scales := some (readScales (q.bytes.drop 128) (groupCount x)) } else x

def collCreateBad (s : State) (q : Req) : Bool :=
  let x := reqColl q
  let tau := qf q 8 1
  let ret := qf q 10 2
  x.d < 32 || x.d > 4096 || x.d % 32 != 0 || x.gsize > 2 || x.metric > 2 || x.opts.toNat > 63 || (hasScales x && !collScaled x) ||
  !shaped q (if hasScales x then 128 + scaleSize x else 128) [(9, 1), (20, 44)] ||
  qf q 0 2 > 4095 || (coll s (qf q 0 2)).state != .free || (job? s x.job).isNone || (job? s x.job).any (·.ending) ||
  (tau != 0 && (tau < 8 || tau > 24)) || (ret != 0 && (ret < 10 || ret > 1000)) || schemaBad x.schema ||
  (hasScales x && scalesBad x (q.bytes.drop 128))

/-- Four adjoining regions for the posting directory, which lies at one address (R140); none where there are not as many. -/
def takePostings (c p : Nat) (s : State) : Option State := takeRun c p 4 .postDir s

def doCollCreate : Handler := fun _ q _ s =>
  if collCreateBad s q then (s, mFail .invalidField)
  else
    let c := qf q 0 2
    let x := reqColl q
    let ps := jobPtns s x.job
    let s' := demandAll ps { s with colls := tset s.colls c { x with ptns := ps.map fun p => (p, {}) } }
    if hasSparse x then
      match ps.foldl (fun o p => o.bind (takePostings c p)) (some s') with
      | some t => (t, mOk (leBytes 4 1))
      | none => (s, mFail .noResource)
    else (s', mOk (leBytes 4 1))
def execCollCreate (m : Fin 4) (s : State) : Host.Outcome State Fault Refusal := .next (mailbox m.val 0x0201 anyForm doCollCreate .timeout s)

/-- The collection is freed: regions, tombstones, log entries, pins, records (R105, R315). -/
def freeColl (c : Nat) (s : State) : State :=
  let x := coll s c
  let s := (jobPtns s x.job).foldl (fun s p =>
    updPtn p (fun y =>
      let mine := fun b : Nat => (brick? x b).isSome
      { dropLog (fun e => e.coll == c) y with tombs := y.tombs.filter fun t => !mine t.1
                                              pins := y.pins.filter fun k => k.why ≠ .stratum c })
      (freeRegions (fun r => r.coll == some c) p s)) s
  let its := fun k : Chunk => k.cmd.isNone && (k.start ++ k.bricks).any fun d => d.coll == c
  let s := { s with ptns := tmap (fun _ (y : Ptn) => { y with
      anvils := tmap (fun _ (a : Anvil) => if a.chunk.any its then { usable := a.usable, ceCnt := a.ceCnt } else a) y.anvils
      saves := (tmap (fun _ (v : SaveSlot) => { v with anvils := v.anvils.filter fun a => !a.2.chunk.any its }) y.saves).filter
        fun v => v.2.zeroising || !v.2.anvils.isEmpty }) s.ptns }
  retryPins x.job { s with colls := tdel s.colls c }

def doCollDelete : Handler := fun _ q _ s =>
  let c := qf q 0 2
  guardM (shaped q 2 [] && (coll s c).state != .free) .invalidField s
    (if (coll s c).deleting then (s, .busy (.collDelete c))
     else
      let s := updColl c (fun x => { x with deleting := true }) s
      if (collCmds s c).isEmpty then (freeColl c s, mOk []) else (s, .busy (.collDelete c)))
def execCollDelete (m : Fin 4) (s : State) : Host.Outcome State Fault Refusal := .next (mailbox m.val 0x0202 anyForm doCollDelete .timeout s)

/-- The collection holds no vector: no slot of it is occupied; tombstoned and uncommitted ones count as held (R29; log 83). -/
def holdsNone (x : Coll) : Bool := x.bricks.all fun b => !anyOcc b.2

/-- The size of a COLL_SET request with a mask (R309, R317). -/
def collSetSize (x : Coll) (m : Nat) : Nat :=
  if bit m 3 then 16 + scaleSize x else if bit m 4 then 11 else if bit m 2 then 7 else if bit m 1 then 6 else if bit m 0 then 4 else 3

def collSetBad (x : Coll) (q : Req) : Bool :=
  let m := qf q 2 1
  let zero := fun (b : Nat) (o n : Nat) => if bit m b then [] else [(o, n)]
  x.state == .free || x.deleting || m > 31 ||
  !shaped q (collSetSize x m) ([(7, 1), (11, 5)] ++ zero 0 3 1 ++ zero 1 4 2 ++ zero 2 6 1 ++ zero 4 8 3) ||
  (bit m 0 && (qf q 3 1 < 8 || qf q 3 1 > 24)) || (bit m 1 && (qf q 4 2 < 10 || qf q 4 2 > 1000)) || (bit m 2 && qf q 6 1 > 1) ||
  (bit m 3 && (!collScaled x || !holdsNone x || scalesBad x (q.bytes.drop 16))) ||
  (bit m 4 && (qf q 8 1 == 0 || qf q 9 1 == 0 || qf q 9 1 > 8 || qf q 10 1 == 0 || qf q 10 1 > 8))

/-- The fields that the mask names (R31, R317). -/
def applyCollSet (q : Req) (x : Coll) : Coll :=
  let m := qf q 2 1
  let x := if bit m 0 then { x with tau := qf q 3 1, ptns := tmap (fun _ (y : CollPtn) => { y with winCodes := 0, winClipped := 0, closedWins := [] }) x.ptns } else x
  let x := if bit m 1 then { x with retain := qf q 4 2 } else x
  let x := if bit m 2 then { x with opts := BitVec.ofNat 8 (x.opts.toNat - x.opts.toNat / 8 % 2 * 8 + 8 * qf q 6 1) } else x
  let x := if bit m 3 then { x with scales := some (readScales (q.bytes.drop 16) (groupCount x)), opts := x.opts ||| 16 } else x
  if bit m 4 then { x with tampSed := qf q 8 1, tampSedFrac := qf q 9 1, tampTombFrac := qf q 10 1 } else x

def doCollSet : Handler := fun _ q _ s =>
  let c := qf q 0 2
  guardM (!collSetBad (coll s c) q) .invalidField s (updColl c (applyCollSet q) (demandAll (jobPtns s (coll s c).job) s), mOk [])
def execCollSet (m : Fin 4) (s : State) : Host.Outcome State Fault Refusal := .next (mailbox m.val 0x0203 anyForm doCollSet .timeout s)

/-! ### Training -/

/-- A percentile of a sorted list, as a fraction of 10,000: the rank is not stated, either neighbour may be taken (R29, log 7). -/
def percentile (k : Nat) (l : List F32) (part : Nat) : F32 :=
  let i := part * (l.length - 1) / 10000
  lget l (min (l.length - 1) (i + Config.freeNat k % 2)) 0

/-- Collection scales derived from a sample of transformed rows (R29). -/
def deriveScales (k : Nat) (x : Coll) (rows : List (List F32)) : Enc :=
  let g := groupSize x
  scalesOf ((upto (groupCount x)).map fun i =>
    let v := sortBy (fun a b => fGt b a) (rows.flatMap fun r => (r.drop (g * i)).take g)
    [fMin 0 (percentile (k + 2 * i) v 1), fMax 0 (percentile (k + 2 * i + 1) v 9999)])

/-- The refusals of COLL_TRAIN (R111, R312, R315), and more leaves than the levels can hold under a top level of 4 MB (R103, R104; log 65). -/
def trainBad (s : State) (m : Nat) (q : Req) : Bool :=
  let c := qf q 0 2
  let x := coll s c
  let src := qf q 4 1
  let rows := qf q 12 4
  !shaped q 24 [(7, 1)] || x.state == .free || x.state == .trained || x.state == .suspect || x.deleting || (ctx? s (qf q 2 2)).isNone ||
  ctxJob s (qf q 2 2) != x.job || src > 2 || qf q 5 1 == 0 || qf q 5 1 > 3 || qf q 6 1 > 1 || qf q 8 4 == 0 || qf q 8 4 > leafCap x (qf q 5 1) ||
  (src == 2 && qf q 8 4 != rows) || (src == 0 && collScaled x && !hasScales x) || (m == 3 && qf q 16 8 != 0) ||
  (src != 0 && (rows == 0 || !inWindow s (qf q 2 2) (qf q 16 8) (rows * x.d * elemSize (qf q 6 1 == 1)) true false))

/-- Rows of a sample, planished (R22, R111). -/
def sampleRows (x : Coll) (q : Req) (bs : List Byte) : List (List F32) :=
  (upto (qf q 12 4)).map fun i => readRow (qf q 6 1 == 1) x.d bs (i * x.d * elemSize (qf q 6 1 == 1))
def planishRow (x : Coll) (r : List F32) : List F32 := planish x.seed x.d (if x.metric = 2 then normalise r else r)

/-- Training starts (R111, R112). -/
def beginTrain (c levels leaves src : Nat) (rows : List (List F32)) (s : State) : State :=
  updColl c (fun x => { x with
    state := .training, trainLevels := levels, trainLeaves := leaves, trainSource := src, trainSample := rows, trainSteps := 0
    trainSeed := s.hearth.trainSeq }) s

/-- COLL_TRAIN starts a training; in collection scale mode without scales they are derived from the rows the command carries, supplied centroids
too (R29, R111; log 83). -/
def startTrain (c : Nat) (q : Req) (rows : List (List F32)) (s : State) : State :=
  let x := coll s c
  let y := rows.map (planishRow x)
  let s := beginTrain c (qf q 5 1) (qf q 8 4) (qf q 4 1) y (demandAll (jobPtns s x.job) s)
  if collScaled x && !hasScales x then
    spend (2 * groupCount x) (updColl c (fun x => { x with scales := some (deriveScales s.free x y), opts := x.opts ||| 16 }) s)
  else s

def doCollTrain : Handler := fun m q reply s =>
  let c := qf q 0 2
  let x := coll s c
  if trainBad s m q then (s, mFail .invalidField)
  else if x.state = .training ∨ x.state = .redistributing then (updColl c (fun x => { x with trainIgnored := x.trainIgnored + 1 }) s, .busy (.train c true))
  else if qf q 4 1 = 0 then (startTrain c q [] s, .busy (.train c false))
  else match reply with
    | .data bs =>
      let rows := sampleRows x q bs
      if rows.any (rowBad (x.metric == 2)) then (s, .busy (.ready .range [] 0))
      else (startTrain c q rows s, .busy (.train c false))
    | r => match readFailure r s with
      | (s, .done st b d) => (s, .busy (.ready st b d))
      | o => o
def execCollTrain (m : Fin 4) (reply : ReadReply) (s : State) : Host.Outcome State Fault Refusal := .next (mailbox m.val 0x0210 anyForm doCollTrain reply s)

/-! ### Filters -/

def doFilterLoad : Handler := fun _ q _ s =>
  let c := qf q 0 2
  let h := qf q 2 1
  let p := qf q 4 1
  let prog := (upto p).map fun i => BitVec.ofNat 32 (qf q (8 + 4 * i) 4)
  if (ctx? s c).isNone || h > 254 || qf q 3 1 > 1 then (s, mFail .invalidField)
  else if qf q 3 1 = 1 then guardM (q.len == 4) .invalidField s (updCtx c (fun x => { x with filters := tdel x.filters h }) s, mOk [])
  else if p == 0 || p > 64 || !zeroAt q.bytes 5 3 || q.len != 8 + 4 * p then (s, mFail .invalidField)
  else match filterCheck prog 1 0 with
    | some d => (s, .done .invalidField [] d)
    | none => (updCtx c (fun x => { x with filters := tset x.filters h prog }) s, mOk [])
def execFilterLoad (m : Fin 4) (s : State) : Host.Outcome State Fault Refusal := .next (mailbox m.val 0x0220 anyForm doFilterLoad .timeout s)

/-! ### Patterns (R53, R54, R382) -/

/-- A pattern placed in every partition where its context is resident; none where it does not fit (R54, R315). -/
def loadEverywhere (c : Nat) (s : State) : Option State :=
  (ctxPtns s c).foldl (fun o p => o.bind fun s =>
    if (tget (ptn s p).resident c).isSome then (placeAll s p c).map fun x => updPtn p (fun _ => x) s else some s) (some s)

/-- The measurement and the chain of the job (R54, R382). -/
def measureLoad (c id : Nat) (img : List Byte) (s : State) : State :=
  updJob (ctxJob s c) (fun j => { j with
    measCount := j.measCount + 1, chain := digest (leBytes 32 j.chain.toNat ++ leBytes 2 c ++ leBytes 2 id ++ shake256 img 32) }) s

def loadPattern (c : Nat) (img : List Byte) (s : State) : State × Res :=
  let id := field img 0 2
  let k : Pattern := { header := img.take 32, steps := imageSteps img, ver := s.hearth.patSeq + 1 }
  match patternCheck k.header k.steps with
  | some i => (s, .done .invalidField [] i)
  | none =>
    let t := updHearth (fun h => { h with patSeq := h.patSeq + 1 }) (retirePattern c id s)
    let t := updCtx c (fun x => { x with patterns := tset x.patterns id k }) t
    if ((liveVersions t c).foldl (fun n k => n + k.steps.length) 0) > 640 then (s, mFail .noResource)
    else match loadEverywhere c t with
      | none => (s, mFail .noResource)
      | some u => (measureLoad c id img u, mOk (shake256 img 32))

def doPatternLoad : Handler := fun m q reply s =>
  let c := qf q 0 2
  let len := qf q 16 4
  if !shaped q 20 [(2, 6)] || (ctx? s c).isNone || len < 48 || len > 32 + 16 * 640 || len % 16 != 0 || (m == 3 && qf q 8 8 != 0) ||
     !inWindow s c (qf q 8 8) len true false then (s, mFail .invalidField)
  else match reply with
    | .data bs => loadPattern c (padBytes len bs) s
    | r => readFailure r s
def execPatternLoad (m : Fin 4) (reply : ReadReply) (s : State) : Host.Outcome State Fault Refusal :=
  .next (mailbox m.val 0x0301 anyForm doPatternLoad reply s)

def doPatternUnload : Handler := fun _ q _ s =>
  let c := qf q 0 2
  let id := qf q 2 2
  guardM (shaped q 4 [] && (ctx? s c).any fun x => (tget x.patterns id).isSome) .invalidField s (retirePattern c id s, mOk [])
def execPatternUnload (m : Fin 4) (s : State) : Host.Outcome State Fault Refusal := .next (mailbox m.val 0x0302 anyForm doPatternUnload .timeout s)

/-! ### Rounds, shares, regulators -/

def reqSlot (q : Req) (i : Nat) : RSlot := { ctx := qf q (16 + 8 * i) 2, cls := qf q (18 + 8 * i) 1, dur := qf q (20 + 8 * i) 4 }

/-- Distinct elements. -/
def distinct (l : List Nat) : List Nat := l.foldl (fun a x => if a.contains x then a else a ++ [x]) []

/-- The refusals of R233. -/
def roundBad (s : State) (q : Req) : Bool :=
  let p := qf q 0 1
  let n := qf q 2 2
  let slots := (upto n).map (reqSlot q)
  let inJob := fun c : Nat => c < 4096 && (ctx? s c).any fun x => some x.job == (ptn s p).job
  p > 11 || qf q 1 1 > 36 || n == 0 || n > 256 || q.len != 16 + 8 * n || !zeroAt q.bytes 8 8 ||
  ((upto n).any fun i => qf q (19 + 8 * i) 1 != 0) || qf q 4 4 > 18000000 || qf q 4 4 != slots.foldl (fun t k => t + k.dur) 0 ||
  (slots.any fun k => k.cls > 2 || k.dur < 1024 || k.dur > 1048576 || (k.cls == 0 && !inJob k.ctx) || (k.cls == 1 && k.ctx != 0xFFFF) ||
    (k.cls == 2 && k.ctx != 0xFFFF && !inJob k.ctx)) ||
  (distinct ((slots.filter (·.cls == 0)).map (·.ctx))).length > 7

def doRoundLoad : Handler := fun _ q _ s =>
  let p := qf q 0 1
  guardM (!roundBad s q) .invalidField s
    (updPtn p (fun x => { x with round := { x.round with next := some ((upto (qf q 2 2)).map (reqSlot q)), nextBfres := qf q 1 1 }, vtime := [] }) s, mOk [])
def execRoundLoad (m : Fin 4) (s : State) : Host.Outcome State Fault Refusal := .next (mailbox m.val 0x0401 anyForm doRoundLoad .timeout s)

def doSharesSet : Handler := fun _ q _ s =>
  let c := qf q 0 2
  let ps := maskPtns q 2
  let w := qf q 4 2
  guardM (shaped q 6 [] && (ctx? s c).isSome && qf q 2 2 < 4096 && (ps.all fun p => (ctxPtns s c).contains p) && w ≥ 1 && w ≤ 1000) .invalidField s
    (updCtx c (fun x => { x with shares := ps.foldl (fun t p => tset t p w) x.shares }) s, mOk [])
def execSharesSet (m : Fin 4) (s : State) : Host.Outcome State Fault Refusal := .next (mailbox m.val 0x0410 anyForm doSharesSet .timeout s)

def doRegSet : Handler := fun _ q _ s =>
  let p := qf q 0 1
  let imin := qf q 2 2
  let imax := qf q 4 2
  let rmin := qf q 6 2
  let rmax := qf q 8 2
  guardM (shaped q 10 [(1, 1)] && p ≤ 11 && imin ≤ imax && imax ≤ 51200 && rmin ≤ rmax && rmax ≤ 51200) .invalidField s
    (let s := updReg p (fun r => { r with issMin := imin, issMax := imax, rcvMin := rmin, rcvMax := rmax }) s
     (resetRates (match (ptn s p).job with | some j => jobPtns s j | none => [p]) p s, mOk []))
def execRegSet (m : Fin 4) (s : State) : Host.Outcome State Fault Refusal := .next (mailbox m.val 0x0411 anyForm doRegSet .timeout s)

/-! ### Pins (R211) -/

/-- A device range lies in one memory window of some context of the job. -/
def inJobWindow (s : State) (j addr len : Nat) : Bool :=
  s.ctxs.any fun c => c.2.job == j && c.2.mwins.any fun w =>
    let b := regionBase w.2.ptn w.2.region
    decide (b ≤ addr) && decide (addr + len ≤ b + w.2.regions * 2 ^ 24)

def doCrucPin : Handler := fun _ q _ s =>
  let c := qf q 0 2
  let act := qf q 2 1
  let addr := qf q 8 8
  let len := qf q 16 4
  let p := homePtn addr
  let off := stackOff addr
  let j := ctxJob s c
  if !shaped q 20 [(3, 5)] || (ctx? s c).isNone || act > 2 || addr % 64 != 0 || len % 64 != 0 || len == 0 || !inJobWindow s j addr len then (s, mFail .invalidField)
  else if act = 0 then
    match addPin { start := off, len := len, why := .software j } (ptn (demand p s) p) with
    | some x => (updPtn p (fun _ => x) (demand p s), mOk [])
    | none => (s, mFail .noResource)
  else if act = 1 then (retryPins j (updPtn p (fun x => { x with pins := cutPins off len x.pins }) s), mOk [])
  else (updPtn p (unlockLines fun l _ => inRange off len l) s, mOk [])
def execCrucPin (m : Fin 4) (s : State) : Host.Outcome State Fault Refusal := .next (mailbox m.val 0x0412 anyForm doCrucPin .timeout s)

/-! ### Routes (R335–R337) -/

/-- A command of a job that spans modules is in flight through the module (R337). -/
def spanningBusy (s : State) : Bool := !(cmdsOf (fun x => liveCmd x && x.admitted && spans s x.job && x.opcode ≥ 0x10) s).isEmpty

/-- The refusals of R335. -/
def routesBad (s : State) (q : Req) : Bool :=
  let own := qf q 0 1
  let en := qf q 1 1
  let e := fun i => qf q (8 + 2 * i) 2
  !shaped q 136 [(7, 1)] || own > 63 || en > 15 || qf q 6 1 > 15 ||
  ((upto 4).any fun n => let k := qf q (2 + n) 1; k > 63 && k != 0xFF) || e own != 0 ||
  ((upto 64).any fun i => e i / 4 % 64 != 0 || e i / 4096 % 8 != 0 ||
    (if bit (e i) 15 then e i / 256 % 16 == 0 || !bit en (e i % 4) else false)) ||
  (own != s.aon.modid && s.jobs.any fun j => j.2.modules > 1)

/-- A port that becomes enabled starts step 1; one that is disabled stops, an UP one by going DOWN (R325, R326). -/
def setPort (en n : Nat) (s : State) : State :=
  let st := (port s n).st
  if !bit en n then
    (if st = .up then cutPort n 1 s else if st = .down then s else updPort n (fun p => { p with st := .disabled }) (emptyPort n 1 s))
  else if st = .disabled then updPort n (fun p => { p with st := .training, step := 1 }) s
  else s

def doRouteSet : Handler := fun _ q _ s =>
  if routesBad s q then (s, mFail .invalidField)
  else
    let s := updIcern (fun i => { i with hold := true }) s
    if spanningBusy s then (s, .busy (.held q .timeout))
    else
      let s := updAon (fun a => { a with
        modid := qf q 0 1, enable := BitVec.ofNat 4 (qf q 1 1), peers := (upto 4).map fun n => qf q (2 + n) 1
        dateline := BitVec.ofNat 4 (qf q 6 1), routes := (upto 64).map fun i => BitVec.ofNat 16 (qf q (8 + 2 * i) 2) }) s
      (updIcern (fun i => { i with hold := false }) ((upto 4).foldl (fun s n => setPort (qf q 1 1) n s) s), mOk [])
def execIcernRouteSet (m : Fin 4) (s : State) : Host.Outcome State Fault Refusal := .next (mailbox m.val 0x0501 anyForm doRouteSet .timeout s)

end Sys2Proof.Machine
end

