-- ==== Sys2Proof/Machine/Strata.lean ====
section
/-! DEFINITION. Strata: centroid scores and bounds (R123, R124), the descent of a query row (R125), assignment of a vector (R170), the
radii (R103, R123). -/

namespace Sys2Proof.Machine

/-- The square root of an exact value at least 0, rounded once. -/
def xSqrtD (dir : Dir) (x : Exact) : F32 :=
  let n := x.num.natAbs
  if n = 0 ∨ x.den = 0 then 0 else
  let k : Nat := 64 + Nat.log2 x.den
  let e : Int := if (x.exp - k) % 2 = 0 then x.exp - k else x.exp - k - 1
  let a := n * 2 ^ (x.exp - e).toNat
  let m := a / x.den
  let r := isqrtFrom m (Nat.log2 m / 2 + 1) 0
  let sticky : Nat := if r * r = m ∧ a % x.den = 0 then 0 else 1
  fRound dir { num := (2 * r + sticky : Nat), exp := e / 2 - 1 }

/-! ### Scores of centroids -/

/-- T_c (R124). -/
def centroidT (q : List Int) (k : Centroid) : Int := dotI q k.codes

/-- The exact score of a centroid against an encoded row, L2 negated (R43, R170). -/
def centroidScore (metric : Nat) (q : List Int) (eq : Int) (qn : F32) (k : Centroid) : F32 :=
  metricScore metric (denseScore .ne (centroidT q k) k.exp eq) qn k.norm

/-- nq of R124. -/
def queryLength (q : List Int) (eq : Int) : F32 :=
  fRound .up (xMul (fExact (xSqrtD .up (xInt (dotI q q)))) (xPow 1 eq))

/-- U_c (R124). -/
def centroidBound (metric : Nat) (r : QRow) (k : Centroid) : F32 :=
  let b := fAddD .up (denseScore .up (centroidT r.codes k) k.exp r.eq) (fMulD .up (queryLength r.codes r.eq) k.radius)
  if metric = 1 then
    let m := fMax 0 (fAddD .down (fSqrtD .down k.norm) (fNeg k.radius))
    fAddD .up (twice .up b) (fNeg (fAddD .down r.qnorm (fMulD .down m m)))
  else b

/-! ### Descent -/

/-- Indices of a level ranked by a score, the higher first, equal ones by lower list number at the lowest level and by lower index above
it, where the manual gives no order. -/
def rankBy (score : Centroid → F32) (lvl : List Centroid) (is : List Nat) : List (Nat × F32) :=
  sortBy (fun a b => fGt a.2 b.2 || (!fGt b.2 a.2 && decide ((lget lvl a.1 {}).child ≤ (lget lvl b.1 {}).child)))
    (is.map fun i => (i, score (lget lvl i {})))

/-- The children of expanded centroids. -/
def childrenOf (lvl : List Centroid) (is : List Nat) : List Nat :=
  is.flatMap fun i => let k := lget lvl i {}; (upto k.children).map (· + k.child)

/-- A walk down the levels: `width` is how many centroids a level above the lowest expands; the ranked lowest level, as list numbers. -/
def walkDown (score : Centroid → F32) (width : Nat → Nat) : List (List Centroid) → List Nat → List (Nat × F32)
  | [], _ => []
  | [low], is => (rankBy score low is).map fun x => ((lget low x.1 {}).child, x.2)
  | lvl :: rest, is => walkDown score width rest (childrenOf lvl (((rankBy score lvl is).take (width lvl.length)).map (·.1)))

def topIndices (y : Coll) : List Nat := upto (y.strata.headD []).length
def leafCount (y : Coll) : Nat := (y.strata.getLast?.getD []).length

/-- W of R125. -/
def expandWidth (l leaves n : Nat) : Nat := min n (max 8 (ceilDiv (2 * l * n) (max 1 leaves)))

/-- The probe set of a row: lists with their U_c, best first (R125, R126). -/
def probeSet (y : Coll) (l : Nat) (r : QRow) : List (Nat × F32) :=
  (walkDown (centroidBound y.metric r) (expandWidth l (leafCount y)) y.strata (topIndices y)).take l

/-! ### Assignment (R170) -/

/-- Leaves ranked for a transformed vector with norm term xn. -/
def rankLeaves (y : Coll) (v : List F32) (xn : F32) : List (Nat × F32) :=
  let eq := queryExp v
  walkDown (centroidScore y.metric (v.map (queryCode eq)) eq xn) (fun _ => 8) y.strata (topIndices y)

/-- The leaf of a vector and, with spill, its second leaf. -/
def assignLeaf (y : Coll) (v : List F32) (xn : F32) : Option Nat × Option Nat :=
  match rankLeaves y v xn with
  | [] => (none, none)
  | [a] => (some a.1, none)
  | a :: b :: _ =>
    let least := fSub a.2 (fMul 0x3E000000 (fAbs a.2))
    (some a.1, if spills y && !fGt least b.2 then some b.1 else none)

/-! ### Decoded vectors and radii (R123) -/

/-- The decode of coordinate i of a stored vector, of its coarse code or of both tiers. -/
def decodeAt (g : Nat) (e : Enc) (two : Bool) (i : Nat) : Exact :=
  let c : Int := (lget e.codes i 0).toNat
  let z : Int := ((lget e.zero (i / g) 0 : Nat) : Int)
  let m : Int := ((lget e.mult (i / g) 1 : Nat) : Int)
  let t : Int := if two then refineVal (lget e.refine i 0) else 0
  xPow (m * (16 * (c - z) + t)) (e.ev - 4)
def decodeVec (y : Coll) (e : Enc) (two : Bool) : List Exact := (upto (coordN y)).map (decodeAt (groupSize y) e two)

/-- The points whose distance a radius bounds: the planished input where it is at hand, and the decodes. -/
def memberPoints (y : Coll) (v : List F32) (e : Enc) : List (List Exact) :=
  (if v.isEmpty then [] else [v.map fExact]) ++ [decodeVec y e false] ++ (if twoTier y then [decodeVec y e true] else [])

/-- The distance of a point from ĉ, rounded RU. -/
def distanceUp (k : Centroid) (v : List Exact) : F32 :=
  let sq := (v.zipIdx).foldl (fun a (x, i) =>
    let d := xSub x (xPow (lget k.codes i 0) k.exp)
    xAdd a (xMul d d)) (xInt 0)
  xSqrtD .up sq

def widenRadius (ps : List (List Exact)) (k : Centroid) : Centroid :=
  { k with radius := ps.foldl (fun r v => fMax r (distanceUp k v)) k.radius }

/-- The centroids on the way to a leaf widened, levels given lowest first; `holds` tells the one of a level. -/
def widenLevels (ps : List (List Exact)) : List (List Centroid) → (Centroid → Bool) → List (List Centroid)
  | [], _ => []
  | lvl :: rest, holds =>
    let i := (lvl.findIdx? holds).getD lvl.length
    (lvl.zipIdx.map fun (k, j) => if j = i then widenRadius ps k else k) ::
      widenLevels ps rest fun k => decide (k.child ≤ i) && decide (i < k.child + k.children)

/-- A slot placed in leaf l widens its leaf's radius and those above it (R103, R123). -/
def widenLeaf (c l : Nat) (ps : List (List Exact)) (s : State) : State :=
  updColl c (fun y => { y with strata := (widenLevels ps y.strata.reverse fun k => k.child == l).reverse }) s

end Sys2Proof.Machine
end

