-- ==== Sys2Proof/Machine/Ingest.lean ====
section
/-! DEFINITION. Ingest: assignment and append (R89, R101, R110, R170, R171, R189), the checks before commit (R169), the commit of a batch
(R88, R92–R98, R111, R141, R142, R172, R173, R176, R181). -/

namespace Sys2Proof.Machine

/-! ### The horizon (R90, R94) -/

/-- A partition whose directory copies the home's ingest engine writes: one in FORGE or WARM that answers (R174, R353). -/
def awakePtn (s : State) (p : Nat) : Bool := ((ptn s p).power == .forge || (ptn s p).power == .warm) && !pastDrain (ptn s p)
/-- The lines of those copies written by the home's ingest engine (R16, R81). -/
def writeCopies (n : Nat) (s : State) : State :=
  moveLines (some (collHome s n)) none ((jobPtns s (coll s n).job).filter (awakePtn s)) s

/-- The horizon advances to an epoch: written to the directory copies of the partitions in FORGE or WARM, tombstones up to it settled (R81, R90, R93). -/
def setHorizon (n : Nat) (h : Epoch) (s₀ : State) : State :=
  let s := writeCopies n s₀
  settleLog n h (updColl n (fun y => { y with
    horizon := h, ptns := tmap (fun p (q : CollPtn) => if awakePtn s p then { q with horizon := h } else q) y.ptns }) s)

/-- The newest epoch that the snapshots held allow the horizon (R90). -/
def newestHorizon (s : State) (n : Nat) : Epoch := (heldSnaps s n).foldl (fun h e => if precedes e h then e else h) (coll s n).latest

def liftHorizon (n : Nat) (s : State) : State :=
  let h := newestHorizon s n
  if precedes (coll s n).horizon h then setHorizon n h s else s

/-- More than 57,344 entries of a tombstone log in use: the horizon of every collection with entries there advances as far as it may (R94). -/
def liftHorizons (s : State) : State :=
  (s.ptns.filter fun x => decide (x.2.log.length > 57344)).foldl (fun s x =>
    (distinct (x.2.log.map fun e => e.2.coll)).foldl (fun s n => liftHorizon n s) s) s

/-! ### Records against the directory -/

/-- The directory entry of a key that is present and not DELETED (R97). -/
def liveKey (y : Coll) (k : Key) : Option KeyEnt := (keyEnt y k).filter (!·.deleted)
/-- The generation that a write of the key takes (R97). -/
def nextGen (y : Coll) (k : Key) : W16 := match keyEnt y k with | some e => e.gen + 1 | none => 0

/-- A record that the directory refuses: NOREPLACE on a present key, a part-wise UPSERT of an absent one (R169). -/
def recRefused (y : Coll) (e : BitVec 512) (r : Rec) : Bool :=
  let here := (liveKey y r.key).isSome
  (opOf e == 0x20 && bit (iParts e) 0 && here) || (opOf e == 0x21 && !bit r.parts.toNat 0 && !here)

/-- The slots that the key's entry names now. -/
def currentSlots (y : Coll) (k : Key) : Option SlotRef × Option SlotRef :=
  match liveKey y k with | some e => (some e.slot, e.spill) | none => (none, none)

/-- Parts whose PARTS bit is clear taken from the old slot; of a key that is absent or DELETED there is none to take (R171). -/
def fillParts (y : Coll) (r : Rec) : Rec :=
  let (o, sp) := currentSlots y r.key
  let r := { r with old := o, oldSpill := sp }
  match o.bind fun q => (brick? y q.brick).map fun b => slotOf b q.slot with
  | none => { r with attr := if bit r.parts.toNat 1 then r.attr else 0, sparse := if bit r.parts.toNat 2 then r.sparse else (0, []) }
  | some t => { r with
      attr := if bit r.parts.toNat 1 then r.attr else t.attr
      enc := if bit r.parts.toNat 0 then r.enc else t.enc
      input := if bit r.parts.toNat 0 then r.input else t.input
      sparse := if bit r.parts.toNat 2 then r.sparse else (tget y.sparseRecs r.key.toNat).getD (0, []) }

/-! ### Assignment and append -/

/-- Inserts go to lists once the strata are committed (R112). -/
def usesLists (y : Coll) : Bool := y.state == .redistributing || y.state == .trained
/-- A brick of the loose segment. -/
def looseSlot (y : Coll) (q : SlotRef) : Bool := (brick? y q.brick).any (·.kind == 2)
/-- The list that holds a slot. -/
def listOfSlot (y : Coll) (q : SlotRef) : Option Nat := (brick? y q.brick).bind fun b => if b.kind = 2 then none else some b.list
/-- A stored vector as a transformed row, from its decode (log 59). -/
def decodedRow (y : Coll) (e : Enc) : List F32 := (decodeVec y e (twoTier y)).map (fRound .ne)

/-- The leaves a record goes to, none for the loose chain (R110, R112, R170, R171); a FORMAT 2 record goes by its decode rounded RNE (R189; log 83). -/
def placeOf (y : Coll) (r : Rec) : Option Nat × Option Nat :=
  if !usesLists y then (none, none)
  else match (if bit r.parts.toNat 0 then none else r.old.bind (listOfSlot y)) with
    | some l => (some l, r.oldSpill.bind (listOfSlot y))
    | none => assignLeaf y (if r.y.isEmpty then decodedRow y r.enc else r.y) r.enc.norm

/-! ### What the ingest engine writes and reads (R89, R197, R210, R220) -/

/-- A word that a write of some ranges from a base on covers whole. -/
def covers (base : Nat) (fs : List (Nat × Nat)) (w : Nat) : Bool := fs.any fun f => base + f.1 ≤ w && decide (w + 8 ≤ base + f.1 + f.2)

/-- The poison that a slot written in a brick clears: of a brick newly taken all of it, whose empty slots are zeros; else of the words that the
slot covers whole (R83, R220). -/
def clearPoison (y : Coll) (fresh : Bool) (q : SlotRef) (s : State) : State :=
  let fs := if fresh then [(0, frameSize y)] else slotFields y q.slot
  if s.poison.isEmpty then s else { s with poison := s.poison.filter fun w => !covers q.brick fs w }

/-- The partition that a record goes to: its list's owner, or that of its key's directory (R99, R110). -/
def targetPtn (s : State) (c : Nat) (l : Option Nat) (k : Key) : Nat :=
  match l with | some l => (leaf (coll s c) l).owner | none => keyPtn s c k

/-- A record appended to a leaf, or to the loose chain of its key's partition, its leaf widened; the lines that the home's ingest engine writes are
counted for a context (R197, R240). -/
def appendTo (c : Nat) (l : Option Nat) (r : Rec) (ctx : Option Nat) (s : State) : Option (SlotRef × State) :=
  let y := coll s c
  let p := targetPtn s c l r.key
  (appendRec c p l r ((nextGen y r.key).toNat % 16) (demand p s)).map fun (q, s) =>
    let s := engineMove (some (collHome s c)) ctx p (slotLines y) (clearPoison y (brick? y q.brick).isNone q s)
    (q, match l with | some l => widenLeaf c l (memberPoints y (if r.y.isEmpty then r.input else r.y) r.enc) s | none => s)

/-- The bucket of a key read at its home, as a cached line (R95, R210). -/
def touchKey (c : Nat) (ctx : Option Nat) (k : Key) (s : State) : State :=
  let p := keyPtn s c k
  let i := bucketOf s c p k
  if (dirRegion s c p (.keys (i / 2 ^ 18))).isNone then s
  else cacheLines (bucketAddr s c p false i) 64 (engineMove (some (collHome s c)) ctx p 1 s)

/-- The tombstone record of a brick read at its home, as a cached line (R92, R210). -/
def touchTomb (issuer ctx : Option Nat) (b : Nat) (s : State) : State :=
  let p := ptnOfAddr b
  cacheLines (p * 2 ^ 36 + tombAddr b) 16 (engineMove issuer ctx p 1 s)

/-- The old slots of a record prepared as tombstoned; where the log is full that is left to the commit (R94). -/
def prepareOlds (c owner : Nat) (qs : List SlotRef) (s : State) : State :=
  liftHorizons (qs.foldl (fun s q => (prepareTomb c owner q s).getD s) s)

/-- The partitions that a record's append reaches: of its key's directory, of its old slots, and of the lists it goes to (R5, R353). -/
def reaches (s : State) (c : Nat) (r : Rec) (ls : List (Option Nat)) : List Nat :=
  keyPtn s c r.key :: (r.old.toList ++ r.oldSpill.toList).map (fun q => ptnOfAddr q.brick) ++ ls.map fun l => targetPtn s c l r.key

/-- Record i of a command assigned and appended (steps 3–6 of the path), or why it is not: NO_RESOURCE where no frame is left, or no region for the
key's directory (R80); FENCED where it meets a fence response (R353). -/
def appendAt (c i : Nat) (s : State) : State × Option (Status × W32) :=
  match cmd? s c with
  | none => (s, none)
  | some x => match x.recs[i]? with
    | none => (s, none)
    | some r =>
      let y := coll s x.coll
      let put := fun (r : Rec) (s : State) => updCmd c (fun x => { x with recs := x.recs.set i r }) s
      let r := fillParts y r
      let olds := r.old.toList ++ r.oldSpill.toList
      let (l, sp) := placeOf y r
      let dests := if x.opcode = 0x22 then [] else l :: (sp.map some).toList
      match turnedAway s (reaches s x.coll r dests) with
      | some code => (s, some (.fenced, code))
      | none =>
        let s := olds.foldl (fun s q => touchTomb (some (collHome s x.coll)) (some x.ctx) q.brick s) (touchKey x.coll (some x.ctx) r.key s)
        let s := prepareOlds x.coll c olds (moveLines (some (collHome s x.coll)) (some x.ctx) (olds.map fun q => ptnOfAddr q.brick) s)
        if x.opcode = 0x22 then (put r s, none)
        else
          match (startKeys x.coll (keyPtn s x.coll r.key) s).bind (appendTo x.coll l r (some x.ctx)) with
          | none => (put r s, some (.noResource, 0))
          | some (q, s) =>
            let r := { r with leaf := l, slot := some q }
            match sp with
            | none => (put r s, none)
            | some k => match appendTo x.coll (some k) r (some x.ctx) s with
              | none => (put r s, some (.noResource, 0))
              | some (q2, s) => (put { r with spillLeaf := some k, spillSlot := some q2 } s, none)

/-- Records from index i on, n of them, up to the first that fails (R80, R169, R353). -/
def appendSome (c i n : Nat) (s : State) : State × Option (Status × W32) :=
  (upto n).foldl (fun (s, bad) k => match bad with | none => appendAt c (i + k) s | some b => (s, some b)) (s, none)

/-- The next record to append: a DELETE's are done in one chunk. -/
def nextRec (x : Cmd) : Nat := if x.opcode = 0x22 then 0 else (x.recs.findIdx? fun r => r.slot.isNone).getD x.recs.length

/-- Records that one chunk of 256 bricks takes (R242). -/
def chunkRecords : Nat := 16384

/-- The chunk of a command that assigns its records, or reads its source. -/
def isAssign (c : Nat) (k : Chunk) : Bool := k.cmd == some c && (k.kind == 0 || k.kind == 4)

/-- The lines of a bulk aperture that the home's ingest engine reads (R197, R240). -/
def readAperture (x : Cmd) (off n : Nat) (s : State) : State :=
  match hdmAddr s off with
  | some a => engineMove (some x.home) (some x.ctx) (homePtn a) (ceilDiv n 64) s
  | none => s

/-- A word of the source of a BULK_LOAD reads poisoned (R220). -/
def bulkPoisoned (s : State) (x : Cmd) : Bool :=
  (upto (ceilDiv (bLen x.entry) 8)).any fun i => match hdmAddr s (ePayload x.entry + 8 * i) with
    | some a => wordPoisoned s a
    | none => false

/-- The first chunk of a BULK_LOAD reads its source (R168, R189). -/
def readBulk (c : Nat) (x : Cmd) (foreign : Option Nat) (s : State) : State :=
  let n := bLen x.entry
  takeIngest c foreign (hdmRead s (ePayload x.entry) n) (readAperture x (ePayload x.entry) n s)

/-! ### The checks before commit (R110, R140, R169) -/

/-- Slots of a record. -/
def recSlots (r : Rec) : List SlotRef := r.slot.toList ++ r.spillSlot.toList
/-- The slots its commit tombstones. -/
def oldSlots (y : Coll) (r : Rec) : List SlotRef := let o := currentSlots y r.key; o.1.toList ++ o.2.toList

/-- Live loose slots after the commit of a batch. -/
def looseAfter (s : State) (c : Nat) (x : Cmd) : Nat :=
  let y := coll s c
  let new := x.recs.foldl (fun n r => n + ((recSlots r).filter (looseSlot y)).length) 0
  let gone := x.recs.foldl (fun n r => n + ((oldSlots y r).filter fun q => looseSlot y q && !tombstoned s q).length) 0
  looseLive s c + new - gone

/-! ### Postings (R140–R142) -/

/-- An address for a new posting block: the lowest free place of 4,224 B in the collection's regions of postings, or a region taken for it;
none where no region is free (R80, R141; log 21). -/
def takeBlock (c p : Nat) (s : State) : Option (Nat × State) :=
  let used := ((coll s c).postings.flatMap (·.2)).map (·.addr)
  let mine := ((ptn s p).regions.filter fun r => r.2.inUse && r.2.coll == some c && r.2.use == .postings).map (·.1)
  match mine.findSome? fun r => (((upto 3971).map fun i => regionBase p r + 4224 * i).find? fun a => !used.contains a) with
  | some a => some (a, s)
  | none => (findRegion s p (coll s c).job dirCands).map fun r => (regionBase p r, giveRegion c p r .postings s)

/-- An entry put into the term's last block in its partition, or into a new one where that is full (R141). -/
def addPosting (c t : Nat) (e : Posting) (s : State) : Option State :=
  let p := ptnOfAddr e.brick
  let here := fun k : PBlock => ptnOfAddr k.addr == p
  let ks := tgetD (coll s c).postings t []
  let put := fun (l : List PBlock) (s : State) => updColl c (fun y => { y with postings := tset y.postings t l }) s
  let fresh := fun _ : Unit => (takeBlock c p s).map fun (a, s) => put (ks ++ [{ addr := a, entries := [e] }]) s
  match (ks.filter here).getLast? with
  | some k => if k.entries.length < 128 then some (put (ks.map fun j => if j.addr = k.addr then { j with entries := j.entries ++ [e] } else j) s) else fresh ()
  | none => fresh ()

/-- Postings of a vector's terms at a slot, in term order (R141); none where a block is wanted and no region is free. -/
def addPostings (c : Nat) (e : Epoch) (attr : W128) (sp : F32 × List (Nat × Nat)) (q : SlotRef) (s : State) : Option State :=
  sp.2.foldl (fun o w => o.bind (addPosting c w.1 { brick := q.brick, slot := q.slot, u := w.2, sigma := sp.1, epoch := e, attr := attr })) (some s)

/-- Postings of a record at every slot it has. -/
def recPostings (c : Nat) (e : Epoch) (r : Rec) (s : State) : Option State :=
  (recSlots r).foldl (fun o q => o.bind (addPostings c e r.attr r.sparse q)) (some s)

/-- A term of some partition that the batch would take beyond 2^21 entries. -/
def postingFull (y : Coll) (x : Cmd) : Bool :=
  hasSparse y && x.recs.any fun r => r.sparse.2.any fun t =>
    (recSlots r).any fun q =>
      let p := ptnOfAddr q.brick
      let more := x.recs.foldl (fun n k => n + if k.sparse.2.any (·.1 == t.1) then ((recSlots k).filter fun v => ptnOfAddr v.brick == p).length else 0) 0
      decide ((termPostings y p t.1).length + more > 2 ^ 21)

/-- No region is left for the posting blocks that the batch needs (R80). -/
def noBlocks (s : State) (c : Nat) (x : Cmd) : Bool :=
  hasSparse (coll s c) && (x.recs.foldl (fun o r => o.bind (recPostings c 0 r)) (some s)).isNone

def commitRefused (s : State) (c : Nat) (x : Cmd) : Option (Status × Nat) :=
  let y := coll s c
  match x.recs.findIdx? (recRefused y x.entry) with
  | some i => some (.invalidField, i)
  | none => if decide (looseAfter s c x > 2 ^ 24) || postingFull y x || noBlocks s c x then some (.noResource, 0) else none

/-- Every record is appended: a part of a spanning command is checked before it is called ready, since it is not failed past COMMIT
(R341, R343). -/
def allAppended (c : Nat) (s : State) : State :=
  match cmd? s c with
  | none => s
  | some x => match (if spans s x.job then commitRefused s x.coll x else none) with
    | some (st, i) => updCmd c (fun k => { k with count := i }) (failCmd c st 0 s)
    | none => batchAppended c s

/-- Records appended from the next one on, at most n; what is left of the batch is the next chunk. -/
def assignUpTo (n c : Nat) (x : Cmd) (s : State) : State :=
  let left := x.recs.length - nextRec x
  match appendSome c (nextRec x) (min n left) s with
  | (t, some (st, code)) => failCmd c st code t
  | (t, none) => if left ≤ n then allAppended c t else queueChunk x.home { kind := assignKind x, ctx := x.ctx, cmd := some c } t

/-- One assignment chunk. -/
def assignSome (c : Nat) (x : Cmd) (s : State) : State := assignUpTo chunkRecords c x s

/-- ASSIGN_CHUNK: the chunk that an anvil of the home partition runs for the command ends (R170, R242); `foreign` is the first FORMAT 2 record whose
source had other parameters (R189). A poisoned word of the source stops the anvil with POISON (R76, R220). -/
def assignChunk (c : Nat) (foreign : Option Nat) (s : State) : State :=
  match cmd? s c with
  | none => s
  | some x =>
    if x.stage ≠ .assigning then s
    else match chunkAnvil s x.home (isAssign c) with
    | none => s
    | some i =>
      if needsSource x && bulkPoisoned s x then poisonFault x.home i s else
      let s := freeAnvil x.home i s
      if needsSource x then readBulk c x foreign s else assignSome c x s

/-- The cause of a class 0x4 code (R348). -/
def ingestCause : IngestFault → Nat
  | .sramUe => 1
  | .commitSeq => 2
  | .append => 3
/-- The class 0x4 code of a partition's ingest engine. -/
def ingestFault (f : IngestFault) (p : Nat) : W32 := faultCode 4 0x52 p (ingestCause f * 2 ^ 12)
/-- The ingest engine of a command's home fails: its code, and L1 of that engine (R348, R356). -/
def ingestFails (f : IngestFault) (p : Nat) (s : State) : State := engineFault 0x52 p (ingestFault f p) (postFault (ingestFault f p) s)

def execAssignChunk (done : AssignDone) (s : State) : Host.Outcome State Fault Refusal :=
  .next (match done.fault, cmd? s done.cmd with
    | some f, some x => if x.stage = .assigning then ingestFails f x.home s else s
    | some _, none => s
    | none, _ => assignChunk done.cmd done.foreign s)

/-- The context that work of a collection is charged to where no command owns it: that of its last ingest command, or the home's lowest resident
one (R241). -/
def careCtx (s : State) (c : Nat) : Option Nat :=
  match (coll s c).lastIngestCtx.filter fun x => (ctx? s x).isSome with
  | some x => some x
  | none => (tkeys (ptn s (collHome s c)).resident).head?

/-! ### Appending again (R88, R112, R171) -/

/-- A slot whose epoch would lie too far from its brick's BASE (R88), or a loose slot of a batch that commits after E_s (R112). -/
def slotStale (y : Coll) (q : SlotRef) : Bool :=
  match brick? y q.brick with
  | some b => decide (epochDist b.base (openEpoch y) > 0xFFFE) || (usesLists y && b.kind == 2)
  | none => true
/-- A part-wise record whose old slot is no longer the one it was built from (R171). -/
def partsStale (y : Coll) (r : Rec) : Bool := r.parts != 7 && r.parts != 0 && (r.old, r.oldSpill) != currentSlots y r.key
def batchStale (y : Coll) (x : Cmd) : Bool := x.recs.any fun r => (recSlots r).any (slotStale y) || partsStale y r

/-- The batch leaves storage and queue, keeps admission, reservations and journal space, and is appended again (R88); one that is bound to commit
waits for its frames where it is (R343). -/
def reappend (c : Nat) (x : Cmd) (s₀ : State) : State :=
  let s := s₀
  let s := withdrawTombs c (x.recs.foldl (fun s r => clearRec x.coll r s) s)
  let s := updColl x.coll (fun y => { y with queue := y.queue.filter (· ≠ c) }) s
  let s := updCmd c (fun x => { x with recs := x.recs.map fun r => { r with slot := none, spillSlot := none, old := none, oldSpill := none } }) s
  match appendSome c 0 x.recs.length s with
  | (s, none) => enterFence c s
  | (s, some (st, code)) => if x.committing then s₀ else failCmd c st code s

/-! ### Commit (R173) -/

/-- The tombstones of the batch, prepared for the slots that the directory names now; none while the log is full (R94). -/
def prepareBatch (c : Nat) (x : Cmd) (s : State) : Option State :=
  let y := coll s x.coll
  let s := if x.recs.any fun r => (r.old, r.oldSpill) != currentSlots y r.key then withdrawTombs c s else s
  x.recs.foldl (fun o r => (oldSlots y r).foldl (fun o q => o.bind (prepareTomb x.coll c q)) o) (some s)

/-- A slot tombstoned: it leaves LIVE and joins TOMB of its partition (R81). -/
def countTomb (c : Nat) (q : SlotRef) (s : State) : State :=
  let p := ptnOfAddr q.brick
  addTomb c p 1 (addLive c p (-1) s)

/-- EPD and GEN of a slot of the batch, LIVE and the sediment count (R81, R89, R97). -/
def commitSlot (c : Nat) (e : Epoch) (gen : W16) (q : SlotRef) (s : State) : State :=
  let y := coll s c
  let s := updBrick c q.brick (fun b => setSlot q.slot (fun t => { t with
    epd := BitVec.ofNat 16 (epochDist b.base e), gen := gen.setWidth 4 }) b) s
  let s := addLive c (ptnOfAddr q.brick) 1 s
  match listOfSlot y q with
  | some l => updLeaf c l (fun k => { k with sedSlots := k.sedSlots + 1 }) s
  | none => s

/-- The sparse record of a key after its write (R142, R171). -/
def storeSparse (c : Nat) (r : Rec) (s : State) : State :=
  let y := coll s c
  if !hasSparse y then s
  else if bit r.parts.toNat 2 then updColl c (fun y => { y with sparseRecs := tset y.sparseRecs r.key.toNat r.sparse }) s
  else if r.old.isNone then updColl c (fun y => { y with sparseRecs := tdel y.sparseRecs r.key.toNat }) s
  else s

/-- One record's part of the commit; counted keys are those a DELETE found (R172). -/
def commitRec (c : Nat) (op : Nat) (e : Epoch) (r : Rec) (s : State) : State :=
  let y := coll s c
  let s := (oldSlots y r).foldl (fun s q => countTomb c q s) s
  if op = 0x22 then
    match liveKey y r.key with
    | some k => setKey c r.key { k with deleted := true } s
    | none => s
  else
    let gen := nextGen y r.key
    match r.slot with
    | none => s
    | some q =>
      let s := (recSlots r).foldl (fun s q => commitSlot c e gen q s) s
      let s := storeSparse c r (if hasSparse y then (recPostings c e r s).getD s else s)
      setKey c r.key { slot := q, spill := r.spillSlot, gen := gen } s

/-- Keys of a DELETE that are present (R172). -/
def deletedKeys (y : Coll) (x : Cmd) : Nat := if x.opcode = 0x22 then (x.recs.filter fun r => (liveKey y r.key).isSome).length else 0

/-- A commit joins the open epoch (R173, R174). -/
def joinEpoch (c : Nat) (s : State) : State := updColl c (fun y => { y with openCommits := y.openCommits + 1 }) s

/-- The FLUSH that covers a commit, or the next one, takes note of it (R179, R181). -/
def noteFlush (c n : Nat) (e : Epoch) (csn : Nat) (s : State) : State :=
  if (coll s n).flushBase.contains c then
    updColl n (fun y => { y with flushOk := y.flushOk + 1, flushEpoch := e, flushCsn := csn }) s
  else match s.cmds.find? fun k => k.2.opcode == 0x28 && k.2.coll == n && liveCmd k.2 && k.2.covers.contains c with
    | some k => updCmd k.1 (fun f => { f with coveredOk := f.coveredOk + 1, waitFor := e, csn := csn }) s
    | none => s

/-- The journal record of a batch (R181). -/
def batchRecord (x : Cmd) (jsn : Nat) : List Byte :=
  let e := x.entry
  let typ := if x.opcode = 0x20 then 1 else if x.opcode = 0x21 then 2 else 3
  let flags := (if x.opcode ≠ 0x22 ∧ bit (iFmt e) 0 then 1 else 0) + (if x.opcode = 0x21 then 2 * (iParts e % 8) else 0)
  recordHeader typ flags x.coll x.tag.toNat x.epoch.toNat x.payload.length jsn x.ctx (iCount e) x.csn x.payload ++
    x.payload ++ List.replicate (recordLen x.payload.length - 64 - x.payload.length) 0

/-- The partitions that a batch's commit writes, once for each line: its slots, the tombstones of the slots it replaces, its keys (R16, R173). -/
def commitReach (s : State) (n : Nat) (x : Cmd) : List Nat :=
  x.recs.flatMap fun r => (recSlots r ++ oldSlots (coll s n) r).map (fun q => ptnOfAddr q.brick) ++ [keyPtn s n r.key]

/-- Training that the first commit to reach 2^20 live slots starts, its shape not given (R111, log 7). -/
def autoTrainNow (c was : Nat) (s : State) : State :=
  let y := coll s c
  if !autoTrain y || decide (was ≥ 2 ^ 20) || decide (liveTotal y < 2 ^ 20) then s
  else if y.state = .untrained then
    let levels := 1 + (Config.trainedValue c s.hearth.trainSeq 0).toNat % 3
    beginTrain c levels (1 + (Config.trainedValue c s.hearth.trainSeq 1).toNat % leafCap y levels) 0 [] s
  else if y.state = .training ∨ y.state = .redistributing then updColl c (fun y => { y with trainIgnored := y.trainIgnored + 1 }) s
  else s

/-- A committed ingest command ends when its record is acknowledged and its epoch closed, with FORCE, and every module has
answered (R175, R182, R341). -/
def tryFinish (c : Nat) (s : State) : State :=
  match cmd? s c with
  | none => s
  | some x =>
    let forced := eForce x.entry && x.origin.isNone
    if x.stage ≠ .committed ∨ !isIngest x.opcode then s
    else if forced ∧ (!x.acked ∨ !epochLe x.epoch (coll s x.coll).latest) then s
    else if !((if x.committing && x.origin.isNone then peersOf s x.job else []).all fun m => x.peersDone.contains m) then s
    else updCmd c (fun k => { k with stage := .final, count := if k.opcode = 0x22 then k.deleted else iCount k.entry }) s

/-- What follows a commit: the journal record, the response to the root, the outcome. -/
def afterCommit (c : Nat) (s : State) : State :=
  match cmd? s c with
  | none => s
  | some x => match x.origin with
    | some (root, _) =>
      updCmd c (fun k => { k with stage := .final })
        (sendMsg (insertRsp s x c root .ok x.epoch (if x.opcode = 0x22 then x.deleted else x.recs.length)) s)
    | none =>
      let s := updCmd c (fun k => { k with stage := .committed }) s
      tryFinish c (if eForce x.entry then writeRecord x.ctx c (batchRecord x) s else s)

/-- The four actions of R173 for the command c of collection n. -/
def commitNow (n c : Nat) (x : Cmd) (s : State) : State :=
  let y := coll s n
  let e := openEpoch y
  let was := liveTotal y
  let s := updCmd c (fun k => { k with deleted := k.deleted + deletedKeys y x }) s
  let s := moveLines (some (collHome s n)) (some x.ctx) (commitReach s n x) s
  let s := x.recs.foldl (fun s r => commitRec n x.opcode e r s) (commitTombs c e s)
  let s := updColl n (fun y => { y with queue := y.queue.drop 1, csn := y.csn + 1 }) (joinEpoch n s)
  let csn := (coll s n).csn
  let s := (jobPtns s y.job).foldl (fun s p => growDirectory n p s) s
  let s := updCmd c (fun k => { k with epoch := e, csn := csn }) (noteFlush c n e csn s)
  autoTrainNow n was (afterCommit c s)

/-- Batches that became ready while the queue was full enter it, oldest first (R173, R292). -/
def queueWaiting (n : Nat) (s : State) : State :=
  (cmdsOf (fun x => x.coll == n && isIngest x.opcode && (x.stage == .fencing || (x.stage == .waiting && x.committing))) s).foldl (fun s c =>
    if s.ptns.any fun p => p.2.wcFences.any fun f => f.why == .batch c then s else batchReady c s) s

/-- The batch at the head commits, or waits for a log entry, its collections' horizons lifted (R94, R173). -/
def commitBatch (n c : Nat) (x : Cmd) (s : State) : State :=
  match prepareBatch c x s with
  | none => liftHorizons s
  | some t => liftHorizons (commitNow n c x t)

/-- BATCH_COMMIT: the batch at the head of the commit queue (R173); a failed check withdraws it (R169), and so does a fence response, for which a
batch bound to commit waits (R343, R353). -/
def commitHead (n : Nat) (s : State) : State :=
  match (coll s n).queue with
  | [] => s
  | c :: _ => match cmd? s c with
    | none => updColl n (fun y => { y with queue := y.queue.drop 1 }) s
    | some x =>
      match (if x.committing then none else commitRefused s n x) with
      | some (st, i) => updCmd c (fun k => { k with count := i }) (failCmd c st 0 s)
      | none =>
        match turnedAway s (commitReach s n x) with
        | some code => if x.committing then s else failCmd c .fenced code s
        | none => if batchStale (coll s n) x then reappend c x s else commitBatch n c x s
/-- The ingest engine of the collection's home partition runs. -/
def homeRuns (s : State) (n : Nat) : Bool := let x := ptn s (collHome s n); x.power != .cold && x.power != .banked && x.service != .resetting
def execBatchCommit (n : Nat) (s : State) : Host.Outcome State Fault Refusal := onlyIf (homeRuns s n) (fun s => queueWaiting n (commitHead n s)) s

end Sys2Proof.Machine
end

