-- ==== Sys2Proof/Machine/Epochs.lean ====
section
/-! DEFINITION. Epochs and the journal in time: closes (R174), the horizon (R90, R93), the settling sweep (R91, R142), acknowledgements
and RELEASED (R179–R182, R184, R186, R433). -/

namespace Sys2Proof.Machine

/-! ### Closes, the horizon, settling -/

/-- Committed commands of a collection whose conditions may now hold. -/
def finishCommitted (n : Nat) (s : State) : State :=
  (cmdsOf (fun x => x.coll == n && x.stage == .committed) s).foldl (fun s c => tryFinish c s) s

/-- The open epoch may close: it holds a commit and no partition of the job is fenced (R174). -/
def mayClose (s : State) (n : Nat) : Bool :=
  decide ((coll s n).openCommits > 0) && homeRuns s n && !anyFenced s (jobPtns s (coll s n).job)

/-- LATEST written to the directory copies of the partitions in FORGE or WARM; what waited on it goes on (R174, R175, R178, R179). -/
def closeEpoch (n : Nat) (s₀ : State) : State :=
  let s := writeCopies n s₀
  let y := coll s n
  let e := openEpoch y
  let s' := updColl n (fun y => { y with
    latest := e, openCommits := 0, ptns := tmap (fun p (q : CollPtn) => if awakePtn s p then { q with latest := e } else q) y.ptns }) s
  settleWaiters (finishCommitted n s')
def execEpochClose (n : Nat) (s : State) : Host.Outcome State Fault Refusal := onlyIf (mayClose s n) (closeEpoch n) s

/-- The horizon may advance to an epoch: newer than it, closed, no newer than a snapshot held (R90). That RETAIN has passed since the
close, or that TOMB_PRESSURE lifts it (R94), is the sender's word (log 13). -/
def mayAdvance (s : State) (n : Nat) (h : Epoch) : Bool :=
  let y := coll s n
  y.state != .free && homeRuns s n && precedes y.horizon h && epochLe h y.latest && (heldSnaps s n).all fun e => epochLe h e
def execHorizonAdvance (n : Nat) (upTo : Epoch) (s : State) : Host.Outcome State Fault Refusal :=
  onlyIf (mayAdvance s n upTo) (setHorizon n upTo) s

/-- Every occupied slot of a brick is committed at or before the horizon (R91). -/
def brickSettles (y : Coll) (b : Brick) : Bool := (upto 64).all fun i => !(slotOf b i).occ || committedAt b y.horizon i
/-- A posting entry of a brick that the sweep finds settled (R142). -/
def settlePosting (y : Coll) (b : Nat) (e : Posting) : Posting :=
  if e.brick = b ∧ e.epoch ≠ 0 ∧ epochLe e.epoch y.horizon then { e with epoch := 0 } else e
/-- A settling chunk: SETTLED of a brick, the epochs of its postings (R91, R142). -/
def settleBrick (n b : Nat) (s : State) : State :=
  updColl n (fun y => match brick? y b with
    | none => y
    | some k => { y with
        bricks := if brickSettles y k then tset y.bricks b { k with settled := true } else y.bricks
        postings := tmap (fun _ (l : List PBlock) => l.map fun k => { k with entries := k.entries.map (settlePosting y b) }) y.postings }) s
/-- A brick that the sweep has to write: it settles, or posting entries that name it do (R91, R142). -/
def sweepDue (y : Coll) (b : Nat × Brick) : Bool :=
  (brickSettles y b.2 && !b.2.settled) || y.postings.any fun t => t.2.any fun k => k.entries.any fun e => settlePosting y b.1 e != e

/-- A brick leaves the sweep chunk that an anvil runs; the anvil is free after the last one. -/
def sweptBrick (p i b : Nat) (s : State) : State :=
  let s := updAnvil p i (fun a => { a with chunk := a.chunk.map fun k => { k with bricks := k.bricks.filter (·.brick ≠ b) } }) s
  if (anvil s p i).chunk.any fun k => k.bricks.isEmpty then freeAnvil p i s else s

/-- SETTLING_SWEEP: the sweep chunk that an anvil runs visits a brick's header of 4 lines (R84, R91, R242). -/
def sweepBrick (n b : Nat) (s : State) : State :=
  let p := ptnOfAddr b
  match chunkAnvil s p fun k => chunkOf 7 n k && k.bricks.any (·.brick == b) with
  | none => s
  | some i => sweptBrick p i b (settleBrick n b (engineMove (some p) (careCtx s n) p 4 s))
def execSettlingSweep (n brick : Nat) (s : State) : Host.Outcome State Fault Refusal := .next (sweepBrick n brick s)

/-! ### Acknowledgements (R180, R182, R184) -/

/-- The oldest record of a command that awaits its acknowledgement. -/
def writingRec (s : State) (c : Nat) : Option (Nat × JRec) :=
  s.ctxs.findSome? fun x => ((x.2.journal.bind fun j => j.recs.find? fun r => r.cmd == c && r.st == .writing)).map fun r => (x.1, r)

def markAcked (r : JRec) : List JRec → List JRec
  | [] => []
  | k :: t => if k = r then { k with st := .acked } :: t else k :: markAcked r t

/-- A number kept only for its journal record goes once the journal has no record of it (R186). -/
def forgetDone (c : Nat) (s : State) : State :=
  match cmd? s c with
  | some x => if x.stage = .done && x.granules.isNone && !((journal? s x.ctx).any fun j => j.recs.any fun r => r.cmd == c) then delCmd c s else s
  | none => s

/-- The CXL.cache writes of a record that the host has completed have left (R182, R301). -/
def sentRecord (ctx : Nat) (r : JRec) (s : State) : State :=
  match journal? s ctx with
  | some j => updHost (fun h => { h with cache := h.cache.filter fun w => !(decide (j.base.toNat + r.off ≤ w.addr.toNat) && decide (w.addr.toNat < j.base.toNat + r.off + r.len)) }) s
  | none => s

/-- An acknowledged record: WRITTEN advances, a batch or FLUSH whose own record it is goes on. -/
def ackRecord (ctx c : Nat) (r : JRec) (s : State) : State :=
  let s := advanceWritten ctx (updJournal ctx (fun j => { j with recs := markAcked r j.recs }) s)
  if r.pad then forgetDone c s
  else match cmd? s c with
    | none => s
    | some x =>
      if x.stage ≠ .committed then forgetDone c s
      else if x.opcode = 0x28 then updCmd c (flushOutcome s) s
      else tryFinish c (updCmd c (fun k => { k with acked := true }) s)

/-- The class 0x5 code of the CXL.cache requester for a command of a ring (R433). -/
def cacheFault (s : State) (cause c : Nat) : W32 := hostFault 0x72 cause ((cmd? s c).map (·.ring))

/-- A record, PAD or mark that failed: the fault posted, the journal broken; a batch stays committed and its command completes with E,
a FLUSH completes (R179, R181, R184). -/
def failRecord (ctx c : Nat) (r : JRec) (cause : Nat) (st : Status) (s : State) : State :=
  let code := cacheFault s cause c
  let s := breakJournal ctx (postFault code s)
  let s := updJournal ctx (fun j => { j with recs := j.recs.map fun k => if k = r then { k with cmd := 0, st := .failed } else k }) s
  match cmd? s c with
  | none => s
  | some x =>
    if r.pad ∨ x.stage ≠ .committed then forgetDone c s
    else updCmd c (fun k => { k with stage := .final, status := st, fault := code, count := if x.opcode = 0x28 then x.coveredOk else 0 }) s

def execJournalAck (c : Nat) (reply : AckReply) (s : State) : Host.Outcome State Fault Refusal :=
  .next (match writingRec s c with
    | none => s
    | some (ctx, r) => match reply with
      | .ok => ackRecord ctx c r (sentRecord ctx r s)
      | k => failRecord ctx c r 5 .uncorrectable (if k = .poison then notePoison s else s))
def execJournalAckTimeout (c : Nat) (s : State) : Host.Outcome State Fault Refusal :=
  .next (match writingRec s c with
    | none => s
    | some (ctx, r) => failRecord ctx c r 6 .timeout s)

/-! ### Space (R180, R182) -/

/-- The commands of a context that await journal space. -/
def spaceWaiters (s : State) (ctx : Nat) : List Nat := cmdsOf (fun x => x.ctx == ctx && x.stage == .journalWait) s

def execJournalSpaceTimeout (c : Nat) (s : State) : Host.Outcome State Fault Refusal :=
  onlyIf ((cmd? s c).any fun x => x.stage == .journalWait) (failCmd c .timeout 0) s

def rereading (s : State) (ctx : Nat) : Bool := (journal? s ctx).any (·.rereading)
/-- RELEASED is read while some command lacks space, one read at a time, over CXL.cache (R180, R264). -/
def execReleasedReread (ctx : Nat) (s : State) : Host.Outcome State Fault Refusal :=
  onlyIf (cacheUsable s && !(spaceWaiters s ctx).isEmpty && !rereading s ctx) (updJournal ctx fun j => { j with rereading := true, forRing := ((spaceWaiters s ctx).head?.bind (cmd? s)).map (·.ring) }) s

/-- A failed re-read breaks the journal; every command awaiting space completes with epoch 0 and the one code posted, which names the ring that
the read served (R180, R433). -/
def failReread (ctx cause : Nat) (st : Status) (s : State) : State :=
  let cs := spaceWaiters s ctx
  let code := hostFault 0x72 cause ((journal? s ctx).bind (·.forRing))
  let s := breakJournal ctx (updJournal ctx (fun j => { j with rereading := false }) (postFault code s))
  cs.foldl (fun s c => failCmd c st code (updCmd c (fun k => { k with noEpoch := true }) s)) s

/-- A value of RELEASED taken, or ignored with JOURNAL_FAULT; the first read over, records may be written (R180, R315). -/
def takeReleased (ctx v : Nat) (s : State) : State :=
  let s := updJournal ctx (fun j => { j with rereading := false, unread := false }) s
  if (journal? s ctx).any fun j => releasedValid j v then retrySpace ctx (updJournal ctx (fun j => { j with released := v }) s)
  else retrySpace ctx (raise .journalFault 5 ctx 0 s)
def execReleasedReadDone (ctx : Nat) (reply : ReadReply) (s : State) : Host.Outcome State Fault Refusal :=
  onlyIf (rereading s ctx) (fun s => match reply with
    | .data bs => takeReleased ctx (field bs 0 8) s
    | .timeout => failReread ctx 6 .timeout s
    | k => failReread ctx 5 .uncorrectable (if k = .poison then notePoison s else s)) s
def execReleasedReadTimeout (ctx : Nat) (s : State) : Host.Outcome State Fault Refusal :=
  onlyIf (rereading s ctx) (failReread ctx 6 .timeout) s

end Sys2Proof.Machine
end

