-- ==== Sys2Proof/Machine/Search.lean ====
section
/-! DEFINITION. Search execution before the folds: the descent (R125, R126), lists and loose bricks (R127–R130), pieces (R143), the stop at
t_stop (R135, R136, R138), the refine stage (R131). -/

namespace Sys2Proof.Machine

/-! ### Shared tests -/

/-- A running search. -/
def searching (s : State) (c : Nat) : Bool := (cmd? s c).any fun x => x.stage == .running && isSearch x.opcode
def rowOf (s : State) (c row : Nat) : Option QRow := (cmd? s c).bind fun x => x.rows[row]?
def probeOf (s : State) (p c row : Nat) : Probe := ((rowOf s c row).bind fun r => tget r.probes p).getD {}
def updProbe (p c row : Nat) (f : Probe → Probe) (s : State) : State :=
  updRow c row (fun r => { r with probes := tset r.probes p (f (tgetD r.probes p {})) }) s
/-- A partition whose dispatcher issues. -/
def issues (s : State) (p : Nat) : Bool := anvilClock (ptn s p) && (ptn s p).service != .oos && (ptn s p).service != .resetting

/-- Pieces of a term in a partition (R143). -/
def pieceCount (y : Coll) (p t : Nat) : Nat := ceilDiv (termBlocks y p t).length 32

/-- Probing of a row in a partition has issued everything it had. -/
def issuedAll (y : Coll) (p : Nat) (r : QRow) (q : Probe) : Bool :=
  q.queue.isEmpty && q.looseIssued && r.terms.all fun t => decide (tgetD q.pieces t.1 0 ≥ pieceCount y p t.1)
def settleProbe (p c row : Nat) (s : State) : State :=
  match cmd? s c, rowOf s c row with
  | some x, some r => updProbe p c row (fun q => { q with ended := q.ended || issuedAll (coll s x.coll) p r q }) s
  | _, _ => s

/-- A descriptor of a row lies in a partition: queued, in a chunk, or at an anvil or save slot. -/
def rowHasDesc (s : State) (p c row : Nat) : Bool :=
  let x := ptn s p
  let l : LaneReq := { cmd := c, row := row }
  let inChunk := fun k : Chunk => k.bricks.any fun d => d.lanes.contains l
  let atAnvil := fun a : Nat × Anvil => a.2.lanes.contains l
  x.rowQ.any (fun d => d.2.lanes.contains l) || x.chunkQ.any inChunk || x.anvils.any atAnvil || x.saves.any fun v => v.2.anvils.any atAnvil

/-- Lists of a row that a fold node of the partition has not merged. -/
def rowUnmerged (s : State) (p c row : Nat) : Bool :=
  (rowOf s c row).any fun r => r.nodes.any fun n => !n.inputs.isEmpty && (match n.node with
    | .row q _ => q.val == p
    | .partition q => q.val == p
    | _ => false)

/-- Nothing of a row is left to run or merge in a partition. -/
def rowQuiet (s : State) (p c row : Nat) : Bool := !rowHasDesc s p c row && !rowUnmerged s p c row

/-! ### Descent (R125) -/

/-- What a descended row probes in a partition (R110, R112, R127); where that is nothing its list is empty and complete. -/
def firstProbe (s : State) (x : Cmd) (r : QRow) (set : List (Nat × F32)) (p : Nat) : Probe :=
  let y := coll s x.coll
  let q : Probe := { queue := set.filter (fun l => (leaf y l.1).owner == p), looseIssued := (looseAt y p x.snap).isEmpty }
  let none := issuedAll y p r q
  { q with ended := none, refineStarted := none, fused := none, sent := none }

/-- The (row, list) pairs of a row: its probe set, one for each non-empty loose chain, and its pieces (R138, R146). -/
def pairsOf (s : State) (x : Cmd) (r : QRow) (set : List (Nat × F32)) : Nat :=
  let y := coll s x.coll
  (jobPtns s x.job).foldl (fun n p => n + (if (looseAt y p x.snap).isEmpty then 0 else 1) + r.terms.foldl (fun n t => n + pieceCount y p t.1) 0) set.length

/-- The centroids that a walk scores, level by level: the given ones, then the children of those it expands (R103, R125). -/
def walkLevels (score : Centroid → F32) (width : Nat → Nat) : List (List Centroid) → List Nat → List (List Nat)
  | lvl :: rest, is => is :: walkLevels score width rest (childrenOf lvl (((rankBy score lvl is).take (width lvl.length)).map (·.1)))
  | [], _ => []
/-- The strata as the home partition of a context reads them for a row: the top through the crucible, cached lines where it is not pinned, the lower
levels' frames from its copy (R105, R125); the centroids scored are candidates of its lane (R240). -/
def readStrata (c ctx p l : Nat) (r : QRow) (s : State) : State :=
  let y := coll s c
  let top := ceilDiv (topBytes y) 64
  let seen := walkLevels (centroidBound y.metric r) (expandWidth l (leafCount y)) y.strata (topIndices y)
  let low := ((seen.drop 1).foldl (fun n is => n + (distinct (is.map (· / 64))).length) 0) * ceilDiv (1600 + 64 * coordN y) 64
  let s := countOffers ctx (seen.foldl (fun n is => n + is.length) 0) s
  if y.strata.isEmpty || (dirRegion s c p (.strata 0)).isNone then s
  else if (collPtn y p).topPin then engineMove (some p) (some ctx) p low s
  else cacheLines (centroidAddr s c p 0 0) (topBytes y) (engineMove (some p) (some ctx) p (top + low) s)

/-- The descriptor by which a row's descent runs on an anvil of the home partition: XSCAN over centroid frames, from the first of the top (R125); one
for each row (log 84). -/
def descentDesc (s : State) (x : Cmd) (c row : Nat) : Desc :=
  { brick := centroidAddr s x.coll x.home 0 0, kind := 3, coll := x.coll, snap := x.snap, last := true, lanes := [{ cmd := c, row := row }], pattern := 3, quiet := true }
/-- A row's descent has centroids to score. -/
def needsDescent (s : State) (x : Cmd) (r : QRow) : Bool :=
  x.opcode != 0x12 && !x.stopped && !r.descended && scansLists (coll s x.coll) x.snap && !(coll s x.coll).strata.isEmpty

/-- DESCENT_END: the row's probe set, and what each partition probes; a partition past step 4 of its fence turns the row away (R5, R353). -/
def descend (c row : Nat) (s : State) : State :=
  match cmd? s c, rowOf s c row with
  | some x, some r =>
    let y := coll s x.coll
    let ps := jobPtns s x.job
    let set := if scansLists y x.snap then probeSet y (probeCount (sProbe x.entry) (leafCount y)) r else []
    let qs := ps.map fun p => (p, if x.stopped then emptyProbe else firstProbe s x r set p)
    let dests := (qs.filter fun q => !q.2.ended).map (·.1)
    match turnedAway s dests with
    | some code => failCmd c .fenced code s
    | none => updCmd c (fun k => { k with pairs := k.pairs + pairsOf s x r set })
        (updRow c row (fun r => { r with descended := true, probes := qs }) (dests.foldl (fun s p => demand p s)
          (if needsDescent s x r then readStrata x.coll x.ctx x.home (probeCount (sProbe x.entry) (leafCount y)) r s else s)))
  | _, _ => s
/-- The descent of a row ends: its descriptor has run, or there is none to run. -/
def mayDescend (s : State) (c row : Nat) : Bool :=
  searching s c && (cmd? s c).any fun x => x.opcode != 0x12 && issues s x.home && !rowHasDesc s x.home c row &&
    (rowOf s c row).any fun r => !r.descended && (r.queued || !needsDescent s x r)
def execDescentEnd (c row : Nat) (s : State) : Host.Outcome State Fault Refusal := onlyIf (mayDescend s c row) (descend c row) s

/-! ### Lists and loose bricks (R127–R130) -/

/-- θ_P: the last score of the partition fold's full coarse list, or −∞ (R128, R149). -/
def thetaP (p : Nat) (x : Cmd) (r : QRow) : F32 :=
  match r.nodes.find? fun n => n.stage == .coarse && (match n.node with | .partition q => q.val == p | _ => false) with
  | some n => if n.out.length ≥ refineDepth x.entry + 16 then lowest n.out else fNegInf
  | none => fNegInf

/-- The head of a row's list queue that is worth scanning. -/
def liveHead (s : State) (p c row : Nat) : Option Nat :=
  match cmd? s c, rowOf s c row, (probeOf s p c row).queue with
  | some x, some r, (l, u) :: _ => if !(probeOf s p c row).ended && fGt u (thetaP p x r) then some l else none
  | _, _, _ => none

/-- Rows whose head is the same list and that may share it, this row first, at most n of them (R127); where more agree, those of the commands first in
the model's table (log 83). -/
def sharers (s : State) (p c row l n : Nat) : List LaneReq :=
  let me : LaneReq := { cmd := c, row := row }
  let job := ((cmd? s c).map (·.job)).getD 0
  let others := s.cmds.flatMap fun k =>
    if k.2.job == job && k.2.stage == .running && isSearch k.2.opcode && !k.2.stopped then
      ((upto k.2.rows.length).map fun i => ({ cmd := k.1, row := i } : LaneReq)).filter fun q =>
        q != me && lanesAgree s [me, q] && liveHead s p q.cmd q.row == some l
    else []
  (me :: others).take n

/-- Descriptors of bricks for lanes. -/
def listDescs (x : Cmd) (l pat : Nat) (bs : List Nat) (ls : List LaneReq) : List Desc :=
  bs.zipIdx.map fun (b, i) =>
    { brick := b, kind := 0, coll := x.coll, list := l, snap := x.snap, sieve := sFilter x.entry, last := i + 1 == bs.length, lanes := ls, pattern := pat }

/-- Descriptors placed on the anvil rows of a partition (R129). -/
def queueDescs (p : Nat) (ctxs : List Nat) (ds : List Desc) (s : State) : State :=
  let s := ctxs.foldl (fun s c => gainWork p c s) s
  ds.foldl (fun s d => putDesc p d s) s

/-- The dispatcher issues: the descriptors of all that it issued before have their places (R292, R299, log 61). -/
def placesFor (s : State) (p : Nat) : Bool := !(ptn s p).rowQ.any fun q => q.1 == 65

def laneCtxs (s : State) (ls : List LaneReq) : List Nat := distinct (ls.filterMap fun l => (laneCmd s l).map (·.ctx))

/-- Bricks issued for lanes: descriptors, or chunks of at most 256 bricks for a command of the bulk class (R230, R242). -/
def issueBricks (p : Nat) (x : Cmd) (c l pat : Nat) (bs : List Nat) (ls : List LaneReq) (s : State) : State :=
  let ds := listDescs x l pat bs ls
  if bulkClass x then
    (chunksOf (chunkBricks s x pat) ds.length ds).foldl (fun s part => if part.isEmpty then s else queueChunk p { kind := 3, ctx := x.ctx, cmd := some c, bricks := part } s) s
  else queueDescs p (laneCtxs s ls) ds s

/-- The loose chain of the partition, one list of the row, scored by XSCAN (R110, R130). -/
def issueLoose (p c row : Nat) (x : Cmd) (s : State) : State :=
  let bs := looseAt (coll s x.coll) p x.snap
  if !bulkClass x && !placesFor s p then s
  else
    issueBricks p x c 0xFFFFFFFF 3 bs [{ cmd := c, row := row }]
      (settleProbe p c row (updProbe p c row (fun q => { q with looseIssued := true, issued := q.issued + 1 }) s))

/-- The head list issued whole for the rows that share it (R100, R127). -/
def issueList (p c row l : Nat) (x : Cmd) (s : State) : State :=
  let y := coll s x.coll
  let bs := versionBricks (leaf y l) x.snap
  let pat := searchPattern x.entry
  let ls := sharers s p c row l (maxLanes s x.ctx pat x.patVer (tTwoLimb x.entry) y)
  if !bulkClass x && !placesFor s p then s
  else
    let s' := ls.foldl (fun s q => settleProbe p q.cmd q.row (updProbe p q.cmd q.row (fun q => { q with queue := q.queue.drop 1, issued := q.issued + 1 }) s)) s
    issueBricks p x c l pat bs ls s'

/-- The lists left are cut (R128). -/
def cutLists (p c row : Nat) (s : State) : State :=
  settleProbe p c row (updProbe p c row (fun q => { q with cut := q.cut + q.queue.length, queue := [] }) s)

/-- LIST_ISSUE: the loose chain first (log 83), then list after list until the head cannot beat θ_P. -/
def issueNext (p c row : Nat) (s : State) : State :=
  match cmd? s c with
  | none => s
  | some x =>
    let q := probeOf s p c row
    if !q.looseIssued then issueLoose p c row x s
    else if q.queue.isEmpty then s
    else match liveHead s p c row with
      | some l => issueList p c row l x s
      | none => cutLists p c row s
def mayIssue (s : State) (p c row : Nat) : Bool :=
  searching s c && issues s p && (cmd? s c).any (fun x => !x.stopped && x.opcode != 0x12) && (rowOf s c row).any fun r =>
    r.descended && (tget r.probes p).any fun q => !q.ended
def execListIssue (p : Fin 12) (c row : Nat) (s : State) : Host.Outcome State Fault Refusal :=
  onlyIf (mayIssue s p.val c row) (issueNext p.val c row) s

/-! ### Pieces (R143) -/

/-- θ_s of a term's partial list. -/
def thetaS (p t : Nat) (x : Cmd) (r : QRow) : F32 :=
  match r.nodes.find? fun n => n.stage == .sparse t && (match n.node with | .partition q => q.val == p | _ => false) with
  | some n => if n.out.length ≥ refineDepth x.entry + 16 then lowest n.out else fNegInf
  | none => fNegInf

/-- RU(w_t × TMAX) (R140, R143). -/
def termBound (y : Coll) (p : Nat) (t : Nat × Bf16) : F32 := fMulD .up (ofBf16 t.2) (termMax y p t.1)

/-- The address that places a piece: that of its first block (R129, R143). -/
def pieceAddr (y : Coll) (p t i : Nat) : Nat := (((termBlocks y p t)[32 * i]?).map (·.addr)).getD (regionBase p 0)

def issuePiece (p c row t : Nat) (x : Cmd) (r : QRow) (w : Nat × Bf16) (s : State) : State :=
  let y := coll s x.coll
  let i := tgetD (probeOf s p c row).pieces t 0
  let step := fun (f : Probe → Probe) (s : State) =>
    settleProbe p c row (updProbe p c row (fun q => f { q with pieces := tset q.pieces t (i + 1) }) s)
  if i ≥ pieceCount y p t then s
  else if !fGt (termBound y p w) (thetaS p t x r) then step (fun q => { q with cut := q.cut + 1 }) s
  else
    let d : Desc := { brick := pieceAddr y p t i, kind := 2, coll := x.coll, list := i, snap := x.snap, sieve := sFilter x.entry,
                      lanes := [{ cmd := c, row := row }], pattern := 4, term := t, last := i + 1 == pieceCount y p t }
    let t := step (fun q => { q with issued := q.issued + 1 }) s
    if bulkClass x then queueChunk p { kind := 3, ctx := x.ctx, cmd := some c, bricks := [d] } t
    else if !placesFor s p then s
    else queueDescs p [x.ctx] [d] t
def execPieceIssue (p : Fin 12) (c row term : Nat) (s : State) : Host.Outcome State Fault Refusal :=
  onlyIf (mayIssue s p.val c row && (cmd? s c).any fun x => x.opcode == 0x11) (fun s =>
    match cmd? s c, rowOf s c row with
    | some x, some r => match r.terms.find? fun t => t.1 == term with
      | some w => issuePiece p.val c row term x r w s
      | none => s
    | _, _ => s) s

/-! ### The deadline (R135–R138) -/

/-- Scanning of a row is unfinished somewhere: it has not descended, a probe has not ended, or a probe descriptor is left. -/
def rowProbing (s : State) (x : Cmd) (c row : Nat) : Bool :=
  let l : LaneReq := { cmd := c, row := row }
  (rowOf s c row).any fun r => !r.descended || (jobPtns s x.job).any fun p =>
    let y := ptn s p
    (tget r.probes p).any (fun q => !q.ended) || y.rowQ.any (fun d => d.2.kind != 1 && d.2.lanes.contains l) ||
    y.chunkQ.any (fun k => k.bricks.any fun d => d.kind != 1 && d.lanes.contains l) ||
    y.anvils.any (fun a => a.2.pattern != 2 && a.2.lanes.contains l) || y.saves.any fun v => v.2.anvils.any fun a => a.2.pattern != 2 && a.2.lanes.contains l

/-- Descriptors of chunks that no anvil has taken, for rows of a command. -/
def chunkLeft (s : State) (c : Nat) : List Desc :=
  s.ptns.flatMap fun x => (x.2.chunkQ ++ x.2.anvils.filterMap (·.2.chunk) ++ x.2.saves.flatMap fun v => v.2.anvils.filterMap (·.2.chunk)).flatMap fun k =>
    k.bricks.filter fun d => if d.lanes.isEmpty then k.cmd == some c else d.lanes.any (·.cmd == c)

/-- (kind, pattern, list, term) of the lists of a row with descriptors still queued in a partition. -/
def openLists (s : State) (p c row : Nat) : List (Nat × Nat × Nat × Nat) :=
  let l : LaneReq := { cmd := c, row := row }
  (((ptn s p).rowQ.map (·.2) ++ (chunkLeft s c).filter fun d => ptnOfAddr d.brick == p).filter fun d => d.kind != 1 && d.lanes.contains l).foldl
    (fun acc d => let k := (d.kind, d.pattern, d.list, d.term); if acc.contains k then acc else k :: acc) []

/-- d of R138: pairs scanned whole or cut; bricks scanned of an exact search. -/
def pairsScanned (s : State) (c : Nat) (x : Cmd) : Nat :=
  if x.opcode = 0x12 then x.scanned - (distinct ((chunkLeft s c).map (·.brick))).length
  else (x.rows.zipIdx).foldl (fun n (r, i) => r.probes.foldl (fun n q => n + q.2.cut + (q.2.issued - (openLists s q.1 c i).length)) n) 0

/-- A binding works for a command's probing. -/
def probesFor (c : Nat) (a : Anvil) : Bool := a.pattern != 2 && (a.lanes.any (·.cmd == c) || a.chunk.any (·.cmd == some c))

/-- A binding of a command is closed, also one whose record is saved: it ends with the brick in hand (R136). -/
def closeAnvil (c : Nat) (a : Anvil) : Anvil :=
  if probesFor c a then { a with closing := true, preempt := false, chunk := a.chunk.map fun k => { k with bricks := [] } } else a

/-- The bricks that a chunk of a closed binding has not scanned, for the other commands whose rows share it (R127). -/
def leftOver (c : Nat) (ctxOf : Nat → Nat) (a : Anvil) : List Chunk :=
  if probesFor c a then ((a.chunk.filter fun k => !k.bricks.isEmpty).bind fun k => cutChunk (· == c) ctxOf { k with start := [] }).toList else []

/-- Bindings of a command closed and its queued probe descriptors and chunks dropped. -/
def closeProbing (c : Nat) (s : State) : State :=
  let ctxOf := fun n => ((cmd? s n).map (·.ctx)).getD 0
  { s with ptns := tmap (fun _ (x : Ptn) => { x with
      rowQ := (x.rowQ.map fun d => if d.2.kind = 1 then d else (d.1, cutDesc (· == c) d.2)).filter fun d => !d.2.lanes.isEmpty
      chunkQ := (x.anvils ++ x.saves.flatMap fun v => v.2.anvils).flatMap (fun a => leftOver c ctxOf a.2) ++
        x.chunkQ.filterMap fun k => if k.bricks.all (·.kind == 1) then some k else cutChunk (· == c) ctxOf k
      anvils := tmap (fun _ (a : Anvil) => closeAnvil c a) x.anvils
      saves := tmap (fun _ (v : SaveSlot) => { v with anvils := tmap (fun _ (a : Anvil) => closeAnvil c a) v.anvils }) x.saves }) s.ptns }

def endProbes (x : QRow) : QRow := { x with probes := tmap (fun _ (q : Probe) => { q with ended := true, looseIssued := true, queue := [] }) x.probes }

/-- The descent of a row handed to the home partition's dispatcher: a descriptor, or a chunk for a bulk command (R125, R230). -/
def queueDescent (c row : Nat) (x : Cmd) (s : State) : State :=
  let d := descentDesc s x c row
  let s := updRow c row (fun r => { r with queued := true }) s
  if bulkClass x then queueChunk x.home { kind := 3, ctx := x.ctx, cmd := some c, bricks := [d] } s else queueDescs x.home [x.ctx] [d] s
/-- The rows of running searches homed in a partition whose descent has not begun. -/
def queueDescents (p : Nat) (s : State) : State :=
  (cmdsOf (fun x => isSearch x.opcode && x.stage == .running && x.home == p && x.rows.any fun r => needsDescent s x r && !r.queued) s).foldl (fun s c =>
    match cmd? s c with
    | some x => x.rows.zipIdx.foldl (fun s (r, i) => if needsDescent s x r && !r.queued && placesFor s p then queueDescent c i x s else s) s
    | none => s) s

/-- A search that t_stop can meet: admitted, its outcome open. -/
def mayStop (x : Cmd) : Bool :=
  isSearch x.opcode && x.admitted && eDeadline x.entry && !x.stopped && (x.stage == .awaitPayload || x.stage == .reading || x.stage == .running)

/-- t_stop arrives (R135, R136): DEADLINE_HIT where probing of some row is unfinished, or its payload not there yet, with what has been
scanned so far. -/
def stopProbing (c : Nat) (s : State) : State :=
  match cmd? s c with
  | none => s
  | some x =>
    if x.stage ≠ .running then updCmd c (fun k => { k with stopped := true, deadlineHit := true, ownHit := true }) s
    else if (upto x.rows.length).any (rowProbing s x c) then
      let d := pairsScanned s c x
      updCmd c (fun k => { k with stopped := true, deadlineHit := true, ownHit := true, pairsDone := d, rows := k.rows.map endProbes }) (closeProbing c s)
    else updCmd c (fun k => { k with stopped := true }) s
def execProbeStop (c : Nat) (s : State) : Host.Outcome State Fault Refusal :=
  onlyIf ((cmd? s c).any mayStop) (stopProbing c) s

/-! ### Refine (R131) -/

/-- Entries of the partition fold for a stage of a row. -/
def foldOut (p : Nat) (st : FStage) (r : QRow) : List Entry :=
  ((r.nodes.find? fun n => n.stage == st && (match n.node with | .partition q => q.val == p | _ => false)).map (·.out)).getD []

/-- Refine descriptors of a row: survivors grouped by brick (R131). -/
def refineDescs (x : Cmd) (c row : Nat) (es : List Entry) : List Desc :=
  (distinct (es.map (·.brick))).map fun b =>
    { brick := b, kind := 1, coll := x.coll, snap := x.snap, lanes := [{ cmd := c, row := row }], pattern := 2,
      mask := BitVec.ofNat 64 (maskOf ((es.filter (·.brick == b)).map (·.slot))) }

/-- A refine descriptor that another, which waits for the same brick, takes in: its lanes, and the union of the slots (R131). -/
def joined (d e : Desc) : Desc := { e with lanes := e.lanes ++ d.lanes, mask := e.mask ||| d.mask }
def joins (s : State) (n : Nat) (d e : Desc) : Bool :=
  e.kind == 1 && e.brick == d.brick && e.coll == d.coll && e.quiet == d.quiet && decide (e.lanes.length + d.lanes.length ≤ n) && lanesAgree s (e.lanes ++ d.lanes)
/-- A chunk of refine work holds one descriptor, so that no lane sees more candidates than it holds (R129). -/
def chunkJoins (s : State) (n : Nat) (d : Desc) (k : Chunk) : Bool := k.kind == 3 && k.bricks.length == 1 && k.bricks.any (joins s n d)
/-- A refine descriptor of a command put into the queue, or into the chunk queue: one that waits there for the same brick, and whose rows this row may
share with, takes it in (R127, R131). -/
def queueRefine (p c : Nat) (x : Cmd) (d : Desc) (s : State) : State :=
  let n := maxLanes s x.ctx 2 x.patVer (tTwoLimb x.entry) (coll s x.coll)
  if bulkClass x then
    match (ptn s p).chunkQ.find? (chunkJoins s n d) with
    | some k => updPtn p (fun y => { y with chunkQ := y.chunkQ.map fun q => if q = k then { q with bricks := q.bricks.map (joined d) } else q }) s
    | none => queueChunk p { kind := 3, ctx := x.ctx, cmd := some c, bricks := [d] } s
  else match (ptn s p).rowQ.find? fun q => joins s n d q.2 with
    | some q => updPtn p (fun y => { y with rowQ := y.rowQ.map fun r => if r = q then (r.1, joined d r.2) else r }) s
    | none => queueDescs p [x.ctx] [d] s

/-- No refine stage: single tier, or NOREFINE (R131). -/
def skipsRefine (s : State) (x : Cmd) : Bool := tNoRefine x.entry || !twoTier (coll s x.coll)

def refine (p c row : Nat) (s : State) : State :=
  match cmd? s c, rowOf s c row with
  | some x, some r =>
    let coarse := foldOut p .coarse r
    let best := coarse.take (refineDepth x.entry)
    let node := FoldNode.partition (Fin.ofNat 12 p)
    let stay := if skipsRefine s x then coarse else best.filter (·.settled)
    let go := if skipsRefine s x then [] else best.filter fun e => !e.settled
    let s := updProbe p c row (fun q => { q with refineStarted := true }) (updRow c row (addInput node .refine 24 stay 0) s)
    (refineDescs x c row go).foldl (fun s d => queueRefine p c x d s) s
  | _, _ => s
/-- The partition folds of a row hold no entry in p, so that its stages there read nothing. -/
def nothingIn (s : State) (p c row : Nat) : Bool :=
  (rowOf s c row).any fun r => r.nodes.all fun n => match n.node with
    | .partition q => q.val != p || n.out.isEmpty
    | _ => true
def mayRefine (s : State) (p c row : Nat) : Bool :=
  searching s c && (issues s p || nothingIn s p c row) && (cmd? s c).any (fun x => x.opcode != 0x12) &&
  (rowOf s c row).any (fun r => r.descended && (tget r.probes p).any fun q => q.ended && !q.refineStarted) && rowQuiet s p c row
def execRefineStart (p : Fin 12) (c row : Nat) (s : State) : Host.Outcome State Fault Refusal :=
  onlyIf (mayRefine s p.val c row) (refine p.val c row) s

end Sys2Proof.Machine
end

