-- ==== Sys2Proof/Machine/Fold.lean ====
section
/-! DEFINITION. The fold tree (R147–R156, R298), hybrid fusion (R144, R145), the final selection (R160, R161), far rerank (R133, R134, R136). -/

namespace Sys2Proof.Machine

/-! ### Deduplication (R154, R155) -/

/-- a is the newer generation of the two. -/
def newerGen (a b : Entry) : Bool := let d := (a.gen.toNat + 16 - b.gen.toNat) % 16; 1 ≤ d && d ≤ 7
/-- Tests 2–4: a is kept before b, or nothing separates them. -/
def betterCopy (a b : Entry) : Bool :=
  if !fEq a.score b.score then fGt a.score b.score
  else if a.module ≠ b.module then decide (a.module < b.module)
  else decide (a.ptn ≤ b.ptn)
/-- a beats b, or no test separates them. -/
def beats (a b : Entry) : Bool := newerGen a b || (!newerGen b a && betterCopy a b)
def sameSlot (a b : Entry) : Bool := a.module == b.module && a.ptn == b.ptn && a.brick == b.brick && a.slot == b.slot

/-- The copy of a group that is kept. -/
def preferred (g : List Entry) : Option Entry :=
  match g.find? fun a => g.all fun b => beats a b with
  | some a => some a
  | none => g.find? fun a => g.all fun b => betterCopy a b

/-- One pass of a fold node over entries without NaN: each key once, sorted; whether a different slot was removed. -/
def dedupe : Nat → List Entry → List Entry × Bool
  | 0, l => (l, false)
  | _ + 1, [] => ([], false)
  | n + 1, e :: t =>
    let g := e :: t.filter (·.key == e.key)
    let k := (preferred g).getD e
    let (r, d) := dedupe n (t.filter (·.key != e.key))
    (k :: r, d || g.any fun o => !sameSlot o k)

/-- A fold node of R152 before its cut: sorted entries, DEDUP, NaN drops. -/
def foldAll (l : List Entry) : List Entry × Bool × Nat :=
  let good := l.filter fun e => !fIsNaN e.score
  let (u, d) := dedupe good.length good
  (sortEntries u, d, l.length - good.length)

/-- Entries by slot, each slot once. -/
def slotsOnce (l : List Entry) : List Entry := l.foldl (fun acc e => if acc.any (sameSlot e) then acc else acc ++ [e]) []

/-- A stage's entries, none of them NaN, sorted, and DEDUP: a sparse partial list is keyed by slot, every other by key (R143, R152). -/
def foldStage : FStage → List Entry → List Entry × Bool
  | .sparse _, l => (sortEntries (slotsOnce l), false)
  | _, l => let (u, d, _) := foldAll l; (u, d)

/-! ### Lists lengths (R151) -/

/-- What a partition fold keeps of a stage (log 79). -/
def partKeep (s : State) (x : Cmd) : FStage → Nat
  | .coarse => if x.opcode = 0x12 then listLen x.entry else refineDepth x.entry + 16
  | .loose => listLen x.entry
  | .refine => if skipsRefine s x then refineDepth x.entry + 16 else listLen x.entry
  | .sparse _ => refineDepth x.entry + 16
  | .fused => listLen x.entry
/-- What a row fold keeps of a stage. -/
def rowKeep (x : Cmd) : FStage → Nat
  | .loose => listLen x.entry
  | .refine => listLen x.entry
  | .coarse => if x.opcode = 0x12 then listLen x.entry else refineDepth x.entry + 16
  | _ => refineDepth x.entry + 16

/-- The stage whose list a partition sends on. -/
def sendStage (x : Cmd) : FStage := if x.opcode = 0x12 then .coarse else if x.opcode = 0x11 then .fused else .refine

/-! ### Merging -/

def isRowNode (p : Nat) (r : Nat) : FoldNode → Bool
  | .row q i => q.val == p && i.val == r
  | _ => false

/-- NaN drops of a merge reach the command (R148). -/
def noteNan (c nan : Nat) (s : State) : State := updCmd c (fun x => { x with nan := x.nan + nan }) s

/-- NaN scores among what waits at a node, and those its anvils withheld (R148, R152). -/
def newNan (n : Node) : Nat := n.nan + n.inputs.foldl (fun k i => k + (i.2.filter fun e => fIsNaN e.score).length) 0

def isRowFold : FoldNode → Bool
  | .row _ _ => true
  | _ => false

def isPtnFold : FoldNode → Bool
  | .partition _ => true
  | _ => false

/-- What waits at a node put to what it holds, so that the output is as if every input had been awaited (R152): a partition fold adds it to what the
input gave before, the device and root folds take it in place of that; a row fold keeps no list of its own (R298). -/
def takeInputs (n : Node) : Node :=
  { n with
    inputs := [], nan := 0
    held := n.inputs.foldl (fun t i =>
      let l := i.2.filter fun e => !fIsNaN e.score
      tset t i.1 (if isPtnFold n.node || isRowFold n.node then tgetD t i.1 [] ++ l else l)) (if isRowFold n.node then [] else n.held) }

/-- The number under which a row's list of a stage is an input of the partition fold: loose bricks enter the coarse list (R130). -/
def rowInput (r : Nat) : FStage → FStage × Nat
  | .loose => (.coarse, 32 + r)
  | st => (st, r)

/-- The row fold cuts what it was sent, stage by stage, merges it into the partition fold and empties the slot (R298). -/
def mergeRow (p r c row : Nat) (x : Cmd) (s : State) : State :=
  match rowOf s c row with
  | none => s
  | some q => (q.nodes.filter fun n => isRowNode p r n.node && !n.inputs.isEmpty).foldl (fun s n =>
      let k := takeInputs n
      let (u, d) := foldStage n.stage (k.held.flatMap (·.2))
      let d := d || n.dup
      let (st, i) := rowInput r n.stage
      noteNan c (newNan n) (updRow c row (fun q =>
        addInput (.partition (Fin.ofNat 12 p)) st i (u.take (rowKeep x n.stage)) 0
          { q with nodes := q.nodes.map fun m => if m = n then { k with held := [], dup := d } else m }) s)) s

def isPtnNode (p : Nat) : FoldNode → Bool
  | .partition q => q.val == p
  | _ => false

/-- The list of a partition fold from all that its inputs gave: loose entries join the coarse ones, in the numbers kept of them (R130, R151). -/
def ptnList (s : State) (x : Cmd) (n : Node) : List Entry × Bool :=
  let loose := fun i : Nat × List Entry => decide (32 ≤ i.1)
  let (l, dl) := foldStage .loose ((n.held.filter loose).flatMap (·.2))
  let (u, d) := foldStage n.stage ((n.held.filter fun i => !loose i).flatMap (·.2) ++ l.take (partKeep s x .loose))
  (u.take (partKeep s x n.stage), d || dl)

/-- The partition fold merges every stage's inputs into its list, cut to its depth. -/
def mergePtn (p c row : Nat) (x : Cmd) (s : State) : State :=
  match rowOf s c row with
  | none => s
  | some q => (q.nodes.filter fun n => isPtnNode p n.node && !n.inputs.isEmpty).foldl (fun s n =>
      let k := takeInputs n
      let (u, d) := ptnList s x k
      noteNan c (newNan n) (updRow c row (fun q => { q with nodes := q.nodes.map fun m =>
        if m = n then { k with out := u, dup := d } else m }) s)) s

/-- The partition's list of the row is complete. -/
def ptnReady (s : State) (p c row : Nat) (x : Cmd) : Bool :=
  (rowOf s c row).any fun r => r.descended && (tget r.probes p).any (fun q => !q.sent && q.ended &&
    (x.opcode == 0x12 || (x.opcode == 0x11 && q.fused) || (x.opcode == 0x10 && q.refineStarted))) && rowQuiet s p c row

/-- A complete list goes to the device fold (R151). -/
def sendToDevice (p c row : Nat) (x : Cmd) (s : State) : State :=
  match rowOf s c row with
  | none => s
  | some r =>
    updProbe p c row (fun q => { q with sent := true })
      (updRow c row (addInput .device .refine p ((foldOut p (sendStage x) r).take (listLen x.entry)) 0) s)

/-- Every partition of the job has sent the row's list. -/
def allSent (s : State) (x : Cmd) (r : QRow) : Bool := r.descended && (jobPtns s x.job).all fun p => (tget r.probes p).any (·.sent)

/-- The last node that merges the module's lists: its input is counted for ties before it is cut (R161). -/
def lastNode (s : State) (x : Cmd) : FoldNode := if spans s x.job && x.origin.isNone then .root else .device
/-- A node's list is the final selection's input, not cut here. -/
def keepsAll (s : State) (x : Cmd) (n : FoldNode) : Bool := n == lastNode s x && x.origin.isNone && x.far.isNone

/-- The device fold, or the root fold, once every input of the row is there (R152, R156). -/
def mergeAt (node : FoldNode) (c row : Nat) (x : Cmd) (s : State) : State :=
  match rowOf s c row with
  | none => s
  | some q => match q.nodes.find? fun n => n.node == node && !n.inputs.isEmpty with
    | none => s
    | some n =>
      let k := takeInputs n
      let (u, d) := foldStage n.stage (k.held.flatMap (·.2))
      let out := if keepsAll s x node then u else u.take (listLen x.entry)
      let s := noteNan c (newNan n) (updRow c row (fun q => { q with nodes := q.nodes.map fun m =>
        if m = n then { k with out := out, dup := d } else m }) s)
      if node = .device ∧ lastNode s x = .root then updRow c row (addInput .root .refine s.aon.modid out 0) s else s

/-- Every other module has answered the search. -/
def peersIn (s : State) (x : Cmd) : Bool := (peersOf s x.job).all fun m => x.peersDone.contains m

/-- FOLD_MERGE: a node merges a row's waiting lists; a partition with a complete list sends it on. -/
def merge (node : FoldNode) (c row : Nat) (s : State) : State :=
  match cmd? s c with
  | none => s
  | some x => match node with
    | .row p r => mergeRow p.val r.val c row x s
    | .partition p =>
      let s := mergePtn p.val c row x s
      match cmd? s c with
      | some x => if ptnReady s p.val c row x then sendToDevice p.val c row x s else s
      | none => s
    | .device => if (rowOf s c row).any (allSent s x) then mergeAt .device c row x s else s
    | .root => if x.origin.isNone && peersIn s x && (rowOf s c row).any (fun r => allSent s x r &&
        !r.nodes.any fun n => n.node == .device && !n.inputs.isEmpty) then mergeAt .root c row x s else s

/-- The engine of a fold node, by unit and partition (R347). -/
def foldUnit : FoldNode → Nat × Nat
  | .row p r => (0x18 + r.val, p.val)
  | .partition p => (0x51, p.val)
  | _ => (0x60, 0)
/-- The class 0x3 code of a fold: 1 STORE_UE, 2 ORDER (R348). -/
def foldFault (cause : Nat) (n : FoldNode) : W32 := faultCode 3 (foldUnit n).1 (if (foldUnit n).1 = 0x60 then 0xF else (foldUnit n).2) (cause * 2 ^ 12)
/-- A fold fails: its code, and L1 of that engine (R348, R356). -/
def foldFails (cause : Nat) (n : FoldNode) (s : State) : State :=
  engineFault (foldUnit n).1 (foldUnit n).2 (foldFault cause n) (postFault (foldFault cause n) s)

def execFoldMerge (at_ : MergeAt) (c row : Nat) (s : State) : Host.Outcome State Fault Refusal :=
  onlyIf (searching s c) (if at_.ue then foldFails 1 at_.node else merge at_.node c row) s

/-! ### Hybrid fusion (R144, R145) -/

/-- The slots of the partial lists of a row in a partition. -/
def partialLists (p : Nat) (r : QRow) : List (Nat × List Entry) :=
  (sortBy (fun a b => decide (a.1 ≤ b.1)) r.terms).map fun t => (t.1, foldOut p (.sparse t.1) r)

/-- σ_v of a posting of the slot. -/
def sigmaOf (y : Coll) (t : Nat) (e : Entry) : F32 :=
  ((((tgetD y.postings t []).flatMap (·.entries)).find? fun k => k.brick == e.brick && k.slot == e.slot).map (·.sigma)).getD 0

/-- s_sp of a slot (R144). -/
def sparseScore (y : Coll) (ls : List (Nat × List Entry)) (e : Entry) : F32 :=
  let held := ls.filterMap fun l => (l.2.find? (sameSlot e)).map fun k => (l.1, k)
  match held with
  | [] => 0
  | (t, k) :: _ => fMul (fSum (held.map fun h => h.2.sparse)) (sigmaOf y t k)

/-- The dense score of a slot that only the sparse list holds, as REFINE scores survivors (R131, R145). -/
def denseFill (y : Coll) (x : Cmd) (r : QRow) (e : Entry) : Entry :=
  match brick? y e.brick with
  | none => e
  | some b =>
    let refine := twoTier y && !tNoRefine x.entry
    { e with score := storedScore y (slotOf b e.slot).enc r (tTwoLimb x.entry) true refine, refined := refine }

/-- The slots of the sparse list of a row in a partition, with s_sp, and those of them that the dense list lacks (R144, R145). -/
def sparseList (s : State) (p : Nat) (x : Cmd) (r : QRow) : List Entry :=
  let y := coll s x.coll
  let ls := partialLists p r
  (sortEntries ((slotsOnce (ls.flatMap (·.2))).map fun e => { e with score := sparseScore y ls e })).take (refineDepth x.entry)
def toFill (s : State) (p : Nat) (x : Cmd) (r : QRow) : List Entry :=
  let dense := (foldOut p .refine r).take (refineDepth x.entry)
  (sparseList s p x r).filter fun e => !dense.any (sameSlot e)

/-- The fused list of a row in a partition. -/
def fusedList (s : State) (p : Nat) (x : Cmd) (r : QRow) : List Entry :=
  let y := coll s x.coll
  let dense := (foldOut p .refine r).take (refineDepth x.entry)
  let ls := partialLists p r
  (dense ++ (toFill s p x r).map (denseFill y x r)).map fun e =>
    let sp := sparseScore y ls e
    { e with sparse := sp, score := hybScore (sAlpha x.entry) (sBeta x.entry) e.score sp }

/-- HYBRID_FUSION: refine descriptors over the slots that lack a dense score first, then, these run, the fused list (R145). -/
def fuse (p c row : Nat) (s : State) : State :=
  match cmd? s c, rowOf s c row with
  | some x, some r =>
    let fills := toFill s p x r
    if !fills.isEmpty && !(probeOf s p c row).filled then
      (refineDescs x c row fills).foldl (fun s d => queueRefine p c x { d with quiet := true } s) (updProbe p c row (fun q => { q with filled := true }) s)
    else updProbe p c row (fun q => { q with fused := true })
      (updRow c row (addInput (.partition (Fin.ofNat 12 p)) .fused 25 (fusedList s p x r) 0) s)
  | _, _ => s
def mayFuse (s : State) (p c row : Nat) : Bool :=
  searching s c && (issues s p || nothingIn s p c row) && (cmd? s c).any (fun x => x.opcode == 0x11) &&
  (rowOf s c row).any (fun r => (tget r.probes p).any fun q => q.ended && q.refineStarted && !q.fused) && rowQuiet s p c row
def execHybridFusion (p : Fin 12) (c row : Nat) (s : State) : Host.Outcome State Fault Refusal :=
  onlyIf (mayFuse s p.val c row) (fuse p.val c row) s

/-! ### Far rerank (R133, R134) -/

/-- The row's list is complete at its last node. -/
def listDone (s : State) (x : Cmd) (r : QRow) : Bool :=
  allSent s x r && !(r.nodes.any fun n => (n.node == .device || n.node == .root) && !n.inputs.isEmpty) &&
  (lastNode s x == .device || peersIn s x)
def listAt (node : FoldNode) (r : QRow) : List Entry := ((r.nodes.find? fun n => n.node == node).map (·.out)).getD []

/-- The index of an entry's row in the far table, if it has one. -/
def farIndex (x : Cmd) (e : Entry) : Option Nat :=
  match x.far with
  | some (_, kb, rows, _) => let i := (e.key - kb).toNat; if i < rows then some i else none
  | none => none

/-- The far-rerank descriptor of a row: REFINE in far mode on an anvil of the home partition; it names no slot (R133, R300; log 84). -/
def farDesc (x : Cmd) (c row : Nat) : Desc :=
  { brick := regionBase x.home 0, kind := 1, coll := x.coll, snap := x.snap, last := true, lanes := [{ cmd := c, row := row }], pattern := 2, quiet := true }
def queueRerank (c row : Nat) (x : Cmd) (s : State) : State :=
  if bulkClass x then queueChunk x.home { kind := 3, ctx := x.ctx, cmd := some c, bricks := [farDesc x c row] } s
  else queueDescs x.home [x.ctx] [farDesc x c row] s
/-- The far-rerank descriptor of a row has not been taken by an anvil. -/
def farWaits (s : State) (x : Cmd) (c row : Nat) : Bool :=
  let d := farDesc x c row
  (ptn s x.home).rowQ.any (fun q => q.2 == d) || (ptn s x.home).chunkQ.any fun k => k.bricks.contains d
/-- The far-rerank descriptors that no anvil has taken leave the queues. -/
def dropFar (c : Nat) (s : State) : State :=
  match cmd? s c with
  | none => s
  | some x =>
    let far := (upto x.rows.length).map (farDesc x c)
    updPtn x.home (fun y => { y with rowQ := y.rowQ.filter fun q => !far.contains q.2, chunkQ := y.chunkQ.filter fun k => !k.bricks.any (far.contains ·) }) s

/-- The R best entries of each row, and those of them that have a far row. -/
def startFarRows (c : Nat) (x : Cmd) (s : State) : State :=
  updCmd c (fun k => { k with rows := k.rows.map fun r =>
      let l := (listAt (lastNode s x) r).take (refineDepth x.entry)
      { r with far := some l, farLeft := if x.farOver then [] else (upto l.length).filter fun j => (farIndex x (lget l j { key := 0, score := 0 })).isSome } }) s
/-- Far rerank begins: the R best of each row, and a descriptor for each row that has far rows to read. -/
def startFar (c : Nat) (s : State) : State :=
  match cmd? s c with
  | none => s
  | some x =>
    let t := startFarRows c x s
    match cmd? t c with
    | some k => k.rows.zipIdx.foldl (fun s (r, i) => if r.farLeft.isEmpty then s else queueRerank c i x s) t
    | none => t
def mayStartFar (s : State) (c : Nat) : Bool :=
  searching s c && (cmd? s c).any fun x => x.far.isSome && x.origin.isNone && issues s x.home && x.rows.all fun r => r.far.isNone && listDone s x r
def execFarRerankStart (c : Nat) (s : State) : Host.Outcome State Fault Refusal := onlyIf (mayStartFar s c) (startFar c) s

/-- The far score of a row; a zero norm under COS has no stated score (log 3). -/
def farScore (k : Nat) (metric : Nat) (q x : List F32) : F32 :=
  let n := q.length
  let sum := fun (o : Nat) (a b : List F32) => freeSum (freePick (k + o)) n (List.zipWith fMul a b)
  let qx := sum 0 q x
  let nb := sum n q q
  let nx := sum (2 * n) x x
  if metric = 1 then fSub (twice .ne qx) (fAdd nb nx)
  else if metric = 2 then
    let d := fSqrtD .ne (fMul nb nx)
    if fMag d = 0 then fSaturate (Config.freeWord k) else fDiv qx d
  else qx

/-- An entry rescored from its far row. -/
def rescore (s : State) (x : Cmd) (r : QRow) (bs : List Byte) (e : Entry) : Entry :=
  let y := coll s x.coll
  let far := (upto y.d).map fun i => ofBf16 (BitVec.ofNat 16 (field bs (2 * i) 2))
  let sc := farScore s.free y.metric (r.raw.map bf16Part) far
  { e with far := true, score := if x.opcode = 0x11 then hybScore (sAlpha x.entry) (sBeta x.entry) sc e.sparse else sc }

def arrive (c row j : Nat) (reply : ReadReply) (s : State) : State :=
  match cmd? s c, rowOf s c row with
  | some x, some r =>
    if !r.farLeft.contains j || farWaits s x c row then s
    else match reply with
      | .data bs => spend (3 * (coll s x.coll).d) (countOffers x.ctx 1 (updRow c row (fun r => { r with
          farLeft := r.farLeft.filter (· ≠ j)
          far := r.far.map fun l => match l[j]? with | some e => l.set j (rescore s x r bs e) | none => l }) s))
      | .timeout => hostFail c 0x72 6 .timeout s
      | k => hostFail c 0x72 5 .uncorrectable (if k = .poison then notePoison s else s)
  | _, _ => s
def execFarRowArrive (c row i : Nat) (reply : ReadReply) (s : State) : Host.Outcome State Fault Refusal :=
  onlyIf (searching s c && s.host.link.up) (arrive c row i reply) s

/-- t_D: far rerank ends, or does not begin (R133, R136). -/
def execDeadlineEnd (c : Nat) (s : State) : Host.Outcome State Fault Refusal :=
  onlyIf ((cmd? s c).any fun x => isSearch x.opcode && x.admitted && (x.stage == .awaitPayload || x.stage == .reading || x.stage == .running) &&
      eDeadline x.entry && x.stopped && x.far.isSome)
    (fun s => updCmd c (fun k => { k with farOver := true, rows := k.rows.map fun r => if r.far.isSome then { r with farLeft := [] } else r }) (dropFar c s)) s

/-! ### Final selection (R160, R161) -/

/-- The best K of a sorted list, TIES set on the entries at the K-th score of a tied row. -/
def select (k : Nat) (l : List Entry) : List Entry × Bool :=
  match (l[k - 1]?), l[k]? with
  | some a, some b =>
    if fEq a.score b.score then
      let n := (l.filter fun e => fEq e.score a.score).length
      ((l.take k).map fun e => if fEq e.score a.score then { e with ties := n } else e, true)
    else (l.take k, false)
  | _, _ => (l.take k, false)

/-- The entries that the row's final selection receives, sorted, and its NaN drops. -/
def finalInput (s : State) (x : Cmd) (r : QRow) : List Entry × Nat :=
  match r.far with
  | some l => let g := l.filter fun e => !fIsNaN e.score; (sortEntries g, l.length - g.length)
  | none => (listAt (lastNode s x) r, 0)

def finalRow (c row : Nat) (s : State) : State :=
  match cmd? s c, rowOf s c row with
  | some x, some r =>
    let (l, nan) := finalInput s x r
    let s := updCmd c (fun k => { k with dedup := k.dedup || r.nodes.any (·.dup) }) s
    let s := if x.origin.isSome then updRow c row (fun r => { r with final := some (l.take (listLen x.entry)) }) s
      else
        let (best, tie) := select (sK x.entry) l
        noteNan c nan (updRow c row (fun r => { r with final := some best, tie := tie }) s)
    updCmd c (fun k => if k.rows.all (·.final.isSome) then { k with stage := .final } else k) s
  | _, _ => s
/-- A row is ready: its list complete, its far stage ended. -/
def mayFinish (s : State) (c row : Nat) : Bool :=
  searching s c && (cmd? s c).any fun x => (x.rows[row]?).any fun r => r.final.isNone && listDone s x r &&
    (x.far.isNone || x.origin.isSome || (r.far.isSome && r.farLeft.isEmpty))
def execFinalSelection (c row : Nat) (s : State) : Host.Outcome State Fault Refusal := onlyIf (mayFinish s c row) (finalRow c row) s

end Sys2Proof.Machine
end

