-- ==== Sys2Proof/Machine/MbxTest.lean ====
section
/-! DEFINITION. Assay and margining (R422–R429). -/

namespace Sys2Proof.Machine

/-! ### What a run covers and leaves in memory -/

/-- Channels and pseudo-channels of a run. -/
def runPcs (ch pc : Nat) : List (Nat × Nat) := (bitsOf 32 ch).flatMap fun c => (bitsOf 2 pc).map fun h => (c, h)

/-- Lines of one pseudo-channel between two stack offsets that are multiples of 64 KB (R194). -/
def pcLines (start stop : Nat) : Nat := (stop - start) / 65536 * 16

/-- The stack offset of line i of a pseudo-channel, in line order. -/
def pcLine (start c h i : Nat) : Nat := start + i / 16 * 65536 + c * 2048 + h * 1024 + i % 16 * 64

/-- The state that a PRBS of a pseudo-channel starts from: SEED XOR (2c + pc), of PRBS15 bits [14:0], or 1 if that is zero (R423). -/
def prbsSeed (pat seed c h : Nat) : Nat :=
  let v := (seed ^^^ (2 * c + h)) % 2 ^ (if pat = 2 then 15 else 32)
  if v = 0 then 1 else v

/-- The word that a pattern leaves at word w of line i, whose device address is a (R423; PRBS: log 22). -/
def testWord (pat seed c h i w a : Nat) : Nat :=
  let ones := 2 ^ 64 - 1
  let walk := 2 ^ ((8 * i + w) % 64)
  let addr := a % 2 ^ 40 + (2 ^ 24 - 1 - a % 2 ^ 24) * 2 ^ 40
  if pat = 1 ∨ pat = 2 then (Config.prbsWord pat (prbsSeed pat seed c h) (8 * i + w)).toNat
  else if pat = 3 then 0 else if pat = 4 then walk else if pat = 5 then ones - walk else if pat = 6 then addr else ones - addr

/-- A line written with its pattern, poison clear, past the write-combining buffer. -/
def writeTestLine (p pat seed start c h i : Nat) (s : State) : State :=
  let off := pcLine start c h i
  let a := p * 2 ^ 36 + off
  let s := removeEnt p off s
  (upto 8).foldl (fun s w => dropPoison (a + 8 * w) { s with hbm := mwriteAll s.hbm (a + 8 * w) (leBytes 8 (testWord pat seed c h i w (a + 8 * w))) }) s

def writeTest (p pat seed start stop : Nat) (pcs : List (Nat × Nat)) (s : State) : State :=
  pcs.foldl (fun s k => (upto (pcLines start stop)).foldl (fun s i => writeTestLine p pat seed start k.1 k.2 i s) s) s

/-! ### Records -/

/-- The record number of a pseudo-channel. -/
def assayKey (p c h : Nat) : Nat := 64 * p + 2 * c + h

/-- Reads of every covered word in one pass (R423). -/
def readsPerPass (pat : Nat) : Nat := if pat = 3 then 5 else 1

/-- Mismatches of one pseudo-channel. -/
def badOf (bad : List BadWord) (p c h start stop : Nat) : List BadWord :=
  bad.filter fun b => homePtn b.addr == p && channelOf b.addr == c && pseudoOf b.addr == h && decide (start ≤ stackOff b.addr) &&
    decide (stackOff b.addr < stop)

def bitCount (v : BitVec 80) : Nat := (bitsOf 80 v.toNat).length

/-- The record of R426. -/
def assayBytes (r : AssayRec) : List Byte :=
  let bits := r.bad.foldl (fun n b => n + bitCount b.diff) 0
  let few := (r.bad.filter fun b => bitCount b.diff ≤ 2).length
  let log := r.bad.take 16
  padBytes 424 (leBytes 8 r.words ++ leBytes 8 r.bad.length ++ leBytes 8 bits ++ leBytes 4 (min 0xFFFFFFFF few) ++
    leBytes 4 (min 0xFFFFFFFF (r.bad.length - few)) ++ [BitVec.ofNat 8 ((r.bad.head?.map (·.pass)).getD 0), BitVec.ofNat 8 log.length] ++
    List.replicate 6 0 ++ log.flatMap fun b => leBytes 5 b.addr ++ [BitVec.ofNat 8 b.pass, BitVec.ofNat 8 b.element, 0] ++ leBytes 10 b.diff.toNat ++
      List.replicate 6 0)

/-- A named channel is under test already (R424). -/
def underTest (s : State) (ps : List Nat) (ch : Nat) : Bool :=
  s.hearth.underTest.any fun u => ps.contains u.1 && bit ch u.2

/-- A test run starts: its partitions come to FORGE, scrubs pause, the old records of its channels go (R222, R424). -/
def startTest (ps : List Nat) (ch : Nat) (s : State) : State :=
  let s := updHearth (fun h => { h with
    underTest := h.underTest ++ ps.flatMap fun p => (bitsOf 32 ch).map fun c => (p, c)
    assays := h.assays.filter fun r => !(ps.contains (r.1 / 64) && bit ch (r.1 % 64 / 2)) }) s
  ps.foldl (fun s p => if (ptn s p).power = .cold then startExit p s else demand p s) s

/-- Partitions of a run that are COLD before it. -/
def coldOnes (s : State) (ps : List Nat) : List Nat := ps.filter fun p => (ptn s p).power == .cold

/-! ### ASSAY_RUN -/

def assayBad (s : State) (q : Req) : Bool :=
  let ps := maskPtns q 0
  !shaped q 32 [(10, 2)] || qf q 0 2 ≥ 4096 || qf q 6 1 > 3 || qf q 7 1 == 0 || qf q 7 1 > 7 || qf q 8 1 == 0 || qf q 9 1 > 1 ||
  qf q 16 8 % 65536 != 0 || qf q 24 8 % 65536 != 0 || qf q 24 8 ≤ qf q 16 8 || qf q 24 8 > 2 ^ 36 ||
  (ps.any fun p => (ptn s p).job.isSome || creating s p) || underTest s ps (qf q 2 4)

/-- A word that a run covers. -/
def coveredBy (q : Req) (b : BadWord) : Bool :=
  (maskPtns q 0).contains (homePtn b.addr) && bit (qf q 2 4) (channelOf b.addr) && bit (qf q 6 1) (pseudoOf b.addr)
/-- The mismatches of a run: with STOP it ends at the first (R422). -/
def runBad (q : Req) (bad : List BadWord) : List BadWord :=
  let l := bad.filter fun b => coveredBy q b && decide (qf q 16 8 ≤ stackOff b.addr) && decide (stackOff b.addr < qf q 24 8)
  if qf q 9 1 = 1 then l.take 1 else l

/-- The records of a run; the words read before a STOP are not stated (log 22). -/
def assayRecs (s : State) (q : Req) (bad : List BadWord) : List (Nat × AssayRec) :=
  let bad := runBad q bad
  let start := qf q 16 8
  let stop := qf q 24 8
  let full := 8 * pcLines start stop * readsPerPass (qf q 7 1) * qf q 8 1
  let stopped := qf q 9 1 == 1 && !bad.isEmpty
  (maskPtns q 0).flatMap fun p => (runPcs (qf q 2 4) (qf q 6 1)).map fun k =>
    let b := badOf bad p k.1 k.2 start stop
    (assayKey p k.1 k.2, { words := if stopped then b.length + Config.freeNat (s.free + assayKey p k.1 k.2) % (full - b.length + 1) else full, bad := b })

/-- The response of R425. -/
def assayResponse (rs : List (Nat × AssayRec)) : List Byte :=
  leBytes 8 (rs.foldl (fun n r => n + r.2.words) 0) ++ leBytes 8 (rs.foldl (fun n r => n + r.2.bad.length) 0) ++
  (upto 12).flatMap fun p => leBytes 8 (maskOf ((rs.filter fun r => r.1 / 64 == p && !r.2.bad.isEmpty).map (·.1 % 64)))

def doAssayRun (bad : List BadWord) : Handler := fun _ q _ s =>
  if assayBad s q then (s, mFail .invalidField)
  else
    let ps := maskPtns q 0
    let rs := assayRecs s q bad
    let t := startTest ps (qf q 2 4) s
    let t := ps.foldl (fun t p => writeTest p (qf q 7 1) (qf q 12 4) (qf q 16 8) (qf q 24 8) (runPcs (qf q 2 4) (qf q 6 1)) t) t
    let t := updHearth (fun h => { h with assays := rs.foldl (fun m r => tset m r.1 r.2) h.assays }) (spend 768 t)
    (t, .busy (.test ps (coldOnes s ps) (assayResponse rs)))
def execAssayRun (m : Fin 4) (bad : List BadWord) (s : State) : Host.Outcome State Fault Refusal :=
  .next (mailboxWith (fun q => .heldTest q bad []) m.val 0x0801 anyForm (doAssayRun bad) .timeout s)

def doAssayLog : Handler := fun _ q _ s =>
  if !shaped q 4 [(3, 1)] || qf q 0 1 > 11 || qf q 1 1 > 31 || qf q 2 1 > 1 then (s, mFail .invalidField)
  else match tget s.hearth.assays (assayKey (qf q 0 1) (qf q 1 1) (qf q 2 1)) with
    | some r => (s, mOk (assayBytes r))
    | none => (s, mFail .range)
def execAssayLog (m : Fin 4) (s : State) : Host.Outcome State Fault Refusal := .next (mailbox m.val 0x0802 anyForm doAssayLog .timeout s)

/-! ### MARGIN_RUN -/

/-- The largest S or T of a parameter (R428). -/
def marginMax (code : Nat) : Nat := lget [63, 63, 40, 40, 10] code 0

def marginBad (s : State) (m : Nat) (q : Req) : Bool :=
  let p := qf q 0 1
  let a := qf q 1 1
  let b := qf q 3 1
  !shaped q 32 [(28, 4)] || p > 11 || a > 4 || qf q 2 1 == 0 || qf q 2 1 > marginMax a || (b != 0xFF && (b > 4 || b == a)) ||
  qf q 4 1 > (if b == 0xFF then 0 else marginMax b) || qf q 5 1 > 3 || !([1, 2, 6, 7].contains (qf q 6 1)) || qf q 7 1 < 10 || qf q 7 1 > 24 ||
  ((a == 4 || b == 4) && qf q 8 4 != 0xFFFFFFFF) || (m == 3 && qf q 16 8 != 0) || (ptn s p).job.isSome || creating s p || underTest s [p] (qf q 8 4)

/-- Bit errors at a point of a record's lane, from the list of every record's points, five lanes each. -/
def errAt (errs : List Nat) (points rec_ pt lane : Nat) : Nat := lget errs ((rec_ * points + pt) * 5 + lane) 0

/-- The margin on one side: the largest m for which the points from the centre to m steps away are clean; 0xFF when the centre fails (R429). -/
def margin (clean : Nat → Bool) (n : Nat) : Nat :=
  if !clean 0 then 0xFF else ((upto (n + 1)).takeWhile clean).length - 1

/-- A map byte (R429). -/
def mapByte (n : Nat) : Byte := if n = 0 then 0 else BitVec.ofNat 8 (1 + Nat.log2 n)

/-- The record of one pseudo-channel (R429). -/
def marginRecord (errs : List Nat) (sN tN rec_ c h : Nat) : List Byte :=
  let row := 2 * sN + 1
  let points := row * (2 * tN + 1)
  let centre := tN * row + sN
  let sides := (upto 5).flatMap fun l =>
    [BitVec.ofNat 8 (margin (fun k => errAt errs points rec_ (centre - k) l == 0) sN),
     BitVec.ofNat 8 (margin (fun k => errAt errs points rec_ (centre + k) l == 0) sN)]
  padBytes (8 * ceilDiv (16 + 5 * points) 8) ([BitVec.ofNat 8 c, BitVec.ofNat 8 h, 0, 0] ++ sides ++ [0, 0] ++
    (upto points).flatMap fun i => (upto 5).map fun l => mapByte (errAt errs points rec_ i l))

def marginOutput (q : Req) (errs : List Nat) : List Byte :=
  let pcs := runPcs (qf q 8 4) (qf q 5 1)
  padBytes 32 ([BitVec.ofNat 8 (qf q 1 1), BitVec.ofNat 8 (qf q 3 1), BitVec.ofNat 8 (qf q 2 1), BitVec.ofNat 8 (qf q 4 1)] ++ leBytes 4 pcs.length) ++
  pcs.zipIdx.flatMap fun k => marginRecord errs (qf q 2 1) (qf q 4 1) k.2 k.1.1 k.1.2

def doMarginRun (errs : List Nat) : Handler := fun m q _ s =>
  let p := qf q 0 1
  let out := marginOutput q errs
  let buf := qf q 16 8
  if marginBad s m q then (s, mFail .invalidField)
  else if (if buf = 0 then out.length > 4096 else qf q 24 4 < out.length) then (s, .busy (.ready .range [] 0))
  else
    let t := startTest [p] (qf q 8 4) s
    let t := writeTest p (qf q 6 1) (qf q 12 4) 0 (65536 * 2 ^ (qf q 7 1 - 7)) (runPcs (qf q 8 4) (qf q 5 1)) t
    let t := if buf = 0 then t else postBytes buf out t
    (t, .busy (.test [p] (coldOnes s [p]) (if buf = 0 then out else [])))
def execMarginRun (m : Fin 4) (errs : List Nat) (s : State) : Host.Outcome State Fault Refusal :=
  .next (mailboxWith (fun q => .heldTest q [] errs) m.val 0x0810 anyForm (doMarginRun errs) .timeout s)

end Sys2Proof.Machine
end

