-- ==== Sys2Proof/Machine/MbxFw.lean ====
section
/-! DEFINITION. Resets by mailbox (R315), firmware staging and activation (R321–R323, R370, R371, R373, R374), attestation (R378–R380). -/

namespace Sys2Proof.Machine

/-! ### Resets -/

/-- RESET_PTN runs the L2 sequence (R315, R366). -/
def doResetPtn : Handler := fun _ q _ s =>
  let p := qf q 0 1
  guardM (shaped q 1 [] && p ≤ 11) .invalidField s (startL2 p 0 false true s, .busy (.reset p))
def execResetPtn (m : Fin 4) (s : State) : Host.Outcome State Fault Refusal := .next (mailbox m.val 0x0601 anyForm doResetPtn .timeout s)

/-- RESET_CHIP answers, then the L3 starts within 1 ms, here at once (R315; log 23). -/
def doResetChip : Handler := fun _ q _ s => guardM (shaped q 1 [] && qf q 0 1 == 0xC3) .invalidField s (s, mOk [])
def resetChip (m : Nat) (s : State) : State :=
  let t := mailbox m 0x0602 anyForm doResetChip .timeout s
  if (match (mbx s m).req with | some q => q.opcode == 0x0602 | none => false) && (mbx s m).state == 2 && (mbx t m).state == 3 && (mbx t m).status == 0
  then
    let u := startL3 0 t
    { u with levels := u.levels.map fun l => if l.level = .l3 then { l with soft := true } else l }
  else t
def execResetChip (m : Fin 4) (s : State) : Host.Outcome State Fault Refusal := .next (resetChip m.val s)

/-! ### Firmware slots -/

def setFwSlot (b : Bool) (x : FwSlot) (s : State) : State := updAon (fun a => if b then { a with slotB := x } else { a with slotA := x }) s

/-- A stored image is valid (R371): what was checked when it was staged, and SV against the counter now. -/
def slotValid (a : Aon) (b : Bool) : Bool := (fwSlot a b).valid && decide (a.rollback ≤ (fwSlot a b).sv)

/-- Everything that R371 tests but SV: none, or the slot's contents. -/
def imageOf (bs : List Byte) : Option FwSlot :=
  let body := bs.drop 4096
  let dig := BitVec.ofNat 256 (field bs 24 32)
  if bs.length ≥ 4096 && field bs 0 4 == 0x56583132 && field bs 4 2 == 1 && field bs 6 1 ≤ 127 && zeroAt bs 7 1 && zeroAt bs 20 4 && zeroAt bs 56 8 &&
     zeroAt bs 3373 723 && field bs 16 4 == body.length && dig == digest body && Config.signatureOk (bs.take 64) ((bs.drop 64).take 3309)
  then some { valid := true, version := BitVec.ofNat 32 (field bs 8 4), sv := field bs 6 1, csfmt := BitVec.ofNat 32 (field bs 12 4), digest := dig }
  else none

/-- The slot that the firmware does not run from. -/
def idleSlot (s : State) : Bool := !s.aon.running

/-- FW_STAGE with an action; an action that is not defined is refused whichever row comes (log 18). -/
def fwForm (limit a : Nat) (q : Req) : Bool := qf q 0 1 == a || decide (qf q 0 1 > limit) || q.len == 0
def wrongAction (a : Nat) (q : Req) : Bool := qf q 0 1 != a || q.len == 0

/-- A session of another mailbox is open (R322). -/
def sessionElsewhere (s : State) (m : Nat) : Bool := match s.hearth.stage with | some g => g.mbx != m | none => false

def doStageBegin : Handler := fun m q _ s =>
  let n := qf q 1 1
  let slot := if n = 0xFF then idleSlot s else n == 1
  guardM (!wrongAction 0 q && shaped q 2 [] && !sessionElsewhere s m &&
      (if s.hearth.recovery then n ≤ 1 else n == 0xFF || (n ≤ 1 && (n == 1) == idleSlot s))) .invalidField s
    (updHearth (fun h => { h with stage := some { mbx := m, slot := if slot then 1 else 0 } }) (setFwSlot slot {} s), mOk [])
def execFwStageBegin (m : Fin 4) (s : State) : Host.Outcome State Fault Refusal :=
  .next (mailbox m.val 0x0701 (fwForm 3 0) doStageBegin .timeout s)

/-- The refusals of DATA: size, order, lengths, host addresses over MBX3 (R312, R322). -/
def stageDataBad (m : Nat) (q : Req) (g : FwStage) : Bool :=
  let len := qf q 8 4
  let host := qf q 16 8
  !shaped q (if host = 0 then 32 + len else 24) ([(1, 3), (12, 4)] ++ (if host = 0 then [(24, 8)] else [])) || len == 0 ||
  len > (if host = 0 then 4064 else 2 ^ 20) || (m == 3 && host != 0) || qf q 4 4 != g.bytes.length || g.bytes.length + len > 2 ^ 22

def doStageData : Handler := fun m q reply s =>
  match s.hearth.stage with
  | none => (s, mFail .invalidField)
  | some g =>
    if wrongAction 1 q || g.mbx != m || stageDataBad m q g then (s, mFail .invalidField)
    else
      let put := fun (bs : List Byte) => (updHearth (fun h => { h with stage := some { g with bytes := g.bytes ++ padBytes (qf q 8 4) bs } }) s, mOk [])
      if qf q 16 8 = 0 then put (q.bytes.drop 32)
      else match reply with
        | .data bs => put bs
        | r => readFailure r s
def execFwStageData (m : Fin 4) (reply : ReadReply) (s : State) : Host.Outcome State Fault Refusal :=
  .next (mailbox m.val 0x0701 (fwForm 3 1) doStageData reply s)

/-- The outcome of FINISH: the slot's new contents, status and response (R322, R371). -/
def verifyImage (a : Aon) (len : Nat) (bs : List Byte) : FwSlot × MStatus × List Byte :=
  match imageOf bs with
  | some x => if len = bs.length ∧ a.rollback ≤ x.sv then (x, .ok, leBytes 4 x.version.toNat ++ [BitVec.ofNat 8 x.sv] ++ leBytes 32 x.digest.toNat)
      else ({}, .authFailed, [])
  | none => ({}, .authFailed, [])

def doStageFinish : Handler := fun m q _ s =>
  match s.hearth.stage with
  | none => (s, mFail .invalidField)
  | some g =>
    if wrongAction 2 q || g.mbx != m || !shaped q 8 [(1, 3)] then (s, mFail .invalidField)
    else match verifyImage s.aon (qf q 4 4) g.bytes with
      | (x, st, bs) => (updHearth (fun h => { h with stage := none }) (setFwSlot (g.slot == 1) x s), .busy (.ready st bs 0))
def execFwStageFinish (m : Fin 4) (s : State) : Host.Outcome State Fault Refusal :=
  .next (mailbox m.val 0x0701 (fwForm 3 2) doStageFinish .timeout s)

def doStageAbort : Handler := fun m q _ s =>
  match s.hearth.stage with
  | none => (s, mFail .invalidField)
  | some g =>
    guardM (!wrongAction 3 q && g.mbx == m && shaped q 1 []) .invalidField s
      (updHearth (fun h => { h with stage := none }) (setFwSlot (g.slot == 1) {} s), mOk [])
def execFwStageAbort (m : Fin 4) (s : State) : Host.Outcome State Fault Refusal :=
  .next (mailbox m.val 0x0701 (fwForm 3 3) doStageAbort .timeout s)

/-! ### Activation -/

/-- The Hearth restarts on a slot; the data plane runs on, SPDM sessions end, and the alias key is that of the image that runs now (R323, R376,
R380; log 78). -/
def restartHearth (slot : Bool) (s : State) : State :=
  let s := updAon (fun a => { a with running := slot }) s
  updHearth (fun h => { h with restarting := true, awake := false, sessions := [], versioned := [], negotiated := [], issued := some (issueAlias s.aon) })
    { s with hearthUp := false }

/-- The ticket of this very request, held until now behind another (R311). -/
def heldTicket (q : Req) (k : Ticket) : Bool := match k.work with | .held r _ => r == q | _ => false

/-- The counter as a raise under way leaves it (R374). -/
def raised (s : State) : Nat := (openTickets s).foldl (fun n k => match k.2.work with | .raise sv => max n sv | _ => n) s.aon.rollback

/-- TRIAL is refused in these cases (R323). -/
def trialBad (s : State) (q : Req) : Bool :=
  let o := !s.aon.running
  ((openTickets s).any fun k => !heldTicket q k.2) || (upto 12).any (fun p => (ptn s p).service == .resetting) || s.aon.trial || !slotValid s.aon o ||
  (fwSlot s.aon o).csfmt != (fwSlot s.aon s.aon.running).csfmt

def doTrial : Handler := fun _ q _ s =>
  guardM (!wrongAction 0 q && shaped q 1 [] && !trialBad s q) .invalidField s
    (restartHearth (!s.aon.running) (updAon (fun a => { a with trial := true }) s), mOk [])
def execFwActivateTrial (m : Fin 4) (s : State) : Host.Outcome State Fault Refusal :=
  .next (mailbox m.val 0x0702 (fwForm 3 0) doTrial .timeout s)

/-- COMMIT: the trial slot is recorded as committed first; where its SV is above the counter the fuses are blown one at a time, under a
ticket, behind which FINISH, TRIAL and NEXT_RESET wait (R323, R374; log 85). -/
def doCommit : Handler := fun _ q _ s =>
  let sv := (fwSlot s.aon s.aon.running).sv
  guardM (!wrongAction 1 q && shaped q 1 [] && s.aon.trial) .invalidField s
    (updAon (fun a => { a with committed := a.running, trial := false }) s, if sv ≤ s.aon.rollback then mOk [] else .busy (.raise sv))
def execFwActivateCommit (m : Fin 4) (s : State) : Host.Outcome State Fault Refusal :=
  .next (mailbox m.val 0x0702 (fwForm 3 1) doCommit .timeout s)

/-- REVERT, on a committed slot that still holds a valid image (R322, R323). -/
def doRevert : Handler := fun _ q _ s =>
  guardM (!wrongAction 2 q && shaped q 1 [] && s.aon.trial && slotValid s.aon s.aon.committed) .invalidField s
    (restartHearth s.aon.committed (updAon (fun a => { a with trial := false }) s), mOk [])
def execFwActivateRevert (m : Fin 4) (s : State) : Host.Outcome State Fault Refusal :=
  .next (mailbox m.val 0x0702 (fwForm 3 2) doRevert .timeout s)

def doNextReset : Handler := fun _ q _ s =>
  guardM (!wrongAction 3 q && shaped q 1 [] && slotValid s.aon (!s.aon.running)) .invalidField s
    (updAon (fun a => { a with nextReset := some (!a.running) }) s, mOk [])
def execFwActivateNextReset (m : Fin 4) (s : State) : Host.Outcome State Fault Refusal :=
  .next (mailbox m.val 0x0702 (fwForm 3 3) doNextReset .timeout s)

/-! ### ATTEST (R379) -/

/-- The kind of an ATTEST message (R379). -/
def attestKind (s : State) (secured : Bool) (msg : List Byte) : SpdmKind := if secured then securedKind s .attest else spdmKindOf msg

/-- An SPDM message answered and its effects; of a secured one only its transport and session are seen (R379, R380; log 6). -/
def doAttest : Handler := fun _ q _ s =>
  let len := qf q 2 2
  let msg := q.bytes.drop 4
  if qf q 0 1 > 1 || len == 0 || len > 4092 || !shaped q (4 + len) [(1, 1)] then (s, mFail .invalidField)
  else
    let kind := attestKind s (qf q 0 1 == 1) msg
    let body := (spdmReply s .attest kind msg).take 4092
    (spdmEffects .attest kind msg s, mOk ([BitVec.ofNat 8 (qf q 0 1), 0] ++ leBytes 2 body.length ++ body))
def execAttest (m : Fin 4) (s : State) : Host.Outcome State Fault Refusal := .next (mailbox m.val 0x0710 anyForm doAttest .timeout s)

def spdmOver (t : SpdmTransport) (kind : SpdmKind) (msg : List Byte) (s : State) : State :=
  answer (.data (spdmReply s t kind msg) false) (spdmEffects t kind msg s)
/-- An SPDM message on DOE or MCTP (R378); ATTEST carries its own through a mailbox. -/
def execSpdmMessage (t : SpdmTransport) (kind : SpdmKind) (msg : List Byte) (s : State) : Host.Outcome State Fault Refusal :=
  onlyIf (s.hearthUp && t != .attest) (spdmOver t kind msg) s

end Sys2Proof.Machine
end

