-- ==== Sys2Proof/Machine/HearthRows.lean ====
section
/-! DEFINITION. The Hearth's own steps: completion of BUSY commands (R310, R311), waking and sleeping (R306), restarts (R323), its faults
(R310, R348, R360). -/

namespace Sys2Proof.Machine

/-! ### BUSY commands -/

/-- The handler of an opcode, for a command that was held behind another (R311). -/
def handlerOf (q : Req) : Handler :=
  let act := qf q 0 1
  let bad : Handler := fun _ _ _ s => (s, mFail .invalidField)
  ((tget [(0x0001, doSummary), (0x0002, doIdentify), (0x0003, doEventLog), (0x0004, doClockCorr), (0x0101, doPtnEnable), (0x0102, doPtnPower),
      (0x0110, doJobCreate), (0x0111, doJobEnd), (0x0112, doCtxCreate), (0x0113, doCtxDestroy), (0x0114, doRingCreate)] q.opcode) <|>
    (tget [(0x0115, doRingDestroy), (0x0116, doHwinSet), (0x0117, doHdmMap), (0x0118, doMwinSet), (0x0119, doRingState), (0x0120, doJournalSet),
      (0x0201, doCollCreate), (0x0202, doCollDelete), (0x0203, doCollSet), (0x0204, doCollStats), (0x0210, doCollTrain)] q.opcode) <|>
    (tget [(0x0220, doFilterLoad), (0x0301, doPatternLoad), (0x0302, doPatternUnload), (0x0401, doRoundLoad), (0x0410, doSharesSet), (0x0411, doRegSet),
      (0x0412, doCrucPin), (0x0420, doCtxStats), (0x0501, doRouteSet), (0x0601, doResetPtn), (0x0602, doResetChip), (0x0710, doAttest)] q.opcode) <|>
    (tget [(0x0701, if act = 0 then doStageBegin else if act = 1 then doStageData else if act = 2 then doStageFinish else doStageAbort),
      (0x0702, if act = 0 then doTrial else if act = 1 then doCommit else if act = 2 then doRevert else doNextReset),
      (0x0802, doAssayLog)] q.opcode)).getD bad

/-- An earlier command still running names an object of the ticket's request (R311). -/
def stillHeld (s : State) (k : Ticket) : Bool :=
  (openTickets s).any fun o => decide (o.2.order < k.order) && sharesObject o.2.req k.req && !joinsWork k.req o.2

/-- A ticket's response. -/
def ticketDone (t : Nat) (k : Ticket) (st : MStatus) (bytes : List Byte) (detail : Nat) (s : State) : State :=
  completeTicket t { status := st, bytes := bytes, ticket := 0, detail := detail } (updHearth (fun h => { h with tickets := tset h.tickets t k }) s)

/-- The work of a ticket replaced. -/
def ticketWork (t : Nat) (k : Ticket) (w : Work) (s : State) : State :=
  updHearth (fun h => { h with tickets := tset h.tickets t { k with work := w } }) s

/-- A ring has no command left without its completion. -/
def ringDrained (s : State) (r : Nat) : Bool := (ringLive s r).isEmpty

/-- Progress of a BUSY command (R310): it completes where what it waits for has come. -/
def progress (t : Nat) (k : Ticket) (s : State) : State :=
  match k.work with
  | .jobCreate _ left failed =>
    if failed then ticketDone t k .fenced [] 0 s
    else if left.isEmpty then
      let s := makeJob k.req s
      ticketDone t k .ok [BitVec.ofNat 8 (match job? s (qf k.req 0 1) with | some x => jobMode x | none => 0)] 0 s
    else s
  | .jobEnd j => if jobQuiet s j then ticketDone t k .ok [] 0 (endJob j s) else s
  | .ringDestroy r => if ringDrained s r then ticketDone t k .ok [] 0 (removeRing r s) else s
  | .ringDisable r => if ringDrained s r then ticketDone t k .ok [] 0 (if ringExists s r then updRing r (fun x => { x with st := .disabled, stopping := false }) s else s) else s
  | .collDelete c =>
    if (coll s c).state = .free then ticketDone t k .ok [] 0 s
    else if (collCmds s c).isEmpty then ticketDone t k .ok [] 0 (freeColl c s) else s
  | .train c joined =>
    let x := coll s c
    if x.state = .suspect ∨ x.state = .free then ticketDone t k .uncorrectable [] 0 s
    else if (x.state = .redistributing ∨ x.state = .trained) ∧ epochLe x.trainEp x.latest then
      ticketDone t k .ok (leBytes 4 x.trainEp.toNat) (if joined then 1 else 0) s
    else s
  | .reset p => if (ptn s p).fence.isNone then ticketDone t k .ok [] 0 s else s
  | .held q reply =>
    if stillHeld s k then s
    else match runReq (handlerOf q) k.mbx q reply s with
      | (s, .done st bytes detail) => ticketDone t k st bytes detail s
      | (s, .busy w) => ticketWork t k w s
  | .heldTest q bad errs =>
    if stillHeld s k then s
    else match runReq (if q.opcode = 0x0801 then doAssayRun bad else doMarginRun errs) k.mbx q .timeout s with
      | (s, .done st bytes detail) => ticketDone t k st bytes detail s
      | (s, .busy w) => ticketWork t k w s
  | .test ps cold bytes =>
    if ps.all fun p => (ptn s p).power == .forge then ticketDone t k .ok bytes 0 (endTest ps cold s) else s
  | .raise sv =>
    let s := if s.aon.rollback < sv then updAon blowFuse s else s
    if sv ≤ s.aon.rollback then ticketDone t k .ok [] 0 s else s
  | .ready st bytes detail => ticketDone t k st bytes detail s

/-- BUSY_COMPLETE: progress of a ticket's command; a Hearth that sleeps is woken for it first, and in recovery the ROM goes on with its own
(R306, R310, R373). -/
def execBusyComplete (t : Nat) (s : State) : Host.Outcome State Fault Refusal :=
  .next (match tget s.hearth.tickets t with
    | some k =>
      if k.rsp.isSome then s
      else if hearthRuns s || s.hearth.recovery then progress t k s
      else if s.hearthUp then wakeHearth s else s
    | none => s)

/-- 10 s after its completion a stored response goes, by a Hearth timer (R306, R310). -/
def execTicketDiscard (t : Nat) (s : State) : Host.Outcome State Fault Refusal :=
  onlyIf ((tget s.hearth.tickets t).any fun k => k.rsp.isSome) (fun s => wakeHearth (updHearth (fun h => { h with tickets := tdel h.tickets t }) s)) s

/-! ### Waking, sleeping, restarts -/

/-- Accepted commands are copied and start (R306, R309). -/
def startMailboxes (s : State) : State :=
  updHearth (fun h => { h with mbx := tmap (fun _ (x : Mbx) => if x.state = 1 then { x with state := 2 } else x) h.mbx }) s

def execHearthWake (s : State) : Host.Outcome State Fault Refusal :=
  onlyIf (s.hearth.wakeDue && !s.hearth.awake && s.hearthUp) (fun s => startMailboxes (updHearth (fun h => { h with awake := true, wakeDue := false }) s)) s

/-- 1 ms without work (R306). -/
def hearthIdle (s : State) : Bool := s.hearth.awake && s.hearth.mbx.all fun x => x.2.state == 0 || x.2.state == 3
def execHearthSleep (s : State) : Host.Outcome State Fault Refusal :=
  onlyIf (hearthIdle s) (updHearth fun h => { h with awake := false, wakeDue := false }) s

/-- The image sets GLB_STATUS.HEARTH after a restart (R323). -/
def execHearthRestartDone (s : State) : Host.Outcome State Fault Refusal :=
  onlyIf (s.hearth.restarting && !s.hearthUp)
    (fun s => startMailboxes { updHearth (fun h => { h with restarting := false, awake := true, wakeDue := false }) s with hearthUp := true }) s

/-! ### Faults -/

def restartLate : W32 := hearthCode 5 0x88 0

/-- Ten minutes in always-on ticks (R360). -/
def tenMinutes : Nat := 600 * 6250000

/-- A Hearth fault (R360): every ticket FENCED, mailboxes at STATE 0, a restart on the committed slot; a second within 10 min is an L3. -/
def hearthFailed (code : W32) (s : State) : State :=
  let again := match s.hearth.lastFault with | some t => decide (s.aon.ticks.toNat < t + tenMinutes) | none => false
  let s := failTrial (postFault code s)
  if again then startL3 restartLate (postFault restartLate s)
  else
    let s := fenceTickets (fun _ => true) s
    restartHearth s.aon.committed (updHearth (fun h => { h with
      mbx := tmap (fun _ (x : Mbx) => { x with state := 0, req := none }) h.mbx, lastFault := some s.aon.ticks.toNat }) s)

def execHearthFault (cause : HearthCause) (core : Fin 4) (s : State) : Host.Outcome State Fault Refusal :=
  .next (hearthFailed (hearthCode (if cause = .core then 1 else 4) (0x80 + core.val) 0) s)

/-- A mailbox stays in STATE 1 or 2 beyond 10 ms (R310). -/
def execMbxStuck (m : Fin 4) (s : State) : Host.Outcome State Fault Refusal :=
  onlyIf ((mbx s m.val).state == 1 || (mbx s m.val).state == 2) (hearthFailed (hearthCode 2 0x84 m.val)) s

/-- A trial image that does not set HEARTH within 5 s (R323). -/
def execTrialTimeout (s : State) : Host.Outcome State Fault Refusal :=
  onlyIf (s.aon.trial && !s.hearthUp && s.hearth.restarting) (fun s => let t := failTrial s; restartHearth t.aon.committed t) s

/-- A restart that does not set HEARTH within 2 s (R360). -/
def execHearthRestartTimeout (s : State) : Host.Outcome State Fault Refusal :=
  onlyIf (s.hearth.restarting && !s.hearthUp) (fun s => startL3 restartLate (postFault restartLate (failTrial s))) s

end Sys2Proof.Machine
end

