-- ==== Sys2Proof/Machine/IcernLink.lean ====
section
/-! DEFINITION. Icern ports and flits (R324–R330, R336), and what the loss of a peer does to commands (R343). -/

namespace Sys2Proof.Machine

/-! ### The loss of a peer (R343) -/

/-- A search or ingest command of a job: all modules of a spanning job take part in it. -/
def takesPart (x : Cmd) : Bool := isSearch x.opcode || isIngest x.opcode

/-- In-flight commands of a spanning job. -/
def inFlight (s : State) (j : Nat) : List Nat :=
  cmdsOf (fun x => takesPart x && x.admitted && x.job == j && x.stage != .final && x.stage != .done) s

/-- A part of a forwarded command goes with nothing answered: its work is dropped, its batch withdrawn (R186, R343). -/
def dropPart (c : Nat) (s : State) : State :=
  match cmd? s c with
  | none => s
  | some x => if x.committing || x.epoch != 0 then s else delCmd c (dropWork (· == c) (withdraw c (freeBufs x.lent (freePools x.holds s))))

/-- COMMIT responses of modules that are gone can no longer arrive: the root completes with LINK_LOST and its own epoch. -/
def lostCommit (c : Nat) (gone : List Nat) (code : W32) (s : State) : State :=
  match cmd? s c with
  | none => s
  | some x =>
    let missing := gone.filter fun m => (peersOf s x.job).contains m && !x.peersDone.contains m
    if missing.isEmpty then s
    else tryFinish c (updCmd c (fun k => { k with status := .linkLost, fault := code, peersDone := k.peersDone ++ missing }) s)

/-- The failure of peers for one command: at the root it fails unless it is past COMMIT; elsewhere a part that is not yet ready
fails, and one that is ready waits for the root (R343). -/
def peerFailed (st : Status) (code : W32) (gone : List Nat) (c : Nat) (s : State) : State :=
  match cmd? s c with
  | none => s
  | some x =>
    if x.origin.isNone then (if x.committing then lostCommit c gone code s else failCmd c st code s)
    else if x.committing || (isIngest x.opcode && x.stage == .waiting) then s
    else failCmd c st code s

/-- Modules of a job that no valid route over an UP port reaches. -/
def unreached (s : State) (j : Nat) : List Nat := (peersOf s j).filter fun m => !reachable s m

/-- Jobs that span modules. -/
def spanningJobs (s : State) : List Nat := (s.jobs.filter fun j => j.2.modules > 1).map (·.1)

/-- Parts of searches that wait for a next run that their roots cannot send. -/
def dropParked (gone : Nat → Bool) (s : State) : State :=
  (cmdsOf (fun x => x.parked && x.origin.any fun o => gone o.1) s).foldl (fun s c => dropPart c s) s

/-- Commands of the jobs that a lost port cuts off (R343). -/
def loseRoutes (code : W32) (s : State) : State :=
  let s := dropParked (fun m => !reachable s m) s
  (spanningJobs s).foldl (fun s j =>
    let gone := unreached s j
    if gone.isEmpty then s else (inFlight s j).foldl (fun s c => peerFailed .linkLost code gone c s) s) s

/-! ### Port states (R325, R326) -/

/-- A port goes DOWN and the module acts on the loss. -/
def portDown (n cause : Nat) (s : State) : State :=
  let code := faultCode 6 (0x78 + n) 0xF (cause * 2 ^ 12 + n * 2 ^ 10 + (port s n).peer % 64)
  pumpRequests (loseRoutes code (cutPort n cause s))

/-- This module's INIT: its ID, the peer it expects, and its receive buffers in units of 8 flits (R325, R328). -/
def initBody (s : State) (n : Nat) : List Byte :=
  [BitVec.ofNat 8 s.aon.modid, BitVec.ofNat 8 (lget s.aon.peers n 0xFF), 8, 8, 16, 16, 16, 16, 4]
def sendInit (n : Nat) (s : State) : State := updPort n (putFlit .init (bareFlit (initBody s n))) s

def trainStep (n : Nat) (lanes : BitVec 4) (s : State) : State :=
  let p := port s n
  if p.step = 1 then
    let s := updPort n (fun p => { p with lanes := lanes }) s
    if lanes = 0xF then updPort n (fun p => { p with step := 2, countedStep1 := false }) s else portDown n 1 s
  else if p.step = 2 then sendInit n (updPort n (fun p => { p with step := 3, st := .init, beat := false }) s)
  else if p.step = 4 ∧ p.beat then runPort n (updPort n (fun p => { p with st := .up, step := 0 }) s)
  else s
/-- The port is in one of the steps of its bring-up. -/
def bringingUp (p : Port) : Bool := p.st == .training || p.st == .init
def execPortTrainStepDone (n : Fin 4) (lanes : BitVec 4) (s : State) : Host.Outcome State Fault Refusal :=
  onlyIf (bringingUp (port s n)) (trainStep n lanes) s
def execPortStepTimeout (n : Fin 4) (s : State) : Host.Outcome State Fault Refusal := onlyIf (bringingUp (port s n)) (portDown n 1) s

/-- Step 1 again: a retrain, of which those that keep failing at step 1 count once (R325, R362). -/
def restartPort (n : Nat) (s : State) : State :=
  let counts := !(port s n).countedStep1
  let s := updPort n (fun p => { p with st := .training, step := 1, retrains := satInc p.retrains, countedStep1 := true, lanes := 0 }) s
  if counts then countRetrain s else s
def execPortRestart (n : Fin 4) (s : State) : Host.Outcome State Fault Refusal :=
  onlyIf ((port s n).st == .down && bit s.aon.enable.toNat n) (restartPort n) s

/-- The fenced mask that a HEARTBEAT carries (R352). -/
def fencedPtns (s : State) : List Nat := (upto 12).filter fun p => isFenced (ptn s p)

/-- A HEARTBEAT to the peer, numbered from 0 (R326, R332). -/
def sendHeartbeat (n : Nat) (s : State) : State :=
  let p := port s n
  let body := leBytes 4 p.hbSeq.toNat ++ [if s.aon.oos then 1 else 0, 0] ++ leBytes 2 (maskOf (fencedPtns s))
  let m : Msg := { type := 7, src := s.aon.modid, dst := if p.step = 3 then lget s.aon.peers n 0xFF else p.peer, body := body }
  queueFlits n ((msgFlits m false).map fun f => { flit := f }) (updPort n (fun p => { p with hbSeq := p.hbSeq + 1 }) s)
def execHeartbeatTimer (n : Fin 4) (s : State) : Host.Outcome State Fault Refusal := onlyIf (beating (port s n)) (sendHeartbeat n) s
def execHeartbeatLoss (n : Fin 4) (s : State) : Host.Outcome State Fault Refusal := onlyIf ((port s n).st == .up) (portDown n 3) s
def execAlignmentLoss (n : Fin 4) (s : State) : Host.Outcome State Fault Refusal := onlyIf ((port s n).st == .up) (portDown n 1) s

/-! ### Flits -/

/-- An ACK covers the flits up to the one it names (R329). -/
def takeAck (f : Flit) (p : Port) : Port :=
  if f.ackValid && p.replay.any (·.seq == f.ack) then
    let left := (p.replay.dropWhile (·.seq != f.ack)).drop 1
    closeReplay { p with replay := left, resend := p.resend.filter left.contains, replayRun := if left.any fun g => p.lastReplay == some g.seq then p.replayRun else 0 }
  else p

/-- Credits that a flit returns (R330). -/
def takeCredits (f : Flit) (p : Port) : Port := let c := creditOf p f.crVc.val f.crCls; putCredit { c with have_ := c.have_ + f.crCnt } p

/-- The header of a transit flit: TTL reduced, a probe's hop count and path extended (R332, R336). -/
def passHeader (s : State) (m : Msg) (b : List Byte) : List Byte :=
  let b := b.set 10 (BitVec.ofNat 8 (m.ttl - 1))
  let hops := field b 32 1
  if m.type = 8 ∧ hops < 15 then (b.set 32 (BitVec.ofNat 8 (hops + 1))).set (33 + hops) (BitVec.ofNat 8 s.aon.modid) else b

/-- The class in which a transit flit leaves (R336). -/
def passClass (s : State) (n out : Nat) (cls : Bool) : Bool := bit s.aon.dateline.toNat out || (n / 2 == out / 2 && cls)

/-- A first flit decides where its message goes: to this module, on by a port, or nowhere (R336). -/
def startRx (n : Nat) (f : Flit) (s : State) : State × RxMsg :=
  let m := readMsg f.body
  if m.dst = s.aon.modid ∨ m.type = 7 then (s, .own [])
  else if m.ttl ≤ 1 then (discard 4 n m.dst s, .drop)
  else match routeOf s m.dst with
    | none => (discard 5 0 m.dst s, .drop)
    | some o => if (port s o).st = .up then (s, .pass o (passClass s n o f.cls)) else (discard 5 o m.dst s, .drop)

/-- A whole message for this module: control messages replace an earlier one of their kind and source (R334). -/
def deliver (n : Nat) (m : Msg) (s : State) : State :=
  let replaced := fun k : Msg => (m.type == 5 || m.type == 7 || m.type == 8) && k.type == m.type && k.resp == m.resp && k.src == m.src
  let s := if m.type = 7 then updPort n (fun p => { p with beat := true }) s else s
  updIcern (fun i => { i with inbox := (i.inbox.filter fun k => !replaced k) ++ [m] }) s

/-- The message that a module received whole keeps the buffers of its flits until it is acted on, on VC0 and VC3; responses are moved to their
stores and control messages into fixed state (R330, R331, R334). -/
def buffered (n : Nat) (f : Flit) (bytes : Nat) (m : Msg) : Msg :=
  if f.vc = 0 ∨ f.vc = 3 then { m with bufs := some (n, f.vc.val, f.cls, bytes / 240) } else m

/-- A flit goes where its message goes; its buffer is free once it is consumed (R330). -/
def routeFlit (n : Nat) (f : Flit) (s : State) : State :=
  let v := f.vc.val
  let (s, r) := if f.first then startRx n f s else (s, (tget (port s n).rx v).getD .drop)
  let keep := fun (r : RxMsg) (s : State) => updPort n (fun p => { p with rx := if f.last then tdel p.rx v else tset p.rx v r }) s
  match r with
  | .own bs =>
    let s := keep (.own (bs ++ f.body)) s
    let s := if v = 1 ∨ v = 2 then updPort n (owe v f.cls) s else s
    let s := if f.vc = 1 then takeResponse (readMsg (bs ++ f.body)) f.last s else s
    if f.last then deliver n (buffered n f (bs ++ f.body).length (readMsg (bs ++ f.body))) s else s
  | .pass o c =>
    let body := if f.first then passHeader s (readMsg f.body) f.body else f.body
    queueFlits o [{ flit := { f with cls := c, body := body }, from_ := some (n, f.cls) }] (keep r s)
  | .drop => updPort n (owe v f.cls) (keep .drop s)

/-- A DATA flit: one out of order is discarded with what it carries, and REPLAY is sent (R329). -/
def takeData (n : Nat) (f : Flit) (s : State) : State :=
  if f.seq = (port s n).expSeq then
    let s := updPort n (fun p => takeCredits f (takeAck f p)) s
    pumpRequests (runPort n (routeFlit n f (updPort n (fun p => { p with expSeq := p.expSeq + 1, got := true, replayDue := false }) s)))
  else sendReplay n s
def execFlitData (n : Fin 4) (f : Flit) (s : State) : Host.Outcome State Fault Refusal := onlyIf (beating (port s n)) (takeData n f) s

/-- A NULL flit: ACK and credits (R327). -/
def execFlitNull (n : Fin 4) (f : Flit) (s : State) : Host.Outcome State Fault Refusal :=
  onlyIf (beating (port s n)) (fun s => pumpRequests (runPort n (updPort n (fun p => takeCredits f (takeAck f p)) s))) s

/-- The sequence number that a REPLAY flit wants (R327). -/
def wantedOf (f : Flit) : BitVec 12 := BitVec.ofNat 12 (field f.body 0 2)

/-- REPLAY: every flit from the one wanted is sent again, in order; the eighth in succession takes the port DOWN (R326, R329). -/
def takeReplay (n : Nat) (f : Flit) (s : State) : State :=
  let wanted := wantedOf f
  let s := updPort n (fun p =>
    let p := takeCredits f (takeAck f p)
    { p with replays := satInc p.replays, replayRun := if p.lastReplay = some wanted then p.replayRun + 1 else 1, lastReplay := some wanted
             resend := p.replay.dropWhile (·.seq != wanted) }) s
  if (port s n).replayRun ≥ 8 ∧ (port s n).st = .up then portDown n 1 s else pumpRequests (runPort n s)
def execFlitReplay (n : Fin 4) (f : Flit) (s : State) : Host.Outcome State Fault Refusal :=
  onlyIf (beating (port s n)) (takeReplay n f) s

/-- The credits that an INIT advertises, in units of 8 flits (R328). -/
def initCredits (cs : List Nat) : List Credit :=
  let c := fun (i vc : Nat) (cls : Bool) => ({ vc := vc, cls := cls, have_ := 8 * lget cs i 0 } : Credit)
  [c 0 0 false, c 1 0 true, c 2 1 false, c 3 1 true, c 4 3 false, c 5 3 true, c 6 2 false]

/-- The HEARTBEATs that wait were formed before INIT named the peer: their DST is the peer (R332). -/
def aimBeats (peer : Nat) (p : Port) : Port :=
  { p with tx := p.tx.map fun t =>
      if t.from_.isNone ∧ t.flit.vc = 2 ∧ t.flit.first ∧ field t.flit.body 0 1 = 7 then { t with flit := { t.flit with body := t.flit.body.set 3 (BitVec.ofNat 8 peer) } }
      else t }

/-- INIT: the peer and its credits; another peer than the one expected takes the port DOWN (R325, R328, R345). -/
def takeInit (n peer : Nat) (credits : List Nat) (s : State) : State :=
  let want := lget s.aon.peers n 0xFF
  let bad := want != 0xFF && want != peer
  let s := updPort n (fun p => { p with peer := peer % 64, mismatch := bad }) s
  if bad then portDown n 2 s
  else runPort n (updPort n (fun p => aimBeats peer { p with step := 4, credits := initCredits credits }) s)
def execFlitInit (n : Fin 4) (peer _expected : Nat) (credits : List Nat) (s : State) : Host.Outcome State Fault Refusal :=
  onlyIf ((port s n).st == .init && (port s n).step == 3) (takeInit n peer credits) s

/-- A flit discarded for its CRC or for uncorrectable codewords, and REPLAY sent (R329, R345; log 81). -/
def execFlitCrcError (n : Fin 4) (fec : Bool) (s : State) : Host.Outcome State Fault Refusal :=
  onlyIf (beating (port s n))
    (fun s => sendReplay n (updPort n (fun p => if fec then { p with fecUncorr := satInc p.fecUncorr } else { p with crcErr := satInc p.crcErr }) s)) s

end Sys2Proof.Machine
end

