-- ==== Sys2Proof/Machine/IcernMsg.lean ====
section
/-! DEFINITION. Messages taken up: forwarded searches and lists (R156, R338–R340), forwarded ingest commands (R188, R341),
notices, aborts and heartbeats (R333, R334, R342–R344), route probes (R339, R345), what a module accepts (R255, R385). -/

namespace Sys2Proof.Machine

/-! ### The inbox -/

/-- The oldest message of a kind from a module. -/
def oldest (s : State) (f : Msg → Bool) : Option Msg := s.icern.inbox.find? f
def takeMsg (m : Msg) (s : State) : State := updIcern (fun i => { i with inbox := removeFirst m i.inbox }) s
def dropMsg (m : Msg) (s : State) : State := freeBufs m.bufs (takeMsg m s)

/-- The message acted on leaves the inbox. -/
def withMsg (f : Msg → Bool) (g : Msg → State → State) (s : State) : State :=
  match oldest s f with
  | some m => g m (dropMsg m s)
  | none => s

/-- A message of a type from a source; requests and responses are kept apart (R332). -/
def isMsg (type src : Nat) (resp : Bool) (m : Msg) : Bool := m.type == type && m.src == src && m.resp == resp
def phaseOf (m : Msg) : Nat := field m.body 0 1

/-- A module of a spanning job that this module belongs to. -/
def jobPeer (s : State) (j src : Nat) : Bool := (peersOf s j).contains src

/-- What R385 accepts: a joined spanning job that has the source in its mask. -/
def accepted (s : State) (m : Msg) : Bool := jobPeer s m.job m.src && (job? s m.job).any (·.joined)

/-- A message that R385 refuses is discarded and posted. -/
def firewall (s : State) : State := postFault (faultCode 10 0x7C 0xF (3 * 2 ^ 12)) s

/-- Run number a is older than b (R255). -/
def olderRun (a b : Nat) : Bool := a % 256 != b % 256 && decide ((b + 256 - a % 256) % 256 < 128)

/-- A message of a run of its command that has been aborted, or of an older one (R255). -/
def ofAborted (s : State) (m : Msg) : Bool :=
  s.icern.aborted.any fun a => a.1 == m.src && a.2.1 == m.cmd && (a.2.2 == m.run || olderRun m.run a.2.2)

/-- This module's part of a command of another module (R340, R341). -/
def partOf (s : State) (src cmd : Nat) : Option Nat := (cmdsOf (fun x => x.origin == some (src, cmd) && liveCmd x) s).head?

/-- The root's own command that a message names, of the run that is on its way (R255). -/
def rootCmd (s : State) (m : Msg) : Option Nat :=
  if (cmd? s m.cmd).any fun x => x.origin.isNone && x.job == m.job && takesPart x && x.admitted && x.stage != .done && x.run % 256 == m.run &&
      jobPeer s x.job m.src then some m.cmd else none

/-- A part of an older run gives way to the newer one; none where the message is the older, or of an aborted run (R255, R344). -/
def yieldRun (m : Msg) (s : State) : Option State :=
  if ofAborted s m then none else match partOf s m.src m.cmd with
  | none => some s
  | some c => match cmd? s c with
    | none => some s
    | some x => if x.run = m.run ∨ olderRun m.run x.run then none else some (dropPart c s)

/-! ### The context of forwarded work (log 66) -/

/-- Contexts of a job on this module. -/
def jobContexts (s : State) (j : Nat) : List Nat := (s.ctxs.filter fun c => c.2.job == j).map (·.1)
/-- The context that forwarded work of a job counts for: one of the job's, which the messages do not name; a number of its own
where the job has none here. -/
def forwardCtx (s : State) (j k : Nat) : Nat :=
  let cs := jobContexts s j
  if cs.isEmpty then 4096 + j else lget cs (freePick s.free k % cs.length) 0
def forwardHome (s : State) (ctx c : Nat) : Nat := match ctx? s ctx with | some x => x.home | none => collHome s c

/-- A command record for forwarded work. -/
def forwardedCmd (s : State) (m : Msg) (ctx : Nat) (e : BitVec 512) : Cmd :=
  let h := forwardHome s ctx (eColl e)
  { ring := 0, ctx := ctx, job := m.job, home := h, entry := e, opcode := opOf e, coll := eColl e, tag := eTag e, stage := .reading, slots := 0
    hwins := (ctxOr s ctx).hwins, mwins := (ctxOr s ctx).mwins, shares := (ctxOr s ctx).shares
    origin := some (m.src, m.cmd), run := m.run, admitCyc := (ptn s h).cycles.toNat, snap := (coll s (eColl e)).latest }

/-- Why this module would refuse the work as a command of its own (R333). -/
def forwardRefused (s : State) (m : Msg) (c : Nat) : Option Refused :=
  let y := coll s c
  refuseIf (y.state == .free || y.job != m.job || y.deleting) .invalidField <|>
  refuseIf (s.aon.oos || anyOos s (collHome s c :: collRegionPtns s c)) .outOfService <|>
  refuseIf (y.state == .suspect) .uncorrectable <|>
  refuseIf (anyFenced s (jobPtns s m.job)) .fenced

/-- The part is answered with a failing status. -/
def refusePart (m : Msg) (e : BitVec 512) (ctx : Nat) (r : Refused) (s : State) : State :=
  addCmd { forwardedCmd s m ctx e with admitted := false, stage := .final, status := r.status, count := r.count } s

/-! ### QUERY_FWD (R340) -/

/-- The entry with the deadline that the receiver uses, less 20 µs. -/
def localDeadline (e : BitVec 512) (us : Nat) : BitVec 512 :=
  if eDeadline e then BitVec.ofNat 512 (e.toNat - sDeadline e * 2 ^ 160 + min 65535 (us - 20) * 2 ^ 160) else e

/-- Sparse terms of a payload (R293). -/
def sparseCount (y : Coll) (e : BitVec 512) (bs : List Byte) : Nat :=
  match (if opOf e = 0x11 then querySparse bs (sNq e) (denseBytes y.d e) else .ok []) with
  | .ok ts => ts.foldl (fun n t => n + t.length) 0
  | .error _ => 0

/-- The pools of a forwarded search: no result buffer, and the list of one module (R293). -/
def queryHolds (s : State) (j ctx : Nat) (e : BitVec 512) (z : Nat) : List Hold :=
  (searchHolds (jobPtns s j) e (phSelconf (patternHeader s ctx (searchPattern e))) z 1 (sK e)).filter fun h => h.pool != .resultBuf

/-- A SEED or a D that differs, or a filter or pattern that the module does not hold (R333, R340). -/
def queryBad (s : State) (ctx : Nat) (e : BitVec 512) (seed len : Nat) : Bool :=
  let y := coll s (eColl e)
  seed != y.seed.toNat || (if opOf e == 0x11 then decide (len < denseBytes y.d e) || !hasSparse y else len != denseBytes y.d e) ||
  (sFilter e != 0xFF && (match (ctx? s ctx).bind fun x => tget x.filters (sFilter e) with
    | some p => filterUnfit y p
    | none => true)) ||
  (tPattern e != 0 && !customSearch s ctx (tPattern e))

/-- A part that takes its amounts goes on once it holds them all and no routes are being replaced; the message's buffers are free then, and its work
begins (R293, R294, R330, R337). -/
def tryPart (c : Nat) (s : State) : State :=
  match cmd? s c with
  | none => s
  | some x =>
    if s.icern.hold then s
    else match takeLacking c x.lacking s with
      | (s, false) => s
      | (s, true) =>
        let s := freeBufs x.lent (updCmd c (fun x => { x with lent := none, admitted := true }) s)
        afterPayload c (takePayload c x.payload (demandAll (needsPtns s x.ctx x.opcode x.coll) s))

/-- A forwarded search as it is received: bound to this module's own latest epoch, its deadline running (R340). -/
def boundPart (m : Msg) (ctx : Nat) (e : BitVec 512) (bs : List Byte) (kept hs : List Hold) (s : State) : Cmd :=
  { searchShape .timeout s (forwardedCmd s m ctx e) with
    stage := .reading, snap := (coll s (eColl e)).latest, far := none, admitted := false, payload := bs, holds := kept, lacking := hs, lent := m.bufs }

/-- A forwarded search is received: refused, or bound, and it takes its amounts; until it holds them it stays in its receive buffer (R293, R340). A
later run keeps what the one before it holds (R297). -/
def query (m : Msg) (s : State) : State :=
  let b := m.body
  let e := localDeadline (BitVec.ofNat 512 (leNat (b.take 64))) (field b 64 4)
  let bs := (b.drop 80).take (field b 68 4)
  let ctx := forwardCtx s m.job 0
  if !accepted s m then firewall (dropMsg m s)
  else match yieldRun m (spend 1 (takeMsg m s)) with
    | none => dropMsg m s
    | some t =>
      match forwardRefused s m (eColl e) <|> refuseIf (!isSearch (opOf e) || queryBad s ctx e (field b 72 8) bs.length) .invalidField with
      | some r => refusePart m e ctx r (freeBufs m.bufs t)
      | none =>
        let hs := queryHolds s m.job ctx e (sparseCount (coll s (eColl e)) e bs)
        if hs.any fun h => decide (h.amount > poolSize h.pool) then refusePart m e ctx { status := .noResource } (freeBufs m.bufs t)
        else
          let kept := (((partOf s m.src m.cmd).bind (cmd? s)).map (·.holds)).getD []
          let t := kept.foldl (fun s h => takePool h s) t
          tryPart t.nextCmd (addCmd (boundPart m ctx e bs kept (hs.filter fun h => !kept.contains h) t) t)

/-- Parts of a module's searches that wait for their amounts. -/
def waitingParts (s : State) (src : Nat) : List Nat :=
  cmdsOf (fun x => x.origin.any (·.1 == src) && isSearch x.opcode && x.stage == .reading && !x.admitted && !x.parked) s

/-- Those that wait try again, oldest first; then the oldest message is received. -/
def execQueryFwd (src : Nat) (s : State) : Host.Outcome State Fault Refusal :=
  let s := (waitingParts s src).foldl (fun s c => tryPart c s) s
  .next (match oldest s (isMsg 1 src false) with
    | some m => query m s
    | none => s)

/-! ### PARTIAL_LIST (R156, R332) -/

/-- An entry of a list, its distance under L2 turned back into a score (R158); its slot is known to its own module only, and so is its sparse part (log 67). -/
def remoteEntry (s : State) (metric : Nat) (hyb : Bool) (b : List Byte) (i : Nat) : Entry :=
  let o := 16 * i
  let w := field b (o + 12) 4
  { key := BitVec.ofNat 64 (field b o 8), score := returnedScore metric hyb (BitVec.ofNat 32 (field b (o + 8) 4)), ties := w / 2 ^ 24, module := w / 2 ^ 16 % 64
    far := bit w 9, refined := bit w 8, gen := BitVec.ofNat 4 (w / 16), ptn := w % 16, brick := i, sparse := Config.freeWord (s.free + i) }

/-- The entries of row r, padding left out. -/
def remoteRow (s : State) (metric : Nat) (hyb : Bool) (b : List Byte) (w r : Nat) : List Entry :=
  ((upto w).map fun i => remoteEntry s metric hyb b (w * r + i)).filter fun e => e.key != 0xFFFFFFFFFFFFFFFF

def takeList (c : Nat) (m : Msg) (s : State) : State :=
  let b := m.body
  let nq := field b 2 2
  let w := field b 20 2
  let es := b.drop 32
  let x := (cmd? s c).getD { ring := 0, ctx := 0, entry := 0, opcode := 0 }
  let metric := (coll s x.coll).metric
  let hyb := x.opcode == 0x11
  let s := (upto nq).foldl (fun s r => updRow c r (addInput .root .refine m.src (remoteRow s metric hyb es w r) 0) s) s
  spend (nq * w) (updCmd c (fun x => { x with
    peersDone := x.peersDone ++ [m.src], dedup := x.dedup || bit (field b 1 1) 0, deadlineHit := x.deadlineHit || bit (field b 1 1) 1
    nan := x.nan + field b 4 4, peerPairs := x.peerPairs + field b 12 4, peerDone := x.peerDone + field b 16 4 }) s)

/-- The first failing status, in ascending module ID, among a response and those that wait for the same command (R333). -/
def firstFailure (s : State) (m : Msg) : Status :=
  let same := fun k : Msg => k.resp && k.type == m.type && k.cmd == m.cmd && k.run == m.run && k.job == m.job && field k.body 0 1 != 0 && jobPeer s m.job k.src
  let first := (s.icern.inbox.filter same).foldl (fun a k => if k.src < a.src then k else a) m
  statusOfCode (field first.body 0 1)

/-- A row of a list stands in order, padding behind its entries, without NaN (R147, R158). -/
def rowInOrder (s : State) (metric : Nat) (hyb : Bool) (b : List Byte) (w r : Nat) : Bool :=
  let es := (upto w).map fun i => remoteEntry s metric hyb b (w * r + i)
  let l := remoteRow s metric hyb b w r
  es.take l.length == l && (l.zip (l.drop 1)).all (fun e => entryBefore e.1 e.2) && l.all fun e => !fIsNaN e.score

/-- A list is as R332 and R340 lay it out: NQ rows of W entries each, in order. -/
def listSound (s : State) (x : Cmd) (m : Msg) : Bool :=
  let w := listLen x.entry
  field m.body 2 2 == sNq x.entry && field m.body 20 2 == w && m.body.length == 32 + 16 * w * sNq x.entry &&
    (upto (sNq x.entry)).all fun r => rowInOrder s (coll s x.coll).metric (x.opcode == 0x11) (m.body.drop 32) w r

/-- A list reaches the root; a failing status fails the command (R333, R343), a list out of order or malformed is a fault of the device fold (R348). -/
def partialList (m : Msg) (s : State) : State :=
  match rootCmd s m with
  | none => s
  | some c =>
    if !(cmd? s c).any fun x => isSearch x.opcode && x.stage == .running && !x.peersDone.contains m.src then s
    else if field m.body 0 1 ≠ 0 then failCmd c (firstFailure s m) 0 s
    else if !(cmd? s c).any (listSound s · m) then foldFails 2 .root s
    else takeList c m s
def execPartialList (src : Nat) (s : State) : Host.Outcome State Fault Refusal := .next (withMsg (isMsg 2 src true) partialList s)

/-! ### INSERT_FWD and BULK_DATA (R341) -/

/-- An entry as the receiver makes it up: opcode and flags of the message, collection, FORMAT, PARTS and number of records. -/
def partEntry (op flags c fmt parts n : Nat) : BitVec 512 :=
  BitVec.ofNat 512 (op + flags % 256 / 16 * 2 ^ 12 + c * 2 ^ 64 + n * 2 ^ 128 + fmt * 2 ^ 160 + parts * 2 ^ 168)

/-- FORMAT and PARTS that an opcode may have (R165, R168). -/
def partForms (op : Nat) : List (Nat × Nat) :=
  if op = 0x20 then [(0, 0), (0, 1), (1, 0), (1, 1)]
  else if op = 0x21 then [0, 1].flatMap fun f => [1, 2, 3, 4, 5, 6, 7].map fun p => (f, p)
  else if op = 0x22 then [(0, 0)]
  else [(0, 0), (1, 0), (2, 0)]

/-- The entries under which the records read as whole: the message names neither collection, FORMAT nor PARTS (log 66). -/
def partEntries (s : State) (j op flags n : Nat) (bs : List Byte) : List (BitVec 512) :=
  let cs := (s.colls.filter fun c => c.2.job == j && c.2.state != .free && !c.2.deleting).map (·.1)
  let all := cs.flatMap fun c => (partForms op).map fun f => partEntry op flags c f.1 f.2 n
  let fit := all.filter fun e => match readIngest (coll s (eColl e)) e bs with | .ok _ => true | .error _ => false
  if fit.isEmpty then all else fit

/-- A part of an ingest command is prepared as for a command of this module's own (R341). -/
def preparePart (m : Msg) (op flags n : Nat) (bs : List Byte) (s : State) : State :=
  let es := partEntries s m.job op flags n bs
  let ctx := forwardCtx s m.job 0
  let e := lget es (freePick s.free 1 % max 1 es.length) (partEntry op flags 0 0 0 n)
  let y := coll s (eColl e)
  let s := spend 2 s
  match forwardRefused s m (eColl e) <|> refuseIf (!isIngest op || es.isEmpty || (op != 0x22 && collScaled y && !hasScales y)) .invalidField with
  | some r => refusePart m e ctx r s
  | none =>
    let c := s.nextCmd
    takeIngest c none bs (noteIngest c (demandAll (needsPtns s ctx op (eColl e)) (addCmd (forwardedCmd s m ctx e) s)))

/-- The share of a BULK_LOAD that has arrived for a command: its records and bytes (R341). -/
def arrivedShare (s : State) (m : Msg) : Nat × List Byte :=
  match (partOf s m.src m.cmd).bind (cmd? s) with
  | some x => if x.run = m.run then (x.count, x.payload) else (0, [])
  | none => (0, [])

/-- A PREPARE, or the end of a BULK_LOAD's share. -/
def prepare (m : Msg) (s : State) : State :=
  let b := m.body
  let op := field b 1 1
  if op = 0x40 then
    let (n, bs) := arrivedShare s m
    let s := match partOf s m.src m.cmd with | some c => if (cmd? s c).any (·.stage == .reading) then dropPart c s else s | none => s
    match yieldRun m s with
    | none => s
    | some t => preparePart m op (field b 2 2) n bs t
  else match yieldRun m s with
    | none => s
    | some t => preparePart m op (field b 2 2) (field b 4 4) (b.drop 8) t
def execInsertFwdPrepare (src : Nat) (s : State) : Host.Outcome State Fault Refusal :=
  .next (match oldest s (fun m => isMsg 3 src false m && phaseOf m == 0) with
    | none => s
    | some m =>
      if !accepted s m then firewall (dropMsg m s)
      else if s.icern.hold && (partOf s m.src m.cmd).isNone then s else prepare m (dropMsg m s))

/-- A piece of a share is kept until the share ends; while routes are being replaced no new share begins (R337). -/
def takePiece (m : Msg) (s : State) : State :=
  let put := fun (x : Cmd) => { x with
    payload := x.payload.take (field m.body 0 4) ++ m.body.drop 8, count := x.count + field m.body 4 4 }
  let start := fun (s : State) => addCmd (put (forwardedCmd s m (4096 + m.job) (partEntry 0x40 0 0xFFFF 0 0 0))) s
  if ofAborted s m then s else match partOf s m.src m.cmd with
  | none => start s
  | some c => match cmd? s c with
    | none => s
    | some x =>
      if x.run = m.run then (if x.stage = .reading then updCmd c put s else s)
      else if olderRun m.run x.run then s else start (dropPart c s)
def execBulkData (src : Nat) (s : State) : Host.Outcome State Fault Refusal :=
  .next (match oldest s (isMsg 4 src false) with
    | none => s
    | some m =>
      if !accepted s m then firewall (dropMsg m s)
      else if s.icern.hold && (partOf s m.src m.cmd).isNone then s else takePiece m (dropMsg m s))

/-- COMMIT: the part enters the commit queue and is failed no more (R341). -/
def commitPart (m : Msg) (s : State) : State :=
  match partOf s m.src m.cmd with
  | none => s
  | some c =>
    if (cmd? s c).any fun x => isIngest x.opcode && x.run == m.run && !x.committing && x.stage != .final then
      let s := updCmd c (fun x => { x with committing := true }) s
      if (cmd? s c).any (·.stage == .waiting) then queueBatch c s else s
    else s
def execInsertFwdCommit (src : Nat) (s : State) : Host.Outcome State Fault Refusal :=
  .next (withMsg (fun m => isMsg 3 src false m && phaseOf m == 1) (fun m s => if accepted s m then commitPart m s else firewall s) s)

/-- WITHDRAW (R343). -/
def withdrawPart (m : Msg) (s : State) : State :=
  match partOf s m.src m.cmd with
  | none => s
  | some c => if (cmd? s c).any fun x => isIngest x.opcode && !olderRun m.run x.run then dropPart c s else s
def execInsertFwdWithdraw (src : Nat) (s : State) : Host.Outcome State Fault Refusal :=
  .next (withMsg (fun m => isMsg 3 src false m && phaseOf m == 2) (fun m s => if accepted s m then withdrawPart m s else firewall s) s)

/-- A response to PREPARE or COMMIT at the root (R333, R341). -/
def insertResponse (m : Msg) (s : State) : State :=
  match rootCmd s m with
  | none => s
  | some c => match cmd? s c with
    | none => s
    | some x =>
      if x.committing then
        if x.peersDone.contains m.src then s
        else tryFinish c (updCmd c (fun k => { k with
          peersDone := k.peersDone ++ [m.src], deleted := k.deleted + if k.opcode = 0x22 then field m.body 8 4 else 0 }) s)
      else if x.stage = .final then s
      else if field m.body 0 1 ≠ 0 then failCmd c (firstFailure s m) 0 s
      else
        let s := updCmd c (fun k => { k with peersReady := if k.peersReady.contains m.src then k.peersReady else k.peersReady ++ [m.src] }) s
        if x.stage = .waiting then batchReady c s else s
def execInsertFwdResponse (src : Nat) (s : State) : Host.Outcome State Fault Refusal :=
  .next (withMsg (isMsg 3 src true) insertResponse s)

/-! ### Notices, aborts, heartbeats (R334, R342–R344) -/

def peer (s : State) (m : Nat) : Peer := tgetD s.icern.peers m {}
def setPeer (m : Nat) (p : Peer) (s : State) : State := updIcern (fun i => { i with peers := tset i.peers m p }) s

/-- LEVEL 3 or 4 of a root withdraws its prepared parts that have no COMMIT, whatever partitions it names (R343). -/
def rootGone (src : Nat) (s : State) : State :=
  (cmdsOf (fun x => x.origin.any (·.1 == src) && isIngest x.opcode && x.stage != .final && x.stage != .done) s).foldl (fun s c => dropPart c s) s

/-- The in-flight commands that a notice fails: of each spanning job with the module, of which it names a partition (R343). -/
def noticedJobs (s : State) (m : Msg) (level mask : Nat) : List Nat :=
  (spanningJobs s).filter fun j => jobPeer s j m.src && (level ≥ 3 || j == m.job) && (mask &&& maskOf (jobPtns s j)) != 0

def notice (m : Msg) (s : State) : State :=
  let level := field m.body 0 1
  let mask := field m.body 2 2
  let code := BitVec.ofNat 32 (field m.body 4 4)
  let js := noticedJobs s m level mask
  let s := setPeer m.src { peer s m.src with
    noticeLevel := some level, noticeMask := (peer s m.src).noticeMask ||| BitVec.ofNat 16 mask, noticeCode := code } s
  let s := if level ≥ 3 then rootGone m.src (dropParked (· == m.src) s) else s
  js.foldl (fun s j => (inFlight s j).foldl (fun s c =>
    peerFailed .abortedPeer code (if level ≥ 3 then [m.src] else []) c s) s) s
def execFenceNotice (src : Nat) (s : State) : Host.Outcome State Fault Refusal := .next (withMsg (isMsg 5 src false) notice s)

/-- Messages of a run that has been aborted (R255, R344). -/
def staleMsg (a m : Msg) : Bool :=
  (m.type == 1 || m.type == 3 || m.type == 4) && !m.resp && m.src == a.src && m.cmd == a.cmd && (m.run == a.run || olderRun m.run a.run)

/-- The newest aborted run of another module's command is kept, so that what arrives of it later is dropped (R255). -/
def noteAbort (m : Msg) (s : State) : State :=
  updIcern (fun i => { i with aborted := (m.src, m.cmd, m.run) :: i.aborted.filter fun a => !(a.1 == m.src && a.2.1 == m.cmd) }) s

/-- They are dropped, and their credits go back (R255). -/
def dropStale (a : Msg) (s : State) : State := (s.icern.inbox.filter (staleMsg a)).foldl (fun s m => dropMsg m s) s

/-- ABORT: REASON 0 makes the root run the command again, REASON 1 fails it; another module drops its part, of a search to be run again all but its amounts
(R297, R343, R344). -/
def abortPart (m : Msg) (s : State) : State :=
  let reason := field m.body 0 1
  match partOf s m.src m.cmd with
  | some c =>
    if (cmd? s c).any fun x => !olderRun m.run x.run then
      noteAbort m (if reason = 0 ∧ (cmd? s c).any (fun x => isSearch x.opcode && x.admitted) then parkPart c s
        else if reason = 0 ∧ (cmd? s c).any (·.parked) then s else dropPart c s)
    else s
  | none => match rootCmd s m with
    | none => if ofAborted s m then s else noteAbort m s
    | some c =>
      if (cmd? s c).any (·.committing) then s
      else if reason = 0 then killCmd c s else failCmd c (statusOfCode (field m.body 1 1)) 0 s
def execAbort (src : Nat) (s : State) : Host.Outcome State Fault Refusal :=
  .next (withMsg (isMsg 6 src false) (fun m s => abortPart m (dropStale m s)) s)

/-- HEARTBEAT: the peer's record; partitions it names no more are fenced no more (R334, R352). -/
def heartbeat (m : Msg) (s : State) : State :=
  let mask := BitVec.ofNat 16 (field m.body 6 2)
  let p := peer s m.src
  setPeer m.src { p with hbSeq := BitVec.ofNat 32 (field m.body 0 4), oos := bit (field m.body 4 1) 0, fencedMask := mask,
                         noticeMask := p.noticeMask &&& mask } s
def execHeartbeat (src : Nat) (s : State) : Host.Outcome State Fault Refusal := .next (withMsg (isMsg 7 src false) heartbeat s)

/-! ### Route probes (R339, R345) -/

/-- Definitions are compared in mode, partition mask, MODULES, ROOT and module mask. -/
def sameDef (a b : List Byte) : Bool := a.take 6 == b.take 6 && (a.drop 8).take 8 == (b.drop 8).take 8

/-- The job is in service here, or unknown. -/
def answersProbe (s : State) (j : Nat) : Bool := !s.aon.oos && (jobPtns s j).all fun p => (ptn s p).service == .inService

/-- A probe is answered with this module's definition; one that agrees joins the job here (log 68). -/
def probed (m : Msg) (s : State) : State :=
  if !answersProbe s m.job then s
  else
    let fits := sameDef m.body (jobRecord s m.job) && (job? s m.job).any fun x => x.root == m.src
    let s := if (job? s m.job).any fun x => x.root == m.src then updJob m.job (fun x => { x with joined := fits }) s else s
    sendMsg { type := 8, resp := true, src := s.aon.modid, dst := m.src, job := m.job, body := probeBody s m.job } s
def execRouteProbe (src : Nat) (s : State) : Host.Outcome State Fault Refusal := .next (withMsg (isMsg 8 src false) probed s)

/-- The root joins the job once every module has answered alike (R339); an answer ends what a notice said of the job's partitions (R345). -/
def probeReply (m : Msg) (s : State) : State :=
  if !(jobPeer s m.job m.src && (job? s m.job).any fun x => x.root == s.aon.modid) then s
  else
    let fits := sameDef m.body (jobRecord s m.job)
    let left := (peer s m.src).noticeMask &&& ~~~ BitVec.ofNat 16 (maskOf (jobPtns s m.job))
    let s := setPeer m.src { peer s m.src with noticeLevel := if left = 0 then none else (peer s m.src).noticeLevel, noticeMask := left } s
    let all := peersOf s m.job
    let s := updJob m.job (fun x =>
      let ok := if fits then m.src :: x.matched.filter (· ≠ m.src) else x.matched.filter (· ≠ m.src)
      { x with matched := ok, lost := x.lost.filter (· ≠ m.src), probing := x.probing.filter (· ≠ m.src), joined := all.all ok.contains }) s
    if fits then s else postFault (routerFault 6 0 m.src) s
def execRouteProbeReply (src : Nat) (s : State) : Host.Outcome State Fault Refusal := .next (withMsg (isMsg 8 src true) probeReply s)

def execRouteProbeTimer (job : Nat) (s : State) : Host.Outcome State Fault Refusal := onlyIf (isRoot s job) (sendProbes job) s

/-- A probe unanswered for 10 ms: the job is joined no more (R339). -/
def execProbeTimeout (job peer : Nat) (s : State) : Host.Outcome State Fault Refusal :=
  onlyIf (isRoot s job && (job? s job).any fun x => x.probing.contains peer)
    (updJob job fun x => { x with joined := false, matched := x.matched.filter (· ≠ peer), lost := peer :: x.lost.filter (· ≠ peer) }) s

/-- 10 ms without a valid route to the root: parts that hold neither COMMIT nor WITHDRAW are withdrawn (R343). -/
def loseRoot (j : Nat) (s : State) : State :=
  (cmdsOf (fun x => x.job == j && x.origin.isSome && isIngest x.opcode && x.stage != .final && x.stage != .done) s).foldl (fun s c => dropPart c s) s
def execRootRouteLoss (job : Nat) (s : State) : Host.Outcome State Fault Refusal :=
  onlyIf ((job? s job).any fun x => x.root != s.aon.modid && !reachable s x.root) (loseRoot job) s

end Sys2Proof.Machine
end

