-- ==== Sys2Proof/Machine/Layout.lean ====
section
/-! DEFINITION. The bytes that a partition's memory holds where the records of State have a layout: the control area (R79, R81, R92, R93, R99),
the context area (R249, R250), key buckets (R95, R96, R98), list tables (R99), centroid tables (R102, R103), postings (R140, R141) and brick frames (R83, R84). Their records
are State's own fields; their addresses follow log 21 where the manual gives none. -/

namespace Sys2Proof.Machine

/-! ### The directory record (R81) -/

/-- The 256 bytes of a collection's directory record in a partition. -/
def directoryBytes (s : State) (c p : Nat) : List Byte :=
  let x := coll s c
  let y := collPtn x p
  let addr := fun a : Nat => leBytes 8 a
  let level := fun k : Nat => addr (if k < x.strata.length then centroidAddr s c p k 0 else 0)
  padBytes 256 (leBytes 2 c ++ [BitVec.ofNat 8 x.job, BitVec.ofNat 8 x.state.code] ++ leBytes 2 x.d ++ leBytes 2 (coordN x) ++
    [BitVec.ofNat 8 x.metric, x.opts, BitVec.ofNat 8 x.gsize, BitVec.ofNat 8 x.tau] ++ leBytes 8 x.seed.toNat ++ leBytes 4 y.latest.toNat ++
    leBytes 4 y.horizon.toNat ++ leBytes 2 x.retain ++ [BitVec.ofNat 8 x.strata.length, BitVec.ofNat 8 (collHome s c)] ++
    leBytes 4 x.leaves.length ++ leBytes 4 (frameSize x) ++ leBytes 8 y.live ++ leBytes 8 y.tomb ++ leBytes 4 x.trainEp.toNat ++
    leBytes 4 (y.kdB + 256 * y.kdP) ++ ((upto 16).flatMap fun i => leBytes 4 (lget x.schema i 0).toNat) ++
    level 0 ++ level 1 ++ level 2 ++ addr (structAddr s c p (.lists 0)) ++
    addr (mapAddr c p false) ++ addr (if spills x then mapAddr c p true else 0) ++ addr (y.loose.headD 0) ++ addr (y.loose.getLast?.getD 0) ++
    addr (if hasScales x then scalesAddr c p else 0) ++ addr (if hasSparse x then structAddr s c p (.postDir 0) else 0))

/-! ### List tables (R99) -/

/-- Extents of a run: first frame and number of frames of each stretch of adjacent ones. -/
def extentList (f : Nat) : List Nat → List (Nat × Nat)
  | [] => []
  | a :: t => match extentList f t with
    | (b, n) :: r => if b = a + f then (a, n + 1) :: r else (a, 1) :: (b, n) :: r
    | [] => [(a, 1)]

def TampState.code : TampState → Nat
  | .idle => 0 | .cut => 1 | .copy => 2 | .commit => 3 | .retire => 4

/-- The layout that a list-table entry and a retiring record share; no rule pins a list. -/
def listBytes (f l st retiring : Nat) (run chain : List Nat) (word12 : Nat) : List Byte :=
  let xs := extentList f run
  padBytes 128 (leBytes 4 l ++ [BitVec.ofNat 8 st, BitVec.ofNat 8 xs.length, BitVec.ofNat 8 retiring, 0] ++ leBytes 4 run.length ++ leBytes 4 word12 ++
    leBytes 5 (chain.headD 0) ++ [0, 0, 0] ++ leBytes 5 (chain.getLast?.getD 0) ++ [0, 0, 0] ++
    xs.flatMap fun e => leBytes 5 e.1 ++ leBytes 3 e.2)

/-- The list-table entry of a list. -/
def entryRecord (y : Coll) (l : Nat) : List Byte :=
  let k := leaf y l
  listBytes (frameSize y) l k.state.code ((k.retiring.map (·.index)).getD 0xFF) k.run k.chain k.sedSlots

/-- Retiring record i of a partition; its bytes 12–15 hold E_t. -/
def retiringBytes (s : State) (p i : Nat) : List Byte :=
  ((s.colls.flatMap fun c => (listsOf c.2 p).filterMap fun l =>
    ((leaf c.2 l).retiring.filter fun r => r.index == i).map fun r => listBytes (frameSize c.2) l 4 0xFF r.run r.chain r.epoch.toNat).head?).getD []

/-! ### Key buckets (R95, R96, R98) -/

/-- A directory or spill entry. -/
def keyBytes (spill : Bool) (k : Nat × KeyEnt) : List Byte :=
  let q := if spill then k.2.spill.getD k.2.slot else k.2.slot
  leBytes 8 k.1 ++ leBytes 5 q.brick ++
    [BitVec.ofNat 8 (q.slot % 64 + (if k.2.spill.isSome then 64 else 0) + (if k.2.deleted then 128 else 0))] ++ leBytes 2 k.2.gen.toNat

/-- The first overflow bucket of bucket i, in numbers: those of the buckets before it come first, the spill table's after the directory's. -/
def firstOver (s : State) (c p : Nat) (spill : Bool) (i : Nat) : Nat :=
  overCount (fun j => (bucketKeys s c p spill j).length) i +
    if spill then overCount (fun j => (bucketKeys s c p false j).length) (bucketCount (collPtn (coll s c) p)) else 0

/-- An empty entry, marked by the reserved key (R97). -/
def emptyEntry : List Byte := List.replicate 8 0xFF ++ List.replicate 8 0
/-- Link k of a bucket's chain, the bucket itself first: three entries, and the address of the next. -/
def bucketBytes (s : State) (c p : Nat) (spill : Bool) (i k : Nat) : List Byte :=
  let es := bucketKeys s c p spill i
  let here := (es.drop (3 * k)).take 3
  padBytes 64 (leBytes 5 (if es.length > 3 * (k + 1) then overAddr s c p (firstOver s c p spill i + k) else 0) ++
    [BitVec.ofNat 8 here.length] ++ List.replicate 10 0 ++ here.flatMap (keyBytes spill) ++ (List.replicate (3 - here.length) emptyEntry).flatten)

/-- Which link of which bucket an overflow bucket is. -/
def overOf (s : State) (c p j : Nat) : Option (Bool × Nat × Nat) :=
  let n := bucketCount (collPtn (coll s c) p)
  [false, true].findSome? fun spill => (upto n).findSome? fun i =>
    let f := firstOver s c p spill i
    let k := ceilDiv (bucketKeys s c p spill i).length 3 - 1
    if f ≤ j ∧ j < f + k then some (spill, i, j - f + 1) else none

/-- The region addresses of a key directory or spill table. -/
def mapBytes (s : State) (c p : Nat) (spill : Bool) (i : Nat) : List Byte := leBytes 8 (structAddr s c p (if spill then .spills i else .keys i))

/-! ### Tombstones (R92, R93) -/

def indexWord : Option Nat → Nat
  | some i => i
  | none => 0xFFFFFFFF
/-- The brick of a partition whose tombstone record lies at an offset of its stack (R92). -/
def tombBrick (s : State) (p o : Nat) : Option Nat :=
  s.colls.findSome? fun c => (c.2.bricks.find? fun b => ptnOfAddr b.1 == p && tombAddr b.1 == o).map (·.1)
def tombBytes (t : TombRec) : List Byte := leBytes 8 t.settledMask.toNat ++ leBytes 4 t.newest.toNat ++ leBytes 4 (indexWord t.head)
def tombLogBytes (e : LogEnt) : List Byte := leBytes 8 e.mask.toNat ++ leBytes 4 e.epoch.toNat ++ leBytes 4 (indexWord e.prev)

/-! ### Frames (R83, R84, R102) and postings (R140, R141) -/

/-- The bytes of a brick's frame. -/
def frameBytes (c : Nat) (y : Coll) (b : Brick) : List Byte := (upto 8).flatMap fun code => partBytes c y b code

/-- The bytes of frame f of a strata level. -/
def centroidFrame (c : Nat) (y : Coll) (lvl f : Nat) : List Byte := [0, 1, 2, 3, 5].flatMap fun code => centroidPart c y lvl f code

/-- Level and frame of the n-th centroid frame of a collection. -/
def levelFrame : List (List Centroid) → Nat → Nat → Option (Nat × Nat)
  | [], _, _ => none
  | l :: t, lvl, n => let k := ceilDiv l.length 64; if n < k then some (lvl, n) else levelFrame t (lvl + 1) (n - k)

/-- The term entry of a term in a partition (R140). -/
def termBytes (y : Coll) (p t : Nat) : List Byte :=
  let bs := termBlocks y p t
  padBytes 32 (leBytes 5 ((bs.head?.map (·.addr)).getD 0) ++ leBytes 5 ((bs.getLast?.map (·.addr)).getD 0) ++ [0, 0] ++
    leBytes 4 (termPostings y p t).length ++ leBytes 4 (termMax y p t).toNat)

/-- The block at an address, with its term and its place in the chain. -/
def blockAt (y : Coll) (a : Nat) : Option (Nat × Nat) :=
  y.postings.findSome? fun t => ((termBlocks y (ptnOfAddr a) t.1).findIdx? fun b => decide (b.addr ≤ a) && decide (a < b.addr + 4224)).map fun i => (t.1, i)

/-! ### The context area (R249, R250) -/

/-- The offset of a save slot in its stack (R249). -/
def saveOffset (n : Nat) : Nat := 0x04000000 + n * 0x05000000
/-- Bytes of an anvil record (R250). -/
def recordBytes : Nat := 0x17000

/-- A byte of an anvil's sieve program store: 64 words for each of 8 programs, of the context's filters that have a place there (R120, log 44). -/
def sieveByte (s : State) (ctx o : Nat) : Byte :=
  match ((ctxOr s ctx).filters.filter fun f => (Config.sieveSlot ctx f.1).toNat == o / 256).head? with
  | some f => lget (f.2.flatMap fun w => leBytes 4 w.toNat) (o % 256) 0
  | none => 0

/-- A byte of a saved anvil record, at address a; the steps of a custom pattern are there once its context is evicted, and the binding record has
no layout (R250, log 75). -/
def recordByte (s : State) (a ctx : Nat) (evicted : Bool) (k : Anvil) (o : Nat) : Option Byte :=
  if o < 0xF000 then some (localByte k 0 o)
  else if o < 0x13000 then some (lget (selBytes k ((o - 0xF000) / 16)) (o % 16) 0)
  else if o < 0x13800 then some (localByte k (BitVec.ofNat 64 k.charge) (0xF800 + (o - 0x13000)))
  else if o < 0x14000 then some (sieveByte s ctx (o - 0x13800))
  else if o < 0x16800 then
    (if k.pattern ≥ 0x100 && evicted then
      (patternVer s ctx (((leadCmd s k).map (·.patVer)).getD 0)).map fun v => lget (v.steps.flatMap fun w => leBytes 16 w.toNat) (o - 0x14000) 0
     else none)
  else some (Config.areaByte a s.free)

/-- A byte of a save slot: its anvil records, then the partition record, which has no layout. -/
def slotByte (s : State) (a p n o : Nat) : Option Byte :=
  match tget (ptn s p).saves n with
  | none => none
  | some v =>
    if o < 864 * recordBytes then
      (tget v.anvils (o / recordBytes)).bind fun k => recordByte s a v.ctx (tget (ptn s p).resident v.ctx).isNone k (o % recordBytes)
    else some (Config.areaByte a s.free)

/-- A byte of the context area at an offset of the stack: records of the defined contexts and the images of those not resident have no layout, and
the save slots follow. -/
def contextByte (s : State) (a p o : Nat) : Option Byte :=
  let mine := s.ctxs.filter fun c => some c.2.job == (ptn s p).job
  if o < 0x100000 then (if o / 4096 < mine.length then some (Config.areaByte a s.free) else none)
  else if o < 0x04000000 then
    (if mine.any fun c => (tget (ptn s p).resident c.1).isNone then some (Config.areaByte a s.free) else none)
  else slotByte s a p ((o - 0x04000000) / 0x05000000) ((o - 0x04000000) % 0x05000000)

/-! ### A byte of a structure -/

/-- A byte of a region that belongs to a collection, o bytes from its base. -/
def regionByte (s : State) (c p a o : Nat) (u : RegUse) : Option Byte :=
  let y := coll s c
  match u with
  | .frames =>
    let f := frameSize y
    (brick? y (a - o % f)).map fun b => lget (frameBytes c y b) (o % f) 0
  | .keys i => some (lget (bucketBytes s c p false (2 ^ 18 * i + o / 64) 0) (o % 64) 0)
  | .spills i => some (lget (bucketBytes s c p true (2 ^ 18 * i + o / 64) 0) (o % 64) 0)
  | .over i => (overOf s c p (2 ^ 18 * i + o / 64)).map fun b => lget (bucketBytes s c p b.1 b.2.1 b.2.2) (o % 64) 0
  | .lists i => ((listsOf y p)[(2 ^ 24 * i + o) / 128]?).map fun l => lget (entryRecord y l) (o % 128) 0
  | .strata i =>
    let f := 1600 + 64 * coordN y
    (levelFrame y.strata 0 ((2 ^ 24 * i + o) / f)).map fun k => lget (centroidFrame c y k.1 k.2) ((2 ^ 24 * i + o) % f) 0
  | .postDir i => some (lget (termBytes y p ((2 ^ 24 * i + o) / 32)) (o % 32) 0)
  | .postings => (blockAt y a).map fun b => lget (blockBytes y p b.1 b.2) (o % 4224) 0

/-- A collection has a directory record in a partition: those of its job (R81). -/
def hasRecord (s : State) (c p : Nat) : Bool := (coll s c).state != .free && (jobPtns s (coll s c).job).contains p

/-- A byte of the control area, at an offset of the stack (R79). -/
def controlByte (s : State) (p o : Nat) : Option Byte :=
  let c := (o - 0x40000000) / 256
  if 0x40000000 ≤ o ∧ o < 0x40100000 then (if hasRecord s c p then some (lget (directoryBytes s c p) (o % 256) 0) else none)
  else if 0x40100000 ≤ o ∧ o < 0x40100800 then
    (let bs := retiringBytes s p ((o - 0x40100000) / 128); if bs.isEmpty then none else some (lget bs (o % 128) 0))
  else if 0x40200000 ≤ o ∧ o < 0x40300000 then (tget (ptn s p).log ((o - 0x40200000) / 16)).map fun e => lget (tombLogBytes e) (o % 16) 0
  else if 0x41000000 ≤ o ∧ o < 0x50800000 then
    (tombBrick s p (o - o % 16)).map fun b => lget (tombBytes (tombRec s b)) (o % 16) 0
  else if 0x50800000 ≤ o ∧ o < 0x60800000 then
    (let k := o - 0x50800000
     if hasRecord s (k / 65536) p then some (lget (mapBytes s (k / 65536) p (k % 65536 ≥ 32768) (k % 32768 / 8)) (o % 8) 0) else none)
  else if 0x60800000 ≤ o ∧ o < 0x60900000 then
    (let k := (o - 0x60800000) / 256
     if hasRecord s k p && hasScales (coll s k) then some (lget (padBytes 256 (scaleBytes ((coll s k).scales.getD {}))) (o % 256) 0) else none)
  else none

/-- The byte of a structure at a device address; none where none lies there. -/
def structByte (s : State) (a : Nat) : Option Byte :=
  let p := ptnOfAddr a
  let o := a % 2 ^ 36
  if o < 0x40000000 then contextByte s a p o
  else if o < 0x80000000 then controlByte s p o
  else match tget (ptn s p).regions (regionOf a) with
    | some r => match r.inUse, r.coll with
      | true, some c => regionByte s c p a (a - regionBase p (regionOf a)) r.use
      | _, _ => none
    | none => none

/-- What a read of a device address finds: the byte of a structure, else of memory. -/
def viewByte (s : State) (a : Nat) : Byte := (structByte s a).getD (memByte s a)
def viewBytes (s : State) (a n : Nat) : List Byte := (upto n).map fun i => viewByte s (a + i)

end Sys2Proof.Machine
end

