-- ==== Sys2Proof/Machine/MemRows.lean ====
section
/-! DEFINITION. The memory system's own events: requests at their home (R195–R199, R353, R383), reads and scrubs (R219–R222),
write-combining (R205, R208), rates (R202), stack temperature (R223–R226), policy conflicts (R369), hot counts (R212), clip windows (R31). -/

namespace Sys2Proof.Machine

/-! ### Requests (R195–R199) -/

/-- A request as its home sees it: issuer, context, address, length, bytes of a write. -/
structure HomeReq where
  issuer : Option Nat
  ctx : Option Nat
  addr : Nat
  len : Nat
  write : Option (List Byte)
  deriving DecidableEq, Repr

/-- Bytes of an outstanding step. -/
def outLen (o : Outst) : Nat := if o.isStore || o.part.isSome then o.bytes.length else 64 * o.lines

/-- An earlier request of the anvil to one of the lines has not been served: requests to one line are served in the order issued (R198). -/
def behindEarlier (x : Anvil) (i : Nat) (o : Outst) : Bool :=
  (x.outst.take i).any fun e => !e.served && shareLine e.addr (64 * e.lines) o.addr (64 * o.lines)

/-- The request that a requester has outstanding: an anvil's is its own step's, an engine's or a West unit's is the one given. -/
def homeReq (s : State) (who : Requester) (req : MemReq) : Option HomeReq :=
  match who with
  | .anvil p a i =>
    let x := anvil s p a
    match x.outst[i]? with
    | some o =>
      if o.served || o.isAtom || behindEarlier x i o then none
      else some { issuer := some p.val, ctx := some (anvCtx s x), addr := o.addr, len := outLen o, write := if o.isStore then some o.bytes else none }
    | none => none
  | .engine p c _ => some { issuer := some p.val, ctx := some c, addr := req.addr, len := req.len, write := req.write }
  | .west c _ => some { issuer := none, ctx := c, addr := req.addr, len := req.len, write := req.write }

/-- Whether a request is far (R196). -/
def isFar (r : HomeReq) : Bool := r.issuer != some (homePtn r.addr)

/-- Lines and bytes are counted for the context at the issuer (R240). -/
def countBytes (r : HomeReq) (s : State) : State :=
  match r.ctx, r.issuer with
  | some c, some _ =>
    let n := BitVec.ofNat 64 (64 * lineCount r.addr r.len)
    updCtx c (fun k => { k with counters := if isFar r then { k.counters with farB := k.counters.farB + n }
      else { k.counters with nearB := k.counters.nearB + n } }) s
  | _, _ => s

/-- Bytes of a STORE accepted at the home; granules that are poisoned go as poison (R198, R220). -/
def acceptStore (a : Anvil) (o : Outst) (s : State) : State :=
  (upto o.lines).foldl (fun s j =>
    let bs := (o.bytes.drop (64 * j)).take 64
    if o.poison && padPoisoned a (o.src + 64 * j) 64 then writePoisoned (o.addr + 64 * j) bs s else writeMem (o.addr + 64 * j) bs s) s

/-! Read order of a channel (R236) -/

/-- Work of an anvil that is bulk (R230). -/
def anvBulk (s : State) (a : Anvil) : Bool := a.chunk.isSome || (leadCmd s a).any bulkClass

/-- A read of an anvil on a channel, of bulk or of interactive work, has been issued and not served. -/
def readWaits (s : State) (p ch : Nat) (bulk : Bool) : Bool :=
  s.ptns.any fun x => x.2.anvils.any fun a => anvBulk s a.2 == bulk && a.2.outst.any fun o =>
    !o.isStore && !o.isAtom && !o.served && homePtn o.addr == p && channelOf o.addr == ch

/-- Interactive lines that a channel serves while a bulk read waits before the bulk read's turn: 15, so that bulk reads receive one line in 16,
and one in a BULK slot, where the two classes alternate (R236). -/
def bulkTurn (x : Ptn) : Nat := if (curSlot x).cls = 2 then 1 else 15

/-- A read of an anvil whose channel serves the other class first (R236; log 26): bulk work while interactive reads have lines left to serve,
interactive work once a waiting bulk read's turn has come. -/
def yieldsTurn (s : State) (r : HomeReq) (who : Requester) : Bool :=
  match who with
  | .anvil p a _ =>
    let h := homePtn r.addr
    let ch := channelOf r.addr
    let due := decide (tgetD (ptn s h).chanRun ch 0 ≥ bulkTurn (ptn s h))
    if r.write.isSome then false
    else if anvBulk s (anvil s p a) then readWaits s h ch false && !due
    else readWaits s h ch true && due
  | _ => false

/-- The channel's count after a read of an anvil. -/
def countTurn (r : HomeReq) (who : Requester) (s : State) : State :=
  match who with
  | .anvil p a _ =>
    let h := homePtn r.addr
    let ch := channelOf r.addr
    if r.write.isSome then s
    else if anvBulk s (anvil s p a) then updPtn h (fun x => { x with chanRun := tdel x.chanRun ch }) s
    else if readWaits s h ch true then
      updPtn h (fun x => { x with chanRun := tset x.chanRun ch (tgetD x.chanRun ch 0 + lineCount r.addr r.len) }) s
    else s
  | _ => s

/-- What a fetch reads when it is served: a brick's part as its frame then holds it, else the bytes of memory; the slot list of R131 keeps the
words it was issued with (log 5). -/
def fetchBytes (s : State) (o : Outst) (n : Nat) : List Byte :=
  match o.part, o.desc with
  | some (code, slice), some d => if code = 8 then o.bytes else padBytes n (descPart s d code slice 0)
  | _, _ => memBytes s o.addr n

/-- The lines of a range that hold a poisoned word. -/
def badLinesOf (s : State) (addr lines : Nat) : List Nat := (upto lines).filter fun j => rangePoisoned s (addr + 64 * j) 64

/-- Entries of a channel beyond 24 are written out, oldest first: they are served ahead of reads (R205, R302). -/
def drainChannel : Nat → Nat → Nat → State → State
  | 0, _, _, s => s
  | n + 1, p, ch, s =>
    match chanEnts (ptn s p) ch with
    | e :: rest => if rest.length + 1 > 24 then drainChannel n p ch (flushLine p e.line [] s) else s
    | [] => s

/-- A request served (R198): a STORE completes at acceptance, a fetch holds its data until it lands. -/
def serveReq (who : Requester) (r : HomeReq) (s : State) : State :=
  let s := countTurn r who (countBytes r s)
  let s := if r.write.isSome then s else drainChannel 32 (homePtn r.addr) (channelOf r.addr) s
  match who with
  | .anvil p a i =>
    let x := anvil s p a
    match x.outst[i]? with
    | some o =>
      if o.isStore then updAnvil p a (fun x => { x with outst := x.outst.eraseIdx i }) (acceptStore x o s)
      else
        let t := if o.part.isSome then s else cacheLines o.addr r.len s
        updAnvil p a (fun x => { x with
          outst := x.outst.set i { o with served := true, bytes := fetchBytes s o r.len, badLines := badLinesOf s o.addr o.lines } }) t
    | none => s
  | _ => match r.write with
    | some bs => answer .written (writeMem r.addr bs s)
    | none => answer (.data (viewBytes s r.addr r.len) (rangePoisoned s r.addr r.len)) (cacheLines r.addr r.len s)

/-- The class 0x1 code of an engine's address of a partition 12–15, of the issuer's crucible controller (R221; log 57). -/
def addrFault (p a : Nat) : W32 := faultCode 1 0x50 p (channelOf a * 2 ^ 11 + pseudoOf a * 2 ^ 10 + 6 * 2 ^ 6)

/-- An address of a partition 12–15 (R195). -/
def noHome (who : Requester) (a : Nat) (s : State) : State :=
  match who with
  | .anvil p i _ => sandboxFault 1 p i s
  | .engine p _ _ => postFault (addrFault p.val a) (answer .refused s)
  | .west _ _ => postFault (addrFault 0xF a) (answer .refused s)

/-- A request for receive tokens waits in the home's far queue (R199). -/
def queueFar (h : Nat) (r : HomeReq) (who : Requester) (s : State) : State :=
  updPtn h (fun x => { x with farQ := x.farQ ++ [{ issuer := r.issuer, who := who, req := { addr := r.addr, len := r.len, write := r.write } }] }) s

/-- The request of an anvil's step waits in a far queue already. -/
def inFarQ (x : Ptn) (who : Requester) (req : MemReq) : Bool :=
  match who with
  | .anvil p a _ => x.farQ.any fun q => q.req == req && match q.who with | .anvil p' a' _ => p == p' && a == a' | _ => false
  | _ => false

/-- A far request: issue and Seam tokens, then receive tokens, or a place in the far queue behind those that wait there (R199). -/
def farRequest (h : Nat) (r : HomeReq) (who : Requester) (s : State) : State :=
  let n := lineCount r.addr r.len
  let req : MemReq := { addr := r.addr, len := r.len, write := r.write }
  if inFarQ (ptn s h) who req || decide (farLines (ptn s h) + n > 1024) then s
  else match takeIssue r.issuer h n s with
    | none => noteIssueWait r.issuer h n (who, req) s
    | some s =>
      if (ptn s h).farQ.isEmpty then
        match takeReceive h n s with
        | some s => serveReq who r s
        | none => queueFar h r who (noteReceiveWait r.issuer h n s)
      else queueFar h r who (noteReceiveWait r.issuer h n s)

/-- The home takes requests: in FORGE or WARM, and not fenced past its drain. -/
def takesRequests (x : Ptn) : Bool := x.power == .forge || x.power == .warm

/-! Errors of the crucible (R218) -/

/-- The class 0x1 CRUC_TAG code of a home's crucible controller (R221). -/
def tagFault (a : Nat) : W32 := faultCode 1 0x50 (homePtn a) (channelOf a * 2 ^ 11 + pseudoOf a * 2 ^ 10 + 5 * 2 ^ 6)

/-- A line with an uncorrectable data error is invalid and is fetched again; a pinned or locked one keeps its class (R218). -/
def dropCached (a n : Nat) (s : State) : State :=
  updPtn (homePtn a) (fun x => { x with cached := x.cached.filter fun l => !shareLine (stackOff a) n l 1 }) s

/-- What a request meets in its home's crucible: an error in a tag starts L1 of the crucible controller, one in the holder table L2 of the
partition (R218, R356), and the request is not served. -/
def meet (met : CrucMet) (r : HomeReq) (go : State → State) (s : State) : State :=
  let h := homePtn r.addr
  match met with
  | .clean => go s
  | .data => go (dropCached r.addr r.len s)
  | .tag => engineFault 0x50 h (tagFault r.addr) (postFault (tagFault r.addr) s)
  | .holder => startL2 h (tagFault r.addr) true false (postFault (tagFault r.addr) s)

/-- A request at its home: partition, firewall, fence, crucible, tokens (R195, R199, R218, R353, R383). -/
def request (who : Requester) (req : MemReq) (met : CrucMet) (s : State) : State :=
  match homeReq s who req with
  | none => s
  | some r =>
    let h := homePtn r.addr
    if h ≥ 12 then noHome who r.addr s
    else if r.ctx.any fun c => !ownsHome s c h then refuseAccess h (r.ctx.getD 0) (answer .refused s)
    else if isFar r && pastDrain (ptn s h) then fencedReply h who s
    else if !takesRequests (ptn s h) then demand h s
    else meet met r (fun s =>
      if yieldsTurn s r who then s else if isFar r then farRequest h r who s else serveReq who r s) s
def execMemoryRequest (who : Requester) (ev : ServedReq) (s : State) : Host.Outcome State Fault Refusal := .next (request who ev.req ev.met s)

/-- The place of an issuer in the round-robin of a far queue: partitions 0–11, then West (R199). -/
def issuerRank (i : Option Nat) : Nat := i.getD 12
/-- How far an issuer's turn is from the one last served. -/
def turnOf (x : Ptn) (i : Option Nat) : Nat := (issuerRank i + 13 - x.farLast - 1) % 13

/-- The next far request: the first of the issuer that follows the last one served. -/
def nextFar (x : Ptn) : Option FarReq :=
  minBy (fun q : FarReq => turnOf x q.issuer) x.farQ

/-- The requester of a waiting request as its anvil now numbers the step. -/
def whoNow (s : State) (q : FarReq) : Requester :=
  match q.who with
  | .anvil p a i =>
    let os := (anvil s p a).outst
    .anvil p a ((os.findIdx? fun o => !o.served && !o.isAtom && o.addr == q.req.addr && outLen o == q.req.len && o.isStore == q.req.write.isSome).getD
      (max i os.length))
  | w => w

/-- A request that obtained its tokens is served. -/
def serveQueued (q : FarReq) (s : State) : State :=
  match q.mem with
  | some (_, acc) => serveAccess q.req.addr acc s
  | none => match homeReq s (whoNow s q) q.req with
    | some r => serveReq (whoNow s q) r s
    | none => s

/-- The far element at the head of the home bank waits for its receive token: who issued it (R199). -/
def waitingAtom (x : Ptn) : Option (Nat × AtomReq) :=
  match x.atomQ with
  | r :: _ => if r.issued && r.waits && !r.granted then r.from_.map fun f => (f.1, r) else none
  | [] => none

/-- A far request that waits obtains its receive tokens, the issuers in turn, an element of an ATOMIC among them (R199); then CXL.mem accesses that
found no Seam tokens or no place try again. -/
def serveFar (h : Nat) (s : State) : State :=
  let x := ptn s h
  let atom := fun (q : Nat) (r : AtomReq) => match takeReceive h 1 s with
    | none => s
    | some s => setAtomHead h { r with granted := true } (updPtn h (fun x => { x with farLast := q }) s)
  let queued := fun (q : FarReq) => match takeReceive h (lineCount q.req.addr q.req.len) s with
    | none => s
    | some s => serveQueued q (updPtn h (fun x => { x with farQ := removeFirst q x.farQ, farLast := issuerRank q.issuer }) s)
  serveWaits h (match nextFar x, waitingAtom x with
    | none, none => s
    | some q, none => queued q
    | none, some (i, r) => atom i r
    | some q, some (i, r) => if turnOf x q.issuer ≤ turnOf x (some i) then queued q else atom i r)
def execFarQueueServe (p : Fin 12) (s : State) : Host.Outcome State Fault Refusal := .next (serveFar p.val s)

/-! ### Reads and scrubs (R219–R222) -/

/-- Words found corrected, and uncorrectable, on a line of a stack. -/
def lineFound (cause p line fixed : Nat) (bad : List Nat) (s : State) : State :=
  let s := updPtn p (fun x => { x with ceCnt := BitVec.ofNat 32 (min 0xFFFFFFFF (x.ceCnt.toNat + fixed)) }) s
  bad.foldl (fun s w => if w < 8 then foundBad cause (p * 2 ^ 36 + line + 8 * w) s else s) s

/-- A demand read returns: corrected in line and queued for write-back, or poisoned with READ_UE. -/
def execHbmReadComplete (p : Fin 12) (line fixed : Nat) (bad : List Nat) (s : State) : Host.Outcome State Fault Refusal :=
  onlyIf ((ptn s p.val).power != .cold && line % 64 == 0 && decide (line < 2 ^ 36)) (fun s =>
    let s := if fixed > 0 then updPtn p.val (fun x => { x with writeBack := if x.writeBack.contains line then x.writeBack else x.writeBack ++ [line] }) s else s
    lineFound 1 p.val line fixed bad s) s

/-- Line n of a channel in ascending address order. -/
def scrubLine (ch n : Nat) : Nat := n / 32 * 2 ^ 16 + ch * 2 ^ 11 + n % 32 * 64
def scrubAt (x : Ptn) (ch : Nat) : Nat := tgetD x.scrub ch 0
def scrubOn (ch n : Nat) (x : Ptn) : Ptn := { x with scrub := tset x.scrub ch ((scrubAt x ch + n) % 2 ^ 25) }

/-- The patrol scrubber reads its next line; corrected lines that reads left are written back (R219, R222). -/
def scrubNext (p ch fixed : Nat) (bad : List Nat) (s : State) : State :=
  let line := scrubLine ch (scrubAt (ptn s p) ch)
  let s := updPtn p (fun x => scrubOn ch 1 { x with writeBack := x.writeBack.filter fun l => channelOf l != ch }) s
  lineFound 2 p line fixed bad s
/-- The scrubber of a channel under test pauses (R222). -/
def scrubRuns (s : State) (p ch : Nat) : Bool := (ptn s p).power != .cold && !s.hearth.underTest.contains (p, ch)
def execScrubRead (p : Fin 12) (ch : Fin 32) (fixed : Nat) (bad : List Nat) (s : State) : Host.Outcome State Fault Refusal :=
  onlyIf (scrubRuns s p.val ch.val) (scrubNext p.val ch.val fixed bad) s

/-- The next 32 lines of a channel. -/
def burstHas (x : Ptn) (line : Nat) : Bool :=
  let ch := channelOf line
  (upto 32).any fun j => line == scrubLine ch ((scrubAt x ch + j) % 2 ^ 25)

/-- A burst of 1,024 lines in BANKED (R222): the lines of it with corrected words, their number, and uncorrectable ones, which. -/
def scrubMany (p : Nat) (found : List (Nat × Nat × List Nat)) (s : State) : State :=
  let here := found.filter fun f => burstHas (ptn s p) f.1
  let s := updPtn p (fun x => (upto 32).foldl (fun x ch => scrubOn ch 32 x) { x with writeBack := [] }) s
  here.foldl (fun s f => lineFound 2 p f.1 f.2.1 f.2.2 s) s
def execScrubBurst (done : BurstDone) (s : State) : Host.Outcome State Fault Refusal :=
  onlyIf ((ptn s done.ptn.val).power == .banked) (scrubMany done.ptn.val done.found) s

/-! ### Write combining (R205, R208) -/

/-- The oldest entry of a channel reaches its age. -/
def ageFlush (p ch : Nat) (bad : List Nat) (s : State) : State :=
  match chanEnts (ptn s p) ch with
  | e :: _ => flushLine p e.line bad s
  | [] => s
def execWcbAgeFlush (p : Fin 12) (ch : Fin 32) (bad : List Nat) (s : State) : Host.Outcome State Fault Refusal := .next (ageFlush p.val ch.val bad s)

/-- What follows a completed fence (R89, R208, R352, R386, R393). -/
def afterWcFence (p : Nat) (why : FenceFor) (s : State) : State :=
  match why with
  | .batch c => if s.ptns.any fun x => x.2.wcFences.any fun f => f.why == .batch c then s else batchReady c s
  | .reset => fenceWritten p s
  | .step4 => fenceWritten p s
  | .banked => updPtn p (fun x => { x with banking := x.banking.map fun _ => 4 }) s
  | .zeroise => s

/-- The words of a line among those found uncorrectable. -/
def wordsOf (bad : List (Nat × Nat)) (line : Nat) : List Nat := (bad.filter fun b => b.1 == line).map (·.2)

/-- The oldest outstanding fence of a partition completes: the entries it names are written, with the words that the reads of R206 find
uncorrectable, by line; a reset's fence leaves out the channels whose controllers failed since it was asked for (R352). -/
def completeFence (p : Nat) (bad : List (Nat × Nat)) (s : State) : State :=
  match (ptn s p).wcFences with
  | [] => s
  | f :: _ =>
    let skip := if f.why = .reset then faultyOf (ptn s p) else []
    let s := (f.lines.filter fun l => !skip.contains (channelOf l)).foldl (fun s l => flushLine p l (wordsOf bad l) s) s
    afterWcFence p f.why (updPtn p (fun x => { x with wcFences := x.wcFences.drop 1 }) s)
def execWcFence (done : FenceDone) (s : State) : Host.Outcome State Fault Refusal := .next (completeFence done.ptn.val done.bad s)

/-! ### Rates (R202, R203) -/

/-- adapt(p) of R202. -/
def adapt (step : Nat) (o : AdaptObs) (r : Reg) : Reg :=
  let cap := stepRate step
  let rcv := if o.utilMilli > 900 ∧ o.nearWaiting > 0 then max r.rcvMin (r.rcv - r.rcv / 8)
    else if r.rcvWaited > 0 then min r.rcvMax (r.rcv + 512) else r.rcv
  let eff := min rcv (cap / 2)
  let iss := if r.blocked > r.issWaited then max r.issMin (r.iss - r.iss / 8)
    else if r.issWaited > 0 then min r.issMax (r.iss + 512) else r.iss
  { r with rcv := rcv, rcvEff := eff, iss := iss, conflict := decide (eff < r.rcvMin), waited := BitVec.ofNat 16 (min 65535 r.rcvWaited)
           rcvWaited := 0, issWaited := 0, blocked := 0, seen := [] }

/-- Far requests that still wait, which the next interval counts too: lines that wait at p, requests of p that wait elsewhere, elements of p that
wait for issue tokens (R202). -/
def stillWaiting (p : Nat) (s : State) (r : Reg) : Reg :=
  let here := (ptn s p).atomQ.filter fun q => q.waits && q.issued
  let mine := fun q : AtomReq => q.waits && q.from_.any fun f => f.1 == p
  { r with
    rcvWaited := farLines (ptn s p) + here.length
    blocked := s.ptns.foldl (fun n x => n + (x.2.farQ.filter fun q => q.issuer == some p).length + (x.2.atomQ.filter fun q => mine q && q.issued).length) 0
    issWaited := s.ptns.foldl (fun n x => n + (x.2.atomQ.filter fun q => mine q && !q.issued).length) 0 }

/-- A minimum is met: RCV_MIN by the rate in effect (R202), the others while the loop named withholds nothing: the power limit's depth, that of the
partition's die, the stack's throttle step (R224, R398, R399; log 58). -/
def minimumMet (s : State) (p : Nat) (x : Ptn) (loopNo minimum : Nat) : Bool :=
  if minimum = 1 then !x.reg.conflict
  else if loopNo = 1 then s.power.dp == 0
  else if loopNo = 2 then (if onEast p then s.power.east.depth else s.power.west.depth) == 0
  else x.temp.step == 0
/-- A conflict ends once its minimum has been met for 100 ms, of 12,500 intervals (R369). -/
def ageConflicts (s : State) (p : Nat) (x : Ptn) : Ptn :=
  { x with postedConflict := (x.postedConflict.map fun c => (c.1, c.2.1, if minimumMet s p x c.1 c.2.1 then c.2.2 + 1 else 0)).filter fun c => decide (c.2.2 < 12500) }

/-- Every 8 µs of the partition's counter, which stops with its PLL (R225, R389); a conflict that has ended may be raised again (R369). -/
def execRegAdapt (p : Fin 12) (obs : AdaptObs) (s : State) : Host.Outcome State Fault Refusal :=
  onlyIf (takesRequests (ptn s p.val)) (updPtn p.val fun x =>
    let r := adapt x.temp.step obs x.reg
    ageConflicts s p.val { x with reg := stillWaiting p.val s r }) s

/-! ### Stack temperature (R223–R226), in half degrees -/

/-- The step that a rise to t enters. -/
def riseStep (t : Int) : Nat := if t ≥ 208 then 4 else if t ≥ 200 then 3 else if t ≥ 192 then 2 else if t ≥ 184 then 1 else 0
/-- A step's exit temperature. -/
def exitTemp (step : Nat) : Int := lget [0, 178, 186, 194, 190] step 0
def nextThrottle (cur : Nat) (t : Int) : Nat :=
  if riseStep t > cur then riseStep t else if cur > 0 ∧ t < exitTemp cur then riseStep t else cur

/-- The middle of the last five valid samples, or the largest while fewer exist. -/
def median5 (l : List Int) : Int := lget (sortBy (fun a b => decide (a ≤ b)) l) 2 0
def filterSamples (valid : Nat) (l : List Int) : Int := if valid ≥ 5 then median5 l else l.foldl max (l.headD 0)

/-- A sample outside −40 °C to 150 °C is invalid. -/
def validSample (t : Option Int) : Option Int := t.filter fun v => decide (-80 ≤ v) && decide (v ≤ 300)

/-- A sample taken (R223, R226): the sensor's record after it, and the temperature the stack is treated as having. -/
def sampleStack (t : Option Int) (x : StackT) : StackT × Option Int :=
  match validSample t with
  | some v =>
    let l := if x.bad then [v] else (x.samples ++ [v]).drop (x.samples.length - 4)
    let n := if x.bad then 1 else x.valid + 1
    let f := filterSamples n l
    ({ x with samples := l, valid := n, invalidRun := 0, bad := false, filtered := some f }, some f)
  | none =>
    let n := x.invalidRun + 1
    ({ x with invalidRun := n, bad := decide (n ≥ 3) }, if n ≥ 10 then some 208 else if n ≥ 3 then some 200 else x.filtered)

def stackFault (cause p : Nat) : W32 := faultCode 8 0x56 p (cause * 2 ^ 12)

/-- Leaving step 4: a partition held BANKED starts its exit (R225). -/
def leaveHold (p : Nat) (s : State) : State :=
  updPtn p (fun x => match x.fence with
    | some f => if f.thermal ∧ f.step = 6 ∧ x.power = .banked then { x with exiting := some .banked } else x
    | none => x) s

/-- A swap is suspended from step 3 until the temperature falls below 97 °C (R253). -/
def suspendSwap (step : Nat) (t : Int) (x : Ptn) : Ptn :=
  { x with swap := x.swap.map fun w => { w with suspended := decide (step ≥ 3) || (w.suspended && decide (t ≥ 194)) } }

/-- The throttle step after a sample, with what its changes start (R224–R226). -/
def sampleTemp (p : Nat) (t : Option Int) (s : State) : State :=
  let x := ptn s p
  let (y, eff) := sampleStack t x.temp
  let s := if y.bad && !x.temp.bad then postFault (stackFault 2 p) s else s
  match eff with
  | none => updPtn p (fun x => { x with temp := y }) s
  | some v =>
    let n := nextThrottle x.temp.step v
    let s := updPtn p (fun x => suspendSwap n v { x with temp := { y with step := n } }) s
    if n = 4 ∧ x.temp.step ≠ 4 then dueFence p { code := stackFault 1 p, thermal := true } (postFault (stackFault 1 p) s)
    else if x.temp.step = 4 ∧ n ≠ 4 then leaveHold p s
    else s
def execStackTempSample (p : Fin 12) (t : Option Int) (s : State) : Host.Outcome State Fault Refusal :=
  onlyIf ((ptn s p.val).power != .cold) (sampleTemp p.val t) s

/-! ### Policy conflicts, hot counts, clip windows -/

/-- A safety loop (1–3) holds a minimum (1 RCV_MIN, 2 ISS_MIN, 3 a FIXED slot) unmet beyond 100 ms: it is raised once until it has ended; RCV_MIN
names the thermal loop of the stack (R203), of the others the command says when (R369; log 58). -/
def raiseConflict (p loopNo minimum : Nat) (s : State) : State :=
  raise .policyConflict 4 p (loopNo * 256 + minimum) (updPtn p (fun x => { x with postedConflict := (loopNo, minimum, 0) :: x.postedConflict }) s)
def mayConflict (x : Ptn) (loopNo minimum : Nat) : Bool :=
  1 ≤ loopNo && loopNo ≤ 3 && 1 ≤ minimum && minimum ≤ 3 && !(x.postedConflict.any fun c => c.1 == loopNo && c.2.1 == minimum) &&
  (minimum != 1 || (loopNo == 3 && x.reg.conflict))
def execPolicyConflict (p : Fin 12) (loopNo minimum : Nat) (s : State) : Host.Outcome State Fault Refusal :=
  onlyIf (mayConflict (ptn s p.val) loopNo minimum) (raiseConflict p.val loopNo minimum) s

/-- After each 2^20 fetches every count is halved (R212). -/
def execHotCountHalve (p : Fin 12) (s : State) : Host.Outcome State Fault Refusal :=
  onlyIf (decide ((ptn s p.val).fetches ≥ 2 ^ 20)) (updPtn p.val fun x => { x with
    fetches := x.fetches - 2 ^ 20, hot := (tmap (fun _ n => n / 2) x.hot).filter fun e => e.2 > 0 }) s

def execClipWindowClose (p : Fin 12) (c : Nat) (s : State) : Host.Outcome State Fault Refusal := .next (judgeWindow p.val c s)

end Sys2Proof.Machine
end

