-- ==== Sys2Proof/Machine/Tamp.lean ====
section
/-! DEFINITION. Tamping (R106–R109, R142) and the freeing of bricks (R97, R107, R112). -/

namespace Sys2Proof.Machine

/-! ### Freeing bricks -/

/-- Bricks leave a collection with their tombstone records, log entries and posting entries; DELETED keys whose slot was there are purged,
posting blocks left empty go, TOMB falls, a lent region goes back (R81, R97, R107, R142). -/
def freeBricks (c : Nat) (bs : List Nat) (s : State) : State :=
  let y := coll s c
  let here := fun b => bs.contains b
  let s := bs.foldl (fun s b => match brick? y b with
    | some k => addTomb c (ptnOfAddr b) (-(((upto 64).filter fun i => committedSlot k i && tombstoned s ⟨b, i⟩).length : Int)) s
    | none => s) s
  let s := updColl c (fun y => { y with
    bricks := y.bricks.filter fun b => !here b.1
    keys := y.keys.filter fun k => !(k.2.deleted && here k.2.slot.brick)
    postings := tmap (fun _ (l : List PBlock) =>
      (l.map fun k => { k with entries := k.entries.filter fun e => !here e.brick }).filter fun k => !k.entries.isEmpty) y.postings }) s
  let s := { s with ptns := tmap (fun _ (x : Ptn) =>
    let x := dropLog (fun e => here e.brick) x
    { x with tombs := x.tombs.filter fun t => !here t.1 }) s.ptns }
  (distinct (bs.map ptnOfAddr)).foldl (fun s p => returnLent c p s) s

/-! ### Due lists (R106) -/

def occCount (y : Coll) (bs : List Nat) : Nat :=
  bs.foldl (fun n b => match brick? y b with | some k => n + ((upto 64).filter (committedSlot k)).length | none => n) 0
def tombCount (s : State) (y : Coll) (bs : List Nat) : Nat :=
  bs.foldl (fun n b => match brick? y b with
    | some k => n + ((upto 64).filter fun i => committedSlot k i && tombstoned s ⟨b, i⟩).length
    | none => n) 0

/-- A list due for tamping (R106). -/
def listDue (s : State) (y : Coll) (l : Leaf) : Bool :=
  let slots := occCount y l.run
  decide (l.chain.length ≥ y.tampSed) || (decide (l.sedSlots * 2 ^ y.tampSedFrac > slots) && decide (l.sedSlots ≥ 64)) ||
  decide (tombCount s y (l.run ++ l.chain) * 2 ^ y.tampTombFrac > slots + l.sedSlots)

/-- Tombstoned plus sediment slots. -/
def tampWeight (s : State) (y : Coll) (l : Leaf) : Nat := tombCount s y (l.run ++ l.chain) + l.sedSlots

/-- The lists of a partition, with their collections. -/
def listsIn (s : State) (p : Nat) : List (Coll × Leaf) :=
  s.colls.flatMap fun c => if usesLists c.2 then (c.2.leaves.filter fun l => l.2.owner == p).map fun l => (c.2, l.2) else []

/-- A free retiring record, and no due list that comes before this one (R106). -/
def tampTurn (s : State) (p : Nat) (y : Coll) (l : Leaf) : Bool :=
  let ls := listsIn s p
  decide ((ls.filter fun k => k.2.state != .idle).length < 16) &&
  ls.all fun k => k.2.state != .idle || !listDue s k.1 k.2 || decide (tampWeight s k.1 k.2 ≤ tampWeight s y l)

/-- A batch has slots in a list that are not committed yet (R107, between two ingest batches). -/
def batchIn (s : State) (c l : Nat) : Bool :=
  s.cmds.any fun k => k.2.coll == c && uncommitted k.2 && liveCmd k.2 && k.2.recs.any fun r => (recSlots r).any fun q => listOfSlot (coll s c) q == some l

/-- The ingest engine of a partition works. -/
def engineRuns (s : State) (p : Nat) : Bool := anvilClock (ptn s p) && (ptn s p).service == .inService

/-- A fresh brick of a list, outside its chains. -/
def freshBrick (reserveOnly : Bool) (c p kind l : Nat) (base : Epoch) (s : State) : Option (Nat × State) :=
  (takeFrame reserveOnly c p s).map fun (a, s) =>
    (a, updColl c (fun y => { y with bricks := tset y.bricks a { emptyBrick with kind := kind, list := l, base := base } }) s)

/-- CUT (R107). -/
def cutList (c l : Nat) (s : State) : State :=
  let y := coll s c
  let k := leaf y l
  match freshBrick true c k.owner 1 l (openEpoch y) s with
  | none => s
  | some (a, s) =>
    let s := match k.chain.getLast? with
      | some t => updBrick c t (fun b => { b with closed := true, nextBrick := a }) s
      | none => s
    updLeaf c l (fun k => { k with
      state := .copy, cutEpoch := y.latest, pre := k.run ++ k.chain, copied := 0, copies := [], copyMap := [], chain := k.chain ++ [a] }) s
def mayCut (s : State) (c l : Nat) : Bool :=
  let y := coll s c
  let k := leaf y l
  usesLists y && (tget y.leaves l).isSome && k.state == .idle && k.retiring.isNone && engineRuns s k.owner && listDue s y k && tampTurn s k.owner y k &&
    !batchIn s c l
def execTampCut (c l : Nat) (s : State) : Host.Outcome State Fault Refusal := onlyIf (mayCut s c l) (cutList c l) s

/-! ### COPY -/

/-- The live slots of source bricks, in source order, or in the order of the SORT field (R107). -/
def liveSlots (s : State) (c : Nat) (bs : List Nat) : List (SlotRef × Slot) :=
  let y := coll s c
  let l := bs.flatMap fun b => match brick? y b with
    | some k => ((upto 64).filter fun i => committedSlot k i && !tombstoned s ⟨b, i⟩).map fun i => (⟨b, i⟩, slotOf k i)
    | none => []
  match (schemaFields y).find? (·.sort) with
  | some f => sortBy (fun a b => decide (attrField f a.2.attr ≤ attrField f b.2.attr)) l
  | none => l

/-- Words of a slot that read poisoned are stored poisoned where its copy lies: moving them consumes nothing (R220). -/
def carryPoison (y : Coll) (src dst : SlotRef) (s : State) : State :=
  if s.poison.isEmpty then s
  else ((slotFields y src.slot).zip (slotFields y dst.slot)).foldl (fun t f =>
    if rangePoisoned s (src.brick + f.1.1) f.1.2 then
      (upto ((f.2.1 % 8 + f.2.2 + 7) / 8)).foldl (fun t i => addPoison (dst.brick + f.2.1 - f.2.1 % 8 + 8 * i) t) t
    else t) s

/-- A slot copied into the list's new run, packed from slot 0, with EPD 0 (R107); a brick that the sweep has settled takes none (R91). -/
def copySlot (c l : Nat) (src : SlotRef × Slot) (s : State) : Option State :=
  let y := coll s c
  let k := leaf y l
  let put := fun (fresh : Bool) (a i : Nat) (s : State) => carryPoison y src.1 ⟨a, i⟩ <| clearPoison y fresh ⟨a, i⟩ <|
    updLeaf c l (fun k => { k with copyMap := k.copyMap ++ [(src.1, ⟨a, i⟩)] })
      (updBrick c a (fun b => setSlot i (fun _ => { src.2 with occ := true, epd := 0 }) (widenZone y src.2.attr b)) s)
  match k.copies.getLast?.bind fun a => (brick? y a).bind fun b => if b.settled then none else (freeSlot b).map fun i => (a, i) with
  | some (a, i) => some (put false a i s)
  | none => (freshBrick true c k.owner 0 l k.cutEpoch s).map fun (a, s) =>
      put true a 0 (updLeaf c l (fun k => { k with copies := k.copies ++ [a] }) s)

/-- A tamp given up: the list unchanged, the new frames freed (R109). -/
def abandonTamp (c l : Nat) (s : State) : State :=
  let bs := (leaf (coll s c) l).copies
  updLeaf c l (fun k => { k with state := .idle, pre := [], copied := 0, copies := [], copyMap := [] }) (freeBricks c bs s)

/-- One COPY chunk of at most 256 source bricks; a run of more than 12 extents is LIST_OVERSIZE (R107, R109). -/
def copyChunk (c l : Nat) (s : State) : State :=
  let k := leaf (coll s c) l
  let src := (k.pre.drop k.copied).take 256
  let live := liveSlots s c src
  match live.foldl (fun o q => o.bind (copySlot c l q)) (some s) with
  | none => s
  | some s =>
    let s := engineMove (some k.owner) (careCtx s c) k.owner (2 * live.length * slotLines (coll s c)) s
    let s := live.foldl (fun s q => widenLeaf c l (memberPoints (coll s c) q.2.input q.2.enc) s) s
    let s := updLeaf c l (fun k => { k with copied := k.copied + src.length }) s
    let k := leaf (coll s c) l
    if (extentList (frameSize (coll s c)) k.copies).length > 12 then raise .listOversize 2 l 0 (abandonTamp c l s)
    else if k.copied ≥ k.pre.length then updLeaf c l (fun k => { k with state := .commit }) s
    else s
/-- A COPY chunk of a list. -/
def isCopy (c l : Nat) (k : Chunk) : Bool := chunkOf 1 c k && (k.start ++ k.bricks).head?.any fun d => d.list == l

/-- TAMP_COPY: the COPY chunk that an anvil of the owner runs ends (R242). -/
def endCopy (c l : Nat) (s : State) : State :=
  let p := (leaf (coll s c) l).owner
  match chunkAnvil s p (isCopy c l) with
  | none => s
  | some i =>
    let s := freeAnvil p i s
    if (leaf (coll s c) l).state == .copy && engineRuns s p then copyChunk c l s else s
def execTampCopy (c l : Nat) (s : State) : Host.Outcome State Fault Refusal := .next (endCopy c l s)

/-! ### COMMIT (R108) -/

/-- With a sparse part the moved-from slots are tombstoned in the same commit (R142); none while the log is full. -/
def tombMoved (c : Nat) (qs : List SlotRef) (s : State) : Option State :=
  if hasSparse (coll s c) then qs.foldl (fun o q => o.bind (prepareTomb c 0 q)) (some s) else some s

/-- Postings of a moved slot from its key's sparse record (R142); none where no region is left for a block. -/
def movePostings (c : Nat) (e : Epoch) (m : SlotRef × SlotRef) (s : State) : Option State :=
  let y := coll s c
  match (brick? y m.2.brick).map fun b => slotOf b m.2.slot with
  | none => some s
  | some t => match tget y.sparseRecs t.key.toNat with
    | some sp => addPostings c e t.attr sp m.2 s
    | none => some s

/-- SETTLEDMASK of a slot set. -/
def setSettled (q : SlotRef) (s : State) : State :=
  updPtn (ptnOfAddr q.brick) (fun x =>
    let t := tgetD x.tombs q.brick {}
    { x with tombs := tset x.tombs q.brick { t with settledMask := t.settledMask ||| BitVec.ofNat 64 (2 ^ q.slot) } }) s

/-- The lowest of a partition's 16 retiring records that no list's entry names (R79, R99). -/
def freeRetiring (s : State) (p : Nat) : Nat :=
  let used := (s.colls.flatMap fun c => (c.2.leaves.filter fun l => l.2.owner == p).filterMap fun l => l.2.retiring).map (·.index)
  ((upto 16).find? fun i => !used.contains i).getD 0

/-- The partitions that hold the keys of some slots (R95). -/
def keyPtns (s : State) (c : Nat) (qs : List SlotRef) : List Nat :=
  qs.filterMap fun q => (brick? (coll s c) q.brick).map fun b => keyPtn s c (slotOf b q.slot).key

/-- The five steps of R108, at once; it waits where the log or the regions of postings are full, and for a partition of its keys that is past step 4
of its fence (R353). -/
def commitTamp (c l : Nat) (s : State) : State :=
  let y := coll s c
  let k := leaf y l
  let e := openEpoch y
  let dead := k.copyMap.filter fun m => tombstoned s m.1
  let alive := k.copyMap.filter fun m => !tombstoned s m.1
  let index := freeRetiring s k.owner
  let reach := keyPtns s c (k.copyMap.map (·.1))
  if (turnedAway s (k.owner :: reach)).isSome then s else
  match (tombMoved c (alive.map (·.1)) s).bind fun s =>
      if hasSparse y then alive.foldl (fun o m => o.bind (movePostings c e m)) (some s) else some s with
  | none => liftHorizons s
  | some s =>
    let s := liftHorizons (moveLines (some k.owner) (careCtx s c) reach s)
    let s := dead.foldl (fun s m => setSettled m.2 s) s
    let s := addTomb c k.owner (dead.length + if hasSparse y then alive.length else 0) (moveKeys k.copyMap c (commitTombs 0 e s))
    let n := k.pre.length - k.run.length
    let post := k.chain.drop n
    joinEpoch c (updLeaf c l (fun k => { k with
      state := .retire, retiring := some { run := k.run, chain := k.chain.take n, epoch := e, index := index }, run := k.copies, chain := post
      pre := [], copied := 0, copies := [], copyMap := [], sedSlots := occCount y post }) s)
def execTampCommit (c l : Nat) (s : State) : Host.Outcome State Fault Refusal :=
  onlyIf ((leaf (coll s c) l).state == .commit && engineRuns s (leaf (coll s c) l).owner) (commitTamp c l) s

/-! ### RETIRE (R107) -/

/-- The horizon has reached an epoch and no admitted command has a snapshot before it. -/
def epochPassed (s : State) (c : Nat) (e : Epoch) : Bool := epochLe e (coll s c).horizon && (heldSnaps s c).all fun h => !precedes h e

def retireTamp (c l : Nat) (s : State) : State :=
  match (leaf (coll s c) l).retiring with
  | none => s
  | some r =>
    if epochPassed s c r.epoch then
      updLeaf c l (fun k => { k with state := .idle, retiring := none }) (freeBricks c (r.run ++ r.chain) s)
    else s
def execTampRetire (c l : Nat) (s : State) : Host.Outcome State Fault Refusal :=
  onlyIf ((leaf (coll s c) l).state == .retire && engineRuns s (leaf (coll s c) l).owner) (retireTamp c l) s

end Sys2Proof.Machine
end

