-- ==== Sys2Proof/Machine/Train.lean ====
section
/-! DEFINITION. Training and redistribution (R103–R105, R110–R113). -/

namespace Sys2Proof.Machine

/-! ### Strata (R112; log 7) -/

/-- Place of a trained value: level, centroid, item. -/
def trainKey (lvl i j : Nat) : Nat := 2 + ((lvl * 2 ^ 25 + i) * 8192 + j)
/-- A code of collection c's training n, −127 to 127. -/
def trainedCode (c n lvl i j : Nat) : Int := ((Config.trainedValue c n (trainKey lvl i j)).toNat % 255 : Nat) - 127

/-- ‖ĉ‖², rounded RNE (R123). -/
def centroidNorm (codes : List Int) (e : Int) : F32 := fRound .ne (xPow (dotI codes codes) (2 * e))
def makeCentroid (codes : List Int) (e : Int) (child children : Nat) : Centroid :=
  { codes := codes, exp := e, norm := centroidNorm codes e, child := child, children := children }

/-- A centroid found by k-means: nothing fixes its value. -/
def freeCentroid (y : Coll) (c lvl i child children : Nat) : Centroid :=
  makeCentroid ((upto (coordN y)).map (trainedCode c y.trainSeed lvl i)) (((Config.trainedValue c y.trainSeed (trainKey lvl i 8191)).toNat % 256 : Nat) - 128) child children

/-- A supplied centroid, planished, encoded as a query row (R102, R111). -/
def givenCentroid (v : List F32) (child : Nat) : Centroid :=
  let e := queryExp v
  makeCentroid (v.map (queryCode e)) e child 1

/-- The leaf level: the supplied centroids, or as many trained ones as were asked for. -/
def leafLevel (y : Coll) (c : Nat) : List Centroid :=
  if y.trainSource = 2 then y.trainSample.zipIdx.map fun (v, i) => givenCentroid v i
  else (upto y.trainLeaves).map fun i => freeCentroid y c (y.trainLevels - 1) i i 1

/-- A level above one of n centroids: how many it has is not given but for at most 1,024 children each and a top level of at most 4 MB;
children are consecutive (R103, R104). -/
def upperLevel (y : Coll) (c lvl n : Nat) : List Centroid :=
  let least := ceilDiv n 1024
  let most := min n (topCap y * 1024 ^ lvl)
  let m := max 1 (least + (Config.trainedValue c y.trainSeed (trainKey lvl 0 8189)).toNat % (most - least + 1))
  (upto m).map fun j => freeCentroid y c lvl j (j * n / m) ((j + 1) * n / m - j * n / m)

/-- Levels above the lowest, top first. -/
def upperLevels (y : Coll) (c : Nat) : Nat → Nat → List (List Centroid) → List (List Centroid)
  | 0, _, acc => acc
  | k + 1, n, acc => let l := upperLevel y c k n; upperLevels y c k l.length (l :: acc)

/-- A loose brick of the collection that training draws from holds a poisoned word (R220). -/
def sampleOnPoison (s : State) (c : Nat) : Bool :=
  let y := coll s c
  y.trainSource == 0 && (jobPtns s y.job).any fun p => (collPtn y p).loose.any fun b => rangePoisoned s b (frameSize y)

/-- Training that met poisoned data ends: the collection is UNTRAINED again and its COLL_TRAINs complete UNCORRECTABLE (R313; log 85). -/
def failTrain (c : Nat) (s : State) : State :=
  let its := fun k : Ticket => match k.work with | .train d _ => d == c | _ => false
  wakeHearth (updHearth (fun h => { h with
      tickets := tmap (fun _ (k : Ticket) => if its k && k.rsp.isNone then { k with work := .ready .uncorrectable [] 0 } else k) h.tickets })
    (updColl c (fun y => { y with state := .untrained, trainSample := [] }) s))

/-- TRAIN_CHUNK: the step that an anvil of the home partition runs ends; what it computes shows only in the strata (R112, R242). -/
def endTrainStep (c : Nat) (s : State) : State :=
  let p := collHome s c
  match chunkAnvil s p (chunkOf 6 c) with
  | none => s
  | some i =>
    if (coll s c).state == .training && sampleOnPoison s c then failTrain c (poisonFault p i s)
    else
    let s := freeAnvil p i s
    if (coll s c).state == .training then updColl c (fun y => { y with trainSteps := y.trainSteps + 1 }) s else s
def execTrainChunk (c : Nat) (s : State) : Host.Outcome State Fault Refusal := .next (endTrainStep c s)

/-- Bytes of the centroid frames of some levels (R102). -/
def strataBytes (y : Coll) (levels : List (List Centroid)) : Nat :=
  levels.foldl (fun n l => n + ceilDiv l.length 64 * (1600 + 64 * coordN y)) 0

/-- The regions of a partition that take its copy of the strata, level after level, and its list table of n entries of 128 B; none where
there are no such runs of regions (R80, R99, R102; log 21). -/
def takeStrata (c p : Nat) (levels : List (List Centroid)) (n : Nat) (s : State) : Option State :=
  (takeRun c p (max 1 (ceilDiv (strataBytes (coll s c) levels) (2 ^ 24))) .strata s).bind
    (takeRun c p (max 1 (ceilDiv (128 * n) (2 ^ 24))) .lists)

/-- STRATA_COMMIT: the strata in every partition, the commit at E_s, the pins (R105, R112); it waits for the regions (log 21), and for a partition past
step 4 of its fence (R353). -/
def commitStrata (c : Nat) (s : State) : State :=
  let y := coll s c
  let low := leafLevel y c
  let ps := jobPtns s y.job
  let owner := fun i => lget ps ((Config.trainedValue c y.trainSeed (trainKey 3 i 8188)).toNat % max 1 ps.length) 0
  let strata := upperLevels y c (y.trainLevels - 1) low.length [low]
  let owned := fun p => ((upto low.length).filter fun i => owner i == p).length
  if (turnedAway s ps).isSome then s else
  match ps.foldl (fun o p => o.bind (takeStrata c p strata (owned p))) (some s) with
  | none => s
  | some s =>
    let s := ps.foldl (fun s p => engineMove (some (collHome s c)) (careCtx s c) p (ceilDiv (strataBytes y strata) 64) s) s
    let s := updHearth (fun h => { h with trainSeq := h.trainSeq + 1 }) s
    let order := s.hearth.trainSeq
    let s := updColl c (fun y => { y with
      strata := strata, leaves := (upto low.length).map fun i => (i, { owner := owner i }), state := .redistributing
      trainEp := openEpoch y, trainSample := [], trainOrder := order }) s
    ps.foldl (fun s p => pinTop c p s) (joinEpoch c s)
def execStrataCommit (c : Nat) (s : State) : Host.Outcome State Fault Refusal :=
  onlyIf ((coll s c).state == .training && homeRuns s c) (commitStrata c) s

/-! ### Redistribution (R113) -/

/-- Loose bricks of a partition that still hold a live slot. -/
def liveLoose (s : State) (c p : Nat) : List Nat := (collPtn (coll s c) p).loose.filter fun b => !(liveSlots s c [b]).isEmpty

/-- A loose slot appended to its leaf at E_r, tombstoned in its old place; none where no frame or log entry is left. -/
def moveSlot (c : Nat) (e : Epoch) (q : SlotRef × Slot) (s : State) : Option State :=
  let y := coll s c
  let r : Rec := { key := q.2.key, attr := q.2.attr, enc := q.2.enc, input := q.2.input }
  match (assignLeaf y (decodedRow y r.enc) r.enc.norm).1 with
  | none => none
  | some l => (appendTo c (some l) r (careCtx s c) s).bind fun (t, s) => (prepareTomb c 0 q.1 s).bind fun s =>
      let s := moveLines (some (collHome s c)) (careCtx s c) [ptnOfAddr t.brick, ptnOfAddr q.1.brick, keyPtn s c q.2.key] s
      let s := moveKeys [(q.1, t)] c (commitSlot c e (q.2.gen.setWidth 16) t (countTomb c q.1 s))
      if hasSparse y then movePostings c e (q.1, t) (carryPoison y q.1 t s) else some (carryPoison y q.1 t s)

def redistribute (c p : Nat) (s : State) : State :=
  let e := openEpoch (coll s c)
  match (liveSlots s c ((liveLoose s c p).take 256)).foldl (fun o q => o.bind (moveSlot c e q)) (some s) with
  | none => liftHorizons s
  | some t => liftHorizons (joinEpoch c (commitTombs 0 e t))
/-- The partitions that a redistribution chunk reaches: those its slots go to, and those of their keys. -/
def moveTargets (s : State) (c p : Nat) : List Nat :=
  let y := coll s c
  (liveSlots s c ((liveLoose s c p).take 256)).flatMap fun q =>
    keyPtn s c q.2.key :: ((assignLeaf y (decodedRow y q.2.enc) q.2.enc.norm).1.map fun l => (leaf y l).owner).toList

/-- REDISTRIBUTE_CHUNK: the chunk that an anvil runs ends; one that meets a fence response has no effect and runs again (R242, R353). -/
def endMove (c p : Nat) (s : State) : State :=
  match chunkAnvil s p (chunkOf 2 c) with
  | none => s
  | some i =>
    let s := freeAnvil p i s
    if (coll s c).state == .redistributing && engineRuns s p && !(liveLoose s c p).isEmpty && (turnedAway s (moveTargets s c p)).isNone
    then redistribute c p s else s
def execRedistributeChunk (c : Nat) (p : Fin 12) (s : State) : Host.Outcome State Fault Refusal := .next (endMove c p.val s)

/-- REDISTRIBUTE_DONE: no live loose slot remains (R112). -/
def execRedistributeDone (c : Nat) (s : State) : Host.Outcome State Fault Refusal :=
  onlyIf ((coll s c).state == .redistributing && looseLive s c == 0 && homeRuns s c) (fun s =>
    joinEpoch c (updColl c (fun y => { y with state := .trained, doneEp := openEpoch y }) s)) s

/-- LOOSE_FREE: the horizon reaches E_d (R112). -/
def freeLoose (c : Nat) (s : State) : State :=
  let bs := (coll s c).ptns.flatMap fun p => p.2.loose
  updColl c (fun y => { y with ptns := tmap (fun _ (q : CollPtn) => { q with loose := [] }) y.ptns }) (freeBricks c bs s)
def execLooseFree (c : Nat) (s : State) : Host.Outcome State Fault Refusal :=
  onlyIf ((coll s c).state == .trained && epochPassed s c (coll s c).doneEp) (freeLoose c) s

end Sys2Proof.Machine
end

