-- ==== Sys2Proof/Machine/Chunks.lean ====
section
/-! DEFINITION. Bulk chunks that wait (R242): those queued for commands, and those that a collection's tamping, redistribution, training and
settling have to run; the end of an EXPORT chunk (R190). -/

namespace Sys2Proof.Machine

/-! ### Chunks of no command (R91, R107, R112, R113) -/

/-- A chunk of a collection's own work over some bricks, charged as R241 lays down. -/
def careChunk (s : State) (kind c l : Nat) (bs : List Nat) : Chunk :=
  { kind := kind, ctx := (careCtx s c).getD 0xFFFF, bricks := bs.map fun b => { brick := b, kind := 4, coll := c, list := l } }

/-- COPY chunks of the lists of a partition that are being copied. -/
def copyDue (s : State) (p c : Nat) (y : Coll) : List Chunk :=
  ((listsOf y p).filter fun l => (leaf y l).state == .copy).map fun l => careChunk s 1 c l (((leaf y l).pre.drop (leaf y l).copied).take 256)
/-- A redistribution chunk, while live loose slots remain. -/
def moveDue (s : State) (p c : Nat) (y : Coll) : List Chunk :=
  let bs := if y.state == .redistributing then (liveLoose s c p).take 256 else []
  if bs.isEmpty then [] else [careChunk s 2 c 0 bs]
/-- A step of a training, which the home partition runs. -/
def trainDue (s : State) (p c : Nat) (y : Coll) : List Chunk :=
  if y.state == .training && collHome s c == p then [careChunk s 6 c 0 [regionBase p 0]] else []
/-- A chunk of the settling sweep. -/
def sweepChunk (s : State) (p c : Nat) (y : Coll) : List Chunk :=
  let bs := ((y.bricks.filter fun b => ptnOfAddr b.1 == p && sweepDue y b).map (·.1)).take 256
  if bs.isEmpty then [] else [careChunk s 7 c 0 bs]

/-- What a chunk works on: its kind, collection and list. -/
def chunkKey (k : Chunk) : Nat × Option (Nat × Nat) := (k.kind, (k.start ++ k.bricks).head?.map fun d => (d.coll, d.list))

/-- Chunks that anvils and save slots of a partition hold. -/
def heldChunks (x : Ptn) : List Chunk := x.anvils.filterMap (·.2.chunk) ++ x.saves.flatMap fun v => v.2.anvils.filterMap (·.2.chunk)

/-- The chunks of no command that the work of the collections calls for in a partition. -/
def careChunks (s : State) (p : Nat) : List Chunk :=
  s.colls.flatMap fun c => copyDue s p c.1 c.2 ++ moveDue s p c.1 c.2 ++ trainDue s p c.1 c.2 ++ sweepChunk s p c.1 c.2
/-- Of those, the ones that wait, one of each work at a time: no anvil, save slot or place of the queue holds it. -/
def dueChunks (s : State) (p : Nat) : List Chunk :=
  let x := ptn s p
  let held := (heldChunks x ++ x.chunkQ.filter (·.cmd.isNone)).map chunkKey
  (careChunks s p).filter fun k => !held.contains (chunkKey k)

/-- A chunk that waits in the queue still has its work: one of no command, abandoned (R244), goes with the work that it was formed for. -/
def stillDue (due : List (Nat × Option (Nat × Nat))) (k : Chunk) : Bool := k.cmd.isSome || due.contains (chunkKey k)
/-- The chunks whose work has gone leave the queue. -/
def pruneChunks (p : Nat) (s : State) : State :=
  if (ptn s p).chunkQ.all (·.cmd.isSome) then s
  else updPtn p (fun x => { x with chunkQ := x.chunkQ.filter (stillDue ((careChunks s p).map chunkKey)) }) s

/-- Work whose context a partition serves; work that is charged to no context, as there is none, is served always (R231, R241). -/
def servesFor (s : State) (p ctx : Nat) : Bool := servedHere (ptn s p) ctx || (ctx? s ctx).isNone
/-- The chunk queue of a partition as an anvil finds it: chunks of resident contexts (R231, R242). -/
def chunkQueue (s : State) (p : Nat) : List Chunk := ((ptn s p).chunkQ ++ dueChunks s p).filter fun k => servesFor s p k.ctx

/-- The pattern of R77 that a chunk runs; the library names none for EXPORT and the sweep (log 73). -/
def chunkPattern (kind : Nat) : Nat := if kind = 1 then 8 else if kind = 6 then 7 else if kind = 5 ∨ kind = 7 then 0 else 6

/-- A chunk of a kind whose pattern runs as a whole starts on an anvil (R242). -/
def startChunk (p i : Nat) (k : Chunk) (s : State) : State :=
  let pat := chunkPattern k.kind
  let base := patternBase (ptn s p) k.ctx pat 0
  let now := (ptn s p).cycles.toNat
  updAnvil p i (fun a => { a with
    st := .running, pattern := pat, base := base, step := base, lanes := [], chunk := some { k with start := k.bricks }, closing := false, desc := none
    descNone := false, sel := [], cyc := 0, emitted := 0, charge := now, preempt := false, taken := 0, killed := false })
    (updPtn p (fun x => { x with chunkQ := removeFirst k x.chunkQ }) s)

/-! ### END -/

/-- The command and chunk of an EXPORT that an anvil runs. -/
def exportAt (s : State) (p i : Nat) : Option (Nat × Chunk) :=
  let a := anvil s p i
  if anvilClock (ptn s p) && issuing a then a.chunk.bind fun k => if k.kind = 5 then k.cmd.map fun c => (c, k) else none else none

/-- END: the anvil is free; with it an EXPORT chunk has read its bricks (R60, R190), and one that met a poisoned word stops the anvil (R76, R220). -/
def endStep (p i : Nat) (s : State) : State :=
  match exportAt s p i with
  | some (c, k) => if exportPoisoned s c k then poisonFault p i s else exportChunk c k (freeAnvil p i s)
  | none => runOp p i 0x09 (opEnd p i) s
def execEndOp (p : Fin 12) (a : Fin 864) (s : State) : Host.Outcome State Fault Refusal := .next (endStep p.val a.val s)

end Sys2Proof.Machine
end

