-- ==== Sys2Proof/Machine/Sched.lean ====
section
/-! DEFINITION. Who gets an anvil: the current slot's order (R235), shares (R239), backfill (R237, R243), taking anvils (R244–R247), the
round (R234), senior commands (R296). -/

namespace Sys2Proof.Machine

/-! ### The order of the current slot (R235) -/

/-- The place that work of a context has in the order: 0 first. -/
def place (r : RSlot) (bulk : Bool) (ctx : Nat) : Nat :=
  let named := r.ctx == ctx
  if r.cls = 0 then (if bulk then 2 else if named then 0 else 1)
  else if r.cls = 2 then
    if r.ctx = 0xFFFF then (if bulk then 0 else 1) else if bulk then (if named then 0 else 2) else 1
  else if bulk then 1 else 0

/-- By share: the smaller virtual time first, then the lower context (R239). -/
def shareBefore (x : Ptn) (a b : Nat) : Bool :=
  let va := tgetD x.vtime a 0
  let vb := tgetD x.vtime b 0
  decide (va < vb) || (va == vb && decide (a < b))

/-- What the order goes by: bulk work or not, the kind of its chunk, its context. -/
structure Rank where
  bulk : Bool
  kind : Nat := 0
  ctx : Nat
  deriving DecidableEq, Repr

/-- Work a comes before b: by the slot's order, bulk work of one place by the kind of its chunk, then by share (R235, R242). -/
def workBefore (x : Ptn) (a b : Rank) : Bool :=
  let pa := place (curSlot x) a.bulk a.ctx
  let pb := place (curSlot x) b.bulk b.ctx
  decide (pa < pb) || (pa == pb && (decide (a.kind < b.kind) || (a.kind == b.kind && shareBefore x a.ctx b.ctx)))

/-- Work that waits for an anvil. -/
inductive Waiting where
  | desc (d : Nat × Desc)
  | chunk (k : Chunk)
  | saved (slot : Nat) (a : Nat × Anvil)
  deriving DecidableEq, Repr

/-- The rank of a chunk; one abandoned stands at the head of the queue (R242, R244). -/
def chunkRank (k : Chunk) : Rank := { bulk := true, kind := if k.abandoned > 0 then 0 else k.kind + 1, ctx := k.ctx }
/-- Its rank; a shared descriptor counts for its first lane. -/
def workOf (s : State) : Waiting → Rank
  | .desc d => { bulk := false, ctx := ((d.2.lanes.head?.bind (laneCmd s)).map (·.ctx)).getD 0xFFFF }
  | .chunk k => chunkRank k
  | .saved _ a => match a.2.chunk with
    | some k => chunkRank k
    | none => { bulk := false, ctx := anvCtx s a.2 }

/-- The distance of two rows. -/
def rowGap (a b : Nat) : Nat := max a b - min a b

/-- Anvils of a row that run no chunk, beyond those that BFRES withholds (R237). -/
def backfills (x : Ptn) (row : Nat) : Bool :=
  let busy := x.anvils.filter fun a => a.1 / 36 == row && (a.2.chunk.isSome || !a.2.usable)
  (curSlot x).cls == 2 || decide (36 - busy.length > x.round.bfres)

/-- The row of a chunk: that of its first brick; an assignment chunk, which has none, and a training step run on any row (R129, R242). -/
def chunkRow (row : Nat) (k : Chunk) : Nat :=
  if k.kind = 0 ∨ k.kind = 4 ∨ k.kind = 6 then row else match k.bricks with | d :: _ => brickRow d.brick | [] => row

/-- What waits for anvil i, its own row's work before that of rows near it (R129, R242, R246). -/
def waitingFor (s : State) (p i : Nat) : List Waiting :=
  let x := ptn s p
  let row := i / 36
  let near := (upto 24).filter (nearRow row)
  let rows := sortBy (fun a b => decide (rowGap a row ≤ rowGap b row)) near
  let bulk := if backfills x row then
      rows.flatMap (fun r => ((chunkQueue s p).filter fun k => chunkRow row k == r).map .chunk) else []
  let descs := rows.flatMap fun r => (x.rowQ.filter fun d => d.1 == r && d.2.lanes.all (laneOk s p)).map .desc
  let saved := x.saves.flatMap fun v => (v.2.anvils.filter fun a =>
    servesFor s p v.2.ctx && (anvCtxs s a.2).all (servedHere x) && a.1 / 36 == row && (a.2.chunk.isNone || backfills x row)).map fun a => Waiting.saved v.1 a
  saved ++ descs ++ bulk

/-- The work that is first in the order (R235); the first waiting among equals. -/
def firstWork (s : State) (p : Nat) : List Waiting → Option Waiting
  | [] => none
  | w :: t => match firstWork s p t with
    | none => some w
    | some v => if workBefore (ptn s p) (workOf s v) (workOf s w) then some v else some w

/-! ### A free anvil (R235, R243, R246) -/

/-- A binding starts for a descriptor, which its NEXT takes. -/
def bindDesc (p i : Nat) (d : Nat × Desc) (s : State) : State := bindAnvil p i d.2.pattern d.2.lanes none s

/-- A chunk starts. -/
def bindChunk (p i : Nat) (k : Chunk) (s : State) : State :=
  if k.kind ≠ 3 then startChunk p i k s
  else match k.bricks with
  | [] => s
  | d :: _ => bindAnvil p i d.pattern d.lanes (some { k with start := k.bricks }) (updPtn p (fun x => { x with chunkQ := removeFirst k x.chunkQ }) s)

/-- A saved record resumes at its YIELD target; its slot is free once its last record is restored (R246, R250, R251). -/
def resume (p i slot : Nat) (a : Nat × Anvil) (s : State) : State :=
  let k := leadCmd s a.2
  let base := patternBase (ptn s p) (anvCtx s a.2) a.2.pattern ((k.map (·.patVer)).getD 0)
  let now := (ptn s p).cycles.toNat
  let s := updPtn p (fun x => { x with saves := match tget x.saves slot with
    | some v =>
      let left := v.anvils.filter fun b => b.1 ≠ a.1
      if left.isEmpty && !awaitsSave (fun c => ((cmd? s c).map (·.ctx)).getD 0) v.ctx x.anvils then tdel x.saves slot else tset x.saves slot { v with anvils := left }
    | none => x.saves }) s
  updAnvil p i (fun b => { a.2 with
    st := .running, usable := b.usable, ceCnt := b.ceCnt, preempt := false, charge := now, base := base, step := base + (a.2.step - a.2.base) }) s

def startWork (p i : Nat) (s : State) : Waiting → State
  | .desc d => bindDesc p i d s
  | .chunk k => bindChunk p i k s
  | .saved n a => resume p i n a s

/-- Exact scans that a kill sent back to their start queue their chunks again (R139, R247). -/
def restartExact (s : State) : State :=
  (cmdsOf (fun x => x.opcode == 0x12 && x.stage == .running && x.rows.any fun r => !r.descended) s).foldl (fun s c => startExact c s) s

/-- Exports that a kill sent back to their start go on from their cursor again (R190, R247). -/
def restartExports (s : State) : State :=
  (cmdsOf (fun x => x.opcode == 0x41 && x.stage == .running && x.expLen == 0) s).foldl (fun s c => startExport c s) s

/-- A free anvil takes the work that is first. -/
def takeWork (p i : Nat) (s : State) : State :=
  if !(issues s p && bindable (anvil s p i)) then s
  else match firstWork s p (waitingFor s p i) with
    | some w => startWork p i s w
    | none => s
/-- What the dispatcher of a partition has to hand out is in its queues. -/
def readyWork (p : Nat) (s : State) : State := fillPlaces p (queueDescents p (pruneChunks p (restartExports (restartExact s))))
def anvilFree (p i : Nat) (s : State) : State := takeWork p i (readyWork p s)
def execAnvilFree (p : Fin 12) (a : Fin 864) (s : State) : Host.Outcome State Fault Refusal := .next (anvilFree p.val a.val s)

/-- LANE_BIND: lanes bound to a free anvil; work that waits for the anvil comes first in the slot's order, so that the lanes are those of the
descriptor that is first, or nothing waits (R62, R127, R235). -/
def bindLanes (p i pattern : Nat) (lanes : List LaneReq) (s : State) : State :=
  match lanes.head?.bind (laneCmd s) with
  | none => s
  | some k =>
    if !mayBind s p i pattern lanes k then s
    else match firstWork s p (waitingFor s p i) with
      | none => bindAnvil p i pattern lanes none s
      | some (.desc d) => if d.2.pattern = pattern ∧ sameLanes d.2.lanes lanes then bindDesc p i d s else s
      | some _ => s
def execLaneBind (p : Fin 12) (a : Fin 864) (pattern : Nat) (lanes : List LaneReq) (s : State) : Host.Outcome State Fault Refusal :=
  .next (bindLanes p.val a.val pattern lanes s)

/-! ### Taking anvils (R244–R247) -/

/-- Anvils of rows near a row that run something that may be taken; one that ends with the brick in hand emits first (R136). -/
def takeable (s : State) (p row : Nat) (f : Anvil → Bool) : List (Nat × Anvil) :=
  (ptn s p).anvils.filter fun a => nearRow row (a.1 / 36) && issuing a.2 && !a.2.preempt && !a.2.closing && f a.2

/-- The one whose context has the largest v, the first among equals. -/
def largestV (s : State) (p : Nat) (as : List (Nat × Anvil)) : Option (Nat × Anvil) :=
  maxBy (fun a => tgetD (ptn s p).vtime (anvCtx s a.2) 0) as

/-- An anvil that the work of a descriptor may take: a chunk's that has not been abandoned three times, else in tile mode another
context's later binding. -/
def victimFor (s : State) (p row : Nat) (w : Rank) : Option (Nat × Anvil) :=
  let chunks := takeable s p row fun a => match a.chunk with
    | some k => decide (k.abandoned < 3) && workBefore (ptn s p) w (chunkRank k)
    | none => false
  match largestV s p chunks with
  | some a => some a
  | none =>
    if killMode s w.ctx then none
    else largestV s p (takeable s p row fun a => a.chunk.isNone && !(liveLanes a).isEmpty && anvCtx s a != w.ctx &&
      workBefore (ptn s p) w { bulk := false, ctx := anvCtx s a })

/-- An anvil near the row is free. -/
def anvilNear (s : State) (p row : Nat) : Bool := (upto 864).any fun i => nearRow row (i / 36) && bindable (anvil s p i)

/-- A request posted; a tile-mode one without a save slot left is a kill (R251). -/
def requestAnvil (p i : Nat) (s : State) : State :=
  let a := anvil s p i
  let ctx := anvCtx s a
  if a.chunk.isNone && (saveSlot (ptn s p) ctx).isNone && !holdsSemaphore ctx s then killHere p ctx s
  else updAnvil p i (fun a => { a with preempt := true }) s

/-- What else waits for the anvils of a row and of those within two of it: descriptors, saved records, chunks (R245). -/
def rivals (s : State) (p r : Nat) : List Waiting :=
  let x := ptn s p
  (x.rowQ.filter fun d => nearRow r d.1 && d.2.lanes.all (laneOk s p)).map Waiting.desc ++
  (x.saves.flatMap fun v => (v.2.anvils.filter fun a =>
    servesFor s p v.2.ctx && (anvCtxs s a.2).all (servedHere x) && nearRow r (a.1 / 36)).map fun a => Waiting.saved v.1 a) ++
  (chunkQueue s p).map Waiting.chunk

/-- A first descriptor of row r has waited 2 µs without a free anvil: one is taken for it. -/
def takeAnvil (p r : Nat) (s : State) : State :=
  let descs := ((ptn s p).rowQ.filter fun d => d.1 == r && d.2.lanes.all (laneOk s p)).map Waiting.desc
  if !issues s p || anvilNear s p r then s
  else match firstWork s p descs with
    | none => s
    | some w =>
      if (rivals s p r).any fun v => workBefore (ptn s p) (workOf s v) (workOf s w) then s
      else match victimFor s p r (workOf s w) with
        | some a => requestAnvil p a.1 s
        | none => s
def execAnvilTake (p : Fin 12) (r : Fin 24) (s : State) : Host.Outcome State Fault Refusal := .next (takeAnvil p.val r.val (readyWork p s))

/-- The record of a yielded anvil is in its slot; the anvil starts the work that is first (R246). -/
def saveRecord (p i n : Nat) (s : State) : State :=
  let a := anvil s p i
  let s := updPtn p (fun x => match tget x.saves n with
    | some v => { x with saves := tset x.saves n { v with anvils := tset v.anvils i { a with preempt := false } } }
    | none => x) s
  takeWork p i (updAnvil p i (fun a => { usable := a.usable, ceCnt := a.ceCnt, local_ := a.local_, poisoned := a.poisoned }) s)
def execPreemptSaveDone (p : Fin 12) (a : Fin 864) (s : State) : Host.Outcome State Fault Refusal :=
  .next (let x := anvil s p a
    match (ptn s p).saves.find? fun v => v.2.ctx == anvCtx s x && !v.2.zeroising with
    | some v => if x.st = .yielded ∧ x.preempt then saveRecord p a v.1 s else s
    | none => s)

/-- A context is being evicted, or an anvil of its work for which f holds is asked for (R253). -/
def asked (f : Anvil → Bool) (s : State) (p ctx : Nat) : Bool :=
  (ptn s p).swap.any (fun w => w.phase == 1 && w.victim == some ctx) || (ptn s p).anvils.any fun a => f a.2 && a.2.preempt && (anvCtxs s a.2).contains ctx
/-- A context whose commands a kill-mode pre-emption kills: abandoning a chunk kills none (R244, R247). -/
def wanted (s : State) (p ctx : Nat) : Bool := asked (fun a => a.chunk.isNone) s p ctx

/-- A kill-mode pre-emption, once the context holds no semaphore (R247, R251, R253). -/
def execKillPreempt (p : Fin 12) (ctx : Nat) (s : State) : Host.Outcome State Fault Refusal :=
  onlyIf (wanted s p ctx && (killMode s ctx || (saveSlot (ptn s p) ctx).isNone) && !holdsSemaphore ctx s) (killHere p ctx) s

/-- A hold outlasts 50 µs from the request: event, and L0 of the context (R217, R253). -/
def execSemOverhold (p : Fin 12) (ctx : Nat) (s : State) : Host.Outcome State Fault Refusal :=
  onlyIf (asked (fun _ => true) s p ctx && holdsSemaphore ctx s) (fun s => startL0 ctx 0 none (raise .semOverhold 5 ctx 0 s)) s

/-! ### The round (R234) -/

/-- The next slot, or slot 0 with a new table if one waits. -/
def advance (r : Round) : Round := if r.slot + 1 < r.table.length then { r with slot := r.slot + 1 } else restartRound r
/-- The slot ends: the cycles of every anvil are charged under it before the next begins (R235, R239). -/
def nextSlot (p : Nat) (s : State) : State := updPtn p (fun x => { x with round := advance x.round }) (chargeWhere (fun q _ _ => q == p) s)
def execRoundSlotAdvance (p : Fin 12) (s : State) : Host.Outcome State Fault Refusal :=
  onlyIf ((ptn s p.val).power == .forge && (ptn s p.val).round.running) (nextSlot p.val) s

/-! ### Senior commands (R296) -/

/-- The head command of a ring waits for an amount. -/
def waitsForAmount (s : State) (r : Nat) : Bool :=
  match (ring s r).fetched with
  | e :: _ => mayAdmit s r e && (permitted (opOf e)).isSome && !neverFits s r e && !(reserve r e s).2
  | [] => false
/-- A command that takes the rest of its amounts waits for one. -/
def cmdWaits (s : State) (c : Nat) : Bool := (cmd? s c).any fun x => x.stage == .reading && !x.lacking.isEmpty && x.senior.isNone

def becomeSenior (w : AmountWaiter) (s : State) : State :=
  let s' := updHost (fun h => { h with seniorSeq := h.seniorSeq + 1 }) s
  match w with
  | .ring r => updRing r.val (fun x => { x with senior := some s.host.seniorSeq }) s'
  | .cmd c => updCmd c (fun x => { x with senior := some s.host.seniorSeq }) s'
def execSenior (w : AmountWaiter) (s : State) : Host.Outcome State Fault Refusal :=
  onlyIf (match w with
    | .ring r => waitsForAmount s r.val && (ring s r.val).senior.isNone
    | .cmd c => cmdWaits s c) (becomeSenior w) s

end Sys2Proof.Machine
end

