-- ==== Sys2Proof/Machine/Resets.lean ====
section
/-! DEFINITION. The ends of resets and zeroisations: L2 (R357, R358, R362, R363), L3 (R357, R364), zeroisation (R386, R387). -/

namespace Sys2Proof.Machine

/-! ### L2 -/

/-- The engines of a partition after an L2: empty, the crucible's locks released, its pins kept, the round from slot 0; the temperature
filter and the hot-brick table restart (R201, R212, R215, R223, R358). A hold at thermal step 4 stays one. -/
def resetEngines (x : Ptn) : Ptn :=
  let x := unlockLines (fun _ _ => true) x
  { x with
    anvils := tmap (fun _ (a : Anvil) => { usable := a.usable, ceCnt := a.ceCnt }) x.anvils
    pmem := [], placed := [], resident := [], waiting := [], waitedLong := [], idleList := [], blockedList := [], warmLists := []
    rowQ := [], chunkQ := [], signal := none, swap := none, saves := [], cached := [], hot := [], fetches := 0, holders := [], atomQ := []
    wcb := [], wcFences := [], chanRun := [], farQ := [], writeBack := [], postedConflict := [], zeroising := false, exiting := none, banking := none, saved := false
    temp := { step := if x.temp.step = 4 then 4 else 0 } }

/-- A region holds centroid frames. -/
def RegUse.isStrata : RegUse → Bool
  | .strata _ => true
  | _ => false

/-- A collection has frames in a partition: bricks, or centroid frames (R83, R102). -/
def framesIn (s : State) (p c : Nat) (y : Coll) : Bool :=
  y.bricks.any (fun b => ptnOfAddr b.1 == p) || (ptn s p).regions.any fun r => r.2.inUse && r.2.coll == some c && r.2.use.isStrata

/-- Collections with frames in a partition become SUSPECT (R114). -/
def suspectIn (p : Nat) (s : State) : State :=
  { s with colls := tmap (fun c (y : Coll) => if y.state != .free && framesIn s p c y then { y with state := .suspect } else y) s.colls }

/-- Tamps of the partition's lists that have not committed are given up (R109). -/
def abandonTamps (p : Nat) (s : State) : State :=
  s.colls.foldl (fun s c => (listsOf c.2 p).foldl (fun s l =>
    let st := (leaf c.2 l).state
    if st = .cut ∨ st = .copy ∨ st = .commit then abandonTamp c.1 l s else s) s) s

/-- Levels that an L2 of the partition ends. -/
def endLevels (p : Nat) (s : State) : State :=
  { s with levels := s.levels.filter fun l => match l.level with
      | .l2 q => q.val != p
      | .l1 u q => u == 0x60 || q != p
      | _ => true }

/-- The partition taken out by its reset window: COLD, SERVICE 3 (R362, R363). -/
def ptnOut (p : Nat) (s : State) : State :=
  goCold p (updPtn p (fun x => { x with service := .oos }) (updAon (fun a => { a with
    ptnOos := if a.ptnOos.contains p then a.ptnOos else p :: a.ptnOos }) s))

/-- The machine as a partition reset leaves it before its outcome is decided: tamps abandoned, the engines' state gone, the credits of an
owned partition at their start, the levels of the partition ended (R358, R359, R362). -/
def emptied (p : Nat) (f : FenceRec) (s : State) : State :=
  let s := if f.memory then suspectIn p s else s
  let s := updPtn p resetEngines (abandonTamps p (chargeWhere (fun q _ _ => q == p) s))
  endLevels p (match (ptn s p).job with | some j => resetRates (jobPtns s j) p s | none => s)
/-- The L2 that runs in a partition was the one that reached its limit (R362). -/
def lastL2 (s : State) (p : Nat) : Bool := s.levels.any fun v => v.last && (match v.level with | .l2 q => q.val == p | _ => false)
/-- L2 completes (R357): FORGE and in service; held BANKED under step 4 (R225) or with the module OUT_OF_SERVICE (R364);
COLD with no owner; OUT_OF_SERVICE when its start was the third reset. -/
def endL2 (p : Nat) (f : FenceRec) (s : State) : State :=
  let last := lastL2 s p
  let s := emptied p f s
  if last then ptnOut p s
  else if s.aon.oos then ptnChange p (updPtn p (fun x => holdBanked { x with power := .forge, service := .fenced, fence := none }) s)
  else if (ptn s p).temp.step = 4 then
    let hold : FenceRec := { step := 6, code := f.code, thermal := true }
    let stop := fun x : Ptn => { x with power := .banked, saved := true, service := .fenced, fence := some hold, round := { x.round with running := false } }
    ptnChange p (updPtn p stop s)
  else if (ptn s p).job.isNone && !creating s p then goCold p s
  else
    let back := fun x : Ptn => { x with power := .forge, service := .inService, fence := none, zeroising := creating s p, round := restartRound x.round }
    serveWaits p (ptnChange p (refreshCopies p (updPtn p back s)))
def execPartitionResetDone (p : Fin 12) (s : State) : Host.Outcome State Fault Refusal :=
  .next (match (ptn s p.val).fence with
    | some f => if f.step = 6 ∧ (ptn s p.val).service = .resetting then endL2 p.val f s else s
    | none => s)

/-! ### L3 -/

/-- L3 completes once the Hearth runs; the fourth chip reset in its window takes the module out of service (R357, R362, R364). -/
def endL3 (s : State) : State :=
  let t := endLevel .l3 s
  if (s.levels.any fun v => v.level == .l3 && v.last) ∧ !s.aon.oos then moduleOos t else t
def execChipResetDone (s : State) : Host.Outcome State Fault Refusal :=
  onlyIf ((s.levels.any fun l => l.level == .l3) && s.hearthUp) endL3 s

/-! ### Zeroisation -/

/-- A JOB_CREATE no longer waits for a partition (R227). -/
def unwait (p : Nat) (k : Ticket) : Ticket :=
  match k.work with
  | .jobCreate j left f => { k with work := .jobCreate j (left.filter (· ≠ p)) f }
  | _ => k
def waitsPtn (p : Nat) (k : Ticket) : Bool := match k.work with | .jobCreate _ left _ => left.contains p | _ => false
/-- A partition zeroised: progress of the JOB_CREATE that waits for it wakes the Hearth (R306). -/
def zeroisedFor (p : Nat) (s : State) : State :=
  let t := updHearth (fun h => { h with tickets := tmap (fun _ k => unwait p k) h.tickets }) s
  if s.hearth.tickets.any fun k => waitsPtn p k.2 then wakeHearth t else t

/-- The anvils that are not usable, emptied. -/
def deadAnvils (t : Tbl Anvil) : Tbl Anvil := (t.filter fun a => !a.2.usable).map fun a => (a.1, { usable := false })

/-- The whole stack and the partition's SRAM at zero (R386). -/
def zeroStack (p : Nat) (s : State) : State :=
  let s := zeroRange (p * 2 ^ 36) (2 ^ 36) s
  let s := updHearth (fun h => { h with assays := h.assays.filter fun r => r.1 / 64 ≠ p }) s
  zeroisedFor p (updPtn p (fun x => { x with
    zeroising := false, cached := [], hot := [], pmem := [], placed := [], saves := [], pins := [], locked := []
    anvils := deadAnvils x.anvils }) s)

/-- Device address and size of a save slot (R249). -/
def saveBase (p n : Nat) : Nat := p * 2 ^ 36 + saveOffset n
/-- The anvil of a yielded record that waits for its context's slot. -/
def waitsSlot (x : Ptn) (s : State) (ctx : Nat) : Bool := x.anvils.any fun a => a.2.st == .yielded && anvCtx s a.2 == ctx

/-- Zeros written, fresh check bits, poison clear; the scope is usable then (R386). -/
def zeroised (z : ZeroScope) (s : State) : State :=
  match z with
  | .stack p => if (ptn s p.val).zeroising ∧ (ptn s p.val).power = .forge then zeroStack p.val s else s
  | .region p r =>
    (match tget (ptn s p.val).regions r with
    | some g => if g.inUse then s else updPtn p.val (fun x => { x with regions := tset x.regions r { g with zeroising := false } })
        (zeroRange (regionBase p.val r) (2 ^ 24) s)
    | none => if r < 3968 then zeroRange (regionBase p.val r) (2 ^ 24) s else s)
  | .saveSlot p n =>
    (match tget (ptn s p.val).saves n.val with
    | some v =>
      if !v.zeroising then s
      else
        let s := zeroRange (saveBase p.val n.val) 0x05000000 s
        let keep := !v.anvils.isEmpty || waitsSlot (ptn s p.val) s v.ctx
        let done : SaveSlot := { v with zeroising := false }
        updPtn p.val (fun x => { x with saves := if keep then tset x.saves n.val done else tdel x.saves n.val }) s
    | none => s)
def execZeroiseDone (scope : ZeroScope) (s : State) : Host.Outcome State Fault Refusal := .next (zeroised scope s)

end Sys2Proof.Machine
end

