-- ==== Sys2Proof/Machine/Supply.lean ====
section
/-! DEFINITION. Supplies, power-up and power-down (R395, R406, R409–R413, R418), the boot chain (R372–R374), leak and THERMTRIP (R400, R403). -/

namespace Sys2Proof.Machine

/-! ### Faults of the supply side (R346, R348) -/

/-- Class 0x8 codes outside partitions. -/
def powerFault (unit cause : Nat) : W32 := faultCode 8 unit 0xF (cause * 2 ^ 12)

/-- FENCE_NOTICE at LEVEL 4 on every UP port (R342). -/
def noticeL4 (code : W32) (s : State) : State := noticeUp 4 code s

/-- Every fast clock stops, with no fence, drain or completion: what lies outside the always-on domain is lost (R400, R403, R413). -/
def stopClocks (s : State) : State :=
  let s := cutRaise s
  { chipReset s with pins := { s.pins with clocks := false, linkTraining := false }, aon := { s.aon with trial := false } }

/-! ### The auxiliary supply -/

/-- The auxiliary supply comes up: the always-on domain starts, every pin at its default (R412, R418). -/
def auxUp (s : State) : State :=
  { State.reset with
    pending := s.pending, free := s.free
    aon := { slotA := s.aon.slotA, slotB := s.aon.slotB, committed := s.aon.committed, running := s.aon.committed, nextReset := s.aon.nextReset
             rollback := s.aon.rollback }
    pins := { s.pins with aux := true, pwrgd := false, cycleReq := false, thermtrip := false, clocks := false, linkTraining := false } }
def execAuxSupplyUp (s : State) : Host.Outcome State Fault Refusal := onlyIf (!s.pins.aux) auxUp s

/-- The auxiliary supply is lost: everything the always-on domain held goes, but for the firmware slots and fuses (R358, R395, R409). -/
def execAuxSupplyLoss (s : State) : Host.Outcome State Fault Refusal :=
  onlyIf s.pins.aux (fun s => let t := auxUp s; updPins (fun p => { p with aux := false }) t) s

/-! ### PWR_EN, PWRGD, the 54 V load -/

/-- The hot-swap controller connects the load (R406). -/
def execPwrEnAssert (s : State) : Host.Outcome State Fault Refusal :=
  .next (updPins (fun p => { p with pwrEn := true, load := true }) s)

/-- Levels that last across an orderly power-down: an L4 completes only after it (R357, R413). -/
def keepL4 (s : State) (t : State) : State := { t with levels := s.levels.filter fun l => l.level == .l4 }

/-- The load is disconnected: a power cycle, since which no recovery has been taken (R381). -/
def offLoad (s : State) : State := updAon (fun a => { a with recoveryTaken := false, dynAddr := none }) (updPins (fun p => { p with load := false, pwrgd := false }) s)

/-- Orderly power-down: notices, clocks stopped, PWRGD and CYCLE_REQ_N released, the load disconnected (R410, R413). -/
def powerDown (s : State) : State :=
  updPins (fun p => { p with pwrEn := false, cycleReq := false, thermtrip := false }) (offLoad (keepL4 s (stopClocks (noticeL4 0 s))))
def execPwrEnDeassert (s : State) : Host.Outcome State Fault Refusal := onlyIf s.pins.pwrEn powerDown s

/-- The load disconnected on overcurrent: the rails fall and PWRGD is released (R406, R410). -/
def execHotSwapOvercurrent (s : State) : Host.Outcome State Fault Refusal :=
  onlyIf s.pins.load (fun s => offLoad (keepL4 s (stopClocks s))) s

/-- Every rail is within limits after PWR_EN: the boot ROM starts unless a leak is latched (R403, R410, R412). -/
def execPwrgd (s : State) : Host.Outcome State Fault Refusal :=
  onlyIf (s.pins.pwrEn && s.pins.load && s.pins.aux && !s.pins.pwrgd && !s.pins.thermtrip)
    (fun s => updLink (fun l => { l with byReset := l.byReset || s.levels.any fun v => v.level == .l4 })
      (updPins (fun p => { p with pwrgd := true, clocks := true, linkTraining := !p.perst }) s)) s

/-! ### The boot chain (R372) -/

/-- Step 1: a pending NEXT_RESET is made the committed slot, then its SV blown into the fuses (R374). -/
def takeNext (a : Aon) : Aon :=
  match a.nextReset with
  | some b => { a with committed := b, trial := false, nextReset := none, rollback := max a.rollback (fwSlot a b).sv }
  | none => a

/-- The code of a slot that fails: BOOT_VERIFY or ROLLBACK, the slot in DETAIL [0] (R372). -/
def bootFault (a : Aon) (b : Bool) : W32 := faultCode 10 0x89 0xF ((if (fwSlot a b).valid then 2 else 1) * 2 ^ 12 + (if b then 1 else 0))

/-- The ROM issues the alias certificate and the firmware sets GLB_STATUS.HEARTH; an L4 completes and clears what only it clears; enabled ports train (R325, R335, R357, R364, R372, R377). -/
def startFirmware (s : State) : State :=
  let done := s.levels.any fun l => l.level == .l4
  let s := updAon (fun a => { a with running := a.committed, trial := false
                                     oos := a.oos && !done, linkWin := if done then {} else a.linkWin, l4Overrun := a.l4Overrun && !done }) s
  let s := { s with levels := s.levels.filter fun l => l.level ≠ .l4 }
  let s := (bitsOf 4 s.aon.enable.toNat).foldl (fun s n => updPort n (fun p => { p with st := .training, step := 1 }) s) s
  startMailboxes { updHearth (fun h => { h with awake := true, wakeDue := false, issued := some (issueAlias s.aon) }) s with hearthUp := true }

/-- The ROM's steps: the committed slot, else the other one, else recovery, in which the ROM takes up what waits in MBX0 and MBX3 (R372, R373). -/
def boot (s : State) : State :=
  let s := updAon takeNext s
  let b := s.aon.committed
  if slotValid s.aon b then startFirmware s
  else
    let s := postFault (bootFault s.aon b) s
    if slotValid s.aon (!b) then startFirmware (updAon (fun a => { a with committed := !b }) s)
    else
      let s := postFault (bootFault s.aon (!b)) s
      updAon (fun a => { a with recoveryTaken := true }) (updHearth (fun h => { h with
        recovery := true, mbx := tmap (fun m (x : Mbx) => if x.state = 1 ∧ (m = 0 ∨ m = 3) then { x with state := 2 } else x) h.mbx }) s)
def execBootComplete (s : State) : Host.Outcome State Fault Refusal :=
  onlyIf (s.pins.pwrgd && !s.hearthUp && !s.aon.leak && !s.hearth.recovery && !s.hearth.restarting) boot s

/-! ### Requests for a power cycle -/

/-- THERMTRIP of a die (R400). -/
def trip (d : Die) (s : State) : State :=
  let s := updAon (fun a => { a with trip := true }) (postFault (powerFault (if d = .west then 0x91 else 0x92) 4) s)
  startL4 (updPins (fun p => { p with thermtrip := true, pwrgd := false }) (keepL4 s (stopClocks s)))
def execThermtrip (d : Die) (s : State) : Host.Outcome State Fault Refusal := onlyIf s.pins.pwrgd (trip d) s

/-- LEAK_DET has stayed asserted for its filter time (R403). -/
def latchLeak (s : State) : State :=
  let code := powerFault 0x93 7
  let s := noticeL4 code (updAon (fun a => { a with leak := true }) (postFault code s))
  startL4 (keepL4 s (stopClocks s))
def execLeak (s : State) : Host.Outcome State Fault Refusal := onlyIf (s.pins.aux && !s.aon.leak) latchLeak s

/-- The 54 V input outside its limits for 50 µs (R395). -/
def execSupply (s : State) : Host.Outcome State Fault Refusal :=
  onlyIf s.pins.load (fun s => startL4 (postFault (powerFault 0x90 6) s)) s

/-! ### What the outputs show (R410) -/

/-- The causes of ALERT_N: OUT_OF_SERVICE, recovery, leak, L4 overrun, THERMTRIP. -/
def alertCauses (s : State) : List Bool := [s.aon.oos, s.hearth.recovery, s.aon.leak, s.aon.l4Overrun, s.aon.trip]
def alertN (s : State) : Bool := s.pins.aux && (alertCauses s).any id

end Sys2Proof.Machine
end

