-- ==== Sys2Proof/Machine/PowerCtl.lean ====
section
/-! DEFINITION. The power controller (R396–R398), die temperature (R399), coolant (R402). -/

namespace Sys2Proof.Machine

/-! ### Power (R397, R398) -/

def sum (l : List Nat) : Nat := l.foldl (· + ·) 0
def mean (l : List Nat) : Nat := sum l / max 1 l.length
/-- The mean, not rounded, above and below a limit. -/
def meanAbove (l : List Nat) (w : Nat) : Bool := decide (sum l > w * max 1 l.length)
def meanBelow (l : List Nat) (w : Nat) : Bool := decide (sum l < w * max 1 l.length)

/-- p10 of the last 10 µs, newest first; the voltage read is a value from outside (log 3). -/
def power10 (w vin : Nat) (x : PowerT) : PowerT :=
  { x with p10 := (w :: x.p10).take 100, vin := vin % 256
           dp := if w > 1600 then min 15 (x.dp + 4) else x.dp, rose := x.rose || decide (w > 1600) }
def execPowerTick10us (watts : Nat) (s : State) : Host.Outcome State Fault Refusal :=
  onlyIf s.pins.pwrgd (fun s => spend 1 (updPower (power10 watts (Config.freeNat s.free)) s)) s

/-- a100, the mean of the last ten p10, against PLIM. -/
def power100 (plim : Nat) (x : PowerT) : PowerT :=
  if meanAbove (x.p10.take 10) plim then { x with dp := min 15 (x.dp + 2), rose := true } else x
def execPowerTick100us (s : State) : Host.Outcome State Fault Refusal := onlyIf s.pins.pwrgd (fun s => updPower (power100 s.aon.plim) s) s

/-- a1, the mean over the last 1 ms: the depth may fall; an excursion holds it at 15 until the average has stayed below PLIM for 10 ms. -/
def power1 (plim : Nat) (x : PowerT) : PowerT :=
  let low := if meanBelow x.p10 plim then x.lowMs + 1 else 0
  let high := if meanAbove x.p10 plim ∧ x.dp = 15 then x.highMs + 1 else 0
  let exc := (x.excursion || decide (high ≥ 2)) && decide (low ≤ 10)
  { x with pin := mean x.p10, lowMs := low, highMs := high, excursion := exc, rose := false
           dp := if exc then 15 else if meanBelow x.p10 (plim - 50) ∧ !x.rose then x.dp - 1 else x.dp }
def powerMs (s : State) : State :=
  let x := power1 s.aon.plim s.power
  let t := updPower (fun _ => x) s
  if x.excursion && !s.power.excursion then postFault (powerFault 0x90 5) t else t
def execPowerTick1ms (s : State) : Host.Outcome State Fault Refusal := onlyIf s.pins.pwrgd powerMs s

/-! ### Die temperature (R399), in degrees -/

def dieOf (d : Die) (x : PowerT) : DieT := if d = .west then x.west else x.east
def setDie (d : Die) (y : DieT) (x : PowerT) : PowerT := if d = .west then { x with west := y } else { x with east := y }

/-- A sample of the hottest sensor; outside −40 °C to 150 °C it is discarded. -/
def sampleDie (t : Option Int) (y : DieT) : DieT :=
  match t.filter fun v => decide (-40 ≤ v) && decide (v ≤ 150) with
  | none => y
  | some v =>
    let l := (y.samples ++ [v]).drop (y.samples.length - 4)
    let f := filterSamples l.length l
    { y with samples := l, filtered := some f, armed := if f < 97 then true else if f ≥ 100 then false else y.armed }
/-- The filtered temperature has risen to 100 °C from below 97 °C. -/
def dieRose (y z : DieT) : Bool := y.armed && z.filtered.any fun f => decide (f ≥ 100)
def dieSample (d : Die) (t : Option Int) (s : State) : State :=
  let y := dieOf d s.power
  let z := sampleDie t y
  let u := updPower (setDie d z) s
  if dieRose y z then postFault (powerFault (if d = .west then 0x91 else 0x92) 3) u else u
def execDieTempSample (d : Die) (t : Option Int) (s : State) : Host.Outcome State Fault Refusal := onlyIf s.pins.pwrgd (dieSample d t) s

/-- The thermal depth of a die, each millisecond. -/
def depthStep (y : DieT) : DieT :=
  match y.filtered with
  | some f => if f ≥ 100 then { y with depth := min 15 (y.depth + 1) } else if f < 97 then { y with depth := y.depth - 1 } else y
  | none => y
def execDieDepthTick (d : Die) (s : State) : Host.Outcome State Fault Refusal :=
  onlyIf s.pins.pwrgd (updPower fun x => setDie d (depthStep (dieOf d x)) x) s

/-! ### Coolant (R402), in half degrees -/

def addSample (t : Option Int) (l : List Int) : List Int := match t with | some v => (l ++ [v]).drop (l.length - 4) | none => l
def coolFilter (l : List Int) : Option Int := if l.isEmpty then none else some (filterSamples l.length l)
/-- Outside its limits: the inlet outside 20–45 °C or the outlet above 60 °C. -/
def coolBad (i o : Option Int) : Bool := (i.any fun v => decide (v < 40) || decide (v > 90)) || o.any fun v => decide (v > 120)
def sampleCoolant (i o : Option Int) (x : PowerT) : PowerT :=
  let li := addSample i x.inlets
  let lo := addSample o x.outlets
  { x with inlets := li, outlets := lo, inlet := coolFilter li, outlet := coolFilter lo, coolOol := coolBad (coolFilter li) (coolFilter lo) }
def execCoolantSample (inlet outlet : Option Int) (s : State) : Host.Outcome State Fault Refusal :=
  onlyIf s.pins.pwrgd (updPower (sampleCoolant inlet outlet)) s

end Sys2Proof.Machine
end

