-- ==== Sys2Proof/Machine/Swap.lean ====
section
/-! DEFINITION. Residency (R231, R250–R254): who waits, who may be evicted, the phases of a swap. -/

namespace Sys2Proof.Machine

/-! ### Idle and blocked contexts (R252, R254) -/

/-- A context has work in a partition: descriptors, chunks, bindings, or a command with work there. -/
def ctxBusy (s : State) (p ctx : Nat) : Bool := ctxHasWork s p ctx || (ctxCmds s ctx).any (hasWorkIn s p)

/-- The commands of a context that a partition has to do with: those with work there, and those whose dispatcher it is, but for FENCE, FLUSH and
EPOCH_QUERY, which wait on other commands (R254). -/
def workHere (s : State) (p ctx : Nat) : List Nat :=
  (ctxCmds s ctx).filter fun c => hasWorkIn s p c || (cmd? s c).any fun x => x.home == p && (x.stage != .waiting || uncommitted x)

/-- A context is blocked: it has work, and none of it waits on the partition itself (R254). -/
def blockedIn (s : State) (p ctx : Nat) : Bool :=
  let live := workHere s p ctx
  !live.isEmpty && (isFenced (ptn s p) || live.all fun c => (cmd? s c).any (blockedCmd s c))

/-- A context appended to a list once. -/
def listed1 (ctx : Nat) (l : List Nat) : List Nat := if l.contains ctx then l else l ++ [ctx]

/-- The contexts of a partition's lists that are idle or blocked no longer leave them: their time starts anew (R252). -/
def pruneLists (s : State) : State :=
  { s with ptns := tmap (fun p (x : Ptn) =>
      if x.idleList.isEmpty && x.blockedList.isEmpty then x
      else { x with idleList := x.idleList.filter fun c => !ctxBusy s p c, blockedList := x.blockedList.filter (blockedIn s p) }) s.ptns }

def execResidentIdleTimeout (p : Fin 12) (ctx : Nat) (s : State) : Host.Outcome State Fault Refusal :=
  onlyIf ((tget (ptn s p.val).resident ctx).isSome && !ctxBusy s p ctx)
    (updPtn p fun x => { x with idleList := listed1 ctx x.idleList }) s
def execResidentBlockedTimeout (p : Fin 12) (ctx : Nat) (s : State) : Host.Outcome State Fault Refusal :=
  onlyIf ((tget (ptn s p.val).resident ctx).isSome && blockedIn s p ctx)
    (updPtn p fun x => { x with blockedList := listed1 ctx (x.blockedList.filter (blockedIn s p)) }) s

/-- The contexts that chunks of no command in a partition are charged to (R241). -/
def careCtxs (s : State) (p : Nat) : List Nat := (distinct ((careChunks s p).map (·.ctx))).filter fun c => (ctx? s c).isSome
/-- A context that waits for residency: work here, not resident. -/
def waits (s : State) (p ctx : Nat) : Bool := (tget (ptn s p).resident ctx).isNone && (ctxHasWork s p ctx || (careCtxs s p).contains ctx)
/-- The contexts that wait, longest first; those with chunks of no command only come after the others (R231, R252; log 73). -/
def swapQueue (s : State) (p : Nat) : List Nat := (ptn s p).waiting ++ (careCtxs s p).filter fun c => !(ptn s p).waiting.contains c
def execSwapWaitTimeout (p : Fin 12) (ctx : Nat) (s : State) : Host.Outcome State Fault Refusal :=
  onlyIf ((swapQueue s p.val).contains ctx && waits s p ctx)
    (updPtn p fun x => { x with waitedLong := listed1 ctx x.waitedLong }) s

/-! ### The choice (R252) -/

/-- A FIXED slot of the round table names the context. -/
def fixedFor (x : Ptn) (ctx : Nat) : Bool := x.round.table.any fun r => r.cls == 0 && r.ctx == ctx
def roundPeriod (r : Round) : Nat := r.table.foldl (fun n k => n + k.dur) 0

/-- The partition without a context's residency. -/
def evicted (ctx : Nat) (x : Ptn) : Ptn :=
  { x with resident := tdel x.resident ctx, idleList := x.idleList.filter (· ≠ ctx), blockedList := x.blockedList.filter (· ≠ ctx) }

/-- The patterns of a context fit once another, if any, is gone (R54, R231). -/
def fits (s : State) (p ctx : Nat) (victim : Option Nat) : Bool :=
  let s := match victim with | some v => updPtn p (evicted v) s | none => s
  (placeAll (updPtn p (fun x => { x with resident := tset x.resident ctx {} }) s) p ctx).isSome

/-- The context evicted for another, by the first rule that applies: none in the inner option where a place is free. -/
def chooseVictim (s : State) (p ctx : Nat) : Option (Option Nat) :=
  let x := ptn s p
  let may := fun v => (tget x.resident v).isSome && !fixedFor x v && fits s p ctx (some v)
  let old := (x.resident.filter fun r => may r.1 && decide (x.cycles.toNat ≥ r.2.since + roundPeriod x.round)).map (·.1)
  if x.resident.length < 8 && fits s p ctx none then some none
  else match x.idleList.find? fun v => may v && !ctxBusy s p v with
    | some v => some (some v)
    | none =>
      let allBlocked := (tkeys x.resident).all fun v => x.blockedList.contains v && blockedIn s p v
      match (if allBlocked then x.blockedList.find? may else none) with
      | some v => some (some v)
      | none => if x.waitedLong.contains ctx then (maxBy (fun v => tgetD x.vtime v 0) old).map some else none

/-- Anvils of a context's work are asked for; in kill mode KILL_PREEMPT stops them (R253). -/
def requestAll (p ctx : Nat) (s : State) : State :=
  let tile := !killMode s ctx
  updPtn p (fun x => { x with anvils := tmap (fun _ (a : Anvil) =>
    if tile && (anvCtxs s a).contains ctx && issuing a then { a with preempt := true } else a) x.anvils }) s

/-- SWAP_START: the context that has waited longest, where a place can be had; not at throttle step 3 or 4. -/
def startSwap (p : Nat) (s : State) : State :=
  let x := ptn s p
  if x.swap.isSome || !issues s p || x.temp.step ≥ 3 then s
  else match (swapQueue s p).find? (waits s p) with
    | none => s
    | some ctx => match chooseVictim s p ctx with
      | none => s
      | some none => updPtn p (fun x => { x with swap := some { phase := 3, incoming := ctx } }) s
      | some (some v) => requestAll p v (updPtn p (fun x => { x with swap := some { phase := 1, incoming := ctx, victim := some v } }) s)
def execSwapStart (p : Fin 12) (s : State) : Host.Outcome State Fault Refusal := .next (startSwap p.val s)

/-! ### The phases (R253) -/

/-- No anvil runs the victim's work, in any of its lanes; in tile mode those that stopped at a YIELD are still to be saved. -/
def stopped (s : State) (p v : Nat) : Bool :=
  (ptn s p).anvils.all fun a => !(anvCtxs s a.2).contains v || a.2.st == .yielded || a.2.st == .stopped
def savedAll (s : State) (p v : Nat) : Bool := (ptn s p).anvils.all fun a => !(a.2.st == .yielded && (anvCtxs s a.2).contains v)

/-- Frames of the context's collections that the hot-brick table holds (R250). -/
def warmList (s : State) (p ctx : Nat) : List Nat :=
  let j := ctxJob s ctx
  ((ptn s p).hot.map (·.1)).filter fun f => s.colls.any fun c => c.2.job == j && (brick? c.2 f).isSome

/-- The victim's residency ends; it waits again if it has work. -/
def evictCtx (p v : Nat) (s : State) : State :=
  let warm := warmList s p v
  let s := updPtn p (fun x => { evicted v x with warmLists := tset x.warmLists v warm }) s
  let s := updPtn p (fun _ => purgePlaced s p) s
  if ctxHasWork s p v then updPtn p (noteWork v) s else s

/-- Near bytes of swap traffic into a context (R240). -/
def swapBytes (ctx n : Nat) (s : State) : State :=
  updCtx ctx (fun k => { k with counters := { k.counters with nearB := k.counters.nearB + BitVec.ofNat 64 n } }) s

/-- The bytes of a swap's pattern load: the context's custom steps and sieve programs, broadcast (R240, R253). -/
def loadPatterns (p ctx : Nat) (s : State) : State :=
  let n := match ctx? s ctx with
    | some k => k.patterns.foldl (fun n q => n + 16 * q.2.steps.length) 0 + k.filters.foldl (fun n f => n + 4 * f.2.length) 0
    | none => 0
  if ((ptn s p).swap.any fun w => w.loaded) then s
  else swapBytes ctx n (updPtn p (fun x => { x with swap := x.swap.map fun w => { w with loaded := true } }) s)

/-- An anvil of a record's row that may take it back: free, and for a chunk's one that BFRES does not withhold (R237, R246). -/
def restorePlace (s : State) (p : Nat) (a : Nat × Anvil) : Option Nat :=
  ((upto 36).map (a.1 / 36 * 36 + ·)).find? fun i => bindable (anvil s p i) && (a.2.chunk.isNone || backfills (ptn s p) (a.1 / 36))

/-- Saved records of the incoming context return to free anvils of their rows, where they stand at their YIELD until it is resident (R231, R250). -/
def restoreRecords (p ctx : Nat) (s : State) : State :=
  ((ptn s p).saves.filter fun v => v.2.ctx == ctx).foldl (fun s v =>
    v.2.anvils.foldl (fun s a => match restorePlace s p a with
      | some i => swapBytes ctx recordBytes (updAnvil p i (fun b => { b with st := .yielded }) (resume p i v.1 a s))
      | none => s) s) s
/-- Every record of a context has been restored. -/
def restoredAll (s : State) (p ctx : Nat) : Bool := (ptn s p).saves.all fun v => v.2.ctx != ctx || v.2.anvils.isEmpty

/-- Lines of the warm list's header, attribute, scale, norm and key blocks. -/
def warmLines (s : State) (f : Nat) : List Nat :=
  match s.colls.find? fun c => (brick? c.2 f).isSome with
  | some c => (upto (ceilDiv (partOffset c.2 false 5) 64)).map fun i => stackOff f + 64 * i
  | none => []

/-- The anvils that hold restored records of a context run on from their YIELDs (R246, R253). -/
def runRestored (p ctx : Nat) (s : State) : State :=
  updPtn p (fun x => { x with anvils := tmap (fun _ (a : Anvil) =>
    if a.st = .yielded ∧ !a.preempt ∧ anvCtx s a = ctx then { a with st := .running, charge := x.cycles.toNat } else a) x.anvils }) s

/-- The warm list fetched as cached lines; the context is resident, and its work goes on (R231, R253). -/
def warmUp (p ctx : Nat) (s : State) : State :=
  let ls := (tgetD (ptn s p).warmLists ctx []).flatMap (warmLines s)
  runRestored p ctx <| swapBytes ctx (64 * ls.length) (updPtn p (fun x => ls.foldl (fun x l => useCached l x) { x with
    swap := none, resident := tset x.resident ctx { since := x.cycles.toNat }, warmLists := tdel x.warmLists ctx
    waiting := x.waiting.filter (· ≠ ctx), waitedLong := x.waitedLong.filter (· ≠ ctx) }) s)

def setPhase (p n : Nat) (s : State) : State := updPtn p (fun x => { x with swap := x.swap.map fun w => { w with phase := n } }) s

/-- The phase ends where its work is done; a suspended swap does not go on (R253). -/
def endPhase (p : Nat) (w : Swap) (s : State) : State :=
  if w.phase = 1 then
    (match w.victim with
    | some v => if stopped s p v then setPhase p 2 s else s
    | none => setPhase p 3 s)
  else if w.phase = 2 then
    (match w.victim with
    | some v => if savedAll s p v then setPhase p 3 (evictCtx p v s) else s
    | none => setPhase p 3 s)
  else if w.phase = 3 then
    (match placeAll (updPtn p (fun x => { x with resident := tset x.resident w.incoming {} }) s) p w.incoming with
    | some x =>
      let s := restoreRecords p w.incoming (loadPatterns p w.incoming (updPtn p (fun _ => { x with resident := tdel x.resident w.incoming }) s))
      if restoredAll s p w.incoming then setPhase p 4 s else s
    | none => s)
  else warmUp p w.incoming s
def execSwapPhaseEnd (p : Fin 12) (s : State) : Host.Outcome State Fault Refusal :=
  .next (match (ptn s p.val).swap with
    | some w => if w.suspended || !issues s p.val then s else endPhase p.val w s
    | none => s)

end Sys2Proof.Machine
end

