-- ==== Sys2Proof/Machine/Tray.lean ====
section
/-! DEFINITION. The tray controller's side: I3C (R415, R417), PLDM (R416), and the JTAG TAP (R430–R432). -/

namespace Sys2Proof.Machine

/-! ### I3C -/

/-- Module state of a heartbeat: 3 leak latched, 2 booting or recovery, 1 OUT_OF_SERVICE, 0 in service (R417). -/
def beatState (s : State) : Nat := if s.aon.leak then 3 else if !s.hearthUp then 2 else if s.aon.oos then 1 else 0
/-- The status word; the protocol-error flag and the interrupt count are the I3C bus's (log 3). -/
def statusWord (s : State) (c bus : Nat) : Nat := beatState s * 2 ^ 14 + c * 2 ^ 8 + bus % 2 * 2 ^ 5 + bus / 2 % 16
/-- GETSTATUS: the counter advances and the word is answered; without the auxiliary supply there is no answer (R417). -/
def getStatus (s : State) : State :=
  let s := updAon (fun a => { a with hbCounter := a.hbCounter + 1 }) s
  answer (.data (leBytes 2 (statusWord s s.aon.hbCounter.toNat (Config.freeNat s.free))) false) (spend 1 s)
def execGetstatus (s : State) : Host.Outcome State Fault Refusal := onlyIf s.pins.aux getStatus s

/-- A dynamic address, by SETDASA to the static address 0x5A or by ENTDAA (R415). -/
def takeAddress (a : BitVec 7) (s : State) : State := updAon (fun x => { x with dynAddr := some a }) s
def execSetdasa (addr : BitVec 7) (s : State) : Host.Outcome State Fault Refusal := onlyIf s.pins.aux (takeAddress addr) s
def execEntdaa (addr : BitVec 7) (s : State) : Host.Outcome State Fault Refusal := onlyIf s.pins.aux (takeAddress addr) s

/-! ### PLDM (R416) -/

/-- The PLIM effecter: a value outside 600–1,500 W is refused (R396). -/
def writePlim (w : Nat) (s : State) : State :=
  if 600 ≤ w ∧ w ≤ 1500 then answer .written (updAon (fun a => { a with plim := w }) s) else answer .refused s
def execPldmPlimWrite (watts : Nat) (s : State) : Host.Outcome State Fault Refusal := onlyIf s.pins.aux (writePlim watts) s

/-- What a sensor holds, as GLB_POWER and GLB_THERM hold it; the causes of ALERT_N one bit each in the order of R410. -/
def sensorValue (s : State) : PldmSensor → Nat
  | .pin => s.power.pin % 65536
  | .vin => s.power.vin % 256
  | .tjWest => bits (glbTherm s) 63 56
  | .tjEast => bits (glbTherm s) 55 48
  | .inlet => bits (glbTherm s) 47 40
  | .outlet => bits (glbTherm s) 39 32
  | .alertCause => maskOf ((upto 5).filter fun i => lget (alertCauses s) i false)
  | .plim => s.aon.plim % 65536
def execPldmSensorRead (sensor : PldmSensor) (s : State) : Host.Outcome State Fault Refusal :=
  onlyIf s.pins.aux (fun s => answer (.data (leBytes 2 (sensorValue s sensor)) false) s) s

/-- A firmware update as if by BEGIN, DATA and FINISH of MBX3, then NEXT_RESET (R322, R323, R416), judged by the counter that a raise under way
comes to (R374); in recovery BEGIN with SLOT 0xFF is refused. -/
def updateFw (image : List Byte) (s : State) : State :=
  if !s.hearthUp || sessionElsewhere s 3 || image.isEmpty || decide (image.length > 2 ^ 22) then answer .refused s
  else
    let b := idleSlot s
    match verifyImage { s.aon with rollback := raised s } image.length image with
    | (x, .ok, _) => answer .written (updAon (fun a => { a with nextReset := some b }) (updHearth (fun h => { h with stage := none }) (setFwSlot b x s)))
    | (x, _, _) => answer .refused (updHearth (fun h => { h with stage := none }) (setFwSlot b x s))
def execPldmFwUpdate (image : List Byte) (s : State) : Host.Outcome State Fault Refusal := onlyIf s.pins.aux (updateFw image) s

/-! ### JTAG -/

/-- Boundary-scan instructions that drive pins (R432). -/
def drives (code : Nat) : Bool := code == 0 || (3 ≤ code && code ≤ 6)
/-- They take effect only while no job exists and every ring is DISABLED (R432). -/
def scanAllowed (s : State) : Bool := s.jobs.isEmpty && s.host.rings.all fun r => r.2.st == .disabled

/-- Pins back at their functional state: an enabled port retrains, uncounted (R325, R432). -/
def leaveScan (s : State) : State :=
  if s.jtag.functional then s
  else
    let s := { s with jtag := { s.jtag with functional := true } }
    updIcern (fun i => { i with ports := tmap (fun n (p : Port) =>
      if bit s.aon.enable.toNat n then { p with st := .training, step := 1, lanes := 0 } else p) i.ports }) s

/-- A driving instruction takes the host link and the Icern ports down, uncounted (R432). -/
def takePins (s : State) : State :=
  let s := if s.host.link.up then linkLoss false false s else s
  let s := (upto 4).foldl (fun s n => if (port s n).st = .disabled then s else emptyPort n 1 s) s
  { s with jtag := { s.jtag with functional := false } }

/-- An instruction loaded into the TAP; a refused one acts as BYPASS, which leaves the one before it (R432). -/
def loadInstr (code : Byte) (s : State) : State :=
  if drives code.toNat then
    if scanAllowed s then
      let t := if s.jtag.functional then takePins s else s
      { t with jtag := { t.jtag with instr := code, refused := false } }
    else
      let t := leaveScan s
      { t with jtag := { t.jtag with instr := 0xFF, refused := true } }
  else
    let t := leaveScan s
    { t with jtag := { t.jtag with instr := code, refused := false } }

def execExtest (s : State) : Host.Outcome State Fault Refusal := onlyIf s.pins.aux (loadInstr 0x00) s
def execIdcode (s : State) : Host.Outcome State Fault Refusal :=
  onlyIf s.pins.aux (fun s => answer (.data (leBytes 4 0x1C1203E3) false) (loadInstr 0x01 s)) s

/-- Cells of the boundary register in order: J1 and J2 lanes, receive and transmit, then PWR_EN, PERST_N, LEAK_DET, ALERT_N, PWRGD,
CYCLE_REQ_N, THERMTRIP_N (R431). -/
def laneCells : Nat := 64
/-- What SAMPLE captures: the lanes as sampled while PWRGD is asserted, 0 without it, and the sideband pins, asserted levels by their
electrical sense (R408, R431). -/
def captured (s : State) (lanes : List Bool) : List Bool :=
  (upto laneCells).map (fun i => s.pins.pwrgd && lget lanes i false) ++
  [s.pins.pwrEn, !s.pins.perst, s.aon.leak, !alertN s, s.pins.pwrgd, !s.pins.cycleReq, !s.pins.thermtrip]
def execSamplePreload (pins : List Bool) (s : State) : Host.Outcome State Fault Refusal :=
  onlyIf s.pins.aux (fun s =>
    let t := loadInstr 0x02 s
    { t with jtag := { t.jtag with boundary := captured t pins } }) s
def execExtestPulse (s : State) : Host.Outcome State Fault Refusal := onlyIf s.pins.aux (loadInstr 0x03) s
def execExtestTrain (s : State) : Host.Outcome State Fault Refusal := onlyIf s.pins.aux (loadInstr 0x04) s
def execClamp (s : State) : Host.Outcome State Fault Refusal := onlyIf s.pins.aux (loadInstr 0x05) s
def execHighz (s : State) : Host.Outcome State Fault Refusal := onlyIf s.pins.aux (loadInstr 0x06) s
/-- BYPASS: 0xFF and every code that is no instruction (R430). -/
def execBypass (code : BitVec 8) (s : State) : Host.Outcome State Fault Refusal := onlyIf (s.pins.aux && decide (code.toNat > 6)) (loadInstr 0xFF) s

/-- TRST_N asserted: Test-Logic-Reset, every pin functional (R418, R432). -/
def resetTap (s : State) : State :=
  let t := leaveScan s
  { t with jtag := { t.jtag with instr := 0x01, refused := false } }
def execTrstAssert (s : State) : Host.Outcome State Fault Refusal := .next (resetTap s)

end Sys2Proof.Machine
end

