-- ==== Sys2Proof/Machine/Dispatch.lean ====
section
/-! DEFINITION. One arm per command: a direct call of its meaning. -/

namespace Sys2Proof.Machine

/-- The effect of a command on everything but the queue. -/
def exec (i : Instr) (s : State) : Host.Outcome State Fault Refusal :=
  match i with
  -- host registers and doorbells
  | .sqDoorbell r v => Sys2Proof.Machine.execSqDoorbell r v s
  | .cqDoorbell r v => Sys2Proof.Machine.execCqDoorbell r v s
  | .payloadDoorbell r v => Sys2Proof.Machine.execPayloadDoorbell r v s
  | .evtPendClear v occ => Sys2Proof.Machine.execEvtPendClear v occ s
  | .evtMaskWrite v => Sys2Proof.Machine.execEvtMaskWrite v s
  | .msixUnmask vec => Sys2Proof.Machine.execMsixUnmask vec s
  | .registerWrite path off size v => Sys2Proof.Machine.execRegisterWrite path off size v s
  -- rings
  | .entryFetch r reply => Sys2Proof.Machine.execEntryFetch r reply s
  | .nop r => Sys2Proof.Machine.execNop r s
  | .fence r => Sys2Proof.Machine.execFence r s
  | .search r far => Sys2Proof.Machine.execSearch r far s
  | .searchHybrid r far => Sys2Proof.Machine.execSearchHybrid r far s
  | .searchExact r far => Sys2Proof.Machine.execSearchExact r far s
  | .insert r => Sys2Proof.Machine.execInsert r s
  | .upsert r => Sys2Proof.Machine.execUpsert r s
  | .delete r => Sys2Proof.Machine.execDelete r s
  | .flush r => Sys2Proof.Machine.execFlush r s
  | .epochQuery r => Sys2Proof.Machine.execEpochQuery r s
  | .bulkLoad r => Sys2Proof.Machine.execBulkLoad r s
  | .exportColl r => Sys2Proof.Machine.execExportColl r s
  | .trdyTimeout c => Sys2Proof.Machine.execTrdyTimeout c s
  | .stagedPayloadRead c => Sys2Proof.Machine.execStagedPayloadRead c s
  | .stagingReuse c => Sys2Proof.Machine.execStagingReuse c s
  | .dmaReadComplete c reply => Sys2Proof.Machine.execDmaReadComplete c reply s
  | .dmaTimeout c => Sys2Proof.Machine.execDmaTimeout c s
  | .completionWrite c solo => Sys2Proof.Machine.execCompletionWrite c solo s
  | .ctimeExpiry r => Sys2Proof.Machine.execCtimeExpiry r s
  | .hostWriteAccept => Sys2Proof.Machine.execHostWriteAccept s
  -- host link
  | .linkTrained width rate flitMode => Sys2Proof.Machine.execLinkTrained width rate flitMode s
  | .linkRetrainTimer => Sys2Proof.Machine.execLinkRetrainTimer s
  | .linkDown => Sys2Proof.Machine.execLinkDown s
  | .d3hotEntry => Sys2Proof.Machine.execD3hotEntry s
  | .d0Entry => Sys2Proof.Machine.execD0Entry s
  | .aspmL1Entry => Sys2Proof.Machine.execAspmL1Entry s
  | .aspmL1Exit => Sys2Proof.Machine.execAspmL1Exit s
  | .perstAssert => Sys2Proof.Machine.execPerstAssert s
  | .perstDeassert => Sys2Proof.Machine.execPerstDeassert s
  | .cxlEnable cache mem hdm => Sys2Proof.Machine.execCxlEnable cache mem hdm s
  | .cxlMemAccess off acc => Sys2Proof.Machine.execCxlMemAccess off acc s
  | .unsupportedRequest kind => Sys2Proof.Machine.execUnsupportedRequest kind s
  -- mailbox commands
  | .summary m => Sys2Proof.Machine.execSummary m s
  | .identify m => Sys2Proof.Machine.execIdentify m s
  | .eventLog m => Sys2Proof.Machine.execEventLog m s
  | .clockCorr m => Sys2Proof.Machine.execClockCorr m s
  | .resultGet m => Sys2Proof.Machine.execResultGet m s
  | .ptnEnable m => Sys2Proof.Machine.execPtnEnable m s
  | .ptnPower m => Sys2Proof.Machine.execPtnPower m s
  | .jobCreate m => Sys2Proof.Machine.execJobCreate m s
  | .jobEnd m => Sys2Proof.Machine.execJobEnd m s
  | .ctxCreate m => Sys2Proof.Machine.execCtxCreate m s
  | .ctxDestroy m => Sys2Proof.Machine.execCtxDestroy m s
  | .ringCreate m => Sys2Proof.Machine.execRingCreate m s
  | .ringDestroy m => Sys2Proof.Machine.execRingDestroy m s
  | .hwinSet m => Sys2Proof.Machine.execHwinSet m s
  | .hdmMap m => Sys2Proof.Machine.execHdmMap m s
  | .mwinSet m => Sys2Proof.Machine.execMwinSet m s
  | .ringState m => Sys2Proof.Machine.execRingState m s
  | .journalSet m => Sys2Proof.Machine.execJournalSet m s
  | .collCreate m => Sys2Proof.Machine.execCollCreate m s
  | .collDelete m => Sys2Proof.Machine.execCollDelete m s
  | .collSet m => Sys2Proof.Machine.execCollSet m s
  | .collStats m => Sys2Proof.Machine.execCollStats m s
  | .collTrain m reply => Sys2Proof.Machine.execCollTrain m reply s
  | .filterLoad m => Sys2Proof.Machine.execFilterLoad m s
  | .patternLoad m reply => Sys2Proof.Machine.execPatternLoad m reply s
  | .patternUnload m => Sys2Proof.Machine.execPatternUnload m s
  | .roundLoad m => Sys2Proof.Machine.execRoundLoad m s
  | .sharesSet m => Sys2Proof.Machine.execSharesSet m s
  | .regSet m => Sys2Proof.Machine.execRegSet m s
  | .crucPin m => Sys2Proof.Machine.execCrucPin m s
  | .ctxStats m => Sys2Proof.Machine.execCtxStats m s
  | .icernRouteSet m => Sys2Proof.Machine.execIcernRouteSet m s
  | .resetPtn m => Sys2Proof.Machine.execResetPtn m s
  | .resetChip m => Sys2Proof.Machine.execResetChip m s
  | .fwStageBegin m => Sys2Proof.Machine.execFwStageBegin m s
  | .fwStageData m reply => Sys2Proof.Machine.execFwStageData m reply s
  | .fwStageFinish m => Sys2Proof.Machine.execFwStageFinish m s
  | .fwStageAbort m => Sys2Proof.Machine.execFwStageAbort m s
  | .fwActivateTrial m => Sys2Proof.Machine.execFwActivateTrial m s
  | .fwActivateCommit m => Sys2Proof.Machine.execFwActivateCommit m s
  | .fwActivateRevert m => Sys2Proof.Machine.execFwActivateRevert m s
  | .fwActivateNextReset m => Sys2Proof.Machine.execFwActivateNextReset m s
  | .attest m => Sys2Proof.Machine.execAttest m s
  | .assayRun m bad => Sys2Proof.Machine.execAssayRun m bad s
  | .assayLog m => Sys2Proof.Machine.execAssayLog m s
  | .marginRun m errs => Sys2Proof.Machine.execMarginRun m errs s
  | .busyComplete t => Sys2Proof.Machine.execBusyComplete t s
  | .ticketDiscard t => Sys2Proof.Machine.execTicketDiscard t s
  | .mbxStuck m => Sys2Proof.Machine.execMbxStuck m s
  | .summaryExpire => Sys2Proof.Machine.execSummaryExpire s
  | .hearthWake => Sys2Proof.Machine.execHearthWake s
  | .hearthSleep => Sys2Proof.Machine.execHearthSleep s
  | .hearthRestartDone => Sys2Proof.Machine.execHearthRestartDone s
  | .trialTimeout => Sys2Proof.Machine.execTrialTimeout s
  | .hearthFault cause core => Sys2Proof.Machine.execHearthFault cause core s
  | .hearthRestartTimeout => Sys2Proof.Machine.execHearthRestartTimeout s
  -- anvils
  | .laneBind p a pattern lanes => Sys2Proof.Machine.execLaneBind p a pattern lanes s
  | .stepNop p a => Sys2Proof.Machine.execStepNop p a s
  | .branch p a => Sys2Proof.Machine.execBranch p a s
  | .loop p a => Sys2Proof.Machine.execLoop p a s
  | .setc p a => Sys2Proof.Machine.execSetc p a s
  | .setr p a => Sys2Proof.Machine.execSetr p a s
  | .next p a => Sys2Proof.Machine.execNext p a s
  | .wait p a => Sys2Proof.Machine.execWait p a s
  | .signal p a => Sys2Proof.Machine.execSignal p a s
  | .yield p a => Sys2Proof.Machine.execYield p a s
  | .endOp p a => Sys2Proof.Machine.execEndOp p a s
  | .fetchb p a => Sys2Proof.Machine.execFetchb p a s
  | .fetchw p r => Sys2Proof.Machine.execFetchw p r s
  | .store p a sp => Sys2Proof.Machine.execStore p a sp s
  | .atomic p a sp => Sys2Proof.Machine.execAtomic p a sp s
  | .mfence p a => Sys2Proof.Machine.execMfence p a s
  | .move p a sp => Sys2Proof.Machine.execMove p a sp s
  | .tileclr p a => Sys2Proof.Machine.execTileclr p a s
  | .dot p a sp => Sys2Proof.Machine.execDot p a sp s
  | .bound p a sp => Sys2Proof.Machine.execBound p a sp s
  | .score p a sp => Sys2Proof.Machine.execScore p a sp s
  | .bfma p a sp => Sys2Proof.Machine.execBfma p a sp s
  | .sgather p a sp => Sys2Proof.Machine.execSgather p a sp s
  | .sieve p a sp => Sys2Proof.Machine.execSieve p a sp s
  | .skip p a => Sys2Proof.Machine.execSkip p a s
  | .select p a sp => Sys2Proof.Machine.execSelect p a sp s
  | .selclr p a => Sys2Proof.Machine.execSelclr p a s
  | .emit p a => Sys2Proof.Machine.execEmit p a s
  | .fetchLand p a idx => Sys2Proof.Machine.execFetchLand p a idx s
  | .yieldOverrun p a => Sys2Proof.Machine.execYieldOverrun p a s
  -- atomics of the home crucible
  | .add32 p => Sys2Proof.Machine.execAdd32 p s
  | .add64 p => Sys2Proof.Machine.execAdd64 p s
  | .minu p => Sys2Proof.Machine.execMinu p s
  | .maxu p => Sys2Proof.Machine.execMaxu p s
  | .mins p => Sys2Proof.Machine.execMins p s
  | .maxs p => Sys2Proof.Machine.execMaxs p s
  | .andOp p => Sys2Proof.Machine.execAndOp p s
  | .orOp p => Sys2Proof.Machine.execOrOp p s
  | .xorOp p => Sys2Proof.Machine.execXorOp p s
  | .cas32 p => Sys2Proof.Machine.execCas32 p s
  | .cas64 p => Sys2Proof.Machine.execCas64 p s
  | .bitset p => Sys2Proof.Machine.execBitset p s
  | .bitclr p => Sys2Proof.Machine.execBitclr p s
  | .hinc p => Sys2Proof.Machine.execHinc p s
  | .semAcq p => Sys2Proof.Machine.execSemAcq p s
  | .semRel p => Sys2Proof.Machine.execSemRel p s
  -- memory system
  | .memoryRequest who ev => Sys2Proof.Machine.execMemoryRequest who ev s
  | .farQueueServe p => Sys2Proof.Machine.execFarQueueServe p s
  | .hbmReadComplete p line fixed bad => Sys2Proof.Machine.execHbmReadComplete p line fixed bad s
  | .wcbAgeFlush p ch bad => Sys2Proof.Machine.execWcbAgeFlush p ch bad s
  | .wcFence done => Sys2Proof.Machine.execWcFence done s
  | .scrubRead p ch fixed bad => Sys2Proof.Machine.execScrubRead p ch fixed bad s
  | .scrubBurst done => Sys2Proof.Machine.execScrubBurst done s
  | .regAdapt p obs => Sys2Proof.Machine.execRegAdapt p obs s
  | .stackTempSample p t => Sys2Proof.Machine.execStackTempSample p t s
  | .policyConflict p loopNo minimum => Sys2Proof.Machine.execPolicyConflict p loopNo minimum s
  | .hotCountHalve p => Sys2Proof.Machine.execHotCountHalve p s
  | .clipWindowClose p coll => Sys2Proof.Machine.execClipWindowClose p coll s
  -- collections: commits, epochs, journal, tamping, training
  | .batchCommit coll => Sys2Proof.Machine.execBatchCommit coll s
  | .epochClose coll => Sys2Proof.Machine.execEpochClose coll s
  | .horizonAdvance coll upTo => Sys2Proof.Machine.execHorizonAdvance coll upTo s
  | .settlingSweep coll brick => Sys2Proof.Machine.execSettlingSweep coll brick s
  | .journalAck c reply => Sys2Proof.Machine.execJournalAck c reply s
  | .journalSpaceTimeout c => Sys2Proof.Machine.execJournalSpaceTimeout c s
  | .journalAckTimeout c => Sys2Proof.Machine.execJournalAckTimeout c s
  | .releasedReread ctx => Sys2Proof.Machine.execReleasedReread ctx s
  | .releasedReadDone ctx reply => Sys2Proof.Machine.execReleasedReadDone ctx reply s
  | .releasedReadTimeout ctx => Sys2Proof.Machine.execReleasedReadTimeout ctx s
  | .tampCut coll lst => Sys2Proof.Machine.execTampCut coll lst s
  | .tampCopy coll lst => Sys2Proof.Machine.execTampCopy coll lst s
  | .tampCommit coll lst => Sys2Proof.Machine.execTampCommit coll lst s
  | .tampRetire coll lst => Sys2Proof.Machine.execTampRetire coll lst s
  | .trainChunk coll => Sys2Proof.Machine.execTrainChunk coll s
  | .strataCommit coll => Sys2Proof.Machine.execStrataCommit coll s
  | .redistributeChunk coll p => Sys2Proof.Machine.execRedistributeChunk coll p s
  | .redistributeDone coll => Sys2Proof.Machine.execRedistributeDone coll s
  | .looseFree coll => Sys2Proof.Machine.execLooseFree coll s
  | .assignChunk done => Sys2Proof.Machine.execAssignChunk done s
  -- search execution
  | .descentEnd c row => Sys2Proof.Machine.execDescentEnd c row s
  | .listIssue p c row => Sys2Proof.Machine.execListIssue p c row s
  | .pieceIssue p c row term => Sys2Proof.Machine.execPieceIssue p c row term s
  | .probeStop c => Sys2Proof.Machine.execProbeStop c s
  | .deadlineEnd c => Sys2Proof.Machine.execDeadlineEnd c s
  | .refineStart p c row => Sys2Proof.Machine.execRefineStart p c row s
  | .hybridFusion p c row => Sys2Proof.Machine.execHybridFusion p c row s
  | .foldMerge node c row => Sys2Proof.Machine.execFoldMerge node c row s
  | .finalSelection c row => Sys2Proof.Machine.execFinalSelection c row s
  | .farRerankStart c => Sys2Proof.Machine.execFarRerankStart c s
  | .farRowArrive c row idx reply => Sys2Proof.Machine.execFarRowArrive c row idx reply s
  -- scheduling
  | .roundSlotAdvance p => Sys2Proof.Machine.execRoundSlotAdvance p s
  | .anvilFree p a => Sys2Proof.Machine.execAnvilFree p a s
  | .anvilTake p r => Sys2Proof.Machine.execAnvilTake p r s
  | .preemptSaveDone p a => Sys2Proof.Machine.execPreemptSaveDone p a s
  | .killPreempt p ctx => Sys2Proof.Machine.execKillPreempt p ctx s
  | .residentIdleTimeout p ctx => Sys2Proof.Machine.execResidentIdleTimeout p ctx s
  | .residentBlockedTimeout p ctx => Sys2Proof.Machine.execResidentBlockedTimeout p ctx s
  | .swapWaitTimeout p ctx => Sys2Proof.Machine.execSwapWaitTimeout p ctx s
  | .swapStart p => Sys2Proof.Machine.execSwapStart p s
  | .swapPhaseEnd p => Sys2Proof.Machine.execSwapPhaseEnd p s
  | .semOverhold p ctx => Sys2Proof.Machine.execSemOverhold p ctx s
  | .senior w => Sys2Proof.Machine.execSenior w s
  -- faults, fences and resets
  | .engineWatchdog unit p => Sys2Proof.Machine.execEngineWatchdog unit p s
  | .commandWatchdog c => Sys2Proof.Machine.execCommandWatchdog c s
  | .killDone ctx unit p => Sys2Proof.Machine.execKillDone ctx unit p s
  | .fenceStart p => Sys2Proof.Machine.execFenceStart p s
  | .drainWindowEnd p => Sys2Proof.Machine.execDrainWindowEnd p s
  | .engineResetDone unit p => Sys2Proof.Machine.execEngineResetDone unit p s
  | .partitionResetDone p => Sys2Proof.Machine.execPartitionResetDone p s
  | .chipResetDone => Sys2Proof.Machine.execChipResetDone s
  | .levelOverrun level => Sys2Proof.Machine.execLevelOverrun level s
  | .seamFault cause dir => Sys2Proof.Machine.execSeamFault cause dir s
  | .ctrl p ch => Sys2Proof.Machine.execCtrl p ch s
  | .windowExpire w => Sys2Proof.Machine.execWindowExpire w s
  | .zeroiseDone scope => Sys2Proof.Machine.execZeroiseDone scope s
  -- power states, power and temperature
  | .warmIdleTimeout p => Sys2Proof.Machine.execWarmIdleTimeout p s
  | .bankedIdleTimeout p => Sys2Proof.Machine.execBankedIdleTimeout p s
  | .bankedEntryDone p => Sys2Proof.Machine.execBankedEntryDone p s
  | .exitDemand p => Sys2Proof.Machine.execExitDemand p s
  | .exitDone p failed => Sys2Proof.Machine.execExitDone p failed s
  | .pllLockLoss p => Sys2Proof.Machine.execPllLockLoss p s
  | .powerTick10us watts => Sys2Proof.Machine.execPowerTick10us watts s
  | .powerTick100us => Sys2Proof.Machine.execPowerTick100us s
  | .powerTick1ms => Sys2Proof.Machine.execPowerTick1ms s
  | .dieTempSample d t => Sys2Proof.Machine.execDieTempSample d t s
  | .dieDepthTick d => Sys2Proof.Machine.execDieDepthTick d s
  | .thermtrip d => Sys2Proof.Machine.execThermtrip d s
  | .coolantSample inlet outlet => Sys2Proof.Machine.execCoolantSample inlet outlet s
  | .leak => Sys2Proof.Machine.execLeak s
  | .supply => Sys2Proof.Machine.execSupply s
  | .auxSupplyUp => Sys2Proof.Machine.execAuxSupplyUp s
  | .auxSupplyLoss => Sys2Proof.Machine.execAuxSupplyLoss s
  | .pwrEnAssert => Sys2Proof.Machine.execPwrEnAssert s
  | .pwrEnDeassert => Sys2Proof.Machine.execPwrEnDeassert s
  | .pwrgd => Sys2Proof.Machine.execPwrgd s
  | .bootComplete => Sys2Proof.Machine.execBootComplete s
  -- tray controller and security
  | .getstatus => Sys2Proof.Machine.execGetstatus s
  | .setdasa addr => Sys2Proof.Machine.execSetdasa addr s
  | .entdaa addr => Sys2Proof.Machine.execEntdaa addr s
  | .pldmPlimWrite watts => Sys2Proof.Machine.execPldmPlimWrite watts s
  | .pldmSensorRead sensor => Sys2Proof.Machine.execPldmSensorRead sensor s
  | .pldmFwUpdate image => Sys2Proof.Machine.execPldmFwUpdate image s
  | .spdmMessage t kind msg => Sys2Proof.Machine.execSpdmMessage t kind msg s
  -- Icern
  | .portTrainStepDone n lanes => Sys2Proof.Machine.execPortTrainStepDone n lanes s
  | .portStepTimeout n => Sys2Proof.Machine.execPortStepTimeout n s
  | .portRestart n => Sys2Proof.Machine.execPortRestart n s
  | .heartbeatTimer n => Sys2Proof.Machine.execHeartbeatTimer n s
  | .heartbeatLoss n => Sys2Proof.Machine.execHeartbeatLoss n s
  | .alignmentLoss n => Sys2Proof.Machine.execAlignmentLoss n s
  | .flitData n f => Sys2Proof.Machine.execFlitData n f s
  | .flitNull n f => Sys2Proof.Machine.execFlitNull n f s
  | .flitReplay n f => Sys2Proof.Machine.execFlitReplay n f s
  | .flitInit n peer expected credits => Sys2Proof.Machine.execFlitInit n peer expected credits s
  | .queryFwd src => Sys2Proof.Machine.execQueryFwd src s
  | .partialList src => Sys2Proof.Machine.execPartialList src s
  | .insertFwdPrepare src => Sys2Proof.Machine.execInsertFwdPrepare src s
  | .insertFwdCommit src => Sys2Proof.Machine.execInsertFwdCommit src s
  | .insertFwdWithdraw src => Sys2Proof.Machine.execInsertFwdWithdraw src s
  | .insertFwdResponse src => Sys2Proof.Machine.execInsertFwdResponse src s
  | .bulkData src => Sys2Proof.Machine.execBulkData src s
  | .fenceNotice src => Sys2Proof.Machine.execFenceNotice src s
  | .abort src => Sys2Proof.Machine.execAbort src s
  | .heartbeat src => Sys2Proof.Machine.execHeartbeat src s
  | .routeProbe src => Sys2Proof.Machine.execRouteProbe src s
  | .routeProbeReply src => Sys2Proof.Machine.execRouteProbeReply src s
  | .routeProbeTimer job => Sys2Proof.Machine.execRouteProbeTimer job s
  | .probeTimeout job peer => Sys2Proof.Machine.execProbeTimeout job peer s
  | .rootRouteLoss job => Sys2Proof.Machine.execRootRouteLoss job s
  -- JTAG and the rest
  | .extest => Sys2Proof.Machine.execExtest s
  | .idcode => Sys2Proof.Machine.execIdcode s
  | .samplePreload pins => Sys2Proof.Machine.execSamplePreload pins s
  | .extestPulse => Sys2Proof.Machine.execExtestPulse s
  | .extestTrain => Sys2Proof.Machine.execExtestTrain s
  | .clamp => Sys2Proof.Machine.execClamp s
  | .highz => Sys2Proof.Machine.execHighz s
  | .bypass code => Sys2Proof.Machine.execBypass code s
  | .trstAssert => Sys2Proof.Machine.execTrstAssert s
  | .cxlCacheSnoop addr => Sys2Proof.Machine.execCxlCacheSnoop addr s
  | .flitCrcError n fec => Sys2Proof.Machine.execFlitCrcError n fec s
  | .hotSwapOvercurrent => Sys2Proof.Machine.execHotSwapOvercurrent s

end Sys2Proof.Machine
end

