-- ==== Sys2Proof/Machine/Tick.lean ====
section
/-! DEFINITION. The tick of the always-on clock, 6.25 MHz (R11, R388): what happens while no command waits. The timers that have a
command of their own are not driven from here (log 12). -/

namespace Sys2Proof.Machine

/-- The anvil clock of a partition runs in FORGE and WARM (R389). -/
def pllRuns (x : Ptn) : Bool := x.power = .forge || x.power = .warm

/-! ### Token buckets (R16, R199, R202) -/

/-- A rate in lines per µs for 160 ns, in 25ths of a line, up to the depth of 256 lines. -/
def refill (rate : Nat) (tok : Int) : Int := min 6400 (tok + 4 * rate)

/-- The Seam buckets, 93,750 lines per µs and 512 lines deep. -/
def refillSeam (tok : Int) : Int := min 12800 (tok + 4 * 93750)

/-- A partition over 160 ns: 288 anvil cycles of 1.8 GHz (R388, R389), its buckets refilled. -/
def tickPtn (x : Ptn) : Ptn :=
  { x with cycles := if pllRuns x then x.cycles + 288 else x.cycles
           reg := { x.reg with issTok := refill x.reg.iss x.reg.issTok, rcvTok := refill x.reg.rcvEff x.reg.rcvTok } }

/-! ### Availability (R365, R366) -/

/-- A partition that counts: fenced, resetting or OUT_OF_SERVICE, but not at the wish of software nor, by heat, with the coolant outside
its limits. -/
def countsDown (s : State) (p : Nat) : Bool :=
  let x := ptn s p
  if x.service == .oos then !s.aon.ptnOosSoft.contains p
  else isFenced x && (match x.fence with
    | some f => !f.soft && !(f.thermal && s.power.coolOol)
    | none => true)

/-- u, in twelfths. -/
def unavailNow (s : State) : Nat :=
  if (s.levels.any fun l => (l.level == .l3 || l.level == .l4) && !l.soft) || s.aon.oos || s.host.link.lost || s.host.link.deg then 12
  else ((upto 12).filter (countsDown s)).length

/-- The integral of u over one tick, and the count of its rises from 0. -/
def countAvail (s : State) : State :=
  let u := unavailNow s
  updAon (fun a => { a with
    unavail := a.unavail + u, unavailOn := decide (u > 0), events := if u > 0 && !a.unavailOn then a.events + 1 else a.events }) s

/-- The wait of a command under R254, in cycles of its home's counter, is no service time (R256). -/
def tickCmd (s : State) (c : Nat) (x : Cmd) : Cmd :=
  if x.admitted && blockedCmd s c x && pllRuns (ptn s x.home) then { x with hostCyc := x.hostCyc + 288 } else x

/-- A REPLAY that its 2 µs held back leaves once they have passed (R329). -/
def dueReplays (s : State) : State :=
  (upto 4).foldl (fun s n => if (port s n).replayDue && beating (port s n) then sendReplay n s else s) s

/-- One always-on tick of 160 ns, while the auxiliary supply is up (R409; log 12). -/
def tick (s : State) : State :=
  if s.pins.aux then
    let s := pruneLists <| dueReplays (countAvail (updAon (fun a => { a with ticks := a.ticks + 1 }) s))
    { s with ptns := tmap (fun _ x => tickPtn x) s.ptns, cmds := tmap (fun c x => tickCmd s c x) s.cmds
             seamTok := (refillSeam s.seamTok.1, refillSeam s.seamTok.2) }
  else s

end Sys2Proof.Machine
end

