-- ==== Sys2Proof/Safety.lean ====
section
/-! DEFINITION. What every state of a run satisfies, and what a safe step is: statements and proofs use these names. -/

namespace Sys2Proof.Machine

/-- The TAP: an instruction of R430 is loaded; the pins are taken exactly while it is one that drives them (R432); the boundary register
is empty or holds its 71 cells (R431). -/
def tapOk (j : Jtag) : Bool :=
  (decide (j.instr.toNat ≤ 6) || j.instr == 0xFF) && (j.functional != drives j.instr.toNat) &&
    (j.boundary.length == 0 || j.boundary.length == 71)

/-- The memory of the stacks is in its canonical form (log 4). -/
def hbmOk (s : State) : Bool := Memory.wf s.hbm

/-- What every step keeps. -/
def State.inv (s : State) : Bool := hbmOk s && tapOk s.jtag

/-- A step is safe where it answers a next state. -/
def answersNext (o : Host.Outcome State Fault Refusal) : Bool :=
  match o with
  | .next _ => true
  | .fault _ => false
  | .refused _ => false

/-- The parts of the state, the queue apart. -/
inductive Part where
  | aon | pins | host | ptns | jobs | ctxs | colls | cmds | nextCmd | hearth | hearthUp | faults | levels | seamTok | icern | power | jtag | hbm | poison | free
  deriving DecidableEq, Repr

/-- A part of the state is the same in s and t. -/
def unchanged (p : Part) (s t : State) : Prop :=
  match p with
  | .aon => t.aon = s.aon
  | .pins => t.pins = s.pins
  | .host => t.host = s.host
  | .ptns => t.ptns = s.ptns
  | .jobs => t.jobs = s.jobs
  | .ctxs => t.ctxs = s.ctxs
  | .colls => t.colls = s.colls
  | .cmds => t.cmds = s.cmds
  | .nextCmd => t.nextCmd = s.nextCmd
  | .hearth => t.hearth = s.hearth
  | .hearthUp => t.hearthUp = s.hearthUp
  | .faults => t.faults = s.faults
  | .levels => t.levels = s.levels
  | .seamTok => t.seamTok = s.seamTok
  | .icern => t.icern = s.icern
  | .power => t.power = s.power
  | .jtag => t.jtag = s.jtag
  | .hbm => t.hbm = s.hbm
  | .poison => t.poison = s.poison
  | .free => t.free = s.free

/-- Entry e, at the head of ring r with `rest` behind it, is admitted now: it is its turn, it carries the opcode, its checks pass, it can ever
fit, and u is the state with all it needs reserved (R271, R293, R294). -/
structure Admits (s : State) (r op : Nat) (check : Option Refused) (e : BitVec 512) (rest : List (BitVec 512)) (u : State) : Prop where
  head : (ring s r).fetched = e :: rest
  turn : mayAdmit s r e = true
  opcode : opOf e = op
  checked : check = none
  fits : neverFits s r e = false
  reserved : reserve r e s = (u, true)

/-- The amounts that a search takes once the terms of its rows are known: a SEARCH_HYBRID on its ring all but those of the row folds, or what it still
lacks of them (R293, R294; log 19). -/
def sparseHolds (s : State) (x : Cmd) (rows : List (List F32 × List (Nat × Bf16))) : List Hold :=
  if x.opcode ≠ 0x11 ∨ x.origin.isSome then []
  else if x.lacking.isEmpty then hybridHolds s x (rows.foldl (fun n r => n + r.2.length) 0) else x.lacking
/-- Every one of them can be had now (R294–R296). -/
def sparseRoom (s : State) (c : Nat) (x : Cmd) (rows : List (List F32 × List (Nat × Bf16))) : Bool :=
  (takeLacking c (sparseHolds s x rows) (updCmd c (fun x => { x with lacking := sparseHolds s x rows }) s)).2
/-- The state with a staged payload moved to its command's home (R281). -/
def stagedMoved (s : State) (x : Cmd) : State :=
  match x.granules with
  | some g => engineMove (some x.home) (some x.ctx) g.ptn (ceilDiv (stagedSize s x.entry) 64) s
  | none => s

/-- The ring, the opcode and the checks of a row that takes up the head entry of a ring (R276). -/
def ringRow : Instr → Option (Nat × Nat × (State → Nat → BitVec 512 → Option Refused))
  | .nop r => some (r, 0x00, plainCheck)
  | .fence r => some (r, 0x01, plainCheck)
  | .search r far => some (r, 0x10, fun s r e => searchCheck s r far e)
  | .searchHybrid r far => some (r, 0x11, fun s r e => searchCheck s r far e)
  | .searchExact r far => some (r, 0x12, fun s r e => searchCheck s r far e)
  | .insert r => some (r, 0x20, ingestCheck)
  | .upsert r => some (r, 0x21, ingestCheck)
  | .delete r => some (r, 0x22, ingestCheck)
  | .flush r => some (r, 0x28, flushCheck)
  | .epochQuery r => some (r, 0x30, queryCheck)
  | .bulkLoad r => some (r, 0x40, bulkCheck)
  | .exportColl r => some (r, 0x41, exportCheck)
  | _ => none

/-- The mailbox and the opcode of a row that runs the request of its opcode whatever its form (R315). -/
def mailboxRow : Instr → Option (Fin 4 × Nat)
  | .summary m => some (m, 0x0001)
  | .identify m => some (m, 0x0002)
  | .eventLog m => some (m, 0x0003)
  | .clockCorr m => some (m, 0x0004)
  | .ptnEnable m => some (m, 0x0101)
  | .ptnPower m => some (m, 0x0102)
  | .jobCreate m => some (m, 0x0110)
  | .jobEnd m => some (m, 0x0111)
  | .ctxCreate m => some (m, 0x0112)
  | .ctxDestroy m => some (m, 0x0113)
  | .ringCreate m => some (m, 0x0114)
  | .ringDestroy m => some (m, 0x0115)
  | .hwinSet m => some (m, 0x0116)
  | .hdmMap m => some (m, 0x0117)
  | .mwinSet m => some (m, 0x0118)
  | .ringState m => some (m, 0x0119)
  | .journalSet m => some (m, 0x0120)
  | .collCreate m => some (m, 0x0201)
  | .collDelete m => some (m, 0x0202)
  | .collSet m => some (m, 0x0203)
  | .collStats m => some (m, 0x0204)
  | .collTrain m _ => some (m, 0x0210)
  | .filterLoad m => some (m, 0x0220)
  | .patternLoad m _ => some (m, 0x0301)
  | .patternUnload m => some (m, 0x0302)
  | .roundLoad m => some (m, 0x0401)
  | .sharesSet m => some (m, 0x0410)
  | .regSet m => some (m, 0x0411)
  | .crucPin m => some (m, 0x0412)
  | .ctxStats m => some (m, 0x0420)
  | .icernRouteSet m => some (m, 0x0501)
  | .resetPtn m => some (m, 0x0601)
  | .attest m => some (m, 0x0710)
  | .assayRun m _ => some (m, 0x0801)
  | .assayLog m => some (m, 0x0802)
  | .marginRun m _ => some (m, 0x0810)
  | _ => none

/-! ### Anvil steps -/

/-- An anvil meets a step of an op, and the step's condition holds (R54–R58). -/
def meets (s : State) (p a op : Nat) (w : W128) : Bool := stepWordAt s p a op == some w && stepCondition s p a w

/-- No fetch into a local range is outstanding and none of its granules is poisoned (R59, R76). -/
def readsClear (a : Anvil) (rs : List (Nat × Nat)) : Bool := rs.all fun r => !fetching a r.1 r.2 && !padPoisoned a r.1 r.2

/-- No fetch into a local range is outstanding (R59). -/
def readsLanded (a : Anvil) (rs : List (Nat × Nat)) : Bool := rs.all fun r => !fetching a r.1 r.2

/-- Where a step's target lies: in its pattern, and taken within it where its steps are not listed (R56; log 5). -/
def targetOf (s : State) (a : Anvil) (w : W128) : Nat := a.base + if listed a then stTarget w else stTarget w % anvSteps s a

/-- The address of an element of an ATOMIC step: offset, operand, second operand, place; HINC counts in a histogram (R65, R214). -/
def atomTarget (m : MWin) (w : W128) (e : Nat × Nat × Nat × Nat) : Nat :=
  atomBase m e.1 + (if bits (stParam w) 23 16 = 0x0E then 4 * e.2.1 else 0)
/-- An element that its window and the rules of its code allow (R65, R75, R214). -/
def atomOk (m : MWin) (w : W128) (e : Nat × Nat × Nat × Nat) : Bool :=
  !atomOperandBad (bits (stParam w) 23 16) e.2.1 && atomTarget m w e % atomWidth (bits (stParam w) 23 16) == 0 &&
  inMWin m (atomTarget m w e) (atomWidth (bits (stParam w) 23 16)) && inMWin m (atomBase m e.1) (atomWidth (bits (stParam w) 23 16))

/-- An ATOMIC step that its code, its window and every element allow (R65, R214). -/
def atomsOk (s : State) (a : Anvil) (w : W128) : Bool :=
  match stepWindow s a w (·.a), atomPairs (bits (stParam w) 23 16) ((upto (stCount w)).map fun j => (padNat a (stA w + 16 * j) 8, padNat a (stA w + 16 * j + 8) 8, j)) with
  | some m, some es => atomicDefined (bits (stParam w) 23 16) && es.all (atomOk m w)
  | _, _ => false

/-- The compute steps of an anvil: opcode, command, and the local ranges that the step reads (R56, R76). -/
def computeOps (s : State) (p : Fin 12) (a : Fin 864) (sp : SpRead) : List (Nat × Instr × (Anvil → W128 → List (Nat × Nat))) :=
  let h := anvHeader s (anvil s p a)
  [(0x15, .move p a sp, fun _ w => [(stA w, 16 * stCount w)]), (0x21, .dot p a sp, dotReads h), (0x22, .bound p a sp, boundReads h),
   (0x23, .score p a sp, scoreReads h), (0x24, .bfma p a sp, bfmaReads), (0x25, .sgather p a sp, sgatherReads),
   (0x30, .sieve p a sp, sieveReads), (0x32, .select p a sp, selectReads)]
/-- The memory steps that read local ranges whatever their fields (R65). -/
def memoryOps (p : Fin 12) (a : Fin 864) (sp : SpRead) : List (Nat × Instr × (Anvil → W128 → List (Nat × Nat))) :=
  [(0x12, .store p a sp, fun _ w => (stB w, 64 * stCount w) :: addrRead w), (0x13, .atomic p a sp, fun _ w => [(stA w, 16 * stCount w)])]

/-- An anvil whose step of n cycles has ended (R55, R61). -/
def stepped (n : Nat) (a : Anvil) : Anvil := { a with step := a.step + 1, st := .running, cyc := a.cyc + n }

/-- An anvil whose step has branched to a place of its pattern (R56, R63). -/
def branched (t : Nat) (a : Anvil) : Anvil := { a with step := t, st := .running, cyc := a.cyc + 2 }

/-- An anvil whose step has read scratchpad: a corrected error is counted (R76). -/
def counted (sp : SpRead) (a : Anvil) : Anvil := { a with ceCnt := if sp = .corrected then satInc a.ceCnt else a.ceCnt }

/-! ### Memory -/

/-- A request of an engine or of a unit on West (R197). -/
def fromUnit : Requester → Bool
  | .anvil _ _ _ => false
  | .engine _ _ _ => true
  | .west _ _ => true

/-- A request for n bytes at an address from a unit on West has a place, nothing that waits before it, and its tokens (R16, R199). -/
def westGoes (s : State) (a n : Nat) : Bool :=
  let x := ptn s (homePtn a)
  let u := tokens (lineCount a n)
  decide (farLines x + lineCount a n ≤ 1024) && x.farQ.isEmpty && seamHas none (homePtn a) u s && decide (u ≤ x.reg.rcvTok)

/-! ### Atomics -/

/-- The sixteen atomics of a home bank, with their codes (R214). -/
def atomRows (p : Fin 12) : List (Nat × Instr) :=
  [(0x01, .add32 p), (0x02, .add64 p), (0x03, .minu p), (0x04, .maxu p), (0x05, .mins p), (0x06, .maxs p), (0x07, .andOp p), (0x08, .orOp p),
   (0x09, .xorOp p), (0x0A, .cas32 p), (0x0B, .cas64 p), (0x0C, .bitset p), (0x0D, .bitclr p), (0x0E, .hinc p), (0x10, .semAcq p), (0x11, .semRel p)]

/-- The front element of a home bank is of a code, its clock runs, no earlier request of its anvil to its line is before it, its context owns the
partition and its target reads unpoisoned (R198, R213, R214, R383). -/
def atomReady (s : State) (p code : Nat) (r : AtomReq) (rest : List AtomReq) : Bool :=
  (ptn s p).atomQ == r :: rest && r.code == code && anvilClock (ptn s p) && !atomBehind s r && ownsHome s r.ctx p && !wordPoisoned s r.addr
/-- The value of the target of an atomic. -/
def atomOld (s : State) (r : AtomReq) : Nat := leNat (memBytes s r.addr (atomWidth r.code))
/-- A byte of device memory after a value is written to n bytes from an address on, or nothing is. -/
def afterWrite (s : State) (a n : Nat) (w : Option Nat) (j : Nat) : Byte :=
  match w with
  | some v => if a ≤ j ∧ j < a + n then (leBytes n v).getD (j - a) 0 else memByte s j
  | none => memByte s j
/-- An element that a step of the partition's own anvils has outstanding at a place, with where its old value goes (R65). -/
def atomOutst (s : State) (p i k d : Nat) (r : AtomReq) : Bool :=
  r.from_ == some (p, i) && r.ret == some (p, i, d) && (anvil s p i).outst.findIdx? (fun o => o.isAtom && o.addr == r.addr && o.dest == d) == some k

/-- The posted writes that bytes for a host buffer go out in, of at most 16 KB each. -/
def pieces (addr : Nat) (bs : List Byte) : List HostWrite :=
  ((chunksOf 16384 bs.length bs).zipIdx).map fun b => { kind := .data, addr := BitVec.ofNat 64 (addr + 16384 * b.2), bytes := b.1 }

/-- A Hearth fault came in the ten minutes before (R360). -/
def secondFault (s : State) : Bool :=
  match s.hearth.lastFault with
  | some t => decide (s.aon.ticks.toNat < t + tenMinutes)
  | none => false

/-- Mailbox m's request q, of opcode op, is executed now and passes the checks that come before its own (R309, R311, R314, R352, R363). -/
def served (m op : Nat) (q : Req) (s : State) : Bool :=
  (mbx s m).req == some q && (mbx s m).state == 2 && executes s m && !waitsMailbox s m q && knownOpcode op && q.opcode == op &&
  !(s.hearth.recovery && !romAccepts op) && !heldBehind s q (mbx s m).order && !q.rsv && decide (q.len ≤ 4096) &&
  !(outOfService s && !([0, 6, 7].contains (op / 256))) && (actsOnOos op || !anyOos s (reqNeeds s q)) && (actsOnFenced op || !anyFenced s (reqNeeds s q))

/-- Mailbox m holds the response r to the request q: STATE 3, its tag, status, header and payload (R309). -/
structure Answered (t : State) (m : Nat) (q : Req) (r : Rsp) : Prop where
  state : (mbx t m).state = 3
  req : (mbx t m).req = none
  tag : (mbx t m).tag = q.tag
  status : (mbx t m).status = r.status.code
  header : (mbx t m).rspHeader =
    leBytes 2 q.opcode ++ leBytes 2 r.bytes.length ++ leBytes 4 q.tag.toNat ++ [r.status.code, 0] ++ leBytes 2 r.ticket ++ leBytes 4 r.detail
  payload : ∀ i, i < r.bytes.length → mread (mbx t m).payload i = r.bytes.getD i 0

/-- The request q of mailbox m was answered BUSY, and the ticket that the answer names holds its work (R310). -/
structure Ticketed (s t : State) (m : Nat) (q : Req) (w : Work) : Prop where
  ticket : ∃ k, Answered t m q { status := .busy, ticket := k } ∧
    tget t.hearth.tickets k = some { mbx := m, req := q, work := w, order := (mbx s m).order }

/-- What a BUSY command waits for has not come (R310). -/
def ticketWaits (s : State) (k : Ticket) : Bool :=
  match k.work with
  | .jobCreate _ left failed => !failed && !left.isEmpty
  | .jobEnd j => !jobQuiet s j
  | .ringDestroy r => !(ringLive s r).isEmpty
  | .ringDisable r => !(ringLive s r).isEmpty
  | .collDelete c => (coll s c).state != .free && !(collCmds s c).isEmpty
  | .train c _ => (coll s c).state == .training || (coll s c).state == .untrained ||
      (((coll s c).state == .redistributing || (coll s c).state == .trained) && !epochLe (coll s c).trainEp (coll s c).latest)
  | .reset p => (ptn s p).fence.isSome
  | .held _ _ => stillHeld s k
  | .heldTest _ _ _ => stillHeld s k
  | .test ps _ _ => !ps.all fun p => (ptn s p).power == .forge
  | .raise _ => false
  | .ready _ _ _ => false

/-- What an L3 leaves: the data plane, the contexts and the memory at their reset values, but that a partition which was OUT_OF_SERVICE stays so;
of the Icern ports only what they have put on the wire; the Hearth down, L3 running (R357, R358). -/
structure ChipReset (t : State) : Prop where
  ptns : ∀ p, ptn t p = if t.aon.ptnOos.contains p then { service := .oos } else {}
  jobs : t.jobs = []
  ctxs : t.ctxs = []
  colls : t.colls = []
  cmds : t.cmds = []
  host : t.host = { link := { byReset := true } }
  hbm : t.hbm = []
  hearth : t.hearth = {}
  hearthUp : t.hearthUp = false
  icern : t.icern = { ports := t.icern.ports }
  ports : ∀ n, port t n = { line := (port t n).line }
  power : t.power = {}
  levels : ∃ b, t.levels = [{ level := .l3, last := b }]
  pwrgd : t.pins.pwrgd = false

/-- The parts of the state that a command may change, the queue apart. -/
def mayChange : Instr → List Part
  | .sqDoorbell _ _ | .cqDoorbell _ _ | .evtPendClear _ _ | .summary _ | .identify _ | .eventLog _ | .clockCorr _ | .resultGet _
  | .ringCreate _ | .ringDestroy _ | .ringState _ | .collStats _ | .ctxStats _ | .assayLog _ => [.host, .hearth]
  | .payloadDoorbell _ _ => [.host, .cmds, .hearth]
  | .evtMaskWrite _ | .msixUnmask _ | .ctimeExpiry _ | .linkRetrainTimer | .d0Entry | .aspmL1Entry | .aspmL1Exit | .cxlEnable _ _ _
  | .unsupportedRequest _ | .pldmSensorRead _ | .cxlCacheSnoop _ => [.host]
  | .registerWrite _ _ _ _ | .linkDown | .d3hotEntry | .setr _ _ | .fetchb _ _ | .fetchw _ _ | .store _ _ _ | .atomic _ _ _
  | .yieldOverrun _ _ | .wcFence _ | .semOverhold _ _ | .commandWatchdog _ | .chipResetDone
    => [.aon, .host, .ptns, .ctxs, .colls, .cmds, .hearth, .faults, .levels, .icern, .hbm, .poison, .free]
  | .entryFetch _ _ | .fwStageData _ _ => [.aon, .host, .hearth, .faults]
  | .nop _ | .fence _ | .search _ _ | .searchHybrid _ _ | .searchExact _ _ | .epochQuery _
    => [.aon, .host, .ptns, .cmds, .nextCmd, .hearth, .faults]
  | .insert _ | .upsert _ | .delete _ | .bulkLoad _ => [.aon, .host, .ptns, .colls, .cmds, .nextCmd, .hearth, .faults]
  | .flush _ => [.aon, .host, .ptns, .ctxs, .colls, .cmds, .nextCmd, .hearth, .faults, .levels]
  | .exportColl _ | .bulkData _ => [.aon, .host, .ptns, .ctxs, .colls, .cmds, .nextCmd, .hearth, .faults, .icern]
  | .trdyTimeout _ | .dmaTimeout _ | .journalSpaceTimeout _ | .releasedReadDone _ _ | .releasedReadTimeout _ | .trainChunk _
  | .anvilFree _ _ | .drainWindowEnd _ | .portTrainStepDone _ _ | .portStepTimeout _ | .heartbeatLoss _ | .alignmentLoss _
  | .flitReplay _ _ | .flitInit _ _ _ _ | .insertFwdWithdraw _ | .insertFwdResponse _ | .fenceNotice _
    => [.aon, .host, .ptns, .ctxs, .colls, .cmds, .hearth, .faults, .icern]
  | .stagedPayloadRead _ => [.aon, .host, .ptns, .ctxs, .colls, .cmds, .hearth, .faults, .seamTok, .icern, .free]
  | .stagingReuse _ | .senior _ => [.host, .cmds]
  | .dmaReadComplete _ _ | .yield _ _ | .move _ _ _ | .dot _ _ _ | .bound _ _ _ | .score _ _ _ | .bfma _ _ _ | .sgather _ _ _
  | .sieve _ _ _ | .select _ _ _ | .farRowArrive _ _ _ _ | .anvilTake _ _ | .killPreempt _ _ | .abort _
    => [.aon, .host, .ptns, .ctxs, .colls, .cmds, .hearth, .faults, .icern, .free]
  | .completionWrite _ _ => [.aon, .host, .ctxs, .colls, .cmds, .hearth, .faults, .levels, .icern, .free]
  | .hostWriteAccept => [.host, .ctxs, .cmds, .levels]
  | .linkTrained _ _ _ | .portRestart _ => [.aon, .host, .ptns, .ctxs, .colls, .cmds, .hearth, .faults, .icern, .hbm, .poison, .free]
  | .perstAssert => [.aon, .pins, .host, .ptns, .ctxs, .colls, .cmds, .hearth, .faults, .levels, .icern, .hbm, .poison, .free]
  | .perstDeassert | .pwrEnAssert => [.pins]
  | .cxlMemAccess _ _ => [.aon, .host, .ptns, .hearth, .faults, .seamTok, .hbm, .poison, .free]
  | .ptnEnable _ => [.aon, .host, .ptns, .hearth, .hbm, .poison]
  | .ptnPower _ | .jobCreate _ | .hdmMap _ | .roundLoad _ | .regSet _ | .policyConflict _ _ _ | .warmIdleTimeout _ => [.host, .ptns, .hearth]
  | .jobEnd _ => [.aon, .host, .ptns, .jobs, .ctxs, .colls, .cmds, .hearth, .faults, .levels, .icern, .hbm, .poison, .free]
  | .ctxCreate _ | .hwinSet _ | .journalSet _ | .filterLoad _ | .patternUnload _ | .sharesSet _ => [.host, .ctxs, .hearth]
  | .ctxDestroy _ => [.host, .ptns, .ctxs, .cmds, .hearth]
  | .mwinSet _ => [.host, .ptns, .ctxs, .hearth]
  | .collCreate _ | .collDelete _ | .collSet _ | .crucPin _ => [.host, .ptns, .colls, .hearth]
  | .collTrain _ _ => [.aon, .host, .ptns, .colls, .hearth, .faults, .free]
  | .patternLoad _ _ => [.aon, .host, .ptns, .jobs, .ctxs, .hearth, .faults]
  | .icernRouteSet _ => [.aon, .host, .cmds, .hearth, .faults, .icern]
  | .resetPtn _ => [.aon, .host, .ptns, .hearth, .levels]
  | .resetChip _ | .mbxStuck _ | .hearthFault _ _ | .hearthRestartTimeout | .levelOverrun _ | .seamFault _ _ | .thermtrip _ | .leak
  | .pwrEnDeassert | .hotSwapOvercurrent
    => [.aon, .pins, .host, .ptns, .jobs, .ctxs, .colls, .cmds, .nextCmd, .hearth, .hearthUp, .faults, .levels, .seamTok, .icern, .power, .hbm, .poison, .free]
  | .fwStageBegin _ | .fwStageFinish _ | .fwStageAbort _ | .fwActivateCommit _ | .fwActivateNextReset _ | .pldmFwUpdate _
    => [.aon, .host, .hearth]
  | .fwActivateTrial _ | .fwActivateRevert _ => [.aon, .host, .hearth, .hearthUp]
  | .attest _ | .spdmMessage _ _ _ => [.host, .hearth, .free]
  | .assayRun _ _ => [.host, .ptns, .hearth, .hbm, .poison, .free]
  | .marginRun _ _ => [.host, .ptns, .hearth, .hbm, .poison]
  | .busyComplete _ => [.aon, .host, .ptns, .jobs, .ctxs, .colls, .cmds, .hearth, .hearthUp, .faults, .levels, .icern, .hbm, .poison, .free]
  | .ticketDiscard _ | .summaryExpire | .hearthWake | .hearthSleep => [.hearth]
  | .hearthRestartDone => [.hearth, .hearthUp]
  | .trialTimeout => [.aon, .host, .hearth, .hearthUp, .faults]
  | .laneBind _ _ _ _ | .stepNop _ _ | .branch _ _ | .loop _ _ | .setc _ _ | .next _ _ | .wait _ _ | .signal _ _ | .mfence _ _
  | .tileclr _ _ | .skip _ _ | .selclr _ _ | .fetchLand _ _ _ | .regAdapt _ _ | .hotCountHalve _ | .preemptSaveDone _ _
  | .residentIdleTimeout _ _ | .residentBlockedTimeout _ _ | .swapWaitTimeout _ _ | .swapStart _ | .bankedIdleTimeout _ | .exitDemand _
    => [.ptns]
  | .endOp _ _ | .descentEnd _ _ => [.aon, .host, .ptns, .ctxs, .colls, .cmds, .hearth, .faults, .seamTok, .icern]
  | .emit _ _ | .listIssue _ _ _ | .pieceIssue _ _ _ _ | .probeStop _ | .deadlineEnd _ | .refineStart _ _ _ | .hybridFusion _ _ _
  | .farRerankStart _ => [.ptns, .cmds]
  | .add32 _ | .add64 _ | .minu _ | .maxu _ | .mins _ | .maxs _ | .andOp _ | .orOp _ | .xorOp _ | .cas32 _ | .cas64 _ | .bitset _
  | .bitclr _ | .hinc _ | .semAcq _ | .semRel _ | .memoryRequest _ _
    => [.aon, .host, .ptns, .ctxs, .colls, .cmds, .hearth, .faults, .levels, .seamTok, .icern, .hbm, .poison, .free]
  | .farQueueServe _ => [.aon, .host, .ptns, .ctxs, .hearth, .faults, .seamTok, .hbm, .poison, .free]
  | .hbmReadComplete _ _ _ _ | .wcbAgeFlush _ _ _ | .scrubRead _ _ _ _ | .scrubBurst _ | .bankedEntryDone _
    => [.aon, .host, .ptns, .hearth, .faults, .hbm, .poison, .free]
  | .stackTempSample _ _ => [.aon, .host, .ptns, .hearth, .faults]
  | .clipWindowClose _ _ => [.host, .colls, .cmds, .hearth]
  | .batchCommit _ => [.aon, .host, .ptns, .ctxs, .colls, .cmds, .hearth, .faults, .seamTok, .icern, .poison]
  | .epochClose _ => [.host, .ptns, .ctxs, .colls, .cmds, .levels, .seamTok]
  | .horizonAdvance _ _ => [.ptns, .ctxs, .colls, .seamTok]
  | .settlingSweep _ _ => [.ptns, .ctxs, .colls, .cmds, .seamTok]
  | .journalAck _ _ | .journalAckTimeout _ => [.aon, .host, .ctxs, .cmds, .hearth, .faults]
  | .releasedReread _ => [.ctxs]
  | .tampCut _ _ | .tampRetire _ _ | .looseFree _ => [.ptns, .colls]
  | .tampCopy _ _ | .redistributeChunk _ _ => [.host, .ptns, .ctxs, .colls, .cmds, .hearth, .seamTok, .poison]
  | .tampCommit _ _ => [.host, .ptns, .ctxs, .colls, .hearth, .seamTok]
  | .strataCommit _ => [.ptns, .ctxs, .colls, .hearth, .seamTok]
  | .redistributeDone _ => [.colls]
  | .assignChunk _ => [.aon, .host, .ptns, .ctxs, .colls, .cmds, .hearth, .faults, .levels, .seamTok, .icern, .poison, .free]
  | .foldMerge _ _ _ | .engineWatchdog _ _ | .partialList _
    => [.aon, .host, .ptns, .ctxs, .colls, .cmds, .hearth, .faults, .levels, .icern, .free]
  | .finalSelection _ _ => [.cmds]
  | .roundSlotAdvance _ => [.ptns, .ctxs, .cmds]
  | .swapPhaseEnd _ => [.ptns, .ctxs]
  | .killDone _ _ _ | .engineResetDone _ _ => [.levels]
  | .fenceStart _ => [.aon, .host, .ptns, .hearth, .faults, .icern, .hbm, .poison]
  | .partitionResetDone _ => [.aon, .host, .ptns, .ctxs, .colls, .cmds, .hearth, .faults, .levels, .seamTok, .hbm, .poison, .free]
  | .ctrl _ _ | .pllLockLoss _ => [.aon, .host, .ptns, .hearth, .faults, .levels]
  | .windowExpire _ | .setdasa _ | .entdaa _ => [.aon]
  | .zeroiseDone _ => [.ptns, .hearth, .hbm, .poison]
  | .exitDone _ _ => [.aon, .host, .ptns, .colls, .hearth, .faults, .seamTok, .hbm, .poison, .free]
  | .powerTick10us _ => [.power, .free]
  | .powerTick100us | .dieDepthTick _ | .coolantSample _ _ => [.power]
  | .powerTick1ms | .dieTempSample _ _ => [.aon, .host, .hearth, .faults, .power]
  | .supply => [.aon, .pins, .host, .hearth, .faults, .levels]
  | .auxSupplyUp | .auxSupplyLoss
    => [.aon, .pins, .host, .ptns, .jobs, .ctxs, .colls, .cmds, .nextCmd, .hearth, .hearthUp, .faults, .levels, .seamTok, .icern, .power, .jtag, .hbm, .poison]
  | .pwrgd => [.pins, .host]
  | .bootComplete => [.aon, .host, .hearth, .hearthUp, .faults, .levels, .icern]
  | .getstatus => [.aon, .host, .free]
  | .pldmPlimWrite _ => [.aon, .host]
  | .heartbeatTimer _ | .heartbeat _ | .flitCrcError _ _ => [.icern]
  | .flitData _ _ | .flitNull _ _ => [.aon, .host, .hearth, .faults, .icern]
  | .queryFwd _ | .insertFwdPrepare _ => [.aon, .host, .ptns, .ctxs, .colls, .cmds, .nextCmd, .hearth, .faults, .icern, .free]
  | .insertFwdCommit _ => [.aon, .host, .colls, .cmds, .hearth, .faults, .icern]
  | .routeProbe _ | .routeProbeReply _ | .routeProbeTimer _ => [.aon, .host, .jobs, .hearth, .faults, .icern]
  | .probeTimeout _ _ => [.jobs]
  | .rootRouteLoss _ => [.host, .ptns, .ctxs, .colls, .cmds, .icern]
  | .extest | .idcode | .samplePreload _ | .extestPulse | .extestTrain | .clamp | .highz | .bypass _
    => [.aon, .host, .ptns, .ctxs, .colls, .cmds, .hearth, .faults, .levels, .icern, .jtag, .hbm, .poison, .free]
  | .trstAssert => [.icern, .jtag]

end Sys2Proof.Machine
end

