-- ==== Sys2Proof/Certificates/Slice0/Obligations.lean ====
section
/-! DEFINITION. The statements for the provers. Each says what rows of the command table do, or what holds of the whole block. -/

open Sys2Proof Sys2Proof.Machine

/-- A step takes the command at the front of the queue: it is exec of that command on the state with the queue's rest. That an empty queue
lets the always-on clock tick is the model's choice (log 12). -/
def Obligations.StepRunsTheFrontCommand : Prop :=
  (∀ (c : Instr) (rest : List Instr) (s : State), step { s with pending := c :: rest } = exec c { s with pending := rest }) ∧
  ∀ s : State, step { s with pending := [] } = .next (tick { s with pending := [] })

/-- What every step keeps (R193, R430–R432); that a step always answers a next state, and the counter of free choices, are the model's
choice (log 3, 4, 12). -/
def Obligations.StepKeepsInv : Prop :=
  (∀ (s : State),
    s.inv = true →
    ∃ t, step s = .next t ∧ t.inv = true ∧ t.pending = s.pending.tail ∧ s.free ≤ t.free)

/-- The frame of every row: the parts of the block a command may act on are those `mayChange` lists, and no other part moves. The division
into parts is the model's. -/
def Obligations.Frames : Prop :=
  (∀ (i : Instr) (s : State),
    ∃ t, exec i s = .next t ∧ t.pending = s.pending ∧ ∀ p, p ∉ mayChange i → unchanged p s t)

/-- The Reset columns of the register tables, read through BAR0. Where a column says AON, the state is the one right after the auxiliary
supply came up (log 9); the firmware version 0 is the model's (log 8). -/
def Obligations.ResetState : Prop :=
  (State.reset.inv = true ∧ State.reset.pending = []) ∧
  (readReg State.reset 0 8 = 0xB0000C12 ∧ readReg State.reset 8 8 = 0 ∧ readReg State.reset 0x10 8 = 0 ∧ readReg State.reset 0x28 8 = 1500 * 2 ^ 32 ∧ readReg State.reset 0x30 8 = 0) ∧
  (readReg State.reset 0x20000 8 = 0 ∧ readReg State.reset 0x20008 8 = 0xFFFF ∧ ∀ b : Fin 16, readReg State.reset (0x20100 + 4 * b) 4 = 0) ∧
  (∀ (r : Fin 1024),
    readReg State.reset (0x10000 + 8 * r) 8 = 0 ∧ readReg State.reset (0x12000 + 8 * r) 8 = 0) ∧
  (∀ (p : Fin 12),
    readReg State.reset (0x40000 + 0x1000 * p) 8 = 0xFF * 2 ^ 56 + 3 ∧ readReg State.reset (0x40008 + 0x1000 * p) 8 = 3000 * 2 ^ 48 + 1200 * 2 ^ 32 + 20 * 2 ^ 16 ∧
      readReg State.reset (0x40010 + 0x1000 * p) 8 = 250 * 2 ^ 32 + 64 ∧ readReg State.reset (0x40200 + 0x1000 * p) 8 = 0 ∧ readReg State.reset (0x40220 + 0x1000 * p) 8 = 0 ∧
      readReg State.reset (0x40240 + 0x1000 * p) 8 = 0 ∧ readReg State.reset (0x40260 + 0x1000 * p) 8 = 20) ∧
  (∀ (n : Fin 4),
    readReg State.reset (0x80000 + 0x4000 * n) 8 = 0 ∧ readReg State.reset (0x80008 + 0x4000 * n) 8 = 0) ∧
  (∀ (m : Fin 3),
    readReg State.reset (0x1018 + 0x2000 * m) 8 = 0)

/-- Reads merge what the write-combining buffers hold (R204, R205), so a write is seen at once; zeroisation (R227). -/
def Obligations.MemoryWrites : Prop :=
  (∀ (s : State) (a : Nat) (bs : List Byte) (j : Nat),
    a + bs.length ≤ 2 ^ 40 →
    Memory.wf s.hbm = true →
    j < 2 ^ 40 →
    memByte (writeMem a bs s) j = (if a ≤ j ∧ j < a + bs.length then bs.getD (j - a) 0 else memByte s j) ∧ Memory.wf (writeMem a bs s).hbm = true) ∧
  (∀ (s : State) (a n j : Nat),
    a % 64 = 0 →
    n % 64 = 0 →
    j < 2 ^ 40 →
    memByte (zeroRange a n s) j = if a ≤ j ∧ j < a + n then 0 else memByte s j) ∧
  (∀ (s : State) (a n w : Nat),
    w ∈ (zeroRange a n s).poison →
    ¬(a ≤ w ∧ w < a + n) ∧ w ∈ s.poison)

/-- SQ_DB, CQ_DB and PAY_DB (R271–R273, R283): a valid doorbell takes effect and changes nothing else; an invalid one is ignored and raises
DB_INVALID. -/
def Obligations.Doorbells : Prop :=
  (∀ (s : State) (r : Fin 1024) (v : W64), ringExists s r = true → v.toNat % 65536 < (ring s r).size →
    exec (.sqDoorbell r v) s = .next (setRing r { ring s r with sqTail := v.toNat % 65536 } s)) ∧
  (∀ (s : State) (r : Fin 1024) (v : W64), ringExists s r = false ∨ (ring s r).size ≤ v.toNat % 65536 →
    ∃ t, exec (.sqDoorbell r v) s = .next t ∧ t.host.rings = s.host.rings ∧ bit t.host.evtPend.toNat 1 = true ∧
      { t with host := s.host, hearth := s.hearth } = s) ∧
  (∀ (s : State) (r : Fin 1024) (v : W64), ringExists s r = true → v.toNat % 65536 < (ring s r).size →
    (v.toNat % 65536 + (ring s r).size - (ring s r).cqHead) % (ring s r).size ≤ ((ring s r).cqTail + (ring s r).size - (ring s r).cqHead) % (ring s r).size →
    exec (.cqDoorbell r v) s = .next (setRing r { ring s r with cqHead := v.toNat % 65536 } s)) ∧
  (∀ (s : State) (r : Fin 1024) (v : W64), ringExists s r = false ∨ (ring s r).size ≤ v.toNat % 65536 ∨
    ((ring s r).cqTail + (ring s r).size - (ring s r).cqHead) % (ring s r).size < (v.toNat % 65536 + (ring s r).size - (ring s r).cqHead) % (ring s r).size →
    ∃ t, exec (.cqDoorbell r v) s = .next t ∧ t.host.rings = s.host.rings ∧ bit t.host.evtPend.toNat 1 = true ∧
      { t with host := s.host, hearth := s.hearth } = s) ∧
  (∀ (s : State) (r : Fin 1024) (v : W64) (c : Nat) (x : Cmd), waitingTag s r (v.setWidth 32) = some c → cmd? s c = some x →
    exec (.payloadDoorbell r v) s = .next (setCmd c { x with stage := .reading } s)) ∧
  (∀ (s : State) (r : Fin 1024) (v : W64), waitingTag s r (v.setWidth 32) = none →
    ∃ t, exec (.payloadDoorbell r v) s = .next t ∧ t.cmds = s.cmds ∧ bit t.host.evtPend.toNat 1 = true ∧
      { t with host := s.host, hearth := s.hearth } = s)

/-- EVT_PEND is W1C and hardware wins a tie (R4, R285, R367); clearing a mask bit over a pending event sends vector 0 once (R285); an
unmasked vector sends what it owes (R285). -/
def Obligations.Events : Prop :=
  (∀ (s : State) (v : Nat), (vec s v).masked = true → sendVec v s = updVec v (fun x => { x with pba := true }) s) ∧
  (∀ (s : State) (v : Nat) (w : HostWrite), (vec s v).masked = false → s.host.link.up = true → s.host.link.d3hot = false →
    w = { kind := .msix v, addr := (vec s v).addr, bytes := leBytes 4 (vec s v).data.toNat } →
    sendVec v s = updHost (fun h => if roomFor s w then { h with writes := h.writes ++ [w] } else { h with posting := h.posting ++ [w] }) s) ∧
  (∀ (s : State) (v : W64) (occ : W16), ∃ u, exec (.evtPendClear v occ) s = .next (
      if ∃ b : Fin 16, bit occ.toNat b = true ∧ bit s.host.evtMask.toNat b = false ∧ (bit s.host.evtPend.toNat b = false ∨ bit v.toNat b = true)
      then sendVec 0 u else u) ∧
    u.host = { s.host with evtPend := (s.host.evtPend &&& ~~~ v.setWidth 16) ||| occ, evtCnt := u.host.evtCnt } ∧
    (∀ b, b < 16 → evtCount u b = if bit occ.toNat b then evtCount s b + 1 else evtCount s b) ∧
    u.hearth = { s.hearth with log := u.hearth.log, logSeq := s.hearth.logSeq + (bitsOf 16 occ.toNat).length, wakeDue := u.hearth.wakeDue } ∧
    (s.hearth.log.length ≤ 4096 →
      let l := s.hearth.log ++ (bitsOf 16 occ.toNat).zipIdx.map fun b => (⟨s.hearth.logSeq + b.2, b.1, 0, 0, 0⟩ : LogEntry)
      u.hearth.log = l.drop (l.length - 4096)) ∧
    { u with host := s.host, hearth := s.hearth } = s) ∧
  (∀ (s : State) (v : W64), (∀ b, b < 16 → bit s.host.evtPend.toNat b = true → bit s.host.evtMask.toNat b = true → bit v.toNat b = true) →
    exec (.evtMaskWrite v) s = .next (updHost (fun h => { h with evtMask := v.setWidth 16 }) s)) ∧
  (∀ (s : State) (v : W64) (b : Nat), b < 16 → bit s.host.evtPend.toNat b = true → bit s.host.evtMask.toNat b = true → bit v.toNat b = false →
    exec (.evtMaskWrite v) s = .next (sendVec 0 (updHost (fun h => { h with evtMask := v.setWidth 16 }) s))) ∧
  (∀ (s : State) (v : Fin 2048), (vec s v).pba = false →
    exec (.msixUnmask v) s = .next (updVec v (fun x => { x with masked := false, pba := false }) s)) ∧
  (∀ (s : State) (v : Fin 2048), (vec s v).pba = true → s.host.link.up = true → s.host.link.d3hot = false →
    ∃ t, exec (.msixUnmask v) s = .next t ∧ vec t v = { vec s v with masked := false, pba := false } ∧
      postedWrites t = postedWrites s ++ [{ kind := .msix v, addr := (vec s v).addr, bytes := leBytes 4 (vec s v).data.toNat }])

/-- The VX12 fetches entries in index order, up to 32 ahead of admission, and advances the head as each is fetched (R271); a failed fetch
puts the ring in ERROR with RING_FAULT (R273) and posts its class 0x5 code (R433). -/
def Obligations.EntryFetch : Prop :=
  (∀ (s : State) (r : Fin 1024) (bs : List Byte), ringExists s r = true → (ring s r).st = .running → (ring s r).stopping = false → linkServes s = true →
    (ring s r).sqHead ≠ (ring s r).sqTail → (ring s r).fetched.length < 32 →
    exec (.entryFetch r (.data bs)) s = .next (setRing r { ring s r with
      fetched := (ring s r).fetched ++ [BitVec.ofNat 512 (leNat (bs.take 64))], sqHead := ((ring s r).sqHead + 1) % (ring s r).size } s)) ∧
  ∀ (s : State) (r : Fin 1024) (reply : ReadReply) (k : Nat), ringExists s r = true → (ring s r).st = .running → (ring s r).stopping = false → linkServes s = true →
    (ring s r).sqHead ≠ (ring s r).sqTail → (ring s r).fetched.length < 32 →
    (reply = .ur ∧ k = 1 ∨ reply = .ca ∧ k = 2 ∨ reply = .poison ∧ k = 3 ∨ reply = .timeout ∧ k = 4) →
    ∃ t, exec (.entryFetch r reply) s = .next t ∧ ring t r = { ring s r with st := .error } ∧ bit t.host.evtPend.toNat 0 = true ∧
      t.aon.codes = (hostFault 0x71 k (some r) :: s.aon.codes).take 16 ∧ t.faults = satInc s.faults

/-- Writes of BAR0, BAR4 and the sideband window (R263, R286, R307–R309); one over the link brings it back to L0 (R288). The host's answer is the
model's own output (log 2). -/
def Obligations.RegisterWrites : Prop :=
  (∀ (s u : State) (r : Fin 1024) (v : W64), u = answer .written (updLink (fun l => { l with aspm := .l0 }) s) →
    exec (.registerWrite .bar0 (0x10000 + 8 * r.val) 8 v) s = exec (.sqDoorbell r v) u ∧
    exec (.registerWrite .bar0 (0x12000 + 8 * r.val) 8 v) s = exec (.cqDoorbell r v) u ∧
    exec (.registerWrite .bar0 (0x14000 + 8 * r.val) 8 v) s = exec (.payloadDoorbell r v) u ∧
    exec (.registerWrite .bar0 0x20000 8 v) s = exec (.evtPendClear v 0) u ∧
    exec (.registerWrite .bar0 0x20008 8 v) s = exec (.evtMaskWrite v) u) ∧
  (∀ (s u : State) (p : Fin 12) (v : W64), u = answer .written (updLink (fun l => { l with aspm := .l0 }) s) → 1 ≤ v.toNat % 1024 → v.toNat % 1024 ≤ 1000 →
    exec (.registerWrite .bar0 (0x40260 + 0x1000 * p.val) 8 v) s = .next (updPtn p (fun x => { x with wdog := v.setWidth 10 }) u)) ∧
  (∀ (s u : State) (v : W64), u = answer .written (updLink (fun l => { l with aspm := .l0 }) s) → bit v.toNat 21 = true →
    exec (.registerWrite .bar0 0x30 8 v) s = .next (updAon (fun a => { a with trip := false }) u)) ∧
  (∀ (s : State) (m : Fin 3) (v : W64), bit v.toNat 0 = true → (mbx s m).state = 0 ∨ (mbx s m).state = 3 →
    ∃ t, exec (.registerWrite .bar0 (0x1010 + 0x2000 * m.val) 8 v) s = .next t ∧
      mbx t m = { mbx s m with
        state := if hearthRuns s || romRuns s m then 2 else 1, req := some (takeRequest (mbx s m)), tag := (takeRequest (mbx s m)).tag
        order := goOrder m s } ∧ t.hearth.goSeq = s.hearth.goSeq + 1 ∧ t.hearth.wakeDue = true) ∧
  (∀ (s : State) (v : W64), bit v.toNat 0 = true → (mbx s 3).state = 1 ∨ (mbx s 3).state = 2 →
    exec (.registerWrite .sideband 0x10 8 v) s = .next (updMbx 3 (fun x => { x with overrun := true }) s)) ∧
  (∀ (s u : State) (n : Fin 2048) (v : W64), u = answer .written (updLink (fun l => { l with aspm := .l0 }) s) → bit v.toNat 0 = true →
    exec (.registerWrite .bar4 (16 * n.val + 12) 4 v) s = .next (updVec n (fun x => { x with masked := true }) u)) ∧
  ∀ (s u : State) (off size : Nat) (v : W64), u = answer .unsupported (updLink (fun l => { l with aspm := .l0 }) s) → (size ≠ 4 ∧ size ≠ 8) ∨ off % size ≠ 0 →
    exec (.registerWrite .bar0 off size v) s = .next u ∧ exec (.registerWrite .bar4 off size v) s = .next u

/-- What each admitted ring command becomes (R119, R165, R178, R179, R189, R190, R271, R276, R281, R293). -/
def Obligations.Admission : Prop :=
  (∀ (s u : State) (r : Fin 1024) (e : BitVec 512) (rest : List (BitVec 512)), Admits s r 0x00 (plainCheck s r e) e rest u →
    ∃ t k, exec (.nop r) s = .next t ∧ cmd? t s.nextCmd = some k ∧ (ring t r).fetched = rest ∧
      k.stage = .final ∧ k.status = .ok ∧ k.count = 0 ∧ k.epoch = 0 ∧ k.tag = eTag e) ∧
  (∀ (s u : State) (r : Fin 1024) (e : BitVec 512) (rest : List (BitVec 512)), Admits s r 0x01 (plainCheck s r e) e rest u →
    ∃ t k, exec (.fence r) s = .next t ∧ cmd? t s.nextCmd = some k ∧ (ring t r).fetched = rest ∧
      k.covers = ringLive s r ∧ k.stage = (if (ringLive s r).isEmpty then .final else .waiting)) ∧
  (∀ (s u : State) (r : Fin 1024) (far : ReadReply) (e : BitVec 512) (rest : List (BitVec 512)), Admits s r 0x10 (searchCheck s r far e) e rest u →
    ∃ t k, exec (.search r far) s = .next t ∧ cmd? t s.nextCmd = some k ∧ (ring t r).fetched = rest ∧
      k.snap = (if eSnap e = 0 then (coll s k.coll).latest else eSnap e) ∧ k.stage = payloadStage e ∧ k.tag = eTag e) ∧
  (∀ (s u : State) (r : Fin 1024) (far : ReadReply) (e : BitVec 512) (rest : List (BitVec 512)), Admits s r 0x11 (searchCheck s r far e) e rest u →
    ∃ t k, exec (.searchHybrid r far) s = .next t ∧ cmd? t s.nextCmd = some k ∧ (ring t r).fetched = rest ∧
      k.snap = (if eSnap e = 0 then (coll s k.coll).latest else eSnap e) ∧ k.stage = payloadStage e ∧ k.tag = eTag e) ∧
  (∀ (s u : State) (r : Fin 1024) (far : ReadReply) (e : BitVec 512) (rest : List (BitVec 512)), Admits s r 0x12 (searchCheck s r far e) e rest u →
    ∃ t k, exec (.searchExact r far) s = .next t ∧ cmd? t s.nextCmd = some k ∧ (ring t r).fetched = rest ∧
      k.snap = (if eSnap e = 0 then (coll s k.coll).latest else eSnap e) ∧ k.stage = payloadStage e ∧ k.tag = eTag e) ∧
  (∀ (s u : State) (r : Fin 1024) (e : BitVec 512) (rest : List (BitVec 512)), Admits s r 0x20 (ingestCheck s r e) e rest u →
    ∃ t k, exec (.insert r) s = .next t ∧ cmd? t s.nextCmd = some k ∧ (ring t r).fetched = rest ∧
      k.stage = payloadStage e ∧ k.tag = eTag e ∧ (coll t k.coll).lastIngestCtx = some k.ctx) ∧
  (∀ (s u : State) (r : Fin 1024) (e : BitVec 512) (rest : List (BitVec 512)), Admits s r 0x21 (ingestCheck s r e) e rest u →
    ∃ t k, exec (.upsert r) s = .next t ∧ cmd? t s.nextCmd = some k ∧ (ring t r).fetched = rest ∧
      k.stage = payloadStage e ∧ k.tag = eTag e ∧ (coll t k.coll).lastIngestCtx = some k.ctx) ∧
  (∀ (s u : State) (r : Fin 1024) (e : BitVec 512) (rest : List (BitVec 512)), Admits s r 0x22 (ingestCheck s r e) e rest u →
    ∃ t k, exec (.delete r) s = .next t ∧ cmd? t s.nextCmd = some k ∧ (ring t r).fetched = rest ∧
      k.stage = payloadStage e ∧ k.tag = eTag e ∧ (coll t k.coll).lastIngestCtx = some k.ctx) ∧
  (∀ (s u : State) (r : Fin 1024) (e : BitVec 512) (rest : List (BitVec 512)), Admits s r 0x30 (queryCheck s r e) e rest u →
    ∃ t k, exec (.epochQuery r) s = .next t ∧ cmd? t s.nextCmd = some k ∧ (ring t r).fetched = rest ∧
      k.waitFor = BitVec.ofNat 32 (ef e 16 4) ∧
      k.stage = (if k.waitFor = 0 ∨ epochLe k.waitFor (coll s k.coll).latest then .final else .waiting)) ∧
  (∀ (s u : State) (r : Fin 1024) (e : BitVec 512) (rest : List (BitVec 512)), Admits s r 0x40 (bulkCheck s r e) e rest u →
    ∃ t k, exec (.bulkLoad r) s = .next t ∧ cmd? t s.nextCmd = some k ∧ (ring t r).fetched = rest ∧
      k.stage = .assigning ∧ ∃ q ∈ (ptn t k.home).chunkQ, q.kind = 4 ∧ q.ctx = k.ctx ∧ q.cmd = some s.nextCmd) ∧
  (∀ (s u : State) (r : Fin 1024) (e : BitVec 512) (rest : List (BitVec 512)), Admits s r 0x41 (exportCheck s r e) e rest u →
    ∃ t k, exec (.exportColl r) s = .next t ∧ cmd? t s.nextCmd = some k ∧ (ring t r).fetched = rest ∧
      k.snap = exportSnap s e ∧ k.expLen = 64 ∧ k.count = 0 ∧
      match exportPlace s k (bits (xCursor e).toNat 31 28) (bits (xCursor e).toNat 27 0) with
      | none => k.stage = .final ∧ k.status = .ok ∧ k.epoch = k.snap ∧ (postedWrites t).getLast? = some { kind := .data, addr := BitVec.ofNat 64 (ePayload e), bytes := leBytes 4 0 ++ leBytes 4 k.snap.toNat ++ leBytes 8 (k.snap.toNat * 2 ^ 32 + 0xF * 2 ^ 28) ++ leBytes 4 2 ++ leBytes 4 64 ++ List.replicate 40 0 }
      | some (p, o) => (∀ code, turnedAway s [p] = some code → k.stage = .final ∧ k.status = .fenced ∧ k.fault = code) ∧
          (turnedAway s [p] = none → k.stage = .running ∧ k.cursor = BitVec.ofNat 64 (p * 2 ^ 28 + o) ∧
            ∃ q ∈ (ptn t p).chunkQ, q.kind = 5 ∧ q.ctx = k.ctx ∧ q.cmd = some s.nextCmd ∧
              q.bricks.map (·.brick) = ((exportList s k p).drop o).take 256)) ∧
  (∀ (s u : State) (r : Fin 1024) (e : BitVec 512) (rest : List (BitVec 512)), Admits s r 0x28 (flushCheck s r e) e rest u →
    ∃ v k, exec (.flush r) s = .next (settleWaiters v) ∧ cmd? v s.nextCmd = some k ∧ (ring v r).fetched = rest ∧
      k.stage = .waiting ∧ k.covers = (coll s k.coll).flushBase ∧ (coll v k.coll).flushBase = [] ∧ (coll v k.coll).lastFlush = some s.nextCmd)

/-- How a payload comes in (R281, R282, R169, R119, R34) and how it fails to (R282, R284); no command past COMMIT fails (R343). -/
def Obligations.PayloadReads : Prop :=
  (∀ (s : State) (k : DoorbellLimit) (c : Nat) (x : Cmd),
    k.cmd = c →
    cmd? s c = some x →
    x.stage = .awaitPayload →
    mustCommit x = false →
    ∃ t y, exec (.trdyTimeout k) s = .next t ∧ cmd? t c = some y ∧ y.stage = .final ∧ y.status = .timeout ∧ y.count = 0 ∧ y.fault = 0 ∧ y.granules = x.granules) ∧
  (∀ (s : State) (c : Nat) (x : Cmd) (rs : List Rec),
    cmd? s c = some x →
    x.stage = .reading →
    x.granules.isSome = true →
    homeReady s x = true →
    stagedPoison s x = false →
    isSearch x.opcode = false →
    readIngest (coll s x.coll) x.entry (stagedBytes s x) = .ok rs →
    peersOf s x.job = [] →
    ∃ t y, exec (.stagedPayloadRead c) s = .next t ∧ cmd? t c = some y ∧ y.stage = .assigning ∧ y.granules = none ∧ y.payload = stagedBytes s x ∧
      (∀ g, x.granules = some g → g ∉ t.host.granules) ∧ ∃ q ∈ (ptn t x.home).chunkQ, q.kind = assignKind x ∧ q.ctx = x.ctx ∧ q.cmd = some c) ∧
  (∀ (s : State) (c : Nat) (x : Cmd),
    cmd? s c = some x →
    x.stage = .reading →
    x.granules.isSome = true →
    homeReady s x = true →
    stagedPoison s x = true →
    mustCommit x = false →
    ∃ t y, exec (.stagedPayloadRead c) s = .next t ∧ cmd? t c = some y ∧ y.stage = .final ∧ y.status = .uncorrectable ∧ y.count = 0 ∧
      y.fault = poisonCode x.home ∧ y.granules = none) ∧
  (∀ (s : State) (c : Nat) (x : Cmd) (rows : List (List F32 × List (Nat × Bf16))),
    cmd? s c = some x →
    x.stage = .reading →
    x.granules.isSome = true →
    homeReady s x = true →
    stagedPoison s x = false →
    isSearch x.opcode = true →
    x.opcode ≠ 0x12 →
    searchRows (fun a n => x.origin.isSome || rangeIn x.hwins a n true false) (coll s x.coll) x.entry (stagedBytes s x) = .ok rows →
    sparseRoom (stagedMoved s x) c x rows = true →
    peersOf s x.job = [] →
    ∃ t y, exec (.stagedPayloadRead c) s = .next t ∧ cmd? t c = some y ∧ y.stage = .running ∧ y.granules = none ∧ y.payload = stagedBytes s x ∧
      y.rows.map (fun r => (r.raw, r.terms)) = rows ∧ y.holds = x.holds ++ sparseHolds s x rows ∧ y.snap = x.snap ∧
      ∀ g, x.granules = some g → g ∉ t.host.granules) ∧
  (∀ (s : State) (c : Nat) (x : Cmd) (bs : List Byte) (rows : List (List F32 × List (Nat × Bf16))),
    s.host.link.up = true →
    cmd? s c = some x →
    x.stage = .reading →
    x.granules = none →
    x.origin = none →
    homeReady s x = true →
    isSearch x.opcode = true →
    x.opcode ≠ 0x12 →
    searchRows (fun a n => x.origin.isSome || rangeIn x.hwins a n true false) (coll s x.coll) x.entry bs = .ok rows →
    sparseRoom s c x rows = true →
    peersOf s x.job = [] →
    ∃ t y, exec (.dmaReadComplete c (.data bs)) s = .next t ∧ cmd? t c = some y ∧ y.stage = .running ∧ y.payload = bs ∧
      y.rows.map (fun r => (r.raw, r.terms)) = rows ∧ y.holds = x.holds ++ sparseHolds s x rows ∧ y.snap = x.snap) ∧
  (∀ (s : State) (c : Nat) (x : Cmd) (bs : List Byte) (rows : List (List F32 × List (Nat × Bf16))),
    s.host.link.up = true →
    cmd? s c = some x →
    x.stage = .reading →
    x.granules = none →
    x.origin = none →
    homeReady s x = true →
    x.opcode = 0x12 →
    x.stopped = false →
    searchRows (fun a n => x.origin.isSome || rangeIn x.hwins a n true false) (coll s x.coll) x.entry bs = .ok rows →
    sparseRoom s c x rows = true →
    peersOf s x.job = [] →
    (∀ p ∈ jobPtns s x.job, pastDrain (ptn s p) = false) →
    ∃ t y, exec (.dmaReadComplete c (.data bs)) s = .next t ∧ cmd? t c = some y ∧ y.stage = .running ∧ y.payload = bs ∧
      y.rows.map (fun r => (r.raw, r.terms)) = rows ∧
      y.scanned = (jobPtns s x.job).foldl (fun n p => n + (bricksAt (coll s x.coll) p x.snap).length) 0) ∧
  (∀ (s : State) (c : Nat) (x : Cmd) (bs : List Byte) (st : Status),
    s.host.link.up = true →
    cmd? s c = some x →
    x.stage = .reading →
    x.granules = none →
    x.origin = none →
    homeReady s x = true →
    isSearch x.opcode = true →
    searchRows (fun a n => x.origin.isSome || rangeIn x.hwins a n true false) (coll s x.coll) x.entry bs = .error st →
    ∃ t y, exec (.dmaReadComplete c (.data bs)) s = .next t ∧ cmd? t c = some y ∧ y.stage = .final ∧ y.status = st ∧ y.count = 0) ∧
  (∀ (s : State) (c : Nat) (x : Cmd) (g : Granules),
    cmd? s c = some x →
    x.stage = .done →
    x.granules = some g →
    ∃ t, exec (.stagingReuse c) s = .next t ∧ cmd? t c = none ∧ t.host.granules = s.host.granules.filter (· ≠ g)) ∧
  (∀ (s : State) (c : Nat) (x : Cmd) (bs : List Byte) (rs : List Rec),
    s.host.link.up = true →
    cmd? s c = some x →
    x.stage = .reading →
    x.granules = none →
    x.origin = none →
    homeReady s x = true →
    isSearch x.opcode = false →
    readIngest (coll s x.coll) x.entry bs = .ok rs →
    peersOf s x.job = [] →
    ∃ t y, exec (.dmaReadComplete c (.data bs)) s = .next t ∧ cmd? t c = some y ∧ y.stage = .assigning ∧ y.payload = bs ∧
      ∃ q ∈ (ptn t x.home).chunkQ, q.kind = assignKind x ∧ q.ctx = x.ctx ∧ q.cmd = some c) ∧
  (∀ (s : State) (c : Nat) (x : Cmd) (bs : List Byte) (st : Status) (i : Nat),
    s.host.link.up = true →
    cmd? s c = some x →
    x.stage = .reading →
    x.granules = none →
    x.origin = none →
    homeReady s x = true →
    isSearch x.opcode = false →
    readIngest (coll s x.coll) x.entry bs = .error (st, i) →
    mustCommit x = false →
    ∃ t y, exec (.dmaReadComplete c (.data bs)) s = .next t ∧ cmd? t c = some y ∧ y.stage = .final ∧ y.status = st ∧ y.count = i) ∧
  (∀ (s : State) (c : Nat) (x : Cmd) (reply : ReadReply),
    s.host.link.up = true →
    cmd? s c = some x →
    x.stage = .reading →
    x.granules = none →
    x.origin = none →
    homeReady s x = true →
    reply = .ur ∨ reply = .ca ∨ reply = .poison →
    mustCommit x = false →
    ∃ t y, exec (.dmaReadComplete c reply) s = .next t ∧ cmd? t c = some y ∧ y.stage = .final ∧ y.status = .uncorrectable ∧ y.count = 0 ∧
      y.fault = hostFault 0x71 ((replyCause reply).getD 4) (some x.ring)) ∧
  (∀ (s : State) (c : Nat) (x : Cmd),
    s.host.link.up = true →
    cmd? s c = some x →
    x.stage = .reading →
    x.granules = none →
    x.origin = none →
    homeReady s x = true →
    mustCommit x = false →
    ∃ t y, exec (.dmaTimeout c) s = .next t ∧ cmd? t c = some y ∧ y.stage = .final ∧ y.status = .timeout ∧ y.count = 0 ∧ y.fault = hostFault 0x71 4 (some x.ring))

/-- The completion entry and what goes before and after it (R160, R272, R277, R285, R289), what another module answers (R333, R340, R343), CTIME
(R285) and the host write queue and its drain (R288, R297, R301); the windows that a load's encoding closed are judged first (R31). The solo time of R256 is an operand of the row (log 15); a command past COMMIT whose host link was
lost completes nothing (R261, R341; log 54). -/
def Obligations.Completions : Prop :=
  (∀ (s u : State) (c solo : Nat) (x : Cmd),
    judgeFor c s = u →
    cmd? u c = some x →
    x.stage = .final →
    x.written = false →
    x.origin = none →
    x.silent = false →
    linkServes u = true →
    ∃ t rs w rest, exec (.completionWrite c solo) s = .next t ∧ postedWrites t = postedWrites u ++ rs ++ w :: rest ∧
      rs.map (fun v => (v.addr, v.bytes)) = (if isSearch x.opcode = true ∧ x.status = .ok then x.rows.zipIdx.map fun r =>
        (BitVec.ofNat 64 (sResult x.entry + 16 * sK x.entry * r.2), rowBytes (coll u x.coll).metric (x.opcode == 0x11) (sK x.entry) r.1) else []) ∧
      (let slow := (ctx? u x.ctx).bind fun k => slowDown (if x.admitted then ((serviceTime u x, max 1 solo) :: k.measured).take 1000 else k.measured)
       w = { kind := .completion x.ring (some c), addr := (ring u x.ring).cqBase + BitVec.ofNat 64 (32 * (ring u x.ring).cqTail)
             bytes := completionBytes x.tag x.status (ring u x.ring).phase (flagField x slow) (countField u x) (epochField u x) (x.anvilCyc / 1800)
               (slow.getD 0) x.fault (ring u x.ring).sqHead }) ∧
      (ring t x.ring).cqTail = (if (ring u x.ring).cqTail + 1 = (ring u x.ring).size then 0 else (ring u x.ring).cqTail + 1) ∧
      (ring t x.ring).phase = (if (ring u x.ring).cqTail + 1 = (ring u x.ring).size then !(ring u x.ring).phase else (ring u x.ring).phase) ∧
      ((eIntr x.entry = true ∨ (ring u x.ring).ccount ≠ 0 ∧ (ring u x.ring).ccount ≤ (ring u x.ring).sinceMsg + 1) →
        (vec u (ring u x.ring).vector).masked = false →
        rest.head? = some { kind := .msix (ring u x.ring).vector, addr := (vec u (ring u x.ring).vector).addr
                            bytes := leBytes 4 (vec u (ring u x.ring).vector).data.toNat })) ∧
  (∀ (s : State) (c : Nat) (x : Cmd),
    cmd? s c = some x →
    isIngest x.opcode = false ∨ x.stage ≠ .final →
    judgeFor c s = s) ∧
  (∀ (s u : State) (c solo root : Nat) (n : Nat) (x : Cmd),
    judgeFor c s = u →
    cmd? u c = some x →
    x.stage = .final →
    x.written = false →
    x.origin = some (root, n) →
    x.granules = none →
    (journal? u x.ctx).isNone = true →
    ∃ t, exec (.completionWrite c solo) s = .next t ∧ cmd? t c = none ∧ postedWrites t = postedWrites (if isSearch x.opcode = true then sendMsg (partialMsg u x c root) u
        else if x.status = .ok then u else sendMsg (insertRsp u x c root x.status x.epoch x.count) u) ∧
      t.icern = (if isSearch x.opcode = true then sendMsg (partialMsg u x c root) u
        else if x.status = .ok then u else sendMsg (insertRsp u x c root x.status x.epoch x.count) u).icern) ∧
  (∀ (s u : State) (c solo : Nat) (x : Cmd),
    judgeFor c s = u →
    cmd? u c = some x →
    x.stage = .final →
    x.written = false →
    x.origin = none →
    x.silent = true →
    exec (.completionWrite c solo) s = .next (settleWaiters (release c x u))) ∧
  (∀ (s u : State) (c solo : Nat) (x : Cmd),
    judgeFor c s = u →
    cmd? u c = some x →
    x.stage ≠ .final ∨ x.written = true ∨ (x.origin = none ∧ x.silent = false ∧ linkServes u = false) →
    exec (.completionWrite c solo) s = .next u) ∧
  (∀ (s : State) (r : Fin 1024),
    (ring s r).ctimeOn = true →
    (vec s (ring s r).vector).masked = false →
    s.host.link.up = true →
    s.host.link.d3hot = false →
    ∃ t, exec (.ctimeExpiry r) s = .next t ∧ ring t r = { ring s r with sinceMsg := 0, ctimeOn := false } ∧
      postedWrites t = postedWrites s ++ [{ kind := .msix (ring s r).vector, addr := (vec s (ring s r).vector).addr, bytes := leBytes 4 (vec s (ring s r).vector).data.toNat }] ∧
      { t with host := s.host } = s) ∧
  (∀ (s : State) (r : Fin 1024),
    (ring s r).ctimeOn = true →
    (vec s (ring s r).vector).masked = true →
    ∃ t, exec (.ctimeExpiry r) s = .next t ∧ ring t r = { ring s r with sinceMsg := 0, ctimeOn := false } ∧
      vec t (ring s r).vector = { vec s (ring s r).vector with pba := true } ∧ postedWrites t = postedWrites s ∧ { t with host := s.host } = s) ∧
  (∀ (s : State) (w : HostWrite),
    s.host.link.up = true →
    s.host.link.d3hot = false →
    postedWrites (postWrite w s) = postedWrites s ++ [w] ∧
    (postWrite w s).host.writes = (if roomFor s w = true then s.host.writes ++ [w] else s.host.writes) ∧
    (∀ c n, w.kind = .result c n → roomFor s w = true → (postWrite w s).host.pools = (freePool { pool := .resultBuf, amount := n } s).host.pools) ∧
    ((∀ c n, w.kind ≠ .result c n) ∨ roomFor s w = false → (postWrite w s).host.pools = s.host.pools)) ∧
  (∀ (s : State) (w : HostWrite) (rest : List HostWrite),
    linkPosts s = true →
    s.host.writes = w :: rest →
    ∃ t, exec .hostWriteAccept s = .next t ∧ postedWrites t = rest ++ s.host.posting ∧ t.host.link.aspm = .l0 ∧
      (s.host.posting = [] → t = updHost (fun h => { h with writes := rest }) (updLink (fun l => { l with aspm := .l0 }) s))) ∧
  (∀ (s : State),
    linkPosts s = true →
    s.host.writes = [] →
    exec .hostWriteAccept s = .next (updHost (fun h => { h with cache := h.cache.drop 1 }) (updLink (fun l => { l with aspm := .l0 }) s)))

/-- The states of the host link (R258, R260, R261, R264, R275, R288, R362, R411, R412). -/
def Obligations.LinkTraining : Prop :=
  (∀ (s : State) (w r : Nat),
    mayTrain s = true →
    w = 16 ∨ w = 8 ∨ w = 4 →
    r = 128 ∨ r = 64 ∨ r = 32 →
    exec (.linkTrained w r true) s = .next (updLink (fun l => { l with
      up := true, width := w, rate := rateCode r, deg := false, retrainDue := false, lost := false, byReset := false }) s)) ∧
  (∀ (s : State) (w r : Nat) (flit : Bool),
    mayTrain s = true →
    flit = false ∨ ¬(w = 16 ∨ w = 8 ∨ w = 4) ∨ ¬(r = 128 ∨ r = 64 ∨ r = 32) →
    ∃ u, exec (.linkTrained w r flit) s = .next (if s.host.link.byReset = true then u else countRetrain u) ∧ bit u.host.evtPend.toNat 3 = true ∧ u.aon.codes.head? = some (portFault 8) ∧
      u.host.link = { s.host.link with up := true, width := w, rate := rateCode r, deg := true, retrainDue := true, lost := false, byReset := false }) ∧
  (∀ (s : State),
    s.host.link.deg = true →
    s.host.link.retrainDue = true →
    exec .linkRetrainTimer s = .next (updLink (fun l => { l with up := false, retrainDue := false, lost := true, cfg := { l.cfg with ide := 0 } }) s)) ∧
  (∀ (s : State),
    s.host.link.up = true →
    ∃ u, exec .linkDown s = .next (spend 1 (countRetrain u)) ∧ u.host.link.up = false ∧ u.host.link.cfg.ide = 0 ∧
      postedWrites u = [] ∧ u.host.cache = [] ∧ u.host.memWaits = [] ∧ (∀ r x, (r, x) ∈ u.host.rings → x.st = .error ∧ x.ctimeOn = false) ∧
      ∀ c x, c ∈ ringCmds s → cmd? s c = some x →
        (mustCommit x = false → cmd? u c = none) ∧ (mustCommit x = true → ∃ y, cmd? u c = some y ∧ y.stage = x.stage ∧ y.silent = true)) ∧
  (∀ (s : State),
    s.host.link.up = true →
    (s.host.rings.all (fun r => r.2.st == .disabled) = true) →
    exec .d3hotEntry s = .next (updLink (fun l => { l with d3hot := true }) s)) ∧
  (∀ (s : State),
    s.host.link.up = true →
    (s.host.rings.all (fun r => r.2.st == .disabled) = false) →
    ∃ u, exec .d3hotEntry s = .next (updLink (fun l => { l with d3hot := true }) (countRetrain u)) ∧ postedWrites u = [] ∧ u.host.cache = [] ∧
      (∀ r x, (r, x) ∈ u.host.rings → x.st = .error ∧ x.ctimeOn = false) ∧
      ∀ c x, c ∈ ringCmds s → cmd? s c = some x →
        (mustCommit x = false → cmd? u c = none) ∧ (mustCommit x = true → ∃ y, cmd? u c = some y ∧ y.stage = x.stage ∧ y.silent = true)) ∧
  (∀ (s : State),
    exec .d0Entry s = .next (updLink (fun l => { l with d3hot := false }) s)) ∧
  (∀ (s : State),
    s.host.link.up = true →
    bit s.host.link.cfg.linkCtl.toNat 1 = true →
    linkIdle s = true →
    exec .aspmL1Entry s = .next (updLink (fun l => { l with aspm := .l1 }) s)) ∧
  (∀ (s : State),
    exec .aspmL1Exit s = .next (updLink (fun l => { l with aspm := .l0 }) s)) ∧
  (∀ (s : State),
    s.pins.pwrgd = true →
    ∃ t, exec .perstAssert s = .next t ∧ t.pins.perst = true ∧ t.pins.linkTraining = false ∧ t.host.link = {} ∧ ∀ v, vec t v = {}) ∧
  (∀ (s : State),
    s.pins.pwrgd = false →
    exec .perstAssert s = .next (updPins (fun p => { p with perst := true }) s)) ∧
  (∀ (s : State),
    exec .perstDeassert s = .next (updPins (fun p => { p with perst := false, linkTraining := p.pwrgd }) s))

/-- What the host sees of the CXL ports (R258, R259, R263–R265, R267), and the tokens that its accesses draw (R16, R199). -/
def Obligations.HdmAccesses : Prop :=
  (∀ (s : State) (a b c : Bool),
    exec (.cxlEnable a b c) s = .next (updLink (fun l => { l with cacheEn := a, memEn := b, hdm := c }) s)) ∧
  (∀ (s : State) (off : Nat) (acc : MemAccess),
    memUsable s = false →
    exec (.cxlMemAccess off acc) s = .next (answer .unsupported (updLink (fun l => { l with aspm := .l0 }) s))) ∧
  (∀ (s : State) (off n : Nat),
    memUsable s = true →
    (hdmAddr s off = none ∨ ∃ a, hdmAddr s off = some a ∧ notReachable (ptn s (homePtn a)) = true) →
    ∃ t, exec (.cxlMemAccess off (.read n)) s = .next t ∧ t.host.answer = .data (List.replicate n 0) true ∧ bit t.host.evtPend.toNat 2 = true ∧
      { t with host := s.host, hearth := s.hearth } = s) ∧
  (∀ (s : State) (off : Nat) (bs : List Byte) (p : Bool),
    memUsable s = true →
    (hdmAddr s off = none ∨ ∃ a, hdmAddr s off = some a ∧ notReachable (ptn s (homePtn a)) = true) →
    ∃ t, exec (.cxlMemAccess off (.write bs p)) s = .next t ∧ t.host.answer = .discarded ∧ bit t.host.evtPend.toNat 2 = true ∧
      { t with host := s.host, hearth := s.hearth } = s) ∧
  (∀ (s : State) (off a n : Nat),
    memUsable s = true →
    hdmAddr s off = some a →
    notReachable (ptn s (homePtn a)) = false →
    servedNow (ptn s (homePtn a)) = true →
    (s.host.memWaits.any fun w => shareLine w.1 (accLen w.2) off n) = false →
    westGoes s a n = true →
    ∃ t, exec (.cxlMemAccess off (.read n)) s = .next t ∧ t.host.answer = .data (memBytes s a n) (rangePoisoned s a n) ∧ t.hbm = s.hbm ∧ t.poison = s.poison ∧
      (ptn t (homePtn a)).reg.rcvTok = (ptn s (homePtn a)).reg.rcvTok - tokens (lineCount a n) ∧
      t.seamTok = (drawSeam none (homePtn a) (tokens (lineCount a n)) s).seamTok) ∧
  (∀ (s : State) (off a : Nat) (bs : List Byte),
    memUsable s = true →
    hdmAddr s off = some a →
    notReachable (ptn s (homePtn a)) = false →
    servedNow (ptn s (homePtn a)) = true →
    (s.host.memWaits.any fun w => shareLine w.1 (accLen w.2) off bs.length) = false →
    westGoes s a bs.length = true →
    a + bs.length ≤ 2 ^ 40 →
    Memory.wf s.hbm = true →
    ∃ t, exec (.cxlMemAccess off (.write bs false)) s = .next t ∧ t.host.answer = .written ∧
      ∀ j < 2 ^ 40, memByte t j = (if a ≤ j ∧ j < a + bs.length then bs.getD (j - a) 0 else memByte s j)) ∧
  (∀ (s : State) (off a : Nat) (bs : List Byte),
    memUsable s = true →
    hdmAddr s off = some a →
    notReachable (ptn s (homePtn a)) = false →
    servedNow (ptn s (homePtn a)) = true →
    (s.host.memWaits.any fun w => shareLine w.1 (accLen w.2) off bs.length) = false →
    westGoes s a bs.length = true →
    ∃ t u, exec (.cxlMemAccess off (.write bs true)) s = .next t ∧ t = answer .written (writePoisoned a bs u) ∧ u.hbm = s.hbm ∧ u.poison = s.poison) ∧
  (∀ (s : State) (off a : Nat) (acc : MemAccess),
    memUsable s = true →
    hdmAddr s off = some a →
    notReachable (ptn s (homePtn a)) = false →
    servedNow (ptn s (homePtn a)) = false ∨ (s.host.memWaits.any fun w => shareLine w.1 (accLen w.2) off (accLen acc)) = true →
    ∃ t, exec (.cxlMemAccess off acc) s = .next t ∧ t.host.answer = .waits ∧ t.host.memWaits = s.host.memWaits ++ [(off, acc)] ∧ t.hbm = s.hbm ∧ t.poison = s.poison) ∧
  (∀ (s : State) (k : Unsupported),
    exec (.unsupportedRequest k) s = .next (answer .unsupported s)) ∧
  (∀ (s : State) (a : W64),
    exec (.cxlCacheSnoop a) s = .next (answer .miss s))

/-- What the reports of the mailboxes answer (R309, R310, R315, R318–R320). -/
def Obligations.MailboxReports : Prop :=
  (∀ (s : State) (m : Fin 4) (q : Req),
    served m 0x0001 q s = true →
    shaped q 13 [] = true →
    qf q 0 8 = 0 →
    qf q 12 1 = 0 →
    ∃ t, exec (.summary m) s = .next t ∧ Answered t m q { status := .ok, bytes := page (snapshot s s.hearth.snapSeq) 0 } ∧
      t.hearth.snapshot = some (snapshot s s.hearth.snapSeq) ∧ t.hearth.snapSeq = s.hearth.snapSeq + 1) ∧
  (∀ (s : State) (m : Fin 4) (q : Req) (snap : List Byte),
    served m 0x0001 q s = true →
    shaped q 13 [] = true →
    qf q 0 8 = 0 →
    qf q 12 1 ≠ 0 →
    qf q 12 1 ≤ 15 →
    s.hearth.snapshot = some snap →
    ∃ t, exec (.summary m) s = .next t ∧ Answered t m q { status := .ok, bytes := page snap (qf q 12 1) } ∧
      t.hearth.snapshot = some snap) ∧
  (∀ (s : State) (m : Fin 4) (q : Req),
    served m 0x0001 q s = true →
    shaped q 13 [] = true →
    qf q 0 8 ≠ 0 →
    qf q 0 8 % 64 = 0 →
    (m : Nat) ≠ 3 →
    4096 ≤ qf q 8 4 ∧ qf q 8 4 ≤ 65536 ∧ qf q 8 4 % 4096 = 0 →
    (snapshot s s.hearth.snapSeq).length ≤ qf q 8 4 →
    s.host.link.up = true →
    s.host.link.d3hot = false →
    ∃ t, exec (.summary m) s = .next t ∧ Answered t m q { status := .ok, bytes := leBytes 4 (snapshot s s.hearth.snapSeq).length } ∧
      t.hearth.snapSeq = s.hearth.snapSeq + 1 ∧ ∃ rest, postedWrites t = postedWrites s ++ pieces (qf q 0 8) (snapshot s s.hearth.snapSeq) ++ rest) ∧
  (∀ (s : State),
    s.hearth.snapshot.isSome = true →
    exec .summaryExpire s = .next (wakeHearth (updHearth (fun h => { h with snapshot := none }) s))) ∧
  (∀ (s : State) (m : Fin 4) (q : Req),
    served m 0x0002 q s = true →
    shaped q 0 [] = true →
    ∃ t, exec (.identify m) s = .next t ∧ Answered t m q { status := .ok, bytes := (leBytes 4 (slotVersion s.aon.slotA) ++ leBytes 4 (slotVersion s.aon.slotB) ++
        [0xB0, if s.aon.running then 1 else 0, BitVec.ofNat 8 s.aon.rollback, BitVec.ofNat 8 s.aon.modid] ++
        ((upto 12).flatMap fun p => leBytes 2 (ptn s p).usable) ++ leBytes 32 identityDigest.toNat) }) ∧
  (∀ (s : State) (m : Fin 4) (q : Req) (oldest : Nat),
    served m 0x0003 q s = true →
    shaped q 5 [] = true →
    qf q 4 1 ≠ 0 →
    qf q 0 4 ≤ s.hearth.logSeq →
    oldest = s.hearth.logSeq - s.hearth.log.length →
    ∃ t, exec (.eventLog m) s = .next t ∧ Answered t m q { status := .ok, bytes := (leBytes 4 (max (qf q 0 4) oldest + ((s.hearth.log.filter fun e => qf q 0 4 ≤ e.seq).take (qf q 4 1)).length) ++ leBytes 4 (oldest - qf q 0 4) ++
        ((s.hearth.log.filter fun e => qf q 0 4 ≤ e.seq).take (qf q 4 1)).flatMap logBytes) }) ∧
  (∀ (s : State) (m : Fin 4) (q : Req),
    served m 0x0004 q s = true →
    shaped q 2 [] = true →
    qf q 0 2 < 4096 →
    ∃ t, exec (.clockCorr m) s = .next t ∧ Answered t m q { status := .ok, bytes := (leBytes 8 s.aon.ticks.toNat ++ (upto 12).flatMap fun p =>
        leBytes 8 (if bit (qf q 0 2) p && ((ptn s p).power == .forge || (ptn s p).power == .warm) then (ptn s p).cycles.toNat else 0)) }) ∧
  (∀ (s : State) (m : Fin 4) (q : Req) (k : Ticket) (r : Rsp),
    (mbx s m).req = some q →
    (mbx s m).state = 2 →
    hearthRuns s = true →
    q.opcode = 0x0005 →
    q.rsv = false →
    shaped q 2 [] = true →
    tget s.hearth.tickets (qf q 0 2) = some k →
    k.rsp = some r →
    ∃ t, exec (.resultGet m) s = .next t ∧ Answered t m q r ∧ tget t.hearth.tickets (qf q 0 2) = none) ∧
  (∀ (s : State) (m : Fin 4) (q : Req) (k : Ticket),
    (mbx s m).req = some q →
    (mbx s m).state = 2 →
    hearthRuns s = true →
    q.opcode = 0x0005 →
    q.rsv = false →
    shaped q 2 [] = true →
    tget s.hearth.tickets (qf q 0 2) = some k →
    k.rsp = none →
    ∃ t, exec (.resultGet m) s = .next t ∧ Answered t m q { status := .busy, ticket := qf q 0 2 } ∧ t.hearth.tickets = s.hearth.tickets) ∧
  (∀ (s : State) (m : Fin 4) (q : Req) (x : Coll) (y : CollPtn),
    served m 0x0204 q s = true →
    shaped q 3 [] = true →
    coll s (qf q 0 2) = x →
    x.state ≠ .free →
    (jobPtns s x.job).contains (qf q 2 1) = true →
    collPtn x (qf q 2 1) = y →
    ∃ t, exec (.collStats m) s = .next t ∧ Answered t m q { status := .ok, bytes := (leBytes 4 x.latest.toNat ++ leBytes 4 x.horizon.toNat ++ [BitVec.ofNat 8 x.state.code, if y.topPin then 1 else 0] ++ List.replicate 6 0 ++
        leBytes 8 y.live ++ leBytes 8 y.tomb ++ leBytes 8 y.encoded.toNat ++ leBytes 8 y.clipped.toNat ++ leBytes 4 y.winClipped) }) ∧
  (∀ (s : State) (m : Fin 4) (q : Req) (x : Ctx),
    served m 0x0420 q s = true →
    ctx? s (qf q 0 2) = some x →
    shaped q 2 [] = true →
    ∃ t, exec (.ctxStats m) s = .next t ∧ Answered t m q { status := .ok, bytes := (leBytes 8 x.counters.anvilCyc.toNat ++ leBytes 8 x.counters.nearB.toNat ++ leBytes 8 x.counters.farB.toNat ++ leBytes 8 x.counters.select.toNat ++
        leBytes 8 x.counters.cmds.toNat ++ leBytes 8 x.counters.nanDrop.toNat ++ leBytes 4 ((slowDown x.measured).getD 0) ++ leBytes 4 x.measured.length) })

/-- Partitions, jobs and contexts by mailbox (R227, R229, R310, R315, R363). -/
def Obligations.MailboxJobs : Prop :=
  (∀ (s : State) (m : Fin 4) (q : Req),
    served m 0x0101 q s = true →
    shaped q 3 [] = true →
    qf q 0 2 < 4096 →
    qf q 2 1 = 1 →
    (∀ p ∈ maskPtns q 0, (ptn s p).job = none ∧ creating s p = false) →
    ∃ t, exec (.ptnEnable m) s = .next t ∧ Answered t m q { status := .ok, bytes := [] } ∧
      ∀ p ∈ maskPtns q 0, p ∈ t.aon.ptnOos) ∧
  (∀ (s : State) (m : Fin 4) (q : Req),
    served m 0x0101 q s = true →
    shaped q 3 [] = true →
    qf q 0 2 < 4096 →
    qf q 2 1 = 0 →
    (∀ p ∈ maskPtns q 0, (ptn s p).job = none ∧ creating s p = false) →
    ∃ t, exec (.ptnEnable m) s = .next t ∧ Answered t m q { status := .ok, bytes := [] } ∧
      ∀ p ∈ maskPtns q 0, p ∉ t.aon.ptnOos) ∧
  (∀ (s : State) (m : Fin 4) (q : Req),
    served m 0x0102 q s = true →
    shaped q 13 [(2, 2)] = true →
    qf q 0 2 < 4096 →
    qf q 12 1 ≤ 2 →
    ∃ t, exec (.ptnPower m) s = .next t ∧ Answered t m q { status := .ok, bytes := [] } ∧
      ∀ p ∈ maskPtns q 0, (ptn t p).warmUs = BitVec.ofNat 32 (qf q 4 4) ∧ (ptn t p).bankedMs = BitVec.ofNat 32 (qf q 8 4)) ∧
  (∀ (s : State) (m : Fin 4) (q : Req),
    served m 0x0110 q s = true →
    (openTickets s).length < 64 →
    jobBad s q = false →
    anyFenced s (maskPtns q 2) = false →
    ∃ t, exec (.jobCreate m) s = .next t ∧ Ticketed s t m q (.jobCreate (qf q 0 1) (maskPtns q 2) false) ∧
      t.jobs = s.jobs ∧ t.ptns = ((maskPtns q 2).foldl (fun s p => claimPtn p s) s).ptns) ∧
  (∀ (s : State) (m : Fin 4) (q : Req) (v : State),
    served m 0x0111 q s = true →
    shaped q 1 [] = true →
    (job? s (qf q 0 1)).isSome = true →
    (v = updJob (qf q 0 1) (fun x => { x with ending := true }) ((jobCtxs s (qf q 0 1)).foldl (fun s c => killContext c 0 none s) s)) →
    jobQuiet v (qf q 0 1) = true →
    ∃ t, exec (.jobEnd m) s = .next t ∧ Answered t m q { status := .ok, bytes := [] } ∧
      job? t (qf q 0 1) = none ∧ (∀ c x, (c, x) ∈ t.colls → x.job ≠ qf q 0 1) ∧ ∀ c x, (c, x) ∈ t.cmds → x.job ≠ qf q 0 1) ∧
  (∀ (s : State) (m : Fin 4) (q : Req) (v : State),
    served m 0x0111 q s = true →
    (openTickets s).length < 64 →
    shaped q 1 [] = true →
    (job? s (qf q 0 1)).isSome = true →
    (v = updJob (qf q 0 1) (fun x => { x with ending := true }) ((jobCtxs s (qf q 0 1)).foldl (fun s c => killContext c 0 none s) s)) →
    jobQuiet v (qf q 0 1) = false →
    ∃ t, exec (.jobEnd m) s = .next t ∧ Ticketed s t m q (.jobEnd (qf q 0 1)) ∧
      (job? t (qf q 0 1)).any (·.ending) = true ∧ t.jobs = v.jobs) ∧
  (∀ (s : State) (m : Fin 4) (q : Req) (home : Nat),
    served m 0x0112 q s = true →
    shaped q 4 [] = true →
    qf q 0 2 ≤ 4095 →
    ctx? s (qf q 0 2) = none →
    s.ctxs.length < 256 →
    ((job? s (qf q 2 1)).any (fun x => !x.ending) = true) →
    (qf q 3 1 = 0xFF ∧ home = leastHome s (qf q 2 1)) ∨ (qf q 3 1 ≠ 0xFF ∧ (jobPtns s (qf q 2 1)).contains (qf q 3 1) = true ∧ home = qf q 3 1) →
    ∃ t, exec (.ctxCreate m) s = .next t ∧ Answered t m q { status := .ok, bytes := [BitVec.ofNat 8 home] } ∧
      ctx? t (qf q 0 2) = some { job := qf q 2 1, home := home } ∧ ∀ c, c ≠ qf q 0 2 → ctx? t c = ctx? s c) ∧
  (∀ (s : State) (m : Fin 4) (q : Req) (x : Ctx),
    served m 0x0113 q s = true →
    ctx? s (qf q 0 2) = some x →
    shaped q 2 [] = true →
    ctxCmds s (qf q 0 2) = [] →
    (s.host.rings.all (fun r => r.2.ctx != qf q 0 2) = true) →
    ∃ t, exec (.ctxDestroy m) s = .next t ∧ Answered t m q { status := .ok, bytes := [] } ∧
      ctx? t (qf q 0 2) = none ∧ ∀ p, tget (ptn t p).resident (qf q 0 2) = none)

/-- Rings, host windows, apertures, memory windows and journals by mailbox (R75, R180, R266, R269, R270, R273, R274, R310, R315). -/
def Obligations.MailboxRings : Prop :=
  (∀ (s : State) (m : Fin 4) (q : Req),
    served m 0x0114 q s = true →
    ringBad s m q = false →
    ∃ t, exec (.ringCreate m) s = .next t ∧ Answered t m q { status := .ok, bytes := [] } ∧
      ring t (qf q 0 2) = { ctx := qf q 2 2, size := qf q 4 4, sqBase := BitVec.ofNat 64 (qf q 8 8), cqBase := BitVec.ofNat 64 (qf q 16 8), vector := qf q 24 2, ccount := qf q 26 1, ctime := qf q 28 2, st := .running } ∧ ringExists t (qf q 0 2) = true ∧
      ∀ r, r ≠ qf q 0 2 → ring t r = ring s r) ∧
  (∀ (s : State) (m : Fin 4) (q : Req),
    served m 0x0115 q s = true →
    shaped q 2 [] = true →
    ringExists s (qf q 0 2) = true →
    (ring s (qf q 0 2)).st ≠ .draining →
    ringLive s (qf q 0 2) = [] →
    ∃ t, exec (.ringDestroy m) s = .next t ∧ Answered t m q { status := .ok, bytes := [] } ∧
      ringExists t (qf q 0 2) = false) ∧
  (∀ (s : State) (m : Fin 4) (q : Req),
    served m 0x0115 q s = true →
    (openTickets s).length < 64 →
    shaped q 2 [] = true →
    ringExists s (qf q 0 2) = true →
    (ring s (qf q 0 2)).st ≠ .draining →
    ringLive s (qf q 0 2) ≠ [] →
    ∃ t, exec (.ringDestroy m) s = .next t ∧ Ticketed s t m q (.ringDestroy (qf q 0 2)) ∧
      (ring t (qf q 0 2)).st = .draining ∧ (ring t (qf q 0 2)).fetched = []) ∧
  (∀ (s : State) (m : Fin 4) (q : Req),
    served m 0x0119 q s = true →
    shaped q 3 [] = true →
    ringExists s (qf q 0 2) = true →
    (ring s (qf q 0 2)).st ≠ .draining →
    qf q 2 1 = 1 →
    ∃ t, exec (.ringState m) s = .next t ∧ Answered t m q { status := .ok, bytes := [] } ∧
      ring t (qf q 0 2) = { ring s (qf q 0 2) with st := .running }) ∧
  (∀ (s : State) (m : Fin 4) (q : Req),
    served m 0x0119 q s = true →
    shaped q 3 [] = true →
    ringExists s (qf q 0 2) = true →
    (ring s (qf q 0 2)).st = .running ∨ (ring s (qf q 0 2)).st = .error →
    qf q 2 1 = 0 →
    ringLive s (qf q 0 2) = [] →
    ∃ t, exec (.ringState m) s = .next t ∧ Answered t m q { status := .ok, bytes := [] } ∧
      ring t (qf q 0 2) = { ring s (qf q 0 2) with st := .disabled }) ∧
  (∀ (s : State) (m : Fin 4) (q : Req),
    served m 0x0119 q s = true →
    (openTickets s).length < 64 →
    shaped q 3 [] = true →
    ringExists s (qf q 0 2) = true →
    (ring s (qf q 0 2)).st = .running ∨ (ring s (qf q 0 2)).st = .error →
    qf q 2 1 = 0 →
    ringLive s (qf q 0 2) ≠ [] →
    ∃ t, exec (.ringState m) s = .next t ∧ Ticketed s t m q (.ringDisable (qf q 0 2)) ∧
      ring t (qf q 0 2) = { ring s (qf q 0 2) with stopping := true }) ∧
  (∀ (s : State) (m : Fin 4) (q : Req),
    served m 0x0119 q s = true →
    shaped q 3 [] = true →
    ringExists s (qf q 0 2) = true →
    (ring s (qf q 0 2)).st = .disabled →
    qf q 2 1 = 0 →
    ∃ t, exec (.ringState m) s = .next t ∧ Answered t m q { status := .ok, bytes := [] } ∧
      ring t (qf q 0 2) = ring s (qf q 0 2)) ∧
  (∀ (s : State) (m : Fin 4) (q : Req) (x : Ctx) (hw : Tbl HWin),
    served m 0x0116 q s = true →
    shaped q 24 [(4, 4)] = true →
    ctx? s (qf q 0 2) = some x →
    qf q 2 1 ≤ 7 →
    qf q 3 1 ≤ 3 →
    qf q 8 8 % 4096 = 0 →
    qf q 16 8 % 4096 = 0 →
    (m : Nat) ≠ 3 ∨ qf q 8 8 = 0 →
    hw = (if qf q 3 1 = 0 then tdel x.hwins (qf q 2 1) else tset x.hwins (qf q 2 1) { base := qf q 8 8, len := qf q 16 8, r := bit (qf q 3 1) 0, w := bit (qf q 3 1) 1 }) →
    windowsCover { s with ctxs := tset s.ctxs (qf q 0 2) { x with hwins := hw } } (qf q 0 2) = true →
    ∃ t, exec (.hwinSet m) s = .next t ∧ Answered t m q { status := .ok, bytes := [] } ∧
      ctx? t (qf q 0 2) = some { x with hwins := hw }) ∧
  (∀ (s : State) (m : Fin 4) (q : Req) (rs : List Nat),
    served m 0x0117 q s = true →
    shaped q 8 [] = true →
    qf q 2 1 = 0 →
    96 ≤ qf q 4 2 →
    1 ≤ qf q 6 2 →
    qf q 4 2 + qf q 6 2 ≤ 4096 →
    (ctxPtns s (qf q 0 2)).contains (qf q 3 1) = true →
    rs = lowestFree s (qf q 3 1) (qf q 6 2) →
    (((upto (qf q 6 2)).map (qf q 4 2 + ·)).any (fun a => (tget s.host.apertures a).isSome) = false) →
    rs.length = qf q 6 2 →
    ∃ t, exec (.hdmMap m) s = .next t ∧ Answered t m q { status := .ok, bytes := leBytes 8 (qf q 4 2 * 2 ^ 24) } ∧
      t.host.apertures = (((upto (qf q 6 2)).map (qf q 4 2 + ·)).zip rs).foldl (fun t a => tset t a.1 { ctx := qf q 0 2, ptn := qf q 3 1, region := a.2 }) s.host.apertures) ∧
  (∀ (s : State) (m : Fin 4) (q : Req),
    served m 0x0117 q s = true →
    shaped q 8 [] = true →
    qf q 2 1 = 1 →
    96 ≤ qf q 4 2 →
    1 ≤ qf q 6 2 →
    qf q 4 2 + qf q 6 2 ≤ 4096 →
    (ctxPtns s (qf q 0 2)).contains (qf q 3 1) = true →
    (((upto (qf q 6 2)).map (qf q 4 2 + ·)).all (fun a => (tget s.host.apertures a).any fun k => k.ctx == qf q 0 2) = true) →
    ∃ t, exec (.hdmMap m) s = .next t ∧ Answered t m q { status := .ok, bytes := leBytes 8 (qf q 4 2 * 2 ^ 24) } ∧
      ∀ a, qf q 4 2 ≤ a → a < qf q 4 2 + qf q 6 2 → tget t.host.apertures a = none) ∧
  (∀ (s : State) (m : Fin 4) (q : Req) (x : Ctx) (g : Nat),
    served m 0x0118 q s = true →
    ctx? s (qf q 0 2) = some x →
    tget x.mwins (qf q 2 1) = none →
    shaped q 8 [(5, 1)] = true →
    qf q 2 1 ≤ 15 →
    qf q 3 1 ≤ 7 →
    qf q 3 1 ≠ 0 →
    (jobPtns s x.job).contains (qf q 4 1) = true →
    1 ≤ qf q 6 2 →
    qf q 6 2 ≤ 256 →
    regionRun s (qf q 4 1) (qf q 6 2) = some g →
    ∃ t, exec (.mwinSet m) s = .next t ∧ Answered t m q { status := .ok, bytes := leBytes 8 (regionBase (qf q 4 1) g) } ∧
      ctx? t (qf q 0 2) = some { x with mwins := tset x.mwins (qf q 2 1) { ptn := qf q 4 1, region := g, regions := qf q 6 2, r := bit (qf q 3 1) 0, w := bit (qf q 3 1) 1, a := bit (qf q 3 1) 2 } }) ∧
  (∀ (s : State) (m : Fin 4) (q : Req) (x : Ctx),
    served m 0x0118 q s = true →
    ctx? s (qf q 0 2) = some x →
    shaped q 8 [(5, 1)] = true →
    qf q 2 1 ≤ 15 →
    qf q 3 1 = 0 →
    ∃ t, exec (.mwinSet m) s = .next t ∧ Answered t m q { status := .ok, bytes := leBytes 8 0 } ∧
      (ctx? t (qf q 0 2)).any (fun y => tget y.mwins (qf q 2 1) == none) = true) ∧
  (∀ (s : State) (m : Fin 4) (q : Req) (x : Ctx),
    served m 0x0120 q s = true →
    shaped q 20 [(2, 6)] = true →
    ctx? s (qf q 0 2) = some x →
    journalBusy s (qf q 0 2) = false →
    (m : Nat) ≠ 3 ∨ qf q 8 8 = 0 →
    qf q 16 4 = 0 →
    ∃ t, exec (.journalSet m) s = .next t ∧ Answered t m q { status := .ok, bytes := [] } ∧
      ctx? t (qf q 0 2) = some { x with journal := none }) ∧
  (∀ (s : State) (m : Fin 4) (q : Req) (x : Ctx),
    served m 0x0120 q s = true →
    shaped q 20 [(2, 6)] = true →
    ctx? s (qf q 0 2) = some x →
    journalBusy s (qf q 0 2) = false →
    (m : Nat) ≠ 3 ∨ qf q 8 8 = 0 →
    qf q 16 4 ≥ 65536 →
    qf q 8 8 % 4096 = 0 →
    qf q 16 4 % 4096 = 0 →
    inWindow s (qf q 0 2) (qf q 8 8) (qf q 16 4) true true = true →
    cacheUsable s = true →
    ∃ t, exec (.journalSet m) s = .next t ∧ Answered t m q { status := .ok, bytes := [] } ∧
      ctx? t (qf q 0 2) = some { x with journal := some { base := BitVec.ofNat 64 (qf q 8 8), size := qf q 16 4, unread := true } } ∧
      t.host.cache = s.host.cache ++ [{ kind := .data, addr := BitVec.ofNat 64 (qf q 8 8) + 8, bytes := leBytes 8 64 }])

/-- Collections, filters and patterns by mailbox (R53, R54, R111, R122, R315–R317). -/
def Obligations.MailboxCollections : Prop :=
  (∀ (s : State) (m : Fin 4) (q : Req),
    served m 0x0201 q s = true →
    collCreateBad s q = false →
    hasSparse (reqColl q) = false →
    ∃ t, exec (.collCreate m) s = .next t ∧ Answered t m q { status := .ok, bytes := leBytes 4 1 } ∧
      coll t (qf q 0 2) = { reqColl q with ptns := (jobPtns s (reqColl q).job).map fun p => (p, {}) } ∧ ∀ c, c ≠ qf q 0 2 → coll t c = coll s c) ∧
  (∀ (s : State) (m : Fin 4) (q : Req) (u : State),
    served m 0x0201 q s = true →
    collCreateBad s q = false →
    hasSparse (reqColl q) = true →
    ((jobPtns s (reqColl q).job).foldl (fun o p => o.bind (takePostings (qf q 0 2) p)) (some (demandAll (jobPtns s (reqColl q).job) { s with colls := tset s.colls (qf q 0 2) { reqColl q with ptns := (jobPtns s (reqColl q).job).map fun p => (p, {}) } })) = some u) →
    ∃ t, exec (.collCreate m) s = .next t ∧ Answered t m q { status := .ok, bytes := leBytes 4 1 } ∧
      t.colls = u.colls ∧ t.ptns = u.ptns) ∧
  (∀ (s : State) (m : Fin 4) (q : Req),
    served m 0x0202 q s = true →
    shaped q 2 [] = true →
    (coll s (qf q 0 2)).state ≠ .free →
    (coll s (qf q 0 2)).deleting = false →
    collCmds s (qf q 0 2) = [] →
    ∃ t, exec (.collDelete m) s = .next t ∧ Answered t m q { status := .ok, bytes := [] } ∧
      tget t.colls (qf q 0 2) = none) ∧
  (∀ (s : State) (m : Fin 4) (q : Req),
    served m 0x0202 q s = true →
    (openTickets s).length < 64 →
    shaped q 2 [] = true →
    (coll s (qf q 0 2)).state ≠ .free →
    (coll s (qf q 0 2)).deleting = false →
    collCmds s (qf q 0 2) ≠ [] →
    ∃ t, exec (.collDelete m) s = .next t ∧ Ticketed s t m q (.collDelete (qf q 0 2)) ∧
      (coll t (qf q 0 2)).deleting = true) ∧
  (∀ (s : State) (m : Fin 4) (q : Req),
    served m 0x0202 q s = true →
    (openTickets s).length < 64 →
    shaped q 2 [] = true →
    (coll s (qf q 0 2)).state ≠ .free →
    (coll s (qf q 0 2)).deleting = true →
    ∃ t, exec (.collDelete m) s = .next t ∧ Ticketed s t m q (.collDelete (qf q 0 2)) ∧
      t.colls = s.colls) ∧
  (∀ (s : State) (m : Fin 4) (q : Req),
    served m 0x0203 q s = true →
    collSetBad (coll s (qf q 0 2)) q = false →
    ∃ t, exec (.collSet m) s = .next t ∧ Answered t m q { status := .ok, bytes := [] } ∧
      coll t (qf q 0 2) = applyCollSet q (coll s (qf q 0 2))) ∧
  (∀ (s : State) (m : Fin 4) (q : Req) (reply : ReadReply),
    served m 0x0210 q s = true →
    (openTickets s).length < 64 →
    trainBad s m q = false →
    (coll s (qf q 0 2)).state ≠ .training →
    (coll s (qf q 0 2)).state ≠ .redistributing →
    qf q 4 1 = 0 →
    ∃ t, exec (.collTrain m reply) s = .next t ∧ Ticketed s t m q (.train (qf q 0 2) false) ∧
      (coll t (qf q 0 2)).state = .training ∧ (coll t (qf q 0 2)).trainLevels = qf q 5 1 ∧ (coll t (qf q 0 2)).trainLeaves = qf q 8 4 ∧ (coll t (qf q 0 2)).trainSource = 0) ∧
  (∀ (s : State) (m : Fin 4) (q : Req) (bs : List Byte),
    served m 0x0210 q s = true →
    (openTickets s).length < 64 →
    trainBad s m q = false →
    (coll s (qf q 0 2)).state ≠ .training →
    (coll s (qf q 0 2)).state ≠ .redistributing →
    qf q 4 1 ≠ 0 →
    (sampleRows (coll s (qf q 0 2)) q bs).any (rowBad ((coll s (qf q 0 2)).metric == 2)) = false →
    ∃ t, exec (.collTrain m (.data bs)) s = .next t ∧ Ticketed s t m q (.train (qf q 0 2) false) ∧
      (coll t (qf q 0 2)).state = .training ∧ (coll t (qf q 0 2)).trainLevels = qf q 5 1 ∧ (coll t (qf q 0 2)).trainLeaves = qf q 8 4 ∧ (coll t (qf q 0 2)).trainSource = qf q 4 1) ∧
  (∀ (s : State) (m : Fin 4) (q : Req) (bs : List Byte),
    served m 0x0210 q s = true →
    (openTickets s).length < 64 →
    trainBad s m q = false →
    (coll s (qf q 0 2)).state ≠ .training →
    (coll s (qf q 0 2)).state ≠ .redistributing →
    qf q 4 1 ≠ 0 →
    (sampleRows (coll s (qf q 0 2)) q bs).any (rowBad ((coll s (qf q 0 2)).metric == 2)) = true →
    ∃ t, exec (.collTrain m (.data bs)) s = .next t ∧ Ticketed s t m q (.ready .range [] 0) ∧
      t.colls = s.colls) ∧
  (∀ (s : State) (m : Fin 4) (q : Req) (reply : ReadReply),
    served m 0x0210 q s = true →
    (openTickets s).length < 64 →
    trainBad s m q = false →
    (coll s (qf q 0 2)).state = .training ∨ (coll s (qf q 0 2)).state = .redistributing →
    ∃ t, exec (.collTrain m reply) s = .next t ∧ Ticketed s t m q (.train (qf q 0 2) true) ∧
      (coll t (qf q 0 2)).trainIgnored = (coll s (qf q 0 2)).trainIgnored + 1 ∧ (coll t (qf q 0 2)).state = (coll s (qf q 0 2)).state) ∧
  (∀ (s : State) (m : Fin 4) (q : Req) (x : Ctx),
    served m 0x0220 q s = true →
    ctx? s (qf q 0 2) = some x →
    qf q 2 1 ≤ 254 →
    qf q 3 1 = 1 →
    q.len = 4 →
    ∃ t, exec (.filterLoad m) s = .next t ∧ Answered t m q { status := .ok, bytes := [] } ∧
      ctx? t (qf q 0 2) = some { x with filters := tdel x.filters (qf q 2 1) }) ∧
  (∀ (s : State) (m : Fin 4) (q : Req) (x : Ctx) (prog : List W32),
    served m 0x0220 q s = true →
    ctx? s (qf q 0 2) = some x →
    qf q 2 1 ≤ 254 →
    qf q 3 1 = 0 →
    1 ≤ qf q 4 1 →
    qf q 4 1 ≤ 64 →
    zeroAt q.bytes 5 3 = true →
    q.len = 8 + 4 * qf q 4 1 →
    (prog = (upto (qf q 4 1)).map fun i => BitVec.ofNat 32 (qf q (8 + 4 * i) 4)) →
    filterCheck prog 1 0 = none →
    ∃ t, exec (.filterLoad m) s = .next t ∧ Answered t m q { status := .ok, bytes := [] } ∧
      ctx? t (qf q 0 2) = some { x with filters := tset x.filters (qf q 2 1) prog }) ∧
  (∀ (s : State) (m : Fin 4) (q : Req) (i : Nat),
    served m 0x0220 q s = true →
    (ctx? s (qf q 0 2)).isSome = true →
    qf q 2 1 ≤ 254 →
    qf q 3 1 = 0 →
    1 ≤ qf q 4 1 →
    qf q 4 1 ≤ 64 →
    zeroAt q.bytes 5 3 = true →
    q.len = 8 + 4 * qf q 4 1 →
    (filterCheck ((upto (qf q 4 1)).map fun i => BitVec.ofNat 32 (qf q (8 + 4 * i) 4)) 1 0 = some i) →
    ∃ t, exec (.filterLoad m) s = .next t ∧ Answered t m q { status := .invalidField, bytes := [], detail := i } ∧
      t.ctxs = s.ctxs) ∧
  (∀ (s : State) (m : Fin 4) (q : Req) (bs img : List Byte) (k : Pattern) (u v : State),
    served m 0x0301 q s = true →
    shaped q 20 [(2, 6)] = true →
    (ctx? s (qf q 0 2)).isSome = true →
    48 ≤ qf q 16 4 →
    qf q 16 4 ≤ 32 + 16 * 640 →
    qf q 16 4 % 16 = 0 →
    (m : Nat) ≠ 3 ∨ qf q 8 8 = 0 →
    inWindow s (qf q 0 2) (qf q 8 8) (qf q 16 4) true false = true →
    img = padBytes (qf q 16 4) bs →
    k = { header := img.take 32, steps := imageSteps img, ver := s.hearth.patSeq + 1 } →
    patternCheck k.header k.steps = none →
    (v = updCtx (qf q 0 2) (fun x => { x with patterns := tset x.patterns (field img 0 2) k }) (updHearth (fun h => { h with patSeq := h.patSeq + 1 }) (retirePattern (qf q 0 2) (field img 0 2) s))) →
    ((liveVersions v (qf q 0 2)).foldl (fun n k => n + k.steps.length) 0 ≤ 640) →
    loadEverywhere (qf q 0 2) v = some u →
    ∃ t, exec (.patternLoad m (.data bs)) s = .next t ∧ Answered t m q { status := .ok, bytes := shake256 img 32 } ∧
      t.ctxs = u.ctxs ∧ t.ptns = u.ptns ∧ t.jobs = (measureLoad (qf q 0 2) (field img 0 2) img u).jobs) ∧
  (∀ (s : State) (m : Fin 4) (q : Req) (bs img : List Byte) (i : Nat),
    served m 0x0301 q s = true →
    shaped q 20 [(2, 6)] = true →
    (ctx? s (qf q 0 2)).isSome = true →
    48 ≤ qf q 16 4 →
    qf q 16 4 ≤ 32 + 16 * 640 →
    qf q 16 4 % 16 = 0 →
    (m : Nat) ≠ 3 ∨ qf q 8 8 = 0 →
    inWindow s (qf q 0 2) (qf q 8 8) (qf q 16 4) true false = true →
    img = padBytes (qf q 16 4) bs →
    patternCheck (img.take 32) (imageSteps img) = some i →
    ∃ t, exec (.patternLoad m (.data bs)) s = .next t ∧ Answered t m q { status := .invalidField, bytes := [], detail := i } ∧
      t.ctxs = s.ctxs ∧ t.jobs = s.jobs) ∧
  (∀ (s : State) (m : Fin 4) (q : Req),
    served m 0x0302 q s = true →
    shaped q 4 [] = true →
    ((ctx? s (qf q 0 2)).any (fun x => (tget x.patterns (qf q 2 2)).isSome) = true) →
    ∃ t, exec (.patternUnload m) s = .next t ∧ Answered t m q { status := .ok, bytes := [] } ∧
      ∀ y, ctx? t (qf q 0 2) = some y → tget y.patterns (qf q 2 2) = none)

/-- Rounds, shares, regulators, pins, routes, tests and resets by mailbox (R200, R201, R211, R233, R238, R315, R335, R337, R424–R428). -/
def Obligations.MailboxRoundsAndTests : Prop :=
  (∀ (s : State) (m : Fin 4) (q : Req),
    served m 0x0401 q s = true →
    roundBad s q = false →
    ∃ t, exec (.roundLoad m) s = .next t ∧ Answered t m q { status := .ok, bytes := [] } ∧
      (ptn t (qf q 0 1)).round.next = some ((upto (qf q 2 2)).map (reqSlot q)) ∧ (ptn t (qf q 0 1)).round.nextBfres = qf q 1 1 ∧ (ptn t (qf q 0 1)).vtime = []) ∧
  (∀ (s : State) (m : Fin 4) (q : Req) (x : Ctx),
    served m 0x0410 q s = true →
    shaped q 6 [] = true →
    ctx? s (qf q 0 2) = some x →
    qf q 2 2 < 4096 →
    ((maskPtns q 2).all (fun p => (ctxPtns s (qf q 0 2)).contains p) = true) →
    1 ≤ qf q 4 2 →
    qf q 4 2 ≤ 1000 →
    ∃ t, exec (.sharesSet m) s = .next t ∧ Answered t m q { status := .ok, bytes := [] } ∧
      ctx? t (qf q 0 2) = some { x with shares := (maskPtns q 2).foldl (fun t p => tset t p (qf q 4 2)) x.shares }) ∧
  (∀ (s : State) (m : Fin 4) (q : Req) (g : Reg),
    served m 0x0411 q s = true →
    shaped q 10 [(1, 1)] = true →
    qf q 0 1 ≤ 11 →
    qf q 2 2 ≤ qf q 4 2 →
    qf q 4 2 ≤ 51200 →
    qf q 6 2 ≤ qf q 8 2 →
    qf q 8 2 ≤ 51200 →
    g = (ptn s (qf q 0 1)).reg →
    ∃ t, exec (.regSet m) s = .next t ∧ Answered t m q { status := .ok, bytes := [] } ∧
      ∃ i e, (ptn t (qf q 0 1)).reg = { g with issMin := qf q 2 2, issMax := qf q 4 2, rcvMin := qf q 6 2, rcvMax := qf q 8 2, rcv := (qf q 6 2 + qf q 8 2) / 2, rcvEff := e, iss := i, seen := [], rcvWaited := 0, issWaited := 0, blocked := 0, conflict := decide (e < qf q 6 2) } ∧
      e = min ((qf q 6 2 + qf q 8 2) / 2) (stepRate (ptn s (qf q 0 1)).temp.step / 2) ∧
      qf q 2 2 ≤ i ∧ i ≤ qf q 4 2) ∧
  (∀ (s : State) (m : Fin 4) (q : Req) (x : Ptn),
    served m 0x0412 q s = true →
    shaped q 20 [(3, 5)] = true →
    (ctx? s (qf q 0 2)).isSome = true →
    qf q 2 1 = 0 →
    qf q 8 8 % 64 = 0 →
    qf q 16 4 % 64 = 0 →
    qf q 16 4 ≠ 0 →
    inJobWindow s (ctxJob s (qf q 0 2)) (qf q 8 8) (qf q 16 4) = true →
    addPin { start := stackOff (qf q 8 8), len := qf q 16 4, why := .software (ctxJob s (qf q 0 2)) } (ptn (demand (homePtn (qf q 8 8)) s) (homePtn (qf q 8 8))) = some x →
    ∃ t, exec (.crucPin m) s = .next t ∧ Answered t m q { status := .ok, bytes := [] } ∧
      (ptn t (homePtn (qf q 8 8))).pins = { start := stackOff (qf q 8 8), len := qf q 16 4, why := .software (ctxJob s (qf q 0 2)) } :: (ptn s (homePtn (qf q 8 8))).pins) ∧
  (∀ (s : State) (m : Fin 4) (q : Req),
    served m 0x0412 q s = true →
    shaped q 20 [(3, 5)] = true →
    (ctx? s (qf q 0 2)).isSome = true →
    qf q 2 1 = 2 →
    qf q 8 8 % 64 = 0 →
    qf q 16 4 % 64 = 0 →
    qf q 16 4 ≠ 0 →
    inJobWindow s (ctxJob s (qf q 0 2)) (qf q 8 8) (qf q 16 4) = true →
    ∃ t, exec (.crucPin m) s = .next t ∧ Answered t m q { status := .ok, bytes := [] } ∧
      ∀ l ∈ (ptn t (homePtn (qf q 8 8))).locked, inRange (stackOff (qf q 8 8)) (qf q 16 4) l.1 = false) ∧
  (∀ (s : State) (m : Fin 4) (q : Req),
    served m 0x0412 q s = true →
    shaped q 20 [(3, 5)] = true →
    (ctx? s (qf q 0 2)).isSome = true →
    qf q 2 1 = 1 →
    qf q 8 8 % 64 = 0 →
    qf q 16 4 % 64 = 0 →
    qf q 16 4 ≠ 0 →
    inJobWindow s (ctxJob s (qf q 0 2)) (qf q 8 8) (qf q 16 4) = true →
    ∃ t, exec (.crucPin m) s = .next t ∧ Answered t m q { status := .ok, bytes := [] } ∧
      t.ptns = (retryPins (ctxJob s (qf q 0 2)) (updPtn (homePtn (qf q 8 8)) (fun x => { x with pins := cutPins (stackOff (qf q 8 8)) (qf q 16 4) x.pins }) s)).ptns) ∧
  (∀ (s : State) (m : Fin 4) (q : Req),
    served m 0x0501 q s = true →
    (openTickets s).length < 64 →
    routesBad s q = false →
    spanningBusy s = true →
    ∃ t, exec (.icernRouteSet m) s = .next t ∧ Ticketed s t m q (.held q .timeout) ∧
      t.icern.hold = true ∧ t.aon = s.aon) ∧
  (∀ (s : State) (m : Fin 4) (q : Req) (u : State),
    served m 0x0501 q s = true →
    routesBad s q = false →
    spanningBusy s = false →
    (u = updAon (fun a => { a with modid := qf q 0 1, enable := BitVec.ofNat 4 (qf q 1 1), peers := (upto 4).map fun n => qf q (2 + n) 1, dateline := BitVec.ofNat 4 (qf q 6 1), routes := (upto 64).map fun i => BitVec.ofNat 16 (qf q (8 + 2 * i) 2) }) (updIcern (fun i => { i with hold := true }) s)) →
    ∃ t, exec (.icernRouteSet m) s = .next t ∧ Answered t m q { status := .ok, bytes := [] } ∧
      t.icern.hold = false ∧ t.aon = ((upto 4).foldl (fun s n => setPort (qf q 1 1) n s) u).aon) ∧
  (∀ (s : State) (m : Fin 4) (bad : List BadWord) (q : Req),
    served m 0x0801 q s = true →
    (openTickets s).length < 64 →
    assayBad s q = false →
    ∃ t, exec (.assayRun m bad) s = .next t ∧ Ticketed s t m q (.test (maskPtns q 0) (coldOnes s (maskPtns q 0)) (assayResponse (assayRecs s q bad))) ∧
      t.hearth.assays = (assayRecs s q bad).foldl (fun m r => tset m r.1 r.2)
        (s.hearth.assays.filter fun r => !((maskPtns q 0).contains (r.1 / 64) && bit (qf q 2 4) (r.1 % 64 / 2))) ∧ t.free = s.free + 768) ∧
  (∀ (s : State) (m : Fin 4) (q : Req) (a : AssayRec),
    served m 0x0802 q s = true →
    shaped q 4 [(3, 1)] = true →
    qf q 0 1 ≤ 11 →
    qf q 1 1 ≤ 31 →
    qf q 2 1 ≤ 1 →
    tget s.hearth.assays (assayKey (qf q 0 1) (qf q 1 1) (qf q 2 1)) = some a →
    ∃ t, exec (.assayLog m) s = .next t ∧ Answered t m q { status := .ok, bytes := assayBytes a }) ∧
  (∀ (s : State) (m : Fin 4) (errs : List Nat) (q : Req),
    served m 0x0810 q s = true →
    (openTickets s).length < 64 →
    marginBad s m q = false →
    (if qf q 16 8 = 0 then 4096 else qf q 24 4) < (marginOutput q errs).length →
    ∃ t, exec (.marginRun m errs) s = .next t ∧ Ticketed s t m q (.ready .range [] 0) ∧ t.hbm = s.hbm) ∧
  (∀ (s : State) (m : Fin 4) (errs : List Nat) (q : Req),
    served m 0x0810 q s = true →
    (openTickets s).length < 64 →
    marginBad s m q = false →
    qf q 16 8 = 0 →
    (marginOutput q errs).length ≤ 4096 →
    ∃ t, exec (.marginRun m errs) s = .next t ∧ Ticketed s t m q (.test [qf q 0 1] (coldOnes s [qf q 0 1]) (marginOutput q errs)) ∧
      t.hearth.underTest = s.hearth.underTest ++ (bitsOf 32 (qf q 8 4)).map fun c => (qf q 0 1, c)) ∧
  (∀ (s : State) (m : Fin 4) (errs : List Nat) (q : Req),
    served m 0x0810 q s = true →
    (openTickets s).length < 64 →
    marginBad s m q = false →
    qf q 16 8 ≠ 0 →
    (marginOutput q errs).length ≤ qf q 24 4 →
    s.host.link.up = true →
    s.host.link.d3hot = false →
    ∃ t, exec (.marginRun m errs) s = .next t ∧ Ticketed s t m q (.test [qf q 0 1] (coldOnes s [qf q 0 1]) []) ∧
      (∃ rest, postedWrites t = postedWrites s ++ pieces (qf q 16 8) (marginOutput q errs) ++ rest) ∧
      t.hearth.underTest = s.hearth.underTest ++ (bitsOf 32 (qf q 8 4)).map fun c => (qf q 0 1, c)) ∧
  (∀ (s : State) (m : Fin 4) (q : Req),
    served m 0x0601 q s = true →
    (openTickets s).length < 64 →
    shaped q 1 [] = true →
    qf q 0 1 ≤ 11 →
    ∃ t, exec (.resetPtn m) s = .next t ∧ Ticketed s t m q (.reset (qf q 0 1)) ∧
      t.levels = (startL2 (qf q 0 1) 0 false true s).levels ∧ t.ptns = (startL2 (qf q 0 1) 0 false true s).ptns) ∧
  (∀ (s : State) (m : Fin 4) (q : Req),
    served m 0x0602 q s = true →
    shaped q 1 [] = true →
    qf q 0 1 = 0xC3 →
    ∃ t u, exec (.resetChip m) s = .next t ∧ Answered u m q { status := .ok } ∧ u.aon = s.aon ∧ u.ptns = s.ptns ∧
      t = { startL3 0 u with levels := (startL3 0 u).levels.map fun l => if l.level = .l3 then { l with soft := true } else l })

/-- Firmware slots and attestation (R321–R323, R370, R371, R374, R378, R380). -/
def Obligations.MailboxFirmware : Prop :=
  (∀ (s : State) (m : Fin 4) (q : Req),
    served m 0x0701 q s = true →
    qf q 0 1 = 0 →
    shaped q 2 [] = true →
    s.hearth.stage = none →
    s.hearth.recovery = false →
    qf q 1 1 = 0xFF ∨ (qf q 1 1 ≤ 1 ∧ (qf q 1 1 == 1) = idleSlot s) →
    ∃ t, exec (.fwStageBegin m) s = .next t ∧ Answered t m q { status := .ok, bytes := [] } ∧
      t.hearth.stage = some { mbx := m, slot := if idleSlot s then 1 else 0 } ∧ fwSlot t.aon (idleSlot s) = {}) ∧
  (∀ (s : State) (m : Fin 4) (q : Req) (reply : ReadReply) (g : FwStage),
    served m 0x0701 q s = true →
    qf q 0 1 = 1 →
    q.len ≠ 0 →
    s.hearth.stage = some g →
    g.mbx = m →
    stageDataBad m q g = false →
    qf q 16 8 = 0 →
    ∃ t, exec (.fwStageData m reply) s = .next t ∧ Answered t m q { status := .ok, bytes := [] } ∧
      t.hearth.stage = some { g with bytes := g.bytes ++ padBytes (qf q 8 4) (q.bytes.drop 32) }) ∧
  (∀ (s : State) (m : Fin 4) (q : Req) (bs : List Byte) (g : FwStage),
    served m 0x0701 q s = true →
    qf q 0 1 = 1 →
    q.len ≠ 0 →
    s.hearth.stage = some g →
    g.mbx = m →
    stageDataBad m q g = false →
    qf q 16 8 ≠ 0 →
    ∃ t, exec (.fwStageData m (.data bs)) s = .next t ∧ Answered t m q { status := .ok, bytes := [] } ∧
      t.hearth.stage = some { g with bytes := g.bytes ++ padBytes (qf q 8 4) bs }) ∧
  (∀ (s : State) (m : Fin 4) (q : Req) (g : FwStage) (x : FwSlot) (st : MStatus) (bs : List Byte),
    served m 0x0701 q s = true →
    (openTickets s).length < 64 →
    qf q 0 1 = 2 →
    q.len ≠ 0 →
    shaped q 8 [(1, 3)] = true →
    s.hearth.stage = some g →
    g.mbx = m →
    verifyImage s.aon (qf q 4 4) g.bytes = (x, st, bs) →
    ∃ t, exec (.fwStageFinish m) s = .next t ∧ Ticketed s t m q (.ready st bs 0) ∧
      t.hearth.stage = none ∧ fwSlot t.aon (g.slot == 1) = x) ∧
  (∀ (s : State) (m : Fin 4) (q : Req) (g : FwStage),
    served m 0x0701 q s = true →
    qf q 0 1 = 3 →
    q.len ≠ 0 →
    shaped q 1 [] = true →
    s.hearth.stage = some g →
    g.mbx = m →
    ∃ t, exec (.fwStageAbort m) s = .next t ∧ Answered t m q { status := .ok, bytes := [] } ∧
      t.hearth.stage = none ∧ fwSlot t.aon (g.slot == 1) = {}) ∧
  (∀ (s : State) (m : Fin 4) (q : Req),
    served m 0x0702 q s = true →
    qf q 0 1 = 0 →
    q.len ≠ 0 →
    shaped q 1 [] = true →
    trialBad s q = false →
    ∃ t, exec (.fwActivateTrial m) s = .next t ∧ Answered t m q { status := .ok, bytes := [] } ∧
      t.aon = { s.aon with trial := true, running := !s.aon.running } ∧ t.hearthUp = false ∧ t.hearth.restarting = true ∧ t.hearth.awake = false ∧ t.hearth.sessions = []) ∧
  (∀ (s : State) (m : Fin 4) (q : Req),
    served m 0x0702 q s = true →
    qf q 0 1 = 1 →
    q.len ≠ 0 →
    shaped q 1 [] = true →
    s.aon.trial = true →
    (fwSlot s.aon s.aon.running).sv ≤ s.aon.rollback →
    ∃ t, exec (.fwActivateCommit m) s = .next t ∧ Answered t m q { status := .ok, bytes := [] } ∧
      t.aon = { s.aon with committed := s.aon.running, trial := false }) ∧
  (∀ (s : State) (m : Fin 4) (q : Req),
    served m 0x0702 q s = true →
    (openTickets s).length < 64 →
    qf q 0 1 = 1 →
    q.len ≠ 0 →
    shaped q 1 [] = true →
    s.aon.trial = true →
    s.aon.rollback < (fwSlot s.aon s.aon.running).sv →
    ∃ t, exec (.fwActivateCommit m) s = .next t ∧ Ticketed s t m q (.raise (fwSlot s.aon s.aon.running).sv) ∧
      t.aon = { s.aon with committed := s.aon.running, trial := false }) ∧
  (∀ (s : State) (m : Fin 4) (q : Req),
    served m 0x0702 q s = true →
    qf q 0 1 = 2 →
    q.len ≠ 0 →
    shaped q 1 [] = true →
    s.aon.trial = true →
    slotValid s.aon s.aon.committed = true →
    ∃ t, exec (.fwActivateRevert m) s = .next t ∧ Answered t m q { status := .ok, bytes := [] } ∧
      t.aon = { s.aon with trial := false, running := s.aon.committed } ∧ t.hearthUp = false ∧ t.hearth.restarting = true) ∧
  (∀ (s : State) (m : Fin 4) (q : Req),
    served m 0x0702 q s = true →
    qf q 0 1 = 3 →
    q.len ≠ 0 →
    shaped q 1 [] = true →
    slotValid s.aon (!s.aon.running) = true →
    ∃ t, exec (.fwActivateNextReset m) s = .next t ∧ Answered t m q { status := .ok, bytes := [] } ∧
      t.aon = { s.aon with nextReset := some (!s.aon.running) }) ∧
  (∀ (s : State) (m : Fin 4) (q : Req) (k : SpdmKind) (body : List Byte),
    served m 0x0710 q s = true →
    qf q 0 1 ≤ 1 →
    qf q 2 2 ≠ 0 →
    qf q 2 2 ≤ 4092 →
    shaped q (4 + qf q 2 2) [(1, 1)] = true →
    k = attestKind s (qf q 0 1 == 1) (q.bytes.drop 4) →
    body = (spdmReply s .attest k (q.bytes.drop 4)).take 4092 →
    ∃ t, exec (.attest m) s = .next t ∧ Answered t m q { status := .ok, bytes := [BitVec.ofNat 8 (qf q 0 1), 0] ++ leBytes 2 body.length ++ body } ∧
      t.hearth.sessions = (spdmSession .attest k s).hearth.sessions ∧
      t.hearth.negotiated = (if isSecured k then s else negotiate .attest (q.bytes.drop 4) s).hearth.negotiated ∧
      t.hearth.versioned = (if isSecured k then s else negotiate .attest (q.bytes.drop 4) s).hearth.versioned ∧ t.free = s.free + 1) ∧
  (∀ (s : State) (tr : SpdmTransport) (k : SpdmKind) (msg : List Byte),
    s.hearthUp = true →
    tr ≠ .attest →
    ∃ t, exec (.spdmMessage tr k msg) s = .next t ∧ t.host.answer = .data (spdmReply s tr k msg) false ∧ t.hearth.sessions = (spdmSession tr k s).hearth.sessions ∧
      t.hearth.negotiated = (if isSecured k then s else negotiate tr msg s).hearth.negotiated ∧
      t.hearth.versioned = (if isSecured k then s else negotiate tr msg s).hearth.versioned ∧ t.free = s.free + 1)

/-- How a command that was answered BUSY ends (R310, with R111, R227, R273, R274, R425). -/
def Obligations.BusyCommands : Prop :=
  (∀ (s : State) (n : Nat) (k : Ticket) (x : Job),
    tget s.hearth.tickets n = some k →
    k.rsp = none →
    (hearthRuns s || s.hearth.recovery) = true →
    k.work = .jobCreate (qf k.req 0 1) [] false →
    job? (makeJob k.req s) (qf k.req 0 1) = some x →
    ∃ t, exec (.busyComplete n) s = .next t ∧ tget t.hearth.tickets n = some { k with rsp := some { status := .ok, bytes := [BitVec.ofNat 8 (jobMode x)], ticket := 0, detail := 0 } } ∧ bit t.host.evtPend.toNat 14 = true ∧
      t.jobs = (makeJob k.req s).jobs ∧ t.ptns = (makeJob k.req s).ptns ∧ x.ptns = maskPtns k.req 2 ∧ x.modules = qf k.req 4 1) ∧
  (∀ (s : State) (n : Nat) (k : Ticket) (j : Nat) (l : List Nat),
    tget s.hearth.tickets n = some k →
    k.rsp = none →
    (hearthRuns s || s.hearth.recovery) = true →
    k.work = .jobCreate j l true →
    ∃ t, exec (.busyComplete n) s = .next t ∧ tget t.hearth.tickets n = some { k with rsp := some { status := .fenced, bytes := [], ticket := 0, detail := 0 } } ∧ bit t.host.evtPend.toNat 14 = true ∧
      t.jobs = s.jobs) ∧
  (∀ (s : State) (n : Nat) (k : Ticket) (j : Nat),
    tget s.hearth.tickets n = some k →
    k.rsp = none →
    (hearthRuns s || s.hearth.recovery) = true →
    k.work = .jobEnd j →
    jobQuiet s j = true →
    ∃ t, exec (.busyComplete n) s = .next t ∧ tget t.hearth.tickets n = some { k with rsp := some { status := .ok, bytes := [], ticket := 0, detail := 0 } } ∧ bit t.host.evtPend.toNat 14 = true ∧
      t.jobs = (endJob j s).jobs ∧ t.ptns = (endJob j s).ptns) ∧
  (∀ (s : State) (n : Nat) (k : Ticket) (r : Nat),
    tget s.hearth.tickets n = some k →
    k.rsp = none →
    (hearthRuns s || s.hearth.recovery) = true →
    k.work = .ringDestroy r →
    ringLive s r = [] →
    ∃ t, exec (.busyComplete n) s = .next t ∧ tget t.hearth.tickets n = some { k with rsp := some { status := .ok, bytes := [], ticket := 0, detail := 0 } } ∧ bit t.host.evtPend.toNat 14 = true ∧
      ringExists t r = false) ∧
  (∀ (s : State) (n : Nat) (k : Ticket) (r : Nat),
    tget s.hearth.tickets n = some k →
    k.rsp = none →
    (hearthRuns s || s.hearth.recovery) = true →
    k.work = .ringDisable r →
    ringLive s r = [] →
    ∃ t, exec (.busyComplete n) s = .next t ∧ tget t.hearth.tickets n = some { k with rsp := some { status := .ok, bytes := [], ticket := 0, detail := 0 } } ∧ bit t.host.evtPend.toNat 14 = true ∧
      ring t r = { ring s r with st := .disabled, stopping := false }) ∧
  (∀ (s : State) (n : Nat) (k : Ticket) (c : Nat),
    tget s.hearth.tickets n = some k →
    k.rsp = none →
    (hearthRuns s || s.hearth.recovery) = true →
    k.work = .collDelete c →
    (coll s c).state ≠ .free →
    collCmds s c = [] →
    ∃ t, exec (.busyComplete n) s = .next t ∧ tget t.hearth.tickets n = some { k with rsp := some { status := .ok, bytes := [], ticket := 0, detail := 0 } } ∧ bit t.host.evtPend.toNat 14 = true ∧
      t.colls = (freeColl c s).colls ∧ t.ptns = (freeColl c s).ptns) ∧
  (∀ (s : State) (n : Nat) (k : Ticket) (c : Nat) (joined : Bool),
    tget s.hearth.tickets n = some k →
    k.rsp = none →
    (hearthRuns s || s.hearth.recovery) = true →
    k.work = .train c joined →
    (coll s c).state = .redistributing ∨ (coll s c).state = .trained →
    epochLe (coll s c).trainEp (coll s c).latest = true →
    ∃ t, exec (.busyComplete n) s = .next t ∧ tget t.hearth.tickets n = some { k with rsp := some { status := .ok, bytes := leBytes 4 (coll s c).trainEp.toNat, ticket := 0, detail := if joined then 1 else 0 } } ∧ bit t.host.evtPend.toNat 14 = true ∧
      t.colls = s.colls) ∧
  (∀ (s : State) (n : Nat) (k : Ticket) (c : Nat) (joined : Bool),
    tget s.hearth.tickets n = some k →
    k.rsp = none →
    (hearthRuns s || s.hearth.recovery) = true →
    k.work = .train c joined →
    (coll s c).state = .suspect ∨ (coll s c).state = .free →
    ∃ t, exec (.busyComplete n) s = .next t ∧ tget t.hearth.tickets n = some { k with rsp := some { status := .uncorrectable, bytes := [], ticket := 0, detail := 0 } } ∧ bit t.host.evtPend.toNat 14 = true ∧
      t.colls = s.colls) ∧
  (∀ (s : State) (n : Nat) (k : Ticket) (p : Nat),
    tget s.hearth.tickets n = some k →
    k.rsp = none →
    (hearthRuns s || s.hearth.recovery) = true →
    k.work = .reset p →
    (ptn s p).fence = none →
    ∃ t, exec (.busyComplete n) s = .next t ∧ tget t.hearth.tickets n = some { k with rsp := some { status := .ok, bytes := [], ticket := 0, detail := 0 } } ∧ bit t.host.evtPend.toNat 14 = true ∧
      t.ptns = s.ptns) ∧
  (∀ (s : State) (n : Nat) (k : Ticket) (ps cold : List Nat) (bs : List Byte),
    tget s.hearth.tickets n = some k →
    k.rsp = none →
    (hearthRuns s || s.hearth.recovery) = true →
    k.work = .test ps cold bs →
    (∀ p ∈ ps, (ptn s p).power = .forge) →
    ∃ t, exec (.busyComplete n) s = .next t ∧ tget t.hearth.tickets n = some { k with rsp := some { status := .ok, bytes := bs, ticket := 0, detail := 0 } } ∧ bit t.host.evtPend.toNat 14 = true ∧
      t.ptns = (endTest ps cold s).ptns) ∧
  (∀ (s : State) (n : Nat) (k : Ticket) (st : MStatus) (bs : List Byte) (dt : Nat),
    tget s.hearth.tickets n = some k →
    k.rsp = none →
    (hearthRuns s || s.hearth.recovery) = true →
    k.work = .ready st bs dt →
    ∃ t, exec (.busyComplete n) s = .next t ∧ tget t.hearth.tickets n = some { k with rsp := some { status := st, bytes := bs, ticket := 0, detail := dt } } ∧ bit t.host.evtPend.toNat 14 = true ∧
      t.ptns = s.ptns) ∧
  (∀ (s : State) (n : Nat) (k : Ticket) (q : Req) (reply : ReadReply) (u : State) (st : MStatus) (bs : List Byte) (dt : Nat),
    tget s.hearth.tickets n = some k →
    k.rsp = none →
    (hearthRuns s || s.hearth.recovery) = true →
    k.work = .held q reply →
    stillHeld s k = false →
    runReq (handlerOf q) k.mbx q reply s = (u, .done st bs dt) →
    ∃ t, exec (.busyComplete n) s = .next t ∧ tget t.hearth.tickets n = some { k with rsp := some { status := st, bytes := bs, ticket := 0, detail := dt } } ∧ bit t.host.evtPend.toNat 14 = true ∧
      t.ptns = u.ptns ∧ t.jobs = u.jobs ∧ t.colls = u.colls) ∧
  (∀ (s : State) (n : Nat) (k : Ticket),
    tget s.hearth.tickets n = some k →
    k.rsp = none →
    (hearthRuns s || s.hearth.recovery) = true →
    ticketWaits s k = true →
    exec (.busyComplete n) s = .next s) ∧
  (∀ (s : State) (n : Nat) (k : Ticket) (sv : Nat),
    tget s.hearth.tickets n = some k →
    k.rsp = none →
    (hearthRuns s || s.hearth.recovery) = true →
    k.work = .raise sv →
    s.aon.rollback + 1 < sv →
    exec (.busyComplete n) s = .next (updAon (fun a => { a with rollback := a.rollback + 1 }) s)) ∧
  (∀ (s : State) (n : Nat) (k : Ticket) (sv : Nat),
    tget s.hearth.tickets n = some k →
    k.rsp = none →
    (hearthRuns s || s.hearth.recovery) = true →
    k.work = .raise sv →
    sv = s.aon.rollback + 1 →
    ∃ t, exec (.busyComplete n) s = .next t ∧ tget t.hearth.tickets n = some { k with rsp := some { status := .ok, bytes := [], ticket := 0, detail := 0 } } ∧ bit t.host.evtPend.toNat 14 = true ∧
      t.aon = { s.aon with rollback := s.aon.rollback + 1 }) ∧
  (∀ (s : State) (n : Nat) (k : Ticket),
    tget s.hearth.tickets n = some k →
    k.rsp = none →
    (hearthRuns s || s.hearth.recovery) = false →
    exec (.busyComplete n) s = .next (if s.hearthUp = true then wakeHearth s else s)) ∧
  (∀ (s : State) (n : Nat),
    ((tget s.hearth.tickets n).any (fun k => k.rsp.isSome) = true) →
    exec (.ticketDiscard n) s = .next (wakeHearth (updHearth (fun h => { h with tickets := tdel h.tickets n }) s)))

/-- The life of the Hearth (R306, R309, R310, R323, R346, R360). -/
def Obligations.HearthEvents : Prop :=
  (∀ (s : State),
    s.hearth.wakeDue = true →
    s.hearth.awake = false →
    s.hearthUp = true →
    ∃ t, exec .hearthWake s = .next t ∧ t.hearth = { s.hearth with awake := true, wakeDue := false, mbx := tmap (fun _ (x : Mbx) => if x.state = 1 then { x with state := 2 } else x) s.hearth.mbx } ∧
      { t with hearth := s.hearth } = s) ∧
  (∀ (s : State),
    hearthIdle s = true →
    exec .hearthSleep s = .next (updHearth (fun h => { h with awake := false, wakeDue := false }) s)) ∧
  (∀ (s : State),
    s.hearth.restarting = true →
    s.hearthUp = false →
    ∃ t, exec .hearthRestartDone s = .next t ∧ t.hearthUp = true ∧ t.hearth = { s.hearth with restarting := false, awake := true, wakeDue := false, mbx := tmap (fun _ (x : Mbx) => if x.state = 1 then { x with state := 2 } else x) s.hearth.mbx } ∧
      { t with hearth := s.hearth, hearthUp := s.hearthUp } = s) ∧
  (∀ (s : State),
    s.aon.trial = true →
    s.hearthUp = false →
    s.hearth.restarting = true →
    ∃ t, exec .trialTimeout s = .next t ∧ t.aon.trial = false ∧ t.aon.running = s.aon.committed ∧ t.hearthUp = false ∧ t.hearth.restarting = true ∧
      t.aon.codes.head? = some (hearthCode 3 0x88 0)) ∧
  (∀ (s : State) (cause : HearthCause) (core : Fin 4),
    secondFault s = false →
    ∃ t, exec (.hearthFault cause core) s = .next t ∧ t.hearthUp = false ∧ hearthCode (if cause = .core then 1 else 4) (0x80 + core.val) 0 ∈ t.aon.codes ∧ t.hearth.restarting = true ∧ t.aon.trial = false ∧ t.aon.running = s.aon.committed ∧
      t.hearth.lastFault = some s.aon.ticks.toNat ∧ t.faults = satInc (if s.aon.trial then satInc s.faults else s.faults) ∧ ∀ m x, (m, x) ∈ t.hearth.mbx → x.state = 0 ∧ x.req = none) ∧
  (∀ (s : State) (cause : HearthCause) (core : Fin 4),
    secondFault s = true →
    covered .l3 s = false →
    ∃ t, exec (.hearthFault cause core) s = .next t ∧ t.hearthUp = false ∧ hearthCode (if cause = .core then 1 else 4) (0x80 + core.val) 0 ∈ t.aon.codes ∧ (∃ l ∈ t.levels, l.level = .l3) ∧ t.cmds = [] ∧ t.hearth = State.reset.hearth) ∧
  (∀ (s : State) (m : Fin 4),
    (mbx s m).state = 1 ∨ (mbx s m).state = 2 →
    secondFault s = false →
    ∃ t, exec (.mbxStuck m) s = .next t ∧ t.hearthUp = false ∧ hearthCode 2 0x84 m.val ∈ t.aon.codes ∧ t.hearth.restarting = true ∧ t.aon.trial = false ∧ t.aon.running = s.aon.committed ∧
      t.hearth.lastFault = some s.aon.ticks.toNat ∧ t.faults = satInc (if s.aon.trial then satInc s.faults else s.faults) ∧ ∀ m x, (m, x) ∈ t.hearth.mbx → x.state = 0 ∧ x.req = none) ∧
  (∀ (s : State),
    s.hearth.restarting = true →
    s.hearthUp = false →
    covered .l3 s = false →
    ∃ t, exec .hearthRestartTimeout s = .next t ∧ t.hearthUp = false ∧ (∃ l ∈ t.levels, l.level = .l3) ∧ t.cmds = [] ∧ t.hearth = State.reset.hearth)

/-- The sequencer ops (R56, R58, R60–R63, R69, R198) and the yield overrun (R61). -/
def Obligations.SequencerSteps : Prop :=
  (∀ (p : Fin 12) (a : Fin 864) (w : W128) (s : State),
    meets s p a 0x00 w = true →
    ∃ t, exec (.stepNop p a) s = .next t ∧ anvil t p a = stepped 1 (anvil s p a)) ∧
  (∀ (p : Fin 12) (a : Fin 864) (w : W128) (s : State),
    stepWordAt s p a 0x01 = some w →
    stepCondition s p a w = true →
    ∃ t, exec (.branch p a) s = .next t ∧ anvil t p a = branched (targetOf s (anvil s p a) w) (anvil s p a)) ∧
  (∀ (p : Fin 12) (a : Fin 864) (w : W128) (s : State),
    stepWordAt s p a 0x01 = some w →
    stepCondition s p a w = false →
    ∃ t, exec (.branch p a) s = .next t ∧ anvil t p a = stepped 1 (anvil s p a)) ∧
  (∀ (p : Fin 12) (a : Fin 864) (w : W128) (s : State),
    stepWordAt s p a 0x02 = some w →
    counter (anvil s p a) (stepCounter w) > 1 →
    ∃ t, exec (.loop p a) s = .next t ∧ anvil t p a = branched (targetOf s (anvil s p a) w) { (anvil s p a) with cnt := lset (anvil s p a).cnt (stepCounter w) (counter (anvil s p a) (stepCounter w) - 1) 0 }) ∧
  (∀ (p : Fin 12) (a : Fin 864) (w : W128) (s : State),
    stepWordAt s p a 0x02 = some w →
    counter (anvil s p a) (stepCounter w) = 0 ∨ counter (anvil s p a) (stepCounter w) = 1 →
    ∃ t, exec (.loop p a) s = .next t ∧ anvil t p a = stepped 1 { (anvil s p a) with cnt := lset (anvil s p a).cnt (stepCounter w) 0 0 }) ∧
  (∀ (p : Fin 12) (a : Fin 864) (w : W128) (s : State),
    meets s p a 0x03 w = true →
    ∃ t, exec (.setc p a) s = .next t ∧ anvil t p a = stepped 1 { (anvil s p a) with cnt := lset (anvil s p a).cnt (stA w % 4) (BitVec.ofNat 16 (if bit (stParam w) 31 then field (anvil s p a).wd (stParam w % 256) 2 else stCount w)) 0 }) ∧
  (∀ (p : Fin 12) (a : Fin 864) (w : W128) (s : State),
    meets s p a 0x04 w = true →
    ((((upto (stCount w)).map fun j => stDest w + 4 * j).any fun k => badCapacity k (stParam w) (anvil s p a)) = false) →
    ∃ t, exec (.setr p a) s = .next t ∧ anvil t p a = stepped (stCount w) (((upto (stCount w)).map fun j => stDest w + 4 * j).foldl (fun b k => writeControl k (stParam w) b) (anvil s p a))) ∧
  (∀ (p : Fin 12) (a : Fin 864) (w : W128) (s : State),
    meets s p a 0x04 w = true →
    ((((upto (stCount w)).map fun j => stDest w + 4 * j).any fun k => badCapacity k (stParam w) (anvil s p a)) = true) →
    ∃ t, exec (.setr p a) s = .next t ∧ t = sandboxFault 1 p a s) ∧
  (∀ (p : Fin 12) (a : Fin 864) (w : W128) (s : State) (d : Nat × Desc),
    meets s p a 0x05 w = true →
    (anvil s p a).chunk = none →
    bindingFull s p a = false →
    waitingDesc s p a = some d →
    ∃ t, exec (.next p a) s = .next t ∧ (ptn t p).rowQ = (ptn (fillPlaces p (updPtn p (fun x => { x with rowQ := removeFirst d x.rowQ }) s)) p).rowQ ∧ anvil t p a = stepped 4 (anvil (loadDesc p a d.2 0 s) p a) ∧ (anvil t p a).desc = some d.2 ∧ (anvil t p a).descNone = false) ∧
  (∀ (p : Fin 12) (a : Fin 864) (w : W128) (s : State),
    meets s p a 0x05 w = true →
    (anvil s p a).chunk = none →
    bindingFull s p a = true ∨ waitingDesc s p a = none →
    bindingClosed s p a = true →
    ∃ t, exec (.next p a) s = .next t ∧ anvil t p a = stepped 4 { (anvil s p a) with descNone := true }) ∧
  (∀ (p : Fin 12) (a : Fin 864) (w : W128) (s : State),
    meets s p a 0x05 w = true →
    (anvil s p a).chunk = none →
    waitingDesc s p a = none →
    bindingClosed s p a = false →
    ∃ t, exec (.next p a) s = .next t ∧ anvil t p a = { (anvil s p a) with st := .waitDesc }) ∧
  (∀ (p : Fin 12) (a : Fin 864) (w : W128) (s : State) (k : Chunk) (b : Desc) (r : List Desc),
    meets s p a 0x05 w = true →
    (anvil s p a).chunk = some k →
    (anvil s p a).closing = false →
    k.bricks = b :: r →
    ∃ t, exec (.next p a) s = .next t ∧ (anvil t p a).chunk = some { k with bricks := r } ∧ (anvil t p a).desc = some { b with kind := if b.kind = 0 then 4 else b.kind, last := r.isEmpty } ∧ (anvil t p a).descNone = false ∧
      (anvil t p a).step = (anvil s p a).step + 1 ∧ (anvil t p a).cyc = (anvil s p a).cyc + 4) ∧
  (∀ (p : Fin 12) (a : Fin 864) (w : W128) (s : State) (k : Chunk),
    meets s p a 0x05 w = true →
    (anvil s p a).chunk = some k →
    (anvil s p a).closing = true ∨ k.bricks = [] →
    ∃ t, exec (.next p a) s = .next t ∧ anvil t p a = stepped 4 { (anvil s p a) with descNone := true }) ∧
  (∀ (p : Fin 12) (a : Fin 864) (w : W128) (s : State),
    meets s p a 0x06 w = true →
    ∃ t, exec (.wait p a) s = .next t ∧ anvil t p a = if (if stParam w % 16 = 0 then foldCredit s p a else fetchCredit (anvil s p a)) then stepped 1 (anvil s p a) else { (anvil s p a) with st := .waitCredit }) ∧
  (∀ (p : Fin 12) (a : Fin 864) (w : W128) (s : State),
    meets s p a 0x07 w = true →
    ∃ t, exec (.signal p a) s = .next t ∧ anvil t p a = stepped 1 (anvil s p a) ∧ (ptn t p).signal = some (BitVec.ofNat 32 (stParam w), (anvil s p a).lanes)) ∧
  (∀ (p : Fin 12) (a : Fin 864) (w : W128) (s : State),
    meets s p a 0x14 w = true →
    ∃ t, exec (.mfence p a) s = .next t ∧ anvil t p a = if (anvil s p a).outst.isEmpty then stepped 1 (anvil s p a) else { (anvil s p a) with st := .waitMem }) ∧
  (∀ (p : Fin 12) (a : Fin 864) (w : W128) (s : State),
    stepWordAt s p a 0x08 = some w →
    preempting s p a = false →
    ∃ t, exec (.yield p a) s = .next t ∧ (anvil t p a).step = targetOf s (anvil s p a) w ∧ (anvil t p a).st = .running ∧ (anvil t p a).cyc = 1 ∧ (anvil t p a).charge = (ptn s p).cycles.toNat) ∧
  (∀ (p : Fin 12) (a : Fin 864) (w : W128) (s : State),
    stepWordAt s p a 0x08 = some w →
    preempting s p a = true →
    (anvil s p a).outst.isEmpty = false →
    ∃ t, exec (.yield p a) s = .next t ∧ anvil t p a = { (anvil s p a) with st := .waitMem }) ∧
  (∀ (p : Fin 12) (a : Fin 864) (w : W128) (s : State),
    stepWordAt s p a 0x08 = some w →
    preempting s p a = true →
    (anvil s p a).outst.isEmpty = true →
    ∃ t, exec (.yield p a) s = .next t ∧ t = stopAtYield p a (updAnvil p a (fun b => { b with cyc := 1 }) (goTo (stTarget w) p a (chargeAnvil p a s)))) ∧
  (∀ (p : Fin 12) (a : Fin 864) (w : W128) (s : State),
    stepWordAt s p a 0x09 = some w →
    ∃ t, exec (.endOp p a) s = .next t ∧ (anvil t p a).st = .idle ∧ (anvil t p a).lanes = [] ∧ (anvil t p a).chunk = none ∧ (anvil t p a).desc = none ∧ (anvil t p a).charge = (ptn s p).cycles.toNat) ∧
  (∀ (p : Fin 12) (a : Fin 864) (c : Nat) (k : Chunk) (s : State),
    exportAt s p a = some (c, k) →
    exec (.endOp p a) s = .next (if exportPoisoned s c k = true then poisonFault p a s else exportChunk c k (freeAnvil p a s))) ∧
  (∀ (p : Fin 12) (a : Fin 864) (w : W128) (s : State),
    stepWordAt s p a 0x31 = some w →
    stepCondition s p a w = true →
    ∃ t, exec (.skip p a) s = .next t ∧ anvil t p a = branched (targetOf s (anvil s p a) w) { (anvil s p a) with desc := none, outst := (anvil s p a).outst.filter fun o => o.served || o.part.isNone || o.desc != (anvil s p a).desc }) ∧
  (∀ (p : Fin 12) (a : Fin 864) (w : W128) (s : State),
    stepWordAt s p a 0x31 = some w →
    stepCondition s p a w = false →
    ∃ t, exec (.skip p a) s = .next t ∧ anvil t p a = stepped 2 (anvil s p a)) ∧
  (∀ (p : Fin 12) (a : Fin 864) (s : State),
    issuing (anvil s p a) = true →
    (anvil s p a).pattern ≥ 0x100 →
    (anvil s p a).cyc > 3600 →
    preempting s p a = false →
    ∃ t, exec (.yieldOverrun p a) s = .next t ∧ anvil t p a = { anvil s p a with yovr := true }) ∧
  (∀ (p : Fin 12) (a : Fin 864) (s : State),
    issuing (anvil s p a) = true →
    (anvil s p a).pattern ≥ 0x100 →
    (anvil s p a).cyc > 3600 →
    preempting s p a = true →
    ∃ t, exec (.yieldOverrun p a) s = .next t ∧ t = sandboxFault 3 p a (updAnvil p a (fun b => { b with yovr := true }) s))

/-- Binding (R62, R127), the memory steps (R64, R65, R75, R212, R214), landing (R59), MOVE and TILECLR (R56). -/
def Obligations.AnvilMemorySteps : Prop :=
  (∀ (p : Fin 12) (a : Fin 864) (n : Nat) (ls : List LaneReq) (k : Cmd) (s : State),
    ls.head?.bind (laneCmd s) = some k →
    mayBind s p a n ls k = true →
    firstWork s p (waitingFor s p a) = none →
    n = 1 ∨ 0x100 ≤ n →
    ∃ t, exec (.laneBind p a n ls) s = .next t ∧ (anvil t p a).st = .running ∧ (anvil t p a).pattern = n ∧ (anvil t p a).lanes = ls ∧
      (anvil t p a).step = patternBase (ptn s p) k.ctx n k.patVer + phEntry (verHeader s k.ctx n k.patVer) ∧ (anvil t p a).sel = List.replicate ls.length [] ∧ (anvil t p a).nancnt = 0 ∧
      (anvil t p a).laneNan = List.replicate ls.length 0 ∧ (∀ l < ls.length, thFloor (anvil t p a) l = fNegInf) ∧
      (anvil t p a).local_ = (queryBlock (verHeader s k.ctx n k.patVer) (groupSize (coll s k.coll)) (tTwoLimb k.entry) (ls.filterMap (laneRow s)) (anvil s p a)).local_ ∧
      (∀ l < 16, laneCap (anvil t p a) l = (BitVec.ofNat 16 (laneCapacity k.entry n (phSelconf (verHeader s k.ctx n k.patVer)))).toNat)) ∧
  (∀ (p : Fin 12) (a : Fin 864) (n : Nat) (ls : List LaneReq) (k : Cmd) (d : Nat × Desc) (s : State),
    ls.head?.bind (laneCmd s) = some k →
    mayBind s p a n ls k = true →
    firstWork s p (waitingFor s p a) = some (.desc d) →
    d.2.pattern = n →
    sameLanes d.2.lanes ls = true →
    ∃ t, exec (.laneBind p a n ls) s = .next t ∧ t = bindDesc p a d s ∧ (anvil t p a).st = .running ∧ (anvil t p a).pattern = n ∧ (anvil t p a).lanes = d.2.lanes ∧
      (anvil t p a).sel = List.replicate d.2.lanes.length []) ∧
  (∀ (p : Fin 12) (a : Fin 864) (w : W128) (s : State),
    meets s p a 0x10 w = true →
    (anvil s p a).desc = none →
    ∃ t, exec (.fetchb p a) s = .next t ∧ anvil t p a = stepped 1 (anvil s p a)) ∧
  (∀ (p : Fin 12) (a : Fin 864) (w : W128) (s : State) (d : Desc) (i : Nat),
    meets s p a 0x10 w = true →
    (anvil s p a).desc = some d →
    (if bit (stParam w) 27 then (counter (anvil s p a) (bits (stParam w) 25 24)).toNat - 1 else stParam w % 65536) = i →
    (listed (anvil s p a) && decide (ceilDiv (descPart s d (bits (stParam w) 31 28) i (stCount w)).length 64 > stCount w)) = false →
    (linesWait (anvil s p a) (ceilDiv (descPart s d (bits (stParam w) 31 28) i (stCount w)).length 64) || storing (anvil s p a) (stDest w) (descPart s d (bits (stParam w) 31 28) i (stCount w)).length) = true →
    ∃ t, exec (.fetchb p a) s = .next t ∧ anvil t p a = { (anvil s p a) with st := .waitMem }) ∧
  (∀ (p : Fin 12) (a : Fin 864) (w : W128) (s : State) (d : Desc) (i : Nat),
    meets s p a 0x10 w = true →
    (anvil s p a).desc = some d →
    (if bit (stParam w) 27 then (counter (anvil s p a) (bits (stParam w) 25 24)).toNat - 1 else stParam w % 65536) = i →
    (listed (anvil s p a) && decide (ceilDiv (descPart s d (bits (stParam w) 31 28) i (stCount w)).length 64 > stCount w)) = false →
    (linesWait (anvil s p a) (ceilDiv (descPart s d (bits (stParam w) 31 28) i (stCount w)).length 64) || storing (anvil s p a) (stDest w) (descPart s d (bits (stParam w) 31 28) i (stCount w)).length) = false →
    ∃ t, exec (.fetchb p a) s = .next t ∧ (anvil t p a).outst = (anvil s p a).outst ++ (if descPart s d (bits (stParam w) 31 28) i (stCount w) = [] then [] else [{ dest := stDest w, addr := descAddr s d (bits (stParam w) 31 28) i, part := some (bits (stParam w) 31 28, i), bytes := descPart s d (bits (stParam w) 31 28) i (stCount w), lines := ceilDiv (descPart s d (bits (stParam w) 31 28) i (stCount w)).length 64, desc := some d }]) ∧
      (anvil t p a).step = (anvil s p a).step + 1 ∧ (anvil t p a).cyc = (anvil s p a).cyc + 1 ∧ (ptn t (homePtn d.brick)).hot = (countHot d.brick (ptn s (homePtn d.brick))).hot) ∧
  (∀ (p : Fin 12) (a : Fin 864) (w : W128) (s : State) (d : Desc) (i : Nat),
    meets s p a 0x10 w = true →
    (anvil s p a).desc = some d →
    (if bit (stParam w) 27 then (counter (anvil s p a) (bits (stParam w) 25 24)).toNat - 1 else stParam w % 65536) = i →
    (listed (anvil s p a) && decide (ceilDiv (descPart s d (bits (stParam w) 31 28) i (stCount w)).length 64 > stCount w)) = true →
    ∃ t, exec (.fetchb p a) s = .next t ∧ t = sandboxFault 2 p a s) ∧
  (∀ (p : Fin 12) (a : Fin 864) (w : W128) (s : State) (sp e : SpRead) (m : MWin),
    meets s p a 0x11 w = true →
    fetchwSp s p a sp = e →
    e ≠ .uncorrectable →
    readsLanded (anvil s p a) (addrRead w) = true →
    stepWindow s (anvil s p a) w (·.r) = some m →
    inMWin m (windowAddr m w + addUnits (anvil s p a) w) (64 * stCount w) = true →
    (linesWait (anvil s p a) (stCount w) || storing (anvil s p a) (stDest w) (64 * stCount w)) = false →
    ∃ t, exec (.fetchw p ⟨a, sp⟩) s = .next t ∧ anvil t p a = stepped 1 { counted e (anvil s p a) with outst := (anvil s p a).outst ++ if stCount w = 0 then [] else [{ dest := stDest w, addr := windowAddr m w + addUnits (anvil s p a) w, lines := stCount w }] }) ∧
  (∀ (p : Fin 12) (a : Fin 864) (w : W128) (s : State) (sp : SpRead) (m : MWin),
    meets s p a 0x11 w = true →
    fetchwSp s p a sp = .clean →
    readsLanded (anvil s p a) (addrRead w) = true →
    stepWindow s (anvil s p a) w (·.r) = some m →
    inMWin m (windowAddr m w + addUnits (anvil s p a) w) (64 * stCount w) = true →
    (linesWait (anvil s p a) (stCount w) || storing (anvil s p a) (stDest w) (64 * stCount w)) = true →
    ∃ t, exec (.fetchw p ⟨a, sp⟩) s = .next t ∧ anvil t p a = { (anvil s p a) with st := .waitMem }) ∧
  (∀ (p : Fin 12) (a : Fin 864) (w : W128) (s : State) (sp : SpRead),
    meets s p a 0x11 w = true →
    fetchwSp s p a sp = .clean →
    readsLanded (anvil s p a) (addrRead w) = true →
    (∀ m, stepWindow s (anvil s p a) w (·.r) = some m → inMWin m (windowAddr m w + addUnits (anvil s p a) w) (64 * stCount w) = false) →
    exec (.fetchw p ⟨a, sp⟩) s = .next (sandboxFault 1 p a s)) ∧
  (∀ (p : Fin 12) (a : Fin 864) (w : W128) (s : State) (sp : SpRead) (m : MWin),
    meets s p a 0x12 w = true →
    sp ≠ .uncorrectable →
    readsLanded (anvil s p.val a.val) ((stB w, 64 * stCount w) :: addrRead w) = true →
    stepWindow s (anvil s p a) w (·.w) = some m →
    inMWin m (windowAddr m w + addUnits (anvil s p a) w) (64 * stCount w) = true →
    linesWait (anvil s p a) (stCount w) = true →
    ∃ t, exec (.store p a sp) s = .next t ∧ anvil t p a = { counted sp (anvil s p a) with st := .waitMem }) ∧
  (∀ (p : Fin 12) (a : Fin 864) (w : W128) (s : State) (sp : SpRead) (m : MWin),
    meets s p a 0x12 w = true →
    sp ≠ .uncorrectable →
    readsLanded (anvil s p.val a.val) ((stB w, 64 * stCount w) :: addrRead w) = true →
    stepWindow s (anvil s p a) w (·.w) = some m →
    inMWin m (windowAddr m w + addUnits (anvil s p a) w) (64 * stCount w) = true →
    linesWait (anvil s p a) (stCount w) = false →
    ∃ t, exec (.store p a sp) s = .next t ∧ anvil t p a = stepped 1 { counted sp (anvil s p a) with outst := (anvil s p a).outst ++ if stCount w = 0 then [] else [{ isStore := true, src := stB w, addr := windowAddr m w + addUnits (anvil s p a) w, lines := stCount w, poison := padPoisoned (anvil s p a) (stB w) (64 * stCount w), bytes := localBytes (counted sp (anvil s p a)) (ptn s p).cycles (stB w) (64 * stCount w) }] }) ∧
  (∀ (p : Fin 12) (a : Fin 864) (w : W128) (s : State) (sp : SpRead),
    meets s p a 0x12 w = true →
    sp = .clean →
    readsLanded (anvil s p a) ((stB w, 64 * stCount w) :: addrRead w) = true →
    (∀ m, stepWindow s (anvil s p a) w (·.w) = some m → inMWin m (windowAddr m w + addUnits (anvil s p a) w) (64 * stCount w) = false) →
    exec (.store p a sp) s = .next (sandboxFault 1 p a s)) ∧
  (∀ (p : Fin 12) (a : Fin 864) (w : W128) (s : State) (sp : SpRead) (m : MWin) (es : List (Nat × Nat × Nat × Nat)),
    meets s p a 0x13 w = true →
    sp ≠ .uncorrectable →
    readsLanded (anvil s p a) [(stA w, 16 * stCount w)] = true →
    stepWindow s (anvil s p a) w (·.a) = some m →
    (atomPairs (bits (stParam w) 23 16) ((upto (stCount w)).map fun j => (padNat (anvil s p a) (stA w + 16 * j) 8, padNat (anvil s p a) (stA w + 16 * j + 8) 8, j)) = some es) →
    atomicDefined (bits (stParam w) 23 16) = true →
    es.all (atomOk m w) = true →
    (linesWait (anvil s p a) es.length || bit (stParam w) 0 && storing (anvil s p a) (stDest w) (8 * stCount w)) = false →
    ∃ t, exec (.atomic p a sp) s = .next t ∧
      (ptn t m.ptn).atomQ = (ptn s m.ptn).atomQ ++ es.map (fun e => { code := bits (stParam w) 23 16, addr := atomTarget m w e, operand := BitVec.ofNat 64 e.2.1, second := BitVec.ofNat 64 e.2.2.1, ctx := anvCtx s (anvil s p a), ret := if bit (stParam w) 0 then some (p.val, a.val, stDest w + 8 * e.2.2.2) else none, from_ := some (p.val, a.val) }) ∧
      (anvil t p a).outst.length = (anvil s p a).outst.length + es.length ∧ (anvil t p a).step = (anvil s p a).step + 1) ∧
  (∀ (p : Fin 12) (a : Fin 864) (w : W128) (s : State) (sp : SpRead) (m : MWin) (es : List (Nat × Nat × Nat × Nat)),
    meets s p a 0x13 w = true →
    sp ≠ .uncorrectable →
    readsLanded (anvil s p a) [(stA w, 16 * stCount w)] = true →
    stepWindow s (anvil s p a) w (·.a) = some m →
    (atomPairs (bits (stParam w) 23 16) ((upto (stCount w)).map fun j => (padNat (anvil s p a) (stA w + 16 * j) 8, padNat (anvil s p a) (stA w + 16 * j + 8) 8, j)) = some es) →
    atomicDefined (bits (stParam w) 23 16) = true →
    es.all (atomOk m w) = true →
    (linesWait (anvil s p a) es.length || bit (stParam w) 0 && storing (anvil s p a) (stDest w) (8 * stCount w)) = true →
    ∃ t, exec (.atomic p a sp) s = .next t ∧ anvil t p a = { counted sp (anvil s p a) with st := .waitMem }) ∧
  (∀ (p : Fin 12) (a : Fin 864) (w : W128) (s : State) (sp : SpRead),
    meets s p a 0x13 w = true →
    sp = .clean →
    readsLanded (anvil s p a) [(stA w, 16 * stCount w)] = true →
    atomsOk s (anvil s p a) w = false →
    exec (.atomic p a sp) s = .next (sandboxFault 1 p a s)) ∧
  (∀ (p : Fin 12) (a : Fin 864) (w : W128) (s : State) (sp : SpRead),
    meets s p a 0x15 w = true →
    sp ≠ .uncorrectable →
    readsClear (anvil s p.val a.val) ([(stA w, 16 * stCount w)]) = true →
    ∃ t, exec (.move p a sp) s = .next t ∧ anvil t p a = stepped (ceilDiv (stCount w) 8) ((upto (stCount w)).foldl (fun b j => padWrite (stDest w + 16 * j) (localBytes b (ptn s p).cycles (stA w + 16 * j) 16) b) (counted sp (anvil s p a)))) ∧
  (∀ (p : Fin 12) (a : Fin 864) (w : W128) (s : State),
    meets s p a 0x20 w = true →
    ∃ t, exec (.tileclr p a) s = .next t ∧ anvil t p a = stepped (24 * (bitsOf 4 (stParam w)).length) { (anvil s p a) with local_ := (anvil s p a).local_.filter fun c => !((bitsOf 4 (stParam w)).any fun r => decide (768 + 48 * r ≤ c.1) && decide (c.1 < 768 + 48 * (r + 1))) }) ∧
  (∀ (p : Fin 12) (a : Fin 864) (i : Nat) (o : Outst) (s : State),
    (anvil s p a).outst[i]? = some o →
    o.served = true →
    o.isStore = false →
    o.isAtom = false →
    earlierFetch (anvil s p a) i o = false →
    ∃ t, exec (.fetchLand p a i) s = .next t ∧ anvil t p a = landBytes o.dest o.bytes (fun off => o.badLines.contains (off / 64)) { (anvil s p a) with outst := (anvil s p a).outst.eraseIdx i })

/-- The compute steps, the sieve and the selector (R66, R67, R69–R74). The sum order of BFMA DOT, the place of SGATHER's accumulators and the term of
a block that no posting descriptor brought are the model's choices or free (R74; log 54, 55). -/
def Obligations.ComputeSteps : Prop :=
  (∀ (p : Fin 12) (a : Fin 864) (w : W128) (s : State) (sp : SpRead),
    meets s p a 0x21 w = true →
    sp ≠ .uncorrectable →
    readsClear (anvil s p.val a.val) (dotReads (anvHeader s (anvil s p a)) (anvil s p a) w) = true →
    ∃ t, exec (.dot p a sp) s = .next t ∧ anvil t p a = stepped (dotCycles (anvil s p a) w) (dotAll (counted sp (anvil s p a)) (anvHeader s (anvil s p a)) w)) ∧
  (∀ (p : Fin 12) (a : Fin 864) (w : W128) (s : State) (sp : SpRead),
    meets s p a 0x22 w = true →
    sp ≠ .uncorrectable →
    readsClear (anvil s p.val a.val) (boundReads (anvHeader s (anvil s p a)) (anvil s p a) w) = true →
    ∃ t, exec (.bound p a sp) s = .next t ∧ (∀ l < 16, lget (anvil t p a).needlo l 0 = if l < (anvil s p a).lanes.length then BitVec.ofNat 64 (maskOf ((bitsOf 64 (anvil s p a).live.toNat).filter (needsLow (counted sp (anvil s p a)) (anvHeader s (anvil s p a)) (wdMetric s (anvil s p a)) w l))) else 0) ∧
      (anvil t p a).boundAny = (anvil t p a).needlo.any (· != 0) ∧ (anvil t p a).step = (anvil s p a).step + 1 ∧ (anvil t p a).cyc = (anvil s p a).cyc + (wdGroups (anvil s p a) * (anvil s p a).lanes.length + 4 * (anvil s p a).lanes.length)) ∧
  (∀ (p : Fin 12) (a : Fin 864) (w : W128) (s : State) (sp : SpRead),
    meets s p a 0x23 w = true →
    sp ≠ .uncorrectable →
    readsClear (anvil s p.val a.val) (scoreReads (anvHeader s (anvil s p a)) (anvil s p a) w) = true →
    ∃ t, exec (.score p a sp) s = .next t ∧ anvil t p a = stepped (4 * (anvil s p a).lanes.length) (padWrite (stDest w) ((upto (anvil s p a).lanes.length).flatMap fun l => (upto 64).flatMap fun slot => leBytes 4 (tileScore (counted sp (anvil s p a)) (anvHeader s (anvil s p a)) (wdMetric s (anvil s p a)) w l slot).toNat) (counted sp (anvil s p a)))) ∧
  (∀ (p : Fin 12) (a : Fin 864) (w : W128) (s : State) (sp : SpRead),
    meets s p a 0x24 w = true →
    sp ≠ .uncorrectable →
    readsClear (anvil s p.val a.val) (bfmaReads (anvil s p a) w) = true →
    ∃ t, exec (.bfma p a sp) s = .next t ∧ anvil t p a = stepped (ceilDiv (stCount w) 64 + 4) (bfma s.free w (counted sp (anvil s p a))) ∧ t.free = s.free + 2 * stCount w) ∧
  (∀ (p : Fin 12) (a : Fin 864) (w : W128) (s : State) (sp : SpRead),
    meets s p a 0x25 w = true →
    sp ≠ .uncorrectable →
    readsClear (anvil s p.val a.val) (sgatherReads (anvil s p a) w) = true →
    ∃ t, exec (.sgather p a sp) s = .next t ∧ anvil t p a = stepped (8 * stCount w) ((upto (stCount w)).foldl (fun b j => gatherBlock b w (termWeight (counted sp (anvil s p a)) s.free (stB w)) j) (counted sp (anvil s p a))) ∧ t.free = s.free + 1) ∧
  (∀ (p : Fin 12) (a : Fin 864) (w : W128) (s : State) (sp : SpRead) (d : Desc),
    meets s p a 0x30 w = true →
    sp ≠ .uncorrectable →
    readsClear (anvil s p.val a.val) (sieveReads (anvil s p a) w) = true →
    (anvil s p a).desc = some d →
    listed (anvil s p a) = true →
    stParam w ≠ 1 →
    ∃ t, exec (.sieve p a sp) s = .next t ∧ anvil t p a = stepped (progLen (sieveProg s (anvil s p a))) { counted sp (anvil s p a) with zone := (zonePass (coll s d.coll) (sieveProg s (anvil s p a)) (counted sp (anvil s p a)) (stA w)).code }) ∧
  (∀ (p : Fin 12) (a : Fin 864) (w : W128) (s : State) (sp : SpRead) (d : Desc),
    meets s p a 0x30 w = true →
    sp ≠ .uncorrectable →
    readsClear (anvil s p.val a.val) (sieveReads (anvil s p a) w) = true →
    (anvil s p a).desc = some d →
    listed (anvil s p a) = true →
    stParam w = 1 →
    ∃ t, exec (.sieve p a sp) s = .next t ∧ anvil t p a = stepped (8 * (if (anvil s p a).zone == Zone.all.code then 0 else progLen (sieveProg s (anvil s p a))) + 8) { counted sp (anvil s p a) with live := slotPass s (coll s d.coll) (sieveProg s (anvil s p a)) (counted sp (anvil s p a)) d (stA w) (stB w) }) ∧
  (∀ (p : Fin 12) (a : Fin 864) (w : W128) (s : State) (sp : SpRead) (d : Desc) (r : Zone × W64),
    meets s p a 0x30 w = true →
    sp ≠ .uncorrectable →
    readsClear (anvil s p.val a.val) (sieveReads (anvil s p a) w) = true →
    (anvil s p a).desc = some d →
    listed (anvil s p a) = false →
    brickPass s (coll s d.coll) (sieveProg s (anvil s p a)) (BitVec.ofNat 32 (field (anvil s p a).wd 20 4)) d = r →
    ∃ t, exec (.sieve p a sp) s = .next t ∧ anvil t p a = stepped (9 * progLen (sieveProg s (anvil s p a)) + 8) { counted sp (anvil s p a) with zone := r.1.code, live := if d.kind = 1 then (anvil s p a).live else r.2 }) ∧
  (∀ (p : Fin 12) (a : Fin 864) (w : W128) (s : State) (sp : SpRead),
    meets s p a 0x30 w = true →
    sp ≠ .uncorrectable →
    readsClear (anvil s p.val a.val) (sieveReads (anvil s p a) w) = true →
    (anvil s p a).desc = none →
    ∃ t, exec (.sieve p a sp) s = .next t ∧ anvil t p a = stepped 1 (counted sp (anvil s p a))) ∧
  (∀ (p : Fin 12) (a : Fin 864) (w : W128) (s : State) (sp : SpRead) (d : Desc) (b : Anvil) (u : Anvil × Nat),
    meets s p a 0x32 w = true →
    sp ≠ .uncorrectable →
    readsClear (anvil s p.val a.val) (selectReads (anvil s p a) w) = true →
    (anvil s p a).desc.getD noDesc = d →
    ((anvil s p a).desc.isSome && framePoisoned s (anvil s p a) d) = false →
    b = counted sp (anvil s p a) →
    (u = ((upto b.lanes.length).map fun l => (l, laneOffers s p b d w l)).foldl (fun r o => o.2.foldl (fun r e => (offer o.1 e r.1, r.2 + if admits o.1 e r.1 then 1 else 0)) r) (b, 0)) →
    ∃ t, exec (.select p a sp) s = .next t ∧ anvil t p a = stepped (4 * b.lanes.length + u.2) u.1) ∧
  (∀ (p : Fin 12) (a : Fin 864) (w : W128) (s : State),
    meets s p a 0x33 w = true →
    ∃ t, exec (.selclr p a) s = .next t ∧ anvil t p a = stepped 8 { (anvil s p a) with sel := (anvil s p a).sel.zipIdx.map fun x => if bit (stParam w) x.2 then [] else x.1 }) ∧
  (∀ (p : Fin 12) (a : Fin 864) (w : W128) (s : State),
    meets s p a 0x34 w = true →
    (anvil s p a).lanes.all (laneCredit s p a) = true →
    (anvil s p a).emitted = 0 →
    (anvil s p a).desc.any (·.quiet) = false →
    (∀ (i j : Nat) (k l : LaneReq), (anvil s p a).lanes[i]? = some k → (anvil s p a).lanes[j]? = some l → k.cmd = l.cmd → i = j) →
    ∃ t, exec (.emit p a) s = .next t ∧ (anvil t p a).step = (anvil s p a).step + 1 ∧ (anvil t p a).cyc = (anvil s p a).cyc + (4 + (anvil s p a).sel.foldl (fun n l => n + l.length) 0 / 2) ∧ (anvil t p a).laneNan = (anvil s p a).laneNan.map (fun _ => 0) ∧ (anvil t p a).sel = (if stParam w % 2 = 1 ∨ ¬listed (anvil s p a) then (anvil s p a).sel.map fun _ => [] else (anvil s p a).sel) ∧
      t.cmds = (((anvil s p a).lanes.zipIdx).foldl (fun v x => updRow x.1.cmd x.1.row (addInput (FoldNode.row p (Fin.ofNat 24 (a.val / 36))) (patternStage (anvil s p a) ((cmd? v x.1.cmd).any fun y => y.opcode == 0x12)) (a.val % 36) (sortEntries (laneEntries (anvil s p a) x.2)) (lget (anvil s p a).laneNan x.2 0)) v) s).cmds) ∧
  (∀ (p : Fin 12) (a : Fin 864) (w : W128) (s : State) (r : Option Nat × State),
    stepWordAt s p a 0x34 = some w →
    (stepCondition s p a w = true ∧ foldCredit s p a = true ∨ (anvil s p a).emitted > 0) →
    emitLanes p a (anvil s p a) (if (anvil s p a).desc.any (·.quiet) = true then [] else (anvil s p a).lanes.zipIdx.drop (anvil s p a).emitted) s = r →
    ∃ t, exec (.emit p a) s = .next t ∧ t.cmds = r.2.cmds ∧
      anvil t p a = match r.1 with
        | some l => { (anvil s p a) with st := .waitCredit, emitted := l }
        | none => stepped (4 + (anvil s p a).sel.foldl (fun n l => n + l.length) 0 / 2) (emitDone w (anvil s p a))) ∧
  (∀ (p : Fin 12) (a : Fin 864) (w : W128) (s : State),
    meets s p a 0x34 w = true →
    (anvil s p a).emitted = 0 →
    foldCredit s p a = false →
    ∃ t, exec (.emit p a) s = .next t ∧ anvil t p a = { (anvil s p a) with st := .waitCredit })

/-- One offer to a selector lane (R70): what SELECT offers, NaN withheld and counted, strict admission, eviction of the lowest entry
admitted last. -/
def Obligations.SelectorOffers : Prop :=
  (∀ (l : Nat) (e : Entry) (a : Anvil),
    l < laneCount a.conf.toNat →
    fIsNaN e.score = true →
    offer l e a = { a with nancnt := a.nancnt + 1, laneNan := lset a.laneNan l (lget a.laneNan l 0 + 1) 0 }) ∧
  (∀ (l : Nat) (e : Entry) (a : Anvil),
    fIsNaN e.score = false →
    fGt e.score (thetaEff a l) = false →
    offer l e a = a) ∧
  (∀ (l : Nat) (e : Entry) (a : Anvil),
    l ≥ laneCount a.conf.toNat →
    offer l e a = a) ∧
  (∀ (l : Nat) (e : Entry) (a : Anvil),
    l < laneCount a.conf.toNat →
    fIsNaN e.score = false →
    fGt e.score (thetaEff a l) = true →
    (laneEntries a l).length < laneCap a l →
    offer l e a = { a with sel := lset a.sel l (laneEntries a l ++ [e]) [] }) ∧
  (∀ (l : Nat) (e m : Entry) (x y : List Entry) (a : Anvil),
    l < laneCount a.conf.toNat →
    fIsNaN e.score = false →
    fGt e.score (thetaEff a l) = true →
    (laneEntries a l).length ≥ laneCap a l →
    laneEntries a l = x ++ m :: y →
    fEq m.score (lowest (laneEntries a l)) = true →
    (y.all (fun z => !fEq z.score (lowest (laneEntries a l))) = true) →
    offer l e a = { a with sel := lset a.sel l (x ++ y ++ [e]) [] }) ∧
  (∀ (s : State) (p : Nat) (a : Anvil) (d : Desc) (w : W128) (l : Nat) (q : LaneReq) (x : Cmd) (r : QRow),
    listed a = true →
    a.lanes[l]? = some q →
    laneCmd s q = some x →
    laneRow s q = some r →
    laneOffers s p a d w l = ((upto 64).filter fun i => stParam w % 2 == 0 || bit a.live.toNat i).map fun i => slotEntry s p d (BitVec.ofNat 64 (padNat a (stB w + 8 * i) 8)) (BitVec.ofNat 32 (padNat a (stA w + 4 * (64 * l + i)) 4)) i)

/-- The shell of every op (R58, R59, R76). -/
def Obligations.StepShell : Prop :=
  (∀ (p : Fin 12) (a : Fin 864) (s : State) (sp : SpRead) (k : Nat × Instr),
    k ∈ ([(0x00, .stepNop p a), (0x03, .setc p a), (0x04, .setr p a), (0x05, .next p a), (0x06, .wait p a), (0x07, .signal p a), (0x10, .fetchb p a), (0x11, .fetchw p ⟨a, sp⟩), (0x12, .store p a sp), (0x13, .atomic p a sp), (0x14, .mfence p a), (0x15, .move p a sp), (0x20, .tileclr p a), (0x21, .dot p a sp), (0x22, .bound p a sp), (0x23, .score p a sp), (0x24, .bfma p a sp), (0x25, .sgather p a sp), (0x30, .sieve p a sp), (0x32, .select p a sp), (0x33, .selclr p a), (0x34, .emit p a)] ++ [(0x01, .branch p a), (0x02, .loop p a), (0x08, .yield p a), (0x31, .skip p a)] : List (Nat × Instr)) →
    stepWordAt s p a k.1 = none →
    exec k.2 s = .next s) ∧
  (∀ (p : Fin 12) (a : Fin 864) (s : State),
    stepWordAt s p a 0x09 = none →
    exportAt s p a = none →
    exec (.endOp p a) s = .next s) ∧
  (∀ (p : Fin 12) (a : Fin 864) (w : W128) (s : State) (sp : SpRead) (k : Nat × Instr),
    k ∈ ([(0x00, .stepNop p a), (0x03, .setc p a), (0x04, .setr p a), (0x05, .next p a), (0x06, .wait p a), (0x07, .signal p a), (0x10, .fetchb p a), (0x11, .fetchw p ⟨a, sp⟩), (0x12, .store p a sp), (0x13, .atomic p a sp), (0x14, .mfence p a), (0x15, .move p a sp), (0x20, .tileclr p a), (0x21, .dot p a sp), (0x22, .bound p a sp), (0x23, .score p a sp), (0x24, .bfma p a sp), (0x25, .sgather p a sp), (0x30, .sieve p a sp), (0x32, .select p a sp), (0x33, .selclr p a), (0x34, .emit p a)] : List (Nat × Instr)) →
    stepWordAt s p a k.1 = some w →
    stepCondition s p a w = false →
    (k.1 = 0x34 → (anvil s p a).emitted = 0) →
    exec k.2 s = .next (stepDone 1 p a s)) ∧
  (∀ (p : Fin 12) (a : Fin 864) (w : W128) (s : State) (sp : SpRead) (k : Nat × Instr × (Anvil → W128 → List (Nat × Nat))),
    k ∈ computeOps s p a sp ++ (0x11, .fetchw p ⟨a, sp⟩, fun _ w => addrRead w) :: memoryOps p a sp →
    meets s p a k.1 w = true →
    listed (anvil s p a) = true →
    (((k.2.2 (anvil s p a) w).any fun r => fetching (anvil s p a) r.1 r.2) = true) →
    ∃ t, exec k.2.1 s = .next t ∧ anvil t p a = { (anvil s p a) with st := .waitMem }) ∧
  (∀ (p : Fin 12) (a : Fin 864) (w : W128) (s : State) (sp : SpRead) (k : Nat × Instr × (Anvil → W128 → List (Nat × Nat))),
    k ∈ computeOps s p a sp ++ memoryOps p a sp →
    meets s p a k.1 w = true →
    (((k.2.2 (anvil s p a) w).any fun r => fetching (anvil s p a) r.1 r.2) = false) →
    sp = .uncorrectable →
    exec k.2.1 s = .next (spFault p a s)) ∧
  (∀ (p : Fin 12) (a : Fin 864) (w : W128) (s : State) (sp : SpRead) (k : Nat × Instr × (Anvil → W128 → List (Nat × Nat))),
    k ∈ computeOps s p a sp →
    meets s p a k.1 w = true →
    listed (anvil s p a) = true →
    (((k.2.2 (anvil s p a) w).any fun r => fetching (anvil s p a) r.1 r.2) = false) →
    (((k.2.2 (anvil s p a) w).any fun r => padPoisoned (anvil s p a) r.1 r.2) = true) →
    sp = .clean →
    exec k.2.1 s = .next (poisonFault p a s))

/-- The sixteen atomics (R213–R216): the target, the rest of device memory, the queue, the holder table, the value returned. hbmOk is kept
by every step (StepKeepsInv). -/
def Obligations.AtomicResults : Prop :=
  (∀ (p : Fin 12) (r : AtomReq) (rest : List AtomReq) (s : State),
    hbmOk s = true →
    atomReady s p 0x01 r rest = true →
    (r.from_.all (fun x => x.1 == p.val) = true) →
    r.addr + 8 ≤ 2 ^ 40 →
    ∃ t, exec (.add32 p) s = .next t ∧ (∀ j < 2 ^ 40, memByte t j = afterWrite s r.addr 4 (some ((atomOld s r + r.operand.toNat) % 2 ^ 32)) j) ∧ (ptn t p).atomQ = rest ∧
      ∀ i k d, atomOutst s p i k d r = true → anvil t p i = landBytes d (leBytes 8 (atomOld s r)) (fun _ => false) { anvil s p i with outst := (anvil s p i).outst.eraseIdx k }) ∧
  (∀ (p : Fin 12) (r : AtomReq) (rest : List AtomReq) (s : State),
    hbmOk s = true →
    atomReady s p 0x02 r rest = true →
    (r.from_.all (fun x => x.1 == p.val) = true) →
    r.addr + 8 ≤ 2 ^ 40 →
    ∃ t, exec (.add64 p) s = .next t ∧ (∀ j < 2 ^ 40, memByte t j = afterWrite s r.addr 8 (some ((atomOld s r + r.operand.toNat) % 2 ^ 64)) j) ∧ (ptn t p).atomQ = rest ∧
      ∀ i k d, atomOutst s p i k d r = true → anvil t p i = landBytes d (leBytes 8 (atomOld s r)) (fun _ => false) { anvil s p i with outst := (anvil s p i).outst.eraseIdx k }) ∧
  (∀ (p : Fin 12) (r : AtomReq) (rest : List AtomReq) (s : State),
    hbmOk s = true →
    atomReady s p 0x03 r rest = true →
    (r.from_.all (fun x => x.1 == p.val) = true) →
    r.addr + 8 ≤ 2 ^ 40 →
    ∃ t, exec (.minu p) s = .next t ∧ (∀ j < 2 ^ 40, memByte t j = afterWrite s r.addr 8 (some (min (atomOld s r) r.operand.toNat)) j) ∧ (ptn t p).atomQ = rest ∧
      ∀ i k d, atomOutst s p i k d r = true → anvil t p i = landBytes d (leBytes 8 (atomOld s r)) (fun _ => false) { anvil s p i with outst := (anvil s p i).outst.eraseIdx k }) ∧
  (∀ (p : Fin 12) (r : AtomReq) (rest : List AtomReq) (s : State),
    hbmOk s = true →
    atomReady s p 0x04 r rest = true →
    (r.from_.all (fun x => x.1 == p.val) = true) →
    r.addr + 8 ≤ 2 ^ 40 →
    ∃ t, exec (.maxu p) s = .next t ∧ (∀ j < 2 ^ 40, memByte t j = afterWrite s r.addr 8 (some (max (atomOld s r) r.operand.toNat)) j) ∧ (ptn t p).atomQ = rest ∧
      ∀ i k d, atomOutst s p i k d r = true → anvil t p i = landBytes d (leBytes 8 (atomOld s r)) (fun _ => false) { anvil s p i with outst := (anvil s p i).outst.eraseIdx k }) ∧
  (∀ (p : Fin 12) (r : AtomReq) (rest : List AtomReq) (s : State),
    hbmOk s = true →
    atomReady s p 0x05 r rest = true →
    (r.from_.all (fun x => x.1 == p.val) = true) →
    r.addr + 8 ≤ 2 ^ 40 →
    ∃ t, exec (.mins p) s = .next t ∧ (∀ j < 2 ^ 40, memByte t j = afterWrite s r.addr 8 (some (if toSigned 64 r.operand.toNat < toSigned 64 (atomOld s r) then r.operand.toNat else atomOld s r)) j) ∧ (ptn t p).atomQ = rest ∧
      ∀ i k d, atomOutst s p i k d r = true → anvil t p i = landBytes d (leBytes 8 (atomOld s r)) (fun _ => false) { anvil s p i with outst := (anvil s p i).outst.eraseIdx k }) ∧
  (∀ (p : Fin 12) (r : AtomReq) (rest : List AtomReq) (s : State),
    hbmOk s = true →
    atomReady s p 0x06 r rest = true →
    (r.from_.all (fun x => x.1 == p.val) = true) →
    r.addr + 8 ≤ 2 ^ 40 →
    ∃ t, exec (.maxs p) s = .next t ∧ (∀ j < 2 ^ 40, memByte t j = afterWrite s r.addr 8 (some (if toSigned 64 r.operand.toNat > toSigned 64 (atomOld s r) then r.operand.toNat else atomOld s r)) j) ∧ (ptn t p).atomQ = rest ∧
      ∀ i k d, atomOutst s p i k d r = true → anvil t p i = landBytes d (leBytes 8 (atomOld s r)) (fun _ => false) { anvil s p i with outst := (anvil s p i).outst.eraseIdx k }) ∧
  (∀ (p : Fin 12) (r : AtomReq) (rest : List AtomReq) (s : State),
    hbmOk s = true →
    atomReady s p 0x07 r rest = true →
    (r.from_.all (fun x => x.1 == p.val) = true) →
    r.addr + 8 ≤ 2 ^ 40 →
    ∃ t, exec (.andOp p) s = .next t ∧ (∀ j < 2 ^ 40, memByte t j = afterWrite s r.addr 8 (some (atomOld s r &&& r.operand.toNat)) j) ∧ (ptn t p).atomQ = rest ∧
      ∀ i k d, atomOutst s p i k d r = true → anvil t p i = landBytes d (leBytes 8 (atomOld s r)) (fun _ => false) { anvil s p i with outst := (anvil s p i).outst.eraseIdx k }) ∧
  (∀ (p : Fin 12) (r : AtomReq) (rest : List AtomReq) (s : State),
    hbmOk s = true →
    atomReady s p 0x08 r rest = true →
    (r.from_.all (fun x => x.1 == p.val) = true) →
    r.addr + 8 ≤ 2 ^ 40 →
    ∃ t, exec (.orOp p) s = .next t ∧ (∀ j < 2 ^ 40, memByte t j = afterWrite s r.addr 8 (some (atomOld s r ||| r.operand.toNat)) j) ∧ (ptn t p).atomQ = rest ∧
      ∀ i k d, atomOutst s p i k d r = true → anvil t p i = landBytes d (leBytes 8 (atomOld s r)) (fun _ => false) { anvil s p i with outst := (anvil s p i).outst.eraseIdx k }) ∧
  (∀ (p : Fin 12) (r : AtomReq) (rest : List AtomReq) (s : State),
    hbmOk s = true →
    atomReady s p 0x09 r rest = true →
    (r.from_.all (fun x => x.1 == p.val) = true) →
    r.addr + 8 ≤ 2 ^ 40 →
    ∃ t, exec (.xorOp p) s = .next t ∧ (∀ j < 2 ^ 40, memByte t j = afterWrite s r.addr 8 (some (atomOld s r ^^^ r.operand.toNat)) j) ∧ (ptn t p).atomQ = rest ∧
      ∀ i k d, atomOutst s p i k d r = true → anvil t p i = landBytes d (leBytes 8 (atomOld s r)) (fun _ => false) { anvil s p i with outst := (anvil s p i).outst.eraseIdx k }) ∧
  (∀ (p : Fin 12) (r : AtomReq) (rest : List AtomReq) (s : State),
    hbmOk s = true →
    atomReady s p 0x0A r rest = true →
    (r.from_.all (fun x => x.1 == p.val) = true) →
    r.addr + 8 ≤ 2 ^ 40 →
    ∃ t, exec (.cas32 p) s = .next t ∧ (∀ j < 2 ^ 40, memByte t j = afterWrite s r.addr 4 (if atomOld s r = r.operand.toNat % 2 ^ 32 then some (r.operand.toNat / 2 ^ 32) else none) j) ∧ (ptn t p).atomQ = rest ∧
      ∀ i k d, atomOutst s p i k d r = true → anvil t p i = landBytes d (leBytes 8 (atomOld s r)) (fun _ => false) { anvil s p i with outst := (anvil s p i).outst.eraseIdx k }) ∧
  (∀ (p : Fin 12) (r : AtomReq) (rest : List AtomReq) (s : State),
    hbmOk s = true →
    atomReady s p 0x0B r rest = true →
    (r.from_.all (fun x => x.1 == p.val) = true) →
    r.addr + 8 ≤ 2 ^ 40 →
    ∃ t, exec (.cas64 p) s = .next t ∧ (∀ j < 2 ^ 40, memByte t j = afterWrite s r.addr 8 (if atomOld s r = r.operand.toNat then some r.second.toNat else none) j) ∧ (ptn t p).atomQ = rest ∧
      ∀ i k d, atomOutst s p i k d r = true → anvil t p i = landBytes d (leBytes 8 (atomOld s r) ++ leBytes 8 (if atomOld s r = r.operand.toNat then 1 else 0)) (fun _ => false) { anvil s p i with outst := (anvil s p i).outst.eraseIdx k }) ∧
  (∀ (p : Fin 12) (r : AtomReq) (rest : List AtomReq) (s : State),
    hbmOk s = true →
    atomReady s p 0x0C r rest = true →
    (r.from_.all (fun x => x.1 == p.val) = true) →
    r.addr + 8 ≤ 2 ^ 40 →
    ∃ t, exec (.bitset p) s = .next t ∧ (∀ j < 2 ^ 40, memByte t j = afterWrite s r.addr 8 (some (if bit (atomOld s r) (r.operand.toNat % 64) then atomOld s r else atomOld s r + 2 ^ (r.operand.toNat % 64))) j) ∧ (ptn t p).atomQ = rest ∧
      ∀ i k d, atomOutst s p i k d r = true → anvil t p i = landBytes d (leBytes 8 (atomOld s r)) (fun _ => false) { anvil s p i with outst := (anvil s p i).outst.eraseIdx k }) ∧
  (∀ (p : Fin 12) (r : AtomReq) (rest : List AtomReq) (s : State),
    hbmOk s = true →
    atomReady s p 0x0D r rest = true →
    (r.from_.all (fun x => x.1 == p.val) = true) →
    r.addr + 8 ≤ 2 ^ 40 →
    ∃ t, exec (.bitclr p) s = .next t ∧ (∀ j < 2 ^ 40, memByte t j = afterWrite s r.addr 8 (some (if bit (atomOld s r) (r.operand.toNat % 64) then atomOld s r - 2 ^ (r.operand.toNat % 64) else atomOld s r)) j) ∧ (ptn t p).atomQ = rest ∧
      ∀ i k d, atomOutst s p i k d r = true → anvil t p i = landBytes d (leBytes 8 (atomOld s r)) (fun _ => false) { anvil s p i with outst := (anvil s p i).outst.eraseIdx k }) ∧
  (∀ (p : Fin 12) (r : AtomReq) (rest : List AtomReq) (s : State),
    hbmOk s = true →
    atomReady s p 0x0E r rest = true →
    (r.from_.all (fun x => x.1 == p.val) = true) →
    r.addr + 8 ≤ 2 ^ 40 →
    ∃ t, exec (.hinc p) s = .next t ∧ (∀ j < 2 ^ 40, memByte t j = afterWrite s r.addr 4 (some (min (atomOld s r + 1) 0xFFFFFFFF)) j) ∧ (ptn t p).atomQ = rest ∧
      ∀ i k d, atomOutst s p i k d r = true → anvil t p i = landBytes d (leBytes 8 (atomOld s r)) (fun _ => false) { anvil s p i with outst := (anvil s p i).outst.eraseIdx k }) ∧
  (∀ (p : Fin 12) (r : AtomReq) (rest : List AtomReq) (s : State),
    hbmOk s = true →
    atomReady s p 0x10 r rest = true →
    (r.from_.all (fun x => x.1 == p.val) = true) →
    r.addr + 8 ≤ 2 ^ 40 →
    atomOld s r = 0 →
    (tgetD (ptn s p).holders r.ctx []).length < 16 →
    ∃ t, exec (.semAcq p) s = .next t ∧ (∀ j < 2 ^ 40, memByte t j = afterWrite s r.addr 8 (some (2 ^ 63 + r.ctx % 4096 * 2 ^ 48 + r.operand.toNat % 2 ^ 48)) j) ∧ (ptn t p).atomQ = rest ∧ (ptn t p).holders = tset (ptn s p).holders r.ctx (r.addr :: (tgetD (ptn s p).holders r.ctx [])) ∧
      ∀ i k d, atomOutst s p i k d r = true → anvil t p i = landBytes d (leBytes 8 (0)) (fun _ => false) { anvil s p i with outst := (anvil s p i).outst.eraseIdx k }) ∧
  (∀ (p : Fin 12) (r : AtomReq) (rest : List AtomReq) (s : State),
    hbmOk s = true →
    atomReady s p 0x10 r rest = true →
    (r.from_.all (fun x => x.1 == p.val) = true) →
    r.addr + 8 ≤ 2 ^ 40 →
    atomOld s r ≠ 0 →
    (tgetD (ptn s p).holders r.ctx []).length < 16 →
    ∃ t, exec (.semAcq p) s = .next t ∧ (∀ j < 2 ^ 40, memByte t j = afterWrite s r.addr 8 (none) j) ∧ (ptn t p).atomQ = rest ∧ (ptn t p).holders = (ptn s p).holders ∧
      ∀ i k d, atomOutst s p i k d r = true → anvil t p i = landBytes d (leBytes 8 (atomOld s r)) (fun _ => false) { anvil s p i with outst := (anvil s p i).outst.eraseIdx k }) ∧
  (∀ (p : Fin 12) (r : AtomReq) (rest : List AtomReq) (s : State),
    hbmOk s = true →
    atomReady s p 0x10 r rest = true →
    (r.from_.all (fun x => x.1 == p.val) = true) →
    r.addr + 8 ≤ 2 ^ 40 →
    (tgetD (ptn s p).holders r.ctx []).length ≥ 16 →
    ∃ t, exec (.semAcq p) s = .next t ∧ (∀ j < 2 ^ 40, memByte t j = afterWrite s r.addr 8 (none) j) ∧ (ptn t p).atomQ = rest ∧ (ptn t p).holders = (ptn s p).holders ∧
      ∀ i k d, atomOutst s p i k d r = true → anvil t p i = landBytes d (leBytes 8 (0xFFFF000000000000)) (fun _ => false) { anvil s p i with outst := (anvil s p i).outst.eraseIdx k }) ∧
  (∀ (p : Fin 12) (r : AtomReq) (rest : List AtomReq) (s : State),
    hbmOk s = true →
    atomReady s p 0x11 r rest = true →
    (r.from_.all (fun x => x.1 == p.val) = true) →
    r.addr + 8 ≤ 2 ^ 40 →
    semHeld (atomOld s r) = true →
    semOwner (atomOld s r) = r.ctx →
    ∃ t, exec (.semRel p) s = .next t ∧ (∀ j < 2 ^ 40, memByte t j = afterWrite s r.addr 8 (some 0) j) ∧ (ptn t p).atomQ = rest ∧ (ptn t p).holders = tset (ptn s p).holders r.ctx ((tgetD (ptn s p).holders r.ctx []).filter (· ≠ r.addr)) ∧
      ∀ i k d, atomOutst s p i k d r = true → anvil t p i = landBytes d (leBytes 8 (atomOld s r)) (fun _ => false) { anvil s p i with outst := (anvil s p i).outst.eraseIdx k }) ∧
  (∀ (p : Fin 12) (r : AtomReq) (rest : List AtomReq) (s : State),
    hbmOk s = true →
    atomReady s p 0x11 r rest = true →
    (r.from_.all (fun x => x.1 == p.val) = true) →
    r.addr + 8 ≤ 2 ^ 40 →
    semHeld (atomOld s r) = false ∨ semOwner (atomOld s r) ≠ r.ctx →
    ∃ t, exec (.semRel p) s = .next t ∧ (∀ j < 2 ^ 40, memByte t j = afterWrite s r.addr 8 (none) j) ∧ (ptn t p).atomQ = rest ∧ (ptn t p).holders = (ptn s p).holders ∧
      ∀ i k d, atomOutst s p i k d r = true → anvil t p i = landBytes d (leBytes 8 (atomOld s r)) (fun _ => false) { anvil s p i with outst := (anvil s p i).outst.eraseIdx k })

/-- The order of atomics at a home bank and the elements that are not performed (R199, R213, R214, R383). -/
def Obligations.AtomicOrder : Prop :=
  (∀ (p : Fin 12) (k : Nat × Instr) (s : State),
    k ∈ atomRows p →
    (∀ x, (ptn s p).atomQ.head? = some x → x.code ≠ k.1) →
    exec k.2 s = .next s) ∧
  (∀ (p : Fin 12) (k : Nat × Instr) (s : State),
    k ∈ atomRows p →
    anvilClock (ptn s p) = false →
    (∀ x, (ptn s p).atomQ.head? = some x → (pastDrain (ptn s p) && x.from_.any (fun f => f.1 != p.val)) = false) →
    exec k.2 s = .next s) ∧
  (∀ (p : Fin 12) (k : Nat × Instr) (r : AtomReq) (rest : List AtomReq) (s : State) (q i : Nat),
    k ∈ atomRows p →
    (ptn s p).atomQ = r :: rest →
    r.code = k.1 →
    atomBehind s r = false →
    r.from_ = some (q, i) →
    q ≠ p →
    pastDrain (ptn s p) = true →
    exec k.2 s = .next (failAll (atomCmds s r) .fenced (fenceCode (ptn s p)) (returnOld r 0 false (updPtn p (fun x => { x with atomQ := rest }) s)))) ∧
  (∀ (p : Fin 12) (k : Nat × Instr) (r : AtomReq) (rest : List AtomReq) (s : State) (q i : Nat),
    k ∈ atomRows p →
    (ptn s p).atomQ = r :: rest →
    r.code = k.1 →
    atomBehind s r = false →
    r.from_ = some (q, i) →
    q ≠ p →
    pastDrain (ptn s p) = false →
    anvilClock (ptn s p) = true →
    (r.granted = true → exec k.2 s = .next (performAtom p r (updPtn p (fun x => { x with atomQ := rest }) s))) ∧
      (r.granted = false → r.issued = true → r.waits = true → exec k.2 s = .next s)) ∧
  (∀ (p : Fin 12) (k : Nat × Instr) (r : AtomReq) (rest : List AtomReq) (s : State),
    k ∈ atomRows p →
    (ptn s p).atomQ = r :: rest →
    r.code = k.1 →
    anvilClock (ptn s p) = true →
    atomBehind s r = true →
    exec k.2 s = .next s) ∧
  (∀ (p : Fin 12) (k : Nat × Instr) (r : AtomReq) (rest : List AtomReq) (s : State) (q i : Nat),
    k ∈ atomRows p →
    (ptn s p).atomQ = r :: rest →
    r.code = k.1 →
    anvilClock (ptn s p) = true →
    atomBehind s r = false →
    r.from_ = some (q, i) →
    q ≠ p →
    pastDrain (ptn s p) = false →
    r.granted = false →
    r.issued = false →
    takeIssue (some q) p 1 s = none →
    ∃ t, exec k.2 s = .next t ∧ (ptn t p).atomQ = { r with waits := r.waits || !issueHas (some q) (tokens 1) s } :: rest ∧ t.hbm = s.hbm ∧
      (ptn t q).reg.issWaited = (ptn s q).reg.issWaited + if r.waits || issueHas (some q) (tokens 1) s then 0 else 1) ∧
  (∀ (p : Fin 12) (k : Nat × Instr) (r : AtomReq) (rest : List AtomReq) (s : State) (q i : Nat) (u : State),
    k ∈ atomRows p →
    (ptn s p).atomQ = r :: rest →
    r.code = k.1 →
    anvilClock (ptn s p) = true →
    atomBehind s r = false →
    r.from_ = some (q, i) →
    q ≠ p →
    pastDrain (ptn s p) = false →
    r.granted = false →
    (r.issued && r.waits) = false →
    issueAtom p q r s = (u, true) →
    (ptn u p).farQ ≠ [] ∨ takeReceive p 1 u = none →
    ∃ t, exec k.2 s = .next t ∧ (ptn t p).atomQ = { r with issued := true, waits := true } :: rest ∧ t.hbm = s.hbm) ∧
  (∀ (p : Fin 12) (k : Nat × Instr) (r : AtomReq) (rest : List AtomReq) (s : State) (q i : Nat) (u v : State),
    k ∈ atomRows p →
    (ptn s p).atomQ = r :: rest →
    r.code = k.1 →
    anvilClock (ptn s p) = true →
    atomBehind s r = false →
    r.from_ = some (q, i) →
    q ≠ p →
    pastDrain (ptn s p) = false →
    r.granted = false →
    (r.issued && r.waits) = false →
    issueAtom p q r s = (u, true) →
    (ptn u p).farQ = [] →
    takeReceive p 1 u = some v →
    exec k.2 s = .next (performAtom p r (updPtn p (fun x => { x with atomQ := rest }) v))) ∧
  (∀ (p : Fin 12) (k : Nat × Instr) (r : AtomReq) (rest : List AtomReq) (s : State),
    k ∈ atomRows p →
    (ptn s p).atomQ = r :: rest →
    r.code = k.1 →
    anvilClock (ptn s p) = true →
    atomBehind s r = false →
    (r.from_.all (fun x => x.1 == p.val) = true) →
    ownsHome s r.ctx p = false →
    exec k.2 s = .next (returnOld r 0 false (refuseAccess p r.ctx (updPtn p (fun x => { x with atomQ := rest }) s)))) ∧
  (∀ (p : Fin 12) (k : Nat × Instr) (r : AtomReq) (rest : List AtomReq) (s : State),
    k ∈ atomRows p →
    (ptn s p).atomQ = r :: rest →
    r.code = k.1 →
    anvilClock (ptn s p) = true →
    atomBehind s r = false →
    (r.from_.all (fun x => x.1 == p.val) = true) →
    ownsHome s r.ctx p = true →
    wordPoisoned s r.addr = true →
    exec k.2 s = .next (failAll (atomCmds s r) .uncorrectable (atomPoison r) (returnOld r 0 false (updPtn p (fun x => { x with atomQ := rest }) s))))

/-- A request at its home (R195–R199, R218, R236, R353, R383). hbmOk is kept by every step (StepKeepsInv). The order of near reads on a channel
rests on log 26. -/
def Obligations.MemoryRequests : Prop :=
  (∀ (who : Requester) (req : MemReq) (met : CrucMet) (s : State),
    homeReq s who req = none →
    exec (.memoryRequest who ⟨req, met⟩) s = .next s) ∧
  (∀ (who : Requester) (req : MemReq) (met : CrucMet) (r : HomeReq) (s : State),
    homeReq s who req = some r →
    12 ≤ homePtn r.addr →
    exec (.memoryRequest who ⟨req, met⟩) s = .next (match who with | .anvil p i _ => sandboxFault 1 p i s | .engine p _ _ => postFault (faultCode 1 0x50 p (channelOf r.addr * 2 ^ 11 + pseudoOf r.addr * 2 ^ 10 + 6 * 2 ^ 6)) (answer .refused s) | .west _ _ => postFault (faultCode 1 0x50 0xF (channelOf r.addr * 2 ^ 11 + pseudoOf r.addr * 2 ^ 10 + 6 * 2 ^ 6)) (answer .refused s))) ∧
  (∀ (who : Requester) (req : MemReq) (met : CrucMet) (r : HomeReq) (s : State) (c : Nat),
    homeReq s who req = some r →
    homePtn r.addr < 12 →
    r.ctx = some c →
    ownsHome s c (homePtn r.addr) = false →
    ∃ t, exec (.memoryRequest who ⟨req, met⟩) s = .next t ∧ t = startL0 c (faultCode 10 0x57 (homePtn r.addr) (3 * 2 ^ 12 + c)) none (postFault (faultCode 10 0x57 (homePtn r.addr) (3 * 2 ^ 12 + c)) (answer .refused s))) ∧
  (∀ (who : Requester) (req : MemReq) (met : CrucMet) (r : HomeReq) (s : State) (f : FenceRec),
    homeReq s who req = some r →
    homePtn r.addr < 12 →
    (r.ctx.all (fun c => ownsHome s c (homePtn r.addr)) = true) →
    isFar r = true →
    (ptn s (homePtn r.addr)).fence = some f →
    f.step ≥ 5 →
    exec (.memoryRequest who ⟨req, met⟩) s = .next (failAll (reqCmds s who) .fenced f.code (answer .refused s))) ∧
  (∀ (who : Requester) (req : MemReq) (met : CrucMet) (r : HomeReq) (s : State),
    homeReq s who req = some r →
    homePtn r.addr < 12 →
    (r.ctx.all (fun c => ownsHome s c (homePtn r.addr)) = true) →
    (isFar r && pastDrain (ptn s (homePtn r.addr))) = false →
    takesRequests (ptn s (homePtn r.addr)) = false →
    exec (.memoryRequest who ⟨req, met⟩) s = .next (demand (homePtn r.addr) s)) ∧
  (∀ (who : Requester) (req : MemReq) (met : CrucMet) (r : HomeReq) (s : State) (bs : List Byte),
    homeReq s who req = some r →
    homePtn r.addr < 12 →
    (r.ctx.all (fun c => ownsHome s c (homePtn r.addr)) = true) →
    isFar r = false →
    takesRequests (ptn s (homePtn r.addr)) = true →
    met = .clean →
    hbmOk s = true →
    r.write = some bs →
    r.addr + bs.length ≤ 2 ^ 40 →
    fromUnit who = true →
    ∃ t, exec (.memoryRequest who ⟨req, met⟩) s = .next t ∧ (∀ j < 2 ^ 40, memByte t j = if r.addr ≤ j ∧ j < r.addr + bs.length then bs.getD (j - r.addr) 0 else memByte s j) ∧ t.host.answer = .written) ∧
  (∀ (who : Requester) (req : MemReq) (met : CrucMet) (r : HomeReq) (s : State),
    homeReq s who req = some r →
    homePtn r.addr < 12 →
    (r.ctx.all (fun c => ownsHome s c (homePtn r.addr)) = true) →
    isFar r = false →
    takesRequests (ptn s (homePtn r.addr)) = true →
    met = .clean →
    hbmOk s = true →
    r.write = none →
    fromUnit who = true →
    (chanEnts (ptn s (homePtn r.addr)) (channelOf r.addr)).length ≤ 24 →
    ∃ t, exec (.memoryRequest who ⟨req, met⟩) s = .next t ∧ (∀ j, memByte t j = memByte s j) ∧ t.host.answer = .data ((upto r.len).map fun i => viewByte s (r.addr + i)) (rangePoisoned s r.addr r.len)) ∧
  (∀ (who : Requester) (req : MemReq) (met : CrucMet) (r : HomeReq) (s : State) (p : Fin 12) (a : Fin 864) (i : Nat) (o : Outst),
    homeReq s who req = some r →
    homePtn r.addr < 12 →
    (r.ctx.all (fun c => ownsHome s c (homePtn r.addr)) = true) →
    isFar r = false →
    takesRequests (ptn s (homePtn r.addr)) = true →
    met = .clean →
    hbmOk s = true →
    who = .anvil p a i →
    (anvil s p a).outst[i]? = some o →
    o.isStore = true →
    o.poison = false →
    o.bytes.length = 64 * o.lines →
    o.addr + 64 * o.lines ≤ 2 ^ 40 →
    ∃ t, exec (.memoryRequest who ⟨req, met⟩) s = .next t ∧ (∀ j < 2 ^ 40, memByte t j = if o.addr ≤ j ∧ j < o.addr + 64 * o.lines then o.bytes.getD (j - o.addr) 0 else memByte s j) ∧ (anvil t p a).outst = (anvil s p a).outst.eraseIdx i) ∧
  (∀ (who : Requester) (req : MemReq) (met : CrucMet) (r : HomeReq) (s : State) (p : Fin 12) (a : Fin 864) (i : Nat) (o : Outst),
    homeReq s who req = some r →
    homePtn r.addr < 12 →
    (r.ctx.all (fun c => ownsHome s c (homePtn r.addr)) = true) →
    isFar r = false →
    takesRequests (ptn s (homePtn r.addr)) = true →
    met = .clean →
    hbmOk s = true →
    who = .anvil p a i →
    (anvil s p a).outst[i]? = some o →
    o.isStore = false →
    yieldsTurn s r who = false →
    (chanEnts (ptn s (homePtn r.addr)) (channelOf r.addr)).length ≤ 24 →
    ∃ t, exec (.memoryRequest who ⟨req, met⟩) s = .next t ∧ (∀ j, memByte t j = memByte s j) ∧
      (anvil t p a).outst = (anvil s p a).outst.set i { o with served := true, bytes := fetchBytes s o r.len, badLines := (upto o.lines).filter fun j => rangePoisoned s (o.addr + 64 * j) 64 }) ∧
  (∀ (who : Requester) (req : MemReq) (met : CrucMet) (r : HomeReq) (s : State),
    homeReq s who req = some r →
    homePtn r.addr < 12 →
    (r.ctx.all (fun c => ownsHome s c (homePtn r.addr)) = true) →
    (isFar r && pastDrain (ptn s (homePtn r.addr))) = false →
    takesRequests (ptn s (homePtn r.addr)) = true →
    met = .clean →
    yieldsTurn s r who = true →
    exec (.memoryRequest who ⟨req, met⟩) s = .next s) ∧
  (∀ (p ch : Nat) (s : State),
    (chanEnts (ptn s p) ch).length ≤ 56 →
    (chanEnts (ptn (drainChannel 32 p ch s) p) ch).length ≤ 24) ∧
  (∀ (who : Requester) (req : MemReq) (met : CrucMet) (r : HomeReq) (s : State),
    homeReq s who req = some r →
    homePtn r.addr < 12 →
    (r.ctx.all (fun c => ownsHome s c (homePtn r.addr)) = true) →
    (isFar r && pastDrain (ptn s (homePtn r.addr))) = false →
    takesRequests (ptn s (homePtn r.addr)) = true →
    met = .tag →
    exec (.memoryRequest who ⟨req, met⟩) s = .next (engineFault 0x50 (homePtn r.addr) (tagFault r.addr) (postFault (tagFault r.addr) s))) ∧
  (∀ (who : Requester) (req : MemReq) (met : CrucMet) (r : HomeReq) (s : State),
    homeReq s who req = some r →
    homePtn r.addr < 12 →
    (r.ctx.all (fun c => ownsHome s c (homePtn r.addr)) = true) →
    (isFar r && pastDrain (ptn s (homePtn r.addr))) = false →
    takesRequests (ptn s (homePtn r.addr)) = true →
    met = .holder →
    exec (.memoryRequest who ⟨req, met⟩) s = .next (startL2 (homePtn r.addr) (tagFault r.addr) true false (postFault (tagFault r.addr) s))) ∧
  (∀ (who : Requester) (req : MemReq) (met : CrucMet) (r : HomeReq) (s : State),
    homeReq s who req = some r →
    homePtn r.addr < 12 →
    (r.ctx.all (fun c => ownsHome s c (homePtn r.addr)) = true) →
    (isFar r && pastDrain (ptn s (homePtn r.addr))) = false →
    takesRequests (ptn s (homePtn r.addr)) = true →
    met = .data →
    yieldsTurn (dropCached r.addr r.len s) r who = false →
    exec (.memoryRequest who ⟨req, met⟩) s = .next (if isFar r then farRequest (homePtn r.addr) r who (dropCached r.addr r.len s) else serveReq who r (dropCached r.addr r.len s))) ∧
  (∀ (who : Requester) (req : MemReq) (met : CrucMet) (r : HomeReq) (s : State),
    homeReq s who req = some r →
    homePtn r.addr < 12 →
    (r.ctx.all (fun c => ownsHome s c (homePtn r.addr)) = true) →
    isFar r = true →
    pastDrain (ptn s (homePtn r.addr)) = false →
    takesRequests (ptn s (homePtn r.addr)) = true →
    met = .clean →
    yieldsTurn s r who = false →
    exec (.memoryRequest who ⟨req, met⟩) s = .next (farRequest (homePtn r.addr) r who s)) ∧
  (∀ (h : Nat) (r : HomeReq) (who : Requester) (s : State),
    inFarQ (ptn s h) who { addr := r.addr, len := r.len, write := r.write } = true ∨ farLines (ptn s h) + lineCount r.addr r.len > 1024 →
    farRequest h r who s = s) ∧
  (∀ (h : Nat) (r : HomeReq) (who : Requester) (s : State),
    inFarQ (ptn s h) who { addr := r.addr, len := r.len, write := r.write } = false →
    farLines (ptn s h) + lineCount r.addr r.len ≤ 1024 →
    takeIssue r.issuer h (lineCount r.addr r.len) s = none →
    farRequest h r who s = noteIssueWait r.issuer h (lineCount r.addr r.len) (who, { addr := r.addr, len := r.len, write := r.write }) s) ∧
  (∀ (h : Nat) (r : HomeReq) (who : Requester) (s u v : State),
    inFarQ (ptn s h) who { addr := r.addr, len := r.len, write := r.write } = false →
    farLines (ptn s h) + lineCount r.addr r.len ≤ 1024 →
    (ptn s h).farQ = [] →
    takeIssue r.issuer h (lineCount r.addr r.len) s = some u →
    takeReceive h (lineCount r.addr r.len) u = some v →
    farRequest h r who s = serveReq who r v) ∧
  (∀ (h : Nat) (r : HomeReq) (who : Requester) (s u : State),
    inFarQ (ptn s h) who { addr := r.addr, len := r.len, write := r.write } = false →
    farLines (ptn s h) + lineCount r.addr r.len ≤ 1024 →
    takeIssue r.issuer h (lineCount r.addr r.len) s = some u →
    (ptn s h).farQ ≠ [] ∨ takeReceive h (lineCount r.addr r.len) u = none →
    ∃ t, farRequest h r who s = t ∧ (ptn t h).farQ = (ptn s h).farQ ++ [{ issuer := r.issuer, who := who, req := { addr := r.addr, len := r.len, write := r.write } }] ∧ t.hbm = s.hbm) ∧
  (∀ (p : Fin 12) (s : State),
    nextFar (ptn s p) = none →
    waitingAtom (ptn s p) = none →
    exec (.farQueueServe p) s = .next (serveWaits p s)) ∧
  (∀ (p : Fin 12) (q : FarReq) (s u : State),
    nextFar (ptn s p) = some q →
    (∀ w ∈ waitingAtom (ptn s p), turnOf (ptn s p) q.issuer ≤ turnOf (ptn s p) (some w.1)) →
    takeReceive p (lineCount q.req.addr q.req.len) s = some u →
    exec (.farQueueServe p) s = .next (serveWaits p (serveQueued q (updPtn p (fun x => { x with farQ := removeFirst q x.farQ, farLast := issuerRank q.issuer }) u)))) ∧
  (∀ (p : Fin 12) (q : FarReq) (s : State),
    nextFar (ptn s p) = some q →
    (∀ w ∈ waitingAtom (ptn s p), turnOf (ptn s p) q.issuer ≤ turnOf (ptn s p) (some w.1)) →
    takeReceive p (lineCount q.req.addr q.req.len) s = none →
    exec (.farQueueServe p) s = .next (serveWaits p s)) ∧
  (∀ (p : Fin 12) (i : Nat) (r : AtomReq) (s u : State),
    waitingAtom (ptn s p) = some (i, r) →
    (∀ q ∈ nextFar (ptn s p), turnOf (ptn s p) (some i) < turnOf (ptn s p) q.issuer) →
    takeReceive p 1 s = some u →
    exec (.farQueueServe p) s = .next (serveWaits p (setAtomHead p { r with granted := true } (updPtn p (fun x => { x with farLast := i }) u))))

/-- Reads, write-combining flushes, scrubs and rate adaption (R202, R205, R208, R219–R222). -/
def Obligations.MemoryEvents : Prop :=
  (∀ (p : Fin 12) (line fixed : Nat) (bad : List Nat) (s : State),
    (ptn s p).power ≠ .cold →
    line % 64 = 0 →
    line < 2 ^ 36 →
    bad = [] →
    ∃ t, exec (.hbmReadComplete p line fixed bad) s = .next t ∧ (ptn t p).ceCnt = BitVec.ofNat 32 (min 0xFFFFFFFF ((ptn s p).ceCnt.toNat + fixed)) ∧ (ptn t p).ueCnt = (ptn s p).ueCnt ∧
      (ptn t p).writeBack = (if fixed > 0 ∧ ¬(ptn s p).writeBack.contains line then (ptn s p).writeBack ++ [line] else (ptn s p).writeBack) ∧ t.poison = s.poison ∧ t.hbm = s.hbm) ∧
  (∀ (p : Fin 12) (line fixed n : Nat) (s : State),
    (ptn s p).power ≠ .cold →
    line % 64 = 0 →
    line < 2 ^ 36 →
    n < 8 →
    s.poison.contains (p.val * 2 ^ 36 + line + 8 * n) = false →
    ∃ t, exec (.hbmReadComplete p line fixed [n]) s = .next t ∧ t.poison = (p.val * 2 ^ 36 + line + 8 * n) :: s.poison ∧ (ptn t p).ueCnt = satInc (ptn s p).ueCnt ∧
      t.aon.codes.head? = some (faultCode 1 (0x30 + channelOf (p.val * 2 ^ 36 + line + 8 * n)) p (channelOf (p.val * 2 ^ 36 + line + 8 * n) * 2 ^ 11 + pseudoOf (p.val * 2 ^ 36 + line + 8 * n) * 2 ^ 10 + 1 * 2 ^ 6)) ∧ bit t.host.evtPend.toNat Event.memUe.bit = true ∧
      t.hbm = mwriteAll s.hbm (p.val * 2 ^ 36 + line + 8 * n) (leBytes 8 (Config.badData s.free).toNat)) ∧
  (∀ (p : Fin 12) (ch : Fin 32) (bad : List Nat) (s : State),
    hbmOk s = true →
    bad = [] →
    ∃ t, exec (.wcbAgeFlush p ch bad) s = .next t ∧ (∀ j < 2 ^ 40, memByte t j = memByte s j) ∧ (∀ e, (chanEnts (ptn s p) ch).head? = some e → wcbEnt (ptn t p) e.line = none)) ∧
  (∀ (p : Fin 12) (bad : List (Nat × Nat)) (s : State),
    (ptn s p).wcFences = [] →
    exec (.wcFence ⟨p, bad⟩) s = .next s) ∧
  (∀ (p : Fin 12) (l : List Nat) (f : List WcFence) (why : FenceFor) (s : State),
    (ptn s p).wcFences = { why := why, lines := l } :: f →
    hbmOk s = true →
    why = .zeroise →
    ∃ t, exec (.wcFence ⟨p, []⟩) s = .next t ∧ (∀ j < 2 ^ 40, memByte t j = memByte s j) ∧ (∀ x ∈ l, wcbEnt (ptn t p) x = none) ∧ (ptn t p).wcFences = f) ∧
  (∀ (p : Fin 12) (w : WcFence) (f : List WcFence) (bad : List (Nat × Nat)) (s : State),
    (ptn s p).wcFences = w :: f →
    w.why ≠ .reset →
    exec (.wcFence ⟨p, bad⟩) s = .next (afterWcFence p w.why (updPtn p (fun x => { x with wcFences := x.wcFences.drop 1 }) (w.lines.foldl (fun s l => flushLine p l (wordsOf bad l) s) s)))) ∧
  (∀ (p : Fin 12) (w : WcFence) (f : List WcFence) (bad : List (Nat × Nat)) (s : State),
    (ptn s p).wcFences = w :: f →
    w.why = .reset →
    exec (.wcFence ⟨p, bad⟩) s = .next (fenceWritten p (updPtn p (fun x => { x with wcFences := x.wcFences.drop 1 }) ((w.lines.filter fun l => !(faultyOf (ptn s p)).contains (channelOf l)).foldl (fun s l => flushLine p l (wordsOf bad l) s) s)))) ∧
  (∀ (p : Fin 12) (ch : Fin 32) (fixed : Nat) (s : State),
    scrubRuns s p ch = true →
    ∃ t, exec (.scrubRead p ch fixed []) s = .next t ∧ scrubAt (ptn t p) ch = (scrubAt (ptn s p) ch + 1) % 2 ^ 25 ∧ (ptn t p).ceCnt = BitVec.ofNat 32 (min 0xFFFFFFFF ((ptn s p).ceCnt.toNat + fixed)) ∧
      (ptn t p).writeBack = (ptn s p).writeBack.filter (fun l => channelOf l != ch) ∧ t.poison = s.poison ∧ t.hbm = s.hbm) ∧
  (∀ (p : Fin 12) (found : List (Nat × Nat × List Nat)) (s : State),
    (ptn s p).power = .banked →
    (found.all (fun f => f.2.2 == []) = true) →
    ∃ t, exec (.scrubBurst ⟨p, found⟩) s = .next t ∧ (∀ ch < 32, scrubAt (ptn t p) ch = (scrubAt (ptn s p) ch + 32) % 2 ^ 25) ∧ (ptn t p).writeBack = [] ∧ t.hbm = s.hbm ∧
      (ptn t p).ceCnt = BitVec.ofNat 32 (min 0xFFFFFFFF ((found.filter fun f => burstHas (ptn s p) f.1).foldl (fun n f => n + f.2.1) (ptn s p).ceCnt.toNat))) ∧
  (∀ (p : Fin 12) (obs : AdaptObs) (s : State),
    takesRequests (ptn s p) = true →
    ∃ t, exec (.regAdapt p obs) s = .next t ∧ (let r := (ptn s p).reg; let cap := stepRate (ptn s p).temp.step
      (ptn t p).reg.rcv = (if obs.utilMilli > 900 ∧ obs.nearWaiting > 0 then max r.rcvMin (r.rcv - r.rcv / 8) else if r.rcvWaited > 0 then min r.rcvMax (r.rcv + 512) else r.rcv) ∧
      (ptn t p).reg.rcvEff = min (ptn t p).reg.rcv (cap / 2) ∧
      (ptn t p).reg.iss = (if r.blocked > r.issWaited then max r.issMin (r.iss - r.iss / 8) else if r.issWaited > 0 then min r.issMax (r.iss + 512) else r.iss) ∧
      (ptn t p).reg.conflict = decide ((ptn t p).reg.rcvEff < r.rcvMin) ∧ (ptn t p).reg.rcvWaited = (stillWaiting p s r).rcvWaited ∧ (ptn t p).reg.issWaited = (stillWaiting p s r).issWaited ∧
      (ptn t p).reg.blocked = (stillWaiting p s r).blocked ∧ (ptn t p).reg.waited = BitVec.ofNat 16 (min 65535 r.rcvWaited)) ∧
      (ptn t p).postedConflict = ((ptn s p).postedConflict.map fun c => (c.1, c.2.1, if minimumMet s p (ptn t p) c.1 c.2.1 then c.2.2 + 1 else 0)).filter fun c => decide (c.2.2 < 12500))

/-- Stack temperature in half degrees (R223–R226), policy conflicts (R369), hot counts (R212), clip windows (R31). -/
def Obligations.TemperatureAndCounts : Prop :=
  (∀ (p : Fin 12) (t : Option Int) (s : State),
    (ptn s p).power ≠ .cold →
    (sampleStack t (ptn s p).temp).2 = none →
    ∃ u, exec (.stackTempSample p t) s = .next u ∧ (ptn u p).temp = (sampleStack t (ptn s p).temp).1) ∧
  (∀ (p : Fin 12) (t : Option Int) (v : Int) (s : State),
    (ptn s p).power ≠ .cold →
    (sampleStack t (ptn s p).temp).2 = some v →
    (nextThrottle (ptn s p).temp.step v = 4 → (ptn s p).temp.step = 4) →
    ∃ u, exec (.stackTempSample p t) s = .next u ∧ (ptn u p).temp = { (sampleStack t (ptn s p).temp).1 with step := nextThrottle (ptn s p).temp.step v } ∧
      (((sampleStack t (ptn s p).temp).1.bad = true ∧ (ptn s p).temp.bad = false) → u.aon.codes.head? = some (faultCode 8 0x56 p (2 * 2 ^ 12))) ∧
      (ptn u p).fence = (ptn s p).fence ∧
      (ptn u p).exiting = if (ptn s p).temp.step = 4 ∧ nextThrottle (ptn s p).temp.step v ≠ 4 ∧ (ptn s p).power = .banked ∧ (ptn s p).fence.any (fun f => f.thermal && f.step == 6) = true then some .banked
        else (ptn s p).exiting) ∧
  (∀ (p : Fin 12) (t : Option Int) (v : Int) (s : State),
    (ptn s p).power ≠ .cold →
    (sampleStack t (ptn s p).temp).2 = some v →
    nextThrottle (ptn s p).temp.step v = 4 →
    (ptn s p).temp.step ≠ 4 →
    ∃ u, exec (.stackTempSample p t) s = .next u ∧ (ptn u p).temp.step = 4 ∧ u.aon.codes.head? = some (faultCode 8 0x56 p (1 * 2 ^ 12)) ∧ (ptn u p).fence = (joinFence { code := faultCode 8 0x56 p (1 * 2 ^ 12), thermal := true } (ptn s p)).fence ∧
      ((ptn s p).fence = none → (ptn u p).fence = some { code := faultCode 8 0x56 p (1 * 2 ^ 12), thermal := true })) ∧
  (∀ (v : Int) (x : StackT) (o : Option Int),
    o = some v →
    -80 ≤ v →
    v ≤ 300 →
    x.bad = true →
    sampleStack o x = ({ x with samples := [v], valid := 1, invalidRun := 0, bad := false, filtered := some v }, some v)) ∧
  (∀ (v : Int) (x : StackT) (o : Option Int),
    o = some v →
    -80 ≤ v →
    v ≤ 300 →
    x.bad = false →
    x.valid + 1 ≥ 5 →
    (sampleStack o x).2 = some (lget (sortBy (fun a b => decide (a ≤ b)) ((x.samples ++ [v]).drop (x.samples.length - 4))) 2 0)) ∧
  (∀ (v : Int) (x : StackT) (o : Option Int),
    o = some v →
    -80 ≤ v →
    v ≤ 300 →
    x.bad = false →
    x.valid + 1 < 5 →
    (sampleStack o x).2 = some (((x.samples ++ [v]).drop (x.samples.length - 4)).foldl max (((x.samples ++ [v]).drop (x.samples.length - 4)).headD 0))) ∧
  (∀ (x : StackT) (o : Option Int),
    (o = none ∨ ∃ v, o = some v ∧ (v < -80 ∨ 300 < v)) →
    (sampleStack o x).1 = { x with invalidRun := x.invalidRun + 1, bad := decide (x.invalidRun + 1 ≥ 3) } ∧
      (sampleStack o x).2 = if x.invalidRun + 1 ≥ 10 then some 208 else if x.invalidRun + 1 ≥ 3 then some 200 else x.filtered) ∧
  (∀ (cur : Nat) (t : Int),
    cur ≤ 4 →
    (t ≥ 208 → nextThrottle cur t = 4) ∧ (cur = 0 → t < 184 → nextThrottle cur t = 0) ∧ (cur = 1 → 178 ≤ t → t < 192 → nextThrottle cur t = 1) ∧ (cur = 4 → 190 ≤ t → nextThrottle cur t = 4) ∧
      (cur = 4 → t < 184 → nextThrottle cur t = 0)) ∧
  (∀ (p : Fin 12) (l m : Nat) (s : State),
    mayConflict (ptn s p) l m = true →
    ∃ t, exec (.policyConflict p l m) s = .next t ∧ bit t.host.evtPend.toNat Event.policyConflict.bit = true ∧ (ptn t p).postedConflict = (l, m, 0) :: (ptn s p).postedConflict) ∧
  (∀ (p : Fin 12) (s : State),
    (ptn s p).fetches ≥ 2 ^ 20 →
    ∃ t, exec (.hotCountHalve p) s = .next t ∧ (ptn t p).fetches = (ptn s p).fetches - 2 ^ 20 ∧ (ptn t p).hot = (tmap (fun _ n => n / 2) (ptn s p).hot).filter fun e => e.2 > 0) ∧
  (∀ (p : Fin 12) (c n cmd : Nat) (l : List (Nat × Nat)) (s : State),
    (collPtn (coll s c) p).closedWins = (n, cmd) :: l →
    ∃ t, exec (.clipWindowClose p c) s = .next t ∧ (collPtn (coll t c) p).closedWins = l ∧ (n * 2 ^ (coll s c).tau > 2 ^ 20 → bit t.host.evtPend.toNat Event.satDrift.bit = true ∧ cmd? t cmd = (cmd? s cmd).map fun x => { x with sat := true }) ∧
      (n * 2 ^ (coll s c).tau ≤ 2 ^ 20 → t.host = s.host ∧ t.cmds = s.cmds)) ∧
  (∀ (p : Fin 12) (c : Nat) (s : State),
    (collPtn (coll s c) p).closedWins = [] →
    exec (.clipWindowClose p c) s = .next s)

/-- Commits and epochs (R169, R173, R174, R90, R91, R93, R142). -/
def Obligations.CommitsAndEpochs : Prop :=
  (∀ (s : State) (n : Nat) (c : Nat) (rest : List Nat) (x : Cmd) (t : State),
    homeRuns s n = true →
    (coll s n).queue = c :: rest →
    cmd? s c = some x →
    (x.committing || (commitRefused s n x).isNone) = true →
    turnedAway s (commitReach s n x) = none →
    batchStale (coll s n) x = false →
    prepareBatch c x s = some t →
    ∃ u m, exec (.batchCommit n) s = .next (queueWaiting n (liftHorizons (autoTrainNow n (liveTotal (coll s n)) (afterCommit c u)))) ∧
      (coll u n).queue = rest ∧ (coll u n).csn = (coll s n).csn + 1 ∧ (coll u n).openCommits = (coll s n).openCommits + 1 ∧
      cmd? u c = some m ∧ m.epoch = succEpoch (coll s n).latest ∧ m.csn = (coll s n).csn + 1) ∧
  (∀ (s : State) (n : Nat) (c : Nat) (rest : List Nat) (x : Cmd) (st : Status) (i : Nat),
    homeRuns s n = true →
    (coll s n).queue = c :: rest →
    cmd? s c = some x →
    x.committing = false →
    commitRefused s n x = some (st, i) →
    exec (.batchCommit n) s = .next (queueWaiting n (updCmd c (fun k => { k with count := i }) (failCmd c st 0 s)))) ∧
  (∀ (s : State) (n : Nat) (c : Nat) (rest : List Nat) (x : Cmd),
    homeRuns s n = true →
    (coll s n).queue = c :: rest →
    cmd? s c = some x →
    (x.committing || (commitRefused s n x).isNone) = true →
    (turnedAway s (commitReach s n x) = none → batchStale (coll s n) x = true → exec (.batchCommit n) s = .next (queueWaiting n (reappend c x s))) ∧
      (turnedAway s (commitReach s n x) = none → batchStale (coll s n) x = false → prepareBatch c x s = none → exec (.batchCommit n) s = .next (queueWaiting n (liftHorizons s))) ∧
      (∀ code, turnedAway s (commitReach s n x) = some code → exec (.batchCommit n) s = .next (queueWaiting n (if x.committing then s else failCmd c .fenced code s)))) ∧
  (∀ (s : State) (n : Nat),
    homeRuns s n = true →
    (coll s n).queue = [] →
    exec (.batchCommit n) s = .next (queueWaiting n s)) ∧
  (∀ (s : State) (n : Nat),
    homeRuns s n = false →
    exec (.batchCommit n) s = .next s ∧ exec (.epochClose n) s = .next s) ∧
  (∀ (s : State) (n : Nat),
    mayClose s n = true →
    ∃ t, exec (.epochClose n) s = .next t ∧ (coll t n).latest = succEpoch (coll s n).latest ∧ (coll t n).openCommits = 0 ∧
      (∀ p q, tget (coll s n).ptns p = some q → tget (coll t n).ptns p =
        some (if awakePtn s p then { q with latest := succEpoch (coll s n).latest } else q)) ∧ ∀ m ≠ n, coll t m = coll s m) ∧
  (∀ (s : State) (n : Nat) (e : Epoch),
    mayAdvance s n e = true →
    ∃ t, exec (.horizonAdvance n e) s = .next t ∧ (coll t n).horizon = e ∧ coll t n = { coll s n with horizon := e, ptns := (coll t n).ptns } ∧
      (∀ p q, tget (coll s n).ptns p = some q → tget (coll t n).ptns p = some (if awakePtn s p then { q with horizon := e } else q)) ∧
      ∀ p, ∀ l ∈ (ptn t p).log, (l.2.coll == n && l.2.epoch != 0 && epochLe l.2.epoch e) = false) ∧
  (∀ (s : State) (n : Nat) (b i : Nat) (k : Brick),
    chunkAnvil s (ptnOfAddr b) (fun q => chunkOf 7 n q && q.bricks.any (·.brick == b)) = some i →
    brick? (coll s n) b = some k →
    ∃ t u, exec (.settlingSweep n b) s = .next t ∧ t = sweptBrick (ptnOfAddr b) i b u ∧ t.colls = u.colls ∧
      brick? (coll t n) b = some { k with settled := k.settled || brickSettles (coll s n) k } ∧
      (coll t n).postings = tmap (fun _ (l : List PBlock) => l.map fun q => { q with entries := q.entries.map fun e => if e.brick = b ∧ e.epoch ≠ 0 ∧ epochLe e.epoch (coll s n).horizon then { e with epoch := 0 } else e }) (coll s n).postings) ∧
  (∀ (s : State) (n : Nat) (b : Nat),
    chunkAnvil s (ptnOfAddr b) (fun q => chunkOf 7 n q && q.bricks.any (·.brick == b)) = none →
    exec (.settlingSweep n b) s = .next s)

/-- The journal in time (R179–R182, R184, R433). -/
def Obligations.JournalAcks : Prop :=
  (∀ (s : State) (c x : Nat) (r : JRec) (j : Journal),
    writingRec s c = some (x, r) →
    journal? s x = some j →
    ∃ t k, exec (.journalAck c .ok) s = .next t ∧ journal? t x = some k ∧ k.written = (passAcked (markAcked r j.recs) j.size j.written).2 ∧
      t.host = (if k.written = j.written ∨ cacheUsable s = false then sentRecord x r s else updHost (fun h => { h with cache := h.cache ++ [{ kind := .data, addr := j.base + BitVec.ofNat 64 8, bytes := leBytes 8 k.written }] }) (sentRecord x r s)).host) ∧
  (∀ (s : State) (c x : Nat) (r : JRec) (k : Cmd),
    writingRec s c = some (x, r) →
    r.pad = false →
    cmd? s c = some k →
    k.stage = .committed →
    isIngest k.opcode = true →
    k.opcode ≠ 0x28 →
    epochLe k.epoch (coll s k.coll).latest = true →
    k.committing = false →
    ∃ t, exec (.journalAck c .ok) s = .next t ∧ cmd? t c = some { k with acked := true, stage := .final, count := if k.opcode = 0x22 then k.deleted else iCount k.entry }) ∧
  (∀ (s : State) (c x : Nat) (r : JRec) (k : Cmd),
    writingRec s c = some (x, r) →
    r.pad = false →
    cmd? s c = some k →
    k.stage = .committed →
    ∃ t, exec (.journalAck c .ok) s = .next t ∧
      (k.opcode = 0x28 → cmd? t c = some { k with stage := .final, count := k.coveredOk, epoch := (coll s k.coll).latest }) ∧
      (k.opcode ≠ 0x28 → isIngest k.opcode = true → eForce k.entry = true → k.origin = none → epochLe k.epoch (coll s k.coll).latest = false →
        cmd? t c = some { k with acked := true })) ∧
  (∀ (s : State) (c x : Nat) (r : JRec) (j : Journal) (a : AckReply),
    writingRec s c = some (x, r) →
    journal? s x = some j →
    a ≠ .ok →
    ∃ t u, exec (.journalAck c a) s = .next t ∧ exec (.journalAckTimeout c) s = .next u ∧
      t.aon.codes.head? = some (cacheFault s 5 c) ∧ u.aon.codes.head? = some (cacheFault s 6 c) ∧
      journal? t x = some { j with broken := true, recs := j.recs.map fun k => if k = r then { k with cmd := 0, st := .failed } else k } ∧ journal? u x = journal? t x ∧
      bit t.host.evtPend.toNat Event.journalFault.bit = true ∧ bit u.host.evtPend.toNat Event.journalFault.bit = true) ∧
  (∀ (s : State) (c : Nat) (a : AckReply),
    writingRec s c = none →
    exec (.journalAck c a) s = .next s ∧ exec (.journalAckTimeout c) s = .next s) ∧
  (∀ (s : State) (c x : Nat) (r : JRec) (j : Journal) (k : Cmd) (a : AckReply),
    writingRec s c = some (x, r) →
    r.pad = false →
    journal? s x = some j →
    cmd? s c = some k →
    k.stage = .committed →
    a ≠ .ok →
    ∃ t, exec (.journalAck c a) s = .next t ∧ cmd? t c = some { k with stage := .final, status := .uncorrectable, fault := hostFault 0x72 5 (some k.ring), count := if k.opcode = 0x28 then k.coveredOk else 0 } ∧
      (journal? t x).any (·.broken) = true ∧ t.aon.codes.head? = some (hostFault 0x72 5 (some k.ring))) ∧
  (∀ (s : State) (c x : Nat) (r : JRec) (j : Journal) (k : Cmd),
    writingRec s c = some (x, r) →
    r.pad = false →
    journal? s x = some j →
    cmd? s c = some k →
    k.stage = .committed →
    ∃ t, exec (.journalAckTimeout c) s = .next t ∧ cmd? t c = some { k with stage := .final, status := .timeout, fault := hostFault 0x72 6 (some k.ring), count := if k.opcode = 0x28 then k.coveredOk else 0 } ∧
      (journal? t x).any (·.broken) = true ∧ t.aon.codes.head? = some (hostFault 0x72 6 (some k.ring))) ∧
  (∀ (s : State) (c : Nat) (k : Cmd),
    cmd? s c = some k →
    k.stage = .journalWait →
    mustCommit k = false →
    ∃ t y, exec (.journalSpaceTimeout c) s = .next t ∧ cmd? t c = some y ∧ y.stage = .final ∧ y.status = .timeout ∧ y.count = 0 ∧ y.fault = 0) ∧
  (∀ (s : State) (c : Nat),
    (cmd? s c).all (fun k => k.stage != .journalWait || mustCommit k) = true →
    exec (.journalSpaceTimeout c) s = .next s) ∧
  (∀ (s : State) (x : Nat) (j : Journal),
    cacheUsable s = true →
    spaceWaiters s x ≠ [] →
    journal? s x = some j →
    j.rereading = false →
    ∃ t, exec (.releasedReread x) s = .next t ∧ journal? t x = some { j with rereading := true, forRing := ((spaceWaiters s x).head?.bind (cmd? s)).map (·.ring) }) ∧
  (∀ (s : State) (x : Nat),
    (cacheUsable s = false ∨ spaceWaiters s x = [] ∨ (journal? s x).any (·.rereading) = true) →
    exec (.releasedReread x) s = .next s) ∧
  (∀ (s : State) (x : Nat) (j : Journal) (bs : List Byte),
    journal? s x = some j →
    j.rereading = true →
    releasedValid j (field bs 0 8) = true →
    ∃ u, exec (.releasedReadDone x (.data bs)) s = .next (retrySpace x u) ∧ journal? u x = some { j with rereading := false, unread := false, released := field bs 0 8 } ∧ u.cmds = s.cmds) ∧
  (∀ (s : State) (x : Nat) (j : Journal) (bs : List Byte),
    journal? s x = some j →
    j.rereading = true →
    releasedValid j (field bs 0 8) = false →
    ∃ u, exec (.releasedReadDone x (.data bs)) s = .next (retrySpace x u) ∧ journal? u x = some { j with rereading := false, unread := false } ∧ bit u.host.evtPend.toNat 8 = true ∧ u.cmds = s.cmds) ∧
  (∀ (s : State) (x : Nat) (j : Journal) (a : ReadReply),
    journal? s x = some j →
    j.rereading = true →
    (∀ bs, a ≠ .data bs) →
    a ≠ .timeout →
    ∃ u, exec (.releasedReadDone x a) s = .next ((spaceWaiters s x).foldl (fun v c => failCmd c .uncorrectable (hostFault 0x72 5 j.forRing) (updCmd c (fun k => { k with noEpoch := true }) v)) u) ∧
      journal? u x = some { j with rereading := false, broken := true } ∧ u.aon.codes.head? = some (hostFault 0x72 5 j.forRing)) ∧
  (∀ (s : State) (x : Nat) (j : Journal),
    journal? s x = some j →
    j.rereading = true →
    exec (.releasedReadDone x .timeout) s = exec (.releasedReadTimeout x) s ∧
    ∃ u, exec (.releasedReadTimeout x) s = .next ((spaceWaiters s x).foldl (fun v c => failCmd c .timeout (hostFault 0x72 6 j.forRing) (updCmd c (fun k => { k with noEpoch := true }) v)) u) ∧
      journal? u x = some { j with rereading := false, broken := true } ∧ u.aon.codes.head? = some (hostFault 0x72 6 j.forRing)) ∧
  (∀ (s : State) (x : Nat) (a : ReadReply),
    (journal? s x).any (·.rereading) = false →
    exec (.releasedReadDone x a) s = .next s ∧ exec (.releasedReadTimeout x) s = .next s)

/-- The four stages of a tamp (R97, R106–R109). -/
def Obligations.Tamping : Prop :=
  (∀ (s : State) (c l : Nat) (a : Nat) (u : State),
    mayCut s c l = true →
    freshBrick true c (leaf (coll s c) l).owner 1 l (openEpoch (coll s c)) s = some (a, u) →
    ∃ t, exec (.tampCut c l) s = .next t ∧ leaf (coll t c) l = { leaf (coll s c) l with
        state := .copy, cutEpoch := (coll s c).latest, pre := (leaf (coll s c) l).run ++ (leaf (coll s c) l).chain, copied := 0, copies := [], copyMap := []
        chain := (leaf (coll s c) l).chain ++ [a] } ∧ (brick? (coll t c) a).any (fun b => b.kind == 1 && b.list == l) = true) ∧
  (∀ (s : State) (c l : Nat),
    (mayCut s c l = false ∨ freshBrick true c (leaf (coll s c) l).owner 1 l (openEpoch (coll s c)) s = none) →
    exec (.tampCut c l) s = .next s) ∧
  (∀ (s : State) (c l i : Nat) (qs : List (SlotRef × Slot)) (u v : State),
    chunkAnvil s (leaf (coll s c) l).owner (isCopy c l) = some i →
    freeAnvil (leaf (coll s c) l).owner i s = v →
    (leaf (coll s c) l).state = .copy →
    engineRuns s (leaf (coll s c) l).owner = true →
    liveSlots s c (((leaf (coll s c) l).pre.drop (leaf (coll s c) l).copied).take 256) = qs →
    (qs.foldl (fun o q => o.bind (copySlot c l q)) (some v) = some u) →
    (extentList (frameSize (coll u c)) (leaf (coll u c) l).copies).length ≤ 12 →
    ∃ t, exec (.tampCopy c l) s = .next t ∧ (leaf (coll t c) l).copyMap.map (·.1) = (leaf (coll s c) l).copyMap.map (·.1) ++ qs.map (·.1) ∧
      (leaf (coll t c) l).copied = (leaf (coll s c) l).copied + (((leaf (coll s c) l).pre.drop (leaf (coll s c) l).copied).take 256).length ∧
      (leaf (coll t c) l).state = if (leaf (coll t c) l).copied ≥ (leaf (coll s c) l).pre.length then .commit else .copy) ∧
  (∀ (s : State) (c l i : Nat) (qs : List (SlotRef × Slot)) (u v : State),
    chunkAnvil s (leaf (coll s c) l).owner (isCopy c l) = some i →
    freeAnvil (leaf (coll s c) l).owner i s = v →
    (leaf (coll s c) l).state = .copy →
    engineRuns s (leaf (coll s c) l).owner = true →
    liveSlots s c (((leaf (coll s c) l).pre.drop (leaf (coll s c) l).copied).take 256) = qs →
    (qs.foldl (fun o q => o.bind (copySlot c l q)) (some v) = some u) →
    (extentList (frameSize (coll u c)) (leaf (coll u c) l).copies).length > 12 →
    ∃ t, exec (.tampCopy c l) s = .next t ∧ (leaf (coll t c) l).state = .idle ∧ (leaf (coll t c) l).copies = [] ∧
      (∀ b ∈ (leaf (coll u c) l).copies, brick? (coll t c) b = none) ∧ bit t.host.evtPend.toNat 7 = true) ∧
  (∀ (s : State) (c l i : Nat) (qs : List (SlotRef × Slot)) (v : State),
    chunkAnvil s (leaf (coll s c) l).owner (isCopy c l) = some i →
    freeAnvil (leaf (coll s c) l).owner i s = v →
    liveSlots s c (((leaf (coll s c) l).pre.drop (leaf (coll s c) l).copied).take 256) = qs →
    ((leaf (coll s c) l).state ≠ .copy ∨ engineRuns s (leaf (coll s c) l).owner = false ∨ qs.foldl (fun o q => o.bind (copySlot c l q)) (some v) = none) →
    exec (.tampCopy c l) s = .next v) ∧
  (∀ (s : State) (c l : Nat),
    chunkAnvil s (leaf (coll s c) l).owner (isCopy c l) = none →
    exec (.tampCopy c l) s = .next s) ∧
  (∀ (s : State) (c l : Nat) (alive : List (SlotRef × SlotRef)) (u : Option State),
    ((leaf (coll s c) l).copyMap.filter fun m => !tombstoned s m.1) = alive →
    ((tombMoved c (alive.map (·.1)) s).bind fun v => if hasSparse (coll s c) then alive.foldl (fun o m => o.bind (movePostings c (openEpoch (coll s c)) m)) (some v) else some v) = u →
    ((leaf (coll s c) l).state ≠ .commit ∨ engineRuns s (leaf (coll s c) l).owner = false ∨ (turnedAway s ((leaf (coll s c) l).owner :: keyPtns s c ((leaf (coll s c) l).copyMap.map (·.1)))).isSome = true → exec (.tampCommit c l) s = .next s) ∧
      ((leaf (coll s c) l).state = .commit → engineRuns s (leaf (coll s c) l).owner = true → (turnedAway s ((leaf (coll s c) l).owner :: keyPtns s c ((leaf (coll s c) l).copyMap.map (·.1)))) = none → u = none → exec (.tampCommit c l) s = .next (liftHorizons s))) ∧
  (∀ (s : State) (c l : Nat) (alive : List (SlotRef × SlotRef)) (u : State),
    (leaf (coll s c) l).state = .commit →
    engineRuns s (leaf (coll s c) l).owner = true →
    (turnedAway s ((leaf (coll s c) l).owner :: keyPtns s c ((leaf (coll s c) l).copyMap.map (·.1)))) = none →
    ((leaf (coll s c) l).copyMap.filter fun m => !tombstoned s m.1) = alive →
    ((tombMoved c (alive.map (·.1)) s).bind fun v => if hasSparse (coll s c) then alive.foldl (fun o m => o.bind (movePostings c (openEpoch (coll s c)) m)) (some v) else some v) = some u →
    ∃ t, exec (.tampCommit c l) s = .next t ∧ (coll t c).openCommits = (coll s c).openCommits + 1 ∧ (coll t c).csn = (coll s c).csn ∧
      (leaf (coll t c) l).state = .retire ∧ (leaf (coll t c) l).run = (leaf (coll s c) l).copies ∧
      (leaf (coll t c) l).chain = (leaf (coll s c) l).chain.drop ((leaf (coll s c) l).pre.length - (leaf (coll s c) l).run.length) ∧
      (leaf (coll t c) l).retiring = some { run := (leaf (coll s c) l).run, chain := (leaf (coll s c) l).chain.take ((leaf (coll s c) l).pre.length - (leaf (coll s c) l).run.length), epoch := succEpoch (coll s c).latest, index := freeRetiring s (leaf (coll s c) l).owner } ∧
      ∀ k e, tget (coll s c).keys k = some e → (tget (coll t c).keys k).map (·.slot) =
        some (match (leaf (coll s c) l).copyMap.find? (fun m => m.1 == e.slot) with | some m => m.2 | none => e.slot)) ∧
  (∀ (s : State) (c l : Nat) (r : Retiring),
    (leaf (coll s c) l).state = .retire →
    engineRuns s (leaf (coll s c) l).owner = true →
    (leaf (coll s c) l).retiring = some r →
    epochPassed s c r.epoch = true →
    ∃ t, exec (.tampRetire c l) s = .next t ∧ leaf (coll t c) l = { leaf (coll s c) l with state := .idle, retiring := none } ∧
      ∀ b ∈ r.run ++ r.chain, brick? (coll t c) b = none) ∧
  (∀ (s : State) (c l : Nat) (r : Retiring),
    (leaf (coll s c) l).retiring = some r →
    epochPassed s c r.epoch = false →
    exec (.tampRetire c l) s = .next s) ∧
  (∀ (s : State) (c l : Nat),
    ((leaf (coll s c) l).state ≠ .retire ∨ engineRuns s (leaf (coll s c) l).owner = false) →
    exec (.tampRetire c l) s = .next s)

/-- Training, redistribution, assignment (R105, R110, R112, R113, R170). -/
def Obligations.TrainingAndRedistribution : Prop :=
  (∀ (s : State) (c i : Nat),
    chunkAnvil s (collHome s c) (chunkOf 6 c) = some i →
    ((coll s c).state == .training && sampleOnPoison s c) = true →
    exec (.trainChunk c) s = .next (failTrain c (poisonFault (collHome s c) i s))) ∧
  (∀ (s : State) (c i : Nat),
    chunkAnvil s (collHome s c) (chunkOf 6 c) = some i →
    ((coll s c).state == .training && sampleOnPoison s c) = false →
    exec (.trainChunk c) s = .next (if (coll s c).state = .training then updColl c (fun y => { y with trainSteps := y.trainSteps + 1 }) (freeAnvil (collHome s c) i s) else freeAnvil (collHome s c) i s)) ∧
  (∀ (s : State) (c : Nat),
    chunkAnvil s (collHome s c) (chunkOf 6 c) = none →
    exec (.trainChunk c) s = .next s) ∧
  (∀ (s : State) (c : Nat) (ps : List Nat) (o : Option State),
    jobPtns s (coll s c).job = ps →
    (ps.foldl (fun o p => o.bind (takeStrata c p (upperLevels (coll s c) c ((coll s c).trainLevels - 1) (leafLevel (coll s c) c).length [leafLevel (coll s c) c])
      ((upto (leafLevel (coll s c) c).length).filter fun i => lget ps ((Config.trainedValue c (coll s c).trainSeed (trainKey 3 i 8188)).toNat % max 1 ps.length) 0 == p).length)) (some s)) = o →
    ((coll s c).state ≠ .training ∨ homeRuns s c = false ∨ (turnedAway s ps).isSome = true ∨ o = none) →
    exec (.strataCommit c) s = .next s) ∧
  (∀ (s : State) (c : Nat) (ps : List Nat) (u : State),
    (coll s c).state = .training →
    homeRuns s c = true →
    jobPtns s (coll s c).job = ps →
    turnedAway s ps = none →
    (ps.foldl (fun o p => o.bind (takeStrata c p (upperLevels (coll s c) c ((coll s c).trainLevels - 1) (leafLevel (coll s c) c).length [leafLevel (coll s c) c])
      ((upto (leafLevel (coll s c) c).length).filter fun i => lget ps ((Config.trainedValue c (coll s c).trainSeed (trainKey 3 i 8188)).toNat % max 1 ps.length) 0 == p).length)) (some s)) = some u →
    ∃ t, exec (.strataCommit c) s = .next t ∧ (coll t c).state = .redistributing ∧ (coll t c).trainEp = succEpoch (coll s c).latest ∧
      (coll t c).openCommits = (coll s c).openCommits + 1 ∧ (coll t c).trainSample = [] ∧
      (coll t c).leaves.map (·.1) = upto (leafLevel (coll s c) c).length ∧ (coll t c).leaves.all (fun l => l.2.run.isEmpty && l.2.chain.isEmpty) = true ∧
      (coll t c).strata.getLast? = some (leafLevel (coll s c) c)) ∧
  (∀ (s : State) (c : Nat) (p : Fin 12) (i : Nat) (u v : State),
    chunkAnvil s p.val (chunkOf 2 c) = some i →
    freeAnvil p.val i s = v →
    (coll s c).state = .redistributing →
    engineRuns s p.val = true →
    liveLoose s c p.val ≠ [] →
    turnedAway s (moveTargets s c p.val) = none →
    ((liveSlots s c ((liveLoose s c p.val).take 256)).foldl (fun o q => o.bind (moveSlot c (openEpoch (coll s c)) q)) (some v) = some u) →
    exec (.redistributeChunk c p) s = .next (liftHorizons (joinEpoch c (commitTombs 0 (openEpoch (coll s c)) u)))) ∧
  (∀ (s : State) (c : Nat) (p : Fin 12) (i : Nat) (v : State),
    chunkAnvil s p.val (chunkOf 2 c) = some i →
    freeAnvil p.val i s = v →
    ((coll s c).state ≠ .redistributing ∨ engineRuns s p.val = false ∨ liveLoose s c p.val = [] ∨ turnedAway s (moveTargets s c p.val) ≠ none) →
    exec (.redistributeChunk c p) s = .next v) ∧
  (∀ (s : State) (c : Nat) (p : Fin 12) (i : Nat) (v : State),
    chunkAnvil s p.val (chunkOf 2 c) = some i →
    freeAnvil p.val i s = v →
    (coll s c).state = .redistributing →
    engineRuns s p.val = true →
    liveLoose s c p.val ≠ [] →
    turnedAway s (moveTargets s c p.val) = none →
    ((liveSlots s c ((liveLoose s c p.val).take 256)).foldl (fun o q => o.bind (moveSlot c (openEpoch (coll s c)) q)) (some v) = none) →
    exec (.redistributeChunk c p) s = .next (liftHorizons v)) ∧
  (∀ (s : State) (c : Nat) (p : Fin 12),
    chunkAnvil s p.val (chunkOf 2 c) = none →
    exec (.redistributeChunk c p) s = .next s) ∧
  (∀ (s : State) (c : Nat),
    (coll s c).state = .redistributing →
    looseLive s c = 0 →
    homeRuns s c = true →
    ∃ t, exec (.redistributeDone c) s = .next t ∧ (coll t c).state = .trained ∧ (coll t c).doneEp = succEpoch (coll s c).latest ∧ (coll t c).openCommits = (coll s c).openCommits + 1) ∧
  (∀ (s : State) (c : Nat),
    (coll s c).state = .trained →
    epochPassed s c (coll s c).doneEp = true →
    ∃ t, exec (.looseFree c) s = .next t ∧ (∀ p, (collPtn (coll t c) p).loose = []) ∧
      ∀ q ∈ (coll s c).ptns, ∀ b ∈ q.2.loose, brick? (coll t c) b = none) ∧
  (∀ (s : State) (c : Nat),
    ((coll s c).state ≠ .redistributing ∨ looseLive s c ≠ 0 ∨ homeRuns s c = false) →
    exec (.redistributeDone c) s = .next s) ∧
  (∀ (s : State) (c : Nat),
    ((coll s c).state ≠ .trained ∨ epochPassed s c (coll s c).doneEp = false) →
    exec (.looseFree c) s = .next s) ∧
  (∀ (s : State) (c i : Nat) (x : Cmd) (f : Option Nat) (v t : State),
    cmd? s c = some x →
    x.stage = .assigning →
    chunkAnvil s x.home (isAssign c) = some i →
    freeAnvil x.home i s = v →
    needsSource x = false →
    appendSome c (nextRec x) (min chunkRecords (x.recs.length - nextRec x)) v = (t, none) →
    exec (.assignChunk ⟨c, f, none⟩) s = .next (if x.recs.length - nextRec x ≤ chunkRecords then allAppended c t
      else queueChunk x.home { kind := assignKind x, ctx := x.ctx, cmd := some c } t)) ∧
  (∀ (s : State) (c i : Nat) (x y : Cmd) (f : Option Nat) (v t : State) (st : Status) (code : W32),
    cmd? s c = some x →
    x.stage = .assigning →
    chunkAnvil s x.home (isAssign c) = some i →
    freeAnvil x.home i s = v →
    needsSource x = false →
    appendSome c (nextRec x) (min chunkRecords (x.recs.length - nextRec x)) v = (t, some (st, code)) →
    cmd? t c = some y →
    y.stage = .assigning →
    mustCommit y = false →
    ∃ u z, exec (.assignChunk ⟨c, f, none⟩) s = .next u ∧ cmd? u c = some z ∧ z.stage = .final ∧ z.status = st ∧ z.fault = code ∧ z.count = 0) ∧
  (∀ (s : State) (c i : Nat) (x : Cmd) (f : Option Nat) (v : State),
    cmd? s c = some x →
    x.stage = .assigning →
    chunkAnvil s x.home (isAssign c) = some i →
    freeAnvil x.home i s = v →
    needsSource x = true →
    bulkPoisoned s x = false →
    exec (.assignChunk ⟨c, f, none⟩) s = .next (readBulk c x f v)) ∧
  (∀ (s : State) (c : Nat) (f : Option Nat),
    (cmd? s c).all (fun x => x.stage != .assigning || (chunkAnvil s x.home (isAssign c)).isNone) = true →
    exec (.assignChunk ⟨c, f, none⟩) s = .next s) ∧
  (∀ (s : State) (c i : Nat) (x : Cmd) (f : Option Nat),
    cmd? s c = some x →
    x.stage = .assigning →
    chunkAnvil s x.home (isAssign c) = some i →
    needsSource x = true →
    bulkPoisoned s x = true →
    exec (.assignChunk ⟨c, f, none⟩) s = .next (poisonFault x.home i s)) ∧
  (∀ (s : State) (c : Nat) (f : Option Nat) (e : IngestFault),
    (∀ x, cmd? s c = some x → x.stage = .assigning → exec (.assignChunk ⟨c, f, some e⟩) s = .next (ingestFails e x.home s)) ∧
      ((cmd? s c).all (fun x => x.stage != .assigning) = true → exec (.assignChunk ⟨c, f, some e⟩) s = .next s))

/-- Probing of a search (R125–R131, R135–R138, R143). -/
def Obligations.SearchProbing : Prop :=
  (∀ (s : State) (c row : Nat) (x : Cmd) (r : QRow) (set : List (Nat × F32)),
    mayDescend s c row = true →
    cmd? s c = some x →
    rowOf s c row = some r →
    (if scansLists (coll s x.coll) x.snap then probeSet (coll s x.coll) (probeCount (sProbe x.entry) (leafCount (coll s x.coll))) r else []) = set →
    turnedAway s ((jobPtns s x.job).filter fun p => !(x.stopped || (firstProbe s x r set p).ended)) = none →
    ∃ t, exec (.descentEnd c row) s = .next t ∧
      rowOf t c row = some { r with descended := true, probes := (jobPtns s x.job).map fun p => (p, if x.stopped then emptyProbe else firstProbe s x r set p) } ∧
      (cmd? t c).map (·.pairs) = some (x.pairs + pairsOf s x r set)) ∧
  (∀ (s : State) (c row : Nat) (x : Cmd) (r : QRow) (set : List (Nat × F32)) (code : W32),
    mayDescend s c row = true →
    cmd? s c = some x →
    rowOf s c row = some r →
    (if scansLists (coll s x.coll) x.snap then probeSet (coll s x.coll) (probeCount (sProbe x.entry) (leafCount (coll s x.coll))) r else []) = set →
    turnedAway s ((jobPtns s x.job).filter fun p => !(x.stopped || (firstProbe s x r set p).ended)) = some code →
    ∃ t y, exec (.descentEnd c row) s = .next t ∧ cmd? t c = some y ∧ y.stage = .final ∧ y.status = .fenced ∧ y.fault = code) ∧
  (∀ (s : State) (p : Fin 12) (c row : Nat) (x : Cmd) (r : QRow),
    mayIssue s p.val c row = true →
    cmd? s c = some x →
    rowOf s c row = some r →
    (probeOf s p.val c row).looseIssued = false →
    bulkClass x = false →
    placesFor s p.val = true →
    ∃ t e, exec (.listIssue p c row) s = .next t ∧ probeOf t p.val c row = { probeOf s p.val c row with looseIssued := true, issued := (probeOf s p.val c row).issued + 1, ended := e } ∧
      e = ((probeOf s p.val c row).ended || issuedAll (coll s x.coll) p.val r { probeOf s p.val c row with looseIssued := true }) ∧
      (ptn t p.val).rowQ.map (·.2) = (ptn s p.val).rowQ.map (·.2) ++ listDescs x 0xFFFFFFFF 3 (looseAt (coll s x.coll) p.val x.snap) [{ cmd := c, row := row }]) ∧
  (∀ (s : State) (p : Fin 12) (c row : Nat) (x : Cmd) (r : QRow),
    mayIssue s p.val c row = true →
    cmd? s c = some x →
    rowOf s c row = some r →
    (probeOf s p.val c row).looseIssued = false →
    bulkClass x = true →
    ∃ t, exec (.listIssue p c row) s = .next t ∧ (probeOf t p.val c row).looseIssued = true ∧ (probeOf t p.val c row).issued = (probeOf s p.val c row).issued + 1 ∧
      ∀ d ∈ listDescs x 0xFFFFFFFF 3 (looseAt (coll s x.coll) p.val x.snap) [{ cmd := c, row := row }],
        ∃ k ∈ (ptn t p.val).chunkQ, k.kind = 3 ∧ k.ctx = x.ctx ∧ k.cmd = some c ∧ d ∈ k.bricks ∧ k.bricks.length ≤ 256) ∧
  (∀ (s : State) (p : Fin 12) (c row : Nat) (x : Cmd),
    mayIssue s p.val c row = true →
    cmd? s c = some x →
    ((probeOf s p.val c row).looseIssued = false → bulkClass x = false → placesFor s p.val = false → exec (.listIssue p c row) s = .next s) ∧
      ((probeOf s p.val c row).looseIssued = true → (probeOf s p.val c row).queue = [] → exec (.listIssue p c row) s = .next s) ∧
      ∀ l, (probeOf s p.val c row).looseIssued = true → liveHead s p.val c row = some l → bulkClass x = false → placesFor s p.val = false →
        exec (.listIssue p c row) s = .next s) ∧
  (∀ (s : State) (p : Fin 12) (c row : Nat) (x : Cmd) (r : QRow) (l : Nat),
    mayIssue s p.val c row = true →
    cmd? s c = some x →
    rowOf s c row = some r →
    (probeOf s p.val c row).looseIssued = true →
    (probeOf s p.val c row).queue.isEmpty = false →
    liveHead s p.val c row = some l →
    coordN (coll s x.coll) ≤ 16384 →
    bulkClass x = false →
    placesFor s p.val = true →
    ∃ t, exec (.listIssue p c row) s = .next t ∧ (ptn t p.val).rowQ.map (·.2) = (ptn s p.val).rowQ.map (·.2) ++
        listDescs x l (searchPattern x.entry) (versionBricks (leaf (coll s x.coll) l) x.snap) (sharers s p.val c row l (maxLanes s x.ctx (searchPattern x.entry) x.patVer (tTwoLimb x.entry) (coll s x.coll))) ∧
      (probeOf t p.val c row).queue = (probeOf s p.val c row).queue.drop 1 ∧ (probeOf t p.val c row).issued = (probeOf s p.val c row).issued + 1) ∧
  (∀ (s : State) (p : Fin 12) (c row : Nat) (x : Cmd) (r : QRow) (l : Nat),
    mayIssue s p.val c row = true →
    cmd? s c = some x →
    rowOf s c row = some r →
    (probeOf s p.val c row).looseIssued = true →
    (probeOf s p.val c row).queue.isEmpty = false →
    liveHead s p.val c row = some l →
    coordN (coll s x.coll) ≤ 16384 →
    bulkClass x = true →
    ∃ t, exec (.listIssue p c row) s = .next t ∧ (probeOf t p.val c row).queue = (probeOf s p.val c row).queue.drop 1 ∧ (probeOf t p.val c row).issued = (probeOf s p.val c row).issued + 1 ∧
      ∀ d ∈ listDescs x l (searchPattern x.entry) (versionBricks (leaf (coll s x.coll) l) x.snap)
          (sharers s p.val c row l (maxLanes s x.ctx (searchPattern x.entry) x.patVer (tTwoLimb x.entry) (coll s x.coll))),
        ∃ k ∈ (ptn t p.val).chunkQ, k.kind = 3 ∧ k.ctx = x.ctx ∧ k.cmd = some c ∧ d ∈ k.bricks ∧ k.bricks.length ≤ 256) ∧
  (∀ (s : State) (p : Fin 12) (c row : Nat) (x : Cmd) (r : QRow),
    mayIssue s p.val c row = true →
    cmd? s c = some x →
    rowOf s c row = some r →
    (probeOf s p.val c row).looseIssued = true →
    (probeOf s p.val c row).queue.isEmpty = false →
    liveHead s p.val c row = none →
    ∃ t e, exec (.listIssue p c row) s = .next t ∧ probeOf t p.val c row = { probeOf s p.val c row with cut := (probeOf s p.val c row).cut + (probeOf s p.val c row).queue.length, queue := [], ended := e } ∧
      e = ((probeOf s p.val c row).ended || issuedAll (coll s x.coll) p.val r { probeOf s p.val c row with queue := [] }) ∧ t.ptns = s.ptns) ∧
  (∀ (s : State) (p : Fin 12) (c row : Nat) (x : Cmd) (r : QRow) (term : Nat) (w : Nat × Bf16),
    mayIssue s p.val c row = true →
    cmd? s c = some x →
    rowOf s c row = some r →
    x.opcode = 0x11 →
    (r.terms.find? (fun t => t.1 == term) = some w) →
    tgetD (probeOf s p.val c row).pieces term 0 < pieceCount (coll s x.coll) p.val term →
    fGt (termBound (coll s x.coll) p.val w) (thetaS p.val term x r) = false →
    ∃ t e, exec (.pieceIssue p c row term) s = .next t ∧ probeOf t p.val c row = { probeOf s p.val c row with cut := (probeOf s p.val c row).cut + 1, pieces := tset (probeOf s p.val c row).pieces term (tgetD (probeOf s p.val c row).pieces term 0 + 1), ended := e } ∧
      e = ((probeOf s p.val c row).ended || issuedAll (coll s x.coll) p.val r { probeOf s p.val c row with pieces := tset (probeOf s p.val c row).pieces term (tgetD (probeOf s p.val c row).pieces term 0 + 1) }) ∧ t.ptns = s.ptns) ∧
  (∀ (s : State) (p : Fin 12) (c row : Nat) (x : Cmd) (r : QRow) (term : Nat) (w : Nat × Bf16),
    mayIssue s p.val c row = true →
    cmd? s c = some x →
    rowOf s c row = some r →
    x.opcode = 0x11 →
    (r.terms.find? (fun t => t.1 == term) = some w) →
    tgetD (probeOf s p.val c row).pieces term 0 < pieceCount (coll s x.coll) p.val term →
    fGt (termBound (coll s x.coll) p.val w) (thetaS p.val term x r) = true →
    bulkClass x = false →
    placesFor s p.val = true →
    ∃ t d e, exec (.pieceIssue p c row term) s = .next t ∧ probeOf t p.val c row = { probeOf s p.val c row with issued := (probeOf s p.val c row).issued + 1, pieces := tset (probeOf s p.val c row).pieces term (tgetD (probeOf s p.val c row).pieces term 0 + 1), ended := e } ∧
      e = ((probeOf s p.val c row).ended || issuedAll (coll s x.coll) p.val r { probeOf s p.val c row with pieces := tset (probeOf s p.val c row).pieces term (tgetD (probeOf s p.val c row).pieces term 0 + 1) }) ∧
      (ptn t p.val).rowQ.map (·.2) = (ptn s p.val).rowQ.map (·.2) ++ [d] ∧ d.kind = 2 ∧ d.term = term ∧ d.list = tgetD (probeOf s p.val c row).pieces term 0 ∧
      d.snap = x.snap ∧ d.lanes = [{ cmd := c, row := row }] ∧ d.pattern = 4) ∧
  (∀ (s : State) (p : Fin 12) (c row : Nat) (x : Cmd) (r : QRow) (term : Nat) (w : Nat × Bf16),
    mayIssue s p.val c row = true →
    cmd? s c = some x →
    rowOf s c row = some r →
    x.opcode = 0x11 →
    (r.terms.find? (fun t => t.1 == term) = some w) →
    tgetD (probeOf s p.val c row).pieces term 0 < pieceCount (coll s x.coll) p.val term →
    fGt (termBound (coll s x.coll) p.val w) (thetaS p.val term x r) = true →
    bulkClass x = true →
    ∃ t d, exec (.pieceIssue p c row term) s = .next t ∧ (probeOf t p.val c row).issued = (probeOf s p.val c row).issued + 1 ∧
      (∃ k ∈ (ptn t p.val).chunkQ, k.kind = 3 ∧ k.ctx = x.ctx ∧ k.cmd = some c ∧ k.bricks = [d]) ∧ d.kind = 2 ∧ d.term = term ∧ d.list = tgetD (probeOf s p.val c row).pieces term 0 ∧
      d.lanes = [{ cmd := c, row := row }]) ∧
  (∀ (s : State) (p : Fin 12) (c row : Nat) (x : Cmd) (r : QRow) (term : Nat),
    cmd? s c = some x →
    rowOf s c row = some r →
    (mayIssue s p.val c row = false ∨ x.opcode ≠ 0x11 ∨ r.terms.find? (fun t => t.1 == term) = none ∨ pieceCount (coll s x.coll) p.val term ≤ tgetD (probeOf s p.val c row).pieces term 0) →
    exec (.pieceIssue p c row term) s = .next s) ∧
  (∀ (s : State) (p : Fin 12) (c row : Nat) (x : Cmd) (r : QRow) (term : Nat) (w : Nat × Bf16),
    cmd? s c = some x →
    rowOf s c row = some r →
    (r.terms.find? (fun t => t.1 == term) = some w) →
    fGt (termBound (coll s x.coll) p.val w) (thetaS p.val term x r) = true →
    bulkClass x = false →
    placesFor s p.val = false →
    exec (.pieceIssue p c row term) s = .next s) ∧
  (∀ (s : State) (c : Nat) (x : Cmd),
    cmd? s c = some x →
    mayStop x = true →
    x.stage = .running →
    (upto x.rows.length).any (rowProbing s x c) = true →
    ∃ t, exec (.probeStop c) s = .next t ∧ cmd? t c = some { x with stopped := true, deadlineHit := true, ownHit := true, pairsDone := pairsScanned s c x, rows := x.rows.map endProbes } ∧
      (∀ p, (∀ d ∈ (ptn t p).rowQ, d.2.kind = 1 ∨ ∀ l ∈ d.2.lanes, l.cmd ≠ c) ∧ (∀ k ∈ (ptn t p).chunkQ, k.cmd ≠ some c ∨ k.bricks.all (·.kind == 1) = true) ∧
        (∀ a ∈ (ptn t p).anvils, probesFor c a.2 = true → a.2.closing = true ∧ a.2.chunk.all (fun k => k.bricks.isEmpty) = true) ∧
        ∀ v ∈ (ptn t p).saves, ∀ a ∈ v.2.anvils, probesFor c a.2 = true → a.2.closing = true)) ∧
  (∀ (s : State) (c : Nat) (x : Cmd),
    cmd? s c = some x →
    mayStop x = true →
    x.stage = .running →
    (upto x.rows.length).any (rowProbing s x c) = false →
    ∃ t, exec (.probeStop c) s = .next t ∧ cmd? t c = some { x with stopped := true } ∧ t.ptns = s.ptns) ∧
  (∀ (s : State) (c : Nat) (x : Cmd),
    cmd? s c = some x →
    mayStop x = true →
    x.stage ≠ .running →
    ∃ t, exec (.probeStop c) s = .next t ∧ cmd? t c = some { x with stopped := true, deadlineHit := true, ownHit := true } ∧ t.ptns = s.ptns) ∧
  (∀ (s : State) (p : Fin 12) (c row : Nat) (x : Cmd) (r : QRow) (go : List Entry),
    mayRefine s p.val c row = true →
    cmd? s c = some x →
    rowOf s c row = some r →
    (if skipsRefine s x then [] else ((foldOut p.val .coarse r).take (refineDepth x.entry)).filter fun e => !e.settled) = go →
    ∃ t, exec (.refineStart p c row) s = .next t ∧ (probeOf t p.val c row) = { probeOf s p.val c row with refineStarted := true } ∧
      (rowOf t c row).map (·.nodes) = some (addInput (.partition p) .refine 24 (if skipsRefine s x then foldOut p.val .coarse r
        else ((foldOut p.val .coarse r).take (refineDepth x.entry)).filter (·.settled)) 0 r).nodes ∧
      (bulkClass x = false → ∀ d ∈ refineDescs x c row go, ∃ q ∈ (ptn t p.val).rowQ, q.2.kind = 1 ∧ q.2.brick = d.brick ∧ q.2.coll = d.coll ∧
        ({ cmd := c, row := row } : LaneReq) ∈ q.2.lanes ∧ q.2.mask &&& d.mask = d.mask) ∧
      (bulkClass x = true → ∀ d ∈ refineDescs x c row go, ∃ k ∈ (ptn t p.val).chunkQ, k.kind = 3 ∧ k.bricks.length = 1 ∧ ∃ b ∈ k.bricks, b.kind = 1 ∧ b.brick = d.brick ∧ b.coll = d.coll ∧
        ({ cmd := c, row := row } : LaneReq) ∈ b.lanes ∧ b.mask &&& d.mask = d.mask)) ∧
  (∀ (s : State) (p : Fin 12) (c row term : Nat),
    (mayDescend s c row = false → exec (.descentEnd c row) s = .next s) ∧ (mayIssue s p.val c row = false → exec (.listIssue p c row) s = .next s) ∧
      ((cmd? s c).any mayStop = false → exec (.probeStop c) s = .next s) ∧ (mayRefine s p.val c row = false → exec (.refineStart p c row) s = .next s) ∧
      (cmd? s c = none → exec (.pieceIssue p c row term) s = .next s) ∧ (rowOf s c row = none → exec (.pieceIssue p c row term) s = .next s))

/-- From lists to the result (R130, R133–R136, R143–R145, R148–R161). -/
def Obligations.FoldedLists : Prop :=
  (∀ (l : List Entry),
    ((foldAll l).1.map (·.key)).Nodup ∧ (∀ e ∈ (foldAll l).1, e ∈ l ∧ fIsNaN e.score = false) ∧
      (∀ e ∈ l, fIsNaN e.score = false → ∃ k ∈ (foldAll l).1, k.key = e.key) ∧ (foldAll l).2.2 = (l.filter fun e => fIsNaN e.score).length) ∧
  (∀ (l : List Entry) (k : Nat),
    (select k l).1.length ≤ k ∧ (select k l).1.map (·.key) = (l.take k).map (·.key)) ∧
  (∀ (s : State) (p : Fin 12) (i : Fin 24) (c row : Nat) (x : Cmd) (r : QRow) (n : Node) (u : List Entry) (d : Bool),
    searching s c = true →
    cmd? s c = some x →
    rowOf s c row = some r →
    r.nodes.filter (fun n => isRowNode p.val i.val n.node && !n.inputs.isEmpty) = [n] →
    foldStage n.stage ((takeInputs n).held.flatMap (·.2)) = (u, d) →
    ∃ t, exec (.foldMerge ⟨.row p i, false⟩ c row) s = .next t ∧ (cmd? t c).map (·.nan) = some (x.nan + newNan n) ∧
      rowOf t c row = some (addInput (.partition p) (rowInput i.val n.stage).1 (rowInput i.val n.stage).2 (u.take (rowKeep x n.stage)) 0
        { r with nodes := r.nodes.map fun m => if m = n then { takeInputs n with held := [], dup := d || n.dup } else m })) ∧
  (∀ (s : State) (p : Fin 12) (i : Fin 24) (c row : Nat) (x : Cmd) (r : QRow),
    searching s c = true →
    cmd? s c = some x →
    rowOf s c row = some r →
    ∃ t q, exec (.foldMerge ⟨.row p i, false⟩ c row) s = .next t ∧ rowOf t c row = some q ∧ (∀ n ∈ q.nodes, isRowNode p.val i.val n.node = true → n.inputs = []) ∧
      exec (.foldMerge ⟨.partition p, false⟩ c row) s = .next (if ptnReady (mergePtn p.val c row x s) p.val c row ((cmd? (mergePtn p.val c row x s) c).getD x) = true
        then sendToDevice p.val c row ((cmd? (mergePtn p.val c row x s) c).getD x) (mergePtn p.val c row x s) else mergePtn p.val c row x s) ∧
      ∃ v, rowOf (mergePtn p.val c row x s) c row = some v ∧ ∀ n ∈ v.nodes, isPtnNode p.val n.node = true → n.inputs = []) ∧
  (∀ (s : State) (p : Fin 12) (c row : Nat) (x : Cmd) (r : QRow) (n : Node),
    cmd? s c = some x →
    rowOf s c row = some r →
    r.nodes.filter (fun n => isPtnNode p.val n.node && !n.inputs.isEmpty) = [n] →
    rowOf (mergePtn p.val c row x s) c row = some { r with nodes := r.nodes.map fun m =>
        if m = n then { takeInputs n with out := (ptnList s x (takeInputs n)).1, dup := (ptnList s x (takeInputs n)).2 } else m } ∧
      (cmd? (mergePtn p.val c row x s) c).map (·.nan) = some (x.nan + newNan n)) ∧
  (∀ (s : State) (p : Fin 12) (c row : Nat) (x : Cmd) (r : QRow),
    rowOf s c row = some r →
    (probeOf (sendToDevice p.val c row x s) p.val c row).sent = true ∧
      (rowOf (sendToDevice p.val c row x s) c row).map (·.nodes) = some (addInput .device .refine p.val ((foldOut p.val (sendStage x) r).take (listLen x.entry)) 0 r).nodes) ∧
  (∀ (s : State) (c row : Nat) (x : Cmd) (r : QRow) (n : Node) (u out : List Entry) (d : Bool),
    searching s c = true →
    cmd? s c = some x →
    rowOf s c row = some r →
    allSent s x r = true →
    (r.nodes.find? (fun n => n.node == .device && !n.inputs.isEmpty) = some n) →
    foldStage n.stage ((takeInputs n).held.flatMap (·.2)) = (u, d) →
    (if keepsAll s x .device then u else u.take (listLen x.entry)) = out →
    ∃ t, exec (.foldMerge ⟨.device, false⟩ c row) s = .next t ∧ (cmd? t c).map (·.nan) = some (x.nan + newNan n) ∧
      (lastNode s x = .device → rowOf t c row = some { r with nodes := r.nodes.map fun m => if m = n then { takeInputs n with out := out, dup := d } else m }) ∧
      (lastNode s x = .root → rowOf t c row = some (addInput .root .refine s.aon.modid out 0
        { r with nodes := r.nodes.map fun m => if m = n then { takeInputs n with out := out, dup := d } else m }))) ∧
  (∀ (s : State) (c row : Nat) (x : Cmd) (r : QRow) (n : Node) (u out : List Entry) (d : Bool),
    searching s c = true →
    cmd? s c = some x →
    rowOf s c row = some r →
    x.origin = none →
    peersIn s x = true →
    allSent s x r = true →
    r.nodes.any (fun n => n.node == .device && !n.inputs.isEmpty) = false →
    (r.nodes.find? (fun n => n.node == .root && !n.inputs.isEmpty) = some n) →
    foldStage n.stage ((takeInputs n).held.flatMap (·.2)) = (u, d) →
    (if keepsAll s x .root then u else u.take (listLen x.entry)) = out →
    ∃ t, exec (.foldMerge ⟨.root, false⟩ c row) s = .next t ∧ (cmd? t c).map (·.nan) = some (x.nan + newNan n) ∧
      rowOf t c row = some { r with nodes := r.nodes.map fun m => if m = n then { takeInputs n with out := out, dup := d } else m }) ∧
  (∀ (s : State) (c row : Nat) (x : Cmd) (r : QRow),
    cmd? s c = some x →
    rowOf s c row = some r →
    ((allSent s x r = false ∨ r.nodes.any (fun n => n.node == .device && !n.inputs.isEmpty) = false) → exec (.foldMerge ⟨.device, false⟩ c row) s = .next s) ∧
      ((x.origin ≠ none ∨ peersIn s x = false ∨ allSent s x r = false ∨ r.nodes.any (fun n => n.node == .device && !n.inputs.isEmpty) = true ∨
        r.nodes.any (fun n => n.node == .root && !n.inputs.isEmpty) = false) → exec (.foldMerge ⟨.root, false⟩ c row) s = .next s)) ∧
  (∀ (s : State) (p : Fin 12) (c row : Nat) (x : Cmd) (r : QRow),
    mayFuse s p.val c row = true →
    cmd? s c = some x →
    rowOf s c row = some r →
    ((toFill s p.val x r).isEmpty || (probeOf s p.val c row).filled) = true →
    ∃ t, exec (.hybridFusion p c row) s = .next t ∧ probeOf t p.val c row = { probeOf s p.val c row with fused := true } ∧
      (rowOf t c row).map (·.nodes) = some (addInput (.partition p) .fused 25 (fusedList s p.val x r) 0 r).nodes) ∧
  (∀ (s : State) (p : Fin 12) (c row : Nat) (x : Cmd) (r : QRow),
    mayFuse s p.val c row = true →
    cmd? s c = some x →
    rowOf s c row = some r →
    ((toFill s p.val x r).isEmpty || (probeOf s p.val c row).filled) = false →
    ∃ t, exec (.hybridFusion p c row) s = .next t ∧ probeOf t p.val c row = { probeOf s p.val c row with filled := true } ∧ (rowOf t c row).map (·.nodes) = some r.nodes ∧
      (bulkClass x = false → ∀ d ∈ refineDescs x c row (toFill s p.val x r), ∃ q ∈ (ptn t p.val).rowQ, q.2.kind = 1 ∧ q.2.quiet = true ∧ q.2.brick = d.brick ∧ q.2.coll = d.coll ∧
        ({ cmd := c, row := row } : LaneReq) ∈ q.2.lanes ∧ q.2.mask &&& d.mask = d.mask)) ∧
  (∀ (s : State) (c row : Nat) (x : Cmd) (r : QRow),
    mayFinish s c row = true →
    cmd? s c = some x →
    rowOf s c row = some r →
    x.origin = none →
    ∃ t, exec (.finalSelection c row) s = .next t ∧
      (rowOf t c row).map (fun r => (r.final, r.tie)) = some (some (select (sK x.entry) (finalInput s x r).1).1, (select (sK x.entry) (finalInput s x r).1).2) ∧
      (cmd? t c).map (fun k => (k.nan, k.dedup)) = some (x.nan + (finalInput s x r).2, x.dedup || r.nodes.any (·.dup)) ∧
      ((∀ i ≠ row, ∀ q, x.rows[i]? = some q → q.final.isSome = true) → (cmd? t c).map (·.stage) = some .final)) ∧
  (∀ (s : State) (c row : Nat) (x : Cmd) (r : QRow),
    mayFinish s c row = true →
    cmd? s c = some x →
    rowOf s c row = some r →
    x.origin ≠ none →
    ∃ t, exec (.finalSelection c row) s = .next t ∧ (rowOf t c row).map (·.final) = some (some ((finalInput s x r).1.take (listLen x.entry))) ∧
      (cmd? t c).map (fun k => (k.nan, k.dedup)) = some (x.nan, x.dedup || r.nodes.any (·.dup)) ∧
      ((∀ i ≠ row, ∀ q, x.rows[i]? = some q → q.final.isSome = true) → (cmd? t c).map (·.stage) = some .final)) ∧
  (∀ (s : State) (c : Nat) (x : Cmd),
    mayStartFar s c = true →
    cmd? s c = some x →
    ∃ t, exec (.farRerankStart c) s = .next t ∧ (∀ i q, rowOf t c i = some q → q.farLeft ≠ [] → farWaits t x c i = true) ∧
      cmd? t c = some { x with rows := x.rows.map fun r => { r with far := some ((listAt (lastNode s x) r).take (refineDepth x.entry)), farLeft := if x.farOver then [] else (upto ((listAt (lastNode s x) r).take (refineDepth x.entry)).length).filter fun j => (((listAt (lastNode s x) r).take (refineDepth x.entry))[j]?.bind (farIndex x)).isSome } }) ∧
  (∀ (s : State) (c row : Nat) (x : Cmd) (r : QRow) (j : Nat) (bs : List Byte),
    searching s c = true →
    s.host.link.up = true →
    cmd? s c = some x →
    rowOf s c row = some r →
    r.farLeft.contains j = true →
    farWaits s x c row = false →
    ∃ t, exec (.farRowArrive c row j (.data bs)) s = .next t ∧ rowOf t c row = some { r with farLeft := r.farLeft.filter (· ≠ j), far := r.far.map fun l =>
      match l[j]? with | some e => l.set j (rescore s x r bs e) | none => l }) ∧
  (∀ (s : State) (c row : Nat) (x : Cmd) (r : QRow) (j : Nat) (a : ReadReply),
    searching s c = true →
    s.host.link.up = true →
    cmd? s c = some x →
    rowOf s c row = some r →
    r.farLeft.contains j = true →
    farWaits s x c row = false →
    (∀ bs, a ≠ .data bs) →
    ∃ t y, exec (.farRowArrive c row j a) s = .next t ∧ cmd? t c = some y ∧ y.stage = .final ∧ y.status = (if a = .timeout then .timeout else .uncorrectable) ∧
      y.fault = hostFault 0x72 (if a = .timeout then 6 else 5) (if x.origin.isNone then some x.ring else none)) ∧
  (∀ (s : State) (c row j : Nat) (x : Cmd) (a : ReadReply),
    cmd? s c = some x →
    farWaits s x c row = true →
    exec (.farRowArrive c row j a) s = .next s) ∧
  (∀ (s : State) (n : FoldNode) (c row : Nat),
    searching s c = true →
    exec (.foldMerge ⟨n, true⟩ c row) s = .next (engineFault (foldUnit n).1 (foldUnit n).2 (foldFault 1 n) (postFault (foldFault 1 n) s))) ∧
  (∀ (s : State) (c : Nat) (x : Cmd),
    cmd? s c = some x →
    isSearch x.opcode = true →
    x.admitted = true →
    (x.stage = .awaitPayload ∨ x.stage = .reading ∨ x.stage = .running) →
    eDeadline x.entry = true →
    x.stopped = true →
    x.far.isSome = true →
    ∃ t, exec (.deadlineEnd c) s = .next t ∧ cmd? t c = some { x with farOver := true, rows := x.rows.map fun r => if r.far.isSome then { r with farLeft := [] } else r }) ∧
  (∀ (s : State) (n : MergeAt) (p : Fin 12) (c row j : Nat) (a : ReadReply),
    (searching s c = false → exec (.foldMerge n c row) s = .next s ∧ exec (.farRowArrive c row j a) s = .next s) ∧
      (mayFuse s p.val c row = false → exec (.hybridFusion p c row) s = .next s) ∧ (mayFinish s c row = false → exec (.finalSelection c row) s = .next s) ∧
      (mayStartFar s c = false → exec (.farRerankStart c) s = .next s) ∧ (s.host.link.up = false → exec (.farRowArrive c row j a) s = .next s) ∧
      ((rowOf s c row).all (fun r => !r.farLeft.contains j) = true → exec (.farRowArrive c row j a) s = .next s) ∧
      ((cmd? s c).all (fun x => !eDeadline x.entry || !x.stopped || x.far.isNone) = true → exec (.deadlineEnd c) s = .next s))

/-- The round and the waits (R234, R252, R254, R296). -/
def Obligations.RoundAndWaits : Prop :=
  (∀ (s : State) (p : Fin 12),
    (ptn s p.val).power = .forge →
    (ptn s p.val).round.running = true →
    (ptn s p.val).round.slot + 1 < (ptn s p.val).round.table.length →
    exec (.roundSlotAdvance p) s = .next (updPtn p.val (fun x => { x with round := { x.round with slot := x.round.slot + 1 } }) (chargeWhere (fun q _ _ => q == p.val) s))) ∧
  (∀ (s : State) (p : Fin 12),
    (ptn s p.val).power = .forge →
    (ptn s p.val).round.running = true →
    (ptn s p.val).round.slot + 1 ≥ (ptn s p.val).round.table.length →
    (ptn s p.val).round.table ≠ [] ∨ (ptn s p.val).round.next.isSome →
    ∃ t, exec (.roundSlotAdvance p) s = .next t ∧ (ptn t p.val).round = { (ptn s p.val).round with
        table := (ptn s p.val).round.next.getD (ptn s p.val).round.table, bfres := if (ptn s p.val).round.next.isSome then (ptn s p.val).round.nextBfres else (ptn s p.val).round.bfres
        next := none, slot := 0, rounds := (ptn s p.val).round.rounds + 1 } ∧ t.ctxs = (chargeWhere (fun q _ _ => q == p.val) s).ctxs) ∧
  (∀ (s : State) (p : Fin 12) (c : Nat),
    (tget (ptn s p.val).resident c).isSome = true →
    ctxBusy s p c = false →
    exec (.residentIdleTimeout p c) s = .next (updPtn p.val (fun x => { x with idleList := listed1 c x.idleList }) s)) ∧
  (∀ (s : State) (p : Fin 12) (c : Nat),
    (tget (ptn s p.val).resident c).isSome = true →
    blockedIn s p c = true →
    exec (.residentBlockedTimeout p c) s = .next (updPtn p.val (fun x => { x with blockedList := listed1 c (x.blockedList.filter (blockedIn s p)) }) s)) ∧
  (∀ (s : State) (p : Fin 12) (c : Nat),
    (swapQueue s p.val).contains c = true →
    waits s p c = true →
    exec (.swapWaitTimeout p c) s = .next (updPtn p.val (fun x => { x with waitedLong := listed1 c x.waitedLong }) s)) ∧
  (∀ (l : List Nat) (c : Nat),
    c ∈ listed1 c l ∧ (∀ d, d ∈ listed1 c l → d = c ∨ d ∈ l) ∧ (l.Nodup → (listed1 c l).Nodup)) ∧
  (∀ (s : State) (r : Fin 1024),
    waitsForAmount s r.val = true →
    (ring s r.val).senior = none →
    ∃ t, exec (.senior (.ring r)) s = .next t ∧ ring t r.val = { ring s r.val with senior := some s.host.seniorSeq } ∧ t.host.seniorSeq = s.host.seniorSeq + 1 ∧ ∀ q ≠ r.val, ring t q = ring s q) ∧
  (∀ (s : State) (c : Nat),
    (cmdWaits s c = true → ∃ t x, exec (.senior (.cmd c)) s = .next t ∧ cmd? s c = some x ∧ cmd? t c = some { x with senior := some s.host.seniorSeq } ∧
        t.host.seniorSeq = s.host.seniorSeq + 1 ∧ ∀ d ≠ c, cmd? t d = cmd? s d) ∧
      (cmdWaits s c = false → exec (.senior (.cmd c)) s = .next s)) ∧
  (∀ (s : State) (p : Fin 12) (c : Nat) (r : Fin 1024),
    (((ptn s p.val).power ≠ .forge ∨ (ptn s p.val).round.running = false) → exec (.roundSlotAdvance p) s = .next s) ∧
      (((tget (ptn s p.val).resident c).isNone = true ∨ ctxBusy s p c = true) → exec (.residentIdleTimeout p c) s = .next s) ∧
      (((tget (ptn s p.val).resident c).isNone = true ∨ blockedIn s p c = false) → exec (.residentBlockedTimeout p c) s = .next s) ∧
      (((swapQueue s p.val).contains c = false ∨ waits s p c = false) → exec (.swapWaitTimeout p c) s = .next s) ∧
      (((ptn s p.val).round.table = [] ∧ (ptn s p.val).round.next = none → ∃ t, exec (.roundSlotAdvance p) s = .next t ∧ (ptn t p.val).round = (ptn s p.val).round)) ∧
      ((waitsForAmount s r.val = false ∨ (ring s r.val).senior ≠ none) → exec (.senior (.ring r)) s = .next s)) ∧
  (∀ (s : State) (p c : Nat),
    blockedIn s p c = true →
    workHere s p c ≠ [] ∧ (isFenced (ptn s p) = true ∨ ∀ m ∈ workHere s p c, ∃ x, cmd? s m = some x ∧ blockedCmd s m x = true))

/-- Who gets an anvil (R217, R235, R242–R248, R250, R251, R253). -/
def Obligations.AnvilScheduling : Prop :=
  (∀ (s u : State) (p : Fin 12) (a : Fin 864) (d : Nat × Desc) (l : LaneReq) (k : Cmd),
    readyWork p s = u →
    issues u p = true →
    bindable (anvil u p a) = true →
    firstWork u p (waitingFor u p a) = some (.desc d) →
    d.2.lanes.head? = some l →
    laneCmd u l = some k →
    ∃ t, exec (.anvilFree p a) s = .next t ∧ (anvil t p a).lanes = d.2.lanes ∧ (anvil t p a).pattern = d.2.pattern ∧ (anvil t p a).st = .running ∧ (anvil t p a).chunk = none ∧ (anvil t p a).closing = false) ∧
  (∀ (s u : State) (p : Fin 12) (a : Fin 864) (c : Chunk) (d : Desc) (ds : List Desc) (l : LaneReq) (k : Cmd),
    readyWork p s = u →
    issues u p = true →
    bindable (anvil u p a) = true →
    firstWork u p (waitingFor u p a) = some (.chunk c) →
    c.kind = 3 →
    c.bricks = d :: ds →
    d.lanes.head? = some l →
    laneCmd u l = some k →
    ∃ t, exec (.anvilFree p a) s = .next t ∧ (anvil t p a).lanes = d.lanes ∧ (anvil t p a).pattern = d.pattern ∧ (anvil t p a).st = .running ∧
      (anvil t p a).chunk = some { c with start := c.bricks } ∧ (ptn t p.val).chunkQ = removeFirst c (ptn u p.val).chunkQ) ∧
  (∀ (s u : State) (p : Fin 12) (a : Fin 864) (c : Chunk),
    readyWork p s = u →
    issues u p = true →
    bindable (anvil u p a) = true →
    firstWork u p (waitingFor u p a) = some (.chunk c) →
    c.kind ≠ 3 →
    ∃ t, exec (.anvilFree p a) s = .next t ∧ (anvil t p a).st = .running ∧ (anvil t p a).lanes = [] ∧ (anvil t p a).pattern = chunkPattern c.kind ∧
      (anvil t p a).chunk = some { c with start := c.bricks } ∧ (ptn t p.val).chunkQ = removeFirst c (ptn u p.val).chunkQ) ∧
  (∀ (s u : State) (p : Fin 12) (a : Fin 864) (n : Nat) (b : Nat × Anvil) (v : SaveSlot),
    readyWork p s = u →
    issues u p = true →
    bindable (anvil u p a) = true →
    firstWork u p (waitingFor u p a) = some (.saved n b) →
    tget (ptn u p.val).saves n = some v →
    ∃ t, exec (.anvilFree p a) s = .next t ∧ (anvil t p a).st = .running ∧ (anvil t p a).lanes = b.2.lanes ∧ (anvil t p a).chunk = b.2.chunk ∧ (anvil t p a).sel = b.2.sel ∧
      (anvil t p a).cnt = b.2.cnt ∧ (anvil t p a).preempt = false ∧ (anvil t p a).step - (anvil t p a).base = b.2.step - b.2.base ∧
      (tget (ptn t p.val).saves n).all (fun w => w.anvils.all fun e => e.1 != b.1) = true) ∧
  (∀ (s u : State) (p : Fin 12) (a : Fin 864),
    readyWork p s = u →
    (issues u p = false ∨ bindable (anvil u p a) = false ∨ firstWork u p (waitingFor u p a) = none) →
    exec (.anvilFree p a) s = .next u) ∧
  (∀ (s : State) (p : Nat) (ws : List Waiting) (w v : Waiting),
    firstWork s p ws = some w →
    v ∈ ws →
    w ∈ ws ∧ workBefore (ptn s p) (workOf s v) (workOf s w) = false) ∧
  (∀ (s u : State) (p : Fin 12) (r : Fin 24) (w : Waiting) (a : Nat × Anvil),
    readyWork p s = u →
    issues u p = true →
    anvilNear u p r = false →
    (firstWork u p (((ptn u p.val).rowQ.filter fun d => d.1 == r.val && d.2.lanes.all (laneOk u p)).map Waiting.desc) = some w) →
    ((rivals u p r).any (fun v => workBefore (ptn u p.val) (workOf u v) (workOf u w)) = false) →
    victimFor u p r (workOf u w) = some a →
    ((anvil u p a.1).chunk.isSome || (saveSlot (ptn u p.val) (anvCtx u (anvil u p a.1))).isSome || holdsSemaphore (anvCtx u (anvil u p a.1)) u) = true →
    ∃ t, exec (.anvilTake p r) s = .next t ∧ anvil t p a.1 = { anvil u p a.1 with preempt := true } ∧ ∀ b ≠ a.1, anvil t p b = anvil u p b) ∧
  (∀ (s u : State) (p : Fin 12) (r : Fin 24) (w : Waiting) (a : Nat × Anvil),
    readyWork p s = u →
    issues u p = true →
    anvilNear u p r = false →
    (firstWork u p (((ptn u p.val).rowQ.filter fun d => d.1 == r.val && d.2.lanes.all (laneOk u p)).map Waiting.desc) = some w) →
    ((rivals u p r).any (fun v => workBefore (ptn u p.val) (workOf u v) (workOf u w)) = false) →
    victimFor u p r (workOf u w) = some a →
    ((anvil u p a.1).chunk.isSome || (saveSlot (ptn u p.val) (anvCtx u (anvil u p a.1))).isSome || holdsSemaphore (anvCtx u (anvil u p a.1)) u) = false →
    exec (.anvilTake p r) s = .next (killHere p (anvCtx u (anvil u p a.1)) u)) ∧
  (∀ (s u : State) (p : Fin 12) (r : Fin 24) (w : Option Waiting),
    readyWork p s = u →
    (firstWork u p (((ptn u p.val).rowQ.filter fun d => d.1 == r.val && d.2.lanes.all (laneOk u p)).map Waiting.desc) = w) →
    (issues u p = false ∨ anvilNear u p r = true ∨
      w.all (fun w => (rivals u p r).any (fun v => workBefore (ptn u p.val) (workOf u v) (workOf u w)) || (victimFor u p r (workOf u w)).isNone) = true) →
    exec (.anvilTake p r) s = .next u) ∧
  (∀ (s : State) (p : Fin 12) (a : Fin 864) (n : Nat) (v : SaveSlot),
    ((ptn s p.val).saves.find? (fun v => v.2.ctx == anvCtx s (anvil s p a) && !v.2.zeroising) = some (n, v)) →
    (anvil s p a).st = .yielded →
    (anvil s p a).preempt = true →
    tget (ptn s p.val).saves n = some v →
    ∃ u, exec (.preemptSaveDone p a) s = .next (takeWork p a u) ∧ tget (ptn u p.val).saves n = some { v with anvils := tset v.anvils a.val { anvil s p a with preempt := false } } ∧
      anvil u p a = { usable := (anvil s p a).usable, ceCnt := (anvil s p a).ceCnt, local_ := (anvil s p a).local_, poisoned := (anvil s p a).poisoned }) ∧
  (∀ (s : State) (p : Fin 12) (a : Fin 864),
    ((ptn s p.val).saves.find? (fun v => v.2.ctx == anvCtx s (anvil s p a) && !v.2.zeroising) = none ∨ (anvil s p a).st ≠ .yielded ∨ (anvil s p a).preempt = false) →
    exec (.preemptSaveDone p a) s = .next s) ∧
  (∀ (s : State) (p : Fin 12) (x : Nat),
    wanted s p x = true →
    (killMode s x || (saveSlot (ptn s p.val) x).isNone) = true →
    holdsSemaphore x s = false →
    exec (.killPreempt p x) s = .next (((ctxCmds s x).filter (hasWorkIn s p)).foldl (fun s c => killCmd c s) s)) ∧
  (∀ (s : State) (p : Fin 12) (x : Nat),
    (holdsSemaphore x s = true ∨ wanted s p x = false ∨ (killMode s x = false ∧ (saveSlot (ptn s p.val) x).isSome = true)) →
    exec (.killPreempt p x) s = .next s) ∧
  (∀ (s : State) (c : Nat) (k : Cmd),
    cmd? s c = some k →
    isSearch k.opcode = true →
    k.stage = .running →
    k.origin = none →
    k.kills < 3 →
    ∃ y, cmd? (killCmd c s) c = some y ∧ y.kills = k.kills + 1 ∧ y.run = k.run + 1 ∧ y.rerun = true ∧ y.stage = .running ∧ y.rows.length = k.rows.length ∧
      y.tag = k.tag ∧ y.holds = k.holds ∧ y.snap = k.snap ∧ (k.opcode ≠ 0x12 → y.pairs = 0) ∧ (k.opcode = 0x12 → y.pairs = k.pairs)) ∧
  (∀ (s : State) (c : Nat) (k : Cmd),
    cmd? s c = some k →
    isIngest k.opcode = true →
    k.stage = .queued →
    k.origin = none →
    k.epoch = 0 →
    k.committing = false →
    k.kills < 3 →
    ∃ y, cmd? (killCmd c s) c = some y ∧ y.kills = k.kills + 1 ∧ y.run = k.run + 1 ∧ y.rerun = true ∧ y.stage = .assigning ∧ y.recs.length = k.recs.length ∧
      (∀ r ∈ y.recs, r.slot = none ∧ r.spillSlot = none) ∧ (c ∉ (coll (killCmd c s) k.coll).queue) ∧
      ∃ q ∈ (ptn (killCmd c s) k.home).chunkQ, q.cmd = some c ∧ q.kind = assignKind k) ∧
  (∀ (s : State) (c : Nat) (k : Cmd),
    cmd? s c = some k →
    (isSearch k.opcode = true ∨ isIngest k.opcode = true) →
    (k.stage = .running ∨ k.stage = .queued) →
    settledBatch k = false →
    k.origin = none →
    k.kills = 3 →
    ∃ y, cmd? (killCmd c s) c = some y ∧ y.stage = .final ∧ y.status = .killed ∧ y.fault = 0) ∧
  (∀ (s : State) (c : Nat) (k : Cmd),
    cmd? s c = some k →
    settledBatch k = true →
    killCmd c s = s) ∧
  (∀ (s : State) (p : Fin 12) (x : Nat),
    asked (fun _ => true) s p x = true →
    holdsSemaphore x s = true →
    ∃ u, exec (.semOverhold p x) s = .next (startL0 x 0 none u) ∧ bit u.host.evtPend.toNat 11 = true ∧ u.cmds = s.cmds ∧ u.ptns = s.ptns) ∧
  (∀ (s : State) (p : Fin 12) (x : Nat),
    (asked (fun _ => true) s p x = false ∨ holdsSemaphore x s = false) →
    exec (.semOverhold p x) s = .next s)

/-- The phases of a residency swap (R250, R252, R253). -/
def Obligations.ResidencySwaps : Prop :=
  (∀ (s : State) (p : Fin 12) (c : Nat),
    (ptn s p.val).swap = none →
    issues s p = true →
    (ptn s p.val).temp.step < 3 →
    (swapQueue s p.val).find? (waits s p) = some c →
    chooseVictim s p c = some none →
    exec (.swapStart p) s = .next (updPtn p.val (fun x => { x with swap := some { phase := 3, incoming := c } }) s)) ∧
  (∀ (s : State) (p : Fin 12) (c v : Nat),
    (ptn s p.val).swap = none →
    issues s p = true →
    (ptn s p.val).temp.step < 3 →
    (swapQueue s p.val).find? (waits s p) = some c →
    chooseVictim s p c = some (some v) →
    ∃ t, exec (.swapStart p) s = .next t ∧ (ptn t p.val).swap = some { phase := 1, incoming := c, victim := some v } ∧
      ∀ i a, tget (ptn s p.val).anvils i = some a →
        anvil t p i = if killMode s v = false ∧ (anvCtxs s a).contains v = true ∧ issuing a = true then { a with preempt := true } else a) ∧
  (∀ (s : State) (p : Fin 12),
    ((ptn s p.val).swap ≠ none ∨ issues s p = false ∨ 3 ≤ (ptn s p.val).temp.step ∨ ((swapQueue s p.val).find? (waits s p)).all (fun c => (chooseVictim s p c).isNone) = true) →
    exec (.swapStart p) s = .next s) ∧
  (∀ (s : State) (p : Fin 12),
    (ptn s p.val).swap = none →
    exec (.swapPhaseEnd p) s = .next s) ∧
  (∀ (s : State) (p : Fin 12) (w : Swap),
    (ptn s p.val).swap = some w →
    w.suspended = true ∨ issues s p = false →
    exec (.swapPhaseEnd p) s = .next s) ∧
  (∀ (s : State) (p : Fin 12) (w : Swap) (v : Nat),
    (ptn s p.val).swap = some w →
    w.suspended = false →
    issues s p = true →
    w.phase = 1 →
    w.victim = some v →
    stopped s p v = true →
    ∃ t, exec (.swapPhaseEnd p) s = .next t ∧ (ptn t p.val) = { (ptn s p.val) with swap := some { w with phase := 2 } }) ∧
  (∀ (s : State) (p : Fin 12) (w : Swap) (v : Nat),
    (ptn s p.val).swap = some w →
    w.suspended = false →
    issues s p = true →
    w.phase = 2 →
    w.victim = some v →
    savedAll s p v = true →
    ∃ t, exec (.swapPhaseEnd p) s = .next t ∧ (ptn t p.val).swap = some { w with phase := 3 } ∧ tget (ptn t p.val).resident v = none ∧ tget (ptn t p.val).warmLists v = some (warmList s p v)) ∧
  (∀ (s : State) (p : Fin 12) (w : Swap),
    (ptn s p.val).swap = some w →
    w.suspended = false →
    issues s p = true →
    (w.phase = 1 ∨ w.phase = 2) →
    ((∀ v, w.victim = some v → (if w.phase = 1 then stopped s p v else savedAll s p v) = false → exec (.swapPhaseEnd p) s = .next s) ∧
      (w.victim = none → ∃ t, exec (.swapPhaseEnd p) s = .next t ∧ ptn t p.val = { ptn s p.val with swap := some { w with phase := 3 } }))) ∧
  (∀ (s v : State) (p : Fin 12) (w : Swap) (x : Ptn),
    (ptn s p.val).swap = some w →
    w.suspended = false →
    issues s p = true →
    w.phase = 3 →
    (placeAll (updPtn p.val (fun x => { x with resident := tset x.resident w.incoming {} }) s) p.val w.incoming = some x) →
    restoreRecords p w.incoming (loadPatterns p w.incoming (updPtn p.val (fun _ => { x with resident := tdel x.resident w.incoming }) s)) = v →
    (ptn v p.val).swap = some { w with loaded := true } ∧ tget (ptn v p.val).resident w.incoming = none ∧
      (restoredAll v p w.incoming = false → exec (.swapPhaseEnd p) s = .next v) ∧
      (restoredAll v p w.incoming = true → ∃ t, exec (.swapPhaseEnd p) s = .next t ∧ ptn t p.val = { ptn v p.val with swap := some { w with phase := 4, loaded := true } })) ∧
  (∀ (s : State) (p : Fin 12) (w : Swap),
    (ptn s p.val).swap = some w →
    w.suspended = false →
    issues s p = true →
    w.phase = 3 →
    placeAll (updPtn p.val (fun x => { x with resident := tset x.resident w.incoming {} }) s) p.val w.incoming = none →
    exec (.swapPhaseEnd p) s = .next s) ∧
  (∀ (s : State) (p : Fin 12) (w : Swap),
    (ptn s p.val).swap = some w →
    w.suspended = false →
    issues s p = true →
    w.phase ≠ 1 →
    w.phase ≠ 2 →
    w.phase ≠ 3 →
    ∃ t, exec (.swapPhaseEnd p) s = .next t ∧ (ptn t p.val).swap = none ∧ tget (ptn t p.val).resident w.incoming = some { since := (ptn s p.val).cycles.toNat } ∧
      w.incoming ∉ (ptn t p.val).waiting ∧ w.incoming ∉ (ptn t p.val).waitedLong ∧ tget (ptn t p.val).warmLists w.incoming = none ∧
      ∀ i a, tget (ptn s p.val).anvils i = some a → a.st = .yielded → a.preempt = false → anvCtx s a = w.incoming → (anvil t p i).st = .running)

/-- The reset ladder (R221, R348, R350, R351, R356, R357, R359, R362, R364). -/
def Obligations.WatchdogsAndLevels : Prop :=
  (∀ (s : State) (p : Fin 12) (u : Nat),
    watched u = true →
    0x30 ≤ u →
    u < 0x50 →
    watchRuns s u p.val = true →
    covered (.l2 p) s = false →
    ∃ t, exec (.engineWatchdog u p) s = .next t ∧ (∃ l ∈ t.levels, l.level = .l2 p) ∧ (ptn t p.val).fence.any (fun f => f.code == faultCode 9 u p.val (1 * 2 ^ 12)) = true ∧
      (window t p.val).count = (openCount s.aon.ticks (window s p.val)).count) ∧
  (∀ (s : State) (p : Fin 12) (u : Nat),
    watched u = true →
    u < 0x30 ∨ 0x50 ≤ u →
    watchRuns s u p.val = true →
    covered (.l1 u (enginePtn u p.val)) s = false →
    ∃ t v, exec (.engineWatchdog u p) s = .next t ∧ v = startLevel (.l1 u (enginePtn u p.val)) [] (postFault (faultCode 9 u (if u = 0x60 then 0xF else p.val) (1 * 2 ^ 12)) s) ∧
      t = freeRow u p.val ((workOfEngine (postFault (faultCode 9 u (if u = 0x60 then 0xF else p.val) (1 * 2 ^ 12)) s) u p.val).foldl (fun s c => killCmd c s) v) ∧
      (∃ l ∈ v.levels, l.level = .l1 u (enginePtn u p.val)) ∧ v.aon.codes.head? = some (faultCode 9 u (if u = 0x60 then 0xF else p.val) (1 * 2 ^ 12)) ∧ v.ptns = s.ptns ∧ v.cmds = s.cmds ∧
      ∀ a ∈ (ptn t p.val).anvils, a.1 / 36 = u → a.2.chunk.any (fun k => k.cmd.isNone) = false) ∧
  (∀ (s : State) (p : Fin 12) (u : Nat),
    (watched u = false ∨ watchRuns s u p.val = false → exec (.engineWatchdog u p) s = .next s) ∧
      (watched u = true → watchRuns s u p.val = true → covered (if 0x30 ≤ u ∧ u < 0x50 then .l2 p else .l1 u (enginePtn u p.val)) s = true →
        exec (.engineWatchdog u p) s = .next (postFault (faultCode 9 u (if u = 0x60 then 0xF else p.val) (1 * 2 ^ 12)) s))) ∧
  (∀ (s : State) (c : Nat) (x : Cmd),
    cmd? s c = some x →
    x.admitted = true →
    x.stage ≠ .final →
    x.stage ≠ .done →
    x.origin = none →
    covered (.l0 x.ctx) s = false →
    ∃ t, exec (.commandWatchdog c) s = .next t ∧
      ((killable x && !mustCommit x) = true → ∃ y, cmd? t c = some y ∧ y.stage = .final ∧ y.status = .timeout ∧ y.count = 0 ∧ y.fault = faultCode 9 0x53 x.home (2 * 2 ^ 12 + x.ctx)) ∧
      ∀ d z, d ≠ c → cmd? s d = some z → z.ctx = x.ctx → z.admitted = true → z.stage ≠ .final → z.stage ≠ .done → (killable z && !mustCommit z) = true →
        ∃ y, cmd? t d = some y ∧ y.stage = .final ∧ y.status = .killed ∧ y.count = 0 ∧ y.fault = faultCode 9 0x53 x.home (2 * 2 ^ 12 + x.ctx)) ∧
  (∀ (s : State) (c : Nat) (x : Cmd),
    cmd? s c = some x →
    ((x.admitted = false ∨ x.stage = .final ∨ x.stage = .done ∨ x.origin ≠ none) → exec (.commandWatchdog c) s = .next s) ∧
      (x.admitted = true → x.stage ≠ .final → x.stage ≠ .done → x.origin = none → covered (.l0 x.ctx) s = true →
        exec (.commandWatchdog c) s = .next (postFault (faultCode 9 0x53 x.home (2 * 2 ^ 12 + x.ctx)) s))) ∧
  (∀ (s : State) (x u : Nat) (p : Fin 12),
    ∃ t, exec (.killDone x u p) s = .next t ∧ (∀ l ∈ t.levels, l.level = .l0 x → (u, enginePtn u p.val) ∉ l.pending ∧ (l.pending = [] → l.cmds.all (completed s) = false)) ∧
      ∀ l, l.level ≠ .l0 x → (l ∈ t.levels ↔ l ∈ s.levels ∧ killDone s l = false)) ∧
  (∀ (s : State) (u : Nat) (p : Fin 12),
    exec (.engineResetDone u p) s = .next { s with levels := s.levels.filter fun l => l.level ≠ .l1 u (enginePtn u p.val) }) ∧
  (∀ (s : State) (l : Level) (u p : Nat),
    (s.levels.find? (fun k => k.level == .l1 u p) = some l) →
    u ≠ 0x60 →
    p < 12 →
    covered (.l2 (Fin.ofNat 12 p)) s = false →
    ∃ t, exec (.levelOverrun (.l1 u p)) s = .next t ∧ (∃ k ∈ t.levels, k.level = .l2 (Fin.ofNat 12 p)) ∧ (ptn t p).fence.any (fun f => f.code == faultCode 9 u p (3 * 2 ^ 12 + 2 ^ 8)) = true) ∧
  (∀ (s : State) (l : Level) (u p : Nat),
    (s.levels.find? (fun k => k.level == .l1 u p) = some l) →
    (u = 0x60 → covered .l3 s = false → ∃ t, exec (.levelOverrun (.l1 u p)) s = .next t ∧ ChipReset t) ∧
      (u ≠ 0x60 → covered (.l2 (Fin.ofNat 12 p)) s = true → exec (.levelOverrun (.l1 u p)) s = .next (postFault (faultCode 9 u p (3 * 2 ^ 12 + 2 ^ 8)) s))) ∧
  (∀ (s : State) (k : LadderLevel),
    s.levels.any (fun l => l.level == k) = false →
    exec (.levelOverrun k) s = .next s) ∧
  (∀ (s : State) (l : Level) (p : Fin 12),
    (s.levels.find? (fun k => k.level == .l2 p) = some l) →
    covered .l3 s = false →
    ∃ t, exec (.levelOverrun (.l2 p)) s = .next t ∧ ChipReset t) ∧
  (∀ (s : State) (l : Level),
    (s.levels.find? (fun k => k.level == .l3) = some l) →
    covered .l4 s = false →
    ∃ t, exec (.levelOverrun .l3) s = .next t ∧ t.pins.cycleReq = true ∧ (∃ k ∈ t.levels, k.level = .l4) ∧ t.aon.codes.head? = some (faultCode 9 0x88 0xF (3 * 2 ^ 12 + 3 * 2 ^ 8))) ∧
  (∀ (s : State) (l : Level),
    (s.levels.find? (fun k => k.level == .l4) = some l) →
    ∃ u, exec (.levelOverrun .l4) s = .next (updAon (fun a => { a with l4Overrun := true }) (moduleOos u)) ∧ (∀ k ∈ u.levels, k.level ≠ .l4) ∧ u.aon.codes.head? = some (faultCode 9 0x88 0xF (3 * 2 ^ 12 + 4 * 2 ^ 8))) ∧
  (∀ (s : State) (l : Level) (x : Nat),
    (s.levels.find? (fun k => k.level == .l0 x) = some l) →
    ∃ u, exec (.levelOverrun (.l0 x)) s = .next (l.pending.foldl (fun s e => startL1 e.1 e.2 s) u) ∧ (∀ k ∈ u.levels, k.level ≠ .l0 x) ∧ u.aon.codes.head? = some (faultCode 9 0x53 (homeOf s x) (3 * 2 ^ 12 + 0 * 2 ^ 8))) ∧
  (∀ (s : State),
    (moduleOos s).aon.oos = true ∧ ∀ p < 12, (ptn s p).service ≠ .resetting →
      (ptn (moduleOos s) p).service = (if (ptn s p).service = .oos then .oos else .fenced) ∧ (ptn (moduleOos s) p).power = (if (ptn s p).power = .cold then .cold else .banked)) ∧
  (∀ (s : State) (c : Nat) (x : Cmd),
    cmd? s c = some x →
    x.admitted = true →
    x.stage ≠ .final →
    x.stage ≠ .done →
    mustCommit x = false →
    ∃ y, cmd? (moduleOos s) c = some y ∧ y.stage = .final ∧ y.status = .outOfService ∧ y.fault = 0) ∧
  (∀ (s : State) (k : Fin 4) (d : Bool),
    k.val > 0 →
    (covered .l3 s = false → ∃ t, exec (.seamFault k d) s = .next t ∧ ChipReset t) ∧
      (covered .l3 s = true → exec (.seamFault k d) s = .next (postFault (faultCode 0xB 0x61 0xF (k.val * 2 ^ 12 + (if d then 1 else 0))) s))) ∧
  (∀ (s : State) (d : Bool),
    exec (.seamFault 0 d) s = .next s) ∧
  (∀ (s : State) (p : Fin 12) (ch : Fin 32),
    covered (.l2 p) s = true →
    exec (.ctrl p ch) s = .next (postFault (faultCode 1 (0x30 + ch.val) p.val (ch.val * 2 ^ 11 + 4 * 2 ^ 6)) s)) ∧
  (∀ (s : State) (p : Fin 12) (ch : Fin 32),
    covered (.l2 p) s = false →
    ∃ t, exec (.ctrl p ch) s = .next t ∧ (∃ l ∈ t.levels, l.level = .l2 p) ∧ (ptn t p.val).fence.any (fun f => f.code == faultCode 1 (0x30 + ch.val) p.val (ch.val * 2 ^ 11 + 4 * 2 ^ 6) && f.faulty.contains ch.val) = true ∧
      (window t p.val).count = (openCount s.aon.ticks (window s p.val)).count) ∧
  (∀ (s : State),
    ((s.levels.any fun l => l.level == .l3) = true) →
    s.hearthUp = true →
    ((s.levels.any fun l => l.level == .l3 && l.last) = false ∨ s.aon.oos = true) →
    exec .chipResetDone s = .next { s with levels := s.levels.filter fun l => l.level ≠ .l3 }) ∧
  (∀ (s : State),
    ((s.levels.any fun l => l.level == .l3) = true) →
    s.hearthUp = true →
    (s.levels.any fun l => l.level == .l3 && l.last) = true →
    s.aon.oos = false →
    ∃ u, exec .chipResetDone s = .next (moduleOos u) ∧ u = { s with levels := s.levels.filter fun l => l.level ≠ .l3 }) ∧
  (∀ (s : State),
    ((s.levels.any fun l => l.level == .l3) = false ∨ s.hearthUp = false) →
    exec .chipResetDone s = .next s) ∧
  (∀ (s : State) (p : Fin 12),
    (∃ t, exec (.windowExpire (.partition p)) s = .next t ∧ (window t p.val).count = 0 ∧ ∀ q ≠ p.val, window t q = window s q) ∧
      (∃ t, exec (.windowExpire .links) s = .next t ∧ t.aon = { s.aon with linkWin := {} }) ∧ ∃ t, exec (.windowExpire .chip) s = .next t ∧ t.aon = { s.aon with chipWin := {} })

/-- A fence and the partition reset that follows it (R208, R352, R355, R357, R358, R362, R363). -/
def Obligations.FencesAndPartitionResets : Prop :=
  (∀ (s : State) (p : Fin 12) (f : FenceRec),
    (ptn s p.val).fence = some f →
    f.step = 0 →
    ∃ u, exec (.fenceStart p) s = .next (fenceTicketsOf p.val (fenceNotices p.val (if f.thermal then 0 else 2) f.code u)) ∧ ptn u p.val = { ptn s p.val with service := .fenced, fence := some { f with step := 3 } } ∧ bit u.host.evtPend.toNat 15 = true ∧ u.cmds = s.cmds) ∧
  (∀ (s : State) (p : Fin 12) (f : FenceRec),
    (ptn s p.val).fence = some f →
    f.step = 3 →
    ∃ t, exec (.drainWindowEnd p) s = .next t ∧ (ptn t p.val).farQ = [] ∧ (ptn t p.val).atomQ = [] ∧ (ptn t p.val).fence = some { f with step := 5, kills := contextsIn s p } ∧ ((ptn t p.val).wcFences.getLast?).map (·.why) = some (if f.thermal then .step4 else .reset) ∧
      (∀ w, (ptn t p.val).wcFences.getLast? = some w → w.lines = ((ptn s p.val).wcb.map (·.line)).filter fun l => f.thermal || !f.faulty.contains (channelOf l)) ∧
      ∀ c x, c ∈ cmdsIn s p ++ commitsPending s p ++ (ptn s p.val).atomQ.flatMap (atomCmds s) → cmd? s c = some x → x.stage ≠ .final → x.stage ≠ .done → mustCommit x = false →
        ∃ y, cmd? t c = some y ∧ y.stage = .final ∧ y.status = .fenced ∧ y.count = 0 ∧ y.fault = f.code) ∧
  (∀ (s : State) (p : Fin 12),
    ((∀ f, (ptn s p.val).fence = some f → f.step ≠ 0) → exec (.fenceStart p) s = .next s) ∧
      ((∀ f, (ptn s p.val).fence = some f → f.step ≠ 3) → exec (.drainWindowEnd p) s = .next s) ∧
      ((∀ f, (ptn s p.val).fence = some f → f.step = 6 → (ptn s p.val).service ≠ .resetting) → exec (.partitionResetDone p) s = .next s)) ∧
  (∀ (s : State) (p : Fin 12) (c : Nat) (x : Cmd),
    cmd? s c = some x →
    settledBatch x = true →
    c ∉ cmdsIn s p ∧ (mustCommit x = true → ∀ st code, failCmd c st code s = s)) ∧
  (∀ (s : State) (p : Fin 12) (c : Nat) (f : FenceRec) (y : Coll),
    (ptn s p.val).fence = some f →
    f.step = 6 →
    (ptn s p.val).service = .resetting →
    f.memory = true →
    tget s.colls c = some y →
    y.state ≠ .free →
    framesIn s p c y = true →
    ∃ t z, exec (.partitionResetDone p) s = .next t ∧ tget t.colls c = some z ∧ z.state = .suspect) ∧
  (∀ (s : State) (p : Fin 12) (f : FenceRec),
    (ptn s p.val).fence = some f →
    f.step = 6 →
    (ptn s p.val).service = .resetting →
    lastL2 s p.val = true →
    ∃ t, exec (.partitionResetDone p) s = .next t ∧ (ptn t p.val).power = .cold ∧ (ptn t p.val).service = .oos ∧ p.val ∈ t.aon.ptnOos) ∧
  (∀ (s : State) (p : Fin 12) (f : FenceRec),
    (ptn s p.val).fence = some f →
    f.step = 6 →
    (ptn s p.val).service = .resetting →
    lastL2 s p.val = false →
    s.aon.oos = false →
    (ptn s p.val).temp.step ≠ 4 →
    (ptn s p.val).job.isSome = true ∨ creating s p = true →
    ∃ u, exec (.partitionResetDone p) s = .next (serveWaits p.val u) ∧ (ptn u p.val).power = .forge ∧ (ptn u p.val).service = .inService ∧ (ptn u p.val).fence = none ∧
      (ptn u p.val).resident = [] ∧ (ptn u p.val).rowQ = [] ∧ (ptn u p.val).chunkQ = [] ∧ (ptn u p.val).locked = [] ∧ (ptn u p.val).atomQ = [] ∧ (ptn u p.val).wcb = [] ∧ (ptn u p.val).holders = [] ∧
      (∀ a ∈ (ptn u p.val).anvils, a.2 = { usable := a.2.usable, ceCnt := a.2.ceCnt }) ∧ (∀ l ∈ u.levels, l.level ≠ .l2 p) ∧ bit u.host.evtPend.toNat 15 = true) ∧
  (∀ (s : State) (p : Fin 12) (f : FenceRec),
    (ptn s p.val).fence = some f →
    f.step = 6 →
    (ptn s p.val).service = .resetting →
    lastL2 s p.val = false →
    s.aon.oos = false →
    (ptn s p.val).temp.step = 4 →
    ∃ t, exec (.partitionResetDone p) s = .next t ∧ (ptn t p.val).power = .banked ∧ (ptn t p.val).service = .fenced ∧ (ptn t p.val).saved = true ∧ (ptn t p.val).temp.step = 4 ∧
      (ptn t p.val).fence = some { step := 6, code := f.code, thermal := true } ∧ (ptn t p.val).resident = [] ∧ (ptn t p.val).holders = [] ∧ (∀ l ∈ t.levels, l.level ≠ .l2 p)) ∧
  (∀ (s : State) (p : Fin 12) (f : FenceRec),
    (ptn s p.val).fence = some f →
    f.step = 6 →
    (ptn s p.val).service = .resetting →
    lastL2 s p.val = false →
    s.aon.oos = false →
    (ptn s p.val).temp.step ≠ 4 →
    (ptn s p.val).job = none →
    creating s p = false →
    ∃ t, exec (.partitionResetDone p) s = .next t ∧ (ptn t p.val).power = .cold ∧ (ptn t p.val).fence = none ∧ ∀ l ∈ t.levels, l.level ≠ .l2 p) ∧
  (∀ (s : State) (p : Fin 12) (f : FenceRec),
    (ptn s p.val).fence = some f →
    f.step = 6 →
    (ptn s p.val).service = .resetting →
    lastL2 s p.val = false →
    s.aon.oos = true →
    ∃ t, exec (.partitionResetDone p) s = .next t ∧ (ptn t p.val).power = .banked ∧ (ptn t p.val).service = .fenced ∧ (ptn t p.val).saved = true ∧ (ptn t p.val).fence = none ∧ ∀ l ∈ t.levels, l.level ≠ .l2 p)

/-- Entries to and exits from the power states (R389, R391–R394). -/
def Obligations.PowerStates : Prop :=
  (∀ (s : State) (p : Fin 12),
    mayWarm s p.val = true →
    (ptn s p.val).warmUs ≠ 0 →
    ∃ t, exec (.warmIdleTimeout p) s = .next t ∧ ptn t p.val = { ptn s p.val with power := .warm, round := { (ptn s p.val).round with running := false } } ∧ bit t.host.evtPend.toNat 15 = true) ∧
  (∀ (s : State) (p : Fin 12),
    (ptn s p.val).warmUs = 0 ∨ mayWarm s p.val = false →
    exec (.warmIdleTimeout p) s = .next s) ∧
  (∀ (s : State) (p : Fin 12),
    mayBank s p.val = true →
    (ptn s p.val).bankedMs ≠ 0 →
    ∃ t, exec (.bankedIdleTimeout p) s = .next t ∧ (ptn t p.val).banking = some 1 ∧ (ptn t p.val).round.running = false ∧ (ptn t p.val).power = (ptn s p.val).power ∧
      ((ptn t p.val).wcFences.getLast?).map (·.why) = some .banked ∧ ((ptn t p.val).wcFences.getLast?).map (·.lines) = some ((ptn s p.val).wcb.map (·.line)) ∧ (ptn t p.val).wcb = (ptn s p.val).wcb) ∧
  (∀ (s : State) (p : Fin 12),
    (ptn s p.val).bankedMs = 0 ∨ mayBank s p.val = false →
    exec (.bankedIdleTimeout p) s = .next s) ∧
  (∀ (s : State) (p : Fin 12),
    (ptn s p.val).banking ≠ some 4 →
    exec (.bankedEntryDone p) s = .next s) ∧
  (∀ (s : State) (p : Fin 12),
    (ptn s p.val).banking = some 4 →
    ∃ t, exec (.bankedEntryDone p) s = .next t ∧ (ptn t p.val).power = .banked ∧ (ptn t p.val).banking = none ∧ (ptn t p.val).saved = true ∧ (ptn t p.val).cached = [] ∧ (ptn t p.val).hot = [] ∧ (ptn t p.val).wcb = [] ∧
      (ptn t p.val).round.running = false ∧ bit t.host.evtPend.toNat 15 = true) ∧
  (∀ (s : State) (p : Fin 12),
    (ptn s p.val).service = .inService →
    s.aon.oos = false →
    (ptn s p.val).banking = none →
    (ptn s p.val).exiting = none →
    (ptn s p.val).power = .warm ∨ (ptn s p.val).power = .banked →
    ∃ t, exec (.exitDemand p) s = .next t ∧ ptn t p.val = { ptn s p.val with exiting := some (ptn s p.val).power }) ∧
  (∀ (s : State) (p : Fin 12) (k : Nat),
    (ptn s p.val).service = .inService →
    s.aon.oos = false →
    (ptn s p.val).banking = some k →
    k < 4 →
    ∃ t, exec (.exitDemand p) s = .next t ∧ ptn t p.val =
      (if (ptn s p.val).power = .forge then { ptn s p.val with banking := none, wcFences := (ptn s p.val).wcFences.filter (fun f => f.why ≠ .banked), round := restartRound (ptn s p.val).round }
       else { ptn s p.val with banking := none, wcFences := (ptn s p.val).wcFences.filter (fun f => f.why ≠ .banked), exiting := some (ptn s p.val).power })) ∧
  (∀ (s : State) (p : Fin 12),
    (ptn s p.val).banking = none →
    ((ptn s p.val).power ≠ .warm ∧ (ptn s p.val).power ≠ .banked) ∨ (ptn s p.val).exiting.isSome = true →
    exec (.exitDemand p) s = .next s) ∧
  (∀ (s : State) (p : Fin 12) (k : Nat),
    (ptn s p.val).service = .inService →
    s.aon.oos = false →
    (ptn s p.val).banking = some k →
    4 ≤ k →
    ∃ t, exec (.exitDemand p) s = .next t ∧ ptn t p.val = { ptn s p.val with exiting := some .banked }) ∧
  (∀ (s : State) (p : Fin 12),
    (ptn s p.val).service ≠ .inService ∨ s.aon.oos = true →
    exec (.exitDemand p) s = .next s) ∧
  (∀ (s : State) (p : Fin 12) (was : Power) (failed : List Nat),
    (ptn s p.val).exiting = some was →
    (ptn s p.val).power = was →
    (ptn s p.val).banking = none →
    ∃ u, exec (.exitDone p failed) s = .next (serveWaits p.val u) ∧ (ptn u p.val).power = .forge ∧ (ptn u p.val).exiting = none ∧ (ptn u p.val).saved = false ∧
      (ptn u p.val).hot = (if was = .warm then (ptn s p.val).hot else []) ∧ (ptn u p.val).cycles = (if was = .cold then 0 else (ptn s p.val).cycles) ∧
      (ptn u p.val).round = restartRound (ptn s p.val).round ∧ (ptn u p.val).reg = (ptn s p.val).reg ∧ (ptn u p.val).zeroising = creating s p.val ∧
      (ptn u p.val).fence = (if (ptn s p.val).fence.any (·.thermal) then none else (ptn s p.val).fence) ∧
      (ptn u p.val).service = (if (ptn s p.val).fence.any (·.thermal) && (ptn s p.val).service == .fenced then .inService else (ptn s p.val).service) ∧
      (∀ a ∈ failed, was ≠ .warm → a < 864 → (tgetD (ptn u p.val).anvils a {}).usable = false) ∧
      ∀ c ∈ u.colls, c.2.state ≠ .free → ∀ q ∈ c.2.ptns, q.1 = p.val → q.2.latest = c.2.latest ∧ q.2.horizon = c.2.horizon) ∧
  (∀ (s : State) (p : Fin 12) (failed : List Nat),
    (∀ was, (ptn s p.val).exiting = some was → (ptn s p.val).power ≠ was ∨ (ptn s p.val).banking ≠ none) →
    exec (.exitDone p failed) s = .next s) ∧
  (∀ (s : State) (p : Fin 12),
    (ptn s p.val).power ≠ .cold →
    covered (.l2 p) s = true →
    exec (.pllLockLoss p) s = .next (postFault (faultCode 8 0x55 p.val (8 * 2 ^ 12)) s)) ∧
  (∀ (s : State) (p : Fin 12),
    (ptn s p.val).power ≠ .cold →
    covered (.l2 p) s = false →
    ∃ t, exec (.pllLockLoss p) s = .next t ∧ (∃ l ∈ t.levels, l.level = .l2 p) ∧ (ptn t p.val).fence.any (fun f => f.code == faultCode 8 0x55 p.val (8 * 2 ^ 12)) = true ∧
      (window t p.val).count = (openCount s.aon.ticks (window s p.val)).count) ∧
  (∀ (s : State) (p : Fin 12),
    (ptn s p.val).power = .cold →
    exec (.pllLockLoss p) s = .next s)

/-- Zeroisation (R227, R386). -/
def Obligations.Zeroisation : Prop :=
  (∀ (s : State) (p : Fin 12),
    (ptn s p.val).zeroising = true →
    (ptn s p.val).power = .forge →
    ∃ t, exec (.zeroiseDone (.stack p)) s = .next t ∧ (∀ j, j < 2 ^ 40 → memByte t j = if p.val * 2 ^ 36 ≤ j ∧ j < p.val * 2 ^ 36 + 2 ^ 36 then 0 else memByte s j) ∧
      (∀ w ∈ t.poison, ¬(p.val * 2 ^ 36 ≤ w ∧ w < p.val * 2 ^ 36 + 2 ^ 36)) ∧ (ptn t p.val).zeroising = false ∧
      (ptn t p.val).cached = [] ∧ (ptn t p.val).locked = [] ∧ (ptn t p.val).pmem = [] ∧ (ptn t p.val).placed = [] ∧ (ptn t p.val).saves = [] ∧ (∀ a ∈ (ptn t p.val).anvils, a.2 = { usable := false }) ∧
      ∀ k ∈ t.hearth.tickets, ∀ j l f, k.2.work = .jobCreate j l f → p.val ∉ l) ∧
  (∀ (s : State) (p : Fin 12) (r : Fin 3968),
    (∀ g, tget (ptn s p.val).regions r.val = some g → g.inUse = false) →
    ∃ t, exec (.zeroiseDone (.region p r.val)) s = .next t ∧ (∀ j, j < 2 ^ 40 → memByte t j = if regionBase p.val r.val ≤ j ∧ j < regionBase p.val r.val + 2 ^ 24 then 0 else memByte s j) ∧
      (∀ w ∈ t.poison, ¬(regionBase p.val r.val ≤ w ∧ w < regionBase p.val r.val + 2 ^ 24)) ∧ ∀ g, tget (ptn t p.val).regions r.val = some g → tget (ptn s p.val).regions r.val ≠ none → g.zeroising = false) ∧
  (∀ (s : State) (p : Fin 12),
    (ptn s p.val).zeroising = false ∨ (ptn s p.val).power ≠ .forge →
    exec (.zeroiseDone (.stack p)) s = .next s) ∧
  (∀ (s : State) (p : Fin 12) (r : Nat),
    (tget (ptn s p.val).regions r).any (·.inUse) = true ∨ (tget (ptn s p.val).regions r = none ∧ 3968 ≤ r) →
    exec (.zeroiseDone (.region p r)) s = .next s) ∧
  (∀ (s : State) (p : Fin 12) (n : Fin 12),
    (tget (ptn s p.val).saves n.val).any (·.zeroising) = false →
    exec (.zeroiseDone (.saveSlot p n)) s = .next s) ∧
  (∀ (s : State) (p : Fin 12) (n : Fin 12) (v : SaveSlot),
    tget (ptn s p.val).saves n.val = some v →
    v.zeroising = true →
    ∃ t, exec (.zeroiseDone (.saveSlot p n)) s = .next t ∧ (∀ j, j < 2 ^ 40 → memByte t j = if saveBase p.val n.val ≤ j ∧ j < saveBase p.val n.val + 0x05000000 then 0 else memByte s j) ∧
      (∀ w ∈ t.poison, ¬(saveBase p.val n.val ≤ w ∧ w < saveBase p.val n.val + 0x05000000)) ∧ ∀ v', tget (ptn t p.val).saves n.val = some v' → v'.zeroising = false)

/-- The loops of power, die temperature and coolant (R396–R399, R402). -/
def Obligations.PowerAndTemperature : Prop :=
  (∀ (s : State) (w : Nat),
    s.pins.pwrgd = true →
    ∃ t, exec (.powerTick10us w) s = .next t ∧ t.power.p10 = (w :: s.power.p10).take 100 ∧ t.power.dp = (if w > 1600 then min 15 (s.power.dp + 4) else s.power.dp) ∧ t.power.rose = (s.power.rose || decide (w > 1600)) ∧ t.power.west = s.power.west ∧ t.power.east = s.power.east) ∧
  (∀ (s : State),
    s.pins.pwrgd = true →
    ∃ t, exec .powerTick100us s = .next t ∧ t.power.dp = (if sum (s.power.p10.take 10) > s.aon.plim * max 1 (s.power.p10.take 10).length then min 15 (s.power.dp + 2) else s.power.dp) ∧ t.power.p10 = s.power.p10 ∧ t.aon = s.aon) ∧
  (∀ (s : State),
    s.pins.pwrgd = true →
    s.power.excursion = false →
    sum s.power.p10 ≤ s.aon.plim * max 1 s.power.p10.length ∨ s.power.dp ≠ 15 ∨ s.power.highMs = 0 →
    ∃ t, exec .powerTick1ms s = .next t ∧ t.power.pin = sum s.power.p10 / max 1 s.power.p10.length ∧ t.power.excursion = false ∧ t.power.rose = false ∧ t.aon = s.aon ∧
      t.power.dp = if sum s.power.p10 < (s.aon.plim - 50) * max 1 s.power.p10.length ∧ s.power.rose = false then s.power.dp - 1 else s.power.dp) ∧
  (∀ (s : State),
    s.pins.pwrgd = true →
    s.power.excursion = false →
    sum s.power.p10 > s.aon.plim * max 1 s.power.p10.length →
    s.power.dp = 15 →
    s.power.highMs ≥ 1 →
    ∃ t, exec .powerTick1ms s = .next t ∧ t.power.excursion = true ∧ t.power.dp = 15 ∧ t.aon.codes.head? = some (faultCode 8 0x90 0xF (5 * 2 ^ 12)) ∧ t.levels = s.levels) ∧
  (∀ (s : State),
    s.pins.pwrgd = true →
    s.power.excursion = true →
    s.power.lowMs < 10 ∨ s.aon.plim * max 1 s.power.p10.length ≤ sum s.power.p10 →
    ∃ t, exec .powerTick1ms s = .next t ∧ t.power.excursion = true ∧ t.power.dp = 15 ∧ t.aon = s.aon) ∧
  (∀ (s : State),
    s.pins.pwrgd = true →
    s.power.excursion = true →
    10 ≤ s.power.lowMs →
    sum s.power.p10 < s.aon.plim * max 1 s.power.p10.length →
    ∃ t, exec .powerTick1ms s = .next t ∧ t.power.excursion = false ∧ t.aon = s.aon ∧
      t.power.dp = if sum s.power.p10 < (s.aon.plim - 50) * max 1 s.power.p10.length ∧ s.power.rose = false then s.power.dp - 1 else s.power.dp) ∧
  (∀ (s : State) (w : Nat),
    s.pins.pwrgd = false →
    exec (.powerTick10us w) s = .next s) ∧
  (∀ (s : State),
    s.pins.pwrgd = false →
    exec .powerTick100us s = .next s) ∧
  (∀ (s : State),
    s.pins.pwrgd = false →
    exec .powerTick1ms s = .next s) ∧
  (∀ (s : State) (d : Die) (v : Option Int),
    s.pins.pwrgd = false →
    exec (.dieTempSample d v) s = .next s) ∧
  (∀ (s : State) (d : Die),
    s.pins.pwrgd = false →
    exec (.dieDepthTick d) s = .next s) ∧
  (∀ (s : State) (i o : Option Int),
    s.pins.pwrgd = false →
    exec (.coolantSample i o) s = .next s) ∧
  (∀ (s : State) (d : Die) (v : Int),
    s.pins.pwrgd = true →
    -40 ≤ v →
    v ≤ 150 →
    (dieOf d s.power).samples.length = 4 →
    ∃ t, exec (.dieTempSample d (some v)) s = .next t ∧ (dieOf d t.power).samples = (dieOf d s.power).samples ++ [v] ∧ (dieOf d t.power).filtered = some (median5 ((dieOf d s.power).samples ++ [v])) ∧ (dieOf d t.power).depth = (dieOf d s.power).depth) ∧
  (∀ (s : State) (d : Die) (v : Option Int),
    s.pins.pwrgd = true →
    (∀ x, v = some x → x < -40 ∨ 150 < x) →
    (dieOf d s.power).armed = false ∨ (∀ f, (dieOf d s.power).filtered = some f → f < 100) →
    ∃ t, exec (.dieTempSample d v) s = .next t ∧ t.power = s.power ∧ t.aon = s.aon) ∧
  (∀ (s : State) (d : Die) (v : Int) (l : List Int),
    s.pins.pwrgd = true →
    -40 ≤ v →
    v ≤ 150 →
    l = ((dieOf d s.power).samples ++ [v]).drop ((dieOf d s.power).samples.length - 4) →
    ∃ t, exec (.dieTempSample d (some v)) s = .next t ∧
      dieOf d t.power = { dieOf d s.power with samples := l, filtered := some (filterSamples l.length l), armed := if filterSamples l.length l < 97 then true else if filterSamples l.length l ≥ 100 then false else (dieOf d s.power).armed } ∧
      ((dieOf d s.power).armed = false ∨ filterSamples l.length l < 100 → t.aon = s.aon)) ∧
  (∀ (s : State) (d : Die),
    s.pins.pwrgd = true →
    (dieOf d s.power).filtered = none →
    ∃ t, exec (.dieDepthTick d) s = .next t ∧ t.power = s.power) ∧
  (∀ (s : State) (d : Die) (v : Option Int) (f : Int),
    s.pins.pwrgd = true →
    (dieOf d s.power).armed = true →
    (sampleDie v (dieOf d s.power)).filtered = some f →
    100 ≤ f →
    ∃ t, exec (.dieTempSample d v) s = .next t ∧ t.aon.codes.head? = some (faultCode 8 (if d = .west then 0x91 else 0x92) 0xF (3 * 2 ^ 12)) ∧ t.levels = s.levels) ∧
  (∀ (s : State) (d : Die) (f : Int),
    s.pins.pwrgd = true →
    (dieOf d s.power).filtered = some f →
    ∃ t, exec (.dieDepthTick d) s = .next t ∧ (dieOf d t.power).depth = (if 100 ≤ f then min 15 ((dieOf d s.power).depth + 1) else if f < 97 then (dieOf d s.power).depth - 1 else (dieOf d s.power).depth) ∧ t.power.dp = s.power.dp) ∧
  (∀ (s : State) (i o : Option Int),
    s.pins.pwrgd = true →
    ∃ t, exec (.coolantSample i o) s = .next t ∧ t.power.inlets = addSample i s.power.inlets ∧ t.power.outlets = addSample o s.power.outlets ∧
      t.power.inlet = coolFilter t.power.inlets ∧ t.power.outlet = coolFilter t.power.outlets ∧
      t.power.coolOol = ((t.power.inlet.any fun v => decide (v < 40 ∨ v > 90)) || t.power.outlet.any fun v => decide (v > 120)) ∧ t.aon = s.aon)

/-- Supplies, the boot chain, and the causes of a power cycle (R357, R358, R364, R372–R374, R395, R400, R403, R406, R410, R412, R413, R418). -/
def Obligations.SuppliesAndBoot : Prop :=
  (∀ (s : State),
    s.pins.aux = false →
    ∃ t, exec .auxSupplyUp s = .next t ∧ t.pins = { s.pins with aux := true, pwrgd := false, cycleReq := false, thermtrip := false, clocks := false, linkTraining := false } ∧
      t.aon = { slotA := s.aon.slotA, slotB := s.aon.slotB, committed := s.aon.committed, running := s.aon.committed, nextReset := s.aon.nextReset, rollback := s.aon.rollback } ∧
      t.ptns = [] ∧ t.jobs = [] ∧ t.colls = [] ∧ t.cmds = [] ∧ t.hearthUp = false ∧ t.jtag = {}) ∧
  (∀ (s : State),
    s.pins.aux = true →
    exec .auxSupplyUp s = .next s) ∧
  (∀ (s : State),
    s.pins.aux = true →
    ∃ t, exec .auxSupplyLoss s = .next t ∧ t.pins = { s.pins with aux := false, pwrgd := false, cycleReq := false, thermtrip := false, clocks := false, linkTraining := false } ∧
      t.aon = { slotA := s.aon.slotA, slotB := s.aon.slotB, committed := s.aon.committed, running := s.aon.committed, nextReset := s.aon.nextReset, rollback := s.aon.rollback } ∧
      t.ptns = [] ∧ t.jobs = [] ∧ t.colls = [] ∧ t.cmds = [] ∧ t.hearthUp = false ∧ t.jtag = {} ∧ alertN t = false) ∧
  (∀ (s : State),
    s.pins.aux = false →
    exec .auxSupplyLoss s = .next s) ∧
  (∀ (s : State),
    s.pins.pwrEn = false →
    exec .pwrEnDeassert s = .next s) ∧
  (∀ (s : State),
    s.pins.pwrEn = false ∨ s.pins.load = false ∨ s.pins.aux = false ∨ s.pins.pwrgd = true ∨ s.pins.thermtrip = true →
    exec .pwrgd s = .next s) ∧
  (∀ (s : State) (d : Die),
    s.pins.pwrgd = false →
    exec (.thermtrip d) s = .next s) ∧
  (∀ (s : State),
    exec .pwrEnAssert s = .next { s with pins := { s.pins with pwrEn := true, load := true } }) ∧
  (∀ (s : State),
    s.pins.pwrEn = true →
    ∃ t, exec .pwrEnDeassert s = .next t ∧ t.pins.pwrEn = false ∧ t.pins.load = false ∧ t.pins.pwrgd = false ∧ t.pins.clocks = false ∧ t.pins.cycleReq = false ∧ t.pins.thermtrip = false ∧
      (∀ p, ptn t p = if t.aon.ptnOos.contains p then { service := .oos } else {}) ∧ t.jobs = [] ∧ t.ctxs = [] ∧ t.colls = [] ∧ t.cmds = [] ∧ t.hbm = [] ∧ t.host = {} ∧ t.hearthUp = false ∧ t.icern = { ports := t.icern.ports } ∧ (∀ n, port t n = { line := (port t n).line }) ∧ t.levels = s.levels.filter fun l => l.level == .l4) ∧
  (∀ (s : State),
    s.pins.load = true →
    ∃ t, exec .hotSwapOvercurrent s = .next t ∧ t.pins.load = false ∧ t.pins.pwrgd = false ∧ t.pins.clocks = false ∧ t.pins.pwrEn = s.pins.pwrEn ∧ t.aon = { (cutRaise s).aon with trial := false, recoveryTaken := false, dynAddr := none } ∧ (s.aon.nextReset = none → cutRaise s = s) ∧
      (∀ p, ptn t p = if t.aon.ptnOos.contains p then { service := .oos } else {}) ∧ t.jobs = [] ∧ t.ctxs = [] ∧ t.colls = [] ∧ t.cmds = [] ∧ t.hbm = [] ∧ t.host = {} ∧ t.hearthUp = false ∧ t.icern = { ports := t.icern.ports } ∧ (∀ n, port t n = { line := (port t n).line }) ∧ t.levels = s.levels.filter fun l => l.level == .l4) ∧
  (∀ (s : State),
    s.pins.load = false →
    exec .hotSwapOvercurrent s = .next s) ∧
  (∀ (s : State),
    s.pins.pwrEn = true →
    s.pins.load = true →
    s.pins.aux = true →
    s.pins.pwrgd = false →
    s.pins.thermtrip = false →
    exec .pwrgd s = .next (updLink (fun l => { l with byReset := l.byReset || s.levels.any fun v => v.level == .l4 }) { s with pins := { s.pins with pwrgd := true, clocks := true, linkTraining := !s.pins.perst } })) ∧
  (∀ (s : State),
    s.pins.pwrgd = true →
    s.hearthUp = false →
    s.aon.leak = false →
    s.hearth.recovery = false →
    s.hearth.restarting = false →
    s.aon.nextReset = none →
    slotValid s.aon s.aon.committed = true →
    ∃ t, exec .bootComplete s = .next t ∧ t.hearthUp = true ∧ t.aon.running = s.aon.committed ∧ t.aon.rollback = s.aon.rollback ∧ t.aon.codes = s.aon.codes ∧ t.levels = s.levels.filter (fun l => l.level ≠ .l4) ∧ t.hearth.issued = some (issueAlias t.aon) ∧
      t.aon.oos = (s.aon.oos && !s.levels.any fun l => l.level == .l4) ∧ ∀ n, n < 4 → bit s.aon.enable.toNat n = true → (port t n).st = .training ∧ (port t n).step = 1) ∧
  (∀ (s : State) (b : Bool),
    s.pins.pwrgd = true →
    s.hearthUp = false →
    s.aon.leak = false →
    s.hearth.recovery = false →
    s.hearth.restarting = false →
    s.aon.nextReset = some b →
    (fwSlot s.aon b).valid = true →
    s.aon.rollback ≤ (fwSlot s.aon b).sv →
    ∃ t, exec .bootComplete s = .next t ∧ t.hearthUp = true ∧ t.aon.committed = b ∧ t.aon.running = b ∧ t.aon.rollback = (fwSlot s.aon b).sv ∧ t.aon.nextReset = none) ∧
  (∀ (s : State),
    s.pins.pwrgd = true →
    s.hearthUp = false →
    s.aon.leak = false →
    s.hearth.recovery = false →
    s.hearth.restarting = false →
    s.aon.nextReset = none →
    slotValid s.aon s.aon.committed = false →
    slotValid s.aon (!s.aon.committed) = true →
    ∃ t, exec .bootComplete s = .next t ∧ t.hearthUp = true ∧ t.aon.committed = (!s.aon.committed) ∧ t.aon.running = (!s.aon.committed) ∧ t.aon.rollback = s.aon.rollback ∧
      t.aon.codes.head? = some (faultCode 10 0x89 0xF ((if (fwSlot s.aon s.aon.committed).valid then 2 else 1) * 2 ^ 12 + (if s.aon.committed then 1 else 0)))) ∧
  (∀ (s : State),
    s.pins.pwrgd = true →
    s.hearthUp = false →
    s.aon.leak = false →
    s.hearth.recovery = false →
    s.hearth.restarting = false →
    s.aon.nextReset = none →
    slotValid s.aon s.aon.committed = false →
    slotValid s.aon (!s.aon.committed) = false →
    ∃ t, exec .bootComplete s = .next t ∧ t.hearthUp = false ∧ t.hearth.recovery = true ∧ t.ptns = s.ptns ∧
      t.aon.codes.take 2 = [faultCode 10 0x89 0xF ((if (fwSlot s.aon (!s.aon.committed)).valid then 2 else 1) * 2 ^ 12 + (if !s.aon.committed then 1 else 0)),
        faultCode 10 0x89 0xF ((if (fwSlot s.aon s.aon.committed).valid then 2 else 1) * 2 ^ 12 + (if s.aon.committed then 1 else 0))]) ∧
  (∀ (s : State),
    s.aon.leak = true ∨ s.pins.pwrgd = false ∨ s.hearthUp = true ∨ s.hearth.recovery = true ∨ s.hearth.restarting = true →
    exec .bootComplete s = .next s) ∧
  (∀ (s : State) (d : Die),
    s.pins.pwrgd = true →
    ∃ t, exec (.thermtrip d) s = .next t ∧ t.pins.thermtrip = true ∧ t.pins.pwrgd = false ∧ t.pins.clocks = false ∧ t.pins.cycleReq = (s.pins.cycleReq || !covered .l4 s) ∧ t.aon.trip = true ∧ t.levels = (if covered .l4 s then s.levels.filter (fun l => l.level == .l4) else [{ level := .l4 }]) ∧
      t.aon.codes.head? = some (faultCode 8 (if d = .west then 0x91 else 0x92) 0xF (4 * 2 ^ 12)) ∧ (∀ p, ptn t p = if t.aon.ptnOos.contains p then { service := .oos } else {}) ∧ t.jobs = [] ∧ t.ctxs = [] ∧ t.colls = [] ∧ t.cmds = [] ∧ t.hbm = [] ∧ t.hearthUp = false) ∧
  (∀ (s : State),
    s.pins.aux = true →
    s.aon.leak = false →
    ∃ t, exec .leak s = .next t ∧ t.aon.leak = true ∧ t.pins.clocks = false ∧ t.pins.cycleReq = (s.pins.cycleReq || !covered .l4 s) ∧ alertN t = true ∧ t.levels = (if covered .l4 s then s.levels.filter (fun l => l.level == .l4) else [{ level := .l4 }]) ∧
      t.aon.codes.head? = some (faultCode 8 0x93 0xF (7 * 2 ^ 12)) ∧ (∀ p, ptn t p = if t.aon.ptnOos.contains p then { service := .oos } else {}) ∧ t.jobs = [] ∧ t.ctxs = [] ∧ t.colls = [] ∧ t.cmds = [] ∧ t.hbm = [] ∧ t.hearthUp = false) ∧
  (∀ (s : State),
    s.aon.leak = true ∨ s.pins.aux = false →
    exec .leak s = .next s) ∧
  (∀ (s : State),
    s.pins.load = true →
    covered .l4 s = false →
    ∃ t, exec .supply s = .next t ∧ t.pins = { s.pins with cycleReq := true } ∧ (∃ l ∈ t.levels, l.level = .l4) ∧ t.aon.codes.head? = some (faultCode 8 0x90 0xF (6 * 2 ^ 12)) ∧ t.ptns = s.ptns ∧ t.cmds = s.cmds ∧ t.colls = s.colls) ∧
  (∀ (s : State),
    s.pins.load = true →
    covered .l4 s = true →
    exec .supply s = .next (postFault (faultCode 8 0x90 0xF (6 * 2 ^ 12)) s)) ∧
  (∀ (s : State),
    s.pins.load = false →
    exec .supply s = .next s)

/-- The tray controller's interface (R322, R323, R396, R415–R417). -/
def Obligations.TrayController : Prop :=
  (∀ (s : State),
    s.pins.aux = true →
    ∃ t b, exec .getstatus s = .next t ∧ t.aon = { s.aon with hbCounter := s.aon.hbCounter + 1 } ∧ b < 64 ∧
      t.host.answer = .data (leBytes 2 ((if s.aon.leak then 3 else if s.hearthUp then (if s.aon.oos then 1 else 0) else 2) * 2 ^ 14 + (s.aon.hbCounter + 1).toNat * 2 ^ 8 + b)) false) ∧
  (∀ (s : State) (a : BitVec 7),
    s.pins.aux = true →
    exec (.setdasa a) s = .next { s with aon := { s.aon with dynAddr := some a } }) ∧
  (∀ (s : State) (a : BitVec 7),
    s.pins.aux = true →
    exec (.entdaa a) s = .next { s with aon := { s.aon with dynAddr := some a } }) ∧
  (∀ (s : State) (w : Nat),
    s.pins.aux = true →
    600 ≤ w →
    w ≤ 1500 →
    ∃ t, exec (.pldmPlimWrite w) s = .next t ∧ t.aon = { s.aon with plim := w } ∧ t.host.answer = .written) ∧
  (∀ (s : State) (w : Nat),
    s.pins.aux = true →
    w < 600 ∨ 1500 < w →
    ∃ t, exec (.pldmPlimWrite w) s = .next t ∧ t.aon = s.aon ∧ t.host.answer = .refused) ∧
  (∀ (s : State) (x : PldmSensor),
    s.pins.aux = true →
    ∃ t, exec (.pldmSensorRead x) s = .next t ∧ t.power = s.power ∧ t.aon = s.aon ∧
      t.host.answer = .data (leBytes 2 (match x with
        | .pin => s.power.pin % 65536
        | .vin => s.power.vin % 256
        | .tjWest => bits (glbTherm s) 63 56
        | .tjEast => bits (glbTherm s) 55 48
        | .inlet => bits (glbTherm s) 47 40
        | .outlet => bits (glbTherm s) 39 32
        | .alertCause => maskOf ((upto 5).filter fun i => lget (alertCauses s) i false)
        | .plim => s.aon.plim % 65536)) false) ∧
  (∀ (s : State) (img : List Byte),
    s.pins.aux = true →
    s.hearthUp = true →
    sessionElsewhere s 3 = false →
    img ≠ [] →
    img.length ≤ 2 ^ 22 →
    ∃ t, exec (.pldmFwUpdate img) s = .next t ∧ t.hearth.stage = none ∧ fwSlot t.aon (!s.aon.running) = (verifyImage { s.aon with rollback := raised s } img.length img).1 ∧
      ((verifyImage { s.aon with rollback := raised s } img.length img).2.1 = .ok → t.aon.nextReset = some (!s.aon.running) ∧ t.host.answer = .written) ∧
      ((verifyImage { s.aon with rollback := raised s } img.length img).2.1 ≠ .ok → t.aon.nextReset = s.aon.nextReset ∧ t.host.answer = .refused)) ∧
  (∀ (s : State) (img : List Byte),
    s.pins.aux = true →
    sessionElsewhere s 3 = true ∨ s.hearthUp = false ∨ img = [] ∨ 2 ^ 22 < img.length →
    ∃ t, exec (.pldmFwUpdate img) s = .next t ∧ t.aon = s.aon ∧ t.hearth = s.hearth ∧ t.host.answer = .refused) ∧
  (∀ (s : State),
    s.pins.aux = false →
    exec .getstatus s = .next s) ∧
  (∀ (s : State) (a : BitVec 7),
    s.pins.aux = false →
    exec (.setdasa a) s = .next s) ∧
  (∀ (s : State) (w : Nat),
    s.pins.aux = false →
    exec (.pldmPlimWrite w) s = .next s) ∧
  (∀ (s : State) (a : BitVec 7) (x : PldmSensor) (img : List Byte),
    s.pins.aux = false →
    exec (.entdaa a) s = .next s ∧ exec (.pldmSensorRead x) s = .next s ∧ exec (.pldmFwUpdate img) s = .next s)

/-- The TAP (R325, R418, R430–R432). -/
def Obligations.BoundaryScan : Prop :=
  (∀ (s : State),
    s.pins.aux = true →
    scanAllowed s = true →
    ∃ t, exec .extest s = .next t ∧ t.jtag.instr = 0x00 ∧ t.jtag.refused = false ∧ (s.jtag.functional = true → t.jtag.functional = false ∧ t.host.link.up = false ∧ ∀ n, n < 4 → (port t n).st = .down ∨ (port t n).st = .disabled)) ∧
  (∀ (s : State),
    s.pins.aux = true →
    scanAllowed s = false →
    ∃ t, exec .extest s = .next t ∧ t.jtag = { s.jtag with instr := 0xFF, refused := true, functional := true }) ∧
  (∀ (s : State),
    s.pins.aux = true →
    scanAllowed s = true →
    ∃ t, exec .extestPulse s = .next t ∧ t.jtag.instr = 0x03 ∧ t.jtag.refused = false ∧ (s.jtag.functional = true → t.jtag.functional = false ∧ t.host.link.up = false ∧ ∀ n, n < 4 → (port t n).st = .down ∨ (port t n).st = .disabled)) ∧
  (∀ (s : State),
    s.pins.aux = true →
    scanAllowed s = false →
    ∃ t, exec .extestPulse s = .next t ∧ t.jtag = { s.jtag with instr := 0xFF, refused := true, functional := true }) ∧
  (∀ (s : State),
    s.pins.aux = true →
    scanAllowed s = true →
    ∃ t, exec .extestTrain s = .next t ∧ t.jtag.instr = 0x04 ∧ t.jtag.refused = false ∧ (s.jtag.functional = true → t.jtag.functional = false ∧ t.host.link.up = false ∧ ∀ n, n < 4 → (port t n).st = .down ∨ (port t n).st = .disabled)) ∧
  (∀ (s : State),
    s.pins.aux = true →
    scanAllowed s = false →
    ∃ t, exec .extestTrain s = .next t ∧ t.jtag = { s.jtag with instr := 0xFF, refused := true, functional := true }) ∧
  (∀ (s : State),
    s.pins.aux = true →
    scanAllowed s = true →
    ∃ t, exec .clamp s = .next t ∧ t.jtag.instr = 0x05 ∧ t.jtag.refused = false ∧ (s.jtag.functional = true → t.jtag.functional = false ∧ t.host.link.up = false ∧ ∀ n, n < 4 → (port t n).st = .down ∨ (port t n).st = .disabled)) ∧
  (∀ (s : State),
    s.pins.aux = true →
    scanAllowed s = false →
    ∃ t, exec .clamp s = .next t ∧ t.jtag = { s.jtag with instr := 0xFF, refused := true, functional := true }) ∧
  (∀ (s : State),
    s.pins.aux = true →
    scanAllowed s = true →
    ∃ t, exec .highz s = .next t ∧ t.jtag.instr = 0x06 ∧ t.jtag.refused = false ∧ (s.jtag.functional = true → t.jtag.functional = false ∧ t.host.link.up = false ∧ ∀ n, n < 4 → (port t n).st = .down ∨ (port t n).st = .disabled)) ∧
  (∀ (s : State),
    s.pins.aux = true →
    scanAllowed s = false →
    ∃ t, exec .highz s = .next t ∧ t.jtag = { s.jtag with instr := 0xFF, refused := true, functional := true }) ∧
  (∀ (s : State),
    s.pins.aux = true →
    ∃ t, exec .idcode s = .next t ∧ t.jtag.instr = 0x01 ∧ t.jtag.refused = false ∧ t.jtag.functional = true ∧ (s.jtag.functional = false → ∀ n p, tget s.icern.ports n = some p → bit s.aon.enable.toNat n = true → (port t n).st = .training ∧ (port t n).step = 1) ∧ t.host.answer = .data [0xE3, 0x03, 0x12, 0x1C] false ∧ t.jtag.boundary = s.jtag.boundary) ∧
  (∀ (s : State) (v : List Bool),
    s.pins.aux = true →
    ∃ t, exec (.samplePreload v) s = .next t ∧ t.jtag.instr = 0x02 ∧ t.jtag.refused = false ∧ t.jtag.functional = true ∧ (s.jtag.functional = false → ∀ n p, tget s.icern.ports n = some p → bit s.aon.enable.toNat n = true → (port t n).st = .training ∧ (port t n).step = 1) ∧ (∀ i, i < 64 → lget t.jtag.boundary i true = (s.pins.pwrgd && lget v i false)) ∧
      t.jtag.boundary.drop 64 = [s.pins.pwrEn, !s.pins.perst, s.aon.leak, !alertN s, s.pins.pwrgd, !s.pins.cycleReq, !s.pins.thermtrip]) ∧
  (∀ (s : State) (c : BitVec 8),
    s.pins.aux = true →
    6 < c.toNat →
    ∃ t, exec (.bypass c) s = .next t ∧ t.jtag.instr = 0xFF ∧ t.jtag.refused = false ∧ t.jtag.functional = true ∧ (s.jtag.functional = false → ∀ n p, tget s.icern.ports n = some p → bit s.aon.enable.toNat n = true → (port t n).st = .training ∧ (port t n).step = 1) ∧ t.jtag.boundary = s.jtag.boundary) ∧
  (∀ (s : State),
    ∃ t, exec .trstAssert s = .next t ∧ t.jtag = { s.jtag with instr := 0x01, refused := false, functional := true } ∧ (s.jtag.functional = false → ∀ n p, tget s.icern.ports n = some p → bit s.aon.enable.toNat n = true → (port t n).st = .training ∧ (port t n).step = 1)) ∧
  (∀ (s : State),
    s.pins.aux = false →
    exec .extest s = .next s ∧ exec .extestPulse s = .next s ∧ exec .extestTrain s = .next s ∧ exec .clamp s = .next s ∧ exec .highz s = .next s ∧ exec .idcode s = .next s ∧
      (∀ v, exec (.samplePreload v) s = .next s) ∧ ∀ c, exec (.bypass c) s = .next s) ∧
  (∀ (s : State) (c : BitVec 8),
    c.toNat ≤ 6 →
    exec (.bypass c) s = .next s)

/-- The states of an Icern port (R325, R326, R348, R362). -/
def Obligations.PortStates : Prop :=
  (∀ (s : State) (n : Fin 4),
    bringingUp (port s n.val) = true →
    (port s n.val).step = 1 →
    ∃ t, exec (.portTrainStepDone n 0xF) s = .next t ∧ port t n.val = { port s n.val with lanes := 0xF, step := 2, countedStep1 := false }) ∧
  (∀ (s : State) (n : Fin 4) (l : BitVec 4),
    bringingUp (port s n.val) = true →
    (port s n.val).step = 1 →
    l ≠ 0xF →
    spanningJobs s = [] →
    cmdsOf (fun x => x.parked) s = [] →
    s.icern.requests = [] →
    ∃ t, exec (.portTrainStepDone n l) s = .next t ∧ (port t n.val).st = .down ∧ (port t n.val).step = 0 ∧ (port t n.val).tx = [] ∧ (port t n.val).rx = [] ∧ (port t n.val).replay = [] ∧ (port t n.val).credits = [] ∧
      (port t n.val).hbloss = false ∧ t.aon.codes.head? = some (faultCode 6 (0x78 + n.val) 0xF (1 * 2 ^ 12 + n.val * 2 ^ 10 + (port s n.val).peer % 64))) ∧
  (∀ (s : State) (n : Fin 4) (l : BitVec 4),
    bringingUp (port s n.val) = true →
    (port s n.val).step = 2 →
    ∃ t, exec (.portTrainStepDone n l) s = .next t ∧ port t n.val = putFlit .init (bareFlit (initBody s n.val)) { port s n.val with step := 3, st := .init, beat := false }) ∧
  (∀ (s : State) (n : Fin 4) (l : BitVec 4),
    (port s n.val).st = .init →
    (port s n.val).step = 4 →
    (port s n.val).beat = true →
    ∃ t, exec (.portTrainStepDone n l) s = .next t ∧ (port t n.val).st = .up ∧ (port t n.val).step = 0 ∧ (port t n.val).hbSeq = (port s n.val).hbSeq ∧ (port t n.val).expSeq = (port s n.val).expSeq) ∧
  (∀ (s : State) (n : Fin 4) (l : BitVec 4),
    bringingUp (port s n.val) = false →
    exec (.portTrainStepDone n l) s = .next s) ∧
  (∀ (s : State) (n : Fin 4) (l : BitVec 4),
    ((port s n.val).step = 4 ∧ (port s n.val).beat = false) ∨ (port s n.val).step = 0 ∨ (port s n.val).step = 3 ∨ 4 < (port s n.val).step →
    exec (.portTrainStepDone n l) s = .next s) ∧
  (∀ (s : State) (n : Fin 4),
    bringingUp (port s n.val) = true →
    spanningJobs s = [] →
    cmdsOf (fun x => x.parked) s = [] →
    s.icern.requests = [] →
    ∃ t, exec (.portStepTimeout n) s = .next t ∧ (port t n.val).st = .down ∧ (port t n.val).step = 0 ∧ (port t n.val).tx = [] ∧ (port t n.val).rx = [] ∧ (port t n.val).replay = [] ∧ (port t n.val).credits = [] ∧
      (port t n.val).hbloss = false ∧ t.aon.codes.head? = some (faultCode 6 (0x78 + n.val) 0xF (1 * 2 ^ 12 + n.val * 2 ^ 10 + (port s n.val).peer % 64))) ∧
  (∀ (s : State) (n : Fin 4),
    bringingUp (port s n.val) = false →
    exec (.portStepTimeout n) s = .next s) ∧
  (∀ (s : State) (n : Fin 4),
    (port s n.val).st = .down →
    bit s.aon.enable.toNat n.val = true →
    (port s n.val).countedStep1 = true →
    ∃ t, exec (.portRestart n) s = .next t ∧ port t n.val = { port s n.val with st := .training, step := 1, retrains := satInc (port s n.val).retrains, countedStep1 := true, lanes := 0 } ∧ t.aon = s.aon) ∧
  (∀ (s : State) (n : Fin 4),
    (port s n.val).st = .down →
    bit s.aon.enable.toNat n.val = true →
    (port s n.val).countedStep1 = false →
    (openCount s.aon.ticks s.aon.linkWin).count < 9 ∨ s.aon.oos = true →
    ∃ t, exec (.portRestart n) s = .next t ∧ port t n.val = { port s n.val with st := .training, step := 1, retrains := satInc (port s n.val).retrains, countedStep1 := true, lanes := 0 } ∧
      t.aon = { s.aon with linkWin := openCount s.aon.ticks s.aon.linkWin }) ∧
  (∀ (s : State) (n : Fin 4),
    bit s.aon.enable.toNat n.val = false ∨ (port s n.val).st ≠ .down →
    exec (.portRestart n) s = .next s) ∧
  (∀ (s : State) (n : Fin 4),
    (port s n.val).st = .down →
    bit s.aon.enable.toNat n.val = true →
    (port s n.val).countedStep1 = false →
    9 ≤ (openCount s.aon.ticks s.aon.linkWin).count →
    s.aon.oos = false →
    ∃ t, exec (.portRestart n) s = .next t ∧ t.aon.oos = true ∧ (port t n.val).st = .training ∧ (port t n.val).step = 1 ∧ (port t n.val).countedStep1 = true) ∧
  (∀ (s : State) (n : Fin 4) (l : BitVec 4),
    bringingUp (port s n.val) = true →
    (port s n.val).step = 1 →
    l ≠ 0xF →
    ∃ t, exec (.portTrainStepDone n l) s = .next t ∧ (port t n.val).st = .down ∧ (port t n.val).step = 0 ∧ (port t n.val).tx = [] ∧ (port t n.val).replay = [] ∧ (port t n.val).hbloss = false) ∧
  (∀ (s : State) (n : Fin 4),
    bringingUp (port s n.val) = true →
    ∃ t, exec (.portStepTimeout n) s = .next t ∧ (port t n.val).st = .down ∧ (port t n.val).step = 0 ∧ (port t n.val).tx = [] ∧ (port t n.val).replay = [] ∧ (port t n.val).hbloss = false) ∧
  (∀ (s : State) (n : Fin 4),
    (port s n.val).st = .up →
    ∃ t u, exec (.heartbeatLoss n) s = .next t ∧ exec (.alignmentLoss n) s = .next u ∧ (port t n.val).hbloss = true ∧ (port u n.val).hbloss = false ∧
      (port t n.val).st = .down ∧ (port t n.val).tx = [] ∧ (port t n.val).replay = [] ∧ (port u n.val).st = .down ∧ (port u n.val).tx = [] ∧ (port u n.val).replay = []) ∧
  (∀ (s : State) (n : Fin 4),
    beating (port s n.val) = true →
    ∃ t, exec (.heartbeatTimer n) s = .next t ∧ (port t n.val).hbSeq = (port s n.val).hbSeq + 1 ∧ (port t n.val).st = (port s n.val).st ∧
      t = queueFlits n.val ((msgFlits { type := 7, src := s.aon.modid, dst := if (port s n.val).step = 3 then lget s.aon.peers n.val 0xFF else (port s n.val).peer, body := leBytes 4 (port s n.val).hbSeq.toNat ++ [if s.aon.oos then 1 else 0, 0] ++ leBytes 2 (maskOf (fencedPtns s)) } false).map fun f => { flit := f }) (updPort n.val (fun p => { p with hbSeq := p.hbSeq + 1 }) s)) ∧
  (∀ (s : State) (n : Fin 4),
    beating (port s n.val) = false →
    exec (.heartbeatTimer n) s = .next s) ∧
  (∀ (s : State) (n : Fin 4),
    (port s n.val).st = .up →
    spanningJobs s = [] →
    cmdsOf (fun x => x.parked) s = [] →
    s.icern.requests = [] →
    ∃ t, exec (.heartbeatLoss n) s = .next t ∧ (port t n.val).st = .down ∧ (port t n.val).step = 0 ∧ (port t n.val).tx = [] ∧ (port t n.val).rx = [] ∧ (port t n.val).replay = [] ∧ (port t n.val).credits = [] ∧
      (port t n.val).hbloss = true ∧ t.aon.codes.head? = some (faultCode 6 (0x78 + n.val) 0xF (3 * 2 ^ 12 + n.val * 2 ^ 10 + (port s n.val).peer % 64))) ∧
  (∀ (s : State) (n : Fin 4),
    (port s n.val).st = .up →
    spanningJobs s = [] →
    cmdsOf (fun x => x.parked) s = [] →
    s.icern.requests = [] →
    ∃ t, exec (.alignmentLoss n) s = .next t ∧ (port t n.val).st = .down ∧ (port t n.val).step = 0 ∧ (port t n.val).tx = [] ∧ (port t n.val).rx = [] ∧ (port t n.val).replay = [] ∧ (port t n.val).credits = [] ∧
      (port t n.val).hbloss = false ∧ t.aon.codes.head? = some (faultCode 6 (0x78 + n.val) 0xF (1 * 2 ^ 12 + n.val * 2 ^ 10 + (port s n.val).peer % 64))) ∧
  (∀ (s : State) (n : Fin 4),
    (port s n.val).st ≠ .up →
    exec (.heartbeatLoss n) s = .next s ∧ exec (.alignmentLoss n) s = .next s)

/-- What arrives at an Icern port (R325, R326, R328–R330, R336, R345). -/
def Obligations.Flits : Prop :=
  (∀ (s : State) (n : Fin 4) (f : Flit),
    beating (port s n.val) = true →
    f.seq = (port s n.val).expSeq →
    f.first = true →
    f.last = true →
    (readMsg f.body).dst = s.aon.modid →
    ∃ t, exec (.flitData n f) s = .next t ∧ (∃ m ∈ t.icern.inbox, { m with bufs := none } = readMsg f.body) ∧ (port t n.val).got = true ∧ (port t n.val).expSeq = (port s n.val).expSeq + 1 ∧ (port t n.val).replayDue = false ∧
      (port t n.val).beat = ((port s n.val).beat || (readMsg f.body).type == 7) ∧ (port t n.val).st = (port s n.val).st) ∧
  (∀ (s : State) (n : Fin 4) (f : Flit),
    beating (port s n.val) = true →
    f.seq ≠ (port s n.val).expSeq →
    ∃ t, exec (.flitData n f) s = .next t ∧ t.icern.inbox = s.icern.inbox ∧ (port t n.val).expSeq = (port s n.val).expSeq ∧
      port t n.val = (if (port s n.val).replayAt.all (fun t => decide ((s.aon.ticks - t).toNat ≥ 13)) then { putFlit .replay (bareFlit (leBytes 2 (port s n.val).expSeq.toNat)) (port s n.val) with replayAt := some s.aon.ticks, replayDue := false }
        else { (port s n.val) with replayDue := true })) ∧
  (∀ (s : State) (n : Fin 4) (f : Flit),
    beating (port s n.val) = false →
    exec (.flitData n f) s = .next s ∧ exec (.flitNull n f) s = .next s) ∧
  (∀ (s : State) (n : Fin 4) (f : Flit),
    beating (port s n.val) = true →
    ∃ u, exec (.flitNull n f) s = .next (pumpRequests (runPort n.val u)) ∧ (creditOf (port u n.val) f.crVc.val f.crCls).have_ = (creditOf (port s n.val) f.crVc.val f.crCls).have_ + f.crCnt ∧
      (port u n.val).replay = (if f.ackValid = true ∧ (∃ g ∈ (port s n.val).replay, g.seq = f.ack) then ((port s n.val).replay.dropWhile (·.seq != f.ack)).drop 1 else (port s n.val).replay) ∧
      (port u n.val).tx = (port s n.val).tx ∧ u.icern.inbox = s.icern.inbox ∧ u.icern.requests = s.icern.requests) ∧
  (∀ (s : State) (n : Fin 4) (f : Flit) (bs : List Byte),
    beating (port s n.val) = true →
    f.seq = (port s n.val).expSeq →
    (f.first = false ∧ tget (port s n.val).rx f.vc.val = some (.own bs)) ∨ (f.first = true ∧ ((readMsg f.body).dst = s.aon.modid ∨ (readMsg f.body).type = 7) ∧ bs = []) →
    ∃ t, exec (.flitData n f) s = .next t ∧ (port t n.val).expSeq = (port s n.val).expSeq + 1 ∧ (f.last = true → ∃ m ∈ t.icern.inbox, { m with bufs := none } = readMsg (bs ++ f.body)) ∧
      (f.last = false → tget (port t n.val).rx f.vc.val = some (.own (bs ++ f.body)) ∧ t.icern.inbox = s.icern.inbox)) ∧
  (∀ (s : State) (n : Fin 4) (f : Flit),
    beating (port s n.val) = true →
    f.seq = (port s n.val).expSeq →
    f.first = true →
    (readMsg f.body).dst ≠ s.aon.modid →
    (readMsg f.body).type ≠ 7 →
    (readMsg f.body).ttl ≤ 1 →
    ∃ u, exec (.flitData n f) s = .next (pumpRequests (runPort n.val u)) ∧ u.icern.inbox = s.icern.inbox ∧ u.icern.ttlDrops = s.icern.ttlDrops + 1 ∧ u.aon.codes.head? = some (faultCode 6 0x7C 0xF (4 * 2 ^ 12 + n.val * 2 ^ 10 + (readMsg f.body).dst % 64))) ∧
  (∀ (s : State) (n : Fin 4) (f : Flit),
    beating (port s n.val) = true →
    f.seq = (port s n.val).expSeq →
    f.first = true →
    (readMsg f.body).dst ≠ s.aon.modid →
    (readMsg f.body).type ≠ 7 →
    1 < (readMsg f.body).ttl →
    (∀ o, routeOf s (readMsg f.body).dst = some o → (port s o).st ≠ .up) →
    ∃ u, exec (.flitData n f) s = .next (pumpRequests (runPort n.val u)) ∧ u.icern.inbox = s.icern.inbox ∧ u.icern.ttlDrops = s.icern.ttlDrops + 1 ∧
      u.aon.codes.head? = some (faultCode 6 0x7C 0xF (5 * 2 ^ 12 + ((routeOf s (readMsg f.body).dst).getD 0) * 2 ^ 10 + (readMsg f.body).dst % 64))) ∧
  (∀ (s : State) (n : Fin 4) (f : Flit) (o : Nat),
    beating (port s n.val) = true →
    f.seq = (port s n.val).expSeq →
    f.first = true →
    (readMsg f.body).dst ≠ s.aon.modid →
    (readMsg f.body).type ≠ 7 →
    1 < (readMsg f.body).ttl →
    routeOf s (readMsg f.body).dst = some o →
    (port s o).st = .up →
    ∃ v, exec (.flitData n f) s = .next (pumpRequests (runPort n.val (queueFlits o [{ flit := { f with cls := passClass s n.val o f.cls, body := passHeader s (readMsg f.body) f.body }, from_ := some (n.val, f.cls) }] v))) ∧
      v.icern.inbox = s.icern.inbox ∧ v.icern.ttlDrops = s.icern.ttlDrops ∧ (port v n.val).expSeq = (port s n.val).expSeq + 1) ∧
  (∀ (s : State) (n : Fin 4) (f : Flit) (q : Port),
    beating (port s n.val) = true →
    takeCredits f (takeAck f (port s n.val)) = q →
    q.lastReplay ≠ some (wantedOf f) ∨ q.replayRun < 7 ∨ (port s n.val).st ≠ .up →
    ∃ u, exec (.flitReplay n f) s = .next (pumpRequests (runPort n.val u)) ∧ u.icern.inbox = s.icern.inbox ∧
      port u n.val = { q with replays := satInc q.replays, replayRun := if q.lastReplay = some (wantedOf f) then q.replayRun + 1 else 1, lastReplay := some (wantedOf f), resend := q.replay.dropWhile (·.seq != wantedOf f) }) ∧
  (∀ (s : State) (n : Fin 4) (f : Flit) (q : Port),
    (port s n.val).st = .up →
    takeCredits f (takeAck f (port s n.val)) = q →
    q.lastReplay = some (wantedOf f) →
    q.replayRun ≥ 7 →
    spanningJobs s = [] →
    cmdsOf (fun x => x.parked) s = [] →
    s.icern.requests = [] →
    ∃ t, exec (.flitReplay n f) s = .next t ∧ (port t n.val).st = .down ∧ (port t n.val).step = 0 ∧ (port t n.val).tx = [] ∧ (port t n.val).rx = [] ∧ (port t n.val).replay = [] ∧ (port t n.val).credits = [] ∧
      (port t n.val).hbloss = false ∧ t.aon.codes.head? = some (faultCode 6 (0x78 + n.val) 0xF (1 * 2 ^ 12 + n.val * 2 ^ 10 + (port s n.val).peer % 64))) ∧
  (∀ (s : State) (n : Fin 4) (peer e : Nat) (cs : List Nat),
    (port s n.val).st = .init →
    (port s n.val).step = 3 →
    lget s.aon.peers n.val 0xFF = 0xFF ∨ lget s.aon.peers n.val 0xFF = peer →
    (port s n.val).tx = [] →
    (port s n.val).passed = [] →
    (port s n.val).resend = [] →
    (port s n.val).got = false →
    ∃ t, exec (.flitInit n peer e cs) s = .next t ∧ port t n.val = { port s n.val with peer := peer % 64, mismatch := false, step := 4, credits := initCredits cs }) ∧
  (∀ (s : State) (n : Fin 4) (peer e : Nat) (cs : List Nat),
    (port s n.val).st = .init →
    (port s n.val).step = 3 →
    lget s.aon.peers n.val 0xFF = 0xFF ∨ lget s.aon.peers n.val 0xFF = peer →
    ∃ u, exec (.flitInit n peer e cs) s = .next (runPort n.val u) ∧ port u n.val = aimBeats peer { port s n.val with peer := peer % 64, mismatch := false, step := 4, credits := initCredits cs }) ∧
  (∀ (s : State) (n : Fin 4) (peer e : Nat) (cs : List Nat),
    (port s n.val).st = .init →
    (port s n.val).step = 3 →
    lget s.aon.peers n.val 0xFF ≠ 0xFF →
    lget s.aon.peers n.val 0xFF ≠ peer →
    spanningJobs s = [] →
    cmdsOf (fun x => x.parked) s = [] →
    s.icern.requests = [] →
    ∃ t, exec (.flitInit n peer e cs) s = .next t ∧ (port t n.val).st = .down ∧ (port t n.val).credits = [] ∧ t.aon.codes.head? = some (faultCode 6 (0x78 + n.val) 0xF (2 * 2 ^ 12 + n.val * 2 ^ 10 + peer % 64 % 64))) ∧
  (∀ (s : State) (n : Fin 4) (fec : Bool) (q : Port),
    beating (port s n.val) = true →
    (if fec then { port s n.val with fecUncorr := satInc (port s n.val).fecUncorr } else { port s n.val with crcErr := satInc (port s n.val).crcErr }) = q →
    ∃ t, exec (.flitCrcError n fec) s = .next t ∧ t.icern.inbox = s.icern.inbox ∧
      port t n.val = (if q.replayAt.all (fun t => decide ((s.aon.ticks - t).toNat ≥ 13)) then { putFlit .replay (bareFlit (leBytes 2 q.expSeq.toNat)) q with replayAt := some s.aon.ticks, replayDue := false }
        else { q with replayDue := true })) ∧
  (∀ (s : State) (n : Fin 4) (f : Flit) (q : Port),
    (port s n.val).st = .up →
    takeCredits f (takeAck f (port s n.val)) = q →
    q.lastReplay = some (wantedOf f) →
    q.replayRun ≥ 7 →
    ∃ t, exec (.flitReplay n f) s = .next t ∧ (port t n.val).st = .down ∧ (port t n.val).tx = [] ∧ (port t n.val).replay = []) ∧
  (∀ (s : State) (n : Fin 4) (f : Flit) (fec : Bool),
    beating (port s n.val) = false →
    exec (.flitReplay n f) s = .next s ∧ exec (.flitCrcError n fec) s = .next s) ∧
  (∀ (s : State) (n : Fin 4) (peer e : Nat) (cs : List Nat),
    (port s n.val).st ≠ .init ∨ (port s n.val).step ≠ 3 →
    exec (.flitInit n peer e cs) s = .next s) ∧
  (∀ (s : State) (n : Fin 4) (peer e : Nat) (cs : List Nat),
    (port s n.val).st = .init →
    (port s n.val).step = 3 →
    lget s.aon.peers n.val 0xFF ≠ 0xFF →
    lget s.aon.peers n.val 0xFF ≠ peer →
    ∃ t, exec (.flitInit n peer e cs) s = .next t ∧ (port t n.val).st = .down ∧ (port t n.val).peer = peer % 64 ∧ (port t n.val).mismatch = true) ∧
  (∀ (s : State) (n : Fin 4) (f : Flit) (o : Nat) (c : Bool),
    beating (port s n.val) = true →
    f.seq = (port s n.val).expSeq →
    f.first = false →
    tget (port s n.val).rx f.vc.val = some (.pass o c) →
    ∃ v, exec (.flitData n f) s = .next (pumpRequests (runPort n.val (queueFlits o [{ flit := { f with cls := c }, from_ := some (n.val, f.cls) }] v))) ∧ v.icern.inbox = s.icern.inbox ∧ (port v n.val).expSeq = (port s n.val).expSeq + 1) ∧
  (∀ (s : State) (n : Fin 4) (f : Flit),
    beating (port s n.val) = true →
    f.seq = (port s n.val).expSeq →
    f.first = false →
    tget (port s n.val).rx f.vc.val = none ∨ tget (port s n.val).rx f.vc.val = some .drop →
    ∃ u, exec (.flitData n f) s = .next (pumpRequests (runPort n.val u)) ∧ u.icern.inbox = s.icern.inbox ∧ u.icern.ttlDrops = s.icern.ttlDrops ∧ (port u n.val).expSeq = (port s n.val).expSeq + 1)

/-- Forwarded searches and ingest (R156, R186, R255, R333, R340, R341, R343, R385). -/
def Obligations.ForwardedWork : Prop :=
  (∀ (s : State) (src : Nat) (m : Msg),
    waitingParts s src = [] →
    oldest s (isMsg 1 src false) = some m →
    accepted s m = false →
    ∃ t, exec (.queryFwd src) s = .next t ∧ t.icern.inbox = removeFirst m s.icern.inbox ∧ t.aon.codes.head? = some (faultCode 10 0x7C 0xF (3 * 2 ^ 12)) ∧ t.cmds = s.cmds) ∧
  (∀ (s : State) (src : Nat) (m : Msg) (r : Refused),
    waitingParts s src = [] →
    oldest s (isMsg 1 src false) = some m →
    accepted s m = true →
    ofAborted s m = false →
    partOf s m.src m.cmd = none →
    forwardRefused s m (eColl (localDeadline (BitVec.ofNat 512 (leNat (m.body.take 64))) (field m.body 64 4))) = some r →
    ∃ t x, exec (.queryFwd src) s = .next t ∧ t.icern.inbox = removeFirst m s.icern.inbox ∧ cmd? t s.nextCmd = some x ∧ x.origin = some (m.src, m.cmd) ∧ x.stage = .final ∧ x.status = r.status ∧ x.admitted = false) ∧
  (∀ (s : State) (src : Nat) (m : Msg) (c : Nat) (x : Cmd),
    oldest s (isMsg 2 src true) = some m →
    rootCmd (dropMsg m s) m = some c →
    cmd? s c = some x →
    isSearch x.opcode = true →
    x.stage = .running →
    x.peersDone.contains m.src = false →
    field m.body 0 1 = 0 →
    listSound (dropMsg m s) x m = true →
    ∃ t y, exec (.partialList src) s = .next t ∧ cmd? t c = some y ∧ y.peersDone = x.peersDone ++ [m.src] ∧ y.stage = .running ∧ y.nan = x.nan + field m.body 4 4 ∧
      y.peerPairs = x.peerPairs + field m.body 12 4 ∧ y.peerDone = x.peerDone + field m.body 16 4 ∧ y.dedup = (x.dedup || bit (field m.body 1 1) 0) ∧ y.deadlineHit = (x.deadlineHit || bit (field m.body 1 1) 1)) ∧
  (∀ (s : State) (src : Nat) (m : Msg) (c : Nat) (x : Cmd),
    oldest s (isMsg 2 src true) = some m →
    rootCmd (dropMsg m s) m = some c →
    cmd? s c = some x →
    isSearch x.opcode = true →
    x.stage = .running →
    x.peersDone.contains m.src = false →
    field m.body 0 1 = 0 →
    listSound (dropMsg m s) x m = false →
    exec (.partialList src) s = .next (engineFault 0x60 0 (faultCode 3 0x60 0xF (2 * 2 ^ 12)) (postFault (faultCode 3 0x60 0xF (2 * 2 ^ 12)) (dropMsg m s)))) ∧
  (∀ (s : State) (src : Nat) (m : Msg) (c : Nat) (x : Cmd),
    oldest s (isMsg 2 src true) = some m →
    rootCmd (dropMsg m s) m = some c →
    cmd? s c = some x →
    isSearch x.opcode = true →
    x.stage = .running →
    x.peersDone.contains m.src = false →
    field m.body 0 1 ≠ 0 →
    ∃ t y, exec (.partialList src) s = .next t ∧ cmd? t c = some y ∧ y.stage = .final ∧ y.status = firstFailure (dropMsg m s) m ∧ y.count = 0 ∧
      ((∀ k ∈ s.icern.inbox, k.cmd = m.cmd → k ≠ m → field k.body 0 1 = 0) → y.status = statusOfCode (field m.body 0 1))) ∧
  (∀ (s : State) (src : Nat) (m : Msg),
    oldest s (isMsg 2 src true) = some m →
    rootCmd (dropMsg m s) m = none →
    exec (.partialList src) s = .next (dropMsg m s)) ∧
  (∀ (s : State) (src : Nat) (m : Msg),
    (oldest s (fun m => isMsg 3 src false m && phaseOf m == 0) = some m) →
    accepted s m = false →
    ∃ t, exec (.insertFwdPrepare src) s = .next t ∧ t.icern.inbox = removeFirst m s.icern.inbox ∧ t.aon.codes.head? = some (faultCode 10 0x7C 0xF (3 * 2 ^ 12)) ∧ t.cmds = s.cmds) ∧
  (∀ (s : State) (src : Nat) (m : Msg),
    (oldest s (fun m => isMsg 3 src false m && phaseOf m == 0) = some m) →
    accepted s m = true →
    s.icern.hold = true →
    partOf s m.src m.cmd = none →
    exec (.insertFwdPrepare src) s = .next s) ∧
  (∀ (s : State) (src : Nat) (m : Msg),
    (oldest s (fun m => isMsg 3 src false m && phaseOf m == 0) = some m) →
    accepted s m = true →
    s.icern.hold = false →
    partOf s m.src m.cmd = none →
    ofAborted s m = true →
    exec (.insertFwdPrepare src) s = .next (dropMsg m s)) ∧
  (∀ (s : State) (src : Nat) (m : Msg),
    (oldest s (fun m => isMsg 3 src false m && phaseOf m == 0) = some m) →
    accepted s m = true →
    s.icern.hold = false →
    ofAborted s m = false →
    partOf s m.src m.cmd = none →
    field m.body 1 1 ≠ 0x40 →
    exec (.insertFwdPrepare src) s = .next (preparePart m (field m.body 1 1) (field m.body 2 2) (field m.body 4 4) (m.body.drop 8) (dropMsg m s))) ∧
  (∀ (s : State) (m : Msg) (op flags n : Nat) (bs : List Byte),
    s.colls = [] →
    ∃ x, cmd? (preparePart m op flags n bs s) s.nextCmd = some x ∧ x.origin = some (m.src, m.cmd) ∧ x.stage = .final ∧ x.status = .invalidField ∧ x.admitted = false) ∧
  (∀ (s : State) (src : Nat) (m : Msg),
    oldest s (isMsg 4 src false) = some m →
    accepted s m = false →
    ∃ t, exec (.bulkData src) s = .next t ∧ t.icern.inbox = removeFirst m s.icern.inbox ∧ t.aon.codes.head? = some (faultCode 10 0x7C 0xF (3 * 2 ^ 12)) ∧ t.cmds = s.cmds) ∧
  (∀ (s : State) (src : Nat) (m : Msg),
    oldest s (isMsg 4 src false) = some m →
    accepted s m = true →
    partOf s m.src m.cmd = none →
    s.icern.hold = false →
    ofAborted s m = false →
    ∃ t x, exec (.bulkData src) s = .next t ∧ cmd? t s.nextCmd = some x ∧ x.origin = some (m.src, m.cmd) ∧ x.run = m.run ∧ x.stage = .reading ∧ x.payload = m.body.drop 8 ∧ x.count = field m.body 4 4) ∧
  (∀ (s : State) (src : Nat) (m : Msg),
    oldest s (isMsg 4 src false) = some m →
    accepted s m = true →
    (s.icern.hold = true → partOf s m.src m.cmd = none → exec (.bulkData src) s = .next s) ∧
      ((s.icern.hold = false ∨ partOf s m.src m.cmd ≠ none) → ofAborted s m = true → exec (.bulkData src) s = .next (dropMsg m s))) ∧
  (∀ (s : State) (src : Nat) (m : Msg) (c : Nat) (x : Cmd),
    oldest s (isMsg 4 src false) = some m →
    accepted s m = true →
    partOf s m.src m.cmd = some c →
    cmd? s c = some x →
    x.run = m.run →
    x.stage = .reading →
    ofAborted s m = false →
    ∃ t, exec (.bulkData src) s = .next t ∧ cmd? t c = some { x with payload := x.payload.take (field m.body 0 4) ++ m.body.drop 8, count := x.count + field m.body 4 4 }) ∧
  (∀ (s : State) (src : Nat) (m : Msg) (c : Nat) (x : Cmd),
    (oldest s (fun m => isMsg 3 src false m && phaseOf m == 1) = some m) →
    accepted s m = true →
    partOf s m.src m.cmd = some c →
    cmd? s c = some x →
    isIngest x.opcode = true →
    x.run = m.run →
    x.committing = false →
    x.stage ≠ .final →
    x.stage ≠ .waiting →
    ∃ t, exec (.insertFwdCommit src) s = .next t ∧ cmd? t c = some { x with committing := true }) ∧
  (∀ (s : State) (src : Nat) (m : Msg) (c : Nat) (x : Cmd),
    (oldest s (fun m => isMsg 3 src false m && phaseOf m == 1) = some m) →
    accepted s m = true →
    partOf s m.src m.cmd = some c →
    cmd? s c = some x →
    isIngest x.opcode = true →
    x.run = m.run →
    x.committing = false →
    x.stage = .waiting →
    (coll s x.coll).queue.length < 64 →
    ∃ t, exec (.insertFwdCommit src) s = .next t ∧ cmd? t c = some { x with committing := true, stage := .queued } ∧ (coll t x.coll).queue = (coll s x.coll).queue ++ [c]) ∧
  (∀ (s : State) (src : Nat) (m : Msg),
    (oldest s (fun m => isMsg 3 src false m && phaseOf m == 1) = some m) →
    accepted s m = false →
    ∃ t, exec (.insertFwdCommit src) s = .next t ∧ t.icern.inbox = removeFirst m s.icern.inbox ∧ t.aon.codes.head? = some (faultCode 10 0x7C 0xF (3 * 2 ^ 12)) ∧ t.cmds = s.cmds) ∧
  (∀ (s : State) (src : Nat) (m : Msg) (c : Nat) (x : Cmd),
    (oldest s (fun m => isMsg 3 src false m && phaseOf m == 2) = some m) →
    accepted s m = true →
    partOf s m.src m.cmd = some c →
    cmd? s c = some x →
    isIngest x.opcode = true →
    olderRun m.run x.run = false →
    x.epoch = 0 →
    ∃ t, exec (.insertFwdWithdraw src) s = .next t ∧ (x.committing = false → cmd? t c = none) ∧ (x.committing = true → t = dropMsg m s)) ∧
  (∀ (s : State) (src : Nat) (m : Msg),
    (oldest s (fun m => isMsg 3 src false m && phaseOf m == 2) = some m) →
    accepted s m = false →
    ∃ t, exec (.insertFwdWithdraw src) s = .next t ∧ t.icern.inbox = removeFirst m s.icern.inbox ∧ t.aon.codes.head? = some (faultCode 10 0x7C 0xF (3 * 2 ^ 12)) ∧ t.cmds = s.cmds) ∧
  (∀ (s : State) (src : Nat) (m : Msg) (c : Nat) (x : Cmd),
    oldest s (isMsg 3 src true) = some m →
    rootCmd (dropMsg m s) m = some c →
    cmd? s c = some x →
    x.committing = false →
    x.stage ≠ .final →
    x.stage ≠ .waiting →
    field m.body 0 1 = 0 →
    ∃ t, exec (.insertFwdResponse src) s = .next t ∧ cmd? t c = some { x with peersReady := if x.peersReady.contains m.src then x.peersReady else x.peersReady ++ [m.src] }) ∧
  (∀ (s : State) (src : Nat) (m : Msg) (c : Nat) (x : Cmd),
    oldest s (isMsg 3 src true) = some m →
    rootCmd (dropMsg m s) m = some c →
    cmd? s c = some x →
    x.committing = false →
    x.stage ≠ .final →
    x.stage ≠ .done →
    field m.body 0 1 ≠ 0 →
    ∃ t y, exec (.insertFwdResponse src) s = .next t ∧ cmd? t c = some y ∧ y.stage = .final ∧ y.status = firstFailure (dropMsg m s) m ∧ y.count = 0 ∧
      ((∀ k ∈ s.icern.inbox, k.cmd = m.cmd → k ≠ m → field k.body 0 1 = 0) → y.status = statusOfCode (field m.body 0 1))) ∧
  (∀ (s : State) (src : Nat) (m : Msg) (c : Nat) (x : Cmd),
    oldest s (isMsg 3 src true) = some m →
    rootCmd (dropMsg m s) m = some c →
    cmd? s c = some x →
    x.committing = true →
    x.peersDone.contains m.src = false →
    ∃ u, exec (.insertFwdResponse src) s = .next (tryFinish c u) ∧ cmd? u c = some { x with peersDone := x.peersDone ++ [m.src], deleted := x.deleted + if x.opcode = 0x22 then field m.body 8 4 else 0 }) ∧
  (∀ (s : State) (src ctx : Nat) (m : Msg) (e : BitVec 512) (bs : List Byte) (hs : List Hold) (u v : State),
    waitingParts s src = [] →
    oldest s (isMsg 1 src false) = some m →
    accepted s m = true →
    ofAborted s m = false →
    partOf s m.src m.cmd = none →
    e = localDeadline (BitVec.ofNat 512 (leNat (m.body.take 64))) (field m.body 64 4) →
    bs = (m.body.drop 80).take (field m.body 68 4) →
    ctx = forwardCtx s m.job 0 →
    forwardRefused s m (eColl e) = none →
    isSearch (opOf e) = true →
    queryBad s ctx e (field m.body 72 8) bs.length = false →
    hs = queryHolds s m.job ctx e (sparseCount (coll s (eColl e)) e bs) →
    (∀ h ∈ hs, h.amount ≤ poolSize h.pool) →
    addCmd (boundPart m ctx e bs [] hs (spend 1 (takeMsg m s))) (spend 1 (takeMsg m s)) = u →
    s.icern.hold = false →
    takeLacking s.nextCmd hs u = (v, true) →
    ∃ w, exec (.queryFwd src) s = .next (afterPayload s.nextCmd (takePayload s.nextCmd bs (demandAll (needsPtns w ctx (opOf e) (eColl e)) w))) ∧
      w = freeBufs m.bufs (updCmd s.nextCmd (fun x => { x with lent := none, admitted := true }) v) ∧ w.icern.inbox = removeFirst m s.icern.inbox ∧
      ∃ x, cmd? w s.nextCmd = some x ∧ x.origin = some (m.src, m.cmd) ∧ x.run = m.run ∧ x.snap = (coll s (eColl e)).latest ∧ x.holds = hs ∧ x.lacking = []) ∧
  (∀ (s : State) (src ctx : Nat) (m : Msg) (e : BitVec 512) (bs : List Byte) (hs : List Hold) (u v : State),
    waitingParts s src = [] →
    oldest s (isMsg 1 src false) = some m →
    accepted s m = true →
    ofAborted s m = false →
    partOf s m.src m.cmd = none →
    e = localDeadline (BitVec.ofNat 512 (leNat (m.body.take 64))) (field m.body 64 4) →
    bs = (m.body.drop 80).take (field m.body 68 4) →
    ctx = forwardCtx s m.job 0 →
    forwardRefused s m (eColl e) = none →
    isSearch (opOf e) = true →
    queryBad s ctx e (field m.body 72 8) bs.length = false →
    hs = queryHolds s m.job ctx e (sparseCount (coll s (eColl e)) e bs) →
    (∀ h ∈ hs, h.amount ≤ poolSize h.pool) →
    addCmd (boundPart m ctx e bs [] hs (spend 1 (takeMsg m s))) (spend 1 (takeMsg m s)) = u →
    s.icern.hold = false →
    takeLacking s.nextCmd hs u = (v, false) →
    ∃ x, exec (.queryFwd src) s = .next v ∧ cmd? v s.nextCmd = some x ∧ x.origin = some (m.src, m.cmd) ∧ x.run = m.run ∧ x.stage = .reading ∧ x.admitted = false ∧ x.snap = (coll s (eColl e)).latest ∧
      x.lent = m.bufs ∧ hs = x.holds ++ x.lacking ∧ x.lacking ≠ [] ∧ v.icern.inbox = removeFirst m s.icern.inbox) ∧
  (∀ (s : State) (src ctx : Nat) (m : Msg) (e : BitVec 512) (bs : List Byte) (hs : List Hold) (u : State),
    waitingParts s src = [] →
    oldest s (isMsg 1 src false) = some m →
    accepted s m = true →
    ofAborted s m = false →
    partOf s m.src m.cmd = none →
    e = localDeadline (BitVec.ofNat 512 (leNat (m.body.take 64))) (field m.body 64 4) →
    bs = (m.body.drop 80).take (field m.body 68 4) →
    ctx = forwardCtx s m.job 0 →
    forwardRefused s m (eColl e) = none →
    isSearch (opOf e) = true →
    queryBad s ctx e (field m.body 72 8) bs.length = false →
    hs = queryHolds s m.job ctx e (sparseCount (coll s (eColl e)) e bs) →
    (∀ h ∈ hs, h.amount ≤ poolSize h.pool) →
    addCmd (boundPart m ctx e bs [] hs (spend 1 (takeMsg m s))) (spend 1 (takeMsg m s)) = u →
    s.icern.hold = true →
    exec (.queryFwd src) s = .next u ∧ cmd? u s.nextCmd = some (boundPart m ctx e bs [] hs (spend 1 (takeMsg m s))) ∧ u.icern.inbox = removeFirst m s.icern.inbox) ∧
  (∀ (s : State) (src ctx : Nat) (m : Msg) (e : BitVec 512) (bs : List Byte) (hs : List Hold),
    waitingParts s src = [] →
    oldest s (isMsg 1 src false) = some m →
    accepted s m = true →
    ofAborted s m = false →
    partOf s m.src m.cmd = none →
    e = localDeadline (BitVec.ofNat 512 (leNat (m.body.take 64))) (field m.body 64 4) →
    bs = (m.body.drop 80).take (field m.body 68 4) →
    ctx = forwardCtx s m.job 0 →
    forwardRefused s m (eColl e) = none →
    isSearch (opOf e) = true →
    queryBad s ctx e (field m.body 72 8) bs.length = false →
    hs = queryHolds s m.job ctx e (sparseCount (coll s (eColl e)) e bs) →
    (∃ h ∈ hs, poolSize h.pool < h.amount) →
    exec (.queryFwd src) s = .next (refusePart m e ctx { status := .noResource } (freeBufs m.bufs (spend 1 (takeMsg m s))))) ∧
  (∀ (s : State) (src : Nat) (m : Msg) (e : BitVec 512),
    waitingParts s src = [] →
    oldest s (isMsg 1 src false) = some m →
    accepted s m = true →
    ofAborted s m = false →
    partOf s m.src m.cmd = none →
    e = localDeadline (BitVec.ofNat 512 (leNat (m.body.take 64))) (field m.body 64 4) →
    forwardRefused s m (eColl e) = none →
    isSearch (opOf e) = false ∨ queryBad s (forwardCtx s m.job 0) e (field m.body 72 8) ((m.body.drop 80).take (field m.body 68 4)).length = true →
    exec (.queryFwd src) s = .next (refusePart m e (forwardCtx s m.job 0) { status := .invalidField } (freeBufs m.bufs (spend 1 (takeMsg m s))))) ∧
  (∀ (s : State) (src c : Nat) (m : Msg) (x : Cmd),
    waitingParts s src = [] →
    oldest s (isMsg 1 src false) = some m →
    accepted s m = true →
    partOf s m.src m.cmd = some c →
    cmd? s c = some x →
    x.run = m.run ∨ olderRun m.run x.run = true →
    exec (.queryFwd src) s = .next (dropMsg m s)) ∧
  (∀ (s : State) (src : Nat) (m : Msg),
    waitingParts s src = [] →
    oldest s (isMsg 1 src false) = some m →
    accepted s m = true →
    ofAborted s m = true →
    exec (.queryFwd src) s = .next (dropMsg m s)) ∧
  (∀ (s u : State) (src : Nat),
    (waitingParts s src).foldl (fun s c => tryPart c s) s = u →
    oldest u (isMsg 1 src false) = none →
    exec (.queryFwd src) s = .next u) ∧
  (∀ (s : State) (src c : Nat) (m : Msg) (x : Cmd),
    (oldest s (fun m => isMsg 3 src false m && phaseOf m == 0) = some m) →
    accepted s m = true →
    partOf s m.src m.cmd = some c →
    cmd? s c = some x →
    x.run = m.run ∨ olderRun m.run x.run = true →
    field m.body 1 1 ≠ 0x40 →
    exec (.insertFwdPrepare src) s = .next (dropMsg m s)) ∧
  (∀ (s : State) (src : Nat) (m : Msg),
    (oldest s (fun m => isMsg 3 src false m && phaseOf m == 0) = some m) →
    accepted s m = true →
    s.icern.hold = false →
    ofAborted s m = false →
    partOf s m.src m.cmd = none →
    field m.body 1 1 = 0x40 →
    exec (.insertFwdPrepare src) s = .next (preparePart m 0x40 (field m.body 2 2) 0 [] (dropMsg m s))) ∧
  (∀ (s : State) (src c : Nat) (m : Msg) (x : Cmd),
    (oldest s (fun m => isMsg 3 src false m && phaseOf m == 0) = some m) →
    accepted s m = true →
    ofAborted s m = false →
    field m.body 1 1 = 0x40 →
    partOf s m.src m.cmd = some c →
    cmd? s c = some x →
    x.run = m.run →
    x.stage = .reading →
    partOf (dropPart c (dropMsg m s)) m.src m.cmd = none →
    exec (.insertFwdPrepare src) s = .next (preparePart m 0x40 (field m.body 2 2) x.count x.payload (dropPart c (dropMsg m s)))) ∧
  (∀ (s : State) (m : Msg) (op flags n : Nat) (bs : List Byte),
    ∃ x, cmd? (preparePart m op flags n bs s) s.nextCmd = some x ∧ x.origin = some (m.src, m.cmd) ∧ x.run = m.run) ∧
  (∀ (s : State) (src c : Nat) (m : Msg) (x : Cmd),
    oldest s (isMsg 4 src false) = some m →
    accepted s m = true →
    partOf s m.src m.cmd = some c →
    cmd? s c = some x →
    (x.run = m.run ∧ x.stage ≠ .reading) ∨ (x.run ≠ m.run ∧ olderRun m.run x.run = true) →
    exec (.bulkData src) s = .next (dropMsg m s)) ∧
  (∀ (s : State) (src c : Nat) (m : Msg) (x : Cmd),
    oldest s (isMsg 2 src true) = some m →
    rootCmd (dropMsg m s) m = some c →
    cmd? s c = some x →
    isSearch x.opcode = false ∨ x.stage ≠ .running ∨ x.peersDone.contains m.src = true →
    exec (.partialList src) s = .next (dropMsg m s)) ∧
  (∀ (s : State) (src c : Nat) (m : Msg) (x : Cmd),
    (oldest s (fun m => isMsg 3 src false m && phaseOf m == 1) = some m) →
    accepted s m = true →
    partOf s m.src m.cmd = some c →
    cmd? s c = some x →
    isIngest x.opcode = true →
    x.run = m.run →
    x.committing = false →
    x.stage = .waiting →
    64 ≤ (coll s x.coll).queue.length →
    ∃ t, exec (.insertFwdCommit src) s = .next t ∧ cmd? t c = some { x with committing := true } ∧ t.colls = s.colls) ∧
  (∀ (s : State) (src : Nat) (m : Msg),
    (oldest s (fun m => isMsg 3 src false m && phaseOf m == 1) = some m) →
    accepted s m = true →
    (∀ c x, partOf s m.src m.cmd = some c → cmd? s c = some x → isIngest x.opcode = false ∨ x.run ≠ m.run ∨ x.committing = true ∨ x.stage = .final) →
    exec (.insertFwdCommit src) s = .next (dropMsg m s)) ∧
  (∀ (s : State) (src : Nat) (m : Msg),
    (oldest s (fun m => isMsg 3 src false m && phaseOf m == 2) = some m) →
    accepted s m = true →
    (∀ c x, partOf s m.src m.cmd = some c → cmd? s c = some x → isIngest x.opcode = false ∨ olderRun m.run x.run = true) →
    exec (.insertFwdWithdraw src) s = .next (dropMsg m s)) ∧
  (∀ (s : State) (src : Nat) (m : Msg),
    oldest s (isMsg 3 src true) = some m →
    (∀ c x, rootCmd (dropMsg m s) m = some c → cmd? s c = some x → (x.committing = true ∧ x.peersDone.contains m.src = true) ∨ (x.committing = false ∧ x.stage = .final)) →
    exec (.insertFwdResponse src) s = .next (dropMsg m s)) ∧
  (∀ (s : State) (src c : Nat) (m : Msg) (x : Cmd),
    oldest s (isMsg 3 src true) = some m →
    rootCmd (dropMsg m s) m = some c →
    cmd? s c = some x →
    x.committing = false →
    x.stage = .waiting →
    field m.body 0 1 = 0 →
    ∃ u, exec (.insertFwdResponse src) s = .next (batchReady c u) ∧ cmd? u c = some { x with peersReady := if x.peersReady.contains m.src then x.peersReady else x.peersReady ++ [m.src] }) ∧
  (∀ (s : State) (src : Nat),
    (waitingParts s src = [] → oldest s (isMsg 1 src false) = none → exec (.queryFwd src) s = .next s) ∧ (oldest s (isMsg 2 src true) = none → exec (.partialList src) s = .next s) ∧
      (oldest s (isMsg 4 src false) = none → exec (.bulkData src) s = .next s) ∧ (oldest s (isMsg 3 src true) = none → exec (.insertFwdResponse src) s = .next s) ∧
      (oldest s (fun m => isMsg 3 src false m && phaseOf m == 0) = none → exec (.insertFwdPrepare src) s = .next s) ∧
      (oldest s (fun m => isMsg 3 src false m && phaseOf m == 1) = none → exec (.insertFwdCommit src) s = .next s) ∧
      (oldest s (fun m => isMsg 3 src false m && phaseOf m == 2) = none → exec (.insertFwdWithdraw src) s = .next s))

/-- Notices, aborts, heartbeats and route probes (R334, R339, R342–R345, R352). -/
def Obligations.NoticesAndProbes : Prop :=
  (∀ (s : State) (src : Nat) (m : Msg),
    oldest s (isMsg 5 src false) = some m →
    noticedJobs (dropMsg m s) m (field m.body 0 1) (field m.body 2 2) = [] →
    field m.body 0 1 < 3 →
    ∃ t, exec (.fenceNotice src) s = .next t ∧ t.cmds = s.cmds ∧ t.icern.inbox = removeFirst m s.icern.inbox ∧
      peer t m.src = { peer s m.src with noticeLevel := some (field m.body 0 1), noticeMask := (peer s m.src).noticeMask ||| BitVec.ofNat 16 (field m.body 2 2), noticeCode := BitVec.ofNat 32 (field m.body 4 4) }) ∧
  (∀ (s : State) (src : Nat) (m : Msg),
    oldest s (isMsg 5 src false) = some m →
    3 ≤ field m.body 0 1 →
    ∃ t, exec (.fenceNotice src) s = .next t ∧ t.icern.inbox = removeFirst m s.icern.inbox ∧ (peer t m.src).noticeLevel = some (field m.body 0 1) ∧
      ∀ c x, cmd? s c = some x → (x.origin.any fun k => k.1 == m.src) = true → isIngest x.opcode = true → x.stage ≠ .final → x.stage ≠ .done → x.epoch = 0 → x.committing = false → cmd? t c = none) ∧
  (∀ (s : State) (src : Nat) (m : Msg) (j c : Nat) (x : Cmd),
    oldest s (isMsg 5 src false) = some m →
    j ∈ noticedJobs (dropMsg m s) m (field m.body 0 1) (field m.body 2 2) →
    c ∈ inFlight s j →
    cmd? s c = some x →
    x.job = j →
    takesPart x = true →
    x.origin = none →
    x.committing = false →
    x.stage ≠ .final →
    x.stage ≠ .done →
    ∃ t y, exec (.fenceNotice src) s = .next t ∧ cmd? t c = some y ∧ y.stage = .final ∧ y.status = .abortedPeer ∧ y.count = 0 ∧ y.fault = BitVec.ofNat 32 (field m.body 4 4)) ∧
  (∀ (s : State) (src : Nat) (m : Msg) (c : Nat) (x : Cmd),
    oldest s (isMsg 6 src false) = some m →
    partOf s m.src m.cmd = some c →
    cmd? s c = some x →
    olderRun m.run x.run = false →
    x.committing = false →
    x.epoch = 0 →
    field m.body 0 1 ≠ 0 ∨ isSearch x.opcode = false ∨ x.admitted = false →
    (field m.body 0 1 = 0 → x.parked = false) →
    ∃ t, exec (.abort src) s = .next t ∧ cmd? t c = none ∧ t.icern.aborted.head? = some (m.src, m.cmd, m.run)) ∧
  (∀ (s : State) (src : Nat) (m : Msg) (c : Nat) (x : Cmd),
    oldest s (isMsg 6 src false) = some m →
    partOf s m.src m.cmd = some c →
    cmd? s c = some x →
    olderRun m.run x.run = false →
    field m.body 0 1 = 0 →
    isSearch x.opcode = true →
    x.admitted = true →
    ∃ t y, exec (.abort src) s = .next t ∧ cmd? t c = some y ∧ y.parked = true ∧ y.admitted = false ∧ y.stage = .reading ∧ y.rows = [] ∧ y.holds = x.holds ∧ y.origin = x.origin ∧
      t.icern.aborted.head? = some (m.src, m.cmd, m.run)) ∧
  (∀ (s : State) (src : Nat) (m : Msg) (c : Nat) (x : Cmd),
    oldest s (isMsg 6 src false) = some m →
    partOf s m.src m.cmd = none →
    rootCmd s m = some c →
    cmd? s c = some x →
    x.committing = false →
    x.stage ≠ .final →
    x.stage ≠ .done →
    field m.body 0 1 ≠ 0 →
    ∃ t y, exec (.abort src) s = .next t ∧ cmd? t c = some y ∧ y.stage = .final ∧ y.status = statusOfCode (field m.body 1 1) ∧ y.count = 0) ∧
  (∀ (s : State) (src : Nat) (m : Msg) (c : Nat) (x : Cmd),
    oldest s (isMsg 6 src false) = some m →
    partOf s m.src m.cmd = none →
    rootCmd s m = some c →
    cmd? s c = some x →
    x.committing = false →
    field m.body 0 1 = 0 →
    ∃ u, exec (.abort src) s = .next (killCmd c u) ∧ u.cmds = s.cmds) ∧
  (∀ (s : State) (src : Nat) (m : Msg) (j c : Nat) (x : Cmd) (o : Nat × Nat),
    oldest s (isMsg 5 src false) = some m →
    j ∈ noticedJobs (dropMsg m s) m (field m.body 0 1) (field m.body 2 2) →
    c ∈ inFlight s j →
    cmd? s c = some x →
    x.job = j →
    takesPart x = true →
    x.admitted = true →
    x.parked = false →
    x.origin = some o →
    x.committing = false →
    x.epoch = 0 →
    x.stage ≠ .final →
    x.stage ≠ .done →
    ∃ t, exec (.fenceNotice src) s = .next t ∧
      (isIngest x.opcode = true → 3 ≤ field m.body 0 1 → o.1 = m.src → cmd? t c = none) ∧
      ((isIngest x.opcode = false ∨ (x.stage ≠ .waiting ∧ field m.body 0 1 < 3)) → ∃ y, cmd? t c = some y ∧ y.stage = .final ∧ y.status = .abortedPeer ∧ y.count = 0 ∧ y.fault = BitVec.ofNat 32 (field m.body 4 4))) ∧
  (∀ (s : State) (src : Nat) (m : Msg) (c : Nat) (x : Cmd),
    oldest s (isMsg 6 src false) = some m →
    partOf s m.src m.cmd = none →
    rootCmd s m = some c →
    cmd? s c = some x →
    x.committing = true →
    ∃ t, exec (.abort src) s = .next t ∧ t.cmds = s.cmds ∧ t.colls = s.colls ∧ t.ptns = s.ptns) ∧
  (∀ (s : State) (src : Nat) (m : Msg),
    oldest s (isMsg 6 src false) = some m →
    partOf s m.src m.cmd = none →
    rootCmd s m = none →
    ∃ t, exec (.abort src) s = .next t ∧ t.cmds = s.cmds ∧ t.colls = s.colls ∧ t.ptns = s.ptns ∧ ofAborted t m = true ∧ ∀ k ∈ t.icern.inbox, k ≠ m → k ∈ s.icern.inbox) ∧
  (∀ (s : State) (src : Nat) (m : Msg) (c : Nat) (x : Cmd),
    oldest s (isMsg 6 src false) = some m →
    partOf s m.src m.cmd = some c →
    cmd? s c = some x →
    olderRun m.run x.run = true ∨ (isSearch x.opcode = false ∧ (x.committing = true ∨ x.epoch ≠ 0)) →
    ∃ t, exec (.abort src) s = .next t ∧ t.cmds = s.cmds ∧ t.colls = s.colls ∧ t.ptns = s.ptns) ∧
  (∀ (s : State) (src : Nat),
    (oldest s (isMsg 5 src false) = none → exec (.fenceNotice src) s = .next s) ∧ (oldest s (isMsg 6 src false) = none → exec (.abort src) s = .next s) ∧
      (oldest s (isMsg 7 src false) = none → exec (.heartbeat src) s = .next s) ∧ (oldest s (isMsg 8 src false) = none → exec (.routeProbe src) s = .next s) ∧
      (oldest s (isMsg 8 src true) = none → exec (.routeProbeReply src) s = .next s)) ∧
  (∀ (s : State) (src : Nat) (m : Msg) (x : Job),
    oldest s (isMsg 8 src false) = some m →
    job? s m.job = some x →
    x.root ≠ m.src →
    answersProbe s m.job = true →
    exec (.routeProbe src) s = .next (sendMsg { type := 8, resp := true, src := s.aon.modid, dst := m.src, job := m.job, body := jobRecord s m.job ++ List.replicate 16 0 } (dropMsg m s))) ∧
  (∀ (s : State) (src : Nat) (m : Msg),
    oldest s (isMsg 8 src true) = some m →
    jobPeer s m.job m.src = false ∨ (∀ x, job? s m.job = some x → x.root ≠ s.aon.modid) →
    exec (.routeProbeReply src) s = .next (dropMsg m s)) ∧
  (∀ (s : State) (j : Nat),
    (∀ x, job? s j = some x → x.root = s.aon.modid) →
    exec (.rootRouteLoss j) s = .next s) ∧
  (∀ (s : State) (j c : Nat) (x : Job) (y : Cmd),
    job? s j = some x →
    x.root ≠ s.aon.modid →
    reachable s x.root = false →
    c ∈ cmdsOf (fun x => x.job == j && x.origin.isSome && isIngest x.opcode && x.stage != .final && x.stage != .done) s →
    cmd? s c = some y →
    y.epoch = 0 →
    y.committing = false →
    ∃ t, exec (.rootRouteLoss j) s = .next t ∧ cmd? t c = none) ∧
  (∀ (s : State) (src : Nat) (m : Msg),
    oldest s (isMsg 7 src false) = some m →
    ∃ t, exec (.heartbeat src) s = .next t ∧ t.cmds = s.cmds ∧ peer t m.src = { peer s m.src with hbSeq := BitVec.ofNat 32 (field m.body 0 4), oos := bit (field m.body 4 1) 0, fencedMask := BitVec.ofNat 16 (field m.body 6 2), noticeMask := (peer s m.src).noticeMask &&& BitVec.ofNat 16 (field m.body 6 2) }) ∧
  (∀ (s : State) (src : Nat) (m : Msg) (x : Job),
    oldest s (isMsg 8 src false) = some m →
    job? s m.job = some x →
    x.root = m.src →
    answersProbe s m.job = true →
    ∃ t, exec (.routeProbe src) s = .next t ∧ job? t m.job = some { x with joined := sameDef m.body (jobRecord s m.job) }) ∧
  (∀ (s : State) (src : Nat) (m : Msg),
    oldest s (isMsg 8 src false) = some m →
    answersProbe s m.job = false →
    exec (.routeProbe src) s = .next (dropMsg m s)) ∧
  (∀ (s : State) (src : Nat) (m : Msg) (x : Job),
    oldest s (isMsg 8 src true) = some m →
    job? s m.job = some x →
    x.root = s.aon.modid →
    jobPeer s m.job m.src = true →
    ∃ t y, exec (.routeProbeReply src) s = .next t ∧ job? t m.job = some y ∧ (sameDef m.body (jobRecord s m.job) = true → m.src ∈ y.matched ∧ y.joined = (peersOf s m.job).all y.matched.contains ∧ t.aon = s.aon) ∧
      (sameDef m.body (jobRecord s m.job) = false → m.src ∉ y.matched ∧ y.joined = false ∧ t.aon.codes.head? = some (faultCode 6 0x7C 0xF (6 * 2 ^ 12 + m.src % 64))) ∧
      (peer t m.src).noticeMask = (peer s m.src).noticeMask &&& ~~~ BitVec.ofNat 16 (maskOf (jobPtns s m.job))) ∧
  (∀ (s : State) (j : Nat) (x : Job),
    isRoot s j = true →
    job? s j = some x →
    ∃ t, exec (.routeProbeTimer j) s = .next t ∧ job? t j = some { x with probing := peersOf s j } ∧
      t = sendAll (peersOf s j) (fun d => { type := 8, src := s.aon.modid, dst := d, job := j, body := jobRecord s j ++ List.replicate 16 0 }) (updJob j (fun x => { x with probing := peersOf s j }) s)) ∧
  (∀ (s : State) (j : Nat),
    isRoot s j = false →
    exec (.routeProbeTimer j) s = .next s) ∧
  (∀ (s : State) (j p : Nat) (x : Job),
    isRoot s j = true →
    job? s j = some x →
    x.probing.contains p = true →
    ∃ t, exec (.probeTimeout j p) s = .next t ∧ job? t j = some { x with joined := false, matched := x.matched.filter (· ≠ p), lost := p :: x.lost.filter (· ≠ p) }) ∧
  (∀ (s : State) (j p : Nat),
    isRoot s j = false ∨ (∀ x, job? s j = some x → x.probing.contains p = false) →
    exec (.probeTimeout j p) s = .next s) ∧
  (∀ (s : State) (j c : Nat) (x : Job) (y : Cmd),
    job? s j = some x →
    x.root ≠ s.aon.modid →
    reachable s x.root = false →
    (cmdsOf (fun x => x.job == j && x.origin.isSome && isIngest x.opcode && x.stage != .final && x.stage != .done) s = [c]) →
    cmd? s c = some y →
    y.epoch = 0 →
    ∃ t, exec (.rootRouteLoss j) s = .next t ∧ (y.committing = false → cmd? t c = none) ∧ (y.committing = true → t = s)) ∧
  (∀ (s : State) (j : Nat) (x : Job),
    job? s j = some x →
    reachable s x.root = true →
    exec (.rootRouteLoss j) s = .next s)

/-- Refusals at the head of a ring (R119, R169, R276, R295), and waiting there (R294). -/
def Obligations.RefusedEntries : Prop :=
  (∀ (i : Instr) (r op : Nat) (chk : State → Nat → BitVec 512 → Option Refused) (s : State) (e : BitVec 512) (rest : List (BitVec 512)) (f : Refused),
    ringRow i = some (r, op, chk) →
    (ring s r).fetched = e :: rest →
    mayAdmit s r e = true →
    opOf e = op →
    chk s r e = some f →
    exec i s = .next (refuseHead r e f s)) ∧
  (∀ (i : Instr) (r op : Nat) (chk : State → Nat → BitVec 512 → Option Refused) (s : State) (e : BitVec 512) (rest : List (BitVec 512)),
    ringRow i = some (r, op, chk) →
    (ring s r).fetched = e :: rest →
    mayAdmit s r e = true →
    permitted (opOf e) = none →
    exec i s = .next (refuseHead r e { status := .invalidField } s)) ∧
  (∀ (i : Instr) (r op : Nat) (chk : State → Nat → BitVec 512 → Option Refused) (s : State) (e : BitVec 512) (rest : List (BitVec 512)),
    ringRow i = some (r, op, chk) →
    (ring s r).fetched = e :: rest →
    mayAdmit s r e = true →
    opOf e = op →
    chk s r e = none →
    neverFits s r e = true →
    exec i s = .next (refuseHead r e { status := .noResource } s)) ∧
  (∀ (i : Instr) (r op : Nat) (chk : State → Nat → BitVec 512 → Option Refused) (s u : State) (e : BitVec 512) (rest : List (BitVec 512)),
    ringRow i = some (r, op, chk) →
    (ring s r).fetched = e :: rest →
    mayAdmit s r e = true →
    opOf e = op →
    chk s r e = none →
    neverFits s r e = false →
    reserve r e s = (u, false) →
    exec i s = .next u ∧ (ring u r).fetched = e :: rest ∧ u.cmds = s.cmds ∧ u.nextCmd = s.nextCmd) ∧
  (∀ (s v : State) (r : Nat) (e : BitVec 512) (rest : List (BitVec 512)) (f : Refused),
    (ring s r).fetched = e :: rest →
    takeSlots r 1 (releaseHeld r s) = (v, true) →
    ∃ k, cmd? (refuseHead r e f s) s.nextCmd = some k ∧ k.admitted = false ∧ k.stage = .final ∧ k.status = f.status ∧ k.count = f.count ∧ k.tag = eTag e ∧
      (ring (refuseHead r e f s) r).fetched = rest) ∧
  (∀ (i : Instr) (r op : Nat) (chk : State → Nat → BitVec 512 → Option Refused) (s : State),
    ringRow i = some (r, op, chk) →
    ((ring s r).fetched.head?.all fun e => !mayAdmit s r e || (opOf e != op && (permitted (opOf e)).isSome)) = true →
    exec i s = .next s) ∧
  (∀ (s v : State) (r : Nat) (e : BitVec 512) (f : Refused),
    takeSlots r 1 (releaseHeld r s) = (v, false) →
    refuseHead r e f s = v)

/-- Checks that come before a mailbox command's own (R309, R314, R352, R363), and acceptance order (R311). -/
def Obligations.RefusedRequests : Prop :=
  (∀ (i : Instr) (m : Fin 4) (op : Nat) (s : State) (q : Req),
    mailboxRow i = some (m, op) →
    (mbx s m).req = some q →
    (mbx s m).state = 2 →
    executes s m = true →
    waitsMailbox s m q = false →
    knownOpcode q.opcode = false →
    exec i s = .next (answerMbx m q { status := .invalidField } s)) ∧
  (∀ (i : Instr) (m : Fin 4) (op : Nat) (s : State) (q : Req),
    mailboxRow i = some (m, op) →
    (mbx s m).req = some q →
    (mbx s m).state = 2 →
    executes s m = true →
    waitsMailbox s m q = false →
    knownOpcode op = true →
    q.opcode = op →
    (s.hearth.recovery && !romAccepts op) = false →
    heldBehind s q (mbx s m).order = false →
    q.rsv = true ∨ 4096 < q.len →
    exec i s = .next (answerMbx m q { status := .invalidField } s)) ∧
  (∀ (i : Instr) (m : Fin 4) (op : Nat) (s : State) (q : Req),
    mailboxRow i = some (m, op) →
    (mbx s m).req = some q →
    (mbx s m).state = 2 →
    executes s m = true →
    waitsMailbox s m q = false →
    knownOpcode op = true →
    q.opcode = op →
    (s.hearth.recovery && !romAccepts op) = false →
    heldBehind s q (mbx s m).order = false →
    q.rsv = false →
    q.len ≤ 4096 →
    outOfService s = true →
    [0, 6, 7].contains (op / 256) = false →
    exec i s = .next (answerMbx m q { status := .outOfService } s)) ∧
  (∀ (i : Instr) (m : Fin 4) (op : Nat) (s : State) (q : Req),
    mailboxRow i = some (m, op) →
    (mbx s m).req = some q →
    (mbx s m).state = 2 →
    executes s m = true →
    waitsMailbox s m q = false →
    knownOpcode op = true →
    q.opcode = op →
    (s.hearth.recovery && !romAccepts op) = false →
    heldBehind s q (mbx s m).order = false →
    q.rsv = false →
    q.len ≤ 4096 →
    outOfService s = false ∨ [0, 6, 7].contains (op / 256) = true →
    actsOnOos op = false →
    anyOos s (reqNeeds s q) = true →
    exec i s = .next (answerMbx m q { status := .outOfService } s)) ∧
  (∀ (i : Instr) (m : Fin 4) (op : Nat) (s : State) (q : Req),
    mailboxRow i = some (m, op) →
    (mbx s m).req = some q →
    (mbx s m).state = 2 →
    executes s m = true →
    waitsMailbox s m q = false →
    knownOpcode op = true →
    q.opcode = op →
    (s.hearth.recovery && !romAccepts op) = false →
    heldBehind s q (mbx s m).order = false →
    q.rsv = false →
    q.len ≤ 4096 →
    outOfService s = false ∨ [0, 6, 7].contains (op / 256) = true →
    actsOnOos op = true ∨ anyOos s (reqNeeds s q) = false →
    actsOnFenced op = false →
    anyFenced s (reqNeeds s q) = true →
    exec i s = .next (answerMbx m q { status := .fenced } s)) ∧
  (∀ (i : Instr) (m : Fin 4) (op : Nat) (s : State) (q : Req),
    mailboxRow i = some (m, op) →
    (mbx s m).req = some q →
    (mbx s m).state = 2 →
    executes s m = true →
    waitsMailbox s m q = false →
    knownOpcode op = true →
    q.opcode = op →
    (s.hearth.recovery && !romAccepts op) = false →
    heldBehind s q (mbx s m).order = true →
    (openTickets s).length < 64 →
    ∃ t w, exec i s = .next t ∧ Ticketed s t m q w ∧ t.ptns = s.ptns ∧ t.colls = s.colls ∧ t.ctxs = s.ctxs ∧ t.jobs = s.jobs) ∧
  (∀ (i : Instr) (m : Fin 4) (op : Nat) (s : State) (q : Req),
    mailboxRow i = some (m, op) →
    (mbx s m).req = some q →
    (mbx s m).state = 2 →
    executes s m = true →
    waitsMailbox s m q = false →
    knownOpcode op = true →
    q.opcode = op →
    (s.hearth.recovery && !romAccepts op) = true →
    exec i s = .next (answerMbx m q { status := .invalidField } s)) ∧
  (∀ (i : Instr) (m : Fin 4) (op : Nat) (s : State) (q : Req),
    mailboxRow i = some (m, op) →
    (mbx s m).req = some q →
    (mbx s m).state = 2 →
    executes s m = true →
    waitsMailbox s m q = false →
    knownOpcode op = true →
    q.opcode = op →
    (s.hearth.recovery && !romAccepts op) = false →
    heldBehind s q (mbx s m).order = true →
    64 ≤ (openTickets s).length →
    exec i s = .next (answerMbx m q { status := .noResource } s)) ∧
  (∀ (i : Instr) (m : Fin 4) (op : Nat) (s : State),
    mailboxRow i = some (m, op) →
    (mbx s m).state ≠ 2 ∨ executes s m = false ∨ (((mbx s m).req.all fun q => waitsMailbox s m q || (knownOpcode q.opcode && q.opcode != op)) = true) →
    exec i s = .next s)

/-- R45. θ of a full selector is the lowest score it holds; that its entries are numbers is kept by every offer (R42, R70). -/
def Obligations.FullSelector : Prop :=
  (∀ (a : Anvil) (l : Nat) (e : Entry),
    (laneEntries a l).length ≥ laneCap a l →
    (∀ x ∈ laneEntries a l, fIsNaN x.score = false) →
    fGt e.score (lowest (laneEntries a l)) = false →
    (offer l e a).sel = a.sel) ∧
  (∀ (a : Anvil) (l : Nat) (e : Entry),
    (laneEntries a l).length ≥ laneCap a l →
    (∀ x ∈ laneEntries a l, fIsNaN x.score = false) →
    fEq e.score (lowest (laneEntries a l)) = true →
    (offer l e a).sel = a.sel) ∧
  (∀ (a : Anvil) (l : Nat) (e : Entry),
    l < laneCount a.conf.toNat →
    (laneEntries a l).length ≥ laneCap a l →
    (∀ x ∈ laneEntries a l, fIsNaN x.score = false) →
    fGt e.score (lowest (laneEntries a l)) = true →
    fGt e.score (thFloor a l) = true →
    laneEntries (offer l e a) l = evict (laneEntries a l) ++ [e]) ∧
  (∀ (a : Anvil) (l : Nat) (e : Entry),
    (∀ x ∈ laneEntries a l, fIsNaN x.score = false) →
    ∀ x ∈ laneEntries (offer l e a) l, fIsNaN x.score = false)

/-- R35, on the codes that the encoding of R34 and R36 gives, whatever the row, its scaling and its norm. -/
def Obligations.GroupSums : Prop :=
  (∀ (k : Nat) (seed : W64) (d : Nat) (cos wide : Bool) (raw : List F32) (g i : Nat) (q : List Int),
    g ≤ 128 →
    q = ((encodeRow k seed d cos wide raw).codes.drop (g * i)).take g ∨ q = ((encodeRow k seed d cos wide raw).low.drop (g * i)).take g →
    sumS q = q.sum ∧ sumA q = (q.map fun x => (x.natAbs : Int)).sum ∧ ((sumS q).natAbs : Int) ≤ sumA q ∧ sumA q ≤ 16256 ∧ 2 * sumPos q = sumA q + sumS q)

/-- R46. The rounding of the low-limb rescale (R40) is covered by the 1 of each group; it is what lets a brick scan leave the low planes
unread (R47, R48). -/
def Obligations.LowPlaneBound : Prop :=
  (∀ (g : Nat) (e : Enc) (r : QRow),
    betaBound g e r false = sumI ((upto e.mult.length).map fun i => 3 * (lget e.mult i 1 : Nat) * sumPos ((r.codes.drop (g * i)).take g)) ∧
      betaBound g e r true = sumI ((upto e.mult.length).map fun i => 3 * (lget e.mult i 1 : Nat) * sumPos ((r.codes.drop (g * i)).take g) +
        (3 * (lget e.mult i 1 : Nat) * ((sumPos ((r.low.drop (g * i)).take g) + 255) / 256) + 1))) ∧
  (∀ (c : List (BitVec 4)) (q : List Int),
    dotI (c.map lowPlane) q ≤ 3 * sumPos q ∧ sumPos q ≤ sumA q) ∧
  (∀ (g : Nat) (e : Enc) (r : QRow) (two refine : Bool),
    totalT g e r two true refine ≤ totalT g e r two false refine + betaBound g e r two)

/-- R87. -/
def Obligations.Epochs : Prop :=
  (∀ (s : State) (m : Fin 4) (q : Req),
    served m 0x0201 q s = true →
    collCreateBad s q = false →
    hasSparse (reqColl q) = false →
    ∃ t, exec (.collCreate m) s = .next t ∧ (coll t (qf q 0 2)).latest = 1) ∧
  (∀ (s u : State) (m : Fin 4) (q : Req),
    served m 0x0201 q s = true →
    collCreateBad s q = false →
    hasSparse (reqColl q) = true →
    ((jobPtns s (reqColl q).job).foldl (fun o p => o.bind (takePostings (qf q 0 2) p)) (some (demandAll (jobPtns s (reqColl q).job) { s with colls := tset s.colls (qf q 0 2) { reqColl q with ptns := (jobPtns s (reqColl q).job).map fun p => (p, {}) } })) = some u) →
    ∃ t, exec (.collCreate m) s = .next t ∧ (coll t (qf q 0 2)).latest = 1) ∧
  (∀ (e : Epoch),
    e ≠ 0 →
    e ≠ 0xFFFFFFFF →
    succEpoch e = e + 1) ∧
  (succEpoch 0xFFFFFFFF = 1) ∧
  (∀ (x : Coll),
    openEpoch x = succEpoch x.latest ∧ openEpoch x ≠ 0) ∧
  (∀ (a b : Epoch),
    a ≠ 0 →
    b ≠ 0 →
    (precedes a b = true ↔ ∃ n, 1 ≤ n ∧ n ≤ 2 ^ 31 - 1 ∧ Nat.repeat succEpoch n a = b) ∧ (epochLe a b = true ↔ a = b ∨ precedes a b = true))

/-- R425; a record is kept under 64 p + 2 c + pc. -/
def Obligations.AssayResponse : Prop :=
  (∀ (rs : List (Nat × AssayRec)),
    (assayResponse rs).length = 112 ∧ leNat ((assayResponse rs).take 8) = (rs.map fun r => r.2.words).sum % 2 ^ 64 ∧
      leNat (((assayResponse rs).drop 8).take 8) = (rs.map fun r => r.2.bad.length).sum % 2 ^ 64) ∧
  (∀ (rs : List (Nat × AssayRec)) (p : Fin 12) (c : Fin 32) (h : Fin 2),
    bit (leNat (((assayResponse rs).drop (16 + 8 * p)).take 8)) (2 * c + h) = true ↔ ∃ r ∈ rs, r.1 = assayKey p c h ∧ r.2.bad ≠ []) ∧
  (∀ (s : State) (m : Fin 4) (q : Req) (bad : List BadWord),
    served m 0x0801 q s = true →
    (openTickets s).length < 64 →
    assayBad s q = false →
    ∃ t, exec (.assayRun m bad) s = .next t ∧ Ticketed s t m q (.test (maskPtns q 0) (coldOnes s (maskPtns q 0)) (assayResponse (assayRecs s q bad)))) ∧
  (∀ (s : State) (n : Nat) (k : Ticket) (ps cold : List Nat) (rs : List (Nat × AssayRec)),
    tget s.hearth.tickets n = some k →
    k.rsp = none →
    hearthRuns s = true →
    k.work = .test ps cold (assayResponse rs) →
    (∀ p ∈ ps, (ptn s p).power = .forge) →
    ∃ t, exec (.busyComplete n) s = .next t ∧ tget t.hearth.tickets n = some { k with rsp := some { status := .ok, bytes := assayResponse rs, ticket := 0, detail := 0 } })
end

