-- ==== Sys2Proof/Laws/Table.lean ====
section
/-! SUPPORT. What a write to a table or to a byte memory does to every later read of it; the canonical form of a byte memory is kept. -/

namespace Sys2Proof.Machine

/-! ### Tables -/

@[simp] theorem tget_tset_same {α : Type} (t : Tbl α) (k : Nat) (a : α) : tget (tset t k a) k = some a := by
  induction t with
  | nil => simp [tset, tget]
  | cons x t ih =>
    obtain ⟨n, b⟩ := x
    by_cases h : k < n
    · simp [tset, tget, h]
    · by_cases e : n = k
      · simp [tset, tget, e]
      · simp [tset, tget, h, e, ih]

@[simp] theorem tget_tset_other {α : Type} (t : Tbl α) {k j : Nat} (a : α) (hj : j ≠ k) : tget (tset t k a) j = tget t j := by
  induction t with
  | nil => simp [tset, tget, Ne.symm hj]
  | cons x t ih =>
    obtain ⟨n, b⟩ := x
    by_cases h : k < n
    · simp [tset, tget, h, Ne.symm hj]
    · by_cases e : n = k
      · subst e; simp [tset, tget, Ne.symm hj]
      · rw [tset, if_neg h, if_neg e]
        by_cases g : n = j <;> simp [tget, g, ih]

@[simp] theorem tgetD_tset_same {α : Type} (t : Tbl α) (k : Nat) (a d : α) : tgetD (tset t k a) k d = a := by simp [tgetD]
@[simp] theorem tgetD_tset_other {α : Type} (t : Tbl α) {k j : Nat} (a d : α) (hj : j ≠ k) : tgetD (tset t k a) j d = tgetD t j d := by
  simp [tgetD, hj]

@[simp] theorem tget_tdel_same {α : Type} (t : Tbl α) (k : Nat) : tget (tdel t k) k = none := by
  induction t with
  | nil => rfl
  | cons x t ih => obtain ⟨n, b⟩ := x; by_cases e : n = k <;> simp [tdel, tget, e, ih]

@[simp] theorem tget_tdel_other {α : Type} (t : Tbl α) {k j : Nat} (hj : j ≠ k) : tget (tdel t k) j = tget t j := by
  induction t with
  | nil => rfl
  | cons x t ih =>
    obtain ⟨n, b⟩ := x
    by_cases e : n = k
    · subst e; simp [tdel, tget, Ne.symm hj, ih]
    · rw [tdel, if_neg e]
      by_cases g : n = j <;> simp [tget, g, ih]

theorem tget_tmap {α : Type} (f : Nat → α → α) (t : Tbl α) (k : Nat) : tget (tmap f t) k = (tget t k).map (f k) := by
  induction t with
  | nil => rfl
  | cons x t ih =>
    obtain ⟨n, b⟩ := x
    by_cases e : n = k
    · subst e; simp [tmap, tget]
    · simpa [tmap, tget, e] using ih

/-! ### Byte memories -/

namespace Memory

theorem wfFrom_mono {lo hi : Nat} {m : List Host.Cell} (h : lo ≤ hi) (w : wfFrom hi m = true) : wfFrom lo m = true := by
  cases m with
  | nil => rfl
  | cons x t => obtain ⟨a, b⟩ := x; simp [wfFrom] at w ⊢; exact ⟨⟨by omega, w.1.2⟩, w.2⟩

theorem wfFrom_filter_ge {lo n : Nat} {m : List Host.Cell} (w : wfFrom lo m = true) :
    wfFrom (max lo n) (m.filter fun c => decide (n ≤ c.1)) = true := by
  induction m generalizing lo with
  | nil => rfl
  | cons x t ih =>
    obtain ⟨a, b⟩ := x
    simp [wfFrom] at w
    by_cases h : n ≤ a
    · simp [h, wfFrom, w.1.2]
      refine ⟨by omega, ?_⟩
      exact wfFrom_mono (by omega) (ih w.2)
    · simp [h]
      exact wfFrom_mono (by omega) (ih w.2)

/-- Cells below k, then cells from k on: canonical where both parts are. -/
theorem wfFrom_append {lo k : Nat} {l r : List Host.Cell} (wl : wfFrom lo l = true) (hl : ∀ c ∈ l, c.1 < k)
    (wr : wfFrom k r = true) (h : lo ≤ k) : wfFrom lo (l ++ r) = true := by
  induction l generalizing lo with
  | nil => exact wfFrom_mono h wr
  | cons x t ih =>
    obtain ⟨a, b⟩ := x
    simp [wfFrom] at wl ⊢
    have ha : a < k := hl (a, b) (by simp)
    exact ⟨wl.1, ih wl.2 (fun c hc => hl c (by simp [hc])) (by omega)⟩

theorem wfFrom_filter_lt {lo n : Nat} {m : List Host.Cell} (w : wfFrom lo m = true) :
    wfFrom lo (m.filter fun c => decide (c.1 < n)) = true := by
  induction m generalizing lo with
  | nil => rfl
  | cons x t ih =>
    obtain ⟨a, b⟩ := x
    simp [wfFrom] at w
    by_cases h : a < n
    · simp [h, wfFrom, w.1]; exact ih w.2
    · simp [h]; exact wfFrom_mono (by omega) (ih w.2)

theorem cellsFrom_ge {k : Nat} {bs : List Byte} : ∀ c ∈ cellsFrom k bs, k ≤ c.1 ∧ c.1 < k + bs.length := by
  induction bs generalizing k with
  | nil => simp [cellsFrom]
  | cons b t ih =>
    intro c hc
    by_cases h : b = 0#8
    · simp [cellsFrom, h] at hc; have := ih c hc; simp; omega
    · rw [cellsFrom, if_neg (show ¬ b = 0 from h)] at hc
      rcases List.mem_cons.mp hc with rfl | hc
      · simp
      · have := ih c hc; simp; omega

theorem cellsFrom_wf (k : Nat) (bs : List Byte) : wfFrom k (cellsFrom k bs) = true := by
  induction bs generalizing k with
  | nil => rfl
  | cons b t ih =>
    by_cases h : b = 0#8
    · simp [cellsFrom, h]; exact wfFrom_mono (by omega) (ih (k + 1))
    · simp [cellsFrom, h, wfFrom]; exact ih (k + 1)

/-- A byte string written keeps the canonical form. -/
theorem mwriteAll_wf {m : List Host.Cell} (k : Nat) (bs : List Byte) (w : wf m = true) : wf (mwriteAll m k bs) = true := by
  unfold wf mwriteAll at *
  rw [List.append_assoc]
  refine wfFrom_append (k := k) (wfFrom_filter_lt w) (by simp) ?_ (Nat.zero_le _)
  refine wfFrom_append (k := k + bs.length) (cellsFrom_wf k bs) (fun c hc => (cellsFrom_ge c hc).2) ?_ (Nat.le_add_right _ _)
  have := wfFrom_filter_ge (n := k + bs.length) w
  simpa using this

/-- A byte written keeps the canonical form. -/
theorem mwrite_wfFrom {lo k : Nat} {m : List Host.Cell} (b : Byte) (h : lo ≤ k) (w : wfFrom lo m = true) : wfFrom lo (mwrite m k b) = true := by
  induction m generalizing lo with
  | nil => by_cases e : b = 0#8 <;> simp [mwrite, e, wfFrom, h]
  | cons x t ih =>
    obtain ⟨a, c⟩ := x
    simp [wfFrom] at w
    by_cases l : k < a
    · by_cases e : b = 0#8
      · simp [mwrite, l, e, wfFrom, w]
      · simp [mwrite, l, e, wfFrom, w, h]
    · by_cases g : a = k
      · subst g
        by_cases e : b = 0#8
        · simp [mwrite, e]; exact wfFrom_mono (by omega) w.2
        · simp [mwrite, e, wfFrom, h, w.2]
      · simp [mwrite, l, g, wfFrom, w.1]; exact ih (by omega) w.2

theorem mwrite_wf {m : List Host.Cell} (k : Nat) (b : Byte) (w : wf m = true) : wf (mwrite m k b) = true :=
  mwrite_wfFrom b (Nat.zero_le _) w

/-- Cells of a canonical memory dropped by a test on the address leave it canonical. -/
theorem filter_wf {m : List Host.Cell} (f : Host.Cell → Bool) (w : wf m = true) : wf (m.filter f) = true := by
  suffices h : ∀ lo, wfFrom lo m = true → wfFrom lo (m.filter f) = true from h 0 w
  intro lo
  clear w
  induction m generalizing lo with
  | nil => intro _; rfl
  | cons x t ih =>
    obtain ⟨a, b⟩ := x
    intro w
    simp [wfFrom] at w
    by_cases e : f (a, b) = true
    · simp [e, wfFrom, w.1]; exact ih _ w.2
    · simp [e]; exact wfFrom_mono (by omega) (ih _ w.2)

theorem mread_below {lo k : Nat} {m : List Host.Cell} (w : wfFrom lo m = true) (h : k < lo) : mread m k = 0 := by
  induction m generalizing lo with
  | nil => rfl
  | cons x t ih =>
    obtain ⟨a, b⟩ := x
    simp [wfFrom] at w
    have : a ≠ k := by omega
    simp [mread, this]; exact ih w.2 (by omega)

/-- A read after a write of a byte. -/
theorem mread_mwrite_from {lo k j : Nat} {m : List Host.Cell} (b : Byte) (w : wfFrom lo m = true) :
    mread (mwrite m k b) j = if j = k then b else mread m j := by
  induction m generalizing lo with
  | nil => by_cases e : b = 0#8 <;> by_cases g : j = k <;> simp [mwrite, mread, e, g, eq_comm (a := k)]
  | cons x t ih =>
    obtain ⟨a, c⟩ := x
    simp [wfFrom] at w
    by_cases l : k < a
    · by_cases e : b = 0#8
      · by_cases g : j = k
        · subst g
          have : a ≠ j := by omega
          simp [mwrite, l, e, mread, this]; exact mread_below w.2 (by omega)
        · simp [mwrite, l, e, g]
      · by_cases g : j = k
        · subst g; simp [mwrite, l, e, mread]
        · simp [mwrite, l, e, mread, g, Ne.symm g]
    · by_cases g : a = k
      · subst g
        by_cases q : j = a
        · subst q
          by_cases e : b = 0#8
          · simp [mwrite, e]; exact mread_below w.2 (by omega)
          · simp [mwrite, e, mread]
        · by_cases e : b = 0#8 <;> simp [mwrite, e, mread, q, Ne.symm q]
      · by_cases q : a = j
        · subst q; simp [mwrite, l, g, mread]
        · simp [mwrite, l, g, mread, q]; exact ih w.2

theorem mread_mwrite {k j : Nat} {m : List Host.Cell} (b : Byte) (w : wf m = true) :
    mread (mwrite m k b) j = if j = k then b else mread m j := mread_mwrite_from b w

/-- A read of cells before or after a split at address k. -/
theorem mread_append {k j : Nat} {l r : List Host.Cell} (hl : ∀ c ∈ l, c.1 < k) (hr : ∀ c ∈ r, k ≤ c.1) :
    mread (l ++ r) j = if j < k then mread l j else mread r j := by
  induction l with
  | nil =>
    by_cases h : j < k
    · simp [h, mread]
      induction r with
      | nil => rfl
      | cons x t ih =>
        obtain ⟨a, b⟩ := x
        have := hr (a, b) (by simp)
        have n : a ≠ j := by simp at this; omega
        simp [mread, n]; exact ih (fun c hc => hr c (by simp [hc]))
    · simp [h]
  | cons x t ih =>
    obtain ⟨a, b⟩ := x
    have ha : a < k := hl (a, b) (by simp)
    by_cases q : a = j
    · subst q; simp [mread, ha]
    · simp [mread, q]; exact ih (fun c hc => hl c (by simp [hc]))

theorem mread_filter {m : List Host.Cell} (f : Nat → Bool) (j : Nat) :
    mread (m.filter fun c => f c.1) j = if f j then mread m j else 0 := by
  induction m with
  | nil => simp [mread]
  | cons x t ih =>
    obtain ⟨a, b⟩ := x
    by_cases e : f a = true
    · by_cases q : a = j
      · subst q; simp [e, mread]
      · simp [e, mread, q]; simpa using ih
    · by_cases q : a = j
      · subst q; simp [e]; simpa [e] using ih
      · simp [e, mread, q]; simpa using ih

theorem mread_cells (k j : Nat) (bs : List Byte) : mread (cellsFrom k bs) j = if k ≤ j then bs.getD (j - k) 0 else 0 := by
  induction bs generalizing k with
  | nil => simp [cellsFrom, mread]
  | cons b t ih =>
    by_cases q : k = j
    · subst q
      by_cases e : b = 0#8
      · simp [cellsFrom, e]; rw [ih, if_neg (by omega)]; rfl
      · simp [cellsFrom, e, mread]
    · by_cases e : b = 0#8
      · simp [cellsFrom, e]; rw [ih]
        by_cases h : k ≤ j
        · have : j - k = (j - (k + 1)) + 1 := by omega
          have g : k + 1 ≤ j := by omega
          simp [h, g, this]
        · have g : ¬ k + 1 ≤ j := by omega
          simp [h, g]
      · simp [cellsFrom, e, mread, q]; rw [ih]
        by_cases h : k ≤ j
        · have : j - k = (j - (k + 1)) + 1 := by omega
          have g : k + 1 ≤ j := by omega
          simp [h, g, this]
        · have g : ¬ k + 1 ≤ j := by omega
          simp [h, g]

/-- A read after a byte string is written: the bytes written where it lies in them, what was there elsewhere. -/
theorem mread_mwriteAll (m : List Host.Cell) (k j : Nat) (bs : List Byte) :
    mread (mwriteAll m k bs) j = if k ≤ j ∧ j < k + bs.length then bs.getD (j - k) 0 else mread m j := by
  unfold mwriteAll
  rw [List.append_assoc, mread_append (k := k) (by simp)
    (by intro c hc; simp at hc; rcases hc with h | h
        · exact (cellsFrom_ge c h).1
        · omega),
    mread_append (k := k + bs.length) (fun c hc => (cellsFrom_ge c hc).2) (by simp),
    mread_filter (fun a => decide (a < k)), mread_filter (fun a => decide (k + bs.length ≤ a)), mread_cells]
  by_cases h : j < k
  · simp [h, show ¬ k ≤ j by omega]
  · by_cases g : j < k + bs.length
    · simp [h, g, show k ≤ j by omega]
    · simp [h, g, show k + bs.length ≤ j by omega]

end Memory

end Sys2Proof.Machine
end

