-- ==== Sys2Proof/Laws/State.lean ====
section
/-! SUPPORT. What each update of a part of the state leaves of every field: one lemma per field per update; what it writes, read back. -/

namespace Sys2Proof.Machine

/-! ### updPtn -/

@[simp] theorem updPtn_pending (p : Nat) (f : Ptn → Ptn) (s : State) : (updPtn p f s).pending = s.pending := rfl
@[simp] theorem updPtn_aon (p : Nat) (f : Ptn → Ptn) (s : State) : (updPtn p f s).aon = s.aon := rfl
@[simp] theorem updPtn_pins (p : Nat) (f : Ptn → Ptn) (s : State) : (updPtn p f s).pins = s.pins := rfl
@[simp] theorem updPtn_host (p : Nat) (f : Ptn → Ptn) (s : State) : (updPtn p f s).host = s.host := rfl
@[simp] theorem updPtn_jobs (p : Nat) (f : Ptn → Ptn) (s : State) : (updPtn p f s).jobs = s.jobs := rfl
@[simp] theorem updPtn_ctxs (p : Nat) (f : Ptn → Ptn) (s : State) : (updPtn p f s).ctxs = s.ctxs := rfl
@[simp] theorem updPtn_colls (p : Nat) (f : Ptn → Ptn) (s : State) : (updPtn p f s).colls = s.colls := rfl
@[simp] theorem updPtn_cmds (p : Nat) (f : Ptn → Ptn) (s : State) : (updPtn p f s).cmds = s.cmds := rfl
@[simp] theorem updPtn_nextCmd (p : Nat) (f : Ptn → Ptn) (s : State) : (updPtn p f s).nextCmd = s.nextCmd := rfl
@[simp] theorem updPtn_hearth (p : Nat) (f : Ptn → Ptn) (s : State) : (updPtn p f s).hearth = s.hearth := rfl
@[simp] theorem updPtn_hearthUp (p : Nat) (f : Ptn → Ptn) (s : State) : (updPtn p f s).hearthUp = s.hearthUp := rfl
@[simp] theorem updPtn_faults (p : Nat) (f : Ptn → Ptn) (s : State) : (updPtn p f s).faults = s.faults := rfl
@[simp] theorem updPtn_levels (p : Nat) (f : Ptn → Ptn) (s : State) : (updPtn p f s).levels = s.levels := rfl
@[simp] theorem updPtn_seamTok (p : Nat) (f : Ptn → Ptn) (s : State) : (updPtn p f s).seamTok = s.seamTok := rfl
@[simp] theorem updPtn_icern (p : Nat) (f : Ptn → Ptn) (s : State) : (updPtn p f s).icern = s.icern := rfl
@[simp] theorem updPtn_power (p : Nat) (f : Ptn → Ptn) (s : State) : (updPtn p f s).power = s.power := rfl
@[simp] theorem updPtn_jtag (p : Nat) (f : Ptn → Ptn) (s : State) : (updPtn p f s).jtag = s.jtag := rfl
@[simp] theorem updPtn_hbm (p : Nat) (f : Ptn → Ptn) (s : State) : (updPtn p f s).hbm = s.hbm := rfl
@[simp] theorem updPtn_poison (p : Nat) (f : Ptn → Ptn) (s : State) : (updPtn p f s).poison = s.poison := rfl
@[simp] theorem updPtn_free (p : Nat) (f : Ptn → Ptn) (s : State) : (updPtn p f s).free = s.free := rfl

/-! ### updHost -/

@[simp] theorem updHost_pending (f : HostIf → HostIf) (s : State) : (updHost f s).pending = s.pending := rfl
@[simp] theorem updHost_aon (f : HostIf → HostIf) (s : State) : (updHost f s).aon = s.aon := rfl
@[simp] theorem updHost_pins (f : HostIf → HostIf) (s : State) : (updHost f s).pins = s.pins := rfl
@[simp] theorem updHost_ptns (f : HostIf → HostIf) (s : State) : (updHost f s).ptns = s.ptns := rfl
@[simp] theorem updHost_jobs (f : HostIf → HostIf) (s : State) : (updHost f s).jobs = s.jobs := rfl
@[simp] theorem updHost_ctxs (f : HostIf → HostIf) (s : State) : (updHost f s).ctxs = s.ctxs := rfl
@[simp] theorem updHost_colls (f : HostIf → HostIf) (s : State) : (updHost f s).colls = s.colls := rfl
@[simp] theorem updHost_cmds (f : HostIf → HostIf) (s : State) : (updHost f s).cmds = s.cmds := rfl
@[simp] theorem updHost_nextCmd (f : HostIf → HostIf) (s : State) : (updHost f s).nextCmd = s.nextCmd := rfl
@[simp] theorem updHost_hearth (f : HostIf → HostIf) (s : State) : (updHost f s).hearth = s.hearth := rfl
@[simp] theorem updHost_hearthUp (f : HostIf → HostIf) (s : State) : (updHost f s).hearthUp = s.hearthUp := rfl
@[simp] theorem updHost_faults (f : HostIf → HostIf) (s : State) : (updHost f s).faults = s.faults := rfl
@[simp] theorem updHost_levels (f : HostIf → HostIf) (s : State) : (updHost f s).levels = s.levels := rfl
@[simp] theorem updHost_seamTok (f : HostIf → HostIf) (s : State) : (updHost f s).seamTok = s.seamTok := rfl
@[simp] theorem updHost_icern (f : HostIf → HostIf) (s : State) : (updHost f s).icern = s.icern := rfl
@[simp] theorem updHost_power (f : HostIf → HostIf) (s : State) : (updHost f s).power = s.power := rfl
@[simp] theorem updHost_jtag (f : HostIf → HostIf) (s : State) : (updHost f s).jtag = s.jtag := rfl
@[simp] theorem updHost_hbm (f : HostIf → HostIf) (s : State) : (updHost f s).hbm = s.hbm := rfl
@[simp] theorem updHost_poison (f : HostIf → HostIf) (s : State) : (updHost f s).poison = s.poison := rfl
@[simp] theorem updHost_free (f : HostIf → HostIf) (s : State) : (updHost f s).free = s.free := rfl

/-! ### setRing -/

@[simp] theorem setRing_pending (r : Nat) (x : Ring) (s : State) : (setRing r x s).pending = s.pending := rfl
@[simp] theorem setRing_aon (r : Nat) (x : Ring) (s : State) : (setRing r x s).aon = s.aon := rfl
@[simp] theorem setRing_pins (r : Nat) (x : Ring) (s : State) : (setRing r x s).pins = s.pins := rfl
@[simp] theorem setRing_ptns (r : Nat) (x : Ring) (s : State) : (setRing r x s).ptns = s.ptns := rfl
@[simp] theorem setRing_jobs (r : Nat) (x : Ring) (s : State) : (setRing r x s).jobs = s.jobs := rfl
@[simp] theorem setRing_ctxs (r : Nat) (x : Ring) (s : State) : (setRing r x s).ctxs = s.ctxs := rfl
@[simp] theorem setRing_colls (r : Nat) (x : Ring) (s : State) : (setRing r x s).colls = s.colls := rfl
@[simp] theorem setRing_cmds (r : Nat) (x : Ring) (s : State) : (setRing r x s).cmds = s.cmds := rfl
@[simp] theorem setRing_nextCmd (r : Nat) (x : Ring) (s : State) : (setRing r x s).nextCmd = s.nextCmd := rfl
@[simp] theorem setRing_hearth (r : Nat) (x : Ring) (s : State) : (setRing r x s).hearth = s.hearth := rfl
@[simp] theorem setRing_hearthUp (r : Nat) (x : Ring) (s : State) : (setRing r x s).hearthUp = s.hearthUp := rfl
@[simp] theorem setRing_faults (r : Nat) (x : Ring) (s : State) : (setRing r x s).faults = s.faults := rfl
@[simp] theorem setRing_levels (r : Nat) (x : Ring) (s : State) : (setRing r x s).levels = s.levels := rfl
@[simp] theorem setRing_seamTok (r : Nat) (x : Ring) (s : State) : (setRing r x s).seamTok = s.seamTok := rfl
@[simp] theorem setRing_icern (r : Nat) (x : Ring) (s : State) : (setRing r x s).icern = s.icern := rfl
@[simp] theorem setRing_power (r : Nat) (x : Ring) (s : State) : (setRing r x s).power = s.power := rfl
@[simp] theorem setRing_jtag (r : Nat) (x : Ring) (s : State) : (setRing r x s).jtag = s.jtag := rfl
@[simp] theorem setRing_hbm (r : Nat) (x : Ring) (s : State) : (setRing r x s).hbm = s.hbm := rfl
@[simp] theorem setRing_poison (r : Nat) (x : Ring) (s : State) : (setRing r x s).poison = s.poison := rfl
@[simp] theorem setRing_free (r : Nat) (x : Ring) (s : State) : (setRing r x s).free = s.free := rfl

/-! ### updRing -/

@[simp] theorem updRing_pending (r : Nat) (f : Ring → Ring) (s : State) : (updRing r f s).pending = s.pending := rfl
@[simp] theorem updRing_aon (r : Nat) (f : Ring → Ring) (s : State) : (updRing r f s).aon = s.aon := rfl
@[simp] theorem updRing_pins (r : Nat) (f : Ring → Ring) (s : State) : (updRing r f s).pins = s.pins := rfl
@[simp] theorem updRing_ptns (r : Nat) (f : Ring → Ring) (s : State) : (updRing r f s).ptns = s.ptns := rfl
@[simp] theorem updRing_jobs (r : Nat) (f : Ring → Ring) (s : State) : (updRing r f s).jobs = s.jobs := rfl
@[simp] theorem updRing_ctxs (r : Nat) (f : Ring → Ring) (s : State) : (updRing r f s).ctxs = s.ctxs := rfl
@[simp] theorem updRing_colls (r : Nat) (f : Ring → Ring) (s : State) : (updRing r f s).colls = s.colls := rfl
@[simp] theorem updRing_cmds (r : Nat) (f : Ring → Ring) (s : State) : (updRing r f s).cmds = s.cmds := rfl
@[simp] theorem updRing_nextCmd (r : Nat) (f : Ring → Ring) (s : State) : (updRing r f s).nextCmd = s.nextCmd := rfl
@[simp] theorem updRing_hearth (r : Nat) (f : Ring → Ring) (s : State) : (updRing r f s).hearth = s.hearth := rfl
@[simp] theorem updRing_hearthUp (r : Nat) (f : Ring → Ring) (s : State) : (updRing r f s).hearthUp = s.hearthUp := rfl
@[simp] theorem updRing_faults (r : Nat) (f : Ring → Ring) (s : State) : (updRing r f s).faults = s.faults := rfl
@[simp] theorem updRing_levels (r : Nat) (f : Ring → Ring) (s : State) : (updRing r f s).levels = s.levels := rfl
@[simp] theorem updRing_seamTok (r : Nat) (f : Ring → Ring) (s : State) : (updRing r f s).seamTok = s.seamTok := rfl
@[simp] theorem updRing_icern (r : Nat) (f : Ring → Ring) (s : State) : (updRing r f s).icern = s.icern := rfl
@[simp] theorem updRing_power (r : Nat) (f : Ring → Ring) (s : State) : (updRing r f s).power = s.power := rfl
@[simp] theorem updRing_jtag (r : Nat) (f : Ring → Ring) (s : State) : (updRing r f s).jtag = s.jtag := rfl
@[simp] theorem updRing_hbm (r : Nat) (f : Ring → Ring) (s : State) : (updRing r f s).hbm = s.hbm := rfl
@[simp] theorem updRing_poison (r : Nat) (f : Ring → Ring) (s : State) : (updRing r f s).poison = s.poison := rfl
@[simp] theorem updRing_free (r : Nat) (f : Ring → Ring) (s : State) : (updRing r f s).free = s.free := rfl

/-! ### updLink -/

@[simp] theorem updLink_pending (f : Link → Link) (s : State) : (updLink f s).pending = s.pending := rfl
@[simp] theorem updLink_aon (f : Link → Link) (s : State) : (updLink f s).aon = s.aon := rfl
@[simp] theorem updLink_pins (f : Link → Link) (s : State) : (updLink f s).pins = s.pins := rfl
@[simp] theorem updLink_ptns (f : Link → Link) (s : State) : (updLink f s).ptns = s.ptns := rfl
@[simp] theorem updLink_jobs (f : Link → Link) (s : State) : (updLink f s).jobs = s.jobs := rfl
@[simp] theorem updLink_ctxs (f : Link → Link) (s : State) : (updLink f s).ctxs = s.ctxs := rfl
@[simp] theorem updLink_colls (f : Link → Link) (s : State) : (updLink f s).colls = s.colls := rfl
@[simp] theorem updLink_cmds (f : Link → Link) (s : State) : (updLink f s).cmds = s.cmds := rfl
@[simp] theorem updLink_nextCmd (f : Link → Link) (s : State) : (updLink f s).nextCmd = s.nextCmd := rfl
@[simp] theorem updLink_hearth (f : Link → Link) (s : State) : (updLink f s).hearth = s.hearth := rfl
@[simp] theorem updLink_hearthUp (f : Link → Link) (s : State) : (updLink f s).hearthUp = s.hearthUp := rfl
@[simp] theorem updLink_faults (f : Link → Link) (s : State) : (updLink f s).faults = s.faults := rfl
@[simp] theorem updLink_levels (f : Link → Link) (s : State) : (updLink f s).levels = s.levels := rfl
@[simp] theorem updLink_seamTok (f : Link → Link) (s : State) : (updLink f s).seamTok = s.seamTok := rfl
@[simp] theorem updLink_icern (f : Link → Link) (s : State) : (updLink f s).icern = s.icern := rfl
@[simp] theorem updLink_power (f : Link → Link) (s : State) : (updLink f s).power = s.power := rfl
@[simp] theorem updLink_jtag (f : Link → Link) (s : State) : (updLink f s).jtag = s.jtag := rfl
@[simp] theorem updLink_hbm (f : Link → Link) (s : State) : (updLink f s).hbm = s.hbm := rfl
@[simp] theorem updLink_poison (f : Link → Link) (s : State) : (updLink f s).poison = s.poison := rfl
@[simp] theorem updLink_free (f : Link → Link) (s : State) : (updLink f s).free = s.free := rfl

/-! ### updVec -/

@[simp] theorem updVec_pending (v : Nat) (f : Vec → Vec) (s : State) : (updVec v f s).pending = s.pending := rfl
@[simp] theorem updVec_aon (v : Nat) (f : Vec → Vec) (s : State) : (updVec v f s).aon = s.aon := rfl
@[simp] theorem updVec_pins (v : Nat) (f : Vec → Vec) (s : State) : (updVec v f s).pins = s.pins := rfl
@[simp] theorem updVec_ptns (v : Nat) (f : Vec → Vec) (s : State) : (updVec v f s).ptns = s.ptns := rfl
@[simp] theorem updVec_jobs (v : Nat) (f : Vec → Vec) (s : State) : (updVec v f s).jobs = s.jobs := rfl
@[simp] theorem updVec_ctxs (v : Nat) (f : Vec → Vec) (s : State) : (updVec v f s).ctxs = s.ctxs := rfl
@[simp] theorem updVec_colls (v : Nat) (f : Vec → Vec) (s : State) : (updVec v f s).colls = s.colls := rfl
@[simp] theorem updVec_cmds (v : Nat) (f : Vec → Vec) (s : State) : (updVec v f s).cmds = s.cmds := rfl
@[simp] theorem updVec_nextCmd (v : Nat) (f : Vec → Vec) (s : State) : (updVec v f s).nextCmd = s.nextCmd := rfl
@[simp] theorem updVec_hearth (v : Nat) (f : Vec → Vec) (s : State) : (updVec v f s).hearth = s.hearth := rfl
@[simp] theorem updVec_hearthUp (v : Nat) (f : Vec → Vec) (s : State) : (updVec v f s).hearthUp = s.hearthUp := rfl
@[simp] theorem updVec_faults (v : Nat) (f : Vec → Vec) (s : State) : (updVec v f s).faults = s.faults := rfl
@[simp] theorem updVec_levels (v : Nat) (f : Vec → Vec) (s : State) : (updVec v f s).levels = s.levels := rfl
@[simp] theorem updVec_seamTok (v : Nat) (f : Vec → Vec) (s : State) : (updVec v f s).seamTok = s.seamTok := rfl
@[simp] theorem updVec_icern (v : Nat) (f : Vec → Vec) (s : State) : (updVec v f s).icern = s.icern := rfl
@[simp] theorem updVec_power (v : Nat) (f : Vec → Vec) (s : State) : (updVec v f s).power = s.power := rfl
@[simp] theorem updVec_jtag (v : Nat) (f : Vec → Vec) (s : State) : (updVec v f s).jtag = s.jtag := rfl
@[simp] theorem updVec_hbm (v : Nat) (f : Vec → Vec) (s : State) : (updVec v f s).hbm = s.hbm := rfl
@[simp] theorem updVec_poison (v : Nat) (f : Vec → Vec) (s : State) : (updVec v f s).poison = s.poison := rfl
@[simp] theorem updVec_free (v : Nat) (f : Vec → Vec) (s : State) : (updVec v f s).free = s.free := rfl

/-! ### setCmd -/

@[simp] theorem setCmd_pending (c : Nat) (x : Cmd) (s : State) : (setCmd c x s).pending = s.pending := rfl
@[simp] theorem setCmd_aon (c : Nat) (x : Cmd) (s : State) : (setCmd c x s).aon = s.aon := rfl
@[simp] theorem setCmd_pins (c : Nat) (x : Cmd) (s : State) : (setCmd c x s).pins = s.pins := rfl
@[simp] theorem setCmd_host (c : Nat) (x : Cmd) (s : State) : (setCmd c x s).host = s.host := rfl
@[simp] theorem setCmd_ptns (c : Nat) (x : Cmd) (s : State) : (setCmd c x s).ptns = s.ptns := rfl
@[simp] theorem setCmd_jobs (c : Nat) (x : Cmd) (s : State) : (setCmd c x s).jobs = s.jobs := rfl
@[simp] theorem setCmd_ctxs (c : Nat) (x : Cmd) (s : State) : (setCmd c x s).ctxs = s.ctxs := rfl
@[simp] theorem setCmd_colls (c : Nat) (x : Cmd) (s : State) : (setCmd c x s).colls = s.colls := rfl
@[simp] theorem setCmd_nextCmd (c : Nat) (x : Cmd) (s : State) : (setCmd c x s).nextCmd = s.nextCmd := rfl
@[simp] theorem setCmd_hearth (c : Nat) (x : Cmd) (s : State) : (setCmd c x s).hearth = s.hearth := rfl
@[simp] theorem setCmd_hearthUp (c : Nat) (x : Cmd) (s : State) : (setCmd c x s).hearthUp = s.hearthUp := rfl
@[simp] theorem setCmd_faults (c : Nat) (x : Cmd) (s : State) : (setCmd c x s).faults = s.faults := rfl
@[simp] theorem setCmd_levels (c : Nat) (x : Cmd) (s : State) : (setCmd c x s).levels = s.levels := rfl
@[simp] theorem setCmd_seamTok (c : Nat) (x : Cmd) (s : State) : (setCmd c x s).seamTok = s.seamTok := rfl
@[simp] theorem setCmd_icern (c : Nat) (x : Cmd) (s : State) : (setCmd c x s).icern = s.icern := rfl
@[simp] theorem setCmd_power (c : Nat) (x : Cmd) (s : State) : (setCmd c x s).power = s.power := rfl
@[simp] theorem setCmd_jtag (c : Nat) (x : Cmd) (s : State) : (setCmd c x s).jtag = s.jtag := rfl
@[simp] theorem setCmd_hbm (c : Nat) (x : Cmd) (s : State) : (setCmd c x s).hbm = s.hbm := rfl
@[simp] theorem setCmd_poison (c : Nat) (x : Cmd) (s : State) : (setCmd c x s).poison = s.poison := rfl
@[simp] theorem setCmd_free (c : Nat) (x : Cmd) (s : State) : (setCmd c x s).free = s.free := rfl

/-! ### delCmd -/

@[simp] theorem delCmd_pending (c : Nat) (s : State) : (delCmd c s).pending = s.pending := rfl
@[simp] theorem delCmd_aon (c : Nat) (s : State) : (delCmd c s).aon = s.aon := rfl
@[simp] theorem delCmd_pins (c : Nat) (s : State) : (delCmd c s).pins = s.pins := rfl
@[simp] theorem delCmd_host (c : Nat) (s : State) : (delCmd c s).host = s.host := rfl
@[simp] theorem delCmd_ptns (c : Nat) (s : State) : (delCmd c s).ptns = s.ptns := rfl
@[simp] theorem delCmd_jobs (c : Nat) (s : State) : (delCmd c s).jobs = s.jobs := rfl
@[simp] theorem delCmd_ctxs (c : Nat) (s : State) : (delCmd c s).ctxs = s.ctxs := rfl
@[simp] theorem delCmd_colls (c : Nat) (s : State) : (delCmd c s).colls = s.colls := rfl
@[simp] theorem delCmd_nextCmd (c : Nat) (s : State) : (delCmd c s).nextCmd = s.nextCmd := rfl
@[simp] theorem delCmd_hearth (c : Nat) (s : State) : (delCmd c s).hearth = s.hearth := rfl
@[simp] theorem delCmd_hearthUp (c : Nat) (s : State) : (delCmd c s).hearthUp = s.hearthUp := rfl
@[simp] theorem delCmd_faults (c : Nat) (s : State) : (delCmd c s).faults = s.faults := rfl
@[simp] theorem delCmd_levels (c : Nat) (s : State) : (delCmd c s).levels = s.levels := rfl
@[simp] theorem delCmd_seamTok (c : Nat) (s : State) : (delCmd c s).seamTok = s.seamTok := rfl
@[simp] theorem delCmd_icern (c : Nat) (s : State) : (delCmd c s).icern = s.icern := rfl
@[simp] theorem delCmd_power (c : Nat) (s : State) : (delCmd c s).power = s.power := rfl
@[simp] theorem delCmd_jtag (c : Nat) (s : State) : (delCmd c s).jtag = s.jtag := rfl
@[simp] theorem delCmd_hbm (c : Nat) (s : State) : (delCmd c s).hbm = s.hbm := rfl
@[simp] theorem delCmd_poison (c : Nat) (s : State) : (delCmd c s).poison = s.poison := rfl
@[simp] theorem delCmd_free (c : Nat) (s : State) : (delCmd c s).free = s.free := rfl

/-! ### updColl -/

@[simp] theorem updColl_pending (c : Nat) (f : Coll → Coll) (s : State) : (updColl c f s).pending = s.pending := rfl
@[simp] theorem updColl_aon (c : Nat) (f : Coll → Coll) (s : State) : (updColl c f s).aon = s.aon := rfl
@[simp] theorem updColl_pins (c : Nat) (f : Coll → Coll) (s : State) : (updColl c f s).pins = s.pins := rfl
@[simp] theorem updColl_host (c : Nat) (f : Coll → Coll) (s : State) : (updColl c f s).host = s.host := rfl
@[simp] theorem updColl_ptns (c : Nat) (f : Coll → Coll) (s : State) : (updColl c f s).ptns = s.ptns := rfl
@[simp] theorem updColl_jobs (c : Nat) (f : Coll → Coll) (s : State) : (updColl c f s).jobs = s.jobs := rfl
@[simp] theorem updColl_ctxs (c : Nat) (f : Coll → Coll) (s : State) : (updColl c f s).ctxs = s.ctxs := rfl
@[simp] theorem updColl_cmds (c : Nat) (f : Coll → Coll) (s : State) : (updColl c f s).cmds = s.cmds := rfl
@[simp] theorem updColl_nextCmd (c : Nat) (f : Coll → Coll) (s : State) : (updColl c f s).nextCmd = s.nextCmd := rfl
@[simp] theorem updColl_hearth (c : Nat) (f : Coll → Coll) (s : State) : (updColl c f s).hearth = s.hearth := rfl
@[simp] theorem updColl_hearthUp (c : Nat) (f : Coll → Coll) (s : State) : (updColl c f s).hearthUp = s.hearthUp := rfl
@[simp] theorem updColl_faults (c : Nat) (f : Coll → Coll) (s : State) : (updColl c f s).faults = s.faults := rfl
@[simp] theorem updColl_levels (c : Nat) (f : Coll → Coll) (s : State) : (updColl c f s).levels = s.levels := rfl
@[simp] theorem updColl_seamTok (c : Nat) (f : Coll → Coll) (s : State) : (updColl c f s).seamTok = s.seamTok := rfl
@[simp] theorem updColl_icern (c : Nat) (f : Coll → Coll) (s : State) : (updColl c f s).icern = s.icern := rfl
@[simp] theorem updColl_power (c : Nat) (f : Coll → Coll) (s : State) : (updColl c f s).power = s.power := rfl
@[simp] theorem updColl_jtag (c : Nat) (f : Coll → Coll) (s : State) : (updColl c f s).jtag = s.jtag := rfl
@[simp] theorem updColl_hbm (c : Nat) (f : Coll → Coll) (s : State) : (updColl c f s).hbm = s.hbm := rfl
@[simp] theorem updColl_poison (c : Nat) (f : Coll → Coll) (s : State) : (updColl c f s).poison = s.poison := rfl
@[simp] theorem updColl_free (c : Nat) (f : Coll → Coll) (s : State) : (updColl c f s).free = s.free := rfl

/-! ### updCollPtn -/

@[simp] theorem updCollPtn_pending (c p : Nat) (f : CollPtn → CollPtn) (s : State) : (updCollPtn c p f s).pending = s.pending := rfl
@[simp] theorem updCollPtn_aon (c p : Nat) (f : CollPtn → CollPtn) (s : State) : (updCollPtn c p f s).aon = s.aon := rfl
@[simp] theorem updCollPtn_pins (c p : Nat) (f : CollPtn → CollPtn) (s : State) : (updCollPtn c p f s).pins = s.pins := rfl
@[simp] theorem updCollPtn_host (c p : Nat) (f : CollPtn → CollPtn) (s : State) : (updCollPtn c p f s).host = s.host := rfl
@[simp] theorem updCollPtn_ptns (c p : Nat) (f : CollPtn → CollPtn) (s : State) : (updCollPtn c p f s).ptns = s.ptns := rfl
@[simp] theorem updCollPtn_jobs (c p : Nat) (f : CollPtn → CollPtn) (s : State) : (updCollPtn c p f s).jobs = s.jobs := rfl
@[simp] theorem updCollPtn_ctxs (c p : Nat) (f : CollPtn → CollPtn) (s : State) : (updCollPtn c p f s).ctxs = s.ctxs := rfl
@[simp] theorem updCollPtn_cmds (c p : Nat) (f : CollPtn → CollPtn) (s : State) : (updCollPtn c p f s).cmds = s.cmds := rfl
@[simp] theorem updCollPtn_nextCmd (c p : Nat) (f : CollPtn → CollPtn) (s : State) : (updCollPtn c p f s).nextCmd = s.nextCmd := rfl
@[simp] theorem updCollPtn_hearth (c p : Nat) (f : CollPtn → CollPtn) (s : State) : (updCollPtn c p f s).hearth = s.hearth := rfl
@[simp] theorem updCollPtn_hearthUp (c p : Nat) (f : CollPtn → CollPtn) (s : State) : (updCollPtn c p f s).hearthUp = s.hearthUp := rfl
@[simp] theorem updCollPtn_faults (c p : Nat) (f : CollPtn → CollPtn) (s : State) : (updCollPtn c p f s).faults = s.faults := rfl
@[simp] theorem updCollPtn_levels (c p : Nat) (f : CollPtn → CollPtn) (s : State) : (updCollPtn c p f s).levels = s.levels := rfl
@[simp] theorem updCollPtn_seamTok (c p : Nat) (f : CollPtn → CollPtn) (s : State) : (updCollPtn c p f s).seamTok = s.seamTok := rfl
@[simp] theorem updCollPtn_icern (c p : Nat) (f : CollPtn → CollPtn) (s : State) : (updCollPtn c p f s).icern = s.icern := rfl
@[simp] theorem updCollPtn_power (c p : Nat) (f : CollPtn → CollPtn) (s : State) : (updCollPtn c p f s).power = s.power := rfl
@[simp] theorem updCollPtn_jtag (c p : Nat) (f : CollPtn → CollPtn) (s : State) : (updCollPtn c p f s).jtag = s.jtag := rfl
@[simp] theorem updCollPtn_hbm (c p : Nat) (f : CollPtn → CollPtn) (s : State) : (updCollPtn c p f s).hbm = s.hbm := rfl
@[simp] theorem updCollPtn_poison (c p : Nat) (f : CollPtn → CollPtn) (s : State) : (updCollPtn c p f s).poison = s.poison := rfl
@[simp] theorem updCollPtn_free (c p : Nat) (f : CollPtn → CollPtn) (s : State) : (updCollPtn c p f s).free = s.free := rfl

/-! ### updLeaf -/

@[simp] theorem updLeaf_pending (c l : Nat) (f : Leaf → Leaf) (s : State) : (updLeaf c l f s).pending = s.pending := rfl
@[simp] theorem updLeaf_aon (c l : Nat) (f : Leaf → Leaf) (s : State) : (updLeaf c l f s).aon = s.aon := rfl
@[simp] theorem updLeaf_pins (c l : Nat) (f : Leaf → Leaf) (s : State) : (updLeaf c l f s).pins = s.pins := rfl
@[simp] theorem updLeaf_host (c l : Nat) (f : Leaf → Leaf) (s : State) : (updLeaf c l f s).host = s.host := rfl
@[simp] theorem updLeaf_ptns (c l : Nat) (f : Leaf → Leaf) (s : State) : (updLeaf c l f s).ptns = s.ptns := rfl
@[simp] theorem updLeaf_jobs (c l : Nat) (f : Leaf → Leaf) (s : State) : (updLeaf c l f s).jobs = s.jobs := rfl
@[simp] theorem updLeaf_ctxs (c l : Nat) (f : Leaf → Leaf) (s : State) : (updLeaf c l f s).ctxs = s.ctxs := rfl
@[simp] theorem updLeaf_cmds (c l : Nat) (f : Leaf → Leaf) (s : State) : (updLeaf c l f s).cmds = s.cmds := rfl
@[simp] theorem updLeaf_nextCmd (c l : Nat) (f : Leaf → Leaf) (s : State) : (updLeaf c l f s).nextCmd = s.nextCmd := rfl
@[simp] theorem updLeaf_hearth (c l : Nat) (f : Leaf → Leaf) (s : State) : (updLeaf c l f s).hearth = s.hearth := rfl
@[simp] theorem updLeaf_hearthUp (c l : Nat) (f : Leaf → Leaf) (s : State) : (updLeaf c l f s).hearthUp = s.hearthUp := rfl
@[simp] theorem updLeaf_faults (c l : Nat) (f : Leaf → Leaf) (s : State) : (updLeaf c l f s).faults = s.faults := rfl
@[simp] theorem updLeaf_levels (c l : Nat) (f : Leaf → Leaf) (s : State) : (updLeaf c l f s).levels = s.levels := rfl
@[simp] theorem updLeaf_seamTok (c l : Nat) (f : Leaf → Leaf) (s : State) : (updLeaf c l f s).seamTok = s.seamTok := rfl
@[simp] theorem updLeaf_icern (c l : Nat) (f : Leaf → Leaf) (s : State) : (updLeaf c l f s).icern = s.icern := rfl
@[simp] theorem updLeaf_power (c l : Nat) (f : Leaf → Leaf) (s : State) : (updLeaf c l f s).power = s.power := rfl
@[simp] theorem updLeaf_jtag (c l : Nat) (f : Leaf → Leaf) (s : State) : (updLeaf c l f s).jtag = s.jtag := rfl
@[simp] theorem updLeaf_hbm (c l : Nat) (f : Leaf → Leaf) (s : State) : (updLeaf c l f s).hbm = s.hbm := rfl
@[simp] theorem updLeaf_poison (c l : Nat) (f : Leaf → Leaf) (s : State) : (updLeaf c l f s).poison = s.poison := rfl
@[simp] theorem updLeaf_free (c l : Nat) (f : Leaf → Leaf) (s : State) : (updLeaf c l f s).free = s.free := rfl

/-! ### updBrick -/

@[simp] theorem updBrick_pending (c b : Nat) (f : Brick → Brick) (s : State) : (updBrick c b f s).pending = s.pending := rfl
@[simp] theorem updBrick_aon (c b : Nat) (f : Brick → Brick) (s : State) : (updBrick c b f s).aon = s.aon := rfl
@[simp] theorem updBrick_pins (c b : Nat) (f : Brick → Brick) (s : State) : (updBrick c b f s).pins = s.pins := rfl
@[simp] theorem updBrick_host (c b : Nat) (f : Brick → Brick) (s : State) : (updBrick c b f s).host = s.host := rfl
@[simp] theorem updBrick_ptns (c b : Nat) (f : Brick → Brick) (s : State) : (updBrick c b f s).ptns = s.ptns := rfl
@[simp] theorem updBrick_jobs (c b : Nat) (f : Brick → Brick) (s : State) : (updBrick c b f s).jobs = s.jobs := rfl
@[simp] theorem updBrick_ctxs (c b : Nat) (f : Brick → Brick) (s : State) : (updBrick c b f s).ctxs = s.ctxs := rfl
@[simp] theorem updBrick_cmds (c b : Nat) (f : Brick → Brick) (s : State) : (updBrick c b f s).cmds = s.cmds := rfl
@[simp] theorem updBrick_nextCmd (c b : Nat) (f : Brick → Brick) (s : State) : (updBrick c b f s).nextCmd = s.nextCmd := rfl
@[simp] theorem updBrick_hearth (c b : Nat) (f : Brick → Brick) (s : State) : (updBrick c b f s).hearth = s.hearth := rfl
@[simp] theorem updBrick_hearthUp (c b : Nat) (f : Brick → Brick) (s : State) : (updBrick c b f s).hearthUp = s.hearthUp := rfl
@[simp] theorem updBrick_faults (c b : Nat) (f : Brick → Brick) (s : State) : (updBrick c b f s).faults = s.faults := rfl
@[simp] theorem updBrick_levels (c b : Nat) (f : Brick → Brick) (s : State) : (updBrick c b f s).levels = s.levels := rfl
@[simp] theorem updBrick_seamTok (c b : Nat) (f : Brick → Brick) (s : State) : (updBrick c b f s).seamTok = s.seamTok := rfl
@[simp] theorem updBrick_icern (c b : Nat) (f : Brick → Brick) (s : State) : (updBrick c b f s).icern = s.icern := rfl
@[simp] theorem updBrick_power (c b : Nat) (f : Brick → Brick) (s : State) : (updBrick c b f s).power = s.power := rfl
@[simp] theorem updBrick_jtag (c b : Nat) (f : Brick → Brick) (s : State) : (updBrick c b f s).jtag = s.jtag := rfl
@[simp] theorem updBrick_hbm (c b : Nat) (f : Brick → Brick) (s : State) : (updBrick c b f s).hbm = s.hbm := rfl
@[simp] theorem updBrick_poison (c b : Nat) (f : Brick → Brick) (s : State) : (updBrick c b f s).poison = s.poison := rfl
@[simp] theorem updBrick_free (c b : Nat) (f : Brick → Brick) (s : State) : (updBrick c b f s).free = s.free := rfl

/-! ### updHearth -/

@[simp] theorem updHearth_pending (f : Hearth → Hearth) (s : State) : (updHearth f s).pending = s.pending := rfl
@[simp] theorem updHearth_aon (f : Hearth → Hearth) (s : State) : (updHearth f s).aon = s.aon := rfl
@[simp] theorem updHearth_pins (f : Hearth → Hearth) (s : State) : (updHearth f s).pins = s.pins := rfl
@[simp] theorem updHearth_host (f : Hearth → Hearth) (s : State) : (updHearth f s).host = s.host := rfl
@[simp] theorem updHearth_ptns (f : Hearth → Hearth) (s : State) : (updHearth f s).ptns = s.ptns := rfl
@[simp] theorem updHearth_jobs (f : Hearth → Hearth) (s : State) : (updHearth f s).jobs = s.jobs := rfl
@[simp] theorem updHearth_ctxs (f : Hearth → Hearth) (s : State) : (updHearth f s).ctxs = s.ctxs := rfl
@[simp] theorem updHearth_colls (f : Hearth → Hearth) (s : State) : (updHearth f s).colls = s.colls := rfl
@[simp] theorem updHearth_cmds (f : Hearth → Hearth) (s : State) : (updHearth f s).cmds = s.cmds := rfl
@[simp] theorem updHearth_nextCmd (f : Hearth → Hearth) (s : State) : (updHearth f s).nextCmd = s.nextCmd := rfl
@[simp] theorem updHearth_hearthUp (f : Hearth → Hearth) (s : State) : (updHearth f s).hearthUp = s.hearthUp := rfl
@[simp] theorem updHearth_faults (f : Hearth → Hearth) (s : State) : (updHearth f s).faults = s.faults := rfl
@[simp] theorem updHearth_levels (f : Hearth → Hearth) (s : State) : (updHearth f s).levels = s.levels := rfl
@[simp] theorem updHearth_seamTok (f : Hearth → Hearth) (s : State) : (updHearth f s).seamTok = s.seamTok := rfl
@[simp] theorem updHearth_icern (f : Hearth → Hearth) (s : State) : (updHearth f s).icern = s.icern := rfl
@[simp] theorem updHearth_power (f : Hearth → Hearth) (s : State) : (updHearth f s).power = s.power := rfl
@[simp] theorem updHearth_jtag (f : Hearth → Hearth) (s : State) : (updHearth f s).jtag = s.jtag := rfl
@[simp] theorem updHearth_hbm (f : Hearth → Hearth) (s : State) : (updHearth f s).hbm = s.hbm := rfl
@[simp] theorem updHearth_poison (f : Hearth → Hearth) (s : State) : (updHearth f s).poison = s.poison := rfl
@[simp] theorem updHearth_free (f : Hearth → Hearth) (s : State) : (updHearth f s).free = s.free := rfl

/-! ### updMbx -/

@[simp] theorem updMbx_pending (m : Nat) (f : Mbx → Mbx) (s : State) : (updMbx m f s).pending = s.pending := rfl
@[simp] theorem updMbx_aon (m : Nat) (f : Mbx → Mbx) (s : State) : (updMbx m f s).aon = s.aon := rfl
@[simp] theorem updMbx_pins (m : Nat) (f : Mbx → Mbx) (s : State) : (updMbx m f s).pins = s.pins := rfl
@[simp] theorem updMbx_host (m : Nat) (f : Mbx → Mbx) (s : State) : (updMbx m f s).host = s.host := rfl
@[simp] theorem updMbx_ptns (m : Nat) (f : Mbx → Mbx) (s : State) : (updMbx m f s).ptns = s.ptns := rfl
@[simp] theorem updMbx_jobs (m : Nat) (f : Mbx → Mbx) (s : State) : (updMbx m f s).jobs = s.jobs := rfl
@[simp] theorem updMbx_ctxs (m : Nat) (f : Mbx → Mbx) (s : State) : (updMbx m f s).ctxs = s.ctxs := rfl
@[simp] theorem updMbx_colls (m : Nat) (f : Mbx → Mbx) (s : State) : (updMbx m f s).colls = s.colls := rfl
@[simp] theorem updMbx_cmds (m : Nat) (f : Mbx → Mbx) (s : State) : (updMbx m f s).cmds = s.cmds := rfl
@[simp] theorem updMbx_nextCmd (m : Nat) (f : Mbx → Mbx) (s : State) : (updMbx m f s).nextCmd = s.nextCmd := rfl
@[simp] theorem updMbx_hearthUp (m : Nat) (f : Mbx → Mbx) (s : State) : (updMbx m f s).hearthUp = s.hearthUp := rfl
@[simp] theorem updMbx_faults (m : Nat) (f : Mbx → Mbx) (s : State) : (updMbx m f s).faults = s.faults := rfl
@[simp] theorem updMbx_levels (m : Nat) (f : Mbx → Mbx) (s : State) : (updMbx m f s).levels = s.levels := rfl
@[simp] theorem updMbx_seamTok (m : Nat) (f : Mbx → Mbx) (s : State) : (updMbx m f s).seamTok = s.seamTok := rfl
@[simp] theorem updMbx_icern (m : Nat) (f : Mbx → Mbx) (s : State) : (updMbx m f s).icern = s.icern := rfl
@[simp] theorem updMbx_power (m : Nat) (f : Mbx → Mbx) (s : State) : (updMbx m f s).power = s.power := rfl
@[simp] theorem updMbx_jtag (m : Nat) (f : Mbx → Mbx) (s : State) : (updMbx m f s).jtag = s.jtag := rfl
@[simp] theorem updMbx_hbm (m : Nat) (f : Mbx → Mbx) (s : State) : (updMbx m f s).hbm = s.hbm := rfl
@[simp] theorem updMbx_poison (m : Nat) (f : Mbx → Mbx) (s : State) : (updMbx m f s).poison = s.poison := rfl
@[simp] theorem updMbx_free (m : Nat) (f : Mbx → Mbx) (s : State) : (updMbx m f s).free = s.free := rfl

/-! ### updAon -/

@[simp] theorem updAon_pending (f : Aon → Aon) (s : State) : (updAon f s).pending = s.pending := rfl
@[simp] theorem updAon_pins (f : Aon → Aon) (s : State) : (updAon f s).pins = s.pins := rfl
@[simp] theorem updAon_host (f : Aon → Aon) (s : State) : (updAon f s).host = s.host := rfl
@[simp] theorem updAon_ptns (f : Aon → Aon) (s : State) : (updAon f s).ptns = s.ptns := rfl
@[simp] theorem updAon_jobs (f : Aon → Aon) (s : State) : (updAon f s).jobs = s.jobs := rfl
@[simp] theorem updAon_ctxs (f : Aon → Aon) (s : State) : (updAon f s).ctxs = s.ctxs := rfl
@[simp] theorem updAon_colls (f : Aon → Aon) (s : State) : (updAon f s).colls = s.colls := rfl
@[simp] theorem updAon_cmds (f : Aon → Aon) (s : State) : (updAon f s).cmds = s.cmds := rfl
@[simp] theorem updAon_nextCmd (f : Aon → Aon) (s : State) : (updAon f s).nextCmd = s.nextCmd := rfl
@[simp] theorem updAon_hearth (f : Aon → Aon) (s : State) : (updAon f s).hearth = s.hearth := rfl
@[simp] theorem updAon_hearthUp (f : Aon → Aon) (s : State) : (updAon f s).hearthUp = s.hearthUp := rfl
@[simp] theorem updAon_faults (f : Aon → Aon) (s : State) : (updAon f s).faults = s.faults := rfl
@[simp] theorem updAon_levels (f : Aon → Aon) (s : State) : (updAon f s).levels = s.levels := rfl
@[simp] theorem updAon_seamTok (f : Aon → Aon) (s : State) : (updAon f s).seamTok = s.seamTok := rfl
@[simp] theorem updAon_icern (f : Aon → Aon) (s : State) : (updAon f s).icern = s.icern := rfl
@[simp] theorem updAon_power (f : Aon → Aon) (s : State) : (updAon f s).power = s.power := rfl
@[simp] theorem updAon_jtag (f : Aon → Aon) (s : State) : (updAon f s).jtag = s.jtag := rfl
@[simp] theorem updAon_hbm (f : Aon → Aon) (s : State) : (updAon f s).hbm = s.hbm := rfl
@[simp] theorem updAon_poison (f : Aon → Aon) (s : State) : (updAon f s).poison = s.poison := rfl
@[simp] theorem updAon_free (f : Aon → Aon) (s : State) : (updAon f s).free = s.free := rfl

/-! ### updPins -/

@[simp] theorem updPins_pending (f : Pins → Pins) (s : State) : (updPins f s).pending = s.pending := rfl
@[simp] theorem updPins_aon (f : Pins → Pins) (s : State) : (updPins f s).aon = s.aon := rfl
@[simp] theorem updPins_host (f : Pins → Pins) (s : State) : (updPins f s).host = s.host := rfl
@[simp] theorem updPins_ptns (f : Pins → Pins) (s : State) : (updPins f s).ptns = s.ptns := rfl
@[simp] theorem updPins_jobs (f : Pins → Pins) (s : State) : (updPins f s).jobs = s.jobs := rfl
@[simp] theorem updPins_ctxs (f : Pins → Pins) (s : State) : (updPins f s).ctxs = s.ctxs := rfl
@[simp] theorem updPins_colls (f : Pins → Pins) (s : State) : (updPins f s).colls = s.colls := rfl
@[simp] theorem updPins_cmds (f : Pins → Pins) (s : State) : (updPins f s).cmds = s.cmds := rfl
@[simp] theorem updPins_nextCmd (f : Pins → Pins) (s : State) : (updPins f s).nextCmd = s.nextCmd := rfl
@[simp] theorem updPins_hearth (f : Pins → Pins) (s : State) : (updPins f s).hearth = s.hearth := rfl
@[simp] theorem updPins_hearthUp (f : Pins → Pins) (s : State) : (updPins f s).hearthUp = s.hearthUp := rfl
@[simp] theorem updPins_faults (f : Pins → Pins) (s : State) : (updPins f s).faults = s.faults := rfl
@[simp] theorem updPins_levels (f : Pins → Pins) (s : State) : (updPins f s).levels = s.levels := rfl
@[simp] theorem updPins_seamTok (f : Pins → Pins) (s : State) : (updPins f s).seamTok = s.seamTok := rfl
@[simp] theorem updPins_icern (f : Pins → Pins) (s : State) : (updPins f s).icern = s.icern := rfl
@[simp] theorem updPins_power (f : Pins → Pins) (s : State) : (updPins f s).power = s.power := rfl
@[simp] theorem updPins_jtag (f : Pins → Pins) (s : State) : (updPins f s).jtag = s.jtag := rfl
@[simp] theorem updPins_hbm (f : Pins → Pins) (s : State) : (updPins f s).hbm = s.hbm := rfl
@[simp] theorem updPins_poison (f : Pins → Pins) (s : State) : (updPins f s).poison = s.poison := rfl
@[simp] theorem updPins_free (f : Pins → Pins) (s : State) : (updPins f s).free = s.free := rfl

/-! ### updPower -/

@[simp] theorem updPower_pending (f : PowerT → PowerT) (s : State) : (updPower f s).pending = s.pending := rfl
@[simp] theorem updPower_aon (f : PowerT → PowerT) (s : State) : (updPower f s).aon = s.aon := rfl
@[simp] theorem updPower_pins (f : PowerT → PowerT) (s : State) : (updPower f s).pins = s.pins := rfl
@[simp] theorem updPower_host (f : PowerT → PowerT) (s : State) : (updPower f s).host = s.host := rfl
@[simp] theorem updPower_ptns (f : PowerT → PowerT) (s : State) : (updPower f s).ptns = s.ptns := rfl
@[simp] theorem updPower_jobs (f : PowerT → PowerT) (s : State) : (updPower f s).jobs = s.jobs := rfl
@[simp] theorem updPower_ctxs (f : PowerT → PowerT) (s : State) : (updPower f s).ctxs = s.ctxs := rfl
@[simp] theorem updPower_colls (f : PowerT → PowerT) (s : State) : (updPower f s).colls = s.colls := rfl
@[simp] theorem updPower_cmds (f : PowerT → PowerT) (s : State) : (updPower f s).cmds = s.cmds := rfl
@[simp] theorem updPower_nextCmd (f : PowerT → PowerT) (s : State) : (updPower f s).nextCmd = s.nextCmd := rfl
@[simp] theorem updPower_hearth (f : PowerT → PowerT) (s : State) : (updPower f s).hearth = s.hearth := rfl
@[simp] theorem updPower_hearthUp (f : PowerT → PowerT) (s : State) : (updPower f s).hearthUp = s.hearthUp := rfl
@[simp] theorem updPower_faults (f : PowerT → PowerT) (s : State) : (updPower f s).faults = s.faults := rfl
@[simp] theorem updPower_levels (f : PowerT → PowerT) (s : State) : (updPower f s).levels = s.levels := rfl
@[simp] theorem updPower_seamTok (f : PowerT → PowerT) (s : State) : (updPower f s).seamTok = s.seamTok := rfl
@[simp] theorem updPower_icern (f : PowerT → PowerT) (s : State) : (updPower f s).icern = s.icern := rfl
@[simp] theorem updPower_jtag (f : PowerT → PowerT) (s : State) : (updPower f s).jtag = s.jtag := rfl
@[simp] theorem updPower_hbm (f : PowerT → PowerT) (s : State) : (updPower f s).hbm = s.hbm := rfl
@[simp] theorem updPower_poison (f : PowerT → PowerT) (s : State) : (updPower f s).poison = s.poison := rfl
@[simp] theorem updPower_free (f : PowerT → PowerT) (s : State) : (updPower f s).free = s.free := rfl

/-! ### updIcern -/

@[simp] theorem updIcern_pending (f : Icern → Icern) (s : State) : (updIcern f s).pending = s.pending := rfl
@[simp] theorem updIcern_aon (f : Icern → Icern) (s : State) : (updIcern f s).aon = s.aon := rfl
@[simp] theorem updIcern_pins (f : Icern → Icern) (s : State) : (updIcern f s).pins = s.pins := rfl
@[simp] theorem updIcern_host (f : Icern → Icern) (s : State) : (updIcern f s).host = s.host := rfl
@[simp] theorem updIcern_ptns (f : Icern → Icern) (s : State) : (updIcern f s).ptns = s.ptns := rfl
@[simp] theorem updIcern_jobs (f : Icern → Icern) (s : State) : (updIcern f s).jobs = s.jobs := rfl
@[simp] theorem updIcern_ctxs (f : Icern → Icern) (s : State) : (updIcern f s).ctxs = s.ctxs := rfl
@[simp] theorem updIcern_colls (f : Icern → Icern) (s : State) : (updIcern f s).colls = s.colls := rfl
@[simp] theorem updIcern_cmds (f : Icern → Icern) (s : State) : (updIcern f s).cmds = s.cmds := rfl
@[simp] theorem updIcern_nextCmd (f : Icern → Icern) (s : State) : (updIcern f s).nextCmd = s.nextCmd := rfl
@[simp] theorem updIcern_hearth (f : Icern → Icern) (s : State) : (updIcern f s).hearth = s.hearth := rfl
@[simp] theorem updIcern_hearthUp (f : Icern → Icern) (s : State) : (updIcern f s).hearthUp = s.hearthUp := rfl
@[simp] theorem updIcern_faults (f : Icern → Icern) (s : State) : (updIcern f s).faults = s.faults := rfl
@[simp] theorem updIcern_levels (f : Icern → Icern) (s : State) : (updIcern f s).levels = s.levels := rfl
@[simp] theorem updIcern_seamTok (f : Icern → Icern) (s : State) : (updIcern f s).seamTok = s.seamTok := rfl
@[simp] theorem updIcern_power (f : Icern → Icern) (s : State) : (updIcern f s).power = s.power := rfl
@[simp] theorem updIcern_jtag (f : Icern → Icern) (s : State) : (updIcern f s).jtag = s.jtag := rfl
@[simp] theorem updIcern_hbm (f : Icern → Icern) (s : State) : (updIcern f s).hbm = s.hbm := rfl
@[simp] theorem updIcern_poison (f : Icern → Icern) (s : State) : (updIcern f s).poison = s.poison := rfl
@[simp] theorem updIcern_free (f : Icern → Icern) (s : State) : (updIcern f s).free = s.free := rfl

/-! ### updPort -/

@[simp] theorem updPort_pending (n : Nat) (f : Port → Port) (s : State) : (updPort n f s).pending = s.pending := rfl
@[simp] theorem updPort_aon (n : Nat) (f : Port → Port) (s : State) : (updPort n f s).aon = s.aon := rfl
@[simp] theorem updPort_pins (n : Nat) (f : Port → Port) (s : State) : (updPort n f s).pins = s.pins := rfl
@[simp] theorem updPort_host (n : Nat) (f : Port → Port) (s : State) : (updPort n f s).host = s.host := rfl
@[simp] theorem updPort_ptns (n : Nat) (f : Port → Port) (s : State) : (updPort n f s).ptns = s.ptns := rfl
@[simp] theorem updPort_jobs (n : Nat) (f : Port → Port) (s : State) : (updPort n f s).jobs = s.jobs := rfl
@[simp] theorem updPort_ctxs (n : Nat) (f : Port → Port) (s : State) : (updPort n f s).ctxs = s.ctxs := rfl
@[simp] theorem updPort_colls (n : Nat) (f : Port → Port) (s : State) : (updPort n f s).colls = s.colls := rfl
@[simp] theorem updPort_cmds (n : Nat) (f : Port → Port) (s : State) : (updPort n f s).cmds = s.cmds := rfl
@[simp] theorem updPort_nextCmd (n : Nat) (f : Port → Port) (s : State) : (updPort n f s).nextCmd = s.nextCmd := rfl
@[simp] theorem updPort_hearth (n : Nat) (f : Port → Port) (s : State) : (updPort n f s).hearth = s.hearth := rfl
@[simp] theorem updPort_hearthUp (n : Nat) (f : Port → Port) (s : State) : (updPort n f s).hearthUp = s.hearthUp := rfl
@[simp] theorem updPort_faults (n : Nat) (f : Port → Port) (s : State) : (updPort n f s).faults = s.faults := rfl
@[simp] theorem updPort_levels (n : Nat) (f : Port → Port) (s : State) : (updPort n f s).levels = s.levels := rfl
@[simp] theorem updPort_seamTok (n : Nat) (f : Port → Port) (s : State) : (updPort n f s).seamTok = s.seamTok := rfl
@[simp] theorem updPort_power (n : Nat) (f : Port → Port) (s : State) : (updPort n f s).power = s.power := rfl
@[simp] theorem updPort_jtag (n : Nat) (f : Port → Port) (s : State) : (updPort n f s).jtag = s.jtag := rfl
@[simp] theorem updPort_hbm (n : Nat) (f : Port → Port) (s : State) : (updPort n f s).hbm = s.hbm := rfl
@[simp] theorem updPort_poison (n : Nat) (f : Port → Port) (s : State) : (updPort n f s).poison = s.poison := rfl
@[simp] theorem updPort_free (n : Nat) (f : Port → Port) (s : State) : (updPort n f s).free = s.free := rfl

/-! ### updAnvil -/

@[simp] theorem updAnvil_pending (p a : Nat) (f : Anvil → Anvil) (s : State) : (updAnvil p a f s).pending = s.pending := rfl
@[simp] theorem updAnvil_aon (p a : Nat) (f : Anvil → Anvil) (s : State) : (updAnvil p a f s).aon = s.aon := rfl
@[simp] theorem updAnvil_pins (p a : Nat) (f : Anvil → Anvil) (s : State) : (updAnvil p a f s).pins = s.pins := rfl
@[simp] theorem updAnvil_host (p a : Nat) (f : Anvil → Anvil) (s : State) : (updAnvil p a f s).host = s.host := rfl
@[simp] theorem updAnvil_jobs (p a : Nat) (f : Anvil → Anvil) (s : State) : (updAnvil p a f s).jobs = s.jobs := rfl
@[simp] theorem updAnvil_ctxs (p a : Nat) (f : Anvil → Anvil) (s : State) : (updAnvil p a f s).ctxs = s.ctxs := rfl
@[simp] theorem updAnvil_colls (p a : Nat) (f : Anvil → Anvil) (s : State) : (updAnvil p a f s).colls = s.colls := rfl
@[simp] theorem updAnvil_cmds (p a : Nat) (f : Anvil → Anvil) (s : State) : (updAnvil p a f s).cmds = s.cmds := rfl
@[simp] theorem updAnvil_nextCmd (p a : Nat) (f : Anvil → Anvil) (s : State) : (updAnvil p a f s).nextCmd = s.nextCmd := rfl
@[simp] theorem updAnvil_hearth (p a : Nat) (f : Anvil → Anvil) (s : State) : (updAnvil p a f s).hearth = s.hearth := rfl
@[simp] theorem updAnvil_hearthUp (p a : Nat) (f : Anvil → Anvil) (s : State) : (updAnvil p a f s).hearthUp = s.hearthUp := rfl
@[simp] theorem updAnvil_faults (p a : Nat) (f : Anvil → Anvil) (s : State) : (updAnvil p a f s).faults = s.faults := rfl
@[simp] theorem updAnvil_levels (p a : Nat) (f : Anvil → Anvil) (s : State) : (updAnvil p a f s).levels = s.levels := rfl
@[simp] theorem updAnvil_seamTok (p a : Nat) (f : Anvil → Anvil) (s : State) : (updAnvil p a f s).seamTok = s.seamTok := rfl
@[simp] theorem updAnvil_icern (p a : Nat) (f : Anvil → Anvil) (s : State) : (updAnvil p a f s).icern = s.icern := rfl
@[simp] theorem updAnvil_power (p a : Nat) (f : Anvil → Anvil) (s : State) : (updAnvil p a f s).power = s.power := rfl
@[simp] theorem updAnvil_jtag (p a : Nat) (f : Anvil → Anvil) (s : State) : (updAnvil p a f s).jtag = s.jtag := rfl
@[simp] theorem updAnvil_hbm (p a : Nat) (f : Anvil → Anvil) (s : State) : (updAnvil p a f s).hbm = s.hbm := rfl
@[simp] theorem updAnvil_poison (p a : Nat) (f : Anvil → Anvil) (s : State) : (updAnvil p a f s).poison = s.poison := rfl
@[simp] theorem updAnvil_free (p a : Nat) (f : Anvil → Anvil) (s : State) : (updAnvil p a f s).free = s.free := rfl

/-! ### spend -/

@[simp] theorem spend_pending (n : Nat) (s : State) : (spend n s).pending = s.pending := rfl
@[simp] theorem spend_aon (n : Nat) (s : State) : (spend n s).aon = s.aon := rfl
@[simp] theorem spend_pins (n : Nat) (s : State) : (spend n s).pins = s.pins := rfl
@[simp] theorem spend_host (n : Nat) (s : State) : (spend n s).host = s.host := rfl
@[simp] theorem spend_ptns (n : Nat) (s : State) : (spend n s).ptns = s.ptns := rfl
@[simp] theorem spend_jobs (n : Nat) (s : State) : (spend n s).jobs = s.jobs := rfl
@[simp] theorem spend_ctxs (n : Nat) (s : State) : (spend n s).ctxs = s.ctxs := rfl
@[simp] theorem spend_colls (n : Nat) (s : State) : (spend n s).colls = s.colls := rfl
@[simp] theorem spend_cmds (n : Nat) (s : State) : (spend n s).cmds = s.cmds := rfl
@[simp] theorem spend_nextCmd (n : Nat) (s : State) : (spend n s).nextCmd = s.nextCmd := rfl
@[simp] theorem spend_hearth (n : Nat) (s : State) : (spend n s).hearth = s.hearth := rfl
@[simp] theorem spend_hearthUp (n : Nat) (s : State) : (spend n s).hearthUp = s.hearthUp := rfl
@[simp] theorem spend_faults (n : Nat) (s : State) : (spend n s).faults = s.faults := rfl
@[simp] theorem spend_levels (n : Nat) (s : State) : (spend n s).levels = s.levels := rfl
@[simp] theorem spend_seamTok (n : Nat) (s : State) : (spend n s).seamTok = s.seamTok := rfl
@[simp] theorem spend_icern (n : Nat) (s : State) : (spend n s).icern = s.icern := rfl
@[simp] theorem spend_power (n : Nat) (s : State) : (spend n s).power = s.power := rfl
@[simp] theorem spend_jtag (n : Nat) (s : State) : (spend n s).jtag = s.jtag := rfl
@[simp] theorem spend_hbm (n : Nat) (s : State) : (spend n s).hbm = s.hbm := rfl
@[simp] theorem spend_poison (n : Nat) (s : State) : (spend n s).poison = s.poison := rfl

/-! ### answer -/

@[simp] theorem answer_pending (a : Answer) (s : State) : (answer a s).pending = s.pending := rfl
@[simp] theorem answer_aon (a : Answer) (s : State) : (answer a s).aon = s.aon := rfl
@[simp] theorem answer_pins (a : Answer) (s : State) : (answer a s).pins = s.pins := rfl
@[simp] theorem answer_ptns (a : Answer) (s : State) : (answer a s).ptns = s.ptns := rfl
@[simp] theorem answer_jobs (a : Answer) (s : State) : (answer a s).jobs = s.jobs := rfl
@[simp] theorem answer_ctxs (a : Answer) (s : State) : (answer a s).ctxs = s.ctxs := rfl
@[simp] theorem answer_colls (a : Answer) (s : State) : (answer a s).colls = s.colls := rfl
@[simp] theorem answer_cmds (a : Answer) (s : State) : (answer a s).cmds = s.cmds := rfl
@[simp] theorem answer_nextCmd (a : Answer) (s : State) : (answer a s).nextCmd = s.nextCmd := rfl
@[simp] theorem answer_hearth (a : Answer) (s : State) : (answer a s).hearth = s.hearth := rfl
@[simp] theorem answer_hearthUp (a : Answer) (s : State) : (answer a s).hearthUp = s.hearthUp := rfl
@[simp] theorem answer_faults (a : Answer) (s : State) : (answer a s).faults = s.faults := rfl
@[simp] theorem answer_levels (a : Answer) (s : State) : (answer a s).levels = s.levels := rfl
@[simp] theorem answer_seamTok (a : Answer) (s : State) : (answer a s).seamTok = s.seamTok := rfl
@[simp] theorem answer_icern (a : Answer) (s : State) : (answer a s).icern = s.icern := rfl
@[simp] theorem answer_power (a : Answer) (s : State) : (answer a s).power = s.power := rfl
@[simp] theorem answer_jtag (a : Answer) (s : State) : (answer a s).jtag = s.jtag := rfl
@[simp] theorem answer_hbm (a : Answer) (s : State) : (answer a s).hbm = s.hbm := rfl
@[simp] theorem answer_poison (a : Answer) (s : State) : (answer a s).poison = s.poison := rfl
@[simp] theorem answer_free (a : Answer) (s : State) : (answer a s).free = s.free := rfl

/-! ### updCmd -/

@[simp] theorem updCmd_pending (c : Nat) (f : Cmd → Cmd) (s : State) : (updCmd c f s).pending = s.pending := by unfold updCmd; split <;> rfl
@[simp] theorem updCmd_aon (c : Nat) (f : Cmd → Cmd) (s : State) : (updCmd c f s).aon = s.aon := by unfold updCmd; split <;> rfl
@[simp] theorem updCmd_pins (c : Nat) (f : Cmd → Cmd) (s : State) : (updCmd c f s).pins = s.pins := by unfold updCmd; split <;> rfl
@[simp] theorem updCmd_host (c : Nat) (f : Cmd → Cmd) (s : State) : (updCmd c f s).host = s.host := by unfold updCmd; split <;> rfl
@[simp] theorem updCmd_ptns (c : Nat) (f : Cmd → Cmd) (s : State) : (updCmd c f s).ptns = s.ptns := by unfold updCmd; split <;> rfl
@[simp] theorem updCmd_jobs (c : Nat) (f : Cmd → Cmd) (s : State) : (updCmd c f s).jobs = s.jobs := by unfold updCmd; split <;> rfl
@[simp] theorem updCmd_ctxs (c : Nat) (f : Cmd → Cmd) (s : State) : (updCmd c f s).ctxs = s.ctxs := by unfold updCmd; split <;> rfl
@[simp] theorem updCmd_colls (c : Nat) (f : Cmd → Cmd) (s : State) : (updCmd c f s).colls = s.colls := by unfold updCmd; split <;> rfl
@[simp] theorem updCmd_nextCmd (c : Nat) (f : Cmd → Cmd) (s : State) : (updCmd c f s).nextCmd = s.nextCmd := by unfold updCmd; split <;> rfl
@[simp] theorem updCmd_hearth (c : Nat) (f : Cmd → Cmd) (s : State) : (updCmd c f s).hearth = s.hearth := by unfold updCmd; split <;> rfl
@[simp] theorem updCmd_hearthUp (c : Nat) (f : Cmd → Cmd) (s : State) : (updCmd c f s).hearthUp = s.hearthUp := by unfold updCmd; split <;> rfl
@[simp] theorem updCmd_faults (c : Nat) (f : Cmd → Cmd) (s : State) : (updCmd c f s).faults = s.faults := by unfold updCmd; split <;> rfl
@[simp] theorem updCmd_levels (c : Nat) (f : Cmd → Cmd) (s : State) : (updCmd c f s).levels = s.levels := by unfold updCmd; split <;> rfl
@[simp] theorem updCmd_seamTok (c : Nat) (f : Cmd → Cmd) (s : State) : (updCmd c f s).seamTok = s.seamTok := by unfold updCmd; split <;> rfl
@[simp] theorem updCmd_icern (c : Nat) (f : Cmd → Cmd) (s : State) : (updCmd c f s).icern = s.icern := by unfold updCmd; split <;> rfl
@[simp] theorem updCmd_power (c : Nat) (f : Cmd → Cmd) (s : State) : (updCmd c f s).power = s.power := by unfold updCmd; split <;> rfl
@[simp] theorem updCmd_jtag (c : Nat) (f : Cmd → Cmd) (s : State) : (updCmd c f s).jtag = s.jtag := by unfold updCmd; split <;> rfl
@[simp] theorem updCmd_hbm (c : Nat) (f : Cmd → Cmd) (s : State) : (updCmd c f s).hbm = s.hbm := by unfold updCmd; split <;> rfl
@[simp] theorem updCmd_poison (c : Nat) (f : Cmd → Cmd) (s : State) : (updCmd c f s).poison = s.poison := by unfold updCmd; split <;> rfl
@[simp] theorem updCmd_free (c : Nat) (f : Cmd → Cmd) (s : State) : (updCmd c f s).free = s.free := by unfold updCmd; split <;> rfl

/-! ### updCtx -/

@[simp] theorem updCtx_pending (c : Nat) (f : Ctx → Ctx) (s : State) : (updCtx c f s).pending = s.pending := by unfold updCtx; split <;> rfl
@[simp] theorem updCtx_aon (c : Nat) (f : Ctx → Ctx) (s : State) : (updCtx c f s).aon = s.aon := by unfold updCtx; split <;> rfl
@[simp] theorem updCtx_pins (c : Nat) (f : Ctx → Ctx) (s : State) : (updCtx c f s).pins = s.pins := by unfold updCtx; split <;> rfl
@[simp] theorem updCtx_host (c : Nat) (f : Ctx → Ctx) (s : State) : (updCtx c f s).host = s.host := by unfold updCtx; split <;> rfl
@[simp] theorem updCtx_ptns (c : Nat) (f : Ctx → Ctx) (s : State) : (updCtx c f s).ptns = s.ptns := by unfold updCtx; split <;> rfl
@[simp] theorem updCtx_jobs (c : Nat) (f : Ctx → Ctx) (s : State) : (updCtx c f s).jobs = s.jobs := by unfold updCtx; split <;> rfl
@[simp] theorem updCtx_colls (c : Nat) (f : Ctx → Ctx) (s : State) : (updCtx c f s).colls = s.colls := by unfold updCtx; split <;> rfl
@[simp] theorem updCtx_cmds (c : Nat) (f : Ctx → Ctx) (s : State) : (updCtx c f s).cmds = s.cmds := by unfold updCtx; split <;> rfl
@[simp] theorem updCtx_nextCmd (c : Nat) (f : Ctx → Ctx) (s : State) : (updCtx c f s).nextCmd = s.nextCmd := by unfold updCtx; split <;> rfl
@[simp] theorem updCtx_hearth (c : Nat) (f : Ctx → Ctx) (s : State) : (updCtx c f s).hearth = s.hearth := by unfold updCtx; split <;> rfl
@[simp] theorem updCtx_hearthUp (c : Nat) (f : Ctx → Ctx) (s : State) : (updCtx c f s).hearthUp = s.hearthUp := by unfold updCtx; split <;> rfl
@[simp] theorem updCtx_faults (c : Nat) (f : Ctx → Ctx) (s : State) : (updCtx c f s).faults = s.faults := by unfold updCtx; split <;> rfl
@[simp] theorem updCtx_levels (c : Nat) (f : Ctx → Ctx) (s : State) : (updCtx c f s).levels = s.levels := by unfold updCtx; split <;> rfl
@[simp] theorem updCtx_seamTok (c : Nat) (f : Ctx → Ctx) (s : State) : (updCtx c f s).seamTok = s.seamTok := by unfold updCtx; split <;> rfl
@[simp] theorem updCtx_icern (c : Nat) (f : Ctx → Ctx) (s : State) : (updCtx c f s).icern = s.icern := by unfold updCtx; split <;> rfl
@[simp] theorem updCtx_power (c : Nat) (f : Ctx → Ctx) (s : State) : (updCtx c f s).power = s.power := by unfold updCtx; split <;> rfl
@[simp] theorem updCtx_jtag (c : Nat) (f : Ctx → Ctx) (s : State) : (updCtx c f s).jtag = s.jtag := by unfold updCtx; split <;> rfl
@[simp] theorem updCtx_hbm (c : Nat) (f : Ctx → Ctx) (s : State) : (updCtx c f s).hbm = s.hbm := by unfold updCtx; split <;> rfl
@[simp] theorem updCtx_poison (c : Nat) (f : Ctx → Ctx) (s : State) : (updCtx c f s).poison = s.poison := by unfold updCtx; split <;> rfl
@[simp] theorem updCtx_free (c : Nat) (f : Ctx → Ctx) (s : State) : (updCtx c f s).free = s.free := by unfold updCtx; split <;> rfl

/-! ### updJob -/

@[simp] theorem updJob_pending (j : Nat) (f : Job → Job) (s : State) : (updJob j f s).pending = s.pending := by unfold updJob; split <;> rfl
@[simp] theorem updJob_aon (j : Nat) (f : Job → Job) (s : State) : (updJob j f s).aon = s.aon := by unfold updJob; split <;> rfl
@[simp] theorem updJob_pins (j : Nat) (f : Job → Job) (s : State) : (updJob j f s).pins = s.pins := by unfold updJob; split <;> rfl
@[simp] theorem updJob_host (j : Nat) (f : Job → Job) (s : State) : (updJob j f s).host = s.host := by unfold updJob; split <;> rfl
@[simp] theorem updJob_ptns (j : Nat) (f : Job → Job) (s : State) : (updJob j f s).ptns = s.ptns := by unfold updJob; split <;> rfl
@[simp] theorem updJob_ctxs (j : Nat) (f : Job → Job) (s : State) : (updJob j f s).ctxs = s.ctxs := by unfold updJob; split <;> rfl
@[simp] theorem updJob_colls (j : Nat) (f : Job → Job) (s : State) : (updJob j f s).colls = s.colls := by unfold updJob; split <;> rfl
@[simp] theorem updJob_cmds (j : Nat) (f : Job → Job) (s : State) : (updJob j f s).cmds = s.cmds := by unfold updJob; split <;> rfl
@[simp] theorem updJob_nextCmd (j : Nat) (f : Job → Job) (s : State) : (updJob j f s).nextCmd = s.nextCmd := by unfold updJob; split <;> rfl
@[simp] theorem updJob_hearth (j : Nat) (f : Job → Job) (s : State) : (updJob j f s).hearth = s.hearth := by unfold updJob; split <;> rfl
@[simp] theorem updJob_hearthUp (j : Nat) (f : Job → Job) (s : State) : (updJob j f s).hearthUp = s.hearthUp := by unfold updJob; split <;> rfl
@[simp] theorem updJob_faults (j : Nat) (f : Job → Job) (s : State) : (updJob j f s).faults = s.faults := by unfold updJob; split <;> rfl
@[simp] theorem updJob_levels (j : Nat) (f : Job → Job) (s : State) : (updJob j f s).levels = s.levels := by unfold updJob; split <;> rfl
@[simp] theorem updJob_seamTok (j : Nat) (f : Job → Job) (s : State) : (updJob j f s).seamTok = s.seamTok := by unfold updJob; split <;> rfl
@[simp] theorem updJob_icern (j : Nat) (f : Job → Job) (s : State) : (updJob j f s).icern = s.icern := by unfold updJob; split <;> rfl
@[simp] theorem updJob_power (j : Nat) (f : Job → Job) (s : State) : (updJob j f s).power = s.power := by unfold updJob; split <;> rfl
@[simp] theorem updJob_jtag (j : Nat) (f : Job → Job) (s : State) : (updJob j f s).jtag = s.jtag := by unfold updJob; split <;> rfl
@[simp] theorem updJob_hbm (j : Nat) (f : Job → Job) (s : State) : (updJob j f s).hbm = s.hbm := by unfold updJob; split <;> rfl
@[simp] theorem updJob_poison (j : Nat) (f : Job → Job) (s : State) : (updJob j f s).poison = s.poison := by unfold updJob; split <;> rfl
@[simp] theorem updJob_free (j : Nat) (f : Job → Job) (s : State) : (updJob j f s).free = s.free := by unfold updJob; split <;> rfl

/-! ### What is written is read back -/

@[simp] theorem updHost_host (f : HostIf → HostIf) (s : State) : (updHost f s).host = f s.host := rfl
@[simp] theorem updHearth_hearth (f : Hearth → Hearth) (s : State) : (updHearth f s).hearth = f s.hearth := rfl
@[simp] theorem updAon_aon (f : Aon → Aon) (s : State) : (updAon f s).aon = f s.aon := rfl
@[simp] theorem updPins_pins (f : Pins → Pins) (s : State) : (updPins f s).pins = f s.pins := rfl
@[simp] theorem updPower_power (f : PowerT → PowerT) (s : State) : (updPower f s).power = f s.power := rfl
@[simp] theorem updIcern_icern (f : Icern → Icern) (s : State) : (updIcern f s).icern = f s.icern := rfl
@[simp] theorem updLink_link (f : Link → Link) (s : State) : (updLink f s).host.link = f s.host.link := rfl
@[simp] theorem spend_free (n : Nat) (s : State) : (spend n s).free = s.free + n := rfl
@[simp] theorem answer_answer (a : Answer) (s : State) : (answer a s).host.answer = a := rfl

@[simp] theorem ptn_updPtn_same (p : Nat) (f : Ptn → Ptn) (s : State) : ptn (updPtn p f s) p = f (ptn s p) := by
  unfold updPtn ptn; simp
@[simp] theorem ptn_updPtn_other {p q : Nat} (f : Ptn → Ptn) (s : State) (h : q ≠ p) : ptn (updPtn p f s) q = ptn s q := by
  unfold updPtn ptn; simp [h]
@[simp] theorem ring_setRing_same (r : Nat) (x : Ring) (s : State) : ring (setRing r x s) r = x := by
  simp [ring, setRing]
@[simp] theorem ring_setRing_other {r q : Nat} (x : Ring) (s : State) (h : q ≠ r) : ring (setRing r x s) q = ring s q := by
  simp [ring, setRing, h]
@[simp] theorem ring_updRing_same (r : Nat) (f : Ring → Ring) (s : State) : ring (updRing r f s) r = f (ring s r) := by simp [updRing]
@[simp] theorem ring_updRing_other {r q : Nat} (f : Ring → Ring) (s : State) (h : q ≠ r) : ring (updRing r f s) q = ring s q := by
  simp [updRing, h]
@[simp] theorem vec_updVec_same (v : Nat) (f : Vec → Vec) (s : State) : vec (updVec v f s) v = f (vec s v) := by simp [vec, updVec]
@[simp] theorem coll_updColl_same (c : Nat) (f : Coll → Coll) (s : State) : coll (updColl c f s) c = f (coll s c) := by
  simp [coll, updColl]
@[simp] theorem coll_updColl_other {c d : Nat} (f : Coll → Coll) (s : State) (h : d ≠ c) : coll (updColl c f s) d = coll s d := by
  simp [coll, updColl, h]
@[simp] theorem mbx_updMbx_same (m : Nat) (f : Mbx → Mbx) (s : State) : mbx (updMbx m f s) m = f (mbx s m) := by simp [mbx, updMbx]
@[simp] theorem mbx_updMbx_other {m n : Nat} (f : Mbx → Mbx) (s : State) (h : n ≠ m) : mbx (updMbx m f s) n = mbx s n := by
  simp [mbx, updMbx, h]
@[simp] theorem port_updPort_same (n : Nat) (f : Port → Port) (s : State) : port (updPort n f s) n = f (port s n) := by simp [port, updPort]
@[simp] theorem port_updPort_other {n k : Nat} (f : Port → Port) (s : State) (h : k ≠ n) : port (updPort n f s) k = port s k := by
  simp [port, updPort, h]
@[simp] theorem anvil_updAnvil_same (p a : Nat) (f : Anvil → Anvil) (s : State) : anvil (updAnvil p a f s) p a = f (anvil s p a) := by
  simp [anvil, updAnvil]
@[simp] theorem anvil_updAnvil_other {p a b : Nat} (f : Anvil → Anvil) (s : State) (h : b ≠ a) :
    anvil (updAnvil p a f s) p b = anvil s p b := by simp [anvil, updAnvil, h]
@[simp] theorem cmd_setCmd_same (c : Nat) (x : Cmd) (s : State) : cmd? (setCmd c x s) c = some x := by simp [cmd?, setCmd]
@[simp] theorem cmd_setCmd_other {c d : Nat} (x : Cmd) (s : State) (h : d ≠ c) : cmd? (setCmd c x s) d = cmd? s d := by
  simp [cmd?, setCmd, h]
@[simp] theorem cmd_delCmd_same (c : Nat) (s : State) : cmd? (delCmd c s) c = none := by simp [cmd?, delCmd]
@[simp] theorem cmd_delCmd_other {c d : Nat} (s : State) (h : d ≠ c) : cmd? (delCmd c s) d = cmd? s d := by simp [cmd?, delCmd, h]
@[simp] theorem cmd_updCmd_same (c : Nat) (f : Cmd → Cmd) (s : State) : cmd? (updCmd c f s) c = (cmd? s c).map f := by
  unfold updCmd; cases h : cmd? s c <;> simp [h]
@[simp] theorem cmd_updCmd_other {c d : Nat} (f : Cmd → Cmd) (s : State) (h : d ≠ c) : cmd? (updCmd c f s) d = cmd? s d := by
  unfold updCmd; cases cmd? s c <;> simp [h]
@[simp] theorem ctx_updCtx_same (c : Nat) (f : Ctx → Ctx) (s : State) : ctx? (updCtx c f s) c = (ctx? s c).map f := by
  unfold updCtx; cases h : ctx? s c <;> simp [h]; simp [ctx?]
@[simp] theorem ctx_updCtx_other {c d : Nat} (f : Ctx → Ctx) (s : State) (h : d ≠ c) : ctx? (updCtx c f s) d = ctx? s d := by
  unfold updCtx; cases ctx? s c <;> simp [ctx?, h]
@[simp] theorem job_updJob_same (j : Nat) (f : Job → Job) (s : State) : job? (updJob j f s) j = (job? s j).map f := by
  unfold updJob; cases h : job? s j <;> simp [h]; simp [job?]
@[simp] theorem job_updJob_other {j k : Nat} (f : Job → Job) (s : State) (h : k ≠ j) : job? (updJob j f s) k = job? s k := by
  unfold updJob; cases job? s j <;> simp [job?, h]

/-! ### A command that does nothing where its event cannot occur -/

@[simp] theorem onlyIf_true {c : Bool} (g : State → State) (s : State) (h : c = true) : onlyIf c g s = .next (g s) := by
  simp [onlyIf, h]
@[simp] theorem onlyIf_false {c : Bool} (g : State → State) (s : State) (h : c = false) : onlyIf c g s = .next s := by
  simp [onlyIf, h]

end Sys2Proof.Machine
end

