-- ==== Sys2Proof/Laws/Events.lean ====
section
/-! SUPPORT. What posting a write, sending a vector, raising an event and posting a fault leave as it was, field by field, and what they set. -/

namespace Sys2Proof.Machine

/-! ### postWrite -/

@[simp] theorem postWrite_pending (w : HostWrite) (s : State) : (postWrite w s).pending = s.pending := by simp only [postWrite, enterWrite]; (repeat' split) <;> rfl
@[simp] theorem postWrite_aon (w : HostWrite) (s : State) : (postWrite w s).aon = s.aon := by simp only [postWrite, enterWrite]; (repeat' split) <;> rfl
@[simp] theorem postWrite_pins (w : HostWrite) (s : State) : (postWrite w s).pins = s.pins := by simp only [postWrite, enterWrite]; (repeat' split) <;> rfl
@[simp] theorem postWrite_ptns (w : HostWrite) (s : State) : (postWrite w s).ptns = s.ptns := by simp only [postWrite, enterWrite]; (repeat' split) <;> rfl
@[simp] theorem postWrite_jobs (w : HostWrite) (s : State) : (postWrite w s).jobs = s.jobs := by simp only [postWrite, enterWrite]; (repeat' split) <;> rfl
@[simp] theorem postWrite_ctxs (w : HostWrite) (s : State) : (postWrite w s).ctxs = s.ctxs := by simp only [postWrite, enterWrite]; (repeat' split) <;> rfl
@[simp] theorem postWrite_colls (w : HostWrite) (s : State) : (postWrite w s).colls = s.colls := by simp only [postWrite, enterWrite]; (repeat' split) <;> rfl
@[simp] theorem postWrite_cmds (w : HostWrite) (s : State) : (postWrite w s).cmds = s.cmds := by simp only [postWrite, enterWrite]; (repeat' split) <;> rfl
@[simp] theorem postWrite_nextCmd (w : HostWrite) (s : State) : (postWrite w s).nextCmd = s.nextCmd := by simp only [postWrite, enterWrite]; (repeat' split) <;> rfl
@[simp] theorem postWrite_hearth (w : HostWrite) (s : State) : (postWrite w s).hearth = s.hearth := by simp only [postWrite, enterWrite]; (repeat' split) <;> rfl
@[simp] theorem postWrite_hearthUp (w : HostWrite) (s : State) : (postWrite w s).hearthUp = s.hearthUp := by simp only [postWrite, enterWrite]; (repeat' split) <;> rfl
@[simp] theorem postWrite_faults (w : HostWrite) (s : State) : (postWrite w s).faults = s.faults := by simp only [postWrite, enterWrite]; (repeat' split) <;> rfl
@[simp] theorem postWrite_levels (w : HostWrite) (s : State) : (postWrite w s).levels = s.levels := by simp only [postWrite, enterWrite]; (repeat' split) <;> rfl
@[simp] theorem postWrite_seamTok (w : HostWrite) (s : State) : (postWrite w s).seamTok = s.seamTok := by simp only [postWrite, enterWrite]; (repeat' split) <;> rfl
@[simp] theorem postWrite_icern (w : HostWrite) (s : State) : (postWrite w s).icern = s.icern := by simp only [postWrite, enterWrite]; (repeat' split) <;> rfl
@[simp] theorem postWrite_power (w : HostWrite) (s : State) : (postWrite w s).power = s.power := by simp only [postWrite, enterWrite]; (repeat' split) <;> rfl
@[simp] theorem postWrite_jtag (w : HostWrite) (s : State) : (postWrite w s).jtag = s.jtag := by simp only [postWrite, enterWrite]; (repeat' split) <;> rfl
@[simp] theorem postWrite_hbm (w : HostWrite) (s : State) : (postWrite w s).hbm = s.hbm := by simp only [postWrite, enterWrite]; (repeat' split) <;> rfl
@[simp] theorem postWrite_poison (w : HostWrite) (s : State) : (postWrite w s).poison = s.poison := by simp only [postWrite, enterWrite]; (repeat' split) <;> rfl
@[simp] theorem postWrite_free (w : HostWrite) (s : State) : (postWrite w s).free = s.free := by simp only [postWrite, enterWrite]; (repeat' split) <;> rfl
@[simp] theorem postWrite_host_link (w : HostWrite) (s : State) : (postWrite w s).host.link = s.host.link := by simp only [postWrite, enterWrite]; (repeat' split) <;> rfl
@[simp] theorem postWrite_host_evtPend (w : HostWrite) (s : State) : (postWrite w s).host.evtPend = s.host.evtPend := by simp only [postWrite, enterWrite]; (repeat' split) <;> rfl
@[simp] theorem postWrite_host_evtMask (w : HostWrite) (s : State) : (postWrite w s).host.evtMask = s.host.evtMask := by simp only [postWrite, enterWrite]; (repeat' split) <;> rfl
@[simp] theorem postWrite_host_evtCnt (w : HostWrite) (s : State) : (postWrite w s).host.evtCnt = s.host.evtCnt := by simp only [postWrite, enterWrite]; (repeat' split) <;> rfl
@[simp] theorem postWrite_host_vecs (w : HostWrite) (s : State) : (postWrite w s).host.vecs = s.host.vecs := by simp only [postWrite, enterWrite]; (repeat' split) <;> rfl
@[simp] theorem postWrite_host_rings (w : HostWrite) (s : State) : (postWrite w s).host.rings = s.host.rings := by simp only [postWrite, enterWrite]; (repeat' split) <;> rfl
@[simp] theorem postWrite_host_apertures (w : HostWrite) (s : State) : (postWrite w s).host.apertures = s.host.apertures := by simp only [postWrite, enterWrite]; (repeat' split) <;> rfl
@[simp] theorem postWrite_host_granules (w : HostWrite) (s : State) : (postWrite w s).host.granules = s.host.granules := by simp only [postWrite, enterWrite]; (repeat' split) <;> rfl
@[simp] theorem postWrite_host_memWaits (w : HostWrite) (s : State) : (postWrite w s).host.memWaits = s.host.memWaits := by simp only [postWrite, enterWrite]; (repeat' split) <;> rfl
@[simp] theorem postWrite_host_seniorSeq (w : HostWrite) (s : State) : (postWrite w s).host.seniorSeq = s.host.seniorSeq := by simp only [postWrite, enterWrite]; (repeat' split) <;> rfl
@[simp] theorem postWrite_host_answer (w : HostWrite) (s : State) : (postWrite w s).host.answer = s.host.answer := by simp only [postWrite, enterWrite]; (repeat' split) <;> rfl

/-! ### sendVec -/

@[simp] theorem sendVec_pending (v : Nat) (s : State) : (sendVec v s).pending = s.pending := by unfold sendVec; split <;> simp [updVec]
@[simp] theorem sendVec_aon (v : Nat) (s : State) : (sendVec v s).aon = s.aon := by unfold sendVec; split <;> simp [updVec]
@[simp] theorem sendVec_pins (v : Nat) (s : State) : (sendVec v s).pins = s.pins := by unfold sendVec; split <;> simp [updVec]
@[simp] theorem sendVec_ptns (v : Nat) (s : State) : (sendVec v s).ptns = s.ptns := by unfold sendVec; split <;> simp [updVec]
@[simp] theorem sendVec_jobs (v : Nat) (s : State) : (sendVec v s).jobs = s.jobs := by unfold sendVec; split <;> simp [updVec]
@[simp] theorem sendVec_ctxs (v : Nat) (s : State) : (sendVec v s).ctxs = s.ctxs := by unfold sendVec; split <;> simp [updVec]
@[simp] theorem sendVec_colls (v : Nat) (s : State) : (sendVec v s).colls = s.colls := by unfold sendVec; split <;> simp [updVec]
@[simp] theorem sendVec_cmds (v : Nat) (s : State) : (sendVec v s).cmds = s.cmds := by unfold sendVec; split <;> simp [updVec]
@[simp] theorem sendVec_nextCmd (v : Nat) (s : State) : (sendVec v s).nextCmd = s.nextCmd := by unfold sendVec; split <;> simp [updVec]
@[simp] theorem sendVec_hearth (v : Nat) (s : State) : (sendVec v s).hearth = s.hearth := by unfold sendVec; split <;> simp [updVec]
@[simp] theorem sendVec_hearthUp (v : Nat) (s : State) : (sendVec v s).hearthUp = s.hearthUp := by unfold sendVec; split <;> simp [updVec]
@[simp] theorem sendVec_faults (v : Nat) (s : State) : (sendVec v s).faults = s.faults := by unfold sendVec; split <;> simp [updVec]
@[simp] theorem sendVec_levels (v : Nat) (s : State) : (sendVec v s).levels = s.levels := by unfold sendVec; split <;> simp [updVec]
@[simp] theorem sendVec_seamTok (v : Nat) (s : State) : (sendVec v s).seamTok = s.seamTok := by unfold sendVec; split <;> simp [updVec]
@[simp] theorem sendVec_icern (v : Nat) (s : State) : (sendVec v s).icern = s.icern := by unfold sendVec; split <;> simp [updVec]
@[simp] theorem sendVec_power (v : Nat) (s : State) : (sendVec v s).power = s.power := by unfold sendVec; split <;> simp [updVec]
@[simp] theorem sendVec_jtag (v : Nat) (s : State) : (sendVec v s).jtag = s.jtag := by unfold sendVec; split <;> simp [updVec]
@[simp] theorem sendVec_hbm (v : Nat) (s : State) : (sendVec v s).hbm = s.hbm := by unfold sendVec; split <;> simp [updVec]
@[simp] theorem sendVec_poison (v : Nat) (s : State) : (sendVec v s).poison = s.poison := by unfold sendVec; split <;> simp [updVec]
@[simp] theorem sendVec_free (v : Nat) (s : State) : (sendVec v s).free = s.free := by unfold sendVec; split <;> simp [updVec]
@[simp] theorem sendVec_host_link (v : Nat) (s : State) : (sendVec v s).host.link = s.host.link := by unfold sendVec; split <;> simp [updVec]
@[simp] theorem sendVec_host_evtPend (v : Nat) (s : State) : (sendVec v s).host.evtPend = s.host.evtPend := by unfold sendVec; split <;> simp [updVec]
@[simp] theorem sendVec_host_evtMask (v : Nat) (s : State) : (sendVec v s).host.evtMask = s.host.evtMask := by unfold sendVec; split <;> simp [updVec]
@[simp] theorem sendVec_host_evtCnt (v : Nat) (s : State) : (sendVec v s).host.evtCnt = s.host.evtCnt := by unfold sendVec; split <;> simp [updVec]
@[simp] theorem sendVec_host_rings (v : Nat) (s : State) : (sendVec v s).host.rings = s.host.rings := by unfold sendVec; split <;> simp [updVec]
@[simp] theorem sendVec_host_apertures (v : Nat) (s : State) : (sendVec v s).host.apertures = s.host.apertures := by unfold sendVec; split <;> simp [updVec]
@[simp] theorem sendVec_host_pools (v : Nat) (s : State) : (sendVec v s).host.pools = s.host.pools := by
  simp only [sendVec, postWrite, enterWrite]; (repeat' split) <;> rfl
@[simp] theorem sendVec_host_granules (v : Nat) (s : State) : (sendVec v s).host.granules = s.host.granules := by unfold sendVec; split <;> simp [updVec]
@[simp] theorem sendVec_host_memWaits (v : Nat) (s : State) : (sendVec v s).host.memWaits = s.host.memWaits := by unfold sendVec; split <;> simp [updVec]
@[simp] theorem sendVec_host_seniorSeq (v : Nat) (s : State) : (sendVec v s).host.seniorSeq = s.host.seniorSeq := by unfold sendVec; split <;> simp [updVec]
@[simp] theorem sendVec_host_answer (v : Nat) (s : State) : (sendVec v s).host.answer = s.host.answer := by unfold sendVec; split <;> simp [updVec]

/-! ### logEvent -/

@[simp] theorem logEvent_pending (b k o d : Nat) (s : State) : (logEvent b k o d s).pending = s.pending := by rfl
@[simp] theorem logEvent_aon (b k o d : Nat) (s : State) : (logEvent b k o d s).aon = s.aon := by rfl
@[simp] theorem logEvent_pins (b k o d : Nat) (s : State) : (logEvent b k o d s).pins = s.pins := by rfl
@[simp] theorem logEvent_host (b k o d : Nat) (s : State) : (logEvent b k o d s).host = s.host := by rfl
@[simp] theorem logEvent_ptns (b k o d : Nat) (s : State) : (logEvent b k o d s).ptns = s.ptns := by rfl
@[simp] theorem logEvent_jobs (b k o d : Nat) (s : State) : (logEvent b k o d s).jobs = s.jobs := by rfl
@[simp] theorem logEvent_ctxs (b k o d : Nat) (s : State) : (logEvent b k o d s).ctxs = s.ctxs := by rfl
@[simp] theorem logEvent_colls (b k o d : Nat) (s : State) : (logEvent b k o d s).colls = s.colls := by rfl
@[simp] theorem logEvent_cmds (b k o d : Nat) (s : State) : (logEvent b k o d s).cmds = s.cmds := by rfl
@[simp] theorem logEvent_nextCmd (b k o d : Nat) (s : State) : (logEvent b k o d s).nextCmd = s.nextCmd := by rfl
@[simp] theorem logEvent_hearthUp (b k o d : Nat) (s : State) : (logEvent b k o d s).hearthUp = s.hearthUp := by rfl
@[simp] theorem logEvent_faults (b k o d : Nat) (s : State) : (logEvent b k o d s).faults = s.faults := by rfl
@[simp] theorem logEvent_levels (b k o d : Nat) (s : State) : (logEvent b k o d s).levels = s.levels := by rfl
@[simp] theorem logEvent_seamTok (b k o d : Nat) (s : State) : (logEvent b k o d s).seamTok = s.seamTok := by rfl
@[simp] theorem logEvent_icern (b k o d : Nat) (s : State) : (logEvent b k o d s).icern = s.icern := by rfl
@[simp] theorem logEvent_power (b k o d : Nat) (s : State) : (logEvent b k o d s).power = s.power := by rfl
@[simp] theorem logEvent_jtag (b k o d : Nat) (s : State) : (logEvent b k o d s).jtag = s.jtag := by rfl
@[simp] theorem logEvent_hbm (b k o d : Nat) (s : State) : (logEvent b k o d s).hbm = s.hbm := by rfl
@[simp] theorem logEvent_poison (b k o d : Nat) (s : State) : (logEvent b k o d s).poison = s.poison := by rfl
@[simp] theorem logEvent_free (b k o d : Nat) (s : State) : (logEvent b k o d s).free = s.free := by rfl

/-! ### raise -/

@[simp] theorem raise_pending (e : Event) (k o d : Nat) (s : State) : (raise e k o d s).pending = s.pending := by unfold raise; simp only [logEvent_pending]; split <;> simp [updHost]
@[simp] theorem raise_aon (e : Event) (k o d : Nat) (s : State) : (raise e k o d s).aon = s.aon := by unfold raise; simp only [logEvent_aon]; split <;> simp [updHost]
@[simp] theorem raise_pins (e : Event) (k o d : Nat) (s : State) : (raise e k o d s).pins = s.pins := by unfold raise; simp only [logEvent_pins]; split <;> simp [updHost]
@[simp] theorem raise_ptns (e : Event) (k o d : Nat) (s : State) : (raise e k o d s).ptns = s.ptns := by unfold raise; simp only [logEvent_ptns]; split <;> simp [updHost]
@[simp] theorem raise_jobs (e : Event) (k o d : Nat) (s : State) : (raise e k o d s).jobs = s.jobs := by unfold raise; simp only [logEvent_jobs]; split <;> simp [updHost]
@[simp] theorem raise_ctxs (e : Event) (k o d : Nat) (s : State) : (raise e k o d s).ctxs = s.ctxs := by unfold raise; simp only [logEvent_ctxs]; split <;> simp [updHost]
@[simp] theorem raise_colls (e : Event) (k o d : Nat) (s : State) : (raise e k o d s).colls = s.colls := by unfold raise; simp only [logEvent_colls]; split <;> simp [updHost]
@[simp] theorem raise_cmds (e : Event) (k o d : Nat) (s : State) : (raise e k o d s).cmds = s.cmds := by unfold raise; simp only [logEvent_cmds]; split <;> simp [updHost]
@[simp] theorem raise_nextCmd (e : Event) (k o d : Nat) (s : State) : (raise e k o d s).nextCmd = s.nextCmd := by unfold raise; simp only [logEvent_nextCmd]; split <;> simp [updHost]
@[simp] theorem raise_hearthUp (e : Event) (k o d : Nat) (s : State) : (raise e k o d s).hearthUp = s.hearthUp := by unfold raise; simp only [logEvent_hearthUp]; split <;> simp [updHost]
@[simp] theorem raise_faults (e : Event) (k o d : Nat) (s : State) : (raise e k o d s).faults = s.faults := by unfold raise; simp only [logEvent_faults]; split <;> simp [updHost]
@[simp] theorem raise_levels (e : Event) (k o d : Nat) (s : State) : (raise e k o d s).levels = s.levels := by unfold raise; simp only [logEvent_levels]; split <;> simp [updHost]
@[simp] theorem raise_seamTok (e : Event) (k o d : Nat) (s : State) : (raise e k o d s).seamTok = s.seamTok := by unfold raise; simp only [logEvent_seamTok]; split <;> simp [updHost]
@[simp] theorem raise_icern (e : Event) (k o d : Nat) (s : State) : (raise e k o d s).icern = s.icern := by unfold raise; simp only [logEvent_icern]; split <;> simp [updHost]
@[simp] theorem raise_power (e : Event) (k o d : Nat) (s : State) : (raise e k o d s).power = s.power := by unfold raise; simp only [logEvent_power]; split <;> simp [updHost]
@[simp] theorem raise_jtag (e : Event) (k o d : Nat) (s : State) : (raise e k o d s).jtag = s.jtag := by unfold raise; simp only [logEvent_jtag]; split <;> simp [updHost]
@[simp] theorem raise_hbm (e : Event) (k o d : Nat) (s : State) : (raise e k o d s).hbm = s.hbm := by unfold raise; simp only [logEvent_hbm]; split <;> simp [updHost]
@[simp] theorem raise_poison (e : Event) (k o d : Nat) (s : State) : (raise e k o d s).poison = s.poison := by unfold raise; simp only [logEvent_poison]; split <;> simp [updHost]
@[simp] theorem raise_free (e : Event) (k o d : Nat) (s : State) : (raise e k o d s).free = s.free := by unfold raise; simp only [logEvent_free]; split <;> simp [updHost]
@[simp] theorem raise_host_link (e : Event) (k o d : Nat) (s : State) : (raise e k o d s).host.link = s.host.link := by unfold raise; simp only [logEvent_host]; split <;> simp [updHost]
@[simp] theorem raise_host_evtMask (e : Event) (k o d : Nat) (s : State) : (raise e k o d s).host.evtMask = s.host.evtMask := by unfold raise; simp only [logEvent_host]; split <;> simp [updHost]
@[simp] theorem raise_host_rings (e : Event) (k o d : Nat) (s : State) : (raise e k o d s).host.rings = s.host.rings := by unfold raise; simp only [logEvent_host]; split <;> simp [updHost]
@[simp] theorem raise_host_apertures (e : Event) (k o d : Nat) (s : State) : (raise e k o d s).host.apertures = s.host.apertures := by unfold raise; simp only [logEvent_host]; split <;> simp [updHost]
@[simp] theorem raise_host_pools (e : Event) (k o d : Nat) (s : State) : (raise e k o d s).host.pools = s.host.pools := by unfold raise; simp only [logEvent_host]; split <;> simp [updHost]
@[simp] theorem raise_host_granules (e : Event) (k o d : Nat) (s : State) : (raise e k o d s).host.granules = s.host.granules := by unfold raise; simp only [logEvent_host]; split <;> simp [updHost]
@[simp] theorem raise_host_memWaits (e : Event) (k o d : Nat) (s : State) : (raise e k o d s).host.memWaits = s.host.memWaits := by unfold raise; simp only [logEvent_host]; split <;> simp [updHost]
@[simp] theorem raise_host_seniorSeq (e : Event) (k o d : Nat) (s : State) : (raise e k o d s).host.seniorSeq = s.host.seniorSeq := by unfold raise; simp only [logEvent_host]; split <;> simp [updHost]
@[simp] theorem raise_host_answer (e : Event) (k o d : Nat) (s : State) : (raise e k o d s).host.answer = s.host.answer := by unfold raise; simp only [logEvent_host]; split <;> simp [updHost]

/-! ### postFault -/

@[simp] theorem postFault_pending (c : W32) (s : State) : (postFault c s).pending = s.pending := by simp [postFault]
@[simp] theorem postFault_pins (c : W32) (s : State) : (postFault c s).pins = s.pins := by simp [postFault]
@[simp] theorem postFault_ptns (c : W32) (s : State) : (postFault c s).ptns = s.ptns := by simp [postFault]
@[simp] theorem postFault_jobs (c : W32) (s : State) : (postFault c s).jobs = s.jobs := by simp [postFault]
@[simp] theorem postFault_ctxs (c : W32) (s : State) : (postFault c s).ctxs = s.ctxs := by simp [postFault]
@[simp] theorem postFault_colls (c : W32) (s : State) : (postFault c s).colls = s.colls := by simp [postFault]
@[simp] theorem postFault_cmds (c : W32) (s : State) : (postFault c s).cmds = s.cmds := by simp [postFault]
@[simp] theorem postFault_nextCmd (c : W32) (s : State) : (postFault c s).nextCmd = s.nextCmd := by simp [postFault]
@[simp] theorem postFault_hearthUp (c : W32) (s : State) : (postFault c s).hearthUp = s.hearthUp := by simp [postFault]
@[simp] theorem postFault_levels (c : W32) (s : State) : (postFault c s).levels = s.levels := by simp [postFault]
@[simp] theorem postFault_seamTok (c : W32) (s : State) : (postFault c s).seamTok = s.seamTok := by simp [postFault]
@[simp] theorem postFault_icern (c : W32) (s : State) : (postFault c s).icern = s.icern := by simp [postFault]
@[simp] theorem postFault_power (c : W32) (s : State) : (postFault c s).power = s.power := by simp [postFault]
@[simp] theorem postFault_jtag (c : W32) (s : State) : (postFault c s).jtag = s.jtag := by simp [postFault]
@[simp] theorem postFault_hbm (c : W32) (s : State) : (postFault c s).hbm = s.hbm := by simp [postFault]
@[simp] theorem postFault_poison (c : W32) (s : State) : (postFault c s).poison = s.poison := by simp [postFault]
@[simp] theorem postFault_free (c : W32) (s : State) : (postFault c s).free = s.free := by simp [postFault]
@[simp] theorem postFault_host_link (c : W32) (s : State) : (postFault c s).host.link = s.host.link := by simp [postFault]
@[simp] theorem postFault_host_evtMask (c : W32) (s : State) : (postFault c s).host.evtMask = s.host.evtMask := by simp [postFault]
@[simp] theorem postFault_host_rings (c : W32) (s : State) : (postFault c s).host.rings = s.host.rings := by simp [postFault]
@[simp] theorem postFault_host_apertures (c : W32) (s : State) : (postFault c s).host.apertures = s.host.apertures := by simp [postFault]
@[simp] theorem postFault_host_pools (c : W32) (s : State) : (postFault c s).host.pools = s.host.pools := by simp [postFault]
@[simp] theorem postFault_host_granules (c : W32) (s : State) : (postFault c s).host.granules = s.host.granules := by simp [postFault]
@[simp] theorem postFault_host_memWaits (c : W32) (s : State) : (postFault c s).host.memWaits = s.host.memWaits := by simp [postFault]
@[simp] theorem postFault_host_seniorSeq (c : W32) (s : State) : (postFault c s).host.seniorSeq = s.host.seniorSeq := by simp [postFault]
@[simp] theorem postFault_host_answer (c : W32) (s : State) : (postFault c s).host.answer = s.host.answer := by simp [postFault]

/-! ### ptnChange -/

@[simp] theorem ptnChange_pending (p : Nat) (s : State) : (ptnChange p s).pending = s.pending := by simp [ptnChange]
@[simp] theorem ptnChange_aon (p : Nat) (s : State) : (ptnChange p s).aon = s.aon := by simp [ptnChange]
@[simp] theorem ptnChange_pins (p : Nat) (s : State) : (ptnChange p s).pins = s.pins := by simp [ptnChange]
@[simp] theorem ptnChange_ptns (p : Nat) (s : State) : (ptnChange p s).ptns = s.ptns := by simp [ptnChange]
@[simp] theorem ptnChange_jobs (p : Nat) (s : State) : (ptnChange p s).jobs = s.jobs := by simp [ptnChange]
@[simp] theorem ptnChange_ctxs (p : Nat) (s : State) : (ptnChange p s).ctxs = s.ctxs := by simp [ptnChange]
@[simp] theorem ptnChange_colls (p : Nat) (s : State) : (ptnChange p s).colls = s.colls := by simp [ptnChange]
@[simp] theorem ptnChange_cmds (p : Nat) (s : State) : (ptnChange p s).cmds = s.cmds := by simp [ptnChange]
@[simp] theorem ptnChange_nextCmd (p : Nat) (s : State) : (ptnChange p s).nextCmd = s.nextCmd := by simp [ptnChange]
@[simp] theorem ptnChange_hearthUp (p : Nat) (s : State) : (ptnChange p s).hearthUp = s.hearthUp := by simp [ptnChange]
@[simp] theorem ptnChange_faults (p : Nat) (s : State) : (ptnChange p s).faults = s.faults := by simp [ptnChange]
@[simp] theorem ptnChange_levels (p : Nat) (s : State) : (ptnChange p s).levels = s.levels := by simp [ptnChange]
@[simp] theorem ptnChange_seamTok (p : Nat) (s : State) : (ptnChange p s).seamTok = s.seamTok := by simp [ptnChange]
@[simp] theorem ptnChange_icern (p : Nat) (s : State) : (ptnChange p s).icern = s.icern := by simp [ptnChange]
@[simp] theorem ptnChange_power (p : Nat) (s : State) : (ptnChange p s).power = s.power := by simp [ptnChange]
@[simp] theorem ptnChange_jtag (p : Nat) (s : State) : (ptnChange p s).jtag = s.jtag := by simp [ptnChange]
@[simp] theorem ptnChange_hbm (p : Nat) (s : State) : (ptnChange p s).hbm = s.hbm := by simp [ptnChange]
@[simp] theorem ptnChange_poison (p : Nat) (s : State) : (ptnChange p s).poison = s.poison := by simp [ptnChange]
@[simp] theorem ptnChange_free (p : Nat) (s : State) : (ptnChange p s).free = s.free := by simp [ptnChange]
@[simp] theorem ptnChange_host_link (p : Nat) (s : State) : (ptnChange p s).host.link = s.host.link := by simp [ptnChange]
@[simp] theorem ptnChange_host_evtMask (p : Nat) (s : State) : (ptnChange p s).host.evtMask = s.host.evtMask := by simp [ptnChange]
@[simp] theorem ptnChange_host_rings (p : Nat) (s : State) : (ptnChange p s).host.rings = s.host.rings := by simp [ptnChange]
@[simp] theorem ptnChange_host_apertures (p : Nat) (s : State) : (ptnChange p s).host.apertures = s.host.apertures := by simp [ptnChange]
@[simp] theorem ptnChange_host_pools (p : Nat) (s : State) : (ptnChange p s).host.pools = s.host.pools := by simp [ptnChange]
@[simp] theorem ptnChange_host_granules (p : Nat) (s : State) : (ptnChange p s).host.granules = s.host.granules := by simp [ptnChange]
@[simp] theorem ptnChange_host_memWaits (p : Nat) (s : State) : (ptnChange p s).host.memWaits = s.host.memWaits := by simp [ptnChange]
@[simp] theorem ptnChange_host_seniorSeq (p : Nat) (s : State) : (ptnChange p s).host.seniorSeq = s.host.seniorSeq := by simp [ptnChange]
@[simp] theorem ptnChange_host_answer (p : Nat) (s : State) : (ptnChange p s).host.answer = s.host.answer := by simp [ptnChange]

/-! ### What they set -/

/-- The bit of an event is set in EVT_PEND by an occurrence (R285, R367). -/
theorem raise_evtPend (e : Event) (k o d : Nat) (s : State) : (raise e k o d s).host.evtPend = s.host.evtPend ||| BitVec.ofNat 16 (2 ^ e.bit) := by
  unfold raise; simp only [logEvent_host]
  split
  · unfold sendVec; split
    · rfl
    · simp only [postWrite, enterWrite]; (repeat' split) <;> rfl
  · rfl
theorem bit_or (e : Event) (p : W16) : bit (p ||| BitVec.ofNat 16 (2 ^ e.bit)).toNat e.bit = true := by
  have h : (p ||| BitVec.ofNat 16 (2 ^ e.bit)).getLsbD e.bit = true := by
    cases e <;> simp [Event.bit]
  rw [BitVec.getLsbD, Nat.testBit_eq_decide_div_mod_eq] at h
  simpa [bit] using h
theorem raise_pending_bit (e : Event) (k o d : Nat) (s : State) : bit (raise e k o d s).host.evtPend.toNat e.bit = true := by
  rw [raise_evtPend]; exact bit_or e _
/-- The counter of an event counts the occurrence (R367). -/
theorem raise_evtCnt (e : Event) (k o d : Nat) (s : State) : evtCount (raise e k o d s) e.bit = evtCount s e.bit + 1 := by
  unfold raise evtCount; simp only [logEvent_host]
  split
  · unfold sendVec; split
    · simp [updVec, updHost, evtCount]
    · simp only [postWrite, enterWrite]; (repeat' split) <;> simp [updHost, evtCount]
  · simp [updHost, evtCount]
/-- An occurrence changes the host side and the Hearth's log only. -/
theorem raise_frame (e : Event) (k o d : Nat) (s : State) : { raise e k o d s with host := s.host, hearth := s.hearth } = s := by
  simp
theorem sendVec_frame (v : Nat) (s : State) : { sendVec v s with host := s.host } = s := by simp
theorem postFault_frame (c : W32) (s : State) :
    { postFault c s with aon := s.aon, host := s.host, hearth := s.hearth, faults := s.faults } = s := by simp
/-- A posted fault is the newest of the codes kept (R349). -/
theorem postFault_aon (c : W32) (s : State) : (postFault c s).aon = { s.aon with total := s.aon.total + 1, codes := (c :: s.aon.codes).take 16 } := by
  simp [postFault, updAon]
theorem postFault_faults (c : W32) (s : State) : (postFault c s).faults = satInc s.faults := by simp [postFault]

end Sys2Proof.Machine
end

