-- ==== Sys2Proof/Laws/Keeps.lean ====
section
/-! SUPPORT. What every operation of the block keeps: the waiting commands, a legal TAP, memory in canonical form, and that a free choice
is never used twice. One lemma per operation; `Goes` says it of a command's meaning, and that it answers a next state. -/

namespace Sys2Proof.Machine

/-- From s to t the queue stays, the TAP stays legal, the stacks' memory stays canonical, free choices are only used up, and every part that
m does not list is as it was. -/
structure Keeps (m : List Part) (s t : State) : Prop where
  pending : t.pending = s.pending
  tap : tapOk s.jtag = true → tapOk t.jtag = true
  hbm : Memory.wf s.hbm = true → Memory.wf t.hbm = true
  free : s.free ≤ t.free
  only : ∀ p, p ∉ m → unchanged p s t

theorem Keeps.refl (m : List Part) (s : State) : Keeps m s s := ⟨rfl, id, id, Nat.le_refl _, fun p _ => by cases p <;> rfl⟩

/-! A part that m does not list is as it was. -/

theorem Keeps.same_aon {m : List Part} {s t : State} (k : Keeps m s t) (h : Part.aon ∉ m := by decide) : t.aon = s.aon := k.only .aon h
theorem Keeps.same_pins {m : List Part} {s t : State} (k : Keeps m s t) (h : Part.pins ∉ m := by decide) : t.pins = s.pins := k.only .pins h
theorem Keeps.same_host {m : List Part} {s t : State} (k : Keeps m s t) (h : Part.host ∉ m := by decide) : t.host = s.host := k.only .host h
theorem Keeps.same_ptns {m : List Part} {s t : State} (k : Keeps m s t) (h : Part.ptns ∉ m := by decide) : t.ptns = s.ptns := k.only .ptns h
theorem Keeps.same_jobs {m : List Part} {s t : State} (k : Keeps m s t) (h : Part.jobs ∉ m := by decide) : t.jobs = s.jobs := k.only .jobs h
theorem Keeps.same_ctxs {m : List Part} {s t : State} (k : Keeps m s t) (h : Part.ctxs ∉ m := by decide) : t.ctxs = s.ctxs := k.only .ctxs h
theorem Keeps.same_colls {m : List Part} {s t : State} (k : Keeps m s t) (h : Part.colls ∉ m := by decide) : t.colls = s.colls := k.only .colls h
theorem Keeps.same_cmds {m : List Part} {s t : State} (k : Keeps m s t) (h : Part.cmds ∉ m := by decide) : t.cmds = s.cmds := k.only .cmds h
theorem Keeps.same_nextCmd {m : List Part} {s t : State} (k : Keeps m s t) (h : Part.nextCmd ∉ m := by decide) : t.nextCmd = s.nextCmd := k.only .nextCmd h
theorem Keeps.same_hearth {m : List Part} {s t : State} (k : Keeps m s t) (h : Part.hearth ∉ m := by decide) : t.hearth = s.hearth := k.only .hearth h
theorem Keeps.same_hearthUp {m : List Part} {s t : State} (k : Keeps m s t) (h : Part.hearthUp ∉ m := by decide) : t.hearthUp = s.hearthUp := k.only .hearthUp h
theorem Keeps.same_faults {m : List Part} {s t : State} (k : Keeps m s t) (h : Part.faults ∉ m := by decide) : t.faults = s.faults := k.only .faults h
theorem Keeps.same_levels {m : List Part} {s t : State} (k : Keeps m s t) (h : Part.levels ∉ m := by decide) : t.levels = s.levels := k.only .levels h
theorem Keeps.same_seamTok {m : List Part} {s t : State} (k : Keeps m s t) (h : Part.seamTok ∉ m := by decide) : t.seamTok = s.seamTok := k.only .seamTok h
theorem Keeps.same_icern {m : List Part} {s t : State} (k : Keeps m s t) (h : Part.icern ∉ m := by decide) : t.icern = s.icern := k.only .icern h
theorem Keeps.same_power {m : List Part} {s t : State} (k : Keeps m s t) (h : Part.power ∉ m := by decide) : t.power = s.power := k.only .power h
theorem Keeps.same_jtag {m : List Part} {s t : State} (k : Keeps m s t) (h : Part.jtag ∉ m := by decide) : t.jtag = s.jtag := k.only .jtag h
theorem Keeps.same_hbm {m : List Part} {s t : State} (k : Keeps m s t) (h : Part.hbm ∉ m := by decide) : t.hbm = s.hbm := k.only .hbm h
theorem Keeps.same_poison {m : List Part} {s t : State} (k : Keeps m s t) (h : Part.poison ∉ m := by decide) : t.poison = s.poison := k.only .poison h
theorem Keeps.same_free {m : List Part} {s t : State} (k : Keeps m s t) (h : Part.free ∉ m := by decide) : t.free = s.free := k.only .free h

/-- The parts of one list are parts of another. -/
def Within (a m : List Part) : Prop := ∀ p ∈ a, p ∈ m
theorem Within.nil (m : List Part) : Within [] m := fun _ h => nomatch h
theorem Within.of {a b m : List Part} (h : Within b m) (w : ∀ p ∈ a, p ∈ b) : Within a m := fun p hp => h p (w p hp)

/-- A meaning answers a next state that keeps s. -/
structure Goes (m : List Part) (s : State) (o : Host.Outcome State Fault Refusal) : Prop where
  get : ∃ t, o = .next t ∧ Keeps m s t

theorem goes_next {m : List Part} {s t : State} (h : Keeps m s t) : Goes m s (.next t) := ⟨t, rfl, h⟩
theorem goes_onlyIf {m : List Part} {s t : State} {c : Bool} {g : State → State} (h : Keeps m s t) (hg : ∀ u, Keeps m s u → Keeps m s (g u)) :
    Goes m s (onlyIf c g t) := by
  unfold onlyIf; cases c
  · exact goes_next h
  · exact goes_next (hg t h)

theorem k_set_aon {m : List Part} (hm : Within [.aon] m) {s t : State} {v0 : _} :
    Keeps m s (State.mk t.pending v0 t.pins t.host t.ptns t.jobs t.ctxs t.colls t.cmds t.nextCmd t.hearth t.hearthUp t.faults t.levels t.seamTok t.icern t.power t.jtag t.hbm t.poison t.free) ↔ Keeps m s t := by
  constructor <;> intro w <;> refine ⟨w.1, w.2, w.3, w.4, fun p hp => ?_⟩ <;> (have := w.5 p hp; cases p <;> first | exact this | exact absurd (hm _ (by decide)) hp)

theorem k_set_aon_pins {m : List Part} (hm : Within [.aon, .pins] m) {s t : State} {v0 v1 : _} :
    Keeps m s (State.mk t.pending v0 v1 t.host t.ptns t.jobs t.ctxs t.colls t.cmds t.nextCmd t.hearth t.hearthUp t.faults t.levels t.seamTok t.icern t.power t.jtag t.hbm t.poison t.free) ↔ Keeps m s t := by
  constructor <;> intro w <;> refine ⟨w.1, w.2, w.3, w.4, fun p hp => ?_⟩ <;> (have := w.5 p hp; cases p <;> first | exact this | exact absurd (hm _ (by decide)) hp)

theorem k_set_cmds {m : List Part} (hm : Within [.cmds] m) {s t : State} {v0 : _} :
    Keeps m s (State.mk t.pending t.aon t.pins t.host t.ptns t.jobs t.ctxs t.colls v0 t.nextCmd t.hearth t.hearthUp t.faults t.levels t.seamTok t.icern t.power t.jtag t.hbm t.poison t.free) ↔ Keeps m s t := by
  constructor <;> intro w <;> refine ⟨w.1, w.2, w.3, w.4, fun p hp => ?_⟩ <;> (have := w.5 p hp; cases p <;> first | exact this | exact absurd (hm _ (by decide)) hp)

theorem k_set_colls {m : List Part} (hm : Within [.colls] m) {s t : State} {v0 : _} :
    Keeps m s (State.mk t.pending t.aon t.pins t.host t.ptns t.jobs t.ctxs v0 t.cmds t.nextCmd t.hearth t.hearthUp t.faults t.levels t.seamTok t.icern t.power t.jtag t.hbm t.poison t.free) ↔ Keeps m s t := by
  constructor <;> intro w <;> refine ⟨w.1, w.2, w.3, w.4, fun p hp => ?_⟩ <;> (have := w.5 p hp; cases p <;> first | exact this | exact absurd (hm _ (by decide)) hp)

theorem k_set_ctxs {m : List Part} (hm : Within [.ctxs] m) {s t : State} {v0 : _} :
    Keeps m s (State.mk t.pending t.aon t.pins t.host t.ptns t.jobs v0 t.colls t.cmds t.nextCmd t.hearth t.hearthUp t.faults t.levels t.seamTok t.icern t.power t.jtag t.hbm t.poison t.free) ↔ Keeps m s t := by
  constructor <;> intro w <;> refine ⟨w.1, w.2, w.3, w.4, fun p hp => ?_⟩ <;> (have := w.5 p hp; cases p <;> first | exact this | exact absurd (hm _ (by decide)) hp)

theorem k_set_faults {m : List Part} (hm : Within [.faults] m) {s t : State} {v0 : _} :
    Keeps m s (State.mk t.pending t.aon t.pins t.host t.ptns t.jobs t.ctxs t.colls t.cmds t.nextCmd t.hearth t.hearthUp v0 t.levels t.seamTok t.icern t.power t.jtag t.hbm t.poison t.free) ↔ Keeps m s t := by
  constructor <;> intro w <;> refine ⟨w.1, w.2, w.3, w.4, fun p hp => ?_⟩ <;> (have := w.5 p hp; cases p <;> first | exact this | exact absurd (hm _ (by decide)) hp)

theorem k_set_hearth {m : List Part} (hm : Within [.hearth] m) {s t : State} {v0 : _} :
    Keeps m s (State.mk t.pending t.aon t.pins t.host t.ptns t.jobs t.ctxs t.colls t.cmds t.nextCmd v0 t.hearthUp t.faults t.levels t.seamTok t.icern t.power t.jtag t.hbm t.poison t.free) ↔ Keeps m s t := by
  constructor <;> intro w <;> refine ⟨w.1, w.2, w.3, w.4, fun p hp => ?_⟩ <;> (have := w.5 p hp; cases p <;> first | exact this | exact absurd (hm _ (by decide)) hp)

theorem k_set_hearthUp {m : List Part} (hm : Within [.hearthUp] m) {s t : State} {v0 : _} :
    Keeps m s (State.mk t.pending t.aon t.pins t.host t.ptns t.jobs t.ctxs t.colls t.cmds t.nextCmd t.hearth v0 t.faults t.levels t.seamTok t.icern t.power t.jtag t.hbm t.poison t.free) ↔ Keeps m s t := by
  constructor <;> intro w <;> refine ⟨w.1, w.2, w.3, w.4, fun p hp => ?_⟩ <;> (have := w.5 p hp; cases p <;> first | exact this | exact absurd (hm _ (by decide)) hp)

theorem k_set_hearthUp_levels {m : List Part} (hm : Within [.hearthUp, .levels] m) {s t : State} {v0 v1 : _} :
    Keeps m s (State.mk t.pending t.aon t.pins t.host t.ptns t.jobs t.ctxs t.colls t.cmds t.nextCmd t.hearth v0 t.faults v1 t.seamTok t.icern t.power t.jtag t.hbm t.poison t.free) ↔ Keeps m s t := by
  constructor <;> intro w <;> refine ⟨w.1, w.2, w.3, w.4, fun p hp => ?_⟩ <;> (have := w.5 p hp; cases p <;> first | exact this | exact absurd (hm _ (by decide)) hp)

theorem k_set_host {m : List Part} (hm : Within [.host] m) {s t : State} {v0 : _} :
    Keeps m s (State.mk t.pending t.aon t.pins v0 t.ptns t.jobs t.ctxs t.colls t.cmds t.nextCmd t.hearth t.hearthUp t.faults t.levels t.seamTok t.icern t.power t.jtag t.hbm t.poison t.free) ↔ Keeps m s t := by
  constructor <;> intro w <;> refine ⟨w.1, w.2, w.3, w.4, fun p hp => ?_⟩ <;> (have := w.5 p hp; cases p <;> first | exact this | exact absurd (hm _ (by decide)) hp)

theorem k_set_icern {m : List Part} (hm : Within [.icern] m) {s t : State} {v0 : _} :
    Keeps m s (State.mk t.pending t.aon t.pins t.host t.ptns t.jobs t.ctxs t.colls t.cmds t.nextCmd t.hearth t.hearthUp t.faults t.levels t.seamTok v0 t.power t.jtag t.hbm t.poison t.free) ↔ Keeps m s t := by
  constructor <;> intro w <;> refine ⟨w.1, w.2, w.3, w.4, fun p hp => ?_⟩ <;> (have := w.5 p hp; cases p <;> first | exact this | exact absurd (hm _ (by decide)) hp)

theorem k_set_jobs {m : List Part} (hm : Within [.jobs] m) {s t : State} {v0 : _} :
    Keeps m s (State.mk t.pending t.aon t.pins t.host t.ptns v0 t.ctxs t.colls t.cmds t.nextCmd t.hearth t.hearthUp t.faults t.levels t.seamTok t.icern t.power t.jtag t.hbm t.poison t.free) ↔ Keeps m s t := by
  constructor <;> intro w <;> refine ⟨w.1, w.2, w.3, w.4, fun p hp => ?_⟩ <;> (have := w.5 p hp; cases p <;> first | exact this | exact absurd (hm _ (by decide)) hp)

theorem k_set_jobs_colls_cmds {m : List Part} (hm : Within [.jobs, .colls, .cmds] m) {s t : State} {v0 v1 v2 : _} :
    Keeps m s (State.mk t.pending t.aon t.pins t.host t.ptns v0 t.ctxs v1 v2 t.nextCmd t.hearth t.hearthUp t.faults t.levels t.seamTok t.icern t.power t.jtag t.hbm t.poison t.free) ↔ Keeps m s t := by
  constructor <;> intro w <;> refine ⟨w.1, w.2, w.3, w.4, fun p hp => ?_⟩ <;> (have := w.5 p hp; cases p <;> first | exact this | exact absurd (hm _ (by decide)) hp)

theorem k_set_levels {m : List Part} (hm : Within [.levels] m) {s t : State} {v0 : _} :
    Keeps m s (State.mk t.pending t.aon t.pins t.host t.ptns t.jobs t.ctxs t.colls t.cmds t.nextCmd t.hearth t.hearthUp t.faults v0 t.seamTok t.icern t.power t.jtag t.hbm t.poison t.free) ↔ Keeps m s t := by
  constructor <;> intro w <;> refine ⟨w.1, w.2, w.3, w.4, fun p hp => ?_⟩ <;> (have := w.5 p hp; cases p <;> first | exact this | exact absurd (hm _ (by decide)) hp)

theorem k_set_nextCmd {m : List Part} (hm : Within [.nextCmd] m) {s t : State} {v0 : _} :
    Keeps m s (State.mk t.pending t.aon t.pins t.host t.ptns t.jobs t.ctxs t.colls t.cmds v0 t.hearth t.hearthUp t.faults t.levels t.seamTok t.icern t.power t.jtag t.hbm t.poison t.free) ↔ Keeps m s t := by
  constructor <;> intro w <;> refine ⟨w.1, w.2, w.3, w.4, fun p hp => ?_⟩ <;> (have := w.5 p hp; cases p <;> first | exact this | exact absurd (hm _ (by decide)) hp)

theorem k_set_pins {m : List Part} (hm : Within [.pins] m) {s t : State} {v0 : _} :
    Keeps m s (State.mk t.pending t.aon v0 t.host t.ptns t.jobs t.ctxs t.colls t.cmds t.nextCmd t.hearth t.hearthUp t.faults t.levels t.seamTok t.icern t.power t.jtag t.hbm t.poison t.free) ↔ Keeps m s t := by
  constructor <;> intro w <;> refine ⟨w.1, w.2, w.3, w.4, fun p hp => ?_⟩ <;> (have := w.5 p hp; cases p <;> first | exact this | exact absurd (hm _ (by decide)) hp)

theorem k_set_poison {m : List Part} (hm : Within [.poison] m) {s t : State} {v0 : _} :
    Keeps m s (State.mk t.pending t.aon t.pins t.host t.ptns t.jobs t.ctxs t.colls t.cmds t.nextCmd t.hearth t.hearthUp t.faults t.levels t.seamTok t.icern t.power t.jtag t.hbm v0 t.free) ↔ Keeps m s t := by
  constructor <;> intro w <;> refine ⟨w.1, w.2, w.3, w.4, fun p hp => ?_⟩ <;> (have := w.5 p hp; cases p <;> first | exact this | exact absurd (hm _ (by decide)) hp)

theorem k_set_power {m : List Part} (hm : Within [.power] m) {s t : State} {v0 : _} :
    Keeps m s (State.mk t.pending t.aon t.pins t.host t.ptns t.jobs t.ctxs t.colls t.cmds t.nextCmd t.hearth t.hearthUp t.faults t.levels t.seamTok t.icern v0 t.jtag t.hbm t.poison t.free) ↔ Keeps m s t := by
  constructor <;> intro w <;> refine ⟨w.1, w.2, w.3, w.4, fun p hp => ?_⟩ <;> (have := w.5 p hp; cases p <;> first | exact this | exact absurd (hm _ (by decide)) hp)

theorem k_set_ptns {m : List Part} (hm : Within [.ptns] m) {s t : State} {v0 : _} :
    Keeps m s (State.mk t.pending t.aon t.pins t.host v0 t.jobs t.ctxs t.colls t.cmds t.nextCmd t.hearth t.hearthUp t.faults t.levels t.seamTok t.icern t.power t.jtag t.hbm t.poison t.free) ↔ Keeps m s t := by
  constructor <;> intro w <;> refine ⟨w.1, w.2, w.3, w.4, fun p hp => ?_⟩ <;> (have := w.5 p hp; cases p <;> first | exact this | exact absurd (hm _ (by decide)) hp)

theorem k_set_ptns_colls {m : List Part} (hm : Within [.ptns, .colls] m) {s t : State} {v0 v1 : _} :
    Keeps m s (State.mk t.pending t.aon t.pins t.host v0 t.jobs t.ctxs v1 t.cmds t.nextCmd t.hearth t.hearthUp t.faults t.levels t.seamTok t.icern t.power t.jtag t.hbm t.poison t.free) ↔ Keeps m s t := by
  constructor <;> intro w <;> refine ⟨w.1, w.2, w.3, w.4, fun p hp => ?_⟩ <;> (have := w.5 p hp; cases p <;> first | exact this | exact absurd (hm _ (by decide)) hp)

theorem k_set_ptns_ctxs_cmds {m : List Part} (hm : Within [.ptns, .ctxs, .cmds] m) {s t : State} {v0 v1 v2 : _} :
    Keeps m s (State.mk t.pending t.aon t.pins t.host v0 t.jobs v1 t.colls v2 t.nextCmd t.hearth t.hearthUp t.faults t.levels t.seamTok t.icern t.power t.jtag t.hbm t.poison t.free) ↔ Keeps m s t := by
  constructor <;> intro w <;> refine ⟨w.1, w.2, w.3, w.4, fun p hp => ?_⟩ <;> (have := w.5 p hp; cases p <;> first | exact this | exact absurd (hm _ (by decide)) hp)

theorem k_set_seamTok {m : List Part} (hm : Within [.seamTok] m) {s t : State} {v0 : _} :
    Keeps m s (State.mk t.pending t.aon t.pins t.host t.ptns t.jobs t.ctxs t.colls t.cmds t.nextCmd t.hearth t.hearthUp t.faults t.levels v0 t.icern t.power t.jtag t.hbm t.poison t.free) ↔ Keeps m s t := by
  constructor <;> intro w <;> refine ⟨w.1, w.2, w.3, w.4, fun p hp => ?_⟩ <;> (have := w.5 p hp; cases p <;> first | exact this | exact absurd (hm _ (by decide)) hp)

theorem k_foldl {m : List Part} {α : Type} {s t : State} {l : List α} {g : State → α → State} (h : Keeps m s t) (hg : ∀ u x, Keeps m s u → Keeps m s (g u x)) :
    Keeps m s (l.foldl g t) := by
  induction l generalizing t with
  | nil => exact h
  | cons x xs ih => exact ih (hg t x h)

/-- An optional state, where there is one, keeps s. -/
structure KeepsIf (m : List Part) (s : State) (o : Option State) : Prop where
  get : ∀ v, o = some v → Keeps m s v
/-- An optional result with a state, where there is one, keeps s. -/
structure KeepsWith {α : Type} (m : List Part) (s : State) (o : Option (α × State)) : Prop where
  get : ∀ a v, o = some (a, v) → Keeps m s v

theorem if_none {m : List Part} {s : State} : KeepsIf m s none := ⟨fun _ e => nomatch e⟩
theorem if_some {m : List Part} {s t : State} (h : Keeps m s t) : KeepsIf m s (some t) := ⟨fun _ e => Option.some.inj e ▸ h⟩
theorem if_get {m : List Part} {s v : State} {o : Option State} (e : o = some v) (h : KeepsIf m s o) : Keeps m s v := h.get v e
theorem if_getD {m : List Part} {s t : State} {o : Option State} (h : KeepsIf m s o) (d : Keeps m s t) : Keeps m s (o.getD t) := by
  cases o with
  | none => exact d
  | some v => exact h.get v rfl
theorem if_bind {m : List Part} {s : State} {o : Option State} {g : State → Option State} (h : KeepsIf m s o) (hg : ∀ u, Keeps m s u → KeepsIf m s (g u)) :
    KeepsIf m s (o.bind g) := by
  cases o with
  | none => exact if_none
  | some v => exact hg v (h.get v rfl)
theorem if_map {m : List Part} {α : Type} {s : State} {o : Option α} {g : α → State} (hg : ∀ x, Keeps m s (g x)) : KeepsIf m s (o.map g) := by
  cases o with
  | none => exact if_none
  | some v => exact if_some (hg v)
theorem if_mapState {m : List Part} {s : State} {o : Option State} {g : State → State} (h : KeepsIf m s o) (hg : ∀ u, Keeps m s u → Keeps m s (g u)) :
    KeepsIf m s (o.map g) := by
  cases o with
  | none => exact if_none
  | some v => exact if_some (hg v (h.get v rfl))
theorem if_bindWith {m : List Part} {α : Type} {s : State} {o : Option (α × State)} {g : α × State → Option State} (h : KeepsWith m s o)
    (hg : ∀ a u, Keeps m s u → KeepsIf m s (g (a, u))) : KeepsIf m s (o.bind g) := by
  cases o with
  | none => exact if_none
  | some v => exact hg v.1 v.2 (h.get v.1 v.2 rfl)
theorem if_mapWith {m : List Part} {α : Type} {s : State} {o : Option (α × State)} {g : α × State → State} (h : KeepsWith m s o)
    (hg : ∀ a u, Keeps m s u → Keeps m s (g (a, u))) : KeepsIf m s (o.map g) := by
  cases o with
  | none => exact if_none
  | some v => exact if_some (hg v.1 v.2 (h.get v.1 v.2 rfl))
theorem if_foldl {m : List Part} {α : Type} {s : State} {l : List α} {g : Option State → α → Option State} {o : Option State} (h : KeepsIf m s o)
    (hg : ∀ o x, KeepsIf m s o → KeepsIf m s (g o x)) : KeepsIf m s (l.foldl g o) := by
  induction l generalizing o with
  | nil => exact h
  | cons x xs ih => exact ih (hg o x h)
theorem with_none {m : List Part} {α : Type} {s : State} : KeepsWith m s (none : Option (α × State)) := ⟨fun _ _ e => nomatch e⟩
theorem with_some {m : List Part} {α : Type} {s t : State} {a : α} (h : Keeps m s t) : KeepsWith m s (some (a, t)) :=
  ⟨fun _ _ e => (Prod.mk.inj (Option.some.inj e)).2 ▸ h⟩
theorem with_get {m : List Part} {α : Type} {s v : State} {a : α} {o : Option (α × State)} (e : o = some (a, v)) (h : KeepsWith m s o) : Keeps m s v := h.get a v e
theorem with_map {m : List Part} {α β : Type} {s : State} {o : Option (α × State)} {g : α × State → β × State} (h : KeepsWith m s o)
    (hg : ∀ a u, Keeps m s u → Keeps m s (g (a, u)).2) : KeepsWith m s (o.map g) := by
  cases o with
  | none => exact with_none
  | some v => exact ⟨fun a w e => by have := hg v.1 v.2 (h.get v.1 v.2 rfl); rw [Option.some.inj e] at this; exact this⟩
theorem with_mapOpt {m : List Part} {α β : Type} {s : State} {o : Option α} {g : α → β × State} (hg : ∀ x, Keeps m s (g x).2) : KeepsWith m s (o.map g) := by
  cases o with
  | none => exact with_none
  | some v => exact ⟨fun a w e => by have := hg v; rw [Option.some.inj e] at this; exact this⟩
theorem pair_get {m : List Part} {α : Type} {s v : State} {a : α} {p : State × α} (e : p = (v, a)) (h : Keeps m s p.1) : Keeps m s v := by
  rw [e] at h; exact h
theorem pair_foldl {m : List Part} {α β : Type} {s : State} {l : List β} {g : State × α → β → State × α} {p : State × α} (h : Keeps m s p.1)
    (hg : ∀ p x, Keeps m s p.1 → Keeps m s (g p x).1) : Keeps m s (l.foldl g p).1 := by
  induction l generalizing p with
  | nil => exact h
  | cons x xs ih => exact ih (hg p x h)

/-- A handler that keeps every state. -/
structure HandlerKeeps (m : List Part) (s : State) (h : Handler) : Prop where
  keeps : ∀ (b : Nat) (q : Req) (r : ReadReply) (u : State), Keeps m s u → Keeps m s (h b q r u).1

/-- Memory and the TAP set: their own conditions apart, as any part. -/
theorem k_setHbm {m : List Part} (hm : Within [.hbm] m) {s t : State} {x : Mem} (h : Keeps m s t) (w : Memory.wf t.hbm = true → Memory.wf x = true) :
    Keeps m s { t with hbm := x } :=
  ⟨h.1, h.2, fun y => w (h.3 y), h.4, fun p hp => by
    have := h.5 p hp; cases p <;> first | exact this | exact absurd (hm _ (by decide)) hp⟩
theorem k_setTap {m : List Part} (hm : Within [.jtag] m) {s t : State} {j : Jtag} (h : Keeps m s t) (w : tapOk t.jtag = true → tapOk j = true) :
    Keeps m s { t with jtag := j } :=
  ⟨h.1, fun x => w (h.2 x), h.3, h.4, fun p hp => by
    have := h.5 p hp; cases p <;> first | exact this | exact absurd (hm _ (by decide)) hp⟩

theorem k_updPtn {m : List Part} (hm : Within [.ptns] m) (a0 : Nat) (a1 : Ptn → Ptn) {s t : State} (h : Keeps m s t) : Keeps m s (updPtn a0 a1 t) := by
  unfold updPtn
  try dsimp only
  repeat' first
    | with_reducible assumption
    | with_reducible apply k_foldl
    | simp only [k_set_ptns (hm.of (by decide))]
    | intro _
    | dsimp only
    | split

theorem k_returnChunk {m : List Part} (hm : Within [.ptns] m) (a0 : Nat) (a1 : Chunk) {s t : State} (h : Keeps m s t) : Keeps m s (returnChunk a0 a1 t) := by
  unfold returnChunk
  try dsimp only
  repeat' first
    | with_reducible assumption
    | with_reducible apply k_updPtn (hm.of (by decide))
    | with_reducible apply k_foldl
    | intro _
    | dsimp only
    | split

theorem k_updAnvil {m : List Part} (hm : Within [.ptns] m) (a0 : Nat) (a1 : Nat) (a2 : Anvil → Anvil) {s t : State} (h : Keeps m s t) : Keeps m s (updAnvil a0 a1 a2 t) := by
  unfold updAnvil
  try dsimp only
  repeat' first
    | with_reducible assumption
    | with_reducible apply k_updPtn (hm.of (by decide))
    | with_reducible apply k_foldl
    | intro _
    | dsimp only
    | split

theorem k_abandonChunk {m : List Part} (hm : Within [.ptns] m) (a0 : Nat) (a1 : Nat) (a2 : Chunk) {s t : State} (h : Keeps m s t) : Keeps m s (abandonChunk a0 a1 a2 t) := by
  unfold abandonChunk
  try dsimp only
  repeat' first
    | with_reducible assumption
    | with_reducible apply k_returnChunk (hm.of (by decide))
    | with_reducible apply k_updAnvil (hm.of (by decide))
    | with_reducible apply k_foldl
    | intro _
    | dsimp only
    | split

theorem k_updColl {m : List Part} (hm : Within [.colls] m) (a0 : Nat) (a1 : Coll → Coll) {s t : State} (h : Keeps m s t) : Keeps m s (updColl a0 a1 t) := by
  unfold updColl
  try dsimp only
  repeat' first
    | with_reducible assumption
    | with_reducible apply k_foldl
    | simp only [k_set_colls (hm.of (by decide))]
    | intro _
    | dsimp only
    | split

theorem k_updLeaf {m : List Part} (hm : Within [.colls] m) (a0 : Nat) (a1 : Nat) (a2 : Leaf → Leaf) {s t : State} (h : Keeps m s t) : Keeps m s (updLeaf a0 a1 a2 t) := by
  unfold updLeaf
  try dsimp only
  repeat' first
    | with_reducible assumption
    | with_reducible apply k_updColl (hm.of (by decide))
    | with_reducible apply k_foldl
    | intro _
    | dsimp only
    | split

theorem k_returnLent {m : List Part} (hm : Within [.ptns] m) (a0 : Nat) (a1 : Nat) {s t : State} (h : Keeps m s t) : Keeps m s (returnLent a0 a1 t) := by
  unfold returnLent
  try dsimp only
  repeat' first
    | with_reducible assumption
    | with_reducible apply k_updPtn (hm.of (by decide))
    | with_reducible apply k_foldl
    | intro _
    | dsimp only
    | split

theorem k_updCollPtn {m : List Part} (hm : Within [.colls] m) (a0 : Nat) (a1 : Nat) (a2 : CollPtn → CollPtn) {s t : State} (h : Keeps m s t) : Keeps m s (updCollPtn a0 a1 a2 t) := by
  unfold updCollPtn
  try dsimp only
  repeat' first
    | with_reducible assumption
    | with_reducible apply k_updColl (hm.of (by decide))
    | with_reducible apply k_foldl
    | intro _
    | dsimp only
    | split

theorem k_addTomb {m : List Part} (hm : Within [.colls] m) (a0 : Nat) (a1 : Nat) (a2 : Int) {s t : State} (h : Keeps m s t) : Keeps m s (addTomb a0 a1 a2 t) := by
  unfold addTomb
  try dsimp only
  repeat' first
    | with_reducible assumption
    | with_reducible apply k_updCollPtn (hm.of (by decide))
    | with_reducible apply k_foldl
    | intro _
    | dsimp only
    | split

theorem k_freeBricks {m : List Part} (hm : Within [.ptns, .colls] m) (a0 : Nat) (a1 : List Nat) {s t : State} (h : Keeps m s t) : Keeps m s (freeBricks a0 a1 t) := by
  unfold freeBricks
  try dsimp only
  repeat' first
    | with_reducible assumption
    | with_reducible apply k_addTomb (hm.of (by decide))
    | with_reducible apply k_updColl (hm.of (by decide))
    | with_reducible apply k_returnLent (hm.of (by decide))
    | with_reducible apply k_foldl
    | simp only [k_set_ptns (hm.of (by decide))]
    | intro _
    | dsimp only
    | split

theorem k_abandonTamp {m : List Part} (hm : Within [.ptns, .colls] m) (a0 : Nat) (a1 : Nat) {s t : State} (h : Keeps m s t) : Keeps m s (abandonTamp a0 a1 t) := by
  unfold abandonTamp
  try dsimp only
  repeat' first
    | with_reducible assumption
    | with_reducible apply k_updLeaf (hm.of (by decide))
    | with_reducible apply k_freeBricks (hm.of (by decide))
    | with_reducible apply k_foldl
    | intro _
    | dsimp only
    | split

theorem k_abandonTamps {m : List Part} (hm : Within [.ptns, .colls] m) (a0 : Nat) {s t : State} (h : Keeps m s t) : Keeps m s (abandonTamps a0 t) := by
  unfold abandonTamps
  try dsimp only
  repeat' first
    | with_reducible assumption
    | with_reducible apply k_abandonTamp (hm.of (by decide))
    | with_reducible apply k_foldl
    | intro _
    | dsimp only
    | split

theorem k_delCmd {m : List Part} (hm : Within [.cmds] m) (a0 : Nat) {s t : State} (h : Keeps m s t) : Keeps m s (delCmd a0 t) := by
  unfold delCmd
  try dsimp only
  repeat' first
    | with_reducible assumption
    | with_reducible apply k_foldl
    | simp only [k_set_cmds (hm.of (by decide))]
    | intro _
    | dsimp only
    | split

theorem k_updIcern {m : List Part} (hm : Within [.icern] m) (a0 : Icern → Icern) {s t : State} (h : Keeps m s t) : Keeps m s (updIcern a0 t) := by
  unfold updIcern
  try dsimp only
  repeat' first
    | with_reducible assumption
    | with_reducible apply k_foldl
    | simp only [k_set_icern (hm.of (by decide))]
    | intro _
    | dsimp only
    | split

theorem k_updPort {m : List Part} (hm : Within [.icern] m) (a0 : Nat) (a1 : Port → Port) {s t : State} (h : Keeps m s t) : Keeps m s (updPort a0 a1 t) := by
  unfold updPort
  try dsimp only
  repeat' first
    | with_reducible assumption
    | with_reducible apply k_updIcern (hm.of (by decide))
    | with_reducible apply k_foldl
    | intro _
    | dsimp only
    | split

theorem k_runPort {m : List Part} (hm : Within [.icern] m) (a0 : Nat) {s t : State} (h : Keeps m s t) : Keeps m s (runPort a0 t) := by
  unfold runPort
  try dsimp only
  repeat' first
    | with_reducible assumption
    | with_reducible apply k_updPort (hm.of (by decide))
    | with_reducible apply k_foldl
    | intro _
    | dsimp only
    | split

theorem k_queueFlits {m : List Part} (hm : Within [.icern] m) (a0 : Nat) (a1 : List TxFlit) {s t : State} (h : Keeps m s t) : Keeps m s (queueFlits a0 a1 t) := by
  unfold queueFlits
  try dsimp only
  repeat' first
    | with_reducible assumption
    | with_reducible apply k_runPort (hm.of (by decide))
    | with_reducible apply k_updPort (hm.of (by decide))
    | with_reducible apply k_foldl
    | intro _
    | dsimp only
    | split

theorem k_updAon {m : List Part} (hm : Within [.aon] m) (a0 : Aon → Aon) {s t : State} (h : Keeps m s t) : Keeps m s (updAon a0 t) := by
  unfold updAon
  try dsimp only
  repeat' first
    | with_reducible assumption
    | with_reducible apply k_foldl
    | simp only [k_set_aon (hm.of (by decide))]
    | intro _
    | dsimp only
    | split

theorem k_updHost {m : List Part} (hm : Within [.host] m) (a0 : HostIf → HostIf) {s t : State} (h : Keeps m s t) : Keeps m s (updHost a0 t) := by
  unfold updHost
  try dsimp only
  repeat' first
    | with_reducible assumption
    | with_reducible apply k_foldl
    | simp only [k_set_host (hm.of (by decide))]
    | intro _
    | dsimp only
    | split

theorem k_updVec {m : List Part} (hm : Within [.host] m) (a0 : Nat) (a1 : Vec → Vec) {s t : State} (h : Keeps m s t) : Keeps m s (updVec a0 a1 t) := by
  unfold updVec
  try dsimp only
  repeat' first
    | with_reducible assumption
    | with_reducible apply k_updHost (hm.of (by decide))
    | with_reducible apply k_foldl
    | intro _
    | dsimp only
    | split

theorem k_updHearth {m : List Part} (hm : Within [.hearth] m) (a0 : Hearth → Hearth) {s t : State} (h : Keeps m s t) : Keeps m s (updHearth a0 t) := by
  unfold updHearth
  try dsimp only
  repeat' first
    | with_reducible assumption
    | with_reducible apply k_foldl
    | simp only [k_set_hearth (hm.of (by decide))]
    | intro _
    | dsimp only
    | split

theorem k_logEvent {m : List Part} (hm : Within [.hearth] m) (a0 : Nat) (a1 : Nat) (a2 : Nat) (a3 : Nat) {s t : State} (h : Keeps m s t) : Keeps m s (logEvent a0 a1 a2 a3 t) := by
  unfold logEvent
  try dsimp only
  repeat' first
    | with_reducible assumption
    | with_reducible apply k_updHearth (hm.of (by decide))
    | with_reducible apply k_foldl
    | intro _
    | dsimp only
    | split

theorem k_freePool {m : List Part} (hm : Within [.host] m) (a0 : Hold) {s t : State} (h : Keeps m s t) : Keeps m s (freePool a0 t) := by
  unfold freePool
  try dsimp only
  repeat' first
    | with_reducible assumption
    | with_reducible apply k_updHost (hm.of (by decide))
    | with_reducible apply k_foldl
    | intro _
    | dsimp only
    | split

theorem k_freePools {m : List Part} (hm : Within [.host] m) (a0 : List Hold) {s t : State} (h : Keeps m s t) : Keeps m s (freePools a0 t) := by
  unfold freePools
  try dsimp only
  repeat' first
    | with_reducible assumption
    | with_reducible apply k_freePool (hm.of (by decide))
    | with_reducible apply k_foldl
    | intro _
    | dsimp only
    | split

theorem k_spend {m : List Part} (hm : Within [.free] m) (n : Nat) {s t : State} (h : Keeps m s t) : Keeps m s (spend n t) :=
  ⟨h.1, h.2, h.3, Nat.le_trans h.4 (Nat.le_add_right _ _), fun p hp => by
    have := h.5 p hp; cases p <;> first | exact this | exact absurd (hm _ (by decide)) hp⟩

theorem k_requeueChunk {m : List Part} (hm : Within [.ptns] m) (a0 : Cmd) (a1 : Nat) {s t : State} (h : Keeps m s t) : Keeps m s (requeueChunk a0 a1 t) := by
  unfold requeueChunk
  try dsimp only
  repeat' first
    | with_reducible assumption
    | with_reducible apply k_updPtn (hm.of (by decide))
    | with_reducible apply k_foldl
    | intro _
    | dsimp only
    | split

theorem k_setCmd {m : List Part} (hm : Within [.cmds] m) (a0 : Nat) (a1 : Cmd) {s t : State} (h : Keeps m s t) : Keeps m s (setCmd a0 a1 t) := by
  unfold setCmd
  try dsimp only
  repeat' first
    | with_reducible assumption
    | with_reducible apply k_foldl
    | simp only [k_set_cmds (hm.of (by decide))]
    | intro _
    | dsimp only
    | split

theorem k_updCmd {m : List Part} (hm : Within [.cmds] m) (a0 : Nat) (a1 : Cmd → Cmd) {s t : State} (h : Keeps m s t) : Keeps m s (updCmd a0 a1 t) := by
  unfold updCmd
  try dsimp only
  repeat' first
    | with_reducible assumption
    | with_reducible apply k_setCmd (hm.of (by decide))
    | with_reducible apply k_foldl
    | intro _
    | dsimp only
    | split

theorem k_finish {m : List Part} (hm : Within [.cmds] m) (a0 : Nat) (a1 : Status) (a2 : Nat) (a3 : W32) {s t : State} (h : Keeps m s t) : Keeps m s (finish a0 a1 a2 a3 t) := by
  unfold finish
  try dsimp only
  repeat' first
    | with_reducible assumption
    | with_reducible apply k_updCmd (hm.of (by decide))
    | with_reducible apply k_foldl
    | intro _
    | dsimp only
    | split

theorem k_journalWrite {m : List Part} (hm : Within [.host] m) (a0 : Journal) (a1 : Nat) (a2 : List Byte) {s t : State} (h : Keeps m s t) : Keeps m s (journalWrite a0 a1 a2 t) := by
  unfold journalWrite
  try dsimp only
  repeat' first
    | with_reducible assumption
    | with_reducible apply k_updHost (hm.of (by decide))
    | with_reducible apply k_foldl
    | intro _
    | dsimp only
    | split

theorem k_updCtx {m : List Part} (hm : Within [.ctxs] m) (a0 : Nat) (a1 : Ctx → Ctx) {s t : State} (h : Keeps m s t) : Keeps m s (updCtx a0 a1 t) := by
  unfold updCtx
  try dsimp only
  repeat' first
    | with_reducible assumption
    | with_reducible apply k_foldl
    | simp only [k_set_ctxs (hm.of (by decide))]
    | intro _
    | dsimp only
    | split

theorem k_updJournal {m : List Part} (hm : Within [.ctxs] m) (a0 : Nat) (a1 : Journal → Journal) {s t : State} (h : Keeps m s t) : Keeps m s (updJournal a0 a1 t) := by
  unfold updJournal
  try dsimp only
  repeat' first
    | with_reducible assumption
    | with_reducible apply k_updCtx (hm.of (by decide))
    | with_reducible apply k_foldl
    | intro _
    | dsimp only
    | split

theorem k_giveUpJournal {m : List Part} (hm : Within [.host, .ctxs] m) (a0 : Nat) (a1 : Nat) {s t : State} (h : Keeps m s t) : Keeps m s (giveUpJournal a0 a1 t) := by
  unfold giveUpJournal
  try dsimp only
  repeat' first
    | with_reducible assumption
    | with_reducible apply k_updJournal (hm.of (by decide))
    | with_reducible apply k_journalWrite (hm.of (by decide))
    | with_reducible apply k_foldl
    | intro _
    | dsimp only
    | split

theorem k_withdrawTombs {m : List Part} (hm : Within [.ptns] m) (a0 : Nat) {s t : State} (h : Keeps m s t) : Keeps m s (withdrawTombs a0 t) := by
  unfold withdrawTombs
  try dsimp only
  repeat' first
    | with_reducible assumption
    | with_reducible apply k_foldl
    | simp only [k_set_ptns (hm.of (by decide))]
    | intro _
    | dsimp only
    | split

theorem k_updBrick {m : List Part} (hm : Within [.colls] m) (a0 : Nat) (a1 : Nat) (a2 : Brick → Brick) {s t : State} (h : Keeps m s t) : Keeps m s (updBrick a0 a1 a2 t) := by
  unfold updBrick
  try dsimp only
  repeat' first
    | with_reducible assumption
    | with_reducible apply k_updColl (hm.of (by decide))
    | with_reducible apply k_foldl
    | intro _
    | dsimp only
    | split

theorem k_clearSlot {m : List Part} (hm : Within [.colls] m) (a0 : Nat) (a1 : SlotRef) {s t : State} (h : Keeps m s t) : Keeps m s (clearSlot a0 a1 t) := by
  unfold clearSlot
  try dsimp only
  repeat' first
    | with_reducible assumption
    | with_reducible apply k_updBrick (hm.of (by decide))
    | with_reducible apply k_foldl
    | intro _
    | dsimp only
    | split

theorem k_clearRec {m : List Part} (hm : Within [.colls] m) (a0 : Nat) (a1 : Rec) {s t : State} (h : Keeps m s t) : Keeps m s (clearRec a0 a1 t) := by
  unfold clearRec
  try dsimp only
  repeat' first
    | with_reducible assumption
    | with_reducible apply k_clearSlot (hm.of (by decide))
    | with_reducible apply k_foldl
    | intro _
    | dsimp only
    | split

theorem k_withdraw {m : List Part} (hm : Within [.host, .ptns, .ctxs, .colls, .cmds] m) (a0 : Nat) {s t : State} (h : Keeps m s t) : Keeps m s (withdraw a0 t) := by
  unfold withdraw
  try dsimp only
  repeat' first
    | with_reducible assumption
    | with_reducible apply k_clearRec (hm.of (by decide))
    | with_reducible apply k_giveUpJournal (hm.of (by decide))
    | with_reducible apply k_withdrawTombs (hm.of (by decide))
    | with_reducible apply k_updColl (hm.of (by decide))
    | with_reducible apply k_updCmd (hm.of (by decide))
    | with_reducible apply k_foldl
    | simp only [k_set_ptns (hm.of (by decide))]
    | intro _
    | dsimp only
    | split

theorem k_addPoison {m : List Part} (hm : Within [.poison] m) (a0 : Nat) {s t : State} (h : Keeps m s t) : Keeps m s (addPoison a0 t) := by
  unfold addPoison
  try dsimp only
  repeat' first
    | with_reducible assumption
    | with_reducible apply k_foldl
    | simp only [k_set_poison (hm.of (by decide))]
    | intro _
    | dsimp only
    | split

theorem k_dropPoison {m : List Part} (hm : Within [.poison] m) (a0 : Nat) {s t : State} (h : Keeps m s t) : Keeps m s (dropPoison a0 t) := by
  unfold dropPoison
  try dsimp only
  repeat' first
    | with_reducible assumption
    | with_reducible apply k_foldl
    | simp only [k_set_poison (hm.of (by decide))]
    | intro _
    | dsimp only
    | split

theorem k_removeEnt {m : List Part} (hm : Within [.ptns] m) (a0 : Nat) (a1 : Nat) {s t : State} (h : Keeps m s t) : Keeps m s (removeEnt a0 a1 t) := by
  unfold removeEnt
  try dsimp only
  repeat' first
    | with_reducible assumption
    | with_reducible apply k_updPtn (hm.of (by decide))
    | with_reducible apply k_foldl
    | intro _
    | dsimp only
    | split

theorem k_updLink {m : List Part} (hm : Within [.host] m) (a0 : Link → Link) {s t : State} (h : Keeps m s t) : Keeps m s (updLink a0 t) := by
  unfold updLink
  try dsimp only
  repeat' first
    | with_reducible assumption
    | with_reducible apply k_updHost (hm.of (by decide))
    | with_reducible apply k_foldl
    | intro _
    | dsimp only
    | split

theorem k_demand {m : List Part} (hm : Within [.ptns] m) (a0 : Nat) {s t : State} (h : Keeps m s t) : Keeps m s (demand a0 t) := by
  unfold demand
  try dsimp only
  repeat' first
    | with_reducible assumption
    | with_reducible apply k_updPtn (hm.of (by decide))
    | with_reducible apply k_foldl
    | intro _
    | dsimp only
    | split

theorem k_drawSeam {m : List Part} (hm : Within [.seamTok] m) (a0 : Option Nat) (a1 : Nat) (a2 : Nat) {s t : State} (h : Keeps m s t) : Keeps m s (drawSeam a0 a1 a2 t) := by
  unfold drawSeam
  try dsimp only
  repeat' first
    | with_reducible assumption
    | with_reducible apply k_foldl
    | simp only [k_set_seamTok (hm.of (by decide))]
    | intro _
    | dsimp only
    | split

theorem k_updReg {m : List Part} (hm : Within [.ptns] m) (a0 : Nat) (a1 : Reg → Reg) {s t : State} (h : Keeps m s t) : Keeps m s (updReg a0 a1 t) := by
  unfold updReg
  try dsimp only
  repeat' first
    | with_reducible assumption
    | with_reducible apply k_updPtn (hm.of (by decide))
    | with_reducible apply k_foldl
    | intro _
    | dsimp only
    | split

theorem k_answer {m : List Part} (hm : Within [.host] m) (a0 : Answer) {s t : State} (h : Keeps m s t) : Keeps m s (answer a0 t) := by
  unfold answer
  try dsimp only
  repeat' first
    | with_reducible assumption
    | with_reducible apply k_updHost (hm.of (by decide))
    | with_reducible apply k_foldl
    | intro _
    | dsimp only
    | split

theorem k_waitAccess {m : List Part} (hm : Within [.host] m) (a0 : Nat) (a1 : MemAccess) {s t : State} (h : Keeps m s t) : Keeps m s (waitAccess a0 a1 t) := by
  unfold waitAccess
  try dsimp only
  repeat' first
    | with_reducible assumption
    | with_reducible apply k_answer (hm.of (by decide))
    | with_reducible apply k_updHost (hm.of (by decide))
    | with_reducible apply k_foldl
    | intro _
    | dsimp only
    | split

theorem k_account {m : List Part} (hm : Within [.ctxs] m) (a0 : Cmd) (a1 : Nat) {s t : State} (h : Keeps m s t) : Keeps m s (account a0 a1 t) := by
  unfold account
  try dsimp only
  repeat' first
    | with_reducible assumption
    | with_reducible apply k_updCtx (hm.of (by decide))
    | with_reducible apply k_foldl
    | intro _
    | dsimp only
    | split

theorem k_tryFinish {m : List Part} (hm : Within [.cmds] m) (a0 : Nat) {s t : State} (h : Keeps m s t) : Keeps m s (tryFinish a0 t) := by
  unfold tryFinish
  try dsimp only
  repeat' first
    | with_reducible assumption
    | with_reducible apply k_updCmd (hm.of (by decide))
    | with_reducible apply k_foldl
    | intro _
    | dsimp only
    | split

theorem k_forgetDone {m : List Part} (hm : Within [.cmds] m) (a0 : Nat) {s t : State} (h : Keeps m s t) : Keeps m s (forgetDone a0 t) := by
  unfold forgetDone
  try dsimp only
  repeat' first
    | with_reducible assumption
    | with_reducible apply k_delCmd (hm.of (by decide))
    | with_reducible apply k_foldl
    | intro _
    | dsimp only
    | split

theorem k_advanceWritten {m : List Part} (hm : Within [.host, .ctxs] m) (a0 : Nat) {s t : State} (h : Keeps m s t) : Keeps m s (advanceWritten a0 t) := by
  unfold advanceWritten
  try dsimp only
  repeat' first
    | with_reducible assumption
    | with_reducible apply k_journalWrite (hm.of (by decide))
    | with_reducible apply k_updJournal (hm.of (by decide))
    | with_reducible apply k_foldl
    | intro _
    | dsimp only
    | split

theorem k_ackRecord {m : List Part} (hm : Within [.host, .ctxs, .cmds] m) (a0 : Nat) (a1 : Nat) (a2 : JRec) {s t : State} (h : Keeps m s t) : Keeps m s (ackRecord a0 a1 a2 t) := by
  unfold ackRecord
  try dsimp only
  repeat' first
    | with_reducible assumption
    | with_reducible apply k_advanceWritten (hm.of (by decide))
    | with_reducible apply k_updJournal (hm.of (by decide))
    | with_reducible apply k_forgetDone (hm.of (by decide))
    | with_reducible apply k_updCmd (hm.of (by decide))
    | with_reducible apply k_tryFinish (hm.of (by decide))
    | with_reducible apply k_foldl
    | intro _
    | dsimp only
    | split

theorem k_addCmd {m : List Part} (hm : Within [.cmds, .nextCmd] m) (a0 : Cmd) {s t : State} (h : Keeps m s t) : Keeps m s (addCmd a0 t) := by
  unfold addCmd
  try dsimp only
  repeat' first
    | with_reducible assumption
    | with_reducible apply k_setCmd (hm.of (by decide))
    | with_reducible apply k_foldl
    | simp only [k_set_nextCmd (hm.of (by decide))]
    | intro _
    | dsimp only
    | split

theorem k_addCycles {m : List Part} (hm : Within [.ptns] m) (a0 : Nat) (a1 : Nat) (a2 : Nat) {s t : State} (h : Keeps m s t) : Keeps m s (addCycles a0 a1 a2 t) := by
  unfold addCycles
  try dsimp only
  repeat' first
    | with_reducible assumption
    | with_reducible apply k_updAnvil (hm.of (by decide))
    | with_reducible apply k_foldl
    | intro _
    | dsimp only
    | split

theorem k_addLive {m : List Part} (hm : Within [.colls] m) (a0 : Nat) (a1 : Nat) (a2 : Int) {s t : State} (h : Keeps m s t) : Keeps m s (addLive a0 a1 a2 t) := by
  unfold addLive
  try dsimp only
  repeat' first
    | with_reducible assumption
    | with_reducible apply k_updCollPtn (hm.of (by decide))
    | with_reducible apply k_foldl
    | intro _
    | dsimp only
    | split

theorem k_demandAll {m : List Part} (hm : Within [.ptns] m) (a0 : List Nat) {s t : State} (h : Keeps m s t) : Keeps m s (demandAll a0 t) := by
  unfold demandAll
  try dsimp only
  repeat' first
    | with_reducible assumption
    | with_reducible apply k_demand (hm.of (by decide))
    | with_reducible apply k_foldl
    | intro _
    | dsimp only
    | split

theorem k_setRing {m : List Part} (hm : Within [.host] m) (a0 : Nat) (a1 : Ring) {s t : State} (h : Keeps m s t) : Keeps m s (setRing a0 a1 t) := by
  unfold setRing
  try dsimp only
  repeat' first
    | with_reducible assumption
    | with_reducible apply k_updHost (hm.of (by decide))
    | with_reducible apply k_foldl
    | intro _
    | dsimp only
    | split

theorem k_updRing {m : List Part} (hm : Within [.host] m) (a0 : Nat) (a1 : Ring → Ring) {s t : State} (h : Keeps m s t) : Keeps m s (updRing a0 a1 t) := by
  unfold updRing
  try dsimp only
  repeat' first
    | with_reducible assumption
    | with_reducible apply k_setRing (hm.of (by decide))
    | with_reducible apply k_foldl
    | intro _
    | dsimp only
    | split

theorem k_popHead {m : List Part} (hm : Within [.host] m) (a0 : Nat) {s t : State} (h : Keeps m s t) : Keeps m s (popHead a0 t) := by
  unfold popHead
  try dsimp only
  repeat' first
    | with_reducible assumption
    | with_reducible apply k_updRing (hm.of (by decide))
    | with_reducible apply k_foldl
    | intro _
    | dsimp only
    | split

theorem k_admitHead {m : List Part} (hm : Within [.host, .ptns, .cmds, .nextCmd] m) (a0 : Nat) (a1 : BitVec 512) (a2 : State → Cmd → Cmd) {s t : State} (h : Keeps m s t) : Keeps m s (admitHead a0 a1 a2 t) := by
  unfold admitHead
  try dsimp only
  repeat' first
    | with_reducible assumption
    | with_reducible apply k_updRing (hm.of (by decide))
    | with_reducible apply k_demandAll (hm.of (by decide))
    | with_reducible apply k_popHead (hm.of (by decide))
    | with_reducible apply k_addCmd (hm.of (by decide))
    | with_reducible apply k_foldl
    | intro _
    | dsimp only
    | split

theorem k_noteIngest {m : List Part} (hm : Within [.colls] m) (a0 : Nat) {s t : State} (h : Keeps m s t) : Keeps m s (noteIngest a0 t) := by
  unfold noteIngest
  try dsimp only
  repeat' first
    | with_reducible assumption
    | with_reducible apply k_updColl (hm.of (by decide))
    | with_reducible apply k_foldl
    | intro _
    | dsimp only
    | split

theorem k_takeSlots {m : List Part} (hm : Within [.host] m) (a0 : Nat) (a1 : Nat) {s t : State} (h : Keeps m s t) : Keeps m s (takeSlots a0 a1 t).1 := by
  unfold takeSlots
  try dsimp only
  repeat' first
    | with_reducible assumption
    | with_reducible apply k_setRing (hm.of (by decide))
    | with_reducible apply pair_foldl
    | (with_reducible apply pair_get; with_reducible assumption)
    | with_reducible apply k_foldl
    | intro _
    | dsimp only
    | split

theorem k_freeGranules {m : List Part} (hm : Within [.host] m) (a0 : Option Granules) {s t : State} (h : Keeps m s t) : Keeps m s (freeGranules a0 t) := by
  unfold freeGranules
  try dsimp only
  repeat' first
    | with_reducible assumption
    | with_reducible apply k_updHost (hm.of (by decide))
    | with_reducible apply k_foldl
    | intro _
    | dsimp only
    | split

theorem k_releaseHeld {m : List Part} (hm : Within [.host] m) (a0 : Nat) {s t : State} (h : Keeps m s t) : Keeps m s (releaseHeld a0 t) := by
  unfold releaseHeld
  try dsimp only
  repeat' first
    | with_reducible assumption
    | with_reducible apply k_updRing (hm.of (by decide))
    | with_reducible apply k_freeGranules (hm.of (by decide))
    | with_reducible apply k_freePools (hm.of (by decide))
    | with_reducible apply k_foldl
    | intro _
    | dsimp only
    | split

theorem k_takePools {m : List Part} (hm : Within [.host] m) (r : Nat) (l : List Hold) {s t : State} (h : Keeps m s t) : Keeps m s (takePools r l t).1 := by
  induction l generalizing t with
  | nil => exact h
  | cons x xs ih =>
    unfold takePools
    split
    · exact ih h
    · split
      · exact h
      · exact ih (k_updRing (hm.of (by decide)) _ _ (k_updHost (hm.of (by decide)) _ h))

theorem k_takeGranules {m : List Part} (hm : Within [.host] m) (a0 : Nat) (a1 : BitVec 512) {s t : State} (h : Keeps m s t) : Keeps m s (takeGranules a0 a1 t).1 := by
  unfold takeGranules
  try dsimp only
  repeat' first
    | with_reducible assumption
    | with_reducible apply k_updRing (hm.of (by decide))
    | with_reducible apply k_updHost (hm.of (by decide))
    | with_reducible apply pair_foldl
    | (with_reducible apply pair_get; with_reducible assumption)
    | with_reducible apply k_foldl
    | intro _
    | dsimp only
    | split

theorem k_reserve {m : List Part} (hm : Within [.host] m) (a0 : Nat) (a1 : BitVec 512) {s t : State} (h : Keeps m s t) : Keeps m s (reserve a0 a1 t).1 := by
  unfold reserve
  try dsimp only
  repeat' first
    | with_reducible assumption
    | with_reducible apply k_takeSlots (hm.of (by decide))
    | with_reducible apply k_takeGranules (hm.of (by decide))
    | with_reducible apply k_takePools (hm.of (by decide))
    | with_reducible apply pair_foldl
    | (with_reducible apply pair_get; with_reducible assumption)
    | with_reducible apply k_foldl
    | intro _
    | dsimp only
    | split

theorem k_writeRecord {m : List Part} (hm : Within [.host, .ctxs] m) (a0 : Nat) (a1 : Nat) (a2 : Nat → List Byte) {s t : State} (h : Keeps m s t) : Keeps m s (writeRecord a0 a1 a2 t) := by
  unfold writeRecord
  try dsimp only
  repeat' first
    | with_reducible assumption
    | with_reducible apply k_journalWrite (hm.of (by decide))
    | with_reducible apply k_updCtx (hm.of (by decide))
    | with_reducible apply k_updJournal (hm.of (by decide))
    | with_reducible apply k_foldl
    | intro _
    | dsimp only
    | split

theorem k_endFlush {m : List Part} (hm : Within [.host, .ctxs, .cmds] m) (a0 : Nat) (a1 : Cmd) {s t : State} (h : Keeps m s t) : Keeps m s (endFlush a0 a1 t) := by
  unfold endFlush
  try dsimp only
  repeat' first
    | with_reducible assumption
    | with_reducible apply k_updCmd (hm.of (by decide))
    | with_reducible apply k_writeRecord (hm.of (by decide))
    | with_reducible apply k_updJournal (hm.of (by decide))
    | with_reducible apply k_foldl
    | intro _
    | dsimp only
    | split

theorem k_settleOne {m : List Part} (hm : Within [.host, .ctxs, .cmds] m) (a0 : Nat) {s t : State} (h : Keeps m s t) : Keeps m s (settleOne a0 t) := by
  unfold settleOne
  try dsimp only
  repeat' first
    | with_reducible assumption
    | with_reducible apply k_updCmd (hm.of (by decide))
    | with_reducible apply k_endFlush (hm.of (by decide))
    | with_reducible apply k_foldl
    | intro _
    | dsimp only
    | split

theorem k_gainWork {m : List Part} (hm : Within [.ptns] m) (a0 : Nat) (a1 : Nat) {s t : State} (h : Keeps m s t) : Keeps m s (gainWork a0 a1 t) := by
  unfold gainWork
  try dsimp only
  repeat' first
    | with_reducible assumption
    | with_reducible apply k_updPtn (hm.of (by decide))
    | with_reducible apply k_foldl
    | intro _
    | dsimp only
    | split

theorem k_queueChunk {m : List Part} (hm : Within [.ptns] m) (a0 : Nat) (a1 : Chunk) {s t : State} (h : Keeps m s t) : Keeps m s (queueChunk a0 a1 t) := by
  unfold queueChunk
  try dsimp only
  repeat' first
    | with_reducible assumption
    | with_reducible apply k_updPtn (hm.of (by decide))
    | with_reducible apply k_gainWork (hm.of (by decide))
    | with_reducible apply k_foldl
    | intro _
    | dsimp only
    | split

theorem k_queueBatch {m : List Part} (hm : Within [.colls, .cmds] m) (a0 : Nat) {s t : State} (h : Keeps m s t) : Keeps m s (queueBatch a0 t) := by
  unfold queueBatch
  try dsimp only
  repeat' first
    | with_reducible assumption
    | with_reducible apply k_updCmd (hm.of (by decide))
    | with_reducible apply k_updColl (hm.of (by decide))
    | with_reducible apply k_foldl
    | intro _
    | dsimp only
    | split

theorem k_askFence {m : List Part} (hm : Within [.ptns] m) (a0 : Nat) (a1 : FenceFor) (a2 : List Nat) {s t : State} (h : Keeps m s t) : Keeps m s (askFence a0 a1 a2 t) := by
  unfold askFence
  try dsimp only
  repeat' first
    | with_reducible assumption
    | with_reducible apply k_updPtn (hm.of (by decide))
    | with_reducible apply k_foldl
    | intro _
    | dsimp only
    | split

theorem k_updMbx {m : List Part} (hm : Within [.hearth] m) (a0 : Nat) (a1 : Mbx → Mbx) {s t : State} (h : Keeps m s t) : Keeps m s (updMbx a0 a1 t) := by
  unfold updMbx
  try dsimp only
  repeat' first
    | with_reducible assumption
    | with_reducible apply k_updHearth (hm.of (by decide))
    | with_reducible apply k_foldl
    | intro _
    | dsimp only
    | split

theorem k_setChain {m : List Part} (hm : Within [.colls] m) (a0 : Nat) (a1 : Nat) (a2 : Option Nat) (a3 : List Nat) {s t : State} (h : Keeps m s t) : Keeps m s (setChain a0 a1 a2 a3 t) := by
  unfold setChain
  try dsimp only
  repeat' first
    | with_reducible assumption
    | with_reducible apply k_updCollPtn (hm.of (by decide))
    | with_reducible apply k_updLeaf (hm.of (by decide))
    | with_reducible apply k_foldl
    | intro _
    | dsimp only
    | split

theorem k_takeFrame {m : List Part} (hm : Within [.ptns] m) (a0 : Bool) (a1 : Nat) (a2 : Nat) {s t : State} (h : Keeps m s t) : KeepsWith m s (takeFrame a0 a1 a2 t) := by
  unfold takeFrame
  try dsimp only
  repeat' first
    | with_reducible assumption
    | with_reducible apply k_updPtn (hm.of (by decide))
    | with_reducible apply if_none
    | with_reducible apply if_some
    | with_reducible apply with_none
    | with_reducible apply with_some
    | with_reducible apply if_getD
    | with_reducible apply if_bind
    | with_reducible apply if_mapState
    | with_reducible apply if_bindWith
    | with_reducible apply if_mapWith
    | with_reducible apply if_foldl
    | with_reducible apply with_map
    | with_reducible apply if_map
    | with_reducible apply with_mapOpt
    | (with_reducible apply if_get; with_reducible assumption)
    | (with_reducible apply with_get; with_reducible assumption)
    | with_reducible apply k_foldl
    | intro _
    | dsimp only
    | split

theorem k_openBrick {m : List Part} (hm : Within [.ptns, .colls] m) (a0 : Nat) (a1 : Nat) (a2 : Option Nat) {s t : State} (h : Keeps m s t) : KeepsWith m s (openBrick a0 a1 a2 t) := by
  unfold openBrick
  try dsimp only
  repeat' first
    | with_reducible assumption
    | with_reducible apply k_takeFrame (hm.of (by decide))
    | with_reducible apply k_updBrick (hm.of (by decide))
    | with_reducible apply k_updColl (hm.of (by decide))
    | with_reducible apply k_setChain (hm.of (by decide))
    | with_reducible apply if_none
    | with_reducible apply if_some
    | with_reducible apply with_none
    | with_reducible apply with_some
    | with_reducible apply if_getD
    | with_reducible apply if_bind
    | with_reducible apply if_mapState
    | with_reducible apply if_bindWith
    | with_reducible apply if_mapWith
    | with_reducible apply if_foldl
    | with_reducible apply with_map
    | with_reducible apply if_map
    | with_reducible apply with_mapOpt
    | (with_reducible apply if_get; with_reducible assumption)
    | (with_reducible apply with_get; with_reducible assumption)
    | with_reducible apply k_foldl
    | intro _
    | dsimp only
    | split

theorem k_appendRec {m : List Part} (hm : Within [.ptns, .colls] m) (a0 : Nat) (a1 : Nat) (a2 : Option Nat) (a3 : Rec) (a4 : Nat) {s t : State} (h : Keeps m s t) : KeepsWith m s (appendRec a0 a1 a2 a3 a4 t) := by
  unfold appendRec
  try dsimp only
  repeat' first
    | with_reducible assumption
    | with_reducible apply k_openBrick (hm.of (by decide))
    | with_reducible apply k_updBrick (hm.of (by decide))
    | with_reducible apply if_none
    | with_reducible apply if_some
    | with_reducible apply with_none
    | with_reducible apply with_some
    | with_reducible apply if_getD
    | with_reducible apply if_bind
    | with_reducible apply if_mapState
    | with_reducible apply if_bindWith
    | with_reducible apply if_mapWith
    | with_reducible apply if_foldl
    | with_reducible apply with_map
    | with_reducible apply if_map
    | with_reducible apply with_mapOpt
    | (with_reducible apply if_get; with_reducible assumption)
    | (with_reducible apply with_get; with_reducible assumption)
    | with_reducible apply k_foldl
    | intro _
    | dsimp only
    | split

theorem k_widenLeaf {m : List Part} (hm : Within [.colls] m) (a0 : Nat) (a1 : Nat) (a2 : List (List Exact)) {s t : State} (h : Keeps m s t) : Keeps m s (widenLeaf a0 a1 a2 t) := by
  unfold widenLeaf
  try dsimp only
  repeat' first
    | with_reducible assumption
    | with_reducible apply k_updColl (hm.of (by decide))
    | with_reducible apply k_foldl
    | intro _
    | dsimp only
    | split

theorem k_updRow {m : List Part} (hm : Within [.cmds] m) (a0 : Nat) (a1 : Nat) (a2 : QRow → QRow) {s t : State} (h : Keeps m s t) : Keeps m s (updRow a0 a1 a2 t) := by
  unfold updRow
  try dsimp only
  repeat' first
    | with_reducible assumption
    | with_reducible apply k_updCmd (hm.of (by decide))
    | with_reducible apply k_foldl
    | intro _
    | dsimp only
    | split

theorem k_resetFunction {m : List Part} (hm : Within [.host] m) {s t : State} (h : Keeps m s t) : Keeps m s (resetFunction t) := by
  unfold resetFunction
  try dsimp only
  repeat' first
    | with_reducible assumption
    | with_reducible apply k_updHost (hm.of (by decide))
    | with_reducible apply k_foldl
    | intro _
    | dsimp only
    | split

theorem k_updPins {m : List Part} (hm : Within [.pins] m) (a0 : Pins → Pins) {s t : State} (h : Keeps m s t) : Keeps m s (updPins a0 t) := by
  unfold updPins
  try dsimp only
  repeat' first
    | with_reducible assumption
    | with_reducible apply k_foldl
    | simp only [k_set_pins (hm.of (by decide))]
    | intro _
    | dsimp only
    | split

theorem k_errorRings {m : List Part} (hm : Within [.host] m) {s t : State} (h : Keeps m s t) : Keeps m s (errorRings t) := by
  unfold errorRings
  try dsimp only
  repeat' first
    | with_reducible assumption
    | with_reducible apply k_updHost (hm.of (by decide))
    | with_reducible apply k_foldl
    | intro _
    | dsimp only
    | split

theorem k_dropWrites {m : List Part} (hm : Within [.host] m) {s t : State} (h : Keeps m s t) : Keeps m s (dropWrites t) := by
  unfold dropWrites
  try dsimp only
  repeat' first
    | with_reducible assumption
    | with_reducible apply k_freePool (hm.of (by decide))
    | with_reducible apply k_updHost (hm.of (by decide))
    | with_reducible apply k_foldl
    | intro _
    | dsimp only
    | split

theorem k_encodeAll {m : List Part} (hm : Within [.colls, .cmds] m) (a0 : Nat) (a1 : List Rec) {s t : State} (h : Keeps m s t) : Keeps m s (encodeAll a0 a1 t) := by
  unfold encodeAll
  try dsimp only
  repeat' first
    | with_reducible assumption
    | with_reducible apply k_updCollPtn (hm.of (by decide))
    | with_reducible apply k_updCmd (hm.of (by decide))
    | with_reducible apply k_foldl
    | intro _
    | dsimp only
    | split

theorem k_beginTrain {m : List Part} (hm : Within [.colls] m) (a0 : Nat) (a1 : Nat) (a2 : Nat) (a3 : Nat) (a4 : List (List F32)) {s t : State} (h : Keeps m s t) : Keeps m s (beginTrain a0 a1 a2 a3 a4 t) := by
  unfold beginTrain
  try dsimp only
  repeat' first
    | with_reducible assumption
    | with_reducible apply k_updColl (hm.of (by decide))
    | with_reducible apply k_foldl
    | intro _
    | dsimp only
    | split

theorem k_autoTrainNow {m : List Part} (hm : Within [.colls] m) (a0 : Nat) (a1 : Nat) {s t : State} (h : Keeps m s t) : Keeps m s (autoTrainNow a0 a1 t) := by
  unfold autoTrainNow
  try dsimp only
  repeat' first
    | with_reducible assumption
    | with_reducible apply k_beginTrain (hm.of (by decide))
    | with_reducible apply k_updColl (hm.of (by decide))
    | with_reducible apply k_foldl
    | intro _
    | dsimp only
    | split

theorem k_auxUp {m : List Part} (hm : Within [.aon, .pins, .host, .ptns, .jobs, .ctxs, .colls, .cmds, .nextCmd, .hearth, .hearthUp, .faults, .levels, .seamTok, .icern, .power, .jtag, .hbm, .poison] m) {s t : State} (h : Keeps m s t) : Keeps m s (auxUp t) :=
  ⟨h.1, fun _ => (by decide : tapOk ({} : Jtag) = true), fun _ => rfl, h.4, fun p hp => by
    have := h.5 p hp; cases p <;> first | exact this | exact absurd (hm _ (by decide)) hp⟩

theorem k_goWrite {m : List Part} (hm : Within [.hearth] m) (a0 : Nat) {s t : State} (h : Keeps m s t) : Keeps m s (goWrite a0 t) := by
  unfold goWrite
  try dsimp only
  repeat' first
    | with_reducible assumption
    | with_reducible apply k_updMbx (hm.of (by decide))
    | with_reducible apply k_updHearth (hm.of (by decide))
    | with_reducible apply k_foldl
    | intro _
    | dsimp only
    | split

theorem k_mbxWrite {m : List Part} (hm : Within [.hearth] m) (a0 : Nat) (a1 : Nat) (a2 : Nat) (a3 : Nat) {s t : State} (h : Keeps m s t) : Keeps m s (mbxWrite a0 a1 a2 a3 t) := by
  unfold mbxWrite
  try dsimp only
  repeat' first
    | with_reducible assumption
    | with_reducible apply k_updMbx (hm.of (by decide))
    | with_reducible apply k_goWrite (hm.of (by decide))
    | with_reducible apply k_foldl
    | intro _
    | dsimp only
    | split

theorem k_occur {m : List Part} (hm : Within [.host, .hearth] m) (a0 : Nat) {s t : State} (h : Keeps m s t) : Keeps m s (occur a0 t) := by
  unfold occur
  try dsimp only
  repeat' first
    | with_reducible assumption
    | with_reducible apply k_logEvent (hm.of (by decide))
    | with_reducible apply k_updHost (hm.of (by decide))
    | with_reducible apply k_foldl
    | intro _
    | dsimp only
    | split

theorem k_bindAnvil {m : List Part} (hm : Within [.ptns] m) (a0 : Nat) (a1 : Nat) (a2 : Nat) (a3 : List LaneReq) (a4 : Option Chunk) {s t : State} (h : Keeps m s t) : Keeps m s (bindAnvil a0 a1 a2 a3 a4 t) := by
  unfold bindAnvil
  try dsimp only
  repeat' first
    | with_reducible assumption
    | with_reducible apply k_updAnvil (hm.of (by decide))
    | with_reducible apply k_foldl
    | intro _
    | dsimp only
    | split

theorem k_bindDesc {m : List Part} (hm : Within [.ptns] m) (a0 : Nat) (a1 : Nat) (a2 : Nat × Desc) {s t : State} (h : Keeps m s t) : Keeps m s (bindDesc a0 a1 a2 t) := by
  unfold bindDesc
  try dsimp only
  repeat' first
    | with_reducible assumption
    | with_reducible apply k_bindAnvil (hm.of (by decide))
    | with_reducible apply k_foldl
    | intro _
    | dsimp only
    | split

theorem k_bindLanes {m : List Part} (hm : Within [.ptns] m) (a0 : Nat) (a1 : Nat) (a2 : Nat) (a3 : List LaneReq) {s t : State} (h : Keeps m s t) : Keeps m s (bindLanes a0 a1 a2 a3 t) := by
  unfold bindLanes
  try dsimp only
  repeat' first
    | with_reducible assumption
    | with_reducible apply k_bindAnvil (hm.of (by decide))
    | with_reducible apply k_bindDesc (hm.of (by decide))
    | with_reducible apply k_foldl
    | intro _
    | dsimp only
    | split

theorem k_startMailboxes {m : List Part} (hm : Within [.hearth] m) {s t : State} (h : Keeps m s t) : Keeps m s (startMailboxes t) := by
  unfold startMailboxes
  try dsimp only
  repeat' first
    | with_reducible assumption
    | with_reducible apply k_updHearth (hm.of (by decide))
    | with_reducible apply k_foldl
    | intro _
    | dsimp only
    | split

theorem k_startFirmware {m : List Part} (hm : Within [.aon, .hearth, .hearthUp, .levels, .icern] m) {s t : State} (h : Keeps m s t) : Keeps m s (startFirmware t) := by
  unfold startFirmware
  try dsimp only
  repeat' first
    | with_reducible assumption
    | with_reducible apply k_updAon (hm.of (by decide))
    | with_reducible apply k_updPort (hm.of (by decide))
    | with_reducible apply k_startMailboxes (hm.of (by decide))
    | with_reducible apply k_updHearth (hm.of (by decide))
    | with_reducible apply k_foldl
    | simp only [k_set_hearthUp_levels (hm.of (by decide))]
    | simp only [k_set_levels (hm.of (by decide))]
    | simp only [k_set_hearthUp (hm.of (by decide))]
    | intro _
    | dsimp only
    | split

theorem k_cacheLines {m : List Part} (hm : Within [.ptns] m) (a0 : Nat) (a1 : Nat) {s t : State} (h : Keeps m s t) : Keeps m s (cacheLines a0 a1 t) := by
  unfold cacheLines
  try dsimp only
  repeat' first
    | with_reducible assumption
    | with_reducible apply k_updPtn (hm.of (by decide))
    | with_reducible apply k_foldl
    | intro _
    | dsimp only
    | split

theorem k_chargeCtx {m : List Part} (hm : Within [.ptns, .ctxs] m) (a0 : Nat) (a1 : Nat) (a2 : Bool) (a3 : Nat) (a4 : Nat) {s t : State} (h : Keeps m s t) : Keeps m s (chargeCtx a0 a1 a2 a3 a4 t) := by
  unfold chargeCtx
  try dsimp only
  repeat' first
    | with_reducible assumption
    | with_reducible apply k_updCtx (hm.of (by decide))
    | with_reducible apply k_updPtn (hm.of (by decide))
    | with_reducible apply k_foldl
    | intro _
    | dsimp only
    | split

theorem k_chipReset {m : List Part} (hm : Within [.aon, .pins, .host, .ptns, .jobs, .ctxs, .colls, .cmds, .nextCmd, .hearth, .hearthUp, .faults, .levels, .seamTok, .icern, .power, .hbm, .poison] m) {s t : State} (h : Keeps m s t) : Keeps m s (chipReset t) :=
  ⟨h.1, h.2, fun _ => rfl, h.4, fun p hp => by
    have := h.5 p hp; cases p <;> first | exact this | exact absurd (hm _ (by decide)) hp⟩

theorem k_startExit {m : List Part} (hm : Within [.ptns] m) (a0 : Nat) {s t : State} (h : Keeps m s t) : Keeps m s (startExit a0 t) := by
  unfold startExit
  try dsimp only
  repeat' first
    | with_reducible assumption
    | with_reducible apply k_updPtn (hm.of (by decide))
    | with_reducible apply k_foldl
    | intro _
    | dsimp only
    | split

theorem k_claimPtn {m : List Part} (hm : Within [.ptns] m) (a0 : Nat) {s t : State} (h : Keeps m s t) : Keeps m s (claimPtn a0 t) := by
  unfold claimPtn
  try dsimp only
  repeat' first
    | with_reducible assumption
    | with_reducible apply k_startExit (hm.of (by decide))
    | with_reducible apply k_demand (hm.of (by decide))
    | with_reducible apply k_updPtn (hm.of (by decide))
    | with_reducible apply k_foldl
    | intro _
    | dsimp only
    | split

theorem k_clearBinding {m : List Part} (hm : Within [.ptns] m) (a0 : Nat) (a1 : Nat) {s t : State} (h : Keeps m s t) : Keeps m s (clearBinding a0 a1 t) := by
  unfold clearBinding
  try dsimp only
  repeat' first
    | with_reducible assumption
    | with_reducible apply k_updAnvil (hm.of (by decide))
    | with_reducible apply k_foldl
    | intro _
    | dsimp only
    | split

theorem k_finishCommitted {m : List Part} (hm : Within [.cmds] m) (a0 : Nat) {s t : State} (h : Keeps m s t) : Keeps m s (finishCommitted a0 t) := by
  unfold finishCommitted
  try dsimp only
  repeat' first
    | with_reducible assumption
    | with_reducible apply k_tryFinish (hm.of (by decide))
    | with_reducible apply k_foldl
    | intro _
    | dsimp only
    | split

theorem k_closeProbing {m : List Part} (hm : Within [.ptns] m) (a0 : Nat) {s t : State} (h : Keeps m s t) : Keeps m s (closeProbing a0 t) := by
  unfold closeProbing
  try dsimp only
  repeat' first
    | with_reducible assumption
    | with_reducible apply k_foldl
    | simp only [k_set_ptns (hm.of (by decide))]
    | intro _
    | dsimp only
    | split

theorem k_commitTombs {m : List Part} (hm : Within [.ptns] m) (a0 : Nat) (a1 : Epoch) {s t : State} (h : Keeps m s t) : Keeps m s (commitTombs a0 a1 t) := by
  unfold commitTombs
  try dsimp only
  repeat' first
    | with_reducible assumption
    | with_reducible apply k_foldl
    | simp only [k_set_ptns (hm.of (by decide))]
    | intro _
    | dsimp only
    | split

theorem k_joinEpoch {m : List Part} (hm : Within [.colls] m) (a0 : Nat) {s t : State} (h : Keeps m s t) : Keeps m s (joinEpoch a0 t) := by
  unfold joinEpoch
  try dsimp only
  repeat' first
    | with_reducible assumption
    | with_reducible apply k_updColl (hm.of (by decide))
    | with_reducible apply k_foldl
    | intro _
    | dsimp only
    | split

theorem k_setKey {m : List Part} (hm : Within [.colls] m) (a0 : Nat) (a1 : Key) (a2 : KeyEnt) {s t : State} (h : Keeps m s t) : Keeps m s (setKey a0 a1 a2 t) := by
  unfold setKey
  try dsimp only
  repeat' first
    | with_reducible assumption
    | with_reducible apply k_updColl (hm.of (by decide))
    | with_reducible apply k_foldl
    | intro _
    | dsimp only
    | split

theorem k_storeSparse {m : List Part} (hm : Within [.colls] m) (a0 : Nat) (a1 : Rec) {s t : State} (h : Keeps m s t) : Keeps m s (storeSparse a0 a1 t) := by
  unfold storeSparse
  try dsimp only
  repeat' first
    | with_reducible assumption
    | with_reducible apply k_updColl (hm.of (by decide))
    | with_reducible apply k_foldl
    | intro _
    | dsimp only
    | split

theorem k_countTomb {m : List Part} (hm : Within [.colls] m) (a0 : Nat) (a1 : SlotRef) {s t : State} (h : Keeps m s t) : Keeps m s (countTomb a0 a1 t) := by
  unfold countTomb
  try dsimp only
  repeat' first
    | with_reducible assumption
    | with_reducible apply k_addTomb (hm.of (by decide))
    | with_reducible apply k_addLive (hm.of (by decide))
    | with_reducible apply k_foldl
    | intro _
    | dsimp only
    | split

theorem k_commitSlot {m : List Part} (hm : Within [.colls] m) (a0 : Nat) (a1 : Epoch) (a2 : W16) (a3 : SlotRef) {s t : State} (h : Keeps m s t) : Keeps m s (commitSlot a0 a1 a2 a3 t) := by
  unfold commitSlot
  try dsimp only
  repeat' first
    | with_reducible assumption
    | with_reducible apply k_updBrick (hm.of (by decide))
    | with_reducible apply k_addLive (hm.of (by decide))
    | with_reducible apply k_updLeaf (hm.of (by decide))
    | with_reducible apply k_foldl
    | intro _
    | dsimp only
    | split

theorem k_noteFlush {m : List Part} (hm : Within [.colls, .cmds] m) (a0 : Nat) (a1 : Nat) (a2 : Epoch) (a3 : Nat) {s t : State} (h : Keeps m s t) : Keeps m s (noteFlush a0 a1 a2 a3 t) := by
  unfold noteFlush
  try dsimp only
  repeat' first
    | with_reducible assumption
    | with_reducible apply k_updColl (hm.of (by decide))
    | with_reducible apply k_updCmd (hm.of (by decide))
    | with_reducible apply k_foldl
    | intro _
    | dsimp only
    | split

theorem k_commitPart {m : List Part} (hm : Within [.colls, .cmds] m) (a0 : Msg) {s t : State} (h : Keeps m s t) : Keeps m s (commitPart a0 t) := by
  unfold commitPart
  try dsimp only
  repeat' first
    | with_reducible assumption
    | with_reducible apply k_updCmd (hm.of (by decide))
    | with_reducible apply k_queueBatch (hm.of (by decide))
    | with_reducible apply k_foldl
    | intro _
    | dsimp only
    | split

theorem k_pinTop {m : List Part} (hm : Within [.ptns, .colls] m) (a0 : Nat) (a1 : Nat) {s t : State} (h : Keeps m s t) : Keeps m s (pinTop a0 a1 t) := by
  unfold pinTop
  try dsimp only
  repeat' first
    | with_reducible assumption
    | with_reducible apply k_updCollPtn (hm.of (by decide))
    | with_reducible apply k_updPtn (hm.of (by decide))
    | with_reducible apply k_foldl
    | intro _
    | dsimp only
    | split

theorem k_moveKeys {m : List Part} (hm : Within [.colls] m) (a0 : List (SlotRef × SlotRef)) (a1 : Nat) {s t : State} (h : Keeps m s t) : Keeps m s (moveKeys a0 a1 t) := by
  unfold moveKeys
  try dsimp only
  repeat' first
    | with_reducible assumption
    | with_reducible apply k_updColl (hm.of (by decide))
    | with_reducible apply k_foldl
    | intro _
    | dsimp only
    | split

theorem k_setSettled {m : List Part} (hm : Within [.ptns] m) (a0 : SlotRef) {s t : State} (h : Keeps m s t) : Keeps m s (setSettled a0 t) := by
  unfold setSettled
  try dsimp only
  repeat' first
    | with_reducible assumption
    | with_reducible apply k_updPtn (hm.of (by decide))
    | with_reducible apply k_foldl
    | intro _
    | dsimp only
    | split

theorem k_release {m : List Part} (hm : Within [.host, .cmds] m) (a0 : Nat) (a1 : Cmd) {s t : State} (h : Keeps m s t) : Keeps m s (release a0 a1 t) := by
  unfold release
  try dsimp only
  repeat' first
    | with_reducible assumption
    | with_reducible apply k_freePools (hm.of (by decide))
    | with_reducible apply k_freeGranules (hm.of (by decide))
    | with_reducible apply k_updCmd (hm.of (by decide))
    | with_reducible apply k_delCmd (hm.of (by decide))
    | with_reducible apply k_foldl
    | intro _
    | dsimp only
    | split

theorem k_freshBrick {m : List Part} (hm : Within [.ptns, .colls] m) (a0 : Bool) (a1 : Nat) (a2 : Nat) (a3 : Nat) (a4 : Nat) (a5 : Epoch) {s t : State} (h : Keeps m s t) : KeepsWith m s (freshBrick a0 a1 a2 a3 a4 a5 t) := by
  unfold freshBrick
  try dsimp only
  repeat' first
    | with_reducible assumption
    | with_reducible apply k_takeFrame (hm.of (by decide))
    | with_reducible apply k_updColl (hm.of (by decide))
    | with_reducible apply if_none
    | with_reducible apply if_some
    | with_reducible apply with_none
    | with_reducible apply with_some
    | with_reducible apply if_getD
    | with_reducible apply if_bind
    | with_reducible apply if_mapState
    | with_reducible apply if_bindWith
    | with_reducible apply if_mapWith
    | with_reducible apply if_foldl
    | with_reducible apply with_map
    | with_reducible apply if_map
    | with_reducible apply with_mapOpt
    | (with_reducible apply if_get; with_reducible assumption)
    | (with_reducible apply with_get; with_reducible assumption)
    | with_reducible apply k_foldl
    | intro _
    | dsimp only
    | split

theorem k_countAvail {m : List Part} (hm : Within [.aon] m) {s t : State} (h : Keeps m s t) : Keeps m s (countAvail t) := by
  unfold countAvail
  try dsimp only
  repeat' first
    | with_reducible assumption
    | with_reducible apply k_updAon (hm.of (by decide))
    | with_reducible apply k_foldl
    | intro _
    | dsimp only
    | split

theorem k_countBytes {m : List Part} (hm : Within [.ctxs] m) (a0 : HomeReq) {s t : State} (h : Keeps m s t) : Keeps m s (countBytes a0 t) := by
  unfold countBytes
  try dsimp only
  repeat' first
    | with_reducible assumption
    | with_reducible apply k_updCtx (hm.of (by decide))
    | with_reducible apply k_foldl
    | intro _
    | dsimp only
    | split

theorem k_countL2 {m : List Part} (hm : Within [.aon] m) (a0 : Nat) {s t : State} (h : Keeps m s t) : Keeps m s (countL2 a0 t) := by
  unfold countL2
  try dsimp only
  repeat' first
    | with_reducible assumption
    | with_reducible apply k_updAon (hm.of (by decide))
    | with_reducible apply k_foldl
    | intro _
    | dsimp only
    | split

theorem k_countL3 {m : List Part} (hm : Within [.aon] m) {s t : State} (h : Keeps m s t) : Keeps m s (countL3 t) := by
  unfold countL3
  try dsimp only
  repeat' first
    | with_reducible assumption
    | with_reducible apply k_updAon (hm.of (by decide))
    | with_reducible apply k_foldl
    | intro _
    | dsimp only
    | split

theorem k_countOffers {m : List Part} (hm : Within [.ctxs] m) (a0 : Nat) (a1 : Nat) {s t : State} (h : Keeps m s t) : Keeps m s (countOffers a0 a1 t) := by
  unfold countOffers
  try dsimp only
  repeat' first
    | with_reducible assumption
    | with_reducible apply k_updCtx (hm.of (by decide))
    | with_reducible apply k_foldl
    | intro _
    | dsimp only
    | split

theorem k_cutList {m : List Part} (hm : Within [.ptns, .colls] m) (a0 : Nat) (a1 : Nat) {s t : State} (h : Keeps m s t) : Keeps m s (cutList a0 a1 t) := by
  unfold cutList
  try dsimp only
  repeat' first
    | with_reducible assumption
    | with_reducible apply k_freshBrick (hm.of (by decide))
    | with_reducible apply k_updBrick (hm.of (by decide))
    | with_reducible apply k_updLeaf (hm.of (by decide))
    | with_reducible apply if_none
    | with_reducible apply if_some
    | with_reducible apply with_none
    | with_reducible apply with_some
    | with_reducible apply if_getD
    | with_reducible apply if_bind
    | with_reducible apply if_mapState
    | with_reducible apply if_bindWith
    | with_reducible apply if_mapWith
    | with_reducible apply if_foldl
    | with_reducible apply with_map
    | with_reducible apply if_map
    | with_reducible apply with_mapOpt
    | (with_reducible apply if_get; with_reducible assumption)
    | (with_reducible apply with_get; with_reducible assumption)
    | with_reducible apply k_foldl
    | intro _
    | dsimp only
    | split

theorem k_updProbe {m : List Part} (hm : Within [.cmds] m) (a0 : Nat) (a1 : Nat) (a2 : Nat) (a3 : Probe → Probe) {s t : State} (h : Keeps m s t) : Keeps m s (updProbe a0 a1 a2 a3 t) := by
  unfold updProbe
  try dsimp only
  repeat' first
    | with_reducible assumption
    | with_reducible apply k_updRow (hm.of (by decide))
    | with_reducible apply k_foldl
    | intro _
    | dsimp only
    | split

theorem k_settleProbe {m : List Part} (hm : Within [.cmds] m) (a0 : Nat) (a1 : Nat) (a2 : Nat) {s t : State} (h : Keeps m s t) : Keeps m s (settleProbe a0 a1 a2 t) := by
  unfold settleProbe
  try dsimp only
  repeat' first
    | with_reducible assumption
    | with_reducible apply k_updProbe (hm.of (by decide))
    | with_reducible apply k_foldl
    | intro _
    | dsimp only
    | split

theorem k_cutLists {m : List Part} (hm : Within [.cmds] m) (a0 : Nat) (a1 : Nat) (a2 : Nat) {s t : State} (h : Keeps m s t) : Keeps m s (cutLists a0 a1 a2 t) := by
  unfold cutLists
  try dsimp only
  repeat' first
    | with_reducible assumption
    | with_reducible apply k_settleProbe (hm.of (by decide))
    | with_reducible apply k_updProbe (hm.of (by decide))
    | with_reducible apply k_foldl
    | intro _
    | dsimp only
    | split

theorem k_deliver {m : List Part} (hm : Within [.icern] m) (a0 : Nat) (a1 : Msg) {s t : State} (h : Keeps m s t) : Keeps m s (deliver a0 a1 t) := by
  unfold deliver
  try dsimp only
  repeat' first
    | with_reducible assumption
    | with_reducible apply k_updPort (hm.of (by decide))
    | with_reducible apply k_updIcern (hm.of (by decide))
    | with_reducible apply k_foldl
    | intro _
    | dsimp only
    | split

theorem k_updPower {m : List Part} (hm : Within [.power] m) (a0 : PowerT → PowerT) {s t : State} (h : Keeps m s t) : Keeps m s (updPower a0 t) := by
  unfold updPower
  try dsimp only
  repeat' first
    | with_reducible assumption
    | with_reducible apply k_foldl
    | simp only [k_set_power (hm.of (by decide))]
    | intro _
    | dsimp only
    | split

theorem k_doAssayLog {m : List Part} (hm : Within [] m) (a0 : Nat) (a1 : Req) (a2 : ReadReply) {s t : State} (h : Keeps m s t) : Keeps m s (doAssayLog a0 a1 a2 t).1 := by
  unfold doAssayLog
  try dsimp only
  repeat' first
    | with_reducible assumption
    | with_reducible apply pair_foldl
    | (with_reducible apply pair_get; with_reducible assumption)
    | with_reducible apply k_foldl
    | intro _
    | dsimp only
    | split

theorem k_writeTestLine {m : List Part} (hm : Within [.ptns, .hbm, .poison] m) (p pat seed start c w i : Nat) {s t : State} (h : Keeps m s t) :
    Keeps m s (writeTestLine p pat seed start c w i t) :=
  k_foldl (k_removeEnt (hm.of (by decide)) _ _ h) fun _ _ hu =>
    k_dropPoison (hm.of (by decide)) _ (k_setHbm (hm.of (by decide)) hu (Memory.mwriteAll_wf _ _))

theorem k_writeTest {m : List Part} (hm : Within [.ptns, .hbm, .poison] m) (a0 : Nat) (a1 : Nat) (a2 : Nat) (a3 : Nat) (a4 : Nat) (a5 : List (Nat × Nat)) {s t : State} (h : Keeps m s t) : Keeps m s (writeTest a0 a1 a2 a3 a4 a5 t) := by
  unfold writeTest
  try dsimp only
  repeat' first
    | with_reducible assumption
    | with_reducible apply k_writeTestLine (hm.of (by decide))
    | with_reducible apply k_foldl
    | intro _
    | dsimp only
    | split

theorem k_startTest {m : List Part} (hm : Within [.ptns, .hearth] m) (a0 : List Nat) (a1 : Nat) {s t : State} (h : Keeps m s t) : Keeps m s (startTest a0 a1 t) := by
  unfold startTest
  try dsimp only
  repeat' first
    | with_reducible assumption
    | with_reducible apply k_updHearth (hm.of (by decide))
    | with_reducible apply k_startExit (hm.of (by decide))
    | with_reducible apply k_demand (hm.of (by decide))
    | with_reducible apply k_foldl
    | intro _
    | dsimp only
    | split

theorem k_doAssayRun {m : List Part} (hm : Within [.ptns, .hearth, .hbm, .poison, .free] m) (a0 : List BadWord) (a1 : Nat) (a2 : Req) (a3 : ReadReply) {s t : State} (h : Keeps m s t) : Keeps m s (doAssayRun a0 a1 a2 a3 t).1 := by
  unfold doAssayRun
  try dsimp only
  repeat' first
    | with_reducible assumption
    | with_reducible apply k_startTest (hm.of (by decide))
    | with_reducible apply k_writeTest (hm.of (by decide))
    | with_reducible apply k_updHearth (hm.of (by decide))
    | with_reducible apply k_spend (hm.of (by decide))
    | with_reducible apply pair_foldl
    | (with_reducible apply pair_get; with_reducible assumption)
    | with_reducible apply k_foldl
    | intro _
    | dsimp only
    | split

theorem k_spdmSession {m : List Part} (hm : Within [.hearth] m) (a0 : SpdmTransport) (a1 : SpdmKind) {s t : State} (h : Keeps m s t) : Keeps m s (spdmSession a0 a1 t) := by
  unfold spdmSession
  try dsimp only
  repeat' first
    | with_reducible assumption
    | with_reducible apply k_updHearth (hm.of (by decide))
    | with_reducible apply k_foldl
    | intro _
    | dsimp only
    | split

theorem k_doClockCorr {m : List Part} (hm : Within [] m) (a0 : Nat) (a1 : Req) (a2 : ReadReply) {s t : State} (h : Keeps m s t) : Keeps m s (doClockCorr a0 a1 a2 t).1 := by
  unfold doClockCorr
  try dsimp only
  repeat' first
    | with_reducible assumption
    | with_reducible apply pair_foldl
    | (with_reducible apply pair_get; with_reducible assumption)
    | with_reducible apply k_foldl
    | intro _
    | dsimp only
    | split

theorem k_retryPins {m : List Part} (hm : Within [.ptns, .colls] m) (a0 : Nat) {s t : State} (h : Keeps m s t) : Keeps m s (retryPins a0 t) := by
  unfold retryPins
  try dsimp only
  repeat' first
    | with_reducible assumption
    | with_reducible apply k_pinTop (hm.of (by decide))
    | with_reducible apply k_foldl
    | intro _
    | dsimp only
    | split

theorem k_freeRegions {m : List Part} (hm : Within [.ptns] m) (a0 : Region → Bool) (a1 : Nat) {s t : State} (h : Keeps m s t) : Keeps m s (freeRegions a0 a1 t) := by
  unfold freeRegions
  try dsimp only
  repeat' first
    | with_reducible assumption
    | with_reducible apply k_updPtn (hm.of (by decide))
    | with_reducible apply k_foldl
    | intro _
    | dsimp only
    | split

theorem k_freeColl {m : List Part} (hm : Within [.ptns, .colls] m) (a0 : Nat) {s t : State} (h : Keeps m s t) : Keeps m s (freeColl a0 t) := by
  unfold freeColl
  try dsimp only
  repeat' first
    | with_reducible assumption
    | with_reducible apply k_updPtn (hm.of (by decide))
    | with_reducible apply k_freeRegions (hm.of (by decide))
    | with_reducible apply k_retryPins (hm.of (by decide))
    | with_reducible apply k_foldl
    | simp only [k_set_ptns_colls (hm.of (by decide))]
    | simp only [k_set_ptns (hm.of (by decide))]
    | simp only [k_set_colls (hm.of (by decide))]
    | intro _
    | dsimp only
    | split

theorem k_guardM {m : List Part} (hm : Within [] m) (a0 : Bool) (a1 : MStatus) (a3 : State × Res) {s t : State} (h : Keeps m s t) (g3 : Keeps m s a3.1) : Keeps m s (guardM a0 a1 t a3).1 := by
  unfold guardM
  try dsimp only
  repeat' first
    | with_reducible assumption
    | with_reducible apply g3
    | with_reducible apply pair_foldl
    | (with_reducible apply pair_get; with_reducible assumption)
    | with_reducible apply k_foldl
    | intro _
    | dsimp only
    | split

theorem k_doCollDelete {m : List Part} (hm : Within [.ptns, .colls] m) (a0 : Nat) (a1 : Req) (a2 : ReadReply) {s t : State} (h : Keeps m s t) : Keeps m s (doCollDelete a0 a1 a2 t).1 := by
  unfold doCollDelete
  try dsimp only
  repeat' first
    | with_reducible assumption
    | with_reducible apply k_guardM (Within.nil m)
    | with_reducible apply k_updColl (hm.of (by decide))
    | with_reducible apply k_freeColl (hm.of (by decide))
    | with_reducible apply pair_foldl
    | (with_reducible apply pair_get; with_reducible assumption)
    | with_reducible apply k_foldl
    | intro _
    | dsimp only
    | split

theorem k_doCollSet {m : List Part} (hm : Within [.ptns, .colls] m) (a0 : Nat) (a1 : Req) (a2 : ReadReply) {s t : State} (h : Keeps m s t) : Keeps m s (doCollSet a0 a1 a2 t).1 := by
  unfold doCollSet
  try dsimp only
  repeat' first
    | with_reducible assumption
    | with_reducible apply k_guardM (Within.nil m)
    | with_reducible apply k_updColl (hm.of (by decide))
    | with_reducible apply k_demandAll (hm.of (by decide))
    | with_reducible apply pair_foldl
    | (with_reducible apply pair_get; with_reducible assumption)
    | with_reducible apply k_foldl
    | intro _
    | dsimp only
    | split

theorem k_doCollStats {m : List Part} (hm : Within [] m) (a0 : Nat) (a1 : Req) (a2 : ReadReply) {s t : State} (h : Keeps m s t) : Keeps m s (doCollStats a0 a1 a2 t).1 := by
  unfold doCollStats
  try dsimp only
  repeat' first
    | with_reducible assumption
    | with_reducible apply pair_foldl
    | (with_reducible apply pair_get; with_reducible assumption)
    | with_reducible apply k_foldl
    | intro _
    | dsimp only
    | split

theorem k_startTrain {m : List Part} (hm : Within [.ptns, .colls, .free] m) (a0 : Nat) (a1 : Req) (a2 : List (List F32)) {s t : State} (h : Keeps m s t) : Keeps m s (startTrain a0 a1 a2 t) := by
  unfold startTrain
  try dsimp only
  repeat' first
    | with_reducible assumption
    | with_reducible apply k_beginTrain (hm.of (by decide))
    | with_reducible apply k_demandAll (hm.of (by decide))
    | with_reducible apply k_spend (hm.of (by decide))
    | with_reducible apply k_updColl (hm.of (by decide))
    | with_reducible apply k_foldl
    | intro _
    | dsimp only
    | split

theorem k_doCommit {m : List Part} (hm : Within [.aon] m) (a0 : Nat) (a1 : Req) (a2 : ReadReply) {s t : State} (h : Keeps m s t) : Keeps m s (doCommit a0 a1 a2 t).1 := by
  unfold doCommit
  try dsimp only
  repeat' first
    | with_reducible assumption
    | with_reducible apply k_guardM (Within.nil m)
    | with_reducible apply k_updAon (hm.of (by decide))
    | with_reducible apply pair_foldl
    | (with_reducible apply pair_get; with_reducible assumption)
    | with_reducible apply k_foldl
    | intro _
    | dsimp only
    | split

theorem k_doCrucPin {m : List Part} (hm : Within [.ptns, .colls] m) (a0 : Nat) (a1 : Req) (a2 : ReadReply) {s t : State} (h : Keeps m s t) : Keeps m s (doCrucPin a0 a1 a2 t).1 := by
  unfold doCrucPin
  try dsimp only
  repeat' first
    | with_reducible assumption
    | with_reducible apply k_demand (hm.of (by decide))
    | with_reducible apply k_updPtn (hm.of (by decide))
    | with_reducible apply k_retryPins (hm.of (by decide))
    | with_reducible apply pair_foldl
    | (with_reducible apply pair_get; with_reducible assumption)
    | with_reducible apply k_foldl
    | intro _
    | dsimp only
    | split

theorem k_doCtxCreate {m : List Part} (hm : Within [.ctxs] m) (a0 : Nat) (a1 : Req) (a2 : ReadReply) {s t : State} (h : Keeps m s t) : Keeps m s (doCtxCreate a0 a1 a2 t).1 := by
  unfold doCtxCreate
  try dsimp only
  repeat' first
    | with_reducible assumption
    | with_reducible apply k_guardM (Within.nil m)
    | with_reducible apply pair_foldl
    | (with_reducible apply pair_get; with_reducible assumption)
    | with_reducible apply k_foldl
    | simp only [k_set_ctxs (hm.of (by decide))]
    | intro _
    | dsimp only
    | split

theorem k_freeWindow {m : List Part} (hm : Within [.ptns] m) (a0 : MWin) {s t : State} (h : Keeps m s t) : Keeps m s (freeWindow a0 t) := by
  unfold freeWindow
  try dsimp only
  repeat' first
    | with_reducible assumption
    | with_reducible apply k_updPtn (hm.of (by decide))
    | with_reducible apply k_foldl
    | intro _
    | dsimp only
    | split

theorem k_doCtxStats {m : List Part} (hm : Within [] m) (a0 : Nat) (a1 : Req) (a2 : ReadReply) {s t : State} (h : Keeps m s t) : Keeps m s (doCtxStats a0 a1 a2 t).1 := by
  unfold doCtxStats
  try dsimp only
  repeat' first
    | with_reducible assumption
    | with_reducible apply pair_foldl
    | (with_reducible apply pair_get; with_reducible assumption)
    | with_reducible apply k_foldl
    | intro _
    | dsimp only
    | split

theorem k_doEventLog {m : List Part} (hm : Within [] m) (a0 : Nat) (a1 : Req) (a2 : ReadReply) {s t : State} (h : Keeps m s t) : Keeps m s (doEventLog a0 a1 a2 t).1 := by
  unfold doEventLog
  try dsimp only
  repeat' first
    | with_reducible assumption
    | with_reducible apply pair_foldl
    | (with_reducible apply pair_get; with_reducible assumption)
    | with_reducible apply k_foldl
    | intro _
    | dsimp only
    | split

theorem k_doFilterLoad {m : List Part} (hm : Within [.ctxs] m) (a0 : Nat) (a1 : Req) (a2 : ReadReply) {s t : State} (h : Keeps m s t) : Keeps m s (doFilterLoad a0 a1 a2 t).1 := by
  unfold doFilterLoad
  try dsimp only
  repeat' first
    | with_reducible assumption
    | with_reducible apply k_guardM (Within.nil m)
    | with_reducible apply k_updCtx (hm.of (by decide))
    | with_reducible apply pair_foldl
    | (with_reducible apply pair_get; with_reducible assumption)
    | with_reducible apply k_foldl
    | intro _
    | dsimp only
    | split

theorem k_doHwinSet {m : List Part} (hm : Within [.ctxs] m) (a0 : Nat) (a1 : Req) (a2 : ReadReply) {s t : State} (h : Keeps m s t) : Keeps m s (doHwinSet a0 a1 a2 t).1 := by
  unfold doHwinSet
  try dsimp only
  repeat' first
    | with_reducible assumption
    | with_reducible apply k_updCtx (hm.of (by decide))
    | with_reducible apply k_guardM (Within.nil m)
    | with_reducible apply pair_foldl
    | (with_reducible apply pair_get; with_reducible assumption)
    | with_reducible apply k_foldl
    | intro _
    | dsimp only
    | split

theorem k_doIdentify {m : List Part} (hm : Within [] m) (a0 : Nat) (a1 : Req) (a2 : ReadReply) {s t : State} (h : Keeps m s t) : Keeps m s (doIdentify a0 a1 a2 t).1 := by
  unfold doIdentify
  try dsimp only
  repeat' first
    | with_reducible assumption
    | with_reducible apply pair_foldl
    | (with_reducible apply pair_get; with_reducible assumption)
    | with_reducible apply k_foldl
    | intro _
    | dsimp only
    | split

theorem k_doJobCreate {m : List Part} (hm : Within [.ptns] m) (a0 : Nat) (a1 : Req) (a2 : ReadReply) {s t : State} (h : Keeps m s t) : Keeps m s (doJobCreate a0 a1 a2 t).1 := by
  unfold doJobCreate
  try dsimp only
  repeat' first
    | with_reducible assumption
    | with_reducible apply k_guardM (Within.nil m)
    | with_reducible apply k_claimPtn (hm.of (by decide))
    | with_reducible apply pair_foldl
    | (with_reducible apply pair_get; with_reducible assumption)
    | with_reducible apply k_foldl
    | intro _
    | dsimp only
    | split

theorem k_zeroRange {m : List Part} (hm : Within [.ptns, .hbm, .poison] m) (a n : Nat) {s t : State} (h : Keeps m s t) : Keeps m s (zeroRange a n t) :=
  ⟨h.1, h.2, fun w => Memory.filter_wf _ (h.3 w), h.4, fun p hp => by
    have := h.5 p hp; cases p <;> first | exact this | exact absurd (hm _ (by decide)) hp⟩

theorem k_updJob {m : List Part} (hm : Within [.jobs] m) (a0 : Nat) (a1 : Job → Job) {s t : State} (h : Keeps m s t) : Keeps m s (updJob a0 a1 t) := by
  unfold updJob
  try dsimp only
  repeat' first
    | with_reducible assumption
    | with_reducible apply k_foldl
    | simp only [k_set_jobs (hm.of (by decide))]
    | intro _
    | dsimp only
    | split

theorem k_doJournalSet {m : List Part} (hm : Within [.host, .ctxs] m) (a0 : Nat) (a1 : Req) (a2 : ReadReply) {s t : State} (h : Keeps m s t) : Keeps m s (doJournalSet a0 a1 a2 t).1 := by
  unfold doJournalSet
  try dsimp only
  repeat' first
    | with_reducible assumption
    | with_reducible apply k_guardM (Within.nil m)
    | with_reducible apply k_updCtx (hm.of (by decide))
    | with_reducible apply k_journalWrite (hm.of (by decide))
    | with_reducible apply pair_foldl
    | (with_reducible apply pair_get; with_reducible assumption)
    | with_reducible apply k_foldl
    | intro _
    | dsimp only
    | split

theorem k_doMwinSet {m : List Part} (hm : Within [.ptns, .ctxs] m) (a0 : Nat) (a1 : Req) (a2 : ReadReply) {s t : State} (h : Keeps m s t) : Keeps m s (doMwinSet a0 a1 a2 t).1 := by
  unfold doMwinSet
  try dsimp only
  repeat' first
    | with_reducible assumption
    | with_reducible apply k_freeWindow (hm.of (by decide))
    | with_reducible apply k_updCtx (hm.of (by decide))
    | with_reducible apply k_updPtn (hm.of (by decide))
    | with_reducible apply pair_foldl
    | (with_reducible apply pair_get; with_reducible assumption)
    | with_reducible apply k_foldl
    | intro _
    | dsimp only
    | split

theorem k_doNextReset {m : List Part} (hm : Within [.aon] m) (a0 : Nat) (a1 : Req) (a2 : ReadReply) {s t : State} (h : Keeps m s t) : Keeps m s (doNextReset a0 a1 a2 t).1 := by
  unfold doNextReset
  try dsimp only
  repeat' first
    | with_reducible assumption
    | with_reducible apply k_guardM (Within.nil m)
    | with_reducible apply k_updAon (hm.of (by decide))
    | with_reducible apply pair_foldl
    | (with_reducible apply pair_get; with_reducible assumption)
    | with_reducible apply k_foldl
    | intro _
    | dsimp only
    | split

theorem k_loadEverywhere {m : List Part} (hm : Within [.ptns] m) (c : Nat) {s t : State} (h : Keeps m s t) : KeepsIf m s (loadEverywhere c t) := by
  unfold loadEverywhere
  refine if_foldl (if_some h) fun o x ho => if_bind ho fun u hu => ?_
  split
  · exact if_map fun _ => k_updPtn (hm.of (by decide)) _ _ hu
  · exact if_some hu

theorem k_measureLoad {m : List Part} (hm : Within [.jobs] m) (a0 : Nat) (a1 : Nat) (a2 : List Byte) {s t : State} (h : Keeps m s t) : Keeps m s (measureLoad a0 a1 a2 t) := by
  unfold measureLoad
  try dsimp only
  repeat' first
    | with_reducible assumption
    | with_reducible apply k_updJob (hm.of (by decide))
    | with_reducible apply k_foldl
    | intro _
    | dsimp only
    | split

theorem k_dropOldPatterns {m : List Part} (hm : Within [.ctxs] m) (a0 : Nat) {s t : State} (h : Keeps m s t) : Keeps m s (dropOldPatterns a0 t) := by
  unfold dropOldPatterns
  try dsimp only
  repeat' first
    | with_reducible assumption
    | with_reducible apply k_updCtx (hm.of (by decide))
    | with_reducible apply k_foldl
    | intro _
    | dsimp only
    | split

theorem k_retirePattern {m : List Part} (hm : Within [.ctxs] m) (a0 : Nat) (a1 : Nat) {s t : State} (h : Keeps m s t) : Keeps m s (retirePattern a0 a1 t) := by
  unfold retirePattern
  try dsimp only
  repeat' first
    | with_reducible assumption
    | with_reducible apply k_dropOldPatterns (hm.of (by decide))
    | with_reducible apply k_updCtx (hm.of (by decide))
    | with_reducible apply k_foldl
    | intro _
    | dsimp only
    | split

theorem k_loadPattern {m : List Part} (hm : Within [.ptns, .jobs, .ctxs, .hearth] m) (a0 : Nat) (a1 : List Byte) {s t : State} (h : Keeps m s t) : Keeps m s (loadPattern a0 a1 t).1 := by
  unfold loadPattern
  try dsimp only
  repeat' first
    | with_reducible assumption
    | with_reducible apply k_updHearth (hm.of (by decide))
    | with_reducible apply k_retirePattern (hm.of (by decide))
    | with_reducible apply k_updCtx (hm.of (by decide))
    | with_reducible apply k_loadEverywhere (hm.of (by decide))
    | with_reducible apply k_measureLoad (hm.of (by decide))
    | with_reducible apply if_none
    | with_reducible apply if_some
    | with_reducible apply with_none
    | with_reducible apply with_some
    | with_reducible apply if_getD
    | with_reducible apply if_bind
    | with_reducible apply if_mapState
    | with_reducible apply if_bindWith
    | with_reducible apply if_mapWith
    | with_reducible apply if_foldl
    | with_reducible apply with_map
    | with_reducible apply if_map
    | with_reducible apply with_mapOpt
    | (with_reducible apply if_get; with_reducible assumption)
    | (with_reducible apply with_get; with_reducible assumption)
    | with_reducible apply pair_foldl
    | (with_reducible apply pair_get; with_reducible assumption)
    | with_reducible apply k_foldl
    | intro _
    | dsimp only
    | split

theorem k_doPatternUnload {m : List Part} (hm : Within [.ctxs] m) (a0 : Nat) (a1 : Req) (a2 : ReadReply) {s t : State} (h : Keeps m s t) : Keeps m s (doPatternUnload a0 a1 a2 t).1 := by
  unfold doPatternUnload
  try dsimp only
  repeat' first
    | with_reducible assumption
    | with_reducible apply k_guardM (Within.nil m)
    | with_reducible apply k_retirePattern (hm.of (by decide))
    | with_reducible apply pair_foldl
    | (with_reducible apply pair_get; with_reducible assumption)
    | with_reducible apply k_foldl
    | intro _
    | dsimp only
    | split

theorem k_startBanking {m : List Part} (hm : Within [.ptns] m) (a0 : Nat) {s t : State} (h : Keeps m s t) : Keeps m s (startBanking a0 t) := by
  unfold startBanking
  try dsimp only
  repeat' first
    | with_reducible assumption
    | with_reducible apply k_askFence (hm.of (by decide))
    | with_reducible apply k_updPtn (hm.of (by decide))
    | with_reducible apply k_foldl
    | intro _
    | dsimp only
    | split

theorem k_resetRates {m : List Part} (hm : Within [.ptns] m) (a0 : List Nat) (a1 : Nat) {s t : State} (h : Keeps m s t) : Keeps m s (resetRates a0 a1 t) := by
  unfold resetRates
  try dsimp only
  repeat' first
    | with_reducible assumption
    | with_reducible apply k_updReg (hm.of (by decide))
    | with_reducible apply k_foldl
    | intro _
    | dsimp only
    | split

theorem k_doRegSet {m : List Part} (hm : Within [.ptns] m) (a0 : Nat) (a1 : Req) (a2 : ReadReply) {s t : State} (h : Keeps m s t) : Keeps m s (doRegSet a0 a1 a2 t).1 := by
  unfold doRegSet
  try dsimp only
  repeat' first
    | with_reducible assumption
    | with_reducible apply k_guardM (Within.nil m)
    | with_reducible apply k_updReg (hm.of (by decide))
    | with_reducible apply k_resetRates (hm.of (by decide))
    | with_reducible apply pair_foldl
    | (with_reducible apply pair_get; with_reducible assumption)
    | with_reducible apply k_foldl
    | intro _
    | dsimp only
    | split

theorem k_doResetChip {m : List Part} (hm : Within [] m) (a0 : Nat) (a1 : Req) (a2 : ReadReply) {s t : State} (h : Keeps m s t) : Keeps m s (doResetChip a0 a1 a2 t).1 := by
  unfold doResetChip
  try dsimp only
  repeat' first
    | with_reducible assumption
    | with_reducible apply k_guardM (Within.nil m)
    | with_reducible apply pair_foldl
    | (with_reducible apply pair_get; with_reducible assumption)
    | with_reducible apply k_foldl
    | intro _
    | dsimp only
    | split

theorem k_dueFence {m : List Part} (hm : Within [.ptns] m) (a0 : Nat) (a1 : FenceRec) {s t : State} (h : Keeps m s t) : Keeps m s (dueFence a0 a1 t) := by
  unfold dueFence
  try dsimp only
  repeat' first
    | with_reducible assumption
    | with_reducible apply k_updPtn (hm.of (by decide))
    | with_reducible apply k_foldl
    | intro _
    | dsimp only
    | split

theorem k_restartHearth {m : List Part} (hm : Within [.aon, .hearth, .hearthUp] m) (a0 : Bool) {s t : State} (h : Keeps m s t) : Keeps m s (restartHearth a0 t) := by
  unfold restartHearth
  try dsimp only
  repeat' first
    | with_reducible assumption
    | with_reducible apply k_updAon (hm.of (by decide))
    | with_reducible apply k_updHearth (hm.of (by decide))
    | with_reducible apply k_foldl
    | simp only [k_set_hearthUp (hm.of (by decide))]
    | intro _
    | dsimp only
    | split

theorem k_doRevert {m : List Part} (hm : Within [.aon, .hearth, .hearthUp] m) (a0 : Nat) (a1 : Req) (a2 : ReadReply) {s t : State} (h : Keeps m s t) : Keeps m s (doRevert a0 a1 a2 t).1 := by
  unfold doRevert
  try dsimp only
  repeat' first
    | with_reducible assumption
    | with_reducible apply k_guardM (Within.nil m)
    | with_reducible apply k_restartHearth (hm.of (by decide))
    | with_reducible apply k_updAon (hm.of (by decide))
    | with_reducible apply pair_foldl
    | (with_reducible apply pair_get; with_reducible assumption)
    | with_reducible apply k_foldl
    | intro _
    | dsimp only
    | split

theorem k_doRingCreate {m : List Part} (hm : Within [.host] m) (a0 : Nat) (a1 : Req) (a2 : ReadReply) {s t : State} (h : Keeps m s t) : Keeps m s (doRingCreate a0 a1 a2 t).1 := by
  unfold doRingCreate
  try dsimp only
  repeat' first
    | with_reducible assumption
    | with_reducible apply k_guardM (Within.nil m)
    | with_reducible apply k_setRing (hm.of (by decide))
    | with_reducible apply pair_foldl
    | (with_reducible apply pair_get; with_reducible assumption)
    | with_reducible apply k_foldl
    | intro _
    | dsimp only
    | split

theorem k_removeRing {m : List Part} (hm : Within [.host] m) (a0 : Nat) {s t : State} (h : Keeps m s t) : Keeps m s (removeRing a0 t) := by
  unfold removeRing
  try dsimp only
  repeat' first
    | with_reducible assumption
    | with_reducible apply k_updHost (hm.of (by decide))
    | with_reducible apply k_foldl
    | intro _
    | dsimp only
    | split

theorem k_doRingDestroy {m : List Part} (hm : Within [.host] m) (a0 : Nat) (a1 : Req) (a2 : ReadReply) {s t : State} (h : Keeps m s t) : Keeps m s (doRingDestroy a0 a1 a2 t).1 := by
  unfold doRingDestroy
  try dsimp only
  repeat' first
    | with_reducible assumption
    | with_reducible apply k_guardM (Within.nil m)
    | with_reducible apply k_updRing (hm.of (by decide))
    | with_reducible apply k_releaseHeld (hm.of (by decide))
    | with_reducible apply k_removeRing (hm.of (by decide))
    | with_reducible apply pair_foldl
    | (with_reducible apply pair_get; with_reducible assumption)
    | with_reducible apply k_foldl
    | intro _
    | dsimp only
    | split

theorem k_doRingState {m : List Part} (hm : Within [.host] m) (a0 : Nat) (a1 : Req) (a2 : ReadReply) {s t : State} (h : Keeps m s t) : Keeps m s (doRingState a0 a1 a2 t).1 := by
  unfold doRingState
  try dsimp only
  repeat' first
    | with_reducible assumption
    | with_reducible apply k_guardM (Within.nil m)
    | with_reducible apply k_updRing (hm.of (by decide))
    | with_reducible apply pair_foldl
    | (with_reducible apply pair_get; with_reducible assumption)
    | with_reducible apply k_foldl
    | intro _
    | dsimp only
    | split

theorem k_doRoundLoad {m : List Part} (hm : Within [.ptns] m) (a0 : Nat) (a1 : Req) (a2 : ReadReply) {s t : State} (h : Keeps m s t) : Keeps m s (doRoundLoad a0 a1 a2 t).1 := by
  unfold doRoundLoad
  try dsimp only
  repeat' first
    | with_reducible assumption
    | with_reducible apply k_guardM (Within.nil m)
    | with_reducible apply k_updPtn (hm.of (by decide))
    | with_reducible apply pair_foldl
    | (with_reducible apply pair_get; with_reducible assumption)
    | with_reducible apply k_foldl
    | intro _
    | dsimp only
    | split

theorem k_doSharesSet {m : List Part} (hm : Within [.ctxs] m) (a0 : Nat) (a1 : Req) (a2 : ReadReply) {s t : State} (h : Keeps m s t) : Keeps m s (doSharesSet a0 a1 a2 t).1 := by
  unfold doSharesSet
  try dsimp only
  repeat' first
    | with_reducible assumption
    | with_reducible apply k_guardM (Within.nil m)
    | with_reducible apply k_updCtx (hm.of (by decide))
    | with_reducible apply pair_foldl
    | (with_reducible apply pair_get; with_reducible assumption)
    | with_reducible apply k_foldl
    | intro _
    | dsimp only
    | split

theorem k_setFwSlot {m : List Part} (hm : Within [.aon] m) (a0 : Bool) (a1 : FwSlot) {s t : State} (h : Keeps m s t) : Keeps m s (setFwSlot a0 a1 t) := by
  unfold setFwSlot
  try dsimp only
  repeat' first
    | with_reducible assumption
    | with_reducible apply k_updAon (hm.of (by decide))
    | with_reducible apply k_foldl
    | intro _
    | dsimp only
    | split

theorem k_doStageAbort {m : List Part} (hm : Within [.aon, .hearth] m) (a0 : Nat) (a1 : Req) (a2 : ReadReply) {s t : State} (h : Keeps m s t) : Keeps m s (doStageAbort a0 a1 a2 t).1 := by
  unfold doStageAbort
  try dsimp only
  repeat' first
    | with_reducible assumption
    | with_reducible apply k_guardM (Within.nil m)
    | with_reducible apply k_updHearth (hm.of (by decide))
    | with_reducible apply k_setFwSlot (hm.of (by decide))
    | with_reducible apply pair_foldl
    | (with_reducible apply pair_get; with_reducible assumption)
    | with_reducible apply k_foldl
    | intro _
    | dsimp only
    | split

theorem k_doStageBegin {m : List Part} (hm : Within [.aon, .hearth] m) (a0 : Nat) (a1 : Req) (a2 : ReadReply) {s t : State} (h : Keeps m s t) : Keeps m s (doStageBegin a0 a1 a2 t).1 := by
  unfold doStageBegin
  try dsimp only
  repeat' first
    | with_reducible assumption
    | with_reducible apply k_guardM (Within.nil m)
    | with_reducible apply k_updHearth (hm.of (by decide))
    | with_reducible apply k_setFwSlot (hm.of (by decide))
    | with_reducible apply pair_foldl
    | (with_reducible apply pair_get; with_reducible assumption)
    | with_reducible apply k_foldl
    | intro _
    | dsimp only
    | split

theorem k_doStageFinish {m : List Part} (hm : Within [.aon, .hearth] m) (a0 : Nat) (a1 : Req) (a2 : ReadReply) {s t : State} (h : Keeps m s t) : Keeps m s (doStageFinish a0 a1 a2 t).1 := by
  unfold doStageFinish
  try dsimp only
  repeat' first
    | with_reducible assumption
    | with_reducible apply k_updHearth (hm.of (by decide))
    | with_reducible apply k_setFwSlot (hm.of (by decide))
    | with_reducible apply pair_foldl
    | (with_reducible apply pair_get; with_reducible assumption)
    | with_reducible apply k_foldl
    | intro _
    | dsimp only
    | split

theorem k_doTrial {m : List Part} (hm : Within [.aon, .hearth, .hearthUp] m) (a0 : Nat) (a1 : Req) (a2 : ReadReply) {s t : State} (h : Keeps m s t) : Keeps m s (doTrial a0 a1 a2 t).1 := by
  unfold doTrial
  try dsimp only
  repeat' first
    | with_reducible assumption
    | with_reducible apply k_guardM (Within.nil m)
    | with_reducible apply k_restartHearth (hm.of (by decide))
    | with_reducible apply k_updAon (hm.of (by decide))
    | with_reducible apply pair_foldl
    | (with_reducible apply pair_get; with_reducible assumption)
    | with_reducible apply k_foldl
    | intro _
    | dsimp only
    | split

theorem k_dropGranules {m : List Part} (hm : Within [.host, .cmds] m) (a0 : Nat) {s t : State} (h : Keeps m s t) : Keeps m s (dropGranules a0 t) := by
  unfold dropGranules
  try dsimp only
  repeat' first
    | with_reducible assumption
    | with_reducible apply k_updCmd (hm.of (by decide))
    | with_reducible apply k_freeGranules (hm.of (by decide))
    | with_reducible apply k_foldl
    | intro _
    | dsimp only
    | split

theorem k_suspectIn {m : List Part} (hm : Within [.colls] m) (a0 : Nat) {s t : State} (h : Keeps m s t) : Keeps m s (suspectIn a0 t) := by
  unfold suspectIn
  try dsimp only
  repeat' first
    | with_reducible assumption
    | with_reducible apply k_foldl
    | simp only [k_set_colls (hm.of (by decide))]
    | intro _
    | dsimp only
    | split

theorem k_endLevels {m : List Part} (hm : Within [.levels] m) (a0 : Nat) {s t : State} (h : Keeps m s t) : Keeps m s (endLevels a0 t) := by
  unfold endLevels
  try dsimp only
  repeat' first
    | with_reducible assumption
    | with_reducible apply k_foldl
    | simp only [k_set_levels (hm.of (by decide))]
    | intro _
    | dsimp only
    | split

theorem k_endLevel {m : List Part} (hm : Within [.levels] m) (a0 : LadderLevel) {s t : State} (h : Keeps m s t) : Keeps m s (endLevel a0 t) := by
  unfold endLevel
  try dsimp only
  repeat' first
    | with_reducible assumption
    | with_reducible apply k_foldl
    | simp only [k_set_levels (hm.of (by decide))]
    | intro _
    | dsimp only
    | split

theorem k_swapBytes {m : List Part} (hm : Within [.ctxs] m) (a0 : Nat) (a1 : Nat) {s t : State} (h : Keeps m s t) : Keeps m s (swapBytes a0 a1 t) := by
  unfold swapBytes
  try dsimp only
  repeat' first
    | with_reducible assumption
    | with_reducible apply k_updCtx (hm.of (by decide))
    | with_reducible apply k_foldl
    | intro _
    | dsimp only
    | split

theorem k_resume {m : List Part} (hm : Within [.ptns] m) (a0 : Nat) (a1 : Nat) (a2 : Nat) (a3 : Nat × Anvil) {s t : State} (h : Keeps m s t) : Keeps m s (resume a0 a1 a2 a3 t) := by
  unfold resume
  try dsimp only
  repeat' first
    | with_reducible assumption
    | with_reducible apply k_updPtn (hm.of (by decide))
    | with_reducible apply k_updAnvil (hm.of (by decide))
    | with_reducible apply k_foldl
    | intro _
    | dsimp only
    | split

theorem k_restoreRecords {m : List Part} (hm : Within [.ptns, .ctxs] m) (a0 : Nat) (a1 : Nat) {s t : State} (h : Keeps m s t) : Keeps m s (restoreRecords a0 a1 t) := by
  unfold restoreRecords
  try dsimp only
  repeat' first
    | with_reducible assumption
    | with_reducible apply k_swapBytes (hm.of (by decide))
    | with_reducible apply k_updAnvil (hm.of (by decide))
    | with_reducible apply k_resume (hm.of (by decide))
    | with_reducible apply k_foldl
    | intro _
    | dsimp only
    | split

theorem k_evictCtx {m : List Part} (hm : Within [.ptns] m) (a0 : Nat) (a1 : Nat) {s t : State} (h : Keeps m s t) : Keeps m s (evictCtx a0 a1 t) := by
  unfold evictCtx
  try dsimp only
  repeat' first
    | with_reducible assumption
    | with_reducible apply k_updPtn (hm.of (by decide))
    | with_reducible apply k_foldl
    | intro _
    | dsimp only
    | split

theorem k_setPhase {m : List Part} (hm : Within [.ptns] m) (a0 : Nat) (a1 : Nat) {s t : State} (h : Keeps m s t) : Keeps m s (setPhase a0 a1 t) := by
  unfold setPhase
  try dsimp only
  repeat' first
    | with_reducible assumption
    | with_reducible apply k_updPtn (hm.of (by decide))
    | with_reducible apply k_foldl
    | intro _
    | dsimp only
    | split

theorem k_returnOld {m : List Part} (hm : Within [.ptns] m) (a0 : AtomReq) (a1 : Nat) (a2 : Bool) {s t : State} (h : Keeps m s t) : Keeps m s (returnOld a0 a1 a2 t) := by
  unfold returnOld
  try dsimp only
  repeat' first
    | with_reducible assumption
    | with_reducible apply k_updAnvil (hm.of (by decide))
    | with_reducible apply k_foldl
    | intro _
    | dsimp only
    | split

theorem k_noteHolder {m : List Part} (hm : Within [.ptns] m) (a0 : Nat) (a1 : Nat) (a2 : Nat) (a3 : Nat) (a4 : Bool) {s t : State} (h : Keeps m s t) : Keeps m s (noteHolder a0 a1 a2 a3 a4 t) := by
  unfold noteHolder
  try dsimp only
  repeat' first
    | with_reducible assumption
    | with_reducible apply k_updPtn (hm.of (by decide))
    | with_reducible apply k_foldl
    | intro _
    | dsimp only
    | split

theorem k_lostCommit {m : List Part} (hm : Within [.cmds] m) (a0 : Nat) (a1 : List Nat) (a2 : W32) {s t : State} (h : Keeps m s t) : Keeps m s (lostCommit a0 a1 a2 t) := by
  unfold lostCommit
  try dsimp only
  repeat' first
    | with_reducible assumption
    | with_reducible apply k_tryFinish (hm.of (by decide))
    | with_reducible apply k_updCmd (hm.of (by decide))
    | with_reducible apply k_foldl
    | intro _
    | dsimp only
    | split

theorem k_execAspmL1Entry {m : List Part} (hm : Within [.host] m) {s t : State} (h : Keeps m s t) : Goes m s (execAspmL1Entry t) := by
  unfold execAspmL1Entry
  try dsimp only
  repeat' first
    | with_reducible assumption
    | with_reducible apply k_updLink (hm.of (by decide))
    | with_reducible apply goes_onlyIf
    | with_reducible apply goes_next
    | with_reducible apply k_foldl
    | intro _
    | dsimp only
    | split

theorem k_execAspmL1Exit {m : List Part} (hm : Within [.host] m) {s t : State} (h : Keeps m s t) : Goes m s (execAspmL1Exit t) := by
  unfold execAspmL1Exit
  try dsimp only
  repeat' first
    | with_reducible assumption
    | with_reducible apply k_updLink (hm.of (by decide))
    | with_reducible apply goes_onlyIf
    | with_reducible apply goes_next
    | with_reducible apply k_foldl
    | intro _
    | dsimp only
    | split

theorem k_runReq {m : List Part} (hm : Within [] m) (a0 : Handler) (a1 : Nat) (a2 : Req) (a3 : ReadReply) {s t : State} (h : Keeps m s t) (g0 : HandlerKeeps m s a0) : Keeps m s (runReq a0 a1 a2 a3 t).1 := by
  unfold runReq
  try dsimp only
  repeat' first
    | with_reducible assumption
    | with_reducible apply g0.keeps
    | with_reducible apply pair_foldl
    | (with_reducible apply pair_get; with_reducible assumption)
    | with_reducible apply k_foldl
    | intro _
    | dsimp only
    | split

theorem k_nextStep {m : List Part} (hm : Within [.ptns] m) (a0 : Nat) (a1 : Nat) {s t : State} (h : Keeps m s t) : Keeps m s (nextStep a0 a1 t) := by
  unfold nextStep
  try dsimp only
  repeat' first
    | with_reducible assumption
    | with_reducible apply k_updAnvil (hm.of (by decide))
    | with_reducible apply k_foldl
    | intro _
    | dsimp only
    | split

theorem k_stepDone {m : List Part} (hm : Within [.ptns] m) (a0 : Nat) (a1 : Nat) (a2 : Nat) {s t : State} (h : Keeps m s t) : Keeps m s (stepDone a0 a1 a2 t) := by
  unfold stepDone
  try dsimp only
  repeat' first
    | with_reducible assumption
    | with_reducible apply k_addCycles (hm.of (by decide))
    | with_reducible apply k_nextStep (hm.of (by decide))
    | with_reducible apply k_foldl
    | intro _
    | dsimp only
    | split

theorem k_runOp {m : List Part} (hm : Within [.ptns] m) (a0 : Nat) (a1 : Nat) (a2 : Nat) (a3 : W128 → State → State) {s t : State} (h : Keeps m s t) (g3 : ∀ x u, Keeps m s u → Keeps m s (a3 x u)) : Keeps m s (runOp a0 a1 a2 a3 t) := by
  unfold runOp
  try dsimp only
  repeat' first
    | with_reducible assumption
    | with_reducible apply k_stepDone (hm.of (by decide))
    | with_reducible apply g3
    | with_reducible apply k_foldl
    | intro _
    | dsimp only
    | split

theorem k_waitFor {m : List Part} (hm : Within [.ptns] m) (a0 : AnvState) (a1 : Nat) (a2 : Nat) {s t : State} (h : Keeps m s t) : Keeps m s (waitFor a0 a1 a2 t) := by
  unfold waitFor
  try dsimp only
  repeat' first
    | with_reducible assumption
    | with_reducible apply k_updAnvil (hm.of (by decide))
    | with_reducible apply k_foldl
    | intro _
    | dsimp only
    | split

theorem k_execAuxSupplyLoss {m : List Part} (hm : Within [.aon, .pins, .host, .ptns, .jobs, .ctxs, .colls, .cmds, .nextCmd, .hearth, .hearthUp, .faults, .levels, .seamTok, .icern, .power, .jtag, .hbm, .poison] m) {s t : State} (h : Keeps m s t) : Goes m s (execAuxSupplyLoss t) := by
  unfold execAuxSupplyLoss
  try dsimp only
  repeat' first
    | with_reducible assumption
    | with_reducible apply k_auxUp (hm.of (by decide))
    | with_reducible apply k_updPins (hm.of (by decide))
    | with_reducible apply goes_onlyIf
    | with_reducible apply goes_next
    | with_reducible apply k_foldl
    | intro _
    | dsimp only
    | split

theorem k_execAuxSupplyUp {m : List Part} (hm : Within [.aon, .pins, .host, .ptns, .jobs, .ctxs, .colls, .cmds, .nextCmd, .hearth, .hearthUp, .faults, .levels, .seamTok, .icern, .power, .jtag, .hbm, .poison] m) {s t : State} (h : Keeps m s t) : Goes m s (execAuxSupplyUp t) := by
  unfold execAuxSupplyUp
  try dsimp only
  repeat' first
    | with_reducible assumption
    | with_reducible apply k_auxUp (hm.of (by decide))
    | with_reducible apply goes_onlyIf
    | with_reducible apply goes_next
    | with_reducible apply k_foldl
    | intro _
    | dsimp only
    | split

theorem k_execBankedIdleTimeout {m : List Part} (hm : Within [.ptns] m) (a0 : Fin 12) {s t : State} (h : Keeps m s t) : Goes m s (execBankedIdleTimeout a0 t) := by
  unfold execBankedIdleTimeout
  try dsimp only
  repeat' first
    | with_reducible assumption
    | with_reducible apply k_startBanking (hm.of (by decide))
    | with_reducible apply goes_onlyIf
    | with_reducible apply goes_next
    | with_reducible apply k_foldl
    | intro _
    | dsimp only
    | split

theorem k_opBfma {m : List Part} (hm : Within [.ptns, .free] m) (a0 : Nat) (a1 : Nat) (a2 : W128) {s t : State} (h : Keeps m s t) : Keeps m s (opBfma a0 a1 a2 t) := by
  unfold opBfma
  try dsimp only
  repeat' first
    | with_reducible assumption
    | with_reducible apply k_spend (hm.of (by decide))
    | with_reducible apply k_stepDone (hm.of (by decide))
    | with_reducible apply k_updAnvil (hm.of (by decide))
    | with_reducible apply k_foldl
    | intro _
    | dsimp only
    | split

theorem k_opBound {m : List Part} (hm : Within [.ptns] m) (a0 : Nat) (a1 : Nat) (a2 : W128) {s t : State} (h : Keeps m s t) : Keeps m s (opBound a0 a1 a2 t) := by
  unfold opBound
  try dsimp only
  repeat' first
    | with_reducible assumption
    | with_reducible apply k_stepDone (hm.of (by decide))
    | with_reducible apply k_updAnvil (hm.of (by decide))
    | with_reducible apply k_foldl
    | intro _
    | dsimp only
    | split

theorem k_goTo {m : List Part} (hm : Within [.ptns] m) (a0 : Nat) (a1 : Nat) (a2 : Nat) {s t : State} (h : Keeps m s t) : Keeps m s (goTo a0 a1 a2 t) := by
  unfold goTo
  try dsimp only
  repeat' first
    | with_reducible assumption
    | with_reducible apply k_updAnvil (hm.of (by decide))
    | with_reducible apply k_foldl
    | intro _
    | dsimp only
    | split

theorem k_opBranch {m : List Part} (hm : Within [.ptns] m) (a0 : Nat) (a1 : Nat) (a2 : W128) {s t : State} (h : Keeps m s t) : Keeps m s (opBranch a0 a1 a2 t) := by
  unfold opBranch
  try dsimp only
  repeat' first
    | with_reducible assumption
    | with_reducible apply k_addCycles (hm.of (by decide))
    | with_reducible apply k_goTo (hm.of (by decide))
    | with_reducible apply k_stepDone (hm.of (by decide))
    | with_reducible apply k_foldl
    | intro _
    | dsimp only
    | split

theorem k_execBranch {m : List Part} (hm : Within [.ptns] m) (a0 : Fin 12) (a1 : Fin 864) {s t : State} (h : Keeps m s t) : Goes m s (execBranch a0 a1 t) := by
  unfold execBranch
  try dsimp only
  repeat' first
    | with_reducible assumption
    | with_reducible apply k_runOp (hm.of (by decide))
    | with_reducible apply k_opBranch (hm.of (by decide))
    | with_reducible apply goes_onlyIf
    | with_reducible apply goes_next
    | with_reducible apply k_foldl
    | intro _
    | dsimp only
    | split

theorem k_startBulk {m : List Part} (hm : Within [.ptns, .colls] m) (a0 : Nat) {s t : State} (h : Keeps m s t) : Keeps m s (startBulk a0 t) := by
  unfold startBulk
  try dsimp only
  repeat' first
    | with_reducible assumption
    | with_reducible apply k_queueChunk (hm.of (by decide))
    | with_reducible apply k_noteIngest (hm.of (by decide))
    | with_reducible apply k_foldl
    | intro _
    | dsimp only
    | split

theorem k_ticketWork {m : List Part} (hm : Within [.hearth] m) (a0 : Nat) (a1 : Ticket) (a2 : Work) {s t : State} (h : Keeps m s t) : Keeps m s (ticketWork a0 a1 a2 t) := by
  unfold ticketWork
  try dsimp only
  repeat' first
    | with_reducible assumption
    | with_reducible apply k_updHearth (hm.of (by decide))
    | with_reducible apply k_foldl
    | intro _
    | dsimp only
    | split

theorem k_takePtn {m : List Part} (hm : Within [.ptns] m) (a0 : Nat) (a1 : List Nat) (a2 : Nat) {s t : State} (h : Keeps m s t) : Keeps m s (takePtn a0 a1 a2 t) := by
  unfold takePtn
  try dsimp only
  repeat' first
    | with_reducible assumption
    | with_reducible apply k_updPtn (hm.of (by decide))
    | with_reducible apply k_resetRates (hm.of (by decide))
    | with_reducible apply k_foldl
    | intro _
    | dsimp only
    | split

/-- What a legal TAP is, part by part. -/
theorem tapOk_iff (j : Jtag) : tapOk j = true ↔ (j.instr.toNat ≤ 6 ∨ j.instr = 0xFF) ∧
    (j.functional = !drives j.instr.toNat) ∧ (j.boundary.length = 0 ∨ j.boundary.length = 71) := by
  cases h : j.functional <;> cases h' : drives j.instr.toNat <;> simp [tapOk, h, h', and_assoc]
theorem leaveScan_jtag (t : State) : (leaveScan t).jtag = { t.jtag with functional := true } := by
  unfold leaveScan
  split
  · rename_i e
    cases j : t.jtag
    simp_all
  · rfl

/-- Leaving a scan instruction for one that drives nothing. -/
theorem k_leaveScan {m : List Part} (hm : Within [.icern, .jtag] m) (c : Byte) (r : Bool) (hc : c.toNat ≤ 6 ∨ c = 0xFF) (hd : drives c.toNat = false) {s t : State} (h : Keeps m s t) :
    Keeps m s { leaveScan t with jtag := { (leaveScan t).jtag with instr := c, refused := r } } := by
  have w : ∀ j : Jtag, tapOk j = true → tapOk { { j with functional := true } with instr := c, refused := r } = true := fun j w => by
    rw [tapOk_iff] at w ⊢
    exact ⟨hc, by rw [hd]; rfl, w.2.2⟩
  rw [leaveScan_jtag]
  unfold leaveScan
  split
  · exact k_setTap (hm.of (by decide)) h (w _)
  · exact ⟨h.1, fun x => w _ (h.2 x), h.3, h.4, fun p hp => by have := h.5 p hp; cases p <;> first | exact this | exact absurd (hm _ (by decide)) hp⟩

theorem k_execCoolantSample {m : List Part} (hm : Within [.power] m) (a0 : Option Int) (a1 : Option Int) {s t : State} (h : Keeps m s t) : Goes m s (execCoolantSample a0 a1 t) := by
  unfold execCoolantSample
  try dsimp only
  repeat' first
    | with_reducible assumption
    | with_reducible apply k_updPower (hm.of (by decide))
    | with_reducible apply goes_onlyIf
    | with_reducible apply goes_next
    | with_reducible apply k_foldl
    | intro _
    | dsimp only
    | split

theorem k_execCxlCacheSnoop {m : List Part} (hm : Within [.host] m) (a0 : W64) {s t : State} (h : Keeps m s t) : Goes m s (execCxlCacheSnoop a0 t) := by
  unfold execCxlCacheSnoop
  try dsimp only
  repeat' first
    | with_reducible assumption
    | with_reducible apply k_answer (hm.of (by decide))
    | with_reducible apply goes_onlyIf
    | with_reducible apply goes_next
    | with_reducible apply k_foldl
    | intro _
    | dsimp only
    | split

theorem k_execCxlEnable {m : List Part} (hm : Within [.host] m) (a0 : Bool) (a1 : Bool) (a2 : Bool) {s t : State} (h : Keeps m s t) : Goes m s (execCxlEnable a0 a1 a2 t) := by
  unfold execCxlEnable
  try dsimp only
  repeat' first
    | with_reducible assumption
    | with_reducible apply k_updLink (hm.of (by decide))
    | with_reducible apply goes_onlyIf
    | with_reducible apply goes_next
    | with_reducible apply k_foldl
    | intro _
    | dsimp only
    | split

theorem k_execD0Entry {m : List Part} (hm : Within [.host] m) {s t : State} (h : Keeps m s t) : Goes m s (execD0Entry t) := by
  unfold execD0Entry
  try dsimp only
  repeat' first
    | with_reducible assumption
    | with_reducible apply k_updLink (hm.of (by decide))
    | with_reducible apply goes_onlyIf
    | with_reducible apply goes_next
    | with_reducible apply k_foldl
    | intro _
    | dsimp only
    | split

theorem k_execDieDepthTick {m : List Part} (hm : Within [.power] m) (a0 : Die) {s t : State} (h : Keeps m s t) : Goes m s (execDieDepthTick a0 t) := by
  unfold execDieDepthTick
  try dsimp only
  repeat' first
    | with_reducible assumption
    | with_reducible apply k_updPower (hm.of (by decide))
    | with_reducible apply goes_onlyIf
    | with_reducible apply goes_next
    | with_reducible apply k_foldl
    | intro _
    | dsimp only
    | split

theorem k_takePool {m : List Part} (hm : Within [.host] m) (a0 : Hold) {s t : State} (h : Keeps m s t) : Keeps m s (takePool a0 t) := by
  unfold takePool
  try dsimp only
  repeat' first
    | with_reducible assumption
    | with_reducible apply k_updHost (hm.of (by decide))
    | with_reducible apply k_foldl
    | intro _
    | dsimp only
    | split

theorem k_opDot {m : List Part} (hm : Within [.ptns] m) (a0 : Nat) (a1 : Nat) (a2 : W128) {s t : State} (h : Keeps m s t) : Keeps m s (opDot a0 a1 a2 t) := by
  unfold opDot
  try dsimp only
  repeat' first
    | with_reducible assumption
    | with_reducible apply k_stepDone (hm.of (by decide))
    | with_reducible apply k_updAnvil (hm.of (by decide))
    | with_reducible apply k_foldl
    | intro _
    | dsimp only
    | split

theorem k_execEngineResetDone {m : List Part} (hm : Within [.levels] m) (a0 : Nat) (a1 : Fin 12) {s t : State} (h : Keeps m s t) : Goes m s (execEngineResetDone a0 a1 t) := by
  unfold execEngineResetDone
  try dsimp only
  repeat' first
    | with_reducible assumption
    | with_reducible apply k_endLevel (hm.of (by decide))
    | with_reducible apply goes_onlyIf
    | with_reducible apply goes_next
    | with_reducible apply k_foldl
    | intro _
    | dsimp only
    | split

theorem k_takeAddress {m : List Part} (hm : Within [.aon] m) (a0 : BitVec 7) {s t : State} (h : Keeps m s t) : Keeps m s (takeAddress a0 t) := by
  unfold takeAddress
  try dsimp only
  repeat' first
    | with_reducible assumption
    | with_reducible apply k_updAon (hm.of (by decide))
    | with_reducible apply k_foldl
    | intro _
    | dsimp only
    | split

theorem k_execEntdaa {m : List Part} (hm : Within [.aon] m) (a0 : BitVec 7) {s t : State} (h : Keeps m s t) : Goes m s (execEntdaa a0 t) := by
  unfold execEntdaa
  try dsimp only
  repeat' first
    | with_reducible assumption
    | with_reducible apply k_takeAddress (hm.of (by decide))
    | with_reducible apply goes_onlyIf
    | with_reducible apply goes_next
    | with_reducible apply k_foldl
    | intro _
    | dsimp only
    | split

theorem k_keep {m : List Part} (hm : Within [] m) (a0 : Nat) {s t : State} (h : Keeps m s t) : Keeps m s (keep a0 t) := by
  unfold keep
  try dsimp only
  repeat' first
    | with_reducible assumption
    | with_reducible apply k_foldl
    | intro _
    | dsimp only
    | split

theorem k_execExitDemand {m : List Part} (hm : Within [.ptns] m) (a0 : Fin 12) {s t : State} (h : Keeps m s t) : Goes m s (execExitDemand a0 t) := by
  unfold execExitDemand
  try dsimp only
  repeat' first
    | with_reducible assumption
    | with_reducible apply k_demand (hm.of (by decide))
    | with_reducible apply goes_onlyIf
    | with_reducible apply goes_next
    | with_reducible apply k_foldl
    | intro _
    | dsimp only
    | split

theorem k_setPeer {m : List Part} (hm : Within [.icern] m) (a0 : Nat) (a1 : Peer) {s t : State} (h : Keeps m s t) : Keeps m s (setPeer a0 a1 t) := by
  unfold setPeer
  try dsimp only
  repeat' first
    | with_reducible assumption
    | with_reducible apply k_updIcern (hm.of (by decide))
    | with_reducible apply k_foldl
    | intro _
    | dsimp only
    | split

theorem k_landFetch {m : List Part} (hm : Within [.ptns] m) (a0 : Nat) (a1 : Nat) (a2 : Nat) {s t : State} (h : Keeps m s t) : Keeps m s (landFetch a0 a1 a2 t) := by
  unfold landFetch
  try dsimp only
  repeat' first
    | with_reducible assumption
    | with_reducible apply k_updAnvil (hm.of (by decide))
    | with_reducible apply k_foldl
    | intro _
    | dsimp only
    | split

theorem k_execFetchLand {m : List Part} (hm : Within [.ptns] m) (a0 : Fin 12) (a1 : Fin 864) (a2 : Nat) {s t : State} (h : Keeps m s t) : Goes m s (execFetchLand a0 a1 a2 t) := by
  unfold execFetchLand
  try dsimp only
  repeat' first
    | with_reducible assumption
    | with_reducible apply k_landFetch (hm.of (by decide))
    | with_reducible apply goes_onlyIf
    | with_reducible apply goes_next
    | with_reducible apply k_foldl
    | intro _
    | dsimp only
    | split

theorem k_sendToDevice {m : List Part} (hm : Within [.cmds] m) (a0 : Nat) (a1 : Nat) (a2 : Nat) (a3 : Cmd) {s t : State} (h : Keeps m s t) : Keeps m s (sendToDevice a0 a1 a2 a3 t) := by
  unfold sendToDevice
  try dsimp only
  repeat' first
    | with_reducible assumption
    | with_reducible apply k_updProbe (hm.of (by decide))
    | with_reducible apply k_updRow (hm.of (by decide))
    | with_reducible apply k_foldl
    | intro _
    | dsimp only
    | split

theorem k_getStatus {m : List Part} (hm : Within [.aon, .host, .free] m) {s t : State} (h : Keeps m s t) : Keeps m s (getStatus t) := by
  unfold getStatus
  try dsimp only
  repeat' first
    | with_reducible assumption
    | with_reducible apply k_updAon (hm.of (by decide))
    | with_reducible apply k_answer (hm.of (by decide))
    | with_reducible apply k_spend (hm.of (by decide))
    | with_reducible apply k_foldl
    | intro _
    | dsimp only
    | split

theorem k_execGetstatus {m : List Part} (hm : Within [.aon, .host, .free] m) {s t : State} (h : Keeps m s t) : Goes m s (execGetstatus t) := by
  unfold execGetstatus
  try dsimp only
  repeat' first
    | with_reducible assumption
    | with_reducible apply k_getStatus (hm.of (by decide))
    | with_reducible apply goes_onlyIf
    | with_reducible apply goes_next
    | with_reducible apply k_foldl
    | intro _
    | dsimp only
    | split

theorem k_heartbeat {m : List Part} (hm : Within [.icern] m) (a0 : Msg) {s t : State} (h : Keeps m s t) : Keeps m s (heartbeat a0 t) := by
  unfold heartbeat
  try dsimp only
  repeat' first
    | with_reducible assumption
    | with_reducible apply k_setPeer (hm.of (by decide))
    | with_reducible apply k_foldl
    | intro _
    | dsimp only
    | split

theorem k_sendHeartbeat {m : List Part} (hm : Within [.icern] m) (a0 : Nat) {s t : State} (h : Keeps m s t) : Keeps m s (sendHeartbeat a0 t) := by
  unfold sendHeartbeat
  try dsimp only
  repeat' first
    | with_reducible assumption
    | with_reducible apply k_queueFlits (hm.of (by decide))
    | with_reducible apply k_updPort (hm.of (by decide))
    | with_reducible apply k_foldl
    | intro _
    | dsimp only
    | split

theorem k_execHeartbeatTimer {m : List Part} (hm : Within [.icern] m) (a0 : Fin 4) {s t : State} (h : Keeps m s t) : Goes m s (execHeartbeatTimer a0 t) := by
  unfold execHeartbeatTimer
  try dsimp only
  repeat' first
    | with_reducible assumption
    | with_reducible apply k_sendHeartbeat (hm.of (by decide))
    | with_reducible apply goes_onlyIf
    | with_reducible apply goes_next
    | with_reducible apply k_foldl
    | intro _
    | dsimp only
    | split

theorem k_execHearthRestartDone {m : List Part} (hm : Within [.hearth, .hearthUp] m) {s t : State} (h : Keeps m s t) : Goes m s (execHearthRestartDone t) := by
  unfold execHearthRestartDone
  try dsimp only
  repeat' first
    | with_reducible assumption
    | with_reducible apply k_startMailboxes (hm.of (by decide))
    | with_reducible apply k_updHearth (hm.of (by decide))
    | with_reducible apply goes_onlyIf
    | with_reducible apply goes_next
    | with_reducible apply k_foldl
    | simp only [k_set_hearthUp (hm.of (by decide))]
    | intro _
    | dsimp only
    | split

theorem k_execHearthSleep {m : List Part} (hm : Within [.hearth] m) {s t : State} (h : Keeps m s t) : Goes m s (execHearthSleep t) := by
  unfold execHearthSleep
  try dsimp only
  repeat' first
    | with_reducible assumption
    | with_reducible apply k_updHearth (hm.of (by decide))
    | with_reducible apply goes_onlyIf
    | with_reducible apply goes_next
    | with_reducible apply k_foldl
    | intro _
    | dsimp only
    | split

theorem k_execHearthWake {m : List Part} (hm : Within [.hearth] m) {s t : State} (h : Keeps m s t) : Goes m s (execHearthWake t) := by
  unfold execHearthWake
  try dsimp only
  repeat' first
    | with_reducible assumption
    | with_reducible apply k_startMailboxes (hm.of (by decide))
    | with_reducible apply k_updHearth (hm.of (by decide))
    | with_reducible apply goes_onlyIf
    | with_reducible apply goes_next
    | with_reducible apply k_foldl
    | intro _
    | dsimp only
    | split

theorem k_settleLog {m : List Part} (hm : Within [.ptns] m) (a0 : Nat) (a1 : Epoch) {s t : State} (h : Keeps m s t) : Keeps m s (settleLog a0 a1 t) := by
  unfold settleLog
  try dsimp only
  repeat' first
    | with_reducible assumption
    | with_reducible apply k_foldl
    | simp only [k_set_ptns (hm.of (by decide))]
    | intro _
    | dsimp only
    | split

theorem k_execHotCountHalve {m : List Part} (hm : Within [.ptns] m) (a0 : Fin 12) {s t : State} (h : Keeps m s t) : Goes m s (execHotCountHalve a0 t) := by
  unfold execHotCountHalve
  try dsimp only
  repeat' first
    | with_reducible assumption
    | with_reducible apply k_updPtn (hm.of (by decide))
    | with_reducible apply goes_onlyIf
    | with_reducible apply goes_next
    | with_reducible apply k_foldl
    | intro _
    | dsimp only
    | split

theorem k_keepL4 {m : List Part} (hm : Within [.levels] m) (a : State) {s t : State} (h : Keeps m s t) : Keeps m s (keepL4 a t) := by
  unfold keepL4; simp only [k_set_levels (hm.of (by decide))]; exact h

theorem k_refusePart {m : List Part} (hm : Within [.cmds, .nextCmd] m) (a0 : Msg) (a1 : BitVec 512) (a2 : Nat) (a3 : Refused) {s t : State} (h : Keeps m s t) : Keeps m s (refusePart a0 a1 a2 a3 t) := by
  unfold refusePart
  try dsimp only
  repeat' first
    | with_reducible assumption
    | with_reducible apply k_addCmd (hm.of (by decide))
    | with_reducible apply k_foldl
    | intro _
    | dsimp only
    | split

theorem k_execLaneBind {m : List Part} (hm : Within [.ptns] m) (a0 : Fin 12) (a1 : Fin 864) (a2 : Nat) (a3 : List LaneReq) {s t : State} (h : Keeps m s t) : Goes m s (execLaneBind a0 a1 a2 a3 t) := by
  unfold execLaneBind
  try dsimp only
  repeat' first
    | with_reducible assumption
    | with_reducible apply k_bindLanes (hm.of (by decide))
    | with_reducible apply goes_onlyIf
    | with_reducible apply goes_next
    | with_reducible apply k_foldl
    | intro _
    | dsimp only
    | split

theorem k_execLinkRetrainTimer {m : List Part} (hm : Within [.host] m) {s t : State} (h : Keeps m s t) : Goes m s (execLinkRetrainTimer t) := by
  unfold execLinkRetrainTimer
  try dsimp only
  repeat' first
    | with_reducible assumption
    | with_reducible apply k_updLink (hm.of (by decide))
    | with_reducible apply goes_onlyIf
    | with_reducible apply goes_next
    | with_reducible apply k_foldl
    | intro _
    | dsimp only
    | split

theorem k_opLoop {m : List Part} (hm : Within [.ptns] m) (a0 : Nat) (a1 : Nat) (a2 : W128) {s t : State} (h : Keeps m s t) : Keeps m s (opLoop a0 a1 a2 t) := by
  unfold opLoop
  try dsimp only
  repeat' first
    | with_reducible assumption
    | with_reducible apply k_updAnvil (hm.of (by decide))
    | with_reducible apply k_addCycles (hm.of (by decide))
    | with_reducible apply k_goTo (hm.of (by decide))
    | with_reducible apply k_stepDone (hm.of (by decide))
    | with_reducible apply k_foldl
    | intro _
    | dsimp only
    | split

theorem k_execLoop {m : List Part} (hm : Within [.ptns] m) (a0 : Fin 12) (a1 : Fin 864) {s t : State} (h : Keeps m s t) : Goes m s (execLoop a0 a1 t) := by
  unfold execLoop
  try dsimp only
  repeat' first
    | with_reducible assumption
    | with_reducible apply k_runOp (hm.of (by decide))
    | with_reducible apply k_opLoop (hm.of (by decide))
    | with_reducible apply goes_onlyIf
    | with_reducible apply goes_next
    | with_reducible apply k_foldl
    | intro _
    | dsimp only
    | split

theorem k_freeLoose {m : List Part} (hm : Within [.ptns, .colls] m) (a0 : Nat) {s t : State} (h : Keeps m s t) : Keeps m s (freeLoose a0 t) := by
  unfold freeLoose
  try dsimp only
  repeat' first
    | with_reducible assumption
    | with_reducible apply k_updColl (hm.of (by decide))
    | with_reducible apply k_freeBricks (hm.of (by decide))
    | with_reducible apply k_foldl
    | intro _
    | dsimp only
    | split

theorem k_execLooseFree {m : List Part} (hm : Within [.ptns, .colls] m) (a0 : Nat) {s t : State} (h : Keeps m s t) : Goes m s (execLooseFree a0 t) := by
  unfold execLooseFree
  try dsimp only
  repeat' first
    | with_reducible assumption
    | with_reducible apply k_freeLoose (hm.of (by decide))
    | with_reducible apply goes_onlyIf
    | with_reducible apply goes_next
    | with_reducible apply k_foldl
    | intro _
    | dsimp only
    | split

theorem k_queueFar {m : List Part} (hm : Within [.ptns] m) (a0 : Nat) (a1 : HomeReq) (a2 : Requester) {s t : State} (h : Keeps m s t) : Keeps m s (queueFar a0 a1 a2 t) := by
  unfold queueFar
  try dsimp only
  repeat' first
    | with_reducible assumption
    | with_reducible apply k_updPtn (hm.of (by decide))
    | with_reducible apply k_foldl
    | intro _
    | dsimp only
    | split

theorem k_opMfence {m : List Part} (hm : Within [.ptns] m) (a0 : Nat) (a1 : Nat) (a2 : W128) {s t : State} (h : Keeps m s t) : Keeps m s (opMfence a0 a1 a2 t) := by
  unfold opMfence
  try dsimp only
  repeat' first
    | with_reducible assumption
    | with_reducible apply k_stepDone (hm.of (by decide))
    | with_reducible apply k_waitFor (hm.of (by decide))
    | with_reducible apply k_foldl
    | intro _
    | dsimp only
    | split

theorem k_execMfence {m : List Part} (hm : Within [.ptns] m) (a0 : Fin 12) (a1 : Fin 864) {s t : State} (h : Keeps m s t) : Goes m s (execMfence a0 a1 t) := by
  unfold execMfence
  try dsimp only
  repeat' first
    | with_reducible assumption
    | with_reducible apply k_runOp (hm.of (by decide))
    | with_reducible apply k_opMfence (hm.of (by decide))
    | with_reducible apply goes_onlyIf
    | with_reducible apply goes_next
    | with_reducible apply k_foldl
    | intro _
    | dsimp only
    | split

theorem k_opMove {m : List Part} (hm : Within [.ptns] m) (a0 : Nat) (a1 : Nat) (a2 : W128) {s t : State} (h : Keeps m s t) : Keeps m s (opMove a0 a1 a2 t) := by
  unfold opMove
  try dsimp only
  repeat' first
    | with_reducible assumption
    | with_reducible apply k_stepDone (hm.of (by decide))
    | with_reducible apply k_updAnvil (hm.of (by decide))
    | with_reducible apply k_foldl
    | intro _
    | dsimp only
    | split

theorem k_loadDesc {m : List Part} (hm : Within [.ptns] m) (a0 : Nat) (a1 : Nat) (a2 : Desc) (a3 : Nat) {s t : State} (h : Keeps m s t) : Keeps m s (loadDesc a0 a1 a2 a3 t) := by
  unfold loadDesc
  try dsimp only
  repeat' first
    | with_reducible assumption
    | with_reducible apply k_updAnvil (hm.of (by decide))
    | with_reducible apply k_foldl
    | intro _
    | dsimp only
    | split

theorem k_nextOfChunk {m : List Part} (hm : Within [.ptns] m) (a0 : Nat) (a1 : Nat) (a2 : Chunk) {s t : State} (h : Keeps m s t) : Keeps m s (nextOfChunk a0 a1 a2 t) := by
  unfold nextOfChunk
  try dsimp only
  repeat' first
    | with_reducible assumption
    | with_reducible apply k_loadDesc (hm.of (by decide))
    | with_reducible apply k_updAnvil (hm.of (by decide))
    | with_reducible apply k_foldl
    | intro _
    | dsimp only
    | split

theorem k_takeList {m : List Part} (hm : Within [.cmds, .free] m) (a0 : Nat) (a1 : Msg) {s t : State} (h : Keeps m s t) : Keeps m s (takeList a0 a1 t) := by
  unfold takeList
  try dsimp only
  repeat' first
    | with_reducible assumption
    | with_reducible apply k_updRow (hm.of (by decide))
    | with_reducible apply k_spend (hm.of (by decide))
    | with_reducible apply k_updCmd (hm.of (by decide))
    | with_reducible apply k_foldl
    | intro _
    | dsimp only
    | split

theorem k_execPerstDeassert {m : List Part} (hm : Within [.pins] m) {s t : State} (h : Keeps m s t) : Goes m s (execPerstDeassert t) := by
  unfold execPerstDeassert
  try dsimp only
  repeat' first
    | with_reducible assumption
    | with_reducible apply k_updPins (hm.of (by decide))
    | with_reducible apply goes_onlyIf
    | with_reducible apply goes_next
    | with_reducible apply k_foldl
    | intro _
    | dsimp only
    | split

theorem k_updateFw {m : List Part} (hm : Within [.aon, .host, .hearth] m) (a0 : List Byte) {s t : State} (h : Keeps m s t) : Keeps m s (updateFw a0 t) := by
  unfold updateFw
  try dsimp only
  repeat' first
    | with_reducible assumption
    | with_reducible apply k_answer (hm.of (by decide))
    | with_reducible apply k_updAon (hm.of (by decide))
    | with_reducible apply k_updHearth (hm.of (by decide))
    | with_reducible apply k_setFwSlot (hm.of (by decide))
    | with_reducible apply k_foldl
    | intro _
    | dsimp only
    | split

theorem k_execPldmFwUpdate {m : List Part} (hm : Within [.aon, .host, .hearth] m) (a0 : List Byte) {s t : State} (h : Keeps m s t) : Goes m s (execPldmFwUpdate a0 t) := by
  unfold execPldmFwUpdate
  try dsimp only
  repeat' first
    | with_reducible assumption
    | with_reducible apply k_updateFw (hm.of (by decide))
    | with_reducible apply goes_onlyIf
    | with_reducible apply goes_next
    | with_reducible apply k_foldl
    | intro _
    | dsimp only
    | split

theorem k_writePlim {m : List Part} (hm : Within [.aon, .host] m) (a0 : Nat) {s t : State} (h : Keeps m s t) : Keeps m s (writePlim a0 t) := by
  unfold writePlim
  try dsimp only
  repeat' first
    | with_reducible assumption
    | with_reducible apply k_answer (hm.of (by decide))
    | with_reducible apply k_updAon (hm.of (by decide))
    | with_reducible apply k_foldl
    | intro _
    | dsimp only
    | split

theorem k_execPldmPlimWrite {m : List Part} (hm : Within [.aon, .host] m) (a0 : Nat) {s t : State} (h : Keeps m s t) : Goes m s (execPldmPlimWrite a0 t) := by
  unfold execPldmPlimWrite
  try dsimp only
  repeat' first
    | with_reducible assumption
    | with_reducible apply k_writePlim (hm.of (by decide))
    | with_reducible apply goes_onlyIf
    | with_reducible apply goes_next
    | with_reducible apply k_foldl
    | intro _
    | dsimp only
    | split

theorem k_execPldmSensorRead {m : List Part} (hm : Within [.host] m) (a0 : PldmSensor) {s t : State} (h : Keeps m s t) : Goes m s (execPldmSensorRead a0 t) := by
  unfold execPldmSensorRead
  try dsimp only
  repeat' first
    | with_reducible assumption
    | with_reducible apply k_answer (hm.of (by decide))
    | with_reducible apply goes_onlyIf
    | with_reducible apply goes_next
    | with_reducible apply k_foldl
    | intro _
    | dsimp only
    | split

theorem k_execPowerTick100us {m : List Part} (hm : Within [.power] m) {s t : State} (h : Keeps m s t) : Goes m s (execPowerTick100us t) := by
  unfold execPowerTick100us
  try dsimp only
  repeat' first
    | with_reducible assumption
    | with_reducible apply k_updPower (hm.of (by decide))
    | with_reducible apply goes_onlyIf
    | with_reducible apply goes_next
    | with_reducible apply k_foldl
    | intro _
    | dsimp only
    | split

theorem k_execPowerTick10us {m : List Part} (hm : Within [.power, .free] m) (a0 : Nat) {s t : State} (h : Keeps m s t) : Goes m s (execPowerTick10us a0 t) := by
  unfold execPowerTick10us
  try dsimp only
  repeat' first
    | with_reducible assumption
    | with_reducible apply k_spend (hm.of (by decide))
    | with_reducible apply k_updPower (hm.of (by decide))
    | with_reducible apply goes_onlyIf
    | with_reducible apply goes_next
    | with_reducible apply k_foldl
    | intro _
    | dsimp only
    | split

theorem k_stopProbing {m : List Part} (hm : Within [.ptns, .cmds] m) (a0 : Nat) {s t : State} (h : Keeps m s t) : Keeps m s (stopProbing a0 t) := by
  unfold stopProbing
  try dsimp only
  repeat' first
    | with_reducible assumption
    | with_reducible apply k_updCmd (hm.of (by decide))
    | with_reducible apply k_closeProbing (hm.of (by decide))
    | with_reducible apply k_foldl
    | intro _
    | dsimp only
    | split

theorem k_execProbeStop {m : List Part} (hm : Within [.ptns, .cmds] m) (a0 : Nat) {s t : State} (h : Keeps m s t) : Goes m s (execProbeStop a0 t) := by
  unfold execProbeStop
  try dsimp only
  repeat' first
    | with_reducible assumption
    | with_reducible apply k_stopProbing (hm.of (by decide))
    | with_reducible apply goes_onlyIf
    | with_reducible apply goes_next
    | with_reducible apply k_foldl
    | intro _
    | dsimp only
    | split

theorem k_execProbeTimeout {m : List Part} (hm : Within [.jobs] m) (a0 : Nat) (a1 : Nat) {s t : State} (h : Keeps m s t) : Goes m s (execProbeTimeout a0 a1 t) := by
  unfold execProbeTimeout
  try dsimp only
  repeat' first
    | with_reducible assumption
    | with_reducible apply k_updJob (hm.of (by decide))
    | with_reducible apply goes_onlyIf
    | with_reducible apply goes_next
    | with_reducible apply k_foldl
    | intro _
    | dsimp only
    | split

theorem k_execPwrEnAssert {m : List Part} (hm : Within [.pins] m) {s t : State} (h : Keeps m s t) : Goes m s (execPwrEnAssert t) := by
  unfold execPwrEnAssert
  try dsimp only
  repeat' first
    | with_reducible assumption
    | with_reducible apply k_updPins (hm.of (by decide))
    | with_reducible apply goes_onlyIf
    | with_reducible apply goes_next
    | with_reducible apply k_foldl
    | intro _
    | dsimp only
    | split

theorem k_execPwrgd {m : List Part} (hm : Within [.pins, .host] m) {s t : State} (h : Keeps m s t) : Goes m s (execPwrgd t) := by
  unfold execPwrgd
  try dsimp only
  repeat' first
    | with_reducible assumption
    | with_reducible apply k_updLink (hm.of (by decide))
    | with_reducible apply k_updPins (hm.of (by decide))
    | with_reducible apply goes_onlyIf
    | with_reducible apply goes_next
    | with_reducible apply k_foldl
    | intro _
    | dsimp only
    | split

theorem k_execRedistributeDone {m : List Part} (hm : Within [.colls] m) (a0 : Nat) {s t : State} (h : Keeps m s t) : Goes m s (execRedistributeDone a0 t) := by
  unfold execRedistributeDone
  try dsimp only
  repeat' first
    | with_reducible assumption
    | with_reducible apply k_joinEpoch (hm.of (by decide))
    | with_reducible apply k_updColl (hm.of (by decide))
    | with_reducible apply goes_onlyIf
    | with_reducible apply goes_next
    | with_reducible apply k_foldl
    | intro _
    | dsimp only
    | split

theorem k_execRegAdapt {m : List Part} (hm : Within [.ptns] m) (a0 : Fin 12) (a1 : AdaptObs) {s t : State} (h : Keeps m s t) : Goes m s (execRegAdapt a0 a1 t) := by
  unfold execRegAdapt
  try dsimp only
  repeat' first
    | with_reducible assumption
    | with_reducible apply k_updPtn (hm.of (by decide))
    | with_reducible apply goes_onlyIf
    | with_reducible apply goes_next
    | with_reducible apply k_foldl
    | intro _
    | dsimp only
    | split

theorem k_execReleasedReread {m : List Part} (hm : Within [.ctxs] m) (a0 : Nat) {s t : State} (h : Keeps m s t) : Goes m s (execReleasedReread a0 t) := by
  unfold execReleasedReread
  try dsimp only
  repeat' first
    | with_reducible assumption
    | with_reducible apply k_updJournal (hm.of (by decide))
    | with_reducible apply goes_onlyIf
    | with_reducible apply goes_next
    | with_reducible apply k_foldl
    | intro _
    | dsimp only
    | split

theorem k_execResidentBlockedTimeout {m : List Part} (hm : Within [.ptns] m) (a0 : Fin 12) (a1 : Nat) {s t : State} (h : Keeps m s t) : Goes m s (execResidentBlockedTimeout a0 a1 t) := by
  unfold execResidentBlockedTimeout
  try dsimp only
  repeat' first
    | with_reducible assumption
    | with_reducible apply k_updPtn (hm.of (by decide))
    | with_reducible apply goes_onlyIf
    | with_reducible apply goes_next
    | with_reducible apply k_foldl
    | intro _
    | dsimp only
    | split

theorem k_execResidentIdleTimeout {m : List Part} (hm : Within [.ptns] m) (a0 : Fin 12) (a1 : Nat) {s t : State} (h : Keeps m s t) : Goes m s (execResidentIdleTimeout a0 a1 t) := by
  unfold execResidentIdleTimeout
  try dsimp only
  repeat' first
    | with_reducible assumption
    | with_reducible apply k_updPtn (hm.of (by decide))
    | with_reducible apply goes_onlyIf
    | with_reducible apply goes_next
    | with_reducible apply k_foldl
    | intro _
    | dsimp only
    | split

theorem k_opScore {m : List Part} (hm : Within [.ptns] m) (a0 : Nat) (a1 : Nat) (a2 : W128) {s t : State} (h : Keeps m s t) : Keeps m s (opScore a0 a1 a2 t) := by
  unfold opScore
  try dsimp only
  repeat' first
    | with_reducible assumption
    | with_reducible apply k_stepDone (hm.of (by decide))
    | with_reducible apply k_updAnvil (hm.of (by decide))
    | with_reducible apply k_foldl
    | intro _
    | dsimp only
    | split

theorem k_opSelclr {m : List Part} (hm : Within [.ptns] m) (a0 : Nat) (a1 : Nat) (a2 : W128) {s t : State} (h : Keeps m s t) : Keeps m s (opSelclr a0 a1 a2 t) := by
  unfold opSelclr
  try dsimp only
  repeat' first
    | with_reducible assumption
    | with_reducible apply k_stepDone (hm.of (by decide))
    | with_reducible apply k_updAnvil (hm.of (by decide))
    | with_reducible apply k_foldl
    | intro _
    | dsimp only
    | split

theorem k_execSelclr {m : List Part} (hm : Within [.ptns] m) (a0 : Fin 12) (a1 : Fin 864) {s t : State} (h : Keeps m s t) : Goes m s (execSelclr a0 a1 t) := by
  unfold execSelclr
  try dsimp only
  repeat' first
    | with_reducible assumption
    | with_reducible apply k_runOp (hm.of (by decide))
    | with_reducible apply k_opSelclr (hm.of (by decide))
    | with_reducible apply goes_onlyIf
    | with_reducible apply goes_next
    | with_reducible apply k_foldl
    | intro _
    | dsimp only
    | split

theorem k_opSetc {m : List Part} (hm : Within [.ptns] m) (a0 : Nat) (a1 : Nat) (a2 : W128) {s t : State} (h : Keeps m s t) : Keeps m s (opSetc a0 a1 a2 t) := by
  unfold opSetc
  try dsimp only
  repeat' first
    | with_reducible assumption
    | with_reducible apply k_stepDone (hm.of (by decide))
    | with_reducible apply k_updAnvil (hm.of (by decide))
    | with_reducible apply k_foldl
    | intro _
    | dsimp only
    | split

theorem k_execSetc {m : List Part} (hm : Within [.ptns] m) (a0 : Fin 12) (a1 : Fin 864) {s t : State} (h : Keeps m s t) : Goes m s (execSetc a0 a1 t) := by
  unfold execSetc
  try dsimp only
  repeat' first
    | with_reducible assumption
    | with_reducible apply k_runOp (hm.of (by decide))
    | with_reducible apply k_opSetc (hm.of (by decide))
    | with_reducible apply goes_onlyIf
    | with_reducible apply goes_next
    | with_reducible apply k_foldl
    | intro _
    | dsimp only
    | split

theorem k_execSetdasa {m : List Part} (hm : Within [.aon] m) (a0 : BitVec 7) {s t : State} (h : Keeps m s t) : Goes m s (execSetdasa a0 t) := by
  unfold execSetdasa
  try dsimp only
  repeat' first
    | with_reducible assumption
    | with_reducible apply k_takeAddress (hm.of (by decide))
    | with_reducible apply goes_onlyIf
    | with_reducible apply goes_next
    | with_reducible apply k_foldl
    | intro _
    | dsimp only
    | split

theorem k_settleBrick {m : List Part} (hm : Within [.colls] m) (a0 : Nat) (a1 : Nat) {s t : State} (h : Keeps m s t) : Keeps m s (settleBrick a0 a1 t) := by
  unfold settleBrick
  try dsimp only
  repeat' first
    | with_reducible assumption
    | with_reducible apply k_updColl (hm.of (by decide))
    | with_reducible apply k_foldl
    | intro _
    | dsimp only
    | split

theorem k_opSgather {m : List Part} (hm : Within [.ptns, .free] m) (a0 : Nat) (a1 : Nat) (a2 : W128) {s t : State} (h : Keeps m s t) : Keeps m s (opSgather a0 a1 a2 t) := by
  unfold opSgather
  try dsimp only
  repeat' first
    | with_reducible assumption
    | with_reducible apply k_spend (hm.of (by decide))
    | with_reducible apply k_stepDone (hm.of (by decide))
    | with_reducible apply k_updAnvil (hm.of (by decide))
    | with_reducible apply k_foldl
    | intro _
    | dsimp only
    | split

theorem k_opSieve {m : List Part} (hm : Within [.ptns] m) (a0 : Nat) (a1 : Nat) (a2 : W128) {s t : State} (h : Keeps m s t) : Keeps m s (opSieve a0 a1 a2 t) := by
  unfold opSieve
  try dsimp only
  repeat' first
    | with_reducible assumption
    | with_reducible apply k_stepDone (hm.of (by decide))
    | with_reducible apply k_updAnvil (hm.of (by decide))
    | with_reducible apply k_cacheLines (hm.of (by decide))
    | with_reducible apply k_foldl
    | intro _
    | dsimp only
    | split

theorem k_opSignal {m : List Part} (hm : Within [.ptns] m) (a0 : Nat) (a1 : Nat) (a2 : W128) {s t : State} (h : Keeps m s t) : Keeps m s (opSignal a0 a1 a2 t) := by
  unfold opSignal
  try dsimp only
  repeat' first
    | with_reducible assumption
    | with_reducible apply k_stepDone (hm.of (by decide))
    | with_reducible apply k_updPtn (hm.of (by decide))
    | with_reducible apply k_foldl
    | intro _
    | dsimp only
    | split

theorem k_execSignal {m : List Part} (hm : Within [.ptns] m) (a0 : Fin 12) (a1 : Fin 864) {s t : State} (h : Keeps m s t) : Goes m s (execSignal a0 a1 t) := by
  unfold execSignal
  try dsimp only
  repeat' first
    | with_reducible assumption
    | with_reducible apply k_runOp (hm.of (by decide))
    | with_reducible apply k_opSignal (hm.of (by decide))
    | with_reducible apply goes_onlyIf
    | with_reducible apply goes_next
    | with_reducible apply k_foldl
    | intro _
    | dsimp only
    | split

theorem k_opSkip {m : List Part} (hm : Within [.ptns] m) (a0 : Nat) (a1 : Nat) (a2 : W128) {s t : State} (h : Keeps m s t) : Keeps m s (opSkip a0 a1 a2 t) := by
  unfold opSkip
  try dsimp only
  repeat' first
    | with_reducible assumption
    | with_reducible apply k_addCycles (hm.of (by decide))
    | with_reducible apply k_goTo (hm.of (by decide))
    | with_reducible apply k_updAnvil (hm.of (by decide))
    | with_reducible apply k_stepDone (hm.of (by decide))
    | with_reducible apply k_foldl
    | intro _
    | dsimp only
    | split

theorem k_execSkip {m : List Part} (hm : Within [.ptns] m) (a0 : Fin 12) (a1 : Fin 864) {s t : State} (h : Keeps m s t) : Goes m s (execSkip a0 a1 t) := by
  unfold execSkip
  try dsimp only
  repeat' first
    | with_reducible assumption
    | with_reducible apply k_runOp (hm.of (by decide))
    | with_reducible apply k_opSkip (hm.of (by decide))
    | with_reducible apply goes_onlyIf
    | with_reducible apply goes_next
    | with_reducible apply k_foldl
    | intro _
    | dsimp only
    | split

theorem k_leaveHold {m : List Part} (hm : Within [.ptns] m) (a0 : Nat) {s t : State} (h : Keeps m s t) : Keeps m s (leaveHold a0 t) := by
  unfold leaveHold
  try dsimp only
  repeat' first
    | with_reducible assumption
    | with_reducible apply k_updPtn (hm.of (by decide))
    | with_reducible apply k_foldl
    | intro _
    | dsimp only
    | split

theorem k_execStagingReuse {m : List Part} (hm : Within [.host, .cmds] m) (a0 : Nat) {s t : State} (h : Keeps m s t) : Goes m s (execStagingReuse a0 t) := by
  unfold execStagingReuse
  try dsimp only
  repeat' first
    | with_reducible assumption
    | with_reducible apply k_delCmd (hm.of (by decide))
    | with_reducible apply k_freeGranules (hm.of (by decide))
    | with_reducible apply goes_onlyIf
    | with_reducible apply goes_next
    | with_reducible apply k_foldl
    | intro _
    | dsimp only
    | split

theorem k_execStepNop {m : List Part} (hm : Within [.ptns] m) (a0 : Fin 12) (a1 : Fin 864) {s t : State} (h : Keeps m s t) : Goes m s (execStepNop a0 a1 t) := by
  unfold execStepNop
  try dsimp only
  repeat' first
    | with_reducible assumption
    | with_reducible apply k_runOp (hm.of (by decide))
    | with_reducible apply k_stepDone (hm.of (by decide))
    | with_reducible apply goes_onlyIf
    | with_reducible apply goes_next
    | with_reducible apply k_foldl
    | intro _
    | dsimp only
    | split

theorem k_requestAll {m : List Part} (hm : Within [.ptns] m) (a0 : Nat) (a1 : Nat) {s t : State} (h : Keeps m s t) : Keeps m s (requestAll a0 a1 t) := by
  unfold requestAll
  try dsimp only
  repeat' first
    | with_reducible assumption
    | with_reducible apply k_updPtn (hm.of (by decide))
    | with_reducible apply k_foldl
    | intro _
    | dsimp only
    | split

theorem k_startSwap {m : List Part} (hm : Within [.ptns] m) (a0 : Nat) {s t : State} (h : Keeps m s t) : Keeps m s (startSwap a0 t) := by
  unfold startSwap
  try dsimp only
  repeat' first
    | with_reducible assumption
    | with_reducible apply k_updPtn (hm.of (by decide))
    | with_reducible apply k_requestAll (hm.of (by decide))
    | with_reducible apply k_foldl
    | intro _
    | dsimp only
    | split

theorem k_execSwapStart {m : List Part} (hm : Within [.ptns] m) (a0 : Fin 12) {s t : State} (h : Keeps m s t) : Goes m s (execSwapStart a0 t) := by
  unfold execSwapStart
  try dsimp only
  repeat' first
    | with_reducible assumption
    | with_reducible apply k_startSwap (hm.of (by decide))
    | with_reducible apply goes_onlyIf
    | with_reducible apply goes_next
    | with_reducible apply k_foldl
    | intro _
    | dsimp only
    | split

theorem k_execSwapWaitTimeout {m : List Part} (hm : Within [.ptns] m) (a0 : Fin 12) (a1 : Nat) {s t : State} (h : Keeps m s t) : Goes m s (execSwapWaitTimeout a0 a1 t) := by
  unfold execSwapWaitTimeout
  try dsimp only
  repeat' first
    | with_reducible assumption
    | with_reducible apply k_updPtn (hm.of (by decide))
    | with_reducible apply goes_onlyIf
    | with_reducible apply goes_next
    | with_reducible apply k_foldl
    | intro _
    | dsimp only
    | split

theorem k_execTampCut {m : List Part} (hm : Within [.ptns, .colls] m) (a0 : Nat) (a1 : Nat) {s t : State} (h : Keeps m s t) : Goes m s (execTampCut a0 a1 t) := by
  unfold execTampCut
  try dsimp only
  repeat' first
    | with_reducible assumption
    | with_reducible apply k_cutList (hm.of (by decide))
    | with_reducible apply goes_onlyIf
    | with_reducible apply goes_next
    | with_reducible apply k_foldl
    | intro _
    | dsimp only
    | split

theorem k_retireTamp {m : List Part} (hm : Within [.ptns, .colls] m) (a0 : Nat) (a1 : Nat) {s t : State} (h : Keeps m s t) : Keeps m s (retireTamp a0 a1 t) := by
  unfold retireTamp
  try dsimp only
  repeat' first
    | with_reducible assumption
    | with_reducible apply k_updLeaf (hm.of (by decide))
    | with_reducible apply k_freeBricks (hm.of (by decide))
    | with_reducible apply k_foldl
    | intro _
    | dsimp only
    | split

theorem k_execTampRetire {m : List Part} (hm : Within [.ptns, .colls] m) (a0 : Nat) (a1 : Nat) {s t : State} (h : Keeps m s t) : Goes m s (execTampRetire a0 a1 t) := by
  unfold execTampRetire
  try dsimp only
  repeat' first
    | with_reducible assumption
    | with_reducible apply k_retireTamp (hm.of (by decide))
    | with_reducible apply goes_onlyIf
    | with_reducible apply goes_next
    | with_reducible apply k_foldl
    | intro _
    | dsimp only
    | split

theorem k_opTileclr {m : List Part} (hm : Within [.ptns] m) (a0 : Nat) (a1 : Nat) (a2 : W128) {s t : State} (h : Keeps m s t) : Keeps m s (opTileclr a0 a1 a2 t) := by
  unfold opTileclr
  try dsimp only
  repeat' first
    | with_reducible assumption
    | with_reducible apply k_stepDone (hm.of (by decide))
    | with_reducible apply k_updAnvil (hm.of (by decide))
    | with_reducible apply k_foldl
    | intro _
    | dsimp only
    | split

theorem k_execTileclr {m : List Part} (hm : Within [.ptns] m) (a0 : Fin 12) (a1 : Fin 864) {s t : State} (h : Keeps m s t) : Goes m s (execTileclr a0 a1 t) := by
  unfold execTileclr
  try dsimp only
  repeat' first
    | with_reducible assumption
    | with_reducible apply k_runOp (hm.of (by decide))
    | with_reducible apply k_opTileclr (hm.of (by decide))
    | with_reducible apply goes_onlyIf
    | with_reducible apply goes_next
    | with_reducible apply k_foldl
    | intro _
    | dsimp only
    | split

theorem k_resetTap {m : List Part} (hm : Within [.icern, .jtag] m) {s t : State} (h : Keeps m s t) : Keeps m s (resetTap t) :=
  k_leaveScan (hm.of (by decide)) _ _ (.inl (by decide)) (by decide) h

theorem k_execTrstAssert {m : List Part} (hm : Within [.icern, .jtag] m) {s t : State} (h : Keeps m s t) : Goes m s (execTrstAssert t) := by
  unfold execTrstAssert
  try dsimp only
  repeat' first
    | with_reducible assumption
    | with_reducible apply k_resetTap (hm.of (by decide))
    | with_reducible apply goes_onlyIf
    | with_reducible apply goes_next
    | with_reducible apply k_foldl
    | intro _
    | dsimp only
    | split

theorem k_execUnsupportedRequest {m : List Part} (hm : Within [.host] m) (a0 : Unsupported) {s t : State} (h : Keeps m s t) : Goes m s (execUnsupportedRequest a0 t) := by
  unfold execUnsupportedRequest
  try dsimp only
  repeat' first
    | with_reducible assumption
    | with_reducible apply k_answer (hm.of (by decide))
    | with_reducible apply goes_onlyIf
    | with_reducible apply goes_next
    | with_reducible apply k_foldl
    | intro _
    | dsimp only
    | split

theorem k_opWait {m : List Part} (hm : Within [.ptns] m) (a0 : Nat) (a1 : Nat) (a2 : W128) {s t : State} (h : Keeps m s t) : Keeps m s (opWait a0 a1 a2 t) := by
  unfold opWait
  try dsimp only
  repeat' first
    | with_reducible assumption
    | with_reducible apply k_stepDone (hm.of (by decide))
    | with_reducible apply k_waitFor (hm.of (by decide))
    | with_reducible apply k_foldl
    | intro _
    | dsimp only
    | split

theorem k_execWait {m : List Part} (hm : Within [.ptns] m) (a0 : Fin 12) (a1 : Fin 864) {s t : State} (h : Keeps m s t) : Goes m s (execWait a0 a1 t) := by
  unfold execWait
  try dsimp only
  repeat' first
    | with_reducible assumption
    | with_reducible apply k_runOp (hm.of (by decide))
    | with_reducible apply k_opWait (hm.of (by decide))
    | with_reducible apply goes_onlyIf
    | with_reducible apply goes_next
    | with_reducible apply k_foldl
    | intro _
    | dsimp only
    | split

theorem k_execWindowExpire {m : List Part} (hm : Within [.aon] m) (a0 : WindowId) {s t : State} (h : Keeps m s t) : Goes m s (execWindowExpire a0 t) := by
  unfold execWindowExpire
  try dsimp only
  repeat' first
    | with_reducible assumption
    | with_reducible apply k_updAon (hm.of (by decide))
    | with_reducible apply goes_onlyIf
    | with_reducible apply goes_next
    | with_reducible apply k_foldl
    | intro _
    | dsimp only
    | split

theorem k_park {m : List Part} (hm : Within [.ptns] m) (a0 : Nat) (a1 : Nat) (a2 : Nat) (a3 : Nat) {s t : State} (h : Keeps m s t) : Keeps m s (park a0 a1 a2 a3 t) := by
  unfold park
  try dsimp only
  repeat' first
    | with_reducible assumption
    | with_reducible apply k_updPtn (hm.of (by decide))
    | with_reducible apply k_updAnvil (hm.of (by decide))
    | with_reducible apply k_foldl
    | intro _
    | dsimp only
    | split

theorem k_set_tick {m : List Part} (hm : Within [.ptns, .cmds, .seamTok] m) {s t : State} {v0 v1 v2 : _} :
    Keeps m s (State.mk t.pending t.aon t.pins t.host v0 t.jobs t.ctxs t.colls v2 t.nextCmd t.hearth t.hearthUp t.faults t.levels v1 t.icern t.power t.jtag t.hbm t.poison t.free) ↔ Keeps m s t := by
  constructor <;> intro w <;> refine ⟨w.1, w.2, w.3, w.4, fun p hp => ?_⟩ <;> (have := w.5 p hp; cases p <;> first | exact this | exact absurd (hm _ (by decide)) hp)

theorem k_set_ctxs_cmds {m : List Part} (hm : Within [.ctxs, .cmds] m) {s t : State} {v0 v1 : _} :
    Keeps m s (State.mk t.pending t.aon t.pins t.host t.ptns t.jobs v0 t.colls v1 t.nextCmd t.hearth t.hearthUp t.faults t.levels t.seamTok t.icern t.power t.jtag t.hbm t.poison t.free) ↔ Keeps m s t := by
  constructor <;> intro w <;> refine ⟨w.1, w.2, w.3, w.4, fun p hp => ?_⟩ <;> (have := w.5 p hp; cases p <;> first | exact this | exact absurd (hm _ (by decide)) hp)

theorem k_set_ptns_ctxs {m : List Part} (hm : Within [.ptns, .ctxs] m) {s t : State} {v0 v1 : _} :
    Keeps m s (State.mk t.pending t.aon t.pins t.host v0 t.jobs v1 t.colls t.cmds t.nextCmd t.hearth t.hearthUp t.faults t.levels t.seamTok t.icern t.power t.jtag t.hbm t.poison t.free) ↔ Keeps m s t := by
  constructor <;> intro w <;> refine ⟨w.1, w.2, w.3, w.4, fun p hp => ?_⟩ <;> (have := w.5 p hp; cases p <;> first | exact this | exact absurd (hm _ (by decide)) hp)

theorem k_startChunk {m : List Part} (hm : Within [.ptns] m) (a0 : Nat) (a1 : Nat) (a2 : Chunk) {s t : State} (h : Keeps m s t) : Keeps m s (startChunk a0 a1 a2 t) := by
  unfold startChunk
  try dsimp only
  repeat' first
    | with_reducible assumption
    | with_reducible apply k_updAnvil (hm.of (by decide))
    | with_reducible apply k_updPtn (hm.of (by decide))
    | with_reducible apply k_foldl
    | intro _
    | dsimp only
    | split

theorem k_updCfg {m : List Part} (hm : Within [.host] m) (a0 : Cfg → Cfg) {s t : State} (h : Keeps m s t) : Keeps m s (updCfg a0 t) := by
  unfold updCfg
  try dsimp only
  repeat' first
    | with_reducible assumption
    | with_reducible apply k_updLink (hm.of (by decide))
    | with_reducible apply k_foldl
    | intro _
    | dsimp only
    | split

theorem k_componentWrite {m : List Part} (hm : Within [.host] m) (a0 : Nat) (a1 : Nat) {s t : State} (h : Keeps m s t) : Keeps m s (componentWrite a0 a1 t) := by
  unfold componentWrite
  try dsimp only
  repeat' first
    | with_reducible assumption
    | with_reducible apply k_updCfg (hm.of (by decide))
    | with_reducible apply k_updLink (hm.of (by decide))
    | with_reducible apply k_foldl
    | intro _
    | dsimp only
    | split

theorem k_writeWords {m : List Part} (hm : Within [] m) (a0 : Nat → Nat → State → State) (a1 : Nat) (a2 : Nat) (a3 : Nat) {s t : State} (h : Keeps m s t) (g0 : ∀ x y u, Keeps m s u → Keeps m s (a0 x y u)) : Keeps m s (writeWords a0 a1 a2 a3 t) := by
  unfold writeWords
  try dsimp only
  repeat' first
    | with_reducible assumption
    | with_reducible apply g0
    | with_reducible apply k_foldl
    | intro _
    | dsimp only
    | split

theorem k_setAtomHead {m : List Part} (hm : Within [.ptns] m) (a0 : Nat) (a1 : AtomReq) {s t : State} (h : Keeps m s t) : Keeps m s (setAtomHead a0 a1 t) := by
  unfold setAtomHead
  try dsimp only
  repeat' first
    | with_reducible assumption
    | with_reducible apply k_updPtn (hm.of (by decide))
    | with_reducible apply k_foldl
    | intro _
    | dsimp only
    | split

theorem k_noteNan {m : List Part} (hm : Within [.cmds] m) (a0 : Nat) (a1 : Nat) {s t : State} (h : Keeps m s t) : Keeps m s (noteNan a0 a1 t) := by
  unfold noteNan
  try dsimp only
  repeat' first
    | with_reducible assumption
    | with_reducible apply k_updCmd (hm.of (by decide))
    | with_reducible apply k_foldl
    | intro _
    | dsimp only
    | split

theorem k_clearPoison {m : List Part} (hm : Within [.poison] m) (a0 : Coll) (a1 : Bool) (a2 : SlotRef) {s t : State} (h : Keeps m s t) : Keeps m s (clearPoison a0 a1 a2 t) := by
  unfold clearPoison
  try dsimp only
  repeat' first
    | with_reducible assumption
    | with_reducible apply k_foldl
    | simp only [k_set_poison (hm.of (by decide))]
    | intro _
    | dsimp only
    | split

theorem k_noteAer {m : List Part} (hm : Within [.host] m) (a0 : Nat) {s t : State} (h : Keeps m s t) : Keeps m s (noteAer a0 t) := by
  unfold noteAer
  try dsimp only
  repeat' first
    | with_reducible assumption
    | with_reducible apply k_updLink (hm.of (by decide))
    | with_reducible apply k_foldl
    | intro _
    | dsimp only
    | split

theorem k_negotiate {m : List Part} (hm : Within [.hearth] m) (a0 : SpdmTransport) (a1 : List Byte) {s t : State} (h : Keeps m s t) : Keeps m s (negotiate a0 a1 t) := by
  unfold negotiate
  try dsimp only
  repeat' first
    | with_reducible assumption
    | with_reducible apply k_updHearth (hm.of (by decide))
    | with_reducible apply k_foldl
    | intro _
    | dsimp only
    | split

theorem k_keyIde {m : List Part} (hm : Within [.host] m) (a0 : SpdmTransport) (a1 : SpdmKind) (a2 : List Byte) {s t : State} (h : Keeps m s t) : Keeps m s (keyIde a0 a1 a2 t) := by
  unfold keyIde
  try dsimp only
  repeat' first
    | with_reducible assumption
    | with_reducible apply k_updLink (hm.of (by decide))
    | with_reducible apply k_foldl
    | intro _
    | dsimp only
    | split

theorem k_leaveApertures {m : List Part} (hm : Within [.ptns] m) (a0 : List Aperture) {s t : State} (h : Keeps m s t) : Keeps m s (leaveApertures a0 t) := by
  unfold leaveApertures
  try dsimp only
  repeat' first
    | with_reducible assumption
    | with_reducible apply k_updPtn (hm.of (by decide))
    | with_reducible apply k_foldl
    | intro _
    | dsimp only
    | split

theorem k_countTurn {m : List Part} (hm : Within [.ptns] m) (a0 : HomeReq) (a1 : Requester) {s t : State} (h : Keeps m s t) : Keeps m s (countTurn a0 a1 t) := by
  unfold countTurn
  try dsimp only
  repeat' first
    | with_reducible assumption
    | with_reducible apply k_updPtn (hm.of (by decide))
    | with_reducible apply k_foldl
    | intro _
    | dsimp only
    | split

theorem k_dropCached {m : List Part} (hm : Within [.ptns] m) (a0 : Nat) (a1 : Nat) {s t : State} (h : Keeps m s t) : Keeps m s (dropCached a0 a1 t) := by
  unfold dropCached
  try dsimp only
  repeat' first
    | with_reducible assumption
    | with_reducible apply k_updPtn (hm.of (by decide))
    | with_reducible apply k_foldl
    | intro _
    | dsimp only
    | split

theorem k_takeIssue {m : List Part} (hm : Within [.ptns, .seamTok] m) (a0 : Option Nat) (a1 : Nat) (a2 : Nat) {s t : State} (h : Keeps m s t) : KeepsIf m s (takeIssue a0 a1 a2 t) := by
  unfold takeIssue
  try dsimp only
  repeat' first
    | with_reducible assumption
    | with_reducible apply k_drawSeam (hm.of (by decide))
    | with_reducible apply k_updReg (hm.of (by decide))
    | with_reducible apply if_none
    | with_reducible apply if_some
    | with_reducible apply with_none
    | with_reducible apply with_some
    | with_reducible apply if_getD
    | with_reducible apply if_bind
    | with_reducible apply if_mapState
    | with_reducible apply if_bindWith
    | with_reducible apply if_mapWith
    | with_reducible apply if_foldl
    | with_reducible apply with_map
    | with_reducible apply if_map
    | with_reducible apply with_mapOpt
    | (with_reducible apply if_get; with_reducible assumption)
    | (with_reducible apply with_get; with_reducible assumption)
    | with_reducible apply k_foldl
    | intro _
    | dsimp only
    | split

theorem k_takeReceive {m : List Part} (hm : Within [.ptns] m) (a0 : Nat) (a1 : Nat) {s t : State} (h : Keeps m s t) : KeepsIf m s (takeReceive a0 a1 t) := by
  unfold takeReceive
  try dsimp only
  repeat' first
    | with_reducible assumption
    | with_reducible apply k_updReg (hm.of (by decide))
    | with_reducible apply if_none
    | with_reducible apply if_some
    | with_reducible apply with_none
    | with_reducible apply with_some
    | with_reducible apply if_getD
    | with_reducible apply if_bind
    | with_reducible apply if_mapState
    | with_reducible apply if_bindWith
    | with_reducible apply if_mapWith
    | with_reducible apply if_foldl
    | with_reducible apply with_map
    | with_reducible apply if_map
    | with_reducible apply with_mapOpt
    | (with_reducible apply if_get; with_reducible assumption)
    | (with_reducible apply with_get; with_reducible assumption)
    | with_reducible apply k_foldl
    | intro _
    | dsimp only
    | split

theorem k_noteIssueWait {m : List Part} (hm : Within [.ptns] m) (a0 : Option Nat) (a1 : Nat) (a2 : Nat) (a3 : Requester × MemReq) {s t : State} (h : Keeps m s t) : Keeps m s (noteIssueWait a0 a1 a2 a3 t) := by
  unfold noteIssueWait
  try dsimp only
  repeat' first
    | with_reducible assumption
    | with_reducible apply k_updReg (hm.of (by decide))
    | with_reducible apply k_foldl
    | intro _
    | dsimp only
    | split

theorem k_noteReceiveWait {m : List Part} (hm : Within [.ptns] m) (a0 : Option Nat) (a1 : Nat) (a2 : Nat) {s t : State} (h : Keeps m s t) : Keeps m s (noteReceiveWait a0 a1 a2 t) := by
  unfold noteReceiveWait
  try dsimp only
  repeat' first
    | with_reducible assumption
    | with_reducible apply k_updReg (hm.of (by decide))
    | with_reducible apply k_foldl
    | intro _
    | dsimp only
    | split

theorem k_engineMove {m : List Part} (hm : Within [.ptns, .ctxs, .seamTok] m) (a0 : Option Nat) (a1 : Option Nat) (a2 : Nat) (a3 : Nat) {s t : State} (h : Keeps m s t) : Keeps m s (engineMove a0 a1 a2 a3 t) := by
  unfold engineMove
  try dsimp only
  repeat' first
    | with_reducible assumption
    | with_reducible apply k_updCtx (hm.of (by decide))
    | with_reducible apply k_updReg (hm.of (by decide))
    | with_reducible apply k_drawSeam (hm.of (by decide))
    | with_reducible apply k_noteReceiveWait (hm.of (by decide))
    | with_reducible apply k_foldl
    | intro _
    | dsimp only
    | split

theorem k_takeResponse {m : List Part} (hm : Within [.icern] m) (a0 : Msg) (a1 : Bool) {s t : State} (h : Keeps m s t) : Keeps m s (takeResponse a0 a1 t) := by
  unfold takeResponse
  try dsimp only
  repeat' first
    | with_reducible assumption
    | with_reducible apply k_updIcern (hm.of (by decide))
    | with_reducible apply k_foldl
    | intro _
    | dsimp only
    | split

theorem k_abandonRun {m : List Part} (hm : Within [.icern] m) (a0 : Nat) (a1 : Nat) {s t : State} (h : Keeps m s t) : Keeps m s (abandonRun a0 a1 t) := by
  unfold abandonRun
  try dsimp only
  repeat' first
    | with_reducible assumption
    | with_reducible apply k_updIcern (hm.of (by decide))
    | with_reducible apply k_foldl
    | intro _
    | dsimp only
    | split

theorem k_chargeLanes {m : List Part} (hm : Within [.ptns, .ctxs, .cmds] m) (a0 : Nat) (a1 : Bool) (a2 : List LaneReq) (a3 : Nat) {s t : State} (h : Keeps m s t) : Keeps m s (chargeLanes a0 a1 a2 a3 t) := by
  unfold chargeLanes
  try dsimp only
  repeat' first
    | with_reducible assumption
    | with_reducible apply k_chargeCtx (hm.of (by decide))
    | with_reducible apply k_updCmd (hm.of (by decide))
    | with_reducible apply k_foldl
    | intro _
    | dsimp only
    | split

theorem k_chargeChunk {m : List Part} (hm : Within [.ptns, .ctxs, .cmds] m) (a0 : Nat) (a1 : Chunk) (a2 : Nat) {s t : State} (h : Keeps m s t) : Keeps m s (chargeChunk a0 a1 a2 t) := by
  unfold chargeChunk
  try dsimp only
  repeat' first
    | with_reducible assumption
    | with_reducible apply k_chargeCtx (hm.of (by decide))
    | with_reducible apply k_updCmd (hm.of (by decide))
    | with_reducible apply k_foldl
    | intro _
    | dsimp only
    | split

theorem k_giveRegion {m : List Part} (hm : Within [.ptns] m) (a0 : Nat) (a1 : Nat) (a2 : Nat) (a3 : RegUse) {s t : State} (h : Keeps m s t) : Keeps m s (giveRegion a0 a1 a2 a3 t) := by
  unfold giveRegion
  try dsimp only
  repeat' first
    | with_reducible assumption
    | with_reducible apply k_updPtn (hm.of (by decide))
    | with_reducible apply k_foldl
    | intro _
    | dsimp only
    | split

theorem k_takeDir {m : List Part} (hm : Within [.ptns] m) (a0 : Nat) (a1 : Nat) (a2 : RegUse) {s t : State} (h : Keeps m s t) : KeepsIf m s (takeDir a0 a1 a2 t) := by
  unfold takeDir
  try dsimp only
  repeat' first
    | with_reducible assumption
    | with_reducible apply k_giveRegion (hm.of (by decide))
    | with_reducible apply if_none
    | with_reducible apply if_some
    | with_reducible apply with_none
    | with_reducible apply with_some
    | with_reducible apply if_getD
    | with_reducible apply if_bind
    | with_reducible apply if_mapState
    | with_reducible apply if_bindWith
    | with_reducible apply if_mapWith
    | with_reducible apply if_foldl
    | with_reducible apply with_map
    | with_reducible apply if_map
    | with_reducible apply with_mapOpt
    | (with_reducible apply if_get; with_reducible assumption)
    | (with_reducible apply with_get; with_reducible assumption)
    | with_reducible apply k_foldl
    | intro _
    | dsimp only
    | split

theorem k_takeRun {m : List Part} (hm : Within [.ptns] m) (a0 : Nat) (a1 : Nat) (a2 : Nat) (a3 : Nat → RegUse) {s t : State} (h : Keeps m s t) : KeepsIf m s (takeRun a0 a1 a2 a3 t) := by
  unfold takeRun
  try dsimp only
  repeat' first
    | with_reducible assumption
    | with_reducible apply k_giveRegion (hm.of (by decide))
    | with_reducible apply if_none
    | with_reducible apply if_some
    | with_reducible apply with_none
    | with_reducible apply with_some
    | with_reducible apply if_getD
    | with_reducible apply if_bind
    | with_reducible apply if_mapState
    | with_reducible apply if_bindWith
    | with_reducible apply if_mapWith
    | with_reducible apply if_foldl
    | with_reducible apply with_map
    | with_reducible apply if_map
    | with_reducible apply with_mapOpt
    | (with_reducible apply if_get; with_reducible assumption)
    | (with_reducible apply with_get; with_reducible assumption)
    | with_reducible apply k_foldl
    | intro _
    | dsimp only
    | split

theorem k_startKeys {m : List Part} (hm : Within [.ptns] m) (a0 : Nat) (a1 : Nat) {s t : State} (h : Keeps m s t) : KeepsIf m s (startKeys a0 a1 t) := by
  unfold startKeys
  try dsimp only
  repeat' first
    | with_reducible assumption
    | with_reducible apply k_takeDir (hm.of (by decide))
    | with_reducible apply if_none
    | with_reducible apply if_some
    | with_reducible apply with_none
    | with_reducible apply with_some
    | with_reducible apply if_getD
    | with_reducible apply if_bind
    | with_reducible apply if_mapState
    | with_reducible apply if_bindWith
    | with_reducible apply if_mapWith
    | with_reducible apply if_foldl
    | with_reducible apply with_map
    | with_reducible apply if_map
    | with_reducible apply with_mapOpt
    | (with_reducible apply if_get; with_reducible assumption)
    | (with_reducible apply with_get; with_reducible assumption)
    | with_reducible apply k_foldl
    | intro _
    | dsimp only
    | split

theorem k_loadPatterns {m : List Part} (hm : Within [.ptns, .ctxs] m) (a0 : Nat) (a1 : Nat) {s t : State} (h : Keeps m s t) : Keeps m s (loadPatterns a0 a1 t) := by
  unfold loadPatterns
  try dsimp only
  repeat' first
    | with_reducible assumption
    | with_reducible apply k_swapBytes (hm.of (by decide))
    | with_reducible apply k_updPtn (hm.of (by decide))
    | with_reducible apply k_foldl
    | intro _
    | dsimp only
    | split

theorem k_runRestored {m : List Part} (hm : Within [.ptns] m) (a0 : Nat) (a1 : Nat) {s t : State} (h : Keeps m s t) : Keeps m s (runRestored a0 a1 t) := by
  unfold runRestored
  try dsimp only
  repeat' first
    | with_reducible assumption
    | with_reducible apply k_updPtn (hm.of (by decide))
    | with_reducible apply k_foldl
    | intro _
    | dsimp only
    | split

theorem k_carryPoison {m : List Part} (hm : Within [.poison] m) (a0 : Coll) (a1 : SlotRef) (a2 : SlotRef) {s t : State} (h : Keeps m s t) : Keeps m s (carryPoison a0 a1 a2 t) := by
  unfold carryPoison
  try dsimp only
  repeat' first
    | with_reducible assumption
    | with_reducible apply k_addPoison (hm.of (by decide))
    | with_reducible apply k_foldl
    | intro _
    | dsimp only
    | split

theorem k_appendTo {m : List Part} (hm : Within [.ptns, .ctxs, .colls, .seamTok, .poison] m) (a0 : Nat) (a1 : Option Nat) (a2 : Rec) (a3 : Option Nat) {s t : State} (h : Keeps m s t) : KeepsWith m s (appendTo a0 a1 a2 a3 t) := by
  unfold appendTo
  try dsimp only
  repeat' first
    | with_reducible assumption
    | with_reducible apply k_appendRec (hm.of (by decide))
    | with_reducible apply k_demand (hm.of (by decide))
    | with_reducible apply k_engineMove (hm.of (by decide))
    | with_reducible apply k_clearPoison (hm.of (by decide))
    | with_reducible apply k_widenLeaf (hm.of (by decide))
    | with_reducible apply if_none
    | with_reducible apply if_some
    | with_reducible apply with_none
    | with_reducible apply with_some
    | with_reducible apply if_getD
    | with_reducible apply if_bind
    | with_reducible apply if_mapState
    | with_reducible apply if_bindWith
    | with_reducible apply if_mapWith
    | with_reducible apply if_foldl
    | with_reducible apply with_map
    | with_reducible apply if_map
    | with_reducible apply with_mapOpt
    | (with_reducible apply if_get; with_reducible assumption)
    | (with_reducible apply with_get; with_reducible assumption)
    | with_reducible apply k_foldl
    | intro _
    | dsimp only
    | split

theorem k_bindChunk {m : List Part} (hm : Within [.ptns] m) (a0 : Nat) (a1 : Nat) (a2 : Chunk) {s t : State} (h : Keeps m s t) : Keeps m s (bindChunk a0 a1 a2 t) := by
  unfold bindChunk
  try dsimp only
  repeat' first
    | with_reducible assumption
    | with_reducible apply k_startChunk (hm.of (by decide))
    | with_reducible apply k_bindAnvil (hm.of (by decide))
    | with_reducible apply k_updPtn (hm.of (by decide))
    | with_reducible apply k_foldl
    | intro _
    | dsimp only
    | split

theorem k_chargeAnvil {m : List Part} (hm : Within [.ptns, .ctxs, .cmds] m) (a0 : Nat) (a1 : Nat) {s t : State} (h : Keeps m s t) : Keeps m s (chargeAnvil a0 a1 t) := by
  unfold chargeAnvil
  try dsimp only
  repeat' first
    | with_reducible assumption
    | with_reducible apply k_updAnvil (hm.of (by decide))
    | with_reducible apply k_chargeChunk (hm.of (by decide))
    | with_reducible apply k_chargeLanes (hm.of (by decide))
    | with_reducible apply k_foldl
    | intro _
    | dsimp only
    | split

theorem k_growDirectory {m : List Part} (hm : Within [.ptns, .colls] m) (a0 : Nat) (a1 : Nat) {s t : State} (h : Keeps m s t) : Keeps m s (growDirectory a0 a1 t) := by
  unfold growDirectory
  dsimp only
  split
  · exact h
  · next u e =>
    have h1 : Keeps m s u := if_get e (if_foldl (if_some h) fun o x ho => if_bind ho fun v hv => k_takeDir (hm.of (by decide)) _ _ _ hv)
    exact k_foldl (k_updCollPtn (hm.of (by decide)) _ _ _ h1) fun v x hv => if_getD (k_takeDir (hm.of (by decide)) _ _ _ hv) hv

theorem k_takeStrata {m : List Part} (hm : Within [.ptns] m) (a0 : Nat) (a1 : Nat) (a2 : List (List Centroid)) (a3 : Nat) {s t : State} (h : Keeps m s t) : KeepsIf m s (takeStrata a0 a1 a2 a3 t) := by
  unfold takeStrata
  try dsimp only
  repeat' first
    | with_reducible assumption
    | with_reducible apply k_takeRun (hm.of (by decide))
    | with_reducible apply if_none
    | with_reducible apply if_some
    | with_reducible apply with_none
    | with_reducible apply with_some
    | with_reducible apply if_getD
    | with_reducible apply if_bind
    | with_reducible apply if_mapState
    | with_reducible apply if_bindWith
    | with_reducible apply if_mapWith
    | with_reducible apply if_foldl
    | with_reducible apply with_map
    | with_reducible apply if_map
    | with_reducible apply with_mapOpt
    | (with_reducible apply if_get; with_reducible assumption)
    | (with_reducible apply with_get; with_reducible assumption)
    | with_reducible apply k_foldl
    | intro _
    | dsimp only
    | split

theorem k_commitStrata {m : List Part} (hm : Within [.ptns, .ctxs, .colls, .hearth, .seamTok] m) (a0 : Nat) {s t : State} (h : Keeps m s t) : Keeps m s (commitStrata a0 t) := by
  unfold commitStrata
  try dsimp only
  repeat' first
    | with_reducible assumption
    | with_reducible apply k_takeStrata (hm.of (by decide))
    | with_reducible apply k_engineMove (hm.of (by decide))
    | with_reducible apply k_updHearth (hm.of (by decide))
    | with_reducible apply k_updColl (hm.of (by decide))
    | with_reducible apply k_pinTop (hm.of (by decide))
    | with_reducible apply k_joinEpoch (hm.of (by decide))
    | with_reducible apply if_none
    | with_reducible apply if_some
    | with_reducible apply with_none
    | with_reducible apply with_some
    | with_reducible apply if_getD
    | with_reducible apply if_bind
    | with_reducible apply if_mapState
    | with_reducible apply if_bindWith
    | with_reducible apply if_mapWith
    | with_reducible apply if_foldl
    | with_reducible apply with_map
    | with_reducible apply if_map
    | with_reducible apply with_mapOpt
    | (with_reducible apply if_get; with_reducible assumption)
    | (with_reducible apply with_get; with_reducible assumption)
    | with_reducible apply k_foldl
    | intro _
    | dsimp only
    | split

theorem k_copySlot {m : List Part} (hm : Within [.ptns, .colls, .poison] m) (a0 : Nat) (a1 : Nat) (a2 : SlotRef × Slot) {s t : State} (h : Keeps m s t) : KeepsIf m s (copySlot a0 a1 a2 t) := by
  unfold copySlot
  try dsimp only
  repeat' first
    | with_reducible assumption
    | with_reducible apply k_carryPoison (hm.of (by decide))
    | with_reducible apply k_clearPoison (hm.of (by decide))
    | with_reducible apply k_updLeaf (hm.of (by decide))
    | with_reducible apply k_updBrick (hm.of (by decide))
    | with_reducible apply k_freshBrick (hm.of (by decide))
    | with_reducible apply if_none
    | with_reducible apply if_some
    | with_reducible apply with_none
    | with_reducible apply with_some
    | with_reducible apply if_getD
    | with_reducible apply if_bind
    | with_reducible apply if_mapState
    | with_reducible apply if_bindWith
    | with_reducible apply if_mapWith
    | with_reducible apply if_foldl
    | with_reducible apply with_map
    | with_reducible apply if_map
    | with_reducible apply with_mapOpt
    | (with_reducible apply if_get; with_reducible assumption)
    | (with_reducible apply with_get; with_reducible assumption)
    | with_reducible apply k_foldl
    | intro _
    | dsimp only
    | split

theorem k_takePostings {m : List Part} (hm : Within [.ptns] m) (a0 : Nat) (a1 : Nat) {s t : State} (h : Keeps m s t) : KeepsIf m s (takePostings a0 a1 t) := by
  unfold takePostings
  try dsimp only
  repeat' first
    | with_reducible assumption
    | with_reducible apply k_takeRun (hm.of (by decide))
    | with_reducible apply if_none
    | with_reducible apply if_some
    | with_reducible apply with_none
    | with_reducible apply with_some
    | with_reducible apply if_getD
    | with_reducible apply if_bind
    | with_reducible apply if_mapState
    | with_reducible apply if_bindWith
    | with_reducible apply if_mapWith
    | with_reducible apply if_foldl
    | with_reducible apply with_map
    | with_reducible apply if_map
    | with_reducible apply with_mapOpt
    | (with_reducible apply if_get; with_reducible assumption)
    | (with_reducible apply with_get; with_reducible assumption)
    | with_reducible apply k_foldl
    | intro _
    | dsimp only
    | split

theorem k_doCollCreate {m : List Part} (hm : Within [.ptns, .colls] m) (a0 : Nat) (a1 : Req) (a2 : ReadReply) {s t : State} (h : Keeps m s t) : Keeps m s (doCollCreate a0 a1 a2 t).1 := by
  unfold doCollCreate
  try dsimp only
  repeat' first
    | with_reducible assumption
    | with_reducible apply k_demandAll (hm.of (by decide))
    | with_reducible apply k_takePostings (hm.of (by decide))
    | with_reducible apply if_none
    | with_reducible apply if_some
    | with_reducible apply with_none
    | with_reducible apply with_some
    | with_reducible apply if_getD
    | with_reducible apply if_bind
    | with_reducible apply if_mapState
    | with_reducible apply if_bindWith
    | with_reducible apply if_mapWith
    | with_reducible apply if_foldl
    | with_reducible apply with_map
    | with_reducible apply if_map
    | with_reducible apply with_mapOpt
    | (with_reducible apply if_get; with_reducible assumption)
    | (with_reducible apply with_get; with_reducible assumption)
    | with_reducible apply pair_foldl
    | (with_reducible apply pair_get; with_reducible assumption)
    | with_reducible apply k_foldl
    | simp only [k_set_colls (hm.of (by decide))]
    | intro _
    | dsimp only
    | split

theorem k_removeCtx {m : List Part} (hm : Within [.host, .ptns, .ctxs, .cmds] m) (a0 : Nat) {s t : State} (h : Keeps m s t) : Keeps m s (removeCtx a0 t) := by
  unfold removeCtx
  try dsimp only
  repeat' first
    | with_reducible assumption
    | with_reducible apply k_releaseHeld (hm.of (by decide))
    | with_reducible apply k_leaveApertures (hm.of (by decide))
    | with_reducible apply k_updHost (hm.of (by decide))
    | with_reducible apply k_foldl
    | simp only [k_set_ptns_ctxs_cmds (hm.of (by decide))]
    | simp only [k_set_ctxs_cmds (hm.of (by decide))]
    | simp only [k_set_ptns (hm.of (by decide))]
    | intro _
    | dsimp only
    | split

theorem k_doCtxDestroy {m : List Part} (hm : Within [.host, .ptns, .ctxs, .cmds] m) (a0 : Nat) (a1 : Req) (a2 : ReadReply) {s t : State} (h : Keeps m s t) : Keeps m s (doCtxDestroy a0 a1 a2 t).1 := by
  unfold doCtxDestroy
  try dsimp only
  repeat' first
    | with_reducible assumption
    | with_reducible apply k_guardM (Within.nil m)
    | with_reducible apply k_removeCtx (hm.of (by decide))
    | with_reducible apply k_freeWindow (hm.of (by decide))
    | with_reducible apply pair_foldl
    | (with_reducible apply pair_get; with_reducible assumption)
    | with_reducible apply k_foldl
    | intro _
    | dsimp only
    | split

theorem k_doHdmMap {m : List Part} (hm : Within [.host, .ptns] m) (a0 : Nat) (a1 : Req) (a2 : ReadReply) {s t : State} (h : Keeps m s t) : Keeps m s (doHdmMap a0 a1 a2 t).1 := by
  unfold doHdmMap
  try dsimp only
  repeat' first
    | with_reducible assumption
    | with_reducible apply k_updHost (hm.of (by decide))
    | with_reducible apply k_updPtn (hm.of (by decide))
    | with_reducible apply k_leaveApertures (hm.of (by decide))
    | with_reducible apply pair_foldl
    | (with_reducible apply pair_get; with_reducible assumption)
    | with_reducible apply k_foldl
    | intro _
    | dsimp only
    | split

theorem k_warmUp {m : List Part} (hm : Within [.ptns, .ctxs] m) (a0 : Nat) (a1 : Nat) {s t : State} (h : Keeps m s t) : Keeps m s (warmUp a0 a1 t) := by
  unfold warmUp
  try dsimp only
  repeat' first
    | with_reducible assumption
    | with_reducible apply k_runRestored (hm.of (by decide))
    | with_reducible apply k_swapBytes (hm.of (by decide))
    | with_reducible apply k_updPtn (hm.of (by decide))
    | with_reducible apply k_foldl
    | intro _
    | dsimp only
    | split

theorem k_endPhase {m : List Part} (hm : Within [.ptns, .ctxs] m) (a0 : Nat) (a1 : Swap) {s t : State} (h : Keeps m s t) : Keeps m s (endPhase a0 a1 t) := by
  unfold endPhase
  try dsimp only
  repeat' first
    | with_reducible assumption
    | with_reducible apply k_setPhase (hm.of (by decide))
    | with_reducible apply k_evictCtx (hm.of (by decide))
    | with_reducible apply k_updPtn (hm.of (by decide))
    | with_reducible apply k_restoreRecords (hm.of (by decide))
    | with_reducible apply k_loadPatterns (hm.of (by decide))
    | with_reducible apply k_warmUp (hm.of (by decide))
    | with_reducible apply k_foldl
    | intro _
    | dsimp only
    | split

theorem k_startWork {m : List Part} (hm : Within [.ptns] m) (a0 : Nat) (a1 : Nat) (a3 : Waiting) {s t : State} (h : Keeps m s t) : Keeps m s (startWork a0 a1 t a3) := by
  unfold startWork
  try dsimp only
  repeat' first
    | with_reducible assumption
    | with_reducible apply k_bindDesc (hm.of (by decide))
    | with_reducible apply k_bindChunk (hm.of (by decide))
    | with_reducible apply k_resume (hm.of (by decide))
    | with_reducible apply k_foldl
    | intro _
    | dsimp only
    | split

theorem k_takeWork {m : List Part} (hm : Within [.ptns] m) (a0 : Nat) (a1 : Nat) {s t : State} (h : Keeps m s t) : Keeps m s (takeWork a0 a1 t) := by
  unfold takeWork
  try dsimp only
  repeat' first
    | with_reducible assumption
    | with_reducible apply k_startWork (hm.of (by decide))
    | with_reducible apply k_foldl
    | intro _
    | dsimp only
    | split

theorem k_finalRow {m : List Part} (hm : Within [.cmds] m) (a0 : Nat) (a1 : Nat) {s t : State} (h : Keeps m s t) : Keeps m s (finalRow a0 a1 t) := by
  unfold finalRow
  try dsimp only
  repeat' first
    | with_reducible assumption
    | with_reducible apply k_updCmd (hm.of (by decide))
    | with_reducible apply k_updRow (hm.of (by decide))
    | with_reducible apply k_noteNan (hm.of (by decide))
    | with_reducible apply k_foldl
    | intro _
    | dsimp only
    | split

theorem k_execFinalSelection {m : List Part} (hm : Within [.cmds] m) (a0 : Nat) (a1 : Nat) {s t : State} (h : Keeps m s t) : Goes m s (execFinalSelection a0 a1 t) := by
  unfold execFinalSelection
  try dsimp only
  repeat' first
    | with_reducible assumption
    | with_reducible apply k_finalRow (hm.of (by decide))
    | with_reducible apply goes_onlyIf
    | with_reducible apply goes_next
    | with_reducible apply k_foldl
    | intro _
    | dsimp only
    | split

theorem k_mergeAt {m : List Part} (hm : Within [.cmds] m) (a0 : FoldNode) (a1 : Nat) (a2 : Nat) (a3 : Cmd) {s t : State} (h : Keeps m s t) : Keeps m s (mergeAt a0 a1 a2 a3 t) := by
  unfold mergeAt
  try dsimp only
  repeat' first
    | with_reducible assumption
    | with_reducible apply k_noteNan (hm.of (by decide))
    | with_reducible apply k_updRow (hm.of (by decide))
    | with_reducible apply k_foldl
    | intro _
    | dsimp only
    | split

theorem k_mergeRow {m : List Part} (hm : Within [.cmds] m) (a0 : Nat) (a1 : Nat) (a2 : Nat) (a3 : Nat) (a4 : Cmd) {s t : State} (h : Keeps m s t) : Keeps m s (mergeRow a0 a1 a2 a3 a4 t) := by
  unfold mergeRow
  try dsimp only
  repeat' first
    | with_reducible assumption
    | with_reducible apply k_noteNan (hm.of (by decide))
    | with_reducible apply k_updRow (hm.of (by decide))
    | with_reducible apply k_foldl
    | intro _
    | dsimp only
    | split

theorem k_mergePtn {m : List Part} (hm : Within [.cmds] m) (a0 : Nat) (a1 : Nat) (a2 : Nat) (a3 : Cmd) {s t : State} (h : Keeps m s t) : Keeps m s (mergePtn a0 a1 a2 a3 t) := by
  unfold mergePtn
  try dsimp only
  repeat' first
    | with_reducible assumption
    | with_reducible apply k_noteNan (hm.of (by decide))
    | with_reducible apply k_updRow (hm.of (by decide))
    | with_reducible apply k_foldl
    | intro _
    | dsimp only
    | split

theorem k_merge {m : List Part} (hm : Within [.cmds] m) (a0 : FoldNode) (a1 : Nat) (a2 : Nat) {s t : State} (h : Keeps m s t) : Keeps m s (merge a0 a1 a2 t) := by
  unfold merge
  try dsimp only
  repeat' first
    | with_reducible assumption
    | with_reducible apply k_mergeRow (hm.of (by decide))
    | with_reducible apply k_mergePtn (hm.of (by decide))
    | with_reducible apply k_sendToDevice (hm.of (by decide))
    | with_reducible apply k_mergeAt (hm.of (by decide))
    | with_reducible apply k_foldl
    | intro _
    | dsimp only
    | split

theorem k_saveRecord {m : List Part} (hm : Within [.ptns] m) (a0 : Nat) (a1 : Nat) (a2 : Nat) {s t : State} (h : Keeps m s t) : Keeps m s (saveRecord a0 a1 a2 t) := by
  unfold saveRecord
  try dsimp only
  repeat' first
    | with_reducible assumption
    | with_reducible apply k_updPtn (hm.of (by decide))
    | with_reducible apply k_takeWork (hm.of (by decide))
    | with_reducible apply k_updAnvil (hm.of (by decide))
    | with_reducible apply k_foldl
    | intro _
    | dsimp only
    | split

theorem k_execPreemptSaveDone {m : List Part} (hm : Within [.ptns] m) (a0 : Fin 12) (a1 : Fin 864) {s t : State} (h : Keeps m s t) : Goes m s (execPreemptSaveDone a0 a1 t) := by
  unfold execPreemptSaveDone
  try dsimp only
  repeat' first
    | with_reducible assumption
    | with_reducible apply k_saveRecord (hm.of (by decide))
    | with_reducible apply goes_onlyIf
    | with_reducible apply goes_next
    | with_reducible apply k_foldl
    | intro _
    | dsimp only
    | split

theorem k_execStrataCommit {m : List Part} (hm : Within [.ptns, .ctxs, .colls, .hearth, .seamTok] m) (a0 : Nat) {s t : State} (h : Keeps m s t) : Goes m s (execStrataCommit a0 t) := by
  unfold execStrataCommit
  try dsimp only
  repeat' first
    | with_reducible assumption
    | with_reducible apply k_commitStrata (hm.of (by decide))
    | with_reducible apply goes_onlyIf
    | with_reducible apply goes_next
    | with_reducible apply k_foldl
    | intro _
    | dsimp only
    | split

theorem k_execSwapPhaseEnd {m : List Part} (hm : Within [.ptns, .ctxs] m) (a0 : Fin 12) {s t : State} (h : Keeps m s t) : Goes m s (execSwapPhaseEnd a0 t) := by
  unfold execSwapPhaseEnd
  try dsimp only
  repeat' first
    | with_reducible assumption
    | with_reducible apply k_endPhase (hm.of (by decide))
    | with_reducible apply goes_onlyIf
    | with_reducible apply goes_next
    | with_reducible apply k_foldl
    | intro _
    | dsimp only
    | split

theorem k_freeAnvil {m : List Part} (hm : Within [.ptns, .ctxs, .cmds] m) (a0 : Nat) (a1 : Nat) {s t : State} (h : Keeps m s t) : Keeps m s (freeAnvil a0 a1 t) := by
  unfold freeAnvil
  try dsimp only
  repeat' first
    | with_reducible assumption
    | with_reducible apply k_updAnvil (hm.of (by decide))
    | with_reducible apply k_chargeAnvil (hm.of (by decide))
    | with_reducible apply k_foldl
    | intro _
    | dsimp only
    | split

theorem k_issueAtom {m : List Part} (hm : Within [.ptns, .seamTok] m) (a0 : Nat) (a1 : Nat) (a2 : AtomReq) {s t : State} (h : Keeps m s t) : Keeps m s (issueAtom a0 a1 a2 t).1 := by
  unfold issueAtom
  try dsimp only
  repeat' first
    | with_reducible assumption
    | with_reducible apply k_takeIssue (hm.of (by decide))
    | with_reducible apply k_setAtomHead (hm.of (by decide))
    | with_reducible apply k_updReg (hm.of (by decide))
    | with_reducible apply if_none
    | with_reducible apply if_some
    | with_reducible apply with_none
    | with_reducible apply with_some
    | with_reducible apply if_getD
    | with_reducible apply if_bind
    | with_reducible apply if_mapState
    | with_reducible apply if_bindWith
    | with_reducible apply if_mapWith
    | with_reducible apply if_foldl
    | with_reducible apply with_map
    | with_reducible apply if_map
    | with_reducible apply with_mapOpt
    | (with_reducible apply if_get; with_reducible assumption)
    | (with_reducible apply with_get; with_reducible assumption)
    | with_reducible apply pair_foldl
    | (with_reducible apply pair_get; with_reducible assumption)
    | with_reducible apply k_foldl
    | intro _
    | dsimp only
    | split

theorem k_sweptBrick {m : List Part} (hm : Within [.ptns, .ctxs, .cmds] m) (a0 : Nat) (a1 : Nat) (a2 : Nat) {s t : State} (h : Keeps m s t) : Keeps m s (sweptBrick a0 a1 a2 t) := by
  unfold sweptBrick
  try dsimp only
  repeat' first
    | with_reducible assumption
    | with_reducible apply k_updAnvil (hm.of (by decide))
    | with_reducible apply k_freeAnvil (hm.of (by decide))
    | with_reducible apply k_foldl
    | intro _
    | dsimp only
    | split

theorem k_sweepBrick {m : List Part} (hm : Within [.ptns, .ctxs, .colls, .cmds, .seamTok] m) (a0 : Nat) (a1 : Nat) {s t : State} (h : Keeps m s t) : Keeps m s (sweepBrick a0 a1 t) := by
  unfold sweepBrick
  try dsimp only
  repeat' first
    | with_reducible assumption
    | with_reducible apply k_sweptBrick (hm.of (by decide))
    | with_reducible apply k_settleBrick (hm.of (by decide))
    | with_reducible apply k_engineMove (hm.of (by decide))
    | with_reducible apply k_foldl
    | intro _
    | dsimp only
    | split

theorem k_touchKey {m : List Part} (hm : Within [.ptns, .ctxs, .seamTok] m) (a0 : Nat) (a1 : Option Nat) (a2 : Key) {s t : State} (h : Keeps m s t) : Keeps m s (touchKey a0 a1 a2 t) := by
  unfold touchKey
  try dsimp only
  repeat' first
    | with_reducible assumption
    | with_reducible apply k_cacheLines (hm.of (by decide))
    | with_reducible apply k_engineMove (hm.of (by decide))
    | with_reducible apply k_foldl
    | intro _
    | dsimp only
    | split

theorem k_touchTomb {m : List Part} (hm : Within [.ptns, .ctxs, .seamTok] m) (a0 : Option Nat) (a1 : Option Nat) (a2 : Nat) {s t : State} (h : Keeps m s t) : Keeps m s (touchTomb a0 a1 a2 t) := by
  unfold touchTomb
  try dsimp only
  repeat' first
    | with_reducible assumption
    | with_reducible apply k_cacheLines (hm.of (by decide))
    | with_reducible apply k_engineMove (hm.of (by decide))
    | with_reducible apply k_foldl
    | intro _
    | dsimp only
    | split

theorem k_readAperture {m : List Part} (hm : Within [.ptns, .ctxs, .seamTok] m) (a0 : Cmd) (a1 : Nat) (a2 : Nat) {s t : State} (h : Keeps m s t) : Keeps m s (readAperture a0 a1 a2 t) := by
  unfold readAperture
  try dsimp only
  repeat' first
    | with_reducible assumption
    | with_reducible apply k_engineMove (hm.of (by decide))
    | with_reducible apply k_foldl
    | intro _
    | dsimp only
    | split

theorem k_takeBlock {m : List Part} (hm : Within [.ptns] m) (a0 : Nat) (a1 : Nat) {s t : State} (h : Keeps m s t) : KeepsWith m s (takeBlock a0 a1 t) := by
  unfold takeBlock
  try dsimp only
  repeat' first
    | with_reducible assumption
    | with_reducible apply k_giveRegion (hm.of (by decide))
    | with_reducible apply if_none
    | with_reducible apply if_some
    | with_reducible apply with_none
    | with_reducible apply with_some
    | with_reducible apply if_getD
    | with_reducible apply if_bind
    | with_reducible apply if_mapState
    | with_reducible apply if_bindWith
    | with_reducible apply if_mapWith
    | with_reducible apply if_foldl
    | with_reducible apply with_map
    | with_reducible apply if_map
    | with_reducible apply with_mapOpt
    | (with_reducible apply if_get; with_reducible assumption)
    | (with_reducible apply with_get; with_reducible assumption)
    | with_reducible apply k_foldl
    | intro _
    | dsimp only
    | split

theorem k_addPosting {m : List Part} (hm : Within [.ptns, .colls] m) (a0 : Nat) (a1 : Nat) (a2 : Posting) {s t : State} (h : Keeps m s t) : KeepsIf m s (addPosting a0 a1 a2 t) := by
  unfold addPosting
  try dsimp only
  repeat' first
    | with_reducible assumption
    | with_reducible apply k_updColl (hm.of (by decide))
    | with_reducible apply k_takeBlock (hm.of (by decide))
    | with_reducible apply if_none
    | with_reducible apply if_some
    | with_reducible apply with_none
    | with_reducible apply with_some
    | with_reducible apply if_getD
    | with_reducible apply if_bind
    | with_reducible apply if_mapState
    | with_reducible apply if_bindWith
    | with_reducible apply if_mapWith
    | with_reducible apply if_foldl
    | with_reducible apply with_map
    | with_reducible apply if_map
    | with_reducible apply with_mapOpt
    | (with_reducible apply if_get; with_reducible assumption)
    | (with_reducible apply with_get; with_reducible assumption)
    | with_reducible apply k_foldl
    | intro _
    | dsimp only
    | split

theorem k_queueAccess {m : List Part} (hm : Within [.host, .ptns] m) (a0 : Nat) (a1 : Nat) (a2 : Nat) (a3 : Nat) (a4 : MemAccess) {s t : State} (h : Keeps m s t) : Keeps m s (queueAccess a0 a1 a2 a3 a4 t) := by
  unfold queueAccess
  try dsimp only
  repeat' first
    | with_reducible assumption
    | with_reducible apply k_answer (hm.of (by decide))
    | with_reducible apply k_updPtn (hm.of (by decide))
    | with_reducible apply k_noteReceiveWait (hm.of (by decide))
    | with_reducible apply k_foldl
    | intro _
    | dsimp only
    | split

theorem k_addPostings {m : List Part} (hm : Within [.ptns, .colls] m) (a0 : Nat) (a1 : Epoch) (a2 : W128) (a3 : F32 × List (Nat × Nat)) (a4 : SlotRef) {s t : State} (h : Keeps m s t) : KeepsIf m s (addPostings a0 a1 a2 a3 a4 t) := by
  unfold addPostings
  try dsimp only
  repeat' first
    | with_reducible assumption
    | with_reducible apply k_addPosting (hm.of (by decide))
    | with_reducible apply if_none
    | with_reducible apply if_some
    | with_reducible apply with_none
    | with_reducible apply with_some
    | with_reducible apply if_getD
    | with_reducible apply if_bind
    | with_reducible apply if_mapState
    | with_reducible apply if_bindWith
    | with_reducible apply if_mapWith
    | with_reducible apply if_foldl
    | with_reducible apply with_map
    | with_reducible apply if_map
    | with_reducible apply with_mapOpt
    | (with_reducible apply if_get; with_reducible assumption)
    | (with_reducible apply with_get; with_reducible assumption)
    | with_reducible apply k_foldl
    | intro _
    | dsimp only
    | split

theorem k_movePostings {m : List Part} (hm : Within [.ptns, .colls] m) (a0 : Nat) (a1 : Epoch) (a2 : SlotRef × SlotRef) {s t : State} (h : Keeps m s t) : KeepsIf m s (movePostings a0 a1 a2 t) := by
  unfold movePostings
  try dsimp only
  repeat' first
    | with_reducible assumption
    | with_reducible apply k_addPostings (hm.of (by decide))
    | with_reducible apply if_none
    | with_reducible apply if_some
    | with_reducible apply with_none
    | with_reducible apply with_some
    | with_reducible apply if_getD
    | with_reducible apply if_bind
    | with_reducible apply if_mapState
    | with_reducible apply if_bindWith
    | with_reducible apply if_mapWith
    | with_reducible apply if_foldl
    | with_reducible apply with_map
    | with_reducible apply if_map
    | with_reducible apply with_mapOpt
    | (with_reducible apply if_get; with_reducible assumption)
    | (with_reducible apply with_get; with_reducible assumption)
    | with_reducible apply k_foldl
    | intro _
    | dsimp only
    | split

theorem k_opEnd {m : List Part} (hm : Within [.ptns, .ctxs, .cmds] m) (a0 : Nat) (a1 : Nat) (a2 : W128) {s t : State} (h : Keeps m s t) : Keeps m s (opEnd a0 a1 a2 t) := by
  unfold opEnd
  try dsimp only
  repeat' first
    | with_reducible assumption
    | with_reducible apply k_freeAnvil (hm.of (by decide))
    | with_reducible apply k_foldl
    | intro _
    | dsimp only
    | split

theorem k_execSettlingSweep {m : List Part} (hm : Within [.ptns, .ctxs, .colls, .cmds, .seamTok] m) (a0 : Nat) (a1 : Nat) {s t : State} (h : Keeps m s t) : Goes m s (execSettlingSweep a0 a1 t) := by
  unfold execSettlingSweep
  try dsimp only
  repeat' first
    | with_reducible assumption
    | with_reducible apply k_sweepBrick (hm.of (by decide))
    | with_reducible apply goes_onlyIf
    | with_reducible apply goes_next
    | with_reducible apply k_foldl
    | intro _
    | dsimp only
    | split

theorem k_takeLacking {m : List Part} (hm : Within [.host, .cmds] m) (a0 : Nat) (a1 : List Hold) {s t : State} (h : Keeps m s t) : Keeps m s (takeLacking a0 a1 t).1 := by
  induction a1 generalizing t with
  | nil => exact k_updCmd (hm.of (by decide)) _ _ h
  | cons x l ih =>
    unfold takeLacking
    split
    · exact h
    · exact ih (k_updCmd (hm.of (by decide)) _ _ (k_takePool (hm.of (by decide)) _ h))

theorem k_emitLane {m : List Part} (hm : Within [.cmds] m) (a0 : Nat) (a1 : Nat) (a2 : Anvil) (a3 : LaneReq) (a4 : Nat) {s t : State} (h : Keeps m s t) : Keeps m s (emitLane a0 a1 a2 a3 a4 t) := by
  unfold emitLane
  try dsimp only
  repeat' first
    | with_reducible assumption
    | with_reducible apply k_updRow (hm.of (by decide))
    | with_reducible apply k_foldl
    | intro _
    | dsimp only
    | split

theorem k_putDesc {m : List Part} (hm : Within [.ptns] m) (a0 : Nat) (a1 : Desc) {s t : State} (h : Keeps m s t) : Keeps m s (putDesc a0 a1 t) := by
  unfold putDesc
  try dsimp only
  repeat' first
    | with_reducible assumption
    | with_reducible apply k_updPtn (hm.of (by decide))
    | with_reducible apply k_foldl
    | intro _
    | dsimp only
    | split

theorem k_fillPlaces {m : List Part} (hm : Within [.ptns] m) (a0 : Nat) {s t : State} (h : Keeps m s t) : Keeps m s (fillPlaces a0 t) := by
  unfold fillPlaces
  try dsimp only
  repeat' first
    | with_reducible assumption
    | with_reducible apply k_putDesc (hm.of (by decide))
    | with_reducible apply k_updPtn (hm.of (by decide))
    | with_reducible apply k_foldl
    | intro _
    | dsimp only
    | split

theorem k_pruneChunks {m : List Part} (hm : Within [.ptns] m) (a0 : Nat) {s t : State} (h : Keeps m s t) : Keeps m s (pruneChunks a0 t) := by
  unfold pruneChunks
  try dsimp only
  repeat' first
    | with_reducible assumption
    | with_reducible apply k_updPtn (hm.of (by decide))
    | with_reducible apply k_foldl
    | intro _
    | dsimp only
    | split

theorem k_releaseWritten {m : List Part} (hm : Within [.host, .cmds] m) (a0 : Nat) (a1 : Cmd) {s t : State} (h : Keeps m s t) : Keeps m s (releaseWritten a0 a1 t) := by
  unfold releaseWritten
  try dsimp only
  repeat' first
    | with_reducible assumption
    | with_reducible apply k_updCmd (hm.of (by decide))
    | with_reducible apply k_release (hm.of (by decide))
    | with_reducible apply k_foldl
    | intro _
    | dsimp only
    | split

theorem k_sentRecord {m : List Part} (hm : Within [.host] m) (a0 : Nat) (a1 : JRec) {s t : State} (h : Keeps m s t) : Keeps m s (sentRecord a0 a1 t) := by
  unfold sentRecord
  try dsimp only
  repeat' first
    | with_reducible assumption
    | with_reducible apply k_updHost (hm.of (by decide))
    | with_reducible apply k_foldl
    | intro _
    | dsimp only
    | split

theorem k_dropFar {m : List Part} (hm : Within [.ptns] m) (a0 : Nat) {s t : State} (h : Keeps m s t) : Keeps m s (dropFar a0 t) := by
  unfold dropFar
  try dsimp only
  repeat' first
    | with_reducible assumption
    | with_reducible apply k_updPtn (hm.of (by decide))
    | with_reducible apply k_foldl
    | intro _
    | dsimp only
    | split

theorem k_startFarRows {m : List Part} (hm : Within [.cmds] m) (a0 : Nat) (a1 : Cmd) {s t : State} (h : Keeps m s t) : Keeps m s (startFarRows a0 a1 t) := by
  unfold startFarRows
  try dsimp only
  repeat' first
    | with_reducible assumption
    | with_reducible apply k_updCmd (hm.of (by decide))
    | with_reducible apply k_foldl
    | intro _
    | dsimp only
    | split

theorem k_sendInit {m : List Part} (hm : Within [.icern] m) (a0 : Nat) {s t : State} (h : Keeps m s t) : Keeps m s (sendInit a0 t) := by
  unfold sendInit
  try dsimp only
  repeat' first
    | with_reducible assumption
    | with_reducible apply k_updPort (hm.of (by decide))
    | with_reducible apply k_foldl
    | intro _
    | dsimp only
    | split

theorem k_takeMsg {m : List Part} (hm : Within [.icern] m) (a0 : Msg) {s t : State} (h : Keeps m s t) : Keeps m s (takeMsg a0 t) := by
  unfold takeMsg
  try dsimp only
  repeat' first
    | with_reducible assumption
    | with_reducible apply k_updIcern (hm.of (by decide))
    | with_reducible apply k_foldl
    | intro _
    | dsimp only
    | split

theorem k_noteAbort {m : List Part} (hm : Within [.icern] m) (a0 : Msg) {s t : State} (h : Keeps m s t) : Keeps m s (noteAbort a0 t) := by
  unfold noteAbort
  try dsimp only
  repeat' first
    | with_reducible assumption
    | with_reducible apply k_updIcern (hm.of (by decide))
    | with_reducible apply k_foldl
    | intro _
    | dsimp only
    | split

theorem k_recPostings {m : List Part} (hm : Within [.ptns, .colls] m) (a0 : Nat) (a1 : Epoch) (a2 : Rec) {s t : State} (h : Keeps m s t) : KeepsIf m s (recPostings a0 a1 a2 t) := by
  unfold recPostings
  try dsimp only
  repeat' first
    | with_reducible assumption
    | with_reducible apply k_addPostings (hm.of (by decide))
    | with_reducible apply if_none
    | with_reducible apply if_some
    | with_reducible apply with_none
    | with_reducible apply with_some
    | with_reducible apply if_getD
    | with_reducible apply if_bind
    | with_reducible apply if_mapState
    | with_reducible apply if_bindWith
    | with_reducible apply if_mapWith
    | with_reducible apply if_foldl
    | with_reducible apply with_map
    | with_reducible apply if_map
    | with_reducible apply with_mapOpt
    | (with_reducible apply if_get; with_reducible assumption)
    | (with_reducible apply with_get; with_reducible assumption)
    | with_reducible apply k_foldl
    | intro _
    | dsimp only
    | split

theorem k_notePoison {m : List Part} (hm : Within [.host] m) {s t : State} (h : Keeps m s t) : Keeps m s (notePoison t) := by
  unfold notePoison
  try dsimp only
  repeat' first
    | with_reducible assumption
    | with_reducible apply k_updLink (hm.of (by decide))
    | with_reducible apply k_foldl
    | intro _
    | dsimp only
    | split

theorem k_startWith {m : List Part} (hm : Within [.levels] m) (a0 : Level) {s t : State} (h : Keeps m s t) : Keeps m s (startWith a0 t) := by
  unfold startWith
  try dsimp only
  repeat' first
    | with_reducible assumption
    | with_reducible apply k_foldl
    | simp only [k_set_levels (hm.of (by decide))]
    | intro _
    | dsimp only
    | split

theorem k_endKills {m : List Part} (hm : Within [.levels] m) {s t : State} (h : Keeps m s t) : Keeps m s (endKills t) := by
  unfold endKills
  try dsimp only
  repeat' first
    | with_reducible assumption
    | with_reducible apply k_foldl
    | simp only [k_set_levels (hm.of (by decide))]
    | intro _
    | dsimp only
    | split

theorem k_uncountL2 {m : List Part} (hm : Within [.aon] m) (a0 : Nat) {s t : State} (h : Keeps m s t) : Keeps m s (uncountL2 a0 t) := by
  unfold uncountL2
  try dsimp only
  repeat' first
    | with_reducible assumption
    | with_reducible apply k_updAon (hm.of (by decide))
    | with_reducible apply k_foldl
    | intro _
    | dsimp only
    | split

theorem k_cutRaise {m : List Part} (hm : Within [.aon, .free] m) {s t : State} (h : Keeps m s t) : Keeps m s (cutRaise t) := by
  unfold cutRaise
  try dsimp only
  repeat' first
    | with_reducible assumption
    | with_reducible apply k_spend (hm.of (by decide))
    | with_reducible apply k_updAon (hm.of (by decide))
    | with_reducible apply k_foldl
    | intro _
    | dsimp only
    | split

theorem k_noticeUp {m : List Part} (hm : Within [.icern] m) (a0 : Nat) (a1 : W32) {s t : State} (h : Keeps m s t) : Keeps m s (noticeUp a0 a1 t) := by
  unfold noticeUp
  try dsimp only
  repeat' first
    | with_reducible assumption
    | with_reducible apply k_queueFlits (hm.of (by decide))
    | with_reducible apply k_foldl
    | intro _
    | dsimp only
    | split

theorem k_moveLines {m : List Part} (hm : Within [.ptns, .ctxs, .seamTok] m) (a0 : Option Nat) (a1 : Option Nat) (a2 : List Nat) {s t : State} (h : Keeps m s t) : Keeps m s (moveLines a0 a1 a2 t) := by
  unfold moveLines
  try dsimp only
  repeat' first
    | with_reducible assumption
    | with_reducible apply k_engineMove (hm.of (by decide))
    | with_reducible apply k_foldl
    | intro _
    | dsimp only
    | split

theorem k_sendReplay {m : List Part} (hm : Within [.icern] m) (a0 : Nat) {s t : State} (h : Keeps m s t) : Keeps m s (sendReplay a0 t) := by
  unfold sendReplay
  try dsimp only
  repeat' first
    | with_reducible assumption
    | with_reducible apply k_updPort (hm.of (by decide))
    | with_reducible apply k_foldl
    | intro _
    | dsimp only
    | split

theorem k_freeBufs {m : List Part} (hm : Within [.icern] m) (a0 : Option (Nat × Nat × Bool × Nat)) {s t : State} (h : Keeps m s t) : Keeps m s (freeBufs a0 t) := by
  unfold freeBufs
  try dsimp only
  repeat' first
    | with_reducible assumption
    | with_reducible apply k_runPort (hm.of (by decide))
    | with_reducible apply k_updPort (hm.of (by decide))
    | with_reducible apply k_foldl
    | intro _
    | dsimp only
    | split

theorem k_emptyPort {m : List Part} (hm : Within [.cmds, .icern] m) (a0 : Nat) (a1 : Nat) {s t : State} (h : Keeps m s t) : Keeps m s (emptyPort a0 a1 t) := by
  unfold emptyPort
  try dsimp only
  repeat' first
    | with_reducible assumption
    | with_reducible apply k_updPort (hm.of (by decide))
    | with_reducible apply k_updIcern (hm.of (by decide))
    | with_reducible apply k_foldl
    | simp only [k_set_cmds (hm.of (by decide))]
    | intro _
    | dsimp only
    | split

theorem k_wakeHearth {m : List Part} (hm : Within [.hearth] m) {s t : State} (h : Keeps m s t) : Keeps m s (wakeHearth t) := by
  unfold wakeHearth
  try dsimp only
  repeat' first
    | with_reducible assumption
    | with_reducible apply k_updHearth (hm.of (by decide))
    | with_reducible apply k_foldl
    | intro _
    | dsimp only
    | split

theorem k_enterWrite {m : List Part} (hm : Within [.host] m) (a0 : HostWrite) {s t : State} (h : Keeps m s t) : Keeps m s (enterWrite a0 t) := by
  unfold enterWrite
  try dsimp only
  repeat' first
    | with_reducible assumption
    | with_reducible apply k_updHost (hm.of (by decide))
    | with_reducible apply k_freePool (hm.of (by decide))
    | with_reducible apply k_foldl
    | intro _
    | dsimp only
    | split

theorem k_chargeWhere {m : List Part} (hm : Within [.ptns, .ctxs, .cmds] m) (a0 : Nat → Nat → Anvil → Bool) {s t : State} (h : Keeps m s t) : Keeps m s (chargeWhere a0 t) := by
  unfold chargeWhere
  try dsimp only
  repeat' first
    | with_reducible assumption
    | with_reducible apply k_chargeAnvil (hm.of (by decide))
    | with_reducible apply k_foldl
    | intro _
    | dsimp only
    | split

theorem k_refreshCopies {m : List Part} (hm : Within [.colls] m) (a0 : Nat) {s t : State} (h : Keeps m s t) : Keeps m s (refreshCopies a0 t) := by
  unfold refreshCopies
  try dsimp only
  repeat' first
    | with_reducible assumption
    | with_reducible apply k_foldl
    | simp only [k_set_colls (hm.of (by decide))]
    | intro _
    | dsimp only
    | split

theorem k_nextSlot {m : List Part} (hm : Within [.ptns, .ctxs, .cmds] m) (a0 : Nat) {s t : State} (h : Keeps m s t) : Keeps m s (nextSlot a0 t) := by
  unfold nextSlot
  try dsimp only
  repeat' first
    | with_reducible assumption
    | with_reducible apply k_updPtn (hm.of (by decide))
    | with_reducible apply k_chargeWhere (hm.of (by decide))
    | with_reducible apply k_foldl
    | intro _
    | dsimp only
    | split

theorem k_becomeSenior {m : List Part} (hm : Within [.host, .cmds] m) (a0 : AmountWaiter) {s t : State} (h : Keeps m s t) : Keeps m s (becomeSenior a0 t) := by
  unfold becomeSenior
  try dsimp only
  repeat' first
    | with_reducible assumption
    | with_reducible apply k_updHost (hm.of (by decide))
    | with_reducible apply k_updRing (hm.of (by decide))
    | with_reducible apply k_updCmd (hm.of (by decide))
    | with_reducible apply k_foldl
    | intro _
    | dsimp only
    | split

theorem k_readStrata {m : List Part} (hm : Within [.ptns, .ctxs, .seamTok] m) (a0 : Nat) (a1 : Nat) (a2 : Nat) (a3 : Nat) (a4 : QRow) {s t : State} (h : Keeps m s t) : Keeps m s (readStrata a0 a1 a2 a3 a4 t) := by
  unfold readStrata
  try dsimp only
  repeat' first
    | with_reducible assumption
    | with_reducible apply k_countOffers (hm.of (by decide))
    | with_reducible apply k_engineMove (hm.of (by decide))
    | with_reducible apply k_cacheLines (hm.of (by decide))
    | with_reducible apply k_foldl
    | intro _
    | dsimp only
    | split

theorem k_spdmEffects {m : List Part} (hm : Within [.host, .hearth, .free] m) (a0 : SpdmTransport) (a1 : SpdmKind) (a2 : List Byte) {s t : State} (h : Keeps m s t) : Keeps m s (spdmEffects a0 a1 a2 t) := by
  unfold spdmEffects
  try dsimp only
  repeat' first
    | with_reducible assumption
    | with_reducible apply k_keyIde (hm.of (by decide))
    | with_reducible apply k_spdmSession (hm.of (by decide))
    | with_reducible apply k_spend (hm.of (by decide))
    | with_reducible apply k_negotiate (hm.of (by decide))
    | with_reducible apply k_foldl
    | intro _
    | dsimp only
    | split

theorem k_doeGo {m : List Part} (hm : Within [.host, .hearth, .free] m) {s t : State} (h : Keeps m s t) : Keeps m s (doeGo t) := by
  unfold doeGo
  try dsimp only
  repeat' first
    | with_reducible assumption
    | with_reducible apply k_updLink (hm.of (by decide))
    | with_reducible apply k_spdmEffects (hm.of (by decide))
    | with_reducible apply k_foldl
    | intro _
    | dsimp only
    | split

theorem k_offLoad {m : List Part} (hm : Within [.aon, .pins] m) {s t : State} (h : Keeps m s t) : Keeps m s (offLoad t) := by
  unfold offLoad
  try dsimp only
  repeat' first
    | with_reducible assumption
    | with_reducible apply k_updAon (hm.of (by decide))
    | with_reducible apply k_updPins (hm.of (by decide))
    | with_reducible apply k_foldl
    | intro _
    | dsimp only
    | split

theorem k_pruneLists {m : List Part} (hm : Within [.ptns] m) {s t : State} (h : Keeps m s t) : Keeps m s (pruneLists t) := by
  unfold pruneLists
  try dsimp only
  repeat' first
    | with_reducible assumption
    | with_reducible apply k_foldl
    | simp only [k_set_ptns (hm.of (by decide))]
    | intro _
    | dsimp only
    | split

theorem k_dueReplays {m : List Part} (hm : Within [.icern] m) {s t : State} (h : Keeps m s t) : Keeps m s (dueReplays t) := by
  unfold dueReplays
  try dsimp only
  repeat' first
    | with_reducible assumption
    | with_reducible apply k_sendReplay (hm.of (by decide))
    | with_reducible apply k_foldl
    | intro _
    | dsimp only
    | split

theorem k_failTrain {m : List Part} (hm : Within [.colls, .hearth] m) (a0 : Nat) {s t : State} (h : Keeps m s t) : Keeps m s (failTrain a0 t) := by
  unfold failTrain
  try dsimp only
  repeat' first
    | with_reducible assumption
    | with_reducible apply k_wakeHearth (hm.of (by decide))
    | with_reducible apply k_updHearth (hm.of (by decide))
    | with_reducible apply k_updColl (hm.of (by decide))
    | with_reducible apply k_foldl
    | intro _
    | dsimp only
    | split

theorem k_postWrite {m : List Part} (hm : Within [.host] m) (a0 : HostWrite) {s t : State} (h : Keeps m s t) : Keeps m s (postWrite a0 t) := by
  unfold postWrite
  try dsimp only
  repeat' first
    | with_reducible assumption
    | with_reducible apply k_enterWrite (hm.of (by decide))
    | with_reducible apply k_updHost (hm.of (by decide))
    | with_reducible apply k_foldl
    | intro _
    | dsimp only
    | split

theorem k_sendVec {m : List Part} (hm : Within [.host] m) (a0 : Nat) {s t : State} (h : Keeps m s t) : Keeps m s (sendVec a0 t) := by
  unfold sendVec
  try dsimp only
  repeat' first
    | with_reducible assumption
    | with_reducible apply k_updVec (hm.of (by decide))
    | with_reducible apply k_postWrite (hm.of (by decide))
    | with_reducible apply k_foldl
    | intro _
    | dsimp only
    | split

theorem k_raise {m : List Part} (hm : Within [.host, .hearth] m) (a0 : Event) (a1 : Nat) (a2 : Nat) (a3 : Nat) {s t : State} (h : Keeps m s t) : Keeps m s (raise a0 a1 a2 a3 t) := by
  unfold raise
  try dsimp only
  repeat' first
    | with_reducible assumption
    | with_reducible apply k_updHost (hm.of (by decide))
    | with_reducible apply k_logEvent (hm.of (by decide))
    | with_reducible apply k_sendVec (hm.of (by decide))
    | with_reducible apply k_foldl
    | intro _
    | dsimp only
    | split

theorem k_postFault {m : List Part} (hm : Within [.aon, .host, .hearth, .faults] m) (a0 : W32) {s t : State} (h : Keeps m s t) : Keeps m s (postFault a0 t) := by
  unfold postFault
  try dsimp only
  repeat' first
    | with_reducible assumption
    | with_reducible apply k_raise (hm.of (by decide))
    | with_reducible apply k_updAon (hm.of (by decide))
    | with_reducible apply k_foldl
    | simp only [k_set_faults (hm.of (by decide))]
    | intro _
    | dsimp only
    | split

theorem k_discard {m : List Part} (hm : Within [.aon, .host, .hearth, .faults, .icern] m) (a0 : Nat) (a1 : Nat) (a2 : Nat) {s t : State} (h : Keeps m s t) : Keeps m s (discard a0 a1 a2 t) := by
  unfold discard
  try dsimp only
  repeat' first
    | with_reducible assumption
    | with_reducible apply k_postFault (hm.of (by decide))
    | with_reducible apply k_updIcern (hm.of (by decide))
    | with_reducible apply k_foldl
    | intro _
    | dsimp only
    | split

theorem k_sendClass {m : List Part} (hm : Within [.aon, .host, .hearth, .faults, .icern] m) (a0 : Nat → Bool) (a1 : Msg) {s t : State} (h : Keeps m s t) : Keeps m s (sendClass a0 a1 t) := by
  unfold sendClass
  try dsimp only
  repeat' first
    | with_reducible assumption
    | with_reducible apply k_discard (hm.of (by decide))
    | with_reducible apply k_queueFlits (hm.of (by decide))
    | with_reducible apply k_foldl
    | intro _
    | dsimp only
    | split

theorem k_sendMsg {m : List Part} (hm : Within [.aon, .host, .hearth, .faults, .icern] m) (a0 : Msg) {s t : State} (h : Keeps m s t) : Keeps m s (sendMsg a0 t) := by
  unfold sendMsg
  try dsimp only
  repeat' first
    | with_reducible assumption
    | with_reducible apply k_sendClass (hm.of (by decide))
    | with_reducible apply k_foldl
    | intro _
    | dsimp only
    | split

theorem k_sendAll {m : List Part} (hm : Within [.aon, .host, .hearth, .faults, .icern] m) (a0 : List Nat) (a1 : Nat → Msg) {s t : State} (h : Keeps m s t) : Keeps m s (sendAll a0 a1 t) := by
  unfold sendAll
  try dsimp only
  repeat' first
    | with_reducible assumption
    | with_reducible apply k_sendMsg (hm.of (by decide))
    | with_reducible apply k_foldl
    | intro _
    | dsimp only
    | split

theorem k_foundBad {m : List Part} (hm : Within [.aon, .host, .ptns, .hearth, .faults, .hbm, .poison, .free] m) (a0 : Nat) (a1 : Nat) {s t : State} (h : Keeps m s t) : Keeps m s (foundBad a0 a1 t) := by
  unfold foundBad
  have h1 := k_setHbm (hm.of (by decide)) (x := mwriteAll t.hbm (a1 - a1 % 8) (leBytes 8 (Config.badData t.free).toNat)) h (Memory.mwriteAll_wf _ _)
  dsimp only
  split
  · exact h
  · exact k_raise (hm.of (by decide)) _ _ _ _ (k_postFault (hm.of (by decide)) _ (k_spend (hm.of (by decide)) _ (k_updPtn (hm.of (by decide)) _ _
      (k_addPoison (hm.of (by decide)) _ h1))))

theorem foldl_mwrite_wf {l : List Nat} {f : Nat → Nat} {g : Nat → Byte} {x : Mem} (w : Memory.wf x = true) :
    Memory.wf (l.foldl (fun m i => mwrite m (f i) (g i)) x) = true := by
  induction l generalizing x with
  | nil => exact w
  | cons a xs ih => exact ih (Memory.mwrite_wf _ _ w)
theorem k_flushEnt {m : List Part} (hm : Within [.aon, .host, .ptns, .hearth, .faults, .hbm, .poison, .free] m) (a0 : Nat) (a1 : List Nat) (a2 : WcbEnt) {s t : State} (h : Keeps m s t) :
    Keeps m s (flushEnt a0 a1 a2 t) := by
  unfold flushEnt
  dsimp only
  refine k_foldl (k_setHbm (hm.of (by decide)) ?_ ?_) ?_
  · split
    · refine k_foldl h fun u x hu => ?_
      split
      · exact k_foundBad (hm.of (by decide)) _ _ hu
      · exact hu
    · exact h
  · intro w
    split
    · exact Memory.mwriteAll_wf _ _ w
    · exact foldl_mwrite_wf w
  · intro u x hu
    split
    · exact k_dropPoison (hm.of (by decide)) _ hu
    · exact hu

theorem k_flushLine {m : List Part} (hm : Within [.aon, .host, .ptns, .hearth, .faults, .hbm, .poison, .free] m) (a0 : Nat) (a1 : Nat) (a2 : List Nat) {s t : State} (h : Keeps m s t) : Keeps m s (flushLine a0 a1 a2 t) := by
  unfold flushLine
  try dsimp only
  repeat' first
    | with_reducible assumption
    | with_reducible apply k_flushEnt (hm.of (by decide))
    | with_reducible apply k_removeEnt (hm.of (by decide))
    | with_reducible apply k_foldl
    | intro _
    | dsimp only
    | split

theorem k_makeRoom {m : List Part} (hm : Within [.aon, .host, .ptns, .hearth, .faults, .hbm, .poison, .free] m) (p line : Nat) {s t : State} (h : Keeps m s t) :
    Keeps m s (makeRoom p line t) := by
  unfold makeRoom
  split
  · split
    · exact k_flushLine (hm.of (by decide)) _ _ _ h
    · exact h
  · exact h

theorem k_acceptLine {m : List Part} (hm : Within [.aon, .host, .ptns, .hearth, .faults, .hbm, .poison, .free] m) (a0 : Nat) (a1 : Nat) (a2 : Nat) (a3 : List Byte) {s t : State} (h : Keeps m s t) : Keeps m s (acceptLine a0 a1 a2 a3 t) := by
  unfold acceptLine
  try dsimp only
  repeat' first
    | with_reducible assumption
    | with_reducible apply k_flushEnt (hm.of (by decide))
    | with_reducible apply k_removeEnt (hm.of (by decide))
    | with_reducible apply k_updPtn (hm.of (by decide))
    | with_reducible apply k_makeRoom (hm.of (by decide))
    | with_reducible apply k_foldl
    | intro _
    | dsimp only
    | split

theorem k_writeLines {m : List Part} (hm : Within [.aon, .host, .ptns, .hearth, .faults, .hbm, .poison, .free] m) (n a : Nat) (bs : List Byte) {s t : State} (h : Keeps m s t) :
    Keeps m s (writeLines n a bs t) := by
  induction n generalizing a bs t with
  | zero => exact h
  | succ n ih =>
    unfold writeLines
    split
    · exact h
    · exact ih _ _ (k_acceptLine (hm.of (by decide)) _ _ _ _ h)

theorem k_writeMem {m : List Part} (hm : Within [.aon, .host, .ptns, .hearth, .faults, .hbm, .poison, .free] m) (a0 : Nat) (a1 : List Byte) {s t : State} (h : Keeps m s t) : Keeps m s (writeMem a0 a1 t) := by
  unfold writeMem
  try dsimp only
  repeat' first
    | with_reducible assumption
    | with_reducible apply k_writeLines (hm.of (by decide))
    | with_reducible apply k_foldl
    | intro _
    | dsimp only
    | split

theorem k_writePoisoned {m : List Part} (hm : Within [.aon, .host, .ptns, .hearth, .faults, .hbm, .poison, .free] m) (a0 : Nat) (a1 : List Byte) {s t : State} (h : Keeps m s t) : Keeps m s (writePoisoned a0 a1 t) := by
  unfold writePoisoned
  try dsimp only
  repeat' first
    | with_reducible assumption
    | with_reducible apply k_writeMem (hm.of (by decide))
    | with_reducible apply k_flushLine (hm.of (by decide))
    | with_reducible apply k_addPoison (hm.of (by decide))
    | with_reducible apply k_foldl
    | intro _
    | dsimp only
    | split

theorem k_acceptStore {m : List Part} (hm : Within [.aon, .host, .ptns, .hearth, .faults, .hbm, .poison, .free] m) (a0 : Anvil) (a1 : Outst) {s t : State} (h : Keeps m s t) : Keeps m s (acceptStore a0 a1 t) := by
  unfold acceptStore
  try dsimp only
  repeat' first
    | with_reducible assumption
    | with_reducible apply k_writePoisoned (hm.of (by decide))
    | with_reducible apply k_writeMem (hm.of (by decide))
    | with_reducible apply k_foldl
    | intro _
    | dsimp only
    | split

theorem k_unmappedAccess {m : List Part} (hm : Within [.host, .hearth] m) (a0 : MemAccess) {s t : State} (h : Keeps m s t) : Keeps m s (unmappedAccess a0 t) := by
  unfold unmappedAccess
  try dsimp only
  repeat' first
    | with_reducible assumption
    | with_reducible apply k_raise (hm.of (by decide))
    | with_reducible apply k_answer (hm.of (by decide))
    | with_reducible apply k_foldl
    | intro _
    | dsimp only
    | split

theorem k_refuseHead {m : List Part} (hm : Within [.aon, .host, .cmds, .nextCmd, .hearth, .faults] m) (a0 : Nat) (a1 : BitVec 512) (a2 : Refused) {s t : State} (h : Keeps m s t) : Keeps m s (refuseHead a0 a1 a2 t) := by
  unfold refuseHead
  try dsimp only
  repeat' first
    | with_reducible assumption
    | with_reducible apply k_releaseHeld (hm.of (by decide))
    | with_reducible apply k_takeSlots (hm.of (by decide))
    | with_reducible apply k_postFault (hm.of (by decide))
    | with_reducible apply k_noteAer (hm.of (by decide))
    | with_reducible apply k_updRing (hm.of (by decide))
    | with_reducible apply k_popHead (hm.of (by decide))
    | with_reducible apply k_addCmd (hm.of (by decide))
    | with_reducible apply pair_foldl
    | (with_reducible apply pair_get; with_reducible assumption)
    | with_reducible apply k_foldl
    | intro _
    | dsimp only
    | split

theorem k_sendRingVec {m : List Part} (hm : Within [.host] m) (a0 : Nat) {s t : State} (h : Keeps m s t) : Keeps m s (sendRingVec a0 t) := by
  unfold sendRingVec
  try dsimp only
  repeat' first
    | with_reducible assumption
    | with_reducible apply k_sendVec (hm.of (by decide))
    | with_reducible apply k_updRing (hm.of (by decide))
    | with_reducible apply k_foldl
    | intro _
    | dsimp only
    | split

theorem k_writeCompletion {m : List Part} (hm : Within [.host] m) (a0 : Nat) (a1 : Option Nat) (a2 : Bool) (a3 : Bool → List Byte) {s t : State} (h : Keeps m s t) : Keeps m s (writeCompletion a0 a1 a2 a3 t) := by
  unfold writeCompletion
  try dsimp only
  repeat' first
    | with_reducible assumption
    | with_reducible apply k_postWrite (hm.of (by decide))
    | with_reducible apply k_setRing (hm.of (by decide))
    | with_reducible apply k_sendRingVec (hm.of (by decide))
    | with_reducible apply k_foldl
    | intro _
    | dsimp only
    | split

theorem k_postTrdy {m : List Part} (hm : Within [.host] m) (a0 : Nat) (a1 : BitVec 512) (a2 : Option Granules) {s t : State} (h : Keeps m s t) : Keeps m s (postTrdy a0 a1 a2 t) := by
  unfold postTrdy
  try dsimp only
  repeat' first
    | with_reducible assumption
    | with_reducible apply k_writeCompletion (hm.of (by decide))
    | with_reducible apply k_foldl
    | intro _
    | dsimp only
    | split

theorem k_admitNext {m : List Part} (hm : Within [.aon, .host, .ptns, .cmds, .nextCmd, .hearth, .faults] m) (a0 : Nat) (a1 : Nat) (a2 : State → Nat → BitVec 512 → Option Refused) (a3 : State → Cmd → Cmd) (a4 : Nat → State → State) {s t : State} (h : Keeps m s t) (g4 : ∀ x u, Keeps m s u → Keeps m s (a4 x u)) : Keeps m s (admitNext a0 a1 a2 a3 a4 t) := by
  unfold admitNext
  try dsimp only
  repeat' first
    | with_reducible assumption
    | with_reducible apply k_refuseHead (hm.of (by decide))
    | with_reducible apply k_reserve (hm.of (by decide))
    | with_reducible apply k_postTrdy (hm.of (by decide))
    | with_reducible apply k_admitHead (hm.of (by decide))
    | with_reducible apply g4
    | with_reducible apply pair_foldl
    | (with_reducible apply pair_get; with_reducible assumption)
    | with_reducible apply k_foldl
    | intro _
    | dsimp only
    | split

theorem k_admitIngest {m : List Part} (hm : Within [.aon, .host, .ptns, .colls, .cmds, .nextCmd, .hearth, .faults] m) (a0 : Nat) (a1 : Nat) {s t : State} (h : Keeps m s t) : Keeps m s (admitIngest a0 a1 t) := by
  unfold admitIngest
  try dsimp only
  repeat' first
    | with_reducible assumption
    | with_reducible apply k_admitNext (hm.of (by decide))
    | with_reducible apply k_noteIngest (hm.of (by decide))
    | with_reducible apply k_foldl
    | intro _
    | dsimp only
    | split

theorem k_afterCommit {m : List Part} (hm : Within [.aon, .host, .ctxs, .cmds, .hearth, .faults, .icern] m) (a0 : Nat) {s t : State} (h : Keeps m s t) : Keeps m s (afterCommit a0 t) := by
  unfold afterCommit
  try dsimp only
  repeat' first
    | with_reducible assumption
    | with_reducible apply k_updCmd (hm.of (by decide))
    | with_reducible apply k_sendMsg (hm.of (by decide))
    | with_reducible apply k_tryFinish (hm.of (by decide))
    | with_reducible apply k_writeRecord (hm.of (by decide))
    | with_reducible apply k_foldl
    | intro _
    | dsimp only
    | split

theorem k_settleWaiters {m : List Part} (hm : Within [.host, .ctxs, .cmds, .levels] m) {s t : State} (h : Keeps m s t) : Keeps m s (settleWaiters t) := by
  unfold settleWaiters
  try dsimp only
  repeat' first
    | with_reducible assumption
    | with_reducible apply k_endKills (hm.of (by decide))
    | with_reducible apply k_settleOne (hm.of (by decide))
    | with_reducible apply k_foldl
    | intro _
    | dsimp only
    | split

theorem k_afterFlush {m : List Part} (hm : Within [.host, .ctxs, .colls, .cmds, .levels] m) (a0 : Nat) {s t : State} (h : Keeps m s t) : Keeps m s (afterFlush a0 t) := by
  unfold afterFlush
  try dsimp only
  repeat' first
    | with_reducible assumption
    | with_reducible apply k_settleWaiters (hm.of (by decide))
    | with_reducible apply k_updColl (hm.of (by decide))
    | with_reducible apply k_foldl
    | intro _
    | dsimp only
    | split

theorem k_startLevel {m : List Part} (hm : Within [.levels] m) (a0 : LadderLevel) (a1 : List (Nat × Nat)) {s t : State} (h : Keeps m s t) : Keeps m s (startLevel a0 a1 t) := by
  unfold startLevel
  try dsimp only
  repeat' first
    | with_reducible assumption
    | with_reducible apply k_startWith (hm.of (by decide))
    | with_reducible apply k_foldl
    | intro _
    | dsimp only
    | split

theorem k_releaseSemaphores {m : List Part} (hm : Within [.aon, .host, .ptns, .hearth, .faults, .hbm, .poison, .free] m) (a0 : Nat) {s t : State} (h : Keeps m s t) : Keeps m s (releaseSemaphores a0 t) := by
  unfold releaseSemaphores
  try dsimp only
  repeat' first
    | with_reducible assumption
    | with_reducible apply k_writeMem (hm.of (by decide))
    | with_reducible apply k_foldl
    | simp only [k_set_ptns (hm.of (by decide))]
    | intro _
    | dsimp only
    | split

theorem k_ptnChange {m : List Part} (hm : Within [.host, .hearth] m) (a0 : Nat) {s t : State} (h : Keeps m s t) : Keeps m s (ptnChange a0 t) := by
  unfold ptnChange
  try dsimp only
  repeat' first
    | with_reducible assumption
    | with_reducible apply k_raise (hm.of (by decide))
    | with_reducible apply k_foldl
    | intro _
    | dsimp only
    | split

theorem k_ageFlush {m : List Part} (hm : Within [.aon, .host, .ptns, .hearth, .faults, .hbm, .poison, .free] m) (a0 : Nat) (a1 : Nat) (a2 : List Nat) {s t : State} (h : Keeps m s t) : Keeps m s (ageFlush a0 a1 a2 t) := by
  unfold ageFlush
  try dsimp only
  repeat' first
    | with_reducible assumption
    | with_reducible apply k_flushLine (hm.of (by decide))
    | with_reducible apply k_foldl
    | intro _
    | dsimp only
    | split

theorem k_answerMbx {m : List Part} (hm : Within [.host, .hearth] m) (a0 : Nat) (a1 : Req) (a2 : Rsp) {s t : State} (h : Keeps m s t) : Keeps m s (answerMbx a0 a1 a2 t) := by
  unfold answerMbx
  try dsimp only
  repeat' first
    | with_reducible assumption
    | with_reducible apply k_updMbx (hm.of (by decide))
    | with_reducible apply k_sendVec (hm.of (by decide))
    | with_reducible apply k_foldl
    | intro _
    | dsimp only
    | split

theorem k_prepareTomb {m : List Part} (hm : Within [.host, .ptns, .hearth] m) (a0 : Nat) (a1 : Nat) (a2 : SlotRef) {s t : State} (h : Keeps m s t) : KeepsIf m s (prepareTomb a0 a1 a2 t) := by
  unfold prepareTomb
  try dsimp only
  repeat' first
    | with_reducible assumption
    | with_reducible apply k_updPtn (hm.of (by decide))
    | with_reducible apply k_raise (hm.of (by decide))
    | with_reducible apply if_none
    | with_reducible apply if_some
    | with_reducible apply with_none
    | with_reducible apply with_some
    | with_reducible apply if_getD
    | with_reducible apply if_bind
    | with_reducible apply if_mapState
    | with_reducible apply if_bindWith
    | with_reducible apply if_mapWith
    | with_reducible apply if_foldl
    | with_reducible apply with_map
    | with_reducible apply if_map
    | with_reducible apply with_mapOpt
    | (with_reducible apply if_get; with_reducible assumption)
    | (with_reducible apply with_get; with_reducible assumption)
    | with_reducible apply k_foldl
    | intro _
    | dsimp only
    | split

theorem k_bank {m : List Part} (hm : Within [.aon, .host, .ptns, .hearth, .faults, .hbm, .poison, .free] m) (a0 : Nat) {s t : State} (h : Keeps m s t) : Keeps m s (bank a0 t) := by
  unfold bank
  try dsimp only
  repeat' first
    | with_reducible assumption
    | with_reducible apply k_flushLine (hm.of (by decide))
    | with_reducible apply k_ptnChange (hm.of (by decide))
    | with_reducible apply k_updPtn (hm.of (by decide))
    | with_reducible apply k_foldl
    | intro _
    | dsimp only
    | split

theorem k_writeMask {m : List Part} (hm : Within [.host] m) (a0 : Nat) {s t : State} (h : Keeps m s t) : Keeps m s (writeMask a0 t) := by
  unfold writeMask
  try dsimp only
  repeat' first
    | with_reducible assumption
    | with_reducible apply k_updHost (hm.of (by decide))
    | with_reducible apply k_sendVec (hm.of (by decide))
    | with_reducible apply k_foldl
    | intro _
    | dsimp only
    | split

theorem k_dbInvalid {m : List Part} (hm : Within [.host, .hearth] m) (a0 : Nat) {s t : State} (h : Keeps m s t) : Keeps m s (dbInvalid a0 t) := by
  unfold dbInvalid
  try dsimp only
  repeat' first
    | with_reducible assumption
    | with_reducible apply k_raise (hm.of (by decide))
    | with_reducible apply k_foldl
    | intro _
    | dsimp only
    | split

theorem k_payloadDone {m : List Part} (hm : Within [.host, .cmds, .hearth] m) (a0 : Nat) (a1 : Nat) {s t : State} (h : Keeps m s t) : Keeps m s (payloadDone a0 a1 t) := by
  unfold payloadDone
  try dsimp only
  repeat' first
    | with_reducible assumption
    | with_reducible apply k_updCmd (hm.of (by decide))
    | with_reducible apply k_dbInvalid (hm.of (by decide))
    | with_reducible apply k_foldl
    | intro _
    | dsimp only
    | split

theorem k_submitTail {m : List Part} (hm : Within [.host, .hearth] m) (a0 : Nat) (a1 : Nat) {s t : State} (h : Keeps m s t) : Keeps m s (submitTail a0 a1 t) := by
  unfold submitTail
  try dsimp only
  repeat' first
    | with_reducible assumption
    | with_reducible apply k_dbInvalid (hm.of (by decide))
    | with_reducible apply k_updRing (hm.of (by decide))
    | with_reducible apply k_foldl
    | intro _
    | dsimp only
    | split

theorem k_clearEvents {m : List Part} (hm : Within [.host, .hearth] m) (a0 : Nat) (a1 : Nat) {s t : State} (h : Keeps m s t) : Keeps m s (clearEvents a0 a1 t) := by
  unfold clearEvents
  try dsimp only
  repeat' first
    | with_reducible assumption
    | with_reducible apply k_updHost (hm.of (by decide))
    | with_reducible apply k_occur (hm.of (by decide))
    | with_reducible apply k_sendVec (hm.of (by decide))
    | with_reducible apply k_foldl
    | intro _
    | dsimp only
    | split

theorem k_completionHead {m : List Part} (hm : Within [.host, .hearth] m) (a0 : Nat) (a1 : Nat) {s t : State} (h : Keeps m s t) : Keeps m s (completionHead a0 a1 t) := by
  unfold completionHead
  try dsimp only
  repeat' first
    | with_reducible assumption
    | with_reducible apply k_dbInvalid (hm.of (by decide))
    | with_reducible apply k_updRing (hm.of (by decide))
    | with_reducible apply k_foldl
    | intro _
    | dsimp only
    | split

theorem k_barWrite {m : List Part} (hm : Within [.aon, .host, .ptns, .cmds, .hearth] m) (a0 : Nat) (a1 : Nat) (a2 : Nat) {s t : State} (h : Keeps m s t) : Keeps m s (barWrite a0 a1 a2 t) := by
  unfold barWrite
  try dsimp only
  repeat' first
    | with_reducible assumption
    | with_reducible apply k_mbxWrite (hm.of (by decide))
    | with_reducible apply k_submitTail (hm.of (by decide))
    | with_reducible apply k_completionHead (hm.of (by decide))
    | with_reducible apply k_payloadDone (hm.of (by decide))
    | with_reducible apply k_clearEvents (hm.of (by decide))
    | with_reducible apply k_writeMask (hm.of (by decide))
    | with_reducible apply k_updAon (hm.of (by decide))
    | with_reducible apply k_updPtn (hm.of (by decide))
    | with_reducible apply k_foldl
    | intro _
    | dsimp only
    | split

theorem k_boot {m : List Part} (hm : Within [.aon, .host, .hearth, .hearthUp, .faults, .levels, .icern] m) {s t : State} (h : Keeps m s t) : Keeps m s (boot t) := by
  unfold boot
  try dsimp only
  repeat' first
    | with_reducible assumption
    | with_reducible apply k_updAon (hm.of (by decide))
    | with_reducible apply k_startFirmware (hm.of (by decide))
    | with_reducible apply k_postFault (hm.of (by decide))
    | with_reducible apply k_updHearth (hm.of (by decide))
    | with_reducible apply k_foldl
    | intro _
    | dsimp only
    | split

theorem k_breakJournal {m : List Part} (hm : Within [.host, .ctxs, .hearth] m) (a0 : Nat) {s t : State} (h : Keeps m s t) : Keeps m s (breakJournal a0 t) := by
  unfold breakJournal
  try dsimp only
  repeat' first
    | with_reducible assumption
    | with_reducible apply k_raise (hm.of (by decide))
    | with_reducible apply k_updJournal (hm.of (by decide))
    | with_reducible apply k_foldl
    | intro _
    | dsimp only
    | split

theorem k_prepareBatch {m : List Part} (hm : Within [.host, .ptns, .hearth] m) (a0 : Nat) (a1 : Cmd) {s t : State} (h : Keeps m s t) : KeepsIf m s (prepareBatch a0 a1 t) := by
  unfold prepareBatch
  try dsimp only
  repeat' first
    | with_reducible assumption
    | with_reducible apply k_withdrawTombs (hm.of (by decide))
    | with_reducible apply k_prepareTomb (hm.of (by decide))
    | with_reducible apply if_none
    | with_reducible apply if_some
    | with_reducible apply with_none
    | with_reducible apply with_some
    | with_reducible apply if_getD
    | with_reducible apply if_bind
    | with_reducible apply if_mapState
    | with_reducible apply if_bindWith
    | with_reducible apply if_mapWith
    | with_reducible apply if_foldl
    | with_reducible apply with_map
    | with_reducible apply if_map
    | with_reducible apply with_mapOpt
    | (with_reducible apply if_get; with_reducible assumption)
    | (with_reducible apply with_get; with_reducible assumption)
    | with_reducible apply k_foldl
    | intro _
    | dsimp only
    | split

theorem k_tombMoved {m : List Part} (hm : Within [.host, .ptns, .hearth] m) (a0 : Nat) (a1 : List SlotRef) {s t : State} (h : Keeps m s t) : KeepsIf m s (tombMoved a0 a1 t) := by
  unfold tombMoved
  try dsimp only
  repeat' first
    | with_reducible assumption
    | with_reducible apply k_prepareTomb (hm.of (by decide))
    | with_reducible apply if_none
    | with_reducible apply if_some
    | with_reducible apply with_none
    | with_reducible apply with_some
    | with_reducible apply if_getD
    | with_reducible apply if_bind
    | with_reducible apply if_mapState
    | with_reducible apply if_bindWith
    | with_reducible apply if_mapWith
    | with_reducible apply if_foldl
    | with_reducible apply with_map
    | with_reducible apply if_map
    | with_reducible apply with_mapOpt
    | (with_reducible apply if_get; with_reducible assumption)
    | (with_reducible apply with_get; with_reducible assumption)
    | with_reducible apply k_foldl
    | intro _
    | dsimp only
    | split

theorem k_writeResults {m : List Part} (hm : Within [.host] m) (a0 : Nat) (a1 : Cmd) {s t : State} (h : Keeps m s t) : Keeps m s (writeResults a0 a1 t) := by
  unfold writeResults
  try dsimp only
  repeat' first
    | with_reducible assumption
    | with_reducible apply k_postWrite (hm.of (by decide))
    | with_reducible apply k_foldl
    | intro _
    | dsimp only
    | split

theorem k_completeOnRing {m : List Part} (hm : Within [.host, .ctxs, .cmds, .hearth, .levels, .free] m) (a0 : Nat) (a1 : Cmd) (a2 : Nat) {s t : State} (h : Keeps m s t) : Keeps m s (completeOnRing a0 a1 a2 t) := by
  unfold completeOnRing
  try dsimp only
  repeat' first
    | with_reducible assumption
    | with_reducible apply k_writeResults (hm.of (by decide))
    | with_reducible apply k_account (hm.of (by decide))
    | with_reducible apply k_writeCompletion (hm.of (by decide))
    | with_reducible apply k_spend (hm.of (by decide))
    | with_reducible apply k_raise (hm.of (by decide))
    | with_reducible apply k_settleWaiters (hm.of (by decide))
    | with_reducible apply k_releaseWritten (hm.of (by decide))
    | with_reducible apply k_foldl
    | intro _
    | dsimp only
    | split

theorem k_completeTicket {m : List Part} (hm : Within [.host, .hearth, .icern] m) (a0 : Nat) (a1 : Rsp) {s t : State} (h : Keeps m s t) : Keeps m s (completeTicket a0 a1 t) := by
  unfold completeTicket
  try dsimp only
  repeat' first
    | with_reducible assumption
    | with_reducible apply k_updHearth (hm.of (by decide))
    | with_reducible apply k_updIcern (hm.of (by decide))
    | with_reducible apply k_updHost (hm.of (by decide))
    | with_reducible apply k_logEvent (hm.of (by decide))
    | with_reducible apply k_sendVec (hm.of (by decide))
    | with_reducible apply k_foldl
    | intro _
    | dsimp only
    | split

theorem k_completeToRoot {m : List Part} (hm : Within [.aon, .host, .cmds, .hearth, .faults, .icern] m) (a0 : Nat) (a1 : Nat) (a2 : Cmd) {s t : State} (h : Keeps m s t) : Keeps m s (completeToRoot a0 a1 a2 t) := by
  unfold completeToRoot
  try dsimp only
  repeat' first
    | with_reducible assumption
    | with_reducible apply k_sendMsg (hm.of (by decide))
    | with_reducible apply k_release (hm.of (by decide))
    | with_reducible apply k_foldl
    | intro _
    | dsimp only
    | split

theorem k_cutPort {m : List Part} (hm : Within [.aon, .host, .cmds, .hearth, .faults, .icern] m) (a0 : Nat) (a1 : Nat) {s t : State} (h : Keeps m s t) : Keeps m s (cutPort a0 a1 t) := by
  unfold cutPort
  try dsimp only
  repeat' first
    | with_reducible assumption
    | with_reducible apply k_emptyPort (hm.of (by decide))
    | with_reducible apply k_postFault (hm.of (by decide))
    | with_reducible apply k_foldl
    | intro _
    | dsimp only
    | split

theorem k_dieSample {m : List Part} (hm : Within [.aon, .host, .hearth, .faults, .power] m) (a0 : Die) (a1 : Option Int) {s t : State} (h : Keeps m s t) : Keeps m s (dieSample a0 a1 t) := by
  unfold dieSample
  try dsimp only
  repeat' first
    | with_reducible assumption
    | with_reducible apply k_updPower (hm.of (by decide))
    | with_reducible apply k_postFault (hm.of (by decide))
    | with_reducible apply k_foldl
    | intro _
    | dsimp only
    | split

theorem k_readFailure {m : List Part} (hm : Within [.aon, .host, .hearth, .faults] m) (a0 : ReadReply) {s t : State} (h : Keeps m s t) : Keeps m s (readFailure a0 t).1 := by
  unfold readFailure
  try dsimp only
  repeat' first
    | with_reducible assumption
    | with_reducible apply k_postFault (hm.of (by decide))
    | with_reducible apply k_noteAer (hm.of (by decide))
    | with_reducible apply pair_foldl
    | (with_reducible apply pair_get; with_reducible assumption)
    | with_reducible apply k_foldl
    | intro _
    | dsimp only
    | split

theorem k_doCollTrain {m : List Part} (hm : Within [.aon, .host, .ptns, .colls, .hearth, .faults, .free] m) (a0 : Nat) (a1 : Req) (a2 : ReadReply) {s t : State} (h : Keeps m s t) : Keeps m s (doCollTrain a0 a1 a2 t).1 := by
  unfold doCollTrain
  try dsimp only
  repeat' first
    | with_reducible assumption
    | with_reducible apply k_updColl (hm.of (by decide))
    | with_reducible apply k_startTrain (hm.of (by decide))
    | with_reducible apply k_readFailure (hm.of (by decide))
    | with_reducible apply pair_foldl
    | (with_reducible apply pair_get; with_reducible assumption)
    | with_reducible apply k_foldl
    | intro _
    | dsimp only
    | split

theorem k_goCold {m : List Part} (hm : Within [.host, .ptns, .hearth, .hbm, .poison] m) (a0 : Nat) {s t : State} (h : Keeps m s t) : Keeps m s (goCold a0 t) := by
  unfold goCold
  try dsimp only
  repeat' first
    | with_reducible assumption
    | with_reducible apply k_ptnChange (hm.of (by decide))
    | with_reducible apply k_updPtn (hm.of (by decide))
    | with_reducible apply k_zeroRange (hm.of (by decide))
    | with_reducible apply k_foldl
    | intro _
    | dsimp only
    | split

theorem k_doPatternLoad {m : List Part} (hm : Within [.aon, .host, .ptns, .jobs, .ctxs, .hearth, .faults] m) (a0 : Nat) (a1 : Req) (a2 : ReadReply) {s t : State} (h : Keeps m s t) : Keeps m s (doPatternLoad a0 a1 a2 t).1 := by
  unfold doPatternLoad
  try dsimp only
  repeat' first
    | with_reducible assumption
    | with_reducible apply k_loadPattern (hm.of (by decide))
    | with_reducible apply k_readFailure (hm.of (by decide))
    | with_reducible apply pair_foldl
    | (with_reducible apply pair_get; with_reducible assumption)
    | with_reducible apply k_foldl
    | intro _
    | dsimp only
    | split

theorem k_endTest {m : List Part} (hm : Within [.host, .ptns, .hearth, .hbm, .poison] m) (a0 : List Nat) (a1 : List Nat) {s t : State} (h : Keeps m s t) : Keeps m s (endTest a0 a1 t) := by
  unfold endTest
  try dsimp only
  repeat' first
    | with_reducible assumption
    | with_reducible apply k_updHearth (hm.of (by decide))
    | with_reducible apply k_goCold (hm.of (by decide))
    | with_reducible apply k_foldl
    | intro _
    | dsimp only
    | split

theorem k_endTestsOn {m : List Part} (hm : Within [.host, .ptns, .hearth, .hbm, .poison] m) (a0 : Nat) {s t : State} (h : Keeps m s t) : Keeps m s (endTestsOn a0 t) := by
  unfold endTestsOn
  try dsimp only
  repeat' first
    | with_reducible assumption
    | with_reducible apply k_endTest (hm.of (by decide))
    | with_reducible apply k_foldl
    | intro _
    | dsimp only
    | split

theorem k_takeOut {m : List Part} (hm : Within [.aon, .host, .ptns, .hearth, .hbm, .poison] m) (a0 : Nat) {s t : State} (h : Keeps m s t) : Keeps m s (takeOut a0 t) := by
  unfold takeOut
  try dsimp only
  repeat' first
    | with_reducible assumption
    | with_reducible apply k_endTestsOn (hm.of (by decide))
    | with_reducible apply k_updAon (hm.of (by decide))
    | with_reducible apply k_goCold (hm.of (by decide))
    | with_reducible apply k_updPtn (hm.of (by decide))
    | with_reducible apply k_foldl
    | intro _
    | dsimp only
    | split

theorem k_putBack {m : List Part} (hm : Within [.aon, .host, .ptns, .hearth] m) (a0 : Nat) {s t : State} (h : Keeps m s t) : Keeps m s (putBack a0 t) := by
  unfold putBack
  try dsimp only
  repeat' first
    | with_reducible assumption
    | with_reducible apply k_updAon (hm.of (by decide))
    | with_reducible apply k_ptnChange (hm.of (by decide))
    | with_reducible apply k_updPtn (hm.of (by decide))
    | with_reducible apply k_foldl
    | intro _
    | dsimp only
    | split

theorem k_doPtnEnable {m : List Part} (hm : Within [.aon, .host, .ptns, .hearth, .hbm, .poison] m) (a0 : Nat) (a1 : Req) (a2 : ReadReply) {s t : State} (h : Keeps m s t) : Keeps m s (doPtnEnable a0 a1 a2 t).1 := by
  unfold doPtnEnable
  try dsimp only
  repeat' first
    | with_reducible assumption
    | with_reducible apply k_guardM (Within.nil m)
    | with_reducible apply k_takeOut (hm.of (by decide))
    | with_reducible apply k_putBack (hm.of (by decide))
    | with_reducible apply pair_foldl
    | (with_reducible apply pair_get; with_reducible assumption)
    | with_reducible apply k_foldl
    | intro _
    | dsimp only
    | split

theorem k_enterWarm {m : List Part} (hm : Within [.host, .ptns, .hearth] m) (a0 : Nat) {s t : State} (h : Keeps m s t) : Keeps m s (enterWarm a0 t) := by
  unfold enterWarm
  try dsimp only
  repeat' first
    | with_reducible assumption
    | with_reducible apply k_ptnChange (hm.of (by decide))
    | with_reducible apply k_updPtn (hm.of (by decide))
    | with_reducible apply k_foldl
    | intro _
    | dsimp only
    | split

theorem k_setPower {m : List Part} (hm : Within [.host, .ptns, .hearth] m) (a0 : Nat) (a1 : Nat) (a2 : Nat) (a3 : Nat) {s t : State} (h : Keeps m s t) : Keeps m s (setPower a0 a1 a2 a3 t) := by
  unfold setPower
  try dsimp only
  repeat' first
    | with_reducible assumption
    | with_reducible apply k_updPtn (hm.of (by decide))
    | with_reducible apply k_enterWarm (hm.of (by decide))
    | with_reducible apply k_startBanking (hm.of (by decide))
    | with_reducible apply k_foldl
    | intro _
    | dsimp only
    | split

theorem k_doPtnPower {m : List Part} (hm : Within [.host, .ptns, .hearth] m) (a0 : Nat) (a1 : Req) (a2 : ReadReply) {s t : State} (h : Keeps m s t) : Keeps m s (doPtnPower a0 a1 a2 t).1 := by
  unfold doPtnPower
  try dsimp only
  repeat' first
    | with_reducible assumption
    | with_reducible apply k_guardM (Within.nil m)
    | with_reducible apply k_setPower (hm.of (by decide))
    | with_reducible apply pair_foldl
    | (with_reducible apply pair_get; with_reducible assumption)
    | with_reducible apply k_foldl
    | intro _
    | dsimp only
    | split

theorem k_startL2 {m : List Part} (hm : Within [.aon, .ptns, .levels] m) (a0 : Nat) (a1 : W32) (a2 : Bool) (a3 : Bool) {s t : State} (h : Keeps m s t) : Keeps m s (startL2 a0 a1 a2 a3 t) := by
  unfold startL2
  try dsimp only
  repeat' first
    | with_reducible assumption
    | with_reducible apply k_countL2 (hm.of (by decide))
    | with_reducible apply k_dueFence (hm.of (by decide))
    | with_reducible apply k_startWith (hm.of (by decide))
    | with_reducible apply k_foldl
    | intro _
    | dsimp only
    | split

theorem k_doResetPtn {m : List Part} (hm : Within [.aon, .ptns, .levels] m) (a0 : Nat) (a1 : Req) (a2 : ReadReply) {s t : State} (h : Keeps m s t) : Keeps m s (doResetPtn a0 a1 a2 t).1 := by
  unfold doResetPtn
  try dsimp only
  repeat' first
    | with_reducible assumption
    | with_reducible apply k_guardM (Within.nil m)
    | with_reducible apply k_startL2 (hm.of (by decide))
    | with_reducible apply pair_foldl
    | (with_reducible apply pair_get; with_reducible assumption)
    | with_reducible apply k_foldl
    | intro _
    | dsimp only
    | split

theorem k_setPort {m : List Part} (hm : Within [.aon, .host, .cmds, .hearth, .faults, .icern] m) (a0 : Nat) (a1 : Nat) {s t : State} (h : Keeps m s t) : Keeps m s (setPort a0 a1 t) := by
  unfold setPort
  try dsimp only
  repeat' first
    | with_reducible assumption
    | with_reducible apply k_cutPort (hm.of (by decide))
    | with_reducible apply k_updPort (hm.of (by decide))
    | with_reducible apply k_emptyPort (hm.of (by decide))
    | with_reducible apply k_foldl
    | intro _
    | dsimp only
    | split

theorem k_doRouteSet {m : List Part} (hm : Within [.aon, .host, .cmds, .hearth, .faults, .icern] m) (a0 : Nat) (a1 : Req) (a2 : ReadReply) {s t : State} (h : Keeps m s t) : Keeps m s (doRouteSet a0 a1 a2 t).1 := by
  unfold doRouteSet
  try dsimp only
  repeat' first
    | with_reducible assumption
    | with_reducible apply k_updIcern (hm.of (by decide))
    | with_reducible apply k_updAon (hm.of (by decide))
    | with_reducible apply k_setPort (hm.of (by decide))
    | with_reducible apply pair_foldl
    | (with_reducible apply pair_get; with_reducible assumption)
    | with_reducible apply k_foldl
    | intro _
    | dsimp only
    | split

theorem k_doStageData {m : List Part} (hm : Within [.aon, .host, .hearth, .faults] m) (a0 : Nat) (a1 : Req) (a2 : ReadReply) {s t : State} (h : Keeps m s t) : Keeps m s (doStageData a0 a1 a2 t).1 := by
  unfold doStageData
  try dsimp only
  repeat' first
    | with_reducible assumption
    | with_reducible apply k_updHearth (hm.of (by decide))
    | with_reducible apply k_readFailure (hm.of (by decide))
    | with_reducible apply pair_foldl
    | (with_reducible apply pair_get; with_reducible assumption)
    | with_reducible apply k_foldl
    | intro _
    | dsimp only
    | split

theorem k_dropMsg {m : List Part} (hm : Within [.icern] m) (a0 : Msg) {s t : State} (h : Keeps m s t) : Keeps m s (dropMsg a0 t) := by
  unfold dropMsg
  try dsimp only
  repeat' first
    | with_reducible assumption
    | with_reducible apply k_freeBufs (hm.of (by decide))
    | with_reducible apply k_takeMsg (hm.of (by decide))
    | with_reducible apply k_foldl
    | intro _
    | dsimp only
    | split

theorem k_ptnOut {m : List Part} (hm : Within [.aon, .host, .ptns, .hearth, .hbm, .poison] m) (a0 : Nat) {s t : State} (h : Keeps m s t) : Keeps m s (ptnOut a0 t) := by
  unfold ptnOut
  try dsimp only
  repeat' first
    | with_reducible assumption
    | with_reducible apply k_goCold (hm.of (by decide))
    | with_reducible apply k_updPtn (hm.of (by decide))
    | with_reducible apply k_updAon (hm.of (by decide))
    | with_reducible apply k_foldl
    | intro _
    | dsimp only
    | split

theorem k_withMsg {m : List Part} (hm : Within [.icern] m) (a0 : Msg → Bool) (a1 : Msg → State → State) {s t : State} (h : Keeps m s t) (g1 : ∀ x u, Keeps m s u → Keeps m s (a1 x u)) : Keeps m s (withMsg a0 a1 t) := by
  unfold withMsg
  try dsimp only
  repeat' first
    | with_reducible assumption
    | with_reducible apply k_dropMsg (hm.of (by decide))
    | with_reducible apply g1
    | with_reducible apply k_foldl
    | intro _
    | dsimp only
    | split

theorem k_lockLine {m : List Part} (hm : Within [.host, .ptns, .hearth] m) (a0 : Nat) (a1 : Nat) (a2 : Nat) {s t : State} (h : Keeps m s t) : Keeps m s (lockLine a0 a1 a2 t) := by
  unfold lockLine
  try dsimp only
  repeat' first
    | with_reducible assumption
    | with_reducible apply k_updPtn (hm.of (by decide))
    | with_reducible apply k_raise (hm.of (by decide))
    | with_reducible apply k_foldl
    | intro _
    | dsimp only
    | split

theorem k_settleReq {m : List Part} (hm : Within [.host, .hearth] m) (a0 : Nat) (a1 : Req) (a2 : Nat) (a4 : State × Res) {s t : State} (h : Keeps m s t) (g4 : Keeps m s a4.1) : Keeps m s (settleReq a0 a1 a2 t a4) := by
  unfold settleReq
  try dsimp only
  repeat' first
    | with_reducible assumption
    | with_reducible apply k_answerMbx (hm.of (by decide))
    | with_reducible apply k_updHearth (hm.of (by decide))
    | with_reducible apply g4
    | with_reducible apply pair_foldl
    | (with_reducible apply pair_get; with_reducible assumption)
    | with_reducible apply k_foldl
    | intro _
    | dsimp only
    | split

theorem k_mailboxWith {m : List Part} (hm : Within [.host, .hearth] m) (a0 : Req → Work) (a1 : Nat) (a2 : Nat) (a3 : Req → Bool) (a4 : Handler) (a5 : ReadReply) {s t : State} (h : Keeps m s t) (g4 : HandlerKeeps m s a4) : Keeps m s (mailboxWith a0 a1 a2 a3 a4 a5 t) := by
  unfold mailboxWith
  try dsimp only
  repeat' first
    | with_reducible assumption
    | with_reducible apply k_answerMbx (hm.of (by decide))
    | with_reducible apply k_settleReq (hm.of (by decide))
    | with_reducible apply k_runReq (Within.nil m)
    | with_reducible apply g4.keeps
    | with_reducible apply HandlerKeeps.mk
    | with_reducible apply pair_foldl
    | (with_reducible apply pair_get; with_reducible assumption)
    | with_reducible apply k_foldl
    | intro _
    | dsimp only
    | split

theorem k_mailbox {m : List Part} (hm : Within [.host, .hearth] m) (a0 : Nat) (a1 : Nat) (a2 : Req → Bool) (a3 : Handler) (a4 : ReadReply) {s t : State} (h : Keeps m s t) (g3 : HandlerKeeps m s a3) : Keeps m s (mailbox a0 a1 a2 a3 a4 t) := by
  unfold mailbox
  try dsimp only
  repeat' first
    | with_reducible assumption
    | with_reducible apply k_mailboxWith (hm.of (by decide))
    | with_reducible apply g3.keeps
    | with_reducible apply HandlerKeeps.mk
    | with_reducible apply pair_foldl
    | (with_reducible apply pair_get; with_reducible assumption)
    | with_reducible apply k_foldl
    | intro _
    | dsimp only
    | split

theorem k_execAssayLog {m : List Part} (hm : Within [.host, .hearth] m) (a0 : Fin 4) {s t : State} (h : Keeps m s t) : Goes m s (execAssayLog a0 t) := by
  unfold execAssayLog
  try dsimp only
  repeat' first
    | with_reducible assumption
    | with_reducible apply k_mailbox (hm.of (by decide))
    | with_reducible apply k_doAssayLog (Within.nil m)
    | with_reducible apply HandlerKeeps.mk
    | with_reducible apply pair_foldl
    | (with_reducible apply pair_get; with_reducible assumption)
    | with_reducible apply goes_onlyIf
    | with_reducible apply goes_next
    | with_reducible apply k_foldl
    | intro _
    | dsimp only
    | split

theorem k_execAssayRun {m : List Part} (hm : Within [.host, .ptns, .hearth, .hbm, .poison, .free] m) (a0 : Fin 4) (a1 : List BadWord) {s t : State} (h : Keeps m s t) : Goes m s (execAssayRun a0 a1 t) := by
  unfold execAssayRun
  try dsimp only
  repeat' first
    | with_reducible assumption
    | with_reducible apply k_mailboxWith (hm.of (by decide))
    | with_reducible apply k_doAssayRun (hm.of (by decide))
    | with_reducible apply HandlerKeeps.mk
    | with_reducible apply pair_foldl
    | (with_reducible apply pair_get; with_reducible assumption)
    | with_reducible apply goes_onlyIf
    | with_reducible apply goes_next
    | with_reducible apply k_foldl
    | intro _
    | dsimp only
    | split

theorem k_execBankedEntryDone {m : List Part} (hm : Within [.aon, .host, .ptns, .hearth, .faults, .hbm, .poison, .free] m) (a0 : Fin 12) {s t : State} (h : Keeps m s t) : Goes m s (execBankedEntryDone a0 t) := by
  unfold execBankedEntryDone
  try dsimp only
  repeat' first
    | with_reducible assumption
    | with_reducible apply k_bank (hm.of (by decide))
    | with_reducible apply goes_onlyIf
    | with_reducible apply goes_next
    | with_reducible apply k_foldl
    | intro _
    | dsimp only
    | split

theorem k_execBootComplete {m : List Part} (hm : Within [.aon, .host, .hearth, .hearthUp, .faults, .levels, .icern] m) {s t : State} (h : Keeps m s t) : Goes m s (execBootComplete t) := by
  unfold execBootComplete
  try dsimp only
  repeat' first
    | with_reducible assumption
    | with_reducible apply k_boot (hm.of (by decide))
    | with_reducible apply goes_onlyIf
    | with_reducible apply goes_next
    | with_reducible apply k_foldl
    | intro _
    | dsimp only
    | split

theorem k_firewall {m : List Part} (hm : Within [.aon, .host, .hearth, .faults] m) {s t : State} (h : Keeps m s t) : Keeps m s (firewall t) := by
  unfold firewall
  try dsimp only
  repeat' first
    | with_reducible assumption
    | with_reducible apply k_postFault (hm.of (by decide))
    | with_reducible apply k_foldl
    | intro _
    | dsimp only
    | split

theorem k_execBulkLoad {m : List Part} (hm : Within [.aon, .host, .ptns, .colls, .cmds, .nextCmd, .hearth, .faults] m) (a0 : Fin 1024) {s t : State} (h : Keeps m s t) : Goes m s (execBulkLoad a0 t) := by
  unfold execBulkLoad
  try dsimp only
  repeat' first
    | with_reducible assumption
    | with_reducible apply k_admitNext (hm.of (by decide))
    | with_reducible apply k_startBulk (hm.of (by decide))
    | with_reducible apply goes_onlyIf
    | with_reducible apply goes_next
    | with_reducible apply k_foldl
    | intro _
    | dsimp only
    | split

theorem k_ticketDone {m : List Part} (hm : Within [.host, .hearth, .icern] m) (a0 : Nat) (a1 : Ticket) (a2 : MStatus) (a3 : List Byte) (a4 : Nat) {s t : State} (h : Keeps m s t) : Keeps m s (ticketDone a0 a1 a2 a3 a4 t) := by
  unfold ticketDone
  try dsimp only
  repeat' first
    | with_reducible assumption
    | with_reducible apply k_completeTicket (hm.of (by decide))
    | with_reducible apply k_updHearth (hm.of (by decide))
    | with_reducible apply k_foldl
    | intro _
    | dsimp only
    | split

theorem k_judgeWindow {m : List Part} (hm : Within [.host, .colls, .cmds, .hearth] m) (a0 : Nat) (a1 : Nat) {s t : State} (h : Keeps m s t) : Keeps m s (judgeWindow a0 a1 t) := by
  unfold judgeWindow
  try dsimp only
  repeat' first
    | with_reducible assumption
    | with_reducible apply k_updCollPtn (hm.of (by decide))
    | with_reducible apply k_updCmd (hm.of (by decide))
    | with_reducible apply k_raise (hm.of (by decide))
    | with_reducible apply k_foldl
    | intro _
    | dsimp only
    | split

theorem k_execClipWindowClose {m : List Part} (hm : Within [.host, .colls, .cmds, .hearth] m) (a0 : Fin 12) (a1 : Nat) {s t : State} (h : Keeps m s t) : Goes m s (execClipWindowClose a0 a1 t) := by
  unfold execClipWindowClose
  try dsimp only
  repeat' first
    | with_reducible assumption
    | with_reducible apply k_judgeWindow (hm.of (by decide))
    | with_reducible apply goes_onlyIf
    | with_reducible apply goes_next
    | with_reducible apply k_foldl
    | intro _
    | dsimp only
    | split

theorem k_execClockCorr {m : List Part} (hm : Within [.host, .hearth] m) (a0 : Fin 4) {s t : State} (h : Keeps m s t) : Goes m s (execClockCorr a0 t) := by
  unfold execClockCorr
  try dsimp only
  repeat' first
    | with_reducible assumption
    | with_reducible apply k_mailbox (hm.of (by decide))
    | with_reducible apply k_doClockCorr (Within.nil m)
    | with_reducible apply HandlerKeeps.mk
    | with_reducible apply pair_foldl
    | (with_reducible apply pair_get; with_reducible assumption)
    | with_reducible apply goes_onlyIf
    | with_reducible apply goes_next
    | with_reducible apply k_foldl
    | intro _
    | dsimp only
    | split

theorem k_execCollDelete {m : List Part} (hm : Within [.host, .ptns, .colls, .hearth] m) (a0 : Fin 4) {s t : State} (h : Keeps m s t) : Goes m s (execCollDelete a0 t) := by
  unfold execCollDelete
  try dsimp only
  repeat' first
    | with_reducible assumption
    | with_reducible apply k_mailbox (hm.of (by decide))
    | with_reducible apply k_doCollDelete (hm.of (by decide))
    | with_reducible apply HandlerKeeps.mk
    | with_reducible apply pair_foldl
    | (with_reducible apply pair_get; with_reducible assumption)
    | with_reducible apply goes_onlyIf
    | with_reducible apply goes_next
    | with_reducible apply k_foldl
    | intro _
    | dsimp only
    | split

theorem k_execCollSet {m : List Part} (hm : Within [.host, .ptns, .colls, .hearth] m) (a0 : Fin 4) {s t : State} (h : Keeps m s t) : Goes m s (execCollSet a0 t) := by
  unfold execCollSet
  try dsimp only
  repeat' first
    | with_reducible assumption
    | with_reducible apply k_mailbox (hm.of (by decide))
    | with_reducible apply k_doCollSet (hm.of (by decide))
    | with_reducible apply HandlerKeeps.mk
    | with_reducible apply pair_foldl
    | (with_reducible apply pair_get; with_reducible assumption)
    | with_reducible apply goes_onlyIf
    | with_reducible apply goes_next
    | with_reducible apply k_foldl
    | intro _
    | dsimp only
    | split

theorem k_execCollStats {m : List Part} (hm : Within [.host, .hearth] m) (a0 : Fin 4) {s t : State} (h : Keeps m s t) : Goes m s (execCollStats a0 t) := by
  unfold execCollStats
  try dsimp only
  repeat' first
    | with_reducible assumption
    | with_reducible apply k_mailbox (hm.of (by decide))
    | with_reducible apply k_doCollStats (Within.nil m)
    | with_reducible apply HandlerKeeps.mk
    | with_reducible apply pair_foldl
    | (with_reducible apply pair_get; with_reducible assumption)
    | with_reducible apply goes_onlyIf
    | with_reducible apply goes_next
    | with_reducible apply k_foldl
    | intro _
    | dsimp only
    | split

theorem k_execCollTrain {m : List Part} (hm : Within [.aon, .host, .ptns, .colls, .hearth, .faults, .free] m) (a0 : Fin 4) (a1 : ReadReply) {s t : State} (h : Keeps m s t) : Goes m s (execCollTrain a0 a1 t) := by
  unfold execCollTrain
  try dsimp only
  repeat' first
    | with_reducible assumption
    | with_reducible apply k_mailbox (hm.of (by decide))
    | with_reducible apply k_doCollTrain (hm.of (by decide))
    | with_reducible apply HandlerKeeps.mk
    | with_reducible apply pair_foldl
    | (with_reducible apply pair_get; with_reducible assumption)
    | with_reducible apply goes_onlyIf
    | with_reducible apply goes_next
    | with_reducible apply k_foldl
    | intro _
    | dsimp only
    | split

theorem k_writeOut {m : List Part} (hm : Within [.aon, .host, .ctxs, .cmds, .hearth, .faults, .levels, .icern, .free] m) (a0 : Nat) (a1 : Nat) {s t : State} (h : Keeps m s t) : Keeps m s (writeOut a0 a1 t) := by
  unfold writeOut
  try dsimp only
  repeat' first
    | with_reducible assumption
    | with_reducible apply k_completeToRoot (hm.of (by decide))
    | with_reducible apply k_settleWaiters (hm.of (by decide))
    | with_reducible apply k_release (hm.of (by decide))
    | with_reducible apply k_completeOnRing (hm.of (by decide))
    | with_reducible apply k_foldl
    | intro _
    | dsimp only
    | split

theorem k_execCqDoorbell {m : List Part} (hm : Within [.host, .hearth] m) (a0 : Fin 1024) (a1 : W64) {s t : State} (h : Keeps m s t) : Goes m s (execCqDoorbell a0 a1 t) := by
  unfold execCqDoorbell
  try dsimp only
  repeat' first
    | with_reducible assumption
    | with_reducible apply k_completionHead (hm.of (by decide))
    | with_reducible apply goes_onlyIf
    | with_reducible apply goes_next
    | with_reducible apply k_foldl
    | intro _
    | dsimp only
    | split

theorem k_execCrucPin {m : List Part} (hm : Within [.host, .ptns, .colls, .hearth] m) (a0 : Fin 4) {s t : State} (h : Keeps m s t) : Goes m s (execCrucPin a0 t) := by
  unfold execCrucPin
  try dsimp only
  repeat' first
    | with_reducible assumption
    | with_reducible apply k_mailbox (hm.of (by decide))
    | with_reducible apply k_doCrucPin (hm.of (by decide))
    | with_reducible apply HandlerKeeps.mk
    | with_reducible apply pair_foldl
    | (with_reducible apply pair_get; with_reducible assumption)
    | with_reducible apply goes_onlyIf
    | with_reducible apply goes_next
    | with_reducible apply k_foldl
    | intro _
    | dsimp only
    | split

theorem k_execCtimeExpiry {m : List Part} (hm : Within [.host] m) (a0 : Fin 1024) {s t : State} (h : Keeps m s t) : Goes m s (execCtimeExpiry a0 t) := by
  unfold execCtimeExpiry
  try dsimp only
  repeat' first
    | with_reducible assumption
    | with_reducible apply k_sendRingVec (hm.of (by decide))
    | with_reducible apply goes_onlyIf
    | with_reducible apply goes_next
    | with_reducible apply k_foldl
    | intro _
    | dsimp only
    | split

theorem k_execCtrl {m : List Part} (hm : Within [.aon, .host, .ptns, .hearth, .faults, .levels] m) (a0 : Fin 12) (a1 : Fin 32) {s t : State} (h : Keeps m s t) : Goes m s (execCtrl a0 a1 t) := by
  unfold execCtrl
  try dsimp only
  repeat' first
    | with_reducible assumption
    | with_reducible apply k_startL2 (hm.of (by decide))
    | with_reducible apply k_postFault (hm.of (by decide))
    | with_reducible apply goes_onlyIf
    | with_reducible apply goes_next
    | with_reducible apply k_foldl
    | intro _
    | dsimp only
    | split

theorem k_execCtxCreate {m : List Part} (hm : Within [.host, .ctxs, .hearth] m) (a0 : Fin 4) {s t : State} (h : Keeps m s t) : Goes m s (execCtxCreate a0 t) := by
  unfold execCtxCreate
  try dsimp only
  repeat' first
    | with_reducible assumption
    | with_reducible apply k_mailbox (hm.of (by decide))
    | with_reducible apply k_doCtxCreate (hm.of (by decide))
    | with_reducible apply HandlerKeeps.mk
    | with_reducible apply pair_foldl
    | (with_reducible apply pair_get; with_reducible assumption)
    | with_reducible apply goes_onlyIf
    | with_reducible apply goes_next
    | with_reducible apply k_foldl
    | intro _
    | dsimp only
    | split

theorem k_execCtxStats {m : List Part} (hm : Within [.host, .hearth] m) (a0 : Fin 4) {s t : State} (h : Keeps m s t) : Goes m s (execCtxStats a0 t) := by
  unfold execCtxStats
  try dsimp only
  repeat' first
    | with_reducible assumption
    | with_reducible apply k_mailbox (hm.of (by decide))
    | with_reducible apply k_doCtxStats (Within.nil m)
    | with_reducible apply HandlerKeeps.mk
    | with_reducible apply pair_foldl
    | (with_reducible apply pair_get; with_reducible assumption)
    | with_reducible apply goes_onlyIf
    | with_reducible apply goes_next
    | with_reducible apply k_foldl
    | intro _
    | dsimp only
    | split

theorem k_execDeadlineEnd {m : List Part} (hm : Within [.ptns, .cmds] m) (a0 : Nat) {s t : State} (h : Keeps m s t) : Goes m s (execDeadlineEnd a0 t) := by
  unfold execDeadlineEnd
  try dsimp only
  repeat' first
    | with_reducible assumption
    | with_reducible apply k_updCmd (hm.of (by decide))
    | with_reducible apply k_dropFar (hm.of (by decide))
    | with_reducible apply goes_onlyIf
    | with_reducible apply goes_next
    | with_reducible apply k_foldl
    | intro _
    | dsimp only
    | split

theorem k_execDelete {m : List Part} (hm : Within [.aon, .host, .ptns, .colls, .cmds, .nextCmd, .hearth, .faults] m) (a0 : Fin 1024) {s t : State} (h : Keeps m s t) : Goes m s (execDelete a0 t) := by
  unfold execDelete
  try dsimp only
  repeat' first
    | with_reducible assumption
    | with_reducible apply k_admitIngest (hm.of (by decide))
    | with_reducible apply goes_onlyIf
    | with_reducible apply goes_next
    | with_reducible apply k_foldl
    | intro _
    | dsimp only
    | split

theorem k_execDieTempSample {m : List Part} (hm : Within [.aon, .host, .hearth, .faults, .power] m) (a0 : Die) (a1 : Option Int) {s t : State} (h : Keeps m s t) : Goes m s (execDieTempSample a0 a1 t) := by
  unfold execDieTempSample
  try dsimp only
  repeat' first
    | with_reducible assumption
    | with_reducible apply k_dieSample (hm.of (by decide))
    | with_reducible apply goes_onlyIf
    | with_reducible apply goes_next
    | with_reducible apply k_foldl
    | intro _
    | dsimp only
    | split

theorem k_execEpochQuery {m : List Part} (hm : Within [.aon, .host, .ptns, .cmds, .nextCmd, .hearth, .faults] m) (a0 : Fin 1024) {s t : State} (h : Keeps m s t) : Goes m s (execEpochQuery a0 t) := by
  unfold execEpochQuery
  try dsimp only
  repeat' first
    | with_reducible assumption
    | with_reducible apply k_admitNext (hm.of (by decide))
    | with_reducible apply k_keep (Within.nil m)
    | with_reducible apply goes_onlyIf
    | with_reducible apply goes_next
    | with_reducible apply k_foldl
    | intro _
    | dsimp only
    | split

theorem k_execEventLog {m : List Part} (hm : Within [.host, .hearth] m) (a0 : Fin 4) {s t : State} (h : Keeps m s t) : Goes m s (execEventLog a0 t) := by
  unfold execEventLog
  try dsimp only
  repeat' first
    | with_reducible assumption
    | with_reducible apply k_mailbox (hm.of (by decide))
    | with_reducible apply k_doEventLog (Within.nil m)
    | with_reducible apply HandlerKeeps.mk
    | with_reducible apply pair_foldl
    | (with_reducible apply pair_get; with_reducible assumption)
    | with_reducible apply goes_onlyIf
    | with_reducible apply goes_next
    | with_reducible apply k_foldl
    | intro _
    | dsimp only
    | split

theorem k_execEvtMaskWrite {m : List Part} (hm : Within [.host] m) (a0 : W64) {s t : State} (h : Keeps m s t) : Goes m s (execEvtMaskWrite a0 t) := by
  unfold execEvtMaskWrite
  try dsimp only
  repeat' first
    | with_reducible assumption
    | with_reducible apply k_writeMask (hm.of (by decide))
    | with_reducible apply goes_onlyIf
    | with_reducible apply goes_next
    | with_reducible apply k_foldl
    | intro _
    | dsimp only
    | split

theorem k_execEvtPendClear {m : List Part} (hm : Within [.host, .hearth] m) (a0 : W64) (a1 : W16) {s t : State} (h : Keeps m s t) : Goes m s (execEvtPendClear a0 a1 t) := by
  unfold execEvtPendClear
  try dsimp only
  repeat' first
    | with_reducible assumption
    | with_reducible apply k_clearEvents (hm.of (by decide))
    | with_reducible apply goes_onlyIf
    | with_reducible apply goes_next
    | with_reducible apply k_foldl
    | intro _
    | dsimp only
    | split

theorem k_execFence {m : List Part} (hm : Within [.aon, .host, .ptns, .cmds, .nextCmd, .hearth, .faults] m) (a0 : Fin 1024) {s t : State} (h : Keeps m s t) : Goes m s (execFence a0 t) := by
  unfold execFence
  try dsimp only
  repeat' first
    | with_reducible assumption
    | with_reducible apply k_admitNext (hm.of (by decide))
    | with_reducible apply k_keep (Within.nil m)
    | with_reducible apply goes_onlyIf
    | with_reducible apply goes_next
    | with_reducible apply k_foldl
    | intro _
    | dsimp only
    | split

theorem k_fenceNotices {m : List Part} (hm : Within [.aon, .host, .hearth, .faults, .icern] m) (a0 : Nat) (a1 : Nat) (a2 : W32) {s t : State} (h : Keeps m s t) : Keeps m s (fenceNotices a0 a1 a2 t) := by
  unfold fenceNotices
  try dsimp only
  repeat' first
    | with_reducible assumption
    | with_reducible apply k_sendAll (hm.of (by decide))
    | with_reducible apply k_foldl
    | intro _
    | dsimp only
    | split

theorem k_fenceTickets {m : List Part} (hm : Within [.host, .hearth, .icern] m) (a0 : Ticket → Bool) {s t : State} (h : Keeps m s t) : Keeps m s (fenceTickets a0 t) := by
  unfold fenceTickets
  try dsimp only
  repeat' first
    | with_reducible assumption
    | with_reducible apply k_completeTicket (hm.of (by decide))
    | with_reducible apply k_foldl
    | intro _
    | dsimp only
    | split

theorem k_fenceTicketsOf {m : List Part} (hm : Within [.host, .ptns, .hearth, .icern, .hbm, .poison] m) (a0 : Nat) {s t : State} (h : Keeps m s t) : Keeps m s (fenceTicketsOf a0 t) := by
  unfold fenceTicketsOf
  try dsimp only
  repeat' first
    | with_reducible assumption
    | with_reducible apply k_fenceTickets (hm.of (by decide))
    | with_reducible apply k_endTestsOn (hm.of (by decide))
    | with_reducible apply k_foldl
    | intro _
    | dsimp only
    | split

theorem k_startFence {m : List Part} (hm : Within [.aon, .host, .ptns, .hearth, .faults, .icern, .hbm, .poison] m) (a0 : Nat) {s t : State} (h : Keeps m s t) : Keeps m s (startFence a0 t) := by
  unfold startFence
  try dsimp only
  repeat' first
    | with_reducible assumption
    | with_reducible apply k_fenceTicketsOf (hm.of (by decide))
    | with_reducible apply k_fenceNotices (hm.of (by decide))
    | with_reducible apply k_ptnChange (hm.of (by decide))
    | with_reducible apply k_updPtn (hm.of (by decide))
    | with_reducible apply k_foldl
    | intro _
    | dsimp only
    | split

theorem k_execFenceStart {m : List Part} (hm : Within [.aon, .host, .ptns, .hearth, .faults, .icern, .hbm, .poison] m) (a0 : Fin 12) {s t : State} (h : Keeps m s t) : Goes m s (execFenceStart a0 t) := by
  unfold execFenceStart
  try dsimp only
  repeat' first
    | with_reducible assumption
    | with_reducible apply k_startFence (hm.of (by decide))
    | with_reducible apply goes_onlyIf
    | with_reducible apply goes_next
    | with_reducible apply k_foldl
    | intro _
    | dsimp only
    | split

theorem k_execFilterLoad {m : List Part} (hm : Within [.host, .ctxs, .hearth] m) (a0 : Fin 4) {s t : State} (h : Keeps m s t) : Goes m s (execFilterLoad a0 t) := by
  unfold execFilterLoad
  try dsimp only
  repeat' first
    | with_reducible assumption
    | with_reducible apply k_mailbox (hm.of (by decide))
    | with_reducible apply k_doFilterLoad (hm.of (by decide))
    | with_reducible apply HandlerKeeps.mk
    | with_reducible apply pair_foldl
    | (with_reducible apply pair_get; with_reducible assumption)
    | with_reducible apply goes_onlyIf
    | with_reducible apply goes_next
    | with_reducible apply k_foldl
    | intro _
    | dsimp only
    | split

theorem k_execFlitCrcError {m : List Part} (hm : Within [.icern] m) (a0 : Fin 4) (a1 : Bool) {s t : State} (h : Keeps m s t) : Goes m s (execFlitCrcError a0 a1 t) := by
  unfold execFlitCrcError
  try dsimp only
  repeat' first
    | with_reducible assumption
    | with_reducible apply k_sendReplay (hm.of (by decide))
    | with_reducible apply k_updPort (hm.of (by decide))
    | with_reducible apply goes_onlyIf
    | with_reducible apply goes_next
    | with_reducible apply k_foldl
    | intro _
    | dsimp only
    | split

theorem k_startRx {m : List Part} (hm : Within [.aon, .host, .hearth, .faults, .icern] m) (a0 : Nat) (a1 : Flit) {s t : State} (h : Keeps m s t) : Keeps m s (startRx a0 a1 t).1 := by
  unfold startRx
  try dsimp only
  repeat' first
    | with_reducible assumption
    | with_reducible apply k_discard (hm.of (by decide))
    | with_reducible apply pair_foldl
    | (with_reducible apply pair_get; with_reducible assumption)
    | with_reducible apply k_foldl
    | intro _
    | dsimp only
    | split

theorem k_execFlush {m : List Part} (hm : Within [.aon, .host, .ptns, .ctxs, .colls, .cmds, .nextCmd, .hearth, .faults, .levels] m) (a0 : Fin 1024) {s t : State} (h : Keeps m s t) : Goes m s (execFlush a0 t) := by
  unfold execFlush
  try dsimp only
  repeat' first
    | with_reducible assumption
    | with_reducible apply k_admitNext (hm.of (by decide))
    | with_reducible apply k_afterFlush (hm.of (by decide))
    | with_reducible apply goes_onlyIf
    | with_reducible apply goes_next
    | with_reducible apply k_foldl
    | intro _
    | dsimp only
    | split

theorem k_execFwActivateCommit {m : List Part} (hm : Within [.aon, .host, .hearth] m) (a0 : Fin 4) {s t : State} (h : Keeps m s t) : Goes m s (execFwActivateCommit a0 t) := by
  unfold execFwActivateCommit
  try dsimp only
  repeat' first
    | with_reducible assumption
    | with_reducible apply k_mailbox (hm.of (by decide))
    | with_reducible apply k_doCommit (hm.of (by decide))
    | with_reducible apply HandlerKeeps.mk
    | with_reducible apply pair_foldl
    | (with_reducible apply pair_get; with_reducible assumption)
    | with_reducible apply goes_onlyIf
    | with_reducible apply goes_next
    | with_reducible apply k_foldl
    | intro _
    | dsimp only
    | split

theorem k_execFwActivateNextReset {m : List Part} (hm : Within [.aon, .host, .hearth] m) (a0 : Fin 4) {s t : State} (h : Keeps m s t) : Goes m s (execFwActivateNextReset a0 t) := by
  unfold execFwActivateNextReset
  try dsimp only
  repeat' first
    | with_reducible assumption
    | with_reducible apply k_mailbox (hm.of (by decide))
    | with_reducible apply k_doNextReset (hm.of (by decide))
    | with_reducible apply HandlerKeeps.mk
    | with_reducible apply pair_foldl
    | (with_reducible apply pair_get; with_reducible assumption)
    | with_reducible apply goes_onlyIf
    | with_reducible apply goes_next
    | with_reducible apply k_foldl
    | intro _
    | dsimp only
    | split

theorem k_execFwActivateRevert {m : List Part} (hm : Within [.aon, .host, .hearth, .hearthUp] m) (a0 : Fin 4) {s t : State} (h : Keeps m s t) : Goes m s (execFwActivateRevert a0 t) := by
  unfold execFwActivateRevert
  try dsimp only
  repeat' first
    | with_reducible assumption
    | with_reducible apply k_mailbox (hm.of (by decide))
    | with_reducible apply k_doRevert (hm.of (by decide))
    | with_reducible apply HandlerKeeps.mk
    | with_reducible apply pair_foldl
    | (with_reducible apply pair_get; with_reducible assumption)
    | with_reducible apply goes_onlyIf
    | with_reducible apply goes_next
    | with_reducible apply k_foldl
    | intro _
    | dsimp only
    | split

theorem k_execFwActivateTrial {m : List Part} (hm : Within [.aon, .host, .hearth, .hearthUp] m) (a0 : Fin 4) {s t : State} (h : Keeps m s t) : Goes m s (execFwActivateTrial a0 t) := by
  unfold execFwActivateTrial
  try dsimp only
  repeat' first
    | with_reducible assumption
    | with_reducible apply k_mailbox (hm.of (by decide))
    | with_reducible apply k_doTrial (hm.of (by decide))
    | with_reducible apply HandlerKeeps.mk
    | with_reducible apply pair_foldl
    | (with_reducible apply pair_get; with_reducible assumption)
    | with_reducible apply goes_onlyIf
    | with_reducible apply goes_next
    | with_reducible apply k_foldl
    | intro _
    | dsimp only
    | split

theorem k_execFwStageAbort {m : List Part} (hm : Within [.aon, .host, .hearth] m) (a0 : Fin 4) {s t : State} (h : Keeps m s t) : Goes m s (execFwStageAbort a0 t) := by
  unfold execFwStageAbort
  try dsimp only
  repeat' first
    | with_reducible assumption
    | with_reducible apply k_mailbox (hm.of (by decide))
    | with_reducible apply k_doStageAbort (hm.of (by decide))
    | with_reducible apply HandlerKeeps.mk
    | with_reducible apply pair_foldl
    | (with_reducible apply pair_get; with_reducible assumption)
    | with_reducible apply goes_onlyIf
    | with_reducible apply goes_next
    | with_reducible apply k_foldl
    | intro _
    | dsimp only
    | split

theorem k_execFwStageBegin {m : List Part} (hm : Within [.aon, .host, .hearth] m) (a0 : Fin 4) {s t : State} (h : Keeps m s t) : Goes m s (execFwStageBegin a0 t) := by
  unfold execFwStageBegin
  try dsimp only
  repeat' first
    | with_reducible assumption
    | with_reducible apply k_mailbox (hm.of (by decide))
    | with_reducible apply k_doStageBegin (hm.of (by decide))
    | with_reducible apply HandlerKeeps.mk
    | with_reducible apply pair_foldl
    | (with_reducible apply pair_get; with_reducible assumption)
    | with_reducible apply goes_onlyIf
    | with_reducible apply goes_next
    | with_reducible apply k_foldl
    | intro _
    | dsimp only
    | split

theorem k_execFwStageData {m : List Part} (hm : Within [.aon, .host, .hearth, .faults] m) (a0 : Fin 4) (a1 : ReadReply) {s t : State} (h : Keeps m s t) : Goes m s (execFwStageData a0 a1 t) := by
  unfold execFwStageData
  try dsimp only
  repeat' first
    | with_reducible assumption
    | with_reducible apply k_mailbox (hm.of (by decide))
    | with_reducible apply k_doStageData (hm.of (by decide))
    | with_reducible apply HandlerKeeps.mk
    | with_reducible apply pair_foldl
    | (with_reducible apply pair_get; with_reducible assumption)
    | with_reducible apply goes_onlyIf
    | with_reducible apply goes_next
    | with_reducible apply k_foldl
    | intro _
    | dsimp only
    | split

theorem k_execFwStageFinish {m : List Part} (hm : Within [.aon, .host, .hearth] m) (a0 : Fin 4) {s t : State} (h : Keeps m s t) : Goes m s (execFwStageFinish a0 t) := by
  unfold execFwStageFinish
  try dsimp only
  repeat' first
    | with_reducible assumption
    | with_reducible apply k_mailbox (hm.of (by decide))
    | with_reducible apply k_doStageFinish (hm.of (by decide))
    | with_reducible apply HandlerKeeps.mk
    | with_reducible apply pair_foldl
    | (with_reducible apply pair_get; with_reducible assumption)
    | with_reducible apply goes_onlyIf
    | with_reducible apply goes_next
    | with_reducible apply k_foldl
    | intro _
    | dsimp only
    | split

theorem k_lineFound {m : List Part} (hm : Within [.aon, .host, .ptns, .hearth, .faults, .hbm, .poison, .free] m) (a0 : Nat) (a1 : Nat) (a2 : Nat) (a3 : Nat) (a4 : List Nat) {s t : State} (h : Keeps m s t) : Keeps m s (lineFound a0 a1 a2 a3 a4 t) := by
  unfold lineFound
  try dsimp only
  repeat' first
    | with_reducible assumption
    | with_reducible apply k_updPtn (hm.of (by decide))
    | with_reducible apply k_foundBad (hm.of (by decide))
    | with_reducible apply k_foldl
    | intro _
    | dsimp only
    | split

theorem k_execHbmReadComplete {m : List Part} (hm : Within [.aon, .host, .ptns, .hearth, .faults, .hbm, .poison, .free] m) (a0 : Fin 12) (a1 : Nat) (a2 : Nat) (a3 : List Nat) {s t : State} (h : Keeps m s t) : Goes m s (execHbmReadComplete a0 a1 a2 a3 t) := by
  unfold execHbmReadComplete
  try dsimp only
  repeat' first
    | with_reducible assumption
    | with_reducible apply k_updPtn (hm.of (by decide))
    | with_reducible apply k_lineFound (hm.of (by decide))
    | with_reducible apply goes_onlyIf
    | with_reducible apply goes_next
    | with_reducible apply k_foldl
    | intro _
    | dsimp only
    | split

theorem k_execHeartbeat {m : List Part} (hm : Within [.icern] m) (a0 : Nat) {s t : State} (h : Keeps m s t) : Goes m s (execHeartbeat a0 t) := by
  unfold execHeartbeat
  try dsimp only
  repeat' first
    | with_reducible assumption
    | with_reducible apply k_withMsg (hm.of (by decide))
    | with_reducible apply k_heartbeat (hm.of (by decide))
    | with_reducible apply goes_onlyIf
    | with_reducible apply goes_next
    | with_reducible apply k_foldl
    | intro _
    | dsimp only
    | split

theorem k_failTrial {m : List Part} (hm : Within [.aon, .host, .hearth, .faults] m) {s t : State} (h : Keeps m s t) : Keeps m s (failTrial t) := by
  unfold failTrial
  try dsimp only
  repeat' first
    | with_reducible assumption
    | with_reducible apply k_postFault (hm.of (by decide))
    | with_reducible apply k_updAon (hm.of (by decide))
    | with_reducible apply k_foldl
    | intro _
    | dsimp only
    | split

theorem k_startL3 {m : List Part} (hm : Within [.aon, .pins, .host, .ptns, .jobs, .ctxs, .colls, .cmds, .nextCmd, .hearth, .hearthUp, .faults, .levels, .seamTok, .icern, .power, .hbm, .poison, .free] m) (a0 : W32) {s t : State} (h : Keeps m s t) : Keeps m s (startL3 a0 t) := by
  unfold startL3
  try dsimp only
  repeat' first
    | with_reducible assumption
    | with_reducible apply k_countL3 (hm.of (by decide))
    | with_reducible apply k_failTrial (hm.of (by decide))
    | with_reducible apply k_noticeUp (hm.of (by decide))
    | with_reducible apply k_uncountL2 (hm.of (by decide))
    | with_reducible apply k_startWith (hm.of (by decide))
    | with_reducible apply k_updLink (hm.of (by decide))
    | with_reducible apply k_chipReset (hm.of (by decide))
    | with_reducible apply k_cutRaise (hm.of (by decide))
    | with_reducible apply k_foldl
    | intro _
    | dsimp only
    | split

theorem k_hearthFailed {m : List Part} (hm : Within [.aon, .pins, .host, .ptns, .jobs, .ctxs, .colls, .cmds, .nextCmd, .hearth, .hearthUp, .faults, .levels, .seamTok, .icern, .power, .hbm, .poison, .free] m) (a0 : W32) {s t : State} (h : Keeps m s t) : Keeps m s (hearthFailed a0 t) := by
  unfold hearthFailed
  try dsimp only
  repeat' first
    | with_reducible assumption
    | with_reducible apply k_failTrial (hm.of (by decide))
    | with_reducible apply k_postFault (hm.of (by decide))
    | with_reducible apply k_startL3 (hm.of (by decide))
    | with_reducible apply k_fenceTickets (hm.of (by decide))
    | with_reducible apply k_restartHearth (hm.of (by decide))
    | with_reducible apply k_updHearth (hm.of (by decide))
    | with_reducible apply k_foldl
    | intro _
    | dsimp only
    | split

theorem k_execHearthFault {m : List Part} (hm : Within [.aon, .pins, .host, .ptns, .jobs, .ctxs, .colls, .cmds, .nextCmd, .hearth, .hearthUp, .faults, .levels, .seamTok, .icern, .power, .hbm, .poison, .free] m) (a0 : HearthCause) (a1 : Fin 4) {s t : State} (h : Keeps m s t) : Goes m s (execHearthFault a0 a1 t) := by
  unfold execHearthFault
  try dsimp only
  repeat' first
    | with_reducible assumption
    | with_reducible apply k_hearthFailed (hm.of (by decide))
    | with_reducible apply goes_onlyIf
    | with_reducible apply goes_next
    | with_reducible apply k_foldl
    | intro _
    | dsimp only
    | split

theorem k_execHearthRestartTimeout {m : List Part} (hm : Within [.aon, .pins, .host, .ptns, .jobs, .ctxs, .colls, .cmds, .nextCmd, .hearth, .hearthUp, .faults, .levels, .seamTok, .icern, .power, .hbm, .poison, .free] m) {s t : State} (h : Keeps m s t) : Goes m s (execHearthRestartTimeout t) := by
  unfold execHearthRestartTimeout
  try dsimp only
  repeat' first
    | with_reducible assumption
    | with_reducible apply k_startL3 (hm.of (by decide))
    | with_reducible apply k_postFault (hm.of (by decide))
    | with_reducible apply k_failTrial (hm.of (by decide))
    | with_reducible apply goes_onlyIf
    | with_reducible apply goes_next
    | with_reducible apply k_foldl
    | intro _
    | dsimp only
    | split

theorem k_stopClocks {m : List Part} (hm : Within [.aon, .pins, .host, .ptns, .jobs, .ctxs, .colls, .cmds, .nextCmd, .hearth, .hearthUp, .faults, .levels, .seamTok, .icern, .power, .hbm, .poison, .free] m) {s t : State} (h : Keeps m s t) : Keeps m s (stopClocks t) := by
  unfold stopClocks
  try dsimp only
  repeat' first
    | with_reducible assumption
    | with_reducible apply k_cutRaise (hm.of (by decide))
    | with_reducible apply k_chipReset (hm.of (by decide))
    | with_reducible apply k_foldl
    | simp only [k_set_aon_pins (hm.of (by decide))]
    | intro _
    | dsimp only
    | split

theorem k_execHotSwapOvercurrent {m : List Part} (hm : Within [.aon, .pins, .host, .ptns, .jobs, .ctxs, .colls, .cmds, .nextCmd, .hearth, .hearthUp, .faults, .levels, .seamTok, .icern, .power, .hbm, .poison, .free] m) {s t : State} (h : Keeps m s t) : Goes m s (execHotSwapOvercurrent t) := by
  unfold execHotSwapOvercurrent
  try dsimp only
  repeat' first
    | with_reducible assumption
    | with_reducible apply k_offLoad (hm.of (by decide))
    | with_reducible apply k_keepL4 (hm.of (by decide))
    | with_reducible apply k_stopClocks (hm.of (by decide))
    | with_reducible apply goes_onlyIf
    | with_reducible apply goes_next
    | with_reducible apply k_foldl
    | intro _
    | dsimp only
    | split

theorem k_execHwinSet {m : List Part} (hm : Within [.host, .ctxs, .hearth] m) (a0 : Fin 4) {s t : State} (h : Keeps m s t) : Goes m s (execHwinSet a0 t) := by
  unfold execHwinSet
  try dsimp only
  repeat' first
    | with_reducible assumption
    | with_reducible apply k_mailbox (hm.of (by decide))
    | with_reducible apply k_doHwinSet (hm.of (by decide))
    | with_reducible apply HandlerKeeps.mk
    | with_reducible apply pair_foldl
    | (with_reducible apply pair_get; with_reducible assumption)
    | with_reducible apply goes_onlyIf
    | with_reducible apply goes_next
    | with_reducible apply k_foldl
    | intro _
    | dsimp only
    | split

theorem k_execIcernRouteSet {m : List Part} (hm : Within [.aon, .host, .cmds, .hearth, .faults, .icern] m) (a0 : Fin 4) {s t : State} (h : Keeps m s t) : Goes m s (execIcernRouteSet a0 t) := by
  unfold execIcernRouteSet
  try dsimp only
  repeat' first
    | with_reducible assumption
    | with_reducible apply k_mailbox (hm.of (by decide))
    | with_reducible apply k_doRouteSet (hm.of (by decide))
    | with_reducible apply HandlerKeeps.mk
    | with_reducible apply pair_foldl
    | (with_reducible apply pair_get; with_reducible assumption)
    | with_reducible apply goes_onlyIf
    | with_reducible apply goes_next
    | with_reducible apply k_foldl
    | intro _
    | dsimp only
    | split

theorem k_execIdentify {m : List Part} (hm : Within [.host, .hearth] m) (a0 : Fin 4) {s t : State} (h : Keeps m s t) : Goes m s (execIdentify a0 t) := by
  unfold execIdentify
  try dsimp only
  repeat' first
    | with_reducible assumption
    | with_reducible apply k_mailbox (hm.of (by decide))
    | with_reducible apply k_doIdentify (Within.nil m)
    | with_reducible apply HandlerKeeps.mk
    | with_reducible apply pair_foldl
    | (with_reducible apply pair_get; with_reducible assumption)
    | with_reducible apply goes_onlyIf
    | with_reducible apply goes_next
    | with_reducible apply k_foldl
    | intro _
    | dsimp only
    | split

theorem k_execInsert {m : List Part} (hm : Within [.aon, .host, .ptns, .colls, .cmds, .nextCmd, .hearth, .faults] m) (a0 : Fin 1024) {s t : State} (h : Keeps m s t) : Goes m s (execInsert a0 t) := by
  unfold execInsert
  try dsimp only
  repeat' first
    | with_reducible assumption
    | with_reducible apply k_admitIngest (hm.of (by decide))
    | with_reducible apply goes_onlyIf
    | with_reducible apply goes_next
    | with_reducible apply k_foldl
    | intro _
    | dsimp only
    | split

theorem k_execInsertFwdCommit {m : List Part} (hm : Within [.aon, .host, .colls, .cmds, .hearth, .faults, .icern] m) (a0 : Nat) {s t : State} (h : Keeps m s t) : Goes m s (execInsertFwdCommit a0 t) := by
  unfold execInsertFwdCommit
  try dsimp only
  repeat' first
    | with_reducible assumption
    | with_reducible apply k_withMsg (hm.of (by decide))
    | with_reducible apply k_commitPart (hm.of (by decide))
    | with_reducible apply k_firewall (hm.of (by decide))
    | with_reducible apply goes_onlyIf
    | with_reducible apply goes_next
    | with_reducible apply k_foldl
    | intro _
    | dsimp only
    | split

theorem k_execJobCreate {m : List Part} (hm : Within [.host, .ptns, .hearth] m) (a0 : Fin 4) {s t : State} (h : Keeps m s t) : Goes m s (execJobCreate a0 t) := by
  unfold execJobCreate
  try dsimp only
  repeat' first
    | with_reducible assumption
    | with_reducible apply k_mailbox (hm.of (by decide))
    | with_reducible apply k_doJobCreate (hm.of (by decide))
    | with_reducible apply HandlerKeeps.mk
    | with_reducible apply pair_foldl
    | (with_reducible apply pair_get; with_reducible assumption)
    | with_reducible apply goes_onlyIf
    | with_reducible apply goes_next
    | with_reducible apply k_foldl
    | intro _
    | dsimp only
    | split

theorem k_failRecord {m : List Part} (hm : Within [.aon, .host, .ctxs, .cmds, .hearth, .faults] m) (a0 : Nat) (a1 : Nat) (a2 : JRec) (a3 : Nat) (a4 : Status) {s t : State} (h : Keeps m s t) : Keeps m s (failRecord a0 a1 a2 a3 a4 t) := by
  unfold failRecord
  try dsimp only
  repeat' first
    | with_reducible assumption
    | with_reducible apply k_breakJournal (hm.of (by decide))
    | with_reducible apply k_postFault (hm.of (by decide))
    | with_reducible apply k_updJournal (hm.of (by decide))
    | with_reducible apply k_forgetDone (hm.of (by decide))
    | with_reducible apply k_updCmd (hm.of (by decide))
    | with_reducible apply k_foldl
    | intro _
    | dsimp only
    | split

theorem k_execJournalAck {m : List Part} (hm : Within [.aon, .host, .ctxs, .cmds, .hearth, .faults] m) (a0 : Nat) (a1 : AckReply) {s t : State} (h : Keeps m s t) : Goes m s (execJournalAck a0 a1 t) := by
  unfold execJournalAck
  try dsimp only
  repeat' first
    | with_reducible assumption
    | with_reducible apply k_ackRecord (hm.of (by decide))
    | with_reducible apply k_sentRecord (hm.of (by decide))
    | with_reducible apply k_failRecord (hm.of (by decide))
    | with_reducible apply k_notePoison (hm.of (by decide))
    | with_reducible apply goes_onlyIf
    | with_reducible apply goes_next
    | with_reducible apply k_foldl
    | intro _
    | dsimp only
    | split

theorem k_execJournalAckTimeout {m : List Part} (hm : Within [.aon, .host, .ctxs, .cmds, .hearth, .faults] m) (a0 : Nat) {s t : State} (h : Keeps m s t) : Goes m s (execJournalAckTimeout a0 t) := by
  unfold execJournalAckTimeout
  try dsimp only
  repeat' first
    | with_reducible assumption
    | with_reducible apply k_failRecord (hm.of (by decide))
    | with_reducible apply goes_onlyIf
    | with_reducible apply goes_next
    | with_reducible apply k_foldl
    | intro _
    | dsimp only
    | split

theorem k_execJournalSet {m : List Part} (hm : Within [.host, .ctxs, .hearth] m) (a0 : Fin 4) {s t : State} (h : Keeps m s t) : Goes m s (execJournalSet a0 t) := by
  unfold execJournalSet
  try dsimp only
  repeat' first
    | with_reducible assumption
    | with_reducible apply k_mailbox (hm.of (by decide))
    | with_reducible apply k_doJournalSet (hm.of (by decide))
    | with_reducible apply HandlerKeeps.mk
    | with_reducible apply pair_foldl
    | (with_reducible apply pair_get; with_reducible assumption)
    | with_reducible apply goes_onlyIf
    | with_reducible apply goes_next
    | with_reducible apply k_foldl
    | intro _
    | dsimp only
    | split

theorem k_reportKill {m : List Part} (hm : Within [.levels] m) (a0 : Nat) (a1 : Nat) (a2 : Nat) {s t : State} (h : Keeps m s t) : Keeps m s (reportKill a0 a1 a2 t) := by
  unfold reportKill
  try dsimp only
  repeat' first
    | with_reducible assumption
    | with_reducible apply k_endKills (hm.of (by decide))
    | with_reducible apply k_foldl
    | simp only [k_set_levels (hm.of (by decide))]
    | intro _
    | dsimp only
    | split

theorem k_execKillDone {m : List Part} (hm : Within [.levels] m) (a0 : Nat) (a1 : Nat) (a2 : Fin 12) {s t : State} (h : Keeps m s t) : Goes m s (execKillDone a0 a1 a2 t) := by
  unfold execKillDone
  try dsimp only
  repeat' first
    | with_reducible assumption
    | with_reducible apply k_reportKill (hm.of (by decide))
    | with_reducible apply goes_onlyIf
    | with_reducible apply goes_next
    | with_reducible apply k_foldl
    | intro _
    | dsimp only
    | split

theorem k_noticeL4 {m : List Part} (hm : Within [.icern] m) (a0 : W32) {s t : State} (h : Keeps m s t) : Keeps m s (noticeL4 a0 t) := by
  unfold noticeL4
  try dsimp only
  repeat' first
    | with_reducible assumption
    | with_reducible apply k_noticeUp (hm.of (by decide))
    | with_reducible apply k_foldl
    | intro _
    | dsimp only
    | split

theorem k_startL4 {m : List Part} (hm : Within [.pins, .levels] m) {s t : State} (h : Keeps m s t) : Keeps m s (startL4 t) := by
  unfold startL4
  try dsimp only
  repeat' first
    | with_reducible assumption
    | with_reducible apply k_startLevel (hm.of (by decide))
    | with_reducible apply k_updPins (hm.of (by decide))
    | with_reducible apply k_foldl
    | intro _
    | dsimp only
    | split

theorem k_latchLeak {m : List Part} (hm : Within [.aon, .pins, .host, .ptns, .jobs, .ctxs, .colls, .cmds, .nextCmd, .hearth, .hearthUp, .faults, .levels, .seamTok, .icern, .power, .hbm, .poison, .free] m) {s t : State} (h : Keeps m s t) : Keeps m s (latchLeak t) := by
  unfold latchLeak
  try dsimp only
  repeat' first
    | with_reducible assumption
    | with_reducible apply k_noticeL4 (hm.of (by decide))
    | with_reducible apply k_updAon (hm.of (by decide))
    | with_reducible apply k_postFault (hm.of (by decide))
    | with_reducible apply k_startL4 (hm.of (by decide))
    | with_reducible apply k_keepL4 (hm.of (by decide))
    | with_reducible apply k_stopClocks (hm.of (by decide))
    | with_reducible apply k_foldl
    | intro _
    | dsimp only
    | split

theorem k_execLeak {m : List Part} (hm : Within [.aon, .pins, .host, .ptns, .jobs, .ctxs, .colls, .cmds, .nextCmd, .hearth, .hearthUp, .faults, .levels, .seamTok, .icern, .power, .hbm, .poison, .free] m) {s t : State} (h : Keeps m s t) : Goes m s (execLeak t) := by
  unfold execLeak
  try dsimp only
  repeat' first
    | with_reducible assumption
    | with_reducible apply k_latchLeak (hm.of (by decide))
    | with_reducible apply goes_onlyIf
    | with_reducible apply goes_next
    | with_reducible apply k_foldl
    | intro _
    | dsimp only
    | split

theorem k_queueDescs {m : List Part} (hm : Within [.ptns] m) (a0 : Nat) (a1 : List Nat) (a2 : List Desc) {s t : State} (h : Keeps m s t) : Keeps m s (queueDescs a0 a1 a2 t) := by
  unfold queueDescs
  try dsimp only
  repeat' first
    | with_reducible assumption
    | with_reducible apply k_gainWork (hm.of (by decide))
    | with_reducible apply k_putDesc (hm.of (by decide))
    | with_reducible apply k_foldl
    | intro _
    | dsimp only
    | split

theorem k_issueBricks {m : List Part} (hm : Within [.ptns] m) (a0 : Nat) (a1 : Cmd) (a2 : Nat) (a3 : Nat) (a4 : Nat) (a5 : List Nat) (a6 : List LaneReq) {s t : State} (h : Keeps m s t) : Keeps m s (issueBricks a0 a1 a2 a3 a4 a5 a6 t) := by
  unfold issueBricks
  try dsimp only
  repeat' first
    | with_reducible assumption
    | with_reducible apply k_queueChunk (hm.of (by decide))
    | with_reducible apply k_queueDescs (hm.of (by decide))
    | with_reducible apply k_foldl
    | intro _
    | dsimp only
    | split

theorem k_issueLoose {m : List Part} (hm : Within [.ptns, .cmds] m) (a0 : Nat) (a1 : Nat) (a2 : Nat) (a3 : Cmd) {s t : State} (h : Keeps m s t) : Keeps m s (issueLoose a0 a1 a2 a3 t) := by
  unfold issueLoose
  try dsimp only
  repeat' first
    | with_reducible assumption
    | with_reducible apply k_issueBricks (hm.of (by decide))
    | with_reducible apply k_settleProbe (hm.of (by decide))
    | with_reducible apply k_updProbe (hm.of (by decide))
    | with_reducible apply k_foldl
    | intro _
    | dsimp only
    | split

theorem k_issueList {m : List Part} (hm : Within [.ptns, .cmds] m) (a0 : Nat) (a1 : Nat) (a2 : Nat) (a3 : Nat) (a4 : Cmd) {s t : State} (h : Keeps m s t) : Keeps m s (issueList a0 a1 a2 a3 a4 t) := by
  unfold issueList
  try dsimp only
  repeat' first
    | with_reducible assumption
    | with_reducible apply k_settleProbe (hm.of (by decide))
    | with_reducible apply k_updProbe (hm.of (by decide))
    | with_reducible apply k_issueBricks (hm.of (by decide))
    | with_reducible apply k_foldl
    | intro _
    | dsimp only
    | split

theorem k_issueNext {m : List Part} (hm : Within [.ptns, .cmds] m) (a0 : Nat) (a1 : Nat) (a2 : Nat) {s t : State} (h : Keeps m s t) : Keeps m s (issueNext a0 a1 a2 t) := by
  unfold issueNext
  try dsimp only
  repeat' first
    | with_reducible assumption
    | with_reducible apply k_issueLoose (hm.of (by decide))
    | with_reducible apply k_issueList (hm.of (by decide))
    | with_reducible apply k_cutLists (hm.of (by decide))
    | with_reducible apply k_foldl
    | intro _
    | dsimp only
    | split

theorem k_execListIssue {m : List Part} (hm : Within [.ptns, .cmds] m) (a0 : Fin 12) (a1 : Nat) (a2 : Nat) {s t : State} (h : Keeps m s t) : Goes m s (execListIssue a0 a1 a2 t) := by
  unfold execListIssue
  try dsimp only
  repeat' first
    | with_reducible assumption
    | with_reducible apply k_issueNext (hm.of (by decide))
    | with_reducible apply goes_onlyIf
    | with_reducible apply goes_next
    | with_reducible apply k_foldl
    | intro _
    | dsimp only
    | split

theorem k_execMbxStuck {m : List Part} (hm : Within [.aon, .pins, .host, .ptns, .jobs, .ctxs, .colls, .cmds, .nextCmd, .hearth, .hearthUp, .faults, .levels, .seamTok, .icern, .power, .hbm, .poison, .free] m) (a0 : Fin 4) {s t : State} (h : Keeps m s t) : Goes m s (execMbxStuck a0 t) := by
  unfold execMbxStuck
  try dsimp only
  repeat' first
    | with_reducible assumption
    | with_reducible apply k_hearthFailed (hm.of (by decide))
    | with_reducible apply goes_onlyIf
    | with_reducible apply goes_next
    | with_reducible apply k_foldl
    | intro _
    | dsimp only
    | split

theorem k_unmask {m : List Part} (hm : Within [.host] m) (a0 : Nat) {s t : State} (h : Keeps m s t) : Keeps m s (unmask a0 t) := by
  unfold unmask
  try dsimp only
  repeat' first
    | with_reducible assumption
    | with_reducible apply k_updVec (hm.of (by decide))
    | with_reducible apply k_sendVec (hm.of (by decide))
    | with_reducible apply k_foldl
    | intro _
    | dsimp only
    | split

theorem k_execMsixUnmask {m : List Part} (hm : Within [.host] m) (a0 : Fin 2048) {s t : State} (h : Keeps m s t) : Goes m s (execMsixUnmask a0 t) := by
  unfold execMsixUnmask
  try dsimp only
  repeat' first
    | with_reducible assumption
    | with_reducible apply k_unmask (hm.of (by decide))
    | with_reducible apply goes_onlyIf
    | with_reducible apply goes_next
    | with_reducible apply k_foldl
    | intro _
    | dsimp only
    | split

theorem k_execMwinSet {m : List Part} (hm : Within [.host, .ptns, .ctxs, .hearth] m) (a0 : Fin 4) {s t : State} (h : Keeps m s t) : Goes m s (execMwinSet a0 t) := by
  unfold execMwinSet
  try dsimp only
  repeat' first
    | with_reducible assumption
    | with_reducible apply k_mailbox (hm.of (by decide))
    | with_reducible apply k_doMwinSet (hm.of (by decide))
    | with_reducible apply HandlerKeeps.mk
    | with_reducible apply pair_foldl
    | (with_reducible apply pair_get; with_reducible assumption)
    | with_reducible apply goes_onlyIf
    | with_reducible apply goes_next
    | with_reducible apply k_foldl
    | intro _
    | dsimp only
    | split

theorem k_opNext {m : List Part} (hm : Within [.ptns] m) (a0 : Nat) (a1 : Nat) (a2 : W128) {s t : State} (h : Keeps m s t) : Keeps m s (opNext a0 a1 a2 t) := by
  unfold opNext
  try dsimp only
  repeat' first
    | with_reducible assumption
    | with_reducible apply k_stepDone (hm.of (by decide))
    | with_reducible apply k_updAnvil (hm.of (by decide))
    | with_reducible apply k_nextOfChunk (hm.of (by decide))
    | with_reducible apply k_loadDesc (hm.of (by decide))
    | with_reducible apply k_fillPlaces (hm.of (by decide))
    | with_reducible apply k_updPtn (hm.of (by decide))
    | with_reducible apply k_waitFor (hm.of (by decide))
    | with_reducible apply k_foldl
    | intro _
    | dsimp only
    | split

theorem k_execNext {m : List Part} (hm : Within [.ptns] m) (a0 : Fin 12) (a1 : Fin 864) {s t : State} (h : Keeps m s t) : Goes m s (execNext a0 a1 t) := by
  unfold execNext
  try dsimp only
  repeat' first
    | with_reducible assumption
    | with_reducible apply k_runOp (hm.of (by decide))
    | with_reducible apply k_opNext (hm.of (by decide))
    | with_reducible apply goes_onlyIf
    | with_reducible apply goes_next
    | with_reducible apply k_foldl
    | intro _
    | dsimp only
    | split

theorem k_execNop {m : List Part} (hm : Within [.aon, .host, .ptns, .cmds, .nextCmd, .hearth, .faults] m) (a0 : Fin 1024) {s t : State} (h : Keeps m s t) : Goes m s (execNop a0 t) := by
  unfold execNop
  try dsimp only
  repeat' first
    | with_reducible assumption
    | with_reducible apply k_admitNext (hm.of (by decide))
    | with_reducible apply k_keep (Within.nil m)
    | with_reducible apply goes_onlyIf
    | with_reducible apply goes_next
    | with_reducible apply k_foldl
    | intro _
    | dsimp only
    | split

theorem k_execPatternLoad {m : List Part} (hm : Within [.aon, .host, .ptns, .jobs, .ctxs, .hearth, .faults] m) (a0 : Fin 4) (a1 : ReadReply) {s t : State} (h : Keeps m s t) : Goes m s (execPatternLoad a0 a1 t) := by
  unfold execPatternLoad
  try dsimp only
  repeat' first
    | with_reducible assumption
    | with_reducible apply k_mailbox (hm.of (by decide))
    | with_reducible apply k_doPatternLoad (hm.of (by decide))
    | with_reducible apply HandlerKeeps.mk
    | with_reducible apply pair_foldl
    | (with_reducible apply pair_get; with_reducible assumption)
    | with_reducible apply goes_onlyIf
    | with_reducible apply goes_next
    | with_reducible apply k_foldl
    | intro _
    | dsimp only
    | split

theorem k_execPatternUnload {m : List Part} (hm : Within [.host, .ctxs, .hearth] m) (a0 : Fin 4) {s t : State} (h : Keeps m s t) : Goes m s (execPatternUnload a0 t) := by
  unfold execPatternUnload
  try dsimp only
  repeat' first
    | with_reducible assumption
    | with_reducible apply k_mailbox (hm.of (by decide))
    | with_reducible apply k_doPatternUnload (hm.of (by decide))
    | with_reducible apply HandlerKeeps.mk
    | with_reducible apply pair_foldl
    | (with_reducible apply pair_get; with_reducible assumption)
    | with_reducible apply goes_onlyIf
    | with_reducible apply goes_next
    | with_reducible apply k_foldl
    | intro _
    | dsimp only
    | split

theorem k_execPayloadDoorbell {m : List Part} (hm : Within [.host, .cmds, .hearth] m) (a0 : Fin 1024) (a1 : W64) {s t : State} (h : Keeps m s t) : Goes m s (execPayloadDoorbell a0 a1 t) := by
  unfold execPayloadDoorbell
  try dsimp only
  repeat' first
    | with_reducible assumption
    | with_reducible apply k_payloadDone (hm.of (by decide))
    | with_reducible apply goes_onlyIf
    | with_reducible apply goes_next
    | with_reducible apply k_foldl
    | intro _
    | dsimp only
    | split

theorem k_issuePiece {m : List Part} (hm : Within [.ptns, .cmds] m) (a0 : Nat) (a1 : Nat) (a2 : Nat) (a3 : Nat) (a4 : Cmd) (a5 : QRow) (a6 : Nat × Bf16) {s t : State} (h : Keeps m s t) : Keeps m s (issuePiece a0 a1 a2 a3 a4 a5 a6 t) := by
  unfold issuePiece
  try dsimp only
  repeat' first
    | with_reducible assumption
    | with_reducible apply k_settleProbe (hm.of (by decide))
    | with_reducible apply k_updProbe (hm.of (by decide))
    | with_reducible apply k_queueChunk (hm.of (by decide))
    | with_reducible apply k_queueDescs (hm.of (by decide))
    | with_reducible apply k_foldl
    | intro _
    | dsimp only
    | split

theorem k_execPieceIssue {m : List Part} (hm : Within [.ptns, .cmds] m) (a0 : Fin 12) (a1 : Nat) (a2 : Nat) (a3 : Nat) {s t : State} (h : Keeps m s t) : Goes m s (execPieceIssue a0 a1 a2 a3 t) := by
  unfold execPieceIssue
  try dsimp only
  repeat' first
    | with_reducible assumption
    | with_reducible apply k_issuePiece (hm.of (by decide))
    | with_reducible apply goes_onlyIf
    | with_reducible apply goes_next
    | with_reducible apply k_foldl
    | intro _
    | dsimp only
    | split

theorem k_execPllLockLoss {m : List Part} (hm : Within [.aon, .host, .ptns, .hearth, .faults, .levels] m) (a0 : Fin 12) {s t : State} (h : Keeps m s t) : Goes m s (execPllLockLoss a0 t) := by
  unfold execPllLockLoss
  try dsimp only
  repeat' first
    | with_reducible assumption
    | with_reducible apply k_startL2 (hm.of (by decide))
    | with_reducible apply k_postFault (hm.of (by decide))
    | with_reducible apply goes_onlyIf
    | with_reducible apply goes_next
    | with_reducible apply k_foldl
    | intro _
    | dsimp only
    | split

theorem k_raiseConflict {m : List Part} (hm : Within [.host, .ptns, .hearth] m) (a0 : Nat) (a1 : Nat) (a2 : Nat) {s t : State} (h : Keeps m s t) : Keeps m s (raiseConflict a0 a1 a2 t) := by
  unfold raiseConflict
  try dsimp only
  repeat' first
    | with_reducible assumption
    | with_reducible apply k_raise (hm.of (by decide))
    | with_reducible apply k_updPtn (hm.of (by decide))
    | with_reducible apply k_foldl
    | intro _
    | dsimp only
    | split

theorem k_execPolicyConflict {m : List Part} (hm : Within [.host, .ptns, .hearth] m) (a0 : Fin 12) (a1 : Nat) (a2 : Nat) {s t : State} (h : Keeps m s t) : Goes m s (execPolicyConflict a0 a1 a2 t) := by
  unfold execPolicyConflict
  try dsimp only
  repeat' first
    | with_reducible assumption
    | with_reducible apply k_raiseConflict (hm.of (by decide))
    | with_reducible apply goes_onlyIf
    | with_reducible apply goes_next
    | with_reducible apply k_foldl
    | intro _
    | dsimp only
    | split

theorem k_powerMs {m : List Part} (hm : Within [.aon, .host, .hearth, .faults, .power] m) {s t : State} (h : Keeps m s t) : Keeps m s (powerMs t) := by
  unfold powerMs
  try dsimp only
  repeat' first
    | with_reducible assumption
    | with_reducible apply k_updPower (hm.of (by decide))
    | with_reducible apply k_postFault (hm.of (by decide))
    | with_reducible apply k_foldl
    | intro _
    | dsimp only
    | split

theorem k_execPowerTick1ms {m : List Part} (hm : Within [.aon, .host, .hearth, .faults, .power] m) {s t : State} (h : Keeps m s t) : Goes m s (execPowerTick1ms t) := by
  unfold execPowerTick1ms
  try dsimp only
  repeat' first
    | with_reducible assumption
    | with_reducible apply k_powerMs (hm.of (by decide))
    | with_reducible apply goes_onlyIf
    | with_reducible apply goes_next
    | with_reducible apply k_foldl
    | intro _
    | dsimp only
    | split

theorem k_execPtnEnable {m : List Part} (hm : Within [.aon, .host, .ptns, .hearth, .hbm, .poison] m) (a0 : Fin 4) {s t : State} (h : Keeps m s t) : Goes m s (execPtnEnable a0 t) := by
  unfold execPtnEnable
  try dsimp only
  repeat' first
    | with_reducible assumption
    | with_reducible apply k_mailbox (hm.of (by decide))
    | with_reducible apply k_doPtnEnable (hm.of (by decide))
    | with_reducible apply HandlerKeeps.mk
    | with_reducible apply pair_foldl
    | (with_reducible apply pair_get; with_reducible assumption)
    | with_reducible apply goes_onlyIf
    | with_reducible apply goes_next
    | with_reducible apply k_foldl
    | intro _
    | dsimp only
    | split

theorem k_execPtnPower {m : List Part} (hm : Within [.host, .ptns, .hearth] m) (a0 : Fin 4) {s t : State} (h : Keeps m s t) : Goes m s (execPtnPower a0 t) := by
  unfold execPtnPower
  try dsimp only
  repeat' first
    | with_reducible assumption
    | with_reducible apply k_mailbox (hm.of (by decide))
    | with_reducible apply k_doPtnPower (hm.of (by decide))
    | with_reducible apply HandlerKeeps.mk
    | with_reducible apply pair_foldl
    | (with_reducible apply pair_get; with_reducible assumption)
    | with_reducible apply goes_onlyIf
    | with_reducible apply goes_next
    | with_reducible apply k_foldl
    | intro _
    | dsimp only
    | split

theorem k_powerDown {m : List Part} (hm : Within [.aon, .pins, .host, .ptns, .jobs, .ctxs, .colls, .cmds, .nextCmd, .hearth, .hearthUp, .faults, .levels, .seamTok, .icern, .power, .hbm, .poison, .free] m) {s t : State} (h : Keeps m s t) : Keeps m s (powerDown t) := by
  unfold powerDown
  try dsimp only
  repeat' first
    | with_reducible assumption
    | with_reducible apply k_updPins (hm.of (by decide))
    | with_reducible apply k_offLoad (hm.of (by decide))
    | with_reducible apply k_keepL4 (hm.of (by decide))
    | with_reducible apply k_stopClocks (hm.of (by decide))
    | with_reducible apply k_noticeL4 (hm.of (by decide))
    | with_reducible apply k_foldl
    | intro _
    | dsimp only
    | split

theorem k_execPwrEnDeassert {m : List Part} (hm : Within [.aon, .pins, .host, .ptns, .jobs, .ctxs, .colls, .cmds, .nextCmd, .hearth, .hearthUp, .faults, .levels, .seamTok, .icern, .power, .hbm, .poison, .free] m) {s t : State} (h : Keeps m s t) : Goes m s (execPwrEnDeassert t) := by
  unfold execPwrEnDeassert
  try dsimp only
  repeat' first
    | with_reducible assumption
    | with_reducible apply k_powerDown (hm.of (by decide))
    | with_reducible apply goes_onlyIf
    | with_reducible apply goes_next
    | with_reducible apply k_foldl
    | intro _
    | dsimp only
    | split

theorem k_execRegSet {m : List Part} (hm : Within [.host, .ptns, .hearth] m) (a0 : Fin 4) {s t : State} (h : Keeps m s t) : Goes m s (execRegSet a0 t) := by
  unfold execRegSet
  try dsimp only
  repeat' first
    | with_reducible assumption
    | with_reducible apply k_mailbox (hm.of (by decide))
    | with_reducible apply k_doRegSet (hm.of (by decide))
    | with_reducible apply HandlerKeeps.mk
    | with_reducible apply pair_foldl
    | (with_reducible apply pair_get; with_reducible assumption)
    | with_reducible apply goes_onlyIf
    | with_reducible apply goes_next
    | with_reducible apply k_foldl
    | intro _
    | dsimp only
    | split

theorem k_msixWord {m : List Part} (hm : Within [.host] m) (a0 : Nat) (a1 : Nat) {s t : State} (h : Keeps m s t) : Keeps m s (msixWord a0 a1 t) := by
  unfold msixWord
  try dsimp only
  repeat' first
    | with_reducible assumption
    | with_reducible apply k_updVec (hm.of (by decide))
    | with_reducible apply k_unmask (hm.of (by decide))
    | with_reducible apply k_foldl
    | intro _
    | dsimp only
    | split

theorem k_tableWrite {m : List Part} (hm : Within [.host] m) (a0 : Nat) (a1 : Nat) (a2 : Nat) {s t : State} (h : Keeps m s t) : Keeps m s (tableWrite a0 a1 a2 t) := by
  unfold tableWrite
  try dsimp only
  repeat' first
    | with_reducible assumption
    | with_reducible apply k_msixWord (hm.of (by decide))
    | with_reducible apply k_foldl
    | intro _
    | dsimp only
    | split

theorem k_resetChip {m : List Part} (hm : Within [.aon, .pins, .host, .ptns, .jobs, .ctxs, .colls, .cmds, .nextCmd, .hearth, .hearthUp, .faults, .levels, .seamTok, .icern, .power, .hbm, .poison, .free] m) (a0 : Nat) {s t : State} (h : Keeps m s t) : Keeps m s (resetChip a0 t) := by
  unfold resetChip
  try dsimp only
  repeat' first
    | with_reducible assumption
    | with_reducible apply k_mailbox (hm.of (by decide))
    | with_reducible apply k_doResetChip (Within.nil m)
    | with_reducible apply k_startL3 (hm.of (by decide))
    | with_reducible apply HandlerKeeps.mk
    | with_reducible apply pair_foldl
    | (with_reducible apply pair_get; with_reducible assumption)
    | with_reducible apply k_foldl
    | simp only [k_set_levels (hm.of (by decide))]
    | intro _
    | dsimp only
    | split

theorem k_execResetChip {m : List Part} (hm : Within [.aon, .pins, .host, .ptns, .jobs, .ctxs, .colls, .cmds, .nextCmd, .hearth, .hearthUp, .faults, .levels, .seamTok, .icern, .power, .hbm, .poison, .free] m) (a0 : Fin 4) {s t : State} (h : Keeps m s t) : Goes m s (execResetChip a0 t) := by
  unfold execResetChip
  try dsimp only
  repeat' first
    | with_reducible assumption
    | with_reducible apply k_resetChip (hm.of (by decide))
    | with_reducible apply goes_onlyIf
    | with_reducible apply goes_next
    | with_reducible apply k_foldl
    | intro _
    | dsimp only
    | split

theorem k_execResetPtn {m : List Part} (hm : Within [.aon, .host, .ptns, .hearth, .levels] m) (a0 : Fin 4) {s t : State} (h : Keeps m s t) : Goes m s (execResetPtn a0 t) := by
  unfold execResetPtn
  try dsimp only
  repeat' first
    | with_reducible assumption
    | with_reducible apply k_mailbox (hm.of (by decide))
    | with_reducible apply k_doResetPtn (hm.of (by decide))
    | with_reducible apply HandlerKeeps.mk
    | with_reducible apply pair_foldl
    | (with_reducible apply pair_get; with_reducible assumption)
    | with_reducible apply goes_onlyIf
    | with_reducible apply goes_next
    | with_reducible apply k_foldl
    | intro _
    | dsimp only
    | split

theorem k_getResult {m : List Part} (hm : Within [.host, .hearth] m) (a0 : Nat) (a1 : Req) {s t : State} (h : Keeps m s t) : Keeps m s (getResult a0 a1 t) := by
  unfold getResult
  try dsimp only
  repeat' first
    | with_reducible assumption
    | with_reducible apply k_answerMbx (hm.of (by decide))
    | with_reducible apply k_updHearth (hm.of (by decide))
    | with_reducible apply k_foldl
    | intro _
    | dsimp only
    | split

theorem k_execResultGet {m : List Part} (hm : Within [.host, .hearth] m) (a0 : Fin 4) {s t : State} (h : Keeps m s t) : Goes m s (execResultGet a0 t) := by
  unfold execResultGet
  try dsimp only
  repeat' first
    | with_reducible assumption
    | with_reducible apply k_getResult (hm.of (by decide))
    | with_reducible apply k_mailbox (hm.of (by decide))
    | with_reducible apply HandlerKeeps.mk
    | with_reducible apply goes_onlyIf
    | with_reducible apply goes_next
    | with_reducible apply k_foldl
    | intro _
    | dsimp only
    | split

theorem k_execRingCreate {m : List Part} (hm : Within [.host, .hearth] m) (a0 : Fin 4) {s t : State} (h : Keeps m s t) : Goes m s (execRingCreate a0 t) := by
  unfold execRingCreate
  try dsimp only
  repeat' first
    | with_reducible assumption
    | with_reducible apply k_mailbox (hm.of (by decide))
    | with_reducible apply k_doRingCreate (hm.of (by decide))
    | with_reducible apply HandlerKeeps.mk
    | with_reducible apply pair_foldl
    | (with_reducible apply pair_get; with_reducible assumption)
    | with_reducible apply goes_onlyIf
    | with_reducible apply goes_next
    | with_reducible apply k_foldl
    | intro _
    | dsimp only
    | split

theorem k_execRingDestroy {m : List Part} (hm : Within [.host, .hearth] m) (a0 : Fin 4) {s t : State} (h : Keeps m s t) : Goes m s (execRingDestroy a0 t) := by
  unfold execRingDestroy
  try dsimp only
  repeat' first
    | with_reducible assumption
    | with_reducible apply k_mailbox (hm.of (by decide))
    | with_reducible apply k_doRingDestroy (hm.of (by decide))
    | with_reducible apply HandlerKeeps.mk
    | with_reducible apply pair_foldl
    | (with_reducible apply pair_get; with_reducible assumption)
    | with_reducible apply goes_onlyIf
    | with_reducible apply goes_next
    | with_reducible apply k_foldl
    | intro _
    | dsimp only
    | split

theorem k_execRingState {m : List Part} (hm : Within [.host, .hearth] m) (a0 : Fin 4) {s t : State} (h : Keeps m s t) : Goes m s (execRingState a0 t) := by
  unfold execRingState
  try dsimp only
  repeat' first
    | with_reducible assumption
    | with_reducible apply k_mailbox (hm.of (by decide))
    | with_reducible apply k_doRingState (hm.of (by decide))
    | with_reducible apply HandlerKeeps.mk
    | with_reducible apply pair_foldl
    | (with_reducible apply pair_get; with_reducible assumption)
    | with_reducible apply goes_onlyIf
    | with_reducible apply goes_next
    | with_reducible apply k_foldl
    | intro _
    | dsimp only
    | split

theorem k_execRoundLoad {m : List Part} (hm : Within [.host, .ptns, .hearth] m) (a0 : Fin 4) {s t : State} (h : Keeps m s t) : Goes m s (execRoundLoad a0 t) := by
  unfold execRoundLoad
  try dsimp only
  repeat' first
    | with_reducible assumption
    | with_reducible apply k_mailbox (hm.of (by decide))
    | with_reducible apply k_doRoundLoad (hm.of (by decide))
    | with_reducible apply HandlerKeeps.mk
    | with_reducible apply pair_foldl
    | (with_reducible apply pair_get; with_reducible assumption)
    | with_reducible apply goes_onlyIf
    | with_reducible apply goes_next
    | with_reducible apply k_foldl
    | intro _
    | dsimp only
    | split

theorem k_execRoundSlotAdvance {m : List Part} (hm : Within [.ptns, .ctxs, .cmds] m) (a0 : Fin 12) {s t : State} (h : Keeps m s t) : Goes m s (execRoundSlotAdvance a0 t) := by
  unfold execRoundSlotAdvance
  try dsimp only
  repeat' first
    | with_reducible assumption
    | with_reducible apply k_nextSlot (hm.of (by decide))
    | with_reducible apply goes_onlyIf
    | with_reducible apply goes_next
    | with_reducible apply k_foldl
    | intro _
    | dsimp only
    | split

theorem k_probed {m : List Part} (hm : Within [.aon, .host, .jobs, .hearth, .faults, .icern] m) (a0 : Msg) {s t : State} (h : Keeps m s t) : Keeps m s (probed a0 t) := by
  unfold probed
  try dsimp only
  repeat' first
    | with_reducible assumption
    | with_reducible apply k_updJob (hm.of (by decide))
    | with_reducible apply k_sendMsg (hm.of (by decide))
    | with_reducible apply k_foldl
    | intro _
    | dsimp only
    | split

theorem k_execRouteProbe {m : List Part} (hm : Within [.aon, .host, .jobs, .hearth, .faults, .icern] m) (a0 : Nat) {s t : State} (h : Keeps m s t) : Goes m s (execRouteProbe a0 t) := by
  unfold execRouteProbe
  try dsimp only
  repeat' first
    | with_reducible assumption
    | with_reducible apply k_withMsg (hm.of (by decide))
    | with_reducible apply k_probed (hm.of (by decide))
    | with_reducible apply goes_onlyIf
    | with_reducible apply goes_next
    | with_reducible apply k_foldl
    | intro _
    | dsimp only
    | split

theorem k_probeReply {m : List Part} (hm : Within [.aon, .host, .jobs, .hearth, .faults, .icern] m) (a0 : Msg) {s t : State} (h : Keeps m s t) : Keeps m s (probeReply a0 t) := by
  unfold probeReply
  try dsimp only
  repeat' first
    | with_reducible assumption
    | with_reducible apply k_setPeer (hm.of (by decide))
    | with_reducible apply k_updJob (hm.of (by decide))
    | with_reducible apply k_postFault (hm.of (by decide))
    | with_reducible apply k_foldl
    | intro _
    | dsimp only
    | split

theorem k_execRouteProbeReply {m : List Part} (hm : Within [.aon, .host, .jobs, .hearth, .faults, .icern] m) (a0 : Nat) {s t : State} (h : Keeps m s t) : Goes m s (execRouteProbeReply a0 t) := by
  unfold execRouteProbeReply
  try dsimp only
  repeat' first
    | with_reducible assumption
    | with_reducible apply k_withMsg (hm.of (by decide))
    | with_reducible apply k_probeReply (hm.of (by decide))
    | with_reducible apply goes_onlyIf
    | with_reducible apply goes_next
    | with_reducible apply k_foldl
    | intro _
    | dsimp only
    | split

theorem k_sendProbes {m : List Part} (hm : Within [.aon, .host, .jobs, .hearth, .faults, .icern] m) (a0 : Nat) {s t : State} (h : Keeps m s t) : Keeps m s (sendProbes a0 t) := by
  unfold sendProbes
  try dsimp only
  repeat' first
    | with_reducible assumption
    | with_reducible apply k_sendAll (hm.of (by decide))
    | with_reducible apply k_updJob (hm.of (by decide))
    | with_reducible apply k_foldl
    | intro _
    | dsimp only
    | split

theorem k_execRouteProbeTimer {m : List Part} (hm : Within [.aon, .host, .jobs, .hearth, .faults, .icern] m) (a0 : Nat) {s t : State} (h : Keeps m s t) : Goes m s (execRouteProbeTimer a0 t) := by
  unfold execRouteProbeTimer
  try dsimp only
  repeat' first
    | with_reducible assumption
    | with_reducible apply k_sendProbes (hm.of (by decide))
    | with_reducible apply goes_onlyIf
    | with_reducible apply goes_next
    | with_reducible apply k_foldl
    | intro _
    | dsimp only
    | split

theorem k_scrubNext {m : List Part} (hm : Within [.aon, .host, .ptns, .hearth, .faults, .hbm, .poison, .free] m) (a0 : Nat) (a1 : Nat) (a2 : Nat) (a3 : List Nat) {s t : State} (h : Keeps m s t) : Keeps m s (scrubNext a0 a1 a2 a3 t) := by
  unfold scrubNext
  try dsimp only
  repeat' first
    | with_reducible assumption
    | with_reducible apply k_updPtn (hm.of (by decide))
    | with_reducible apply k_lineFound (hm.of (by decide))
    | with_reducible apply k_foldl
    | intro _
    | dsimp only
    | split

theorem k_execScrubRead {m : List Part} (hm : Within [.aon, .host, .ptns, .hearth, .faults, .hbm, .poison, .free] m) (a0 : Fin 12) (a1 : Fin 32) (a2 : Nat) (a3 : List Nat) {s t : State} (h : Keeps m s t) : Goes m s (execScrubRead a0 a1 a2 a3 t) := by
  unfold execScrubRead
  try dsimp only
  repeat' first
    | with_reducible assumption
    | with_reducible apply k_scrubNext (hm.of (by decide))
    | with_reducible apply goes_onlyIf
    | with_reducible apply goes_next
    | with_reducible apply k_foldl
    | intro _
    | dsimp only
    | split

theorem k_execSeamFault {m : List Part} (hm : Within [.aon, .pins, .host, .ptns, .jobs, .ctxs, .colls, .cmds, .nextCmd, .hearth, .hearthUp, .faults, .levels, .seamTok, .icern, .power, .hbm, .poison, .free] m) (a0 : Fin 4) (a1 : Bool) {s t : State} (h : Keeps m s t) : Goes m s (execSeamFault a0 a1 t) := by
  unfold execSeamFault
  try dsimp only
  repeat' first
    | with_reducible assumption
    | with_reducible apply k_startL3 (hm.of (by decide))
    | with_reducible apply k_postFault (hm.of (by decide))
    | with_reducible apply goes_onlyIf
    | with_reducible apply goes_next
    | with_reducible apply k_foldl
    | intro _
    | dsimp only
    | split

theorem k_execSearch {m : List Part} (hm : Within [.aon, .host, .ptns, .cmds, .nextCmd, .hearth, .faults] m) (a0 : Fin 1024) (a1 : ReadReply) {s t : State} (h : Keeps m s t) : Goes m s (execSearch a0 a1 t) := by
  unfold execSearch
  try dsimp only
  repeat' first
    | with_reducible assumption
    | with_reducible apply k_admitNext (hm.of (by decide))
    | with_reducible apply k_keep (Within.nil m)
    | with_reducible apply goes_onlyIf
    | with_reducible apply goes_next
    | with_reducible apply k_foldl
    | intro _
    | dsimp only
    | split

theorem k_execSearchExact {m : List Part} (hm : Within [.aon, .host, .ptns, .cmds, .nextCmd, .hearth, .faults] m) (a0 : Fin 1024) (a1 : ReadReply) {s t : State} (h : Keeps m s t) : Goes m s (execSearchExact a0 a1 t) := by
  unfold execSearchExact
  try dsimp only
  repeat' first
    | with_reducible assumption
    | with_reducible apply k_admitNext (hm.of (by decide))
    | with_reducible apply k_keep (Within.nil m)
    | with_reducible apply goes_onlyIf
    | with_reducible apply goes_next
    | with_reducible apply k_foldl
    | intro _
    | dsimp only
    | split

theorem k_execSearchHybrid {m : List Part} (hm : Within [.aon, .host, .ptns, .cmds, .nextCmd, .hearth, .faults] m) (a0 : Fin 1024) (a1 : ReadReply) {s t : State} (h : Keeps m s t) : Goes m s (execSearchHybrid a0 a1 t) := by
  unfold execSearchHybrid
  try dsimp only
  repeat' first
    | with_reducible assumption
    | with_reducible apply k_admitNext (hm.of (by decide))
    | with_reducible apply k_keep (Within.nil m)
    | with_reducible apply goes_onlyIf
    | with_reducible apply goes_next
    | with_reducible apply k_foldl
    | intro _
    | dsimp only
    | split

theorem k_execSenior {m : List Part} (hm : Within [.host, .cmds] m) (a0 : AmountWaiter) {s t : State} (h : Keeps m s t) : Goes m s (execSenior a0 t) := by
  unfold execSenior
  try dsimp only
  repeat' first
    | with_reducible assumption
    | with_reducible apply k_becomeSenior (hm.of (by decide))
    | with_reducible apply goes_onlyIf
    | with_reducible apply goes_next
    | with_reducible apply k_foldl
    | intro _
    | dsimp only
    | split

theorem k_execSharesSet {m : List Part} (hm : Within [.host, .ctxs, .hearth] m) (a0 : Fin 4) {s t : State} (h : Keeps m s t) : Goes m s (execSharesSet a0 t) := by
  unfold execSharesSet
  try dsimp only
  repeat' first
    | with_reducible assumption
    | with_reducible apply k_mailbox (hm.of (by decide))
    | with_reducible apply k_doSharesSet (hm.of (by decide))
    | with_reducible apply HandlerKeeps.mk
    | with_reducible apply pair_foldl
    | (with_reducible apply pair_get; with_reducible assumption)
    | with_reducible apply goes_onlyIf
    | with_reducible apply goes_next
    | with_reducible apply k_foldl
    | intro _
    | dsimp only
    | split

theorem k_execSqDoorbell {m : List Part} (hm : Within [.host, .hearth] m) (a0 : Fin 1024) (a1 : W64) {s t : State} (h : Keeps m s t) : Goes m s (execSqDoorbell a0 a1 t) := by
  unfold execSqDoorbell
  try dsimp only
  repeat' first
    | with_reducible assumption
    | with_reducible apply k_submitTail (hm.of (by decide))
    | with_reducible apply goes_onlyIf
    | with_reducible apply goes_next
    | with_reducible apply k_foldl
    | intro _
    | dsimp only
    | split

theorem k_sampleTemp {m : List Part} (hm : Within [.aon, .host, .ptns, .hearth, .faults] m) (a0 : Nat) (a1 : Option Int) {s t : State} (h : Keeps m s t) : Keeps m s (sampleTemp a0 a1 t) := by
  unfold sampleTemp
  try dsimp only
  repeat' first
    | with_reducible assumption
    | with_reducible apply k_postFault (hm.of (by decide))
    | with_reducible apply k_updPtn (hm.of (by decide))
    | with_reducible apply k_dueFence (hm.of (by decide))
    | with_reducible apply k_leaveHold (hm.of (by decide))
    | with_reducible apply k_foldl
    | intro _
    | dsimp only
    | split

theorem k_execStackTempSample {m : List Part} (hm : Within [.aon, .host, .ptns, .hearth, .faults] m) (a0 : Fin 12) (a1 : Option Int) {s t : State} (h : Keeps m s t) : Goes m s (execStackTempSample a0 a1 t) := by
  unfold execStackTempSample
  try dsimp only
  repeat' first
    | with_reducible assumption
    | with_reducible apply k_sampleTemp (hm.of (by decide))
    | with_reducible apply goes_onlyIf
    | with_reducible apply goes_next
    | with_reducible apply k_foldl
    | intro _
    | dsimp only
    | split

theorem k_execSummaryExpire {m : List Part} (hm : Within [.hearth] m) {s t : State} (h : Keeps m s t) : Goes m s (execSummaryExpire t) := by
  unfold execSummaryExpire
  try dsimp only
  repeat' first
    | with_reducible assumption
    | with_reducible apply k_wakeHearth (hm.of (by decide))
    | with_reducible apply k_updHearth (hm.of (by decide))
    | with_reducible apply goes_onlyIf
    | with_reducible apply goes_next
    | with_reducible apply k_foldl
    | intro _
    | dsimp only
    | split

theorem k_execSupply {m : List Part} (hm : Within [.aon, .pins, .host, .hearth, .faults, .levels] m) {s t : State} (h : Keeps m s t) : Goes m s (execSupply t) := by
  unfold execSupply
  try dsimp only
  repeat' first
    | with_reducible assumption
    | with_reducible apply k_startL4 (hm.of (by decide))
    | with_reducible apply k_postFault (hm.of (by decide))
    | with_reducible apply goes_onlyIf
    | with_reducible apply goes_next
    | with_reducible apply k_foldl
    | intro _
    | dsimp only
    | split

theorem k_trip {m : List Part} (hm : Within [.aon, .pins, .host, .ptns, .jobs, .ctxs, .colls, .cmds, .nextCmd, .hearth, .hearthUp, .faults, .levels, .seamTok, .icern, .power, .hbm, .poison, .free] m) (a0 : Die) {s t : State} (h : Keeps m s t) : Keeps m s (trip a0 t) := by
  unfold trip
  try dsimp only
  repeat' first
    | with_reducible assumption
    | with_reducible apply k_updAon (hm.of (by decide))
    | with_reducible apply k_postFault (hm.of (by decide))
    | with_reducible apply k_startL4 (hm.of (by decide))
    | with_reducible apply k_updPins (hm.of (by decide))
    | with_reducible apply k_keepL4 (hm.of (by decide))
    | with_reducible apply k_stopClocks (hm.of (by decide))
    | with_reducible apply k_foldl
    | intro _
    | dsimp only
    | split

theorem k_execThermtrip {m : List Part} (hm : Within [.aon, .pins, .host, .ptns, .jobs, .ctxs, .colls, .cmds, .nextCmd, .hearth, .hearthUp, .faults, .levels, .seamTok, .icern, .power, .hbm, .poison, .free] m) (a0 : Die) {s t : State} (h : Keeps m s t) : Goes m s (execThermtrip a0 t) := by
  unfold execThermtrip
  try dsimp only
  repeat' first
    | with_reducible assumption
    | with_reducible apply k_trip (hm.of (by decide))
    | with_reducible apply goes_onlyIf
    | with_reducible apply goes_next
    | with_reducible apply k_foldl
    | intro _
    | dsimp only
    | split

theorem k_execTicketDiscard {m : List Part} (hm : Within [.hearth] m) (a0 : Nat) {s t : State} (h : Keeps m s t) : Goes m s (execTicketDiscard a0 t) := by
  unfold execTicketDiscard
  try dsimp only
  repeat' first
    | with_reducible assumption
    | with_reducible apply k_wakeHearth (hm.of (by decide))
    | with_reducible apply k_updHearth (hm.of (by decide))
    | with_reducible apply goes_onlyIf
    | with_reducible apply goes_next
    | with_reducible apply k_foldl
    | intro _
    | dsimp only
    | split

theorem k_execTrialTimeout {m : List Part} (hm : Within [.aon, .host, .hearth, .hearthUp, .faults] m) {s t : State} (h : Keeps m s t) : Goes m s (execTrialTimeout t) := by
  unfold execTrialTimeout
  try dsimp only
  repeat' first
    | with_reducible assumption
    | with_reducible apply k_failTrial (hm.of (by decide))
    | with_reducible apply k_restartHearth (hm.of (by decide))
    | with_reducible apply goes_onlyIf
    | with_reducible apply goes_next
    | with_reducible apply k_foldl
    | intro _
    | dsimp only
    | split

theorem k_execUpsert {m : List Part} (hm : Within [.aon, .host, .ptns, .colls, .cmds, .nextCmd, .hearth, .faults] m) (a0 : Fin 1024) {s t : State} (h : Keeps m s t) : Goes m s (execUpsert a0 t) := by
  unfold execUpsert
  try dsimp only
  repeat' first
    | with_reducible assumption
    | with_reducible apply k_admitIngest (hm.of (by decide))
    | with_reducible apply goes_onlyIf
    | with_reducible apply goes_next
    | with_reducible apply k_foldl
    | intro _
    | dsimp only
    | split

theorem k_execWarmIdleTimeout {m : List Part} (hm : Within [.host, .ptns, .hearth] m) (a0 : Fin 12) {s t : State} (h : Keeps m s t) : Goes m s (execWarmIdleTimeout a0 t) := by
  unfold execWarmIdleTimeout
  try dsimp only
  repeat' first
    | with_reducible assumption
    | with_reducible apply k_enterWarm (hm.of (by decide))
    | with_reducible apply goes_onlyIf
    | with_reducible apply goes_next
    | with_reducible apply k_foldl
    | intro _
    | dsimp only
    | split

theorem k_execWcbAgeFlush {m : List Part} (hm : Within [.aon, .host, .ptns, .hearth, .faults, .hbm, .poison, .free] m) (a0 : Fin 12) (a1 : Fin 32) (a2 : List Nat) {s t : State} (h : Keeps m s t) : Goes m s (execWcbAgeFlush a0 a1 a2 t) := by
  unfold execWcbAgeFlush
  try dsimp only
  repeat' first
    | with_reducible assumption
    | with_reducible apply k_ageFlush (hm.of (by decide))
    | with_reducible apply goes_onlyIf
    | with_reducible apply goes_next
    | with_reducible apply k_foldl
    | intro _
    | dsimp only
    | split

theorem k_zeroisedFor {m : List Part} (hm : Within [.hearth] m) (a0 : Nat) {s t : State} (h : Keeps m s t) : Keeps m s (zeroisedFor a0 t) := by
  unfold zeroisedFor
  try dsimp only
  repeat' first
    | with_reducible assumption
    | with_reducible apply k_updHearth (hm.of (by decide))
    | with_reducible apply k_wakeHearth (hm.of (by decide))
    | with_reducible apply k_foldl
    | intro _
    | dsimp only
    | split

theorem k_zeroStack {m : List Part} (hm : Within [.ptns, .hearth, .hbm, .poison] m) (a0 : Nat) {s t : State} (h : Keeps m s t) : Keeps m s (zeroStack a0 t) := by
  unfold zeroStack
  try dsimp only
  repeat' first
    | with_reducible assumption
    | with_reducible apply k_zeroRange (hm.of (by decide))
    | with_reducible apply k_updHearth (hm.of (by decide))
    | with_reducible apply k_zeroisedFor (hm.of (by decide))
    | with_reducible apply k_updPtn (hm.of (by decide))
    | with_reducible apply k_foldl
    | intro _
    | dsimp only
    | split

theorem k_zeroised {m : List Part} (hm : Within [.ptns, .hearth, .hbm, .poison] m) (a0 : ZeroScope) {s t : State} (h : Keeps m s t) : Keeps m s (zeroised a0 t) := by
  unfold zeroised
  try dsimp only
  repeat' first
    | with_reducible assumption
    | with_reducible apply k_zeroStack (hm.of (by decide))
    | with_reducible apply k_updPtn (hm.of (by decide))
    | with_reducible apply k_zeroRange (hm.of (by decide))
    | with_reducible apply k_foldl
    | intro _
    | dsimp only
    | split

theorem k_execZeroiseDone {m : List Part} (hm : Within [.ptns, .hearth, .hbm, .poison] m) (a0 : ZeroScope) {s t : State} (h : Keeps m s t) : Goes m s (execZeroiseDone a0 t) := by
  unfold execZeroiseDone
  try dsimp only
  repeat' first
    | with_reducible assumption
    | with_reducible apply k_zeroised (hm.of (by decide))
    | with_reducible apply goes_onlyIf
    | with_reducible apply goes_next
    | with_reducible apply k_foldl
    | intro _
    | dsimp only
    | split

theorem k_tick {m : List Part} (hm : Within [.aon, .ptns, .cmds, .seamTok, .icern] m) {s t : State} (h : Keeps m s t) : Keeps m s (tick t) := by
  unfold tick
  try dsimp only
  repeat' first
    | with_reducible assumption
    | with_reducible apply k_pruneLists (hm.of (by decide))
    | with_reducible apply k_dueReplays (hm.of (by decide))
    | with_reducible apply k_countAvail (hm.of (by decide))
    | with_reducible apply k_updAon (hm.of (by decide))
    | with_reducible apply k_foldl
    | simp only [k_set_tick (hm.of (by decide))]
    | intro _
    | dsimp only
    | split

theorem k_emptied {m : List Part} (hm : Within [.ptns, .ctxs, .colls, .cmds, .levels] m) (a0 : Nat) (a1 : FenceRec) {s t : State} (h : Keeps m s t) : Keeps m s (emptied a0 a1 t) := by
  unfold emptied
  try dsimp only
  repeat' first
    | with_reducible assumption
    | with_reducible apply k_suspectIn (hm.of (by decide))
    | with_reducible apply k_updPtn (hm.of (by decide))
    | with_reducible apply k_abandonTamps (hm.of (by decide))
    | with_reducible apply k_chargeWhere (hm.of (by decide))
    | with_reducible apply k_endLevels (hm.of (by decide))
    | with_reducible apply k_resetRates (hm.of (by decide))
    | with_reducible apply k_foldl
    | intro _
    | dsimp only
    | split

theorem k_freeRow {m : List Part} (hm : Within [.ptns, .ctxs, .cmds] m) (a0 : Nat) (a1 : Nat) {s t : State} (h : Keeps m s t) : Keeps m s (freeRow a0 a1 t) := by
  unfold freeRow
  try dsimp only
  repeat' first
    | with_reducible assumption
    | with_reducible apply k_chargeWhere (hm.of (by decide))
    | with_reducible apply k_updPtn (hm.of (by decide))
    | with_reducible apply k_foldl
    | intro _
    | dsimp only
    | split

theorem k_scrubMany {m : List Part} (hm : Within [.aon, .host, .ptns, .hearth, .faults, .hbm, .poison, .free] m) (a0 : Nat) (a1 : List (Nat × Nat × List Nat)) {s t : State} (h : Keeps m s t) : Keeps m s (scrubMany a0 a1 t) := by
  unfold scrubMany
  try dsimp only
  repeat' first
    | with_reducible assumption
    | with_reducible apply k_updPtn (hm.of (by decide))
    | with_reducible apply k_lineFound (hm.of (by decide))
    | with_reducible apply k_foldl
    | intro _
    | dsimp only
    | split

theorem k_pumpOver {m : List Part} (hm : Within [.aon, .host, .hearth, .faults, .icern] m) (a0 : List (Msg × Nat)) (a1 : List (Msg × Nat)) {s t : State} (h : Keeps m s t) : Keeps m s (pumpOver a0 a1 t) := by
  induction a0 generalizing a1 t with
  | nil => exact h
  | cons q l ih =>
    obtain ⟨x, n⟩ := q
    unfold pumpOver
    dsimp only
    have h1 : ∀ u, Keeps m s u → Keeps m s (sendMsg x (updIcern (fun i => { i with requests := removeFirst (x, n) i.requests }) u)) :=
      fun u hu => k_sendMsg (hm.of (by decide)) _ (k_updIcern (hm.of (by decide)) _ hu)
    split
    · exact ih a1 (h1 t h)
    · split
      · exact ih _ h
      · split
        · exact ih _ h
        · exact ih a1 (k_sendMsg (hm.of (by decide)) _ (k_updPort (hm.of (by decide)) _ _ (k_updIcern (hm.of (by decide)) _ h)))

theorem k_pumpRequests {m : List Part} (hm : Within [.aon, .host, .hearth, .faults, .icern] m) {s t : State} (h : Keeps m s t) : Keeps m s (pumpRequests t) := by
  unfold pumpRequests
  try dsimp only
  repeat' first
    | with_reducible assumption
    | with_reducible apply k_pumpOver (hm.of (by decide))
    | with_reducible apply k_foldl
    | intro _
    | dsimp only
    | split

theorem k_sendRequest {m : List Part} (hm : Within [.aon, .host, .hearth, .faults, .icern] m) (a0 : Msg) (a1 : Nat) {s t : State} (h : Keeps m s t) : Keeps m s (sendRequest a0 a1 t) := by
  unfold sendRequest
  try dsimp only
  repeat' first
    | with_reducible assumption
    | with_reducible apply k_pumpRequests (hm.of (by decide))
    | with_reducible apply k_updIcern (hm.of (by decide))
    | with_reducible apply k_foldl
    | intro _
    | dsimp only
    | split

theorem k_requestAllOf {m : List Part} (hm : Within [.aon, .host, .hearth, .faults, .icern] m) (a0 : List Nat) (a1 : Nat → Msg) (a2 : Nat) {s t : State} (h : Keeps m s t) : Keeps m s (requestAllOf a0 a1 a2 t) := by
  unfold requestAllOf
  try dsimp only
  repeat' first
    | with_reducible assumption
    | with_reducible apply k_sendRequest (hm.of (by decide))
    | with_reducible apply k_foldl
    | intro _
    | dsimp only
    | split

theorem k_queueRefine {m : List Part} (hm : Within [.ptns] m) (a0 : Nat) (a1 : Nat) (a2 : Cmd) (a3 : Desc) {s t : State} (h : Keeps m s t) : Keeps m s (queueRefine a0 a1 a2 a3 t) := by
  unfold queueRefine
  try dsimp only
  repeat' first
    | with_reducible assumption
    | with_reducible apply k_updPtn (hm.of (by decide))
    | with_reducible apply k_queueChunk (hm.of (by decide))
    | with_reducible apply k_queueDescs (hm.of (by decide))
    | with_reducible apply k_foldl
    | intro _
    | dsimp only
    | split

theorem k_forwardCmd {m : List Part} (hm : Within [.aon, .host, .hearth, .faults, .icern] m) (a0 : Nat) {s t : State} (h : Keeps m s t) : Keeps m s (forwardCmd a0 t) := by
  unfold forwardCmd
  try dsimp only
  repeat' first
    | with_reducible assumption
    | with_reducible apply k_requestAllOf (hm.of (by decide))
    | with_reducible apply k_sendMsg (hm.of (by decide))
    | with_reducible apply k_sendRequest (hm.of (by decide))
    | with_reducible apply k_foldl
    | intro _
    | dsimp only
    | split

theorem k_serveAccess {m : List Part} (hm : Within [.aon, .host, .ptns, .hearth, .faults, .hbm, .poison, .free] m) (a0 : Nat) (a1 : MemAccess) {s t : State} (h : Keeps m s t) : Keeps m s (serveAccess a0 a1 t) := by
  unfold serveAccess
  try dsimp only
  repeat' first
    | with_reducible assumption
    | with_reducible apply k_answer (hm.of (by decide))
    | with_reducible apply k_cacheLines (hm.of (by decide))
    | with_reducible apply k_writePoisoned (hm.of (by decide))
    | with_reducible apply k_notePoison (hm.of (by decide))
    | with_reducible apply k_writeMem (hm.of (by decide))
    | with_reducible apply k_foldl
    | intro _
    | dsimp only
    | split

theorem k_batchReady {m : List Part} (hm : Within [.aon, .host, .colls, .cmds, .hearth, .faults, .icern] m) (a0 : Nat) {s t : State} (h : Keeps m s t) : Keeps m s (batchReady a0 t) := by
  unfold batchReady
  try dsimp only
  repeat' first
    | with_reducible assumption
    | with_reducible apply k_queueBatch (hm.of (by decide))
    | with_reducible apply k_updCmd (hm.of (by decide))
    | with_reducible apply k_sendMsg (hm.of (by decide))
    | with_reducible apply k_requestAllOf (hm.of (by decide))
    | with_reducible apply k_foldl
    | intro _
    | dsimp only
    | split

theorem k_enterFence {m : List Part} (hm : Within [.aon, .host, .ptns, .colls, .cmds, .hearth, .faults, .icern] m) (a0 : Nat) {s t : State} (h : Keeps m s t) : Keeps m s (enterFence a0 t) := by
  unfold enterFence
  try dsimp only
  repeat' first
    | with_reducible assumption
    | with_reducible apply k_updCmd (hm.of (by decide))
    | with_reducible apply k_batchReady (hm.of (by decide))
    | with_reducible apply k_askFence (hm.of (by decide))
    | with_reducible apply k_foldl
    | intro _
    | dsimp only
    | split

theorem k_batchAppended {m : List Part} (hm : Within [.aon, .host, .ptns, .ctxs, .colls, .cmds, .hearth, .faults, .icern] m) (a0 : Nat) {s t : State} (h : Keeps m s t) : Keeps m s (batchAppended a0 t) := by
  unfold batchAppended
  try dsimp only
  repeat' first
    | with_reducible assumption
    | with_reducible apply k_enterFence (hm.of (by decide))
    | with_reducible apply k_updJournal (hm.of (by decide))
    | with_reducible apply k_updCmd (hm.of (by decide))
    | with_reducible apply k_foldl
    | intro _
    | dsimp only
    | split

theorem k_copyChunk {m : List Part} (hm : Within [.host, .ptns, .ctxs, .colls, .hearth, .seamTok, .poison] m) (a0 : Nat) (a1 : Nat) {s t : State} (h : Keeps m s t) : Keeps m s (copyChunk a0 a1 t) := by
  unfold copyChunk
  try dsimp only
  repeat' first
    | with_reducible assumption
    | with_reducible apply k_copySlot (hm.of (by decide))
    | with_reducible apply k_engineMove (hm.of (by decide))
    | with_reducible apply k_widenLeaf (hm.of (by decide))
    | with_reducible apply k_updLeaf (hm.of (by decide))
    | with_reducible apply k_raise (hm.of (by decide))
    | with_reducible apply k_abandonTamp (hm.of (by decide))
    | with_reducible apply if_none
    | with_reducible apply if_some
    | with_reducible apply with_none
    | with_reducible apply with_some
    | with_reducible apply if_getD
    | with_reducible apply if_bind
    | with_reducible apply if_mapState
    | with_reducible apply if_bindWith
    | with_reducible apply if_mapWith
    | with_reducible apply if_foldl
    | with_reducible apply with_map
    | with_reducible apply if_map
    | with_reducible apply with_mapOpt
    | (with_reducible apply if_get; with_reducible assumption)
    | (with_reducible apply with_get; with_reducible assumption)
    | with_reducible apply k_foldl
    | intro _
    | dsimp only
    | split

theorem k_doAttest {m : List Part} (hm : Within [.host, .hearth, .free] m) (a0 : Nat) (a1 : Req) (a2 : ReadReply) {s t : State} (h : Keeps m s t) : Keeps m s (doAttest a0 a1 a2 t).1 := by
  unfold doAttest
  try dsimp only
  repeat' first
    | with_reducible assumption
    | with_reducible apply k_spdmEffects (hm.of (by decide))
    | with_reducible apply pair_foldl
    | (with_reducible apply pair_get; with_reducible assumption)
    | with_reducible apply k_foldl
    | intro _
    | dsimp only
    | split

theorem k_endJob {m : List Part} (hm : Within [.host, .ptns, .jobs, .ctxs, .colls, .cmds, .hearth, .hbm, .poison] m) (a0 : Nat) {s t : State} (h : Keeps m s t) : Keeps m s (endJob a0 t) := by
  unfold endJob
  try dsimp only
  repeat' first
    | with_reducible assumption
    | with_reducible apply k_removeCtx (hm.of (by decide))
    | with_reducible apply k_updHost (hm.of (by decide))
    | with_reducible apply k_goCold (hm.of (by decide))
    | with_reducible apply k_updPtn (hm.of (by decide))
    | with_reducible apply k_foldl
    | simp only [k_set_jobs_colls_cmds (hm.of (by decide))]
    | intro _
    | dsimp only
    | split

theorem k_stopAnvil {m : List Part} (hm : Within [.aon, .host, .ptns, .ctxs, .cmds, .hearth, .faults] m) (a0 : Nat) (a1 : Nat) (a2 : Nat) {s t : State} (h : Keeps m s t) : Keeps m s (stopAnvil a0 a1 a2 t) := by
  unfold stopAnvil
  try dsimp only
  repeat' first
    | with_reducible assumption
    | with_reducible apply k_postFault (hm.of (by decide))
    | with_reducible apply k_updAnvil (hm.of (by decide))
    | with_reducible apply k_chargeAnvil (hm.of (by decide))
    | with_reducible apply k_foldl
    | intro _
    | dsimp only
    | split

theorem k_execAttest {m : List Part} (hm : Within [.host, .hearth, .free] m) (a0 : Fin 4) {s t : State} (h : Keeps m s t) : Goes m s (execAttest a0 t) := by
  unfold execAttest
  try dsimp only
  repeat' first
    | with_reducible assumption
    | with_reducible apply k_mailbox (hm.of (by decide))
    | with_reducible apply k_doAttest (hm.of (by decide))
    | with_reducible apply HandlerKeeps.mk
    | with_reducible apply pair_foldl
    | (with_reducible apply pair_get; with_reducible assumption)
    | with_reducible apply goes_onlyIf
    | with_reducible apply goes_next
    | with_reducible apply k_foldl
    | intro _
    | dsimp only
    | split

theorem k_queueWaiting {m : List Part} (hm : Within [.aon, .host, .colls, .cmds, .hearth, .faults, .icern] m) (a0 : Nat) {s t : State} (h : Keeps m s t) : Keeps m s (queueWaiting a0 t) := by
  unfold queueWaiting
  try dsimp only
  repeat' first
    | with_reducible assumption
    | with_reducible apply k_batchReady (hm.of (by decide))
    | with_reducible apply k_foldl
    | intro _
    | dsimp only
    | split

theorem k_execCollCreate {m : List Part} (hm : Within [.host, .ptns, .colls, .hearth] m) (a0 : Fin 4) {s t : State} (h : Keeps m s t) : Goes m s (execCollCreate a0 t) := by
  unfold execCollCreate
  try dsimp only
  repeat' first
    | with_reducible assumption
    | with_reducible apply k_mailbox (hm.of (by decide))
    | with_reducible apply k_doCollCreate (hm.of (by decide))
    | with_reducible apply HandlerKeeps.mk
    | with_reducible apply pair_foldl
    | (with_reducible apply pair_get; with_reducible assumption)
    | with_reducible apply goes_onlyIf
    | with_reducible apply goes_next
    | with_reducible apply k_foldl
    | intro _
    | dsimp only
    | split

theorem k_execCtxDestroy {m : List Part} (hm : Within [.host, .ptns, .ctxs, .cmds, .hearth] m) (a0 : Fin 4) {s t : State} (h : Keeps m s t) : Goes m s (execCtxDestroy a0 t) := by
  unfold execCtxDestroy
  try dsimp only
  repeat' first
    | with_reducible assumption
    | with_reducible apply k_mailbox (hm.of (by decide))
    | with_reducible apply k_doCtxDestroy (hm.of (by decide))
    | with_reducible apply HandlerKeeps.mk
    | with_reducible apply pair_foldl
    | (with_reducible apply pair_get; with_reducible assumption)
    | with_reducible apply goes_onlyIf
    | with_reducible apply goes_next
    | with_reducible apply k_foldl
    | intro _
    | dsimp only
    | split

theorem k_fetchEntry {m : List Part} (hm : Within [.aon, .host, .hearth, .faults] m) (a0 : Nat) (a1 : ReadReply) {s t : State} (h : Keeps m s t) : Keeps m s (fetchEntry a0 a1 t) := by
  unfold fetchEntry
  try dsimp only
  repeat' first
    | with_reducible assumption
    | with_reducible apply k_updRing (hm.of (by decide))
    | with_reducible apply k_raise (hm.of (by decide))
    | with_reducible apply k_postFault (hm.of (by decide))
    | with_reducible apply k_noteAer (hm.of (by decide))
    | with_reducible apply k_foldl
    | intro _
    | dsimp only
    | split

theorem k_execEntryFetch {m : List Part} (hm : Within [.aon, .host, .hearth, .faults] m) (a0 : Fin 1024) (a1 : ReadReply) {s t : State} (h : Keeps m s t) : Goes m s (execEntryFetch a0 a1 t) := by
  unfold execEntryFetch
  try dsimp only
  repeat' first
    | with_reducible assumption
    | with_reducible apply k_fetchEntry (hm.of (by decide))
    | with_reducible apply goes_onlyIf
    | with_reducible apply goes_next
    | with_reducible apply k_foldl
    | intro _
    | dsimp only
    | split

theorem k_routeFlit {m : List Part} (hm : Within [.aon, .host, .hearth, .faults, .icern] m) (a0 : Nat) (a1 : Flit) {s t : State} (h : Keeps m s t) : Keeps m s (routeFlit a0 a1 t) := by
  unfold routeFlit
  try dsimp only
  repeat' first
    | with_reducible assumption
    | with_reducible apply k_startRx (hm.of (by decide))
    | with_reducible apply k_updPort (hm.of (by decide))
    | with_reducible apply k_takeResponse (hm.of (by decide))
    | with_reducible apply k_deliver (hm.of (by decide))
    | with_reducible apply k_queueFlits (hm.of (by decide))
    | with_reducible apply pair_foldl
    | (with_reducible apply pair_get; with_reducible assumption)
    | with_reducible apply k_foldl
    | intro _
    | dsimp only
    | split

theorem k_takeData {m : List Part} (hm : Within [.aon, .host, .hearth, .faults, .icern] m) (a0 : Nat) (a1 : Flit) {s t : State} (h : Keeps m s t) : Keeps m s (takeData a0 a1 t) := by
  unfold takeData
  try dsimp only
  repeat' first
    | with_reducible assumption
    | with_reducible apply k_updPort (hm.of (by decide))
    | with_reducible apply k_pumpRequests (hm.of (by decide))
    | with_reducible apply k_runPort (hm.of (by decide))
    | with_reducible apply k_routeFlit (hm.of (by decide))
    | with_reducible apply k_sendReplay (hm.of (by decide))
    | with_reducible apply k_foldl
    | intro _
    | dsimp only
    | split

theorem k_execFlitData {m : List Part} (hm : Within [.aon, .host, .hearth, .faults, .icern] m) (a0 : Fin 4) (a1 : Flit) {s t : State} (h : Keeps m s t) : Goes m s (execFlitData a0 a1 t) := by
  unfold execFlitData
  try dsimp only
  repeat' first
    | with_reducible assumption
    | with_reducible apply k_takeData (hm.of (by decide))
    | with_reducible apply goes_onlyIf
    | with_reducible apply goes_next
    | with_reducible apply k_foldl
    | intro _
    | dsimp only
    | split

theorem k_execFlitNull {m : List Part} (hm : Within [.aon, .host, .hearth, .faults, .icern] m) (a0 : Fin 4) (a1 : Flit) {s t : State} (h : Keeps m s t) : Goes m s (execFlitNull a0 a1 t) := by
  unfold execFlitNull
  try dsimp only
  repeat' first
    | with_reducible assumption
    | with_reducible apply k_pumpRequests (hm.of (by decide))
    | with_reducible apply k_runPort (hm.of (by decide))
    | with_reducible apply k_updPort (hm.of (by decide))
    | with_reducible apply goes_onlyIf
    | with_reducible apply goes_next
    | with_reducible apply k_foldl
    | intro _
    | dsimp only
    | split

theorem k_execHdmMap {m : List Part} (hm : Within [.host, .ptns, .hearth] m) (a0 : Fin 4) {s t : State} (h : Keeps m s t) : Goes m s (execHdmMap a0 t) := by
  unfold execHdmMap
  try dsimp only
  repeat' first
    | with_reducible assumption
    | with_reducible apply k_mailbox (hm.of (by decide))
    | with_reducible apply k_doHdmMap (hm.of (by decide))
    | with_reducible apply HandlerKeeps.mk
    | with_reducible apply pair_foldl
    | (with_reducible apply pair_get; with_reducible assumption)
    | with_reducible apply goes_onlyIf
    | with_reducible apply goes_next
    | with_reducible apply k_foldl
    | intro _
    | dsimp only
    | split

theorem k_refine {m : List Part} (hm : Within [.ptns, .cmds] m) (a0 : Nat) (a1 : Nat) (a2 : Nat) {s t : State} (h : Keeps m s t) : Keeps m s (refine a0 a1 a2 t) := by
  unfold refine
  try dsimp only
  repeat' first
    | with_reducible assumption
    | with_reducible apply k_updProbe (hm.of (by decide))
    | with_reducible apply k_updRow (hm.of (by decide))
    | with_reducible apply k_queueRefine (hm.of (by decide))
    | with_reducible apply k_foldl
    | intro _
    | dsimp only
    | split

theorem k_execRefineStart {m : List Part} (hm : Within [.ptns, .cmds] m) (a0 : Fin 12) (a1 : Nat) (a2 : Nat) {s t : State} (h : Keeps m s t) : Goes m s (execRefineStart a0 a1 a2 t) := by
  unfold execRefineStart
  try dsimp only
  repeat' first
    | with_reducible assumption
    | with_reducible apply k_refine (hm.of (by decide))
    | with_reducible apply goes_onlyIf
    | with_reducible apply goes_next
    | with_reducible apply k_foldl
    | intro _
    | dsimp only
    | split

theorem k_retrySpace {m : List Part} (hm : Within [.aon, .host, .ptns, .ctxs, .colls, .cmds, .hearth, .faults, .icern] m) (a0 : Nat) {s t : State} (h : Keeps m s t) : Keeps m s (retrySpace a0 t) := by
  unfold retrySpace
  try dsimp only
  repeat' first
    | with_reducible assumption
    | with_reducible apply k_endFlush (hm.of (by decide))
    | with_reducible apply k_batchAppended (hm.of (by decide))
    | with_reducible apply k_foldl
    | intro _
    | dsimp only
    | split

theorem k_takeReleased {m : List Part} (hm : Within [.aon, .host, .ptns, .ctxs, .colls, .cmds, .hearth, .faults, .icern] m) (a0 : Nat) (a1 : Nat) {s t : State} (h : Keeps m s t) : Keeps m s (takeReleased a0 a1 t) := by
  unfold takeReleased
  try dsimp only
  repeat' first
    | with_reducible assumption
    | with_reducible apply k_updJournal (hm.of (by decide))
    | with_reducible apply k_retrySpace (hm.of (by decide))
    | with_reducible apply k_raise (hm.of (by decide))
    | with_reducible apply k_foldl
    | intro _
    | dsimp only
    | split

theorem k_execScrubBurst {m : List Part} (hm : Within [.aon, .host, .ptns, .hearth, .faults, .hbm, .poison, .free] m) (a0 : BurstDone) {s t : State} (h : Keeps m s t) : Goes m s (execScrubBurst a0 t) := by
  unfold execScrubBurst
  try dsimp only
  repeat' first
    | with_reducible assumption
    | with_reducible apply k_scrubMany (hm.of (by decide))
    | with_reducible apply goes_onlyIf
    | with_reducible apply goes_next
    | with_reducible apply k_foldl
    | intro _
    | dsimp only
    | split

theorem k_spdmOver {m : List Part} (hm : Within [.host, .hearth, .free] m) (a0 : SpdmTransport) (a1 : SpdmKind) (a2 : List Byte) {s t : State} (h : Keeps m s t) : Keeps m s (spdmOver a0 a1 a2 t) := by
  unfold spdmOver
  try dsimp only
  repeat' first
    | with_reducible assumption
    | with_reducible apply k_answer (hm.of (by decide))
    | with_reducible apply k_spdmEffects (hm.of (by decide))
    | with_reducible apply k_foldl
    | intro _
    | dsimp only
    | split

theorem k_execSpdmMessage {m : List Part} (hm : Within [.host, .hearth, .free] m) (a0 : SpdmTransport) (a1 : SpdmKind) (a2 : List Byte) {s t : State} (h : Keeps m s t) : Goes m s (execSpdmMessage a0 a1 a2 t) := by
  unfold execSpdmMessage
  try dsimp only
  repeat' first
    | with_reducible assumption
    | with_reducible apply k_spdmOver (hm.of (by decide))
    | with_reducible apply goes_onlyIf
    | with_reducible apply goes_next
    | with_reducible apply k_foldl
    | intro _
    | dsimp only
    | split

theorem k_abortAll {m : List Part} (hm : Within [.aon, .host, .hearth, .faults, .icern] m) (a0 : Cmd) (a1 : Nat) (a2 : Nat) (a3 : Status) {s t : State} (h : Keeps m s t) : Keeps m s (abortAll a0 a1 a2 a3 t) := by
  unfold abortAll
  try dsimp only
  repeat' first
    | with_reducible assumption
    | with_reducible apply k_sendAll (hm.of (by decide))
    | with_reducible apply k_abandonRun (hm.of (by decide))
    | with_reducible apply k_foldl
    | intro _
    | dsimp only
    | split

theorem k_chargeStopped {m : List Part} (hm : Within [.ptns, .ctxs, .cmds] m) (a0 : Nat → Bool) {s t : State} (h : Keeps m s t) : Keeps m s (chargeStopped a0 t) := by
  unfold chargeStopped
  try dsimp only
  repeat' first
    | with_reducible assumption
    | with_reducible apply k_chargeWhere (hm.of (by decide))
    | with_reducible apply k_foldl
    | intro _
    | dsimp only
    | split

theorem k_endCopy {m : List Part} (hm : Within [.host, .ptns, .ctxs, .colls, .cmds, .hearth, .seamTok, .poison] m) (a0 : Nat) (a1 : Nat) {s t : State} (h : Keeps m s t) : Keeps m s (endCopy a0 a1 t) := by
  unfold endCopy
  try dsimp only
  repeat' first
    | with_reducible assumption
    | with_reducible apply k_freeAnvil (hm.of (by decide))
    | with_reducible apply k_copyChunk (hm.of (by decide))
    | with_reducible apply k_foldl
    | intro _
    | dsimp only
    | split

theorem k_dropWork {m : List Part} (hm : Within [.ptns, .ctxs, .cmds] m) (a0 : Nat → Bool) {s t : State} (h : Keeps m s t) : Keeps m s (dropWork a0 t) := by
  unfold dropWork
  try dsimp only
  repeat' first
    | with_reducible assumption
    | with_reducible apply k_chargeStopped (hm.of (by decide))
    | with_reducible apply k_foldl
    | simp only [k_set_ptns (hm.of (by decide))]
    | intro _
    | dsimp only
    | split

theorem k_dropPart {m : List Part} (hm : Within [.host, .ptns, .ctxs, .colls, .cmds, .icern] m) (a0 : Nat) {s t : State} (h : Keeps m s t) : Keeps m s (dropPart a0 t) := by
  unfold dropPart
  try dsimp only
  repeat' first
    | with_reducible assumption
    | with_reducible apply k_delCmd (hm.of (by decide))
    | with_reducible apply k_dropWork (hm.of (by decide))
    | with_reducible apply k_withdraw (hm.of (by decide))
    | with_reducible apply k_freeBufs (hm.of (by decide))
    | with_reducible apply k_freePools (hm.of (by decide))
    | with_reducible apply k_foldl
    | intro _
    | dsimp only
    | split

theorem k_accessMem {m : List Part} (hm : Within [.aon, .host, .ptns, .hearth, .faults, .seamTok, .hbm, .poison, .free] m) (a0 : Nat) (a1 : MemAccess) {s t : State} (h : Keeps m s t) : Keeps m s (accessMem a0 a1 t) := by
  unfold accessMem
  try dsimp only
  repeat' first
    | with_reducible assumption
    | with_reducible apply k_updLink (hm.of (by decide))
    | with_reducible apply k_answer (hm.of (by decide))
    | with_reducible apply k_unmappedAccess (hm.of (by decide))
    | with_reducible apply k_waitAccess (hm.of (by decide))
    | with_reducible apply k_demand (hm.of (by decide))
    | with_reducible apply k_takeIssue (hm.of (by decide))
    | with_reducible apply k_takeReceive (hm.of (by decide))
    | with_reducible apply k_serveAccess (hm.of (by decide))
    | with_reducible apply k_queueAccess (hm.of (by decide))
    | with_reducible apply if_none
    | with_reducible apply if_some
    | with_reducible apply with_none
    | with_reducible apply with_some
    | with_reducible apply if_getD
    | with_reducible apply if_bind
    | with_reducible apply if_mapState
    | with_reducible apply if_bindWith
    | with_reducible apply if_mapWith
    | with_reducible apply if_foldl
    | with_reducible apply with_map
    | with_reducible apply if_map
    | with_reducible apply with_mapOpt
    | (with_reducible apply if_get; with_reducible assumption)
    | (with_reducible apply with_get; with_reducible assumption)
    | with_reducible apply k_foldl
    | intro _
    | dsimp only
    | split

theorem k_vanish {m : List Part} (hm : Within [.aon, .host, .ptns, .ctxs, .colls, .cmds, .hearth, .faults, .icern] m) (a0 : Nat) {s t : State} (h : Keeps m s t) : Keeps m s (vanish a0 t) := by
  unfold vanish
  try dsimp only
  repeat' first
    | with_reducible assumption
    | with_reducible apply k_updCmd (hm.of (by decide))
    | with_reducible apply k_abortAll (hm.of (by decide))
    | with_reducible apply k_delCmd (hm.of (by decide))
    | with_reducible apply k_freeGranules (hm.of (by decide))
    | with_reducible apply k_freePools (hm.of (by decide))
    | with_reducible apply k_withdraw (hm.of (by decide))
    | with_reducible apply k_foldl
    | intro _
    | dsimp only
    | split

theorem k_loseWork {m : List Part} (hm : Within [.aon, .host, .ptns, .ctxs, .colls, .cmds, .hearth, .faults, .levels, .icern] m) {s t : State} (h : Keeps m s t) : Keeps m s (loseWork t) := by
  unfold loseWork
  try dsimp only
  repeat' first
    | with_reducible assumption
    | with_reducible apply k_postFault (hm.of (by decide))
    | with_reducible apply k_vanish (hm.of (by decide))
    | with_reducible apply k_dropWork (hm.of (by decide))
    | with_reducible apply k_endKills (hm.of (by decide))
    | with_reducible apply k_dropWrites (hm.of (by decide))
    | with_reducible apply k_errorRings (hm.of (by decide))
    | with_reducible apply k_foldl
    | simp only [k_set_ptns_ctxs (hm.of (by decide))]
    | intro _
    | dsimp only
    | split

theorem k_commitRec {m : List Part} (hm : Within [.ptns, .colls] m) (a0 : Nat) (a1 : Nat) (a2 : Epoch) (a3 : Rec) {s t : State} (h : Keeps m s t) : Keeps m s (commitRec a0 a1 a2 a3 t) := by
  unfold commitRec
  try dsimp only
  repeat' first
    | with_reducible assumption
    | with_reducible apply k_countTomb (hm.of (by decide))
    | with_reducible apply k_setKey (hm.of (by decide))
    | with_reducible apply k_commitSlot (hm.of (by decide))
    | with_reducible apply k_storeSparse (hm.of (by decide))
    | with_reducible apply k_recPostings (hm.of (by decide))
    | with_reducible apply if_none
    | with_reducible apply if_some
    | with_reducible apply with_none
    | with_reducible apply with_some
    | with_reducible apply if_getD
    | with_reducible apply if_bind
    | with_reducible apply if_mapState
    | with_reducible apply if_bindWith
    | with_reducible apply if_mapWith
    | with_reducible apply if_foldl
    | with_reducible apply with_map
    | with_reducible apply if_map
    | with_reducible apply with_mapOpt
    | (with_reducible apply if_get; with_reducible assumption)
    | (with_reducible apply with_get; with_reducible assumption)
    | with_reducible apply k_foldl
    | intro _
    | dsimp only
    | split

theorem k_commitNow {m : List Part} (hm : Within [.aon, .host, .ptns, .ctxs, .colls, .cmds, .hearth, .faults, .seamTok, .icern] m) (a0 : Nat) (a1 : Nat) (a2 : Cmd) {s t : State} (h : Keeps m s t) : Keeps m s (commitNow a0 a1 a2 t) := by
  unfold commitNow
  try dsimp only
  repeat' first
    | with_reducible assumption
    | with_reducible apply k_updCmd (hm.of (by decide))
    | with_reducible apply k_moveLines (hm.of (by decide))
    | with_reducible apply k_commitRec (hm.of (by decide))
    | with_reducible apply k_commitTombs (hm.of (by decide))
    | with_reducible apply k_updColl (hm.of (by decide))
    | with_reducible apply k_joinEpoch (hm.of (by decide))
    | with_reducible apply k_growDirectory (hm.of (by decide))
    | with_reducible apply k_noteFlush (hm.of (by decide))
    | with_reducible apply k_autoTrainNow (hm.of (by decide))
    | with_reducible apply k_afterCommit (hm.of (by decide))
    | with_reducible apply k_foldl
    | intro _
    | dsimp only
    | split

theorem k_serveWaits {m : List Part} (hm : Within [.aon, .host, .ptns, .hearth, .faults, .seamTok, .hbm, .poison, .free] m) (a0 : Nat) {s t : State} (h : Keeps m s t) : Keeps m s (serveWaits a0 t) := by
  unfold serveWaits
  try dsimp only
  repeat' first
    | with_reducible assumption
    | with_reducible apply k_updHost (hm.of (by decide))
    | with_reducible apply k_accessMem (hm.of (by decide))
    | with_reducible apply k_foldl
    | intro _
    | dsimp only
    | split

theorem k_endL2 {m : List Part} (hm : Within [.aon, .host, .ptns, .ctxs, .colls, .cmds, .hearth, .faults, .levels, .seamTok, .hbm, .poison, .free] m) (a0 : Nat) (a1 : FenceRec) {s t : State} (h : Keeps m s t) : Keeps m s (endL2 a0 a1 t) := by
  unfold endL2 emptied
  try dsimp only
  repeat' first
    | with_reducible assumption
    | with_reducible apply k_abandonTamps (hm.of (by decide))
    | with_reducible apply k_refreshCopies (hm.of (by decide))
    | with_reducible apply k_chargeWhere (hm.of (by decide))
    | with_reducible apply k_suspectIn (hm.of (by decide))
    | with_reducible apply k_ptnOut (hm.of (by decide))
    | with_reducible apply k_updPtn (hm.of (by decide))
    | with_reducible apply k_serveWaits (hm.of (by decide))
    | with_reducible apply k_resetRates (hm.of (by decide))
    | with_reducible apply k_ptnChange (hm.of (by decide))
    | with_reducible apply k_goCold (hm.of (by decide))
    | with_reducible apply k_endLevels (hm.of (by decide))
    | with_reducible apply k_foldl
    | intro _
    | dsimp only
    | split

theorem k_takePiece {m : List Part} (hm : Within [.host, .ptns, .ctxs, .colls, .cmds, .nextCmd, .icern] m) (a0 : Msg) {s t : State} (h : Keeps m s t) : Keeps m s (takePiece a0 t) := by
  unfold takePiece
  try dsimp only
  repeat' first
    | with_reducible assumption
    | with_reducible apply k_addCmd (hm.of (by decide))
    | with_reducible apply k_updCmd (hm.of (by decide))
    | with_reducible apply k_dropPart (hm.of (by decide))
    | with_reducible apply k_foldl
    | intro _
    | dsimp only
    | split

theorem k_execBulkData {m : List Part} (hm : Within [.aon, .host, .ptns, .ctxs, .colls, .cmds, .nextCmd, .hearth, .faults, .icern] m) (a0 : Nat) {s t : State} (h : Keeps m s t) : Goes m s (execBulkData a0 t) := by
  unfold execBulkData
  try dsimp only
  repeat' first
    | with_reducible assumption
    | with_reducible apply k_firewall (hm.of (by decide))
    | with_reducible apply k_dropMsg (hm.of (by decide))
    | with_reducible apply k_takePiece (hm.of (by decide))
    | with_reducible apply goes_onlyIf
    | with_reducible apply goes_next
    | with_reducible apply k_foldl
    | intro _
    | dsimp only
    | split

theorem k_execCxlMemAccess {m : List Part} (hm : Within [.aon, .host, .ptns, .hearth, .faults, .seamTok, .hbm, .poison, .free] m) (a0 : Nat) (a1 : MemAccess) {s t : State} (h : Keeps m s t) : Goes m s (execCxlMemAccess a0 a1 t) := by
  unfold execCxlMemAccess
  try dsimp only
  repeat' first
    | with_reducible assumption
    | with_reducible apply k_accessMem (hm.of (by decide))
    | with_reducible apply goes_onlyIf
    | with_reducible apply goes_next
    | with_reducible apply k_foldl
    | intro _
    | dsimp only
    | split

theorem k_leaveTo {m : List Part} (hm : Within [.aon, .host, .ptns, .colls, .hearth, .faults, .seamTok, .hbm, .poison, .free] m) (a0 : Nat) (a1 : Power) (a2 : List Nat) {s t : State} (h : Keeps m s t) : Keeps m s (leaveTo a0 a1 a2 t) := by
  unfold leaveTo
  try dsimp only
  repeat' first
    | with_reducible assumption
    | with_reducible apply k_updPtn (hm.of (by decide))
    | with_reducible apply k_serveWaits (hm.of (by decide))
    | with_reducible apply k_ptnChange (hm.of (by decide))
    | with_reducible apply k_refreshCopies (hm.of (by decide))
    | with_reducible apply k_foldl
    | intro _
    | dsimp only
    | split

theorem k_execExitDone {m : List Part} (hm : Within [.aon, .host, .ptns, .colls, .hearth, .faults, .seamTok, .hbm, .poison, .free] m) (a0 : Fin 12) (a1 : List Nat) {s t : State} (h : Keeps m s t) : Goes m s (execExitDone a0 a1 t) := by
  unfold execExitDone
  try dsimp only
  repeat' first
    | with_reducible assumption
    | with_reducible apply k_leaveTo (hm.of (by decide))
    | with_reducible apply goes_onlyIf
    | with_reducible apply goes_next
    | with_reducible apply k_foldl
    | intro _
    | dsimp only
    | split

theorem k_rootGone {m : List Part} (hm : Within [.host, .ptns, .ctxs, .colls, .cmds, .icern] m) (a0 : Nat) {s t : State} (h : Keeps m s t) : Keeps m s (rootGone a0 t) := by
  unfold rootGone
  try dsimp only
  repeat' first
    | with_reducible assumption
    | with_reducible apply k_dropPart (hm.of (by decide))
    | with_reducible apply k_foldl
    | intro _
    | dsimp only
    | split

theorem k_yieldRun {m : List Part} (hm : Within [.host, .ptns, .ctxs, .colls, .cmds, .icern] m) (a0 : Msg) {s t : State} (h : Keeps m s t) : KeepsIf m s (yieldRun a0 t) := by
  unfold yieldRun
  try dsimp only
  repeat' first
    | with_reducible assumption
    | with_reducible apply k_dropPart (hm.of (by decide))
    | with_reducible apply if_none
    | with_reducible apply if_some
    | with_reducible apply with_none
    | with_reducible apply with_some
    | with_reducible apply if_getD
    | with_reducible apply if_bind
    | with_reducible apply if_mapState
    | with_reducible apply if_bindWith
    | with_reducible apply if_mapWith
    | with_reducible apply if_foldl
    | with_reducible apply with_map
    | with_reducible apply if_map
    | with_reducible apply with_mapOpt
    | (with_reducible apply if_get; with_reducible assumption)
    | (with_reducible apply with_get; with_reducible assumption)
    | with_reducible apply k_foldl
    | intro _
    | dsimp only
    | split

theorem k_withdrawPart {m : List Part} (hm : Within [.host, .ptns, .ctxs, .colls, .cmds, .icern] m) (a0 : Msg) {s t : State} (h : Keeps m s t) : Keeps m s (withdrawPart a0 t) := by
  unfold withdrawPart
  try dsimp only
  repeat' first
    | with_reducible assumption
    | with_reducible apply k_dropPart (hm.of (by decide))
    | with_reducible apply k_foldl
    | intro _
    | dsimp only
    | split

theorem k_execInsertFwdWithdraw {m : List Part} (hm : Within [.aon, .host, .ptns, .ctxs, .colls, .cmds, .hearth, .faults, .icern] m) (a0 : Nat) {s t : State} (h : Keeps m s t) : Goes m s (execInsertFwdWithdraw a0 t) := by
  unfold execInsertFwdWithdraw
  try dsimp only
  repeat' first
    | with_reducible assumption
    | with_reducible apply k_withMsg (hm.of (by decide))
    | with_reducible apply k_withdrawPart (hm.of (by decide))
    | with_reducible apply k_firewall (hm.of (by decide))
    | with_reducible apply goes_onlyIf
    | with_reducible apply goes_next
    | with_reducible apply k_foldl
    | intro _
    | dsimp only
    | split

theorem k_execPartitionResetDone {m : List Part} (hm : Within [.aon, .host, .ptns, .ctxs, .colls, .cmds, .hearth, .faults, .levels, .seamTok, .hbm, .poison, .free] m) (a0 : Fin 12) {s t : State} (h : Keeps m s t) : Goes m s (execPartitionResetDone a0 t) := by
  unfold execPartitionResetDone
  try dsimp only
  repeat' first
    | with_reducible assumption
    | with_reducible apply k_endL2 (hm.of (by decide))
    | with_reducible apply goes_onlyIf
    | with_reducible apply goes_next
    | with_reducible apply k_foldl
    | intro _
    | dsimp only
    | split

theorem k_moveSlot {m : List Part} (hm : Within [.host, .ptns, .ctxs, .colls, .hearth, .seamTok, .poison] m) (a0 : Nat) (a1 : Epoch) (a2 : SlotRef × Slot) {s t : State} (h : Keeps m s t) : KeepsIf m s (moveSlot a0 a1 a2 t) := by
  unfold moveSlot
  try dsimp only
  repeat' first
    | with_reducible assumption
    | with_reducible apply k_appendTo (hm.of (by decide))
    | with_reducible apply k_prepareTomb (hm.of (by decide))
    | with_reducible apply k_moveLines (hm.of (by decide))
    | with_reducible apply k_moveKeys (hm.of (by decide))
    | with_reducible apply k_commitSlot (hm.of (by decide))
    | with_reducible apply k_countTomb (hm.of (by decide))
    | with_reducible apply k_movePostings (hm.of (by decide))
    | with_reducible apply k_carryPoison (hm.of (by decide))
    | with_reducible apply if_none
    | with_reducible apply if_some
    | with_reducible apply with_none
    | with_reducible apply with_some
    | with_reducible apply if_getD
    | with_reducible apply if_bind
    | with_reducible apply if_mapState
    | with_reducible apply if_bindWith
    | with_reducible apply if_mapWith
    | with_reducible apply if_foldl
    | with_reducible apply with_map
    | with_reducible apply if_map
    | with_reducible apply with_mapOpt
    | (with_reducible apply if_get; with_reducible assumption)
    | (with_reducible apply with_get; with_reducible assumption)
    | with_reducible apply k_foldl
    | intro _
    | dsimp only
    | split

theorem k_loseRoot {m : List Part} (hm : Within [.host, .ptns, .ctxs, .colls, .cmds, .icern] m) (a0 : Nat) {s t : State} (h : Keeps m s t) : Keeps m s (loseRoot a0 t) := by
  unfold loseRoot
  try dsimp only
  repeat' first
    | with_reducible assumption
    | with_reducible apply k_dropPart (hm.of (by decide))
    | with_reducible apply k_foldl
    | intro _
    | dsimp only
    | split

theorem k_execRootRouteLoss {m : List Part} (hm : Within [.host, .ptns, .ctxs, .colls, .cmds, .icern] m) (a0 : Nat) {s t : State} (h : Keeps m s t) : Goes m s (execRootRouteLoss a0 t) := by
  unfold execRootRouteLoss
  try dsimp only
  repeat' first
    | with_reducible assumption
    | with_reducible apply k_loseRoot (hm.of (by decide))
    | with_reducible apply goes_onlyIf
    | with_reducible apply goes_next
    | with_reducible apply k_foldl
    | intro _
    | dsimp only
    | split

theorem k_execTampCopy {m : List Part} (hm : Within [.host, .ptns, .ctxs, .colls, .cmds, .hearth, .seamTok, .poison] m) (a0 : Nat) (a1 : Nat) {s t : State} (h : Keeps m s t) : Goes m s (execTampCopy a0 a1 t) := by
  unfold execTampCopy
  try dsimp only
  repeat' first
    | with_reducible assumption
    | with_reducible apply k_endCopy (hm.of (by decide))
    | with_reducible apply goes_onlyIf
    | with_reducible apply goes_next
    | with_reducible apply k_foldl
    | intro _
    | dsimp only
    | split

theorem k_endCmd {m : List Part} (hm : Within [.aon, .host, .ptns, .ctxs, .colls, .cmds, .hearth, .faults, .icern] m) (a0 : Nat) (a1 : Status) (a2 : W32) {s t : State} (h : Keeps m s t) : Keeps m s (endCmd a0 a1 a2 t) := by
  unfold endCmd
  try dsimp only
  repeat' first
    | with_reducible assumption
    | with_reducible apply k_abortAll (hm.of (by decide))
    | with_reducible apply k_finish (hm.of (by decide))
    | with_reducible apply k_dropWork (hm.of (by decide))
    | with_reducible apply k_withdraw (hm.of (by decide))
    | with_reducible apply k_foldl
    | intro _
    | dsimp only
    | split

theorem k_failCmd {m : List Part} (hm : Within [.aon, .host, .ptns, .ctxs, .colls, .cmds, .hearth, .faults, .icern] m) (a0 : Nat) (a1 : Status) (a2 : W32) {s t : State} (h : Keeps m s t) : Keeps m s (failCmd a0 a1 a2 t) := by
  unfold failCmd
  try dsimp only
  repeat' first
    | with_reducible assumption
    | with_reducible apply k_endCmd (hm.of (by decide))
    | with_reducible apply k_foldl
    | intro _
    | dsimp only
    | split

theorem k_startExact {m : List Part} (hm : Within [.aon, .host, .ptns, .ctxs, .colls, .cmds, .hearth, .faults, .icern] m) (a0 : Nat) {s t : State} (h : Keeps m s t) : Keeps m s (startExact a0 t) := by
  unfold startExact
  try dsimp only
  repeat' first
    | with_reducible assumption
    | with_reducible apply k_updCmd (hm.of (by decide))
    | with_reducible apply k_failCmd (hm.of (by decide))
    | with_reducible apply k_queueChunk (hm.of (by decide))
    | with_reducible apply k_foldl
    | intro _
    | dsimp only
    | split

theorem k_afterPayload {m : List Part} (hm : Within [.aon, .host, .ptns, .ctxs, .colls, .cmds, .hearth, .faults, .icern] m) (a0 : Nat) {s t : State} (h : Keeps m s t) : Keeps m s (afterPayload a0 t) := by
  unfold afterPayload
  try dsimp only
  repeat' first
    | with_reducible assumption
    | with_reducible apply k_startExact (hm.of (by decide))
    | with_reducible apply k_foldl
    | intro _
    | dsimp only
    | split

theorem k_dropContext {m : List Part} (hm : Within [.aon, .host, .ptns, .ctxs, .colls, .cmds, .hearth, .faults, .icern, .hbm, .poison, .free] m) (a0 : Nat) (a1 : W32) (a2 : Option Nat) {s t : State} (h : Keeps m s t) : Keeps m s (dropContext a0 a1 a2 t) := by
  unfold dropContext
  try dsimp only
  repeat' first
    | with_reducible assumption
    | with_reducible apply k_failCmd (hm.of (by decide))
    | with_reducible apply k_releaseSemaphores (hm.of (by decide))
    | with_reducible apply k_chargeWhere (hm.of (by decide))
    | with_reducible apply k_updCtx (hm.of (by decide))
    | with_reducible apply k_foldl
    | simp only [k_set_ptns (hm.of (by decide))]
    | intro _
    | dsimp only
    | split

theorem k_allAppended {m : List Part} (hm : Within [.aon, .host, .ptns, .ctxs, .colls, .cmds, .hearth, .faults, .icern] m) (a0 : Nat) {s t : State} (h : Keeps m s t) : Keeps m s (allAppended a0 t) := by
  unfold allAppended
  try dsimp only
  repeat' first
    | with_reducible assumption
    | with_reducible apply k_updCmd (hm.of (by decide))
    | with_reducible apply k_failCmd (hm.of (by decide))
    | with_reducible apply k_batchAppended (hm.of (by decide))
    | with_reducible apply k_foldl
    | intro _
    | dsimp only
    | split

theorem k_hostFail {m : List Part} (hm : Within [.aon, .host, .ptns, .ctxs, .colls, .cmds, .hearth, .faults, .icern] m) (a0 : Nat) (a1 : Nat) (a2 : Nat) (a3 : Status) {s t : State} (h : Keeps m s t) : Keeps m s (hostFail a0 a1 a2 a3 t) := by
  unfold hostFail
  try dsimp only
  repeat' first
    | with_reducible assumption
    | with_reducible apply k_failCmd (hm.of (by decide))
    | with_reducible apply k_postFault (hm.of (by decide))
    | with_reducible apply k_noteAer (hm.of (by decide))
    | with_reducible apply k_foldl
    | intro _
    | dsimp only
    | split

theorem k_arrive {m : List Part} (hm : Within [.aon, .host, .ptns, .ctxs, .colls, .cmds, .hearth, .faults, .icern, .free] m) (a0 : Nat) (a1 : Nat) (a2 : Nat) (a3 : ReadReply) {s t : State} (h : Keeps m s t) : Keeps m s (arrive a0 a1 a2 a3 t) := by
  unfold arrive
  try dsimp only
  repeat' first
    | with_reducible assumption
    | with_reducible apply k_spend (hm.of (by decide))
    | with_reducible apply k_countOffers (hm.of (by decide))
    | with_reducible apply k_updRow (hm.of (by decide))
    | with_reducible apply k_hostFail (hm.of (by decide))
    | with_reducible apply k_notePoison (hm.of (by decide))
    | with_reducible apply k_foldl
    | intro _
    | dsimp only
    | split

theorem k_failAll {m : List Part} (hm : Within [.aon, .host, .ptns, .ctxs, .colls, .cmds, .hearth, .faults, .icern] m) (a0 : List Nat) (a1 : Status) (a2 : W32) {s t : State} (h : Keeps m s t) : Keeps m s (failAll a0 a1 a2 t) := by
  unfold failAll
  try dsimp only
  repeat' first
    | with_reducible assumption
    | with_reducible apply k_failCmd (hm.of (by decide))
    | with_reducible apply k_foldl
    | intro _
    | dsimp only
    | split

theorem k_takeIngest {m : List Part} (hm : Within [.aon, .host, .ptns, .ctxs, .colls, .cmds, .hearth, .faults, .icern] m) (a0 : Nat) (a1 : Option Nat) (a2 : List Byte) {s t : State} (h : Keeps m s t) : Keeps m s (takeIngest a0 a1 a2 t) := by
  unfold takeIngest
  try dsimp only
  repeat' first
    | with_reducible assumption
    | with_reducible apply k_updCmd (hm.of (by decide))
    | with_reducible apply k_failCmd (hm.of (by decide))
    | with_reducible apply k_forwardCmd (hm.of (by decide))
    | with_reducible apply k_queueChunk (hm.of (by decide))
    | with_reducible apply k_encodeAll (hm.of (by decide))
    | with_reducible apply k_foldl
    | intro _
    | dsimp only
    | split

theorem k_readBulk {m : List Part} (hm : Within [.aon, .host, .ptns, .ctxs, .colls, .cmds, .hearth, .faults, .seamTok, .icern] m) (a0 : Nat) (a1 : Cmd) (a2 : Option Nat) {s t : State} (h : Keeps m s t) : Keeps m s (readBulk a0 a1 a2 t) := by
  unfold readBulk
  try dsimp only
  repeat' first
    | with_reducible assumption
    | with_reducible apply k_takeIngest (hm.of (by decide))
    | with_reducible apply k_readAperture (hm.of (by decide))
    | with_reducible apply k_foldl
    | intro _
    | dsimp only
    | split

theorem k_descend {m : List Part} (hm : Within [.aon, .host, .ptns, .ctxs, .colls, .cmds, .hearth, .faults, .seamTok, .icern] m) (a0 : Nat) (a1 : Nat) {s t : State} (h : Keeps m s t) : Keeps m s (descend a0 a1 t) := by
  unfold descend
  try dsimp only
  repeat' first
    | with_reducible assumption
    | with_reducible apply k_failCmd (hm.of (by decide))
    | with_reducible apply k_updCmd (hm.of (by decide))
    | with_reducible apply k_updRow (hm.of (by decide))
    | with_reducible apply k_demand (hm.of (by decide))
    | with_reducible apply k_readStrata (hm.of (by decide))
    | with_reducible apply k_foldl
    | intro _
    | dsimp only
    | split

theorem k_peerFailed {m : List Part} (hm : Within [.aon, .host, .ptns, .ctxs, .colls, .cmds, .hearth, .faults, .icern] m) (a0 : Status) (a1 : W32) (a2 : List Nat) (a3 : Nat) {s t : State} (h : Keeps m s t) : Keeps m s (peerFailed a0 a1 a2 a3 t) := by
  unfold peerFailed
  try dsimp only
  repeat' first
    | with_reducible assumption
    | with_reducible apply k_lostCommit (hm.of (by decide))
    | with_reducible apply k_failCmd (hm.of (by decide))
    | with_reducible apply k_foldl
    | intro _
    | dsimp only
    | split

theorem k_restartExact {m : List Part} (hm : Within [.aon, .host, .ptns, .ctxs, .colls, .cmds, .hearth, .faults, .icern] m) {s t : State} (h : Keeps m s t) : Keeps m s (restartExact t) := by
  unfold restartExact
  try dsimp only
  repeat' first
    | with_reducible assumption
    | with_reducible apply k_startExact (hm.of (by decide))
    | with_reducible apply k_foldl
    | intro _
    | dsimp only
    | split

theorem k_poisonFault {m : List Part} (hm : Within [.aon, .host, .ptns, .ctxs, .colls, .cmds, .hearth, .faults, .icern] m) (a0 : Nat) (a1 : Nat) {s t : State} (h : Keeps m s t) : Keeps m s (poisonFault a0 a1 t) := by
  unfold poisonFault
  try dsimp only
  repeat' first
    | with_reducible assumption
    | with_reducible apply k_stopAnvil (hm.of (by decide))
    | with_reducible apply k_clearBinding (hm.of (by decide))
    | with_reducible apply k_failAll (hm.of (by decide))
    | with_reducible apply k_foldl
    | intro _
    | dsimp only
    | split

theorem k_execDescentEnd {m : List Part} (hm : Within [.aon, .host, .ptns, .ctxs, .colls, .cmds, .hearth, .faults, .seamTok, .icern] m) (a0 : Nat) (a1 : Nat) {s t : State} (h : Keeps m s t) : Goes m s (execDescentEnd a0 a1 t) := by
  unfold execDescentEnd
  try dsimp only
  repeat' first
    | with_reducible assumption
    | with_reducible apply k_descend (hm.of (by decide))
    | with_reducible apply goes_onlyIf
    | with_reducible apply goes_next
    | with_reducible apply k_foldl
    | intro _
    | dsimp only
    | split

theorem k_execDmaTimeout {m : List Part} (hm : Within [.aon, .host, .ptns, .ctxs, .colls, .cmds, .hearth, .faults, .icern] m) (a0 : Nat) {s t : State} (h : Keeps m s t) : Goes m s (execDmaTimeout a0 t) := by
  unfold execDmaTimeout
  try dsimp only
  repeat' first
    | with_reducible assumption
    | with_reducible apply k_hostFail (hm.of (by decide))
    | with_reducible apply goes_onlyIf
    | with_reducible apply goes_next
    | with_reducible apply k_foldl
    | intro _
    | dsimp only
    | split

theorem k_execFarRowArrive {m : List Part} (hm : Within [.aon, .host, .ptns, .ctxs, .colls, .cmds, .hearth, .faults, .icern, .free] m) (a0 : Nat) (a1 : Nat) (a2 : Nat) (a3 : ReadReply) {s t : State} (h : Keeps m s t) : Goes m s (execFarRowArrive a0 a1 a2 a3 t) := by
  unfold execFarRowArrive
  try dsimp only
  repeat' first
    | with_reducible assumption
    | with_reducible apply k_arrive (hm.of (by decide))
    | with_reducible apply goes_onlyIf
    | with_reducible apply goes_next
    | with_reducible apply k_foldl
    | intro _
    | dsimp only
    | split

theorem k_preparePart {m : List Part} (hm : Within [.aon, .host, .ptns, .ctxs, .colls, .cmds, .nextCmd, .hearth, .faults, .icern, .free] m) (a0 : Msg) (a1 : Nat) (a2 : Nat) (a3 : Nat) (a4 : List Byte) {s t : State} (h : Keeps m s t) : Keeps m s (preparePart a0 a1 a2 a3 a4 t) := by
  unfold preparePart
  try dsimp only
  repeat' first
    | with_reducible assumption
    | with_reducible apply k_spend (hm.of (by decide))
    | with_reducible apply k_refusePart (hm.of (by decide))
    | with_reducible apply k_takeIngest (hm.of (by decide))
    | with_reducible apply k_noteIngest (hm.of (by decide))
    | with_reducible apply k_demandAll (hm.of (by decide))
    | with_reducible apply k_addCmd (hm.of (by decide))
    | with_reducible apply k_foldl
    | intro _
    | dsimp only
    | split

theorem k_prepare {m : List Part} (hm : Within [.aon, .host, .ptns, .ctxs, .colls, .cmds, .nextCmd, .hearth, .faults, .icern, .free] m) (a0 : Msg) {s t : State} (h : Keeps m s t) : Keeps m s (prepare a0 t) := by
  unfold prepare
  try dsimp only
  repeat' first
    | with_reducible assumption
    | with_reducible apply k_dropPart (hm.of (by decide))
    | with_reducible apply k_yieldRun (hm.of (by decide))
    | with_reducible apply k_preparePart (hm.of (by decide))
    | with_reducible apply if_none
    | with_reducible apply if_some
    | with_reducible apply with_none
    | with_reducible apply with_some
    | with_reducible apply if_getD
    | with_reducible apply if_bind
    | with_reducible apply if_mapState
    | with_reducible apply if_bindWith
    | with_reducible apply if_mapWith
    | with_reducible apply if_foldl
    | with_reducible apply with_map
    | with_reducible apply if_map
    | with_reducible apply with_mapOpt
    | (with_reducible apply if_get; with_reducible assumption)
    | (with_reducible apply with_get; with_reducible assumption)
    | with_reducible apply k_foldl
    | intro _
    | dsimp only
    | split

theorem k_execInsertFwdPrepare {m : List Part} (hm : Within [.aon, .host, .ptns, .ctxs, .colls, .cmds, .nextCmd, .hearth, .faults, .icern, .free] m) (a0 : Nat) {s t : State} (h : Keeps m s t) : Goes m s (execInsertFwdPrepare a0 t) := by
  unfold execInsertFwdPrepare
  try dsimp only
  repeat' first
    | with_reducible assumption
    | with_reducible apply k_firewall (hm.of (by decide))
    | with_reducible apply k_dropMsg (hm.of (by decide))
    | with_reducible apply k_prepare (hm.of (by decide))
    | with_reducible apply goes_onlyIf
    | with_reducible apply goes_next
    | with_reducible apply k_foldl
    | intro _
    | dsimp only
    | split

theorem k_insertResponse {m : List Part} (hm : Within [.aon, .host, .ptns, .ctxs, .colls, .cmds, .hearth, .faults, .icern] m) (a0 : Msg) {s t : State} (h : Keeps m s t) : Keeps m s (insertResponse a0 t) := by
  unfold insertResponse
  try dsimp only
  repeat' first
    | with_reducible assumption
    | with_reducible apply k_tryFinish (hm.of (by decide))
    | with_reducible apply k_updCmd (hm.of (by decide))
    | with_reducible apply k_failCmd (hm.of (by decide))
    | with_reducible apply k_batchReady (hm.of (by decide))
    | with_reducible apply k_foldl
    | intro _
    | dsimp only
    | split

theorem k_execInsertFwdResponse {m : List Part} (hm : Within [.aon, .host, .ptns, .ctxs, .colls, .cmds, .hearth, .faults, .icern] m) (a0 : Nat) {s t : State} (h : Keeps m s t) : Goes m s (execInsertFwdResponse a0 t) := by
  unfold execInsertFwdResponse
  try dsimp only
  repeat' first
    | with_reducible assumption
    | with_reducible apply k_withMsg (hm.of (by decide))
    | with_reducible apply k_insertResponse (hm.of (by decide))
    | with_reducible apply goes_onlyIf
    | with_reducible apply goes_next
    | with_reducible apply k_foldl
    | intro _
    | dsimp only
    | split

theorem k_execJournalSpaceTimeout {m : List Part} (hm : Within [.aon, .host, .ptns, .ctxs, .colls, .cmds, .hearth, .faults, .icern] m) (a0 : Nat) {s t : State} (h : Keeps m s t) : Goes m s (execJournalSpaceTimeout a0 t) := by
  unfold execJournalSpaceTimeout
  try dsimp only
  repeat' first
    | with_reducible assumption
    | with_reducible apply k_failCmd (hm.of (by decide))
    | with_reducible apply goes_onlyIf
    | with_reducible apply goes_next
    | with_reducible apply k_foldl
    | intro _
    | dsimp only
    | split

theorem k_fencedReply {m : List Part} (hm : Within [.aon, .host, .ptns, .ctxs, .colls, .cmds, .hearth, .faults, .icern] m) (a0 : Nat) (a1 : Requester) {s t : State} (h : Keeps m s t) : Keeps m s (fencedReply a0 a1 t) := by
  unfold fencedReply
  try dsimp only
  repeat' first
    | with_reducible assumption
    | with_reducible apply k_failAll (hm.of (by decide))
    | with_reducible apply k_answer (hm.of (by decide))
    | with_reducible apply k_foldl
    | intro _
    | dsimp only
    | split

theorem k_failReread {m : List Part} (hm : Within [.aon, .host, .ptns, .ctxs, .colls, .cmds, .hearth, .faults, .icern] m) (a0 : Nat) (a1 : Nat) (a2 : Status) {s t : State} (h : Keeps m s t) : Keeps m s (failReread a0 a1 a2 t) := by
  unfold failReread
  try dsimp only
  repeat' first
    | with_reducible assumption
    | with_reducible apply k_breakJournal (hm.of (by decide))
    | with_reducible apply k_updJournal (hm.of (by decide))
    | with_reducible apply k_postFault (hm.of (by decide))
    | with_reducible apply k_failCmd (hm.of (by decide))
    | with_reducible apply k_updCmd (hm.of (by decide))
    | with_reducible apply k_foldl
    | intro _
    | dsimp only
    | split

theorem k_execReleasedReadDone {m : List Part} (hm : Within [.aon, .host, .ptns, .ctxs, .colls, .cmds, .hearth, .faults, .icern] m) (a0 : Nat) (a1 : ReadReply) {s t : State} (h : Keeps m s t) : Goes m s (execReleasedReadDone a0 a1 t) := by
  unfold execReleasedReadDone
  try dsimp only
  repeat' first
    | with_reducible assumption
    | with_reducible apply k_takeReleased (hm.of (by decide))
    | with_reducible apply k_failReread (hm.of (by decide))
    | with_reducible apply k_notePoison (hm.of (by decide))
    | with_reducible apply goes_onlyIf
    | with_reducible apply goes_next
    | with_reducible apply k_foldl
    | intro _
    | dsimp only
    | split

theorem k_execReleasedReadTimeout {m : List Part} (hm : Within [.aon, .host, .ptns, .ctxs, .colls, .cmds, .hearth, .faults, .icern] m) (a0 : Nat) {s t : State} (h : Keeps m s t) : Goes m s (execReleasedReadTimeout a0 t) := by
  unfold execReleasedReadTimeout
  try dsimp only
  repeat' first
    | with_reducible assumption
    | with_reducible apply k_failReread (hm.of (by decide))
    | with_reducible apply goes_onlyIf
    | with_reducible apply goes_next
    | with_reducible apply k_foldl
    | intro _
    | dsimp only
    | split

theorem k_opSelect {m : List Part} (hm : Within [.aon, .host, .ptns, .ctxs, .colls, .cmds, .hearth, .faults, .icern] m) (a0 : Nat) (a1 : Nat) (a2 : W128) {s t : State} (h : Keeps m s t) : Keeps m s (opSelect a0 a1 a2 t) := by
  unfold opSelect
  try dsimp only
  repeat' first
    | with_reducible assumption
    | with_reducible apply k_poisonFault (hm.of (by decide))
    | with_reducible apply k_countOffers (hm.of (by decide))
    | with_reducible apply k_stepDone (hm.of (by decide))
    | with_reducible apply k_updAnvil (hm.of (by decide))
    | with_reducible apply k_foldl
    | intro _
    | dsimp only
    | split

theorem k_execTrdyTimeout {m : List Part} (hm : Within [.aon, .host, .ptns, .ctxs, .colls, .cmds, .hearth, .faults, .icern] m) (a0 : DoorbellLimit) {s t : State} (h : Keeps m s t) : Goes m s (execTrdyTimeout a0 t) := by
  unfold execTrdyTimeout
  try dsimp only
  repeat' first
    | with_reducible assumption
    | with_reducible apply k_failCmd (hm.of (by decide))
    | with_reducible apply goes_onlyIf
    | with_reducible apply goes_next
    | with_reducible apply k_foldl
    | intro _
    | dsimp only
    | split

theorem k_fencedFar {m : List Part} (hm : Within [.aon, .host, .ptns, .ctxs, .colls, .cmds, .hearth, .faults, .icern] m) (a0 : Nat) (a1 : FarReq) {s t : State} (h : Keeps m s t) : Keeps m s (fencedFar a0 a1 t) := by
  unfold fencedFar
  try dsimp only
  repeat' first
    | with_reducible assumption
    | with_reducible apply k_unmappedAccess (hm.of (by decide))
    | with_reducible apply k_fencedReply (hm.of (by decide))
    | with_reducible apply k_foldl
    | intro _
    | dsimp only
    | split

theorem k_endDrain {m : List Part} (hm : Within [.aon, .host, .ptns, .ctxs, .colls, .cmds, .hearth, .faults, .icern] m) (a0 : Nat) {s t : State} (h : Keeps m s t) : Keeps m s (endDrain a0 t) := by
  unfold endDrain
  try dsimp only
  repeat' first
    | with_reducible assumption
    | with_reducible apply k_failAll (hm.of (by decide))
    | with_reducible apply k_fencedFar (hm.of (by decide))
    | with_reducible apply k_updPtn (hm.of (by decide))
    | with_reducible apply k_askFence (hm.of (by decide))
    | with_reducible apply k_foldl
    | intro _
    | dsimp only
    | split

theorem k_execDrainWindowEnd {m : List Part} (hm : Within [.aon, .host, .ptns, .ctxs, .colls, .cmds, .hearth, .faults, .icern] m) (a0 : Fin 12) {s t : State} (h : Keeps m s t) : Goes m s (execDrainWindowEnd a0 t) := by
  unfold execDrainWindowEnd
  try dsimp only
  repeat' first
    | with_reducible assumption
    | with_reducible apply k_endDrain (hm.of (by decide))
    | with_reducible apply goes_onlyIf
    | with_reducible apply goes_next
    | with_reducible apply k_foldl
    | intro _
    | dsimp only
    | split

theorem k_fenceForOos {m : List Part} (hm : Within [.aon, .host, .ptns, .hearth, .faults, .icern, .hbm, .poison] m) (a0 : Nat) {s t : State} (h : Keeps m s t) : Keeps m s (fenceForOos a0 t) := by
  unfold fenceForOos
  try dsimp only
  repeat' first
    | with_reducible assumption
    | with_reducible apply k_fenceTicketsOf (hm.of (by decide))
    | with_reducible apply k_ptnChange (hm.of (by decide))
    | with_reducible apply k_fenceNotices (hm.of (by decide))
    | with_reducible apply k_foldl
    | intro _
    | dsimp only
    | split

theorem k_judgeAll {m : List Part} (hm : Within [.host, .colls, .cmds, .hearth] m) (a0 : Nat) {s t : State} (h : Keeps m s t) : Keeps m s (judgeAll a0 t) := by
  unfold judgeAll
  try dsimp only
  repeat' first
    | with_reducible assumption
    | with_reducible apply k_judgeWindow (hm.of (by decide))
    | with_reducible apply k_foldl
    | intro _
    | dsimp only
    | split

theorem k_judgeFor {m : List Part} (hm : Within [.host, .colls, .cmds, .hearth] m) (a0 : Nat) {s t : State} (h : Keeps m s t) : Keeps m s (judgeFor a0 t) := by
  unfold judgeFor
  try dsimp only
  repeat' first
    | with_reducible assumption
    | with_reducible apply k_judgeAll (hm.of (by decide))
    | with_reducible apply k_foldl
    | intro _
    | dsimp only
    | split

theorem k_letIn {m : List Part} (hm : Within [.host, .ctxs, .cmds, .levels] m) (a0 : HostWrite) {s t : State} (h : Keeps m s t) : Keeps m s (letIn a0 t) := by
  unfold letIn
  try dsimp only
  repeat' first
    | with_reducible assumption
    | with_reducible apply k_enterWrite (hm.of (by decide))
    | with_reducible apply k_settleWaiters (hm.of (by decide))
    | with_reducible apply k_release (hm.of (by decide))
    | with_reducible apply k_foldl
    | intro _
    | dsimp only
    | split

theorem k_refillQueue {m : List Part} (hm : Within [.host, .ctxs, .cmds, .levels] m) (a0 : Nat) {s t : State} (h : Keeps m s t) : Keeps m s (refillQueue a0 t) := by
  induction a0 generalizing t with
  | zero => exact h
  | succ n ih =>
    unfold refillQueue
    split
    · split
      · exact ih (k_letIn (hm.of (by decide)) _ (k_updHost (hm.of (by decide)) _ h))
      · exact h
    · exact h

theorem k_queueRerank {m : List Part} (hm : Within [.ptns] m) (a0 : Nat) (a1 : Nat) (a2 : Cmd) {s t : State} (h : Keeps m s t) : Keeps m s (queueRerank a0 a1 a2 t) := by
  unfold queueRerank
  try dsimp only
  repeat' first
    | with_reducible assumption
    | with_reducible apply k_queueChunk (hm.of (by decide))
    | with_reducible apply k_queueDescs (hm.of (by decide))
    | with_reducible apply k_foldl
    | intro _
    | dsimp only
    | split

theorem k_dropParked {m : List Part} (hm : Within [.host, .ptns, .ctxs, .colls, .cmds, .icern] m) (a0 : Nat → Bool) {s t : State} (h : Keeps m s t) : Keeps m s (dropParked a0 t) := by
  unfold dropParked
  try dsimp only
  repeat' first
    | with_reducible assumption
    | with_reducible apply k_dropPart (hm.of (by decide))
    | with_reducible apply k_foldl
    | intro _
    | dsimp only
    | split

theorem k_dropStale {m : List Part} (hm : Within [.icern] m) (a0 : Msg) {s t : State} (h : Keeps m s t) : Keeps m s (dropStale a0 t) := by
  unfold dropStale
  try dsimp only
  repeat' first
    | with_reducible assumption
    | with_reducible apply k_dropMsg (hm.of (by decide))
    | with_reducible apply k_foldl
    | intro _
    | dsimp only
    | split

theorem k_writeCopies {m : List Part} (hm : Within [.ptns, .ctxs, .seamTok] m) (a0 : Nat) {s t : State} (h : Keeps m s t) : Keeps m s (writeCopies a0 t) := by
  unfold writeCopies
  try dsimp only
  repeat' first
    | with_reducible assumption
    | with_reducible apply k_moveLines (hm.of (by decide))
    | with_reducible apply k_foldl
    | intro _
    | dsimp only
    | split

theorem k_parkPart {m : List Part} (hm : Within [.host, .ptns, .ctxs, .colls, .cmds] m) (a0 : Nat) {s t : State} (h : Keeps m s t) : Keeps m s (parkPart a0 t) := by
  unfold parkPart
  try dsimp only
  repeat' first
    | with_reducible assumption
    | with_reducible apply k_dropWork (hm.of (by decide))
    | with_reducible apply k_withdraw (hm.of (by decide))
    | with_reducible apply k_updCmd (hm.of (by decide))
    | with_reducible apply k_delCmd (hm.of (by decide))
    | with_reducible apply k_foldl
    | intro _
    | dsimp only
    | split

theorem k_killAt {m : List Part} (hm : Within [.aon, .host, .ptns, .ctxs, .colls, .cmds, .hearth, .faults, .levels, .icern, .hbm, .poison, .free] m) (a0 : List (Nat × Nat)) (a1 : Nat) (a2 : W32) (a3 : Option Nat) {s t : State} (h : Keeps m s t) : Keeps m s (killAt a0 a1 a2 a3 t) := by
  unfold killAt
  try dsimp only
  repeat' first
    | with_reducible assumption
    | with_reducible apply k_endKills (hm.of (by decide))
    | with_reducible apply k_startWith (hm.of (by decide))
    | with_reducible apply k_dropContext (hm.of (by decide))
    | with_reducible apply k_foldl
    | intro _
    | dsimp only
    | split

theorem k_bankForOos {m : List Part} (hm : Within [.aon, .host, .ptns, .hearth, .faults, .hbm, .poison, .free] m) (a0 : Nat) {s t : State} (h : Keeps m s t) : Keeps m s (bankForOos a0 t) := by
  unfold bankForOos
  try dsimp only
  repeat' first
    | with_reducible assumption
    | with_reducible apply k_updPtn (hm.of (by decide))
    | with_reducible apply k_flushLine (hm.of (by decide))
    | with_reducible apply k_foldl
    | intro _
    | dsimp only
    | split

theorem k_drainChannel {m : List Part} (hm : Within [.aon, .host, .ptns, .hearth, .faults, .hbm, .poison, .free] m) (a0 : Nat) (a1 : Nat) (a2 : Nat) {s t : State} (h : Keeps m s t) : Keeps m s (drainChannel a0 a1 a2 t) := by
  induction a0 generalizing t with
  | zero => exact h
  | succ n ih =>
    unfold drainChannel
    split
    · split
      · exact ih (k_flushLine (hm.of (by decide)) _ _ _ h)
      · exact h
    · exact h

theorem k_postBytes {m : List Part} (hm : Within [.host] m) (a0 : Nat) (a1 : List Byte) {s t : State} (h : Keeps m s t) : Keeps m s (postBytes a0 a1 t) := by
  unfold postBytes
  try dsimp only
  repeat' first
    | with_reducible assumption
    | with_reducible apply k_postWrite (hm.of (by decide))
    | with_reducible apply k_foldl
    | intro _
    | dsimp only
    | split

theorem k_startRows {m : List Part} (hm : Within [.aon, .host, .cmds, .hearth, .faults, .icern, .free] m) (a0 : Nat) (a1 : List Byte) (a2 : List (List F32 × List (Nat × Bf16))) {s t : State} (h : Keeps m s t) : Keeps m s (startRows a0 a1 a2 t) := by
  unfold startRows
  try dsimp only
  repeat' first
    | with_reducible assumption
    | with_reducible apply k_updCmd (hm.of (by decide))
    | with_reducible apply k_forwardCmd (hm.of (by decide))
    | with_reducible apply k_spend (hm.of (by decide))
    | with_reducible apply k_foldl
    | intro _
    | dsimp only
    | split

theorem k_queueDescent {m : List Part} (hm : Within [.ptns, .cmds] m) (a0 : Nat) (a1 : Nat) (a2 : Cmd) {s t : State} (h : Keeps m s t) : Keeps m s (queueDescent a0 a1 a2 t) := by
  unfold queueDescent
  try dsimp only
  repeat' first
    | with_reducible assumption
    | with_reducible apply k_updRow (hm.of (by decide))
    | with_reducible apply k_queueChunk (hm.of (by decide))
    | with_reducible apply k_queueDescs (hm.of (by decide))
    | with_reducible apply k_foldl
    | intro _
    | dsimp only
    | split

theorem k_queueDescents {m : List Part} (hm : Within [.ptns, .cmds] m) (a0 : Nat) {s t : State} (h : Keeps m s t) : Keeps m s (queueDescents a0 t) := by
  unfold queueDescents
  try dsimp only
  repeat' first
    | with_reducible assumption
    | with_reducible apply k_queueDescent (hm.of (by decide))
    | with_reducible apply k_foldl
    | intro _
    | dsimp only
    | split

theorem k_acceptWrite {m : List Part} (hm : Within [.host, .ctxs, .cmds, .levels] m) {s t : State} (h : Keeps m s t) : Keeps m s (acceptWrite t) := by
  unfold acceptWrite
  try dsimp only
  repeat' first
    | with_reducible assumption
    | with_reducible apply k_updLink (hm.of (by decide))
    | with_reducible apply k_refillQueue (hm.of (by decide))
    | with_reducible apply k_updHost (hm.of (by decide))
    | with_reducible apply k_foldl
    | intro _
    | dsimp only
    | split

theorem k_closeEpoch {m : List Part} (hm : Within [.host, .ptns, .ctxs, .colls, .cmds, .levels, .seamTok] m) (a0 : Nat) {s t : State} (h : Keeps m s t) : Keeps m s (closeEpoch a0 t) := by
  unfold closeEpoch
  try dsimp only
  repeat' first
    | with_reducible assumption
    | with_reducible apply k_writeCopies (hm.of (by decide))
    | with_reducible apply k_updColl (hm.of (by decide))
    | with_reducible apply k_settleWaiters (hm.of (by decide))
    | with_reducible apply k_finishCommitted (hm.of (by decide))
    | with_reducible apply k_foldl
    | intro _
    | dsimp only
    | split

theorem k_doMarginRun {m : List Part} (hm : Within [.host, .ptns, .hearth, .hbm, .poison] m) (a0 : List Nat) (a1 : Nat) (a2 : Req) (a3 : ReadReply) {s t : State} (h : Keeps m s t) : Keeps m s (doMarginRun a0 a1 a2 a3 t).1 := by
  unfold doMarginRun
  try dsimp only
  repeat' first
    | with_reducible assumption
    | with_reducible apply k_startTest (hm.of (by decide))
    | with_reducible apply k_writeTest (hm.of (by decide))
    | with_reducible apply k_postBytes (hm.of (by decide))
    | with_reducible apply pair_foldl
    | (with_reducible apply pair_get; with_reducible assumption)
    | with_reducible apply k_foldl
    | intro _
    | dsimp only
    | split

theorem k_doSummary {m : List Part} (hm : Within [.host, .hearth] m) (a0 : Nat) (a1 : Req) (a2 : ReadReply) {s t : State} (h : Keeps m s t) : Keeps m s (doSummary a0 a1 a2 t).1 := by
  unfold doSummary
  try dsimp only
  repeat' first
    | with_reducible assumption
    | with_reducible apply k_updHearth (hm.of (by decide))
    | with_reducible apply k_postBytes (hm.of (by decide))
    | with_reducible apply pair_foldl
    | (with_reducible apply pair_get; with_reducible assumption)
    | with_reducible apply k_foldl
    | intro _
    | dsimp only
    | split

theorem k_makeJob {m : List Part} (hm : Within [.aon, .host, .ptns, .jobs, .hearth, .faults, .icern] m) (a0 : Req) {s t : State} (h : Keeps m s t) : Keeps m s (makeJob a0 t) := by
  unfold makeJob
  try dsimp only
  repeat' first
    | with_reducible assumption
    | with_reducible apply k_takePtn (hm.of (by decide))
    | with_reducible apply k_sendProbes (hm.of (by decide))
    | with_reducible apply k_foldl
    | simp only [k_set_jobs (hm.of (by decide))]
    | intro _
    | dsimp only
    | split

theorem k_execCompletionWrite {m : List Part} (hm : Within [.aon, .host, .ctxs, .colls, .cmds, .hearth, .faults, .levels, .icern, .free] m) (a0 : Nat) (a1 : Nat) {s t : State} (h : Keeps m s t) : Goes m s (execCompletionWrite a0 a1 t) := by
  unfold execCompletionWrite
  try dsimp only
  repeat' first
    | with_reducible assumption
    | with_reducible apply k_writeOut (hm.of (by decide))
    | with_reducible apply k_judgeFor (hm.of (by decide))
    | with_reducible apply goes_onlyIf
    | with_reducible apply goes_next
    | with_reducible apply k_foldl
    | intro _
    | dsimp only
    | split

theorem k_execEpochClose {m : List Part} (hm : Within [.host, .ptns, .ctxs, .colls, .cmds, .levels, .seamTok] m) (a0 : Nat) {s t : State} (h : Keeps m s t) : Goes m s (execEpochClose a0 t) := by
  unfold execEpochClose
  try dsimp only
  repeat' first
    | with_reducible assumption
    | with_reducible apply k_closeEpoch (hm.of (by decide))
    | with_reducible apply goes_onlyIf
    | with_reducible apply goes_next
    | with_reducible apply k_foldl
    | intro _
    | dsimp only
    | split

theorem k_serveReq {m : List Part} (hm : Within [.aon, .host, .ptns, .ctxs, .hearth, .faults, .hbm, .poison, .free] m) (a0 : Requester) (a1 : HomeReq) {s t : State} (h : Keeps m s t) : Keeps m s (serveReq a0 a1 t) := by
  unfold serveReq
  try dsimp only
  repeat' first
    | with_reducible assumption
    | with_reducible apply k_countTurn (hm.of (by decide))
    | with_reducible apply k_countBytes (hm.of (by decide))
    | with_reducible apply k_drainChannel (hm.of (by decide))
    | with_reducible apply k_updAnvil (hm.of (by decide))
    | with_reducible apply k_acceptStore (hm.of (by decide))
    | with_reducible apply k_cacheLines (hm.of (by decide))
    | with_reducible apply k_answer (hm.of (by decide))
    | with_reducible apply k_writeMem (hm.of (by decide))
    | with_reducible apply k_foldl
    | intro _
    | dsimp only
    | split

theorem k_startFar {m : List Part} (hm : Within [.ptns, .cmds] m) (a0 : Nat) {s t : State} (h : Keeps m s t) : Keeps m s (startFar a0 t) := by
  unfold startFar
  try dsimp only
  repeat' first
    | with_reducible assumption
    | with_reducible apply k_startFarRows (hm.of (by decide))
    | with_reducible apply k_queueRerank (hm.of (by decide))
    | with_reducible apply k_foldl
    | intro _
    | dsimp only
    | split

theorem k_execFarRerankStart {m : List Part} (hm : Within [.ptns, .cmds] m) (a0 : Nat) {s t : State} (h : Keeps m s t) : Goes m s (execFarRerankStart a0 t) := by
  unfold execFarRerankStart
  try dsimp only
  repeat' first
    | with_reducible assumption
    | with_reducible apply k_startFar (hm.of (by decide))
    | with_reducible apply goes_onlyIf
    | with_reducible apply goes_next
    | with_reducible apply k_foldl
    | intro _
    | dsimp only
    | split

theorem k_execHostWriteAccept {m : List Part} (hm : Within [.host, .ctxs, .cmds, .levels] m) {s t : State} (h : Keeps m s t) : Goes m s (execHostWriteAccept t) := by
  unfold execHostWriteAccept
  try dsimp only
  repeat' first
    | with_reducible assumption
    | with_reducible apply k_acceptWrite (hm.of (by decide))
    | with_reducible apply goes_onlyIf
    | with_reducible apply goes_next
    | with_reducible apply k_foldl
    | intro _
    | dsimp only
    | split

theorem k_fuse {m : List Part} (hm : Within [.ptns, .cmds] m) (a0 : Nat) (a1 : Nat) (a2 : Nat) {s t : State} (h : Keeps m s t) : Keeps m s (fuse a0 a1 a2 t) := by
  unfold fuse
  try dsimp only
  repeat' first
    | with_reducible assumption
    | with_reducible apply k_queueRefine (hm.of (by decide))
    | with_reducible apply k_updProbe (hm.of (by decide))
    | with_reducible apply k_updRow (hm.of (by decide))
    | with_reducible apply k_foldl
    | intro _
    | dsimp only
    | split

theorem k_execHybridFusion {m : List Part} (hm : Within [.ptns, .cmds] m) (a0 : Fin 12) (a1 : Nat) (a2 : Nat) {s t : State} (h : Keeps m s t) : Goes m s (execHybridFusion a0 a1 a2 t) := by
  unfold execHybridFusion
  try dsimp only
  repeat' first
    | with_reducible assumption
    | with_reducible apply k_fuse (hm.of (by decide))
    | with_reducible apply goes_onlyIf
    | with_reducible apply goes_next
    | with_reducible apply k_foldl
    | intro _
    | dsimp only
    | split

theorem k_execMarginRun {m : List Part} (hm : Within [.host, .ptns, .hearth, .hbm, .poison] m) (a0 : Fin 4) (a1 : List Nat) {s t : State} (h : Keeps m s t) : Goes m s (execMarginRun a0 a1 t) := by
  unfold execMarginRun
  try dsimp only
  repeat' first
    | with_reducible assumption
    | with_reducible apply k_mailboxWith (hm.of (by decide))
    | with_reducible apply k_doMarginRun (hm.of (by decide))
    | with_reducible apply HandlerKeeps.mk
    | with_reducible apply pair_foldl
    | (with_reducible apply pair_get; with_reducible assumption)
    | with_reducible apply goes_onlyIf
    | with_reducible apply goes_next
    | with_reducible apply k_foldl
    | intro _
    | dsimp only
    | split

theorem k_execSummary {m : List Part} (hm : Within [.host, .hearth] m) (a0 : Fin 4) {s t : State} (h : Keeps m s t) : Goes m s (execSummary a0 t) := by
  unfold execSummary
  try dsimp only
  repeat' first
    | with_reducible assumption
    | with_reducible apply k_mailbox (hm.of (by decide))
    | with_reducible apply k_doSummary (hm.of (by decide))
    | with_reducible apply HandlerKeeps.mk
    | with_reducible apply pair_foldl
    | (with_reducible apply pair_get; with_reducible assumption)
    | with_reducible apply goes_onlyIf
    | with_reducible apply goes_next
    | with_reducible apply k_foldl
    | intro _
    | dsimp only
    | split

theorem k_setHorizon {m : List Part} (hm : Within [.ptns, .ctxs, .colls, .seamTok] m) (a0 : Nat) (a1 : Epoch) {s t : State} (h : Keeps m s t) : Keeps m s (setHorizon a0 a1 t) := by
  unfold setHorizon
  try dsimp only
  repeat' first
    | with_reducible assumption
    | with_reducible apply k_writeCopies (hm.of (by decide))
    | with_reducible apply k_settleLog (hm.of (by decide))
    | with_reducible apply k_updColl (hm.of (by decide))
    | with_reducible apply k_foldl
    | intro _
    | dsimp only
    | split

theorem k_liftHorizon {m : List Part} (hm : Within [.ptns, .ctxs, .colls, .seamTok] m) (a0 : Nat) {s t : State} (h : Keeps m s t) : Keeps m s (liftHorizon a0 t) := by
  unfold liftHorizon
  try dsimp only
  repeat' first
    | with_reducible assumption
    | with_reducible apply k_setHorizon (hm.of (by decide))
    | with_reducible apply k_foldl
    | intro _
    | dsimp only
    | split

theorem k_liftHorizons {m : List Part} (hm : Within [.ptns, .ctxs, .colls, .seamTok] m) {s t : State} (h : Keeps m s t) : Keeps m s (liftHorizons t) := by
  unfold liftHorizons
  try dsimp only
  repeat' first
    | with_reducible assumption
    | with_reducible apply k_liftHorizon (hm.of (by decide))
    | with_reducible apply k_foldl
    | intro _
    | dsimp only
    | split

theorem k_finishExport {m : List Part} (hm : Within [.host, .cmds] m) (a0 : Nat) (a1 : Nat) (a2 : Nat) {s t : State} (h : Keeps m s t) : Keeps m s (finishExport a0 a1 a2 t) := by
  unfold finishExport
  try dsimp only
  repeat' first
    | with_reducible assumption
    | with_reducible apply k_updCmd (hm.of (by decide))
    | with_reducible apply k_postBytes (hm.of (by decide))
    | with_reducible apply k_foldl
    | intro _
    | dsimp only
    | split

theorem k_execHorizonAdvance {m : List Part} (hm : Within [.ptns, .ctxs, .colls, .seamTok] m) (a0 : Nat) (a1 : Epoch) {s t : State} (h : Keeps m s t) : Goes m s (execHorizonAdvance a0 a1 t) := by
  unfold execHorizonAdvance
  try dsimp only
  repeat' first
    | with_reducible assumption
    | with_reducible apply k_setHorizon (hm.of (by decide))
    | with_reducible apply goes_onlyIf
    | with_reducible apply goes_next
    | with_reducible apply k_foldl
    | intro _
    | dsimp only
    | split

theorem k_farRequest {m : List Part} (hm : Within [.aon, .host, .ptns, .ctxs, .hearth, .faults, .seamTok, .hbm, .poison, .free] m) (a0 : Nat) (a1 : HomeReq) (a2 : Requester) {s t : State} (h : Keeps m s t) : Keeps m s (farRequest a0 a1 a2 t) := by
  unfold farRequest
  try dsimp only
  repeat' first
    | with_reducible assumption
    | with_reducible apply k_takeIssue (hm.of (by decide))
    | with_reducible apply k_noteIssueWait (hm.of (by decide))
    | with_reducible apply k_takeReceive (hm.of (by decide))
    | with_reducible apply k_serveReq (hm.of (by decide))
    | with_reducible apply k_queueFar (hm.of (by decide))
    | with_reducible apply k_noteReceiveWait (hm.of (by decide))
    | with_reducible apply if_none
    | with_reducible apply if_some
    | with_reducible apply with_none
    | with_reducible apply with_some
    | with_reducible apply if_getD
    | with_reducible apply if_bind
    | with_reducible apply if_mapState
    | with_reducible apply if_bindWith
    | with_reducible apply if_mapWith
    | with_reducible apply if_foldl
    | with_reducible apply with_map
    | with_reducible apply if_map
    | with_reducible apply with_mapOpt
    | (with_reducible apply if_get; with_reducible assumption)
    | (with_reducible apply with_get; with_reducible assumption)
    | with_reducible apply k_foldl
    | intro _
    | dsimp only
    | split

theorem k_serveQueued {m : List Part} (hm : Within [.aon, .host, .ptns, .ctxs, .hearth, .faults, .hbm, .poison, .free] m) (a0 : FarReq) {s t : State} (h : Keeps m s t) : Keeps m s (serveQueued a0 t) := by
  unfold serveQueued
  try dsimp only
  repeat' first
    | with_reducible assumption
    | with_reducible apply k_serveAccess (hm.of (by decide))
    | with_reducible apply k_serveReq (hm.of (by decide))
    | with_reducible apply k_foldl
    | intro _
    | dsimp only
    | split

theorem k_endTrainStep {m : List Part} (hm : Within [.aon, .host, .ptns, .ctxs, .colls, .cmds, .hearth, .faults, .icern] m) (a0 : Nat) {s t : State} (h : Keeps m s t) : Keeps m s (endTrainStep a0 t) := by
  unfold endTrainStep
  try dsimp only
  repeat' first
    | with_reducible assumption
    | with_reducible apply k_failTrain (hm.of (by decide))
    | with_reducible apply k_poisonFault (hm.of (by decide))
    | with_reducible apply k_freeAnvil (hm.of (by decide))
    | with_reducible apply k_updColl (hm.of (by decide))
    | with_reducible apply k_foldl
    | intro _
    | dsimp only
    | split

theorem k_commitTamp {m : List Part} (hm : Within [.host, .ptns, .ctxs, .colls, .hearth, .seamTok] m) (a0 : Nat) (a1 : Nat) {s t : State} (h : Keeps m s t) : Keeps m s (commitTamp a0 a1 t) := by
  unfold commitTamp
  try dsimp only
  repeat' first
    | with_reducible assumption
    | with_reducible apply k_tombMoved (hm.of (by decide))
    | with_reducible apply k_movePostings (hm.of (by decide))
    | with_reducible apply k_liftHorizons (hm.of (by decide))
    | with_reducible apply k_moveLines (hm.of (by decide))
    | with_reducible apply k_setSettled (hm.of (by decide))
    | with_reducible apply k_addTomb (hm.of (by decide))
    | with_reducible apply k_moveKeys (hm.of (by decide))
    | with_reducible apply k_commitTombs (hm.of (by decide))
    | with_reducible apply k_joinEpoch (hm.of (by decide))
    | with_reducible apply k_updLeaf (hm.of (by decide))
    | with_reducible apply if_none
    | with_reducible apply if_some
    | with_reducible apply with_none
    | with_reducible apply with_some
    | with_reducible apply if_getD
    | with_reducible apply if_bind
    | with_reducible apply if_mapState
    | with_reducible apply if_bindWith
    | with_reducible apply if_mapWith
    | with_reducible apply if_foldl
    | with_reducible apply with_map
    | with_reducible apply if_map
    | with_reducible apply with_mapOpt
    | (with_reducible apply if_get; with_reducible assumption)
    | (with_reducible apply with_get; with_reducible assumption)
    | with_reducible apply k_foldl
    | intro _
    | dsimp only
    | split

theorem k_serveFar {m : List Part} (hm : Within [.aon, .host, .ptns, .ctxs, .hearth, .faults, .seamTok, .hbm, .poison, .free] m) (a0 : Nat) {s t : State} (h : Keeps m s t) : Keeps m s (serveFar a0 t) := by
  unfold serveFar
  try dsimp only
  repeat' first
    | with_reducible assumption
    | with_reducible apply k_takeReceive (hm.of (by decide))
    | with_reducible apply k_setAtomHead (hm.of (by decide))
    | with_reducible apply k_updPtn (hm.of (by decide))
    | with_reducible apply k_serveQueued (hm.of (by decide))
    | with_reducible apply k_serveWaits (hm.of (by decide))
    | with_reducible apply if_none
    | with_reducible apply if_some
    | with_reducible apply with_none
    | with_reducible apply with_some
    | with_reducible apply if_getD
    | with_reducible apply if_bind
    | with_reducible apply if_mapState
    | with_reducible apply if_bindWith
    | with_reducible apply if_mapWith
    | with_reducible apply if_foldl
    | with_reducible apply with_map
    | with_reducible apply if_map
    | with_reducible apply with_mapOpt
    | (with_reducible apply if_get; with_reducible assumption)
    | (with_reducible apply with_get; with_reducible assumption)
    | with_reducible apply k_foldl
    | intro _
    | dsimp only
    | split

theorem k_execFarQueueServe {m : List Part} (hm : Within [.aon, .host, .ptns, .ctxs, .hearth, .faults, .seamTok, .hbm, .poison, .free] m) (a0 : Fin 12) {s t : State} (h : Keeps m s t) : Goes m s (execFarQueueServe a0 t) := by
  unfold execFarQueueServe
  try dsimp only
  repeat' first
    | with_reducible assumption
    | with_reducible apply k_serveFar (hm.of (by decide))
    | with_reducible apply goes_onlyIf
    | with_reducible apply goes_next
    | with_reducible apply k_foldl
    | intro _
    | dsimp only
    | split

theorem k_redistribute {m : List Part} (hm : Within [.host, .ptns, .ctxs, .colls, .hearth, .seamTok, .poison] m) (a0 : Nat) (a1 : Nat) {s t : State} (h : Keeps m s t) : Keeps m s (redistribute a0 a1 t) := by
  unfold redistribute
  try dsimp only
  repeat' first
    | with_reducible assumption
    | with_reducible apply k_moveSlot (hm.of (by decide))
    | with_reducible apply k_liftHorizons (hm.of (by decide))
    | with_reducible apply k_joinEpoch (hm.of (by decide))
    | with_reducible apply k_commitTombs (hm.of (by decide))
    | with_reducible apply if_none
    | with_reducible apply if_some
    | with_reducible apply with_none
    | with_reducible apply with_some
    | with_reducible apply if_getD
    | with_reducible apply if_bind
    | with_reducible apply if_mapState
    | with_reducible apply if_bindWith
    | with_reducible apply if_mapWith
    | with_reducible apply if_foldl
    | with_reducible apply with_map
    | with_reducible apply if_map
    | with_reducible apply with_mapOpt
    | (with_reducible apply if_get; with_reducible assumption)
    | (with_reducible apply with_get; with_reducible assumption)
    | with_reducible apply k_foldl
    | intro _
    | dsimp only
    | split

theorem k_execTampCommit {m : List Part} (hm : Within [.host, .ptns, .ctxs, .colls, .hearth, .seamTok] m) (a0 : Nat) (a1 : Nat) {s t : State} (h : Keeps m s t) : Goes m s (execTampCommit a0 a1 t) := by
  unfold execTampCommit
  try dsimp only
  repeat' first
    | with_reducible assumption
    | with_reducible apply k_commitTamp (hm.of (by decide))
    | with_reducible apply goes_onlyIf
    | with_reducible apply goes_next
    | with_reducible apply k_foldl
    | intro _
    | dsimp only
    | split

theorem k_execTrainChunk {m : List Part} (hm : Within [.aon, .host, .ptns, .ctxs, .colls, .cmds, .hearth, .faults, .icern] m) (a0 : Nat) {s t : State} (h : Keeps m s t) : Goes m s (execTrainChunk a0 t) := by
  unfold execTrainChunk
  try dsimp only
  repeat' first
    | with_reducible assumption
    | with_reducible apply k_endTrainStep (hm.of (by decide))
    | with_reducible apply goes_onlyIf
    | with_reducible apply goes_next
    | with_reducible apply k_foldl
    | intro _
    | dsimp only
    | split

theorem k_endMove {m : List Part} (hm : Within [.host, .ptns, .ctxs, .colls, .cmds, .hearth, .seamTok, .poison] m) (a0 : Nat) (a1 : Nat) {s t : State} (h : Keeps m s t) : Keeps m s (endMove a0 a1 t) := by
  unfold endMove
  try dsimp only
  repeat' first
    | with_reducible assumption
    | with_reducible apply k_freeAnvil (hm.of (by decide))
    | with_reducible apply k_redistribute (hm.of (by decide))
    | with_reducible apply k_foldl
    | intro _
    | dsimp only
    | split

theorem k_killCmd {m : List Part} (hm : Within [.aon, .host, .ptns, .ctxs, .colls, .cmds, .hearth, .faults, .icern, .free] m) (a0 : Nat) {s t : State} (h : Keeps m s t) : Keeps m s (killCmd a0 t) := by
  unfold killCmd
  try dsimp only
  repeat' first
    | with_reducible assumption
    | with_reducible apply k_parkPart (hm.of (by decide))
    | with_reducible apply k_sendMsg (hm.of (by decide))
    | with_reducible apply k_failCmd (hm.of (by decide))
    | with_reducible apply k_dropWork (hm.of (by decide))
    | with_reducible apply k_withdraw (hm.of (by decide))
    | with_reducible apply k_abortAll (hm.of (by decide))
    | with_reducible apply k_updCmd (hm.of (by decide))
    | with_reducible apply k_forwardCmd (hm.of (by decide))
    | with_reducible apply k_requeueChunk (hm.of (by decide))
    | with_reducible apply k_spend (hm.of (by decide))
    | with_reducible apply k_foldl
    | intro _
    | dsimp only
    | split

theorem k_abortPart {m : List Part} (hm : Within [.aon, .host, .ptns, .ctxs, .colls, .cmds, .hearth, .faults, .icern, .free] m) (a0 : Msg) {s t : State} (h : Keeps m s t) : Keeps m s (abortPart a0 t) := by
  unfold abortPart
  try dsimp only
  repeat' first
    | with_reducible assumption
    | with_reducible apply k_noteAbort (hm.of (by decide))
    | with_reducible apply k_parkPart (hm.of (by decide))
    | with_reducible apply k_dropPart (hm.of (by decide))
    | with_reducible apply k_killCmd (hm.of (by decide))
    | with_reducible apply k_failCmd (hm.of (by decide))
    | with_reducible apply k_foldl
    | intro _
    | dsimp only
    | split

theorem k_killForReset {m : List Part} (hm : Within [.aon, .host, .ptns, .ctxs, .colls, .cmds, .hearth, .faults, .levels, .icern, .hbm, .poison, .free] m) (a0 : Nat) (a1 : Nat) (a2 : W32) {s t : State} (h : Keeps m s t) : Keeps m s (killForReset a0 a1 a2 t) := by
  unfold killForReset
  try dsimp only
  repeat' first
    | with_reducible assumption
    | with_reducible apply k_killAt (hm.of (by decide))
    | with_reducible apply k_foldl
    | intro _
    | dsimp only
    | split

theorem k_fenceWritten {m : List Part} (hm : Within [.aon, .host, .ptns, .ctxs, .colls, .cmds, .hearth, .faults, .levels, .icern, .hbm, .poison, .free] m) (a0 : Nat) {s t : State} (h : Keeps m s t) : Keeps m s (fenceWritten a0 t) := by
  unfold fenceWritten
  try dsimp only
  repeat' first
    | with_reducible assumption
    | with_reducible apply k_ptnChange (hm.of (by decide))
    | with_reducible apply k_updPtn (hm.of (by decide))
    | with_reducible apply k_killForReset (hm.of (by decide))
    | with_reducible apply k_flushLine (hm.of (by decide))
    | with_reducible apply k_foldl
    | intro _
    | dsimp only
    | split

theorem k_afterWcFence {m : List Part} (hm : Within [.aon, .host, .ptns, .ctxs, .colls, .cmds, .hearth, .faults, .levels, .icern, .hbm, .poison, .free] m) (a0 : Nat) (a1 : FenceFor) {s t : State} (h : Keeps m s t) : Keeps m s (afterWcFence a0 a1 t) := by
  unfold afterWcFence
  try dsimp only
  repeat' first
    | with_reducible assumption
    | with_reducible apply k_batchReady (hm.of (by decide))
    | with_reducible apply k_fenceWritten (hm.of (by decide))
    | with_reducible apply k_updPtn (hm.of (by decide))
    | with_reducible apply k_foldl
    | intro _
    | dsimp only
    | split

theorem k_completeFence {m : List Part} (hm : Within [.aon, .host, .ptns, .ctxs, .colls, .cmds, .hearth, .faults, .levels, .icern, .hbm, .poison, .free] m) (a0 : Nat) (a1 : List (Nat × Nat)) {s t : State} (h : Keeps m s t) : Keeps m s (completeFence a0 a1 t) := by
  unfold completeFence
  try dsimp only
  repeat' first
    | with_reducible assumption
    | with_reducible apply k_flushLine (hm.of (by decide))
    | with_reducible apply k_afterWcFence (hm.of (by decide))
    | with_reducible apply k_updPtn (hm.of (by decide))
    | with_reducible apply k_foldl
    | intro _
    | dsimp only
    | split

theorem k_killContext {m : List Part} (hm : Within [.aon, .host, .ptns, .ctxs, .colls, .cmds, .hearth, .faults, .levels, .icern, .hbm, .poison, .free] m) (a0 : Nat) (a1 : W32) (a2 : Option Nat) {s t : State} (h : Keeps m s t) : Keeps m s (killContext a0 a1 a2 t) := by
  unfold killContext
  try dsimp only
  repeat' first
    | with_reducible assumption
    | with_reducible apply k_killAt (hm.of (by decide))
    | with_reducible apply k_foldl
    | intro _
    | dsimp only
    | split

theorem k_doJobEnd {m : List Part} (hm : Within [.aon, .host, .ptns, .jobs, .ctxs, .colls, .cmds, .hearth, .faults, .levels, .icern, .hbm, .poison, .free] m) (a0 : Nat) (a1 : Req) (a2 : ReadReply) {s t : State} (h : Keeps m s t) : Keeps m s (doJobEnd a0 a1 a2 t).1 := by
  unfold doJobEnd
  try dsimp only
  repeat' first
    | with_reducible assumption
    | with_reducible apply k_guardM (Within.nil m)
    | with_reducible apply k_updJob (hm.of (by decide))
    | with_reducible apply k_killContext (hm.of (by decide))
    | with_reducible apply k_endJob (hm.of (by decide))
    | with_reducible apply pair_foldl
    | (with_reducible apply pair_get; with_reducible assumption)
    | with_reducible apply k_foldl
    | intro _
    | dsimp only
    | split

theorem k_startL1 {m : List Part} (hm : Within [.aon, .host, .ptns, .ctxs, .colls, .cmds, .hearth, .faults, .levels, .icern, .free] m) (a0 : Nat) (a1 : Nat) {s t : State} (h : Keeps m s t) : Keeps m s (startL1 a0 a1 t) := by
  unfold startL1
  try dsimp only
  repeat' first
    | with_reducible assumption
    | with_reducible apply k_freeRow (hm.of (by decide))
    | with_reducible apply k_killCmd (hm.of (by decide))
    | with_reducible apply k_startLevel (hm.of (by decide))
    | with_reducible apply k_foldl
    | intro _
    | dsimp only
    | split

theorem k_engineFault {m : List Part} (hm : Within [.aon, .host, .ptns, .ctxs, .colls, .cmds, .hearth, .faults, .levels, .icern, .free] m) (a0 : Nat) (a1 : Nat) (a2 : W32) {s t : State} (h : Keeps m s t) : Keeps m s (engineFault a0 a1 a2 t) := by
  unfold engineFault
  try dsimp only
  repeat' first
    | with_reducible assumption
    | with_reducible apply k_startL2 (hm.of (by decide))
    | with_reducible apply k_startL1 (hm.of (by decide))
    | with_reducible apply k_foldl
    | intro _
    | dsimp only
    | split

theorem k_execAbort {m : List Part} (hm : Within [.aon, .host, .ptns, .ctxs, .colls, .cmds, .hearth, .faults, .icern, .free] m) (a0 : Nat) {s t : State} (h : Keeps m s t) : Goes m s (execAbort a0 t) := by
  unfold execAbort
  try dsimp only
  repeat' first
    | with_reducible assumption
    | with_reducible apply k_withMsg (hm.of (by decide))
    | with_reducible apply k_abortPart (hm.of (by decide))
    | with_reducible apply k_dropStale (hm.of (by decide))
    | with_reducible apply goes_onlyIf
    | with_reducible apply goes_next
    | with_reducible apply k_foldl
    | intro _
    | dsimp only
    | split

theorem k_startL0 {m : List Part} (hm : Within [.aon, .host, .ptns, .ctxs, .colls, .cmds, .hearth, .faults, .levels, .icern, .hbm, .poison, .free] m) (a0 : Nat) (a1 : W32) (a2 : Option Nat) {s t : State} (h : Keeps m s t) : Keeps m s (startL0 a0 a1 a2 t) := by
  unfold startL0
  try dsimp only
  repeat' first
    | with_reducible assumption
    | with_reducible apply k_killContext (hm.of (by decide))
    | with_reducible apply k_foldl
    | intro _
    | dsimp only
    | split

theorem k_refuseAccess {m : List Part} (hm : Within [.aon, .host, .ptns, .ctxs, .colls, .cmds, .hearth, .faults, .levels, .icern, .hbm, .poison, .free] m) (a0 : Nat) (a1 : Nat) {s t : State} (h : Keeps m s t) : Keeps m s (refuseAccess a0 a1 t) := by
  unfold refuseAccess
  try dsimp only
  repeat' first
    | with_reducible assumption
    | with_reducible apply k_startL0 (hm.of (by decide))
    | with_reducible apply k_postFault (hm.of (by decide))
    | with_reducible apply k_foldl
    | intro _
    | dsimp only
    | split

theorem k_performAtom {m : List Part} (hm : Within [.aon, .host, .ptns, .ctxs, .colls, .cmds, .hearth, .faults, .levels, .icern, .hbm, .poison, .free] m) (a0 : Nat) (a1 : AtomReq) {s t : State} (h : Keeps m s t) : Keeps m s (performAtom a0 a1 t) := by
  unfold performAtom
  try dsimp only
  repeat' first
    | with_reducible assumption
    | with_reducible apply k_returnOld (hm.of (by decide))
    | with_reducible apply k_refuseAccess (hm.of (by decide))
    | with_reducible apply k_failAll (hm.of (by decide))
    | with_reducible apply k_lockLine (hm.of (by decide))
    | with_reducible apply k_writeMem (hm.of (by decide))
    | with_reducible apply k_noteHolder (hm.of (by decide))
    | with_reducible apply k_foldl
    | intro _
    | dsimp only
    | split

theorem k_homeAtomic {m : List Part} (hm : Within [.aon, .host, .ptns, .ctxs, .colls, .cmds, .hearth, .faults, .levels, .seamTok, .icern, .hbm, .poison, .free] m) (a0 : Nat) (a1 : Nat) {s t : State} (h : Keeps m s t) : Keeps m s (homeAtomic a0 a1 t) := by
  unfold homeAtomic
  try dsimp only
  repeat' first
    | with_reducible assumption
    | with_reducible apply k_failAll (hm.of (by decide))
    | with_reducible apply k_returnOld (hm.of (by decide))
    | with_reducible apply k_updPtn (hm.of (by decide))
    | with_reducible apply k_performAtom (hm.of (by decide))
    | with_reducible apply k_issueAtom (hm.of (by decide))
    | with_reducible apply k_noteReceiveWait (hm.of (by decide))
    | with_reducible apply k_setAtomHead (hm.of (by decide))
    | with_reducible apply k_takeReceive (hm.of (by decide))
    | with_reducible apply if_none
    | with_reducible apply if_some
    | with_reducible apply with_none
    | with_reducible apply with_some
    | with_reducible apply if_getD
    | with_reducible apply if_bind
    | with_reducible apply if_mapState
    | with_reducible apply if_bindWith
    | with_reducible apply if_mapWith
    | with_reducible apply if_foldl
    | with_reducible apply with_map
    | with_reducible apply if_map
    | with_reducible apply with_mapOpt
    | (with_reducible apply if_get; with_reducible assumption)
    | (with_reducible apply with_get; with_reducible assumption)
    | with_reducible apply pair_foldl
    | (with_reducible apply pair_get; with_reducible assumption)
    | with_reducible apply k_foldl
    | intro _
    | dsimp only
    | split

theorem k_execAdd32 {m : List Part} (hm : Within [.aon, .host, .ptns, .ctxs, .colls, .cmds, .hearth, .faults, .levels, .seamTok, .icern, .hbm, .poison, .free] m) (a0 : Fin 12) {s t : State} (h : Keeps m s t) : Goes m s (execAdd32 a0 t) := by
  unfold execAdd32
  try dsimp only
  repeat' first
    | with_reducible assumption
    | with_reducible apply k_homeAtomic (hm.of (by decide))
    | with_reducible apply goes_onlyIf
    | with_reducible apply goes_next
    | with_reducible apply k_foldl
    | intro _
    | dsimp only
    | split

theorem k_execAdd64 {m : List Part} (hm : Within [.aon, .host, .ptns, .ctxs, .colls, .cmds, .hearth, .faults, .levels, .seamTok, .icern, .hbm, .poison, .free] m) (a0 : Fin 12) {s t : State} (h : Keeps m s t) : Goes m s (execAdd64 a0 t) := by
  unfold execAdd64
  try dsimp only
  repeat' first
    | with_reducible assumption
    | with_reducible apply k_homeAtomic (hm.of (by decide))
    | with_reducible apply goes_onlyIf
    | with_reducible apply goes_next
    | with_reducible apply k_foldl
    | intro _
    | dsimp only
    | split

theorem k_loseRoutes {m : List Part} (hm : Within [.aon, .host, .ptns, .ctxs, .colls, .cmds, .hearth, .faults, .icern] m) (a0 : W32) {s t : State} (h : Keeps m s t) : Keeps m s (loseRoutes a0 t) := by
  unfold loseRoutes
  try dsimp only
  repeat' first
    | with_reducible assumption
    | with_reducible apply k_dropParked (hm.of (by decide))
    | with_reducible apply k_peerFailed (hm.of (by decide))
    | with_reducible apply k_foldl
    | intro _
    | dsimp only
    | split

theorem k_portDown {m : List Part} (hm : Within [.aon, .host, .ptns, .ctxs, .colls, .cmds, .hearth, .faults, .icern] m) (a0 : Nat) (a1 : Nat) {s t : State} (h : Keeps m s t) : Keeps m s (portDown a0 a1 t) := by
  unfold portDown
  try dsimp only
  repeat' first
    | with_reducible assumption
    | with_reducible apply k_pumpRequests (hm.of (by decide))
    | with_reducible apply k_loseRoutes (hm.of (by decide))
    | with_reducible apply k_cutPort (hm.of (by decide))
    | with_reducible apply k_foldl
    | intro _
    | dsimp only
    | split

theorem k_execAlignmentLoss {m : List Part} (hm : Within [.aon, .host, .ptns, .ctxs, .colls, .cmds, .hearth, .faults, .icern] m) (a0 : Fin 4) {s t : State} (h : Keeps m s t) : Goes m s (execAlignmentLoss a0 t) := by
  unfold execAlignmentLoss
  try dsimp only
  repeat' first
    | with_reducible assumption
    | with_reducible apply k_portDown (hm.of (by decide))
    | with_reducible apply goes_onlyIf
    | with_reducible apply goes_next
    | with_reducible apply k_foldl
    | intro _
    | dsimp only
    | split

theorem k_execAndOp {m : List Part} (hm : Within [.aon, .host, .ptns, .ctxs, .colls, .cmds, .hearth, .faults, .levels, .seamTok, .icern, .hbm, .poison, .free] m) (a0 : Fin 12) {s t : State} (h : Keeps m s t) : Goes m s (execAndOp a0 t) := by
  unfold execAndOp
  try dsimp only
  repeat' first
    | with_reducible assumption
    | with_reducible apply k_homeAtomic (hm.of (by decide))
    | with_reducible apply goes_onlyIf
    | with_reducible apply goes_next
    | with_reducible apply k_foldl
    | intro _
    | dsimp only
    | split

theorem k_killHere {m : List Part} (hm : Within [.aon, .host, .ptns, .ctxs, .colls, .cmds, .hearth, .faults, .icern, .free] m) (a0 : Nat) (a1 : Nat) {s t : State} (h : Keeps m s t) : Keeps m s (killHere a0 a1 t) := by
  unfold killHere
  try dsimp only
  repeat' first
    | with_reducible assumption
    | with_reducible apply k_killCmd (hm.of (by decide))
    | with_reducible apply k_foldl
    | intro _
    | dsimp only
    | split

theorem k_requestAnvil {m : List Part} (hm : Within [.aon, .host, .ptns, .ctxs, .colls, .cmds, .hearth, .faults, .icern, .free] m) (a0 : Nat) (a1 : Nat) {s t : State} (h : Keeps m s t) : Keeps m s (requestAnvil a0 a1 t) := by
  unfold requestAnvil
  try dsimp only
  repeat' first
    | with_reducible assumption
    | with_reducible apply k_killHere (hm.of (by decide))
    | with_reducible apply k_updAnvil (hm.of (by decide))
    | with_reducible apply k_foldl
    | intro _
    | dsimp only
    | split

theorem k_takeAnvil {m : List Part} (hm : Within [.aon, .host, .ptns, .ctxs, .colls, .cmds, .hearth, .faults, .icern, .free] m) (a0 : Nat) (a1 : Nat) {s t : State} (h : Keeps m s t) : Keeps m s (takeAnvil a0 a1 t) := by
  unfold takeAnvil
  try dsimp only
  repeat' first
    | with_reducible assumption
    | with_reducible apply k_requestAnvil (hm.of (by decide))
    | with_reducible apply k_foldl
    | intro _
    | dsimp only
    | split

theorem k_spFault {m : List Part} (hm : Within [.aon, .host, .ptns, .ctxs, .colls, .cmds, .hearth, .faults, .icern, .free] m) (a0 : Nat) (a1 : Nat) {s t : State} (h : Keeps m s t) : Keeps m s (spFault a0 a1 t) := by
  unfold spFault
  try dsimp only
  repeat' first
    | with_reducible assumption
    | with_reducible apply k_stopAnvil (hm.of (by decide))
    | with_reducible apply k_updPtn (hm.of (by decide))
    | with_reducible apply k_updAnvil (hm.of (by decide))
    | with_reducible apply k_returnChunk (hm.of (by decide))
    | with_reducible apply k_updCmd (hm.of (by decide))
    | with_reducible apply k_killCmd (hm.of (by decide))
    | with_reducible apply k_clearBinding (hm.of (by decide))
    | with_reducible apply k_foldl
    | intro _
    | dsimp only
    | split

theorem k_readingOp {m : List Part} (hm : Within [.aon, .host, .ptns, .ctxs, .colls, .cmds, .hearth, .faults, .icern, .free] m) (a0 : Nat) (a1 : Nat) (a2 : Nat) (a3 : Bool) (a4 : Anvil → W128 → List (Nat × Nat)) (a5 : SpRead) (a6 : W128 → State → State) {s t : State} (h : Keeps m s t) (g6 : ∀ x u, Keeps m s u → Keeps m s (a6 x u)) : Keeps m s (readingOp a0 a1 a2 a3 a4 a5 a6 t) := by
  unfold readingOp
  try dsimp only
  repeat' first
    | with_reducible assumption
    | with_reducible apply k_runOp (hm.of (by decide))
    | with_reducible apply k_waitFor (hm.of (by decide))
    | with_reducible apply k_spFault (hm.of (by decide))
    | with_reducible apply k_updAnvil (hm.of (by decide))
    | with_reducible apply k_poisonFault (hm.of (by decide))
    | with_reducible apply g6
    | with_reducible apply k_foldl
    | intro _
    | dsimp only
    | split

theorem k_sandboxFault {m : List Part} (hm : Within [.aon, .host, .ptns, .ctxs, .colls, .cmds, .hearth, .faults, .levels, .icern, .hbm, .poison, .free] m) (a0 : Nat) (a1 : Nat) (a2 : Nat) {s t : State} (h : Keeps m s t) : Keeps m s (sandboxFault a0 a1 a2 t) := by
  unfold sandboxFault
  try dsimp only
  repeat' first
    | with_reducible assumption
    | with_reducible apply k_updCtx (hm.of (by decide))
    | with_reducible apply k_startL0 (hm.of (by decide))
    | with_reducible apply k_stopAnvil (hm.of (by decide))
    | with_reducible apply k_clearBinding (hm.of (by decide))
    | with_reducible apply k_foldl
    | intro _
    | dsimp only
    | split

theorem k_opAtomic {m : List Part} (hm : Within [.aon, .host, .ptns, .ctxs, .colls, .cmds, .hearth, .faults, .levels, .icern, .hbm, .poison, .free] m) (a0 : Nat) (a1 : Nat) (a2 : W128) {s t : State} (h : Keeps m s t) : Keeps m s (opAtomic a0 a1 a2 t) := by
  unfold opAtomic
  try dsimp only
  repeat' first
    | with_reducible assumption
    | with_reducible apply k_sandboxFault (hm.of (by decide))
    | with_reducible apply k_waitFor (hm.of (by decide))
    | with_reducible apply k_updPtn (hm.of (by decide))
    | with_reducible apply k_stepDone (hm.of (by decide))
    | with_reducible apply k_updAnvil (hm.of (by decide))
    | with_reducible apply k_foldl
    | intro _
    | dsimp only
    | split

theorem k_execAtomic {m : List Part} (hm : Within [.aon, .host, .ptns, .ctxs, .colls, .cmds, .hearth, .faults, .levels, .icern, .hbm, .poison, .free] m) (a0 : Fin 12) (a1 : Fin 864) (a2 : SpRead) {s t : State} (h : Keeps m s t) : Goes m s (execAtomic a0 a1 a2 t) := by
  unfold execAtomic
  try dsimp only
  repeat' first
    | with_reducible assumption
    | with_reducible apply k_readingOp (hm.of (by decide))
    | with_reducible apply k_opAtomic (hm.of (by decide))
    | with_reducible apply goes_onlyIf
    | with_reducible apply goes_next
    | with_reducible apply k_foldl
    | intro _
    | dsimp only
    | split

theorem k_execBfma {m : List Part} (hm : Within [.aon, .host, .ptns, .ctxs, .colls, .cmds, .hearth, .faults, .icern, .free] m) (a0 : Fin 12) (a1 : Fin 864) (a2 : SpRead) {s t : State} (h : Keeps m s t) : Goes m s (execBfma a0 a1 a2 t) := by
  unfold execBfma
  try dsimp only
  repeat' first
    | with_reducible assumption
    | with_reducible apply k_readingOp (hm.of (by decide))
    | with_reducible apply k_opBfma (hm.of (by decide))
    | with_reducible apply goes_onlyIf
    | with_reducible apply goes_next
    | with_reducible apply k_foldl
    | intro _
    | dsimp only
    | split

theorem k_execBitclr {m : List Part} (hm : Within [.aon, .host, .ptns, .ctxs, .colls, .cmds, .hearth, .faults, .levels, .seamTok, .icern, .hbm, .poison, .free] m) (a0 : Fin 12) {s t : State} (h : Keeps m s t) : Goes m s (execBitclr a0 t) := by
  unfold execBitclr
  try dsimp only
  repeat' first
    | with_reducible assumption
    | with_reducible apply k_homeAtomic (hm.of (by decide))
    | with_reducible apply goes_onlyIf
    | with_reducible apply goes_next
    | with_reducible apply k_foldl
    | intro _
    | dsimp only
    | split

theorem k_execBitset {m : List Part} (hm : Within [.aon, .host, .ptns, .ctxs, .colls, .cmds, .hearth, .faults, .levels, .seamTok, .icern, .hbm, .poison, .free] m) (a0 : Fin 12) {s t : State} (h : Keeps m s t) : Goes m s (execBitset a0 t) := by
  unfold execBitset
  try dsimp only
  repeat' first
    | with_reducible assumption
    | with_reducible apply k_homeAtomic (hm.of (by decide))
    | with_reducible apply goes_onlyIf
    | with_reducible apply goes_next
    | with_reducible apply k_foldl
    | intro _
    | dsimp only
    | split

theorem k_execBound {m : List Part} (hm : Within [.aon, .host, .ptns, .ctxs, .colls, .cmds, .hearth, .faults, .icern, .free] m) (a0 : Fin 12) (a1 : Fin 864) (a2 : SpRead) {s t : State} (h : Keeps m s t) : Goes m s (execBound a0 a1 a2 t) := by
  unfold execBound
  try dsimp only
  repeat' first
    | with_reducible assumption
    | with_reducible apply k_readingOp (hm.of (by decide))
    | with_reducible apply k_opBound (hm.of (by decide))
    | with_reducible apply goes_onlyIf
    | with_reducible apply goes_next
    | with_reducible apply k_foldl
    | intro _
    | dsimp only
    | split

theorem handler_tget {m : List Part} {s : State} {l : List (Nat × Handler)} {k : Nat} {h : Handler} (e : tget l k = some h)
    (w : ∀ x ∈ l, HandlerKeeps m s x.2) : HandlerKeeps m s h := by
  induction l with
  | nil => exact nomatch e
  | cons x xs ih =>
    unfold tget at e
    split at e
    · cases e; exact w _ (List.mem_cons_self)
    · exact ih e fun y hy => w y (List.mem_cons_of_mem _ hy)
theorem handler_orElse {a b : Option Handler} {h : Handler} (e : (a <|> b) = some h) : a = some h ∨ b = some h := by
  cases a with
  | none => exact .inr e
  | some x => exact .inl e
theorem handler_getD {m : List Part} {s : State} {o : Option Handler} {d : Handler} (hd : HandlerKeeps m s d)
    (w : ∀ x, o = some x → HandlerKeeps m s x) : HandlerKeeps m s (o.getD d) := by
  cases o with
  | none => exact hd
  | some x => exact w x rfl
theorem k_handlerOf {m : List Part} (hm : Within [.aon, .host, .ptns, .jobs, .ctxs, .colls, .cmds, .hearth, .hearthUp, .faults, .levels, .icern, .hbm, .poison, .free] m) (q0 : Req) (b : Nat) (q : Req) (r : ReadReply) {s t : State} (h : Keeps m s t) :
    Keeps m s (handlerOf q0 b q r t).1 := by
  suffices w : HandlerKeeps m s (handlerOf q0) from w.keeps b q r t h
  unfold handlerOf
  dsimp only
  refine handler_getD ⟨fun _ _ _ _ h => h⟩ fun x e => ?_
  rcases handler_orElse e with e | e
  · exact handler_tget e (by
      simp only [List.forall_mem_cons]
      exact ⟨⟨fun b q r u => k_doSummary (hm.of (by decide)) b q r⟩,
          ⟨fun b q r u => k_doIdentify (hm.of (by decide)) b q r⟩,
          ⟨fun b q r u => k_doEventLog (hm.of (by decide)) b q r⟩,
          ⟨fun b q r u => k_doClockCorr (hm.of (by decide)) b q r⟩,
          ⟨fun b q r u => k_doPtnEnable (hm.of (by decide)) b q r⟩,
          ⟨fun b q r u => k_doPtnPower (hm.of (by decide)) b q r⟩,
          ⟨fun b q r u => k_doJobCreate (hm.of (by decide)) b q r⟩,
          ⟨fun b q r u => k_doJobEnd (hm.of (by decide)) b q r⟩,
          ⟨fun b q r u => k_doCtxCreate (hm.of (by decide)) b q r⟩,
          ⟨fun b q r u => k_doCtxDestroy (hm.of (by decide)) b q r⟩,
          ⟨fun b q r u => k_doRingCreate (hm.of (by decide)) b q r⟩, fun _ hx => absurd hx List.not_mem_nil⟩)
  rcases handler_orElse e with e | e
  · exact handler_tget e (by
      simp only [List.forall_mem_cons]
      exact ⟨⟨fun b q r u => k_doRingDestroy (hm.of (by decide)) b q r⟩,
          ⟨fun b q r u => k_doHwinSet (hm.of (by decide)) b q r⟩,
          ⟨fun b q r u => k_doHdmMap (hm.of (by decide)) b q r⟩,
          ⟨fun b q r u => k_doMwinSet (hm.of (by decide)) b q r⟩,
          ⟨fun b q r u => k_doRingState (hm.of (by decide)) b q r⟩,
          ⟨fun b q r u => k_doJournalSet (hm.of (by decide)) b q r⟩,
          ⟨fun b q r u => k_doCollCreate (hm.of (by decide)) b q r⟩,
          ⟨fun b q r u => k_doCollDelete (hm.of (by decide)) b q r⟩,
          ⟨fun b q r u => k_doCollSet (hm.of (by decide)) b q r⟩,
          ⟨fun b q r u => k_doCollStats (hm.of (by decide)) b q r⟩,
          ⟨fun b q r u => k_doCollTrain (hm.of (by decide)) b q r⟩, fun _ hx => absurd hx List.not_mem_nil⟩)
  rcases handler_orElse e with e | e
  · exact handler_tget e (by
      simp only [List.forall_mem_cons]
      exact ⟨⟨fun b q r u => k_doFilterLoad (hm.of (by decide)) b q r⟩,
          ⟨fun b q r u => k_doPatternLoad (hm.of (by decide)) b q r⟩,
          ⟨fun b q r u => k_doPatternUnload (hm.of (by decide)) b q r⟩,
          ⟨fun b q r u => k_doRoundLoad (hm.of (by decide)) b q r⟩,
          ⟨fun b q r u => k_doSharesSet (hm.of (by decide)) b q r⟩,
          ⟨fun b q r u => k_doRegSet (hm.of (by decide)) b q r⟩,
          ⟨fun b q r u => k_doCrucPin (hm.of (by decide)) b q r⟩,
          ⟨fun b q r u => k_doCtxStats (hm.of (by decide)) b q r⟩,
          ⟨fun b q r u => k_doRouteSet (hm.of (by decide)) b q r⟩,
          ⟨fun b q r u => k_doResetPtn (hm.of (by decide)) b q r⟩,
          ⟨fun b q r u => k_doResetChip (hm.of (by decide)) b q r⟩,
          ⟨fun b q r u => k_doAttest (hm.of (by decide)) b q r⟩, fun _ hx => absurd hx List.not_mem_nil⟩)
  · exact handler_tget e (by
      simp only [List.forall_mem_cons]
      refine ⟨?_, ?_, ⟨fun b q r u => k_doAssayLog (hm.of (by decide)) b q r⟩, fun _ hx => absurd hx List.not_mem_nil⟩
      · repeat' split
        · exact ⟨fun b q r u => k_doStageBegin (hm.of (by decide)) b q r⟩
        · exact ⟨fun b q r u => k_doStageData (hm.of (by decide)) b q r⟩
        · exact ⟨fun b q r u => k_doStageFinish (hm.of (by decide)) b q r⟩
        · exact ⟨fun b q r u => k_doStageAbort (hm.of (by decide)) b q r⟩
      · repeat' split
        · exact ⟨fun b q r u => k_doTrial (hm.of (by decide)) b q r⟩
        · exact ⟨fun b q r u => k_doCommit (hm.of (by decide)) b q r⟩
        · exact ⟨fun b q r u => k_doRevert (hm.of (by decide)) b q r⟩
        · exact ⟨fun b q r u => k_doNextReset (hm.of (by decide)) b q r⟩)

theorem k_progress {m : List Part} (hm : Within [.aon, .host, .ptns, .jobs, .ctxs, .colls, .cmds, .hearth, .hearthUp, .faults, .levels, .icern, .hbm, .poison, .free] m) (a0 : Nat) (a1 : Ticket) {s t : State} (h : Keeps m s t) : Keeps m s (progress a0 a1 t) := by
  unfold progress
  try dsimp only
  repeat' first
    | with_reducible assumption
    | with_reducible apply k_ticketDone (hm.of (by decide))
    | with_reducible apply k_makeJob (hm.of (by decide))
    | with_reducible apply k_endJob (hm.of (by decide))
    | with_reducible apply k_removeRing (hm.of (by decide))
    | with_reducible apply k_updRing (hm.of (by decide))
    | with_reducible apply k_freeColl (hm.of (by decide))
    | with_reducible apply k_runReq (Within.nil m)
    | with_reducible apply k_handlerOf (hm.of (by decide))
    | with_reducible apply k_ticketWork (hm.of (by decide))
    | with_reducible apply k_doAssayRun (hm.of (by decide))
    | with_reducible apply k_doMarginRun (hm.of (by decide))
    | with_reducible apply k_endTest (hm.of (by decide))
    | with_reducible apply k_updAon (hm.of (by decide))
    | with_reducible apply HandlerKeeps.mk
    | with_reducible apply pair_foldl
    | (with_reducible apply pair_get; with_reducible assumption)
    | with_reducible apply k_foldl
    | intro _
    | dsimp only
    | split

theorem k_execBusyComplete {m : List Part} (hm : Within [.aon, .host, .ptns, .jobs, .ctxs, .colls, .cmds, .hearth, .hearthUp, .faults, .levels, .icern, .hbm, .poison, .free] m) (a0 : Nat) {s t : State} (h : Keeps m s t) : Goes m s (execBusyComplete a0 t) := by
  unfold execBusyComplete
  try dsimp only
  repeat' first
    | with_reducible assumption
    | with_reducible apply k_progress (hm.of (by decide))
    | with_reducible apply k_wakeHearth (hm.of (by decide))
    | with_reducible apply goes_onlyIf
    | with_reducible apply goes_next
    | with_reducible apply k_foldl
    | intro _
    | dsimp only
    | split

theorem k_execCas32 {m : List Part} (hm : Within [.aon, .host, .ptns, .ctxs, .colls, .cmds, .hearth, .faults, .levels, .seamTok, .icern, .hbm, .poison, .free] m) (a0 : Fin 12) {s t : State} (h : Keeps m s t) : Goes m s (execCas32 a0 t) := by
  unfold execCas32
  try dsimp only
  repeat' first
    | with_reducible assumption
    | with_reducible apply k_homeAtomic (hm.of (by decide))
    | with_reducible apply goes_onlyIf
    | with_reducible apply goes_next
    | with_reducible apply k_foldl
    | intro _
    | dsimp only
    | split

theorem k_execCas64 {m : List Part} (hm : Within [.aon, .host, .ptns, .ctxs, .colls, .cmds, .hearth, .faults, .levels, .seamTok, .icern, .hbm, .poison, .free] m) (a0 : Fin 12) {s t : State} (h : Keeps m s t) : Goes m s (execCas64 a0 t) := by
  unfold execCas64
  try dsimp only
  repeat' first
    | with_reducible assumption
    | with_reducible apply k_homeAtomic (hm.of (by decide))
    | with_reducible apply goes_onlyIf
    | with_reducible apply goes_next
    | with_reducible apply k_foldl
    | intro _
    | dsimp only
    | split

theorem k_execCommandWatchdog {m : List Part} (hm : Within [.aon, .host, .ptns, .ctxs, .colls, .cmds, .hearth, .faults, .levels, .icern, .hbm, .poison, .free] m) (a0 : Nat) {s t : State} (h : Keeps m s t) : Goes m s (execCommandWatchdog a0 t) := by
  unfold execCommandWatchdog
  try dsimp only
  repeat' first
    | with_reducible assumption
    | with_reducible apply k_startL0 (hm.of (by decide))
    | with_reducible apply k_postFault (hm.of (by decide))
    | with_reducible apply goes_onlyIf
    | with_reducible apply goes_next
    | with_reducible apply k_foldl
    | intro _
    | dsimp only
    | split

theorem k_takeSearch {m : List Part} (hm : Within [.aon, .host, .ptns, .ctxs, .colls, .cmds, .hearth, .faults, .icern, .free] m) (a0 : Nat) (a1 : List Byte) {s t : State} (h : Keeps m s t) : Keeps m s (takeSearch a0 a1 t) := by
  unfold takeSearch
  try dsimp only
  repeat' first
    | with_reducible assumption
    | with_reducible apply k_failCmd (hm.of (by decide))
    | with_reducible apply k_startRows (hm.of (by decide))
    | with_reducible apply k_takeLacking (hm.of (by decide))
    | with_reducible apply k_updCmd (hm.of (by decide))
    | with_reducible apply pair_foldl
    | (with_reducible apply pair_get; with_reducible assumption)
    | with_reducible apply k_foldl
    | intro _
    | dsimp only
    | split

theorem k_takePayload {m : List Part} (hm : Within [.aon, .host, .ptns, .ctxs, .colls, .cmds, .hearth, .faults, .icern, .free] m) (a0 : Nat) (a1 : List Byte) {s t : State} (h : Keeps m s t) : Keeps m s (takePayload a0 a1 t) := by
  unfold takePayload
  try dsimp only
  repeat' first
    | with_reducible assumption
    | with_reducible apply k_takeSearch (hm.of (by decide))
    | with_reducible apply k_takeIngest (hm.of (by decide))
    | with_reducible apply k_foldl
    | intro _
    | dsimp only
    | split

theorem k_readDma {m : List Part} (hm : Within [.aon, .host, .ptns, .ctxs, .colls, .cmds, .hearth, .faults, .icern, .free] m) (a0 : Nat) (a1 : ReadReply) {s t : State} (h : Keeps m s t) : Keeps m s (readDma a0 a1 t) := by
  unfold readDma
  try dsimp only
  repeat' first
    | with_reducible assumption
    | with_reducible apply k_afterPayload (hm.of (by decide))
    | with_reducible apply k_takePayload (hm.of (by decide))
    | with_reducible apply k_hostFail (hm.of (by decide))
    | with_reducible apply k_foldl
    | intro _
    | dsimp only
    | split

theorem k_execDmaReadComplete {m : List Part} (hm : Within [.aon, .host, .ptns, .ctxs, .colls, .cmds, .hearth, .faults, .icern, .free] m) (a0 : Nat) (a1 : ReadReply) {s t : State} (h : Keeps m s t) : Goes m s (execDmaReadComplete a0 a1 t) := by
  unfold execDmaReadComplete
  try dsimp only
  repeat' first
    | with_reducible assumption
    | with_reducible apply k_readDma (hm.of (by decide))
    | with_reducible apply goes_onlyIf
    | with_reducible apply goes_next
    | with_reducible apply k_foldl
    | intro _
    | dsimp only
    | split

theorem k_execDot {m : List Part} (hm : Within [.aon, .host, .ptns, .ctxs, .colls, .cmds, .hearth, .faults, .icern, .free] m) (a0 : Fin 12) (a1 : Fin 864) (a2 : SpRead) {s t : State} (h : Keeps m s t) : Goes m s (execDot a0 a1 a2 t) := by
  unfold execDot
  try dsimp only
  repeat' first
    | with_reducible assumption
    | with_reducible apply k_readingOp (hm.of (by decide))
    | with_reducible apply k_opDot (hm.of (by decide))
    | with_reducible apply goes_onlyIf
    | with_reducible apply goes_next
    | with_reducible apply k_foldl
    | intro _
    | dsimp only
    | split

theorem k_execEngineWatchdog {m : List Part} (hm : Within [.aon, .host, .ptns, .ctxs, .colls, .cmds, .hearth, .faults, .levels, .icern, .free] m) (a0 : Nat) (a1 : Fin 12) {s t : State} (h : Keeps m s t) : Goes m s (execEngineWatchdog a0 a1 t) := by
  unfold execEngineWatchdog
  try dsimp only
  repeat' first
    | with_reducible assumption
    | with_reducible apply k_engineFault (hm.of (by decide))
    | with_reducible apply k_postFault (hm.of (by decide))
    | with_reducible apply goes_onlyIf
    | with_reducible apply goes_next
    | with_reducible apply k_foldl
    | intro _
    | dsimp only
    | split

theorem k_notice {m : List Part} (hm : Within [.aon, .host, .ptns, .ctxs, .colls, .cmds, .hearth, .faults, .icern] m) (a0 : Msg) {s t : State} (h : Keeps m s t) : Keeps m s (notice a0 t) := by
  unfold notice
  try dsimp only
  repeat' first
    | with_reducible assumption
    | with_reducible apply k_setPeer (hm.of (by decide))
    | with_reducible apply k_rootGone (hm.of (by decide))
    | with_reducible apply k_dropParked (hm.of (by decide))
    | with_reducible apply k_peerFailed (hm.of (by decide))
    | with_reducible apply k_foldl
    | intro _
    | dsimp only
    | split

theorem k_execFenceNotice {m : List Part} (hm : Within [.aon, .host, .ptns, .ctxs, .colls, .cmds, .hearth, .faults, .icern] m) (a0 : Nat) {s t : State} (h : Keeps m s t) : Goes m s (execFenceNotice a0 t) := by
  unfold execFenceNotice
  try dsimp only
  repeat' first
    | with_reducible assumption
    | with_reducible apply k_withMsg (hm.of (by decide))
    | with_reducible apply k_notice (hm.of (by decide))
    | with_reducible apply goes_onlyIf
    | with_reducible apply goes_next
    | with_reducible apply k_foldl
    | intro _
    | dsimp only
    | split

theorem k_opFetchb {m : List Part} (hm : Within [.aon, .host, .ptns, .ctxs, .colls, .cmds, .hearth, .faults, .levels, .icern, .hbm, .poison, .free] m) (a0 : Nat) (a1 : Nat) (a2 : W128) {s t : State} (h : Keeps m s t) : Keeps m s (opFetchb a0 a1 a2 t) := by
  unfold opFetchb
  try dsimp only
  repeat' first
    | with_reducible assumption
    | with_reducible apply k_stepDone (hm.of (by decide))
    | with_reducible apply k_sandboxFault (hm.of (by decide))
    | with_reducible apply k_waitFor (hm.of (by decide))
    | with_reducible apply k_updPtn (hm.of (by decide))
    | with_reducible apply k_updAnvil (hm.of (by decide))
    | with_reducible apply k_spend (hm.of (by decide))
    | with_reducible apply k_foldl
    | intro _
    | dsimp only
    | split

theorem k_execFetchb {m : List Part} (hm : Within [.aon, .host, .ptns, .ctxs, .colls, .cmds, .hearth, .faults, .levels, .icern, .hbm, .poison, .free] m) (a0 : Fin 12) (a1 : Fin 864) {s t : State} (h : Keeps m s t) : Goes m s (execFetchb a0 a1 t) := by
  unfold execFetchb
  try dsimp only
  repeat' first
    | with_reducible assumption
    | with_reducible apply k_runOp (hm.of (by decide))
    | with_reducible apply k_opFetchb (hm.of (by decide))
    | with_reducible apply goes_onlyIf
    | with_reducible apply goes_next
    | with_reducible apply k_foldl
    | intro _
    | dsimp only
    | split

theorem k_opFetchw {m : List Part} (hm : Within [.aon, .host, .ptns, .ctxs, .colls, .cmds, .hearth, .faults, .levels, .icern, .hbm, .poison, .free] m) (a0 : Nat) (a1 : Nat) (a2 : W128) {s t : State} (h : Keeps m s t) : Keeps m s (opFetchw a0 a1 a2 t) := by
  unfold opFetchw
  try dsimp only
  repeat' first
    | with_reducible assumption
    | with_reducible apply k_sandboxFault (hm.of (by decide))
    | with_reducible apply k_waitFor (hm.of (by decide))
    | with_reducible apply k_stepDone (hm.of (by decide))
    | with_reducible apply k_updAnvil (hm.of (by decide))
    | with_reducible apply k_foldl
    | intro _
    | dsimp only
    | split

theorem k_execFetchw {m : List Part} (hm : Within [.aon, .host, .ptns, .ctxs, .colls, .cmds, .hearth, .faults, .levels, .icern, .hbm, .poison, .free] m) (a0 : Fin 12) (a1 : AnvilRead) {s t : State} (h : Keeps m s t) : Goes m s (execFetchw a0 a1 t) := by
  unfold execFetchw
  try dsimp only
  repeat' first
    | with_reducible assumption
    | with_reducible apply k_readingOp (hm.of (by decide))
    | with_reducible apply k_opFetchw (hm.of (by decide))
    | with_reducible apply goes_onlyIf
    | with_reducible apply goes_next
    | with_reducible apply k_foldl
    | intro _
    | dsimp only
    | split

theorem k_takeInit {m : List Part} (hm : Within [.aon, .host, .ptns, .ctxs, .colls, .cmds, .hearth, .faults, .icern] m) (a0 : Nat) (a1 : Nat) (a2 : List Nat) {s t : State} (h : Keeps m s t) : Keeps m s (takeInit a0 a1 a2 t) := by
  unfold takeInit
  try dsimp only
  repeat' first
    | with_reducible assumption
    | with_reducible apply k_updPort (hm.of (by decide))
    | with_reducible apply k_portDown (hm.of (by decide))
    | with_reducible apply k_runPort (hm.of (by decide))
    | with_reducible apply k_foldl
    | intro _
    | dsimp only
    | split

theorem k_execFlitInit {m : List Part} (hm : Within [.aon, .host, .ptns, .ctxs, .colls, .cmds, .hearth, .faults, .icern] m) (a0 : Fin 4) (a1 : Nat) (a2 : Nat) (a3 : List Nat) {s t : State} (h : Keeps m s t) : Goes m s (execFlitInit a0 a1 a2 a3 t) := by
  unfold execFlitInit
  try dsimp only
  repeat' first
    | with_reducible assumption
    | with_reducible apply k_takeInit (hm.of (by decide))
    | with_reducible apply goes_onlyIf
    | with_reducible apply goes_next
    | with_reducible apply k_foldl
    | intro _
    | dsimp only
    | split

theorem k_takeReplay {m : List Part} (hm : Within [.aon, .host, .ptns, .ctxs, .colls, .cmds, .hearth, .faults, .icern] m) (a0 : Nat) (a1 : Flit) {s t : State} (h : Keeps m s t) : Keeps m s (takeReplay a0 a1 t) := by
  unfold takeReplay
  try dsimp only
  repeat' first
    | with_reducible assumption
    | with_reducible apply k_updPort (hm.of (by decide))
    | with_reducible apply k_portDown (hm.of (by decide))
    | with_reducible apply k_pumpRequests (hm.of (by decide))
    | with_reducible apply k_runPort (hm.of (by decide))
    | with_reducible apply k_foldl
    | intro _
    | dsimp only
    | split

theorem k_execFlitReplay {m : List Part} (hm : Within [.aon, .host, .ptns, .ctxs, .colls, .cmds, .hearth, .faults, .icern] m) (a0 : Fin 4) (a1 : Flit) {s t : State} (h : Keeps m s t) : Goes m s (execFlitReplay a0 a1 t) := by
  unfold execFlitReplay
  try dsimp only
  repeat' first
    | with_reducible assumption
    | with_reducible apply k_takeReplay (hm.of (by decide))
    | with_reducible apply goes_onlyIf
    | with_reducible apply goes_next
    | with_reducible apply k_foldl
    | intro _
    | dsimp only
    | split

theorem k_execHeartbeatLoss {m : List Part} (hm : Within [.aon, .host, .ptns, .ctxs, .colls, .cmds, .hearth, .faults, .icern] m) (a0 : Fin 4) {s t : State} (h : Keeps m s t) : Goes m s (execHeartbeatLoss a0 t) := by
  unfold execHeartbeatLoss
  try dsimp only
  repeat' first
    | with_reducible assumption
    | with_reducible apply k_portDown (hm.of (by decide))
    | with_reducible apply goes_onlyIf
    | with_reducible apply goes_next
    | with_reducible apply k_foldl
    | intro _
    | dsimp only
    | split

theorem k_execHinc {m : List Part} (hm : Within [.aon, .host, .ptns, .ctxs, .colls, .cmds, .hearth, .faults, .levels, .seamTok, .icern, .hbm, .poison, .free] m) (a0 : Fin 12) {s t : State} (h : Keeps m s t) : Goes m s (execHinc a0 t) := by
  unfold execHinc
  try dsimp only
  repeat' first
    | with_reducible assumption
    | with_reducible apply k_homeAtomic (hm.of (by decide))
    | with_reducible apply goes_onlyIf
    | with_reducible apply goes_next
    | with_reducible apply k_foldl
    | intro _
    | dsimp only
    | split

theorem k_execJobEnd {m : List Part} (hm : Within [.aon, .host, .ptns, .jobs, .ctxs, .colls, .cmds, .hearth, .faults, .levels, .icern, .hbm, .poison, .free] m) (a0 : Fin 4) {s t : State} (h : Keeps m s t) : Goes m s (execJobEnd a0 t) := by
  unfold execJobEnd
  try dsimp only
  repeat' first
    | with_reducible assumption
    | with_reducible apply k_mailbox (hm.of (by decide))
    | with_reducible apply k_doJobEnd (hm.of (by decide))
    | with_reducible apply HandlerKeeps.mk
    | with_reducible apply pair_foldl
    | (with_reducible apply pair_get; with_reducible assumption)
    | with_reducible apply goes_onlyIf
    | with_reducible apply goes_next
    | with_reducible apply k_foldl
    | intro _
    | dsimp only
    | split

theorem k_execKillPreempt {m : List Part} (hm : Within [.aon, .host, .ptns, .ctxs, .colls, .cmds, .hearth, .faults, .icern, .free] m) (a0 : Fin 12) (a1 : Nat) {s t : State} (h : Keeps m s t) : Goes m s (execKillPreempt a0 a1 t) := by
  unfold execKillPreempt
  try dsimp only
  repeat' first
    | with_reducible assumption
    | with_reducible apply k_killHere (hm.of (by decide))
    | with_reducible apply goes_onlyIf
    | with_reducible apply goes_next
    | with_reducible apply k_foldl
    | intro _
    | dsimp only
    | split

theorem k_execMaxs {m : List Part} (hm : Within [.aon, .host, .ptns, .ctxs, .colls, .cmds, .hearth, .faults, .levels, .seamTok, .icern, .hbm, .poison, .free] m) (a0 : Fin 12) {s t : State} (h : Keeps m s t) : Goes m s (execMaxs a0 t) := by
  unfold execMaxs
  try dsimp only
  repeat' first
    | with_reducible assumption
    | with_reducible apply k_homeAtomic (hm.of (by decide))
    | with_reducible apply goes_onlyIf
    | with_reducible apply goes_next
    | with_reducible apply k_foldl
    | intro _
    | dsimp only
    | split

theorem k_execMaxu {m : List Part} (hm : Within [.aon, .host, .ptns, .ctxs, .colls, .cmds, .hearth, .faults, .levels, .seamTok, .icern, .hbm, .poison, .free] m) (a0 : Fin 12) {s t : State} (h : Keeps m s t) : Goes m s (execMaxu a0 t) := by
  unfold execMaxu
  try dsimp only
  repeat' first
    | with_reducible assumption
    | with_reducible apply k_homeAtomic (hm.of (by decide))
    | with_reducible apply goes_onlyIf
    | with_reducible apply goes_next
    | with_reducible apply k_foldl
    | intro _
    | dsimp only
    | split

theorem k_noHome {m : List Part} (hm : Within [.aon, .host, .ptns, .ctxs, .colls, .cmds, .hearth, .faults, .levels, .icern, .hbm, .poison, .free] m) (a0 : Requester) (a1 : Nat) {s t : State} (h : Keeps m s t) : Keeps m s (noHome a0 a1 t) := by
  unfold noHome
  try dsimp only
  repeat' first
    | with_reducible assumption
    | with_reducible apply k_sandboxFault (hm.of (by decide))
    | with_reducible apply k_postFault (hm.of (by decide))
    | with_reducible apply k_answer (hm.of (by decide))
    | with_reducible apply k_foldl
    | intro _
    | dsimp only
    | split

theorem k_execMins {m : List Part} (hm : Within [.aon, .host, .ptns, .ctxs, .colls, .cmds, .hearth, .faults, .levels, .seamTok, .icern, .hbm, .poison, .free] m) (a0 : Fin 12) {s t : State} (h : Keeps m s t) : Goes m s (execMins a0 t) := by
  unfold execMins
  try dsimp only
  repeat' first
    | with_reducible assumption
    | with_reducible apply k_homeAtomic (hm.of (by decide))
    | with_reducible apply goes_onlyIf
    | with_reducible apply goes_next
    | with_reducible apply k_foldl
    | intro _
    | dsimp only
    | split

theorem k_execMinu {m : List Part} (hm : Within [.aon, .host, .ptns, .ctxs, .colls, .cmds, .hearth, .faults, .levels, .seamTok, .icern, .hbm, .poison, .free] m) (a0 : Fin 12) {s t : State} (h : Keeps m s t) : Goes m s (execMinu a0 t) := by
  unfold execMinu
  try dsimp only
  repeat' first
    | with_reducible assumption
    | with_reducible apply k_homeAtomic (hm.of (by decide))
    | with_reducible apply goes_onlyIf
    | with_reducible apply goes_next
    | with_reducible apply k_foldl
    | intro _
    | dsimp only
    | split

theorem k_execMove {m : List Part} (hm : Within [.aon, .host, .ptns, .ctxs, .colls, .cmds, .hearth, .faults, .icern, .free] m) (a0 : Fin 12) (a1 : Fin 864) (a2 : SpRead) {s t : State} (h : Keeps m s t) : Goes m s (execMove a0 a1 a2 t) := by
  unfold execMove
  try dsimp only
  repeat' first
    | with_reducible assumption
    | with_reducible apply k_readingOp (hm.of (by decide))
    | with_reducible apply k_opMove (hm.of (by decide))
    | with_reducible apply goes_onlyIf
    | with_reducible apply goes_next
    | with_reducible apply k_foldl
    | intro _
    | dsimp only
    | split

theorem k_execOrOp {m : List Part} (hm : Within [.aon, .host, .ptns, .ctxs, .colls, .cmds, .hearth, .faults, .levels, .seamTok, .icern, .hbm, .poison, .free] m) (a0 : Fin 12) {s t : State} (h : Keeps m s t) : Goes m s (execOrOp a0 t) := by
  unfold execOrOp
  try dsimp only
  repeat' first
    | with_reducible assumption
    | with_reducible apply k_homeAtomic (hm.of (by decide))
    | with_reducible apply goes_onlyIf
    | with_reducible apply goes_next
    | with_reducible apply k_foldl
    | intro _
    | dsimp only
    | split

theorem k_execPortStepTimeout {m : List Part} (hm : Within [.aon, .host, .ptns, .ctxs, .colls, .cmds, .hearth, .faults, .icern] m) (a0 : Fin 4) {s t : State} (h : Keeps m s t) : Goes m s (execPortStepTimeout a0 t) := by
  unfold execPortStepTimeout
  try dsimp only
  repeat' first
    | with_reducible assumption
    | with_reducible apply k_portDown (hm.of (by decide))
    | with_reducible apply goes_onlyIf
    | with_reducible apply goes_next
    | with_reducible apply k_foldl
    | intro _
    | dsimp only
    | split

theorem k_trainStep {m : List Part} (hm : Within [.aon, .host, .ptns, .ctxs, .colls, .cmds, .hearth, .faults, .icern] m) (a0 : Nat) (a1 : BitVec 4) {s t : State} (h : Keeps m s t) : Keeps m s (trainStep a0 a1 t) := by
  unfold trainStep
  try dsimp only
  repeat' first
    | with_reducible assumption
    | with_reducible apply k_updPort (hm.of (by decide))
    | with_reducible apply k_portDown (hm.of (by decide))
    | with_reducible apply k_sendInit (hm.of (by decide))
    | with_reducible apply k_runPort (hm.of (by decide))
    | with_reducible apply k_foldl
    | intro _
    | dsimp only
    | split

theorem k_execPortTrainStepDone {m : List Part} (hm : Within [.aon, .host, .ptns, .ctxs, .colls, .cmds, .hearth, .faults, .icern] m) (a0 : Fin 4) (a1 : BitVec 4) {s t : State} (h : Keeps m s t) : Goes m s (execPortTrainStepDone a0 a1 t) := by
  unfold execPortTrainStepDone
  try dsimp only
  repeat' first
    | with_reducible assumption
    | with_reducible apply k_trainStep (hm.of (by decide))
    | with_reducible apply goes_onlyIf
    | with_reducible apply goes_next
    | with_reducible apply k_foldl
    | intro _
    | dsimp only
    | split

theorem k_execRedistributeChunk {m : List Part} (hm : Within [.host, .ptns, .ctxs, .colls, .cmds, .hearth, .seamTok, .poison] m) (a0 : Nat) (a1 : Fin 12) {s t : State} (h : Keeps m s t) : Goes m s (execRedistributeChunk a0 a1 t) := by
  unfold execRedistributeChunk
  try dsimp only
  repeat' first
    | with_reducible assumption
    | with_reducible apply k_endMove (hm.of (by decide))
    | with_reducible apply goes_onlyIf
    | with_reducible apply goes_next
    | with_reducible apply k_foldl
    | intro _
    | dsimp only
    | split

theorem k_execScore {m : List Part} (hm : Within [.aon, .host, .ptns, .ctxs, .colls, .cmds, .hearth, .faults, .icern, .free] m) (a0 : Fin 12) (a1 : Fin 864) (a2 : SpRead) {s t : State} (h : Keeps m s t) : Goes m s (execScore a0 a1 a2 t) := by
  unfold execScore
  try dsimp only
  repeat' first
    | with_reducible assumption
    | with_reducible apply k_readingOp (hm.of (by decide))
    | with_reducible apply k_opScore (hm.of (by decide))
    | with_reducible apply goes_onlyIf
    | with_reducible apply goes_next
    | with_reducible apply k_foldl
    | intro _
    | dsimp only
    | split

theorem k_execSelect {m : List Part} (hm : Within [.aon, .host, .ptns, .ctxs, .colls, .cmds, .hearth, .faults, .icern, .free] m) (a0 : Fin 12) (a1 : Fin 864) (a2 : SpRead) {s t : State} (h : Keeps m s t) : Goes m s (execSelect a0 a1 a2 t) := by
  unfold execSelect
  try dsimp only
  repeat' first
    | with_reducible assumption
    | with_reducible apply k_readingOp (hm.of (by decide))
    | with_reducible apply k_opSelect (hm.of (by decide))
    | with_reducible apply goes_onlyIf
    | with_reducible apply goes_next
    | with_reducible apply k_foldl
    | intro _
    | dsimp only
    | split

theorem k_execSemAcq {m : List Part} (hm : Within [.aon, .host, .ptns, .ctxs, .colls, .cmds, .hearth, .faults, .levels, .seamTok, .icern, .hbm, .poison, .free] m) (a0 : Fin 12) {s t : State} (h : Keeps m s t) : Goes m s (execSemAcq a0 t) := by
  unfold execSemAcq
  try dsimp only
  repeat' first
    | with_reducible assumption
    | with_reducible apply k_homeAtomic (hm.of (by decide))
    | with_reducible apply goes_onlyIf
    | with_reducible apply goes_next
    | with_reducible apply k_foldl
    | intro _
    | dsimp only
    | split

theorem k_execSemOverhold {m : List Part} (hm : Within [.aon, .host, .ptns, .ctxs, .colls, .cmds, .hearth, .faults, .levels, .icern, .hbm, .poison, .free] m) (a0 : Fin 12) (a1 : Nat) {s t : State} (h : Keeps m s t) : Goes m s (execSemOverhold a0 a1 t) := by
  unfold execSemOverhold
  try dsimp only
  repeat' first
    | with_reducible assumption
    | with_reducible apply k_startL0 (hm.of (by decide))
    | with_reducible apply k_raise (hm.of (by decide))
    | with_reducible apply goes_onlyIf
    | with_reducible apply goes_next
    | with_reducible apply k_foldl
    | intro _
    | dsimp only
    | split

theorem k_execSemRel {m : List Part} (hm : Within [.aon, .host, .ptns, .ctxs, .colls, .cmds, .hearth, .faults, .levels, .seamTok, .icern, .hbm, .poison, .free] m) (a0 : Fin 12) {s t : State} (h : Keeps m s t) : Goes m s (execSemRel a0 t) := by
  unfold execSemRel
  try dsimp only
  repeat' first
    | with_reducible assumption
    | with_reducible apply k_homeAtomic (hm.of (by decide))
    | with_reducible apply goes_onlyIf
    | with_reducible apply goes_next
    | with_reducible apply k_foldl
    | intro _
    | dsimp only
    | split

theorem k_opSetr {m : List Part} (hm : Within [.aon, .host, .ptns, .ctxs, .colls, .cmds, .hearth, .faults, .levels, .icern, .hbm, .poison, .free] m) (a0 : Nat) (a1 : Nat) (a2 : W128) {s t : State} (h : Keeps m s t) : Keeps m s (opSetr a0 a1 a2 t) := by
  unfold opSetr
  try dsimp only
  repeat' first
    | with_reducible assumption
    | with_reducible apply k_sandboxFault (hm.of (by decide))
    | with_reducible apply k_stepDone (hm.of (by decide))
    | with_reducible apply k_updAnvil (hm.of (by decide))
    | with_reducible apply k_foldl
    | intro _
    | dsimp only
    | split

theorem k_execSetr {m : List Part} (hm : Within [.aon, .host, .ptns, .ctxs, .colls, .cmds, .hearth, .faults, .levels, .icern, .hbm, .poison, .free] m) (a0 : Fin 12) (a1 : Fin 864) {s t : State} (h : Keeps m s t) : Goes m s (execSetr a0 a1 t) := by
  unfold execSetr
  try dsimp only
  repeat' first
    | with_reducible assumption
    | with_reducible apply k_runOp (hm.of (by decide))
    | with_reducible apply k_opSetr (hm.of (by decide))
    | with_reducible apply goes_onlyIf
    | with_reducible apply goes_next
    | with_reducible apply k_foldl
    | intro _
    | dsimp only
    | split

theorem k_execSgather {m : List Part} (hm : Within [.aon, .host, .ptns, .ctxs, .colls, .cmds, .hearth, .faults, .icern, .free] m) (a0 : Fin 12) (a1 : Fin 864) (a2 : SpRead) {s t : State} (h : Keeps m s t) : Goes m s (execSgather a0 a1 a2 t) := by
  unfold execSgather
  try dsimp only
  repeat' first
    | with_reducible assumption
    | with_reducible apply k_readingOp (hm.of (by decide))
    | with_reducible apply k_opSgather (hm.of (by decide))
    | with_reducible apply goes_onlyIf
    | with_reducible apply goes_next
    | with_reducible apply k_foldl
    | intro _
    | dsimp only
    | split

theorem k_execSieve {m : List Part} (hm : Within [.aon, .host, .ptns, .ctxs, .colls, .cmds, .hearth, .faults, .icern, .free] m) (a0 : Fin 12) (a1 : Fin 864) (a2 : SpRead) {s t : State} (h : Keeps m s t) : Goes m s (execSieve a0 a1 a2 t) := by
  unfold execSieve
  try dsimp only
  repeat' first
    | with_reducible assumption
    | with_reducible apply k_readingOp (hm.of (by decide))
    | with_reducible apply k_opSieve (hm.of (by decide))
    | with_reducible apply goes_onlyIf
    | with_reducible apply goes_next
    | with_reducible apply k_foldl
    | intro _
    | dsimp only
    | split

theorem k_readStaged {m : List Part} (hm : Within [.aon, .host, .ptns, .ctxs, .colls, .cmds, .hearth, .faults, .seamTok, .icern, .free] m) (a0 : Nat) {s t : State} (h : Keeps m s t) : Keeps m s (readStaged a0 t) := by
  unfold readStaged
  try dsimp only
  repeat' first
    | with_reducible assumption
    | with_reducible apply k_engineMove (hm.of (by decide))
    | with_reducible apply k_dropGranules (hm.of (by decide))
    | with_reducible apply k_failCmd (hm.of (by decide))
    | with_reducible apply k_postFault (hm.of (by decide))
    | with_reducible apply k_afterPayload (hm.of (by decide))
    | with_reducible apply k_takePayload (hm.of (by decide))
    | with_reducible apply k_foldl
    | intro _
    | dsimp only
    | split

theorem k_execStagedPayloadRead {m : List Part} (hm : Within [.aon, .host, .ptns, .ctxs, .colls, .cmds, .hearth, .faults, .seamTok, .icern, .free] m) (a0 : Nat) {s t : State} (h : Keeps m s t) : Goes m s (execStagedPayloadRead a0 t) := by
  unfold execStagedPayloadRead
  try dsimp only
  repeat' first
    | with_reducible assumption
    | with_reducible apply k_readStaged (hm.of (by decide))
    | with_reducible apply goes_onlyIf
    | with_reducible apply goes_next
    | with_reducible apply k_foldl
    | intro _
    | dsimp only
    | split

theorem k_opStore {m : List Part} (hm : Within [.aon, .host, .ptns, .ctxs, .colls, .cmds, .hearth, .faults, .levels, .icern, .hbm, .poison, .free] m) (a0 : Nat) (a1 : Nat) (a2 : W128) {s t : State} (h : Keeps m s t) : Keeps m s (opStore a0 a1 a2 t) := by
  unfold opStore
  try dsimp only
  repeat' first
    | with_reducible assumption
    | with_reducible apply k_sandboxFault (hm.of (by decide))
    | with_reducible apply k_waitFor (hm.of (by decide))
    | with_reducible apply k_stepDone (hm.of (by decide))
    | with_reducible apply k_updAnvil (hm.of (by decide))
    | with_reducible apply k_foldl
    | intro _
    | dsimp only
    | split

theorem k_execStore {m : List Part} (hm : Within [.aon, .host, .ptns, .ctxs, .colls, .cmds, .hearth, .faults, .levels, .icern, .hbm, .poison, .free] m) (a0 : Fin 12) (a1 : Fin 864) (a2 : SpRead) {s t : State} (h : Keeps m s t) : Goes m s (execStore a0 a1 a2 t) := by
  unfold execStore
  try dsimp only
  repeat' first
    | with_reducible assumption
    | with_reducible apply k_readingOp (hm.of (by decide))
    | with_reducible apply k_opStore (hm.of (by decide))
    | with_reducible apply goes_onlyIf
    | with_reducible apply goes_next
    | with_reducible apply k_foldl
    | intro _
    | dsimp only
    | split

theorem k_execWcFence {m : List Part} (hm : Within [.aon, .host, .ptns, .ctxs, .colls, .cmds, .hearth, .faults, .levels, .icern, .hbm, .poison, .free] m) (a0 : FenceDone) {s t : State} (h : Keeps m s t) : Goes m s (execWcFence a0 t) := by
  unfold execWcFence
  try dsimp only
  repeat' first
    | with_reducible assumption
    | with_reducible apply k_completeFence (hm.of (by decide))
    | with_reducible apply goes_onlyIf
    | with_reducible apply goes_next
    | with_reducible apply k_foldl
    | intro _
    | dsimp only
    | split

theorem k_execXorOp {m : List Part} (hm : Within [.aon, .host, .ptns, .ctxs, .colls, .cmds, .hearth, .faults, .levels, .seamTok, .icern, .hbm, .poison, .free] m) (a0 : Fin 12) {s t : State} (h : Keeps m s t) : Goes m s (execXorOp a0 t) := by
  unfold execXorOp
  try dsimp only
  repeat' first
    | with_reducible assumption
    | with_reducible apply k_homeAtomic (hm.of (by decide))
    | with_reducible apply goes_onlyIf
    | with_reducible apply goes_next
    | with_reducible apply k_foldl
    | intro _
    | dsimp only
    | split

theorem k_stopAtYield {m : List Part} (hm : Within [.aon, .host, .ptns, .ctxs, .colls, .cmds, .hearth, .faults, .icern, .free] m) (a0 : Nat) (a1 : Nat) {s t : State} (h : Keeps m s t) : Keeps m s (stopAtYield a0 a1 t) := by
  unfold stopAtYield
  try dsimp only
  repeat' first
    | with_reducible assumption
    | with_reducible apply k_abandonChunk (hm.of (by decide))
    | with_reducible apply k_park (hm.of (by decide))
    | with_reducible apply k_killHere (hm.of (by decide))
    | with_reducible apply k_foldl
    | intro _
    | dsimp only
    | split

theorem k_opYield {m : List Part} (hm : Within [.aon, .host, .ptns, .ctxs, .colls, .cmds, .hearth, .faults, .icern, .free] m) (a0 : Nat) (a1 : Nat) (a2 : W128) {s t : State} (h : Keeps m s t) : Keeps m s (opYield a0 a1 a2 t) := by
  unfold opYield
  try dsimp only
  repeat' first
    | with_reducible assumption
    | with_reducible apply k_waitFor (hm.of (by decide))
    | with_reducible apply k_updAnvil (hm.of (by decide))
    | with_reducible apply k_goTo (hm.of (by decide))
    | with_reducible apply k_chargeAnvil (hm.of (by decide))
    | with_reducible apply k_stopAtYield (hm.of (by decide))
    | with_reducible apply k_foldl
    | intro _
    | dsimp only
    | split

theorem k_execYield {m : List Part} (hm : Within [.aon, .host, .ptns, .ctxs, .colls, .cmds, .hearth, .faults, .icern, .free] m) (a0 : Fin 12) (a1 : Fin 864) {s t : State} (h : Keeps m s t) : Goes m s (execYield a0 a1 t) := by
  unfold execYield
  try dsimp only
  repeat' first
    | with_reducible assumption
    | with_reducible apply k_runOp (hm.of (by decide))
    | with_reducible apply k_opYield (hm.of (by decide))
    | with_reducible apply goes_onlyIf
    | with_reducible apply goes_next
    | with_reducible apply k_foldl
    | intro _
    | dsimp only
    | split

theorem k_overrunYield {m : List Part} (hm : Within [.aon, .host, .ptns, .ctxs, .colls, .cmds, .hearth, .faults, .levels, .icern, .hbm, .poison, .free] m) (a0 : Nat) (a1 : Nat) {s t : State} (h : Keeps m s t) : Keeps m s (overrunYield a0 a1 t) := by
  unfold overrunYield
  try dsimp only
  repeat' first
    | with_reducible assumption
    | with_reducible apply k_updAnvil (hm.of (by decide))
    | with_reducible apply k_sandboxFault (hm.of (by decide))
    | with_reducible apply k_foldl
    | intro _
    | dsimp only
    | split

theorem k_execYieldOverrun {m : List Part} (hm : Within [.aon, .host, .ptns, .ctxs, .colls, .cmds, .hearth, .faults, .levels, .icern, .hbm, .poison, .free] m) (a0 : Fin 12) (a1 : Fin 864) {s t : State} (h : Keeps m s t) : Goes m s (execYieldOverrun a0 a1 t) := by
  unfold execYieldOverrun
  try dsimp only
  repeat' first
    | with_reducible assumption
    | with_reducible apply k_overrunYield (hm.of (by decide))
    | with_reducible apply goes_onlyIf
    | with_reducible apply goes_next
    | with_reducible apply k_foldl
    | intro _
    | dsimp only
    | split

theorem k_meet {m : List Part} (hm : Within [.aon, .host, .ptns, .ctxs, .colls, .cmds, .hearth, .faults, .levels, .icern, .free] m) (a0 : CrucMet) (a1 : HomeReq) (a2 : State → State) {s t : State} (h : Keeps m s t) (g2 : ∀ u, Keeps m s u → Keeps m s (a2 u)) : Keeps m s (meet a0 a1 a2 t) := by
  unfold meet
  try dsimp only
  repeat' first
    | with_reducible assumption
    | with_reducible apply k_dropCached (hm.of (by decide))
    | with_reducible apply k_engineFault (hm.of (by decide))
    | with_reducible apply k_postFault (hm.of (by decide))
    | with_reducible apply k_startL2 (hm.of (by decide))
    | with_reducible apply g2
    | with_reducible apply k_foldl
    | intro _
    | dsimp only
    | split

theorem k_goExport {m : List Part} (hm : Within [.aon, .host, .ptns, .ctxs, .colls, .cmds, .hearth, .faults, .icern] m) (a0 : Nat) (a1 : Nat) (a2 : Nat) {s t : State} (h : Keeps m s t) : Keeps m s (goExport a0 a1 a2 t) := by
  unfold goExport
  try dsimp only
  repeat' first
    | with_reducible assumption
    | with_reducible apply k_finishExport (hm.of (by decide))
    | with_reducible apply k_failCmd (hm.of (by decide))
    | with_reducible apply k_queueChunk (hm.of (by decide))
    | with_reducible apply k_updCmd (hm.of (by decide))
    | with_reducible apply k_demand (hm.of (by decide))
    | with_reducible apply k_foldl
    | intro _
    | dsimp only
    | split

theorem k_exportChunk {m : List Part} (hm : Within [.aon, .host, .ptns, .ctxs, .colls, .cmds, .hearth, .faults, .seamTok, .icern] m) (a0 : Nat) (a1 : Chunk) {s t : State} (h : Keeps m s t) : Keeps m s (exportChunk a0 a1 t) := by
  unfold exportChunk
  try dsimp only
  repeat' first
    | with_reducible assumption
    | with_reducible apply k_engineMove (hm.of (by decide))
    | with_reducible apply k_postBytes (hm.of (by decide))
    | with_reducible apply k_updCmd (hm.of (by decide))
    | with_reducible apply k_goExport (hm.of (by decide))
    | with_reducible apply k_finishExport (hm.of (by decide))
    | with_reducible apply k_foldl
    | intro _
    | dsimp only
    | split

theorem k_startExport {m : List Part} (hm : Within [.aon, .host, .ptns, .ctxs, .colls, .cmds, .hearth, .faults, .icern] m) (a0 : Nat) {s t : State} (h : Keeps m s t) : Keeps m s (startExport a0 t) := by
  unfold startExport
  try dsimp only
  repeat' first
    | with_reducible assumption
    | with_reducible apply k_goExport (hm.of (by decide))
    | with_reducible apply k_updCmd (hm.of (by decide))
    | with_reducible apply k_foldl
    | intro _
    | dsimp only
    | split

theorem k_restartExports {m : List Part} (hm : Within [.aon, .host, .ptns, .ctxs, .colls, .cmds, .hearth, .faults, .icern] m) {s t : State} (h : Keeps m s t) : Keeps m s (restartExports t) := by
  unfold restartExports
  try dsimp only
  repeat' first
    | with_reducible assumption
    | with_reducible apply k_startExport (hm.of (by decide))
    | with_reducible apply k_foldl
    | intro _
    | dsimp only
    | split

theorem k_execExportColl {m : List Part} (hm : Within [.aon, .host, .ptns, .ctxs, .colls, .cmds, .nextCmd, .hearth, .faults, .icern] m) (a0 : Fin 1024) {s t : State} (h : Keeps m s t) : Goes m s (execExportColl a0 t) := by
  unfold execExportColl
  try dsimp only
  repeat' first
    | with_reducible assumption
    | with_reducible apply k_admitNext (hm.of (by decide))
    | with_reducible apply k_startExport (hm.of (by decide))
    | with_reducible apply goes_onlyIf
    | with_reducible apply goes_next
    | with_reducible apply k_foldl
    | intro _
    | dsimp only
    | split

theorem k_request {m : List Part} (hm : Within [.aon, .host, .ptns, .ctxs, .colls, .cmds, .hearth, .faults, .levels, .seamTok, .icern, .hbm, .poison, .free] m) (a0 : Requester) (a1 : MemReq) (a2 : CrucMet) {s t : State} (h : Keeps m s t) : Keeps m s (request a0 a1 a2 t) := by
  unfold request
  try dsimp only
  repeat' first
    | with_reducible assumption
    | with_reducible apply k_noHome (hm.of (by decide))
    | with_reducible apply k_refuseAccess (hm.of (by decide))
    | with_reducible apply k_answer (hm.of (by decide))
    | with_reducible apply k_fencedReply (hm.of (by decide))
    | with_reducible apply k_demand (hm.of (by decide))
    | with_reducible apply k_meet (hm.of (by decide))
    | with_reducible apply k_farRequest (hm.of (by decide))
    | with_reducible apply k_serveReq (hm.of (by decide))
    | with_reducible apply k_foldl
    | intro _
    | dsimp only
    | split

theorem k_execMemoryRequest {m : List Part} (hm : Within [.aon, .host, .ptns, .ctxs, .colls, .cmds, .hearth, .faults, .levels, .seamTok, .icern, .hbm, .poison, .free] m) (a0 : Requester) (a1 : ServedReq) {s t : State} (h : Keeps m s t) : Goes m s (execMemoryRequest a0 a1 t) := by
  unfold execMemoryRequest
  try dsimp only
  repeat' first
    | with_reducible assumption
    | with_reducible apply k_request (hm.of (by decide))
    | with_reducible apply goes_onlyIf
    | with_reducible apply goes_next
    | with_reducible apply k_foldl
    | intro _
    | dsimp only
    | split

theorem k_endStep {m : List Part} (hm : Within [.aon, .host, .ptns, .ctxs, .colls, .cmds, .hearth, .faults, .seamTok, .icern] m) (a0 : Nat) (a1 : Nat) {s t : State} (h : Keeps m s t) : Keeps m s (endStep a0 a1 t) := by
  unfold endStep
  try dsimp only
  repeat' first
    | with_reducible assumption
    | with_reducible apply k_poisonFault (hm.of (by decide))
    | with_reducible apply k_exportChunk (hm.of (by decide))
    | with_reducible apply k_freeAnvil (hm.of (by decide))
    | with_reducible apply k_runOp (hm.of (by decide))
    | with_reducible apply k_opEnd (hm.of (by decide))
    | with_reducible apply k_foldl
    | intro _
    | dsimp only
    | split

theorem k_execEndOp {m : List Part} (hm : Within [.aon, .host, .ptns, .ctxs, .colls, .cmds, .hearth, .faults, .seamTok, .icern] m) (a0 : Fin 12) (a1 : Fin 864) {s t : State} (h : Keeps m s t) : Goes m s (execEndOp a0 a1 t) := by
  unfold execEndOp
  try dsimp only
  repeat' first
    | with_reducible assumption
    | with_reducible apply k_endStep (hm.of (by decide))
    | with_reducible apply goes_onlyIf
    | with_reducible apply goes_next
    | with_reducible apply k_foldl
    | intro _
    | dsimp only
    | split

theorem k_moduleOos {m : List Part} (hm : Within [.aon, .host, .ptns, .ctxs, .colls, .cmds, .hearth, .faults, .icern, .hbm, .poison, .free] m) {s t : State} (h : Keeps m s t) : Keeps m s (moduleOos t) := by
  unfold moduleOos
  try dsimp only
  repeat' first
    | with_reducible assumption
    | with_reducible apply k_updAon (hm.of (by decide))
    | with_reducible apply k_failAll (hm.of (by decide))
    | with_reducible apply k_fenceForOos (hm.of (by decide))
    | with_reducible apply k_bankForOos (hm.of (by decide))
    | with_reducible apply k_foldl
    | intro _
    | dsimp only
    | split

theorem k_countRetrain {m : List Part} (hm : Within [.aon, .host, .ptns, .ctxs, .colls, .cmds, .hearth, .faults, .icern, .hbm, .poison, .free] m) {s t : State} (h : Keeps m s t) : Keeps m s (countRetrain t) := by
  unfold countRetrain
  try dsimp only
  repeat' first
    | with_reducible assumption
    | with_reducible apply k_updAon (hm.of (by decide))
    | with_reducible apply k_moduleOos (hm.of (by decide))
    | with_reducible apply k_foldl
    | intro _
    | dsimp only
    | split

theorem k_noteRetrain {m : List Part} (hm : Within [.aon, .host, .ptns, .ctxs, .colls, .cmds, .hearth, .faults, .icern, .hbm, .poison, .free] m) (a0 : Bool) {s t : State} (h : Keeps m s t) : Keeps m s (noteRetrain a0 t) := by
  unfold noteRetrain
  try dsimp only
  repeat' first
    | with_reducible assumption
    | with_reducible apply k_countRetrain (hm.of (by decide))
    | with_reducible apply k_foldl
    | intro _
    | dsimp only
    | split

theorem k_linkLoss {m : List Part} (hm : Within [.aon, .host, .ptns, .ctxs, .colls, .cmds, .hearth, .faults, .levels, .icern, .hbm, .poison, .free] m) (a0 : Bool) (a1 : Bool) {s t : State} (h : Keeps m s t) : Keeps m s (linkLoss a0 a1 t) := by
  unfold linkLoss
  try dsimp only
  repeat' first
    | with_reducible assumption
    | with_reducible apply k_noteRetrain (hm.of (by decide))
    | with_reducible apply k_updLink (hm.of (by decide))
    | with_reducible apply k_loseWork (hm.of (by decide))
    | with_reducible apply k_foldl
    | intro _
    | dsimp only
    | split

theorem k_assertPerst {m : List Part} (hm : Within [.aon, .pins, .host, .ptns, .ctxs, .colls, .cmds, .hearth, .faults, .levels, .icern, .hbm, .poison, .free] m) {s t : State} (h : Keeps m s t) : Keeps m s (assertPerst t) := by
  unfold assertPerst
  try dsimp only
  repeat' first
    | with_reducible assumption
    | with_reducible apply k_updPins (hm.of (by decide))
    | with_reducible apply k_resetFunction (hm.of (by decide))
    | with_reducible apply k_linkLoss (hm.of (by decide))
    | with_reducible apply k_foldl
    | intro _
    | dsimp only
    | split

theorem k_endL3 {m : List Part} (hm : Within [.aon, .host, .ptns, .ctxs, .colls, .cmds, .hearth, .faults, .levels, .icern, .hbm, .poison, .free] m) {s t : State} (h : Keeps m s t) : Keeps m s (endL3 t) := by
  unfold endL3
  try dsimp only
  repeat' first
    | with_reducible assumption
    | with_reducible apply k_endLevel (hm.of (by decide))
    | with_reducible apply k_moduleOos (hm.of (by decide))
    | with_reducible apply k_foldl
    | intro _
    | dsimp only
    | split

theorem k_enterD3 {m : List Part} (hm : Within [.aon, .host, .ptns, .ctxs, .colls, .cmds, .hearth, .faults, .levels, .icern, .hbm, .poison, .free] m) {s t : State} (h : Keeps m s t) : Keeps m s (enterD3 t) := by
  unfold enterD3
  try dsimp only
  repeat' first
    | with_reducible assumption
    | with_reducible apply k_noteRetrain (hm.of (by decide))
    | with_reducible apply k_loseWork (hm.of (by decide))
    | with_reducible apply k_updLink (hm.of (by decide))
    | with_reducible apply k_foldl
    | intro _
    | dsimp only
    | split

theorem k_takePins {m : List Part} (hm : Within [.aon, .host, .ptns, .ctxs, .colls, .cmds, .hearth, .faults, .levels, .icern, .jtag, .hbm, .poison, .free] m) (code : Byte) {s t : State} (hd : drives code.toNat = true) (hc : code.toNat ≤ 6)
    (h : Keeps m s t) : Keeps m s { takePins t with jtag := { (takePins t).jtag with instr := code, refused := false } } := by
  unfold takePins
  dsimp only
  have h1 : Keeps m s (if t.host.link.up then linkLoss false false t else t) := by
    split
    · exact k_linkLoss (hm.of (by decide)) _ _ h
    · exact h
  have h2 : Keeps m s ((upto 4).foldl (fun s n => if (port s n).st = .disabled then s else emptyPort n 1 s)
      (if t.host.link.up then linkLoss false false t else t)) :=
    k_foldl h1 fun u n hu => by
      split
      · exact hu
      · exact k_emptyPort (hm.of (by decide)) _ _ hu
  generalize (upto 4).foldl (fun s n => if (port s n).st = .disabled then s else emptyPort n 1 s)
      (if t.host.link.up then linkLoss false false t else t) = u at h2 ⊢
  refine k_setTap (hm.of (by decide)) h2 fun w => ?_
  rw [tapOk_iff] at w ⊢
  exact ⟨.inl hc, by rw [hd]; rfl, w.2.2⟩

theorem k_loadInstr {m : List Part} (hm : Within [.aon, .host, .ptns, .ctxs, .colls, .cmds, .hearth, .faults, .levels, .icern, .jtag, .hbm, .poison, .free] m) (code : Byte) (hc : code.toNat ≤ 6 ∨ code = 0xFF) {s t : State} (h : Keeps m s t) :
    Keeps m s (loadInstr code t) := by
  unfold loadInstr
  split
  · rename_i hd
    have h6 : code.toNat ≤ 6 := by
      simp [drives] at hd; omega
    split
    · dsimp only
      split
      · exact k_takePins (hm.of (by decide)) code hd h6 h
      · refine k_setTap (hm.of (by decide)) h fun w => ?_
        rename_i hf
        rw [tapOk_iff] at w ⊢
        exact ⟨.inl h6, by rw [hd]; simpa using hf, w.2.2⟩
    · exact k_leaveScan (hm.of (by decide)) _ _ (.inr rfl) (by decide) h
  · rename_i hd
    exact k_leaveScan (hm.of (by decide)) _ _ hc (by simpa using hd) h

theorem k_execBypass {m : List Part} (hm : Within [.aon, .host, .ptns, .ctxs, .colls, .cmds, .hearth, .faults, .levels, .icern, .jtag, .hbm, .poison, .free] m) (code : BitVec 8) {s t : State} (h : Keeps m s t) : Goes m s (execBypass code t) :=
  goes_onlyIf h fun _ hu => k_loadInstr (hm.of (by decide)) _ (.inr rfl) hu

theorem k_execChipResetDone {m : List Part} (hm : Within [.aon, .host, .ptns, .ctxs, .colls, .cmds, .hearth, .faults, .levels, .icern, .hbm, .poison, .free] m) {s t : State} (h : Keeps m s t) : Goes m s (execChipResetDone t) := by
  unfold execChipResetDone
  try dsimp only
  repeat' first
    | with_reducible assumption
    | with_reducible apply k_endL3 (hm.of (by decide))
    | with_reducible apply goes_onlyIf
    | with_reducible apply goes_next
    | with_reducible apply k_foldl
    | intro _
    | dsimp only
    | split

theorem k_execClamp {m : List Part} (hm : Within [.aon, .host, .ptns, .ctxs, .colls, .cmds, .hearth, .faults, .levels, .icern, .jtag, .hbm, .poison, .free] m) {s t : State} (h : Keeps m s t) : Goes m s (execClamp t) :=
  goes_onlyIf h fun _ hu => k_loadInstr (hm.of (by decide)) _ (.inl (by decide)) hu

theorem k_execD3hotEntry {m : List Part} (hm : Within [.aon, .host, .ptns, .ctxs, .colls, .cmds, .hearth, .faults, .levels, .icern, .hbm, .poison, .free] m) {s t : State} (h : Keeps m s t) : Goes m s (execD3hotEntry t) := by
  unfold execD3hotEntry
  try dsimp only
  repeat' first
    | with_reducible assumption
    | with_reducible apply k_enterD3 (hm.of (by decide))
    | with_reducible apply goes_onlyIf
    | with_reducible apply goes_next
    | with_reducible apply k_foldl
    | intro _
    | dsimp only
    | split

theorem k_execExtest {m : List Part} (hm : Within [.aon, .host, .ptns, .ctxs, .colls, .cmds, .hearth, .faults, .levels, .icern, .jtag, .hbm, .poison, .free] m) {s t : State} (h : Keeps m s t) : Goes m s (execExtest t) :=
  goes_onlyIf h fun _ hu => k_loadInstr (hm.of (by decide)) _ (.inl (by decide)) hu

theorem k_execExtestPulse {m : List Part} (hm : Within [.aon, .host, .ptns, .ctxs, .colls, .cmds, .hearth, .faults, .levels, .icern, .jtag, .hbm, .poison, .free] m) {s t : State} (h : Keeps m s t) : Goes m s (execExtestPulse t) :=
  goes_onlyIf h fun _ hu => k_loadInstr (hm.of (by decide)) _ (.inl (by decide)) hu

theorem k_execExtestTrain {m : List Part} (hm : Within [.aon, .host, .ptns, .ctxs, .colls, .cmds, .hearth, .faults, .levels, .icern, .jtag, .hbm, .poison, .free] m) {s t : State} (h : Keeps m s t) : Goes m s (execExtestTrain t) :=
  goes_onlyIf h fun _ hu => k_loadInstr (hm.of (by decide)) _ (.inl (by decide)) hu

theorem k_execHighz {m : List Part} (hm : Within [.aon, .host, .ptns, .ctxs, .colls, .cmds, .hearth, .faults, .levels, .icern, .jtag, .hbm, .poison, .free] m) {s t : State} (h : Keeps m s t) : Goes m s (execHighz t) :=
  goes_onlyIf h fun _ hu => k_loadInstr (hm.of (by decide)) _ (.inl (by decide)) hu

theorem k_execIdcode {m : List Part} (hm : Within [.aon, .host, .ptns, .ctxs, .colls, .cmds, .hearth, .faults, .levels, .icern, .jtag, .hbm, .poison, .free] m) {s t : State} (h : Keeps m s t) : Goes m s (execIdcode t) :=
  goes_onlyIf h fun _ hu => k_answer (hm.of (by decide)) _ (k_loadInstr (hm.of (by decide)) _ (.inl (by decide)) hu)

theorem k_overrun {m : List Part} (hm : Within [.aon, .pins, .host, .ptns, .jobs, .ctxs, .colls, .cmds, .nextCmd, .hearth, .hearthUp, .faults, .levels, .seamTok, .icern, .power, .hbm, .poison, .free] m) (a0 : Level) {s t : State} (h : Keeps m s t) : Keeps m s (overrun a0 t) := by
  unfold overrun
  try dsimp only
  repeat' first
    | with_reducible assumption
    | with_reducible apply k_postFault (hm.of (by decide))
    | with_reducible apply k_startL1 (hm.of (by decide))
    | with_reducible apply k_endLevel (hm.of (by decide))
    | with_reducible apply k_startL3 (hm.of (by decide))
    | with_reducible apply k_startL2 (hm.of (by decide))
    | with_reducible apply k_startL4 (hm.of (by decide))
    | with_reducible apply k_updAon (hm.of (by decide))
    | with_reducible apply k_moduleOos (hm.of (by decide))
    | with_reducible apply k_foldl
    | intro _
    | dsimp only
    | split

theorem k_execLevelOverrun {m : List Part} (hm : Within [.aon, .pins, .host, .ptns, .jobs, .ctxs, .colls, .cmds, .nextCmd, .hearth, .hearthUp, .faults, .levels, .seamTok, .icern, .power, .hbm, .poison, .free] m) (a0 : LadderLevel) {s t : State} (h : Keeps m s t) : Goes m s (execLevelOverrun a0 t) := by
  unfold execLevelOverrun
  try dsimp only
  repeat' first
    | with_reducible assumption
    | with_reducible apply k_overrun (hm.of (by decide))
    | with_reducible apply goes_onlyIf
    | with_reducible apply goes_next
    | with_reducible apply k_foldl
    | intro _
    | dsimp only
    | split

theorem k_execLinkDown {m : List Part} (hm : Within [.aon, .host, .ptns, .ctxs, .colls, .cmds, .hearth, .faults, .levels, .icern, .hbm, .poison, .free] m) {s t : State} (h : Keeps m s t) : Goes m s (execLinkDown t) := by
  unfold execLinkDown
  try dsimp only
  repeat' first
    | with_reducible assumption
    | with_reducible apply k_spend (hm.of (by decide))
    | with_reducible apply k_linkLoss (hm.of (by decide))
    | with_reducible apply goes_onlyIf
    | with_reducible apply goes_next
    | with_reducible apply k_foldl
    | intro _
    | dsimp only
    | split

theorem k_trained {m : List Part} (hm : Within [.aon, .host, .ptns, .ctxs, .colls, .cmds, .hearth, .faults, .icern, .hbm, .poison, .free] m) (a0 : Nat) (a1 : Nat) (a2 : Bool) {s t : State} (h : Keeps m s t) : Keeps m s (trained a0 a1 a2 t) := by
  unfold trained
  try dsimp only
  repeat' first
    | with_reducible assumption
    | with_reducible apply k_updLink (hm.of (by decide))
    | with_reducible apply k_noteRetrain (hm.of (by decide))
    | with_reducible apply k_raise (hm.of (by decide))
    | with_reducible apply k_postFault (hm.of (by decide))
    | with_reducible apply k_foldl
    | intro _
    | dsimp only
    | split

theorem k_execLinkTrained {m : List Part} (hm : Within [.aon, .host, .ptns, .ctxs, .colls, .cmds, .hearth, .faults, .icern, .hbm, .poison, .free] m) (a0 : Nat) (a1 : Nat) (a2 : Bool) {s t : State} (h : Keeps m s t) : Goes m s (execLinkTrained a0 a1 a2 t) := by
  unfold execLinkTrained
  try dsimp only
  repeat' first
    | with_reducible assumption
    | with_reducible apply k_trained (hm.of (by decide))
    | with_reducible apply goes_onlyIf
    | with_reducible apply goes_next
    | with_reducible apply k_foldl
    | intro _
    | dsimp only
    | split

theorem k_execPerstAssert {m : List Part} (hm : Within [.aon, .pins, .host, .ptns, .ctxs, .colls, .cmds, .hearth, .faults, .levels, .icern, .hbm, .poison, .free] m) {s t : State} (h : Keeps m s t) : Goes m s (execPerstAssert t) := by
  unfold execPerstAssert
  try dsimp only
  repeat' first
    | with_reducible assumption
    | with_reducible apply k_assertPerst (hm.of (by decide))
    | with_reducible apply goes_onlyIf
    | with_reducible apply goes_next
    | with_reducible apply k_foldl
    | intro _
    | dsimp only
    | split

theorem k_restartPort {m : List Part} (hm : Within [.aon, .host, .ptns, .ctxs, .colls, .cmds, .hearth, .faults, .icern, .hbm, .poison, .free] m) (a0 : Nat) {s t : State} (h : Keeps m s t) : Keeps m s (restartPort a0 t) := by
  unfold restartPort
  try dsimp only
  repeat' first
    | with_reducible assumption
    | with_reducible apply k_updPort (hm.of (by decide))
    | with_reducible apply k_countRetrain (hm.of (by decide))
    | with_reducible apply k_foldl
    | intro _
    | dsimp only
    | split

theorem k_execPortRestart {m : List Part} (hm : Within [.aon, .host, .ptns, .ctxs, .colls, .cmds, .hearth, .faults, .icern, .hbm, .poison, .free] m) (a0 : Fin 4) {s t : State} (h : Keeps m s t) : Goes m s (execPortRestart a0 t) := by
  unfold execPortRestart
  try dsimp only
  repeat' first
    | with_reducible assumption
    | with_reducible apply k_restartPort (hm.of (by decide))
    | with_reducible apply goes_onlyIf
    | with_reducible apply goes_next
    | with_reducible apply k_foldl
    | intro _
    | dsimp only
    | split

theorem captured_length (s : State) (l : List Bool) : (captured s l).length = 71 := by simp [captured, laneCells, upto]

theorem k_execSamplePreload {m : List Part} (hm : Within [.aon, .host, .ptns, .ctxs, .colls, .cmds, .hearth, .faults, .levels, .icern, .jtag, .hbm, .poison, .free] m) (pins : List Bool) {s t : State} (h : Keeps m s t) :
    Goes m s (execSamplePreload pins t) :=
  goes_onlyIf h fun _ hu => k_setTap (hm.of (by decide)) (k_loadInstr (hm.of (by decide)) _ (.inl (by decide)) hu) fun w => by
    rw [tapOk_iff] at w ⊢
    exact ⟨w.1, w.2.1, .inr (captured_length _ _)⟩

theorem k_powerWrite {m : List Part} (hm : Within [.aon, .host, .ptns, .ctxs, .colls, .cmds, .hearth, .faults, .levels, .icern, .hbm, .poison, .free] m) (a0 : Nat) {s t : State} (h : Keeps m s t) : Keeps m s (powerWrite a0 t) := by
  unfold powerWrite
  try dsimp only
  repeat' first
    | with_reducible assumption
    | with_reducible apply k_enterD3 (hm.of (by decide))
    | with_reducible apply k_updLink (hm.of (by decide))
    | with_reducible apply k_foldl
    | intro _
    | dsimp only
    | split

theorem k_ite {m : List Part} {c : Prop} [Decidable c] {s a b : State} (x : Keeps m s a) (y : Keeps m s b) : Keeps m s (if c then a else b) := by
  split
  · exact x
  · exact y

theorem k_configWrite {m : List Part} (hm : Within [.aon, .host, .ptns, .ctxs, .colls, .cmds, .hearth, .faults, .levels, .icern, .hbm, .poison, .free] m) (a0 : Nat) (a1 : Nat) {s t : State} (h : Keeps m s t) : Keeps m s (configWrite a0 a1 t) := by
  unfold configWrite
  have h1 : ∀ f, Keeps m s (updCfg f t) := fun f => k_updCfg (hm.of (by decide)) f h
  exact k_ite (h1 _) <| k_ite (h1 _) <| k_ite (k_powerWrite (hm.of (by decide)) _ h) <| k_ite (h1 _) <| k_ite (h1 _) <| k_ite (h1 _) <|
    k_ite (h1 _) <| k_ite (h1 _) <| k_ite (h1 _) <| k_ite (k_updLink (hm.of (by decide)) _ h) <|
    k_ite (k_ite (h1 _) (k_ite (k_doeGo (hm.of (by decide)) h) h)) <| k_ite (h1 _) <| k_ite (h1 _) h

theorem k_writeReg {m : List Part} (hm : Within [.aon, .host, .ptns, .ctxs, .colls, .cmds, .hearth, .faults, .levels, .icern, .hbm, .poison, .free] m) (a0 : RegPath) (a1 : Nat) (a2 : Nat) (a3 : Nat) {s t : State} (h : Keeps m s t) : Keeps m s (writeReg a0 a1 a2 a3 t) := by
  unfold writeReg
  try dsimp only
  repeat' first
    | with_reducible assumption
    | with_reducible apply k_updLink (hm.of (by decide))
    | with_reducible apply k_barWrite (hm.of (by decide))
    | with_reducible apply k_answer (hm.of (by decide))
    | with_reducible apply k_writeWords (Within.nil m)
    | with_reducible apply k_componentWrite (hm.of (by decide))
    | with_reducible apply k_configWrite (hm.of (by decide))
    | with_reducible apply k_tableWrite (hm.of (by decide))
    | with_reducible apply k_mbxWrite (hm.of (by decide))
    | with_reducible apply k_foldl
    | intro _
    | dsimp only
    | split

theorem k_execRegisterWrite {m : List Part} (hm : Within [.aon, .host, .ptns, .ctxs, .colls, .cmds, .hearth, .faults, .levels, .icern, .hbm, .poison, .free] m) (a0 : RegPath) (a1 : Nat) (a2 : Nat) (a3 : W64) {s t : State} (h : Keeps m s t) : Goes m s (execRegisterWrite a0 a1 a2 a3 t) := by
  unfold execRegisterWrite
  try dsimp only
  repeat' first
    | with_reducible assumption
    | with_reducible apply k_writeReg (hm.of (by decide))
    | with_reducible apply goes_onlyIf
    | with_reducible apply goes_next
    | with_reducible apply k_foldl
    | intro _
    | dsimp only
    | split

theorem k_foldFails {m : List Part} (hm : Within [.aon, .host, .ptns, .ctxs, .colls, .cmds, .hearth, .faults, .levels, .icern, .free] m) (a0 : Nat) (a1 : FoldNode) {s t : State} (h : Keeps m s t) : Keeps m s (foldFails a0 a1 t) := by
  unfold foldFails
  try dsimp only
  repeat' first
    | with_reducible assumption
    | with_reducible apply k_engineFault (hm.of (by decide))
    | with_reducible apply k_postFault (hm.of (by decide))
    | with_reducible apply k_foldl
    | intro _
    | dsimp only
    | split

theorem k_tryPart {m : List Part} (hm : Within [.aon, .host, .ptns, .ctxs, .colls, .cmds, .hearth, .faults, .icern, .free] m) (a0 : Nat) {s t : State} (h : Keeps m s t) : Keeps m s (tryPart a0 t) := by
  unfold tryPart
  try dsimp only
  repeat' first
    | with_reducible assumption
    | with_reducible apply k_takeLacking (hm.of (by decide))
    | with_reducible apply k_freeBufs (hm.of (by decide))
    | with_reducible apply k_updCmd (hm.of (by decide))
    | with_reducible apply k_afterPayload (hm.of (by decide))
    | with_reducible apply k_takePayload (hm.of (by decide))
    | with_reducible apply k_demandAll (hm.of (by decide))
    | with_reducible apply pair_foldl
    | (with_reducible apply pair_get; with_reducible assumption)
    | with_reducible apply k_foldl
    | intro _
    | dsimp only
    | split

theorem k_ingestFails {m : List Part} (hm : Within [.aon, .host, .ptns, .ctxs, .colls, .cmds, .hearth, .faults, .levels, .icern, .free] m) (a0 : IngestFault) (a1 : Nat) {s t : State} (h : Keeps m s t) : Keeps m s (ingestFails a0 a1 t) := by
  unfold ingestFails
  try dsimp only
  repeat' first
    | with_reducible assumption
    | with_reducible apply k_engineFault (hm.of (by decide))
    | with_reducible apply k_postFault (hm.of (by decide))
    | with_reducible apply k_foldl
    | intro _
    | dsimp only
    | split

theorem k_commitBatch {m : List Part} (hm : Within [.aon, .host, .ptns, .ctxs, .colls, .cmds, .hearth, .faults, .seamTok, .icern] m) (a0 : Nat) (a1 : Nat) (a2 : Cmd) {s t : State} (h : Keeps m s t) : Keeps m s (commitBatch a0 a1 a2 t) := by
  unfold commitBatch
  try dsimp only
  repeat' first
    | with_reducible assumption
    | with_reducible apply k_prepareBatch (hm.of (by decide))
    | with_reducible apply k_liftHorizons (hm.of (by decide))
    | with_reducible apply k_commitNow (hm.of (by decide))
    | with_reducible apply if_none
    | with_reducible apply if_some
    | with_reducible apply with_none
    | with_reducible apply with_some
    | with_reducible apply if_getD
    | with_reducible apply if_bind
    | with_reducible apply if_mapState
    | with_reducible apply if_bindWith
    | with_reducible apply if_mapWith
    | with_reducible apply if_foldl
    | with_reducible apply with_map
    | with_reducible apply if_map
    | with_reducible apply with_mapOpt
    | (with_reducible apply if_get; with_reducible assumption)
    | (with_reducible apply with_get; with_reducible assumption)
    | with_reducible apply k_foldl
    | intro _
    | dsimp only
    | split

theorem k_readyWork {m : List Part} (hm : Within [.aon, .host, .ptns, .ctxs, .colls, .cmds, .hearth, .faults, .icern] m) (a0 : Nat) {s t : State} (h : Keeps m s t) : Keeps m s (readyWork a0 t) := by
  unfold readyWork
  try dsimp only
  repeat' first
    | with_reducible assumption
    | with_reducible apply k_fillPlaces (hm.of (by decide))
    | with_reducible apply k_queueDescents (hm.of (by decide))
    | with_reducible apply k_pruneChunks (hm.of (by decide))
    | with_reducible apply k_restartExports (hm.of (by decide))
    | with_reducible apply k_restartExact (hm.of (by decide))
    | with_reducible apply k_foldl
    | intro _
    | dsimp only
    | split

theorem k_execFoldMerge {m : List Part} (hm : Within [.aon, .host, .ptns, .ctxs, .colls, .cmds, .hearth, .faults, .levels, .icern, .free] m) (a0 : MergeAt) (a1 : Nat) (a2 : Nat) {s t : State} (h : Keeps m s t) : Goes m s (execFoldMerge a0 a1 a2 t) := by
  unfold execFoldMerge
  try dsimp only
  repeat' first
    | with_reducible assumption
    | with_reducible apply k_foldFails (hm.of (by decide))
    | with_reducible apply k_merge (hm.of (by decide))
    | with_reducible apply goes_onlyIf
    | with_reducible apply goes_next
    | with_reducible apply k_foldl
    | intro _
    | dsimp only
    | split

theorem k_execAnvilTake {m : List Part} (hm : Within [.aon, .host, .ptns, .ctxs, .colls, .cmds, .hearth, .faults, .icern, .free] m) (a0 : Fin 12) (a1 : Fin 24) {s t : State} (h : Keeps m s t) : Goes m s (execAnvilTake a0 a1 t) := by
  unfold execAnvilTake
  try dsimp only
  repeat' first
    | with_reducible assumption
    | with_reducible apply k_takeAnvil (hm.of (by decide))
    | with_reducible apply k_readyWork (hm.of (by decide))
    | with_reducible apply goes_onlyIf
    | with_reducible apply goes_next
    | with_reducible apply k_foldl
    | intro _
    | dsimp only
    | split

theorem k_partialList {m : List Part} (hm : Within [.aon, .host, .ptns, .ctxs, .colls, .cmds, .hearth, .faults, .levels, .icern, .free] m) (a0 : Msg) {s t : State} (h : Keeps m s t) : Keeps m s (partialList a0 t) := by
  unfold partialList
  try dsimp only
  repeat' first
    | with_reducible assumption
    | with_reducible apply k_failCmd (hm.of (by decide))
    | with_reducible apply k_foldFails (hm.of (by decide))
    | with_reducible apply k_takeList (hm.of (by decide))
    | with_reducible apply k_foldl
    | intro _
    | dsimp only
    | split

theorem k_execPartialList {m : List Part} (hm : Within [.aon, .host, .ptns, .ctxs, .colls, .cmds, .hearth, .faults, .levels, .icern, .free] m) (a0 : Nat) {s t : State} (h : Keeps m s t) : Goes m s (execPartialList a0 t) := by
  unfold execPartialList
  try dsimp only
  repeat' first
    | with_reducible assumption
    | with_reducible apply k_withMsg (hm.of (by decide))
    | with_reducible apply k_partialList (hm.of (by decide))
    | with_reducible apply goes_onlyIf
    | with_reducible apply goes_next
    | with_reducible apply k_foldl
    | intro _
    | dsimp only
    | split

theorem k_query {m : List Part} (hm : Within [.aon, .host, .ptns, .ctxs, .colls, .cmds, .nextCmd, .hearth, .faults, .icern, .free] m) (a0 : Msg) {s t : State} (h : Keeps m s t) : Keeps m s (query a0 t) := by
  unfold query
  try dsimp only
  repeat' first
    | with_reducible assumption
    | with_reducible apply k_firewall (hm.of (by decide))
    | with_reducible apply k_dropMsg (hm.of (by decide))
    | with_reducible apply k_yieldRun (hm.of (by decide))
    | with_reducible apply k_spend (hm.of (by decide))
    | with_reducible apply k_takeMsg (hm.of (by decide))
    | with_reducible apply k_refusePart (hm.of (by decide))
    | with_reducible apply k_freeBufs (hm.of (by decide))
    | with_reducible apply k_takePool (hm.of (by decide))
    | with_reducible apply k_tryPart (hm.of (by decide))
    | with_reducible apply k_addCmd (hm.of (by decide))
    | with_reducible apply if_none
    | with_reducible apply if_some
    | with_reducible apply with_none
    | with_reducible apply with_some
    | with_reducible apply if_getD
    | with_reducible apply if_bind
    | with_reducible apply if_mapState
    | with_reducible apply if_bindWith
    | with_reducible apply if_mapWith
    | with_reducible apply if_foldl
    | with_reducible apply with_map
    | with_reducible apply if_map
    | with_reducible apply with_mapOpt
    | (with_reducible apply if_get; with_reducible assumption)
    | (with_reducible apply with_get; with_reducible assumption)
    | with_reducible apply k_foldl
    | intro _
    | dsimp only
    | split

theorem k_execQueryFwd {m : List Part} (hm : Within [.aon, .host, .ptns, .ctxs, .colls, .cmds, .nextCmd, .hearth, .faults, .icern, .free] m) (a0 : Nat) {s t : State} (h : Keeps m s t) : Goes m s (execQueryFwd a0 t) := by
  unfold execQueryFwd
  try dsimp only
  repeat' first
    | with_reducible assumption
    | with_reducible apply k_tryPart (hm.of (by decide))
    | with_reducible apply k_query (hm.of (by decide))
    | with_reducible apply goes_onlyIf
    | with_reducible apply goes_next
    | with_reducible apply k_foldl
    | intro _
    | dsimp only
    | split

theorem k_anvilFree {m : List Part} (hm : Within [.aon, .host, .ptns, .ctxs, .colls, .cmds, .hearth, .faults, .icern] m) (a0 : Nat) (a1 : Nat) {s t : State} (h : Keeps m s t) : Keeps m s (anvilFree a0 a1 t) := by
  unfold anvilFree
  try dsimp only
  repeat' first
    | with_reducible assumption
    | with_reducible apply k_takeWork (hm.of (by decide))
    | with_reducible apply k_readyWork (hm.of (by decide))
    | with_reducible apply k_foldl
    | intro _
    | dsimp only
    | split

theorem k_execAnvilFree {m : List Part} (hm : Within [.aon, .host, .ptns, .ctxs, .colls, .cmds, .hearth, .faults, .icern] m) (a0 : Fin 12) (a1 : Fin 864) {s t : State} (h : Keeps m s t) : Goes m s (execAnvilFree a0 a1 t) := by
  unfold execAnvilFree
  try dsimp only
  repeat' first
    | with_reducible assumption
    | with_reducible apply k_anvilFree (hm.of (by decide))
    | with_reducible apply goes_onlyIf
    | with_reducible apply goes_next
    | with_reducible apply k_foldl
    | intro _
    | dsimp only
    | split

theorem k_emitLanes {m : List Part} (hm : Within [.cmds] m) (p i : Nat) (a : Anvil) (l : List (LaneReq × Nat)) {s t : State} (h : Keeps m s t) : Keeps m s (emitLanes p i a l t).2 := by
  induction l generalizing t with
  | nil => exact h
  | cons x l ih =>
    unfold emitLanes
    split
    · exact ih (k_emitLane (hm.of (by decide)) _ _ _ _ _ h)
    · exact h

theorem k_opEmit {m : List Part} (hm : Within [.ptns, .cmds] m) (a0 : Nat) (a1 : Nat) (a2 : W128) {s t : State} (h : Keeps m s t) : Keeps m s (opEmit a0 a1 a2 t) := by
  unfold opEmit
  dsimp only
  split
  · exact k_waitFor (hm.of (by decide)) _ _ _ h
  · have h1 : ∀ a l, Keeps m s (emitLanes a0 a1 a l t).2 := fun a l => k_emitLanes (hm.of (by decide)) _ _ a l h
    split
    · next e => exact k_updAnvil (hm.of (by decide)) _ _ _ (k_waitFor (hm.of (by decide)) _ _ _ (by have q := congrArg Prod.snd e; dsimp only at q; rw [← q]; exact h1 _ _))
    · next e => exact k_stepDone (hm.of (by decide)) _ _ _ (k_updAnvil (hm.of (by decide)) _ _ _ (by have q := congrArg Prod.snd e; dsimp only at q; rw [← q]; exact h1 _ _))

theorem k_execEmit {m : List Part} (hm : Within [.ptns, .cmds] m) (a0 : Fin 12) (a1 : Fin 864) {s t : State} (h : Keeps m s t) : Goes m s (execEmit a0 a1 t) := by
  unfold execEmit
  try dsimp only
  repeat' first
    | with_reducible assumption
    | with_reducible apply k_runOp (hm.of (by decide))
    | with_reducible apply k_opEmit (hm.of (by decide))
    | with_reducible apply goes_onlyIf
    | with_reducible apply goes_next
    | with_reducible apply k_foldl
    | intro _
    | dsimp only
    | split

theorem k_prepareOlds {m : List Part} (hm : Within [.host, .ptns, .ctxs, .colls, .seamTok, .hearth] m) (c owner : Nat) (qs : List SlotRef) {s t : State} (h : Keeps m s t) :
    Keeps m s (prepareOlds c owner qs t) :=
  k_liftHorizons (hm.of (by decide)) (k_foldl h fun _ _ hu => if_getD (k_prepareTomb (hm.of (by decide)) _ _ _ hu) hu)

theorem k_appendAt {m : List Part} (hm : Within [.host, .ptns, .ctxs, .colls, .cmds, .hearth, .seamTok, .poison] m) (a0 : Nat) (a1 : Nat) {s t : State} (h : Keeps m s t) : Keeps m s (appendAt a0 a1 t).1 := by
  unfold appendAt
  dsimp only
  split
  · exact h
  · split
    · exact h
    · split
      · exact h
      · have h1 : ∀ (c k : Nat) (x : Option Nat) (y : Key) (l : List SlotRef) (p : State → Option Nat) (i j : Option Nat) (n : List Nat), Keeps m s
            (prepareOlds c k l (moveLines i j n (l.foldl (fun s q => touchTomb (p s) x q.brick s) (touchKey c x y t)))) := fun c k x y l p i j n =>
          k_prepareOlds (hm.of (by decide)) _ _ _ <| k_moveLines (hm.of (by decide)) _ _ _ (k_foldl (k_touchKey (hm.of (by decide)) _ _ _ h) fun u q hu => k_touchTomb (hm.of (by decide)) _ _ _ hu)
        split
        · exact k_updCmd (hm.of (by decide)) _ _ (h1 _ _ _ _ _ (fun s => some (collHome s _)) _ _ _)
        · split
          · exact k_updCmd (hm.of (by decide)) _ _ (h1 _ _ _ _ _ (fun s => some (collHome s _)) _ _ _)
          · next q u e =>
            have h2 : Keeps m s u := with_get e ⟨fun a v f => by
              obtain ⟨w, e1, e2⟩ := Option.bind_eq_some_iff.mp f
              exact with_get e2 (k_appendTo (hm.of (by decide)) _ _ _ _ (if_get e1 (k_startKeys (hm.of (by decide)) _ _ (h1 _ _ _ _ _ (fun s => some (collHome s _)) _ _ _))))⟩
            split
            · exact k_updCmd (hm.of (by decide)) _ _ h2
            · split
              · exact k_updCmd (hm.of (by decide)) _ _ h2
              · next e3 => exact k_updCmd (hm.of (by decide)) _ _ (with_get e3 (k_appendTo (hm.of (by decide)) _ _ _ _ h2))

theorem k_appendSome {m : List Part} (hm : Within [.host, .ptns, .ctxs, .colls, .cmds, .hearth, .seamTok, .poison] m) (a0 : Nat) (a1 : Nat) (a2 : Nat) {s t : State} (h : Keeps m s t) : Keeps m s (appendSome a0 a1 a2 t).1 := by
  unfold appendSome
  try dsimp only
  repeat' first
    | with_reducible assumption
    | with_reducible apply k_appendAt (hm.of (by decide))
    | with_reducible apply pair_foldl
    | (with_reducible apply pair_get; with_reducible assumption)
    | with_reducible apply k_foldl
    | intro _
    | dsimp only
    | split

theorem k_reappend {m : List Part} (hm : Within [.aon, .host, .ptns, .ctxs, .colls, .cmds, .hearth, .faults, .seamTok, .icern, .poison] m) (a0 : Nat) (a1 : Cmd) {s t : State} (h : Keeps m s t) : Keeps m s (reappend a0 a1 t) := by
  unfold reappend
  try dsimp only
  repeat' first
    | with_reducible assumption
    | with_reducible apply k_withdrawTombs (hm.of (by decide))
    | with_reducible apply k_clearRec (hm.of (by decide))
    | with_reducible apply k_updColl (hm.of (by decide))
    | with_reducible apply k_updCmd (hm.of (by decide))
    | with_reducible apply k_appendSome (hm.of (by decide))
    | with_reducible apply k_enterFence (hm.of (by decide))
    | with_reducible apply k_failCmd (hm.of (by decide))
    | with_reducible apply pair_foldl
    | (with_reducible apply pair_get; with_reducible assumption)
    | with_reducible apply k_foldl
    | intro _
    | dsimp only
    | split

theorem k_assignUpTo {m : List Part} (hm : Within [.aon, .host, .ptns, .ctxs, .colls, .cmds, .hearth, .faults, .seamTok, .icern, .poison] m) (a0 : Nat) (a1 : Nat) (a2 : Cmd) {s t : State} (h : Keeps m s t) : Keeps m s (assignUpTo a0 a1 a2 t) := by
  unfold assignUpTo
  try dsimp only
  repeat' first
    | with_reducible assumption
    | with_reducible apply k_appendSome (hm.of (by decide))
    | with_reducible apply k_failCmd (hm.of (by decide))
    | with_reducible apply k_allAppended (hm.of (by decide))
    | with_reducible apply k_queueChunk (hm.of (by decide))
    | with_reducible apply pair_foldl
    | (with_reducible apply pair_get; with_reducible assumption)
    | with_reducible apply k_foldl
    | intro _
    | dsimp only
    | split

theorem k_assignSome {m : List Part} (hm : Within [.aon, .host, .ptns, .ctxs, .colls, .cmds, .hearth, .faults, .seamTok, .icern, .poison] m) (a0 : Nat) (a1 : Cmd) {s t : State} (h : Keeps m s t) : Keeps m s (assignSome a0 a1 t) := by
  unfold assignSome
  try dsimp only
  repeat' first
    | with_reducible assumption
    | with_reducible apply k_assignUpTo (hm.of (by decide))
    | with_reducible apply k_foldl
    | intro _
    | dsimp only
    | split

theorem k_assignChunk {m : List Part} (hm : Within [.aon, .host, .ptns, .ctxs, .colls, .cmds, .hearth, .faults, .seamTok, .icern, .poison] m) (a0 : Nat) (a1 : Option Nat) {s t : State} (h : Keeps m s t) : Keeps m s (assignChunk a0 a1 t) := by
  unfold assignChunk
  try dsimp only
  repeat' first
    | with_reducible assumption
    | with_reducible apply k_poisonFault (hm.of (by decide))
    | with_reducible apply k_freeAnvil (hm.of (by decide))
    | with_reducible apply k_readBulk (hm.of (by decide))
    | with_reducible apply k_assignSome (hm.of (by decide))
    | with_reducible apply k_foldl
    | intro _
    | dsimp only
    | split

theorem k_commitHead {m : List Part} (hm : Within [.aon, .host, .ptns, .ctxs, .colls, .cmds, .hearth, .faults, .seamTok, .icern, .poison] m) (a0 : Nat) {s t : State} (h : Keeps m s t) : Keeps m s (commitHead a0 t) := by
  unfold commitHead
  try dsimp only
  repeat' first
    | with_reducible assumption
    | with_reducible apply k_updColl (hm.of (by decide))
    | with_reducible apply k_updCmd (hm.of (by decide))
    | with_reducible apply k_failCmd (hm.of (by decide))
    | with_reducible apply k_reappend (hm.of (by decide))
    | with_reducible apply k_commitBatch (hm.of (by decide))
    | with_reducible apply k_foldl
    | intro _
    | dsimp only
    | split

theorem k_execBatchCommit {m : List Part} (hm : Within [.aon, .host, .ptns, .ctxs, .colls, .cmds, .hearth, .faults, .seamTok, .icern, .poison] m) (a0 : Nat) {s t : State} (h : Keeps m s t) : Goes m s (execBatchCommit a0 t) := by
  unfold execBatchCommit
  try dsimp only
  repeat' first
    | with_reducible assumption
    | with_reducible apply k_queueWaiting (hm.of (by decide))
    | with_reducible apply k_commitHead (hm.of (by decide))
    | with_reducible apply goes_onlyIf
    | with_reducible apply goes_next
    | with_reducible apply k_foldl
    | intro _
    | dsimp only
    | split

theorem k_execAssignChunk {m : List Part} (hm : Within [.aon, .host, .ptns, .ctxs, .colls, .cmds, .hearth, .faults, .levels, .seamTok, .icern, .poison, .free] m) (a0 : AssignDone) {s t : State} (h : Keeps m s t) : Goes m s (execAssignChunk a0 t) := by
  unfold execAssignChunk
  try dsimp only
  repeat' first
    | with_reducible assumption
    | with_reducible apply k_ingestFails (hm.of (by decide))
    | with_reducible apply k_assignChunk (hm.of (by decide))
    | with_reducible apply goes_onlyIf
    | with_reducible apply goes_next
    | with_reducible apply k_foldl
    | intro _
    | dsimp only
    | split

/-- Every command answers a next state and keeps s but for the parts that `mayChange` lists for it. -/
theorem k_exec (i : Instr) (s : State) : Goes (mayChange i) s (exec i s) := by
  cases i with
  | sqDoorbell r v => exact k_execSqDoorbell (fun _ h => h) r v (Keeps.refl _ s)
  | cqDoorbell r v => exact k_execCqDoorbell (fun _ h => h) r v (Keeps.refl _ s)
  | payloadDoorbell r v => exact k_execPayloadDoorbell (fun _ h => h) r v (Keeps.refl _ s)
  | evtPendClear v occ => exact k_execEvtPendClear (fun _ h => h) v occ (Keeps.refl _ s)
  | evtMaskWrite v => exact k_execEvtMaskWrite (fun _ h => h) v (Keeps.refl _ s)
  | msixUnmask vec => exact k_execMsixUnmask (fun _ h => h) vec (Keeps.refl _ s)
  | registerWrite path off size v => exact k_execRegisterWrite (fun _ h => h) path off size v (Keeps.refl _ s)
  | entryFetch r reply => exact k_execEntryFetch (fun _ h => h) r reply (Keeps.refl _ s)
  | nop r => exact k_execNop (fun _ h => h) r (Keeps.refl _ s)
  | fence r => exact k_execFence (fun _ h => h) r (Keeps.refl _ s)
  | search r far => exact k_execSearch (fun _ h => h) r far (Keeps.refl _ s)
  | searchHybrid r far => exact k_execSearchHybrid (fun _ h => h) r far (Keeps.refl _ s)
  | searchExact r far => exact k_execSearchExact (fun _ h => h) r far (Keeps.refl _ s)
  | insert r => exact k_execInsert (fun _ h => h) r (Keeps.refl _ s)
  | upsert r => exact k_execUpsert (fun _ h => h) r (Keeps.refl _ s)
  | delete r => exact k_execDelete (fun _ h => h) r (Keeps.refl _ s)
  | flush r => exact k_execFlush (fun _ h => h) r (Keeps.refl _ s)
  | epochQuery r => exact k_execEpochQuery (fun _ h => h) r (Keeps.refl _ s)
  | bulkLoad r => exact k_execBulkLoad (fun _ h => h) r (Keeps.refl _ s)
  | exportColl r => exact k_execExportColl (fun _ h => h) r (Keeps.refl _ s)
  | trdyTimeout c => exact k_execTrdyTimeout (fun _ h => h) c (Keeps.refl _ s)
  | stagedPayloadRead c => exact k_execStagedPayloadRead (fun _ h => h) c (Keeps.refl _ s)
  | stagingReuse c => exact k_execStagingReuse (fun _ h => h) c (Keeps.refl _ s)
  | dmaReadComplete c reply => exact k_execDmaReadComplete (fun _ h => h) c reply (Keeps.refl _ s)
  | dmaTimeout c => exact k_execDmaTimeout (fun _ h => h) c (Keeps.refl _ s)
  | completionWrite c solo => exact k_execCompletionWrite (fun _ h => h) c solo (Keeps.refl _ s)
  | ctimeExpiry r => exact k_execCtimeExpiry (fun _ h => h) r (Keeps.refl _ s)
  | hostWriteAccept => exact k_execHostWriteAccept (fun _ h => h) (Keeps.refl _ s)
  | linkTrained width rate flitMode => exact k_execLinkTrained (fun _ h => h) width rate flitMode (Keeps.refl _ s)
  | linkRetrainTimer => exact k_execLinkRetrainTimer (fun _ h => h) (Keeps.refl _ s)
  | linkDown => exact k_execLinkDown (fun _ h => h) (Keeps.refl _ s)
  | d3hotEntry => exact k_execD3hotEntry (fun _ h => h) (Keeps.refl _ s)
  | d0Entry => exact k_execD0Entry (fun _ h => h) (Keeps.refl _ s)
  | aspmL1Entry => exact k_execAspmL1Entry (fun _ h => h) (Keeps.refl _ s)
  | aspmL1Exit => exact k_execAspmL1Exit (fun _ h => h) (Keeps.refl _ s)
  | perstAssert => exact k_execPerstAssert (fun _ h => h) (Keeps.refl _ s)
  | perstDeassert => exact k_execPerstDeassert (fun _ h => h) (Keeps.refl _ s)
  | cxlEnable cache mem hdm => exact k_execCxlEnable (fun _ h => h) cache mem hdm (Keeps.refl _ s)
  | cxlMemAccess off acc => exact k_execCxlMemAccess (fun _ h => h) off acc (Keeps.refl _ s)
  | unsupportedRequest kind => exact k_execUnsupportedRequest (fun _ h => h) kind (Keeps.refl _ s)
  | summary m => exact k_execSummary (fun _ h => h) m (Keeps.refl _ s)
  | identify m => exact k_execIdentify (fun _ h => h) m (Keeps.refl _ s)
  | eventLog m => exact k_execEventLog (fun _ h => h) m (Keeps.refl _ s)
  | clockCorr m => exact k_execClockCorr (fun _ h => h) m (Keeps.refl _ s)
  | resultGet m => exact k_execResultGet (fun _ h => h) m (Keeps.refl _ s)
  | ptnEnable m => exact k_execPtnEnable (fun _ h => h) m (Keeps.refl _ s)
  | ptnPower m => exact k_execPtnPower (fun _ h => h) m (Keeps.refl _ s)
  | jobCreate m => exact k_execJobCreate (fun _ h => h) m (Keeps.refl _ s)
  | jobEnd m => exact k_execJobEnd (fun _ h => h) m (Keeps.refl _ s)
  | ctxCreate m => exact k_execCtxCreate (fun _ h => h) m (Keeps.refl _ s)
  | ctxDestroy m => exact k_execCtxDestroy (fun _ h => h) m (Keeps.refl _ s)
  | ringCreate m => exact k_execRingCreate (fun _ h => h) m (Keeps.refl _ s)
  | ringDestroy m => exact k_execRingDestroy (fun _ h => h) m (Keeps.refl _ s)
  | hwinSet m => exact k_execHwinSet (fun _ h => h) m (Keeps.refl _ s)
  | hdmMap m => exact k_execHdmMap (fun _ h => h) m (Keeps.refl _ s)
  | mwinSet m => exact k_execMwinSet (fun _ h => h) m (Keeps.refl _ s)
  | ringState m => exact k_execRingState (fun _ h => h) m (Keeps.refl _ s)
  | journalSet m => exact k_execJournalSet (fun _ h => h) m (Keeps.refl _ s)
  | collCreate m => exact k_execCollCreate (fun _ h => h) m (Keeps.refl _ s)
  | collDelete m => exact k_execCollDelete (fun _ h => h) m (Keeps.refl _ s)
  | collSet m => exact k_execCollSet (fun _ h => h) m (Keeps.refl _ s)
  | collStats m => exact k_execCollStats (fun _ h => h) m (Keeps.refl _ s)
  | collTrain m reply => exact k_execCollTrain (fun _ h => h) m reply (Keeps.refl _ s)
  | filterLoad m => exact k_execFilterLoad (fun _ h => h) m (Keeps.refl _ s)
  | patternLoad m reply => exact k_execPatternLoad (fun _ h => h) m reply (Keeps.refl _ s)
  | patternUnload m => exact k_execPatternUnload (fun _ h => h) m (Keeps.refl _ s)
  | roundLoad m => exact k_execRoundLoad (fun _ h => h) m (Keeps.refl _ s)
  | sharesSet m => exact k_execSharesSet (fun _ h => h) m (Keeps.refl _ s)
  | regSet m => exact k_execRegSet (fun _ h => h) m (Keeps.refl _ s)
  | crucPin m => exact k_execCrucPin (fun _ h => h) m (Keeps.refl _ s)
  | ctxStats m => exact k_execCtxStats (fun _ h => h) m (Keeps.refl _ s)
  | icernRouteSet m => exact k_execIcernRouteSet (fun _ h => h) m (Keeps.refl _ s)
  | resetPtn m => exact k_execResetPtn (fun _ h => h) m (Keeps.refl _ s)
  | resetChip m => exact k_execResetChip (fun _ h => h) m (Keeps.refl _ s)
  | fwStageBegin m => exact k_execFwStageBegin (fun _ h => h) m (Keeps.refl _ s)
  | fwStageData m reply => exact k_execFwStageData (fun _ h => h) m reply (Keeps.refl _ s)
  | fwStageFinish m => exact k_execFwStageFinish (fun _ h => h) m (Keeps.refl _ s)
  | fwStageAbort m => exact k_execFwStageAbort (fun _ h => h) m (Keeps.refl _ s)
  | fwActivateTrial m => exact k_execFwActivateTrial (fun _ h => h) m (Keeps.refl _ s)
  | fwActivateCommit m => exact k_execFwActivateCommit (fun _ h => h) m (Keeps.refl _ s)
  | fwActivateRevert m => exact k_execFwActivateRevert (fun _ h => h) m (Keeps.refl _ s)
  | fwActivateNextReset m => exact k_execFwActivateNextReset (fun _ h => h) m (Keeps.refl _ s)
  | attest m => exact k_execAttest (fun _ h => h) m (Keeps.refl _ s)
  | assayRun m bad => exact k_execAssayRun (fun _ h => h) m bad (Keeps.refl _ s)
  | assayLog m => exact k_execAssayLog (fun _ h => h) m (Keeps.refl _ s)
  | marginRun m errs => exact k_execMarginRun (fun _ h => h) m errs (Keeps.refl _ s)
  | busyComplete t => exact k_execBusyComplete (fun _ h => h) t (Keeps.refl _ s)
  | ticketDiscard t => exact k_execTicketDiscard (fun _ h => h) t (Keeps.refl _ s)
  | mbxStuck m => exact k_execMbxStuck (fun _ h => h) m (Keeps.refl _ s)
  | summaryExpire => exact k_execSummaryExpire (fun _ h => h) (Keeps.refl _ s)
  | hearthWake => exact k_execHearthWake (fun _ h => h) (Keeps.refl _ s)
  | hearthSleep => exact k_execHearthSleep (fun _ h => h) (Keeps.refl _ s)
  | hearthRestartDone => exact k_execHearthRestartDone (fun _ h => h) (Keeps.refl _ s)
  | trialTimeout => exact k_execTrialTimeout (fun _ h => h) (Keeps.refl _ s)
  | hearthFault cause core => exact k_execHearthFault (fun _ h => h) cause core (Keeps.refl _ s)
  | hearthRestartTimeout => exact k_execHearthRestartTimeout (fun _ h => h) (Keeps.refl _ s)
  | laneBind p a pattern lanes => exact k_execLaneBind (fun _ h => h) p a pattern lanes (Keeps.refl _ s)
  | stepNop p a => exact k_execStepNop (fun _ h => h) p a (Keeps.refl _ s)
  | branch p a => exact k_execBranch (fun _ h => h) p a (Keeps.refl _ s)
  | loop p a => exact k_execLoop (fun _ h => h) p a (Keeps.refl _ s)
  | setc p a => exact k_execSetc (fun _ h => h) p a (Keeps.refl _ s)
  | setr p a => exact k_execSetr (fun _ h => h) p a (Keeps.refl _ s)
  | next p a => exact k_execNext (fun _ h => h) p a (Keeps.refl _ s)
  | wait p a => exact k_execWait (fun _ h => h) p a (Keeps.refl _ s)
  | signal p a => exact k_execSignal (fun _ h => h) p a (Keeps.refl _ s)
  | yield p a => exact k_execYield (fun _ h => h) p a (Keeps.refl _ s)
  | endOp p a => exact k_execEndOp (fun _ h => h) p a (Keeps.refl _ s)
  | fetchb p a => exact k_execFetchb (fun _ h => h) p a (Keeps.refl _ s)
  | fetchw p r => exact k_execFetchw (fun _ h => h) p r (Keeps.refl _ s)
  | store p a sp => exact k_execStore (fun _ h => h) p a sp (Keeps.refl _ s)
  | atomic p a sp => exact k_execAtomic (fun _ h => h) p a sp (Keeps.refl _ s)
  | mfence p a => exact k_execMfence (fun _ h => h) p a (Keeps.refl _ s)
  | move p a sp => exact k_execMove (fun _ h => h) p a sp (Keeps.refl _ s)
  | tileclr p a => exact k_execTileclr (fun _ h => h) p a (Keeps.refl _ s)
  | dot p a sp => exact k_execDot (fun _ h => h) p a sp (Keeps.refl _ s)
  | bound p a sp => exact k_execBound (fun _ h => h) p a sp (Keeps.refl _ s)
  | score p a sp => exact k_execScore (fun _ h => h) p a sp (Keeps.refl _ s)
  | bfma p a sp => exact k_execBfma (fun _ h => h) p a sp (Keeps.refl _ s)
  | sgather p a sp => exact k_execSgather (fun _ h => h) p a sp (Keeps.refl _ s)
  | sieve p a sp => exact k_execSieve (fun _ h => h) p a sp (Keeps.refl _ s)
  | skip p a => exact k_execSkip (fun _ h => h) p a (Keeps.refl _ s)
  | select p a sp => exact k_execSelect (fun _ h => h) p a sp (Keeps.refl _ s)
  | selclr p a => exact k_execSelclr (fun _ h => h) p a (Keeps.refl _ s)
  | emit p a => exact k_execEmit (fun _ h => h) p a (Keeps.refl _ s)
  | fetchLand p a idx => exact k_execFetchLand (fun _ h => h) p a idx (Keeps.refl _ s)
  | yieldOverrun p a => exact k_execYieldOverrun (fun _ h => h) p a (Keeps.refl _ s)
  | add32 p => exact k_execAdd32 (fun _ h => h) p (Keeps.refl _ s)
  | add64 p => exact k_execAdd64 (fun _ h => h) p (Keeps.refl _ s)
  | minu p => exact k_execMinu (fun _ h => h) p (Keeps.refl _ s)
  | maxu p => exact k_execMaxu (fun _ h => h) p (Keeps.refl _ s)
  | mins p => exact k_execMins (fun _ h => h) p (Keeps.refl _ s)
  | maxs p => exact k_execMaxs (fun _ h => h) p (Keeps.refl _ s)
  | andOp p => exact k_execAndOp (fun _ h => h) p (Keeps.refl _ s)
  | orOp p => exact k_execOrOp (fun _ h => h) p (Keeps.refl _ s)
  | xorOp p => exact k_execXorOp (fun _ h => h) p (Keeps.refl _ s)
  | cas32 p => exact k_execCas32 (fun _ h => h) p (Keeps.refl _ s)
  | cas64 p => exact k_execCas64 (fun _ h => h) p (Keeps.refl _ s)
  | bitset p => exact k_execBitset (fun _ h => h) p (Keeps.refl _ s)
  | bitclr p => exact k_execBitclr (fun _ h => h) p (Keeps.refl _ s)
  | hinc p => exact k_execHinc (fun _ h => h) p (Keeps.refl _ s)
  | semAcq p => exact k_execSemAcq (fun _ h => h) p (Keeps.refl _ s)
  | semRel p => exact k_execSemRel (fun _ h => h) p (Keeps.refl _ s)
  | memoryRequest who ev => exact k_execMemoryRequest (fun _ h => h) who ev (Keeps.refl _ s)
  | farQueueServe p => exact k_execFarQueueServe (fun _ h => h) p (Keeps.refl _ s)
  | hbmReadComplete p line fixed bad => exact k_execHbmReadComplete (fun _ h => h) p line fixed bad (Keeps.refl _ s)
  | wcbAgeFlush p ch bad => exact k_execWcbAgeFlush (fun _ h => h) p ch bad (Keeps.refl _ s)
  | wcFence done => exact k_execWcFence (fun _ h => h) done (Keeps.refl _ s)
  | scrubRead p ch fixed bad => exact k_execScrubRead (fun _ h => h) p ch fixed bad (Keeps.refl _ s)
  | scrubBurst done => exact k_execScrubBurst (fun _ h => h) done (Keeps.refl _ s)
  | regAdapt p obs => exact k_execRegAdapt (fun _ h => h) p obs (Keeps.refl _ s)
  | stackTempSample p t => exact k_execStackTempSample (fun _ h => h) p t (Keeps.refl _ s)
  | policyConflict p loopNo minimum => exact k_execPolicyConflict (fun _ h => h) p loopNo minimum (Keeps.refl _ s)
  | hotCountHalve p => exact k_execHotCountHalve (fun _ h => h) p (Keeps.refl _ s)
  | clipWindowClose p coll => exact k_execClipWindowClose (fun _ h => h) p coll (Keeps.refl _ s)
  | batchCommit coll => exact k_execBatchCommit (fun _ h => h) coll (Keeps.refl _ s)
  | epochClose coll => exact k_execEpochClose (fun _ h => h) coll (Keeps.refl _ s)
  | horizonAdvance coll upTo => exact k_execHorizonAdvance (fun _ h => h) coll upTo (Keeps.refl _ s)
  | settlingSweep coll brick => exact k_execSettlingSweep (fun _ h => h) coll brick (Keeps.refl _ s)
  | journalAck c reply => exact k_execJournalAck (fun _ h => h) c reply (Keeps.refl _ s)
  | journalSpaceTimeout c => exact k_execJournalSpaceTimeout (fun _ h => h) c (Keeps.refl _ s)
  | journalAckTimeout c => exact k_execJournalAckTimeout (fun _ h => h) c (Keeps.refl _ s)
  | releasedReread ctx => exact k_execReleasedReread (fun _ h => h) ctx (Keeps.refl _ s)
  | releasedReadDone ctx reply => exact k_execReleasedReadDone (fun _ h => h) ctx reply (Keeps.refl _ s)
  | releasedReadTimeout ctx => exact k_execReleasedReadTimeout (fun _ h => h) ctx (Keeps.refl _ s)
  | tampCut coll lst => exact k_execTampCut (fun _ h => h) coll lst (Keeps.refl _ s)
  | tampCopy coll lst => exact k_execTampCopy (fun _ h => h) coll lst (Keeps.refl _ s)
  | tampCommit coll lst => exact k_execTampCommit (fun _ h => h) coll lst (Keeps.refl _ s)
  | tampRetire coll lst => exact k_execTampRetire (fun _ h => h) coll lst (Keeps.refl _ s)
  | trainChunk coll => exact k_execTrainChunk (fun _ h => h) coll (Keeps.refl _ s)
  | strataCommit coll => exact k_execStrataCommit (fun _ h => h) coll (Keeps.refl _ s)
  | redistributeChunk coll p => exact k_execRedistributeChunk (fun _ h => h) coll p (Keeps.refl _ s)
  | redistributeDone coll => exact k_execRedistributeDone (fun _ h => h) coll (Keeps.refl _ s)
  | looseFree coll => exact k_execLooseFree (fun _ h => h) coll (Keeps.refl _ s)
  | assignChunk done => exact k_execAssignChunk (fun _ h => h) done (Keeps.refl _ s)
  | descentEnd c row => exact k_execDescentEnd (fun _ h => h) c row (Keeps.refl _ s)
  | listIssue p c row => exact k_execListIssue (fun _ h => h) p c row (Keeps.refl _ s)
  | pieceIssue p c row term => exact k_execPieceIssue (fun _ h => h) p c row term (Keeps.refl _ s)
  | probeStop c => exact k_execProbeStop (fun _ h => h) c (Keeps.refl _ s)
  | deadlineEnd c => exact k_execDeadlineEnd (fun _ h => h) c (Keeps.refl _ s)
  | refineStart p c row => exact k_execRefineStart (fun _ h => h) p c row (Keeps.refl _ s)
  | hybridFusion p c row => exact k_execHybridFusion (fun _ h => h) p c row (Keeps.refl _ s)
  | foldMerge node c row => exact k_execFoldMerge (fun _ h => h) node c row (Keeps.refl _ s)
  | finalSelection c row => exact k_execFinalSelection (fun _ h => h) c row (Keeps.refl _ s)
  | farRerankStart c => exact k_execFarRerankStart (fun _ h => h) c (Keeps.refl _ s)
  | farRowArrive c row idx reply => exact k_execFarRowArrive (fun _ h => h) c row idx reply (Keeps.refl _ s)
  | roundSlotAdvance p => exact k_execRoundSlotAdvance (fun _ h => h) p (Keeps.refl _ s)
  | anvilFree p a => exact k_execAnvilFree (fun _ h => h) p a (Keeps.refl _ s)
  | anvilTake p r => exact k_execAnvilTake (fun _ h => h) p r (Keeps.refl _ s)
  | preemptSaveDone p a => exact k_execPreemptSaveDone (fun _ h => h) p a (Keeps.refl _ s)
  | killPreempt p ctx => exact k_execKillPreempt (fun _ h => h) p ctx (Keeps.refl _ s)
  | residentIdleTimeout p ctx => exact k_execResidentIdleTimeout (fun _ h => h) p ctx (Keeps.refl _ s)
  | residentBlockedTimeout p ctx => exact k_execResidentBlockedTimeout (fun _ h => h) p ctx (Keeps.refl _ s)
  | swapWaitTimeout p ctx => exact k_execSwapWaitTimeout (fun _ h => h) p ctx (Keeps.refl _ s)
  | swapStart p => exact k_execSwapStart (fun _ h => h) p (Keeps.refl _ s)
  | swapPhaseEnd p => exact k_execSwapPhaseEnd (fun _ h => h) p (Keeps.refl _ s)
  | semOverhold p ctx => exact k_execSemOverhold (fun _ h => h) p ctx (Keeps.refl _ s)
  | senior w => exact k_execSenior (fun _ h => h) w (Keeps.refl _ s)
  | engineWatchdog unit p => exact k_execEngineWatchdog (fun _ h => h) unit p (Keeps.refl _ s)
  | commandWatchdog c => exact k_execCommandWatchdog (fun _ h => h) c (Keeps.refl _ s)
  | killDone ctx unit p => exact k_execKillDone (fun _ h => h) ctx unit p (Keeps.refl _ s)
  | fenceStart p => exact k_execFenceStart (fun _ h => h) p (Keeps.refl _ s)
  | drainWindowEnd p => exact k_execDrainWindowEnd (fun _ h => h) p (Keeps.refl _ s)
  | engineResetDone unit p => exact k_execEngineResetDone (fun _ h => h) unit p (Keeps.refl _ s)
  | partitionResetDone p => exact k_execPartitionResetDone (fun _ h => h) p (Keeps.refl _ s)
  | chipResetDone => exact k_execChipResetDone (fun _ h => h) (Keeps.refl _ s)
  | levelOverrun level => exact k_execLevelOverrun (fun _ h => h) level (Keeps.refl _ s)
  | seamFault cause dir => exact k_execSeamFault (fun _ h => h) cause dir (Keeps.refl _ s)
  | ctrl p ch => exact k_execCtrl (fun _ h => h) p ch (Keeps.refl _ s)
  | windowExpire w => exact k_execWindowExpire (fun _ h => h) w (Keeps.refl _ s)
  | zeroiseDone scope => exact k_execZeroiseDone (fun _ h => h) scope (Keeps.refl _ s)
  | warmIdleTimeout p => exact k_execWarmIdleTimeout (fun _ h => h) p (Keeps.refl _ s)
  | bankedIdleTimeout p => exact k_execBankedIdleTimeout (fun _ h => h) p (Keeps.refl _ s)
  | bankedEntryDone p => exact k_execBankedEntryDone (fun _ h => h) p (Keeps.refl _ s)
  | exitDemand p => exact k_execExitDemand (fun _ h => h) p (Keeps.refl _ s)
  | exitDone p failed => exact k_execExitDone (fun _ h => h) p failed (Keeps.refl _ s)
  | pllLockLoss p => exact k_execPllLockLoss (fun _ h => h) p (Keeps.refl _ s)
  | powerTick10us watts => exact k_execPowerTick10us (fun _ h => h) watts (Keeps.refl _ s)
  | powerTick100us => exact k_execPowerTick100us (fun _ h => h) (Keeps.refl _ s)
  | powerTick1ms => exact k_execPowerTick1ms (fun _ h => h) (Keeps.refl _ s)
  | dieTempSample d t => exact k_execDieTempSample (fun _ h => h) d t (Keeps.refl _ s)
  | dieDepthTick d => exact k_execDieDepthTick (fun _ h => h) d (Keeps.refl _ s)
  | thermtrip d => exact k_execThermtrip (fun _ h => h) d (Keeps.refl _ s)
  | coolantSample inlet outlet => exact k_execCoolantSample (fun _ h => h) inlet outlet (Keeps.refl _ s)
  | leak => exact k_execLeak (fun _ h => h) (Keeps.refl _ s)
  | supply => exact k_execSupply (fun _ h => h) (Keeps.refl _ s)
  | auxSupplyUp => exact k_execAuxSupplyUp (fun _ h => h) (Keeps.refl _ s)
  | auxSupplyLoss => exact k_execAuxSupplyLoss (fun _ h => h) (Keeps.refl _ s)
  | pwrEnAssert => exact k_execPwrEnAssert (fun _ h => h) (Keeps.refl _ s)
  | pwrEnDeassert => exact k_execPwrEnDeassert (fun _ h => h) (Keeps.refl _ s)
  | pwrgd => exact k_execPwrgd (fun _ h => h) (Keeps.refl _ s)
  | bootComplete => exact k_execBootComplete (fun _ h => h) (Keeps.refl _ s)
  | getstatus => exact k_execGetstatus (fun _ h => h) (Keeps.refl _ s)
  | setdasa addr => exact k_execSetdasa (fun _ h => h) addr (Keeps.refl _ s)
  | entdaa addr => exact k_execEntdaa (fun _ h => h) addr (Keeps.refl _ s)
  | pldmPlimWrite watts => exact k_execPldmPlimWrite (fun _ h => h) watts (Keeps.refl _ s)
  | pldmSensorRead sensor => exact k_execPldmSensorRead (fun _ h => h) sensor (Keeps.refl _ s)
  | pldmFwUpdate image => exact k_execPldmFwUpdate (fun _ h => h) image (Keeps.refl _ s)
  | spdmMessage t kind msg => exact k_execSpdmMessage (fun _ h => h) t kind msg (Keeps.refl _ s)
  | portTrainStepDone n lanes => exact k_execPortTrainStepDone (fun _ h => h) n lanes (Keeps.refl _ s)
  | portStepTimeout n => exact k_execPortStepTimeout (fun _ h => h) n (Keeps.refl _ s)
  | portRestart n => exact k_execPortRestart (fun _ h => h) n (Keeps.refl _ s)
  | heartbeatTimer n => exact k_execHeartbeatTimer (fun _ h => h) n (Keeps.refl _ s)
  | heartbeatLoss n => exact k_execHeartbeatLoss (fun _ h => h) n (Keeps.refl _ s)
  | alignmentLoss n => exact k_execAlignmentLoss (fun _ h => h) n (Keeps.refl _ s)
  | flitData n f => exact k_execFlitData (fun _ h => h) n f (Keeps.refl _ s)
  | flitNull n f => exact k_execFlitNull (fun _ h => h) n f (Keeps.refl _ s)
  | flitReplay n f => exact k_execFlitReplay (fun _ h => h) n f (Keeps.refl _ s)
  | flitInit n peer expected credits => exact k_execFlitInit (fun _ h => h) n peer expected credits (Keeps.refl _ s)
  | queryFwd src => exact k_execQueryFwd (fun _ h => h) src (Keeps.refl _ s)
  | partialList src => exact k_execPartialList (fun _ h => h) src (Keeps.refl _ s)
  | insertFwdPrepare src => exact k_execInsertFwdPrepare (fun _ h => h) src (Keeps.refl _ s)
  | insertFwdCommit src => exact k_execInsertFwdCommit (fun _ h => h) src (Keeps.refl _ s)
  | insertFwdWithdraw src => exact k_execInsertFwdWithdraw (fun _ h => h) src (Keeps.refl _ s)
  | insertFwdResponse src => exact k_execInsertFwdResponse (fun _ h => h) src (Keeps.refl _ s)
  | bulkData src => exact k_execBulkData (fun _ h => h) src (Keeps.refl _ s)
  | fenceNotice src => exact k_execFenceNotice (fun _ h => h) src (Keeps.refl _ s)
  | abort src => exact k_execAbort (fun _ h => h) src (Keeps.refl _ s)
  | heartbeat src => exact k_execHeartbeat (fun _ h => h) src (Keeps.refl _ s)
  | routeProbe src => exact k_execRouteProbe (fun _ h => h) src (Keeps.refl _ s)
  | routeProbeReply src => exact k_execRouteProbeReply (fun _ h => h) src (Keeps.refl _ s)
  | routeProbeTimer job => exact k_execRouteProbeTimer (fun _ h => h) job (Keeps.refl _ s)
  | probeTimeout job peer => exact k_execProbeTimeout (fun _ h => h) job peer (Keeps.refl _ s)
  | rootRouteLoss job => exact k_execRootRouteLoss (fun _ h => h) job (Keeps.refl _ s)
  | extest => exact k_execExtest (fun _ h => h) (Keeps.refl _ s)
  | idcode => exact k_execIdcode (fun _ h => h) (Keeps.refl _ s)
  | samplePreload pins => exact k_execSamplePreload (fun _ h => h) pins (Keeps.refl _ s)
  | extestPulse => exact k_execExtestPulse (fun _ h => h) (Keeps.refl _ s)
  | extestTrain => exact k_execExtestTrain (fun _ h => h) (Keeps.refl _ s)
  | clamp => exact k_execClamp (fun _ h => h) (Keeps.refl _ s)
  | highz => exact k_execHighz (fun _ h => h) (Keeps.refl _ s)
  | bypass code => exact k_execBypass (fun _ h => h) code (Keeps.refl _ s)
  | trstAssert => exact k_execTrstAssert (fun _ h => h) (Keeps.refl _ s)
  | cxlCacheSnoop addr => exact k_execCxlCacheSnoop (fun _ h => h) addr (Keeps.refl _ s)
  | flitCrcError n fec => exact k_execFlitCrcError (fun _ h => h) n fec (Keeps.refl _ s)
  | hotSwapOvercurrent => exact k_execHotSwapOvercurrent (fun _ h => h) (Keeps.refl _ s)

end Sys2Proof.Machine
end

