-- ==== Sys2Proof/Laws/Admission.lean ====
section
/-! SUPPORT. What admission does, once for every ring command: the command record, the head entry gone from the fetch buffer. -/

namespace Sys2Proof.Machine

theorem takeSlots_fetched (r n : Nat) (s : State) : (ring (takeSlots r n s).1 r).fetched = (ring s r).fetched := by
  unfold takeSlots; dsimp only; split
  · rfl
  · split <;> simp [ring, setRing, updHost]
theorem takeGranules_fetched (r : Nat) (e : BitVec 512) (s : State) : (ring (takeGranules r e s).1 r).fetched = (ring s r).fetched := by
  unfold takeGranules; dsimp only; split
  · rfl
  · split
    · rfl
    · split
      · rfl
      · simp [ring, updRing, setRing, updHost]
theorem takePools_fetched (r : Nat) (l : List Hold) (s : State) : (ring (takePools r l s).1 r).fetched = (ring s r).fetched := by
  induction l generalizing s with
  | nil => rfl
  | cons h t ih =>
    unfold takePools
    split
    · exact ih s
    · split
      · rfl
      · rw [ih]; simp [ring, updRing, setRing, updHost, takePool]
/-- A reservation takes nothing out of the fetch buffer. -/
theorem reserve_fetched (r : Nat) (e : BitVec 512) (s : State) : (ring (reserve r e s).1 r).fetched = (ring s r).fetched := by
  unfold reserve
  have h1 := takeSlots_fetched r (entrySlots e) s
  generalize takeSlots r (entrySlots e) s = a at h1
  obtain ⟨u, ok⟩ := a
  cases ok
  · exact h1
  · dsimp only at h1 ⊢
    have h2 := takeGranules_fetched r e u
    generalize takeGranules r e u = b at h2
    obtain ⟨v, ok⟩ := b
    cases ok
    · exact h2.trans h1
    · exact (takePools_fetched r _ v).trans (h2.trans h1)

theorem setRing_same_fetched (r : Nat) (x : Ring) (s : State) : (ring (setRing r x s) r).fetched = x.fetched := by simp [ring, setRing, updHost]
theorem updRing_same (r : Nat) (f : Ring → Ring) (s : State) : ring (updRing r f s) r = f (ring s r) := by simp [ring, updRing, setRing, updHost]
theorem sendVec_ring (v r : Nat) (s : State) : ring (sendVec v s) r = ring s r := by simp [ring]
theorem writeCompletion_fetched (r : Nat) (c : Option Nat) (i : Bool) (b : Bool → List Byte) (s : State) :
    (ring (writeCompletion r c i b s) r).fetched = (ring s r).fetched := by
  unfold writeCompletion; dsimp only; split
  · unfold sendRingVec; rw [sendVec_ring, updRing_same]; simp [ring, setRing, updHost]
  · simp [ring, setRing, updHost]
theorem postTrdy_fetched (r : Nat) (e : BitVec 512) (g : Option Granules) (s : State) : (ring (postTrdy r e g s) r).fetched = (ring s r).fetched := by
  unfold postTrdy; split
  · exact writeCompletion_fetched _ _ _ _ _
  · rfl

/-- The command record that admission starts from (R293, R351). -/
def admitted (r : Nat) (e : BitVec 512) (u : State) : Cmd :=
  { newCmd u r e with
    holds := (ring u r).holding, granules := (ring u r).granules, slots := (ring u r).heldSlots, stage := .running
    admitCyc := (ptn u (ctxHome u (ring u r).ctx)).cycles.toNat }

/-- Where the head is admitted, `admitNext` is the admission, then what follows it. -/
theorem admitNext_admits {s u : State} {r op : Nat} {check : State → Nat → BitVec 512 → Option Refused} {e : BitVec 512} {rest : List (BitVec 512)}
    (shape : State → Cmd → Cmd) (after : Nat → State → State) (h : Admits s r op (check s r e) e rest u) (hp : (permitted op).isSome = true) :
    admitNext r op check shape after s = after u.nextCmd (postTrdy r e (ring u r).granules (admitHead r e shape u)) := by
  have hn : (permitted op).isNone = false := by cases hq : permitted op <;> simp_all
  simp [admitNext, h.head, h.turn, h.opcode, hn, h.checked, h.fits, h.reserved]

/-- After the admission the command stands under the next number, and its entry is gone from the fetch buffer. -/
theorem admitted_facts {s u : State} {r op : Nat} {check : Option Refused} {e : BitVec 512} {rest : List (BitVec 512)}
    (shape : State → Cmd → Cmd) (h : Admits s r op check e rest u) :
    cmd? (postTrdy r e (ring u r).granules (admitHead r e shape u)) u.nextCmd = some (shape u (admitted r e u)) ∧
    (postTrdy r e (ring u r).granules (admitHead r e shape u)).nextCmd = u.nextCmd + 1 ∧ u.nextCmd = s.nextCmd ∧
    (ring (postTrdy r e (ring u r).granules (admitHead r e shape u)) r).fetched = rest := by
  have kp := k_postTrdy (m := [.host]) (fun _ h => h) r e (ring u r).granules (Keeps.refl _ (admitHead r e shape u))
  have kr : Keeps [.host] s u := by have := k_reserve (m := [.host]) (fun _ h => h) r e (Keeps.refl _ s); rwa [h.reserved] at this
  have hf : (ring u r).fetched = e :: rest := by have := reserve_fetched r e s; rw [h.reserved] at this; rw [this, h.head]
  have kd := fun ps v => k_demandAll (m := [.ptns]) (fun _ h => h) ps (Keeps.refl _ v)
  have c1 : (admitHead r e shape u).cmds = tset u.cmds u.nextCmd (shape u (admitted r e u)) := by
    unfold admitHead; exact ((kd _ _).only .cmds (by decide)).trans rfl
  have c2 : (admitHead r e shape u).nextCmd = u.nextCmd + 1 := by
    unfold admitHead; exact ((kd _ _).only .nextCmd (by decide)).trans rfl
  refine ⟨?_, ?_, kr.only .nextCmd (by decide), ?_⟩
  · unfold cmd?; rw [show _ = _ from kp.only .cmds (by decide), c1]; simp
  · rw [show _ = _ from kp.only .nextCmd (by decide), c2]
  · rw [postTrdy_fetched]
    unfold admitHead
    have : ∀ v : State, ring (demandAll (needsPtns u (ring u r).ctx (opOf e) (eColl e)) v) r = ring v r := fun v => by
      unfold ring; rw [show _ = _ from (kd _ v).only .host (by decide)]
    dsimp only
    rw [this]
    unfold popHead
    rw [updRing_same]
    have a : ∀ (x : Cmd) (v : State), ring (addCmd x v) r = ring v r := fun _ _ => rfl
    rw [a, updRing_same, hf]; rfl

theorem releaseHeld_fetched (r : Nat) (s : State) : (ring (releaseHeld r s) r).fetched = (ring s r).fetched := by
  have k := k_freePools (m := [.host]) (fun _ h => h) (ring s r).holding (Keeps.refl _ s)
  unfold releaseHeld
  rw [updRing_same]
  have a : ∀ (g : Option Granules) (v : State), ring (freeGranules g v) r = ring v r := fun g v => by unfold freeGranules; split <;> rfl
  have b : ∀ (l : List Hold) (v : State), ring (freePools l v) r = ring v r := fun l => by
    unfold freePools
    induction l with
    | nil => exact fun _ => rfl
    | cons x xs ih => exact fun v => ih (freePool x v)
  show (ring (freeGranules _ (freePools _ s)) r).fetched = _
  rw [a, b]

/-- A refused head: a command of that status, its entry gone (R119, R169, R295). -/
theorem refuseHead_facts {s v : State} {r : Nat} {e : BitVec 512} {rest : List (BitVec 512)} (f : Refused) (hf : (ring s r).fetched = e :: rest)
    (hs : takeSlots r 1 (releaseHeld r s) = (v, true)) :
    ∃ k, cmd? (refuseHead r e f s) s.nextCmd = some k ∧ k.admitted = false ∧ k.stage = .final ∧ k.status = f.status ∧ k.count = f.count ∧ k.tag = eTag e ∧
      (ring (refuseHead r e f s) r).fetched = rest := by
  have kv : Keeps [.host] s v := by
    have := k_takeSlots (m := [.host]) (fun _ h => h) r 1 (k_releaseHeld (m := [.host]) (fun _ h => h) r (Keeps.refl _ s)); rwa [hs] at this
  have hv : (ring v r).fetched = e :: rest := by
    have := takeSlots_fetched r 1 (releaseHeld r s); rw [hs] at this; rw [this, releaseHeld_fetched, hf]
  unfold refuseHead
  dsimp only
  rw [hs]
  dsimp only
  have key : ∀ w : State, Keeps [.aon, .host, .hearth, .faults] v w → (ring w r).fetched = e :: rest → ∀ c : W32,
      ∃ k, cmd? (popHead r (addCmd { newCmd (updRing r (fun x => { x with heldSlots := 0 }) w) r e with
        admitted := false, status := f.status, count := f.count, fault := c } (updRing r (fun x => { x with heldSlots := 0 }) w))) s.nextCmd = some k ∧
        k.admitted = false ∧ k.stage = .final ∧ k.status = f.status ∧ k.count = f.count ∧ k.tag = eTag e ∧
        (ring (popHead r (addCmd { newCmd (updRing r (fun x => { x with heldSlots := 0 }) w) r e with
          admitted := false, status := f.status, count := f.count, fault := c } (updRing r (fun x => { x with heldSlots := 0 }) w))) r).fetched = rest := by
    intro w kw hw c
    have n : w.nextCmd = s.nextCmd := (show _ = _ from kw.only .nextCmd (by decide)).trans (kv.only .nextCmd (by decide))
    refine ⟨{ newCmd (updRing r (fun x => { x with heldSlots := 0 }) w) r e with
      admitted := false, status := f.status, count := f.count, fault := c }, ?_, rfl, rfl, rfl, rfl, rfl, ?_⟩
    · unfold cmd?
      show tget (tset _ w.nextCmd _) s.nextCmd = _
      rw [n, tget_tset_same]
    · unfold popHead
      rw [updRing_same]
      have a : ∀ (x : Cmd) (v : State), ring (addCmd x v) r = ring v r := fun _ _ => rfl
      rw [a, updRing_same, hw]; rfl
  cases hc : f.cause.map fun c => hostFault 0x71 c (some r) with
  | none => exact key v (Keeps.refl _ v) hv _
  | some c =>
    exact key (postFault c (noteAer (f.cause.getD 0) v)) (k_postFault (fun _ h => h) c (k_noteAer (fun _ h => by simp_all) _ (Keeps.refl _ v)))
      (show (ring (postFault c (noteAer (f.cause.getD 0) v)) r).fetched = _ by unfold ring; rw [postFault_host_rings]; exact hv) _

theorem admitNext_refuses {s : State} {r op : Nat} {check : State → Nat → BitVec 512 → Option Refused} {e : BitVec 512} {rest : List (BitVec 512)}
    (shape : State → Cmd → Cmd) (after : Nat → State → State) (hh : (ring s r).fetched = e :: rest) (ht : mayAdmit s r e = true) (ho : opOf e = op)
    (hp : (permitted op).isSome = true) {f : Refused} (hc : check s r e = some f) : admitNext r op check shape after s = refuseHead r e f s := by
  have hn : (permitted op).isNone = false := by cases hq : permitted op <;> simp_all
  simp [admitNext, hh, ht, ho, hn, hc]
theorem admitNext_never {s : State} {r op : Nat} {check : State → Nat → BitVec 512 → Option Refused} {e : BitVec 512} {rest : List (BitVec 512)}
    (shape : State → Cmd → Cmd) (after : Nat → State → State) (hh : (ring s r).fetched = e :: rest) (ht : mayAdmit s r e = true) (ho : opOf e = op)
    (hp : (permitted op).isSome = true) (hc : check s r e = none) (hf : neverFits s r e = true) :
    admitNext r op check shape after s = refuseHead r e { status := .noResource } s := by
  have hn : (permitted op).isNone = false := by cases hq : permitted op <;> simp_all
  simp [admitNext, hh, ht, ho, hn, hc, hf]
theorem admitNext_waits {s u : State} {r op : Nat} {check : State → Nat → BitVec 512 → Option Refused} {e : BitVec 512} {rest : List (BitVec 512)}
    (shape : State → Cmd → Cmd) (after : Nat → State → State) (hh : (ring s r).fetched = e :: rest) (ht : mayAdmit s r e = true) (ho : opOf e = op)
    (hp : (permitted op).isSome = true) (hc : check s r e = none) (hf : neverFits s r e = false) (hr : reserve r e s = (u, false)) :
    admitNext r op check shape after s = u := by
  have hn : (permitted op).isNone = false := by cases hq : permitted op <;> simp_all
  simp [admitNext, hh, ht, ho, hn, hc, hf, hr]
/-- Where it is not the turn of the head entry, nothing happens (R185, R271). -/
theorem admitNext_idle {s : State} {r op : Nat} {check : State → Nat → BitVec 512 → Option Refused}
    (shape : State → Cmd → Cmd) (after : Nat → State → State)
    (h : ∀ e rest, (ring s r).fetched = e :: rest → mayAdmit s r e = false ∨ ((permitted (opOf e)).isSome = true ∧ opOf e ≠ op)) :
    admitNext r op check shape after s = s := by
  unfold admitNext
  split
  · rfl
  · rename_i e rest hh
    rcases h e rest hh with h | ⟨h1, h2⟩
    · simp [h]
    · have hn : (permitted (opOf e)).isNone = false := by cases hq : permitted (opOf e) <;> simp_all
      simp [hn, h2]

/-! ### The link stays -/

theorem takePools_link (r : Nat) (l : List Hold) (s : State) : (takePools r l s).1.host.link = s.host.link := by
  induction l generalizing s with
  | nil => rfl
  | cons h t ih =>
    unfold takePools
    split
    · exact ih s
    · split
      · rfl
      · rw [ih]; rfl
theorem reserve_link (r : Nat) (e : BitVec 512) (s : State) : (reserve r e s).1.host.link = s.host.link := by
  have h1 : (takeSlots r (entrySlots e) s).1.host.link = s.host.link := by
    unfold takeSlots; dsimp only; split
    · rfl
    · split <;> rfl
  have h2 : ∀ u, (takeGranules r e u).1.host.link = u.host.link := fun u => by
    unfold takeGranules; dsimp only; split
    · rfl
    · split
      · rfl
      · split <;> rfl
  unfold reserve
  generalize takeSlots r (entrySlots e) s = a at h1
  obtain ⟨u, ok⟩ := a
  cases ok
  · exact h1
  · have h2 := h2 u
    dsimp only at h1 ⊢
    generalize takeGranules r e u = b at h2
    obtain ⟨v, ok⟩ := b
    cases ok
    · exact h2.trans h1
    · exact (takePools_link r _ v).trans (h2.trans h1)
theorem writeCompletion_link (r : Nat) (c : Option Nat) (i : Bool) (b : Bool → List Byte) (s : State) : (writeCompletion r c i b s).host.link = s.host.link := by
  unfold writeCompletion; dsimp only; split
  · unfold sendRingVec; rw [sendVec_host_link]; exact postWrite_host_link _ _
  · exact postWrite_host_link _ _
theorem postTrdy_link (r : Nat) (e : BitVec 512) (g : Option Granules) (s : State) : (postTrdy r e g s).host.link = s.host.link := by
  unfold postTrdy; split
  · exact writeCompletion_link _ _ _ _ _
  · rfl
theorem admitHead_link (r : Nat) (e : BitVec 512) (shape : State → Cmd → Cmd) (s : State) : (admitHead r e shape s).host.link = s.host.link := by
  unfold admitHead
  have k := k_demandAll (m := [.ptns]) (fun _ h => h) (needsPtns s (ring s r).ctx (opOf e) (eColl e)) (Keeps.refl _
    (popHead r (addCmd (shape s (admitted r e s)) (updRing r (fun y => { y with heldSlots := 0, holding := [], granules := none, senior := none }) s))))
  exact (congrArg HostIf.link k.same_host).trans rfl

end Sys2Proof.Machine
end

