-- ==== Sys2Proof/Laws/Anvils.lean ====
section
/-! SUPPORT. The shell of the anvil's ops: when an op runs, when it is a one-cycle no-op, and what the end of a step leaves. -/

namespace Sys2Proof.Machine

theorem anvil_stepDone (n p i : Nat) (s : State) : anvil (stepDone n p i s) p i = stepped n (anvil s p i) := by
  simp [stepDone, addCycles, nextStep, stepped]

theorem anvil_branch (t p i : Nat) (s : State) :
    anvil (addCycles 2 p i (goTo t p i s)) p i =
      branched ((anvil s p i).base + (if listed (anvil s p i) then t else t % anvSteps s (anvil s p i))) (anvil s p i) := by
  simp [addCycles, goTo, branched]

@[simp] theorem counted_clean (a : Anvil) : counted .clean a = a := rfl

/-- An op whose own body reads its condition runs whenever its step is met. -/
theorem runOp_always {p i op : Nat} {f : W128 → State → State} {s : State} {w : W128} (h : stepWordAt s p i op = some w)
    (o : op = 0x02 ∨ op = 0x08 ∨ op = 0x09 ∨ op = 0x01 ∨ op = 0x31 ∨ op = 0x34 ∧ (anvil s p i).emitted > 0) : runOp p i op f s = f w s := by
  unfold runOp; rw [h]; exact if_pos o

theorem runOp_runs {p i op : Nat} {f : W128 → State → State} {s : State} {w : W128} (h : meets s p i op w = true) :
    runOp p i op f s = f w s := by
  simp only [meets, Bool.and_eq_true, beq_iff_eq] at h
  unfold runOp; rw [h.1]; dsimp only; rw [if_pos h.2]; exact ite_self _

theorem runOp_skips {p i op : Nat} {f : W128 → State → State} {s : State} {w : W128} (h : stepWordAt s p i op = some w)
    (o : ¬(op = 0x02 ∨ op = 0x08 ∨ op = 0x09 ∨ op = 0x01 ∨ op = 0x31 ∨ op = 0x34 ∧ (anvil s p i).emitted > 0)) (c : stepCondition s p i w = false) :
    runOp p i op f s = stepDone 1 p i s := by
  unfold runOp; rw [h]; dsimp only; rw [if_neg o, c]; rfl

theorem runOp_none {p i op : Nat} {f : W128 → State → State} {s : State} (h : stepWordAt s p i op = none) : runOp p i op f s = s := by
  unfold runOp; rw [h]

theorem readsClear_any {a : Anvil} {rs : List (Nat × Nat)} (h : readsClear a rs = true) :
    (rs.any fun r => fetching a r.1 r.2) = false ∧ (rs.any fun r => padPoisoned a r.1 r.2) = false := by
  simp only [readsClear, List.all_eq_true, Bool.and_eq_true, Bool.not_eq_true'] at h
  constructor <;> rw [List.any_eq_false] <;> intro r hr <;> simp [(h r hr).1, (h r hr).2]

/-- A reading op whose ranges are clear runs; a corrected scratchpad error is counted first. -/
theorem readingOp_runs {p i op : Nat} {compute : Bool} {reads : Anvil → W128 → List (Nat × Nat)} {sp : SpRead}
    {f : W128 → State → State} {s : State} {w : W128} (h : meets s p i op w = true)
    (c : readsClear (anvil s p i) (reads (anvil s p i) w) = true) (u : sp ≠ .uncorrectable) :
    readingOp p i op compute reads sp f s = f w (if sp = .corrected then updAnvil p i (fun a => { a with ceCnt := satInc a.ceCnt }) s else s) := by
  unfold readingOp
  rw [runOp_runs h]
  dsimp only
  obtain ⟨c1, c2⟩ := readsClear_any c
  by_cases l : listed (anvil s p i) = true
  · rw [if_pos l, if_neg (by rw [c1]; exact Bool.false_ne_true), if_neg u, if_neg (by rw [c2, Bool.and_false]; exact Bool.false_ne_true)]
  · rw [if_neg l, if_neg (by simp), if_neg u, if_neg (by simp)]

/-! ### What charging and a note on an anvil leave -/

/-- A write of a value that tests as the one it replaces leaves every test of the table as it was. -/
theorem any_tset {α : Type} (P : α → Bool) (t : Tbl α) (k : Nat) (a : α) (h : P a = (tget t k).any P) :
    (tset t k a).any (fun x => P x.2) = t.any (fun x => P x.2) := by
  induction t with
  | nil => simp only [tset, List.any_cons, List.any_nil, Bool.or_false]; rw [h]; rfl
  | cons c t ih =>
    obtain ⟨n, b⟩ := c
    unfold tset
    unfold tget at h
    by_cases e : n = k
    · rw [if_pos e] at h
      rw [if_neg (by omega), if_pos e]
      simp only [List.any_cons]; rw [h]; rfl
    · rw [if_neg e] at h
      by_cases l : k < n
      · rw [if_pos l]
        simp only [List.any_cons]
        cases pa : P a with
        | false => rfl
        | true =>
          rw [pa] at h
          have : (t.any fun x => P x.2) = true := by
            cases hy : tget t k with
            | none => rw [hy] at h; cases h
            | some y =>
            have py : P y = true := by rw [hy] at h; exact h.symm
            rw [List.any_eq_true]
            refine ⟨(k, y), ?_, py⟩
            clear ih h l e
            induction t with
            | nil => cases hy
            | cons d t ih =>
              obtain ⟨m, z⟩ := d
              unfold tget at hy
              by_cases f : m = k
              · rw [if_pos f] at hy; cases hy; rw [f]; exact List.mem_cons_self
              · rw [if_neg f] at hy; exact List.mem_cons_of_mem _ (ih hy)
          rw [this]; simp
      · rw [if_neg l, if_neg e]
        simp only [List.any_cons]; rw [ih h]

theorem holdsSemaphore_updAnvil (c p i : Nat) (f : Anvil → Anvil) (s : State) :
    holdsSemaphore c (updAnvil p i f s) = holdsSemaphore c s := by
  unfold holdsSemaphore updAnvil updPtn
  refine any_tset (fun x : Ptn => !(tgetD x.holders c []).isEmpty) s.ptns p _ ?_
  unfold ptn tgetD
  cases tget s.ptns p <;> rfl

theorem anvil_updPtn {p i : Nat} {q : Nat} {f : Ptn → Ptn} {s : State} (h : ∀ x, (f x).anvils = x.anvils) :
    anvil (updPtn p f s) q i = anvil s q i := by
  unfold anvil
  by_cases e : q = p
  · rw [e, ptn_updPtn_same, h]
  · rw [ptn_updPtn_other _ _ e]

@[simp] theorem anvil_updCmd (c : Nat) (f : Cmd → Cmd) (s : State) (q i : Nat) : anvil (updCmd c f s) q i = anvil s q i := by
  unfold anvil ptn; rw [updCmd_ptns]

@[simp] theorem anvil_updCtx (c : Nat) (f : Ctx → Ctx) (s : State) (q i : Nat) : anvil (updCtx c f s) q i = anvil s q i := by
  unfold anvil ptn; rw [updCtx_ptns]

theorem anvil_of_ptns {p i : Nat} {s t : State} (h : t.ptns = s.ptns) : anvil t p i = anvil s p i := by unfold anvil ptn; rw [h]

theorem anvil_vtime (p q i : Nat) (g : Ptn → Tbl Nat) (s : State) : anvil (updPtn p (fun y => { y with vtime := g y }) s) q i = anvil s q i :=
  anvil_updPtn (fun _ => rfl)

theorem anvil_chargeCtx (p c : Nat) (bulk : Bool) (w x q i : Nat) (s : State) : anvil (chargeCtx p c bulk w x s) q i = anvil s q i := by
  unfold chargeCtx; dsimp only
  split
  · rw [anvil_updCtx]
  · exact (anvil_vtime p q i _ _).trans (anvil_updCtx _ _ _ _ _)

theorem anvil_chargeLanes (p : Nat) (bulk : Bool) (ls : List LaneReq) (x q i : Nat) (s : State) : anvil (chargeLanes p bulk ls x s) q i = anvil s q i := by
  unfold chargeLanes; dsimp only
  generalize max 1 ls.length = n
  generalize ls.zipIdx = l
  induction l generalizing s with
  | nil => rfl
  | cons a l ih =>
    rw [List.foldl_cons, ih]
    split
    · rw [anvil_chargeCtx, anvil_updCmd]
    · rfl

theorem anvil_chargeChunk (p : Nat) (k : Chunk) (x q i : Nat) (s : State) : anvil (chargeChunk p k x s) q i = anvil s q i := by
  unfold chargeChunk
  split
  · rw [anvil_chargeCtx, anvil_updCmd]
  · split
    · rw [anvil_chargeCtx]
    · rfl

/-- A charge leaves the anvil but for the cycle it was charged at. -/
theorem anvil_chargeAnvil (p i : Nat) (s : State) :
    anvil (chargeAnvil p i s) p i = { anvil s p i with charge := (ptn s p).cycles.toNat } := by
  unfold chargeAnvil; dsimp only
  split
  · rw [anvil_chargeChunk, anvil_updAnvil_same]
  · rw [anvil_chargeLanes, anvil_updAnvil_same]

end Sys2Proof.Machine
end

