-- ==== Sys2Proof/Laws/Ends.lean ====
section
/-! SUPPORT. How a command ends that fails: its outcome is fixed, whatever else its end does to rings, pools and work. -/

namespace Sys2Proof.Machine

theorem within_self (m : List Part) : Within m m := fun _ h => h

/-- Withdrawing a command's records and tombstones leaves every command but for its record places. -/
theorem withdraw_cmd {s : State} {c : Nat} {x : Cmd} (h : cmd? s c = some x) :
    ∃ l, cmd? (withdraw c s) c = some { x with recs := l } ∧ ∀ d, d ≠ c → cmd? (withdraw c s) d = cmd? s d := by
  unfold withdraw
  rw [h]
  dsimp only
  split
  · exact ⟨x.recs, h, fun _ _ => rfl⟩
  · have fold : ∀ (l : List Rec) (s : State), (l.foldl (fun s r => clearRec x.coll r s) s).cmds = s.cmds := by
      intro l
      induction l with
      | nil => exact fun _ => rfl
      | cons r l ih => exact fun s => (ih _).trans (k_clearRec (within_self _) _ _ (Keeps.refl _ s)).same_cmds
    have jr : ∀ s : State, (giveUpJournal x.ctx c (withdrawTombs c s)).cmds = s.cmds := fun s =>
      ((k_giveUpJournal (within_self _) _ _ (Keeps.refl _ _)).same_cmds).trans (k_withdrawTombs (within_self _) _ (Keeps.refl _ s)).same_cmds
    have up : ∀ (u : State) (f : Cmd → Cmd), u.cmds = s.cmds → cmd? (updCmd c f u) c = some (f x) ∧
        ∀ d, d ≠ c → cmd? (updCmd c f u) d = cmd? s d := fun u f e => by
      have hy : cmd? u c = some x := by unfold cmd?; rw [e]; exact h
      unfold updCmd; rw [hy]; exact ⟨by simp [cmd?, setCmd], fun d hd => by simp [cmd?, setCmd, hd, e]⟩
    have key : ∀ u : State, u.cmds = s.cmds → ∃ l, cmd? (updCmd c (fun x => { x with recs := x.recs.map fun r => { r with slot := none, spillSlot := none } }) u) c =
        some { x with recs := l } ∧ ∀ d, d ≠ c → cmd? (updCmd c (fun x => { x with recs := x.recs.map fun r => { r with slot := none, spillSlot := none } }) u) d = cmd? s d :=
      fun u e => ⟨_, (up u _ e).1, (up u _ e).2⟩
    split
    · exact key _ ((jr _).trans (fold _ _))
    · exact key _ ((jr _).trans (fold _ _))

theorem sendAll_cmds (ms : List Nat) (f : Nat → Msg) (s : State) : (sendAll ms f s).cmds = s.cmds :=
  (k_sendAll (within_self _) _ _ (Keeps.refl _ s)).same_cmds

theorem cmd_of {s t : State} (c : Nat) (h : t.cmds = s.cmds) : cmd? t c = cmd? s c := by unfold cmd?; rw [h]

/-- Every command of s is in t as it was, but for the anvil cycles charged to it (R241). -/
structure Charged (s t : State) : Prop where
  cmd : ∀ c x, cmd? s c = some x → ∃ n, cmd? t c = some { x with anvilCyc := n }

theorem Charged.of_cmds {s t : State} (h : t.cmds = s.cmds) : Charged s t := ⟨fun c x e => ⟨x.anvilCyc, by rw [cmd_of c h]; exact e⟩⟩
theorem Charged.trans {s t u : State} (a : Charged s t) (b : Charged t u) : Charged s u :=
  ⟨fun c x e => by
    obtain ⟨n, h⟩ := a.cmd c x e
    obtain ⟨k, h'⟩ := b.cmd c _ h
    exact ⟨k, h'⟩⟩
theorem Charged.foldl {α : Type} {l : List α} {g : State → α → State} (h : ∀ s x, Charged s (g s x)) (s : State) : Charged s (l.foldl g s) := by
  induction l generalizing s with
  | nil => exact .of_cmds rfl
  | cons a l ih => exact (h s a).trans (ih _)

theorem charged_updCmd (c : Nat) (f : Nat → Nat) (s : State) : Charged s (updCmd c (fun q => { q with anvilCyc := f q.anvilCyc }) s) := by
  refine ⟨fun d x e => ?_⟩
  by_cases h : d = c
  · subst h; exact ⟨f x.anvilCyc, by unfold updCmd; rw [e]; simp [cmd?, setCmd]⟩
  · exact ⟨x.anvilCyc, by rw [cmd_updCmd_other _ _ h]; exact e⟩
theorem charged_chargeCtx (p c : Nat) (bulk : Bool) (w x : Nat) (s : State) : Charged s (chargeCtx p c bulk w x s) :=
  .of_cmds (k_chargeCtx (m := [.ptns, .ctxs]) (within_self _) _ _ _ _ _ (Keeps.refl _ s)).same_cmds
theorem charged_chargeAnvil (p i : Nat) (s : State) : Charged s (chargeAnvil p i s) := by
  have lanes : ∀ bulk ls x u, Charged u (chargeLanes p bulk ls x u) := fun bulk ls x u => by
    unfold chargeLanes; dsimp only
    refine Charged.foldl (fun s a => ?_) u
    split
    · exact (charged_updCmd _ (fun n => n + _) s).trans (charged_chargeCtx ..)
    · exact .of_cmds rfl
  have chunk : ∀ k x u, Charged u (chargeChunk p k x u) := fun k x u => by
    unfold chargeChunk
    split
    · exact (charged_updCmd _ (fun n => n + _) u).trans (charged_chargeCtx ..)
    · split
      · exact charged_chargeCtx ..
      · exact .of_cmds rfl
  have set : Charged s (updAnvil p i (fun a => { a with charge := (ptn s p).cycles.toNat }) s) := .of_cmds rfl
  unfold chargeAnvil; dsimp only
  split
  · exact set.trans (chunk ..)
  · exact set.trans (lanes ..)
theorem charged_chargeWhere (g : Nat → Nat → Anvil → Bool) (s : State) : Charged s (chargeWhere g s) := by
  unfold chargeWhere
  exact Charged.foldl (fun s x => Charged.foldl (fun s a => charged_chargeAnvil ..) s) s
/-- Dropping the work of commands charges the anvils that stop, and leaves every command else. -/
theorem charged_dropWork (f : Nat → Bool) (s : State) : Charged s (dropWork f s) := by
  have : Charged s (chargeStopped f s) := charged_chargeWhere ..
  exact this.trans (.of_cmds rfl)

theorem finish_cmd {s : State} {c : Nat} {x : Cmd} (st : Status) (n : Nat) (f : W32) (h : cmd? s c = some x) (hf : x.stage ≠ .final) (hd : x.stage ≠ .done) :
    cmd? (finish c st n f s) c = some { x with stage := .final, status := st, count := n, fault := f } := by
  unfold finish updCmd; rw [h]; simp [cmd?, setCmd, hf, hd]

theorem abortAll_cmds (x : Cmd) (c r : Nat) (st : Status) (s : State) : (abortAll x c r st s).cmds = s.cmds :=
  (k_abortAll (within_self _) _ _ _ _ (Keeps.refl _ s)).same_cmds

/-- A command that ends: its outcome is fixed, the rest of its record stays but for the places of its records and the anvil cycles charged. -/
theorem endCmd_cmd {s : State} {c : Nat} {x : Cmd} (st : Status) (f : W32) (h : cmd? s c = some x) (hf : x.stage ≠ .final) (hd : x.stage ≠ .done) :
    ∃ l n, cmd? (endCmd c st f s) c = some { x with recs := l, anvilCyc := n, stage := .final, status := st, count := 0, fault := f } := by
  unfold endCmd
  rw [h]
  simp only [hf, hd, or_self, if_false]
  have e : ∀ u : State, u.cmds = s.cmds → ∃ l n, cmd? (dropWork (· == c) (withdraw c u)) c = some { x with recs := l, anvilCyc := n } := fun u hu => by
    obtain ⟨l, hl, _⟩ := withdraw_cmd (s := u) (c := c) (x := x) (by rw [cmd_of c hu]; exact h)
    obtain ⟨n, hn⟩ := (charged_dropWork (· == c) (withdraw c u)).cmd c _ hl
    exact ⟨l, n, hn⟩
  split
  · obtain ⟨l, n, hl⟩ := e _ (abortAll_cmds _ _ _ _ s)
    exact ⟨l, n, finish_cmd st 0 f hl hf hd⟩
  · obtain ⟨l, n, hl⟩ := e s rfl
    exact ⟨l, n, finish_cmd st 0 f hl hf hd⟩

/-- A command that fails ends so, unless it is bound to commit (R343). -/
theorem failCmd_cmd {s : State} {c : Nat} {x : Cmd} (st : Status) (f : W32) (h : cmd? s c = some x) (hm : mustCommit x = false)
    (hf : x.stage ≠ .final) (hd : x.stage ≠ .done) :
    ∃ l n, cmd? (failCmd c st f s) c = some { x with recs := l, anvilCyc := n, stage := .final, status := st, count := 0, fault := f } := by
  unfold failCmd
  rw [h, Option.any_some, hm]
  exact endCmd_cmd st f h hf hd

/-- The same, by fields. -/
theorem failCmd_ends {s : State} {c : Nat} {x : Cmd} (st : Status) (f : W32) (h : cmd? s c = some x) (hm : mustCommit x = false)
    (hf : x.stage ≠ .final) (hd : x.stage ≠ .done) :
    ∃ y, cmd? (failCmd c st f s) c = some y ∧ y.stage = .final ∧ y.status = st ∧ y.count = 0 ∧ y.fault = f ∧ y.granules = x.granules := by
  obtain ⟨l, n, hl⟩ := failCmd_cmd st f h hm hf hd
  exact ⟨_, hl, rfl, rfl, rfl, rfl, rfl⟩

theorem ptn_of {s t : State} (p : Nat) (h : t.ptns = s.ptns) : ptn t p = ptn s p := by unfold ptn; rw [h]
theorem coll_of {s t : State} (c : Nat) (h : t.colls = s.colls) : coll t c = coll s c := by unfold coll; rw [h]
theorem ctx_of {s t : State} (c : Nat) (h : t.ctxs = s.ctxs) : ctx? t c = ctx? s c := by unfold ctx?; rw [h]
theorem ring_of {s t : State} (r : Nat) (h : t.host = s.host) : ring t r = ring s r := by unfold ring; rw [h]
theorem cmd_freeGranules (g : Option Granules) (s : State) (c : Nat) : cmd? (freeGranules g s) c = cmd? s c := by unfold freeGranules; split <;> rfl
theorem cmd_updCmd {s : State} {c : Nat} {x : Cmd} (f : Cmd → Cmd) (h : cmd? s c = some x) : cmd? (updCmd c f s) c = some (f x) := by
  unfold updCmd; rw [h]; simp [cmd?, setCmd]

/-- Posted writes are only added; rings and link stay. -/
structure Posts (s t : State) : Prop where
  writes : postedWrites s <+: postedWrites t
  rings : t.host.rings = s.host.rings
  link : t.host.link = s.host.link

theorem Posts.refl (s : State) : Posts s s := ⟨List.prefix_rfl, rfl, rfl⟩
theorem Posts.trans {s t u : State} (a : Posts s t) (b : Posts t u) : Posts s u :=
  ⟨a.writes.trans b.writes, b.rings.trans a.rings, b.link.trans a.link⟩
theorem Posts.of_host {s t : State} (h : t.host = s.host) : Posts s t := ⟨by unfold postedWrites; rw [h], by rw [h], by rw [h]⟩

theorem posts_postWrite (w : HostWrite) (s : State) : Posts s (postWrite w s) := by
  unfold postWrite; split
  · split
    · rename_i q
      have e : s.host.posting = [] := by simp only [roomFor, Bool.and_eq_true, List.isEmpty_iff] at q; exact q.1
      have k : ∀ u : State, u.host.writes = s.host.writes ++ [w] → u.host.posting = [] → u.host.rings = s.host.rings → u.host.link = s.host.link → Posts s u :=
        fun u a b c d => ⟨by unfold postedWrites; rw [a, b, e, List.append_nil, List.append_nil]; exact List.prefix_append _ _, c, d⟩
      unfold enterWrite; dsimp only
      split
      · exact k _ rfl e rfl rfl
      · exact k _ rfl e rfl rfl
    · exact ⟨by unfold postedWrites updHost; dsimp only; rw [← List.append_assoc]; exact List.prefix_append _ _, rfl, rfl⟩
  · exact Posts.refl s

theorem posts_sendVec (v : Nat) (s : State) : Posts s (sendVec v s) := by
  unfold sendVec; split
  · exact ⟨List.prefix_rfl, rfl, rfl⟩
  · exact posts_postWrite _ _

theorem posts_journalWrite (j : Journal) (off : Nat) (bs : List Byte) (s : State) : Posts s (journalWrite j off bs s) := by
  unfold journalWrite; split
  · exact Posts.refl s
  · exact ⟨List.prefix_rfl, rfl, rfl⟩

theorem posts_raise (e : Event) (k o d : Nat) (s : State) : Posts s (raise e k o d s) := by
  unfold raise
  dsimp only
  have a : Posts s (updHost (fun h => { h with evtPend := h.evtPend ||| BitVec.ofNat 16 (2 ^ e.bit), evtCnt := tset h.evtCnt e.bit (evtCount s e.bit + 1) }) s) :=
    ⟨List.prefix_rfl, rfl, rfl⟩
  split
  · exact a.trans ((posts_sendVec _ _).trans (Posts.of_host rfl))
  · exact a.trans (Posts.of_host rfl)

theorem posts_updCmd (c : Nat) (f : Cmd → Cmd) (s : State) : Posts s (updCmd c f s) := by
  unfold updCmd; split <;> exact Posts.of_host rfl

theorem posts_updCtx (c : Nat) (f : Ctx → Ctx) (s : State) : Posts s (updCtx c f s) := by
  unfold updCtx; split <;> exact Posts.of_host rfl

theorem posts_writeRecord (ctx c : Nat) (g : Nat → List Byte) (s : State) : Posts s (writeRecord ctx c g s) := by
  unfold writeRecord
  have fold : ∀ (l : List JRec) (f : State → JRec → State), (∀ s r, Posts s (f s r)) → ∀ s, Posts s (l.foldl f s) := by
    intro l f hf
    induction l with
    | nil => exact fun s => Posts.refl s
    | cons r l ih => exact fun s => (hf s r).trans (ih _)
  split
  · exact (fold _ _ (fun s r => posts_journalWrite _ _ _ s) s).trans ((posts_updCtx _ _ _).trans (posts_updCtx _ _ _))
  · exact Posts.refl s

theorem posts_settleOne (c : Nat) (s : State) : Posts s (settleOne c s) := by
  have e : ∀ x, Posts s (endFlush c x s) := fun x => by
    unfold endFlush
    split
    · exact posts_updCmd _ _ _
    · split
      · exact posts_updCmd _ _ _
      · exact ((posts_updCtx _ _ _).trans (posts_writeRecord _ _ _ _)).trans (posts_updCmd _ _ _)
  unfold settleOne
  repeat' split
  all_goals first | exact Posts.refl s | exact posts_updCmd _ _ _ | exact e _

theorem posts_settleWaiters (s : State) : Posts s (settleWaiters s) := by
  unfold settleWaiters
  refine Posts.trans (t := (tkeys s.cmds).foldl (fun s c => settleOne c s) s) ?_ (Posts.of_host rfl)
  generalize tkeys s.cmds = l
  induction l generalizing s with
  | nil => exact Posts.refl s
  | cons c l ih => exact (posts_settleOne c s).trans (ih _)

theorem posts_freePools (l : List Hold) (s : State) : Posts s (freePools l s) := by
  unfold freePools
  induction l generalizing s with
  | nil => exact Posts.refl s
  | cons c l ih =>
    have a : Posts s (freePool c s) := ⟨List.prefix_rfl, rfl, rfl⟩
    exact a.trans (ih _)

theorem posts_freeGranules (g : Option Granules) (s : State) : Posts s (freeGranules g s) := by
  unfold freeGranules; split
  · exact ⟨List.prefix_rfl, rfl, rfl⟩
  · exact Posts.refl s

theorem posts_release (c : Nat) (x : Cmd) (s : State) : Posts s (release c x s) := by
  unfold release
  dsimp only
  repeat' split
  all_goals first
    | exact (posts_freePools _ _).trans (posts_updCmd _ _ _)
    | exact (posts_freePools _ _).trans (Posts.of_host rfl)
    | exact ((posts_freePools _ _).trans (posts_freeGranules _ _)).trans (posts_updCmd _ _ _)
    | exact ((posts_freePools _ _).trans (posts_freeGranules _ _)).trans (Posts.of_host rfl)

end Sys2Proof.Machine
end

