-- ==== Sys2Proof/Laws/Commit.lean ====
section
/-! SUPPORT. What a commit does to the commit queue, the CSN and the open epoch of its collection, and to its command (R173, R174). -/

namespace Sys2Proof.Machine

theorem within_of {a m : List Part} (w : ∀ p ∈ a, p ∈ m) : Within a m := w

/-- The commit queue, the CSN, the commits of the open epoch, LATEST and the job of a collection. -/
def commitLine (y : Coll) : List Nat × Nat × Nat × Epoch × Nat := (y.queue, y.csn, y.openCommits, y.latest, y.job)

theorem cline_updColl {c n : Nat} {g : Coll → Coll} (s : State) (h : ∀ y, commitLine (g y) = commitLine y) :
    commitLine (coll (updColl c g s) n) = commitLine (coll s n) := by
  by_cases e : n = c
  · subst e; rw [coll_updColl_same, h]
  · rw [coll_updColl_other _ _ e]

theorem cline_addLive (c p : Nat) (i : Int) (n : Nat) (s : State) : commitLine (coll (addLive c p i s) n) = commitLine (coll s n) := cline_updColl s fun _ => rfl
theorem cline_addTomb (c p : Nat) (i : Int) (n : Nat) (s : State) : commitLine (coll (addTomb c p i s) n) = commitLine (coll s n) := cline_updColl s fun _ => rfl
theorem cline_setKey (c : Nat) (k : Key) (e : KeyEnt) (n : Nat) (s : State) : commitLine (coll (setKey c k e s) n) = commitLine (coll s n) := cline_updColl s fun _ => rfl
theorem cline_updLeaf (c l : Nat) (f : Leaf → Leaf) (n : Nat) (s : State) : commitLine (coll (updLeaf c l f s) n) = commitLine (coll s n) := cline_updColl s fun _ => rfl
theorem cline_updBrick (c b : Nat) (f : Brick → Brick) (n : Nat) (s : State) : commitLine (coll (updBrick c b f s) n) = commitLine (coll s n) :=
  cline_updColl s fun y => by split <;> rfl
theorem cline_foldl {α : Type} (f : State → α → State) (n : Nat) (h : ∀ s a, commitLine (coll (f s a) n) = commitLine (coll s n)) (l : List α) (s : State) :
    commitLine (coll (l.foldl f s) n) = commitLine (coll s n) := by
  induction l generalizing s with
  | nil => rfl
  | cons a l ih => exact (ih _).trans (h s a)

/-- What a part of a collection is after an operation that may find no room. -/
def PartIs {β : Type} (q : Coll → β) (n : Nat) (l : β) (o : Option State) : Prop := ∀ t, o = some t → q (coll t n) = l

theorem PartIs.getD {β : Type} {q : Coll → β} {n : Nat} {l : β} {o : Option State} {s : State} (h : PartIs q n l o) (hs : q (coll s n) = l) :
    q (coll (o.getD s) n) = l := by
  cases o with
  | none => exact hs
  | some t => exact h t rfl

theorem PartIs.foldl {α β : Type} {q : Coll → β} {n : Nat} {l : β} {f : α → State → Option State}
    (h : ∀ a s, PartIs q n (q (coll s n)) (f a s)) (xs : List α) {o : Option State} (ho : PartIs q n l o) :
    PartIs q n l (xs.foldl (fun o a => o.bind (f a)) o) := by
  induction xs generalizing o with
  | nil => exact ho
  | cons a xs ih =>
    refine ih fun t e => ?_
    cases o with
    | none => cases e
    | some s => rw [h a s t e]; exact ho s rfl

theorem cline_giveRegion (c p r : Nat) (u : RegUse) (n : Nat) (s : State) : commitLine (coll (giveRegion c p r u s) n) = commitLine (coll s n) :=
  congrArg commitLine (coll_of n rfl)

theorem cline_takeDir (c p : Nat) (u : RegUse) (n : Nat) (s : State) : PartIs commitLine n (commitLine (coll s n)) (takeDir c p u s) := fun t e =>
  congrArg commitLine (coll_of n ((k_takeDir (within_self _) c p u (Keeps.refl _ s)).get t e).same_colls)

/-- A part of a collection other than its postings is what it was. -/
theorem proj_addPosting {β : Type} (q : Coll → β) (h : ∀ y p, q { y with postings := p } = q y) (c i : Nat) (e : Posting) (n : Nat) (s : State) :
    PartIs q n (q (coll s n)) (addPosting c i e s) := by
  have upd : ∀ (g : Coll → Coll) (u : State), (∀ y, q (g y) = q y) → q (coll (updColl c g u) n) = q (coll u n) := by
    intro g u hg
    by_cases e : n = c
    · subst e; rw [coll_updColl_same, hg]
    · rw [coll_updColl_other _ _ e]
  have fresh : ∀ (g : Nat → Coll → Coll), (∀ a y, q (g a y) = q y) →
      PartIs q n (q (coll s n)) ((takeBlock c (ptnOfAddr e.brick) s).map fun a => updColl c (g a.1) a.2) := by
    intro g hg t h
    obtain ⟨⟨a, v⟩, hv, rfl⟩ := Option.map_eq_some_iff.mp h
    rw [upd _ v (hg a)]
    exact congrArg q (coll_of n (with_get hv (k_takeBlock (within_self _) c _ (Keeps.refl _ s))).same_colls)
  let put : Nat → Coll → Coll := fun a y => { y with postings := tset y.postings i (tgetD (coll s c).postings i [] ++ [{ addr := a, entries := [e] }]) }
  unfold addPosting
  dsimp only
  split
  · split
    · rintro t ⟨⟩
      exact upd _ s fun _ => h _ _
    · exact fresh put fun _ _ => h _ _
  · exact fresh put fun _ _ => h _ _

theorem proj_addPostings {β : Type} (v : Coll → β) (h : ∀ y p, v { y with postings := p } = v y) (c : Nat) (e : Epoch) (a : W128)
    (sp : F32 × List (Nat × Nat)) (q : SlotRef) (n : Nat) (s : State) : PartIs v n (v (coll s n)) (addPostings c e a sp q s) :=
  PartIs.foldl (f := fun w => addPosting c w.1 { brick := q.brick, slot := q.slot, u := w.2, sigma := sp.1, epoch := e, attr := a })
    (fun _ s => proj_addPosting v h c _ _ n s) sp.2 fun _ h => by cases h; rfl

theorem proj_recPostings {β : Type} (v : Coll → β) (h : ∀ y p, v { y with postings := p } = v y) (c : Nat) (e : Epoch) (r : Rec) (n : Nat) (s : State) :
    PartIs v n (v (coll s n)) (recPostings c e r s) :=
  PartIs.foldl (f := fun q => addPostings c e r.attr r.sparse q) (fun q s => proj_addPostings v h c e _ _ q n s) _ fun _ h => by cases h; rfl

theorem cline_growDirectory (c p n : Nat) (s : State) : commitLine (coll (growDirectory c p s) n) = commitLine (coll s n) := by
  unfold growDirectory
  dsimp only
  split
  · rfl
  · next t h =>
    have k : ∀ f : CollPtn → CollPtn, commitLine (coll (updCollPtn c p f t) n) = commitLine (coll t n) := fun _ => cline_updColl t fun _ => rfl
    refine (cline_foldl _ n (fun s i => PartIs.getD (cline_takeDir c p (.over i) n s) rfl) _ _).trans ((k _).trans ?_)
    exact PartIs.foldl (fun u s => cline_takeDir c p u n s) _ (fun _ e => by cases e; rfl) t h

theorem cline_countTomb (c : Nat) (q : SlotRef) (n : Nat) (s : State) : commitLine (coll (countTomb c q s) n) = commitLine (coll s n) := by
  unfold countTomb; exact (cline_addTomb ..).trans (cline_addLive ..)

theorem cline_commitSlot (c : Nat) (e : Epoch) (g : W16) (q : SlotRef) (n : Nat) (s : State) :
    commitLine (coll (commitSlot c e g q s) n) = commitLine (coll s n) := by
  unfold commitSlot
  dsimp only
  split
  · exact (cline_updLeaf ..).trans ((cline_addLive ..).trans (cline_updBrick ..))
  · exact (cline_addLive ..).trans (cline_updBrick ..)

theorem cline_storeSparse (c : Nat) (r : Rec) (n : Nat) (s : State) : commitLine (coll (storeSparse c r s) n) = commitLine (coll s n) := by
  unfold storeSparse
  dsimp only
  split
  · rfl
  split
  · exact cline_updColl s fun _ => rfl
  split
  · exact cline_updColl s fun _ => rfl
  · rfl

theorem cline_commitRec (c op : Nat) (e : Epoch) (r : Rec) (n : Nat) (s : State) : commitLine (coll (commitRec c op e r s) n) = commitLine (coll s n) := by
  have old : ∀ s, commitLine (coll ((oldSlots (coll s c) r).foldl (fun s q => countTomb c q s) s) n) = commitLine (coll s n) := fun s =>
    cline_foldl _ n (fun s q => cline_countTomb c q n s) _ s
  unfold commitRec
  dsimp only
  split
  · split
    · exact (cline_setKey ..).trans (old s)
    · exact old s
  · split
    · exact old s
    · refine (cline_setKey ..).trans ((cline_storeSparse ..).trans ?_)
      have f : ∀ (g : W16) (l : List SlotRef) (u : State), commitLine (coll (l.foldl (fun s q => commitSlot c e g q s) u) n) = commitLine (coll u n) :=
        fun g l u => cline_foldl _ n (fun s q => cline_commitSlot c e g q n s) l u
      have g := (f (nextGen (coll s c) r.key) (recSlots r) ((oldSlots (coll s c) r).foldl (fun s q => countTomb c q s) s)).trans (old s)
      split
      · exact PartIs.getD (fun t h => (proj_recPostings commitLine (fun _ _ => rfl) _ _ _ n _ t h).trans g) g
      · exact g

theorem cline_noteFlush (c n : Nat) (e : Epoch) (csn : Nat) (s : State) : commitLine (coll (noteFlush c n e csn s) n) = commitLine (coll s n) := by
  unfold noteFlush
  split
  · exact cline_updColl s fun _ => rfl
  split
  · rw [coll_of n (updCmd_colls ..)]
  · rfl

theorem colls_prepareBatch {c : Nat} {x : Cmd} {s t : State} (h : prepareBatch c x s = some t) : t.colls = s.colls ∧ t.cmds = s.cmds ∧ t.jobs = s.jobs := by
  have k := k_prepareBatch (within_self _) c x (Keeps.refl _ s)
  exact ⟨(k.get t h).same_colls, (k.get t h).same_cmds, (k.get t h).same_jobs⟩

/-- A batch's commit has moved its lines, its deletions counted. -/
def movedState (n c : Nat) (x : Cmd) (t : State) : State :=
  let s := updCmd c (fun k => { k with deleted := k.deleted + deletedKeys (coll t n) x }) t
  moveLines (some (collHome s n)) (some x.ctx) (commitReach s n x) s
theorem movedState_colls (n c : Nat) (x : Cmd) (t : State) : (movedState n c x t).colls = t.colls :=
  (k_moveLines (within_self _) _ _ _ (Keeps.refl _ _)).same_colls.trans (updCmd_colls ..)

/-- The state in which the commit of command c is done, before what follows it. -/
def committedState (n c : Nat) (x : Cmd) (t : State) : State :=
  let y := coll t n
  let e := openEpoch y
  let s := x.recs.foldl (fun s r => commitRec n x.opcode e r s) (commitTombs c e (movedState n c x t))
  let s := updColl n (fun y => { y with queue := y.queue.drop 1, csn := y.csn + 1 }) (joinEpoch n s)
  let csn := (coll s n).csn
  let s := (jobPtns s y.job).foldl (fun s p => growDirectory n p s) s
  updCmd c (fun k => { k with epoch := e, csn := csn }) (noteFlush c n e csn s)

theorem commitNow_eq (n c : Nat) (x : Cmd) (t : State) :
    commitNow n c x t = autoTrainNow n (liveTotal (coll t n)) (afterCommit c (committedState n c x t)) := rfl

/-- The queue is one shorter, the CSN one higher, the open epoch holds one commit more; the command has the epoch and the CSN. -/
theorem committedState_line (n c : Nat) (x : Cmd) (t : State) :
    commitLine (coll (committedState n c x t) n) =
      ((coll t n).queue.drop 1, (coll t n).csn + 1, (coll t n).openCommits + 1, (coll t n).latest, (coll t n).job) := by
  unfold committedState
  dsimp only
  rw [coll_of n (updCmd_colls ..), cline_noteFlush, cline_foldl _ n (fun s p => cline_growDirectory n p n s)]
  have h0 := cline_foldl (fun s r => commitRec n x.opcode (openEpoch (coll t n)) r s) n (fun s r => cline_commitRec n x.opcode _ r n s) x.recs
    (commitTombs c (openEpoch (coll t n)) (movedState n c x t))
  rw [coll_of n (show (commitTombs c (openEpoch (coll t n)) (movedState n c x t)).colls = t.colls from movedState_colls ..)] at h0
  unfold joinEpoch
  rw [coll_updColl_same, coll_updColl_same]
  simp only [commitLine, Prod.mk.injEq] at h0 ⊢
  obtain ⟨a, b, d, e, f⟩ := h0
  exact ⟨by rw [a], by rw [b], by rw [d], e, f⟩

theorem cmd_some_updCmd {c k : Nat} {f : Cmd → Cmd} {s : State} (h : ∃ m, cmd? s c = some m) : ∃ m, cmd? (updCmd k f s) c = some m := by
  obtain ⟨m, hm⟩ := h
  by_cases e : c = k
  · subst e; exact ⟨_, cmd_updCmd f hm⟩
  · exact ⟨m, by rw [cmd_updCmd_other _ _ e, hm]⟩

theorem committedState_cmd {n c : Nat} {x k : Cmd} {t : State} (h : cmd? t c = some k) :
    ∃ m, cmd? (committedState n c x t) c = some m ∧ m.epoch = openEpoch (coll t n) ∧ m.csn = (coll t n).csn + 1 := by
  have hl := committedState_line n c x t
  unfold committedState at hl ⊢
  dsimp only at hl ⊢
  generalize hr : List.foldl (fun s r => commitRec n x.opcode (openEpoch (coll t n)) r s)
    (commitTombs c (openEpoch (coll t n)) (movedState n c x t)) x.recs = u at hl ⊢
  have hu : ∃ m, cmd? u c = some m := by
    have kk : Keeps [.ptns, .ctxs, .colls, .seamTok] (updCmd c (fun k => { k with deleted := k.deleted + deletedKeys (coll t n) x }) t) u := by
      rw [← hr]
      exact k_foldl (k_commitTombs (within_of (by decide)) _ _ (k_moveLines (within_of (by decide)) _ _ _ (Keeps.refl _ _))) fun v r hv => k_commitRec (within_of (by decide)) _ _ _ _ hv
    rw [cmd_of c kk.same_cmds]
    exact cmd_some_updCmd ⟨k, h⟩
  generalize hv : updColl n (fun y => { y with queue := y.queue.drop 1, csn := y.csn + 1 }) (joinEpoch n u) = v at hl ⊢
  have hq : (coll v n).csn = (coll t n).csn + 1 := by
    rw [coll_of n (updCmd_colls ..), cline_noteFlush, cline_foldl _ n (fun s p => cline_growDirectory n p n s)] at hl
    simp only [commitLine, Prod.mk.injEq] at hl
    exact hl.2.1
  have hw : ∃ m, cmd? (noteFlush c n (openEpoch (coll t n)) (coll v n).csn (List.foldl (fun s p => growDirectory n p s) v (jobPtns v (coll t n).job))) c = some m := by
    have g : ∃ m, cmd? (List.foldl (fun s p => growDirectory n p s) v (jobPtns v (coll t n).job)) c = some m := by
      have kk : Keeps [.ptns, .colls] v (List.foldl (fun s p => growDirectory n p s) v (jobPtns v (coll t n).job)) :=
        k_foldl (Keeps.refl _ _) fun w p hw => k_growDirectory (within_of (by decide)) _ _ hw
      rw [cmd_of c kk.same_cmds, ← hv]
      exact hu
    unfold noteFlush
    split
    · exact g
    split
    · exact cmd_some_updCmd g
    · exact g
  obtain ⟨m, hm⟩ := hw
  exact ⟨_, cmd_updCmd _ hm, rfl, hq⟩

end Sys2Proof.Machine
end

