-- ==== Sys2Proof/Laws/Memory.lean ====
section
/-! SUPPORT. What a write does to device memory as its issuers read it: the bytes written, and no other, under the write-combining
buffers (R198, R204, R205). -/

namespace Sys2Proof.Machine

open Memory

theorem mem_upto {n i : Nat} : i ∈ upto n ↔ i < n := by simp [upto]
theorem mem_bitsOf {n v i : Nat} : i ∈ bitsOf n v ↔ i < n ∧ bit v i = true := by simp [bitsOf, mem_upto]
theorem lget_map_upto {α : Type} (n i : Nat) (f : Nat → α) (d : α) (h : i < n) : lget ((upto n).map f) i d = f i := by
  simp [lget, upto, h]
theorem bit_testBit (v i : Nat) : bit v i = v.testBit i := by
  unfold bit; rw [Nat.testBit_eq_decide_div_mod_eq]; simp [BEq.beq]

/-! ### Bytes read one by one -/

theorem wf_ge {lo : Nat} {m : List Host.Cell} (w : wfFrom lo m = true) : ∀ c ∈ m, lo ≤ c.1 := by
  induction m generalizing lo with
  | nil => intro c hc; cases hc
  | cons x t ih =>
    obtain ⟨a, b⟩ := x
    simp [wfFrom] at w
    intro c hc
    rcases List.mem_cons.mp hc with rfl | hc
    · exact w.1.1
    · have := ih w.2 c hc; omega

theorem readFrom_eq {lo : Nat} {m : List Host.Cell} (k n : Nat) (w : wfFrom lo m = true) (h : ∀ c ∈ m, k ≤ c.1) :
    readFrom m k n = (upto n).map fun i => mread m (k + i) := by
  induction n generalizing m k lo with
  | zero => cases m <;> rfl
  | succ n ih =>
    have sh : ∀ f : Nat → Byte, (upto (n + 1)).map f = f 0 :: (upto n).map fun i => f (i + 1) := by
      intro f; simp [upto, List.range_succ_eq_map, Function.comp_def]
    cases m with
    | nil =>
      simp only [readFrom, mread]
      clear ih sh; induction n with
      | zero => rfl
      | succ n ih => rw [List.replicate_succ, ih]; simp [upto, List.range_succ_eq_map]
    | cons c t =>
      obtain ⟨a, b⟩ := c
      rw [wfFrom] at w
      simp only [Bool.and_eq_true, decide_eq_true_eq, bne_iff_ne, ne_eq] at w
      have ha := h (a, b) (by simp)
      have low : ∀ c ∈ t, a + 1 ≤ c.1 := fun c hc => wf_ge w.2 c hc
      unfold readFrom
      by_cases e : a = k
      · subst e
        rw [if_pos rfl, ih (a + 1) w.2 low, sh]
        have : mread ((a, b) :: t) (a + 0) = b := by simp [mread]
        rw [this]
        congr 1
        apply List.map_congr_left
        intro i _
        have : a ≠ a + (i + 1) := by omega
        simp [mread, Nat.add_comm, Nat.add_left_comm]
      · rw [if_neg e, ih (k + 1) (m := (a, b) :: t) (lo := lo) (by rw [wfFrom]; simp only [Bool.and_eq_true, decide_eq_true_eq, bne_iff_ne, ne_eq]; exact w) (by
          intro c hc; rcases List.mem_cons.mp hc with rfl | hc
          · simp at ha ⊢; omega
          · have := low c hc; simp at ha; omega), sh]
        have z : mread ((a, b) :: t) (k + 0) = 0 := by
          simp only [mread, Nat.add_zero, e, if_false]
          have : k < a + 1 := by simp at ha; omega
          exact mread_below w.2 this
        rw [z]
        congr 1
        apply List.map_congr_left
        intro i _
        congr 1; omega

theorem dropWhile_lt {lo k : Nat} {m : List Host.Cell} (w : wfFrom lo m = true) :
    wfFrom lo (m.dropWhile fun c => decide (c.1 < k)) = true ∧ (∀ c ∈ m.dropWhile fun c => decide (c.1 < k), k ≤ c.1) ∧
    ∀ j, k ≤ j → mread (m.dropWhile fun c => decide (c.1 < k)) j = mread m j := by
  induction m generalizing lo with
  | nil => exact ⟨rfl, fun c hc => (by cases hc), fun _ _ => rfl⟩
  | cons x t ih =>
    obtain ⟨a, b⟩ := x
    have w' := w
    simp [wfFrom] at w
    by_cases h : a < k
    · rw [List.dropWhile_cons_of_pos (by simpa using h)]
      obtain ⟨h1, h2, h3⟩ := ih w.2
      refine ⟨wfFrom_mono (by omega) h1, h2, fun j hj => ?_⟩
      rw [h3 j hj]; have : a ≠ j := by omega
      simp [mread, this]
    · rw [List.dropWhile_cons_of_neg (by simpa using h)]
      refine ⟨w', fun c hc => ?_, fun _ _ => rfl⟩
      rcases List.mem_cons.mp hc with rfl | hc
      · simp; omega
      · have := wf_ge w.2 c hc; omega

/-- The bytes of a range are its bytes one by one. -/
theorem mreadAll_eq {m : List Host.Cell} (k n : Nat) (w : wf m = true) : mreadAll m k n = (upto n).map fun i => mread m (k + i) := by
  obtain ⟨h1, h2, h3⟩ := dropWhile_lt (k := k) w
  unfold mreadAll; rw [readFrom_eq k n h1 h2]
  apply List.map_congr_left
  intro i _; exact h3 _ (by omega)

theorem memBytes_eq (s : State) (a n : Nat) (w : wf s.hbm = true) : memBytes s a n = (upto n).map fun i => memByte s (a + i) := by
  unfold memBytes memByte
  rw [mreadAll_eq _ _ w]
  apply List.ext_getElem
  · simp
  · intro i h1 h2; simp [upto]

/-! ### Flushes -/

/-- Masked bytes written one by one. -/
theorem mread_masked {m : List Host.Cell} (base : Nat) (f : Nat → Byte) (l : List Nat) (w : wf m = true) (j : Nat) :
    mread (l.foldl (fun m i => mwrite m (base + i) (f i)) m) j = (if base ≤ j ∧ l.contains (j - base) then f (j - base) else mread m j) ∧
    wf (l.foldl (fun m i => mwrite m (base + i) (f i)) m) = true := by
  induction l generalizing m with
  | nil => simp [w]
  | cons i t ih =>
    rw [List.foldl_cons]
    obtain ⟨h1, h2⟩ := ih (mwrite_wf (base + i) (f i) w)
    refine ⟨?_, h2⟩
    rw [h1, mread_mwrite _ w]
    by_cases e : j = base + i
    · subst e; simp
    · by_cases g : base ≤ j
      · have : j - base ≠ i := by omega
        simp [g, e, this]
      · simp [g, e]

/-- A byte of HBM after a flush without bad words. -/
theorem flushEnt_hbm (p : Nat) (e : WcbEnt) (s : State) (w : wf s.hbm = true) (j : Nat) :
    mread (flushEnt p [] e s).hbm j =
      (if p * 2 ^ 36 + e.line ≤ j ∧ j < p * 2 ^ 36 + e.line + 64 ∧ bit e.mask.toNat (j - (p * 2 ^ 36 + e.line)) = true
        then lget e.bytes (j - (p * 2 ^ 36 + e.line)) 0 else mread s.hbm j) ∧
    wf (flushEnt p [] e s).hbm = true := by
  have dp : ∀ (l : List Nat) (c : Nat → Bool) (g : Nat → Nat) (u : State), (l.foldl (fun s w => if c w = true then dropPoison (g w) s else s) u).hbm = u.hbm := by
    intro l c g
    induction l with
    | nil => intro u; rfl
    | cons a l ih => intro u; rw [List.foldl_cons, ih]; split <;> rfl
  have eq : (flushEnt p [] e s).hbm = (if e.mask = BitVec.allOnes 64 then mwriteAll s.hbm (p * 2 ^ 36 + e.line) ((upto 64).map fun i => lget e.bytes i 0)
                           else (bitsOf 64 e.mask.toNat).foldl (fun m i => mwrite m (p * 2 ^ 36 + e.line + i) (lget e.bytes i 0)) s.hbm) := by
    unfold flushEnt; dsimp only
    have := dp (upto 8) (fun w => decide (wordMask e.mask w = 255)) (fun w => p * 2 ^ 36 + e.line + 8 * w)
    simp only [decide_eq_true_eq] at this
    rw [this]; simp only [List.foldl_nil, ite_self]
  rw [eq]
  by_cases c : e.mask = BitVec.allOnes 64
  · rw [if_pos c]
    refine ⟨?_, mwriteAll_wf _ _ w⟩
    rw [mread_mwriteAll]
    have hl : ((upto 64).map fun i => lget e.bytes i 0).length = 64 := by simp [upto]
    rw [hl]
    by_cases r : p * 2 ^ 36 + e.line ≤ j ∧ j < p * 2 ^ 36 + e.line + 64
    · have hb : bit e.mask.toNat (j - (p * 2 ^ 36 + e.line)) = true := by
        rw [c, bit_testBit, BitVec.toNat_allOnes, Nat.testBit_two_pow_sub_one, decide_eq_true_eq]; omega
      rw [if_pos r, if_pos ⟨r.1, r.2, hb⟩]
      exact lget_map_upto 64 _ _ _ (by omega)
    · rw [if_neg r, if_neg (fun h => r ⟨h.1, h.2.1⟩)]
  · rw [if_neg c]
    obtain ⟨h1, h2⟩ := mread_masked (p * 2 ^ 36 + e.line) (fun i => lget e.bytes i 0) (bitsOf 64 e.mask.toNat) w j
    refine ⟨?_, h2⟩
    rw [h1]
    by_cases r : p * 2 ^ 36 + e.line ≤ j
    · by_cases q : bit e.mask.toNat (j - (p * 2 ^ 36 + e.line)) = true
      · by_cases z : j < p * 2 ^ 36 + e.line + 64
        · rw [if_pos ⟨r, List.contains_iff_mem.2 (mem_bitsOf.2 ⟨by omega, q⟩)⟩, if_pos ⟨r, z, q⟩]
        · rw [if_neg (fun h => by have := (mem_bitsOf.1 (List.contains_iff_mem.1 h.2)).1; omega), if_neg (fun h => z h.2.1)]
      · rw [if_neg (fun h => q (mem_bitsOf.1 (List.contains_iff_mem.1 h.2)).2), if_neg (fun h => q h.2.2)]
    · rw [if_neg (fun h => r h.1), if_neg (fun h => r h.1)]

theorem flushEnt_ptns (p : Nat) (e : WcbEnt) (s : State) : (flushEnt p [] e s).ptns = s.ptns := by
  unfold flushEnt; dsimp only
  have dp : ∀ (l : List Nat) (c : Nat → Bool) (g : Nat → Nat) (u : State), (l.foldl (fun s w => if c w = true then dropPoison (g w) s else s) u).ptns = u.ptns := by
    intro l c g
    induction l with
    | nil => intro u; rfl
    | cons a l ih => intro u; rw [List.foldl_cons, ih]; split <;> rfl
  have := dp (upto 8) (fun w => decide (wordMask e.mask w = 255)) (fun w => p * 2 ^ 36 + e.line + 8 * w)
  simp only [decide_eq_true_eq] at this
  rw [this]; simp only [List.foldl_nil, ite_self]

/-! ### What issuers read -/

theorem line_bound (e : WcbEnt) : e.line % 64 = 0 ∧ e.line < 2 ^ 36 := by
  unfold WcbEnt.line; have := e.idx.isLt; omega

/-- The stack and line of an address below 2^40. -/
theorem addr_split {j : Nat} (h : j < 2 ^ 40) : j = homePtn j * 2 ^ 36 + lineOf (stackOff j) + j % 64 ∧ homePtn j < 16 ∧ lineOf (stackOff j) % 64 = 0 ∧ lineOf (stackOff j) < 2 ^ 36 := by
  unfold homePtn lineOf stackOff; omega

theorem addr_of {p line o : Nat} (hp : p < 16) (hl : line % 64 = 0) (hb : line < 2 ^ 36) (ho : o < 64) :
    homePtn (p * 2 ^ 36 + line + o) = p ∧ lineOf (stackOff (p * 2 ^ 36 + line + o)) = line ∧ (p * 2 ^ 36 + line + o) % 64 = o := by
  unfold homePtn lineOf stackOff; omega

/-- A byte as read: under the first entry of its line. -/
theorem memByte_def (s : State) (j : Nat) : memByte s j = (match wcbEnt (ptn s (homePtn j)) (lineOf (stackOff j)) with
    | some e => if bit e.mask.toNat (j % 64) then lget e.bytes (j % 64) 0 else mread s.hbm j
    | none => mread s.hbm j) := rfl

theorem wcbEnt_filter (x : Ptn) (line l : Nat) : wcbEnt { x with wcb := x.wcb.filter fun e => e.line ≠ line } l = if l = line then none else wcbEnt x l := by
  unfold wcbEnt; dsimp only
  induction x.wcb with
  | nil => simp
  | cons e t ih =>
    by_cases h : e.line = line
    · rw [List.filter_cons_of_neg (by simp [h]), ih]
      by_cases g : l = line
      · simp [g]
      · rw [if_neg g, if_neg g, List.find?_cons_of_neg (by simp [h]; exact fun q => g q.symm)]
    · rw [List.filter_cons_of_pos (by simp [h])]
      by_cases g : e.line = l
      · rw [List.find?_cons_of_pos (by simp [g]), List.find?_cons_of_pos (by simp [g]), if_neg (by omega)]
      · rw [List.find?_cons_of_neg (by simp [g]), List.find?_cons_of_neg (by simp [g]), ih]

theorem wcbEnt_line {x : Ptn} {l : Nat} {e : WcbEnt} (h : wcbEnt x l = some e) : e.line = l := by
  have := List.find?_some h; simpa using this

theorem removeEnt_wcb (p line q l : Nat) (s : State) : wcbEnt (ptn (removeEnt p line s) q) l = if q = p ∧ l = line then none else wcbEnt (ptn s q) l := by
  unfold removeEnt
  by_cases e : q = p
  · subst e; rw [ptn_updPtn_same]
    have := wcbEnt_filter (ptn s q) line l
    unfold wcbEnt at this ⊢; dsimp only at this ⊢; rw [this]; simp
  · rw [ptn_updPtn_other _ _ e]; simp [e]

/-- An entry of a line, flushed in place of the one the buffer holds: the line reads as that entry over HBM. -/
theorem memByte_flushed {p line : Nat} (e : WcbEnt) (s : State) (hp : p < 16) (he : e.line = line) (w : wf s.hbm = true) {j : Nat} (hj : j < 2 ^ 40) :
    memByte (flushEnt p [] e (removeEnt p line s)) j =
      (if homePtn j = p ∧ lineOf (stackOff j) = line then (if bit e.mask.toNat (j % 64) then lget e.bytes (j % 64) 0 else mread s.hbm j) else memByte s j) ∧
    wf (flushEnt p [] e (removeEnt p line s)).hbm = true := by
  have hb := line_bound e
  rw [he] at hb
  obtain ⟨f1, f2⟩ := flushEnt_hbm p e (removeEnt p line s) w j
  refine ⟨?_, f2⟩
  obtain ⟨a1, a2, a3, a4⟩ := addr_split hj
  rw [memByte_def, memByte_def]
  have pt : ptn (flushEnt p [] e (removeEnt p line s)) (homePtn j) = ptn (removeEnt p line s) (homePtn j) := by unfold ptn; rw [flushEnt_ptns]
  rw [pt, removeEnt_wcb, f1, he]
  have hh : (removeEnt p line s).hbm = s.hbm := rfl
  rw [hh]
  by_cases c : homePtn j = p ∧ lineOf (stackOff j) = line
  · rw [if_pos c, if_pos c]; dsimp only
    have k : j - (p * 2 ^ 36 + line) = j % 64 := by omega
    rw [k]
    by_cases b : bit e.mask.toNat (j % 64) = true
    · rw [if_pos b, if_pos ⟨by omega, by omega, b⟩]
    · rw [if_neg b, if_neg (fun h => b h.2.2)]
  · rw [if_neg c, if_neg c]
    have no : ¬(p * 2 ^ 36 + line ≤ j ∧ j < p * 2 ^ 36 + line + 64 ∧ bit e.mask.toNat (j - (p * 2 ^ 36 + line)) = true) := by
      rintro ⟨h1, h2, -⟩
      have := addr_of (o := j - (p * 2 ^ 36 + line)) hp hb.1 hb.2 (by omega)
      rw [show p * 2 ^ 36 + line + (j - (p * 2 ^ 36 + line)) = j by omega] at this
      exact c ⟨this.1, this.2.1⟩
    rw [if_neg no]

/-- A flush leaves every byte as it reads. -/
theorem memByte_flushLine {p line : Nat} (s : State) (hp : p < 16) (w : wf s.hbm = true) {j : Nat} (hj : j < 2 ^ 40) :
    memByte (flushLine p line [] s) j = memByte s j ∧ wf (flushLine p line [] s).hbm = true := by
  unfold flushLine
  cases h : wcbEnt (ptn s p) line with
  | none => exact ⟨rfl, w⟩
  | some e =>
    dsimp only
    obtain ⟨f1, f2⟩ := memByte_flushed e s hp (wcbEnt_line h) w hj
    refine ⟨?_, f2⟩
    rw [f1]
    by_cases c : homePtn j = p ∧ lineOf (stackOff j) = line
    · rw [if_pos c, memByte_def, c.1, c.2, h]
    · rw [if_neg c]

theorem flushLine_wcb {p line : Nat} (s : State) (l : Nat) : wcbEnt (ptn (flushLine p line [] s) p) l = if l = line then none else wcbEnt (ptn s p) l := by
  unfold flushLine
  cases h : wcbEnt (ptn s p) line with
  | none => dsimp only; split
            · rename_i e; rw [e, h]
            · rfl
  | some e =>
    dsimp only
    have : ptn (flushEnt p [] e (removeEnt p line s)) p = ptn (removeEnt p line s) p := by unfold ptn; rw [flushEnt_ptns]
    rw [this, removeEnt_wcb]; simp

/-! ### Writes -/

theorem mergeEnt_line (e : WcbEnt) (o : Nat) (bs : List Byte) : (mergeEnt e o bs).line = e.line := rfl

theorem mergeEnt_bit (e : WcbEnt) {o : Nat} {bs : List Byte} (h : o + bs.length ≤ 64) {i : Nat} (hi : i < 64) :
    bit (mergeEnt e o bs).mask.toNat i = (bit e.mask.toNat i || (decide (o ≤ i) && decide (i < o + bs.length))) := by
  unfold mergeEnt; dsimp only
  rw [bit_testBit, bit_testBit, BitVec.toNat_ofNat, Nat.testBit_mod_two_pow, Nat.testBit_or, Nat.testBit_mul_two_pow]
  simp only [hi, decide_true, Bool.true_and]
  by_cases c : o ≤ i
  · rw [Nat.testBit_two_pow_sub_one]
    have : (i - o < bs.length) ↔ (i < o + bs.length) := by omega
    simp [c, this]
  · simp [c]

theorem mergeEnt_byte (e : WcbEnt) (o : Nat) (bs : List Byte) {i : Nat} (hi : i < 64) :
    lget (mergeEnt e o bs).bytes i 0 = if o ≤ i ∧ i < o + bs.length then bs.getD (i - o) 0 else lget e.bytes i 0 := by
  unfold mergeEnt; dsimp only
  rw [lget_map_upto 64 i _ _ hi]; rfl

theorem bit_zero (i : Nat) : bit 0 i = false := by unfold bit; simp

/-- A line write accepted at its home: its bytes read as written, every other as before. -/
theorem memByte_acceptLine {p line o : Nat} {bs : List Byte} (s : State) (hp : p < 16) (hl : line % 64 = 0) (hb : line < 2 ^ 36) (ho : o + bs.length ≤ 64)
    (w : wf s.hbm = true) {j : Nat} (hj : j < 2 ^ 40) :
    memByte (acceptLine p line o bs s) j =
      (if p * 2 ^ 36 + line + o ≤ j ∧ j < p * 2 ^ 36 + line + o + bs.length then bs.getD (j - (p * 2 ^ 36 + line + o)) 0 else memByte s j) ∧
    wf (acceptLine p line o bs s).hbm = true := by
  obtain ⟨a1, a2, a3, a4⟩ := addr_split hj
  have m64 : j % 64 < 64 := Nat.mod_lt _ (by omega)
  -- what the line reads as under a merged entry
  have merged : ∀ e : WcbEnt, (homePtn j = p ∧ lineOf (stackOff j) = line) → ∀ old : Byte, (if bit e.mask.toNat (j % 64) then lget e.bytes (j % 64) 0 else mread s.hbm j) = old →
      (if bit (mergeEnt e o bs).mask.toNat (j % 64) then lget (mergeEnt e o bs).bytes (j % 64) 0 else mread s.hbm j) =
      (if p * 2 ^ 36 + line + o ≤ j ∧ j < p * 2 ^ 36 + line + o + bs.length then bs.getD (j - (p * 2 ^ 36 + line + o)) 0 else old) := by
    intro e c old h
    rw [mergeEnt_bit e ho m64, mergeEnt_byte e o bs m64]
    have k : (p * 2 ^ 36 + line + o ≤ j ∧ j < p * 2 ^ 36 + line + o + bs.length) ↔ (o ≤ j % 64 ∧ j % 64 < o + bs.length) := by omega
    by_cases r : o ≤ j % 64 ∧ j % 64 < o + bs.length
    · rw [if_pos (by simp [r.1, r.2]), if_pos r, if_pos (k.mpr r)]
      congr 1; omega
    · rw [if_neg r, if_neg (fun q => r (k.mp q)), ← h]
      have : (decide (o ≤ j % 64) && decide (j % 64 < o + bs.length)) = false := by
        rw [Bool.and_eq_false_iff]; simp only [decide_eq_false_iff_not]; omega
      rw [this, Bool.or_false]
  have far : ¬(homePtn j = p ∧ lineOf (stackOff j) = line) → ¬(p * 2 ^ 36 + line + o ≤ j ∧ j < p * 2 ^ 36 + line + o + bs.length) := by
    intro c q; apply c
    have := addr_of (o := j - (p * 2 ^ 36 + line)) hp hl hb (by omega)
    rw [show p * 2 ^ 36 + line + (j - (p * 2 ^ 36 + line)) = j by omega] at this
    exact ⟨this.1, this.2.1⟩
  unfold acceptLine; dsimp only
  cases h : wcbEnt (ptn s p) line with
  | some e =>
    dsimp only
    have el := wcbEnt_line h
    by_cases full : (mergeEnt e o bs).mask = BitVec.allOnes 64
    · rw [if_pos full]
      obtain ⟨f1, f2⟩ := memByte_flushed (mergeEnt e o bs) s hp (by rw [mergeEnt_line, el]) w hj
      refine ⟨?_, f2⟩
      rw [f1]
      by_cases c : homePtn j = p ∧ lineOf (stackOff j) = line
      · rw [if_pos c]
        refine merged e c _ ?_
        rw [memByte_def, c.1, c.2, h]
      · rw [if_neg c, if_neg (far c)]
    · rw [if_neg full]
      refine ⟨?_, w⟩
      have mp : ∀ (x : Ptn) (l : Nat), wcbEnt { x with wcb := x.wcb.map fun k => if k.line = line then mergeEnt e o bs else k } l =
          if l = line then (wcbEnt x l).map fun _ => mergeEnt e o bs else wcbEnt x l := by
        intro x l; unfold wcbEnt; dsimp only
        induction x.wcb with
        | nil => simp
        | cons k t ih =>
          rw [List.map_cons]
          by_cases q : k.line = line
          · rw [if_pos q]
            by_cases g : l = line
            · rw [if_pos g, List.find?_cons_of_pos (by rw [mergeEnt_line, el, g]; simp), List.find?_cons_of_pos (by simp [q, g])]; rfl
            · rw [if_neg g, List.find?_cons_of_neg (by rw [mergeEnt_line, el]; simp; omega), List.find?_cons_of_neg (by simp [q]; omega), ih, if_neg g]
          · rw [if_neg q]
            by_cases g : k.line = l
            · rw [List.find?_cons_of_pos (by simp [g]), List.find?_cons_of_pos (by simp [g]), if_neg (by omega)]
            · rw [List.find?_cons_of_neg (by simp [g]), List.find?_cons_of_neg (by simp [g]), ih]
      rw [memByte_def, memByte_def]
      by_cases c : homePtn j = p
      · rw [c, ptn_updPtn_same, mp]
        by_cases d : lineOf (stackOff j) = line
        · rw [if_pos d, d, h]
          exact merged e ⟨c, d⟩ _ rfl
        · rw [if_neg d, if_neg (far fun q => d q.2)]; rfl
      · rw [ptn_updPtn_other _ _ c, if_neg (far fun q => c q.1)]; rfl
  | none =>
    dsimp only
    have nl : ∀ b : W64, ∀ y : List Byte, (WcbEnt.line { idx := BitVec.ofNat 30 (line / 64), mask := b, bytes := y }) = line := by
      intro b y; unfold WcbEnt.line; simp only [BitVec.toNat_ofNat]; omega
    by_cases full : (mergeEnt { idx := BitVec.ofNat 30 (line / 64), mask := 0, bytes := List.replicate 64 0 } o bs).mask = BitVec.allOnes 64
    · rw [if_pos full]
      have rm : ∀ u, flushEnt p [] (mergeEnt { idx := BitVec.ofNat 30 (line / 64), mask := 0, bytes := List.replicate 64 0 } o bs) u = flushEnt p [] (mergeEnt { idx := BitVec.ofNat 30 (line / 64), mask := 0, bytes := List.replicate 64 0 } o bs) u := fun _ => rfl
      obtain ⟨f1, f2⟩ := flushEnt_hbm p (mergeEnt { idx := BitVec.ofNat 30 (line / 64), mask := 0, bytes := List.replicate 64 0 } o bs) s w j
      refine ⟨?_, f2⟩
      rw [memByte_def]
      have pt : ptn (flushEnt p [] (mergeEnt { idx := BitVec.ofNat 30 (line / 64), mask := 0, bytes := List.replicate 64 0 } o bs) s) (homePtn j) = ptn s (homePtn j) := by unfold ptn; rw [flushEnt_ptns]
      rw [pt, f1, mergeEnt_line, nl]
      by_cases c : homePtn j = p ∧ lineOf (stackOff j) = line
      · rw [c.1, c.2, h]; dsimp only
        have k : j - (p * 2 ^ 36 + line) = j % 64 := by omega
        rw [k]
        have := merged { idx := BitVec.ofNat 30 (line / 64), mask := 0, bytes := List.replicate 64 0 } c (memByte s j) (by rw [memByte_def, c.1, c.2, h]; simp [bit_zero])
        rw [← this]
        by_cases b : bit (mergeEnt { idx := BitVec.ofNat 30 (line / 64), mask := 0, bytes := List.replicate 64 0 } o bs).mask.toNat (j % 64) = true
        · rw [if_pos b, if_pos ⟨by omega, by omega, b⟩]
        · rw [if_neg b, if_neg (fun q => b q.2.2)]
      · rw [if_neg (far c)]
        have no : ¬(p * 2 ^ 36 + line ≤ j ∧ j < p * 2 ^ 36 + line + 64 ∧ bit (mergeEnt { idx := BitVec.ofNat 30 (line / 64), mask := 0, bytes := List.replicate 64 0 } o bs).mask.toNat (j - (p * 2 ^ 36 + line)) = true) := by
          rintro ⟨h1, h2, -⟩
          have := addr_of (o := j - (p * 2 ^ 36 + line)) hp hl hb (by omega)
          rw [show p * 2 ^ 36 + line + (j - (p * 2 ^ 36 + line)) = j by omega] at this
          exact c ⟨this.1, this.2.1⟩
        rw [if_neg no, memByte_def]
    · rw [if_neg full]
      -- the buffer after a flush of the oldest entry of a full channel
      have ev : ∀ u : State, (u = s ∨ ∃ l, u = flushLine p l [] s) → (∀ i, i < 2 ^ 40 → memByte u i = memByte s i) ∧ wf u.hbm = true ∧ wcbEnt (ptn u p) line = none := by
        rintro u (rfl | ⟨l, rfl⟩)
        · exact ⟨fun _ _ => rfl, w, h⟩
        · refine ⟨fun i hi => (memByte_flushLine s hp w hi).1, (memByte_flushLine s hp w hj).2, ?_⟩
          rw [flushLine_wcb]; split
          · rfl
          · exact h
      generalize hu : makeRoom p line s = u
      have hu' : u = s ∨ ∃ l, u = flushLine p l [] s := by
        rw [← hu]; unfold makeRoom; split
        · split
          · exact Or.inr ⟨_, rfl⟩
          · exact Or.inl rfl
        · exact Or.inl rfl
      obtain ⟨e1, e2, e3⟩ := ev u hu'
      refine ⟨?_, e2⟩
      have ap : ∀ (x : Ptn) (k : WcbEnt) (l : Nat), wcbEnt { x with wcb := x.wcb ++ [k] } l = (wcbEnt x l).or (if k.line = l then some k else none) := by
        intro x k l; unfold wcbEnt; dsimp only
        rw [List.find?_append]; congr 1
        by_cases q : k.line = l <;> simp [q]
      rw [← e1 j hj, memByte_def, memByte_def]
      by_cases c : homePtn j = p
      · rw [c, ptn_updPtn_same, ap, mergeEnt_line, nl]
        by_cases d : lineOf (stackOff j) = line
        · rw [d, e3, if_pos rfl]; dsimp only [Option.or]
          have hm : mread u.hbm j = memByte s j := by rw [← e1 j hj, memByte_def, c, d, e3]
          have hs : mread s.hbm j = memByte s j := by rw [memByte_def, c, d, h]
          have := merged { idx := BitVec.ofNat 30 (line / 64), mask := 0, bytes := List.replicate 64 0 } ⟨c, d⟩ (memByte s j) (by rw [hs]; simp [bit_zero])
          rw [hs] at this
          show (if _ then _ else mread u.hbm j) = _
          rw [hm, this]
        · rw [if_neg (fun q => d q.symm), Option.or_none, if_neg (far fun q => d q.2)]; rfl
      · rw [ptn_updPtn_other _ _ c, if_neg (far fun q => c q.1)]; rfl

/-- A write: its bytes read as written, every other byte as before. -/
theorem memByte_writeLines (n : Nat) {a : Nat} {bs : List Byte} (s : State) (ha : a + bs.length ≤ 2 ^ 40) (hn : a % 64 + bs.length ≤ 64 * n) (w : wf s.hbm = true)
    {j : Nat} (hj : j < 2 ^ 40) :
    memByte (writeLines n a bs s) j = (if a ≤ j ∧ j < a + bs.length then bs.getD (j - a) 0 else memByte s j) ∧ wf (writeLines n a bs s).hbm = true := by
  induction n generalizing a bs s with
  | zero =>
    have : bs.length = 0 := by omega
    refine ⟨?_, w⟩
    rw [if_neg (by omega)]; rfl
  | succ n ih =>
    unfold writeLines; dsimp only
    by_cases e : bs.isEmpty = true
    · rw [if_pos e]
      have : bs.length = 0 := by rw [List.isEmpty_iff] at e; rw [e]; rfl
      exact ⟨by rw [if_neg (by omega)], w⟩
    · rw [if_neg e]
      have pos : 0 < bs.length := by
        cases bs with
        | nil => exact absurd rfl e
        | cons b t => simp
      obtain ⟨a1, a2, a3, a4⟩ := addr_split (j := a) (by omega)
      have tl : (bs.take (64 - a % 64)).length = min (64 - a % 64) bs.length := List.length_take
      have dl : (bs.drop (64 - a % 64)).length = bs.length - (64 - a % 64) := List.length_drop
      obtain ⟨f1, f2⟩ := memByte_acceptLine (o := a % 64) (bs := bs.take (64 - a % 64)) s a2 a3 a4 (by omega) w hj
      by_cases c : bs.length ≤ 64 - a % 64
      · have z : bs.drop (64 - a % 64) = [] := List.drop_eq_nil_of_le c
        have ww : ∀ u k, writeLines n k [] u = u := by intro u k; cases n <;> rfl
        rw [z, ww, f1, ← a1, tl]
        refine ⟨?_, f2⟩
        rw [List.take_of_length_le c, Nat.min_eq_right c]
      · obtain ⟨g1, g2⟩ := ih (a := a + (64 - a % 64)) (bs := bs.drop (64 - a % 64)) (acceptLine (homePtn a) (lineOf (stackOff a)) (a % 64) (bs.take (64 - a % 64)) s)
          (by rw [dl]; omega) (by rw [dl]; omega) f2
        refine ⟨?_, g2⟩
        rw [g1, f1, ← a1, tl, dl, Nat.min_eq_left (by omega)]
        by_cases r1 : a + (64 - a % 64) ≤ j ∧ j < a + (64 - a % 64) + (bs.length - (64 - a % 64))
        · rw [if_pos r1, if_pos ⟨by omega, by omega⟩]
          rw [List.getD_eq_getElem?_getD, List.getD_eq_getElem?_getD, List.getElem?_drop]
          congr 2; omega
        · rw [if_neg r1]
          by_cases r2 : a ≤ j ∧ j < a + (64 - a % 64)
          · rw [if_pos r2, if_pos ⟨r2.1, by omega⟩]
            rw [List.getD_eq_getElem?_getD, List.getD_eq_getElem?_getD, List.getElem?_take_of_lt (by omega)]
          · rw [if_neg r2, if_neg (by omega)]

/-- A write to device memory: its bytes read as written, every other byte as before; the memory stays canonical. -/
theorem memByte_writeMem {a : Nat} {bs : List Byte} (s : State) (ha : a + bs.length ≤ 2 ^ 40) (w : wf s.hbm = true) {j : Nat} (hj : j < 2 ^ 40) :
    memByte (writeMem a bs s) j = (if a ≤ j ∧ j < a + bs.length then bs.getD (j - a) 0 else memByte s j) ∧ wf (writeMem a bs s).hbm = true :=
  memByte_writeLines _ s ha (by omega) w hj

/-- A range of lines zeroised reads as zeros; every other byte as before. -/
theorem memByte_zeroRange {a n j : Nat} (s : State) (ha : a % 64 = 0) (hn : n % 64 = 0) (hj : j < 2 ^ 40) :
    memByte (zeroRange a n s) j = if a ≤ j ∧ j < a + n then 0 else memByte s j := by
  have split := addr_split hj
  have hr : mread (zeroRange a n s).hbm j = if a ≤ j ∧ j < a + n then 0 else mread s.hbm j := by
    show mread (s.hbm.filter fun c => !(decide (a ≤ c.1) && decide (c.1 < a + n))) j = _
    induction s.hbm with
    | nil => simp [mread]
    | cons c t ih =>
      obtain ⟨k, v⟩ := c
      by_cases h : a ≤ k ∧ k < a + n
      · rw [List.filter_cons_of_neg (by simp [h])]
        rw [ih]
        split
        · rfl
        · show _ = if k = j then v else mread t j
          rw [if_neg (by intro e; subst e; contradiction)]
      · rw [List.filter_cons_of_pos (by simp; omega)]
        show (if k = j then v else mread _ j) = if _ then 0 else if k = j then v else mread t j
        rw [ih]
        by_cases e : k = j
        · subst e; rw [if_pos rfl, if_neg h, if_pos rfl]
        · rw [if_neg e, if_neg e]
  have hw : wcbEnt (ptn (zeroRange a n s) (homePtn j)) (lineOf (stackOff j)) =
      if a ≤ j ∧ j < a + n then none else wcbEnt (ptn s (homePtn j)) (lineOf (stackOff j)) := by
    have hp : ptn (zeroRange a n s) (homePtn j) = { ptn s (homePtn j) with wcb := (ptn s (homePtn j)).wcb.filter fun e => !(decide (a ≤ homePtn j * 2 ^ 36 + e.line) && decide (homePtn j * 2 ^ 36 + e.line < a + n)) } := by
      unfold zeroRange ptn tgetD; dsimp only; rw [tget_tmap]
      cases tget s.ptns (homePtn j) <;> rfl
    rw [hp]
    unfold wcbEnt
    dsimp only
    have hl : (a ≤ homePtn j * 2 ^ 36 + lineOf (stackOff j) ∧ homePtn j * 2 ^ 36 + lineOf (stackOff j) < a + n) ↔ (a ≤ j ∧ j < a + n) := by omega
    induction (ptn s (homePtn j)).wcb with
    | nil => simp
    | cons e t ih =>
      by_cases h : e.line = lineOf (stackOff j)
      · rw [List.filter_cons, List.find?_cons_of_pos (by simp [h])]
        by_cases g : a ≤ j ∧ j < a + n
        · rw [if_neg (by rw [h]; simp; omega), ih]; simp [g]
        · rw [if_pos (by rw [h]; simp; omega), List.find?_cons_of_pos (by simp [h])]; simp [g]
      · rw [List.find?_cons_of_neg (by simp [h]), List.filter_cons]
        split
        · rw [List.find?_cons_of_neg (by simp [h]), ih]
        · exact ih
  rw [memByte_def, memByte_def, hw, hr]
  by_cases g : a ≤ j ∧ j < a + n
  · simp only [if_pos g]
  · simp only [if_neg g]
theorem poison_zeroRange {a n w : Nat} {s : State} (h : w ∈ (zeroRange a n s).poison) : ¬(a ≤ w ∧ w < a + n) := by
  have := (List.mem_filter.mp h).2
  simp at this
  omega

end Sys2Proof.Machine
end

