-- ==== Sys2Proof/Laws/Crucible.lean ====
section
/-! SUPPORT. What an atomic of the home crucible does: its write, its queue, the value it returns (R213–R216). -/

namespace Sys2Proof.Machine

open Memory

/-- Reads depend on HBM and on the buffers alone. -/
theorem memByte_same {s t : State} (h : t.hbm = s.hbm) (c : ∀ p, (ptn t p).wcb = (ptn s p).wcb) (j : Nat) : memByte t j = memByte s j := by
  unfold memByte underWcb wcbEnt; rw [h, c]

theorem ptn_updPtn_of {β : Type} (g : Ptn → β) {p : Nat} {f : Ptn → Ptn} {s : State} (h : ∀ x, g (f x) = g x) (q : Nat) : g (ptn (updPtn p f s) q) = g (ptn s q) := by
  by_cases e : q = p
  · rw [e, ptn_updPtn_same, h]
  · rw [ptn_updPtn_other _ _ e]

/-- A line locked or an atomic in transit: memory, the queue, the holders and the anvils are as they were. -/
theorem lockLine_facts (p line job : Nat) (s : State) (q : Nat) :
    (lockLine p line job s).hbm = s.hbm ∧ (ptn (lockLine p line job s) q).wcb = (ptn s q).wcb ∧ (ptn (lockLine p line job s) q).atomQ = (ptn s q).atomQ ∧
    (ptn (lockLine p line job s) q).holders = (ptn s q).holders ∧ (ptn (lockLine p line job s) q).anvils = (ptn s q).anvils := by
  unfold lockLine; dsimp only
  split
  · exact ⟨rfl, rfl, rfl, rfl, rfl⟩
  · split
    · exact ⟨rfl, (by refine ptn_updPtn_of (·.wcb) ?_ q; intro _; rfl), (by refine ptn_updPtn_of (·.atomQ) ?_ q; intro _; rfl), (by refine ptn_updPtn_of (·.holders) ?_ q; intro _; rfl), (by refine ptn_updPtn_of (·.anvils) ?_ q; intro _; rfl)⟩
    · have h : (raise .atomicTransit 4 p 0 s).ptns = s.ptns := raise_ptns _ _ _ _ _
      refine ⟨raise_hbm _ _ _ _ _, ?_, ?_, ?_, ?_⟩ <;> unfold ptn <;> rw [h]

theorem noteHolder_facts (code p c a : Nat) (wrote : Bool) (s : State) (q : Nat) :
    (noteHolder code p c a wrote s).hbm = s.hbm ∧ (ptn (noteHolder code p c a wrote s) q).wcb = (ptn s q).wcb ∧ (ptn (noteHolder code p c a wrote s) q).atomQ = (ptn s q).atomQ ∧
    (ptn (noteHolder code p c a wrote s) q).anvils = (ptn s q).anvils := by
  unfold noteHolder
  split
  · exact ⟨rfl, rfl, rfl, rfl⟩
  · split
    · exact ⟨rfl, (by refine ptn_updPtn_of (·.wcb) ?_ q; intro _; rfl), (by refine ptn_updPtn_of (·.atomQ) ?_ q; intro _; rfl), (by refine ptn_updPtn_of (·.anvils) ?_ q; intro _; rfl)⟩
    · split
      · exact ⟨rfl, (by refine ptn_updPtn_of (·.wcb) ?_ q; intro _; rfl), (by refine ptn_updPtn_of (·.atomQ) ?_ q; intro _; rfl), (by refine ptn_updPtn_of (·.anvils) ?_ q; intro _; rfl)⟩
      · exact ⟨rfl, rfl, rfl, rfl⟩

theorem returnOld_facts (r : AtomReq) (old : Nat) (swapped : Bool) (s : State) (q : Nat) :
    (returnOld r old swapped s).hbm = s.hbm ∧ (ptn (returnOld r old swapped s) q).wcb = (ptn s q).wcb ∧ (ptn (returnOld r old swapped s) q).atomQ = (ptn s q).atomQ ∧
    (ptn (returnOld r old swapped s) q).holders = (ptn s q).holders := by
  unfold returnOld
  split
  · exact ⟨rfl, rfl, rfl, rfl⟩
  · dsimp only; unfold updAnvil
    exact ⟨rfl, (by refine ptn_updPtn_of (·.wcb) ?_ q; intro _; rfl), (by refine ptn_updPtn_of (·.atomQ) ?_ q; intro _; rfl), (by refine ptn_updPtn_of (·.holders) ?_ q; intro _; rfl)⟩

/-- A write of bytes leaves what the partitions hold besides the write-combining buffer. -/
theorem writeMem_ptn {β : Type} (g : Ptn → β) (hg : ∀ (x : Ptn) w f, g { x with wcb := w, wcFences := f } = g x) (a : Nat) (bs : List Byte) (s : State) (q : Nat) :
    g (ptn (writeMem a bs s) q) = g (ptn s q) := by
  have rm : ∀ p l (u : State), g (ptn (removeEnt p l u) q) = g (ptn u q) := fun p l u => (by unfold removeEnt; refine ptn_updPtn_of g ?_ q; intro x; exact hg x _ _)
  have fl : ∀ p l (u : State), g (ptn (flushLine p l [] u) q) = g (ptn u q) := by
    intro p l u; unfold flushLine
    split
    · have : ∀ e v, ptn (flushEnt p [] e v) q = ptn v q := by intro e v; unfold ptn; rw [flushEnt_ptns]
      rw [this, rm]
    · rfl
  have fe : ∀ p e (v : State), ptn (flushEnt p [] e v) q = ptn v q := by intro p e v; unfold ptn; rw [flushEnt_ptns]
  have hw : ∀ (x : Ptn) w, g { x with wcb := w } = g x := fun x w => hg x w x.wcFences
  have ac : ∀ p l o b (u : State), g (ptn (acceptLine p l o b u) q) = g (ptn u q) := by
    intro p l o b u; unfold acceptLine; dsimp only
    split
    · split
      · rw [fe, rm]
      · refine ptn_updPtn_of g ?_ q; intro x; exact hw x _
    · split
      · rw [fe]
      · refine (ptn_updPtn_of g ?_ q).trans ?_
        · intro x; exact hw x _
        unfold makeRoom; split
        · split
          · exact fl _ _ _
          · rfl
        · rfl
  have wl : ∀ n a b (u : State), g (ptn (writeLines n a b u) q) = g (ptn u q) := by
    intro n
    induction n with
    | zero => intro a b u; rfl
    | succ n ih =>
      intro a b u; unfold writeLines; dsimp only
      split
      · rfl
      · rw [ih, ac]
  exact wl _ _ _ _

/-- A local atomic at the front of its home bank: its write in device memory, the queue behind it, its semaphore's holder, the value it
returns to its anvil. -/
theorem homeAtomic_local {s : State} {p code : Nat} {r : AtomReq} {rest : List AtomReq} (h : atomReady s p code r rest = true)
    (l : r.from_.all (fun x => x.1 == p) = true) (w : wf s.hbm = true) (ha : r.addr + atomWidth code ≤ 2 ^ 40) :
    let z := atomResult code r.ctx (tgetD (ptn s p).holders r.ctx []).length (atomOld s r) r.operand.toNat r.second.toNat
    (∀ j < 2 ^ 40, memByte (homeAtomic p code s) j = afterWrite s r.addr (atomWidth code) z.1 j) ∧ (ptn (homeAtomic p code s) p).atomQ = rest ∧
    (ptn (homeAtomic p code s) p).holders = (if z.1.isSome ∧ code = 0x10 then tset (ptn s p).holders r.ctx (r.addr :: tgetD (ptn s p).holders r.ctx [])
      else if z.1.isSome ∧ code = 0x11 then tset (ptn s p).holders r.ctx ((tgetD (ptn s p).holders r.ctx []).filter (· ≠ r.addr)) else (ptn s p).holders) ∧
    ∀ i k d, atomOutst s p i k d r = true → anvil (homeAtomic p code s) p i =
      landBytes d (leBytes 8 z.2 ++ (if code = 0x0B then leBytes 8 (if z.1.isSome then 1 else 0) else [])) (fun _ => false) { anvil s p i with outst := (anvil s p i).outst.eraseIdx k } := by
  intro z
  simp only [atomReady, Bool.and_eq_true, beq_iff_eq, Bool.not_eq_true'] at h
  obtain ⟨⟨⟨⟨⟨h1, h2⟩, h3⟩, hb⟩, h4⟩, h5⟩ := h
  -- the state with the element taken
  let s1 := updPtn p (fun x => { x with atomQ := rest }) s
  have q1 : homeAtomic p code s = performAtom p r s1 := by
    unfold homeAtomic; rw [h1]; dsimp only
    have lo : ¬(pastDrain (ptn s p) = true ∧ (r.from_.any fun f => decide (f.1 ≠ p)) = true) := by
      rintro ⟨_, z⟩; cases hf : r.from_ <;> simp_all
    rw [if_neg (by rw [h2, hb]; simp), if_neg lo, if_neg (by rw [h3]; simp)]
    cases hf : r.from_ with
    | none => rfl
    | some x => rw [hf] at l; simp at l; dsimp only; rw [if_pos (.inl l)]
  have o1 : ownsHome s1 r.ctx p = true := by
    have : (ptn s1 p).job = (ptn s p).job := by simp [s1]
    unfold ownsHome at h4 ⊢; rw [this]; exact h4
  have p1 : wordPoisoned s1 r.addr = false := by
    have : ∀ q, (ptn s1 q).wcb = (ptn s q).wcb := fun q => (by refine ptn_updPtn_of (·.wcb) ?_ q; intro _; rfl)
    unfold wordPoisoned wcbEnt at h5 ⊢; dsimp only at h5 ⊢; rw [this]; exact h5
  let s2 := lockLine p (lineOf (stackOff r.addr)) (ctxJob s1 r.ctx) s1
  have b2 : ∀ j, memByte s2 j = memByte s j := by
    intro j
    refine (memByte_same (lockLine_facts _ _ _ s1 0).1 (fun q => (lockLine_facts _ _ _ s1 q).2.1) j).trans ?_
    exact memByte_same (s := s) (t := s1) rfl (fun q => (by refine ptn_updPtn_of (·.wcb) ?_ q; intro _; rfl)) j
  have w2 : wf s2.hbm = true := by show wf (lockLine _ _ _ s1).hbm = true; rw [(lockLine_facts _ _ _ s1 0).1]; exact w
  have m2 : memBytes s2 r.addr (atomWidth r.code) = memBytes s r.addr (atomWidth r.code) := by
    rw [memBytes_eq _ _ _ w2, memBytes_eq _ _ _ w]; simp only [b2]
  have hd2 : (ptn s2 p).holders = (ptn s p).holders := by
    refine (lockLine_facts _ _ _ s1 p).2.2.2.1.trans ?_; exact (by refine ptn_updPtn_of (·.holders) ?_ p; intro _; rfl)
  have q2 : performAtom p r s1 = returnOld r z.2 z.1.isSome (noteHolder code p r.ctx r.addr z.1.isSome
      (match z.1 with | some v => writeMem r.addr (leBytes (atomWidth code) v) s2 | none => s2)) := by
    unfold performAtom
    rw [o1, Bool.not_true, if_neg Bool.false_ne_true, p1, if_neg Bool.false_ne_true]; dsimp only
    show returnOld r (atomResult r.code r.ctx (tgetD (ptn s2 p).holders r.ctx []).length (leNat (memBytes s2 r.addr (atomWidth r.code))) r.operand.toNat r.second.toNat).2 _ _ = _
    rw [m2, hd2, h2]; rw [show leNat (memBytes s r.addr (atomWidth code)) = atomOld s r by unfold atomOld; rw [h2]]
    all_goals rfl
  rw [q1, q2]
  generalize hu : (match z.1 with | some v => writeMem r.addr (leBytes (atomWidth code) v) s2 | none => s2) = u
  have len : ∀ n v, (leBytes n v).length = n := by
    intro n; induction n with
    | zero => intro v; rfl
    | succ n ih => intro v; simp [leBytes, ih]
  have bu : ∀ j < 2 ^ 40, memByte u j = afterWrite s r.addr (atomWidth code) z.1 j := by
    intro j hj; rw [← hu]
    cases e : z.1 with
    | none => dsimp only [afterWrite]; exact b2 j
    | some v =>
      dsimp only [afterWrite]
      rw [(memByte_writeMem s2 (by rw [len]; exact ha) w2 hj).1, len, b2]
  have gu : ∀ {β : Type} (g : Ptn → β), (∀ (x : Ptn) w f, g { x with wcb := w, wcFences := f } = g x) → ∀ q, g (ptn u q) = g (ptn s2 q) := by
    intro β g hg q; rw [← hu]
    cases z.1 with
    | none => rfl
    | some v => exact writeMem_ptn g hg _ _ _ _
  let v := noteHolder code p r.ctx r.addr z.1.isSome u
  have hv := fun q => noteHolder_facts code p r.ctx r.addr z.1.isSome u q
  have hr := fun q => returnOld_facts r z.2 z.1.isSome v q
  refine ⟨fun j hj => ?_, ?_, ?_, ?_⟩
  · rw [← bu j hj]
    refine (memByte_same (hr 0).1 (fun q => (hr q).2.1) j).trans ?_
    exact memByte_same (hv 0).1 (fun q => (hv q).2.1) j
  · refine ((hr p).2.2.1).trans (((hv p).2.2.1).trans ((gu (·.atomQ) (fun _ _ _ => rfl) p).trans ?_))
    refine (lockLine_facts _ _ _ s1 p).2.2.1.trans ?_
    show (ptn (updPtn p _ s) p).atomQ = rest
    rw [ptn_updPtn_same]
  · refine ((hr p).2.2.2).trans ?_
    have hh : (ptn u p).holders = (ptn s p).holders := (gu (·.holders) (fun _ _ _ => rfl) p).trans hd2
    show (ptn (noteHolder code p r.ctx r.addr z.1.isSome u) p).holders = _
    unfold noteHolder
    cases z.1.isSome with
    | false => simp [hh]
    | true =>
      by_cases c : code = 0x10
      · simp [c, ptn_updPtn_same, hh]
      · by_cases d : code = 0x11
        · simp [d, ptn_updPtn_same, hh]
        · simp [c, d, hh]
  · intro i k d e
    simp only [atomOutst, Bool.and_eq_true, beq_iff_eq] at e
    obtain ⟨⟨e1, e2⟩, e3⟩ := e
    have av : anvil v p i = anvil s p i := by
      unfold anvil
      rw [(hv p).2.2.2, gu (·.anvils) (fun _ _ _ => rfl) p, (lockLine_facts _ _ _ s1 p).2.2.2.2]
      have : (ptn s1 p).anvils = (ptn s p).anvils := (by refine ptn_updPtn_of (·.anvils) ?_ p; intro _; rfl)
      rw [this]
    show anvil (returnOld r z.2 z.1.isSome v) p i = _
    unfold returnOld; rw [e1, e2]; dsimp only
    rw [anvil_updAnvil_same, av, e3, h2]; rfl

end Sys2Proof.Machine
end

