-- ==== Sys2Proof/Laws/Icern.lean ====
section
/-! SUPPORT. What sending does to a port, what a port that goes DOWN keeps, what a dropped part leaves (R326, R330, R343). -/

namespace Sys2Proof.Machine

/-- What sending flits and returning credits leave of a port: everything but its queues, credits and next sequence number. -/
structure SamePort (p q : Port) : Prop where
  st : q.st = p.st
  step : q.step = p.step
  peer : q.peer = p.peer
  lanes : q.lanes = p.lanes
  retrains : q.retrains = p.retrains
  replays : q.replays = p.replays
  mismatch : q.mismatch = p.mismatch
  hbloss : q.hbloss = p.hbloss
  expSeq : q.expSeq = p.expSeq
  replayRun : q.replayRun = p.replayRun
  beat : q.beat = p.beat
  hbSeq : q.hbSeq = p.hbSeq
  replayDue : q.replayDue = p.replayDue

theorem SamePort.refl (p : Port) : SamePort p p := ⟨rfl, rfl, rfl, rfl, rfl, rfl, rfl, rfl, rfl, rfl, rfl, rfl, rfl⟩
theorem SamePort.trans {p q r : Port} (h : SamePort p q) (k : SamePort q r) : SamePort p r :=
  ⟨k.st.trans h.st, k.step.trans h.step, k.peer.trans h.peer, k.lanes.trans h.lanes, k.retrains.trans h.retrains, k.replays.trans h.replays,
   k.mismatch.trans h.mismatch, k.hbloss.trans h.hbloss, k.expSeq.trans h.expSeq, k.replayRun.trans h.replayRun, k.beat.trans h.beat, k.hbSeq.trans h.hbSeq,
   k.replayDue.trans h.replayDue⟩

theorem putCredit_same (c : Credit) (p : Port) : SamePort p (putCredit c p) := ⟨rfl, rfl, rfl, rfl, rfl, rfl, rfl, rfl, rfl, rfl, rfl, rfl, rfl⟩
theorem owe_same (v : Nat) (c : Bool) (p : Port) : SamePort p (owe v c p) := putCredit_same _ _
theorem takeCredits_same (f : Flit) (p : Port) : SamePort p (takeCredits f p) := putCredit_same _ _

theorem settleOwed_same (p : Port) : SamePort p (settleOwed p) := by
  unfold settleOwed; split
  · exact putCredit_same _ _
  · exact .refl p
theorem putFlit_same (k : FlitKind) (f : Flit) (p : Port) : SamePort p (putFlit k f p) :=
  (settleOwed_same p).trans ⟨rfl, rfl, rfl, rfl, rfl, rfl, rfl, rfl, rfl, rfl, rfl, rfl, rfl⟩
theorem sendData_same (t : TxFlit) (p : Port) : SamePort p (sendData t p) :=
  ((putCredit_same _ p).trans (putFlit_same .data { t.flit with seq := p.nextSeq } _)).trans ⟨rfl, rfl, rfl, rfl, rfl, rfl, rfl, rfl, rfl, rfl, rfl, rfl, rfl⟩

theorem transmit_same (k : Nat) (p : Port) : SamePort p (transmit k p) := by
  induction k generalizing p with
  | zero => exact .refl p
  | succ k ih =>
    unfold transmit
    split
    · exact .refl p
    · split
      · next f l _ =>
        have h : SamePort p { p with resend := l, line := p.line ++ [(.data, f)] } := ⟨rfl, rfl, rfl, rfl, rfl, rfl, rfl, rfl, rfl, rfl, rfl, rfl, rfl⟩
        exact h.trans (ih _)
      · split
        · exact (sendData_same _ _).trans (ih _)
        · split
          · exact (putFlit_same _ _ _).trans (ih _)
          · exact .refl p

/-- The state of the ports apart, an update of a port leaves everything. -/
theorem ports_only (l : List (Nat × Nat × Bool)) (s : State) : l.foldl (fun s f => updPort f.1 (owe f.2.1 f.2.2) s) s =
    { s with icern := { s.icern with ports := (l.foldl (fun s f => updPort f.1 (owe f.2.1 f.2.2) s) s).icern.ports } } := by
  induction l generalizing s with
  | nil => rfl
  | cons a l ih => exact (ih _).trans rfl
theorem owes_same (l : List (Nat × Nat × Bool)) (s : State) (n : Nat) : SamePort (port s n) (port (l.foldl (fun s f => updPort f.1 (owe f.2.1 f.2.2) s) s) n) := by
  induction l generalizing s with
  | nil => exact .refl _
  | cons a l ih =>
    refine SamePort.trans ?_ (ih _)
    by_cases e : n = a.1
    · subst e; rw [port_updPort_same]; exact owe_same ..
    · rw [port_updPort_other _ _ e]; exact .refl _

/-- What a port sends changes queues, credits and the next sequence number alone. -/
theorem runPort_same (n m : Nat) (s : State) : SamePort (port s m) (port (runPort n s) m) := by
  unfold runPort
  dsimp only
  refine SamePort.trans ?_ (owes_same _ _ m)
  by_cases e : m = n
  · subst e; rw [port_updPort_same]
    have h := transmit_same (lineRoom (port s m)) (port s m)
    exact ⟨h.st, h.step, h.peer, h.lanes, h.retrains, h.replays, h.mismatch, h.hbloss, h.expSeq, h.replayRun, h.beat, h.hbSeq, h.replayDue⟩
  · rw [port_updPort_other _ _ e]; exact .refl _
theorem runPort_rest (n : Nat) (s : State) : runPort n s = { s with icern := { s.icern with ports := (runPort n s).icern.ports } } := by
  unfold runPort
  dsimp only
  rw [ports_only]
  rfl
theorem runPort_inbox (n : Nat) (s : State) : (runPort n s).icern.inbox = s.icern.inbox := by rw [runPort_rest]
theorem runPort_aon (n : Nat) (s : State) : (runPort n s).aon = s.aon := by rw [runPort_rest]

/-- A port that may not send, or has nothing to send, sends nothing. -/
theorem transmit_quiet {p : Port} (k : Nat) (h : mayTransmit p = false ∨ (p.resend = [] ∧ p.tx = [] ∧ nullDue p = false)) : transmit k p = p := by
  cases k with
  | zero => rfl
  | succ k =>
    unfold transmit
    rcases h with h | ⟨h1, h2, h3⟩
    · simp [h]
    · have e : nextFlit p = none := by simp [nextFlit, vcFlit, h2]
      simp [h1, e, h3]
/-- A port with nothing to send stays as it is. -/
theorem runPort_quiet {n : Nat} {s : State} (h : mayTransmit (port s n) = false ∨ ((port s n).resend = [] ∧ (port s n).tx = [] ∧ nullDue (port s n) = false))
    (e : (port s n).passed = []) (m : Nat) : port (runPort n s) m = port s m := by
  unfold runPort
  dsimp only
  rw [transmit_quiet _ h]
  rw [e, List.foldl_nil]
  by_cases k : m = n
  · subst k; rw [port_updPort_same]
    cases hp : port s m
    rw [hp] at e
    simp only at e
    rw [e]
  · rw [port_updPort_other _ _ k]

/-- With no request waiting there is nothing to pump. -/
theorem pumpRequests_none {s : State} (h : s.icern.requests = []) : pumpRequests s = s := by unfold pumpRequests; rw [h]; rfl

/-- A port that goes DOWN, where no spanning job is cut off, no request waits for a response buffer, no part waits for its next run and none holds a
buffer of the port: its code is posted, its queues and credits are gone. -/
theorem portDown_facts {n cause : Nat} {s : State} (h : spanningJobs s = []) (hw : s.icern.requests = [])
    (hp : ∀ q ∈ s.cmds, q.2.parked = false ∧ (q.2.lent.any (·.1 == n)) = false) :
    port (portDown n cause s) n = downPort cause (port (portDown n cause s) n) ∧ (port (portDown n cause s) n).hbloss = (cause == 3) ∧
    (portDown n cause s).aon.codes.head? = some (faultCode 6 (0x78 + n) 0xF (cause * 2 ^ 12 + n * 2 ^ 10 + (port s n).peer % 64)) ∧
    (portDown n cause s).cmds = s.cmds := by
  unfold portDown
  dsimp only
  generalize hc : faultCode 6 (0x78 + n) 0xF (cause * 2 ^ 12 + n * 2 ^ 10 + (port s n).peer % 64) = code
  have keep : ∀ {α β : Type} (g : State → β) (f : State → α → State) (l : List α) (s : State), (∀ s a, g (f s a) = g s) → g (l.foldl f s) = g s := by
    intro α β g f l
    induction l with
    | nil => exact fun _ _ => rfl
    | cons a l ih => exact fun s h => (ih _ h).trans (h s a)
  have cut : ∀ {β : Type} (g : State → β), (∀ (m : Nat) (f : Port → Port) (u : State), g (updPort m f u) = g u) →
      (∀ (f : Msg → Msg) (u : State), g (updIcern (fun i => { i with inbox := i.inbox.map f }) u) = g u) →
      (∀ (f : Nat → Cmd → Cmd) (u : State), u.cmds = s.cmds → tmap f s.cmds = s.cmds → g { u with cmds := tmap f u.cmds } = g u) →
      g (cutPort n cause s) = g (postFault code s) := by
    intro β g hg hi hk
    unfold cutPort emptyPort
    dsimp only
    rw [hc, hg, keep g, hk, hi, keep g, keep g]
    · intro u r; split
      · exact hg _ _ _
      · rfl
    · intro u r; split
      · exact hg _ _ _
      · rfl
    · show State.cmds (updIcern _ _) = _
      refine (show _ = State.cmds _ from rfl).trans ((keep (·.cmds) _ _ _ ?_).trans ((keep (·.cmds) _ _ _ ?_).trans (postFault_cmds ..)))
      · intro u r; split <;> rfl
      · intro u r; split <;> rfl
    · have : ∀ l : Tbl Cmd, (∀ q ∈ l, q.2.parked = false ∧ (q.2.lent.any (·.1 == n)) = false) →
          tmap (fun _ (x : Cmd) => if x.lent.any (·.1 == n) then { x with lent := none } else x) l = l := by
        intro l hl
        unfold tmap
        refine (List.map_congr_left fun q hq => ?_).trans (List.map_id _)
        show (q.1, if (q.2.lent.any (·.1 == n)) = true then _ else q.2) = q
        rw [(hl q hq).2]; rfl
      exact this _ hp
    · intro u m; exact hg _ _ _
  have hcm : (cutPort n cause s).cmds = s.cmds := (cut (·.cmds) (fun _ _ _ => rfl) (fun _ _ => rfl) fun f u a b => by dsimp only; rw [a, b]).trans (postFault_cmds ..)
  have hs : spanningJobs (cutPort n cause s) = [] := by
    have : (cutPort n cause s).jobs = s.jobs := (cut (·.jobs) (fun _ _ _ => rfl) (fun _ _ => rfl) fun _ _ _ _ => rfl).trans (postFault_jobs ..)
    unfold spanningJobs; rw [this]; exact h
  have hd : ∀ gone, dropParked gone (cutPort n cause s) = cutPort n cause s := by
    intro gone
    unfold dropParked cmdsOf
    rw [hcm, List.filter_eq_nil_iff.mpr]
    · rfl
    · intro q hq; simp [(hp q hq).1]
  have hl : loseRoutes code (cutPort n cause s) = cutPort n cause s := by unfold loseRoutes; dsimp only; rw [hd, hs]; rfl
  rw [hl, pumpRequests_none ((cut (·.icern.requests) (fun _ _ _ => rfl) (fun _ _ => rfl) fun _ _ _ _ => rfl).trans
    ((congrArg Icern.requests (show (postFault code s).icern = s.icern from by unfold postFault; rw [raise_icern]; rfl)).trans hw))]
  refine ⟨?_, ?_, ?_, hcm⟩
  · unfold cutPort emptyPort; rw [port_updPort_same]; rfl
  · unfold cutPort emptyPort; rw [port_updPort_same]; rfl
  · rw [cut (·.aon) (fun _ _ _ => rfl) (fun _ _ => rfl) fun _ _ _ _ => rfl]; unfold postFault; rw [raise_aon]; rfl

/-- A part that is dropped is gone. -/
theorem dropPart_gone {c : Nat} {x : Cmd} {s : State} (h : cmd? s c = some x) (hc : x.committing = false) (he : x.epoch = 0) : cmd? (dropPart c s) c = none := by
  unfold dropPart
  rw [h]
  dsimp only
  rw [if_neg (by simp [hc, he])]
  unfold delCmd cmd?
  exact tget_tdel_same ..
/-- One past COMMIT stays as it is. -/
theorem dropPart_kept {c : Nat} {x : Cmd} {s : State} (h : cmd? s c = some x) (hc : x.committing = true) : dropPart c s = s := by
  unfold dropPart; rw [h]; dsimp only; rw [if_pos (by simp [hc])]

end Sys2Proof.Machine
end

