-- ==== Sys2Proof/Laws/Ladder.lean ====
section
/-! SUPPORT. The levels of the reset ladder: what a kill of a context leaves of its commands, what L2 and L3 start with (R356–R359). -/

namespace Sys2Proof.Machine

/-- A command that fails leaves every other as it is, but for the cycles charged to it. -/
theorem failCmd_other {s : State} {c d : Nat} {y : Cmd} (st : Status) (f : W32) (h : d ≠ c) (hy : cmd? s d = some y) :
    ∃ n, cmd? (failCmd c st f s) d = some { y with anvilCyc := n } := by
  unfold failCmd
  split
  · exact ⟨y.anvilCyc, hy⟩
  · unfold endCmd
    cases hx : cmd? s c with
    | none => exact ⟨y.anvilCyc, hy⟩
    | some x =>
      dsimp only
      split
      · exact ⟨y.anvilCyc, hy⟩
      · have e : ∀ u : State, u.cmds = s.cmds → ∃ n, cmd? (finish c st 0 f (dropWork (· == c) (withdraw c u))) d = some { y with anvilCyc := n } := fun u hu => by
          unfold finish
          rw [cmd_updCmd_other _ _ h]
          obtain ⟨_, _, ho⟩ := withdraw_cmd (s := u) (c := c) (x := x) (by rw [cmd_of c hu]; exact hx)
          exact (charged_dropWork (· == c) (withdraw c u)).cmd d y (by rw [ho d h, cmd_of d hu]; exact hy)
        split
        · exact e _ (abortAll_cmds ..)
        · exact e _ rfl
/-- A command whose outcome is fixed keeps it. -/
theorem failCmd_fixed {s : State} {c d : Nat} {y : Cmd} (st : Status) (f : W32) (h : cmd? s d = some y) (hf : y.stage = .final ∨ y.stage = .done) :
    ∃ n, cmd? (failCmd c st f s) d = some { y with anvilCyc := n } := by
  by_cases e : d = c
  · subst e
    refine ⟨y.anvilCyc, ?_⟩
    unfold failCmd endCmd; rw [h]; dsimp only; rw [if_pos hf]; split <;> exact h
  · exact failCmd_other st f e h

/-- Every command of a list that fails ends with the status and code that the list gives it. -/
theorem failEach_ends {sf : Nat → Status} {f : W32} {c : Nat} {x : Cmd} : ∀ (cs : List Nat) (s : State), c ∈ cs → cmd? s c = some x → mustCommit x = false →
    x.stage ≠ .final → x.stage ≠ .done → ∃ y, cmd? (cs.foldl (fun s d => failCmd d (sf d) f s) s) c = some y ∧ y.stage = .final ∧ y.status = sf c ∧ y.count = 0 ∧ y.fault = f := by
  have keep : ∀ (cs : List Nat) (s : State) (y : Cmd), cmd? s c = some y → y.stage = .final →
      ∃ n, cmd? (cs.foldl (fun s d => failCmd d (sf d) f s) s) c = some { y with anvilCyc := n } := by
    intro cs
    induction cs with
    | nil => exact fun s y h _ => ⟨y.anvilCyc, h⟩
    | cons a cs ih =>
      intro s y h hy
      obtain ⟨n, hn⟩ := failCmd_fixed (c := a) (sf a) f h (Or.inl hy)
      exact ih (failCmd a (sf a) f s) { y with anvilCyc := n } hn hy
  intro cs
  induction cs generalizing x with
  | nil => exact fun s h => absurd h List.not_mem_nil
  | cons a cs ih =>
    intro s hc hx hm hf hd
    by_cases e : a = c
    · subst e
      obtain ⟨y, y1, y2, y3, y4, y5, _⟩ := failCmd_ends (sf a) f hx hm hf hd
      obtain ⟨n, hn⟩ := keep cs _ y y1 y2
      exact ⟨_, hn, y2, y3, y4, y5⟩
    · obtain ⟨n, hn⟩ := failCmd_other (sf a) f (Ne.symm e) hx
      refine ih _ ?_ hn (by unfold mustCommit at hm ⊢; exact hm) hf hd
      rcases List.mem_cons.mp hc with h | h
      · exact absurd h.symm e
      · exact h

theorem mem_cmdsOf {f : Cmd → Bool} {s : State} {c : Nat} {x : Cmd} (h : cmd? s c = some x) (hf : f x = true) : c ∈ cmdsOf f s := by
  unfold cmdsOf
  have : (c, x) ∈ s.cmds := by
    unfold cmd? at h
    generalize s.cmds = t at h
    induction t with
    | nil => cases h
    | cons a t ih =>
      obtain ⟨k, v⟩ := a
      unfold tget at h
      split at h
      · rename_i hk; cases h; subst hk; exact List.mem_cons_self
      · exact List.mem_cons_of_mem _ (ih h)
  exact List.mem_map.mpr ⟨(c, x), List.mem_filter.mpr ⟨this, hf⟩, rfl⟩

theorem killContext_cmd {ctx c : Nat} {code : W32} {late : Option Nat} {s : State} {x : Cmd} (h : cmd? s c = some x) (hx : x.ctx = ctx) (ha : x.admitted = true)
    (hk : killable x = true) (hm : mustCommit x = false) (hf : x.stage ≠ .final) (hd : x.stage ≠ .done) :
    ∃ y, cmd? (killContext ctx code late s) c = some y ∧ y.stage = .final ∧ y.status = (if late = some c then .timeout else .killed) ∧ y.count = 0 ∧ y.fault = code := by
  have hc : c ∈ (ctxCmds s ctx).filter fun c => (cmd? s c).any killable := by
    refine List.mem_filter.mpr ⟨?_, by rw [h, Option.any_some, hk]⟩
    unfold ctxCmds
    exact mem_cmdsOf h (by simp [liveCmd, ha, hx, hd])
  obtain ⟨y, y1, y2⟩ := failEach_ends (sf := fun d => if late = some d then .timeout else .killed) (f := code) _ s hc h hm hf hd
  have e : ∀ u : State, cmd? u c = some y → ∃ n, cmd? (releaseSemaphores ctx (chargeWhere (fun _ _ a => a.chunk.any (·.ctx == ctx)) u)) c = some { y with anvilCyc := n } := by
    intro u hu
    obtain ⟨n, hn⟩ := (charged_chargeWhere (fun _ _ a => a.chunk.any (·.ctx == ctx)) u).cmd c _ hu
    have k := k_releaseSemaphores (m := [.aon, .host, .ptns, .hearth, .faults, .hbm, .poison, .free]) (within_self _) ctx
      (Keeps.refl _ (chargeWhere (fun _ _ a => a.chunk.any (·.ctx == ctx)) u))
    exact ⟨n, (cmd_of c k.same_cmds).trans hn⟩
  obtain ⟨n, hn⟩ := e _ y1
  refine ⟨{ y with anvilCyc := n }, ?_, y2⟩
  unfold killContext killAt endKills startWith dropContext
  dsimp only
  exact (cmd_of c (updCtx_cmds ..)).trans hn

/-- What an L2 starts with: its level, the fence that is due, the count of its window. -/
theorem startL2_facts {p : Fin 12} {code : W32} {memory soft : Bool} {s : State} (h : covered (.l2 p) s = false) :
    (∃ l ∈ (startL2 p.val code memory soft s).levels, l.level = .l2 p) ∧ (ptn (startL2 p.val code memory soft s) p.val).fence.any (fun f => f.code == code) = true ∧
    (window (startL2 p.val code memory soft s) p.val).count = (openCount s.aon.ticks (window s p.val)).count := by
  have hp : Fin.ofNat 12 p.val = p := by ext; simp [Fin.ofNat, Nat.mod_eq_of_lt p.isLt]
  unfold startL2
  dsimp only
  rw [hp, if_neg (by rw [h]; exact Bool.false_ne_true)]
  refine ⟨⟨_, List.mem_cons_self, rfl⟩, ?_, ?_⟩
  · unfold dueFence
    rw [ptn_updPtn_same]
    unfold joinFence
    split
    · split <;> simp
    · simp
  · unfold window
    show (tgetD (tset s.aon.ptnWin p.val (openCount s.aon.ticks (tgetD s.aon.ptnWin p.val {}))) p.val {}).count = _
    rw [tgetD_tset_same]

/-- Entries that are all set to one value, in a table. -/
theorem tget_setAll {β : Type} (v : β) (l : List Nat) (t : Tbl β) (k : Nat) : tget (l.foldl (fun t p => tset t p v) t) k = if l.contains k then some v else tget t k := by
  induction l generalizing t with
  | nil => rfl
  | cons a l ih =>
    rw [List.foldl_cons, ih]
    by_cases e : a = k
    · subst e; simp [tget_tset_same]
    · rw [tget_tset_other _ _ (Ne.symm e)]; simp [Ne.symm e]

theorem startL3_resets {code : W32} {s : State} (h : covered .l3 s = false) : ChipReset (startL3 code s) := by
  unfold startL3
  rw [if_neg (by rw [h]; exact Bool.false_ne_true)]
  dsimp only
  generalize hu : cutRaise _ = u
  refine ⟨fun p => ?_, rfl, rfl, rfl, rfl, rfl, rfl, rfl, rfl, rfl, fun n => ?_, rfl, ⟨_, rfl⟩, rfl⟩
  · show tgetD (u.aon.ptnOos.foldl (fun t p => tset t p ({ service := .oos } : Ptn)) []) p {} = _
    unfold tgetD
    rw [tget_setAll]
    show Option.getD _ _ = if u.aon.ptnOos.contains p then _ else _
    split <;> rfl
  · show tgetD (tmap (fun _ (x : Port) => ({ line := x.line } : Port)) u.icern.ports) n {} = { line := (tgetD (tmap (fun _ (x : Port) => ({ line := x.line } : Port)) u.icern.ports) n {}).line }
    unfold tgetD
    rw [tget_tmap]
    cases tget u.icern.ports n <;> rfl

theorem resetEngines_temp {x : Ptn} (h : (resetEngines x).temp.step = 4) : x.temp.step = 4 := by
  unfold resetEngines at h
  dsimp only at h
  rw [show (unlockLines (fun _ _ => true) x).temp = x.temp from rfl] at h
  by_cases e : x.temp.step = 4
  · exact e
  · rw [if_neg e] at h; exact absurd h (by decide)

/-- The bricks given up by a tamp leave what a partition is and how warm it is as they were. -/
theorem freeBricks_ptn {β : Type} (g : Ptn → β) (hg : ∀ x l t r, g { x with log := l, tombs := t, regions := r } = g x) (c : Nat) (bs : List Nat) (s : State) (p : Nat) :
    g (ptn (freeBricks c bs s) p) = g (ptn s p) := by
  have fold : ∀ {α : Type} (f : State → α → State) (l : List α) (s : State), (∀ s a, g (ptn (f s a) p) = g (ptn s p)) → g (ptn (l.foldl f s) p) = g (ptn s p) := by
    intro α f l
    induction l with
    | nil => exact fun _ _ => rfl
    | cons a l ih => exact fun s h => (ih _ h).trans (h s a)
  unfold freeBricks
  dsimp only
  rw [fold]
  · generalize hu : bs.foldl _ s = u
    have hs : g (ptn u p) = g (ptn s p) := by
      rw [← hu, fold]
      intro v b
      split <;> rfl
    rw [← hs]
    unfold ptn tgetD
    dsimp only
    rw [tget_tmap, show (updColl c _ u).ptns = u.ptns from rfl]
    cases tget u.ptns p with
    | none => rfl
    | some x => exact hg x _ _ _
  · intro v q
    unfold returnLent
    dsimp only
    split
    · exact ptn_updPtn_of g (fun x => hg x _ _ _) p
    · rfl

theorem abandonTamps_ptn {β : Type} (g : Ptn → β) (hg : ∀ x l t r, g { x with log := l, tombs := t, regions := r } = g x) (q : Nat) (s : State) (p : Nat) :
    g (ptn (abandonTamps q s) p) = g (ptn s p) := by
  have fold : ∀ {α : Type} (f : State → α → State) (l : List α) (s : State), (∀ s a, g (ptn (f s a) p) = g (ptn s p)) → g (ptn (l.foldl f s) p) = g (ptn s p) := by
    intro α f l
    induction l with
    | nil => exact fun _ _ => rfl
    | cons a l ih => exact fun s h => (ih _ h).trans (h s a)
  unfold abandonTamps
  refine fold _ _ _ fun v a => fold _ _ _ fun w b => ?_
  dsimp only
  split
  · exact freeBricks_ptn g hg ..
  · rfl

/-- The charge of an anvil leaves what a partition is and how warm it is as they were. -/
theorem chargeWhere_ptn {β : Type} (g : Ptn → β) (hg : ∀ x v a, g { x with vtime := v } = g x ∧ g { x with anvils := a } = g x) (f : Nat → Nat → Anvil → Bool) (s : State) (p : Nat) :
    g (ptn (chargeWhere f s) p) = g (ptn s p) := by
  have fold : ∀ {α : Type} (f : State → α → State) (l : List α) (s : State), (∀ s a, g (ptn (f s a) p) = g (ptn s p)) → g (ptn (l.foldl f s) p) = g (ptn s p) := by
    intro α f l
    induction l with
    | nil => exact fun _ _ => rfl
    | cons a l ih => exact fun s h => (ih _ h).trans (h s a)
  have one : ∀ q c b w x (u : State), g (ptn (chargeCtx q c b w x u) p) = g (ptn u p) := by
    intro q c b w x u
    have e : ∀ h, (updCtx c h u).ptns = u.ptns := by intro h; unfold updCtx; split <;> rfl
    unfold chargeCtx
    dsimp only
    split
    · rw [ptn_of p (e _)]
    · exact (ptn_updPtn_of g (fun y => (hg y _ []).1) p).trans (by rw [ptn_of p (e _)])
  have cm : ∀ c h (u : State), g (ptn (updCmd c h u) p) = g (ptn u p) := by
    intro c h u; rw [ptn_of p (updCmd_ptns ..)]
  unfold chargeWhere
  refine fold _ _ _ fun v x => fold _ _ _ fun u a => ?_
  unfold chargeAnvil
  dsimp only
  have ha : g (ptn (updAnvil x.1 a.1 (fun y => { y with charge := (ptn u x.1).cycles.toNat }) u) p) = g (ptn u p) := by
    unfold updAnvil; exact ptn_updPtn_of g (fun y => (hg y [] _).2) p
  split
  · unfold chargeChunk
    split
    · exact (one ..).trans ((cm ..).trans ha)
    · split
      · exact (one ..).trans ha
      · exact ha
  · unfold chargeLanes
    dsimp only
    refine (fold _ _ _ fun w b => ?_).trans ha
    split
    · exact (one ..).trans (cm ..)
    · rfl

/-- An update of the rates of a partition leaves the rest of it. -/
theorem updReg_only {p : Nat} (g : Reg → Reg) (u : State) {x : Ptn} (h : ptn u p = x) : ∃ r, ptn (updReg p g u) p = { x with reg := r } := by
  subst h
  exact ⟨g (ptn u p).reg, by unfold updReg; rw [ptn_updPtn_same]⟩

/-- The state in which the outcome of an L2 is decided: its engines empty, its levels ended, its window and its owner as they were. -/
theorem emptied_facts (p : Fin 12) (f : FenceRec) (s : State) :
    (∃ x r, ptn (emptied p.val f s) p.val = { resetEngines x with reg := r }) ∧ (ptn (emptied p.val f s) p.val).job = (ptn s p.val).job ∧
    (∀ l ∈ (emptied p.val f s).levels, l.level ≠ .l2 p) ∧ ((ptn (emptied p.val f s) p.val).temp.step = 4 → (ptn s p.val).temp.step = 4) ∧
    window (emptied p.val f s) p.val = window s p.val := by
  unfold emptied
  dsimp only
  generalize hv : (if f.memory = true then suspectIn p.val s else s) = v
  have hp : v.ptns = s.ptns := by rw [← hv]; split <;> rfl
  have ha : v.aon = s.aon := by rw [← hv]; split <;> rfl
  have hj := (abandonTamps_ptn (·.job) (fun _ _ _ _ => rfl) p.val (chargeWhere (fun q _ _ => q == p.val) v) p.val).trans (chargeWhere_ptn (·.job) (fun _ _ _ => ⟨rfl, rfl⟩) _ v p.val)
  have ht := (abandonTamps_ptn (·.temp) (fun _ _ _ _ => rfl) p.val (chargeWhere (fun q _ _ => q == p.val) v) p.val).trans (chargeWhere_ptn (·.temp) (fun _ _ _ => ⟨rfl, rfl⟩) _ v p.val)
  have ka := (k_abandonTamps (m := [.ptns, .colls, .ctxs, .cmds]) (by unfold Within; decide) p.val (k_chargeWhere (by unfold Within; decide) (fun q _ _ => q == p.val) (Keeps.refl _ v))).same_aon
  rw [ptn_of p.val hp] at hj ht
  generalize abandonTamps p.val (chargeWhere (fun q _ _ => q == p.val) v) = w at hj ht ka
  have key : ∀ u : State, (∃ r, ptn u p.val = { resetEngines (ptn w p.val) with reg := r }) → u.aon = s.aon →
      (∃ x r, ptn (endLevels p.val u) p.val = { resetEngines x with reg := r }) ∧ (ptn (endLevels p.val u) p.val).job = (ptn s p.val).job ∧
      (∀ l ∈ (endLevels p.val u).levels, l.level ≠ .l2 p) ∧ ((ptn (endLevels p.val u) p.val).temp.step = 4 → (ptn s p.val).temp.step = 4) ∧
      window (endLevels p.val u) p.val = window s p.val := by
    rintro u ⟨r, hr⟩ hu
    have e : ptn (endLevels p.val u) p.val = ptn u p.val := rfl
    rw [e, hr]
    refine ⟨⟨_, _, rfl⟩, hj, ?_, fun h => ?_, ?_⟩
    · intro l hl hx
      have := (List.mem_filter.mp hl).2
      rw [hx] at this
      simp at this
    · rw [← ht]; exact resetEngines_temp h
    · unfold window; rw [← hu]; rfl
  rw [ptn_updPtn_same]
  split
  · refine key _ ?_ (ka.trans ha)
    unfold resetRates
    dsimp only
    exact updReg_only _ _ (ptn_updPtn_same ..)
  · exact key _ ⟨(resetEngines (ptn w p.val)).reg, by rw [ptn_updPtn_same]⟩ (ka.trans ha)

end Sys2Proof.Machine
end

