-- ==== Sys2Proof/Laws/Mailbox.lean ====
section
/-! SUPPORT. What a mailbox row does: a request that is served reaches its own handler, and its response stands in the mailbox. -/

namespace Sys2Proof.Machine

/-- What the response of R309 changes: the mailbox, and the vector that is sent. -/
theorem answerMbx_hearth (m : Nat) (q : Req) (r : Rsp) (s : State) : ∃ x, (answerMbx m q r s).hearth = { s.hearth with mbx := tset s.hearth.mbx m x } ∧
    x = { mbx s m with
      payload := mwriteAll (mbx s m).payload 0 r.bytes
      rspHeader := leBytes 2 q.opcode ++ leBytes 2 r.bytes.length ++ leBytes 4 q.tag.toNat ++ [r.status.code, 0] ++ leBytes 2 r.ticket ++ leBytes 4 r.detail
      state := 3, tag := q.tag, status := r.status.code, req := none } := by
  refine ⟨_, ?_, rfl⟩
  unfold answerMbx
  dsimp only
  split
  · rw [sendVec_hearth]; rfl
  · rfl

theorem answered_answerMbx (m : Nat) (q : Req) (r : Rsp) (s : State) : Answered (answerMbx m q r s) m q r := by
  obtain ⟨x, hx, hy⟩ := answerMbx_hearth m q r s
  have e : mbx (answerMbx m q r s) m = x := by unfold mbx; rw [hx]; exact tgetD_tset_same _ _ _ _
  rw [hy] at e
  clear hx hy
  constructor
  · rw [e]
  · rw [e]
  · rw [e]
  · rw [e]
  · rw [e]
  · intro i hi; rw [e]; simp [Memory.mread_mwriteAll, hi]

/-! The response leaves every other part of the state. -/

@[simp] theorem answerMbx_pending (m : Nat) (q : Req) (r : Rsp) (s : State) : (answerMbx m q r s).pending = s.pending := by unfold answerMbx; dsimp only; split <;> simp
@[simp] theorem answerMbx_aon (m : Nat) (q : Req) (r : Rsp) (s : State) : (answerMbx m q r s).aon = s.aon := by unfold answerMbx; dsimp only; split <;> simp
@[simp] theorem answerMbx_pins (m : Nat) (q : Req) (r : Rsp) (s : State) : (answerMbx m q r s).pins = s.pins := by unfold answerMbx; dsimp only; split <;> simp
@[simp] theorem answerMbx_ptns (m : Nat) (q : Req) (r : Rsp) (s : State) : (answerMbx m q r s).ptns = s.ptns := by unfold answerMbx; dsimp only; split <;> simp
@[simp] theorem answerMbx_jobs (m : Nat) (q : Req) (r : Rsp) (s : State) : (answerMbx m q r s).jobs = s.jobs := by unfold answerMbx; dsimp only; split <;> simp
@[simp] theorem answerMbx_ctxs (m : Nat) (q : Req) (r : Rsp) (s : State) : (answerMbx m q r s).ctxs = s.ctxs := by unfold answerMbx; dsimp only; split <;> simp
@[simp] theorem answerMbx_colls (m : Nat) (q : Req) (r : Rsp) (s : State) : (answerMbx m q r s).colls = s.colls := by unfold answerMbx; dsimp only; split <;> simp
@[simp] theorem answerMbx_cmds (m : Nat) (q : Req) (r : Rsp) (s : State) : (answerMbx m q r s).cmds = s.cmds := by unfold answerMbx; dsimp only; split <;> simp
@[simp] theorem answerMbx_nextCmd (m : Nat) (q : Req) (r : Rsp) (s : State) : (answerMbx m q r s).nextCmd = s.nextCmd := by unfold answerMbx; dsimp only; split <;> simp
@[simp] theorem answerMbx_hearthUp (m : Nat) (q : Req) (r : Rsp) (s : State) : (answerMbx m q r s).hearthUp = s.hearthUp := by unfold answerMbx; dsimp only; split <;> simp
@[simp] theorem answerMbx_faults (m : Nat) (q : Req) (r : Rsp) (s : State) : (answerMbx m q r s).faults = s.faults := by unfold answerMbx; dsimp only; split <;> simp
@[simp] theorem answerMbx_levels (m : Nat) (q : Req) (r : Rsp) (s : State) : (answerMbx m q r s).levels = s.levels := by unfold answerMbx; dsimp only; split <;> simp
@[simp] theorem answerMbx_seamTok (m : Nat) (q : Req) (r : Rsp) (s : State) : (answerMbx m q r s).seamTok = s.seamTok := by unfold answerMbx; dsimp only; split <;> simp
@[simp] theorem answerMbx_icern (m : Nat) (q : Req) (r : Rsp) (s : State) : (answerMbx m q r s).icern = s.icern := by unfold answerMbx; dsimp only; split <;> simp
@[simp] theorem answerMbx_power (m : Nat) (q : Req) (r : Rsp) (s : State) : (answerMbx m q r s).power = s.power := by unfold answerMbx; dsimp only; split <;> simp
@[simp] theorem answerMbx_jtag (m : Nat) (q : Req) (r : Rsp) (s : State) : (answerMbx m q r s).jtag = s.jtag := by unfold answerMbx; dsimp only; split <;> simp
@[simp] theorem answerMbx_hbm (m : Nat) (q : Req) (r : Rsp) (s : State) : (answerMbx m q r s).hbm = s.hbm := by unfold answerMbx; dsimp only; split <;> simp
@[simp] theorem answerMbx_poison (m : Nat) (q : Req) (r : Rsp) (s : State) : (answerMbx m q r s).poison = s.poison := by unfold answerMbx; dsimp only; split <;> simp
@[simp] theorem answerMbx_free (m : Nat) (q : Req) (r : Rsp) (s : State) : (answerMbx m q r s).free = s.free := by unfold answerMbx; dsimp only; split <;> simp
@[simp] theorem answerMbx_host_link (m : Nat) (q : Req) (r : Rsp) (s : State) : (answerMbx m q r s).host.link = s.host.link := by unfold answerMbx; dsimp only; split <;> simp
@[simp] theorem answerMbx_host_evtPend (m : Nat) (q : Req) (r : Rsp) (s : State) : (answerMbx m q r s).host.evtPend = s.host.evtPend := by unfold answerMbx; dsimp only; split <;> simp
@[simp] theorem answerMbx_host_evtMask (m : Nat) (q : Req) (r : Rsp) (s : State) : (answerMbx m q r s).host.evtMask = s.host.evtMask := by unfold answerMbx; dsimp only; split <;> simp
@[simp] theorem answerMbx_host_evtCnt (m : Nat) (q : Req) (r : Rsp) (s : State) : (answerMbx m q r s).host.evtCnt = s.host.evtCnt := by unfold answerMbx; dsimp only; split <;> simp
@[simp] theorem answerMbx_host_rings (m : Nat) (q : Req) (r : Rsp) (s : State) : (answerMbx m q r s).host.rings = s.host.rings := by unfold answerMbx; dsimp only; split <;> simp
@[simp] theorem answerMbx_host_apertures (m : Nat) (q : Req) (r : Rsp) (s : State) : (answerMbx m q r s).host.apertures = s.host.apertures := by unfold answerMbx; dsimp only; split <;> simp
@[simp] theorem answerMbx_host_pools (m : Nat) (q : Req) (r : Rsp) (s : State) : (answerMbx m q r s).host.pools = s.host.pools := by unfold answerMbx; dsimp only; split <;> simp
@[simp] theorem answerMbx_host_granules (m : Nat) (q : Req) (r : Rsp) (s : State) : (answerMbx m q r s).host.granules = s.host.granules := by unfold answerMbx; dsimp only; split <;> simp
@[simp] theorem answerMbx_host_memWaits (m : Nat) (q : Req) (r : Rsp) (s : State) : (answerMbx m q r s).host.memWaits = s.host.memWaits := by unfold answerMbx; dsimp only; split <;> simp
@[simp] theorem answerMbx_host_seniorSeq (m : Nat) (q : Req) (r : Rsp) (s : State) : (answerMbx m q r s).host.seniorSeq = s.host.seniorSeq := by unfold answerMbx; dsimp only; split <;> simp
@[simp] theorem answerMbx_host_answer (m : Nat) (q : Req) (r : Rsp) (s : State) : (answerMbx m q r s).host.answer = s.host.answer := by unfold answerMbx; dsimp only; split <;> simp
@[simp] theorem answerMbx_hearth_awake (m : Nat) (q : Req) (r : Rsp) (s : State) : (answerMbx m q r s).hearth.awake = s.hearth.awake := by obtain ⟨x, h, _⟩ := answerMbx_hearth m q r s; rw [h]
@[simp] theorem answerMbx_hearth_wakeDue (m : Nat) (q : Req) (r : Rsp) (s : State) : (answerMbx m q r s).hearth.wakeDue = s.hearth.wakeDue := by obtain ⟨x, h, _⟩ := answerMbx_hearth m q r s; rw [h]
@[simp] theorem answerMbx_hearth_tickets (m : Nat) (q : Req) (r : Rsp) (s : State) : (answerMbx m q r s).hearth.tickets = s.hearth.tickets := by obtain ⟨x, h, _⟩ := answerMbx_hearth m q r s; rw [h]
@[simp] theorem answerMbx_hearth_nextTicket (m : Nat) (q : Req) (r : Rsp) (s : State) : (answerMbx m q r s).hearth.nextTicket = s.hearth.nextTicket := by obtain ⟨x, h, _⟩ := answerMbx_hearth m q r s; rw [h]
@[simp] theorem answerMbx_hearth_log (m : Nat) (q : Req) (r : Rsp) (s : State) : (answerMbx m q r s).hearth.log = s.hearth.log := by obtain ⟨x, h, _⟩ := answerMbx_hearth m q r s; rw [h]
@[simp] theorem answerMbx_hearth_logSeq (m : Nat) (q : Req) (r : Rsp) (s : State) : (answerMbx m q r s).hearth.logSeq = s.hearth.logSeq := by obtain ⟨x, h, _⟩ := answerMbx_hearth m q r s; rw [h]
@[simp] theorem answerMbx_hearth_goSeq (m : Nat) (q : Req) (r : Rsp) (s : State) : (answerMbx m q r s).hearth.goSeq = s.hearth.goSeq := by obtain ⟨x, h, _⟩ := answerMbx_hearth m q r s; rw [h]
@[simp] theorem answerMbx_hearth_patSeq (m : Nat) (q : Req) (r : Rsp) (s : State) : (answerMbx m q r s).hearth.patSeq = s.hearth.patSeq := by obtain ⟨x, h, _⟩ := answerMbx_hearth m q r s; rw [h]
@[simp] theorem answerMbx_hearth_trainSeq (m : Nat) (q : Req) (r : Rsp) (s : State) : (answerMbx m q r s).hearth.trainSeq = s.hearth.trainSeq := by obtain ⟨x, h, _⟩ := answerMbx_hearth m q r s; rw [h]
@[simp] theorem answerMbx_hearth_snapshot (m : Nat) (q : Req) (r : Rsp) (s : State) : (answerMbx m q r s).hearth.snapshot = s.hearth.snapshot := by obtain ⟨x, h, _⟩ := answerMbx_hearth m q r s; rw [h]
@[simp] theorem answerMbx_hearth_snapSeq (m : Nat) (q : Req) (r : Rsp) (s : State) : (answerMbx m q r s).hearth.snapSeq = s.hearth.snapSeq := by obtain ⟨x, h, _⟩ := answerMbx_hearth m q r s; rw [h]
@[simp] theorem answerMbx_hearth_stage (m : Nat) (q : Req) (r : Rsp) (s : State) : (answerMbx m q r s).hearth.stage = s.hearth.stage := by obtain ⟨x, h, _⟩ := answerMbx_hearth m q r s; rw [h]
@[simp] theorem answerMbx_hearth_restarting (m : Nat) (q : Req) (r : Rsp) (s : State) : (answerMbx m q r s).hearth.restarting = s.hearth.restarting := by obtain ⟨x, h, _⟩ := answerMbx_hearth m q r s; rw [h]
@[simp] theorem answerMbx_hearth_lastFault (m : Nat) (q : Req) (r : Rsp) (s : State) : (answerMbx m q r s).hearth.lastFault = s.hearth.lastFault := by obtain ⟨x, h, _⟩ := answerMbx_hearth m q r s; rw [h]
@[simp] theorem answerMbx_hearth_sessions (m : Nat) (q : Req) (r : Rsp) (s : State) : (answerMbx m q r s).hearth.sessions = s.hearth.sessions := by obtain ⟨x, h, _⟩ := answerMbx_hearth m q r s; rw [h]
@[simp] theorem answerMbx_hearth_assays (m : Nat) (q : Req) (r : Rsp) (s : State) : (answerMbx m q r s).hearth.assays = s.hearth.assays := by obtain ⟨x, h, _⟩ := answerMbx_hearth m q r s; rw [h]
@[simp] theorem answerMbx_hearth_underTest (m : Nat) (q : Req) (r : Rsp) (s : State) : (answerMbx m q r s).hearth.underTest = s.hearth.underTest := by obtain ⟨x, h, _⟩ := answerMbx_hearth m q r s; rw [h]
@[simp] theorem answerMbx_hearth_recovery (m : Nat) (q : Req) (r : Rsp) (s : State) : (answerMbx m q r s).hearth.recovery = s.hearth.recovery := by obtain ⟨x, h, _⟩ := answerMbx_hearth m q r s; rw [h]

/-- A command that goes on is answered BUSY with a ticket, where fewer than 64 are open (R310). -/
theorem ticketed_settle {m : Nat} {q : Req} {s u : State} (w : Work) (h : (openTickets s).length < 64) :
    Ticketed s (settleReq m q (mbx s m).order s (u, .busy w)) m q w ∧
    ∃ v r, settleReq m q (mbx s m).order s (u, .busy w) = answerMbx m q r v ∧ v = updHearth (fun h => { h with tickets := v.hearth.tickets, nextTicket := v.hearth.nextTicket }) u := by
  have e : settleReq m q (mbx s m).order s (u, .busy w) = answerMbx m q { status := .busy, ticket := freeTicket u } (updHearth (fun h => { h with
      tickets := tset h.tickets (freeTicket u) { mbx := m, req := q, work := w, order := (mbx s m).order }
      nextTicket := if freeTicket u ≥ 65535 then 1 else freeTicket u + 1 }) u) := by
    unfold settleReq; simp only [Nat.not_le.mpr h, ge_iff_le, if_false]
  rw [e]
  refine ⟨⟨freeTicket u, answered_answerMbx _ _ _ _, ?_⟩, _, _, rfl, rfl⟩
  rw [answerMbx_hearth_tickets]; exact tget_tset_same _ _ _

theorem posts_answerMbx (m : Nat) (q : Req) (r : Rsp) (s : State) : Posts s (answerMbx m q r s) := by
  unfold answerMbx; dsimp only; split
  · refine Posts.trans ?_ (posts_sendVec _ _)
    exact Posts.of_host rfl
  · exact Posts.of_host rfl

/-- A request that is served reaches its handler. -/
theorem served_runs {m op : Nat} {q : Req} {s : State} (hold : Req → Work) (form : Req → Bool) (h : Handler) (reply : ReadReply)
    (hs : served m op q s = true) (hf : form q = true) :
    mailboxWith hold m op form h reply s = settleReq m q (mbx s m).order s (h m q reply s) := by
  simp only [served, Bool.and_eq_true, beq_iff_eq, Bool.not_eq_true', decide_eq_true_eq] at hs
  obtain ⟨⟨⟨⟨⟨⟨⟨⟨⟨⟨⟨⟨h1, h2⟩, h3⟩, h4⟩, h5⟩, h6⟩, h7⟩, h8⟩, h9⟩, h10⟩, h11⟩, h12⟩, h13⟩ := hs
  have r : runReq h m q reply s = h m q reply s := by
    have a1 : decide (q.len > 4096) = false := by simp; exact h10
    have a2 : (outOfService s && !([0, 6, 7].contains (op / 256))) = false := h11
    have a3 : (!actsOnOos op && anyOos s (reqNeeds s q)) = false ∧ (!actsOnFenced op && anyFenced s (reqNeeds s q)) = false := by
      constructor
      · cases ha : actsOnOos op <;> simp_all
      · cases ha : actsOnFenced op <;> simp_all
    unfold runReq
    rw [h6, h9, a1, a2, a3.1, a3.2]; rfl
  unfold mailboxWith
  simp only [h1, h2, h3, h4, h6, h5, hf, h8, r]
  cases hr : s.hearth.recovery <;> simp_all

end Sys2Proof.Machine
end

