-- ==== Sys2Proof/Laws/Search.lean ====
section
/-! SUPPORT. Rows and probes of a running search, the descriptors it queues, the lists its folds merge (R125–R131, R152–R155). -/

namespace Sys2Proof.Machine

theorem cmd_updRow {c row : Nat} {f : QRow → QRow} {s : State} {x : Cmd} {r : QRow} (h : cmd? s c = some x) (hr : x.rows[row]? = some r) :
    cmd? (updRow c row f s) c = some { x with rows := x.rows.set row (f r) } := by
  unfold updRow; rw [cmd_updCmd _ h, hr]
theorem rowOf_cmd {c row : Nat} {s : State} {r : QRow} (h : rowOf s c row = some r) : ∃ x, cmd? s c = some x ∧ x.rows[row]? = some r := by
  unfold rowOf at h
  cases hx : cmd? s c with
  | none => rw [hx] at h; cases h
  | some x => rw [hx] at h; exact ⟨x, rfl, h⟩
theorem rowOf_of {c row : Nat} {s t : State} (h : t.cmds = s.cmds) : rowOf t c row = rowOf s c row := by unfold rowOf; rw [cmd_of c h]
theorem rowOf_row {c row : Nat} {s : State} {x : Cmd} (h : cmd? s c = some x) : rowOf s c row = x.rows[row]? := by unfold rowOf; rw [h]; rfl
theorem rowOf_updRow {c row : Nat} {f : QRow → QRow} {s : State} {r : QRow} (h : rowOf s c row = some r) : rowOf (updRow c row f s) c row = some (f r) := by
  obtain ⟨x, hx, hr⟩ := rowOf_cmd h
  rw [rowOf_row (cmd_updRow hx hr)]
  dsimp only
  have := (List.getElem?_eq_some_iff.mp hr).1
  simp [this]
theorem rowOf_updCmd {c row : Nat} {f : Cmd → Cmd} {s : State} (h : ∀ x, (f x).rows = x.rows) : rowOf (updCmd c f s) c row = rowOf s c row := by
  unfold rowOf
  cases hx : cmd? s c with
  | none => unfold updCmd; rw [hx]; simp [hx]
  | some x => rw [cmd_updCmd _ hx]; simp [h]
theorem probeOf_updProbe {p c row : Nat} {f : Probe → Probe} {s : State} {r : QRow} (h : rowOf s c row = some r) :
    probeOf (updProbe p c row f s) p c row = f (probeOf s p c row) := by
  unfold probeOf updProbe
  rw [rowOf_updRow h, h]
  simp [tgetD]
theorem rowOf_updProbe {p c row : Nat} {f : Probe → Probe} {s : State} {r : QRow} (h : rowOf s c row = some r) :
    rowOf (updProbe p c row f s) c row = some { r with probes := tset r.probes p (f (tgetD r.probes p {})) } := rowOf_updRow h

theorem updProbe_cmds_only (p c row : Nat) (f : Probe → Probe) (s : State) : Keeps [.cmds] s (updProbe p c row f s) := by
  unfold updProbe updRow
  exact k_updCmd (within_self _) _ _ (Keeps.refl _ s)
theorem settleProbe_facts {p c row : Nat} {s : State} {r : QRow} (h : rowOf s c row = some r) :
    Keeps [.cmds] s (settleProbe p c row s) ∧ ∃ e, probeOf (settleProbe p c row s) p c row = { probeOf s p c row with ended := e } := by
  obtain ⟨x, hx, _⟩ := rowOf_cmd h
  unfold settleProbe
  rw [hx, h]
  dsimp only
  exact ⟨updProbe_cmds_only .., _, probeOf_updProbe h⟩

theorem gainWork_ptns (p ctx : Nat) (s : State) : (ptn (gainWork p ctx s) p).rowQ = (ptn s p).rowQ ∧ Keeps [.ptns] s (gainWork p ctx s) := by
  refine ⟨?_, k_gainWork (within_self _) _ _ (Keeps.refl _ s)⟩
  unfold gainWork
  have hn : ∀ x, (noteWork ctx x).rowQ = x.rowQ := fun x => by unfold noteWork; split <;> rfl
  split
  · rfl
  · dsimp only
    split
    · rw [ptn_updPtn_same, ptn_updPtn_same]; exact hn _
    · rw [ptn_updPtn_same]; exact hn _

theorem queueDescs_rowQ (p : Nat) (cs : List Nat) (ds : List Desc) (s : State) :
    (ptn (queueDescs p cs ds s) p).rowQ.map (·.2) = (ptn s p).rowQ.map (·.2) ++ ds ∧ Keeps [.ptns] s (queueDescs p cs ds s) := by
  unfold queueDescs
  dsimp only
  have g : ∀ (l : List Nat) (u : State), (ptn (l.foldl (fun s c => gainWork p c s) u) p).rowQ = (ptn u p).rowQ ∧ Keeps [.ptns] u (l.foldl (fun s c => gainWork p c s) u) := by
    intro l
    induction l with
    | nil => exact fun u => ⟨rfl, Keeps.refl _ u⟩
    | cons a l ih =>
      intro u
      obtain ⟨a1, _⟩ := ih (gainWork p a u)
      exact ⟨a1.trans (gainWork_ptns p a u).1, k_foldl (Keeps.refl _ u) fun v x hv => k_gainWork (within_self _) _ _ hv⟩
  have d : ∀ (l : List Desc) (u : State), (ptn (l.foldl (fun s d => putDesc p d s) u) p).rowQ.map (·.2) = (ptn u p).rowQ.map (·.2) ++ l := by
    intro l
    induction l with
    | nil => intro u; simp
    | cons a l ih => intro u; simp only [List.foldl_cons]; rw [ih]; unfold putDesc; dsimp only; rw [ptn_updPtn_same]; simp
  exact ⟨by rw [d, (g cs s).1], k_foldl (g cs s).2 fun v x hv => k_putDesc (within_self _) _ _ hv⟩

/-- A fold node's pass leaves each key once, no NaN, and only entries that it was given (R152–R155). -/
theorem dedupe_keys : ∀ (n : Nat) (l : List Entry), (∀ e ∈ (dedupe n l).1, e ∈ l) ∧ ((dedupe n l).1.map (·.key)).Nodup ∨ l.length > n := by
  intro n
  induction n with
  | zero =>
    intro l
    cases l with
    | nil => left; simp [dedupe]
    | cons e t => right; simp
  | succ n ih =>
    intro l
    cases l with
    | nil => left; simp [dedupe]
    | cons e t =>
      by_cases hl : (e :: t).length > n + 1
      · right; exact hl
      · left
        have hf : (t.filter (·.key != e.key)).length ≤ n := Nat.le_trans (List.length_filter_le _ _) (by simp at hl; omega)
        obtain ⟨h1, h2⟩ | h := ih (t.filter (·.key != e.key))
        · have pm : ((preferred (e :: t.filter (·.key == e.key))).getD e) ∈ e :: t.filter (·.key == e.key) := by
            unfold preferred
            split
            · rename_i a ha; exact List.mem_of_find?_eq_some ha
            · cases hk : List.find? (fun a => (e :: t.filter (·.key == e.key)).all fun b => betterCopy a b) (e :: t.filter (·.key == e.key)) with
              | none => simp
              | some a => exact List.mem_of_find?_eq_some hk
          have pk : ((preferred (e :: t.filter (·.key == e.key))).getD e).key = e.key := by
            rcases List.mem_cons.mp pm with h | h
            · rw [h]
            · simpa using (List.mem_filter.mp h).2
          have pl : ((preferred (e :: t.filter (·.key == e.key))).getD e) ∈ e :: t := by
            rcases List.mem_cons.mp pm with h | h
            · rw [h]; simp
            · exact List.mem_cons_of_mem _ (List.mem_filter.mp h).1
          unfold dedupe
          dsimp only
          refine ⟨?_, ?_⟩
          · intro a ha
            rcases List.mem_cons.mp ha with h | h
            · rw [h]; exact pl
            · exact List.mem_cons_of_mem _ (List.mem_filter.mp (h1 a h)).1
          · rw [List.map_cons, List.nodup_cons]
            refine ⟨?_, h2⟩
            rw [pk]
            intro hm
            obtain ⟨a, ha, hk⟩ := List.mem_map.mp hm
            have := (List.mem_filter.mp (h1 a ha)).2
            simp [hk] at this
        · omega

theorem insertBy_perm {α : Type} (b : α → α → Bool) (a : α) (l : List α) : (insertBy b a l).Perm (a :: l) := by
  induction l with
  | nil => exact List.Perm.refl _
  | cons x l ih =>
    unfold insertBy
    split
    · exact List.Perm.refl _
    · exact (List.Perm.cons x ih).trans (List.Perm.swap a x l)
theorem sortBy_perm {α : Type} (b : α → α → Bool) (l : List α) : (sortBy b l).Perm l := by
  unfold sortBy
  induction l with
  | nil => exact List.Perm.refl _
  | cons a l ih => exact (insertBy_perm b a _).trans (List.Perm.cons a ih)

theorem nan_split (l : List Entry) : (l.filter fun e => fIsNaN e.score).length + (l.filter fun e => !fIsNaN e.score).length = l.length := by
  induction l with
  | nil => rfl
  | cons a l ih =>
    rw [List.filter_cons, List.filter_cons]
    cases ha : fIsNaN a.score
    · simp only [Bool.not_false, if_true, Bool.false_eq_true, if_false, List.length_cons]; omega
    · simp only [Bool.not_true, if_true, Bool.false_eq_true, if_false, List.length_cons]; omega

theorem foldAll_facts (l : List Entry) : ((foldAll l).1.map (·.key)).Nodup ∧ (∀ e ∈ (foldAll l).1, e ∈ l ∧ fIsNaN e.score = false) ∧
    (foldAll l).2.2 = (l.filter fun e => fIsNaN e.score).length := by
  have hg := dedupe_keys (l.filter fun e => !fIsNaN e.score).length (l.filter fun e => !fIsNaN e.score)
  obtain ⟨h1, h2⟩ | h := hg
  · unfold foldAll
    dsimp only
    refine ⟨?_, ?_, ?_⟩
    · unfold sortEntries; exact ((sortBy_perm entryBefore _).map _).nodup_iff.mpr h2
    · intro e he
      have := h1 e ((sortBy_perm entryBefore _).mem_iff.mp he)
      have := List.mem_filter.mp this
      exact ⟨this.1, by simpa using this.2⟩
    · have := nan_split l
      omega
  · omega

end Sys2Proof.Machine
end

