-- ==== Sys2Proof/Laws/Tamp.lean ====
section
/-! SUPPORT. What tamping, training and redistribution do to a collection: its leaves, its keys, the bricks freed (R107–R113). -/

namespace Sys2Proof.Machine

/-- A part of a collection that an update of any collection leaves as it is. -/
theorem proj_updColl {β : Type} (q : Coll → β) {c n : Nat} {g : Coll → Coll} (s : State) (h : ∀ y, q (g y) = q y) : q (coll (updColl c g s) n) = q (coll s n) := by
  by_cases e : n = c
  · subst e; rw [coll_updColl_same, h]
  · rw [coll_updColl_other _ _ e]
theorem proj_foldl {α β : Type} (q : Coll → β) (f : State → α → State) (n : Nat) (h : ∀ s a, q (coll (f s a) n) = q (coll s n)) (l : List α) (s : State) :
    q (coll (l.foldl f s) n) = q (coll s n) := by
  induction l generalizing s with
  | nil => rfl
  | cons a l ih => exact (ih _).trans (h s a)

theorem freshBrick_coll {ro : Bool} {c p kind l a : Nat} {base : Epoch} {s u : State} (h : freshBrick ro c p kind l base s = some (a, u)) :
    coll u c = { coll s c with bricks := tset (coll s c).bricks a { emptyBrick with kind := kind, list := l, base := base } } := by
  unfold freshBrick at h
  cases ht : takeFrame ro c p s with
  | none => rw [ht] at h; cases h
  | some v =>
    obtain ⟨b, v⟩ := v
    rw [ht] at h
    cases h
    have hc : v.colls = s.colls := ((k_takeFrame (m := [.ptns]) (within_of (by decide)) ro c p (Keeps.refl _ s)).get _ _ ht).same_colls
    rw [coll_updColl_same, coll_of c hc]

/-- A slot copied: its source joins the map of the moves; what the list had before the cut stays. -/
theorem copySlot_leaf {c l : Nat} {q : SlotRef × Slot} {s t : State} (h : copySlot c l q s = some t) :
    (leaf (coll t c) l).copyMap.map (·.1) = (leaf (coll s c) l).copyMap.map (·.1) ++ [q.1] ∧ (leaf (coll t c) l).pre = (leaf (coll s c) l).pre ∧
    (leaf (coll t c) l).copied = (leaf (coll s c) l).copied ∧ (leaf (coll t c) l).state = (leaf (coll s c) l).state := by
  have poison : ∀ (y : Coll) (b : Bool) (r : SlotRef) (u : State), coll (carryPoison y q.1 r (clearPoison y b r u)) c = coll u c := fun y b r u =>
    coll_of c (k_carryPoison (within_self _) _ _ _ (k_clearPoison (within_self _) _ _ _ (Keeps.refl _ u))).same_colls
  have put : ∀ (a i : Nat) (u : State) (g : Brick → Brick),
      (leaf (coll (updLeaf c l (fun k => { k with copyMap := k.copyMap ++ [(q.1, ⟨a, i⟩)] }) (updBrick c a g u)) c) l) =
        { leaf (coll u c) l with copyMap := (leaf (coll u c) l).copyMap ++ [(q.1, ⟨a, i⟩)] } := by
    intro a i u g
    have hb : (coll (updBrick c a g u) c).leaves = (coll u c).leaves :=
      proj_updColl (·.leaves) u fun y => by split <;> rfl
    have hl : leaf (coll (updBrick c a g u) c) l = leaf (coll u c) l := by unfold leaf; rw [hb]
    unfold updLeaf
    rw [coll_updColl_same, hl]
    unfold leaf
    dsimp only
    rw [tgetD_tset_same]
  unfold copySlot at h
  dsimp only at h
  split at h
  · cases h
    rw [poison, put]
    exact ⟨by simp, rfl, rfl, rfl⟩
  · cases hf : freshBrick true c (leaf (coll s c) l).owner 0 l (leaf (coll s c) l).cutEpoch s with
    | none => rw [hf] at h; cases h
    | some v =>
      obtain ⟨a, u⟩ := v
      rw [hf] at h
      cases h
      dsimp only
      rw [poison, put]
      have hu : leaf (coll (updLeaf c l (fun k => { k with copies := k.copies ++ [a] }) u) c) l = { leaf (coll s c) l with copies := (leaf (coll s c) l).copies ++ [a] } := by
        have e : leaf (coll u c) l = leaf (coll s c) l := by rw [freshBrick_coll hf]; rfl
        unfold updLeaf
        rw [coll_updColl_same, e]
        unfold leaf
        dsimp only
        rw [tgetD_tset_same]
      rw [hu]
      exact ⟨by simp, rfl, rfl, rfl⟩

theorem copyAll_leaf {c l : Nat} (qs : List (SlotRef × Slot)) {s t : State} (h : qs.foldl (fun o q => o.bind (copySlot c l q)) (some s) = some t) :
    (leaf (coll t c) l).copyMap.map (·.1) = (leaf (coll s c) l).copyMap.map (·.1) ++ qs.map (·.1) ∧ (leaf (coll t c) l).pre = (leaf (coll s c) l).pre ∧
    (leaf (coll t c) l).copied = (leaf (coll s c) l).copied ∧ (leaf (coll t c) l).state = (leaf (coll s c) l).state := by
  induction qs generalizing s with
  | nil => cases h; exact ⟨by simp, rfl, rfl, rfl⟩
  | cons q qs ih =>
    simp only [List.foldl_cons, Option.bind_some] at h
    cases hq : copySlot c l q s with
    | none =>
      rw [hq] at h
      have : ∀ l' : List (SlotRef × Slot), l'.foldl (fun o q => o.bind (copySlot c l q)) none = none := by
        intro l'; induction l' with
        | nil => rfl
        | cons a l' ih => simpa using ih
      rw [this] at h; cases h
    | some u =>
      rw [hq] at h
      obtain ⟨a1, a2, a3, a4⟩ := ih h
      obtain ⟨b1, b2, b3, b4⟩ := copySlot_leaf hq
      exact ⟨by rw [a1, b1]; simp, a2.trans b2, a3.trans b3, a4.trans b4⟩

theorem leaf_updLeaf (c l : Nat) (f : Leaf → Leaf) (s : State) : leaf (coll (updLeaf c l f s) c) l = f (leaf (coll s c) l) := by
  unfold updLeaf
  rw [coll_updColl_same]
  unfold leaf
  dsimp only
  rw [tgetD_tset_same]

theorem proj_movePostings {β : Type} (q : Coll → β) (h : ∀ y p, q { y with postings := p } = q y) (c : Nat) (e : Epoch) (m : SlotRef × SlotRef) (n : Nat) (s : State) :
    PartIs q n (q (coll s n)) (movePostings c e m s) := by
  have same : PartIs q n (q (coll s n)) (some s) := fun _ e => by cases e; rfl
  unfold movePostings
  dsimp only
  split
  · exact same
  split
  · exact proj_addPostings q h _ _ _ _ _ n s
  · exact same

theorem returnLent_colls (c p : Nat) (s : State) : (returnLent c p s).colls = s.colls := by
  unfold returnLent
  dsimp only
  split <;> rfl

/-- Freed bricks leave the collection; a part of it that holds no bricks, keys, postings or counters stays. -/
theorem freeBricks_proj {β : Type} (q : Coll → β) (hq : ∀ y b k p t, q { y with bricks := b, keys := k, postings := p, ptns := t } = q y) (c : Nat) (bs : List Nat) (s : State) (n : Nat) :
    q (coll (freeBricks c bs s) n) = q (coll s n) := by
  unfold freeBricks
  dsimp only
  have tl : ∀ (l : List Nat) (s : State), (l.foldl (fun s p => returnLent c p s) s).colls = s.colls := by
    intro l; induction l with
    | nil => exact fun _ => rfl
    | cons a l ih => exact fun s => (ih _).trans (returnLent_colls c a s)
  rw [coll_of n (tl _ _)]
  refine Eq.trans (proj_updColl q (c := c) _ fun y => hq y _ _ _ y.ptns) ?_
  refine proj_foldl q _ n (fun s b => ?_) bs s
  split
  · exact proj_updColl q s fun y => hq y y.bricks y.keys y.postings _
  · rfl

theorem freeBricks_gone (c : Nat) (bs : List Nat) (s : State) : ∀ b ∈ bs, brick? (coll (freeBricks c bs s) c) b = none := by
  intro b hb
  unfold freeBricks
  dsimp only
  have tl : ∀ (l : List Nat) (s : State), (l.foldl (fun s p => returnLent c p s) s).colls = s.colls := by
    intro l; induction l with
    | nil => exact fun _ => rfl
    | cons a l ih => exact fun s => (ih _).trans (returnLent_colls c a s)
  rw [coll_of c (tl _ _)]
  unfold coll updColl
  dsimp only
  rw [tgetD_tset_same]
  unfold brick?
  dsimp only
  generalize (coll _ c).bricks = t
  induction t with
  | nil => rfl
  | cons a t ih =>
    obtain ⟨k, v⟩ := a
    simp only [List.filter_cons]
    split
    · rename_i hk
      have ne : k ≠ b := fun e => by subst e; simp [hb] at hk
      simpa [tget, ne] using ih
    · exact ih

end Sys2Proof.Machine
end

