-- ==== Sys2Proof/WellFormed.lean ====
section
/-! DEFINITION. Which commands the surroundings of the block can send: the limits that the manual sets to what an operand carries. A command
that is not well formed describes no event of the hardware; `exec` is total all the same. -/

namespace Sys2Proof

/-- A list that names something twice. -/
def repeated {α : Type} [DecidableEq α] : List α → Bool
  | [] => false
  | x :: xs => xs.contains x || repeated xs

/-- An aligned 4- or 8-byte access of a BAR (R263), a word of configuration space (R262), or of the window of mailbox 3 over the sideband (R307). -/
def registerOk (path : RegPath) (off size : Nat) : Bool :=
  (size == 4 || size == 8) && off % size == 0 &&
    (match path with
      | .bar0 => decide (off + size ≤ 2 ^ 20)
      | .bar2 => decide (off + size ≤ 2 ^ 16)
      | .bar4 => decide (off + size ≤ 2 ^ 16)
      | .config => size == 4 && decide (off + size ≤ 0x1000)
      | .sideband => decide (off + size ≤ 0x2000))

/-- A read reply of n bytes, or of any size, or an error (R273, R284). -/
def replyOk (n : Nat) : ReadReply → Bool
  | .data bytes => bytes.length == n
  | .ur => true
  | .ca => true
  | .poison => true
  | .timeout => true

/-- A training ends with at most 16 lanes, at most 128 GT/s (R258). -/
def widthOk (width : Nat) : Bool := 1 ≤ width && width ≤ 16
def rateOk (rate : Nat) : Bool := 1 ≤ rate && rate ≤ 128

/-- An access that lies in one aperture of the 64 GB window (R265). -/
def accessOk (off : Nat) (acc : MemAccess) : Bool :=
  let n := match acc with
    | .read len => len
    | .write bytes _ => bytes.length
  decide (0 < n) && decide (off + n ≤ 2 ^ 36) && off / 2 ^ 24 == (off + n - 1) / 2 ^ 24

/-- A mismatch of an Assay: an aligned word of one of the twelve stacks, pass 1–255, MARCH element 0–5, some bit wrong (R79, R426). -/
def badWordOk (b : BadWord) : Bool :=
  decide (b.addr < 12 * 2 ^ 36) && b.addr % 8 == 0 && decide (1 ≤ b.pass) && decide (b.pass ≤ 255) && decide (b.element ≤ 5) && b.diff != 0

/-- A binding of 1 to 16 rows, none twice (R127). -/
def lanesOk (lanes : List LaneReq) : Bool := decide (0 < lanes.length) && decide (lanes.length ≤ 16) && !repeated lanes

/-- A request of at least one byte inside the stacks, its bytes as many as it says (R79, R197). -/
def reqOk (r : MemReq) : Bool :=
  decide (0 < r.len) && decide (r.addr + r.len ≤ 12 * 2 ^ 36) && (match r.write with
    | none => true
    | some bytes => bytes.length == r.len)
/-- An anvil keeps at most 256 lines outstanding (R74). -/
def requesterOk : Requester → Bool
  | .anvil _ _ i => decide (i < 256)
  | .engine _ _ _ => true
  | .west _ _ => true

/-- A line of a stack (R79). -/
def lineOk (line : Nat) : Bool := line % 64 == 0 && decide (line < 2 ^ 36)
/-- Words of a line found corrected (their number) and uncorrectable (which), 8 words to a line (R219, R220). -/
def wordsOk (fixed : Nat) (bad : List Nat) : Bool :=
  bad.all (decide <| · < 8) && !repeated bad && decide (fixed + bad.length ≤ 8)

/-- The units that a watchdog of R350 watches: the engines of a partition, and the router of the Seam. -/
def watchedUnit (unit : Nat) : Bool := decide (unit ≤ 0x54) || unit == 0x60
/-- A level over a scope that it can have (R357). -/
def levelOk : LadderLevel → Bool
  | .l0 _ => true
  | .l1 unit p => watchedUnit unit && decide (p < 12)
  | .l2 _ => true
  | .l3 => true
  | .l4 => true
/-- A region of 16 MB of a 64 GB stack (R80). -/
def scopeOk : ZeroScope → Bool
  | .stack _ => true
  | .region _ r => decide (r < 4096)
  | .saveSlot _ _ => true

/-- An I3C address to be assigned is not the broadcast address 0x7E (PRESUMED, the bus's; log 37). -/
def addrOk (a : BitVec 7) : Bool := a != 0x7E
/-- A flit of 240 body bytes that returns at most 255 credits (R327). -/
def flitOk (f : Flit) : Bool := f.body.length == 240 && decide (f.crCnt < 256)

/-- The command describes an event of the hardware. -/
def Instr.wellFormed : Instr → Bool
  | .registerWrite path off size _ => registerOk path off size
  | .entryFetch _ reply => replyOk 64 reply
  | .linkTrained width rate _ => widthOk width && rateOk rate
  | .cxlMemAccess off acc => accessOk off acc
  | .assayRun _ bad => bad.all badWordOk
  | .marginRun _ errs => errs.all (decide <| · < 2 ^ 64)
  | .hearthFault cause core => cause == .core || core == 0
  | .laneBind _ _ pattern lanes => decide (pattern < 2 ^ 16) && lanesOk lanes
  | .fetchLand _ _ i => decide (i < 256)
  | .memoryRequest who ev => requesterOk who && reqOk ev.req
  | .wcFence done => done.bad.all fun b => lineOk b.1 && decide (b.2 < 8)
  | .scrubBurst done => done.found.all fun f => lineOk f.1 && wordsOk f.2.1 f.2.2
  | .hbmReadComplete _ line fixed bad => lineOk line && wordsOk fixed bad
  | .wcbAgeFlush _ _ bad => wordsOk 0 bad
  | .scrubRead _ _ fixed bad => wordsOk fixed bad
  | .regAdapt _ obs => decide (obs.utilMilli ≤ 1000)
  | .policyConflict _ loopNo minimum => (1 ≤ loopNo && loopNo ≤ 3) && (1 ≤ minimum && minimum ≤ 3) && (minimum != 1 || loopNo == 3)
  | .engineWatchdog unit _ => watchedUnit unit
  | .killDone _ unit _ => decide (unit < 256)
  | .engineResetDone unit _ => watchedUnit unit
  | .levelOverrun level => levelOk level
  | .seamFault cause _ => cause != 0
  | .zeroiseDone scope => scopeOk scope
  | .exitDone _ failed => failed.all (decide <| · < 864) && !repeated failed
  | .setdasa addr => addrOk addr
  | .entdaa addr => addrOk addr
  | .pldmFwUpdate image => decide (image.length ≤ 4 * 2 ^ 20)
  | .flitData _ f => flitOk f
  | .flitNull _ f => flitOk f && f.body.all (· == 0)
  | .flitReplay _ f => flitOk f && (f.body.drop 2).all (· == 0)
  | .flitInit _ peer expected credits => (decide (peer < 256) && decide (expected < 256)) && (credits.length == 7 && credits.all (decide <| · < 256))
  | .queryFwd src => decide (src < 64)
  | .partialList src => decide (src < 64)
  | .insertFwdPrepare src => decide (src < 64)
  | .insertFwdCommit src => decide (src < 64)
  | .insertFwdWithdraw src => decide (src < 64)
  | .insertFwdResponse src => decide (src < 64)
  | .bulkData src => decide (src < 64)
  | .fenceNotice src => decide (src < 64)
  | .abort src => decide (src < 64)
  | .heartbeat src => decide (src < 64)
  | .routeProbe src => decide (src < 64)
  | .routeProbeReply src => decide (src < 64)
  | .probeTimeout _ peer => decide (peer < 64)
  | .samplePreload pins => pins.length == 71
  | .bypass code => decide (code.toNat > 6)
  | .sqDoorbell _ _ | .cqDoorbell _ _ | .payloadDoorbell _ _ | .evtPendClear _ _ | .evtMaskWrite _ | .msixUnmask _ | .nop _ | .fence _
  | .search _ _ | .searchHybrid _ _ | .searchExact _ _ | .insert _ | .upsert _ | .delete _ | .flush _ | .epochQuery _ | .bulkLoad _
  | .exportColl _ | .trdyTimeout _ | .stagedPayloadRead _ | .stagingReuse _ | .dmaReadComplete _ _ | .dmaTimeout _ | .completionWrite _ _
  | .ctimeExpiry _ | .hostWriteAccept | .linkRetrainTimer | .linkDown | .d3hotEntry | .d0Entry | .aspmL1Entry | .aspmL1Exit | .perstAssert
  | .perstDeassert | .cxlEnable _ _ _ | .unsupportedRequest _ | .summary _ | .identify _ | .eventLog _ | .clockCorr _ | .resultGet _
  | .ptnEnable _ | .ptnPower _ | .jobCreate _ | .jobEnd _ | .ctxCreate _ | .ctxDestroy _ | .ringCreate _ | .ringDestroy _ | .hwinSet _
  | .hdmMap _ | .mwinSet _ | .ringState _ | .journalSet _ | .collCreate _ | .collDelete _ | .collSet _ | .collStats _ | .collTrain _ _
  | .filterLoad _ | .patternLoad _ _ | .patternUnload _ | .roundLoad _ | .sharesSet _ | .regSet _ | .crucPin _ | .ctxStats _
  | .icernRouteSet _ | .resetPtn _ | .resetChip _ | .fwStageBegin _ | .fwStageData _ _ | .fwStageFinish _ | .fwStageAbort _
  | .fwActivateTrial _ | .fwActivateCommit _ | .fwActivateRevert _ | .fwActivateNextReset _ | .attest _ | .assayLog _ | .busyComplete _
  | .ticketDiscard _ | .mbxStuck _ | .summaryExpire | .hearthWake | .hearthSleep | .hearthRestartDone | .trialTimeout
  | .hearthRestartTimeout | .stepNop _ _ | .branch _ _ | .loop _ _ | .setc _ _ | .setr _ _ | .next _ _ | .wait _ _ | .signal _ _
  | .yield _ _ | .endOp _ _ | .fetchb _ _ | .fetchw _ _ | .store _ _ _ | .atomic _ _ _ | .mfence _ _ | .move _ _ _ | .tileclr _ _
  | .dot _ _ _ | .bound _ _ _ | .score _ _ _ | .bfma _ _ _ | .sgather _ _ _ | .sieve _ _ _ | .skip _ _ | .select _ _ _ | .selclr _ _
  | .emit _ _ | .yieldOverrun _ _ | .add32 _ | .add64 _ | .minu _ | .maxu _ | .mins _ | .maxs _ | .andOp _ | .orOp _ | .xorOp _ | .cas32 _
  | .cas64 _ | .bitset _ | .bitclr _ | .hinc _ | .semAcq _ | .semRel _ | .farQueueServe _
  | .stackTempSample _ _ | .hotCountHalve _ | .clipWindowClose _ _ | .batchCommit _ | .epochClose _ | .horizonAdvance _ _
  | .settlingSweep _ _ | .journalAck _ _ | .journalSpaceTimeout _ | .journalAckTimeout _ | .releasedReread _ | .releasedReadDone _ _
  | .releasedReadTimeout _ | .tampCut _ _ | .tampCopy _ _ | .tampCommit _ _ | .tampRetire _ _ | .trainChunk _ | .strataCommit _
  | .redistributeChunk _ _ | .redistributeDone _ | .looseFree _ | .assignChunk _ | .descentEnd _ _ | .listIssue _ _ _ | .pieceIssue _ _ _ _
  | .probeStop _ | .deadlineEnd _ | .refineStart _ _ _ | .hybridFusion _ _ _ | .foldMerge _ _ _ | .finalSelection _ _ | .farRerankStart _
  | .farRowArrive _ _ _ _ | .roundSlotAdvance _ | .anvilFree _ _ | .anvilTake _ _ | .preemptSaveDone _ _ | .killPreempt _ _
  | .residentIdleTimeout _ _ | .residentBlockedTimeout _ _ | .swapWaitTimeout _ _ | .swapStart _ | .swapPhaseEnd _ | .semOverhold _ _
  | .senior _ | .commandWatchdog _ | .fenceStart _ | .drainWindowEnd _ | .partitionResetDone _ | .chipResetDone | .ctrl _ _
  | .windowExpire _ | .warmIdleTimeout _ | .bankedIdleTimeout _ | .bankedEntryDone _ | .exitDemand _ | .pllLockLoss _ | .powerTick10us _
  | .powerTick100us | .powerTick1ms | .dieTempSample _ _ | .dieDepthTick _ | .thermtrip _ | .coolantSample _ _ | .leak | .supply
  | .auxSupplyUp | .auxSupplyLoss | .pwrEnAssert | .pwrEnDeassert | .pwrgd | .bootComplete | .getstatus | .pldmPlimWrite _
  | .pldmSensorRead _ | .spdmMessage _ _ _ | .portTrainStepDone _ _ | .portStepTimeout _ | .portRestart _ | .heartbeatTimer _
  | .heartbeatLoss _ | .alignmentLoss _ | .routeProbeTimer _ | .rootRouteLoss _ | .extest | .idcode | .extestPulse
  | .extestTrain | .clamp | .highz | .trstAssert | .cxlCacheSnoop _ | .flitCrcError _ _ | .hotSwapOvercurrent => true

end Sys2Proof
end

