-- ==== Sys2Proof/Tests/Slice0.lean ====
section
/-! SUPPORT. Tests: the well-formedness checks refuse what they should, the manual's worked examples, and for every statement with hypotheses a
state and operands that meet them. -/

namespace Sys2Proof.Machine

set_option Elab.async false

/-- A host side whose link is up. -/
def up1 : HostIf := { link := { up := true, width := 16, rate := 3 } }
/-- The same, with one ring that is enabled. -/
def servingHost : HostIf := { up1 with rings := [(7, { st := .running })] }

/-- A request with a tag. -/
def reqOf (op : Nat) (bs : List Byte) : Req := { opcode := op, len := bs.length, tag := 7, bytes := bs }
/-- The Hearth runs, and mailbox 1 holds the request in STATE 2. -/
def mbxState (op : Nat) (bs : List Byte) : State :=
  { State.reset with hearthUp := true, hearth := { awake := true, mbx := [(1, { state := 2, req := some (reqOf op bs) })] } }
/-- The same with job 2 on partition 3, context 5 of it, a collection 6, and the link up. -/
def jobState (op : Nat) (bs : List Byte) : State :=
  { mbxState op bs with host := up1, jobs := [(2, { ptns := [3], modules := 1, mask := 1, joined := true })], ctxs := [(5, { job := 2, home := 3 })]
                        ptns := [(3, { job := some 2, power := .forge, service := .inService })], colls := [(6, { job := 2, state := .untrained, d := 32 })] }
/-- An entry whose listed bytes hold the listed values. -/
def ent (fs : List (Nat × Nat)) : BitVec 512 := BitVec.ofNat 512 (fs.foldl (fun n f => n + f.2 * 2 ^ (8 * f.1)) 0)
/-- A running ring 7 of context 5, with an entry at its head, over a job on partition 3 and its trained collection 6. -/
def admState (e : BitVec 512) : State :=
  { State.reset with host := { up1 with rings := [(7, { st := .running, ctx := 5, fetched := [e] })] }, hearthUp := true
                     jobs := [(2, { ptns := [3], modules := 1, mask := 1, joined := true })]
                     ctxs := [(5, { job := 2, home := 3, hwins := [(1, { base := 0, len := 2 ^ 40, r := true, w := true })] })]
                     ptns := [(3, { job := some 2, power := .forge })], colls := [(6, { job := 2, state := .trained, d := 32 })] }
/-- A search of ten results for one query row. -/
def searchEnt : BitVec 512 := ent [(0, 0x10), (2, 5), (4, 9), (8, 6), (16, 10), (18, 1), (22, 0xFF), (24, 1), (32, 0x1000), (40, 0x2000)]
def payCmd (st : Stage) (g : Option Granules) : Cmd := { ring := 7, ctx := 1, entry := 0, opcode := 0x20, coll := 0, tag := 5, stage := st, granules := g }
/-- A state with one command, in a stage, with granules. -/
def payState (st : Stage) (g : Option Granules) : State :=
  { State.reset with host := { up1 with granules := g.toList }, cmds := [(4, payCmd st g)] }
def payState1 (st : Stage) (g : Option Granules) : State :=
  { State.reset with host := up1, cmds := [(4, { payCmd st g with entry := BitVec.ofNat 512 (2 ^ 128) })] }
def payState2 (st : Stage) (g : Option Granules) : State :=
  { State.reset with host := up1, cmds := [(4, { payCmd st g with entry := BitVec.ofNat 512 (2 ^ 192) })] }
/-- One bf16 query row. -/
def nanEnt : BitVec 512 := ent [(18, 1)]
def hdm0 : Nat := regionBase 0 3832
def trainState : State := { State.reset with pins := { State.reset.pins with pwrgd := true, linkTraining := true, perst := false } }
def linkCmd : Cmd := { ring := 7, ctx := 1, entry := 0, opcode := 0x20, stage := .running }
def hdmHost : HostIf := { up1 with link := { up1.link with memEn := true, hdm := true } }
/-- CXL.mem is usable and no region is mapped. -/
def hdmState : State := { State.reset with host := hdmHost }
/-- CXL.mem is usable, partition 0 is in FORGE with its tokens, and the Seam has tokens. -/
def hdmOk : State := { hdmState with ptns := [(0, { job := some 0, service := .inService, power := .forge, reg := { rcvTok := 10000 } })], seamTok := (100000, 100000) }
def hdmA : Nat := regionBase 0 3832
def busyCmd : Cmd := { ring := 7, ctx := 5, job := 2, entry := 0, opcode := 0x20, stage := .final }
def jobEndOf : State := updJob 2 (fun x => { x with ending := true }) ((jobCtxs (jobState 0x0111 [2]) 2).foldl (fun s c => killContext c 0 none s) (jobState 0x0111 [2]))
def jobBusyOf : State := { jobState 0x0111 [2] with cmds := [(4, busyCmd)] }
def jobBusy : State := updJob 2 (fun x => { x with ending := true }) ((jobCtxs jobBusyOf 2).foldl (fun s c => killContext c 0 none s) jobBusyOf)
def busyRing : Cmd := { ring := 7, ctx := 5, job := 2, entry := 0, opcode := 0x20, stage := .running }
def collBusy : Cmd := { ring := 7, ctx := 5, job := 2, entry := 0, opcode := 0x20, coll := 6, stage := .running }
def patImg : List Byte := [0, 1, 1, 0] ++ List.replicate 28 0 ++ List.replicate 15 0 ++ [9]
def patOf : Pattern := { header := patImg.take 32, steps := imageSteps patImg, ver := 1 }
def patBefore : State := { jobState 0x0301 [5, 0, 0, 0, 0, 0, 0, 0, 0, 0, 1, 0, 0, 0, 0, 0, 48, 0, 0, 0] with ctxs := [(5, { job := 2, home := 3, hwins := [(0, { base := 0, len := 2 ^ 32, r := true, w := true })] })] }
def patAfter : State := updCtx 5 (fun x => { x with patterns := tset x.patterns (field patImg 0 2) patOf }) (updHearth (fun h => { h with patSeq := h.patSeq + 1 }) (retirePattern 5 (field patImg 0 2) patBefore))
def postBefore : State := jobState 0x0201 [7, 0, 2, 0, 32, 0, 0, 4, 0, 0, 0, 0, 0, 0, 0, 0, 0, 0, 0, 0, 0, 0, 0, 0, 0, 0, 0, 0, 0, 0, 0, 0, 0, 0, 0, 0, 0, 0, 0, 0, 0, 0, 0, 0, 0, 0, 0, 0, 0, 0, 0, 0, 0, 0, 0, 0, 0, 0, 0, 0, 0, 0, 0, 0, 0, 0, 0, 0, 0, 0, 0, 0, 0, 0, 0, 0, 0, 0, 0, 0, 0, 0, 0, 0, 0, 0, 0, 0, 0, 0, 0, 0, 0, 0, 0, 0, 0, 0, 0, 0, 0, 0, 0, 0, 0, 0, 0, 0, 0, 0, 0, 0, 0, 0, 0, 0, 0, 0, 0, 0, 0, 0, 0, 0, 0, 0, 0, 0]
def postReq : Req := reqOf 0x0201 [7, 0, 2, 0, 32, 0, 0, 4, 0, 0, 0, 0, 0, 0, 0, 0, 0, 0, 0, 0, 0, 0, 0, 0, 0, 0, 0, 0, 0, 0, 0, 0, 0, 0, 0, 0, 0, 0, 0, 0, 0, 0, 0, 0, 0, 0, 0, 0, 0, 0, 0, 0, 0, 0, 0, 0, 0, 0, 0, 0, 0, 0, 0, 0, 0, 0, 0, 0, 0, 0, 0, 0, 0, 0, 0, 0, 0, 0, 0, 0, 0, 0, 0, 0, 0, 0, 0, 0, 0, 0, 0, 0, 0, 0, 0, 0, 0, 0, 0, 0, 0, 0, 0, 0, 0, 0, 0, 0, 0, 0, 0, 0, 0, 0, 0, 0, 0, 0, 0, 0, 0, 0, 0, 0, 0, 0, 0, 0]
def postState : State := ((jobPtns postBefore 2).foldl (fun o p => o.bind (takePostings 7 p)) (some (demandAll (jobPtns postBefore 2) { postBefore with colls := tset postBefore.colls 7 { reqColl postReq with ptns := (jobPtns postBefore 2).map fun p => (p, {}) } }))).getD State.reset
def routeBusy : Cmd := { ring := 7, ctx := 5, job := 2, entry := 0, opcode := 0x20, stage := .running }
def ROUTE : List Byte := [0, 0, 255, 255, 255, 255, 0, 0, 0, 0, 0, 0, 0, 0, 0, 0, 0, 0, 0, 0, 0, 0, 0, 0, 0, 0, 0, 0, 0, 0, 0, 0, 0, 0, 0, 0, 0, 0, 0, 0, 0, 0, 0, 0, 0, 0, 0, 0, 0, 0, 0, 0, 0, 0, 0, 0, 0, 0, 0, 0, 0, 0, 0, 0, 0, 0, 0, 0, 0, 0, 0, 0, 0, 0, 0, 0, 0, 0, 0, 0, 0, 0, 0, 0, 0, 0, 0, 0, 0, 0, 0, 0, 0, 0, 0, 0, 0, 0, 0, 0, 0, 0, 0, 0, 0, 0, 0, 0, 0, 0, 0, 0, 0, 0, 0, 0, 0, 0, 0, 0, 0, 0, 0, 0, 0, 0, 0, 0, 0, 0, 0, 0, 0, 0, 0, 0]
def routeSetOf : State := updAon (fun a => { a with modid := qf (reqOf 0x0501 ROUTE) 0 1, enable := BitVec.ofNat 4 (qf (reqOf 0x0501 ROUTE) 1 1), peers := (upto 4).map fun n => qf (reqOf 0x0501 ROUTE) (2 + n) 1, dateline := BitVec.ofNat 4 (qf (reqOf 0x0501 ROUTE) 6 1), routes := (upto 64).map fun i => BitVec.ofNat 16 (qf (reqOf 0x0501 ROUTE) (8 + 2 * i) 2) }) (updIcern (fun i => { i with hold := true }) (jobState 0x0501 ROUTE))
def tk (w : Work) : Ticket := { mbx := 1, req := reqOf 1 [], work := w }
def mkTk : Ticket := { mbx := 1, req := reqOf 0x0110 [0, 0, 1, 0, 1, 0, 0, 0, 1, 0, 0, 0, 0, 0, 0, 0], work := .jobCreate 0 [] false }
/-- Anvil 5 of partition 3 at a step of a custom pattern. -/
def anvilState (w : W128) (a : Anvil) : State :=
  { State.reset with ptns := [(3, { power := .forge, service := .inService, pmem := [(400, w)]
                                    anvils := [(5, { a with st := .running, pattern := 0x100, base := 384, step := 400 })] })] }
/-- A window of context 5 with every right. -/
def allWin : MWin := { ptn := 3, region := 0, regions := 4, r := true, w := true, a := true }
/-- Anvil 5 at a step, bound for a command that was admitted with window 1. -/
def winState (w : W128) (a : Anvil) : State :=
  { anvilState w { a with lanes := [{ cmd := 1, row := 0 }] } with
    cmds := [(1, { ring := 7, ctx := 5, entry := 0, opcode := 0x10, stage := .running, rows := [{}], mwins := [(1, allWin)] })] }
/-- 250 lines are outstanding. -/
def manyOut : Anvil := { outst := [{ dest := 0x8000, addr := 0, lines := 250 }] }
def nextDesc : Desc := { brick := 0, kind := 0, coll := 6, lanes := [{ cmd := 1, row := 0 }], pattern := 0x100 }
def workChunk : Chunk := { kind := 3, ctx := 5, bricks := [nextDesc] }
/-- Anvil 5 with a running command's lane, a descriptor waiting in its row. -/
def nextState : State :=
  let s := anvilState (stepWord 5 0 0 0 0 0xF800 0 0) { lanes := [{ cmd := 1, row := 0 }] }
  { s with ptns := tmap (fun _ x => { x with rowQ := [(0, nextDesc)] }) s.ptns, cmds := [(1, { ring := 7, ctx := 5, entry := 0, opcode := 0x10, stage := .running, rows := [{}] })] }
def boundCmd : Cmd := { ring := 7, ctx := 5, entry := 0x10, opcode := 0x10, coll := 6, stage := .running, rows := [{}] }
/-- A running search of a resident context, anvil 5 idle. -/
def bindState : State :=
  { State.reset with cmds := [(1, boundCmd)], colls := [(6, { job := 2, state := .trained, d := 32 })]
                     ptns := [(3, { power := .forge, service := .inService, resident := [(5, {})], anvils := [(5, {})] })] }
/-- An atomic of context 5 on the stack of partition 3, from its anvil 2. -/
def atomEl (code v : Nat) : AtomReq := { code := code, addr := 3 * 2 ^ 36 + 4096, operand := BitVec.ofNat 64 v, ctx := 5, ret := some (3, 2, 64), from_ := some (3, 2) }
/-- It stands at the front of the home bank. -/
def atomState (r : AtomReq) : State :=
  { State.reset with ctxs := [(5, { job := 2, home := 3 })]
                     ptns := [(3, { job := some 2, power := .forge, service := .inService, atomQ := [r], anvils := [(2, { outst := [{ isAtom := true, addr := r.addr, dest := 64 }] })] })] }
/-- An atomic of anvil 5 of partition 4, whose issue bucket and the home's receive bucket hold so much. -/
def farAtom : AtomReq := { atomEl 1 1 with from_ := some (4, 5) }
def farAtomState (iss rcv : Nat) : State :=
  let s := atomState farAtom
  { s with ptns := (tmap (fun _ x => { x with reg := { rcvTok := rcv } }) s.ptns) ++ [(4, { reg := { issTok := iss } })] }
/-- An atomic behind an unserved fetch of its line. -/
def lateAtomState : State :=
  let s := atomState (atomEl 1 1)
  { s with ptns := tmap (fun _ x => { x with anvils := tmap (fun _ a => { a with outst := { dest := 0, addr := (atomEl 1 1).addr, lines := 1 } :: a.outst }) x.anvils }) s.ptns }
/-- The same with a value at the target and a holder table. -/
def semState (code v : Nat) (h : Tbl (List Nat)) : State :=
  { atomState (atomEl code 1) with hbm := cellsFrom (3 * 2 ^ 36 + 4096) (leBytes 8 v)
                                   ptns := tmap (fun _ x => { x with holders := h }) (atomState (atomEl code 1)).ptns }
def memState : State :=
  { State.reset with ctxs := [(5, { job := 2, home := 3 })], ptns := [(3, { job := some 2, power := .forge, service := .inService })] }
def storeState : State :=
  { memState with ptns := [(3, { job := some 2, power := .forge, service := .inService, anvils := [(2, { chunk := some { kind := 3, ctx := 5 }, outst := [{ isStore := true, addr := 3 * 2 ^ 36, bytes := List.replicate 64 9 }] })] })] }
/-- An engine's write and read of partition 3, near and from partition 4, and the same as its home sees them. -/
def wrReq : MemReq := { addr := 3 * 2 ^ 36 + 4096, len := 2, write := some [1, 2] }
def wrHome : HomeReq := { issuer := some 3, ctx := some 5, addr := 3 * 2 ^ 36 + 4096, len := 2, write := some [1, 2] }
def rdReq : MemReq := { addr := 3 * 2 ^ 36 + 4096, len := 64, write := none }
def rdHome (p : Nat) : HomeReq := { issuer := some p, ctx := some 5, addr := 3 * 2 ^ 36 + 4096, len := 64, write := none }
/-- A bulk anvil's read and an interactive anvil's read of one channel. -/
def fetchState : State :=
  { storeState with ptns := tmap (fun _ x => { x with anvils := [(2, { chunk := some { kind := 3, ctx := 5 }, outst := [{ addr := 3 * 2 ^ 36 }] })] }) storeState.ptns }
def yieldState : State :=
  { fetchState with ptns := tmap (fun _ x => { x with anvils := x.anvils ++ [(7, { outst := [{ addr := 3 * 2 ^ 36 }] })] }) fetchState.ptns }
def anvHome : HomeReq := { issuer := some 3, ctx := some 5, addr := 3 * 2 ^ 36, len := 64, write := none }
def noReq : MemReq := { addr := 0, len := 0, write := none }
def farRd : FarReq := { issuer := some 4, who := .engine 4 5 none, req := { addr := 3 * 2 ^ 36, len := 64, write := none } }
def farHome : HomeReq := { issuer := some 4, ctx := some 5, addr := 3 * 2 ^ 36, len := 64, write := none }
/-- Partition 4 and the home hold so many tokens. -/
def tokState (iss rcv : Nat) : State :=
  { memState with ptns := tset (tmap (fun _ x => { x with reg := { rcvTok := rcv } }) memState.ptns) 4 { reg := { issTok := iss } }, seamTok := (6400, 6400) }
def farState : State :=
  { memState with ptns := [(3, { job := some 2, power := .forge, service := .inService, farQ := [{ issuer := some 4, who := .engine 4 5 none, req := { addr := 3 * 2 ^ 36, len := 64, write := none } }] })] }
def ingJournal : Journal := { base := 0x10000, size := 4096, tail := 192, recs := [{ cmd := 1, off := 64, len := 128, st := .writing }] }
def ingCtx : Ctx := { job := 2, home := 3, journal := some ingJournal }
def ingState : State :=
  { State.reset with host := up1, jobs := [(2, { ptns := [3], modules := 1, mask := 1, joined := true })], ctxs := [(5, ingCtx)]
                     ptns := [(3, { job := some 2, power := .forge, service := .inService, resident := [(5, {})] })]
                     colls := [(6, { job := 2, state := .untrained, d := 32, latest := 4, horizon := 1, openCommits := 1, queue := [1] })]
                     cmds := [(1, { ring := 7, ctx := 5, job := 2, home := 3, entry := 0, opcode := 0x20, coll := 6, stage := .queued })] }
def refusedCmd : Cmd := { ring := 7, ctx := 5, job := 2, home := 3, entry := 0x21, opcode := 0x21, coll := 6, stage := .queued, recs := [{ key := 0, parts := 6 }] }
def ackCmd : Cmd := { ring := 7, ctx := 5, job := 2, home := 3, entry := 0, opcode := 0x20, coll := 6, stage := .committed, epoch := 4 }
/-- An anvil of partition 3 runs a chunk. -/
def runs (q : Chunk) (s : State) : State := { s with ptns := tmap (fun _ x => { x with anvils := [(2, { st := .running, chunk := some q })] }) s.ptns }
def sweepState : State := runs { kind := 7, ctx := 5, bricks := [{ brick := 3 * 2 ^ 36 + 4096, kind := 2, coll := 6 }] } { ingState with
  colls := [(6, { job := 2, state := .untrained, bricks := [(3 * 2 ^ 36 + 4096, { kind := 2, list := 0 })] })] }
def spaceCmd : Cmd := { ring := 7, ctx := 5, job := 2, home := 3, entry := 0, opcode := 0x20, coll := 6, stage := .journalWait }
def spaceState : State := { ingState with cmds := [(1, spaceCmd)] }
def cacheOn (s : State) : State := { s with host := { s.host with link := { s.host.link with cacheEn := true } } }
def rereadJournal : Journal := { base := 0x10000, size := 4096, tail := 192, written := 192, rereading := true }
def rereadState : State := { spaceState with ctxs := [(5, { ingCtx with journal := some rereadJournal })] }
def tampSt (l : Leaf) : State :=
  { State.reset with host := up1, jobs := [(2, { ptns := [3], modules := 1, mask := 1, joined := true })]
                     ptns := [(3, { job := some 2, power := .forge, service := .inService, resident := [(5, {})] })]
                     colls := [(6, { job := 2, state := .trained, d := 32, latest := 4, horizon := 4, leaves := [(0, l)], tampSed := 0 })] }
def tcut : Leaf := { owner := 3 }
def tcut2 : State := ((freshBrick true 6 3 1 0 5 (tampSt tcut)).map (·.2)).getD State.reset
def copied0 : Leaf := { owner := 3, state := .copy, pre := [] }
def tret : Leaf := { owner := 3, state := .retire, retiring := some { run := [3 * 2 ^ 36 + 4096], chain := [], epoch := 3 } }
def untr (st : CollState) : State := { tampSt {} with colls := [(6, { job := 2, state := st, d := 32, latest := 4, horizon := 4, trainLevels := 1, trainLeaves := 1 })] }
def asgCmd : Cmd := { ring := 7, ctx := 5, job := 2, home := 3, entry := 0x20, opcode := 0x20, coll := 6, stage := .assigning }
def asgState : State := runs { kind := 0, ctx := 5, cmd := some 1 } { untr .untrained with cmds := [(1, asgCmd)] }
def looseBrick : Brick := { emptyBrick with kind := 2, settled := true, slots := { occ := true, key := 1, enc := { codes := List.replicate 32 0 } } :: List.replicate 63 {} }
def redColl : Coll := { job := 2, state := .redistributing, d := 32, latest := 4, horizon := 4, strata := [[{ codes := List.replicate 32 0 }]], leaves := [(0, { owner := 3 })], ptns := [(3, { loose := [3 * 2 ^ 36 + 4096] })], bricks := [(3 * 2 ^ 36 + 4096, looseBrick)] }
def redState : State := runs { kind := 2, ctx := 5, start := [{ brick := 3 * 2 ^ 36 + 4096, kind := 2, coll := 6 }] } { untr .redistributing with colls := [(6, redColl)] }
def redAfter : State := ((liveSlots redState 6 ((liveLoose redState 6 3).take 256)).foldl (fun o q => o.bind (moveSlot 6 (openEpoch (coll redState 6)) q)) (some (freeAnvil 3 2 redState))).getD State.reset
def redNone : State := { redState with colls := [(6, { redColl with strata := [[]] })] }
def asgBulk : Cmd := { asgCmd with entry := 0x40, opcode := 0x40 }
def trainChunkSt : State := runs { kind := 6, ctx := 5, start := [{ brick := 0, kind := 2, coll := 6 }] } (untr .training)
/-- Training with given centroids, none of them sent yet. -/
def givenState : State := { untr .training with colls := [(6, { job := 2, state := .training, d := 32, trainSource := 2, trainLevels := 1 })] }
def asgFullCmd : Cmd := { ring := 7, ctx := 5, job := 2, home := 3, entry := 0x20, opcode := 0x20, coll := 6, stage := .assigning, recs := [{ key := 1 }] }
/-- The partition that the record of the assignment goes to no longer takes work. -/
def asgFull : State := { asgState with cmds := [(1, asgFullCmd)], ptns := tmap (fun _ x => { x with fence := some { step := 5, code := 9 } }) asgState.ptns }
/-- A tamping COPY chunk of list 0 of collection 6 runs. -/
def copyRuns (l : Leaf) : State := runs { kind := 1, ctx := 5, start := [{ brick := 3 * 2 ^ 36 + 4096, kind := 0, coll := 6 }] } (tampSt l)
def over0 : Leaf := { owner := 3, state := .copy, copies := (List.range 13).map (fun i => 3 * 2 ^ 36 + i * 2 ^ 20) }
def commit0 : Leaf := { owner := 3, state := .commit, run := [], copies := [] }
def srchCmd (r : QRow) : Cmd := { ring := 7, ctx := 5, job := 2, home := 3, entry := 0x10 + 2 ^ 128, opcode := 0x10, coll := 6, stage := .running, rows := [r] }
def srchSt (x : Cmd) : State :=
  { State.reset with host := up1, jobs := [(2, { ptns := [3], modules := 1, mask := 1, joined := true })], ctxs := [(5, { job := 2, home := 3 })]
                     ptns := [(3, { job := some 2, power := .forge, service := .inService, resident := [(5, {})] })]
                     colls := [(6, { job := 2, state := .untrained, d := 32, latest := 4, horizon := 4 })], cmds := [(1, x)] }
def listRow : QRow := { descended := true, probes := [(3, { queue := [(0, 0x3F800000)], looseIssued := true })] }
def cutRow : QRow := { descended := true, probes := [(3, { queue := [(0, 0xFF800000)], looseIssued := true })] }
def looseRow : QRow := { descended := true, probes := [(3, {})] }
def quietRow : QRow := { descended := true, probes := [(3, { looseIssued := true, ended := true })] }
def doneRow : QRow := { descended := true, probes := [(3, { looseIssued := true, ended := true, refineStarted := true, fused := true, sent := true })], nodes := [{ node := .device, stage := .refine, inputs := [(0, [{ key := 1, score := 0x3F800000 }])] }] }
def lastRow : QRow := { descended := true, probes := [(3, { looseIssued := true, ended := true, refineStarted := true, fused := true, sent := true })], nodes := [{ node := .device, stage := .refine, out := [{ key := 1, score := 0x3F800000 }] }] }
def hybCmd (r : QRow) : Cmd := { srchCmd r with opcode := 0x11 }
def termRow : QRow := { descended := true, terms := [(9, 0x3F80)], probes := [(3, { looseIssued := true })] }
def termSt (u : Nat) : State := { srchSt (hybCmd termRow) with colls := [(6, { job := 2, state := .untrained, d := 32, latest := 4, horizon := 4, postings := [(9, [{ addr := regionBase 3 3560, entries := [{ brick := 3 * 2 ^ 36 + 4096, slot := 0, u := u, sigma := 0x3F800000, epoch := 1, attr := 0 }] }])] })] }
def farCmd (r : QRow) : Cmd := { srchCmd r with far := some (0x10000, 0, 8, 64) }
def farRow : QRow := { lastRow with far := some [{ key := 1, score := 0x3F800000 }], farLeft := [0] }
/-- The partition's list for the term is full of scores that its bound cannot beat. -/
def termRowLow : QRow := { termRow with nodes := [{ node := .partition 3, stage := .sparse 9, out := List.replicate 128 { key := 1, score := 0x40000000 } }] }
def termLow : State := { termSt 1 with cmds := [(1, hybCmd termRowLow)] }
def stopCmd : Cmd := { srchCmd looseRow with entry := 0x10 + 2 ^ 128 + 2 ^ 10 }
def stopSt : State := srchSt stopCmd
def stopCmd0 : Cmd := { srchCmd quietRow with entry := 0x10 + 2 ^ 128 + 2 ^ 10 }
def stopped0 : State := srchSt stopCmd0
def bulkRow (r : QRow) : Cmd := { srchCmd r with entry := 0x10 + 2 ^ 128 + 2 ^ 28 }
/-- A search in a partition past step 4 of its fence. -/
def fencedSrch : State := { srchSt (srchCmd {}) with ptns := tmap (fun _ x => { x with fence := some { step := 5, code := 9 } }) (srchSt (srchCmd {})).ptns, colls := [(6, { job := 2, state := .untrained, d := 32, latest := 4, horizon := 4, ptns := [(3, { loose := [3 * 2 ^ 36 + 4096] })], bricks := [(3 * 2 ^ 36 + 4096, { kind := 2, list := 0 })] })] }
def bulkTerm : Cmd := { hybCmd termRow with entry := 0x10 + 2 ^ 128 + 2 ^ 28 }
/-- Every row queue of the partition holds as many probe descriptors as it may. -/
def fullRows (s : State) : State := { s with ptns := tmap (fun _ x => { x with
  rowQ := (List.range 24).flatMap fun i => List.replicate 224 (i, { brick := 0, kind := 0, coll := 6 }) }) s.ptns }
def ptnRow : QRow := { descended := true, nodes := [{ node := .partition 3, stage := .coarse, inputs := [(0, [{ key := 1, score := 0x3F800000 }])] }] }
/-- A row fold, and the root fold of a spanning search, with a list each. -/
def rowFold : QRow := { descended := true, nodes := [{ node := .row 3 0, stage := .coarse, inputs := [(0, [{ key := 1, score := 0x3F800000 }])] }] }
def rootNode : Node := { node := .root, stage := .refine, inputs := [(1, [{ key := 1, score := 0x3F800000 }])] }
def rootRow : QRow := { doneRow with nodes := [rootNode] }
def partAnswer : Cmd := { srchCmd lastRow with origin := some (1, 4) }
def hybRow : QRow := { descended := true, probes := [(3, { looseIssued := true, ended := true, refineStarted := true })] }
def gPtn : Ptn := { job := some 2, power := .forge, service := .inService, resident := [(5, {})] }
def gSt (x : Ptn) : State :=
  { State.reset with host := up1, jobs := [(2, { ptns := [3], modules := 1, mask := 1, joined := true })], ctxs := [(5, { job := 2, home := 3 }), (6, { job := 2, home := 3 })]
                     ptns := [(3, x)], colls := [(6, { job := 2, state := .untrained, d := 32, latest := 4, horizon := 4 })]
                     cmds := [(1, { ring := 7, ctx := 5, job := 2, home := 3, entry := 0x10 + 2 ^ 128, opcode := 0x10, coll := 6, stage := .running, rows := [{ descended := true }] }),
                              (2, { ring := 7, ctx := 6, job := 2, home := 3, entry := 0x10 + 2 ^ 128, opcode := 0x10, coll := 6, stage := .running, rows := [{ descended := true }] })] }
def gDesc : Desc := { brick := 3 * 2 ^ 36 + 4096, kind := 0, coll := 6, lanes := [{ cmd := 1, row := 0 }] }
def gSlots (n : Nat) : Round := { table := [{ ctx := 5, cls := 0, dur := 1000 }, { ctx := 6, cls := 1, dur := 1000 }], slot := n, running := true }
def gRun (c : Nat) : Anvil := { st := .running, pattern := 1, lanes := [{ cmd := c, row := 0 }] }
def gChunk : Chunk := { kind := 3, ctx := 6, cmd := some 2, bricks := [{ gDesc with lanes := [{ cmd := 2, row := 0 }] }] }
def seniorSt : State := { gSt gPtn with host := { servingHost with rings := [(7, { st := .running, ctx := 5, fetched := [0x10 + 2 ^ 128], reserved := 16 })] }, cmds := [] }
def takeSt : State := gSt { gPtn with round := gSlots 0, rowQ := [(0, gDesc)], anvils := (0, gRun 2) :: (List.range 108).map (fun i => (i, { usable := false })), resident := [(5, {}), (6, {})] }
def killSt : State := { gSt { gPtn with anvils := [(0, { gRun 1 with preempt := true })] } with jobs := [(2, { ptns := [3], modules := 1, mask := 1, joined := true, kill := true })] }
/-- A saved record waits; a victim has no save slot left. -/
def savedSt : State := gSt { gPtn with saves := [(0, { ctx := 5, anvils := [(0, { gRun 1 with st := .yielded })] })] }
def noSlotSt : State := { takeSt with ptns := tmap (fun _ x => { x with saves := (List.range 12).map fun i => (i, { ctx := 100 + i }) }) takeSt.ptns }
def phase3 : State := gSt { gPtn with swap := some { phase := 3, incoming := 6 } }
/-- A context whose pattern is longer than pattern memory. -/
def bigPattern : State := { phase3 with ctxs := [(6, { job := 2, home := 3, patterns := [(0x100, { steps := List.replicate 641 0, ver := 1 })] })] }
def queuedCmd : Cmd := { ring := 7, ctx := 5, job := 2, home := 3, entry := 0x20, opcode := 0x20, coll := 6, stage := .queued }
def swapSt : State := gSt { gPtn with resident := [], waiting := [5], rowQ := [(0, gDesc)] }
def victimSt : State := gSt { gPtn with resident := (5, {}) :: (List.range 7).map (fun i => (10 + i, {})), idleList := [11], waiting := [6], rowQ := [(0, { gDesc with lanes := [{ cmd := 2, row := 0 }] })] }
def hPtn : Ptn := { job := some 2, power := .forge, service := .inService, resident := [(5, {})] }
def hCmd : Cmd := { ring := 7, ctx := 5, job := 2, home := 3, entry := 0x10 + 2 ^ 128, opcode := 0x10, coll := 6, stage := .running, rows := [{ descended := true }] }
def hSt (x : Ptn) (ls : List Level) : State :=
  { State.reset with host := up1, jobs := [(2, { ptns := [3], modules := 1, mask := 1, joined := true })], ctxs := [(5, { job := 2, home := 3 })]
                     ptns := [(3, x)], colls := [(6, { job := 2, state := .untrained, d := 32, latest := 4, horizon := 4 })], cmds := [(1, hCmd)], levels := ls }
def hFence (n : Nat) : FenceRec := { step := n, code := 7 }
def resetSt (n : Nat) : State := { hSt { hPtn with fence := some (hFence 6), service := .resetting } [{ level := .l2 3 }] with aon := { Aon.shipped with ptnWin := [(3, { isOpen := true, count := n })] } }
def resetPt (x : Ptn) : State := { resetSt 1 with ptns := [(3, { x with fence := some { hFence 6 with memory := true }, service := .resetting })] }
def qPtn (w : Power) : Ptn := { job := some 2, power := w, service := .inService }
def qSt (x : Ptn) : State := { State.reset with host := up1, ptns := [(3, x)], colls := [(6, { job := 2, state := .untrained, d := 32, latest := 4, ptns := [(3, {})] })] }
def rPins : Pins := { pwrgd := true }
def rSt (x : PowerT) : State := { State.reset with host := up1, pins := rPins, power := x }
def oSlot : FwSlot := { valid := true, version := 2, sv := 3 }
def oSt (a : Aon) (x : Pins) : State := { State.reset with aon := a, pins := x }
def oAon : Aon := { slotA := oSlot, rollback := 1, enable := 2 }
def yLane : List Bool := (List.range 71).map fun i => i == 3
def ySt (j : Jtag) : State := { State.reset with jtag := j, aon := { Aon.shipped with enable := 2 }, icern := { ports := [(1, {})] } }
def zP (x : Port) : State := { State.reset with aon := { Aon.shipped with enable := 2, peers := [0xFF, 3, 0xFF, 0xFF], modid := 9 }, icern := { ports := [(1, x)] } }
def zF : Flit := { vc := 2, cls := false, first := true, last := true, seq := 0, ackValid := false, ack := 0, crVc := 0, crCls := false, crCnt := 0, body := [8, 0, 3, 9, 0, 0, 0, 0, 0, 2, 15, 0, 0, 0, 0, 0] ++ List.replicate 224 0 }
def zUp : Port := { st := .up, peer := 3 }
def zT : Flit := { zF with body := [8, 0, 3, 4, 0, 0, 0, 0, 0, 2, 15, 0, 0, 0, 0, 0] ++ List.replicate 224 0 }
def zRoute (x : Port) : State := { zP x with aon := { (zP x).aon with routes := [0, 0, 0, 0, 0x8001] } }
def vJob (root : Nat) : Job := { ptns := [3], modules := 2, root := root, mask := 0x201, joined := true }
def vSt (root : Nat) (ms : List Msg) (cs : Tbl Cmd) : State :=
  { State.reset with jobs := [(2, vJob root)], cmds := cs, nextCmd := 8, icern := { inbox := ms }, ptns := [(3, { job := some 2, power := .forge, service := .inService })] }
def vMsg (type : Nat) (resp : Bool) (cmd : Nat) (bs : List Byte) : Msg := { type := type, resp := resp, src := 9, dst := 0, cmd := cmd, run := 1, job := 2, body := bs }
def vCmd (op : Nat) (st : Stage) : Cmd := { ring := 7, ctx := 5, job := 2, home := 3, entry := 0x10, opcode := op, coll := 6, stage := st, run := 1 }
def vBody (k nq : Nat) : List Byte :=
  [0x10, 0, 0, 0, 0, 0, 0, 0, 6, 0, 0, 0, 0, 0, 0, 0] ++ leBytes 2 k ++ leBytes 2 nq ++ [0, 0, 0xFF, 0] ++ List.replicate 40 0 ++ leBytes 4 0 ++ leBytes 4 (64 * nq) ++ List.replicate (8 + 64 * nq) 0
def vQ (k nq : Nat) : Msg := vMsg 1 false 4 (vBody k nq)
def vQSt (m : Msg) (held : List Hold) : State := { vSt 9 [m] [] with colls := [(6, { job := 2, state := .untrained, d := 32, latest := 4 })], host := { pools := held } }
def vEntry (m : Msg) : BitVec 512 := localDeadline (BitVec.ofNat 512 (leNat (m.body.take 64))) (field m.body 64 4)
def vPart (op : Nat) (st : Stage) : Cmd := { vCmd op st with origin := some (9, 4) }
def plainRing (e : BitVec 512) (reserved : Nat) : State :=
  { State.reset with host := { up1 with rings := [(7, { st := .running, ctx := 5, fetched := [e], reserved := reserved })] }, ctxs := [(5, { job := 2, home := 3 })],
                     jobs := [(2, { ptns := [3] })], ptns := [(3, { job := some 2, power := .forge })], hearthUp := true }
/-- A far search of 256 rows of a job on two modules: more device fold than there is. -/
def hugeEnt : BitVec 512 := ent [(0, 0x10), (1, 8), (2, 5), (4, 9), (8, 6), (16, 1024), (18, 256), (22, 0xFF), (24, 1), (28, 32), (40, 0x2000), (48, 0x100)]
def hugeState : State :=
  { admState hugeEnt with jobs := [(2, { ptns := [3], modules := 2, mask := 3, joined := true })], host := { (admState hugeEnt).host with link := { up1.link with cacheEn := true } } }
def farBytes : List Byte := leBytes 8 0 ++ leBytes 8 0 ++ leBytes 4 1 ++ leBytes 4 64 ++ leBytes 8 0
def fullAnvil : Anvil := { sel := [[{ key := 1, score := 0x40000000 }, { key := 2, score := 0x40400000 }]], cap := [2] }
/-- The home partition of the command is in service. -/
def payHome (s : State) : State := { s with ptns := [(0, { job := some 0, service := .inService, power := .forge })] }
/-- A descriptor waits for a place in its row queue. -/
def noPlaces (s : State) : State := { s with ptns := tmap (fun _ x => { x with rowQ := [(65, { brick := 0, kind := 0, coll := 6 })] }) s.ptns }
def raiseState (sv : Nat) : State := { State.reset with hearthUp := true, hearth := { awake := true, tickets := [(9, tk (.raise sv))] } }
/-- An EMIT step of anvil 5, its lane's fold empty. -/
def emitState : State := { nextState with ptns := tmap (fun _ x => { x with pmem := [(400, stepWord 52 0 0 0 0 0 0 1)] }) nextState.ptns }
def farWaitState : State := { memState with ptns := tmap (fun _ x => { x with atomQ := [{ farAtom with issued := true, waits := true }], reg := { rcvTok := 10000 } }) memState.ptns }
def looseOnPoison : State := { trainChunkSt with colls := tmap (fun _ x => { x with ptns := [(3, { loose := [3 * 2 ^ 36 + 4096] })] }) trainChunkSt.colls, poison := [3 * 2 ^ 36 + 4096] }
def bulkPoison : Cmd := { asgCmd with entry := BitVec.ofNat 512 (0x40 + 24 * 2 ^ 24 * 2 ^ 256 + 2 ^ 320), opcode := 0x40 }
def bulkOnPoison : State := { asgState with cmds := [(1, bulkPoison)], poison := [regionBase 3 3832] }
def sparseFold : QRow := { hybRow with terms := [(9, 0x3F80)], nodes := [{ node := .partition 3, stage := .sparse 9, out := [{ key := 1, score := 0x3F800000, brick := 3 * 2 ^ 36 + 4096 }] }] }
def farQueued : State := { srchSt (srchCmd rootRow) with ptns := tmap (fun _ x => { x with rowQ := [(0, farDesc (srchCmd rootRow) 1 0)] }) (srchSt (srchCmd rootRow)).ptns }
def watchedSearch : State := hSt { hPtn with anvils := [(1, gRun 1)] } []
def vHeld (m : Msg) : State := { vQSt m [] with icern := { inbox := [m], hold := true } }
def vHolds (m : Msg) : List Hold := queryHolds (vQSt m []) 2 4098 (vEntry m) 0
def vRows (m : Msg) : List Byte := (m.body.drop 80).take (field m.body 68 4)
def vBound (s : State) (m : Msg) : State := addCmd (boundPart m 4098 (vEntry m) (vRows m) [] (vHolds m) (spend 1 (takeMsg m s))) (spend 1 (takeMsg m s))
def l3Last : Level := { level := .l3, last := true }
def lastSt : State := { resetSt 3 with levels := [{ level := .l2 3, last := true }] }
/-- The list of a search with one row and one place. -/
def soundSearch : Cmd := { vCmd 0x10 .running with entry := BitVec.ofNat 512 (0x10 + 2 ^ 128 + 2 ^ 144) }
def soundList : Msg := vMsg 2 true 4 ([0, 0] ++ leBytes 2 (sNq soundSearch.entry) ++ List.replicate 16 0 ++ leBytes 2 (listLen soundSearch.entry) ++ List.replicate 10 0 ++ List.replicate (16 * listLen soundSearch.entry * sNq soundSearch.entry) 0xFF)
def watchedFar : State := hSt { hPtn with anvils := [(1, { gRun 1 with outst := [{ dest := 0, addr := 3 * 2 ^ 36, lines := 1 }] })] } []

/-! ### The checks of well-formedness refuse -/

theorem test_wf_register_misaligned : Instr.wellFormed (.registerWrite .bar0 0x2_0002 4 0) = false := by decide
theorem test_wf_register_outside : Instr.wellFormed (.registerWrite .sideband 0x2000 8 0) = false := by decide
theorem test_wf_entry_short : Instr.wellFormed (.entryFetch 0 (.data [1])) = false := by decide
theorem test_wf_link_width : Instr.wellFormed (.linkTrained 17 128 true) = false := by decide
theorem test_wf_link_rate : Instr.wellFormed (.linkTrained 16 0 true) = false := by decide
theorem test_wf_access_two_apertures : Instr.wellFormed (.cxlMemAccess 0xFF_FFFF (.read 2)) = false := by decide
theorem test_wf_assay_word : Instr.wellFormed (.assayRun 1 [{ addr := 8, pass := 1, element := 0, diff := 0 }]) = false := by decide
theorem test_wf_margin_errs : Instr.wellFormed (.marginRun 1 [2 ^ 64]) = false := by decide
theorem test_wf_hearth_core : Instr.wellFormed (.hearthFault .sram 1) = false := by decide
theorem test_wf_lanes_twice : Instr.wellFormed (.laneBind 0 0 1 [{ cmd := 1, row := 0 }, { cmd := 1, row := 0 }]) = false := by decide
theorem test_wf_pattern_wide : Instr.wellFormed (.laneBind 0 0 0x1_0000 [{ cmd := 1, row := 0 }]) = false := by decide
theorem test_wf_land_index : Instr.wellFormed (.fetchLand 0 0 256) = false := by decide
theorem test_wf_requester : Instr.wellFormed (.memoryRequest (.anvil 0 0 256) ⟨{ addr := 0, len := 64, write := none }, .clean⟩) = false := by decide
theorem test_wf_request_bytes : Instr.wellFormed (.memoryRequest (.west none none) ⟨{ addr := 0, len := 2, write := some [1] }, .clean⟩) = false := by decide
theorem test_wf_read_line : Instr.wellFormed (.hbmReadComplete 0 32 0 []) = false := by decide
theorem test_wf_read_words : Instr.wellFormed (.hbmReadComplete 0 64 8 [0]) = false := by decide
theorem test_wf_flush_words : Instr.wellFormed (.wcbAgeFlush 0 0 [3, 3]) = false := by decide
theorem test_wf_scrub_words : Instr.wellFormed (.scrubRead 0 0 0 [8]) = false := by decide
theorem test_wf_adapt_util : Instr.wellFormed (.regAdapt 0 { utilMilli := 1001, nearWaiting := 0 }) = false := by decide
theorem test_wf_conflict_loop : Instr.wellFormed (.policyConflict 0 4 1) = false := by decide
theorem test_wf_watchdog_unit : Instr.wellFormed (.engineWatchdog 0x55 0) = false := by decide
theorem test_wf_kill_unit : Instr.wellFormed (.killDone 5 256 0) = false := by decide
theorem test_wf_reset_unit : Instr.wellFormed (.engineResetDone 0x61 0) = false := by decide
theorem test_wf_level_unit : Instr.wellFormed (.levelOverrun (.l1 0 12)) = false := by decide
theorem test_wf_seam_cause : Instr.wellFormed (.seamFault 0 false) = false := by decide
theorem test_wf_zero_region : Instr.wellFormed (.zeroiseDone (.region 0 4096)) = false := by decide
theorem test_wf_exit_anvil : Instr.wellFormed (.exitDone 0 [864]) = false := by decide
theorem test_wf_setdasa_broadcast : Instr.wellFormed (.setdasa 0x7E) = false := by decide
theorem test_wf_entdaa_broadcast : Instr.wellFormed (.entdaa 0x7E) = false := by decide
theorem test_wf_flit_body : Instr.wellFormed (.flitData 0 { zF with body := List.replicate 239 0 }) = false := by decide +kernel
theorem test_wf_null_flit : Instr.wellFormed (.flitNull 0 { zF with body := 1 :: List.replicate 239 0 }) = false := by decide +kernel
theorem test_wf_flit_credits : Instr.wellFormed (.flitData 0 { zF with body := List.replicate 240 0, crCnt := 256 }) = false := by decide +kernel
theorem test_wf_init_credits : Instr.wellFormed (.flitInit 0 3 3 [1, 1, 1]) = false := by decide
theorem test_wf_probe_peer : Instr.wellFormed (.probeTimeout 2 64) = false := by decide
theorem test_wf_sources :
    [Instr.queryFwd 64, .partialList 64, .insertFwdPrepare 64, .insertFwdCommit 64, .insertFwdWithdraw 64, .insertFwdResponse 64, .bulkData 64, .fenceNotice 64,
      .abort 64, .heartbeat 64, .routeProbe 64, .routeProbeReply 64].all (fun i => !i.wellFormed) = true := by decide
theorem test_wf_cells : Instr.wellFormed (.samplePreload [true]) = false := by decide
theorem test_wf_bypass_code : Instr.wellFormed (.bypass 6) = false := by decide
theorem test_wf_image : Instr.wellFormed (.pldmFwUpdate (List.replicate (4 * 2 ^ 20 + 1) 0)) = false := by
  simp only [Instr.wellFormed, List.length_replicate]; decide

/-! ### Worked examples of the manual -/

/-- The example after R195: device address 0x9_1_0002_E400. -/
theorem test_example_address :
    ptnOfAddr 0x910002E400 = 9 ∧ channelOf 0x910002E400 = 28 ∧ pseudoOf 0x910002E400 = 1 ∧ brickRow 0x910002E400 = 21 := by decide
/-- The example after R126: 64,000 leaf lists. -/
theorem test_example_probe : probeCount 0x8000A3D7 64000 = 160 := by decide
/-- The example after R49: the stored codes of a group with s = 115 · 2^-12. -/
theorem test_example_codes :
    zeroPoint 0xBDF5C28F (groupScale 115 (-12)) = 4 ∧
    ([0x3E99999A, 0xBDF5C28F, 0x3D4CCCCD, 0x3E4CCCCD, 0xBD8F5C29, 0x3E0F5C29, 0, 0x3E851EB8].map fun y => coarseCode y (groupScale 115 (-12)) 4) =
      [15, 0, 6, 11, 2, 9, 4, 13] := by decide +kernel
/-- The same example: the refine codes. -/
theorem test_example_refine :
    ([(0x3E99999A, 15), (0xBDF5C28F, 0), (0x3D4CCCCD, 6), (0x3E4CCCCD, 11), (0xBD8F5C29, 2), (0x3E0F5C29, 9), (0, 4), (0x3E851EB8, 13)].map
      fun y => refineCode y.1 (groupScale 115 (-12)) 4 y.2) = [-5, -4, -4, 2, -8, 0, 0, 4] := by decide +kernel
/-- The same example: the group sums of the query codes. -/
theorem test_example_sums :
    let q := (List.replicate 8 [(62 : Int), -26, 102, 17, -92, 47, 5, -33]).flatten
    sumS q = 656 ∧ sumA q = 3072 ∧ sumPos q = 1864 := by decide
/-- The example after R226: a spurious sample is removed by the median, and the next enters step 1. -/
theorem test_example_stack_samples :
    let x : StackT := { samples := [180, 180, 182, 182], valid := 9 }
    let a := (sampleStack (some 184) x).1
    let b := (sampleStack (some 242) a).1
    (a.filtered = some 182 ∧ b.filtered = some 182 ∧ (sampleStack (some 186) b).2 = some 184) ∧
      (nextThrottle 0 182 = 0 ∧ nextThrottle 0 184 = 1 ∧ nextThrottle 1 192 = 2 ∧ nextThrottle 2 186 = 2 ∧ nextThrottle 2 184 = 1) := by decide
/-- The example after R429: 37 bit errors in a map byte. -/
theorem test_example_map_byte : mapByte 37 = 6 := by decide

/-- The same with a sparse tier. -/
def sparseState (e : BitVec 512) : State := { admState e with colls := [(6, { job := 2, state := .trained, d := 32, opts := 4 })] }
/-- The same with a bulk aperture of the context. -/
def bulkState (e : BitVec 512) : State := { admState e with host := { (admState e).host with apertures := [(0x60, { ctx := 5, ptn := 3, region := 0 })] } }
theorem test_admission_met_nop : ∃ (s u : State) (r : Fin 1024) (e : BitVec 512) (rest : List (BitVec 512)), Admits s r 0x00 (plainCheck s r e) e rest u :=
  ⟨admState (ent [(2, 5)]), (reserve 7 (ent [(2, 5)]) (admState (ent [(2, 5)]))).1, 7, ent [(2, 5)], [], by constructor <;> decide +kernel⟩
theorem test_admission_met_fence : ∃ (s u : State) (r : Fin 1024) (e : BitVec 512) (rest : List (BitVec 512)), Admits s r 0x01 (plainCheck s r e) e rest u :=
  ⟨admState (ent [(0, 1), (2, 5)]), (reserve 7 (ent [(0, 1), (2, 5)]) (admState (ent [(0, 1), (2, 5)]))).1, 7, ent [(0, 1), (2, 5)], [], by constructor <;> decide +kernel⟩
theorem test_admission_met_search : ∃ (s u : State) (r : Fin 1024) (far : ReadReply) (e : BitVec 512) (rest : List (BitVec 512)), Admits s r 0x10 (searchCheck s r far e) e rest u :=
  ⟨admState (searchEnt), (reserve 7 (searchEnt) (admState (searchEnt))).1, 7, .timeout, searchEnt, [], by constructor <;> decide +kernel⟩
theorem test_admission_met_search_hybrid : ∃ (s u : State) (r : Fin 1024) (far : ReadReply) (e : BitVec 512) (rest : List (BitVec 512)), Admits s r 0x11 (searchCheck s r far e) e rest u :=
  ⟨sparseState (ent [(0, 0x11), (2, 5), (8, 6), (16, 10), (18, 1), (22, 0xFF), (24, 1), (32, 0x1000), (40, 0x2000), (56, 0x3F800000)]), (reserve 7 (ent [(0, 0x11), (2, 5), (8, 6), (16, 10), (18, 1), (22, 0xFF), (24, 1), (32, 0x1000), (40, 0x2000), (56, 0x3F800000)]) (sparseState (ent [(0, 0x11), (2, 5), (8, 6), (16, 10), (18, 1), (22, 0xFF), (24, 1), (32, 0x1000), (40, 0x2000), (56, 0x3F800000)]))).1, 7, .timeout, ent [(0, 0x11), (2, 5), (8, 6), (16, 10), (18, 1), (22, 0xFF), (24, 1), (32, 0x1000), (40, 0x2000), (56, 0x3F800000)], [], by constructor <;> decide +kernel⟩
/-- An exact search; the lane size of its pattern is open (log 5). -/
def exactEnt : BitVec 512 := ent [(0, 0x12), (2, 5), (8, 6), (16, 10), (18, 1), (22, 0xFF), (32, 0x1000), (40, 0x2000)]
def exactHolds (n : Nat) : List Hold := searchHolds [3] exactEnt n 0 1 10
theorem exactHolds_size {n : Nat} : exactHolds n = exactHolds 0 ∨ exactHolds n = exactHolds 1 ∨ exactHolds n = exactHolds 2 := by
  have : laneSize n = laneSize 0 ∨ laneSize n = laneSize 1 ∨ laneSize n = laneSize 2 := by unfold laneSize; split <;> simp_all; split <;> simp_all
  unfold exactHolds searchHolds
  rcases this with h | h | h <;> simp [h]
theorem test_admission_met_search_exact : ∃ (s u : State) (r : Fin 1024) (far : ReadReply) (e : BitVec 512) (rest : List (BitVec 512)), Admits s r 0x12 (searchCheck s r far e) e rest u := by
  have hold : ∀ s : State, s.jobs = (admState 0).jobs → s.ctxs = (admState 0).ctxs → (ring s 7).ctx = 5 →
      ∃ n, entryHolds s 7 exactEnt = exactHolds n := fun s h1 h2 h3 =>
    ⟨phSelconf (patternHeader s 5 (searchPattern exactEnt)), by
      unfold entryHolds ctxHolds jobPtns ctxJob job? ctx? exactHolds
      rw [h1, h2, h3]
      rfl⟩
  have same : ∀ s : State, ctxHolds s (ring s 7).ctx exactEnt 0 = entryHolds s 7 exactEnt := fun _ => rfl
  obtain ⟨n, h⟩ := hold (admState exactEnt) rfl rfl rfl
  have t : takeSlots 7 (entrySlots exactEnt) (admState exactEnt) = (setRing 7 { ring (admState exactEnt) 7 with reserved := 1, heldSlots := 1 } (admState exactEnt), true) := by decide +kernel
  obtain ⟨k, g⟩ := hold (setRing 7 { ring (admState exactEnt) 7 with reserved := 1, heldSlots := 1 } (admState exactEnt)) rfl rfl rfl
  have p : ∀ l, (l = exactHolds 0 ∨ l = exactHolds 1 ∨ l = exactHolds 2) →
      (takePools 7 l (setRing 7 { ring (admState exactEnt) 7 with reserved := 1, heldSlots := 1 } (admState exactEnt))).2 = true := by
    rintro _ (rfl | rfl | rfl) <;> decide +kernel
  have f : ∀ l, (l = exactHolds 0 ∨ l = exactHolds 1 ∨ l = exactHolds 2) → (l.any fun h => decide (h.amount > poolSize h.pool)) = false := by
    rintro _ (rfl | rfl | rfl) <;> decide +kernel
  have q := p _ (g ▸ exactHolds_size)
  have w : reserve 7 exactEnt (admState exactEnt) = takePools 7 (entryHolds (setRing 7 { ring (admState exactEnt) 7 with reserved := 1, heldSlots := 1 } (admState exactEnt)) 7 exactEnt)
      (setRing 7 { ring (admState exactEnt) 7 with reserved := 1, heldSlots := 1 } (admState exactEnt)) := by
    unfold reserve
    rw [t]
    rfl
  refine ⟨admState exactEnt, (reserve 7 exactEnt (admState exactEnt)).1, 7, .timeout, exactEnt, [], by decide +kernel, by decide +kernel, by decide +kernel, by decide +kernel, ?_, ?_⟩
  · unfold neverFits
    rw [show ctxHolds (admState exactEnt) (ring (admState exactEnt) (7 : Fin 1024).val).ctx exactEnt 0 = _ from (same _).trans h, f _ exactHolds_size]
    decide +kernel
  · refine Prod.ext rfl ?_
    show (reserve 7 exactEnt (admState exactEnt)).2 = true
    rw [w]; exact q
theorem test_admission_met_insert : ∃ (s u : State) (r : Fin 1024) (e : BitVec 512) (rest : List (BitVec 512)), Admits s r 0x20 (ingestCheck s r e) e rest u :=
  ⟨admState (ent [(0, 0x20), (2, 5), (8, 6), (16, 1), (24, 96), (32, 0x1000)]), (reserve 7 (ent [(0, 0x20), (2, 5), (8, 6), (16, 1), (24, 96), (32, 0x1000)]) (admState (ent [(0, 0x20), (2, 5), (8, 6), (16, 1), (24, 96), (32, 0x1000)]))).1, 7, ent [(0, 0x20), (2, 5), (8, 6), (16, 1), (24, 96), (32, 0x1000)], [], by constructor <;> decide +kernel⟩
theorem test_admission_met_upsert : ∃ (s u : State) (r : Fin 1024) (e : BitVec 512) (rest : List (BitVec 512)), Admits s r 0x21 (ingestCheck s r e) e rest u :=
  ⟨admState (ent [(0, 0x21), (2, 5), (8, 6), (16, 1), (21, 1), (24, 96), (32, 0x1000)]), (reserve 7 (ent [(0, 0x21), (2, 5), (8, 6), (16, 1), (21, 1), (24, 96), (32, 0x1000)]) (admState (ent [(0, 0x21), (2, 5), (8, 6), (16, 1), (21, 1), (24, 96), (32, 0x1000)]))).1, 7, ent [(0, 0x21), (2, 5), (8, 6), (16, 1), (21, 1), (24, 96), (32, 0x1000)], [], by constructor <;> decide +kernel⟩
theorem test_admission_met_delete : ∃ (s u : State) (r : Fin 1024) (e : BitVec 512) (rest : List (BitVec 512)), Admits s r 0x22 (ingestCheck s r e) e rest u :=
  ⟨admState (ent [(0, 0x22), (2, 5), (8, 6), (16, 1), (24, 8), (32, 0x1000)]), (reserve 7 (ent [(0, 0x22), (2, 5), (8, 6), (16, 1), (24, 8), (32, 0x1000)]) (admState (ent [(0, 0x22), (2, 5), (8, 6), (16, 1), (24, 8), (32, 0x1000)]))).1, 7, ent [(0, 0x22), (2, 5), (8, 6), (16, 1), (24, 8), (32, 0x1000)], [], by constructor <;> decide +kernel⟩
theorem test_admission_met_epoch_query : ∃ (s u : State) (r : Fin 1024) (e : BitVec 512) (rest : List (BitVec 512)), Admits s r 0x30 (queryCheck s r e) e rest u :=
  ⟨admState (ent [(0, 0x30), (2, 5), (8, 6)]), (reserve 7 (ent [(0, 0x30), (2, 5), (8, 6)]) (admState (ent [(0, 0x30), (2, 5), (8, 6)]))).1, 7, ent [(0, 0x30), (2, 5), (8, 6)], [], by constructor <;> decide +kernel⟩
theorem test_admission_met_bulk_load : ∃ (s u : State) (r : Fin 1024) (e : BitVec 512) (rest : List (BitVec 512)), Admits s r 0x40 (bulkCheck s r e) e rest u :=
  ⟨bulkState (ent [(0, 0x40), (2, 5), (8, 6), (16, 100), (32, 0x60000000), (40, 0x10000)]), (reserve 7 (ent [(0, 0x40), (2, 5), (8, 6), (16, 100), (32, 0x60000000), (40, 0x10000)]) (bulkState (ent [(0, 0x40), (2, 5), (8, 6), (16, 100), (32, 0x60000000), (40, 0x10000)]))).1, 7, ent [(0, 0x40), (2, 5), (8, 6), (16, 100), (32, 0x60000000), (40, 0x10000)], [], by constructor <;> decide +kernel⟩
theorem test_admission_met_export_coll : ∃ (s u : State) (r : Fin 1024) (e : BitVec 512) (rest : List (BitVec 512)), Admits s r 0x41 (exportCheck s r e) e rest u :=
  ⟨admState (ent [(0, 0x41), (2, 5), (8, 6), (16, 64), (20, 2), (32, 0x4000), (40, 0x10000)]), (reserve 7 (ent [(0, 0x41), (2, 5), (8, 6), (16, 64), (20, 2), (32, 0x4000), (40, 0x10000)]) (admState (ent [(0, 0x41), (2, 5), (8, 6), (16, 64), (20, 2), (32, 0x4000), (40, 0x10000)]))).1, 7, ent [(0, 0x41), (2, 5), (8, 6), (16, 64), (20, 2), (32, 0x4000), (40, 0x10000)], [], by constructor <;> decide +kernel⟩
theorem test_admission_met_flush : ∃ (s u : State) (r : Fin 1024) (e : BitVec 512) (rest : List (BitVec 512)), Admits s r 0x28 (flushCheck s r e) e rest u :=
  ⟨admState (ent [(0, 0x28), (2, 5), (8, 6)]), (reserve 7 (ent [(0, 0x28), (2, 5), (8, 6)]) (admState (ent [(0, 0x28), (2, 5), (8, 6)]))).1, 7, ent [(0, 0x28), (2, 5), (8, 6)], [], by constructor <;> decide +kernel⟩
/-- A command of ring 7 that waits for its payload doorbell. -/
def waitCmd : Cmd := { newCmd (admState 0) 7 (ent [(0, 0x20), (1, 8), (4, 9)]) with stage := .awaitPayload }
set_option maxRecDepth 20000 in
theorem test_doorbells_met :
    (∃ (s : State) (r : Fin 1024) (v : W64), (ringExists s r = true) ∧ (v.toNat % 65536 < (ring s r).size)) ∧
    (∃ (s : State) (r : Fin 1024) (v : W64), (ringExists s r = false ∨ (ring s r).size ≤ v.toNat % 65536)) ∧
    (∃ (s : State) (r : Fin 1024) (v : W64), (ringExists s r = true) ∧ (v.toNat % 65536 < (ring s r).size) ∧ ((v.toNat % 65536 + (ring s r).size - (ring s r).cqHead) % (ring s r).size ≤ ((ring s r).cqTail + (ring s r).size - (ring s r).cqHead) % (ring s r).size)) ∧
    (∃ (s : State) (r : Fin 1024) (v : W64), (ringExists s r = false ∨ (ring s r).size ≤ v.toNat % 65536 ∨ ((ring s r).cqTail + (ring s r).size - (ring s r).cqHead) % (ring s r).size < (v.toNat % 65536 + (ring s r).size - (ring s r).cqHead) % (ring s r).size)) ∧
    (∃ (s : State) (r : Fin 1024) (v : W64) (c : Nat) (x : Cmd), (waitingTag s r (v.setWidth 32) = some c) ∧ (cmd? s c = some x)) ∧
    (∃ (s : State) (r : Fin 1024) (v : W64), (waitingTag s r (v.setWidth 32) = none)) :=
  ⟨⟨admState 0, 7, 3, by decide +kernel⟩,
   ⟨admState 0, 7, 16, by decide +kernel⟩,
   ⟨{ State.reset with host := { rings := [(7, { cqTail := 4, cqHead := 15 })] } }, 7, 3, by decide +kernel⟩,
   ⟨{ State.reset with host := { rings := [(7, { cqTail := 4, cqHead := 15 })] } }, 7, 5, by decide +kernel⟩,
   ⟨{ admState 0 with cmds := [(4, waitCmd)] }, 7, 9, 4, waitCmd, by decide +kernel⟩,
   ⟨admState 0, 7, 9, by decide +kernel⟩⟩
set_option maxRecDepth 20000 in
theorem test_events_met :
    (∃ (s : State) (v : Nat), ((vec s v).masked = true)) ∧
    (∃ (s : State) (v : Nat) (w : HostWrite), ((vec s v).masked = false) ∧ (s.host.link.up = true) ∧ (s.host.link.d3hot = false) ∧ (w = { kind := .msix v, addr := (vec s v).addr, bytes := leBytes 4 (vec s v).data.toNat })) ∧
    (∃ (s : State) (v : W64), (∀ b, b < 16 → bit s.host.evtPend.toNat b = true → bit s.host.evtMask.toNat b = true → bit v.toNat b = true)) ∧
    (∃ (s : State) (v : W64) (b : Nat), (b < 16) ∧ (bit s.host.evtPend.toNat b = true) ∧ (bit s.host.evtMask.toNat b = true) ∧ (bit v.toNat b = false)) ∧
    (∃ (s : State) (v : Fin 2048), ((vec s v).pba = false)) ∧
    (∃ (s : State) (v : Fin 2048), ((vec s v).pba = true) ∧ (s.host.link.up = true) ∧ (s.host.link.d3hot = false)) :=
  ⟨⟨State.reset, 2047, by decide +kernel⟩,
   ⟨{ State.reset with host := { up1 with vecs := [(7, { masked := false })] } }, 7, _, rfl, rfl, rfl, rfl⟩,
   ⟨{ State.reset with host := { evtPend := 2 } }, 2, by decide +kernel⟩,
   ⟨{ State.reset with host := { evtPend := 0x8000 } }, 0x7FFF, 15, by decide +kernel⟩,
   ⟨State.reset, 2047, by decide +kernel⟩,
   ⟨{ State.reset with host := { up1 with vecs := [(0, { pba := true })] } }, 0, by decide +kernel⟩⟩
set_option maxRecDepth 20000 in
theorem test_entry_fetch_met :
    (∃ (s : State) (r : Fin 1024), (ringExists s r = true) ∧ ((ring s r).st = .running) ∧ ((ring s r).stopping = false) ∧ (linkServes s = true) ∧ ((ring s r).sqHead ≠ (ring s r).sqTail) ∧ ((ring s r).fetched.length < 32)) ∧
    (∃ (s : State) (r : Fin 1024) (reply : ReadReply) (k : Nat), (ringExists s r = true) ∧ ((ring s r).st = .running) ∧ ((ring s r).stopping = false) ∧ (linkServes s = true) ∧ ((ring s r).sqHead ≠ (ring s r).sqTail) ∧ ((ring s r).fetched.length < 32) ∧ (reply = .ur ∧ k = 1 ∨ reply = .ca ∧ k = 2 ∨ reply = .poison ∧ k = 3 ∨ reply = .timeout ∧ k = 4)) :=
  ⟨⟨{ admState 0 with host := { up1 with rings := [(7, { st := .running, sqHead := 15, sqTail := 2, fetched := List.replicate 31 0 })] } }, 7, by decide +kernel⟩,
   ⟨{ admState 0 with host := { up1 with rings := [(7, { st := .running, sqHead := 15, sqTail := 2, fetched := List.replicate 31 0 })] } }, 7, .timeout, 4, by decide +kernel⟩⟩
set_option maxRecDepth 20000 in
theorem test_register_writes_met :
    (∃ (s u : State), (u = answer .written (updLink (fun l => { l with aspm := .l0 }) s))) ∧
    (∃ (s u : State) (v : W64), (u = answer .written (updLink (fun l => { l with aspm := .l0 }) s)) ∧ (1 ≤ v.toNat % 1024) ∧ (v.toNat % 1024 ≤ 1000)) ∧
    (∃ (s u : State) (v : W64), (u = answer .written (updLink (fun l => { l with aspm := .l0 }) s)) ∧ (bit v.toNat 21 = true)) ∧
    (∃ (s : State) (m : Fin 3) (v : W64), (bit v.toNat 0 = true) ∧ ((mbx s m).state = 0 ∨ (mbx s m).state = 3)) ∧
    (∃ (s : State) (v : W64), (bit v.toNat 0 = true) ∧ ((mbx s 3).state = 1 ∨ (mbx s 3).state = 2)) ∧
    (∃ (s u : State) (v : W64), (u = answer .written (updLink (fun l => { l with aspm := .l0 }) s)) ∧ (bit v.toNat 0 = true)) ∧
    (∃ (s u : State) (off size : Nat), (u = answer .unsupported (updLink (fun l => { l with aspm := .l0 }) s)) ∧ ((size ≠ 4 ∧ size ≠ 8) ∨ off % size ≠ 0)) :=
  ⟨⟨State.reset, _, rfl⟩,
   ⟨State.reset, _, 1000, rfl, by decide, by decide⟩,
   ⟨State.reset, _, 0x200000, rfl, by decide⟩,
   ⟨State.reset, 2, 1, by decide +kernel⟩,
   ⟨{ State.reset with hearth := { mbx := [(3, { state := 2 })] } }, 1, by decide +kernel⟩,
   ⟨State.reset, _, 1, rfl, by decide⟩,
   ⟨State.reset, _, 2, 4, rfl, by decide⟩⟩

theorem test_frames_met : ∃ (i : Instr) (p : Part), p ∉ mayChange i := ⟨.nop 3, .hbm, by decide⟩

set_option maxRecDepth 20000 in
theorem test_step_keeps_inv_met :
    (∃ (s : State), (s.inv = true)) :=
  ⟨{ State.reset with pending := [.nop 3], hbm := [⟨5, 7⟩], jtag := { instr := 3, functional := false, boundary := List.replicate 71 true } }, by decide +kernel⟩

set_option maxRecDepth 20000 in
theorem test_memory_writes_met :
    (∃ (s : State) (a : Nat) (bs : List Byte) (j : Nat), (a + bs.length ≤ 2 ^ 40) ∧ (Memory.wf s.hbm = true) ∧ (j < 2 ^ 40)) ∧
    (∃ (s : State) (a n j : Nat), (a % 64 = 0) ∧ (n % 64 = 0) ∧ (j < 2 ^ 40)) ∧
    (∃ (s : State) (a n w : Nat), (w ∈ (zeroRange a n s).poison)) :=
  ⟨⟨{ State.reset with hbm := [⟨5, 7⟩] }, 63, [1, 2], 64, by decide +kernel⟩,
   ⟨State.reset, 64, 64, 127, by decide +kernel⟩,
   ⟨{ State.reset with poison := [64, 128] }, 64, 64, 128, by decide +kernel⟩⟩

set_option maxRecDepth 20000 in
theorem test_payload_reads_met_1 :
    (∃ (s : State) (k : DoorbellLimit) (c : Nat) (x : Cmd), (k.cmd = c) ∧ (cmd? s c = some x) ∧ (x.stage = .awaitPayload) ∧ (mustCommit x = false)) ∧
    (∃ (s : State) (c : Nat) (x : Cmd) (rs : List Rec), (cmd? s c = some x) ∧ (x.stage = .reading) ∧ (x.granules.isSome = true) ∧ (homeReady s x = true) ∧ (stagedPoison s x = false) ∧ (isSearch x.opcode = false) ∧ (readIngest (coll s x.coll) x.entry (stagedBytes s x) = .ok rs) ∧ (peersOf s x.job = [])) ∧
    (∃ (s : State) (c : Nat) (x : Cmd), (cmd? s c = some x) ∧ (x.stage = .reading) ∧ (x.granules.isSome = true) ∧ (homeReady s x = true) ∧ (stagedPoison s x = true) ∧ (mustCommit x = false)) ∧
    (∃ (s : State) (c : Nat) (x : Cmd) (rows : List (List F32 × List (Nat × Bf16))), (cmd? s c = some x) ∧ (x.stage = .reading) ∧ (x.granules.isSome = true) ∧ (homeReady s x = true) ∧ (stagedPoison s x = false) ∧ (isSearch x.opcode = true) ∧ (x.opcode ≠ 0x12) ∧ (searchRows (fun a n => x.origin.isSome || rangeIn x.hwins a n true false) (coll s x.coll) x.entry (stagedBytes s x) = .ok rows) ∧ (sparseRoom (stagedMoved s x) c x rows = true) ∧ (peersOf s x.job = [])) ∧
    (∃ (s : State) (c : Nat) (x : Cmd) (bs : List Byte) (rows : List (List F32 × List (Nat × Bf16))), (s.host.link.up = true) ∧ (cmd? s c = some x) ∧ (x.stage = .reading) ∧ (x.granules = none) ∧ (x.origin = none) ∧ (homeReady s x = true) ∧ (isSearch x.opcode = true) ∧ (x.opcode ≠ 0x12) ∧ (searchRows (fun a n => x.origin.isSome || rangeIn x.hwins a n true false) (coll s x.coll) x.entry bs = .ok rows) ∧ (sparseRoom s c x rows = true) ∧ (peersOf s x.job = [])) ∧
    (∃ (s : State) (c : Nat) (x : Cmd) (bs : List Byte) (rows : List (List F32 × List (Nat × Bf16))), (s.host.link.up = true) ∧ (cmd? s c = some x) ∧ (x.stage = .reading) ∧ (x.granules = none) ∧ (x.origin = none) ∧ (homeReady s x = true) ∧ (x.opcode = 0x12) ∧ (x.stopped = false) ∧ (searchRows (fun a n => x.origin.isSome || rangeIn x.hwins a n true false) (coll s x.coll) x.entry bs = .ok rows) ∧ (sparseRoom s c x rows = true) ∧ (peersOf s x.job = []) ∧ (∀ p ∈ jobPtns s x.job, pastDrain (ptn s p) = false)) ∧
    (∃ (s : State) (c : Nat) (x : Cmd) (bs : List Byte) (st : Status), (s.host.link.up = true) ∧ (cmd? s c = some x) ∧ (x.stage = .reading) ∧ (x.granules = none) ∧ (x.origin = none) ∧ (homeReady s x = true) ∧ (isSearch x.opcode = true) ∧ (searchRows (fun a n => x.origin.isSome || rangeIn x.hwins a n true false) (coll s x.coll) x.entry bs = .error st)) ∧
    (∃ (s : State) (c : Nat) (x : Cmd) (g : Granules), (cmd? s c = some x) ∧ (x.stage = .done) ∧ (x.granules = some g)) :=
  ⟨⟨payState .awaitPayload none, ⟨4, false⟩, 4, payCmd .awaitPayload none, by decide +kernel⟩,
   ⟨payHome (payState .reading (some ⟨0, 0, 1⟩)), 4, payCmd .reading (some ⟨0, 0, 1⟩), [], by decide +kernel⟩,
   ⟨{ payHome (payState2 .reading (some ⟨0, 0, 1⟩)) with poison := [hdm0] }, 4, { payCmd .reading (some ⟨0, 0, 1⟩) with entry := BitVec.ofNat 512 (2 ^ 192) }, by decide +kernel⟩,
   ⟨{ payHome (payState .reading (some ⟨0, 0, 1⟩)) with cmds := [(4, { payCmd .reading (some ⟨0, 0, 1⟩) with opcode := 0x10 })] }, 4, { payCmd .reading (some ⟨0, 0, 1⟩) with opcode := 0x10 }, [], by decide +kernel⟩,
   ⟨{ payHome (payState .reading none) with cmds := [(4, { payCmd .reading none with opcode := 0x10 })] }, 4, { payCmd .reading none with opcode := 0x10 }, [], [], by decide +kernel⟩,
   ⟨{ payHome (payState .reading none) with cmds := [(4, { payCmd .reading none with opcode := 0x12 })] }, 4, { payCmd .reading none with opcode := 0x12 }, [], [], by decide +kernel⟩,
   ⟨{ payHome (payState .reading none) with cmds := [(4, { payCmd .reading none with opcode := 0x11, entry := nanEnt })], colls := [(0, { job := 2, state := .trained, d := 2 })] }, 4, { payCmd .reading none with opcode := 0x11, entry := nanEnt }, [0, 0, 0xC0, 0x7F], .range, by decide +kernel⟩,
   ⟨payState .done (some ⟨0, 0, 1⟩), 4, payCmd .done (some ⟨0, 0, 1⟩), ⟨0, 0, 1⟩, by decide +kernel⟩⟩
set_option maxRecDepth 20000 in
theorem test_payload_reads_met_2 :
    (∃ (s : State) (c : Nat) (x : Cmd) (bs : List Byte) (rs : List Rec), (s.host.link.up = true) ∧ (cmd? s c = some x) ∧ (x.stage = .reading) ∧ (x.granules = none) ∧ (x.origin = none) ∧ (homeReady s x = true) ∧ (isSearch x.opcode = false) ∧ (readIngest (coll s x.coll) x.entry bs = .ok rs) ∧ (peersOf s x.job = [])) ∧
    (∃ (s : State) (c : Nat) (x : Cmd) (bs : List Byte) (st : Status) (i : Nat), (s.host.link.up = true) ∧ (cmd? s c = some x) ∧ (x.stage = .reading) ∧ (x.granules = none) ∧ (x.origin = none) ∧ (homeReady s x = true) ∧ (isSearch x.opcode = false) ∧ (readIngest (coll s x.coll) x.entry bs = .error (st, i)) ∧ (mustCommit x = false)) ∧
    (∃ (s : State) (c : Nat) (x : Cmd) (reply : ReadReply), (s.host.link.up = true) ∧ (cmd? s c = some x) ∧ (x.stage = .reading) ∧ (x.granules = none) ∧ (x.origin = none) ∧ (homeReady s x = true) ∧ (reply = .ur ∨ reply = .ca ∨ reply = .poison) ∧ (mustCommit x = false)) ∧
    (∃ (s : State) (c : Nat) (x : Cmd), (s.host.link.up = true) ∧ (cmd? s c = some x) ∧ (x.stage = .reading) ∧ (x.granules = none) ∧ (x.origin = none) ∧ (homeReady s x = true) ∧ (mustCommit x = false)) :=
  ⟨⟨payHome (payState .reading none), 4, payCmd .reading none, [], [], by decide +kernel⟩,
   ⟨payHome (payState1 .reading none), 4, { payCmd .reading none with entry := BitVec.ofNat 512 (2 ^ 128) }, [], .invalidField, 0, by decide +kernel⟩,
   ⟨payHome (payState .reading none), 4, payCmd .reading none, .poison, by decide +kernel⟩,
   ⟨payHome (payState .reading none), 4, payCmd .reading none, by decide +kernel⟩⟩
set_option maxRecDepth 20000 in
theorem test_completions_met_1 :
    (∃ (s u : State) (c : Nat) (x : Cmd), (judgeFor c s = u) ∧ (cmd? u c = some x) ∧ (x.stage = .final) ∧ (x.written = false) ∧ (x.origin = none) ∧ (x.silent = false) ∧ (linkServes u = true)) ∧
    (∃ (s : State) (c : Nat) (x : Cmd), (cmd? s c = some x) ∧ (isIngest x.opcode = false ∨ x.stage ≠ .final)) ∧
    (∃ (s u : State) (c root n : Nat) (x : Cmd), (judgeFor c s = u) ∧ (cmd? u c = some x) ∧ (x.stage = .final) ∧ (x.written = false) ∧ (x.origin = some (root, n)) ∧ (x.granules = none) ∧ ((journal? u x.ctx).isNone = true)) ∧
    (∃ (s u : State) (c : Nat) (x : Cmd), (judgeFor c s = u) ∧ (cmd? u c = some x) ∧ (x.stage = .final) ∧ (x.written = false) ∧ (x.origin = none) ∧ (x.silent = true)) ∧
    (∃ (s u : State) (c : Nat) (x : Cmd), (judgeFor c s = u) ∧ (cmd? u c = some x) ∧ (x.stage ≠ .final ∨ x.written = true ∨ (x.origin = none ∧ x.silent = false ∧ linkServes u = false))) ∧
    (∃ (s : State) (r : Fin 1024), ((ring s r).ctimeOn = true) ∧ ((vec s (ring s r).vector).masked = false) ∧ (s.host.link.up = true) ∧ (s.host.link.d3hot = false)) ∧
    (∃ (s : State) (r : Fin 1024), ((ring s r).ctimeOn = true) ∧ ((vec s (ring s r).vector).masked = true)) ∧
    (∃ (s : State), (s.host.link.up = true) ∧ (s.host.link.d3hot = false)) :=
  ⟨⟨{ payState .final none with host := servingHost }, _, 4, payCmd .final none, rfl, by decide +kernel⟩,
   ⟨payState .reading none, 4, payCmd .reading none, by decide +kernel⟩,
   ⟨{ payState .final none with cmds := [(4, { payCmd .final none with origin := some (3, 9) })] }, _, 4, 3, 9, { payCmd .final none with origin := some (3, 9) }, rfl, by decide +kernel⟩,
   ⟨{ payState .final none with cmds := [(4, { payCmd .final none with silent := true })] }, _, 4, { payCmd .final none with silent := true }, rfl, by decide +kernel⟩,
   ⟨payState .reading none, _, 4, payCmd .reading none, rfl, by decide +kernel⟩,
   ⟨{ State.reset with host := { servingHost with rings := [(7, { ctimeOn := true })], vecs := [(4, { masked := false })] } }, 7, by decide +kernel⟩,
   ⟨{ State.reset with host := { up1 with rings := [(7, { ctimeOn := true })] } }, 7, by decide +kernel⟩,
   ⟨{ State.reset with host := servingHost }, by decide +kernel⟩⟩
set_option maxRecDepth 20000 in
theorem test_completions_met_2 :
    (∃ (s : State) (w : HostWrite) (rest : List HostWrite), (linkPosts s = true) ∧ (s.host.writes = w :: rest)) ∧
    (∃ (s : State), (linkPosts s = true) ∧ (s.host.writes = [])) :=
  ⟨⟨{ State.reset with host := { servingHost with writes := [{ kind := .result 4 1, addr := 0, bytes := [] }] } }, { kind := .result 4 1, addr := 0, bytes := [] }, [], by decide +kernel⟩,
   ⟨{ State.reset with host := servingHost }, by decide +kernel⟩⟩

set_option maxRecDepth 20000 in
theorem test_link_training_met_1 :
    (∃ (s : State) (w r : Nat), (mayTrain s = true) ∧ (w = 16 ∨ w = 8 ∨ w = 4) ∧ (r = 128 ∨ r = 64 ∨ r = 32)) ∧
    (∃ (s : State) (w r : Nat) (flit : Bool), (mayTrain s = true) ∧ (flit = false ∨ ¬(w = 16 ∨ w = 8 ∨ w = 4) ∨ ¬(r = 128 ∨ r = 64 ∨ r = 32))) ∧
    (∃ (s : State), (s.host.link.deg = true) ∧ (s.host.link.retrainDue = true)) ∧
    (∃ (s : State), (s.host.link.up = true)) ∧
    (∃ (s : State), (s.host.link.up = true) ∧ (s.host.rings.all (fun r => r.2.st == .disabled) = true)) ∧
    (∃ (s : State), (s.host.link.up = true) ∧ (s.host.rings.all (fun r => r.2.st == .disabled) = false)) ∧
    (∃ (s : State), (s.host.link.up = true) ∧ (bit s.host.link.cfg.linkCtl.toNat 1 = true) ∧ (linkIdle s = true)) ∧
    (∃ (s : State), (s.pins.pwrgd = true)) :=
  ⟨⟨trainState, 16, 64, by decide +kernel⟩,
   ⟨trainState, 16, 8, true, by decide +kernel⟩,
   ⟨{ State.reset with host := { up1 with link := { up1.link with deg := true, retrainDue := true } } }, by decide +kernel⟩,
   ⟨{ State.reset with host := servingHost, cmds := [(4, linkCmd)] }, by decide +kernel⟩,
   ⟨{ State.reset with host := up1 }, by decide +kernel⟩,
   ⟨{ State.reset with host := servingHost }, by decide +kernel⟩,
   ⟨{ State.reset with host := { up1 with link := { up1.link with cfg := { linkCtl := 2 } } } }, by decide +kernel⟩,
   ⟨{ State.reset with pins := { State.reset.pins with pwrgd := true } }, by decide +kernel⟩⟩
set_option maxRecDepth 20000 in
theorem test_link_training_met_2 :
    (∃ (s : State), (s.pins.pwrgd = false)) :=
  ⟨State.reset, by decide +kernel⟩
set_option maxRecDepth 20000 in
theorem test_hdm_accesses_met :
    (∃ (s : State) (off : Nat) (acc : MemAccess), (memUsable s = false)) ∧
    (∃ (s : State) (off : Nat) (bs : List Byte) (p : Bool), (memUsable s = true) ∧ (hdmAddr s off = none ∨ ∃ a, hdmAddr s off = some a ∧ notReachable (ptn s (homePtn a)) = true)) ∧
    (∃ (s : State) (off : Nat) (bs : List Byte) (p : Bool), (memUsable s = true) ∧ (hdmAddr s off = none ∨ ∃ a, hdmAddr s off = some a ∧ notReachable (ptn s (homePtn a)) = true)) ∧
    (∃ (s : State) (off a n : Nat), (memUsable s = true) ∧ (hdmAddr s off = some a) ∧ (notReachable (ptn s (homePtn a)) = false) ∧ (servedNow (ptn s (homePtn a)) = true) ∧ ((s.host.memWaits.any fun w => shareLine w.1 (accLen w.2) off n) = false) ∧ (westGoes s a n = true)) ∧
    (∃ (s : State) (off a : Nat) (bs : List Byte), (memUsable s = true) ∧ (hdmAddr s off = some a) ∧ (notReachable (ptn s (homePtn a)) = false) ∧ (servedNow (ptn s (homePtn a)) = true) ∧ ((s.host.memWaits.any fun w => shareLine w.1 (accLen w.2) off bs.length) = false) ∧ (westGoes s a bs.length = true) ∧ (a + bs.length ≤ 2 ^ 40) ∧ (Memory.wf s.hbm = true)) ∧
    (∃ (s : State) (off a : Nat) (bs : List Byte), (memUsable s = true) ∧ (hdmAddr s off = some a) ∧ (notReachable (ptn s (homePtn a)) = false) ∧ (servedNow (ptn s (homePtn a)) = true) ∧ ((s.host.memWaits.any fun w => shareLine w.1 (accLen w.2) off bs.length) = false) ∧ (westGoes s a bs.length = true)) ∧
    (∃ (s : State) (off a : Nat) (acc : MemAccess), (memUsable s = true) ∧ (hdmAddr s off = some a) ∧ (notReachable (ptn s (homePtn a)) = false) ∧ (servedNow (ptn s (homePtn a)) = false ∨ (s.host.memWaits.any fun w => shareLine w.1 (accLen w.2) off (accLen acc)) = true)) :=
  ⟨⟨State.reset, 0, .read 64, by decide +kernel⟩,
   ⟨hdmState, 0, [], false, by decide +kernel⟩,
   ⟨hdmState, 0, [], false, by decide +kernel⟩,
   ⟨hdmOk, 0, hdmA, 64, by decide +kernel⟩,
   ⟨hdmOk, 0, hdmA, List.replicate 64 7, by decide +kernel⟩,
   ⟨hdmOk, 0, hdmA, List.replicate 64 7, by decide +kernel⟩,
   ⟨{ hdmOk with host := { hdmHost with memWaits := [(0, .read 64)] } }, 0, hdmA, .read 64, by decide +kernel⟩⟩

set_option maxRecDepth 20000 in
theorem test_mailbox_reports_met_1 :
    (∃ (s : State) (m : Fin 4) (q : Req), (served m 0x0001 q s = true) ∧ (shaped q 13 [] = true) ∧ (qf q 0 8 = 0) ∧ (qf q 12 1 = 0)) ∧
    (∃ (s : State) (m : Fin 4) (q : Req) (snap : List Byte), (served m 0x0001 q s = true) ∧ (shaped q 13 [] = true) ∧ (qf q 0 8 = 0) ∧ (qf q 12 1 ≠ 0) ∧ (qf q 12 1 ≤ 15) ∧ (s.hearth.snapshot = some snap)) ∧
    (∃ (s : State) (m : Fin 4) (q : Req), (served m 0x0001 q s = true) ∧ (shaped q 13 [] = true) ∧ (qf q 0 8 ≠ 0) ∧ (qf q 0 8 % 64 = 0) ∧ ((m : Nat) ≠ 3) ∧ (4096 ≤ qf q 8 4 ∧ qf q 8 4 ≤ 65536 ∧ qf q 8 4 % 4096 = 0) ∧ ((snapshot s s.hearth.snapSeq).length ≤ qf q 8 4) ∧ (s.host.link.up = true) ∧ (s.host.link.d3hot = false)) ∧
    (∃ (s : State), (s.hearth.snapshot.isSome = true)) ∧
    (∃ (s : State) (m : Fin 4) (q : Req), (served m 0x0002 q s = true) ∧ (shaped q 0 [] = true)) ∧
    (∃ (s : State) (m : Fin 4) (q : Req) (oldest : Nat), (served m 0x0003 q s = true) ∧ (shaped q 5 [] = true) ∧ (qf q 4 1 ≠ 0) ∧ (qf q 0 4 ≤ s.hearth.logSeq) ∧ (oldest = s.hearth.logSeq - s.hearth.log.length)) ∧
    (∃ (s : State) (m : Fin 4) (q : Req), (served m 0x0004 q s = true) ∧ (shaped q 2 [] = true) ∧ (qf q 0 2 < 4096)) ∧
    (∃ (s : State) (m : Fin 4) (q : Req) (k : Ticket) (r : Rsp), ((mbx s m).req = some q) ∧ ((mbx s m).state = 2) ∧ (hearthRuns s = true) ∧ (q.opcode = 0x0005) ∧ (q.rsv = false) ∧ (shaped q 2 [] = true) ∧ (tget s.hearth.tickets (qf q 0 2) = some k) ∧ (k.rsp = some r)) :=
  ⟨⟨mbxState 1 (List.replicate 13 0), 1, reqOf 1 (List.replicate 13 0), by decide +kernel⟩,
   ⟨{ mbxState 1 (List.replicate 12 0 ++ [1]) with hearth := { (mbxState 1 (List.replicate 12 0 ++ [1])).hearth with snapshot := some [9] } }, 1, reqOf 1 (List.replicate 12 0 ++ [1]), [9], by decide +kernel⟩,
   ⟨jobState 1 [64, 0, 0, 0, 0, 0, 0, 0, 0, 16, 0, 0, 0], 1, reqOf 1 [64, 0, 0, 0, 0, 0, 0, 0, 0, 16, 0, 0, 0], by decide +kernel⟩,
   ⟨{ State.reset with hearth := { snapshot := some [9] } }, by decide +kernel⟩,
   ⟨mbxState 2 [], 1, reqOf 2 [], by decide +kernel⟩,
   ⟨mbxState 3 [0, 0, 0, 0, 1], 1, reqOf 3 [0, 0, 0, 0, 1], 0, by decide +kernel⟩,
   ⟨mbxState 4 [0xFF, 0x0F], 1, reqOf 4 [0xFF, 0x0F], by decide +kernel⟩,
   ⟨{ mbxState 5 [9, 0] with hearth := { (mbxState 5 [9, 0]).hearth with tickets := [(9, { mbx := 1, req := reqOf 5 [9, 0], work := .reset 0, rsp := some { status := .ok } })] } }, 1, reqOf 5 [9, 0], { mbx := 1, req := reqOf 5 [9, 0], work := .reset 0, rsp := some { status := .ok } }, { status := .ok }, by decide +kernel⟩⟩
set_option maxRecDepth 20000 in
theorem test_mailbox_reports_met_2 :
    (∃ (s : State) (m : Fin 4) (q : Req) (k : Ticket), ((mbx s m).req = some q) ∧ ((mbx s m).state = 2) ∧ (hearthRuns s = true) ∧ (q.opcode = 0x0005) ∧ (q.rsv = false) ∧ (shaped q 2 [] = true) ∧ (tget s.hearth.tickets (qf q 0 2) = some k) ∧ (k.rsp = none)) ∧
    (∃ (s : State) (m : Fin 4) (q : Req) (x : Coll) (y : CollPtn), (served m 0x0204 q s = true) ∧ (shaped q 3 [] = true) ∧ (coll s (qf q 0 2) = x) ∧ (x.state ≠ .free) ∧ ((jobPtns s x.job).contains (qf q 2 1) = true) ∧ (collPtn x (qf q 2 1) = y)) ∧
    (∃ (s : State) (m : Fin 4) (q : Req) (x : Ctx), (served m 0x0420 q s = true) ∧ (ctx? s (qf q 0 2) = some x) ∧ (shaped q 2 [] = true)) :=
  ⟨⟨{ mbxState 5 [9, 0] with hearth := { (mbxState 5 [9, 0]).hearth with tickets := [(9, { mbx := 1, req := reqOf 5 [9, 0], work := .reset 0 })] } }, 1, reqOf 5 [9, 0], { mbx := 1, req := reqOf 5 [9, 0], work := .reset 0 }, by decide +kernel⟩,
   ⟨jobState 0x204 [6, 0, 3], 1, reqOf 0x204 [6, 0, 3], { job := 2, state := .untrained, d := 32 }, {}, by decide +kernel⟩,
   ⟨jobState 0x420 [5, 0], 1, reqOf 0x420 [5, 0], { job := 2, home := 3 }, by decide +kernel⟩⟩
set_option maxRecDepth 20000 in
theorem test_mailbox_jobs_met :
    (∃ (s : State) (m : Fin 4) (q : Req), (served m 0x0101 q s = true) ∧ (shaped q 3 [] = true) ∧ (qf q 0 2 < 4096) ∧ (qf q 2 1 = 1) ∧ (∀ p ∈ maskPtns q 0, (ptn s p).job = none ∧ creating s p = false)) ∧
    (∃ (s : State) (m : Fin 4) (q : Req), (served m 0x0101 q s = true) ∧ (shaped q 3 [] = true) ∧ (qf q 0 2 < 4096) ∧ (qf q 2 1 = 0) ∧ (∀ p ∈ maskPtns q 0, (ptn s p).job = none ∧ creating s p = false)) ∧
    (∃ (s : State) (m : Fin 4) (q : Req), (served m 0x0102 q s = true) ∧ (shaped q 13 [(2, 2)] = true) ∧ (qf q 0 2 < 4096) ∧ (qf q 12 1 ≤ 2)) ∧
    (∃ (s : State) (m : Fin 4) (q : Req), (served m 0x0110 q s = true) ∧ ((openTickets s).length < 64) ∧ (jobBad s q = false) ∧ (anyFenced s (maskPtns q 2) = false)) ∧
    (∃ (s : State) (m : Fin 4) (q : Req) (v : State), (served m 0x0111 q s = true) ∧ (shaped q 1 [] = true) ∧ ((job? s (qf q 0 1)).isSome = true) ∧ (v = updJob (qf q 0 1) (fun x => { x with ending := true }) ((jobCtxs s (qf q 0 1)).foldl (fun s c => killContext c 0 none s) s)) ∧ (jobQuiet v (qf q 0 1) = true)) ∧
    (∃ (s : State) (m : Fin 4) (q : Req) (v : State), (served m 0x0111 q s = true) ∧ ((openTickets s).length < 64) ∧ (shaped q 1 [] = true) ∧ ((job? s (qf q 0 1)).isSome = true) ∧ (v = updJob (qf q 0 1) (fun x => { x with ending := true }) ((jobCtxs s (qf q 0 1)).foldl (fun s c => killContext c 0 none s) s)) ∧ (jobQuiet v (qf q 0 1) = false)) ∧
    (∃ (s : State) (m : Fin 4) (q : Req) (home : Nat), (served m 0x0112 q s = true) ∧ (shaped q 4 [] = true) ∧ (qf q 0 2 ≤ 4095) ∧ (ctx? s (qf q 0 2) = none) ∧ (s.ctxs.length < 256) ∧ ((job? s (qf q 2 1)).any (fun x => !x.ending) = true) ∧ ((qf q 3 1 = 0xFF ∧ home = leastHome s (qf q 2 1)) ∨ (qf q 3 1 ≠ 0xFF ∧ (jobPtns s (qf q 2 1)).contains (qf q 3 1) = true ∧ home = qf q 3 1))) ∧
    (∃ (s : State) (m : Fin 4) (q : Req) (x : Ctx), (served m 0x0113 q s = true) ∧ (ctx? s (qf q 0 2) = some x) ∧ (shaped q 2 [] = true) ∧ (ctxCmds s (qf q 0 2) = []) ∧ (s.host.rings.all (fun r => r.2.ctx != qf q 0 2) = true)) :=
  ⟨⟨mbxState 0x0101 [8, 0, 1], 1, reqOf 0x0101 [8, 0, 1], by decide +kernel⟩,
   ⟨mbxState 0x0101 [8, 0, 0], 1, reqOf 0x0101 [8, 0, 0], by decide +kernel⟩,
   ⟨jobState 0x0102 [8, 0, 0, 0, 5, 0, 0, 0, 6, 0, 0, 0, 0], 1, reqOf 0x0102 [8, 0, 0, 0, 5, 0, 0, 0, 6, 0, 0, 0, 0], by decide +kernel⟩,
   ⟨jobState 0x0110 [4, 0, 1, 0, 1, 0, 0, 0, 1, 0, 0, 0, 0, 0, 0, 0], 1, reqOf 0x0110 [4, 0, 1, 0, 1, 0, 0, 0, 1, 0, 0, 0, 0, 0, 0, 0], by decide +kernel⟩,
   ⟨jobState 0x0111 [2], 1, reqOf 0x0111 [2], jobEndOf, by decide +kernel⟩,
   ⟨{ jobState 0x0111 [2] with cmds := [(4, busyCmd)] }, 1, reqOf 0x0111 [2], jobBusy, by decide +kernel⟩,
   ⟨jobState 0x0112 [9, 0, 2, 255], 1, reqOf 0x0112 [9, 0, 2, 255], 3, by decide +kernel⟩,
   ⟨jobState 0x0113 [5, 0], 1, reqOf 0x0113 [5, 0], { job := 2, home := 3 }, by decide +kernel⟩⟩

set_option maxRecDepth 20000 in
theorem test_mailbox_rings_met_1 :
    (∃ (s : State) (m : Fin 4) (q : Req), (served m 0x0114 q s = true) ∧ (ringBad s m q = false)) ∧
    (∃ (s : State) (m : Fin 4) (q : Req), (served m 0x0115 q s = true) ∧ (shaped q 2 [] = true) ∧ (ringExists s (qf q 0 2) = true) ∧ ((ring s (qf q 0 2)).st ≠ .draining) ∧ (ringLive s (qf q 0 2) = [])) ∧
    (∃ (s : State) (m : Fin 4) (q : Req), (served m 0x0115 q s = true) ∧ ((openTickets s).length < 64) ∧ (shaped q 2 [] = true) ∧ (ringExists s (qf q 0 2) = true) ∧ ((ring s (qf q 0 2)).st ≠ .draining) ∧ (ringLive s (qf q 0 2) ≠ [])) ∧
    (∃ (s : State) (m : Fin 4) (q : Req), (served m 0x0119 q s = true) ∧ (shaped q 3 [] = true) ∧ (ringExists s (qf q 0 2) = true) ∧ ((ring s (qf q 0 2)).st ≠ .draining) ∧ (qf q 2 1 = 1)) ∧
    (∃ (s : State) (m : Fin 4) (q : Req), (served m 0x0119 q s = true) ∧ (shaped q 3 [] = true) ∧ (ringExists s (qf q 0 2) = true) ∧ ((ring s (qf q 0 2)).st = .running ∨ (ring s (qf q 0 2)).st = .error) ∧ (qf q 2 1 = 0) ∧ (ringLive s (qf q 0 2) = [])) ∧
    (∃ (s : State) (m : Fin 4) (q : Req), (served m 0x0119 q s = true) ∧ ((openTickets s).length < 64) ∧ (shaped q 3 [] = true) ∧ (ringExists s (qf q 0 2) = true) ∧ ((ring s (qf q 0 2)).st = .running ∨ (ring s (qf q 0 2)).st = .error) ∧ (qf q 2 1 = 0) ∧ (ringLive s (qf q 0 2) ≠ [])) ∧
    (∃ (s : State) (m : Fin 4) (q : Req), (served m 0x0119 q s = true) ∧ (shaped q 3 [] = true) ∧ (ringExists s (qf q 0 2) = true) ∧ ((ring s (qf q 0 2)).st = .disabled) ∧ (qf q 2 1 = 0)) ∧
    (∃ (s : State) (m : Fin 4) (q : Req) (x : Ctx) (hw : Tbl HWin), (served m 0x0116 q s = true) ∧ (shaped q 24 [(4, 4)] = true) ∧ (ctx? s (qf q 0 2) = some x) ∧ (qf q 2 1 ≤ 7) ∧ (qf q 3 1 ≤ 3) ∧ (qf q 8 8 % 4096 = 0) ∧ (qf q 16 8 % 4096 = 0) ∧ ((m : Nat) ≠ 3 ∨ qf q 8 8 = 0) ∧ (hw = (if qf q 3 1 = 0 then tdel x.hwins (qf q 2 1) else tset x.hwins (qf q 2 1) { base := qf q 8 8, len := qf q 16 8, r := bit (qf q 3 1) 0, w := bit (qf q 3 1) 1 })) ∧ (windowsCover { s with ctxs := tset s.ctxs (qf q 0 2) { x with hwins := hw } } (qf q 0 2) = true)) :=
  ⟨⟨{ jobState 0x0114 [9, 0, 5, 0, 16, 0, 0, 0, 0, 0, 1, 0, 0, 0, 0, 0, 0, 0, 2, 0, 0, 0, 0, 0, 4, 0, 0, 0, 0, 0] with ctxs := [(5, { job := 2, home := 3, hwins := [(0, { base := 0, len := 2 ^ 32, r := true, w := true })] })] }, 1, reqOf 0x0114 [9, 0, 5, 0, 16, 0, 0, 0, 0, 0, 1, 0, 0, 0, 0, 0, 0, 0, 2, 0, 0, 0, 0, 0, 4, 0, 0, 0, 0, 0], by decide +kernel⟩,
   ⟨{ jobState 0x0115 [7, 0] with host := servingHost }, 1, reqOf 0x0115 [7, 0], by decide +kernel⟩,
   ⟨{ jobState 0x0115 [7, 0] with host := servingHost, cmds := [(4, busyRing)] }, 1, reqOf 0x0115 [7, 0], by decide +kernel⟩,
   ⟨{ jobState 0x0119 [7, 0, 1] with host := servingHost }, 1, reqOf 0x0119 [7, 0, 1], by decide +kernel⟩,
   ⟨{ jobState 0x0119 [7, 0, 0] with host := servingHost }, 1, reqOf 0x0119 [7, 0, 0], by decide +kernel⟩,
   ⟨{ jobState 0x0119 [7, 0, 0] with host := servingHost, cmds := [(4, busyRing)] }, 1, reqOf 0x0119 [7, 0, 0], by decide +kernel⟩,
   ⟨{ jobState 0x0119 [7, 0, 0] with host := { up1 with rings := [(7, { st := .disabled, ctx := 5 })] } }, 1, reqOf 0x0119 [7, 0, 0], by decide +kernel⟩,
   ⟨jobState 0x0116 [5, 0, 1, 3, 0, 0, 0, 0, 0, 16, 0, 0, 0, 0, 0, 0, 0, 32, 0, 0, 0, 0, 0, 0], 1, reqOf 0x0116 [5, 0, 1, 3, 0, 0, 0, 0, 0, 16, 0, 0, 0, 0, 0, 0, 0, 32, 0, 0, 0, 0, 0, 0], { job := 2, home := 3 }, [(1, { base := 0x1000, len := 0x2000, r := true, w := true })], by decide +kernel⟩⟩
set_option maxRecDepth 20000 in
theorem test_mailbox_rings_met_2 :
    (∃ (s : State) (m : Fin 4) (q : Req) (rs : List Nat), (served m 0x0117 q s = true) ∧ (shaped q 8 [] = true) ∧ (qf q 2 1 = 0) ∧ (96 ≤ qf q 4 2) ∧ (1 ≤ qf q 6 2) ∧ (qf q 4 2 + qf q 6 2 ≤ 4096) ∧ ((ctxPtns s (qf q 0 2)).contains (qf q 3 1) = true) ∧ (rs = lowestFree s (qf q 3 1) (qf q 6 2)) ∧ (((upto (qf q 6 2)).map (qf q 4 2 + ·)).any (fun a => (tget s.host.apertures a).isSome) = false) ∧ (rs.length = qf q 6 2)) ∧
    (∃ (s : State) (m : Fin 4) (q : Req), (served m 0x0117 q s = true) ∧ (shaped q 8 [] = true) ∧ (qf q 2 1 = 1) ∧ (96 ≤ qf q 4 2) ∧ (1 ≤ qf q 6 2) ∧ (qf q 4 2 + qf q 6 2 ≤ 4096) ∧ ((ctxPtns s (qf q 0 2)).contains (qf q 3 1) = true) ∧ (((upto (qf q 6 2)).map (qf q 4 2 + ·)).all (fun a => (tget s.host.apertures a).any fun k => k.ctx == qf q 0 2) = true)) ∧
    (∃ (s : State) (m : Fin 4) (q : Req) (x : Ctx) (g : Nat), (served m 0x0118 q s = true) ∧ (ctx? s (qf q 0 2) = some x) ∧ (tget x.mwins (qf q 2 1) = none) ∧ (shaped q 8 [(5, 1)] = true) ∧ (qf q 2 1 ≤ 15) ∧ (qf q 3 1 ≤ 7) ∧ (qf q 3 1 ≠ 0) ∧ ((jobPtns s x.job).contains (qf q 4 1) = true) ∧ (1 ≤ qf q 6 2) ∧ (qf q 6 2 ≤ 256) ∧ (regionRun s (qf q 4 1) (qf q 6 2) = some g)) ∧
    (∃ (s : State) (m : Fin 4) (q : Req) (x : Ctx), (served m 0x0118 q s = true) ∧ (ctx? s (qf q 0 2) = some x) ∧ (shaped q 8 [(5, 1)] = true) ∧ (qf q 2 1 ≤ 15) ∧ (qf q 3 1 = 0)) ∧
    (∃ (s : State) (m : Fin 4) (q : Req) (x : Ctx), (served m 0x0120 q s = true) ∧ (shaped q 20 [(2, 6)] = true) ∧ (ctx? s (qf q 0 2) = some x) ∧ (journalBusy s (qf q 0 2) = false) ∧ ((m : Nat) ≠ 3 ∨ qf q 8 8 = 0) ∧ (qf q 16 4 = 0)) ∧
    (∃ (s : State) (m : Fin 4) (q : Req) (x : Ctx), (served m 0x0120 q s = true) ∧ (shaped q 20 [(2, 6)] = true) ∧ (ctx? s (qf q 0 2) = some x) ∧ (journalBusy s (qf q 0 2) = false) ∧ ((m : Nat) ≠ 3 ∨ qf q 8 8 = 0) ∧ (qf q 16 4 ≥ 65536) ∧ (qf q 8 8 % 4096 = 0) ∧ (qf q 16 4 % 4096 = 0) ∧ (inWindow s (qf q 0 2) (qf q 8 8) (qf q 16 4) true true = true) ∧ (cacheUsable s = true)) :=
  ⟨⟨jobState 0x0117 [5, 0, 0, 3, 96, 0, 1, 0], 1, reqOf 0x0117 [5, 0, 0, 3, 96, 0, 1, 0], [0], by decide +kernel⟩,
   ⟨{ jobState 0x0117 [5, 0, 1, 3, 96, 0, 1, 0] with host := { up1 with apertures := [(96, { ctx := 5, ptn := 3, region := 0 })] } }, 1, reqOf 0x0117 [5, 0, 1, 3, 96, 0, 1, 0], by decide +kernel⟩,
   ⟨jobState 0x0118 [5, 0, 1, 7, 3, 0, 2, 0], 1, reqOf 0x0118 [5, 0, 1, 7, 3, 0, 2, 0], { job := 2, home := 3 }, 0, by decide +kernel⟩,
   ⟨jobState 0x0118 [5, 0, 1, 0, 0, 0, 0, 0], 1, reqOf 0x0118 [5, 0, 1, 0, 0, 0, 0, 0], { job := 2, home := 3 }, by decide +kernel⟩,
   ⟨jobState 0x0120 [5, 0, 0, 0, 0, 0, 0, 0, 0, 0, 0, 0, 0, 0, 0, 0, 0, 0, 0, 0], 1, reqOf 0x0120 [5, 0, 0, 0, 0, 0, 0, 0, 0, 0, 0, 0, 0, 0, 0, 0, 0, 0, 0, 0], { job := 2, home := 3 }, by decide +kernel⟩,
   ⟨{ jobState 0x0120 [5, 0, 0, 0, 0, 0, 0, 0, 0, 0, 1, 0, 0, 0, 0, 0, 0, 0, 1, 0] with ctxs := [(5, { job := 2, home := 3, hwins := [(0, { base := 0, len := 2 ^ 32, r := true, w := true })] })], host := { up1 with link := { up1.link with cacheEn := true } } }, 1, reqOf 0x0120 [5, 0, 0, 0, 0, 0, 0, 0, 0, 0, 1, 0, 0, 0, 0, 0, 0, 0, 1, 0], { job := 2, home := 3, hwins := [(0, { base := 0, len := 2 ^ 32, r := true, w := true })] }, by decide +kernel⟩⟩
set_option maxRecDepth 20000 in
theorem test_mailbox_collections_met_1 :
    (∃ (s : State) (m : Fin 4) (q : Req), (served m 0x0201 q s = true) ∧ (collCreateBad s q = false) ∧ (hasSparse (reqColl q) = false)) ∧
    (∃ (s : State) (m : Fin 4) (q : Req) (u : State), (served m 0x0201 q s = true) ∧ (collCreateBad s q = false) ∧ (hasSparse (reqColl q) = true) ∧ ((jobPtns s (reqColl q).job).foldl (fun o p => o.bind (takePostings (qf q 0 2) p)) (some (demandAll (jobPtns s (reqColl q).job) { s with colls := tset s.colls (qf q 0 2) { reqColl q with ptns := (jobPtns s (reqColl q).job).map fun p => (p, {}) } })) = some u)) ∧
    (∃ (s : State) (m : Fin 4) (q : Req), (served m 0x0202 q s = true) ∧ (shaped q 2 [] = true) ∧ ((coll s (qf q 0 2)).state ≠ .free) ∧ ((coll s (qf q 0 2)).deleting = false) ∧ (collCmds s (qf q 0 2) = [])) ∧
    (∃ (s : State) (m : Fin 4) (q : Req), (served m 0x0202 q s = true) ∧ ((openTickets s).length < 64) ∧ (shaped q 2 [] = true) ∧ ((coll s (qf q 0 2)).state ≠ .free) ∧ ((coll s (qf q 0 2)).deleting = false) ∧ (collCmds s (qf q 0 2) ≠ [])) ∧
    (∃ (s : State) (m : Fin 4) (q : Req), (served m 0x0202 q s = true) ∧ ((openTickets s).length < 64) ∧ (shaped q 2 [] = true) ∧ ((coll s (qf q 0 2)).state ≠ .free) ∧ ((coll s (qf q 0 2)).deleting = true)) ∧
    (∃ (s : State) (m : Fin 4) (q : Req), (served m 0x0203 q s = true) ∧ (collSetBad (coll s (qf q 0 2)) q = false)) ∧
    (∃ (s : State) (m : Fin 4) (q : Req) (reply : ReadReply), (served m 0x0210 q s = true) ∧ ((openTickets s).length < 64) ∧ (trainBad s m q = false) ∧ ((coll s (qf q 0 2)).state ≠ .training) ∧ ((coll s (qf q 0 2)).state ≠ .redistributing) ∧ (qf q 4 1 = 0)) ∧
    (∃ (s : State) (m : Fin 4) (q : Req) (bs : List Byte), (served m 0x0210 q s = true) ∧ ((openTickets s).length < 64) ∧ (trainBad s m q = false) ∧ ((coll s (qf q 0 2)).state ≠ .training) ∧ ((coll s (qf q 0 2)).state ≠ .redistributing) ∧ (qf q 4 1 ≠ 0) ∧ ((sampleRows (coll s (qf q 0 2)) q bs).any (rowBad ((coll s (qf q 0 2)).metric == 2)) = false)) :=
  ⟨⟨jobState 0x0201 [7, 0, 2, 0, 32, 0, 0, 0, 0, 0, 0, 0, 0, 0, 0, 0, 0, 0, 0, 0, 0, 0, 0, 0, 0, 0, 0, 0, 0, 0, 0, 0, 0, 0, 0, 0, 0, 0, 0, 0, 0, 0, 0, 0, 0, 0, 0, 0, 0, 0, 0, 0, 0, 0, 0, 0, 0, 0, 0, 0, 0, 0, 0, 0, 0, 0, 0, 0, 0, 0, 0, 0, 0, 0, 0, 0, 0, 0, 0, 0, 0, 0, 0, 0, 0, 0, 0, 0, 0, 0, 0, 0, 0, 0, 0, 0, 0, 0, 0, 0, 0, 0, 0, 0, 0, 0, 0, 0, 0, 0, 0, 0, 0, 0, 0, 0, 0, 0, 0, 0, 0, 0, 0, 0, 0, 0, 0, 0], 1, reqOf 0x0201 [7, 0, 2, 0, 32, 0, 0, 0, 0, 0, 0, 0, 0, 0, 0, 0, 0, 0, 0, 0, 0, 0, 0, 0, 0, 0, 0, 0, 0, 0, 0, 0, 0, 0, 0, 0, 0, 0, 0, 0, 0, 0, 0, 0, 0, 0, 0, 0, 0, 0, 0, 0, 0, 0, 0, 0, 0, 0, 0, 0, 0, 0, 0, 0, 0, 0, 0, 0, 0, 0, 0, 0, 0, 0, 0, 0, 0, 0, 0, 0, 0, 0, 0, 0, 0, 0, 0, 0, 0, 0, 0, 0, 0, 0, 0, 0, 0, 0, 0, 0, 0, 0, 0, 0, 0, 0, 0, 0, 0, 0, 0, 0, 0, 0, 0, 0, 0, 0, 0, 0, 0, 0, 0, 0, 0, 0, 0, 0], by decide +kernel⟩,
   ⟨jobState 0x0201 [7, 0, 2, 0, 32, 0, 0, 4, 0, 0, 0, 0, 0, 0, 0, 0, 0, 0, 0, 0, 0, 0, 0, 0, 0, 0, 0, 0, 0, 0, 0, 0, 0, 0, 0, 0, 0, 0, 0, 0, 0, 0, 0, 0, 0, 0, 0, 0, 0, 0, 0, 0, 0, 0, 0, 0, 0, 0, 0, 0, 0, 0, 0, 0, 0, 0, 0, 0, 0, 0, 0, 0, 0, 0, 0, 0, 0, 0, 0, 0, 0, 0, 0, 0, 0, 0, 0, 0, 0, 0, 0, 0, 0, 0, 0, 0, 0, 0, 0, 0, 0, 0, 0, 0, 0, 0, 0, 0, 0, 0, 0, 0, 0, 0, 0, 0, 0, 0, 0, 0, 0, 0, 0, 0, 0, 0, 0, 0], 1, reqOf 0x0201 [7, 0, 2, 0, 32, 0, 0, 4, 0, 0, 0, 0, 0, 0, 0, 0, 0, 0, 0, 0, 0, 0, 0, 0, 0, 0, 0, 0, 0, 0, 0, 0, 0, 0, 0, 0, 0, 0, 0, 0, 0, 0, 0, 0, 0, 0, 0, 0, 0, 0, 0, 0, 0, 0, 0, 0, 0, 0, 0, 0, 0, 0, 0, 0, 0, 0, 0, 0, 0, 0, 0, 0, 0, 0, 0, 0, 0, 0, 0, 0, 0, 0, 0, 0, 0, 0, 0, 0, 0, 0, 0, 0, 0, 0, 0, 0, 0, 0, 0, 0, 0, 0, 0, 0, 0, 0, 0, 0, 0, 0, 0, 0, 0, 0, 0, 0, 0, 0, 0, 0, 0, 0, 0, 0, 0, 0, 0, 0], postState, by decide +kernel⟩,
   ⟨jobState 0x0202 [6, 0], 1, reqOf 0x0202 [6, 0], by decide +kernel⟩,
   ⟨{ jobState 0x0202 [6, 0] with cmds := [(4, collBusy)] }, 1, reqOf 0x0202 [6, 0], by decide +kernel⟩,
   ⟨{ jobState 0x0202 [6, 0] with colls := [(6, { job := 2, state := .untrained, d := 32, deleting := true })] }, 1, reqOf 0x0202 [6, 0], by decide +kernel⟩,
   ⟨jobState 0x0203 [6, 0, 3, 20, 200, 0], 1, reqOf 0x0203 [6, 0, 3, 20, 200, 0], by decide +kernel⟩,
   ⟨jobState 0x0210 [6, 0, 5, 0, 0, 1, 0, 0, 4, 0, 0, 0, 0, 0, 0, 0, 0, 0, 0, 0, 0, 0, 0, 0], 1, reqOf 0x0210 [6, 0, 5, 0, 0, 1, 0, 0, 4, 0, 0, 0, 0, 0, 0, 0, 0, 0, 0, 0, 0, 0, 0, 0], .timeout, by decide +kernel⟩,
   ⟨{ jobState 0x0210 [6, 0, 5, 0, 1, 1, 0, 0, 4, 0, 0, 0, 1, 0, 0, 0, 0, 0, 1, 0, 0, 0, 0, 0] with ctxs := [(5, { job := 2, home := 3, hwins := [(0, { base := 0, len := 2 ^ 32, r := true, w := true })] })] }, 1, reqOf 0x0210 [6, 0, 5, 0, 1, 1, 0, 0, 4, 0, 0, 0, 1, 0, 0, 0, 0, 0, 1, 0, 0, 0, 0, 0], [], by decide +kernel⟩⟩
set_option maxRecDepth 20000 in
theorem test_mailbox_collections_met_2 :
    (∃ (s : State) (m : Fin 4) (q : Req) (bs : List Byte), (served m 0x0210 q s = true) ∧ ((openTickets s).length < 64) ∧ (trainBad s m q = false) ∧ ((coll s (qf q 0 2)).state ≠ .training) ∧ ((coll s (qf q 0 2)).state ≠ .redistributing) ∧ (qf q 4 1 ≠ 0) ∧ ((sampleRows (coll s (qf q 0 2)) q bs).any (rowBad ((coll s (qf q 0 2)).metric == 2)) = true)) ∧
    (∃ (s : State) (m : Fin 4) (q : Req) (reply : ReadReply), (served m 0x0210 q s = true) ∧ ((openTickets s).length < 64) ∧ (trainBad s m q = false) ∧ ((coll s (qf q 0 2)).state = .training ∨ (coll s (qf q 0 2)).state = .redistributing)) ∧
    (∃ (s : State) (m : Fin 4) (q : Req) (x : Ctx), (served m 0x0220 q s = true) ∧ (ctx? s (qf q 0 2) = some x) ∧ (qf q 2 1 ≤ 254) ∧ (qf q 3 1 = 1) ∧ (q.len = 4)) ∧
    (∃ (s : State) (m : Fin 4) (q : Req) (x : Ctx) (prog : List W32), (served m 0x0220 q s = true) ∧ (ctx? s (qf q 0 2) = some x) ∧ (qf q 2 1 ≤ 254) ∧ (qf q 3 1 = 0) ∧ (1 ≤ qf q 4 1) ∧ (qf q 4 1 ≤ 64) ∧ (zeroAt q.bytes 5 3 = true) ∧ (q.len = 8 + 4 * qf q 4 1) ∧ (prog = (upto (qf q 4 1)).map fun i => BitVec.ofNat 32 (qf q (8 + 4 * i) 4)) ∧ (filterCheck prog 1 0 = none)) ∧
    (∃ (s : State) (m : Fin 4) (q : Req) (i : Nat), (served m 0x0220 q s = true) ∧ ((ctx? s (qf q 0 2)).isSome = true) ∧ (qf q 2 1 ≤ 254) ∧ (qf q 3 1 = 0) ∧ (1 ≤ qf q 4 1) ∧ (qf q 4 1 ≤ 64) ∧ (zeroAt q.bytes 5 3 = true) ∧ (q.len = 8 + 4 * qf q 4 1) ∧ (filterCheck ((upto (qf q 4 1)).map fun i => BitVec.ofNat 32 (qf q (8 + 4 * i) 4)) 1 0 = some i)) ∧
    (∃ (s : State) (m : Fin 4) (q : Req) (bs img : List Byte) (k : Pattern) (u v : State), (served m 0x0301 q s = true) ∧ (shaped q 20 [(2, 6)] = true) ∧ ((ctx? s (qf q 0 2)).isSome = true) ∧ (48 ≤ qf q 16 4) ∧ (qf q 16 4 ≤ 32 + 16 * 640) ∧ (qf q 16 4 % 16 = 0) ∧ ((m : Nat) ≠ 3 ∨ qf q 8 8 = 0) ∧ (inWindow s (qf q 0 2) (qf q 8 8) (qf q 16 4) true false = true) ∧ (img = padBytes (qf q 16 4) bs) ∧ (k = { header := img.take 32, steps := imageSteps img, ver := s.hearth.patSeq + 1 }) ∧ (patternCheck k.header k.steps = none) ∧ (v = updCtx (qf q 0 2) (fun x => { x with patterns := tset x.patterns (field img 0 2) k }) (updHearth (fun h => { h with patSeq := h.patSeq + 1 }) (retirePattern (qf q 0 2) (field img 0 2) s))) ∧ ((liveVersions v (qf q 0 2)).foldl (fun n k => n + k.steps.length) 0 ≤ 640) ∧ (loadEverywhere (qf q 0 2) v = some u)) ∧
    (∃ (s : State) (m : Fin 4) (q : Req) (bs img : List Byte) (i : Nat), (served m 0x0301 q s = true) ∧ (shaped q 20 [(2, 6)] = true) ∧ ((ctx? s (qf q 0 2)).isSome = true) ∧ (48 ≤ qf q 16 4) ∧ (qf q 16 4 ≤ 32 + 16 * 640) ∧ (qf q 16 4 % 16 = 0) ∧ ((m : Nat) ≠ 3 ∨ qf q 8 8 = 0) ∧ (inWindow s (qf q 0 2) (qf q 8 8) (qf q 16 4) true false = true) ∧ (img = padBytes (qf q 16 4) bs) ∧ (patternCheck (img.take 32) (imageSteps img) = some i)) ∧
    (∃ (s : State) (m : Fin 4) (q : Req), (served m 0x0302 q s = true) ∧ (shaped q 4 [] = true) ∧ ((ctx? s (qf q 0 2)).any (fun x => (tget x.patterns (qf q 2 2)).isSome) = true)) :=
  ⟨⟨{ jobState 0x0210 [6, 0, 5, 0, 1, 1, 0, 0, 4, 0, 0, 0, 1, 0, 0, 0, 0, 0, 1, 0, 0, 0, 0, 0] with ctxs := [(5, { job := 2, home := 3, hwins := [(0, { base := 0, len := 2 ^ 32, r := true, w := true })] })] }, 1, reqOf 0x0210 [6, 0, 5, 0, 1, 1, 0, 0, 4, 0, 0, 0, 1, 0, 0, 0, 0, 0, 1, 0, 0, 0, 0, 0], List.replicate 64 0xFF, by decide +kernel⟩,
   ⟨{ jobState 0x0210 [6, 0, 5, 0, 0, 1, 0, 0, 4, 0, 0, 0, 0, 0, 0, 0, 0, 0, 0, 0, 0, 0, 0, 0] with colls := [(6, { job := 2, state := .training, d := 32 })] }, 1, reqOf 0x0210 [6, 0, 5, 0, 0, 1, 0, 0, 4, 0, 0, 0, 0, 0, 0, 0, 0, 0, 0, 0, 0, 0, 0, 0], .timeout, by decide +kernel⟩,
   ⟨jobState 0x0220 [5, 0, 1, 1], 1, reqOf 0x0220 [5, 0, 1, 1], { job := 2, home := 3 }, by decide +kernel⟩,
   ⟨jobState 0x0220 [5, 0, 1, 0, 1, 0, 0, 0, 0, 0, 0, 32], 1, reqOf 0x0220 [5, 0, 1, 0, 1, 0, 0, 0, 0, 0, 0, 32], { job := 2, home := 3 }, [0x20000000], by decide +kernel⟩,
   ⟨jobState 0x0220 [5, 0, 1, 0, 1, 0, 0, 0, 255, 255, 255, 255], 1, reqOf 0x0220 [5, 0, 1, 0, 1, 0, 0, 0, 255, 255, 255, 255], 1, by decide +kernel⟩,
   ⟨{ jobState 0x0301 [5, 0, 0, 0, 0, 0, 0, 0, 0, 0, 1, 0, 0, 0, 0, 0, 48, 0, 0, 0] with ctxs := [(5, { job := 2, home := 3, hwins := [(0, { base := 0, len := 2 ^ 32, r := true, w := true })] })] }, 1, reqOf 0x0301 [5, 0, 0, 0, 0, 0, 0, 0, 0, 0, 1, 0, 0, 0, 0, 0, 48, 0, 0, 0], patImg, patImg, patOf, patAfter, patAfter, by decide +kernel⟩,
   ⟨{ jobState 0x0301 [5, 0, 0, 0, 0, 0, 0, 0, 0, 0, 1, 0, 0, 0, 0, 0, 48, 0, 0, 0] with ctxs := [(5, { job := 2, home := 3, hwins := [(0, { base := 0, len := 2 ^ 32, r := true, w := true })] })] }, 1, reqOf 0x0301 [5, 0, 0, 0, 0, 0, 0, 0, 0, 0, 1, 0, 0, 0, 0, 0, 48, 0, 0, 0], List.replicate 48 0, List.replicate 48 0, 0, by decide +kernel⟩,
   ⟨{ jobState 0x0302 [5, 0, 1, 0] with ctxs := [(5, { job := 2, home := 3, patterns := [(1, { header := [], steps := [], ver := 1 })] })] }, 1, reqOf 0x0302 [5, 0, 1, 0], by decide +kernel⟩⟩
set_option maxRecDepth 20000 in
theorem test_mailbox_rounds_and_tests_met_1 :
    (∃ (s : State) (m : Fin 4) (q : Req), (served m 0x0401 q s = true) ∧ (roundBad s q = false)) ∧
    (∃ (s : State) (m : Fin 4) (q : Req) (x : Ctx), (served m 0x0410 q s = true) ∧ (shaped q 6 [] = true) ∧ (ctx? s (qf q 0 2) = some x) ∧ (qf q 2 2 < 4096) ∧ ((maskPtns q 2).all (fun p => (ctxPtns s (qf q 0 2)).contains p) = true) ∧ (1 ≤ qf q 4 2) ∧ (qf q 4 2 ≤ 1000)) ∧
    (∃ (s : State) (m : Fin 4) (q : Req) (g : Reg), (served m 0x0411 q s = true) ∧ (shaped q 10 [(1, 1)] = true) ∧ (qf q 0 1 ≤ 11) ∧ (qf q 2 2 ≤ qf q 4 2) ∧ (qf q 4 2 ≤ 51200) ∧ (qf q 6 2 ≤ qf q 8 2) ∧ (qf q 8 2 ≤ 51200) ∧ (g = (ptn s (qf q 0 1)).reg)) ∧
    (∃ (s : State) (m : Fin 4) (q : Req) (x : Ptn), (served m 0x0412 q s = true) ∧ (shaped q 20 [(3, 5)] = true) ∧ ((ctx? s (qf q 0 2)).isSome = true) ∧ (qf q 2 1 = 0) ∧ (qf q 8 8 % 64 = 0) ∧ (qf q 16 4 % 64 = 0) ∧ (qf q 16 4 ≠ 0) ∧ (inJobWindow s (ctxJob s (qf q 0 2)) (qf q 8 8) (qf q 16 4) = true) ∧ (addPin { start := stackOff (qf q 8 8), len := qf q 16 4, why := .software (ctxJob s (qf q 0 2)) } (ptn (demand (homePtn (qf q 8 8)) s) (homePtn (qf q 8 8))) = some x)) ∧
    (∃ (s : State) (m : Fin 4) (q : Req), (served m 0x0412 q s = true) ∧ (shaped q 20 [(3, 5)] = true) ∧ ((ctx? s (qf q 0 2)).isSome = true) ∧ (qf q 2 1 = 2) ∧ (qf q 8 8 % 64 = 0) ∧ (qf q 16 4 % 64 = 0) ∧ (qf q 16 4 ≠ 0) ∧ (inJobWindow s (ctxJob s (qf q 0 2)) (qf q 8 8) (qf q 16 4) = true)) ∧
    (∃ (s : State) (m : Fin 4) (q : Req), (served m 0x0412 q s = true) ∧ (shaped q 20 [(3, 5)] = true) ∧ ((ctx? s (qf q 0 2)).isSome = true) ∧ (qf q 2 1 = 1) ∧ (qf q 8 8 % 64 = 0) ∧ (qf q 16 4 % 64 = 0) ∧ (qf q 16 4 ≠ 0) ∧ (inJobWindow s (ctxJob s (qf q 0 2)) (qf q 8 8) (qf q 16 4) = true)) ∧
    (∃ (s : State) (m : Fin 4) (q : Req), (served m 0x0501 q s = true) ∧ ((openTickets s).length < 64) ∧ (routesBad s q = false) ∧ (spanningBusy s = true)) ∧
    (∃ (s : State) (m : Fin 4) (q : Req) (u : State), (served m 0x0501 q s = true) ∧ (routesBad s q = false) ∧ (spanningBusy s = false) ∧ (u = updAon (fun a => { a with modid := qf q 0 1, enable := BitVec.ofNat 4 (qf q 1 1), peers := (upto 4).map fun n => qf q (2 + n) 1, dateline := BitVec.ofNat 4 (qf q 6 1), routes := (upto 64).map fun i => BitVec.ofNat 16 (qf q (8 + 2 * i) 2) }) (updIcern (fun i => { i with hold := true }) s))) :=
  ⟨⟨jobState 0x0401 [3, 4, 1, 0, 0, 8, 0, 0, 0, 0, 0, 0, 0, 0, 0, 0, 255, 255, 1, 0, 0, 8, 0, 0], 1, reqOf 0x0401 [3, 4, 1, 0, 0, 8, 0, 0, 0, 0, 0, 0, 0, 0, 0, 0, 255, 255, 1, 0, 0, 8, 0, 0], by decide +kernel⟩,
   ⟨jobState 0x0410 [5, 0, 8, 0, 232, 3], 1, reqOf 0x0410 [5, 0, 8, 0, 232, 3], { job := 2, home := 3 }, by decide +kernel⟩,
   ⟨jobState 0x0411 [3, 0, 1, 0, 0, 200, 100, 0, 0, 200], 1, reqOf 0x0411 [3, 0, 1, 0, 0, 200, 100, 0, 0, 200], {}, by decide +kernel⟩,
   ⟨{ jobState 0x0412 [5, 0, 0, 0, 0, 0, 0, 0, 0, 0, 0, 0, 49, 0, 0, 0, 64, 0, 0, 0] with ctxs := [(5, { job := 2, home := 3, mwins := [(0, { ptn := 3, region := 0, regions := 1, r := true, w := true, a := true })] })] }, 1, reqOf 0x0412 [5, 0, 0, 0, 0, 0, 0, 0, 0, 0, 0, 0, 49, 0, 0, 0, 64, 0, 0, 0], (addPin { start := stackOff 0x3100000000, len := 64, why := .software 2 } { job := some 2, power := .forge, service := .inService }).getD {}, by decide +kernel⟩,
   ⟨{ jobState 0x0412 [5, 0, 2, 0, 0, 0, 0, 0, 0, 0, 0, 0, 49, 0, 0, 0, 64, 0, 0, 0] with ctxs := [(5, { job := 2, home := 3, mwins := [(0, { ptn := 3, region := 0, regions := 1, r := true, w := true, a := true })] })] }, 1, reqOf 0x0412 [5, 0, 2, 0, 0, 0, 0, 0, 0, 0, 0, 0, 49, 0, 0, 0, 64, 0, 0, 0], by decide +kernel⟩,
   ⟨{ jobState 0x0412 [5, 0, 1, 0, 0, 0, 0, 0, 0, 0, 0, 0, 49, 0, 0, 0, 64, 0, 0, 0] with ctxs := [(5, { job := 2, home := 3, mwins := [(0, { ptn := 3, region := 0, regions := 1, r := true, w := true, a := true })] })] }, 1, reqOf 0x0412 [5, 0, 1, 0, 0, 0, 0, 0, 0, 0, 0, 0, 49, 0, 0, 0, 64, 0, 0, 0], by decide +kernel⟩,
   ⟨{ jobState 0x0501 [0, 0, 255, 255, 255, 255, 0, 0, 0, 0, 0, 0, 0, 0, 0, 0, 0, 0, 0, 0, 0, 0, 0, 0, 0, 0, 0, 0, 0, 0, 0, 0, 0, 0, 0, 0, 0, 0, 0, 0, 0, 0, 0, 0, 0, 0, 0, 0, 0, 0, 0, 0, 0, 0, 0, 0, 0, 0, 0, 0, 0, 0, 0, 0, 0, 0, 0, 0, 0, 0, 0, 0, 0, 0, 0, 0, 0, 0, 0, 0, 0, 0, 0, 0, 0, 0, 0, 0, 0, 0, 0, 0, 0, 0, 0, 0, 0, 0, 0, 0, 0, 0, 0, 0, 0, 0, 0, 0, 0, 0, 0, 0, 0, 0, 0, 0, 0, 0, 0, 0, 0, 0, 0, 0, 0, 0, 0, 0, 0, 0, 0, 0, 0, 0, 0, 0] with jobs := [(2, { ptns := [3], modules := 2, mask := 3, joined := true })], cmds := [(4, routeBusy)] }, 1, reqOf 0x0501 [0, 0, 255, 255, 255, 255, 0, 0, 0, 0, 0, 0, 0, 0, 0, 0, 0, 0, 0, 0, 0, 0, 0, 0, 0, 0, 0, 0, 0, 0, 0, 0, 0, 0, 0, 0, 0, 0, 0, 0, 0, 0, 0, 0, 0, 0, 0, 0, 0, 0, 0, 0, 0, 0, 0, 0, 0, 0, 0, 0, 0, 0, 0, 0, 0, 0, 0, 0, 0, 0, 0, 0, 0, 0, 0, 0, 0, 0, 0, 0, 0, 0, 0, 0, 0, 0, 0, 0, 0, 0, 0, 0, 0, 0, 0, 0, 0, 0, 0, 0, 0, 0, 0, 0, 0, 0, 0, 0, 0, 0, 0, 0, 0, 0, 0, 0, 0, 0, 0, 0, 0, 0, 0, 0, 0, 0, 0, 0, 0, 0, 0, 0, 0, 0, 0, 0], by decide +kernel⟩,
   ⟨jobState 0x0501 [0, 0, 255, 255, 255, 255, 0, 0, 0, 0, 0, 0, 0, 0, 0, 0, 0, 0, 0, 0, 0, 0, 0, 0, 0, 0, 0, 0, 0, 0, 0, 0, 0, 0, 0, 0, 0, 0, 0, 0, 0, 0, 0, 0, 0, 0, 0, 0, 0, 0, 0, 0, 0, 0, 0, 0, 0, 0, 0, 0, 0, 0, 0, 0, 0, 0, 0, 0, 0, 0, 0, 0, 0, 0, 0, 0, 0, 0, 0, 0, 0, 0, 0, 0, 0, 0, 0, 0, 0, 0, 0, 0, 0, 0, 0, 0, 0, 0, 0, 0, 0, 0, 0, 0, 0, 0, 0, 0, 0, 0, 0, 0, 0, 0, 0, 0, 0, 0, 0, 0, 0, 0, 0, 0, 0, 0, 0, 0, 0, 0, 0, 0, 0, 0, 0, 0], 1, reqOf 0x0501 [0, 0, 255, 255, 255, 255, 0, 0, 0, 0, 0, 0, 0, 0, 0, 0, 0, 0, 0, 0, 0, 0, 0, 0, 0, 0, 0, 0, 0, 0, 0, 0, 0, 0, 0, 0, 0, 0, 0, 0, 0, 0, 0, 0, 0, 0, 0, 0, 0, 0, 0, 0, 0, 0, 0, 0, 0, 0, 0, 0, 0, 0, 0, 0, 0, 0, 0, 0, 0, 0, 0, 0, 0, 0, 0, 0, 0, 0, 0, 0, 0, 0, 0, 0, 0, 0, 0, 0, 0, 0, 0, 0, 0, 0, 0, 0, 0, 0, 0, 0, 0, 0, 0, 0, 0, 0, 0, 0, 0, 0, 0, 0, 0, 0, 0, 0, 0, 0, 0, 0, 0, 0, 0, 0, 0, 0, 0, 0, 0, 0, 0, 0, 0, 0, 0, 0], routeSetOf, by decide +kernel⟩⟩
set_option maxRecDepth 20000 in
theorem test_mailbox_rounds_and_tests_met_2 :
    (∃ (s : State) (m : Fin 4) (bad : List BadWord) (q : Req), (served m 0x0801 q s = true) ∧ ((openTickets s).length < 64) ∧ (assayBad s q = false)) ∧
    (∃ (s : State) (m : Fin 4) (q : Req) (a : AssayRec), (served m 0x0802 q s = true) ∧ (shaped q 4 [(3, 1)] = true) ∧ (qf q 0 1 ≤ 11) ∧ (qf q 1 1 ≤ 31) ∧ (qf q 2 1 ≤ 1) ∧ (tget s.hearth.assays (assayKey (qf q 0 1) (qf q 1 1) (qf q 2 1)) = some a)) ∧
    (∃ (s : State) (m : Fin 4) (errs : List Nat) (q : Req), (served m 0x0810 q s = true) ∧ ((openTickets s).length < 64) ∧ (marginBad s m q = false) ∧ ((if qf q 16 8 = 0 then 4096 else qf q 24 4) < (marginOutput q errs).length)) ∧
    (∃ (s : State) (m : Fin 4) (errs : List Nat) (q : Req), (served m 0x0810 q s = true) ∧ ((openTickets s).length < 64) ∧ (marginBad s m q = false) ∧ (qf q 16 8 = 0) ∧ ((marginOutput q errs).length ≤ 4096)) ∧
    (∃ (s : State) (m : Fin 4) (errs : List Nat) (q : Req), (served m 0x0810 q s = true) ∧ ((openTickets s).length < 64) ∧ (marginBad s m q = false) ∧ (qf q 16 8 ≠ 0) ∧ ((marginOutput q errs).length ≤ qf q 24 4) ∧ (s.host.link.up = true) ∧ (s.host.link.d3hot = false)) ∧
    (∃ (s : State) (m : Fin 4) (q : Req), (served m 0x0601 q s = true) ∧ ((openTickets s).length < 64) ∧ (shaped q 1 [] = true) ∧ (qf q 0 1 ≤ 11)) ∧
    (∃ (s : State) (m : Fin 4) (q : Req), (served m 0x0602 q s = true) ∧ (shaped q 1 [] = true) ∧ (qf q 0 1 = 0xC3)) :=
  ⟨⟨mbxState 0x0801 [1, 0, 1, 0, 0, 0, 1, 3, 1, 0, 0, 0, 0, 0, 0, 0, 0, 0, 0, 0, 0, 0, 0, 0, 0, 0, 1, 0, 0, 0, 0, 0], 1, [], reqOf 0x0801 [1, 0, 1, 0, 0, 0, 1, 3, 1, 0, 0, 0, 0, 0, 0, 0, 0, 0, 0, 0, 0, 0, 0, 0, 0, 0, 1, 0, 0, 0, 0, 0], by decide +kernel⟩,
   ⟨{ jobState 0x0802 [1, 2, 1, 0] with hearth := { (jobState 0x0802 [1, 2, 1, 0]).hearth with assays := [(69, { words := 8, bad := [] })] } }, 1, reqOf 0x0802 [1, 2, 1, 0], { words := 8, bad := [] }, by decide +kernel⟩,
   ⟨mbxState 0x0810 [1, 0, 63, 255, 0, 1, 1, 10, 127, 0, 0, 0, 0, 0, 0, 0, 0, 0, 0, 0, 0, 0, 0, 0, 0, 0, 0, 0, 0, 0, 0, 0], 1, [], reqOf 0x0810 [1, 0, 63, 255, 0, 1, 1, 10, 127, 0, 0, 0, 0, 0, 0, 0, 0, 0, 0, 0, 0, 0, 0, 0, 0, 0, 0, 0, 0, 0, 0, 0], by decide +kernel⟩,
   ⟨mbxState 0x0810 [1, 0, 1, 255, 0, 1, 1, 10, 1, 0, 0, 0, 0, 0, 0, 0, 0, 0, 0, 0, 0, 0, 0, 0, 0, 0, 0, 0, 0, 0, 0, 0], 1, [], reqOf 0x0810 [1, 0, 1, 255, 0, 1, 1, 10, 1, 0, 0, 0, 0, 0, 0, 0, 0, 0, 0, 0, 0, 0, 0, 0, 0, 0, 0, 0, 0, 0, 0, 0], by decide +kernel⟩,
   ⟨{ mbxState 0x0810 [1, 0, 1, 255, 0, 1, 1, 10, 1, 0, 0, 0, 0, 0, 0, 0, 0, 0, 16, 0, 0, 0, 0, 0, 0, 16, 0, 0, 0, 0, 0, 0] with host := up1 }, 1, [], reqOf 0x0810 [1, 0, 1, 255, 0, 1, 1, 10, 1, 0, 0, 0, 0, 0, 0, 0, 0, 0, 16, 0, 0, 0, 0, 0, 0, 16, 0, 0, 0, 0, 0, 0], by decide +kernel⟩,
   ⟨jobState 0x0601 [3], 1, reqOf 0x0601 [3], by decide +kernel⟩,
   ⟨jobState 0x0602 [195], 1, reqOf 0x0602 [195], by decide +kernel⟩⟩
set_option maxRecDepth 20000 in
theorem test_mailbox_firmware_met_1 :
    (∃ (s : State) (m : Fin 4) (q : Req), (served m 0x0701 q s = true) ∧ (qf q 0 1 = 0) ∧ (shaped q 2 [] = true) ∧ (s.hearth.stage = none) ∧ (s.hearth.recovery = false) ∧ (qf q 1 1 = 0xFF ∨ (qf q 1 1 ≤ 1 ∧ (qf q 1 1 == 1) = idleSlot s))) ∧
    (∃ (s : State) (m : Fin 4) (q : Req) (reply : ReadReply) (g : FwStage), (served m 0x0701 q s = true) ∧ (qf q 0 1 = 1) ∧ (q.len ≠ 0) ∧ (s.hearth.stage = some g) ∧ (g.mbx = m) ∧ (stageDataBad m q g = false) ∧ (qf q 16 8 = 0)) ∧
    (∃ (s : State) (m : Fin 4) (q : Req) (bs : List Byte) (g : FwStage), (served m 0x0701 q s = true) ∧ (qf q 0 1 = 1) ∧ (q.len ≠ 0) ∧ (s.hearth.stage = some g) ∧ (g.mbx = m) ∧ (stageDataBad m q g = false) ∧ (qf q 16 8 ≠ 0)) ∧
    (∃ (s : State) (m : Fin 4) (q : Req) (g : FwStage) (x : FwSlot) (st : MStatus) (bs : List Byte), (served m 0x0701 q s = true) ∧ ((openTickets s).length < 64) ∧ (qf q 0 1 = 2) ∧ (q.len ≠ 0) ∧ (shaped q 8 [(1, 3)] = true) ∧ (s.hearth.stage = some g) ∧ (g.mbx = m) ∧ (verifyImage s.aon (qf q 4 4) g.bytes = (x, st, bs))) ∧
    (∃ (s : State) (m : Fin 4) (q : Req) (g : FwStage), (served m 0x0701 q s = true) ∧ (qf q 0 1 = 3) ∧ (q.len ≠ 0) ∧ (shaped q 1 [] = true) ∧ (s.hearth.stage = some g) ∧ (g.mbx = m)) ∧
    (∃ (s : State) (m : Fin 4) (q : Req), (served m 0x0702 q s = true) ∧ (qf q 0 1 = 0) ∧ (q.len ≠ 0) ∧ (shaped q 1 [] = true) ∧ (trialBad s q = false)) ∧
    (∃ (s : State) (m : Fin 4) (q : Req), (served m 0x0702 q s = true) ∧ (qf q 0 1 = 1) ∧ (q.len ≠ 0) ∧ (shaped q 1 [] = true) ∧ (s.aon.trial = true) ∧ ((fwSlot s.aon s.aon.running).sv ≤ s.aon.rollback)) ∧
    (∃ (s : State) (m : Fin 4) (q : Req), (served m 0x0702 q s = true) ∧ ((openTickets s).length < 64) ∧ (qf q 0 1 = 1) ∧ (q.len ≠ 0) ∧ (shaped q 1 [] = true) ∧ (s.aon.trial = true) ∧ (s.aon.rollback < (fwSlot s.aon s.aon.running).sv)) :=
  ⟨⟨jobState 0x0701 [0, 255], 1, reqOf 0x0701 [0, 255], by decide +kernel⟩,
   ⟨{ jobState 0x0701 [1, 0, 0, 0, 0, 0, 0, 0, 4, 0, 0, 0, 0, 0, 0, 0, 0, 0, 0, 0, 0, 0, 0, 0, 0, 0, 0, 0, 0, 0, 0, 0, 1, 2, 3, 4] with hearth := { (jobState 0x0701 [1, 0, 0, 0, 0, 0, 0, 0, 4, 0, 0, 0, 0, 0, 0, 0, 0, 0, 0, 0, 0, 0, 0, 0, 0, 0, 0, 0, 0, 0, 0, 0, 1, 2, 3, 4]).hearth with stage := some { mbx := 1, slot := 1, bytes := [] } } }, 1, reqOf 0x0701 [1, 0, 0, 0, 0, 0, 0, 0, 4, 0, 0, 0, 0, 0, 0, 0, 0, 0, 0, 0, 0, 0, 0, 0, 0, 0, 0, 0, 0, 0, 0, 0, 1, 2, 3, 4], .timeout, { mbx := 1, slot := 1, bytes := [] }, by decide +kernel⟩,
   ⟨{ jobState 0x0701 [1, 0, 0, 0, 0, 0, 0, 0, 4, 0, 0, 0, 0, 0, 0, 0, 64, 0, 0, 0, 0, 0, 0, 0] with hearth := { (jobState 0x0701 [1, 0, 0, 0, 0, 0, 0, 0, 4, 0, 0, 0, 0, 0, 0, 0, 64, 0, 0, 0, 0, 0, 0, 0]).hearth with stage := some { mbx := 1, slot := 1, bytes := [] } } }, 1, reqOf 0x0701 [1, 0, 0, 0, 0, 0, 0, 0, 4, 0, 0, 0, 0, 0, 0, 0, 64, 0, 0, 0, 0, 0, 0, 0], [1, 2, 3, 4], { mbx := 1, slot := 1, bytes := [] }, by decide +kernel⟩,
   ⟨{ jobState 0x0701 [2, 0, 0, 0, 0, 0, 0, 0] with hearth := { (jobState 0x0701 [2, 0, 0, 0, 0, 0, 0, 0]).hearth with stage := some { mbx := 1, slot := 1, bytes := [] } } }, 1, reqOf 0x0701 [2, 0, 0, 0, 0, 0, 0, 0], { mbx := 1, slot := 1, bytes := [] }, {}, .authFailed, [], by decide +kernel⟩,
   ⟨{ jobState 0x0701 [3] with hearth := { (jobState 0x0701 [3]).hearth with stage := some { mbx := 1, slot := 1, bytes := [] } } }, 1, reqOf 0x0701 [3], { mbx := 1, slot := 1, bytes := [] }, by decide +kernel⟩,
   ⟨{ jobState 0x0702 [0] with aon := { State.reset.aon with slotA := { valid := true }, slotB := { valid := true }, running := false, trial := false } }, 1, reqOf 0x0702 [0], by decide +kernel⟩,
   ⟨{ jobState 0x0702 [1] with aon := { State.reset.aon with trial := true } }, 1, reqOf 0x0702 [1], by decide +kernel⟩,
   ⟨{ jobState 0x0702 [1] with aon := { State.reset.aon with slotA := { valid := true, sv := 5 }, slotB := { valid := true, sv := 5 }, trial := true } }, 1, reqOf 0x0702 [1], by and_intros <;> first | decide +kernel | rfl | simp⟩⟩
set_option maxRecDepth 20000 in
theorem test_mailbox_firmware_met_2 :
    (∃ (s : State) (m : Fin 4) (q : Req), (served m 0x0702 q s = true) ∧ (qf q 0 1 = 2) ∧ (q.len ≠ 0) ∧ (shaped q 1 [] = true) ∧ (s.aon.trial = true) ∧ (slotValid s.aon s.aon.committed = true)) ∧
    (∃ (s : State) (m : Fin 4) (q : Req), (served m 0x0702 q s = true) ∧ (qf q 0 1 = 3) ∧ (q.len ≠ 0) ∧ (shaped q 1 [] = true) ∧ (slotValid s.aon (!s.aon.running) = true)) ∧
    (∃ (s : State) (m : Fin 4) (q : Req) (k : SpdmKind) (body : List Byte), (served m 0x0710 q s = true) ∧ (qf q 0 1 ≤ 1) ∧ (qf q 2 2 ≠ 0) ∧ (qf q 2 2 ≤ 4092) ∧ (shaped q (4 + qf q 2 2) [(1, 1)] = true) ∧ (k = attestKind s (qf q 0 1 == 1) (q.bytes.drop 4)) ∧ (body = (spdmReply s .attest k (q.bytes.drop 4)).take 4092)) ∧
    (∃ (s : State) (tr : SpdmTransport) (k : SpdmKind) (msg : List Byte), (s.hearthUp = true) ∧ (tr ≠ .attest)) :=
  ⟨⟨{ jobState 0x0702 [2] with aon := { State.reset.aon with trial := true } }, 1, reqOf 0x0702 [2], by decide +kernel⟩,
   ⟨{ jobState 0x0702 [3] with aon := { State.reset.aon with slotA := { valid := true }, slotB := { valid := true } } }, 1, reqOf 0x0702 [3], by and_intros <;> first | decide +kernel | rfl | simp⟩,
   ⟨mbxState 0x0710 [0, 0, 4, 0, 0x10, 0x84, 0, 0], 1, reqOf 0x0710 [0, 0, 4, 0, 0x10, 0x84, 0, 0], .other, (spdmReply (mbxState 0x0710 [0, 0, 4, 0, 0x10, 0x84, 0, 0]) .attest .other [0x10, 0x84, 0, 0]).take 4092, by and_intros <;> first | decide +kernel | rfl | simp⟩,
   ⟨mbxState 1 [], .doe, .keyExchange, [], by and_intros <;> first | decide +kernel | rfl | simp⟩⟩
set_option maxRecDepth 20000 in
theorem test_busy_commands_met_1 :
    (∃ (s : State) (n : Nat) (k : Ticket) (x : Job), (tget s.hearth.tickets n = some k) ∧ (k.rsp = none) ∧ ((hearthRuns s || s.hearth.recovery) = true) ∧ (k.work = .jobCreate (qf k.req 0 1) [] false) ∧ (job? (makeJob k.req s) (qf k.req 0 1) = some x)) ∧
    (∃ (s : State) (n : Nat) (k : Ticket) (j : Nat) (l : List Nat), (tget s.hearth.tickets n = some k) ∧ (k.rsp = none) ∧ ((hearthRuns s || s.hearth.recovery) = true) ∧ (k.work = .jobCreate j l true)) ∧
    (∃ (s : State) (n : Nat) (k : Ticket) (j : Nat), (tget s.hearth.tickets n = some k) ∧ (k.rsp = none) ∧ ((hearthRuns s || s.hearth.recovery) = true) ∧ (k.work = .jobEnd j) ∧ (jobQuiet s j = true)) ∧
    (∃ (s : State) (n : Nat) (k : Ticket) (r : Nat), (tget s.hearth.tickets n = some k) ∧ (k.rsp = none) ∧ ((hearthRuns s || s.hearth.recovery) = true) ∧ (k.work = .ringDestroy r) ∧ (ringLive s r = [])) ∧
    (∃ (s : State) (n : Nat) (k : Ticket) (r : Nat), (tget s.hearth.tickets n = some k) ∧ (k.rsp = none) ∧ ((hearthRuns s || s.hearth.recovery) = true) ∧ (k.work = .ringDisable r) ∧ (ringLive s r = [])) ∧
    (∃ (s : State) (n : Nat) (k : Ticket) (c : Nat), (tget s.hearth.tickets n = some k) ∧ (k.rsp = none) ∧ ((hearthRuns s || s.hearth.recovery) = true) ∧ (k.work = .collDelete c) ∧ ((coll s c).state ≠ .free) ∧ (collCmds s c = [])) ∧
    (∃ (s : State) (n : Nat) (k : Ticket) (c : Nat) (joined : Bool), (tget s.hearth.tickets n = some k) ∧ (k.rsp = none) ∧ ((hearthRuns s || s.hearth.recovery) = true) ∧ (k.work = .train c joined) ∧ ((coll s c).state = .redistributing ∨ (coll s c).state = .trained) ∧ (epochLe (coll s c).trainEp (coll s c).latest = true)) ∧
    (∃ (s : State) (n : Nat) (k : Ticket) (c : Nat) (joined : Bool), (tget s.hearth.tickets n = some k) ∧ (k.rsp = none) ∧ ((hearthRuns s || s.hearth.recovery) = true) ∧ (k.work = .train c joined) ∧ ((coll s c).state = .suspect ∨ (coll s c).state = .free)) :=
  ⟨⟨{ State.reset with hearthUp := true, hearth := { awake := true, tickets := [(9, mkTk)] } }, 9, mkTk, { ptns := [0], modules := 1, root := 0, mask := 1, kill := false, joined := true }, by decide +kernel⟩,
   ⟨{ State.reset with hearthUp := true, hearth := { awake := true, tickets := [(9, tk (.jobCreate 0 [0] true))] } }, 9, tk (.jobCreate 0 [0] true), 0, [0], by decide +kernel⟩,
   ⟨{ jobState 1 [] with hearth := { awake := true, tickets := [(9, tk (.jobEnd 2))] } }, 9, tk (.jobEnd 2), 2, by decide +kernel⟩,
   ⟨{ jobState 1 [] with hearth := { awake := true, tickets := [(9, tk (.ringDestroy 7))] } }, 9, tk (.ringDestroy 7), 7, by decide +kernel⟩,
   ⟨{ jobState 1 [] with hearth := { awake := true, tickets := [(9, tk (.ringDisable 7))] } }, 9, tk (.ringDisable 7), 7, by decide +kernel⟩,
   ⟨{ jobState 1 [] with hearth := { awake := true, tickets := [(9, tk (.collDelete 6))] } }, 9, tk (.collDelete 6), 6, by decide +kernel⟩,
   ⟨{ jobState 1 [] with hearth := { awake := true, tickets := [(9, tk (.train 6 false))] }, colls := [(6, { job := 2, state := .trained, trainEp := 1, latest := 1 })] }, 9, tk (.train 6 false), 6, false, by decide +kernel⟩,
   ⟨{ State.reset with hearthUp := true, hearth := { awake := true, tickets := [(9, tk (.train 6 true))] } }, 9, tk (.train 6 true), 6, true, by decide +kernel⟩⟩
set_option maxRecDepth 20000 in
theorem test_busy_commands_met_2 :
    (∃ (s : State) (n : Nat) (k : Ticket) (p : Nat), (tget s.hearth.tickets n = some k) ∧ (k.rsp = none) ∧ ((hearthRuns s || s.hearth.recovery) = true) ∧ (k.work = .reset p) ∧ ((ptn s p).fence = none)) ∧
    (∃ (s : State) (n : Nat) (k : Ticket) (ps cold : List Nat) (bs : List Byte), (tget s.hearth.tickets n = some k) ∧ (k.rsp = none) ∧ ((hearthRuns s || s.hearth.recovery) = true) ∧ (k.work = .test ps cold bs) ∧ (∀ p ∈ ps, (ptn s p).power = .forge)) ∧
    (∃ (s : State) (n : Nat) (k : Ticket) (st : MStatus) (bs : List Byte) (dt : Nat), (tget s.hearth.tickets n = some k) ∧ (k.rsp = none) ∧ ((hearthRuns s || s.hearth.recovery) = true) ∧ (k.work = .ready st bs dt)) ∧
    (∃ (s : State) (n : Nat) (k : Ticket) (q : Req) (reply : ReadReply) (u : State) (st : MStatus) (bs : List Byte) (dt : Nat), (tget s.hearth.tickets n = some k) ∧ (k.rsp = none) ∧ ((hearthRuns s || s.hearth.recovery) = true) ∧ (k.work = .held q reply) ∧ (stillHeld s k = false) ∧ (runReq (handlerOf q) k.mbx q reply s = (u, .done st bs dt))) ∧
    (∃ (s : State) (n : Nat) (k : Ticket), (tget s.hearth.tickets n = some k) ∧ (k.rsp = none) ∧ ((hearthRuns s || s.hearth.recovery) = true) ∧ (ticketWaits s k = true)) ∧
    (∃ (s : State) (n : Nat) (k : Ticket) (sv : Nat), (tget s.hearth.tickets n = some k) ∧ (k.rsp = none) ∧ ((hearthRuns s || s.hearth.recovery) = true) ∧ (k.work = .raise sv) ∧ (s.aon.rollback + 1 < sv)) ∧
    (∃ (s : State) (n : Nat) (k : Ticket) (sv : Nat), (tget s.hearth.tickets n = some k) ∧ (k.rsp = none) ∧ ((hearthRuns s || s.hearth.recovery) = true) ∧ (k.work = .raise sv) ∧ (sv = s.aon.rollback + 1)) ∧
    (∃ (s : State) (n : Nat) (k : Ticket), (tget s.hearth.tickets n = some k) ∧ (k.rsp = none) ∧ ((hearthRuns s || s.hearth.recovery) = false)) :=
  ⟨⟨{ State.reset with hearthUp := true, hearth := { awake := true, tickets := [(9, tk (.reset 3))] } }, 9, tk (.reset 3), 3, by decide +kernel⟩,
   ⟨{ jobState 1 [] with hearth := { awake := true, tickets := [(9, tk (.test [3] [] [1]))] } }, 9, tk (.test [3] [] [1]), [3], [], [1], by decide +kernel⟩,
   ⟨{ State.reset with hearthUp := true, hearth := { awake := true, tickets := [(9, tk (.ready .range [] 0))] } }, 9, tk (.ready .range [] 0), .range, [], 0, by decide +kernel⟩,
   ⟨{ State.reset with hearthUp := true, hearth := { awake := true, tickets := [(9, tk (.held (reqOf 4 [0, 0, 0]) .timeout))] } }, 9, tk (.held (reqOf 4 [0, 0, 0]) .timeout), reqOf 4 [0, 0, 0], .timeout, { State.reset with hearthUp := true, hearth := { awake := true, tickets := [(9, tk (.held (reqOf 4 [0, 0, 0]) .timeout))] } }, .invalidField, [], 0, by decide +kernel⟩,
   ⟨{ mbxState 1 [] with hearth := { awake := true, tickets := [(3, tk (.jobCreate 2 [3] false))] } }, 3, tk (.jobCreate 2 [3] false), by decide +kernel⟩,
   ⟨raiseState 9, 9, tk (.raise 9), 9, by decide +kernel⟩,
   ⟨raiseState 1, 9, tk (.raise 1), 1, by decide +kernel⟩,
   ⟨{ raiseState 1 with hearthUp := false }, 9, tk (.raise 1), by decide +kernel⟩⟩
set_option maxRecDepth 20000 in
theorem test_busy_commands_met_3 :
    (∃ (s : State) (n : Nat), ((tget s.hearth.tickets n).any (fun k => k.rsp.isSome) = true)) :=
  ⟨{ State.reset with hearth := { tickets := [(9, { tk (.reset 0) with rsp := some { status := .ok } })] } }, 9, by decide +kernel⟩
set_option maxRecDepth 20000 in
theorem test_hearth_events_met :
    (∃ (s : State), (s.hearth.wakeDue = true) ∧ (s.hearth.awake = false) ∧ (s.hearthUp = true)) ∧
    (∃ (s : State), (hearthIdle s = true)) ∧
    (∃ (s : State), (s.hearth.restarting = true) ∧ (s.hearthUp = false)) ∧
    (∃ (s : State), (s.aon.trial = true) ∧ (s.hearthUp = false) ∧ (s.hearth.restarting = true)) ∧
    (∃ (s : State) (cause : HearthCause) (core : Fin 4), (secondFault s = false)) ∧
    (∃ (s : State), (secondFault s = true) ∧ (covered .l3 s = false)) ∧
    (∃ (s : State) (m : Fin 4), ((mbx s m).state = 1 ∨ (mbx s m).state = 2) ∧ (secondFault s = false)) ∧
    (∃ (s : State), (s.hearth.restarting = true) ∧ (s.hearthUp = false) ∧ (covered .l3 s = false)) :=
  ⟨⟨{ State.reset with hearthUp := true, hearth := { wakeDue := true } }, by decide +kernel⟩,
   ⟨{ State.reset with hearth := { awake := true } }, by decide +kernel⟩,
   ⟨{ State.reset with hearth := { restarting := true } }, by decide +kernel⟩,
   ⟨{ State.reset with aon := { State.reset.aon with trial := true }, hearth := { restarting := true } }, by decide +kernel⟩,
   ⟨{ State.reset with hearthUp := true, hearth := { lastFault := some 0 }, aon := { State.reset.aon with ticks := 3750000000 } }, .core, 2, by decide +kernel⟩,
   ⟨{ State.reset with hearthUp := true, hearth := { lastFault := some 0 } }, by decide +kernel⟩,
   ⟨mbxState 1 [], 1, by decide +kernel⟩,
   ⟨{ State.reset with hearth := { restarting := true } }, by decide +kernel⟩⟩

set_option maxRecDepth 20000 in
theorem test_sequencer_steps_met_1 :
    (∃ (p : Fin 12) (a : Fin 864) (w : W128) (s : State), (meets s p a 0x00 w = true)) ∧
    (∃ (p : Fin 12) (a : Fin 864) (w : W128) (s : State), (stepWordAt s p a 0x01 = some w) ∧ (stepCondition s p a w = true)) ∧
    (∃ (p : Fin 12) (a : Fin 864) (w : W128) (s : State), (stepWordAt s p a 0x01 = some w) ∧ (stepCondition s p a w = false)) ∧
    (∃ (p : Fin 12) (a : Fin 864) (w : W128) (s : State), (stepWordAt s p a 0x02 = some w) ∧ (counter (anvil s p a) (stepCounter w) > 1)) ∧
    (∃ (p : Fin 12) (a : Fin 864) (w : W128) (s : State), (stepWordAt s p a 0x02 = some w) ∧ (counter (anvil s p a) (stepCounter w) = 0 ∨ counter (anvil s p a) (stepCounter w) = 1)) ∧
    (∃ (p : Fin 12) (a : Fin 864) (w : W128) (s : State), (meets s p a 0x03 w = true)) ∧
    (∃ (p : Fin 12) (a : Fin 864) (w : W128) (s : State), (meets s p a 0x04 w = true) ∧ ((((upto (stCount w)).map fun j => stDest w + 4 * j).any fun k => badCapacity k (stParam w) (anvil s p a)) = false)) ∧
    (∃ (p : Fin 12) (a : Fin 864) (w : W128) (s : State), (meets s p a 0x04 w = true) ∧ ((((upto (stCount w)).map fun j => stDest w + 4 * j).any fun k => badCapacity k (stParam w) (anvil s p a)) = true)) :=
  ⟨⟨3, 5, stepWord 0 0 0 0 0 0 0 0, anvilState (stepWord 0 0 0 0 0 0 0 0) {}, by decide +kernel⟩,
   ⟨3, 5, stepWord 1 0 0 0 0 0 7 0, anvilState (stepWord 1 0 0 0 0 0 7 0) {}, by decide +kernel⟩,
   ⟨3, 5, stepWord 1 128 0 0 0 0 7 0, anvilState (stepWord 1 128 0 0 0 0 7 0) {}, by decide +kernel⟩,
   ⟨3, 5, stepWord 2 0 0 1 0 0 7 0, anvilState (stepWord 2 0 0 1 0 0 7 0) { cnt := [0, 2, 0, 0] }, by decide +kernel⟩,
   ⟨3, 5, stepWord 2 0 0 1 0 0 7 0, anvilState (stepWord 2 0 0 1 0 0 7 0) { cnt := [0, 1, 0, 0] }, by decide +kernel⟩,
   ⟨3, 5, stepWord 3 0 9 2 0 0 0 0, anvilState (stepWord 3 0 9 2 0 0 0 0) {}, by decide +kernel⟩,
   ⟨3, 5, stepWord 4 0 2 0 0 63968 0 2097184, anvilState (stepWord 4 0 2 0 0 63968 0 2097184) {}, by decide +kernel⟩,
   ⟨3, 5, stepWord 4 0 1 0 0 63968 0 0, anvilState (stepWord 4 0 1 0 0 63968 0 0) { lanes := [{ cmd := 1, row := 0 }] }, by decide +kernel⟩⟩
set_option maxRecDepth 20000 in
theorem test_sequencer_steps_met_2 :
    (∃ (p : Fin 12) (a : Fin 864) (w : W128) (s : State) (d : Nat × Desc), (meets s p a 0x05 w = true) ∧ ((anvil s p a).chunk = none) ∧ (bindingFull s p a = false) ∧ (waitingDesc s p a = some d)) ∧
    (∃ (p : Fin 12) (a : Fin 864) (w : W128) (s : State), (meets s p a 0x05 w = true) ∧ ((anvil s p a).chunk = none) ∧ (bindingFull s p a = true ∨ waitingDesc s p a = none) ∧ (bindingClosed s p a = true)) ∧
    (∃ (p : Fin 12) (a : Fin 864) (w : W128) (s : State), (meets s p a 0x05 w = true) ∧ ((anvil s p a).chunk = none) ∧ (waitingDesc s p a = none) ∧ (bindingClosed s p a = false)) ∧
    (∃ (p : Fin 12) (a : Fin 864) (w : W128) (s : State) (k : Chunk) (b : Desc) (r : List Desc), (meets s p a 0x05 w = true) ∧ ((anvil s p a).chunk = some k) ∧ ((anvil s p a).closing = false) ∧ (k.bricks = b :: r)) ∧
    (∃ (p : Fin 12) (a : Fin 864) (w : W128) (s : State) (k : Chunk), (meets s p a 0x05 w = true) ∧ ((anvil s p a).chunk = some k) ∧ ((anvil s p a).closing = true ∨ k.bricks = [])) ∧
    (∃ (p : Fin 12) (a : Fin 864) (w : W128) (s : State), (meets s p a 0x06 w = true)) ∧
    (∃ (p : Fin 12) (a : Fin 864) (w : W128) (s : State), (meets s p a 0x07 w = true)) ∧
    (∃ (p : Fin 12) (a : Fin 864) (w : W128) (s : State), (meets s p a 0x14 w = true)) :=
  ⟨⟨3, 5, stepWord 5 0 0 0 0 63488 0 0, nextState, (0, nextDesc), by decide +kernel⟩,
   ⟨3, 5, stepWord 5 0 0 0 0 63488 0 0, anvilState (stepWord 5 0 0 0 0 63488 0 0) {}, by decide +kernel⟩,
   ⟨3, 5, stepWord 5 0 0 0 0 63488 0 0, { nextState with ptns := tmap (fun _ x => { x with rowQ := [] }) nextState.ptns }, by decide +kernel⟩,
   ⟨3, 5, stepWord 5 0 0 0 0 63488 0 0, anvilState (stepWord 5 0 0 0 0 63488 0 0) { chunk := some workChunk }, workChunk, nextDesc, [], by decide +kernel⟩,
   ⟨3, 5, stepWord 5 0 0 0 0 63488 0 0, anvilState (stepWord 5 0 0 0 0 63488 0 0) { chunk := some { workChunk with bricks := [] } }, { workChunk with bricks := [] }, by decide +kernel⟩,
   ⟨3, 5, stepWord 6 0 0 0 0 0 0 0, anvilState (stepWord 6 0 0 0 0 0 0 0) {}, by decide +kernel⟩,
   ⟨3, 5, stepWord 7 0 0 0 0 0 0 0, anvilState (stepWord 7 0 0 0 0 0 0 0) {}, by decide +kernel⟩,
   ⟨3, 5, stepWord 20 0 0 0 0 0 0 0, anvilState (stepWord 20 0 0 0 0 0 0 0) {}, by decide +kernel⟩⟩
set_option maxRecDepth 20000 in
theorem test_sequencer_steps_met_3 :
    (∃ (p : Fin 12) (a : Fin 864) (w : W128) (s : State), (stepWordAt s p a 0x08 = some w) ∧ (preempting s p a = false)) ∧
    (∃ (p : Fin 12) (a : Fin 864) (w : W128) (s : State), (stepWordAt s p a 0x08 = some w) ∧ (preempting s p a = true) ∧ ((anvil s p a).outst.isEmpty = false)) ∧
    (∃ (p : Fin 12) (a : Fin 864) (w : W128) (s : State), (stepWordAt s p a 0x08 = some w) ∧ (preempting s p a = true) ∧ ((anvil s p a).outst.isEmpty = true)) ∧
    (∃ (p : Fin 12) (a : Fin 864) (w : W128) (s : State), (stepWordAt s p a 0x09 = some w)) ∧
    (∃ (p : Fin 12) (a : Fin 864) (c : Nat) (k : Chunk) (s : State), (exportAt s p a = some (c, k))) ∧
    (∃ (p : Fin 12) (a : Fin 864) (w : W128) (s : State), (stepWordAt s p a 0x31 = some w) ∧ (stepCondition s p a w = true)) ∧
    (∃ (p : Fin 12) (a : Fin 864) (w : W128) (s : State), (stepWordAt s p a 0x31 = some w) ∧ (stepCondition s p a w = false)) ∧
    (∃ (p : Fin 12) (a : Fin 864) (s : State), (issuing (anvil s p a) = true) ∧ ((anvil s p a).pattern ≥ 0x100) ∧ ((anvil s p a).cyc > 3600) ∧ (preempting s p a = false)) :=
  ⟨⟨3, 5, stepWord 8 0 0 0 0 0 7 0, anvilState (stepWord 8 0 0 0 0 0 7 0) {}, by decide +kernel⟩,
   ⟨3, 5, stepWord 8 0 0 0 0 0 7 0, anvilState (stepWord 8 0 0 0 0 0 7 0) { preempt := true, outst := [{ dest := 0, addr := 0 }] }, by decide +kernel⟩,
   ⟨3, 5, stepWord 8 0 0 0 0 0 7 0, anvilState (stepWord 8 0 0 0 0 0 7 0) { preempt := true }, by decide +kernel⟩,
   ⟨3, 5, stepWord 9 0 0 0 0 0 0 0, anvilState (stepWord 9 0 0 0 0 0 0 0) {}, by decide +kernel⟩,
   ⟨3, 5, 1, { kind := 5, ctx := 5, cmd := some 1, bricks := [nextDesc] }, anvilState 0 { chunk := some { kind := 5, ctx := 5, cmd := some 1, bricks := [nextDesc] } }, by decide +kernel⟩,
   ⟨3, 5, stepWord 49 0 0 0 0 0 7 0, anvilState (stepWord 49 0 0 0 0 0 7 0) {}, by decide +kernel⟩,
   ⟨3, 5, stepWord 49 128 0 0 0 0 7 0, anvilState (stepWord 49 128 0 0 0 0 7 0) {}, by decide +kernel⟩,
   ⟨3, 5, anvilState 0 { cyc := 3601 }, by decide +kernel⟩⟩
set_option maxRecDepth 20000 in
theorem test_sequencer_steps_met_4 :
    (∃ (p : Fin 12) (a : Fin 864) (s : State), (issuing (anvil s p a) = true) ∧ ((anvil s p a).pattern ≥ 0x100) ∧ ((anvil s p a).cyc > 3600) ∧ (preempting s p a = true)) :=
  ⟨3, 5, anvilState 0 { cyc := 3601, preempt := true }, by decide +kernel⟩
set_option maxRecDepth 20000 in
theorem test_anvil_memory_steps_met_1 :
    (∃ (p : Fin 12) (a : Fin 864) (n : Nat) (ls : List LaneReq) (k : Cmd) (s : State), (ls.head?.bind (laneCmd s) = some k) ∧ (mayBind s p a n ls k = true) ∧ (firstWork s p (waitingFor s p a) = none) ∧ (n = 1 ∨ 0x100 ≤ n)) ∧
    (∃ (p : Fin 12) (a : Fin 864) (n : Nat) (ls : List LaneReq) (k : Cmd) (d : Nat × Desc) (s : State), (ls.head?.bind (laneCmd s) = some k) ∧ (mayBind s p a n ls k = true) ∧ (firstWork s p (waitingFor s p a) = some (.desc d)) ∧ (d.2.pattern = n) ∧ (sameLanes d.2.lanes ls = true)) ∧
    (∃ (p : Fin 12) (a : Fin 864) (w : W128) (s : State), (meets s p a 0x10 w = true) ∧ ((anvil s p a).desc = none)) ∧
    (∃ (p : Fin 12) (a : Fin 864) (w : W128) (s : State) (d : Desc) (i : Nat), (meets s p a 0x10 w = true) ∧ ((anvil s p a).desc = some d) ∧ ((if bit (stParam w) 27 then (counter (anvil s p a) (bits (stParam w) 25 24)).toNat - 1 else stParam w % 65536) = i) ∧ ((listed (anvil s p a) && decide (ceilDiv (descPart s d (bits (stParam w) 31 28) i (stCount w)).length 64 > stCount w)) = false) ∧ ((linesWait (anvil s p a) (ceilDiv (descPart s d (bits (stParam w) 31 28) i (stCount w)).length 64) || storing (anvil s p a) (stDest w) (descPart s d (bits (stParam w) 31 28) i (stCount w)).length) = true)) ∧
    (∃ (p : Fin 12) (a : Fin 864) (w : W128) (s : State) (d : Desc) (i : Nat), (meets s p a 0x10 w = true) ∧ ((anvil s p a).desc = some d) ∧ ((if bit (stParam w) 27 then (counter (anvil s p a) (bits (stParam w) 25 24)).toNat - 1 else stParam w % 65536) = i) ∧ ((listed (anvil s p a) && decide (ceilDiv (descPart s d (bits (stParam w) 31 28) i (stCount w)).length 64 > stCount w)) = false) ∧ ((linesWait (anvil s p a) (ceilDiv (descPart s d (bits (stParam w) 31 28) i (stCount w)).length 64) || storing (anvil s p a) (stDest w) (descPart s d (bits (stParam w) 31 28) i (stCount w)).length) = false)) ∧
    (∃ (p : Fin 12) (a : Fin 864) (w : W128) (s : State) (d : Desc) (i : Nat), (meets s p a 0x10 w = true) ∧ ((anvil s p a).desc = some d) ∧ ((if bit (stParam w) 27 then (counter (anvil s p a) (bits (stParam w) 25 24)).toNat - 1 else stParam w % 65536) = i) ∧ ((listed (anvil s p a) && decide (ceilDiv (descPart s d (bits (stParam w) 31 28) i (stCount w)).length 64 > stCount w)) = true)) ∧
    (∃ (p : Fin 12) (a : Fin 864) (w : W128) (s : State) (sp e : SpRead) (m : MWin), (meets s p a 0x11 w = true) ∧ (fetchwSp s p a sp = e) ∧ (e ≠ .uncorrectable) ∧ (readsLanded (anvil s p a) (addrRead w) = true) ∧ (stepWindow s (anvil s p a) w (·.r) = some m) ∧ (inMWin m (windowAddr m w + addUnits (anvil s p a) w) (64 * stCount w) = true) ∧ ((linesWait (anvil s p a) (stCount w) || storing (anvil s p a) (stDest w) (64 * stCount w)) = false)) ∧
    (∃ (p : Fin 12) (a : Fin 864) (w : W128) (s : State) (sp : SpRead) (m : MWin), (meets s p a 0x11 w = true) ∧ (fetchwSp s p a sp = .clean) ∧ (readsLanded (anvil s p a) (addrRead w) = true) ∧ (stepWindow s (anvil s p a) w (·.r) = some m) ∧ (inMWin m (windowAddr m w + addUnits (anvil s p a) w) (64 * stCount w) = true) ∧ ((linesWait (anvil s p a) (stCount w) || storing (anvil s p a) (stDest w) (64 * stCount w)) = true)) :=
  ⟨⟨3, 5, 1, [{ cmd := 1, row := 0 }], boundCmd, bindState, by decide +kernel⟩,
   ⟨3, 5, 1, [{ cmd := 1, row := 0 }], boundCmd, (0, { nextDesc with pattern := 1 }), { bindState with ptns := tmap (fun _ x => { x with rowQ := [(0, { nextDesc with pattern := 1 })] }) bindState.ptns }, by decide +kernel⟩,
   ⟨3, 5, stepWord 16 0 4 0 0 64 0 0, winState (stepWord 16 0 4 0 0 64 0 0) {}, by decide +kernel⟩,
   ⟨3, 5, stepWord 16 0 4 0 0 64 0 0, { nextState with ptns := tmap (fun _ x => { x with pmem := [(400, stepWord 16 0 4 0 0 64 0 0)], anvils := tmap (fun _ b => { b with desc := some nextDesc, outst := [{ isStore := true, src := 64, bytes := List.replicate 64 0, addr := 0, lines := 256 }, { dest := 0x8000, addr := 0, lines := 1 }] }) x.anvils }) nextState.ptns }, nextDesc, 0, by decide +kernel⟩,
   ⟨3, 5, stepWord 16 0 4 0 0 64 0 0, { nextState with ptns := tmap (fun _ x => { x with pmem := [(400, stepWord 16 0 4 0 0 64 0 0)], anvils := tmap (fun _ b => { b with desc := some nextDesc }) x.anvils }) nextState.ptns }, nextDesc, 0, by decide +kernel⟩,
   ⟨3, 5, stepWord 16 0 1 0 0 64 0 0, { anvilState (stepWord 16 0 1 0 0 64 0 0) { chunk := some { kind := 3, ctx := 5 }, desc := some { nextDesc with brick := 256 } } with colls := [(6, { job := 2, state := .trained, d := 32, bricks := [(256, emptyBrick)] })] }, { nextDesc with brick := 256 }, 0, by decide +kernel⟩,
   ⟨3, 5, stepWord 17 0 20 0 0 64 0 268435456, winState (stepWord 17 0 20 0 0 64 0 268435456) {}, .clean, .clean, allWin, by decide +kernel⟩,
   ⟨3, 5, stepWord 17 0 20 0 0 64 0 268435456, winState (stepWord 17 0 20 0 0 64 0 268435456) manyOut, .clean, allWin, by decide +kernel⟩⟩
set_option maxRecDepth 20000 in
theorem test_anvil_memory_steps_met_2 :
    (∃ (p : Fin 12) (a : Fin 864) (w : W128) (s : State) (sp : SpRead), (meets s p a 0x11 w = true) ∧ (fetchwSp s p a sp = .clean) ∧ (readsLanded (anvil s p a) (addrRead w) = true) ∧ (∀ m, stepWindow s (anvil s p a) w (·.r) = some m → inMWin m (windowAddr m w + addUnits (anvil s p a) w) (64 * stCount w) = false)) ∧
    (∃ (p : Fin 12) (a : Fin 864) (w : W128) (s : State) (sp : SpRead) (m : MWin), (meets s p a 0x12 w = true) ∧ (sp ≠ .uncorrectable) ∧ (readsLanded (anvil s p.val a.val) ((stB w, 64 * stCount w) :: addrRead w) = true) ∧ (stepWindow s (anvil s p a) w (·.w) = some m) ∧ (inMWin m (windowAddr m w + addUnits (anvil s p a) w) (64 * stCount w) = true) ∧ (linesWait (anvil s p a) (stCount w) = true)) ∧
    (∃ (p : Fin 12) (a : Fin 864) (w : W128) (s : State) (sp : SpRead) (m : MWin), (meets s p a 0x12 w = true) ∧ (sp ≠ .uncorrectable) ∧ (readsLanded (anvil s p.val a.val) ((stB w, 64 * stCount w) :: addrRead w) = true) ∧ (stepWindow s (anvil s p a) w (·.w) = some m) ∧ (inMWin m (windowAddr m w + addUnits (anvil s p a) w) (64 * stCount w) = true) ∧ (linesWait (anvil s p a) (stCount w) = false)) ∧
    (∃ (p : Fin 12) (a : Fin 864) (w : W128) (s : State) (sp : SpRead), (meets s p a 0x12 w = true) ∧ (sp = .clean) ∧ (readsLanded (anvil s p a) ((stB w, 64 * stCount w) :: addrRead w) = true) ∧ (∀ m, stepWindow s (anvil s p a) w (·.w) = some m → inMWin m (windowAddr m w + addUnits (anvil s p a) w) (64 * stCount w) = false)) ∧
    (∃ (p : Fin 12) (a : Fin 864) (w : W128) (s : State) (sp : SpRead) (m : MWin) (es : List (Nat × Nat × Nat × Nat)), (meets s p a 0x13 w = true) ∧ (sp ≠ .uncorrectable) ∧ (readsLanded (anvil s p a) [(stA w, 16 * stCount w)] = true) ∧ (stepWindow s (anvil s p a) w (·.a) = some m) ∧ (atomPairs (bits (stParam w) 23 16) ((upto (stCount w)).map fun j => (padNat (anvil s p a) (stA w + 16 * j) 8, padNat (anvil s p a) (stA w + 16 * j + 8) 8, j)) = some es) ∧ (atomicDefined (bits (stParam w) 23 16) = true) ∧ (es.all (atomOk m w) = true) ∧ ((linesWait (anvil s p a) es.length || bit (stParam w) 0 && storing (anvil s p a) (stDest w) (8 * stCount w)) = false)) ∧
    (∃ (p : Fin 12) (a : Fin 864) (w : W128) (s : State) (sp : SpRead) (m : MWin) (es : List (Nat × Nat × Nat × Nat)), (meets s p a 0x13 w = true) ∧ (sp ≠ .uncorrectable) ∧ (readsLanded (anvil s p a) [(stA w, 16 * stCount w)] = true) ∧ (stepWindow s (anvil s p a) w (·.a) = some m) ∧ (atomPairs (bits (stParam w) 23 16) ((upto (stCount w)).map fun j => (padNat (anvil s p a) (stA w + 16 * j) 8, padNat (anvil s p a) (stA w + 16 * j + 8) 8, j)) = some es) ∧ (atomicDefined (bits (stParam w) 23 16) = true) ∧ (es.all (atomOk m w) = true) ∧ ((linesWait (anvil s p a) es.length || bit (stParam w) 0 && storing (anvil s p a) (stDest w) (8 * stCount w)) = true)) ∧
    (∃ (p : Fin 12) (a : Fin 864) (w : W128) (s : State) (sp : SpRead), (meets s p a 0x13 w = true) ∧ (sp = .clean) ∧ (readsLanded (anvil s p a) [(stA w, 16 * stCount w)] = true) ∧ (atomsOk s (anvil s p a) w = false)) ∧
    (∃ (p : Fin 12) (a : Fin 864) (w : W128) (s : State) (sp : SpRead), (meets s p a 0x15 w = true) ∧ (sp ≠ .uncorrectable) ∧ (readsClear (anvil s p.val a.val) ([(stA w, 16 * stCount w)]) = true)) :=
  ⟨⟨3, 5, stepWord 17 0 2 0 0 64 0 536870912, winState (stepWord 17 0 2 0 0 64 0 536870912) {}, .clean, by decide +kernel⟩,
   ⟨3, 5, stepWord 18 0 20 0 64 0 0 268435456, winState (stepWord 18 0 20 0 64 0 0 268435456) manyOut, .clean, allWin, by decide +kernel⟩,
   ⟨3, 5, stepWord 18 0 20 0 64 0 0 268435456, winState (stepWord 18 0 20 0 64 0 0 268435456) {}, .corrected, allWin, by decide +kernel⟩,
   ⟨3, 5, stepWord 18 0 2 0 64 0 0 536870912, winState (stepWord 18 0 2 0 64 0 0 536870912) {}, .clean, by decide +kernel⟩,
   ⟨3, 5, stepWord 19 0 1 64 0 128 0 268566529, winState (stepWord 19 0 1 64 0 128 0 268566529) {}, .clean, allWin, [(0, 0, 0, 0)], by decide +kernel⟩,
   ⟨3, 5, stepWord 19 0 8 64 0 128 0 268566529, winState (stepWord 19 0 8 64 0 128 0 268566529) manyOut, .clean, allWin, (upto 8).map fun j => (0, 0, 0, j), by decide +kernel⟩,
   ⟨3, 5, stepWord 19 0 1 64 0 128 0 268435457, winState (stepWord 19 0 1 64 0 128 0 268435457) {}, .clean, by decide +kernel⟩,
   ⟨3, 5, stepWord 21 0 2 64 0 256 0 0, anvilState (stepWord 21 0 2 64 0 256 0 0) {}, .corrected, by decide +kernel⟩⟩
set_option maxRecDepth 20000 in
theorem test_anvil_memory_steps_met_3 :
    (∃ (p : Fin 12) (a : Fin 864) (w : W128) (s : State), (meets s p a 0x20 w = true)) ∧
    (∃ (p : Fin 12) (a : Fin 864) (i : Nat) (o : Outst) (s : State), ((anvil s p a).outst[i]? = some o) ∧ (o.served = true) ∧ (o.isStore = false) ∧ (o.isAtom = false) ∧ (earlierFetch (anvil s p a) i o = false)) :=
  ⟨⟨3, 5, stepWord 32 0 0 0 0 0 0 3, anvilState (stepWord 32 0 0 0 0 0 0 3) {}, by decide +kernel⟩,
   ⟨3, 5, 0, { dest := 64, bytes := [1, 2], served := true }, anvilState 0 { outst := [{ dest := 64, bytes := [1, 2], served := true }] }, by decide +kernel⟩⟩
set_option maxRecDepth 20000 in
theorem test_compute_steps_met_1 :
    (∃ (p : Fin 12) (a : Fin 864) (w : W128) (s : State) (sp : SpRead), (meets s p a 0x21 w = true) ∧ (sp ≠ .uncorrectable) ∧ (readsClear (anvil s p.val a.val) (dotReads (anvHeader s (anvil s p a)) (anvil s p a) w) = true)) ∧
    (∃ (p : Fin 12) (a : Fin 864) (w : W128) (s : State) (sp : SpRead), (meets s p a 0x22 w = true) ∧ (sp ≠ .uncorrectable) ∧ (readsClear (anvil s p.val a.val) (boundReads (anvHeader s (anvil s p a)) (anvil s p a) w) = true)) ∧
    (∃ (p : Fin 12) (a : Fin 864) (w : W128) (s : State) (sp : SpRead), (meets s p a 0x23 w = true) ∧ (sp ≠ .uncorrectable) ∧ (readsClear (anvil s p.val a.val) (scoreReads (anvHeader s (anvil s p a)) (anvil s p a) w) = true)) ∧
    (∃ (p : Fin 12) (a : Fin 864) (w : W128) (s : State) (sp : SpRead), (meets s p a 0x24 w = true) ∧ (sp ≠ .uncorrectable) ∧ (readsClear (anvil s p.val a.val) (bfmaReads (anvil s p a) w) = true)) ∧
    (∃ (p : Fin 12) (a : Fin 864) (w : W128) (s : State) (sp : SpRead), (meets s p a 0x25 w = true) ∧ (sp ≠ .uncorrectable) ∧ (readsClear (anvil s p.val a.val) (sgatherReads (anvil s p a) w) = true)) ∧
    (∃ (p : Fin 12) (a : Fin 864) (w : W128) (s : State) (sp : SpRead) (d : Desc), (meets s p a 0x30 w = true) ∧ (sp ≠ .uncorrectable) ∧ (readsClear (anvil s p.val a.val) (sieveReads (anvil s p a) w) = true) ∧ ((anvil s p a).desc = some d) ∧ (listed (anvil s p a) = true) ∧ (stParam w ≠ 1)) ∧
    (∃ (p : Fin 12) (a : Fin 864) (w : W128) (s : State) (sp : SpRead) (d : Desc), (meets s p a 0x30 w = true) ∧ (sp ≠ .uncorrectable) ∧ (readsClear (anvil s p.val a.val) (sieveReads (anvil s p a) w) = true) ∧ ((anvil s p a).desc = some d) ∧ (listed (anvil s p a) = true) ∧ (stParam w = 1)) ∧
    (∃ (p : Fin 12) (a : Fin 864) (w : W128) (s : State) (sp : SpRead) (d : Desc) (r : Zone × W64), (meets s p a 0x30 w = true) ∧ (sp ≠ .uncorrectable) ∧ (readsClear (anvil s p.val a.val) (sieveReads (anvil s p a) w) = true) ∧ ((anvil s p a).desc = some d) ∧ (listed (anvil s p a) = false) ∧ (brickPass s (coll s d.coll) (sieveProg s (anvil s p a)) (BitVec.ofNat 32 (field (anvil s p a).wd 20 4)) d = r)) :=
  ⟨⟨3, 5, stepWord 33 0 1 256 512 0 0 1024, anvilState (stepWord 33 0 1 256 512 0 0 1024) { wd := [0] }, .corrected, by decide +kernel⟩,
   ⟨3, 5, stepWord 34 0 0 256 512 0 0 0, anvilState (stepWord 34 0 0 256 512 0 0 0) {  }, .corrected, by decide +kernel⟩,
   ⟨3, 5, stepWord 35 0 0 256 512 1024 0 0, anvilState (stepWord 35 0 0 256 512 1024 0 0) {  }, .corrected, by decide +kernel⟩,
   ⟨3, 5, stepWord 36 0 2 256 512 1024 0 0, anvilState (stepWord 36 0 2 256 512 1024 0 0) {  }, .corrected, by decide +kernel⟩,
   ⟨3, 5, stepWord 37 0 1 256 512 1024 0 0, anvilState (stepWord 37 0 1 256 512 1024 0 0) {  }, .corrected, by decide +kernel⟩,
   ⟨3, 5, stepWord 48 0 0 256 0 0 0 0, anvilState (stepWord 48 0 0 256 0 0 0 0) { desc := some nextDesc }, .corrected, nextDesc, by decide +kernel⟩,
   ⟨3, 5, stepWord 48 0 0 256 0 0 0 1, anvilState (stepWord 48 0 0 256 0 0 0 1) { desc := some nextDesc }, .corrected, nextDesc, by decide +kernel⟩,
   ⟨3, 5, stepWord 48 0 0 256 512 0 0 0, { anvilState (stepWord 48 0 0 256 512 0 0 0) { desc := some nextDesc } with ptns := tmap (fun _ x => { x with anvils := tmap (fun _ b => { b with pattern := 2 }) x.anvils }) (anvilState (stepWord 48 0 0 256 512 0 0 0) { desc := some nextDesc }).ptns }, .clean, nextDesc, (.none, 0), by decide +kernel⟩⟩
set_option maxRecDepth 20000 in
theorem test_compute_steps_met_2 :
    (∃ (p : Fin 12) (a : Fin 864) (w : W128) (s : State) (sp : SpRead), (meets s p a 0x30 w = true) ∧ (sp ≠ .uncorrectable) ∧ (readsClear (anvil s p.val a.val) (sieveReads (anvil s p a) w) = true) ∧ ((anvil s p a).desc = none)) ∧
    (∃ (p : Fin 12) (a : Fin 864) (w : W128) (s : State) (sp : SpRead) (d : Desc) (b : Anvil) (u : Anvil × Nat), (meets s p a 0x32 w = true) ∧ (sp ≠ .uncorrectable) ∧ (readsClear (anvil s p.val a.val) (selectReads (anvil s p a) w) = true) ∧ ((anvil s p a).desc.getD noDesc = d) ∧ (((anvil s p a).desc.isSome && framePoisoned s (anvil s p a) d) = false) ∧ (b = counted sp (anvil s p a)) ∧ (u = ((upto b.lanes.length).map fun l => (l, laneOffers s p b d w l)).foldl (fun r o => o.2.foldl (fun r e => (offer o.1 e r.1, r.2 + if admits o.1 e r.1 then 1 else 0)) r) (b, 0))) ∧
    (∃ (p : Fin 12) (a : Fin 864) (w : W128) (s : State), (meets s p a 0x33 w = true)) ∧
    (∃ (p : Fin 12) (a : Fin 864) (w : W128) (s : State), (meets s p a 0x34 w = true) ∧ ((anvil s p a).lanes.all (laneCredit s p a) = true) ∧ ((anvil s p a).emitted = 0) ∧ ((anvil s p a).desc.any (·.quiet) = false) ∧ (∀ (i j : Nat) (k l : LaneReq), (anvil s p a).lanes[i]? = some k → (anvil s p a).lanes[j]? = some l → k.cmd = l.cmd → i = j)) ∧
    (∃ (p : Fin 12) (a : Fin 864) (w : W128) (s : State) (r : Option Nat × State), (stepWordAt s p a 0x34 = some w) ∧ (stepCondition s p a w = true ∧ foldCredit s p a = true ∨ (anvil s p a).emitted > 0) ∧ (emitLanes p a (anvil s p a) (if (anvil s p a).desc.any (·.quiet) = true then [] else (anvil s p a).lanes.zipIdx.drop (anvil s p a).emitted) s = r)) ∧
    (∃ (p : Fin 12) (a : Fin 864) (w : W128) (s : State), (meets s p a 0x34 w = true) ∧ ((anvil s p a).emitted = 0) ∧ (foldCredit s p a = false)) :=
  ⟨⟨3, 5, stepWord 48 0 0 256 512 0 0 0, anvilState (stepWord 48 0 0 256 512 0 0 0) {}, .corrected, by decide +kernel⟩,
   ⟨3, 5, stepWord 50 0 0 256 512 0 0 0, anvilState (stepWord 50 0 0 256 512 0 0 0) { desc := some nextDesc }, .clean, nextDesc, anvil (anvilState (stepWord 50 0 0 256 512 0 0 0) { desc := some nextDesc }) 3 5, (anvil (anvilState (stepWord 50 0 0 256 512 0 0 0) { desc := some nextDesc }) 3 5, 0), by decide +kernel⟩,
   ⟨3, 5, stepWord 51 0 0 0 0 0 0 3, anvilState (stepWord 51 0 0 0 0 0 0 3) {}, by decide +kernel⟩,
   ⟨3, 5, stepWord 52 0 0 0 0 0 0 1, emitState, by decide +kernel, by decide +kernel, by decide +kernel, by decide +kernel, by
     intro i j k l hk hl _
     have h : (anvil emitState (3 : Fin 12) (5 : Fin 864)).lanes.length = 1 := by decide +kernel
     have hi := (List.getElem?_eq_some_iff.mp hk).1
     have hj := (List.getElem?_eq_some_iff.mp hl).1
     omega⟩,
   ⟨3, 5, stepWord 52 0 0 0 0 0 0 1, emitState, _, by decide +kernel, by decide +kernel, rfl⟩,
   ⟨3, 5, stepWord 52 0 0 0 0 0 0 1, { nextState with ptns := tmap (fun _ x => { x with pmem := [(400, stepWord 52 0 0 0 0 0 0 1)] }) nextState.ptns, cmds := [(1, { ring := 7, ctx := 5, entry := 0, opcode := 0x10, stage := .running, rows := [{ nodes := [{ node := .row 3 0, stage := .coarse, inputs := [(0, [])] }] }] })] }, by decide +kernel⟩⟩
set_option maxRecDepth 20000 in
theorem test_selector_offers_met :
    (∃ (l : Nat) (e : Entry) (a : Anvil), (l < laneCount a.conf.toNat) ∧ (fIsNaN e.score = true)) ∧
    (∃ (l : Nat) (e : Entry) (a : Anvil), (fIsNaN e.score = false) ∧ (fGt e.score (thetaEff a l) = false)) ∧
    (∃ (l : Nat) (a : Anvil), (l ≥ laneCount a.conf.toNat)) ∧
    (∃ (l : Nat) (e : Entry) (a : Anvil), (l < laneCount a.conf.toNat) ∧ (fIsNaN e.score = false) ∧ (fGt e.score (thetaEff a l) = true) ∧ ((laneEntries a l).length < laneCap a l)) ∧
    (∃ (l : Nat) (e m : Entry) (x y : List Entry) (a : Anvil), (l < laneCount a.conf.toNat) ∧ (fIsNaN e.score = false) ∧ (fGt e.score (thetaEff a l) = true) ∧ ((laneEntries a l).length ≥ laneCap a l) ∧ (laneEntries a l = x ++ m :: y) ∧ (fEq m.score (lowest (laneEntries a l)) = true) ∧ (y.all (fun z => !fEq z.score (lowest (laneEntries a l))) = true)) ∧
    (∃ (s : State) (p : Nat) (a : Anvil) (d : Desc) (w : W128) (l : Nat) (q : LaneReq) (x : Cmd) (r : QRow), (listed a = true) ∧ (a.lanes[l]? = some q) ∧ (laneCmd s q = some x) ∧ (laneRow s q = some r)) :=
  ⟨⟨0, { key := 1, score := 0x7FC00000 }, {}, by decide +kernel⟩,
   ⟨0, { key := 1, score := 0xFF800000 }, {}, by decide +kernel⟩,
   ⟨16, {}, by decide +kernel⟩,
   ⟨0, { key := 1, score := 0x3F800000 }, {}, by decide +kernel⟩,
   ⟨0, { key := 3, score := 0x40000000 }, { key := 2, score := 0x3F800000 }, [], [], { sel := [[{ key := 2, score := 0x3F800000 }]], cap := [1] }, by decide +kernel⟩,
   ⟨nextState, 3, { pattern := 0x100, lanes := [{ cmd := 1, row := 0 }] }, nextDesc, 0, 0, { cmd := 1, row := 0 }, { ring := 7, ctx := 5, entry := 0, opcode := 0x10, stage := .running, rows := [{}] }, {}, by decide +kernel⟩⟩

set_option maxRecDepth 20000 in
theorem test_step_shell_met :
    (∃ (p : Fin 12) (a : Fin 864) (s : State) (sp : SpRead) (k : Nat × Instr), (k ∈ ([(0x00, .stepNop p a), (0x03, .setc p a), (0x04, .setr p a), (0x05, .next p a), (0x06, .wait p a), (0x07, .signal p a), (0x10, .fetchb p a), (0x11, .fetchw p ⟨a, sp⟩), (0x12, .store p a sp), (0x13, .atomic p a sp), (0x14, .mfence p a), (0x15, .move p a sp), (0x20, .tileclr p a), (0x21, .dot p a sp), (0x22, .bound p a sp), (0x23, .score p a sp), (0x24, .bfma p a sp), (0x25, .sgather p a sp), (0x30, .sieve p a sp), (0x32, .select p a sp), (0x33, .selclr p a), (0x34, .emit p a)] ++ [(0x01, .branch p a), (0x02, .loop p a), (0x08, .yield p a), (0x31, .skip p a)] : List (Nat × Instr))) ∧ (stepWordAt s p a k.1 = none)) ∧
    (∃ (p : Fin 12) (a : Fin 864) (s : State), (stepWordAt s p a 0x09 = none) ∧ (exportAt s p a = none)) ∧
    (∃ (p : Fin 12) (a : Fin 864) (w : W128) (s : State) (sp : SpRead) (k : Nat × Instr), (k ∈ ([(0x00, .stepNop p a), (0x03, .setc p a), (0x04, .setr p a), (0x05, .next p a), (0x06, .wait p a), (0x07, .signal p a), (0x10, .fetchb p a), (0x11, .fetchw p ⟨a, sp⟩), (0x12, .store p a sp), (0x13, .atomic p a sp), (0x14, .mfence p a), (0x15, .move p a sp), (0x20, .tileclr p a), (0x21, .dot p a sp), (0x22, .bound p a sp), (0x23, .score p a sp), (0x24, .bfma p a sp), (0x25, .sgather p a sp), (0x30, .sieve p a sp), (0x32, .select p a sp), (0x33, .selclr p a), (0x34, .emit p a)] : List (Nat × Instr))) ∧ (stepWordAt s p a k.1 = some w) ∧ (stepCondition s p a w = false) ∧ (k.1 = 0x34 → (anvil s p a).emitted = 0)) ∧
    (∃ (p : Fin 12) (a : Fin 864) (w : W128) (s : State) (sp : SpRead) (k : Nat × Instr × (Anvil → W128 → List (Nat × Nat))), (k ∈ computeOps s p a sp ++ (0x11, .fetchw p ⟨a, sp⟩, fun _ w => addrRead w) :: memoryOps p a sp) ∧ (meets s p a k.1 w = true) ∧ (listed (anvil s p a) = true) ∧ (((k.2.2 (anvil s p a) w).any fun r => fetching (anvil s p a) r.1 r.2) = true)) ∧
    (∃ (p : Fin 12) (a : Fin 864) (w : W128) (s : State) (sp : SpRead) (k : Nat × Instr × (Anvil → W128 → List (Nat × Nat))), (k ∈ computeOps s p a sp ++ memoryOps p a sp) ∧ (meets s p a k.1 w = true) ∧ (((k.2.2 (anvil s p a) w).any fun r => fetching (anvil s p a) r.1 r.2) = false) ∧ (sp = .uncorrectable)) ∧
    (∃ (p : Fin 12) (a : Fin 864) (w : W128) (s : State) (sp : SpRead) (k : Nat × Instr × (Anvil → W128 → List (Nat × Nat))), (k ∈ computeOps s p a sp) ∧ (meets s p a k.1 w = true) ∧ (listed (anvil s p a) = true) ∧ (((k.2.2 (anvil s p a) w).any fun r => fetching (anvil s p a) r.1 r.2) = false) ∧ (((k.2.2 (anvil s p a) w).any fun r => padPoisoned (anvil s p a) r.1 r.2) = true) ∧ (sp = .clean)) :=
  ⟨⟨3, 5, State.reset, .clean, (0, .stepNop 3 5), by and_intros <;> first | decide +kernel | rfl | simp⟩,
   ⟨3, 5, State.reset, by decide +kernel⟩,
   ⟨3, 5, stepWord 7 128 0 0 0 0 0 0, anvilState (stepWord 7 128 0 0 0 0 0 0) {}, .clean, (7, .signal 3 5), by and_intros <;> first | decide +kernel | rfl | simp⟩,
   ⟨3, 5, stepWord 21 0 2 64 0 256 0 0, anvilState (stepWord 21 0 2 64 0 256 0 0) { outst := [{ dest := 64 }] }, .clean, (0x15, .move 3 5 .clean, fun _ w => [(stA w, 16 * stCount w)]), by and_intros <;> first | decide +kernel | rfl | simp [computeOps]⟩,
   ⟨3, 5, stepWord 21 0 2 64 0 256 0 0, anvilState (stepWord 21 0 2 64 0 256 0 0) {}, .uncorrectable, (0x15, .move 3 5 .uncorrectable, fun _ w => [(stA w, 16 * stCount w)]), by and_intros <;> first | decide +kernel | rfl | simp [computeOps]⟩,
   ⟨3, 5, stepWord 21 0 2 64 0 256 0 0, anvilState (stepWord 21 0 2 64 0 256 0 0) { poisoned := [1] }, .clean, (0x15, .move 3 5 .clean, fun _ w => [(stA w, 16 * stCount w)]), by and_intros <;> first | decide +kernel | rfl | simp [computeOps]⟩⟩

set_option maxRecDepth 20000 in
theorem test_atomic_results_met_1 :
    (∃ (p : Fin 12) (r : AtomReq) (rest : List AtomReq) (s : State), (hbmOk s = true) ∧ (atomReady s p 0x01 r rest = true) ∧ (r.from_.all (fun x => x.1 == p.val) = true) ∧ (r.addr + 8 ≤ 2 ^ 40)) ∧
    (∃ (p : Fin 12) (r : AtomReq) (rest : List AtomReq) (s : State), (hbmOk s = true) ∧ (atomReady s p 0x02 r rest = true) ∧ (r.from_.all (fun x => x.1 == p.val) = true) ∧ (r.addr + 8 ≤ 2 ^ 40)) ∧
    (∃ (p : Fin 12) (r : AtomReq) (rest : List AtomReq) (s : State), (hbmOk s = true) ∧ (atomReady s p 0x03 r rest = true) ∧ (r.from_.all (fun x => x.1 == p.val) = true) ∧ (r.addr + 8 ≤ 2 ^ 40)) ∧
    (∃ (p : Fin 12) (r : AtomReq) (rest : List AtomReq) (s : State), (hbmOk s = true) ∧ (atomReady s p 0x04 r rest = true) ∧ (r.from_.all (fun x => x.1 == p.val) = true) ∧ (r.addr + 8 ≤ 2 ^ 40)) ∧
    (∃ (p : Fin 12) (r : AtomReq) (rest : List AtomReq) (s : State), (hbmOk s = true) ∧ (atomReady s p 0x05 r rest = true) ∧ (r.from_.all (fun x => x.1 == p.val) = true) ∧ (r.addr + 8 ≤ 2 ^ 40)) ∧
    (∃ (p : Fin 12) (r : AtomReq) (rest : List AtomReq) (s : State), (hbmOk s = true) ∧ (atomReady s p 0x06 r rest = true) ∧ (r.from_.all (fun x => x.1 == p.val) = true) ∧ (r.addr + 8 ≤ 2 ^ 40)) ∧
    (∃ (p : Fin 12) (r : AtomReq) (rest : List AtomReq) (s : State), (hbmOk s = true) ∧ (atomReady s p 0x07 r rest = true) ∧ (r.from_.all (fun x => x.1 == p.val) = true) ∧ (r.addr + 8 ≤ 2 ^ 40)) ∧
    (∃ (p : Fin 12) (r : AtomReq) (rest : List AtomReq) (s : State), (hbmOk s = true) ∧ (atomReady s p 0x08 r rest = true) ∧ (r.from_.all (fun x => x.1 == p.val) = true) ∧ (r.addr + 8 ≤ 2 ^ 40)) :=
  ⟨⟨3, atomEl 0x01 (1), [], atomState (atomEl 0x01 (1)), by decide +kernel⟩,
   ⟨3, atomEl 0x02 (1), [], atomState (atomEl 0x02 (1)), by decide +kernel⟩,
   ⟨3, atomEl 0x03 (1), [], atomState (atomEl 0x03 (1)), by decide +kernel⟩,
   ⟨3, atomEl 0x04 (1), [], atomState (atomEl 0x04 (1)), by decide +kernel⟩,
   ⟨3, atomEl 0x05 (1), [], atomState (atomEl 0x05 (1)), by decide +kernel⟩,
   ⟨3, atomEl 0x06 (1), [], atomState (atomEl 0x06 (1)), by decide +kernel⟩,
   ⟨3, atomEl 0x07 (1), [], atomState (atomEl 0x07 (1)), by decide +kernel⟩,
   ⟨3, atomEl 0x08 (1), [], atomState (atomEl 0x08 (1)), by decide +kernel⟩⟩
set_option maxRecDepth 20000 in
theorem test_atomic_results_met_2 :
    (∃ (p : Fin 12) (r : AtomReq) (rest : List AtomReq) (s : State), (hbmOk s = true) ∧ (atomReady s p 0x09 r rest = true) ∧ (r.from_.all (fun x => x.1 == p.val) = true) ∧ (r.addr + 8 ≤ 2 ^ 40)) ∧
    (∃ (p : Fin 12) (r : AtomReq) (rest : List AtomReq) (s : State), (hbmOk s = true) ∧ (atomReady s p 0x0A r rest = true) ∧ (r.from_.all (fun x => x.1 == p.val) = true) ∧ (r.addr + 8 ≤ 2 ^ 40)) ∧
    (∃ (p : Fin 12) (r : AtomReq) (rest : List AtomReq) (s : State), (hbmOk s = true) ∧ (atomReady s p 0x0B r rest = true) ∧ (r.from_.all (fun x => x.1 == p.val) = true) ∧ (r.addr + 8 ≤ 2 ^ 40)) ∧
    (∃ (p : Fin 12) (r : AtomReq) (rest : List AtomReq) (s : State), (hbmOk s = true) ∧ (atomReady s p 0x0C r rest = true) ∧ (r.from_.all (fun x => x.1 == p.val) = true) ∧ (r.addr + 8 ≤ 2 ^ 40)) ∧
    (∃ (p : Fin 12) (r : AtomReq) (rest : List AtomReq) (s : State), (hbmOk s = true) ∧ (atomReady s p 0x0D r rest = true) ∧ (r.from_.all (fun x => x.1 == p.val) = true) ∧ (r.addr + 8 ≤ 2 ^ 40)) ∧
    (∃ (p : Fin 12) (r : AtomReq) (rest : List AtomReq) (s : State), (hbmOk s = true) ∧ (atomReady s p 0x0E r rest = true) ∧ (r.from_.all (fun x => x.1 == p.val) = true) ∧ (r.addr + 8 ≤ 2 ^ 40)) ∧
    (∃ (p : Fin 12) (r : AtomReq) (rest : List AtomReq) (s : State), (hbmOk s = true) ∧ (atomReady s p 0x10 r rest = true) ∧ (r.from_.all (fun x => x.1 == p.val) = true) ∧ (r.addr + 8 ≤ 2 ^ 40) ∧ (atomOld s r = 0) ∧ ((tgetD (ptn s p).holders r.ctx []).length < 16)) ∧
    (∃ (p : Fin 12) (r : AtomReq) (rest : List AtomReq) (s : State), (hbmOk s = true) ∧ (atomReady s p 0x10 r rest = true) ∧ (r.from_.all (fun x => x.1 == p.val) = true) ∧ (r.addr + 8 ≤ 2 ^ 40) ∧ (atomOld s r ≠ 0) ∧ ((tgetD (ptn s p).holders r.ctx []).length < 16)) :=
  ⟨⟨3, atomEl 0x09 (1), [], atomState (atomEl 0x09 (1)), by decide +kernel⟩,
   ⟨3, atomEl 0x0A (1), [], atomState (atomEl 0x0A (1)), by decide +kernel⟩,
   ⟨3, atomEl 0x0B (1), [], atomState (atomEl 0x0B (1)), by decide +kernel⟩,
   ⟨3, atomEl 0x0C (1), [], atomState (atomEl 0x0C (1)), by decide +kernel⟩,
   ⟨3, atomEl 0x0D (1), [], atomState (atomEl 0x0D (1)), by decide +kernel⟩,
   ⟨3, atomEl 0x0E (1), [], atomState (atomEl 0x0E (1)), by decide +kernel⟩,
   ⟨3, atomEl 0x10 1, [], semState 0x10 0 [], by decide +kernel⟩,
   ⟨3, atomEl 0x10 1, [], semState 0x10 0x8005000000000000 [], by decide +kernel⟩⟩
set_option maxRecDepth 20000 in
theorem test_atomic_results_met_3 :
    (∃ (p : Fin 12) (r : AtomReq) (rest : List AtomReq) (s : State), (hbmOk s = true) ∧ (atomReady s p 0x10 r rest = true) ∧ (r.from_.all (fun x => x.1 == p.val) = true) ∧ (r.addr + 8 ≤ 2 ^ 40) ∧ ((tgetD (ptn s p).holders r.ctx []).length ≥ 16)) ∧
    (∃ (p : Fin 12) (r : AtomReq) (rest : List AtomReq) (s : State), (hbmOk s = true) ∧ (atomReady s p 0x11 r rest = true) ∧ (r.from_.all (fun x => x.1 == p.val) = true) ∧ (r.addr + 8 ≤ 2 ^ 40) ∧ (semHeld (atomOld s r) = true) ∧ (semOwner (atomOld s r) = r.ctx)) ∧
    (∃ (p : Fin 12) (r : AtomReq) (rest : List AtomReq) (s : State), (hbmOk s = true) ∧ (atomReady s p 0x11 r rest = true) ∧ (r.from_.all (fun x => x.1 == p.val) = true) ∧ (r.addr + 8 ≤ 2 ^ 40) ∧ (semHeld (atomOld s r) = false ∨ semOwner (atomOld s r) ≠ r.ctx)) :=
  ⟨⟨3, atomEl 0x10 1, [], semState 0x10 0 [(5, List.replicate 16 8)], by decide +kernel⟩,
   ⟨3, atomEl 0x11 1, [], semState 0x11 0x8005000000000000 [(5, [0x3000001000])], by decide +kernel⟩,
   ⟨3, atomEl 0x11 1, [], semState 0x11 0 [], by decide +kernel⟩⟩
set_option maxRecDepth 20000 in
theorem test_atomic_order_met_1 :
    (∃ (p : Fin 12) (k : Nat × Instr) (s : State), (k ∈ atomRows p) ∧ (∀ x, (ptn s p).atomQ.head? = some x → x.code ≠ k.1)) ∧
    (∃ (p : Fin 12) (k : Nat × Instr) (s : State), (k ∈ atomRows p) ∧ (anvilClock (ptn s p) = false) ∧ (∀ x, (ptn s p).atomQ.head? = some x → (pastDrain (ptn s p) && x.from_.any (fun f => f.1 != p.val)) = false)) ∧
    (∃ (p : Fin 12) (k : Nat × Instr) (r : AtomReq) (rest : List AtomReq) (s : State) (q i : Nat), (k ∈ atomRows p) ∧ ((ptn s p).atomQ = r :: rest) ∧ (r.code = k.1) ∧ (atomBehind s r = false) ∧ (r.from_ = some (q, i)) ∧ (q ≠ p) ∧ (pastDrain (ptn s p) = true)) ∧
    (∃ (p : Fin 12) (k : Nat × Instr) (r : AtomReq) (rest : List AtomReq) (s : State) (q i : Nat), (k ∈ atomRows p) ∧ ((ptn s p).atomQ = r :: rest) ∧ (r.code = k.1) ∧ (atomBehind s r = false) ∧ (r.from_ = some (q, i)) ∧ (q ≠ p) ∧ (pastDrain (ptn s p) = false) ∧ (anvilClock (ptn s p) = true)) ∧
    (∃ (p : Fin 12) (k : Nat × Instr) (r : AtomReq) (rest : List AtomReq) (s : State), (k ∈ atomRows p) ∧ ((ptn s p).atomQ = r :: rest) ∧ (r.code = k.1) ∧ (anvilClock (ptn s p) = true) ∧ (atomBehind s r = true)) ∧
    (∃ (p : Fin 12) (k : Nat × Instr) (r : AtomReq) (rest : List AtomReq) (s : State) (q i : Nat), (k ∈ atomRows p) ∧ ((ptn s p).atomQ = r :: rest) ∧ (r.code = k.1) ∧ (anvilClock (ptn s p) = true) ∧ (atomBehind s r = false) ∧ (r.from_ = some (q, i)) ∧ (q ≠ p) ∧ (pastDrain (ptn s p) = false) ∧ (r.granted = false) ∧ (r.issued = false) ∧ (takeIssue (some q) p 1 s = none)) ∧
    (∃ (p : Fin 12) (k : Nat × Instr) (r : AtomReq) (rest : List AtomReq) (s : State) (q i : Nat) (u : State), (k ∈ atomRows p) ∧ ((ptn s p).atomQ = r :: rest) ∧ (r.code = k.1) ∧ (anvilClock (ptn s p) = true) ∧ (atomBehind s r = false) ∧ (r.from_ = some (q, i)) ∧ (q ≠ p) ∧ (pastDrain (ptn s p) = false) ∧ (r.granted = false) ∧ ((r.issued && r.waits) = false) ∧ (issueAtom p q r s = (u, true)) ∧ ((ptn u p).farQ ≠ [] ∨ takeReceive p 1 u = none)) ∧
    (∃ (p : Fin 12) (k : Nat × Instr) (r : AtomReq) (rest : List AtomReq) (s : State) (q i : Nat) (u v : State), (k ∈ atomRows p) ∧ ((ptn s p).atomQ = r :: rest) ∧ (r.code = k.1) ∧ (anvilClock (ptn s p) = true) ∧ (atomBehind s r = false) ∧ (r.from_ = some (q, i)) ∧ (q ≠ p) ∧ (pastDrain (ptn s p) = false) ∧ (r.granted = false) ∧ ((r.issued && r.waits) = false) ∧ (issueAtom p q r s = (u, true)) ∧ ((ptn u p).farQ = []) ∧ (takeReceive p 1 u = some v)) :=
  ⟨⟨3, (1, .add32 3), State.reset, by decide +kernel⟩,
   ⟨3, (1, .add32 3), State.reset, by decide +kernel⟩,
   ⟨3, (1, .add32 3), farAtom, [], { farAtomState 6400 0 with ptns := tmap (fun k x => if k = 3 then { x with fence := some { step := 5, code := 9 } } else x) (farAtomState 6400 0).ptns }, 4, 5, by decide +kernel⟩,
   ⟨3, (1, .add32 3), farAtom, [], farAtomState 0 6400, 4, 5, by decide +kernel⟩,
   ⟨3, (1, .add32 3), atomEl 1 1, [], lateAtomState, by decide +kernel⟩,
   ⟨3, (1, .add32 3), farAtom, [], farAtomState 0 6400, 4, 5, by decide +kernel⟩,
   ⟨3, (1, .add32 3), farAtom, [], farAtomState 6400 0, 4, 5, (issueAtom 3 4 farAtom (farAtomState 6400 0)).1, by decide +kernel⟩,
   ⟨3, (1, .add32 3), farAtom, [], farAtomState 6400 6400, 4, 5, (issueAtom 3 4 farAtom (farAtomState 6400 6400)).1, (takeReceive 3 1 (issueAtom 3 4 farAtom (farAtomState 6400 6400)).1).getD State.reset, by decide +kernel⟩⟩
set_option maxRecDepth 20000 in
theorem test_atomic_order_met_2 :
    (∃ (p : Fin 12) (k : Nat × Instr) (r : AtomReq) (rest : List AtomReq) (s : State), (k ∈ atomRows p) ∧ ((ptn s p).atomQ = r :: rest) ∧ (r.code = k.1) ∧ (anvilClock (ptn s p) = true) ∧ (atomBehind s r = false) ∧ (r.from_.all (fun x => x.1 == p.val) = true) ∧ (ownsHome s r.ctx p = false)) ∧
    (∃ (p : Fin 12) (k : Nat × Instr) (r : AtomReq) (rest : List AtomReq) (s : State), (k ∈ atomRows p) ∧ ((ptn s p).atomQ = r :: rest) ∧ (r.code = k.1) ∧ (anvilClock (ptn s p) = true) ∧ (atomBehind s r = false) ∧ (r.from_.all (fun x => x.1 == p.val) = true) ∧ (ownsHome s r.ctx p = true) ∧ (wordPoisoned s r.addr = true)) :=
  ⟨⟨3, (1, .add32 3), atomEl 1 1, [], { atomState (atomEl 1 1) with ctxs := [] }, by decide +kernel⟩,
   ⟨3, (1, .add32 3), atomEl 1 1, [], { atomState (atomEl 1 1) with poison := [3 * 2 ^ 36 + 4096] }, by decide +kernel⟩⟩

set_option maxRecDepth 20000 in
theorem test_memory_requests_met_1 :
    (∃ (who : Requester) (req : MemReq) (s : State), (homeReq s who req = none)) ∧
    (∃ (who : Requester) (req : MemReq) (r : HomeReq) (s : State), (homeReq s who req = some r) ∧ (12 ≤ homePtn r.addr)) ∧
    (∃ (who : Requester) (req : MemReq) (r : HomeReq) (s : State) (c : Nat), (homeReq s who req = some r) ∧ (homePtn r.addr < 12) ∧ (r.ctx = some c) ∧ (ownsHome s c (homePtn r.addr) = false)) ∧
    (∃ (who : Requester) (req : MemReq) (r : HomeReq) (s : State) (f : FenceRec), (homeReq s who req = some r) ∧ (homePtn r.addr < 12) ∧ (r.ctx.all (fun c => ownsHome s c (homePtn r.addr)) = true) ∧ (isFar r = true) ∧ ((ptn s (homePtn r.addr)).fence = some f) ∧ (f.step ≥ 5)) ∧
    (∃ (who : Requester) (req : MemReq) (r : HomeReq) (s : State), (homeReq s who req = some r) ∧ (homePtn r.addr < 12) ∧ (r.ctx.all (fun c => ownsHome s c (homePtn r.addr)) = true) ∧ ((isFar r && pastDrain (ptn s (homePtn r.addr))) = false) ∧ (takesRequests (ptn s (homePtn r.addr)) = false)) ∧
    (∃ (who : Requester) (req : MemReq) (met : CrucMet) (r : HomeReq) (s : State) (bs : List Byte), (homeReq s who req = some r) ∧ (homePtn r.addr < 12) ∧ (r.ctx.all (fun c => ownsHome s c (homePtn r.addr)) = true) ∧ (isFar r = false) ∧ (takesRequests (ptn s (homePtn r.addr)) = true) ∧ (met = .clean) ∧ (hbmOk s = true) ∧ (r.write = some bs) ∧ (r.addr + bs.length ≤ 2 ^ 40) ∧ (fromUnit who = true)) ∧
    (∃ (who : Requester) (req : MemReq) (met : CrucMet) (r : HomeReq) (s : State), (homeReq s who req = some r) ∧ (homePtn r.addr < 12) ∧ (r.ctx.all (fun c => ownsHome s c (homePtn r.addr)) = true) ∧ (isFar r = false) ∧ (takesRequests (ptn s (homePtn r.addr)) = true) ∧ (met = .clean) ∧ (hbmOk s = true) ∧ (r.write = none) ∧ (fromUnit who = true) ∧ ((chanEnts (ptn s (homePtn r.addr)) (channelOf r.addr)).length ≤ 24)) ∧
    (∃ (who : Requester) (req : MemReq) (met : CrucMet) (r : HomeReq) (s : State) (p : Fin 12) (a : Fin 864) (i : Nat) (o : Outst), (homeReq s who req = some r) ∧ (homePtn r.addr < 12) ∧ (r.ctx.all (fun c => ownsHome s c (homePtn r.addr)) = true) ∧ (isFar r = false) ∧ (takesRequests (ptn s (homePtn r.addr)) = true) ∧ (met = .clean) ∧ (hbmOk s = true) ∧ (who = .anvil p a i) ∧ ((anvil s p a).outst[i]? = some o) ∧ (o.isStore = true) ∧ (o.poison = false) ∧ (o.bytes.length = 64 * o.lines) ∧ (o.addr + 64 * o.lines ≤ 2 ^ 40)) :=
  ⟨⟨.anvil 3 5 0, { addr := 0, len := 64, write := none }, State.reset, by decide +kernel⟩,
   ⟨.engine 3 5 none, { addr := 13 * 2 ^ 36, len := 64, write := none }, { issuer := some 3, ctx := some 5, addr := 13 * 2 ^ 36, len := 64, write := none }, memState, by decide +kernel⟩,
   ⟨.engine 3 5 none, { addr := 4 * 2 ^ 36, len := 64, write := none }, { issuer := some 3, ctx := some 5, addr := 4 * 2 ^ 36, len := 64, write := none }, memState, 5, by decide +kernel⟩,
   ⟨.engine 4 5 none, { addr := 3 * 2 ^ 36 + 4096, len := 64, write := none }, { issuer := some 4, ctx := some 5, addr := 3 * 2 ^ 36 + 4096, len := 64, write := none }, { memState with ptns := tmap (fun _ x => { x with fence := some { step := 5, code := 7 } }) memState.ptns }, { step := 5, code := 7 }, by decide +kernel⟩,
   ⟨.engine 3 5 none, { addr := 3 * 2 ^ 36 + 4096, len := 64, write := none }, { issuer := some 3, ctx := some 5, addr := 3 * 2 ^ 36 + 4096, len := 64, write := none }, { memState with ptns := tmap (fun _ x => { x with power := .banked }) memState.ptns }, by decide +kernel⟩,
   ⟨.engine 3 5 none, wrReq, .clean, wrHome, memState, [1, 2], by decide +kernel⟩,
   ⟨.engine 3 5 none, rdReq, .clean, rdHome 3, memState, by decide +kernel⟩,
   ⟨.anvil 3 2 0, noReq, .clean, { anvHome with write := some (List.replicate 64 9) }, storeState, 3, 2, 0, { isStore := true, addr := 3 * 2 ^ 36, bytes := List.replicate 64 9 }, by decide +kernel⟩⟩
set_option maxRecDepth 20000 in
theorem test_memory_requests_met_2 :
    (∃ (who : Requester) (req : MemReq) (met : CrucMet) (r : HomeReq) (s : State) (p : Fin 12) (a : Fin 864) (i : Nat) (o : Outst), (homeReq s who req = some r) ∧ (homePtn r.addr < 12) ∧ (r.ctx.all (fun c => ownsHome s c (homePtn r.addr)) = true) ∧ (isFar r = false) ∧ (takesRequests (ptn s (homePtn r.addr)) = true) ∧ (met = .clean) ∧ (hbmOk s = true) ∧ (who = .anvil p a i) ∧ ((anvil s p a).outst[i]? = some o) ∧ (o.isStore = false) ∧ (yieldsTurn s r who = false) ∧ ((chanEnts (ptn s (homePtn r.addr)) (channelOf r.addr)).length ≤ 24)) ∧
    (∃ (who : Requester) (req : MemReq) (met : CrucMet) (r : HomeReq) (s : State), (homeReq s who req = some r) ∧ (homePtn r.addr < 12) ∧ (r.ctx.all (fun c => ownsHome s c (homePtn r.addr)) = true) ∧ ((isFar r && pastDrain (ptn s (homePtn r.addr))) = false) ∧ (takesRequests (ptn s (homePtn r.addr)) = true) ∧ (met = .clean) ∧ (yieldsTurn s r who = true)) ∧
    (∃ (p ch : Nat) (s : State), ((chanEnts (ptn s p) ch).length ≤ 56)) ∧
    (∃ (who : Requester) (req : MemReq) (met : CrucMet) (r : HomeReq) (s : State), (homeReq s who req = some r) ∧ (homePtn r.addr < 12) ∧ (r.ctx.all (fun c => ownsHome s c (homePtn r.addr)) = true) ∧ ((isFar r && pastDrain (ptn s (homePtn r.addr))) = false) ∧ (takesRequests (ptn s (homePtn r.addr)) = true) ∧ (met = .tag)) ∧
    (∃ (who : Requester) (req : MemReq) (met : CrucMet) (r : HomeReq) (s : State), (homeReq s who req = some r) ∧ (homePtn r.addr < 12) ∧ (r.ctx.all (fun c => ownsHome s c (homePtn r.addr)) = true) ∧ ((isFar r && pastDrain (ptn s (homePtn r.addr))) = false) ∧ (takesRequests (ptn s (homePtn r.addr)) = true) ∧ (met = .holder)) ∧
    (∃ (who : Requester) (req : MemReq) (met : CrucMet) (r : HomeReq) (s : State), (homeReq s who req = some r) ∧ (homePtn r.addr < 12) ∧ (r.ctx.all (fun c => ownsHome s c (homePtn r.addr)) = true) ∧ ((isFar r && pastDrain (ptn s (homePtn r.addr))) = false) ∧ (takesRequests (ptn s (homePtn r.addr)) = true) ∧ (met = .data) ∧ (yieldsTurn (dropCached r.addr r.len s) r who = false)) ∧
    (∃ (who : Requester) (req : MemReq) (met : CrucMet) (r : HomeReq) (s : State), (homeReq s who req = some r) ∧ (homePtn r.addr < 12) ∧ (r.ctx.all (fun c => ownsHome s c (homePtn r.addr)) = true) ∧ (isFar r = true) ∧ (pastDrain (ptn s (homePtn r.addr)) = false) ∧ (takesRequests (ptn s (homePtn r.addr)) = true) ∧ (met = .clean) ∧ (yieldsTurn s r who = false)) ∧
    (∃ (h : Nat) (r : HomeReq) (who : Requester) (s : State), (inFarQ (ptn s h) who { addr := r.addr, len := r.len, write := r.write } = true ∨ farLines (ptn s h) + lineCount r.addr r.len > 1024)) :=
  ⟨⟨.anvil 3 2 0, noReq, .clean, anvHome, fetchState, 3, 2, 0, { addr := 3 * 2 ^ 36 }, by decide +kernel⟩,
   ⟨.anvil 3 2 0, rdReq, .clean, anvHome, yieldState, by decide +kernel⟩,
   ⟨3, 0, State.reset, by decide +kernel⟩,
   ⟨.engine 3 5 none, rdReq, .tag, rdHome 3, memState, by decide +kernel⟩,
   ⟨.engine 3 5 none, rdReq, .holder, rdHome 3, memState, by decide +kernel⟩,
   ⟨.engine 3 5 none, rdReq, .data, rdHome 3, memState, by decide +kernel⟩,
   ⟨.engine 4 5 none, rdReq, .clean, rdHome 4, memState, by decide +kernel⟩,
   ⟨3, { rdHome 4 with len := 65600 }, .engine 4 5 none, memState, by decide +kernel⟩⟩
set_option maxRecDepth 20000 in
theorem test_memory_requests_met_3 :
    (∃ (h : Nat) (r : HomeReq) (who : Requester) (s : State), (inFarQ (ptn s h) who { addr := r.addr, len := r.len, write := r.write } = false) ∧ (farLines (ptn s h) + lineCount r.addr r.len ≤ 1024) ∧ (takeIssue r.issuer h (lineCount r.addr r.len) s = none)) ∧
    (∃ (h : Nat) (r : HomeReq) (who : Requester) (s u v : State), (inFarQ (ptn s h) who { addr := r.addr, len := r.len, write := r.write } = false) ∧ (farLines (ptn s h) + lineCount r.addr r.len ≤ 1024) ∧ ((ptn s h).farQ = []) ∧ (takeIssue r.issuer h (lineCount r.addr r.len) s = some u) ∧ (takeReceive h (lineCount r.addr r.len) u = some v)) ∧
    (∃ (h : Nat) (r : HomeReq) (who : Requester) (s u : State), (inFarQ (ptn s h) who { addr := r.addr, len := r.len, write := r.write } = false) ∧ (farLines (ptn s h) + lineCount r.addr r.len ≤ 1024) ∧ (takeIssue r.issuer h (lineCount r.addr r.len) s = some u) ∧ ((ptn s h).farQ ≠ [] ∨ takeReceive h (lineCount r.addr r.len) u = none)) ∧
    (∃ (p : Fin 12) (s : State), (nextFar (ptn s p) = none) ∧ (waitingAtom (ptn s p) = none)) ∧
    (∃ (p : Fin 12) (q : FarReq) (s u : State), (nextFar (ptn s p) = some q) ∧ (∀ w ∈ waitingAtom (ptn s p), turnOf (ptn s p) q.issuer ≤ turnOf (ptn s p) (some w.1)) ∧ (takeReceive p (lineCount q.req.addr q.req.len) s = some u)) ∧
    (∃ (p : Fin 12) (q : FarReq) (s : State), (nextFar (ptn s p) = some q) ∧ (∀ w ∈ waitingAtom (ptn s p), turnOf (ptn s p) q.issuer ≤ turnOf (ptn s p) (some w.1)) ∧ (takeReceive p (lineCount q.req.addr q.req.len) s = none)) ∧
    (∃ (p : Fin 12) (i : Nat) (r : AtomReq) (s u : State), (waitingAtom (ptn s p) = some (i, r)) ∧ (∀ q ∈ nextFar (ptn s p), turnOf (ptn s p) (some i) < turnOf (ptn s p) q.issuer) ∧ (takeReceive p 1 s = some u)) :=
  ⟨⟨3, farHome, .engine 4 5 none, tokState 0 6400, by decide +kernel⟩,
   ⟨3, farHome, .engine 4 5 none, tokState 6400 6400, ((takeIssue (some 4) 3 1 (tokState 6400 6400)).getD State.reset), (takeReceive 3 1 ((takeIssue (some 4) 3 1 (tokState 6400 6400)).getD State.reset)).getD State.reset, by decide +kernel⟩,
   ⟨3, farHome, .engine 4 5 none, tokState 6400 0, ((takeIssue (some 4) 3 1 (tokState 6400 0)).getD State.reset), by decide +kernel⟩,
   ⟨3, State.reset, by decide +kernel⟩,
   ⟨3, farRd, farState, (takeReceive 3 1 farState).getD State.reset, by decide +kernel⟩,
   ⟨3, farRd, { farState with ptns := tmap (fun _ x => { x with reg := { rcvTok := 0 } }) farState.ptns }, by decide +kernel⟩,
   ⟨3, 4, { farAtom with issued := true, waits := true }, farWaitState, (takeReceive 3 1 farWaitState).getD State.reset, by decide +kernel⟩⟩
set_option maxRecDepth 20000 in
theorem test_memory_events_met_1 :
    (∃ (p : Fin 12) (line fixed : Nat) (bad : List Nat) (s : State), ((ptn s p).power ≠ .cold) ∧ (line % 64 = 0) ∧ (line < 2 ^ 36) ∧ (bad = [])) ∧
    (∃ (p : Fin 12) (line fixed n : Nat) (s : State), ((ptn s p).power ≠ .cold) ∧ (line % 64 = 0) ∧ (line < 2 ^ 36) ∧ (n < 8) ∧ (s.poison.contains (p.val * 2 ^ 36 + line + 8 * n) = false)) ∧
    (∃ (p : Fin 12) (ch : Fin 32) (bad : List Nat) (s : State), (hbmOk s = true) ∧ (bad = [])) ∧
    (∃ (p : Fin 12) (s : State), ((ptn s p).wcFences = [])) ∧
    (∃ (p : Fin 12) (l : List Nat) (f : List WcFence) (why : FenceFor) (s : State), ((ptn s p).wcFences = { why := why, lines := l } :: f) ∧ (hbmOk s = true) ∧ (why = .zeroise)) ∧
    (∃ (p : Fin 12) (w : WcFence) (f : List WcFence) (s : State), ((ptn s p).wcFences = w :: f) ∧ (w.why ≠ .reset)) ∧
    (∃ (p : Fin 12) (w : WcFence) (f : List WcFence) (s : State), ((ptn s p).wcFences = w :: f) ∧ (w.why = .reset)) ∧
    (∃ (p : Fin 12) (ch : Fin 32) (fixed : Nat) (s : State), (scrubRuns s p ch = true)) :=
  ⟨⟨3, 128, 2, [], memState, by decide +kernel⟩,
   ⟨3, 128, 0, 2, memState, by decide +kernel⟩,
   ⟨3, 0, [], { memState with ptns := tmap (fun _ x => { x with wcb := [{ idx := 0, mask := 1, bytes := List.replicate 64 5 }] }) memState.ptns }, by decide +kernel⟩,
   ⟨3, State.reset, by decide +kernel⟩,
   ⟨3, [0], [], .zeroise, { memState with ptns := tmap (fun _ x => { x with wcb := [{ idx := 0, mask := 1, bytes := List.replicate 64 5 }], wcFences := [{ why := .zeroise, lines := [0] }] }) memState.ptns }, by decide +kernel⟩,
   ⟨3, { why := .zeroise, lines := [] }, [], { memState with ptns := tmap (fun _ x => { x with wcFences := [{ why := .zeroise, lines := [] }] }) memState.ptns }, by decide +kernel⟩,
   ⟨3, { why := .reset, lines := [] }, [], { memState with ptns := tmap (fun _ x => { x with wcFences := [{ why := .reset, lines := [] }] }) memState.ptns }, by decide +kernel⟩,
   ⟨3, 4, 1, memState, by decide +kernel⟩⟩
set_option maxRecDepth 20000 in
theorem test_memory_events_met_2 :
    (∃ (p : Fin 12) (found : List (Nat × Nat × List Nat)) (s : State), ((ptn s p).power = .banked) ∧ (found.all (fun f => f.2.2 == []) = true)) ∧
    (∃ (p : Fin 12) (obs : AdaptObs) (s : State), (takesRequests (ptn s p) = true)) :=
  ⟨⟨3, [(0, 2, [])], { memState with ptns := tmap (fun _ x => { x with power := .banked }) memState.ptns }, by decide +kernel⟩,
   ⟨3, { utilMilli := 950, nearWaiting := 1 }, memState, by decide +kernel⟩⟩
set_option maxRecDepth 20000 in
theorem test_temperature_and_counts_met_1 :
    (∃ (p : Fin 12) (t : Option Int) (s : State), ((ptn s p).power ≠ .cold) ∧ ((sampleStack t (ptn s p).temp).2 = none)) ∧
    (∃ (p : Fin 12) (t : Option Int) (v : Int) (s : State), ((ptn s p).power ≠ .cold) ∧ ((sampleStack t (ptn s p).temp).2 = some v) ∧ (nextThrottle (ptn s p).temp.step v = 4 → (ptn s p).temp.step = 4)) ∧
    (∃ (p : Fin 12) (t : Option Int) (v : Int) (s : State), ((ptn s p).power ≠ .cold) ∧ ((sampleStack t (ptn s p).temp).2 = some v) ∧ (nextThrottle (ptn s p).temp.step v = 4) ∧ ((ptn s p).temp.step ≠ 4)) ∧
    (∃ (v : Int) (x : StackT) (o : Option Int), (o = some v) ∧ (-80 ≤ v) ∧ (v ≤ 300) ∧ (x.bad = true)) ∧
    (∃ (t v : Int) (x : StackT) (o : Option Int), (o = some v) ∧ (-80 ≤ v) ∧ (v ≤ 300) ∧ (x.bad = false) ∧ (x.valid + 1 ≥ 5)) ∧
    (∃ (v : Int) (x : StackT) (o : Option Int), (o = some v) ∧ (-80 ≤ v) ∧ (v ≤ 300) ∧ (x.bad = false) ∧ (x.valid + 1 < 5)) ∧
    (∃ (x : StackT) (o : Option Int), (o = none ∨ ∃ v, o = some v ∧ (v < -80 ∨ 300 < v))) ∧
    (∃ (cur : Nat) (t : Int), (cur ≤ 4)) :=
  ⟨⟨3, none, memState, by decide +kernel⟩,
   ⟨3, some 100, 100, memState, by decide +kernel⟩,
   ⟨3, some 208, 208, memState, by decide +kernel⟩,
   ⟨20, { bad := true, invalidRun := 3, samples := [1, 2] }, some 20, by decide +kernel⟩,
   ⟨0, 20, { valid := 9, samples := [1, 2, 3, 4, 5] }, some 20, by decide +kernel⟩,
   ⟨20, { valid := 1, samples := [7] }, some 20, by decide +kernel⟩,
   ⟨{ invalidRun := 2 }, none, by decide +kernel⟩,
   ⟨2, 190, by decide +kernel⟩⟩
set_option maxRecDepth 20000 in
theorem test_temperature_and_counts_met_2 :
    (∃ (p : Fin 12) (l m : Nat) (s : State), (mayConflict (ptn s p) l m = true)) ∧
    (∃ (p : Fin 12) (s : State), ((ptn s p).fetches ≥ 2 ^ 20)) ∧
    (∃ (p : Fin 12) (c n cmd : Nat) (l : List (Nat × Nat)) (s : State), ((collPtn (coll s c) p).closedWins = (n, cmd) :: l)) ∧
    (∃ (p : Fin 12) (c : Nat) (s : State), ((collPtn (coll s c) p).closedWins = [])) :=
  ⟨⟨3, 1, 2, memState, by decide +kernel⟩,
   ⟨3, { memState with ptns := tmap (fun _ x => { x with fetches := 2 ^ 20 }) memState.ptns }, by decide +kernel⟩,
   ⟨3, 6, 2000000, 1, [], { State.reset with colls := [(6, { job := 2, ptns := [(3, { closedWins := [(2000000, 1)] })] })] }, by decide +kernel⟩,
   ⟨3, 6, State.reset, by decide +kernel⟩⟩
set_option maxRecDepth 20000 in
theorem test_commits_and_epochs_met_1 :
    (∃ (s : State) (n c : Nat) (rest : List Nat) (x : Cmd) (t : State), (homeRuns s n = true) ∧ ((coll s n).queue = c :: rest) ∧ (cmd? s c = some x) ∧ ((x.committing || (commitRefused s n x).isNone) = true) ∧ (turnedAway s (commitReach s n x) = none) ∧ (batchStale (coll s n) x = false) ∧ (prepareBatch c x s = some t)) ∧
    (∃ (s : State) (n : Nat) (c : Nat) (rest : List Nat) (x : Cmd) (st : Status) (i : Nat), (homeRuns s n = true) ∧ ((coll s n).queue = c :: rest) ∧ (cmd? s c = some x) ∧ (x.committing = false) ∧ (commitRefused s n x = some (st, i))) ∧
    (∃ (s : State) (n c : Nat) (rest : List Nat) (x : Cmd), (homeRuns s n = true) ∧ ((coll s n).queue = c :: rest) ∧ (cmd? s c = some x) ∧ ((x.committing || (commitRefused s n x).isNone) = true)) ∧
    (∃ (s : State) (n : Nat), (homeRuns s n = true) ∧ ((coll s n).queue = [])) ∧
    (∃ (s : State) (n : Nat), (homeRuns s n = false)) ∧
    (∃ (s : State) (n : Nat), (mayClose s n = true)) ∧
    (∃ (s : State) (n : Nat) (e : Epoch), (mayAdvance s n e = true)) ∧
    (∃ (s : State) (n b i : Nat) (k : Brick), (chunkAnvil s (ptnOfAddr b) (fun q => chunkOf 7 n q && q.bricks.any (·.brick == b)) = some i) ∧ (brick? (coll s n) b = some k)) :=
  ⟨⟨ingState, 6, 1, [], { ring := 7, ctx := 5, job := 2, home := 3, entry := 0, opcode := 0x20, coll := 6, stage := .queued }, ingState, by decide +kernel⟩,
   ⟨{ ingState with cmds := [(1, refusedCmd)] }, 6, 1, [], refusedCmd, .invalidField, 0, by decide +kernel⟩,
   ⟨ingState, 6, 1, [], { ring := 7, ctx := 5, job := 2, home := 3, entry := 0, opcode := 0x20, coll := 6, stage := .queued }, by decide +kernel⟩,
   ⟨{ ingState with colls := [(6, { job := 2, state := .untrained, d := 32 })] }, 6, by decide +kernel⟩,
   ⟨State.reset, 6, by decide +kernel⟩,
   ⟨ingState, 6, by decide +kernel⟩,
   ⟨ingState, 6, 3, by decide +kernel⟩,
   ⟨sweepState, 6, 3 * 2 ^ 36 + 4096, 2, { kind := 2, list := 0 }, by decide +kernel⟩⟩
set_option maxRecDepth 20000 in
theorem test_commits_and_epochs_met_2 :
    (∃ (s : State) (n b : Nat), (chunkAnvil s (ptnOfAddr b) (fun q => chunkOf 7 n q && q.bricks.any (·.brick == b)) = none)) :=
  ⟨State.reset, 6, 0, by decide +kernel⟩
set_option maxRecDepth 20000 in
theorem test_journal_acks_met_1 :
    (∃ (s : State) (c x : Nat) (r : JRec) (j : Journal), (writingRec s c = some (x, r)) ∧ (journal? s x = some j)) ∧
    (∃ (s : State) (c x : Nat) (r : JRec) (k : Cmd), (writingRec s c = some (x, r)) ∧ (r.pad = false) ∧ (cmd? s c = some k) ∧ (k.stage = .committed) ∧ (isIngest k.opcode = true) ∧ (k.opcode ≠ 0x28) ∧ (epochLe k.epoch (coll s k.coll).latest = true) ∧ (k.committing = false)) ∧
    (∃ (s : State) (c x : Nat) (r : JRec) (k : Cmd), (writingRec s c = some (x, r)) ∧ (r.pad = false) ∧ (cmd? s c = some k) ∧ (k.stage = .committed)) ∧
    (∃ (s : State) (c x : Nat) (r : JRec) (j : Journal) (a : AckReply), (writingRec s c = some (x, r)) ∧ (journal? s x = some j) ∧ (a ≠ .ok)) ∧
    (∃ (s : State) (c : Nat), (writingRec s c = none)) ∧
    (∃ (s : State) (c x : Nat) (r : JRec) (j : Journal) (k : Cmd) (a : AckReply), (writingRec s c = some (x, r)) ∧ (r.pad = false) ∧ (journal? s x = some j) ∧ (cmd? s c = some k) ∧ (k.stage = .committed) ∧ (a ≠ .ok)) ∧
    (∃ (s : State) (c x : Nat) (r : JRec) (j : Journal) (k : Cmd), (writingRec s c = some (x, r)) ∧ (r.pad = false) ∧ (journal? s x = some j) ∧ (cmd? s c = some k) ∧ (k.stage = .committed)) ∧
    (∃ (s : State) (c : Nat) (k : Cmd), (cmd? s c = some k) ∧ (k.stage = .journalWait) ∧ (mustCommit k = false)) :=
  ⟨⟨ingState, 1, 5, { cmd := 1, off := 64, len := 128, st := .writing }, ingJournal, by decide +kernel⟩,
   ⟨{ ingState with cmds := [(1, ackCmd)] }, 1, 5, { cmd := 1, off := 64, len := 128, st := .writing }, ackCmd, by decide +kernel⟩,
   ⟨{ ingState with cmds := [(1, ackCmd)] }, 1, 5, { cmd := 1, off := 64, len := 128, st := .writing }, ackCmd, by decide +kernel⟩,
   ⟨ingState, 1, 5, { cmd := 1, off := 64, len := 128, st := .writing }, ingJournal, .error, by decide +kernel⟩,
   ⟨State.reset, 1, by decide +kernel⟩,
   ⟨{ ingState with cmds := [(1, ackCmd)] }, 1, 5, { cmd := 1, off := 64, len := 128, st := .writing }, ingJournal, ackCmd, .error, by decide +kernel⟩,
   ⟨{ ingState with cmds := [(1, ackCmd)] }, 1, 5, { cmd := 1, off := 64, len := 128, st := .writing }, ingJournal, ackCmd, by decide +kernel⟩,
   ⟨spaceState, 1, spaceCmd, by decide +kernel⟩⟩
set_option maxRecDepth 20000 in
theorem test_journal_acks_met_2 :
    (∃ (s : State) (c : Nat), ((cmd? s c).all (fun k => k.stage != .journalWait || mustCommit k) = true)) ∧
    (∃ (s : State) (x : Nat) (j : Journal), (cacheUsable s = true) ∧ (spaceWaiters s x ≠ []) ∧ (journal? s x = some j) ∧ (j.rereading = false)) ∧
    (∃ (s : State) (x : Nat), (cacheUsable s = false ∨ spaceWaiters s x = [] ∨ (journal? s x).any (·.rereading) = true)) ∧
    (∃ (s : State) (x : Nat) (j : Journal) (bs : List Byte), (journal? s x = some j) ∧ (j.rereading = true) ∧ (releasedValid j (field bs 0 8) = true)) ∧
    (∃ (s : State) (x : Nat) (j : Journal) (bs : List Byte), (journal? s x = some j) ∧ (j.rereading = true) ∧ (releasedValid j (field bs 0 8) = false)) ∧
    (∃ (s : State) (x : Nat) (j : Journal) (a : ReadReply), (journal? s x = some j) ∧ (j.rereading = true) ∧ (∀ bs, a ≠ .data bs) ∧ (a ≠ .timeout)) ∧
    (∃ (s : State) (x : Nat) (j : Journal), (journal? s x = some j) ∧ (j.rereading = true)) ∧
    (∃ (s : State) (x : Nat), ((journal? s x).any (·.rereading) = false)) :=
  ⟨⟨State.reset, 1, by decide +kernel⟩,
   ⟨cacheOn spaceState, 5, ingJournal, by decide +kernel⟩,
   ⟨State.reset, 5, by decide +kernel⟩,
   ⟨rereadState, 5, rereadJournal, [128, 0, 0, 0, 0, 0, 0, 0], by decide +kernel⟩,
   ⟨rereadState, 5, rereadJournal, [4, 0, 0, 0, 0, 0, 0, 0], by decide +kernel⟩,
   ⟨rereadState, 5, rereadJournal, .poison, by and_intros <;> first | decide +kernel | rfl | simp⟩,
   ⟨rereadState, 5, rereadJournal, by and_intros <;> first | decide +kernel | rfl | simp⟩,
   ⟨State.reset, 5, by decide +kernel⟩⟩
set_option maxRecDepth 20000 in
theorem test_tamping_met_1 :
    (∃ (s : State) (c l : Nat) (a : Nat) (u : State), (mayCut s c l = true) ∧ (freshBrick true c (leaf (coll s c) l).owner 1 l (openEpoch (coll s c)) s = some (a, u))) ∧
    (∃ (s : State) (c l : Nat), (mayCut s c l = false ∨ freshBrick true c (leaf (coll s c) l).owner 1 l (openEpoch (coll s c)) s = none)) ∧
    (∃ (s : State) (c l i : Nat) (qs : List (SlotRef × Slot)) (u v : State), (chunkAnvil s (leaf (coll s c) l).owner (isCopy c l) = some i) ∧ (freeAnvil (leaf (coll s c) l).owner i s = v) ∧ ((leaf (coll s c) l).state = .copy) ∧ (engineRuns s (leaf (coll s c) l).owner = true) ∧ (liveSlots s c (((leaf (coll s c) l).pre.drop (leaf (coll s c) l).copied).take 256) = qs) ∧ (qs.foldl (fun o q => o.bind (copySlot c l q)) (some v) = some u) ∧ ((extentList (frameSize (coll u c)) (leaf (coll u c) l).copies).length ≤ 12)) ∧
    (∃ (s : State) (c l i : Nat) (qs : List (SlotRef × Slot)) (u v : State), (chunkAnvil s (leaf (coll s c) l).owner (isCopy c l) = some i) ∧ (freeAnvil (leaf (coll s c) l).owner i s = v) ∧ ((leaf (coll s c) l).state = .copy) ∧ (engineRuns s (leaf (coll s c) l).owner = true) ∧ (liveSlots s c (((leaf (coll s c) l).pre.drop (leaf (coll s c) l).copied).take 256) = qs) ∧ (qs.foldl (fun o q => o.bind (copySlot c l q)) (some v) = some u) ∧ ((extentList (frameSize (coll u c)) (leaf (coll u c) l).copies).length > 12)) ∧
    (∃ (s : State) (c l i : Nat) (qs : List (SlotRef × Slot)) (v : State), (chunkAnvil s (leaf (coll s c) l).owner (isCopy c l) = some i) ∧ (freeAnvil (leaf (coll s c) l).owner i s = v) ∧ (liveSlots s c (((leaf (coll s c) l).pre.drop (leaf (coll s c) l).copied).take 256) = qs) ∧ ((leaf (coll s c) l).state ≠ .copy ∨ engineRuns s (leaf (coll s c) l).owner = false ∨ qs.foldl (fun o q => o.bind (copySlot c l q)) (some v) = none)) ∧
    (∃ (s : State) (c l : Nat), (chunkAnvil s (leaf (coll s c) l).owner (isCopy c l) = none)) ∧
    (∃ (s : State) (c l : Nat) (alive : List (SlotRef × SlotRef)) (u : Option State), (((leaf (coll s c) l).copyMap.filter fun m => !tombstoned s m.1) = alive) ∧ (((tombMoved c (alive.map (·.1)) s).bind fun v => if hasSparse (coll s c) then alive.foldl (fun o m => o.bind (movePostings c (openEpoch (coll s c)) m)) (some v) else some v) = u)) ∧
    (∃ (s : State) (c l : Nat) (alive : List (SlotRef × SlotRef)) (u : State), ((leaf (coll s c) l).state = .commit) ∧ (engineRuns s (leaf (coll s c) l).owner = true) ∧ ((turnedAway s ((leaf (coll s c) l).owner :: keyPtns s c ((leaf (coll s c) l).copyMap.map (·.1)))) = none) ∧ (((leaf (coll s c) l).copyMap.filter fun m => !tombstoned s m.1) = alive) ∧ (((tombMoved c (alive.map (·.1)) s).bind fun v => if hasSparse (coll s c) then alive.foldl (fun o m => o.bind (movePostings c (openEpoch (coll s c)) m)) (some v) else some v) = some u)) :=
  ⟨⟨tampSt tcut, 6, 0, 3 * 2 ^ 36 + 0x80000000, tcut2, by decide +kernel⟩,
   ⟨State.reset, 6, 0, by decide +kernel⟩,
   ⟨copyRuns copied0, 6, 0, 2, [], freeAnvil 3 2 (copyRuns copied0), freeAnvil 3 2 (copyRuns copied0), by decide +kernel⟩,
   ⟨copyRuns over0, 6, 0, 2, [], freeAnvil 3 2 (copyRuns over0), freeAnvil 3 2 (copyRuns over0), by decide +kernel⟩,
   ⟨copyRuns tret, 6, 0, 2, [], freeAnvil 3 2 (copyRuns tret), by decide +kernel⟩,
   ⟨State.reset, 6, 0, by decide +kernel⟩,
   ⟨State.reset, 6, 0, [], some State.reset, by decide +kernel⟩,
   ⟨tampSt commit0, 6, 0, [], tampSt commit0, by decide +kernel⟩⟩
set_option maxRecDepth 20000 in
theorem test_tamping_met_2 :
    (∃ (s : State) (c l : Nat) (r : Retiring), ((leaf (coll s c) l).state = .retire) ∧ (engineRuns s (leaf (coll s c) l).owner = true) ∧ ((leaf (coll s c) l).retiring = some r) ∧ (epochPassed s c r.epoch = true)) ∧
    (∃ (s : State) (c l : Nat) (r : Retiring), ((leaf (coll s c) l).retiring = some r) ∧ (epochPassed s c r.epoch = false)) ∧
    (∃ (s : State) (c l : Nat), ((leaf (coll s c) l).state ≠ .retire ∨ engineRuns s (leaf (coll s c) l).owner = false)) :=
  ⟨⟨tampSt tret, 6, 0, { run := [3 * 2 ^ 36 + 4096], chain := [], epoch := 3 }, by decide +kernel⟩,
   ⟨{ tampSt tret with colls := [(6, { job := 2, state := .trained, latest := 4, horizon := 1, leaves := [(0, tret)] })] }, 6, 0, { run := [3 * 2 ^ 36 + 4096], chain := [], epoch := 3 }, by decide +kernel⟩,
   ⟨State.reset, 6, 0, by decide +kernel⟩⟩
set_option maxRecDepth 20000 in
theorem test_training_and_redistribution_met_1 :
    (∃ (s : State) (c i : Nat), (chunkAnvil s (collHome s c) (chunkOf 6 c) = some i) ∧ (((coll s c).state == .training && sampleOnPoison s c) = true)) ∧
    (∃ (s : State) (c i : Nat), (chunkAnvil s (collHome s c) (chunkOf 6 c) = some i) ∧ (((coll s c).state == .training && sampleOnPoison s c) = false)) ∧
    (∃ (s : State) (c : Nat), (chunkAnvil s (collHome s c) (chunkOf 6 c) = none)) ∧
    (∃ (s : State) (c : Nat) (ps : List Nat) (o : Option State), (jobPtns s (coll s c).job = ps) ∧ ((ps.foldl (fun o p => o.bind (takeStrata c p (upperLevels (coll s c) c ((coll s c).trainLevels - 1) (leafLevel (coll s c) c).length [leafLevel (coll s c) c]) ((upto (leafLevel (coll s c) c).length).filter fun i => lget ps ((Config.trainedValue c (coll s c).trainSeed (trainKey 3 i 8188)).toNat % max 1 ps.length) 0 == p).length)) (some s)) = o) ∧ ((coll s c).state ≠ .training ∨ homeRuns s c = false ∨ (turnedAway s ps).isSome = true ∨ o = none)) ∧
    (∃ (s : State) (c : Nat) (ps : List Nat) (u : State), ((coll s c).state = .training) ∧ (homeRuns s c = true) ∧ (jobPtns s (coll s c).job = ps) ∧ (turnedAway s ps = none) ∧ ((ps.foldl (fun o p => o.bind (takeStrata c p (upperLevels (coll s c) c ((coll s c).trainLevels - 1) (leafLevel (coll s c) c).length [leafLevel (coll s c) c]) ((upto (leafLevel (coll s c) c).length).filter fun i => lget ps ((Config.trainedValue c (coll s c).trainSeed (trainKey 3 i 8188)).toNat % max 1 ps.length) 0 == p).length)) (some s)) = some u)) ∧
    (∃ (s : State) (c : Nat) (p : Fin 12) (i : Nat) (u v : State), (chunkAnvil s p.val (chunkOf 2 c) = some i) ∧ (freeAnvil p.val i s = v) ∧ ((coll s c).state = .redistributing) ∧ (engineRuns s p.val = true) ∧ (liveLoose s c p.val ≠ []) ∧ (turnedAway s (moveTargets s c p.val) = none) ∧ ((liveSlots s c ((liveLoose s c p.val).take 256)).foldl (fun o q => o.bind (moveSlot c (openEpoch (coll s c)) q)) (some v) = some u)) ∧
    (∃ (s : State) (c : Nat) (p : Fin 12) (i : Nat) (v : State), (chunkAnvil s p.val (chunkOf 2 c) = some i) ∧ (freeAnvil p.val i s = v) ∧ ((coll s c).state ≠ .redistributing ∨ engineRuns s p.val = false ∨ liveLoose s c p.val = [] ∨ turnedAway s (moveTargets s c p.val) ≠ none)) ∧
    (∃ (s : State) (c : Nat) (p : Fin 12) (i : Nat) (v : State), (chunkAnvil s p.val (chunkOf 2 c) = some i) ∧ (freeAnvil p.val i s = v) ∧ ((coll s c).state = .redistributing) ∧ (engineRuns s p.val = true) ∧ (liveLoose s c p.val ≠ []) ∧ (turnedAway s (moveTargets s c p.val) = none) ∧ ((liveSlots s c ((liveLoose s c p.val).take 256)).foldl (fun o q => o.bind (moveSlot c (openEpoch (coll s c)) q)) (some v) = none)) :=
  ⟨⟨looseOnPoison, 6, 2, by decide +kernel⟩,
   ⟨trainChunkSt, 6, 2, by decide +kernel⟩,
   ⟨State.reset, 6, by decide +kernel⟩,
   ⟨State.reset, 6, [], some State.reset, by decide +kernel⟩,
   ⟨givenState, 6, [3], ([3].foldl (fun o p => o.bind (takeStrata 6 p [[]] 0)) (some givenState)).getD State.reset, by decide +kernel⟩,
   ⟨redState, 6, 3, 2, redAfter, freeAnvil 3 2 redState, by decide +kernel⟩,
   ⟨runs { kind := 2, ctx := 5, start := [{ brick := 3 * 2 ^ 36 + 4096, kind := 2, coll := 6 }] } (untr .untrained), 6, 3, 2, _, by decide +kernel, rfl, by decide +kernel⟩,
   ⟨runs { kind := 2, ctx := 5, start := [{ brick := 3 * 2 ^ 36 + 4096, kind := 2, coll := 6 }] } redNone, 6, 3, 2, freeAnvil 3 2 (runs { kind := 2, ctx := 5, start := [{ brick := 3 * 2 ^ 36 + 4096, kind := 2, coll := 6 }] } redNone), by decide +kernel⟩⟩
set_option maxRecDepth 20000 in
theorem test_training_and_redistribution_met_2 :
    (∃ (s : State) (c : Nat) (p : Fin 12), (chunkAnvil s p.val (chunkOf 2 c) = none)) ∧
    (∃ (s : State) (c : Nat), ((coll s c).state = .redistributing) ∧ (looseLive s c = 0) ∧ (homeRuns s c = true)) ∧
    (∃ (s : State) (c : Nat), ((coll s c).state = .trained) ∧ (epochPassed s c (coll s c).doneEp = true)) ∧
    (∃ (s : State) (c : Nat), ((coll s c).state ≠ .redistributing ∨ looseLive s c ≠ 0 ∨ homeRuns s c = false)) ∧
    (∃ (s : State) (c : Nat), ((coll s c).state ≠ .trained ∨ epochPassed s c (coll s c).doneEp = false)) ∧
    (∃ (s : State) (c i : Nat) (x : Cmd) (v t : State), (cmd? s c = some x) ∧ (x.stage = .assigning) ∧ (chunkAnvil s x.home (isAssign c) = some i) ∧ (freeAnvil x.home i s = v) ∧ (needsSource x = false) ∧ (appendSome c (nextRec x) (min chunkRecords (x.recs.length - nextRec x)) v = (t, none))) ∧
    (∃ (s : State) (c i : Nat) (x y : Cmd) (v t : State) (st : Status) (code : W32), (cmd? s c = some x) ∧ (x.stage = .assigning) ∧ (chunkAnvil s x.home (isAssign c) = some i) ∧ (freeAnvil x.home i s = v) ∧ (needsSource x = false) ∧ (appendSome c (nextRec x) (min chunkRecords (x.recs.length - nextRec x)) v = (t, some (st, code))) ∧ (cmd? t c = some y) ∧ (y.stage = .assigning) ∧ (mustCommit y = false)) ∧
    (∃ (s : State) (c i : Nat) (x : Cmd) (v : State), (cmd? s c = some x) ∧ (x.stage = .assigning) ∧ (chunkAnvil s x.home (isAssign c) = some i) ∧ (freeAnvil x.home i s = v) ∧ (needsSource x = true) ∧ (bulkPoisoned s x = false)) :=
  ⟨⟨State.reset, 6, 3, by decide +kernel⟩,
   ⟨untr .redistributing, 6, by decide +kernel⟩,
   ⟨untr .trained, 6, by decide +kernel⟩,
   ⟨State.reset, 6, by decide +kernel⟩,
   ⟨State.reset, 6, by decide +kernel⟩,
   ⟨asgState, 1, 2, asgCmd, freeAnvil 3 2 asgState, freeAnvil 3 2 asgState, by decide +kernel⟩,
   ⟨asgFull, 1, 2, asgFullCmd, asgFullCmd, freeAnvil 3 2 asgFull, freeAnvil 3 2 asgFull, .fenced, 9, by decide +kernel⟩,
   ⟨{ asgState with cmds := [(1, asgBulk)] }, 1, 2, asgBulk, freeAnvil 3 2 { asgState with cmds := [(1, asgBulk)] }, by decide +kernel⟩⟩
set_option maxRecDepth 20000 in
theorem test_training_and_redistribution_met_3 :
    (∃ (s : State) (c : Nat), ((cmd? s c).all (fun x => x.stage != .assigning || (chunkAnvil s x.home (isAssign c)).isNone) = true)) ∧
    (∃ (s : State) (c i : Nat) (x : Cmd), (cmd? s c = some x) ∧ (x.stage = .assigning) ∧ (chunkAnvil s x.home (isAssign c) = some i) ∧ (needsSource x = true) ∧ (bulkPoisoned s x = true)) :=
  ⟨⟨State.reset, 1, by decide +kernel⟩,
   ⟨bulkOnPoison, 1, 2, bulkPoison, by decide +kernel⟩⟩
set_option maxRecDepth 20000 in
theorem test_search_probing_met_1 :
    (∃ (s : State) (c row : Nat) (x : Cmd) (r : QRow) (set : List (Nat × F32)), (mayDescend s c row = true) ∧ (cmd? s c = some x) ∧ (rowOf s c row = some r) ∧ ((if scansLists (coll s x.coll) x.snap then probeSet (coll s x.coll) (probeCount (sProbe x.entry) (leafCount (coll s x.coll))) r else []) = set) ∧ (turnedAway s ((jobPtns s x.job).filter fun p => !(x.stopped || (firstProbe s x r set p).ended)) = none)) ∧
    (∃ (s : State) (c row : Nat) (x : Cmd) (r : QRow) (set : List (Nat × F32)) (code : W32), (mayDescend s c row = true) ∧ (cmd? s c = some x) ∧ (rowOf s c row = some r) ∧ ((if scansLists (coll s x.coll) x.snap then probeSet (coll s x.coll) (probeCount (sProbe x.entry) (leafCount (coll s x.coll))) r else []) = set) ∧ (turnedAway s ((jobPtns s x.job).filter fun p => !(x.stopped || (firstProbe s x r set p).ended)) = some code)) ∧
    (∃ (s : State) (p : Fin 12) (c row : Nat) (x : Cmd) (r : QRow), (mayIssue s p.val c row = true) ∧ (cmd? s c = some x) ∧ (rowOf s c row = some r) ∧ ((probeOf s p.val c row).looseIssued = false) ∧ (bulkClass x = false) ∧ (placesFor s p.val = true)) ∧
    (∃ (s : State) (p : Fin 12) (c row : Nat) (x : Cmd) (r : QRow), (mayIssue s p.val c row = true) ∧ (cmd? s c = some x) ∧ (rowOf s c row = some r) ∧ ((probeOf s p.val c row).looseIssued = false) ∧ (bulkClass x = true)) ∧
    (∃ (s : State) (p : Fin 12) (c row : Nat) (x : Cmd), (mayIssue s p.val c row = true) ∧ (cmd? s c = some x)) ∧
    (∃ (s : State) (p : Fin 12) (c row : Nat) (x : Cmd) (r : QRow) (l : Nat), (mayIssue s p.val c row = true) ∧ (cmd? s c = some x) ∧ (rowOf s c row = some r) ∧ ((probeOf s p.val c row).looseIssued = true) ∧ ((probeOf s p.val c row).queue.isEmpty = false) ∧ (liveHead s p.val c row = some l) ∧ (coordN (coll s x.coll) ≤ 16384) ∧ (bulkClass x = false) ∧ (placesFor s p.val = true)) ∧
    (∃ (s : State) (p : Fin 12) (c row : Nat) (x : Cmd) (r : QRow) (l : Nat), (mayIssue s p.val c row = true) ∧ (cmd? s c = some x) ∧ (rowOf s c row = some r) ∧ ((probeOf s p.val c row).looseIssued = true) ∧ ((probeOf s p.val c row).queue.isEmpty = false) ∧ (liveHead s p.val c row = some l) ∧ (coordN (coll s x.coll) ≤ 16384) ∧ (bulkClass x = true)) ∧
    (∃ (s : State) (p : Fin 12) (c row : Nat) (x : Cmd) (r : QRow), (mayIssue s p.val c row = true) ∧ (cmd? s c = some x) ∧ (rowOf s c row = some r) ∧ ((probeOf s p.val c row).looseIssued = true) ∧ ((probeOf s p.val c row).queue.isEmpty = false) ∧ (liveHead s p.val c row = none)) :=
  ⟨⟨srchSt (srchCmd {}), 1, 0, srchCmd {}, {}, [], by decide +kernel⟩,
   ⟨fencedSrch, 1, 0, srchCmd {}, {}, [], 9, by decide +kernel⟩,
   ⟨srchSt (srchCmd looseRow), 3, 1, 0, srchCmd looseRow, looseRow, by decide +kernel⟩,
   ⟨srchSt (bulkRow looseRow), 3, 1, 0, bulkRow looseRow, looseRow, by decide +kernel⟩,
   ⟨srchSt (srchCmd looseRow), 3, 1, 0, srchCmd looseRow, by decide +kernel⟩,
   ⟨srchSt (srchCmd listRow), 3, 1, 0, srchCmd listRow, listRow, 0, by decide +kernel⟩,
   ⟨srchSt (bulkRow listRow), 3, 1, 0, bulkRow listRow, listRow, 0, by decide +kernel⟩,
   ⟨srchSt (srchCmd cutRow), 3, 1, 0, srchCmd cutRow, cutRow, by decide +kernel⟩⟩
set_option maxRecDepth 20000 in
theorem test_search_probing_met_2 :
    (∃ (s : State) (p : Fin 12) (c row : Nat) (x : Cmd) (r : QRow) (term : Nat) (w : Nat × Bf16), (mayIssue s p.val c row = true) ∧ (cmd? s c = some x) ∧ (rowOf s c row = some r) ∧ (x.opcode = 0x11) ∧ (r.terms.find? (fun t => t.1 == term) = some w) ∧ (tgetD (probeOf s p.val c row).pieces term 0 < pieceCount (coll s x.coll) p.val term) ∧ (fGt (termBound (coll s x.coll) p.val w) (thetaS p.val term x r) = false)) ∧
    (∃ (s : State) (p : Fin 12) (c row : Nat) (x : Cmd) (r : QRow) (term : Nat) (w : Nat × Bf16), (mayIssue s p.val c row = true) ∧ (cmd? s c = some x) ∧ (rowOf s c row = some r) ∧ (x.opcode = 0x11) ∧ (r.terms.find? (fun t => t.1 == term) = some w) ∧ (tgetD (probeOf s p.val c row).pieces term 0 < pieceCount (coll s x.coll) p.val term) ∧ (fGt (termBound (coll s x.coll) p.val w) (thetaS p.val term x r) = true) ∧ (bulkClass x = false) ∧ (placesFor s p.val = true)) ∧
    (∃ (s : State) (p : Fin 12) (c row : Nat) (x : Cmd) (r : QRow) (term : Nat) (w : Nat × Bf16), (mayIssue s p.val c row = true) ∧ (cmd? s c = some x) ∧ (rowOf s c row = some r) ∧ (x.opcode = 0x11) ∧ (r.terms.find? (fun t => t.1 == term) = some w) ∧ (tgetD (probeOf s p.val c row).pieces term 0 < pieceCount (coll s x.coll) p.val term) ∧ (fGt (termBound (coll s x.coll) p.val w) (thetaS p.val term x r) = true) ∧ (bulkClass x = true)) ∧
    (∃ (s : State) (p : Fin 12) (c row : Nat) (x : Cmd) (r : QRow) (term : Nat), (cmd? s c = some x) ∧ (rowOf s c row = some r) ∧ (mayIssue s p.val c row = false ∨ x.opcode ≠ 0x11 ∨ r.terms.find? (fun t => t.1 == term) = none ∨ pieceCount (coll s x.coll) p.val term ≤ tgetD (probeOf s p.val c row).pieces term 0)) ∧
    (∃ (s : State) (p : Fin 12) (c row : Nat) (x : Cmd) (r : QRow) (term : Nat) (w : Nat × Bf16), (cmd? s c = some x) ∧ (rowOf s c row = some r) ∧ (r.terms.find? (fun t => t.1 == term) = some w) ∧ (fGt (termBound (coll s x.coll) p.val w) (thetaS p.val term x r) = true) ∧ (bulkClass x = false) ∧ (placesFor s p.val = false)) ∧
    (∃ (s : State) (c : Nat) (x : Cmd), (cmd? s c = some x) ∧ (mayStop x = true) ∧ (x.stage = .running) ∧ ((upto x.rows.length).any (rowProbing s x c) = true)) ∧
    (∃ (s : State) (c : Nat) (x : Cmd), (cmd? s c = some x) ∧ (mayStop x = true) ∧ (x.stage = .running) ∧ ((upto x.rows.length).any (rowProbing s x c) = false)) ∧
    (∃ (s : State) (c : Nat) (x : Cmd), (cmd? s c = some x) ∧ (mayStop x = true) ∧ (x.stage ≠ .running)) :=
  ⟨⟨termLow, 3, 1, 0, hybCmd termRowLow, termRowLow, 9, (9, 0x3F80), by decide +kernel⟩,
   ⟨termSt 1, 3, 1, 0, hybCmd termRow, termRow, 9, (9, 0x3F80), by decide +kernel⟩,
   ⟨{ termSt 1 with cmds := [(1, bulkTerm)] }, 3, 1, 0, bulkTerm, termRow, 9, (9, 0x3F80), by decide +kernel⟩,
   ⟨srchSt (srchCmd looseRow), 3, 1, 0, srchCmd looseRow, looseRow, 9, by decide +kernel⟩,
   ⟨noPlaces (termSt 1), 3, 1, 0, hybCmd termRow, termRow, 9, (9, 0x3F80), by decide +kernel⟩,
   ⟨stopSt, 1, stopCmd, by decide +kernel⟩,
   ⟨stopped0, 1, stopCmd0, by decide +kernel⟩,
   ⟨srchSt { stopCmd with stage := .reading }, 1, { stopCmd with stage := .reading }, by decide +kernel⟩⟩
set_option maxRecDepth 20000 in
theorem test_search_probing_met_3 :
    (∃ (s : State) (p : Fin 12) (c row : Nat) (x : Cmd) (r : QRow) (go : List Entry), (mayRefine s p.val c row = true) ∧ (cmd? s c = some x) ∧ (rowOf s c row = some r) ∧ ((if skipsRefine s x then [] else ((foldOut p.val .coarse r).take (refineDepth x.entry)).filter fun e => !e.settled) = go)) :=
  ⟨srchSt (srchCmd quietRow), 3, 1, 0, srchCmd quietRow, quietRow, [], by decide +kernel⟩
set_option maxRecDepth 20000 in
theorem test_folded_lists_met_1 :
    (∃ (s : State) (p : Fin 12) (i : Fin 24) (c row : Nat) (x : Cmd) (r : QRow) (n : Node) (u : List Entry) (d : Bool), (searching s c = true) ∧ (cmd? s c = some x) ∧ (rowOf s c row = some r) ∧ (r.nodes.filter (fun n => isRowNode p.val i.val n.node && !n.inputs.isEmpty) = [n]) ∧ (foldStage n.stage ((takeInputs n).held.flatMap (·.2)) = (u, d))) ∧
    (∃ (s : State) (c row : Nat) (x : Cmd) (r : QRow), (searching s c = true) ∧ (cmd? s c = some x) ∧ (rowOf s c row = some r)) ∧
    (∃ (s : State) (p : Fin 12) (c row : Nat) (x : Cmd) (r : QRow) (n : Node), (cmd? s c = some x) ∧ (rowOf s c row = some r) ∧ (r.nodes.filter (fun n => isPtnNode p.val n.node && !n.inputs.isEmpty) = [n])) ∧
    (∃ (s : State) (c row : Nat) (r : QRow), (rowOf s c row = some r)) ∧
    (∃ (s : State) (c row : Nat) (x : Cmd) (r : QRow) (n : Node) (u out : List Entry) (d : Bool), (searching s c = true) ∧ (cmd? s c = some x) ∧ (rowOf s c row = some r) ∧ (allSent s x r = true) ∧ (r.nodes.find? (fun n => n.node == .device && !n.inputs.isEmpty) = some n) ∧ (foldStage n.stage ((takeInputs n).held.flatMap (·.2)) = (u, d)) ∧ ((if keepsAll s x .device then u else u.take (listLen x.entry)) = out)) ∧
    (∃ (s : State) (c row : Nat) (x : Cmd) (r : QRow) (n : Node) (u out : List Entry) (d : Bool), (searching s c = true) ∧ (cmd? s c = some x) ∧ (rowOf s c row = some r) ∧ (x.origin = none) ∧ (peersIn s x = true) ∧ (allSent s x r = true) ∧ (r.nodes.any (fun n => n.node == .device && !n.inputs.isEmpty) = false) ∧ (r.nodes.find? (fun n => n.node == .root && !n.inputs.isEmpty) = some n) ∧ (foldStage n.stage ((takeInputs n).held.flatMap (·.2)) = (u, d)) ∧ ((if keepsAll s x .root then u else u.take (listLen x.entry)) = out)) ∧
    (∃ (s : State) (c row : Nat) (x : Cmd) (r : QRow), (cmd? s c = some x) ∧ (rowOf s c row = some r)) ∧
    (∃ (s : State) (p : Fin 12) (c row : Nat) (x : Cmd) (r : QRow), (mayFuse s p.val c row = true) ∧ (cmd? s c = some x) ∧ (rowOf s c row = some r) ∧ (((toFill s p.val x r).isEmpty || (probeOf s p.val c row).filled) = true)) :=
  ⟨⟨srchSt (srchCmd rowFold), 3, 0, 1, 0, srchCmd rowFold, rowFold, { node := .row 3 0, stage := .coarse, inputs := [(0, [{ key := 1, score := 0x3F800000 }])] }, [{ key := 1, score := 0x3F800000 }], false, by and_intros <;> first | decide +kernel | rfl | simp⟩,
   ⟨srchSt (srchCmd rowFold), 1, 0, srchCmd rowFold, rowFold, by and_intros <;> first | decide +kernel | rfl | simp⟩,
   ⟨srchSt (srchCmd ptnRow), 3, 1, 0, srchCmd ptnRow, ptnRow, { node := .partition 3, stage := .coarse, inputs := [(0, [{ key := 1, score := 0x3F800000 }])] }, by and_intros <;> first | decide +kernel | rfl | simp⟩,
   ⟨srchSt (srchCmd rowFold), 1, 0, rowFold, by and_intros <;> first | decide +kernel | rfl | simp⟩,
   ⟨srchSt (srchCmd doneRow), 1, 0, srchCmd doneRow, doneRow, { node := .device, stage := .refine, inputs := [(0, [{ key := 1, score := 0x3F800000 }])] }, [{ key := 1, score := 0x3F800000 }], [{ key := 1, score := 0x3F800000 }], false, by and_intros <;> first | decide +kernel | rfl | simp⟩,
   ⟨srchSt (srchCmd rootRow), 1, 0, srchCmd rootRow, rootRow, rootNode, [{ key := 1, score := 0x3F800000 }], [{ key := 1, score := 0x3F800000 }], false, by and_intros <;> first | decide +kernel | rfl | simp⟩,
   ⟨srchSt (srchCmd rootRow), 1, 0, srchCmd rootRow, rootRow, by and_intros <;> first | decide +kernel | rfl | simp⟩,
   ⟨srchSt (hybCmd hybRow), 3, 1, 0, hybCmd hybRow, hybRow, by and_intros <;> first | decide +kernel | rfl | simp⟩⟩
set_option maxRecDepth 20000 in
theorem test_folded_lists_met_2 :
    (∃ (s : State) (p : Fin 12) (c row : Nat) (x : Cmd) (r : QRow), (mayFuse s p.val c row = true) ∧ (cmd? s c = some x) ∧ (rowOf s c row = some r) ∧ (((toFill s p.val x r).isEmpty || (probeOf s p.val c row).filled) = false)) ∧
    (∃ (s : State) (c row : Nat) (x : Cmd) (r : QRow), (mayFinish s c row = true) ∧ (cmd? s c = some x) ∧ (rowOf s c row = some r) ∧ (x.origin = none)) ∧
    (∃ (s : State) (c row : Nat) (x : Cmd) (r : QRow), (mayFinish s c row = true) ∧ (cmd? s c = some x) ∧ (rowOf s c row = some r) ∧ (x.origin ≠ none)) ∧
    (∃ (s : State) (c : Nat) (x : Cmd), (mayStartFar s c = true) ∧ (cmd? s c = some x)) ∧
    (∃ (s : State) (c row : Nat) (x : Cmd) (r : QRow) (j : Nat), (searching s c = true) ∧ (s.host.link.up = true) ∧ (cmd? s c = some x) ∧ (rowOf s c row = some r) ∧ (r.farLeft.contains j = true) ∧ (farWaits s x c row = false)) ∧
    (∃ (s : State) (c row : Nat) (x : Cmd) (r : QRow) (j : Nat) (a : ReadReply), (searching s c = true) ∧ (s.host.link.up = true) ∧ (cmd? s c = some x) ∧ (rowOf s c row = some r) ∧ (r.farLeft.contains j = true) ∧ (farWaits s x c row = false) ∧ (∀ bs, a ≠ .data bs)) ∧
    (∃ (s : State) (c row : Nat) (x : Cmd), (cmd? s c = some x) ∧ (farWaits s x c row = true)) ∧
    (∃ (s : State) (c : Nat), (searching s c = true)) :=
  ⟨⟨srchSt (hybCmd sparseFold), 3, 1, 0, hybCmd sparseFold, sparseFold, by and_intros <;> first | decide +kernel | rfl | simp⟩,
   ⟨srchSt (srchCmd lastRow), 1, 0, srchCmd lastRow, lastRow, by and_intros <;> first | decide +kernel | rfl | simp⟩,
   ⟨srchSt partAnswer, 1, 0, partAnswer, lastRow, by and_intros <;> first | decide +kernel | rfl | simp⟩,
   ⟨srchSt (farCmd lastRow), 1, farCmd lastRow, by and_intros <;> first | decide +kernel | rfl | simp⟩,
   ⟨srchSt (farCmd farRow), 1, 0, farCmd farRow, farRow, 0, by and_intros <;> first | decide +kernel | rfl | simp⟩,
   ⟨srchSt (farCmd farRow), 1, 0, farCmd farRow, farRow, 0, .poison, by and_intros <;> first | decide +kernel | rfl | simp⟩,
   ⟨farQueued, 1, 0, srchCmd rootRow, by decide +kernel⟩,
   ⟨srchSt (srchCmd rowFold), 1, by decide +kernel⟩⟩
set_option maxRecDepth 20000 in
theorem test_folded_lists_met_3 :
    (∃ (s : State) (c : Nat) (x : Cmd), (cmd? s c = some x) ∧ (isSearch x.opcode = true) ∧ (x.admitted = true) ∧ (x.stage = .awaitPayload ∨ x.stage = .reading ∨ x.stage = .running) ∧ (eDeadline x.entry = true) ∧ (x.stopped = true) ∧ (x.far.isSome = true)) :=
  ⟨srchSt { farCmd farRow with entry := 0x10 + 2 ^ 128 + 2 ^ 10, stopped := true, admitted := true }, 1, { farCmd farRow with entry := 0x10 + 2 ^ 128 + 2 ^ 10, stopped := true, admitted := true }, by and_intros <;> first | decide +kernel | rfl | simp⟩
set_option maxRecDepth 20000 in
theorem test_round_and_waits_met :
    (∃ (s : State) (p : Fin 12), ((ptn s p.val).power = .forge) ∧ ((ptn s p.val).round.running = true) ∧ ((ptn s p.val).round.slot + 1 < (ptn s p.val).round.table.length)) ∧
    (∃ (s : State) (p : Fin 12), ((ptn s p.val).power = .forge) ∧ ((ptn s p.val).round.running = true) ∧ ((ptn s p.val).round.slot + 1 ≥ (ptn s p.val).round.table.length) ∧ ((ptn s p.val).round.table ≠ [] ∨ (ptn s p.val).round.next.isSome)) ∧
    (∃ (s : State) (p : Fin 12) (c : Nat), ((tget (ptn s p.val).resident c).isSome = true) ∧ (ctxBusy s p c = false)) ∧
    (∃ (s : State) (p : Fin 12) (c : Nat), ((tget (ptn s p.val).resident c).isSome = true) ∧ (blockedIn s p c = true)) ∧
    (∃ (s : State) (p : Fin 12) (c : Nat), ((swapQueue s p.val).contains c = true) ∧ (waits s p c = true)) ∧
    (∃ (s : State) (r : Fin 1024), (waitsForAmount s r.val = true) ∧ ((ring s r.val).senior = none)) ∧
    (∃ (s : State) (p c : Nat), (blockedIn s p c = true)) :=
  ⟨⟨gSt { gPtn with round := gSlots 0 }, 3, by decide +kernel⟩,
   ⟨gSt { gPtn with round := gSlots 1 }, 3, by decide +kernel⟩,
   ⟨{ gSt gPtn with cmds := [] }, 3, 5, by decide +kernel⟩,
   ⟨{ gSt gPtn with cmds := [(1, { ring := 7, ctx := 5, job := 2, home := 3, entry := 0x20, opcode := 0x20, coll := 6, stage := .journalWait })] }, 3, 5, by decide +kernel⟩,
   ⟨gSt { gPtn with resident := [], waiting := [5], rowQ := [(0, gDesc)] }, 3, 5, by decide +kernel⟩,
   ⟨seniorSt, 7, by decide +kernel⟩,
   ⟨{ gSt gPtn with cmds := [(1, { ring := 7, ctx := 5, job := 2, home := 3, entry := 0x20, opcode := 0x20, coll := 6, stage := .journalWait })] }, 3, 5, by decide +kernel⟩⟩

set_option maxRecDepth 20000 in
theorem test_anvil_scheduling_met_1 :
    (∃ (s u : State) (p : Fin 12) (a : Fin 864) (d : Nat × Desc) (l : LaneReq) (k : Cmd), (readyWork p s = u) ∧ (issues u p = true) ∧ (bindable (anvil u p a) = true) ∧ (firstWork u p (waitingFor u p a) = some (.desc d)) ∧ (d.2.lanes.head? = some l) ∧ (laneCmd u l = some k)) ∧
    (∃ (s u : State) (p : Fin 12) (a : Fin 864) (c : Chunk) (d : Desc) (ds : List Desc) (l : LaneReq) (k : Cmd), (readyWork p s = u) ∧ (issues u p = true) ∧ (bindable (anvil u p a) = true) ∧ (firstWork u p (waitingFor u p a) = some (.chunk c)) ∧ (c.kind = 3) ∧ (c.bricks = d :: ds) ∧ (d.lanes.head? = some l) ∧ (laneCmd u l = some k)) ∧
    (∃ (s u : State) (p : Fin 12) (a : Fin 864) (c : Chunk), (readyWork p s = u) ∧ (issues u p = true) ∧ (bindable (anvil u p a) = true) ∧ (firstWork u p (waitingFor u p a) = some (.chunk c)) ∧ (c.kind ≠ 3)) ∧
    (∃ (s u : State) (p : Fin 12) (a : Fin 864) (n : Nat) (b : Nat × Anvil) (v : SaveSlot), (readyWork p s = u) ∧ (issues u p = true) ∧ (bindable (anvil u p a) = true) ∧ (firstWork u p (waitingFor u p a) = some (.saved n b)) ∧ (tget (ptn u p.val).saves n = some v)) ∧
    (∃ (s u : State) (p : Fin 12) (a : Fin 864), (readyWork p s = u) ∧ (issues u p = false ∨ bindable (anvil u p a) = false ∨ firstWork u p (waitingFor u p a) = none)) ∧
    (∃ (s : State) (p : Nat) (ws : List Waiting) (w v : Waiting), (firstWork s p ws = some w) ∧ (v ∈ ws)) ∧
    (∃ (s u : State) (p : Fin 12) (r : Fin 24) (w : Waiting) (a : Nat × Anvil), (readyWork p s = u) ∧ (issues u p = true) ∧ (anvilNear u p r = false) ∧ (firstWork u p (((ptn u p.val).rowQ.filter fun d => d.1 == r.val && d.2.lanes.all (laneOk u p)).map Waiting.desc) = some w) ∧ ((rivals u p r).any (fun v => workBefore (ptn u p.val) (workOf u v) (workOf u w)) = false) ∧ (victimFor u p r (workOf u w) = some a) ∧ (((anvil u p a.1).chunk.isSome || (saveSlot (ptn u p.val) (anvCtx u (anvil u p a.1))).isSome || holdsSemaphore (anvCtx u (anvil u p a.1)) u) = true)) ∧
    (∃ (s u : State) (p : Fin 12) (r : Fin 24) (w : Waiting) (a : Nat × Anvil), (readyWork p s = u) ∧ (issues u p = true) ∧ (anvilNear u p r = false) ∧ (firstWork u p (((ptn u p.val).rowQ.filter fun d => d.1 == r.val && d.2.lanes.all (laneOk u p)).map Waiting.desc) = some w) ∧ ((rivals u p r).any (fun v => workBefore (ptn u p.val) (workOf u v) (workOf u w)) = false) ∧ (victimFor u p r (workOf u w) = some a) ∧ (((anvil u p a.1).chunk.isSome || (saveSlot (ptn u p.val) (anvCtx u (anvil u p a.1))).isSome || holdsSemaphore (anvCtx u (anvil u p a.1)) u) = false)) :=
  ⟨⟨gSt { gPtn with rowQ := [(0, gDesc)] }, gSt { gPtn with rowQ := [(0, gDesc)] }, 3, 0, (0, gDesc), { cmd := 1, row := 0 }, { ring := 7, ctx := 5, job := 2, home := 3, entry := 0x10 + 2 ^ 128, opcode := 0x10, coll := 6, stage := .running, rows := [{ descended := true }] }, by decide +kernel⟩,
   ⟨gSt { gPtn with resident := [(6, {})], chunkQ := [gChunk] }, gSt { gPtn with resident := [(6, {})], chunkQ := [gChunk] }, 3, 0, gChunk, { gDesc with lanes := [{ cmd := 2, row := 0 }] }, [], { cmd := 2, row := 0 }, { ring := 7, ctx := 6, job := 2, home := 3, entry := 0x10 + 2 ^ 128, opcode := 0x10, coll := 6, stage := .running, rows := [{ descended := true }] }, by decide +kernel⟩,
   ⟨gSt { gPtn with chunkQ := [{ kind := 0, ctx := 5, cmd := some 1 }] }, gSt { gPtn with chunkQ := [{ kind := 0, ctx := 5, cmd := some 1 }] }, 3, 0, { kind := 0, ctx := 5, cmd := some 1 }, by decide +kernel⟩,
   ⟨savedSt, savedSt, 3, 0, 0, (0, { gRun 1 with st := .yielded }), { ctx := 5, anvils := [(0, { gRun 1 with st := .yielded })] }, by decide +kernel⟩,
   ⟨State.reset, State.reset, 3, 0, by decide +kernel⟩,
   ⟨State.reset, 3, [.desc (0, gDesc)], .desc (0, gDesc), .desc (0, gDesc), by decide +kernel⟩,
   ⟨takeSt, readyWork 3 takeSt, 3, 0, .desc (0, gDesc), (0, gRun 2), rfl, by decide +kernel⟩,
   ⟨noSlotSt, readyWork 3 noSlotSt, 3, 0, .desc (0, gDesc), (0, gRun 2), rfl, by decide +kernel⟩⟩
set_option maxRecDepth 20000 in
theorem test_anvil_scheduling_met_2 :
    (∃ (s u : State) (p : Fin 12) (r : Fin 24) (w : Option Waiting), (readyWork p s = u) ∧ (firstWork u p (((ptn u p.val).rowQ.filter fun d => d.1 == r.val && d.2.lanes.all (laneOk u p)).map Waiting.desc) = w) ∧ (issues u p = false ∨ anvilNear u p r = true ∨ w.all (fun w => (rivals u p r).any (fun v => workBefore (ptn u p.val) (workOf u v) (workOf u w)) || (victimFor u p r (workOf u w)).isNone) = true)) ∧
    (∃ (s : State) (p : Fin 12) (a : Fin 864) (n : Nat) (v : SaveSlot), ((ptn s p.val).saves.find? (fun v => v.2.ctx == anvCtx s (anvil s p a) && !v.2.zeroising) = some (n, v)) ∧ ((anvil s p a).st = .yielded) ∧ ((anvil s p a).preempt = true) ∧ (tget (ptn s p.val).saves n = some v)) ∧
    (∃ (s : State) (p : Fin 12) (a : Fin 864), ((ptn s p.val).saves.find? (fun v => v.2.ctx == anvCtx s (anvil s p a) && !v.2.zeroising) = none ∨ (anvil s p a).st ≠ .yielded ∨ (anvil s p a).preempt = false)) ∧
    (∃ (s : State) (p : Fin 12) (x : Nat), (wanted s p x = true) ∧ ((killMode s x || (saveSlot (ptn s p.val) x).isNone) = true) ∧ (holdsSemaphore x s = false)) ∧
    (∃ (s : State) (p : Fin 12) (x : Nat), (holdsSemaphore x s = true ∨ wanted s p x = false ∨ (killMode s x = false ∧ (saveSlot (ptn s p.val) x).isSome = true))) ∧
    (∃ (s : State) (c : Nat) (k : Cmd), (cmd? s c = some k) ∧ (isSearch k.opcode = true) ∧ (k.stage = .running) ∧ (k.origin = none) ∧ (k.kills < 3)) ∧
    (∃ (s : State) (c : Nat) (k : Cmd), (cmd? s c = some k) ∧ (isIngest k.opcode = true) ∧ (k.stage = .queued) ∧ (k.origin = none) ∧ (k.epoch = 0) ∧ (k.committing = false) ∧ (k.kills < 3)) ∧
    (∃ (s : State) (c : Nat) (k : Cmd), (cmd? s c = some k) ∧ (isSearch k.opcode = true ∨ isIngest k.opcode = true) ∧ (k.stage = .running ∨ k.stage = .queued) ∧ (settledBatch k = false) ∧ (k.origin = none) ∧ (k.kills = 3)) :=
  ⟨⟨State.reset, readyWork 3 State.reset, 3, 0, none, rfl, by decide +kernel⟩,
   ⟨gSt { gPtn with anvils := [(0, { gRun 1 with st := .yielded, preempt := true })], saves := [(0, { ctx := 5 })] }, 3, 0, 0, { ctx := 5 }, by decide +kernel⟩,
   ⟨State.reset, 3, 0, by decide +kernel⟩,
   ⟨killSt, 3, 5, by decide +kernel⟩,
   ⟨State.reset, 3, 5, by decide +kernel⟩,
   ⟨killSt, 1, { ring := 7, ctx := 5, job := 2, home := 3, entry := 0x10 + 2 ^ 128, opcode := 0x10, coll := 6, stage := .running, rows := [{ descended := true }] }, by decide +kernel⟩,
   ⟨{ killSt with cmds := [(1, queuedCmd)] }, 1, queuedCmd, by decide +kernel⟩,
   ⟨{ killSt with cmds := [(1, { queuedCmd with kills := 3 })] }, 1, { queuedCmd with kills := 3 }, by decide +kernel⟩⟩
set_option maxRecDepth 20000 in
theorem test_anvil_scheduling_met_3 :
    (∃ (s : State) (c : Nat) (k : Cmd), (cmd? s c = some k) ∧ (settledBatch k = true)) ∧
    (∃ (s : State) (p : Fin 12) (x : Nat), (asked (fun _ => true) s p x = true) ∧ (holdsSemaphore x s = true)) ∧
    (∃ (s : State) (p : Fin 12) (x : Nat), (asked (fun _ => true) s p x = false ∨ holdsSemaphore x s = false)) :=
  ⟨⟨{ killSt with cmds := [(1, { queuedCmd with epoch := 3 })] }, 1, { queuedCmd with epoch := 3 }, by decide +kernel⟩,
   ⟨gSt { gPtn with holders := [(5, [4096])], anvils := [(0, { gRun 1 with preempt := true })] }, 3, 5, by decide +kernel⟩,
   ⟨State.reset, 3, 5, by decide +kernel⟩⟩
set_option maxRecDepth 20000 in
theorem test_residency_swaps_met_1 :
    (∃ (s : State) (p : Fin 12) (c : Nat), ((ptn s p.val).swap = none) ∧ (issues s p = true) ∧ ((ptn s p.val).temp.step < 3) ∧ ((swapQueue s p.val).find? (waits s p) = some c) ∧ (chooseVictim s p c = some none)) ∧
    (∃ (s : State) (p : Fin 12) (c v : Nat), ((ptn s p.val).swap = none) ∧ (issues s p = true) ∧ ((ptn s p.val).temp.step < 3) ∧ ((swapQueue s p.val).find? (waits s p) = some c) ∧ (chooseVictim s p c = some (some v))) ∧
    (∃ (s : State) (p : Fin 12), ((ptn s p.val).swap ≠ none ∨ issues s p = false ∨ 3 ≤ (ptn s p.val).temp.step ∨ ((swapQueue s p.val).find? (waits s p)).all (fun c => (chooseVictim s p c).isNone) = true)) ∧
    (∃ (s : State) (p : Fin 12), ((ptn s p.val).swap = none)) ∧
    (∃ (s : State) (p : Fin 12) (w : Swap), ((ptn s p.val).swap = some w) ∧ (w.suspended = true ∨ issues s p = false)) ∧
    (∃ (s : State) (p : Fin 12) (w : Swap) (v : Nat), ((ptn s p.val).swap = some w) ∧ (w.suspended = false) ∧ (issues s p = true) ∧ (w.phase = 1) ∧ (w.victim = some v) ∧ (stopped s p v = true)) ∧
    (∃ (s : State) (p : Fin 12) (w : Swap) (v : Nat), ((ptn s p.val).swap = some w) ∧ (w.suspended = false) ∧ (issues s p = true) ∧ (w.phase = 2) ∧ (w.victim = some v) ∧ (savedAll s p v = true)) ∧
    (∃ (s : State) (p : Fin 12) (w : Swap), ((ptn s p.val).swap = some w) ∧ (w.suspended = false) ∧ (issues s p = true) ∧ (w.phase = 1 ∨ w.phase = 2)) :=
  ⟨⟨swapSt, 3, 5, by decide +kernel⟩,
   ⟨victimSt, 3, 6, 11, by decide +kernel⟩,
   ⟨State.reset, 3, by decide +kernel⟩,
   ⟨State.reset, 3, by decide +kernel⟩,
   ⟨gSt { gPtn with swap := some { phase := 1, incoming := 5, suspended := true } }, 3, { phase := 1, incoming := 5, suspended := true }, by decide +kernel⟩,
   ⟨gSt { gPtn with swap := some { phase := 1, incoming := 6, victim := some 5 } }, 3, { phase := 1, incoming := 6, victim := some 5 }, 5, by decide +kernel⟩,
   ⟨gSt { gPtn with swap := some { phase := 2, incoming := 6, victim := some 5 } }, 3, { phase := 2, incoming := 6, victim := some 5 }, 5, by decide +kernel⟩,
   ⟨gSt { gPtn with swap := some { phase := 1, incoming := 6 } }, 3, { phase := 1, incoming := 6 }, by decide +kernel⟩⟩
set_option maxRecDepth 20000 in
theorem test_residency_swaps_met_2 :
    (∃ (s v : State) (p : Fin 12) (w : Swap) (x : Ptn), ((ptn s p.val).swap = some w) ∧ (w.suspended = false) ∧ (issues s p = true) ∧ (w.phase = 3) ∧ (placeAll (updPtn p.val (fun x => { x with resident := tset x.resident w.incoming {} }) s) p.val w.incoming = some x) ∧ (restoreRecords p w.incoming (loadPatterns p w.incoming (updPtn p.val (fun _ => { x with resident := tdel x.resident w.incoming }) s)) = v)) ∧
    (∃ (s : State) (p : Fin 12) (w : Swap), ((ptn s p.val).swap = some w) ∧ (w.suspended = false) ∧ (issues s p = true) ∧ (w.phase = 3) ∧ (placeAll (updPtn p.val (fun x => { x with resident := tset x.resident w.incoming {} }) s) p.val w.incoming = none)) ∧
    (∃ (s : State) (p : Fin 12) (w : Swap), ((ptn s p.val).swap = some w) ∧ (w.suspended = false) ∧ (issues s p = true) ∧ (w.phase ≠ 1) ∧ (w.phase ≠ 2) ∧ (w.phase ≠ 3)) :=
  ⟨⟨phase3, restoreRecords 3 6 (loadPatterns 3 6 (updPtn 3 (fun _ => { gPtn with swap := some { phase := 3, incoming := 6 } }) phase3)), 3, { phase := 3, incoming := 6 }, { gPtn with swap := some { phase := 3, incoming := 6 }, resident := [(5, {}), (6, {})] }, by decide +kernel⟩,
   ⟨bigPattern, 3, { phase := 3, incoming := 6 }, by decide +kernel⟩,
   ⟨gSt { gPtn with swap := some { phase := 4, incoming := 6 } }, 3, { phase := 4, incoming := 6 }, by decide +kernel⟩⟩
set_option maxRecDepth 20000 in
theorem test_watchdogs_and_levels_met_1 :
    (∃ (s : State) (p : Fin 12) (u : Nat), (watched u = true) ∧ (0x30 ≤ u) ∧ (u < 0x50) ∧ (watchRuns s u p.val = true) ∧ (covered (.l2 p) s = false)) ∧
    (∃ (s : State) (p : Fin 12) (u : Nat), (watched u = true) ∧ (u < 0x30 ∨ 0x50 ≤ u) ∧ (watchRuns s u p.val = true) ∧ (covered (.l1 u (enginePtn u p.val)) s = false)) ∧
    (∃ (s : State) (c : Nat) (x : Cmd), (cmd? s c = some x) ∧ (x.admitted = true) ∧ (x.stage ≠ .final) ∧ (x.stage ≠ .done) ∧ (x.origin = none) ∧ (covered (.l0 x.ctx) s = false)) ∧
    (∃ (s : State) (c : Nat) (x : Cmd), (cmd? s c = some x)) ∧
    (∃ (s : State) (l : Level) (u p : Nat), (s.levels.find? (fun k => k.level == .l1 u p) = some l) ∧ (u ≠ 0x60) ∧ (p < 12) ∧ (covered (.l2 (Fin.ofNat 12 p)) s = false)) ∧
    (∃ (s : State) (l : Level) (u p : Nat), (s.levels.find? (fun k => k.level == .l1 u p) = some l)) ∧
    (∃ (s : State) (k : LadderLevel), (s.levels.any (fun l => l.level == k) = false)) ∧
    (∃ (s : State) (l : Level) (p : Fin 12), (s.levels.find? (fun k => k.level == .l2 p) = some l) ∧ (covered .l3 s = false)) :=
  ⟨⟨watchedFar, 3, 0x30 + channelOf (3 * 2 ^ 36), by decide +kernel⟩,
   ⟨watchedSearch, 3, 0x00, by decide +kernel⟩,
   ⟨hSt hPtn [], 1, hCmd, by decide +kernel⟩,
   ⟨hSt hPtn [], 1, hCmd, by decide +kernel⟩,
   ⟨hSt hPtn [{ level := .l1 0x53 3 }], { level := .l1 0x53 3 }, 0x53, 3, by decide +kernel⟩,
   ⟨hSt hPtn [{ level := .l1 0x53 3 }], { level := .l1 0x53 3 }, 0x53, 3, by decide +kernel⟩,
   ⟨hSt hPtn [], .l3, by decide +kernel⟩,
   ⟨hSt hPtn [{ level := .l2 3 }], { level := .l2 3 }, 3, by decide +kernel⟩⟩
set_option maxRecDepth 20000 in
theorem test_watchdogs_and_levels_met_2 :
    (∃ (s : State) (l : Level), (s.levels.find? (fun k => k.level == .l3) = some l) ∧ (covered .l4 s = false)) ∧
    (∃ (s : State) (l : Level), (s.levels.find? (fun k => k.level == .l4) = some l)) ∧
    (∃ (s : State) (l : Level) (x : Nat), (s.levels.find? (fun k => k.level == .l0 x) = some l)) ∧
    (∃ (s : State), ((moduleOos s).aon.oos = true ∧ ∀ p < 12, (ptn s p).service ≠ .resetting)) ∧
    (∃ (s : State) (c : Nat) (x : Cmd), (cmd? s c = some x) ∧ (x.admitted = true) ∧ (x.stage ≠ .final) ∧ (x.stage ≠ .done) ∧ (mustCommit x = false)) ∧
    (∃ (s : State) (k : Fin 4) (d : Bool), (k.val > 0)) ∧
    (∃ (s : State) (p : Fin 12), (covered (.l2 p) s = true)) ∧
    (∃ (s : State) (p : Fin 12) (ch : Fin 32), (covered (.l2 p) s = false)) :=
  ⟨⟨hSt hPtn [{ level := .l3 }], { level := .l3 }, by decide +kernel⟩,
   ⟨hSt hPtn [{ level := .l4 }], { level := .l4 }, by decide +kernel⟩,
   ⟨hSt hPtn [{ level := .l0 5, pending := [(2, 3)] }], { level := .l0 5, pending := [(2, 3)] }, 5, by decide +kernel⟩,
   ⟨{ State.reset with aon := { State.reset.aon with oos := true } }, by decide +kernel⟩,
   ⟨hSt hPtn [], 1, hCmd, by decide +kernel⟩,
   ⟨hSt hPtn [], 1, true, by decide +kernel⟩,
   ⟨hSt hPtn [{ level := .l2 3 }], 3, by decide +kernel⟩,
   ⟨hSt hPtn [], 3, 2, by decide +kernel⟩⟩
set_option maxRecDepth 20000 in
theorem test_watchdogs_and_levels_met_3 :
    (∃ (s : State), ((s.levels.any fun l => l.level == .l3) = true) ∧ (s.hearthUp = true) ∧ ((s.levels.any fun l => l.level == .l3 && l.last) = false ∨ s.aon.oos = true)) ∧
    (∃ (s : State), ((s.levels.any fun l => l.level == .l3) = true) ∧ (s.hearthUp = true) ∧ ((s.levels.any fun l => l.level == .l3 && l.last) = true) ∧ (s.aon.oos = false)) ∧
    (∃ (s : State), ((s.levels.any fun l => l.level == .l3) = false ∨ s.hearthUp = false)) :=
  ⟨⟨{ hSt hPtn [{ level := .l3 }] with hearthUp := true, aon := { Aon.shipped with chipWin := { isOpen := true, count := 4 } } }, by decide +kernel⟩,
   ⟨{ hSt hPtn [l3Last] with hearthUp := true }, by decide +kernel⟩,
   ⟨hSt hPtn [], by decide +kernel⟩⟩
set_option maxRecDepth 20000 in
theorem test_fences_and_partition_resets_met_1 :
    (∃ (s : State) (p : Fin 12) (f : FenceRec), ((ptn s p.val).fence = some f) ∧ (f.step = 0)) ∧
    (∃ (s : State) (p : Fin 12) (f : FenceRec), ((ptn s p.val).fence = some f) ∧ (f.step = 3)) ∧
    (∃ (s : State) (c : Nat) (x : Cmd), (cmd? s c = some x) ∧ (settledBatch x = true)) ∧
    (∃ (s : State) (p : Fin 12) (c : Nat) (f : FenceRec) (y : Coll), ((ptn s p.val).fence = some f) ∧ (f.step = 6) ∧ ((ptn s p.val).service = .resetting) ∧ (f.memory = true) ∧ (tget s.colls c = some y) ∧ (y.state ≠ .free) ∧ (framesIn s p c y = true)) ∧
    (∃ (s : State) (p : Fin 12) (f : FenceRec), ((ptn s p.val).fence = some f) ∧ (f.step = 6) ∧ ((ptn s p.val).service = .resetting) ∧ (lastL2 s p.val = true)) ∧
    (∃ (s : State) (p : Fin 12) (f : FenceRec), ((ptn s p.val).fence = some f) ∧ (f.step = 6) ∧ ((ptn s p.val).service = .resetting) ∧ (lastL2 s p.val = false) ∧ (s.aon.oos = false) ∧ ((ptn s p.val).temp.step ≠ 4) ∧ ((ptn s p.val).job.isSome = true ∨ creating s p = true)) ∧
    (∃ (s : State) (p : Fin 12) (f : FenceRec), ((ptn s p.val).fence = some f) ∧ (f.step = 6) ∧ ((ptn s p.val).service = .resetting) ∧ (lastL2 s p.val = false) ∧ (s.aon.oos = false) ∧ ((ptn s p.val).temp.step = 4)) ∧
    (∃ (s : State) (p : Fin 12) (f : FenceRec), ((ptn s p.val).fence = some f) ∧ (f.step = 6) ∧ ((ptn s p.val).service = .resetting) ∧ (lastL2 s p.val = false) ∧ (s.aon.oos = false) ∧ ((ptn s p.val).temp.step ≠ 4) ∧ ((ptn s p.val).job = none) ∧ (creating s p = false)) :=
  ⟨⟨hSt { hPtn with fence := some (hFence 0) } [], 3, hFence 0, by decide +kernel⟩,
   ⟨hSt { hPtn with fence := some (hFence 3) } [], 3, hFence 3, by decide +kernel⟩,
   ⟨{ State.reset with cmds := [(1, { hCmd with opcode := 0x20, epoch := 4, stage := .committed })] }, 1, { hCmd with opcode := 0x20, epoch := 4, stage := .committed }, by decide +kernel⟩,
   ⟨resetPt { hPtn with regions := [(2, { job := 2, coll := some 6, inUse := true, use := .strata 0 })] }, 3, 6, { hFence 6 with memory := true }, { job := 2, state := .untrained, d := 32, latest := 4, horizon := 4 }, by decide +kernel⟩,
   ⟨lastSt, 3, hFence 6, by decide +kernel⟩,
   ⟨resetSt 1, 3, hFence 6, by decide +kernel⟩,
   ⟨resetPt { hPtn with temp := { step := 4 } }, 3, { hFence 6 with memory := true }, by decide +kernel⟩,
   ⟨resetPt { hPtn with job := none }, 3, { hFence 6 with memory := true }, by decide +kernel⟩⟩
set_option maxRecDepth 20000 in
theorem test_fences_and_partition_resets_met_2 :
    (∃ (s : State) (p : Fin 12) (f : FenceRec), ((ptn s p.val).fence = some f) ∧ (f.step = 6) ∧ ((ptn s p.val).service = .resetting) ∧ (lastL2 s p.val = false) ∧ (s.aon.oos = true)) :=
  ⟨{ resetSt 1 with aon := { (resetSt 1).aon with oos := true } }, 3, hFence 6, by decide +kernel⟩

set_option maxRecDepth 20000 in
theorem test_power_states_met_1 :
    (∃ (s : State) (p : Fin 12), (mayWarm s p.val = true) ∧ ((ptn s p.val).warmUs ≠ 0)) ∧
    (∃ (s : State) (p : Fin 12), ((ptn s p.val).warmUs = 0 ∨ mayWarm s p.val = false)) ∧
    (∃ (s : State) (p : Fin 12), (mayBank s p.val = true) ∧ ((ptn s p.val).bankedMs ≠ 0)) ∧
    (∃ (s : State) (p : Fin 12), ((ptn s p.val).bankedMs = 0 ∨ mayBank s p.val = false)) ∧
    (∃ (s : State) (p : Fin 12), ((ptn s p.val).banking ≠ some 4)) ∧
    (∃ (s : State) (p : Fin 12), ((ptn s p.val).banking = some 4)) ∧
    (∃ (s : State) (p : Fin 12), ((ptn s p.val).service = .inService) ∧ (s.aon.oos = false) ∧ ((ptn s p.val).banking = none) ∧ ((ptn s p.val).exiting = none) ∧ ((ptn s p.val).power = .warm ∨ (ptn s p.val).power = .banked)) ∧
    (∃ (s : State) (p : Fin 12) (k : Nat), ((ptn s p.val).service = .inService) ∧ (s.aon.oos = false) ∧ ((ptn s p.val).banking = some k) ∧ (k < 4)) :=
  ⟨⟨qSt (qPtn .forge), 3, by decide +kernel⟩,
   ⟨qSt { qPtn .forge with warmUs := 0 }, 3, by decide +kernel⟩,
   ⟨qSt (qPtn .warm), 3, by decide +kernel⟩,
   ⟨qSt { qPtn .forge with bankedMs := 0 }, 3, by decide +kernel⟩,
   ⟨qSt (qPtn .forge), 3, by decide +kernel⟩,
   ⟨qSt { qPtn .forge with banking := some 4 }, 3, by decide +kernel⟩,
   ⟨qSt (qPtn .warm), 3, by decide +kernel⟩,
   ⟨qSt { qPtn .forge with banking := some 2 }, 3, 2, by decide +kernel⟩⟩
set_option maxRecDepth 20000 in
theorem test_power_states_met_2 :
    (∃ (s : State) (p : Fin 12), ((ptn s p.val).banking = none) ∧ (((ptn s p.val).power ≠ .warm ∧ (ptn s p.val).power ≠ .banked) ∨ (ptn s p.val).exiting.isSome = true)) ∧
    (∃ (s : State) (p : Fin 12) (k : Nat), ((ptn s p.val).service = .inService) ∧ (s.aon.oos = false) ∧ ((ptn s p.val).banking = some k) ∧ (4 ≤ k)) ∧
    (∃ (s : State) (p : Fin 12), ((ptn s p.val).service ≠ .inService ∨ s.aon.oos = true)) ∧
    (∃ (s : State) (p : Fin 12) (was : Power) (failed : List Nat), ((ptn s p.val).exiting = some was) ∧ ((ptn s p.val).power = was) ∧ ((ptn s p.val).banking = none)) ∧
    (∃ (s : State) (p : Fin 12), (∀ was, (ptn s p.val).exiting = some was → (ptn s p.val).power ≠ was ∨ (ptn s p.val).banking ≠ none)) ∧
    (∃ (s : State) (p : Fin 12), ((ptn s p.val).power ≠ .cold) ∧ (covered (.l2 p) s = true)) ∧
    (∃ (s : State) (p : Fin 12), ((ptn s p.val).power ≠ .cold) ∧ (covered (.l2 p) s = false)) ∧
    (∃ (s : State) (p : Fin 12), ((ptn s p.val).power = .cold)) :=
  ⟨⟨qSt (qPtn .forge), 3, by decide +kernel⟩,
   ⟨qSt { qPtn .forge with banking := some 4 }, 3, 4, by decide +kernel⟩,
   ⟨qSt { qPtn .banked with service := .fenced }, 3, by decide +kernel⟩,
   ⟨qSt { qPtn .banked with exiting := some .banked }, 3, .banked, [7], by decide +kernel⟩,
   ⟨qSt { qPtn .warm with exiting := some .warm, banking := some 4 }, 3, fun was h => by cases h; decide +kernel⟩,
   ⟨{ qSt (qPtn .warm) with levels := [{ level := .l2 3 }] }, 3, by decide +kernel⟩,
   ⟨qSt (qPtn .warm), 3, by decide +kernel⟩,
   ⟨qSt (qPtn .cold), 3, by decide +kernel⟩⟩
set_option maxRecDepth 20000 in
theorem test_zeroisation_met :
    (∃ (s : State) (p : Fin 12), ((ptn s p.val).zeroising = true) ∧ ((ptn s p.val).power = .forge)) ∧
    (∃ (s : State) (p : Fin 12) (r : Fin 3968), (∀ g, tget (ptn s p.val).regions r.val = some g → g.inUse = false)) ∧
    (∃ (s : State) (p : Fin 12), ((ptn s p.val).zeroising = false ∨ (ptn s p.val).power ≠ .forge)) ∧
    (∃ (s : State) (p : Fin 12) (r : Nat), ((tget (ptn s p.val).regions r).any (·.inUse) = true ∨ (tget (ptn s p.val).regions r = none ∧ 3968 ≤ r))) ∧
    (∃ (s : State) (p n : Fin 12), ((tget (ptn s p.val).saves n.val).any (·.zeroising) = false)) ∧
    (∃ (s : State) (p : Fin 12) (n : Fin 12) (v : SaveSlot), (tget (ptn s p.val).saves n.val = some v) ∧ (v.zeroising = true)) :=
  ⟨⟨qSt { qPtn .forge with zeroising := true }, 3, by decide +kernel⟩,
   ⟨qSt (qPtn .forge), 3, 4, by decide +kernel⟩,
   ⟨qSt (qPtn .forge), 3, by decide +kernel⟩,
   ⟨qSt { qPtn .forge with regions := [(4, { job := 2 })] }, 3, 4, by decide +kernel⟩,
   ⟨qSt (qPtn .forge), 3, 2, by decide +kernel⟩,
   ⟨qSt { qPtn .forge with saves := [(2, { ctx := 5, zeroising := true })] }, 3, 2, { ctx := 5, zeroising := true }, by decide +kernel⟩⟩

set_option maxRecDepth 20000 in
theorem test_power_and_temperature_met_1 :
    (∃ (s : State) (i o : Option Int), (s.pins.pwrgd = true)) ∧
    (∃ (s : State) (i o : Option Int), (s.pins.pwrgd = true)) ∧
    (∃ (s : State), (s.pins.pwrgd = true) ∧ (s.power.excursion = false) ∧ (sum s.power.p10 ≤ s.aon.plim * max 1 s.power.p10.length ∨ s.power.dp ≠ 15 ∨ s.power.highMs = 0)) ∧
    (∃ (s : State), (s.pins.pwrgd = true) ∧ (s.power.excursion = false) ∧ (sum s.power.p10 > s.aon.plim * max 1 s.power.p10.length) ∧ (s.power.dp = 15) ∧ (s.power.highMs ≥ 1)) ∧
    (∃ (s : State), (s.pins.pwrgd = true) ∧ (s.power.excursion = true) ∧ (s.power.lowMs < 10 ∨ s.aon.plim * max 1 s.power.p10.length ≤ sum s.power.p10)) ∧
    (∃ (s : State), (s.pins.pwrgd = true) ∧ (s.power.excursion = true) ∧ (10 ≤ s.power.lowMs) ∧ (sum s.power.p10 < s.aon.plim * max 1 s.power.p10.length)) ∧
    (∃ (s : State) (i o : Option Int), (s.pins.pwrgd = false)) ∧
    (∃ (s : State) (i o : Option Int), (s.pins.pwrgd = false)) :=
  ⟨⟨rSt {}, some 91, some 100, by decide +kernel⟩,
   ⟨rSt {}, some 91, some 100, by decide +kernel⟩,
   ⟨rSt { p10 := [1400], dp := 3 }, by decide +kernel⟩,
   ⟨rSt { p10 := [1550], dp := 15, highMs := 1 }, by decide +kernel⟩,
   ⟨rSt { p10 := [1400], dp := 15, excursion := true, lowMs := 3 }, by decide +kernel⟩,
   ⟨rSt { excursion := true, lowMs := 10, p10 := [100] }, by decide +kernel⟩,
   ⟨State.reset, some 60, none, by decide +kernel⟩,
   ⟨State.reset, some 60, none, by decide +kernel⟩⟩
set_option maxRecDepth 20000 in
theorem test_power_and_temperature_met_2 :
    (∃ (s : State) (i o : Option Int), (s.pins.pwrgd = false)) ∧
    (∃ (s : State) (i o : Option Int), (s.pins.pwrgd = false)) ∧
    (∃ (s : State) (i o : Option Int), (s.pins.pwrgd = false)) ∧
    (∃ (s : State) (i o : Option Int), (s.pins.pwrgd = false)) ∧
    (∃ (s : State) (d : Die) (v : Int), (s.pins.pwrgd = true) ∧ (-40 ≤ v) ∧ (v ≤ 150) ∧ ((dieOf d s.power).samples.length = 4)) ∧
    (∃ (s : State) (d : Die) (v : Option Int), (s.pins.pwrgd = true) ∧ (∀ x, v = some x → x < -40 ∨ 150 < x) ∧ ((dieOf d s.power).armed = false ∨ (∀ f, (dieOf d s.power).filtered = some f → f < 100))) ∧
    (∃ (s : State) (d : Die) (v : Int) (l : List Int), (s.pins.pwrgd = true) ∧ (-40 ≤ v) ∧ (v ≤ 150) ∧ (l = ((dieOf d s.power).samples ++ [v]).drop ((dieOf d s.power).samples.length - 4))) ∧
    (∃ (s : State) (d : Die), (s.pins.pwrgd = true) ∧ ((dieOf d s.power).filtered = none)) :=
  ⟨⟨State.reset, some 60, none, by decide +kernel⟩,
   ⟨State.reset, some 60, none, by decide +kernel⟩,
   ⟨State.reset, some 60, none, by decide +kernel⟩,
   ⟨State.reset, some 60, none, by decide +kernel⟩,
   ⟨rSt { west := { samples := [99, 98, 97, 101] } }, .west, 100, by decide +kernel⟩,
   ⟨rSt { west := { armed := false } }, .west, some 200, rfl, by intro x h; cases h; exact .inr (by decide), .inl rfl⟩,
   ⟨rSt {}, .west, 90, [90], by decide +kernel⟩,
   ⟨rSt {}, .west, by decide +kernel⟩⟩
set_option maxRecDepth 20000 in
theorem test_power_and_temperature_met_3 :
    (∃ (s : State) (d : Die) (v : Option Int) (f : Int), (s.pins.pwrgd = true) ∧ ((dieOf d s.power).armed = true) ∧ ((sampleDie v (dieOf d s.power)).filtered = some f) ∧ (100 ≤ f)) ∧
    (∃ (s : State) (d : Die) (f : Int), (s.pins.pwrgd = true) ∧ ((dieOf d s.power).filtered = some f)) ∧
    (∃ (s : State) (i o : Option Int), (s.pins.pwrgd = true)) :=
  ⟨⟨rSt { west := { samples := [99, 100, 98, 101], filtered := some 99 } }, .west, some 102, 100, by decide +kernel⟩,
   ⟨rSt { east := { filtered := some 100, depth := 15 } }, .east, 100, by decide +kernel⟩,
   ⟨rSt {}, some 91, some 100, by decide +kernel⟩⟩
set_option maxRecDepth 20000 in
theorem test_supplies_and_boot_met_1 :
    (∃ (s : State), (s.pins.aux = false)) ∧
    (∃ (s : State), (s.pins.aux = true)) ∧
    (∃ (s : State), (s.pins.aux = true)) ∧
    (∃ (s : State), (s.pins.aux = false)) ∧
    (∃ (s : State), (s.pins.pwrEn = false)) ∧
    (∃ (s : State), (s.pins.pwrEn = false ∨ s.pins.load = false ∨ s.pins.aux = false ∨ s.pins.pwrgd = true ∨ s.pins.thermtrip = true)) ∧
    (∃ (s : State), (s.pins.pwrgd = false)) ∧
    (∃ (s : State), (s.pins.pwrEn = true)) :=
  ⟨⟨oSt oAon { aux := false }, by decide +kernel⟩,
   ⟨oSt { oAon with leak := true } {}, by decide +kernel⟩,
   ⟨oSt { oAon with leak := true } {}, by decide +kernel⟩,
   ⟨oSt oAon { aux := false }, by decide +kernel⟩,
   ⟨oSt oAon { pwrEn := false }, by decide +kernel⟩,
   ⟨oSt oAon { pwrEn := false }, by decide +kernel⟩,
   ⟨oSt oAon {}, by decide +kernel⟩,
   ⟨oSt oAon {}, by decide +kernel⟩⟩
set_option maxRecDepth 20000 in
theorem test_supplies_and_boot_met_2 :
    (∃ (s : State), (s.pins.load = true)) ∧
    (∃ (s : State), (s.pins.load = false)) ∧
    (∃ (s : State), (s.pins.pwrEn = true) ∧ (s.pins.load = true) ∧ (s.pins.aux = true) ∧ (s.pins.pwrgd = false) ∧ (s.pins.thermtrip = false)) ∧
    (∃ (s : State), (s.pins.pwrgd = true) ∧ (s.hearthUp = false) ∧ (s.aon.leak = false) ∧ (s.hearth.recovery = false) ∧ (s.hearth.restarting = false) ∧ (s.aon.nextReset = none) ∧ (slotValid s.aon s.aon.committed = true)) ∧
    (∃ (s : State) (b : Bool), (s.pins.pwrgd = true) ∧ (s.hearthUp = false) ∧ (s.aon.leak = false) ∧ (s.hearth.recovery = false) ∧ (s.hearth.restarting = false) ∧ (s.aon.nextReset = some b) ∧ ((fwSlot s.aon b).valid = true) ∧ (s.aon.rollback ≤ (fwSlot s.aon b).sv)) ∧
    (∃ (s : State), (s.pins.pwrgd = true) ∧ (s.hearthUp = false) ∧ (s.aon.leak = false) ∧ (s.hearth.recovery = false) ∧ (s.hearth.restarting = false) ∧ (s.aon.nextReset = none) ∧ (slotValid s.aon s.aon.committed = false) ∧ (slotValid s.aon (!s.aon.committed) = true)) ∧
    (∃ (s : State), (s.pins.pwrgd = true) ∧ (s.hearthUp = false) ∧ (s.aon.leak = false) ∧ (s.hearth.recovery = false) ∧ (s.hearth.restarting = false) ∧ (s.aon.nextReset = none) ∧ (slotValid s.aon s.aon.committed = false) ∧ (slotValid s.aon (!s.aon.committed) = false)) ∧
    (∃ (s : State), (s.aon.leak = true ∨ s.pins.pwrgd = false ∨ s.hearthUp = true ∨ s.hearth.recovery = true ∨ s.hearth.restarting = true)) :=
  ⟨⟨oSt oAon { pwrgd := true }, by decide +kernel⟩,
   ⟨oSt oAon { load := false }, by decide +kernel⟩,
   ⟨State.reset, by decide +kernel⟩,
   ⟨oSt oAon { pwrgd := true }, by decide +kernel⟩,
   ⟨oSt { oAon with committed := true, nextReset := some false } { pwrgd := true }, false, by decide +kernel⟩,
   ⟨oSt { oAon with committed := true } { pwrgd := true }, by decide +kernel⟩,
   ⟨oSt {} { pwrgd := true }, by decide +kernel⟩,
   ⟨oSt { oAon with leak := true } { pwrgd := true }, by decide +kernel⟩⟩
set_option maxRecDepth 20000 in
theorem test_supplies_and_boot_met_3 :
    (∃ (s : State) (d : Die), (s.pins.pwrgd = true)) ∧
    (∃ (s : State), (s.pins.aux = true) ∧ (s.aon.leak = false)) ∧
    (∃ (s : State), (s.aon.leak = true ∨ s.pins.aux = false)) ∧
    (∃ (s : State), (s.pins.load = true) ∧ (covered .l4 s = false)) ∧
    (∃ (s : State), (s.pins.load = true) ∧ (covered .l4 s = true)) ∧
    (∃ (s : State), (s.pins.load = false)) :=
  ⟨⟨oSt oAon { pwrgd := true }, .east, by decide +kernel⟩,
   ⟨oSt oAon { pwrgd := true }, by decide +kernel⟩,
   ⟨oSt { oAon with leak := true } {}, by decide +kernel⟩,
   ⟨oSt oAon { pwrgd := true }, by decide +kernel⟩,
   ⟨{ oSt oAon { pwrgd := true, load := true } with levels := [{ level := .l4 }] }, by decide +kernel⟩,
   ⟨oSt oAon { load := false }, by decide +kernel⟩⟩
set_option maxRecDepth 20000 in
theorem test_tray_controller_met_1 :
    (∃ (s : State) (x : PldmSensor), (s.pins.aux = true)) ∧
    (∃ (s : State) (x : PldmSensor), (s.pins.aux = true)) ∧
    (∃ (s : State) (x : PldmSensor), (s.pins.aux = true)) ∧
    (∃ (s : State) (w : Nat), (s.pins.aux = true) ∧ (600 ≤ w) ∧ (w ≤ 1500)) ∧
    (∃ (s : State) (w : Nat), (s.pins.aux = true) ∧ (w < 600 ∨ 1500 < w)) ∧
    (∃ (s : State) (x : PldmSensor), (s.pins.aux = true)) ∧
    (∃ (s : State) (img : List Byte), (s.pins.aux = true) ∧ (s.hearthUp = true) ∧ (sessionElsewhere s 3 = false) ∧ (img ≠ []) ∧ (img.length ≤ 2 ^ 22)) ∧
    (∃ (s : State) (img : List Byte), (s.pins.aux = true) ∧ (sessionElsewhere s 3 = true ∨ s.hearthUp = false ∨ img = [] ∨ 2 ^ 22 < img.length)) :=
  ⟨⟨State.reset, .plim, by decide +kernel⟩,
   ⟨State.reset, .plim, by decide +kernel⟩,
   ⟨State.reset, .plim, by decide +kernel⟩,
   ⟨State.reset, 600, by decide +kernel⟩,
   ⟨State.reset, 1501, by decide +kernel⟩,
   ⟨State.reset, .plim, by decide +kernel⟩,
   ⟨{ State.reset with hearthUp := true }, [1], by decide +kernel⟩,
   ⟨State.reset, [1], by decide +kernel⟩⟩
set_option maxRecDepth 20000 in
theorem test_tray_controller_met_2 :
    (∃ (s : State) (w : Nat), (s.pins.aux = false)) ∧
    (∃ (s : State) (w : Nat), (s.pins.aux = false)) ∧
    (∃ (s : State) (w : Nat), (s.pins.aux = false)) ∧
    (∃ (s : State) (w : Nat), (s.pins.aux = false)) :=
  ⟨⟨{ State.reset with pins := { aux := false } }, 700, by decide +kernel⟩,
   ⟨{ State.reset with pins := { aux := false } }, 700, by decide +kernel⟩,
   ⟨{ State.reset with pins := { aux := false } }, 700, by decide +kernel⟩,
   ⟨{ State.reset with pins := { aux := false } }, 700, by decide +kernel⟩⟩
set_option maxRecDepth 20000 in
theorem test_boundary_scan_met_1 :
    (∃ (s : State), (s.pins.aux = true) ∧ (scanAllowed s = true)) ∧
    (∃ (s : State), (s.pins.aux = true) ∧ (scanAllowed s = false)) ∧
    (∃ (s : State), (s.pins.aux = true) ∧ (scanAllowed s = true)) ∧
    (∃ (s : State), (s.pins.aux = true) ∧ (scanAllowed s = false)) ∧
    (∃ (s : State), (s.pins.aux = true) ∧ (scanAllowed s = true)) ∧
    (∃ (s : State), (s.pins.aux = true) ∧ (scanAllowed s = false)) ∧
    (∃ (s : State), (s.pins.aux = true) ∧ (scanAllowed s = true)) ∧
    (∃ (s : State), (s.pins.aux = true) ∧ (scanAllowed s = false)) :=
  ⟨⟨ySt {}, by decide +kernel⟩,
   ⟨{ ySt {} with jobs := [(2, { ptns := [3] })] }, by decide +kernel⟩,
   ⟨ySt {}, by decide +kernel⟩,
   ⟨{ ySt {} with jobs := [(2, { ptns := [3] })] }, by decide +kernel⟩,
   ⟨ySt {}, by decide +kernel⟩,
   ⟨{ ySt {} with jobs := [(2, { ptns := [3] })] }, by decide +kernel⟩,
   ⟨ySt {}, by decide +kernel⟩,
   ⟨{ ySt {} with jobs := [(2, { ptns := [3] })] }, by decide +kernel⟩⟩
set_option maxRecDepth 20000 in
theorem test_boundary_scan_met_2 :
    (∃ (s : State), (s.pins.aux = true) ∧ (scanAllowed s = true)) ∧
    (∃ (s : State), (s.pins.aux = true) ∧ (scanAllowed s = false)) ∧
    (∃ (s : State) (v : List Bool), (s.pins.aux = true)) ∧
    (∃ (s : State) (v : List Bool), (s.pins.aux = true)) ∧
    (∃ (s : State) (c : BitVec 8), (s.pins.aux = true) ∧ (6 < c.toNat)) ∧
    (∃ (s : State), (s.pins.aux = false)) ∧
    (∃ (c : BitVec 8), (c.toNat ≤ 6)) :=
  ⟨⟨ySt {}, by decide +kernel⟩,
   ⟨{ ySt {} with jobs := [(2, { ptns := [3] })] }, by decide +kernel⟩,
   ⟨ySt { instr := 5, functional := false }, yLane, by decide +kernel⟩,
   ⟨ySt { instr := 5, functional := false }, yLane, by decide +kernel⟩,
   ⟨ySt { instr := 5, functional := false }, 0x77, by decide +kernel⟩,
   ⟨oSt oAon { aux := false }, by decide +kernel⟩,
   ⟨5, by decide⟩⟩
set_option maxRecDepth 20000 in
theorem test_port_states_met_1 :
    (∃ (s : State) (n : Fin 4), (bringingUp (port s n.val) = true) ∧ ((port s n.val).step = 1)) ∧
    (∃ (s : State) (n : Fin 4) (l : BitVec 4), (bringingUp (port s n.val) = true) ∧ ((port s n.val).step = 1) ∧ (l ≠ 0xF) ∧ (spanningJobs s = []) ∧ (cmdsOf (fun x => x.parked) s = []) ∧ (s.icern.requests = [])) ∧
    (∃ (s : State) (n : Fin 4) (l : BitVec 4), (bringingUp (port s n.val) = true) ∧ ((port s n.val).step = 2)) ∧
    (∃ (s : State) (n : Fin 4) (l : BitVec 4), ((port s n.val).st = .init) ∧ ((port s n.val).step = 4) ∧ ((port s n.val).beat = true)) ∧
    (∃ (s : State) (n : Fin 4), (bringingUp (port s n.val) = false)) ∧
    (∃ (s : State) (n : Fin 4), (((port s n.val).step = 4 ∧ (port s n.val).beat = false) ∨ (port s n.val).step = 0 ∨ (port s n.val).step = 3 ∨ 4 < (port s n.val).step)) ∧
    (∃ (s : State) (n : Fin 4), (bringingUp (port s n.val) = true) ∧ (spanningJobs s = []) ∧ (cmdsOf (fun x => x.parked) s = []) ∧ (s.icern.requests = [])) ∧
    (∃ (s : State) (n : Fin 4), (bringingUp (port s n.val) = false)) :=
  ⟨⟨zP { st := .training, step := 1 }, 1, by decide +kernel⟩,
   ⟨zP { st := .training, step := 1 }, 1, 7, by decide +kernel⟩,
   ⟨zP { st := .training, step := 2 }, 1, 0, by decide +kernel⟩,
   ⟨zP { st := .init, step := 4, beat := true }, 1, 0, by decide +kernel⟩,
   ⟨zP zUp, 1, by decide +kernel⟩,
   ⟨zP { st := .init, step := 4 }, 1, by decide +kernel⟩,
   ⟨zP { st := .init, step := 3 }, 1, by decide +kernel⟩,
   ⟨zP zUp, 1, by decide +kernel⟩⟩
set_option maxRecDepth 20000 in
theorem test_port_states_met_2 :
    (∃ (s : State) (n : Fin 4), ((port s n.val).st = .down) ∧ (bit s.aon.enable.toNat n.val = true) ∧ ((port s n.val).countedStep1 = true)) ∧
    (∃ (s : State) (n : Fin 4), ((port s n.val).st = .down) ∧ (bit s.aon.enable.toNat n.val = true) ∧ ((port s n.val).countedStep1 = false) ∧ ((openCount s.aon.ticks s.aon.linkWin).count < 9 ∨ s.aon.oos = true)) ∧
    (∃ (s : State) (n : Fin 4), (bit s.aon.enable.toNat n.val = false ∨ (port s n.val).st ≠ .down)) ∧
    (∃ (s : State) (n : Fin 4), ((port s n.val).st = .down) ∧ (bit s.aon.enable.toNat n.val = true) ∧ ((port s n.val).countedStep1 = false) ∧ (9 ≤ (openCount s.aon.ticks s.aon.linkWin).count) ∧ (s.aon.oos = false)) ∧
    (∃ (s : State) (n : Fin 4) (l : BitVec 4), (bringingUp (port s n.val) = true) ∧ ((port s n.val).step = 1) ∧ (l ≠ 0xF)) ∧
    (∃ (s : State) (n : Fin 4), (bringingUp (port s n.val) = true)) ∧
    (∃ (s : State) (n : Fin 4), ((port s n.val).st = .up)) ∧
    (∃ (s : State) (n : Fin 4), (beating (port s n.val) = true)) :=
  ⟨⟨zP { st := .down, countedStep1 := true }, 1, by decide +kernel⟩,
   ⟨zP { st := .down }, 1, by decide +kernel⟩,
   ⟨zP { st := .down }, 2, by decide +kernel⟩,
   ⟨{ zP { st := .down } with aon := { (zP {}).aon with linkWin := { isOpen := true, count := 8 } } }, 1, by decide +kernel⟩,
   ⟨zP { st := .training, step := 1 }, 1, 7, by decide +kernel⟩,
   ⟨zP { st := .init, step := 3 }, 1, by decide +kernel⟩,
   ⟨zP zUp, 1, by decide +kernel⟩,
   ⟨zP zUp, 1, by decide +kernel⟩⟩
set_option maxRecDepth 20000 in
theorem test_port_states_met_3 :
    (∃ (s : State) (n : Fin 4), (beating (port s n.val) = false)) ∧
    (∃ (s : State) (n : Fin 4), ((port s n.val).st = .up) ∧ (spanningJobs s = []) ∧ (cmdsOf (fun x => x.parked) s = []) ∧ (s.icern.requests = [])) ∧
    (∃ (s : State) (n : Fin 4), ((port s n.val).st = .up) ∧ (spanningJobs s = []) ∧ (cmdsOf (fun x => x.parked) s = []) ∧ (s.icern.requests = [])) ∧
    (∃ (s : State) (n : Fin 4), ((port s n.val).st ≠ .up)) :=
  ⟨⟨zP { st := .down }, 1, by decide +kernel⟩,
   ⟨zP zUp, 1, by decide +kernel⟩,
   ⟨zP zUp, 1, by decide +kernel⟩,
   ⟨zP { st := .down }, 1, by decide +kernel⟩⟩
set_option maxRecDepth 20000 in
theorem test_flits_met_1 :
    (∃ (s : State) (n : Fin 4) (f : Flit), (beating (port s n.val) = true) ∧ (f.seq = (port s n.val).expSeq) ∧ (f.first = true) ∧ (f.last = true) ∧ ((readMsg f.body).dst = s.aon.modid)) ∧
    (∃ (s : State) (n : Fin 4) (f : Flit), (beating (port s n.val) = true) ∧ (f.seq ≠ (port s n.val).expSeq)) ∧
    (∃ (s : State) (n : Fin 4) (f : Flit), (beating (port s n.val) = false)) ∧
    (∃ (s : State) (n : Fin 4) (fec : Bool), (beating (port s n.val) = true)) ∧
    (∃ (s : State) (n : Fin 4) (f : Flit) (bs : List Byte), (beating (port s n.val) = true) ∧ (f.seq = (port s n.val).expSeq) ∧ ((f.first = false ∧ tget (port s n.val).rx f.vc.val = some (.own bs)) ∨ (f.first = true ∧ ((readMsg f.body).dst = s.aon.modid ∨ (readMsg f.body).type = 7) ∧ bs = []))) ∧
    (∃ (s : State) (n : Fin 4) (f : Flit), (beating (port s n.val) = true) ∧ (f.seq = (port s n.val).expSeq) ∧ (f.first = true) ∧ ((readMsg f.body).dst ≠ s.aon.modid) ∧ ((readMsg f.body).type ≠ 7) ∧ ((readMsg f.body).ttl ≤ 1)) ∧
    (∃ (s : State) (n : Fin 4) (f : Flit), (beating (port s n.val) = true) ∧ (f.seq = (port s n.val).expSeq) ∧ (f.first = true) ∧ ((readMsg f.body).dst ≠ s.aon.modid) ∧ ((readMsg f.body).type ≠ 7) ∧ (1 < (readMsg f.body).ttl) ∧ (∀ o, routeOf s (readMsg f.body).dst = some o → (port s o).st ≠ .up)) ∧
    (∃ (s : State) (n : Fin 4) (f : Flit) (o : Nat), (beating (port s n.val) = true) ∧ (f.seq = (port s n.val).expSeq) ∧ (f.first = true) ∧ ((readMsg f.body).dst ≠ s.aon.modid) ∧ ((readMsg f.body).type ≠ 7) ∧ (1 < (readMsg f.body).ttl) ∧ (routeOf s (readMsg f.body).dst = some o) ∧ ((port s o).st = .up)) :=
  ⟨⟨zP zUp, 1, zF, by decide +kernel⟩,
   ⟨zP { zUp with expSeq := 4 }, 1, zF, by decide +kernel⟩,
   ⟨zP { st := .down }, 1, zF, by decide +kernel⟩,
   ⟨zP zUp, 1, true, by decide +kernel⟩,
   ⟨zP { zUp with rx := [(2, .own [1])] }, 1, { zF with first := false }, [1], by decide +kernel⟩,
   ⟨zP zUp, 1, { zF with body := [8, 0, 3, 7, 0, 0, 0, 0, 0, 2, 1, 0, 0, 0, 0, 0] ++ List.replicate 224 0 }, by decide +kernel⟩,
   ⟨zP zUp, 1, zT, rfl, rfl, rfl, by decide, by decide, by decide, fun o h => absurd (h.symm.trans (show routeOf (zP zUp) (readMsg zT.body).dst = none from by decide +kernel)) (by simp)⟩,
   ⟨zRoute zUp, 1, zT, 1, by decide +kernel⟩⟩
set_option maxRecDepth 20000 in
theorem test_flits_met_2 :
    (∃ (s : State) (n : Fin 4) (f : Flit) (q : Port), (beating (port s n.val) = true) ∧ (takeCredits f (takeAck f (port s n.val)) = q) ∧ (q.lastReplay ≠ some (wantedOf f) ∨ q.replayRun < 7 ∨ (port s n.val).st ≠ .up)) ∧
    (∃ (s : State) (n : Fin 4) (f : Flit) (q : Port), ((port s n.val).st = .up) ∧ (takeCredits f (takeAck f (port s n.val)) = q) ∧ (q.lastReplay = some (wantedOf f)) ∧ (q.replayRun ≥ 7) ∧ (spanningJobs s = []) ∧ (cmdsOf (fun x => x.parked) s = []) ∧ (s.icern.requests = [])) ∧
    (∃ (s : State) (n : Fin 4) (peer : Nat), ((port s n.val).st = .init) ∧ ((port s n.val).step = 3) ∧ (lget s.aon.peers n.val 0xFF = 0xFF ∨ lget s.aon.peers n.val 0xFF = peer) ∧ ((port s n.val).tx = []) ∧ ((port s n.val).passed = []) ∧ ((port s n.val).resend = []) ∧ ((port s n.val).got = false)) ∧
    (∃ (s : State) (n : Fin 4) (peer : Nat), ((port s n.val).st = .init) ∧ ((port s n.val).step = 3) ∧ (lget s.aon.peers n.val 0xFF = 0xFF ∨ lget s.aon.peers n.val 0xFF = peer)) ∧
    (∃ (s : State) (n : Fin 4) (peer : Nat), ((port s n.val).st = .init) ∧ ((port s n.val).step = 3) ∧ (lget s.aon.peers n.val 0xFF ≠ 0xFF) ∧ (lget s.aon.peers n.val 0xFF ≠ peer) ∧ (spanningJobs s = []) ∧ (cmdsOf (fun x => x.parked) s = []) ∧ (s.icern.requests = [])) ∧
    (∃ (s : State) (n : Fin 4) (fec : Bool) (q : Port), (beating (port s n.val) = true) ∧ ((if fec then { port s n.val with fecUncorr := satInc (port s n.val).fecUncorr } else { port s n.val with crcErr := satInc (port s n.val).crcErr }) = q)) ∧
    (∃ (s : State) (n : Fin 4) (f : Flit) (q : Port), ((port s n.val).st = .up) ∧ (takeCredits f (takeAck f (port s n.val)) = q) ∧ (q.lastReplay = some (wantedOf f)) ∧ (q.replayRun ≥ 7)) ∧
    (∃ (s : State) (n : Fin 4) (f : Flit), (beating (port s n.val) = false)) :=
  ⟨⟨zP { zUp with replay := [zF] }, 1, zF, _, by decide +kernel, rfl, by decide +kernel⟩,
   ⟨zP { zUp with lastReplay := some (wantedOf zF), replayRun := 7 }, 1, zF, _, by decide +kernel, rfl, by decide +kernel, by decide +kernel, by decide +kernel, by decide +kernel, by decide +kernel⟩,
   ⟨zP { st := .init, step := 3 }, 1, 3, by decide +kernel⟩,
   ⟨zP { st := .init, step := 3, got := true }, 1, 3, by decide +kernel⟩,
   ⟨zP { st := .init, step := 3 }, 1, 4, by decide +kernel⟩,
   ⟨zP zUp, 1, true, _, by decide +kernel, rfl⟩,
   ⟨zP { zUp with lastReplay := some (wantedOf zF), replayRun := 7 }, 1, zF, _, by decide +kernel, rfl, by decide +kernel, by decide +kernel⟩,
   ⟨zP { st := .down }, 1, zF, by decide +kernel⟩⟩
set_option maxRecDepth 20000 in
theorem test_flits_met_3 :
    (∃ (s : State) (n : Fin 4), ((port s n.val).st ≠ .init ∨ (port s n.val).step ≠ 3)) ∧
    (∃ (s : State) (n : Fin 4) (peer : Nat), ((port s n.val).st = .init) ∧ ((port s n.val).step = 3) ∧ (lget s.aon.peers n.val 0xFF ≠ 0xFF) ∧ (lget s.aon.peers n.val 0xFF ≠ peer)) ∧
    (∃ (s : State) (n : Fin 4) (f : Flit) (o : Nat) (c : Bool), (beating (port s n.val) = true) ∧ (f.seq = (port s n.val).expSeq) ∧ (f.first = false) ∧ (tget (port s n.val).rx f.vc.val = some (.pass o c))) ∧
    (∃ (s : State) (n : Fin 4) (f : Flit), (beating (port s n.val) = true) ∧ (f.seq = (port s n.val).expSeq) ∧ (f.first = false) ∧ (tget (port s n.val).rx f.vc.val = none ∨ tget (port s n.val).rx f.vc.val = some .drop)) :=
  ⟨⟨zP zUp, 1, by decide +kernel⟩,
   ⟨zP { st := .init, step := 3 }, 1, 4, by decide +kernel⟩,
   ⟨zP { zUp with rx := [(2, .pass 1 true)] }, 1, { zF with first := false }, 1, true, by decide +kernel⟩,
   ⟨zP zUp, 1, { zF with first := false }, by decide +kernel⟩⟩
set_option maxRecDepth 20000 in
theorem test_forwarded_work_met_1 :
    (∃ (s : State) (src : Nat) (m : Msg), (waitingParts s src = []) ∧ (oldest s (isMsg 1 src false) = some m) ∧ (accepted s m = false)) ∧
    (∃ (s : State) (src : Nat) (m : Msg) (r : Refused), (waitingParts s src = []) ∧ (oldest s (isMsg 1 src false) = some m) ∧ (accepted s m = true) ∧ (ofAborted s m = false) ∧ (partOf s m.src m.cmd = none) ∧ (forwardRefused s m (eColl (localDeadline (BitVec.ofNat 512 (leNat (m.body.take 64))) (field m.body 64 4))) = some r)) ∧
    (∃ (s : State) (src : Nat) (m : Msg) (c : Nat) (x : Cmd), (oldest s (isMsg 2 src true) = some m) ∧ (rootCmd (dropMsg m s) m = some c) ∧ (cmd? s c = some x) ∧ (isSearch x.opcode = true) ∧ (x.stage = .running) ∧ (x.peersDone.contains m.src = false) ∧ (field m.body 0 1 = 0) ∧ (listSound (dropMsg m s) x m = true)) ∧
    (∃ (s : State) (src : Nat) (m : Msg) (c : Nat) (x : Cmd), (oldest s (isMsg 2 src true) = some m) ∧ (rootCmd (dropMsg m s) m = some c) ∧ (cmd? s c = some x) ∧ (isSearch x.opcode = true) ∧ (x.stage = .running) ∧ (x.peersDone.contains m.src = false) ∧ (field m.body 0 1 = 0) ∧ (listSound (dropMsg m s) x m = false)) ∧
    (∃ (s : State) (src : Nat) (m : Msg) (c : Nat) (x : Cmd), (oldest s (isMsg 2 src true) = some m) ∧ (rootCmd (dropMsg m s) m = some c) ∧ (cmd? s c = some x) ∧ (isSearch x.opcode = true) ∧ (x.stage = .running) ∧ (x.peersDone.contains m.src = false) ∧ (field m.body 0 1 ≠ 0)) ∧
    (∃ (s : State) (src : Nat) (m : Msg), (oldest s (isMsg 2 src true) = some m) ∧ (rootCmd (dropMsg m s) m = none)) ∧
    (∃ (s : State) (src : Nat) (m : Msg), (oldest s (fun m => isMsg 3 src false m && phaseOf m == 0) = some m) ∧ (accepted s m = false)) ∧
    (∃ (s : State) (src : Nat) (m : Msg), (oldest s (fun m => isMsg 3 src false m && phaseOf m == 0) = some m) ∧ (accepted s m = true) ∧ (s.icern.hold = true) ∧ (partOf s m.src m.cmd = none)) :=
  ⟨⟨vSt 9 [{ vMsg 1 false 4 [] with job := 3 }] [], 9, { vMsg 1 false 4 [] with job := 3 }, by decide +kernel⟩,
   ⟨vSt 9 [vMsg 1 false 4 []] [], 9, vMsg 1 false 4 [], { status := .invalidField }, by decide +kernel⟩,
   ⟨vSt 0 [soundList] [(4, soundSearch)], 9, soundList, 4, soundSearch, by decide +kernel⟩,
   ⟨vSt 0 [vMsg 2 true 4 []] [(4, vCmd 0x10 .running)], 9, vMsg 2 true 4 [], 4, vCmd 0x10 .running, by decide +kernel⟩,
   ⟨vSt 0 [vMsg 2 true 4 [0x84]] [(4, vCmd 0x10 .running)], 9, vMsg 2 true 4 [0x84], 4, vCmd 0x10 .running, by decide +kernel⟩,
   ⟨vSt 0 [vMsg 2 true 4 []] [], 9, vMsg 2 true 4 [], by decide +kernel⟩,
   ⟨vSt 9 [{ vMsg 3 false 4 [] with job := 3 }] [], 9, { vMsg 3 false 4 [] with job := 3 }, by decide +kernel⟩,
   ⟨{ vSt 9 [vMsg 3 false 4 [0, 0x20]] [] with icern := { inbox := [vMsg 3 false 4 [0, 0x20]], hold := true } }, 9, vMsg 3 false 4 [0, 0x20], by decide +kernel⟩⟩
set_option maxRecDepth 20000 in
theorem test_forwarded_work_met_2 :
    (∃ (s : State) (src : Nat) (m : Msg), (oldest s (fun m => isMsg 3 src false m && phaseOf m == 0) = some m) ∧ (accepted s m = true) ∧ (s.icern.hold = false) ∧ (partOf s m.src m.cmd = none) ∧ (ofAborted s m = true)) ∧
    (∃ (s : State) (src : Nat) (m : Msg), (oldest s (fun m => isMsg 3 src false m && phaseOf m == 0) = some m) ∧ (accepted s m = true) ∧ (s.icern.hold = false) ∧ (ofAborted s m = false) ∧ (partOf s m.src m.cmd = none) ∧ (field m.body 1 1 ≠ 0x40)) ∧
    (∃ (s : State) (m : Msg) (op flags n : Nat) (bs : List Byte), (s.colls = [])) ∧
    (∃ (s : State) (src : Nat) (m : Msg), (oldest s (isMsg 4 src false) = some m) ∧ (accepted s m = false)) ∧
    (∃ (s : State) (src : Nat) (m : Msg), (oldest s (isMsg 4 src false) = some m) ∧ (accepted s m = true) ∧ (partOf s m.src m.cmd = none) ∧ (s.icern.hold = false) ∧ (ofAborted s m = false)) ∧
    (∃ (s : State) (src : Nat) (m : Msg), (oldest s (isMsg 4 src false) = some m) ∧ (accepted s m = true)) ∧
    (∃ (s : State) (src : Nat) (m : Msg) (c : Nat) (x : Cmd), (oldest s (isMsg 4 src false) = some m) ∧ (accepted s m = true) ∧ (partOf s m.src m.cmd = some c) ∧ (cmd? s c = some x) ∧ (x.run = m.run) ∧ (x.stage = .reading) ∧ (ofAborted s m = false)) ∧
    (∃ (s : State) (src : Nat) (m : Msg) (c : Nat) (x : Cmd), (oldest s (fun m => isMsg 3 src false m && phaseOf m == 1) = some m) ∧ (accepted s m = true) ∧ (partOf s m.src m.cmd = some c) ∧ (cmd? s c = some x) ∧ (isIngest x.opcode = true) ∧ (x.run = m.run) ∧ (x.committing = false) ∧ (x.stage ≠ .final) ∧ (x.stage ≠ .waiting)) :=
  ⟨⟨{ vSt 9 [vMsg 3 false 4 [0, 0x20]] [] with icern := { inbox := [vMsg 3 false 4 [0, 0x20]], aborted := [(9, 4, 1)] } }, 9, vMsg 3 false 4 [0, 0x20], by decide +kernel⟩,
   ⟨vSt 9 [vMsg 3 false 4 [0, 0x20]] [], 9, vMsg 3 false 4 [0, 0x20], by decide +kernel⟩,
   ⟨vSt 9 [] [], vMsg 3 false 4 [], 0x20, 0, 0, [], by decide +kernel⟩,
   ⟨vSt 9 [{ vMsg 4 false 4 [] with job := 3 }] [], 9, { vMsg 4 false 4 [] with job := 3 }, by decide +kernel⟩,
   ⟨vSt 9 [vMsg 4 false 4 []] [], 9, vMsg 4 false 4 [], by decide +kernel⟩,
   ⟨vSt 9 [vMsg 4 false 4 []] [], 9, vMsg 4 false 4 [], by decide +kernel⟩,
   ⟨vSt 9 [vMsg 4 false 4 []] [(3, vPart 0x40 .reading)], 9, vMsg 4 false 4 [], 3, vPart 0x40 .reading, by decide +kernel⟩,
   ⟨vSt 9 [vMsg 3 false 4 [1]] [(3, vPart 0x20 .fencing)], 9, vMsg 3 false 4 [1], 3, vPart 0x20 .fencing, by decide +kernel⟩⟩
set_option maxRecDepth 20000 in
theorem test_forwarded_work_met_3 :
    (∃ (s : State) (src : Nat) (m : Msg) (c : Nat) (x : Cmd), (oldest s (fun m => isMsg 3 src false m && phaseOf m == 1) = some m) ∧ (accepted s m = true) ∧ (partOf s m.src m.cmd = some c) ∧ (cmd? s c = some x) ∧ (isIngest x.opcode = true) ∧ (x.run = m.run) ∧ (x.committing = false) ∧ (x.stage = .waiting) ∧ ((coll s x.coll).queue.length < 64)) ∧
    (∃ (s : State) (src : Nat) (m : Msg), (oldest s (fun m => isMsg 3 src false m && phaseOf m == 1) = some m) ∧ (accepted s m = false)) ∧
    (∃ (s : State) (src : Nat) (m : Msg) (c : Nat) (x : Cmd), (oldest s (fun m => isMsg 3 src false m && phaseOf m == 2) = some m) ∧ (accepted s m = true) ∧ (partOf s m.src m.cmd = some c) ∧ (cmd? s c = some x) ∧ (isIngest x.opcode = true) ∧ (olderRun m.run x.run = false) ∧ (x.epoch = 0)) ∧
    (∃ (s : State) (src : Nat) (m : Msg), (oldest s (fun m => isMsg 3 src false m && phaseOf m == 2) = some m) ∧ (accepted s m = false)) ∧
    (∃ (s : State) (src : Nat) (m : Msg) (c : Nat) (x : Cmd), (oldest s (isMsg 3 src true) = some m) ∧ (rootCmd (dropMsg m s) m = some c) ∧ (cmd? s c = some x) ∧ (x.committing = false) ∧ (x.stage ≠ .final) ∧ (x.stage ≠ .waiting) ∧ (field m.body 0 1 = 0)) ∧
    (∃ (s : State) (src : Nat) (m : Msg) (c : Nat) (x : Cmd), (oldest s (isMsg 3 src true) = some m) ∧ (rootCmd (dropMsg m s) m = some c) ∧ (cmd? s c = some x) ∧ (x.committing = false) ∧ (x.stage ≠ .final) ∧ (x.stage ≠ .done) ∧ (field m.body 0 1 ≠ 0)) ∧
    (∃ (s : State) (src : Nat) (m : Msg) (c : Nat) (x : Cmd), (oldest s (isMsg 3 src true) = some m) ∧ (rootCmd (dropMsg m s) m = some c) ∧ (cmd? s c = some x) ∧ (x.committing = true) ∧ (x.peersDone.contains m.src = false)) ∧
    (∃ (s : State) (src ctx : Nat) (m : Msg) (e : BitVec 512) (bs : List Byte) (hs : List Hold) (u v : State), (waitingParts s src = []) ∧ (oldest s (isMsg 1 src false) = some m) ∧ (accepted s m = true) ∧ (ofAborted s m = false) ∧ (partOf s m.src m.cmd = none) ∧ (e = localDeadline (BitVec.ofNat 512 (leNat (m.body.take 64))) (field m.body 64 4)) ∧ (bs = (m.body.drop 80).take (field m.body 68 4)) ∧ (ctx = forwardCtx s m.job 0) ∧ (forwardRefused s m (eColl e) = none) ∧ (isSearch (opOf e) = true) ∧ (queryBad s ctx e (field m.body 72 8) bs.length = false) ∧ (hs = queryHolds s m.job ctx e (sparseCount (coll s (eColl e)) e bs)) ∧ (∀ h ∈ hs, h.amount ≤ poolSize h.pool) ∧ (addCmd (boundPart m ctx e bs [] hs (spend 1 (takeMsg m s))) (spend 1 (takeMsg m s)) = u) ∧ (s.icern.hold = false) ∧ (takeLacking s.nextCmd hs u = (v, true))) :=
  ⟨⟨vSt 9 [vMsg 3 false 4 [1]] [(3, vPart 0x20 .waiting)], 9, vMsg 3 false 4 [1], 3, vPart 0x20 .waiting, by decide +kernel⟩,
   ⟨vSt 9 [{ vMsg 3 false 4 [1] with job := 3 }] [], 9, { vMsg 3 false 4 [1] with job := 3 }, by decide +kernel⟩,
   ⟨vSt 9 [vMsg 3 false 4 [2]] [(3, vPart 0x20 .waiting)], 9, vMsg 3 false 4 [2], 3, vPart 0x20 .waiting, by decide +kernel⟩,
   ⟨vSt 9 [{ vMsg 3 false 4 [2] with job := 3 }] [], 9, { vMsg 3 false 4 [2] with job := 3 }, by decide +kernel⟩,
   ⟨vSt 0 [vMsg 3 true 4 []] [(4, vCmd 0x20 .fencing)], 9, vMsg 3 true 4 [], 4, vCmd 0x20 .fencing, by decide +kernel⟩,
   ⟨vSt 0 [vMsg 3 true 4 [0x86]] [(4, vCmd 0x20 .fencing)], 9, vMsg 3 true 4 [0x86], 4, vCmd 0x20 .fencing, by decide +kernel⟩,
   ⟨vSt 0 [vMsg 3 true 4 []] [(4, { vCmd 0x20 .committed with committing := true })], 9, vMsg 3 true 4 [], 4, { vCmd 0x20 .committed with committing := true }, by decide +kernel⟩,
   ⟨vQSt (vQ 10 1) [], 9, 4098, vQ 10 1, vEntry (vQ 10 1), vRows (vQ 10 1), vHolds (vQ 10 1), vBound (vQSt (vQ 10 1) []) (vQ 10 1), _, by decide +kernel, by decide +kernel, by decide +kernel, by decide +kernel, by decide +kernel, rfl, rfl, by decide +kernel, by decide +kernel, by decide +kernel, by decide +kernel, rfl, by decide +kernel, rfl, by decide +kernel, Prod.ext rfl (by decide +kernel)⟩⟩
set_option maxRecDepth 20000 in
theorem test_forwarded_work_met_4 :
    (∃ (s : State) (src ctx : Nat) (m : Msg) (e : BitVec 512) (bs : List Byte) (hs : List Hold) (u v : State), (waitingParts s src = []) ∧ (oldest s (isMsg 1 src false) = some m) ∧ (accepted s m = true) ∧ (ofAborted s m = false) ∧ (partOf s m.src m.cmd = none) ∧ (e = localDeadline (BitVec.ofNat 512 (leNat (m.body.take 64))) (field m.body 64 4)) ∧ (bs = (m.body.drop 80).take (field m.body 68 4)) ∧ (ctx = forwardCtx s m.job 0) ∧ (forwardRefused s m (eColl e) = none) ∧ (isSearch (opOf e) = true) ∧ (queryBad s ctx e (field m.body 72 8) bs.length = false) ∧ (hs = queryHolds s m.job ctx e (sparseCount (coll s (eColl e)) e bs)) ∧ (∀ h ∈ hs, h.amount ≤ poolSize h.pool) ∧ (addCmd (boundPart m ctx e bs [] hs (spend 1 (takeMsg m s))) (spend 1 (takeMsg m s)) = u) ∧ (s.icern.hold = false) ∧ (takeLacking s.nextCmd hs u = (v, false))) ∧
    (∃ (s : State) (src ctx : Nat) (m : Msg) (e : BitVec 512) (bs : List Byte) (hs : List Hold) (u : State), (waitingParts s src = []) ∧ (oldest s (isMsg 1 src false) = some m) ∧ (accepted s m = true) ∧ (ofAborted s m = false) ∧ (partOf s m.src m.cmd = none) ∧ (e = localDeadline (BitVec.ofNat 512 (leNat (m.body.take 64))) (field m.body 64 4)) ∧ (bs = (m.body.drop 80).take (field m.body 68 4)) ∧ (ctx = forwardCtx s m.job 0) ∧ (forwardRefused s m (eColl e) = none) ∧ (isSearch (opOf e) = true) ∧ (queryBad s ctx e (field m.body 72 8) bs.length = false) ∧ (hs = queryHolds s m.job ctx e (sparseCount (coll s (eColl e)) e bs)) ∧ (∀ h ∈ hs, h.amount ≤ poolSize h.pool) ∧ (addCmd (boundPart m ctx e bs [] hs (spend 1 (takeMsg m s))) (spend 1 (takeMsg m s)) = u) ∧ (s.icern.hold = true)) ∧
    (∃ (s : State) (src ctx : Nat) (m : Msg) (e : BitVec 512) (bs : List Byte) (hs : List Hold), (waitingParts s src = []) ∧ (oldest s (isMsg 1 src false) = some m) ∧ (accepted s m = true) ∧ (ofAborted s m = false) ∧ (partOf s m.src m.cmd = none) ∧ (e = localDeadline (BitVec.ofNat 512 (leNat (m.body.take 64))) (field m.body 64 4)) ∧ (bs = (m.body.drop 80).take (field m.body 68 4)) ∧ (ctx = forwardCtx s m.job 0) ∧ (forwardRefused s m (eColl e) = none) ∧ (isSearch (opOf e) = true) ∧ (queryBad s ctx e (field m.body 72 8) bs.length = false) ∧ (hs = queryHolds s m.job ctx e (sparseCount (coll s (eColl e)) e bs)) ∧ (∃ h ∈ hs, poolSize h.pool < h.amount)) ∧
    (∃ (s : State) (src : Nat) (m : Msg) (e : BitVec 512), (waitingParts s src = []) ∧ (oldest s (isMsg 1 src false) = some m) ∧ (accepted s m = true) ∧ (ofAborted s m = false) ∧ (partOf s m.src m.cmd = none) ∧ (e = localDeadline (BitVec.ofNat 512 (leNat (m.body.take 64))) (field m.body 64 4)) ∧ (forwardRefused s m (eColl e) = none) ∧ (isSearch (opOf e) = false ∨ queryBad s (forwardCtx s m.job 0) e (field m.body 72 8) ((m.body.drop 80).take (field m.body 68 4)).length = true)) ∧
    (∃ (s : State) (src c : Nat) (m : Msg) (x : Cmd), (waitingParts s src = []) ∧ (oldest s (isMsg 1 src false) = some m) ∧ (accepted s m = true) ∧ (partOf s m.src m.cmd = some c) ∧ (cmd? s c = some x) ∧ (x.run = m.run ∨ olderRun m.run x.run = true)) ∧
    (∃ (s : State) (src : Nat) (m : Msg), (waitingParts s src = []) ∧ (oldest s (isMsg 1 src false) = some m) ∧ (accepted s m = true) ∧ (ofAborted s m = true)) ∧
    (∃ (s u : State) (src : Nat), ((waitingParts s src).foldl (fun s c => tryPart c s) s = u) ∧ (oldest u (isMsg 1 src false) = none)) ∧
    (∃ (s : State) (src c : Nat) (m : Msg) (x : Cmd), (oldest s (fun m => isMsg 3 src false m && phaseOf m == 0) = some m) ∧ (accepted s m = true) ∧ (partOf s m.src m.cmd = some c) ∧ (cmd? s c = some x) ∧ (x.run = m.run ∨ olderRun m.run x.run = true) ∧ (field m.body 1 1 ≠ 0x40)) :=
  ⟨⟨vQSt (vQ 10 1) [⟨.ptnFold 3, 8388608⟩, ⟨.devFold, 2097152⟩], 9, 4098, vQ 10 1, vEntry (vQ 10 1), vRows (vQ 10 1), vHolds (vQ 10 1), vBound (vQSt (vQ 10 1) [⟨.ptnFold 3, 8388608⟩, ⟨.devFold, 2097152⟩]) (vQ 10 1), _, by decide +kernel, by decide +kernel, by decide +kernel, by decide +kernel, by decide +kernel, rfl, rfl, by decide +kernel, by decide +kernel, by decide +kernel, by decide +kernel, by decide +kernel, by decide +kernel, by decide +kernel, by decide +kernel, Prod.ext rfl (by decide +kernel)⟩,
   ⟨vHeld (vQ 10 1), 9, 4098, vQ 10 1, vEntry (vQ 10 1), vRows (vQ 10 1), vHolds (vQ 10 1), vBound (vHeld (vQ 10 1)) (vQ 10 1), by decide +kernel, by decide +kernel, by decide +kernel, by decide +kernel, by decide +kernel, rfl, rfl, by decide +kernel, by decide +kernel, by decide +kernel, by decide +kernel, by decide +kernel, by decide +kernel, by decide +kernel, by decide +kernel⟩,
   ⟨vQSt (vQ 65535 32) [], 9, 4098, vQ 65535 32, vEntry (vQ 65535 32), ((vQ 65535 32).body.drop 80).take (field (vQ 65535 32).body 68 4), queryHolds (vQSt (vQ 65535 32) []) 2 4098 (vEntry (vQ 65535 32)) 0, by decide +kernel⟩,
   ⟨vQSt (vMsg 1 false 4 ((vBody 1 1).take 80)) [], 9, vMsg 1 false 4 ((vBody 1 1).take 80), vEntry (vMsg 1 false 4 ((vBody 1 1).take 80)), by decide +kernel⟩,
   ⟨vSt 9 [vMsg 1 false 4 []] [(3, vPart 0x10 .running)], 9, 3, vMsg 1 false 4 [], vPart 0x10 .running, by decide +kernel⟩,
   ⟨{ vSt 9 [vMsg 1 false 4 []] [] with icern := { inbox := [vMsg 1 false 4 []], aborted := [(9, 4, 1)] } }, 9, vMsg 1 false 4 [], by decide +kernel⟩,
   ⟨State.reset, _, 9, rfl, by decide +kernel⟩,
   ⟨vSt 9 [vMsg 3 false 4 [0, 0x20]] [(3, vPart 0x20 .waiting)], 9, 3, vMsg 3 false 4 [0, 0x20], vPart 0x20 .waiting, by decide +kernel⟩⟩
set_option maxRecDepth 20000 in
theorem test_forwarded_work_met_5 :
    (∃ (s : State) (src : Nat) (m : Msg), (oldest s (fun m => isMsg 3 src false m && phaseOf m == 0) = some m) ∧ (accepted s m = true) ∧ (s.icern.hold = false) ∧ (ofAborted s m = false) ∧ (partOf s m.src m.cmd = none) ∧ (field m.body 1 1 = 0x40)) ∧
    (∃ (s : State) (src c : Nat) (m : Msg) (x : Cmd), (oldest s (fun m => isMsg 3 src false m && phaseOf m == 0) = some m) ∧ (accepted s m = true) ∧ (ofAborted s m = false) ∧ (field m.body 1 1 = 0x40) ∧ (partOf s m.src m.cmd = some c) ∧ (cmd? s c = some x) ∧ (x.run = m.run) ∧ (x.stage = .reading) ∧ (partOf (dropPart c (dropMsg m s)) m.src m.cmd = none)) ∧
    (∃ (s : State) (src c : Nat) (m : Msg) (x : Cmd), (oldest s (isMsg 4 src false) = some m) ∧ (accepted s m = true) ∧ (partOf s m.src m.cmd = some c) ∧ (cmd? s c = some x) ∧ ((x.run = m.run ∧ x.stage ≠ .reading) ∨ (x.run ≠ m.run ∧ olderRun m.run x.run = true))) ∧
    (∃ (s : State) (src c : Nat) (m : Msg) (x : Cmd), (oldest s (isMsg 2 src true) = some m) ∧ (rootCmd (dropMsg m s) m = some c) ∧ (cmd? s c = some x) ∧ (isSearch x.opcode = false ∨ x.stage ≠ .running ∨ x.peersDone.contains m.src = true)) ∧
    (∃ (s : State) (src c : Nat) (m : Msg) (x : Cmd), (oldest s (fun m => isMsg 3 src false m && phaseOf m == 1) = some m) ∧ (accepted s m = true) ∧ (partOf s m.src m.cmd = some c) ∧ (cmd? s c = some x) ∧ (isIngest x.opcode = true) ∧ (x.run = m.run) ∧ (x.committing = false) ∧ (x.stage = .waiting) ∧ (64 ≤ (coll s x.coll).queue.length)) ∧
    (∃ (s : State) (src : Nat) (m : Msg), (oldest s (fun m => isMsg 3 src false m && phaseOf m == 1) = some m) ∧ (accepted s m = true) ∧ (∀ c x, partOf s m.src m.cmd = some c → cmd? s c = some x → isIngest x.opcode = false ∨ x.run ≠ m.run ∨ x.committing = true ∨ x.stage = .final)) ∧
    (∃ (s : State) (src : Nat) (m : Msg), (oldest s (fun m => isMsg 3 src false m && phaseOf m == 2) = some m) ∧ (accepted s m = true) ∧ (∀ c x, partOf s m.src m.cmd = some c → cmd? s c = some x → isIngest x.opcode = false ∨ olderRun m.run x.run = true)) ∧
    (∃ (s : State) (src : Nat) (m : Msg), (oldest s (isMsg 3 src true) = some m) ∧ (∀ c x, rootCmd (dropMsg m s) m = some c → cmd? s c = some x → (x.committing = true ∧ x.peersDone.contains m.src = true) ∨ (x.committing = false ∧ x.stage = .final))) :=
  ⟨⟨vSt 9 [vMsg 3 false 4 [0, 0x40]] [], 9, vMsg 3 false 4 [0, 0x40], by decide +kernel⟩,
   ⟨vSt 9 [vMsg 3 false 4 [0, 0x40]] [(3, vPart 0x40 .reading)], 9, 3, vMsg 3 false 4 [0, 0x40], vPart 0x40 .reading, by decide +kernel⟩,
   ⟨vSt 9 [vMsg 4 false 4 []] [(3, vPart 0x40 .waiting)], 9, 3, vMsg 4 false 4 [], vPart 0x40 .waiting, by decide +kernel⟩,
   ⟨vSt 0 [vMsg 2 true 4 []] [(4, vCmd 0x20 .running)], 9, 4, vMsg 2 true 4 [], vCmd 0x20 .running, by decide +kernel⟩,
   ⟨{ vSt 9 [vMsg 3 false 4 [1]] [(3, vPart 0x20 .waiting)] with colls := [(6, { job := 2, queue := List.replicate 64 1 })] }, 9, 3, vMsg 3 false 4 [1], vPart 0x20 .waiting, by decide +kernel⟩,
   ⟨vSt 9 [vMsg 3 false 4 [1]] [], 9, vMsg 3 false 4 [1], by decide +kernel, by decide +kernel, fun c x h _ => absurd (h.symm.trans (show partOf (vSt 9 [vMsg 3 false 4 [1]] []) 9 4 = none from by decide +kernel)) (by simp)⟩,
   ⟨vSt 9 [vMsg 3 false 4 [2]] [], 9, vMsg 3 false 4 [2], by decide +kernel, by decide +kernel, fun c x h _ => absurd (h.symm.trans (show partOf (vSt 9 [vMsg 3 false 4 [2]] []) 9 4 = none from by decide +kernel)) (by simp)⟩,
   ⟨vSt 0 [vMsg 3 true 4 []] [], 9, vMsg 3 true 4 [], by decide +kernel, fun c x h _ => absurd (h.symm.trans (show rootCmd (dropMsg (vMsg 3 true 4 []) (vSt 0 [vMsg 3 true 4 []] [])) (vMsg 3 true 4 []) = none from by decide +kernel)) (by simp)⟩⟩
set_option maxRecDepth 20000 in
theorem test_forwarded_work_met_6 :
    (∃ (s : State) (src c : Nat) (m : Msg) (x : Cmd), (oldest s (isMsg 3 src true) = some m) ∧ (rootCmd (dropMsg m s) m = some c) ∧ (cmd? s c = some x) ∧ (x.committing = false) ∧ (x.stage = .waiting) ∧ (field m.body 0 1 = 0)) :=
  ⟨vSt 0 [vMsg 3 true 4 []] [(4, vCmd 0x20 .waiting)], 9, 4, vMsg 3 true 4 [], vCmd 0x20 .waiting, by decide +kernel⟩
set_option maxRecDepth 20000 in
theorem test_notices_and_probes_met_1 :
    (∃ (s : State) (src : Nat) (m : Msg), (oldest s (isMsg 5 src false) = some m) ∧ (noticedJobs (dropMsg m s) m (field m.body 0 1) (field m.body 2 2) = []) ∧ (field m.body 0 1 < 3)) ∧
    (∃ (s : State) (src : Nat) (m : Msg), (oldest s (isMsg 5 src false) = some m) ∧ (3 ≤ field m.body 0 1)) ∧
    (∃ (s : State) (src : Nat) (m : Msg) (j c : Nat) (x : Cmd), (oldest s (isMsg 5 src false) = some m) ∧ (j ∈ noticedJobs (dropMsg m s) m (field m.body 0 1) (field m.body 2 2)) ∧ (c ∈ inFlight s j) ∧ (cmd? s c = some x) ∧ (x.job = j) ∧ (takesPart x = true) ∧ (x.origin = none) ∧ (x.committing = false) ∧ (x.stage ≠ .final) ∧ (x.stage ≠ .done)) ∧
    (∃ (s : State) (src : Nat) (m : Msg) (c : Nat) (x : Cmd), (oldest s (isMsg 6 src false) = some m) ∧ (partOf s m.src m.cmd = some c) ∧ (cmd? s c = some x) ∧ (olderRun m.run x.run = false) ∧ (x.committing = false) ∧ (x.epoch = 0) ∧ (field m.body 0 1 ≠ 0 ∨ isSearch x.opcode = false ∨ x.admitted = false) ∧ (field m.body 0 1 = 0 → x.parked = false)) ∧
    (∃ (s : State) (src : Nat) (m : Msg) (c : Nat) (x : Cmd), (oldest s (isMsg 6 src false) = some m) ∧ (partOf s m.src m.cmd = some c) ∧ (cmd? s c = some x) ∧ (olderRun m.run x.run = false) ∧ (field m.body 0 1 = 0) ∧ (isSearch x.opcode = true) ∧ (x.admitted = true)) ∧
    (∃ (s : State) (src : Nat) (m : Msg) (c : Nat) (x : Cmd), (oldest s (isMsg 6 src false) = some m) ∧ (partOf s m.src m.cmd = none) ∧ (rootCmd s m = some c) ∧ (cmd? s c = some x) ∧ (x.committing = false) ∧ (x.stage ≠ .final) ∧ (x.stage ≠ .done) ∧ (field m.body 0 1 ≠ 0)) ∧
    (∃ (s : State) (src : Nat) (m : Msg) (c : Nat) (x : Cmd), (oldest s (isMsg 6 src false) = some m) ∧ (partOf s m.src m.cmd = none) ∧ (rootCmd s m = some c) ∧ (cmd? s c = some x) ∧ (x.committing = false) ∧ (field m.body 0 1 = 0)) ∧
    (∃ (s : State) (src : Nat) (m : Msg) (j c : Nat) (x : Cmd) (o : Nat × Nat), (oldest s (isMsg 5 src false) = some m) ∧ (j ∈ noticedJobs (dropMsg m s) m (field m.body 0 1) (field m.body 2 2)) ∧ (c ∈ inFlight s j) ∧ (cmd? s c = some x) ∧ (x.job = j) ∧ (takesPart x = true) ∧ (x.admitted = true) ∧ (x.parked = false) ∧ (x.origin = some o) ∧ (x.committing = false) ∧ (x.epoch = 0) ∧ (x.stage ≠ .final) ∧ (x.stage ≠ .done)) :=
  ⟨⟨vSt 9 [vMsg 5 false 0 [0, 0, 4, 0]] [], 9, vMsg 5 false 0 [0, 0, 4, 0], by decide +kernel⟩,
   ⟨vSt 9 [vMsg 5 false 0 [3]] [], 9, vMsg 5 false 0 [3], by decide +kernel⟩,
   ⟨vSt 0 [vMsg 5 false 0 [0, 0, 8, 0, 7]] [(4, { vCmd 0x10 .running with admitted := true })], 9, vMsg 5 false 0 [0, 0, 8, 0, 7], 2, 4, { vCmd 0x10 .running with admitted := true }, by decide +kernel⟩,
   ⟨vSt 9 [vMsg 6 false 4 []] [(3, vPart 0x20 .fencing)], 9, vMsg 6 false 4 [], 3, vPart 0x20 .fencing, by decide +kernel⟩,
   ⟨vSt 9 [vMsg 6 false 4 [0]] [(3, { vPart 0x10 .running with admitted := true })], 9, vMsg 6 false 4 [0], 3, { vPart 0x10 .running with admitted := true }, by decide +kernel⟩,
   ⟨vSt 0 [vMsg 6 false 4 [1, 0x84]] [(4, vCmd 0x10 .running)], 9, vMsg 6 false 4 [1, 0x84], 4, vCmd 0x10 .running, by decide +kernel⟩,
   ⟨vSt 0 [vMsg 6 false 4 [0]] [(4, vCmd 0x10 .running)], 9, vMsg 6 false 4 [0], 4, vCmd 0x10 .running, by decide +kernel⟩,
   ⟨vSt 9 [vMsg 5 false 0 [3, 0, 8, 0, 7]] [(3, { vPart 0x20 .waiting with admitted := true })], 9, vMsg 5 false 0 [3, 0, 8, 0, 7], 2, 3, { vPart 0x20 .waiting with admitted := true }, (9, 4), by decide +kernel⟩⟩
set_option maxRecDepth 20000 in
theorem test_notices_and_probes_met_2 :
    (∃ (s : State) (src : Nat) (m : Msg) (c : Nat) (x : Cmd), (oldest s (isMsg 6 src false) = some m) ∧ (partOf s m.src m.cmd = none) ∧ (rootCmd s m = some c) ∧ (cmd? s c = some x) ∧ (x.committing = true)) ∧
    (∃ (s : State) (src : Nat) (m : Msg), (oldest s (isMsg 6 src false) = some m) ∧ (partOf s m.src m.cmd = none) ∧ (rootCmd s m = none)) ∧
    (∃ (s : State) (src : Nat) (m : Msg) (c : Nat) (x : Cmd), (oldest s (isMsg 6 src false) = some m) ∧ (partOf s m.src m.cmd = some c) ∧ (cmd? s c = some x) ∧ (olderRun m.run x.run = true ∨ (isSearch x.opcode = false ∧ (x.committing = true ∨ x.epoch ≠ 0)))) ∧
    (∃ (s : State) (src : Nat) (m : Msg) (x : Job), (oldest s (isMsg 8 src false) = some m) ∧ (job? s m.job = some x) ∧ (x.root ≠ m.src) ∧ (answersProbe s m.job = true)) ∧
    (∃ (s : State) (src : Nat) (m : Msg), (oldest s (isMsg 8 src true) = some m) ∧ (jobPeer s m.job m.src = false ∨ (∀ x, job? s m.job = some x → x.root ≠ s.aon.modid))) ∧
    (∃ (s : State) (j : Nat), (∀ x, job? s j = some x → x.root = s.aon.modid)) ∧
    (∃ (s : State) (j c : Nat) (x : Job) (y : Cmd), (job? s j = some x) ∧ (x.root ≠ s.aon.modid) ∧ (reachable s x.root = false) ∧ (c ∈ cmdsOf (fun x => x.job == j && x.origin.isSome && isIngest x.opcode && x.stage != .final && x.stage != .done) s) ∧ (cmd? s c = some y) ∧ (y.epoch = 0) ∧ (y.committing = false)) ∧
    (∃ (s : State) (src : Nat) (m : Msg), (oldest s (isMsg 7 src false) = some m)) :=
  ⟨⟨vSt 0 [vMsg 6 false 4 [1]] [(4, { vCmd 0x20 .queued with admitted := true, committing := true })], 9, vMsg 6 false 4 [1], 4, { vCmd 0x20 .queued with admitted := true, committing := true }, by decide +kernel⟩,
   ⟨vSt 0 [vMsg 6 false 4 [1]] [], 9, vMsg 6 false 4 [1], by decide +kernel⟩,
   ⟨vSt 9 [vMsg 6 false 4 [1]] [(3, { vPart 0x20 .queued with committing := true })], 9, vMsg 6 false 4 [1], 3, { vPart 0x20 .queued with committing := true }, by decide +kernel⟩,
   ⟨vSt 0 [vMsg 8 false 0 []] [], 9, vMsg 8 false 0 [], vJob 0, by decide +kernel⟩,
   ⟨vSt 9 [{ vMsg 8 true 0 [] with job := 3 }] [], 9, { vMsg 8 true 0 [] with job := 3 }, by decide +kernel, .inl (by decide +kernel)⟩,
   ⟨vSt 0 [] [], 7, fun x h => absurd (h.symm.trans (show job? (vSt 0 [] []) 7 = none from by decide +kernel)) (by simp)⟩,
   ⟨vSt 9 [] [(3, vPart 0x20 .waiting)], 2, 3, vJob 9, vPart 0x20 .waiting, by decide +kernel⟩,
   ⟨vSt 9 [vMsg 7 false 0 [5]] [], 9, vMsg 7 false 0 [5], by decide +kernel⟩⟩
set_option maxRecDepth 20000 in
theorem test_notices_and_probes_met_3 :
    (∃ (s : State) (src : Nat) (m : Msg) (x : Job), (oldest s (isMsg 8 src false) = some m) ∧ (job? s m.job = some x) ∧ (x.root = m.src) ∧ (answersProbe s m.job = true)) ∧
    (∃ (s : State) (src : Nat) (m : Msg), (oldest s (isMsg 8 src false) = some m) ∧ (answersProbe s m.job = false)) ∧
    (∃ (s : State) (src : Nat) (m : Msg) (x : Job), (oldest s (isMsg 8 src true) = some m) ∧ (job? s m.job = some x) ∧ (x.root = s.aon.modid) ∧ (jobPeer s m.job m.src = true)) ∧
    (∃ (s : State) (j : Nat) (x : Job), (isRoot s j = true) ∧ (job? s j = some x)) ∧
    (∃ (s : State) (j : Nat), (isRoot s j = false)) ∧
    (∃ (s : State) (j p : Nat) (x : Job), (isRoot s j = true) ∧ (job? s j = some x) ∧ (x.probing.contains p = true)) ∧
    (∃ (s : State) (j p : Nat), (isRoot s j = false ∨ (∀ x, job? s j = some x → x.probing.contains p = false))) ∧
    (∃ (s : State) (j c : Nat) (x : Job) (y : Cmd), (job? s j = some x) ∧ (x.root ≠ s.aon.modid) ∧ (reachable s x.root = false) ∧ (cmdsOf (fun x => x.job == j && x.origin.isSome && isIngest x.opcode && x.stage != .final && x.stage != .done) s = [c]) ∧ (cmd? s c = some y) ∧ (y.epoch = 0)) :=
  ⟨⟨vSt 9 [vMsg 8 false 0 []] [], 9, vMsg 8 false 0 [], vJob 9, by decide +kernel⟩,
   ⟨{ vSt 9 [vMsg 8 false 0 []] [] with aon := { Aon.shipped with oos := true } }, 9, vMsg 8 false 0 [], by decide +kernel⟩,
   ⟨vSt 0 [vMsg 8 true 0 []] [], 9, vMsg 8 true 0 [], vJob 0, by decide +kernel⟩,
   ⟨vSt 0 [] [], 2, vJob 0, by decide +kernel⟩,
   ⟨vSt 9 [] [], 2, by decide +kernel⟩,
   ⟨{ vSt 0 [] [] with jobs := [(2, { vJob 0 with probing := [9] })] }, 2, 9, { vJob 0 with probing := [9] }, by decide +kernel⟩,
   ⟨vSt 0 [] [], 7, 9, .inl (by decide +kernel)⟩,
   ⟨vSt 9 [] [(3, vPart 0x20 .fencing)], 2, 3, vJob 9, vPart 0x20 .fencing, by decide +kernel⟩⟩
set_option maxRecDepth 20000 in
theorem test_notices_and_probes_met_4 :
    (∃ (s : State) (j : Nat) (x : Job), (job? s j = some x) ∧ (reachable s x.root = true)) :=
  ⟨vSt 0 [] [], 2, vJob 0, by decide +kernel⟩
set_option maxRecDepth 20000 in
theorem test_refused_entries_met :
    (∃ (i : Instr) (r op : Nat) (chk : State → Nat → BitVec 512 → Option Refused) (s : State) (e : BitVec 512) (rest : List (BitVec 512)) (f : Refused), (ringRow i = some (r, op, chk)) ∧ ((ring s r).fetched = e :: rest) ∧ (mayAdmit s r e = true) ∧ (opOf e = op) ∧ (chk s r e = some f)) ∧
    (∃ (i : Instr) (r op : Nat) (chk : State → Nat → BitVec 512 → Option Refused) (s : State) (e : BitVec 512) (rest : List (BitVec 512)), (ringRow i = some (r, op, chk)) ∧ ((ring s r).fetched = e :: rest) ∧ (mayAdmit s r e = true) ∧ (permitted (opOf e) = none)) ∧
    (∃ (i : Instr) (r op : Nat) (chk : State → Nat → BitVec 512 → Option Refused) (s : State) (e : BitVec 512) (rest : List (BitVec 512)), (ringRow i = some (r, op, chk)) ∧ ((ring s r).fetched = e :: rest) ∧ (mayAdmit s r e = true) ∧ (opOf e = op) ∧ (chk s r e = none) ∧ (neverFits s r e = true)) ∧
    (∃ (i : Instr) (r op : Nat) (chk : State → Nat → BitVec 512 → Option Refused) (s u : State) (e : BitVec 512) (rest : List (BitVec 512)), (ringRow i = some (r, op, chk)) ∧ ((ring s r).fetched = e :: rest) ∧ (mayAdmit s r e = true) ∧ (opOf e = op) ∧ (chk s r e = none) ∧ (neverFits s r e = false) ∧ (reserve r e s = (u, false))) ∧
    (∃ (s v : State) (r : Nat) (e : BitVec 512) (rest : List (BitVec 512)) (f : Refused), ((ring s r).fetched = e :: rest) ∧ (takeSlots r 1 (releaseHeld r s) = (v, true))) ∧
    (∃ (i : Instr) (r op : Nat) (chk : State → Nat → BitVec 512 → Option Refused) (s : State), (ringRow i = some (r, op, chk)) ∧ (((ring s r).fetched.head?.all fun e => !mayAdmit s r e || (opOf e != op && (permitted (opOf e)).isSome)) = true)) ∧
    (∃ (s v : State) (r : Nat), (takeSlots r 1 (releaseHeld r s) = (v, false))) :=
  ⟨⟨.search 7 .timeout, 7, 0x10, fun s r e => searchCheck s r .timeout e, admState (ent [(0, 0x10), (2, 5), (8, 6)]), ent [(0, 0x10), (2, 5), (8, 6)], [], { status := .invalidField }, by and_intros <;> first | decide +kernel | rfl | simp⟩,
   ⟨.nop 7, 7, 0x00, plainCheck, plainRing 0x55 0, 0x55, [], by and_intros <;> first | decide +kernel | rfl | simp⟩,
   ⟨.search 7 (.data farBytes), 7, 0x10, fun s r e => searchCheck s r (.data farBytes) e, hugeState, hugeEnt, [], by and_intros <;> first | decide +kernel | rfl | simp⟩,
   ⟨.nop 7, 7, 0, plainCheck, plainRing (ent [(2, 5)]) 15, plainRing (ent [(2, 5)]) 15, ent [(2, 5)], [], by and_intros <;> first | decide +kernel | rfl | simp⟩,
   ⟨plainRing 0x10 0, (takeSlots 7 1 (releaseHeld 7 (plainRing 0x10 0))).1, 7, 0x10, [], { status := .invalidField }, by and_intros <;> first | decide +kernel | rfl | simp⟩,
   ⟨.fence 7, 7, 1, plainCheck, plainRing (ent [(2, 5)]) 15, by and_intros <;> first | decide +kernel | rfl | simp⟩,
   ⟨plainRing 0x10 16, plainRing 0x10 16, 7, by decide +kernel⟩⟩

set_option maxRecDepth 20000 in
theorem test_refused_requests_met_1 :
    (∃ (i : Instr) (m : Fin 4) (op : Nat) (s : State) (q : Req), (mailboxRow i = some (m, op)) ∧ ((mbx s m).req = some q) ∧ ((mbx s m).state = 2) ∧ (executes s m = true) ∧ (waitsMailbox s m q = false) ∧ (knownOpcode q.opcode = false)) ∧
    (∃ (i : Instr) (m : Fin 4) (op : Nat) (s : State) (q : Req), (mailboxRow i = some (m, op)) ∧ ((mbx s m).req = some q) ∧ ((mbx s m).state = 2) ∧ (executes s m = true) ∧ (waitsMailbox s m q = false) ∧ (knownOpcode op = true) ∧ (q.opcode = op) ∧ ((s.hearth.recovery && !romAccepts op) = false) ∧ (heldBehind s q (mbx s m).order = false) ∧ (q.rsv = true ∨ 4096 < q.len)) ∧
    (∃ (i : Instr) (m : Fin 4) (op : Nat) (s : State) (q : Req), (mailboxRow i = some (m, op)) ∧ ((mbx s m).req = some q) ∧ ((mbx s m).state = 2) ∧ (executes s m = true) ∧ (waitsMailbox s m q = false) ∧ (knownOpcode op = true) ∧ (q.opcode = op) ∧ ((s.hearth.recovery && !romAccepts op) = false) ∧ (heldBehind s q (mbx s m).order = false) ∧ (q.rsv = false) ∧ (q.len ≤ 4096) ∧ (outOfService s = true) ∧ ([0, 6, 7].contains (op / 256) = false)) ∧
    (∃ (i : Instr) (m : Fin 4) (op : Nat) (s : State) (q : Req), (mailboxRow i = some (m, op)) ∧ ((mbx s m).req = some q) ∧ ((mbx s m).state = 2) ∧ (executes s m = true) ∧ (waitsMailbox s m q = false) ∧ (knownOpcode op = true) ∧ (q.opcode = op) ∧ ((s.hearth.recovery && !romAccepts op) = false) ∧ (heldBehind s q (mbx s m).order = false) ∧ (q.rsv = false) ∧ (q.len ≤ 4096) ∧ (outOfService s = false ∨ [0, 6, 7].contains (op / 256) = true) ∧ (actsOnOos op = false) ∧ (anyOos s (reqNeeds s q) = true)) ∧
    (∃ (i : Instr) (m : Fin 4) (op : Nat) (s : State) (q : Req), (mailboxRow i = some (m, op)) ∧ ((mbx s m).req = some q) ∧ ((mbx s m).state = 2) ∧ (executes s m = true) ∧ (waitsMailbox s m q = false) ∧ (knownOpcode op = true) ∧ (q.opcode = op) ∧ ((s.hearth.recovery && !romAccepts op) = false) ∧ (heldBehind s q (mbx s m).order = false) ∧ (q.rsv = false) ∧ (q.len ≤ 4096) ∧ (outOfService s = false ∨ [0, 6, 7].contains (op / 256) = true) ∧ (actsOnOos op = true ∨ anyOos s (reqNeeds s q) = false) ∧ (actsOnFenced op = false) ∧ (anyFenced s (reqNeeds s q) = true)) ∧
    (∃ (i : Instr) (m : Fin 4) (op : Nat) (s : State) (q : Req), (mailboxRow i = some (m, op)) ∧ ((mbx s m).req = some q) ∧ ((mbx s m).state = 2) ∧ (executes s m = true) ∧ (waitsMailbox s m q = false) ∧ (knownOpcode op = true) ∧ (q.opcode = op) ∧ ((s.hearth.recovery && !romAccepts op) = false) ∧ (heldBehind s q (mbx s m).order = true) ∧ ((openTickets s).length < 64)) ∧
    (∃ (i : Instr) (m : Fin 4) (op : Nat) (s : State) (q : Req), (mailboxRow i = some (m, op)) ∧ ((mbx s m).req = some q) ∧ ((mbx s m).state = 2) ∧ (executes s m = true) ∧ (waitsMailbox s m q = false) ∧ (knownOpcode op = true) ∧ (q.opcode = op) ∧ ((s.hearth.recovery && !romAccepts op) = true)) ∧
    (∃ (i : Instr) (m : Fin 4) (op : Nat) (s : State) (q : Req), (mailboxRow i = some (m, op)) ∧ ((mbx s m).req = some q) ∧ ((mbx s m).state = 2) ∧ (executes s m = true) ∧ (waitsMailbox s m q = false) ∧ (knownOpcode op = true) ∧ (q.opcode = op) ∧ ((s.hearth.recovery && !romAccepts op) = false) ∧ (heldBehind s q (mbx s m).order = true) ∧ (64 ≤ (openTickets s).length)) :=
  ⟨⟨.summary 1, 1, 0x0001, mbxState 0x0B0B [], reqOf 0x0B0B [], by decide +kernel⟩,
   ⟨.summary 1, 1, 0x0001, { mbxState 0x0001 [] with hearth := { awake := true, mbx := [(1, { state := 2, req := some { reqOf 1 [] with rsv := true } })] } }, { reqOf 1 [] with rsv := true }, by decide +kernel⟩,
   ⟨.jobCreate 1, 1, 0x0110, { mbxState 0x0110 [] with aon := { Aon.shipped with oos := true } }, reqOf 0x0110 [], by decide +kernel⟩,
   ⟨.ptnPower 1, 1, 0x0102, { mbxState 0x0102 [8, 0, 0, 0] with ptns := [(3, { service := .oos })], aon := { Aon.shipped with ptnOos := [3] } }, reqOf 0x0102 [8, 0, 0, 0], by decide +kernel⟩,
   ⟨.ptnPower 1, 1, 0x0102, { mbxState 0x0102 [8, 0, 0, 0] with ptns := [(3, { service := .fenced })] }, reqOf 0x0102 [8, 0, 0, 0], by decide +kernel⟩,
   ⟨.ptnPower 1, 1, 0x0102, { mbxState 0x0102 [8, 0, 0, 0] with hearth := { awake := true, tickets := [(9, { mbx := 0, req := reqOf 0x0102 [8, 0, 0, 0], work := .held (reqOf 0x0102 [8, 0, 0, 0]) .timeout, order := 0 })], mbx := [(1, { state := 2, req := some (reqOf 0x0102 [8, 0, 0, 0]), order := 1 })] } }, reqOf 0x0102 [8, 0, 0, 0], by decide +kernel⟩,
   ⟨.summary 0, 0, 0x0001, { State.reset with hearth := { recovery := true, mbx := [(0, { state := 2, req := some (reqOf 1 []) })] } }, reqOf 1 [], by decide +kernel⟩,
   ⟨.ptnPower 1, 1, 0x0102, { mbxState 0x0102 [8, 0, 0, 0] with hearth := { awake := true, tickets := (List.range 64).map fun n => (n + 1, { mbx := 0, req := reqOf 0x0102 [8, 0, 0, 0], work := .held (reqOf 0x0102 [8, 0, 0, 0]) .timeout, order := 0 }), mbx := [(1, { state := 2, req := some (reqOf 0x0102 [8, 0, 0, 0]), order := 1 })] } }, reqOf 0x0102 [8, 0, 0, 0], by decide +kernel⟩⟩
set_option maxRecDepth 20000 in
theorem test_refused_requests_met_2 :
    (∃ (i : Instr) (m : Fin 4) (op : Nat) (s : State), (mailboxRow i = some (m, op)) ∧ ((mbx s m).state ≠ 2 ∨ executes s m = false ∨ (((mbx s m).req.all fun q => waitsMailbox s m q || (knownOpcode q.opcode && q.opcode != op)) = true))) :=
  ⟨.summary 1, 1, 0x0001, mbxState 0x0003 [], by decide +kernel⟩
set_option maxRecDepth 20000 in
theorem test_full_selector_met :
    (∃ (a : Anvil) (l : Nat) (e : Entry), ((laneEntries a l).length ≥ laneCap a l) ∧ (∀ x ∈ laneEntries a l, fIsNaN x.score = false) ∧ (fGt e.score (lowest (laneEntries a l)) = false)) ∧
    (∃ (a : Anvil) (l : Nat) (e : Entry), ((laneEntries a l).length ≥ laneCap a l) ∧ (∀ x ∈ laneEntries a l, fIsNaN x.score = false) ∧ (fEq e.score (lowest (laneEntries a l)) = true)) ∧
    (∃ (a : Anvil) (l : Nat) (e : Entry), (l < laneCount a.conf.toNat) ∧ ((laneEntries a l).length ≥ laneCap a l) ∧ (∀ x ∈ laneEntries a l, fIsNaN x.score = false) ∧ (fGt e.score (lowest (laneEntries a l)) = true) ∧ (fGt e.score (thFloor a l) = true)) ∧
    (∃ (a : Anvil) (l : Nat) (e : Entry), (∀ x ∈ laneEntries a l, fIsNaN x.score = false)) :=
  ⟨⟨fullAnvil, 0, { key := 9, score := 0x3F800000 }, by decide +kernel⟩,
   ⟨fullAnvil, 0, { key := 9, score := 0x40000000 }, by decide +kernel⟩,
   ⟨fullAnvil, 0, { key := 9, score := 0x40400000 }, by decide +kernel⟩,
   ⟨fullAnvil, 0, { key := 9, score := 0x40400000 }, by decide +kernel⟩⟩

set_option maxRecDepth 20000 in
theorem test_group_sums_met :
    (∃ (k : Nat) (seed : W64) (d : Nat) (cos wide : Bool) (raw : List F32) (g i : Nat) (q : List Int), (g ≤ 128) ∧ (q = ((encodeRow k seed d cos wide raw).codes.drop (g * i)).take g ∨ q = ((encodeRow k seed d cos wide raw).low.drop (g * i)).take g)) :=
  ⟨0, 0, 1, false, false, [0x3F800000], 128, 0, ((encodeRow 0 0 1 false false [0x3F800000]).codes.drop (128 * 0)).take 128, by and_intros <;> first | decide +kernel | rfl | simp⟩


set_option maxRecDepth 20000 in
theorem test_epochs_met :
    (∃ (s : State) (m : Fin 4) (q : Req), (served m 0x0201 q s = true) ∧ (collCreateBad s q = false) ∧ (hasSparse (reqColl q) = false)) ∧
    (∃ (s u : State) (m : Fin 4) (q : Req), (served m 0x0201 q s = true) ∧ (collCreateBad s q = false) ∧ (hasSparse (reqColl q) = true) ∧ ((jobPtns s (reqColl q).job).foldl (fun o p => o.bind (takePostings (qf q 0 2) p)) (some (demandAll (jobPtns s (reqColl q).job) { s with colls := tset s.colls (qf q 0 2) { reqColl q with ptns := (jobPtns s (reqColl q).job).map fun p => (p, {}) } })) = some u)) ∧
    (∃ (e : Epoch), (e ≠ 0) ∧ (e ≠ 0xFFFFFFFF)) ∧
    (∃ (a b : Epoch), (a ≠ 0) ∧ (b ≠ 0)) :=
  ⟨⟨jobState 0x0201 [7, 0, 2, 0, 32, 0, 0, 0, 0, 0, 0, 0, 0, 0, 0, 0, 0, 0, 0, 0, 0, 0, 0, 0, 0, 0, 0, 0, 0, 0, 0, 0, 0, 0, 0, 0, 0, 0, 0, 0, 0, 0, 0, 0, 0, 0, 0, 0, 0, 0, 0, 0, 0, 0, 0, 0, 0, 0, 0, 0, 0, 0, 0, 0, 0, 0, 0, 0, 0, 0, 0, 0, 0, 0, 0, 0, 0, 0, 0, 0, 0, 0, 0, 0, 0, 0, 0, 0, 0, 0, 0, 0, 0, 0, 0, 0, 0, 0, 0, 0, 0, 0, 0, 0, 0, 0, 0, 0, 0, 0, 0, 0, 0, 0, 0, 0, 0, 0, 0, 0, 0, 0, 0, 0, 0, 0, 0, 0], 1, reqOf 0x0201 [7, 0, 2, 0, 32, 0, 0, 0, 0, 0, 0, 0, 0, 0, 0, 0, 0, 0, 0, 0, 0, 0, 0, 0, 0, 0, 0, 0, 0, 0, 0, 0, 0, 0, 0, 0, 0, 0, 0, 0, 0, 0, 0, 0, 0, 0, 0, 0, 0, 0, 0, 0, 0, 0, 0, 0, 0, 0, 0, 0, 0, 0, 0, 0, 0, 0, 0, 0, 0, 0, 0, 0, 0, 0, 0, 0, 0, 0, 0, 0, 0, 0, 0, 0, 0, 0, 0, 0, 0, 0, 0, 0, 0, 0, 0, 0, 0, 0, 0, 0, 0, 0, 0, 0, 0, 0, 0, 0, 0, 0, 0, 0, 0, 0, 0, 0, 0, 0, 0, 0, 0, 0, 0, 0, 0, 0, 0, 0], by decide +kernel⟩,
   ⟨jobState 0x0201 [7, 0, 2, 0, 32, 0, 0, 4, 0, 0, 0, 0, 0, 0, 0, 0, 0, 0, 0, 0, 0, 0, 0, 0, 0, 0, 0, 0, 0, 0, 0, 0, 0, 0, 0, 0, 0, 0, 0, 0, 0, 0, 0, 0, 0, 0, 0, 0, 0, 0, 0, 0, 0, 0, 0, 0, 0, 0, 0, 0, 0, 0, 0, 0, 0, 0, 0, 0, 0, 0, 0, 0, 0, 0, 0, 0, 0, 0, 0, 0, 0, 0, 0, 0, 0, 0, 0, 0, 0, 0, 0, 0, 0, 0, 0, 0, 0, 0, 0, 0, 0, 0, 0, 0, 0, 0, 0, 0, 0, 0, 0, 0, 0, 0, 0, 0, 0, 0, 0, 0, 0, 0, 0, 0, 0, 0, 0, 0], postState, 1, reqOf 0x0201 [7, 0, 2, 0, 32, 0, 0, 4, 0, 0, 0, 0, 0, 0, 0, 0, 0, 0, 0, 0, 0, 0, 0, 0, 0, 0, 0, 0, 0, 0, 0, 0, 0, 0, 0, 0, 0, 0, 0, 0, 0, 0, 0, 0, 0, 0, 0, 0, 0, 0, 0, 0, 0, 0, 0, 0, 0, 0, 0, 0, 0, 0, 0, 0, 0, 0, 0, 0, 0, 0, 0, 0, 0, 0, 0, 0, 0, 0, 0, 0, 0, 0, 0, 0, 0, 0, 0, 0, 0, 0, 0, 0, 0, 0, 0, 0, 0, 0, 0, 0, 0, 0, 0, 0, 0, 0, 0, 0, 0, 0, 0, 0, 0, 0, 0, 0, 0, 0, 0, 0, 0, 0, 0, 0, 0, 0, 0, 0], by decide +kernel⟩,
   ⟨0xFFFFFFFE, by decide +kernel⟩,
   ⟨0xFFFFFFFF, 1, by decide +kernel⟩⟩

set_option maxRecDepth 20000 in
theorem test_assay_response_met :
    (∃ (s : State) (m : Fin 4) (q : Req) (bad : List BadWord), (served m 0x0801 q s = true) ∧ ((openTickets s).length < 64) ∧ (assayBad s q = false)) ∧
    (∃ (s : State) (n : Nat) (k : Ticket) (ps cold : List Nat) (rs : List (Nat × AssayRec)), (tget s.hearth.tickets n = some k) ∧ (k.rsp = none) ∧ (hearthRuns s = true) ∧ (k.work = .test ps cold (assayResponse rs)) ∧ (∀ p ∈ ps, (ptn s p).power = .forge)) :=
  ⟨⟨mbxState 0x0801 [1, 0, 1, 0, 0, 0, 1, 3, 1, 0, 0, 0, 0, 0, 0, 0, 0, 0, 0, 0, 0, 0, 0, 0, 0, 0, 1, 0, 0, 0, 0, 0], 1, reqOf 0x0801 [1, 0, 1, 0, 0, 0, 1, 3, 1, 0, 0, 0, 0, 0, 0, 0, 0, 0, 0, 0, 0, 0, 0, 0, 0, 0, 1, 0, 0, 0, 0, 0], [], by decide +kernel⟩,
   ⟨{ jobState 1 [] with hearth := { awake := true, tickets := [(9, { mbx := 0, req := reqOf 0x0801 [], work := .test [3] [] (assayResponse [(195, { words := 5 })]) })] } }, 9, { mbx := 0, req := reqOf 0x0801 [], work := .test [3] [] (assayResponse [(195, { words := 5 })]) }, [3], [], [(195, { words := 5 })], by decide +kernel⟩⟩


end Sys2Proof.Machine
end

/-! ### Events and interrupts (R285, R367): what a vector posts, what the occurrences met by a clear do -/

namespace Sys2Proof.Machine

/-! #### Vectors -/

/-- The message of a vector: its data at its address (R285). -/
def vecMessage (s : State) (v : Nat) : HostWrite :=
  { kind := .msix v, addr := (vec s v).addr, bytes := leBytes 4 (vec s v).data.toNat }

theorem sendVec_of_masked {s : State} {v : Nat} (masked : (vec s v).masked = true) :
    sendVec v s = updVec v (fun x => { x with pba := true }) s := if_pos masked

theorem sendVec_of_unmasked {s : State} {v : Nat} (unmasked : (vec s v).masked = false) :
    sendVec v s = postWrite (vecMessage s v) s := if_neg (by simp [unmasked])

/-- On a link that is up, outside D3hot, the message goes into the queue where it has room, else behind what waits. -/
theorem postWrite_vecMessage {s : State} (v : Nat) (up : s.host.link.up = true) (awake : s.host.link.d3hot = false) :
    postWrite (vecMessage s v) s = updHost (fun h =>
      if roomFor s (vecMessage s v) then { h with writes := h.writes ++ [vecMessage s v] }
      else { h with posting := h.posting ++ [vecMessage s v] }) s := by
  unfold postWrite
  rw [if_pos (by simp [up, awake])]
  by_cases room : roomFor s (vecMessage s v) = true
  · rw [if_pos room]; simp only [room, if_true]; rfl
  · rw [if_neg room]; simp only [room]; rfl

/-- Queued or waiting, the message is the latest of the posted writes. -/
theorem postedWrites_postWrite_vecMessage {s : State} (v : Nat) (up : s.host.link.up = true) (awake : s.host.link.d3hot = false) :
    postedWrites (postWrite (vecMessage s v) s) = postedWrites s ++ [vecMessage s v] := by
  rw [postWrite_vecMessage v up awake]
  by_cases room : roomFor s (vecMessage s v) = true
  · have none : s.host.posting = [] := by
      simp only [roomFor, Bool.and_eq_true, List.isEmpty_iff] at room
      exact room.1
    simp [postedWrites, room, none]
  · simp [postedWrites, room]

/-- A vector unmasked that was pending is posted, and its PBA bit cleared (R285). -/
theorem unmask_of_pending {s : State} {v : Nat} (pending : (vec s v).pba = true) (up : s.host.link.up = true)
    (awake : s.host.link.d3hot = false) :
    vec (unmask v s) v = { vec s v with masked := false, pba := false } ∧
      postedWrites (unmask v s) = postedWrites s ++ [vecMessage s v] := by
  let u := updVec v (fun x => { x with masked := false, pba := false }) s
  have entry : vec u v = { vec s v with masked := false, pba := false } := vec_updVec_same _ _ _
  have message : vecMessage u v = vecMessage s v := by unfold vecMessage; rw [entry]
  have sent : unmask v s = postWrite (vecMessage u v) u :=
    (if_pos pending).trans (sendVec_of_unmasked (by rw [entry]))
  constructor
  · rw [sent, ← entry]; simp [vec]
  · rw [sent, postedWrites_postWrite_vecMessage (s := u) v up awake, message]; rfl

theorem unmask_of_not_pending {s : State} {v : Nat} (idle : (vec s v).pba = false) :
    unmask v s = updVec v (fun x => { x with masked := false, pba := false }) s := if_neg (by simp [idle])

/-! #### Occurrences met in the cycle of a clear -/

/-- One occurrence met in the cycle of a clear: the step that `occur` repeats (R367). -/
def meetEvent (s : State) (b : Nat) : State :=
  logEvent b 0 0 0 (updHost (fun h => { h with
    evtPend := h.evtPend ||| BitVec.ofNat 16 (2 ^ b), evtCnt := tset h.evtCnt b (evtCount s b + 1) }) s)

theorem occur_eq_foldl (occ : Nat) (s : State) : occur occ s = (bitsOf 16 occ).foldl meetEvent s := rfl

theorem bitsOf_nodup (n v : Nat) : (bitsOf n v).Nodup := List.nodup_range.filter _

theorem bit_toNat {w : Nat} (x : BitVec w) (i : Nat) : bit x.toNat i = x.getLsbD i := bit_testBit _ _

theorem evtPend_meetEvent (s : State) (b : Nat) {i : Nat} (hi : i < 16) :
    (meetEvent s b).host.evtPend.getLsbD i = true ↔ s.host.evtPend.getLsbD i = true ∨ i = b := by
  change (s.host.evtPend ||| BitVec.ofNat 16 (2 ^ b)).getLsbD i = true ↔ _
  rw [BitVec.getLsbD_or, BitVec.getLsbD_ofNat, Nat.testBit_two_pow, decide_eq_true hi, Bool.true_and, Bool.or_eq_true,
    decide_eq_true_eq, eq_comm (a := b)]

theorem evtCount_meetEvent (s : State) (b i : Nat) :
    evtCount (meetEvent s b) i = if i = b then evtCount s i + 1 else evtCount s i := by
  by_cases same : i = b
  · subst same; simp [meetEvent, evtCount]
  · simp [meetEvent, evtCount, same]

/-- Occurrences set pending bits and counters and add to the event log; nothing else of the state moves. -/
theorem foldl_meetEvent_frame (l : List Nat) (s : State) :
    l.foldl meetEvent s = { s with
      host := { s.host with evtPend := (l.foldl meetEvent s).host.evtPend, evtCnt := (l.foldl meetEvent s).host.evtCnt }
      hearth := { s.hearth with
        log := (l.foldl meetEvent s).hearth.log, logSeq := s.hearth.logSeq + l.length
        wakeDue := (l.foldl meetEvent s).hearth.wakeDue } } := by
  induction l generalizing s with
  | nil => rfl
  | cons b l ih =>
    have seq : (meetEvent s b).hearth.logSeq + l.length = s.hearth.logSeq + (b :: l).length :=
      Nat.succ_add_eq_add_succ _ _
    rw [← seq]
    exact ih (meetEvent s b)

theorem evtPend_foldl_meetEvent (l : List Nat) (s : State) {i : Nat} (hi : i < 16) :
    (l.foldl meetEvent s).host.evtPend.getLsbD i = true ↔ s.host.evtPend.getLsbD i = true ∨ i ∈ l := by
  induction l generalizing s with
  | nil => simp
  | cons b l ih => rw [List.foldl_cons, ih, evtPend_meetEvent s b hi, List.mem_cons, or_assoc]

theorem evtCount_foldl_meetEvent {l : List Nat} (once : l.Nodup) (s : State) (i : Nat) :
    evtCount (l.foldl meetEvent s) i = if i ∈ l then evtCount s i + 1 else evtCount s i := by
  induction l generalizing s with
  | nil => simp
  | cons b l ih =>
    obtain ⟨fresh, once⟩ := List.nodup_cons.mp once
    rw [List.foldl_cons, ih once, evtCount_meetEvent]
    by_cases same : i = b
    · subst same; simp [fresh]
    · simp [same]

/-- The entries that the occurrences of a list of bits add to the event log, from a sequence number on (R367). -/
def entriesFrom (n : Nat) (l : List Nat) : List LogEntry := l.zipIdx.map fun b => ⟨n + b.2, b.1, 0, 0, 0⟩

theorem entriesFrom_cons (n b : Nat) (l : List Nat) : entriesFrom n (b :: l) = ⟨n, b, 0, 0, 0⟩ :: entriesFrom (n + 1) l := by
  simp only [entriesFrom, List.zipIdx_cons, List.zipIdx_succ, List.map_cons, List.map_map]
  congr 1
  exact List.map_congr_left fun x _ => by simp; omega

theorem log_meetEvent (s : State) (b : Nat) : (meetEvent s b).hearth.log =
    (s.hearth.log ++ [(⟨s.hearth.logSeq, b, 0, 0, 0⟩ : LogEntry)]).drop (s.hearth.log.length - 4095) := by
  simp only [meetEvent, logEvent, updHearth_hearth, updHost_hearth]

/-- The log keeps its latest 4,096 entries (R367). -/
theorem log_foldl_meetEvent (l : List Nat) (s : State) (bound : s.hearth.log.length ≤ 4096) :
    (l.foldl meetEvent s).hearth.log =
      (s.hearth.log ++ entriesFrom s.hearth.logSeq l).drop (s.hearth.log.length + l.length - 4096) := by
  induction l generalizing s with
  | nil => simp [entriesFrom, Nat.sub_eq_zero_of_le bound]
  | cons b l ih =>
    have seq : (meetEvent s b).hearth.logSeq = s.hearth.logSeq + 1 := rfl
    have size : (s.hearth.log ++ [(⟨s.hearth.logSeq, b, 0, 0, 0⟩ : LogEntry)]).length = s.hearth.log.length + 1 := List.length_append
    have dropped : s.hearth.log.length - 4095 + (s.hearth.log.length + 1 - (s.hearth.log.length - 4095) + l.length - 4096) =
        s.hearth.log.length + (b :: l).length - 4096 := by rw [List.length_cons]; omega
    rw [List.foldl_cons, ih _ (by rw [log_meetEvent, List.length_drop]; omega), log_meetEvent, seq, entriesFrom_cons,
      ← List.drop_append_of_le_length (by omega), List.drop_drop, List.length_drop, size, dropped, ← List.append_cons]

theorem occur_evtPend (s : State) (occ : W16) : (occur occ.toNat s).host.evtPend = s.host.evtPend ||| occ := by
  apply BitVec.eq_of_getLsbD_eq
  intro i hi
  rw [occur_eq_foldl, BitVec.getLsbD_or, Bool.eq_iff_iff, evtPend_foldl_meetEvent _ _ hi, mem_bitsOf, bit_toNat, Bool.or_eq_true,
    and_iff_right hi]

/-! #### EVT_PEND and EVT_MASK written -/

/-- The pending bits written 1 cleared, before the occurrences of the same cycle (R4, R285). -/
def ackEvents (v : W64) (s : State) : State :=
  updHost (fun h => { h with evtPend := h.evtPend &&& ~~~ v.setWidth 16 }) s

theorem ackEvents_bit (s : State) (v : W64) {b : Nat} (hb : b < 16) :
    bit (ackEvents v s).host.evtPend.toNat b = false ↔ bit s.host.evtPend.toNat b = false ∨ bit v.toNat b = true := by
  change bit (s.host.evtPend &&& ~~~ v.setWidth 16).toNat b = false ↔ _
  simp only [bit_toNat, BitVec.getLsbD_and, BitVec.getLsbD_not, BitVec.getLsbD_setWidth, hb, decide_true, Bool.true_and,
    Bool.and_eq_false_iff, Bool.not_eq_false']

/-- An occurrence in the cycle of a clear makes vector 0 due where it is unmasked and its bit was 0 or is being cleared (R285). -/
theorem clear_due_iff (s : State) (v : W64) (occ : W16) :
    ((bitsOf 16 occ.toNat).any fun b => !bit s.host.evtMask.toNat b && !bit (ackEvents v s).host.evtPend.toNat b) = true ↔
      ∃ b : Fin 16, bit occ.toNat b = true ∧ bit s.host.evtMask.toNat b = false ∧
        (bit s.host.evtPend.toNat b = false ∨ bit v.toNat b = true) := by
  simp only [List.any_eq_true, mem_bitsOf, Bool.and_eq_true, Bool.not_eq_true']
  constructor
  · rintro ⟨b, ⟨hb, met⟩, unmasked, clear⟩
    exact ⟨⟨b, hb⟩, met, unmasked, (ackEvents_bit s v hb).mp clear⟩
  · rintro ⟨b, met, unmasked, clear⟩
    exact ⟨b, ⟨b.isLt, met⟩, unmasked, (ackEvents_bit s v b.isLt).mpr clear⟩

theorem exec_evtPendClear (s : State) (v : W64) (occ : W16) :
    exec (.evtPendClear v occ) s = .next (
      if ∃ b : Fin 16, bit occ.toNat b = true ∧ bit s.host.evtMask.toNat b = false ∧
        (bit s.host.evtPend.toNat b = false ∨ bit v.toNat b = true)
      then sendVec 0 (occur occ.toNat (ackEvents v s)) else occur occ.toNat (ackEvents v s)) := by
  have cleared : (updHost (fun h => { h with evtPend := h.evtPend &&& ~~~ BitVec.ofNat 16 v.toNat }) s) = ackEvents v s := by
    rw [BitVec.ofNat_toNat]; rfl
  simp only [← clear_due_iff, exec, execEvtPendClear, clearEvents, cleared]

/-- What the occurrences met by a clear leave: the fields of `occur` after `ackEvents`, read off the state before the write. -/
theorem occur_ackEvents (s : State) (v : W64) (occ : W16) (u : State) (hu : u = occur occ.toNat (ackEvents v s)) :
    u.host = { s.host with evtPend := (s.host.evtPend &&& ~~~ v.setWidth 16) ||| occ, evtCnt := u.host.evtCnt } ∧
    (∀ b, b < 16 → evtCount u b = if bit occ.toNat b then evtCount s b + 1 else evtCount s b) ∧
    u.hearth = { s.hearth with
      log := u.hearth.log, logSeq := s.hearth.logSeq + (bitsOf 16 occ.toNat).length, wakeDue := u.hearth.wakeDue } ∧
    (s.hearth.log.length ≤ 4096 → u.hearth.log =
      (s.hearth.log ++ entriesFrom s.hearth.logSeq (bitsOf 16 occ.toNat)).drop
        (s.hearth.log.length + (bitsOf 16 occ.toNat).length - 4096)) ∧
    { u with host := s.host, hearth := s.hearth } = s := by
  have frame := foldl_meetEvent_frame (bitsOf 16 occ.toNat) (ackEvents v s)
  have pend : u.host.evtPend = (s.host.evtPend &&& ~~~ v.setWidth 16) ||| occ := by rw [hu, occur_evtPend]; rfl
  rw [← occur_eq_foldl, ← hu] at frame
  refine ⟨?_, fun b hb => ?_, (congrArg State.hearth frame).trans rfl, fun bound => ?_, ?_⟩
  · rw [← pend]; exact congrArg State.host frame
  · rw [hu, occur_eq_foldl, evtCount_foldl_meetEvent (bitsOf_nodup _ _)]
    simp only [mem_bitsOf, hb, true_and]
    rfl
  · rw [hu]; exact log_foldl_meetEvent _ (ackEvents v s) bound
  · rw [frame]; rfl

/-- Whether a new mask unmasks a pending bit, which makes vector 0 due (R285). -/
def unmasksPending (s : State) (v : W64) : Bool :=
  (bitsOf 16 s.host.evtPend.toNat).any fun b => bit s.host.evtMask.toNat b && !bit v.toNat b

theorem unmasksPending_iff (s : State) (v : W64) : unmasksPending s v = true ↔
    ∃ b < 16, bit s.host.evtPend.toNat b = true ∧ bit s.host.evtMask.toNat b = true ∧ bit v.toNat b = false := by
  simp [unmasksPending, mem_bitsOf, and_assoc]

theorem exec_evtMaskWrite (s : State) (v : W64) :
    exec (.evtMaskWrite v) s = .next (
      if unmasksPending s v then sendVec 0 (updHost (fun h => { h with evtMask := v.setWidth 16 }) s)
      else updHost (fun h => { h with evtMask := v.setWidth 16 }) s) := by
  simp only [← BitVec.ofNat_toNat]; rfl

/-- Settles O7: the occurrences met by a clear are followed one by one along the bits that occur. -/
theorem events : Obligations.Events := by
  refine ⟨fun s v => sendVec_of_masked, ?_, fun s v occ => ?_, fun s v kept => ?_, fun s v b hb pend masked unmasks => ?_,
    fun s v idle => congrArg _ (unmask_of_not_pending idle), fun s v pending up awake => ⟨_, rfl, unmask_of_pending pending up awake⟩⟩
  · rintro s v w unmasked up awake rfl
    exact (sendVec_of_unmasked unmasked).trans (postWrite_vecMessage v up awake)
  · obtain ⟨host, counts, hearth, log, rest⟩ := occur_ackEvents s v occ _ rfl
    refine ⟨_, exec_evtPendClear s v occ, host, counts, hearth, fun bound => ?_, rest⟩
    rw [log bound]
    simp [entriesFrom]
  · rw [exec_evtMaskWrite, if_neg]
    rw [unmasksPending_iff]
    rintro ⟨b, hb, pend, masked, unmasks⟩
    simp [kept b hb pend masked] at unmasks
  · rw [exec_evtMaskWrite, if_pos ((unmasksPending_iff s v).mpr ⟨b, hb, pend, masked, unmasks⟩)]

end Sys2Proof.Machine

/-! ### REGISTER_WRITE (R263, R286, R288, R307–R309): which command or field a write of a register reaches -/

namespace Sys2Proof.Machine

/-! #### The access -/

/-- What every access over the link does: it brings the link back to L0 (R288) and is answered. -/
def linkAccess (a : Answer) (s : State) : State := answer a (updLink (fun l => { l with aspm := .l0 }) s)

theorem exec_registerWrite_bar0 (s : State) (v : W64) {off : Nat} (multiple : off % 8 = 0) :
    exec (.registerWrite .bar0 off 8 v) s = .next (barWrite off 8 v.toNat (linkAccess .written s)) := by
  have whole : v.toNat % 256 ^ 8 = v.toNat := Nat.mod_eq_of_lt v.isLt
  have fits : aligned off 8 = true := by simp [aligned, multiple]
  simp only [exec, execRegisterWrite, writeReg, whole, fits, if_true]
  rfl

theorem exec_registerWrite_bar4 (s : State) (v : W64) {off : Nat} (multiple : off % 4 = 0) :
    exec (.registerWrite .bar4 off 4 v) s = .next (tableWrite off 4 (v.toNat % 2 ^ 32) (linkAccess .written s)) := by
  have fits : aligned off 4 = true := by simp [aligned, multiple]
  simp only [exec, execRegisterWrite, writeReg, fits, if_true]
  rfl

theorem exec_registerWrite_sideband (s : State) (v : W64) (off : Nat) :
    exec (.registerWrite .sideband off 8 v) s = .next (mbxWrite 3 off 8 v.toNat s) := by
  have whole : v.toNat % 256 ^ 8 = v.toNat := Nat.mod_eq_of_lt v.isLt
  simp only [exec, execRegisterWrite, writeReg, whole, if_true]

/-- An access of another size or alignment is unsupported and has no other effect (R263). -/
theorem exec_registerWrite_misaligned (s : State) (v : W64) {path : RegPath} {off size : Nat} (link : path ≠ .sideband)
    (misfit : (size ≠ 4 ∧ size ≠ 8) ∨ off % size ≠ 0) :
    exec (.registerWrite path off size v) s = .next (linkAccess .unsupported s) := by
  have fits : aligned off size = false := by
    rcases misfit with ⟨not4, not8⟩ | ragged
    · simp [aligned, not4, not8]
    · simp [aligned, ragged]
  cases path with
  | sideband => exact absurd rfl link
  | bar0 | bar2 | bar4 | config =>
    simp only [exec, execRegisterWrite, writeReg, fits]
    rfl

/-! #### BAR0 by register (R286) -/

theorem barWrite_sqDoorbell (r : Fin 1024) (v : Nat) (s : State) : barWrite (0x10000 + 8 * r.val) 8 v s = submitTail r.val v s := by
  have place : (0x10000 + 8 * r.val - 0x10000) / 8 = r.val := by omega
  rw [barWrite, if_neg (by omega), if_pos (by omega), place]

theorem barWrite_cqDoorbell (r : Fin 1024) (v : Nat) (s : State) : barWrite (0x12000 + 8 * r.val) 8 v s = completionHead r.val v s := by
  have place : (0x12000 + 8 * r.val - 0x12000) / 8 = r.val := by omega
  rw [barWrite, if_neg (by omega), if_neg (by omega), if_pos (by omega), place]

theorem barWrite_payloadDoorbell (r : Fin 1024) (v : Nat) (s : State) : barWrite (0x14000 + 8 * r.val) 8 v s = payloadDone r.val v s := by
  have place : (0x14000 + 8 * r.val - 0x14000) / 8 = r.val := by omega
  rw [barWrite, if_neg (by omega), if_neg (by omega), if_neg (by omega), if_pos (by omega), place]

theorem barWrite_evtPend (v : Nat) (s : State) : barWrite 0x20000 8 v s = clearEvents v 0 s := rfl

theorem barWrite_evtMask (v : Nat) (s : State) : barWrite 0x20008 8 v s = writeMask v s := rfl

theorem barWrite_thermtrip {v : Nat} (clears : bit v 21 = true) (s : State) :
    barWrite 0x30 8 v s = updAon (fun a => { a with trip := false }) s := if_pos clears

/-- The watchdog period of a partition, where it is one of 1 to 1,000 (R286, R350). -/
theorem barWrite_watchdog (p : Fin 12) {v : Nat} (least : 1 ≤ v % 1024) (most : v % 1024 ≤ 1000) (s : State) :
    barWrite (0x40260 + 0x1000 * p.val) 8 v s = updPtn p.val (fun x => { x with wdog := BitVec.ofNat 10 v }) s := by
  have place : (0x40260 + 0x1000 * p.val - 0x40000) / 0x1000 = p.val := by omega
  have period : BitVec.ofNat 10 (v % 1024) = BitVec.ofNat 10 v := BitVec.eq_of_toNat_eq (by simp)
  rw [barWrite, if_neg (by omega), if_neg (by omega), if_neg (by omega), if_neg (by omega), if_neg (by omega), if_neg (by omega),
    if_neg (by omega), if_pos (by omega), place]
  dsimp only
  rw [if_neg (by omega), period]

theorem barWrite_mailbox (m : Fin 3) {o : Nat} (window : o < 0x2000) (n v : Nat) (s : State) :
    barWrite (0x1000 + o + 0x2000 * m.val) n v s = mbxWrite m.val o n v s := by
  have number : (0x1000 + o + 0x2000 * m.val - 0x1000) / 0x2000 = m.val := by omega
  have place : (0x1000 + o + 0x2000 * m.val - 0x1000) % 0x2000 = o := by omega
  rw [barWrite, if_pos (by omega), number, place]

/-! #### GO and the mask bit of a vector -/

theorem mbxWrite_go (m n : Nat) {v : Nat} (go : bit v 0 = true) (s : State) : mbxWrite m 0x10 n v s = goWrite m s := if_pos go

theorem goWrite_of_busy {m : Nat} {s : State} (busy : (mbx s m).state = 1 ∨ (mbx s m).state = 2) :
    goWrite m s = updMbx m (fun x => { x with overrun := true }) s := if_pos busy

/-- GO of a mailbox that is not busy takes the request with its place in the order of acceptance, and wakes the Hearth (R306, R309, R311). -/
theorem goWrite_of_not_busy {m : Nat} {s : State} (idle : (mbx s m).state = 0 ∨ (mbx s m).state = 3) :
    mbx (goWrite m s) m = { mbx s m with
      state := if hearthRuns s || romRuns s m then 2 else 1, req := some (takeRequest (mbx s m)), tag := (takeRequest (mbx s m)).tag
      order := goOrder m s } ∧
    (goWrite m s).hearth.goSeq = s.hearth.goSeq + 1 ∧ (goWrite m s).hearth.wakeDue = true := by
  unfold goWrite
  rw [if_neg (by omega)]
  exact ⟨tgetD_tset_same _ _ _ _, rfl, rfl⟩

theorem tableWrite_mask (n : Fin 2048) {v : Nat} (masks : bit v 0 = true) (s : State) :
    tableWrite (16 * n.val + 12) 4 v s = updVec n.val (fun x => { x with masked := true }) s := by
  have number : (16 * n.val + 12) / 16 = n.val := by omega
  have place : (16 * n.val + 12) % 16 / 4 = 3 := by omega
  rw [tableWrite, if_neg (by omega), if_neg (by decide), msixWord, number, place]
  exact if_pos masks

/-- Settles O9: each register's offset leads `barWrite` to its own meaning. -/
theorem registerWrites : Obligations.RegisterWrites := by
  refine ⟨?_, ?_, ?_, fun s m v go idle => ?_, fun s v go busy => ?_, ?_, ?_⟩
  · rintro s u r v rfl
    refine ⟨?_, ?_, ?_, ?_, ?_⟩
    · rw [exec_registerWrite_bar0 s v (by omega), barWrite_sqDoorbell]; rfl
    · rw [exec_registerWrite_bar0 s v (by omega), barWrite_cqDoorbell]; rfl
    · rw [exec_registerWrite_bar0 s v (by omega), barWrite_payloadDoorbell]; rfl
    · rw [exec_registerWrite_bar0 s v (by decide), barWrite_evtPend]; rfl
    · rw [exec_registerWrite_bar0 s v (by decide), barWrite_evtMask]; rfl
  · rintro s u p v rfl least most
    rw [exec_registerWrite_bar0 s v (by omega), barWrite_watchdog p least most, BitVec.ofNat_toNat]; rfl
  · rintro s u v rfl clears
    rw [exec_registerWrite_bar0 s v (by decide), barWrite_thermtrip clears]; rfl
  · refine ⟨_, exec_registerWrite_bar0 s v (by omega), ?_⟩
    rw [barWrite_mailbox m (o := 0x10) (by decide), mbxWrite_go _ _ go]
    exact goWrite_of_not_busy (s := linkAccess .written s) idle
  · rw [exec_registerWrite_sideband, mbxWrite_go _ _ go, goWrite_of_busy busy]
  · rintro s u n v rfl masks
    have low : bit (v.toNat % 2 ^ 32) 0 = true := by rw [bit_testBit, Nat.testBit_mod_two_pow, ← bit_testBit, masks]; rfl
    rw [exec_registerWrite_bar4 s v (by omega), tableWrite_mask n low]; rfl
  · rintro s u off size v rfl misfit
    exact ⟨exec_registerWrite_misaligned s v (by decide) misfit, exec_registerWrite_misaligned s v (by decide) misfit⟩

end Sys2Proof.Machine

/-! ### The HDM window (R264–R267): what an access meets, what a served one draws -/

namespace Sys2Proof.Machine

/-! #### What a demand and a read line leave -/

/-- A demand changes a partition's entry to BANKED, its exit and its round, and nothing else of it (R392, R393). -/
theorem ptn_demand {β : Type} (g : Ptn → β)
    (hg : ∀ (x : Ptn) b f e r, g { x with banking := b, wcFences := f, exiting := e, round := r } = g x) (p : Nat) (s : State) (q : Nat) :
    g (ptn (demand p s) q) = g (ptn s q) := by
  have exits : ∀ (x : Ptn) e, g { x with exiting := e } = g x := fun x e => hg x x.banking x.wcFences e x.round
  have backs : ∀ x, g (backFromBanking x) = g x := by
    intro x
    unfold backFromBanking
    dsimp only
    split
    · exact hg x none _ x.exiting _
    · exact hg x none _ _ x.round
  unfold demand
  dsimp only
  split
  · rfl
  · split
    · split
      · exact ptn_updPtn_of g backs q
      · exact ptn_updPtn_of g (fun x => exits x _) q
    · split
      · exact ptn_updPtn_of g (fun x => exits x _) q
      · rfl

theorem demand_keeps (p : Nat) (s : State) : Keeps [.ptns] s (demand p s) := k_demand (within_self _) p (Keeps.refl _ s)

/-- Lines kept as cached lines change nothing else of a partition (R210). -/
theorem ptn_cacheLines {β : Type} (g : Ptn → β) (hg : ∀ (x : Ptn) c, g { x with cached := c } = g x) (a n : Nat) (s : State) (q : Nat) :
    g (ptn (cacheLines a n s) q) = g (ptn s q) := by
  have uses : ∀ line x, g (useCached line x) = g x := by
    intro line x
    unfold useCached
    split
    · rfl
    · exact hg x _
  refine ptn_updPtn_of g (fun x => ?_) q
  induction upto (lineCount a n) generalizing x with
  | nil => rfl
  | cons j l ih => exact (ih _).trans (uses _ x)

/-! #### Reads of equal memory -/

/-- Two states whose device memory reads the same: HBM, poison and the write-combining buffers agree (R198, R204, R220). -/
structure SameMemory (s t : State) : Prop where
  hbm : t.hbm = s.hbm
  poison : t.poison = s.poison
  wcb : ∀ q, (ptn t q).wcb = (ptn s q).wcb

theorem SameMemory.memByte_eq {s t : State} (h : SameMemory s t) (j : Nat) : memByte t j = memByte s j := memByte_same h.hbm h.wcb j

theorem SameMemory.memBytes_eq {s t : State} (h : SameMemory s t) (a n : Nat) : memBytes t a n = memBytes s a n := by
  simp only [memBytes, underWcb, wcbEnt, h.hbm, h.wcb]

theorem SameMemory.rangePoisoned_eq {s t : State} (h : SameMemory s t) (a n : Nat) : rangePoisoned t a n = rangePoisoned s a n := by
  simp only [rangePoisoned, wordPoisoned, wcbEnt, h.poison, h.wcb]

/-! #### Tokens of a unit on West (R16, R199) -/

theorem seamHas_of_seamTok {s t : State} (h : t.seamTok = s.seamTok) (issuer : Option Nat) (home u : Nat) :
    seamHas issuer home u t = seamHas issuer home u s := by simp only [seamHas, h]

theorem drawSeam_of_seamTok {s t : State} (h : t.seamTok = s.seamTok) (issuer : Option Nat) (home u : Nat) :
    (drawSeam issuer home u t).seamTok = (drawSeam issuer home u s).seamTok := by
  unfold drawSeam
  split
  · exact h
  · simp only [h]

theorem drawSeam_keeps (issuer : Option Nat) (home u : Nat) (s : State) : Keeps [.seamTok] s (drawSeam issuer home u s) :=
  k_drawSeam (within_self _) issuer home u (Keeps.refl _ s)

theorem ptn_updReg {β : Type} (g : Ptn → β) (hg : ∀ (x : Ptn) r, g { x with reg := r } = g x) (p : Nat) (f : Reg → Reg) (s : State) (q : Nat) :
    g (ptn (updReg p f s) q) = g (ptn s q) := ptn_updPtn_of g (fun x => hg x _) q

theorem takeIssue_west {home n : Nat} {s : State} (seam : seamHas none home (tokens n) s = true) :
    takeIssue none home n s = some (drawSeam none home (tokens n) s) := if_pos (by simp [issueHas, seam])

theorem takeReceive_of_le {home n : Nat} {s : State} (holds : (tokens n : Int) ≤ (ptn s home).reg.rcvTok) :
    takeReceive home n s = some (updReg home (fun r => { r with rcvTok := r.rcvTok - tokens n }) s) := if_pos holds

/-! #### What an access meets -/

/-- The link back in L0, as every access leaves it (R288). -/
def wakeLink (s : State) : State := updLink (fun l => { l with aspm := .l0 }) s

theorem updLink_l0 (s : State) : updLink (fun l => { l with aspm := .l0 }) s = wakeLink s := rfl

/-- The state in which an access of n bytes at a device address is served: the partition demanded, its Seam and receive tokens drawn. -/
def grantAccess (a n : Nat) (s : State) : State :=
  updReg (homePtn a) (fun r => { r with rcvTok := r.rcvTok - tokens (lineCount a n) })
    (drawSeam none (homePtn a) (tokens (lineCount a n)) (demand (homePtn a) (wakeLink s)))

theorem accessMem_of_unusable {s : State} (off : Nat) (acc : MemAccess) (unusable : memUsable s = false) :
    accessMem off acc s = answer .unsupported (wakeLink s) := by
  have unusable' : memUsable (wakeLink s) = false := unusable
  simp only [accessMem, updLink_l0, unusable', Bool.not_false, if_true]

/-- Without a region to reach (R267): the address is not mapped, or its partition is COLD or not in service. -/
def unreachable (s : State) (off : Nat) : Prop :=
  hdmAddr s off = none ∨ ∃ a, hdmAddr s off = some a ∧ notReachable (ptn s (homePtn a)) = true

theorem accessMem_of_unreachable {s : State} {off : Nat} (acc : MemAccess) (usable : memUsable s = true) (lost : unreachable s off) :
    accessMem off acc s = unmappedAccess acc (wakeLink s) := by
  have usable' : memUsable (wakeLink s) = true := usable
  rcases lost with unmapped | ⟨a, mapped, down⟩
  · have unmapped' : hdmAddr (wakeLink s) off = none := unmapped
    simp only [accessMem, updLink_l0, usable', unmapped', Bool.not_true, Bool.false_eq_true, if_false]
  · have mapped' : hdmAddr (wakeLink s) off = some a := mapped
    have down' : notReachable (ptn (wakeLink s) (homePtn a)) = true := down
    simp only [accessMem, updLink_l0, usable', mapped', down', Bool.not_true, Bool.false_eq_true, if_false, if_true]

section Mapped

variable {s : State} {off a : Nat} (acc : MemAccess)
  (usable : memUsable s = true) (mapped : hdmAddr s off = some a) (reachable : notReachable (ptn s (homePtn a)) = false)
include usable mapped reachable

/-- An access to a partition that does not serve, or behind one that waits for the same line, waits, and demands the partition (R198, R267). -/
theorem accessMem_of_waiting
    (waits : servedNow (ptn s (homePtn a)) = false ∨ (s.host.memWaits.any fun w => shareLine w.1 (accLen w.2) off (accLen acc)) = true) :
    accessMem off acc s = waitAccess off acc (demand (homePtn a) (wakeLink s)) := by
  have usable' : memUsable (wakeLink s) = true := usable
  have mapped' : hdmAddr (wakeLink s) off = some a := mapped
  have reachable' : notReachable (ptn (wakeLink s) (homePtn a)) = false := reachable
  simp only [accessMem, updLink_l0, usable', mapped', reachable']
  by_cases behind : (s.host.memWaits.any fun w => shareLine w.1 (accLen w.2) off (accLen acc)) = true
  · exact if_pos behind
  · have closed : servedNow (ptn (wakeLink s) (homePtn a)) = false := waits.resolve_right behind
    exact (if_neg behind).trans (if_neg (by simp [closed]))

/-- With a place and its tokens, an access to a partition that serves is served in the state that grants it (R16, R199, R265). -/
theorem accessMem_of_granted (serves : servedNow (ptn s (homePtn a)) = true)
    (ahead : (s.host.memWaits.any fun w => shareLine w.1 (accLen w.2) off (accLen acc)) = false) (goes : westGoes s a (accLen acc) = true) :
    accessMem off acc s = serveAccess a acc (grantAccess a (accLen acc) s) := by
  have usable' : memUsable (wakeLink s) = true := usable
  have mapped' : hdmAddr (wakeLink s) off = some a := mapped
  have reachable' : notReachable (ptn (wakeLink s) (homePtn a)) = false := reachable
  have serves' : servedNow (ptn (wakeLink s) (homePtn a)) = true := serves
  have ahead' : ((wakeLink s).host.memWaits.any fun w => shareLine w.1 (accLen w.2) off (accLen acc)) = false := ahead
  simp only [westGoes, Bool.and_eq_true, decide_eq_true_eq] at goes
  obtain ⟨⟨⟨place, empty⟩, seam⟩, receive⟩ := goes
  generalize hn : lineCount a (accLen acc) = n at place seam receive
  let u := demand (homePtn a) (wakeLink s)
  let v := drawSeam none (homePtn a) (tokens n) u
  have queue : (ptn u (homePtn a)).farQ = (ptn s (homePtn a)).farQ := ptn_demand (·.farQ) (fun _ _ _ _ _ => rfl) ..
  have reg : (ptn u (homePtn a)).reg = (ptn s (homePtn a)).reg := ptn_demand (·.reg) (fun _ _ _ _ _ => rfl) ..
  have drawn : ptn v (homePtn a) = ptn u (homePtn a) := ptn_of _ (drawSeam_keeps ..).same_ptns
  have place' : ¬ farLines (ptn u (homePtn a)) + n > 1024 := by
    have : farLines (ptn u (homePtn a)) = farLines (ptn s (homePtn a)) := by simp only [farLines, queue]
    omega
  have issued : takeIssue none (homePtn a) n u = some v :=
    takeIssue_west ((seamHas_of_seamTok (demand_keeps _ _).same_seamTok ..).trans seam)
  have empty' : (ptn v (homePtn a)).farQ.isEmpty = true := by rw [drawn, queue, empty]
  have received := takeReceive_of_le (home := homePtn a) (n := n) (s := v) (by rw [drawn, reg]; exact receive)
  simp only [accessMem, updLink_l0, usable', mapped', reachable', ahead', serves', hn, place', decide_false, issued, empty', received,
    Bool.not_true, Bool.false_eq_true, if_false, if_true, grantAccess, u, v]

end Mapped

/-! #### What a served access leaves -/

/-- Granting an access leaves device memory as it reads. -/
theorem sameMemory_grantAccess (a n : Nat) (s : State) : SameMemory s (grantAccess a n s) where
  hbm := (drawSeam_keeps ..).same_hbm.trans (demand_keeps _ (wakeLink s)).same_hbm
  poison := (drawSeam_keeps ..).same_poison.trans (demand_keeps _ (wakeLink s)).same_poison
  wcb q := by
    rw [grantAccess, ptn_updReg (·.wcb) fun _ _ => rfl, ptn_of q (drawSeam_keeps ..).same_ptns]
    exact ptn_demand (·.wcb) (fun _ _ _ _ _ => rfl) ..

theorem rcvTok_grantAccess (a n : Nat) (s : State) :
    (ptn (grantAccess a n s) (homePtn a)).reg.rcvTok = (ptn s (homePtn a)).reg.rcvTok - tokens (lineCount a n) := by
  rw [grantAccess, updReg, ptn_updPtn_same, ptn_of _ (drawSeam_keeps ..).same_ptns]
  exact congrArg (·.rcvTok - _) (ptn_demand (·.reg) (fun _ _ _ _ _ => rfl) _ (wakeLink s) _)

theorem seamTok_grantAccess (a n : Nat) (s : State) :
    (grantAccess a n s).seamTok = (drawSeam none (homePtn a) (tokens (lineCount a n)) s).seamTok :=
  drawSeam_of_seamTok (s := s) (demand_keeps (homePtn a) (wakeLink s)).same_seamTok ..

/-- HDM_UNMAPPED is raised, and the host side and the Hearth alone change (R267). -/
theorem unmappedAccess_raises (acc : MemAccess) (s : State) :
    bit (unmappedAccess acc s).host.evtPend.toNat 2 = true ∧
      { unmappedAccess acc s with host := s.host, hearth := s.hearth } = s := by
  have pends := raise_pending_bit .hdmUnmapped 0 0 0 s
  have frame := raise_frame .hdmUnmapped 0 0 0 s
  cases acc with
  | read n => exact ⟨pends, frame⟩
  | write bs p => exact ⟨pends, frame⟩

theorem exec_cxlMemAccess (off : Nat) (acc : MemAccess) (s : State) : exec (.cxlMemAccess off acc) s = .next (accessMem off acc s) := rfl

/-- An access that waits stays behind those that waited before it, and device memory is as it was (R198, R267). -/
theorem waitAccess_demand (off p : Nat) (acc : MemAccess) (s : State) :
    (waitAccess off acc (demand p s)).host.answer = .waits ∧
      (waitAccess off acc (demand p s)).host.memWaits = s.host.memWaits ++ [(off, acc)] ∧
      (waitAccess off acc (demand p s)).hbm = s.hbm ∧ (waitAccess off acc (demand p s)).poison = s.poison :=
  have kept := demand_keeps p s
  ⟨rfl, congrArg (fun h : HostIf => h.memWaits ++ [(off, acc)]) kept.same_host, kept.same_hbm, kept.same_poison⟩

/-- Settles O14: CXL.mem usable or not, the mapping of the address, and the place and tokens that the access finds give its cases in turn. -/
theorem hdmAccesses : Obligations.HdmAccesses := by
  refine ⟨fun s a b c => rfl, fun s off acc unusable => ?_, fun s off n usable lost => ?_, fun s off bs p usable lost => ?_,
    fun s off a n usable mapped reachable serves ahead goes => ?_,
    fun s off a bs usable mapped reachable serves ahead goes inside canonical => ?_,
    fun s off a bs usable mapped reachable serves ahead goes => ?_, fun s off a acc usable mapped reachable waits => ?_,
    fun s k => rfl, fun s a => rfl⟩
  · rw [exec_cxlMemAccess, accessMem_of_unusable off acc unusable]
    rfl
  · rw [exec_cxlMemAccess, accessMem_of_unreachable _ usable lost]
    obtain ⟨pends, frame⟩ := unmappedAccess_raises (.read n) (wakeLink s)
    exact ⟨_, rfl, rfl, pends, congrArg (fun u : State => { u with host := s.host }) frame⟩
  · rw [exec_cxlMemAccess, accessMem_of_unreachable _ usable lost]
    obtain ⟨pends, frame⟩ := unmappedAccess_raises (.write bs p) (wakeLink s)
    exact ⟨_, rfl, rfl, pends, congrArg (fun u : State => { u with host := s.host }) frame⟩
  · rw [exec_cxlMemAccess, accessMem_of_granted (.read n) usable mapped reachable serves ahead goes]
    have same := sameMemory_grantAccess a n s
    refine ⟨_, rfl, ?_, same.hbm, same.poison, ?_, seamTok_grantAccess a n s⟩
    · exact congrArg₂ Answer.data (same.memBytes_eq a n) (same.rangePoisoned_eq a n)
    · exact (congrArg (·.rcvTok) (ptn_cacheLines (·.reg) (fun _ _ => rfl) a n _ _)).trans (rcvTok_grantAccess a n s)
  · rw [exec_cxlMemAccess, accessMem_of_granted (.write bs false) usable mapped reachable serves ahead goes]
    have same := sameMemory_grantAccess a bs.length s
    refine ⟨_, rfl, rfl, fun j hj => ?_⟩
    obtain ⟨stored, -⟩ := memByte_writeMem (grantAccess a bs.length s) inside (same.hbm ▸ canonical) hj
    rw [← same.memByte_eq j]
    exact stored
  · rw [exec_cxlMemAccess, accessMem_of_granted (.write bs true) usable mapped reachable serves ahead goes]
    have same := sameMemory_grantAccess a bs.length s
    exact ⟨_, notePoison (grantAccess a bs.length s), rfl, rfl, same.hbm, same.poison⟩
  · rw [exec_cxlMemAccess, accessMem_of_waiting acc usable mapped reachable waits]
    exact ⟨_, rfl, waitAccess_demand off (homePtn a) acc (wakeLink s)⟩

end Sys2Proof.Machine

/-! ### Power states (R389–R394): what an entry, a demand and an exit leave of a partition -/

namespace Sys2Proof.Machine

/-- The change of a partition's state is pending for the host (R286 PTN_CHANGE). -/
theorem ptnChange_pends (p : Nat) (s : State) : bit (ptnChange p s).host.evtPend.toNat 15 = true := raise_pending_bit .ptnChange 4 p 0 s

theorem ptn_ptnChange (p q : Nat) (s : State) : ptn (ptnChange p s) q = ptn s q := ptn_of q (ptnChange_ptns p s)

/-! #### Entries (R391, R393) -/

/-- A fence of every channel covers every line of the buffer (R208). -/
theorem ptn_askFence_allChannels (p : Nat) (why : FenceFor) (s : State) :
    ptn (askFence p why allChannels s) p =
      { ptn s p with wcFences := (ptn s p).wcFences ++ [{ why := why, lines := (ptn s p).wcb.map (·.line) }] } := by
  have every : ∀ l, allChannels.contains (channelOf l) = true := fun l =>
    List.contains_iff_mem.mpr (mem_upto.mpr (Nat.mod_lt _ (by decide)))
  rw [askFence, ptn_updPtn_same]
  simp only [every, List.filter_true]

/-- A line written out leaves its partition's buffer (R204). -/
theorem wcb_flushLine (p line : Nat) (s : State) :
    (ptn (flushLine p line [] s) p).wcb = (ptn s p).wcb.filter fun e => e.line ≠ line := by
  unfold flushLine
  cases found : wcbEnt (ptn s p) line with
  | none =>
    have absent : ∀ e ∈ (ptn s p).wcb, e.line ≠ line := by simpa [wcbEnt] using found
    exact (List.filter_eq_self.mpr (by simpa using absent)).symm
  | some e =>
    have removed : ptn (flushEnt p [] e (removeEnt p line s)) p = ptn (removeEnt p line s) p := ptn_of p (flushEnt_ptns ..)
    dsimp only
    rw [removed, removeEnt, ptn_updPtn_same]

theorem wcb_foldl_flushLine (p : Nat) (l : List WcbEnt) (s : State) :
    (ptn (l.foldl (fun s e => flushLine p e.line [] s) s) p).wcb = (ptn s p).wcb.filter fun e => !(l.map (·.line)).contains e.line := by
  induction l generalizing s with
  | nil => simp
  | cons e l ih =>
    rw [List.foldl_cons, ih, wcb_flushLine, List.filter_filter]
    congr 1
    funext k
    simp [Bool.and_comm]

/-- Every entry of the buffer written out, the buffer is empty. -/
theorem wcb_flushAll (p : Nat) (s : State) :
    (ptn ((ptn s p).wcb.foldl (fun s e => flushLine p e.line [] s) s) p).wcb = [] := by
  rw [wcb_foldl_flushLine, List.filter_eq_nil_iff]
  intro e he
  simpa using ⟨e, he, rfl⟩

theorem ptn_enterWarm (p : Nat) (s : State) :
    ptn (enterWarm p s) p = { ptn s p with power := .warm, round := { (ptn s p).round with running := false } } := by
  rw [enterWarm, ptn_ptnChange, ptn_updPtn_same]

theorem ptn_startBanking (p : Nat) (s : State) :
    ptn (startBanking p s) p = { ptn s p with
      banking := some 1, round := { (ptn s p).round with running := false }
      wcFences := (ptn s p).wcFences ++ [{ why := .banked, lines := (ptn s p).wcb.map (·.line) }] } := by
  rw [startBanking, ptn_askFence_allChannels, ptn_updPtn_same]

/-- The entry completes over the partition whose buffer has been written out (R212, R393). -/
theorem ptn_bank (p : Nat) (s : State) : ∃ x : Ptn, x.wcb = [] ∧
    ptn (bank p s) p = { x with
      power := .banked, banking := none, saved := true, cached := [], hot := [], round := { x.round with running := false } } :=
  ⟨_, wcb_flushAll p s, by rw [bank, ptn_ptnChange, ptn_updPtn_same]⟩

/-! #### Demands (R392, R393) -/

theorem exec_exitDemand (p : Fin 12) (s : State) : exec (.exitDemand p) s = .next (demand p.val s) := rfl

section Demand

variable {p : Nat} {s : State}

theorem demand_of_not_served (h : (ptn s p).service ≠ .inService ∨ s.aon.oos = true) : demand p s = s := if_pos h

theorem demand_of_steady (idle : (ptn s p).banking = none)
    (h : ((ptn s p).power ≠ .warm ∧ (ptn s p).power ≠ .banked) ∨ (ptn s p).exiting.isSome = true) : demand p s = s := by
  have stays : ¬ (((ptn s p).power = .warm ∨ (ptn s p).power = .banked) ∧ (ptn s p).exiting.isNone = true) := by
    rintro ⟨low, still⟩
    rcases h with ⟨notWarm, notBanked⟩ | leaving
    · exact low.elim notWarm notBanked
    · simp [Option.isNone_iff_eq_none.mp still] at leaving
  simp only [demand, idle, if_neg stays, ite_self]

variable (serves : (ptn s p).service = .inService) (running : s.aon.oos = false)
include serves running

theorem demand_of_low (idle : (ptn s p).banking = none) (still : (ptn s p).exiting = none)
    (low : (ptn s p).power = .warm ∨ (ptn s p).power = .banked) :
    demand p s = updPtn p (fun x => { x with exiting := some x.power }) s := by
  simp [demand, serves, running, idle, still, low]

theorem demand_of_early_entry {k : Nat} (entering : (ptn s p).banking = some k) (early : k < 4) :
    demand p s = updPtn p backFromBanking s := by
  simp [demand, serves, running, entering, early]

theorem demand_of_late_entry {k : Nat} (entering : (ptn s p).banking = some k) (late : 4 ≤ k) :
    demand p s = updPtn p (fun x => { x with exiting := some .banked }) s := by
  simp [demand, serves, running, entering, Nat.not_lt.mpr late]

end Demand

/-! #### The exit to FORGE (R394) -/

theorem unusable_foldl (l : List Nat) (t : Tbl Anvil) {a : Nat} (h : a ∈ l ∨ (tgetD t a {}).usable = false) :
    (tgetD (l.foldl (fun t b => tset t b { tgetD t b {} with usable := false }) t) a {}).usable = false := by
  induction l generalizing t with
  | nil => simpa using h
  | cons b l ih =>
    refine ih _ ?_
    by_cases same : a = b
    · subst same; simp
    · simpa [same] using h

/-- The self-check changes the anvils of a partition and the count of the usable ones (R6, R394). -/
theorem checkAnvils_only (was : Power) (failed : List Nat) (x : Ptn) :
    ∃ n as, checkAnvils was failed x = { x with usable := n, anvils := as } := by
  unfold checkAnvils
  split
  · exact ⟨x.usable, x.anvils, rfl⟩
  · exact ⟨_, _, rfl⟩

theorem unusable_checkAnvils {was : Power} {failed : List Nat} (x : Ptn) {a : Nat} (fails : a ∈ failed) (powered : was ≠ .warm) (anvil : a < 864) :
    (tgetD (checkAnvils was failed x).anvils a {}).usable = false := by
  rw [checkAnvils, if_neg powered]
  exact unusable_foldl _ _ (.inl (by simp [fails, anvil]))

/-- A partition back in FORGE, before its anvils are checked (R267, R394). -/
def forgePtn (was : Power) (zero : Bool) (x : Ptn) : Ptn :=
  { x with
    power := .forge, exiting := none, saved := false, cached := if was = .warm then x.cached else [], hot := if was = .warm then x.hot else []
    fence := if x.fence.any (·.thermal) then none else x.fence
    service := if x.fence.any (·.thermal) && x.service == .fenced then .inService else x.service
    cycles := if was = .cold then 0 else x.cycles, round := restartRound x.round, zeroising := zero }

/-- The state an exit leaves before the accesses that waited are served. -/
def leftTo (p : Nat) (was : Power) (failed : List Nat) (s : State) : State :=
  ptnChange p (refreshCopies p (updPtn p (fun x => checkAnvils was failed (forgePtn was (creating s p) x)) s))

theorem leaveTo_eq (p : Nat) (was : Power) (failed : List Nat) (s : State) :
    leaveTo p was failed s = serveWaits p (leftTo p was failed s) := rfl

theorem refreshCopies_ptns (p : Nat) (s : State) : (refreshCopies p s).ptns = s.ptns := rfl

theorem ptn_leftTo (p : Nat) (was : Power) (failed : List Nat) (s : State) :
    ptn (leftTo p was failed s) p = checkAnvils was failed (forgePtn was (creating s p) (ptn s p)) := by
  rw [leftTo, ptn_ptnChange, ptn_of p (refreshCopies_ptns ..), ptn_updPtn_same]

/-- The copies of LATEST and HORIZON in the partition are those of each collection (R81, R174, R394). -/
theorem copies_leftTo (p : Nat) (was : Power) (failed : List Nat) (s : State) :
    ∀ c ∈ (leftTo p was failed s).colls, c.2.state ≠ .free →
      ∀ q ∈ c.2.ptns, q.1 = p → q.2.latest = c.2.latest ∧ q.2.horizon = c.2.horizon := by
  rw [leftTo, ptnChange_colls]
  intro c hc
  obtain ⟨y, -, rfl⟩ := List.mem_map.mp hc
  dsimp only
  split
  · exact fun live => absurd ‹_› live
  · intro _ q hq here
    obtain ⟨r, -, rfl⟩ := List.mem_map.mp hq
    by_cases mine : r.1 = p
    · simp [mine]
    · simp [mine] at here

theorem exec_exitDone_of_done {s : State} {p : Fin 12} {was : Power} (failed : List Nat) (leaving : (ptn s p.val).exiting = some was)
    (power : (ptn s p.val).power = was) (idle : (ptn s p.val).banking = none) :
    exec (.exitDone p failed) s = .next (serveWaits p.val (leftTo p.val was failed s)) := by
  simp only [exec, execExitDone, leaving, power, idle, Option.isNone_none, and_self, if_true, leaveTo_eq]

theorem exec_exitDone_of_not_done {s : State} {p : Fin 12} (failed : List Nat)
    (h : ∀ was, (ptn s p.val).exiting = some was → (ptn s p.val).power ≠ was ∨ (ptn s p.val).banking ≠ none) :
    exec (.exitDone p failed) s = .next s := by
  simp only [exec, execExitDone]
  split
  · rename_i was leaving
    rw [if_neg]
    rintro ⟨power, idle⟩
    exact (h was leaving).elim (· power) (· (Option.isNone_iff_eq_none.mp idle))
  · rfl

/-! #### Loss of PLL lock (R389) -/

/-- The code of a partition's PLL: class 0x8, unit 0x55 (R389). -/
def pllCode (p : Fin 12) : W32 := faultCode 8 0x55 p.val (8 * 2 ^ 12)

theorem exec_pllLockLoss (p : Fin 12) (s : State) : exec (.pllLockLoss p) s =
    onlyIf ((ptn s p.val).power != .cold) (fun s => startL2 p.val (pllCode p) false false (postFault (pllCode p) s)) s := rfl

theorem covered_postFault (l : LadderLevel) (code : W32) (s : State) : covered l (postFault code s) = covered l s := by
  rw [covered, postFault_levels, covered]

theorem startL2_of_covered {s : State} {p : Fin 12} (code : W32) (memory soft : Bool) (running : covered (.l2 p) s = true) :
    startL2 p.val code memory soft s = s := by
  have same : Fin.ofNat 12 p.val = p := Fin.ext (Nat.mod_eq_of_lt p.isLt)
  rw [startL2, same]
  exact if_pos running

/-! #### The rows -/

/-- Settles O44: each row's guard decides, and what it starts or completes is read off the partition it leaves. -/
theorem powerStates : Obligations.PowerStates := by
  refine ⟨fun s p may timer => ?_, fun s p off => ?_, fun s p may timer => ?_, fun s p off => ?_, fun s p other => ?_, fun s p entered => ?_,
    fun s p serves running idle still low => ?_, fun s p k serves running entering early => ?_, fun s p idle steady => ?_,
    fun s p k serves running entering late => ?_, fun s p held => ?_, fun s p was failed leaving power idle => ?_,
    fun s p failed h => exec_exitDone_of_not_done failed h, fun s p powered runs => ?_, fun s p powered free => ?_, fun s p cold => ?_⟩
  · refine ⟨_, onlyIf_true _ _ (Bool.and_eq_true_iff.mpr ⟨may, bne_iff_ne.mpr timer⟩), ptn_enterWarm p.val s, ptnChange_pends ..⟩
  · exact onlyIf_false _ _ (by rcases off with h | h <;> simp [h])
  · refine ⟨_, onlyIf_true _ _ (Bool.and_eq_true_iff.mpr ⟨may, bne_iff_ne.mpr timer⟩), ?_⟩
    rw [ptn_startBanking]
    simp
  · exact onlyIf_false _ _ (by rcases off with h | h <;> simp [h])
  · exact onlyIf_false _ _ (by simpa using other)
  · obtain ⟨x, empty, banked⟩ := ptn_bank p.val s
    refine ⟨_, onlyIf_true _ _ (by simp [entered]), ?_⟩
    rw [banked]
    exact ⟨rfl, rfl, rfl, rfl, rfl, empty, rfl, ptnChange_pends ..⟩
  · rw [exec_exitDemand, demand_of_low serves running idle still low]
    exact ⟨_, rfl, ptn_updPtn_same ..⟩
  · rw [exec_exitDemand, demand_of_early_entry serves running entering early]
    exact ⟨_, rfl, ptn_updPtn_same ..⟩
  · rw [exec_exitDemand, demand_of_steady idle steady]
  · rw [exec_exitDemand, demand_of_late_entry serves running entering late]
    exact ⟨_, rfl, ptn_updPtn_same ..⟩
  · rw [exec_exitDemand, demand_of_not_served held]
  · refine ⟨_, exec_exitDone_of_done failed leaving power idle, ?_⟩
    obtain ⟨n, as, checked⟩ := checkAnvils_only was failed (forgePtn was (creating s p.val) (ptn s p.val))
    have copies := copies_leftTo p.val was failed s
    rw [ptn_leftTo]
    have fails := fun a (ha : a ∈ failed) => unusable_checkAnvils (forgePtn was (creating s p.val) (ptn s p.val)) (was := was) ha
    rw [checked] at fails ⊢
    exact ⟨rfl, rfl, rfl, rfl, rfl, rfl, rfl, rfl, rfl, rfl, fails, copies⟩
  · rw [exec_pllLockLoss, onlyIf_true _ _ (bne_iff_ne.mpr powered), startL2_of_covered _ _ _ ((covered_postFault ..).trans runs)]
    rfl
  · rw [exec_pllLockLoss, onlyIf_true _ _ (bne_iff_ne.mpr powered)]
    obtain ⟨level, fence, count⟩ := startL2_facts (code := pllCode p) (memory := false) (soft := false)
      ((covered_postFault (.l2 p) (pllCode p) s).trans free)
    refine ⟨_, rfl, level, fence, count.trans ?_⟩
    rw [window, postFault_aon]
    rfl
  · rw [exec_pllLockLoss, onlyIf_false _ _ (by simp [cold])]

end Sys2Proof.Machine

/-! ### Group sums (R35) and the bound of the sieve (R46) -/

namespace Sys2Proof.Machine

/-! #### Sums of codes -/

theorem sumI_eq_sum (l : List Int) : sumI l = l.sum := List.sum_eq_foldl.symm

theorem sumS_eq_sum (q : List Int) : sumS q = q.sum := sumI_eq_sum q

theorem sumA_eq_sum (q : List Int) : sumA q = (q.map fun x => (x.natAbs : Int)).sum := sumI_eq_sum _

/-- Twice the positive part of a code is its magnitude and itself together, so A + S is even (R35). -/
theorem sumA_add_sumS (q : List Int) : sumA q + sumS q = 2 * (q.map fun x => max x 0).sum := by
  rw [sumA_eq_sum, sumS_eq_sum]
  induction q with
  | nil => rfl
  | cons x q ih => simp only [List.map_cons, List.sum_cons]; omega

/-- Pos is the sum of the positive codes (R35). -/
theorem sumPos_eq_sum (q : List Int) : sumPos q = (q.map fun x => max x 0).sum := by
  rw [sumPos, sumA_add_sumS, Int.mul_ediv_cancel_left _ (by decide)]

theorem two_mul_sumPos (q : List Int) : 2 * sumPos q = sumA q + sumS q := by
  rw [sumPos_eq_sum, sumA_add_sumS]

theorem sumPos_nonneg (q : List Int) : 0 ≤ sumPos q := by
  rw [sumPos_eq_sum]
  exact List.sum_nonneg (by simp)

theorem natAbs_sumS_le_sumA (q : List Int) : ((sumS q).natAbs : Int) ≤ sumA q := by
  rw [sumS_eq_sum, sumA_eq_sum]
  induction q with
  | nil => rfl
  | cons x q ih => simp only [List.map_cons, List.sum_cons]; omega

theorem sumPos_le_sumA (q : List Int) : sumPos q ≤ sumA q := by
  have twice := two_mul_sumPos q
  have bound := natAbs_sumS_le_sumA q
  omega

/-- Codes of one magnitude bound give that many times the bound (R35). -/
theorem sumA_le {m : Nat} {q : List Int} (codes : ∀ x ∈ q, x.natAbs ≤ m) : sumA q ≤ m * q.length := by
  rw [sumA_eq_sum]
  induction q with
  | nil => simp
  | cons x q ih =>
    have head := codes x List.mem_cons_self
    have tail := ih fun y hy => codes y (List.mem_cons_of_mem x hy)
    simp only [List.map_cons, List.sum_cons, List.length_cons, Nat.cast_succ, mul_add]
    omega

/-! #### Query codes -/

theorem natAbs_clampI_le (i : Int) (m : Nat) : (clampI i (-m) m).natAbs ≤ m := by
  unfold clampI
  split
  · omega
  · split <;> omega

theorem natAbs_queryCode_le (eq : Int) (v : F32) : (queryCode eq v).natAbs ≤ 127 := natAbs_clampI_le _ 127

theorem natAbs_lowCode_le (eq : Int) (v : F32) : (lowCode eq v).natAbs ≤ 127 := natAbs_clampI_le _ 127

/-- A code of either limb of an encoded row lies in −127..127 (R34, R36). -/
theorem natAbs_encodeRow_le {k : Nat} {seed : W64} {d : Nat} {cos wide : Bool} {raw : List F32} {x : Int}
    (code : x ∈ (encodeRow k seed d cos wide raw).codes ∨ x ∈ (encodeRow k seed d cos wide raw).low) : x.natAbs ≤ 127 := by
  rcases code with high | low
  · obtain ⟨v, -, rfl⟩ := List.mem_map.mp high
    exact natAbs_queryCode_le _ v
  · obtain ⟨v, -, rfl⟩ := List.mem_map.mp low
    exact natAbs_lowCode_le _ v

/-- Settles O57: the sums are folded code by code, and a group is at most 128 codes of magnitude at most 127. -/
theorem groupSums : Obligations.GroupSums := by
  intro k seed d cos wide raw g i q size group
  have codes : ∀ x ∈ q, x.natAbs ≤ 127 := fun x hx => natAbs_encodeRow_le
    (group.imp (fun e => List.mem_of_mem_drop (List.mem_of_mem_take (e ▸ hx))) fun e => List.mem_of_mem_drop (List.mem_of_mem_take (e ▸ hx)))
  have short : q.length ≤ 128 := by
    rcases group with rfl | rfl <;> exact (List.length_take_le ..).trans size
  have bound := sumA_le codes
  exact ⟨sumS_eq_sum q, sumA_eq_sum q, natAbs_sumS_le_sumA q, by omega, two_mul_sumPos q⟩

/-! #### The low planes -/

theorem lowPlane_nonneg (c : BitVec 4) : 0 ≤ lowPlane c := by unfold lowPlane; omega

theorem lowPlane_le (c : BitVec 4) : lowPlane c ≤ 3 := by unfold lowPlane; omega

/-- 0 ≤ l ≤ 3 for each dimension, so L ≤ 3 · Pos (R46). -/
theorem dotI_lowPlane_le (c : List (BitVec 4)) (q : List Int) : dotI (c.map lowPlane) q ≤ 3 * sumPos q := by
  rw [dotI, sumI_eq_sum, sumPos_eq_sum]
  induction c generalizing q with
  | nil =>
    have pos : 0 ≤ sumPos q := sumPos_nonneg q
    rw [sumPos_eq_sum] at pos
    simpa using pos
  | cons b c ih =>
    cases q with
    | nil => simp
    | cons x q =>
      have term : lowPlane b * x ≤ 3 * max x 0 :=
        (mul_le_mul_of_nonneg_left (le_max_left x 0) (lowPlane_nonneg b)).trans
          (mul_le_mul_of_nonneg_right (lowPlane_le b) (le_max_right x 0))
      have rest := ih q
      simp only [List.map_cons, List.zipWith_cons_cons, List.sum_cons]
      omega

/-- Reading the low plane raises a corrected sum by at most 3 · Pos (R39, R46). -/
theorem coarseSum_le (c : List (BitVec 4)) (z : Nat) (q : List Int) :
    coarseSum c z true q ≤ coarseSum c z false q + 3 * sumPos q := by
  have low := dotI_lowPlane_le c q
  simp only [coarseSum, if_true, Bool.false_eq_true, if_false]
  omega

/-! #### The rescale (R40) -/

theorem xFloor_shift (x : Int) (sg : Nat) : xFloor { num := x, exp := -(sg : Int) } = x / 2 ^ sg := by
  unfold xFloor
  by_cases whole : sg = 0
  · subst whole; simp
  · rw [if_neg (by simp; omega)]
    simp

/-- The rescale rounds the quotient by 2^σ to nearest, ties to even (R40). -/
theorem rneShift_eq (x : Int) (sg : Nat) :
    rneShift x sg =
      if 2 ^ sg < 2 * (x % 2 ^ sg) ∨ (2 * (x % 2 ^ sg) = 2 ^ sg ∧ x / 2 ^ sg % 2 = 1) then x / 2 ^ sg + 1 else x / 2 ^ sg := by
  have rest : x % 2 ^ sg = x - x / 2 ^ sg * 2 ^ sg := by rw [Int.emod_def, mul_comm]
  have place : min (-(sg : Int)) 0 = -sg := by omega
  unfold rneShift xRne
  rw [xFloor_shift]
  simp only [xSub, xAdd, xNeg, xInt, place, min_self, rest, sub_self, Int.toNat_zero, pow_zero, mul_one, Nat.cast_one, sub_neg_eq_add, zero_add,
    Int.toNat_natCast, neg_mul, one_mul, gt_iff_lt, lt_add_neg_iff_add_lt]
  congr 1
  generalize x / 2 ^ sg = q
  generalize q * 2 ^ sg = m
  generalize (2 : Int) ^ sg = u
  apply propext
  omega

/-- A rounding to nearest is off by at most half a unit (R40). -/
theorem rneShift_near (x : Int) (sg : Nat) :
    2 * x - 2 ^ sg ≤ 2 * (rneShift x sg * 2 ^ sg) ∧ 2 * (rneShift x sg * 2 ^ sg) ≤ 2 * x + 2 ^ sg := by
  have unit : (0 : Int) < 2 ^ sg := by positivity
  have parts := Int.mul_ediv_add_emod x (2 ^ sg)
  have small := Int.emod_lt_of_pos x unit
  have nonneg := Int.emod_nonneg x unit.ne'
  rw [mul_comm] at parts
  rw [rneShift_eq]
  split
  · rw [add_mul, one_mul]; omega
  · omega

theorem rneShift_zero (x : Int) : rneShift x 0 = x := by
  have near := rneShift_near x 0
  omega

/-- Rounding moves a sum by at most one unit more than the whole units added (R40). -/
theorem rneShift_le_add {x y k : Int} {sg : Nat} (h : y ≤ x + k * 2 ^ sg) : rneShift y sg ≤ rneShift x sg + k + 1 := by
  obtain ⟨lower, -⟩ := rneShift_near x sg
  obtain ⟨-, upper⟩ := rneShift_near y sg
  have unit : (0 : Int) < 2 ^ sg := by positivity
  refine le_of_mul_le_mul_right (a := 2 ^ sg) ?_ unit
  linarith

/-! #### The bound of the sieve (R46) -/

/-- The high limb of a group: its low plane adds at most 3 · m · Pos (R46). -/
theorem highLimb_le (c : List (BitVec 4)) (z m : Nat) (q : List Int) :
    rneShift (coarseSum c z true q * m) 0 ≤ rneShift (coarseSum c z false q * m) 0 + 3 * m * sumPos q := by
  rw [rneShift_zero, rneShift_zero]
  have scaled := mul_le_mul_of_nonneg_right (coarseSum_le c z q) (Int.natCast_nonneg m)
  linarith

/-- The low limb, rescaled by 2^8: at most 3 · m · ⌈Pos / 256⌉, and 1 for its rounding (R40, R46). -/
theorem lowLimb_le (c : List (BitVec 4)) (z m : Nat) (q : List Int) :
    rneShift (coarseSum c z true q * m) 8 ≤ rneShift (coarseSum c z false q * m) 8 + (3 * m * ((sumPos q + 255) / 256) + 1) := by
  have scaled := mul_le_mul_of_nonneg_right (coarseSum_le c z q) (Int.natCast_nonneg m)
  have whole : sumPos q ≤ (sumPos q + 255) / 256 * 2 ^ 8 := by omega
  have units := mul_le_mul_of_nonneg_left whole (mul_nonneg (by decide : (0 : Int) ≤ 3) (Int.natCast_nonneg m))
  rw [← add_assoc]
  exact rneShift_le_add (by linarith)

/-- The bound is sound group by group, whatever the limbs and the refine tier (R46). -/
theorem totalT_le (g : Nat) (e : Enc) (r : QRow) (two refine : Bool) :
    totalT g e r two true refine ≤ totalT g e r two false refine + betaBound g e r two := by
  simp only [totalT, betaBound, sumI_eq_sum]
  rw [← List.sum_map_add]
  refine List.sum_le_sum fun i _ => ?_
  have high := highLimb_le ((e.codes.drop (g * i)).take g) (lget e.zero i 0) (lget e.mult i 1) ((r.codes.drop (g * i)).take g)
  cases two with
  | false =>
    simp only [Bool.false_eq_true, if_false]
    omega
  | true =>
    have low := lowLimb_le ((e.codes.drop (g * i)).take g) (lget e.zero i 0) (lget e.mult i 1) ((r.low.drop (g * i)).take g)
    simp only [if_true]
    omega

/-- Settles O58: the bound of a group sums what reading its low plane can add, limb by limb. -/
theorem lowPlaneBound : Obligations.LowPlaneBound := by
  refine ⟨fun g e r => ⟨?_, rfl⟩, fun c q => ⟨dotI_lowPlane_le c q, sumPos_le_sumA q⟩, totalT_le⟩
  simp [betaBound]

end Sys2Proof.Machine

/-! ### The selector (R45, R69, R70): what an offer does to a lane -/

namespace Sys2Proof.Machine

/-! #### Comparisons of scores -/

theorem fGt_iff {a b : F32} : fGt a b = true ↔ fIsNaN a = false ∧ fIsNaN b = false ∧ fOrd b < fOrd a := by
  simp [fGt, and_assoc]

theorem fEq_iff {a b : F32} : fEq a b = true ↔ fIsNaN a = false ∧ fIsNaN b = false ∧ fOrd a = fOrd b := by
  simp [fEq, and_assoc]

theorem not_fGt_of_fEq {a b : F32} (same : fEq a b = true) : fGt a b = false := by
  obtain ⟨-, -, equal⟩ := fEq_iff.mp same
  exact Bool.eq_false_iff.mpr fun above => (fGt_iff.mp above).2.2.ne' equal

/-- A score above a maximum is above both of its numbers. -/
theorem fGt_of_fGt_fMax {x a b : F32} (number : fIsNaN a = false) (above : fGt x (fMax a b) = true) : fGt x a = true := by
  unfold fMax at above
  split at above
  · exact above
  · rename_i lower
    obtain ⟨hx, hb, beyond⟩ := fGt_iff.mp above
    have order : fOrd a ≤ fOrd b := not_lt.mp fun greater => lower (fGt_iff.mpr ⟨number, hb, greater⟩)
    exact fGt_iff.mpr ⟨hx, number, order.trans_lt beyond⟩

theorem fGt_fMax {x a b : F32} (ha : fGt x a = true) (hb : fGt x b = true) : fGt x (fMax a b) = true := by
  unfold fMax
  split
  · exact ha
  · exact hb

/-! #### The lowest score of a lane -/

theorem fIsNaN_fMin {a b : F32} (ha : fIsNaN a = false) (hb : fIsNaN b = false) : fIsNaN (fMin a b) = false := by
  unfold fMin
  split
  · exact hb
  · exact ha

theorem fIsNaN_foldl_fMin {l : List Entry} {m : F32} (hm : fIsNaN m = false) (numbers : ∀ x ∈ l, fIsNaN x.score = false) :
    fIsNaN (l.foldl (fun m x => fMin m x.score) m) = false := by
  induction l generalizing m with
  | nil => exact hm
  | cons x l ih =>
    exact ih (fIsNaN_fMin hm (numbers x List.mem_cons_self)) fun y hy => numbers y (List.mem_cons_of_mem x hy)

/-- The lowest of scores that are numbers is a number; that of an empty list is −∞. -/
theorem fIsNaN_lowest {l : List Entry} (numbers : ∀ x ∈ l, fIsNaN x.score = false) : fIsNaN (lowest l) = false := by
  cases l with
  | nil => decide
  | cons x l => exact fIsNaN_foldl_fMin (numbers x List.mem_cons_self) fun y hy => numbers y (List.mem_cons_of_mem x hy)

/-- θ of a full lane is its lowest score (R45, R69). -/
theorem theta_of_full {a : Anvil} {l : Nat} (full : laneCap a l ≤ (laneEntries a l).length) : theta a l = lowest (laneEntries a l) := if_pos full

/-! #### One offer (R70) -/

theorem lget_lset_same {α : Type} (l : List α) (i : Nat) (a d d' : α) : lget (lset l i a d) i d' = a := by
  induction l generalizing i with
  | nil =>
    induction i with
    | zero => rfl
    | succ i ih => exact ih
  | cons x l ih =>
    cases i with
    | zero => rfl
    | succ i => exact ih i

/-- A lane that the configuration does not have takes nothing (R70). -/
theorem offer_of_no_lane {l : Nat} (e : Entry) {a : Anvil} (absent : laneCount a.conf.toNat ≤ l) : offer l e a = a := if_pos absent

section Offer

variable {l : Nat} {e : Entry} {a : Anvil}

theorem offer_of_nan (lane : l < laneCount a.conf.toNat) (nan : fIsNaN e.score = true) :
    offer l e a = { a with nancnt := a.nancnt + 1, laneNan := lset a.laneNan l (lget a.laneNan l 0 + 1) 0 } := by
  rw [offer, if_neg (Nat.not_le.mpr lane), if_pos nan]

theorem offer_of_not_above (number : fIsNaN e.score = false) (low : fGt e.score (thetaEff a l) = false) : offer l e a = a := by
  simp [offer, number, low]

theorem offer_of_above (lane : l < laneCount a.conf.toNat) (above : fGt e.score (thetaEff a l) = true) :
    offer l e a = { a with
      sel := lset a.sel l ((if laneCap a l ≤ (laneEntries a l).length then evict (laneEntries a l) else laneEntries a l) ++ [e]) [] } := by
  rw [offer, if_neg (Nat.not_le.mpr lane), if_neg (by simp [(fGt_iff.mp above).1]), if_pos above]

/-- An offer that is not above θ_eff leaves every entry (R70). -/
theorem sel_offer_of_not_above (low : fGt e.score (thetaEff a l) = false) : (offer l e a).sel = a.sel := by
  by_cases lane : l < laneCount a.conf.toNat
  · cases number : fIsNaN e.score with
    | true => rw [offer_of_nan lane number]
    | false => rw [offer_of_not_above number low]
  · rw [offer_of_no_lane e (Nat.not_lt.mp lane)]

theorem laneEntries_offer_of_above (lane : l < laneCount a.conf.toNat) (above : fGt e.score (thetaEff a l) = true) :
    laneEntries (offer l e a) l =
      (if laneCap a l ≤ (laneEntries a l).length then evict (laneEntries a l) else laneEntries a l) ++ [e] := by
  rw [offer_of_above lane above]
  exact lget_lset_same _ _ _ _ _

end Offer

theorem mem_of_mem_evict {x : Entry} {l : List Entry} (kept : x ∈ evict l) : x ∈ l := by
  unfold evict at kept
  dsimp only at kept
  split at kept
  · exact List.mem_reverse.mp (List.mem_of_mem_eraseIdx (List.mem_reverse.mp kept))
  · exact List.mem_of_mem_dropLast kept

/-- A full lane of numbers is above its θ_eff only where it is above its lowest score (R45). -/
theorem not_above_of_full {a : Anvil} {l : Nat} {e : Entry} (full : laneCap a l ≤ (laneEntries a l).length)
    (numbers : ∀ x ∈ laneEntries a l, fIsNaN x.score = false) (low : fGt e.score (lowest (laneEntries a l)) = false) :
    fGt e.score (thetaEff a l) = false := by
  refine Bool.eq_false_iff.mpr fun above => ?_
  rw [thetaEff, theta_of_full full] at above
  rw [fGt_of_fGt_fMax (fIsNaN_lowest numbers) above] at low
  cases low

/-- Settles O56: θ_eff of a full lane is at least its lowest score, and an offer not above θ_eff leaves the entries. -/
theorem fullSelector : Obligations.FullSelector := by
  refine ⟨fun a l e full numbers low => ?_, fun a l e full numbers same => ?_, fun a l e lane full numbers above floor => ?_,
    fun a l e numbers x hx => ?_⟩
  · exact sel_offer_of_not_above (not_above_of_full full numbers low)
  · exact sel_offer_of_not_above (not_above_of_full full numbers (not_fGt_of_fEq same))
  · rw [laneEntries_offer_of_above lane, if_pos full]
    rw [thetaEff, theta_of_full full]
    exact fGt_fMax above floor
  · cases above : fGt e.score (thetaEff a l) with
    | false =>
      rw [laneEntries, sel_offer_of_not_above above] at hx
      exact numbers x hx
    | true =>
      by_cases lane : l < laneCount a.conf.toNat
      · rw [laneEntries_offer_of_above lane above] at hx
        rcases List.mem_append.mp hx with old | new
        · split at old
          · exact numbers x (mem_of_mem_evict old)
          · exact numbers x old
        · rw [List.mem_singleton.mp new]
          exact (fGt_iff.mp above).1
      · rw [offer_of_no_lane e (Nat.not_lt.mp lane)] at hx
        exact numbers x hx

end Sys2Proof.Machine

/-! ### Compute steps (R66, R67, R69–R74): what an op of an anvil leaves once its reads are clear -/

namespace Sys2Proof.Machine

/-! #### States that differ in their anvils -/

/-- A partition without its anvils. -/
def noAnvils (x : Ptn) : Ptn := { x with anvils := [] }

/-- From s to t anvils change and nothing else does. -/
structure AnvilsOnly (s t : State) : Prop where
  frame : t = { s with ptns := t.ptns }
  ptns : ∀ q, noAnvils (ptn t q) = noAnvils (ptn s q)

theorem AnvilsOnly.refl (s : State) : AnvilsOnly s s := ⟨rfl, fun _ => rfl⟩

theorem anvilsOnly_updAnvil (p i : Nat) (f : Anvil → Anvil) (s : State) : AnvilsOnly s (updAnvil p i f s) :=
  ⟨rfl, ptn_updPtn_of noAnvils fun _ => rfl⟩

section AnvilsOnly

variable {s t : State} (h : AnvilsOnly s t)
include h

theorem AnvilsOnly.ptn_eq {β : Type} (g : Ptn → β) (blind : ∀ x, g (noAnvils x) = g x) (q : Nat) : g (ptn t q) = g (ptn s q) := by
  rw [← blind, h.ptns, blind]

theorem AnvilsOnly.sameMemory : SameMemory s t :=
  ⟨(congrArg State.hbm h.frame :), (congrArg State.poison h.frame :), h.ptn_eq (·.wcb) fun _ => rfl⟩

theorem AnvilsOnly.tombWord_eq (b : Nat) (sn : Epoch) : tombWord t b sn = tombWord s b sn := by
  simp only [tombWord, logOf, tombRec, h.ptn_eq (·.log) fun _ => rfl, h.ptn_eq (·.tombs) fun _ => rfl]

theorem AnvilsOnly.anvHeader_eq (a : Anvil) : anvHeader t a = anvHeader s a := by
  rw [h.frame]
  rfl

theorem AnvilsOnly.wdMetric_eq (a : Anvil) : wdMetric t a = wdMetric s a := by
  rw [h.frame]
  rfl

theorem AnvilsOnly.sieveProg_eq (a : Anvil) : sieveProg t a = sieveProg s a := by
  rw [h.frame]
  rfl

theorem AnvilsOnly.coll_eq (c : Nat) : coll t c = coll s c := by
  rw [h.frame]
  rfl

theorem AnvilsOnly.visible_eq (c : Nat) (sn : Epoch) (r : SlotRef) : visible t c sn r = visible s c sn r := by
  simp only [visible, h.tombWord_eq, h.coll_eq]

theorem AnvilsOnly.slotPass_eq (y : Coll) (prog : Option (List W32)) (a : Anvil) (d : Desc) (ka kb : Nat) :
    slotPass t y prog a d ka kb = slotPass s y prog a d ka kb := by
  simp only [slotPass, h.tombWord_eq]

theorem AnvilsOnly.brickPass_eq (y : Coll) (prog : Option (List W32)) (sn : Epoch) (d : Desc) :
    brickPass t y prog sn d = brickPass s y prog sn d := by
  simp only [brickPass, h.visible_eq]

theorem AnvilsOnly.framePoisoned_eq (a : Anvil) (d : Desc) : framePoisoned t a d = framePoisoned s a d := by
  simp only [framePoisoned, h.sameMemory.rangePoisoned_eq, h.coll_eq]

theorem AnvilsOnly.slotEntry_eq (p : Nat) (d : Desc) (key : Key) (score : F32) (slot : Nat) :
    slotEntry t p d key score slot = slotEntry s p d key score slot := by
  rw [h.frame]
  rfl

theorem AnvilsOnly.blockEntries_eq (p : Nat) (d : Desc) (x : Cmd) (r : QRow) (es : List Posting) :
    blockEntries t p d x r es = blockEntries s p d x r es := by
  simp only [blockEntries, h.tombWord_eq, h.slotEntry_eq, h.coll_eq]

theorem AnvilsOnly.laneOffers_eq (p : Nat) (a : Anvil) (d : Desc) (w : W128) (l : Nat) : laneOffers t p a d w l = laneOffers s p a d w l := by
  have pieces : ∀ x r, pieceEntries t p a d x r l = pieceEntries s p a d x r l := fun x r => by
    simp only [pieceEntries, h.blockEntries_eq, h.coll_eq]
  have slots : ∀ x r, patternEntries t p a d x r = patternEntries s p a d x r := fun x r => by
    simp only [patternEntries, h.slotEntry_eq, h.coll_eq]
  have cmds : (∀ q, laneCmd t q = laneCmd s q) ∧ ∀ q, laneRow t q = laneRow s q := by
    rw [h.frame]
    exact ⟨fun _ => rfl, fun _ => rfl⟩
  simp only [laneOffers, pieces, slots, cmds, h.slotEntry_eq]

end AnvilsOnly

/-! #### A reading op (R59, R76) -/

/-- The state in which a reading op computes: a corrected scratchpad error has been counted (R76). -/
def afterRead (sp : SpRead) (p i : Nat) (s : State) : State :=
  if sp = .corrected then updAnvil p i (fun a => { a with ceCnt := satInc a.ceCnt }) s else s

theorem anvilsOnly_afterRead (sp : SpRead) (p i : Nat) (s : State) : AnvilsOnly s (afterRead sp p i s) := by
  unfold afterRead
  split
  · exact anvilsOnly_updAnvil ..
  · exact .refl s

@[simp] theorem anvil_afterRead (sp : SpRead) (p i : Nat) (s : State) : anvil (afterRead sp p i s) p i = counted sp (anvil s p i) := by
  unfold afterRead counted
  split <;> simp

@[simp] theorem afterRead_free (sp : SpRead) (p i : Nat) (s : State) : (afterRead sp p i s).free = s.free := by
  unfold afterRead
  split <;> rfl

/-! #### The ops (R55) -/

theorem anvil_opDot (p i : Nat) (w : W128) (s : State) :
    anvil (opDot p i w s) p i = stepped (dotCycles (anvil s p i) w) (dotAll (anvil s p i) (anvHeader s (anvil s p i)) w) := by
  rw [opDot, anvil_stepDone, anvil_updAnvil_same]

/-- The needs-low masks of the sixteen lanes (R47, R67). -/
def boundMasks (a : Anvil) (h : List Byte) (metric : Nat) (w : W128) : List W64 :=
  (upto 16).map fun l => if l < a.lanes.length then BitVec.ofNat 64 (maskOf ((bitsOf 64 a.live.toNat).filter (needsLow a h metric w l))) else 0

theorem anvil_opBound (p i : Nat) (w : W128) (s : State) :
    anvil (opBound p i w s) p i = stepped (wdGroups (anvil s p i) * (anvil s p i).lanes.length + 4 * (anvil s p i).lanes.length)
      { anvil s p i with
        needlo := boundMasks (anvil s p i) (anvHeader s (anvil s p i)) (wdMetric s (anvil s p i)) w
        boundAny := (boundMasks (anvil s p i) (anvHeader s (anvil s p i)) (wdMetric s (anvil s p i)) w).any (· != 0) } := by
  rw [opBound, anvil_stepDone, anvil_updAnvil_same]
  rfl

theorem lget_boundMasks {l : Nat} (lane : l < 16) (a : Anvil) (h : List Byte) (metric : Nat) (w : W128) :
    lget (boundMasks a h metric w) l 0 =
      if l < a.lanes.length then BitVec.ofNat 64 (maskOf ((bitsOf 64 a.live.toNat).filter (needsLow a h metric w l))) else 0 := by
  simp [boundMasks, lget, upto, lane]

theorem anvil_opScore (p i : Nat) (w : W128) (s : State) :
    anvil (opScore p i w s) p i = stepped (4 * (anvil s p i).lanes.length) (padWrite (stDest w)
      ((upto (anvil s p i).lanes.length).flatMap fun l => (upto 64).flatMap fun slot =>
        leBytes 4 (tileScore (anvil s p i) (anvHeader s (anvil s p i)) (wdMetric s (anvil s p i)) w l slot).toNat) (anvil s p i)) := by
  rw [opScore, anvil_stepDone, anvil_updAnvil_same]

theorem anvil_opBfma (p i : Nat) (w : W128) (s : State) :
    anvil (opBfma p i w s) p i = stepped (ceilDiv (stCount w) 64 + 4) (bfma s.free w (anvil s p i)) :=
  (anvil_stepDone ..).trans (congrArg _ (anvil_updAnvil_same ..))

theorem anvil_opSgather (p i : Nat) (w : W128) (s : State) :
    anvil (opSgather p i w s) p i = stepped (8 * stCount w)
      ((upto (stCount w)).foldl (fun b j => gatherBlock b w (termWeight (anvil s p i) s.free (stB w)) j) (anvil s p i)) :=
  (anvil_stepDone ..).trans (congrArg _ (anvil_updAnvil_same ..))

/-! #### The sieve (R72, R73, R85) -/

section Sieve

variable {p i : Nat} {w : W128} {s : State} {d : Desc}

theorem anvil_opSieve_of_none (idle : (anvil s p i).desc = none) : anvil (opSieve p i w s) p i = stepped 1 (anvil s p i) := by
  simp only [opSieve, idle, anvil_stepDone]

theorem anvil_opSieve_zone (current : (anvil s p i).desc = some d) (known : listed (anvil s p i) = true) (zone : stParam w ≠ 1) :
    anvil (opSieve p i w s) p i = stepped (progLen (sieveProg s (anvil s p i)))
      { anvil s p i with zone := (zonePass (coll s d.coll) (sieveProg s (anvil s p i)) (anvil s p i) (stA w)).code } := by
  simp [opSieve, current, known, zone, anvil_stepDone]

theorem anvil_opSieve_slots (current : (anvil s p i).desc = some d) (known : listed (anvil s p i) = true) (slots : stParam w = 1) :
    anvil (opSieve p i w s) p i = stepped (8 * (if (anvil s p i).zone == Zone.all.code then 0 else progLen (sieveProg s (anvil s p i))) + 8)
      { anvil s p i with live := slotPass s (coll s d.coll) (sieveProg s (anvil s p i)) (anvil s p i) d (stA w) (stB w) } := by
  have kept : ∀ k n (u : State), anvil (cacheLines k n u) p i = anvil u p i := fun k n u =>
    congrArg (fun as => tgetD as i ({} : Anvil)) (ptn_cacheLines (·.anvils) (fun _ _ => rfl) _ _ u p)
  simp [opSieve, current, known, slots, anvil_stepDone, kept]

theorem anvil_opSieve_unlisted (current : (anvil s p i).desc = some d) (free : listed (anvil s p i) = false) :
    anvil (opSieve p i w s) p i = stepped (9 * progLen (sieveProg s (anvil s p i)) + 8) { anvil s p i with
      zone := (brickPass s (coll s d.coll) (sieveProg s (anvil s p i)) (BitVec.ofNat 32 (field (anvil s p i).wd 20 4)) d).1.code
      live := if d.kind = 1 then (anvil s p i).live
        else (brickPass s (coll s d.coll) (sieveProg s (anvil s p i)) (BitVec.ofNat 32 (field (anvil s p i).wd 20 4)) d).2 } := by
  simp [opSieve, current, free, anvil_stepDone]

end Sieve

/-! #### The selector (R69, R70) -/

/-- What SELECT offers, lane by lane. -/
def selectOffers (s : State) (p : Nat) (d : Desc) (a : Anvil) (w : W128) : List (Nat × List Entry) :=
  (upto a.lanes.length).map fun l => (l, laneOffers s p a d w l)

/-- The offers taken in order: the anvil they leave, and how many were admitted (R56, R70). -/
def takeOffers (a : Anvil) (offers : List (Nat × List Entry)) : Anvil × Nat :=
  offers.foldl (fun r o => o.2.foldl (fun r e => (offer o.1 e r.1, r.2 + if admits o.1 e r.1 then 1 else 0)) r) (a, 0)

/-- Counting offers changes no anvil (R240). -/
theorem anvil_foldl_countOffers (a : Anvil) (offers : List (Nat × List Entry)) (s : State) (p i : Nat) :
    anvil (offers.foldl (fun s o => match (a.lanes[o.1]?).bind (laneCmd s) with
      | some x => countOffers x.ctx o.2.length s
      | none => s) s) p i = anvil s p i := by
  induction offers generalizing s with
  | nil => rfl
  | cons o offers ih =>
    rw [List.foldl_cons, ih]
    split
    · exact anvil_updCtx ..
    · rfl

theorem anvil_opSelect {p i : Nat} {w : W128} {s : State} {d : Desc} (current : (anvil s p i).desc.getD noDesc = d)
    (clean : ((anvil s p i).desc.isSome && framePoisoned s (anvil s p i) d) = false) :
    anvil (opSelect p i w s) p i =
      stepped (4 * (anvil s p i).lanes.length + (takeOffers (anvil s p i) (selectOffers s p d (anvil s p i) w)).2)
        (takeOffers (anvil s p i) (selectOffers s p d (anvil s p i) w)).1 := by
  subst current
  rw [opSelect, if_neg (by simp [clean]), anvil_stepDone, anvil_updAnvil_same]
  rfl

theorem anvil_opSelclr (p i : Nat) (w : W128) (s : State) :
    anvil (opSelclr p i w s) p i =
      stepped 8 { anvil s p i with sel := (anvil s p i).sel.zipIdx.map fun x => if bit (stParam w) x.2 then [] else x.1 } := by
  rw [opSelclr, anvil_stepDone, anvil_updAnvil_same]

/-! #### EMIT (R71, R148, R298) -/

/-- The slot of a lane's command depends on that command alone (R298). -/
theorem laneCredit_emitLane {p i : Nat} {a : Anvil} {q r : LaneReq} (l : Nat) (s : State) (other : r.cmd ≠ q.cmd) :
    laneCredit (emitLane p i a q l s) p i r = laneCredit s p i r := by
  simp only [laneCredit, laneCmd, emitLane, updRow, cmd_updCmd_other _ _ other]

/-- With credit for every lane and no command on two lanes, each lane is sent (R71, R298). -/
theorem emitLanes_of_credit {p i : Nat} {a : Anvil} {ls : List (LaneReq × Nat)} {s : State} (credit : ∀ x ∈ ls, laneCredit s p i x.1 = true)
    (distinct : (ls.map (·.1.cmd)).Nodup) :
    emitLanes p i a ls s = (none, ls.foldl (fun v x => emitLane p i a x.1 x.2 v) s) := by
  induction ls generalizing s with
  | nil => rfl
  | cons x ls ih =>
    obtain ⟨fresh, distinct⟩ := List.nodup_cons.mp distinct
    rw [emitLanes, if_pos (credit x List.mem_cons_self), List.foldl_cons]
    refine ih (fun y hy => ?_) distinct
    have other : y.1.cmd ≠ x.1.cmd := fun same => fresh (List.mem_map.mpr ⟨y, hy, same⟩)
    rw [laneCredit_emitLane _ _ other]
    exact credit y (List.mem_cons_of_mem x hy)

theorem foldCredit_of_lanes {s : State} {p i : Nat} (credit : (anvil s p i).lanes.all (laneCredit s p i) = true) : foldCredit s p i = true :=
  List.all_eq_true.mpr fun q hq => List.all_eq_true.mp credit q (List.mem_of_mem_filter hq)

/-- The lanes of an EMIT that are still to be sent, none for the descriptor of an engine's own scoring (R71). -/
def lanesToEmit (a : Anvil) : List (LaneReq × Nat) := if a.desc.any (·.quiet) then [] else a.lanes.zipIdx.drop a.emitted

/-- An EMIT that starts with credit for every lane and no command on two lanes sends all of them (R71, R298). -/
theorem emitLanes_lanesToEmit {p i : Nat} {a : Anvil} {s : State} (credit : a.lanes.all (laneCredit s p i) = true) (fresh : a.emitted = 0)
    (loud : a.desc.any (·.quiet) = false)
    (distinct : ∀ (i j : Nat) (k l : LaneReq), a.lanes[i]? = some k → a.lanes[j]? = some l → k.cmd = l.cmd → i = j) :
    emitLanes p i a (lanesToEmit a) s = (none, a.lanes.zipIdx.foldl (fun v x => emitLane p i a x.1 x.2 v) s) := by
  have lanes : lanesToEmit a = a.lanes.zipIdx := by simp [lanesToEmit, loud, fresh]
  rw [lanes]
  refine emitLanes_of_credit (fun x hx => List.all_eq_true.mp credit x.1 (List.fst_mem_of_mem_zipIdx hx)) ?_
  rw [show (fun x : LaneReq × Nat => x.1.cmd) = LaneReq.cmd ∘ Prod.fst from rfl, ← List.map_map, List.zipIdx_map_fst,
    List.nodup_iff_getElem?_ne_getElem?]
  intro m n before inside same
  rw [List.length_map] at inside
  rw [List.getElem?_map, List.getElem?_map, List.getElem?_eq_getElem inside, List.getElem?_eq_getElem (before.trans inside)] at same
  exact before.ne (distinct m n _ _ (List.getElem?_eq_getElem _) (List.getElem?_eq_getElem _) (Option.some.inj same))

section Emit

variable {p i : Nat} {w : W128} {s u : State}

theorem opEmit_waits (fresh : (anvil s p i).emitted = 0) (full : foldCredit s p i = false) :
    opEmit p i w s = waitFor .waitCredit p i s := if_pos (by simp [fresh, full])

theorem opEmit_of_sent (goes : (anvil s p i).emitted = 0 → foldCredit s p i = true)
    (sent : emitLanes p i (anvil s p i) (lanesToEmit (anvil s p i)) s = (none, u)) :
    opEmit p i w s = stepDone (4 + (anvil s p i).sel.foldl (fun n l => n + l.length) 0 / 2) p i (updAnvil p i (emitDone w) u) := by
  rw [lanesToEmit] at sent
  rw [opEmit, if_neg (by simpa using goes)]
  dsimp only
  rw [sent]

theorem opEmit_of_full {l : Nat} (goes : (anvil s p i).emitted = 0 → foldCredit s p i = true)
    (full : emitLanes p i (anvil s p i) (lanesToEmit (anvil s p i)) s = (some l, u)) :
    opEmit p i w s = updAnvil p i (fun a => { a with emitted := l }) (waitFor .waitCredit p i u) := by
  rw [lanesToEmit] at full
  rw [opEmit, if_neg (by simpa using goes)]
  dsimp only
  rw [full]

/-- Lanes sent change their commands and nothing else. -/
theorem anvil_emitLanes {a : Anvil} {ls : List (LaneReq × Nat)} {r : Option Nat × State} (sent : emitLanes p i a ls s = r) :
    anvil r.2 p i = anvil s p i :=
  anvil_of_ptns (sent ▸ (k_emitLanes (within_self _) p i a ls (Keeps.refl _ s)).same_ptns)

/-- An EMIT that may go on sends its lanes, and is over or waits at the first lane without credit (R71, R298). -/
theorem opEmit_facts {r : Option Nat × State} (goes : (anvil s p i).emitted = 0 → foldCredit s p i = true)
    (sent : emitLanes p i (anvil s p i) (lanesToEmit (anvil s p i)) s = r) :
    (opEmit p i w s).cmds = r.2.cmds ∧
      anvil (opEmit p i w s) p i = match r.1 with
        | some l => { anvil s p i with st := .waitCredit, emitted := l }
        | none => stepped (4 + (anvil s p i).sel.foldl (fun n l => n + l.length) 0 / 2) (emitDone w (anvil s p i)) := by
  have same := anvil_emitLanes sent
  obtain ⟨_ | l, u⟩ := r
  · rw [opEmit_of_sent goes sent, anvil_stepDone, anvil_updAnvil_same, same]
    exact ⟨rfl, rfl⟩
  · rw [opEmit_of_full goes sent, anvil_updAnvil_same, waitFor, anvil_updAnvil_same, same]
    exact ⟨rfl, rfl⟩

end Emit

theorem exec_selclr {p : Fin 12} {a : Fin 864} {w : W128} {s : State} (met : meets s p a 0x33 w = true) :
    exec (.selclr p a) s = .next (opSelclr p a w s) :=
  (rfl : exec (.selclr p a) s = .next (runOp p a 0x33 (opSelclr p a) s)).trans (congrArg _ (runOp_runs met))

theorem exec_emit (p : Fin 12) (a : Fin 864) (s : State) : exec (.emit p a) s = .next (runOp p a 0x34 (opEmit p a) s) := rfl

/-- An EMIT that has begun goes on whatever its condition (R298). -/
theorem runOp_emit {p i : Nat} {w : W128} {s : State} (word : stepWordAt s p i 0x34 = some w)
    (goes : stepCondition s p i w = true ∨ (anvil s p i).emitted > 0) : runOp p i 0x34 (opEmit p i) s = opEmit p i w s := by
  rcases goes with condition | begun
  · exact runOp_runs (by simp [meets, word, condition])
  · exact runOp_always word (by simp [begun])

/-! #### The rows -/

/-- A compute step whose ranges are clear computes once its read has been counted (R59, R76). -/
theorem readingOp_afterRead {p : Fin 12} {a : Fin 864} {w : W128} {s : State} {sp : SpRead} {op : Nat}
    {reads : Anvil → W128 → List (Nat × Nat)} (f : W128 → State → State)
    (met : meets s p a op w = true) (good : sp ≠ .uncorrectable)
    (clear : readsClear (anvil s p.val a.val) (reads (anvil s p a) w) = true) :
    Host.Outcome.next (readingOp p a op true reads sp f s) =
      (.next (f w (afterRead sp p a s)) : Host.Outcome State Fault Refusal) :=
  congrArg _ (readingOp_runs met clear good)

/-- Settles O25: an op whose reads are clear computes in a state that differs in its own anvil's error count. -/
theorem computeSteps : Obligations.ComputeSteps := by
  refine ⟨fun p a w s sp met good clear => ?_, fun p a w s sp met good clear => ?_, fun p a w s sp met good clear => ?_,
    fun p a w s sp met good clear => ?_, fun p a w s sp met good clear => ?_, fun p a w s sp d met good clear current known zone => ?_,
    fun p a w s sp d met good clear current known slots => ?_, fun p a w s sp d r met good clear current free pass => ?_,
    fun p a w s sp met good clear idle => ?_, fun p a w s sp d b u met good clear current clean read taken => ?_,
    fun p a w s met => ?_, fun p a w s met credit fresh loud distinct => ?_, fun p a w s r word goes sent => ?_, fun p a w s met fresh full => ?_⟩
  · refine ⟨_, readingOp_afterRead _ met good clear, ?_⟩
    rw [anvil_opDot, anvil_afterRead, (anvilsOnly_afterRead ..).anvHeader_eq]
    rfl
  · refine ⟨_, readingOp_afterRead _ met good clear, ?_⟩
    rw [anvil_opBound, anvil_afterRead, (anvilsOnly_afterRead ..).anvHeader_eq, (anvilsOnly_afterRead ..).wdMetric_eq]
    exact ⟨fun l lane => lget_boundMasks lane .., rfl, rfl, rfl⟩
  · refine ⟨_, readingOp_afterRead _ met good clear, ?_⟩
    rw [anvil_opScore, anvil_afterRead, (anvilsOnly_afterRead ..).anvHeader_eq, (anvilsOnly_afterRead ..).wdMetric_eq]
    rfl
  · refine ⟨_, readingOp_afterRead _ met good clear, ?_, congrArg (· + _) (afterRead_free ..)⟩
    rw [anvil_opBfma, anvil_afterRead, afterRead_free]
  · refine ⟨_, readingOp_afterRead _ met good clear, ?_, congrArg (· + _) (afterRead_free ..)⟩
    rw [anvil_opSgather, anvil_afterRead, afterRead_free]
  · refine ⟨_, readingOp_afterRead _ met good clear, ?_⟩
    rw [anvil_opSieve_zone (d := d) (by rw [anvil_afterRead]; exact current) (by rw [anvil_afterRead]; exact known) zone,
      anvil_afterRead, (anvilsOnly_afterRead ..).sieveProg_eq, (anvilsOnly_afterRead ..).coll_eq]
    rfl
  · refine ⟨_, readingOp_afterRead _ met good clear, ?_⟩
    rw [anvil_opSieve_slots (d := d) (by rw [anvil_afterRead]; exact current) (by rw [anvil_afterRead]; exact known) slots,
      anvil_afterRead, (anvilsOnly_afterRead ..).sieveProg_eq, (anvilsOnly_afterRead ..).coll_eq, (anvilsOnly_afterRead ..).slotPass_eq]
    rfl
  · subst pass
    refine ⟨_, readingOp_afterRead _ met good clear, ?_⟩
    rw [anvil_opSieve_unlisted (d := d) (by rw [anvil_afterRead]; exact current) (by rw [anvil_afterRead]; exact free),
      anvil_afterRead, (anvilsOnly_afterRead ..).sieveProg_eq, (anvilsOnly_afterRead ..).coll_eq, (anvilsOnly_afterRead ..).brickPass_eq]
    rfl
  · refine ⟨_, readingOp_afterRead _ met good clear, ?_⟩
    rw [anvil_opSieve_of_none (by rw [anvil_afterRead]; exact idle), anvil_afterRead]
  · subst read taken
    refine ⟨_, readingOp_afterRead _ met good clear, ?_⟩
    rw [anvil_opSelect (d := d) (by rw [anvil_afterRead]; exact current)
      (by rw [anvil_afterRead, (anvilsOnly_afterRead ..).framePoisoned_eq]; exact clean), anvil_afterRead]
    simp only [selectOffers, (anvilsOnly_afterRead ..).laneOffers_eq]
    rfl
  · exact ⟨_, exec_selclr met, anvil_opSelclr ..⟩
  · obtain ⟨cmds, after⟩ :=
      opEmit_facts (w := w) (fun _ => foldCredit_of_lanes credit) (emitLanes_lanesToEmit credit fresh loud distinct)
    have node : Fin.ofNat 12 p.val = p := Fin.ext (Nat.mod_eq_of_lt p.isLt)
    refine ⟨_, (exec_emit p a s).trans (congrArg _ (runOp_runs met)), ?_⟩
    rw [after, cmds]
    refine ⟨rfl, rfl, rfl, by simp [stepped, emitDone], ?_⟩
    simp only [emitLane, node]
  · have starts : (anvil s p a).emitted = 0 → foldCredit s p a = true := fun fresh => (goes.resolve_right (by omega)).2
    exact ⟨_, (exec_emit p a s).trans (congrArg _ (runOp_emit word (goes.imp And.left id))), opEmit_facts starts sent⟩
  · exact ⟨_, (exec_emit p a s).trans (congrArg _ ((runOp_runs met).trans (opEmit_waits fresh full))), anvil_updAnvil_same ..⟩

end Sys2Proof.Machine

/-! ### Stack temperature, policy conflicts, hot counts and clip windows (R31, R212, R223–R226, R369) -/

namespace Sys2Proof.Machine

/-! #### A sample (R223, R226) -/

theorem validSample_of_range {v : Int} (low : -80 ≤ v) (high : v ≤ 300) : validSample (some v) = some v := by
  simp [validSample, low, high]

theorem validSample_of_invalid {o : Option Int} (invalid : o = none ∨ ∃ v, o = some v ∧ (v < -80 ∨ 300 < v)) : validSample o = none := by
  rcases invalid with rfl | ⟨v, rfl, out⟩
  · rfl
  · simp only [validSample, Option.filter_some, ite_eq_right_iff, Bool.and_eq_true, decide_eq_true_eq]
    omega

/-- The first valid sample after a bad sensor counts alone (R226). -/
theorem sampleStack_after_bad {o : Option Int} {v : Int} {x : StackT} (valid : validSample o = some v) (bad : x.bad = true) :
    sampleStack o x = ({ x with samples := [v], valid := 1, invalidRun := 0, bad := false, filtered := some v }, some v) := by
  have alone : filterSamples 1 [v] = v := max_self v
  simp only [sampleStack, valid, bad, if_true, alone]

/-- A valid sample enters the last five (R223). -/
theorem sampleStack_of_valid {o : Option Int} {v : Int} {x : StackT} (valid : validSample o = some v) (good : x.bad = false) :
    (sampleStack o x).2 = some (filterSamples (x.valid + 1) ((x.samples ++ [v]).drop (x.samples.length - 4))) := by
  simp only [sampleStack, valid, good, Bool.false_eq_true, if_false]

theorem sampleStack_of_invalid {o : Option Int} {x : StackT} (invalid : validSample o = none) :
    sampleStack o x = ({ x with invalidRun := x.invalidRun + 1, bad := decide (x.invalidRun + 1 ≥ 3) },
      if x.invalidRun + 1 ≥ 10 then some 208 else if x.invalidRun + 1 ≥ 3 then some 200 else x.filtered) := by
  simp only [sampleStack, invalid]

/-! #### The throttle step (R224) -/

/-- Above its step's entry or below its exit temperature, the step is the one the temperature enters. -/
theorem nextThrottle_of_change {cur : Nat} {t : Int} (change : cur < riseStep t ∨ (0 < cur ∧ t < exitTemp cur)) :
    nextThrottle cur t = riseStep t := by
  unfold nextThrottle
  split
  · rfl
  · rename_i held
    exact if_pos (change.resolve_left held)

theorem nextThrottle_of_held {cur : Nat} {t : Int} (low : riseStep t ≤ cur) (above : cur = 0 ∨ exitTemp cur ≤ t) :
    nextThrottle cur t = cur := by
  unfold nextThrottle
  rw [if_neg (by omega), if_neg (by omega)]

theorem riseStep_of_fence {t : Int} (hot : 208 ≤ t) : riseStep t = 4 := if_pos hot

theorem riseStep_of_cool {t : Int} (cool : t < 184) : riseStep t = 0 := by
  unfold riseStep
  rw [if_neg (by omega), if_neg (by omega), if_neg (by omega), if_neg (by omega)]

theorem riseStep_le_one {t : Int} (warm : t < 192) : riseStep t ≤ 1 := by
  unfold riseStep
  rw [if_neg (by omega), if_neg (by omega), if_neg (by omega)]
  split <;> omega

theorem riseStep_le_four (t : Int) : riseStep t ≤ 4 := by
  unfold riseStep
  repeat' split
  all_goals omega

/-- At 104 °C every step is left for step 4, or step 4 is held (R224). -/
theorem nextThrottle_of_fence {cur : Nat} {t : Int} (step : cur ≤ 4) (hot : 208 ≤ t) : nextThrottle cur t = 4 := by
  have rises := riseStep_of_fence hot
  rcases step.lt_or_eq with below | rfl
  · rw [nextThrottle_of_change (.inl (by omega)), rises]
  · exact nextThrottle_of_held (by omega) (.inr (show (190 : Int) ≤ t by omega))

/-! #### The state a sample leaves (R224–R226, R253) -/

section Sample

variable {p : Nat} {t : Option Int} {s : State}

/-- The sensor that has become bad is posted (R226). -/
def noteSensor (p : Nat) (t : Option Int) (s : State) : State :=
  if (sampleStack t (ptn s p).temp).1.bad && !(ptn s p).temp.bad then postFault (stackFault 2 p) s else s

@[simp] theorem noteSensor_ptns : (noteSensor p t s).ptns = s.ptns := by
  unfold noteSensor
  split
  · exact postFault_ptns ..
  · rfl

/-- A posted code is the newest of those kept (R349). -/
theorem head_codes_postFault (c : W32) (s : State) : (postFault c s).aon.codes.head? = some c := by rw [postFault_aon]; rfl

theorem head_codes_noteSensor (bad : (sampleStack t (ptn s p).temp).1.bad = true) (was : (ptn s p).temp.bad = false) :
    (noteSensor p t s).aon.codes.head? = some (stackFault 2 p) := by
  rw [noteSensor, if_pos (by simp [bad, was])]
  exact head_codes_postFault ..

/-- The step entered by the temperature v, and what it does to a swap (R224, R253). -/
def enterStep (p : Nat) (t : Option Int) (v : Int) (s : State) : State :=
  updPtn p (fun x => suspendSwap (nextThrottle (ptn s p).temp.step v) v
    { x with temp := { (sampleStack t (ptn s p).temp).1 with step := nextThrottle (ptn s p).temp.step v } }) (noteSensor p t s)

theorem ptn_enterStep (v : Int) :
    ptn (enterStep p t v s) p = suspendSwap (nextThrottle (ptn s p).temp.step v) v
      { ptn s p with temp := { (sampleStack t (ptn s p).temp).1 with step := nextThrottle (ptn s p).temp.step v } } := by
  rw [enterStep, ptn_updPtn_same, ptn_of p noteSensor_ptns]

theorem sampleTemp_of_none (unknown : (sampleStack t (ptn s p).temp).2 = none) :
    sampleTemp p t s = updPtn p (fun x => { x with temp := (sampleStack t (ptn s p).temp).1 }) (noteSensor p t s) := by
  simp only [sampleTemp, unknown]
  rfl

theorem sampleTemp_of_some {v : Int} (known : (sampleStack t (ptn s p).temp).2 = some v) :
    sampleTemp p t s =
      if nextThrottle (ptn s p).temp.step v = 4 ∧ (ptn s p).temp.step ≠ 4 then
        dueFence p { code := stackFault 1 p, thermal := true } (postFault (stackFault 1 p) (enterStep p t v s))
      else if (ptn s p).temp.step = 4 ∧ nextThrottle (ptn s p).temp.step v ≠ 4 then leaveHold p (enterStep p t v s)
      else enterStep p t v s := by
  simp only [sampleTemp, known]
  rfl

/-- Leaving step 4 starts the exit of a partition that its thermal fence holds in BANKED, and nothing else of it (R225). -/
theorem ptn_leaveHold (p : Nat) (s : State) :
    ptn (leaveHold p s) p = { ptn s p with
      exiting := if (ptn s p).power = .banked ∧ (ptn s p).fence.any (fun f => f.thermal && f.step == 6) = true then some .banked
        else (ptn s p).exiting } := by
  rw [leaveHold, ptn_updPtn_same]
  generalize ptn s p = x
  cases held : x.fence with
  | none => simp
  | some f =>
    dsimp only
    by_cases thermal : f.thermal ∧ f.step = 6 ∧ x.power = .banked
    · simp [thermal, held]
    · rw [if_neg thermal, if_neg (by simp; tauto)]

/-- The fence after a join depends on the fence that ran (R225, R359). -/
theorem fence_joinFence_congr {x y : Ptn} (f : FenceRec) (same : x.fence = y.fence) : (joinFence f x).fence = (joinFence f y).fence := by
  unfold joinFence
  rw [same]
  split
  · split <;> rfl
  · rfl

theorem fence_joinFence_of_none {x : Ptn} (f : FenceRec) (none : x.fence = none) : (joinFence f x).fence = some f := by
  simp only [joinFence, none]

theorem temp_joinFence (f : FenceRec) (x : Ptn) : (joinFence f x).temp = x.temp := by
  unfold joinFence
  split
  · split <;> rfl
  · rfl

/-- The thermal code names no channel (R352). -/
theorem channelFault_stackFault (p : Fin 12) : channelFault (stackFault 1 p) = [] := by
  revert p
  decide

end Sample

/-! #### Clip windows (R31) -/

theorem judgeWindow_of_nil {p c : Nat} {s : State} (none : (collPtn (coll s c) p).closedWins = []) : judgeWindow p c s = s := by
  simp only [judgeWindow, none]

/-- The window judged leaves the closed ones (R31). -/
def dropWindow (p c : Nat) (rest : List (Nat × Nat)) (s : State) : State := updCollPtn c p (fun w => { w with closedWins := rest }) s

theorem judgeWindow_of_cons {p c n cmd : Nat} {l : List (Nat × Nat)} {s : State} (closed : (collPtn (coll s c) p).closedWins = (n, cmd) :: l) :
    judgeWindow p c s = if n * 2 ^ (coll s c).tau > 2 ^ 20
      then updCmd cmd (fun x => { x with sat := true }) (raise .satDrift 1 c 0 (dropWindow p c l s)) else dropWindow p c l s := by
  have tau : (coll (dropWindow p c l s) c).tau = (coll s c).tau := by simp [dropWindow, updCollPtn]
  simp only [judgeWindow, closed, ← tau]
  rfl

theorem closedWins_dropWindow (p c : Nat) (l : List (Nat × Nat)) (s : State) : (collPtn (coll (dropWindow p c l s) c) p).closedWins = l := by
  simp [dropWindow, updCollPtn, collPtn]

/-! #### The rows -/

theorem exec_stackTempSample {p : Fin 12} {s : State} (t : Option Int) (powered : (ptn s p).power ≠ .cold) :
    exec (.stackTempSample p t) s = .next (sampleTemp p t s) := onlyIf_true _ _ (bne_iff_ne.mpr powered)

theorem exec_clipWindowClose (p : Fin 12) (c : Nat) (s : State) : exec (.clipWindowClose p c) s = .next (judgeWindow p c s) := rfl

/-- Settles O32: the sample gives a temperature, the temperature a step, and the step's change what it starts. -/
theorem temperatureAndCounts : Obligations.TemperatureAndCounts := by
  refine ⟨fun p t s powered unknown => ?_, fun p t v s powered known same => ?_, fun p t v s powered known enters was => ?_,
    fun v x o sample low high bad => ?_, fun v x o sample low high good many => ?_, fun v x o sample low high good few => ?_,
    fun x o invalid => ?_, fun cur t step => ?_, fun p l m s may => ?_, fun p s due => ?_, fun p c n cmd l s closed => ?_,
    fun p c s none => ?_⟩
  · refine ⟨_, exec_stackTempSample t powered, ?_⟩
    rw [sampleTemp_of_none unknown, ptn_updPtn_same]
  · have entered := ptn_enterStep (p := p) (t := t) (s := s) v
    refine ⟨_, exec_stackTempSample t powered, ?_⟩
    rw [sampleTemp_of_some known, if_neg fun enters => enters.2 (same enters.1)]
    split
    · rename_i leaves
      rw [ptn_leaveHold, entered]
      exact ⟨rfl, fun bad => head_codes_noteSensor bad.1 bad.2, rfl,
        if_congr ((and_iff_right leaves.1).trans (and_iff_right leaves.2)).symm rfl rfl⟩
    · rename_i stays
      rw [entered]
      exact ⟨rfl, fun bad => head_codes_noteSensor bad.1 bad.2, rfl, (if_neg fun leaves => stays ⟨leaves.1, leaves.2.1⟩).symm⟩
  · have entered := ptn_enterStep (p := p) (t := t) (s := s) v
    have code : ({ code := stackFault 1 p, thermal := true, faulty := channelFault (stackFault 1 p) } : FenceRec) =
        { code := stackFault 1 p, thermal := true } := by rw [channelFault_stackFault]
    have before : (ptn (enterStep p t v s) p).fence = (ptn s p).fence := by rw [entered]; rfl
    have fence := fence_joinFence_congr { code := stackFault 1 p, thermal := true } before
    refine ⟨_, exec_stackTempSample t powered, ?_⟩
    rw [sampleTemp_of_some known, if_pos ⟨enters, was⟩, dueFence, ptn_updPtn_same, code, ptn_of _ (postFault_ptns ..)]
    refine ⟨?_, head_codes_postFault .., fence, fun none => fence.trans (fence_joinFence_of_none _ none)⟩
    rw [temp_joinFence, entered]
    exact enters
  · subst sample
    exact sampleStack_after_bad (validSample_of_range low high) bad
  · subst sample
    rw [sampleStack_of_valid (validSample_of_range low high) good, filterSamples, if_pos many]
    rfl
  · subst sample
    rw [sampleStack_of_valid (validSample_of_range low high) good, filterSamples, if_neg (Nat.not_le.mpr few)]
  · rw [sampleStack_of_invalid (validSample_of_invalid invalid)]
    exact ⟨rfl, rfl⟩
  · refine ⟨nextThrottle_of_fence step, ?_, ?_, ?_, ?_⟩
    · rintro rfl cool
      exact nextThrottle_of_held (riseStep_of_cool cool).le (.inl rfl)
    · rintro rfl above below
      exact nextThrottle_of_held (riseStep_le_one below) (.inr above)
    · rintro rfl above
      exact nextThrottle_of_held (riseStep_le_four t) (.inr above)
    · rintro rfl cool
      rw [nextThrottle_of_change (.inr ⟨by decide, show t < 190 by omega⟩), riseStep_of_cool cool]
  · refine ⟨_, onlyIf_true _ _ may, raise_pending_bit .policyConflict .., ?_⟩
    rw [raiseConflict, ptn_of _ (raise_ptns ..), ptn_updPtn_same]
  · refine ⟨_, onlyIf_true _ _ (decide_eq_true due), ?_⟩
    rw [ptn_updPtn_same]
    exact ⟨rfl, rfl⟩
  · refine ⟨_, exec_clipWindowClose p c s, ?_⟩
    rw [judgeWindow_of_cons closed]
    split
    · rename_i clipped
      refine ⟨?_, fun _ => ⟨?_, ?_⟩, fun under => absurd clipped (not_lt.mpr under)⟩
      · rw [coll_of c (updCmd_colls ..), coll_of c (raise_colls ..), closedWins_dropWindow]
      · rw [updCmd_host]
        exact raise_pending_bit .satDrift ..
      · rw [cmd_updCmd_same, cmd_of cmd (raise_cmds ..)]
        rfl
    · rename_i under
      exact ⟨closedWins_dropWindow .., fun clipped => absurd clipped under, fun _ => ⟨rfl, rfl⟩⟩
  · rw [exec_clipWindowClose, judgeWindow_of_nil none]

end Sys2Proof.Machine

/-! ### Completions (R272, R285, R289, R297, R301, R333): what is posted, in which order, and what is freed -/

namespace Sys2Proof.Machine

/-! #### What posts nothing -/

/-- The host's side without its amounts, granules and CXL.cache writes: rings, vectors, link and the posted writes. -/
def postSide (s : State) : HostIf := { s.host with pools := [], granules := [], cache := [] }

theorem postSide_of {s t : State} (h : t.host = s.host) : postSide t = postSide s := by rw [postSide, h, postSide]

section PostSide

variable {s t : State} (h : postSide t = postSide s)
include h

theorem postedWrites_of_postSide : postedWrites t = postedWrites s :=
  (congrArg (fun k : HostIf => k.writes ++ k.posting) h :)

theorem link_of_postSide : t.host.link = s.host.link := (congrArg HostIf.link h :)

end PostSide

@[simp] theorem postSide_updCmd (c : Nat) (f : Cmd → Cmd) (s : State) : postSide (updCmd c f s) = postSide s := postSide_of (updCmd_host ..)

@[simp] theorem postSide_updCtx (c : Nat) (f : Ctx → Ctx) (s : State) : postSide (updCtx c f s) = postSide s := postSide_of (updCtx_host ..)

@[simp] theorem postSide_journalWrite (j : Journal) (off : Nat) (bs : List Byte) (s : State) : postSide (journalWrite j off bs s) = postSide s := by
  unfold journalWrite
  split <;> rfl

theorem postSide_foldl {α : Type} {g : State → α → State} (each : ∀ s x, postSide (g s x) = postSide s) (l : List α) (s : State) :
    postSide (l.foldl g s) = postSide s := by
  induction l generalizing s with
  | nil => rfl
  | cons x l ih => exact (ih _).trans (each s x)

@[simp] theorem postSide_writeRecord (ctx c : Nat) (record : Nat → List Byte) (s : State) :
    postSide (writeRecord ctx c record s) = postSide s := by
  unfold writeRecord
  split
  · rw [updJournal, postSide_updCtx, postSide_updCtx]
    exact postSide_foldl (fun s r => postSide_journalWrite ..) _ s
  · rfl

@[simp] theorem postSide_endFlush (c : Nat) (x : Cmd) (s : State) : postSide (endFlush c x s) = postSide s := by
  unfold endFlush
  split
  · exact postSide_updCmd ..
  · split
    · exact postSide_updCmd ..
    · rw [postSide_updCmd, postSide_writeRecord, updJournal, postSide_updCtx]

theorem postSide_settleOne (c : Nat) (s : State) : postSide (settleOne c s) = postSide s := by
  unfold settleOne
  repeat' split
  all_goals simp

/-- What waited for a completion goes on without a posted write (R178, R179, R276). -/
@[simp] theorem postSide_settleWaiters (s : State) : postSide (settleWaiters s) = postSide s :=
  (postSide_of rfl).trans (postSide_foldl (fun s c => postSide_settleOne c s) _ s)

@[simp] theorem postSide_freePools (hs : List Hold) (s : State) : postSide (freePools hs s) = postSide s :=
  postSide_foldl (g := fun s h => freePool h s) (fun _ _ => rfl) hs s

@[simp] theorem postSide_freeGranules (g : Option Granules) (s : State) : postSide (freeGranules g s) = postSide s := by
  unfold freeGranules
  split <;> rfl

@[simp] theorem postSide_delCmd (c : Nat) (s : State) : postSide (delCmd c s) = postSide s := rfl

/-- What a command held is freed without a posted write (R297). -/
@[simp] theorem postSide_release (c : Nat) (x : Cmd) (s : State) : postSide (release c x s) = postSide s := by
  unfold release
  dsimp only
  repeat' split
  all_goals simp

/-! #### Posted writes (R289, R301) -/

theorem enterWrite_host (w : HostWrite) (s : State) :
    (enterWrite w s).host = { s.host with writes := s.host.writes ++ [w], pools := (enterWrite w s).host.pools } := by
  unfold enterWrite
  dsimp only
  split <;> rfl

theorem enterWrite_pools_of_result {w : HostWrite} {c n : Nat} (s : State) (result : w.kind = .result c n) :
    (enterWrite w s).host.pools = (freePool { pool := .resultBuf, amount := n } s).host.pools := by
  simp only [enterWrite, result]
  rfl

theorem enterWrite_pools_of_other {w : HostWrite} (s : State) (other : ∀ c n, w.kind ≠ .result c n) :
    (enterWrite w s).host.pools = s.host.pools := by
  unfold enterWrite
  dsimp only
  split
  · exact absurd ‹_› (other _ _)
  · rfl

section PostWrite

variable {s : State} (w : HostWrite) (up : s.host.link.up = true) (awake : s.host.link.d3hot = false)
include up awake

theorem postWrite_of_room (room : roomFor s w = true) : postWrite w s = enterWrite w s := by simp [postWrite, up, awake, room]

theorem postWrite_of_full (full : roomFor s w = false) :
    postWrite w s = updHost (fun h => { h with posting := h.posting ++ [w] }) s := by simp [postWrite, up, awake, full]

/-- In the queue or behind it, a posted write is the latest (R289, R301). -/
theorem postedWrites_postWrite : postedWrites (postWrite w s) = postedWrites s ++ [w] := by
  cases room : roomFor s w with
  | true =>
    have idle : s.host.posting = [] := by
      simp only [roomFor, Bool.and_eq_true, List.isEmpty_iff] at room
      exact room.1
    rw [postWrite_of_room w up awake room, postedWrites, enterWrite_host, postedWrites]
    simp [idle]
  | false =>
    rw [postWrite_of_full w up awake room]
    simp [postedWrites]

end PostWrite

/-- A write that waited enters the queue; the posted writes stay in order (R297, R299). -/
theorem refillQueue_facts (n : Nat) (s : State) :
    postedWrites (refillQueue n s) = postedWrites s ∧ (refillQueue n s).host.link = s.host.link := by
  induction n generalizing s with
  | zero => exact ⟨rfl, rfl⟩
  | succ n ih =>
    unfold refillQueue
    split
    · rename_i w rest waits
      split
      · have entered : ∀ u : State, postSide (letIn w u) = postSide (enterWrite w u) := fun u => by
          unfold letIn
          dsimp only
          repeat' split
          all_goals simp
        obtain ⟨writes, link⟩ := ih (letIn w (updHost (fun h => { h with posting := rest }) s))
        rw [writes, link, postedWrites_of_postSide (entered _), link_of_postSide (entered _), postedWrites, enterWrite_host]
        simp [postedWrites, waits]
      · exact ⟨rfl, rfl⟩
    · exact ⟨rfl, rfl⟩

theorem acceptWrite_of_cons {s : State} {w : HostWrite} {rest : List HostWrite} (queued : s.host.writes = w :: rest) :
    acceptWrite s = refillQueue s.host.posting.length
      (updHost (fun h => { h with writes := rest }) (updLink (fun l => { l with aspm := .l0 }) s)) := by
  simp only [acceptWrite, updLink, updHost_host, queued]

theorem acceptWrite_of_nil {s : State} (drained : s.host.writes = []) :
    acceptWrite s = updHost (fun h => { h with cache := h.cache.drop 1 }) (updLink (fun l => { l with aspm := .l0 }) s) := by
  simp only [acceptWrite, updLink, updHost_host, drained]

theorem exec_hostWriteAccept {s : State} (posts : linkPosts s = true) : exec .hostWriteAccept s = .next (acceptWrite s) :=
  onlyIf_true _ _ posts

/-! #### Messages of a ring (R285) -/

/-- From s to t the posted writes ws are made; nothing but the host's side changes, and there neither rings, vectors nor link. -/
structure Queued (s t : State) (ws : List HostWrite) : Prop where
  keeps : Keeps [.host] s t
  rings : t.host.rings = s.host.rings
  vecs : t.host.vecs = s.host.vecs
  link : t.host.link = s.host.link
  writes : postedWrites t = postedWrites s ++ ws

theorem Queued.refl (s : State) : Queued s s [] := ⟨Keeps.refl _ s, rfl, rfl, rfl, (List.append_nil _).symm⟩

/-- A ring's counts restart with its message (R285). -/
def restartCounts (r : Nat) (s : State) : State := updRing r (fun x => { x with sinceMsg := 0, ctimeOn := false }) s

theorem sendRingVec_eq (r : Nat) (s : State) : sendRingVec r s = sendVec (ring s r).vector (restartCounts r s) := rfl

theorem sendRingVec_of_masked {r : Nat} {s : State} (masked : (vec s (ring s r).vector).masked = true) :
    sendRingVec r s = updVec (ring s r).vector (fun x => { x with pba := true }) (restartCounts r s) :=
  sendVec_of_masked (s := restartCounts r s) masked

theorem sendRingVec_of_unmasked {r : Nat} {s : State} (unmasked : (vec s (ring s r).vector).masked = false) :
    sendRingVec r s = postWrite (vecMessage s (ring s r).vector) (restartCounts r s) :=
  sendVec_of_unmasked (s := restartCounts r s) unmasked

section Serving

variable {s : State} (up : s.host.link.up = true) (awake : s.host.link.d3hot = false)
include up awake

theorem queued_postWrite (w : HostWrite) : Queued s (postWrite w s) [w] :=
  ⟨k_postWrite (within_self _) w (Keeps.refl _ s), postWrite_host_rings .., postWrite_host_vecs .., postWrite_host_link ..,
    postedWrites_postWrite w up awake⟩

/-- Writes posted one after another keep their order (R289). -/
theorem queued_foldl {α : Type} (g : α → HostWrite) (l : List α) : Queued s (l.foldl (fun s a => postWrite (g a) s) s) (l.map g) := by
  induction l generalizing s with
  | nil => exact Queued.refl s
  | cons a l ih =>
    have first := queued_postWrite up awake (g a)
    have rest := ih (s := postWrite (g a) s) (by rw [first.link]; exact up) (by rw [first.link]; exact awake)
    refine ⟨k_foldl (Keeps.refl _ s) fun _ _ k => k_postWrite (within_self _) _ k,
      rest.rings.trans first.rings, rest.vecs.trans first.vecs, rest.link.trans first.link, ?_⟩
    rw [List.foldl_cons, rest.writes, first.writes, List.map_cons, List.append_assoc, List.singleton_append]

/-- The message of a ring's unmasked vector is posted; a masked one posts nothing (R285). -/
theorem postedWrites_sendRingVec (r : Nat) :
    postedWrites (sendRingVec r s) = postedWrites s ++ if (vec s (ring s r).vector).masked then [] else [vecMessage s (ring s r).vector] := by
  cases masked : (vec s (ring s r).vector).masked with
  | true =>
    rw [sendRingVec_of_masked masked, if_pos rfl, List.append_nil]
    rfl
  | false =>
    rw [sendRingVec_of_unmasked masked, postedWrites_postWrite _ (s := restartCounts r s) up awake]
    rfl

end Serving

theorem ring_of_rings {s t : State} (r : Nat) (h : t.host.rings = s.host.rings) : ring t r = ring s r := by unfold ring; rw [h]

theorem vec_of_vecs {s t : State} (v : Nat) (h : t.host.vecs = s.host.vecs) : vec t v = vec s v := by unfold vec; rw [h]

theorem ring_sendRingVec (r : Nat) (s : State) : ring (sendRingVec r s) r = { ring s r with sinceMsg := 0, ctimeOn := false } :=
  (ring_of_rings r (sendVec_host_rings ..)).trans (ring_updRing_same ..)

/-- Sending a ring's vector changes the host's side only. -/
theorem sendRingVec_frame (r : Nat) (s : State) : { sendRingVec r s with host := s.host } = s :=
  congrArg (fun u : State => { u with host := s.host }) (sendVec_frame (ring s r).vector (restartCounts r s))

/-! #### The completion entry (R272, R285, R289) -/

/-- The entry at the completion tail (R272). -/
def completionEntry (r : Nat) (c : Option Nat) (bytes : Bool → List Byte) (s : State) : HostWrite :=
  { kind := .completion r c, addr := (ring s r).cqBase + BitVec.ofNat 64 (32 * (ring s r).cqTail), bytes := bytes (ring s r).phase }

/-- The ring once its entry is posted: the tail moves on, the phase turns at the wrap (R272). -/
def pastEntry (x : Ring) : Ring :=
  { x with
    cqTail := if x.cqTail + 1 = x.size then 0 else x.cqTail + 1, phase := if x.cqTail + 1 = x.size then !x.phase else x.phase
    reserved := x.reserved - 1, sinceMsg := x.sinceMsg + 1, ctimeOn := x.ctime != 0 }

/-- The entry posted and the ring moved past it. -/
def postEntry (r : Nat) (c : Option Nat) (bytes : Bool → List Byte) (s : State) : State :=
  setRing r (pastEntry (ring s r)) (postWrite (completionEntry r c bytes s) s)

theorem writeCompletion_eq (r : Nat) (c : Option Nat) (intr : Bool) (bytes : Bool → List Byte) (s : State) :
    writeCompletion r c intr bytes s =
      if (intr || ((ring s r).ccount != 0 && (ring s r).sinceMsg + 1 ≥ (ring s r).ccount)) then sendRingVec r (postEntry r c bytes s)
      else postEntry r c bytes s := by
  simp only [writeCompletion, postEntry, pastEntry, completionEntry, beq_iff_eq]

theorem writeCompletion_facts {s : State} (r : Nat) (c : Option Nat) (intr : Bool) (bytes : Bool → List Byte)
    (up : s.host.link.up = true) (awake : s.host.link.d3hot = false) :
    ∃ rest, postedWrites (writeCompletion r c intr bytes s) = postedWrites s ++ completionEntry r c bytes s :: rest ∧
      (ring (writeCompletion r c intr bytes s) r).cqTail = (pastEntry (ring s r)).cqTail ∧
      (ring (writeCompletion r c intr bytes s) r).phase = (pastEntry (ring s r)).phase ∧
      ((intr = true ∨ (ring s r).ccount ≠ 0 ∧ (ring s r).ccount ≤ (ring s r).sinceMsg + 1) →
        (vec s (ring s r).vector).masked = false → rest = [vecMessage s (ring s r).vector]) := by
  have entry := queued_postWrite up awake (completionEntry r c bytes s)
  have link : (postEntry r c bytes s).host.link = s.host.link := entry.link
  have vecs : ∀ v, vec (postEntry r c bytes s) v = vec s v := fun v => vec_of_vecs v entry.vecs
  have posted : postedWrites (postEntry r c bytes s) = postedWrites s ++ [completionEntry r c bytes s] := entry.writes
  have moved : ring (postEntry r c bytes s) r = pastEntry (ring s r) := ring_setRing_same ..
  rw [writeCompletion_eq]
  split
  · have sent := postedWrites_sendRingVec (s := postEntry r c bytes s) (by rw [link]; exact up) (by rw [link]; exact awake) r
    rw [posted, moved] at sent
    rw [ring_sendRingVec, moved]
    refine ⟨_, sent.trans (List.append_assoc ..), rfl, rfl, fun _ unmasked => ?_⟩
    have same : vec (postEntry r c bytes s) (pastEntry (ring s r)).vector = vec s (ring s r).vector := vecs _
    rw [vecMessage, same, if_neg (by simp [unmasked])]
    rfl
  · rename_i quiet
    rw [moved]
    exact ⟨[], posted, rfl, rfl, fun due => absurd due (by simpa using quiet)⟩

/-! #### The completion of a ring command (R158, R160, R256, R278, R289) -/

/-- The result entries of a row, with the row's place (R158, R160). -/
def resultWrite (c : Nat) (x : Cmd) (s : State) (r : QRow × Nat) : HostWrite :=
  { kind := .result c (sK x.entry), addr := BitVec.ofNat 64 (sResult x.entry + 16 * sK x.entry * r.2)
    bytes := rowBytes (coll s x.coll).metric (x.opcode == 0x11) (sK x.entry) r.1 }

/-- The writes that stand before the completion: the rows of an OK search (R160, R289). -/
def resultWrites (c : Nat) (x : Cmd) (s : State) : List HostWrite :=
  if isSearch x.opcode ∧ x.status = .ok then x.rows.zipIdx.map (resultWrite c x s) else []

def postResults (c : Nat) (x : Cmd) (s : State) : State := if isSearch x.opcode ∧ x.status = .ok then writeResults c x s else s

theorem queued_postResults {s : State} (c : Nat) (x : Cmd) (up : s.host.link.up = true) (awake : s.host.link.d3hot = false) :
    Queued s (postResults c x s) (resultWrites c x s) := by
  unfold postResults resultWrites
  split
  · exact queued_foldl up awake (resultWrite c x s) x.rows.zipIdx
  · exact Queued.refl s

/-- The slow-down of the command's context with the command itself measured (R256, R257). -/
def slowAfter (s : State) (x : Cmd) (solo : Nat) : Option Nat :=
  (ctx? s x.ctx).bind fun k =>
    slowDown (if x.admitted then ((serviceTime s x, max 1 solo) :: k.measured).take 1000 else k.measured)

theorem slow_account (s : State) (x : Cmd) (solo : Nat) :
    ((ctx? (account x solo s) x.ctx).bind fun k => slowDown k.measured) = slowAfter s x solo := by
  rw [account, ctx_updCtx_same, Option.bind_map]
  rfl

theorem slowAfter_congr {s t : State} (x : Cmd) (solo : Nat) (ctxs : t.ctxs = s.ctxs) (ptns : t.ptns = s.ptns) :
    slowAfter t x solo = slowAfter s x solo := by
  simp only [slowAfter, serviceTime, ctx_of _ ctxs, ptn_of _ ptns]

/-- The bytes of the completion entry, by the phase (R278). -/
def entryOf (x : Cmd) (slow : Option Nat) (s : State) (phase : Bool) : List Byte :=
  completionBytes x.tag x.status phase (flagField x slow) (countField s x) (epochField s x) (x.anvilCyc / 1800) (slow.getD 0) x.fault
    (ring s x.ring).sqHead

theorem entryOf_congr {s t : State} (x : Cmd) (slow : Option Nat) (phase : Bool) (colls : t.colls = s.colls) (free : t.free = s.free)
    (rings : t.host.rings = s.host.rings) : entryOf x slow t phase = entryOf x slow s phase := by
  simp only [entryOf, countField, epochField, coll_of _ colls, free, ring_of_rings _ rings]

/-- The completion entry of a command over the state with its results posted and its context's counters taken. -/
def postCompletion (c : Nat) (x : Cmd) (solo : Nat) (s : State) : State :=
  let v := account x solo (postResults c x s)
  writeCompletion x.ring (some c) (eIntr x.entry) (entryOf x (slowAfter (postResults c x s) x solo) v) v

/-- NaNs that a command withheld raise NAN_DROP (R148). -/
def noteNans (x : Cmd) (s : State) : State := if x.nan > 0 then raise .nanDrop 5 x.ctx 0 s else s

theorem completeOnRing_eq (c : Nat) (x : Cmd) (solo : Nat) (s : State) :
    completeOnRing c x solo s = settleWaiters (releaseWritten c x (noteNans x (spend 1 (postCompletion c x solo s)))) := by
  rw [postCompletion, ← slow_account]
  rfl

theorem posts_noteNans (x : Cmd) (s : State) : Posts s (noteNans x s) := by
  unfold noteNans
  split
  · exact posts_raise ..
  · exact Posts.refl s

theorem posts_releaseWritten (c : Nat) (x : Cmd) (s : State) : Posts s (releaseWritten c x s) := by
  unfold releaseWritten
  split
  · exact posts_updCmd ..
  · exact posts_release ..

/-- After its completion entry a command posts nothing before it. -/
theorem posts_completeOnRing (c : Nat) (x : Cmd) (solo : Nat) (s : State) : Posts (postCompletion c x solo s) (completeOnRing c x solo s) := by
  rw [completeOnRing_eq]
  have spent : Posts (postCompletion c x solo s) (spend 1 (postCompletion c x solo s)) := Posts.of_host rfl
  exact ((spent.trans (posts_noteNans x _)).trans (posts_releaseWritten c x _)).trans (posts_settleWaiters _)

/-- Result entries, then the completion, then the ring's message where INTR or CCOUNT calls for it; what is freed afterwards posts nothing
before them (R289). -/
theorem completeOnRing_facts {s : State} (c : Nat) (x : Cmd) (solo : Nat) (up : s.host.link.up = true) (awake : s.host.link.d3hot = false) :
    ∃ rest, postedWrites (completeOnRing c x solo s) = postedWrites s ++ resultWrites c x s ++
        completionEntry x.ring (some c) (entryOf x (slowAfter s x solo) s) s :: rest ∧
      (ring (completeOnRing c x solo s) x.ring).cqTail = (pastEntry (ring s x.ring)).cqTail ∧
      (ring (completeOnRing c x solo s) x.ring).phase = (pastEntry (ring s x.ring)).phase ∧
      ((eIntr x.entry = true ∨ (ring s x.ring).ccount ≠ 0 ∧ (ring s x.ring).ccount ≤ (ring s x.ring).sinceMsg + 1) →
        (vec s (ring s x.ring).vector).masked = false → rest.head? = some (vecMessage s (ring s x.ring).vector)) := by
  have results := queued_postResults c x up awake
  have posts := posts_completeOnRing c x solo s
  simp only [postCompletion, slowAfter_congr x solo results.keeps.same_ctxs results.keeps.same_ptns] at posts
  generalize hv : account x solo (postResults c x s) = v at posts
  have host : v.host = (postResults c x s).host := by rw [← hv]; exact updCtx_host ..
  have colls : v.colls = s.colls := by rw [← hv]; exact (updCtx_colls ..).trans results.keeps.same_colls
  have free : v.free = s.free := by rw [← hv]; exact (updCtx_free ..).trans results.keeps.same_free
  have rings : v.host.rings = s.host.rings := by rw [host]; exact results.rings
  have vecs : v.host.vecs = s.host.vecs := by rw [host]; exact results.vecs
  have link : v.host.link = s.host.link := by rw [host]; exact results.link
  have writes : postedWrites v = postedWrites s ++ resultWrites c x s := by rw [← results.writes, postedWrites, host, postedWrites]
  have entry : completionEntry x.ring (some c) (entryOf x (slowAfter s x solo) v) v =
      completionEntry x.ring (some c) (entryOf x (slowAfter s x solo) s) s := by
    simp only [completionEntry, ring_of_rings _ rings, entryOf_congr x _ _ colls free rings]
  obtain ⟨rest, posted, tail, phase, message⟩ := writeCompletion_facts (s := v) x.ring (some c) (eIntr x.entry)
    (entryOf x (slowAfter s x solo) v) (by rw [link]; exact up) (by rw [link]; exact awake)
  rw [entry, writes] at posted
  rw [ring_of_rings _ rings] at tail phase message
  rw [vec_of_vecs _ vecs, vecMessage, vec_of_vecs _ vecs] at message
  obtain ⟨more, later⟩ := posts.writes
  refine ⟨rest ++ more, ?_, ?_, ?_, fun due unmasked => ?_⟩
  · rw [← later, posted, List.append_assoc, List.cons_append]
  · rw [ring_of_rings _ posts.rings, tail]
  · rw [ring_of_rings _ posts.rings, phase]
  · rw [message due unmasked]
    rfl

/-! #### The other ends of a command (R333, R340, R341) -/

/-- A command without granules whose context keeps no journal leaves no record (R186, R282). -/
theorem release_of_gone {c : Nat} {x : Cmd} {s : State} (bare : x.granules = none) (unkept : (journal? s x.ctx).isNone = true) :
    cmd? (release c x s) c = none := by
  have gone : ∀ u : State, u.ctxs = s.ctxs → lingers u c x = false := fun u same => by
    have none : journal? u x.ctx = none := by rw [journal?, ctx_of _ same]; exact Option.isNone_iff_eq_none.mp unkept
    simp [lingers, bare, none]
  have freed : ∀ hs, (freePools hs s).ctxs = s.ctxs := fun hs => (k_freePools (within_self _) hs (Keeps.refl _ s)).same_ctxs
  simp only [release, bare, Option.isSome_none, Bool.false_and, Bool.false_eq_true, if_false, freeGranules]
  rw [if_neg (by rw [gone _ (freed _)]; exact Bool.false_ne_true)]
  exact cmd_delCmd_same ..

/-- What a module other than the root answers with: its list, or the failure of its part (R333, R340). -/
def answerRoot (c root : Nat) (x : Cmd) (s : State) : State :=
  if isSearch x.opcode then sendMsg (partialMsg s x c root) s
  else if x.status = .ok then s else sendMsg (insertRsp s x c root x.status x.epoch x.count) s

theorem answerRoot_ctxs (c root : Nat) (x : Cmd) (s : State) : (answerRoot c root x s).ctxs = s.ctxs := by
  have sent : ∀ m, (sendMsg m s).ctxs = s.ctxs := fun m => (k_sendMsg (within_self _) m (Keeps.refl _ s)).same_ctxs
  unfold answerRoot
  split
  · exact sent _
  · split
    · rfl
    · exact sent _

section Ends

variable {c solo : Nat} {x : Cmd} {s : State}

theorem exec_completionWrite {u : State} (judged : judgeFor c s = u) : exec (.completionWrite c solo) s = .next (writeOut c solo u) := by
  rw [← judged]
  rfl

section Final

variable (found : cmd? s c = some x) (final : x.stage = .final) (fresh : x.written = false)
include found final fresh

theorem writeOut_to_root {root n : Nat} (away : x.origin = some (root, n)) : writeOut c solo s = release c x (answerRoot c root x s) := by
  simp only [writeOut, found, final, fresh, away]
  rfl

theorem writeOut_silent (own : x.origin = none) (lost : x.silent = true) : writeOut c solo s = settleWaiters (release c x s) := by
  simp [writeOut, found, final, fresh, own, lost]

theorem writeOut_on_ring (own : x.origin = none) (heard : x.silent = false) (serves : linkServes s = true) :
    writeOut c solo s = completeOnRing c x solo s := by
  simp [writeOut, found, final, fresh, own, heard, serves]

end Final

theorem writeOut_waits (found : cmd? s c = some x)
    (waits : x.stage ≠ .final ∨ x.written = true ∨ (x.origin = none ∧ x.silent = false ∧ linkServes s = false)) : writeOut c solo s = s := by
  simp only [writeOut, found]
  split
  · rfl
  · rename_i ends
    obtain ⟨own, heard, down⟩ := (waits.resolve_left fun h => ends (.inl h)).resolve_left fun h => ends (.inr h)
    simp [own, heard, down]

end Ends

theorem judgeFor_of_other {s : State} {c : Nat} {x : Cmd} (found : cmd? s c = some x) (other : isIngest x.opcode = false ∨ x.stage ≠ .final) :
    judgeFor c s = s := by
  simp only [judgeFor, found]
  exact if_neg fun both => other.elim (by simp [both.1]) (absurd both.2)

theorem exec_ctimeExpiry {s : State} {r : Fin 1024} (runs : (ring s r).ctimeOn = true) :
    exec (.ctimeExpiry r) s = .next (sendRingVec r s) := onlyIf_true _ _ runs

/-- Settles O12: what is posted before, in and after the completion entry, and what the host's acceptance lets in. -/
theorem completions : Obligations.Completions := by
  refine ⟨fun s u c solo x judged found final fresh own heard serves => ?_, fun s c x found other => judgeFor_of_other found other,
    fun s u c solo root n x judged found final fresh away bare unkept => ?_,
    fun s u c solo x judged found final fresh own lost => ?_, fun s u c solo x judged found waits => ?_,
    fun s r runs unmasked up awake => ?_, fun s r runs masked => ?_, fun s w up awake => ?_, fun s w rest posts queued => ?_,
    fun s posts drained => ?_⟩
  · obtain ⟨⟨up, -⟩, awake⟩ : (u.host.link.up = true ∧ u.host.link.deg = false) ∧ u.host.link.d3hot = false := by
      simpa [linkServes] using serves
    obtain ⟨rest, posted, tail, phase, message⟩ := completeOnRing_facts c x solo up awake
    rw [exec_completionWrite judged, writeOut_on_ring found final fresh own heard serves]
    refine ⟨_, resultWrites c x u, _, rest, rfl, posted, ?_, rfl, tail, phase, message⟩
    unfold resultWrites
    split
    · simp [resultWrite]
    · rfl
  · rw [exec_completionWrite judged, writeOut_to_root found final fresh away]
    refine ⟨_, rfl, release_of_gone bare (by rw [journal?, ctx_of _ (answerRoot_ctxs ..)]; exact unkept),
      postedWrites_of_postSide (postSide_release ..), (k_release (within_self _) c x (Keeps.refl _ _)).same_icern⟩
  · rw [exec_completionWrite judged, writeOut_silent found final fresh own lost]
  · rw [exec_completionWrite judged, writeOut_waits found waits]
  · refine ⟨_, exec_ctimeExpiry runs, ring_sendRingVec .., ?_, sendRingVec_frame ..⟩
    rw [postedWrites_sendRingVec up awake, if_neg (by simp [unmasked])]
    rfl
  · refine ⟨_, exec_ctimeExpiry runs, ring_sendRingVec .., ?_, ?_, sendRingVec_frame ..⟩
    · rw [sendRingVec_of_masked masked]
      exact vec_updVec_same ..
    · rw [sendRingVec_of_masked masked]
      rfl
  · refine ⟨postedWrites_postWrite w up awake, ?_, fun c n result room => ?_, fun other => ?_⟩
    · split
      · rename_i room
        rw [postWrite_of_room w up awake room, enterWrite_host]
      · rename_i full
        rw [postWrite_of_full w up awake (Bool.not_eq_true _ ▸ full)]
        rfl
    · rw [postWrite_of_room w up awake room, enterWrite_pools_of_result s result]
    · cases room : roomFor s w with
      | true =>
        rw [postWrite_of_room w up awake room]
        exact enterWrite_pools_of_other s (other.resolve_right (by simp [room]))
      | false =>
        rw [postWrite_of_full w up awake room]
        rfl
  · rw [exec_hostWriteAccept posts, acceptWrite_of_cons queued]
    obtain ⟨writes, link⟩ := refillQueue_facts s.host.posting.length
      (updHost (fun h => { h with writes := rest }) (updLink (fun l => { l with aspm := .l0 }) s))
    refine ⟨_, rfl, writes, congrArg Link.aspm link, fun none => ?_⟩
    rw [none]
    rfl
  · rw [exec_hostWriteAccept posts, acceptWrite_of_nil drained]

end Sys2Proof.Machine

/-! ### The shell of an op (R55–R59, R76): when a step runs, waits, does nothing or faults -/

namespace Sys2Proof.Machine

/-- The ops that a false condition makes a one-cycle no-op, with their codes (R56, R58). -/
def conditionalOps (p : Fin 12) (a : Fin 864) (sp : SpRead) : List (Nat × Instr) :=
  [(0x00, .stepNop p a), (0x03, .setc p a), (0x04, .setr p a), (0x05, .next p a), (0x06, .wait p a), (0x07, .signal p a),
   (0x10, .fetchb p a), (0x11, .fetchw p ⟨a, sp⟩), (0x12, .store p a sp), (0x13, .atomic p a sp), (0x14, .mfence p a), (0x15, .move p a sp),
   (0x20, .tileclr p a), (0x21, .dot p a sp), (0x22, .bound p a sp), (0x23, .score p a sp), (0x24, .bfma p a sp), (0x25, .sgather p a sp),
   (0x30, .sieve p a sp), (0x32, .select p a sp), (0x33, .selclr p a), (0x34, .emit p a)]

/-- The ops that read their condition themselves, with their codes (R58, R63). -/
def branchingOps (p : Fin 12) (a : Fin 864) : List (Nat × Instr) := [(0x01, .branch p a), (0x02, .loop p a), (0x08, .yield p a), (0x31, .skip p a)]

/-- Every op runs in the shell of its code. -/
theorem exec_runOp {p : Fin 12} {a : Fin 864} {sp : SpRead} {k : Nat × Instr} (op : k ∈ conditionalOps p a sp ++ branchingOps p a) (s : State) :
    ∃ f, exec k.2 s = .next (runOp p a k.1 f s) := by
  simp only [conditionalOps, branchingOps, List.cons_append, List.nil_append, List.mem_cons, List.not_mem_nil, or_false] at op
  rcases op with rfl | rfl | rfl | rfl | rfl | rfl | rfl | rfl | rfl | rfl | rfl | rfl | rfl | rfl | rfl | rfl | rfl | rfl | rfl | rfl | rfl | rfl |
    rfl | rfl | rfl | rfl <;> exact ⟨_, rfl⟩

/-- Only LOOP, YIELD, END, BRANCH and SKIP read their condition themselves, and an EMIT that has begun passes over it (R58, R298). -/
theorem conditional_code {p : Fin 12} {a : Fin 864} {sp : SpRead} {k : Nat × Instr} {n : Nat} (op : k ∈ conditionalOps p a sp)
    (fresh : k.1 = 0x34 → n = 0) : ¬(k.1 = 0x02 ∨ k.1 = 0x08 ∨ k.1 = 0x09 ∨ k.1 = 0x01 ∨ k.1 = 0x31 ∨ k.1 = 0x34 ∧ n > 0) := by
  have codes : k.1 ∈ (conditionalOps p a sp).map (·.1) := List.mem_map_of_mem op
  simp only [conditionalOps, List.map_cons, List.map_nil, List.mem_cons, List.not_mem_nil, or_false] at codes
  omega

/-- END met nowhere changes nothing, unless the anvil runs an EXPORT chunk (R60, R190). -/
theorem endStep_of_none {p i : Nat} {s : State} (idle : exportAt s p i = none) : endStep p i s = runOp p i 0x09 (opEnd p i) s := by
  simp only [endStep, idle]

/-! #### Ops that read local ranges (R59, R76) -/

section Reading

variable {p i op : Nat} {compute : Bool} {reads : Anvil → W128 → List (Nat × Nat)} {sp : SpRead} {f : W128 → State → State} {s : State} {w : W128}

/-- The ranges that count are those of a pattern whose steps the manual lists (log 5). -/
theorem any_listed_reads {rs : List (Nat × Nat)} {P : Nat × Nat → Bool} (b : Bool) (none : rs.any P = false) :
    (if b then rs else []).any P = false := by
  cases b
  · rfl
  · exact none

theorem readingOp_waits (met : meets s p i op w = true) (known : listed (anvil s p i) = true)
    (pending : ((reads (anvil s p i) w).any fun r => fetching (anvil s p i) r.1 r.2) = true) :
    readingOp p i op compute reads sp f s = waitFor .waitMem p i s := by
  rw [readingOp, runOp_runs met]
  dsimp only
  rw [if_pos known, if_pos pending]

theorem readingOp_uncorrectable (met : meets s p i op w = true)
    (landed : ((reads (anvil s p i) w).any fun r => fetching (anvil s p i) r.1 r.2) = false) :
    readingOp p i op compute reads .uncorrectable f s = spFault p i s := by
  rw [readingOp, runOp_runs met]
  dsimp only
  rw [any_listed_reads _ landed, if_neg Bool.false_ne_true, if_pos rfl]

theorem readingOp_poisoned (met : meets s p i op w = true) (known : listed (anvil s p i) = true)
    (landed : ((reads (anvil s p i) w).any fun r => fetching (anvil s p i) r.1 r.2) = false)
    (poison : ((reads (anvil s p i) w).any fun r => padPoisoned (anvil s p i) r.1 r.2) = true) :
    readingOp p i op true reads .clean f s = poisonFault p i s := by
  rw [readingOp, runOp_runs met]
  dsimp only
  rw [if_pos known, landed, poison]
  rfl

end Reading

/-- The compute ops run in the shell of ops that read local ranges. -/
theorem exec_computeOps {p : Fin 12} {a : Fin 864} {sp : SpRead} {s : State} {k : Nat × Instr × (Anvil → W128 → List (Nat × Nat))}
    (op : k ∈ computeOps s p a sp) : ∃ f, exec k.2.1 s = .next (readingOp p a k.1 true k.2.2 sp f s) := by
  simp only [computeOps, List.mem_cons, List.not_mem_nil, or_false] at op
  rcases op with rfl | rfl | rfl | rfl | rfl | rfl | rfl | rfl <;> exact ⟨_, rfl⟩

theorem exec_memoryOps {p : Fin 12} {a : Fin 864} {sp : SpRead} {k : Nat × Instr × (Anvil → W128 → List (Nat × Nat))}
    (op : k ∈ memoryOps p a sp) (s : State) : ∃ f, exec k.2.1 s = .next (readingOp p a k.1 false k.2.2 sp f s) := by
  simp only [memoryOps, List.mem_cons, List.not_mem_nil, or_false] at op
  rcases op with rfl | rfl <;> exact ⟨_, rfl⟩

/-- Settles O27: each op runs in its shell, and the shell's branches are taken one by one. -/
theorem stepShell : Obligations.StepShell := by
  refine ⟨fun p a s sp k op unmet => ?_, fun p a s unmet idle => ?_, fun p a w s sp k op word condition fresh => ?_,
    fun p a w s sp k op met known pending => ?_, fun p a w s sp k op met landed error => ?_,
    fun p a w s sp k op met known landed poison error => ?_⟩
  · obtain ⟨f, runs⟩ := exec_runOp op s
    rw [runs, runOp_none unmet]
  · exact congrArg _ ((endStep_of_none idle).trans (runOp_none unmet))
  · obtain ⟨f, runs⟩ := exec_runOp (List.mem_append_left _ op) s
    rw [runs, runOp_skips word (conditional_code op fresh) condition]
  · have shell : ∃ compute e f, exec k.2.1 s = .next (readingOp p a k.1 compute k.2.2 e f s) := by
      rcases List.mem_append.mp op with compute | other
      · exact ⟨_, _, exec_computeOps compute⟩
      · rcases List.mem_cons.mp other with rfl | memory
        · exact ⟨_, _, _, rfl⟩
        · exact ⟨_, _, exec_memoryOps memory s⟩
    obtain ⟨compute, e, f, runs⟩ := shell
    exact ⟨_, runs.trans (congrArg _ (readingOp_waits met known pending)), anvil_updAnvil_same ..⟩
  · subst error
    have shell : ∃ compute f, exec k.2.1 s = .next (readingOp p a k.1 compute k.2.2 .uncorrectable f s) := by
      rcases List.mem_append.mp op with compute | memory
      · exact ⟨_, exec_computeOps compute⟩
      · exact ⟨_, exec_memoryOps memory s⟩
    obtain ⟨compute, f, runs⟩ := shell
    rw [runs, readingOp_uncorrectable met landed]
  · subst error
    obtain ⟨f, runs⟩ := exec_computeOps op
    rw [runs, readingOp_poisoned met known landed poison]

end Sys2Proof.Machine

/-! ### Sequencer ops (R56, R58, R60–R63, R69, R198): where a step of an anvil leads, what it takes and what it frees -/

namespace Sys2Proof.Machine

/-! #### An op whose step is met -/

theorem next_runOp {p i op : Nat} {w : W128} {s : State} (f : W128 → State → State) (met : meets s p i op w = true) :
    Host.Outcome.next (runOp p i op f s) = (.next (f w s) : Host.Outcome State Fault Refusal) :=
  congrArg _ (runOp_runs met)

/-- An op that reads its condition itself runs whenever its step is met (R58, R63). -/
theorem next_runOp_of_word {p i op : Nat} {w : W128} {s : State} (f : W128 → State → State) (word : stepWordAt s p i op = some w)
    (own : op ∈ [0x01, 0x02, 0x08, 0x09, 0x31]) :
    Host.Outcome.next (runOp p i op f s) = (.next (f w s) : Host.Outcome State Fault Refusal) :=
  congrArg _ (runOp_always word (by simp only [List.mem_cons, List.not_mem_nil, or_false] at own; omega))

theorem AnvilsOnly.trans {s t u : State} (h : AnvilsOnly s t) (k : AnvilsOnly t u) : AnvilsOnly s u :=
  ⟨by rw [k.frame, h.frame], fun q => (k.ptns q).trans (h.ptns q)⟩

theorem anvilsOnly_stepDone (n p i : Nat) (s : State) : AnvilsOnly s (stepDone n p i s) := by
  unfold stepDone addCycles nextStep
  exact .trans (anvilsOnly_updAnvil ..) (anvilsOnly_updAnvil ..)

theorem anvil_waitFor (st : AnvState) (p i : Nat) (s : State) : anvil (waitFor st p i s) p i = { anvil s p i with st := st } :=
  anvil_updAnvil_same ..

/-! #### Targets (R56; log 5): a target depends on the pattern, its version and where it was placed -/

/-- The commands and contexts of t name the versions of patterns that those of s name. -/
structure SameVersions (s t : State) : Prop where
  cmds : ∀ c, (cmd? t c).map (fun x => (x.ctx, x.patVer)) = (cmd? s c).map (fun x => (x.ctx, x.patVer))
  ctxs : ∀ c, (ctx? t c).map (fun x => (x.patterns, x.oldPatterns)) = (ctx? s c).map (fun x => (x.patterns, x.oldPatterns))

/-- Two records of an anvil are of one binding: the same pattern at the same place, for the same lanes and chunk. -/
structure SameBinding (a b : Anvil) : Prop where
  base : b.base = a.base
  pattern : b.pattern = a.pattern
  lanes : b.lanes = a.lanes
  chunk : b.chunk = a.chunk

theorem SameVersions.refl (s : State) : SameVersions s s := ⟨fun _ => rfl, fun _ => rfl⟩

theorem SameVersions.trans {s t u : State} (h : SameVersions s t) (k : SameVersions t u) : SameVersions s u :=
  ⟨fun c => (k.cmds c).trans (h.cmds c), fun c => (k.ctxs c).trans (h.ctxs c)⟩

theorem SameVersions.foldl {α : Type} {g : State → α → State} (l : List α) (h : ∀ s x, SameVersions s (g s x)) (s : State) :
    SameVersions s (l.foldl g s) := by
  induction l generalizing s with
  | nil => exact .refl s
  | cons x l ih => exact (h s x).trans (ih _)

theorem sameVersions_updPtn (p : Nat) (f : Ptn → Ptn) (s : State) : SameVersions s (updPtn p f s) := ⟨fun _ => rfl, fun _ => rfl⟩

theorem sameVersions_updCmd {c : Nat} {f : Cmd → Cmd} (kept : ∀ x, ((f x).ctx, (f x).patVer) = (x.ctx, x.patVer)) (s : State) :
    SameVersions s (updCmd c f s) := by
  refine ⟨fun d => ?_, fun d => by rw [ctx_of d (updCmd_ctxs ..)]⟩
  by_cases same : d = c
  · rw [same, cmd_updCmd_same, Option.map_map]
    exact congrArg (Option.map · _) (funext kept)
  · rw [cmd_updCmd_other _ _ same]

theorem sameVersions_updCtx {c : Nat} {f : Ctx → Ctx} (kept : ∀ x, ((f x).patterns, (f x).oldPatterns) = (x.patterns, x.oldPatterns))
    (s : State) : SameVersions s (updCtx c f s) := by
  refine ⟨fun d => by rw [cmd_of d (updCtx_cmds ..)], fun d => ?_⟩
  by_cases same : d = c
  · rw [same, ctx_updCtx_same, Option.map_map]
    exact congrArg (Option.map · _) (funext kept)
  · rw [ctx_updCtx_other _ _ same]

theorem sameVersions_chargeCtx (p c : Nat) (bulk : Bool) (w x : Nat) (s : State) : SameVersions s (chargeCtx p c bulk w x s) := by
  unfold chargeCtx
  dsimp only
  split
  · refine sameVersions_updCtx ?_ s
    exact fun _ => rfl
  · refine .trans (sameVersions_updCtx ?_ s) (sameVersions_updPtn ..)
    exact fun _ => rfl

/-- A charge writes cycles and counters, no version (R239–R241). -/
theorem sameVersions_chargeAnvil (p i : Nat) (s : State) : SameVersions s (chargeAnvil p i s) := by
  have lanes : ∀ bulk ls x u, SameVersions u (chargeLanes p bulk ls x u) := fun bulk ls x u => by
    unfold chargeLanes
    refine .foldl _ (fun s l => ?_) u
    dsimp only
    split
    · refine .trans (sameVersions_updCmd ?_ s) (sameVersions_chargeCtx ..)
      exact fun _ => rfl
    · exact .refl s
  have chunk : ∀ k x u, SameVersions u (chargeChunk p k x u) := fun k x u => by
    unfold chargeChunk
    split
    · refine .trans (sameVersions_updCmd ?_ u) (sameVersions_chargeCtx ..)
      exact fun _ => rfl
    · split
      · exact sameVersions_chargeCtx ..
      · exact .refl u
  unfold chargeAnvil
  dsimp only
  split
  · exact (sameVersions_updPtn ..).trans (chunk ..)
  · exact (sameVersions_updPtn ..).trans (lanes ..)

section SameVersions

variable {s t : State} {a b : Anvil} (versions : SameVersions s t) (binding : SameBinding a b)
include versions

theorem SameVersions.patternVer_eq (c v : Nat) : patternVer t c v = patternVer s c v := by
  have ctx : ∀ u : State, patternVer u c v =
      ((ctx? u c).map fun x => (x.patterns, x.oldPatterns)).bind fun l => (l.1.map (·.2) ++ l.2).find? fun k => k.ver == v := fun u => by
    rw [patternVer, Option.bind_map]
    rfl
  rw [ctx t, versions.ctxs, ← ctx s]

include binding

theorem SameVersions.leadCmd_eq :
    (leadCmd t b).map (fun x => (x.ctx, x.patVer)) = (leadCmd s a).map (fun x => (x.ctx, x.patVer)) := by
  unfold leadCmd liveLanes lanesOf
  rw [binding.lanes, Option.map_bind, Option.map_bind]
  exact congrArg _ (funext fun l => versions.cmds l.cmd)

theorem SameVersions.anvCtx_eq : anvCtx t b = anvCtx s a := by
  have lead : (leadCmd t b).map (·.ctx) = (leadCmd s a).map (·.ctx) := by
    simpa [Option.map_map, Function.comp_def] using congrArg (Option.map Prod.fst) (versions.leadCmd_eq binding)
  unfold anvCtx
  rw [binding.chunk, lead]

theorem SameVersions.anvSteps_eq : anvSteps t b = anvSteps s a := by
  have lead : (leadCmd t b).map (·.patVer) = (leadCmd s a).map (·.patVer) := by
    simpa [Option.map_map, Function.comp_def] using congrArg (Option.map Prod.snd) (versions.leadCmd_eq binding)
  unfold anvSteps
  rw [binding.pattern, lead, versions.anvCtx_eq binding, versions.patternVer_eq]

theorem SameVersions.targetOf_eq (w : W128) : targetOf t b w = targetOf s a w := by
  unfold targetOf listed
  rw [binding.base, binding.pattern, versions.anvSteps_eq binding]

end SameVersions

theorem anvil_goTo (w : W128) (p i : Nat) (s : State) :
    anvil (goTo (stTarget w) p i s) p i = { anvil s p i with step := targetOf s (anvil s p i) w, st := .running } :=
  anvil_updAnvil_same ..

/-- A branch after an update of the anvil that leaves its binding goes where the step's target lies (R56, R63). -/
theorem anvil_branch_updAnvil {p i : Nat} {f : Anvil → Anvil} {s : State} (w : W128) (binding : SameBinding (anvil s p i) (f (anvil s p i))) :
    anvil (addCycles 2 p i (goTo (stTarget w) p i (updAnvil p i f s))) p i = branched (targetOf s (anvil s p i) w) (f (anvil s p i)) := by
  rw [anvil_branch, anvil_updAnvil_same, ← (sameVersions_updPtn ..).targetOf_eq binding w]
  rfl

/-! #### Branches and counters (R56, R63) -/

section Branches

variable {p i : Nat} {w : W128} {s : State}

theorem anvil_opBranch_taken (taken : stepCondition s p i w = true) :
    anvil (opBranch p i w s) p i = branched (targetOf s (anvil s p i) w) (anvil s p i) := by
  rw [opBranch, if_pos taken, anvil_branch]
  rfl

theorem anvil_opBranch_not_taken (not_taken : stepCondition s p i w = false) : anvil (opBranch p i w s) p i = stepped 1 (anvil s p i) := by
  rw [opBranch, if_neg (by simp [not_taken]), anvil_stepDone]

theorem anvil_opLoop_taken (more : counter (anvil s p i) (stepCounter w) > 1) :
    anvil (opLoop p i w s) p i = branched (targetOf s (anvil s p i) w)
      (setCounter (stepCounter w) (counter (anvil s p i) (stepCounter w) - 1) (anvil s p i)) := by
  have positive : counter (anvil s p i) (stepCounter w) ≠ 0 := fun zero => by rw [zero] at more; exact absurd more (by decide)
  simp only [opLoop, if_pos more, if_neg positive]
  exact anvil_branch_updAnvil w ⟨rfl, rfl, rfl, rfl⟩

/-- A counter of 0 stays 0 and one of 1 becomes 0; both fall through (R63). -/
theorem anvil_opLoop_over (ended : counter (anvil s p i) (stepCounter w) = 0 ∨ counter (anvil s p i) (stepCounter w) = 1) :
    anvil (opLoop p i w s) p i = stepped 1 (setCounter (stepCounter w) 0 (anvil s p i)) := by
  have last : ¬counter (anvil s p i) (stepCounter w) > 1 := by rcases ended with h | h <;> rw [h] <;> decide
  have zero : counter (anvil s p i) (stepCounter w) - (if counter (anvil s p i) (stepCounter w) = 0 then 0 else 1) = 0 := by
    rcases ended with h | h <;> rw [h] <;> decide
  simp only [opLoop, if_neg last, zero, anvil_stepDone, anvil_updAnvil_same]

theorem anvil_opSetc : anvil (opSetc p i w s) p i = stepped 1 (setCounter (stepCounter w)
    (BitVec.ofNat 16 (if bit (stParam w) 31 then field (anvil s p i).wd (stParam w % 256) 2 else stCount w)) (anvil s p i)) := by
  rw [opSetc, anvil_stepDone, anvil_updAnvil_same]

/-- The control registers that a SETR writes, one for each unit of its count (R69). -/
def setrWords (w : W128) : List Nat := (upto (stCount w)).map fun j => stDest w + 4 * j

theorem anvil_opSetr (allowed : ((setrWords w).any fun k => badCapacity k (stParam w) (anvil s p i)) = false) :
    anvil (opSetr p i w s) p i = stepped (stCount w) ((setrWords w).foldl (fun b k => writeControl k (stParam w) b) (anvil s p i)) := by
  rw [setrWords] at allowed
  simp only [opSetr, allowed, Bool.false_eq_true, if_false, anvil_stepDone, anvil_updAnvil_same]
  rfl

theorem opSetr_refused (refused : ((setrWords w).any fun k => badCapacity k (stParam w) (anvil s p i)) = true) :
    opSetr p i w s = sandboxFault 1 p i s := if_pos refused

theorem anvil_opSkip_taken (taken : stepCondition s p i w = true) :
    anvil (opSkip p i w s) p i = branched (targetOf s (anvil s p i) w) { anvil s p i with
      desc := none, outst := (anvil s p i).outst.filter fun o => o.served || o.part.isNone || o.desc != (anvil s p i).desc } := by
  rw [opSkip, if_pos taken]
  exact anvil_branch_updAnvil w ⟨rfl, rfl, rfl, rfl⟩

theorem anvil_opSkip_not_taken (not_taken : stepCondition s p i w = false) : anvil (opSkip p i w s) p i = stepped 2 (anvil s p i) := by
  rw [opSkip, if_neg (by simp [not_taken]), anvil_stepDone]

/-! #### NEXT (R62) -/

theorem anvil_putDesc (q : Nat) (d : Desc) (s : State) (p i : Nat) : anvil (putDesc q d s) p i = anvil s p i :=
  anvil_updPtn fun _ => rfl

/-- Descriptors that get a place in a row's queue leave every anvil (R299, R300). -/
theorem anvil_fillPlaces (q : Nat) (s : State) (p i : Nat) : anvil (fillPlaces q s) p i = anvil s p i := by
  unfold fillPlaces
  generalize (ptn s q).rowQ.filter _ = l
  induction l generalizing s with
  | nil => rfl
  | cons d l ih =>
    rw [List.foldl_cons, ih]
    split
    · rw [anvil_putDesc]
      exact anvil_updPtn fun _ => rfl
    · rfl

theorem anvilsOnly_loadDesc (p i : Nat) (d : Desc) (n : Nat) (s : State) : AnvilsOnly s (loadDesc p i d n s) := by
  unfold loadDesc
  exact anvilsOnly_updAnvil ..

/-- A descriptor loads the same where the anvil, the collections and the commands are the same. -/
theorem anvil_loadDesc_of_same {t : State} (d : Desc) (n : Nat) (same : anvil t p i = anvil s p i) (colls : t.colls = s.colls)
    (cmds : t.cmds = s.cmds) : anvil (loadDesc p i d n t) p i = anvil (loadDesc p i d n s) p i := by
  have lanes : laneCmd t = laneCmd s := funext fun l => cmd_of l.cmd cmds
  simp only [loadDesc, anvil_updAnvil_same, same, coll_of _ colls, leadCmd, lanes]

theorem opNext_takes {d : Nat × Desc} (bound : (anvil s p i).chunk = none) (room : bindingFull s p i = false) (waits : waitingDesc s p i = some d) :
    opNext p i w s = stepDone 4 p i (loadDesc p i d.2 0 (fillPlaces p (updPtn p (fun x => { x with rowQ := removeFirst d x.rowQ }) s))) := by
  simp only [opNext, bound, room, Bool.false_eq_true, if_false, waits]

theorem anvil_opNext_takes {d : Nat × Desc} (bound : (anvil s p i).chunk = none) (room : bindingFull s p i = false)
    (waits : waitingDesc s p i = some d) : anvil (opNext p i w s) p i = stepped 4 (anvil (loadDesc p i d.2 0 s) p i) := by
  have kept := k_fillPlaces (within_self _) p (Keeps.refl _ (updPtn p (fun x => { x with rowQ := removeFirst d x.rowQ }) s))
  rw [opNext_takes bound room waits, anvil_stepDone]
  refine congrArg _ (anvil_loadDesc_of_same _ _ ((anvil_fillPlaces ..).trans (anvil_updPtn ?_)) kept.same_colls kept.same_cmds)
  exact fun _ => rfl

/-- A binding that is full, or for which nothing waits, takes nothing (R62, R129). -/
theorem opNext_of_nothing (bound : (anvil s p i).chunk = none) (nothing : bindingFull s p i = true ∨ waitingDesc s p i = none) :
    opNext p i w s = if bindingClosed s p i then stepDone 4 p i (updAnvil p i (fun a => { a with descNone := true }) s) else waitFor .waitDesc p i s := by
  have found : (if bindingFull s p i then none else waitingDesc s p i) = none := by
    rcases nothing with full | empty
    · rw [if_pos full]
    · rw [empty, ite_self]
  simp only [opNext, bound, found]

theorem anvil_opNext_closed (bound : (anvil s p i).chunk = none) (nothing : bindingFull s p i = true ∨ waitingDesc s p i = none)
    (closed : bindingClosed s p i = true) : anvil (opNext p i w s) p i = stepped 4 { anvil s p i with descNone := true } := by
  rw [opNext_of_nothing bound nothing, if_pos closed, anvil_stepDone, anvil_updAnvil_same]

theorem anvil_opNext_waits (bound : (anvil s p i).chunk = none) (empty : waitingDesc s p i = none) (opened : bindingClosed s p i = false) :
    anvil (opNext p i w s) p i = { anvil s p i with st := .waitDesc } := by
  rw [opNext_of_nothing bound (.inr empty), if_neg (by simp [opened]), anvil_waitFor]

theorem opNext_of_chunk {k : Chunk} (chunk : (anvil s p i).chunk = some k) :
    opNext p i w s = stepDone 4 p i (if (anvil s p i).closing then updAnvil p i (fun a => { a with descNone := true }) s else nextOfChunk p i k s) := by
  simp only [opNext, chunk]

theorem opNext_of_brick {k : Chunk} {b : Desc} {r : List Desc} (chunk : (anvil s p i).chunk = some k) (opened : (anvil s p i).closing = false)
    (bricks : k.bricks = b :: r) : opNext p i w s = stepDone 4 p i (loadDesc p i { b with kind := if b.kind = 0 then 4 else b.kind, last := r.isEmpty }
      k.start.length (updAnvil p i (fun a => { a with chunk := some { k with bricks := r } }) s)) := by
  rw [opNext_of_chunk chunk, if_neg (by simp [opened]), nextOfChunk, bricks]

theorem anvil_opNext_over {k : Chunk} (chunk : (anvil s p i).chunk = some k) (ended : (anvil s p i).closing = true ∨ k.bricks = []) :
    anvil (opNext p i w s) p i = stepped 4 { anvil s p i with descNone := true } := by
  have none : (if (anvil s p i).closing then updAnvil p i (fun a => { a with descNone := true }) s else nextOfChunk p i k s) =
      updAnvil p i (fun a => { a with descNone := true }) s := by
    rcases ended with closing | empty
    · rw [if_pos closing]
    · rw [nextOfChunk, empty, ite_self]
  rw [opNext_of_chunk chunk, none, anvil_stepDone, anvil_updAnvil_same]

/-! #### WAIT, SIGNAL, MFENCE -/

theorem anvil_opWait : anvil (opWait p i w s) p i =
    if (if stParam w % 16 = 0 then foldCredit s p i else fetchCredit (anvil s p i)) then stepped 1 (anvil s p i)
    else { anvil s p i with st := .waitCredit } := by
  rw [opWait]
  dsimp only
  generalize (if stParam w % 16 = 0 then foldCredit s p i else fetchCredit (anvil s p i)) = credit
  cases credit
  · exact anvil_waitFor ..
  · exact anvil_stepDone ..

theorem anvil_opSignal : anvil (opSignal p i w s) p i = stepped 1 (anvil s p i) := by
  rw [opSignal, anvil_stepDone]
  exact congrArg _ (anvil_updPtn fun _ => rfl)

theorem signal_opSignal : (ptn (opSignal p i w s) p).signal = some (BitVec.ofNat 32 (stParam w), (anvil s p i).lanes) := by
  rw [opSignal, (anvilsOnly_stepDone ..).ptn_eq (·.signal) (fun _ => rfl), ptn_updPtn_same]

theorem anvil_opMfence : anvil (opMfence p i w s) p i =
    if (anvil s p i).outst.isEmpty then stepped 1 (anvil s p i) else { anvil s p i with st := .waitMem } := by
  rw [opMfence]
  split
  · exact anvil_stepDone ..
  · exact anvil_waitFor ..

/-! #### YIELD, END (R60) and the yield overrun (R61) -/

/-- A YIELD that no request stops goes on at its target, in a new interval (R60). -/
theorem anvil_opYield_goes_on (free : preempting s p i = false) :
    anvil (opYield p i w s) p i = { anvil s p i with
      charge := (ptn s p).cycles.toNat, step := targetOf s (anvil s p i) w, st := .running, cyc := 1 } := by
  have target : targetOf (chargeAnvil p i s) { anvil s p i with charge := (ptn s p).cycles.toNat } w = targetOf s (anvil s p i) w :=
    (sameVersions_chargeAnvil p i s).targetOf_eq ⟨rfl, rfl, rfl, rfl⟩ w
  simp only [opYield, free, Bool.false_and, Bool.false_eq_true, if_false, anvil_updAnvil_same, anvil_goTo, anvil_chargeAnvil, target]

theorem opYield_waits (request : preempting s p i = true) (pending : (anvil s p i).outst.isEmpty = false) :
    opYield p i w s = waitFor .waitMem p i s := if_pos (by simp [request, pending])

theorem opYield_stops (request : preempting s p i = true) (done : (anvil s p i).outst.isEmpty = true) :
    opYield p i w s = stopAtYield p i (updAnvil p i (fun b => { b with cyc := 1 }) (goTo (stTarget w) p i (chargeAnvil p i s))) := by
  simp only [opYield, request, done, Bool.not_true, Bool.and_false, Bool.false_eq_true, if_false, if_true]

/-- An anvil that meets a step other than a YIELD runs no EXPORT chunk: such a chunk runs as a whole (log 73). -/
theorem exportAt_of_word {op : Nat} (word : stepWordAt s p i op = some w) (other : op ≠ 0x08) : exportAt s p i = none := by
  have part : runsWhole (anvil s p i) = false := by
    refine Bool.eq_false_iff.mpr fun whole => ?_
    simp [stepWordAt, whole, other] at word
  unfold exportAt
  dsimp only
  split
  · cases chunk : (anvil s p i).chunk with
    | none => rfl
    | some k =>
      have search : k.kind = 3 := by simpa [runsWhole, chunk] using part
      simp [search]
  · rfl

theorem anvil_opEnd : anvil (opEnd p i w s) p i = { anvil s p i with
    st := .idle, lanes := [], chunk := none, desc := none, preempt := false, closing := false, charge := (ptn s p).cycles.toNat } := by
  rw [opEnd, freeAnvil, anvil_updAnvil_same, anvil_chargeAnvil]

theorem endStep_of_word (word : stepWordAt s p i 0x09 = some w) : endStep p i s = opEnd p i w s := by
  simp only [endStep, exportAt_of_word word (by decide)]
  exact runOp_always word (by simp)

theorem endStep_of_chunk {c : Nat} {k : Chunk} (running : exportAt s p i = some (c, k)) :
    endStep p i s = if exportPoisoned s c k = true then poisonFault p i s else exportChunk c k (freeAnvil p i s) := by
  simp only [endStep, running]

/-- A request that takes effect does not depend on YOVR (R61, R246). -/
theorem preempting_yovr (p i : Nat) (s : State) : preempting (updAnvil p i (fun a => { a with yovr := true }) s) p i = preempting s p i := by
  unfold preempting
  simp only [anvil_updAnvil_same, holdsSemaphore_updAnvil]
  rfl

theorem anvil_overrunYield (free : preempting s p i = false) : anvil (overrunYield p i s) p i = { anvil s p i with yovr := true } := by
  rw [overrunYield]
  dsimp only
  rw [preempting_yovr, if_neg (by simp [free]), anvil_updAnvil_same]

theorem overrunYield_faults (request : preempting s p i = true) :
    overrunYield p i s = sandboxFault 3 p i (updAnvil p i (fun b => { b with yovr := true }) s) := by
  rw [overrunYield, preempting_yovr, if_pos request]

end Branches

/-- The count of a custom pattern passes 3,600 on an anvil that issues steps (R61). -/
theorem exec_yieldOverrun {p : Fin 12} {a : Fin 864} {s : State} (issues : issuing (anvil s p a) = true) (custom : (anvil s p a).pattern ≥ 0x100)
    (long : (anvil s p a).cyc > 3600) : exec (.yieldOverrun p a) s = .next (overrunYield p a s) :=
  onlyIf_true _ _ (by simp [issues, custom, long])

/-! #### The rows -/

/-- Settles O23: an op whose step is met runs, and its branch decides what the anvil becomes. -/
theorem sequencerSteps : Obligations.SequencerSteps := by
  refine ⟨fun p a w s met => ?_, fun p a w s word taken => ?_, fun p a w s word not_taken => ?_, fun p a w s word more => ?_,
    fun p a w s word ended => ?_, fun p a w s met => ?_, fun p a w s met allowed => ?_, fun p a w s met refused => ?_,
    fun p a w s d met bound room waits => ?_, fun p a w s met bound nothing closed => ?_, fun p a w s met bound empty opened => ?_,
    fun p a w s k b r met chunk opened bricks => ?_, fun p a w s k met chunk ended => ?_, fun p a w s met => ?_, fun p a w s met => ?_,
    fun p a w s met => ?_, fun p a w s word free => ?_, fun p a w s word request pending => ?_, fun p a w s word request done => ?_,
    fun p a w s word => ?_, fun p a c k s running => ?_, fun p a w s word taken => ?_, fun p a w s word not_taken => ?_,
    fun p a s issues custom long free => ?_, fun p a s issues custom long request => ?_⟩
  · exact ⟨_, next_runOp _ met, anvil_stepDone ..⟩
  · exact ⟨_, next_runOp_of_word _ word (by decide), anvil_opBranch_taken taken⟩
  · exact ⟨_, next_runOp_of_word _ word (by decide), anvil_opBranch_not_taken not_taken⟩
  · exact ⟨_, next_runOp_of_word _ word (by decide), anvil_opLoop_taken more⟩
  · exact ⟨_, next_runOp_of_word _ word (by decide), anvil_opLoop_over ended⟩
  · exact ⟨_, next_runOp _ met, anvil_opSetc⟩
  · exact ⟨_, next_runOp _ met, anvil_opSetr allowed⟩
  · exact ⟨_, next_runOp _ met, opSetr_refused refused⟩
  · refine ⟨_, next_runOp _ met, ?_, anvil_opNext_takes bound room waits, ?_, ?_⟩
    · rw [opNext_takes bound room waits]
      exact ((anvilsOnly_loadDesc ..).trans (anvilsOnly_stepDone ..)).ptn_eq (·.rowQ) (fun _ => rfl) p
    · rw [anvil_opNext_takes bound room waits, loadDesc, anvil_updAnvil_same]
      rfl
    · rw [anvil_opNext_takes bound room waits, loadDesc, anvil_updAnvil_same]
      rfl
  · exact ⟨_, next_runOp _ met, anvil_opNext_closed bound nothing closed⟩
  · exact ⟨_, next_runOp _ met, anvil_opNext_waits bound empty opened⟩
  · refine ⟨_, next_runOp _ met, ?_⟩
    rw [opNext_of_brick chunk opened bricks, anvil_stepDone, loadDesc, anvil_updAnvil_same, anvil_updAnvil_same]
    exact ⟨rfl, rfl, rfl, rfl, rfl⟩
  · exact ⟨_, next_runOp _ met, anvil_opNext_over chunk ended⟩
  · exact ⟨_, next_runOp _ met, anvil_opWait⟩
  · exact ⟨_, next_runOp _ met, anvil_opSignal, signal_opSignal⟩
  · exact ⟨_, next_runOp _ met, anvil_opMfence⟩
  · refine ⟨_, next_runOp_of_word _ word (by decide), ?_⟩
    rw [anvil_opYield_goes_on free]
    exact ⟨rfl, rfl, rfl, rfl⟩
  · exact ⟨_, next_runOp_of_word _ word (by decide), (congrArg (anvil · _ _) (opYield_waits request pending)).trans (anvil_waitFor ..)⟩
  · exact ⟨_, next_runOp_of_word _ word (by decide), opYield_stops request done⟩
  · refine ⟨_, congrArg Host.Outcome.next (endStep_of_word word), ?_⟩
    rw [anvil_opEnd]
    exact ⟨rfl, rfl, rfl, rfl, rfl⟩
  · exact congrArg Host.Outcome.next (endStep_of_chunk running)
  · exact ⟨_, next_runOp_of_word _ word (by decide), anvil_opSkip_taken taken⟩
  · exact ⟨_, next_runOp_of_word _ word (by decide), anvil_opSkip_not_taken not_taken⟩
  · exact ⟨_, exec_yieldOverrun issues custom long, anvil_overrunYield free⟩
  · exact ⟨_, exec_yieldOverrun issues custom long, overrunYield_faults request⟩

end Sys2Proof.Machine

/-! ### Memory steps (R62, R64, R65, R75, R127, R212–R214): how an anvil is bound, what its memory steps issue, what lands -/

namespace Sys2Proof.Machine

/-! #### Binding (R62, R127) -/

section Binding

variable {p i n : Nat} {ls : List LaneReq} {k : Cmd} {s : State}

/-- The capacity of every lane of an anvil just bound is that of its command (R151). -/
theorem laneCap_replicate {l : Nat} (lane : l < 16) {a : Anvil} {c : W16} (capacity : a.cap = List.replicate 16 c) : laneCap a l = c.toNat := by
  rw [laneCap, lget, capacity, List.getD_replicate (h := lane)]

theorem thFloor_replicate {l n : Nat} (lane : l < n) {a : Anvil} {fs : List F32} (floors : a.thfloor = List.replicate n fNegInf ++ fs) :
    thFloor a l = fNegInf := by
  simp [thFloor, lget, floors, List.getElem?_append, lane]

/-- What a binding starts with: empty lanes, no NaN counted, every floor at minus infinity (R62). -/
theorem bindAnvil_starts (chunk : Option Chunk) (lead : ls.head?.bind (laneCmd s) = some k) :
    (anvil (bindAnvil p i n ls chunk s) p i).st = .running ∧ (anvil (bindAnvil p i n ls chunk s) p i).pattern = n ∧
    (anvil (bindAnvil p i n ls chunk s) p i).lanes = ls ∧ (anvil (bindAnvil p i n ls chunk s) p i).sel = List.replicate ls.length [] ∧
    (anvil (bindAnvil p i n ls chunk s) p i).nancnt = 0 ∧ (anvil (bindAnvil p i n ls chunk s) p i).laneNan = List.replicate ls.length 0 ∧
    ∀ l < ls.length, thFloor (anvil (bindAnvil p i n ls chunk s) p i) l = fNegInf := by
  simp only [bindAnvil, lead, anvil_updAnvil_same]
  exact ⟨rfl, rfl, rfl, rfl, rfl, rfl, fun l lane => thFloor_replicate lane rfl⟩

/-- A pattern whose steps the manual lists starts at its ENTRY (R62; log 5). -/
theorem step_bindAnvil (chunk : Option Chunk) (lead : ls.head?.bind (laneCmd s) = some k) (known : n = 1 ∨ 0x100 ≤ n) :
    (anvil (bindAnvil p i n ls chunk s) p i).step = patternBase (ptn s p) k.ctx n k.patVer + phEntry (verHeader s k.ctx n k.patVer) := by
  simp only [bindAnvil, lead, anvil_updAnvil_same, ge_iff_le, if_pos known]
  rfl

/-- The query block of the lanes' rows stands in the scratchpad (R52). -/
theorem local_bindAnvil (chunk : Option Chunk) (lead : ls.head?.bind (laneCmd s) = some k) :
    (anvil (bindAnvil p i n ls chunk s) p i).local_ = (queryBlock (verHeader s k.ctx n k.patVer) (groupSize (coll s k.coll)) (tTwoLimb k.entry)
      (ls.filterMap (laneRow s)) (anvil s p i)).local_ := by
  simp only [bindAnvil, lead, anvil_updAnvil_same]
  rfl

theorem laneCap_bindAnvil (chunk : Option Chunk) (lead : ls.head?.bind (laneCmd s) = some k) {l : Nat} (lane : l < 16) :
    laneCap (anvil (bindAnvil p i n ls chunk s) p i) l =
      (BitVec.ofNat 16 (laneCapacity k.entry n (phSelconf (verHeader s k.ctx n k.patVer)))).toNat := by
  simp only [bindAnvil, lead, anvil_updAnvil_same]
  exact laneCap_replicate lane rfl

theorem bindLanes_of_nothing (lead : ls.head?.bind (laneCmd s) = some k) (may : mayBind s p i n ls k = true)
    (nothing : firstWork s p (waitingFor s p i) = none) : bindLanes p i n ls s = bindAnvil p i n ls none s := by
  simp only [bindLanes, lead, may, Bool.not_true, Bool.false_eq_true, if_false, nothing]

theorem bindLanes_of_desc {d : Nat × Desc} (lead : ls.head?.bind (laneCmd s) = some k) (may : mayBind s p i n ls k = true)
    (first : firstWork s p (waitingFor s p i) = some (.desc d)) (pattern : d.2.pattern = n) (same : sameLanes d.2.lanes ls = true) :
    bindLanes p i n ls s = bindDesc p i d s := by
  simp only [bindLanes, lead, may, Bool.not_true, Bool.false_eq_true, if_false, first, pattern, same, and_self, if_true]

/-- Lanes that may be bound have commands, so that the same lanes in another order have a first command too (R127). -/
theorem lead_of_sameLanes {xs : List LaneReq} (lead : ls.head?.bind (laneCmd s) = some k) (fit : ls.all (laneOk s p) = true)
    (same : sameLanes xs ls = true) : ∃ k', xs.head?.bind (laneCmd s) = some k' := by
  simp only [sameLanes, Bool.and_eq_true, List.all_eq_true, List.contains_iff_mem] at same
  obtain ⟨inside, covers⟩ := same
  cases xs with
  | nil =>
    cases ls with
    | nil => cases lead
    | cons l ls => cases covers l List.mem_cons_self
  | cons x xs =>
    have ok := List.all_eq_true.mp fit x (inside x List.mem_cons_self)
    unfold laneOk at ok
    cases cmd : laneCmd s x with
    | none => simp [cmd] at ok
    | some k' => exact ⟨k', cmd⟩

theorem lanesFit_of_mayBind (may : mayBind s p i n ls k = true) : ls.all (laneOk s p) = true := by
  simp only [mayBind, Bool.and_eq_true] at may
  obtain ⟨⟨⟨⟨⟨⟨-, fit⟩, -⟩, -⟩, -⟩, -⟩, -⟩ := may
  exact fit

end Binding

/-! #### Steps that read local ranges (R59) -/

theorem readsLanded_any {a : Anvil} {rs : List (Nat × Nat)} (landed : readsLanded a rs = true) : (rs.any fun r => fetching a r.1 r.2) = false := by
  simpa [readsLanded, List.any_eq_false] using landed

/-- A memory step whose ranges have landed runs, poisoned or not; a corrected scratchpad error is counted first (R59, R76). -/
theorem next_readingOp {p i op : Nat} {reads : Anvil → W128 → List (Nat × Nat)} {sp : SpRead} {w : W128} {s : State} (f : W128 → State → State)
    (met : meets s p i op w = true) (good : sp ≠ .uncorrectable) (landed : readsLanded (anvil s p i) (reads (anvil s p i) w) = true) :
    Host.Outcome.next (readingOp p i op false reads sp f s) = (.next (f w (afterRead sp p i s)) : Host.Outcome State Fault Refusal) := by
  rw [readingOp, runOp_runs met]
  dsimp only
  rw [any_listed_reads _ (readsLanded_any landed), if_neg Bool.false_ne_true, if_neg good]
  rfl

@[simp] theorem afterRead_clean (p i : Nat) (s : State) : afterRead .clean p i s = s := rfl

theorem next_readingOp_clean {p i op : Nat} {reads : Anvil → W128 → List (Nat × Nat)} {sp : SpRead} {w : W128} {s : State}
    (f : W128 → State → State) (met : meets s p i op w = true) (clean : sp = .clean)
    (landed : readsLanded (anvil s p i) (reads (anvil s p i) w) = true) :
    Host.Outcome.next (readingOp p i op false reads sp f s) = (.next (f w s) : Host.Outcome State Fault Refusal) := by
  subst clean
  exact next_readingOp f met nofun landed

/-- The window of a step after its read is the one before it (R75). -/
theorem stepWindow_afterRead (sp : SpRead) (p i : Nat) (s : State) (w : W128) (right : MWin → Bool) :
    stepWindow (afterRead sp p i s) (anvil (afterRead sp p i s) p i) w right = stepWindow s (anvil s p i) w right := by
  rw [anvil_afterRead, (anvilsOnly_afterRead ..).frame]
  rfl

/-! #### FETCHB (R64, R212) -/

section Fetchb

variable {p i : Nat} {w : W128} {s : State} {d : Desc}

/-- The slice that a FETCHB names: its own, or one below its counter (R64; log 56). -/
def fetchbSlice (a : Anvil) (w : W128) : Nat :=
  if bit (stParam w) 27 then (counter a (bits (stParam w) 25 24)).toNat - 1 else stParam w % 65536

/-- The bytes of the part that a FETCHB names. -/
def fetchbPart (s : State) (a : Anvil) (w : W128) (d : Desc) : List Byte :=
  descPart s d (bits (stParam w) 31 28) (fetchbSlice a w) (stCount w)

/-- The part has more lines than the step's count (R64). -/
def fetchbTooLarge (s : State) (a : Anvil) (w : W128) (d : Desc) : Bool :=
  listed a && decide (ceilDiv (fetchbPart s a w d).length 64 > stCount w)

/-- The lines of the part or its destination are not free yet (R59). -/
def fetchbWaits (s : State) (a : Anvil) (w : W128) (d : Desc) : Bool :=
  linesWait a (ceilDiv (fetchbPart s a w d).length 64) || storing a (stDest w) (fetchbPart s a w d).length

/-- The outstanding fetch that a FETCHB issues. -/
def fetchbOutst (s : State) (a : Anvil) (w : W128) (d : Desc) : Outst :=
  { dest := stDest w, addr := descAddr s d (bits (stParam w) 31 28) (fetchbSlice a w), part := some (bits (stParam w) 31 28, fetchbSlice a w)
    bytes := fetchbPart s a w d, lines := ceilDiv (fetchbPart s a w d).length 64, desc := some d }

theorem opFetchb_of_none (idle : (anvil s p i).desc = none) : opFetchb p i w s = stepDone 1 p i s := by
  simp only [opFetchb, idle]

theorem opFetchb_too_large (current : (anvil s p i).desc = some d) (large : fetchbTooLarge s (anvil s p i) w d = true) :
    opFetchb p i w s = sandboxFault 2 p i s := by
  simp only [opFetchb, current]
  exact if_pos large

theorem opFetchb_waits (current : (anvil s p i).desc = some d) (fits : fetchbTooLarge s (anvil s p i) w d = false)
    (waits : fetchbWaits s (anvil s p i) w d = true) : opFetchb p i w s = waitFor .waitMem p i s := by
  simp only [opFetchb, current]
  exact (if_neg (Bool.eq_false_iff.mp fits)).trans (if_pos waits)

/-- The lines that a hot frame keeps cached change nothing else of a partition (R212). -/
theorem foldl_useCached {β : Type} (g : Ptn → β) (blind : ∀ (x : Ptn) c, g { x with cached := c } = g x) (line : Nat → Nat) (l : List Nat) (x : Ptn) :
    g (l.foldl (fun x j => useCached (line j) x) x) = g x := by
  have uses : ∀ line x, g (useCached line x) = g x := fun line x => by
    unfold useCached
    split
    · rfl
    · exact blind x _
  induction l generalizing x with
  | nil => rfl
  | cons j l ih => exact (ih _).trans (uses _ x)

/-- The hot-brick table and the cached lines of the home partition after a FETCHB of a frame (R212). -/
def hotFetch (d : Desc) (code addr n : Nat) (x : Ptn) : Ptn :=
  if tgetD (countHot d.brick x).hot d.brick 0 ≥ 4 && cachesPart code && d.kind != 2 then
    (upto (lineCount addr n)).foldl (fun x j => useCached (lineOf (stackOff addr) + 64 * j) x) (countHot d.brick x)
  else countHot d.brick x

theorem hotFetch_of {β : Type} (g : Ptn → β) (blind : ∀ (x : Ptn) c, g { x with cached := c } = g x) (d : Desc) (code addr n : Nat) (x : Ptn) :
    g (hotFetch d code addr n x) = g (countHot d.brick x) := by
  unfold hotFetch
  split
  · exact foldl_useCached g blind ..
  · rfl

/-- The frame is counted, and the fetch is outstanding where the part has lines (R59, R64, R212). -/
def fetchbIssued (p i : Nat) (w : W128) (d : Desc) (s : State) : State :=
  let o := fetchbOutst s (anvil s p i) w d
  let u := updPtn (homePtn d.brick) (hotFetch d (bits (stParam w) 31 28) o.addr o.bytes.length) s
  if o.lines = 0 then u else updAnvil p i (fun a => { a with outst := a.outst ++ [o] }) u

theorem opFetchb_issues (current : (anvil s p i).desc = some d) (fits : fetchbTooLarge s (anvil s p i) w d = false)
    (goes : fetchbWaits s (anvil s p i) w d = false) : opFetchb p i w s =
      stepDone 1 p i (spend (if bits (stParam w) 31 28 = 8 then 16 * stCount w else 0) (fetchbIssued p i w d s)) := by
  simp only [opFetchb, current]
  exact (if_neg (Bool.eq_false_iff.mp fits)).trans (if_neg (Bool.eq_false_iff.mp goes))

theorem ceilDiv_eq_zero_iff (n : Nat) : ceilDiv n 64 = 0 ↔ n = 0 := by
  unfold ceilDiv
  omega

theorem anvil_fetchbIssued : anvil (fetchbIssued p i w d s) p i = { anvil s p i with
    outst := (anvil s p i).outst ++ if fetchbPart s (anvil s p i) w d = [] then [] else [fetchbOutst s (anvil s p i) w d] } := by
  have hot : ∀ code addr n, anvil (updPtn (homePtn d.brick) (hotFetch d code addr n) s) p i = anvil s p i := fun code addr n =>
    anvil_updPtn fun x => hotFetch_of (·.anvils) (fun _ _ => rfl) d code addr n x
  have lines : (fetchbOutst s (anvil s p i) w d).lines = 0 ↔ fetchbPart s (anvil s p i) w d = [] :=
    (ceilDiv_eq_zero_iff _).trans List.length_eq_zero_iff
  unfold fetchbIssued
  by_cases empty : fetchbPart s (anvil s p i) w d = []
  · rw [if_pos (lines.mpr empty), if_pos empty, hot, List.append_nil]
  · rw [if_neg (mt lines.mp empty), if_neg empty, anvil_updAnvil_same, hot]

theorem hot_fetchbIssued : (ptn (fetchbIssued p i w d s) (homePtn d.brick)).hot = (countHot d.brick (ptn s (homePtn d.brick))).hot := by
  have hot : ∀ code addr n, (ptn (updPtn (homePtn d.brick) (hotFetch d code addr n) s) (homePtn d.brick)).hot =
      (countHot d.brick (ptn s (homePtn d.brick))).hot := fun code addr n => by
    rw [ptn_updPtn_same]
    exact hotFetch_of (·.hot) (fun _ _ => rfl) ..
  unfold fetchbIssued
  dsimp only
  split
  · exact hot ..
  · rw [(anvilsOnly_updAnvil ..).ptn_eq (·.hot) (fun _ => rfl), hot]

end Fetchb

/-! #### Steps through a memory window (R65, R75) -/

section Windows

variable {p i : Nat} {w : W128} {s : State} {m : MWin}

/-- The lines that a step names lie in its window (R65). -/
def inWindowStep (a : Anvil) (w : W128) (m : MWin) : Bool := inMWin m (windowAddr m w + addUnits a w) (64 * stCount w)

theorem outst_append_if (n : Nat) (o : Outst) (p i : Nat) (s : State) :
    anvil (if n = 0 then s else updAnvil p i (fun a => { a with outst := a.outst ++ [o] }) s) p i =
      { anvil s p i with outst := (anvil s p i).outst ++ if n = 0 then [] else [o] } := by
  split
  · rw [List.append_nil]
  · exact anvil_updAnvil_same ..

theorem opFetchw_outside (outside : ∀ m, stepWindow s (anvil s p i) w (·.r) = some m → inWindowStep (anvil s p i) w m = false) :
    opFetchw p i w s = sandboxFault 1 p i s := by
  unfold opFetchw
  dsimp only
  split
  · rfl
  · rename_i m window
    exact if_pos (by rw [← inWindowStep, outside m window]; rfl)

theorem opFetchw_waits (window : stepWindow s (anvil s p i) w (·.r) = some m) (inside : inWindowStep (anvil s p i) w m = true)
    (waits : (linesWait (anvil s p i) (stCount w) || storing (anvil s p i) (stDest w) (64 * stCount w)) = true) :
    opFetchw p i w s = waitFor .waitMem p i s := by
  rw [inWindowStep] at inside
  simp only [opFetchw, window, inside, waits, Bool.not_true, Bool.false_eq_true, if_false, if_true]

theorem anvil_opFetchw (window : stepWindow s (anvil s p i) w (·.r) = some m) (inside : inWindowStep (anvil s p i) w m = true)
    (goes : (linesWait (anvil s p i) (stCount w) || storing (anvil s p i) (stDest w) (64 * stCount w)) = false) :
    anvil (opFetchw p i w s) p i = stepped 1 { anvil s p i with
      outst := (anvil s p i).outst ++ if stCount w = 0 then [] else
       [{ dest := stDest w, addr := windowAddr m w + addUnits (anvil s p i) w, lines := stCount w }] } := by
  rw [inWindowStep] at inside
  simp only [opFetchw, window, inside, goes, Bool.not_true, Bool.false_eq_true, if_false, anvil_stepDone, outst_append_if]

theorem opStore_outside (outside : ∀ m, stepWindow s (anvil s p i) w (·.w) = some m → inWindowStep (anvil s p i) w m = false) :
    opStore p i w s = sandboxFault 1 p i s := by
  unfold opStore
  dsimp only
  split
  · rfl
  · rename_i m window
    exact if_pos (by rw [← inWindowStep, outside m window]; rfl)

theorem opStore_waits (window : stepWindow s (anvil s p i) w (·.w) = some m) (inside : inWindowStep (anvil s p i) w m = true)
    (waits : linesWait (anvil s p i) (stCount w) = true) : opStore p i w s = waitFor .waitMem p i s := by
  rw [inWindowStep] at inside
  simp only [opStore, window, inside, waits, Bool.not_true, Bool.false_eq_true, if_false, if_true]

theorem anvil_opStore (window : stepWindow s (anvil s p i) w (·.w) = some m) (inside : inWindowStep (anvil s p i) w m = true)
    (goes : linesWait (anvil s p i) (stCount w) = false) :
    anvil (opStore p i w s) p i = stepped 1 { anvil s p i with
      outst := (anvil s p i).outst ++ if stCount w = 0 then [] else
       [{ isStore := true, src := stB w, addr := windowAddr m w + addUnits (anvil s p i) w, lines := stCount w
          poison := padPoisoned (anvil s p i) (stB w) (64 * stCount w)
          bytes := localBytes (anvil s p i) (ptn s p).cycles (stB w) (64 * stCount w) }] } := by
  rw [inWindowStep] at inside
  simp only [opStore, window, inside, goes, Bool.not_true, Bool.false_eq_true, if_false, anvil_stepDone, outst_append_if]

end Windows

/-! #### ATOMIC (R65, R213, R214) -/

section Atomic

variable {p i : Nat} {w : W128} {s : State} {m : MWin} {es : List (Nat × Nat × Nat × Nat)}

/-- The elements of an ATOMIC step: offset, operand and place (R65). -/
def atomElems (a : Anvil) (w : W128) : List (Nat × Nat × Nat) :=
  (upto (stCount w)).map fun j => (padNat a (stA w + 16 * j) 8, padNat a (stA w + 16 * j + 8) 8, j)

/-- The lines of the elements, or the place of their old values, are not free yet (R59). -/
def atomsWait (a : Anvil) (w : W128) (n : Nat) : Bool := linesWait a n || bit (stParam w) 0 && storing a (stDest w) (8 * stCount w)

/-- The request that an element sends to the crucible of its window (R213, R214). -/
def atomRequest (s : State) (p i : Nat) (m : MWin) (w : W128) (e : Nat × Nat × Nat × Nat) : AtomReq :=
  { code := bits (stParam w) 23 16, addr := atomTarget m w e, operand := BitVec.ofNat 64 e.2.1, second := BitVec.ofNat 64 e.2.2.1
    ctx := anvCtx s (anvil s p i), ret := if bit (stParam w) 0 then some (p, i, stDest w + 8 * e.2.2.2) else none, from_ := some (p, i) }

/-- What an element leaves outstanding. -/
def atomOutstanding (m : MWin) (w : W128) (e : Nat × Nat × Nat × Nat) : Outst :=
  { isAtom := true, addr := atomTarget m w e, dest := if bit (stParam w) 0 then stDest w + 8 * e.2.2.2 else 0x10000 }

theorem opAtomic_of_allowed (window : stepWindow s (anvil s p i) w (·.a) = some m)
    (pairs : atomPairs (bits (stParam w) 23 16) (atomElems (anvil s p i) w) = some es)
    (defined : atomicDefined (bits (stParam w) 23 16) = true) (ok : es.all (atomOk m w) = true) :
    opAtomic p i w s = if atomsWait (anvil s p i) w es.length then waitFor .waitMem p i s
      else stepDone 1 p i (updAnvil p i (fun a => { a with outst := a.outst ++ es.map (atomOutstanding m w) })
        (updPtn m.ptn (fun x => { x with atomQ := x.atomQ ++ es.map (atomRequest s p i m w) }) s)) := by
  rw [atomElems] at pairs
  simp only [opAtomic, window, pairs, defined, Bool.not_true, Bool.false_or]
  refine (if_neg ?_).trans rfl
  rw [List.any_eq_true]
  rintro ⟨e, listed, bad⟩
  have good := List.all_eq_true.mp ok e listed
  simp only [atomOk, atomTarget, Bool.and_eq_true, Bool.not_eq_true', beq_iff_eq] at good
  obtain ⟨⟨⟨operand, aligned⟩, target⟩, base⟩ := good
  simp [operand, aligned, target, base] at bad

/-- An ATOMIC that goes queues its elements at the crucible of its window and has each outstanding (R65, R213). -/
theorem opAtomic_issues (window : stepWindow s (anvil s p i) w (·.a) = some m)
    (pairs : atomPairs (bits (stParam w) 23 16) (atomElems (anvil s p i) w) = some es)
    (defined : atomicDefined (bits (stParam w) 23 16) = true) (ok : es.all (atomOk m w) = true)
    (goes : atomsWait (anvil s p i) w es.length = false) :
    (ptn (opAtomic p i w s) m.ptn).atomQ = (ptn s m.ptn).atomQ ++ es.map (atomRequest s p i m w) ∧
    anvil (opAtomic p i w s) p i = stepped 1 { anvil s p i with outst := (anvil s p i).outst ++ es.map (atomOutstanding m w) } := by
  rw [opAtomic_of_allowed window pairs defined ok, if_neg (Bool.eq_false_iff.mp goes)]
  constructor
  · rw [((anvilsOnly_updAnvil ..).trans (anvilsOnly_stepDone ..)).ptn_eq (·.atomQ) (fun _ => rfl), ptn_updPtn_same]
  · rw [anvil_stepDone, anvil_updAnvil_same, anvil_updPtn]
    exact fun _ => rfl

theorem atomRequest_afterRead (sp : SpRead) : atomRequest (afterRead sp p i s) p i m w = atomRequest s p i m w := by
  have ctx : anvCtx (afterRead sp p i s) (anvil (afterRead sp p i s) p i) = anvCtx s (anvil s p i) := by
    rw [anvil_afterRead, (anvilsOnly_afterRead ..).frame]
    rfl
  funext e
  rw [atomRequest, ctx]
  rfl

/-- An element that its window or the rules of its code refuse ends the step in a fault (R65, R76). -/
theorem opAtomic_refused (refused : atomsOk s (anvil s p i) w = false) : opAtomic p i w s = sandboxFault 1 p i s := by
  unfold opAtomic
  dsimp only
  split
  · rename_i m es window pairs
    rw [atomsOk, window, pairs] at refused
    refine if_pos ?_
    cases defined : atomicDefined (bits (stParam w) 23 16) with
    | false => rfl
    | true =>
      simp only [defined, Bool.true_and] at refused
      obtain ⟨e, listed, bad⟩ := List.all_eq_false.mp refused
      refine List.any_eq_true.mpr ⟨e, listed, ?_⟩
      simp only [atomOk, atomTarget, Bool.and_eq_true, Bool.not_eq_true', beq_iff_eq, not_and_or, Bool.not_eq_false] at bad
      simp only [Bool.or_eq_true, Bool.not_eq_true', bne_iff_ne, or_assoc]
      simpa [or_assoc] using bad
  · rfl

end Atomic

/-! #### MOVE, TILECLR, landing (R56, R59) -/

theorem anvil_opMove (p i : Nat) (w : W128) (s : State) : anvil (opMove p i w s) p i = stepped (ceilDiv (stCount w) 8)
    ((upto (stCount w)).foldl (fun b j => padWrite (stDest w + 16 * j) (localBytes b (ptn s p).cycles (stA w + 16 * j) 16) b) (anvil s p i)) := by
  rw [opMove]
  exact (anvil_stepDone ..).trans (congrArg _ (anvil_updAnvil_same ..))

theorem anvil_opTileclr (p i : Nat) (w : W128) (s : State) : anvil (opTileclr p i w s) p i = stepped (24 * (bitsOf 4 (stParam w)).length)
    { anvil s p i with local_ := (anvil s p i).local_.filter fun c =>
        !((bitsOf 4 (stParam w)).any fun r => decide (768 + 48 * r ≤ c.1) && decide (c.1 < 768 + 48 * (r + 1))) } := by
  rw [opTileclr]
  exact (anvil_stepDone ..).trans (congrArg _ (anvil_updAnvil_same ..))

/-- A served fetch lands once every earlier fetch into its granules has (R59). -/
theorem landFetch_lands {p i k : Nat} {o : Outst} {s : State} (found : (anvil s p i).outst[k]? = some o) (served : o.served = true)
    (fetch : o.isStore = false) (plain : o.isAtom = false) (first : earlierFetch (anvil s p i) k o = false) :
    landFetch p i k s = updAnvil p i
      (fun a => landBytes o.dest o.bytes (fun off => o.badLines.contains (off / 64)) { a with outst := a.outst.eraseIdx k }) s := by
  simp only [landFetch, found, served, fetch, plain, first, Bool.not_false, Bool.and_self, if_true]

/-! #### The rows -/

/-- Settles O24: a binding starts from its first command; a memory step runs once its ranges have landed, in a state that differs in its own
anvil's error count. -/
theorem anvilMemorySteps : Obligations.AnvilMemorySteps := by
  refine ⟨fun p a n ls k s lead may nothing known => ?_, fun p a n ls k d s lead may first pattern same => ?_,
    fun p a w s met idle => ?_, fun p a w s d i met current slice fits waits => ?_, fun p a w s d i met current slice fits goes => ?_,
    fun p a w s d i met current slice large => ?_, fun p a w s sp e m met read good landed window inside goes => ?_,
    fun p a w s sp m met read landed window inside waits => ?_, fun p a w s sp met read landed outside => ?_,
    fun p a w s sp m met good landed window inside waits => ?_, fun p a w s sp m met good landed window inside goes => ?_,
    fun p a w s sp met clean landed outside => ?_, fun p a w s sp m es met good landed window pairs defined ok goes => ?_,
    fun p a w s sp m es met good landed window pairs defined ok waits => ?_, fun p a w s sp met clean landed refused => ?_,
    fun p a w s sp met good clear => ?_, fun p a w s met => ?_, fun p a i o s found served fetch plain first => ?_⟩
  · refine ⟨_, congrArg Host.Outcome.next (bindLanes_of_nothing lead may nothing), ?_⟩
    obtain ⟨st, pattern, lanes, sel, nancnt, laneNan, floors⟩ := bindAnvil_starts (p := p) (i := a) (n := n) none lead
    exact ⟨st, pattern, lanes, step_bindAnvil none lead known, sel, nancnt, laneNan, floors, local_bindAnvil none lead,
      fun l lane => laneCap_bindAnvil none lead lane⟩
  · obtain ⟨k', lead'⟩ := lead_of_sameLanes lead (lanesFit_of_mayBind may) same
    obtain ⟨st, bound, lanes, sel, -⟩ := bindAnvil_starts (p := p) (i := a) (n := d.2.pattern) none lead'
    exact ⟨_, congrArg Host.Outcome.next (bindLanes_of_desc lead may first pattern same), rfl, st, bound.trans pattern, lanes, sel⟩
  · exact ⟨_, next_runOp _ met, (congrArg (anvil · _ _) (opFetchb_of_none idle)).trans (anvil_stepDone ..)⟩
  · subst slice
    exact ⟨_, next_runOp _ met, (congrArg (anvil · _ _) (opFetchb_waits current fits waits)).trans (anvil_waitFor ..)⟩
  · subst slice
    refine ⟨_, next_runOp _ met, ?_⟩
    have issued : ∀ c, anvil (stepDone 1 p a (spend c (fetchbIssued p a w d s))) p a = stepped 1 (anvil (fetchbIssued p a w d s) p a) :=
      fun c => anvil_stepDone ..
    rw [opFetchb_issues current fits goes, issued, anvil_fetchbIssued, (anvilsOnly_stepDone ..).ptn_eq (·.hot) (fun _ => rfl)]
    exact ⟨rfl, rfl, rfl, hot_fetchbIssued⟩
  · subst slice
    exact ⟨_, next_runOp _ met, opFetchb_too_large current large⟩
  · subst read
    refine ⟨_, next_readingOp _ met good landed, ?_⟩
    rw [anvil_opFetchw ((stepWindow_afterRead ..).trans window) (by rw [anvil_afterRead]; exact inside) (by rw [anvil_afterRead]; exact goes),
      anvil_afterRead]
    rfl
  · exact ⟨_, next_readingOp_clean _ met read landed, (congrArg (anvil · _ _) (opFetchw_waits window inside waits)).trans (anvil_waitFor ..)⟩
  · exact (next_readingOp_clean _ met read landed).trans (congrArg _ (opFetchw_outside outside))
  · refine ⟨_, next_readingOp _ met good landed, ?_⟩
    rw [opStore_waits ((stepWindow_afterRead ..).trans window) (by rw [anvil_afterRead]; exact inside) (by rw [anvil_afterRead]; exact waits),
      anvil_waitFor, anvil_afterRead]
  · refine ⟨_, next_readingOp _ met good landed, ?_⟩
    rw [anvil_opStore ((stepWindow_afterRead ..).trans window) (by rw [anvil_afterRead]; exact inside) (by rw [anvil_afterRead]; exact goes),
      anvil_afterRead, (anvilsOnly_afterRead ..).ptn_eq (·.cycles) (fun _ => rfl)]
    rfl
  · exact (next_readingOp_clean _ met clean landed).trans (congrArg _ (opStore_outside outside))
  · refine ⟨_, next_readingOp _ met good landed, ?_⟩
    obtain ⟨queued, after⟩ := opAtomic_issues ((stepWindow_afterRead sp p a s w (·.a)).trans window) (es := es)
      (by rw [anvil_afterRead]; exact pairs) defined ok (by rw [anvil_afterRead]; exact goes)
    rw [queued, after, atomRequest_afterRead, anvil_afterRead, (anvilsOnly_afterRead ..).ptn_eq (·.atomQ) (fun _ => rfl)]
    exact ⟨rfl, by simp [stepped, counted], rfl⟩
  · refine ⟨_, next_readingOp _ met good landed, ?_⟩
    rw [opAtomic_of_allowed ((stepWindow_afterRead ..).trans window) (es := es) (by rw [anvil_afterRead]; exact pairs) defined ok,
      if_pos (by rw [anvil_afterRead]; exact waits), anvil_waitFor, anvil_afterRead]
  · exact (next_readingOp_clean _ met clean landed).trans (congrArg _ (opAtomic_refused refused))
  · refine ⟨_, readingOp_afterRead _ met good clear, ?_⟩
    rw [anvil_opMove, anvil_afterRead, (anvilsOnly_afterRead ..).ptn_eq (·.cycles) (fun _ => rfl)]
  · exact ⟨_, next_runOp _ met, anvil_opTileclr ..⟩
  · exact ⟨_, congrArg Host.Outcome.next (landFetch_lands found served fetch plain first), anvil_updAnvil_same ..⟩

end Sys2Proof.Machine

/-! ### Offers to the selector (R70): the entry that an admission to a full lane gives up, what SELECT offers -/

namespace Sys2Proof.Machine

/-- Of the entries with the lowest score, an eviction takes the one admitted last (R70). -/
theorem evict_of_last_lowest {l x y : List Entry} {m : Entry} (entries : l = x ++ m :: y) (least : fEq m.score (lowest l) = true)
    (last : y.all (fun z => !fEq z.score (lowest l)) = true) : evict l = x ++ y := by
  have newest : l.reverse = y.reverse ++ m :: x.reverse := by simp [entries]
  have none_before : y.reverse.findIdx? (fun e => fEq e.score (lowest l)) = none := by
    simpa [List.findIdx?_eq_none_iff] using last
  have place : l.reverse.findIdx? (fun e => fEq e.score (lowest l)) = some y.reverse.length := by
    rw [newest, List.findIdx?_append, none_before, List.findIdx?_cons, least]
    simp
  unfold evict
  dsimp only
  rw [place, newest]
  simp [List.eraseIdx_append_of_length_le]

/-- What a listed pattern offers a lane: the scores at A with the keys at B (R70). -/
theorem laneOffers_of_listed {s : State} {p : Nat} {a : Anvil} {d : Desc} {w : W128} {l : Nat} {q : LaneReq} {x : Cmd} {r : QRow}
    (known : listed a = true) (lane : a.lanes[l]? = some q) (cmd : laneCmd s q = some x) (row : laneRow s q = some r) :
    laneOffers s p a d w l = ((upto 64).filter fun i => stParam w % 2 == 0 || bit a.live.toNat i).map fun i =>
      slotEntry s p d (BitVec.ofNat 64 (padNat a (stB w + 8 * i) 8)) (BitVec.ofNat 32 (padNat a (stA w + 4 * (64 * l + i)) 4)) i := by
  simp only [laneOffers, lane, cmd, row, known, if_true]

/-- Settles O26: an offer falls to the first of its cases that applies, and an admission to a full lane evicts first. -/
theorem selectorOffers : Obligations.SelectorOffers := by
  refine ⟨fun l e a lane nan => offer_of_nan lane nan, fun l e a number low => offer_of_not_above number low,
    fun l e a absent => offer_of_no_lane e absent, fun l e a lane _ above room => ?_,
    fun l e m x y a lane _ above full entries least last => ?_,
    fun s p a d w l q x r known lane cmd row => laneOffers_of_listed known lane cmd row⟩
  · rw [offer_of_above lane above, if_neg (Nat.not_le.mpr room)]
  · rw [offer_of_above lane above, if_pos full, evict_of_last_lowest entries least last]

end Sys2Proof.Machine

/-! ### Mailbox requests that are served (R309, R310): what the handler leaves, and what the response leaves of it -/

namespace Sys2Proof.Machine

@[simp] theorem postWrite_host_cache (w : HostWrite) (s : State) : (postWrite w s).host.cache = s.host.cache := by
  simp only [postWrite, enterWrite]
  (repeat' split) <;> rfl

@[simp] theorem answerMbx_host_cache (m : Nat) (q : Req) (r : Rsp) (s : State) : (answerMbx m q r s).host.cache = s.host.cache := by
  unfold answerMbx sendVec
  dsimp only
  (repeat' split) <;> simp [updVec]

/-- From u to t a mailbox is answered: what a handler wrote of the other objects stands (R309). -/
structure AnswerOnly (u t : State) : Prop where
  rings : t.host.rings = u.host.rings
  apertures : t.host.apertures = u.host.apertures
  cache : t.host.cache = u.host.cache
  ptns : t.ptns = u.ptns
  jobs : t.jobs = u.jobs
  ctxs : t.ctxs = u.ctxs
  colls : t.colls = u.colls

theorem answerOnly_answerMbx (m : Nat) (q : Req) (r : Rsp) (u : State) : AnswerOnly u (answerMbx m q r u) :=
  ⟨by simp, by simp, by simp, by simp, by simp, by simp, by simp⟩

theorem AnswerOnly.ring_eq {u t : State} (h : AnswerOnly u t) (r : Nat) : ring t r = ring u r := by
  unfold ring
  rw [h.rings]

theorem AnswerOnly.ringExists_eq {u t : State} (h : AnswerOnly u t) (r : Nat) : ringExists t r = ringExists u r := by
  unfold ringExists
  rw [h.rings]

section Served

variable {m : Fin 4} {op : Nat} {q : Req} {s u : State} {h : Handler} {reply : ReadReply}

/-- A request that is served and done has its response at once (R309). -/
theorem mailbox_done {st : MStatus} {bs : List Byte} {dt : Nat} (serves : served m op q s = true)
    (ran : h m q reply s = (u, .done st bs dt)) :
    ∃ t, (.next (mailbox m.val op anyForm h reply s) : Host.Outcome State Fault Refusal) = .next t ∧
      Answered t m q { status := st, bytes := bs, detail := dt } ∧ AnswerOnly u t := by
  refine ⟨answerMbx m q { status := st, bytes := bs, detail := dt } u, ?_, answered_answerMbx .., answerOnly_answerMbx ..⟩
  rw [mailbox, served_runs _ _ h reply serves rfl, ran]
  rfl

/-- A request that goes on has a ticket for its work, where fewer than 64 are open (R310). -/
theorem mailbox_busy {w : Work} (serves : served m op q s = true) (room : (openTickets s).length < 64)
    (ran : h m q reply s = (u, .busy w)) :
    ∃ t, (.next (mailbox m.val op anyForm h reply s) : Host.Outcome State Fault Refusal) = .next t ∧ Ticketed s t m q w ∧ AnswerOnly u t := by
  obtain ⟨ticketed, v, r, answer, noted⟩ := ticketed_settle (m := m) (q := q) (u := u) w room
  refine ⟨_, congrArg Host.Outcome.next ((served_runs _ _ h reply serves rfl).trans (congrArg _ ran)), ticketed, ?_⟩
  have kept := answerOnly_answerMbx m q r v
  rw [answer]
  rw [noted] at kept ⊢
  exact ⟨kept.rings, kept.apertures, kept.cache, kept.ptns, kept.jobs, kept.ctxs, kept.colls⟩

end Served

theorem guardM_of {ok : Bool} {st : MStatus} {s : State} {k : State × Res} (holds : ok = true) : guardM ok st s k = k := if_pos holds

theorem updCtx_of_some {s : State} {c : Nat} {x : Ctx} (f : Ctx → Ctx) (found : ctx? s c = some x) :
    updCtx c f s = { s with ctxs := tset s.ctxs c (f x) } := by
  simp only [updCtx, found]

end Sys2Proof.Machine

/-! ### Rings, windows, apertures and journals by mailbox (R75, R180, R266, R269, R270, R273, R274, R315) -/

namespace Sys2Proof.Machine

/-! #### Rings -/

section Rings

variable {m : Nat} {q : Req} {reply : ReadReply} {s : State}

/-- The ring of a RING_CREATE request (R270). -/
def reqRing (q : Req) : Ring :=
  { ctx := qf q 2 2, size := qf q 4 4, sqBase := BitVec.ofNat 64 (qf q 8 8), cqBase := BitVec.ofNat 64 (qf q 16 8)
    vector := qf q 24 2, ccount := qf q 26 1, ctime := qf q 28 2, st := .running }

theorem doRingCreate_creates (good : ringBad s m q = false) :
    doRingCreate m q reply s = (setRing (qf q 0 2) (reqRing q) s, .done .ok [] 0) := guardM_of (by simp [good])

theorem ringLive_of_cmds {s t : State} (cmds : t.cmds = s.cmds) (r : Nat) : ringLive t r = ringLive s r := by
  unfold ringLive cmdsOf
  rw [cmds]

/-- A ring that drains: what its head command holds goes back, its fetched entries are dropped (R273, R294). -/
def drained (r : Nat) (s : State) : State := updRing r (fun x => { x with st := .draining, fetched := [] }) (releaseHeld r s)

theorem doRingDestroy_of (shape : shaped q 2 [] = true) (present : ringExists s (qf q 0 2) = true) (fresh : (ring s (qf q 0 2)).st ≠ .draining) :
    doRingDestroy m q reply s = if (ringLive s (qf q 0 2)).isEmpty then (removeRing (qf q 0 2) (drained (qf q 0 2) s), .done .ok [] 0)
      else (drained (qf q 0 2) s, .busy (.ringDestroy (qf q 0 2))) := by
  have cmds : (drained (qf q 0 2) s).cmds = s.cmds := (k_releaseHeld (within_self _) (qf q 0 2) (Keeps.refl _ s)).same_cmds
  rw [← ringLive_of_cmds cmds]
  exact guardM_of (by simp [shape, present, fresh])

theorem doRingState_of (shape : shaped q 3 [] = true) (present : ringExists s (qf q 0 2) = true) (fresh : (ring s (qf q 0 2)).st ≠ .draining)
    (choice : qf q 2 1 ≤ 1) :
    doRingState m q reply s =
      if qf q 2 1 = 1 then (updRing (qf q 0 2) (fun x => { x with st := .running }) s, .done .ok [] 0)
      else if (ring s (qf q 0 2)).st = .disabled then (s, .done .ok [] 0)
      else if (ringLive s (qf q 0 2)).isEmpty then (updRing (qf q 0 2) (fun x => { x with st := .disabled }) s, .done .ok [] 0)
      else (updRing (qf q 0 2) (fun x => { x with stopping := true }) s, .busy (.ringDisable (qf q 0 2))) :=
  guardM_of (by simp [shape, present, fresh, choice])

theorem doRingState_enables (shape : shaped q 3 [] = true) (present : ringExists s (qf q 0 2) = true)
    (fresh : (ring s (qf q 0 2)).st ≠ .draining) (on : qf q 2 1 = 1) :
    doRingState m q reply s = (updRing (qf q 0 2) (fun x => { x with st := .running }) s, .done .ok [] 0) :=
  (doRingState_of shape present fresh on.le).trans (if_pos on)

/-- A request to disable a ring that runs, or is in ERROR, asks for its live commands (R274). -/
theorem doRingState_stops (shape : shaped q 3 [] = true) (present : ringExists s (qf q 0 2) = true)
    (works : (ring s (qf q 0 2)).st = .running ∨ (ring s (qf q 0 2)).st = .error) (off : qf q 2 1 = 0) :
    doRingState m q reply s =
      if (ringLive s (qf q 0 2)).isEmpty then (updRing (qf q 0 2) (fun x => { x with st := .disabled }) s, .done .ok [] 0)
      else (updRing (qf q 0 2) (fun x => { x with stopping := true }) s, .busy (.ringDisable (qf q 0 2))) := by
  have states : (ring s (qf q 0 2)).st ≠ .draining ∧ (ring s (qf q 0 2)).st ≠ .disabled := by rcases works with h | h <;> simp [h]
  rw [doRingState_of shape present states.1 (by omega), if_neg (by omega), if_neg states.2]

theorem doRingState_leaves (shape : shaped q 3 [] = true) (present : ringExists s (qf q 0 2) = true)
    (disabled : (ring s (qf q 0 2)).st = .disabled) (off : qf q 2 1 = 0) : doRingState m q reply s = (s, .done .ok [] 0) := by
  rw [doRingState_of shape present (by simp [disabled]) (by omega), if_neg (by omega), if_pos disabled]

end Rings

/-! #### Host windows and apertures -/

section Windows

variable {m : Nat} {q : Req} {reply : ReadReply} {s : State} {x : Ctx}

/-- The host windows of a context after a HWIN_SET request (R269). -/
def reqHwins (q : Req) (x : Ctx) : Tbl HWin :=
  if qf q 3 1 = 0 then tdel x.hwins (qf q 2 1)
  else tset x.hwins (qf q 2 1) { base := qf q 8 8, len := qf q 16 8, r := bit (qf q 3 1) 0, w := bit (qf q 3 1) 1 }

theorem doHwinSet_sets (shape : shaped q 24 [(4, 4)] = true) (found : ctx? s (qf q 0 2) = some x) (window : qf q 2 1 ≤ 7) (rights : qf q 3 1 ≤ 3)
    (base : qf q 8 8 % 4096 = 0) (len : qf q 16 8 % 4096 = 0) (named : m ≠ 3 ∨ qf q 8 8 = 0)
    (covers : windowsCover { s with ctxs := tset s.ctxs (qf q 0 2) { x with hwins := reqHwins q x } } (qf q 0 2) = true) :
    doHwinSet m q reply s = ({ s with ctxs := tset s.ctxs (qf q 0 2) { x with hwins := reqHwins q x } }, .done .ok [] 0) := by
  have set := updCtx_of_some (fun x => { x with hwins := reqHwins q x }) found
  rw [← set] at covers ⊢
  exact guardM_of (by simpa [reqHwins, shape, found, window, rights, base, len] using And.intro covers named)

/-- The aperture numbers of an HDM_MAP request (R266). -/
def reqApertures (q : Req) : List Nat := (upto (qf q 6 2)).map (qf q 4 2 + ·)

theorem mem_reqApertures {a : Nat} : a ∈ reqApertures q ↔ qf q 4 2 ≤ a ∧ a < qf q 4 2 + qf q 6 2 := by
  simp only [reqApertures, List.mem_map, mem_upto]
  constructor
  · rintro ⟨i, inside, rfl⟩
    omega
  · rintro ⟨low, high⟩
    exact ⟨a - qf q 4 2, by omega, by omega⟩

/-- What an HDM_MAP request must satisfy (R266). -/
structure HdmFits (s : State) (q : Req) : Prop where
  shape : shaped q 8 [] = true
  low : 96 ≤ qf q 4 2
  some : 1 ≤ qf q 6 2
  high : qf q 4 2 + qf q 6 2 ≤ 4096
  member : (ctxPtns s (qf q 0 2)).contains (qf q 3 1) = true

theorem HdmFits.ok (fits : HdmFits s q) (choice : qf q 2 1 ≤ 1) :
    ¬(!(shaped q 8 [] && qf q 2 1 ≤ 1 && qf q 4 2 ≥ 96 && qf q 6 2 ≥ 1 && decide (qf q 4 2 + qf q 6 2 ≤ 4096) &&
      (ctxPtns s (qf q 0 2)).contains (qf q 3 1))) = true := by
  obtain ⟨shape, low, some, high, member⟩ := fits
  rw [shape, decide_eq_true choice, decide_eq_true low, decide_eq_true some, decide_eq_true high, member]
  decide

theorem doHdmMap_maps (fits : HdmFits s q) (maps : qf q 2 1 = 0)
    (free : ((reqApertures q).any fun a => (tget s.host.apertures a).isSome) = false)
    (room : (lowestFree s (qf q 3 1) (qf q 6 2)).length = qf q 6 2) :
    ∃ u, doHdmMap m q reply s = (u, .done .ok (leBytes 8 (qf q 4 2 * 2 ^ 24)) 0) ∧
      u.host.apertures = ((reqApertures q).zip (lowestFree s (qf q 3 1) (qf q 6 2))).foldl
        (fun t a => tset t a.1 { ctx := qf q 0 2, ptn := qf q 3 1, region := a.2 }) s.host.apertures :=
  ⟨_, (if_neg (fits.ok (by omega))).trans ((if_pos maps).trans ((if_neg (Bool.eq_false_iff.mp free)).trans (if_neg room.not_lt))), rfl⟩

theorem tget_foldl_tdel {α : Type} (l : List Nat) (t : Tbl α) {a : Nat} (gone : a ∈ l ∨ tget t a = none) : tget (l.foldl tdel t) a = none := by
  induction l generalizing t with
  | nil => exact gone.resolve_left List.not_mem_nil
  | cons b l ih =>
    refine ih _ ?_
    by_cases same : a = b
    · exact .inr (same ▸ tget_tdel_same t b)
    · rw [tget_tdel_other t same]
      exact gone.imp (fun h => (List.mem_cons.mp h).resolve_left same) id

theorem doHdmMap_unmaps (fits : HdmFits s q) (unmaps : qf q 2 1 = 1)
    (own : ((reqApertures q).all fun a => (tget s.host.apertures a).any fun k => k.ctx == qf q 0 2) = true) :
    ∃ u, doHdmMap m q reply s = (u, .done .ok (leBytes 8 (qf q 4 2 * 2 ^ 24)) 0) ∧
      u.host.apertures = (reqApertures q).foldl tdel s.host.apertures := by
  have foreign : ¬((reqApertures q).any fun a => !((tget s.host.apertures a).any fun k => k.ctx == qf q 0 2)) = true := by
    rw [List.any_eq_not_all_not]
    simp [own]
  exact ⟨_, (if_neg (fits.ok unmaps.le)).trans ((if_neg (by omega)).trans (if_neg foreign)),
    congrArg HostIf.apertures (k_leaveApertures (within_self _) _ (Keeps.refl _ _)).same_host⟩

end Windows

/-! #### Memory windows and journals -/

section Objects

variable {m : Nat} {q : Req} {reply : ReadReply} {s : State} {x : Ctx}

/-- The memory window of a MWIN_SET request over regions from g on (R75). -/
def reqMWin (q : Req) (g : Nat) : MWin :=
  { ptn := qf q 4 1, region := g, regions := qf q 6 2, r := bit (qf q 3 1) 0, w := bit (qf q 3 1) 1, a := bit (qf q 3 1) 2 }

/-- A memory window under a number not held takes the lowest run of free regions (R75; log 30). -/
theorem doMwinSet_sets {g : Nat} (found : ctx? s (qf q 0 2) = some x) (fresh : tget x.mwins (qf q 2 1) = none) (shape : shaped q 8 [(5, 1)] = true)
    (number : qf q 2 1 ≤ 15) (rights : qf q 3 1 ≤ 7) (set : qf q 3 1 ≠ 0) (member : (jobPtns s x.job).contains (qf q 4 1) = true)
    (some : 1 ≤ qf q 6 2) (many : qf q 6 2 ≤ 256) (run : regionRun s (qf q 4 1) (qf q 6 2) = .some g) :
    ∃ u, doMwinSet m q reply s = (updCtx (qf q 0 2) (fun x => { x with mwins := tset x.mwins (qf q 2 1) (reqMWin q g) }) u,
      .done .ok (leBytes 8 (regionBase (qf q 4 1) g)) 0) ∧ u.ctxs = s.ctxs := by
  have shaped_ok : ¬(!shaped q 8 [(5, 1)] || qf q 2 1 > 15 || qf q 3 1 > 7) = true := by
    simp [shape, number, rights]
  have place_ok : ¬(!(jobPtns s x.job).contains (qf q 4 1) || qf q 6 2 == 0 || qf q 6 2 > 256) = true := by
    rw [member]
    simp [many]
    omega
  simp only [doMwinSet, found, fresh, if_neg shaped_ok, if_neg set, if_neg place_ok, run]
  exact ⟨_, rfl, rfl⟩

/-- Rights of 0 clear a window; one not held stays away (R75). -/
theorem doMwinSet_clears (found : ctx? s (qf q 0 2) = some x) (shape : shaped q 8 [(5, 1)] = true) (number : qf q 2 1 ≤ 15) (clear : qf q 3 1 = 0) :
    ∃ u y, doMwinSet m q reply s = (u, .done .ok (leBytes 8 0) 0) ∧ ctx? u (qf q 0 2) = some y ∧ tget y.mwins (qf q 2 1) = none := by
  have shaped_ok : ¬(!shaped q 8 [(5, 1)] || qf q 2 1 > 15 || qf q 3 1 > 7) = true := by
    simp [shape, number, clear]
  simp only [doMwinSet, found, if_neg shaped_ok, if_pos clear]
  cases held : tget x.mwins (qf q 2 1) with
  | none => exact ⟨s, x, rfl, found, held⟩
  | some o =>
    refine ⟨_, { x with mwins := tdel x.mwins (qf q 2 1) }, rfl, ?_, tget_tdel_same ..⟩
    rw [ctx_of _ (k_freeWindow (within_self _) o (Keeps.refl _ _)).same_ctxs, ctx_updCtx_same, found]
    rfl

theorem doJournalSet_clears (shape : shaped q 20 [(2, 6)] = true) (found : ctx? s (qf q 0 2) = some x) (quiet : journalBusy s (qf q 0 2) = false)
    (named : m ≠ 3 ∨ qf q 8 8 = 0) (clear : qf q 16 4 = 0) :
    doJournalSet m q reply s = (updCtx (qf q 0 2) (fun x => { x with journal := none }) s, .done .ok [] 0) :=
  (guardM_of (by simp [shape, found, quiet, named, clear])).trans (if_pos clear)

/-- The journal of a JOURNAL_SET request: RELEASED is still to be read (R180). -/
def reqJournal (q : Req) : Journal := { base := BitVec.ofNat 64 (qf q 8 8), size := qf q 16 4, unread := true }

theorem doJournalSet_sets (shape : shaped q 20 [(2, 6)] = true) (found : ctx? s (qf q 0 2) = some x) (quiet : journalBusy s (qf q 0 2) = false)
    (named : m ≠ 3 ∨ qf q 8 8 = 0) (size : qf q 16 4 ≥ 65536) (base : qf q 8 8 % 4096 = 0) (whole : qf q 16 4 % 4096 = 0)
    (inside : inWindow s (qf q 0 2) (qf q 8 8) (qf q 16 4) true true = true) (usable : cacheUsable s = true) :
    doJournalSet m q reply s = (journalWrite (reqJournal q) 8 (leBytes 8 64)
      (updCtx (qf q 0 2) (fun x => { x with journal := some (reqJournal q) }) s), .done .ok [] 0) :=
  (guardM_of (by simp [shape, found, quiet, named, size, base, whole, inside, usable])).trans (if_neg (by omega))

/-- A journal's control line goes out over CXL.cache where that is usable (R180, R264). -/
theorem journalWrite_of_usable (j : Journal) (off : Nat) (bs : List Byte) (usable : cacheUsable s = true) :
    journalWrite j off bs s = updHost (fun h => { h with cache := h.cache ++ [{ kind := .data, addr := j.base + BitVec.ofNat 64 off, bytes := bs }] }) s :=
  if_neg (by simp [usable])

end Objects

/-! #### The rows -/

/-- Settles O17: a served request is answered with what its handler returns, and the response leaves what the handler wrote. -/
theorem mailboxRings : Obligations.MailboxRings := by
  refine ⟨fun s m q serves good => ?_, fun s m q serves shape present fresh idle => ?_,
    fun s m q serves room shape present fresh live => ?_, fun s m q serves shape present fresh on => ?_,
    fun s m q serves shape present works off idle => ?_, fun s m q serves room shape present works off live => ?_,
    fun s m q serves shape present disabled off => ?_,
    fun s m q x hw serves shape found window rights base len named windows covers => ?_,
    fun s m q rs serves shape maps low some high member regions free room => ?_,
    fun s m q serves shape unmaps low some high member own => ?_,
    fun s m q x g serves found fresh shape number rights set member some many run => ?_,
    fun s m q x serves found shape number clear => ?_, fun s m q x serves shape found quiet named clear => ?_,
    fun s m q x serves shape found quiet named size base whole inside usable => ?_⟩
  · obtain ⟨t, runs, answered, only⟩ := mailbox_done (reply := .timeout) serves (doRingCreate_creates good)
    refine ⟨t, runs, answered, (only.ring_eq _).trans (ring_setRing_same ..), ?_, fun r other =>
      (only.ring_eq r).trans (ring_setRing_other _ s other)⟩
    rw [only.ringExists_eq]
    simp [ringExists, setRing]
  · obtain ⟨t, runs, answered, only⟩ := mailbox_done (reply := .timeout) serves
      ((doRingDestroy_of shape present fresh).trans (if_pos (by simp [idle])))
    refine ⟨t, runs, answered, ?_⟩
    rw [only.ringExists_eq]
    simp [ringExists, removeRing]
  · obtain ⟨t, runs, ticketed, only⟩ := mailbox_busy (reply := .timeout) serves room
      ((doRingDestroy_of shape present fresh).trans (if_neg (by simpa using live)))
    refine ⟨t, runs, ticketed, ?_⟩
    rw [only.ring_eq, drained, ring_updRing_same]
    exact ⟨rfl, rfl⟩
  · obtain ⟨t, runs, answered, only⟩ := mailbox_done (reply := .timeout) serves (doRingState_enables shape present fresh on)
    exact ⟨t, runs, answered, (only.ring_eq _).trans (ring_updRing_same ..)⟩
  · obtain ⟨t, runs, answered, only⟩ := mailbox_done (reply := .timeout) serves
      ((doRingState_stops shape present works off).trans (if_pos (by simp [idle])))
    exact ⟨t, runs, answered, (only.ring_eq _).trans (ring_updRing_same ..)⟩
  · obtain ⟨t, runs, ticketed, only⟩ := mailbox_busy (reply := .timeout) serves room
      ((doRingState_stops shape present works off).trans (if_neg (by simpa using live)))
    exact ⟨t, runs, ticketed, (only.ring_eq _).trans (ring_updRing_same ..)⟩
  · obtain ⟨t, runs, answered, only⟩ := mailbox_done (reply := .timeout) serves (doRingState_leaves shape present disabled off)
    exact ⟨t, runs, answered, only.ring_eq _⟩
  · subst windows
    obtain ⟨t, runs, answered, only⟩ := mailbox_done (reply := .timeout) serves
      (doHwinSet_sets shape found window rights base len named covers)
    exact ⟨t, runs, answered, (ctx_of _ only.ctxs).trans (tget_tset_same ..)⟩
  · subst regions
    obtain ⟨u, ran, apertures⟩ := doHdmMap_maps (m := m) (reply := .timeout) ⟨shape, low, some, high, member⟩ maps free room
    obtain ⟨t, runs, answered, only⟩ := mailbox_done serves ran
    exact ⟨t, runs, answered, only.apertures.trans apertures⟩
  · obtain ⟨u, ran, apertures⟩ := doHdmMap_unmaps (m := m) (reply := .timeout) ⟨shape, low, some, high, member⟩ unmaps own
    obtain ⟨t, runs, answered, only⟩ := mailbox_done serves ran
    refine ⟨t, runs, answered, fun a first last => ?_⟩
    rw [only.apertures, apertures]
    exact tget_foldl_tdel _ _ (.inl (mem_reqApertures.mpr ⟨first, last⟩))
  · obtain ⟨u, ran, ctxs⟩ := doMwinSet_sets (m := m) (reply := .timeout) found fresh shape number rights set member some many run
    obtain ⟨t, runs, answered, only⟩ := mailbox_done serves ran
    refine ⟨t, runs, answered, ?_⟩
    rw [ctx_of _ only.ctxs, ctx_updCtx_same, ctx_of _ ctxs, found]
    rfl
  · obtain ⟨u, y, ran, kept, gone⟩ := doMwinSet_clears (m := m) (reply := .timeout) found shape number clear
    obtain ⟨t, runs, answered, only⟩ := mailbox_done serves ran
    refine ⟨t, runs, answered, ?_⟩
    rw [ctx_of _ only.ctxs, kept]
    simp [gone]
  · obtain ⟨t, runs, answered, only⟩ := mailbox_done (reply := .timeout) serves (doJournalSet_clears shape found quiet named clear)
    refine ⟨t, runs, answered, ?_⟩
    rw [ctx_of _ only.ctxs, ctx_updCtx_same, found]
    rfl
  · obtain ⟨t, runs, answered, only⟩ := mailbox_done (reply := .timeout) serves
      (doJournalSet_sets shape found quiet named size base whole inside usable)
    have usable' : cacheUsable (updCtx (qf q 0 2) (fun x => { x with journal := .some (reqJournal q) }) s) = true := by
      rw [cacheUsable, updCtx_host]
      exact usable
    rw [journalWrite_of_usable _ _ _ usable'] at only
    refine ⟨t, runs, answered, ?_, ?_⟩
    · rw [ctx_of _ only.ctxs, ctx_of _ (updHost_ctxs ..), ctx_updCtx_same, found]
      rfl
    · rw [only.cache, updHost_host, updCtx_host]
      rfl

end Sys2Proof.Machine

/-! ### Collections, filters and patterns by mailbox (R53, R54, R105, R111, R122, R315–R317) -/

namespace Sys2Proof.Machine

/-! #### Collections (R105, R315–R317) -/

section Collections

variable {m : Nat} {q : Req} {reply : ReadReply} {s : State}

/-- The collection of a COLL_CREATE request with a record for each partition of its job (R316). -/
def newColl (s : State) (q : Req) : Coll := { reqColl q with ptns := (jobPtns s (reqColl q).job).map fun p => (p, {}) }

/-- The partitions of the job are demanded for the new collection (R316, R392). -/
def collCreated (s : State) (q : Req) : State :=
  demandAll (jobPtns s (reqColl q).job) { s with colls := tset s.colls (qf q 0 2) (newColl s q) }

theorem colls_demandAll (ps : List Nat) (s : State) : (demandAll ps s).colls = s.colls := (k_demandAll (within_self _) ps (Keeps.refl _ s)).same_colls

theorem doCollCreate_dense (good : collCreateBad s q = false) (dense : hasSparse (reqColl q) = false) :
    doCollCreate m q reply s = (collCreated s q, .done .ok (leBytes 4 1) 0) :=
  (if_neg (by simp [good])).trans (if_neg (by simp [dense]))

/-- A collection with sparse parts takes its posting directory in each partition (R140). -/
theorem doCollCreate_sparse {u : State} (good : collCreateBad s q = false) (sparse : hasSparse (reqColl q) = true)
    (taken : (jobPtns s (reqColl q).job).foldl (fun o p => o.bind (takePostings (qf q 0 2) p)) (some (collCreated s q)) = some u) :
    doCollCreate m q reply s = (u, .done .ok (leBytes 4 1) 0) := by
  rw [collCreated, newColl] at taken
  simp only [doCollCreate, good, Bool.false_eq_true, if_false, sparse, if_true, taken]
  rfl

theorem tget_colls_pinTop {c : Nat} (d p : Nat) {s : State} (gone : tget s.colls c = none) : tget (pinTop d p s).colls c = none := by
  have set : ∀ (f : CollPtn → CollPtn) (g : Ptn → Ptn), d ≠ c → tget (updCollPtn d p f (updPtn p g s)).colls c = none := fun f g other =>
    (tget_tset_other s.colls _ (Ne.symm other)).trans gone
  unfold pinTop
  dsimp only
  split
  · exact gone
  · rename_i strata
    have other : d ≠ c := fun same => by
      subst same
      simp [coll, tgetD, gone] at strata
    split
    · exact gone
    · split
      · exact gone
      · exact set _ _ other

/-- A freed collection has no stratum to pin: it stays away while those of the other collections are tried again (R105). -/
theorem tget_colls_retryPins {c : Nat} (j : Nat) {s : State} (gone : tget s.colls c = none) : tget (retryPins j s).colls c = none := by
  have pins : ∀ (d : Nat) (ps : List Nat) (u : State), tget u.colls c = none → tget (ps.foldl (fun s p => pinTop d p s) u).colls c = none :=
    fun d ps => by
      induction ps with
      | nil => exact fun _ h => h
      | cons p ps ih => exact fun u h => ih _ (tget_colls_pinTop d p h)
  unfold retryPins
  dsimp only
  generalize sortBy _ _ = cs
  induction cs generalizing s with
  | nil => exact gone
  | cons d cs ih => exact ih (pins _ _ _ gone)

theorem tget_colls_freeColl (c : Nat) (s : State) : tget (freeColl c s).colls c = none :=
  tget_colls_retryPins _ (tget_tdel_same ..)

theorem collCmds_of_cmds {s t : State} (cmds : t.cmds = s.cmds) (c : Nat) : collCmds t c = collCmds s c := by
  unfold collCmds cmdsOf
  rw [cmds]

theorem doCollDelete_of (shape : shaped q 2 [] = true) (present : (coll s (qf q 0 2)).state ≠ .free) :
    doCollDelete m q reply s = if (coll s (qf q 0 2)).deleting then (s, .busy (.collDelete (qf q 0 2)))
      else if (collCmds s (qf q 0 2)).isEmpty then
        (freeColl (qf q 0 2) (updColl (qf q 0 2) (fun x => { x with deleting := true }) s), .done .ok [] 0)
      else (updColl (qf q 0 2) (fun x => { x with deleting := true }) s, .busy (.collDelete (qf q 0 2))) :=
  guardM_of (by simp [shape, present])

theorem doCollDelete_starts (shape : shaped q 2 [] = true) (present : (coll s (qf q 0 2)).state ≠ .free)
    (fresh : (coll s (qf q 0 2)).deleting = false) :
    doCollDelete m q reply s = if (collCmds s (qf q 0 2)).isEmpty then
        (freeColl (qf q 0 2) (updColl (qf q 0 2) (fun x => { x with deleting := true }) s), .done .ok [] 0)
      else (updColl (qf q 0 2) (fun x => { x with deleting := true }) s, .busy (.collDelete (qf q 0 2))) :=
  (doCollDelete_of shape present).trans (if_neg (by simp [fresh]))

theorem doCollSet_applies (good : collSetBad (coll s (qf q 0 2)) q = false) :
    doCollSet m q reply s = (updColl (qf q 0 2) (applyCollSet q) (demandAll (jobPtns s (coll s (qf q 0 2)).job) s), .done .ok [] 0) :=
  guardM_of (by simp [good])

end Collections

/-! #### Training (R111) -/

section Training

variable {m : Nat} {q : Req} {reply : ReadReply} {s : State}

theorem doCollTrain_joins (good : trainBad s m q = false)
    (busy : (coll s (qf q 0 2)).state = .training ∨ (coll s (qf q 0 2)).state = .redistributing) :
    doCollTrain m q reply s =
      (updColl (qf q 0 2) (fun x => { x with trainIgnored := x.trainIgnored + 1 }) s, .busy (.train (qf q 0 2) true)) :=
  (if_neg (by simp [good])).trans (if_pos busy)

/-- A training that may start, whatever gives its centroids (R111). -/
structure MayTrain (s : State) (m : Nat) (q : Req) : Prop where
  good : trainBad s m q = false
  idle : (coll s (qf q 0 2)).state ≠ .training
  settled : (coll s (qf q 0 2)).state ≠ .redistributing

theorem doCollTrain_of_random (may : MayTrain s m q) (random : qf q 4 1 = 0) :
    doCollTrain m q reply s = (startTrain (qf q 0 2) q [] s, .busy (.train (qf q 0 2) false)) :=
  (if_neg (by simp [may.good])).trans ((if_neg (not_or.mpr ⟨may.idle, may.settled⟩)).trans (if_pos random))

theorem doCollTrain_of_data {bs : List Byte} (may : MayTrain s m q) (sampled : qf q 4 1 ≠ 0) :
    doCollTrain m q (.data bs) s =
      if (sampleRows (coll s (qf q 0 2)) q bs).any (rowBad ((coll s (qf q 0 2)).metric == 2)) then (s, .busy (.ready .range [] 0))
      else (startTrain (qf q 0 2) q (sampleRows (coll s (qf q 0 2)) q bs) s, .busy (.train (qf q 0 2) false)) :=
  (if_neg (by simp [may.good])).trans ((if_neg (not_or.mpr ⟨may.idle, may.settled⟩)).trans (if_neg sampled))

/-- A training starts with the levels, leaves and source of its request, scales derived or not (R29, R111). -/
theorem coll_startTrain (c : Nat) (q : Req) (rows : List (List F32)) (s : State) :
    (coll (startTrain c q rows s) c).state = .training ∧ (coll (startTrain c q rows s) c).trainLevels = qf q 5 1 ∧
    (coll (startTrain c q rows s) c).trainLeaves = qf q 8 4 ∧ (coll (startTrain c q rows s) c).trainSource = qf q 4 1 := by
  have spent : ∀ n u, coll (spend n u) c = coll u c := fun _ _ => rfl
  unfold startTrain
  dsimp only
  split
  · rw [spent, coll_updColl_same, beginTrain, coll_updColl_same]
    exact ⟨rfl, rfl, rfl, rfl⟩
  · rw [beginTrain, coll_updColl_same]
    exact ⟨rfl, rfl, rfl, rfl⟩

end Training

/-! #### Filters (R122) -/

section Filters

variable {m : Nat} {q : Req} {reply : ReadReply} {s : State}

/-- The program of a FILTER_LOAD request (R122). -/
def reqFilter (q : Req) : List W32 := (upto (qf q 4 1)).map fun i => BitVec.ofNat 32 (qf q (8 + 4 * i) 4)

theorem doFilterLoad_clears (present : (ctx? s (qf q 0 2)).isSome = true) (number : qf q 2 1 ≤ 254) (clear : qf q 3 1 = 1) (len : q.len = 4) :
    doFilterLoad m q reply s = (updCtx (qf q 0 2) (fun x => { x with filters := tdel x.filters (qf q 2 1) }) s, .done .ok [] 0) := by
  have object : ¬((ctx? s (qf q 0 2)).isNone || qf q 2 1 > 254 || qf q 3 1 > 1) = true := by
    simp [Option.isSome_iff_ne_none.mp present, number, clear]
  exact (if_neg object).trans ((if_pos clear).trans (guardM_of (by simp [len])))

/-- What a FILTER_LOAD request with a program must satisfy before the program is checked (R122, R317). -/
structure FilterFits (s : State) (q : Req) : Prop where
  present : (ctx? s (qf q 0 2)).isSome = true
  number : qf q 2 1 ≤ 254
  load : qf q 3 1 = 0
  some : 1 ≤ qf q 4 1
  many : qf q 4 1 ≤ 64
  zero : zeroAt q.bytes 5 3 = true
  len : q.len = 8 + 4 * qf q 4 1

theorem FilterFits.object_ok (fits : FilterFits s q) : ¬((ctx? s (qf q 0 2)).isNone || qf q 2 1 > 254 || qf q 3 1 > 1) = true := by
  simp [Option.isSome_iff_ne_none.mp fits.present, fits.number, fits.load]

theorem FilterFits.not_clear (fits : FilterFits s q) : qf q 3 1 ≠ 1 := by
  simp [fits.load]

theorem FilterFits.form_ok (fits : FilterFits s q) :
    ¬(qf q 4 1 == 0 || qf q 4 1 > 64 || !zeroAt q.bytes 5 3 || q.len != 8 + 4 * qf q 4 1) = true := by
  simp [fits.many, fits.zero, fits.len, Nat.one_le_iff_ne_zero.mp fits.some]

theorem doFilterLoad_loads (fits : FilterFits s q) (good : filterCheck (reqFilter q) 1 0 = none) :
    doFilterLoad m q reply s =
      (updCtx (qf q 0 2) (fun x => { x with filters := tset x.filters (qf q 2 1) (reqFilter q) }) s, .done .ok [] 0) := by
  rw [reqFilter] at good
  unfold doFilterLoad
  dsimp only
  rw [if_neg fits.object_ok, if_neg fits.not_clear, if_neg fits.form_ok, good]
  rfl

/-- A bad program is refused with the index of the word that the check finds (R122). -/
theorem doFilterLoad_refuses {i : Nat} (fits : FilterFits s q) (bad : filterCheck (reqFilter q) 1 0 = some i) :
    doFilterLoad m q reply s = (s, .done .invalidField [] i) := by
  rw [reqFilter] at bad
  unfold doFilterLoad
  dsimp only
  rw [if_neg fits.object_ok, if_neg fits.not_clear, if_neg fits.form_ok, bad]

end Filters

/-! #### Patterns (R53, R54, R382) -/

section Patterns

variable {m : Nat} {q : Req} {s : State}

/-- What a PATTERN_LOAD request must satisfy before its image is read (R53, R312). -/
structure PatternFits (s : State) (m : Nat) (q : Req) : Prop where
  shape : shaped q 20 [(2, 6)] = true
  present : (ctx? s (qf q 0 2)).isSome = true
  low : 48 ≤ qf q 16 4
  high : qf q 16 4 ≤ 32 + 16 * 640
  whole : qf q 16 4 % 16 = 0
  named : m ≠ 3 ∨ qf q 8 8 = 0
  inside : inWindow s (qf q 0 2) (qf q 8 8) (qf q 16 4) true false = true

theorem doPatternLoad_of_data {bs : List Byte} (fits : PatternFits s m q) :
    doPatternLoad m q (.data bs) s = loadPattern (qf q 0 2) (padBytes (qf q 16 4) bs) s := by
  obtain ⟨shape, present, low, high, whole, named, inside⟩ := fits
  refine if_neg ?_
  simp [shape, Option.isSome_iff_ne_none.mp present, low, high, whole, inside]
  omega

/-- The pattern of an image, as the next version (R54). -/
def imagePattern (s : State) (img : List Byte) : Pattern := { header := img.take 32, steps := imageSteps img, ver := s.hearth.patSeq + 1 }

/-- A context with a pattern loaded under its ID in place of the one before (R54). -/
def patternLoaded (c : Nat) (img : List Byte) (s : State) : State :=
  updCtx c (fun x => { x with patterns := tset x.patterns (field img 0 2) (imagePattern s img) })
    (updHearth (fun h => { h with patSeq := h.patSeq + 1 }) (retirePattern c (field img 0 2) s))

theorem loadPattern_refuses {c i : Nat} {img : List Byte} (bad : patternCheck (img.take 32) (imageSteps img) = some i) :
    loadPattern c img s = (s, .done .invalidField [] i) := by
  unfold loadPattern
  dsimp only
  rw [bad]

theorem loadPattern_places {c : Nat} {img : List Byte} {u : State} (good : patternCheck (img.take 32) (imageSteps img) = none)
    (room : (liveVersions (patternLoaded c img s) c).foldl (fun n k => n + k.steps.length) 0 ≤ 640)
    (placed : loadEverywhere c (patternLoaded c img s) = some u) :
    loadPattern c img s = (measureLoad c (field img 0 2) img u, .done .ok (shake256 img 32) 0) := by
  rw [patternLoaded, imagePattern] at room placed
  unfold loadPattern
  dsimp only
  rw [good]
  dsimp only
  rw [if_neg (Nat.not_lt.mpr room), placed]
  rfl

/-- A retired pattern is out of its context's table; older commands keep it among the old versions (R54). -/
theorem tget_patterns_retirePattern {c id : Nat} {y : Ctx} (found : ctx? (retirePattern c id s) c = some y) : tget y.patterns id = none := by
  rw [retirePattern, dropOldPatterns, ctx_updCtx_same, ctx_updCtx_same, Option.map_map] at found
  obtain ⟨x, -, rfl⟩ := Option.map_eq_some_iff.mp found
  simp only [Function.comp_apply]
  split
  · exact tget_tdel_same ..
  · assumption

theorem doPatternUnload_retires {reply : ReadReply} (shape : shaped q 4 [] = true)
    (loaded : (ctx? s (qf q 0 2)).any (fun x => (tget x.patterns (qf q 2 2)).isSome) = true) :
    doPatternUnload m q reply s = (retirePattern (qf q 0 2) (qf q 2 2) s, .done .ok [] 0) :=
  guardM_of (by rw [shape, loaded]; rfl)

end Patterns

/-! #### The rows -/

/-- Settles O18: a served request is answered, or put under a ticket, with what its handler returns. -/
theorem mailboxCollections : Obligations.MailboxCollections := by
  refine ⟨fun s m q serves good dense => ?_, fun s m q u serves good sparse taken => ?_, fun s m q serves shape present fresh idle => ?_,
    fun s m q serves room shape present fresh live => ?_, fun s m q serves room shape present deleting => ?_,
    fun s m q serves good => ?_, fun s m q reply serves room good idle settled random => ?_,
    fun s m q bs serves room good idle settled sampled rows => ?_, fun s m q bs serves room good idle settled sampled rows => ?_,
    fun s m q reply serves room good busy => ?_, fun s m q x serves found number clear len => ?_,
    fun s m q x prog serves found number load some many zero len program good => ?_,
    fun s m q i serves present number load some many zero len bad => ?_,
    fun s m q bs img k u v serves shape present low high whole named inside image pattern good loaded room placed => ?_,
    fun s m q bs img i serves shape present low high whole named inside image bad => ?_, fun s m q serves shape loaded => ?_⟩
  · obtain ⟨t, runs, answered, only⟩ := mailbox_done (reply := .timeout) serves (doCollCreate_dense good dense)
    have colls := only.colls.trans (colls_demandAll ..)
    exact ⟨t, runs, answered, (coll_of _ colls).trans (tgetD_tset_same ..), fun c other =>
      (coll_of _ colls).trans (tgetD_tset_other _ _ _ other)⟩
  · obtain ⟨t, runs, answered, only⟩ := mailbox_done (reply := .timeout) serves (doCollCreate_sparse good sparse taken)
    exact ⟨t, runs, answered, only.colls, only.ptns⟩
  · obtain ⟨t, runs, answered, only⟩ := mailbox_done (reply := .timeout) serves
      ((doCollDelete_starts shape present fresh).trans (if_pos (by simp [idle])))
    exact ⟨t, runs, answered, only.colls ▸ tget_colls_freeColl ..⟩
  · obtain ⟨t, runs, ticketed, only⟩ := mailbox_busy (reply := .timeout) serves room
      ((doCollDelete_starts shape present fresh).trans (if_neg (by simpa using live)))
    refine ⟨t, runs, ticketed, ?_⟩
    rw [coll_of _ only.colls, coll_updColl_same]
  · obtain ⟨t, runs, ticketed, only⟩ := mailbox_busy (reply := .timeout) serves room ((doCollDelete_of shape present).trans (if_pos deleting))
    exact ⟨t, runs, ticketed, only.colls⟩
  · obtain ⟨t, runs, answered, only⟩ := mailbox_done (reply := .timeout) serves (doCollSet_applies good)
    refine ⟨t, runs, answered, ?_⟩
    rw [coll_of _ only.colls, coll_updColl_same, coll_of _ (colls_demandAll ..)]
  · obtain ⟨t, runs, ticketed, only⟩ := mailbox_busy serves room (doCollTrain_of_random (reply := reply) ⟨good, idle, settled⟩ random)
    refine ⟨t, runs, ticketed, ?_⟩
    rw [coll_of _ only.colls, ← random]
    exact coll_startTrain ..
  · obtain ⟨t, runs, ticketed, only⟩ := mailbox_busy serves room
      ((doCollTrain_of_data ⟨good, idle, settled⟩ sampled).trans (if_neg (Bool.eq_false_iff.mp rows)))
    refine ⟨t, runs, ticketed, ?_⟩
    rw [coll_of _ only.colls]
    exact coll_startTrain ..
  · obtain ⟨t, runs, ticketed, only⟩ := mailbox_busy serves room ((doCollTrain_of_data ⟨good, idle, settled⟩ sampled).trans (if_pos rows))
    exact ⟨t, runs, ticketed, only.colls⟩
  · obtain ⟨t, runs, ticketed, only⟩ := mailbox_busy serves room (doCollTrain_joins (reply := reply) good busy)
    refine ⟨t, runs, ticketed, ?_⟩
    rw [coll_of _ only.colls, coll_updColl_same]
    exact ⟨rfl, rfl⟩
  · obtain ⟨t, runs, answered, only⟩ := mailbox_done (reply := .timeout) serves (doFilterLoad_clears (Option.isSome_of_eq_some found) number clear len)
    refine ⟨t, runs, answered, ?_⟩
    rw [ctx_of _ only.ctxs, ctx_updCtx_same, found]
    rfl
  · subst program
    obtain ⟨t, runs, answered, only⟩ := mailbox_done (reply := .timeout) serves
      (doFilterLoad_loads ⟨Option.isSome_of_eq_some found, number, load, some, many, zero, len⟩ good)
    refine ⟨t, runs, answered, ?_⟩
    rw [ctx_of _ only.ctxs, ctx_updCtx_same, found]
    rfl
  · obtain ⟨t, runs, answered, only⟩ := mailbox_done (reply := .timeout) serves
      (doFilterLoad_refuses ⟨present, number, load, some, many, zero, len⟩ bad)
    exact ⟨t, runs, answered, only.ctxs⟩
  · subst image pattern loaded
    obtain ⟨t, runs, answered, only⟩ := mailbox_done serves
      ((doPatternLoad_of_data ⟨shape, present, low, high, whole, named, inside⟩).trans (loadPattern_places good room placed))
    exact ⟨t, runs, answered, only.ctxs.trans (updJob_ctxs ..), only.ptns.trans (updJob_ptns ..), only.jobs⟩
  · subst image
    obtain ⟨t, runs, answered, only⟩ := mailbox_done serves
      ((doPatternLoad_of_data ⟨shape, present, low, high, whole, named, inside⟩).trans (loadPattern_refuses bad))
    exact ⟨t, runs, answered, only.ctxs, only.jobs⟩
  · obtain ⟨t, runs, answered, only⟩ := mailbox_done (reply := .timeout) serves (doPatternUnload_retires shape loaded)
    exact ⟨t, runs, answered, fun y found => tget_patterns_retirePattern ((ctx_of _ only.ctxs).symm.trans found)⟩

end Sys2Proof.Machine

/-! ### Epochs (R87): the epoch a collection starts at, the successor, the order -/

namespace Sys2Proof.Machine

/-! #### The successor: the epochs other than 0 lie on a circle of 2^32 − 1 -/

theorem toNat_succEpoch (e : Epoch) : (succEpoch e).toNat = e.toNat % (2 ^ 32 - 1) + 1 := by
  rw [succEpoch, epochAdd, BitVec.toNat_ofNat]
  have := e.isLt
  omega

theorem succEpoch_of_ne_last {e : Epoch} (inner : e ≠ 0xFFFFFFFF) : succEpoch e = e + 1 := by
  refine BitVec.eq_of_toNat_eq ?_
  have : e.toNat ≠ 2 ^ 32 - 1 := fun h => inner (BitVec.eq_of_toNat_eq h)
  have := e.isLt
  rw [toNat_succEpoch, BitVec.toNat_add]
  simp
  omega

theorem succEpoch_ne_zero (e : Epoch) : succEpoch e ≠ 0 := fun zero => by
  have := congrArg BitVec.toNat zero
  rw [toNat_succEpoch] at this
  exact Nat.succ_ne_zero _ this

/-- Epoch a stands at place a − 1 of the circle, n successors of it at place a − 1 + n. -/
theorem toNat_repeat_succEpoch {a : Epoch} (named : a ≠ 0) (n : Nat) :
    (Nat.repeat succEpoch n a).toNat = (a.toNat - 1 + n) % (2 ^ 32 - 1) + 1 := by
  have pos : a.toNat ≠ 0 := fun h => named (BitVec.eq_of_toNat_eq h)
  have := a.isLt
  induction n with
  | zero => simp only [Nat.repeat]; omega
  | succ n ih => simp only [Nat.repeat]; rw [toNat_succEpoch, ih]; omega

/-! #### The order -/

/-- b is reached from a in n steps exactly where n is their distance, up to full rounds. -/
theorem repeat_succEpoch_eq_iff {a b : Epoch} (ha : a ≠ 0) (hb : b ≠ 0) (n : Nat) :
    Nat.repeat succEpoch n a = b ↔ n % (2 ^ 32 - 1) = epochDist a b := by
  have posA : a.toNat ≠ 0 := fun h => ha (BitVec.eq_of_toNat_eq h)
  have posB : b.toNat ≠ 0 := fun h => hb (BitVec.eq_of_toNat_eq h)
  have := a.isLt
  have := b.isLt
  rw [← BitVec.toNat_inj, toNat_repeat_succEpoch ha, epochDist]
  omega

theorem precedes_iff_reached {a b : Epoch} (ha : a ≠ 0) (hb : b ≠ 0) :
    precedes a b = true ↔ ∃ n, 1 ≤ n ∧ n ≤ 2 ^ 31 - 1 ∧ Nat.repeat succEpoch n a = b := by
  simp only [repeat_succEpoch_eq_iff ha hb, precedes, Bool.and_eq_true, decide_eq_true_eq]
  constructor
  · rintro ⟨least, most⟩
    exact ⟨epochDist a b, least, most, Nat.mod_eq_of_lt (by omega)⟩
  · rintro ⟨n, least, most, reached⟩
    omega

theorem epochLe_iff {a b : Epoch} : epochLe a b = true ↔ a = b ∨ precedes a b = true := by
  rw [epochLe, Bool.or_eq_true, beq_iff_eq]

/-! #### The first epoch of a collection -/

theorem latest_newColl (s : State) (q : Req) : (newColl s q).latest = 1 := by
  change (reqColl q).latest = 1
  unfold reqColl
  exact (apply_ite Coll.latest _ _ _).trans (ite_self _)

theorem coll_collCreated (s : State) (q : Req) : coll (collCreated s q) (qf q 0 2) = newColl s q :=
  (coll_of _ (colls_demandAll ..)).trans (tgetD_tset_same ..)

/-- Posting directories are taken from the partitions alone. -/
theorem colls_takeAllPostings {c : Nat} {ps : List Nat} {s u : State}
    (taken : ps.foldl (fun o p => o.bind (takePostings c p)) (some s) = some u) : u.colls = s.colls :=
  (if_get taken (if_foldl (m := [.ptns]) (if_some (Keeps.refl _ s)) fun _ _ ho =>
    if_bind ho fun _ hv => k_takePostings (within_self _) _ _ hv)).same_colls

/-- Settles O59: the epochs other than 0 lie on a circle, on which the successor is one step. -/
theorem epochs : Obligations.Epochs := by
  refine ⟨fun s m q serves good dense => ?_, fun s u m q serves good sparse taken => ?_, fun e _ inner => succEpoch_of_ne_last inner, rfl,
    fun x => ⟨rfl, succEpoch_ne_zero _⟩, fun a b ha hb => ⟨precedes_iff_reached ha hb, epochLe_iff⟩⟩
  · obtain ⟨t, runs, _, only⟩ := mailbox_done (reply := .timeout) serves (doCollCreate_dense good dense)
    exact ⟨t, runs, by rw [coll_of _ only.colls, coll_collCreated, latest_newColl]⟩
  · obtain ⟨t, runs, _, only⟩ := mailbox_done (reply := .timeout) serves (doCollCreate_sparse good sparse taken)
    have colls : t.colls = (collCreated s q).colls := only.colls.trans (colls_takeAllPostings taken)
    exact ⟨t, runs, by rw [coll_of _ colls, coll_collCreated, latest_newColl]⟩

end Sys2Proof.Machine

/-! ### Commits and epochs (R88, R90, R91, R93, R94, R142, R169, R173, R174) -/

namespace Sys2Proof.Machine

/-! #### What moved lines leave of a partition -/

/-- What each step of a fold leaves, the fold leaves. -/
theorem foldl_same {σ α β : Type} (q : σ → β) {g : σ → α → σ} (each : ∀ s a, q (g s a) = q s) (l : List α) (s : σ) : q (l.foldl g s) = q s :=
  (List.foldl_hom q (g₂ := fun b _ => b) fun s a => (each s a).symm).symm.trans (List.foldl_fixed l)

/-- Moved lines draw tokens and are counted; nothing else of a partition changes (R16, R197, R199). -/
theorem ptn_engineMove {β : Type} (g : Ptn → β) (hg : ∀ (x : Ptn) r, g { x with reg := r } = g x) (issuer ctx : Option Nat) (home n : Nat) (s : State) (q : Nat) :
    g (ptn (engineMove issuer ctx home n s) q) = g (ptn s q) := by
  have counted : ∀ c f (u : State), g (ptn (updCtx c f u) q) = g (ptn u q) := fun c f u => congrArg g (ptn_of q (updCtx_ptns ..))
  have drawn : ∀ u (t : State), g (ptn (drawSeam issuer home u t) q) = g (ptn t q) := fun u t => congrArg g (ptn_of q (drawSeam_keeps ..).same_ptns)
  have drew : ∀ p f (u : State), g (ptn (updReg p f u) q) = g (ptn u q) := fun p f u => ptn_updReg g hg p f u q
  have noted : ∀ (u : State), g (ptn (noteReceiveWait issuer home n u) q) = g (ptn u q) := by
    intro u
    unfold noteReceiveWait
    cases issuer <;> simp only [drew]
  unfold engineMove
  cases ctx <;> cases issuer <;> dsimp only <;> (repeat' split) <;> simp only [counted, drawn, drew, noted]

theorem ptn_moveLines {β : Type} (g : Ptn → β) (hg : ∀ (x : Ptn) r, g { x with reg := r } = g x) (issuer ctx : Option Nat) (ps : List Nat) (s : State) (q : Nat) :
    g (ptn (moveLines issuer ctx ps s) q) = g (ptn s q) :=
  foldl_same (fun u => g (ptn u q)) (fun _ _ => ptn_engineMove g hg ..) ps s

/-! #### The directory copies of an epoch (R81, R90, R174) -/

theorem awakePtn_writeCopies (n : Nat) (s : State) : awakePtn (writeCopies n s) = awakePtn s := by
  funext p
  exact ptn_moveLines (fun x => (x.power == .forge || x.power == .warm) && !pastDrain x) (fun _ _ => rfl) _ _ _ s p

theorem coll_writeCopies (n m : Nat) (s : State) : coll (writeCopies n s) m = coll s m :=
  coll_of m (k_writeCopies (within_self _) n (Keeps.refl _ s)).same_colls

/-- The collection at the close of its open epoch: the epoch is LATEST, in the copies of the awake partitions too (R174). -/
def closedColl (s : State) (n : Nat) : Coll :=
  { coll s n with
    latest := openEpoch (coll s n), openCommits := 0
    ptns := tmap (fun p (q : CollPtn) => if awakePtn s p then { q with latest := openEpoch (coll s n) } else q) (coll s n).ptns }

theorem colls_closeEpoch (n : Nat) (s : State) : (closeEpoch n s).colls = (updColl n (fun _ => closedColl s n) (writeCopies n s)).colls := by
  unfold closeEpoch
  dsimp only
  rw [(k_settleWaiters (within_self _) (k_finishCommitted (m := [.host, .ctxs, .cmds, .levels]) (within_of (by decide)) n (Keeps.refl _ _))).same_colls,
    awakePtn_writeCopies, coll_writeCopies]
  simp only [updColl, coll_writeCopies, closedColl]

/-- The collection whose horizon has advanced to an epoch (R90). -/
def horizonColl (s : State) (n : Nat) (h : Epoch) : Coll :=
  { coll s n with horizon := h, ptns := tmap (fun p (q : CollPtn) => if awakePtn s p then { q with horizon := h } else q) (coll s n).ptns }

theorem coll_setHorizon (n : Nat) (h : Epoch) (s : State) : coll (setHorizon n h s) n = horizonColl s n h := by
  unfold setHorizon
  dsimp only
  rw [coll_of n (k_settleLog (within_self _) n h (Keeps.refl _ _)).same_colls, coll_updColl_same, awakePtn_writeCopies, coll_writeCopies]
  rfl

/-- No entry of the collection at or before the horizon is left in a tombstone log (R93). -/
theorem log_settleLog (n : Nat) (h : Epoch) (s : State) (p : Nat) :
    ∀ l ∈ (ptn (settleLog n h s) p).log, (l.2.coll == n && l.2.epoch != 0 && epochLe l.2.epoch h) = false := by
  intro l hl
  simp only [settleLog, ptn, tgetD, tget_tmap] at hl
  cases hp : tget s.ptns p with
  | none => simp [hp] at hl
  | some x =>
    simp only [hp, Option.map_some, Option.getD_some, dropLog, List.mem_map, List.mem_filter] at hl
    obtain ⟨e, ⟨_, kept⟩, rfl⟩ := hl
    exact (Bool.not_eq_true' _).mp kept

/-! #### The settling sweep (R91, R142) -/

theorem coll_settleBrick {n b : Nat} {k : Brick} {s : State} (found : brick? (coll s n) b = some k) :
    coll (settleBrick n b s) n = { coll s n with
      bricks := if brickSettles (coll s n) k then tset (coll s n).bricks b { k with settled := true } else (coll s n).bricks
      postings := tmap (fun _ (l : List PBlock) => l.map fun q => { q with entries := q.entries.map (settlePosting (coll s n) b) }) (coll s n).postings } := by
  unfold settleBrick
  rw [coll_updColl_same, found]

theorem brick_settleBrick {n b : Nat} {k : Brick} {s : State} (found : brick? (coll s n) b = some k) :
    brick? (coll (settleBrick n b s) n) b = some { k with settled := k.settled || brickSettles (coll s n) k } := by
  rw [coll_settleBrick found, brick?]
  cases brickSettles (coll s n) k with
  | true => simp
  | false => simp only [Bool.or_false, Bool.false_eq_true, if_false]; exact found

theorem sweepBrick_of_chunk {n b i : Nat} {s : State}
    (runs : chunkAnvil s (ptnOfAddr b) (fun q => chunkOf 7 n q && q.bricks.any (·.brick == b)) = some i) :
    sweepBrick n b s = sweptBrick (ptnOfAddr b) i b (settleBrick n b (engineMove (some (ptnOfAddr b)) (careCtx s n) (ptnOfAddr b) 4 s)) := by
  unfold sweepBrick
  simp only [runs]

theorem sweepBrick_of_none {n b : Nat} {s : State}
    (idle : chunkAnvil s (ptnOfAddr b) (fun q => chunkOf 7 n q && q.bricks.any (·.brick == b)) = none) : sweepBrick n b s = s := by
  unfold sweepBrick
  simp only [idle]

/-! #### The head of the commit queue (R169, R173, R353) -/

section Head

variable {s : State} {n c : Nat} {rest : List Nat} {x : Cmd}

/-- A batch that is bound to commit is not checked again (R169, R343). -/
theorem unrefused_of_passes (passes : (x.committing || (commitRefused s n x).isNone) = true) :
    (if x.committing then none else commitRefused s n x) = none := by
  cases bound : x.committing with
  | true => rfl
  | false => simpa [bound] using passes

theorem commitHead_of_turnedAway {code : W32} (queue : (coll s n).queue = c :: rest) (found : cmd? s c = some x)
    (passes : (x.committing || (commitRefused s n x).isNone) = true) (fenced : turnedAway s (commitReach s n x) = some code) :
    commitHead n s = if x.committing then s else failCmd c .fenced code s := by
  unfold commitHead
  simp only [queue, found, unrefused_of_passes passes, fenced]

theorem commitHead_of_reached (queue : (coll s n).queue = c :: rest) (found : cmd? s c = some x)
    (passes : (x.committing || (commitRefused s n x).isNone) = true) (reached : turnedAway s (commitReach s n x) = none) :
    commitHead n s = if batchStale (coll s n) x then reappend c x s else commitBatch n c x s := by
  unfold commitHead
  simp only [queue, found, unrefused_of_passes passes, reached]

theorem commitHead_of_refused {st : Status} {i : Nat} (queue : (coll s n).queue = c :: rest) (found : cmd? s c = some x)
    (free : x.committing = false) (refused : commitRefused s n x = some (st, i)) :
    commitHead n s = updCmd c (fun k => { k with count := i }) (failCmd c st 0 s) := by
  unfold commitHead
  simp only [queue, found, free, refused, Bool.false_eq_true, if_false]

theorem exec_batchCommit (runs : homeRuns s n = true) : exec (.batchCommit n) s = .next (queueWaiting n (commitHead n s)) :=
  congrArg Host.Outcome.next (if_pos runs)

end Head

/-- Settles O33: the head of the queue meets its check, its fence, its age and its room in turn; an epoch closes and a horizon advances in the
collection and in its awake copies. -/
theorem commitsAndEpochs : Obligations.CommitsAndEpochs := by
  refine ⟨fun s n c rest x t runs queue found passes reached fresh prepared => ?_, fun s n c rest x st i runs queue found free refused => ?_,
    fun s n c rest x runs queue found passes => ⟨fun reached stale => ?_, fun reached fresh full => ?_, fun code fenced => ?_⟩, fun s n runs queue => ?_,
    fun s n stopped => ⟨if_neg (by simp [stopped]) |> congrArg Host.Outcome.next, ?_⟩, fun s n may => ?_, fun s n e may => ?_,
    fun s n b i k runs found => ?_, fun s n b idle => congrArg Host.Outcome.next (sweepBrick_of_none idle)⟩
  · obtain ⟨colls, cmds, _⟩ := colls_prepareBatch prepared
    have same : coll t n = coll s n := coll_of n colls
    obtain ⟨m, committed, epoch, csn⟩ := committedState_cmd (n := n) (x := x) ((cmd_of c cmds).trans found)
    have line := committedState_line n c x t
    rw [same] at line epoch csn
    simp only [commitLine, Prod.mk.injEq, queue, List.drop_one, List.tail_cons] at line
    obtain ⟨left, number, commits, _⟩ := line
    refine ⟨committedState n c x t, m, ?_, left, number, commits, committed, epoch, csn⟩
    rw [exec_batchCommit runs, commitHead_of_reached queue found passes reached]
    simp only [fresh, Bool.false_eq_true, if_false, commitBatch, prepared, commitNow_eq, same]
  · rw [exec_batchCommit runs, commitHead_of_refused queue found free refused]
  · rw [exec_batchCommit runs, commitHead_of_reached queue found passes reached]
    simp only [stale, if_true]
  · rw [exec_batchCommit runs, commitHead_of_reached queue found passes reached]
    simp only [fresh, Bool.false_eq_true, if_false, commitBatch, full]
  · rw [exec_batchCommit runs, commitHead_of_turnedAway queue found passes fenced]
  · rw [exec_batchCommit runs, commitHead, queue]
  · exact congrArg Host.Outcome.next (if_neg (by simp [mayClose, stopped]))
  · have colls := colls_closeEpoch n s
    have closed : coll (closeEpoch n s) n = closedColl s n := (coll_of n colls).trans (coll_updColl_same ..)
    refine ⟨closeEpoch n s, congrArg Host.Outcome.next (if_pos may), by rw [closed]; rfl, by rw [closed]; rfl, fun p q copy => ?_, fun m other => ?_⟩
    · rw [closed]
      simp only [closedColl, tget_tmap, copy]
      rfl
    · rw [coll_of m colls, coll_updColl_other _ _ other, coll_writeCopies]
  · have advanced := coll_setHorizon n e s
    refine ⟨setHorizon n e s, congrArg Host.Outcome.next (if_pos may), by rw [advanced]; rfl, by rw [advanced]; rfl, fun p q copy => ?_,
      log_settleLog n e _⟩
    rw [advanced]
    simp only [horizonColl, tget_tmap, copy]
    rfl
  · have moved : ∀ issuer ctx p, coll (engineMove issuer ctx p 4 s) n = coll s n := fun issuer ctx p =>
      coll_of n (k_engineMove (within_self _) issuer ctx p 4 (Keeps.refl _ s)).same_colls
    have found' := (congrArg (brick? · b) (moved (some (ptnOfAddr b)) (careCtx s n) (ptnOfAddr b))).trans found
    have swept := fun u => (k_sweptBrick (within_self _) (ptnOfAddr b) i b (Keeps.refl _ u)).same_colls
    refine ⟨_, _, congrArg Host.Outcome.next (sweepBrick_of_chunk runs), rfl, swept _, ?_, ?_⟩
    · rw [coll_of n (swept _), brick_settleBrick found', moved]
    · rw [coll_of n (swept _), coll_settleBrick found', moved]
      rfl

end Sys2Proof.Machine

/-! ### Fences and the partition resets that follow them (R114, R187, R208, R225, R352, R353, R355, R357, R358, R362, R363) -/

namespace Sys2Proof.Machine

/-! #### The start of a fence -/

theorem startFence_of_due {s : State} {p : Nat} {f : FenceRec} (fenced : (ptn s p).fence = some f) (due : f.step = 0) :
    startFence p s = fenceTicketsOf p (fenceNotices p (if f.thermal then 0 else 2) f.code
      (ptnChange p (updPtn p (fun x => { x with service := .fenced, fence := some { f with step := 3 } }) s))) := by
  unfold startFence
  simp only [fenced, due, if_true]

theorem startFence_of_not_due {s : State} {p : Nat} (undue : ∀ f, (ptn s p).fence = some f → f.step ≠ 0) : startFence p s = s := by
  unfold startFence
  split
  · exact if_neg (undue _ ‹_›)
  · rfl

/-! #### The end of a command leaves a partition's fence, its waiting requests and its write-combining lines -/

/-- What a drain looks at in a partition: its fence, the far requests and atomics that wait, the lines in its buffers. -/
def drainView (x : Ptn) : Option FenceRec × List FarReq × List AtomReq × List WcbEnt := (x.fence, x.farQ, x.atomQ, x.wcb)

theorem ptn_mapPtns {β : Type} (g : Ptn → β) {f : Nat → Ptn → Ptn} (h : ∀ k x, g (f k x) = g x) (s : State) (p : Nat) :
    g (ptn { s with ptns := tmap f s.ptns } p) = g (ptn s p) := by
  simp only [ptn, tgetD, tget_tmap]
  cases tget s.ptns p with
  | none => rfl
  | some x => exact h p x

theorem drainView_dropWork (f : Nat → Bool) (s : State) (p : Nat) : drainView (ptn (dropWork f s) p) = drainView (ptn s p) := by
  have charged : drainView (ptn (chargeStopped f s) p) = drainView (ptn s p) := chargeWhere_ptn drainView (fun _ _ _ => ⟨rfl, rfl⟩) _ s p
  unfold dropWork
  refine (ptn_mapPtns drainView ?_ _ p).trans charged
  exact fun _ _ => rfl

theorem drainView_withdraw (c : Nat) (s : State) (p : Nat) : drainView (ptn (withdraw c s) p) = drainView (ptn s p) := by
  have cleared : ∀ (n : Nat) (l : List Rec) (u : State), (l.foldl (fun s r => clearRec n r s) u).ptns = u.ptns := fun n l u =>
    foldl_same (·.ptns) (fun s r => (k_clearRec (within_self _) n r (Keeps.refl _ s)).same_ptns) l u
  have journal : ∀ (n : Nat) (u : State), (giveUpJournal n c u).ptns = u.ptns := fun n u =>
    (k_giveUpJournal (within_self _) n c (Keeps.refl _ u)).same_ptns
  have tombs : ∀ u : State, drainView (ptn (withdrawTombs c u) p) = drainView (ptn u p) := by
    intro u
    unfold withdrawTombs
    refine ptn_mapPtns drainView ?_ _ p
    exact fun _ _ => rfl
  unfold withdraw
  split
  · rfl
  · dsimp only
    split
    · rfl
    · refine (congrArg drainView (ptn_of p (updCmd_ptns ..))).trans ((ptn_mapPtns drainView ?_ _ p).trans ?_)
      · exact fun _ _ => rfl
      split
      · rw [ptn_of p (updColl_ptns ..), ptn_of p (journal ..), tombs, ptn_of p (cleared ..)]
      · rw [ptn_of p (journal ..), tombs, ptn_of p (cleared ..)]

theorem drainView_failCmd (c : Nat) (st : Status) (f : W32) (s : State) (p : Nat) : drainView (ptn (failCmd c st f s) p) = drainView (ptn s p) := by
  have ended : ∀ u : State, u.ptns = s.ptns → drainView (ptn (finish c st 0 f (dropWork (· == c) (withdraw c u))) p) = drainView (ptn s p) := by
    intro u same
    rw [finish, ptn_of p (updCmd_ptns ..), drainView_dropWork, drainView_withdraw, ptn_of p same]
  unfold failCmd endCmd
  split
  · rfl
  · split
    · rfl
    · dsimp only
      split
      · rfl
      · split
        · exact ended _ (k_abortAll (within_self _) _ _ _ _ (Keeps.refl _ s)).same_ptns
        · exact ended s rfl

theorem drainView_failAll (cs : List Nat) (st : Status) (f : W32) (s : State) (p : Nat) : drainView (ptn (failAll cs st f s) p) = drainView (ptn s p) :=
  foldl_same (fun u => drainView (ptn u p)) (fun u c => drainView_failCmd c st f u p) cs s

theorem drainView_fencedFar (h : Nat) (q : FarReq) (s : State) (p : Nat) : drainView (ptn (fencedFar h q s) p) = drainView (ptn s p) := by
  unfold fencedFar
  split
  · exact congrArg drainView (ptn_of p (k_unmappedAccess (within_self _) _ (Keeps.refl _ s)).same_ptns)
  · exact drainView_failAll ..

/-! #### A command whose outcome is fixed keeps it -/

/-- From s to t every command whose outcome is fixed keeps it; only the cycles charged to it may grow (R241). -/
structure OutcomesKept (s t : State) : Prop where
  kept : ∀ c y, cmd? s c = some y → y.stage = .final → ∃ n, cmd? t c = some { y with anvilCyc := n }

theorem OutcomesKept.of_cmds {s t : State} (h : t.cmds = s.cmds) : OutcomesKept s t :=
  ⟨fun c y found _ => ⟨y.anvilCyc, (cmd_of c h).trans found⟩⟩

theorem OutcomesKept.foldl {α : Type} {g : State → α → State} (each : ∀ s a, OutcomesKept s (g s a)) (l : List α) (s : State) :
    OutcomesKept s (l.foldl g s) := by
  induction l generalizing s with
  | nil => exact .of_cmds rfl
  | cons a l ih =>
    refine ⟨fun c y found fixed => ?_⟩
    obtain ⟨n, step⟩ := (each s a).kept c y found fixed
    exact (ih (g s a)).kept c { y with anvilCyc := n } step fixed

theorem outcomesKept_failAll (cs : List Nat) (st : Status) (f : W32) (s : State) : OutcomesKept s (failAll cs st f s) :=
  .foldl (fun _ _ => ⟨fun _ _ found fixed => failCmd_fixed st f found (.inl fixed)⟩) cs s

theorem outcomesKept_fencedFar (h : Nat) (q : FarReq) (s : State) : OutcomesKept s (fencedFar h q s) := by
  unfold fencedFar
  split
  · exact .of_cmds (k_unmappedAccess (within_self _) _ (Keeps.refl _ s)).same_cmds
  · exact ⟨(outcomesKept_failAll _ _ _ (answer .refused s)).kept⟩

/-! #### The end of the drain window (R187, R208, R352, R353) -/

/-- What a drain ends: the commands with work in the partition, with a commit pending there, or with an atomic waiting there (R352, R353). -/
def drainedCmds (p : Nat) (s : State) : List Nat := cmdsIn s p ++ commitsPending s p ++ (ptn s p).atomQ.flatMap (atomCmds s)

/-- The state in which step 5 of a fence asks for its write-combining fence (R208, R352). -/
def drainedOf (p : Nat) (f : FenceRec) (s : State) : State :=
  (ptn s p).farQ.foldl (fun s q => fencedFar p q s)
    (updPtn p (fun x => { x with farQ := [], atomQ := [], fence := some { f with step := 5, kills := contextsIn s p } })
      (failAll (drainedCmds p s) .fenced f.code s))

theorem endDrain_of_window {s : State} {p : Nat} {f : FenceRec} (fenced : (ptn s p).fence = some f) (window : f.step = 3) :
    endDrain p s = if f.thermal then askFence p .step4 allChannels (drainedOf p f s)
      else askFence p .reset (allChannels.filter fun ch => !f.faulty.contains ch) (drainedOf p f s) := by
  unfold endDrain
  simp only [fenced, window, if_true]
  rfl

theorem endDrain_of_no_window {s : State} {p : Nat} (closed : ∀ f, (ptn s p).fence = some f → f.step ≠ 3) : endDrain p s = s := by
  unfold endDrain
  split
  · exact if_neg (closed _ ‹_›)
  · rfl

theorem drainView_drainedOf (p : Nat) (f : FenceRec) (s : State) :
    drainView (ptn (drainedOf p f s) p) = (some { f with step := 5, kills := contextsIn s p }, [], [], (ptn s p).wcb) := by
  have lines := congrArg (·.2.2.2) (drainView_failAll (drainedCmds p s) .fenced f.code s p)
  unfold drainedOf
  rw [foldl_same (fun u => drainView (ptn u p)) (fun u q => drainView_fencedFar p q u p), ptn_updPtn_same, ← show _ = (ptn s p).wcb from lines]
  rfl

/-- Every command that the drain finds at work ends FENCED with the fence's code. -/
theorem drainedOf_ends {s : State} {p c : Nat} {x : Cmd} (f : FenceRec) (works : c ∈ drainedCmds p s) (found : cmd? s c = some x)
    (unfixed : x.stage ≠ .final) (live : x.stage ≠ .done) (free : mustCommit x = false) :
    ∃ y, cmd? (drainedOf p f s) c = some y ∧ y.stage = .final ∧ y.status = .fenced ∧ y.count = 0 ∧ y.fault = f.code := by
  obtain ⟨y, ended, fixed, status, count, fault⟩ := failEach_ends (sf := fun _ => .fenced) (f := f.code) _ s works found free unfixed live
  obtain ⟨n, kept⟩ := (OutcomesKept.foldl (fun u q => outcomesKept_fencedFar p q u) (ptn s p).farQ
    (updPtn p (fun x => { x with farQ := [], atomQ := [], fence := some { f with step := 5, kills := contextsIn s p } })
      (failAll (drainedCmds p s) .fenced f.code s))).kept c y ended fixed
  exact ⟨_, kept, fixed, status, count, fault⟩

theorem mem_allChannels (a : Nat) : allChannels.contains (channelOf a) = true := by
  simp [allChannels, upto, channelOf, Nat.mod_lt]

/-- The write-combining fence that a drain asks for: of every channel, for a reset but for those that failed (R208, R352). -/
def drainFence (f : FenceRec) (lines : List Nat) : WcFence :=
  { why := if f.thermal then .step4 else .reset, lines := lines.filter fun l => f.thermal || !f.faulty.contains (channelOf l) }

theorem ptn_endDrain {s : State} {p : Nat} {f : FenceRec} (fenced : (ptn s p).fence = some f) (window : f.step = 3) :
    ptn (endDrain p s) p = { ptn (drainedOf p f s) p with
      wcFences := (ptn (drainedOf p f s) p).wcFences ++ [drainFence f ((ptn s p).wcb.map (·.line))] } := by
  have lines : (ptn (drainedOf p f s) p).wcb = (ptn s p).wcb := congrArg (·.2.2.2) (drainView_drainedOf p f s)
  rw [endDrain_of_window fenced window]
  split
  · rename_i hot
    rw [askFence, ptn_updPtn_same]
    simp only [drainFence, hot, if_true, Bool.true_or, lines, mem_allChannels]
  · rename_i cold
    rw [askFence, ptn_updPtn_same]
    have each : ∀ l, (allChannels.filter fun ch => !f.faulty.contains ch).contains (channelOf l) = !f.faulty.contains (channelOf l) := by
      intro l
      have := mem_allChannels l
      simp only [List.contains_iff_mem] at this
      rw [Bool.eq_iff_iff, List.contains_iff_mem, List.mem_filter]
      exact and_iff_right this
    simp only [drainFence, cold, Bool.false_eq_true, if_false, Bool.false_or, lines, each]

theorem cmds_endDrain {s : State} {p : Nat} {f : FenceRec} (fenced : (ptn s p).fence = some f) (window : f.step = 3) :
    (endDrain p s).cmds = (drainedOf p f s).cmds := by
  rw [endDrain_of_window fenced window]
  split <;> rfl

/-! #### The end of a partition reset: what is SUSPECT (R114) -/

/-- Collection c is SUSPECT. -/
def SuspectAt (c : Nat) (s : State) : Prop := ∃ z, tget s.colls c = some z ∧ z.state = .suspect

section Suspect

variable {c : Nat} {s : State}

theorem SuspectAt.of_colls {t : State} (h : SuspectAt c s) (colls : t.colls = s.colls) : SuspectAt c t := by
  unfold SuspectAt
  rwa [colls]

theorem SuspectAt.setPtns (h : SuspectAt c s) (t : Tbl Ptn) : SuspectAt c { s with ptns := t } := h

theorem SuspectAt.updPtn (h : SuspectAt c s) (p : Nat) (f : Ptn → Ptn) : SuspectAt c (updPtn p f s) := h

theorem SuspectAt.endLevels (h : SuspectAt c s) (p : Nat) : SuspectAt c (endLevels p s) := h

theorem SuspectAt.resetRates (h : SuspectAt c s) (ps : List Nat) (p : Nat) : SuspectAt c (resetRates ps p s) :=
  h.of_colls (k_resetRates (within_self _) ps p (Keeps.refl _ s)).same_colls

theorem SuspectAt.updColl (h : SuspectAt c s) (d : Nat) {g : Coll → Coll} (keeps : ∀ y, (g y).state = y.state) : SuspectAt c (updColl d g s) := by
  obtain ⟨z, found, suspect⟩ := h
  by_cases same : c = d
  · subst same
    exact ⟨_, tget_tset_same .., by rw [keeps]; simpa [coll, tgetD, found] using suspect⟩
  · exact ⟨z, (tget_tset_other _ _ same).trans found, suspect⟩

theorem SuspectAt.foldl {α : Type} {f : State → α → State} (h : SuspectAt c s) (each : ∀ u a, SuspectAt c u → SuspectAt c (f u a)) (l : List α) :
    SuspectAt c (l.foldl f s) :=
  List.foldlRecOn l f h fun u hu a _ => each u a hu

theorem SuspectAt.freeBricks (h : SuspectAt c s) (d : Nat) (bs : List Nat) : SuspectAt c (freeBricks d bs s) := by
  unfold Machine.freeBricks
  refine SuspectAt.foldl (f := fun s p => returnLent d p s) ?_ (fun u p hu => hu.of_colls (returnLent_colls ..)) _
  refine (((h.foldl (fun u b hu => ?_) bs).updColl d ?_).setPtns _)
  · split
    · exact hu.updColl d fun _ => rfl
    · exact hu
  · exact fun _ => rfl

theorem SuspectAt.abandonTamps (h : SuspectAt c s) (p : Nat) : SuspectAt c (abandonTamps p s) := by
  unfold Machine.abandonTamps
  refine h.foldl (fun u a hu => hu.foldl (fun v l hv => ?_) _) _
  dsimp only
  split
  · exact (hv.freeBricks ..).updColl _ fun _ => rfl
  · exact hv

theorem SuspectAt.refreshCopies (h : SuspectAt c s) (p : Nat) : SuspectAt c (refreshCopies p s) := by
  unfold Machine.refreshCopies
  obtain ⟨z, found, suspect⟩ := h
  simp only [SuspectAt, tget_tmap, found]
  refine ⟨_, rfl, ?_⟩
  dsimp only
  split <;> exact suspect

/-- After a reset of class memory a collection with frames in the partition is SUSPECT (R114). -/
theorem suspectAt_suspectIn {p : Nat} {y : Coll} (found : tget s.colls c = some y) (used : y.state ≠ .free) (frames : framesIn s p c y = true) :
    SuspectAt c (suspectIn p s) := by
  unfold suspectIn
  simp only [SuspectAt, tget_tmap, found]
  refine ⟨_, rfl, ?_⟩
  dsimp only
  rw [if_pos (by simp [used, frames])]

theorem suspectAt_emptied {p : Nat} {f : FenceRec} {y : Coll} (memory : f.memory = true) (found : tget s.colls c = some y) (used : y.state ≠ .free)
    (frames : framesIn s p c y = true) : SuspectAt c (emptied p f s) := by
  have charged := fun u => (k_chargeWhere (within_self _) (fun q _ _ => q == p) (Keeps.refl _ u)).same_colls
  have marked := ((suspectAt_suspectIn found used frames).of_colls (charged _)).abandonTamps p
  unfold emptied
  simp only [memory, if_true]
  split
  · exact ((marked.updPtn p resetEngines).resetRates _ p).endLevels p
  · exact (marked.updPtn p resetEngines).endLevels p

theorem SuspectAt.endL2 {p : Nat} {f : FenceRec} (h : SuspectAt c (emptied p f s)) : SuspectAt c (endL2 p f s) := by
  have cold := fun u => (k_goCold (within_self _) p (Keeps.refl _ u)).same_colls
  have served := fun u => (k_serveWaits (within_self _) p (Keeps.refl _ u)).same_colls
  unfold Machine.endL2
  dsimp only
  repeat' split
  · exact h.of_colls (k_ptnOut (within_self _) p (Keeps.refl _ _)).same_colls
  · exact h.of_colls (ptnChange_colls ..)
  · exact h.of_colls (ptnChange_colls ..)
  · exact h.of_colls (cold _)
  · exact (((h.updPtn p _).refreshCopies p).of_colls (ptnChange_colls ..)).of_colls (served _)

end Suspect

/-! #### The end of a partition reset: the partition (R225, R357, R358, R362–R364) -/

theorem emptied_keeps (p : Nat) (f : FenceRec) (s : State) : Keeps [.ptns, .ctxs, .colls, .cmds, .levels] s (emptied p f s) :=
  k_emptied (within_self _) p f (Keeps.refl _ s)

/-- The temperature filter restarts; a hold at thermal step 4 stays one (R225, R358). -/
theorem temp_emptied (p : Nat) (f : FenceRec) (s : State) : (ptn (emptied p f s) p).temp = { step := if (ptn s p).temp.step = 4 then 4 else 0 } := by
  have same : (ptn (if f.memory = true then suspectIn p s else s) p).temp = (ptn s p).temp := by split <;> rfl
  unfold emptied
  dsimp only
  generalize (if f.memory = true then suspectIn p s else s) = v at same
  have kept : (ptn (abandonTamps p (chargeWhere (fun q _ _ => q == p) v)) p).temp = (ptn s p).temp :=
    ((abandonTamps_ptn (·.temp) (fun _ _ _ _ => rfl) p _ p).trans (chargeWhere_ptn (·.temp) (fun _ _ _ => ⟨rfl, rfl⟩) _ v p)).trans same
  have reset : (ptn (updPtn p resetEngines (abandonTamps p (chargeWhere (fun q _ _ => q == p) v))) p).temp = { step := if (ptn s p).temp.step = 4 then 4 else 0 } := by
    rw [ptn_updPtn_same, ← kept]
    rfl
  have rates : ∀ ps u, (ptn (resetRates ps p u) p).temp = (ptn u p).temp := fun ps u => ptn_updReg (·.temp) (fun _ _ => rfl) ..
  split
  · exact (rates _ _).trans reset
  · exact reset

theorem step4_emptied (p : Nat) (f : FenceRec) (s : State) : (ptn (emptied p f s) p).temp.step = 4 ↔ (ptn s p).temp.step = 4 := by
  rw [temp_emptied]
  dsimp only
  split <;> simp_all

theorem exec_partitionResetDone_of_due {s : State} {p : Fin 12} {f : FenceRec} (fenced : (ptn s p.val).fence = some f) (last : f.step = 6)
    (resetting : (ptn s p.val).service = .resetting) : exec (.partitionResetDone p) s = .next (endL2 p.val f s) := by
  refine congrArg Host.Outcome.next ?_
  rw [fenced]
  exact if_pos ⟨last, resetting⟩

theorem creating_of_hearth {s t : State} (h : t.hearth = s.hearth) (p : Nat) : creating t p = creating s p := by
  unfold creating openTickets
  rw [h]

section Outcome

variable {p : Nat} {f : FenceRec} {s : State}

/-- A partition is on the list of those that are OUT_OF_SERVICE (R362). -/
def outListed (p : Nat) (s : State) : State :=
  updAon (fun a => { a with ptnOos := if a.ptnOos.contains p then a.ptnOos else p :: a.ptnOos }) s

theorem mem_outListed (p : Nat) (s : State) : p ∈ (outListed p s).aon.ptnOos := by
  simp only [outListed, updAon]
  split
  · exact List.contains_iff_mem.mp ‹_›
  · exact List.mem_cons_self

/-- The third reset in its window takes the partition out (R362). -/
theorem endL2_of_last (third : lastL2 s p = true) : endL2 p f s = ptnOut p (emptied p f s) := if_pos third

/-- A partition held BANKED with the module OUT_OF_SERVICE (R364). -/
def heldOut (x : Ptn) : Ptn := holdBanked { x with power := .forge, service := .fenced, fence := none }

/-- A partition held BANKED at thermal step 4 (R225). -/
def heldHot (f : FenceRec) (x : Ptn) : Ptn :=
  { x with power := .banked, saved := true, service := .fenced, fence := some { step := 6, code := f.code, thermal := true }
           round := { x.round with running := false } }

/-- A partition back in FORGE and in service (R357). -/
def backInService (zeroes : Bool) (x : Ptn) : Ptn :=
  { x with power := .forge, service := .inService, fence := none, zeroising := zeroes, round := restartRound x.round }

theorem endL2_of_oos (another : lastL2 s p = false) (oos : s.aon.oos = true) :
    endL2 p f s = ptnChange p (updPtn p heldOut (emptied p f s)) :=
  (if_neg (by simp [another])).trans (if_pos ((congrArg Aon.oos (emptied_keeps p f s).same_aon).trans oos))

variable (another : lastL2 s p = false) (inService : s.aon.oos = false)
include another inService

theorem endL2_of_served : endL2 p f s = if (ptn (emptied p f s) p).temp.step = 4 then ptnChange p (updPtn p (heldHot f) (emptied p f s))
    else if (ptn (emptied p f s) p).job.isNone && !creating (emptied p f s) p then goCold p (emptied p f s)
    else serveWaits p (ptnChange p (refreshCopies p (updPtn p (backInService (creating (emptied p f s) p)) (emptied p f s)))) :=
  (if_neg (by simp [another])).trans (if_neg (by rw [(emptied_keeps p f s).same_aon]; simp [inService]))

theorem endL2_of_hot (hot : (ptn s p).temp.step = 4) : endL2 p f s = ptnChange p (updPtn p (heldHot f) (emptied p f s)) :=
  (endL2_of_served another inService).trans (if_pos ((step4_emptied p f s).mpr hot))

end Outcome

section Owner

variable {p : Fin 12} {f : FenceRec} {s : State} (another : lastL2 s p.val = false) (inService : s.aon.oos = false) (cool : (ptn s p.val).temp.step ≠ 4)
include another inService cool

theorem endL2_of_cool : endL2 p.val f s = if (ptn s p.val).job.isNone && !creating s p.val then goCold p.val (emptied p.val f s)
    else serveWaits p.val (ptnChange p.val (refreshCopies p.val (updPtn p.val (backInService (creating s p.val)) (emptied p.val f s)))) := by
  obtain ⟨_, owner, _⟩ := emptied_facts p f s
  rw [endL2_of_served another inService, if_neg (mt (step4_emptied p.val f s).mp cool), owner,
    creating_of_hearth (emptied_keeps p.val f s).same_hearth]

theorem endL2_of_unowned (unowned : (ptn s p.val).job = none) (idle : creating s p.val = false) :
    endL2 p.val f s = goCold p.val (emptied p.val f s) :=
  (endL2_of_cool another inService cool).trans (if_pos (by simp [unowned, idle]))

theorem endL2_of_owned (owned : (ptn s p.val).job.isSome = true ∨ creating s p.val = true) :
    endL2 p.val f s = serveWaits p.val (ptnChange p.val (refreshCopies p.val (updPtn p.val (backInService (creating s p.val)) (emptied p.val f s)))) := by
  refine (endL2_of_cool another inService cool).trans (if_neg ?_)
  rcases owned with owned | waits
  · simp [Option.ne_none_iff_isSome.mpr owned]
  · simp [waits]

end Owner

/-- The engines after a partition reset: no work, residency, lock or line is left (R358). -/
structure EnginesEmpty (x : Ptn) : Prop where
  resident : x.resident = []
  rowQ : x.rowQ = []
  chunkQ : x.chunkQ = []
  locked : x.locked = []
  atomQ : x.atomQ = []
  wcb : x.wcb = []
  holders : x.holders = []
  anvils : ∀ a ∈ x.anvils, a.2 = { usable := a.2.usable, ceCnt := a.2.ceCnt }

theorem enginesEmpty_emptied (p : Fin 12) (f : FenceRec) (s : State) : EnginesEmpty (ptn (emptied p.val f s) p.val) := by
  obtain ⟨⟨x, r, reset⟩, _⟩ := emptied_facts p f s
  rw [reset]
  refine ⟨rfl, rfl, rfl, ?_, rfl, rfl, rfl, fun a ha => ?_⟩
  · simp [resetEngines, unlockLines]
  · obtain ⟨b, _, rfl⟩ := List.mem_map.mp ha
    rfl

theorem levels_emptied (p : Fin 12) (f : FenceRec) (s : State) : ∀ l ∈ (emptied p.val f s).levels, l.level ≠ .l2 p :=
  (emptied_facts p f s).2.2.1

/-- A partition in COLD keeps its service, and no fence (R390, R391). -/
theorem ptn_goCold (p : Nat) (s : State) : ∃ x, ptn (goCold p s) p = coldPtn x ∧ x.service = (ptn s p).service := by
  have service : (ptn (zeroRange (p * 2 ^ 36) (2 ^ 36) s) p).service = (ptn s p).service := by
    unfold zeroRange
    refine (ptn_mapPtns (·.service) ?_ { s with hbm := _, poison := _ } p)
    exact fun _ _ => rfl
  exact ⟨_, (ptn_ptnChange ..).trans (ptn_updPtn_same ..), service⟩

theorem settledBatch_has_no_work {s : State} {p c : Nat} {x : Cmd} (found : cmd? s c = some x) (settled : settledBatch x = true) : c ∉ cmdsIn s p := by
  intro h
  have work := (List.mem_filter.mp h).2
  simp [hasWorkIn, found, settled] at work

theorem failCmd_of_mustCommit {s : State} {c : Nat} {x : Cmd} (found : cmd? s c = some x) (bound : mustCommit x = true) (st : Status) (code : W32) :
    failCmd c st code s = s := if_pos (by simp [found, bound])

/-- Settles O43: a fence is marked, drained and followed by a reset, which empties the partition and gives it the first of its outcomes that
applies. -/
theorem fencesAndPartitionResets : Obligations.FencesAndPartitionResets := by
  refine ⟨fun s p f fenced due => ?_, fun s p f fenced window => ?_, fun s p => ⟨fun undue => ?_, fun closed => ?_, fun idle => ?_⟩,
    fun s p c x found settled => ⟨settledBatch_has_no_work found settled, failCmd_of_mustCommit found⟩,
    fun s p c f y fenced last resetting memory found used frames => ?_, fun s p f fenced last resetting third => ?_,
    fun s p f fenced last resetting another inService cool owned => ?_, fun s p f fenced last resetting another inService hot => ?_,
    fun s p f fenced last resetting another inService cool unowned idle => ?_, fun s p f fenced last resetting another oos => ?_⟩
  · refine ⟨_, congrArg Host.Outcome.next (startFence_of_due fenced due), ?_, ptnChange_pends .., ptnChange_cmds ..⟩
    rw [ptn_ptnChange, ptn_updPtn_same]
  · have view := drainView_drainedOf p.val f s
    simp only [drainView, Prod.mk.injEq] at view
    obtain ⟨fence, farQ, atomQ, wcb⟩ := view
    have drained := ptn_endDrain fenced window
    refine ⟨endDrain p.val s, rfl, by rw [drained]; exact farQ, by rw [drained]; exact atomQ, by rw [drained]; exact fence, ?_, fun w asked => ?_,
      fun c x works found unfixed live free => ?_⟩
    · rw [drained]; simp [drainFence]
    · rw [drained] at asked
      simp only [List.getLast?_concat, Option.some.injEq] at asked
      rw [← asked]; rfl
    · obtain ⟨y, ended⟩ := drainedOf_ends f works found unfixed live free
      exact ⟨y, (cmd_of c (cmds_endDrain fenced window)).trans ended.1, ended.2⟩
  · exact congrArg Host.Outcome.next (startFence_of_not_due undue)
  · exact congrArg Host.Outcome.next (endDrain_of_no_window closed)
  · refine congrArg Host.Outcome.next ?_
    split
    · exact if_neg fun h => idle _ ‹_› h.1 h.2
    · rfl
  · obtain ⟨z, here, suspect⟩ := (suspectAt_emptied (p := p.val) memory found used frames).endL2
    exact ⟨_, z, exec_partitionResetDone_of_due fenced last resetting, here, suspect⟩
  · refine ⟨_, (exec_partitionResetDone_of_due fenced last resetting).trans (congrArg Host.Outcome.next (endL2_of_last third)), ?_⟩
    obtain ⟨x, cold, service⟩ := ptn_goCold p.val (updPtn p.val (fun x => { x with service := .oos }) (outListed p.val (emptied p.val f s)))
    rw [ptn_updPtn_same] at service
    refine ⟨congrArg Ptn.power cold, (congrArg Ptn.service cold).trans (if_pos service), ?_⟩
    have aon : (ptnOut p.val (emptied p.val f s)).aon = (outListed p.val (emptied p.val f s)).aon :=
      (k_goCold (within_self _) p.val (Keeps.refl _ _)).same_aon
    rw [aon]
    exact mem_outListed ..
  · refine ⟨_, (exec_partitionResetDone_of_due fenced last resetting).trans (congrArg Host.Outcome.next (endL2_of_owned another inService cool owned)), ?_⟩
    rw [ptn_ptnChange, ptn_of p.val (refreshCopies_ptns ..), ptn_updPtn_same]
    have empty := enginesEmpty_emptied p f s
    exact ⟨rfl, rfl, rfl, empty.resident, empty.rowQ, empty.chunkQ, empty.locked, empty.atomQ, empty.wcb, empty.holders, empty.anvils,
      by rw [ptnChange_levels]; exact levels_emptied p f s, ptnChange_pends ..⟩
  · refine ⟨_, (exec_partitionResetDone_of_due fenced last resetting).trans (congrArg Host.Outcome.next (endL2_of_hot another inService hot)), ?_⟩
    rw [ptn_ptnChange, ptn_updPtn_same]
    have empty := enginesEmpty_emptied p f s
    exact ⟨rfl, rfl, rfl, (step4_emptied p.val f s).mpr hot, rfl, empty.resident, empty.holders, by rw [ptnChange_levels]; exact levels_emptied p f s⟩
  · refine ⟨_, (exec_partitionResetDone_of_due fenced last resetting).trans (congrArg Host.Outcome.next (endL2_of_unowned another inService cool unowned idle)), ?_⟩
    obtain ⟨x, cold, _⟩ := ptn_goCold p.val (emptied p.val f s)
    refine ⟨congrArg Ptn.power cold, congrArg Ptn.fence cold, ?_⟩
    rw [(k_goCold (within_self _) p.val (Keeps.refl _ (emptied p.val f s))).same_levels]
    exact levels_emptied p f s
  · refine ⟨_, (exec_partitionResetDone_of_due fenced last resetting).trans (congrArg Host.Outcome.next (endL2_of_oos another oos)), ?_⟩
    rw [ptn_ptnChange, ptn_updPtn_same]
    exact ⟨rfl, rfl, rfl, rfl, by rw [ptnChange_levels]; exact levels_emptied p f s⟩

end Sys2Proof.Machine

/-! ### Tamping (R97, R99, R106–R109, R142) -/

namespace Sys2Proof.Machine

/-! #### An anvil that is freed (R60, R242) -/

section Charge

variable {β : Type} (g : Ptn → β) (hg : ∀ (x : Ptn) v a, g { x with vtime := v } = g x ∧ g { x with anvils := a } = g x)
include hg

theorem ptn_chargeCtx (p ctx : Nat) (bulk : Bool) (w x : Nat) (s : State) (q : Nat) : g (ptn (chargeCtx p ctx bulk w x s) q) = g (ptn s q) := by
  have counted : ∀ f, ptn (updCtx ctx f s) q = ptn s q := fun f => ptn_of q (updCtx_ptns ..)
  unfold chargeCtx
  dsimp only
  split
  · rw [counted]
  · rw [ptn_updPtn_of g fun y => (hg y _ []).1, counted]

theorem ptn_updAnvil (p i : Nat) (f : Anvil → Anvil) (s : State) (q : Nat) : g (ptn (updAnvil p i f s) q) = g (ptn s q) :=
  ptn_updPtn_of g (fun y => (hg y [] _).2) q

theorem ptn_chargeAnvil (p i : Nat) (s : State) (q : Nat) : g (ptn (chargeAnvil p i s) q) = g (ptn s q) := by
  have cycles : ∀ c f (u : State), g (ptn (updCmd c f u) q) = g (ptn u q) := fun c f u => congrArg g (ptn_of q (updCmd_ptns ..))
  have charged := fun c bulk w x u => ptn_chargeCtx g hg p c bulk w x u q
  have lanes : ∀ bulk ls x u, g (ptn (chargeLanes p bulk ls x u) q) = g (ptn u q) := fun bulk ls x u =>
    foldl_same (fun u => g (ptn u q)) (fun v l => by dsimp only; split <;> simp only [charged, cycles]) _ u
  have chunk : ∀ k x u, g (ptn (chargeChunk p k x u) q) = g (ptn u q) := fun k x u => by
    unfold chargeChunk
    split
    · simp only [charged, cycles]
    · split <;> simp only [charged]
  unfold chargeAnvil
  dsimp only
  split
  · rw [chunk, ptn_updAnvil g hg]
  · rw [lanes, ptn_updAnvil g hg]

theorem ptn_freeAnvil (p i : Nat) (s : State) (q : Nat) : g (ptn (freeAnvil p i s) q) = g (ptn s q) :=
  (ptn_updAnvil g hg ..).trans (ptn_chargeAnvil g hg ..)

end Charge

/-! #### What the work on an index looks at -/

/-- What work on a collection looks at in a partition: whether it runs, its fence, its tombstones. -/
def indexView (x : Ptn) : Power × Option Nat × Service × Option FenceRec × Tbl LogEnt × Tbl TombRec :=
  (x.power, x.banking, x.service, x.fence, x.log, x.tombs)

/-- The collections, jobs and what work on a collection looks at in a partition are the same in s and t. -/
structure SameIndex (s t : State) : Prop where
  colls : t.colls = s.colls
  jobs : t.jobs = s.jobs
  ptns : ∀ q, indexView (ptn t q) = indexView (ptn s q)

theorem sameIndex_freeAnvil (p i : Nat) (s : State) : SameIndex s (freeAnvil p i s) where
  colls := (k_freeAnvil (within_self _) p i (Keeps.refl _ s)).same_colls
  jobs := (k_freeAnvil (within_self _) p i (Keeps.refl _ s)).same_jobs
  ptns q := ptn_freeAnvil indexView (fun _ _ _ => ⟨rfl, rfl⟩) p i s q

section SameIndex

variable {s t : State} (h : SameIndex s t)
include h

theorem SameIndex.coll_eq (c : Nat) : coll t c = coll s c := coll_of c h.colls

theorem SameIndex.engineRuns_eq (p : Nat) : engineRuns t p = engineRuns s p := by
  have view := h.ptns p
  simp only [indexView, Prod.mk.injEq] at view
  obtain ⟨power, banking, service, _⟩ := view
  simp only [engineRuns, anvilClock, power, banking, service]

theorem SameIndex.tombstoned_eq : tombstoned t = tombstoned s := by
  funext r
  have view := h.ptns (ptnOfAddr r.brick)
  simp only [indexView, Prod.mk.injEq] at view
  obtain ⟨_, _, _, _, log, tombs⟩ := view
  simp only [tombstoned, tombNow, logOf, tombRec, log, tombs]

theorem SameIndex.liveSlots_eq (c : Nat) (bs : List Nat) : liveSlots t c bs = liveSlots s c bs := by
  unfold liveSlots
  rw [h.coll_eq, h.tombstoned_eq]

theorem SameIndex.turnedAway_eq (ps : List Nat) : turnedAway t ps = turnedAway s ps := by
  have fence : ∀ p, (ptn t p).fence = (ptn s p).fence := fun p => congrArg (·.2.2.2.1) (h.ptns p)
  simp only [turnedAway, pastDrain, fenceCode, fence]

end SameIndex

/-- Work whose effect is nothing does nothing, at its turn or not. -/
theorem onlyIf_of_same {may : Bool} {g : State → State} {s : State} (same : g s = s) : onlyIf may g s = .next s := by
  rw [onlyIf, same, ite_self]

/-! #### CUT (R106, R107) -/

section Tamp

variable {s u : State} {c l : Nat}

theorem leaf_of_leaves {x y : Coll} (h : x.leaves = y.leaves) (l : Nat) : leaf x l = leaf y l := by
  unfold leaf
  rw [h]

theorem leaves_updBrick (c b n : Nat) (f : Brick → Brick) (s : State) : (coll (updBrick c b f s) n).leaves = (coll s n).leaves :=
  proj_updColl (·.leaves) s fun y => by split <;> rfl

theorem leaves_freshBrick {ro : Bool} {p kind a : Nat} {base : Epoch} (taken : freshBrick ro c p kind l base s = some (a, u)) :
    (coll u c).leaves = (coll s c).leaves := by rw [freshBrick_coll taken]

/-- What an update of a brick leaves of every brick, it leaves where it finds the brick in a table. -/
theorem brick_updBrick_any {q : Brick → Bool} {f : Brick → Brick} (keeps : ∀ b, q (f b) = q b) (c b a : Nat) (s : State) :
    (brick? (coll (updBrick c b f s) c) a).any q = (brick? (coll s c) a).any q := by
  unfold updBrick
  rw [coll_updColl_same]
  cases found : brick? (coll s c) b with
  | none => rfl
  | some k =>
    by_cases same : a = b
    · subst same; simpa [brick?, found, keeps] using congrArg (Option.any q) found.symm
    · simp [brick?, same]

theorem cutList_of_brick {a : Nat} (taken : freshBrick true c (leaf (coll s c) l).owner 1 l (openEpoch (coll s c)) s = some (a, u)) :
    ∃ v, cutList c l s = updLeaf c l (fun k => { k with
        state := .copy, cutEpoch := (coll s c).latest, pre := k.run ++ k.chain, copied := 0, copies := [], copyMap := [], chain := k.chain ++ [a] }) v ∧
      (coll v c).leaves = (coll s c).leaves ∧ (brick? (coll v c) a).any (fun b => b.kind == 1 && b.list == l) = true := by
  have fresh : (brick? (coll u c) a).any (fun b => b.kind == 1 && b.list == l) = true := by
    rw [freshBrick_coll taken]
    simp [brick?]
  unfold cutList
  simp only [taken]
  refine ⟨_, rfl, ?_⟩
  split
  · refine ⟨(leaves_updBrick ..).trans (leaves_freshBrick taken), (brick_updBrick_any ?_ ..).trans fresh⟩
    exact fun _ => rfl
  · exact ⟨leaves_freshBrick taken, fresh⟩

theorem cutList_of_none (full : freshBrick true c (leaf (coll s c) l).owner 1 l (openEpoch (coll s c)) s = none) : cutList c l s = s := by
  unfold cutList
  simp only [full]

theorem brick_updLeaf (c l : Nat) (f : Leaf → Leaf) (s : State) (b : Nat) : brick? (coll (updLeaf c l f s) c) b = brick? (coll s c) b := by
  rw [updLeaf, coll_updColl_same]
  rfl

/-! #### COPY (R107, R109) -/

/-- The source bricks of the next COPY chunk of a list. -/
def copySources (s : State) (c l : Nat) : List Nat := ((leaf (coll s c) l).pre.drop (leaf (coll s c) l).copied).take 256

/-- A list's COPY chunk whose slots are copied (u): the moved lines are counted, the leaf is widened, the sources are passed (R107). -/
def chunkCopied (c l : Nat) (v u : State) : State :=
  updLeaf c l (fun k => { k with copied := k.copied + (copySources v c l).length })
    ((liveSlots v c (copySources v c l)).foldl (fun s q => widenLeaf c l (memberPoints (coll s c) q.2.input q.2.enc) s)
      (engineMove (some (leaf (coll v c) l).owner) (careCtx u c) (leaf (coll v c) l).owner
        (2 * (liveSlots v c (copySources v c l)).length * slotLines (coll u c)) u))

/-- A part of the collection that holds neither strata nor leaves is what the copies left. -/
theorem proj_chunkCopied {β : Type} (q : Coll → β) (hq : ∀ y st ls, q { y with strata := st, leaves := ls } = q y) (c l : Nat) (v u : State) :
    q (coll (chunkCopied c l v u) c) = q (coll u c) := by
  refine (proj_updColl q _ fun y => hq y y.strata _).trans ((proj_foldl q _ c (fun s a => proj_updColl q s fun y => hq y _ y.leaves) _ _).trans ?_)
  exact congrArg q (coll_of c (k_engineMove (within_self _) _ _ _ _ (Keeps.refl _ u)).same_colls)

theorem leaf_chunkCopied (c l : Nat) (v u : State) : leaf (coll (chunkCopied c l v u) c) l =
    { leaf (coll u c) l with copied := (leaf (coll u c) l).copied + (copySources v c l).length } := by
  have moved := fun i x p n => coll_of c (k_engineMove (within_self _) i x p n (Keeps.refl _ u)).same_colls
  have widened : ∀ qs w, (coll (List.foldl (fun s (q : SlotRef × Slot) => widenLeaf c l (memberPoints (coll s c) q.2.input q.2.enc) s) w qs) c).leaves =
      (coll w c).leaves := by
    intro qs w
    refine proj_foldl (·.leaves) _ c (fun s _ => proj_updColl (·.leaves) s ?_) qs w
    exact fun _ => rfl
  rw [chunkCopied, leaf_updLeaf, leaf_of_leaves (widened ..), moved]

theorem copyChunk_of_full {v : State} (full : (liveSlots v c (copySources v c l)).foldl (fun o q => o.bind (copySlot c l q)) (some v) = none) :
    copyChunk c l v = v := by
  rw [copySources] at full
  unfold copyChunk
  simp only [full]

/-- A chunk copied: its list is given up with too many extents, goes to be committed after its last source, else goes on (R107, R109). -/
theorem copyChunk_of_copied {v u : State} (copied : (liveSlots v c (copySources v c l)).foldl (fun o q => o.bind (copySlot c l q)) (some v) = some u) :
    copyChunk c l v =
      if (extentList (frameSize (coll u c)) (leaf (coll u c) l).copies).length > 12 then raise .listOversize 2 l 0 (abandonTamp c l (chunkCopied c l v u))
      else if (leaf (coll u c) l).copied + (copySources v c l).length ≥ (leaf (coll u c) l).pre.length then
        updLeaf c l (fun k => { k with state := .commit }) (chunkCopied c l v u)
      else chunkCopied c l v u := by
  have step : copyChunk c l v =
      if (extentList (frameSize (coll (chunkCopied c l v u) c)) (leaf (coll (chunkCopied c l v u) c) l).copies).length > 12 then
        raise .listOversize 2 l 0 (abandonTamp c l (chunkCopied c l v u))
      else if (leaf (coll (chunkCopied c l v u) c) l).copied ≥ (leaf (coll (chunkCopied c l v u) c) l).pre.length then
        updLeaf c l (fun k => { k with state := .commit }) (chunkCopied c l v u)
      else chunkCopied c l v u := by
    rw [copySources] at copied
    unfold copyChunk
    simp only [copied]
    rfl
  rw [step, leaf_chunkCopied, proj_chunkCopied frameSize fun _ _ _ => rfl]

theorem endCopy_of_none (idle : chunkAnvil s (leaf (coll s c) l).owner (isCopy c l) = none) : endCopy c l s = s := by
  unfold endCopy
  simp only [idle]

/-- The COPY chunk that an anvil runs ends: the anvil is free, and a list still being copied in a partition at work goes on. -/
theorem endCopy_of_chunk {i : Nat} (runs : chunkAnvil s (leaf (coll s c) l).owner (isCopy c l) = some i) :
    endCopy c l s = if (leaf (coll s c) l).state == .copy && engineRuns s (leaf (coll s c) l).owner then
      copyChunk c l (freeAnvil (leaf (coll s c) l).owner i s) else freeAnvil (leaf (coll s c) l).owner i s := by
  have same := sameIndex_freeAnvil (leaf (coll s c) l).owner i s
  unfold endCopy
  simp only [runs, same.coll_eq, same.engineRuns_eq]

theorem SameIndex.copySources_eq {t : State} (h : SameIndex s t) (c l : Nat) : copySources t c l = copySources s c l := by
  unfold copySources
  rw [h.coll_eq]

/-- A COPY chunk that ends in a partition at work, its slots copied, from the state in which its anvil ran it (R242). -/
theorem endCopy_of_copied {i : Nat} (runs : chunkAnvil s (leaf (coll s c) l).owner (isCopy c l) = some i)
    (state : (leaf (coll s c) l).state = .copy) (works : engineRuns s (leaf (coll s c) l).owner = true)
    (copied : (liveSlots s c (copySources s c l)).foldl (fun o q => o.bind (copySlot c l q)) (some (freeAnvil (leaf (coll s c) l).owner i s)) = some u) :
    endCopy c l s =
      if (extentList (frameSize (coll u c)) (leaf (coll u c) l).copies).length > 12 then
        raise .listOversize 2 l 0 (abandonTamp c l (chunkCopied c l (freeAnvil (leaf (coll s c) l).owner i s) u))
      else if (leaf (coll u c) l).copied + (copySources s c l).length ≥ (leaf (coll u c) l).pre.length then
        updLeaf c l (fun k => { k with state := .commit }) (chunkCopied c l (freeAnvil (leaf (coll s c) l).owner i s) u)
      else chunkCopied c l (freeAnvil (leaf (coll s c) l).owner i s) u := by
  have same := sameIndex_freeAnvil (leaf (coll s c) l).owner i s
  rw [← same.copySources_eq, ← same.liveSlots_eq] at copied
  rw [endCopy_of_chunk runs, if_pos (by simp [state, works]), copyChunk_of_copied copied, same.copySources_eq]

/-- A COPY chunk of a list no longer copied, of a halted partition or without a frame only frees its anvil (R107). -/
theorem endCopy_of_stuck {i : Nat} (runs : chunkAnvil s (leaf (coll s c) l).owner (isCopy c l) = some i)
    (stuck : (leaf (coll s c) l).state ≠ .copy ∨ engineRuns s (leaf (coll s c) l).owner = false ∨
      (liveSlots s c (copySources s c l)).foldl (fun o q => o.bind (copySlot c l q)) (some (freeAnvil (leaf (coll s c) l).owner i s)) = none) :
    endCopy c l s = freeAnvil (leaf (coll s c) l).owner i s := by
  have same := sameIndex_freeAnvil (leaf (coll s c) l).owner i s
  rw [endCopy_of_chunk runs]
  rcases stuck with idle | halted | full
  · exact if_neg (by simp [idle])
  · exact if_neg (by simp [halted])
  · rw [← same.copySources_eq, ← same.liveSlots_eq] at full
    rw [copyChunk_of_full full, ite_self]

/-- A tamp given up: the list stands still, and the frames of its copies are free (R109). -/
theorem leaf_abandonTamp (c l : Nat) (s : State) :
    leaf (coll (abandonTamp c l s) c) l = { leaf (coll s c) l with state := .idle, pre := [], copied := 0, copies := [], copyMap := [] } := by
  unfold abandonTamp
  rw [leaf_updLeaf, leaf_of_leaves (freeBricks_proj (·.leaves) (fun _ _ _ _ _ => rfl) ..)]

theorem bricks_abandonTamp (c l : Nat) (s : State) : ∀ b ∈ (leaf (coll s c) l).copies, brick? (coll (abandonTamp c l s) c) b = none := by
  intro b copy
  unfold abandonTamp
  rw [brick_updLeaf, freeBricks_gone _ _ _ b copy]

/-! #### COMMIT (R93, R108, R142) -/

/-- What a tamp's commit builds on in a collection: its commits, its keys and its lists. -/
def tampView (y : Coll) : Nat × Nat × Tbl KeyEnt × Tbl Leaf := (y.openCommits, y.csn, y.keys, y.leaves)

theorem proj_setHorizon {β : Type} (q : Coll → β) (hq : ∀ y h p, q { y with horizon := h, ptns := p } = q y) (n : Nat) (h : Epoch) (s : State) (c : Nat) :
    q (coll (setHorizon n h s) c) = q (coll s c) := by
  unfold setHorizon
  dsimp only
  rw [coll_of c (k_settleLog (within_self _) n h (Keeps.refl _ _)).same_colls]
  refine (proj_updColl q _ ?_).trans (congrArg q (coll_writeCopies n c s))
  exact fun y => hq y _ _

theorem proj_liftHorizons {β : Type} (q : Coll → β) (hq : ∀ y h p, q { y with horizon := h, ptns := p } = q y) (s : State) (c : Nat) :
    q (coll (liftHorizons s) c) = q (coll s c) := by
  have one : ∀ n (u : State), q (coll (liftHorizon n u) c) = q (coll u c) := by
    intro n u
    unfold liftHorizon
    dsimp only
    split
    · exact proj_setHorizon q hq n _ u c
    · rfl
  unfold liftHorizons
  exact proj_foldl q _ c (fun u x => proj_foldl q _ c (fun v n => one n v) _ u) _ s

/-- The tombstones and postings of a tamp's commit, where the log and the regions hold them (R93, R142). -/
def tampWritten (c l : Nat) (s : State) : Option State :=
  let alive := (leaf (coll s c) l).copyMap.filter fun m => !tombstoned s m.1
  (tombMoved c (alive.map (·.1)) s).bind fun v =>
    if hasSparse (coll s c) then alive.foldl (fun o m => o.bind (movePostings c (openEpoch (coll s c)) m)) (some v) else some v

theorem tombMoved_keeps (qs : List SlotRef) : KeepsIf [.host, .ptns, .hearth] s (tombMoved c qs s) :=
  k_tombMoved (within_self _) c qs (Keeps.refl _ s)

theorem tampView_tampWritten {u : State} (written : tampWritten c l s = some u) : tampView (coll u c) = tampView (coll s c) := by
  obtain ⟨v, tombs, postings⟩ := Option.bind_eq_some_iff.mp written
  have same : coll v c = coll s c := coll_of c ((tombMoved_keeps _).get v tombs).same_colls
  split at postings
  · refine PartIs.foldl (f := movePostings c (openEpoch (coll s c))) (fun m w => proj_movePostings tampView (fun _ _ => rfl) c _ m c w) _ ?_ u postings
    rintro w ⟨⟩
    rw [same]
  · cases postings
    rw [same]

/-- The partitions that a tamp's commit writes into: its owner, and those of its keys (R95, R353). -/
def tampReach (s : State) (c l : Nat) : List Nat := (leaf (coll s c) l).owner :: keyPtns s c ((leaf (coll s c) l).copyMap.map (·.1))

/-- The directory after a tamp's commit, its horizons lifted and its copies settled (R93, R108). -/
def tampSettled (s : State) (c l : Nat) (u : State) : State :=
  ((leaf (coll s c) l).copyMap.filter fun m => tombstoned s m.1).foldl (fun s m => setSettled m.2 s)
    (liftHorizons (moveLines (some (leaf (coll s c) l).owner) (careCtx u c) (keyPtns s c ((leaf (coll s c) l).copyMap.map (·.1))) u))

theorem tampView_tampSettled {u : State} (written : tampWritten c l s = some u) : tampView (coll (tampSettled s c l u) c) = tampView (coll s c) := by
  have settled := fun m (v : State) => coll_of c (k_setSettled (within_self _) m (Keeps.refl _ v)).same_colls
  have moved := fun i x ps => coll_of c (k_moveLines (within_self _) i x ps (Keeps.refl _ u)).same_colls
  unfold tampSettled
  refine (foldl_same (fun v => tampView (coll v c)) (g := fun v (m : SlotRef × SlotRef) => setSettled m.2 v)
    (fun v m => congrArg tampView (settled m.2 v)) _ _).trans ?_
  rw [proj_liftHorizons tampView fun _ _ _ => rfl, moved, tampView_tampWritten written]

theorem commitTamp_of_turnedAway (fenced : (turnedAway s (tampReach s c l)).isSome = true) : commitTamp c l s = s := by
  rw [tampReach] at fenced
  unfold commitTamp
  simp only [fenced, if_true]

theorem commitTamp_of_full (reached : turnedAway s (tampReach s c l) = none) (full : tampWritten c l s = none) : commitTamp c l s = liftHorizons s := by
  rw [tampReach] at reached
  rw [tampWritten] at full
  unfold commitTamp
  simp only [reached, full, Option.isSome_none, Bool.false_eq_true, if_false]

/-- The list after its tamp's commit: the copies are its run, the old run and chain retire at the open epoch (R107, R108). -/
def tampedLeaf (s : State) (c l : Nat) (k : Leaf) : Leaf :=
  let n := (leaf (coll s c) l).pre.length - (leaf (coll s c) l).run.length
  { k with
    state := .retire
    retiring := some { run := k.run, chain := k.chain.take n, epoch := openEpoch (coll s c), index := freeRetiring s (leaf (coll s c) l).owner }
    run := k.copies, chain := (leaf (coll s c) l).chain.drop n, pre := [], copied := 0, copies := [], copyMap := []
    sedSlots := occCount (coll s c) ((leaf (coll s c) l).chain.drop n) }

theorem commitTamp_of_written {u : State} (reached : turnedAway s (tampReach s c l) = none) (written : tampWritten c l s = some u) :
    ∃ n, commitTamp c l s = joinEpoch c (updLeaf c l (tampedLeaf s c l)
      (addTomb c (leaf (coll s c) l).owner n (moveKeys (leaf (coll s c) l).copyMap c (commitTombs 0 (openEpoch (coll s c)) (tampSettled s c l u))))) := by
  rw [tampReach] at reached
  rw [tampWritten] at written
  unfold commitTamp
  simp only [reached, written, Option.isSome_none, Bool.false_eq_true, if_false]
  exact ⟨_, rfl⟩

/-- The slot that a moved slot's entries name after a tamp's commit (R108). -/
def movedSlot (moves : List (SlotRef × SlotRef)) (r : SlotRef) : SlotRef := match moves.find? (fun m => m.1 == r) with | some m => m.2 | none => r

/-- The directory with the entries of moved slots naming their copies. -/
def movedKeys (moves : List (SlotRef × SlotRef)) (t : Tbl KeyEnt) : Tbl KeyEnt :=
  tmap (fun _ e => { e with slot := movedSlot moves e.slot, spill := e.spill.map (movedSlot moves) }) t

theorem coll_moveKeys (moves : List (SlotRef × SlotRef)) (c : Nat) (s : State) :
    coll (moveKeys moves c s) c = { coll s c with keys := movedKeys moves (coll s c).keys } := (coll_updColl_same ..).trans rfl

theorem coll_joinEpoch (c : Nat) (s : State) : coll (joinEpoch c s) c = { coll s c with openCommits := (coll s c).openCommits + 1 } := coll_updColl_same ..

/-- What a tamp's commit makes of the collection's commits, keys and lists (R108). -/
theorem tampView_commitTamp {u : State} (reached : turnedAway s (tampReach s c l) = none) (written : tampWritten c l s = some u) :
    tampView (coll (commitTamp c l s) c) = ((coll s c).openCommits + 1, (coll s c).csn,
      movedKeys (leaf (coll s c) l).copyMap (coll s c).keys, tset (coll s c).leaves l (tampedLeaf s c l (leaf (coll s c) l))) := by
  obtain ⟨n, commits⟩ := commitTamp_of_written reached written
  have view := tampView_tampSettled written
  have moved : ∀ moves u, tampView (coll (addTomb c (leaf (coll s c) l).owner n (moveKeys moves c u)) c) =
      ((coll u c).openCommits, (coll u c).csn, movedKeys moves (coll u c).keys, (coll u c).leaves) := by
    intro moves u
    refine (proj_updColl tampView _ ?_).trans (congrArg tampView (coll_moveKeys moves c u))
    exact fun _ => rfl
  specialize moved (leaf (coll s c) l).copyMap (commitTombs 0 (openEpoch (coll s c)) (tampSettled s c l u))
  rw [coll_of c (show (commitTombs 0 (openEpoch (coll s c)) (tampSettled s c l u)).colls = (tampSettled s c l u).colls from rfl)] at moved
  simp only [tampView, Prod.mk.injEq] at view moved
  obtain ⟨commitsWere, csn, keys, leaves⟩ := view
  rw [commitsWere, csn, keys, leaves] at moved
  obtain ⟨commitsAre, csn, keys, leaves⟩ := moved
  rw [commits, coll_joinEpoch, updLeaf, coll_updColl_same]
  simp only [tampView, commitsAre, csn, keys, leaves, leaf_of_leaves leaves]

/-! #### RETIRE (R107) -/

theorem retireTamp_of_some {r : Retiring} (retires : (leaf (coll s c) l).retiring = some r) :
    retireTamp c l s = if epochPassed s c r.epoch then
      updLeaf c l (fun k => { k with state := .idle, retiring := none }) (freeBricks c (r.run ++ r.chain) s) else s := by
  unfold retireTamp
  simp only [retires]

end Tamp

/-- Settles O35: each stage of a tamp starts from its list's state, and what it leaves is read off the list. -/
theorem tamping : Obligations.Tamping := by
  refine ⟨fun s c l a u may taken => ?_, fun s c l idle => ?_, fun s c l i qs u v runs freed state works live copied fits => ?_,
    fun s c l i qs u v runs freed state works live copied large => ?_, fun s c l i qs v runs freed live stuck => ?_,
    fun s c l idle => congrArg Host.Outcome.next (endCopy_of_none idle), fun s c l alive u kept written => ⟨fun stuck => ?_, fun state works reached full => ?_⟩,
    fun s c l alive u state works reached kept written => ?_, fun s c l r state works retires passed => ?_,
    fun s c l r retires waits => ?_, fun s c l stuck => congrArg Host.Outcome.next (if_neg ?_)⟩
  · obtain ⟨v, cut, leaves, brick⟩ := cutList_of_brick taken
    refine ⟨_, congrArg Host.Outcome.next ((if_pos may).trans cut), ?_, by rw [brick_updLeaf]; exact brick⟩
    rw [leaf_updLeaf, leaf_of_leaves leaves]
  · rcases idle with idle | full
    · exact congrArg Host.Outcome.next (if_neg (by simp [idle]))
    · exact onlyIf_of_same (cutList_of_none full)
  · subst freed live
    refine ⟨_, congrArg Host.Outcome.next ((endCopy_of_copied runs state works copied).trans (if_neg (Nat.not_lt.mpr fits))), ?_⟩
    obtain ⟨moved, pre, passed, stays⟩ := copyAll_leaf _ copied
    rw [(sameIndex_freeAnvil _ i s).coll_eq] at moved pre passed stays
    rw [pre, passed]
    split
    next last =>
      simp only [leaf_updLeaf, leaf_chunkCopied, moved, passed, (sameIndex_freeAnvil _ i s).copySources_eq]
      exact ⟨trivial, rfl, (if_pos last).symm⟩
    next last =>
      simp only [leaf_chunkCopied, moved, passed, stays, state, (sameIndex_freeAnvil _ i s).copySources_eq]
      exact ⟨trivial, rfl, (if_neg last).symm⟩
  · subst freed live
    refine ⟨_, congrArg Host.Outcome.next ((endCopy_of_copied runs state works copied).trans (if_pos large)), ?_⟩
    rw [coll_of c (raise_colls ..), leaf_abandonTamp]
    refine ⟨rfl, rfl, fun b copy => bricks_abandonTamp c l _ b ?_, raise_pending_bit .listOversize ..⟩
    rwa [leaf_chunkCopied]
  · subst freed live
    exact congrArg Host.Outcome.next (endCopy_of_stuck runs stuck)
  · subst kept written
    rcases stuck with idle | halted | fenced
    · exact congrArg Host.Outcome.next (if_neg (by simp [idle]))
    · exact congrArg Host.Outcome.next (if_neg (by simp [halted]))
    · exact onlyIf_of_same (commitTamp_of_turnedAway fenced)
  · subst kept written
    exact congrArg Host.Outcome.next ((if_pos (by simp [state, works])).trans (commitTamp_of_full reached full))
  · subst kept
    have view := tampView_commitTamp reached written
    simp only [tampView, Prod.mk.injEq] at view
    obtain ⟨commits, csn, keys, leaves⟩ := view
    have after : leaf (coll (commitTamp c l s) c) l = tampedLeaf s c l (leaf (coll s c) l) := by rw [leaf, leaves, tgetD_tset_same]
    refine ⟨_, congrArg Host.Outcome.next (if_pos (by simp [state, works])), commits, csn, ?_⟩
    rw [after, keys]
    refine ⟨rfl, rfl, rfl, rfl, fun k e entry => ?_⟩
    rw [movedKeys, tget_tmap, entry]
    rfl
  · refine ⟨_, congrArg Host.Outcome.next ((if_pos (by simp [state, works])).trans ((retireTamp_of_some retires).trans (if_pos passed))), ?_, fun b old => ?_⟩
    · rw [leaf_updLeaf, leaf_of_leaves (freeBricks_proj (·.leaves) (fun _ _ _ _ _ => rfl) ..)]
    · rw [brick_updLeaf, freeBricks_gone _ _ _ b old]
  · exact onlyIf_of_same ((retireTamp_of_some retires).trans (if_neg (by simp [waits])))
  · rcases stuck with idle | halted
    · simp [idle]
    · simp [halted]

end Sys2Proof.Machine

/-! ### Training, redistribution and assignment (R105, R110, R112, R113, R170) -/

namespace Sys2Proof.Machine

section Train

variable {s u : State} {c : Nat}

/-! #### STRATA_COMMIT (R103, R105, R112) -/

/-- The levels above go in front: the lowest level stays the last. -/
theorem getLast?_upperLevels (y : Coll) (c k n : Nat) {acc : List (List Centroid)} (some : acc ≠ []) : (upperLevels y c k n acc).getLast? = acc.getLast? := by
  induction k generalizing n acc with
  | zero => rfl
  | succ k ih =>
    obtain ⟨a, l, rfl⟩ := List.exists_cons_of_ne_nil some
    exact (ih _ (List.cons_ne_nil _ _)).trans List.getLast?_cons_cons

/-- The levels that a collection's training has found, top first. -/
def trainedLevels (s : State) (c : Nat) : List (List Centroid) :=
  upperLevels (coll s c) c ((coll s c).trainLevels - 1) (leafLevel (coll s c) c).length [leafLevel (coll s c) c]

/-- The partition that a leaf of the trained strata goes to. -/
def leafOwner (s : State) (c i : Nat) : Nat :=
  lget (collPtns s c) ((Config.trainedValue c (coll s c).trainSeed (trainKey 3 i 8188)).toNat % max 1 (collPtns s c).length) 0

/-- The regions for the strata and the list tables taken in each partition of the collection, where there are as many (R80, R99). -/
def strataTaken (s : State) (c : Nat) : Option State :=
  (collPtns s c).foldl (fun o p => o.bind (takeStrata c p (trainedLevels s c)
    ((upto (leafLevel (coll s c) c).length).filter fun i => leafOwner s c i == p).length)) (some s)

/-- The empty lists of the trained leaves. -/
def emptyLists (s : State) (c : Nat) : Tbl Leaf := (upto (leafLevel (coll s c) c).length).map fun i => (i, { owner := leafOwner s c i })

/-- What the commit of strata sets in a collection. -/
def trainView (y : Coll) : CollState × Epoch × Nat × List (List F32) × Tbl Leaf × List (List Centroid) :=
  (y.state, y.trainEp, y.openCommits, y.trainSample, y.leaves, y.strata)

theorem strataTaken_colls (taken : strataTaken s c = some u) : u.colls = s.colls :=
  (KeepsIf.get (m := [.ptns]) (if_foldl (if_some (Keeps.refl _ s)) fun _ p kept =>
    if_bind kept fun _ kept => k_takeStrata (within_self _) c p _ _ kept) u taken).same_colls

theorem proj_pinTop {β : Type} (q : Coll → β) (hq : ∀ y t, q { y with ptns := t } = q y) (c p : Nat) (s : State) (n : Nat) :
    q (coll (pinTop c p s) n) = q (coll s n) := by
  unfold pinTop
  dsimp only
  split
  · rfl
  · split
    · rfl
    · split
      · rfl
      · exact proj_updColl q _ fun y => hq y _

theorem commitStrata_of_turnedAway (fenced : (turnedAway s (collPtns s c)).isSome = true) : commitStrata c s = s := if_pos fenced

theorem commitStrata_of_full (full : strataTaken s c = none) : commitStrata c s = s := by
  unfold strataTaken trainedLevels leafOwner collPtns at full
  unfold commitStrata
  simp only [full, ite_self]

/-- What the commit of strata makes of its collection: an empty list for each leaf, REDISTRIBUTING from the open epoch on (R112). -/
theorem trainView_commitStrata (reached : turnedAway s (collPtns s c) = none) (taken : strataTaken s c = some u) :
    trainView (coll (commitStrata c s) c) =
      (.redistributing, openEpoch (coll s c), (coll s c).openCommits + 1, [], emptyLists s c, trainedLevels s c) := by
  have kept := strataTaken_colls taken
  have moved : ∀ (n : Nat) (ps : List Nat) (v : State),
      (ps.foldl (fun s p => engineMove (some (collHome s c)) (careCtx s c) p n s) v).colls = v.colls :=
    fun _ ps v => foldl_same State.colls (fun s p => (k_engineMove (within_self _) _ _ _ _ (Keeps.refl _ s)).same_colls) ps v
  unfold strataTaken trainedLevels leafOwner collPtns at taken
  unfold collPtns at reached
  unfold commitStrata
  simp only [reached, taken, Option.isSome_none, Bool.false_eq_true, if_false]
  refine (proj_foldl trainView _ c (fun v p => proj_pinTop trainView (fun _ _ => rfl) c p v c) _ _).trans ?_
  rw [coll_joinEpoch, coll_updColl_same]
  have same := fun n ps f => coll_of c (show (updHearth f (List.foldl _ u ps)).colls = s.colls from (moved n ps u).trans kept)
  simp only [same]
  rfl

/-! #### Redistribution (R112, R113) -/

theorem SameIndex.liveLoose_eq {t : State} (h : SameIndex s t) (c p : Nat) : liveLoose t c p = liveLoose s c p := by
  unfold liveLoose
  simp only [h.coll_eq, h.liveSlots_eq]

theorem SameIndex.moveTargets_eq {t : State} (h : SameIndex s t) (c p : Nat) : moveTargets t c p = moveTargets s c p := by
  have keys : keyPtn t c = keyPtn s c := by
    funext k
    simp only [keyPtn, jobPtns, job?, h.jobs, h.coll_eq]
  simp only [moveTargets, h.liveSlots_eq, h.liveLoose_eq, h.coll_eq, keys]

theorem endMove_of_none {p : Nat} (idle : chunkAnvil s p (chunkOf 2 c) = none) : endMove c p s = s := by
  unfold endMove
  simp only [idle]

/-- The redistribution chunk that an anvil runs ends: the anvil is free, and the chunk's slots move where they may (R113, R242, R353). -/
theorem endMove_of_chunk {p i : Nat} (runs : chunkAnvil s p (chunkOf 2 c) = some i) :
    endMove c p s = if (coll s c).state = .redistributing ∧ engineRuns s p = true ∧ liveLoose s c p ≠ [] ∧ turnedAway s (moveTargets s c p) = none then
      redistribute c p (freeAnvil p i s) else freeAnvil p i s := by
  have same := sameIndex_freeAnvil p i s
  unfold endMove
  simp only [runs, same.coll_eq, same.engineRuns_eq, same.liveLoose_eq, same.moveTargets_eq, same.turnedAway_eq]
  refine if_congr ?_ rfl rfl
  simp [and_assoc]

/-- The slots that a redistribution chunk moves (R113). -/
def chunkMoved (s : State) (c p : Nat) (v : State) : Option State :=
  (liveSlots s c ((liveLoose s c p).take 256)).foldl (fun o q => o.bind (moveSlot c (openEpoch (coll s c)) q)) (some v)

theorem redistribute_of_full {p : Nat} {v : State} (same : SameIndex s v) (full : chunkMoved s c p v = none) : redistribute c p v = liftHorizons v := by
  rw [chunkMoved] at full
  simp only [redistribute, same.coll_eq, same.liveSlots_eq, same.liveLoose_eq, full]

theorem redistribute_of_moved {p : Nat} {v : State} (same : SameIndex s v) (moved : chunkMoved s c p v = some u) :
    redistribute c p v = liftHorizons (joinEpoch c (commitTombs 0 (openEpoch (coll s c)) u)) := by
  rw [chunkMoved] at moved
  simp only [redistribute, same.coll_eq, same.liveSlots_eq, same.liveLoose_eq, moved]

theorem bricks_freeLoose (c : Nat) (s : State) : ∀ q ∈ (coll s c).ptns, ∀ b ∈ q.2.loose, brick? (coll (freeLoose c s) c) b = none := by
  intro q member b loose
  unfold freeLoose
  dsimp only
  rw [coll_updColl_same]
  exact freeBricks_gone c _ s b (List.mem_flatMap.mpr ⟨q, member, loose⟩)

theorem loose_freeLoose (c : Nat) (s : State) (p : Nat) : (collPtn (coll (freeLoose c s) c) p).loose = [] := by
  unfold freeLoose
  dsimp only
  rw [coll_updColl_same, collPtn, tgetD, tget_tmap]
  generalize tget _ p = found
  cases found <;> rfl

/-! #### Training and assignment chunks (R112, R170) -/

theorem endTrainStep_of_none (idle : chunkAnvil s (collHome s c) (chunkOf 6 c) = none) : endTrainStep c s = s := by
  unfold endTrainStep
  simp only [idle]

theorem endTrainStep_of_poison {i : Nat} (runs : chunkAnvil s (collHome s c) (chunkOf 6 c) = some i)
    (poison : ((coll s c).state == .training && sampleOnPoison s c) = true) : endTrainStep c s = failTrain c (poisonFault (collHome s c) i s) := by
  unfold endTrainStep
  simp only [runs, poison, if_true]

theorem endTrainStep_of_clean {i : Nat} (runs : chunkAnvil s (collHome s c) (chunkOf 6 c) = some i)
    (clean : ((coll s c).state == .training && sampleOnPoison s c) = false) :
    endTrainStep c s = if (coll s c).state = .training then
      updColl c (fun y => { y with trainSteps := y.trainSteps + 1 }) (freeAnvil (collHome s c) i s) else freeAnvil (collHome s c) i s := by
  unfold endTrainStep
  simp only [runs, clean, Bool.false_eq_true, if_false, (sameIndex_freeAnvil ..).coll_eq, beq_iff_eq]

/-- The assignment chunk of a command that an anvil of its home runs ends (R170, R242). -/
theorem assignChunk_of_chunk {x : Cmd} {i : Nat} (f : Option Nat) (held : cmd? s c = some x) (stage : x.stage = .assigning)
    (runs : chunkAnvil s x.home (isAssign c) = some i) :
    assignChunk c f s = if needsSource x && bulkPoisoned s x then poisonFault x.home i s
      else if needsSource x then readBulk c x f (freeAnvil x.home i s) else assignSome c x (freeAnvil x.home i s) := by
  unfold assignChunk
  simp only [held, stage, runs, ne_eq, not_true, if_false]

theorem assignChunk_of_idle (f : Option Nat) (idle : (cmd? s c).all (fun x => x.stage != .assigning || (chunkAnvil s x.home (isAssign c)).isNone) = true) :
    assignChunk c f s = s := by
  unfold assignChunk
  split
  case h_1 => rfl
  case h_2 x held =>
    simp only [held, Option.all_some, Bool.or_eq_true, bne_iff_ne, Option.isNone_iff_eq_none] at idle
    rcases idle with stage | none
    · exact if_pos stage
    · simp only [none, ite_self]

end Train

/-- Settles O36: each chunk ends where an anvil runs it; the commits of training are read off their collection. -/
theorem trainingAndRedistribution : Obligations.TrainingAndRedistribution := by
  refine ⟨fun s c i runs poison => congrArg Host.Outcome.next (endTrainStep_of_poison runs poison),
    fun s c i runs clean => congrArg Host.Outcome.next (endTrainStep_of_clean runs clean),
    fun s c idle => congrArg Host.Outcome.next (endTrainStep_of_none idle),
    fun s c ps o members taken waits => ?_, fun s c ps u state works members reached taken => ?_,
    fun s c p i u v runs freed state works live reached moved => ?_, fun s c p i v runs freed stuck => ?_,
    fun s c p i v runs freed state works live reached full => ?_, fun s c p idle => congrArg Host.Outcome.next (endMove_of_none idle),
    fun s c state done works => ?_, fun s c state passed => ?_, fun s c stuck => ?_, fun s c stuck => ?_,
    fun s c i x f v t held stage runs freed ready appended => ?_, fun s c i x y f v t st code held stage runs freed ready stopped holds still free => ?_,
    fun s c i x f v held stage runs freed source clean => ?_, fun s c f idle => congrArg Host.Outcome.next (assignChunk_of_idle f idle),
    fun s c i x f held stage runs source poison => ?_, fun s c f e => ⟨fun x held stage => ?_, fun idle => ?_⟩⟩
  · subst members taken
    rcases waits with idle | halted | fenced | full
    · exact onlyIf_false _ _ (by simp [idle])
    · exact onlyIf_false _ _ (by simp [halted])
    · exact onlyIf_of_same (commitStrata_of_turnedAway fenced)
    · exact onlyIf_of_same (commitStrata_of_full full)
  · subst members
    have view := trainView_commitStrata reached taken
    simp only [trainView, Prod.mk.injEq] at view
    obtain ⟨redistributing, epoch, commits, sample, leaves, strata⟩ := view
    refine ⟨_, onlyIf_true _ _ (by simp [state, works]), redistributing, epoch, commits, sample, ?_, ?_, ?_⟩
    · rw [leaves, emptyLists, List.map_map]
      exact List.map_id _
    · simp [leaves, emptyLists]
    · rw [strata]
      exact getLast?_upperLevels _ _ _ _ (List.cons_ne_nil _ _)
  · subst freed
    exact congrArg Host.Outcome.next ((endMove_of_chunk runs).trans ((if_pos ⟨state, works, live, reached⟩).trans
      (redistribute_of_moved (sameIndex_freeAnvil ..) moved)))
  · subst freed
    refine congrArg Host.Outcome.next ((endMove_of_chunk runs).trans (if_neg ?_))
    rintro ⟨state, works, live, reached⟩
    simp [state, works, live, reached] at stuck
  · subst freed
    exact congrArg Host.Outcome.next ((endMove_of_chunk runs).trans ((if_pos ⟨state, works, live, reached⟩).trans
      (redistribute_of_full (sameIndex_freeAnvil ..) full)))
  · refine ⟨_, congrArg Host.Outcome.next (if_pos (by simp [state, done, works])), ?_⟩
    simp only [coll_joinEpoch, coll_updColl_same, true_and]
    exact ⟨rfl, trivial⟩
  · exact ⟨_, onlyIf_true _ _ (by simp [state, passed]), loose_freeLoose c s, bricks_freeLoose c s⟩
  · refine congrArg Host.Outcome.next (if_neg ?_)
    rcases stuck with idle | live | halted
    · simp [idle]
    · simp [live]
    · simp [halted]
  · refine congrArg Host.Outcome.next (if_neg ?_)
    rcases stuck with idle | held
    · simp [idle]
    · simp [held]
  · subst freed
    refine congrArg Host.Outcome.next ((assignChunk_of_chunk f held stage runs).trans ?_)
    simp only [ready, Bool.false_and, Bool.false_eq_true, if_false, assignSome, assignUpTo, appended]
  · subst freed
    obtain ⟨z, final, stage', status, count, fault, _⟩ := failCmd_ends st code holds free (by simp [still]) (by simp [still])
    refine ⟨_, z, congrArg Host.Outcome.next ((assignChunk_of_chunk f held stage runs).trans ?_), final, stage', status, fault, count⟩
    simp only [ready, Bool.false_and, Bool.false_eq_true, if_false, assignSome, assignUpTo, stopped]
  · subst freed
    exact congrArg Host.Outcome.next ((assignChunk_of_chunk f held stage runs).trans (by simp [source, clean]))
  · exact congrArg Host.Outcome.next ((assignChunk_of_chunk f held stage runs).trans (by simp [source, poison]))
  · simp only [exec, execAssignChunk, held, stage, if_true]
  · refine congrArg Host.Outcome.next ?_
    cases held : cmd? s c with
    | none => rfl
    | some x =>
      rw [held, Option.all_some, bne_iff_ne] at idle
      exact if_neg idle

end Sys2Proof.Machine

/-! ### BUSY commands (R310, with R111, R227, R273, R274, R374, R425) -/

namespace Sys2Proof.Machine

section Busy

variable {s u t : State} {n : Nat} {k : Ticket} {st : MStatus} {bs : List Byte} {dt : Nat}

/-! #### The response of a ticket -/

/-- t is u with ticket n's command answered: the response is stored, MBX_EVENT is raised, and the rest that a command may touch stays (R310). -/
structure Answers (n : Nat) (k : Ticket) (r : Rsp) (u t : State) : Prop where
  response : tget t.hearth.tickets n = some { k with rsp := some r }
  event : bit t.host.evtPend.toNat 14 = true
  rings : t.host.rings = u.host.rings
  kept : Keeps [.host, .hearth, .icern] u t

theorem tickets_logEvent (b kind object data : Nat) (s : State) : (logEvent b kind object data s).hearth.tickets = s.hearth.tickets := rfl

/-- What a message of vector 0 leaves, it leaves whether it is sent or not. -/
theorem maySendVec {β : Type} (q : State → β) (same : ∀ v, q (sendVec 0 v) = q v) (b : Bool) (v : State) : q (if b then sendVec 0 v else v) = q v := by
  split
  · exact same v
  · rfl

theorem answers_completeTicket (r : Rsp) (held : tget u.hearth.tickets n = some k) : Answers n k r u (completeTicket n r u) where
  kept := k_completeTicket (within_self _) n r (Keeps.refl _ u)
  response := by
    unfold completeTicket
    simp only [held]
    rw [tickets_logEvent, maySendVec State.hearth (sendVec_hearth 0)]
    split <;> exact tget_tset_same ..
  event := by
    unfold completeTicket
    simp only [held, logEvent_host]
    rw [maySendVec (·.host.evtPend) (sendVec_host_evtPend 0)]
    exact bit_or .mbxEvent _
  rings := by
    unfold completeTicket
    simp only [held, logEvent_host]
    rw [maySendVec (·.host.rings) (sendVec_host_rings 0)]
    split <;> rfl

theorem answers_ticketDone (n : Nat) (k : Ticket) (st : MStatus) (bs : List Byte) (dt : Nat) (u : State) :
    Answers n k { status := st, bytes := bs, ticket := 0, detail := dt } u (ticketDone n k st bs dt u) := by
  have done := answers_completeTicket (u := updHearth (fun h => { h with tickets := tset h.tickets n k }) u) { status := st, bytes := bs, ticket := 0, detail := dt }
    (tget_tset_same ..)
  exact { done with kept := k_ticketDone (within_self _) n k st bs dt (Keeps.refl _ u) }

/-! #### The Hearth's turn (R306, R373) -/

theorem busyComplete_of_runs (held : tget s.hearth.tickets n = some k) (unanswered : k.rsp = none) (runs : (hearthRuns s || s.hearth.recovery) = true) :
    exec (.busyComplete n) s = .next (progress n k s) := by
  simp only [exec, execBusyComplete, held, unanswered, runs, Option.isSome_none, Bool.false_eq_true, if_false, if_true]

/-- A ticket whose progress ends it is answered in the state that its command leaves. -/
theorem busyComplete_of_done (held : tget s.hearth.tickets n = some k) (unanswered : k.rsp = none) (runs : (hearthRuns s || s.hearth.recovery) = true)
    (done : progress n k s = ticketDone n k st bs dt u) :
    ∃ t, exec (.busyComplete n) s = .next t ∧ Answers n k { status := st, bytes := bs, ticket := 0, detail := dt } u t :=
  ⟨_, (busyComplete_of_runs held unanswered runs).trans (congrArg Host.Outcome.next done), answers_ticketDone ..⟩

/-! #### What each kind of work waits for -/

section Progress

variable (n : Nat)

theorem progress_jobCreate {j : Nat} {x : Job} (work : k.work = .jobCreate j [] false) (made : job? (makeJob k.req s) (qf k.req 0 1) = some x) :
    progress n k s = ticketDone n k .ok [BitVec.ofNat 8 (jobMode x)] 0 (makeJob k.req s) := by
  unfold progress
  simp only [work, made, Bool.false_eq_true, List.isEmpty_nil, if_false, if_true]

theorem progress_jobFailed {j : Nat} {l : List Nat} (work : k.work = .jobCreate j l true) : progress n k s = ticketDone n k .fenced [] 0 s := by
  unfold progress
  simp only [work, if_true]

theorem progress_jobEnd {j : Nat} (work : k.work = .jobEnd j) (quiet : jobQuiet s j = true) : progress n k s = ticketDone n k .ok [] 0 (endJob j s) := by
  unfold progress
  simp only [work, quiet, if_true]

theorem progress_ringDestroy {r : Nat} (work : k.work = .ringDestroy r) (drained : ringLive s r = []) :
    progress n k s = ticketDone n k .ok [] 0 (removeRing r s) := by
  unfold progress
  simp only [work, ringDrained, drained, List.isEmpty_nil, if_true]

theorem progress_ringDisable {r : Nat} (work : k.work = .ringDisable r) (drained : ringLive s r = []) :
    progress n k s = ticketDone n k .ok [] 0 (if ringExists s r then updRing r (fun x => { x with st := .disabled, stopping := false }) s else s) := by
  unfold progress
  simp only [work, ringDrained, drained, List.isEmpty_nil, if_true]

theorem progress_collDelete {c : Nat} (work : k.work = .collDelete c) (made : (coll s c).state ≠ .free) (idle : collCmds s c = []) :
    progress n k s = ticketDone n k .ok [] 0 (freeColl c s) := by
  unfold progress
  simp only [work, made, idle, List.isEmpty_nil, if_true, if_false]

theorem progress_trained {c : Nat} {joined : Bool} (work : k.work = .train c joined)
    (trained : (coll s c).state = .redistributing ∨ (coll s c).state = .trained) (latest : epochLe (coll s c).trainEp (coll s c).latest = true) :
    progress n k s = ticketDone n k .ok (leBytes 4 (coll s c).trainEp.toNat) (if joined then 1 else 0) s := by
  unfold progress
  rcases trained with state | state <;> simp [work, state, latest]

theorem progress_trainLost {c : Nat} {joined : Bool} (work : k.work = .train c joined) (lost : (coll s c).state = .suspect ∨ (coll s c).state = .free) :
    progress n k s = ticketDone n k .uncorrectable [] 0 s := by
  unfold progress
  simp only [work, lost, if_true]

theorem progress_reset {p : Nat} (work : k.work = .reset p) (ended : (ptn s p).fence = none) : progress n k s = ticketDone n k .ok [] 0 s := by
  unfold progress
  simp only [work, ended, Option.isNone_none, if_true]

theorem progress_test {ps cold : List Nat} (work : k.work = .test ps cold bs) (ended : ∀ p ∈ ps, (ptn s p).power = .forge) :
    progress n k s = ticketDone n k .ok bs 0 (endTest ps cold s) := by
  have all : (ps.all fun p => (ptn s p).power == .forge) = true := List.all_eq_true.mpr fun p member => beq_iff_eq.mpr (ended p member)
  unfold progress
  simp only [work, all, if_true]

theorem progress_ready (work : k.work = .ready st bs dt) : progress n k s = ticketDone n k st bs dt s := by
  unfold progress
  simp only [work]

theorem progress_held {q : Req} {reply : ReadReply} (work : k.work = .held q reply) (free : stillHeld s k = false)
    (done : runReq (handlerOf q) k.mbx q reply s = (u, .done st bs dt)) : progress n k s = ticketDone n k st bs dt u := by
  unfold progress
  simp only [work, free, done, Bool.false_eq_true, if_false]

/-- A raise blows one fuse; it goes on below its security version, and answers with the last (R374). -/
theorem progress_raise {sv : Nat} (work : k.work = .raise sv) (below : s.aon.rollback < sv) :
    progress n k s = if sv = s.aon.rollback + 1 then ticketDone n k .ok [] 0 (updAon blowFuse s) else updAon blowFuse s := by
  unfold progress
  simp only [work, below, if_true]
  exact if_congr (show sv ≤ s.aon.rollback + 1 ↔ _ by omega) rfl rfl

theorem progress_of_waiting (waits : ticketWaits s k = true) : progress n k s = s := by
  unfold ticketWaits at waits
  unfold progress
  cases work : k.work with
  | jobCreate | jobEnd | ringDestroy | ringDisable | collDelete | held | heldTest | test => simp_all [ringDrained]
  | reset => simp_all [Option.isSome_iff_ne_none]
  | train c => cases state : (coll s c).state <;> simp_all
  | raise | ready => simp [work] at waits

end Progress

/-! #### What the objects of an answered command are -/

/-- A job made has the partitions and the modules that its request names (R227, R228). -/
theorem job_makeJob (q : Req) (s : State) : ∃ x, job? (makeJob q s) (qf q 0 1) = some x ∧ x.ptns = maskPtns q 2 ∧ x.modules = qf q 4 1 := by
  have taken : ∀ j ps (qs : List Nat) (u : State), (qs.foldl (fun s p => takePtn j ps p s) u).jobs = u.jobs := fun j ps qs u =>
    foldl_same State.jobs (fun u p => (k_takePtn (within_self _) j ps p (Keeps.refl _ u)).same_jobs) qs u
  have sent : ∀ ms f (u : State), (sendAll ms f u).jobs = u.jobs := fun ms f u => (k_sendAll (within_self _) ms f (Keeps.refl _ u)).same_jobs
  unfold makeJob
  dsimp only
  split
  · rw [sendProbes, job?, sent, ← job?, job_updJob_same, job?, taken, tget_tset_same]
    exact ⟨_, rfl, rfl, rfl⟩
  · rw [job?, taken, tget_tset_same]
    exact ⟨_, rfl, rfl, rfl⟩

theorem ringExists_removeRing (r : Nat) (s : State) : ringExists (removeRing r s) r = false := by
  simp [ringExists, removeRing, updHost]

/-- A ring disabled reads disabled; one that is not there reads so too (R274). -/
theorem ring_disabled (r : Nat) (s : State) :
    ring (if ringExists s r then updRing r (fun x => { x with st := .disabled, stopping := false }) s else s) r = { ring s r with st := .disabled, stopping := false } := by
  split
  · rw [ring_updRing_same]
  next absent =>
    rw [ringExists, Bool.not_eq_true, Option.isSome_eq_false_iff, Option.isNone_iff_eq_none] at absent
    simp [ring, tgetD, absent]

end Busy

/-- Settles O21: a ticket's progress ends it where what it waits for has come, and its response is stored with the event. -/
theorem busyCommands : Obligations.BusyCommands := by
  refine ⟨fun s n k x held unanswered runs work made => ?_, fun s n k j l held unanswered runs work => ?_, fun s n k j held unanswered runs work quiet => ?_,
    fun s n k r held unanswered runs work drained => ?_, fun s n k r held unanswered runs work drained => ?_, fun s n k c held unanswered runs work made idle => ?_,
    fun s n k c joined held unanswered runs work trained latest => ?_, fun s n k c joined held unanswered runs work lost => ?_,
    fun s n k p held unanswered runs work ended => ?_, fun s n k ps cold bs held unanswered runs work ended => ?_, fun s n k st bs dt held unanswered runs work => ?_,
    fun s n k q reply u st bs dt held unanswered runs work free done => ?_, fun s n k held unanswered runs waits => ?_,
    fun s n k sv held unanswered runs work below => ?_, fun s n k sv held unanswered runs work last => ?_, fun s n k held unanswered sleeps => ?_, fun s n answered => ?_⟩
  · obtain ⟨y, found, ptns, modules⟩ := job_makeJob k.req s
    cases made.symm.trans found
    obtain ⟨t, next, ends⟩ := busyComplete_of_done held unanswered runs (progress_jobCreate n work made)
    exact ⟨t, next, ends.response, ends.event, ends.kept.same_jobs, ends.kept.same_ptns, ptns, modules⟩
  · obtain ⟨t, next, ends⟩ := busyComplete_of_done held unanswered runs (progress_jobFailed n work)
    exact ⟨t, next, ends.response, ends.event, ends.kept.same_jobs⟩
  · obtain ⟨t, next, ends⟩ := busyComplete_of_done held unanswered runs (progress_jobEnd n work quiet)
    exact ⟨t, next, ends.response, ends.event, ends.kept.same_jobs, ends.kept.same_ptns⟩
  · obtain ⟨t, next, ends⟩ := busyComplete_of_done held unanswered runs (progress_ringDestroy n work drained)
    refine ⟨t, next, ends.response, ends.event, ?_⟩
    rw [ringExists, ends.rings]
    exact ringExists_removeRing r s
  · obtain ⟨t, next, ends⟩ := busyComplete_of_done held unanswered runs (progress_ringDisable n work drained)
    exact ⟨t, next, ends.response, ends.event, (ring_of_rings r ends.rings).trans (ring_disabled r s)⟩
  · obtain ⟨t, next, ends⟩ := busyComplete_of_done held unanswered runs (progress_collDelete n work made idle)
    exact ⟨t, next, ends.response, ends.event, ends.kept.same_colls, ends.kept.same_ptns⟩
  · obtain ⟨t, next, ends⟩ := busyComplete_of_done held unanswered runs (progress_trained n work trained latest)
    exact ⟨t, next, ends.response, ends.event, ends.kept.same_colls⟩
  · obtain ⟨t, next, ends⟩ := busyComplete_of_done held unanswered runs (progress_trainLost n work lost)
    exact ⟨t, next, ends.response, ends.event, ends.kept.same_colls⟩
  · obtain ⟨t, next, ends⟩ := busyComplete_of_done held unanswered runs (progress_reset n work ended)
    exact ⟨t, next, ends.response, ends.event, ends.kept.same_ptns⟩
  · obtain ⟨t, next, ends⟩ := busyComplete_of_done held unanswered runs (progress_test n work ended)
    exact ⟨t, next, ends.response, ends.event, ends.kept.same_ptns⟩
  · obtain ⟨t, next, ends⟩ := busyComplete_of_done held unanswered runs (progress_ready n work)
    exact ⟨t, next, ends.response, ends.event, ends.kept.same_ptns⟩
  · obtain ⟨t, next, ends⟩ := busyComplete_of_done held unanswered runs (progress_held n work free done)
    exact ⟨t, next, ends.response, ends.event, ends.kept.same_ptns, ends.kept.same_jobs, ends.kept.same_colls⟩
  · rw [busyComplete_of_runs held unanswered runs, progress_of_waiting n waits]
  · rw [busyComplete_of_runs held unanswered runs, progress_raise n work (by omega), if_neg (by omega)]
    rfl
  · obtain ⟨t, next, ends⟩ := busyComplete_of_done held unanswered runs ((progress_raise n work (by omega)).trans (if_pos last))
    exact ⟨t, next, ends.response, ends.event, ends.kept.same_aon⟩
  · simp only [exec, execBusyComplete, held, unanswered, sleeps, Option.isSome_none, Bool.false_eq_true, if_false]
  · exact congrArg Host.Outcome.next (if_pos answered)

end Sys2Proof.Machine

/-! ### Probing of a search (R125–R131, R135–R138, R143): a collection without coordinates -/

namespace Sys2Proof.Machine

/-- A row whose only list, of bound 1.0, is worth scanning. -/
def listedRow : QRow := { descended := true, probes := [(3, { queue := [(0, 0x3F800000)], looseIssued := true })] }

/-- A running interactive search over the collection 6. -/
def listedSearch : Cmd := { ring := 7, ctx := 5, job := 2, home := 3, entry := 0x10, opcode := 0x10, coll := 6, stage := .running, rows := [listedRow] }

/-- That search on a collection of dimension 0: a binding holds min(16, ⌊16384 / 0⌋) = 0 lanes, so that a list is issued for no row, not even for
its own (R77, R127). -/
def flatState : State :=
  { State.reset with ptns := [(3, { power := .forge, service := .inService })], colls := [(6, { d := 0 })], cmds := [(1, listedSearch)] }

/-- The list is issued for no row, and stays the head of its row's queue. -/
theorem queue_issueNext_flatState : (probeOf (issueNext 3 1 0 flatState) 3 1 0).queue = [(0, 0x3F800000)] := by decide +kernel

/-- Refutes O37: of a collection of dimension 0 no list leaves its row's queue when it is issued, since a binding then holds no lane; the premise
bounds the padded dimension from above only. -/
theorem not_searchProbing : ¬ Obligations.SearchProbing := by
  unfold Obligations.SearchProbing
  intro h
  obtain ⟨-, -, -, -, -, listIssue, -⟩ := h
  obtain ⟨t, next, -, queue, -⟩ := listIssue flatState 3 1 0 listedSearch listedRow 0
    (by decide +kernel) rfl rfl rfl rfl (by decide +kernel) (by decide +kernel) (by decide +kernel) (by decide +kernel)
  have issued : t = issueNext 3 1 0 flatState := by
    have may : mayIssue flatState 3 1 0 = true := by decide +kernel
    exact (Host.Outcome.next.inj next).symm.trans (if_pos may)
  rw [issued, show ((3 : Fin 12) : Nat) = 3 from rfl, queue_issueNext_flatState] at queue
  exact absurd queue (by decide)

end Sys2Proof.Machine

/-! ### Entries at the head of a ring that are refused or wait (R119, R169, R276, R294, R295) -/

namespace Sys2Proof.Machine

-- One proof at a time: each thread of its own would take its stack out of the memory that the whole text is compiled in.
set_option Elab.async false

/-- A row that takes up head entries admits by its opcode and its checks (R276). -/
theorem exec_ringRow {i : Instr} {r op : Nat} {chk : State → Nat → BitVec 512 → Option Refused} (row : ringRow i = some (r, op, chk)) :
    (permitted op).isSome = true ∧
      ∃ (shape : State → Cmd → Cmd) (after : Nat → State → State), ∀ s, exec i s = .next (admitNext r op chk shape after s) := by
  unfold ringRow at row
  split at row
  case h_13 => cases row
  all_goals
    cases row
    exact ⟨rfl, _, _, fun _ => rfl⟩

section Head

variable {s : State} {r op : Nat} {check : State → Nat → BitVec 512 → Option Refused} {e : BitVec 512} {rest : List (BitVec 512)}

/-- An entry of an undefined opcode is refused by whichever row comes (R276; log 18). -/
theorem admitNext_undefined (shape : State → Cmd → Cmd) (after : Nat → State → State) (head : (ring s r).fetched = e :: rest)
    (turn : mayAdmit s r e = true) (undefined : permitted (opOf e) = none) :
    admitNext r op check shape after s = refuseHead r e { status := .invalidField } s := by
  simp [admitNext, head, turn, undefined]

/-- A reservation changes the host side only: it makes no command (R294). -/
theorem keeps_reserve {u : State} {ok : Bool} (reserved : reserve r e s = (u, ok)) : Keeps [.host] s u := by
  have kept := k_reserve (m := [.host]) (within_self _) r e (Keeps.refl _ s)
  rwa [reserved] at kept

theorem fetched_reserve {u : State} {ok : Bool} (reserved : reserve r e s = (u, ok)) : (ring u r).fetched = (ring s r).fetched := by
  have := reserve_fetched r e s
  rwa [reserved] at this

/-- An entry whose turn it is not, or which is another row's, is not touched. -/
theorem admitNext_of_not_due (shape : State → Cmd → Cmd) (after : Nat → State → State)
    (undue : ((ring s r).fetched.head?.all fun e => !mayAdmit s r e || (opOf e != op && (permitted (opOf e)).isSome)) = true) :
    admitNext r op check shape after s = s := by
  refine admitNext_idle shape after fun e rest head => ?_
  rw [head] at undue
  simp only [List.head?_cons, Option.all_some, Bool.or_eq_true, Bool.not_eq_true', Bool.and_eq_true, bne_iff_ne, ne_eq] at undue
  exact undue.imp_right And.symm

/-- A refused entry without a completion slot waits for it with nothing held (R295, R297). -/
theorem refuseHead_waits {v : State} (f : Refused) (full : takeSlots r 1 (releaseHeld r s) = (v, false)) : refuseHead r e f s = v := by
  simp only [refuseHead, full]

end Head

/-- Settles O54: each row is an admission by its opcode and checks, whose branches are taken in their order. -/
theorem refusedEntries : Obligations.RefusedEntries := by
  unfold Obligations.RefusedEntries
  refine ⟨?_, ?_, ?_, ?_, ?_, ?_, ?_⟩
  · intro i r op chk s e rest f row head turn opcode refused
    obtain ⟨defined, shape, after, run⟩ := exec_ringRow row
    rw [run, admitNext_refuses shape after head turn opcode defined refused]
  · intro i r op chk s e rest row head turn undefined
    obtain ⟨-, shape, after, run⟩ := exec_ringRow row
    rw [run, admitNext_undefined shape after head turn undefined]
  · intro i r op chk s e rest row head turn opcode passes never
    obtain ⟨defined, shape, after, run⟩ := exec_ringRow row
    rw [run, admitNext_never shape after head turn opcode defined passes never]
  · intro i r op chk s u e rest row head turn opcode passes fits lacking
    obtain ⟨defined, shape, after, run⟩ := exec_ringRow row
    rw [run, admitNext_waits shape after head turn opcode defined passes fits lacking]
    exact ⟨rfl, (fetched_reserve lacking).trans head, (keeps_reserve lacking).same_cmds, (keeps_reserve lacking).same_nextCmd⟩
  · intro s v r e rest f head slot
    exact refuseHead_facts f head slot
  · intro i r op chk s row undue
    obtain ⟨-, shape, after, run⟩ := exec_ringRow row
    rw [run, admitNext_of_not_due shape after undue]
  · intro s v r e f full
    exact refuseHead_waits f full

end Sys2Proof.Machine

/-! ### Admission of ring commands (R119, R165, R178, R179, R189, R190, R271, R276, R293): what the head entry becomes -/

namespace Sys2Proof.Machine

-- One proof at a time: each thread of its own would take its stack out of the memory that the whole text is compiled in.
set_option Elab.async false

/-! #### The command taken up (R271, R293) -/

/-- In v the command x stands under the number that s gives next, its entry is gone from the fetch buffer of ring r, and of the parts that no
admission changes, of the fences and of the link all is as in s. -/
structure Taken (s : State) (r : Nat) (rest : List (BitVec 512)) (x : Cmd) (v : State) : Prop where
  found : cmd? v s.nextCmd = some x
  popped : (ring v r).fetched = rest
  kept : Keeps [.host, .ptns, .cmds, .nextCmd] s v
  fences : ∀ p, (ptn v p).fence = (ptn s p).fence
  link : v.host.link = s.host.link

section Taking

variable {s u : State} {r op : Nat} {e : BitVec 512} {rest : List (BitVec 512)}

theorem fence_demandAll (ps : List Nat) (s : State) (p : Nat) : (ptn (demandAll ps s) p).fence = (ptn s p).fence :=
  foldl_same (fun t => (ptn t p).fence) (fun _ q => ptn_demand (·.fence) (fun _ _ _ _ _ => rfl) q _ p) ps s

theorem Admits.taken {check : State → Nat → BitVec 512 → Option Refused} (admits : Admits s r op (check s r e) e rest u)
    (defined : (permitted op).isSome = true) (shape : State → Cmd → Cmd) (after : Nat → State → State) :
    ∃ v, admitNext r op check shape after s = after s.nextCmd v ∧ Taken s r rest (shape u (admitted r e u)) v := by
  obtain ⟨found, -, number, popped⟩ := admitted_facts shape admits
  have reserved := keeps_reserve admits.reserved
  have posted := k_postTrdy (m := [.host]) (within_self _) r e (ring u r).granules (Keeps.refl _ (admitHead r e shape u))
  refine ⟨_, number ▸ admitNext_admits shape after admits defined, number ▸ found, popped, ?_, fun p => ?_, ?_⟩
  · exact k_postTrdy (fun q hq => by simp_all) r e _ (k_admitHead (within_self _) r e shape
      ⟨reserved.pending, reserved.tap, reserved.hbm, reserved.free, fun q hq => reserved.only q fun h => hq (by simp_all)⟩)
  · rw [ptn_of p posted.same_ptns, admitHead, fence_demandAll]
    exact congrArg Ptn.fence (ptn_of p reserved.same_ptns)
  · have link := reserve_link r e s
    rw [admits.reserved] at link
    rw [postTrdy_link, admitHead_link, link]

end Taking

/-! #### What follows a kind of command -/

section Kinds

variable {s u v : State} {r c : Nat} {e : BitVec 512} {rest : List (BitVec 512)} {x : Cmd}

/-- A search is bound to the snapshot it names, or to the latest epoch (R13, R119). -/
theorem admitSearch_facts {op : Nat} {far : ReadReply} (admits : Admits s r op (searchCheck s r far e) e rest u) (defined : (permitted op).isSome = true) :
    let t := admitNext r op (fun s r e => searchCheck s r far e) (searchShape far) keep s
    ∃ k, cmd? t s.nextCmd = some k ∧ (ring t r).fetched = rest ∧
      k.snap = (if eSnap e = 0 then (coll s k.coll).latest else eSnap e) ∧ k.stage = payloadStage e ∧ k.tag = eTag e := by
  obtain ⟨v, run, taken⟩ := Admits.taken (check := fun s r e => searchCheck s r far e) admits defined (searchShape far) keep
  have colls := (keeps_reserve admits.reserved).same_colls
  exact run ▸ ⟨_, taken.found, taken.popped, coll_of _ colls ▸ rfl, rfl, rfl⟩

theorem noteIngest_of (found : cmd? v c = some x) :
    noteIngest c v = updColl x.coll (fun y => { y with lastIngestCtx := some x.ctx }) v := by
  simp only [noteIngest, found]

theorem admitIngest_facts {op : Nat} (admits : Admits s r op (ingestCheck s r e) e rest u) (defined : (permitted op).isSome = true) :
    ∃ k, cmd? (admitIngest r op s) s.nextCmd = some k ∧ (ring (admitIngest r op s) r).fetched = rest ∧
      k.stage = payloadStage e ∧ k.tag = eTag e ∧ (coll (admitIngest r op s) k.coll).lastIngestCtx = some k.ctx := by
  obtain ⟨v, run, taken⟩ := admits.taken defined ingestShape noteIngest
  rw [admitIngest, run, noteIngest_of taken.found]
  exact ⟨_, taken.found, taken.popped, rfl, rfl, congrArg Coll.lastIngestCtx (coll_updColl_same ..)⟩

/-- A chunk that enters a partition's queue stands in it (R242). -/
theorem mem_queueChunk (p : Nat) (k : Chunk) (s : State) : k ∈ (ptn (queueChunk p k s) p).chunkQ := by
  rw [queueChunk, ptn_updPtn_same]
  simp

theorem queueChunk_keeps (p : Nat) (k : Chunk) (s : State) : Keeps [.ptns] s (queueChunk p k s) := k_queueChunk (within_self _) p k (Keeps.refl _ s)

theorem startBulk_of (found : cmd? v c = some x) :
    startBulk c v = queueChunk x.home { kind := 4, ctx := x.ctx, cmd := some c } (noteIngest c v) := by
  simp only [startBulk, found]

theorem afterFlush_of (found : cmd? v c = some x) :
    afterFlush c v = settleWaiters (updColl x.coll (fun y => { y with
      flushBase := [], flushOk := 0, flushEpoch := 0, flushCsn := 0, lastFlush := some c }) v) := by
  simp only [afterFlush, found]

end Kinds


/-! #### EXPORT (R190–R192) -/

section Export

variable {s v : State} {c p o : Nat} {x : Cmd}

/-- The bricks that an EXPORT reads, and the place where it goes on, depend on its command's collection, job and snapshot. -/
theorem exportList_congr {y : Cmd} (colls : v.colls = s.colls) (same : (y.coll, y.snap) = (x.coll, x.snap)) : exportList v y = exportList s x := by
  obtain ⟨hcoll, hsnap⟩ := Prod.mk.inj same
  funext q
  simp only [exportList, coll_of _ colls, hcoll, hsnap]

theorem exportPlace_congr {y : Cmd} (jobs : v.jobs = s.jobs) (colls : v.colls = s.colls) (same : (y.coll, y.snap) = (x.coll, x.snap))
    (job : y.job = x.job) (p o : Nat) : exportPlace v y p o = exportPlace s x p o := by
  simp only [exportPlace, exportList_congr colls same, job, jobPtns, job?, jobs]

theorem turnedAway_of_fences (fences : ∀ p, (ptn v p).fence = (ptn s p).fence) (ps : List Nat) : turnedAway v ps = turnedAway s ps := by
  simp only [turnedAway, pastDrain, fenceCode, fences]

theorem length_leBytes (n v : Nat) : (leBytes n v).length = n := by
  induction n generalizing v with
  | zero => rfl
  | succ n ih => exact congrArg (· + 1) (ih _)

/-- At most 16 KB of bytes go out in one posted write. -/
theorem postBytes_of_short {addr : Nat} {bs : List Byte} (some : bs ≠ []) (short : bs.length ≤ 16384) (s : State) :
    postBytes addr bs s = postWrite { kind := .data, addr := BitVec.ofNat 64 addr, bytes := bs } s := by
  obtain ⟨b, l, rfl⟩ := List.exists_cons_of_ne_nil some
  simp only [postBytes, List.length_cons, chunksOf, List.isEmpty_cons, Bool.false_eq_true, if_false, List.take_of_length_le short,
    List.drop_of_length_le short]
  cases l.length <;> simp [chunksOf]

/-- The header of an EXPORT that ends without a record, past its last brick (R190, R191). -/
def emptyHeader (x : Cmd) : HostWrite :=
  { kind := .data, addr := BitVec.ofNat 64 (ePayload x.entry)
    bytes := leBytes 4 0 ++ leBytes 4 x.snap.toNat ++ leBytes 8 (x.snap.toNat * 2 ^ 32 + 0xF * 2 ^ 28) ++ leBytes 4 2 ++ leBytes 4 64 ++ List.replicate 40 0 }

theorem finishExport_of_start (found : cmd? v c = some x) (start : x.count = 0 ∧ x.expLen = 64) :
    finishExport c 0xF 0 v = updCmd c (fun k => { k with stage := .final, epoch := x.snap }) (postWrite (emptyHeader x) v) := by
  obtain ⟨none, header⟩ := start
  simp only [finishExport, found, none, header, Nat.add_zero]
  rw [postBytes_of_short (by simp) (by simp [length_leBytes])]
  rfl

theorem goExport_of_none (found : cmd? v c = some x) (place : exportPlace v x p o = none) : goExport c p o v = finishExport c 0xF 0 v := by
  simp only [goExport, found, place]

section Place

variable {q n : Nat} (found : cmd? v c = some x) (place : exportPlace v x p o = some (q, n))
include found place

theorem goExport_of_fenced {code : W32} (fenced : turnedAway v [q] = some code) : goExport c p o v = failCmd c .fenced code v := by
  simp only [goExport, found, place, fenced]

/-- The chunk of an EXPORT from a place on: at most 256 bricks of one partition (R190, R242). -/
def exportChunkAt (s : State) (c : Nat) (x : Cmd) (q n : Nat) : Chunk :=
  { kind := 5, ctx := x.ctx, cmd := some c
    bricks := (((exportList s x q).drop n).take 256).map fun b => { brick := b, kind := 4, coll := x.coll, snap := x.snap } }

theorem goExport_of_chunk (open_ : turnedAway v [q] = none) : goExport c p o v =
    queueChunk q (exportChunkAt v c x q n) (updCmd c (fun k => { k with cursor := BitVec.ofNat 64 (q * 2 ^ 28 + n) }) (demand q v)) := by
  simp only [goExport, found, place, open_, exportChunkAt]

end Place

theorem bricks_exportChunkAt (s : State) (c : Nat) (x : Cmd) (q n : Nat) :
    (exportChunkAt s c x q n).bricks.map (·.brick) = ((exportList s x q).drop n).take 256 := by
  rw [exportChunkAt, List.map_map]
  exact List.map_id _

/-- An EXPORT whose header and records are still to write (R190). -/
def opened (x : Cmd) : Cmd := { x with expLen := 64, count := 0 }

theorem startExport_of (found : cmd? v c = some x) : startExport c v =
    goExport c (bits (xCursor x.entry).toNat 31 28) (bits (xCursor x.entry).toNat 27 0) (updCmd c opened v) := by
  simp only [startExport, found]
  rfl

end Export

/-! #### The end of a command other than an ingest one leaves the rings -/

theorem posts_postFault (code : W32) (s : State) : Posts s (postFault code s) := by
  refine Posts.trans (t := { updAon (fun a => { a with total := a.total + 1, codes := (code :: a.codes).take 16 }) s with faults := satInc s.faults })
    (Posts.of_host rfl) ?_
  exact posts_raise ..

theorem posts_sendMsg (m : Msg) (s : State) : Posts s (sendMsg m s) := by
  have discards : ∀ cause n module, Posts s (discard cause n module s) := fun cause n module =>
    Posts.trans (t := updIcern (fun i => { i with ttlDrops := i.ttlDrops + 1 }) s) (Posts.of_host rfl) (posts_postFault ..)
  unfold sendMsg sendClass
  split
  · exact discards ..
  · split
    · exact Posts.of_host (k_queueFlits (m := [.icern]) (within_self _) _ _ (Keeps.refl _ s)).same_host
    · exact discards ..

theorem posts_abortAll (x : Cmd) (c reason : Nat) (st : Status) (s : State) : Posts s (abortAll x c reason st s) := by
  have sends : ∀ (l : List Nat) (f : Nat → Msg) (u : State), Posts u (sendAll l f u) := by
    intro l f
    induction l with
    | nil => exact Posts.refl
    | cons a l ih => exact fun u => (posts_sendMsg (f a) u).trans (ih _)
  exact (Posts.of_host (k_abandonRun (m := [.icern]) (within_self _) _ _ (Keeps.refl _ s)).same_host).trans (sends ..)

theorem withdraw_of_other {s : State} {c : Nat} {x : Cmd} (found : cmd? s c = some x) (other : isIngest x.opcode = false) : withdraw c s = s := by
  simp only [withdraw, found, uncommitted, other, Bool.false_and, Bool.not_false, if_true]

theorem posts_failCmd {s : State} {c : Nat} {x : Cmd} (found : cmd? s c = some x) (other : isIngest x.opcode = false) (st : Status) (f : W32) :
    Posts s (failCmd c st f s) := by
  have ends : ∀ u : State, u.cmds = s.cmds → Posts u (finish c st 0 f (dropWork (· == c) (withdraw c u))) := fun u same => by
    rw [withdraw_of_other ((cmd_of c same).trans found) other]
    exact Posts.of_host (k_finish (m := [.ptns, .ctxs, .cmds]) (fun _ h => by simp_all) c st 0 f
      (k_dropWork (within_self _) _ (Keeps.refl _ u))).same_host
  unfold failCmd endCmd
  simp only [found]
  split
  · exact Posts.refl s
  · split
    · exact Posts.refl s
    · split
      · exact (posts_abortAll x c 1 st s).trans (ends _ (abortAll_cmds x c 1 st s))
      · exact ends s rfl

/-- How the EXPORT k, command c, goes on in t from a place that s gives: past the last brick it ends with an empty header; in a partition past step 4
of its fence it ends FENCED; else its chunk of the next bricks is queued there (R190–R192, R242, R353). -/
def ExportGoesOn (s t : State) (c : Nat) (k : Cmd) : Option (Nat × Nat) → Prop
  | none => k.stage = .final ∧ k.status = .ok ∧ k.epoch = k.snap ∧ (postedWrites t).getLast? = some (emptyHeader k)
  | some (p, o) => (∀ code, turnedAway s [p] = some code → k.stage = .final ∧ k.status = .fenced ∧ k.fault = code) ∧
      (turnedAway s [p] = none → k.stage = .running ∧ k.cursor = BitVec.ofNat 64 (p * 2 ^ 28 + o) ∧
        ∃ q ∈ (ptn t p).chunkQ, q.kind = 5 ∧ q.ctx = k.ctx ∧ q.cmd = some c ∧ q.bricks.map (·.brick) = ((exportList s k p).drop o).take 256)

theorem ExportGoesOn.of_same {s w t : State} {c : Nat} {k : Cmd} {place : Option (Nat × Nat)} (onward : ExportGoesOn w t c k place) (colls : w.colls = s.colls)
    (fences : ∀ p, (ptn w p).fence = (ptn s p).fence) : ExportGoesOn s t c k place := by
  simpa only [ExportGoesOn, turnedAway_of_fences fences, exportList_congr colls (rfl : (k.coll, k.snap) = (k.coll, k.snap))] using onward

/-- An EXPORT that has written nothing yet goes on from a place (R190). -/
theorem goExport_goesOn {s : State} {c p o : Nat} {x : Cmd} (found : cmd? s c = some x) (start : x.count = 0 ∧ x.expLen = 64)
    (running : x.stage = .running) (ok : x.status = .ok) (opcode : x.opcode = 0x41) (serves : linkServes s = true) :
    let t := goExport c p o s
    ∃ k, cmd? t c = some k ∧ t.host.rings = s.host.rings ∧ k.entry = x.entry ∧ k.coll = x.coll ∧ k.job = x.job ∧ k.snap = x.snap ∧
      k.expLen = 64 ∧ k.count = 0 ∧ ExportGoesOn s t c k (exportPlace s x p o) := by
  obtain ⟨none, header⟩ := start
  dsimp only
  cases place : exportPlace s x p o with
  | none =>
    simp only [linkServes, Bool.and_eq_true, Bool.not_eq_true'] at serves
    rw [goExport_of_none found place, finishExport_of_start found ⟨none, header⟩]
    have posted : cmd? (postWrite (emptyHeader x) s) c = some x := (cmd_of _ (postWrite_cmds ..)).trans found
    refine ⟨_, cmd_updCmd _ posted, by rw [updCmd_host, postWrite_host_rings], rfl, rfl, rfl, rfl, header, none, rfl, ok, rfl, ?_⟩
    rw [postedWrites, updCmd_host, ← postedWrites, postedWrites_postWrite _ serves.1.1 serves.2, List.getLast?_append]
    rfl
  | some at_ =>
    obtain ⟨q, n⟩ := at_
    cases away : turnedAway s [q] with
    | some code =>
      have other : isIngest x.opcode = false := by rw [opcode]; rfl
      obtain ⟨l, a, ended⟩ := failCmd_cmd .fenced code found (by simp [mustCommit, uncommitted, other]) (by simp [running]) (by simp [running])
      rw [goExport_of_fenced found place away]
      exact ⟨_, ended, (posts_failCmd found other ..).rings, rfl, rfl, rfl, rfl, header, rfl,
        fun code' away' => ⟨rfl, rfl, Option.some.inj (away.symm.trans away')⟩, fun open_ => absurd (away.symm.trans open_) (by simp)⟩
    | none =>
      rw [goExport_of_chunk found place away]
      have demanded := k_demand (m := [.ptns]) (within_self _) q (Keeps.refl _ s)
      refine ⟨_, (cmd_of _ (queueChunk_keeps ..).same_cmds).trans (cmd_updCmd _ ((cmd_of c demanded.same_cmds).trans found)),
        by rw [(queueChunk_keeps ..).same_host, updCmd_host, demanded.same_host], rfl, rfl, rfl, rfl, header, none,
        fun code away' => absurd (away.symm.trans away') (by simp), fun _ => ⟨running, rfl, _, mem_queueChunk .., rfl, rfl, rfl, ?_⟩⟩
      rw [bricks_exportChunkAt]
      exact congrArg (fun list : Nat → List Nat => ((list q).drop n).take 256) (exportList_congr rfl rfl)

/-- An EXPORT taken up goes on from its cursor (R190). -/
theorem startExport_facts {s v : State} {r : Nat} {rest : List (BitVec 512)} {x : Cmd} (taken : Taken s r rest x v) (running : x.stage = .running)
    (ok : x.status = .ok) (opcode : x.opcode = 0x41) (serves : linkServes s = true) :
    let t := startExport s.nextCmd v
    ∃ k, cmd? t s.nextCmd = some k ∧ (ring t r).fetched = rest ∧ k.entry = x.entry ∧ k.snap = x.snap ∧ k.expLen = 64 ∧ k.count = 0 ∧
      ExportGoesOn s t s.nextCmd k (exportPlace s k (bits (xCursor x.entry).toNat 31 28) (bits (xCursor x.entry).toNat 27 0)) := by
  have host : (updCmd s.nextCmd opened v).host = v.host := updCmd_host ..
  have jobs : (updCmd s.nextCmd opened v).jobs = s.jobs := (updCmd_jobs ..).trans taken.kept.same_jobs
  have colls : (updCmd s.nextCmd opened v).colls = s.colls := (updCmd_colls ..).trans taken.kept.same_colls
  have fences : ∀ p, (ptn (updCmd s.nextCmd opened v) p).fence = (ptn s p).fence := fun p =>
    (congrArg Ptn.fence (ptn_of p (updCmd_ptns ..))).trans (taken.fences p)
  have serves' : linkServes (updCmd s.nextCmd opened v) = true := by rw [linkServes, host, taken.link]; exact serves
  obtain ⟨k, found, rings, entry, hcoll, hjob, hsnap, header, none, onward⟩ :=
    goExport_goesOn (cmd_updCmd opened taken.found) ⟨rfl, rfl⟩ running ok opcode serves'
      (p := bits (xCursor x.entry).toNat 31 28) (o := bits (xCursor x.entry).toNat 27 0)
  have popped : (tgetD (updCmd s.nextCmd opened v).host.rings r {}).fetched = rest := host ▸ taken.popped
  dsimp only
  rw [startExport_of taken.found]
  refine ⟨k, found, by rw [ring, rings]; exact popped, entry, hsnap, header, none, ?_⟩
  rw [exportPlace_congr (s := s) jobs colls (y := opened x) (x := k) (Prod.ext hcoll.symm hsnap.symm) hjob.symm] at onward
  exact onward.of_same colls fences

/-! #### The rows -/

/-- Settles O10: each row is an admission by its opcode and checks, and what follows it is read off the command that was taken up. -/
theorem admission : Obligations.Admission := by
  unfold Obligations.Admission
  refine ⟨?_, ?_, ?_, ?_, ?_, ?_, ?_, ?_, ?_, ?_, ?_, ?_⟩
  · intro s u r e rest admits
    obtain ⟨v, run, taken⟩ := admits.taken rfl (fun _ x => { x with stage := .final }) keep
    exact ⟨v, _, congrArg Host.Outcome.next run, taken.found, taken.popped, rfl, rfl, rfl, rfl, rfl⟩
  · intro s u r e rest admits
    obtain ⟨v, run, taken⟩ := admits.taken rfl (fenceShape r.val) keep
    have live := ringLive_of_cmds (keeps_reserve admits.reserved).same_cmds r.val
    exact ⟨v, _, congrArg Host.Outcome.next run, taken.found, taken.popped, live, live ▸ rfl⟩
  · intro s u r far e rest admits
    obtain ⟨k, facts⟩ := admitSearch_facts admits rfl
    exact ⟨_, k, rfl, facts⟩
  · intro s u r far e rest admits
    obtain ⟨k, facts⟩ := admitSearch_facts admits rfl
    exact ⟨_, k, rfl, facts⟩
  · intro s u r far e rest admits
    obtain ⟨k, facts⟩ := admitSearch_facts admits rfl
    exact ⟨_, k, rfl, facts⟩
  · intro s u r e rest admits
    obtain ⟨k, facts⟩ := admitIngest_facts admits rfl
    exact ⟨_, k, rfl, facts⟩
  · intro s u r e rest admits
    obtain ⟨k, facts⟩ := admitIngest_facts admits rfl
    exact ⟨_, k, rfl, facts⟩
  · intro s u r e rest admits
    obtain ⟨k, facts⟩ := admitIngest_facts admits rfl
    exact ⟨_, k, rfl, facts⟩
  · intro s u r e rest admits
    obtain ⟨v, run, taken⟩ := admits.taken rfl queryShape keep
    have colls := (keeps_reserve admits.reserved).same_colls
    exact ⟨v, _, congrArg Host.Outcome.next run, taken.found, taken.popped, rfl, coll_of _ colls ▸ rfl⟩
  · intro s u r e rest admits
    obtain ⟨v, run, taken⟩ := admits.taken rfl (fun _ x => { x with stage := .assigning }) startBulk
    rw [startBulk_of taken.found, noteIngest_of taken.found] at run
    exact ⟨_, _, congrArg Host.Outcome.next run, (cmd_of _ (queueChunk_keeps ..).same_cmds).trans taken.found,
      (congrArg Ring.fetched (ring_of r (queueChunk_keeps ..).same_host)).trans taken.popped, rfl, _, mem_queueChunk .., rfl, rfl, rfl⟩
  · intro s u r e rest admits
    obtain ⟨v, run, taken⟩ := admits.taken rfl (fun s x => { x with snap := exportSnap s x.entry, stage := .running }) startExport
    have snap : exportSnap u e = exportSnap s e := by simp only [exportSnap, coll_of _ (keeps_reserve admits.reserved).same_colls]
    have serves : linkServes s = true := by
      have turn := admits.turn
      simp only [mayAdmit, Bool.and_eq_true] at turn
      exact turn.1.1.1.2
    obtain ⟨k, found, popped, entry, snapped, header, none, onward⟩ := startExport_facts taken rfl rfl admits.opcode serves
    refine ⟨_, k, congrArg Host.Outcome.next run, found, popped, snapped.trans snap, header, none, ?_⟩
    have entry : k.entry = e := entry
    cases place : exportPlace s k (bits (xCursor e).toNat 31 28) (bits (xCursor e).toNat 27 0) with
    | none =>
      obtain ⟨final, ok, epoch, posted⟩ := (congrArg (ExportGoesOn s _ _ k) place).mp onward
      exact ⟨final, ok, epoch, entry ▸ posted⟩
    | some at_ => exact (congrArg (ExportGoesOn s _ _ k) place).mp onward
  · intro s u r e rest admits
    obtain ⟨v, run, taken⟩ := admits.taken rfl flushShape afterFlush
    rw [afterFlush_of taken.found] at run
    have colls := (keeps_reserve admits.reserved).same_colls
    refine ⟨_, _, congrArg Host.Outcome.next run, taken.found, taken.popped, rfl, ?_, ?_, ?_⟩
    · exact congrArg Coll.flushBase (coll_of _ colls)
    · exact congrArg Coll.flushBase (coll_updColl_same ..)
    · exact congrArg Coll.lastFlush (coll_updColl_same ..)

end Sys2Proof.Machine

/-! ### Payloads of commands (R34, R119, R169, R220, R281, R282, R284, R293, R294, R343) -/

namespace Sys2Proof.Machine

-- One proof at a time: each thread of its own would take its stack out of the memory that the whole text is compiled in.
set_option Elab.async false

/-! #### What an engine's own moves leave (R197, R240) -/

/-- Moved lines count for their context; nothing else of a context changes (R240). -/
theorem ctx_engineMove {β : Type} (g : Ctx → β) (hg : ∀ (x : Ctx) k, g { x with counters := k } = g x) (issuer ctx : Option Nat) (home n : Nat)
    (s : State) (d : Nat) : (ctx? (engineMove issuer ctx home n s) d).map g = (ctx? s d).map g := by
  have counted : ∀ c f (u : State), (∀ x, g (f x) = g x) → (ctx? (updCtx c f u) d).map g = (ctx? u d).map g := by
    intro c f u same
    by_cases at_ : d = c
    · rw [at_, ctx_updCtx_same, Option.map_map]
      exact congrArg (Option.map · _) (funext same)
    · rw [ctx_updCtx_other _ _ at_]
  have drawn : ∀ u (t : State), ctx? (drawSeam issuer home u t) d = ctx? t d := fun u t => ctx_of d (drawSeam_keeps ..).same_ctxs
  have drew : ∀ p f (u : State), ctx? (updReg p f u) d = ctx? u d := fun _ _ _ => rfl
  have noted : ∀ (u : State), ctx? (noteReceiveWait issuer home n u) d = ctx? u d := by
    intro u
    unfold noteReceiveWait
    cases issuer <;> simp only [drew]
  unfold engineMove
  cases ctx <;> cases issuer <;> dsimp only <;> (repeat' split) <;> simp only [counted, hg, implies_true, drawn, drew, noted]

/-- The amounts of a command depend on the jobs, and on the job and the patterns of its context (R293). -/
theorem ctxHolds_of {s t : State} {ctx : Nat} (jobs : t.jobs = s.jobs)
    (same : (ctx? t ctx).map (fun x => (x.job, x.patterns)) = (ctx? s ctx).map fun x => (x.job, x.patterns)) (e : BitVec 512) (z : Nat) :
    ctxHolds t ctx e z = ctxHolds s ctx e z := by
  have job : ctxJob t ctx = ctxJob s ctx := by
    have := congrArg (fun o : Option (Nat × Tbl Pattern) => (o.map (·.1)).getD 0) same
    unfold ctxJob
    cases ht : ctx? t ctx <;> cases hs : ctx? s ctx <;> simp_all
  have header : ∀ id, patternHeader t ctx id = patternHeader s ctx id := fun id => by
    unfold patternHeader
    cases ht : ctx? t ctx <;> cases hs : ctx? s ctx <;> simp_all
  simp only [ctxHolds, job, header, jobPtns, job?, jobs]

theorem engineMove_keeps (issuer ctx : Option Nat) (home n : Nat) (s : State) :
    Keeps [.ptns, .ctxs, .seamTok] s (engineMove issuer ctx home n s) := k_engineMove (within_self _) issuer ctx home n (Keeps.refl _ s)

theorem stagedMoved_keeps (s : State) (x : Cmd) : Keeps [.ptns, .ctxs, .seamTok] s (stagedMoved s x) := by
  unfold stagedMoved
  split
  · exact engineMove_keeps ..
  · exact Keeps.refl _ s

theorem sparseHolds_stagedMoved (s : State) (x : Cmd) (rows : List (List F32 × List (Nat × Bf16))) :
    sparseHolds (stagedMoved s x) x rows = sparseHolds s x rows := by
  have same : (ctx? (stagedMoved s x) x.ctx).map (fun k => (k.job, k.patterns)) = (ctx? s x.ctx).map fun k => (k.job, k.patterns) := by
    unfold stagedMoved
    split
    · exact ctx_engineMove (fun k => (k.job, k.patterns)) (fun _ _ => rfl) ..
    · rfl
  simp only [sparseHolds, hybridHolds, ctxHolds_of (stagedMoved_keeps s x).same_jobs same]

/-! #### Commands of a job on this module alone -/

theorem peersOf_of {s t : State} (jobs : t.jobs = s.jobs) (aon : t.aon = s.aon) (j : Nat) : peersOf t j = peersOf s j := by
  simp only [peersOf, job?, jobs, aon]

/-- A command whose job has no other module is not forwarded (R340). -/
theorem forwardCmd_of_alone {s : State} {c : Nat} {x : Cmd} (found : cmd? s c = some x) (alone : peersOf s x.job = []) : forwardCmd c s = s := by
  unfold forwardCmd
  simp only [found, alone]
  (repeat' split) <;> rfl

theorem afterPayload_of_other {s : State} {c : Nat} {x : Cmd} (found : cmd? s c = some x) (other : x.opcode ≠ 0x12 ∨ x.stage ≠ .running) :
    afterPayload c s = s := by
  unfold afterPayload
  rw [found]
  exact if_neg fun h => other.elim (· h.1) (· h.2)

theorem afterPayload_of_exact {s : State} {c : Nat} {x : Cmd} (found : cmd? s c = some x) (scan : x.opcode = 0x12) (running : x.stage = .running) :
    afterPayload c s = startExact c s := by
  unfold afterPayload
  rw [found]
  exact if_pos ⟨scan, running⟩

theorem isIngest_of_isSearch {op : Nat} (search : isSearch op = true) : isIngest op = false := by
  simp only [isSearch, Bool.or_eq_true, beq_iff_eq] at search
  obtain (rfl | rfl) | rfl := search <;> rfl

theorem mustCommit_of_isSearch {x : Cmd} (search : isSearch x.opcode = true) : mustCommit x = false := by
  simp [mustCommit, uncommitted, isIngest_of_isSearch search]

/-! #### Ingest payloads (R169) -/

section Ingest

variable {s : State} {c : Nat} {x : Cmd} {bs : List Byte}

theorem encodeAll_cmd (recs : List Rec) (found : cmd? s c = some x) :
    ∃ l, cmd? (encodeAll c recs s) c = some { x with recs := l, stage := .assigning } := by
  unfold encodeAll
  rw [found]
  refine ⟨_, cmd_updCmd _ ?_⟩
  split
  · exact (cmd_of c (updCollPtn_cmds ..)).trans found
  · exact found

/-- A valid ingest payload is encoded, and its assignment is queued in the home partition (R169, R242). -/
theorem takeIngest_of_ok {rs : List Rec} (found : cmd? s c = some x) (valid : readIngest (coll s x.coll) x.entry bs = .ok rs)
    (alone : peersOf s x.job = []) :
    let t := takeIngest c none bs s
    ∃ y, cmd? t c = some y ∧ y.stage = .assigning ∧ y.payload = bs ∧ (y.opcode, y.granules) = (x.opcode, x.granules) ∧
      ∃ q ∈ (ptn t x.home).chunkQ, q.kind = assignKind x ∧ q.ctx = x.ctx ∧ q.cmd = some c := by
  unfold takeIngest
  simp only [found, foreignAt, valid]
  generalize (if x.origin.isNone then splitRecs s x.job rs else (rs, [])) = split_
  obtain ⟨mine, parts⟩ := split_
  obtain ⟨l, encoded⟩ := encodeAll_cmd mine (cmd_updCmd (fun x => { x with payload := bs, parts := parts }) found)
  have kept : Keeps [.ptns, .colls, .cmds] s (queueChunk x.home { kind := assignKind x, ctx := x.ctx, cmd := some c }
      (encodeAll c mine (updCmd c (fun x => { x with payload := bs, parts := parts }) s))) :=
    k_queueChunk ((within_self _).of (by decide)) _ _ (k_encodeAll ((within_self _).of (by decide)) _ _ (k_updCmd ((within_self _).of (by decide)) _ _ (Keeps.refl _ s)))
  have queued := (cmd_of c (queueChunk_keeps x.home { kind := assignKind x, ctx := x.ctx, cmd := some c }
      (encodeAll c mine (updCmd c (fun x => { x with payload := bs, parts := parts }) s))).same_cmds).trans encoded
  dsimp only
  rw [forwardCmd_of_alone queued ((peersOf_of kept.same_jobs kept.same_aon _).trans alone)]
  exact ⟨_, queued, rfl, rfl, rfl, _, mem_queueChunk .., rfl, rfl, rfl⟩

/-- An invalid one fixes the failure found, its count naming the record (R169). -/
theorem takeIngest_of_error {st : Status} {i : Nat} (found : cmd? s c = some x) (invalid : readIngest (coll s x.coll) x.entry bs = .error (st, i))
    (open_ : mustCommit x = false) (reading : x.stage = .reading) :
    ∃ y, cmd? (takeIngest c none bs s) c = some y ∧ y.stage = .final ∧ y.status = st ∧ y.count = i := by
  unfold takeIngest
  simp only [found, foreignAt, invalid]
  obtain ⟨y, ended, final, status, -⟩ := failCmd_ends st 0 found open_ (by simp [reading]) (by simp [reading])
  refine ⟨_, cmd_updCmd _ ended, ?_, ?_, ?_⟩ <;> simp [status, final]

end Ingest

/-! #### Search payloads (R34, R119, R293, R294) -/

section Search

variable {s : State} {c : Nat} {x : Cmd} {bs : List Byte} {rows : List (List F32 × List (Nat × Bf16))}

/-- Amounts that are all had at once lie within their pools, and the command lacks none then (R294, R295). -/
theorem takeLacking_facts {hs : List Hold} (found : cmd? s c = some x) (lacks : x.lacking = hs) (room : (takeLacking c hs s).2 = true) :
    (∀ h ∈ hs, h.amount ≤ poolSize h.pool) ∧
      cmd? (takeLacking c hs s).1 c = some { x with lacking := [], senior := none, holds := x.holds ++ hs } := by
  induction hs generalizing s x with
  | nil =>
    refine ⟨by simp, ?_⟩
    rw [takeLacking, cmd_updCmd _ found, List.append_nil]
    exact congrArg (fun l => some { x with lacking := l, senior := none }) lacks
  | cons h l ih =>
    unfold takeLacking at room ⊢
    split at room
    · cases room
    · rename_i free
      rw [if_neg free]
      simp only [Bool.or_eq_true, decide_eq_true_eq, not_or, Nat.not_lt] at free
      have taken : cmd? (updCmd c (fun x => { x with lacking := l, holds := x.holds ++ [h] }) (takePool h s)) c =
          some { x with lacking := l, holds := x.holds ++ [h] } := cmd_updCmd _ found
      obtain ⟨fit, rest⟩ := ih taken rfl room
      refine ⟨List.forall_mem_cons.mpr ⟨by omega, fit⟩, ?_⟩
      rw [rest, List.append_assoc, List.singleton_append]

/-- A row as it is planished and encoded keeps what was received (R34). -/
def encodedRows (s : State) (x : Cmd) (rows : List (List F32 × List (Nat × Bf16))) : List QRow :=
  rows.zipIdx.map fun (r, i) =>
    { encodeRow (s.free + i * planishChoices (coll s x.coll).d) (coll s x.coll).seed (coll s x.coll).d ((coll s x.coll).metric == 2) (sWide x.entry) r.1
      with terms := r.2 }

theorem encodedRows_received (s : State) (x : Cmd) : (encodedRows s x rows).map (fun r => (r.raw, r.terms)) = rows := by
  rw [encodedRows, List.map_map]
  exact List.zipIdx_map_fst 0 rows

theorem startRows_of_alone (found : cmd? s c = some x) (alone : peersOf s x.job = []) :
    startRows c bs rows s = spend (rows.length * planishChoices (coll s x.coll).d)
      (updCmd c (fun k => { k with payload := bs, rows := encodedRows s x rows, stage := .running }) s) := by
  have kept := k_spend (m := [.cmds, .free]) ((within_self _).of (by decide)) (rows.length * planishChoices (coll s x.coll).d)
    (k_updCmd ((within_self _).of (by decide)) c (fun k => { k with payload := bs, rows := encodedRows s x rows, stage := .running }) (Keeps.refl _ s))
  have started := cmd_updCmd (fun k => { k with payload := bs, rows := encodedRows s x rows, stage := .running }) found
  unfold startRows
  simp only [found]
  exact forwardCmd_of_alone (s := spend _ (updCmd c _ s)) started ((peersOf_of kept.same_jobs kept.same_aon _).trans alone)

/-- The rows of a valid payload are the command's, which runs with every amount that its terms need (R34, R119, R293). -/
theorem takeSearch_of_ok (found : cmd? s c = some x) (alone : peersOf s x.job = [])
    (valid : searchRows (fun a n => x.origin.isSome || rangeIn x.hwins a n true false) (coll s x.coll) x.entry bs = .ok rows)
    (room : sparseRoom s c x rows = true) :
    Keeps [.host, .cmds, .free] s (takeSearch c bs s) ∧ ∃ y, cmd? (takeSearch c bs s) c = some y ∧ y.stage = .running ∧ y.payload = bs ∧
      y.rows.map (fun r => (r.raw, r.terms)) = rows ∧ y.holds = x.holds ++ sparseHolds s x rows ∧
      (y.snap, y.opcode, y.granules, y.job, y.coll, y.stopped) = (x.snap, x.opcode, x.granules, x.job, x.coll, x.stopped) := by
  have starts : ∀ {u : State} {y : Cmd}, Keeps [.host, .cmds, .free] s u → cmd? u c = some y → y.job = x.job →
      Keeps [.host, .cmds, .free] s (startRows c bs rows u) ∧ ∃ k, cmd? (startRows c bs rows u) c = some k ∧ k.stage = .running ∧ k.payload = bs ∧
        k.rows.map (fun r => (r.raw, r.terms)) = rows ∧
        (k.holds, k.snap, k.opcode, k.granules, k.job, k.coll, k.stopped) =
          (y.holds, y.snap, y.opcode, y.granules, y.job, y.coll, y.stopped) := by
    intro u y kept found job
    rw [startRows_of_alone found ((peersOf_of kept.same_jobs kept.same_aon _).trans (job ▸ alone))]
    exact ⟨k_spend ((within_self _).of (by decide)) _ (k_updCmd ((within_self _).of (by decide)) _ _ kept), _, cmd_updCmd _ found, rfl, rfl, encodedRows_received .., rfl⟩
  unfold takeSearch
  simp only [found, valid]
  by_cases direct : x.opcode ≠ 0x11 ∨ x.origin.isSome = true
  · rw [if_pos direct, sparseHolds, if_pos direct]
    obtain ⟨kept, k, run, running, payload, received, same⟩ := starts (Keeps.refl _ s) found rfl
    obtain ⟨holds, rest⟩ := Prod.mk.inj same
    exact ⟨kept, k, run, running, payload, received, by rw [holds, List.append_nil], rest⟩
  · have amounts : sparseHolds s x rows = if x.lacking.isEmpty then hybridHolds s x (rows.foldl (fun n r => n + r.2.length) 0) else x.lacking := if_neg direct
    rw [if_neg direct, ← amounts]
    have same : updCmd c (fun k => { k with lacking := sparseHolds s k rows }) s = updCmd c (fun k => { k with lacking := sparseHolds s x rows }) s := by
      simp only [updCmd, found]
    rw [sparseRoom, same] at room
    generalize sparseHolds s x rows = hs at room ⊢
    have lacking : cmd? (updCmd c (fun x => { x with lacking := hs }) s) c = some { x with lacking := hs } := cmd_updCmd _ found
    obtain ⟨fit, taken⟩ := takeLacking_facts lacking rfl room
    have noneOver : (hs.any fun h => decide (h.amount > poolSize h.pool)) = false := by
      simp only [List.any_eq_false, decide_eq_true_eq, Nat.not_lt, gt_iff_lt]
      exact fit
    have kept := k_takeLacking (m := [.host, .cmds, .free]) ((within_self _).of (by decide)) c hs
      (k_updCmd ((within_self _).of (by decide)) c (fun x => { x with lacking := hs }) (Keeps.refl _ s))
    rw [if_neg (by simp [noneOver])]
    generalize takeLacking c hs (updCmd c (fun x => { x with lacking := hs }) s) = got at *
    obtain ⟨u, ok⟩ := got
    obtain rfl : ok = true := room
    obtain ⟨kept, k, run, running, payload, received, same⟩ := starts kept taken rfl
    obtain ⟨holds, rest⟩ := Prod.mk.inj same
    exact ⟨kept, k, run, running, payload, received, holds, rest⟩

theorem takeSearch_of_error {st : Status} (found : cmd? s c = some x)
    (invalid : searchRows (fun a n => x.origin.isSome || rangeIn x.hwins a n true false) (coll s x.coll) x.entry bs = .error st) :
    takeSearch c bs s = failCmd c st 0 s := by
  simp only [takeSearch, found, invalid]

theorem cmd_foldl {α : Type} {g : State → α → State} (l : List α) (u : State) (c : Nat) (each : ∀ u a, (g u a).cmds = u.cmds) :
    cmd? (l.foldl g u) c = cmd? u c := cmd_of c (foldl_same (·.cmds) each l u)

/-- An exact scan whose partitions are all open knows the bricks that its snapshot's version holds; its chunks are queued (R136, R139, R242). -/
theorem startExact_of_open (found : cmd? s c = some x) (running : x.stopped = false) (open_ : ∀ p ∈ jobPtns s x.job, pastDrain (ptn s p) = false) :
    ∃ y, cmd? (startExact c s) c = some y ∧ y.stage = x.stage ∧ y.payload = x.payload ∧
      y.rows.map (fun r => (r.raw, r.terms)) = x.rows.map (fun r => (r.raw, r.terms)) ∧
      y.scanned = (jobPtns s x.job).foldl (fun n p => n + (bricksAt (coll s x.coll) p x.snap).length) 0 := by
  unfold startExact
  simp only [found, running, Bool.false_eq_true, if_false]
  have passes : ∀ (u : State) (ps : List Nat), u.ptns = s.ptns → (∀ p ∈ ps, p ∈ jobPtns s x.job) → turnedAway u ps = none := by
    intro u ps same within
    rw [turnedAway, List.find?_eq_none.mpr fun p hp => by rw [ptn_of p same, open_ p (within p hp)]; simp]
    rfl
  rw [passes _ _ (updCmd_ptns ..) fun p hp => (List.mem_filter.mp hp).1]
  dsimp only
  rw [cmd_foldl, cmd_updCmd _ found]
  · exact ⟨_, rfl, rfl, rfl, List.map_map, rfl⟩
  · exact fun u p => foldl_same (·.cmds) (fun u g => foldl_same (·.cmds) (fun u part => (queueChunk_keeps ..).same_cmds) _ u) _ u

end Search

/-! #### Granules (R281, R282) -/

theorem dropGranules_of {s : State} {c : Nat} {x : Cmd} (found : cmd? s c = some x) :
    cmd? (dropGranules c s) c = some { x with granules := none } ∧ ∀ g, x.granules = some g → g ∉ (dropGranules c s).host.granules := by
  rw [dropGranules, found]
  refine ⟨cmd_updCmd (s := freeGranules x.granules s) _ ((cmd_freeGranules ..).trans found), fun g held => ?_⟩
  dsimp only
  rw [updCmd_host, held]
  show g ∉ s.host.granules.filter (· ≠ g)
  simp

theorem dropGranules_ptns (c : Nat) (s : State) : (dropGranules c s).ptns = s.ptns := by
  unfold dropGranules
  split
  · rw [updCmd_ptns]
    unfold freeGranules
    split <;> rfl
  · rfl

/-! #### The rows that read payloads -/

section Reads

variable {s : State} {c : Nat} {x : Cmd}

section Staged

variable (found : cmd? s c = some x)
include found

theorem exec_stagedPayloadRead (reading : x.stage = .reading) (staged : x.granules.isSome = true) (ready : homeReady s x = true) :
    exec (.stagedPayloadRead c) s = .next (readStaged c s) := onlyIf_true _ _ (by simp [found, reading, staged, ready])

theorem readStaged_of_poison (poisoned : stagedPoison s x = true) : readStaged c s =
    dropGranules c (failCmd c .uncorrectable (poisonCode x.home) (postFault (poisonCode x.home) (stagedMoved s x))) := by
  simp only [readStaged, found, poisoned, if_true]
  rfl

theorem readStaged_of_clean (clean : stagedPoison s x = false) : readStaged c s =
    let t := afterPayload c (takePayload c (stagedBytes s x) (stagedMoved s x))
    if (cmd? t c).any (·.stage == .reading) then t else dropGranules c t := by
  simp only [readStaged, found, clean, Bool.false_eq_true, if_false]
  rfl

/-- A staged payload that lets its command go on frees its granules (R281). -/
theorem readStaged_of_taken {y : Cmd} (clean : stagedPoison s x = false)
    (taken : cmd? (takePayload c (stagedBytes s x) (stagedMoved s x)) c = some y) (other : y.opcode ≠ 0x12 ∨ y.stage ≠ .running) (onward : y.stage ≠ .reading) :
    readStaged c s = dropGranules c (takePayload c (stagedBytes s x) (stagedMoved s x)) := by
  rw [readStaged_of_clean found clean]
  dsimp only
  rw [afterPayload_of_other taken other, if_neg (by simpa [taken] using onward)]

theorem takePayload_of_search (search : isSearch x.opcode = true) (bs : List Byte) : takePayload c bs s = takeSearch c bs s := by
  simp only [takePayload, found, search, if_true]

theorem takePayload_of_ingest (ingest : isSearch x.opcode = false) (bs : List Byte) : takePayload c bs s = takeIngest c none bs s := by
  simp only [takePayload, found, ingest, Bool.false_eq_true, if_false]

end Staged

theorem exec_stagingReuse (found : cmd? s c = some x) (done : x.stage = .done) (held : x.granules.isSome = true) :
    exec (.stagingReuse c) s = .next (delCmd c (freeGranules x.granules s)) := by
  rw [exec, execStagingReuse, onlyIf_true _ _ (by simp [found, done, held]), found]

section Pulled

variable (up : s.host.link.up = true) (found : cmd? s c = some x) (reading : x.stage = .reading) (unstaged : x.granules = none) (own : x.origin = none)
  (ready : homeReady s x = true)
include up found reading unstaged own ready

theorem pulling_of : pulling s c = true := by simp [pulling, up, found, reading, unstaged, own, ready]

theorem exec_dmaReadComplete (reply : ReadReply) : exec (.dmaReadComplete c reply) s = .next (readDma c reply s) :=
  onlyIf_true _ _ (pulling_of up found reading unstaged own ready)

theorem exec_dmaTimeout : exec (.dmaTimeout c) s = .next (hostFail c 0x71 4 .timeout s) :=
  onlyIf_true _ _ (pulling_of up found reading unstaged own ready)

end Pulled

/-- A host access that fails ends its command with the code of its ring (R284, R433). -/
theorem hostFail_ends (unit cause : Nat) (st : Status) (found : cmd? s c = some x) (reading : x.stage = .reading) (own : x.origin = none)
    (open_ : mustCommit x = false) :
    ∃ y, cmd? (hostFail c unit cause st s) c = some y ∧ y.stage = .final ∧ y.status = st ∧ y.count = 0 ∧ y.fault = hostFault unit cause (some x.ring) := by
  have posted : cmd? (postFault (hostFault unit cause (some x.ring)) (if unit = 0x71 then noteAer cause s else s)) c = some x := by
    refine (cmd_of c (postFault_cmds ..)).trans ?_
    split
    · exact found
    · exact found
  obtain ⟨y, ended, final, status, count, fault, -⟩ :=
    failCmd_ends st (hostFault unit cause (some x.ring)) posted open_ (by simp [reading]) (by simp [reading])
  refine ⟨y, ?_, final, status, count, fault⟩
  rw [← ended]
  simp only [hostFail, found, own, Option.isNone_none, if_true]

end Reads

/-- Settles O11: a payload is taken in by takeIngest or takeSearch, and a failure ends its command. -/
theorem payloadReads : Obligations.PayloadReads := by
  unfold Obligations.PayloadReads
  refine ⟨?_, ?_, ?_, ?_, ?_, ?_, ?_, ?_, ?_, ?_, ?_, ?_⟩
  · rintro s k c x rfl found awaits_ open_
    obtain ⟨y, ended, facts⟩ := failCmd_ends .timeout 0 found open_ (by simp [awaits_]) (by simp [awaits_])
    exact ⟨_, y, onlyIf_true _ _ (by simp [awaits, found, awaits_]), ended, facts⟩
  · intro s c x rs found reading staged ready clean ingest valid alone
    have kept := stagedMoved_keeps s x
    have found' : cmd? (stagedMoved s x) c = some x := (cmd_of c kept.same_cmds).trans found
    obtain ⟨y, taken, assigning, payload, same, q, queued, facts⟩ := takeIngest_of_ok found' (coll_of x.coll kept.same_colls ▸ valid)
      ((peersOf_of kept.same_jobs kept.same_aon _).trans alone)
    rw [← takePayload_of_ingest found' ingest] at taken queued
    obtain ⟨dropped, freed⟩ := dropGranules_of taken
    rw [exec_stagedPayloadRead found reading staged ready, readStaged_of_taken found clean taken (.inr (by simp [assigning])) (by simp [assigning])]
    obtain ⟨-, granules⟩ := Prod.mk.inj same
    exact ⟨_, _, rfl, dropped, assigning, rfl, payload, fun g held => freed g (granules.trans held), q, by rw [ptn_of _ (dropGranules_ptns ..)]; exact queued, facts⟩
  · intro s c x found reading staged ready poisoned open_
    have found' : cmd? (postFault (poisonCode x.home) (stagedMoved s x)) c = some x :=
      (cmd_of c ((postFault_cmds ..).trans (stagedMoved_keeps s x).same_cmds)).trans found
    obtain ⟨y, ended, final, status, count, fault, -⟩ :=
      failCmd_ends .uncorrectable (poisonCode x.home) found' open_ (by simp [reading]) (by simp [reading])
    rw [exec_stagedPayloadRead found reading staged ready, readStaged_of_poison found poisoned]
    exact ⟨_, _, rfl, (dropGranules_of ended).1, final, status, count, fault, rfl⟩
  · intro s c x rows found reading staged ready clean search other valid room alone
    have kept := stagedMoved_keeps s x
    have found' : cmd? (stagedMoved s x) c = some x := (cmd_of c kept.same_cmds).trans found
    obtain ⟨-, y, taken, running, payload, received, holds, same⟩ := takeSearch_of_ok found' ((peersOf_of kept.same_jobs kept.same_aon _).trans alone)
      (coll_of x.coll kept.same_colls ▸ valid) room
    simp only [Prod.mk.injEq] at same
    obtain ⟨snap, opcode, granules, -⟩ := same
    rw [← takePayload_of_search found' search] at taken
    obtain ⟨dropped, freed⟩ := dropGranules_of taken
    rw [exec_stagedPayloadRead found reading staged ready,
      readStaged_of_taken found clean taken (.inl (opcode ▸ other)) (by simp [running])]
    exact ⟨_, _, rfl, dropped, running, rfl, payload, received, holds.trans (by rw [sparseHolds_stagedMoved]), snap, fun g held => freed g (granules.trans held)⟩
  · intro s c x bs rows up found reading unstaged own ready search other valid room alone
    obtain ⟨-, y, taken, running, payload, received, holds, same⟩ := takeSearch_of_ok found alone valid room
    simp only [Prod.mk.injEq] at same
    obtain ⟨snap, opcode, -⟩ := same
    rw [← takePayload_of_search found search] at taken
    rw [exec_dmaReadComplete up found reading unstaged own ready, readDma, afterPayload_of_other taken (.inl (opcode ▸ other))]
    exact ⟨_, y, rfl, taken, running, payload, received, holds, snap⟩
  · intro s c x bs rows up found reading unstaged own ready scan going valid room alone open_
    obtain ⟨kept, y, taken, running, payload, received, -, same⟩ := takeSearch_of_ok found alone valid room
    simp only [Prod.mk.injEq] at same
    obtain ⟨snap, opcode, -, job, coll_, stopped⟩ := same
    have jobs : jobPtns (takeSearch c bs s) x.job = jobPtns s x.job := by simp only [jobPtns, job?, kept.same_jobs]
    obtain ⟨k, started, stage, payload', rows', scanned⟩ := startExact_of_open taken (stopped.trans going) (by
      intro p hp
      rw [ptn_of p kept.same_ptns]
      exact open_ p (jobs ▸ job ▸ hp))
    rw [exec_dmaReadComplete up found reading unstaged own ready, readDma, takePayload_of_search found (by rw [scan]; rfl),
      afterPayload_of_exact taken (opcode.trans scan) running]
    refine ⟨_, k, rfl, started, stage.trans running, payload'.trans payload, rows'.trans received, ?_⟩
    rw [scanned, job, jobs, coll_, snap, coll_of x.coll kept.same_colls]
  · intro s c x bs st up found reading unstaged own ready search invalid
    obtain ⟨y, ended, final, status, count, -⟩ := failCmd_ends st 0 found (mustCommit_of_isSearch search) (by simp [reading]) (by simp [reading])
    rw [← takeSearch_of_error found invalid, ← takePayload_of_search found search] at ended
    rw [exec_dmaReadComplete up found reading unstaged own ready, readDma, afterPayload_of_other ended (.inr (by simp [final]))]
    exact ⟨_, y, rfl, ended, final, status, count⟩
  · intro s c x g found done held
    exact ⟨_, exec_stagingReuse found done (by simp [held]), cmd_delCmd_same .., by rw [held]; rfl⟩
  · intro s c x bs rs up found reading unstaged own ready ingest valid alone
    obtain ⟨y, taken, assigning, payload, -, queued⟩ := takeIngest_of_ok found valid alone
    rw [← takePayload_of_ingest found ingest] at taken queued
    rw [exec_dmaReadComplete up found reading unstaged own ready, readDma, afterPayload_of_other taken (.inr (by simp [assigning]))]
    exact ⟨_, y, rfl, taken, assigning, payload, queued⟩
  · intro s c x bs st i up found reading unstaged own ready ingest invalid open_
    obtain ⟨y, ended, final, facts⟩ := takeIngest_of_error found invalid open_ reading
    rw [← takePayload_of_ingest found ingest] at ended
    rw [exec_dmaReadComplete up found reading unstaged own ready, readDma, afterPayload_of_other ended (.inr (by simp [final]))]
    exact ⟨_, y, rfl, ended, final, facts⟩
  · intro s c x reply up found reading unstaged own ready failed open_
    obtain ⟨y, facts⟩ := hostFail_ends 0x71 ((replyCause reply).getD 4) .uncorrectable found reading own open_
    refine ⟨_, y, exec_dmaReadComplete up found reading unstaged own ready reply, ?_⟩
    obtain rfl | rfl | rfl := failed <;> exact facts
  · intro s c x up found reading unstaged own ready open_
    obtain ⟨y, facts⟩ := hostFail_ends 0x71 4 .timeout found reading own open_
    exact ⟨_, y, exec_dmaTimeout up found reading unstaged own ready, facts⟩

end Sys2Proof.Machine

/-! ### Fold, fusion, final selection and far rerank (R130, R133, R134, R136, R143–R161) -/

namespace Sys2Proof.Machine

-- One proof at a time: each thread of its own would take its stack out of the memory that the whole text is compiled in.
set_option Elab.async false

/-! #### Deduplication and the cut at K (R154, R155, R160, R161) -/

theorem preferred_mem {g : List Entry} {a : Entry} (kept : preferred g = some a) : a ∈ g := by
  unfold preferred at kept
  split at kept
  next found => exact Option.some.inj kept ▸ List.mem_of_find?_eq_some found
  next => exact List.mem_of_find?_eq_some kept

/-- The copy kept of the group of an entry has its key. -/
theorem preferred_group_key (e : Entry) (t : List Entry) : ((preferred (e :: t.filter (·.key == e.key))).getD e).key = e.key := by
  cases kept : preferred (e :: t.filter (·.key == e.key)) with
  | none => rfl
  | some a =>
    rcases List.mem_cons.mp (preferred_mem kept) with rfl | member
    · rfl
    · simpa using (List.mem_filter.mp member).2

/-- A pass over no more entries than its bound loses no key (R155). -/
theorem dedupe_covers {n : Nat} {l : List Entry} (bound : l.length ≤ n) {e : Entry} (given : e ∈ l) : ∃ k ∈ (dedupe n l).1, k.key = e.key := by
  induction n generalizing l with
  | zero =>
    rw [List.length_eq_zero_iff.mp (Nat.le_zero.mp bound)] at given
    cases given
  | succ n ih =>
    obtain _ | ⟨a, t⟩ := l
    · cases given
    · have rest : (t.filter (·.key != a.key)).length ≤ n := (List.length_filter_le ..).trans (Nat.le_of_succ_le_succ bound)
      by_cases same : e.key = a.key
      · exact ⟨_, List.mem_cons_self, (preferred_group_key a t).trans same.symm⟩
      · have other : e ∈ t.filter (·.key != a.key) := by
          have ne : e ≠ a := fun h => same (congrArg Entry.key h)
          simpa [same, ne] using given
        obtain ⟨k, member, key⟩ := ih rest other
        exact ⟨k, List.mem_cons_of_mem _ member, key⟩

theorem foldAll_covers {l : List Entry} {e : Entry} (given : e ∈ l) (scored : fIsNaN e.score = false) : ∃ k ∈ (foldAll l).1, k.key = e.key := by
  obtain ⟨k, member, key⟩ := dedupe_covers (Nat.le_refl _) (List.mem_filter.mpr ⟨given, by simp [scored]⟩ : e ∈ l.filter fun e => !fIsNaN e.score)
  exact ⟨k, (sortBy_perm entryBefore _).mem_iff.mpr member, key⟩

/-- The selection marks ties in the K best: it takes no other entry (R160, R161). -/
theorem select_facts (l : List Entry) (k : Nat) : (select k l).1.length ≤ k ∧ (select k l).1.map (·.key) = (l.take k).map (·.key) := by
  have cut : (l.take k).length ≤ k := List.length_take_le ..
  have marked : ∀ f : Entry → Entry, (∀ e, (f e).key = e.key) → ((l.take k).map f).length ≤ k ∧ ((l.take k).map f).map (·.key) = (l.take k).map (·.key) :=
    fun f same => ⟨(List.length_map ..).trans_le cut, by rw [List.map_map]; exact congrArg (List.map · _) (funext same)⟩
  unfold select
  split
  · split
    · exact marked _ fun e => by split <;> rfl
    · exact ⟨cut, rfl⟩
  · exact ⟨cut, rfl⟩

/-! #### A node of a row merged (R152, R298) -/

section Rows

variable {s : State} {c row : Nat} {x : Cmd} {r : QRow}

/-- NaN drops are counted; the row is as it was put. -/
theorem rowOf_merged (f : QRow → QRow) (k : Nat) (given : rowOf s c row = some r) : rowOf (noteNan c k (updRow c row f s)) c row = some (f r) := by
  refine (rowOf_updCmd ?_).trans (rowOf_updRow given)
  exact fun _ => rfl

theorem nan_updRow (f : QRow → QRow) (found : cmd? s c = some x) : (cmd? (updRow c row f s) c).map (·.nan) = some x.nan := by
  rw [updRow, cmd_updCmd _ found]
  cases x.rows[row]? <;> rfl

theorem nan_merged (f : QRow → QRow) (k : Nat) (found : cmd? s c = some x) :
    (cmd? (noteNan c k (updRow c row f s)) c).map (·.nan) = some (x.nan + k) := by
  have kept := nan_updRow (row := row) f found
  rw [noteNan, cmd_updCmd_same, Option.map_map]
  cases put : cmd? (updRow c row f s) c with
  | none => rw [put] at kept; cases kept
  | some y =>
    rw [put] at kept
    exact congrArg (fun n => some (n + k)) (Option.some.inj kept)

theorem exec_foldMerge (at_ : MergeAt) (going : searching s c = true) (fine : at_.ue = false) :
    exec (.foldMerge at_ c row) s = .next (merge at_.node c row s) := by
  show onlyIf (searching s c) (if at_.ue then foldFails 1 at_.node else merge at_.node c row) s = _
  rw [onlyIf_true _ _ going, fine]
  rfl

/-- A row with the list of a row fold merged into the partition fold, its slot empty (R130, R151, R298). -/
def rowFolded (p i : Nat) (x : Cmd) (n : Node) (q : QRow) : QRow :=
  addInput (.partition (Fin.ofNat 12 p)) (rowInput i n.stage).1 (rowInput i n.stage).2
    ((foldStage n.stage ((takeInputs n).held.flatMap (·.2))).1.take (rowKeep x n.stage)) 0
    { q with nodes := q.nodes.map fun m =>
        if m = n then { takeInputs n with held := [], dup := (foldStage n.stage ((takeInputs n).held.flatMap (·.2))).2 || n.dup } else m }

theorem mergeRow_of_row (p i : Nat) (given : rowOf s c row = some r) : mergeRow p i c row x s =
    (r.nodes.filter fun n => isRowNode p i n.node && !n.inputs.isEmpty).foldl
      (fun s n => noteNan c (newNan n) (updRow c row (rowFolded p i x n) s)) s := by
  simp only [mergeRow, given]
  rfl

/-- A row with what waited at a partition fold merged into its list (R151, R152). -/
def ptnFolded (s : State) (x : Cmd) (n : Node) (q : QRow) : QRow :=
  { q with nodes := q.nodes.map fun m => if m = n then { takeInputs n with out := (ptnList s x (takeInputs n)).1, dup := (ptnList s x (takeInputs n)).2 } else m }

theorem mergePtn_of_row (p : Nat) (given : rowOf s c row = some r) : mergePtn p c row x s =
    (r.nodes.filter fun n => isPtnNode p n.node && !n.inputs.isEmpty).foldl
      (fun s n => noteNan c (newNan n) (updRow c row (ptnFolded s x n) s)) s := by
  simp only [mergePtn, given]
  rfl

/-- Of the nodes that f tells, those where something waits stand in l. -/
def WaitingIn (f : FoldNode → Bool) (l : List Node) (r : QRow) : Prop := ∀ n ∈ r.nodes, f n.node = true → n.inputs ≠ [] → n ∈ l

theorem waitingIn_filter (f : FoldNode → Bool) (r : QRow) : WaitingIn f (r.nodes.filter fun n => f n.node && !n.inputs.isEmpty) r :=
  fun n member told waits => List.mem_filter.mpr ⟨member, by simp [told, waits]⟩

/-- A node of the list with its inputs taken waits no more. -/
theorem WaitingIn.taken {f : FoldNode → Bool} {n k : Node} {l : List Node} (waiting : WaitingIn f (n :: l) r) (empty : k.inputs = []) :
    WaitingIn f l { r with nodes := r.nodes.map fun m => if m = n then k else m } := by
  intro m member told waits
  obtain ⟨a, given, rfl⟩ := List.mem_map.mp member
  by_cases at_ : a = n
  · rw [if_pos at_] at waits
    exact absurd empty waits
  · rw [if_neg at_] at told waits ⊢
    exact (List.mem_cons.mp (waiting a given told waits)).resolve_left at_

/-- An input put into another node's slot makes none of them wait. -/
theorem WaitingIn.addInput {f : FoldNode → Bool} {l : List Node} (waiting : WaitingIn f l r) {node : FoldNode} (other : f node = false) (st : FStage)
    (src : Nat) (es : List Entry) (nan : Nat) : WaitingIn f l (addInput node st src es nan r) := by
  intro m member told waits
  unfold Machine.addInput at member
  dsimp only at member
  split at member
  · obtain ⟨a, given, rfl⟩ := List.mem_map.mp member
    by_cases hit : (a.node == node && a.stage == st) = true
    · rw [if_pos hit] at told
      rw [Bool.and_eq_true, beq_iff_eq] at hit
      rw [show a.node = node from hit.1, other] at told
      cases told
    · rw [if_neg hit] at told waits ⊢
      exact waiting a given told waits
  · rcases List.mem_append.mp member with given | new
    · exact waiting m given told waits
    · rw [List.mem_singleton.mp new, other] at told
      cases told

/-- A fold of merges, each of which takes in what waits at its node, leaves nothing waiting. -/
theorem waitingIn_foldl {f : FoldNode → Bool} {g : State → Node → QRow → QRow}
    (each : ∀ s n l r, WaitingIn f (n :: l) r → WaitingIn f l (g s n r)) (l : List Node) {s : State} {r : QRow} (given : rowOf s c row = some r)
    (waiting : WaitingIn f l r) :
    ∃ q, rowOf (l.foldl (fun s n => noteNan c (newNan n) (updRow c row (g s n) s)) s) c row = some q ∧ ∀ n ∈ q.nodes, f n.node = true → n.inputs = [] := by
  induction l generalizing s r with
  | nil => exact ⟨r, given, fun n member told => by_contra fun waits => nomatch waiting n member told waits⟩
  | cons n l ih => exact ih (rowOf_merged _ _ given) (each s n l r waiting)

/-- A row fold that has merged is empty (R298). -/
theorem mergeRow_empties (p i : Nat) (given : rowOf s c row = some r) :
    ∃ q, rowOf (mergeRow p i c row x s) c row = some q ∧ ∀ n ∈ q.nodes, isRowNode p i n.node = true → n.inputs = [] := by
  rw [mergeRow_of_row p i given]
  exact waitingIn_foldl (g := fun _ n => rowFolded p i x n) (fun _ _ _ _ waiting => (waiting.taken rfl).addInput rfl _ _ _ _) _ given (waitingIn_filter _ r)

theorem mergePtn_empties (p : Nat) (given : rowOf s c row = some r) :
    ∃ q, rowOf (mergePtn p c row x s) c row = some q ∧ ∀ n ∈ q.nodes, isPtnNode p n.node = true → n.inputs = [] := by
  rw [mergePtn_of_row p given]
  exact waitingIn_foldl (g := fun s n => ptnFolded s x n) (fun _ _ _ _ waiting => waiting.taken rfl) _ given (waitingIn_filter _ r)

theorem merge_partition (p : Fin 12) (found : cmd? s c = some x) {y : Cmd} (merged : cmd? (mergePtn p.val c row x s) c = some y) :
    merge (.partition p) c row s =
      if ptnReady (mergePtn p.val c row x s) p.val c row y = true then sendToDevice p.val c row y (mergePtn p.val c row x s)
      else mergePtn p.val c row x s := by
  simp only [merge, found, merged]

/-! #### The device and the root fold (R152, R156, R161) -/

theorem lastNode_of {t : State} (jobs : t.jobs = s.jobs) (x : Cmd) : lastNode t x = lastNode s x := by
  rw [lastNode, lastNode, spans, spans, job?, job?, jobs]

/-- What the device or root fold makes of what its inputs gave, cut to L unless it is the input of the final selection (R151, R161). -/
def nodeOut (s : State) (x : Cmd) (node : FoldNode) (n : Node) : List Entry :=
  if keepsAll s x node then (foldStage n.stage ((takeInputs n).held.flatMap (·.2))).1
  else (foldStage n.stage ((takeInputs n).held.flatMap (·.2))).1.take (listLen x.entry)

/-- A row with what waited at the device or root fold merged into its list. -/
def nodeFolded (s : State) (x : Cmd) (node : FoldNode) (n : Node) (q : QRow) : QRow :=
  { q with nodes := q.nodes.map fun m => if m = n then { takeInputs n with
      out := nodeOut s x node n, dup := (foldStage n.stage ((takeInputs n).held.flatMap (·.2))).2 } else m }

theorem mergeAt_of_none (node : FoldNode) (given : rowOf s c row = some r) (idle : (r.nodes.any fun n => n.node == node && !n.inputs.isEmpty) = false) :
    mergeAt node c row x s = s := by
  have none : r.nodes.find? (fun n => n.node == node && !n.inputs.isEmpty) = none := by
    rw [List.find?_eq_none]
    exact List.any_eq_false.mp idle
  simp only [mergeAt, given, none]

theorem mergeAt_of_node {node : FoldNode} {n : Node} (given : rowOf s c row = some r)
    (waits : r.nodes.find? (fun n => n.node == node && !n.inputs.isEmpty) = some n) : mergeAt node c row x s =
    let v := noteNan c (newNan n) (updRow c row (nodeFolded s x node n) s)
    if node = .device ∧ lastNode v x = .root then updRow c row (addInput .root .refine v.aon.modid (nodeOut s x node n) 0) v else v := by
  simp only [mergeAt, given, waits]
  rfl

theorem noteNan_keeps (f : QRow → QRow) (k : Nat) (s : State) : Keeps [.cmds] s (noteNan c k (updRow c row f s)) :=
  k_updCmd (within_self _) _ _ (k_updCmd (within_self _) _ _ (Keeps.refl _ s))

/-- A fold that passes its list to none keeps it (R152). -/
theorem mergeAt_facts {node : FoldNode} {n : Node} (found : cmd? s c = some x) (given : rowOf s c row = some r)
    (waits : r.nodes.find? (fun n => n.node == node && !n.inputs.isEmpty) = some n) :
    (cmd? (mergeAt node c row x s) c).map (·.nan) = some (x.nan + newNan n) ∧
      (¬(node = .device ∧ lastNode s x = .root) → rowOf (mergeAt node c row x s) c row = some (nodeFolded s x node n r)) ∧
      (node = .device → lastNode s x = .root →
        rowOf (mergeAt node c row x s) c row = some (addInput .root .refine s.aon.modid (nodeOut s x node n) 0 (nodeFolded s x node n r))) := by
  have kept := noteNan_keeps (c := c) (row := row) (nodeFolded s x node n) (newNan n) s
  have merged := rowOf_merged (nodeFolded s x node n) (newNan n) given
  have counted := nan_merged (row := row) (nodeFolded s x node n) (newNan n) found
  rw [mergeAt_of_node given waits]
  dsimp only
  rw [lastNode_of kept.same_jobs, kept.same_aon]
  refine ⟨?_, fun last => by rw [if_neg last]; exact merged, fun device root => by rw [if_pos ⟨device, root⟩]; exact rowOf_updRow merged⟩
  split
  · cases put : cmd? (noteNan c (newNan n) (updRow c row (nodeFolded s x node n) s)) c with
    | none => rw [put] at counted; cases counted
    | some y => rw [put] at counted; exact (nan_updRow _ put).trans counted
  · exact counted

end Rows

/-! #### Hybrid fusion (R131, R144, R145) -/

/-- The union of slots with others still holds them. -/
theorem or_and_of_and {w : Nat} {m d : BitVec w} (holds : m &&& d = d) (e : BitVec w) : (m ||| e) &&& d = d := by
  rw [BitVec.and_or_distrib_right, holds]
  ext i hi
  simp only [BitVec.getElem_or, BitVec.getElem_and]
  cases d[i] <;> simp

/-- A refine descriptor covers d: it waits for d's brick, and d's lanes and slots are among its own (R131). -/
def CoveredBy (d q : Desc) : Prop :=
  q.kind = 1 ∧ q.quiet = d.quiet ∧ q.brick = d.brick ∧ q.coll = d.coll ∧ (∀ l ∈ d.lanes, l ∈ q.lanes) ∧ q.mask &&& d.mask = d.mask

theorem coveredBy_self {d : Desc} (kind : d.kind = 1) : CoveredBy d d := ⟨kind, rfl, rfl, rfl, fun _ member => member, BitVec.and_self⟩

theorem CoveredBy.joined {d q : Desc} (covered : CoveredBy d q) (e : Desc) : CoveredBy d (joined e q) := by
  obtain ⟨kind, quiet, brick, coll_, lanes, mask⟩ := covered
  exact ⟨kind, quiet, brick, coll_, fun l member => List.mem_append_left _ (lanes l member), or_and_of_and mask _⟩

theorem coveredBy_of_joins {s : State} {n : Nat} {d e : Desc} (joins_ : joins s n d e = true) : CoveredBy d (joined d e) := by
  simp only [joins, Bool.and_eq_true, beq_iff_eq] at joins_
  obtain ⟨⟨⟨⟨⟨kind, brick⟩, coll_⟩, quiet⟩, -⟩, -⟩ := joins_
  refine ⟨kind, quiet, brick, coll_, fun l member => List.mem_append_right _ member, ?_⟩
  rw [Machine.joined, BitVec.or_comm]
  exact or_and_of_and BitVec.and_self _

section Queues

variable {p c : Nat} {x : Cmd} {s : State}

/-- A refine descriptor put into the queue of descriptors is covered by one that waits there, and those covered before still are (R131). -/
theorem queueRefine_covers (interactive : bulkClass x = false) {d : Desc} (kind : d.kind = 1) :
    (∃ q ∈ (ptn (queueRefine p c x d s) p).rowQ, CoveredBy d q.2) ∧
      ∀ b, (∃ q ∈ (ptn s p).rowQ, CoveredBy b q.2) → ∃ q ∈ (ptn (queueRefine p c x d s) p).rowQ, CoveredBy b q.2 := by
  unfold queueRefine
  simp only [interactive, Bool.false_eq_true, if_false]
  split
  next q found =>
    have member := List.mem_of_find?_eq_some found
    have joins_ := List.find?_some found
    rw [ptn_updPtn_same]
    refine ⟨⟨(q.1, joined d q.2), List.mem_map.mpr ⟨q, member, if_pos rfl⟩, coveredBy_of_joins joins_⟩, fun b ⟨a, given, covered⟩ => ?_⟩
    refine ⟨_, List.mem_map_of_mem given, ?_⟩
    split
    · exact covered.joined d
    · exact covered
  next =>
    have placed := (queueDescs_rowQ p [x.ctx] [d] s).1
    have among : ∀ b, b ∈ (ptn s p).rowQ.map (·.2) ++ [d] → ∃ q ∈ (ptn (queueDescs p [x.ctx] [d] s) p).rowQ, q.2 = b := fun b member =>
      List.mem_map.mp (placed ▸ member)
    refine ⟨?_, fun b ⟨a, given, covered⟩ => ?_⟩
    · obtain ⟨q, member, rfl⟩ := among d (by simp)
      exact ⟨q, member, coveredBy_self kind⟩
    · obtain ⟨q, member, same⟩ := among a.2 (List.mem_append_left _ (List.mem_map_of_mem given))
      exact ⟨q, member, same ▸ covered⟩

theorem queueRefine_foldl_keeps (ds : List Desc) : Keeps [.ptns] s (ds.foldl (fun s d => queueRefine p c x { d with quiet := true } s) s) :=
  k_foldl (Keeps.refl _ s) fun _ d kept => k_queueRefine (within_self _) p c x { d with quiet := true } kept

/-- Each of a list of refine descriptors put into the queue is covered there. -/
theorem queueRefine_foldl_covers (interactive : bulkClass x = false) {ds : List Desc} (kinds : ∀ d ∈ ds, d.kind = 1) :
    (∀ d ∈ ds, ∃ q ∈ (ptn (ds.foldl (fun s d => queueRefine p c x { d with quiet := true } s) s) p).rowQ, CoveredBy { d with quiet := true } q.2) ∧
      ∀ b, (∃ q ∈ (ptn s p).rowQ, CoveredBy b q.2) →
        ∃ q ∈ (ptn (ds.foldl (fun s d => queueRefine p c x { d with quiet := true } s) s) p).rowQ, CoveredBy b q.2 := by
  induction ds generalizing s with
  | nil => exact ⟨by simp, fun _ covered => covered⟩
  | cons d ds ih =>
    obtain ⟨kind, kinds⟩ := List.forall_mem_cons.mp kinds
    obtain ⟨own, before⟩ := queueRefine_covers (p := p) (c := c) (s := s) interactive (d := { d with quiet := true }) kind
    obtain ⟨rest, kept⟩ := ih (s := queueRefine p c x { d with quiet := true } s) kinds
    exact ⟨List.forall_mem_cons.mpr ⟨kept _ own, rest⟩, fun b covered => kept b (before b covered)⟩

end Queues

section Fusing

variable {s : State} {p c row : Nat} {x : Cmd} {r : QRow}

theorem fuse_of_filled (found : cmd? s c = some x) (given : rowOf s c row = some r)
    (filled : ((toFill s p x r).isEmpty || (probeOf s p c row).filled) = true) : fuse p c row s =
      updProbe p c row (fun q => { q with fused := true }) (updRow c row (addInput (.partition (Fin.ofNat 12 p)) .fused 25 (fusedList s p x r) 0) s) := by
  have ready : (!(toFill s p x r).isEmpty && !(probeOf s p c row).filled) = false := by rw [← Bool.not_or, filled]; rfl
  simp only [fuse, found, given, ready, Bool.false_eq_true, if_false]

theorem fuse_of_lacking (found : cmd? s c = some x) (given : rowOf s c row = some r)
    (lacking : ((toFill s p x r).isEmpty || (probeOf s p c row).filled) = false) : fuse p c row s =
      (refineDescs x c row (toFill s p x r)).foldl (fun s d => queueRefine p c x { d with quiet := true } s)
        (updProbe p c row (fun q => { q with filled := true }) s) := by
  have wanted : (!(toFill s p x r).isEmpty && !(probeOf s p c row).filled) = true := by rw [← Bool.not_or, lacking]; rfl
  simp only [fuse, found, given, wanted, if_true]

theorem addInput_probes (node : FoldNode) (st : FStage) (src : Nat) (es : List Entry) (nan : Nat) (r : QRow) :
    (addInput node st src es nan r).probes = r.probes := by
  unfold addInput
  dsimp only
  split <;> rfl

theorem probeOf_row (given : rowOf s c row = some r) : probeOf s p c row = (tget r.probes p).getD {} := by rw [probeOf, given]; rfl

theorem probeOf_of {t : State} (cmds : t.cmds = s.cmds) : probeOf t p c row = probeOf s p c row := by rw [probeOf, probeOf, rowOf_of cmds]

/-- A probe after its row was given an input. -/
theorem probeOf_addInput (node : FoldNode) (st : FStage) (src : Nat) (es : List Entry) (nan : Nat) (given : rowOf s c row = some r) :
    probeOf (updRow c row (addInput node st src es nan) s) p c row = probeOf s p c row := by
  rw [probeOf_row (rowOf_updRow given), probeOf_row given, addInput_probes]

theorem nodes_updProbe (f : Probe → Probe) (given : rowOf s c row = some r) : (rowOf (updProbe p c row f s) c row).map (·.nodes) = some r.nodes := by
  rw [rowOf_updProbe given]
  rfl

theorem sendToDevice_of_row (given : rowOf s c row = some r) : sendToDevice p c row x s = updProbe p c row (fun q => { q with sent := true })
    (updRow c row (addInput .device .refine p ((foldOut p (sendStage x) r).take (listLen x.entry)) 0) s) := by
  simp only [sendToDevice, given]

end Fusing

/-! #### Far rerank (R133, R134, R136) -/

section Far

variable {s : State} {c row : Nat} {x : Cmd}

theorem gainWork_chunkQ (p ctx : Nat) (s : State) : (ptn (gainWork p ctx s) p).chunkQ = (ptn s p).chunkQ := by
  have noted : ∀ x, (noteWork ctx x).chunkQ = x.chunkQ := fun x => by unfold noteWork; split <;> rfl
  unfold gainWork
  split
  · rfl
  · dsimp only
    split
    · rw [ptn_updPtn_same, ptn_updPtn_same]; exact noted _
    · rw [ptn_updPtn_same]; exact noted _

/-- A chunk that enters the queue leaves those that wait there. -/
theorem mem_queueChunk_of_mem {p : Nat} {k q : Chunk} (given : q ∈ (ptn s p).chunkQ) : q ∈ (ptn (queueChunk p k s) p).chunkQ := by
  rw [queueChunk, ptn_updPtn_same]
  dsimp only
  rw [gainWork_chunkQ, List.mem_append, List.mem_append, List.mem_filter, List.mem_filter]
  by_cases before : q.kind ≤ k.kind
  · exact .inl (.inl ⟨given, by simpa using before⟩)
  · exact .inr ⟨given, by simpa using before⟩

theorem farWaits_iff (j : Nat) : farWaits s x c j = true ↔
    farDesc x c j ∈ (ptn s x.home).rowQ.map (·.2) ∨ ∃ k ∈ (ptn s x.home).chunkQ, farDesc x c j ∈ k.bricks := by
  simp only [farWaits, Bool.or_eq_true, List.any_eq_true, beq_iff_eq, List.contains_iff_mem, List.mem_map]

theorem chunkQ_queueDescs (p : Nat) (ctxs : List Nat) (ds : List Desc) (s : State) : (ptn (queueDescs p ctxs ds s) p).chunkQ = (ptn s p).chunkQ := by
  have puts : ∀ u : State, (ptn (ds.foldl (fun s d => putDesc p d s) u) p).chunkQ = (ptn u p).chunkQ := fun u =>
    foldl_same (fun u => (ptn u p).chunkQ) (fun u d => by rw [putDesc, ptn_updPtn_same]) ds u
  exact (puts _).trans (foldl_same (fun u => (ptn u p).chunkQ) (fun u k => gainWork_chunkQ p k u) ctxs s)

theorem rowQ_queueChunk (p : Nat) (k : Chunk) (s : State) : (ptn (queueChunk p k s) p).rowQ = (ptn s p).rowQ := by
  rw [queueChunk, ptn_updPtn_same]
  exact (gainWork_ptns ..).1

/-- A far-rerank descriptor waits where it was put, and those put before wait on (R133, R300). -/
theorem farWaits_queueRerank (i : Nat) : farWaits (queueRerank c i x s) x c i = true ∧
    ∀ j, farWaits s x c j = true → farWaits (queueRerank c i x s) x c j = true := by
  simp only [farWaits_iff]
  unfold queueRerank
  split
  · rw [rowQ_queueChunk]
    exact ⟨.inr ⟨_, mem_queueChunk .., by simp⟩, fun j => Or.imp_right fun ⟨k, given, names⟩ => ⟨k, mem_queueChunk_of_mem given, names⟩⟩
  · rw [(queueDescs_rowQ ..).1, chunkQ_queueDescs]
    exact ⟨.inl (by simp), fun j => Or.imp_left (List.mem_append_left _)⟩

/-- The row numbered has its descriptor queued where far rows are left to read. -/
def rerankRow (c : Nat) (x : Cmd) (s : State) (a : QRow × Nat) : State := if a.1.farLeft.isEmpty then s else queueRerank c a.2 x s

theorem rerankRow_keeps {t : State} (a : QRow × Nat) (before : Keeps [.ptns] s t) : Keeps [.ptns] s (rerankRow c x t a) := by
  unfold rerankRow
  split
  · exact before
  · exact k_queueRerank (within_self _) c a.2 x before

theorem farWaits_rerankRows (l : List (QRow × Nat)) :
    (∀ a ∈ l, a.1.farLeft ≠ [] → farWaits (l.foldl (rerankRow c x) s) x c a.2 = true) ∧
      ∀ j, farWaits s x c j = true → farWaits (l.foldl (rerankRow c x) s) x c j = true := by
  induction l generalizing s with
  | nil => exact ⟨by simp, fun _ waits => waits⟩
  | cons a l ih =>
    obtain ⟨rest, kept⟩ := ih (s := rerankRow c x s a)
    obtain ⟨own, before⟩ := farWaits_queueRerank (s := s) (c := c) (x := x) a.2
    refine ⟨List.forall_mem_cons.mpr ⟨fun left => kept _ ?_, rest⟩, fun j waits => kept j ?_⟩
    · rw [rerankRow, if_neg (by simpa using left)]
      exact own
    · unfold rerankRow
      split
      · exact waits
      · exact before j waits

/-- A row with the R best of its list, and those of them that have a far row (R133). -/
def farStarted (s : State) (x : Cmd) (r : QRow) : QRow :=
  { r with
    far := some ((listAt (lastNode s x) r).take (refineDepth x.entry))
    farLeft := if x.farOver then [] else (upto ((listAt (lastNode s x) r).take (refineDepth x.entry)).length).filter fun j =>
      (((listAt (lastNode s x) r).take (refineDepth x.entry))[j]?.bind (farIndex x)).isSome }

theorem startFarRows_of (found : cmd? s c = some x) : cmd? (startFarRows c x s) c = some { x with rows := x.rows.map (farStarted s x) } := by
  have indexed : ∀ (l : List Entry), (upto l.length).filter (fun j => (farIndex x (lget l j { key := 0, score := 0 })).isSome) =
      (upto l.length).filter fun j => (l[j]?.bind (farIndex x)).isSome := fun l =>
    List.filter_congr fun j within => by
      have lt : j < l.length := List.mem_range.mp within
      rw [lget, List.getD_eq_getElem?_getD, List.getElem?_eq_getElem lt]
      rfl
  rw [startFarRows, cmd_updCmd _ found]
  simp only [indexed]
  rfl

theorem startFar_of (found : cmd? s c = some x) :
    startFar c s = (x.rows.map (farStarted s x)).zipIdx.foldl (rerankRow c x) (startFarRows c x s) := by
  simp only [startFar, found, startFarRows_of found]
  rfl

/-- Far rerank starts with the R best of each row, and a row with far rows to read waits for an anvil (R133, R300). -/
theorem startFar_facts (found : cmd? s c = some x) :
    cmd? (startFar c s) c = some { x with rows := x.rows.map (farStarted s x) } ∧
      ∀ i q, rowOf (startFar c s) c i = some q → q.farLeft ≠ [] → farWaits (startFar c s) x c i = true := by
  have kept : Keeps [.ptns] (startFarRows c x s) (startFar c s) :=
    startFar_of found ▸ k_foldl (Keeps.refl _ _) fun u a before => rerankRow_keeps a before
  have started := (cmd_of c kept.same_cmds).trans (startFarRows_of found)
  refine ⟨started, fun i q at_ left => ?_⟩
  rw [rowOf_row started] at at_
  rw [startFar_of found]
  exact (farWaits_rerankRows _).1 (q, i) (List.mem_zipIdx_iff_getElem?.mpr at_) left

section Arriving

variable {r : QRow} {j : Nat}

theorem arrive_of_waiting (found : cmd? s c = some x) (reply : ReadReply) (waits : farWaits s x c row = true) : arrive c row j reply s = s := by
  cases given : rowOf s c row <;> simp [arrive, found, given, waits]

theorem arrive_of_absent (reply : ReadReply) (absent : ((rowOf s c row).all fun r => !r.farLeft.contains j) = true) : arrive c row j reply s = s := by
  cases found : cmd? s c <;> cases given : rowOf s c row <;> simp_all [arrive]

section Taken

variable (found : cmd? s c = some x) (given : rowOf s c row = some r) (left : r.farLeft.contains j = true) (taken : farWaits s x c row = false)
include found given left taken

/-- A far row that arrives rescores its entry (R133, R134). -/
theorem arrive_of_data (bs : List Byte) : rowOf (arrive c row j (.data bs) s) c row = some { r with
    farLeft := r.farLeft.filter (· ≠ j)
    far := r.far.map fun l => match l[j]? with | some e => l.set j (rescore s x r bs e) | none => l } := by
  simp only [arrive, found, given, left, taken, Bool.not_true, Bool.or_self, Bool.false_eq_true, if_false]
  exact (rowOf_of (updCtx_cmds ..)).trans (rowOf_updRow given)

theorem arrive_of_timeout : arrive c row j .timeout s = hostFail c 0x72 6 .timeout s := by
  simp only [arrive, found, given, left, taken, Bool.not_true, Bool.or_self, Bool.false_eq_true, if_false]

theorem arrive_of_error {reply : ReadReply} (failed : ∀ bs, reply ≠ .data bs) (late : reply ≠ .timeout) :
    arrive c row j reply s = hostFail c 0x72 5 .uncorrectable (if reply = .poison then notePoison s else s) := by
  cases reply <;> simp_all [arrive]

end Taken

end Arriving

end Far

/-! #### Final selection (R160, R161) -/

section Final

variable {s : State} {c row : Nat} {x : Cmd} {r : QRow}

/-- The selection of a row put to its command: at its root the K best with their ties, on another module the list that it sends. -/
def selected (s : State) (row : Nat) (x : Cmd) (r : QRow) : Cmd :=
  let input := finalInput s x r
  let best := select (sK x.entry) input.1
  let q : QRow := if x.origin.isSome then { r with final := some (input.1.take (listLen x.entry)) } else { r with final := some best.1, tie := best.2 }
  { x with dedup := x.dedup || r.nodes.any (·.dup), rows := x.rows.set row q, nan := if x.origin.isSome then x.nan else x.nan + input.2 }

theorem finalRow_of (found : cmd? s c = some x) (given : x.rows[row]? = some r) :
    cmd? (finalRow c row s) c = some (if (selected s row x r).rows.all (·.final.isSome) then { selected s row x r with stage := .final } else selected s row x r) := by
  have marked : cmd? (updCmd c (fun k => { k with dedup := k.dedup || r.nodes.any (·.dup) }) s) c =
      some { x with dedup := x.dedup || r.nodes.any (·.dup) } := cmd_updCmd _ found
  have ends : ∀ v, cmd? v c = some (selected s row x r) →
      cmd? (updCmd c (fun k => if k.rows.all (·.final.isSome) then { k with stage := .final } else k) v) c =
        some (if (selected s row x r).rows.all (·.final.isSome) then { selected s row x r with stage := .final } else selected s row x r) :=
    fun v put => cmd_updCmd _ put
  simp only [finalRow, found, rowOf_row found, given]
  refine ends _ ?_
  cases own : x.origin.isSome with
  | true =>
    rw [if_pos rfl, cmd_updRow marked given, selected, own]
    rfl
  | false =>
    rw [if_neg (by decide), noteNan, cmd_updCmd _ (cmd_updRow marked given), selected, own]
    rfl

/-- The row has its result; the others are as they were (R160). -/
theorem rows_selected (given : x.rows[row]? = some r) :
    ∃ q, (selected s row x r).rows = x.rows.set row q ∧ (selected s row x r).rows[row]? = some q ∧ q.final.isSome = true ∧
      (x.origin = none → (q.final, q.tie) =
        (some (select (sK x.entry) (finalInput s x r).1).1, (select (sK x.entry) (finalInput s x r).1).2)) ∧
      (x.origin ≠ none → q.final = some ((finalInput s x r).1.take (listLen x.entry))) := by
  have within := (List.getElem?_eq_some_iff.mp given).1
  cases own : x.origin <;> refine ⟨_, rfl, by simp [selected, own, within], ?_, ?_, ?_⟩ <;> simp [own]

/-- A command whose every other row has its result is over with this one's (R160). -/
theorem all_final_selected (given : x.rows[row]? = some r) (others : ∀ i ≠ row, ∀ q, x.rows[i]? = some q → q.final.isSome = true) :
    (selected s row x r).rows.all (·.final.isSome) = true := by
  obtain ⟨q, rows, -, final, -⟩ := rows_selected (s := s) given
  rw [rows, List.all_eq_true]
  intro a member
  obtain ⟨i, at_⟩ := List.getElem?_of_mem member
  by_cases same : row = i
  · rw [← same, List.getElem?_set_self (List.getElem?_eq_some_iff.mp given).1] at at_
    exact Option.some.inj at_ ▸ final
  · rw [List.getElem?_set_ne same] at at_
    exact others i (Ne.symm same) a at_

/-- The selection of a row, as its command records it (R160, R161). -/
theorem finalRow_facts (found : cmd? s c = some x) (given : rowOf s c row = some r) :
    (cmd? (finalRow c row s) c).map (fun k => (k.nan, k.dedup)) =
        some (if x.origin.isSome then x.nan else x.nan + (finalInput s x r).2, x.dedup || r.nodes.any (·.dup)) ∧
      (∃ q, rowOf (finalRow c row s) c row = some q ∧
        (x.origin = none → (q.final, q.tie) =
          (some (select (sK x.entry) (finalInput s x r).1).1, (select (sK x.entry) (finalInput s x r).1).2)) ∧
        (x.origin ≠ none → q.final = some ((finalInput s x r).1.take (listLen x.entry)))) ∧
      ((∀ i ≠ row, ∀ q, x.rows[i]? = some q → q.final.isSome = true) → (cmd? (finalRow c row s) c).map (·.stage) = some .final) := by
  rw [rowOf_row found] at given
  obtain ⟨q, -, at_, -, facts⟩ := rows_selected (s := s) given
  have ended := finalRow_of found given
  refine ⟨?_, ⟨q, ?_, facts⟩, fun others => ?_⟩
  · rw [ended, Option.map_some]
    split <;> rfl
  · rw [rowOf_row ended, ← at_]
    split <;> rfl
  · rw [ended, if_pos (all_final_selected given others)]
    rfl

end Final

/-! #### Merges that find nothing, and ends -/

section Rest

variable {s : State} {c row : Nat} {x : Cmd} {r : QRow}

/-- A far row that does not arrive ends its search with a class 0x5 code (R284, R433). -/
theorem hostFail_of_searching (cause : Nat) (st : Status) (going : searching s c = true) (found : cmd? s c = some x) :
    ∃ y, cmd? (hostFail c 0x72 cause st s) c = some y ∧ y.stage = .final ∧ y.status = st ∧
      y.fault = hostFault 0x72 cause (if x.origin.isNone then some x.ring else none) := by
  simp only [searching, found, Option.any_some, Bool.and_eq_true, beq_iff_eq] at going
  obtain ⟨running, search⟩ := going
  have posted : cmd? (postFault (hostFault 0x72 cause (if x.origin.isNone then some x.ring else none)) s) c = some x :=
    (cmd_of c (postFault_cmds ..)).trans found
  obtain ⟨y, ended, final, status, -, fault, -⟩ := failCmd_ends st (hostFault 0x72 cause (if x.origin.isNone then some x.ring else none)) posted
    (mustCommit_of_isSearch search) (by simp [running]) (by simp [running])
  refine ⟨y, ?_, final, status, fault⟩
  simp only [hostFail, found]
  exact ended

theorem merge_device_of_idle (found : cmd? s c = some x) (given : rowOf s c row = some r)
    (idle : allSent s x r = false ∨ r.nodes.any (fun n => n.node == .device && !n.inputs.isEmpty) = false) : merge .device c row s = s := by
  simp only [merge, found, given, Option.any_some]
  rcases idle with unsent | empty
  · rw [unsent, if_neg (by decide)]
  · rw [mergeAt_of_none _ given empty, ite_self]

theorem merge_root_of_idle (found : cmd? s c = some x) (given : rowOf s c row = some r)
    (idle : x.origin ≠ none ∨ peersIn s x = false ∨ allSent s x r = false ∨ r.nodes.any (fun n => n.node == .device && !n.inputs.isEmpty) = true ∨
      r.nodes.any (fun n => n.node == .root && !n.inputs.isEmpty) = false) : merge .root c row s = s := by
  simp only [merge, found, given, Option.any_some]
  rcases idle with other | missing | unsent | waits | empty
  · rw [if_neg (by simp [Option.isNone_iff_eq_none, other])]
  · rw [if_neg (by simp [missing])]
  · rw [if_neg (by simp [unsent])]
  · rw [if_neg (by simp only [waits]; simp)]
  · rw [mergeAt_of_none _ given empty, ite_self]

theorem dropFar_keeps (c : Nat) (s : State) : Keeps [.ptns] s (dropFar c s) := k_dropFar (within_self _) c (Keeps.refl _ s)

/-- t_D ends the far rerank of a search in progress (R136). -/
def endsFar (x : Cmd) : Bool :=
  isSearch x.opcode && x.admitted && (x.stage == .awaitPayload || x.stage == .reading || x.stage == .running) && eDeadline x.entry && x.stopped &&
    x.far.isSome

theorem exec_deadlineEnd (found : cmd? s c = some x) (ends : endsFar x = true) : exec (.deadlineEnd c) s = .next (updCmd c (fun k => { k with
    farOver := true, rows := k.rows.map fun r => if r.far.isSome then { r with farLeft := [] } else r }) (dropFar c s)) := by
  rw [exec, execDeadlineEnd, onlyIf_true]
  rw [found]
  exact ends

theorem deadlineEnd_of_idle (idle : (cmd? s c).all (fun x => !eDeadline x.entry || !x.stopped || x.far.isNone) = true) :
    exec (.deadlineEnd c) s = .next s := by
  rw [exec, execDeadlineEnd, onlyIf_false]
  cases found : cmd? s c with
  | none => rfl
  | some x =>
    rw [found, Option.all_some, Bool.or_eq_true, Bool.or_eq_true, Bool.not_eq_true', Bool.not_eq_true'] at idle
    rcases idle with (none | early) | plain
    · simp [none]
    · simp [early]
    · simp [Option.isNone_iff_eq_none.mp plain]

theorem refineDescs_facts {es : List Entry} {d : Desc} (member : d ∈ refineDescs x c row es) : d.kind = 1 ∧ d.lanes = [{ cmd := c, row := row }] := by
  obtain ⟨b, -, rfl⟩ := List.mem_map.mp member
  exact ⟨rfl, rfl⟩

end Rest

/-- Settles O38: each row merges, fuses or selects what waits, by the lemmas about its function. -/
theorem foldedLists : Obligations.FoldedLists := by
  unfold Obligations.FoldedLists
  refine ⟨?_, ?_, ?_, ?_, ?_, ?_, ?_, ?_, ?_, ?_, ?_, ?_, ?_, ?_, ?_, ?_, ?_, ?_, ?_, ?_⟩
  · intro l
    obtain ⟨nodup, given, dropped⟩ := foldAll_facts l
    exact ⟨nodup, given, fun _ member scored => foldAll_covers member scored, dropped⟩
  · exact select_facts
  · intro s p i c row x r n u d going found given one folded
    have merged : mergeRow p.val i.val c row x s = noteNan c (newNan n) (updRow c row (rowFolded p.val i.val x n) s) := by
      rw [mergeRow_of_row _ _ given, one]
      rfl
    refine ⟨_, exec_foldMerge ⟨.row p i, false⟩ going rfl, ?_, ?_⟩
    · simp only [merge, found, merged]
      exact nan_merged _ _ found
    · simp only [merge, found, merged]
      rw [rowOf_merged _ _ given, rowFolded, folded, Fin.ofNat_val_eq_self]
  · intro s p i c row x r going found given
    obtain ⟨q, kept, emptied⟩ := mergeRow_empties (x := x) p.val i.val given
    obtain ⟨v, merged, ptnEmptied⟩ := mergePtn_empties (x := x) p.val given
    obtain ⟨y, found', -⟩ := rowOf_cmd merged
    refine ⟨_, q, exec_foldMerge ⟨.row p i, false⟩ going rfl, ?_, emptied, ?_, v, merged, ptnEmptied⟩
    · simp only [merge, found]
      exact kept
    · rw [exec_foldMerge ⟨.partition p, false⟩ going rfl, merge_partition p found found', found']
      rfl
  · intro s p c row x r n found given one
    have merged : mergePtn p.val c row x s = noteNan c (newNan n) (updRow c row (ptnFolded s x n) s) := by
      rw [mergePtn_of_row _ given, one]
      rfl
    rw [merged]
    exact ⟨rowOf_merged _ _ given, nan_merged _ _ found⟩
  · intro s p c row x r given
    have put := rowOf_updRow (f := addInput .device .refine p.val ((foldOut p.val (sendStage x) r).take (listLen x.entry)) 0) given
    rw [sendToDevice_of_row given]
    exact ⟨congrArg Probe.sent (probeOf_updProbe put), nodes_updProbe _ put⟩
  · intro s c row x r n u out d going found given sent waits folded cut
    obtain ⟨counted, kept, passed⟩ := mergeAt_facts found given waits
    have all : (rowOf s c row).any (allSent s x) = true := by rw [given]; exact sent
    have out_ : nodeOut s x .device n = out := by rw [nodeOut, folded]; exact cut
    refine ⟨_, exec_foldMerge ⟨.device, false⟩ going rfl, ?_⟩
    simp only [merge, found, all, if_true]
    rw [nodeFolded, out_, folded] at kept passed
    exact ⟨counted, fun last => kept (by simp [last]), passed rfl⟩
  · intro s c row x r n u out d going found given own peers sent idle waits folded cut
    obtain ⟨counted, kept, -⟩ := mergeAt_facts found given waits
    have out_ : nodeOut s x .root n = out := by rw [nodeOut, folded]; exact cut
    refine ⟨_, exec_foldMerge ⟨.root, false⟩ going rfl, ?_⟩
    have may : (x.origin.isNone && peersIn s x && (rowOf s c row).any fun r => allSent s x r && !r.nodes.any fun n => n.node == .device && !n.inputs.isEmpty) = true := by
      simp [own, peers, given, sent, idle]
    simp only [merge, found, may, if_true]
    rw [nodeFolded, out_, folded] at kept
    exact ⟨counted, kept (by simp)⟩
  · intro s c row x r found given
    exact ⟨fun idle => onlyIf_of_same (merge_device_of_idle found given idle), fun idle => onlyIf_of_same (merge_root_of_idle found given idle)⟩
  · intro s p c row x r may found given filled
    have put := rowOf_updRow (f := addInput (.partition (Fin.ofNat 12 p.val)) .fused 25 (fusedList s p.val x r) 0) given
    refine ⟨_, onlyIf_true _ _ may, ?_, ?_⟩
    · rw [fuse_of_filled found given filled, probeOf_updProbe put, probeOf_addInput _ _ _ _ _ given]
    · rw [fuse_of_filled found given filled, nodes_updProbe _ put, Fin.ofNat_val_eq_self]
  · intro s p c row x r may found given lacking
    have kept := queueRefine_foldl_keeps (p := p.val) (c := c) (x := x) (s := updProbe p.val c row (fun q => { q with filled := true }) s)
      (refineDescs x c row (toFill s p.val x r))
    refine ⟨_, onlyIf_true _ _ may, ?_, ?_, fun interactive d member => ?_⟩
    · rw [fuse_of_lacking found given lacking, probeOf_of kept.same_cmds, probeOf_updProbe given]
    · rw [fuse_of_lacking found given lacking, rowOf_of kept.same_cmds, nodes_updProbe _ given]
    · obtain ⟨q, waits, kind, quiet, brick, coll_, lanes, mask⟩ := (queueRefine_foldl_covers (p := p.val) (c := c)
        (s := updProbe p.val c row (fun q => { q with filled := true }) s) interactive fun d member => (refineDescs_facts member).1).1 d member
      rw [fuse_of_lacking found given lacking]
      exact ⟨q, waits, kind, quiet, brick, coll_, lanes _ (by simp [(refineDescs_facts member).2]), mask⟩
  · intro s c row x r may found given own
    obtain ⟨counted, ⟨q, put, best, -⟩, ended⟩ := finalRow_facts found given
    refine ⟨_, onlyIf_true _ _ may, ?_, ?_, ended⟩
    · rw [put]
      exact congrArg some (best own)
    · rw [counted, own]
      rfl
  · intro s c row x r may found given other
    obtain ⟨counted, ⟨q, put, -, list⟩, ended⟩ := finalRow_facts found given
    refine ⟨_, onlyIf_true _ _ may, ?_, ?_, ended⟩
    · rw [put]
      exact congrArg some (list other)
    · rw [counted, if_pos (Option.isSome_iff_ne_none.mpr other)]
  · intro s c x may found
    obtain ⟨started, waits⟩ := startFar_facts found
    exact ⟨_, onlyIf_true _ _ may, waits, started⟩
  · intro s c row x r j bs going up found given left taken
    exact ⟨_, onlyIf_true _ _ (by simp [going, up]), arrive_of_data found given left taken bs⟩
  · intro s c row x r j a going up found given left taken failed
    by_cases late : a = .timeout
    · obtain ⟨y, facts⟩ := hostFail_of_searching 6 .timeout going found
      subst late
      refine ⟨_, y, onlyIf_true _ _ (by simp [going, up]), ?_⟩
      rw [arrive_of_timeout found given left taken]
      exact facts
    · have noted : (if a = .poison then notePoison s else s).cmds = s.cmds := by split <;> rfl
      obtain ⟨y, facts⟩ := hostFail_of_searching (s := if a = .poison then notePoison s else s) 5 .uncorrectable
        (by rw [searching, cmd_of c noted]; exact going) ((cmd_of c noted).trans found)
      refine ⟨_, y, onlyIf_true _ _ (by simp [going, up]), ?_⟩
      rw [arrive_of_error found given left taken failed late, if_neg late, if_neg late]
      exact facts
  · intro s c row j x a found waits
    exact onlyIf_of_same (arrive_of_waiting found a waits)
  · intro s n c row going
    exact onlyIf_true _ _ going
  · intro s c x found search admitted_ stage deadline stopped far
    refine ⟨_, exec_deadlineEnd found ?_, cmd_updCmd _ ((cmd_of c (dropFar_keeps ..).same_cmds).trans found)⟩
    rw [endsFar, search, admitted_, deadline, stopped, far]
    obtain at_ | at_ | at_ := stage <;> rw [at_] <;> rfl
  · intro s n p c row j a
    refine ⟨fun idle => ⟨onlyIf_false _ _ idle, onlyIf_false _ _ (by rw [idle]; rfl)⟩, onlyIf_false _ _, onlyIf_false _ _, onlyIf_false _ _,
      fun down => onlyIf_false _ _ (by rw [down, Bool.and_false]), fun absent => onlyIf_of_same (arrive_of_absent a absent), deadlineEnd_of_idle⟩

end Sys2Proof.Machine

/-! ### Forwarded searches and ingest (R156, R186, R255, R333, R340, R341, R343, R385) -/

namespace Sys2Proof.Machine

-- One proof at a time: each thread of its own would take its stack out of the memory that the whole text is compiled in.
set_option Elab.async false

/-! #### A message that leaves the inbox -/

theorem removeFirst_eq_erase {α : Type} [DecidableEq α] (a : α) (l : List α) : removeFirst a l = l.erase a := by
  induction l with
  | nil => rfl
  | cons b t ih =>
    simp only [removeFirst, ih, List.erase_cons, beq_iff_eq, eq_comm (a := b)]

theorem freeBufs_rest (b : Option (Nat × Nat × Bool × Nat)) (s : State) :
    freeBufs b s = { s with icern := { s.icern with ports := (freeBufs b s).icern.ports } } := by
  unfold freeBufs
  split
  · rw [runPort_rest]
    rfl
  · rfl
@[simp] theorem freeBufs_inbox (b : Option (Nat × Nat × Bool × Nat)) (s : State) : (freeBufs b s).icern.inbox = s.icern.inbox := by rw [freeBufs_rest]
@[simp] theorem freeBufs_aborted (b : Option (Nat × Nat × Bool × Nat)) (s : State) : (freeBufs b s).icern.aborted = s.icern.aborted := by rw [freeBufs_rest]
theorem freeBufs_keeps (b : Option (Nat × Nat × Bool × Nat)) (s : State) : Keeps [.icern] s (freeBufs b s) := k_freeBufs (within_self _) b (Keeps.refl _ s)
@[simp] theorem cmd_freeBufs (b : Option (Nat × Nat × Bool × Nat)) (s : State) (c : Nat) : cmd? (freeBufs b s) c = cmd? s c :=
  cmd_of c (freeBufs_keeps b s).same_cmds

theorem dropMsg_keeps (m : Msg) (s : State) : Keeps [.icern] s (dropMsg m s) := k_dropMsg (within_self _) m (Keeps.refl _ s)
@[simp] theorem dropMsg_inbox (m : Msg) (s : State) : (dropMsg m s).icern.inbox = removeFirst m s.icern.inbox := freeBufs_inbox ..
@[simp] theorem dropMsg_aborted (m : Msg) (s : State) : (dropMsg m s).icern.aborted = s.icern.aborted := freeBufs_aborted ..
@[simp] theorem dropMsg_nextCmd (m : Msg) (s : State) : (dropMsg m s).nextCmd = s.nextCmd := (dropMsg_keeps m s).same_nextCmd
@[simp] theorem dropMsg_colls (m : Msg) (s : State) : (dropMsg m s).colls = s.colls := (dropMsg_keeps m s).same_colls
@[simp] theorem cmd_dropMsg (m : Msg) (s : State) (c : Nat) : cmd? (dropMsg m s) c = cmd? s c := cmd_of c (dropMsg_keeps m s).same_cmds

theorem partOf_of {s t : State} (cmds : t.cmds = s.cmds) (src cmd : Nat) : partOf t src cmd = partOf s src cmd := by
  simp only [partOf, cmdsOf, cmds]
theorem ofAborted_of {s t : State} (aborted : t.icern.aborted = s.icern.aborted) (m : Msg) : ofAborted t m = ofAborted s m := by
  simp only [ofAborted, aborted]
theorem accepted_of {s t : State} (jobs : t.jobs = s.jobs) (aon : t.aon = s.aon) (m : Msg) : accepted t m = accepted s m := by
  simp only [accepted, jobPeer, peersOf_of jobs aon, job?, jobs]

@[simp] theorem partOf_dropMsg (m : Msg) (s : State) (src cmd : Nat) : partOf (dropMsg m s) src cmd = partOf s src cmd :=
  partOf_of (dropMsg_keeps m s).same_cmds src cmd
@[simp] theorem ofAborted_dropMsg (k m : Msg) (s : State) : ofAborted (dropMsg k s) m = ofAborted s m := ofAborted_of (dropMsg_aborted k s) m
@[simp] theorem accepted_dropMsg (k m : Msg) (s : State) : accepted (dropMsg k s) m = accepted s m :=
  accepted_of (dropMsg_keeps k s).same_jobs (dropMsg_keeps k s).same_aon m

theorem withMsg_of_some {f : Msg → Bool} {s : State} {m : Msg} (first : oldest s f = some m) (g : Msg → State → State) :
    withMsg f g s = g m (dropMsg m s) := by
  rw [withMsg, first]
theorem withMsg_of_none {f : Msg → Bool} {s : State} (none_ : oldest s f = none) (g : Msg → State → State) : withMsg f g s = s := by
  rw [withMsg, none_]

/-- A message that R385 refuses: it is gone, its code is the newest, and no command sees it. -/
theorem firewall_facts (m : Msg) (s : State) :
    (firewall (dropMsg m s)).icern.inbox = removeFirst m s.icern.inbox ∧
      (firewall (dropMsg m s)).aon.codes.head? = some (faultCode 10 0x7C 0xF (3 * 2 ^ 12)) ∧ (firewall (dropMsg m s)).cmds = s.cmds := by
  refine ⟨?_, head_codes_postFault .., ?_⟩
  · rw [firewall, postFault_icern, dropMsg_inbox]
  · rw [firewall, postFault_cmds, (dropMsg_keeps m s).same_cmds]

/-! #### New commands -/

@[simp] theorem cmd_addCmd (x : Cmd) (s : State) : cmd? (addCmd x s) s.nextCmd = some x := cmd_setCmd_same ..

/-- A part that is bound as its message leaves the inbox stands under the next number. -/
theorem bound_facts {m : Msg} {x : Cmd} {s u : State} (bound : addCmd x (spend 1 (takeMsg m s)) = u) :
    cmd? u s.nextCmd = some x ∧ u.icern = (takeMsg m s).icern := by
  subst bound
  exact ⟨cmd_addCmd .., rfl⟩

/-- Work that is answered with a failing status stands as a command of its own (R333). -/
theorem cmd_refusePart (m : Msg) (e : BitVec 512) (ctx : Nat) (r : Refused) (s : State) :
    cmd? (refusePart m e ctx r s) s.nextCmd =
      some { forwardedCmd s m ctx e with admitted := false, stage := .final, status := r.status, count := r.count } := cmd_addCmd ..

/-! #### Runs of a command (R255) -/

section Runs

variable {s : State} {m : Msg} {c : Nat} {x : Cmd}

theorem yieldRun_of_aborted (stale : ofAborted s m = true) : yieldRun m s = none := by
  rw [yieldRun, if_pos stale]

theorem yieldRun_of_new (fresh : ofAborted s m = false) (new : partOf s m.src m.cmd = none) : yieldRun m s = some s := by
  simp [yieldRun, fresh, new]

/-- A message of the run at hand, or of an older one, replaces no part. -/
theorem yieldRun_of_older (part : partOf s m.src m.cmd = some c) (found : cmd? s c = some x) (older : x.run = m.run ∨ olderRun m.run x.run = true) :
    yieldRun m s = none := by
  simp only [yieldRun, part, found, if_pos older, ite_self]

end Runs

/-! #### QUERY_FWD (R293, R294, R333, R340) -/

theorem exec_queryFwd_of_none {s u : State} {src : Nat} (tried : (waitingParts s src).foldl (fun s c => tryPart c s) s = u)
    (none_ : oldest u (isMsg 1 src false) = none) : exec (.queryFwd src) s = .next u := by
  subst tried
  show Host.Outcome.next _ = _
  rw [none_]
theorem exec_queryFwd_of_some {s : State} {src : Nat} {m : Msg} (idle : waitingParts s src = []) (first : oldest s (isMsg 1 src false) = some m) :
    exec (.queryFwd src) s = .next (query m s) := by
  have none_ : (waitingParts s src).foldl (fun s c => tryPart c s) s = s := by
    rw [idle]
    rfl
  show Host.Outcome.next _ = _
  rw [none_, first]

section Query

variable {s : State} {m : Msg} {ctx : Nat} {e : BitVec 512} {bs : List Byte} {hs : List Hold}

theorem query_of_refused (other : accepted s m = false) : query m s = firewall (dropMsg m s) := by
  simp [query, other]

theorem query_of_yielded (mayAct : accepted s m = true) (yields : yieldRun m (spend 1 (takeMsg m s)) = none) : query m s = dropMsg m s := by
  simp [query, mayAct, yields]

/-- A search that this module has no part of, received by its context ctx as the entry e with the payload bs (R340). -/
structure NewSearch (s : State) (m : Msg) (ctx : Nat) (e : BitVec 512) (bs : List Byte) : Prop where
  mayAct : accepted s m = true
  fresh : ofAborted s m = false
  new : partOf s m.src m.cmd = none
  entry : e = localDeadline (BitVec.ofNat 512 (leNat (m.body.take 64))) (field m.body 64 4)
  payload : bs = (m.body.drop 80).take (field m.body 68 4)
  context : ctx = forwardCtx s m.job 0

theorem NewSearch.yields (q : NewSearch s m ctx e bs) : yieldRun m (spend 1 (takeMsg m s)) = some (spend 1 (takeMsg m s)) :=
  yieldRun_of_new (s := spend 1 (takeMsg m s)) q.fresh q.new

/-- One that this module would refuse is answered so. -/
theorem NewSearch.query_of_bad (q : NewSearch s m ctx e bs) {r : Refused}
    (bad : (forwardRefused s m (eColl e) <|> refuseIf (!isSearch (opOf e) || queryBad s ctx e (field m.body 72 8) bs.length) .invalidField) = some r) :
    query m s = refusePart m e ctx r (freeBufs m.bufs (spend 1 (takeMsg m s))) := by
  have yields := q.yields
  obtain ⟨mayAct, -, -, rfl, rfl, rfl⟩ := q
  simp only [query, mayAct, yields, bad, Bool.not_true, Bool.false_eq_true, if_false]

/-- A search that this module can serve, with the amounts hs that it takes (R293). -/
structure Serves (s : State) (m : Msg) (ctx : Nat) (e : BitVec 512) (bs : List Byte) (hs : List Hold) : Prop extends NewSearch s m ctx e bs where
  open_ : forwardRefused s m (eColl e) = none
  search : isSearch (opOf e) = true
  good : queryBad s ctx e (field m.body 72 8) bs.length = false
  amounts : hs = queryHolds s m.job ctx e (sparseCount (coll s (eColl e)) e bs)

theorem Serves.sound (q : Serves s m ctx e bs hs) :
    (forwardRefused s m (eColl e) <|> refuseIf (!isSearch (opOf e) || queryBad s ctx e (field m.body 72 8) bs.length) .invalidField) = none := by
  simp [q.open_, q.search, q.good, refuseIf]

theorem Serves.query_of_large (q : Serves s m ctx e bs hs) (large : ∃ h ∈ hs, poolSize h.pool < h.amount) :
    query m s = refusePart m e ctx { status := .noResource } (freeBufs m.bufs (spend 1 (takeMsg m s))) := by
  have sound := q.sound
  have yields := q.yields
  obtain ⟨⟨mayAct, -, -, rfl, rfl, rfl⟩, -, -, -, rfl⟩ := q
  have any_ := List.any_eq_true.mpr (large.imp fun h p => ⟨p.1, decide_eq_true (show h.amount > poolSize h.pool from p.2)⟩)
  simp only [query, mayAct, yields, sound, any_, Bool.not_true, Bool.false_eq_true, if_false, if_true]

/-- One whose amounts fit is bound, and takes them (R293, R340). -/
theorem Serves.query_of_fits (q : Serves s m ctx e bs hs) (fits : ∀ h ∈ hs, h.amount ≤ poolSize h.pool) :
    query m s = tryPart s.nextCmd (addCmd (boundPart m ctx e bs [] hs (spend 1 (takeMsg m s))) (spend 1 (takeMsg m s))) := by
  have sound := q.sound
  have yields := q.yields
  obtain ⟨⟨mayAct, -, new, rfl, rfl, rfl⟩, -, -, -, rfl⟩ := q
  have none_ := List.any_eq_false.mpr fun h member => mt of_decide_eq_true (Nat.not_lt.mpr (fits h member))
  simp only [query, mayAct, yields, sound, none_, new, Bool.not_true, Bool.false_eq_true, if_false, Option.bind_none, Option.map_none, Option.getD_none,
    List.foldl_nil, List.contains_nil, Bool.not_false, List.filter_true, spend_nextCmd]
  rfl

end Query

section Tries

variable {s v : State} {c : Nat} {x : Cmd}

theorem tryPart_of_hold (held : s.icern.hold = true) : tryPart c s = s := by
  unfold tryPart
  split
  · rfl
  · rw [if_pos held]

theorem tryPart_of_short (found : cmd? s c = some x) (going : s.icern.hold = false) (short : takeLacking c x.lacking s = (v, false)) : tryPart c s = v := by
  simp [tryPart, found, going, short]

theorem tryPart_of_all (found : cmd? s c = some x) (going : s.icern.hold = false) (all : takeLacking c x.lacking s = (v, true)) :
    let w := freeBufs x.lent (updCmd c (fun x => { x with lent := none, admitted := true }) v)
    tryPart c s = afterPayload c (takePayload c x.payload (demandAll (needsPtns w x.ctx x.opcode x.coll) w)) := by
  simp [tryPart, found, going, all]

theorem takeLacking_of_all {hs : List Hold} (found : cmd? s c = some x) (lacks : x.lacking = hs) (all : takeLacking c hs s = (v, true)) :
    cmd? v c = some { x with lacking := [], senior := none, holds := x.holds ++ hs } := by
  have facts := (takeLacking_facts found lacks (by rw [all])).2
  rwa [all] at facts

/-- Amounts that are not all had are split between those held and those still lacked, in their order (R294). -/
theorem takeLacking_of_short {hs : List Hold} (found : cmd? s c = some x) (lacks : x.lacking = hs) (short : takeLacking c hs s = (v, false)) :
    ∃ had left, left ≠ [] ∧ hs = had ++ left ∧ cmd? v c = some { x with lacking := left, holds := x.holds ++ had } := by
  induction hs generalizing s x with
  | nil => cases short
  | cons h l ih =>
    unfold takeLacking at short
    split at short
    · obtain rfl := (Prod.mk.inj short).1
      refine ⟨[], h :: l, List.cons_ne_nil h l, rfl, ?_⟩
      rw [found, List.append_nil, ← lacks]
    · have taken : cmd? (updCmd c (fun x => { x with lacking := l, holds := x.holds ++ [h] }) (takePool h s)) c =
          some { x with lacking := l, holds := x.holds ++ [h] } := cmd_updCmd _ found
      obtain ⟨had, left, lacking, split_, rest⟩ := ih taken rfl short
      refine ⟨h :: had, left, lacking, by rw [split_]; rfl, ?_⟩
      rw [rest, List.append_assoc, List.singleton_append]

theorem takeLacking_icern {hs : List Hold} {full : Bool} (tried : takeLacking c hs s = (v, full)) : v.icern = s.icern := by
  have kept := (k_takeLacking (within_self _) c hs (Keeps.refl _ s)).same_icern
  rwa [tried] at kept

end Tries

/-! #### What a root's own command hears (R156, R333, R341) -/

section Responses

variable {s : State} {m : Msg} {c : Nat} {x : Cmd}

/-- Where no other response to the command fails, the first failure is this one's (R333). -/
theorem firstFailure_of_alone (alone : ∀ k ∈ s.icern.inbox, k.cmd = m.cmd → k ≠ m → field k.body 0 1 = 0) :
    firstFailure (dropMsg m s) m = statusOfCode (field m.body 0 1) := by
  have keeps : ∀ l : List Msg, (∀ k ∈ l, k = m) → l.foldl (fun a k => if k.src < a.src then k else a) m = m := by
    intro l same
    induction l with
    | nil => rfl
    | cons k l ih =>
      obtain ⟨rfl, same⟩ := List.forall_mem_cons.mp same
      simpa using ih same
  unfold firstFailure
  dsimp only
  rw [keeps]
  intro k member
  obtain ⟨inbox, fails⟩ := List.mem_filter.mp member
  rw [dropMsg_inbox, removeFirst_eq_erase] at inbox
  simp only [Bool.and_eq_true, beq_iff_eq, bne_iff_ne, ne_eq] at fails
  obtain ⟨⟨⟨⟨⟨-, same⟩, -⟩, -⟩, fails⟩, -⟩ := fails
  by_contra other
  exact fails (alone k (List.mem_of_mem_erase inbox) same other)

theorem exec_partialList {src : Nat} (first : oldest s (isMsg 2 src true) = some m) : exec (.partialList src) s = .next (partialList m (dropMsg m s)) :=
  congrArg Host.Outcome.next (withMsg_of_some first partialList)

/-- The search of this root that the list m names runs, and has no list of m's module yet. -/
structure AwaitsList (s : State) (m : Msg) (c : Nat) (x : Cmd) : Prop where
  root : rootCmd s m = some c
  found : cmd? s c = some x
  search : isSearch x.opcode = true
  running : x.stage = .running
  first : x.peersDone.contains m.src = false

theorem AwaitsList.awaited (w : AwaitsList s m c x) :
    (cmd? s c).any (fun x => isSearch x.opcode && x.stage == .running && !x.peersDone.contains m.src) = true := by
  rw [w.found, Option.any_some, w.search, w.running, w.first]
  rfl

theorem partialList_of_none (none_ : rootCmd s m = none) : partialList m s = s := by
  rw [partialList, none_]

theorem partialList_of_idle (root : rootCmd s m = some c) (found : cmd? s c = some x)
    (idle : isSearch x.opcode = false ∨ x.stage ≠ .running ∨ x.peersDone.contains m.src = true) : partialList m s = s := by
  have not_ : (cmd? s c).any (fun x => isSearch x.opcode && x.stage == .running && !x.peersDone.contains m.src) = false := by
    rw [found, Option.any_some]
    obtain other | ended | answered := idle
    · rw [other]
      rfl
    · rw [beq_false_of_ne ended, Bool.and_false]
      rfl
    · rw [answered, Bool.not_true, Bool.and_false]
  simp only [partialList, root, not_, Bool.not_false, if_true]

theorem AwaitsList.partialList_of_failed (w : AwaitsList s m c x) (fails : field m.body 0 1 ≠ 0) :
    partialList m s = failCmd c (firstFailure s m) 0 s := by
  simp only [partialList, w.root, w.awaited, Bool.not_true, Bool.false_eq_true, if_false, if_pos fails]

theorem AwaitsList.partialList_of_unsound (w : AwaitsList s m c x) (ok : field m.body 0 1 = 0) (unsound : listSound s x m = false) :
    partialList m s = foldFails 2 .root s := by
  have bad : (cmd? s c).any (listSound s · m) = false := by rw [w.found]; exact unsound
  simp only [partialList, w.root, w.awaited, bad, ok, Bool.not_true, Bool.not_false, Bool.false_eq_true, if_false, if_true, ne_eq, not_true_eq_false]

theorem AwaitsList.partialList_of_sound (w : AwaitsList s m c x) (ok : field m.body 0 1 = 0) (sound : listSound s x m = true) :
    partialList m s = takeList c m s := by
  have good : (cmd? s c).any (listSound s · m) = true := by rw [w.found]; exact sound
  simp only [partialList, w.root, w.awaited, good, ok, Bool.not_true, Bool.false_eq_true, if_false, ne_eq, not_true_eq_false]

/-- Updates of rows leave the rest of their command. -/
theorem cmd_updRows (rows : List Nat) (f : State → Nat → QRow → QRow) (found : cmd? s c = some x) :
    ∃ l, cmd? (rows.foldl (fun s r => updRow c r (f s r) s) s) c = some { x with rows := l } := by
  induction rows generalizing s x with
  | nil => exact ⟨x.rows, found⟩
  | cons r rows ih =>
    have put : ∃ l, cmd? (updRow c r (f s r) s) c = some { x with rows := l } := by
      rw [updRow, cmd_updCmd _ found]
      split
      · exact ⟨_, rfl⟩
      · exact ⟨x.rows, rfl⟩
    obtain ⟨l, put⟩ := put
    exact (ih put).imp fun _ rest => rest

/-- A list adds its module, its counts and its flags to its search (R156, R332). -/
theorem takeList_cmd (found : cmd? s c = some x) :
    ∃ l, cmd? (takeList c m s) c = some { x with
      rows := l, peersDone := x.peersDone ++ [m.src], dedup := x.dedup || bit (field m.body 1 1) 0, deadlineHit := x.deadlineHit || bit (field m.body 1 1) 1
      nan := x.nan + field m.body 4 4, peerPairs := x.peerPairs + field m.body 12 4, peerDone := x.peerDone + field m.body 16 4 } := by
  unfold takeList
  dsimp only
  exact (cmd_updRows _ _ found).imp fun l rows => (cmd_of c (spend_cmds ..)).trans (cmd_updCmd _ rows)

theorem exec_insertFwdResponse {src : Nat} (first : oldest s (isMsg 3 src true) = some m) :
    exec (.insertFwdResponse src) s = .next (insertResponse m (dropMsg m s)) :=
  congrArg Host.Outcome.next (withMsg_of_some first insertResponse)

/-- A response to COMMIT that m's module has not sent before (R341). -/
theorem insertResponse_of_committed (root : rootCmd s m = some c) (found : cmd? s c = some x) (bound : x.committing = true)
    (first : x.peersDone.contains m.src = false) :
    insertResponse m s = tryFinish c (updCmd c (fun k => { k with
      peersDone := k.peersDone ++ [m.src], deleted := k.deleted + if k.opcode = 0x22 then field m.body 8 4 else 0 }) s) := by
  simp only [insertResponse, root, found, bound, first, if_true, Bool.false_eq_true, if_false]

theorem insertResponse_of_failed (root : rootCmd s m = some c) (found : cmd? s c = some x) (open_ : x.committing = false) (going : x.stage ≠ .final)
    (fails : field m.body 0 1 ≠ 0) : insertResponse m s = failCmd c (firstFailure s m) 0 s := by
  simp [insertResponse, root, found, open_, going, fails]

/-- A response to PREPARE: its module is counted as ready (R341). -/
theorem insertResponse_of_prepared (root : rootCmd s m = some c) (found : cmd? s c = some x) (open_ : x.committing = false) (going : x.stage ≠ .final)
    (ok : field m.body 0 1 = 0) :
    let t := updCmd c (fun k => { k with peersReady := if k.peersReady.contains m.src then k.peersReady else k.peersReady ++ [m.src] }) s
    insertResponse m s = if x.stage = .waiting then batchReady c t else t := by
  simp [insertResponse, root, found, open_, going, ok]

theorem insertResponse_of_idle
    (idle : ∀ c x, rootCmd s m = some c → cmd? s c = some x →
      (x.committing = true ∧ x.peersDone.contains m.src = true) ∨ (x.committing = false ∧ x.stage = .final)) :
    insertResponse m s = s := by
  unfold insertResponse
  split
  · rfl
  next c root =>
    split
    · rfl
    next x found =>
      obtain ⟨bound, answered⟩ | ⟨open_, final⟩ := idle c x root found
      · rw [if_pos bound, if_pos answered]
      · rw [if_neg (by simp [open_]), if_pos final]

end Responses

/-! #### INSERT_FWD and BULK_DATA (R186, R337, R341, R343) -/

section Parts

variable {s : State} {m : Msg} {c : Nat} {x : Cmd} {src : Nat}

/-- A part is never forwarded again (R340). -/
theorem forwardCmd_of_part (found : cmd? s c = some x) (part : x.origin.isSome = true) : forwardCmd c s = s := by
  simp [forwardCmd, found, part]

/-- A part whose records are taken in, or found invalid, keeps its origin and run. -/
theorem takeIngest_origin (bs : List Byte) (found : cmd? s c = some x) (part : x.origin.isSome = true) (open_ : mustCommit x = false)
    (reading : x.stage = .reading) : ∃ y, cmd? (takeIngest c none bs s) c = some y ∧ y.origin = x.origin ∧ y.run = x.run := by
  unfold takeIngest
  simp only [found, foreignAt]
  split
  next st i _ =>
    obtain ⟨l, n, ended⟩ := failCmd_cmd st 0 found open_ (by simp [reading]) (by simp [reading])
    rw [cmd_updCmd _ ended]
    exact ⟨_, rfl, by split <;> rfl, by split <;> rfl⟩
  next recs _ =>
    generalize (if x.origin.isNone then splitRecs s x.job recs else (recs, [])) = split_
    obtain ⟨mine, parts⟩ := split_
    obtain ⟨l, encoded⟩ := encodeAll_cmd mine (cmd_updCmd (fun x => { x with payload := bs, parts := parts }) found)
    have queued := (cmd_of c (queueChunk_keeps x.home { kind := assignKind x, ctx := x.ctx, cmd := some c }
      (encodeAll c mine (updCmd c (fun x => { x with payload := bs, parts := parts }) s))).same_cmds).trans encoded
    dsimp only
    rw [forwardCmd_of_part queued part]
    exact ⟨_, queued, rfl, rfl⟩

/-- What is prepared stands under its origin and run, refused or taken in (R333, R341). -/
theorem preparePart_cmd (m : Msg) (op flags n : Nat) (bs : List Byte) (s : State) :
    ∃ x, cmd? (preparePart m op flags n bs s) s.nextCmd = some x ∧ x.origin = some (m.src, m.cmd) ∧ x.run = m.run := by
  unfold preparePart
  dsimp only
  split
  · exact ⟨_, cmd_refusePart .., rfl, rfl⟩
  · generalize lget (partEntries s m.job op flags n bs) _ _ = e
    have added := cmd_addCmd (forwardedCmd (spend 2 s) m (forwardCtx s m.job 0) e) (spend 2 s)
    have kept := k_noteIngest (m := [.colls, .ptns]) ((within_self _).of (by decide)) (spend 2 s).nextCmd (k_demandAll ((within_self _).of (by decide))
      (needsPtns (spend 2 s) (forwardCtx s m.job 0) op (eColl e))
      (Keeps.refl _ (addCmd (forwardedCmd (spend 2 s) m (forwardCtx s m.job 0) e) (spend 2 s))))
    exact takeIngest_origin bs ((cmd_of _ kept.same_cmds).trans added) rfl (by simp [mustCommit, forwardedCmd]) rfl

/-- Where no collection is held, nothing can be prepared. -/
theorem preparePart_of_no_coll (m : Msg) (op flags n : Nat) (bs : List Byte) (empty : s.colls = []) :
    ∃ x, cmd? (preparePart m op flags n bs s) s.nextCmd = some x ∧
      x.origin = some (m.src, m.cmd) ∧ x.stage = .final ∧ x.status = .invalidField ∧ x.admitted = false := by
  have free : ∀ c, (coll (spend 2 s) c).state = .free := fun c => by rw [coll, spend_colls, empty]; rfl
  have refused : ∀ c other, (forwardRefused (spend 2 s) m c <|> other) = some { status := .invalidField } := fun c other => by
    rw [show forwardRefused (spend 2 s) m c = some { status := .invalidField } by simp [forwardRefused, free, refuseIf]]
    rfl
  unfold preparePart
  simp only [refused]
  exact ⟨_, cmd_refusePart .., rfl, rfl, rfl, rfl⟩

/-- What is done with a message for a part, g once it may act: while routes are replaced one that has no part yet waits (R337, R385). -/
def takeUp (g : Msg → State → State) (m : Msg) (s : State) : State :=
  if !accepted s m then firewall (dropMsg m s) else if s.icern.hold && (partOf s m.src m.cmd).isNone then s else g m (dropMsg m s)

theorem takeUp_of_refused (g : Msg → State → State) (other : accepted s m = false) : takeUp g m s = firewall (dropMsg m s) := by
  simp [takeUp, other]
theorem takeUp_of_hold (g : Msg → State → State) (mayAct : accepted s m = true) (held : s.icern.hold = true) (new : partOf s m.src m.cmd = none) :
    takeUp g m s = s := by
  simp [takeUp, mayAct, held, new]
theorem takeUp_of_open (g : Msg → State → State) (mayAct : accepted s m = true) (open_ : s.icern.hold = false ∨ partOf s m.src m.cmd ≠ none) :
    takeUp g m s = g m (dropMsg m s) := by
  have goes : (s.icern.hold && (partOf s m.src m.cmd).isNone) = false := by
    obtain going | part := open_
    · rw [going, Bool.false_and]
    · rw [Option.isNone_eq_false_iff.mpr (Option.isSome_iff_ne_none.mpr part), Bool.and_false]
  simp only [takeUp, mayAct, goes, Bool.not_true, Bool.false_eq_true, if_false]

theorem exec_insertFwdPrepare (first : oldest s (fun m => isMsg 3 src false m && phaseOf m == 0) = some m) :
    exec (.insertFwdPrepare src) s = .next (takeUp prepare m s) := by
  show Host.Outcome.next _ = _
  rw [first]
  rfl
theorem exec_bulkData (first : oldest s (isMsg 4 src false) = some m) : exec (.bulkData src) s = .next (takeUp takePiece m s) := by
  show Host.Outcome.next _ = _
  rw [first]
  rfl

/-- A PREPARE of one message is prepared where it has no part yet (R341). -/
theorem prepare_of_new (whole : field m.body 1 1 ≠ 0x40) (fresh : ofAborted s m = false) (new : partOf s m.src m.cmd = none) :
    prepare m s = preparePart m (field m.body 1 1) (field m.body 2 2) (field m.body 4 4) (m.body.drop 8) s := by
  simp [prepare, whole, yieldRun_of_new fresh new]

theorem prepare_of_yielded (whole : field m.body 1 1 ≠ 0x40) (yields : yieldRun m s = none) : prepare m s = s := by
  simp [prepare, whole, yields]

theorem prepare_of_aborted (stale : ofAborted s m = true) (new : partOf s m.src m.cmd = none) : prepare m s = s := by
  simp [prepare, new, yieldRun_of_aborted stale]

/-- A share of which nothing arrived is prepared empty. -/
theorem prepare_of_empty_share (share : field m.body 1 1 = 0x40) (fresh : ofAborted s m = false) (new : partOf s m.src m.cmd = none) :
    prepare m s = preparePart m 0x40 (field m.body 2 2) 0 [] s := by
  simp [prepare, arrivedShare, share, new, yieldRun_of_new fresh new]

theorem dropPart_aborted (c : Nat) (s : State) : (dropPart c s).icern.aborted = s.icern.aborted := by
  unfold dropPart
  split
  · rfl
  next x _ =>
    split
    · rfl
    · have kept := k_delCmd (m := [.host, .ptns, .ctxs, .colls, .cmds]) ((within_self _).of (by decide)) c (k_dropWork ((within_self _).of (by decide)) (· == c)
        (k_withdraw (within_self _) c (Keeps.refl _ (freeBufs x.lent (freePools x.holds s)))))
      rw [kept.same_icern, freeBufs_aborted, (k_freePools (within_self _) x.holds (Keeps.refl _ s)).same_icern]

/-- The pieces kept are prepared whole, and their own record is gone (R341). -/
theorem prepare_of_share (share : field m.body 1 1 = 0x40) (fresh : ofAborted s m = false) (part : partOf s m.src m.cmd = some c)
    (found : cmd? s c = some x) (same : x.run = m.run) (reading : x.stage = .reading) (gone : partOf (dropPart c s) m.src m.cmd = none) :
    prepare m s = preparePart m 0x40 (field m.body 2 2) x.count x.payload (dropPart c s) := by
  have yields := yieldRun_of_new ((ofAborted_of (dropPart_aborted c s) m).trans fresh) gone
  simp [prepare, arrivedShare, share, part, found, same, reading, yields]

theorem takePiece_of_aborted (stale : ofAborted s m = true) : takePiece m s = s := by
  simp only [takePiece, stale, if_true]

/-- The first piece of a share begins its record (R341). -/
theorem takePiece_of_new (fresh : ofAborted s m = false) (new : partOf s m.src m.cmd = none) :
    ∃ x, cmd? (takePiece m s) s.nextCmd = some x ∧ x.origin = some (m.src, m.cmd) ∧ x.run = m.run ∧ x.stage = .reading ∧
      x.payload = m.body.drop 8 ∧ x.count = field m.body 4 4 := by
  simp only [takePiece, fresh, new, Bool.false_eq_true, if_false]
  refine ⟨_, cmd_addCmd .., rfl, rfl, rfl, ?_, ?_⟩ <;> simp [forwardedCmd]

theorem takePiece_of_part (fresh : ofAborted s m = false) (part : partOf s m.src m.cmd = some c) (found : cmd? s c = some x) (same : x.run = m.run)
    (reading : x.stage = .reading) :
    takePiece m s = updCmd c (fun x => { x with payload := x.payload.take (field m.body 0 4) ++ m.body.drop 8, count := x.count + field m.body 4 4 }) s := by
  simp [takePiece, fresh, part, found, same, reading]

theorem takePiece_of_late (part : partOf s m.src m.cmd = some c) (found : cmd? s c = some x)
    (late : (x.run = m.run ∧ x.stage ≠ .reading) ∨ (x.run ≠ m.run ∧ olderRun m.run x.run = true)) : takePiece m s = s := by
  simp only [takePiece, part, found]
  obtain ⟨same, ended⟩ | ⟨other, older⟩ := late
  · rw [if_pos same, if_neg ended, ite_self]
  · rw [if_neg other, if_pos older, ite_self]

theorem exec_insertFwdCommit (first : oldest s (fun m => isMsg 3 src false m && phaseOf m == 1) = some m) :
    exec (.insertFwdCommit src) s = .next (if accepted s m then commitPart m (dropMsg m s) else firewall (dropMsg m s)) :=
  congrArg Host.Outcome.next ((withMsg_of_some first _).trans (by rw [accepted_dropMsg]))
theorem exec_insertFwdWithdraw (first : oldest s (fun m => isMsg 3 src false m && phaseOf m == 2) = some m) :
    exec (.insertFwdWithdraw src) s = .next (if accepted s m then withdrawPart m (dropMsg m s) else firewall (dropMsg m s)) :=
  congrArg Host.Outcome.next ((withMsg_of_some first _).trans (by rw [accepted_dropMsg]))

/-- COMMIT binds a part that has not ended; a ready one asks for its place in the commit queue (R341). -/
theorem commitPart_of_part (part : partOf s m.src m.cmd = some c) (found : cmd? s c = some x) (ingest : isIngest x.opcode = true) (same : x.run = m.run)
    (open_ : x.committing = false) (going : x.stage ≠ .final) :
    let t := updCmd c (fun x => { x with committing := true }) s
    commitPart m s = if x.stage = .waiting then queueBatch c t else t := by
  simp [commitPart, part, found, ingest, same, open_, going]

theorem commitPart_of_idle (idle : ∀ c x, partOf s m.src m.cmd = some c → cmd? s c = some x →
      isIngest x.opcode = false ∨ x.run ≠ m.run ∨ x.committing = true ∨ x.stage = .final) : commitPart m s = s := by
  unfold commitPart
  split
  · rfl
  next c part =>
    refine if_neg fun any_ => ?_
    obtain ⟨x, found, goes⟩ := Option.any_eq_true _ _ |>.mp any_
    simp only [Bool.and_eq_true, beq_iff_eq, Bool.not_eq_true', bne_iff_ne, ne_eq] at goes
    obtain ⟨⟨⟨ingest, same⟩, open_⟩, going⟩ := goes
    obtain other | other | bound | ended := idle c x part found
    · exact absurd (ingest.symm.trans other) (by decide)
    · exact other same
    · exact absurd (open_.symm.trans bound) (by decide)
    · exact going ended

theorem queueBatch_of_full (found : cmd? s c = some x) (full : 64 ≤ (coll s x.coll).queue.length) : queueBatch c s = s := by
  simp [queueBatch, found, full]

theorem queueBatch_of_room (found : cmd? s c = some x) (room : (coll s x.coll).queue.length < 64) :
    cmd? (queueBatch c s) c = some { x with stage := .queued } ∧ (coll (queueBatch c s) x.coll).queue = (coll s x.coll).queue ++ [c] := by
  simp only [queueBatch, found, if_neg (Nat.not_le.mpr room)]
  exact ⟨cmd_updCmd _ found, by rw [coll_of _ (updCmd_colls ..), coll_updColl_same]⟩

theorem withdrawPart_of_part (part : partOf s m.src m.cmd = some c) (found : cmd? s c = some x) (ingest : isIngest x.opcode = true)
    (current : olderRun m.run x.run = false) : withdrawPart m s = dropPart c s := by
  simp [withdrawPart, part, found, ingest, current]

theorem withdrawPart_of_idle (idle : ∀ c x, partOf s m.src m.cmd = some c → cmd? s c = some x → isIngest x.opcode = false ∨ olderRun m.run x.run = true) :
    withdrawPart m s = s := by
  unfold withdrawPart
  split
  · rfl
  next c part =>
    refine if_neg fun any_ => ?_
    obtain ⟨x, found, goes⟩ := Option.any_eq_true _ _ |>.mp any_
    obtain ⟨ingest, current⟩ := Bool.and_eq_true_iff.mp goes
    obtain other | older := idle c x part found
    · exact absurd (ingest.symm.trans other) (by decide)
    · exact absurd (current.symm.trans (congrArg not older)) (by decide)

end Parts

/-! #### The rows -/

/-- Settles O52: each row takes up the oldest message of its kind, and what it leaves is read off the part, or the root's command, that the message
names. -/
theorem forwardedWork : Obligations.ForwardedWork := by
  unfold Obligations.ForwardedWork
  refine ⟨?_, ?_, ?_, ?_, ?_, ?_, ?_, ?_, ?_, ?_, ?_, ?_, ?_, ?_, ?_, ?_, ?_, ?_, ?_, ?_, ?_, ?_, ?_, ?_, ?_, ?_, ?_, ?_, ?_, ?_, ?_, ?_, ?_, ?_, ?_, ?_, ?_, ?_, ?_, ?_, ?_,
    ?_, ?_⟩
  · intro s src m idle first other
    rw [exec_queryFwd_of_some idle first, query_of_refused other]
    exact ⟨_, rfl, firewall_facts m s⟩
  · intro s src m r idle first mayAct fresh new refused
    have q : NewSearch s m _ _ _ := ⟨mayAct, fresh, new, rfl, rfl, rfl⟩
    rw [exec_queryFwd_of_some idle first, q.query_of_bad (r := r) (by rw [refused]; rfl)]
    have number : (freeBufs m.bufs (spend 1 (takeMsg m s))).nextCmd = s.nextCmd := (freeBufs_keeps ..).same_nextCmd
    exact ⟨_, _, rfl, freeBufs_inbox .., number ▸ cmd_refusePart .., rfl, rfl, rfl, rfl⟩
  · intro s src m c x first root found search running new ok sound
    have awaits_ : AwaitsList (dropMsg m s) m c x := ⟨root, (cmd_dropMsg ..).trans found, search, running, new⟩
    rw [exec_partialList first, awaits_.partialList_of_sound ok sound]
    obtain ⟨l, taken⟩ := takeList_cmd (m := m) awaits_.found
    exact ⟨_, _, rfl, taken, rfl, running, rfl, rfl, rfl, rfl, rfl⟩
  · intro s src m c x first root found search running new ok unsound
    have awaits_ : AwaitsList (dropMsg m s) m c x := ⟨root, (cmd_dropMsg ..).trans found, search, running, new⟩
    rw [exec_partialList first, awaits_.partialList_of_unsound ok unsound]
    rfl
  · intro s src m c x first root found search running new fails
    have awaits_ : AwaitsList (dropMsg m s) m c x := ⟨root, (cmd_dropMsg ..).trans found, search, running, new⟩
    obtain ⟨y, ended, final, status, count, -⟩ := failCmd_ends (firstFailure (dropMsg m s) m) 0 awaits_.found (mustCommit_of_isSearch search)
      (by simp [running]) (by simp [running])
    rw [exec_partialList first, awaits_.partialList_of_failed fails]
    exact ⟨_, y, rfl, ended, final, status, count, fun alone => status.trans (firstFailure_of_alone alone)⟩
  · intro s src m first none_
    rw [exec_partialList first, partialList_of_none none_]
  · intro s src m first other
    rw [exec_insertFwdPrepare first, takeUp_of_refused _ other]
    exact ⟨_, rfl, firewall_facts m s⟩
  · intro s src m first mayAct held new
    rw [exec_insertFwdPrepare first, takeUp_of_hold _ mayAct held new]
  · intro s src m first mayAct going new stale
    rw [exec_insertFwdPrepare first, takeUp_of_open _ mayAct (.inl going), prepare_of_aborted (by simpa using stale) (by simpa using new)]
  · intro s src m first mayAct going fresh new whole
    rw [exec_insertFwdPrepare first, takeUp_of_open _ mayAct (.inl going), prepare_of_new whole (by simpa using fresh) (by simpa using new)]
  · intro s m op flags n bs empty
    exact preparePart_of_no_coll m op flags n bs empty
  · intro s src m first other
    rw [exec_bulkData first, takeUp_of_refused _ other]
    exact ⟨_, rfl, firewall_facts m s⟩
  · intro s src m first mayAct new going fresh
    rw [exec_bulkData first, takeUp_of_open _ mayAct (.inl going)]
    obtain ⟨x, begun, facts⟩ := takePiece_of_new (s := dropMsg m s) (m := m) (by simpa using fresh) (by simpa using new)
    exact ⟨_, x, rfl, dropMsg_nextCmd m s ▸ begun, facts⟩
  · intro s src m first mayAct
    rw [exec_bulkData first]
    refine ⟨fun held new => by rw [takeUp_of_hold _ mayAct held new], fun open_ stale => ?_⟩
    rw [takeUp_of_open _ mayAct open_, takePiece_of_aborted (by simpa using stale)]
  · intro s src m c x first mayAct part found same reading fresh
    have found' : cmd? (dropMsg m s) c = some x := (cmd_dropMsg ..).trans found
    rw [exec_bulkData first, takeUp_of_open _ mayAct (.inr (by simp [part])),
      takePiece_of_part (by simpa using fresh) ((partOf_dropMsg ..).trans part) found' same reading]
    exact ⟨_, rfl, cmd_updCmd _ found'⟩
  · intro s src m c x first mayAct part found ingest same open_ going early
    have found' : cmd? (dropMsg m s) c = some x := (cmd_dropMsg ..).trans found
    rw [exec_insertFwdCommit first, if_pos mayAct, commitPart_of_part ((partOf_dropMsg ..).trans part) found' ingest same open_ going, if_neg early]
    exact ⟨_, rfl, cmd_updCmd _ found'⟩
  · intro s src m c x first mayAct part found ingest same open_ ready room
    have found' : cmd? (dropMsg m s) c = some x := (cmd_dropMsg ..).trans found
    rw [exec_insertFwdCommit first, if_pos mayAct, commitPart_of_part ((partOf_dropMsg ..).trans part) found' ingest same open_ (by simp [ready]), if_pos ready]
    have bound := cmd_updCmd (fun x => { x with committing := true }) found'
    have queue : coll (updCmd c (fun x => { x with committing := true }) (dropMsg m s)) x.coll = coll s x.coll :=
      coll_of _ ((updCmd_colls ..).trans (dropMsg_colls m s))
    obtain ⟨queued, last⟩ := queueBatch_of_room bound (queue ▸ room)
    exact ⟨_, rfl, queued, last.trans (by rw [queue])⟩
  · intro s src m first other
    rw [exec_insertFwdCommit first, if_neg (by simp [other])]
    exact ⟨_, rfl, firewall_facts m s⟩
  · intro s src m c x first mayAct part found ingest current uncommitted_
    have found' : cmd? (dropMsg m s) c = some x := (cmd_dropMsg ..).trans found
    rw [exec_insertFwdWithdraw first, if_pos mayAct, withdrawPart_of_part ((partOf_dropMsg ..).trans part) found' ingest current]
    exact ⟨_, rfl, fun open_ => dropPart_gone found' open_ uncommitted_, fun bound => dropPart_kept found' bound⟩
  · intro s src m first other
    rw [exec_insertFwdWithdraw first, if_neg (by simp [other])]
    exact ⟨_, rfl, firewall_facts m s⟩
  · intro s src m c x first root found open_ going early ok
    have found' : cmd? (dropMsg m s) c = some x := (cmd_dropMsg ..).trans found
    rw [exec_insertFwdResponse first, insertResponse_of_prepared root found' open_ going ok, if_neg early]
    exact ⟨_, rfl, cmd_updCmd _ found'⟩
  · intro s src m c x first root found open_ going live fails
    have found' : cmd? (dropMsg m s) c = some x := (cmd_dropMsg ..).trans found
    obtain ⟨y, ended, final, status, count, -⟩ := failCmd_ends (firstFailure (dropMsg m s) m) 0 found' (by simp [mustCommit, open_]) going live
    rw [exec_insertFwdResponse first, insertResponse_of_failed root found' open_ going fails]
    exact ⟨_, y, rfl, ended, final, status, count, fun alone => status.trans (firstFailure_of_alone alone)⟩
  · intro s src m c x first root found bound new
    have found' : cmd? (dropMsg m s) c = some x := (cmd_dropMsg ..).trans found
    rw [exec_insertFwdResponse first, insertResponse_of_committed root found' bound new]
    exact ⟨_, rfl, cmd_updCmd _ found'⟩
  · intro s src ctx m e bs hs u v idle first mayAct fresh new entry payload context open_ search good amounts fits bound going all
    have q : Serves s m ctx e bs hs := ⟨⟨mayAct, fresh, new, entry, payload, context⟩, open_, search, good, amounts⟩
    obtain ⟨found, icern⟩ := bound_facts bound
    rw [exec_queryFwd_of_some idle first, q.query_of_fits fits, bound, tryPart_of_all found (icern ▸ going) all]
    refine ⟨_, rfl, rfl, ?_, _, (cmd_freeBufs ..).trans (cmd_updCmd _ (takeLacking_of_all found rfl all)), rfl, rfl, rfl, rfl, rfl⟩
    rw [freeBufs_inbox, updCmd_icern, takeLacking_icern all, icern]
    rfl
  · intro s src ctx m e bs hs u v idle first mayAct fresh new entry payload context open_ search good amounts fits bound going short
    have q : Serves s m ctx e bs hs := ⟨⟨mayAct, fresh, new, entry, payload, context⟩, open_, search, good, amounts⟩
    obtain ⟨found, icern⟩ := bound_facts bound
    obtain ⟨had, left, lacking, split_, waits⟩ := takeLacking_of_short found rfl short
    rw [exec_queryFwd_of_some idle first, q.query_of_fits fits, bound, tryPart_of_short found (icern ▸ going) short]
    refine ⟨_, rfl, waits, rfl, rfl, rfl, rfl, rfl, rfl, split_, lacking, ?_⟩
    rw [takeLacking_icern short, icern]
    rfl
  · intro s src ctx m e bs hs u idle first mayAct fresh new entry payload context open_ search good amounts fits bound held
    have q : Serves s m ctx e bs hs := ⟨⟨mayAct, fresh, new, entry, payload, context⟩, open_, search, good, amounts⟩
    obtain ⟨found, icern⟩ := bound_facts bound
    rw [exec_queryFwd_of_some idle first, q.query_of_fits fits, bound, tryPart_of_hold (icern ▸ held)]
    exact ⟨rfl, found, icern ▸ rfl⟩
  · intro s src ctx m e bs hs idle first mayAct fresh new entry payload context open_ search good amounts large
    have q : Serves s m ctx e bs hs := ⟨⟨mayAct, fresh, new, entry, payload, context⟩, open_, search, good, amounts⟩
    rw [exec_queryFwd_of_some idle first, q.query_of_large large]
  · intro s src m e idle first mayAct fresh new entry open_ bad
    have q : NewSearch s m _ e _ := ⟨mayAct, fresh, new, entry, rfl, rfl⟩
    have refuses : (!isSearch (opOf e) || queryBad s (forwardCtx s m.job 0) e (field m.body 72 8) ((m.body.drop 80).take (field m.body 68 4)).length) = true := by
      obtain other | bad := bad
      · rw [other]
        rfl
      · rw [bad, Bool.or_true]
    rw [exec_queryFwd_of_some idle first, q.query_of_bad (by rw [open_, refuseIf, if_pos refuses]; rfl)]
  · intro s src c m x idle first mayAct part found older
    rw [exec_queryFwd_of_some idle first, query_of_yielded mayAct (yieldRun_of_older (s := spend 1 (takeMsg m s)) part found older)]
  · intro s src m idle first mayAct stale
    rw [exec_queryFwd_of_some idle first, query_of_yielded mayAct (yieldRun_of_aborted (s := spend 1 (takeMsg m s)) stale)]
  · intro s u src tried none_
    exact exec_queryFwd_of_none tried none_
  · intro s src c m x first mayAct part found older whole
    rw [exec_insertFwdPrepare first, takeUp_of_open _ mayAct (.inr (by simp [part])),
      prepare_of_yielded whole (yieldRun_of_older ((partOf_dropMsg ..).trans part) ((cmd_dropMsg ..).trans found) older)]
  · intro s src m first mayAct going fresh new share
    rw [exec_insertFwdPrepare first, takeUp_of_open _ mayAct (.inl going), prepare_of_empty_share share (by simpa using fresh) (by simpa using new)]
  · intro s src c m x first mayAct fresh share part found same reading gone
    rw [exec_insertFwdPrepare first, takeUp_of_open _ mayAct (.inr (by simp [part])),
      prepare_of_share share (by simpa using fresh) ((partOf_dropMsg ..).trans part) ((cmd_dropMsg ..).trans found) same reading gone]
  · intro s m op flags n bs
    exact preparePart_cmd m op flags n bs s
  · intro s src c m x first mayAct part found late
    rw [exec_bulkData first, takeUp_of_open _ mayAct (.inr (by simp [part])),
      takePiece_of_late ((partOf_dropMsg ..).trans part) ((cmd_dropMsg ..).trans found) late]
  · intro s src c m x first root found idle
    rw [exec_partialList first, partialList_of_idle root ((cmd_dropMsg ..).trans found) idle]
  · intro s src c m x first mayAct part found ingest same open_ ready full
    have found' : cmd? (dropMsg m s) c = some x := (cmd_dropMsg ..).trans found
    rw [exec_insertFwdCommit first, if_pos mayAct, commitPart_of_part ((partOf_dropMsg ..).trans part) found' ingest same open_ (by simp [ready]), if_pos ready]
    have bound := cmd_updCmd (fun x => { x with committing := true }) found'
    have colls : (updCmd c (fun x => { x with committing := true }) (dropMsg m s)).colls = s.colls := (updCmd_colls ..).trans (dropMsg_colls m s)
    rw [queueBatch_of_full bound (by rw [coll_of _ colls]; exact full)]
    exact ⟨_, rfl, bound, colls⟩
  · intro s src m first mayAct idle
    rw [exec_insertFwdCommit first, if_pos mayAct,
      commitPart_of_idle fun c x part found => idle c x ((partOf_dropMsg ..).symm.trans part) ((cmd_dropMsg ..).symm.trans found)]
  · intro s src m first mayAct idle
    rw [exec_insertFwdWithdraw first, if_pos mayAct,
      withdrawPart_of_idle fun c x part found => idle c x ((partOf_dropMsg ..).symm.trans part) ((cmd_dropMsg ..).symm.trans found)]
  · intro s src m first idle
    rw [exec_insertFwdResponse first, insertResponse_of_idle fun c x root found => idle c x root ((cmd_dropMsg ..).symm.trans found)]
  · intro s src c m x first root found open_ ready ok
    have found' : cmd? (dropMsg m s) c = some x := (cmd_dropMsg ..).trans found
    rw [exec_insertFwdResponse first, insertResponse_of_prepared root found' open_ (by simp [ready]) ok, if_pos ready]
    exact ⟨_, rfl, cmd_updCmd _ found'⟩
  · intro s src
    refine ⟨fun idle none_ => exec_queryFwd_of_none (by rw [idle]; rfl) none_, fun none_ => ?_, fun none_ => ?_, fun none_ => ?_, fun none_ => ?_,
      fun none_ => ?_, fun none_ => ?_⟩
    · exact congrArg Host.Outcome.next (withMsg_of_none none_ _)
    · show Host.Outcome.next _ = _
      rw [none_]
    · exact congrArg Host.Outcome.next (withMsg_of_none none_ _)
    · show Host.Outcome.next _ = _
      rw [none_]
    · exact congrArg Host.Outcome.next (withMsg_of_none none_ _)
    · exact congrArg Host.Outcome.next (withMsg_of_none none_ _)

end Sys2Proof.Machine

/-! ### The journal in time (R179–R182, R184, R433): an acknowledgement, a failed record, the wait for space, a read of RELEASED -/

namespace Sys2Proof.Machine

-- One proof at a time: each thread of its own would take its stack out of the memory that the whole text is compiled in.
set_option Elab.async false

/-! #### A journal and its updates -/

theorem journal_of {s t : State} (x : Nat) (same : t.ctxs = s.ctxs) : journal? t x = journal? s x := by
  unfold journal?
  rw [ctx_of x same]

theorem journal_updJournal {s : State} {x : Nat} {j : Journal} (f : Journal → Journal) (found : journal? s x = some j) :
    journal? (updJournal x f s) x = some (f j) := by
  obtain ⟨k, context, journal⟩ := Option.bind_eq_some_iff.mp found
  unfold journal? updJournal
  rw [ctx_updCtx_same, context]
  simp [journal]

theorem cmd_updJournal (x : Nat) (f : Journal → Journal) (s : State) (c : Nat) : cmd? (updJournal x f s) c = cmd? s c :=
  cmd_of c (updCtx_cmds ..)

theorem journal_breakJournal {s : State} {x : Nat} {j : Journal} (found : journal? s x = some j) :
    journal? (breakJournal x s) x = some { j with broken := true } :=
  (journal_of x (raise_ctxs ..)).trans (journal_updJournal _ found)

theorem cmd_breakJournal (x : Nat) (s : State) (c : Nat) : cmd? (breakJournal x s) c = cmd? s c :=
  (cmd_of c (raise_cmds ..)).trans (cmd_updJournal ..)

theorem aon_breakJournal (x : Nat) (s : State) : (breakJournal x s).aon = s.aon := (raise_aon ..).trans (updCtx_aon ..)

theorem breakJournal_pends (x : Nat) (s : State) : bit (breakJournal x s).host.evtPend.toNat Event.journalFault.bit = true := raise_pending_bit ..

/-! #### WRITTEN (R180) -/

theorem advanceWritten_of_journal {s : State} {x : Nat} {j : Journal} (found : journal? s x = some j) :
    advanceWritten x s = if (passAcked j.recs j.size j.written).2 = j.written then s
      else journalWrite j 8 (leBytes 8 (passAcked j.recs j.size j.written).2)
        (updJournal x (fun k => { k with recs := (passAcked j.recs j.size j.written).1, written := (passAcked j.recs j.size j.written).2 }) s) := by
  unfold advanceWritten
  rw [found]

theorem journalWrite_of_unusable {s : State} (j : Journal) (off : Nat) (bs : List Byte) (unusable : cacheUsable s = false) : journalWrite j off bs s = s :=
  if_pos (by rw [unusable]; rfl)

theorem journalWrite_ctxs (j : Journal) (off : Nat) (bs : List Byte) (s : State) : (journalWrite j off bs s).ctxs = s.ctxs := by
  unfold journalWrite
  split <;> rfl

theorem cacheUsable_of_host {s t : State} (same : t.host = s.host) : cacheUsable t = cacheUsable s := by
  unfold cacheUsable
  rw [same]

/-- WRITTEN passes the unbroken run of acknowledged records at the front. -/
theorem written_advanceWritten {s : State} {x : Nat} {j : Journal} (found : journal? s x = some j) :
    ∃ k, journal? (advanceWritten x s) x = some k ∧ k.written = (passAcked j.recs j.size j.written).2 := by
  rw [advanceWritten_of_journal found]
  split
  · exact ⟨j, found, Eq.symm ‹_›⟩
  · exact ⟨_, (journal_of x (journalWrite_ctxs ..)).trans (journal_updJournal _ found), rfl⟩

/-- A new value of WRITTEN goes to the control line while CXL.cache is usable. -/
theorem host_advanceWritten {s : State} {x : Nat} {j : Journal} (found : journal? s x = some j) :
    (advanceWritten x s).host = (if (passAcked j.recs j.size j.written).2 = j.written ∨ cacheUsable s = false then s
      else updHost (fun h => { h with cache := h.cache ++ [{ kind := .data, addr := j.base + BitVec.ofNat 64 8
                                                             bytes := leBytes 8 (passAcked j.recs j.size j.written).2 }] }) s).host := by
  have same : ∀ f, (updJournal x f s).host = s.host := fun f => updCtx_host ..
  rw [advanceWritten_of_journal found]
  by_cases still : (passAcked j.recs j.size j.written).2 = j.written
  · rw [if_pos still, if_pos (.inl still)]
  · rw [if_neg still]
    cases usable : cacheUsable s with
    | false =>
      rw [journalWrite_of_unusable _ _ _ ((cacheUsable_of_host (same _)).trans usable), if_pos (.inr rfl), same]
    | true =>
      rw [journalWrite_of_usable _ _ _ ((cacheUsable_of_host (same _)).trans usable), if_neg (by simp [still])]
      simp only [updHost, same]

/-! #### An acknowledged record (R179, R182) -/

section Finish

variable {s : State} {c : Nat} {k : Cmd} (found : cmd? s c = some k)
include found

/-- A committed batch completes once its record, where it has one of its own, is acknowledged and its epoch closed (R179). -/
theorem tryFinish_of_due (committed : k.stage = .committed) (ingest : isIngest k.opcode = true)
    (due : (eForce k.entry && k.origin.isNone) = false ∨ k.acked = true ∧ epochLe k.epoch (coll s k.coll).latest = true) (alone : k.committing = false) :
    tryFinish c s = updCmd c (fun k => { k with stage := .final, count := if k.opcode = 0x22 then k.deleted else iCount k.entry }) s := by
  unfold tryFinish
  rw [found]
  dsimp only
  rw [if_neg (by simp [committed, ingest]), if_neg, if_neg (by simp [alone])]
  rintro ⟨forced, late⟩
  rcases due with free | ⟨acked, closed⟩
  · exact absurd (free.symm.trans forced) Bool.false_ne_true
  · simp [acked, closed] at late

/-- A FORCE batch stays while its epoch is open (R179). -/
theorem tryFinish_of_open (forced : (eForce k.entry && k.origin.isNone) = true) (unclosed : epochLe k.epoch (coll s k.coll).latest = false) :
    tryFinish c s = s := by
  unfold tryFinish
  rw [found]
  dsimp only
  split
  · rfl
  · exact if_pos ⟨forced, .inr (by rw [unclosed]; rfl)⟩

end Finish

/-- The state in which an acknowledged record has left and WRITTEN has advanced. -/
def ackNoted (x : Nat) (r : JRec) (s : State) : State :=
  advanceWritten x (updJournal x (fun j => { j with recs := markAcked r j.recs }) (sentRecord x r s))

section Acked

variable {s : State} {c x : Nat} {r : JRec}

theorem ackNoted_keeps (x : Nat) (r : JRec) (s : State) : Keeps [.host, .ctxs] s (ackNoted x r s) :=
  k_advanceWritten (within_self _) _ (k_updJournal (within_of (by decide)) _ _ (k_sentRecord (within_of (by decide)) _ _ (Keeps.refl _ s)))

theorem cmd_ackNoted (x : Nat) (r : JRec) (s : State) (c : Nat) : cmd? (ackNoted x r s) c = cmd? s c := cmd_of c (ackNoted_keeps x r s).same_cmds

theorem coll_ackNoted (x : Nat) (r : JRec) (s : State) (n : Nat) : coll (ackNoted x r s) n = coll s n := coll_of n (ackNoted_keeps x r s).same_colls

/-- What follows an acknowledgement changes commands only. -/
theorem ackRecord_keeps (x c : Nat) (r : JRec) (s : State) : Keeps [.cmds] (ackNoted x r s) (ackRecord x c r (sentRecord x r s)) := by
  unfold ackRecord
  dsimp only
  split
  · exact k_forgetDone (within_self _) c (Keeps.refl _ _)
  · split
    · exact Keeps.refl ..
    · split
      · exact k_forgetDone (within_self _) c (Keeps.refl _ _)
      · split
        · exact k_updCmd (within_self _) _ _ (Keeps.refl _ _)
        · exact k_tryFinish (within_self _) c (k_updCmd (within_self _) _ _ (Keeps.refl _ _))

theorem exec_journalAck_ok (written : writingRec s c = some (x, r)) : exec (.journalAck c .ok) s = .next (ackRecord x c r (sentRecord x r s)) := by
  refine congrArg Host.Outcome.next ?_
  rw [written]

theorem journal_markAcked {j : Journal} (found : journal? s x = some j) :
    journal? (updJournal x (fun j => { j with recs := markAcked r j.recs }) (sentRecord x r s)) x = some { j with recs := markAcked r j.recs } :=
  journal_updJournal _ ((journal_of x (k_sentRecord (within_self _) x r (Keeps.refl _ s)).same_ctxs).trans found)

theorem written_ackNoted {j : Journal} (found : journal? s x = some j) :
    ∃ k, journal? (ackNoted x r s) x = some k ∧ k.written = (passAcked (markAcked r j.recs) j.size j.written).2 :=
  written_advanceWritten (journal_markAcked found)

theorem cacheUsable_sentRecord (x : Nat) (r : JRec) (s : State) : cacheUsable (sentRecord x r s) = cacheUsable s := by
  unfold sentRecord
  split <;> rfl

theorem host_ackNoted {j : Journal} (found : journal? s x = some j) :
    (ackNoted x r s).host = (if (passAcked (markAcked r j.recs) j.size j.written).2 = j.written ∨ cacheUsable s = false then sentRecord x r s
      else updHost (fun h => { h with cache := h.cache ++ [{ kind := .data, addr := j.base + BitVec.ofNat 64 8
                                                             bytes := leBytes 8 (passAcked (markAcked r j.recs) j.size j.written).2 }] }) (sentRecord x r s)).host := by
  have same : (updJournal x (fun j => { j with recs := markAcked r j.recs }) (sentRecord x r s)).host = (sentRecord x r s).host := updCtx_host ..
  rw [ackNoted, host_advanceWritten (journal_markAcked found), cacheUsable_of_host same, cacheUsable_sentRecord]
  split
  · exact same
  · simp only [updHost, same]

variable {k : Cmd} (own : r.pad = false) (found : cmd? s c = some k) (committed : k.stage = .committed)
include own found committed

/-- A batch or FLUSH whose own record is acknowledged goes on (R179). -/
theorem ackRecord_of_own : ackRecord x c r (sentRecord x r s) =
    if k.opcode = 0x28 then updCmd c (flushOutcome (ackNoted x r s)) (ackNoted x r s)
    else tryFinish c (updCmd c (fun k => { k with acked := true }) (ackNoted x r s)) := by
  have here : cmd? (ackNoted x r s) c = some k := (cmd_ackNoted ..).trans found
  unfold ackRecord
  dsimp only
  rw [show advanceWritten x (updJournal x (fun j => { j with recs := markAcked r j.recs }) (sentRecord x r s)) = ackNoted x r s from rfl, own, here,
    if_neg Bool.false_ne_true]
  exact if_neg (not_not_intro committed)

theorem cmd_ackRecord_of_flush (flush : k.opcode = 0x28) :
    cmd? (ackRecord x c r (sentRecord x r s)) c = some { k with stage := .final, count := k.coveredOk, epoch := (coll s k.coll).latest } := by
  rw [ackRecord_of_own own found committed, if_pos flush, cmd_updCmd _ ((cmd_ackNoted ..).trans found), flushOutcome, coll_ackNoted]

/-- A FORCE batch whose epoch is open has its record noted, and stays (R179). -/
theorem cmd_ackRecord_of_open (batch : k.opcode ≠ 0x28) (force : eForce k.entry = true) (root : k.origin = none)
    (unclosed : epochLe k.epoch (coll s k.coll).latest = false) : cmd? (ackRecord x c r (sentRecord x r s)) c = some { k with acked := true } := by
  have noted := cmd_updCmd (fun k => { k with acked := true }) ((cmd_ackNoted x r s c).trans found)
  rw [ackRecord_of_own own found committed, if_neg batch, tryFinish_of_open noted (by simp [force, root]), noted]
  rw [coll_of _ (updCmd_colls ..), coll_ackNoted]
  exact unclosed

/-- A batch whose epoch has closed completes with its record's acknowledgement (R179). -/
theorem cmd_ackRecord_of_closed (ingest : isIngest k.opcode = true) (batch : k.opcode ≠ 0x28) (closed : epochLe k.epoch (coll s k.coll).latest = true)
    (alone : k.committing = false) : cmd? (ackRecord x c r (sentRecord x r s)) c =
      some { k with acked := true, stage := .final, count := if k.opcode = 0x22 then k.deleted else iCount k.entry } := by
  have noted := cmd_updCmd (fun k => { k with acked := true }) ((cmd_ackNoted x r s c).trans found)
  have closed' : epochLe k.epoch (coll (updCmd c (fun k => { k with acked := true }) (ackNoted x r s)) k.coll).latest = true := by
    rw [coll_of _ (updCmd_colls ..), coll_ackNoted]
    exact closed
  rw [ackRecord_of_own own found committed, if_neg batch, tryFinish_of_due noted committed ingest (.inr ⟨rfl, closed'⟩) alone, cmd_updCmd _ noted]

end Acked

/-! #### A record that failed (R184, R433) -/

/-- The state in which a failed record's fault is posted and its journal broken, the record failed in it. -/
def failNoted (x c : Nat) (r : JRec) (cause : Nat) (s : State) : State :=
  updJournal x (fun j => { j with recs := j.recs.map fun k => if k = r then { k with cmd := 0, st := .failed } else k })
    (breakJournal x (postFault (cacheFault s cause c) s))

section Failed

variable {s : State} {c x : Nat} {r : JRec}

theorem failRecord_eq (x c : Nat) (r : JRec) (cause : Nat) (st : Status) (s : State) :
    failRecord x c r cause st s = match cmd? (failNoted x c r cause s) c with
      | none => failNoted x c r cause s
      | some k => if r.pad ∨ k.stage ≠ .committed then forgetDone c (failNoted x c r cause s)
        else updCmd c (fun y => { y with stage := .final, status := st, fault := cacheFault s cause c, count := if k.opcode = 0x28 then k.coveredOk else 0 })
          (failNoted x c r cause s) := rfl

/-- What follows a failed record changes commands only. -/
theorem failRecord_keeps (x c : Nat) (r : JRec) (cause : Nat) (st : Status) (s : State) :
    Keeps [.cmds] (failNoted x c r cause s) (failRecord x c r cause st s) := by
  rw [failRecord_eq]
  split
  · exact Keeps.refl ..
  · split
    · exact k_forgetDone (within_self _) c (Keeps.refl _ _)
    · exact k_updCmd (within_self _) _ _ (Keeps.refl _ _)

theorem codes_failRecord (x c : Nat) (r : JRec) (cause : Nat) (st : Status) (s : State) :
    (failRecord x c r cause st s).aon.codes.head? = some (cacheFault s cause c) := by
  have aon : (failNoted x c r cause s).aon = (postFault (cacheFault s cause c) s).aon := (updCtx_aon ..).trans (aon_breakJournal ..)
  rw [(failRecord_keeps x c r cause st s).same_aon, aon]
  exact head_codes_postFault ..

theorem failRecord_pends (x c : Nat) (r : JRec) (cause : Nat) (st : Status) (s : State) :
    bit (failRecord x c r cause st s).host.evtPend.toNat Event.journalFault.bit = true := by
  have host : (failNoted x c r cause s).host = (breakJournal x (postFault (cacheFault s cause c) s)).host := updCtx_host ..
  rw [(failRecord_keeps x c r cause st s).same_host, host]
  exact breakJournal_pends ..

theorem journal_failRecord {j : Journal} (cause : Nat) (st : Status) (found : journal? s x = some j) : journal? (failRecord x c r cause st s) x =
    some { j with broken := true, recs := j.recs.map fun k => if k = r then { k with cmd := 0, st := .failed } else k } :=
  (journal_of x (failRecord_keeps x c r cause st s).same_ctxs).trans
    (journal_updJournal _ (journal_breakJournal ((journal_of x (postFault_ctxs ..)).trans found)))

theorem cacheFault_of_cmd {k : Cmd} (cause : Nat) (found : cmd? s c = some k) : cacheFault s cause c = hostFault 0x72 cause (some k.ring) := by
  unfold cacheFault
  rw [found]
  rfl

/-- The command of a failed record of its own completes with the record's fault. -/
theorem cmd_failRecord {k : Cmd} (cause : Nat) (st : Status) (own : r.pad = false) (found : cmd? s c = some k) (committed : k.stage = .committed) :
    cmd? (failRecord x c r cause st s) c = some { k with
      stage := .final, status := st, fault := hostFault 0x72 cause (some k.ring), count := if k.opcode = 0x28 then k.coveredOk else 0 } := by
  have here : cmd? (failNoted x c r cause s) c = some k :=
    (cmd_updJournal ..).trans ((cmd_breakJournal ..).trans ((cmd_of c (postFault_cmds ..)).trans found))
  rw [failRecord_eq, here]
  dsimp only
  rw [if_neg (by simp [own, committed]), cmd_updCmd _ here, cacheFault_of_cmd cause found]

/-- A failed acknowledgement fails the record, where poison was received noted as such (R258). -/
theorem exec_journalAck_failed {a : AckReply} (written : writingRec s c = some (x, r)) (failed : a ≠ .ok) :
    exec (.journalAck c a) s = .next (failRecord x c r 5 .uncorrectable (if a = .poison then notePoison s else s)) := by
  refine congrArg Host.Outcome.next ?_
  rw [written]
  cases a with
  | ok => exact absurd rfl failed
  | error => rfl
  | poison => rfl

theorem exec_journalAckTimeout (written : writingRec s c = some (x, r)) : exec (.journalAckTimeout c) s = .next (failRecord x c r 6 .timeout s) := by
  refine congrArg Host.Outcome.next ?_
  rw [written]

end Failed

/-- A poison that is noted leaves contexts and commands. -/
theorem noted_same (poisoned : Prop) [Decidable poisoned] (s : State) :
    (if poisoned then notePoison s else s).ctxs = s.ctxs ∧ (if poisoned then notePoison s else s).cmds = s.cmds := by
  split <;> exact ⟨rfl, rfl⟩

/-! #### Space and RELEASED (R180, R182) -/

theorem rereading_of_journal {s : State} {x : Nat} {j : Journal} (found : journal? s x = some j) : rereading s x = j.rereading := by
  unfold rereading
  rw [found]
  rfl

/-- A journal whose read of RELEASED has come. -/
def releasedRead (j : Journal) : Journal := { j with rereading := false, unread := false }

theorem takeReleased_of_valid {s : State} {x v : Nat} {j : Journal} (found : journal? s x = some j) (valid : releasedValid j v = true) :
    takeReleased x v s = retrySpace x (updJournal x (fun j => { j with released := v }) (updJournal x releasedRead s)) := by
  have here := journal_updJournal releasedRead found
  unfold takeReleased
  change (if (journal? (updJournal x releasedRead s) x).any _ = true then _ else _) = _
  rw [here]
  exact if_pos valid

theorem takeReleased_of_invalid {s : State} {x v : Nat} {j : Journal} (found : journal? s x = some j) (invalid : releasedValid j v = false) :
    takeReleased x v s = retrySpace x (raise .journalFault 5 x 0 (updJournal x releasedRead s)) := by
  have here := journal_updJournal releasedRead found
  unfold takeReleased
  change (if (journal? (updJournal x releasedRead s) x).any _ = true then _ else _) = _
  rw [here]
  exact if_neg (ne_true_of_eq_false invalid)

/-- The state in which a failed read's fault is posted and its journal broken. -/
def rereadNoted (x : Nat) (code : W32) (s : State) : State := breakJournal x (updJournal x (fun j => { j with rereading := false }) (postFault code s))

/-- The commands that waited for space complete with a code and epoch 0. -/
def failWaiters (cs : List Nat) (st : Status) (code : W32) (s : State) : State :=
  cs.foldl (fun v c => failCmd c st code (updCmd c (fun k => { k with noEpoch := true }) v)) s

theorem failReread_of_journal {s : State} {x : Nat} {j : Journal} (cause : Nat) (st : Status) (found : journal? s x = some j) :
    failReread x cause st s = failWaiters (spaceWaiters s x) st (hostFault 0x72 cause j.forRing) (rereadNoted x (hostFault 0x72 cause j.forRing) s) := by
  unfold failReread
  rw [found]
  rfl

theorem journal_rereadNoted {s : State} {x : Nat} {j : Journal} (code : W32) (found : journal? s x = some j) :
    journal? (rereadNoted x code s) x = some { j with rereading := false, broken := true } :=
  journal_breakJournal (journal_updJournal _ ((journal_of x (postFault_ctxs ..)).trans found))

theorem codes_rereadNoted (x : Nat) (code : W32) (s : State) : (rereadNoted x code s).aon.codes.head? = some code := by
  rw [rereadNoted, aon_breakJournal]
  exact (congrArg (·.codes.head?) (updCtx_aon ..)).trans (head_codes_postFault ..)

section Rereading

variable {s : State} {x : Nat} {j : Journal} (found : journal? s x = some j) (reading : j.rereading = true)
include found reading

theorem exec_releasedReadDone_data (bs : List Byte) : exec (.releasedReadDone x (.data bs)) s = .next (takeReleased x (field bs 0 8) s) :=
  onlyIf_true _ _ ((rereading_of_journal found).trans reading)

theorem exec_releasedReadDone_failed {a : ReadReply} (nothing : ∀ bs, a ≠ .data bs) (answered : a ≠ .timeout) :
    exec (.releasedReadDone x a) s = .next (failReread x 5 .uncorrectable (if a = .poison then notePoison s else s)) := by
  change execReleasedReadDone x a s = _
  rw [execReleasedReadDone, onlyIf_true _ _ ((rereading_of_journal found).trans reading)]
  cases a with
  | data bs => exact absurd rfl (nothing bs)
  | timeout => exact absurd rfl answered
  | ur => rfl
  | ca => rfl
  | poison => rfl

theorem exec_releasedReadTimeout : exec (.releasedReadTimeout x) s = .next (failReread x 6 .timeout s) :=
  onlyIf_true _ _ ((rereading_of_journal found).trans reading)

theorem exec_releasedReadDone_timeout : exec (.releasedReadDone x .timeout) s = exec (.releasedReadTimeout x) s :=
  (onlyIf_true _ _ ((rereading_of_journal found).trans reading)).trans (exec_releasedReadTimeout found reading).symm

end Rereading

/-- Settles O34: an acknowledgement, a failure, a wait for space and a read of RELEASED each leave a noted state, and what follows from it ends or
retries commands. -/
theorem journalAcks : Obligations.JournalAcks := by
  refine ⟨fun s c x r j written found => ?_, fun s c x r k written own found committed ingest batch closed alone => ?_,
    fun s c x r k written own found committed => ?_, fun s c x r j a written found failed => ?_, fun s c a none_ => ?_,
    fun s c x r j k a written own found here committed failed => ?_, fun s c x r j k written own found here committed => ?_,
    fun s c k found waits free => ?_, fun s c idle => ?_, fun s x j usable waiters found idle => ?_, fun s x idle => ?_,
    fun s x j bs found reading valid => ?_, fun s x j bs found reading invalid => ?_, fun s x j a found reading nothing answered => ?_,
    fun s x j found reading => ?_, fun s x a idle => ?_⟩
  · obtain ⟨k, here, new⟩ := written_ackNoted (r := r) found
    refine ⟨_, k, exec_journalAck_ok written, (journal_of x (ackRecord_keeps x c r s).same_ctxs).trans here, new, ?_⟩
    rw [(ackRecord_keeps x c r s).same_host, host_ackNoted found, new]
  · exact ⟨_, exec_journalAck_ok written, cmd_ackRecord_of_closed own found committed ingest batch closed alone⟩
  · exact ⟨_, exec_journalAck_ok written, cmd_ackRecord_of_flush own found committed,
      fun batch _ force root unclosed => cmd_ackRecord_of_open own found committed batch force root unclosed⟩
  · obtain ⟨ctxs, cmds⟩ := noted_same (a = .poison) s
    refine ⟨_, _, exec_journalAck_failed written failed, exec_journalAckTimeout written, ?_, codes_failRecord .., ?_, ?_, failRecord_pends ..,
      failRecord_pends ..⟩
    · rw [codes_failRecord, cacheFault, cmd_of c cmds]
      rfl
    · exact journal_failRecord 5 .uncorrectable ((journal_of x ctxs).trans found)
    · rw [journal_failRecord 6 .timeout found, journal_failRecord 5 .uncorrectable ((journal_of x ctxs).trans found)]
  · constructor
    all_goals
      refine congrArg Host.Outcome.next ?_
      rw [none_]
  · obtain ⟨ctxs, cmds⟩ := noted_same (a = .poison) s
    have here' := (cmd_of c cmds).trans here
    refine ⟨_, exec_journalAck_failed written failed, cmd_failRecord 5 .uncorrectable own here' committed, ?_, ?_⟩
    · rw [journal_failRecord 5 .uncorrectable ((journal_of x ctxs).trans found)]
      rfl
    · rw [codes_failRecord, cacheFault_of_cmd 5 here']
  · refine ⟨_, exec_journalAckTimeout written, cmd_failRecord 6 .timeout own here committed, ?_, ?_⟩
    · rw [journal_failRecord 6 .timeout found]
      rfl
    · rw [codes_failRecord, cacheFault_of_cmd 6 here]
  · obtain ⟨y, ended, final, status, count, fault, -⟩ := failCmd_ends .timeout 0 found free (by simp [waits]) (by simp [waits])
    exact ⟨_, y, onlyIf_true _ _ (by simp [found, waits]), ended, final, status, count, fault⟩
  · cases found : cmd? s c with
    | none => exact onlyIf_false _ _ (by rw [found]; rfl)
    | some k =>
      simp only [found, Option.all_some, Bool.or_eq_true, bne_iff_ne] at idle
      rcases idle with other | bound
      · exact onlyIf_false _ _ (by simp [found, other])
      · exact onlyIf_of_same (failCmd_of_mustCommit found bound ..)
  · exact ⟨_, onlyIf_true _ _ (by simp [usable, waiters, rereading_of_journal found, idle]), journal_updJournal _ found⟩
  · refine onlyIf_false _ _ ?_
    rcases idle with unusable | none_ | busy
    · rw [unusable]
      rfl
    · simp [none_]
    · rw [show rereading s x = true from busy, Bool.not_true, Bool.and_false]
  · refine ⟨_, (exec_releasedReadDone_data found reading bs).trans (congrArg Host.Outcome.next (takeReleased_of_valid found valid)),
      journal_updJournal _ (journal_updJournal _ found), (updCtx_cmds ..).trans (updCtx_cmds ..)⟩
  · exact ⟨_, (exec_releasedReadDone_data found reading bs).trans (congrArg Host.Outcome.next (takeReleased_of_invalid found invalid)),
      (journal_of x (raise_ctxs ..)).trans (journal_updJournal _ found), raise_pending_bit .., (raise_cmds ..).trans (updCtx_cmds ..)⟩
  · obtain ⟨ctxs, cmds⟩ := noted_same (a = .poison) s
    have found' := (journal_of x ctxs).trans found
    refine ⟨_, (exec_releasedReadDone_failed found reading nothing answered).trans (congrArg Host.Outcome.next ?_), journal_rereadNoted _ found',
      codes_rereadNoted ..⟩
    rw [failReread_of_journal 5 .uncorrectable found', spaceWaiters, cmdsOf, cmds]
    rfl
  · exact ⟨exec_releasedReadDone_timeout found reading, _,
      (exec_releasedReadTimeout found reading).trans (congrArg Host.Outcome.next (failReread_of_journal 6 .timeout found)),
      journal_rereadNoted _ found, codes_rereadNoted ..⟩
  · exact ⟨show execReleasedReadDone x a s = _ from onlyIf_false _ _ idle, show execReleasedReadTimeout x s = _ from onlyIf_false _ _ idle⟩

end Sys2Proof.Machine

/-! ### The reset ladder (R364, R424): a partition that an Assay brought up from COLD -/

namespace Sys2Proof.Machine

-- One proof at a time: each thread of its own would take its stack out of the memory that the whole text is compiled in.
set_option Elab.async false

/-- ASSAY_RUN of 64 KB of channel 0 of partition 3 (R422). -/
def assayReq : Req :=
  { opcode := 0x0801, len := 32, tag := 7, bytes := [8, 0, 1, 0, 0, 0, 1, 3, 1, 0, 0, 0, 0, 0, 0, 0, 0, 0, 0, 0, 0, 0, 0, 0, 0, 0, 1, 0, 0, 0, 0, 0] }

/-- The Hearth runs, that request in mailbox 1; every partition is COLD. -/
def assayAsked : State := { State.reset with hearthUp := true, hearth := { awake := true, mbx := [(1, { state := 2, req := some assayReq })] } }

/-- The state that a row leaves. -/
def afterRow (i : Instr) (s : State) : State :=
  match exec i s with
  | .next t => t
  | .fault _ | .refused _ => s

/-- The Assay runs, partition 3 brought up from COLD for it (R394, R424). -/
def assayRuns : State := afterRow (.exitDone 3 []) (afterRow (.assayRun 1 []) assayAsked)

theorem ptn_assayRuns : (ptn assayRuns 3).service = .inService ∧ (ptn assayRuns 3).power = .forge := by decide +kernel

/-- The fence that OUT_OF_SERVICE brings ends the Assay, which returns its partition to COLD; one that is COLD is not held BANKED. -/
theorem power_moduleOos_assayRuns : (ptn (moduleOos assayRuns) 3).power = .cold := by decide +kernel

/-- Refutes O42: of a module that goes OUT_OF_SERVICE it says that every partition not COLD before is held BANKED; one that a test run brought up
from COLD returns there as the module's own fence ends the run (R424). -/
theorem not_watchdogsAndLevels : ¬ Obligations.WatchdogsAndLevels := by
  unfold Obligations.WatchdogsAndLevels
  intro h
  obtain ⟨-, -, -, -, -, -, -, -, -, -, -, -, -, -, oosHolds, -⟩ := h
  obtain ⟨service, power⟩ := ptn_assayRuns
  obtain ⟨-, banked⟩ := (oosHolds assayRuns).2 3 (by decide) (by simp [service])
  rw [power_moduleOos_assayRuns, power] at banked
  exact absurd banked (by decide)

end Sys2Proof.Machine

/-! ### What every step keeps (R193, R430–R432) -/

namespace Sys2Proof.Machine

theorem Keeps.inv {m : List Part} {s t : State} (kept : Keeps m s t) (inv : s.inv = true) : t.inv = true := by
  simp only [State.inv, hbmOk, Bool.and_eq_true] at inv ⊢
  exact ⟨kept.hbm inv.1, kept.tap inv.2⟩

/-- Settles O2: the command at the front keeps the invariant on the state with the rest of the queue; on an empty queue the tick does. -/
theorem stepKeepsInv : Obligations.StepKeepsInv := by
  intro s inv
  unfold step
  cases queue : s.pending with
  | nil =>
    have kept := k_tick (within_self _) (Keeps.refl _ s)
    exact ⟨_, rfl, kept.inv inv, kept.pending.trans queue, kept.free⟩
  | cons c rest =>
    obtain ⟨t, next, kept⟩ := (k_exec c { s with pending := rest }).get
    exact ⟨t, next, kept.inv inv, kept.pending, kept.free⟩

end Sys2Proof.Machine

/-! ### The registers of BAR0 right after reset (R263, R286, R307) -/

namespace Sys2Proof.Machine

theorem readReg_word (s : State) (off size : Nat) (outside : off < 0x1000 ∨ 0x7000 ≤ off) :
    readReg s off size = barWord s (off - off % 8) / 256 ^ (off % 8) % 256 ^ size := if_neg (by omega)

theorem barWord_sq_reset (r : Fin 1024) : barWord State.reset (0x10000 + 8 * r) = 0 := by
  have place : (0x10000 + 8 * r.val - 0x10000) / 8 = r := by omega
  rw [barWord, if_neg (by omega), if_pos (by omega), place]
  exact (by decide : word [(32, ({} : Ring).st.code), (16, ({} : Ring).sqHead)] = 0)

theorem barWord_cq_reset (r : Fin 1024) : barWord State.reset (0x12000 + 8 * r) = 0 := by
  have place : (0x12000 + 8 * r.val - 0x12000) / 8 = r := by omega
  rw [barWord, if_neg (by omega), if_neg (by omega), if_pos (by omega), place]
  rfl

/-- What the register of a table of units at a place of BAR0 reads (R286). -/
theorem readReg_aligned {s : State} {off : Nat} (outside : 0x7000 ≤ off) (aligned : off % 8 = 0) (zero : barWord s off = 0) : readReg s off 8 = 0 := by
  rw [readReg_word _ _ _ (.inr outside), aligned, Nat.sub_zero, zero]
  rfl

/-- Settles O4: the registers of a ring are read at its place in their table; those of the other units, few, one by one. -/
theorem resetState : Obligations.ResetState :=
  ⟨by decide, by decide +kernel, by decide +kernel,
    fun r => ⟨readReg_aligned (by omega) (by omega) (barWord_sq_reset r), readReg_aligned (by omega) (by omega) (barWord_cq_reset r)⟩,
    by decide +kernel, by decide +kernel, by decide +kernel⟩

end Sys2Proof.Machine

/-! ### Writes to device memory and zeroisation (R193, R204, R205, R227, R251, R386) -/

namespace Sys2Proof.Machine

theorem mem_poison_of_zeroRange {a n w : Nat} {s : State} (kept : w ∈ (zeroRange a n s).poison) : w ∈ s.poison := (List.mem_filter.mp kept).1

/-- Settles O5: a write is seen at once under the write-combining buffers, and a zeroised range reads as zeros. -/
theorem memoryWrites : Obligations.MemoryWrites :=
  ⟨fun s _ _ _ fits canonical below => memByte_writeMem s fits canonical below,
    fun s _ _ _ start whole below => memByte_zeroRange s start whole below,
    fun _ _ _ _ kept => ⟨poison_zeroRange kept, mem_poison_of_zeroRange kept⟩⟩

/-! ### Zeroisation (R386) -/

theorem SameMemory.refl (s : State) : SameMemory s s := ⟨rfl, rfl, fun _ => rfl⟩

theorem sameMemory_updPtn (p : Nat) {f : Ptn → Ptn} (blind : ∀ x, (f x).wcb = x.wcb) (s : State) : SameMemory s (updPtn p f s) :=
  ⟨rfl, rfl, ptn_updPtn_of (·.wcb) blind⟩

/-- From s to t a range of device memory became zeros without poison, and no other byte changed. -/
structure Zeroed (a n : Nat) (s t : State) : Prop where
  bytes : ∀ j, j < 2 ^ 40 → memByte t j = if a ≤ j ∧ j < a + n then 0 else memByte s j
  clean : ∀ w ∈ t.poison, ¬(a ≤ w ∧ w < a + n)

theorem zeroed_of_sameMemory {a n : Nat} {s t : State} (start : a % 64 = 0) (whole : n % 64 = 0) (same : SameMemory (zeroRange a n s) t) :
    Zeroed a n s t where
  bytes j below := (same.memByte_eq j).trans (memByte_zeroRange s start whole below)
  clean _ kept := poison_zeroRange (same.poison ▸ kept)

theorem zeroed_updPtn {a n : Nat} {f : Ptn → Ptn} (p : Nat) (s : State) (start : a % 64 = 0) (whole : n % 64 = 0) (blind : ∀ x, (f x).wcb = x.wcb) :
    Zeroed a n s (updPtn p f (zeroRange a n s)) :=
  zeroed_of_sameMemory start whole (sameMemory_updPtn p blind _)

theorem regionBase_line (p r : Nat) : regionBase p r % 64 = 0 := by unfold regionBase; split <;> omega
theorem saveBase_line (p n : Nat) : saveBase p n % 64 = 0 := by unfold saveBase saveOffset; omega

theorem zeroisedFor_ptns (p : Nat) (s : State) : (zeroisedFor p s).ptns = s.ptns := by unfold zeroisedFor; dsimp only; split <;> rfl
theorem zeroisedFor_hbm (p : Nat) (s : State) : (zeroisedFor p s).hbm = s.hbm := by unfold zeroisedFor; dsimp only; split <;> rfl
theorem zeroisedFor_poison (p : Nat) (s : State) : (zeroisedFor p s).poison = s.poison := by unfold zeroisedFor; dsimp only; split <;> rfl
theorem zeroisedFor_tickets (p : Nat) (s : State) : (zeroisedFor p s).hearth.tickets = tmap (fun _ k => unwait p k) s.hearth.tickets := by
  unfold zeroisedFor; dsimp only; split <;> rfl

theorem unwait_waits_not {p j : Nat} {l : List Nat} {f : Bool} {k : Ticket} (waits : (unwait p k).work = .jobCreate j l f) : p ∉ l := by
  unfold unwait at waits
  split at waits
  · obtain ⟨-, rfl, -⟩ := Work.jobCreate.inj waits
    simp
  · next other => exact absurd waits (other j l f)

theorem deadAnvils_empty {t : Tbl Anvil} : ∀ a ∈ deadAnvils t, a.2 = { usable := false } := by
  intro a dead
  obtain ⟨b, -, rfl⟩ := List.mem_map.mp dead
  rfl

theorem zeroStack_waits_not {p : Nat} {s : State} {k : Nat × Ticket} (held : k ∈ (zeroStack p s).hearth.tickets) {j : Nat} {l : List Nat} {f : Bool}
    (waits : k.2.work = .jobCreate j l f) : p ∉ l := by
  rw [zeroStack, zeroisedFor_tickets] at held
  obtain ⟨b, -, rfl⟩ := List.mem_map.mp held
  exact unwait_waits_not waits

theorem zeroed_zeroStack (p : Nat) (s : State) : Zeroed (p * 2 ^ 36) (2 ^ 36) s (zeroStack p s) := by
  refine zeroed_of_sameMemory (by omega) (by omega) ⟨zeroisedFor_hbm .., zeroisedFor_poison .., fun q => ?_⟩
  rw [zeroStack, ptn_of q (zeroisedFor_ptns ..)]
  refine ptn_updPtn_of (·.wcb) ?_ q
  exact fun _ => rfl

theorem ptn_zeroStack (p : Nat) (s : State) : ∃ x : Ptn, ptn (zeroStack p s) p = { x with
    zeroising := false, cached := [], hot := [], pmem := [], placed := [], saves := [], pins := [], locked := [], anvils := deadAnvils x.anvils } := by
  rw [zeroStack, ptn_of p (zeroisedFor_ptns ..), ptn_updPtn_same]
  exact ⟨_, rfl⟩

theorem zeroised_region {s : State} {p : Fin 12} {r : Nat} {g : Region} (found : tget (ptn s p.val).regions r = some g) (free : g.inUse = false) :
    zeroised (.region p r) s = updPtn p.val (fun x => { x with regions := tset x.regions r { g with zeroising := false } })
      (zeroRange (regionBase p.val r) (2 ^ 24) s) := by
  unfold zeroised
  dsimp only
  rw [found]
  exact if_neg (by rw [free]; decide)

theorem zeroised_region_unlisted {s : State} {p : Fin 12} {r : Nat} (unlisted : tget (ptn s p.val).regions r = none) (region : r < 3968) :
    zeroised (.region p r) s = zeroRange (regionBase p.val r) (2 ^ 24) s := by
  unfold zeroised
  dsimp only
  rw [unlisted]
  exact if_pos region

theorem zeroised_region_idle {s : State} {p : Fin 12} {r : Nat}
    (kept : (tget (ptn s p.val).regions r).any (·.inUse) = true ∨ (tget (ptn s p.val).regions r = none ∧ 3968 ≤ r)) : zeroised (.region p r) s = s := by
  unfold zeroised
  dsimp only
  cases found : tget (ptn s p.val).regions r with
  | none =>
    rw [found] at kept
    exact if_neg (by simpa using kept)
  | some g =>
    rw [found] at kept
    exact if_pos (by simpa using kept)

/-- A save slot's record after its range was zeroised: gone where nothing is saved in it or waits for it, else not zeroising (R251). -/
theorem zeroised_saveSlot {s : State} {p n : Fin 12} {v : SaveSlot} (found : tget (ptn s p.val).saves n.val = some v) (due : v.zeroising = true) :
    ∃ keep : Bool, zeroised (.saveSlot p n) s = updPtn p.val (fun x => { x with
      saves := if keep then tset x.saves n.val { v with zeroising := false } else tdel x.saves n.val }) (zeroRange (saveBase p.val n.val) 0x05000000 s) := by
  unfold zeroised
  dsimp only
  rw [found]
  exact ⟨_, if_neg (by rw [due]; decide)⟩

theorem zeroised_saveSlot_idle {s : State} {p n : Fin 12} (idle : (tget (ptn s p.val).saves n.val).any (·.zeroising) = false) :
    zeroised (.saveSlot p n) s = s := by
  unfold zeroised
  dsimp only
  cases found : tget (ptn s p.val).saves n.val with
  | none => rfl
  | some v =>
    rw [found] at idle
    exact if_pos (by simpa using idle)

/-- Settles O45: each scope is a range of whole lines zeroised, then its own record. -/
theorem zeroisation : Obligations.Zeroisation := by
  refine ⟨fun s p due forge => ?_, fun s p r free => ?_, fun s p idle => ?_, fun s p r kept => congrArg Host.Outcome.next (zeroised_region_idle kept),
    fun s p n idle => congrArg Host.Outcome.next (zeroised_saveSlot_idle idle), fun s p n v found due => ?_⟩
  · obtain ⟨x, emptied⟩ := ptn_zeroStack p.val s
    have zeroed := zeroed_zeroStack p.val s
    refine ⟨_, congrArg Host.Outcome.next (if_pos ⟨due, forge⟩), zeroed.bytes, zeroed.clean, ?_, ?_, ?_, ?_, ?_, ?_, ?_,
      fun k held j l f => zeroStack_waits_not held⟩
    all_goals rw [emptied]
    exact deadAnvils_empty
  · have start := regionBase_line p.val r.val
    cases found : tget (ptn s p.val).regions r.val with
    | none =>
      have zeroed := zeroed_of_sameMemory start (by decide) (SameMemory.refl (zeroRange (regionBase p.val r.val) (2 ^ 24) s))
      exact ⟨_, congrArg Host.Outcome.next (zeroised_region_unlisted found r.isLt), zeroed.bytes, zeroed.clean, fun g _ listed => absurd rfl listed⟩
    | some g =>
      refine ⟨_, congrArg Host.Outcome.next (zeroised_region found (free g found)), ?_⟩
      have zeroed := zeroed_updPtn (f := fun x => { x with regions := tset x.regions r.val { g with zeroising := false } }) p.val s start
        (n := 2 ^ 24) (by decide) (fun _ => rfl)
      refine ⟨zeroed.bytes, zeroed.clean, fun g' here _ => ?_⟩
      rw [ptn_updPtn_same, tget_tset_same] at here
      exact (Option.some.inj here) ▸ rfl
  · refine congrArg Host.Outcome.next (if_neg ?_)
    rintro ⟨due, forge⟩
    rcases idle with idle | idle
    · exact absurd (due.symm.trans idle) (by decide)
    · exact idle forge
  · obtain ⟨keep, done⟩ := zeroised_saveSlot found due
    have zeroed := zeroed_updPtn (a := saveBase p.val n.val) (n := 0x05000000)
      (f := fun x => { x with saves := if keep then tset x.saves n.val { v with zeroising := false } else tdel x.saves n.val })
      p.val s (saveBase_line ..) (by decide) (fun _ => rfl)
    refine ⟨_, congrArg Host.Outcome.next done, zeroed.bytes, zeroed.clean, fun v' here => ?_⟩
    rw [ptn_updPtn_same] at here
    cases keep with
    | true =>
      rw [if_pos rfl, tget_tset_same] at here
      exact (Option.some.inj here) ▸ rfl
    | false =>
      rw [if_neg (by decide), tget_tdel_same] at here
      cases here

end Sys2Proof.Machine

/-! ### Atomics (R198, R199, R213–R216, R353, R383): what each writes and returns, when the front element of a home bank is performed -/

namespace Sys2Proof.Machine

theorem atomWidth_le (code : Nat) : atomWidth code ≤ 8 := by unfold atomWidth; split <;> omega

/-- What an atomic of a partition's own anvil leaves, performed by its home crucible: w the value written, if one is, back the bytes returned. -/
structure AtomDone (s t : State) (p code : Nat) (r : AtomReq) (rest : List AtomReq) (w : Option Nat) (back : List Byte) : Prop where
  bytes : ∀ j < 2 ^ 40, memByte t j = afterWrite s r.addr (atomWidth code) w j
  queue : (ptn t p).atomQ = rest
  lands : ∀ i k d, atomOutst s p i k d r = true →
    anvil t p i = landBytes d back (fun _ => false) { anvil s p i with outst := (anvil s p i).outst.eraseIdx k }

/-- The holder table after an atomic of a context at an address: a semaphore taken is noted, one released struck (R216). -/
def holdersAfter (code ctx addr : Nat) (wrote : Bool) (holders : Tbl (List Nat)) : Tbl (List Nat) :=
  if wrote ∧ code = 0x10 then tset holders ctx (addr :: tgetD holders ctx [])
  else if wrote ∧ code = 0x11 then tset holders ctx ((tgetD holders ctx []).filter (· ≠ addr)) else holders

/-- An atomic that writes w and returns v, with its swap flag where it is CAS64 (R214); its semaphore's holder (R216). -/
theorem atomDone_homeAtomic {p code : Nat} {r : AtomReq} {rest : List AtomReq} {s : State} {w : Option Nat} {v : Nat} (canonical : hbmOk s = true)
    (ready : atomReady s p code r rest = true) (own : r.from_.all (fun x => x.1 == p) = true) (fits : r.addr + 8 ≤ 2 ^ 40)
    (result : atomResult code r.ctx (tgetD (ptn s p).holders r.ctx []).length (atomOld s r) r.operand.toNat r.second.toNat = (w, v)) :
    AtomDone s (homeAtomic p code s) p code r rest w (leBytes 8 v ++ if code = 0x0B then leBytes 8 (if w.isSome then 1 else 0) else []) ∧
    (ptn (homeAtomic p code s) p).holders = holdersAfter code r.ctx r.addr w.isSome (ptn s p).holders := by
  have width := atomWidth_le code
  obtain ⟨bytes, queue, holders, lands⟩ := homeAtomic_local ready own canonical (by omega)
  rw [result] at bytes holders lands
  exact ⟨⟨bytes, queue, lands⟩, holders⟩

/-- An atomic other than CAS64 and the semaphores writes its new value and returns the old one. -/
theorem exec_valueAtomic {p : Fin 12} {code : Nat} {i : Instr} (row : ∀ s, exec i s = .next (homeAtomic p code s))
    (plain : code ≠ 0x0B ∧ code ≠ 0x10 ∧ code ≠ 0x11) (r : AtomReq) (rest : List AtomReq) (s : State) (canonical : hbmOk s = true)
    (ready : atomReady s p code r rest = true) (own : r.from_.all (fun x => x.1 == p.val) = true) (fits : r.addr + 8 ≤ 2 ^ 40) :
    ∃ t, exec i s = .next t ∧
      (∀ j < 2 ^ 40, memByte t j = afterWrite s r.addr (atomWidth code) (atomValue code (atomOld s r) r.operand.toNat r.second.toNat) j) ∧
      (ptn t p).atomQ = rest ∧ ∀ i k d, atomOutst s p i k d r = true →
        anvil t p i = landBytes d (leBytes 8 (atomOld s r)) (fun _ => false) { anvil s p i with outst := (anvil s p i).outst.eraseIdx k } := by
  obtain ⟨cas, acquire, release⟩ := plain
  obtain ⟨done, -⟩ := atomDone_homeAtomic canonical ready own fits (by rw [atomResult, if_neg acquire, if_neg release])
  rw [if_neg cas, List.append_nil] at done
  exact ⟨_, row s, done.bytes, done.queue, done.lands⟩

/-- SEM_ACQ and SEM_REL (R216). -/
theorem exec_semaphore {p : Fin 12} {code : Nat} {i : Instr} {r : AtomReq} {rest : List AtomReq} {s : State} {w : Option Nat} {v : Nat}
    (row : exec i s = .next (homeAtomic p code s)) (sem : code = 0x10 ∨ code = 0x11) (canonical : hbmOk s = true)
    (ready : atomReady s p code r rest = true) (own : r.from_.all (fun x => x.1 == p.val) = true) (fits : r.addr + 8 ≤ 2 ^ 40)
    (result : atomResult code r.ctx (tgetD (ptn s p).holders r.ctx []).length (atomOld s r) r.operand.toNat r.second.toNat = (w, v)) :
    ∃ t, exec i s = .next t ∧ (∀ j < 2 ^ 40, memByte t j = afterWrite s r.addr (atomWidth code) w j) ∧ (ptn t p).atomQ = rest ∧
      (ptn t p).holders = holdersAfter code r.ctx r.addr w.isSome (ptn s p).holders ∧
      ∀ i k d, atomOutst s p i k d r = true →
        anvil t p i = landBytes d (leBytes 8 v) (fun _ => false) { anvil s p i with outst := (anvil s p i).outst.eraseIdx k } := by
  obtain ⟨done, holders⟩ := atomDone_homeAtomic canonical ready own fits result
  rw [if_neg (by omega), List.append_nil] at done
  exact ⟨_, row, done.bytes, done.queue, holders, done.lands⟩

/-- Settles O28: every atomic of its own partition writes and returns what its code says; a semaphore's holder table follows. -/
theorem atomicResults : Obligations.AtomicResults := by
  refine ⟨fun p => exec_valueAtomic (fun _ => rfl) (by decide), fun p => exec_valueAtomic (fun _ => rfl) (by decide),
    fun p => exec_valueAtomic (fun _ => rfl) (by decide), fun p => exec_valueAtomic (fun _ => rfl) (by decide),
    fun p => exec_valueAtomic (fun _ => rfl) (by decide), fun p => exec_valueAtomic (fun _ => rfl) (by decide),
    fun p => exec_valueAtomic (fun _ => rfl) (by decide), fun p => exec_valueAtomic (fun _ => rfl) (by decide),
    fun p => exec_valueAtomic (fun _ => rfl) (by decide), fun p => exec_valueAtomic (fun _ => rfl) (by decide),
    fun p r rest s canonical ready own fits => ?_, fun p => exec_valueAtomic (fun _ => rfl) (by decide),
    fun p => exec_valueAtomic (fun _ => rfl) (by decide), fun p => exec_valueAtomic (fun _ => rfl) (by decide),
    fun p r rest s canonical ready own fits unheld few => ?_, fun p r rest s canonical ready own fits taken few => ?_,
    fun p r rest s canonical ready own fits many => ?_, fun p r rest s canonical ready own fits held owner => ?_,
    fun p r rest s canonical ready own fits foreign => ?_⟩
  · obtain ⟨done, -⟩ := atomDone_homeAtomic (code := 0x0B) canonical ready own fits rfl
    refine ⟨_, rfl, done.bytes, done.queue, fun i k d out => (done.lands i k d out).trans ?_⟩
    have swapped : (atomValue 0x0B (atomOld s r) r.operand.toNat r.second.toNat).isSome = true ↔ atomOld s r = r.operand.toNat := by
      change (if atomOld s r = r.operand.toNat then some r.second.toNat else none).isSome = true ↔ _
      split <;> simp_all
    simp only [if_true, swapped]
  · exact exec_semaphore rfl (.inl rfl) canonical ready own fits (by rw [atomResult, if_pos rfl, if_neg (Nat.not_le.2 few), if_pos unheld, unheld])
  · exact exec_semaphore rfl (.inl rfl) canonical ready own fits (by rw [atomResult, if_pos rfl, if_neg (Nat.not_le.2 few), if_neg taken])
  · exact exec_semaphore rfl (.inl rfl) canonical ready own fits (by rw [atomResult, if_pos rfl, if_pos many]; rfl)
  · refine exec_semaphore rfl (.inr rfl) canonical ready own fits ?_
    rw [atomResult, if_neg (by decide), if_pos rfl, if_pos (by simp [held, owner])]
  · refine exec_semaphore rfl (.inr rfl) canonical ready own fits ?_
    rw [atomResult, if_neg (by decide), if_pos rfl, if_neg (by rcases foreign with f | f <;> simp [f])]

/-! #### Order (R198, R199, R213) -/

theorem exec_atomRow {p : Fin 12} {k : Nat × Instr} (row : k ∈ atomRows p) (s : State) : exec k.2 s = .next (homeAtomic p k.1 s) := by
  simp only [atomRows, List.mem_cons, List.not_mem_nil, or_false] at row
  rcases row with rfl | rfl | rfl | rfl | rfl | rfl | rfl | rfl | rfl | rfl | rfl | rfl | rfl | rfl | rfl | rfl <;> rfl

/-- The home bank with the element at its front taken. -/
def atomTaken (p : Nat) (rest : List AtomReq) (s : State) : State := updPtn p (fun x => { x with atomQ := rest }) s

section Front

variable {p code : Nat} {r : AtomReq} {rest : List AtomReq} {s : State}

theorem homeAtomic_of_other (other : ∀ x, (ptn s p).atomQ.head? = some x → x.code ≠ code) : homeAtomic p code s = s := by
  unfold homeAtomic
  cases queue : (ptn s p).atomQ with
  | nil => rfl
  | cons r rest => exact if_pos (.inl (other r (by rw [queue]; rfl)))

variable (front : (ptn s p).atomQ = r :: rest)
include front

theorem homeAtomic_of_behind (behind : atomBehind s r = true) : homeAtomic p code s = s := by
  unfold homeAtomic
  rw [front]
  exact if_pos (.inr behind)

theorem homeAtomic_of_stopped (near : (pastDrain (ptn s p) && r.from_.any fun f => f.1 != p) = false) (stopped : anvilClock (ptn s p) = false) :
    homeAtomic p code s = s := by
  unfold homeAtomic
  rw [front]
  dsimp only
  split
  · rfl
  · rw [if_neg (by cases from_ : r.from_ <;> simp_all), stopped]
    rfl

variable (own : r.code = code) (first : atomBehind s r = false)
include own first

theorem homeAtomic_of_fenced (past : pastDrain (ptn s p) = true) (far : (r.from_.any fun f => decide (f.1 ≠ p)) = true) :
    homeAtomic p code s = failAll (atomCmds s r) .fenced (fenceCode (ptn s p)) (returnOld r 0 false (atomTaken p rest s)) := by
  unfold homeAtomic
  rw [front]
  dsimp only
  rw [if_neg (by simp [own, first]), if_pos ⟨past, far⟩]
  rfl

variable (clock : anvilClock (ptn s p) = true)
include clock

/-- An element of the partition's own anvils, or one that no anvil waits for, is performed at once (R213). -/
theorem homeAtomic_of_near (near : r.from_.all (fun x => x.1 == p) = true) : homeAtomic p code s = performAtom p r (atomTaken p rest s) := by
  unfold homeAtomic
  rw [front]
  dsimp only
  rw [if_neg (by simp [own, first]), if_neg (by cases from_ : r.from_ <;> simp_all), if_neg (by simp [clock])]
  cases from_ : r.from_ with
  | none => rfl
  | some f =>
    rw [from_] at near
    exact if_pos (.inl (by simpa using near))

variable {q i : Nat} (from_ : r.from_ = some (q, i)) (far : q ≠ p) (open_ : pastDrain (ptn s p) = false)
include from_ far open_

/-- An element of another partition: performed once granted, else it draws its tokens or waits (R199). -/
theorem homeAtomic_of_far : homeAtomic p code s =
    if r.granted then performAtom p r (atomTaken p rest s)
    else if r.issued && r.waits then s
    else match issueAtom p q r s with
      | (u, false) => u
      | (u, true) =>
        if (ptn u p).farQ.isEmpty then
          match takeReceive p 1 u with
          | some v => performAtom p r (atomTaken p rest v)
          | none => noteReceiveWait (some q) p 1 (setAtomHead p { r with issued := true, waits := true } u)
        else noteReceiveWait (some q) p 1 (setAtomHead p { r with issued := true, waits := true } u) := by
  unfold homeAtomic
  rw [front]
  dsimp only
  rw [if_neg (by simp [own, first]), if_neg (by simp [open_]), if_neg (by simp [clock]), from_]
  dsimp only
  by_cases granted : r.granted = true
  · rw [if_pos (.inr granted), if_pos granted]
    rfl
  · rw [if_neg (by simp [far, granted]), if_neg granted]
    rfl

end Front

theorem takeIssue_far {p q n : Nat} {s u : State} (drawn : takeIssue (some q) p n s = some u) : u.hbm = s.hbm ∧ (ptn u p).atomQ = (ptn s p).atomQ := by
  unfold takeIssue at drawn
  dsimp only at drawn
  split at drawn
  · obtain rfl := Option.some.inj drawn
    have kept := drawSeam_keeps (some q) p (tokens n) (updReg q (fun r => { r with issTok := r.issTok - tokens n }) s)
    exact ⟨kept.same_hbm, by rw [ptn_of p kept.same_ptns]; exact ptn_updReg (·.atomQ) (fun _ _ => rfl) ..⟩
  · cases drawn

theorem issueAtom_granted {p q : Nat} {r : AtomReq} {rest : List AtomReq} {s u : State} (front : (ptn s p).atomQ = r :: rest)
    (drawn : issueAtom p q r s = (u, true)) : u.hbm = s.hbm ∧ (ptn u p).atomQ.tail = rest := by
  unfold issueAtom at drawn
  split at drawn
  · obtain ⟨rfl, -⟩ := Prod.mk.inj drawn
    exact ⟨rfl, by rw [front]; rfl⟩
  · split at drawn
    · next v taken =>
      obtain ⟨rfl, -⟩ := Prod.mk.inj drawn
      obtain ⟨hbm, queue⟩ := takeIssue_far taken
      refine ⟨hbm, ?_⟩
      rw [setAtomHead, ptn_updPtn_same, queue, front]
      rfl
    · split at drawn <;> exact absurd (Prod.mk.inj drawn).2 (by decide)

theorem issueAtom_of_none {p q : Nat} {r : AtomReq} {s : State} (fresh : r.issued = false) (none_ : takeIssue (some q) p 1 s = none) :
    issueAtom p q r s = if r.waits || issueHas (some q) (tokens 1) s then (s, false)
      else (updReg q (fun g => { g with issWaited := g.issWaited + 1 }) (setAtomHead p { r with waits := true } s), false) := by
  rw [issueAtom, if_neg (by simp [fresh]), none_]

theorem noteReceiveWait_far (p q n : Nat) (s : State) :
    (noteReceiveWait (some q) p n s).hbm = s.hbm ∧ (ptn (noteReceiveWait (some q) p n s) p).atomQ = (ptn s p).atomQ :=
  ⟨rfl, (ptn_updReg (·.atomQ) (fun _ _ => rfl) ..).trans (ptn_updReg (·.atomQ) (fun _ _ => rfl) ..)⟩

theorem performAtom_of_foreign {p : Nat} {r : AtomReq} {s : State} (foreign : ownsHome s r.ctx p = false) :
    performAtom p r s = returnOld r 0 false (refuseAccess p r.ctx s) := if_pos (by rw [foreign]; rfl)

theorem performAtom_of_poisoned {p : Nat} {r : AtomReq} {s : State} (owns : ownsHome s r.ctx p = true) (poisoned : wordPoisoned s r.addr = true) :
    performAtom p r s = failAll (atomCmds s r) .uncorrectable (atomPoison r) (returnOld r 0 false s) := by
  rw [performAtom, if_neg (by rw [owns]; decide), if_pos poisoned]

theorem ownsHome_atomTaken (p : Nat) (rest : List AtomReq) (s : State) (ctx : Nat) : ownsHome (atomTaken p rest s) ctx p = ownsHome s ctx p := by
  rw [ownsHome, atomTaken, ptn_updPtn_same]
  rfl

theorem SameMemory.wordPoisoned_eq {s t : State} (h : SameMemory s t) (a : Nat) : wordPoisoned t a = wordPoisoned s a := by
  simp only [wordPoisoned, wcbEnt, h.poison, h.wcb]

theorem sameMemory_atomTaken (p : Nat) (rest : List AtomReq) (s : State) : SameMemory s (atomTaken p rest s) :=
  ⟨rfl, rfl, ptn_updPtn_of (·.wcb) fun _ => rfl⟩

theorem atomCmds_atomTaken (p : Nat) (rest : List AtomReq) (s : State) (r : AtomReq) : atomCmds (atomTaken p rest s) r = atomCmds s r := by
  have anvils (q : Nat) : (ptn (atomTaken p rest s) q).anvils = (ptn s q).anvils := by
    unfold atomTaken
    exact ptn_updPtn_of (·.anvils) (by exact fun _ => rfl) q
  simp only [atomCmds, anvil, anvils]

/-- Settles O29: the branches of the home bank for its front element, a near one and a far one. -/
theorem atomicOrder : Obligations.AtomicOrder := by
  refine ⟨fun p k s row other => ?_, fun p k s row stopped near => ?_, fun p k r rest s q i row front own first from_ far past => ?_,
    fun p k r rest s q i row front own first from_ far open_ clock => ⟨fun granted => ?_, fun fresh issued waits => ?_⟩,
    fun p k r rest s row front own clock behind => ?_,
    fun p k r rest s q i row front own clock first from_ far open_ fresh unissued none_ => ?_,
    fun p k r rest s q i u row front own clock first from_ far open_ fresh ready drawn blocked => ?_,
    fun p k r rest s q i u v row front own clock first from_ far open_ fresh ready drawn empty received => ?_,
    fun p k r rest s row front own clock first near foreign => ?_, fun p k r rest s row front own clock first near owns poisoned => ?_⟩
  all_goals rw [exec_atomRow row]
  · rw [homeAtomic_of_other other]
  · cases queue : (ptn s p).atomQ with
    | nil => rw [homeAtomic_of_other (by simp [queue])]
    | cons r rest => rw [homeAtomic_of_stopped queue (near r (by rw [queue]; rfl)) stopped]
  · rw [homeAtomic_of_fenced front own first past (by simp [from_, far])]
    rfl
  · rw [homeAtomic_of_far front own first clock from_ far open_, if_pos granted]
    rfl
  · rw [homeAtomic_of_far front own first clock from_ far open_, if_neg (by simp [fresh]), if_pos (by simp [issued, waits])]
  · rw [homeAtomic_of_behind front behind]
  · rw [homeAtomic_of_far front own first clock from_ far open_, if_neg (by simp [fresh]), if_neg (by simp [unissued]), issueAtom_of_none unissued none_]
    by_cases waits : (r.waits || issueHas (some q) (tokens 1) s) = true
    · rw [if_pos waits]
      have same : (r.waits || !issueHas (some q) (tokens 1) s) = r.waits := by
        cases w : r.waits
        · rw [w, Bool.false_or] at waits
          rw [waits]
          rfl
        · rfl
      exact ⟨s, rfl, by rw [same, front], rfl, by simp [waits]⟩
    · rw [if_neg waits]
      rw [Bool.or_eq_true, not_or, Bool.not_eq_true, Bool.not_eq_true] at waits
      obtain ⟨idle, short⟩ := waits
      refine ⟨_, rfl, ?_, rfl, ?_⟩
      · refine (ptn_updReg (·.atomQ) (fun _ _ => rfl) ..).trans ?_
        rw [setAtomHead, ptn_updPtn_same, front, idle, short]
        rfl
      · rw [updReg, ptn_updPtn_same, setAtomHead, ptn_updPtn_other _ _ far, idle, short]
        rfl
  · obtain ⟨hbm, tail⟩ := issueAtom_granted front drawn
    obtain ⟨hbm', queue⟩ := noteReceiveWait_far p q 1 (setAtomHead p { r with issued := true, waits := true } u)
    refine ⟨_, ?_, ?_, hbm'.trans hbm⟩
    rotate_left
    · rw [queue, setAtomHead, ptn_updPtn_same, tail]
    · rw [homeAtomic_of_far front own first clock from_ far open_, if_neg (by simp [fresh]), if_neg (by simp [ready]), drawn]
      dsimp only
      rcases blocked with queued | empty
      · rw [if_neg (by simpa using queued)]
      · rw [empty]
        simp
  · rw [homeAtomic_of_far front own first clock from_ far open_, if_neg (by simp [fresh]), if_neg (by simp [ready]), drawn]
    dsimp only
    rw [empty, received]
    rfl
  · rw [homeAtomic_of_near front own first clock near, performAtom_of_foreign ((ownsHome_atomTaken ..).trans foreign)]
    rfl
  · rw [homeAtomic_of_near front own first clock near, performAtom_of_poisoned ((ownsHome_atomTaken ..).trans owns) ?_, atomCmds_atomTaken]
    · rfl
    · rw [(sameMemory_atomTaken p.val rest s).wordPoisoned_eq, poisoned]

end Sys2Proof.Machine

/-! ### Requests at their home (R195, R240, R249): a read in a block whose contexts are listed out of order -/

namespace Sys2Proof.Machine

set_option Elab.async false

/-- Two contexts of job 0, listed in descending order, and partition 0 in FORGE, owned by that job; b is the byte of HBM at 0x2000, the third record
of the context area. -/
def outOfOrder (b : Byte) : State :=
  { State.reset with
    ptns := [(0, { power := .forge, job := some 0 })], ctxs := [(5, { job := 0, home := 0 }), (3, { job := 0, home := 0 })]
    hbm := mwrite [] 0x2000 b }

/-- An engine of partition 0 reads that byte for context 3. -/
def areaRead : HomeReq := { issuer := some 0, ctx := some 3, addr := 0x2000, len := 1, write := none }

theorem viewByte_outOfOrder_zero : viewByte (outOfOrder 0) 0x2000 = 0 := by decide +kernel
theorem viewByte_outOfOrder_one : viewByte (outOfOrder 1) 0x2000 = 1 := by decide +kernel

/-- The count of the read (R240) lists context 3 a second time: three records then lie in the context area, the third at 0x2000. -/
theorem answer_outOfOrder (b : Byte) (t : State) (next : exec (.memoryRequest (.engine 0 3 none) ⟨⟨0x2000, 1, none⟩, .clean⟩) (outOfOrder b) = .next t) :
    t.host.answer = .data [Config.areaByte 0x2000 0] false := by
  obtain rfl := Host.Outcome.next.inj next
  rfl

/-- Refutes O30: of an engine's read it says that the answer is what the memory showed before; counting the read lists its context anew where the
table of contexts, which the statement leaves free, is out of order, and one more record then lies in the context area. -/
theorem not_memoryRequests : ¬ Obligations.MemoryRequests := by
  unfold Obligations.MemoryRequests
  intro h
  obtain ⟨-, -, -, -, -, -, read, -⟩ := h
  have shown (b : Byte) : viewByte (outOfOrder b) 0x2000 = Config.areaByte 0x2000 0 := by
    obtain ⟨t, next, -, answered⟩ := read (.engine 0 3 none) ⟨0x2000, 1, none⟩ .clean areaRead (outOfOrder b) rfl (by decide) rfl rfl rfl rfl
      (Memory.mwrite_wf _ _ rfl) rfl rfl (by exact Nat.zero_le _)
    rw [answer_outOfOrder b t next] at answered
    exact ((List.cons.inj (Answer.data.inj answered).1).1).symm
  exact absurd ((shown 0).trans (shown 1).symm) (by rw [viewByte_outOfOrder_zero, viewByte_outOfOrder_one]; decide)

end Sys2Proof.Machine

/-! ### Write-combining fences (R205, R208): two that name one line -/

namespace Sys2Proof.Machine

/-- A byte is buffered for line 0 of partition 0, and two fences that wait there name that line. -/
def fencedTwice : State :=
  { State.reset with
    ptns := [(0, { wcb := [{ idx := 0, mask := 1, bytes := [7] }],
                   wcFences := [{ why := .zeroise, lines := [0] }, { why := .batch 1, lines := [0] }] })] }

/-- The line that the first fence writes out leaves the second one too (R208). -/
theorem fences_fencedTwice (t : State) (next : exec (.wcFence ⟨0, []⟩) fencedTwice = .next t) :
    (ptn t 0).wcFences = [{ why := .batch 1, lines := [] }] := by
  obtain rfl := Host.Outcome.next.inj next
  rfl

/-- Refutes O31: of a fence that completes it says that the fences behind it stay as they were; a line that it writes out and that one of them names
too has left that one's lines. -/
theorem not_memoryEvents : ¬ Obligations.MemoryEvents := by
  unfold Obligations.MemoryEvents
  intro h
  obtain ⟨-, -, -, -, completes, -⟩ := h
  obtain ⟨t, next, -, -, behind⟩ := completes 0 [0] [{ why := .batch 1, lines := [0] }] .zeroise fencedTwice rfl rfl rfl
  rw [show ((0 : Fin 12) : Nat) = 0 from rfl, fences_fencedTwice t next] at behind
  exact absurd behind (by decide)

end Sys2Proof.Machine

/-! ### Who gets an anvil (R217, R235, R242–R248, R250, R251, R253): binding and resuming, the slot's order, taking anvils, kills -/

namespace Sys2Proof.Machine

/-! #### The order of the current slot (R235) -/

theorem shareBefore_asymm {x : Ptn} {a b : Nat} (before : shareBefore x a b = true) : shareBefore x b a = false := by
  simp only [shareBefore, Bool.or_eq_true, Bool.and_eq_true, decide_eq_true_eq, beq_iff_eq, Bool.or_eq_false_iff, Bool.and_eq_false_iff,
    decide_eq_false_iff_not, beq_eq_false_iff_ne] at *
  omega

/-- Work behind work that is behind other work is behind that too. -/
theorem shareBefore_not_trans {x : Ptn} {a b c : Nat} (ab : shareBefore x a b = false) (bc : shareBefore x b c = false) : shareBefore x a c = false := by
  simp only [shareBefore, Bool.or_eq_false_iff, Bool.and_eq_false_iff, decide_eq_false_iff_not, beq_eq_false_iff_ne] at *
  omega

theorem workBefore_asymm {x : Ptn} {a b : Rank} (before : workBefore x a b = true) : workBefore x b a = false := by
  have share := fun h => shareBefore_asymm (x := x) (a := a.ctx) (b := b.ctx) h
  simp only [workBefore, Bool.or_eq_true, Bool.and_eq_true, decide_eq_true_eq, beq_iff_eq, Bool.or_eq_false_iff, Bool.and_eq_false_iff,
    decide_eq_false_iff_not, beq_eq_false_iff_ne] at *
  refine ⟨by omega, ?_⟩
  rcases before with place | ⟨place, kind | ⟨kind, ctx⟩⟩
  · exact .inl (by omega)
  · exact .inr ⟨by omega, .inl (by omega)⟩
  · exact .inr ⟨by omega, .inr (share ctx)⟩

theorem workBefore_irrefl (x : Ptn) (a : Rank) : workBefore x a a = false := by
  by_contra before
  exact before (workBefore_asymm (Bool.eq_true_of_not_eq_false before))

theorem workBefore_not_trans {x : Ptn} {a b c : Rank} (ab : workBefore x a b = false) (bc : workBefore x b c = false) : workBefore x a c = false := by
  have share := fun h h' => shareBefore_not_trans (x := x) (a := a.ctx) (b := b.ctx) (c := c.ctx) h h'
  simp only [workBefore, Bool.or_eq_false_iff, Bool.and_eq_false_iff, decide_eq_false_iff_not, beq_eq_false_iff_ne] at *
  obtain ⟨abPlace, abRest⟩ := ab
  obtain ⟨bcPlace, bcRest⟩ := bc
  refine ⟨by omega, ?_⟩
  rcases abRest with apart | ⟨abKind, abShare⟩
  · exact .inl (by omega)
  · rcases bcRest with apart | ⟨bcKind, bcShare⟩
    · exact .inl (by omega)
    · refine .inr ⟨by omega, ?_⟩
      rcases abShare with apart | abShare
      · exact .inl (by omega)
      · rcases bcShare with apart | bcShare
        · exact .inl (by omega)
        · exact .inr (share abShare bcShare)

/-- The first work waits, and nothing that waits comes before it (R235). -/
theorem firstWork_first {s : State} {p : Nat} {ws : List Waiting} {w : Waiting} (first : firstWork s p ws = some w) :
    w ∈ ws ∧ ∀ v ∈ ws, workBefore (ptn s p) (workOf s v) (workOf s w) = false := by
  induction ws generalizing w with
  | nil => cases first
  | cons a t ih =>
    unfold firstWork at first
    cases rest : firstWork s p t with
    | none =>
      rw [rest] at first
      cases t with
      | nil =>
        obtain rfl := Option.some.inj first
        exact ⟨List.mem_cons_self, fun v h => by rw [List.mem_singleton.mp h]; exact workBefore_irrefl ..⟩
      | cons b t =>
        unfold firstWork at rest
        split at rest
        · cases rest
        · split at rest <;> cases rest
    | some b =>
      obtain ⟨inside, least⟩ := ih rest
      rw [rest] at first
      dsimp only at first
      split at first
      · obtain rfl := Option.some.inj first
        rename_i before
        exact ⟨List.mem_cons_of_mem _ inside, List.forall_mem_cons.mpr ⟨workBefore_asymm before, least⟩⟩
      · obtain rfl := Option.some.inj first
        rename_i behind
        exact ⟨List.mem_cons_self, List.forall_mem_cons.mpr ⟨workBefore_irrefl .., fun v h =>
          workBefore_not_trans (least v h) (Bool.eq_false_of_not_eq_true behind)⟩⟩

/-! #### A free anvil (R235, R243, R246) -/

section Free

variable {s : State} {p i : Nat}

theorem takeWork_of_first {w : Waiting} (issue : issues s p = true) (free : bindable (anvil s p i) = true)
    (first : firstWork s p (waitingFor s p i) = some w) : takeWork p i s = startWork p i s w := by
  simp only [takeWork, issue, free, Bool.and_self, Bool.not_true, Bool.false_eq_true, if_false, first]

theorem takeWork_of_nothing (idle : issues s p = false ∨ bindable (anvil s p i) = false ∨ firstWork s p (waitingFor s p i) = none) :
    takeWork p i s = s := by
  unfold takeWork
  split
  · rfl
  · rename_i free
    rcases idle with idle | idle | none
    · simp [idle] at free
    · simp [idle] at free
    · rw [none]

theorem head_of_lane {ls : List LaneReq} {l : LaneReq} {k : Cmd} (head : ls.head? = some l) (lead : laneCmd s l = some k) :
    ls.head?.bind (laneCmd s) = some k := by rw [head]; exact lead

/-- The anvil holds the chunk that it was bound for, and is open (R62, R242). -/
theorem bindAnvil_holds {n : Nat} {ls : List LaneReq} {k : Cmd} (chunk : Option Chunk) (lead : ls.head?.bind (laneCmd s) = some k) :
    (anvil (bindAnvil p i n ls chunk s) p i).chunk = chunk ∧ (anvil (bindAnvil p i n ls chunk s) p i).closing = false := by
  simp only [bindAnvil, lead, anvil_updAnvil_same]
  exact ⟨rfl, rfl⟩

theorem ptn_updAnvil_of {β : Type} (g : Ptn → β) (f : Anvil → Anvil) (hg : ∀ (x : Ptn) as, g { x with anvils := as } = g x) (s : State) :
    g (ptn (updAnvil p i f s) p) = g (ptn s p) := by
  rw [updAnvil, ptn_updPtn_same, hg]

theorem chunkQ_bindAnvil {n : Nat} {ls : List LaneReq} (chunk : Option Chunk) (s : State) :
    (ptn (bindAnvil p i n ls chunk s) p).chunkQ = (ptn s p).chunkQ := by
  unfold bindAnvil
  split
  · rfl
  · exact ptn_updAnvil_of (·.chunkQ) _ (fun _ _ => rfl) s

/-- A chunk of lanes starts on its first descriptor and leaves the queue (R242). -/
theorem bindChunk_of_lanes {c : Chunk} {d : Desc} {ds : List Desc} {l : LaneReq} {k : Cmd} (exact3 : c.kind = 3) (bricks : c.bricks = d :: ds)
    (head : d.lanes.head? = some l) (lead : laneCmd s l = some k) :
    (anvil (bindChunk p i c s) p i).lanes = d.lanes ∧ (anvil (bindChunk p i c s) p i).pattern = d.pattern ∧
    (anvil (bindChunk p i c s) p i).st = .running ∧ (anvil (bindChunk p i c s) p i).chunk = some { c with start := c.bricks } ∧
    (ptn (bindChunk p i c s) p).chunkQ = removeFirst c (ptn s p).chunkQ := by
  have taken : bindChunk p i c s = bindAnvil p i d.pattern d.lanes (some { c with start := c.bricks })
      (updPtn p (fun x => { x with chunkQ := removeFirst c x.chunkQ }) s) := by
    simp only [bindChunk, exact3, ne_eq, not_true, if_false, bricks]
  have lead' : d.lanes.head?.bind (laneCmd (updPtn p (fun x => { x with chunkQ := removeFirst c x.chunkQ }) s)) = some k := head_of_lane head lead
  obtain ⟨running, pattern, lanes, -, -, -, -⟩ := bindAnvil_starts (p := p) (i := i) (n := d.pattern) (some { c with start := c.bricks }) lead'
  rw [taken]
  exact ⟨lanes, pattern, running, (bindAnvil_holds _ lead').1, by rw [chunkQ_bindAnvil, ptn_updPtn_same]⟩

/-- A chunk whose pattern runs as a whole starts and leaves the queue (R242). -/
theorem bindChunk_of_whole {c : Chunk} (whole : c.kind ≠ 3) :
    (anvil (bindChunk p i c s) p i).st = .running ∧ (anvil (bindChunk p i c s) p i).lanes = [] ∧
    (anvil (bindChunk p i c s) p i).pattern = chunkPattern c.kind ∧ (anvil (bindChunk p i c s) p i).chunk = some { c with start := c.bricks } ∧
    (ptn (bindChunk p i c s) p).chunkQ = removeFirst c (ptn s p).chunkQ := by
  unfold bindChunk startChunk
  rw [if_pos whole]
  dsimp only
  rw [anvil_updAnvil_same]
  exact ⟨rfl, rfl, rfl, rfl, (ptn_updAnvil_of (·.chunkQ) _ (fun _ _ => rfl) _).trans (by rw [ptn_updPtn_same])⟩

/-- A record leaves its slot as it resumes (R246, R250). -/
theorem resume_leaves {n : Nat} {b : Nat × Anvil} {v : SaveSlot} (slot : tget (ptn s p).saves n = some v) :
    (tget (ptn (resume p i n b s) p).saves n).all (fun w => w.anvils.all fun e => e.1 != b.1) = true := by
  unfold resume
  dsimp only
  rw [ptn_updAnvil_of (·.saves) _ (fun _ _ => rfl), ptn_updPtn_same, slot]
  dsimp only
  split
  · rw [tget_tdel_same]; rfl
  · simp [Decidable.em]

/-- The anvil runs on from the step and with the selection that were saved (R246). -/
theorem resume_resumes (n : Nat) (b : Nat × Anvil) (s : State) :
    (anvil (resume p i n b s) p i).st = .running ∧ (anvil (resume p i n b s) p i).lanes = b.2.lanes ∧ (anvil (resume p i n b s) p i).chunk = b.2.chunk ∧
    (anvil (resume p i n b s) p i).sel = b.2.sel ∧ (anvil (resume p i n b s) p i).cnt = b.2.cnt ∧ (anvil (resume p i n b s) p i).preempt = false ∧
    (anvil (resume p i n b s) p i).step - (anvil (resume p i n b s) p i).base = b.2.step - b.2.base := by
  unfold resume
  dsimp only
  rw [anvil_updAnvil_same]
  exact ⟨rfl, rfl, rfl, rfl, rfl, rfl, Nat.add_sub_cancel_left ..⟩

/-- The record of a yielded anvil is in its slot, the anvil empty (R246). -/
theorem saveRecord_saves {n : Nat} {v : SaveSlot} (slot : tget (ptn s p).saves n = some v) :
    ∃ u, saveRecord p i n s = takeWork p i u ∧
      tget (ptn u p).saves n = some { v with anvils := tset v.anvils i { anvil s p i with preempt := false } } ∧
      anvil u p i = { usable := (anvil s p i).usable, ceCnt := (anvil s p i).ceCnt, local_ := (anvil s p i).local_, poisoned := (anvil s p i).poisoned } := by
  refine ⟨_, rfl, ?_, ?_⟩
  · rw [ptn_updAnvil_of (·.saves) _ (fun _ _ => rfl), ptn_updPtn_same, slot]
    exact tget_tset_same ..
  · rw [anvil_updAnvil_same, anvil_updPtn fun x => by split <;> rfl]

end Free

/-! #### Taking anvils (R244, R245, R251) -/

section Taking

variable {s : State} {p r : Nat}

/-- The first descriptor of a row, that work waiting for the same anvils does not precede, asks for the anvil that may be taken (R245). -/
theorem takeAnvil_of_victim {w : Waiting} {a : Nat × Anvil} (issue : issues s p = true) (near : anvilNear s p r = false)
    (first : firstWork s p (((ptn s p).rowQ.filter fun d => d.1 == r && d.2.lanes.all (laneOk s p)).map Waiting.desc) = some w)
    (leads : ((rivals s p r).any fun v => workBefore (ptn s p) (workOf s v) (workOf s w)) = false)
    (victim : victimFor s p r (workOf s w) = some a) : takeAnvil p r s = requestAnvil p a.1 s := by
  simp only [takeAnvil, issue, near, Bool.not_true, Bool.or_self, Bool.false_eq_true, if_false, first, leads, victim]

theorem takeAnvil_of_nothing {w : Option Waiting}
    (first : firstWork s p (((ptn s p).rowQ.filter fun d => d.1 == r && d.2.lanes.all (laneOk s p)).map Waiting.desc) = w)
    (idle : issues s p = false ∨ anvilNear s p r = true ∨
      w.all (fun w => (rivals s p r).any (fun v => workBefore (ptn s p) (workOf s v) (workOf s w)) || (victimFor s p r (workOf s w)).isNone) = true) :
    takeAnvil p r s = s := by
  unfold takeAnvil
  dsimp only
  rw [first]
  split
  · rfl
  · rename_i ready
    have barred : w.all (fun w => (rivals s p r).any (fun v => workBefore (ptn s p) (workOf s v) (workOf s w)) || (victimFor s p r (workOf s w)).isNone) = true := by
      rcases idle with idle | idle | barred
      · simp [idle] at ready
      · simp [idle] at ready
      · exact barred
    cases w with
    | none => rfl
    | some w =>
      dsimp only
      split
      · rfl
      · rename_i leads
        rw [Option.all_some, Bool.eq_false_of_not_eq_true leads, Bool.false_or, Option.isNone_iff_eq_none] at barred
        rw [barred]

/-- The anvil that is asked for keeps its work until it yields (R244); the others hear nothing. -/
theorem requestAnvil_asks {i : Nat}
    (saves : ((anvil s p i).chunk.isSome || (saveSlot (ptn s p) (anvCtx s (anvil s p i))).isSome || holdsSemaphore (anvCtx s (anvil s p i)) s) = true) :
    requestAnvil p i s = updAnvil p i (fun a => { a with preempt := true }) s := by
  refine if_neg fun kills => ?_
  simp only [Bool.and_eq_true, Option.isNone_iff_eq_none, Bool.not_eq_true'] at kills
  obtain ⟨⟨whole, slots⟩, holds⟩ := kills
  simp [whole, slots, holds] at saves

/-- Without a save slot left the context's commands are killed instead (R251). -/
theorem requestAnvil_kills {i : Nat}
    (lost : ((anvil s p i).chunk.isSome || (saveSlot (ptn s p) (anvCtx s (anvil s p i))).isSome || holdsSemaphore (anvCtx s (anvil s p i)) s) = false) :
    requestAnvil p i s = killHere p (anvCtx s (anvil s p i)) s := by
  simp only [Bool.or_eq_false_iff, Option.isSome_eq_false_iff] at lost
  obtain ⟨⟨whole, slots⟩, holds⟩ := lost
  exact if_pos (by rw [whole, slots, holds]; rfl)

end Taking

/-! #### Kills (R247, R248) -/

section Kills

variable {s : State} {c : Nat} {x : Cmd}

/-- What a kill may withdraw: a search or an ingest command that is neither committed nor bound to commit. -/
theorem killable_opcode (work : isSearch x.opcode = true ∨ isIngest x.opcode = true) : ¬ x.opcode < 0x10 ∧ x.opcode ≠ 0x28 ∧ x.opcode ≠ 0x30 := by
  simp only [isSearch, isIngest, Bool.or_eq_true, beq_iff_eq] at work
  omega

/-- A command sent back to its start: its run and its kills one higher, nothing probed or counted (R247). -/
def sentBack (s : State) (x : Cmd) : Cmd :=
  { x with
    kills := x.kills + 1, run := x.run + 1, rerun := true, expLen := 0, rows := restartRows s x, pairs := if x.opcode = 0x12 then x.pairs else 0, pairsDone := 0
    deadlineHit := x.stopped, ownHit := x.stopped, peerPairs := 0, peerDone := 0
    sat := false, dedup := false, nan := 0, peersReady := [], peersDone := []
    stage := if x.stage = .awaitPayload ∨ x.stage = .reading then x.stage else if isIngest x.opcode then .assigning else .running }

/-- The state once a killed command's modules have been told, its batch withdrawn and its work dropped (R186, R247, R344). -/
def strippedOf (s : State) (c : Nat) (x : Cmd) : State := dropWork (· == c) (withdraw c (abortAll x c 0 .ok s))

/-- A kill that is not the fourth sends the command back to its start and queues its work again. -/
theorem killCmd_eq (found : cmd? s c = some x) (work : isSearch x.opcode = true ∨ isIngest x.opcode = true)
    (stage : x.stage = .running ∨ x.stage = .queued) (open_ : settledBatch x = false) (root : x.origin = none) (kills : x.kills < 3) :
    killCmd c s = forwardCmd c (requeueChunk x c (spend (x.rows.length * planishChoices (coll (strippedOf s c x) x.coll).d)
      (updCmd c (sentBack (strippedOf s c x)) (strippedOf s c x)))) := by
  obtain ⟨op, flush, drop⟩ := killable_opcode work
  have live : x.stage ≠ .final ∧ x.stage ≠ .done := by rcases stage with h | h <;> rw [h] <;> decide
  unfold killCmd
  rw [found]
  dsimp only
  rw [if_neg (by simp [live, open_, op, flush, drop]), root]
  dsimp only
  rw [if_neg (by omega)]
  rfl

/-- The command after a kill that is not the fourth: sent back to its start, z being what its withdrawal left of it. -/
theorem killCmd_cmd {z : Cmd} (found : cmd? s c = some x) (work : isSearch x.opcode = true ∨ isIngest x.opcode = true)
    (stage : x.stage = .running ∨ x.stage = .queued) (open_ : settledBatch x = false) (root : x.origin = none) (kills : x.kills < 3)
    (withdrawn : cmd? (withdraw c (abortAll x c 0 .ok s)) c = some z) :
    ∃ n, cmd? (killCmd c s) c = some (sentBack (strippedOf s c x) { z with anvilCyc := n }) := by
  obtain ⟨n, stripped⟩ := (charged_dropWork (· == c) (withdraw c (abortAll x c 0 .ok s))).cmd c _ withdrawn
  refine ⟨n, ?_⟩
  rw [killCmd_eq found work stage open_ root kills, cmd_of c (k_forwardCmd (within_self _) _ (Keeps.refl _ _)).same_cmds,
    cmd_of c (k_requeueChunk (within_self _) _ _ (Keeps.refl _ _)).same_cmds, cmd_of c (spend_cmds ..)]
  exact cmd_updCmd _ stripped

theorem restartRows_length (s : State) (x : Cmd) : (restartRows s x).length = x.rows.length := by simp [restartRows]

/-- A killed search starts again with its tag, holds and snapshot (R247). -/
theorem killCmd_search (found : cmd? s c = some x) (search : isSearch x.opcode = true) (stage : x.stage = .running) (root : x.origin = none)
    (kills : x.kills < 3) :
    ∃ y, cmd? (killCmd c s) c = some y ∧ y.kills = x.kills + 1 ∧ y.run = x.run + 1 ∧ y.rerun = true ∧ y.stage = .running ∧ y.rows.length = x.rows.length ∧
      y.tag = x.tag ∧ y.holds = x.holds ∧ y.snap = x.snap ∧ (x.opcode ≠ 0x12 → y.pairs = 0) ∧ (x.opcode = 0x12 → y.pairs = x.pairs) := by
  have other : isIngest x.opcode = false := by
    simp only [isSearch, isIngest, Bool.or_eq_true, Bool.or_eq_false_iff, beq_iff_eq, beq_eq_false_iff_ne] at *
    omega
  have withdrawn : cmd? (withdraw c (abortAll x c 0 .ok s)) c = some x := by
    have told := (cmd_of c (abortAll_cmds x c 0 .ok s)).trans found
    rw [withdraw_of_other told other]
    exact told
  obtain ⟨n, killed⟩ := killCmd_cmd found (.inl search) (.inl stage) (by simp [settledBatch, other]) root kills withdrawn
  refine ⟨_, killed, rfl, rfl, rfl, ?_, restartRows_length .., rfl, rfl, rfl, fun h => if_neg h, fun h => if_pos h⟩
  simp [sentBack, stage, other]

/-- A record without its places. -/
def unplaced (r : Rec) : Rec := { r with slot := none, spillSlot := none }

/-- A batch that leaves storage leaves the places of its records and the commit queue of its collection (R186). -/
theorem withdraw_uncommitted (found : cmd? s c = some x) (batch : uncommitted x = true) :
    cmd? (withdraw c s) c = some { x with recs := x.recs.map unplaced } ∧ c ∉ (coll (withdraw c s) x.coll).queue := by
  have cleared : ∀ (l : List Rec) (u : State), (l.foldl (fun s r => clearRec x.coll r s) u).cmds = u.cmds := fun l u =>
    foldl_same (·.cmds) (fun s r => (k_clearRec (within_self _) _ r (Keeps.refl _ s)).same_cmds) l u
  have journal : ∀ u : State, (giveUpJournal x.ctx c (withdrawTombs c u)).cmds = u.cmds := fun u =>
    (k_giveUpJournal (within_self _) _ _ (Keeps.refl _ _)).same_cmds.trans (k_withdrawTombs (within_self _) _ (Keeps.refl _ u)).same_cmds
  have finds : ∀ u : State, u.cmds = s.cmds → cmd? (updCmd c (fun x => { x with recs := x.recs.map fun r => { r with slot := none, spillSlot := none } }) u) c =
      some { x with recs := x.recs.map unplaced } := fun u same => cmd_updCmd _ ((cmd_of c same).trans found)
  unfold withdraw
  rw [found]
  dsimp only
  rw [if_neg (by simp [batch])]
  split
  · refine ⟨finds _ ((journal _).trans (cleared ..)), ?_⟩
    rw [coll_of _ (updCmd_colls ..)]
    show c ∉ (coll (updColl x.coll (fun y => { y with queue := y.queue.filter (· ≠ c) }) _) x.coll).queue
    rw [coll_updColl_same]
    simp
  · rename_i absent
    refine ⟨finds _ ((journal _).trans (cleared ..)), ?_⟩
    rw [coll_of _ (updCmd_colls ..), coll, tgetD, Option.not_isSome_iff_eq_none.mp absent]
    exact List.not_mem_nil

/-- The assignment chunk of an ingest command that is run again waits at its home (R242, R247). -/
theorem requeueChunk_queues (ingest : isIngest x.opcode = true) (queued : x.stage = .queued) (s : State) :
    ∃ q ∈ (ptn (requeueChunk x c s) x.home).chunkQ, q.cmd = some c ∧ q.kind = assignKind x := by
  unfold requeueChunk
  rw [if_neg (by simp [ingest, queued]), ptn_updPtn_same]
  exact ⟨{ kind := assignKind x, ctx := x.ctx, cmd := some c }, by simp, rfl, rfl⟩

/-- A killed ingest command: its batch withdrawn, it waits for assignment again (R186, R247). -/
theorem killCmd_ingest (found : cmd? s c = some x) (ingest : isIngest x.opcode = true) (stage : x.stage = .queued) (root : x.origin = none)
    (epoch : x.epoch = 0) (free : x.committing = false) (kills : x.kills < 3) :
    ∃ y, cmd? (killCmd c s) c = some y ∧ y.kills = x.kills + 1 ∧ y.run = x.run + 1 ∧ y.rerun = true ∧ y.stage = .assigning ∧ y.recs.length = x.recs.length ∧
      (∀ r ∈ y.recs, r.slot = none ∧ r.spillSlot = none) ∧ (c ∉ (coll (killCmd c s) x.coll).queue) ∧
      ∃ q ∈ (ptn (killCmd c s) x.home).chunkQ, q.cmd = some c ∧ q.kind = assignKind x := by
  have open_ : settledBatch x = false := by simp [settledBatch, epoch, free]
  obtain ⟨withdrawn, left⟩ := withdraw_uncommitted ((cmd_of c (abortAll_cmds x c 0 .ok s)).trans found) (by simp [uncommitted, ingest, epoch])
  obtain ⟨n, killed⟩ := killCmd_cmd found (.inr ingest) (.inr stage) open_ root kills withdrawn
  refine ⟨_, killed, rfl, rfl, rfl, ?_, ?_, ?_, ?_, ?_⟩
  · simp [sentBack, stage, ingest]
  · simp [sentBack]
  · intro r inside
    obtain ⟨r, -, rfl⟩ := List.mem_map.mp inside
    exact ⟨rfl, rfl⟩
  · rw [killCmd_eq found (.inr ingest) (.inr stage) open_ root kills, coll_of _ (k_forwardCmd (within_self _) _ (Keeps.refl _ _)).same_colls,
      coll_of _ (k_requeueChunk (within_self _) _ _ (Keeps.refl _ _)).same_colls, coll_of _ (spend_colls ..), coll_of _ (updCmd_colls ..),
      strippedOf, coll_of _ (k_dropWork (within_self _) _ (Keeps.refl _ _)).same_colls]
    exact left
  · rw [killCmd_eq found (.inr ingest) (.inr stage) open_ root kills, ptn_of _ (k_forwardCmd (within_self _) _ (Keeps.refl _ _)).same_ptns]
    exact requeueChunk_queues ingest stage _

/-- The fourth kill is final (R248). -/
theorem killCmd_fourth (found : cmd? s c = some x) (work : isSearch x.opcode = true ∨ isIngest x.opcode = true)
    (stage : x.stage = .running ∨ x.stage = .queued) (open_ : settledBatch x = false) (root : x.origin = none) (kills : x.kills = 3) :
    ∃ y, cmd? (killCmd c s) c = some y ∧ y.stage = .final ∧ y.status = .killed ∧ y.fault = 0 := by
  obtain ⟨op, flush, drop⟩ := killable_opcode work
  have live : x.stage ≠ .final ∧ x.stage ≠ .done := by rcases stage with h | h <;> rw [h] <;> decide
  have free : mustCommit x = false := by
    simp only [settledBatch, mustCommit, uncommitted, Bool.and_eq_false_iff, Bool.or_eq_false_iff] at *
    tauto
  have fails : killCmd c s = failCmd c .killed 0 s := by
    unfold killCmd
    rw [found]
    dsimp only
    rw [if_neg (by simp [live, open_, op, flush, drop]), root]
    exact if_pos kills
  obtain ⟨y, ends, final, status, -, fault, -⟩ := failCmd_ends .killed 0 found free live.1 live.2
  exact ⟨y, fails ▸ ends, final, status, fault⟩

theorem killCmd_of_settled (found : cmd? s c = some x) (settled : settledBatch x = true) : killCmd c s = s := by
  unfold killCmd
  rw [found]
  exact if_pos (by simp [settled])

end Kills

/-- A yielded anvil's record is saved in the slot that its context holds; without one nothing changes (log 1). -/
theorem exec_preemptSaveDone (p : Fin 12) (a : Fin 864) (s : State) : exec (.preemptSaveDone p a) s =
    .next (match (ptn s p.val).saves.find? fun v => v.2.ctx == anvCtx s (anvil s p a) && !v.2.zeroising with
      | some v => if (anvil s p a).st = .yielded ∧ (anvil s p a).preempt then saveRecord p.val a.val v.1 s else s
      | none => s) := rfl

theorem exec_killPreempt (p : Fin 12) (x : Nat) (s : State) : exec (.killPreempt p x) s =
    onlyIf (wanted s p x && (killMode s x || (saveSlot (ptn s p.val) x).isNone) && !holdsSemaphore x s) (killHere p.val x) s := rfl

theorem exec_semOverhold (p : Fin 12) (x : Nat) (s : State) : exec (.semOverhold p x) s =
    onlyIf (asked (fun _ => true) s p x && holdsSemaphore x s) (fun s => startL0 x 0 none (raise .semOverhold 5 x 0 s)) s := rfl

/-- Settles O40: the order of the slot is a strict weak order, whose first work a free anvil starts; a kill is followed through its withdrawal. -/
theorem anvilScheduling : Obligations.AnvilScheduling := by
  unfold Obligations.AnvilScheduling
  refine ⟨?_, ?_, ?_, ?_, ?_, ?_, ?_, ?_, ?_, ?_, ?_, ?_, ?_, ?_, ?_, ?_, ?_, ?_, ?_⟩
  · rintro s _ p a d l k rfl issue free first head lead
    have lead' := head_of_lane head lead
    obtain ⟨running, pattern, lanes, -, -, -, -⟩ := bindAnvil_starts (p := p.val) (i := a.val) (n := d.2.pattern) none lead'
    obtain ⟨chunk, closing⟩ := bindAnvil_holds (p := p.val) (i := a.val) (n := d.2.pattern) none lead'
    exact ⟨_, congrArg Host.Outcome.next (takeWork_of_first issue free first), lanes, pattern, running, chunk, closing⟩
  · rintro s _ p a c d ds l k rfl issue free first kind bricks head lead
    exact ⟨_, congrArg Host.Outcome.next (takeWork_of_first issue free first), bindChunk_of_lanes kind bricks head lead⟩
  · rintro s _ p a c rfl issue free first kind
    exact ⟨_, congrArg Host.Outcome.next (takeWork_of_first issue free first), bindChunk_of_whole kind⟩
  · rintro s _ p a n b v rfl issue free first slot
    obtain ⟨running, lanes, chunk, sel, cnt, preempt, step⟩ := resume_resumes (p := p.val) (i := a.val) n b (readyWork p s)
    exact ⟨_, congrArg Host.Outcome.next (takeWork_of_first issue free first), running, lanes, chunk, sel, cnt, preempt, step, resume_leaves slot⟩
  · rintro s _ p a rfl idle
    exact congrArg Host.Outcome.next (takeWork_of_nothing idle)
  · intro s p ws w v first inside
    exact ⟨(firstWork_first first).1, (firstWork_first first).2 v inside⟩
  · rintro s _ p r w a rfl issue near first leads victim saves
    refine ⟨_, congrArg Host.Outcome.next ((takeAnvil_of_victim issue near first leads victim).trans (requestAnvil_asks saves)), ?_, ?_⟩
    · exact anvil_updAnvil_same ..
    · exact fun b other => anvil_updAnvil_other _ _ other
  · rintro s _ p r w a rfl issue near first leads victim lost
    exact congrArg Host.Outcome.next ((takeAnvil_of_victim issue near first leads victim).trans (requestAnvil_kills lost))
  · rintro s _ p r w rfl first idle
    exact congrArg Host.Outcome.next (takeAnvil_of_nothing first idle)
  · intro s p a n v slot yielded preempt found
    obtain ⟨u, saved, record, left⟩ := saveRecord_saves (i := a.val) found
    refine ⟨u, ?_, record, left⟩
    rw [exec_preemptSaveDone, slot]
    exact congrArg Host.Outcome.next ((if_pos ⟨yielded, preempt⟩).trans saved)
  · intro s p a idle
    rw [exec_preemptSaveDone]
    rcases idle with none | other | none
    · rw [none]
    · split
      · rw [if_neg fun h => other h.1]
      · rfl
    · split
      · rw [if_neg fun h => Bool.false_ne_true (none ▸ h.2)]
      · rfl
  · intro s p x wants kills free
    rw [exec_killPreempt, wants, kills, free]
    rfl
  · intro s p x idle
    rw [exec_killPreempt]
    rcases idle with holds | unwanted | ⟨tile, slot⟩
    · rw [holds, Bool.not_true, Bool.and_false]; rfl
    · rw [unwanted, Bool.false_and, Bool.false_and]; rfl
    · rw [tile, Option.isNone_eq_false_iff.mpr slot, Bool.or_self, Bool.and_false]; rfl
  · exact fun s c k found search stage root kills => killCmd_search found search stage root kills
  · exact fun s c k found ingest stage root epoch free kills => killCmd_ingest found ingest stage root epoch free kills
  · exact fun s c k found work stage open_ root kills => killCmd_fourth found work stage open_ root kills
  · exact fun s c k found settled => killCmd_of_settled found settled
  · intro s p x asks holds
    refine ⟨raise .semOverhold 5 x 0 s, ?_, raise_pending_bit .semOverhold 5 x 0 s, raise_cmds .., raise_ptns ..⟩
    rw [exec_semOverhold, asks, holds]
    rfl
  · intro s p x idle
    rw [exec_semOverhold]
    rcases idle with idle | idle
    · rw [idle, Bool.false_and]; rfl
    · rw [idle, Bool.and_false]; rfl

end Sys2Proof.Machine

/-! ### Rounds, regulators, pins, routes, test runs and resets by mailbox (R200, R201, R211, R233, R238, R315, R335, R337, R424–R428) -/

namespace Sys2Proof.Machine

/-! #### What an answer leaves -/

/-- From u to t a mailbox is answered, with what of the link, the memory, the records of the test runs and the posted writes stands (R309). -/
structure AnswerLeaves (u t : State) : Prop extends AnswerOnly u t where
  aon : t.aon = u.aon
  levels : t.levels = u.levels
  icern : t.icern = u.icern
  hbm : t.hbm = u.hbm
  free : t.free = u.free
  assays : t.hearth.assays = u.hearth.assays
  underTest : t.hearth.underTest = u.hearth.underTest
  posted : postedWrites u <+: postedWrites t

theorem answerLeaves_answerMbx (m : Nat) (q : Req) (r : Rsp) (u : State) : AnswerLeaves u (answerMbx m q r u) :=
  ⟨answerOnly_answerMbx .., by simp, by simp, by simp, by simp, by simp, by simp, by simp, (posts_answerMbx ..).writes⟩

section Served

variable {m : Fin 4} {op : Nat} {q : Req} {s u : State} {h : Handler} {reply : ReadReply}

/-- A request that is served and done has its response at once, whatever the row holds others with (R309, R311). -/
theorem mailboxWith_done {st : MStatus} {bs : List Byte} {dt : Nat} (hold : Req → Work) (serves : served m op q s = true)
    (ran : h m q reply s = (u, .done st bs dt)) :
    ∃ t, mailboxWith hold m.val op anyForm h reply s = t ∧ Answered t m q { status := st, bytes := bs, detail := dt } ∧ AnswerLeaves u t := by
  refine ⟨answerMbx m q { status := st, bytes := bs, detail := dt } u, ?_, answered_answerMbx .., answerLeaves_answerMbx ..⟩
  rw [served_runs hold _ h reply serves rfl, ran]
  rfl

/-- A request that goes on has a ticket for its work, where fewer than 64 are open (R310). -/
theorem mailboxWith_busy {w : Work} (hold : Req → Work) (serves : served m op q s = true) (room : (openTickets s).length < 64)
    (ran : h m q reply s = (u, .busy w)) :
    ∃ t, mailboxWith hold m.val op anyForm h reply s = t ∧ Ticketed s t m q w ∧ AnswerLeaves u t := by
  obtain ⟨ticketed, v, r, answer, noted⟩ := ticketed_settle (m := m) (q := q) (u := u) w room
  refine ⟨_, (served_runs hold _ h reply serves rfl).trans (congrArg _ ran), ticketed, ?_⟩
  have kept := answerLeaves_answerMbx m q r v
  rw [answer]
  rw [noted] at kept ⊢
  exact ⟨⟨kept.rings, kept.apertures, kept.cache, kept.ptns, kept.jobs, kept.ctxs, kept.colls⟩, kept.aon, kept.levels, kept.icern, kept.hbm,
    kept.free, kept.assays, kept.underTest, kept.posted⟩

/-- A request that is served stands in its mailbox. -/
theorem mbx_of_served (serves : served m op q s = true) : (mbx s m).req = some q ∧ (mbx s m).state = 2 ∧ q.opcode = op := by
  simp only [served, Bool.and_eq_true, beq_iff_eq] at serves
  tauto

end Served

/-! #### Rounds, shares, regulators (R201, R233, R238) -/

section Settings

variable {m : Nat} {q : Req} {reply : ReadReply} {s : State}

theorem doRoundLoad_loads (good : roundBad s q = false) : doRoundLoad m q reply s =
    (updPtn (qf q 0 1) (fun x => { x with
      round := { x.round with next := some ((upto (qf q 2 2)).map (reqSlot q)), nextBfres := qf q 1 1 }, vtime := [] }) s, .done .ok [] 0) :=
  guardM_of (by simp [good])

theorem doSharesSet_sets {x : Ctx} (shape : shaped q 6 [] = true) (found : ctx? s (qf q 0 2) = some x) (mask : qf q 2 2 < 4096)
    (own : ((maskPtns q 2).all fun p => (ctxPtns s (qf q 0 2)).contains p) = true) (low : 1 ≤ qf q 4 2) (high : qf q 4 2 ≤ 1000) :
    doSharesSet m q reply s =
      (updCtx (qf q 0 2) (fun x => { x with shares := (maskPtns q 2).foldl (fun t p => tset t p (qf q 4 2)) x.shares }) s, .done .ok [] 0) :=
  guardM_of (by rw [shape, found, own, decide_eq_true mask, decide_eq_true low, decide_eq_true high]; rfl)

/-- The bounds of a REG_SET request (R200). -/
def boundBy (q : Req) (r : Reg) : Reg := { r with issMin := qf q 2 2, issMax := qf q 4 2, rcvMin := qf q 6 2, rcvMax := qf q 8 2 }

/-- What a REG_SET request must satisfy (R200). -/
structure RegFits (q : Req) : Prop where
  shape : shaped q 10 [(1, 1)] = true
  ptn : qf q 0 1 ≤ 11
  issue : qf q 2 2 ≤ qf q 4 2
  issueMax : qf q 4 2 ≤ 51200
  receive : qf q 6 2 ≤ qf q 8 2
  receiveMax : qf q 8 2 ≤ 51200

theorem doRegSet_sets (fits : RegFits q) :
    ∃ ps, doRegSet m q reply s = (resetRates ps (qf q 0 1) (updReg (qf q 0 1) (boundBy q) s), .done .ok [] 0) := by
  obtain ⟨shape, ptn, issue, issueMax, receive, receiveMax⟩ := fits
  exact ⟨_, guardM_of (by simp [shape, ptn, issue, issueMax, receive, receiveMax])⟩

/-- The rates start half way between their bounds, the issue side at the job's mean, the receive side bound by the thermal throttle (R201, R202). -/
theorem reg_resetRates (ps : List Nat) (p : Nat) (s : State) {r : Reg} (rates : (ptn s p).reg = r) : ∃ mean,
    (ptn (resetRates ps p s) p).reg = { r with
      rcv := (r.rcvMin + r.rcvMax) / 2, rcvEff := min ((r.rcvMin + r.rcvMax) / 2) (stepRate (ptn s p).temp.step / 2)
      iss := max r.issMin (min r.issMax mean), seen := [], rcvWaited := 0, issWaited := 0, blocked := 0
      conflict := decide (min ((r.rcvMin + r.rcvMax) / 2) (stepRate (ptn s p).temp.step / 2) < r.rcvMin) } := by
  subst rates
  exact ⟨_, by simp only [resetRates, updReg, ptn_updPtn_same]; rfl⟩

end Settings

/-! #### Pins (R211) -/

section Pins

variable {m : Nat} {q : Req} {reply : ReadReply} {s : State}

theorem pins_addPin {k : Pin} {x y : Ptn} (added : addPin k x = some y) : y.pins = k :: x.pins := by
  unfold addPin at added
  dsimp only at added
  split at added
  · obtain rfl := Option.some.inj added
    rfl
  · cases added

/-- What a CRUC_PIN request must satisfy (R211). -/
structure PinFits (s : State) (q : Req) : Prop where
  shape : shaped q 20 [(3, 5)] = true
  context : (ctx? s (qf q 0 2)).isSome = true
  start : qf q 8 8 % 64 = 0
  whole : qf q 16 4 % 64 = 0
  some : qf q 16 4 ≠ 0
  inside : inJobWindow s (ctxJob s (qf q 0 2)) (qf q 8 8) (qf q 16 4) = true

theorem PinFits.ok (fits : PinFits s q) (act : qf q 2 1 ≤ 2) :
    ¬(!shaped q 20 [(3, 5)] || (ctx? s (qf q 0 2)).isNone || qf q 2 1 > 2 || qf q 8 8 % 64 != 0 || qf q 16 4 % 64 != 0 || qf q 16 4 == 0 ||
      !inJobWindow s (ctxJob s (qf q 0 2)) (qf q 8 8) (qf q 16 4)) = true := by
  obtain ⟨shape, context, start, whole, some, inside⟩ := fits
  rw [shape, inside, Option.isNone_eq_false_iff.mpr context]
  simp [act, start, whole, some]

theorem doCrucPin_adds {x : Ptn} (fits : PinFits s q) (adds : qf q 2 1 = 0)
    (room : addPin { start := stackOff (qf q 8 8), len := qf q 16 4, why := .software (ctxJob s (qf q 0 2)) }
      (ptn (demand (homePtn (qf q 8 8)) s) (homePtn (qf q 8 8))) = some x) :
    doCrucPin m q reply s = (updPtn (homePtn (qf q 8 8)) (fun _ => x) (demand (homePtn (qf q 8 8)) s), .done .ok [] 0) := by
  unfold doCrucPin
  dsimp only
  rw [if_neg (fits.ok (by omega)), if_pos adds, room]
  rfl

theorem doCrucPin_cuts (fits : PinFits s q) (cuts : qf q 2 1 = 1) :
    doCrucPin m q reply s = (retryPins (ctxJob s (qf q 0 2)) (updPtn (homePtn (qf q 8 8))
      (fun x => { x with pins := cutPins (stackOff (qf q 8 8)) (qf q 16 4) x.pins }) s), .done .ok [] 0) := by
  unfold doCrucPin
  dsimp only
  rw [if_neg (fits.ok (by omega)), if_neg (by omega), if_pos cuts]
  rfl

theorem doCrucPin_unlocks (fits : PinFits s q) (unlocks : qf q 2 1 = 2) :
    doCrucPin m q reply s =
      (updPtn (homePtn (qf q 8 8)) (unlockLines fun l _ => inRange (stackOff (qf q 8 8)) (qf q 16 4) l) s, .done .ok [] 0) := by
  unfold doCrucPin
  dsimp only
  rw [if_neg (fits.ok (by omega)), if_neg (by omega), if_neg (by omega)]
  rfl

/-- No line stays locked that was to be unlocked (R211). -/
theorem locked_unlockLines {f : Nat → Nat → Bool} {x : Ptn} {l : Nat × Nat} (held : l ∈ (unlockLines f x).locked) : f l.1 l.2 = false := by
  simpa using (List.mem_filter.mp held).2

end Pins

/-! #### Routes (R335–R337) -/

section Routes

variable {m : Nat} {q : Req} {reply : ReadReply} {s : State}

theorem doRouteSet_holds (good : routesBad s q = false) (busy : spanningBusy s = true) :
    doRouteSet m q reply s = (updIcern (fun i => { i with hold := true }) s, .busy (.held q .timeout)) := by
  unfold doRouteSet
  rw [if_neg (Bool.eq_false_iff.mp good)]
  exact if_pos busy

/-- The routes of an ICERN_ROUTE_SET request (R335). -/
def routed (q : Req) (a : Aon) : Aon :=
  { a with
    modid := qf q 0 1, enable := BitVec.ofNat 4 (qf q 1 1), peers := (upto 4).map fun n => qf q (2 + n) 1
    dateline := BitVec.ofNat 4 (qf q 6 1), routes := (upto 64).map fun i => BitVec.ofNat 16 (qf q (8 + 2 * i) 2) }

theorem doRouteSet_sets (good : routesBad s q = false) (quiet : spanningBusy s = false) :
    doRouteSet m q reply s = (updIcern (fun i => { i with hold := false })
      ((upto 4).foldl (fun s n => setPort (qf q 1 1) n s) (updAon (routed q) (updIcern (fun i => { i with hold := true }) s))), .done .ok [] 0) := by
  unfold doRouteSet
  rw [if_neg (Bool.eq_false_iff.mp good)]
  exact if_neg (Bool.eq_false_iff.mp quiet)

end Routes

/-! #### Test runs (R422–R428) -/

section Tests

variable {q : Req} {reply : ReadReply} {s : State}

/-- A run that starts is noted, and the old records of its channels go (R424). -/
theorem hearth_startTest (ps : List Nat) (ch : Nat) (s : State) : (startTest ps ch s).hearth = { s.hearth with
    underTest := s.hearth.underTest ++ ps.flatMap fun p => (bitsOf 32 ch).map fun c => (p, c)
    assays := s.hearth.assays.filter fun r => !(ps.contains (r.1 / 64) && bit ch (r.1 % 64 / 2)) } := by
  have starts : ∀ (u : State) (p : Nat), (if (ptn u p).power = .cold then startExit p u else demand p u).hearth = u.hearth := fun u p => by
    split
    · exact (k_startExit (within_self _) p (Keeps.refl _ u)).same_hearth
    · exact (k_demand (within_self _) p (Keeps.refl _ u)).same_hearth
  exact foldl_same State.hearth starts ps _

/-- A run's patterns change the partitions' buffers, the stacks and their poison only (R423). -/
theorem keeps_writeTests {m : List Part} (within : Within [.ptns, .hbm, .poison] m) (pat seed start stop : Nat) (pcs : List (Nat × Nat)) (ps : List Nat)
    (s : State) : Keeps m s (ps.foldl (fun t p => writeTest p pat seed start stop pcs t) s) :=
  k_foldl (Keeps.refl _ s) fun _ _ kept => k_writeTest within _ _ _ _ _ _ kept

/-- The patterns of an assay run over the partitions it starts in (R423, R424). -/
def assayWritten (q : Req) (s : State) : State :=
  (maskPtns q 0).foldl (fun t p => writeTest p (qf q 7 1) (qf q 12 4) (qf q 16 8) (qf q 24 8) (runPcs (qf q 2 4) (qf q 6 1)) t)
    (startTest (maskPtns q 0) (qf q 2 4) s)

theorem doAssayRun_runs {m : Nat} (bad : List BadWord) (good : assayBad s q = false) : doAssayRun bad m q reply s =
    (updHearth (fun h => { h with assays := (assayRecs s q bad).foldl (fun m r => tset m r.1 r.2) h.assays }) (spend 768 (assayWritten q s)),
      .busy (.test (maskPtns q 0) (coldOnes s (maskPtns q 0)) (assayResponse (assayRecs s q bad)))) :=
  if_neg (Bool.eq_false_iff.mp good)

theorem hearth_assayWritten (q : Req) (s : State) : (assayWritten q s).hearth = (startTest (maskPtns q 0) (qf q 2 4) s).hearth :=
  (keeps_writeTests (within_self _) ..).same_hearth

theorem free_assayWritten (q : Req) (s : State) : (assayWritten q s).free = s.free :=
  (keeps_writeTests (within_self _) ..).same_free.trans (k_startTest (within_self _) _ _ (Keeps.refl _ s)).same_free

theorem doAssayLog_answers {m : Nat} {a : AssayRec} (shape : shaped q 4 [(3, 1)] = true) (ptn : qf q 0 1 ≤ 11) (channel : qf q 1 1 ≤ 31)
    (half : qf q 2 1 ≤ 1) (record : tget s.hearth.assays (assayKey (qf q 0 1) (qf q 1 1) (qf q 2 1)) = some a) :
    doAssayLog m q reply s = (s, .done .ok (assayBytes a) 0) := by
  unfold doAssayLog
  rw [if_neg (by simp [shape, ptn, channel, half]), record]
  rfl

/-- The patterns of a margin test in the partition it starts in (R427, R428). -/
def marginWritten (q : Req) (s : State) : State :=
  writeTest (qf q 0 1) (qf q 6 1) (qf q 12 4) 0 (65536 * 2 ^ (qf q 7 1 - 7)) (runPcs (qf q 8 4) (qf q 5 1)) (startTest [qf q 0 1] (qf q 8 4) s)

theorem underTest_marginWritten (q : Req) (s : State) :
    (marginWritten q s).hearth.underTest = s.hearth.underTest ++ (bitsOf 32 (qf q 8 4)).map fun c => (qf q 0 1, c) := by
  rw [marginWritten, (k_writeTest (within_self _) _ _ _ _ _ _ (Keeps.refl _ _)).same_hearth, hearth_startTest]
  simp

theorem host_marginWritten (q : Req) (s : State) : (marginWritten q s).host = s.host :=
  (k_writeTest (within_self _) _ _ _ _ _ _ (Keeps.refl _ _)).same_host.trans (k_startTest (within_self _) _ _ (Keeps.refl _ s)).same_host

section Margin

variable {m : Nat} {errs : List Nat}

theorem doMarginRun_too_long (good : marginBad s m q = false) (long : (if qf q 16 8 = 0 then 4096 else qf q 24 4) < (marginOutput q errs).length) :
    doMarginRun errs m q reply s = (s, .busy (.ready .range [] 0)) := by
  unfold doMarginRun
  dsimp only
  rw [if_neg (Bool.eq_false_iff.mp good), if_pos]
  split
  · rename_i own
    rw [if_pos own] at long
    exact long
  · rename_i named
    rw [if_neg named] at long
    exact long

theorem doMarginRun_answers (good : marginBad s m q = false) (own : qf q 16 8 = 0) (fits : (marginOutput q errs).length ≤ 4096) :
    doMarginRun errs m q reply s = (marginWritten q s, .busy (.test [qf q 0 1] (coldOnes s [qf q 0 1]) (marginOutput q errs))) := by
  unfold doMarginRun
  dsimp only
  simp only [good, own, Bool.false_eq_true, if_false, if_true, gt_iff_lt, if_neg fits.not_gt]
  rfl

theorem doMarginRun_posts (good : marginBad s m q = false) (named : qf q 16 8 ≠ 0) (fits : (marginOutput q errs).length ≤ qf q 24 4) :
    doMarginRun errs m q reply s = (postBytes (qf q 16 8) (marginOutput q errs) (marginWritten q s), .busy (.test [qf q 0 1] (coldOnes s [qf q 0 1]) [])) := by
  unfold doMarginRun
  dsimp only
  simp only [good, named, Bool.false_eq_true, if_false, if_neg fits.not_gt]
  rfl

end Margin

/-- Over a link in use bytes go out in pieces, behind the writes that wait (R289, R301; log 20). -/
theorem postedWrites_postBytes (addr : Nat) (bs : List Byte) {s : State} (up : s.host.link.up = true) (awake : s.host.link.d3hot = false) :
    postedWrites (postBytes addr bs s) = postedWrites s ++ pieces addr bs :=
  (queued_foldl up awake (fun b : List Byte × Nat => { kind := .data, addr := BitVec.ofNat 64 (addr + 16384 * b.2), bytes := b.1 }) _).writes

end Tests

/-! #### Resets (R315) -/

theorem doResetPtn_resets {m : Nat} {q : Req} {reply : ReadReply} {s : State} (shape : shaped q 1 [] = true) (number : qf q 0 1 ≤ 11) :
    doResetPtn m q reply s = (startL2 (qf q 0 1) 0 false true s, .busy (.reset (qf q 0 1))) := guardM_of (by simp [shape, number])

theorem doResetChip_answers {m : Nat} {q : Req} {reply : ReadReply} {s : State} (shape : shaped q 1 [] = true) (magic : qf q 0 1 = 0xC3) :
    doResetChip m q reply s = (s, .done .ok [] 0) := guardM_of (by simp [shape, magic])

/-- A RESET_CHIP that was answered OK starts an L3 that the software asked for (R315; log 23). -/
theorem resetChip_of_answered {m : Fin 4} {q : Req} {s t : State} (serves : served m 0x0602 q s = true)
    (ran : mailboxWith (fun q => .held q .timeout) m.val 0x0602 anyForm doResetChip .timeout s = t) (answered : Answered t m q { status := .ok }) :
    resetChip m s = { startL3 0 t with levels := (startL3 0 t).levels.map fun l => if l.level = .l3 then { l with soft := true } else l } := by
  obtain ⟨req, state, opcode⟩ := mbx_of_served serves
  unfold resetChip
  dsimp only
  rw [mailbox, ran, req, if_pos]
  rw [state, answered.state, answered.status]
  dsimp only
  rw [opcode]
  rfl

/-! #### The rows -/

/-- Settles O19: a served request is answered with what its handler returns; a run's patterns and starts leave the records and the posted writes. -/
theorem mailboxRoundsAndTests : Obligations.MailboxRoundsAndTests := by
  unfold Obligations.MailboxRoundsAndTests
  refine ⟨?_, ?_, ?_, ?_, ?_, ?_, ?_, ?_, ?_, ?_, ?_, ?_, ?_, ?_, ?_⟩
  · intro s m q serves good
    obtain ⟨t, runs, answered, only⟩ := mailbox_done (reply := .timeout) serves (doRoundLoad_loads good)
    refine ⟨t, runs, answered, ?_⟩
    rw [ptn_of _ only.ptns, ptn_updPtn_same]
    exact ⟨rfl, rfl, rfl⟩
  · intro s m q x serves shape found mask own low high
    obtain ⟨t, runs, answered, only⟩ := mailbox_done (reply := .timeout) serves (doSharesSet_sets shape found mask own low high)
    refine ⟨t, runs, answered, ?_⟩
    rw [ctx_of _ only.ctxs, ctx_updCtx_same, found]
    rfl
  · rintro s m q _ serves shape number issue issueMax receive receiveMax rfl
    obtain ⟨ps, ran⟩ := doRegSet_sets (m := m) (reply := .timeout) (s := s) ⟨shape, number, issue, issueMax, receive, receiveMax⟩
    obtain ⟨t, runs, answered, only⟩ := mailbox_done serves ran
    have bound : ptn (updReg (qf q 0 1) (boundBy q) s) (qf q 0 1) = { ptn s (qf q 0 1) with reg := boundBy q (ptn s (qf q 0 1)).reg } := ptn_updPtn_same ..
    obtain ⟨mean, rates⟩ := reg_resetRates ps (qf q 0 1) (updReg (qf q 0 1) (boundBy q) s) (congrArg Ptn.reg bound)
    rw [bound] at rates
    refine ⟨t, runs, answered, _, _, (congrArg Ptn.reg (ptn_of _ only.ptns)).trans rates, rfl, le_max_left .., max_le issue (min_le_left ..)⟩
  · intro s m q x serves shape context adds start whole some inside room
    obtain ⟨t, runs, answered, only⟩ := mailbox_done (reply := .timeout) serves
      (doCrucPin_adds ⟨shape, context, start, whole, some, inside⟩ adds room)
    refine ⟨t, runs, answered, ?_⟩
    rw [ptn_of _ only.ptns, ptn_updPtn_same, pins_addPin room, ptn_demand (·.pins) fun _ _ _ _ _ => rfl]
  · intro s m q serves shape context unlocks start whole some inside
    obtain ⟨t, runs, answered, only⟩ := mailbox_done (reply := .timeout) serves
      (doCrucPin_unlocks ⟨shape, context, start, whole, some, inside⟩ unlocks)
    refine ⟨t, runs, answered, fun l held => ?_⟩
    rw [ptn_of _ only.ptns, ptn_updPtn_same] at held
    exact locked_unlockLines held
  · intro s m q serves shape context cuts start whole some inside
    obtain ⟨t, runs, answered, only⟩ := mailbox_done (reply := .timeout) serves
      (doCrucPin_cuts ⟨shape, context, start, whole, some, inside⟩ cuts)
    exact ⟨t, runs, answered, only.ptns⟩
  · intro s m q serves room good busy
    obtain ⟨t, runs, ticketed, leaves⟩ := mailboxWith_busy (reply := .timeout) (fun q => .held q .timeout) serves room (doRouteSet_holds good busy)
    exact ⟨t, congrArg Host.Outcome.next runs, ticketed, congrArg Icern.hold leaves.icern, leaves.aon⟩
  · rintro s m q _ serves good quiet rfl
    obtain ⟨t, runs, answered, leaves⟩ := mailboxWith_done (reply := .timeout) (fun q => .held q .timeout) serves (doRouteSet_sets good quiet)
    exact ⟨t, congrArg Host.Outcome.next runs, answered, congrArg Icern.hold leaves.icern, leaves.aon⟩
  · intro s m bad q serves room good
    obtain ⟨t, runs, ticketed, leaves⟩ := mailboxWith_busy (reply := .timeout) (fun q => .heldTest q bad []) serves room (doAssayRun_runs bad good)
    refine ⟨t, congrArg Host.Outcome.next runs, ticketed, ?_, leaves.free.trans (congrArg (· + 768) (free_assayWritten q s))⟩
    have started := congrArg Hearth.assays ((hearth_assayWritten q s).trans (hearth_startTest ..))
    rw [leaves.assays, updHearth_hearth, spend_hearth, started]
  · intro s m q a serves shape number channel half record
    obtain ⟨t, runs, answered, -⟩ := mailbox_done (reply := .timeout) serves (doAssayLog_answers shape number channel half record)
    exact ⟨t, runs, answered⟩
  · intro s m errs q serves room good long
    obtain ⟨t, runs, ticketed, leaves⟩ := mailboxWith_busy (reply := .timeout) (fun q => .heldTest q [] errs) serves room (doMarginRun_too_long good long)
    exact ⟨t, congrArg Host.Outcome.next runs, ticketed, leaves.hbm⟩
  · intro s m errs q serves room good own fits
    obtain ⟨t, runs, ticketed, leaves⟩ := mailboxWith_busy (reply := .timeout) (fun q => .heldTest q [] errs) serves room (doMarginRun_answers good own fits)
    exact ⟨t, congrArg Host.Outcome.next runs, ticketed, leaves.underTest.trans (underTest_marginWritten q s)⟩
  · intro s m errs q serves room good named fits up awake
    obtain ⟨t, runs, ticketed, leaves⟩ := mailboxWith_busy (reply := .timeout) (fun q => .heldTest q [] errs) serves room (doMarginRun_posts good named fits)
    have host := host_marginWritten q s
    have posted := postedWrites_postBytes (qf q 16 8) (marginOutput q errs) (host ▸ up : (marginWritten q s).host.link.up = true) (host ▸ awake)
    obtain ⟨rest, writes⟩ := leaves.posted
    refine ⟨t, congrArg Host.Outcome.next runs, ticketed, ⟨rest, ?_⟩, ?_⟩
    · rw [← writes, posted, postedWrites, host]
      rfl
    · rw [leaves.underTest, (k_postBytes (within_self _) _ _ (Keeps.refl _ _)).same_hearth]
      exact underTest_marginWritten q s
  · intro s m q serves room shape number
    obtain ⟨t, runs, ticketed, leaves⟩ := mailboxWith_busy (reply := .timeout) (fun q => .held q .timeout) serves room (doResetPtn_resets shape number)
    exact ⟨t, congrArg Host.Outcome.next runs, ticketed, leaves.levels, leaves.ptns⟩
  · intro s m q serves shape magic
    obtain ⟨u, runs, answered, leaves⟩ := mailboxWith_done (reply := .timeout) (fun q => .held q .timeout) serves (doResetChip_answers shape magic)
    exact ⟨_, u, congrArg Host.Outcome.next (resetChip_of_answered serves runs answered), answered, leaves.aon, leaves.ptns, rfl⟩

end Sys2Proof.Machine

/-! ### Partitions, jobs and contexts by mailbox (R227, R229, R310, R315, R363) -/

namespace Sys2Proof.Machine

/-- What each step of a fold establishes of its item and keeps of the others, the fold establishes of every item. -/
theorem foldl_reaches {σ α : Type} {P : α → σ → Prop} {g : σ → α → σ} (makes : ∀ s a, P a (g s a)) (keeps : ∀ s a b, P b s → P b (g s a))
    (l : List α) (s : σ) {b : α} (listed : b ∈ l ∨ P b s) : P b (l.foldl g s) := by
  induction l generalizing s with
  | nil => exact listed.resolve_left List.not_mem_nil
  | cons a l ih =>
    refine ih _ ?_
    rcases listed with listed | holds
    · rcases List.mem_cons.mp listed with rfl | later
      · exact .inr (makes s b)
      · exact .inl later
    · exact .inr (keeps s a b holds)

section Partitions

variable {m : Nat} {q : Req} {reply : ReadReply} {s : State}

/-! #### Service (R315, R363) -/

theorem ptnOos_takeOut (p : Nat) (s : State) :
    (takeOut p s).aon.ptnOos = if s.aon.ptnOos.contains p then s.aon.ptnOos else p :: s.aon.ptnOos := by
  unfold takeOut
  rw [(k_goCold (within_self _) p (Keeps.refl _ _)).same_aon, updPtn_aon, updAon, (k_endTestsOn (within_self _) p (Keeps.refl _ s)).same_aon]

theorem mem_ptnOos_takeOut {p r : Nat} : r ∈ (takeOut p s).aon.ptnOos ↔ r = p ∨ r ∈ s.aon.ptnOos := by
  rw [ptnOos_takeOut]
  split
  next listed => exact ⟨.inr, fun h => h.elim (fun same => same ▸ List.contains_iff_mem.mp listed) id⟩
  next => exact List.mem_cons

theorem ptnOos_putBack (p : Nat) (s : State) : (putBack p s).aon.ptnOos = s.aon.ptnOos.filter (· ≠ p) := by
  unfold putBack
  dsimp only
  split
  · rw [ptnChange_aon]
    rfl
  · rfl

theorem mem_ptnOos_putBack {p r : Nat} : r ∈ (putBack p s).aon.ptnOos ↔ r ∈ s.aon.ptnOos ∧ r ≠ p := by
  simp [ptnOos_putBack]

/-- No partition that a PTN_ENABLE request names is owned or being taken up (R315). -/
def Unowned (s : State) (q : Req) : Prop := ∀ p ∈ maskPtns q 0, (ptn s p).job = none ∧ creating s p = false

theorem doPtnEnable_of (shape : shaped q 3 [] = true) (mask : qf q 0 2 < 4096) (choice : qf q 2 1 ≤ 1) (unowned : Unowned s q) :
    doPtnEnable m q reply s = (if qf q 2 1 = 1 then (maskPtns q 0).foldl (fun s p => takeOut p s) s
      else (maskPtns q 0).foldl (fun s p => putBack p s) s, .done .ok [] 0) := by
  refine guardM_of ?_
  have all : ((maskPtns q 0).all fun p => (ptn s p).job.isNone && !creating s p) = true :=
    List.all_eq_true.mpr fun p named => by simp [unowned p named]
  rw [shape, all, decide_eq_true mask, decide_eq_true choice]
  rfl

/-! #### Idle timers (R315) -/

/-- The idle timers of a partition. -/
def idleTimers (x : Ptn) : W32 × W32 := (x.warmUs, x.bankedMs)

theorem idleTimers_enterWarm (p r : Nat) (s : State) : idleTimers (ptn (enterWarm p s) r) = idleTimers (ptn s r) := by
  rw [enterWarm, ptn_ptnChange]
  exact ptn_updPtn_of idleTimers (by intro _; rfl) r

theorem idleTimers_startBanking (p r : Nat) (s : State) : idleTimers (ptn (startBanking p s) r) = idleTimers (ptn s r) := by
  have asked : ∀ u, idleTimers (ptn (askFence p .banked allChannels u) r) = idleTimers (ptn u r) := fun u => by
    rw [askFence]
    exact ptn_updPtn_of idleTimers (by intro _; rfl) r
  rw [startBanking, asked]
  exact ptn_updPtn_of idleTimers (by intro _; rfl) r

theorem idleTimers_setPower (warm banked enter p r : Nat) (s : State) : idleTimers (ptn (setPower warm banked enter p s) r) =
    if r = p then (BitVec.ofNat 32 warm, BitVec.ofNat 32 banked) else idleTimers (ptn s r) := by
  have set : ∀ f : Ptn → Ptn, (∀ x, idleTimers (f x) = (BitVec.ofNat 32 warm, BitVec.ofNat 32 banked)) →
      idleTimers (ptn (updPtn p f s) r) = if r = p then (BitVec.ofNat 32 warm, BitVec.ofNat 32 banked) else idleTimers (ptn s r) := by
    intro f timers
    split
    next same => rw [same, ptn_updPtn_same, timers]
    next other => rw [ptn_updPtn_other _ _ other]
  unfold setPower
  dsimp only
  split
  · rw [idleTimers_enterWarm, set _ fun _ => rfl]
  · split
    · rw [idleTimers_startBanking, set _ fun _ => rfl]
    · exact set _ fun _ => rfl

theorem doPtnPower_sets (shape : shaped q 13 [(2, 2)] = true) (mask : qf q 0 2 < 4096) (choice : qf q 12 1 ≤ 2) :
    doPtnPower m q reply s = ((maskPtns q 0).foldl (fun s p => setPower (qf q 4 4) (qf q 8 4) (qf q 12 1) p s) s, .done .ok [] 0) :=
  guardM_of (by rw [shape, decide_eq_true mask, decide_eq_true choice]; rfl)

end Partitions

/-! #### Jobs (R227) -/

section Jobs

variable {m : Nat} {q : Req} {reply : ReadReply} {s : State}

theorem doJobCreate_goes_on (good : jobBad s q = false) (unfenced : anyFenced s (maskPtns q 2) = false) :
    doJobCreate m q reply s = ((maskPtns q 2).foldl (fun s p => claimPtn p s) s, .busy (.jobCreate (qf q 0 1) (maskPtns q 2) false)) :=
  (guardM_of (by simp [good])).trans (if_neg (by simp [unfenced]))

theorem jobs_claimPtns (ps : List Nat) (s : State) : (ps.foldl (fun s p => claimPtn p s) s).jobs = s.jobs :=
  foldl_same State.jobs (fun u p => (k_claimPtn (within_self _) p (Keeps.refl _ u)).same_jobs) ps s

/-- The job that JOB_END names, its contexts killed, is ending (R227). -/
def jobEnding (j : Nat) (s : State) : State :=
  updJob j (fun x => { x with ending := true }) ((jobCtxs s j).foldl (fun s c => killContext c 0 none s) s)

theorem doJobEnd_of (shape : shaped q 1 [] = true) (present : (job? s (qf q 0 1)).isSome = true) :
    doJobEnd m q reply s = if jobQuiet (jobEnding (qf q 0 1) s) (qf q 0 1) then (endJob (qf q 0 1) (jobEnding (qf q 0 1) s), .done .ok [] 0)
      else (jobEnding (qf q 0 1) s, .busy (.jobEnd (qf q 0 1))) :=
  guardM_of (by simp [shape, present])

theorem jobEnding_ending {j : Nat} (present : (job? s j).isSome = true) : (job? (jobEnding j s) j).any (·.ending) = true := by
  have jobs : ((jobCtxs s j).foldl (fun s c => killContext c 0 none s) s).jobs = s.jobs :=
    foldl_same State.jobs (fun u c => (k_killContext (within_self _) c 0 none (Keeps.refl _ u)).same_jobs) _ s
  obtain ⟨x, found⟩ := Option.isSome_iff_exists.mp present
  rw [jobEnding, job_updJob_same, job?, jobs, ← job?, found]
  rfl

/-- Partitions that a job gives back go COLD; the jobs, the collections and the commands stand (R227). -/
structure LeavesObjects (s t : State) : Prop where
  jobs : t.jobs = s.jobs
  colls : t.colls = s.colls
  cmds : t.cmds = s.cmds

theorem leavesObjects_givenBack (f : Ptn → Ptn) (ps : List Nat) (s : State) :
    LeavesObjects s (ps.foldl (fun s p => goCold p (updPtn p f s)) s) := by
  have cold : ∀ (u : State) p, Keeps [.host, .ptns, .hearth, .hbm, .poison] (updPtn p f u) (goCold p (updPtn p f u)) := fun u p =>
    k_goCold (within_self _) p (Keeps.refl _ _)
  exact ⟨foldl_same State.jobs (fun u p => (cold u p).same_jobs) ps s, foldl_same State.colls (fun u p => (cold u p).same_colls) ps s,
    foldl_same State.cmds (fun u p => (cold u p).same_cmds) ps s⟩

/-- Of a job that has ended no job, collection or command is left (R227). -/
theorem endJob_leaves_none (j : Nat) (s : State) :
    job? (endJob j s) j = none ∧ (∀ c x, (c, x) ∈ (endJob j s).colls → x.job ≠ j) ∧ ∀ c x, (c, x) ∈ (endJob j s).cmds → x.job ≠ j := by
  unfold endJob
  dsimp only
  have given := leavesObjects_givenBack (fun x => { x with job := none, regions := [], log := [], tombs := [] }) (jobPtns s j)
  refine ⟨?_, fun c x listed => ?_, fun c x listed => ?_⟩
  · rw [job?, (given _).jobs]
    exact tget_tdel_same ..
  · rw [(given _).colls] at listed
    simpa using (List.mem_filter.mp listed).2
  · rw [(given _).cmds] at listed
    simpa using (List.mem_filter.mp listed).2

end Jobs

/-! #### Contexts (R229) -/

section Contexts

variable {m : Nat} {q : Req} {reply : ReadReply} {s : State}

/-- The home that a CTX_CREATE request leads to: the named partition of the job, or the one with the fewest contexts (R229). -/
def HomeOf (s : State) (q : Req) (home : Nat) : Prop :=
  (qf q 3 1 = 0xFF ∧ home = leastHome s (qf q 2 1)) ∨ (qf q 3 1 ≠ 0xFF ∧ (jobPtns s (qf q 2 1)).contains (qf q 3 1) = true ∧ home = qf q 3 1)

theorem doCtxCreate_creates {home : Nat} (shape : shaped q 4 [] = true) (number : qf q 0 2 ≤ 4095) (fresh : ctx? s (qf q 0 2) = none)
    (room : s.ctxs.length < 256) (job : (job? s (qf q 2 1)).any (fun x => !x.ending) = true) (at_ : HomeOf s q home) :
    doCtxCreate m q reply s =
      ({ s with ctxs := tset s.ctxs (qf q 0 2) { job := qf q 2 1, home := home } }, .done .ok [BitVec.ofNat 8 home] 0) := by
  have named : (qf q 3 1 == 0xFF || (jobPtns s (qf q 2 1)).contains (qf q 3 1)) = true := by
    rcases at_ with ⟨any, -⟩ | ⟨-, member, -⟩
    · simp [any]
    · rw [member, Bool.or_true]
  have home_eq : (if qf q 3 1 = 0xFF then leastHome s (qf q 2 1) else qf q 3 1) = home := by
    rcases at_ with ⟨any, rfl⟩ | ⟨other, -, rfl⟩
    · exact if_pos any
    · exact if_neg other
  refine (guardM_of ?_).trans ?_
  · rw [shape, fresh, job, named, decide_eq_true number, decide_eq_true room]
    rfl
  · rw [home_eq]
    rfl

theorem doCtxDestroy_removes {x : Ctx} (found : ctx? s (qf q 0 2) = some x) (shape : shaped q 2 [] = true) (idle : ctxCmds s (qf q 0 2) = [])
    (ringless : (s.host.rings.all fun r => r.2.ctx != qf q 0 2) = true) :
    doCtxDestroy m q reply s = (removeCtx (qf q 0 2) (x.mwins.foldl (fun s w => freeWindow w.2 s) s), .done .ok [] 0) := by
  unfold doCtxDestroy
  simp only [found]
  exact guardM_of (by rw [shape, idle, ringless]; rfl)

theorem ctx_removeCtx (c : Nat) (s : State) : ctx? (removeCtx c s) c = none := by
  unfold removeCtx ctx?
  exact tget_tdel_same ..

theorem resident_removeCtx (c p : Nat) (s : State) : tget (ptn (removeCtx c s) p).resident c = none := by
  unfold removeCtx
  dsimp only [ptn, tgetD]
  rw [tget_tmap]
  cases tget _ p with
  | none => rfl
  | some x => exact tget_tdel_same ..

end Contexts

/-- A request that is served and done has its response in the state that its handler left (R309). -/
theorem mailbox_answers {m : Fin 4} {op : Nat} {q : Req} {s u : State} {h : Handler} {reply : ReadReply} {st : MStatus} {bs : List Byte} {dt : Nat}
    (serves : served m op q s = true) (ran : h m q reply s = (u, .done st bs dt)) :
    mailbox m.val op anyForm h reply s = answerMbx m q { status := st, bytes := bs, detail := dt } u := by
  rw [mailbox, served_runs _ _ h reply serves rfl, ran]
  rfl

/-! #### The rows -/

/-- Settles O16: a served request is answered, or put under a ticket, with what its handler returns; a fold over partitions is followed by what each
step makes of its own and keeps of the others. -/
theorem mailboxJobs : Obligations.MailboxJobs := by
  refine ⟨fun s m q serves shape mask takes unowned => ?_, fun s m q serves shape mask puts unowned => ?_, fun s m q serves shape mask choice => ?_,
    fun s m q serves room good unfenced => ?_, ?_, ?_, fun s m q home serves shape number fresh few job at_ => ?_,
    fun s m q x serves found shape idle ringless => ?_⟩
  · obtain ⟨t, runs, answered, leaves⟩ := mailboxWith_done (reply := .timeout) _ serves (doPtnEnable_of shape mask (by omega) unowned)
    refine ⟨t, congrArg Host.Outcome.next runs, answered, fun p named => ?_⟩
    rw [leaves.aon, if_pos takes]
    exact foldl_reaches (P := fun p s => p ∈ s.aon.ptnOos) (fun s p => mem_ptnOos_takeOut.mpr (.inl rfl))
      (fun s p r out => mem_ptnOos_takeOut.mpr (.inr out)) _ s (.inl named)
  · obtain ⟨t, runs, answered, leaves⟩ := mailboxWith_done (reply := .timeout) _ serves (doPtnEnable_of shape mask (by omega) unowned)
    refine ⟨t, congrArg Host.Outcome.next runs, answered, fun p named => ?_⟩
    rw [leaves.aon, if_neg (by omega)]
    exact foldl_reaches (P := fun p s => p ∉ s.aon.ptnOos) (g := fun s p => putBack p s) (fun s p out => (mem_ptnOos_putBack.mp out).2 rfl)
      (fun s p r served out => served (mem_ptnOos_putBack.mp out).1) _ s (.inl named)
  · obtain ⟨t, runs, answered, only⟩ := mailbox_done (reply := .timeout) serves (doPtnPower_sets shape mask choice)
    refine ⟨t, runs, answered, fun p named => Prod.ext_iff.mp (?_ : idleTimers (ptn t p) = (BitVec.ofNat 32 (qf q 4 4), BitVec.ofNat 32 (qf q 8 4)))⟩
    rw [ptn_of _ only.ptns]
    refine foldl_reaches (P := fun p s => idleTimers (ptn s p) = (BitVec.ofNat 32 (qf q 4 4), BitVec.ofNat 32 (qf q 8 4)))
      (fun s p => ?_) (fun s p r set => ?_) _ s (.inl named)
    · rw [idleTimers_setPower, if_pos rfl]
    · rw [idleTimers_setPower, set, ite_self]
  · obtain ⟨t, runs, ticketed, only⟩ := mailbox_busy (reply := .timeout) serves room (doJobCreate_goes_on good unfenced)
    exact ⟨t, runs, ticketed, only.jobs.trans (jobs_claimPtns ..), only.ptns⟩
  · rintro s m q _ serves shape present rfl quiet
    have ran := (doJobEnd_of (m := m) (reply := .timeout) shape present).trans (if_pos quiet)
    refine ⟨_, congrArg Host.Outcome.next (mailbox_answers serves ran), answered_answerMbx .., ?_⟩
    rw [job?, answerMbx_jobs, answerMbx_colls, answerMbx_cmds]
    exact endJob_leaves_none ..
  · rintro s m q _ serves room shape present rfl busy
    obtain ⟨t, runs, ticketed, only⟩ := mailbox_busy (reply := .timeout) serves room
      ((doJobEnd_of shape present).trans (if_neg (Bool.eq_false_iff.mp busy)))
    refine ⟨t, runs, ticketed, ?_, only.jobs⟩
    rw [job?, only.jobs]
    exact jobEnding_ending present
  · obtain ⟨t, runs, answered, only⟩ := mailbox_done (reply := .timeout) serves (doCtxCreate_creates shape number fresh few job at_)
    refine ⟨t, runs, answered, (ctx_of _ only.ctxs).trans (tget_tset_same ..), fun c other => (ctx_of c only.ctxs).trans (tget_tset_other _ _ other)⟩
  · obtain ⟨t, runs, answered, only⟩ := mailbox_done (reply := .timeout) serves (doCtxDestroy_removes found shape idle ringless)
    refine ⟨t, runs, answered, (ctx_of _ only.ctxs).trans (ctx_removeCtx ..), fun p => ?_⟩
    rw [ptn_of _ only.ptns]
    exact resident_removeCtx ..

end Sys2Proof.Machine

/-! ### The round and the waits (R234, R252, R254, R296) -/

namespace Sys2Proof.Machine

section Rows

variable {s : State}

/-! #### Rounds (R234) -/

theorem exec_roundSlotAdvance {p : Fin 12} (forge : (ptn s p.val).power = .forge) (runs : (ptn s p.val).round.running = true) :
    exec (.roundSlotAdvance p) s = .next (nextSlot p.val s) := onlyIf_true _ _ (by simp [forge, runs])

theorem exec_roundSlotAdvance_idle {p : Fin 12} (idle : (ptn s p.val).power ≠ .forge ∨ (ptn s p.val).round.running = false) :
    exec (.roundSlotAdvance p) s = .next s := onlyIf_false _ _ (by rcases idle with h | h <;> simp [h])

theorem advance_of_more {r : Round} (more : r.slot + 1 < r.table.length) : advance r = { r with slot := r.slot + 1 } := if_pos more

theorem advance_of_last {r : Round} (last : r.slot + 1 ≥ r.table.length) : advance r = restartRound r := if_neg (by omega)

theorem restartRound_of_table {r : Round} (runs : r.running = true) (some : r.table ≠ [] ∨ r.next.isSome) :
    restartRound r = { r with table := r.next.getD r.table, bfres := if r.next.isSome then r.nextBfres else r.bfres, next := none
                              slot := 0, rounds := r.rounds + 1 } := by
  have held : ¬(r.table.isEmpty = true ∧ r.next.isNone = true) := by
    rcases some with h | h
    · exact fun e => h (List.isEmpty_iff.mp e.1)
    · exact fun e => by simp [Option.isNone_iff_eq_none.mp e.2] at h
  rw [restartRound, if_neg held, ← runs]

theorem advance_of_empty {r : Round} (table : r.table = []) (next : r.next = none) : advance r = r := by
  rw [advance_of_last (by simp [table])]
  exact if_pos (by simp [table, next])

/-- The slot that ends is charged; only the round moves on (R234, R235). -/
theorem round_nextSlot (p : Nat) (s : State) : (ptn (nextSlot p s) p).round = advance (ptn s p).round := by
  rw [nextSlot, ptn_updPtn_same]
  exact congrArg advance (chargeWhere_ptn (·.round) (fun _ _ _ => ⟨rfl, rfl⟩) _ s p)

theorem nextSlot_of_more {p : Nat} (more : (ptn s p).round.slot + 1 < (ptn s p).round.table.length) :
    nextSlot p s = updPtn p (fun x => { x with round := { x.round with slot := x.round.slot + 1 } }) (chargeWhere (fun q _ _ => q == p) s) := by
  have round := chargeWhere_ptn (·.round) (fun _ _ _ => ⟨rfl, rfl⟩) (fun q _ _ => q == p) s p
  unfold nextSlot updPtn
  dsimp only at round ⊢
  rw [round, advance_of_more more]

/-! #### Lists of contexts (R252, R254) -/

theorem mem_listed1 {c d : Nat} {l : List Nat} : d ∈ listed1 c l ↔ d = c ∨ d ∈ l := by
  unfold listed1
  split
  next listed => exact ⟨.inr, fun h => h.elim (fun same => same ▸ List.contains_iff_mem.mp listed) id⟩
  next => simp [or_comm]

theorem nodup_listed1 {c : Nat} {l : List Nat} (once : l.Nodup) : (listed1 c l).Nodup := by
  unfold listed1
  split
  · exact once
  next absent => exact List.nodup_append_comm.mp (List.nodup_cons.mpr ⟨fun listed => absent (List.contains_iff_mem.mpr listed), once⟩)

/-- Only commands that do not wait on the partition, or a fence of it, block a context (R254). -/
theorem blockedIn_iff {p c : Nat} : blockedIn s p c = true ↔ workHere s p c ≠ [] ∧
    (isFenced (ptn s p) = true ∨ ∀ m ∈ workHere s p c, ∃ x, cmd? s m = some x ∧ blockedCmd s m x = true) := by
  simp [blockedIn, Option.any_eq_true]

/-! #### Senior commands (R296) -/

theorem exec_senior_ring {r : Fin 1024} (lacks : waitsForAmount s r.val = true) (junior : (ring s r.val).senior = none) :
    exec (.senior (.ring r)) s = .next (becomeSenior (.ring r) s) := onlyIf_true _ _ (by simp [lacks, junior])

theorem exec_senior_ring_idle {r : Fin 1024} (idle : waitsForAmount s r.val = false ∨ (ring s r.val).senior ≠ none) :
    exec (.senior (.ring r)) s = .next s := by
  refine onlyIf_false _ _ ?_
  rcases idle with h | h
  · simp [h]
  · simp [Option.ne_none_iff_isSome.mp h]

/-- A ring becomes senior after all that did before (R296). -/
theorem becomeSenior_ring (r : Fin 1024) (s : State) :
    ring (becomeSenior (.ring r) s) r.val = { ring s r.val with senior := some s.host.seniorSeq } ∧
    (becomeSenior (.ring r) s).host.seniorSeq = s.host.seniorSeq + 1 ∧ ∀ q ≠ r.val, ring (becomeSenior (.ring r) s) q = ring s q :=
  ⟨ring_updRing_same .., rfl, fun _ other => ring_updRing_other _ _ other⟩

/-- So does a command that takes the rest of its amounts (R296; log 19). -/
theorem becomeSenior_cmd {c : Nat} {x : Cmd} (found : cmd? s c = some x) :
    cmd? (becomeSenior (.cmd c) s) c = some { x with senior := some s.host.seniorSeq } ∧
    (becomeSenior (.cmd c) s).host.seniorSeq = s.host.seniorSeq + 1 ∧ ∀ d ≠ c, cmd? (becomeSenior (.cmd c) s) d = cmd? s d :=
  ⟨cmd_updCmd _ found, congrArg HostIf.seniorSeq (updCmd_host ..), fun _ other => cmd_updCmd_other _ _ other⟩

end Rows

/-- Settles O39: the advance of a round is read off its table, a list takes a context once, and a waiter takes the next number of seniority. -/
theorem roundAndWaits : Obligations.RoundAndWaits := by
  refine ⟨fun s p forge runs more => ?_, fun s p forge runs last some => ?_, fun s p c resident idle => ?_, fun s p c resident blocked => ?_,
    fun s p c queued waiting => ?_, fun l c => ⟨mem_listed1.mpr (.inl rfl), fun d => mem_listed1.mp, nodup_listed1⟩, fun s r lacks junior => ?_,
    fun s c => ⟨fun lacks => ?_, fun idle => onlyIf_false _ _ idle⟩, fun s p c r => ⟨exec_roundSlotAdvance_idle, ?_, ?_, ?_, ?_, exec_senior_ring_idle⟩,
    fun s p c => blockedIn_iff.mp⟩
  · rw [exec_roundSlotAdvance forge runs, nextSlot_of_more more]
  · refine ⟨_, exec_roundSlotAdvance forge runs, ?_, rfl⟩
    rw [round_nextSlot, advance_of_last last, restartRound_of_table runs some]
  · exact onlyIf_true _ _ (by simp [resident, idle])
  · exact onlyIf_true _ _ (by simp [resident, blocked])
  · exact onlyIf_true _ _ (by rw [queued, waiting]; rfl)
  · exact ⟨_, exec_senior_ring lacks junior, becomeSenior_ring r s⟩
  · obtain ⟨x, found, -⟩ := (Option.any_eq_true _ _).mp lacks
    exact ⟨_, x, onlyIf_true _ _ lacks, found, becomeSenior_cmd found⟩
  · exact fun idle => onlyIf_false _ _ (idle.elim (fun away => by simp [Option.isNone_iff_eq_none.mp away]) fun busy => by simp [busy])
  · exact fun idle => onlyIf_false _ _ (idle.elim (fun away => by simp [Option.isNone_iff_eq_none.mp away]) fun works => by simp [works])
  · exact fun idle => onlyIf_false _ _ (idle.elim (fun absent => by rw [absent, Bool.false_and]) fun served => by rw [served, Bool.and_false])
  · rintro ⟨table, next⟩
    by_cases idle : (ptn s p.val).power ≠ .forge ∨ (ptn s p.val).round.running = false
    · exact ⟨s, exec_roundSlotAdvance_idle idle, rfl⟩
    · obtain ⟨forge, runs⟩ := not_or.mp idle
      exact ⟨_, exec_roundSlotAdvance (not_not.mp forge) (Bool.of_not_eq_false runs), (round_nextSlot ..).trans (advance_of_empty table next)⟩

end Sys2Proof.Machine

/-! ### Residency swaps (R231, R250, R252, R253) -/

namespace Sys2Proof.Machine

/-! #### Pattern memory (R54): placing and purging leave the rest of a partition -/

section Placing

variable {β : Type} (g : Ptn → β) (hg : ∀ (x : Ptn) l m, g { x with placed := l, pmem := m } = g x)
include hg

theorem proj_purgePlaced (s : State) (p : Nat) : g (purgePlaced s p) = g (ptn s p) :=
  foldl_same g (fun x t => by
    dsimp only
    split
    · rfl
    · exact hg x _ _) _ _

theorem proj_placePattern {ctx : Nat} {k : Pattern} {x y : Ptn} (placed : placePattern ctx k x = some y) : g y = g x := by
  unfold placePattern at placed
  split at placed
  · rw [Option.some.inj placed]
  · obtain ⟨st, -, rfl⟩ := Option.map_eq_some_iff.mp placed
    exact hg x _ _

theorem proj_foldl_placePattern (ctx : Nat) (l : List Pattern) {o : Option Ptn} {y : Ptn}
    (placed : l.foldl (fun o k => o.bind (placePattern ctx k)) o = some y) :
    ∃ x, o = some x ∧ g y = g x := by
  induction l generalizing o with
  | nil => exact ⟨y, placed, rfl⟩
  | cons k l ih =>
    obtain ⟨z, first, rest⟩ := ih placed
    obtain ⟨x, start, one⟩ := Option.bind_eq_some_iff.mp first
    exact ⟨x, start, rest.trans (proj_placePattern g hg one)⟩

theorem proj_placeAll {s : State} {p ctx : Nat} {x : Ptn} (placed : placeAll s p ctx = some x) : g x = g (ptn s p) := by
  obtain ⟨y, purged, rest⟩ := proj_foldl_placePattern g hg ctx _ placed
  cases purged
  exact rest.trans (proj_purgePlaced g hg s p)

end Placing

section Swaps

variable {s : State} {p : Nat}

/-! #### The start (R252, R253) -/

/-- Whose work an anvil does is read off the commands (R241). -/
theorem anvCtx_of_cmds {s t : State} (cmds : t.cmds = s.cmds) (a : Anvil) : anvCtx t a = anvCtx s a := by
  have lane : laneCmd t = laneCmd s := funext fun l => cmd_of l.cmd cmds
  unfold anvCtx leadCmd
  rw [lane]

theorem anvCtxs_of_cmds {s t : State} (cmds : t.cmds = s.cmds) (a : Anvil) : anvCtxs t a = anvCtxs s a := by
  have lane : laneCmd t = laneCmd s := funext fun l => cmd_of l.cmd cmds
  unfold anvCtxs
  rw [lane]

/-- An anvil that is asked for in tile mode, where it runs the victim's work (R253). -/
def askedFor (s : State) (v : Nat) (a : Anvil) : Anvil :=
  if !killMode s v && (anvCtxs s a).contains v && issuing a then { a with preempt := true } else a

theorem ptn_requestAll (p v : Nat) (s : State) :
    ptn (requestAll p v s) p = { ptn s p with anvils := tmap (fun _ => askedFor s v) (ptn s p).anvils } := ptn_updPtn_same ..

theorem anvil_tmap {f : Anvil → Anvil} {as : Tbl Anvil} {t : State} {i : Nat} {a : Anvil} (anvils : (ptn t p).anvils = tmap (fun _ => f) as)
    (listed : tget as i = some a) : anvil t p i = f a := by
  rw [anvil, tgetD, anvils, tget_tmap, listed]
  rfl

theorem askedFor_eq {v : Nat} {t : State} (jobs : t.jobs = s.jobs) (ctxs : t.ctxs = s.ctxs) (cmds : t.cmds = s.cmds) (a : Anvil) :
    askedFor t v a = if killMode s v = false ∧ (anvCtxs s a).contains v = true ∧ issuing a = true then { a with preempt := true } else a := by
  have mode : killMode t v = killMode s v := by
    unfold killMode job? ctxJob ctx?
    rw [jobs, ctxs]
  rw [askedFor, mode, anvCtxs_of_cmds cmds]
  simp only [Bool.and_eq_true, Bool.not_eq_true', and_assoc]

theorem startSwap_of_blocked (blocked : (ptn s p).swap ≠ none ∨ issues s p = false ∨ 3 ≤ (ptn s p).temp.step) : startSwap p s = s := by
  unfold startSwap
  refine if_pos ?_
  rcases blocked with h | h | h
  · simp [Option.ne_none_iff_isSome.mp h]
  · simp [h]
  · simp [h]

/-- What a swap may start from (R252, R253). -/
structure MaySwap (s : State) (p : Nat) : Prop where
  free : (ptn s p).swap = none
  runs : issues s p = true
  cool : (ptn s p).temp.step < 3

theorem MaySwap.unblocked (may : MaySwap s p) : ((ptn s p).swap.isSome || !issues s p || decide ((ptn s p).temp.step ≥ 3)) = false := by
  obtain ⟨free, runs, cool⟩ := may
  simpa [free, runs] using cool

theorem MaySwap.startSwap_of_place {c : Nat} (may : MaySwap s p) (first : (swapQueue s p).find? (waits s p) = some c)
    (place : chooseVictim s p c = some none) : startSwap p s = updPtn p (fun x => { x with swap := some { phase := 3, incoming := c } }) s := by
  simp only [startSwap, may.unblocked, first, place, Bool.false_eq_true, if_false]

theorem MaySwap.startSwap_of_victim {c v : Nat} (may : MaySwap s p) (first : (swapQueue s p).find? (waits s p) = some c)
    (victim : chooseVictim s p c = some (some v)) :
    startSwap p s = requestAll p v (updPtn p (fun x => { x with swap := some { phase := 1, incoming := c, victim := some v } }) s) := by
  simp only [startSwap, may.unblocked, first, victim, Bool.false_eq_true, if_false]

theorem startSwap_of_no_place (none_ : ((swapQueue s p).find? (waits s p)).all (fun c => (chooseVictim s p c).isNone) = true) : startSwap p s = s := by
  unfold startSwap
  dsimp only
  split
  · rfl
  · cases first : (swapQueue s p).find? (waits s p) with
    | none => rfl
    | some c =>
      have nobody : chooseVictim s p c = none := by simpa [first] using none_
      simp only [nobody]

/-! #### The phases (R253) -/

theorem ptn_setPhase (p n : Nat) (s : State) : ptn (setPhase p n s) p = { ptn s p with swap := (ptn s p).swap.map fun w => { w with phase := n } } :=
  ptn_updPtn_same ..

/-- The swap goes on: it is not suspended, and the partition issues. -/
structure Swapping (s : State) (p : Nat) (w : Swap) : Prop where
  swap : (ptn s p).swap = some w
  going : w.suspended = false
  runs : issues s p = true

theorem Swapping.exec {p : Fin 12} {w : Swap} {t : State} (on : Swapping s p.val w) (ends : endPhase p.val w s = t) :
    exec (.swapPhaseEnd p) s = .next t := by
  simp [Machine.exec, execSwapPhaseEnd, on.swap, on.going, on.runs, ends]

theorem Swapping.ptn_setPhase {w : Swap} (on : Swapping s p w) (n : Nat) :
    ptn (setPhase p n s) p = { ptn s p with swap := some { w with phase := n } } := by
  rw [Machine.ptn_setPhase, on.swap]
  rfl

/-- The victim's residency ends, with its warm list noted (R253). -/
theorem evictCtx_facts (p v : Nat) (s : State) : (ptn (evictCtx p v s) p).swap = (ptn s p).swap ∧
    tget (ptn (evictCtx p v s) p).resident v = none ∧ tget (ptn (evictCtx p v s) p).warmLists v = some (warmList s p v) := by
  have ended : ∀ t, ptn t p = { evicted v (ptn s p) with warmLists := tset (ptn s p).warmLists v (warmList s p v) } →
      (purgePlaced t p).swap = (ptn s p).swap ∧ tget (purgePlaced t p).resident v = none ∧
        tget (purgePlaced t p).warmLists v = some (warmList s p v) := by
    intro t left
    rw [proj_purgePlaced (·.swap) (fun _ _ _ => rfl), proj_purgePlaced (·.resident) (fun _ _ _ => rfl),
      proj_purgePlaced (·.warmLists) (fun _ _ _ => rfl), left]
    exact ⟨rfl, tget_tdel_same .., tget_tset_same ..⟩
  unfold evictCtx
  dsimp only
  split <;> simp only [ptn_updPtn_same] <;> exact ended _ (ptn_updPtn_same ..)

/-! #### Restoring (R231, R250) -/

/-- The swap of a partition, and who is resident in it. -/
def residency (x : Ptn) : Option Swap × Tbl Resid := (x.swap, x.resident)

theorem residency_resume (p i n : Nat) (a : Nat × Anvil) (s : State) : residency (ptn (resume p i n a s) p) = residency (ptn s p) :=
  (ptn_updAnvil_of residency _ (fun _ _ => rfl) _).trans (ptn_updPtn_of residency (by intro _; rfl) p)

/-- Records restored change neither (R250). -/
theorem residency_restoreRecords (p c : Nat) (s : State) : residency (ptn (restoreRecords p c s) p) = residency (ptn s p) := by
  refine foldl_same (fun s => residency (ptn s p)) (fun s v => foldl_same (fun s => residency (ptn s p)) (fun s a => ?_) _ s) _ s
  split
  · rw [swapBytes, ptn_of p (updCtx_ptns ..), ptn_updAnvil_of residency _ (fun _ _ => rfl), residency_resume]
  · rfl

theorem residency_loadPatterns {w : Swap} (c : Nat) (swap : (ptn s p).swap = some w) :
    residency (ptn (loadPatterns p c s) p) = (some { w with loaded := true }, (ptn s p).resident) := by
  unfold loadPatterns
  dsimp only
  split
  next loaded =>
    rw [swap] at loaded
    have same : w.loaded = true := loaded
    rw [residency, swap, ← same]
  next =>
    rw [swapBytes, ptn_of p (updCtx_ptns ..), ptn_updPtn_same, swap]
    rfl

theorem residency_restored {v : State} {w : Swap} {x : Ptn} (swap : (ptn s p).swap = some w)
    (placed : placeAll (updPtn p (fun x => { x with resident := tset x.resident w.incoming {} }) s) p w.incoming = some x)
    (restored : restoreRecords p w.incoming (loadPatterns p w.incoming (updPtn p (fun _ => { x with resident := tdel x.resident w.incoming }) s)) = v) :
    (ptn v p).swap = some { w with loaded := true } ∧ tget (ptn v p).resident w.incoming = none := by
  have same : x.swap = some w := by
    rw [proj_placeAll (·.swap) (fun _ _ _ => rfl) placed, ptn_updPtn_same, ← swap]
  have start : ptn (updPtn p (fun _ => { x with resident := tdel x.resident w.incoming }) s) p = { x with resident := tdel x.resident w.incoming } :=
    ptn_updPtn_same ..
  have kept := (residency_restoreRecords p w.incoming _).trans (residency_loadPatterns w.incoming ((congrArg Ptn.swap start).trans same))
  rw [restored, start] at kept
  obtain ⟨loaded, resident⟩ := Prod.ext_iff.mp kept
  exact ⟨loaded, (congrArg (tget · w.incoming) resident).trans (tget_tdel_same ..)⟩

/-! #### The end of each phase (R253) -/

section Phases

variable {w : Swap} {v : Nat}

theorem endPhase_stopped (phase : w.phase = 1) (victim : w.victim = some v) (done : stopped s p v = true) : endPhase p w s = setPhase p 2 s := by
  simp only [endPhase, phase, victim, done, if_true]

theorem endPhase_saved (phase : w.phase = 2) (victim : w.victim = some v) (done : savedAll s p v = true) :
    endPhase p w s = setPhase p 3 (evictCtx p v s) := by
  simp only [endPhase, phase, victim, done, if_true, OfNat.ofNat_ne_one, if_false]

theorem endPhase_busy (phase : w.phase = 1 ∨ w.phase = 2) (victim : w.victim = some v)
    (busy : (if w.phase = 1 then stopped s p v else savedAll s p v) = false) : endPhase p w s = s := by
  rcases phase with phase | phase
  · have runs : stopped s p v = false := by simpa [phase] using busy
    simp [endPhase, phase, victim, runs]
  · have unsaved : savedAll s p v = false := by simpa [phase] using busy
    simp [endPhase, phase, victim, unsaved]

theorem endPhase_no_victim (phase : w.phase = 1 ∨ w.phase = 2) (none_ : w.victim = none) : endPhase p w s = setPhase p 3 s := by
  rcases phase with phase | phase <;> simp [endPhase, phase, none_]

theorem endPhase_restores {v : State} {x : Ptn} (phase : w.phase = 3)
    (placed : placeAll (updPtn p (fun x => { x with resident := tset x.resident w.incoming {} }) s) p w.incoming = some x)
    (restored : restoreRecords p w.incoming (loadPatterns p w.incoming (updPtn p (fun _ => { x with resident := tdel x.resident w.incoming }) s)) = v) :
    endPhase p w s = if restoredAll v p w.incoming then setPhase p 4 v else v := by
  subst restored
  simp [endPhase, phase, placed]

theorem endPhase_full (phase : w.phase = 3)
    (full : placeAll (updPtn p (fun x => { x with resident := tset x.resident w.incoming {} }) s) p w.incoming = none) : endPhase p w s = s := by
  simp [endPhase, phase, full]

theorem endPhase_warms (phase1 : w.phase ≠ 1) (phase2 : w.phase ≠ 2) (phase3 : w.phase ≠ 3) : endPhase p w s = warmUp p w.incoming s := by
  simp only [endPhase, phase1, phase2, phase3, if_false]

end Phases

/-! #### Warming (R231, R253) -/

/-- Of a partition, lines fetched change only which ones are cached (R210). -/
theorem useCached_eq (line : Nat) (x : Ptn) : ∃ l, useCached line x = { x with cached := l } := by
  unfold useCached
  split
  · exact ⟨_, rfl⟩
  · exact ⟨_, rfl⟩

theorem foldl_useCached_eq (ls : List Nat) (x : Ptn) : ∃ l, ls.foldl (fun x l => useCached l x) x = { x with cached := l } := by
  induction ls generalizing x with
  | nil => exact ⟨_, rfl⟩
  | cons line ls ih =>
    obtain ⟨k, used⟩ := useCached_eq line x
    obtain ⟨l, rest⟩ := ih (useCached line x)
    exact ⟨l, rest.trans (by rw [used])⟩

/-- The partition of a context that is resident from now on, before its warm list is fetched (R231, R253). -/
def nowResident (c : Nat) (x : Ptn) : Ptn :=
  { x with swap := none, resident := tset x.resident c { since := x.cycles.toNat }, warmLists := tdel x.warmLists c
           waiting := x.waiting.filter (· ≠ c), waitedLong := x.waitedLong.filter (· ≠ c) }

/-- An anvil that holds a restored record of the context that is now resident runs on (R246, R253). -/
def runsOn (s : State) (p c : Nat) (a : Anvil) : Anvil :=
  if a.st = .yielded ∧ !a.preempt ∧ anvCtx s a = c then { a with st := .running, charge := (ptn s p).cycles.toNat } else a

theorem ptn_runRestored (p c : Nat) (s : State) :
    ptn (runRestored p c s) p = { ptn s p with anvils := tmap (fun _ => runsOn s p c) (ptn s p).anvils } := ptn_updPtn_same ..

/-- The partition of a context that has warmed: its warm list is fetched, its restored anvils run (R231, R253). -/
theorem ptn_warmUp (p c : Nat) (s : State) : ∃ l, ptn (warmUp p c s) p =
    { nowResident c (ptn s p) with cached := l, anvils := tmap (fun _ => runsOn s p c) (ptn s p).anvils } := by
  obtain ⟨l, fetched⟩ := foldl_useCached_eq ((tgetD (ptn s p).warmLists c []).flatMap (warmLines s)) (nowResident c (ptn s p))
  refine ⟨l, ?_⟩
  unfold warmUp
  dsimp only
  generalize used : swapBytes c _ _ = t
  have cmds : t.cmds = s.cmds := by
    rw [← used]
    exact updCtx_cmds ..
  have ready : ptn t p = { nowResident c (ptn s p) with cached := l } := by
    rw [← used, swapBytes, ptn_of p (updCtx_ptns ..), ptn_updPtn_same, ← fetched]
    rfl
  have on : runsOn t p c = runsOn s p c := funext fun a => by
    unfold runsOn
    rw [anvCtx_of_cmds cmds, ready]
    rfl
  rw [ptn_runRestored, on, ready]
  rfl

theorem runsOn_running {c : Nat} {a : Anvil} (yielded : a.st = .yielded) (stays : a.preempt = false) (own : anvCtx s a = c) :
    (runsOn s p c a).st = .running := by
  rw [runsOn, if_pos ⟨yielded, by simp [stays], own⟩]

end Swaps

/-- Settles O41: a start is read off the choice of the victim, and each phase ends where its work is done. -/
theorem residencySwaps : Obligations.ResidencySwaps := by
  refine ⟨fun s p c free runs cool first place => ?_, fun s p c v free runs cool first place => ?_, fun s p idle => ?_, fun s p none_ => ?_,
    fun s p w swap idle => ?_, fun s p w v swap going runs phase victim done => ?_, fun s p w v swap going runs phase victim done => ?_,
    fun s p w swap going runs phase => ⟨fun v victim busy => ?_, fun none_ => ?_⟩, fun s v p w x swap going runs phase placed restored => ?_,
    fun s p w swap going runs phase full => ?_, fun s p w swap going runs phase1 phase2 phase3 => ?_⟩
  · exact congrArg Host.Outcome.next (MaySwap.startSwap_of_place ⟨free, runs, cool⟩ first place)
  · refine ⟨_, congrArg Host.Outcome.next (MaySwap.startSwap_of_victim ⟨free, runs, cool⟩ first place), ?_, fun i a listed => ?_⟩
    · rw [ptn_requestAll, ptn_updPtn_same]
    · rw [← askedFor_eq (updPtn_jobs ..) (updPtn_ctxs ..) (updPtn_cmds ..)]
      exact anvil_tmap (congrArg Ptn.anvils (ptn_requestAll ..)) (by rw [ptn_updPtn_same]; exact listed)
  · refine congrArg Host.Outcome.next ?_
    rcases idle with h | h | h | h
    · exact startSwap_of_blocked (.inl h)
    · exact startSwap_of_blocked (.inr (.inl h))
    · exact startSwap_of_blocked (.inr (.inr h))
    · exact startSwap_of_no_place h
  · simp only [exec, execSwapPhaseEnd, none_]
  · have stays : (w.suspended || !issues s p.val) = true := by rcases idle with h | h <;> simp [h]
    simp only [exec, execSwapPhaseEnd, swap, stays, if_true]
  · have on : Swapping s p.val w := ⟨swap, going, runs⟩
    exact ⟨_, on.exec (endPhase_stopped phase victim done), on.ptn_setPhase 2⟩
  · obtain ⟨kept, gone, warm⟩ := evictCtx_facts p.val v s
    refine ⟨_, Swapping.exec ⟨swap, going, runs⟩ (endPhase_saved phase victim done), ?_⟩
    rw [ptn_setPhase, kept, swap]
    exact ⟨rfl, gone, warm⟩
  · exact Swapping.exec ⟨swap, going, runs⟩ (endPhase_busy phase victim busy)
  · have on : Swapping s p.val w := ⟨swap, going, runs⟩
    exact ⟨_, on.exec (endPhase_no_victim phase none_), on.ptn_setPhase 3⟩
  · have on : Swapping s p.val w := ⟨swap, going, runs⟩
    obtain ⟨loaded, away⟩ := residency_restored swap placed restored
    have ends := endPhase_restores phase placed restored
    refine ⟨loaded, away, fun lacks => on.exec (ends.trans (if_neg (by simp [lacks]))), fun all => ⟨_, on.exec (ends.trans (if_pos all)), ?_⟩⟩
    rw [ptn_setPhase, loaded]
    rfl
  · exact Swapping.exec ⟨swap, going, runs⟩ (endPhase_full phase full)
  · obtain ⟨l, warmed⟩ := ptn_warmUp p.val w.incoming s
    refine ⟨_, Swapping.exec ⟨swap, going, runs⟩ (endPhase_warms phase1 phase2 phase3), ?_⟩
    refine ⟨by rw [warmed]; rfl, ?_, ?_, ?_, ?_, fun i a listed yielded stays own => ?_⟩
    · rw [warmed]
      exact tget_tset_same ..
    · rw [warmed]
      simp [nowResident]
    · rw [warmed]
      simp [nowResident]
    · rw [warmed]
      exact tget_tdel_same ..
    · rw [anvil_tmap (congrArg Ptn.anvils warmed) listed]
      exact runsOn_running yielded stays own

end Sys2Proof.Machine

/-! ### Notices (R342, R343): a command number that is listed twice -/

namespace Sys2Proof.Machine

/-- A search of this module's in a job that spans modules 0 and 1. -/
def rootSearch : Cmd := { ring := 7, ctx := 5, job := 0, home := 0, entry := 0x10, opcode := 0x10, coll := 6, stage := .running }

/-- A part of an insertion of module 1's in that job. -/
def peerInsert : Cmd := { rootSearch with opcode := 0x20, entry := 0x20, origin := some (1, 7) }

/-- Module 1 tells of its reset at LEVEL 3, which takes partition 0 (R342). -/
def resetNotice : Msg := { type := 5, src := 1, dst := 0, body := [3, 0, 1, 0, 0, 0, 0, 0] }

/-- The notice waits; the table of commands lists number 1 twice, the search first. -/
def listedTwice : State :=
  { State.reset with
    jobs := [(0, { ptns := [0], modules := 2, mask := 3 })], cmds := [(1, rootSearch), (1, peerInsert)]
    icern := { inbox := [resetNotice] } }

/-- The withdrawal of module 1's parts (R343) takes the number, and so the search, out of the table. -/
theorem cmd_listedTwice_gone (t : State) (next : exec (.fenceNotice 1) listedTwice = .next t) : cmd? t 1 = none := by
  obtain rfl := Host.Outcome.next.inj next
  decide +kernel

/-- Refutes O53: of a root's own command in flight it says that a notice fails it ABORTED_PEER; where the table of commands, which the statement
leaves free, lists its number a second time, for a part of the module that reset, the withdrawal of that part deletes it unanswered. -/
theorem not_noticesAndProbes : ¬ Obligations.NoticesAndProbes := by
  unfold Obligations.NoticesAndProbes
  intro h
  obtain ⟨-, -, failsRoots, -⟩ := h
  obtain ⟨t, y, next, found, -⟩ := failsRoots listedTwice 1 resetNotice 0 1 rootSearch rfl (by decide +kernel) (by decide +kernel) rfl rfl rfl rfl rfl
    (by decide) (by decide)
  rw [cmd_listedTwice_gone t next] at found
  cases found

end Sys2Proof.Machine

/-! ### The frame of every row (R263, R276, R289, R309, R311, R347, R349, R381, R383, R430) -/

namespace Sys2Proof.Machine

/-- Settles O3: what `Keeps` says of each row's meaning, up from the shared operations, holds its frame and the waiting commands. -/
theorem frames : Obligations.Frames := by
  intro i s
  obtain ⟨t, next, kept⟩ := (k_exec i s).get
  exact ⟨t, next, kept.pending, kept.only⟩

end Sys2Proof.Machine

/-! ### Doorbells (R271–R273, R283) -/

namespace Sys2Proof.Machine

section Doorbells

variable {s : State} {r v : Nat}

/-- An invalid doorbell raises DB_INVALID, and changes no ring and nothing beyond the host's side and the Hearth (R273). -/
theorem dbInvalid_facts (r : Nat) (s : State) :
    (dbInvalid r s).host.rings = s.host.rings ∧ bit (dbInvalid r s).host.evtPend.toNat 1 = true ∧
      { dbInvalid r s with host := s.host, hearth := s.hearth } = s :=
  ⟨raise_host_rings .., raise_pending_bit .dbInvalid .., raise_frame ..⟩

theorem submitTail_of_valid (made : ringExists s r = true) (inside : v % 65536 < (ring s r).size) :
    submitTail r v s = setRing r { ring s r with sqTail := v % 65536 } s := if_neg (by simp [made, inside])

theorem submitTail_of_invalid (bad : ringExists s r = false ∨ (ring s r).size ≤ v % 65536) : submitTail r v s = dbInvalid r s :=
  if_pos (by simpa using bad)

/-- The entries from a ring's completion head to a place, around its end. -/
def pastHead (x : Ring) (n : Nat) : Nat := (n + x.size - x.cqHead) % x.size

theorem completionHead_of_valid (made : ringExists s r = true) (inside : v % 65536 < (ring s r).size)
    (written : pastHead (ring s r) (v % 65536) ≤ pastHead (ring s r) (ring s r).cqTail) :
    completionHead r v s = setRing r { ring s r with cqHead := v % 65536 } s := by
  rw [pastHead, pastHead] at written
  exact if_neg (by simp [made, inside, written])

theorem completionHead_of_invalid (bad : ringExists s r = false ∨ (ring s r).size ≤ v % 65536 ∨
    pastHead (ring s r) (ring s r).cqTail < pastHead (ring s r) (v % 65536)) : completionHead r v s = dbInvalid r s :=
  if_pos (by simpa [pastHead, or_assoc] using bad)

theorem payloadDone_of_waiting {c : Nat} {x : Cmd} (waits : waitingTag s r (BitVec.ofNat 32 v) = some c) (found : cmd? s c = some x) :
    payloadDone r v s = setCmd c { x with stage := .reading } s := by
  simp only [payloadDone, waits, updCmd, found]

theorem payloadDone_of_unknown (unknown : waitingTag s r (BitVec.ofNat 32 v) = none) : payloadDone r v s = dbInvalid r s := by
  simp only [payloadDone, unknown]

end Doorbells

/-- Settles O6: each doorbell takes effect where it is valid; where it is not, it is one DB_INVALID. -/
theorem doorbells : Obligations.Doorbells := by
  refine ⟨fun s r v made inside => ?_, fun s r v bad => ?_, fun s r v made inside written => ?_, fun s r v bad => ?_,
    fun s r v c x waits found => ?_, fun s r v unknown => ?_⟩
  · exact congrArg Host.Outcome.next (submitTail_of_valid made inside)
  · exact ⟨_, congrArg Host.Outcome.next (submitTail_of_invalid bad), dbInvalid_facts r s⟩
  · exact congrArg Host.Outcome.next (completionHead_of_valid made inside written)
  · exact ⟨_, congrArg Host.Outcome.next (completionHead_of_invalid bad), dbInvalid_facts r s⟩
  · exact congrArg Host.Outcome.next (payloadDone_of_waiting (by rwa [BitVec.ofNat_toNat]) found)
  · obtain ⟨-, raised, frame⟩ := dbInvalid_facts r s
    exact ⟨_, congrArg Host.Outcome.next (payloadDone_of_unknown (by rwa [BitVec.ofNat_toNat])), raise_cmds .., raised, frame⟩

end Sys2Proof.Machine

/-! ### Entry fetch (R271, R273, R348, R349, R433) -/

namespace Sys2Proof.Machine

section Fetch

variable {s : State} {r : Nat} {reply : ReadReply}

/-- A ring that runs and is not being stopped fetches its next entry where fewer than 32 are fetched (R271). -/
theorem fetches_of_pending (made : ringExists s r = true) (running : (ring s r).st = .running) (kept : (ring s r).stopping = false)
    (serves : linkServes s = true) (pending : (ring s r).sqHead ≠ (ring s r).sqTail) (room : (ring s r).fetched.length < 32) :
    fetches s r = true := by
  simp [fetches, made, running, kept, serves, pending, room]

/-- A read that fails with a cause stops the ring, raises RING_FAULT and posts the code of that cause (R273, R433). -/
theorem fetchEntry_of_cause {k : Nat} (cause : replyCause reply = some k) :
    fetchEntry r reply s = raise .ringFault 3 r 0 (updRing r (fun x => { x with st := .error })
      (postFault (hostFault 0x71 k (some r)) (noteAer k s))) := by
  cases reply with
  | data bs => cases cause
  | ur => cases cause; rfl
  | ca => cases cause; rfl
  | poison => cases cause; rfl
  | timeout => cases cause; rfl

/-- What a ring is left with that a failed fetch stops, and the code and the count of faults that it adds (R273, R349). -/
theorem ringFault_facts (r : Nat) (code : W32) (s : State) :
    let t := raise .ringFault 3 r 0 (updRing r (fun x => { x with st := .error }) (postFault code s))
    ring t r = { ring s r with st := .error } ∧ bit t.host.evtPend.toNat 0 = true ∧
      t.aon.codes = (code :: s.aon.codes).take 16 ∧ t.faults = satInc s.faults := by
  refine ⟨?_, raise_pending_bit .ringFault .., ?_, ?_⟩
  · rw [ring_of_rings r (raise_host_rings ..), ring_updRing_same, ring_of_rings r (postFault_host_rings ..)]
  · rw [raise_aon, updRing_aon, postFault_aon]
  · rw [raise_faults, updRing_faults, postFault_faults]

end Fetch

/-- Settles O8: a ring that fetches takes the entry that was read, or stops with the cause of the read that failed. -/
theorem entryFetch : Obligations.EntryFetch := by
  refine ⟨fun s r bs made running kept serves pending room => ?_, fun s r reply k made running kept serves pending room failed => ?_⟩
  · exact onlyIf_true _ _ (fetches_of_pending made running kept serves pending room)
  · have cause : replyCause reply = some k := by
      rcases failed with ⟨rfl, rfl⟩ | ⟨rfl, rfl⟩ | ⟨rfl, rfl⟩ | ⟨rfl, rfl⟩ <;> rfl
    exact ⟨_, (onlyIf_true _ _ (fetches_of_pending made running kept serves pending room)).trans
      (congrArg Host.Outcome.next (fetchEntry_of_cause cause)), ringFault_facts r _ (noteAer k s)⟩

end Sys2Proof.Machine

/-! ### The host link (R258, R260, R261, R264, R275, R288, R362, R411, R412) -/

namespace Sys2Proof.Machine

/-! #### Commands of a link that is lost (R261, R341) -/

/-- What is left of a ring command that ends with no completion: one bound to commit goes on in silence (R261, R341). -/
def vanishCmd (x : Cmd) : Option Cmd := if mustCommit x then some { x with silent := true } else none

theorem vanishCmd_again (o : Option Cmd) : (o.bind vanishCmd).bind vanishCmd = o.bind vanishCmd := by
  cases o with
  | none => rfl
  | some x =>
    cases bound : mustCommit x with
    | true =>
      have still : mustCommit { x with silent := true } = true := bound
      simp [vanishCmd, bound, still]
    | false => simp [vanishCmd, bound]

section Vanish

variable {s : State} {c d : Nat}

@[simp] theorem freePools_cmds (hs : List Hold) (s : State) : (freePools hs s).cmds = s.cmds :=
  (k_freePools (m := [.host]) (within_self _) _ (Keeps.refl _ s)).same_cmds

/-- The end of a command with no completion leaves every other command alone. -/
theorem cmd_vanish_other (other : d ≠ c) : cmd? (vanish c s) d = cmd? s d := by
  unfold vanish
  cases found : cmd? s c with
  | none => rfl
  | some x =>
    have gone : ∀ u : State, u.cmds = s.cmds →
        cmd? (delCmd c (freeGranules x.granules (freePools x.holds (withdraw c u)))) d = cmd? s d := fun u same => by
      obtain ⟨_, _, others⟩ := withdraw_cmd ((cmd_of c same).trans found)
      rw [cmd_delCmd_other _ other, cmd_freeGranules, cmd_of d (freePools_cmds ..), others d other, cmd_of d same]
    dsimp only
    split
    · exact cmd_updCmd_other _ _ other
    · split
      · exact gone s rfl
      · exact gone _ (abortAll_cmds ..)

theorem cmd_vanish_same : cmd? (vanish c s) c = (cmd? s c).bind vanishCmd := by
  unfold vanish
  cases found : cmd? s c with
  | none => exact found
  | some x =>
    cases bound : mustCommit x with
    | true => simp [vanishCmd, bound, found]
    | false => simp [vanishCmd, bound]

/-- Of the commands that a link loss ends, each ends so; a number that the table lists twice does not come back. -/
theorem cmd_foldl_vanish (cs : List Nat) (s : State) (d : Nat) :
    cmd? (cs.foldl (fun s c => vanish c s) s) d = if d ∈ cs then (cmd? s d).bind vanishCmd else cmd? s d := by
  induction cs generalizing s with
  | nil => simp
  | cons c cs ih =>
    rw [List.foldl_cons, ih]
    by_cases same : d = c
    · subst same
      simp [cmd_vanish_same, vanishCmd_again]
    · simp [cmd_vanish_other same, same]

end Vanish

section Loss

variable {s : State} {c : Nat} {x : Cmd}

theorem loseWork_cmds (s : State) : (loseWork s).cmds =
    ((ringCmds s).foldl (fun s c => vanish c s) (dropWork (fun c => (ringCmds s).contains c) (postFault (portFault 7) s))).cmds := by
  have same : ringCmds (postFault (portFault 7) s) = ringCmds s := by rw [ringCmds, cmdsOf, postFault_cmds, ringCmds, cmdsOf]
  have kept : ∀ u : State, (endKills (dropWrites (errorRings u))).cmds = u.cmds := fun _ => rfl
  unfold loseWork
  dsimp only
  rw [kept, same]

/-- A ring command after a link loss: gone, or on its way to its commit in silence; only cycles may have been charged to it (R241, R261). -/
theorem cmd_loseWork (live : c ∈ ringCmds s) (found : cmd? s c = some x) :
    ∃ n, cmd? (loseWork s) c = vanishCmd { x with anvilCyc := n } := by
  obtain ⟨n, charged⟩ := (charged_dropWork (fun c => (ringCmds s).contains c) (postFault (portFault 7) s)).cmd c x
    ((cmd_of c (postFault_cmds ..)).trans found)
  refine ⟨n, ?_⟩
  rw [cmd_of c (loseWork_cmds s), cmd_foldl_vanish, if_pos live, charged, Option.bind_some]

/-- What a link loss leaves (R261, R341): no posted or CXL.cache write, no CXL.mem access that waits, every ring in ERROR without an interrupt timer,
and of the ring commands those past COMMIT, which complete nothing. -/
structure WorkLost (s u : State) : Prop where
  posted : postedWrites u = []
  cache : u.host.cache = []
  memWaits : u.host.memWaits = []
  rings : ∀ r x, (r, x) ∈ u.host.rings → x.st = .error ∧ x.ctimeOn = false
  cmds : ∀ c x, c ∈ ringCmds s → cmd? s c = some x →
    (mustCommit x = false → cmd? u c = none) ∧ (mustCommit x = true → ∃ y, cmd? u c = some y ∧ y.stage = x.stage ∧ y.silent = true)

theorem workLost_loseWork (s : State) : WorkLost s (loseWork s) := by
  refine ⟨rfl, rfl, rfl, fun r x stopped => ?_, fun c x live found => ?_⟩
  · obtain ⟨_, _, made⟩ := List.mem_map.mp stopped
    cases made
    exact ⟨rfl, rfl⟩
  · obtain ⟨n, left⟩ := cmd_loseWork live found
    have unmoved : mustCommit { x with anvilCyc := n } = mustCommit x := rfl
    rw [left, vanishCmd, unmoved]
    exact ⟨fun free => if_neg (by simp [free]), fun bound => ⟨_, if_pos bound, rfl, rfl⟩⟩

/-- The link's registers do not bear on it. -/
theorem WorkLost.updLink {u : State} (lost : WorkLost s u) (f : Link → Link) : WorkLost s (updLink f u) :=
  ⟨lost.posted, lost.cache, lost.memWaits, lost.rings, lost.cmds⟩

/-- The link down with its work lost and its IDE keys gone, before the retrain is counted; b tells whether its time is counted (R261, R366, R380). -/
def linkGone (b : Bool) (s : State) : State :=
  updLink (fun l => { l with up := false, lost := b, cfg := { l.cfg with ide := 0 } }) (loseWork s)

theorem exec_linkDown (up : s.host.link.up = true) : ∃ b, exec .linkDown s = .next (spend 1 (countRetrain (linkGone b s))) :=
  ⟨_, onlyIf_true (fun s => spend 1 (linkLoss true (Config.freeNat s.free % 2 == 0) s)) s up⟩

end Loss

/-! #### Training (R258, R260, R362) -/

section Training

variable {s : State} {w r : Nat} {flit : Bool}

theorem fullService_iff : fullService w r flit = true ↔ flit = true ∧ (r = 128 ∨ r = 64 ∨ r = 32) ∧ (w = 16 ∨ w = 8 ∨ w = 4) := by
  have rate : 0 < rateCode r ↔ r = 128 ∨ r = 64 ∨ r = 32 := by unfold rateCode; split_ifs <;> simp_all
  have width : 0 < widthCode w ↔ w = 16 ∨ w = 8 ∨ w = 4 := by unfold widthCode; split_ifs <;> simp_all
  simp [fullService, rate, width, and_assoc]

/-- The link right after a training that leaves it degraded, LINK_DEG raised and its code posted (R260, R433). -/
def degraded (w r : Nat) (s : State) : State :=
  raise .linkDeg 0 0 0 (postFault (portFault 8)
    (updLink (fun l => { l with up := true, width := w, rate := rateCode r, deg := true, retrainDue := true, lost := false, byReset := false }) s))

theorem trained_of_degraded (short : fullService w r flit = false) :
    trained w r flit s = if s.host.link.byReset = true then degraded w r s else countRetrain (degraded w r s) := by
  rw [trained, if_neg (by simp [short])]
  cases reset : s.host.link.byReset <;> simp [noteRetrain, degraded]

theorem degraded_facts (w r : Nat) (s : State) :
    bit (degraded w r s).host.evtPend.toNat 3 = true ∧ (degraded w r s).aon.codes.head? = some (portFault 8) ∧
      (degraded w r s).host.link =
        { s.host.link with up := true, width := w, rate := rateCode r, deg := true, retrainDue := true, lost := false, byReset := false } := by
  refine ⟨raise_pending_bit .linkDeg .., ?_, ?_⟩
  · rw [degraded, raise_aon, postFault_aon]
    rfl
  · rw [degraded, raise_host_link, postFault_host_link, updLink_link]

end Training

/-! #### PERST_N (R411) -/

/-- A conventional reset: PERST_N is asserted, no training runs, the link and the vectors have their reset values (R285, R411). -/
theorem assertPerst_facts {s : State} (good : s.pins.pwrgd = true) :
    (assertPerst s).pins.perst = true ∧ (assertPerst s).pins.linkTraining = false ∧ (assertPerst s).host.link = {} ∧
      ∀ v, vec (assertPerst s) v = {} := by
  let u := updPins (fun p => { p with perst := true }) s
  have lost : (if u.host.link.up then linkLoss false false u else u).pins = u.pins := by
    split
    · exact (k_linkLoss (within_self _) _ _ (Keeps.refl _ u)).same_pins
    · rfl
  have resets : assertPerst s = updPins (fun p => { p with linkTraining := false })
      (resetFunction (if u.host.link.up then linkLoss false false u else u)) := if_pos good
  rw [resets]
  exact ⟨congrArg Pins.perst lost, rfl, rfl, fun _ => rfl⟩

/-- Settles O13: a training by what R258 takes for full service, a loss by what it leaves of rings, writes and commands. -/
theorem linkTraining : Obligations.LinkTraining := by
  unfold Obligations.LinkTraining
  refine ⟨fun s w r may width rate => ?_, fun s w r flit may short => ?_, fun s deg due => ?_, fun s up => ?_, fun s up idle => ?_,
    fun s up live => ?_, fun s => rfl, fun s up on idle => ?_, fun s => rfl, fun s good => ?_, fun s off => ?_, fun s => rfl⟩
  · have full : fullService w r true = true := fullService_iff.mpr ⟨rfl, rate, width⟩
    exact (onlyIf_true _ _ may).trans (congrArg Host.Outcome.next (if_pos full))
  · have less : fullService w r flit = false := by
      rw [Bool.eq_false_iff, ne_eq, fullService_iff]
      rintro ⟨on, rate, width⟩
      rcases short with off | none | none
      · exact absurd (on.symm.trans off) (by decide)
      · exact none width
      · exact none rate
    exact ⟨_, (onlyIf_true _ _ may).trans (congrArg Host.Outcome.next (trained_of_degraded less)), degraded_facts w r s⟩
  · exact onlyIf_true _ _ (by simp [deg, due])
  · obtain ⟨b, down⟩ := exec_linkDown up
    obtain ⟨posted, cache, memWaits, rings, cmds⟩ := (workLost_loseWork s).updLink
      (fun l => { l with up := false, lost := b, cfg := { l.cfg with ide := 0 } })
    exact ⟨_, down, rfl, rfl, posted, cache, memWaits, rings, cmds⟩
  · refine (onlyIf_true _ _ up).trans (congrArg Host.Outcome.next ?_)
    rw [enterD3, if_pos idle]
  · obtain ⟨posted, cache, -, rings, cmds⟩ := workLost_loseWork s
    refine ⟨_, (onlyIf_true _ _ up).trans (congrArg Host.Outcome.next ?_), posted, cache, rings, cmds⟩
    rw [enterD3, if_neg (by simp [live])]
    rfl
  · exact onlyIf_true _ _ (by simp [up, on, idle])
  · exact ⟨_, rfl, assertPerst_facts good⟩
  · exact congrArg Host.Outcome.next (if_neg (by simp [off]))

end Sys2Proof.Machine

/-! ### A step: the command at the front of the queue -/

namespace Sys2Proof.Machine

/-- Settles O1: both halves are the step read off its queue. -/
theorem stepRunsTheFrontCommand : Obligations.StepRunsTheFrontCommand := ⟨fun _ _ _ => rfl, fun _ => rfl⟩

end Sys2Proof.Machine

/-! ### The response of an Assay run (R425): sums, masks, and the ticket that stores it -/

namespace Sys2Proof.Machine

/-! #### Bytes and masks -/

theorem leNat_leBytes (n v : Nat) : leNat (leBytes n v) = v % 256 ^ n := by
  induction n generalizing v with
  | zero => simp [leBytes, leNat, Nat.mod_one]
  | succ n ih =>
    rw [leBytes, leNat, ih, BitVec.toNat_ofNat, Nat.pow_succ' (n := n), Nat.mod_mul]

theorem bit_add_two_pow {m j : Nat} (clear : bit m j = false) (i : Nat) : bit (m + 2 ^ j) i = (bit m i || i == j) := by
  simp only [bit_testBit] at clear ⊢
  rcases Nat.lt_trichotomy i j with below | same | above
  · rw [Nat.add_comm, Nat.testBit_two_pow_add_gt below, beq_false_of_ne below.ne, Bool.or_false]
  · rw [same, Nat.add_comm, Nat.testBit_two_pow_add_eq, clear]
    simp
  · obtain ⟨k, rfl⟩ : ∃ k, i = j + 1 + k := ⟨i - (j + 1), by omega⟩
    have even : m / 2 ^ j % 2 = 0 := by simpa [Nat.testBit_eq_decide_div_mod_eq] using clear
    have halves : (m + 2 ^ j) / 2 ^ (j + 1) = m / 2 ^ (j + 1) := by
      rw [Nat.pow_succ, ← Nat.div_div_eq_div_mul, ← Nat.div_div_eq_div_mul, Nat.add_div_right _ (Nat.two_pow_pos j)]
      omega
    rw [beq_false_of_ne above.ne', Bool.or_false, Nat.add_comm _ k, ← Nat.testBit_div_two_pow, halves, Nat.testBit_div_two_pow]

/-- The mask of a list has the bits that the list names. -/
theorem bit_maskOf (l : List Nat) (i : Nat) : bit (maskOf l) i = true ↔ i ∈ l := by
  have sets : ∀ (l : List Nat) (m : Nat), bit (l.foldl (fun m i => if bit m i then m else m + 2 ^ i) m) i = true ↔ bit m i = true ∨ i ∈ l := by
    intro l
    induction l with
    | nil => simp
    | cons j l ih =>
      intro m
      rw [List.foldl_cons, ih]
      split
      · rename_i set
        rw [List.mem_cons]
        constructor
        · tauto
        · rintro (h | rfl | h)
          · exact .inl h
          · exact .inl set
          · exact .inr h
      · rename_i clear
        rw [bit_add_two_pow (Bool.eq_false_iff.mpr clear), List.mem_cons, Bool.or_eq_true, beq_iff_eq, or_assoc]
  rw [maskOf, sets, bit_zero]
  simp

theorem maskOf_lt {n : Nat} {l : List Nat} (below : ∀ i ∈ l, i < n) : maskOf l < 2 ^ n :=
  Nat.lt_pow_two_of_testBit _ fun i high => by
    rw [← bit_testBit, Bool.eq_false_iff, ne_eq, bit_maskOf]
    exact fun member => absurd (below i member) (by omega)

/-- A piece of bytes made of pieces of one length. -/
theorem take_drop_flatMap {α β : Type} {k : Nat} {g : α → List β} (each : ∀ a, (g a).length = k) {l : List α} {i : Nat} (place : i < l.length) :
    ((l.flatMap g).drop (k * i)).take k = g l[i] := by
  induction l generalizing i with
  | nil => exact absurd place (Nat.not_lt_zero i)
  | cons a l ih =>
    cases i with
    | zero => simp [← each a]
    | succ i =>
      rw [List.flatMap_cons, Nat.mul_succ, Nat.add_comm, ← List.drop_drop, ← each a, List.drop_left, each a]
      exact ih (Nat.lt_of_succ_lt_succ place)

/-! #### The response (R425) -/

/-- The mask of a partition in the response: the pseudo-channels of its records that have a mismatch. -/
def failMask (rs : List (Nat × AssayRec)) (p : Nat) : Nat := maskOf ((rs.filter fun r => r.1 / 64 == p && !r.2.bad.isEmpty).map (·.1 % 64))

theorem assayResponse_eq (rs : List (Nat × AssayRec)) : assayResponse rs =
    leBytes 8 (rs.map fun r => r.2.words).sum ++ (leBytes 8 (rs.map fun r => r.2.bad.length).sum ++ (upto 12).flatMap fun p => leBytes 8 (failMask rs p)) := by
  have total : ∀ f : Nat × AssayRec → Nat, rs.foldl (fun n r => n + f r) 0 = (rs.map f).sum := fun f => by
    rw [List.sum_eq_foldl, List.foldl_map]
  rw [assayResponse, total fun r => r.2.words, total fun r => r.2.bad.length, List.append_assoc]
  rfl

theorem failMask_lt (rs : List (Nat × AssayRec)) (p : Nat) : failMask rs p < 2 ^ 64 :=
  maskOf_lt fun i named => by
    obtain ⟨r, -, rfl⟩ := List.mem_map.mp named
    exact Nat.mod_lt _ (by decide)

theorem bit_failMask (rs : List (Nat × AssayRec)) (p : Fin 12) (c : Fin 32) (h : Fin 2) :
    bit (failMask rs p) (2 * c + h) = true ↔ ∃ r ∈ rs, r.1 = assayKey p c h ∧ r.2.bad ≠ [] := by
  simp only [failMask, bit_maskOf, List.mem_map, List.mem_filter, Bool.and_eq_true, beq_iff_eq, Bool.not_eq_true', List.isEmpty_eq_false_iff, assayKey]
  constructor
  · rintro ⟨r, ⟨held, ptn, bad⟩, half⟩
    exact ⟨r, held, by omega, bad⟩
  · rintro ⟨r, held, key, bad⟩
    exact ⟨r, ⟨held, by omega, bad⟩, by omega⟩

theorem assayResponse_mask (rs : List (Nat × AssayRec)) (p : Fin 12) :
    leNat (((assayResponse rs).drop (16 + 8 * p)).take 8) = failMask rs p := by
  have masks := take_drop_flatMap (g := fun p => leBytes 8 (failMask rs p)) (fun _ => length_leBytes 8 _) (l := upto 12) (i := p) (by simp [upto])
  rw [assayResponse_eq, ← List.append_assoc, ← List.drop_drop, List.drop_left' (by simp [length_leBytes]), masks, leNat_leBytes]
  simp only [upto, List.getElem_range]
  exact Nat.mod_eq_of_lt (failMask_lt rs p)

/-- Settles O60: the response is cut at its fields; a bit of a mask is a key that the mask's list names. -/
theorem assayResponses : Obligations.AssayResponse := by
  refine ⟨fun rs => ⟨?_, ?_, ?_⟩, fun rs p c h => ?_, fun s m q bad serves room good => ?_, fun s n k ps cold rs held unanswered runs work ended => ?_⟩
  · simp [assayResponse_eq, length_leBytes, upto]
  · rw [assayResponse_eq, List.take_left' (length_leBytes ..), leNat_leBytes, show 256 ^ 8 = 2 ^ 64 from rfl]
  · rw [assayResponse_eq, List.drop_left' (length_leBytes ..), List.take_left' (length_leBytes ..), leNat_leBytes, show 256 ^ 8 = 2 ^ 64 from rfl]
  · rw [assayResponse_mask, bit_failMask]
  · obtain ⟨t, runs, ticketed, -⟩ := mailboxWith_busy (reply := .timeout) (fun q => .heldTest q bad []) serves room (doAssayRun_runs bad good)
    exact ⟨t, congrArg Host.Outcome.next runs, ticketed⟩
  · obtain ⟨t, runs, answers⟩ := busyComplete_of_done held unanswered (by simp [runs]) (progress_test n work ended)
    exact ⟨t, runs, answers.response⟩

end Sys2Proof.Machine

/-! ### Reports by mailbox (R309, R310, R315, R318–R320) -/

namespace Sys2Proof.Machine

section Reports

variable {m : Nat} {q : Req} {reply : ReadReply} {s : State}

/-! #### SUMMARY (R319, R320) -/

theorem doSummary_snapshots (shape : shaped q 13 [] = true) (own : qf q 0 8 = 0) (first : qf q 12 1 = 0) : doSummary m q reply s =
    (updHearth (fun h => { h with snapshot := some (snapshot s s.hearth.snapSeq), snapSeq := h.snapSeq + 1 }) s,
      .done .ok (page (snapshot s s.hearth.snapSeq) 0) 0) := by
  simp [doSummary, shape, own, first, mOk]

theorem doSummary_pages {snap : List Byte} (shape : shaped q 13 [] = true) (own : qf q 0 8 = 0) (later : qf q 12 1 ≠ 0) (last : qf q 12 1 ≤ 15)
    (taken : s.hearth.snapshot = some snap) : doSummary m q reply s = (s, .done .ok (page snap (qf q 12 1)) 0) := by
  simp [doSummary, shape, own, later, Nat.not_lt.mpr last, taken, mOk]

theorem doSummary_posts (shape : shaped q 13 [] = true) (named : qf q 0 8 ≠ 0) (whole : qf q 0 8 % 64 = 0) (host : m ≠ 3)
    (size : 4096 ≤ qf q 8 4 ∧ qf q 8 4 ≤ 65536 ∧ qf q 8 4 % 4096 = 0) (fits : (snapshot s s.hearth.snapSeq).length ≤ qf q 8 4) :
    doSummary m q reply s = (updHearth (fun h => { h with snapSeq := h.snapSeq + 1 }) (postBytes (qf q 0 8) (snapshot s s.hearth.snapSeq) s),
      .done .ok (leBytes 4 (snapshot s s.hearth.snapSeq).length) 0) := by
  obtain ⟨least, most, pages⟩ := size
  simp [doSummary, shape, named, whole, host, pages, mOk, Nat.not_lt.mpr least, Nat.not_lt.mpr most, Nat.not_lt.mpr fits]

theorem postedWrites_updHearth (f : Hearth → Hearth) (s : State) : postedWrites (updHearth f s) = postedWrites s := rfl

/-- What an answer posts comes behind the writes that were posted before it (R309). -/
theorem postedWrites_answerMbx (m : Nat) (q : Req) (r : Rsp) {u : State} {l : List HostWrite} (posted : postedWrites u = l) :
    ∃ rest, postedWrites (answerMbx m q r u) = l ++ rest := by
  obtain ⟨rest, writes⟩ := (posts_answerMbx m q r u).writes
  exact ⟨rest, by rw [← writes, posted]⟩

/-! #### The others -/

theorem doIdentify_answers (shape : shaped q 0 [] = true) : doIdentify m q reply s =
    (s, .done .ok (leBytes 4 (slotVersion s.aon.slotA) ++ leBytes 4 (slotVersion s.aon.slotB) ++
      [0xB0, if s.aon.running then 1 else 0, BitVec.ofNat 8 s.aon.rollback, BitVec.ofNat 8 s.aon.modid] ++
      ((upto 12).flatMap fun p => leBytes 2 (ptn s p).usable) ++ leBytes 32 identityDigest.toNat) 0) :=
  if_neg (by simp [shape])

/-- The entries of the event log that a request asks for (R315). -/
def askedEntries (s : State) (q : Req) : List LogEntry := (s.hearth.log.filter fun e => qf q 0 4 ≤ e.seq).take (qf q 4 1)

theorem doEventLog_answers (shape : shaped q 5 [] = true) (some : qf q 4 1 ≠ 0) (within : qf q 0 4 ≤ s.hearth.logSeq) : doEventLog m q reply s =
    (s, .done .ok (leBytes 4 (max (qf q 0 4) (s.hearth.logSeq - s.hearth.log.length) + (askedEntries s q).length) ++
      leBytes 4 (s.hearth.logSeq - s.hearth.log.length - qf q 0 4) ++ (askedEntries s q).flatMap logBytes) 0) :=
  (if_neg (by simp [shape, some])).trans (if_neg within.not_gt)

theorem doClockCorr_answers (shape : shaped q 2 [] = true) (mask : qf q 0 2 < 4096) : doClockCorr m q reply s =
    (s, .done .ok (leBytes 8 s.aon.ticks.toNat ++ (upto 12).flatMap fun p =>
      leBytes 8 (if bit (qf q 0 2) p && ((ptn s p).power == .forge || (ptn s p).power == .warm) then (ptn s p).cycles.toNat else 0)) 0) :=
  if_neg (by simp [shape, mask])

theorem doCollStats_answers {x : Coll} {y : CollPtn} (shape : shaped q 3 [] = true) (found : coll s (qf q 0 2) = x) (used : x.state ≠ .free)
    (part : (jobPtns s x.job).contains (qf q 2 1) = true) (at_ : collPtn x (qf q 2 1) = y) : doCollStats m q reply s =
    (s, .done .ok (leBytes 4 x.latest.toNat ++ leBytes 4 x.horizon.toNat ++ [BitVec.ofNat 8 x.state.code, if y.topPin then 1 else 0] ++
      List.replicate 6 0 ++ leBytes 8 y.live ++ leBytes 8 y.tomb ++ leBytes 8 y.encoded.toNat ++ leBytes 8 y.clipped.toNat ++
      leBytes 4 y.winClipped) 0) := by
  subst found at_
  exact if_neg (by simp [shape, used, part, -List.contains_eq_mem])

theorem doCtxStats_answers {x : Ctx} (found : ctx? s (qf q 0 2) = some x) (shape : shaped q 2 [] = true) : doCtxStats m q reply s =
    (s, .done .ok (leBytes 8 x.counters.anvilCyc.toNat ++ leBytes 8 x.counters.nearB.toNat ++ leBytes 8 x.counters.farB.toNat ++
      leBytes 8 x.counters.select.toNat ++ leBytes 8 x.counters.cmds.toNat ++ leBytes 8 x.counters.nanDrop.toNat ++
      leBytes 4 ((slowDown x.measured).getD 0) ++ leBytes 4 x.measured.length) 0) := by
  simp only [doCtxStats, found, shape]
  rfl

/-- A request for a ticket's response, in its mailbox, is answered by the row itself (R310). -/
theorem exec_resultGet {m : Fin 4} (held : (mbx s m).req = some q) (accepted : (mbx s m).state = 2) (runs : hearthRuns s = true)
    (op : q.opcode = 0x0005) : exec (.resultGet m) s = .next (getResult m q s) := by
  simp only [exec, execResultGet, held, accepted, runs, op, and_self, if_true]

theorem getResult_of_ticket {k : Ticket} (unreserved : q.rsv = false) (shape : shaped q 2 [] = true)
    (held : tget s.hearth.tickets (qf q 0 2) = some k) : getResult m q s = match k.rsp with
      | none => answerMbx m q { status := .busy, ticket := qf q 0 2 } s
      | some r => answerMbx m q r (updHearth (fun h => { h with tickets := tdel h.tickets (qf q 0 2) }) s) := by
  simp only [getResult, unreserved, shape, held]
  rfl

end Reports

/-- Settles O15: a served report is answered with what its handler returns, which reads the state and writes the snapshot alone. -/
theorem mailboxReports : Obligations.MailboxReports := by
  refine ⟨fun s m q serves shape own first => ?_, fun s m q snap serves shape own later last taken => ?_,
    fun s m q serves shape named whole host size fits up awake => ?_, fun s taken => congrArg Host.Outcome.next (if_pos taken), fun s m q serves shape => ?_,
    fun s m q oldest serves shape some within at_ => ?_, fun s m q serves shape mask => ?_,
    fun s m q k r req accepted runs op unreserved shape held done => ?_, fun s m q k req accepted runs op unreserved shape held waits => ?_,
    fun s m q x y serves shape found used part at_ => ?_, fun s m q x serves found shape => ?_⟩
  · refine ⟨_, congrArg Host.Outcome.next (mailbox_answers (reply := .timeout) serves (doSummary_snapshots shape own first)), answered_answerMbx .., ?_⟩
    simp
  · refine ⟨_, congrArg Host.Outcome.next (mailbox_answers (reply := .timeout) serves (doSummary_pages shape own later last taken)),
      answered_answerMbx .., ?_⟩
    simp [taken]
  · have posted := postedWrites_postBytes (qf q 0 8) (snapshot s s.hearth.snapSeq) up awake
    have hearth := (k_postBytes (within_self _) (qf q 0 8) (snapshot s s.hearth.snapSeq) (Keeps.refl _ s)).same_hearth
    refine ⟨_, congrArg Host.Outcome.next (mailbox_answers (reply := .timeout) serves (doSummary_posts shape named whole host size fits)),
      answered_answerMbx .., ?_, ?_⟩
    · simp [hearth]
    · exact postedWrites_answerMbx m q _ ((postedWrites_updHearth _ _).trans posted)
  · obtain ⟨t, runs, answered, -⟩ := mailbox_done (reply := .timeout) serves (doIdentify_answers shape)
    exact ⟨t, runs, answered⟩
  · obtain ⟨t, runs, answered, -⟩ := mailbox_done (reply := .timeout) serves (doEventLog_answers shape some within)
    rw [askedEntries, ← at_] at answered
    exact ⟨t, runs, answered⟩
  · obtain ⟨t, runs, answered, -⟩ := mailbox_done (reply := .timeout) serves (doClockCorr_answers shape mask)
    exact ⟨t, runs, answered⟩
  · have answers := (exec_resultGet req accepted runs op).trans (congrArg Host.Outcome.next (getResult_of_ticket unreserved shape held))
    rw [done] at answers
    exact ⟨_, answers, answered_answerMbx .., by simp⟩
  · have answers := (exec_resultGet req accepted runs op).trans (congrArg Host.Outcome.next (getResult_of_ticket unreserved shape held))
    rw [waits] at answers
    exact ⟨_, answers, answered_answerMbx .., by simp⟩
  · obtain ⟨t, runs, answered, -⟩ := mailbox_done (reply := .timeout) serves (doCollStats_answers shape found used part at_)
    exact ⟨t, runs, answered⟩
  · obtain ⟨t, runs, answered, -⟩ := mailbox_done (reply := .timeout) serves (doCtxStats_answers found shape)
    exact ⟨t, runs, answered⟩

end Sys2Proof.Machine

/-! ### The life of the Hearth (R306, R309, R310, R323, R346, R360) -/

namespace Sys2Proof.Machine

/-! #### A trial that ends, a restart (R323) -/

theorem failTrial_of_no_trial {s : State} (none : s.aon.trial = false) : failTrial s = s := if_neg (Bool.eq_false_iff.mp none)

theorem failTrial_of_trial {s : State} (trial : s.aon.trial = true) :
    failTrial s = postFault (hearthCode 3 0x88 0) (updAon (fun a => { a with trial := false }) s) := if_pos trial

theorem failTrial_keeps (s : State) : Keeps [.aon, .host, .hearth, .faults] s (failTrial s) := k_failTrial (within_self _) (Keeps.refl _ s)

theorem failTrial_aon (s : State) : (failTrial s).aon =
    if s.aon.trial then { s.aon with trial := false, total := s.aon.total + 1, codes := (hearthCode 3 0x88 0 :: s.aon.codes).take 16 } else s.aon := by
  cases trial : s.aon.trial
  · rw [failTrial_of_no_trial trial]
    rfl
  · rw [failTrial_of_trial trial, postFault_aon]
    rfl

theorem failTrial_leaves (s : State) : (failTrial s).aon.trial = false ∧ (failTrial s).aon.committed = s.aon.committed ∧
    (failTrial s).aon.ticks = s.aon.ticks := by
  rw [failTrial_aon]
  split
  · exact ⟨rfl, rfl, rfl⟩
  · exact ⟨Bool.eq_false_iff.mpr ‹_›, rfl, rfl⟩

theorem failTrial_faults (s : State) : (failTrial s).faults = if s.aon.trial then satInc s.faults else s.faults := by
  cases trial : s.aon.trial
  · rw [failTrial_of_no_trial trial]
    rfl
  · rw [failTrial_of_trial trial, postFault_faults]
    rfl

theorem covered_of_levels {s t : State} (same : t.levels = s.levels) (l : LadderLevel) : covered l t = covered l s := by
  unfold covered
  rw [same]

/-! #### An L3 (R357) -/

/-- A chip reset keeps the codes that were posted before it (R358). -/
theorem codes_startL3 {s : State} (code : W32) (untried : s.aon.trial = false) : (startL3 code s).aon.codes = s.aon.codes := by
  have notices : (noticeUp 3 code s).aon = s.aon := (k_noticeUp (within_self _) 3 code (Keeps.refl [.icern] s)).same_aon
  have counted : (countL3 (noticeUp 3 code s)).aon.codes = s.aon.codes := by
    rw [← notices]
    rfl
  have uncounts : ∀ u : State, ((runningL2 u).foldl (fun s p => uncountL2 p s) u).aon.codes = u.aon.codes := fun u =>
    foldl_same (g := fun s p => uncountL2 p s) (fun s : State => s.aon.codes) (fun _ _ => rfl) _ u
  have cut : ∀ u : State, (cutRaise u).aon.codes = u.aon.codes := fun u => by
    unfold cutRaise
    (repeat' split) <;> rfl
  unfold startL3
  split
  · rfl
  · rw [failTrial_of_no_trial (notices ▸ untried)]
    exact (cut _).trans ((uncounts _).trans (counted))

/-- Nothing of the Hearth and of the commands outlasts an L3 (R357, R358). -/
theorem startL3_empties {s : State} (code : W32) (free : covered .l3 s = false) : (startL3 code s).hearthUp = false ∧
    (∃ l ∈ (startL3 code s).levels, l.level = .l3) ∧ (startL3 code s).cmds = [] ∧ (startL3 code s).hearth = State.reset.hearth := by
  have resets := startL3_resets (code := code) free
  obtain ⟨b, levels⟩ := resets.levels
  exact ⟨resets.hearthUp, ⟨_, levels ▸ List.mem_cons_self, rfl⟩, resets.cmds, resets.hearth⟩

/-! #### Codes (R349): a code that was posted stays among the latest sixteen as others follow it -/

theorem mem_codes_postFault (c : W32) (s : State) : c ∈ (postFault c s).aon.codes.take 1 := by
  rw [postFault_aon]
  exact List.mem_cons_self

theorem mem_codes_postFault_later {c : W32} {s : State} {n : Nat} (later : W32) (few : n < 16) (posted : c ∈ s.aon.codes.take n) :
    c ∈ (postFault later s).aon.codes.take (n + 1) := by
  rw [postFault_aon, List.take_take, Nat.min_eq_left few, List.take_succ_cons]
  exact List.mem_cons_of_mem _ posted

theorem mem_codes_failTrial {c : W32} {s : State} {n : Nat} (few : n < 16) (posted : c ∈ s.aon.codes.take n) : c ∈ (failTrial s).aon.codes.take (n + 1) := by
  cases trial : s.aon.trial
  · rw [failTrial_of_no_trial trial]
    exact List.take_subset_take_left _ (Nat.le_succ n) posted
  · rw [failTrial_of_trial trial]
    exact mem_codes_postFault_later _ few posted

/-! #### A fault of the Hearth (R360) -/

/-- The state in which the fault of the Hearth is posted and a trial is over (R323, R360). -/
def faultPosted (code : W32) (s : State) : State := failTrial (postFault code s)

theorem faultPosted_levels (code : W32) (s : State) : (faultPosted code s).levels = s.levels :=
  (failTrial_keeps _).same_levels.trans (postFault_levels ..)

theorem faultPosted_aon (code : W32) (s : State) : (faultPosted code s).aon.trial = false ∧ (faultPosted code s).aon.committed = s.aon.committed ∧
    (faultPosted code s).aon.ticks = s.aon.ticks := by
  obtain ⟨trial, committed, ticks⟩ := failTrial_leaves (postFault code s)
  rw [postFault_aon] at committed ticks
  exact ⟨trial, committed, ticks⟩

theorem faultPosted_faults (code : W32) (s : State) :
    (faultPosted code s).faults = satInc (if s.aon.trial then satInc s.faults else s.faults) := by
  rw [faultPosted, failTrial_faults, postFault_aon, postFault_faults]
  exact (apply_ite satInc ..).symm

theorem mem_codes_faultPosted (code : W32) (s : State) : code ∈ (faultPosted code s).aon.codes.take 2 :=
  mem_codes_failTrial (by decide) (mem_codes_postFault code s)

/-- The mailboxes emptied, the time of the fault noted (R360). -/
def mailboxesEmptied (h : Hearth) (now : Nat) : Hearth :=
  { h with mbx := tmap (fun _ (x : Mbx) => { x with state := 0, req := none }) h.mbx, lastFault := some now }

theorem hearthFailed_eq (code : W32) (s : State) : hearthFailed code s =
    if secondFault s then startL3 restartLate (postFault restartLate (faultPosted code s))
    else
      let u := fenceTickets (fun _ => true) (faultPosted code s)
      restartHearth u.aon.committed (updHearth (fun h => mailboxesEmptied h u.aon.ticks.toNat) u) := rfl

/-- What the first fault of the Hearth in ten minutes leaves: the committed slot restarts with empty mailboxes (R360). -/
structure Restarts (code : W32) (s t : State) : Prop where
  down : t.hearthUp = false
  code : code ∈ t.aon.codes
  restarting : t.hearth.restarting = true
  trial : t.aon.trial = false
  running : t.aon.running = s.aon.committed
  noted : t.hearth.lastFault = some s.aon.ticks.toNat
  faults : t.faults = satInc (if s.aon.trial then satInc s.faults else s.faults)
  empty : ∀ m x, (m, x) ∈ t.hearth.mbx → x.state = 0 ∧ x.req = none

theorem hearthFailed_restarts {s : State} (code : W32) (first : secondFault s = false) : Restarts code s (hearthFailed code s) := by
  have fenced := k_fenceTickets (within_self _) (fun _ => true) (Keeps.refl _ (faultPosted code s))
  have aon := fenced.same_aon
  have faults := fenced.same_faults
  obtain ⟨trial, committed, ticks⟩ := faultPosted_aon code s
  rw [hearthFailed_eq, if_neg (Bool.eq_false_iff.mp first)]
  generalize fenceTickets (fun _ => true) (faultPosted code s) = u at aon faults ⊢
  refine ⟨rfl, ?_, rfl, ?_, ?_, ?_, ?_, fun m x held => ?_⟩
  · show code ∈ u.aon.codes
    rw [aon]
    exact List.mem_of_mem_take (mem_codes_faultPosted code s)
  · show u.aon.trial = false
    rw [aon, trial]
  · show u.aon.committed = s.aon.committed
    rw [aon, committed]
  · show some u.aon.ticks.toNat = _
    rw [aon, ticks]
  · show u.faults = _
    rw [faults, faultPosted_faults]
  · obtain ⟨y, -, made⟩ := List.mem_map.mp (show (m, x) ∈ tmap (fun _ (x : Mbx) => { x with state := 0, req := none }) u.hearth.mbx from held)
    obtain ⟨-, rfl⟩ := Prod.mk.inj made
    exact ⟨rfl, rfl⟩

/-- A second fault of the Hearth resets the chip (R360). -/
theorem hearthFailed_resets {s : State} (code : W32) (second : secondFault s = true) (free : covered .l3 s = false) :
    (hearthFailed code s).hearthUp = false ∧ code ∈ (hearthFailed code s).aon.codes ∧ (∃ l ∈ (hearthFailed code s).levels, l.level = .l3) ∧
      (hearthFailed code s).cmds = [] ∧ (hearthFailed code s).hearth = State.reset.hearth := by
  have posted := mem_codes_postFault_later restartLate (by decide) (mem_codes_faultPosted code s)
  have untried : (postFault restartLate (faultPosted code s)).aon.trial = false := by rw [postFault_aon]; exact (faultPosted_aon code s).1
  rw [hearthFailed_eq, if_pos second]
  obtain ⟨down, level, cmds, hearth⟩ := startL3_empties restartLate (s := postFault restartLate (faultPosted code s))
    ((covered_of_levels ((postFault_levels ..).trans (faultPosted_levels ..)) _).trans free)
  refine ⟨down, ?_, level, cmds, hearth⟩
  rw [codes_startL3 _ untried]
  exact List.mem_of_mem_take posted

/-- Settles O22: a fault is posted before what it starts; the restart, or the reset of the chip, is followed from there. -/
theorem hearthEvents : Obligations.HearthEvents := by
  refine ⟨fun s due asleep up => ?_, fun s idle => congrArg Host.Outcome.next (if_pos idle), fun s restarts down => ?_,
    fun s trial down restarts => ?_, fun s cause core first => ?_, fun s cause core second free => ?_, fun s m busy first => ?_,
    fun s restarts down free => ?_⟩
  · exact ⟨_, congrArg Host.Outcome.next (if_pos (by simp [due, asleep, up])), rfl, rfl⟩
  · exact ⟨_, congrArg Host.Outcome.next (if_pos (by simp [restarts, down])), rfl, rfl, rfl⟩
  · have posts := failTrial_of_trial trial
    obtain ⟨ended, committed, -⟩ := failTrial_leaves s
    refine ⟨restartHearth (failTrial s).aon.committed (failTrial s), congrArg Host.Outcome.next (if_pos (by simp [trial, restarts, down])),
      ended, committed, rfl, rfl, ?_⟩
    rw [posts]
    exact head_codes_postFault ..
  · obtain ⟨down, code, restarting, trial, running, noted, faults, empty⟩ := hearthFailed_restarts (hearthCode (if cause = .core then 1 else 4) (0x80 + core.val) 0) first
    exact ⟨_, rfl, down, code, restarting, trial, running, noted, faults, empty⟩
  · exact ⟨_, rfl, hearthFailed_resets _ second free⟩
  · obtain ⟨down, code, restarting, trial, running, noted, faults, empty⟩ := hearthFailed_restarts (hearthCode 2 0x84 m.val) first
    exact ⟨_, congrArg Host.Outcome.next (if_pos (by simpa using busy)), down, code, restarting, trial, running, noted, faults, empty⟩
  · refine ⟨_, congrArg Host.Outcome.next (if_pos (by simp [restarts, down])), startL3_empties _ ?_⟩
    exact (covered_of_levels ((postFault_levels ..).trans (failTrial_keeps s).same_levels) _).trans free

end Sys2Proof.Machine

/-! ### Firmware slots and attestation (R321–R323, R370, R371, R374, R378–R380) -/

namespace Sys2Proof.Machine

@[simp] theorem answerMbx_hearth_negotiated (m : Nat) (q : Req) (r : Rsp) (s : State) : (answerMbx m q r s).hearth.negotiated = s.hearth.negotiated := by
  obtain ⟨x, h, _⟩ := answerMbx_hearth m q r s; rw [h]
@[simp] theorem answerMbx_hearth_versioned (m : Nat) (q : Req) (r : Rsp) (s : State) : (answerMbx m q r s).hearth.versioned = s.hearth.versioned := by
  obtain ⟨x, h, _⟩ := answerMbx_hearth m q r s; rw [h]

section Served

variable {m : Fin 4} {op : Nat} {q : Req} {s u : State} {h : Handler} {reply : ReadReply} {form : Req → Bool}

/-- A request of a row's form that is served and done has its response in the state that its handler left (R309). -/
theorem mailbox_answers_form {st : MStatus} {bs : List Byte} {dt : Nat} (serves : served m op q s = true) (formed : form q = true)
    (ran : h m q reply s = (u, .done st bs dt)) : mailbox m.val op form h reply s = answerMbx m q { status := st, bytes := bs, detail := dt } u := by
  rw [mailbox, served_runs _ _ h reply serves formed, ran]
  rfl

/-- A request of a row's form that goes on has a ticket; the always-on domain and the staging session are as its handler left them (R310). -/
theorem mailbox_busy_form {w : Work} (serves : served m op q s = true) (formed : form q = true) (room : (openTickets s).length < 64)
    (ran : h m q reply s = (u, .busy w)) :
    ∃ t, mailbox m.val op form h reply s = t ∧ Ticketed s t m q w ∧ t.aon = u.aon ∧ t.hearth.stage = u.hearth.stage := by
  obtain ⟨ticketed, v, r, answer, noted⟩ := ticketed_settle (m := m) (q := q) (u := u) w room
  refine ⟨_, by rw [mailbox, served_runs _ _ h reply serves formed, ran], ticketed, ?_⟩
  rw [answer, noted]
  simp

end Served

theorem fwForm_of {limit a : Nat} {q : Req} (action : qf q 0 1 = a) : fwForm limit a q = true := by simp [fwForm, action]

theorem wrongAction_of {a : Nat} {q : Req} (action : qf q 0 1 = a) (filled : q.len ≠ 0) : wrongAction a q = false := by simp [wrongAction, action, filled]

theorem len_of_shaped {q : Req} {n : Nat} {zs : List (Nat × Nat)} (shape : shaped q n zs = true) : q.len = n := by
  simp only [shaped, Bool.and_eq_true, beq_iff_eq] at shape
  exact shape.1

/-! #### Slots (R321) -/

theorem fwSlot_setFwSlot (b : Bool) (x : FwSlot) (s : State) : fwSlot (setFwSlot b x s).aon b = x := by
  cases b <;> rfl

section Firmware

variable {m : Nat} {q : Req} {reply : ReadReply} {s : State}

/-! #### FW_STAGE (R322) -/

theorem doStageBegin_opens (action : qf q 0 1 = 0) (shape : shaped q 2 [] = true) (fresh : s.hearth.stage = none) (normal : s.hearth.recovery = false)
    (idle : qf q 1 1 = 0xFF ∨ (qf q 1 1 ≤ 1 ∧ (qf q 1 1 == 1) = idleSlot s)) : doStageBegin m q reply s =
    (updHearth (fun h => { h with stage := some { mbx := m, slot := if idleSlot s then 1 else 0 } }) (setFwSlot (idleSlot s) {} s), .done .ok [] 0) := by
  have slot : (if qf q 1 1 = 0xFF then idleSlot s else qf q 1 1 == 1) = idleSlot s := by
    rcases idle with any | ⟨-, named⟩
    · exact if_pos any
    · rw [named, ite_self]
  have names : (qf q 1 1 == 0xFF || (decide (qf q 1 1 ≤ 1) && (qf q 1 1 == 1) == idleSlot s)) = true := by
    rcases idle with any | ⟨low, named⟩
    · simp [any]
    · simp [low, named]
  have whole := wrongAction_of action (by rw [len_of_shaped shape]; decide)
  simp only [doStageBegin, slot, names, whole, shape, sessionElsewhere, fresh, normal]
  rfl

/-- The session with bytes appended (R322). -/
def staged (g : FwStage) (q : Req) (bs : List Byte) (s : State) : State :=
  updHearth (fun h => { h with stage := some { g with bytes := g.bytes ++ padBytes (qf q 8 4) bs } }) s

section Session

variable {g : FwStage} (filled : q.len ≠ 0) (open_ : s.hearth.stage = some g) (own : g.mbx = m)
include filled open_ own

theorem doStageData_own (action : qf q 0 1 = 1) (good : stageDataBad m q g = false) (inline : qf q 16 8 = 0) :
    doStageData m q reply s = (staged g q (q.bytes.drop 32) s, .done .ok [] 0) := by
  simp [doStageData, open_, own, wrongAction_of action filled, good, inline, staged, mOk]

theorem doStageData_host {bs : List Byte} (action : qf q 0 1 = 1) (good : stageDataBad m q g = false) (named : qf q 16 8 ≠ 0) :
    doStageData m q (.data bs) s = (staged g q bs s, .done .ok [] 0) := by
  simp [doStageData, open_, own, wrongAction_of action filled, good, named, staged, mOk]

theorem doStageFinish_verifies {x : FwSlot} {st : MStatus} {bs : List Byte} (action : qf q 0 1 = 2) (shape : shaped q 8 [(1, 3)] = true)
    (verdict : verifyImage s.aon (qf q 4 4) g.bytes = (x, st, bs)) : doStageFinish m q reply s =
    (updHearth (fun h => { h with stage := none }) (setFwSlot (g.slot == 1) x s), .busy (.ready st bs 0)) := by
  simp [doStageFinish, open_, own, wrongAction_of action filled, shape, verdict]

theorem doStageAbort_empties (action : qf q 0 1 = 3) (shape : shaped q 1 [] = true) : doStageAbort m q reply s =
    (updHearth (fun h => { h with stage := none }) (setFwSlot (g.slot == 1) {} s), .done .ok [] 0) := by
  simp only [doStageAbort, open_]
  exact guardM_of (by simp [own, wrongAction_of action filled, shape])

end Session

/-! #### FW_ACTIVATE (R323, R374) -/

section Activation

variable (filled : q.len ≠ 0) (shape : shaped q 1 [] = true)
include filled shape

theorem doTrial_restarts (action : qf q 0 1 = 0) (good : trialBad s q = false) : doTrial m q reply s =
    (restartHearth (!s.aon.running) (updAon (fun a => { a with trial := true }) s), .done .ok [] 0) :=
  guardM_of (by simp [wrongAction_of action filled, shape, good])

theorem doCommit_commits (action : qf q 0 1 = 1) (trial : s.aon.trial = true) : doCommit m q reply s =
    (updAon (fun a => { a with committed := a.running, trial := false }) s,
      if (fwSlot s.aon s.aon.running).sv ≤ s.aon.rollback then .done .ok [] 0 else .busy (.raise (fwSlot s.aon s.aon.running).sv)) :=
  guardM_of (by simp [wrongAction_of action filled, shape, trial])

theorem doRevert_restarts (action : qf q 0 1 = 2) (trial : s.aon.trial = true) (valid : slotValid s.aon s.aon.committed = true) :
    doRevert m q reply s = (restartHearth s.aon.committed (updAon (fun a => { a with trial := false }) s), .done .ok [] 0) :=
  guardM_of (by simp [wrongAction_of action filled, shape, trial, valid])

theorem doNextReset_marks (action : qf q 0 1 = 3) (valid : slotValid s.aon (!s.aon.running) = true) : doNextReset m q reply s =
    (updAon (fun a => { a with nextReset := .some (!a.running) }) s, .done .ok [] 0) :=
  guardM_of (by simp [wrongAction_of action filled, shape, valid])

end Activation

/-! #### ATTEST and SPDM messages (R378–R380) -/

theorem doAttest_answers (secured : qf q 0 1 ≤ 1) (filled : qf q 2 2 ≠ 0) (short : qf q 2 2 ≤ 4092) (shape : shaped q (4 + qf q 2 2) [(1, 1)] = true)
    {k : SpdmKind} {body : List Byte} (kind : k = attestKind s (qf q 0 1 == 1) (q.bytes.drop 4))
    (reply_ : body = (spdmReply s .attest k (q.bytes.drop 4)).take 4092) : doAttest m q reply s =
    (spdmEffects .attest k (q.bytes.drop 4) s, .done .ok ([BitVec.ofNat 8 (qf q 0 1), 0] ++ leBytes 2 body.length ++ body) 0) := by
  subst kind reply_
  exact if_neg (by simp [filled, shape, Nat.not_lt.mpr secured, Nat.not_lt.mpr short])

end Firmware

/-- What a message does: to its sessions, to what is negotiated of one in the clear, and one free choice (R378–R380; log 6). -/
structure SpdmDone (t : SpdmTransport) (k : SpdmKind) (msg : List Byte) (s u : State) : Prop where
  sessions : u.hearth.sessions = (spdmSession t k s).hearth.sessions
  negotiated : u.hearth.negotiated = (if isSecured k then s else negotiate t msg s).hearth.negotiated
  versioned : u.hearth.versioned = (if isSecured k then s else negotiate t msg s).hearth.versioned
  free : u.free = s.free + 1

/-- What of a transport's negotiation a state holds (R379). -/
def negotiation (s : State) : List SpdmTransport × List SpdmTransport := (s.hearth.versioned, s.hearth.negotiated)

theorem negotiation_negotiate {s u : State} (same : negotiation u = negotiation s) (t : SpdmTransport) (msg : List Byte) :
    negotiation (negotiate t msg u) = negotiation (negotiate t msg s) := by
  obtain ⟨versioned, negotiated⟩ := Prod.mk.inj same
  simp only [negotiate, versioned, negotiated]
  (repeat' split) <;> simp [negotiation, versioned, negotiated]

theorem sessions_negotiate (t : SpdmTransport) (msg : List Byte) (s : State) : (negotiate t msg s).hearth.sessions = s.hearth.sessions := by
  unfold negotiate
  (repeat' split) <;> rfl

theorem hearth_keyIde (t : SpdmTransport) (k : SpdmKind) (msg : List Byte) (s : State) : (keyIde t k msg s).hearth = s.hearth := by
  unfold keyIde
  split <;> rfl

theorem negotiation_spdmSession (t : SpdmTransport) (k : SpdmKind) (s : State) : negotiation (spdmSession t k s) = negotiation s := by
  unfold spdmSession
  (repeat' split) <;> rfl

theorem hearth_spdmSession_congr {s u : State} (same : u.hearth = s.hearth) (t : SpdmTransport) (k : SpdmKind) :
    (spdmSession t k u).hearth = (spdmSession t k s).hearth := by
  cases k with
  | keyExchange => simp only [spdmSession, apply_ite State.hearth, updHearth_hearth, same]
  | endSession => simp only [spdmSession, updHearth_hearth, same]
  | secured => exact same
  | other => exact same

theorem free_spdmSession (t : SpdmTransport) (k : SpdmKind) (s : State) : (spdmSession t k s).free = s.free := by
  unfold spdmSession
  (repeat' split) <;> rfl

theorem free_keyIde (t : SpdmTransport) (k : SpdmKind) (msg : List Byte) (s : State) : (keyIde t k msg s).free = s.free := by
  unfold keyIde
  split <;> rfl

theorem free_negotiate (t : SpdmTransport) (msg : List Byte) (s : State) : (negotiate t msg s).free = s.free := by
  unfold negotiate
  (repeat' split) <;> rfl

theorem free_spdmEffects (t : SpdmTransport) (k : SpdmKind) (msg : List Byte) (s : State) : (spdmEffects t k msg s).free = s.free + 1 := by
  have session := (free_keyIde t k msg _).trans (free_spdmSession t k (spend 1 s))
  unfold spdmEffects
  split
  · exact session
  · exact (free_negotiate ..).trans session

theorem spdmDone_spdmEffects (t : SpdmTransport) (k : SpdmKind) (msg : List Byte) (s : State) : SpdmDone t k msg s (spdmEffects t k msg s) := by
  have hearth := (hearth_keyIde t k msg (spdmSession t k (spend 1 s))).trans (hearth_spdmSession_congr (s := s) (u := spend 1 s) rfl t k)
  have kept : negotiation (keyIde t k msg (spdmSession t k (spend 1 s))) = negotiation s := by
    rw [negotiation, hearth]
    exact negotiation_spdmSession t k s
  have settled : negotiation (spdmEffects t k msg s) = negotiation (if isSecured k then s else negotiate t msg s) := by
    unfold spdmEffects
    split
    · exact kept
    · exact negotiation_negotiate kept t msg
  refine ⟨?_, (Prod.mk.inj settled).2, (Prod.mk.inj settled).1, free_spdmEffects t k msg s⟩
  unfold spdmEffects
  rw [← hearth]
  split
  · rfl
  · exact sessions_negotiate ..

/-- Settles O20: the handler of an action leaves what its guard lets through; the slot, the session and the always-on domain stand as it left them. -/
theorem mailboxFirmware : Obligations.MailboxFirmware := by
  refine ⟨fun s m q serves action shape fresh normal idle => ?_, fun s m q reply g serves action filled open_ own good inline => ?_,
    fun s m q bs g serves action filled open_ own good named => ?_, fun s m q g x st bs serves room action filled shape open_ own verdict => ?_,
    fun s m q g serves action filled shape open_ own => ?_, fun s m q serves action filled shape good => ?_,
    fun s m q serves action filled shape trial low => ?_, fun s m q serves room action filled shape trial high => ?_,
    fun s m q serves action filled shape trial valid => ?_, fun s m q serves action filled shape valid => ?_,
    fun s m q k body serves secured filled short shape kind reply => ?_, fun s t k msg up other => ?_⟩
  · refine ⟨_, congrArg Host.Outcome.next (mailbox_answers_form (reply := .timeout) serves (fwForm_of action)
      (doStageBegin_opens action shape fresh normal idle)), answered_answerMbx .., by simp, ?_⟩
    rw [answerMbx_aon]
    exact fwSlot_setFwSlot ..
  · exact ⟨_, congrArg Host.Outcome.next (mailbox_answers_form serves (fwForm_of action) (doStageData_own filled open_ own action good inline)),
      answered_answerMbx .., by simp [staged]⟩
  · exact ⟨_, congrArg Host.Outcome.next (mailbox_answers_form serves (fwForm_of action) (doStageData_host filled open_ own action good named)),
      answered_answerMbx .., by simp [staged]⟩
  · obtain ⟨t, runs, ticketed, aon, stage⟩ := mailbox_busy_form (reply := .timeout) serves (fwForm_of action) room
      (doStageFinish_verifies filled open_ own action shape verdict)
    refine ⟨t, congrArg Host.Outcome.next runs, ticketed, stage, ?_⟩
    rw [aon]
    exact fwSlot_setFwSlot ..
  · refine ⟨_, congrArg Host.Outcome.next (mailbox_answers_form (reply := .timeout) serves (fwForm_of action)
      (doStageAbort_empties filled open_ own action shape)), answered_answerMbx .., by simp, ?_⟩
    rw [answerMbx_aon]
    exact fwSlot_setFwSlot ..
  · refine ⟨_, congrArg Host.Outcome.next (mailbox_answers_form (reply := .timeout) serves (fwForm_of action) (doTrial_restarts filled shape action good)),
      answered_answerMbx .., ?_⟩
    simp [restartHearth]
  · refine ⟨_, congrArg Host.Outcome.next (mailbox_answers_form (reply := .timeout) serves (fwForm_of action)
      ((doCommit_commits filled shape action trial).trans (congrArg _ (if_pos low)))), answered_answerMbx .., ?_⟩
    simp
  · obtain ⟨t, runs, ticketed, aon, -⟩ := mailbox_busy_form (reply := .timeout) serves (fwForm_of action) room
      ((doCommit_commits filled shape action trial).trans (congrArg _ (if_neg high.not_ge)))
    exact ⟨t, congrArg Host.Outcome.next runs, ticketed, aon⟩
  · refine ⟨_, congrArg Host.Outcome.next (mailbox_answers_form (reply := .timeout) serves (fwForm_of action) (doRevert_restarts filled shape action trial valid)),
      answered_answerMbx .., ?_⟩
    simp [restartHearth]
  · refine ⟨_, congrArg Host.Outcome.next (mailbox_answers_form (reply := .timeout) serves (fwForm_of action) (doNextReset_marks filled shape action valid)),
      answered_answerMbx .., ?_⟩
    simp
  · obtain ⟨sessions, negotiated, versioned, free⟩ := spdmDone_spdmEffects .attest k (q.bytes.drop 4) s
    refine ⟨_, congrArg Host.Outcome.next (mailbox_answers (reply := .timeout) serves (doAttest_answers secured filled short shape kind reply)),
      answered_answerMbx .., ?_⟩
    simp only [answerMbx_hearth_sessions, answerMbx_hearth_negotiated, answerMbx_hearth_versioned, answerMbx_free]
    exact ⟨sessions, negotiated, versioned, free⟩
  · obtain ⟨sessions, negotiated, versioned, free⟩ := spdmDone_spdmEffects t k msg s
    exact ⟨_, congrArg Host.Outcome.next (if_pos (by simp [up, other])), rfl, sessions, negotiated, versioned, free⟩

end Sys2Proof.Machine

/-! ### The tray controller (R322, R323, R396, R415–R417) -/

namespace Sys2Proof.Machine

section Tray

variable {s : State}

theorem exec_getstatus (supplied : s.pins.aux = true) : exec .getstatus s = .next (getStatus s) := onlyIf_true _ _ supplied

theorem exec_setdasa (a : BitVec 7) (supplied : s.pins.aux = true) : exec (.setdasa a) s = .next (takeAddress a s) := onlyIf_true _ _ supplied

theorem exec_entdaa (a : BitVec 7) (supplied : s.pins.aux = true) : exec (.entdaa a) s = .next (takeAddress a s) := onlyIf_true _ _ supplied

theorem exec_pldmPlimWrite (w : Nat) (supplied : s.pins.aux = true) : exec (.pldmPlimWrite w) s = .next (writePlim w s) := onlyIf_true _ _ supplied

theorem exec_pldmSensorRead (x : PldmSensor) (supplied : s.pins.aux = true) :
    exec (.pldmSensorRead x) s = .next (answer (.data (leBytes 2 (sensorValue s x)) false) s) :=
  onlyIf_true (fun s => answer (.data (leBytes 2 (sensorValue s x)) false) s) s supplied

theorem exec_pldmFwUpdate (img : List Byte) (supplied : s.pins.aux = true) : exec (.pldmFwUpdate img) s = .next (updateFw img s) :=
  onlyIf_true _ _ supplied

theorem beatState_eq (s : State) : beatState s = if s.aon.leak then 3 else if s.hearthUp then (if s.aon.oos then 1 else 0) else 2 := by
  unfold beatState
  cases s.hearthUp <;> rfl

/-- The bits of the status word that the I3C bus sets, its protocol-error flag and its interrupt count, lie below the counter (R417). -/
theorem statusWord_eq (s : State) (c bus : Nat) : ∃ b, b < 64 ∧ statusWord s c bus = beatState s * 2 ^ 14 + c * 2 ^ 8 + b :=
  ⟨bus % 2 * 2 ^ 5 + bus / 2 % 16, by omega, Nat.add_assoc ..⟩

/-- An image that may be taken ends the session and fills the idle slot with what its check leaves; one that verifies is the pending NEXT_RESET. -/
theorem updateFw_fills {img : List Byte} (up : s.hearthUp = true) (free : sessionElsewhere s 3 = false) (filled : img ≠ []) (small : img.length ≤ 2 ^ 22) :
    updateFw img s =
      let v := verifyImage { s.aon with rollback := raised s } img.length img
      let t := updHearth (fun h => { h with stage := none }) (setFwSlot (idleSlot s) v.1 s)
      if v.2.1 = .ok then answer .written (updAon (fun a => { a with nextReset := some (idleSlot s) }) t) else answer .refused t := by
  have taken : (!s.hearthUp || sessionElsewhere s 3 || img.isEmpty || decide (img.length > 2 ^ 22)) = false := by
    simp [up, free, filled, Nat.not_lt.mpr small, -Nat.reducePow]
  rw [updateFw, if_neg (by rw [taken]; decide)]
  dsimp only
  split
  · next x bs verdict => rw [verdict]; rfl
  · next x st bs fails verdict =>
    rw [verdict]
    exact (if_neg fails).symm

theorem updateFw_refuses {img : List Byte} (bars : sessionElsewhere s 3 = true ∨ s.hearthUp = false ∨ img = [] ∨ 2 ^ 22 < img.length) :
    updateFw img s = answer .refused s := by
  refine if_pos ?_
  rcases bars with other | down | empty | long
  · simp [other]
  · simp [down]
  · simp [empty]
  · simp [long, -Nat.reducePow]

end Tray

/-- Settles O48: with the auxiliary supply each row is its own function; an update's outcome is that of the check of its image. -/
theorem trayController : Obligations.TrayController := by
  unfold Obligations.TrayController
  refine ⟨fun s on => ?_, fun s a on => exec_setdasa a on, fun s a on => exec_entdaa a on, fun s w on least most => ?_, fun s w on wrong => ?_,
    fun s x on => ?_, fun s img on up free filled small => ?_, fun s img on bars => ?_, fun s off => onlyIf_false _ _ off,
    fun s a off => onlyIf_false _ _ off, fun s w off => onlyIf_false _ _ off,
    fun s a x img off => ⟨onlyIf_false _ _ off, onlyIf_false _ _ off, onlyIf_false _ _ off⟩⟩
  · let u := updAon (fun a => { a with hbCounter := a.hbCounter + 1 }) s
    obtain ⟨b, small, word⟩ := statusWord_eq u u.aon.hbCounter.toNat (Config.freeNat s.free)
    refine ⟨_, b, exec_getstatus on, rfl, small, ?_⟩
    rw [beatState_eq] at word
    exact congrArg (fun n => Answer.data (leBytes 2 n) false) word
  · exact ⟨_, exec_pldmPlimWrite w on, by rw [writePlim, if_pos ⟨least, most⟩]; exact ⟨rfl, rfl⟩⟩
  · exact ⟨_, exec_pldmPlimWrite w on, by rw [writePlim, if_neg (by omega)]; exact ⟨rfl, rfl⟩⟩
  · exact ⟨_, exec_pldmSensorRead x on, rfl, rfl, by cases x <;> rfl⟩
  · refine ⟨_, exec_pldmFwUpdate img on, ?_⟩
    rw [updateFw_fills up free filled small]
    dsimp only
    split
    · next ok => exact ⟨rfl, fwSlot_setFwSlot .., fun _ => ⟨rfl, rfl⟩, fun bad => absurd ok bad⟩
    · next bad => exact ⟨rfl, fwSlot_setFwSlot .., fun ok => absurd ok bad, fun _ => ⟨by unfold setFwSlot idleSlot; cases s.aon.running <;> rfl, rfl⟩⟩
  · exact ⟨_, exec_pldmFwUpdate img on, by rw [updateFw_refuses bars]; exact ⟨rfl, rfl, rfl⟩⟩

end Sys2Proof.Machine

/-! ### The TAP (R325, R418, R430–R432) -/

namespace Sys2Proof.Machine

section Scan

variable {s : State}

/-! #### The pins taken (R325, R432) -/

/-- The port sends and takes nothing: it is DOWN or DISABLED (R325). -/
def PortStops (p : Port) : Prop := p.st = .down ∨ p.st = .disabled

theorem cutTx_same (n v : Nat) (p : Port) : SamePort p (cutTx n v p) := ⟨rfl, rfl, rfl, rfl, rfl, rfl, rfl, rfl, rfl, rfl, rfl, rfl, rfl⟩
theorem dropPass_same (n : Nat) (p : Port) : SamePort p (dropPass n p) := ⟨rfl, rfl, rfl, rfl, rfl, rfl, rfl, rfl, rfl, rfl, rfl, rfl, rfl⟩

/-- The commands of a state that hold no buffer of port n any more (R330). -/
def unlend (n : Nat) (s : State) : State := { s with cmds := tmap (fun _ (x : Cmd) => if x.lent.any (·.1 == n) then { x with lent := none } else x) s.cmds }

/-- What a port that goes DOWN first takes from the other ports and from the inbox bears on nothing that no port's queues and no message of the inbox
bear on (R326). -/
theorem emptyPort_stages {β : Type} (q : State → β) (ports : ∀ (f : Port → Port), (∀ p, SamePort p (f p)) → ∀ m u, q (updPort m f u) = q u)
    (inbox : ∀ (f : Msg → Msg) u, q (updIcern (fun i => { i with inbox := i.inbox.map f }) u) = q u) (n cause : Nat) (s : State) :
    ∃ u, q u = q s ∧ emptyPort n cause s = updPort n (downPort cause) ((upto 4).foldl (fun s m => updPort m (dropPass n) s) (unlend n u)) := by
  refine ⟨_, ?_, rfl⟩
  refine (inbox _ _).trans ((foldl_same q (fun u t => ?_) _ _).trans (foldl_same q (fun u r => ?_) _ _))
  · split
    · exact ports (owe _ _) (owe_same _ _) ..
    · rfl
  · split
    · exact ports (cutTx n _) (cutTx_same n _) ..
    · rfl

/-- What the fall of a port leaves of each port, before the port itself is cleared (R326). -/
def leftOf (u : State) (m : Nat) : PortState × Nat × Bool := ((port u m).st, (port u m).peer, (port u m).mismatch)

theorem leftOf_updPort {f : Port → Port} (keeps : ∀ p, SamePort p (f p)) (n m : Nat) (s : State) : leftOf (updPort n f s) m = leftOf s m := by
  unfold leftOf
  by_cases same : m = n
  · rw [same, port_updPort_same, (keeps _).st, (keeps _).peer, (keeps _).mismatch]
  · rw [port_updPort_other _ _ same]

theorem emptyPort_left (n cause : Nat) (s : State) : ∃ u, (∀ m, leftOf u m = leftOf s m) ∧ emptyPort n cause s = updPort n (downPort cause) u := by
  obtain ⟨u, same, empties⟩ := emptyPort_stages leftOf (fun f keeps k u => funext fun m => leftOf_updPort keeps k m u) (fun _ _ => rfl) n cause s
  refine ⟨_, fun m => ?_, empties⟩
  exact (foldl_same (fun u => leftOf u m) (fun u k => leftOf_updPort (dropPass_same n) k m u) _ _).trans (congrFun same m)

theorem port_emptyPort_same (n cause : Nat) (s : State) :
    ∃ p, port (emptyPort n cause s) n = downPort cause p ∧ p.peer = (port s n).peer ∧ p.mismatch = (port s n).mismatch := by
  obtain ⟨u, left, empties⟩ := emptyPort_left n cause s
  refine ⟨port u n, by rw [empties, port_updPort_same], ?_, ?_⟩
  · exact congrArg (·.2.1) (left n)
  · exact congrArg (·.2.2) (left n)

/-- A port that goes DOWN changes what the others hold of its flits, never their states (R326). -/
theorem port_emptyPort_other {n m : Nat} (cause : Nat) (s : State) (other : m ≠ n) : (port (emptyPort n cause s) m).st = (port s m).st := by
  obtain ⟨u, left, empties⟩ := emptyPort_left n cause s
  rw [empties, port_updPort_other _ _ other]
  exact congrArg (·.1) (left m)

/-- A driving instruction stops a port that is not DISABLED (R432). -/
def stopPort (s : State) (n : Nat) : State := if (port s n).st = .disabled then s else emptyPort n 1 s

theorem stopPort_stops (s : State) (n : Nat) : PortStops (port (stopPort s n) n) := by
  unfold stopPort
  split
  · next off => exact .inr off
  · obtain ⟨p, downed, -⟩ := port_emptyPort_same n 1 s
    exact .inl (congrArg Port.st downed)

theorem stopPort_keeps {n m : Nat} {s : State} (stops : PortStops (port s m)) : PortStops (port (stopPort s n) m) := by
  by_cases same : m = n
  · exact same ▸ stopPort_stops s n
  · unfold stopPort
    split
    · exact stops
    · unfold PortStops
      rwa [port_emptyPort_other _ _ same]

theorem stopPort_host (s : State) (n : Nat) : (stopPort s n).host = s.host := by
  unfold stopPort
  split
  · rfl
  · exact (k_emptyPort (within_self _) n 1 (Keeps.refl _ s)).same_host

/-- The host link taken down, uncounted, where it is up (R432). -/
def dropLink (s : State) : State := if s.host.link.up then linkLoss false false s else s

theorem linkLoss_down (lost : Bool) (s : State) : (linkLoss false lost s).host.link.up = false := by
  rw [linkLoss, noteRetrain, if_neg Bool.false_ne_true, updLink_link]

theorem dropLink_down (s : State) : (dropLink s).host.link.up = false := by
  unfold dropLink
  split
  · exact linkLoss_down ..
  · next down => exact Bool.eq_false_iff.mpr down

/-- The pins are under the boundary register: the host link is down and no Icern port runs (R432). -/
structure PinsTaken (t : State) : Prop where
  driven : t.jtag.functional = false
  link : t.host.link.up = false
  ports : ∀ n, n < 4 → PortStops (port t n)

theorem takePins_takes (s : State) : PinsTaken (takePins s) := by
  have stop : (fun (s : State) (n : Nat) => if (port s n).st = .disabled then s else emptyPort n 1 s) = stopPort := rfl
  have link : (if s.host.link.up then linkLoss false false s else s) = dropLink s := rfl
  have kept : ((upto 4).foldl stopPort (dropLink s)).host = (dropLink s).host := foldl_same State.host stopPort_host _ _
  have down : ((upto 4).foldl stopPort (dropLink s)).host.link.up = false := by rw [kept, dropLink_down]
  have stops : ∀ n, n < 4 → PortStops (port ((upto 4).foldl stopPort (dropLink s)) n) := fun n low =>
    foldl_reaches (P := fun n s => PortStops (port s n)) stopPort_stops (fun _ _ _ => stopPort_keeps) _ _ (.inl (mem_upto.mpr low))
  unfold takePins
  dsimp only
  rw [stop, link]
  generalize (upto 4).foldl stopPort (dropLink s) = u at down stops
  exact ⟨rfl, down, stops⟩

/-! #### The pins left (R325, R432) -/

theorem leaveScan_rest (s : State) : leaveScan s = { s with jtag := (leaveScan s).jtag, icern := (leaveScan s).icern } := by
  unfold leaveScan
  split <;> rfl

/-- The pins functional again, an enabled port trains anew (R325). -/
theorem leaveScan_trains (driven : s.jtag.functional = false) {n : Nat} {p : Port} (there : tget s.icern.ports n = some p)
    (enabled : bit s.aon.enable.toNat n = true) : (port (leaveScan s) n).st = .training ∧ (port (leaveScan s) n).step = 1 := by
  have trains : tget (leaveScan s).icern.ports n = some { p with st := .training, step := 1, lanes := 0 } := by
    simp [leaveScan, driven, updIcern, tget_tmap, there, enabled]
  rw [port, tgetD, trains]
  exact ⟨rfl, rfl⟩

/-! #### The instructions -/

/-- A driving instruction that is allowed stands in the TAP; where the pins were functional they are taken (R432). -/
theorem loadInstr_drives {code : Byte} (driving : drives code.toNat = true) (allowed : scanAllowed s = true) :
    (loadInstr code s).jtag.instr = code ∧ (loadInstr code s).jtag.refused = false ∧ (s.jtag.functional = true → PinsTaken (loadInstr code s)) := by
  obtain ⟨driven, link, ports⟩ := takePins_takes s
  rw [loadInstr, if_pos driving, if_pos allowed]
  dsimp only
  generalize takePins s = u at driven link ports
  refine ⟨rfl, rfl, fun normal => ?_⟩
  rw [if_pos normal]
  exact ⟨driven, link, ports⟩

/-- One that is not allowed acts as BYPASS with the pins functional (R432). -/
theorem loadInstr_refused {code : Byte} (driving : drives code.toNat = true) (barred : scanAllowed s = false) :
    (loadInstr code s).jtag = { s.jtag with instr := 0xFF, refused := true, functional := true } := by
  rw [loadInstr, if_pos driving, if_neg (by simp [barred])]
  dsimp only
  rw [leaveScan_jtag]

/-- An instruction that drives no pin leaves the scan (R432). -/
theorem loadInstr_leaves {code : Byte} (idle : drives code.toNat = false) :
    loadInstr code s = { leaveScan s with jtag := { s.jtag with instr := code, refused := false, functional := true } } := by
  rw [loadInstr, if_neg (by simp [idle])]
  dsimp only
  rw [leaveScan_jtag]

/-- Of a driving instruction's row: what it does where it is allowed and where it is not (R432). -/
theorem exec_of_driving {i : Instr} {code : Byte} (row : ∀ s, exec i s = onlyIf s.pins.aux (loadInstr code) s) (driving : drives code.toNat = true) (s : State)
    (on : s.pins.aux = true) :
    (scanAllowed s = true → ∃ t, exec i s = .next t ∧ t.jtag.instr = code ∧ t.jtag.refused = false ∧ (s.jtag.functional = true →
      t.jtag.functional = false ∧ t.host.link.up = false ∧ ∀ n, n < 4 → (port t n).st = .down ∨ (port t n).st = .disabled)) ∧
    (scanAllowed s = false → ∃ t, exec i s = .next t ∧ t.jtag = { s.jtag with instr := 0xFF, refused := true, functional := true }) := by
  refine ⟨fun allowed => ⟨_, (row s).trans (onlyIf_true _ _ on), ?_⟩, fun barred => ⟨_, (row s).trans (onlyIf_true _ _ on), loadInstr_refused driving barred⟩⟩
  obtain ⟨instr, taken, pins⟩ := loadInstr_drives driving allowed
  exact ⟨instr, taken, fun normal => ⟨(pins normal).driven, (pins normal).link, (pins normal).ports⟩⟩

/-! #### The boundary register (R431) -/

theorem lget_captured (v : List Bool) (s : State) {i : Nat} (lane : i < 64) : lget (captured s v) i true = (s.pins.pwrgd && lget v i false) := by
  rw [← lget_map_upto 64 i (fun i => s.pins.pwrgd && lget v i false) true lane]
  exact List.getD_append _ _ _ _ (by simpa [upto, laneCells] using lane)

theorem drop_captured (v : List Bool) (s : State) : (captured s v).drop 64 =
    [s.pins.pwrEn, !s.pins.perst, s.aon.leak, !alertN s, s.pins.pwrgd, !s.pins.cycleReq, !s.pins.thermtrip] :=
  List.drop_left' (by simp [laneCells, upto])

/-- The boundary register as SAMPLE captures it (R431). -/
def sampleCells (v : List Bool) (t : State) : State := { t with jtag := { t.jtag with boundary := captured t v } }

theorem exec_samplePreload (v : List Bool) (on : s.pins.aux = true) : exec (.samplePreload v) s = .next (sampleCells v (loadInstr 0x02 s)) :=
  congrArg Host.Outcome.next (if_pos on)

end Scan

/-- Settles O49: an instruction that drives pins takes the pins or is refused; any other one leaves the scan. -/
theorem boundaryScan : Obligations.BoundaryScan := by
  unfold Obligations.BoundaryScan
  have extest := exec_of_driving (i := .extest) (code := 0x00) (fun _ => rfl) (by decide)
  have pulse := exec_of_driving (i := .extestPulse) (code := 0x03) (fun _ => rfl) (by decide)
  have train := exec_of_driving (i := .extestTrain) (code := 0x04) (fun _ => rfl) (by decide)
  have clamp := exec_of_driving (i := .clamp) (code := 0x05) (fun _ => rfl) (by decide)
  have highz := exec_of_driving (i := .highz) (code := 0x06) (fun _ => rfl) (by decide)
  refine ⟨fun s on => (extest s on).1, fun s on => (extest s on).2, fun s on => (pulse s on).1, fun s on => (pulse s on).2,
    fun s on => (train s on).1, fun s on => (train s on).2, fun s on => (clamp s on).1, fun s on => (clamp s on).2,
    fun s on => (highz s on).1, fun s on => (highz s on).2, fun s on => ?_, fun s v on => ?_, fun s c on other => ?_, fun s => ?_,
    fun s off => ?_, fun s c known => ?_⟩
  · have idcode : Answer.data (leBytes 4 0x1C1203E3) false = .data [0xE3, 0x03, 0x12, 0x1C] false := congrArg (Answer.data · false) (by decide)
    have row : exec .idcode s = .next (answer (.data (leBytes 4 0x1C1203E3) false) (loadInstr 0x01 s)) :=
      onlyIf_true (fun s => answer (.data (leBytes 4 0x1C1203E3) false) (loadInstr 0x01 s)) s on
    rw [loadInstr_leaves (by decide)] at row
    exact ⟨_, row, rfl, rfl, rfl, fun driven n p there enabled => leaveScan_trains driven there enabled, idcode, rfl⟩
  · have row := exec_samplePreload v on
    rw [loadInstr_leaves (by decide)] at row
    refine ⟨_, row, rfl, rfl, rfl, fun driven n p there enabled => leaveScan_trains driven there enabled, fun i lane => ?_, ?_⟩
    · refine (lget_captured _ _ lane).trans ?_
      rw [leaveScan_rest]
    · refine (drop_captured ..).trans ?_
      rw [leaveScan_rest]
      rfl
  · have row : exec (.bypass c) s = .next (loadInstr 0xFF s) := onlyIf_true _ _ (by simp [on, other])
    rw [loadInstr_leaves (by decide)] at row
    exact ⟨_, row, rfl, rfl, rfl, fun driven n p there enabled => leaveScan_trains driven there enabled, rfl⟩
  · refine ⟨resetTap s, rfl, ?_, fun driven n p there enabled => leaveScan_trains driven there enabled⟩
    unfold resetTap
    dsimp only
    rw [leaveScan_jtag]
  · exact ⟨onlyIf_false _ _ off, onlyIf_false _ _ off, onlyIf_false _ _ off, onlyIf_false _ _ off, onlyIf_false _ _ off,
      congrArg Host.Outcome.next (if_neg (by simp [off])), fun v => congrArg Host.Outcome.next (if_neg (by simp [off])), fun c => onlyIf_false _ _ (by simp [off])⟩
  · exact onlyIf_false _ _ (by simp [known])

end Sys2Proof.Machine

/-! ### Power, die temperature and coolant (R396–R399, R402) -/

namespace Sys2Proof.Machine

section Loops

variable {s : State}

/-! #### Power (R397, R398) -/

theorem power100_dp (plim : Nat) (x : PowerT) : (power100 plim x).dp =
    if sum (x.p10.take 10) > plim * max 1 (x.p10.take 10).length then min 15 (x.dp + 2) else x.dp := by
  unfold power100 meanAbove
  split
  · next above => rw [if_pos (of_decide_eq_true above)]
  · next below => rw [if_neg (of_decide_eq_false (Bool.eq_false_iff.mpr below))]

theorem power100_p10 (plim : Nat) (x : PowerT) : (power100 plim x).p10 = x.p10 := by
  unfold power100
  split <;> rfl

/-- The millisecond average has stayed above PLIM at depth 15 for longer than 1 ms, or the excursion goes on until it has stayed below for 10 ms. -/
theorem power1_excursion (plim : Nat) (x : PowerT) : (power1 plim x).excursion =
    ((x.excursion || decide ((if meanAbove x.p10 plim ∧ x.dp = 15 then x.highMs + 1 else 0) ≥ 2)) &&
      decide ((if meanBelow x.p10 plim then x.lowMs + 1 else 0) ≤ 10)) := rfl

theorem power1_held {plim : Nat} {x : PowerT} (holds : (power1 plim x).excursion = true) : (power1 plim x).dp = 15 := if_pos holds

theorem power1_falls {plim : Nat} {x : PowerT} (calm : (power1 plim x).excursion = false) : (power1 plim x).dp =
    if sum x.p10 < (plim - 50) * max 1 x.p10.length ∧ x.rose = false then x.dp - 1 else x.dp := by
  refine (if_neg (Bool.eq_false_iff.mp calm)).trans ?_
  simp [meanBelow]

/-- The tick in which an excursion starts posts it; any other leaves the always-on domain. -/
theorem powerMs_quiet (none : (power1 s.aon.plim s.power).excursion = false ∨ s.power.excursion = true) :
    powerMs s = updPower (fun _ => power1 s.aon.plim s.power) s := by
  refine if_neg ?_
  rcases none with calm | on
  · simp [calm]
  · simp [on]

theorem powerMs_posts (starts : (power1 s.aon.plim s.power).excursion = true) (calm : s.power.excursion = false) :
    powerMs s = postFault (powerFault 0x90 5) (updPower (fun _ => power1 s.aon.plim s.power) s) :=
  if_pos (by simp [starts, calm])

theorem exec_powerTick1ms (good : s.pins.pwrgd = true) : exec .powerTick1ms s = .next (powerMs s) := onlyIf_true _ _ good

/-! #### Die temperature (R399) -/

theorem dieOf_setDie (d : Die) (y : DieT) (x : PowerT) : dieOf d (setDie d y x) = y := by cases d <;> rfl
theorem setDie_dieOf (d : Die) (x : PowerT) : setDie d (dieOf d x) x = x := by cases d <;> rfl
theorem setDie_dp (d : Die) (y : DieT) (x : PowerT) : (setDie d y x).dp = x.dp := by cases d <;> rfl

theorem sampleDie_invalid {v : Option Int} (y : DieT) (bad : ∀ x, v = some x → x < -40 ∨ 150 < x) : sampleDie v y = y := by
  cases v with
  | none => rfl
  | some x =>
    have dropped : (some x).filter (fun v => decide (-40 ≤ v) && decide (v ≤ 150)) = none := by
      have out := bad x rfl
      simp
      omega
    rw [sampleDie, dropped]

theorem sampleDie_valid {v : Int} {l : List Int} (y : DieT) (least : -40 ≤ v) (most : v ≤ 150) (last : l = (y.samples ++ [v]).drop (y.samples.length - 4)) :
    sampleDie (some v) y = { y with samples := l, filtered := some (filterSamples l.length l)
                                    armed := if filterSamples l.length l < 97 then true else if filterSamples l.length l ≥ 100 then false else y.armed } := by
  simp [sampleDie, Option.filter, least, most, last]

theorem dieRose_iff {y z : DieT} : dieRose y z = true ↔ y.armed = true ∧ ∃ f, z.filtered = some f ∧ 100 ≤ f := by
  simp [dieRose, Option.any_eq_true]

theorem exec_dieTempSample (d : Die) (v : Option Int) (good : s.pins.pwrgd = true) : exec (.dieTempSample d v) s = .next (dieSample d v s) :=
  onlyIf_true _ _ good

theorem dieSample_power (d : Die) (v : Option Int) (s : State) : (dieSample d v s).power = setDie d (sampleDie v (dieOf d s.power)) s.power := by
  unfold dieSample
  dsimp only
  split
  · rw [postFault_power]
    rfl
  · rfl

theorem dieSample_calm {d : Die} {v : Option Int} (calm : ¬ dieRose (dieOf d s.power) (sampleDie v (dieOf d s.power)) = true) :
    (dieSample d v s).aon = s.aon := by
  unfold dieSample
  dsimp only
  rw [if_neg calm]
  rfl

theorem dieSample_posts {d : Die} {v : Option Int} (rises : dieRose (dieOf d s.power) (sampleDie v (dieOf d s.power)) = true) :
    (dieSample d v s).aon.codes.head? = some (powerFault (if d = .west then 0x91 else 0x92) 3) ∧ (dieSample d v s).levels = s.levels := by
  unfold dieSample
  dsimp only
  rw [if_pos rises]
  exact ⟨head_codes_postFault .., postFault_levels ..⟩

theorem depthStep_none {y : DieT} (unknown : y.filtered = none) : depthStep y = y := by rw [depthStep, unknown]

theorem depthStep_depth {y : DieT} {f : Int} (known : y.filtered = some f) :
    (depthStep y).depth = if 100 ≤ f then min 15 (y.depth + 1) else if f < 97 then y.depth - 1 else y.depth := by
  rw [depthStep, known]
  dsimp only
  split_ifs <;> rfl

theorem exec_dieDepthTick (d : Die) (good : s.pins.pwrgd = true) :
    exec (.dieDepthTick d) s = .next (updPower (fun x => setDie d (depthStep (dieOf d x)) x) s) := onlyIf_true _ _ good

end Loops

/-- Settles O46: what the millisecond tick does to an excursion decides between a depth held and one that falls; a sample's rise decides the code. -/
theorem powerAndTemperature : Obligations.PowerAndTemperature := by
  unfold Obligations.PowerAndTemperature
  refine ⟨fun s w good => ?_, fun s good => ?_, fun s good calm low => ?_, fun s good calm above deep long => ?_, fun s good on short => ?_,
    fun s good on long below => ?_, fun s w off => congrArg Host.Outcome.next (if_neg (by simp [off])), fun s off => onlyIf_false _ _ off, fun s off => onlyIf_false _ _ off,
    fun s d v off => onlyIf_false _ _ off, fun s d off => onlyIf_false _ _ off, fun s i o off => onlyIf_false _ _ off,
    fun s d v good least most four => ?_, fun s d v good bad calm => ?_, fun s d v l good least most last => ?_, fun s d good unknown => ?_,
    fun s d v f good armed filtered hot => ?_, fun s d f good known => ?_, fun s i o good => ?_⟩
  · exact ⟨_, congrArg Host.Outcome.next (if_pos good), rfl, rfl, rfl, rfl, rfl⟩
  · exact ⟨_, congrArg Host.Outcome.next (if_pos good), power100_dp .., power100_p10 .., rfl⟩
  · have none : (power1 s.aon.plim s.power).excursion = false := by
      have few : (if meanAbove s.power.p10 s.aon.plim ∧ s.power.dp = 15 then s.power.highMs + 1 else 0) < 2 := by
        split
        · next high =>
          have above : s.aon.plim * max 1 s.power.p10.length < sum s.power.p10 := of_decide_eq_true high.1
          rcases low with low | shallow | new
          · omega
          · exact absurd high.2 shallow
          · omega
        · decide
      simp [power1_excursion, calm, Nat.not_le.mpr few]
    refine ⟨_, exec_powerTick1ms good, ?_⟩
    rw [powerMs_quiet (.inl none)]
    exact ⟨rfl, none, rfl, rfl, power1_falls none⟩
  · have starts : (power1 s.aon.plim s.power).excursion = true := by
      have notBelow : ¬ meanBelow s.power.p10 s.aon.plim = true := fun below => absurd (of_decide_eq_true below) (by omega)
      have high : meanAbove s.power.p10 s.aon.plim = true := decide_eq_true above
      simp [power1_excursion, notBelow, high, deep, long]
    refine ⟨_, exec_powerTick1ms good, ?_⟩
    rw [powerMs_posts starts calm, postFault_power]
    exact ⟨starts, power1_held starts, head_codes_postFault .., postFault_levels ..⟩
  · have holds : (power1 s.aon.plim s.power).excursion = true := by
      have few : (if meanBelow s.power.p10 s.aon.plim then s.power.lowMs + 1 else 0) ≤ 10 := by
        split
        · next below =>
          have := of_decide_eq_true below
          omega
        · decide
      simp [power1_excursion, on, few]
    refine ⟨_, exec_powerTick1ms good, ?_⟩
    rw [powerMs_quiet (.inr on)]
    exact ⟨holds, power1_held holds, rfl⟩
  · have ends : (power1 s.aon.plim s.power).excursion = false := by
      have low : meanBelow s.power.p10 s.aon.plim = true := decide_eq_true below
      have many : 10 < s.power.lowMs + 1 := by omega
      simp [power1_excursion, low, long]
    refine ⟨_, exec_powerTick1ms good, ?_⟩
    rw [powerMs_quiet (.inr on)]
    exact ⟨ends, rfl, power1_falls ends⟩
  · have all : (dieOf d s.power).samples ++ [v] = ((dieOf d s.power).samples ++ [v]).drop ((dieOf d s.power).samples.length - 4) := by rw [four]; rfl
    refine ⟨_, exec_dieTempSample d _ good, ?_⟩
    rw [dieSample_power, dieOf_setDie, sampleDie_valid _ least most all]
    exact ⟨rfl, congrArg some (if_pos (by simp [four])), rfl⟩
  · refine ⟨_, exec_dieTempSample d v good, ?_, dieSample_calm ?_⟩
    · rw [dieSample_power, sampleDie_invalid _ bad, setDie_dieOf]
    · rw [sampleDie_invalid _ bad, dieRose_iff]
      rintro ⟨armed, f, filtered, hot⟩
      rcases calm with unarmed | cool
      · exact Bool.false_ne_true (unarmed.symm.trans armed)
      · exact absurd (cool f filtered) (by omega)
  · have sampled := sampleDie_valid (dieOf d s.power) least most last
    refine ⟨_, exec_dieTempSample d _ good, ?_, fun calm => dieSample_calm ?_⟩
    · rw [dieSample_power, dieOf_setDie, sampled]
    · rw [sampled, dieRose_iff]
      rintro ⟨armed, f, filtered, hot⟩
      rcases calm with unarmed | cool
      · exact Bool.false_ne_true (unarmed.symm.trans armed)
      · exact absurd (Option.some.inj filtered ▸ hot) (by omega)
  · refine ⟨_, exec_dieDepthTick d good, ?_⟩
    show setDie d (depthStep (dieOf d s.power)) s.power = s.power
    rw [depthStep_none unknown, setDie_dieOf]
  · exact ⟨_, exec_dieTempSample d v good, dieSample_posts (dieRose_iff.mpr ⟨armed, f, filtered, hot⟩)⟩
  · refine ⟨_, exec_dieDepthTick d good, ?_, setDie_dp ..⟩
    refine (congrArg DieT.depth (dieOf_setDie ..)).trans (depthStep_depth known)
  · exact ⟨_, onlyIf_true _ _ good, rfl, rfl, rfl, rfl, by simp [sampleCoolant, coolBad, updPower], rfl⟩

end Sys2Proof.Machine

/-! ### Ports that exchange no flits (R326, R330) -/

namespace Sys2Proof.Machine

/-- The port has the credits, reservations and passed flits of q, and is p in everything else. -/
def Still (p q : Port) : Prop := q = { p with credits := q.credits, resv := q.resv, passed := q.passed }

/-- A port that exchanges no flits stays still from s to t: the traffic of the others can return credits to it, nothing more (R330). -/
structure StillPort (n : Nat) (s t : State) : Prop where
  still : beating (port s n) = false → Still (port s n) (port t n)

theorem Still.refl (p : Port) : Still p p := rfl
theorem Still.trans {p q r : Port} (h : Still p q) (k : Still q r) : Still p r := by unfold Still at *; rw [k, h]
theorem Still.st {p q : Port} (h : Still p q) : q.st = p.st := by rw [h]

section StillPorts

variable {n m : Nat} {s t u : State}

theorem StillPort.refl (n : Nat) (s : State) : StillPort n s s := ⟨fun _ => Still.refl _⟩
theorem StillPort.trans (h : StillPort n s t) (k : StillPort n t u) : StillPort n s u :=
  ⟨fun idle => (h.still idle).trans (k.still (by rw [beating, (h.still idle).st]; exact idle))⟩

theorem stillPort_of_ports (same : t.icern.ports = s.icern.ports) : StillPort n s t := ⟨fun _ => by
  have kept : port t n = port s n := congrArg (fun l : Tbl Port => tgetD l n {}) same
  rw [kept]
  exact Still.refl _⟩
theorem stillPort_of_icern (same : t.icern = s.icern) : StillPort n s t := stillPort_of_ports (congrArg Icern.ports same)

theorem stillPort_foldl {α : Type} {f : State → α → State} (each : ∀ s a, StillPort n s (f s a)) (l : List α) (s : State) : StillPort n s (l.foldl f s) := by
  induction l generalizing s with
  | nil => exact StillPort.refl n s
  | cons a l ih => exact (each s a).trans (ih _)

theorem stillPort_updPort {f : Port → Port} (each : ∀ p, Still p (f p)) (m : Nat) (s : State) : StillPort n s (updPort m f s) := ⟨fun _ => by
  by_cases same : n = m
  · rw [same, port_updPort_same]
    exact each _
  · rw [port_updPort_other _ _ same]
    exact Still.refl _⟩

theorem stillPort_tmap {f : Nat → Port → Port} (each : ∀ k p, Still p (f k p)) (s : State) :
    StillPort n s (updIcern (fun i => { i with ports := tmap f i.ports }) s) := ⟨fun _ => by
  show Still (tgetD s.icern.ports n {}) (tgetD (tmap f s.icern.ports) n {})
  rw [tgetD, tgetD, tget_tmap]
  cases tget s.icern.ports n with
  | none => exact Still.refl _
  | some p => exact each n p⟩

theorem still_putCredit (c : Credit) (p : Port) : Still p (putCredit c p) := rfl
theorem still_owe (v : Nat) (c : Bool) (p : Port) : Still p (owe v c p) := rfl

theorem still_reserve (l : List Resv) (p : Port) : Still p { p with resv := l } := rfl

theorem transmit_idle {p : Port} (k : Nat) (idle : beating p = false) : transmit k p = p := by
  refine transmit_quiet k (.inl ?_)
  simp only [beating, Bool.or_eq_false_iff] at idle
  simp [mayTransmit, idle]

theorem stillPort_runPort (m : Nat) (s : State) : StillPort n s (runPort m s) := by
  refine StillPort.trans (t := updPort m (fun _ => { transmit (lineRoom (port s m)) (port s m) with passed := [] }) s) ⟨fun idle => ?_⟩
    (stillPort_foldl (fun s a => stillPort_updPort (fun p => still_owe ..) _ s) _ _)
  by_cases same : n = m
  · subst same
    rw [port_updPort_same, transmit_idle _ idle]
    rfl
  · rw [port_updPort_other _ _ same]
    exact Still.refl _

/-- Flits queued at a port that is UP. -/
theorem stillPort_queueFlits (ts : List TxFlit) (up : (port s m).st = .up) : StillPort n s (queueFlits m ts s) := by
  refine StillPort.trans ⟨fun idle => ?_⟩ (stillPort_runPort m _)
  have other : n ≠ m := by
    rintro rfl
    simp [beating, up] at idle
  rw [port_updPort_other _ _ other]
  exact Still.refl _

theorem stillPort_discard (cause k module : Nat) (s : State) : StillPort n s (discard cause k module s) :=
  stillPort_of_ports (by rw [discard, postFault_icern]; rfl)

theorem stillPort_sendMsg (m : Msg) (s : State) : StillPort n s (sendMsg m s) := by
  unfold sendMsg sendClass
  split
  · exact stillPort_discard ..
  · split
    · next up => exact stillPort_queueFlits _ up
    · exact stillPort_discard ..

theorem stillPort_sendAll (ms : List Nat) (f : Nat → Msg) (s : State) : StillPort n s (sendAll ms f s) :=
  stillPort_foldl (fun s i => stillPort_sendMsg (f i) s) ms s

/-- The requests that wait are sent on over ports that are UP, or discarded (R331). -/
theorem stillPort_pumpOver (l barred : List (Msg × Nat)) (s : State) : StillPort n s (pumpOver l barred s) := by
  induction l generalizing barred s with
  | nil => exact StillPort.refl n s
  | cons a l ih =>
    obtain ⟨m, k⟩ := a
    have taken : StillPort n s (updIcern (fun i => { i with requests := removeFirst (m, k) i.requests }) s) := stillPort_of_ports rfl
    unfold pumpOver
    dsimp only
    split
    · exact (taken.trans (stillPort_sendMsg m _)).trans (ih ..)
    · split
      · exact ih ..
      · split
        · exact ih ..
        · exact ((taken.trans (stillPort_updPort (fun p => still_reserve ..) _ _)).trans (stillPort_sendMsg m _)).trans (ih ..)

theorem stillPort_pumpRequests (s : State) : StillPort n s (pumpRequests s) := stillPort_pumpOver _ _ s

/-! #### Commands that end -/

theorem stillPort_freeBufs (b : Option (Nat × Nat × Bool × Nat)) (s : State) : StillPort n s (freeBufs b s) := by
  unfold freeBufs
  split
  · exact (stillPort_updPort (fun p => still_putCredit ..) _ _).trans (stillPort_runPort ..)
  · exact StillPort.refl n s

theorem stillPort_abortAll (x : Cmd) (c reason : Nat) (st : Status) (s : State) : StillPort n s (abortAll x c reason st s) := by
  have reserved : StillPort n s (abandonRun c (x.run % 256) s) := (stillPort_tmap (f := fun _ p => { p with resv := p.resv.map fun r =>
    if r.cmd = c ∧ r.run = x.run % 256 then { r with killed := true } else r }) (fun _ _ => rfl) s).trans (stillPort_of_ports rfl)
  exact reserved.trans (stillPort_sendAll ..)

theorem stillPort_endCmd (c : Nat) (st : Status) (fault : W32) (s : State) : StillPort n s (endCmd c st fault s) := by
  unfold endCmd
  split
  · exact StillPort.refl n s
  · next x _ =>
    split
    · exact StillPort.refl n s
    · have aborted : StillPort n s (if x.origin.isNone ∧ ¬x.committing then abortAll x c 1 st s else s) := by
        split
        · exact stillPort_abortAll ..
        · exact StillPort.refl n s
      refine aborted.trans (stillPort_of_icern ?_)
      have w : Within _ [.host, .ptns, .ctxs, .colls, .cmds] := within_self _
      exact (k_finish (w.of (by decide)) c st 0 fault (k_dropWork (w.of (by decide)) _ (k_withdraw w c (Keeps.refl _ _)))).same_icern

theorem stillPort_failCmd (c : Nat) (st : Status) (fault : W32) (s : State) : StillPort n s (failCmd c st fault s) := by
  unfold failCmd
  split
  · exact StillPort.refl n s
  · exact stillPort_endCmd ..

theorem stillPort_dropPart (c : Nat) (s : State) : StillPort n s (dropPart c s) := by
  unfold dropPart
  split
  · exact StillPort.refl n s
  · next x _ =>
    split
    · exact StillPort.refl n s
    · have w : Within _ [.host, .ptns, .ctxs, .colls, .cmds] := within_self _
      have freed : StillPort n s (freePools x.holds s) :=
        stillPort_of_icern (k_freePools (w.of (by decide)) x.holds (Keeps.refl _ s)).same_icern
      refine (freed.trans (stillPort_freeBufs x.lent _)).trans (stillPort_of_icern ?_)
      exact (k_delCmd (w.of (by decide)) c (k_dropWork (w.of (by decide)) _ (k_withdraw w c (Keeps.refl _ _)))).same_icern

theorem stillPort_peerFailed (st : Status) (code : W32) (gone : List Nat) (c : Nat) (s : State) : StillPort n s (peerFailed st code gone c s) := by
  unfold peerFailed
  split
  · exact StillPort.refl n s
  · split
    · split
      · exact stillPort_of_icern (k_lostCommit (within_self _) c gone code (Keeps.refl _ s)).same_icern
      · exact stillPort_failCmd ..
    · split
      · exact StillPort.refl n s
      · exact stillPort_failCmd ..

theorem stillPort_loseRoutes (code : W32) (s : State) : StillPort n s (loseRoutes code s) := by
  unfold loseRoutes
  dsimp only
  refine StillPort.trans (stillPort_foldl (fun u c => stillPort_dropPart c u) _ s) (stillPort_foldl (fun u j => ?_) _ _)
  split
  · exact StillPort.refl n u
  · exact stillPort_foldl (fun v c => stillPort_peerFailed .linkLost code (unreached u j) c v) _ u

/-! #### The module out of service (R364) -/

theorem stillPort_completeTicket (k : Nat) (r : Rsp) (s : State) : StillPort n s (completeTicket k r s) := by
  unfold completeTicket
  split
  · exact StillPort.refl n s
  · next x _ =>
    dsimp only
    generalize noted : updHearth _ s = t
    have kept : t.icern = s.icern := by rw [← noted]; rfl
    have held : StillPort n s (if x.req.opcode = 0x0501 then updIcern (fun i => { i with hold := false }) t else t) := by
      refine (stillPort_of_icern kept).trans ?_
      split
      · exact stillPort_of_ports rfl
      · exact StillPort.refl n t
    refine held.trans (stillPort_of_icern ?_)
    generalize (if x.req.opcode = 0x0501 then updIcern (fun i => { i with hold := false }) t else t) = u
    have w : Within _ [.host, .hearth] := within_self _
    refine (k_logEvent (s := u) (w.of (by decide)) 0x80 6 k 0 ?_).same_icern
    split
    · exact k_sendVec (w.of (by decide)) 0 (k_updHost (w.of (by decide)) _ (Keeps.refl _ u))
    · exact k_updHost (w.of (by decide)) _ (Keeps.refl _ u)

theorem stillPort_fenceTicketsOf (p : Nat) (s : State) : StillPort n s (fenceTicketsOf p s) :=
  (stillPort_of_icern (k_endTestsOn (within_self _) p (Keeps.refl _ s)).same_icern).trans
    (stillPort_foldl (fun u (k : Nat × Ticket) => stillPort_completeTicket k.1 { status := .fenced } u) _ _)

theorem stillPort_fenceNotices (p level : Nat) (code : W32) (s : State) : StillPort n s (fenceNotices p level code s) := by
  unfold fenceNotices
  split
  · exact StillPort.refl n s
  · exact stillPort_sendAll ..

theorem stillPort_fenceForOos (p : Nat) (s : State) : StillPort n s (fenceForOos p s) := by
  unfold fenceForOos
  refine StillPort.trans ?_ (stillPort_fenceTicketsOf p _)
  split
  · exact (stillPort_fenceNotices p 0 0 s).trans (stillPort_of_icern (k_ptnChange (within_self _) p (Keeps.refl _ _)).same_icern)
  · exact StillPort.refl n s

theorem stillPort_moduleOos (s : State) : StillPort n s (moduleOos s) := by
  have marked : StillPort n s (updAon (fun a => { a with oos := true }) s) := stillPort_of_icern rfl
  refine ((marked.trans (stillPort_foldl (fun u c => stillPort_failCmd c _ _ u) _ _)).trans
    (stillPort_foldl (fun u p => stillPort_fenceForOos p u) _ _)).trans (stillPort_foldl (fun u p => stillPort_of_icern ?_) _ _)
  exact (k_bankForOos (within_self _) p (Keeps.refl _ u)).same_icern

theorem stillPort_countRetrain (s : State) : StillPort n s (countRetrain s) := by
  have counted : StillPort n s (updAon (fun a => { a with linkWin := openCount a.ticks a.linkWin }) s) := stillPort_of_icern rfl
  unfold countRetrain
  dsimp only
  split
  · exact counted.trans (stillPort_moduleOos _)
  · exact counted

end StillPorts

end Sys2Proof.Machine

/-! ### The states of an Icern port (R325, R326, R348, R362) -/

namespace Sys2Proof.Machine

section PortStates

variable {n : Nat} {s : State}

/-! #### What keeps OUT_OF_SERVICE (R364) -/

theorem oos_discard (cause k module : Nat) (s : State) : (discard cause k module s).aon.oos = s.aon.oos := by
  rw [discard, postFault_aon]
  rfl

theorem oos_sendMsg (m : Msg) (s : State) : (sendMsg m s).aon.oos = s.aon.oos := by
  unfold sendMsg sendClass
  split
  · exact oos_discard ..
  · split
    · exact congrArg Aon.oos (k_queueFlits (within_self _) _ _ (Keeps.refl _ s)).same_aon
    · exact oos_discard ..

theorem oos_sendAll (ms : List Nat) (f : Nat → Msg) (s : State) : (sendAll ms f s).aon.oos = s.aon.oos :=
  foldl_same (fun s : State => s.aon.oos) (fun s i => oos_sendMsg (f i) s) ms s

theorem oos_failCmd (c : Nat) (st : Status) (fault : W32) (s : State) : (failCmd c st fault s).aon.oos = s.aon.oos := by
  have w : Within _ [.host, .ptns, .ctxs, .colls, .cmds, .icern] := within_self _
  unfold failCmd endCmd
  split
  · rfl
  · split
    · rfl
    · next x _ =>
      split
      · rfl
      · refine (congrArg Aon.oos (k_finish (w.of (by decide)) c st 0 fault
          (k_dropWork (w.of (by decide)) _ (k_withdraw (w.of (by decide)) c (Keeps.refl _ _)))).same_aon).trans ?_
        split
        · refine (oos_sendAll ..).trans (congrArg Aon.oos (k_abandonRun (within_self _) c (x.run % 256) (Keeps.refl _ s)).same_aon)
        · rfl

theorem oos_fenceForOos (p : Nat) (s : State) : (fenceForOos p s).aon.oos = s.aon.oos := by
  unfold fenceForOos
  refine (congrArg Aon.oos (k_fenceTicketsOf (within_self _) p (Keeps.refl _ _)).same_aon).trans ?_
  split
  · rw [ptnChange_aon]
    unfold fenceNotices
    split
    · rfl
    · exact oos_sendAll ..
  · rfl

theorem aon_flushEnt (p : Nat) (e : WcbEnt) (s : State) : (flushEnt p [] e s).aon = s.aon := by
  unfold flushEnt
  dsimp only
  refine (foldl_same State.aon (fun u k => ?_) _ _).trans ?_
  · split <;> rfl
  · rw [List.foldl_nil, ite_self]

theorem aon_flushLine (p line : Nat) (s : State) : (flushLine p line [] s).aon = s.aon := by
  unfold flushLine
  split
  · exact aon_flushEnt ..
  · rfl

theorem oos_moduleOos (s : State) : (moduleOos s).aon.oos = true := by
  unfold moduleOos
  dsimp only
  refine (foldl_same (fun s : State => s.aon.oos) (fun u p => ?_) _ _).trans ?_
  · exact congrArg Aon.oos (foldl_same State.aon (fun u (e : WcbEnt) => aon_flushLine p e.line u) _ u)
  · refine (foldl_same (fun s : State => s.aon.oos) (fun u p => oos_fenceForOos p u) _ _).trans ?_
    exact foldl_same (fun s : State => s.aon.oos) (fun u c => oos_failCmd c .outOfService 0 u) _ _

/-! #### A port goes DOWN (R326, R343, R348) -/

theorem emptyPort_cmds (n cause : Nat) (s : State) : (emptyPort n cause s).cmds = (unlend n s).cmds := by
  obtain ⟨u, same, empties⟩ := emptyPort_stages State.cmds (fun _ _ _ _ => rfl) (fun _ _ => rfl) n cause s
  rw [empties]
  refine (foldl_same State.cmds (g := fun u m => updPort m (dropPass n) u) (fun _ _ => rfl) _ (unlend n u)).trans ?_
  rw [unlend, unlend, same]

theorem emptyPort_requests (n cause : Nat) (s : State) : (emptyPort n cause s).icern.requests = s.icern.requests := by
  obtain ⟨u, same, empties⟩ := emptyPort_stages (fun u => u.icern.requests) (fun _ _ _ _ => rfl) (fun _ _ => rfl) n cause s
  rw [empties]
  exact (foldl_same (fun u : State => u.icern.requests) (g := fun u m => updPort m (dropPass n) u) (fun _ _ => rfl) _ (unlend n u)).trans same

theorem parked_unlend (n : Nat) (s : State) : cmdsOf (fun x => x.parked) (unlend n s) = cmdsOf (fun x => x.parked) s := by
  unfold cmdsOf unlend tmap
  rw [List.filter_map, List.map_map]
  refine congrArg₂ _ rfl ?_
  refine congrArg (fun f => s.cmds.filter f) (funext fun x => ?_)
  dsimp only [Function.comp]
  split <;> rfl

/-- The code that a port's fall posts (R348). -/
def downCode (s : State) (n cause : Nat) : W32 := faultCode 6 (0x78 + n) 0xF (cause * 2 ^ 12 + n * 2 ^ 10 + (port s n).peer % 64)

/-- No job spans modules, no part waits for its next run and no request waits: the fall of a port cuts off nothing. -/
structure NothingCutOff (s : State) : Prop where
  alone : spanningJobs s = []
  unparked : cmdsOf (fun x => x.parked) s = []
  requests : s.icern.requests = []

theorem portDown_of_alone (cause : Nat) (cuts : NothingCutOff s) : portDown n cause s = cutPort n cause s := by
  let u := postFault (downCode s n cause) s
  have jobs : (cutPort n cause s).jobs = s.jobs := (k_emptyPort (within_self _) n cause (Keeps.refl _ u)).same_jobs.trans (postFault_jobs ..)
  have unparked : cmdsOf (fun x => x.parked) (cutPort n cause s) = [] := by
    have cmds : (cutPort n cause s).cmds = (unlend n s).cmds := by rw [cutPort, emptyPort_cmds, unlend, unlend, postFault_cmds]
    have same : cmdsOf (fun x => x.parked) (cutPort n cause s) = cmdsOf (fun x => x.parked) s := by rw [← parked_unlend n s, cmdsOf, cmdsOf, cmds]
    rw [same, cuts.unparked]
  have none : (cutPort n cause s).icern.requests = [] :=
    ((emptyPort_requests n cause u).trans (congrArg Icern.requests (postFault_icern ..))).trans cuts.requests
  have spanning : spanningJobs (cutPort n cause s) = [] := by rw [spanningJobs, jobs, ← spanningJobs, cuts.alone]
  have parts : ∀ gone, dropParked gone (cutPort n cause s) = cutPort n cause s := fun gone => by
    have noPart : cmdsOf (fun x => x.parked && x.origin.any fun o => gone o.1) (cutPort n cause s) = [] := by
      simp only [cmdsOf, List.map_eq_nil_iff, List.filter_eq_nil_iff] at unparked ⊢
      intro x listed
      simp [unparked x listed]
    rw [dropParked, noPart, List.foldl_nil]
  have routes : ∀ code, loseRoutes code (cutPort n cause s) = cutPort n cause s := fun code => by
    unfold loseRoutes
    dsimp only
    rw [parts, spanning, List.foldl_nil]
  unfold portDown
  dsimp only
  rw [routes, pumpRequests_none none]

/-- A port that goes DOWN is DOWN with nothing to send or to be sent again; credits can still be owed (R326). -/
theorem portDown_stops (n cause : Nat) (s : State) : (port (portDown n cause s) n).st = .down ∧ (port (portDown n cause s) n).step = 0 ∧
    (port (portDown n cause s) n).tx = [] ∧ (port (portDown n cause s) n).replay = [] ∧ (port (portDown n cause s) n).hbloss = (cause == 3) := by
  obtain ⟨p, downed, -⟩ := port_emptyPort_same n cause (postFault (downCode s n cause) s)
  have still : StillPort n (cutPort n cause s) (portDown n cause s) := (stillPort_loseRoutes _ _).trans (stillPort_pumpRequests _)
  have fell : port (cutPort n cause s) n = downPort cause p := downed
  have stays := still.still (by rw [fell]; rfl)
  rw [stays, fell]
  exact ⟨rfl, rfl, rfl, rfl, rfl⟩

/-- It keeps its peer and whether that was the one expected (R326, R345). -/
theorem portDown_keeps (n cause : Nat) (s : State) : (port (portDown n cause s) n).peer = (port s n).peer ∧
    (port (portDown n cause s) n).mismatch = (port s n).mismatch := by
  let u := postFault (downCode s n cause) s
  obtain ⟨p, downed, peer, mismatch⟩ := port_emptyPort_same n cause u
  have posted : port u n = port s n := congrArg (fun i : Icern => tgetD i.ports n {}) (postFault_icern ..)
  have still : StillPort n (cutPort n cause s) (portDown n cause s) := (stillPort_loseRoutes _ _).trans (stillPort_pumpRequests _)
  have fell : port (cutPort n cause s) n = downPort cause p := downed
  have stays := still.still (by rw [fell]; rfl)
  rw [stays, fell]
  rw [posted] at peer mismatch
  exact ⟨peer, mismatch⟩

/-- Where nothing is cut off its credits and what it was receiving are gone too, and its code is the newest (R326, R348). -/
theorem portDown_posts (cause : Nat) (cuts : NothingCutOff s) : (port (portDown n cause s) n).rx = [] ∧ (port (portDown n cause s) n).credits = [] ∧
    (portDown n cause s).aon.codes.head? = some (downCode s n cause) := by
  obtain ⟨p, downed, -⟩ := port_emptyPort_same n cause (postFault (downCode s n cause) s)
  have fell : port (cutPort n cause s) n = downPort cause p := downed
  rw [portDown_of_alone cause cuts, fell]
  refine ⟨rfl, rfl, ?_⟩
  exact (congrArg (fun a : Aon => a.codes.head?) (k_emptyPort (within_self _) n cause (Keeps.refl _ _)).same_aon).trans (head_codes_postFault ..)

end PortStates

end Sys2Proof.Machine

/-! ### The bring-up of an Icern port (R325, R326, R332, R362) -/

namespace Sys2Proof.Machine

section BringUp

variable {n : Fin 4} {s : State}

theorem exec_portTrainStepDone (l : BitVec 4) (trains : bringingUp (port s n.val) = true) :
    exec (.portTrainStepDone n l) s = .next (trainStep n.val l s) := onlyIf_true _ _ trains

theorem exec_portStepTimeout (trains : bringingUp (port s n.val) = true) : exec (.portStepTimeout n) s = .next (portDown n.val 1 s) :=
  onlyIf_true _ _ trains

theorem exec_portRestart (down : (port s n.val).st = .down) (enabled : bit s.aon.enable.toNat n.val = true) :
    exec (.portRestart n) s = .next (restartPort n.val s) := onlyIf_true _ _ (by simp [down, enabled])

theorem exec_heartbeatLoss (up : (port s n.val).st = .up) : exec (.heartbeatLoss n) s = .next (portDown n.val 3 s) :=
  onlyIf_true _ _ (by simp [up])

theorem exec_alignmentLoss (up : (port s n.val).st = .up) : exec (.alignmentLoss n) s = .next (portDown n.val 1 s) :=
  onlyIf_true _ _ (by simp [up])

theorem exec_heartbeatTimer (beats : beating (port s n.val) = true) : exec (.heartbeatTimer n) s = .next (sendHeartbeat n.val s) :=
  onlyIf_true _ _ beats

/-- A training at step 1 that found lanes other than all four (R325). -/
theorem trainStep_fails {l : BitVec 4} (first : (port s n.val).step = 1) (fewer : l ≠ 0xF) :
    trainStep n.val l s = portDown n.val 1 (updPort n.val (fun p => { p with lanes := l }) s) :=
  (if_pos first).trans (if_neg fewer)

theorem trainStep_waits {l : BitVec 4} (waits : ((port s n.val).step = 4 ∧ (port s n.val).beat = false) ∨ (port s n.val).step = 0 ∨
    (port s n.val).step = 3 ∨ 4 < (port s n.val).step) : trainStep n.val l s = s := by
  unfold trainStep
  dsimp only
  rw [if_neg (by omega), if_neg (by omega), if_neg]
  rintro ⟨last, beat⟩
  rcases waits with ⟨-, silent⟩ | none | third | beyond
  · exact Bool.false_ne_true (silent.symm.trans beat)
  all_goals omega

/-- Step 1 again, before the retrain is counted (R325). -/
def retraining (n : Nat) (s : State) : State :=
  updPort n (fun p => { p with st := .training, step := 1, retrains := satInc p.retrains, countedStep1 := true, lanes := 0 }) s

theorem port_retraining (n : Nat) (s : State) : port (retraining n s) n =
    { port s n with st := .training, step := 1, retrains := satInc (port s n).retrains, countedStep1 := true, lanes := 0 } := port_updPort_same ..

theorem restartPort_counted (counted : (port s n.val).countedStep1 = true) : restartPort n.val s = retraining n.val s :=
  if_neg (by simp [counted])

theorem restartPort_counts (fresh : (port s n.val).countedStep1 = false) : restartPort n.val s = countRetrain (retraining n.val s) :=
  if_pos (by simp [fresh])

theorem countRetrain_few (few : (openCount s.aon.ticks s.aon.linkWin).count < 9 ∨ s.aon.oos = true) :
    countRetrain s = updAon (fun a => { a with linkWin := openCount a.ticks a.linkWin }) s := by
  refine if_neg ?_
  rintro ⟨many, serves⟩
  rcases few with few | out
  · exact absurd many (Nat.not_le.mpr few)
  · exact absurd serves (by simp [updAon, out])

theorem countRetrain_ninth (many : 9 ≤ (openCount s.aon.ticks s.aon.linkWin).count) (serves : s.aon.oos = false) :
    (countRetrain s).aon.oos = true := by
  refine (congrArg (fun u : State => u.aon.oos) (if_pos ⟨many, ?_⟩)).trans (oos_moduleOos _)
  simp [updAon, serves]

theorem hbSeq_sendHeartbeat (n : Nat) (s : State) : (port (sendHeartbeat n s) n).hbSeq = (port s n).hbSeq + 1 ∧ (port (sendHeartbeat n s) n).st = (port s n).st := by
  unfold sendHeartbeat queueFlits
  dsimp only
  generalize (msgFlits _ false).map _ = fs
  have same := runPort_same n n (updPort n (fun p => { p with tx := p.tx ++ fs }) (updPort n (fun p => { p with hbSeq := p.hbSeq + 1 }) s))
  rw [port_updPort_same, port_updPort_same] at same
  exact ⟨same.hbSeq, same.st⟩

end BringUp

/-- Settles O50: a port's fall leaves it DOWN whatever it cuts off; the steps of its bring-up are updates of the port. -/
theorem portStates : Obligations.PortStates := by
  unfold Obligations.PortStates
  refine ⟨fun s n trains first => ?_, fun s n l trains first fewer alone unparked requests => ?_, fun s n l trains second => ?_,
    fun s n l init fourth beat => ?_, fun s n l rests => onlyIf_false _ _ rests, fun s n l waits => onlyIf_of_same (trainStep_waits waits),
    fun s n trains alone unparked requests => ?_, fun s n rests => onlyIf_false _ _ rests, fun s n down enabled counted => ?_,
    fun s n down enabled fresh few => ?_, fun s n rests => ?_, fun s n down enabled fresh many serves => ?_, fun s n l trains first fewer => ?_,
    fun s n trains => ?_, fun s n up => ?_, fun s n beats => ?_, fun s n silent => onlyIf_false _ _ silent,
    fun s n up alone unparked requests => ?_, fun s n up alone unparked requests => ?_, fun s n other => ?_⟩
  · refine ⟨_, exec_portTrainStepDone 0xF trains, ?_⟩
    rw [trainStep, if_pos first, if_pos rfl, port_updPort_same, port_updPort_same]
  · let u := updPort n.val (fun p => { p with lanes := l }) s
    have cuts : NothingCutOff u := ⟨alone, unparked, requests⟩
    refine ⟨_, exec_portTrainStepDone l trains, ?_⟩
    rw [trainStep_fails first fewer]
    obtain ⟨st, step, tx, replay, loss⟩ := portDown_stops n.val 1 u
    obtain ⟨rx, credits, code⟩ := portDown_posts (n := n.val) 1 cuts
    have peer : (port u n.val).peer = (port s n.val).peer := by rw [port_updPort_same]
    rw [downCode, peer] at code
    exact ⟨st, step, tx, rx, replay, credits, loss, code⟩
  · refine ⟨_, exec_portTrainStepDone l trains, ?_⟩
    rw [trainStep, if_neg (by omega), if_pos second, sendInit, port_updPort_same, port_updPort_same]
    rfl
  · refine ⟨_, exec_portTrainStepDone l (by simp [bringingUp, init]), ?_⟩
    rw [trainStep, if_neg (by omega), if_neg (by omega), if_pos ⟨fourth, beat⟩]
    have same := runPort_same n.val n.val (updPort n.val (fun p => { p with st := .up, step := 0 }) s)
    rw [port_updPort_same] at same
    exact ⟨same.st, same.step, same.hbSeq, same.expSeq⟩
  · obtain ⟨st, step, tx, replay, loss⟩ := portDown_stops n.val 1 s
    obtain ⟨rx, credits, code⟩ := portDown_posts (n := n.val) 1 ⟨alone, unparked, requests⟩
    exact ⟨_, exec_portStepTimeout trains, st, step, tx, rx, replay, credits, loss, code⟩
  · refine ⟨_, exec_portRestart down enabled, ?_⟩
    rw [restartPort_counted counted]
    exact ⟨port_retraining .., rfl⟩
  · refine ⟨_, exec_portRestart down enabled, ?_⟩
    rw [restartPort_counts fresh, countRetrain_few (s := retraining n.val s) few]
    exact ⟨port_retraining .., rfl⟩
  · refine onlyIf_false _ _ ?_
    rcases rests with disabled | other
    · simp [disabled]
    · simp [other]
  · refine ⟨_, exec_portRestart down enabled, ?_⟩
    rw [restartPort_counts fresh]
    have trains := port_retraining n.val s
    have still := (stillPort_countRetrain (n := n.val) (retraining n.val s)).still (by rw [trains]; rfl)
    rw [still, trains]
    exact ⟨countRetrain_ninth many serves, rfl, rfl, rfl⟩
  · refine ⟨_, exec_portTrainStepDone l trains, ?_⟩
    rw [trainStep_fails first fewer]
    exact portDown_stops ..
  · exact ⟨_, exec_portStepTimeout trains, portDown_stops ..⟩
  · obtain ⟨lost, -, lostTx, lostReplay, lossTrue⟩ := portDown_stops n.val 3 s
    obtain ⟨unaligned, -, tx, replay, lossFalse⟩ := portDown_stops n.val 1 s
    exact ⟨_, _, exec_heartbeatLoss up, exec_alignmentLoss up, lossTrue, lossFalse, lost, lostTx, lostReplay, unaligned, tx, replay⟩
  · obtain ⟨seq, st⟩ := hbSeq_sendHeartbeat n.val s
    exact ⟨_, exec_heartbeatTimer beats, seq, st, rfl⟩
  · obtain ⟨st, step, tx, replay, loss⟩ := portDown_stops n.val 3 s
    obtain ⟨rx, credits, code⟩ := portDown_posts (n := n.val) 3 ⟨alone, unparked, requests⟩
    exact ⟨_, exec_heartbeatLoss up, st, step, tx, rx, replay, credits, loss, code⟩
  · obtain ⟨st, step, tx, replay, loss⟩ := portDown_stops n.val 1 s
    obtain ⟨rx, credits, code⟩ := portDown_posts (n := n.val) 1 ⟨alone, unparked, requests⟩
    exact ⟨_, exec_alignmentLoss up, st, step, tx, rx, replay, credits, loss, code⟩
  · exact ⟨onlyIf_false _ _ (by simp [other]), onlyIf_false _ _ (by simp [other])⟩

end Sys2Proof.Machine

/-! ### Flits that arrive (R325–R332, R336, R345) -/

namespace Sys2Proof.Machine

/-! #### What sending leaves of a port and of the inbox (R330) -/

/-- What sending flits and reserving response buffers leave of a port, its receiving side with it (R330, R331). -/
structure SendsOnly (p q : Port) : Prop extends SamePort p q where
  got : q.got = p.got
  rx : q.rx = p.rx

/-- From s to t messages are sent; of what has arrived nothing changes. -/
structure OnlySends (s t : State) : Prop where
  ports : ∀ n, SendsOnly (port s n) (port t n)
  inbox : t.icern.inbox = s.icern.inbox

theorem SendsOnly.refl (p : Port) : SendsOnly p p := ⟨.refl p, rfl, rfl⟩
theorem SendsOnly.trans {p q r : Port} (h : SendsOnly p q) (k : SendsOnly q r) : SendsOnly p r :=
  ⟨h.toSamePort.trans k.toSamePort, k.got.trans h.got, k.rx.trans h.rx⟩

theorem OnlySends.refl (s : State) : OnlySends s s := ⟨fun _ => .refl _, rfl⟩
theorem OnlySends.trans {s t u : State} (h : OnlySends s t) (k : OnlySends t u) : OnlySends s u :=
  ⟨fun n => (h.ports n).trans (k.ports n), k.inbox.trans h.inbox⟩

theorem sendsOnly_settleOwed (p : Port) : SendsOnly p (settleOwed p) := by
  refine ⟨settleOwed_same p, ?_, ?_⟩ <;> (unfold settleOwed; split <;> rfl)

theorem sendsOnly_putFlit (k : FlitKind) (f : Flit) (p : Port) : SendsOnly p (putFlit k f p) :=
  ⟨putFlit_same k f p, (sendsOnly_settleOwed p).got, (sendsOnly_settleOwed p).rx⟩

theorem sendsOnly_sendData (t : TxFlit) (p : Port) : SendsOnly p (sendData t p) := by
  have put := sendsOnly_putFlit .data { t.flit with seq := p.nextSeq } (putCredit { creditOf p t.flit.vc.val t.flit.cls with
    have_ := (creditOf p t.flit.vc.val t.flit.cls).have_ - 1 } p)
  exact ⟨sendData_same t p, put.got, put.rx⟩

theorem sendsOnly_transmit (k : Nat) (p : Port) : SendsOnly p (transmit k p) := by
  induction k generalizing p with
  | zero => exact .refl p
  | succ k ih =>
    unfold transmit
    split
    · exact .refl p
    · split
      · next f l _ =>
        have again : SendsOnly p { p with resend := l, line := p.line ++ [(.data, f)] } := ⟨⟨rfl, rfl, rfl, rfl, rfl, rfl, rfl, rfl, rfl, rfl, rfl, rfl, rfl⟩, rfl, rfl⟩
        exact again.trans (ih _)
      · split
        · exact (sendsOnly_sendData _ _).trans (ih _)
        · split
          · exact (sendsOnly_putFlit _ _ _).trans (ih _)
          · exact .refl p

theorem onlySends_updPort {f : Port → Port} {n : Nat} {s : State} (sends : SendsOnly (port s n) (f (port s n))) : OnlySends s (updPort n f s) := by
  refine ⟨fun m => ?_, rfl⟩
  by_cases same : m = n
  · rw [same, port_updPort_same]
    exact sends
  · rw [port_updPort_other _ _ same]
    exact .refl _

theorem sendsOnly_owe (v : Nat) (c : Bool) (p : Port) : SendsOnly p (owe v c p) := ⟨owe_same v c p, rfl, rfl⟩

theorem onlySends_foldl {α : Type} {g : State → α → State} (each : ∀ s a, OnlySends s (g s a)) (l : List α) (s : State) : OnlySends s (l.foldl g s) := by
  induction l generalizing s with
  | nil => exact .refl s
  | cons a l ih => exact (each s a).trans (ih _)

theorem onlySends_runPort (n : Nat) (s : State) : OnlySends s (runPort n s) := by
  have sent := sendsOnly_transmit (lineRoom (port s n)) (port s n)
  refine OnlySends.trans (t := updPort n (fun _ => { transmit (lineRoom (port s n)) (port s n) with passed := [] }) s) (onlySends_updPort ?_)
    (onlySends_foldl (fun u a => onlySends_updPort (sendsOnly_owe ..)) _ _)
  exact ⟨sent.toSamePort.trans ⟨rfl, rfl, rfl, rfl, rfl, rfl, rfl, rfl, rfl, rfl, rfl, rfl, rfl⟩, sent.got, sent.rx⟩

theorem onlySends_queueFlits (n : Nat) (ts : List TxFlit) (s : State) : OnlySends s (queueFlits n ts s) :=
  (onlySends_updPort ⟨⟨rfl, rfl, rfl, rfl, rfl, rfl, rfl, rfl, rfl, rfl, rfl, rfl, rfl⟩, rfl, rfl⟩).trans (onlySends_runPort ..)

theorem onlySends_of_ports {s t : State} (ports : t.icern.ports = s.icern.ports) (inbox : t.icern.inbox = s.icern.inbox) : OnlySends s t :=
  ⟨fun n => by rw [port, port, ports]; exact .refl _, inbox⟩

theorem onlySends_discard (cause k module : Nat) (s : State) : OnlySends s (discard cause k module s) := by
  have posted : (discard cause k module s).icern = { s.icern with ttlDrops := s.icern.ttlDrops + 1 } := postFault_icern ..
  exact onlySends_of_ports (by rw [posted]) (by rw [posted])

theorem onlySends_sendMsg (m : Msg) (s : State) : OnlySends s (sendMsg m s) := by
  unfold sendMsg sendClass
  split
  · exact onlySends_discard ..
  · split
    · exact onlySends_queueFlits ..
    · exact onlySends_discard ..

theorem onlySends_pumpOver (l barred : List (Msg × Nat)) (s : State) : OnlySends s (pumpOver l barred s) := by
  induction l generalizing barred s with
  | nil => exact .refl s
  | cons a l ih =>
    obtain ⟨m, k⟩ := a
    have taken : OnlySends s (updIcern (fun i => { i with requests := removeFirst (m, k) i.requests }) s) := onlySends_of_ports rfl rfl
    unfold pumpOver
    dsimp only
    split
    · exact (taken.trans (onlySends_sendMsg m _)).trans (ih ..)
    · split
      · exact ih ..
      · split
        · exact ih ..
        · exact ((taken.trans (onlySends_updPort ⟨⟨rfl, rfl, rfl, rfl, rfl, rfl, rfl, rfl, rfl, rfl, rfl, rfl, rfl⟩, rfl, rfl⟩)).trans
            (onlySends_sendMsg m _)).trans (ih ..)

/-- What a port does after each flit it takes: it sends what it may, and the requests that wait are sent on (R330, R331). -/
theorem onlySends_afterFlit (n : Nat) (s : State) : OnlySends s (pumpRequests (runPort n s)) := (onlySends_runPort n s).trans (onlySends_pumpOver _ _ _)

end Sys2Proof.Machine

/-! ### What becomes of each flit (R325–R330, R332, R336, R345) -/

namespace Sys2Proof.Machine

section FlitRows

variable {n : Nat} {f : Flit} {s u : State}

/-! #### ACK and credits (R329, R330) -/

theorem closeReplay_rest (p : Port) : closeReplay p = { p with resv := (closeReplay p).resv } := by
  unfold closeReplay
  split <;> rfl

/-- An ACK bears on what is kept for replay, on what is to be resent and on reservations, nothing more (R329). -/
theorem takeAck_rest (f : Flit) (p : Port) : takeAck f p =
    { p with replay := (takeAck f p).replay, resend := (takeAck f p).resend, replayRun := (takeAck f p).replayRun, resv := (takeAck f p).resv } := by
  unfold takeAck
  split
  · dsimp only
    rw [closeReplay_rest]
  · rfl

theorem takeAck_replay (f : Flit) (p : Port) : (takeAck f p).replay =
    if f.ackValid = true ∧ (∃ g ∈ p.replay, g.seq = f.ack) then (p.replay.dropWhile (·.seq != f.ack)).drop 1 else p.replay := by
  have named : (f.ackValid && p.replay.any (·.seq == f.ack)) = true ↔ f.ackValid = true ∧ ∃ g ∈ p.replay, g.seq = f.ack := by simp
  unfold takeAck
  by_cases covers : f.ackValid = true ∧ ∃ g ∈ p.replay, g.seq = f.ack
  · rw [if_pos (named.mpr covers), if_pos covers]
    dsimp only
    rw [closeReplay_rest]
  · rw [if_neg fun yes => covers (named.mp yes), if_neg covers]

theorem creditOf_names (p : Port) (v : Nat) (c : Bool) : (creditOf p v c).vc = v ∧ (v = 2 ∨ (creditOf p v c).cls = c) := by
  unfold creditOf
  cases found : p.credits.find? fun x => x.vc == v && (v == 2 || x.cls == c) with
  | none => exact ⟨rfl, .inr rfl⟩
  | some x => simpa using List.find?_some found

theorem creditOf_putCredit {c : Credit} {v : Nat} {cls : Bool} (p : Port) (vc : c.vc = v) (class_ : v = 2 ∨ c.cls = cls) : creditOf (putCredit c p) v cls = c := by
  have found : (c.vc == v && (v == 2 || c.cls == cls)) = true := by simpa [vc] using class_
  have first : (putCredit c p).credits.find? (fun x => x.vc == v && (v == 2 || x.cls == cls)) = some c := List.find?_cons_of_pos found
  rw [creditOf, first]
  rfl

/-- The credits that a flit returns stand in the entry they name (R330). -/
theorem creditOf_takeCredits (f : Flit) (p : Port) :
    (creditOf (takeCredits f p) f.crVc.val f.crCls).have_ = (creditOf p f.crVc.val f.crCls).have_ + f.crCnt := by
  obtain ⟨vc, class_⟩ := creditOf_names p f.crVc.val f.crCls
  exact congrArg Credit.have_ (creditOf_putCredit (c := { creditOf p f.crVc.val f.crCls with
    have_ := (creditOf p f.crVc.val f.crCls).have_ + f.crCnt }) p vc class_)

/-- ACK and credits of a flit taken. -/
def ackTaken (n : Nat) (f : Flit) (s : State) : State := updPort n (fun p => takeCredits f (takeAck f p)) s

/-- The flit expected: its ACK and credits taken, the next one expected (R329). -/
def inOrder (n : Nat) (f : Flit) (s : State) : State :=
  updPort n (fun p => { p with expSeq := p.expSeq + 1, got := true, replayDue := false }) (ackTaken n f s)

/-- What a flit in order leaves of its port: its state, what it was receiving, whether a HEARTBEAT came (R329). -/
theorem port_inOrder (n : Nat) (f : Flit) (s : State) : (port (inOrder n f s) n).st = (port s n).st ∧ (port (inOrder n f s) n).rx = (port s n).rx ∧
    (port (inOrder n f s) n).beat = (port s n).beat ∧ (port (inOrder n f s) n).expSeq = (port s n).expSeq + 1 ∧
    (port (inOrder n f s) n).got = true ∧ (port (inOrder n f s) n).replayDue = false := by
  unfold inOrder ackTaken
  rw [port_updPort_same, port_updPort_same, takeAck_rest]
  exact ⟨rfl, rfl, rfl, rfl, rfl, rfl⟩

theorem rx_inOrder (n : Nat) (f : Flit) (s : State) : (port (inOrder n f s) n).rx = (port s n).rx := by
  obtain ⟨-, rx, -⟩ := port_inOrder n f s
  exact rx

theorem expSeq_inOrder (n : Nat) (f : Flit) (s : State) : (port (inOrder n f s) n).expSeq = (port s n).expSeq + 1 := by
  obtain ⟨-, -, -, expSeq, -⟩ := port_inOrder n f s
  exact expSeq

theorem st_inOrder (n : Nat) (f : Flit) (s : State) (m : Nat) : (port (inOrder n f s) m).st = (port s m).st := by
  by_cases same : m = n
  · rw [same, (port_inOrder n f s).1]
  · unfold inOrder ackTaken
    rw [port_updPort_other _ _ same, port_updPort_other _ _ same]

theorem exec_flitData_inOrder {n : Fin 4} (takes : beating (port s n.val) = true) (expected : f.seq = (port s n.val).expSeq) :
    exec (.flitData n f) s = .next (pumpRequests (runPort n.val (routeFlit n.val f (inOrder n.val f s)))) :=
  (onlyIf_true _ _ takes).trans (congrArg Host.Outcome.next (if_pos expected))

/-! #### Where a flit goes (R336) -/

/-- Where the flit's message goes: that of a first flit is decided now, that of another was when its first one came (R336). -/
def flitRoute (n : Nat) (f : Flit) (s : State) : State × RxMsg :=
  if f.first then startRx n f s else (s, (tget (port s n).rx f.vc.val).getD .drop)

/-- What a port is receiving on the flit's VC after the flit. -/
def keepRx (n : Nat) (f : Flit) (r : RxMsg) (s : State) : State :=
  updPort n (fun p => { p with rx := if f.last then tdel p.rx f.vc.val else tset p.rx f.vc.val r }) s

/-- A flit of a message for this module, its buffer returned where it is consumed at once, the reservation of a response used (R330, R331). -/
def takeOwn (n : Nat) (f : Flit) (bs : List Byte) (s : State) : State :=
  let s := keepRx n f (.own (bs ++ f.body)) s
  let s := if f.vc.val = 1 ∨ f.vc.val = 2 then updPort n (owe f.vc.val f.cls) s else s
  if f.vc = 1 then takeResponse (readMsg (bs ++ f.body)) f.last s else s

theorem routeFlit_own {bs : List Byte} (own : flitRoute n f s = (u, .own bs)) : routeFlit n f s =
    if f.last then deliver n (buffered n f (bs ++ f.body).length (readMsg (bs ++ f.body))) (takeOwn n f bs u) else takeOwn n f bs u := by
  unfold routeFlit
  dsimp only
  rw [flitRoute] at own
  rw [own]
  rfl

theorem routeFlit_pass {o : Nat} {c : Bool} (passes : flitRoute n f s = (u, .pass o c)) : routeFlit n f s =
    queueFlits o [{ flit := { f with cls := c, body := if f.first then passHeader u (readMsg f.body) f.body else f.body }, from_ := some (n, f.cls) }]
      (keepRx n f (.pass o c) u) := by
  unfold routeFlit
  dsimp only
  rw [flitRoute] at passes
  rw [passes]
  rfl

theorem routeFlit_drop (drops : flitRoute n f s = (u, .drop)) : routeFlit n f s = updPort n (owe f.vc.val f.cls) (keepRx n f .drop u) := by
  unfold routeFlit
  dsimp only
  rw [flitRoute] at drops
  rw [drops]
  rfl

theorem startRx_own (own : (readMsg f.body).dst = s.aon.modid ∨ (readMsg f.body).type = 7) : startRx n f s = (s, .own []) := if_pos own

section Transit

variable (away : (readMsg f.body).dst ≠ s.aon.modid) (other : (readMsg f.body).type ≠ 7)
include away other

theorem startRx_spent (spent : (readMsg f.body).ttl ≤ 1) : startRx n f s = (discard 4 n (readMsg f.body).dst s, .drop) :=
  (if_neg (not_or.mpr ⟨away, other⟩)).trans (if_pos spent)

theorem startRx_lost (live : 1 < (readMsg f.body).ttl) (lost : ∀ o, routeOf s (readMsg f.body).dst = some o → (port s o).st ≠ .up) :
    startRx n f s = (discard 5 ((routeOf s (readMsg f.body).dst).getD 0) (readMsg f.body).dst s, .drop) := by
  refine (if_neg (not_or.mpr ⟨away, other⟩)).trans ((if_neg (Nat.not_le.mpr live)).trans ?_)
  cases route : routeOf s (readMsg f.body).dst with
  | none => rfl
  | some o => exact if_neg (lost o route)

theorem startRx_passes {o : Nat} (live : 1 < (readMsg f.body).ttl) (route : routeOf s (readMsg f.body).dst = some o) (up : (port s o).st = .up) :
    startRx n f s = (s, .pass o (passClass s n o f.cls)) := by
  refine (if_neg (not_or.mpr ⟨away, other⟩)).trans ((if_neg (Nat.not_le.mpr live)).trans ?_)
  rw [route]
  exact if_pos up

end Transit

theorem flitRoute_first (first : f.first = true) : flitRoute n f s = startRx n f s := if_pos first

theorem flitRoute_later {r : RxMsg} (later : f.first = false) (held : (tget (port s n).rx f.vc.val).getD .drop = r) : flitRoute n f s = (s, r) :=
  (if_neg (by simp [later])).trans (congrArg (Prod.mk s) held)

/-! #### Messages for this module (R330, R334) -/

theorem port_keepRx (n : Nat) (f : Flit) (r : RxMsg) (s : State) : port (keepRx n f r s) n =
    { port s n with rx := if f.last then tdel (port s n).rx f.vc.val else tset (port s n).rx f.vc.val r } := port_updPort_same ..

theorem onlySends_takeResponse (m : Msg) (last : Bool) (s : State) : OnlySends s (takeResponse m last s) := by
  refine ⟨fun k => ?_, rfl⟩
  show SendsOnly (tgetD s.icern.ports k {}) (tgetD (tmap (fun _ (p : Port) => { p with resv := useResv m last p.resv }) s.icern.ports) k {})
  rw [tgetD, tgetD, tget_tmap]
  cases tget s.icern.ports k with
  | none => exact .refl _
  | some p => exact ⟨⟨rfl, rfl, rfl, rfl, rfl, rfl, rfl, rfl, rfl, rfl, rfl, rfl, rfl⟩, rfl, rfl⟩

/-- Beyond what the port is receiving, a flit of this module's message changes credits and reservations. -/
theorem onlySends_takeOwn (n : Nat) (f : Flit) (bs : List Byte) (s : State) : OnlySends (keepRx n f (.own (bs ++ f.body)) s) (takeOwn n f bs s) := by
  have consumed : OnlySends (keepRx n f (.own (bs ++ f.body)) s)
      (if f.vc.val = 1 ∨ f.vc.val = 2 then updPort n (owe f.vc.val f.cls) (keepRx n f (.own (bs ++ f.body)) s) else keepRx n f (.own (bs ++ f.body)) s) := by
    split
    · exact onlySends_updPort (sendsOnly_owe ..)
    · exact .refl _
  unfold takeOwn
  dsimp only
  split
  · exact consumed.trans (onlySends_takeResponse ..)
  · exact consumed

theorem deliver_listed (n : Nat) (m : Msg) (s : State) : m ∈ (deliver n m s).icern.inbox := by
  simp [deliver, updIcern]

/-- A whole HEARTBEAT is noted at its port; of another message the port keeps nothing (R326). -/
theorem port_deliver (n : Nat) (m : Msg) (s : State) : port (deliver n m s) n = { port s n with beat := (port s n).beat || m.type == 7 } := by
  unfold deliver
  dsimp only
  split
  · next heartbeat =>
    refine (port_updPort_same n (fun p => { p with beat := true }) s).trans ?_
    simp [heartbeat]
  · next other =>
    have unnoted : ((port s n).beat || m.type == 7) = (port s n).beat := by rw [beq_false_of_ne other, Bool.or_false]
    rw [unnoted]
    rfl

theorem buffered_bytes (n : Nat) (f : Flit) (bytes : Nat) (bs : List Byte) : { buffered n f bytes (readMsg bs) with bufs := none } = readMsg bs := by
  unfold buffered
  split <;> rfl

theorem buffered_type (n : Nat) (f : Flit) (bytes : Nat) (m : Msg) : (buffered n f bytes m).type = m.type := by
  unfold buffered
  split <;> rfl

end FlitRows

end Sys2Proof.Machine

/-! ### The rows of the flits (R325–R330, R336, R345) -/

namespace Sys2Proof.Machine

section TakenFlits

variable {n : Nat} {f : Flit} {s u : State}

/-! #### Messages for this module -/

/-- What a flit of a message for this module leaves: its port as it was but for what it is receiving and a HEARTBEAT noted, the message in the
inbox once it is whole (R330, R334). -/
structure OwnTaken (n : Nat) (f : Flit) (bs : List Byte) (s t : State) : Prop where
  expSeq : (port t n).expSeq = (port s n).expSeq
  st : (port t n).st = (port s n).st
  got : (port t n).got = (port s n).got
  replayDue : (port t n).replayDue = (port s n).replayDue
  beat : f.last = true → (port t n).beat = ((port s n).beat || (readMsg (bs ++ f.body)).type == 7)
  whole : f.last = true → ∃ m ∈ t.icern.inbox, { m with bufs := none } = readMsg (bs ++ f.body)
  part : f.last = false → tget (port t n).rx f.vc.val = some (.own (bs ++ f.body)) ∧ t.icern.inbox = s.icern.inbox

theorem OwnTaken.sends {bs : List Byte} {t v : State} (taken : OwnTaken n f bs s t) (sends : OnlySends t v) : OwnTaken n f bs s v where
  expSeq := (sends.ports n).expSeq.trans taken.expSeq
  st := (sends.ports n).st.trans taken.st
  got := (sends.ports n).got.trans taken.got
  replayDue := (sends.ports n).replayDue.trans taken.replayDue
  beat last := (sends.ports n).beat.trans (taken.beat last)
  whole last := by rw [sends.inbox]; exact taken.whole last
  part more := by rw [(sends.ports n).rx, sends.inbox]; exact taken.part more

theorem routeFlit_takes {bs : List Byte} (own : flitRoute n f s = (s, .own bs)) : OwnTaken n f bs s (routeFlit n f s) := by
  have sends := onlySends_takeOwn n f bs s
  have kept := sends.ports n
  rw [port_keepRx] at kept
  rw [routeFlit_own own]
  cases last : f.last with
  | true =>
    have delivers := port_deliver n (buffered n f (bs ++ f.body).length (readMsg (bs ++ f.body))) (takeOwn n f bs s)
    rw [buffered_type] at delivers
    rw [if_pos rfl]
    refine ⟨?_, ?_, ?_, ?_, fun _ => ?_, fun _ => ⟨_, deliver_listed .., buffered_bytes ..⟩, fun more => absurd (last.symm.trans more) (by decide)⟩ <;> rw [delivers]
    · exact kept.expSeq
    · exact kept.st
    · exact kept.got
    · exact kept.replayDue
    · exact congrArg (· || (readMsg (bs ++ f.body)).type == 7) kept.beat
  | false =>
    refine ⟨kept.expSeq, kept.st, kept.got, kept.replayDue, fun ends => absurd (last.symm.trans ends) (by decide), fun ends => absurd (last.symm.trans ends) (by decide), fun _ => ⟨?_, sends.inbox⟩⟩
    refine (congrArg (fun l => tget l f.vc.val) kept.rx).trans ?_
    simp [last]

/-- A flit in order of a message for this module. -/
theorem flitData_takes {n : Fin 4} {bs : List Byte} (takes : beating (port s n.val) = true) (expected : f.seq = (port s n.val).expSeq)
    (own : (f.first = false ∧ tget (port s n.val).rx f.vc.val = some (.own bs)) ∨
      (f.first = true ∧ ((readMsg f.body).dst = s.aon.modid ∨ (readMsg f.body).type = 7) ∧ bs = [])) :
    ∃ t, exec (.flitData n f) s = .next t ∧ OwnTaken n.val f bs (inOrder n.val f s) t := by
  refine ⟨_, exec_flitData_inOrder takes expected, (routeFlit_takes ?_).sends (onlySends_afterFlit ..)⟩
  have rx := rx_inOrder n.val f s
  rcases own with ⟨later, held⟩ | ⟨first, here, rfl⟩
  · exact flitRoute_later later (by rw [rx, held]; rfl)
  · rw [flitRoute_first first]
    exact startRx_own here

/-! #### REPLAY (R329) -/

/-- REPLAY sent, or due where one was sent less than 2 µs ago (R329). -/
theorem port_sendReplay (n : Nat) (s : State) : port (sendReplay n s) n =
    if (port s n).replayAt.all (fun t => decide ((s.aon.ticks - t).toNat ≥ 13)) then
      { putFlit .replay (bareFlit (leBytes 2 (port s n).expSeq.toNat)) (port s n) with replayAt := some s.aon.ticks, replayDue := false }
    else { port s n with replayDue := true } := by
  unfold sendReplay
  split
  · exact port_updPort_same ..
  · exact port_updPort_same ..

theorem inbox_sendReplay (n : Nat) (s : State) : (sendReplay n s).icern.inbox = s.icern.inbox := by
  unfold sendReplay
  split <;> rfl

theorem expSeq_sendReplay (n : Nat) (s : State) : (port (sendReplay n s) n).expSeq = (port s n).expSeq := by
  rw [port_sendReplay]
  split
  · exact (putFlit_same .replay (bareFlit (leBytes 2 (port s n).expSeq.toNat)) (port s n)).expSeq
  · rfl

/-- The port's record of the REPLAY flits that it gets, and what it resends (R329). -/
def replayed (f : Flit) (q : Port) : Port :=
  { q with replays := satInc q.replays, replayRun := if q.lastReplay = some (wantedOf f) then q.replayRun + 1 else 1, lastReplay := some (wantedOf f)
           resend := q.replay.dropWhile (·.seq != wantedOf f) }

/-- The state with the REPLAY flit taken, before anything is resent. -/
def replayTaken (n : Nat) (f : Flit) (s : State) : State := updPort n (fun p => replayed f (takeCredits f (takeAck f p))) s

theorem port_replayTaken (n : Nat) (f : Flit) (s : State) : port (replayTaken n f s) n = replayed f (takeCredits f (takeAck f (port s n))) :=
  port_updPort_same ..

theorem takeReplay_eq (n : Nat) (f : Flit) (s : State) : takeReplay n f s =
    if (port (replayTaken n f s) n).replayRun ≥ 8 ∧ (port (replayTaken n f s) n).st = .up then portDown n 1 (replayTaken n f s)
    else pumpRequests (runPort n (replayTaken n f s)) := rfl

theorem st_replayTaken (n : Nat) (f : Flit) (s : State) : (port (replayTaken n f s) n).st = (port s n).st := by
  rw [port_replayTaken, takeAck_rest]
  rfl

theorem peer_replayTaken (n : Nat) (f : Flit) (s : State) : (port (replayTaken n f s) n).peer = (port s n).peer := by
  rw [port_replayTaken, takeAck_rest]
  rfl

/-- The eighth REPLAY in succession for one number takes the port DOWN (R326). -/
theorem takeReplay_eighth {q : Port} (up : (port s n).st = .up) (taken : takeCredits f (takeAck f (port s n)) = q)
    (again : q.lastReplay = some (wantedOf f)) (seven : q.replayRun ≥ 7) : takeReplay n f s = portDown n 1 (replayTaken n f s) := by
  rw [takeReplay_eq, if_pos]
  refine ⟨?_, (st_replayTaken n f s).trans up⟩
  rw [port_replayTaken, taken, replayed]
  simp [again, seven]

theorem takeReplay_resends {q : Port} (taken : takeCredits f (takeAck f (port s n)) = q)
    (bears : q.lastReplay ≠ some (wantedOf f) ∨ q.replayRun < 7 ∨ (port s n).st ≠ .up) : takeReplay n f s = pumpRequests (runPort n (replayTaken n f s)) := by
  rw [takeReplay_eq, if_neg]
  rintro ⟨eight, up⟩
  rw [st_replayTaken] at up
  rw [port_replayTaken, taken, replayed] at eight
  dsimp only at eight
  split at eight
  · next again =>
    rcases bears with other | few | down
    · exact other again
    · omega
    · exact down up
  · omega

theorem exec_flitReplay {n : Fin 4} (takes : beating (port s n.val) = true) : exec (.flitReplay n f) s = .next (takeReplay n.val f s) := onlyIf_true _ _ takes

theorem beating_of_up (up : (port s n).st = .up) : beating (port s n) = true := by simp [beating, up]

/-! #### INIT (R325, R328) -/

/-- The peer that INIT names, and whether it is another than the one expected (R325, R345). -/
def initTaken (n peer : Nat) (bad : Bool) (s : State) : State := updPort n (fun p => { p with peer := peer % 64, mismatch := bad }) s

theorem port_initTaken (n peer : Nat) (bad : Bool) (s : State) : port (initTaken n peer bad s) n = { port s n with peer := peer % 64, mismatch := bad } :=
  port_updPort_same ..

variable {n : Fin 4} {peer e : Nat} {cs : List Nat}

theorem exec_flitInit (init : (port s n.val).st = .init) (third : (port s n.val).step = 3) : exec (.flitInit n peer e cs) s = .next (takeInit n.val peer cs s) :=
  onlyIf_true _ _ (by simp [init, third])

/-- The peer expected gives its credits, and the port its first flits (R328). -/
def initCredited (n peer : Nat) (cs : List Nat) (s : State) : State :=
  updPort n (fun p => aimBeats peer { p with step := 4, credits := initCredits cs }) (initTaken n peer false s)

theorem takeInit_expected (named : lget s.aon.peers n.val 0xFF = 0xFF ∨ lget s.aon.peers n.val 0xFF = peer) :
    takeInit n.val peer cs s = runPort n.val (initCredited n.val peer cs s) := by
  have good : (lget s.aon.peers n.val 0xFF != 0xFF && lget s.aon.peers n.val 0xFF != peer) = false := by
    rcases named with any | this <;> simp [*]
  unfold takeInit
  dsimp only
  rw [good]
  rfl

theorem takeInit_other (wants : lget s.aon.peers n.val 0xFF ≠ 0xFF) (other : lget s.aon.peers n.val 0xFF ≠ peer) :
    takeInit n.val peer cs s = portDown n.val 2 (initTaken n.val peer true s) := by
  have bad : (lget s.aon.peers n.val 0xFF != 0xFF && lget s.aon.peers n.val 0xFF != peer) = true := by simp [wants, other]
  unfold takeInit
  dsimp only
  rw [bad]
  rfl

theorem port_initCredited : port (initCredited n.val peer cs s) n.val =
    aimBeats peer { port s n.val with peer := peer % 64, mismatch := false, step := 4, credits := initCredits cs } := by
  unfold initCredited
  rw [port_updPort_same, port_initTaken]

end TakenFlits

end Sys2Proof.Machine

/-! ### What arrives at an Icern port (R325–R332, R336, R345) -/

namespace Sys2Proof.Machine

section Arrivals

variable {n : Fin 4} {f : Flit} {s : State}

/-- A flit in order that goes nowhere: its buffer is free, nothing of it is kept; u is the state in which its route was judged (R336). -/
theorem flitData_drops {u : State} (takes : beating (port s n.val) = true) (expected : f.seq = (port s n.val).expSeq)
    (drops : flitRoute n.val f (inOrder n.val f s) = (u, .drop)) :
    exec (.flitData n f) s = .next (pumpRequests (runPort n.val (updPort n.val (owe f.vc.val f.cls) (keepRx n.val f .drop u)))) := by
  rw [exec_flitData_inOrder takes expected, routeFlit_drop drops]

theorem icern_discard (cause k module : Nat) (s : State) : (discard cause k module s).icern = { s.icern with ttlDrops := s.icern.ttlDrops + 1 } :=
  postFault_icern ..

theorem head_codes_discard (cause k module : Nat) (s : State) : (discard cause k module s).aon.codes.head? = some (routerFault cause k module) :=
  head_codes_postFault ..

theorem reset_initTaken_alone {peer : Nat} {bad : Bool} (cuts : NothingCutOff s) : NothingCutOff (initTaken n.val peer bad s) :=
  ⟨cuts.alone, cuts.unparked, cuts.requests⟩

theorem aimBeats_of_empty {peer : Nat} {p : Port} (tx : p.tx = []) : aimBeats peer p = p := by
  cases p
  subst tx
  rfl

/-- A first flit whose route is judged bad is discarded, counted and posted (R336, R345). -/
theorem flitData_discards {cause k module : Nat} (takes : beating (port s n.val) = true) (expected : f.seq = (port s n.val).expSeq)
    (drops : flitRoute n.val f (inOrder n.val f s) = (discard cause k module (inOrder n.val f s), .drop)) :
    ∃ u, exec (.flitData n f) s = .next (pumpRequests (runPort n.val u)) ∧ u.icern.inbox = s.icern.inbox ∧
      u.icern.ttlDrops = s.icern.ttlDrops + 1 ∧ u.aon.codes.head? = some (routerFault cause k module) := by
  have posted := icern_discard cause k module (inOrder n.val f s)
  have code := head_codes_discard cause k module (inOrder n.val f s)
  have steps := flitData_drops takes expected drops
  generalize discard cause k module (inOrder n.val f s) = u at posted code steps
  refine ⟨_, steps, ?_, ?_, code⟩
  · show u.icern.inbox = s.icern.inbox
    rw [posted]
    rfl
  · show u.icern.ttlDrops = s.icern.ttlDrops + 1
    rw [posted]
    rfl

/-- A flit whose INIT finds nothing to send leaves its port with the peer, its credits and the next step (R328). -/
theorem port_takeInit_idle {peer : Nat} {cs : List Nat} (named : lget s.aon.peers n.val 0xFF = 0xFF ∨ lget s.aon.peers n.val 0xFF = peer)
    (tx : (port s n.val).tx = []) (passed : (port s n.val).passed = []) (resend : (port s n.val).resend = []) (got : (port s n.val).got = false) :
    port (takeInit n.val peer cs s) n.val =
      { port s n.val with peer := peer % 64, mismatch := false, step := 4, credits := initCredits cs } := by
  have aimed : aimBeats peer { port s n.val with peer := peer % 64, mismatch := false, step := 4, credits := initCredits cs } =
      { port s n.val with peer := peer % 64, mismatch := false, step := 4, credits := initCredits cs } := aimBeats_of_empty tx
  rw [takeInit_expected named, runPort_quiet, port_initCredited, aimed]
  · rw [port_initCredited, aimed]
    refine .inr ⟨resend, tx, ?_⟩
    simp [nullDue, initCredits, got]
  · rw [port_initCredited, aimed]
    exact passed

/-- A port that counts a flit discarded for its CRC or its codewords. -/
def countBad (fec : Bool) (p : Port) : Port := if fec then { p with fecUncorr := satInc p.fecUncorr } else { p with crcErr := satInc p.crcErr }

theorem exec_flitCrcError (fec : Bool) (takes : beating (port s n.val) = true) :
    exec (.flitCrcError n fec) s = .next (sendReplay n.val (updPort n.val (countBad fec) s)) :=
  congrArg Host.Outcome.next (if_pos takes)

end Arrivals

/-- Settles O51: what a flit in order does follows from where its message goes; REPLAY and INIT from what the port then holds. -/
theorem flits : Obligations.Flits := by
  unfold Obligations.Flits
  refine ⟨fun s n f takes expected first last here => ?_, fun s n f takes unexpected => ?_, fun s n f idle => ?_, fun s n f takes => ?_,
    fun s n f bs takes expected own => ?_, fun s n f takes expected first away other spent => ?_,
    fun s n f takes expected first away other live lost => ?_, fun s n f o takes expected first away other live route up => ?_,
    fun s n f q takes taken bears => ?_, fun s n f q up taken again seven alone unparked requests => ?_,
    fun s n peer e cs init third named tx passed resend got => ?_, fun s n peer e cs init third named => ?_,
    fun s n peer e cs init third wants other alone unparked requests => ?_, fun s n fec q takes counted => ?_,
    fun s n f q up taken again seven => ?_, fun s n f fec idle => ?_, fun s n peer e cs outside => ?_,
    fun s n peer e cs init third wants other => ?_, fun s n f o c takes expected later passes => ?_, fun s n f takes expected later drops => ?_⟩
  · obtain ⟨t, steps, taken⟩ := flitData_takes takes expected (.inr ⟨first, .inl here, rfl⟩)
    obtain ⟨st, rx, beat, expSeq, got, due⟩ := port_inOrder n.val f s
    exact ⟨t, steps, taken.whole last, taken.got.trans got, taken.expSeq.trans expSeq, taken.replayDue.trans due,
      (taken.beat last).trans (by rw [beat]; rfl), taken.st.trans st⟩
  · have steps : exec (.flitData n f) s = .next (sendReplay n.val s) :=
      (onlyIf_true _ _ takes).trans (congrArg Host.Outcome.next (if_neg unexpected))
    exact ⟨_, steps, inbox_sendReplay .., expSeq_sendReplay .., port_sendReplay ..⟩
  · exact ⟨onlyIf_false _ _ idle, congrArg Host.Outcome.next (if_neg (by simp [idle]))⟩
  · refine ⟨ackTaken n.val f s, congrArg Host.Outcome.next (if_pos takes), ?_, ?_, ?_, rfl, rfl⟩
    · rw [ackTaken, port_updPort_same, creditOf_takeCredits, takeAck_rest]
      rfl
    · rw [ackTaken, port_updPort_same]
      exact takeAck_replay ..
    · rw [ackTaken, port_updPort_same, takeAck_rest]
      rfl
  · obtain ⟨t, steps, taken⟩ := flitData_takes takes expected own
    obtain ⟨st, rx, beat, expSeq, got, due⟩ := port_inOrder n.val f s
    exact ⟨t, steps, taken.expSeq.trans expSeq, taken.whole, taken.part⟩
  · exact flitData_discards takes expected ((flitRoute_first first).trans (startRx_spent (s := inOrder n.val f s) away other spent))
  · have lostNow : ∀ o, routeOf (inOrder n.val f s) (readMsg f.body).dst = some o → (port (inOrder n.val f s) o).st ≠ .up := fun o route => by
      rw [st_inOrder]
      exact lost o route
    exact flitData_discards takes expected ((flitRoute_first first).trans (startRx_lost (s := inOrder n.val f s) away other live lostNow))
  · have routed : routeOf (inOrder n.val f s) (readMsg f.body).dst = some o := route
    have passes : flitRoute n.val f (inOrder n.val f s) = (inOrder n.val f s, .pass o (passClass (inOrder n.val f s) n.val o f.cls)) :=
      (flitRoute_first first).trans (startRx_passes (s := inOrder n.val f s) away other live routed ((st_inOrder n.val f s o).trans up))
    refine ⟨keepRx n.val f (.pass o (passClass s n.val o f.cls)) (inOrder n.val f s), ?_, rfl, rfl, ?_⟩
    · rw [exec_flitData_inOrder takes expected, routeFlit_pass passes, if_pos first]
      rfl
    · rw [port_keepRx]
      exact expSeq_inOrder n.val f s
  · refine ⟨replayTaken n.val f s, ?_, rfl, ?_⟩
    · rw [exec_flitReplay takes, takeReplay_resends taken bears]
    · rw [port_replayTaken, taken]
      rfl
  · have cuts : NothingCutOff (replayTaken n.val f s) := ⟨alone, unparked, requests⟩
    refine ⟨_, exec_flitReplay (beating_of_up up), ?_⟩
    rw [takeReplay_eighth up taken again seven]
    obtain ⟨st, step, tx, replay, loss⟩ := portDown_stops n.val 1 (replayTaken n.val f s)
    obtain ⟨rx, credits, code⟩ := portDown_posts (n := n.val) 1 cuts
    rw [downCode, peer_replayTaken] at code
    exact ⟨st, step, tx, rx, replay, credits, loss, code⟩
  · exact ⟨_, exec_flitInit init third, port_takeInit_idle named tx passed resend got⟩
  · exact ⟨_, (exec_flitInit init third).trans (congrArg Host.Outcome.next (takeInit_expected named)), port_initCredited⟩
  · refine ⟨_, exec_flitInit init third, ?_⟩
    rw [takeInit_other wants other]
    obtain ⟨rx, credits, code⟩ := portDown_posts (n := n.val) 2 (reset_initTaken_alone (n := n) (peer := peer) (bad := true) ⟨alone, unparked, requests⟩)
    rw [downCode, port_initTaken] at code
    exact ⟨(portDown_stops ..).1, credits, code⟩
  · have counts : port (updPort n.val (countBad fec) s) n.val = q := (port_updPort_same ..).trans counted
    refine ⟨_, exec_flitCrcError fec takes, inbox_sendReplay .., ?_⟩
    rw [port_sendReplay, counts]
    rfl
  · refine ⟨_, exec_flitReplay (beating_of_up up), ?_⟩
    rw [takeReplay_eighth up taken again seven]
    obtain ⟨st, step, tx, replay, loss⟩ := portDown_stops n.val 1 (replayTaken n.val f s)
    exact ⟨st, tx, replay⟩
  · exact ⟨onlyIf_false _ _ idle, congrArg Host.Outcome.next (if_neg (by simp [idle]))⟩
  · refine onlyIf_false _ _ ?_
    rcases outside with state | step
    · simp [state]
    · simp [step]
  · refine ⟨_, exec_flitInit init third, ?_⟩
    rw [takeInit_other wants other]
    obtain ⟨peerKept, mismatch⟩ := portDown_keeps n.val 2 (initTaken n.val peer true s)
    rw [port_initTaken] at peerKept mismatch
    exact ⟨(portDown_stops ..).1, peerKept, mismatch⟩
  · have passing : flitRoute n.val f (inOrder n.val f s) = (inOrder n.val f s, .pass o c) :=
      flitRoute_later later (by rw [rx_inOrder n.val f s, passes]; rfl)
    refine ⟨keepRx n.val f (.pass o c) (inOrder n.val f s), ?_, rfl, ?_⟩
    · rw [exec_flitData_inOrder takes expected, routeFlit_pass passing, if_neg (by simp [later])]
    · rw [port_keepRx]
      exact expSeq_inOrder n.val f s
  · have dropped : flitRoute n.val f (inOrder n.val f s) = (inOrder n.val f s, .drop) :=
      flitRoute_later later (by rw [rx_inOrder n.val f s]; rcases drops with none | drop <;> simp [*])
    refine ⟨_, flitData_drops takes expected dropped, rfl, rfl, ?_⟩
    rw [port_updPort_same, port_keepRx]
    exact expSeq_inOrder n.val f s

end Sys2Proof.Machine

/-! ### Supplies, the boot chain, leak and THERMTRIP (R357, R358, R372–R374, R395, R400, R403, R406, R410, R412, R413) -/

namespace Sys2Proof.Machine

section Clocks

variable {s t u : State}

/-- What lies outside the always-on domain is lost; the partitions marked out of service stay so (R358, R418). -/
structure DataPlaneLost (t : State) : Prop where
  ptns : ∀ p, ptn t p = if t.aon.ptnOos.contains p then { service := .oos } else {}
  jobs : t.jobs = []
  ctxs : t.ctxs = []
  colls : t.colls = []
  cmds : t.cmds = []
  hbm : t.hbm = []
  host : t.host = {}
  hearthUp : t.hearthUp = false
  icern : t.icern = { ports := t.icern.ports }
  lines : ∀ n, port t n = { line := (port t n).line }

/-- Pins, levels and the other fields of the always-on domain do not bear on it. -/
theorem DataPlaneLost.aside (lost : DataPlaneLost u) (pins : Pins) (levels : List Level) {aon : Aon} (marks : aon.ptnOos = u.aon.ptnOos) :
    DataPlaneLost { u with pins := pins, levels := levels, aon := aon } :=
  ⟨fun p => (lost.ptns p).trans (by rw [marks]), lost.jobs, lost.ctxs, lost.colls, lost.cmds, lost.hbm, lost.host, lost.hearthUp, lost.icern, lost.lines⟩

theorem chipReset_loses (s : State) : DataPlaneLost (chipReset s) where
  ptns p := by
    show tgetD (s.aon.ptnOos.foldl (fun t p => tset t p ({ service := .oos } : Ptn)) []) p {} = _
    rw [tgetD, tget_setAll]
    show Option.getD _ _ = if s.aon.ptnOos.contains p then _ else _
    split <;> rfl
  jobs := rfl
  ctxs := rfl
  colls := rfl
  cmds := rfl
  hbm := rfl
  host := rfl
  hearthUp := rfl
  icern := rfl
  lines n := by
    show tgetD (tmap (fun _ (x : Port) => ({ line := x.line } : Port)) s.icern.ports) n {} =
      { line := (tgetD (tmap (fun _ (x : Port) => ({ line := x.line } : Port)) s.icern.ports) n {}).line }
    rw [tgetD, tget_tmap]
    cases tget s.icern.ports n <;> rfl

/-- What a power loss during the boot can change of the always-on domain: the committed slot, a pending NEXT_RESET and the rollback counter (R372, R374). -/
theorem cutRaise_aon (s : State) : (cutRaise s).aon =
    { s.aon with committed := (cutRaise s).aon.committed, nextReset := (cutRaise s).aon.nextReset, rollback := (cutRaise s).aon.rollback } := by
  unfold cutRaise
  (repeat' split) <;> rfl

theorem cutRaise_pins (s : State) : (cutRaise s).pins = s.pins := (k_cutRaise (within_self _) (Keeps.refl _ s)).same_pins

theorem cutRaise_of_none (none : s.aon.nextReset = none) : cutRaise s = s := by rw [cutRaise, none]

theorem stopClocks_loses (s : State) : DataPlaneLost (stopClocks s) := (chipReset_loses (cutRaise s)).aside _ _ rfl

theorem stopClocks_pins (s : State) : (stopClocks s).pins = { s.pins with clocks := false, linkTraining := false } :=
  congrArg (fun p : Pins => { p with clocks := false, linkTraining := false }) (cutRaise_pins s)

theorem stopClocks_aon (s : State) : (stopClocks s).aon = { (cutRaise s).aon with trial := false } := rfl

/-- The load disconnected with the clocks stopped; an L4 that runs goes on (R406, R413). -/
def unloaded (s t : State) : State := offLoad (keepL4 s (stopClocks t))

theorem unloaded_loses (s t : State) : DataPlaneLost (unloaded s t) := (stopClocks_loses t).aside _ _ rfl

/-! #### L4 (R357, R359) -/

theorem covered_l4 (s : State) : covered .l4 s = s.levels.any fun l => l.level == .l4 := by
  refine congrArg (fun f => s.levels.any f) (funext fun l => ?_)
  cases l.level <;> rfl

/-- An L4 asked for where only an L4 that runs is left: it goes on, or a new one starts (R357). -/
theorem startL4_alone (left : u.levels = s.levels.filter fun l => l.level == .l4) : startL4 u =
    { u with pins := { u.pins with cycleReq := u.pins.cycleReq || !covered .l4 s }
             levels := if covered .l4 s then s.levels.filter (fun l => l.level == .l4) else [{ level := .l4 }] } := by
  have same : covered .l4 u = covered .l4 s := by
    rw [covered_l4, covered_l4, left, List.any_filter]
    simp
  unfold startL4
  rw [same]
  cases runs : covered .l4 s with
  | true => simp [← left]
  | false =>
    have none : u.levels.filter (fun x => !sameScope .l4 x.level) = [] := by simp [sameScope]
    simp only [startLevel, startWith, updPins, none]
    simp

theorem startL4_of_covered (runs : covered .l4 s = true) : startL4 s = s := if_pos runs

theorem startL4_starts (idle : covered .l4 s = false) : startL4 s = startLevel .l4 [] (updPins (fun p => { p with cycleReq := true }) s) :=
  if_neg (by simp [idle])

/-! #### THERMTRIP and LEAK (R400, R403) -/

theorem codes_stopClocks (s : State) : (stopClocks s).aon.codes = s.aon.codes := by rw [stopClocks_aon, cutRaise_aon]

/-- The state in which a die has tripped: the code posted, the trip latched (R400). -/
def tripped (d : Die) (s : State) : State :=
  updAon (fun a => { a with trip := true }) (postFault (powerFault (if d = .west then 0x91 else 0x92) 4) s)

theorem trip_eq (d : Die) (s : State) : trip d s =
    startL4 (updPins (fun p => { p with thermtrip := true, pwrgd := false }) (keepL4 (tripped d s) (stopClocks (tripped d s)))) := rfl

/-- The state in which a leak is latched, its code posted and the peers told (R342, R403). -/
def leaked (s : State) : State :=
  noticeL4 (powerFault 0x93 7) (updAon (fun a => { a with leak := true }) (postFault (powerFault 0x93 7) s))

theorem latchLeak_eq (s : State) : latchLeak s = startL4 (keepL4 (leaked s) (stopClocks (leaked s))) := rfl

theorem leaked_keeps (s : State) : (leaked s).levels = s.levels ∧ (leaked s).pins = s.pins ∧
    (leaked s).aon = { s.aon with leak := true, total := s.aon.total + 1, codes := (powerFault 0x93 7 :: s.aon.codes).take 16 } := by
  have notices := k_noticeUp (within_self _) 4 (powerFault 0x93 7)
    (Keeps.refl [.icern] (updAon (fun a => { a with leak := true }) (postFault (powerFault 0x93 7) s)))
  refine ⟨notices.same_levels.trans (postFault_levels ..), notices.same_pins.trans (postFault_pins ..), notices.same_aon.trans ?_⟩
  show { (postFault (powerFault 0x93 7) s).aon with leak := true } = _
  rw [postFault_aon]

end Clocks

end Sys2Proof.Machine

/-! ### The boot chain (R325, R357, R364, R372–R374, R377) -/

namespace Sys2Proof.Machine

section Boot

variable {s : State}

/-- The always-on domain as the firmware starts; an L4 that completes clears what only it clears (R335, R357, R364, R372). -/
def startedAon (s : State) : Aon :=
  let done := s.levels.any fun l => l.level == .l4
  { s.aon with running := s.aon.committed, trial := false, oos := s.aon.oos && !done, linkWin := if done then {} else s.aon.linkWin
               l4Overrun := s.aon.l4Overrun && !done }

/-- A port that its enable bit lets train (R325). -/
def trainPort (s : State) (n : Nat) : State := updPort n (fun p => { p with st := .training, step := 1 }) s

/-- The ports that are enabled train (R325). -/
def trainPorts (s : State) : State := (bitsOf 4 s.aon.enable.toNat).foldl trainPort s

theorem trainPorts_rest (s : State) : trainPorts s = { s with icern := (trainPorts s).icern } := by
  have each : ∀ (l : List Nat) (u : State), l.foldl trainPort u = { u with icern := (l.foldl trainPort u).icern } := by
    intro l
    induction l with
    | nil => exact fun _ => rfl
    | cons n l ih => exact fun u => (ih (trainPort u n)).trans rfl
  exact each _ s

theorem trainPorts_trains {n : Nat} (low : n < 4) (enabled : bit s.aon.enable.toNat n = true) :
    (port (trainPorts s) n).st = .training ∧ (port (trainPorts s) n).step = 1 := by
  refine foldl_reaches (P := fun n u => (port u n).st = .training ∧ (port u n).step = 1) (fun u m => ?_) (fun u m k trains => ?_) _ s
    (.inl (mem_bitsOf.mpr ⟨low, enabled⟩))
  · rw [trainPort, port_updPort_same]
    exact ⟨rfl, rfl⟩
  · by_cases same : k = m
    · rw [same, trainPort, port_updPort_same]
      exact ⟨rfl, rfl⟩
    · rwa [trainPort, port_updPort_other _ _ same]

/-- The state in which the firmware starts, before its ports train: an L4 has completed (R357). -/
def bootedLevels (s : State) : State := { s with aon := startedAon s, levels := s.levels.filter fun l => l.level ≠ .l4 }

theorem startFirmware_eq (s : State) : startFirmware s = startMailboxes
    { updHearth (fun h => { h with awake := true, wakeDue := false, issued := some (issueAlias (trainPorts (bootedLevels s)).aon) })
        (trainPorts (bootedLevels s)) with hearthUp := true } := rfl

/-- What the firmware's start leaves: the Hearth up with the certificate of its image issued, the L4s done, the enabled ports in training. -/
structure Started (s t : State) : Prop where
  up : t.hearthUp = true
  aon : t.aon = startedAon s
  levels : t.levels = s.levels.filter fun l => l.level ≠ .l4
  issued : t.hearth.issued = some (issueAlias t.aon)
  trains : ∀ n, n < 4 → bit s.aon.enable.toNat n = true → (port t n).st = .training ∧ (port t n).step = 1

theorem startFirmware_starts (s : State) : Started s (startFirmware s) := by
  have rest := trainPorts_rest (bootedLevels s)
  have aon : (trainPorts (bootedLevels s)).aon = startedAon s := by rw [rest]; rfl
  have levels : (trainPorts (bootedLevels s)).levels = s.levels.filter fun l => l.level ≠ .l4 := by rw [rest]; rfl
  have trains : ∀ n, n < 4 → bit s.aon.enable.toNat n = true → (port (trainPorts (bootedLevels s)) n).st = .training ∧
      (port (trainPorts (bootedLevels s)) n).step = 1 := fun n low enabled => trainPorts_trains low enabled
  rw [startFirmware_eq]
  generalize trainPorts (bootedLevels s) = u at aon levels trains
  exact ⟨rfl, aon, levels, rfl, trains⟩

theorem takeNext_none (none : s.aon.nextReset = none) : updAon takeNext s = s := by
  unfold updAon takeNext
  rw [none]

/-- The committed slot, a pending NEXT_RESET taken first, starts where it is valid (R372, R374). -/
theorem boot_committed (valid : slotValid (takeNext s.aon) (takeNext s.aon).committed = true) : boot s = startFirmware (updAon takeNext s) := if_pos valid

/-- The committed slot fails with its code posted. -/
def slotFailed (s : State) : State := postFault (bootFault s.aon s.aon.committed) s

theorem slotFailed_aon (s : State) :
    (slotFailed s).aon = { s.aon with total := s.aon.total + 1, codes := (bootFault s.aon s.aon.committed :: s.aon.codes).take 16 } := postFault_aon ..

section Fails

variable (none : s.aon.nextReset = none) (fails : slotValid s.aon s.aon.committed = false)
include none fails

theorem boot_other (valid : slotValid s.aon (!s.aon.committed) = true) :
    boot s = startFirmware (updAon (fun a => { a with committed := !s.aon.committed }) (slotFailed s)) := by
  have still : slotValid (slotFailed s).aon (!s.aon.committed) = true := by rw [slotFailed_aon]; exact valid
  unfold boot
  dsimp only
  rw [takeNext_none none, if_neg (by simp [fails])]
  exact if_pos still

/-- Neither slot is valid: recovery, with the code of both (R372, R373). -/
theorem boot_recovers (other : slotValid s.aon (!s.aon.committed) = false) : ∃ f : Hearth → Hearth, (∀ h, (f h).recovery = true) ∧
    boot s = updAon (fun a => { a with recoveryTaken := true }) (updHearth f
      (postFault (bootFault (slotFailed s).aon (!s.aon.committed)) (slotFailed s))) := by
  have still : slotValid (slotFailed s).aon (!s.aon.committed) = false := by rw [slotFailed_aon]; exact other
  refine ⟨fun h => { h with recovery := true, mbx := tmap (fun m (x : Mbx) => if x.state = 1 ∧ (m = 0 ∨ m = 3) then { x with state := 2 } else x) h.mbx },
    fun _ => rfl, ?_⟩
  unfold boot
  dsimp only
  rw [takeNext_none none, if_neg (by simp [fails])]
  exact if_neg (by simpa [slotFailed] using still)

end Fails

end Boot

end Sys2Proof.Machine

/-! ### Supplies and boot: the rows (R357, R358, R372–R374, R395, R400, R403, R406, R410, R412, R413) -/

namespace Sys2Proof.Machine

section SupplyRows

variable {s : State}

theorem bootFault_slotFailed (b : Bool) (s : State) : bootFault (slotFailed s).aon b = bootFault s.aon b := by
  rw [slotFailed_aon]
  rfl

theorem exec_bootComplete (powered : s.pins.pwrgd = true) (down : s.hearthUp = false) (dry : s.aon.leak = false) (normal : s.hearth.recovery = false)
    (settled : s.hearth.restarting = false) : exec .bootComplete s = .next (boot s) :=
  onlyIf_true _ _ (by simp [powered, down, dry, normal, settled])

theorem exec_pwrEnDeassert (on : s.pins.pwrEn = true) : exec .pwrEnDeassert s =
    .next (updPins (fun p => { p with pwrEn := false, cycleReq := false, thermtrip := false }) (unloaded s (noticeL4 0 s))) := onlyIf_true _ _ on

theorem exec_hotSwapOvercurrent (on : s.pins.load = true) : exec .hotSwapOvercurrent s = .next (unloaded s s) := congrArg Host.Outcome.next (if_pos on)

theorem pwrEn_stopClocks (s : State) : (stopClocks s).pins.pwrEn = s.pins.pwrEn := by rw [stopClocks_pins]
theorem cycleReq_stopClocks (s : State) : (stopClocks s).pins.cycleReq = s.pins.cycleReq := by rw [stopClocks_pins]
theorem trip_stopClocks (s : State) : (stopClocks s).aon.trip = s.aon.trip := by rw [stopClocks_aon, cutRaise_aon]
theorem leak_stopClocks (s : State) : (stopClocks s).aon.leak = s.aon.leak := by rw [stopClocks_aon, cutRaise_aon]
theorem aux_stopClocks (s : State) : (stopClocks s).pins.aux = s.pins.aux := by rw [stopClocks_pins]

theorem exec_supply (on : s.pins.load = true) : exec .supply s = .next (startL4 (postFault (powerFault 0x90 6) s)) := congrArg Host.Outcome.next (if_pos on)

theorem exec_thermtrip (d : Die) (on : s.pins.pwrgd = true) : exec (.thermtrip d) s = .next (trip d s) := onlyIf_true _ _ on

theorem exec_leak (supplied : s.pins.aux = true) (dry : s.aon.leak = false) : exec .leak s = .next (latchLeak s) :=
  onlyIf_true _ _ (by simp [supplied, dry])

theorem alertN_of_leak (supplied : s.pins.aux = true) (wet : s.aon.leak = true) : alertN s = true := by simp [alertN, alertCauses, supplied, wet]

end SupplyRows

/-- Settles O47: a stop of the clocks loses the data plane whatever stops them; the boot chain is its three branches. -/
theorem suppliesAndBoot : Obligations.SuppliesAndBoot := by
  unfold Obligations.SuppliesAndBoot
  refine ⟨fun s off => ?_, fun s on => onlyIf_false _ _ (by simp [on]), fun s on => ?_, fun s off => ?_, fun s off => onlyIf_false _ _ off, fun s off => ?_,
    fun s d off => onlyIf_false _ _ off, fun s => rfl, fun s on => ?_, fun s on => ?_, fun s off => ?_,
    fun s enabled loaded supplied unpowered cool => ?_, fun s powered down dry normal settled none valid => ?_,
    fun s b powered down dry normal settled next valid rises => ?_, fun s powered down dry normal settled none fails valid => ?_,
    fun s powered down dry normal settled none fails other => ?_, fun s bars => ?_, fun s d powered => ?_, fun s supplied dry => ?_, fun s off => ?_,
    fun s on idle => ?_, fun s on runs => ?_, fun s off => ?_⟩
  · exact ⟨auxUp s, onlyIf_true _ _ (by simp [off]), rfl, rfl, rfl, rfl, rfl, rfl, rfl, rfl⟩
  · exact ⟨updPins (fun p => { p with aux := false }) (auxUp s), congrArg Host.Outcome.next (if_pos on), rfl, rfl, rfl, rfl, rfl, rfl, rfl, rfl, rfl⟩
  · exact congrArg Host.Outcome.next (if_neg (by simp [off]))
  · refine congrArg Host.Outcome.next (if_neg ?_)
    rcases off with off | off | off | on | hot <;> simp [*]
  · have lost := unloaded_loses s (noticeL4 0 s)
    exact ⟨_, exec_pwrEnDeassert on, rfl, rfl, rfl, rfl, rfl, rfl, lost.ptns, lost.jobs, lost.ctxs, lost.colls, lost.cmds, lost.hbm, lost.host, lost.hearthUp,
      lost.icern, lost.lines, rfl⟩
  · have lost := unloaded_loses s s
    exact ⟨_, exec_hotSwapOvercurrent on, rfl, rfl, rfl, pwrEn_stopClocks s, rfl, cutRaise_of_none, lost.ptns, lost.jobs, lost.ctxs,
      lost.colls, lost.cmds, lost.hbm, lost.host, lost.hearthUp, lost.icern, lost.lines, rfl⟩
  · exact congrArg Host.Outcome.next (if_neg (by simp [off]))
  · exact congrArg Host.Outcome.next (if_pos (by simp [enabled, loaded, supplied, unpowered, cool]))
  · refine ⟨_, exec_bootComplete powered down dry normal settled, ?_⟩
    have taken : takeNext s.aon = s.aon := congrArg State.aon (takeNext_none none)
    rw [boot_committed (by rw [taken]; exact valid), takeNext_none none]
    have starts := startFirmware_starts s
    exact ⟨starts.up, by rw [starts.aon]; rfl, by rw [starts.aon]; rfl, by rw [starts.aon]; rfl, starts.levels, starts.issued, by rw [starts.aon]; rfl,
      starts.trains⟩
  · refine ⟨_, exec_bootComplete powered down dry normal settled, ?_⟩
    have taken : takeNext s.aon = { s.aon with committed := b, trial := false, nextReset := none, rollback := (fwSlot s.aon b).sv } := by
      rw [takeNext, next, ← Nat.max_eq_right rises]
    have fits : slotValid (takeNext s.aon) (takeNext s.aon).committed = true := by
      rw [taken, slotValid, Bool.and_eq_true]
      exact ⟨valid, decide_eq_true (Nat.le_refl _)⟩
    have starts := startFirmware_starts (updAon takeNext s)
    have aon := starts.aon
    have cleared : (updAon takeNext s).aon = takeNext s.aon := rfl
    rw [startedAon, cleared, taken] at aon
    rw [boot_committed fits]
    exact ⟨starts.up, by rw [aon], by rw [aon], by rw [aon], by rw [aon]⟩
  · refine ⟨_, exec_bootComplete powered down dry normal settled, ?_⟩
    rw [boot_other none fails valid]
    have starts := startFirmware_starts (updAon (fun a => { a with committed := !s.aon.committed }) (slotFailed s))
    have aon := starts.aon
    have switched : (updAon (fun a => { a with committed := !s.aon.committed }) (slotFailed s)).aon = { (slotFailed s).aon with committed := !s.aon.committed } := rfl
    rw [startedAon, switched, slotFailed_aon] at aon
    exact ⟨starts.up, by rw [aon], by rw [aon], by rw [aon], by rw [aon]; rfl⟩
  · obtain ⟨f, recovers, boots⟩ := boot_recovers none fails other
    refine ⟨_, exec_bootComplete powered down dry normal settled, ?_⟩
    rw [boots, bootFault_slotFailed]
    refine ⟨?_, recovers _, ?_, ?_⟩
    · exact (postFault_hearthUp ..).trans ((postFault_hearthUp ..).trans down)
    · exact (postFault_ptns ..).trans (postFault_ptns ..)
    · show (postFault (bootFault s.aon (!s.aon.committed)) (slotFailed s)).aon.codes.take 2 = _
      rw [postFault_aon, slotFailed_aon]
      rfl
  · refine onlyIf_false _ _ ?_
    rcases bars with wet | off | up | recovering | restarting <;> simp [*]
  · have levels : (tripped d s).levels = s.levels := postFault_levels ..
    have left : (updPins (fun p => { p with thermtrip := true, pwrgd := false }) (keepL4 (tripped d s) (stopClocks (tripped d s)))).levels =
        s.levels.filter fun l => l.level == .l4 := congrArg (List.filter fun l : Level => l.level == .l4) levels
    have lost := stopClocks_loses (tripped d s)
    have request : (stopClocks (tripped d s)).pins.cycleReq = s.pins.cycleReq :=
      (cycleReq_stopClocks _).trans (congrArg Pins.cycleReq (postFault_pins ..))
    refine ⟨_, exec_thermtrip d powered, ?_⟩
    rw [trip_eq, startL4_alone left]
    refine ⟨rfl, rfl, rfl, congrArg (· || !covered .l4 s) request, trip_stopClocks (tripped d s), rfl, ?_, lost.ptns, lost.jobs, lost.ctxs, lost.colls, lost.cmds,
      lost.hbm, lost.hearthUp⟩
    exact (congrArg List.head? (codes_stopClocks (tripped d s))).trans (head_codes_postFault ..)
  · obtain ⟨levels, pins, aon⟩ := leaked_keeps s
    have left : (keepL4 (leaked s) (stopClocks (leaked s))).levels = s.levels.filter fun l => l.level == .l4 :=
      congrArg (List.filter fun l : Level => l.level == .l4) levels
    have lost := stopClocks_loses (leaked s)
    have request : (stopClocks (leaked s)).pins.cycleReq = s.pins.cycleReq := by rw [cycleReq_stopClocks, pins]
    have wet : (stopClocks (leaked s)).aon.leak = true := by rw [leak_stopClocks, aon]
    have on : (stopClocks (leaked s)).pins.aux = true := by rw [aux_stopClocks, pins, supplied]
    refine ⟨_, exec_leak supplied dry, ?_⟩
    rw [latchLeak_eq, startL4_alone left]
    refine ⟨wet, rfl, congrArg (· || !covered .l4 s) request, alertN_of_leak on wet, rfl, ?_, lost.ptns, lost.jobs, lost.ctxs, lost.colls, lost.cmds, lost.hbm,
      lost.hearthUp⟩
    refine (congrArg List.head? (codes_stopClocks (leaked s))).trans ?_
    rw [aon]
    rfl
  · refine onlyIf_false _ _ ?_
    rcases off with wet | off <;> simp [*]
  · refine ⟨_, exec_supply on, ?_⟩
    rw [startL4_starts ((covered_postFault ..).trans idle)]
    refine ⟨?_, ⟨_, List.mem_cons_self, rfl⟩, head_codes_postFault .., postFault_ptns .., postFault_cmds .., postFault_colls ..⟩
    exact congrArg (fun p : Pins => { p with cycleReq := true }) (postFault_pins ..)
  · rw [exec_supply on, startL4_of_covered ((covered_postFault ..).trans runs)]
    rfl
  · exact congrArg Host.Outcome.next (if_neg (by simp [off]))

end Sys2Proof.Machine

/-! ### Requests that are refused or held before their own checks (R309–R311, R313, R314, R352, R363, R364, R373) -/

namespace Sys2Proof.Machine

/-- Each row of one form runs its opcode's handler on the request of its mailbox (R309, R315). -/
theorem exec_of_mailboxRow {i : Instr} {m : Fin 4} {op : Nat} (row : mailboxRow i = some (m, op)) :
    ∃ (hold : Req → Work) (h : Handler) (reply : ReadReply), ∀ s, exec i s = .next (mailboxWith hold m.val op anyForm h reply s) := by
  unfold mailboxRow at row
  split at row
  case h_37 => exact absurd row (by simp)
  all_goals
    obtain ⟨rfl, rfl⟩ := Prod.mk.inj (Option.some.inj row)
    exact ⟨_, _, _, fun _ => rfl⟩

section Refused

variable {hold : Req → Work} {m op : Nat} {h : Handler} {reply : ReadReply} {q : Req} {s : State}

/-! #### Who may run (R309, R311) -/

/-- The request of the mailbox is the one to be executed now: accepted, with someone to execute it, and no earlier one in its way (R309, R311). -/
structure MayRun (s : State) (m : Nat) (q : Req) : Prop where
  req : (mbx s m).req = some q
  state : (mbx s m).state = 2
  executes : executes s m = true
  first : waitsMailbox s m q = false

theorem mailboxWith_runs (may : MayRun s m q) : mailboxWith hold m op anyForm h reply s =
    if !knownOpcode q.opcode then answerMbx m q { status := .invalidField } s
    else if q.opcode ≠ op then s
    else if s.hearth.recovery && !romAccepts op then answerMbx m q { status := .invalidField } s
    else if heldBehind s q (mbx s m).order then settleReq m q (mbx s m).order s (s, .busy (hold q))
    else settleReq m q (mbx s m).order s (runReq h m q reply s) := by
  unfold mailboxWith
  dsimp only
  rw [may.req]
  dsimp only
  rw [if_neg (by simp [may.state, may.executes, may.first])]
  simp [anyForm]

theorem mailboxWith_of_unknown (may : MayRun s m q) (unknown : knownOpcode q.opcode = false) :
    mailboxWith hold m op anyForm h reply s = answerMbx m q { status := .invalidField } s := by
  rw [mailboxWith_runs may, if_pos (by simp [unknown])]

/-- Out of its turn a row changes nothing (R309, R311). -/
theorem mailboxWith_idle (idle : (mbx s m).state ≠ 2 ∨ executes s m = false ∨
    ((mbx s m).req.all fun q => waitsMailbox s m q || (knownOpcode q.opcode && q.opcode != op)) = true) : mailboxWith hold m op anyForm h reply s = s := by
  unfold mailboxWith
  dsimp only
  cases held : (mbx s m).req with
  | none => rfl
  | some q =>
    dsimp only
    split
    · rfl
    · next runs =>
      rw [held] at idle
      simp only [not_or, Bool.not_eq_true', Bool.not_eq_false, ne_eq, not_not] at runs
      obtain ⟨state, executed, first⟩ := runs
      have other : knownOpcode q.opcode = true ∧ q.opcode ≠ op := by simpa [state, executed, first] using idle
      rw [if_neg (by simp [other.1]), if_pos (.inl other.2)]

section Named

/-- The request carries the row's opcode. -/
structure RunsRow (s : State) (m op : Nat) (q : Req) : Prop extends MayRun s m q where
  known : knownOpcode op = true
  named : q.opcode = op

theorem mailboxWith_row (runs : RunsRow s m op q) : mailboxWith hold m op anyForm h reply s =
    if s.hearth.recovery && !romAccepts op then answerMbx m q { status := .invalidField } s
    else if heldBehind s q (mbx s m).order then settleReq m q (mbx s m).order s (s, .busy (hold q))
    else settleReq m q (mbx s m).order s (runReq h m q reply s) := by
  rw [mailboxWith_runs runs.toMayRun, if_neg (by simp [runs.named, runs.known]), if_neg (by simp [runs.named])]

/-- In recovery a command that the ROM does not take (R373). -/
theorem mailboxWith_of_recovery (runs : RunsRow s m op q) (recovering : (s.hearth.recovery && !romAccepts op) = true) :
    mailboxWith hold m op anyForm h reply s = answerMbx m q { status := .invalidField } s := by
  rw [mailboxWith_row runs, if_pos recovering]

variable (runs : RunsRow s m op q) (taken : (s.hearth.recovery && !romAccepts op) = false)
include runs taken

/-- One behind an earlier command that names its object (R311). -/
theorem mailboxWith_of_held (behind : heldBehind s q (mbx s m).order = true) :
    mailboxWith hold m op anyForm h reply s = settleReq m q (mbx s m).order s (s, .busy (hold q)) := by
  rw [mailboxWith_row runs, if_neg (by simp [taken]), if_pos behind]

/-- One that fails the checks before its own is answered so, without any other effect (R309, R314, R352, R363). -/
theorem mailboxWith_of_fails {st : MStatus} (free : heldBehind s q (mbx s m).order = false) (fails : runReq h m q reply s = (s, mFail st)) :
    mailboxWith hold m op anyForm h reply s = answerMbx m q { status := st } s := by
  rw [mailboxWith_row runs, if_neg (by simp [taken]), if_neg (by simp [free]), fails]
  rfl

end Named

/-! #### The checks before a command's own (R309, R314, R352, R363) -/

theorem runReq_malformed (bad : q.rsv = true ∨ 4096 < q.len) : runReq h m q reply s = (s, mFail .invalidField) := if_pos (by simpa using bad)

section WellFormed

variable (plain : q.rsv = false) (short : q.len ≤ 4096)
include plain short

theorem runReq_outOfService (out : outOfService s = true) (range : [0, 6, 7].contains (q.opcode / 256) = false) :
    runReq h m q reply s = (s, mFail .outOfService) := by
  rw [runReq, if_neg (by simp [plain, short]), if_pos (by rw [out, range]; rfl)]

variable (serves : outOfService s = false ∨ [0, 6, 7].contains (q.opcode / 256) = true)
include serves

theorem runReq_inService : runReq h m q reply s =
    if !actsOnOos q.opcode && anyOos s (reqNeeds s q) then (s, mFail .outOfService)
    else if !actsOnFenced q.opcode && anyFenced s (reqNeeds s q) then (s, mFail .fenced)
    else h m q reply s := by
  rw [runReq, if_neg (by simp [plain, short]), if_neg]
  rcases serves with inService | range
  · rw [inService]
    exact Bool.false_ne_true
  · rw [range]
    simp

theorem runReq_needsOos (acts : actsOnOos q.opcode = false) (needs : anyOos s (reqNeeds s q) = true) : runReq h m q reply s = (s, mFail .outOfService) := by
  rw [runReq_inService plain short serves, if_pos (by simp [acts, needs])]

theorem runReq_needsFenced (acts : actsOnOos q.opcode = true ∨ anyOos s (reqNeeds s q) = false) (fenced : actsOnFenced q.opcode = false)
    (needs : anyFenced s (reqNeeds s q) = true) : runReq h m q reply s = (s, mFail .fenced) := by
  rw [runReq_inService plain short serves, if_neg, if_pos (by simp [fenced, needs])]
  rcases acts with acts | none <;> simp [*]

end WellFormed

end Refused

/-- Settles O55: each row runs the one protocol of its mailbox, whose checks come in their order. -/
theorem refusedRequests : Obligations.RefusedRequests := by
  unfold Obligations.RefusedRequests
  refine ⟨fun i m op s q row req state execs first unknown => ?_, fun i m op s q row req state execs first known named taken free bad => ?_,
    fun i m op s q row req state execs first known named taken free plain short out range => ?_,
    fun i m op s q row req state execs first known named taken free plain short serves acts needs => ?_,
    fun i m op s q row req state execs first known named taken free plain short serves acts fenced needs => ?_,
    fun i m op s q row req state execs first known named taken behind room => ?_,
    fun i m op s q row req state execs first known named recovering => ?_,
    fun i m op s q row req state execs first known named taken behind full => ?_, fun i m op s row idle => ?_⟩
  all_goals obtain ⟨hold, h, reply, runs⟩ := exec_of_mailboxRow row
  all_goals rw [runs]
  · rw [mailboxWith_of_unknown ⟨req, state, execs, first⟩ unknown]
  · rw [mailboxWith_of_fails ⟨⟨req, state, execs, first⟩, known, named⟩ taken free (runReq_malformed bad)]
  · subst named
    rw [mailboxWith_of_fails ⟨⟨req, state, execs, first⟩, known, rfl⟩ taken free (runReq_outOfService plain short out range)]
  · subst named
    rw [mailboxWith_of_fails ⟨⟨req, state, execs, first⟩, known, rfl⟩ taken free (runReq_needsOos plain short serves acts needs)]
  · subst named
    rw [mailboxWith_of_fails ⟨⟨req, state, execs, first⟩, known, rfl⟩ taken free (runReq_needsFenced plain short serves acts fenced needs)]
  · obtain ⟨ticketed, v, r, answer, noted⟩ := ticketed_settle (m := m) (q := q) (u := s) (hold q) room
    refine ⟨_, hold q, congrArg Host.Outcome.next (mailboxWith_of_held ⟨⟨req, state, execs, first⟩, known, named⟩ taken behind), ticketed, ?_⟩
    rw [answer, noted]
    simp
  · rw [mailboxWith_of_recovery ⟨⟨req, state, execs, first⟩, known, named⟩ recovering]
  · rw [mailboxWith_of_held ⟨⟨req, state, execs, first⟩, known, named⟩ taken behind, settleReq, if_pos full]
  · rw [mailboxWith_idle idle]

end Sys2Proof.Machine
